-- ==== Sys2Proof/Word.lean ====
section
/-! DEFINITION. The words of the SX-6400: 32-bit register words, bytes, and the plain field arithmetic over them. -/
namespace Sys2Proof

/-- A register word (R85: every register is a 32-bit word). -/
abbrev Word := BitVec 32

/-- A byte of a window, a frame or a telegram. -/
abbrev Byte := BitVec 8

/-- The value of bits `lo + w - 1 : lo` of a word. -/
def bits (x : Word) (lo w : Nat) : Nat := (x.toNat >>> lo) % 2 ^ w

/-- A word with bits `lo + w - 1 : lo` replaced by `v`. -/
def setBits (x : Word) (lo w v : Nat) : Word :=
  BitVec.ofNat 32 (x.toNat - bits x lo w * 2 ^ lo + (v % 2 ^ w) * 2 ^ lo)

/-- Bit `n` of a word. -/
def bit (x : Word) (n : Nat) : Bool := x.getLsbD n

/-- Addition that stops at a field's largest value. -/
def satAdd (w a b : Nat) : Nat := min (a + b) (2 ^ w - 1)

/-- A number that stops at a field's largest value. -/
def sat (w a : Nat) : Nat := min a (2 ^ w - 1)

/-- The signed value of the low `w` bits of a number. -/
def signed (w v : Nat) : Int :=
  let m := v % 2 ^ w
  if m < 2 ^ (w - 1) then (m : Int) else (m : Int) - (2 ^ w : Nat)

/-- The two's complement bits of a signed value in `w` bits. -/
def toBits (w : Nat) (v : Int) : Nat := (v % (2 ^ w : Nat)).toNat

/-- A signed value kept within `w` bits of two's complement by saturation. -/
def satBits (w : Nat) (v : Int) : Nat :=
  let hi : Int := (2 ^ (w - 1) : Nat) - 1
  let lo : Int := -(2 ^ (w - 1) : Nat)
  toBits w (if v > hi then hi else if v < lo then lo else v)

end Sys2Proof
end

