-- ==== Sys2Proof/Syntax.lean ====
section
/-! DEFINITION. The commands of the SX-6400: one constructor per row of the opcode table, with what the command carries.
An event row carries what was observed outside the block (a measured value, a received frame, an outcome); a register row
carries the lane it is written through and the value. -/
namespace Sys2Proof

/-- The two lanes (R9). -/
inductive Lane where
  | A | B
deriving DecidableEq, Repr

/-- The other lane. -/
def Lane.other : Lane → Lane
  | .A => .B
  | .B => .A

/-- 0 for Lane A, 1 for Lane B. -/
def Lane.idx : Lane → Nat
  | .A => 0
  | .B => 1

/-- Lane B where the bit is set. -/
def Lane.ofB (b : Bool) : Lane := if b then .B else .A

/-- The causes of R491 that end by the passing of time or by a pin: the row LANE_RESET_RELEASE names the one that ends. -/
inductive TimedHold where
  | pin | soft | mon | clk
deriving DecidableEq, Repr

/-- The islands with a supply of their own (R58). -/
inductive Island where
  | hv (n : Fin 34)
  | sense (n : Fin 7)
  | lv
deriving DecidableEq, Repr

/-- The gate islands that obey a command stream (R20). -/
inductive GateIsland where
  | hv (n : Fin 34)
  | lv
deriving DecidableEq, Repr

/-- A gate channel: H00 to H33 or L00 to L11 (R16). -/
inductive Chan where
  | h (n : Fin 34)
  | l (n : Fin 12)
deriving DecidableEq, Repr

/-- The token groups of R21. -/
inductive TokenGroup where
  | tg0 | tg1 | tg2
deriving DecidableEq, Repr

/-- One reading of the straps by AON (R51, R52). -/
structure Straps where
  devnum : BitVec 6
  tmode : Bool
deriving DecidableEq, Repr

/-- What a flash read pass finds in an image slot (R60, R61, R175): the outcome of the CRC-32, the manifest header and
digest, the law table's pair digest, the bytes it copies into the windows' banks (law table, directory, tables) and the
register values of the configuration it carries. -/
structure ImageRead where
  crcOk : Bool
  version : Word
  flags : Byte
  digest : BitVec 256
  pairDigest : Word
  load : List (Nat × Byte)
  config : List (Nat × Word)
deriving DecidableEq, Repr

/-- The copied state of one actuator (R327, bytes 32 to 63). -/
structure ActCopy where
  state : BitVec 8 := 0
  pos : Word := 0
  ref : Bool := false
  travel : Word := 0
  target : Word := 0
  holdLeft : Nat := 0
  lrTimer : Nat := 0
deriving DecidableEq, Repr

/-- A state copy as it lies in a slot of B8 (R327). -/
structure StateCopy where
  counter : Word := 0
  ts : BitVec 64 := 0
  valid : Bool := true
  half : Bool := false
  token : Bool := false
  trcState : BitVec 4 := 0
  safeCause : BitVec 4 := 0
  chgState : BitVec 8 := 0
  afeState : BitVec 4 := 0
  dabState : BitVec 4 := 0
  seq : Vector (BitVec 16) 4 := Vector.replicate 4 0
  share : Word := 0
  tstar : Word := 0
  act : Vector ActCopy 2 := Vector.replicate 2 {}
  chgTimers : Vector Word 3 := Vector.replicate 3 0
  ibat : Word := 0
  sinks : Vector (BitVec 16) 6 := Vector.replicate 6 0
  clsSeq : Vector (BitVec 16) 8 := Vector.replicate 8 0
  engine : List (Nat × Word) := []
deriving DecidableEq, Repr

/-- A heartbeat (R328). -/
structure Heartbeat where
  counter : BitVec 16 := 0
  state : BitVec 3 := 0
  fail : Bool := false
  cause : BitVec 4 := 0
  peerSeen : Bool := false
  split : Bool := false
  tokenPub : Bool := false
  speed : Word := 0
  vref : Word := 0
  dclState : BitVec 4 := 0
  dclOv : Bool := false
  speedValid : Bool := false
  afeState : BitVec 4 := 0
  dabState : BitVec 4 := 0
  fper : BitVec 16 := 0
deriving DecidableEq, Repr

/-- The verdicts of a 1 ms clock-measurement window (R73): what the monitor and each lane found, and Lane B's x.SMP
frequency minus Lane A's in ppm. -/
structure ClockWindow where
  /-- the monitor finds Lane A within ±3 % -/
  monFindsA : Bool
  /-- the monitor finds Lane B within ±3 % -/
  monFindsB : Bool
  /-- Lane A finds the monitor within ±3 % -/
  aFindsMon : Bool
  /-- Lane B finds the monitor within ±3 % -/
  bFindsMon : Bool
  ppm : Int
deriving DecidableEq, Repr

/-- The angle sources of R111. -/
inductive Src where
  | res | enc | ssi | hall | obs
deriving DecidableEq, Repr

/-- The place of a source in FBK_STAT and FBK_CLR (R138). -/
def Src.idx : Src → Nat
  | .res => 0
  | .enc => 1
  | .ssi => 2
  | .hall => 3
  | .obs => 4

/-- The code of a source in FBK_SEL and FBK_STAT (R111). -/
def Src.code (x : Src) : Nat := x.idx + 1

/-- A result that reaches the control engine (R148): a SAR input with its raw code and tag, whether it had to wait, and
whether a gate edge fell within QUIET before a group T instant; an output of a stream's decimator; or an internal
reference (R150). -/
inductive ConvIn where
  | sar (n : Fin 24) (code : BitVec 16) (tag : BitVec 4) (waited edge : Bool)
  | stream (m : Fin 7) (value : BitVec 16) (tag : BitVec 4)
  | reference (high : Bool) (code : BitVec 16)
deriving DecidableEq, Repr

/-- Who sees an event of a sense stream: a lane, or the monitor. -/
inductive Seer where
  | lane (l : Lane)
  | mon
deriving DecidableEq, Repr

/-- What a pair of polarity pulses shows (R222). -/
inductive PolResult where
  | plus | minus | neither
deriving DecidableEq, Repr

/-- A control-pilot measurement that has held (R289): the plateaus in mV, whether PWM is present, and its frequency in mHz. -/
structure CpLevel where
  high : Int
  low : Int
  pwm : Bool
  mhz : Nat
deriving DecidableEq, Repr

/-- The disturbances that trip the charger (R297). -/
inductive GridTrip where
  | deepDip | longDip | overvoltage | frequency | phaseLost | unlock | busLow
deriving DecidableEq, Repr

/-- What the token holder measures of the mains (R296, R297): rms of L1, L2, L3 and the highest line-to-line rms in 0.1 V,
the highest THD in 0.1 %, and the retained voltage in 0.1 %. -/
structure GridMeas where
  v1 : BitVec 16
  v2 : BitVec 16
  v3 : BitVec 16
  vll : BitVec 16
  thd : BitVec 16
  retained : Nat
deriving DecidableEq, Repr

/-- A carrier with its own period (R28): a converter phase of the lane, an AFE leg, the DAB, or an actuator's bridge with the
shunt's conversion code (R313). -/
inductive Carrier where
  | phase (k : Fin 2)
  | leg (k : Fin 3)
  | dab
  | bridge (a : Fin 2) (code : BitVec 10)
deriving DecidableEq, Repr

/-- A frame of the monitor's converters (R367): three pairs of codes of each set, the supplies in mV, whether an internal
reference is off by more than 1 %, and the die temperature in °C. -/
structure MonFrame where
  iu1 : Vector (BitVec 12) 3
  iv1 : Vector (BitVec 12) 3
  iu2 : Vector (BitVec 12) 3
  iv2 : Vector (BitVec 12) 3
  vsa : Nat
  vsb : Nat
  internal : Nat
  refOff : Bool
  temp : Int
deriving DecidableEq, Repr

/-- A journal entry of B9 (R339). -/
structure JEntry where
  seq : BitVec 16
  sess : Fin 4
  kind : BitVec 2
  be : BitVec 4
  applied : Bool
  addr : BitVec 24
  data : Word
  ts : Word
deriving DecidableEq, Repr

/-- The path on which a heartbeat arrives (R328): directly at a lane, at the monitor from a lane, or at a lane by the monitor's
relay of the peer's heartbeat. -/
inductive HbPath where
  | direct (l : Lane)
  | toMon (x : Lane)
  | relayed (l : Lane)
deriving DecidableEq, Repr

/-- A CAN frame (R423, R428): identifier, format, length code and data bytes. -/
structure CanFrame where
  ide : Bool := false
  id : BitVec 29 := 0
  fdf : Bool := false
  brs : Bool := false
  rtr : Bool := false
  esi : Bool := false
  dlc : BitVec 4 := 0
  data : List Byte := []
deriving DecidableEq, Repr

/-- The number of a host request: its session and its sequence number (R105). -/
structure Req where
  sess : Fin 4
  seq : BitVec 16
deriving DecidableEq, Repr

/-- Where a controller's own frame stands on the bus (R427, R429): not started, or started, in arbitration or with arbitration
won. -/
inductive BusPhase where
  | before
  | started
deriving DecidableEq, Repr


/-- The commands: one constructor per row of the opcode table, in the table's order. -/
inductive Instr where
  /-- VS_VALID (R57) -/
  | vsValid (l : Lane)
  /-- VS_FAILED (R57) -/
  | vsFailed (l : Lane)
  /-- NPOR_ASSERT (R80) -/
  | nporAssert
  /-- NPOR_RELEASE (R77) -/
  | nporRelease
  /-- NRST_ASSERT (R78) -/
  | nrstAssert (l : Lane)
  /-- LANE_RESET_RELEASE (R491) -/
  | laneResetRelease (l : Lane) (c : TimedHold)
  /-- SOFT_RESET (R76) -/
  | softReset (l : Lane)
  /-- WARM_RESTART (R76) -/
  | warmRestart (l : Lane)
  /-- DEVNUM_SAMPLE (R51) -/
  | devnumSample (s1 s2 s3 : Straps) (v33Low : Bool)
  /-- FLASH_READ_PASS_DONE (R60) -/
  | flashReadPassDone (l : Lane) (r : ImageRead)
  /-- IMAGE_VERIFY (R62) -/
  | imageVerify (l : Lane) (sigOk : Bool)
  /-- CONTROL_READY (R59) -/
  | controlReady (l : Lane)
  /-- DROOP_ENTRY (R65) -/
  | droopEntry (l : Lane)
  /-- DROOP_RELEASE (R68) -/
  | droopRelease (l : Lane)
  /-- XTAL_FAIL (R74) -/
  | xtalFail (l : Lane)
  /-- CLOCK_CHECK_WINDOW (R74) -/
  | clockCheckWindow (w : ClockWindow)
  /-- PEER_RESET (R78) -/
  | peerReset (l : Lane)
  /-- PEER_RESET_STUCK (R78) -/
  | peerResetStuck (l : Lane)
  /-- ISLAND_USABLE (R58) -/
  | islandUsable (isl : Island)
  /-- ISLAND_SUPPLY_LOST (R58) -/
  | islandSupplyLost (isl : Island)
  /-- STREAM_LOST (R83) -/
  | streamLost (isl : GateIsland)
  /-- SAFE_STATE_LINE_LOST (R83) -/
  | safeStateLineLost (n : Fin 12)
  /-- OVS_OVERVOLTAGE (R249) -/
  | ovsOvervoltage (k : Fin 6) (mv : BitVec 16)
  /-- OVS_ASC_ENTRY (R250) -/
  | ovsAscEntry (k : Fin 6)
  /-- OVS_ASC_RELEASE (R84) -/
  | ovsAscRelease (k : Fin 6)
  /-- REGISTER_WRITE (R93) -/
  | registerWrite (l : Lane) (addr : BitVec 24) (data : Word) (be : BitVec 4) (q : Option Req) (ph : BusPhase)
  /-- BLOCK_SOFT_RESET (R90) -/
  | blockSoftReset (l : Lane) (pg : BitVec 12) (q : Option Req)
  /-- LOCK_SET (R96) -/
  | lockSet (l : Lane) (pg : BitVec 12) (w : Word) (q : Option Req)
  /-- EVENT_FORCE (R89) -/
  | eventForce (l : Lane) (pg : BitVec 12) (w : Word) (q : Option Req)
  /-- DUAL_WRITE_HALF (R97) -/
  | dualWriteHalf (l : Lane) (addr : BitVec 24) (data : Word) (q : Option Req)
  /-- DUAL_TIMEOUT (R97) -/
  | dualTimeout (l : Lane) (addr : BitVec 24)
  /-- DUAL_HALF_LANE_TIMEOUT (R97) -/
  | dualHalfLaneTimeout (l : Lane) (addr : BitVec 24)
  /-- SIGNAL_ACCESS (R102) -/
  | signalAccess (l : Lane) (n : BitVec 14) (w : Option Word) (q : Option Req) (ph : BusPhase)
  /-- PERIOD_COMPLETE (R106) -/
  | periodComplete (l : Lane) (k : Fin 4)
  /-- SHADOW_ARM_PEER (R109) -/
  | shadowArmPeer (l : Lane) (q : Req)
  /-- SHADOW_TRANSFER (R29) -/
  | shadowTransfer (l : Lane)
  /-- FAST_CYCLE_START (R30) -/
  | fastCycleStart (l : Lane) (ovr : Bool) (caught : Option (BitVec 16 × Word))
  /-- MEDIUM_CYCLE_START (R27) -/
  | mediumCycleStart (l : Lane) (ovr : Bool) (g : GridMeas)
  /-- SLOW_CYCLE_START (R27) -/
  | slowCycleStart (l : Lane) (ovr tvOk : Bool)
  /-- LOCKSTEP_MISMATCH (R333) -/
  | lockstepMismatch (l : Lane)
  /-- CONVERSION_RESULT (R148) -/
  | conversionResult (l : Lane) (r : ConvIn)
  /-- ENC_EDGE (R121) -/
  | encEdge (l : Lane) (pa pb : Bool)
  /-- INDEX_LATCH (R125) -/
  | indexLatch (l : Lane)
  /-- HALL_EDGE (R127) -/
  | hallEdge (l : Lane) (h : BitVec 3)
  /-- RES_TRACK_UPDATE (R120) -/
  | resTrackUpdate (l : Lane) (angle : BitVec 24) (speed : Word) (amp : BitVec 16) (full : Bool) (err : BitVec 16) (phase : BitVec 8)
  /-- SSI_REQUEST (R128) -/
  | ssiRequest (l : Lane) (datLow : Bool)
  /-- SSI_FRAME (R129) -/
  | ssiFrame (l : Lane) (data : Word) (err par low : Bool)
  /-- POS_STALE (R116) -/
  | posStale (l : Lane) (x : Src)
  /-- SPEED_ZERO_TIMEOUT (R131) -/
  | speedZeroTimeout (l : Lane) (x : Src)
  /-- POS_DISAGREE (R133) -/
  | posDisagree (l : Lane)
  /-- SOURCE_RETURN (R135) -/
  | sourceReturn (l : Lane) (x : Src) (agreed : Bool)
  /-- ENC_OFFSET_WRITE (R126) -/
  | encOffsetWrite (l : Lane) (ofs : Word)
  /-- FBK_CLR_CNT (R138) -/
  | fbkClrCnt (l : Lane)
  /-- FBK_CLR_DRIFT (R126) -/
  | fbkClrDrift (l : Lane)
  /-- FBK_CLR_ENC_REF (R123) -/
  | fbkClrEncRef (l : Lane)
  /-- FBK_CLR_FAULT (R135) -/
  | fbkClrFault (l : Lane) (x : Src)
  /-- SNS_CLOCK_CHANGEOVER (R145) -/
  | snsClockChangeover (m : Fin 7) (toB : Bool)
  /-- SNS_LOST (R146) -/
  | snsLost (w : Seer) (m : Fin 7)
  /-- DCL_DISAGREE (R147) -/
  | dclDisagree (w : Seer)
  /-- CALIBRATION_START (R151) -/
  | calibrationStart (l : Lane) (mask : BitVec 24)
  /-- CAL_DONE (R151) -/
  | calDone (l : Lane) (avg : Vector (BitVec 16) 24)
  /-- SMP_CLR_CNT (R154) -/
  | smpClrCnt (l : Lane)
  /-- SMP_CLR_SNS (R152) -/
  | smpClrSns (l : Lane) (m : Fin 7)
  /-- SMP_CLR_FLT (R152) -/
  | smpClrFlt (l : Lane) (n : Fin 24)
  /-- CE_STOP (R175) -/
  | ceStop (l : Lane)
  /-- COMMIT (R175) -/
  | commit (l : Lane)
  /-- LOOP_CLOSE (R176) -/
  | loopClose (l : Lane) (mask : BitVec 24)
  /-- LOOP_OPEN (R176) -/
  | loopOpen (l : Lane) (mask : BitVec 24)
  /-- CE_CLR_NF (R182) -/
  | ceClrNf (l : Lane)
  /-- CE_CLR_OVR (R182) -/
  | ceClrOvr (l : Lane)
  /-- CE_CLR_MAX (R182) -/
  | ceClrMax (l : Lane)
  /-- PIN_SP_EDGE (R177) -/
  | pinSpEdge (l : Lane) (rising : Bool)
  /-- SP_FAULT (R178) -/
  | spFault (l : Lane)
  /-- SP_FAULT_CLEAR (R178) -/
  | spFaultClear (l : Lane)
  /-- CURRENT_EXCHANGE (R33) -/
  | currentExchange (l : Lane) (w : Vector Word 16)
  /-- DEC_MODEL (R34) -/
  | decModel (l : Lane)
  /-- DEC_RESTORED (R34) -/
  | decRestored (l : Lane)
  /-- LOCK_LOST (R205) -/
  | lockLost (l : Lane)
  /-- LOCK (R205) -/
  | lock (l : Lane)
  /-- ALIGNMENT_DONE (R205) -/
  | alignmentDone
  /-- PWM_ALT_SELECT (R206) -/
  | pwmAltSelect (l : Lane) (alt : Bool)
  /-- PWM_RATE_CHANGE (R206) -/
  | pwmRateChange (l : Lane)
  /-- VLIM (R192) -/
  | vlim (l : Lane)
  /-- TRC_CLR_MISS (R209) -/
  | trcClrMiss (l : Lane)
  /-- ENABLE (R212) -/
  | enable (l : Lane)
  /-- START (R212) -/
  | start (l : Lane)
  /-- STOP (R212) -/
  | stop (l : Lane)
  /-- BRAKE (R228) -/
  | brake (l : Lane)
  /-- RELEASE (R212) -/
  | release (l : Lane)
  /-- DISABLE (R212) -/
  | disable (l : Lane)
  /-- CLEAR (R212) -/
  | clear (l : Lane)
  /-- CATCH_TIMEOUT (R212) -/
  | catchTimeout (l : Lane)
  /-- POL_DONE (R222) -/
  | polDone (l : Lane) (r : PolResult)
  /-- ACQ_DONE (R225) -/
  | acqDone (l : Lane) (angle : BitVec 16) (speed : Word)
  /-- ACQ_FAIL (R212) -/
  | acqFail (l : Lane)
  /-- START_TO_RUN (R212) -/
  | startToRun (l : Lane)
  /-- STOPPING_DONE (R223) -/
  | stoppingDone (l : Lane)
  /-- OBS_LOST (R224) -/
  | obsLost (l : Lane)
  /-- STALL (R229) -/
  | stall (l : Lane)
  /-- STALL_RECOVER (R229) -/
  | stallRecover (l : Lane)
  /-- SAFE_STATE_SELECTION (R214) -/
  | safeStateSelection (v0 v1 : BitVec 16) (u0 u1 : Nat)
  /-- SC_SPEED_TIMEOUT (R215) -/
  | scSpeedTimeout
  /-- U_LOST (R216) -/
  | uLost
  /-- MON_TACH_PULSE (R214) -/
  | monTachPulse
  /-- GATE_BELOW_THRESHOLD (R237) -/
  | gateBelowThreshold (n : Fin 34)
  /-- SC (R238) -/
  | sc (n : Fin 34)
  /-- SOFT_OFF_END (R238) -/
  | softOffEnd (n : Fin 34)
  /-- UVLO (R240) -/
  | uvlo (n : Fin 34) (vp vn : Bool)
  /-- UVLO_RECOVER (R240) -/
  | uvloRecover (n : Fin 34)
  /-- TMP_CONVERSION (R241) -/
  | tmpConversion (n : Fin 34) (code : BitVec 12) (vp vn : BitVec 16)
  /-- SHOOT_REQ (R243) -/
  | shootReq (l : Lane) (c : Chan)
  /-- DEAD_TIME_RELEASE (R244) -/
  | deadTimeRelease (l : Lane) (c : Chan) (ext : Nat)
  /-- DT_TIMEOUT (R244) -/
  | dtTimeout (by_ : Option Lane) (c : Chan)
  /-- ISLAND_SILENT (R251) -/
  | islandSilent (n : Fin 12)
  /-- GDH_CLR_SC (R239) -/
  | gdhClrSc (l : Lane) (n : Fin 34)
  /-- GDH_CLR_LEG (R245) -/
  | gdhClrLeg (l : Lane) (n : Fin 34)
  /-- GDH_CLR_DT (R256) -/
  | gdhClrDt (l : Lane) (n : Fin 34)
  /-- GDH_CLR_CNT (R256) -/
  | gdhClrCnt (l : Lane) (n : Fin 34)
  /-- SC_SELF_TEST (R256) -/
  | scSelfTest (l : Lane) (n : Fin 34) (tripped : Bool)
  /-- TOKEN_LATCH (R247) -/
  | tokenLatch (g : TokenGroup) (bridge : Fin 2)
  /-- TOKEN_MOVED (R22) -/
  | tokenMoved
  /-- TOKEN_CODE_INVALID (R247) -/
  | tokenCodeInvalid (g : TokenGroup)
  /-- HOLD_ASC_MASK (R248) -/
  | holdAscMask (k : Fin 6)
  /-- GDL_UVLO (R252) -/
  | gdlUvlo
  /-- BOOT_UV (R253) -/
  | bootUv (leg : Fin 6) (vboot : BitVec 16)
  /-- SHUNT_OC (R254) -/
  | shuntOc (a : Fin 2)
  /-- GDL_CLR_LEG (R245) -/
  | gdlClrLeg (l : Lane) (n : Fin 12)
  /-- GDL_CLR_CNT (R257) -/
  | gdlClrCnt (l : Lane) (n : Fin 12)
  /-- DCL_WRITE (R268) -/
  | dclWrite (l : Lane) (off : BitVec 12) (data : Word) (be : BitVec 4) (q : Option Req)
  /-- DCL_ENABLE (R269) -/
  | dclEnable (l : Lane) (q : Option Req)
  /-- DCL_DISABLE (R270) -/
  | dclDisable (l : Lane) (q : Option Req)
  /-- DCL_STOP_DONE (R270) -/
  | dclStopDone (l : Lane)
  /-- PHASE_CLEAR (R274) -/
  | phaseClear (l : Lane) (m : Fin 4) (q : Option Req)
  /-- DCL_CLR_CNT (R284) -/
  | dclClrCnt (l : Lane) (q : Option Req)
  /-- SHED (R275) -/
  | shed
  /-- SHED_RAMP_DONE (R275) -/
  | shedRampDone
  /-- SHED_ABORT_NOTICE (R276) -/
  | shedAbortNotice (l : Lane)
  /-- OV_TIMEOUT (R280) -/
  | ovTimeout (l : Lane)
  /-- PG_DCL_RELEASE (R281) -/
  | pgDclRelease
  /-- CP_STATE_CHANGE (R289) -/
  | cpStateChange (l : Lane) (c : CpLevel)
  /-- PP_CLASSIFY (R291) -/
  | ppClassify (l : Lane) (r : Nat)
  /-- INTERLOCK_RELEASE (R369) -/
  | interlockRelease
  /-- INTERLOCK_DISAGREE (R369) -/
  | interlockDisagree
  /-- MAINS_PRESENT (R293) -/
  | mainsPresent (l : Lane)
  /-- PRELOAD_DONE (R293) -/
  | preloadDone (l : Lane)
  /-- KFB_CONFIRM (R293) -/
  | kfbConfirm (n : Fin 6) (closed : Bool)
  /-- AFE_LOCK (R293) -/
  | afeLock (l : Lane)
  /-- AFE_CURRENT_ZERO (R293) -/
  | afeCurrentZero (l : Lane)
  /-- K_FEEDBACK (R294) -/
  | kFeedback (k4 closed : Bool)
  /-- GRID_DIP (R297) -/
  | gridDip (l : Lane) (retained : Nat)
  /-- GRID_TRIP (R297) -/
  | gridTrip (l : Lane) (t : GridTrip)
  /-- GRID_RESTART (R297) -/
  | gridRestart (l : Lane)
  /-- ISLAND (R298) -/
  | island (l : Lane) (jump : Bool)
  /-- V2L (R299) -/
  | v2l (l : Lane)
  /-- S2_HOLD_TIMEOUT (R292) -/
  | s2HoldTimeout
  /-- PG_CHG_RELEASE (R303) -/
  | pgChgRelease (dab : Bool)
  /-- CHG_CLR_FAULT (R293) -/
  | chgClrFault (l : Lane) (q : Option Req)
  /-- CHG_CLR_CNT (R308) -/
  | chgClrCnt (l : Lane) (q : Option Req)
  /-- AFE_CLR_CNT (R306) -/
  | afeClrCnt (l : Lane) (q : Option Req)
  /-- DAB_CLR_CNT (R307) -/
  | dabClrCnt (l : Lane) (q : Option Req)
  /-- ACT_MOVE (R316) -/
  | actMove (l : Lane) (a : Fin 2) (q : Option Req)
  /-- ACT_HOME (R315) -/
  | actHome (l : Lane) (a : Fin 2) (q : Option Req)
  /-- ACT_LEARN (R315) -/
  | actLearn (l : Lane) (a : Fin 2) (q : Option Req)
  /-- ACT_STOP (R316) -/
  | actStop (l : Lane) (a : Fin 2) (q : Option Req)
  /-- ACT_COAST (R316) -/
  | actCoast (l : Lane) (a : Fin 2) (q : Option Req)
  /-- ACT_CLEAR (R321) -/
  | actClear (l : Lane) (a : Fin 2) (q : Option Req)
  /-- ACT_HALL_STEP (R311) -/
  | actHallStep (l : Lane) (a : Fin 2) (h : BitVec 3)
  /-- LOCKED_ROTOR (R314) -/
  | lockedRotor (l : Lane) (a : Fin 2)
  /-- HOLD_T_EXPIRY (R314) -/
  | holdTExpiry (l : Lane) (a : Fin 2)
  /-- MOVE_DONE (R316) -/
  | moveDone (l : Lane) (a : Fin 2)
  /-- MOVE_TIMEOUT (R316) -/
  | moveTimeout (l : Lane) (a : Fin 2)
  /-- VLV_OUT_OF_WINDOW (R317) -/
  | vlvOutOfWindow (v : BitVec 16)
  /-- ACT_CLR_CNT (R321) -/
  | actClrCnt (l : Lane) (a : Fin 2) (q : Option Req)
  /-- STATE_COPY (R327) -/
  | stateCopy (l : Lane) (c : StateCopy) (crcOk : Bool)
  /-- HEARTBEAT (R328) -/
  | heartbeat (p : HbPath) (h : Heartbeat) (crcOk : Bool)
  /-- RELAY_FRAME (R328) -/
  | relayFrame (l : Lane)
  /-- HEARTBEAT_WINDOW (R329) -/
  | heartbeatWindow (w : Seer) (x : Lane)
  /-- SPLIT_TIMEOUT (R344) -/
  | splitTimeout (l : Lane)
  /-- AUTO_RESET (R336) -/
  | autoReset (x : Lane)
  /-- JOURNAL_ENTRY (R339) -/
  | journalEntry (l : Lane) (e : JEntry)
  /-- LINK_RETRAIN (R342) -/
  | linkRetrain (l : Lane) (ok : Bool)
  /-- LINK_UP (R342) -/
  | linkUp (l : Lane)
  /-- PEER_RETURN (R346) -/
  | peerReturn (l : Lane)
  /-- RETURN_DONE (R347) -/
  | returnDone (l : Lane)
  /-- RED_WRITE (R351) -/
  | redWrite (l : Lane) (off : BitVec 12) (data : Word) (be : BitVec 4) (q : Option Req)
  /-- SPLIT_CONTINUE (R344) -/
  | splitContinue (l : Lane)
  /-- SPLIT_SS1 (R344) -/
  | splitSs1 (l : Lane)
  /-- REJOIN (R347) -/
  | rejoin (l : Lane)
  /-- TOKEN_MOVE (R349) -/
  | tokenMove (l : Lane)
  /-- TOKEN_MOVE_EXECUTE (R349) -/
  | tokenMoveExecute
  /-- RETEST (R348) -/
  | retest (l : Lane)
  /-- RETEST_DONE (R348) -/
  | retestDone (l : Lane) (pass : Bool)
  /-- RED_CLR_JRNL (R351) -/
  | redClrJrnl (l : Lane)
  /-- RED_CLR_FO (R351) -/
  | redClrFo (l : Lane)
  /-- CONJ_CLR_CNT (R352) -/
  | conjClrCnt (l : Lane)
  /-- UNRETIRE_A (R353) -/
  | unretireA (l : Lane)
  /-- UNRETIRE_B (R353) -/
  | unretireB (l : Lane)
  /-- STO_PIN (R358) -/
  | stoPin (two : Bool)
  /-- STO_PIN_HIGH (R372) -/
  | stoPinHigh (two : Bool)
  /-- STO_DISC (R358) -/
  | stoDisc
  /-- STO_REQUEST (R385) -/
  | stoRequest (l : Lane)
  /-- SS1_REQUEST (R385) -/
  | ss1Request (l : Lane)
  /-- SAF_ACK (R372) -/
  | safAck (l : Lane) (q : Option Req)
  /-- SS1_TIMEOUT (R361) -/
  | ss1Timeout (w : Seer)
  /-- SS1_RAMP_DONE (R361) -/
  | ss1RampDone (w : Seer)
  /-- COMMAND_LINE_LOST (R357) -/
  | commandLineLost (l : Lane) (back : Bool)
  /-- SPEED_COMPARE (R362) -/
  | speedCompare
  /-- TORQUE_MONITOR (R368) -/
  | torqueMonitor
  /-- SAF_K_FEEDBACK (R370) -/
  | safKFeedback (n : Fin 6) (closed : Bool)
  /-- K_TEST (R371) -/
  | kTest (n : Fin 6)
  /-- K_TEST_CHECK (R371) -/
  | kTestCheck (n : Fin 6) (closed : Bool)
  /-- CLAUSE_RECEIVE (R376) -/
  | clauseReceive (l : Lane) (n : Fin 8)
  /-- WDOG (R377) -/
  | wdog (l : Lane) (n : Fin 8)
  /-- LANE_DIFF (R379) -/
  | laneDiff
  /-- CLAUSE_TRANSMIT (R380) -/
  | clauseTransmit (l : Lane) (n : Fin 8)
  /-- CYCLE_START (R402) -/
  | cycleStart (l : Lane) (err : Option Int)
  /-- CYC (R400) -/
  | cyc (l : Lane) (from_ loop crcOk lenOk : Bool) (host : BitVec 64) (corr : Word) (period lpt : BitVec 16) (num residence : Word)
  /-- OUT (R404) -/
  | ringOut (l : Lane) (from_ crcOk : Bool) (dev : BitVec 6) (seq len : BitVec 16) (data : List Byte)
  /-- IN (R411) -/
  | ringIn (l : Lane) (from_ crcOk : Bool) (dev : BitVec 6) (lane : Lane) (len n : BitVec 16)
  /-- RD (R407) -/
  | rd (l : Lane) (from_ crcOk : Bool) (dev : BitVec 6) (lane : Lane) (q : Req) (addr : BitVec 24) (count : BitVec 16) (ecc : Option (BitVec 6 × Bool))
  /-- WR (R407) -/
  | wr (l : Lane) (from_ crcOk : Bool) (dev : BitVec 6) (lane : Lane) (q : Req) (addr : BitVec 24) (be : BitVec 4) (len : BitVec 16) (data : List Byte) (ph : BusPhase)
  /-- RMW (R407) -/
  | rmw (l : Lane) (from_ crcOk : Bool) (dev : BitVec 6) (lane : Lane) (q : Req) (addr : BitVec 24) (mask value : Word) (ph : BusPhase)
  /-- PERIOD (R106) -/
  | period (l : Lane) (from_ crcOk : Bool) (dev : BitVec 6) (lane : Lane) (q : Req) (len n : BitVec 16)
  /-- UNKNOWN_FRAME (R396) -/
  | unknownFrame (l : Lane) (from_ crcOk : Bool) (type : Byte) (len n : BitVec 16)
  /-- LINK_DELAY_REQUEST (R393) -/
  | linkDelayRequest (l : Lane) (reply : Option (Word × Word))
  /-- CUT (R394) -/
  | cut (l : Lane)
  /-- HEAL (R394) -/
  | heal (l : Lane)
  /-- ORPHAN (R414) -/
  | orphan (l : Lane)
  /-- RING_CLR_CNT (R420) -/
  | ringClrCnt (l : Lane) (q : Option Req)
  /-- BULK_NONE (R416) -/
  | bulkNone (l : Lane)
  /-- CAPTURE (R451) -/
  | capture (l : Lane)
  /-- FLOG (R466) -/
  | flog (l : Lane)
  /-- IMG_WRITE (R416) -/
  | imgWrite (l : Lane)
  /-- IMG_COMMIT (R416) -/
  | imgCommit (l : Lane) (r : ImageRead) (sigOk : Bool)
  /-- BULK_CLR_CNT (R421) -/
  | bulkClrCnt (l : Lane)
  /-- CAN_INIT (R424) -/
  | canInit (l : Lane) (c : Fin 2) (b : Bool)
  /-- BUS_INTEGRATION (R424) -/
  | busIntegration (l : Lane) (c : Fin 2)
  /-- TX_PUSH (R428) -/
  | txPush (l : Lane) (c : Fin 2) (dest : BitVec 3) (p : BusPhase)
  /-- CANCEL_TAG (R429) -/
  | cancelTag (l : Lane) (c : Fin 2) (tag : Byte) (p : BusPhase)
  /-- CANCEL_SLOT (R429) -/
  | cancelSlot (l : Lane) (c : Fin 2) (k : Fin 4) (p : BusPhase)
  /-- CANCEL_ALL (R429) -/
  | cancelAll (l : Lane) (c : Fin 2) (p : BusPhase)
  /-- POP_RX (R434) -/
  | popRx (l : Lane) (c : Fin 2)
  /-- POP_TXC (R439) -/
  | popTxc (l : Lane) (c : Fin 2)
  /-- REC_REQ (R431) -/
  | recReq (l : Lane) (c : Fin 2)
  /-- CAN_CLR_OVF (R439) -/
  | canClrOvf (l : Lane) (c : Fin 2)
  /-- CAN_CLR_CNT (R439) -/
  | canClrCnt (l : Lane) (c : Fin 2)
  /-- ARBITRATION_LOST (R427) -/
  | arbitrationLost (l : Lane) (c : Fin 2) (age : Nat)
  /-- TX_COMPLETE (R429) -/
  | txComplete (l : Lane) (c : Fin 2) (age : Nat)
  /-- TX_ERROR (R430) -/
  | txError (l : Lane) (c : Fin 2) (err : BitVec 3) (data dominant spared : Bool) (age : Nat)
  /-- BUS_OFF_RECOVERY (R431) -/
  | busOffRecovery (l : Lane) (c : Fin 2)
  /-- CAN_RX_FRAME (R433) -/
  | canRxFrame (l : Lane) (c : Fin 2) (f : CanFrame) (age : Nat)
  /-- MEM_PWR (R448) -/
  | memPwr (l : Lane) (w : Word)
  /-- MEM_PWR_DONE (R447) -/
  | memPwrDone (l : Lane) (b : Fin 16)
  /-- SCRUB (R446) -/
  | scrub (l : Lane) (b : Fin 16) (e : Option Bool)
  /-- SCRUB_LATE (R446) -/
  | scrubLate (l : Lane) (b : Fin 16)
  /-- MEM_CLR_SCRUB (R453) -/
  | memClrScrub (l : Lane)
  /-- MEM_CLR_ECC (R453) -/
  | memClrEcc (l : Lane)
  /-- CAP_ARM (R450) -/
  | capArm (l : Lane) (w : Fin 8)
  /-- CAP_TRIG (R450) -/
  | capTrig (l : Lane) (w : Fin 8)
  /-- CAP_STOP (R450) -/
  | capStop (l : Lane) (w : Fin 8)
  /-- CAP_DONE (R450) -/
  | capDone (l : Lane) (w : Fin 8)
  /-- REACTION_STOP (R461) -/
  | reactionStop (l : Lane)
  /-- EVC_PEND_CLEAR (R468) -/
  | evcPendClear (l : Lane) (g : Fin 4) (w : Word)
  /-- EVC_CLR_CNT (R468) -/
  | evcClrCnt (l : Lane)
  /-- MON_LOG_CLR_CNT (R469) -/
  | monLogClrCnt (l : Lane) (q : Option Req)
  /-- MON_LOG_CLEAR (R469) -/
  | monLogClear (l : Lane) (q : Option Req)
  /-- STREAM_RESUMED (R84) -/
  | streamResumed (isl : GateIsland)
  /-- OVS_RELEASE (R249) -/
  | ovsRelease (k : Fin 6) (mv : BitVec 16)
  /-- SNS_RESTORED (R146) -/
  | snsRestored (w : Seer) (m : Fin 7) (value : BitVec 16) (volts : Nat)
  /-- MON_CONVERTER_FRAME (R367) -/
  | monConverterFrame (f : MonFrame)
  /-- MON_SELF_TEST_FAIL (R463) -/
  | monSelfTestFail
  /-- MP_OVERLOAD (R457) -/
  | mpOverload (l : Lane) (ovr : Bool)
  /-- WARM_RESTART_DONE (R76) -/
  | warmRestartDone (l : Lane)
  /-- IMG_WRITE_DONE (R416) -/
  | imgWriteDone (l : Lane)
  /-- CARRIER_PERIOD_START (R28) -/
  | carrierPeriodStart (l : Lane) (c : Carrier)
  /-- CP_PWM_PERIOD (R290) -/
  | cpPwmPeriod (l : Lane) (duty : Nat)
  /-- EVENT_FRAME_RECEIVED (R389) -/
  | eventFrameReceived (l : Lane) (from_ crcOk : Bool) (len n : BitVec 16)
  /-- LINK_DELAY_REPLY (R393) -/
  | linkDelayReply (l : Lane) (turnaround : Word)
  /-- CAN_RX_ERROR (R431) -/
  | canRxError (l : Lane) (c : Fin 2) (err : BitVec 3) (data eight : Bool)
  /-- CAN_PROTOCOL_EXCEPTION (R441) -/
  | canProtocolException (l : Lane) (c : Fin 2)
deriving DecidableEq, Repr

end Sys2Proof
end

