-- ==== Sys2Proof/Config.lean ====
section
/-! DEFINITION. What an implementation fixes and what the spec leaves open: constants without a body, so that nothing can be
proved of their values. Each is named in the assumption log. -/
namespace Sys2Proof.Config

/-- The n-th value the spec leaves open (an undefined or unstated word). -/
opaque freeWord : Nat → Word

/-- Whether a register that holds a whole number of units takes the next whole number above an exact quotient that is not
whole: the spec does not say which neighbour it holds. -/
opaque roundUp : Int → Int → Bool

/-- The block versions of PG_ID (R88: per block), by type code: major and minor. -/
opaque version : Nat → BitVec 16

/-- The die identifier and revision of an HV gate island (R256: per die). -/
opaque gdhDie : Nat → Word

/-- The block-specific half of PG_STAT (R88) of a page whose chapter assigns it no content. -/
opaque pgStatBlk : Nat → BitVec 16

/-- The number of coefficient words of a kernel whose coefficients the spec names as a group (R492: stated in the Riril build
report), by kernel code. -/
opaque coefWords : Nat → Nat

/-- The rows and columns of a 2-D lookup, and whether a grid transform runs from D and Q to the phases, as their coefficient
words say it (R167: the encoding of these words is not stated). -/
opaque lookupSizes : List Word → Nat × Nat
opaque gridInverse : Word → Bool

/-- A result of a kernel whose formula the spec does not give: by kernel code, all operand words, and the place of the result
among outputs (from 0) and state words (from 16). -/
opaque kernel : Nat → List Word → Nat → Word

/-- Volts per count of a sense stream in the lanes (R147 uses a GAIN whose register it does not name): some finite FP32 word that is
not negative. -/
opaque senseGainBits : Nat → Fin 0x7F800000
def senseGain (m : Nat) : Word := BitVec.ofNat 32 (senseGainBits m).val

/-- Whether a quadrature transition counts up: PA and PB before, PA and PB after (R121 gives no direction). -/
opaque encUp : Bool → Bool → Bool → Bool → Bool

/-- The wire that Riril designates for a role (R197, R209): 0 torque command, 1 to 7 the values of TRC_ID to TRC_DRAG. -/
opaque trcWire : Nat → Nat

/-- The ACT input wires that Riril designates (R310): for an actuator, 0 position, 1 speed, 2 current, 3 referenced. -/
opaque actWire : Nat → Nat → Nat

/-- The configuration of the charger permits state D of the pilot circuit (R289 names no register for it). -/
opaque permitsD : Bool

/-- The whole number that stands for an exact quotient: the quotient where it is whole, else one of its two neighbours. -/
def quot (n d : Int) : Int :=
  if n % d = 0 then n / d else n / d + (if roundUp n d then 1 else 0)

end Sys2Proof.Config
end

