-- ==== Sys2Proof/Machine/Regs.lean ====
section
/-! DEFINITION. The register map of a lane's pages (R85, R88) and of the monitor's pages: one descriptor for each
register of the chapters' register tables, with each field's place, access code, reset value and stated range. -/
namespace Sys2Proof.Machine

/-- The access codes of R91. -/
inductive Acc where
  | ro | rw | w1c | wo | rwl | rwq
deriving DecidableEq, Repr

/-- The ranges the register tables state for a field's value (R93: RANGE_ERR, or COUNT_ERR for `count`). -/
inductive Rng where
  | any
  | between (lo hi : Nat)
  | zeroOr (lo hi : Nat)
  | noBit (n : Nat)
  | finite
  | fge0
  | fgt0
  | f01
  | count (hi : Nat)
deriving DecidableEq, Repr

/-- One row of a register table: bits `lo + w - 1 : lo`. -/
structure FieldDesc where
  lo : Nat
  w : Nat
  acc : Acc
  reset : Nat
  rng : Rng
  dual : Bool
  shadow : Bool
deriving DecidableEq, Repr

/-- One register, or a run of `count` registers `stride` bytes apart, from offset `off` of its page. -/
structure RegDesc where
  off : Nat
  count : Nat
  stride : Nat
  fields : List FieldDesc
deriving DecidableEq, Repr

/-- A field row with the usual defaults. -/
def fd (lo w : Nat) (acc : Acc) (reset : Nat) (rng : Rng := .any) (dual : Bool := false) (shadow : Bool := false) :
    FieldDesc := { lo := lo, w := w, acc := acc, reset := reset, rng := rng, dual := dual, shadow := shadow }

/-- A single register. -/
def rd (off : Nat) (fields : List FieldDesc) : RegDesc := { off := off, count := 1, stride := 4, fields := fields }

/-- An array of registers. -/
def ra (off count stride : Nat) (fields : List FieldDesc) : RegDesc :=
  { off := off, count := count, stride := stride, fields := fields }

/-- The pages of R85. -/
inductive Page where
  | sys | clk | pwr | rst | evc | mem | dir
  | ce (i : Fin 8)
  | trc (i : Fin 4)
  | fbk (i : Fin 2)
  | smp (i : Fin 2)
  | gdh (n : Fin 34)
  | sns (n : Fin 7)
  | gdl (n : Fin 12)
  | dcl | afe | dab | chg | act | red | conj | saf | cls | ring | bulk
  | can (c : Fin 2)
  | mon (i : Fin 4)
deriving DecidableEq, Repr

/-- The registers of the PWR page (R69, R70). -/
def regsPwr : List RegDesc := [
  -- PWR_DROOP_CFG
  rd 0x040 [fd 8 8 .rwl 20 (rng := (.between 10 255)), fd 4 1 .rwl 1, fd 0 4 .rwl 4 (rng := (.between 0 8))],
  -- PWR_STAT
  rd 0x044 [fd 16 16 .ro 0, fd 5 1 .ro 0, fd 4 1 .ro 0, fd 3 1 .ro 0, fd 2 1 .ro 0, fd 1 1 .ro 0, fd 0 1 .ro 0]]

/-- The registers of the CLK page (R75). -/
def regsClk : List RegDesc := [
  -- CLK_STAT
  rd 0x040 [fd 16 16 .ro 0, fd 5 1 .ro 0, fd 4 1 .ro 0, fd 3 1 .ro 0, fd 2 1 .ro 0, fd 1 1 .ro 0, fd 0 1 .ro 0]]

/-- The registers of the RST page (R81). -/
def regsRst : List RegDesc := [
  -- RST_CAUSE
  rd 0x040 [fd 8 8 .ro 0, fd 5 1 .w1c 0, fd 4 1 .w1c 0, fd 3 1 .w1c 0, fd 2 1 .w1c 0, fd 1 1 .w1c 0, fd 0 1 .w1c 1]]

/-- The registers of the DIR page (R102). -/
def regsDir : List RegDesc := [
  -- DIR_STAT
  rd 0x040 [fd 16 1 .ro 0, fd 0 15 .ro 0]]

/-- The registers of the FBK0 page (R137). -/
def regsFbk0 : List RegDesc := [
  -- FBK_SEL
  rd 0x040 [fd 15 1 .rwl 0 (shadow := true), fd 14 1 .rwl 0 (shadow := true), fd 13 1 .rwl 0 (shadow := true), fd 12 1 .rwl 1 (shadow := true), fd 4 3 .rwl 0 (rng := (.between 0 4)) (shadow := true), fd 0 3 .rwl 0 (rng := (.between 0 4)) (shadow := true)],
  -- FBK_MECH
  rd 0x044 [fd 6 1 .rwq 0, fd 0 6 .rwq 1 (rng := (.between 1 32))],
  -- FBK_RES_CFG
  rd 0x048 [fd 24 8 .rwq 100 (rng := (.between 40 200)), fd 20 4 .rwq 7 (rng := (.between 0 11)), fd 12 8 .rwq 0, fd 10 2 .rwq 2, fd 5 5 .rwq 1 (rng := (.between 1 16)), fd 0 1 .rwq 0],
  -- FBK_RES_CHK
  rd 0x04C [fd 24 8 .rwl 64 (rng := (.between 1 254)), fd 16 8 .rwl 243, fd 8 8 .rwl 64 (rng := (.between 1 255)), fd 0 8 .rwl 16 (rng := (.between 1 255))],
  -- FBK_ENC_CFG
  rd 0x050 [fd 12 20 .rwq 1024 (rng := (.between 16 1048575)), fd 10 2 .rwq 0, fd 9 1 .rwq 0, fd 2 6 .rw 4 (rng := (.between 4 63)), fd 0 2 .rw 1],
  -- FBK_ENC_CHK
  rd 0x054 [fd 8 8 .rwl 4 (rng := (.between 1 255)), fd 4 4 .rwl 3 (rng := (.between 1 15)), fd 0 4 .rwl 2],
  -- FBK_ENC_OFS
  rd 0x058 [fd 0 32 .wo 0],
  -- FBK_HALL_CFG
  rd 0x05C [fd 4 4 .rwl 2 (rng := (.between 1 15)), fd 3 1 .rwq 0, fd 0 2 .rw 1],
  -- FBK_SSI_CFG
  rd 0x060 [fd 23 9 .rwq 8 (rng := (.between 4 400)), fd 18 5 .rwq 23 (rng := (.between 7 31)), fd 17 1 .rwq 0, fd 16 1 .rwq 0, fd 15 1 .rwq 0, fd 12 3 .rwq 0, fd 8 4 .rwl 2 (rng := (.between 1 15))],
  -- FBK_SPD_CFG
  rd 0x064 [fd 26 6 .rw 3, fd 20 6 .rw 7, fd 12 8 .rw 16 (rng := (.between 2 255)), fd 4 8 .rw 8 (rng := (.between 1 254))],
  -- FBK_CHK_CFG
  rd 0x068 [fd 24 8 .rwl 100 (rng := (.between 1 255)), fd 16 8 .rwl 25 (rng := (.between 1 255)), fd 8 8 .rwl 32 (rng := (.between 1 255)), fd 4 4 .rwl 3 (rng := (.between 1 15))],
  -- FBK_ANG_OFS
  rd 0x06C [fd 16 16 .rwq 0, fd 0 16 .rwq 0],
  -- FBK_ANG_OFS2
  rd 0x070 [fd 16 16 .rwq 0, fd 0 16 .rwq 0],
  -- FBK_SSI_TIM
  rd 0x074 [fd 8 8 .rwq 0, fd 0 8 .rwq 20 (rng := (.between 1 255))]]

/-- The registers of the FBK1 page (R138). -/
def regsFbk1 : List RegDesc := [
  -- FBK_STAT
  rd 0x040 [fd 29 3 .ro 0, fd 28 1 .ro 0, fd 27 1 .ro 0, fd 16 5 .ro 0, fd 8 5 .ro 0],
  -- FBK_ANG
  rd 0x044 [fd 16 1 .ro 0, fd 0 16 .ro 0],
  -- FBK_SPEED
  rd 0x048 [fd 0 32 .ro 0],
  -- FBK_ENC_CNT
  rd 0x04C [fd 0 32 .ro 0],
  -- FBK_IDX_REF
  rd 0x050 [fd 0 32 .ro 0],
  -- FBK_IDX_CNT
  rd 0x054 [fd 0 32 .ro 0],
  -- FBK_IDX_TS_LO
  rd 0x058 [fd 0 32 .ro 0],
  -- FBK_IDX_TS_HI
  rd 0x05C [fd 0 32 .ro 0],
  -- FBK_IDX_ERR
  rd 0x060 [fd 16 16 .ro 0, fd 8 8 .ro 0, fd 0 4 .ro 0],
  -- FBK_RES_STAT
  rd 0x064 [fd 16 16 .ro 0, fd 8 8 .ro 0, fd 0 8 .ro 0],
  -- FBK_FLT_CNT
  rd 0x068 [fd 24 8 .ro 0, fd 16 8 .ro 0, fd 8 8 .ro 0, fd 0 8 .ro 0],
  -- FBK_CLR
  rd 0x06C [fd 7 1 .wo 0, fd 6 1 .wo 0, fd 5 1 .wo 0, fd 0 5 .wo 0]]

/-- The registers of the SMP0 page (R154, R155). -/
def regsSmp0 : List RegDesc := [
  -- SMP_TIM
  rd 0x040 [fd 16 8 .rw 16 (rng := (.between 0 80)), fd 0 9 .rwq 0 (rng := (.between 0 400))],
  -- SMP_SINC
  rd 0x044 [fd 4 2 .rw 2, fd 0 2 .rw 1],
  -- SMP_CHK
  rd 0x048 [fd 31 1 .rwl 1, fd 24 4 .rwl 3 (rng := (.between 1 15)), fd 16 8 .rwl 12 (rng := (.between 1 255)), fd 12 4 .rwl 4 (rng := (.between 1 15)), fd 4 8 .rwl 32 (rng := (.between 1 255)), fd 0 4 .rwl 2 (rng := (.between 1 15))],
  -- SMP_SNSCHK
  rd 0x04C [fd 24 8 .rwl 48 (rng := (.between 16 255)), fd 16 8 .rwl 8 (rng := (.between 1 255)), fd 12 4 .rwl 4 (rng := (.between 1 15))],
  -- SMP_CAL
  rd 0x050 [fd 31 1 .wo 0, fd 0 24 .rw 0 (rng := (.noBit 12))],
  -- SMP_CLR
  rd 0x054 [fd 31 1 .wo 0, fd 24 7 .wo 0, fd 0 24 .wo 0],
  -- SMP_INn_CFG
  ra 0x100 24 16 [fd 1 1 .rwl 1, fd 0 1 .rwl 1],
  -- SMP_INn_LIM
  ra 0x104 24 16 [fd 16 16 .rwl 65280, fd 0 16 .rwl 256],
  -- SMP_INn_OFS
  ra 0x108 24 16 [fd 0 16 .rwq 32768],
  -- SMP_INn_GAIN
  ra 0x10C 24 16 [fd 0 32 .rwq 1065353216 (rng := .finite)]]

/-- The registers of the SMP1 page (R156). -/
def regsSmp1 : List RegDesc := [
  -- SMP_STAT
  rd 0x040 [fd 16 16 .ro 0, fd 3 1 .ro 1, fd 2 1 .ro 0, fd 1 1 .ro 0, fd 0 1 .ro 0],
  -- SMP_FLT
  rd 0x044 [fd 0 24 .ro 0],
  -- SMP_SNS_FLT
  rd 0x048 [fd 0 7 .ro 0],
  -- SMP_FRZ_CNT
  rd 0x04C [fd 24 8 .ro 0, fd 16 8 .ro 0, fd 8 8 .ro 0, fd 0 8 .ro 0],
  -- SMP_ISUM
  rd 0x050 [fd 0 32 .ro 0],
  -- SMP_RESID
  rd 0x054 [fd 0 32 .ro 0],
  -- SMP_TS_LO
  rd 0x058 [fd 0 32 .ro 0],
  -- SMP_TS_HI
  rd 0x05C [fd 0 32 .ro 0],
  -- SMP_TEMPk
  ra 0x060 6 4 [fd 16 16 .ro 0, fd 12 4 .ro 0, fd 0 12 .ro 0],
  -- SMP_RAWn
  ra 0x100 24 4 [fd 16 16 .ro 0, fd 12 4 .ro 0],
  -- SMP_SNSm
  ra 0x180 7 4 [fd 16 16 .ro 0, fd 12 4 .ro 0, fd 1 1 .ro 0, fd 0 1 .ro 0]]

/-- The registers of the SNS page (R157). -/
def regsSns : List RegDesc := [
  -- SNS_CFG
  rd 0x040 [fd 0 2 .rwl 0 (rng := (.between 0 2)) (dual := true)],
  -- SNS_STAT
  rd 0x044 [fd 4 1 .ro 0, fd 3 1 .ro 0, fd 2 1 .ro 0, fd 1 1 .ro 0],
  -- SNS_MON
  rd 0x048 [fd 16 16 .ro 0],
  -- SNS_CNT
  rd 0x04C [fd 16 16 .ro 0, fd 0 16 .ro 0]]

/-- The registers of the CE0 page (R182). -/
def regsCe0 : List RegDesc := [
  -- CE_CTRL
  rd 0x040 [fd 1 1 .wo 0, fd 0 1 .rw 1],
  -- CE_STAT
  rd 0x044 [fd 16 16 .ro 0, fd 14 2 .ro 0, fd 11 3 .ro 0, fd 9 1 .ro 0, fd 8 1 .ro 0, fd 7 1 .ro 0, fd 6 1 .ro 0, fd 1 1 .ro 1, fd 0 1 .ro 0],
  -- CE_RATE
  rd 0x048 [fd 8 16 .ro 0, fd 0 6 .ro 0],
  -- CE_LOOP_STAT
  rd 0x04C [fd 1 31 .ro 0],
  -- CE_LOOP_CLOSE
  rd 0x050 [fd 8 24 .wo 0],
  -- CE_LOOP_OPEN
  rd 0x054 [fd 8 24 .wo 0],
  -- CE_CYC
  rd 0x058 [fd 16 16 .ro 0, fd 0 16 .ro 0],
  -- CE_CLR
  rd 0x05C [fd 2 1 .wo 0, fd 1 1 .wo 0, fd 0 1 .wo 0],
  -- CE_NF_LAST
  rd 0x060 [fd 16 16 .ro 0, fd 0 9 .ro 0]]

/-- The registers of the CE1 page (R183). -/
def regsCe1 : List RegDesc := [
  -- CE_SP_CFG
  rd 0x040 [fd 24 8 .rw 20 (rng := (.between 1 255)), fd 20 4 .rw 3 (rng := (.between 1 15)), fd 0 3 .rwl 0 (rng := (.between 0 4))],
  -- CE_SP_LO
  rd 0x044 [fd 0 32 .rw 0 (rng := .finite)],
  -- CE_SP_HI
  rd 0x048 [fd 0 32 .rw 1065353216 (rng := .finite)],
  -- CE_SP_IN
  rd 0x04C [fd 16 16 .rw 65280, fd 0 16 .rw 256],
  -- CE_SP_FLT
  rd 0x050 [fd 0 32 .rw 0 (rng := .finite)],
  -- CE_SP_VAL
  rd 0x054 [fd 0 32 .rw 0 (rng := .finite)],
  -- CE_SP_STAT
  rd 0x058 [fd 16 16 .ro 0, fd 8 8 .ro 0, fd 4 1 .w1c 0, fd 3 1 .ro 0, fd 0 3 .ro 0]]

/-- The registers of the TRC0 page (R208). -/
def regsTrc0 : List RegDesc := [
  -- TRC_SET
  rd 0x040 [fd 16 4 .rw 4 (rng := (.between 1 15)), fd 6 2 .rwq 0 (rng := (.between 0 2)), fd 3 1 .rwq 1, fd 0 2 .rwq 0 (rng := (.between 0 2))],
  -- TRC_PWM
  rd 0x044 [fd 16 16 .rwq 0 (rng := (.zeroOr 400 4000)), fd 0 16 .rwq 1000 (rng := (.between 400 4000))],
  -- TRC_PWM_SEL
  rd 0x048 [fd 0 1 .rw 0],
  -- TRC_ILV
  rd 0x04C [fd 0 2 .rwq 0 (rng := (.between 0 2))],
  -- TRC_TMAX
  rd 0x050 [fd 0 32 .rw 0 (rng := .fge0)],
  -- TRC_COMP
  rd 0x054 [fd 1 1 .rw 0, fd 0 1 .rw 0],
  -- TRC_COMP_LSB
  rd 0x058 [fd 0 32 .rwq 1031798784],
  -- TRC_COMP_IREF
  rd 0x05C [fd 0 32 .rwq 1137180672 (rng := .fgt0)]]

/-- The registers of the TRC1 page (R209). -/
def regsTrc1 : List RegDesc := [
  -- TRC_STAT
  rd 0x040 [fd 28 4 .ro 0, fd 8 1 .ro 0, fd 7 1 .ro 0, fd 6 1 .ro 0, fd 5 1 .ro 0, fd 4 1 .ro 0, fd 3 1 .ro 0, fd 2 1 .ro 0, fd 1 1 .ro 0, fd 0 1 .ro 0],
  -- TRC_MISS
  rd 0x044 [fd 16 16 .ro 0, fd 0 4 .ro 0],
  -- TRC_ID
  rd 0x048 [fd 0 32 .ro 0],
  -- TRC_IQ
  rd 0x04C [fd 0 32 .ro 0],
  -- TRC_VD
  rd 0x050 [fd 0 32 .ro 0],
  -- TRC_VQ
  rd 0x054 [fd 0 32 .ro 0],
  -- TRC_TQ
  rd 0x058 [fd 0 32 .ro 0],
  -- TRC_TREF
  rd 0x05C [fd 0 32 .ro 0],
  -- TRC_DRAG
  rd 0x060 [fd 0 32 .ro 0],
  -- TRC_MMAX
  rd 0x064 [fd 0 32 .ro 0],
  -- TRC_CLR
  rd 0x068 [fd 0 1 .wo 0]]

/-- The registers of the MON1 page (R217, R282, R304, R353). -/
def regsMon1 : List RegDesc := [
  -- MON_SST_CFG
  rd 0x040 [fd 16 16 .rwl 65535 (rng := (.between 1 65535)) (dual := true), fd 8 8 .rwl 10 (rng := (.between 0 50)) (dual := true), fd 0 8 .rwl 5 (rng := (.between 1 20)) (dual := true)],
  -- MON_SST_CFG2
  rd 0x044 [fd 16 16 .rwl 900 (rng := (.between 400 1200)) (dual := true), fd 8 8 .rwl 0 (dual := true), fd 0 6 .rwl 1 (rng := (.between 1 32)) (dual := true)],
  -- MON_SST_STAT
  rd 0x048 [fd 31 1 .ro 0, fd 29 2 .ro 3, fd 28 1 .ro 0, fd 27 1 .ro 0, fd 0 16 .ro 0],
  -- MON_SST_SPD
  rd 0x04C [fd 0 16 .ro 0],
  -- MON_PG_DCL
  rd 0x050 [fd 24 8 .rwl 25 (rng := (.between 1 255)) (dual := true), fd 16 8 .rwl 10 (rng := (.between 1 255)) (dual := true), fd 1 1 .ro 0, fd 0 1 .rwl 0 (dual := true)],
  -- MON_PG_CHG
  rd 0x054 [fd 24 8 .rwl 20 (rng := (.between 1 255)) (dual := true), fd 16 8 .rwl 25 (rng := (.between 1 255)) (dual := true), fd 8 8 .rwl 10 (rng := (.between 1 255)) (dual := true), fd 3 1 .ro 0, fd 2 1 .ro 0, fd 1 1 .rwl 0 (dual := true), fd 0 1 .rwl 0 (dual := true)],
  -- MON_RED_CFG
  rd 0x058 [fd 8 8 .rwl 10 (rng := (.between 1 255)) (dual := true), fd 2 3 .rwl 3 (rng := (.between 0 7)) (dual := true), fd 0 1 .rwl 1 (dual := true)],
  -- MON_RED_STAT
  rd 0x05C [fd 12 4 .ro 0, fd 8 4 .ro 0, fd 6 1 .ro 0, fd 5 1 .ro 0, fd 4 1 .ro 0, fd 3 1 .ro 0, fd 2 1 .ro 0, fd 1 1 .ro 0, fd 0 1 .ro 0],
  -- MON_RED_CTRL
  rd 0x060 [fd 1 1 .wo 0, fd 0 1 .wo 0]]

/-- The registers of the TRC2 page (R231, R232). -/
def regsTrc2 : List RegDesc := [
  -- TRC_SM_CMD
  rd 0x040 [fd 0 3 .wo 0],
  -- TRC_SM_CFG
  rd 0x044 [fd 24 8 .rw 50 (rng := (.between 1 255)), fd 16 8 .rw 20 (rng := (.between 1 255)), fd 8 8 .rwq 32 (rng := (.between 1 255)), fd 0 1 .rwl 1],
  -- TRC_CATCH_CFG
  rd 0x048 [fd 24 8 .rw 40 (rng := (.between 5 50)), fd 16 8 .rw 10 (rng := (.between 5 50)), fd 8 8 .rw 10 (rng := (.between 1 255)), fd 0 8 .rwl 8 (rng := (.between 1 255))],
  -- TRC_OBS_CFG
  rd 0x04C [fd 24 8 .rwl 24 (rng := (.between 1 255)), fd 20 4 .rwl 3 (rng := (.between 1 15)), fd 16 4 .rwl 6 (rng := (.between 2 15)), fd 8 8 .rwl 32 (rng := (.between 1 255))],
  -- TRC_BRAKE_CFG
  rd 0x050 [fd 0 32 .rw 1166016512 (rng := .fge0)],
  -- TRC_STALL_CFG
  rd 0x054 [fd 24 8 .rw 10 (rng := (.between 1 255)), fd 16 8 .rw 50 (rng := (.between 1 255)), fd 8 8 .rw 70 (rng := (.between 10 100)), fd 0 8 .rw 50 (rng := (.between 1 100))],
  -- TRC_SM_STAT
  rd 0x058 [fd 28 4 .ro 0, fd 24 4 .ro 0, fd 20 4 .ro 0, fd 19 1 .ro 0, fd 18 1 .ro 0, fd 17 1 .ro 0, fd 16 1 .ro 0, fd 8 8 .ro 0],
  -- TRC_CATCH_RES
  rd 0x05C [fd 16 16 .ro 0],
  -- TRC_CATCH_SPD
  rd 0x060 [fd 0 32 .ro 0],
  -- TRC_SM_CNT
  rd 0x064 [fd 24 8 .ro 0, fd 16 8 .ro 0, fd 8 8 .ro 0, fd 0 8 .ro 0]]

/-- The registers of the GDH page (R256). -/
def regsGdh : List RegDesc := [
  -- GDH_CFG
  rd 0x040 [fd 6 2 .rwl 1 (dual := true), fd 4 2 .rwl 0 (dual := true), fd 3 1 .rwl 1 (dual := true), fd 0 3 .rwl 2 (rng := (.between 0 6)) (dual := true)],
  -- GDH_SC
  rd 0x044 [fd 10 3 .rwl 3 (dual := true), fd 8 2 .rwl 1 (dual := true), fd 4 4 .rwl 5 (dual := true)],
  -- GDH_SCTH
  rd 0x048 [fd 0 5 .rwl 10 (dual := true)],
  -- GDH_DT
  rd 0x04C [fd 8 6 .rwl 20 (rng := (.between 5 63)) (dual := true), fd 0 8 .rwl 25 (rng := (.between 5 255)) (dual := true)],
  -- GDH_OVS
  rd 0x050 [fd 8 5 .rwl 10 (rng := (.between 1 31)) (dual := true), fd 0 8 .rwl 225 (dual := true)],
  -- GDH_OT
  rd 0x054 [fd 0 12 .rw 4095],
  -- GDH_STAT
  rd 0x058 [fd 13 1 .ro 0, fd 12 1 .ro 0, fd 11 1 .ro 0, fd 10 1 .ro 0, fd 9 1 .ro 0, fd 8 1 .ro 0, fd 7 1 .ro 0, fd 6 1 .ro 0, fd 5 1 .ro 0, fd 4 1 .ro 1, fd 3 1 .ro 0, fd 2 1 .ro 0, fd 1 1 .ro 0, fd 0 1 .ro 0],
  -- GDH_TMP
  rd 0x05C [fd 0 12 .ro 0],
  -- GDH_VSUP
  rd 0x060 [fd 16 16 .ro 0, fd 0 16 .ro 0],
  -- GDH_DT_STAT
  rd 0x064 [fd 16 16 .ro 0, fd 0 16 .ro 0],
  -- GDH_LEG
  rd 0x068 [fd 24 8 .ro 0, fd 16 8 .ro 0, fd 0 2 .ro 0],
  -- GDH_CNT
  rd 0x06C [fd 24 8 .ro 0, fd 16 8 .ro 0, fd 8 8 .ro 0, fd 0 8 .ro 0],
  -- GDH_CLR
  rd 0x070 [fd 3 1 .wo 0, fd 2 1 .wo 0, fd 1 1 .wo 0, fd 0 1 .wo 0],
  -- GDH_TEST
  rd 0x074 [fd 0 1 .wo 0],
  -- GDH_TS
  rd 0x078 [fd 0 32 .ro 0],
  -- GDH_DIE
  rd 0x07C [fd 16 16 .ro 0, fd 0 16 .ro 0]]

/-- The registers of the GDL page (R257). -/
def regsGdl : List RegDesc := [
  -- GDL_CFG
  rd 0x040 [fd 24 8 .rwl 50 (rng := (.between 5 200)) (dual := true), fd 16 6 .rwl 20 (rng := (.between 5 63)) (dual := true), fd 8 8 .rwl 50 (rng := (.between 10 255)) (dual := true)],
  -- GDL_BOOT
  rd 0x044 [fd 16 4 .rwl 4 (rng := (.between 1 15)) (dual := true), fd 8 8 .rw 10 (rng := (.between 1 255)), fd 0 6 .rw 6 (rng := (.between 6 40))],
  -- GDL_STAT
  rd 0x048 [fd 16 16 .ro 0, fd 6 1 .ro 0, fd 5 1 .ro 0, fd 4 1 .ro 0, fd 3 1 .ro 0, fd 2 1 .ro 0, fd 1 1 .ro 0, fd 0 1 .ro 0],
  -- GDL_CNT
  rd 0x04C [fd 24 8 .ro 0, fd 16 8 .ro 0, fd 8 8 .ro 0, fd 2 2 .ro 0, fd 1 1 .wo 0, fd 0 1 .wo 0]]

/-- The registers of the DCL page (R284). -/
def regsDcl : List RegDesc := [
  -- DCL_CTRL
  rd 0x040 [fd 7 1 .rw 0, fd 4 2 .rw 0 (rng := (.between 0 2)), fd 1 1 .ro 0, fd 0 1 .rw 0],
  -- DCL_VREF
  rd 0x044 [fd 0 32 .rw 1137180672 (rng := .finite)],
  -- DCL_SLEW
  rd 0x048 [fd 0 16 .rw 200 (rng := (.between 1 65535))],
  -- DCL_TRACK
  rd 0x04C [fd 16 16 .rw 6144 (rng := (.between 4096 16384)), fd 8 8 .rw 20 (rng := (.between 5 255)), fd 0 8 .rw 10 (rng := (.between 1 255))],
  -- DCL_VLIM
  rd 0x050 [fd 16 16 .rwl 900 (rng := (.between 200 1050)), fd 0 16 .rwl 400 (rng := (.between 100 1049))],
  -- DCL_OV
  rd 0x054 [fd 16 16 .rwl 930 (rng := (.between 201 1100)), fd 8 8 .rwl 20 (rng := (.between 1 255)), fd 0 8 .rwl 10 (rng := (.between 1 255))],
  -- DCL_ILIM
  rd 0x058 [fd 16 16 .rwl 400 (rng := (.between 1 2000)), fd 12 4 .rwl 4 (rng := (.between 1 15))],
  -- DCL_OVL
  rd 0x05C [fd 20 12 .rwl 300, fd 8 12 .rwl 200, fd 0 8 .rwl 50 (rng := (.between 1 255))],
  -- DCL_SHED
  rd 0x060 [fd 24 8 .rw 80, fd 16 8 .rw 60 (rng := (.between 1 254)), fd 8 8 .rw 100 (rng := (.between 1 255)), fd 4 4 .rw 4 (rng := (.between 1 15)), fd 0 2 .rw 0],
  -- DCL_FSW
  rd 0x064 [fd 0 16 .rwq 5000 (rng := (.between 2000 10000))],
  -- DCL_DROOP
  rd 0x068 [fd 0 32 .rw 1036831949 (rng := .f01) (shadow := true)],
  -- DCL_STAT
  rd 0x06C [fd 28 4 .ro 0, fd 24 4 .ro 0, fd 20 4 .ro 0, fd 19 1 .ro 0, fd 18 1 .ro 0, fd 17 1 .ro 0, fd 16 1 .ro 0, fd 14 2 .ro 0, fd 13 1 .ro 0, fd 12 1 .ro 0],
  -- DCL_UDC
  rd 0x070 [fd 0 32 .ro 0],
  -- DCL_VREF_ACT
  rd 0x074 [fd 0 32 .ro 0],
  -- DCL_CNT
  rd 0x078 [fd 24 8 .ro 0, fd 16 8 .ro 0, fd 8 8 .ro 0, fd 0 8 .ro 0],
  -- DCL_CLR
  rd 0x07C [fd 4 1 .wo 0, fd 0 4 .wo 0]]

/-- The registers of the AFE page (R306). -/
def regsAfe : List RegDesc := [
  -- AFE_CFG
  rd 0x040 [fd 16 16 .rwq 4000 (rng := (.between 2000 5000)), fd 4 2 .rwq 0 (rng := (.between 0 1)), fd 0 2 .rwq 0 (rng := (.between 0 1))],
  -- AFE_VBUS
  rd 0x044 [fd 16 16 .rw 750 (rng := (.between 500 850)), fd 0 16 .rwl 540 (rng := (.between 300 849))],
  -- AFE_ILIM
  rd 0x048 [fd 24 8 .rwl 80 (rng := (.between 1 255)), fd 16 8 .rwl 32 (rng := (.between 1 80)), fd 12 4 .rwl 4 (rng := (.between 1 15))],
  -- AFE_Q
  rd 0x04C [fd 0 32 .rw 0 (rng := .finite)],
  -- AFE_STAT
  rd 0x050 [fd 28 4 .ro 0, fd 27 1 .ro 0, fd 26 1 .ro 0, fd 25 1 .ro 0, fd 0 16 .ro 0],
  -- AFE_GRID1
  rd 0x054 [fd 16 16 .ro 0, fd 0 16 .ro 0],
  -- AFE_GRID2
  rd 0x058 [fd 16 16 .ro 0, fd 0 16 .ro 0],
  -- AFE_CNT
  rd 0x05C [fd 24 8 .ro 0, fd 16 8 .ro 0, fd 8 8 .ro 0, fd 0 8 .ro 0],
  -- AFE_CLR
  rd 0x060 [fd 0 1 .wo 0]]

/-- The registers of the DAB page (R307). -/
def regsDab : List RegDesc := [
  -- DAB_CFG
  rd 0x040 [fd 16 16 .rwq 10000 (rng := (.between 5000 20000))],
  -- DAB_ILIM
  rd 0x044 [fd 16 16 .rwl 100 (rng := (.between 1 1000)), fd 12 4 .rwl 4 (rng := (.between 1 15))],
  -- DAB_STAT
  rd 0x048 [fd 28 4 .ro 0, fd 27 1 .ro 0, fd 26 1 .ro 0, fd 0 16 .ro 0],
  -- DAB_P
  rd 0x04C [fd 0 32 .ro 0],
  -- DAB_CNT
  rd 0x050 [fd 24 8 .ro 0, fd 16 8 .ro 0],
  -- DAB_CLR
  rd 0x054 [fd 0 1 .wo 0]]

/-- The registers of the CHG page (R308). -/
def regsChg : List RegDesc := [
  -- CHG_CTRL
  rd 0x040 [fd 8 8 .rw 20 (rng := (.between 1 255)), fd 4 2 .rw 0, fd 0 1 .rw 0],
  -- CHG_IBAT
  rd 0x044 [fd 0 32 .rw 0 (rng := .finite)],
  -- CHG_VBAT
  rd 0x048 [fd 0 32 .rw 1143111680 (rng := .finite)],
  -- CHG_VBMIN
  rd 0x04C [fd 0 32 .rw 1137180672 (rng := .finite)],
  -- CHG_PLIM
  rd 0x050 [fd 20 12 .rwl 2200 (rng := (.between 10 2200)), fd 12 8 .rw 240 (rng := (.between 128 255)), fd 0 8 .rw 0 (rng := (.between 0 80))],
  -- CHG_GRID
  rd 0x054 [fd 24 8 .rwl 25 (rng := (.between 1 100)), fd 16 8 .rwl 15 (rng := (.between 1 100)), fd 8 8 .rwl 10 (rng := (.between 1 255)), fd 0 8 .rwl 10 (rng := (.between 2 45))],
  -- CHG_GRID2
  rd 0x058 [fd 16 16 .rwl 60 (rng := (.between 1 900)), fd 1 1 .rwl 0, fd 0 1 .rwl 0],
  -- CHG_V2L
  rd 0x05C [fd 16 16 .rw 2300 (rng := (.between 2000 2500)), fd 8 8 .rw 16 (rng := (.between 1 32)), fd 0 1 .rw 0],
  -- CHG_STAT
  rd 0x060 [fd 28 4 .ro 0, fd 25 3 .ro 0, fd 22 3 .ro 0, fd 21 1 .ro 0, fd 20 1 .ro 0, fd 19 1 .ro 0, fd 18 1 .ro 0, fd 17 1 .ro 0, fd 16 1 .ro 0, fd 0 16 .ro 0],
  -- CHG_ILIM
  rd 0x064 [fd 16 16 .ro 0, fd 0 16 .ro 0],
  -- CHG_CAUSE
  rd 0x068 [fd 28 4 .ro 0, fd 24 4 .ro 0],
  -- CHG_PBAT
  rd 0x06C [fd 0 32 .ro 0],
  -- CHG_CNT
  rd 0x070 [fd 16 16 .ro 0, fd 8 8 .ro 0, fd 0 8 .ro 0],
  -- CHG_CLR
  rd 0x074 [fd 1 1 .wo 0, fd 0 1 .wo 0]]

/-- The registers of the ACT page (R321, R322). -/
def regsAct : List RegDesc := [
  -- ACTa_CFG
  ra 0x040 2 64 [fd 24 8 .rwl 20 (rng := (.between 1 255)), fd 16 8 .rwl 10 (rng := (.between 1 255)), fd 8 8 .rw 80 (rng := (.between 1 255)), fd 5 3 .rwq 0 (rng := (.between 0 5)), fd 4 1 .rwq 0, fd 0 4 .rwl 2 (rng := (.between 1 15))],
  -- ACTa_SHUNT
  ra 0x044 2 64 [fd 0 32 .rwq 1031798784 (rng := .finite)],
  -- ACTa_PWM
  ra 0x048 2 64 [fd 16 16 .rwq 2000 (rng := (.between 500 5000))],
  -- ACTa_LEARN
  ra 0x04C 2 64 [fd 24 8 .rw 64 (rng := (.between 16 255)), fd 16 8 .rw 60 (rng := (.between 1 255))],
  -- ACTa_TRAVEL
  ra 0x050 2 64 [fd 16 16 .rwl 65535, fd 0 16 .rwl 16],
  -- ACTa_END
  ra 0x054 2 64 [fd 0 16 .rw 0],
  -- ACTa_MOVE
  ra 0x058 2 64 [fd 24 8 .rw 50 (rng := (.between 1 255)), fd 16 8 .rw 2 (rng := (.between 1 255)), fd 8 8 .rw 6 (rng := (.between 1 255)), fd 0 8 .rw 10],
  -- ACTa_TGT
  ra 0x05C 2 64 [fd 0 16 .rw 0],
  -- ACTa_CMD
  ra 0x060 2 64 [fd 0 3 .wo 0],
  -- ACTa_STAT
  ra 0x064 2 64 [fd 28 4 .ro 0, fd 25 3 .ro 0, fd 24 1 .ro 0, fd 23 1 .ro 0, fd 22 1 .ro 0, fd 21 1 .ro 0, fd 20 1 .ro 0, fd 16 4 .ro 0],
  -- ACTa_POS
  ra 0x068 2 64 [fd 0 32 .ro 0],
  -- ACTa_I
  ra 0x06C 2 64 [fd 0 32 .ro 0],
  -- ACTa_CNT
  ra 0x070 2 64 [fd 24 8 .ro 0, fd 16 8 .ro 0, fd 8 8 .ro 0, fd 0 8 .ro 0],
  -- ACTa_CLR
  ra 0x074 2 64 [fd 0 1 .wo 0],
  -- ACT_VLV
  rd 0x0C0 [fd 16 16 .ro 0, fd 8 8 .rwl 9 (rng := (.between 6 31)), fd 0 8 .rwl 32 (rng := (.between 7 34))]]

/-- The registers of the RED page (R351). -/
def regsRed : List RegDesc := [
  -- RED_CTRL
  rd 0x040 [fd 6 2 .wo 0, fd 3 1 .wo 0, fd 2 1 .wo 0, fd 0 1 .wo 0],
  -- RED_CFG
  rd 0x044 [fd 31 1 .rw 1, fd 30 1 .rwl 0, fd 16 12 .rw 100 (rng := (.between 50 2000)), fd 0 16 .rwl 100 (rng := (.between 0 6000))],
  -- RED_SHARE
  rd 0x048 [fd 0 32 .rw 1056964608 (rng := .f01)],
  -- RED_SHARE_RATE
  rd 0x04C [fd 0 16 .rw 10 (rng := (.between 1 1000))],
  -- RED_SUBJ
  rd 0x050 [fd 8 8 .rw 8 (rng := (.between 1 255)), fd 4 4 .rw 8 (rng := (.between 1 15))],
  -- RED_COPY
  rd 0x054 [fd 0 8 .rwl 8 (rng := (.between 1 255))],
  -- RED_STAT
  rd 0x058 [fd 29 3 .ro 0, fd 26 3 .ro 0, fd 25 1 .ro 0, fd 24 1 .ro 0, fd 23 1 .ro 0, fd 22 1 .ro 0, fd 21 1 .ro 0, fd 20 1 .ro 0, fd 19 1 .ro 0, fd 18 1 .ro 0, fd 17 1 .ro 0, fd 16 1 .ro 0, fd 12 4 .ro 0, fd 8 4 .ro 0],
  -- RED_HEALTH
  rd 0x05C [fd 9 1 .ro 0, fd 8 1 .ro 0, fd 7 1 .ro 0, fd 6 1 .ro 0, fd 5 1 .ro 0, fd 4 1 .ro 0, fd 3 1 .ro 0, fd 2 1 .ro 0, fd 1 1 .ro 0, fd 0 1 .ro 0],
  -- RED_SHARE_ACT
  rd 0x060 [fd 0 32 .ro 0],
  -- RED_SEQ01
  rd 0x064 [fd 16 16 .ro 0, fd 0 16 .ro 0],
  -- RED_SEQ23
  rd 0x068 [fd 16 16 .ro 0, fd 0 16 .ro 0],
  -- RED_JRNL
  rd 0x06C [fd 16 16 .ro 0, fd 0 11 .ro 0],
  -- RED_FO
  rd 0x070 [fd 24 8 .ro 0, fd 20 4 .ro 0, fd 0 16 .ro 0],
  -- RED_FO_TS_LO
  rd 0x074 [fd 0 32 .ro 0],
  -- RED_FO_TS_HI
  rd 0x078 [fd 0 32 .ro 0],
  -- RED_TOK_TS_LO
  rd 0x07C [fd 0 32 .ro 0],
  -- RED_TOK_TS_HI
  rd 0x080 [fd 0 32 .ro 0],
  -- RED_SPLIT_LEFT
  rd 0x084 [fd 0 16 .ro 0],
  -- RED_CLR
  rd 0x088 [fd 1 1 .wo 0, fd 0 1 .wo 0]]

/-- The registers of the CONJ page (R352). -/
def regsConj : List RegDesc := [
  -- CONJ_CFG
  rd 0x040 [fd 0 8 .rwl 4 (rng := (.between 1 255))],
  -- CONJ_STAT
  rd 0x044 [fd 5 1 .ro 0, fd 4 1 .ro 0, fd 3 1 .ro 0, fd 2 1 .ro 0, fd 1 1 .ro 0, fd 0 1 .ro 0],
  -- CONJ_CNT
  rd 0x048 [fd 24 8 .ro 0, fd 16 8 .ro 0, fd 8 8 .ro 0, fd 0 8 .ro 0],
  -- CONJ_AGE
  rd 0x04C [fd 16 16 .ro 0, fd 0 8 .ro 0],
  -- CONJ_TOFS
  rd 0x050 [fd 16 16 .ro 0, fd 0 16 .ro 0],
  -- CONJ_CLR
  rd 0x054 [fd 0 1 .wo 0]]

/-- The registers of the SAF page (R385). -/
def regsSaf : List RegDesc := [
  -- SAF_CFG
  rd 0x040 [fd 31 1 .rwl 0 (dual := true), fd 30 1 .rwl 0 (dual := true), fd 29 1 .rwl 0 (dual := true), fd 16 8 .rwl 10 (rng := (.between 1 255)) (dual := true), fd 8 8 .rwl 10 (rng := (.between 1 255)) (dual := true), fd 0 8 .rwl 20 (rng := (.between 1 255)) (dual := true)],
  -- SAF_SLS01
  rd 0x044 [fd 16 16 .rwl 65535 (rng := (.between 1 65535)) (dual := true), fd 0 16 .rwl 65535 (rng := (.between 1 65535)) (dual := true)],
  -- SAF_SLS23
  rd 0x048 [fd 16 16 .rwl 65535 (rng := (.between 1 65535)) (dual := true), fd 0 16 .rwl 65535 (rng := (.between 1 65535)) (dual := true)],
  -- SAF_SPD
  rd 0x04C [fd 24 8 .rwl 20 (dual := true), fd 16 8 .rwl 10 (rng := (.between 1 255)) (dual := true), fd 12 4 .rwl 3 (rng := (.between 1 15)) (dual := true)],
  -- SAF_SLP_LO
  rd 0x050 [fd 0 32 .rwl 2147483648 (dual := true)],
  -- SAF_SLP_HI
  rd 0x054 [fd 0 32 .rwl 2147483647 (dual := true)],
  -- SAF_SLP_DEC
  rd 0x058 [fd 0 32 .rwl 1092616192 (rng := .fgt0) (dual := true)],
  -- SAF_TQM
  rd 0x05C [fd 16 16 .rwl 65535 (dual := true), fd 0 5 .rwl 4 (rng := (.between 1 20)) (dual := true)],
  -- SAF_TQM2
  rd 0x060 [fd 16 16 .rwl 65535 (dual := true)],
  -- SAF_MACH
  rd 0x064 [fd 16 16 .rwl 0 (dual := true), fd 0 16 .rwl 0 (dual := true)],
  -- SAF_MI
  rd 0x068 [fd 0 32 .rwl 1048576000 (dual := true)],
  -- SAF_K_CFG
  rd 0x06C [fd 26 6 .rwl 0 (dual := true), fd 25 1 .rwl 0 (dual := true), fd 16 8 .rwl 10 (rng := (.between 1 255)) (dual := true), fd 8 8 .rwl 20 (rng := (.between 5 50)) (dual := true), fd 4 4 .rwl 4 (rng := (.between 2 10)) (dual := true)],
  -- SAF_K_DEM
  rd 0x070 [fd 24 6 .ro 0, fd 16 6 .ro 0, fd 8 6 .ro 0, fd 0 6 .rw 0],
  -- SAF_CTRL
  rd 0x074 [fd 2 1 .wo 0, fd 1 1 .wo 0, fd 0 1 .wo 0 (dual := true)],
  -- SAF_STAT
  rd 0x078 [fd 29 3 .ro 0, fd 28 1 .ro 0, fd 27 1 .ro 0, fd 26 1 .ro 0, fd 25 1 .ro 0, fd 23 2 .ro 0, fd 22 1 .ro 1, fd 21 1 .ro 1, fd 20 1 .ro 0, fd 19 1 .ro 0, fd 18 1 .ro 0, fd 17 1 .ro 0, fd 16 1 .ro 0, fd 12 4 .ro 0, fd 6 6 .ro 0],
  -- SAF_SPD_ACT
  rd 0x07C [fd 0 32 .ro 0],
  -- SAF_POS
  rd 0x080 [fd 0 32 .ro 0],
  -- SAF_TQB
  rd 0x084 [fd 0 32 .ro 0],
  -- SAF_CFG_CRC
  rd 0x088 [fd 0 32 .ro 0]]

/-- The registers of the CLS page (R386). -/
def regsCls : List RegDesc := [
  -- CLS_CFG
  rd 0x040 [fd 24 8 .rwl 10 (rng := (.between 1 255)) (dual := true)],
  -- CLS_IDn
  ra 0x100 8 32 [fd 0 32 .rwl 1 (rng := (.between 1 4294967295)) (dual := true)],
  -- CLS_CFGn
  ra 0x104 8 32 [fd 31 1 .rwl 0 (dual := true), fd 30 1 .rwl 0 (dual := true), fd 29 1 .rwl 0 (dual := true), fd 28 1 .rwl 0 (dual := true), fd 27 1 .rwl 0 (dual := true), fd 21 6 .rwl 0 (rng := (.between 0 28)) (dual := true), fd 13 8 .rwl 0 (dual := true), fd 9 4 .rwl 3 (rng := (.between 1 15)) (dual := true), fd 5 4 .rwl 0 (rng := (.between 0 9)) (dual := true)],
  -- CLS_LOCn
  ra 0x108 8 32 [fd 31 1 .rwl 0 (dual := true), fd 0 29 .rwl 0 (dual := true)],
  -- CLS_WDn
  ra 0x10C 8 32 [fd 16 16 .rwl 500 (dual := true)],
  -- CLS_STATn
  ra 0x110 8 32 [fd 16 16 .ro 0, fd 8 8 .ro 0, fd 4 4 .ro 0],
  -- CLS_CNTn
  ra 0x114 8 32 [fd 24 8 .ro 0, fd 16 8 .ro 0, fd 8 8 .ro 0, fd 0 8 .ro 0]]

/-- The registers of the RING page (R420). -/
def regsRing : List RegDesc := [
  -- RING_CFG
  rd 0x040 [fd 24 7 .rw 0 (rng := (.between 0 64)), fd 16 7 .rw 0 (rng := (.between 0 64)), fd 8 8 .rw 0, fd 0 4 .rw 3 (rng := (.between 2 15))],
  -- RING_LINK
  rd 0x044 [fd 16 8 .rw 16 (rng := (.between 1 255))],
  -- RING_OUTMAPj
  ra 0x048 4 4 [fd 31 1 .rw 0, fd 24 6 .rw 0, fd 23 1 .rw 0, fd 16 6 .rw 0, fd 15 1 .rw 0, fd 8 6 .rw 0, fd 7 1 .rw 0, fd 0 6 .rw 0],
  -- RING_STAT
  rd 0x058 [fd 31 1 .ro 0, fd 30 1 .ro 0, fd 29 1 .ro 0, fd 28 1 .ro 0, fd 27 1 .ro 0, fd 26 1 .ro 0, fd 25 1 .ro 0, fd 24 1 .ro 0, fd 23 1 .ro 0, fd 8 8 .ro 0],
  -- RING_DLY
  rd 0x05C [fd 16 16 .ro 0],
  -- RING_CYC
  rd 0x060 [fd 0 32 .ro 0],
  -- RING_TERR
  rd 0x064 [fd 0 32 .ro 0],
  -- RING_CNT
  rd 0x068 [fd 24 8 .ro 0, fd 16 8 .ro 0, fd 8 8 .ro 0, fd 0 8 .ro 0],
  -- RING_CNT2
  rd 0x06C [fd 24 8 .ro 0, fd 16 8 .ro 0, fd 8 8 .ro 0, fd 0 8 .ro 0],
  -- RING_CLR
  rd 0x070 [fd 0 1 .wo 0],
  -- RING_INMAPk
  ra 0x100 64 4 [fd 31 1 .rw 0, fd 0 14 .rw 0]]

/-- The registers of the BULK page (R421). -/
def regsBulk : List RegDesc := [
  -- BULK_CFG
  rd 0x040 [fd 0 2 .rw 0 (rng := (.between 0 2))],
  -- BULK_STAT
  rd 0x044 [fd 16 8 .ro 0, fd 8 8 .ro 0, fd 7 1 .ro 0, fd 0 7 .ro 0],
  -- BULK_CLR
  rd 0x048 [fd 0 1 .wo 0],
  -- BULK_DESC0n
  ra 0x200 64 8 [fd 31 1 .rw 0, fd 27 4 .rw 0, fd 20 6 .rw 0, fd 0 16 .rw 0],
  -- BULK_DESC1n
  ra 0x204 64 8 [fd 24 8 .ro 0, fd 0 24 .rw 0]]

/-- The registers of the CAN page (R439, R440). -/
def regsCan : List RegDesc := [
  -- CAN_CTRL
  rd 0x040 [fd 28 4 .rw 0, fd 8 1 .rw 1, fd 7 1 .rw 0, fd 6 1 .rw 0, fd 5 1 .rw 0, fd 4 1 .rw 0, fd 2 2 .rw 0, fd 1 1 .wo 0, fd 0 1 .rw 1],
  -- CAN_NBT
  rd 0x044 [fd 24 8 .rw 0, fd 16 8 .rw 126 (rng := (.between 1 255)), fd 8 7 .rw 31, fd 0 7 .rw 31],
  -- CAN_DBT
  rd 0x048 [fd 31 1 .rw 0, fd 24 7 .rw 0, fd 16 5 .rw 0, fd 8 5 .rw 30, fd 4 4 .rw 7, fd 0 4 .rw 7],
  -- CAN_STAT
  rd 0x04C [fd 30 2 .ro 0, fd 29 1 .ro 0, fd 28 1 .ro 0, fd 16 8 .ro 0, fd 8 7 .ro 0, fd 3 3 .ro 0, fd 0 3 .ro 0],
  -- CAN_TXQ
  rd 0x050 [fd 16 4 .ro 0, fd 8 6 .ro 0, fd 0 6 .ro 0],
  -- CAN_RXQ
  rd 0x054 [fd 24 8 .ro 0, fd 8 8 .rw 1 (rng := (.between 1 64)), fd 0 7 .ro 0],
  -- CAN_CNT
  rd 0x058 [fd 24 8 .ro 0, fd 16 8 .ro 0, fd 8 8 .ro 0, fd 0 8 .ro 0],
  -- CAN_CLR
  rd 0x05C [fd 1 1 .wo 0, fd 0 1 .wo 0],
  -- CAN_TX_ID
  rd 0x060 [fd 31 1 .rw 0, fd 0 29 .rw 0],
  -- CAN_TX_HDR
  rd 0x064 [fd 24 8 .rw 0, fd 7 1 .rw 0, fd 6 1 .rw 0, fd 5 1 .rw 0, fd 0 4 .rw 0],
  -- CAN_TX_PUSH
  rd 0x068 [fd 0 3 .wo 0],
  -- CAN_TX_CANCEL
  rd 0x06C [fd 8 2 .wo 0, fd 0 8 .wo 0],
  -- CAN_TXC_STAT
  rd 0x070 [fd 24 8 .ro 0, fd 23 1 .ro 0, fd 22 1 .ro 0, fd 20 2 .ro 0, fd 16 4 .ro 0, fd 8 3 .ro 0, fd 0 3 .ro 0],
  -- CAN_TXC_TS_LO
  rd 0x074 [fd 0 32 .ro 0],
  -- CAN_TXC_TS_HI
  rd 0x078 [fd 0 32 .ro 0],
  -- CAN_POP
  rd 0x07C [fd 1 1 .wo 0, fd 0 1 .wo 0],
  -- CAN_TX_DATAw
  ra 0x080 16 4 [fd 0 32 .rw 0],
  -- CAN_RX_ID
  rd 0x0C0 [fd 31 1 .ro 0, fd 30 1 .ro 0, fd 0 29 .ro 0],
  -- CAN_RX_HDR
  rd 0x0C4 [fd 26 6 .ro 0, fd 7 1 .ro 0, fd 6 1 .ro 0, fd 5 1 .ro 0, fd 4 1 .ro 0, fd 0 4 .ro 0],
  -- CAN_RX_TS_LO
  rd 0x0C8 [fd 0 32 .ro 0],
  -- CAN_RX_TS_HI
  rd 0x0CC [fd 0 32 .ro 0],
  -- CAN_RX_DATAw
  ra 0x0D0 16 4 [fd 0 32 .ro 0],
  -- CAN_FCFG
  rd 0x110 [fd 8 1 .rw 0, fd 0 6 .rw 0 (rng := (.count 48))],
  -- CAN_FLTf_ID
  ra 0x200 48 8 [fd 31 1 .rw 0, fd 29 2 .rw 2, fd 0 29 .rw 0],
  -- CAN_FLTf_MASK
  ra 0x204 48 8 [fd 0 29 .rw 0]]

/-- The registers of the MEM page (R453, R454). -/
def regsMem : List RegDesc := [
  -- MEM_PWR
  rd 0x040 [fd 30 2 .rw 0 (rng := (.between 0 2)), fd 28 2 .rw 0 (rng := (.between 0 2)), fd 26 2 .rw 0 (rng := (.between 0 2)), fd 24 2 .rw 0 (rng := (.between 0 2)), fd 22 2 .rw 0 (rng := (.between 0 2)), fd 20 2 .rw 0 (rng := (.between 0 2)), fd 18 2 .rw 0 (rng := (.between 0 2)), fd 16 2 .rw 0 (rng := (.between 0 2)), fd 14 2 .rw 0 (rng := (.between 0 2)), fd 12 2 .rw 0 (rng := (.between 0 2)), fd 10 2 .rw 0 (rng := (.between 0 2)), fd 8 2 .rw 0 (rng := (.between 0 2)), fd 6 2 .rw 0 (rng := (.between 0 2)), fd 4 2 .rw 0 (rng := (.between 0 2)), fd 2 2 .rw 0 (rng := (.between 0 2)), fd 0 2 .rw 0 (rng := (.between 0 2))],
  -- MEM_PWR_STAT
  rd 0x044 [fd 16 16 .ro 0, fd 12 4 .ro 0, fd 8 4 .ro 0, fd 0 8 .ro 0],
  -- MEM_ECC_CNT
  rd 0x048 [fd 16 16 .ro 0, fd 8 8 .ro 0],
  -- MEM_ECC_LAST
  rd 0x04C [fd 28 4 .ro 0, fd 27 1 .ro 0, fd 26 1 .ro 0, fd 0 16 .ro 0],
  -- MEM_SCRUB
  rd 0x050 [fd 16 8 .ro 0],
  -- MEM_CLR
  rd 0x054 [fd 1 1 .wo 0, fd 0 1 .wo 0],
  -- MEM_CAP_CTRL
  rd 0x058 [fd 16 8 .wo 0, fd 8 8 .wo 0, fd 0 8 .wo 0],
  -- MEM_CAPw_CFG
  ra 0x100 8 32 [fd 30 2 .rw 3 (rng := (.between 1 3)), fd 29 1 .rw 1, fd 26 3 .rw 0, fd 24 2 .rw 0, fd 17 7 .rw 0 (rng := (.between 0 95)), fd 0 16 .rw 0],
  -- MEM_CAPw_AREA
  ra 0x104 8 32 [fd 16 9 .rw 32 (rng := (.between 1 256)), fd 0 8 .rw 0],
  -- MEM_CAPw_LEVEL
  ra 0x108 8 32 [fd 0 32 .rw 0],
  -- MEM_CAPw_CHk
  ra 0x10C 4 4 [fd 16 14 .rw 0, fd 0 14 .rw 0],
  -- MEM_CAPw_STAT
  ra 0x11C 8 32 [fd 30 2 .ro 0, fd 29 1 .ro 0, fd 0 17 .ro 0]]

/-- The registers of the EVC page (R468). -/
def regsEvc : List RegDesc := [
  -- EVC_RAWg
  ra 0x040 4 4 [fd 0 32 .ro 0],
  -- EVC_PENDg
  ra 0x050 4 4 [fd 0 32 .w1c 0],
  -- EVC_IRQg
  ra 0x060 4 4 [fd 0 32 .rw 0],
  -- EVC_MPg
  ra 0x070 4 4 [fd 0 32 .rw 0],
  -- EVC_RINGg
  ra 0x080 4 4 [fd 0 32 .rw 0],
  -- EVC_LOG0
  rd 0x090 [fd 0 32 .rwl 3154113531],
  -- EVC_LOG1
  rd 0x094 [fd 0 32 .rwl 4261406975],
  -- EVC_LOG2
  rd 0x098 [fd 0 32 .rwl 1992293371],
  -- EVC_REACTr
  ra 0x0A0 6 4 [fd 30 2 .rwl 0, fd 28 2 .rwl 0, fd 26 2 .rwl 0, fd 24 2 .rwl 0, fd 22 2 .rwl 0, fd 20 2 .rwl 0, fd 18 2 .rwl 0, fd 16 2 .rwl 0, fd 14 2 .rwl 0, fd 12 2 .rwl 0, fd 10 2 .rwl 0, fd 8 2 .rwl 0, fd 6 2 .rwl 0, fd 4 2 .rwl 0, fd 2 2 .rwl 0, fd 0 2 .rwl 0],
  -- EVC_STAT
  rd 0x0B8 [fd 31 1 .ro 0, fd 23 1 .ro 0, fd 16 7 .ro 0, fd 8 8 .ro 0],
  -- EVC_CLR
  rd 0x0BC [fd 0 1 .wo 0],
  -- EVC_CNTk
  ra 0x100 24 4 [fd 24 8 .ro 0, fd 16 8 .ro 0, fd 8 8 .ro 0, fd 0 8 .ro 0]]

/-- The registers of the MON0 page (R469). -/
def regsMon0 : List RegDesc := [
  -- MON_LOG_NEXT
  rd 0x040 [fd 0 32 .ro 0],
  -- MON_LOG_STAT
  rd 0x044 [fd 16 10 .ro 0, fd 0 16 .ro 0],
  -- MON_LOG_CLR
  rd 0x048 [fd 1 1 .wo 0 (dual := true), fd 0 1 .wo 0 (dual := true)],
  -- MON_CNTk
  ra 0x100 8 4 [fd 24 8 .ro 0, fd 16 8 .ro 0, fd 8 8 .ro 0, fd 0 8 .ro 0]]

/-- The registers of the CE2 page (R183). -/
def regsCe2 : List RegDesc := [
  -- CE_NFn
  ra 0x040 16 4 [fd 0 32 .ro 0]]

/-- The block registers of a page, from offset 0x040 (R88). A page the chapters give no register has only its header. -/
def regsOf : Page → List RegDesc
  | .pwr => regsPwr
  | .clk => regsClk
  | .rst => regsRst
  | .dir => regsDir
  | .fbk 0 => regsFbk0
  | .fbk 1 => regsFbk1
  | .smp 0 => regsSmp0
  | .smp 1 => regsSmp1
  | .sns _ => regsSns
  | .ce 0 => regsCe0
  | .ce 1 => regsCe1
  | .trc 0 => regsTrc0
  | .trc 1 => regsTrc1
  | .mon 1 => regsMon1
  | .trc 2 => regsTrc2
  | .gdh _ => regsGdh
  | .gdl _ => regsGdl
  | .dcl => regsDcl
  | .afe => regsAfe
  | .dab => regsDab
  | .chg => regsChg
  | .act => regsAct
  | .red => regsRed
  | .conj => regsConj
  | .saf => regsSaf
  | .cls => regsCls
  | .ring => regsRing
  | .bulk => regsBulk
  | .can _ => regsCan
  | .mem => regsMem
  | .evc => regsEvc
  | .mon 0 => regsMon0
  | .ce 2 => regsCe2
  | .sys => []
  | .ce _ => []
  | .trc _ => []
  | .mon _ => []

end Sys2Proof.Machine
end

