-- ==== Sys2Proof/Machine/Fields.lean ====
section
/-! DEFINITION. The names of the register fields, as the register tables give them: each is the lane page-map address of
its register (R85) with its lowest bit and its width. -/
namespace Sys2Proof.Machine

/-- A named bit field of a register at page-map address `addr`. -/
structure Fld where
  addr : Nat
  lo : Nat
  w : Nat
deriving DecidableEq, Repr

namespace F

def PWR_DROOP_CFG_RELEASE : Fld := ⟨0x02040, 8, 8⟩
def PWR_DROOP_CFG_EN : Fld := ⟨0x02040, 4, 1⟩
def PWR_DROOP_CFG_TH : Fld := ⟨0x02040, 0, 4⟩
def PWR_STAT_DROOP_CNT : Fld := ⟨0x02044, 16, 16⟩
def PWR_STAT_CE_SLOW_OK : Fld := ⟨0x02044, 5, 1⟩
def PWR_STAT_CE_HALF : Fld := ⟨0x02044, 4, 1⟩
def PWR_STAT_SYS_HALF : Fld := ⟨0x02044, 3, 1⟩
def PWR_STAT_DROOP : Fld := ⟨0x02044, 2, 1⟩
def PWR_STAT_VSB_OK : Fld := ⟨0x02044, 1, 1⟩
def PWR_STAT_VSA_OK : Fld := ⟨0x02044, 0, 1⟩
def CLK_STAT_PEER_PPM : Fld := ⟨0x01040, 16, 16⟩
def CLK_STAT_MON_SEES_SELF : Fld := ⟨0x01040, 5, 1⟩
def CLK_STAT_MON_OK : Fld := ⟨0x01040, 4, 1⟩
def CLK_STAT_PEER_OK : Fld := ⟨0x01040, 3, 1⟩
def CLK_STAT_PEER_LOCK : Fld := ⟨0x01040, 2, 1⟩
def CLK_STAT_XTAL_OK : Fld := ⟨0x01040, 1, 1⟩
def CLK_STAT_PLL_LOCK : Fld := ⟨0x01040, 0, 1⟩
def RST_CAUSE_WARM_CNT : Fld := ⟨0x03040, 8, 8⟩
def RST_CAUSE_CLK : Fld := ⟨0x03040, 5, 1⟩
def RST_CAUSE_SOFT : Fld := ⟨0x03040, 4, 1⟩
def RST_CAUSE_MON : Fld := ⟨0x03040, 3, 1⟩
def RST_CAUSE_PIN : Fld := ⟨0x03040, 2, 1⟩
def RST_CAUSE_VS : Fld := ⟨0x03040, 1, 1⟩
def RST_CAUSE_POR : Fld := ⟨0x03040, 0, 1⟩
def DIR_STAT_PEER_MATCH : Fld := ⟨0x06040, 16, 1⟩
def DIR_STAT_COUNT : Fld := ⟨0x06040, 0, 15⟩
def FBK_SEL_RETURN_EN : Fld := ⟨0x24040, 15, 1⟩
def FBK_SEL_PEER_CHK : Fld := ⟨0x24040, 14, 1⟩
def FBK_SEL_HALL_CHK : Fld := ⟨0x24040, 13, 1⟩
def FBK_SEL_OBS_EN : Fld := ⟨0x24040, 12, 1⟩
def FBK_SEL_SEC : Fld := ⟨0x24040, 4, 3⟩
def FBK_SEL_PRIM : Fld := ⟨0x24040, 0, 3⟩
def FBK_MECH_DIR : Fld := ⟨0x24044, 6, 1⟩
def FBK_MECH_PP : Fld := ⟨0x24044, 0, 6⟩
def FBK_RES_CFG_EXC_F : Fld := ⟨0x24048, 24, 8⟩
def FBK_RES_CFG_AMP : Fld := ⟨0x24048, 20, 4⟩
def FBK_RES_CFG_PH_COMP : Fld := ⟨0x24048, 12, 8⟩
def FBK_RES_CFG_BW : Fld := ⟨0x24048, 10, 2⟩
def FBK_RES_CFG_RATIO : Fld := ⟨0x24048, 5, 5⟩
def FBK_RES_CFG_EXC_EN : Fld := ⟨0x24048, 0, 1⟩
def FBK_RES_CHK_AMP_LO : Fld := ⟨0x2404C, 24, 8⟩
def FBK_RES_CHK_AMP_HI : Fld := ⟨0x2404C, 16, 8⟩
def FBK_RES_CHK_TRK_LIM : Fld := ⟨0x2404C, 8, 8⟩
def FBK_RES_CHK_FILT : Fld := ⟨0x2404C, 0, 8⟩
def FBK_ENC_CFG_LINES : Fld := ⟨0x24050, 12, 20⟩
def FBK_ENC_CFG_IDX_GATE : Fld := ⟨0x24050, 10, 2⟩
def FBK_ENC_CFG_IDX_EN : Fld := ⟨0x24050, 9, 1⟩
def FBK_ENC_CFG_MIN_SP : Fld := ⟨0x24050, 2, 6⟩
def FBK_ENC_CFG_FILT : Fld := ⟨0x24050, 0, 2⟩
def FBK_ENC_CHK_GLITCH_LIM : Fld := ⟨0x24054, 8, 8⟩
def FBK_ENC_CHK_M : Fld := ⟨0x24054, 4, 4⟩
def FBK_ENC_CHK_TOL : Fld := ⟨0x24054, 0, 4⟩
def FBK_ENC_OFS_OFS : Fld := ⟨0x24058, 0, 32⟩
def FBK_HALL_CFG_HALL_N : Fld := ⟨0x2405C, 4, 4⟩
def FBK_HALL_CFG_SEQ : Fld := ⟨0x2405C, 3, 1⟩
def FBK_HALL_CFG_FILT : Fld := ⟨0x2405C, 0, 2⟩
def FBK_SSI_CFG_DIV : Fld := ⟨0x24060, 23, 9⟩
def FBK_SSI_CFG_PW_M1 : Fld := ⟨0x24060, 18, 5⟩
def FBK_SSI_CFG_ERRB : Fld := ⟨0x24060, 17, 1⟩
def FBK_SSI_CFG_PAR : Fld := ⟨0x24060, 16, 1⟩
def FBK_SSI_CFG_GRAY : Fld := ⟨0x24060, 15, 1⟩
def FBK_SSI_CFG_RATE_M1 : Fld := ⟨0x24060, 12, 3⟩
def FBK_SSI_CFG_SSI_N : Fld := ⟨0x24060, 8, 4⟩
def FBK_SPD_CFG_K_M1 : Fld := ⟨0x24064, 26, 6⟩
def FBK_SPD_CFG_W_M1 : Fld := ⟨0x24064, 20, 6⟩
def FBK_SPD_CFG_CHG_HI : Fld := ⟨0x24064, 12, 8⟩
def FBK_SPD_CFG_CHG_LO : Fld := ⟨0x24064, 4, 8⟩
def FBK_CHK_CFG_ZERO_TO : Fld := ⟨0x24068, 24, 8⟩
def FBK_CHK_CFG_EXTRAP_MAX : Fld := ⟨0x24068, 16, 8⟩
def FBK_CHK_CFG_POS_TOL : Fld := ⟨0x24068, 8, 8⟩
def FBK_CHK_CFG_POS_N : Fld := ⟨0x24068, 4, 4⟩
def FBK_ANG_OFS_RES_ANG : Fld := ⟨0x2406C, 16, 16⟩
def FBK_ANG_OFS_ENC_ANG : Fld := ⟨0x2406C, 0, 16⟩
def FBK_ANG_OFS2_SSI_ANG : Fld := ⟨0x24070, 16, 16⟩
def FBK_ANG_OFS2_HALL_ANG : Fld := ⟨0x24070, 0, 16⟩
def FBK_SSI_TIM_LAT : Fld := ⟨0x24074, 8, 8⟩
def FBK_SSI_TIM_TM : Fld := ⟨0x24074, 0, 8⟩
def FBK_STAT_ACT : Fld := ⟨0x25040, 29, 3⟩
def FBK_STAT_SPD_MODE : Fld := ⟨0x25040, 28, 1⟩
def FBK_STAT_ENC_REF : Fld := ⟨0x25040, 27, 1⟩
def FBK_STAT_FAULT : Fld := ⟨0x25040, 16, 5⟩
def FBK_STAT_HEALTHY : Fld := ⟨0x25040, 8, 5⟩
def FBK_ANG_VALID : Fld := ⟨0x25044, 16, 1⟩
def FBK_ANG_ANGLE : Fld := ⟨0x25044, 0, 16⟩
def FBK_SPEED_SPEED : Fld := ⟨0x25048, 0, 32⟩
def FBK_ENC_CNT_CNT : Fld := ⟨0x2504C, 0, 32⟩
def FBK_IDX_REF_REF : Fld := ⟨0x25050, 0, 32⟩
def FBK_IDX_CNT_CNT : Fld := ⟨0x25054, 0, 32⟩
def FBK_IDX_TS_LO_TS : Fld := ⟨0x25058, 0, 32⟩
def FBK_IDX_TS_HI_TS : Fld := ⟨0x2505C, 0, 32⟩
def FBK_IDX_ERR_DRIFT : Fld := ⟨0x25060, 16, 16⟩
def FBK_IDX_ERR_LAST_ERR : Fld := ⟨0x25060, 8, 8⟩
def FBK_IDX_ERR_MM_CNT : Fld := ⟨0x25060, 0, 4⟩
def FBK_RES_STAT_AMP : Fld := ⟨0x25064, 16, 16⟩
def FBK_RES_STAT_PHASE : Fld := ⟨0x25064, 8, 8⟩
def FBK_RES_STAT_TRK : Fld := ⟨0x25064, 0, 8⟩
def FBK_FLT_CNT_GLITCH : Fld := ⟨0x25068, 24, 8⟩
def FBK_FLT_CNT_SSI : Fld := ⟨0x25068, 16, 8⟩
def FBK_FLT_CNT_HALL : Fld := ⟨0x25068, 8, 8⟩
def FBK_FLT_CNT_IDX : Fld := ⟨0x25068, 0, 8⟩
def FBK_CLR_CNT : Fld := ⟨0x2506C, 7, 1⟩
def FBK_CLR_DRIFT : Fld := ⟨0x2506C, 6, 1⟩
def FBK_CLR_ENC_REF : Fld := ⟨0x2506C, 5, 1⟩
def FBK_CLR_FAULT : Fld := ⟨0x2506C, 0, 5⟩
def SMP_TIM_QUIET : Fld := ⟨0x28040, 16, 8⟩
def SMP_TIM_LEAD : Fld := ⟨0x28040, 0, 9⟩
def SMP_SINC_OSR_M : Fld := ⟨0x28044, 4, 2⟩
def SMP_SINC_OSR_D : Fld := ⟨0x28044, 0, 2⟩
def SMP_CHK_SUM_EN : Fld := ⟨0x28048, 31, 1⟩
def SMP_CHK_SUM_N : Fld := ⟨0x28048, 24, 4⟩
def SMP_CHK_SUM_LIM : Fld := ⟨0x28048, 16, 8⟩
def SMP_CHK_RES_N : Fld := ⟨0x28048, 12, 4⟩
def SMP_CHK_RES_LIM : Fld := ⟨0x28048, 4, 8⟩
def SMP_CHK_FRZ_N : Fld := ⟨0x28048, 0, 4⟩
def SMP_SNSCHK_RUN_MAX : Fld := ⟨0x2804C, 24, 8⟩
def SMP_SNSCHK_DIS_LIM : Fld := ⟨0x2804C, 16, 8⟩
def SMP_SNSCHK_DIS_N : Fld := ⟨0x2804C, 12, 4⟩
def SMP_CAL_START : Fld := ⟨0x28050, 31, 1⟩
def SMP_CAL_MASK : Fld := ⟨0x28050, 0, 24⟩
def SMP_CLR_CNT : Fld := ⟨0x28054, 31, 1⟩
def SMP_CLR_SNS : Fld := ⟨0x28054, 24, 7⟩
def SMP_CLR_FLT : Fld := ⟨0x28054, 0, 24⟩
def SMP_IN_CFG_LIM_EN (i : Nat) : Fld := ⟨0x28100 + i * 16, 1, 1⟩
def SMP_IN_CFG_USED (i : Nat) : Fld := ⟨0x28100 + i * 16, 0, 1⟩
def SMP_IN_LIM_HI (i : Nat) : Fld := ⟨0x28104 + i * 16, 16, 16⟩
def SMP_IN_LIM_LO (i : Nat) : Fld := ⟨0x28104 + i * 16, 0, 16⟩
def SMP_IN_OFS_OFS (i : Nat) : Fld := ⟨0x28108 + i * 16, 0, 16⟩
def SMP_IN_GAIN_GAIN (i : Nat) : Fld := ⟨0x2810C + i * 16, 0, 32⟩
def SMP_STAT_SLIP_CNT : Fld := ⟨0x29040, 16, 16⟩
def SMP_STAT_REF_OK : Fld := ⟨0x29040, 3, 1⟩
def SMP_STAT_DCL_DIS : Fld := ⟨0x29040, 2, 1⟩
def SMP_STAT_CAL_BUSY : Fld := ⟨0x29040, 1, 1⟩
def SMP_STAT_EDGE_WIN : Fld := ⟨0x29040, 0, 1⟩
def SMP_FLT_FLT : Fld := ⟨0x29044, 0, 24⟩
def SMP_SNS_FLT_LOST : Fld := ⟨0x29048, 0, 7⟩
def SMP_FRZ_CNT_FRZ : Fld := ⟨0x2904C, 24, 8⟩
def SMP_FRZ_CNT_RNG : Fld := ⟨0x2904C, 16, 8⟩
def SMP_FRZ_CNT_ISUM : Fld := ⟨0x2904C, 8, 8⟩
def SMP_FRZ_CNT_RESID : Fld := ⟨0x2904C, 0, 8⟩
def SMP_ISUM_SUM : Fld := ⟨0x29050, 0, 32⟩
def SMP_RESID_RESID : Fld := ⟨0x29054, 0, 32⟩
def SMP_TS_LO_TS : Fld := ⟨0x29058, 0, 32⟩
def SMP_TS_HI_TS : Fld := ⟨0x2905C, 0, 32⟩
def SMP_TEMP_TEMP (i : Nat) : Fld := ⟨0x29060 + i * 4, 16, 16⟩
def SMP_TEMP_TAG (i : Nat) : Fld := ⟨0x29060 + i * 4, 12, 4⟩
def SMP_TEMP_RAW12 (i : Nat) : Fld := ⟨0x29060 + i * 4, 0, 12⟩
def SMP_RAW_CODE (i : Nat) : Fld := ⟨0x29100 + i * 4, 16, 16⟩
def SMP_RAW_TAG (i : Nat) : Fld := ⟨0x29100 + i * 4, 12, 4⟩
def SMP_SNS_VALUE (i : Nat) : Fld := ⟨0x29180 + i * 4, 16, 16⟩
def SMP_SNS_TAG (i : Nat) : Fld := ⟨0x29180 + i * 4, 12, 4⟩
def SMP_SNS_LOST (i : Nat) : Fld := ⟨0x29180 + i * 4, 1, 1⟩
def SMP_SNS_DEC (i : Nat) : Fld := ⟨0x29180 + i * 4, 0, 1⟩
def SNS_CFG_CLK_SEL (n : Nat) : Fld := ⟨0x58000 + n * 0x1000 + 0x040, 0, 2⟩
def SNS_STAT_VDS_OK (n : Nat) : Fld := ⟨0x58000 + n * 0x1000 + 0x044, 4, 1⟩
def SNS_STAT_CLK_USED (n : Nat) : Fld := ⟨0x58000 + n * 0x1000 + 0x044, 3, 1⟩
def SNS_STAT_CLK_B (n : Nat) : Fld := ⟨0x58000 + n * 0x1000 + 0x044, 2, 1⟩
def SNS_STAT_CLK_A (n : Nat) : Fld := ⟨0x58000 + n * 0x1000 + 0x044, 1, 1⟩
def SNS_MON_VALUE (n : Nat) : Fld := ⟨0x58000 + n * 0x1000 + 0x048, 16, 16⟩
def SNS_CNT_CHG (n : Nat) : Fld := ⟨0x58000 + n * 0x1000 + 0x04C, 16, 16⟩
def SNS_CNT_LOSS (n : Nat) : Fld := ⟨0x58000 + n * 0x1000 + 0x04C, 0, 16⟩
def CE_CTRL_COMMIT : Fld := ⟨0x10040, 1, 1⟩
def CE_CTRL_RUN : Fld := ⟨0x10040, 0, 1⟩
def CE_STAT_OVR_CNT : Fld := ⟨0x10044, 16, 16⟩
def CE_STAT_OVR_GRP : Fld := ⟨0x10044, 14, 2⟩
def CE_STAT_FAIL : Fld := ⟨0x10044, 11, 3⟩
def CE_STAT_PEER_MATCH : Fld := ⟨0x10044, 9, 1⟩
def CE_STAT_TABLE_OK : Fld := ⟨0x10044, 8, 1⟩
def CE_STAT_CE_SLOW_OK : Fld := ⟨0x10044, 7, 1⟩
def CE_STAT_HALF : Fld := ⟨0x10044, 6, 1⟩
def CE_STAT_TV_OK : Fld := ⟨0x10044, 1, 1⟩
def CE_STAT_RUNNING : Fld := ⟨0x10044, 0, 1⟩
def CE_RATE_FAST : Fld := ⟨0x10048, 8, 16⟩
def CE_RATE_N : Fld := ⟨0x10048, 0, 6⟩
def CE_LOOP_STAT_CLOSED : Fld := ⟨0x1004C, 1, 31⟩
def CE_LOOP_CLOSE_CLOSE : Fld := ⟨0x10050, 8, 24⟩
def CE_LOOP_OPEN_OPEN : Fld := ⟨0x10054, 8, 24⟩
def CE_CYC_FAST_MAX : Fld := ⟨0x10058, 16, 16⟩
def CE_CYC_FAST_LAST : Fld := ⟨0x10058, 0, 16⟩
def CE_CLR_NF : Fld := ⟨0x1005C, 2, 1⟩
def CE_CLR_OVR : Fld := ⟨0x1005C, 1, 1⟩
def CE_CLR_MAX : Fld := ⟨0x1005C, 0, 1⟩
def CE_NF_LAST_NF_CNT : Fld := ⟨0x10060, 16, 16⟩
def CE_NF_LAST_KIDX : Fld := ⟨0x10060, 0, 9⟩
def CE_SP_CFG_PIN_TO : Fld := ⟨0x11040, 24, 8⟩
def CE_SP_CFG_SP_TO : Fld := ⟨0x11040, 20, 4⟩
def CE_SP_CFG_SRC : Fld := ⟨0x11040, 0, 3⟩
def CE_SP_LO_SP_LO : Fld := ⟨0x11044, 0, 32⟩
def CE_SP_HI_SP_HI : Fld := ⟨0x11048, 0, 32⟩
def CE_SP_IN_IN_HI : Fld := ⟨0x1104C, 16, 16⟩
def CE_SP_IN_IN_LO : Fld := ⟨0x1104C, 0, 16⟩
def CE_SP_FLT_SP_FLT : Fld := ⟨0x11050, 0, 32⟩
def CE_SP_VAL_VAL : Fld := ⟨0x11054, 0, 32⟩
def CE_SP_STAT_RAW : Fld := ⟨0x11058, 16, 16⟩
def CE_SP_STAT_CLIP_CNT : Fld := ⟨0x11058, 8, 8⟩
def CE_SP_STAT_CLIP : Fld := ⟨0x11058, 4, 1⟩
def CE_SP_STAT_FAULT : Fld := ⟨0x11058, 3, 1⟩
def CE_SP_STAT_SRC_ACT : Fld := ⟨0x11058, 0, 3⟩
def TRC_SET_VLIM_N : Fld := ⟨0x20040, 16, 4⟩
def TRC_SET_DEC : Fld := ⟨0x20040, 6, 2⟩
def TRC_SET_UPD : Fld := ⟨0x20040, 3, 1⟩
def TRC_SET_GEOM : Fld := ⟨0x20040, 0, 2⟩
def TRC_PWM_FSW_ALT : Fld := ⟨0x20044, 16, 16⟩
def TRC_PWM_FSW : Fld := ⟨0x20044, 0, 16⟩
def TRC_PWM_SEL_ALT : Fld := ⟨0x20048, 0, 1⟩
def TRC_ILV_ANGLE : Fld := ⟨0x2004C, 0, 2⟩
def TRC_TMAX_TMAX : Fld := ⟨0x20050, 0, 32⟩
def TRC_COMP_MODE : Fld := ⟨0x20054, 1, 1⟩
def TRC_COMP_EN : Fld := ⟨0x20054, 0, 1⟩
def TRC_COMP_LSB_LSB : Fld := ⟨0x20058, 0, 32⟩
def TRC_COMP_IREF_IREF : Fld := ⟨0x2005C, 0, 32⟩
def TRC_STAT_PEER_MODE : Fld := ⟨0x21040, 28, 4⟩
def TRC_STAT_MMAX_CL : Fld := ⟨0x21040, 8, 1⟩
def TRC_STAT_ALT_ACT : Fld := ⟨0x21040, 7, 1⟩
def TRC_STAT_TLIM : Fld := ⟨0x21040, 6, 1⟩
def TRC_STAT_FW : Fld := ⟨0x21040, 5, 1⟩
def TRC_STAT_VLIM : Fld := ⟨0x21040, 4, 1⟩
def TRC_STAT_ILV_ACT : Fld := ⟨0x21040, 3, 1⟩
def TRC_STAT_ALIGNING : Fld := ⟨0x21040, 2, 1⟩
def TRC_STAT_DEC_MODEL : Fld := ⟨0x21040, 1, 1⟩
def TRC_STAT_DRAG_ON : Fld := ⟨0x21040, 0, 1⟩
def TRC_MISS_MISS_CNT : Fld := ⟨0x21044, 16, 16⟩
def TRC_MISS_CONSEC : Fld := ⟨0x21044, 0, 4⟩
def TRC_ID_ID : Fld := ⟨0x21048, 0, 32⟩
def TRC_IQ_IQ : Fld := ⟨0x2104C, 0, 32⟩
def TRC_VD_VD : Fld := ⟨0x21050, 0, 32⟩
def TRC_VQ_VQ : Fld := ⟨0x21054, 0, 32⟩
def TRC_TQ_TQ : Fld := ⟨0x21058, 0, 32⟩
def TRC_TREF_TREF : Fld := ⟨0x2105C, 0, 32⟩
def TRC_DRAG_DRAG : Fld := ⟨0x21060, 0, 32⟩
def TRC_MMAX_MMAX_HW : Fld := ⟨0x21064, 0, 32⟩
def TRC_CLR_MISS : Fld := ⟨0x21068, 0, 1⟩
def MON_SST_CFG_PSI : Fld := ⟨0xC1040, 16, 16⟩
def MON_SST_CFG_MARGIN : Fld := ⟨0xC1040, 8, 8⟩
def MON_SST_CFG_HYST : Fld := ⟨0xC1040, 0, 8⟩
def MON_SST_CFG2_UGEN : Fld := ⟨0xC1044, 16, 16⟩
def MON_SST_CFG2_TACH_PPR : Fld := ⟨0xC1044, 8, 8⟩
def MON_SST_CFG2_PP : Fld := ⟨0xC1044, 0, 6⟩
def MON_SST_STAT_SEL : Fld := ⟨0xC1048, 31, 1⟩
def MON_SST_STAT_SRC : Fld := ⟨0xC1048, 29, 2⟩
def MON_SST_STAT_UGEN_HIT : Fld := ⟨0xC1048, 28, 1⟩
def MON_SST_STAT_U_LOST : Fld := ⟨0xC1048, 27, 1⟩
def MON_SST_STAT_THR : Fld := ⟨0xC1048, 0, 16⟩
def MON_SST_SPD_SPD : Fld := ⟨0xC104C, 0, 16⟩
def MON_PG_DCL_PG_WIN : Fld := ⟨0xC1050, 24, 8⟩
def MON_PG_DCL_PG_DLY : Fld := ⟨0xC1050, 16, 8⟩
def MON_PG_DCL_PG_STATE : Fld := ⟨0xC1050, 1, 1⟩
def MON_PG_DCL_PG_EN : Fld := ⟨0xC1050, 0, 1⟩
def MON_PG_CHG_AFE_WIN : Fld := ⟨0xC1054, 24, 8⟩
def MON_PG_CHG_DAB_WIN : Fld := ⟨0xC1054, 16, 8⟩
def MON_PG_CHG_PG_DLY : Fld := ⟨0xC1054, 8, 8⟩
def MON_PG_CHG_DAB_STATE : Fld := ⟨0xC1054, 3, 1⟩
def MON_PG_CHG_AFE_STATE : Fld := ⟨0xC1054, 2, 1⟩
def MON_PG_CHG_DAB_EN : Fld := ⟨0xC1054, 1, 1⟩
def MON_PG_CHG_AFE_EN : Fld := ⟨0xC1054, 0, 1⟩
def MON_RED_CFG_RST_DLY : Fld := ⟨0xC1058, 8, 8⟩
def MON_RED_CFG_RETIRE_N : Fld := ⟨0xC1058, 2, 3⟩
def MON_RED_CFG_AUTO_RST : Fld := ⟨0xC1058, 0, 1⟩
def MON_RED_STAT_RST_CNT_B : Fld := ⟨0xC105C, 12, 4⟩
def MON_RED_STAT_RST_CNT_A : Fld := ⟨0xC105C, 8, 4⟩
def MON_RED_STAT_MOVING : Fld := ⟨0xC105C, 6, 1⟩
def MON_RED_STAT_TOKEN : Fld := ⟨0xC105C, 5, 1⟩
def MON_RED_STAT_ISOLATED : Fld := ⟨0xC105C, 4, 1⟩
def MON_RED_STAT_RETIRED_B : Fld := ⟨0xC105C, 3, 1⟩
def MON_RED_STAT_RETIRED_A : Fld := ⟨0xC105C, 2, 1⟩
def MON_RED_STAT_FAILED_B : Fld := ⟨0xC105C, 1, 1⟩
def MON_RED_STAT_FAILED_A : Fld := ⟨0xC105C, 0, 1⟩
def MON_RED_CTRL_UNRETIRE_B : Fld := ⟨0xC1060, 1, 1⟩
def MON_RED_CTRL_UNRETIRE_A : Fld := ⟨0xC1060, 0, 1⟩
def TRC_SM_CMD_CMD : Fld := ⟨0x22040, 0, 3⟩
def TRC_SM_CFG_RAMPIN : Fld := ⟨0x22044, 24, 8⟩
def TRC_SM_CFG_BLEND : Fld := ⟨0x22044, 16, 8⟩
def TRC_SM_CFG_POL_I : Fld := ⟨0x22044, 8, 8⟩
def TRC_SM_CFG_AUTO_RECATCH : Fld := ⟨0x22044, 0, 1⟩
def TRC_CATCH_CFG_CATCH_T : Fld := ⟨0x22048, 24, 8⟩
def TRC_CATCH_CFG_CATCH_MIN : Fld := ⟨0x22048, 16, 8⟩
def TRC_CATCH_CFG_E_MIN : Fld := ⟨0x22048, 8, 8⟩
def TRC_CATCH_CFG_GEN_I : Fld := ⟨0x22048, 0, 8⟩
def TRC_OBS_CFG_ORES_LIM : Fld := ⟨0x2204C, 24, 8⟩
def TRC_OBS_CFG_ORES_N : Fld := ⟨0x2204C, 20, 4⟩
def TRC_OBS_CFG_ACQ_MAX : Fld := ⟨0x2204C, 16, 4⟩
def TRC_OBS_CFG_ACQ_TOL : Fld := ⟨0x2204C, 8, 8⟩
def TRC_BRAKE_CFG_BRAKE_MIN : Fld := ⟨0x22050, 0, 32⟩
def TRC_STALL_CFG_STALL_F : Fld := ⟨0x22054, 24, 8⟩
def TRC_STALL_CFG_STALL_T : Fld := ⟨0x22054, 16, 8⟩
def TRC_STALL_CFG_STALL_PCT : Fld := ⟨0x22054, 8, 8⟩
def TRC_STALL_CFG_STALL_TQ : Fld := ⟨0x22054, 0, 8⟩
def TRC_SM_STAT_STATE : Fld := ⟨0x22058, 28, 4⟩
def TRC_SM_STAT_PREV : Fld := ⟨0x22058, 24, 4⟩
def TRC_SM_STAT_CAUSE : Fld := ⟨0x22058, 20, 4⟩
def TRC_SM_STAT_SS_SEL : Fld := ⟨0x22058, 19, 1⟩
def TRC_SM_STAT_BRAKE_MODE : Fld := ⟨0x22058, 18, 1⟩
def TRC_SM_STAT_STALL_DER : Fld := ⟨0x22058, 17, 1⟩
def TRC_SM_STAT_GEN_SEEN : Fld := ⟨0x22058, 16, 1⟩
def TRC_SM_STAT_RAMP : Fld := ⟨0x22058, 8, 8⟩
def TRC_CATCH_RES_ANGLE : Fld := ⟨0x2205C, 16, 16⟩
def TRC_CATCH_SPD_SPEED : Fld := ⟨0x22060, 0, 32⟩
def TRC_SM_CNT_LOSS : Fld := ⟨0x22064, 24, 8⟩
def TRC_SM_CNT_ACQ : Fld := ⟨0x22064, 16, 8⟩
def TRC_SM_CNT_ACQ_FAIL : Fld := ⟨0x22064, 8, 8⟩
def TRC_SM_CNT_CATCH : Fld := ⟨0x22064, 0, 8⟩
def GDH_CFG_UVP_SEL (n : Nat) : Fld := ⟨0x30000 + n * 0x1000 + 0x040, 6, 2⟩
def GDH_CFG_UVN_SEL (n : Nat) : Fld := ⟨0x30000 + n * 0x1000 + 0x040, 4, 2⟩
def GDH_CFG_SC_EN (n : Nat) : Fld := ⟨0x30000 + n * 0x1000 + 0x040, 3, 1⟩
def GDH_CFG_GOFF_TH (n : Nat) : Fld := ⟨0x30000 + n * 0x1000 + 0x040, 0, 3⟩
def GDH_SC_SOFT_T (n : Nat) : Fld := ⟨0x30000 + n * 0x1000 + 0x044, 10, 3⟩
def GDH_SC_SC_FILT (n : Nat) : Fld := ⟨0x30000 + n * 0x1000 + 0x044, 8, 2⟩
def GDH_SC_BLANK (n : Nat) : Fld := ⟨0x30000 + n * 0x1000 + 0x044, 4, 4⟩
def GDH_SCTH_SC_TH (n : Nat) : Fld := ⟨0x30000 + n * 0x1000 + 0x048, 0, 5⟩
def GDH_DT_DT_TO (n : Nat) : Fld := ⟨0x30000 + n * 0x1000 + 0x04C, 8, 6⟩
def GDH_DT_DT_MIN (n : Nat) : Fld := ⟨0x30000 + n * 0x1000 + 0x04C, 0, 8⟩
def GDH_OVS_OVS_HYS (n : Nat) : Fld := ⟨0x30000 + n * 0x1000 + 0x050, 8, 5⟩
def GDH_OVS_OVS_TH (n : Nat) : Fld := ⟨0x30000 + n * 0x1000 + 0x050, 0, 8⟩
def GDH_OT_OT_TH (n : Nat) : Fld := ⟨0x30000 + n * 0x1000 + 0x054, 0, 12⟩
def GDH_STAT_ASC_OVS (n : Nat) : Fld := ⟨0x30000 + n * 0x1000 + 0x058, 13, 1⟩
def GDH_STAT_OVS_ACT (n : Nat) : Fld := ⟨0x30000 + n * 0x1000 + 0x058, 12, 1⟩
def GDH_STAT_HOLD (n : Nat) : Fld := ⟨0x30000 + n * 0x1000 + 0x058, 11, 1⟩
def GDH_STAT_SS_MODE (n : Nat) : Fld := ⟨0x30000 + n * 0x1000 + 0x058, 10, 1⟩
def GDH_STAT_TOKEN_OK (n : Nat) : Fld := ⟨0x30000 + n * 0x1000 + 0x058, 9, 1⟩
def GDH_STAT_OWNER (n : Nat) : Fld := ⟨0x30000 + n * 0x1000 + 0x058, 8, 1⟩
def GDH_STAT_STRM_B (n : Nat) : Fld := ⟨0x30000 + n * 0x1000 + 0x058, 7, 1⟩
def GDH_STAT_STRM_A (n : Nat) : Fld := ⟨0x30000 + n * 0x1000 + 0x058, 6, 1⟩
def GDH_STAT_SC_LATCH (n : Nat) : Fld := ⟨0x30000 + n * 0x1000 + 0x058, 5, 1⟩
def GDH_STAT_SC_SELF (n : Nat) : Fld := ⟨0x30000 + n * 0x1000 + 0x058, 4, 1⟩
def GDH_STAT_GATE_OFF (n : Nat) : Fld := ⟨0x30000 + n * 0x1000 + 0x058, 3, 1⟩
def GDH_STAT_VN_OK (n : Nat) : Fld := ⟨0x30000 + n * 0x1000 + 0x058, 2, 1⟩
def GDH_STAT_VP_OK (n : Nat) : Fld := ⟨0x30000 + n * 0x1000 + 0x058, 1, 1⟩
def GDH_STAT_OUT_ON (n : Nat) : Fld := ⟨0x30000 + n * 0x1000 + 0x058, 0, 1⟩
def GDH_TMP_CODE (n : Nat) : Fld := ⟨0x30000 + n * 0x1000 + 0x05C, 0, 12⟩
def GDH_VSUP_VP (n : Nat) : Fld := ⟨0x30000 + n * 0x1000 + 0x060, 16, 16⟩
def GDH_VSUP_VN (n : Nat) : Fld := ⟨0x30000 + n * 0x1000 + 0x060, 0, 16⟩
def GDH_DT_STAT_EXT_MAX (n : Nat) : Fld := ⟨0x30000 + n * 0x1000 + 0x064, 16, 16⟩
def GDH_DT_STAT_EXT_LAST (n : Nat) : Fld := ⟨0x30000 + n * 0x1000 + 0x064, 0, 16⟩
def GDH_LEG_SHOOT (n : Nat) : Fld := ⟨0x30000 + n * 0x1000 + 0x068, 24, 8⟩
def GDH_LEG_DTTO (n : Nat) : Fld := ⟨0x30000 + n * 0x1000 + 0x068, 16, 8⟩
def GDH_LEG_LEG_FAULT (n : Nat) : Fld := ⟨0x30000 + n * 0x1000 + 0x068, 0, 2⟩
def GDH_CNT_SC (n : Nat) : Fld := ⟨0x30000 + n * 0x1000 + 0x06C, 24, 8⟩
def GDH_CNT_UVLO (n : Nat) : Fld := ⟨0x30000 + n * 0x1000 + 0x06C, 16, 8⟩
def GDH_CNT_STRM (n : Nat) : Fld := ⟨0x30000 + n * 0x1000 + 0x06C, 8, 8⟩
def GDH_CNT_OVS (n : Nat) : Fld := ⟨0x30000 + n * 0x1000 + 0x06C, 0, 8⟩
def GDH_CLR_SC (n : Nat) : Fld := ⟨0x30000 + n * 0x1000 + 0x070, 3, 1⟩
def GDH_CLR_LEG (n : Nat) : Fld := ⟨0x30000 + n * 0x1000 + 0x070, 2, 1⟩
def GDH_CLR_DT (n : Nat) : Fld := ⟨0x30000 + n * 0x1000 + 0x070, 1, 1⟩
def GDH_CLR_CNT (n : Nat) : Fld := ⟨0x30000 + n * 0x1000 + 0x070, 0, 1⟩
def GDH_TEST_SC_SELF (n : Nat) : Fld := ⟨0x30000 + n * 0x1000 + 0x074, 0, 1⟩
def GDH_TS_TS (n : Nat) : Fld := ⟨0x30000 + n * 0x1000 + 0x078, 0, 32⟩
def GDH_DIE_UID (n : Nat) : Fld := ⟨0x30000 + n * 0x1000 + 0x07C, 16, 16⟩
def GDH_DIE_REV (n : Nat) : Fld := ⟨0x30000 + n * 0x1000 + 0x07C, 0, 16⟩
def GDL_CFG_OC_TH (n : Nat) : Fld := ⟨0x60000 + n * 0x1000 + 0x040, 24, 8⟩
def GDL_CFG_DT_TO (n : Nat) : Fld := ⟨0x60000 + n * 0x1000 + 0x040, 16, 6⟩
def GDL_CFG_DT_MIN (n : Nat) : Fld := ⟨0x60000 + n * 0x1000 + 0x040, 8, 8⟩
def GDL_BOOT_BOOT_N (n : Nat) : Fld := ⟨0x60000 + n * 0x1000 + 0x044, 16, 4⟩
def GDL_BOOT_PRECHG (n : Nat) : Fld := ⟨0x60000 + n * 0x1000 + 0x044, 8, 8⟩
def GDL_BOOT_REFRESH_T (n : Nat) : Fld := ⟨0x60000 + n * 0x1000 + 0x044, 0, 6⟩
def GDL_STAT_VBOOT (n : Nat) : Fld := ⟨0x60000 + n * 0x1000 + 0x048, 16, 16⟩
def GDL_STAT_OC (n : Nat) : Fld := ⟨0x60000 + n * 0x1000 + 0x048, 6, 1⟩
def GDL_STAT_REFRESH (n : Nat) : Fld := ⟨0x60000 + n * 0x1000 + 0x048, 5, 1⟩
def GDL_STAT_TOKEN_OK (n : Nat) : Fld := ⟨0x60000 + n * 0x1000 + 0x048, 4, 1⟩
def GDL_STAT_OWNER (n : Nat) : Fld := ⟨0x60000 + n * 0x1000 + 0x048, 3, 1⟩
def GDL_STAT_GATE_OFF (n : Nat) : Fld := ⟨0x60000 + n * 0x1000 + 0x048, 2, 1⟩
def GDL_STAT_VGL_OK (n : Nat) : Fld := ⟨0x60000 + n * 0x1000 + 0x048, 1, 1⟩
def GDL_STAT_OUT_ON (n : Nat) : Fld := ⟨0x60000 + n * 0x1000 + 0x048, 0, 1⟩
def GDL_CNT_BOOT_UV (n : Nat) : Fld := ⟨0x60000 + n * 0x1000 + 0x04C, 24, 8⟩
def GDL_CNT_CLIP (n : Nat) : Fld := ⟨0x60000 + n * 0x1000 + 0x04C, 16, 8⟩
def GDL_CNT_SHOOT (n : Nat) : Fld := ⟨0x60000 + n * 0x1000 + 0x04C, 8, 8⟩
def GDL_CNT_LEG_FAULT (n : Nat) : Fld := ⟨0x60000 + n * 0x1000 + 0x04C, 2, 2⟩
def GDL_CNT_CLR_LEG (n : Nat) : Fld := ⟨0x60000 + n * 0x1000 + 0x04C, 1, 1⟩
def GDL_CNT_CLR_CNT (n : Nat) : Fld := ⟨0x60000 + n * 0x1000 + 0x04C, 0, 1⟩
def DCL_CTRL_SHED_EN : Fld := ⟨0x70040, 7, 1⟩
def DCL_CTRL_TRACK : Fld := ⟨0x70040, 4, 2⟩
def DCL_CTRL_REG : Fld := ⟨0x70040, 1, 1⟩
def DCL_CTRL_EN : Fld := ⟨0x70040, 0, 1⟩
def DCL_VREF_VREF : Fld := ⟨0x70044, 0, 32⟩
def DCL_SLEW_SLEW : Fld := ⟨0x70048, 0, 16⟩
def DCL_TRACK_RATIO : Fld := ⟨0x7004C, 16, 16⟩
def DCL_TRACK_VHEAD : Fld := ⟨0x7004C, 8, 8⟩
def DCL_TRACK_PRE_TOL : Fld := ⟨0x7004C, 0, 8⟩
def DCL_VLIM_VMAX : Fld := ⟨0x70050, 16, 16⟩
def DCL_VLIM_VMIN : Fld := ⟨0x70050, 0, 16⟩
def DCL_OV_OV : Fld := ⟨0x70054, 16, 16⟩
def DCL_OV_OV_HYS : Fld := ⟨0x70054, 8, 8⟩
def DCL_OV_OV_T : Fld := ⟨0x70054, 0, 8⟩
def DCL_ILIM_IPK : Fld := ⟨0x70058, 16, 16⟩
def DCL_ILIM_IPK_N : Fld := ⟨0x70058, 12, 4⟩
def DCL_OVL_IOVL : Fld := ⟨0x7005C, 20, 12⟩
def DCL_OVL_ICONT : Fld := ⟨0x7005C, 8, 12⟩
def DCL_OVL_TOVL : Fld := ⟨0x7005C, 0, 8⟩
def DCL_SHED_ADD_I : Fld := ⟨0x70060, 24, 8⟩
def DCL_SHED_SHED_I : Fld := ⟨0x70060, 16, 8⟩
def DCL_SHED_SHED_T : Fld := ⟨0x70060, 8, 8⟩
def DCL_SHED_VBAND : Fld := ⟨0x70060, 4, 4⟩
def DCL_SHED_MIN_M1 : Fld := ⟨0x70060, 0, 2⟩
def DCL_FSW_FSW : Fld := ⟨0x70064, 0, 16⟩
def DCL_DROOP_RDROOP : Fld := ⟨0x70068, 0, 32⟩
def DCL_STAT_STATE : Fld := ⟨0x7006C, 28, 4⟩
def DCL_STAT_ACT : Fld := ⟨0x7006C, 24, 4⟩
def DCL_STAT_STOPPED : Fld := ⟨0x7006C, 20, 4⟩
def DCL_STAT_SHEDDING : Fld := ⟨0x7006C, 19, 1⟩
def DCL_STAT_ILV_LOCAL : Fld := ⟨0x7006C, 18, 1⟩
def DCL_STAT_FLOOR : Fld := ⟨0x7006C, 17, 1⟩
def DCL_STAT_OVL_DER : Fld := ⟨0x7006C, 16, 1⟩
def DCL_STAT_SRC : Fld := ⟨0x7006C, 14, 2⟩
def DCL_STAT_OV : Fld := ⟨0x7006C, 13, 1⟩
def DCL_STAT_VBAT_FRZ : Fld := ⟨0x7006C, 12, 1⟩
def DCL_UDC_UDC : Fld := ⟨0x70070, 0, 32⟩
def DCL_VREF_ACT_VREF_ACT : Fld := ⟨0x70074, 0, 32⟩
def DCL_CNT_IPK : Fld := ⟨0x70078, 24, 8⟩
def DCL_CNT_SHED : Fld := ⟨0x70078, 16, 8⟩
def DCL_CNT_ABORT : Fld := ⟨0x70078, 8, 8⟩
def DCL_CNT_STOP : Fld := ⟨0x70078, 0, 8⟩
def DCL_CLR_CNT : Fld := ⟨0x7007C, 4, 1⟩
def DCL_CLR_PHASE : Fld := ⟨0x7007C, 0, 4⟩
def AFE_CFG_FSW : Fld := ⟨0x71040, 16, 16⟩
def AFE_CFG_FNOM : Fld := ⟨0x71040, 4, 2⟩
def AFE_CFG_PHASES : Fld := ⟨0x71040, 0, 2⟩
def AFE_VBUS_VBUS : Fld := ⟨0x71044, 16, 16⟩
def AFE_VBUS_VBUS_MIN : Fld := ⟨0x71044, 0, 16⟩
def AFE_ILIM_IPK : Fld := ⟨0x71048, 24, 8⟩
def AFE_ILIM_IMAX : Fld := ⟨0x71048, 16, 8⟩
def AFE_ILIM_IPK_N : Fld := ⟨0x71048, 12, 4⟩
def AFE_Q_Q : Fld := ⟨0x7104C, 0, 32⟩
def AFE_STAT_STATE : Fld := ⟨0x71050, 28, 4⟩
def AFE_STAT_LOCK : Fld := ⟨0x71050, 27, 1⟩
def AFE_STAT_ILIM : Fld := ⟨0x71050, 26, 1⟩
def AFE_STAT_HARM : Fld := ⟨0x71050, 25, 1⟩
def AFE_STAT_FREQ : Fld := ⟨0x71050, 0, 16⟩
def AFE_GRID1_V1 : Fld := ⟨0x71054, 16, 16⟩
def AFE_GRID1_V2 : Fld := ⟨0x71054, 0, 16⟩
def AFE_GRID2_V3 : Fld := ⟨0x71058, 16, 16⟩
def AFE_GRID2_THD : Fld := ⟨0x71058, 0, 16⟩
def AFE_CNT_IPK : Fld := ⟨0x7105C, 24, 8⟩
def AFE_CNT_DIP : Fld := ⟨0x7105C, 16, 8⟩
def AFE_CNT_CEASE : Fld := ⟨0x7105C, 8, 8⟩
def AFE_CNT_TRIP : Fld := ⟨0x7105C, 0, 8⟩
def AFE_CLR_CNT : Fld := ⟨0x71060, 0, 1⟩
def DAB_CFG_FSW : Fld := ⟨0x72040, 16, 16⟩
def DAB_ILIM_IPK : Fld := ⟨0x72044, 16, 16⟩
def DAB_ILIM_IPK_N : Fld := ⟨0x72044, 12, 4⟩
def DAB_STAT_STATE : Fld := ⟨0x72048, 28, 4⟩
def DAB_STAT_SAT : Fld := ⟨0x72048, 27, 1⟩
def DAB_STAT_DIR : Fld := ⟨0x72048, 26, 1⟩
def DAB_STAT_PHASE : Fld := ⟨0x72048, 0, 16⟩
def DAB_P_P : Fld := ⟨0x7204C, 0, 32⟩
def DAB_CNT_IPK : Fld := ⟨0x72050, 24, 8⟩
def DAB_CNT_SAT : Fld := ⟨0x72050, 16, 8⟩
def DAB_CLR_CNT : Fld := ⟨0x72054, 0, 1⟩
def CHG_CTRL_RAMP : Fld := ⟨0x73040, 8, 8⟩
def CHG_CTRL_MODE : Fld := ⟨0x73040, 4, 2⟩
def CHG_CTRL_EN : Fld := ⟨0x73040, 0, 1⟩
def CHG_IBAT_IBAT : Fld := ⟨0x73044, 0, 32⟩
def CHG_VBAT_VBAT : Fld := ⟨0x73048, 0, 32⟩
def CHG_VBMIN_VBMIN : Fld := ⟨0x7304C, 0, 32⟩
def CHG_PLIM_PMAX : Fld := ⟨0x73050, 20, 12⟩
def CHG_PLIM_ETA : Fld := ⟨0x73050, 12, 8⟩
def CHG_PLIM_ILIM_HOST : Fld := ⟨0x73050, 0, 8⟩
def CHG_GRID_FLO : Fld := ⟨0x73054, 24, 8⟩
def CHG_GRID_FHI : Fld := ⟨0x73054, 16, 8⟩
def CHG_GRID_ROCOF : Fld := ⟨0x73054, 8, 8⟩
def CHG_GRID_VS_LIM : Fld := ⟨0x73054, 0, 8⟩
def CHG_GRID2_RESTART_T : Fld := ⟨0x73058, 16, 16⟩
def CHG_GRID2_AFD_EN : Fld := ⟨0x73058, 1, 1⟩
def CHG_GRID2_V2G_EN : Fld := ⟨0x73058, 0, 1⟩
def CHG_V2L_VOUT : Fld := ⟨0x7305C, 16, 16⟩
def CHG_V2L_IOUT : Fld := ⟨0x7305C, 8, 8⟩
def CHG_V2L_FOUT : Fld := ⟨0x7305C, 0, 1⟩
def CHG_STAT_STATE : Fld := ⟨0x73060, 28, 4⟩
def CHG_STAT_CP : Fld := ⟨0x73060, 25, 3⟩
def CHG_STAT_PP : Fld := ⟨0x73060, 22, 3⟩
def CHG_STAT_CONN : Fld := ⟨0x73060, 21, 1⟩
def CHG_STAT_S2 : Fld := ⟨0x73060, 20, 1⟩
def CHG_STAT_K3FB : Fld := ⟨0x73060, 19, 1⟩
def CHG_STAT_K4FB : Fld := ⟨0x73060, 18, 1⟩
def CHG_STAT_PLIM : Fld := ⟨0x73060, 17, 1⟩
def CHG_STAT_DIGITAL : Fld := ⟨0x73060, 16, 1⟩
def CHG_STAT_DUTY : Fld := ⟨0x73060, 0, 16⟩
def CHG_ILIM_IPILOT : Fld := ⟨0x73064, 16, 16⟩
def CHG_ILIM_IEFF : Fld := ⟨0x73064, 0, 16⟩
def CHG_CAUSE_STOP : Fld := ⟨0x73068, 28, 4⟩
def CHG_CAUSE_TRIP : Fld := ⟨0x73068, 24, 4⟩
def CHG_PBAT_PBAT : Fld := ⟨0x7306C, 0, 32⟩
def CHG_CNT_SESS : Fld := ⟨0x73070, 16, 16⟩
def CHG_CNT_STOPS : Fld := ⟨0x73070, 8, 8⟩
def CHG_CNT_KFB : Fld := ⟨0x73070, 0, 8⟩
def CHG_CLR_FAULT : Fld := ⟨0x73074, 1, 1⟩
def CHG_CLR_CNT : Fld := ⟨0x73074, 0, 1⟩
def ACT_CFG_LR_T (i : Nat) : Fld := ⟨0x74040 + i * 64, 24, 8⟩
def ACT_CFG_LR_I (i : Nat) : Fld := ⟨0x74040 + i * 64, 16, 8⟩
def ACT_CFG_ILIM (i : Nat) : Fld := ⟨0x74040 + i * 64, 8, 8⟩
def ACT_CFG_SECT_OFS (i : Nat) : Fld := ⟨0x74040 + i * 64, 5, 3⟩
def ACT_CFG_SEQ (i : Nat) : Fld := ⟨0x74040 + i * 64, 4, 1⟩
def ACT_CFG_HALL_N (i : Nat) : Fld := ⟨0x74040 + i * 64, 0, 4⟩
def ACT_SHUNT_GAIN (i : Nat) : Fld := ⟨0x74044 + i * 64, 0, 32⟩
def ACT_PWM_FSW (i : Nat) : Fld := ⟨0x74048 + i * 64, 16, 16⟩
def ACT_LEARN_LEARN_DUTY (i : Nat) : Fld := ⟨0x7404C + i * 64, 24, 8⟩
def ACT_LEARN_LEARN_I (i : Nat) : Fld := ⟨0x7404C + i * 64, 16, 8⟩
def ACT_TRAVEL_TRAVEL_MAX (i : Nat) : Fld := ⟨0x74050 + i * 64, 16, 16⟩
def ACT_TRAVEL_TRAVEL_MIN (i : Nat) : Fld := ⟨0x74050 + i * 64, 0, 16⟩
def ACT_END_TRAVEL (i : Nat) : Fld := ⟨0x74054 + i * 64, 0, 16⟩
def ACT_MOVE_MOVE_T (i : Nat) : Fld := ⟨0x74058 + i * 64, 24, 8⟩
def ACT_MOVE_POS_WIN (i : Nat) : Fld := ⟨0x74058 + i * 64, 16, 8⟩
def ACT_MOVE_END_WIN (i : Nat) : Fld := ⟨0x74058 + i * 64, 8, 8⟩
def ACT_MOVE_HOLD_T (i : Nat) : Fld := ⟨0x74058 + i * 64, 0, 8⟩
def ACT_TGT_TARGET (i : Nat) : Fld := ⟨0x7405C + i * 64, 0, 16⟩
def ACT_CMD_CMD (i : Nat) : Fld := ⟨0x74060 + i * 64, 0, 3⟩
def ACT_STAT_STATE (i : Nat) : Fld := ⟨0x74064 + i * 64, 28, 4⟩
def ACT_STAT_SECTOR (i : Nat) : Fld := ⟨0x74064 + i * 64, 25, 3⟩
def ACT_STAT_REF (i : Nat) : Fld := ⟨0x74064 + i * 64, 24, 1⟩
def ACT_STAT_FLIM (i : Nat) : Fld := ⟨0x74064 + i * 64, 23, 1⟩
def ACT_STAT_LOCKED (i : Nat) : Fld := ⟨0x74064 + i * 64, 22, 1⟩
def ACT_STAT_DONE (i : Nat) : Fld := ⟨0x74064 + i * 64, 21, 1⟩
def ACT_STAT_VLV_OK (i : Nat) : Fld := ⟨0x74064 + i * 64, 20, 1⟩
def ACT_STAT_CAUSE (i : Nat) : Fld := ⟨0x74064 + i * 64, 16, 4⟩
def ACT_POS_POS (i : Nat) : Fld := ⟨0x74068 + i * 64, 0, 32⟩
def ACT_I_I (i : Nat) : Fld := ⟨0x7406C + i * 64, 0, 32⟩
def ACT_CNT_LOCK (i : Nat) : Fld := ⟨0x74070 + i * 64, 24, 8⟩
def ACT_CNT_HALL (i : Nat) : Fld := ⟨0x74070 + i * 64, 16, 8⟩
def ACT_CNT_TMO (i : Nat) : Fld := ⟨0x74070 + i * 64, 8, 8⟩
def ACT_CNT_FLT (i : Nat) : Fld := ⟨0x74070 + i * 64, 0, 8⟩
def ACT_CLR_CNT (i : Nat) : Fld := ⟨0x74074 + i * 64, 0, 1⟩
def ACT_VLV_VLV : Fld := ⟨0x740C0, 16, 16⟩
def ACT_VLV_VLV_LO : Fld := ⟨0x740C0, 8, 8⟩
def ACT_VLV_VLV_HI : Fld := ⟨0x740C0, 0, 8⟩
def RED_CTRL_SPLIT_CMD : Fld := ⟨0x80040, 6, 2⟩
def RED_CTRL_REJOIN : Fld := ⟨0x80040, 3, 1⟩
def RED_CTRL_TOKEN_MOVE : Fld := ⟨0x80040, 2, 1⟩
def RED_CTRL_RETEST : Fld := ⟨0x80040, 0, 1⟩
def RED_CFG_RETURN_EN : Fld := ⟨0x80044, 31, 1⟩
def RED_CFG_STBY_BR : Fld := ⟨0x80044, 30, 1⟩
def RED_CFG_RET_T : Fld := ⟨0x80044, 16, 12⟩
def RED_CFG_SPLIT_TOL : Fld := ⟨0x80044, 0, 16⟩
def RED_SHARE_SHARE_A : Fld := ⟨0x80048, 0, 32⟩
def RED_SHARE_RATE_RATE : Fld := ⟨0x8004C, 0, 16⟩
def RED_SUBJ_DIV_LIM : Fld := ⟨0x80050, 8, 8⟩
def RED_SUBJ_DIV_N : Fld := ⟨0x80050, 4, 4⟩
def RED_COPY_COPY_AGE : Fld := ⟨0x80054, 0, 8⟩
def RED_STAT_SELF : Fld := ⟨0x80058, 29, 3⟩
def RED_STAT_PEER : Fld := ⟨0x80058, 26, 3⟩
def RED_STAT_TOKEN_PUB : Fld := ⟨0x80058, 25, 1⟩
def RED_STAT_SPLIT : Fld := ⟨0x80058, 24, 1⟩
def RED_STAT_ISLAND_MODE : Fld := ⟨0x80058, 23, 1⟩
def RED_STAT_CONJ_OK : Fld := ⟨0x80058, 22, 1⟩
def RED_STAT_MON_OK : Fld := ⟨0x80058, 21, 1⟩
def RED_STAT_SUBJ_OK : Fld := ⟨0x80058, 20, 1⟩
def RED_STAT_RETURNING : Fld := ⟨0x80058, 19, 1⟩
def RED_STAT_HANDOVER : Fld := ⟨0x80058, 18, 1⟩
def RED_STAT_MON_SS : Fld := ⟨0x80058, 17, 1⟩
def RED_STAT_HELD : Fld := ⟨0x80058, 16, 1⟩
def RED_STAT_SELF_CAUSE : Fld := ⟨0x80058, 12, 4⟩
def RED_STAT_PEER_CAUSE : Fld := ⟨0x80058, 8, 4⟩
def RED_HEALTH_CLOCK : Fld := ⟨0x8005C, 9, 1⟩
def RED_HEALTH_FABRIC : Fld := ⟨0x8005C, 8, 1⟩
def RED_HEALTH_SCRUB : Fld := ⟨0x8005C, 7, 1⟩
def RED_HEALTH_ECC : Fld := ⟨0x8005C, 6, 1⟩
def RED_HEALTH_ADC_REF : Fld := ⟨0x8005C, 5, 1⟩
def RED_HEALTH_CE_OVR : Fld := ⟨0x8005C, 4, 1⟩
def RED_HEALTH_CE_TV : Fld := ⟨0x8005C, 3, 1⟩
def RED_HEALTH_LOCKSTEP : Fld := ⟨0x8005C, 2, 1⟩
def RED_HEALTH_IMAGE : Fld := ⟨0x8005C, 1, 1⟩
def RED_HEALTH_ALL : Fld := ⟨0x8005C, 0, 1⟩
def RED_SHARE_ACT_SHARE : Fld := ⟨0x80060, 0, 32⟩
def RED_SEQ01_SESS1 : Fld := ⟨0x80064, 16, 16⟩
def RED_SEQ01_SESS0 : Fld := ⟨0x80064, 0, 16⟩
def RED_SEQ23_SESS3 : Fld := ⟨0x80068, 16, 16⟩
def RED_SEQ23_SESS2 : Fld := ⟨0x80068, 0, 16⟩
def RED_JRNL_FULL_CNT : Fld := ⟨0x8006C, 16, 16⟩
def RED_JRNL_FILL : Fld := ⟨0x8006C, 0, 11⟩
def RED_FO_FO_CNT : Fld := ⟨0x80070, 24, 8⟩
def RED_FO_LAST_CAUSE : Fld := ⟨0x80070, 20, 4⟩
def RED_FO_LAST_DET : Fld := ⟨0x80070, 0, 16⟩
def RED_FO_TS_LO_TS : Fld := ⟨0x80074, 0, 32⟩
def RED_FO_TS_HI_TS : Fld := ⟨0x80078, 0, 32⟩
def RED_TOK_TS_LO_TS : Fld := ⟨0x8007C, 0, 32⟩
def RED_TOK_TS_HI_TS : Fld := ⟨0x80080, 0, 32⟩
def RED_SPLIT_LEFT_LEFT : Fld := ⟨0x80084, 0, 16⟩
def RED_CLR_JRNL : Fld := ⟨0x80088, 1, 1⟩
def RED_CLR_FO : Fld := ⟨0x80088, 0, 1⟩
def CONJ_CFG_CRC_LIM : Fld := ⟨0x81040, 0, 8⟩
def CONJ_STAT_TRAINED : Fld := ⟨0x81044, 5, 1⟩
def CONJ_STAT_LINK_UP : Fld := ⟨0x81044, 4, 1⟩
def CONJ_STAT_HB_DIRECT : Fld := ⟨0x81044, 3, 1⟩
def CONJ_STAT_HB_RELAY : Fld := ⟨0x81044, 2, 1⟩
def CONJ_STAT_TIME_LOCK : Fld := ⟨0x81044, 1, 1⟩
def CONJ_STAT_COPY_VALID : Fld := ⟨0x81044, 0, 1⟩
def CONJ_CNT_CRC : Fld := ⟨0x81048, 24, 8⟩
def CONJ_CNT_HB_MISS : Fld := ⟨0x81048, 16, 8⟩
def CONJ_CNT_RETRAIN : Fld := ⟨0x81048, 8, 8⟩
def CONJ_CNT_COPY_INV : Fld := ⟨0x81048, 0, 8⟩
def CONJ_AGE_COPY_SEQ : Fld := ⟨0x8104C, 16, 16⟩
def CONJ_AGE_AGE : Fld := ⟨0x8104C, 0, 8⟩
def CONJ_TOFS_TIME_OFS : Fld := ⟨0x81050, 16, 16⟩
def CONJ_TOFS_PWM_OFS : Fld := ⟨0x81050, 0, 16⟩
def CONJ_CLR_CNT : Fld := ⟨0x81054, 0, 1⟩
def SAF_CFG_CLS_REQ : Fld := ⟨0x90040, 31, 1⟩
def SAF_CFG_DIV_REQ : Fld := ⟨0x90040, 30, 1⟩
def SAF_CFG_NO_CHG : Fld := ⟨0x90040, 29, 1⟩
def SAF_CFG_DISC_T : Fld := ⟨0x90040, 16, 8⟩
def SAF_CFG_SS1_RAMP : Fld := ⟨0x90040, 8, 8⟩
def SAF_CFG_SS1_T : Fld := ⟨0x90040, 0, 8⟩
def SAF_SLS01_LIM1 : Fld := ⟨0x90044, 16, 16⟩
def SAF_SLS01_LIM0 : Fld := ⟨0x90044, 0, 16⟩
def SAF_SLS23_LIM3 : Fld := ⟨0x90048, 16, 16⟩
def SAF_SLS23_LIM2 : Fld := ⟨0x90048, 0, 16⟩
def SAF_SPD_SDI_TOL : Fld := ⟨0x9004C, 24, 8⟩
def SAF_SPD_SPD_TOL : Fld := ⟨0x9004C, 16, 8⟩
def SAF_SPD_SPD_N : Fld := ⟨0x9004C, 12, 4⟩
def SAF_SLP_LO_LO : Fld := ⟨0x90050, 0, 32⟩
def SAF_SLP_HI_HI : Fld := ⟨0x90054, 0, 32⟩
def SAF_SLP_DEC_DEC : Fld := ⟨0x90058, 0, 32⟩
def SAF_TQM_TSTAT : Fld := ⟨0x9005C, 16, 16⟩
def SAF_TQM_FILT : Fld := ⟨0x9005C, 0, 5⟩
def SAF_TQM2_TSET : Fld := ⟨0x90060, 16, 16⟩
def SAF_MACH_DL : Fld := ⟨0x90064, 16, 16⟩
def SAF_MACH_DM : Fld := ⟨0x90064, 0, 16⟩
def SAF_MI_GAIN : Fld := ⟨0x90068, 0, 32⟩
def SAF_K_CFG_TEST_EN : Fld := ⟨0x9006C, 26, 6⟩
def SAF_K_CFG_K5_USE : Fld := ⟨0x9006C, 25, 1⟩
def SAF_K_CFG_K_TI : Fld := ⟨0x9006C, 16, 8⟩
def SAF_K_CFG_K_OFF : Fld := ⟨0x9006C, 8, 8⟩
def SAF_K_CFG_K_ON : Fld := ⟨0x9006C, 4, 4⟩
def SAF_K_DEM_FB : Fld := ⟨0x90070, 24, 6⟩
def SAF_K_DEM_OUT : Fld := ⟨0x90070, 16, 6⟩
def SAF_K_DEM_EFF : Fld := ⟨0x90070, 8, 6⟩
def SAF_K_DEM_REQ : Fld := ⟨0x90070, 0, 6⟩
def SAF_CTRL_STO : Fld := ⟨0x90074, 2, 1⟩
def SAF_CTRL_SS1 : Fld := ⟨0x90074, 1, 1⟩
def SAF_CTRL_ACK : Fld := ⟨0x90074, 0, 1⟩
def SAF_STAT_STATE : Fld := ⟨0x90078, 29, 3⟩
def SAF_STAT_STO1 : Fld := ⟨0x90078, 28, 1⟩
def SAF_STAT_STO2 : Fld := ⟨0x90078, 27, 1⟩
def SAF_STAT_DISC : Fld := ⟨0x90078, 26, 1⟩
def SAF_STAT_SLS_ACT : Fld := ⟨0x90078, 25, 1⟩
def SAF_STAT_SLS_SEL : Fld := ⟨0x90078, 23, 2⟩
def SAF_STAT_SDI_POS : Fld := ⟨0x90078, 22, 1⟩
def SAF_STAT_SDI_NEG : Fld := ⟨0x90078, 21, 1⟩
def SAF_STAT_SLP_ACT : Fld := ⟨0x90078, 20, 1⟩
def SAF_STAT_INTERLOCK : Fld := ⟨0x90078, 19, 1⟩
def SAF_STAT_DIVERSE : Fld := ⟨0x90078, 18, 1⟩
def SAF_STAT_CFG_LOCKED : Fld := ⟨0x90078, 17, 1⟩
def SAF_STAT_CLS_PERMIT : Fld := ⟨0x90078, 16, 1⟩
def SAF_STAT_CAUSE : Fld := ⟨0x90078, 12, 4⟩
def SAF_STAT_K_FAULT : Fld := ⟨0x90078, 6, 6⟩
def SAF_SPD_ACT_SPD : Fld := ⟨0x9007C, 0, 32⟩
def SAF_POS_POS : Fld := ⟨0x90080, 0, 32⟩
def SAF_TQB_TQB : Fld := ⟨0x90084, 0, 32⟩
def SAF_CFG_CRC_CRC : Fld := ⟨0x90088, 0, 32⟩
def CLS_CFG_CRC_LIM : Fld := ⟨0x91040, 24, 8⟩
def CLS_ID_IDENT (i : Nat) : Fld := ⟨0x91100 + i * 32, 0, 32⟩
def CLS_CFG_EN (i : Nat) : Fld := ⟨0x91104 + i * 32, 31, 1⟩
def CLS_CFG_DIR (i : Nat) : Fld := ⟨0x91104 + i * 32, 30, 1⟩
def CLS_CFG_LANE (i : Nat) : Fld := ⟨0x91104 + i * 32, 29, 1⟩
def CLS_CFG_CAR (i : Nat) : Fld := ⟨0x91104 + i * 32, 28, 1⟩
def CLS_CFG_CANC (i : Nat) : Fld := ⟨0x91104 + i * 32, 27, 1⟩
def CLS_CFG_LEN_M4 (i : Nat) : Fld := ⟨0x91104 + i * 32, 21, 6⟩
def CLS_CFG_SID (i : Nat) : Fld := ⟨0x91104 + i * 32, 13, 8⟩
def CLS_CFG_SEQ_WIN (i : Nat) : Fld := ⟨0x91104 + i * 32, 9, 4⟩
def CLS_CFG_GRACE (i : Nat) : Fld := ⟨0x91104 + i * 32, 5, 4⟩
def CLS_LOC_IDE (i : Nat) : Fld := ⟨0x91108 + i * 32, 31, 1⟩
def CLS_LOC_LOC (i : Nat) : Fld := ⟨0x91108 + i * 32, 0, 29⟩
def CLS_WD_WD_MAX (i : Nat) : Fld := ⟨0x9110C + i * 32, 16, 16⟩
def CLS_STAT_SEQ (i : Nat) : Fld := ⟨0x91110 + i * 32, 16, 16⟩
def CLS_STAT_CRC (i : Nat) : Fld := ⟨0x91110 + i * 32, 8, 8⟩
def CLS_STAT_STATE (i : Nat) : Fld := ⟨0x91110 + i * 32, 4, 4⟩
def CLS_CNT_REPEAT (i : Nat) : Fld := ⟨0x91114 + i * 32, 24, 8⟩
def CLS_CNT_SEQERR (i : Nat) : Fld := ⟨0x91114 + i * 32, 16, 8⟩
def CLS_CNT_SIDERR (i : Nat) : Fld := ⟨0x91114 + i * 32, 8, 8⟩
def CLS_CNT_EXPIRE (i : Nat) : Fld := ⟨0x91114 + i * 32, 0, 8⟩
def RING_CFG_IN_W : Fld := ⟨0xA0040, 24, 7⟩
def RING_CFG_OUT_W : Fld := ⟨0xA0040, 16, 7⟩
def RING_CFG_MAP_ID : Fld := ⟨0xA0040, 8, 8⟩
def RING_CFG_ORPH_N : Fld := ⟨0xA0040, 0, 4⟩
def RING_LINK_LINK_ERR : Fld := ⟨0xA0044, 16, 8⟩
def RING_OUTMAP_EN0 (i : Nat) : Fld := ⟨0xA0048 + i * 4, 7, 1⟩
def RING_OUTMAP_EN1 (i : Nat) : Fld := ⟨0xA0048 + i * 4, 15, 1⟩
def RING_OUTMAP_EN2 (i : Nat) : Fld := ⟨0xA0048 + i * 4, 23, 1⟩
def RING_OUTMAP_EN3 (i : Nat) : Fld := ⟨0xA0048 + i * 4, 31, 1⟩
def RING_OUTMAP_WORD0 (i : Nat) : Fld := ⟨0xA0048 + i * 4, 0, 6⟩
def RING_OUTMAP_WORD1 (i : Nat) : Fld := ⟨0xA0048 + i * 4, 8, 6⟩
def RING_OUTMAP_WORD2 (i : Nat) : Fld := ⟨0xA0048 + i * 4, 16, 6⟩
def RING_OUTMAP_WORD3 (i : Nat) : Fld := ⟨0xA0048 + i * 4, 24, 6⟩
def RING_STAT_ORPHAN : Fld := ⟨0xA0058, 31, 1⟩
def RING_STAT_TIME_OK : Fld := ⟨0xA0058, 30, 1⟩
def RING_STAT_PORT_CUT : Fld := ⟨0xA0058, 29, 1⟩
def RING_STAT_INNER_CUT : Fld := ⟨0xA0058, 28, 1⟩
def RING_STAT_HOME_OK : Fld := ⟨0xA0058, 27, 1⟩
def RING_STAT_OTHER_OK : Fld := ⟨0xA0058, 26, 1⟩
def RING_STAT_REDIR : Fld := ⟨0xA0058, 25, 1⟩
def RING_STAT_DEV_DUP : Fld := ⟨0xA0058, 24, 1⟩
def RING_STAT_MAP_TRUNC : Fld := ⟨0xA0058, 23, 1⟩
def RING_STAT_PERIOD_K : Fld := ⟨0xA0058, 8, 8⟩
def RING_DLY_LINK_DLY : Fld := ⟨0xA005C, 16, 16⟩
def RING_CYC_CYCNUM : Fld := ⟨0xA0060, 0, 32⟩
def RING_TERR_TERR : Fld := ⟨0xA0064, 0, 32⟩
def RING_CNT_CRC : Fld := ⟨0xA0068, 24, 8⟩
def RING_CNT_LEN_DROP : Fld := ⟨0xA0068, 16, 8⟩
def RING_CNT_CUT : Fld := ⟨0xA0068, 8, 8⟩
def RING_CNT_CUT_DROP : Fld := ⟨0xA0068, 0, 8⟩
def RING_CNT2_BUSY : Fld := ⟨0xA006C, 24, 8⟩
def RING_CNT2_RXQ_DROP : Fld := ⟨0xA006C, 16, 8⟩
def RING_CNT2_UNK : Fld := ⟨0xA006C, 8, 8⟩
def RING_CNT2_EVT_COAL : Fld := ⟨0xA006C, 0, 8⟩
def RING_CLR_CNT : Fld := ⟨0xA0070, 0, 1⟩
def RING_INMAP_EN (i : Nat) : Fld := ⟨0xA0100 + i * 4, 31, 1⟩
def RING_INMAP_LOCAL (i : Nat) : Fld := ⟨0xA0100 + i * 4, 0, 14⟩
def BULK_CFG_SLOT : Fld := ⟨0xA1040, 0, 2⟩
def BULK_STAT_DONE_CNT : Fld := ⟨0xA1044, 16, 8⟩
def BULK_STAT_REJ_CNT : Fld := ⟨0xA1044, 8, 8⟩
def BULK_STAT_IMG_BUSY : Fld := ⟨0xA1044, 7, 1⟩
def BULK_STAT_OWNED : Fld := ⟨0xA1044, 0, 7⟩
def BULK_CLR_CNT : Fld := ⟨0xA1048, 0, 1⟩
def BULK_DESC0_OWN (i : Nat) : Fld := ⟨0xA1200 + i * 8, 31, 1⟩
def BULK_DESC0_CMD (i : Nat) : Fld := ⟨0xA1200 + i * 8, 27, 4⟩
def BULK_DESC0_SLOT (i : Nat) : Fld := ⟨0xA1200 + i * 8, 20, 6⟩
def BULK_DESC0_LEN (i : Nat) : Fld := ⟨0xA1200 + i * 8, 0, 16⟩
def BULK_DESC1_STATUS (i : Nat) : Fld := ⟨0xA1204 + i * 8, 24, 8⟩
def BULK_DESC1_ARG (i : Nat) : Fld := ⟨0xA1204 + i * 8, 0, 24⟩
def CAN_CTRL_RETRY (c : Nat) : Fld := ⟨0xB0000 + c * 0x1000 + 0x040, 28, 4⟩
def CAN_CTRL_AUTO_REC (c : Nat) : Fld := ⟨0xB0000 + c * 0x1000 + 0x040, 8, 1⟩
def CAN_CTRL_ONESHOT (c : Nat) : Fld := ⟨0xB0000 + c * 0x1000 + 0x040, 7, 1⟩
def CAN_CTRL_PXHD (c : Nat) : Fld := ⟨0xB0000 + c * 0x1000 + 0x040, 6, 1⟩
def CAN_CTRL_BRSE (c : Nat) : Fld := ⟨0xB0000 + c * 0x1000 + 0x040, 5, 1⟩
def CAN_CTRL_FDE (c : Nat) : Fld := ⟨0xB0000 + c * 0x1000 + 0x040, 4, 1⟩
def CAN_CTRL_MODE (c : Nat) : Fld := ⟨0xB0000 + c * 0x1000 + 0x040, 2, 2⟩
def CAN_CTRL_REC_REQ (c : Nat) : Fld := ⟨0xB0000 + c * 0x1000 + 0x040, 1, 1⟩
def CAN_CTRL_INIT (c : Nat) : Fld := ⟨0xB0000 + c * 0x1000 + 0x040, 0, 1⟩
def CAN_NBT_NBRP_M1 (c : Nat) : Fld := ⟨0xB0000 + c * 0x1000 + 0x044, 24, 8⟩
def CAN_NBT_NTSEG1_M1 (c : Nat) : Fld := ⟨0xB0000 + c * 0x1000 + 0x044, 16, 8⟩
def CAN_NBT_NTSEG2_M1 (c : Nat) : Fld := ⟨0xB0000 + c * 0x1000 + 0x044, 8, 7⟩
def CAN_NBT_NSJW_M1 (c : Nat) : Fld := ⟨0xB0000 + c * 0x1000 + 0x044, 0, 7⟩
def CAN_DBT_TDC_EN (c : Nat) : Fld := ⟨0xB0000 + c * 0x1000 + 0x048, 31, 1⟩
def CAN_DBT_TDCO (c : Nat) : Fld := ⟨0xB0000 + c * 0x1000 + 0x048, 24, 7⟩
def CAN_DBT_DBRP_M1 (c : Nat) : Fld := ⟨0xB0000 + c * 0x1000 + 0x048, 16, 5⟩
def CAN_DBT_DTSEG1_M1 (c : Nat) : Fld := ⟨0xB0000 + c * 0x1000 + 0x048, 8, 5⟩
def CAN_DBT_DTSEG2_M1 (c : Nat) : Fld := ⟨0xB0000 + c * 0x1000 + 0x048, 4, 4⟩
def CAN_DBT_DSJW_M1 (c : Nat) : Fld := ⟨0xB0000 + c * 0x1000 + 0x048, 0, 4⟩
def CAN_STAT_STATE (c : Nat) : Fld := ⟨0xB0000 + c * 0x1000 + 0x04C, 30, 2⟩
def CAN_STAT_WARN (c : Nat) : Fld := ⟨0xB0000 + c * 0x1000 + 0x04C, 29, 1⟩
def CAN_STAT_RP (c : Nat) : Fld := ⟨0xB0000 + c * 0x1000 + 0x04C, 28, 1⟩
def CAN_STAT_TEC (c : Nat) : Fld := ⟨0xB0000 + c * 0x1000 + 0x04C, 16, 8⟩
def CAN_STAT_REC (c : Nat) : Fld := ⟨0xB0000 + c * 0x1000 + 0x04C, 8, 7⟩
def CAN_STAT_LEC (c : Nat) : Fld := ⟨0xB0000 + c * 0x1000 + 0x04C, 3, 3⟩
def CAN_STAT_DLEC (c : Nat) : Fld := ⟨0xB0000 + c * 0x1000 + 0x04C, 0, 3⟩
def CAN_TXQ_SLOT_PEND (c : Nat) : Fld := ⟨0xB0000 + c * 0x1000 + 0x050, 16, 4⟩
def CAN_TXQ_TXC_FILL (c : Nat) : Fld := ⟨0xB0000 + c * 0x1000 + 0x050, 8, 6⟩
def CAN_TXQ_FILL (c : Nat) : Fld := ⟨0xB0000 + c * 0x1000 + 0x050, 0, 6⟩
def CAN_RXQ_OVF_CNT (c : Nat) : Fld := ⟨0xB0000 + c * 0x1000 + 0x054, 24, 8⟩
def CAN_RXQ_WM (c : Nat) : Fld := ⟨0xB0000 + c * 0x1000 + 0x054, 8, 8⟩
def CAN_RXQ_FILL (c : Nat) : Fld := ⟨0xB0000 + c * 0x1000 + 0x054, 0, 7⟩
def CAN_CNT_TXOK (c : Nat) : Fld := ⟨0xB0000 + c * 0x1000 + 0x058, 24, 8⟩
def CAN_CNT_TXFAIL (c : Nat) : Fld := ⟨0xB0000 + c * 0x1000 + 0x058, 16, 8⟩
def CAN_CNT_NOACK (c : Nat) : Fld := ⟨0xB0000 + c * 0x1000 + 0x058, 8, 8⟩
def CAN_CNT_BUSOFF (c : Nat) : Fld := ⟨0xB0000 + c * 0x1000 + 0x058, 0, 8⟩
def CAN_CLR_OVF (c : Nat) : Fld := ⟨0xB0000 + c * 0x1000 + 0x05C, 1, 1⟩
def CAN_CLR_CNT (c : Nat) : Fld := ⟨0xB0000 + c * 0x1000 + 0x05C, 0, 1⟩
def CAN_TX_ID_IDE (c : Nat) : Fld := ⟨0xB0000 + c * 0x1000 + 0x060, 31, 1⟩
def CAN_TX_ID_ID (c : Nat) : Fld := ⟨0xB0000 + c * 0x1000 + 0x060, 0, 29⟩
def CAN_TX_HDR_TAG (c : Nat) : Fld := ⟨0xB0000 + c * 0x1000 + 0x064, 24, 8⟩
def CAN_TX_HDR_FDF (c : Nat) : Fld := ⟨0xB0000 + c * 0x1000 + 0x064, 7, 1⟩
def CAN_TX_HDR_BRS (c : Nat) : Fld := ⟨0xB0000 + c * 0x1000 + 0x064, 6, 1⟩
def CAN_TX_HDR_RTR (c : Nat) : Fld := ⟨0xB0000 + c * 0x1000 + 0x064, 5, 1⟩
def CAN_TX_HDR_DLC (c : Nat) : Fld := ⟨0xB0000 + c * 0x1000 + 0x064, 0, 4⟩
def CAN_TX_PUSH_DEST (c : Nat) : Fld := ⟨0xB0000 + c * 0x1000 + 0x068, 0, 3⟩
def CAN_TX_CANCEL_KIND (c : Nat) : Fld := ⟨0xB0000 + c * 0x1000 + 0x06C, 8, 2⟩
def CAN_TX_CANCEL_SEL (c : Nat) : Fld := ⟨0xB0000 + c * 0x1000 + 0x06C, 0, 8⟩
def CAN_TXC_STAT_TAG (c : Nat) : Fld := ⟨0xB0000 + c * 0x1000 + 0x070, 24, 8⟩
def CAN_TXC_STAT_VALID (c : Nat) : Fld := ⟨0xB0000 + c * 0x1000 + 0x070, 23, 1⟩
def CAN_TXC_STAT_CANCEL_LATE (c : Nat) : Fld := ⟨0xB0000 + c * 0x1000 + 0x070, 22, 1⟩
def CAN_TXC_STAT_RESULT (c : Nat) : Fld := ⟨0xB0000 + c * 0x1000 + 0x070, 20, 2⟩
def CAN_TXC_STAT_ATTEMPTS (c : Nat) : Fld := ⟨0xB0000 + c * 0x1000 + 0x070, 16, 4⟩
def CAN_TXC_STAT_LAST_ERR (c : Nat) : Fld := ⟨0xB0000 + c * 0x1000 + 0x070, 8, 3⟩
def CAN_TXC_STAT_SRC (c : Nat) : Fld := ⟨0xB0000 + c * 0x1000 + 0x070, 0, 3⟩
def CAN_TXC_TS_LO_TS (c : Nat) : Fld := ⟨0xB0000 + c * 0x1000 + 0x074, 0, 32⟩
def CAN_TXC_TS_HI_TS (c : Nat) : Fld := ⟨0xB0000 + c * 0x1000 + 0x078, 0, 32⟩
def CAN_POP_RX (c : Nat) : Fld := ⟨0xB0000 + c * 0x1000 + 0x07C, 1, 1⟩
def CAN_POP_TXC (c : Nat) : Fld := ⟨0xB0000 + c * 0x1000 + 0x07C, 0, 1⟩
def CAN_TX_DATA_DATA (c i : Nat) : Fld := ⟨0xB0000 + c * 0x1000 + 0x080 + i * 4, 0, 32⟩
def CAN_RX_ID_IDE (c : Nat) : Fld := ⟨0xB0000 + c * 0x1000 + 0x0C0, 31, 1⟩
def CAN_RX_ID_VALID (c : Nat) : Fld := ⟨0xB0000 + c * 0x1000 + 0x0C0, 30, 1⟩
def CAN_RX_ID_ID (c : Nat) : Fld := ⟨0xB0000 + c * 0x1000 + 0x0C0, 0, 29⟩
def CAN_RX_HDR_FILT (c : Nat) : Fld := ⟨0xB0000 + c * 0x1000 + 0x0C4, 26, 6⟩
def CAN_RX_HDR_FDF (c : Nat) : Fld := ⟨0xB0000 + c * 0x1000 + 0x0C4, 7, 1⟩
def CAN_RX_HDR_BRS (c : Nat) : Fld := ⟨0xB0000 + c * 0x1000 + 0x0C4, 6, 1⟩
def CAN_RX_HDR_RTR (c : Nat) : Fld := ⟨0xB0000 + c * 0x1000 + 0x0C4, 5, 1⟩
def CAN_RX_HDR_ESI (c : Nat) : Fld := ⟨0xB0000 + c * 0x1000 + 0x0C4, 4, 1⟩
def CAN_RX_HDR_DLC (c : Nat) : Fld := ⟨0xB0000 + c * 0x1000 + 0x0C4, 0, 4⟩
def CAN_RX_TS_LO_TS (c : Nat) : Fld := ⟨0xB0000 + c * 0x1000 + 0x0C8, 0, 32⟩
def CAN_RX_TS_HI_TS (c : Nat) : Fld := ⟨0xB0000 + c * 0x1000 + 0x0CC, 0, 32⟩
def CAN_RX_DATA_DATA (c i : Nat) : Fld := ⟨0xB0000 + c * 0x1000 + 0x0D0 + i * 4, 0, 32⟩
def CAN_FCFG_NOMATCH (c : Nat) : Fld := ⟨0xB0000 + c * 0x1000 + 0x110, 8, 1⟩
def CAN_FCFG_NFILT (c : Nat) : Fld := ⟨0xB0000 + c * 0x1000 + 0x110, 0, 6⟩
def CAN_FLT_ID_IDE (c i : Nat) : Fld := ⟨0xB0000 + c * 0x1000 + 0x200 + i * 8, 31, 1⟩
def CAN_FLT_ID_ACT (c i : Nat) : Fld := ⟨0xB0000 + c * 0x1000 + 0x200 + i * 8, 29, 2⟩
def CAN_FLT_ID_ID (c i : Nat) : Fld := ⟨0xB0000 + c * 0x1000 + 0x200 + i * 8, 0, 29⟩
def CAN_FLT_MASK_MASK (c i : Nat) : Fld := ⟨0xB0000 + c * 0x1000 + 0x204 + i * 8, 0, 29⟩
def MEM_PWR_STATE (j : Nat) : Fld := ⟨0x05040, j * 2, 2⟩
def MEM_PWR_STAT_BUSY : Fld := ⟨0x05044, 16, 16⟩
def MEM_PWR_STAT_LAST_BANK : Fld := ⟨0x05044, 12, 4⟩
def MEM_PWR_STAT_LAST_CAUSE : Fld := ⟨0x05044, 8, 4⟩
def MEM_PWR_STAT_REF_CNT : Fld := ⟨0x05044, 0, 8⟩
def MEM_ECC_CNT_CORR : Fld := ⟨0x05048, 16, 16⟩
def MEM_ECC_CNT_UNCORR : Fld := ⟨0x05048, 8, 8⟩
def MEM_ECC_LAST_BANK : Fld := ⟨0x0504C, 28, 4⟩
def MEM_ECC_LAST_DOUBLE : Fld := ⟨0x0504C, 27, 1⟩
def MEM_ECC_LAST_SCRUB : Fld := ⟨0x0504C, 26, 1⟩
def MEM_ECC_LAST_WORD : Fld := ⟨0x0504C, 0, 16⟩
def MEM_SCRUB_MAX_MS : Fld := ⟨0x05050, 16, 8⟩
def MEM_CLR_SCRUB : Fld := ⟨0x05054, 1, 1⟩
def MEM_CLR_ECC : Fld := ⟨0x05054, 0, 1⟩
def MEM_CAP_CTRL_STOP : Fld := ⟨0x05058, 16, 8⟩
def MEM_CAP_CTRL_TRIG : Fld := ⟨0x05058, 8, 8⟩
def MEM_CAP_CTRL_ARM : Fld := ⟨0x05058, 0, 8⟩
def MEM_CAP_CFG_RATE (i : Nat) : Fld := ⟨0x05100 + i * 32, 30, 2⟩
def MEM_CAP_CFG_TS (i : Nat) : Fld := ⟨0x05100 + i * 32, 29, 1⟩
def MEM_CAP_CFG_NCH_M1 (i : Nat) : Fld := ⟨0x05100 + i * 32, 26, 3⟩
def MEM_CAP_CFG_TMODE (i : Nat) : Fld := ⟨0x05100 + i * 32, 24, 2⟩
def MEM_CAP_CFG_TSRC (i : Nat) : Fld := ⟨0x05100 + i * 32, 17, 7⟩
def MEM_CAP_CFG_POST (i : Nat) : Fld := ⟨0x05100 + i * 32, 0, 16⟩
def MEM_CAP_AREA_SIZE_K (i : Nat) : Fld := ⟨0x05104 + i * 32, 16, 9⟩
def MEM_CAP_AREA_BASE_K (i : Nat) : Fld := ⟨0x05104 + i * 32, 0, 8⟩
def MEM_CAP_LEVEL_LEVEL (i : Nat) : Fld := ⟨0x05108 + i * 32, 0, 32⟩
def MEM_CAP_CH_LOCAL_ODD (w k : Nat) : Fld := ⟨0x0510C + w * 32 + k * 4, 16, 14⟩
def MEM_CAP_CH_LOCAL_EVEN (w k : Nat) : Fld := ⟨0x0510C + w * 32 + k * 4, 0, 14⟩
def MEM_CAP_STAT_STATE (i : Nat) : Fld := ⟨0x0511C + i * 32, 30, 2⟩
def MEM_CAP_STAT_WRAPPED (i : Nat) : Fld := ⟨0x0511C + i * 32, 29, 1⟩
def MEM_CAP_STAT_COUNT (i : Nat) : Fld := ⟨0x0511C + i * 32, 0, 17⟩
def EVC_RAW_RAW (i : Nat) : Fld := ⟨0x04040 + i * 4, 0, 32⟩
def EVC_PEND_PEND (i : Nat) : Fld := ⟨0x04050 + i * 4, 0, 32⟩
def EVC_IRQ_IRQ (i : Nat) : Fld := ⟨0x04060 + i * 4, 0, 32⟩
def EVC_MP_MP (i : Nat) : Fld := ⟨0x04070 + i * 4, 0, 32⟩
def EVC_RING_RING (i : Nat) : Fld := ⟨0x04080 + i * 4, 0, 32⟩
def EVC_LOG0_LOG : Fld := ⟨0x04090, 0, 32⟩
def EVC_LOG1_LOG : Fld := ⟨0x04094, 0, 32⟩
def EVC_LOG2_LOG : Fld := ⟨0x04098, 0, 32⟩
def EVC_REACT_REACT (i j : Nat) : Fld := ⟨0x040A0 + i * 4, j * 2, 2⟩
def EVC_STAT_IRQ : Fld := ⟨0x040B8, 31, 1⟩
def EVC_STAT_LAST_MON : Fld := ⟨0x040B8, 23, 1⟩
def EVC_STAT_LAST_SRC : Fld := ⟨0x040B8, 16, 7⟩
def EVC_STAT_REACT_CNT : Fld := ⟨0x040B8, 8, 8⟩
def EVC_CLR_CNT : Fld := ⟨0x040BC, 0, 1⟩
def EVC_CNT_CNT (i j : Nat) : Fld := ⟨0x04100 + i * 4, j * 8, 8⟩
def MON_LOG_NEXT_NEXT : Fld := ⟨0xC0040, 0, 32⟩
def MON_LOG_STAT_FILL : Fld := ⟨0xC0044, 16, 10⟩
def MON_LOG_STAT_OVR : Fld := ⟨0xC0044, 0, 16⟩
def MON_LOG_CLR_CNT : Fld := ⟨0xC0048, 1, 1⟩
def MON_LOG_CLR_CLEAR : Fld := ⟨0xC0048, 0, 1⟩
def MON_CNT_CNT (i j : Nat) : Fld := ⟨0xC0100 + i * 4, j * 8, 8⟩
def CE_NF_NF (i : Nat) : Fld := ⟨0x12040 + i * 4, 0, 32⟩

end F
end Sys2Proof.Machine
end

