-- ==== Sys2Proof/Machine/State.lean ====
section
/-! DEFINITION. The state of the SX-6400 as plain data: the two lanes, the monitor, the islands, AON with the pins, the
module's time and the queue of waiting commands. Register words live in sparse files that list only the words that differ
from their reset value; everything the chapters keep outside a register has a field of its own. -/
namespace Sys2Proof.Machine

/-- A sparse register file: (page-map address, word), addresses strictly rising, no word equal to its reset value. -/
abbrev RegFile := List (Nat × Word)

/-- One value for each lane. -/
structure PerLane (α : Type) where
  a : α
  b : α
deriving DecidableEq, Repr

/-- The value of a lane. -/
def PerLane.get {α : Type} (p : PerLane α) : Lane → α
  | .A => p.a
  | .B => p.b

/-- The pair with one lane's value replaced. -/
def PerLane.set {α : Type} (p : PerLane α) (l : Lane) (v : α) : PerLane α :=
  match l with
  | .A => { p with a := v }
  | .B => { p with b := v }

/-- Why a step can stop with a fault. No command of this block stops with a fault: the type is empty of reasons the spec
gives, and `internal` is never raised (safe). -/
inductive Fault where
  /-- Never raised by any meaning; it only makes the type inhabited (safe). -/
  | internal
deriving DecidableEq, Repr

/-- Why a command can be refused. -/
inductive Refusal where
  /-- Raised by Dispatch alone, for a command that has no meaning yet (safe: nothing is claimed of it). -/
  | notModelled (mnemonic : String)
deriving DecidableEq, Repr

/-- The access statuses of R94. -/
inductive Status where
  | ok | busy | addrErr | accErr | rsvErr | rangeErr | lockErr | coefClosed | ownerErr | islandDown | stateErr
  | idErr | lenErr | countErr | dualPend | dualFail | notMirrored | seqStale
deriving DecidableEq, Repr

/-- The 8-bit code of a status (R94). -/
def Status.code : Status → Nat
  | .ok => 0x00 | .busy => 0x01 | .addrErr => 0x10 | .accErr => 0x11 | .rsvErr => 0x12 | .rangeErr => 0x13
  | .lockErr => 0x14 | .coefClosed => 0x15 | .ownerErr => 0x16 | .islandDown => 0x17 | .stateErr => 0x18
  | .idErr => 0x19 | .lenErr => 0x1A | .countErr => 0x1B | .dualPend => 0x20 | .dualFail => 0x21
  | .notMirrored => 0x22 | .seqStale => 0x23

/-- What an access answered: its status and, for a read, the word (R94). -/
structure Answer where
  status : Status := .ok
  data : Word := 0
deriving DecidableEq, Repr

/-- A RAW bit that reads 1 until an instant: an event that reports an instant, or a forced rise (R88). -/
structure Pulse where
  page : Nat
  bit : Nat
  until_ : Nat
deriving DecidableEq, Repr

/-- A change of a source that waits to be sent as an EVENT frame (R410, R459): source 0 to 95, or 96 + b for monitor
source b, with its number in the lane's EVENT count. -/
structure EvItem where
  src : Nat
  rise : Bool
  ts : BitVec 64
  seq : BitVec 16 := 0
deriving DecidableEq, Repr

/-- A frame or ordered set that a lane's ring port, or its path through the peer, has sent (R391, R396, R397). Ends are 0 (false)
and 1 (true); `toEnd` is the end towards which it travels. -/
inductive Sent where
  /-- a CYC frame forwarded, or turned back with its loop point -/
  | cyc (toEnd looped : Bool) (lpt : BitVec 16) (corr : Word) (host : BitVec 64) (period : BitVec 16) (num : Word) (badCrc : Bool)
  /-- a frame passed on unchanged, by its TYPE -/
  | fwd (toEnd : Bool) (type : Byte)
  | inRec (toEnd : Bool) (seq flags : BitVec 16) (mapId : Byte) (words : List Word)
  | event (toEnd : Bool) (seq : BitVec 16) (src : BitVec 7) (raw mon : Bool) (ts : BitVec 64)
  | rsp (toEnd : Bool) (type : Byte) (sess : Fin 4) (seq : BitVec 16) (addr : BitVec 24) (status : Status) (data : List Byte)
  /-- a link-delay request, and a reply with the turnaround time in 100 ps -/
  | dq
  | dr (turnaround : Word)
deriving DecidableEq, Repr

/-- A shadow of R108: the pending value of a register's shadowed fields. -/
structure Shadow where
  addr : Nat
  val : Word
  armed : Bool := false
  /-- the PERIODs that arrived after its value was written (R108) -/
  due : List Req := []
deriving DecidableEq, Repr

/-- What an access does at its offset (R407): a write of one word or several, a read-modify-write, or a read of bytes. -/
inductive QOp where
  | write (data : List Word) (be : BitVec 4)
  | rmw (mask value : Word)
  | read (count : Nat)
deriving DecidableEq, Repr

/-- An access: its number where a host session sent it, where its own CAN frame stands, and the ends from which its copies have
come. One that waits in its page queue behind an armed shadow (R108) notes the PERIODs that cover it. -/
structure Access where
  q : Option Req := none
  addr : Nat
  op : QOp
  ph : BusPhase := .before
  ends : List Bool := []
  covered : List Req := []
  /-- a signal whose LANE is MIRRORED (R102) -/
  mirror : Bool := false
deriving DecidableEq, Repr

/-- One half of a dual write, held by the monitor (R97). -/
structure Half where
  lane : Lane
  addr : Nat
  val : Word
deriving DecidableEq, Repr

/-- A PERIOD that awaits completion (R106): the ends from which its copies have come, the dual halves it covers that still await
their partner, and what it has to report. -/
structure PeriodReq where
  seq : BitVec 16
  ends : List Bool := []
  halves : List (Lane × Nat) := []
  dualLost : Bool := false
  unmirrored : Bool := false
  linkLost : Bool := false
deriving DecidableEq, Repr

/-- The record of one host session (R105): the highest accepted number, the numbers accepted with the status of their
first copy (newest first), and the number up to which a seed counts as accepted, until the record has moved past it. -/
structure Sess where
  highest : BitVec 16 := 0
  seed : Option (BitVec 16) := some 0
  seen : List (BitVec 16 × Status) := []
  /-- what the next PERIOD reports: a covered dual write was discarded -/
  dualLost : Bool := false
  /-- what the next PERIOD reports: a covered write was applied without being mirrored -/
  unmirrored : Bool := false
  /-- offsets of dual halves, not yet covered by a PERIOD, that await their partner -/
  halves : List Nat := []
  /-- PERIODs that await completion, oldest first -/
  periods : List PeriodReq := []
deriving DecidableEq, Repr

/-- The causes that hold a lane in reset (R491). -/
structure Hold where
  pin : Bool := false
  vs : Bool := false
  soft : Bool := false
  mon : Bool := false
  clk : Bool := false
  retired : Bool := false
deriving DecidableEq, Repr

/-- How far a released lane has come (R59, R60, R62). -/
inductive Boot where
  | starting | bootHold | ready
deriving DecidableEq, Repr

/-- What the lane knows of one image slot of its flash (R61, R62). -/
structure ImgSlot where
  version : Word := 0
  flags : Byte := 3
  digest : BitVec 256 := 0
  pairDigest : Word := 0
  /-- programming was begun and not committed: the slot fails its CRC-32 (R62) -/
  broken : Bool := false
  /-- marked by IMG_COMMIT to boot at the next lane reset (R416) -/
  marked : Bool := false
deriving DecidableEq, Repr

/-- The lane's start-up: the slots, the slot on trial and what its read pass found (R60, R62). -/
structure BootState where
  phase : Boot := .starting
  /-- the lane's t0, and whether its peer had started before it (R59, R64) -/
  t0 : Nat := 0
  late : Bool := false
  slot : Vector ImgSlot 2 := Vector.replicate 2 {}
  /-- the slot on trial, or the running one once ready -/
  cur : Fin 2 := 0
  /-- the other slot has been abandoned already -/
  fellBack : Bool := false
  /-- a read pass of the slot on trial has ended with a good CRC-32 -/
  readOk : Bool := false
  /-- the content that the read pass has copied, used only after acceptance (R60) -/
  img : Option ImageRead := none
  /-- the signature of the slot on trial has verified: the image is accepted (R62) -/
  verified : Bool := false
  /-- the manifest digests or pair digests of the lanes differ: function enables are refused (R63) -/
  mismatch : Bool := false
  /-- the sine table stands in B15: loaded at start-up, and lost where the bank is switched off (R188, R447) -/
  sine : Bool := false
  /-- a warm restart of the management processor is in progress (R76) -/
  warm : Bool := false
  /-- management processor overloaded: acyclic requests are answered BUSY (R408) -/
  mpBusy : Bool := false
deriving DecidableEq, Repr

/-- The lane's part in redundancy beside its RED and CONJ registers (chapter 14). -/
structure RedState where
  /-- copies in the four slots of B8, by counter modulo 4 (R327) -/
  copy : Option StateCopy := none
  /-- consecutive valid copies received since resynchronisation began (R346) -/
  copiesOk : Nat := 0
  /-- own state-copy counter -/
  copyCnt : Word := 0
  /-- fast cycles since the newest valid copy -/
  journal : List JEntry := []
  /-- own heartbeat counter -/
  hbCnt : BitVec 16 := 0
  /-- last direct and relayed heartbeat of the peer -/
  hbDirect : Option Heartbeat := none
  hbRelay : Option Heartbeat := none
  /-- a heartbeat, or a relay frame, has arrived in the present window -/
  gotDirect : Bool := false
  gotRelay : Bool := false
  /-- consecutive windows without a direct heartbeat, and without a monitor frame -/
  missDirect : Nat := 0
  missRelay : Nat := 0
  /-- consecutive windows with them, for the end of a split (R344) -/
  haveDirect : Nat := 0
  haveRelay : Nat := 0
  /-- the newest relay frame marks the peer absent -/
  peerAbsent : Bool := false
  /-- windows in which own heartbeats carried FAIL = 0 since resynchronisation began (R346) -/
  cleanHb : Nat := 0
  /-- a heartbeat with FAIL is still to be sent (R333) -/
  failSend : Nat := 0
  /-- time of the peer's last valid heartbeat -/
  hbTime : Nat := 0
  /-- CRC errors of the link in this slow cycle (R333) -/
  crcErrs : Nat := 0
  /-- consecutive fast cycles outside and inside DIV_LIM (R325) -/
  divBad : Nat := 0
  divGood : Nat := 0
  /-- the share ramp in progress: (share at its start, target, steps done, steps in all), in the leader (R201, R347) -/
  ramp : Option (Word × Word × Nat × Nat) := none
  /-- an SS1 on own set runs in a split or without a monitor (R344, R360) -/
  ownSs1 : Bool := false
  /-- a stop executed on own streams is latched (R360), with its cause -/
  ownStop : Option Nat := none
  /-- a RETEST is in progress (R348) -/
  retest : Bool := false
  /-- the lane is the timing master, to which the other locks (R25) -/
  master : Bool := false
  /-- counter of the last copy received, good or not (R327) -/
  rxCnt : Option Word := none
  /-- fast-cycle starts since the newest valid copy arrived (R327) -/
  copyAge : Nat := 0
  /-- the peer is declared failed, as this lane knows it (R331) -/
  peerFailed : Bool := false
  /-- the token functions are to be taken over at the next fast-cycle start (R335 step 6) -/
  takeover : Bool := false
  /-- the lane takes back its set and its phases at the next fast-cycle start (R347) -/
  rejoin : Bool := false
  /-- instant from which the split timer runs (R344) -/
  splitAt : Nat := 0
  /-- cause of a stop that the lane executes on its own streams (R344, R360) -/
  ownCause : Nat := 0
  /-- the heartbeat and the state copy that the lane sent last (R327, R328) -/
  txHb : Option Heartbeat := none
  txCopy : Option StateCopy := none
  /-- the configured share has been taken up since the lane runs (R198) -/
  shareOn : Bool := false
  /-- the lane's set has left the sharing of torque and has not run again: it leads the share until its return (R213, R347) -/
  lost : Bool := false
deriving DecidableEq, Repr

/-- The request line and the command line between a lane and the monitor (R357). -/
structure SafLines where
  reqSto : Bool := false
  reqSs1 : Bool := false
  /-- cause carried with the request -/
  cause : Nat := 0
  rampDone : Bool := false
  /-- connector verdict of R292: true while a connector is present -/
  connector : Bool := false
  /-- no valid code on the command line for 5 µs (R357) -/
  cmdLost : Bool := false
  /-- own mechanical position in 1/65,536 electrical revolutions since the reference, and the angle it was last taken from
  (R365) -/
  pos : Int := 0
  posAng : Option Nat := none
  /-- limit violations that the lane found at its last check (R363 to R365) -/
  viol : List Nat := []
deriving DecidableEq, Repr

/-- What a lane's CLAUSE connection holds beside its registers (R376 to R380). -/
structure ClsConn where
  /-- accepted telegrams since the connection was enabled or its watchdog expired -/
  accepted : Nat := 0
  /-- instants of the CRC errors of the last second on a running connection -/
  crcAt : List Nat := []
  /-- the instant at which the watchdog expires -/
  wdog : Nat := 0
  /-- the watchdog has expired and no permissive telegram has come since: the RUN permit is withdrawn, but not while the SS1
  runs that the expiry has started (R377) -/
  gone : Bool := false
  /-- a telegram that has arrived and awaits its check (R376) -/
  tel : Option (List Byte) := none
  /-- the command data in effect (R376, R378): bytes 0 and 1 and TLIM; every field permissive before the first telegram -/
  data : Word := 0xFFFF0063
  /-- the telegram a transmit connection sent last on the ring (R380, R403) -/
  tx : List Byte := []
  /-- the sequence number sent last, and whether this lane sends in the place of the named one (R380) -/
  sent : BitVec 16 := 0
  took : Bool := false
deriving DecidableEq, Repr

/-- The traction state machine's internal state beside TRC page 2 (chapter 9). -/
structure TrcState where
  /-- consecutive fast cycles of START with a valid angle -/
  startCnt : Nat := 0
  /-- fast cycles spent in CATCH -/
  catchCnt : Nat := 0
  /-- pairs of polarity pulses done -/
  polPairs : Nat := 0
  /-- START was entered from ASC_ACQ or BRAKE: the references blend (R226) -/
  blend : Bool := false
  /-- fast cycles of the blend, and the currents from which it starts (R226) -/
  blendN : Nat := 0
  blendI : Word × Word := (0, 0)
  /-- the safety reaction's ramp replaces RAMPIN in STOPPING (R361) -/
  ss1Ramp : Bool := false
  /-- ramp-in factor, millionths (R223) -/
  rampIn : Nat := 0
  /-- percentage of TMAX that the stall derating leaves (R229) -/
  derate : Nat := 100
  /-- consecutive samples with the residual above ORES_LIM (R224) -/
  oresCnt : Nat := 0
  /-- the selection that the last fast-cycle start saw: true for ASC (R212) -/
  selWas : Bool := false
deriving DecidableEq, Repr

/-- What a lane's control engine holds beside bank B10 and the CE pages (chapters 7 and 8). -/
structure EngState where
  /-- wires that a medium or slow group has computed, held back until the next fast-cycle start (R170) -/
  held : List (Nat × Word) := []
  /-- entries whose PRESET word has been written and not yet consumed (R168) -/
  presets : List Nat := []
  /-- ramp entries that preset from MEAS at their next execution, and those whose last execution was in TRACK (R179) -/
  rampPre : List Nat := []
  rampTrack : List Nat := []
  /-- COMMIT has passed, or RUN = 0 was written: acts at the next fast-cycle start (R175) -/
  start : Bool := false
  stop : Bool := false
  /-- consecutive overruns of the fast, medium and slow groups (R31, R174) -/
  ovrFast : Nat := 0
  ovrMed : Nat := 0
  ovrSlow : Nat := 0
  /-- consecutive fast cycles in which the voltage limiter has acted (R192) -/
  vlimRun : Nat := 0
  /-- the last two complete exchange messages, newest first, and whether one has come since the last fast-cycle start (R34) -/
  exch : List Word := []
  exchPrev : List Word := []
  gotExch : Bool := false
  /-- the age of that message in fast cycles (R194) -/
  age : Nat := 0
  /-- fast-cycle starts in a row with a complete message, for the return to measured decoupling (R34, R195) -/
  okRun : Nat := 0
  /-- the 16 words of the current exchange that the lane sent last (R33, R194) -/
  txExch : List Word := []
  /-- the torque command loaded by this lane, and the one in effect (R197) -/
  tLoad : Word := 0
  tStar : Word := 0
  /-- the geometry fields that the peer last reported: GEOM, UPD, DEC, FSW, FSW_ALT, ANGLE (R187) -/
  peerGeom : Option (List Nat) := none
  /-- a rate change requested, and waiting for the period named (R206) -/
  altWait : Option Bool := none
  /-- SRC of the set-point path written and not yet in effect (R179) -/
  srcWait : Bool := false
  /-- instants of the last rising edge on PIN_SP, and the last high time in counts (R177) -/
  pinRise : Option Nat := none
  pinHigh : Nat := 0
  /-- duties that the modulators load next, by sink wire from 0x080 (R28, R203) -/
  duty : List Word := []
  /-- the value of each sink wire from 0x080 that its modulator has loaded -/
  loaded : Vector Word 16 := Vector.replicate 16 0
deriving DecidableEq, Repr

/-- Edges of the encoder in one fast cycle: their number, and the first and last as (time, count) (R130). -/
structure EdgeWin where
  n : Nat := 0
  first : Nat × Int := (0, 0)
  last : Nat × Int := (0, 0)
deriving DecidableEq, Repr

/-- What a lane's feedback interface holds beside the FBK pages (chapter 5). -/
structure FbkState where
  /-- accepted levels of PA and PB, and the time of the last accepted edge (R121, R122) -/
  pa : Bool := false
  pb : Bool := false
  lastEdge : Option Nat := none
  /-- the last edges as (time, count), newest first, and the edges of the last fast cycles, newest first (R130) -/
  edges : List (Nat × Int) := []
  win : List EdgeWin := []
  cur : EdgeWin := {}
  /-- glitches in this slow cycle (R122) -/
  glitch : Nat := 0
  /-- valid Hall transitions since the last encoder edge (R123) -/
  hallRun : Nat := 0
  /-- last counting direction, whether it has changed since the previous latch, whether FBK_ENC_OFS was written since, and
  the previous latch (R125) -/
  up : Option Bool := none
  turned : Bool := false
  ofsSeen : Bool := false
  latch : Option Word := none
  /-- offsets written and not yet added (R126) -/
  ofs : Int := 0
  encZero : Bool := false
  hallZero : Bool := false
  /-- Hall sector, direction of the last step, time of the last edge and spacing of the last two (R127, R130) -/
  sector : Option Nat := none
  hallUp : Bool := true
  hallAt : Option Nat := none
  hallDt : Option Nat := none
  /-- consecutive illegal Hall events -/
  hallBad : Nat := 0
  /-- resolver: 24-bit angle, integrator speed, time of the last update, consecutive failures of each check (R118, R120) -/
  res : Option (BitVec 24 × Word × Nat) := none
  los : Nat := 0
  dos : Nat := 0
  lot : Nat := 0
  /-- SSI: a frame in progress with its stamp, end of its monoflop wait, last two good frames as (position, stamp),
  consecutive failures, sampling instants since the last request (R128, R129) -/
  ssiBusy : Bool := false
  ssiStamp : Nat := 0
  ssiFree : Nat := 0
  ssi : List (Nat × Nat) := []
  ssiBad : Nat := 0
  /-- consecutive fast cycles in which PRIM and SEC disagree (R133) -/
  posBad : Nat := 0
  /-- sources cleared and in their 100 ms qualification, and candidates below the active source (R135) -/
  qual : BitVec 5 := 0
  below : BitVec 5 := 0
  /-- angle of each source at the last sampling instant -/
  ang : Vector (Option Nat) 5 := Vector.replicate 5 none
  /-- the active source has changed at this fast-cycle start (R150) -/
  changed : Bool := false
deriving DecidableEq, Repr

/-- What a lane's sequencer and decimators hold beside the SMP pages (chapter 6). -/
structure SmpState where
  /-- consecutive repeated tags, and an out-of-range last result, of each input (R148, R149) -/
  seen : BitVec 24 := 0
  rep : Vector Nat 24 := Vector.replicate 24 0
  out : BitVec 24 := 0
  sseen : BitVec 7 := 0
  srep : Vector Nat 7 := Vector.replicate 7 0
  /-- outputs of each stream still to be discarded (R146) -/
  skip : Vector Nat 7 := Vector.replicate 7 0
  isum : Nat := 0
  resid : Nat := 0
  /-- consecutive fast cycles in which the DC-link values disagree (R147) -/
  dis : Nat := 0
  /-- consecutive periods of each own phase that ended in IPK, and whether this period has (R271) -/
  ipk : Vector Nat 2 := Vector.replicate 2 0
  ipkNow : Vector Bool 2 := Vector.replicate 2 false
  /-- the same of the charger: AFE legs L1 to L3, then the DAB (R286) -/
  ipkC : Vector Nat 4 := Vector.replicate 4 0
  ipkCNow : Vector Bool 4 := Vector.replicate 4 false
  /-- sums of squared group D currents of the slow cycle, in squared steps of 2⁻¹⁴⁹ A, and their number (R272) -/
  sq : Vector (Nat × Nat) 2 := Vector.replicate 2 (0, 0)
  /-- a group T sample has been taken since the last fast-cycle start -/
  fresh : Bool := false
deriving DecidableEq, Repr

/-- What a lane's part of the DC-link converter holds beside the DCL page (chapter 11). -/
structure DclState where
  /-- the ramp's last target, and the unclamped target that was last clipped (R266) -/
  target : Word := 0
  clipRaw : Option Word := none
  /-- last valid battery voltage, for the floor rule (R266) -/
  ubat : Option Word := none
  /-- the measured link value that STOPPING holds as its target (R270) -/
  hold : Word := 0
  /-- the instant at which STOPPING began, and that at which the leaving phase began to ramp out (R270, R275) -/
  stopAt : Nat := 0
  leaveAt : Nat := 0
  /-- overload accumulator of each own phase, A²·ms in squared steps of 2⁻¹⁴⁹, and whether it derates (R272) -/
  acc : Vector Nat 2 := Vector.replicate 2 0
  der : Vector Bool 2 := Vector.replicate 2 false
  /-- phases shed, in the order in which they left, and the one that is leaving (R275) -/
  shed : List Nat := []
  leaving : Option Nat := none
  /-- active phases of both lanes at the last fast-cycle start with the peer up, and a declaration of the peer that the next
  fast-cycle start takes up (R278) -/
  both : Nat := 0
  peerLost : Bool := false
  /-- instant from which the current demand of a returning lane ramps (R279) -/
  ret : Option Nat := none
deriving DecidableEq, Repr

/-- What a lane's charger holds beside the AFE, DAB and CHG pages (chapter 12). -/
structure ChgState where
  /-- duties of the last pilot periods, in 0.1 %, newest first; empty without PWM (R290) -/
  duty : List Nat := []
  /-- battery-current reference in effect, its rate in RAMPDOWN, and the bus and V2L voltage references (R288, R293, R299) -/
  ibat : Word := 0
  downRate : Option Word := none
  busRef : Word := 0
  formRef : Word := 0
  /-- a trip has ended the session and a restart may follow (R297) -/
  tripped : Bool := false
  /-- highest line-to-line rms, in 0.1 V -/
  vll : Nat := 0
deriving DecidableEq, Repr

/-- What a lane holds of one actuator beside its ACT registers (chapter 13). -/
structure ActState where
  /-- sector of the Hall state before the shift, and consecutive Hall faults (R311) -/
  sector : Option Nat := none
  hallBad : Nat := 0
  /-- magnitude of the applied duty, and whether the force limit holds it down (R313) -/
  applied : Word := 0
  limited : Bool := false
  /-- instant of the last sector step, its distance from the one before, and its direction, for the speed wire (R310) -/
  stepAt : Option Nat := none
  stepDt : Option Nat := none
  stepUp : Bool := true
  /-- end of a precharge in progress (R318) -/
  preUntil : Option Nat := none
  /-- consecutive copies whose position differs by more than 1 (R319) -/
  posBad : Nat := 0
deriving DecidableEq, Repr

/-- A frame queued for transmission (R426, R429, R430): attempts that ended in an error, its last error, consecutive
acknowledgement errors, and a cancellation that came after its start of frame. -/
structure TxEntry where
  frame : CanFrame
  tag : Byte
  attempts : Nat := 0
  lastErr : Nat := 0
  ackErrs : Nat := 0
  cancel : Bool := false
deriving DecidableEq, Repr

/-- An entry of the completion queue (R429, R439). -/
structure TxDone where
  tag : Byte
  late : Bool
  result : Nat
  attempts : Nat
  lastErr : Nat
  src : Nat
  ts : BitVec 64
deriving DecidableEq, Repr

/-- A frame in the receive FIFO: the matching filter, 0x3F where none matched, and its time stamp (R433 to R435). -/
structure RxFrame where
  frame : CanFrame
  filt : Nat
  ts : BitVec 64
deriving DecidableEq, Repr

/-- What a lane holds of the ring beside the RING page (chapter 16). -/
structure RingState where
  /-- the number of the present cycle; none before the first CYC frame -/
  cyc : Option Word := none
  /-- a CYC frame with LOOP = 0 has come from end 0, from end 1, since the last cycle start (R390) -/
  seen0 : Bool := false
  seen1 : Bool := false
  /-- the chosen end (R390) -/
  chosen : Option Bool := none
  /-- consecutive cycles with an error within 25 ns (R401) -/
  okRun : Nat := 0
  /-- RING_CFG and the maps in effect (R405) -/
  cfg : Word := 3
  outMap : Vector Word 4 := Vector.replicate 4 0
  inMap : Vector Word 64 := Vector.replicate 64 0
  /-- the latched IN record: flags and words (R402) -/
  latched : Option (BitVec 16 × List Word) := none
  /-- the OUT record accepted last, and whether in the present cycle (R404) -/
  out : List Word := []
  outOk : Bool := false
  /-- the EVENT count, and EVENT frames sent in this cycle (R410) -/
  evSeq : BitVec 16 := 0
  evSent : Nat := 0
  /-- frames sent since the last cycle start, oldest first -/
  sent : List Sent := []
deriving DecidableEq, Repr

/-- A CAN controller beside its page (chapter 17). -/
structure CanState where
  /-- the transmit FIFO, head first, and the urgent slots (R426) -/
  fifo : List TxEntry := []
  slot : Vector (Option TxEntry) 4 := Vector.replicate 4 none
  /-- where the controller's own frame stands, and the candidate fixed at its start of frame: 0 the FIFO head, 4 + n slot n -/
  phase : BusPhase := .before
  cand : Option Nat := none
  /-- completions and received frames, oldest first -/
  txc : List TxDone := []
  rx : List RxFrame := []
  /-- bus integration has been completed since INIT fell (R424) -/
  joined : Bool := false
  /-- bus-off recovery is in progress (R431) -/
  recovering : Bool := false
  /-- receive error counter, which CAN_STAT.REC shows up to 127 -/
  rxErr : Nat := 0
deriving DecidableEq, Repr

/-- One capture window's internal state (R449, R450): records taken since the trigger, the records, oldest first, and channel 0
of the last record. -/
structure CapState where
  post : Nat := 0
  recs : List (List Word) := []
  last0 : Option Word := none
deriving DecidableEq, Repr

/-- An HV gate island (chapter 10): what the driver die itself holds, kept while its supply lasts (R76). -/
structure HvIsl where
  /-- usable by R58: the supply is valid and the island has been configured -/
  usable : Bool := false
  vpOk : Bool := false
  vnOk : Bool := false
  outOn : Bool := false
  gateOff : Bool := true
  /-- the obeyed stream has been declared lost (R83) -/
  lost : Bool := false
  /-- 2.0 µs have passed since then (R250) -/
  ascFree : Bool := false
  /-- the safe-state line has been declared lost (R83) -/
  lineLost : Bool := false
  scLatch : Bool := false
  scSelf : Bool := true
  /-- soft-off in progress (R238) -/
  softOff : Bool := false
  /-- latched token owner is Lane B (R247); a fixed channel keeps its owner by R16 -/
  ownerB : Bool := false
  tokenOk : Bool := true
  /-- in autonomous ASC (R84) -/
  ascOvs : Bool := false
  /-- overvoltage reported (R249) -/
  ovsAct : Bool := false
  /-- latched safe-state mode: none since the supply became valid, else true for ASC (R84) -/
  mode : Option Bool := none
  /-- the OVS thresholds held in the island: GDH_OVS as last written into it (R249) -/
  ovsCfg : Word := 0x0AE1
deriving DecidableEq, Repr

/-- One LV channel (R252, R253). -/
structure LvChan where
  outOn : Bool := false
  gateOff : Bool := true
  /-- consecutive periods that ended in BOOT_UV -/
  bootRun : Nat := 0
  /-- held off after BOOT_N such periods -/
  heldOff : Bool := false
  /-- a refresh is forced in the next period -/
  refresh : Bool := false
  /-- the period in progress had a BOOT_UV -/
  uvNow : Bool := false
  /-- periods since the last forced refresh, for the eighth-period rule -/
  eighth : Nat := 0
  /-- the clipped episode in progress -/
  clipped : Bool := false
  /-- of a high side: the last instant at which its leg's low side conducted (R253, R318) -/
  lowAt : Option Nat := none
deriving DecidableEq, Repr

/-- The LV gate island (R252 to R254): bridge 0 is the shift bridge L00 to L05, bridge 1 the park-lock bridge. -/
structure LvIsl where
  usable : Bool := false
  vglOk : Bool := false
  lost : Bool := false
  /-- latched owner of each bridge is Lane B (R247) -/
  ownerB0 : Bool := false
  ownerB1 : Bool := false
  tokenOk : Bool := true
  oc0 : Bool := false
  oc1 : Bool := false
  ch : Vector LvChan 12 := Vector.replicate 12 {}
deriving DecidableEq, Repr

/-- A sense island (R58, R145, R146). -/
structure SnsIsl where
  usable : Bool := false
  /-- the modulator clock comes from Lane B -/
  clkB : Bool := false
deriving DecidableEq, Repr

/-- An entry of the fault log (R466). -/
structure LogEntry where
  num : Word
  ts : BitVec 64
  origin : BitVec 2
  tsSrc : Bool
  forced : Bool
  source : BitVec 7
  mon : Bool
  type : Byte
  inst : BitVec 7
  bit : BitVec 5
  react : BitVec 2
  trc : Byte
  saf : Byte
  red : Byte
  data : Word
deriving DecidableEq, Repr

/-- The AON domain and the pins the module samples or drives (R49 to R57). -/
structure Aon where
  vsaOk : Bool := true
  vsbOk : Bool := true
  /-- a qualified low on nPOR is held -/
  nPor : Bool := false
  /-- the locked device number, none while unstable or not yet sampled (R51) -/
  devnum : Option (BitVec 6) := none
  unstable : Bool := false
  /-- TMODE was sampled high: both lanes stay in reset (R52) -/
  tmode : Bool := false
  /-- filtered levels of STO1 and STO2 (R358) -/
  sto1 : Bool := false
  sto2 : Bool := false
  /-- levels of KFB0 to KFB5 and of the contactor outputs K0 to K5 -/
  kfb : BitVec 6 := 0
  k : BitVec 6 := 0
  pgDcl : Bool := false
  pgAfe : Bool := false
  pgDab : Bool := false
  cpS2 : Bool := false
deriving DecidableEq, Repr

/-- The contactor test of one output (R371). -/
structure KTest where
  /-- a test pulse is in progress -/
  pulse : Bool := false
  /-- the check 1 ms after the pulse is awaited -/
  check : Bool := false
  /-- consecutive failures -/
  fails : Nat := 0
  /-- instant of the last demand transition -/
  lastDemand : Option Nat := none
deriving DecidableEq, Repr

/-- The monitor's safe-state selection beside MON_SST_STAT (R214 to R216). -/
structure SstState where
  /-- decoded S0 and S1 in volts, while each decode is valid -/
  u : Vector (Option Nat) 2 := Vector.replicate 2 none
  /-- a decode has been lost (R146, R216) -/
  lost : Vector Bool 2 := Vector.replicate 2 false
  /-- instant of the last MON_TACH pulse -/
  tachAt : Option Nat := none
  /-- the last valid U -/
  uLast : Nat := 0
  /-- a speed has been known since nPOR (R215) -/
  known : Bool := false
  /-- a MON_TACH reading, rad/s electrical × 1,000 -/
  tach : Option Nat := none
  /-- the speed measured from the short-circuit current, rad/s electrical × 1,000 -/
  sc : Option Nat := none
deriving DecidableEq, Repr

/-- The monitor die (chapters 9, 14, 15, 19). -/
structure MonState where
  regs : RegFile := []
  pulses : List Pulse := []
  /-- the monitor runs; false once it has stopped (R37, R343) -/
  alive : Bool := true
  /-- the fault log, newest first (R465) -/
  log : List LogEntry := []
  /-- (origin, page, bit) and instant of the previous entry of a header bit -/
  logged : List ((Nat × Nat × Nat) × Nat) := []
  halves : List Half := []
  /-- lanes counted as running -/
  counted : PerLane Bool := ⟨false, false⟩
  /-- last valid heartbeat of each lane and the instant it arrived -/
  hb : PerLane (Option (Heartbeat × Nat)) := ⟨none, none⟩
  missHb : PerLane Nat := ⟨0, 0⟩
  /-- the peer's heartbeats in the missing windows all carried PEER_SEEN = 0 (R330) -/
  peerBlind : PerLane Bool := ⟨true, true⟩
  /-- a host token move has been accepted and waits (R349) -/
  moveReq : Option Lane := none
  /-- the owner the lines were last driven away from, while a move is in progress -/
  moveFrom : Option Lane := none
  /-- instants of the automatic resets of each lane (R336) -/
  resets : PerLane (List Nat) := ⟨[], []⟩
  /-- holds of each set: lane failed or in reset, torque ceiling (R368), interlock -/
  holdFail : PerLane Bool := ⟨false, false⟩
  holdTq : PerLane Bool := ⟨false, false⟩
  holdIl : Bool := false
  /-- the mask of legs permitted to short, per set (R248) -/
  mask : PerLane (BitVec 3) := ⟨0, 0⟩
  /-- STO applied and latched; SS1 running; a reaction latched and awaiting acknowledgement (R372) -/
  sto : Bool := false
  ss1 : Bool := false
  /-- SAF_STAT.STATE and SAF_STAT.CAUSE as the monitor holds them (R372, R385) -/
  safState : Nat := 0
  safCause : Nat := 0
  /-- limit violations and other lasting causes judged present at their last check -/
  causes : List Nat := []
  /-- instant of the acknowledgement begun in each lane (R372) -/
  ackAt : PerLane (Option Nat) := ⟨none, none⟩
  /-- the lanes whose acknowledgement that begun one needs (R372) -/
  ackNeed : PerLane Bool := ⟨false, false⟩
  slpAt : PerLane (Option Nat) := ⟨none, none⟩
  /-- a discrepancy of the STO pins is latched (R358) -/
  disc : Bool := false
  /-- at least two speed sources are valid, and the least favourable mechanical speed, FP32 min⁻¹ (R362, R385) -/
  diverse : Bool := false
  spd : Word := 0
  /-- contactor outputs with a latched test failure (R371) -/
  kFault : BitVec 6 := 0
  /-- the mean total torque ceiling last formed, FP32 N·m (R368, R385) -/
  tqb : Word := 0
  /-- the hold of set A is freewheel for a standby bridge that shorts the machine (R338) -/
  freeA : Bool := false
  /-- the steps of clearing a latched discrepancy: pins low together, then high together (R358) -/
  discLow : Bool := false
  discClear : Bool := false
  /-- consecutive comparisons above SPD_TOL (R362) -/
  spdCnt : Nat := 0
  /-- position estimate of each lane, in 2⁻³² of 1/256 revolution (R365) -/
  pos : PerLane Int := ⟨0, 0⟩
  sst : SstState := {}
  /-- windows of R74 that point at the monitor's own clock, and windows that clear the suspicion -/
  clkBad : Nat := 0
  clkGood : Nat := 0
  clkSuspect : Bool := false
  kTest : Vector KTest 6 := Vector.replicate 6 {}
  /-- contactor demands that the token holder's charger asks for: K3, K4, K5 -/
  chgK : PerLane (BitVec 6) := ⟨0, 0⟩
  /-- the last SAF_K_DEM.REQ of each lane, none before the lane has run (R370) -/
  kReq : PerLane (Option (BitVec 6)) := ⟨none, none⟩
  /-- torque ceilings collected over FILT: FP32 sums of set 1 and set 2 in N·m, and their number (R368) -/
  tqSum : Word × Word := (0, 0)
  tqCnt : Nat := 0
  /-- instant of the last zero crossing of MON_IU1 and MON_IU2, and the sign of the last sample (R215) -/
  crossAt : Vector (Option Nat) 2 := Vector.replicate 2 none
  crossNeg : Vector (Option Bool) 2 := Vector.replicate 2 none
deriving DecidableEq, Repr

/-- A lane die. -/
structure LaneState where
  hold : Hold := {}
  boot : BootState := {}
  regs : RegFile := []
  /-- bytes of the windows, by page-map address (R85) -/
  mem : List Host.Cell := []
  /-- bytes of the flash, by flash offset (R452) -/
  flash : List Host.Cell := []
  pulses : List Pulse := []
  /-- pages whose configured STOP waits for the next fast-cycle start (R460) -/
  stopPend : List Nat := []
  /-- source changes that wait to be sent as EVENT frames, oldest first (R410) -/
  evq : List EvItem := []
  shadows : List Shadow := []
  waiting : List Access := []
  /-- addresses of the dual halves this lane has passed and times (R97) -/
  timedHalves : List Nat := []
  sess : Vector Sess 4 := Vector.replicate 4 {}
  /-- the answer of the last access (R94) -/
  answer : Answer := {}
  red : RedState := {}
  saf : SafLines := {}
  cls : Vector ClsConn 8 := Vector.replicate 8 {}
  trc : TrcState := {}
  eng : EngState := {}
  fbk : FbkState := {}
  smp : SmpState := {}
  dcl : DclState := {}
  chg : ChgState := {}
  act : Vector ActState 2 := Vector.replicate 2 {}
  can : Vector CanState 2 := Vector.replicate 2 {}
  ring : RingState := {}
  /-- the bulk descriptor processed last (R415) -/
  bulkLast : Option (Fin 64) := none
  /-- an IN frame with this lane's own number has been met since nPOR: it forwards frames and sends none (R411) -/
  dup : Bool := false
  /-- loops asked to close at the next fast-cycle start (R176) -/
  loopReq : Word := 0
  cap : Vector CapState 8 := Vector.replicate 8 {}
  /-- of each bank: the next word to scrub, and when the pass began (R446) -/
  scrub : Vector (Nat × Nat) 16 := Vector.replicate 16 (0, 0)
  /-- times of the interlock events of each leg in this lane's fabric (R245): (leg, time), LV legs from 17 -/
  legEvents : List (Nat × Nat) := []
deriving DecidableEq, Repr

/-- The machine. -/
structure State where
  /-- the module's time base, 12.5 ns counts -/
  time : Nat := 0
  /-- what the ring servo has added to each lane's time counter (R401) -/
  timeOfs : PerLane Int := ⟨0, 0⟩
  lanes : PerLane LaneState := ⟨{}, {}⟩
  mon : MonState := {}
  hv : Vector HvIsl 34 := Vector.replicate 34 {}
  lv : LvIsl := {}
  sns : Vector SnsIsl 7 := Vector.replicate 7 {}
  aon : Aon := {}
  /-- the model's own counter of the free values it has used -/
  free : Nat := 0
  /-- the commands that wait, first in, first out -/
  pending : List Instr := []
deriving DecidableEq, Repr

/-- The machine right after reset. -/
def State.reset : State := {}

end Sys2Proof.Machine
end

