-- ==== Sys2Proof/Machine/Operands.lean ====
section
/-! DEFINITION. How an access names what it reaches: page-map offsets (R85, R86), registers and their fields, windows, and
the sparse files that hold them. -/
namespace Sys2Proof.Machine

/-- The page a page-map offset lies in (R85); none outside the table and in the windows. -/
def pageAt (addr : Nat) : Option Page :=
  match addr / 0x1000 with
  | 0x00 => some .sys | 0x01 => some .clk | 0x02 => some .pwr | 0x03 => some .rst | 0x04 => some .evc
  | 0x05 => some .mem | 0x06 => some .dir
  | 0x10 => some (.ce 0) | 0x11 => some (.ce 1) | 0x12 => some (.ce 2) | 0x13 => some (.ce 3)
  | 0x14 => some (.ce 4) | 0x15 => some (.ce 5) | 0x16 => some (.ce 6) | 0x17 => some (.ce 7)
  | 0x20 => some (.trc 0) | 0x21 => some (.trc 1) | 0x22 => some (.trc 2) | 0x23 => some (.trc 3)
  | 0x24 => some (.fbk 0) | 0x25 => some (.fbk 1) | 0x28 => some (.smp 0) | 0x29 => some (.smp 1)
  | 0x70 => some .dcl | 0x71 => some .afe | 0x72 => some .dab | 0x73 => some .chg | 0x74 => some .act
  | 0x80 => some .red | 0x81 => some .conj | 0x90 => some .saf | 0x91 => some .cls
  | 0xA0 => some .ring | 0xA1 => some .bulk | 0xB0 => some (.can 0) | 0xB1 => some (.can 1)
  | 0xC0 => some (.mon 0) | 0xC1 => some (.mon 1) | 0xC2 => some (.mon 2) | 0xC3 => some (.mon 3)
  | p =>
    if h : 0x30 ≤ p ∧ p < 0x30 + 34 then some (.gdh ⟨p - 0x30, by omega⟩)
    else if h : 0x58 ≤ p ∧ p < 0x58 + 7 then some (.sns ⟨p - 0x58, by omega⟩)
    else if h : 0x60 ≤ p ∧ p < 0x60 + 12 then some (.gdl ⟨p - 0x60, by omega⟩)
    else none

/-- PG_ID.TYPE of a page (R85). -/
def Page.type : Page → Nat
  | .sys => 0x01 | .clk => 0x02 | .pwr => 0x03 | .rst => 0x04 | .evc => 0x05 | .mem => 0x06 | .dir => 0x07
  | .ce _ => 0x10 | .trc _ => 0x11 | .fbk _ => 0x12 | .smp _ => 0x13 | .gdh _ => 0x20 | .sns _ => 0x22 | .gdl _ => 0x21
  | .dcl => 0x30 | .afe => 0x31 | .dab => 0x32 | .chg => 0x33 | .act => 0x34 | .red => 0x40 | .conj => 0x41
  | .saf => 0x50 | .cls => 0x51 | .ring => 0x60 | .bulk => 0x61 | .can _ => 0x70 | .mon _ => 0x80

/-- PG_ID.INSTANCE of a page (R88). -/
def Page.inst : Page → Nat
  | .ce i => i.val | .trc i => i.val | .fbk i => i.val | .smp i => i.val | .gdh n => n.val | .sns n => n.val
  | .gdl n => n.val | .can c => c.val | .mon i => i.val | _ => 0

/-- The first offset of a page (R85). -/
def Page.base : Page → Nat
  | .sys => 0x00000 | .clk => 0x01000 | .pwr => 0x02000 | .rst => 0x03000 | .evc => 0x04000 | .mem => 0x05000
  | .dir => 0x06000 | .ce i => 0x10000 + i.val * 0x1000 | .trc i => 0x20000 + i.val * 0x1000
  | .fbk i => 0x24000 + i.val * 0x1000 | .smp i => 0x28000 + i.val * 0x1000 | .gdh n => 0x30000 + n.val * 0x1000
  | .sns n => 0x58000 + n.val * 0x1000 | .gdl n => 0x60000 + n.val * 0x1000 | .dcl => 0x70000 | .afe => 0x71000
  | .dab => 0x72000 | .chg => 0x73000 | .act => 0x74000 | .red => 0x80000 | .conj => 0x81000 | .saf => 0x90000
  | .cls => 0x91000 | .ring => 0xA0000 | .bulk => 0xA1000 | .can c => 0xB0000 + c.val * 0x1000
  | .mon i => 0xC0000 + i.val * 0x1000

/-- Pages that live once in the monitor and are seen through both lanes (R85, R87). -/
def Page.monServed : Page → Bool
  | .gdh _ | .sns _ | .gdl _ | .mon _ => true
  | _ => false

/-- An address the monitor serves. -/
def monAddr (addr : Nat) : Bool :=
  match pageAt addr with
  | some p => p.monServed
  | none => false

/-- The low-side traction islands, which alone have an OVS input (R249). -/
def lowTraction (n : Nat) : Bool := n < 12 && n % 2 == 1

/-- Fields that exist only in some pages of an array, or only in some registers of it (R155, R157, R256, R257). -/
def fieldPresent (p : Page) (off : Nat) (f : FieldDesc) : Bool :=
  match p with
  | .gdh n => off != 0x050 || lowTraction n.val
  | .gdl n => if off == 0x044 then n.val % 2 == 0
              else if off == 0x040 && f.lo == 24 then n.val == 0 || n.val == 6 else true
  | _ => true

/-- The reset value of a field that depends on which register of an array it lies in (R154, R454). -/
def fieldReset (p : Page) (off : Nat) (f : FieldDesc) : Nat :=
  match p with
  | .mem => if 0x100 ≤ off && off < 0x200 && off % 0x20 == 4 && f.lo == 0 then (off - 0x100) / 0x20 * 0x20 else f.reset
  | .smp i => if i.val == 0 && 0x100 ≤ off && off % 0x10 == 0 && f.lo == 0 && f.w == 1 then
                (if off < 0x100 + 19 * 0x10 then 1 else 0) else f.reset
  | _ => f.reset

/-- The descriptor that covers an offset of a page, from 0x040 up. -/
def descAt (p : Page) (off : Nat) : Option RegDesc :=
  (regsOf p).find? (fun d => d.off ≤ off && (off - d.off) % d.stride == 0 && (off - d.off) / d.stride < d.count)

/-- The fields of the register at an offset of a page; none where the offset is unmapped. The MEM channel registers are an
array of arrays: window w's four words lie at 0x10C + w × 0x20 + k × 4 (R454). -/
def fieldsAt (p : Page) (off : Nat) : Option (List FieldDesc) :=
  match p with
  | .mem =>
    if 0x100 ≤ off && off < 0x200 then
      let o := off % 0x20
      if o == 0x0C || o == 0x10 || o == 0x14 || o == 0x18 then (descAt p 0x10C).map (·.fields)
      else (descAt p (0x100 + o)).map (·.fields)
    else (descAt p off).map (·.fields)
  | _ => (descAt p off).map (fun d => d.fields.filter (fieldPresent p off))

/-- Whether a page assigns LOCK0: each page whose register tables have RWL fields does, and the other lock bits are
unassigned (R88). -/
def hasLock0 (p : Page) : Bool := (regsOf p).any (fun d => d.fields.any (fun f => f.acc == .rwl))

/-- The event bits of a page that have a source (R88, R456, R463). -/
def evMask (p : Page) : Word :=
  let low := fun (n : Nat) => BitVec.ofNat 32 (2 ^ n - 1)
  match p with
  | .sys => low 6 | .clk => low 4 | .pwr => low 1 | .mem => low 7 | .red => low 15 | .conj => low 6 | .ring => low 8 | .bulk => low 3
  | .ce i => if i.val == 0 then low 8 else 0
  | .trc i => if i.val == 0 then low 8 else if i.val == 2 then low 10 else 0
  | .fbk i => if i.val == 0 then low 14 else 0
  | .smp i => if i.val == 0 then low 11 else 0
  | .gdh n => if lowTraction n.val then low 10 else low 10 &&& ~~~(1#32 <<< 8)
  | .gdl _ => low 8 | .can _ => low 10
  | .dcl => low 10 | .afe => low 1 | .dab => low 1 | .chg => low 8 | .act => low 10 | .saf => low 12 | .cls => low 5
  | .mon i => if i.val == 0 then low 32 else 0
  | _ => 0

/-- The fields of the page header's registers (R88). -/
def headerFields (p : Page) (off : Nat) : Option (List FieldDesc) :=
  match off with
  | 0x000 => some [fd 24 8 .ro 0, fd 23 1 .ro 0, fd 16 7 .ro 0, fd 8 8 .ro 0, fd 0 8 .ro 0]
  | 0x004 => some [fd 1 1 .wo 0, fd 0 1 .rwl 1]
  | 0x008 => some ([fd 31 1 .rwl 0, fd 30 1 .rwl 0] ++ if hasLock0 p then [fd 0 1 .rwl 0] else [])
  | 0x00C => some [fd 16 16 .ro 0, fd 4 1 .ro 0, fd 3 1 .ro 0, fd 2 1 .ro 0, fd 1 1 .ro 0, fd 0 1 .ro 0]
  | 0x010 => some [fd 0 32 .ro 0]
  | 0x014 => some [fd 0 32 .rw 0xFFFFFFFF]
  | 0x018 => some [fd 0 32 .w1c 0]
  | 0x01C => some [fd 0 32 .wo 0]
  | _ => none

/-- The fields of the register at a page-map offset; none where the offset is unmapped (R86). -/
def regFields (addr : Nat) : Option (List FieldDesc) :=
  if addr % 4 != 0 then none else
  match pageAt addr with
  | none => none
  | some p =>
    let off := addr % 0x1000
    if off < 0x040 then headerFields p off else fieldsAt p off

/-- The word made of a list of fields' reset values. -/
def resetOf (p : Page) (off : Nat) (fs : List FieldDesc) : Word :=
  fs.foldl (fun w f => setBits w f.lo f.w (fieldReset p off f)) 0

/-- The reset word of a register (R88 and the register tables). -/
def resetWord (addr : Nat) : Word :=
  match pageAt addr, regFields addr with
  | some p, some fs => if addr % 0x1000 == 0x014 then evMask p else resetOf p (addr % 0x1000) fs
  | _, _ => 0

/-- The word a file lists for an address, else its reset word. -/
def RegFile.read (f : RegFile) (addr : Nat) : Word :=
  match f.find? (fun c => c.1 == addr) with
  | some c => c.2
  | none => resetWord addr

/-- The file with one address removed. -/
def RegFile.erase : RegFile → Nat → RegFile
  | [], _ => []
  | c :: t, a => if c.1 == a then RegFile.erase t a else c :: RegFile.erase t a

/-- The file with a word put in its place by address. -/
def RegFile.insert : RegFile → Nat → Word → RegFile
  | [], a, w => [(a, w)]
  | c :: t, a, w =>
    if a < c.1 then (a, w) :: c :: t else if a == c.1 then (a, w) :: t else c :: RegFile.insert t a w

/-- The file after a word is written: a word equal to the reset word is not listed. -/
def RegFile.write (f : RegFile) (addr : Nat) (w : Word) : RegFile :=
  if w == resetWord addr then f.erase addr else f.insert addr w

/-- The file's canonical form: addresses strictly rising and no word equal to its reset word. -/
def RegFile.wf : RegFile → Bool
  | [] => true
  | [c] => c.2 != resetWord c.1
  | c :: d :: t => c.2 != resetWord c.1 && c.1 < d.1 && RegFile.wf (d :: t)

/-- The byte a memory lists for an address, else `dflt`. -/
def memRead (dflt : Byte) : List Host.Cell → Nat → Byte
  | [], _ => dflt
  | c :: t, a => if c.1 == a then c.2 else memRead dflt t a

/-- A memory with one address removed. -/
def memErase : List Host.Cell → Nat → List Host.Cell
  | [], _ => []
  | c :: t, a => if c.1 == a then memErase t a else c :: memErase t a

/-- A memory with a byte put in its place by address. -/
def memInsert : List Host.Cell → Nat → Byte → List Host.Cell
  | [], a, b => [(a, b)]
  | c :: t, a, b =>
    if a < c.1 then (a, b) :: c :: t else if a == c.1 then (a, b) :: t else c :: memInsert t a b

/-- A memory after one byte is written; a byte equal to what an unlisted address reads as is not listed. -/
def memWrite (dflt : Byte) (m : List Host.Cell) (a : Nat) (b : Byte) : List Host.Cell :=
  if b == dflt then memErase m a else memInsert m a b

/-- The canonical form of a memory: addresses strictly rising, no byte equal to what an unlisted address reads as. -/
def Memory.wf (dflt : Byte) : List Host.Cell → Bool
  | [] => true
  | [c] => c.2 != dflt
  | c :: d :: t => c.2 != dflt && c.1 < d.1 && Memory.wf dflt (d :: t)

/-- A 32-bit word of a memory, low byte first. -/
def memWord (dflt : Byte) (m : List Host.Cell) (a : Nat) : Word :=
  (memRead dflt m (a + 3)) ++ (memRead dflt m (a + 2)) ++ (memRead dflt m (a + 1)) ++ (memRead dflt m a)

/-- A memory after the bytes of a list are written from an address up. -/
def memWriteBytes (dflt : Byte) (m : List Host.Cell) (a : Nat) : List Byte → List Host.Cell
  | [] => m
  | b :: t => memWriteBytes dflt (memWrite dflt m a b) (a + 1) t

/-- The bytes of a memory from an address up. -/
def memBytes (dflt : Byte) (m : List Host.Cell) (a : Nat) : Nat → List Byte
  | 0 => []
  | n + 1 => memRead dflt m a :: memBytes dflt m (a + 1) n

/-- Byte `k` of a word, low byte first. -/
def byteOf (w : Word) (k : Nat) : Byte := (w >>> (8 * k)).setWidth 8

/-- The four bytes of a word, low byte first. -/
def wordBytes (w : Word) : List Byte := [byteOf w 0, byteOf w 1, byteOf w 2, byteOf w 3]

/-- A word with the bytes that `be` enables replaced by those of `d`. -/
def mergeBytes (old d : Word) (be : BitVec 4) : Word :=
  let pick := fun k => if be.getLsbD k then byteOf d k else byteOf old k
  pick 3 ++ pick 2 ++ pick 1 ++ pick 0

/-- The number that a list of bytes spells, low byte first. -/
def bytesNat : List Byte → Nat
  | [] => 0
  | b :: t => b.toNat + 256 * bytesNat t

/-- The low `n` bytes of a number, low byte first. -/
def natBytes : Nat → Nat → List Byte
  | 0, _ => []
  | n + 1, v => BitVec.ofNat 8 v :: natBytes n (v / 256)

end Sys2Proof.Machine
end

