-- ==== Sys2Proof/Machine/Ops.lean ====
section
/-! DEFINITION. The named operations over the state: reaching a lane, an island or a register, and the conditions that many
rules test. -/
namespace Sys2Proof.Machine

abbrev Out := Host.Outcome State Fault Refusal

/-- A lane's state. -/
def State.lane (s : State) (l : Lane) : LaneState := s.lanes.get l

/-- The state with a lane's state replaced. -/
def State.setLane (s : State) (l : Lane) (x : LaneState) : State := { s with lanes := s.lanes.set l x }

/-- The state with a lane's state changed. -/
def State.modLane (s : State) (l : Lane) (f : LaneState → LaneState) : State := s.setLane l (f (s.lane l))

def State.modMon (s : State) (f : MonState → MonState) : State := { s with mon := f s.mon }
def State.modRed (s : State) (l : Lane) (f : RedState → RedState) : State := s.modLane l (fun x => { x with red := f x.red })
def State.modTrc (s : State) (l : Lane) (f : TrcState → TrcState) : State := s.modLane l (fun x => { x with trc := f x.trc })
def State.modEng (s : State) (l : Lane) (f : EngState → EngState) : State := s.modLane l (fun x => { x with eng := f x.eng })
def State.modFbk (s : State) (l : Lane) (f : FbkState → FbkState) : State := s.modLane l (fun x => { x with fbk := f x.fbk })
def State.modSmp (s : State) (l : Lane) (f : SmpState → SmpState) : State := s.modLane l (fun x => { x with smp := f x.smp })
def State.modDcl (s : State) (l : Lane) (f : DclState → DclState) : State := s.modLane l (fun x => { x with dcl := f x.dcl })
def State.modChg (s : State) (l : Lane) (f : ChgState → ChgState) : State := s.modLane l (fun x => { x with chg := f x.chg })
def State.modAct (s : State) (l : Lane) (a : Fin 2) (f : ActState → ActState) : State :=
  s.modLane l (fun x => { x with act := x.act.set a (f x.act[a]) })
def State.modBoot (s : State) (l : Lane) (f : BootState → BootState) : State :=
  s.modLane l (fun x => { x with boot := f x.boot })
def State.modHold (s : State) (l : Lane) (f : Hold → Hold) : State := s.modLane l (fun x => { x with hold := f x.hold })
def State.modSaf (s : State) (l : Lane) (f : SafLines → SafLines) : State := s.modLane l (fun x => { x with saf := f x.saf })
def State.modRing (s : State) (l : Lane) (f : RingState → RingState) : State :=
  s.modLane l (fun x => { x with ring := f x.ring })
def State.modHv (s : State) (n : Fin 34) (f : HvIsl → HvIsl) : State := { s with hv := s.hv.set n (f s.hv[n]) }
def State.modLv (s : State) (f : LvIsl → LvIsl) : State := { s with lv := f s.lv }
def State.modLvCh (s : State) (n : Fin 12) (f : LvChan → LvChan) : State :=
  s.modLv (fun x => { x with ch := x.ch.set n (f x.ch[n]) })

def State.modSns (s : State) (n : Fin 7) (f : SnsIsl → SnsIsl) : State := { s with sns := s.sns.set n (f s.sns[n]) }
def State.modAon (s : State) (f : Aon → Aon) : State := { s with aon := f s.aon }

/-- The value of a lane in a pair. -/
def PerLane.mod {α : Type} (p : PerLane α) (l : Lane) (f : α → α) : PerLane α := p.set l (f (p.get l))

/-- A lane's time counter moved (R401). -/
def State.modOfs (s : State) (l : Lane) (f : Int → Int) : State := { s with timeOfs := s.timeOfs.mod l f }

/-- The stored word of a register as seen through a lane: the monitor's file for the pages it serves (R87). -/
def State.word (s : State) (l : Lane) (addr : Nat) : Word :=
  if monAddr addr then s.mon.regs.read addr else (s.lane l).regs.read addr

/-- A register's stored word replaced. -/
def State.putWord (s : State) (l : Lane) (addr : Nat) (w : Word) : State :=
  if monAddr addr then s.modMon (fun m => { m with regs := m.regs.write addr w })
  else s.modLane l (fun x => { x with regs := x.regs.write addr w })

/-- The stored value of a field. -/
def State.fld (s : State) (l : Lane) (f : Fld) : Nat := bits (s.word l f.addr) f.lo f.w

/-- A field set to a value, kept within its width. -/
def State.put (s : State) (l : Lane) (f : Fld) (v : Nat) : State :=
  s.putWord l f.addr (setBits (s.word l f.addr) f.lo f.w v)

/-- A field of one bit, read as a truth value. -/
def State.flag (s : State) (l : Lane) (f : Fld) : Bool := s.fld l f != 0

/-- A one-bit field set to a truth value. -/
def State.putFlag (s : State) (l : Lane) (f : Fld) (b : Bool) : State := s.put l f b.toNat

/-- A counter field advanced, stopping at its largest value. -/
def State.bump (s : State) (l : Lane) (f : Fld) (n : Nat := 1) : State := s.put l f (satAdd f.w (s.fld l f) n)

/-- The same over the pages the monitor serves, which are the same through both lanes. -/
def State.mfld (s : State) (f : Fld) : Nat := s.fld .A f
def State.mflag (s : State) (f : Fld) : Bool := s.flag .A f
def State.mput (s : State) (f : Fld) (v : Nat) : State := s.put .A f v
def State.mputFlag (s : State) (f : Fld) (b : Bool) : State := s.putFlag .A f b
def State.mbump (s : State) (f : Fld) (n : Nat := 1) : State := s.bump .A f n

/-- A change made in both lanes. -/
def State.both (s : State) (f : Lane → State → State) : State := f .B (f .A s)

/-- A lane is held in reset: a cause of R491 is in effect, nPOR is held, or TMODE was sampled high (R52). -/
def State.inReset (s : State) (l : Lane) : Bool :=
  let h := (s.lane l).hold
  h.pin || h.vs || h.soft || h.mon || h.clk || h.retired || s.aon.nPor || s.aon.tmode

/-- A lane is control-ready (R59). -/
def State.ready (s : State) (l : Lane) : Bool := !s.inReset l && (s.lane l).boot.phase == .ready

/-- RED_STAT.SELF of a lane (R351): 0 BOOT, 1 RESYNC, 2 RUNNING, 3 FAILED, 4 RETEST. -/
def State.self (s : State) (l : Lane) : Nat := s.fld l F.RED_STAT_SELF

/-- A lane is in FAILED (R333). -/
def State.failed (s : State) (l : Lane) : Bool := s.self l == 3

/-- A lane sends its command streams: it is control-ready, and neither in FAILED nor in RETEST (R78, R333, R348). -/
def State.streams (s : State) (l : Lane) : Bool := s.ready l && !s.failed l && s.self l != 4

/-- The monitor has declared a lane failed (R330). -/
def State.declared (s : State) (l : Lane) : Bool :=
  match l with
  | .A => s.mflag F.MON_RED_STAT_FAILED_A
  | .B => s.mflag F.MON_RED_STAT_FAILED_B

/-- The token state the monitor drives (R21, R353). -/
def State.token (s : State) : Lane := Lane.ofB (s.mflag F.MON_RED_STAT_TOKEN)

/-- The normal owner of a channel that has one (R16): H00 to H05 and H12 to H15 Lane A, H06 to H11 and H16 to H19 Lane B. -/
def fixedOwner (n : Nat) : Option Lane :=
  if n < 6 then some .A else if n < 12 then some .B else if n < 16 then some .A else if n < 20 then some .B else none

/-- The lane an HV island obeys: its normal owner, or the lane its latched token state names (R20). -/
def State.hvOwner (s : State) (n : Fin 34) : Lane :=
  match fixedOwner n.val with
  | some l => l
  | none => Lane.ofB s.hv[n].ownerB

/-- The lane an LV channel's bridge obeys (R20, R247). -/
def State.lvOwner (s : State) (n : Fin 12) : Lane := Lane.ofB (if n.val < 6 then s.lv.ownerB0 else s.lv.ownerB1)

/-- The lane holds the token as the islands report it: at least one group's islands name it (R345). -/
def State.holdsAny (s : State) (l : Lane) : Bool :=
  s.hvOwner 20 == l || s.hvOwner 26 == l || s.lvOwner 0 == l || s.lvOwner 6 == l

/-- The link between the lanes is up (R342). -/
def State.linkUp (s : State) (l : Lane) : Bool := s.flag l F.CONJ_STAT_LINK_UP

/-- A lane's relay path to the monitor is present (R351). -/
def State.monOk (s : State) (l : Lane) : Bool := s.flag l F.RED_STAT_MON_OK

/-- The set of a lane: its six traction islands, from channel 0 or 6 (R9). -/
def setBase : Lane → Nat
  | .A => 0
  | .B => 6

/-- The six channels of a lane's set. -/
def setChans : Lane → List (Fin 34)
  | .A => [0, 1, 2, 3, 4, 5]
  | .B => [6, 7, 8, 9, 10, 11]

/-- The four converter channels of a lane (R16). -/
def convChans : Lane → List (Fin 34)
  | .A => [12, 13, 14, 15]
  | .B => [16, 17, 18, 19]

/-- The token channels of the front end and of the dual active bridge. -/
def afeChans : List (Fin 34) := [20, 21, 22, 23, 24, 25]
def dabChans : List (Fin 34) := [26, 27, 28, 29, 30, 31, 32, 33]

/-- The lane whose set a traction channel belongs to. -/
def setOf (n : Nat) : Lane := if n < 6 then .A else .B

/-- The monitor holds a set (R248, R356, R368, R369): its lane is failed or in reset or not yet released, STO is applied,
the set's torque ceiling was exceeded, or the interlock is in effect. -/
def State.held (s : State) (l : Lane) : Bool :=
  s.mon.alive && (s.mon.holdFail.get l || s.mon.sto || s.mon.holdTq.get l || s.mon.holdIl)

/-- The safe-state mode the monitor selects: true for ASC (R214). -/
def State.asc (s : State) : Bool := s.mflag F.MON_SST_STAT_SEL

/-- A fresh free value and the state that has used it. -/
def State.fresh (s : State) : Word × State := (Config.freeWord s.free, { s with free := s.free + 1 })

/-- A lane's time counter, 12.5 ns counts (R401, R435). -/
def State.stamp (s : State) (l : Lane) : BitVec 64 := BitVec.ofInt 64 (s.time + s.timeOfs.get l)

/-- A half that a lane has passed to the monitor is applied, or discarded (`lost`): the lane's timer ends, and the sessions' covering
PERIODs no longer wait for it (R97, R106). -/
def State.halfGone (s : State) (l : Lane) (addr : Nat) (lost : Bool) : State :=
  let cover := fun (e : Sess) => { e with periods := e.periods.map (fun p =>
    if p.halves.contains (l, addr) then
      { p with halves := p.halves.filter (· != (l, addr)), dualLost := p.dualLost || lost } else p) }
  let own := fun (e : Sess) =>
    if e.halves.contains addr then { e with halves := e.halves.filter (· != addr), dualLost := e.dualLost || lost } else e
  let s := s.both (fun k s => s.modLane k (fun x => { x with sess := x.sess.map cover }))
  s.modLane l (fun x => { x with sess := x.sess.map own, timedHalves := x.timedHalves.filter (· != addr) })

/-- The 12.5 ns counts in a number of microseconds and of milliseconds. -/
def us (n : Nat) : Nat := n * 80
def ms (n : Nat) : Nat := n * 80000

end Sys2Proof.Machine
end

