-- ==== Sys2Proof/Machine/Flags.lean ====
section
/-! DEFINITION. Events: header bits, the lane's 96 sources and the monitor's 32, counters, the fault log, routing and
configured reactions (chapter 19). -/
namespace Sys2Proof.Machine

/-- A header bit: the base of its page and its place. -/
structure Ev where
  page : Nat
  bit : Nat
deriving DecidableEq, Repr

namespace E
def SYS_DEVNUM_UNSTABLE : Ev := ⟨0x00000, 0⟩
def SYS_IMAGE_FALLBACK : Ev := ⟨0x00000, 1⟩
def SYS_IMAGE_INVALID : Ev := ⟨0x00000, 2⟩
def SYS_IMAGE_MISMATCH : Ev := ⟨0x00000, 3⟩
def SYS_ACCESS_REJECT : Ev := ⟨0x00000, 4⟩
def SYS_MP_LOAD : Ev := ⟨0x00000, 5⟩
def CLK_XTAL_FAIL : Ev := ⟨0x01000, 0⟩
def CLK_LANE_DEV : Ev := ⟨0x01000, 1⟩
def CLK_PEER_DEV : Ev := ⟨0x01000, 2⟩
def CLK_MON_DEV : Ev := ⟨0x01000, 3⟩
def PWR_DROOP : Ev := ⟨0x02000, 0⟩
def MEM_ECC_CORR : Ev := ⟨0x05000, 0⟩
def MEM_ECC_UNCORR : Ev := ⟨0x05000, 1⟩
def MEM_SCRUB_LATE : Ev := ⟨0x05000, 2⟩
def MEM_PWR_REFUSED : Ev := ⟨0x05000, 3⟩
def MEM_CAP_TRIG : Ev := ⟨0x05000, 4⟩
def MEM_CAP_DONE : Ev := ⟨0x05000, 5⟩
def MEM_DP_COLLIDE : Ev := ⟨0x05000, 6⟩
def CE_OVERRUN : Ev := ⟨0x10000, 0⟩
def CE_NONFINITE : Ev := ⟨0x10000, 1⟩
def CE_COEF_CLOSED : Ev := ⟨0x10000, 2⟩
def CE_SP_CLIP : Ev := ⟨0x10000, 3⟩
def CE_SP_FAULT : Ev := ⟨0x10000, 4⟩
def CE_TEST_FAIL : Ev := ⟨0x10000, 5⟩
def CE_TABLE_INVALID : Ev := ⟨0x10000, 6⟩
def CE_RAMP_BRAKE : Ev := ⟨0x10000, 7⟩
def RED_PEER_FAILED : Ev := ⟨0x80000, 0⟩
def RED_SELF_FAILED : Ev := ⟨0x80000, 1⟩
def RED_TOKEN_MOVED : Ev := ⟨0x80000, 2⟩
def RED_SPLIT : Ev := ⟨0x80000, 3⟩
def RED_SPLIT_END : Ev := ⟨0x80000, 4⟩
def RED_SPLIT_TIMEOUT : Ev := ⟨0x80000, 5⟩
def RED_PEER_RETURN : Ev := ⟨0x80000, 6⟩
def RED_RETURN_DONE : Ev := ⟨0x80000, 7⟩
def RED_PEER_RESET : Ev := ⟨0x80000, 8⟩
def RED_PEER_RESET_STUCK : Ev := ⟨0x80000, 9⟩
def RED_JOURNAL_FULL : Ev := ⟨0x80000, 10⟩
def RED_REPLAY : Ev := ⟨0x80000, 11⟩
def RED_SUBJ_DIVERGE : Ev := ⟨0x80000, 12⟩
def RED_COPY_STALE : Ev := ⟨0x80000, 13⟩
def RED_MON_LOST : Ev := ⟨0x80000, 14⟩
def CONJ_LINK_DOWN : Ev := ⟨0x81000, 0⟩
def CONJ_LINK_UP : Ev := ⟨0x81000, 1⟩
def CONJ_LOCK_LOST : Ev := ⟨0x81000, 2⟩
def CONJ_LOCK : Ev := ⟨0x81000, 3⟩
def CONJ_CRC : Ev := ⟨0x81000, 4⟩
def CONJ_HB_MISS : Ev := ⟨0x81000, 5⟩
def RING_CUT : Ev := ⟨0xA0000, 0⟩
def RING_HEAL : Ev := ⟨0xA0000, 1⟩
def RING_ORPHAN : Ev := ⟨0xA0000, 2⟩
def RING_CRC : Ev := ⟨0xA0000, 3⟩
def RING_LEN_DROP : Ev := ⟨0xA0000, 4⟩
def RING_TIME_STEP : Ev := ⟨0xA0000, 5⟩
def RING_DEV_DUP : Ev := ⟨0xA0000, 6⟩
def RING_RXQ_DROP : Ev := ⟨0xA0000, 7⟩
def BULK_DONE : Ev := ⟨0xA1000, 0⟩
def BULK_REJECT : Ev := ⟨0xA1000, 1⟩
def BULK_IMAGE_FAIL : Ev := ⟨0xA1000, 2⟩
def FBK_RES_LOS : Ev := ⟨0x24000, 0⟩
def FBK_RES_DOS : Ev := ⟨0x24000, 1⟩
def FBK_RES_LOT : Ev := ⟨0x24000, 2⟩
def FBK_ENC_GLITCH : Ev := ⟨0x24000, 3⟩
def FBK_ENC_FAULT : Ev := ⟨0x24000, 4⟩
def FBK_INDEX_MISMATCH : Ev := ⟨0x24000, 5⟩
def FBK_HALL_ILLEGAL : Ev := ⟨0x24000, 6⟩
def FBK_SSI_ERR : Ev := ⟨0x24000, 7⟩
def FBK_POS_DISAGREE : Ev := ⟨0x24000, 8⟩
def FBK_SRC_CHANGE : Ev := ⟨0x24000, 9⟩
def FBK_NO_SOURCE : Ev := ⟨0x24000, 10⟩
def FBK_POS_STALE : Ev := ⟨0x24000, 11⟩
def FBK_SPEED_RANGE : Ev := ⟨0x24000, 12⟩
def FBK_HALL_FAULT : Ev := ⟨0x24000, 13⟩
def SMP_RANGE : Ev := ⟨0x28000, 0⟩
def SMP_FROZEN : Ev := ⟨0x28000, 1⟩
def SMP_ISUM : Ev := ⟨0x28000, 2⟩
def SMP_IRESID : Ev := ⟨0x28000, 3⟩
def SMP_SNS_LOST : Ev := ⟨0x28000, 4⟩
def SMP_DCL_DISAGREE : Ev := ⟨0x28000, 5⟩
def SMP_REF_FAIL : Ev := ⟨0x28000, 6⟩
def SMP_SLIP : Ev := ⟨0x28000, 7⟩
def SMP_EDGE_WIN : Ev := ⟨0x28000, 8⟩
def SMP_CAL_DONE : Ev := ⟨0x28000, 9⟩
def SMP_CAL_FAIL : Ev := ⟨0x28000, 10⟩
def TRC_VLIM : Ev := ⟨0x20000, 0⟩
def TRC_DEC_MODEL : Ev := ⟨0x20000, 1⟩
def TRC_DEC_RESTORED : Ev := ⟨0x20000, 2⟩
def TRC_TLIM : Ev := ⟨0x20000, 3⟩
def TRC_GEOM_MISMATCH : Ev := ⟨0x20000, 4⟩
def TRC_MMAX_CLAMP : Ev := ⟨0x20000, 5⟩
def TRC_ILV_CHANGE : Ev := ⟨0x20000, 6⟩
def TRC_DRAG : Ev := ⟨0x20000, 7⟩
def TRC_SAFE_ENTRY : Ev := ⟨0x22000, 0⟩
def TRC_CATCH_DONE : Ev := ⟨0x22000, 1⟩
def TRC_GEN_CATCH : Ev := ⟨0x22000, 2⟩
def TRC_OBS_LOST : Ev := ⟨0x22000, 3⟩
def TRC_ACQ_DONE : Ev := ⟨0x22000, 4⟩
def TRC_ACQ_FAIL : Ev := ⟨0x22000, 5⟩
def TRC_START_FAIL : Ev := ⟨0x22000, 6⟩
def TRC_BRAKE_END : Ev := ⟨0x22000, 7⟩
def TRC_STALL : Ev := ⟨0x22000, 8⟩
def TRC_POL_DONE : Ev := ⟨0x22000, 9⟩
def GDH_SC (n : Nat) : Ev := ⟨0x30000 + n * 0x1000, 0⟩
def GDH_UVLO_P (n : Nat) : Ev := ⟨0x30000 + n * 0x1000, 1⟩
def GDH_UVLO_N (n : Nat) : Ev := ⟨0x30000 + n * 0x1000, 2⟩
def GDH_SHOOT_REQ (n : Nat) : Ev := ⟨0x30000 + n * 0x1000, 3⟩
def GDH_DT_TIMEOUT (n : Nat) : Ev := ⟨0x30000 + n * 0x1000, 4⟩
def GDH_LEG_FAULT (n : Nat) : Ev := ⟨0x30000 + n * 0x1000, 5⟩
def GDH_OT (n : Nat) : Ev := ⟨0x30000 + n * 0x1000, 6⟩
def GDH_STREAM (n : Nat) : Ev := ⟨0x30000 + n * 0x1000, 7⟩
def GDH_OVS (n : Nat) : Ev := ⟨0x30000 + n * 0x1000, 8⟩
def GDH_TMP_OPEN (n : Nat) : Ev := ⟨0x30000 + n * 0x1000, 9⟩
def GDL_BOOT_UV (n : Nat) : Ev := ⟨0x60000 + n * 0x1000, 0⟩
def GDL_DUTY_CLIP (n : Nat) : Ev := ⟨0x60000 + n * 0x1000, 1⟩
def GDL_UVLO (n : Nat) : Ev := ⟨0x60000 + n * 0x1000, 2⟩
def GDL_SHOOT_REQ (n : Nat) : Ev := ⟨0x60000 + n * 0x1000, 3⟩
def GDL_DT_TIMEOUT (n : Nat) : Ev := ⟨0x60000 + n * 0x1000, 4⟩
def GDL_LEG_FAULT (n : Nat) : Ev := ⟨0x60000 + n * 0x1000, 5⟩
def GDL_OC (n : Nat) : Ev := ⟨0x60000 + n * 0x1000, 6⟩
def GDL_STREAM (n : Nat) : Ev := ⟨0x60000 + n * 0x1000, 7⟩
def DCL_PHASE_STOP : Ev := ⟨0x70000, 0⟩
def DCL_IPK : Ev := ⟨0x70000, 1⟩
def DCL_OVERLOAD : Ev := ⟨0x70000, 2⟩
def DCL_SHED : Ev := ⟨0x70000, 3⟩
def DCL_SHED_ABORT : Ev := ⟨0x70000, 4⟩
def DCL_SENSE_ONE : Ev := ⟨0x70000, 5⟩
def DCL_STOP : Ev := ⟨0x70000, 6⟩
def DCL_VBAT_LOST : Ev := ⟨0x70000, 7⟩
def DCL_VREF_CLIP : Ev := ⟨0x70000, 8⟩
def DCL_OV : Ev := ⟨0x70000, 9⟩
def AFE_IPK : Ev := ⟨0x71000, 0⟩
def DAB_IPK : Ev := ⟨0x72000, 0⟩
def CHG_CONNECT : Ev := ⟨0x73000, 0⟩
def CHG_PILOT : Ev := ⟨0x73000, 1⟩
def CHG_K_FEEDBACK : Ev := ⟨0x73000, 2⟩
def CHG_GRID_DIP : Ev := ⟨0x73000, 3⟩
def CHG_GRID_TRIP : Ev := ⟨0x73000, 4⟩
def CHG_ISLAND : Ev := ⟨0x73000, 5⟩
def CHG_STOP : Ev := ⟨0x73000, 6⟩
def CHG_V2L : Ev := ⟨0x73000, 7⟩
def ACT_END_REACHED : Ev := ⟨0x74000, 0⟩
def ACT_MOVE_DONE : Ev := ⟨0x74000, 1⟩
def ACT_BLOCKED : Ev := ⟨0x74000, 2⟩
def ACT_MOVE_TIMEOUT : Ev := ⟨0x74000, 3⟩
def ACT_HALL_FAULT : Ev := ⟨0x74000, 4⟩
def ACT_LEARN_DONE : Ev := ⟨0x74000, 5⟩
def ACT_LEARN_FAIL : Ev := ⟨0x74000, 6⟩
def ACT_VLV : Ev := ⟨0x74000, 7⟩
def ACT_FLIM : Ev := ⟨0x74000, 8⟩
def ACT_POS_DISAGREE : Ev := ⟨0x74000, 9⟩
def SAF_STO : Ev := ⟨0x90000, 0⟩
def SAF_STO_DISC : Ev := ⟨0x90000, 1⟩
def SAF_SS1 : Ev := ⟨0x90000, 2⟩
def SAF_SLS : Ev := ⟨0x90000, 3⟩
def SAF_SDI : Ev := ⟨0x90000, 4⟩
def SAF_SLP : Ev := ⟨0x90000, 5⟩
def SAF_TORQUE : Ev := ⟨0x90000, 6⟩
def SAF_INTERLOCK : Ev := ⟨0x90000, 7⟩
def SAF_SPEED_DISAGREE : Ev := ⟨0x90000, 8⟩
def SAF_K_TEST : Ev := ⟨0x90000, 9⟩
def SAF_K_FEEDBACK : Ev := ⟨0x90000, 10⟩
def SAF_RESTART : Ev := ⟨0x90000, 11⟩
def CLS_CRC : Ev := ⟨0x91000, 0⟩
def CLS_SEQ : Ev := ⟨0x91000, 1⟩
def CLS_SID : Ev := ⟨0x91000, 2⟩
def CLS_WDOG : Ev := ⟨0x91000, 3⟩
def CLS_LANE_DIFF : Ev := ⟨0x91000, 4⟩
def CAN_RX (c : Nat) : Ev := ⟨0xB0000 + c * 0x1000, 0⟩
def CAN_RX_OVF (c : Nat) : Ev := ⟨0xB0000 + c * 0x1000, 1⟩
def CAN_TX_DONE (c : Nat) : Ev := ⟨0xB0000 + c * 0x1000, 2⟩
def CAN_TX_FAIL (c : Nat) : Ev := ⟨0xB0000 + c * 0x1000, 3⟩
def CAN_NO_ACK (c : Nat) : Ev := ⟨0xB0000 + c * 0x1000, 4⟩
def CAN_WARN (c : Nat) : Ev := ⟨0xB0000 + c * 0x1000, 5⟩
def CAN_ERR_PASSIVE (c : Nat) : Ev := ⟨0xB0000 + c * 0x1000, 6⟩
def CAN_BUS_OFF (c : Nat) : Ev := ⟨0xB0000 + c * 0x1000, 7⟩
def CAN_PROTO_EXC (c : Nat) : Ev := ⟨0xB0000 + c * 0x1000, 8⟩
def CAN_TXQ_FULL (c : Nat) : Ev := ⟨0xB0000 + c * 0x1000, 9⟩
def MON_DUAL_MISMATCH : Ev := ⟨0xC0000, 0⟩
def MON_DUAL_TIMEOUT : Ev := ⟨0xC0000, 1⟩
def MON_LANE_FAILED : Ev := ⟨0xC0000, 2⟩
def MON_LANE_RETIRED : Ev := ⟨0xC0000, 3⟩
def MON_ISOLATED : Ev := ⟨0xC0000, 4⟩
def MON_BOTH_LANES_RESET : Ev := ⟨0xC0000, 5⟩
def MON_CLK_LANE : Ev := ⟨0xC0000, 6⟩
def MON_CLK_SELF : Ev := ⟨0xC0000, 7⟩
def MON_STO : Ev := ⟨0xC0000, 8⟩
def MON_SS1 : Ev := ⟨0xC0000, 9⟩
def MON_SPEED : Ev := ⟨0xC0000, 10⟩
def MON_TORQUE : Ev := ⟨0xC0000, 11⟩
def MON_SET_HOLD : Ev := ⟨0xC0000, 12⟩
def MON_INTERLOCK : Ev := ⟨0xC0000, 13⟩
def MON_STO_DISC : Ev := ⟨0xC0000, 14⟩
def MON_CLAUSE : Ev := ⟨0xC0000, 15⟩
def MON_SST_CHANGE : Ev := ⟨0xC0000, 16⟩
def MON_UGEN : Ev := ⟨0xC0000, 17⟩
def MON_TOKEN_MOVE : Ev := ⟨0xC0000, 18⟩
def MON_HB_MISS : Ev := ⟨0xC0000, 19⟩
def MON_SNS_LOST : Ev := ⟨0xC0000, 20⟩
def MON_DCL_DISAGREE : Ev := ⟨0xC0000, 21⟩
def MON_K_TEST : Ev := ⟨0xC0000, 22⟩
def MON_K_FEEDBACK : Ev := ⟨0xC0000, 23⟩
def MON_PG_CHANGE : Ev := ⟨0xC0000, 24⟩
def MON_SUPPLY : Ev := ⟨0xC0000, 25⟩
def MON_ADC_REF : Ev := ⟨0xC0000, 26⟩
def MON_TEMP : Ev := ⟨0xC0000, 27⟩
def MON_ISLAND_DOWN : Ev := ⟨0xC0000, 28⟩
def MON_TOKEN_CODE : Ev := ⟨0xC0000, 29⟩
def MON_RESTART : Ev := ⟨0xC0000, 30⟩
def MON_SELF_TEST : Ev := ⟨0xC0000, 31⟩
end E

/-- The sources of each page's header bits, in bit order (R458). -/
def srcTable : List (Nat × List Nat) :=
  [(0x00000, [0, 1, 1, 1, 2, 3]),
   (0x01000, [4, 5, 6, 6]),
   (0x02000, [7]),
   (0x05000, [8, 9, 9, 10, 11, 11, 9]),
   (0x10000, [12, 13, 14, 15, 15, 16, 14, 15]),
   (0x80000, [17, 17, 18, 19, 19, 19, 20, 20, 21, 21, 22, 18, 22, 22, 23]),
   (0x81000, [24, 24, 25, 25, 26, 26]),
   (0xA0000, [27, 27, 28, 29, 29, 29, 29, 29]),
   (0xA1000, [30, 31, 31]),
   (0x24000, [32, 32, 32, 33, 33, 33, 34, 34, 35, 35, 36, 35, 35, 34]),
   (0x28000, [37, 37, 38, 38, 39, 39, 39, 40, 40, 40, 40]),
   (0x20000, [41, 42, 42, 41, 43, 41, 42, 42]),
   (0x22000, [43, 44, 44, 45, 44, 45, 45, 44, 41, 44]),
   (0x70000, [64, 65, 65, 66, 66, 67, 64, 67, 67, 68]),
   (0x71000, [69]),
   (0x72000, [69]),
   (0x73000, [70, 70, 71, 72, 72, 72, 71, 73]),
   (0x74000, [74, 74, 75, 75, 75, 74, 75, 76, 76, 76]),
   (0x90000, [77, 78, 77, 79, 79, 79, 80, 80, 78, 81, 81, 82]),
   (0x91000, [83, 83, 83, 84, 85])]

/-- The lane source a header bit belongs to (R456, R458). -/
def sourceOf (page bit : Nat) : Option Nat :=
  match pageAt page with
  | some (.gdh _) => if bit < 10 then some (46 + bit) else none
  | some (.gdl _) => if bit < 8 then some (56 + bit) else none
  | some (.can _) => if bit < 10 then some (86 + bit) else none
  | _ => match srcTable.find? (fun r => r.1 == page) with
    | some r => r.2[bit]?
    | none => none

/-- The header bits that a lane source gathers (R456). -/
def srcBits (src : Nat) : List Ev :=
  if 46 ≤ src && src < 56 then (List.range 34).map (fun n => ⟨0x30000 + n * 0x1000, src - 46⟩)
  else if 56 ≤ src && src < 64 then (List.range 12).map (fun n => ⟨0x60000 + n * 0x1000, src - 56⟩)
  else if 86 ≤ src && src < 96 then [⟨0xB0000, src - 86⟩, ⟨0xB1000, src - 86⟩]
  else srcTable.flatMap (fun r =>
    (List.range r.2.length).filterMap (fun b => if r.2[b]? == some src then some ⟨r.1, b⟩ else none))

/-- The header bits that a source gathers, with the monitor's bits as sources 96 to 127 (R463). -/
def allSrcBits (src : Nat) : List Ev := if src < 96 then srcBits src else [⟨0xC0000, src - 96⟩]

/-- The pulses that make RAW bits of a page read 1. -/
def State.pulsesOf (s : State) (l : Lane) (page : Nat) : List Pulse :=
  if monAddr page then s.mon.pulses else (s.lane l).pulses

/-- A header bit's RAW: its condition is present, or its pulse has not ended (R88). -/
def State.raw (s : State) (l : Lane) (e : Ev) : Bool :=
  bit (s.word l (e.page + 0x010)) e.bit ||
  (s.pulsesOf l e.page).any (fun p => p.page == e.page && p.bit == e.bit && s.time < p.until_)

/-- The EVT_RAW word of a page. -/
def State.rawWord (s : State) (l : Lane) (page : Nat) : Word :=
  (s.pulsesOf l page).foldl
    (fun w p => if p.page == page && s.time < p.until_ then w ||| (1#32 <<< p.bit) else w) (s.word l (page + 0x010))

/-- A source's RAW over its unmasked bits, as routes see it (R459). -/
def State.srcRaw (s : State) (l : Lane) (src : Nat) : Bool :=
  (allSrcBits src).any (fun e => s.raw l e && !bit (s.word l (e.page + 0x014)) e.bit)

/-- A source has an unmasked pending header bit (R459). -/
def State.srcPending (s : State) (l : Lane) (src : Nat) : Bool :=
  (allSrcBits src).any (fun e => bit (s.word l (e.page + 0x018)) e.bit && !bit (s.word l (e.page + 0x014)) e.bit)

/-- A bit of a four-register group in the EVC page, group src / 32. -/
def State.evcBit (s : State) (l : Lane) (base src : Nat) : Bool := bit (s.word l (base + src / 32 * 4)) (src % 32)

/-- The configured reaction of a source (R460): 0 NONE, 1 STOP, 2 SS1, 3 STO. -/
def State.reactOf (s : State) (l : Lane) (src : Nat) : Nat := s.fld l (F.EVC_REACT_REACT (src / 16) (src % 16))

/-- Whether any shadow of a page is pending, and whether any is armed (R88, R108). -/
def State.shadowIn (s : State) (l : Lane) (page : Nat) (armed : Bool) : Bool :=
  (s.lane l).shadows.any (fun x => x.addr / 0x1000 == page / 0x1000 && x.armed == armed)

/-- An island page whose island is not usable (R87, R88). -/
def State.notUsable (s : State) (p : Page) : Bool :=
  match p with
  | .gdh n => !s.hv[n].usable
  | .gdl _ => !s.lv.usable
  | .sns n => !s.sns[n].usable
  | _ => false

/-- PG_STAT of a page (R88). The block-specific half has no content in any chapter and is left open. A block soft reset
completes within the command that asks for it, so BUSY reads 0. -/
def State.pgStat (s : State) (l : Lane) (p : Page) : Word :=
  let b := fun (x : Bool) (n : Nat) => if x then (1#32 <<< n) else 0#32
  ((Config.pgStatBlk p.type).setWidth 32 <<< 16) ||| b (s.notUsable p) 4 ||| b (s.shadowIn l p.base true) 3 |||
  b (s.shadowIn l p.base false) 2 ||| b (s.word l (p.base + 0x008) != 0) 1

/-- The lane may send frames of its own (R51, R411). -/
def State.talks (s : State) (l : Lane) : Bool := s.aon.devnum.isSome && !(s.lane l).dup

/-- The path by which a lane's frames leave towards an end is cut (R412): the lane's own port, or the Conjunction link. -/
def State.pathCut (s : State) (l : Lane) (toEnd : Bool) : Bool :=
  if toEnd == (l == .B) then s.flag l F.RING_STAT_PORT_CUT else !s.linkUp l

/-- A frame sent towards an end, or dropped and counted where the path is cut (R412). -/
def State.send (s : State) (l : Lane) (toEnd : Bool) (f : Sent) : State :=
  if s.pathCut l toEnd then s.bump l F.RING_CNT_CUT_DROP
  else s.modRing l (fun r => { r with sent := r.sent ++ [f] })

/-- An EVENT frame sent (R410). -/
def State.sendEvent (s : State) (l : Lane) (toEnd : Bool) (x : EvItem) : State :=
  let mon := decide (x.src ≥ 96)
  let n := if mon then x.src - 96 else x.src
  (s.modRing l (fun r => { r with evSent := r.evSent + 1 })).send l toEnd
    (.event toEnd x.seq (BitVec.ofNat 7 n) x.rise mon x.ts)

/-- An event enters the EVENT path (R410): it is sent at once while fewer than two have been in this cycle, waits in the backlog
of 32, or is dropped. -/
def State.evIn (s : State) (l : Lane) (x : EvItem) : State :=
  let r := (s.lane l).ring
  let x := { x with seq := r.evSeq + 1 }
  let s := s.modRing l (fun r => { r with evSeq := r.evSeq + 1 })
  if !s.talks l then s else
  let wait := fun (s : State) =>
    if (s.lane l).evq.length ≥ 32 then s
    else (s.modLane l (fun y => { y with evq := y.evq ++ [x] })).bump l F.RING_CNT2_EVT_COAL
  match r.chosen with
  | some e => if r.evSent < 2 && (s.lane l).evq.isEmpty then s.sendEvent l e x else wait s
  | none => wait s

/-- The route of a change of a source's RAW to the ring: one EVENT frame per change (R459). -/
def State.routeRing (s : State) (l : Lane) (src : Nat) (before : Bool) : State :=
  if s.evcBit l 0x04080 src then
    let after := s.srcRaw l src
    if before == after then s
    else s.evIn l { src := src, rise := after, ts := s.stamp l }
  else s

/-- The fall that ends a pulse 1 µs after its rise is a change of its own (R459). -/
def State.routeFall (s : State) (l : Lane) (src : Nat) (before : Bool) : State :=
  if s.evcBit l 0x04080 src && !before && s.srcRaw l src then
    s.evIn l { src := src, rise := false, ts := s.stamp l + 80 }
  else s

/-- An entry written into the fault log (R465): the newest 512 are kept, and an overwritten one is counted. A header bit
that rises again less than 1 ms after its previous entry is not logged again. -/
def State.addLog (s : State) (l : Lane) (origin : Nat) (p : Page) (e : Ev) (src : Nat) (mon forced : Bool) (react : Nat) :
    State :=
  let key := (origin, e.page, e.bit)
  let recent := s.mon.logged.any (fun k => k.1 == key && s.time < k.2 + ms 1)
  if !s.mon.alive || recent then s else
  let noTime := s.inReset .A && s.inReset .B
  let lane := origin < 2
  let x : LogEntry :=
    { num := s.word .A F.MON_LOG_NEXT_NEXT.addr, ts := if noTime then BitVec.ofNat 64 (s.time / 80) else s.stamp (if lane then l else if s.inReset .A then .B else .A)
      origin := BitVec.ofNat 2 origin, tsSrc := noTime, forced := forced, source := BitVec.ofNat 7 src, mon := mon
      type := BitVec.ofNat 8 p.type, inst := BitVec.ofNat 7 p.inst, bit := BitVec.ofNat 5 e.bit
      react := BitVec.ofNat 2 react
      trc := if lane then BitVec.ofNat 8 (s.fld l F.TRC_SM_STAT_STATE) else 0
      saf := BitVec.ofNat 8 s.mon.safState
      red := if lane then BitVec.ofNat 8 (s.self l) else 0
      data := s.pgStat l p }
  let full := s.mon.log.length ≥ 512
  let s := s.modMon (fun m => { m with
    log := (x :: m.log).take 512
    logged := (key, s.time) :: m.logged.filter (fun k => k.1 != key) })
  let s := s.putWord .A F.MON_LOG_NEXT_NEXT.addr (x.num + 1)
  let s := s.mput F.MON_LOG_STAT_FILL s.mon.log.length
  if full then s.mbump F.MON_LOG_STAT_OVR else s

/-- A monitor-served or lane page's PEND bit set (R88). -/
def State.pend (s : State) (l : Lane) (e : Ev) : State :=
  s.putWord l (e.page + 0x018) (s.word l (e.page + 0x018) ||| (1#32 <<< e.bit))

/-- A capture window armed with TMODE 0b01 is triggered by a 0-to-1 transition of its source (R450). The function that
marks it triggered is written here once: the state, and the records still to take. -/
def State.capTrigger (s : State) (l : Lane) (w : Fin 8) : State :=
  if s.fld l (F.MEM_CAP_STAT_STATE w.val) == 1 then
    (s.put l (F.MEM_CAP_STAT_STATE w.val) 2).modLane l (fun x => { x with cap := x.cap.set w { x.cap[w] with post := 0 } })
  else s

/-- The count of a source's rises, the note of the last rise and the reaction that the rise executes (R460, R464). -/
def State.countRise (s : State) (l : Lane) (src : Nat) : State :=
  let s := s.bump l (F.EVC_CNT_CNT (src / 4) (src % 4))
  (s.put l F.EVC_STAT_LAST_SRC src).putFlag l F.EVC_STAT_LAST_MON false

/-- The configured reaction that a lane executes for a rise: none in FAILED, and no STOP for a gate channel that the lane
does not own (R460, R461). -/
def State.reactFor (s : State) (l : Lane) (src : Nat) (p : Page) : Nat :=
  let r := if s.failed l then 0 else s.reactOf l src
  match p with
  | .gdh n => if r == 1 && s.hvOwner n != l then 0 else r
  | _ => r

/-- A lane's reaction set going: STOP waits for the next fast-cycle start; SS1 and STO go onto the lane's safety request
line with cause 10 (R460). -/
def State.startReact (s : State) (l : Lane) (page r : Nat) : State :=
  if r == 0 then s else
  let s := s.bump l F.EVC_STAT_REACT_CNT
  if r == 1 then s.modLane l (fun x => { x with stopPend := if x.stopPend.contains page then x.stopPend else x.stopPend ++ [page] })
  else if r == 2 then s.modSaf l (fun x => { x with reqSs1 := true, cause := if x.reqSs1 || x.reqSto then x.cause else 10 })
  else s.modSaf l (fun x => { x with reqSto := true, cause := if x.reqSto then x.cause else 10 })

/-- The windows of a lane that a rise of a source triggers, and whether there is one (R450). -/
def State.capBySource (s : State) (l : Lane) (src : Nat) : State × Bool :=
  (List.finRange 8).foldl (fun (acc : State × Bool) w =>
    if acc.1.fld l (F.MEM_CAP_STAT_STATE w.val) == 1 && acc.1.fld l (F.MEM_CAP_CFG_TMODE w.val) == 1 &&
       acc.1.fld l (F.MEM_CAP_CFG_TSRC w.val) == src then (acc.1.capTrigger l w, true) else acc) (s, false)

/-- A 0-to-1 transition of a lane page's header bit: PEND, count, log, reaction (R456 to R465). -/
def State.laneRise (s : State) (l : Lane) (e : Ev) (forced : Bool) : State :=
  let s := s.pend l e
  match sourceOf e.page e.bit, pageAt e.page with
  | some src, some p =>
    let r := s.reactFor l src p
    let s := s.countRise l src
    let s := if s.evcBit l 0x04090 src then s.addLog l l.idx p e src false forced r else s
    s.startReact l e.page r
  | _, _ => s

/-- The source number that routes use for a header bit: monitor source b is 96 + b. -/
def routeSrc (e : Ev) : Option Nat :=
  match pageAt e.page with
  | some (.mon _) => some (96 + e.bit)
  | _ => sourceOf e.page e.bit

/-- The lanes whose ring route sees a header bit. -/
def routeLanes (l : Lane) (e : Ev) : List Lane := if monAddr e.page then [.A, .B] else [l]

/-- A change `f` of a header bit's RAW with the EVENT frames it gives (R459). -/
def State.routed (s : State) (l : Lane) (e : Ev) (pulse : Bool) (f : State → State) : State :=
  match routeSrc e with
  | none => f s
  | some src =>
    (routeLanes l e).foldl (fun t k =>
      if s.inReset k then t else
      let before := s.evcBit k 0x04080 src && s.srcRaw k src
      let t := t.routeRing k src before
      if pulse then t.routeFall k src before else t) (f s)

/-- The capture windows of a lane that a rise of a source triggers; their trigger raises MEM.CAP_TRIG with its EVENT frames,
and windows that wait on that event's source follow (R450, R459). -/
def State.capWake (s : State) (l : Lane) (src : Nat) : State :=
  let r := s.capBySource l src
  if !r.2 then r.1 else
  let t := E.MEM_CAP_TRIG
  let s := r.1.routed l t true (fun s =>
    let s := s.modLane l (fun x => { x with pulses := { page := t.page, bit := t.bit, until_ := s.time + us 1 } :: x.pulses })
    s.laneRise l t false)
  (s.capBySource l 11).1

/-- The rise of a lane page's header bit with the capture windows it triggers. -/
def State.laneRiseCap (s : State) (l : Lane) (e : Ev) (forced : Bool) : State :=
  let s := s.laneRise l e forced
  match sourceOf e.page e.bit with
  | none => s
  | some src => s.capWake l src

/-- A rise of a GDH or GDL header bit: it is one page seen through both lanes, so it raises the source in each lane that
is out of reset, and the monitor logs it once (R456, R465). -/
def State.islRise (s : State) (e : Ev) (forced : Bool) : State :=
  let s := s.pend .A e
  match sourceOf e.page e.bit, pageAt e.page with
  | some src, some p =>
    let live := fun l => !s.inReset l
    let rA := if live .A then s.reactFor .A src p else 0
    let rB := if live .B then s.reactFor .B src p else 0
    let logged := (live .A && s.evcBit .A 0x04090 src) || (live .B && s.evcBit .B 0x04090 src)
    let s := if live .A then s.countRise .A src else s
    let s := if live .B then s.countRise .B src else s
    let s := if logged then s.addLog .A 2 p e src false forced (max rA rB) else s
    let s := s.startReact .A e.page rA
    let s := s.startReact .B e.page rB
    let s := if live .A then s.capWake .A src else s
    if live .B then s.capWake .B src else s
  | _, _ => s

/-- A rise of one of the monitor's own sources: counted and always logged; it takes no configured reaction (R463). -/
def State.monRise (s : State) (e : Ev) (forced : Bool) : State :=
  let s := s.pend .A e
  let s := s.mbump (F.MON_CNT_CNT (e.bit / 4) (e.bit % 4))
  let s := s.both (fun l s => if s.inReset l then s else (s.put l F.EVC_STAT_LAST_SRC e.bit).putFlag l F.EVC_STAT_LAST_MON true)
  s.addLog .A 2 (.mon 0) e e.bit true forced 0

/-- A 0-to-1 transition of a header bit, by the kind of page it lies in. A page of a lane in reset, and a page of a monitor
that has stopped, raises nothing. -/
def State.rise (s : State) (l : Lane) (e : Ev) (forced : Bool) : State :=
  match pageAt e.page with
  | some (.mon _) => s.monRise e forced
  | some (.gdh _) | some (.gdl _) => s.islRise e forced
  | _ => s.laneRiseCap l e forced

/-- A header bit cannot be raised while its die is in reset or stopped. -/
def State.dead (s : State) (l : Lane) (e : Ev) : Bool := if monAddr e.page then !s.mon.alive else s.inReset l

/-- An event that reports an instant, or a forced rise: RAW reads 1 for 1 µs (R88, R89). While the source's condition is
present its RAW is 1 already, so nothing rises. -/
def State.pulseEv (s : State) (l : Lane) (e : Ev) (forced : Bool := false) : State :=
  if s.dead l e || bit (s.word l (e.page + 0x010)) e.bit then s else
  s.routed l e true (fun s =>
    let p : Pulse := { page := e.page, bit := e.bit, until_ := s.time + us 1 }
    let keep := fun (q : List Pulse) => p :: q.filter (fun x => s.time < x.until_ && !(x.page == p.page && x.bit == p.bit))
    let s := if monAddr e.page then s.modMon (fun m => { m with pulses := keep m.pulses })
             else s.modLane l (fun x => { x with pulses := keep x.pulses })
    s.rise l e forced)

/-- An event that reports a lasting condition: RAW follows the condition, and its coming is a rise (R88). -/
def State.levelEv (s : State) (l : Lane) (e : Ev) (on : Bool) : State :=
  if s.dead l e || bit (s.word l (e.page + 0x010)) e.bit == on then s else
  s.routed l e false (fun s =>
    let was := s.raw l e
    let w := s.word l (e.page + 0x010)
    let s := s.putWord l (e.page + 0x010) (if on then w ||| (1#32 <<< e.bit) else w &&& ~~~(1#32 <<< e.bit))
    if on && !was then s.rise l e false else s)

/-- A monitor source raised for an instant, and one that follows a condition. -/
def State.monEv (s : State) (e : Ev) : State := s.pulseEv .A e
def State.monLevel (s : State) (e : Ev) (on : Bool) : State := s.levelEv .A e on

end Sys2Proof.Machine
end

