-- ==== Sys2Proof/Machine/Stops.lean ====
section
/-! DEFINITION. How each function is stopped: loops open, a traction set enters SAFE, the converter and its phases stop, the
charger enters FAULT or ramps down, an actuator coasts, brakes or faults; and the monitor's contactor demands. Every
reaction of the safety, redundancy and event chapters uses these. -/
namespace Sys2Proof.Machine

/-- A loop is closed (R176). -/
def State.loopClosed (s : State) (l : Lane) (n : Nat) : Bool := bit (s.word l F.CE_LOOP_STAT_CLOSED.addr) n

/-- A loop opens at once, and a close still waiting is dropped (R176). -/
def State.loopOpen (s : State) (l : Lane) (n : Nat) : State :=
  let a := F.CE_LOOP_STAT_CLOSED.addr
  (s.putWord l a (s.word l a &&& ~~~(1#32 <<< n))).modLane l (fun x => { x with loopReq := x.loopReq &&& ~~~(1#32 <<< n) })

/-- A loop is asked to close, which takes effect at the next fast-cycle start (R176). -/
def State.loopAsk (s : State) (l : Lane) (n : Nat) : State :=
  s.modLane l (fun x => { x with loopReq := x.loopReq ||| (1#32 <<< n) })

/-- The gates of channels commanded off. -/
def State.gatesOff (s : State) (ns : List (Fin 34)) : State :=
  ns.foldl (fun s n => s.modHv n (fun h => { h with outOn := false })) s

/-- The traction state machine of a lane (R211): 0 OFF, 1 READY, 2 CATCH, 3 POLARITY, 4 ASC_ACQ, 5 START, 6 RUN,
7 STOPPING, 8 BRAKE, 9 SAFE. -/
def State.sm (s : State) (l : Lane) : Nat := s.fld l F.TRC_SM_STAT_STATE

/-- The state machine goes to a state; PREV keeps the old one, and BRAKE_MODE is 1 in BRAKE alone (R232). -/
def State.smGoto (s : State) (l : Lane) (st : Nat) : State :=
  let s := s.put l F.TRC_SM_STAT_PREV (s.sm l)
  (s.put l F.TRC_SM_STAT_STATE st).putFlag l F.TRC_SM_STAT_BRAKE_MODE (st == 8)

/-- The states in which the lane modulates its set (R211). -/
def smModulates (st : Nat) : Bool := st == 3 || st == 5 || st == 6 || st == 7

/-- Loops 1 and 2 follow the state machine: closed while it modulates (R176, R211). -/
def State.smLoops (s : State) (l : Lane) : State :=
  if smModulates (s.sm l) then (s.loopAsk l 1).loopAsk l 2 else (s.loopOpen l 1).loopOpen l 2

/-- The ramp-in factor, and RAMP as × 255 (R223, R232). -/
def State.setRamp (s : State) (l : Lane) (v : Nat) : State :=
  (s.modTrc l (fun t => { t with rampIn := v })).put l F.TRC_SM_STAT_RAMP (v * 255 / 1000000)

/-- What the lane's stream asks of a low-side traction switch outside modulation (R211): the line's mode in OFF, READY and
SAFE, or the lane's own selection where the relay path is lost (R343); ASC in ASC_ACQ and BRAKE. -/
def State.lowAsked (s : State) (l : Lane) : Bool :=
  let st := s.sm l
  let asc := if s.flag l F.RED_STAT_MON_SS then s.flag l F.TRC_SM_STAT_SS_SEL else s.asc
  st == 4 || st == 8 || ((st == 0 || st == 1 || st == 9) && asc)

/-- The gate of the high side of a low-side channel has been reported below threshold (R244). -/
def State.highOff (s : State) (n : Fin 34) : Bool :=
  match s.hv[n.val - 1]? with
  | some h => h.gateOff
  | none => true

/-- The switch of a traction island put where the rules now want it: under HOLD by mode and mask (R248), by its obeyed
stream while that is valid, else by the OVS rule (R83, R84). A latched short circuit or an undervoltage keeps it off. -/
def State.placeTraction (s : State) (n : Fin 34) : State :=
  let h := s.hv[n]
  let o := setOf n.val
  let low := n.val % 2 == 1
  let hold := s.held o && !h.lineLost
  let leg := (n.val - setBase o) / 2
  let on :=
    if !h.usable || h.scLatch || h.softOff then false
    else if !low then h.outOn && !hold && !h.lost && smModulates (s.sm o)
    else if hold then s.asc && (s.mon.mask.get o).getLsbD leg
    else if !h.lost then (if smModulates (s.sm o) then h.outOn else s.lowAsked o && (h.outOn || s.highOff n))
    else h.ascFree && (h.ascOvs || h.ovsAct || h.mode == some true)
  s.modHv n (fun h => { h with outOn := on, gateOff := h.gateOff && !on })

/-- The six switches of a set put where the rules want them, high sides first. -/
def State.placeSet (s : State) (l : Lane) : State :=
  let s := ((setChans l).filter (fun c => c.val % 2 == 0)).foldl (fun s c => s.placeTraction c) s
  ((setChans l).filter (fun c => c.val % 2 == 1)).foldl (fun s c => s.placeTraction c) s

/-- A set enters SAFE with a cause, from any state but OFF; TRC.SAFE_ENTRY is raised at every entry (R212). -/
def State.safeEntry (s : State) (l : Lane) (c : Nat) : State :=
  if s.inReset l || s.sm l == 0 || s.sm l == 9 then s else
  let s := s.smGoto l 9
  let s := s.put l F.TRC_SM_STAT_CAUSE c
  let s := s.setRamp l 0
  let s := (s.loopOpen l 1).loopOpen l 2
  let s := (s.gatesOff (setChans l)).placeSet l
  s.pulseEv l E.TRC_SAFE_ENTRY

/-- A set is made unhealthy by a cause, and enters SAFE. -/
def State.setFault (s : State) (l : Lane) (c : Nat) : State := s.safeEntry l c

/-- The two converter phases of a lane (R16): 1 and 2, or 3 and 4. -/
def ownPhases : Lane → List Nat
  | .A => [1, 2]
  | .B => [3, 4]

/-- The two channels of a converter phase m = 1 to 4 (R16). -/
def phaseChans (m : Nat) : List (Fin 34) :=
  match m with
  | 1 => [12, 13] | 2 => [14, 15] | 3 => [16, 17] | _ => [18, 19]

/-- The phase a converter channel belongs to. -/
def phaseOf (n : Nat) : Nat := (n - 12) / 2 + 1

/-- The lane that owns a phase. -/
def phaseLane (m : Nat) : Lane := if m ≤ 2 then .A else .B

def State.phaseActive (s : State) (l : Lane) (m : Nat) : Bool := bit (s.word l F.DCL_STAT_ACT.addr) (24 + (m - 1))
def State.setPhaseActive (s : State) (l : Lane) (m : Nat) (b : Bool) : State :=
  s.putFlag l ⟨F.DCL_STAT_ACT.addr, 24 + (m - 1), 1⟩ b
def State.phaseStopped (s : State) (l : Lane) (m : Nat) : Bool := bit (s.word l F.DCL_STAT_ACT.addr) (20 + (m - 1))

/-- A converter phase of a lane stops: gates off at once, latched, counted and reported (R274). -/
def State.phaseStop (s : State) (l : Lane) (m : Nat) : State :=
  if s.inReset l || s.phaseStopped l m then s else
  let s := s.gatesOff (phaseChans m)
  let s := s.setPhaseActive l m false
  let s := s.putFlag l ⟨F.DCL_STAT_ACT.addr, 20 + (m - 1), 1⟩ true
  let s := s.bump l F.DCL_CNT_STOP
  s.levelEv l E.DCL_PHASE_STOP true

/-- The converter stops in a lane by the fault path: all its gates off at once, without the ramp, and loop 3 opens (R270). -/
def State.dclStop (s : State) (l : Lane) : State :=
  if s.inReset l || s.fld l F.DCL_STAT_STATE == 0 then s else
  let s := s.gatesOff (convChans l)
  let s := (ownPhases l).foldl (fun s m => s.setPhaseActive l m false) s
  let s := (s.put l F.DCL_STAT_STATE 0).putFlag l F.DCL_STAT_OV false
  let s := (s.modDcl l (fun d => { d with leaving := none, ret := none })).putFlag l F.DCL_STAT_SHEDDING false
  (s.levelEv l E.DCL_OV false).loopOpen l 3

/-- DCL_CTRL.REG shown in both lanes, or with the link down in this lane alone (R287). -/
def State.setReg (s : State) (l : Lane) (b : Bool) : State :=
  let f := fun (k : Lane) (s : State) =>
    let s := if s.flag k F.DCL_CTRL_REG && !b then s.putWord k F.DCL_VREF_ACT_VREF_ACT.addr (s.word k F.DCL_UDC_UDC.addr) else s
    s.putFlag k F.DCL_CTRL_REG b
  let s := f l s
  if s.linkUp l && !s.inReset l.other then f l.other s else s

/-- Bits of a contactor word. -/
def kBit (n : Nat) : BitVec 6 := 1#6 <<< n

/-- The contactor demands of R370: K0, K1, K2 and, with K5_USE = 0, K5 while every lane that has run asks for it, a failed or
reset lane's last request being kept; K3, K4 and, with K5_USE = 1, K5 by the token holder's charger. -/
def State.kDemand (s : State) : BitVec 6 :=
  let use5 := bit (s.mon.regs.read F.SAF_K_CFG_K5_USE.addr) F.SAF_K_CFG_K5_USE.lo
  let hostMask : BitVec 6 := if use5 then 0b000111 else 0b100111
  let host := match s.mon.kReq.a, s.mon.kReq.b with
    | some x, some y => x &&& y
    | some x, none => x
    | none, some y => y
    | none, none => 0
  if s.aon.nPor then 0 else (host &&& hostMask) ||| (s.mon.chgK.get s.token &&& ~~~hostMask)

/-- SAF_K_DEM in the lanes: read-backs, outputs and effective demand (R385). -/
def State.showK (s : State) : State :=
  s.both (fun l s => if s.inReset l then s else
    ((s.put l F.SAF_K_DEM_FB s.aon.kfb.toNat).put l F.SAF_K_DEM_OUT s.aon.k.toNat).put l F.SAF_K_DEM_EFF s.kDemand.toNat)

/-- The outputs follow their demands (R370). A demand transition ends a test pulse or its check at once, and the test's
result is discarded (R371). -/
def State.driveK (s : State) : State :=
  let d := s.kDemand
  let old := s.aon.k
  let s := s.modAon (fun a => { a with k := d })
  State.showK <| (List.finRange 6).foldl (fun (s : State) (n : Fin 6) =>
    let t := s.mon.kTest[n]
    let was := if t.pulse then !old.getLsbD n.val else old.getLsbD n.val
    if was == d.getLsbD n.val then
      if t.pulse then s.modAon (fun a => { a with k := a.k ^^^ kBit n.val }) else s
    else s.modMon (fun m => { m with
      kTest := m.kTest.set n { t with pulse := false, check := false, lastDemand := some s.time } })) s

/-- A lane's charger asks for its contactors (R293, R296): bits 3, 4 and 5. -/
def State.askK (s : State) (l : Lane) (n : Nat) (on : Bool) : State :=
  (s.modMon (fun m => { m with chgK := m.chgK.mod l (fun k => if on then k ||| kBit n else k &&& ~~~(kBit n)) })).driveK

/-- S2 of the vehicle pilot circuit is opened or closed for the token holder (R292, R293). -/
def State.driveS2 (s : State) (l : Lane) (on : Bool) : State :=
  (s.putFlag l F.CHG_STAT_S2 on).modAon (fun a => { a with cpS2 := on })

/-- A charging session is beyond CONNECTED and has not ended in FAULT (R293, R356). -/
def State.chgSession (s : State) (l : Lane) : Bool :=
  let st := s.fld l F.CHG_STAT_STATE
  st != 0 && st != 1 && st != 9

/-- An end of charging is recorded (R294). -/
def State.chgEnd (s : State) (l : Lane) (c : Nat) : State :=
  let s := s.put l F.CHG_CAUSE_STOP c
  let s := s.bump l F.CHG_CNT_STOPS
  s.pulseEv l E.CHG_STOP

/-- The charger of a lane enters FAULT with a cause, ending a session: gates off, K3, K4 and S2 opened at once (R293, R294). -/
def State.chgFault (s : State) (l : Lane) (c : Nat) : State :=
  if s.inReset l || !s.chgSession l then s else
  let s := s.put l F.CHG_STAT_STATE 9
  let s := s.gatesOff (afeChans ++ dabChans)
  let s := (s.loopOpen l 4).loopOpen l 5
  let s := (s.put l F.AFE_STAT_STATE 0).put l F.DAB_STAT_STATE 0
  let s := ((s.askK l 3 false).askK l 4 false).askK l 5 false
  let s := s.driveS2 l false
  let s := (s.setReg l false).modChg l (fun x => { x with ibat := 0, downRate := none, tripped := false })
  s.chgEnd l c

/-- The charger of a lane ends a session by RAMPDOWN (R293, R294). -/
def State.chgRampdown (s : State) (l : Lane) (c : Nat) : State :=
  if s.inReset l || !s.chgSession l || s.fld l F.CHG_STAT_STATE == 7 || s.fld l F.CHG_STAT_STATE == 8 then s else
  let s := s.put l F.CHG_STAT_STATE 7
  let s := if s.fld l F.AFE_STAT_STATE == 0 then s else s.put l F.AFE_STAT_STATE 4
  let s := if s.fld l F.DAB_STAT_STATE == 0 then s else s.put l F.DAB_STAT_STATE 4
  let s := s.modChg l (fun x => { x with downRate := none, tripped := c == 6 || c == 7 })
  s.chgEnd l c

/-- The converter is stopped in a lane by a fault: DCL.STOP, and the charging of a token holder ends, cause 13 (R265, R280,
R294). -/
def State.dclFault (s : State) (l : Lane) : State :=
  if s.inReset l || s.fld l F.DCL_STAT_STATE == 0 then s else
  let s := (s.dclStop l).pulseEv l E.DCL_STOP
  if s.holdsAny l then s.chgFault l 13 else s

/-- The six channels of an actuator's bridge (R16). -/
def bridgeChans (a : Fin 2) : List (Fin 12) := if a.val == 0 then [0, 1, 2, 3, 4, 5] else [6, 7, 8, 9, 10, 11]

/-- A bridge's six outputs go low. -/
def State.bridgeOff (s : State) (a : Fin 2) : State :=
  (bridgeChans a).foldl (fun s n => s.modLvCh n (fun c => { c with outOn := false })) s

/-- The states in which an actuator is driven (R316): MOVE, HOME, LEARN_LO, LEARN_HI. -/
def State.actDriven (s : State) (l : Lane) (a : Fin 2) : Bool :=
  let st := s.fld l (F.ACT_STAT_STATE a.val)
  1 ≤ st && st ≤ 4

/-- An actuator goes to IDLE: its bridge coasts and loop a + 6 opens (R316). -/
def State.actIdle (s : State) (l : Lane) (a : Fin 2) : State :=
  if s.inReset l || s.fld l (F.ACT_STAT_STATE a.val) == 6 then s else
  ((s.put l (F.ACT_STAT_STATE a.val) 0).loopOpen l (a.val + 6)).bridgeOff a

/-- An actuator goes to BRAKE for HOLD_T: all three low sides on (R314). -/
def State.actBrake (s : State) (l : Lane) (a : Fin 2) : State :=
  let s := s.bridgeOff a
  let s := (bridgeChans a).foldl (fun s n => if n.val % 2 == 1 then s.modLvCh n (fun c => { c with outOn := true })
    else s.modLvCh n (fun c => { c with lowAt := some s.time })) s
  (s.put l (F.ACT_STAT_STATE a.val) 5).loopAsk l (a.val + 6)

/-- An actuator enters FAULT with a cause: bridge off, loop open (R314 to R321). -/
def State.actFault (s : State) (l : Lane) (a : Fin 2) (c : Nat) : State :=
  if s.inReset l then s else
  let s := (s.put l (F.ACT_STAT_STATE a.val) 6).put l (F.ACT_STAT_CAUSE a.val) c
  let s := s.bump l (F.ACT_CNT_FLT a.val)
  (s.loopOpen l (a.val + 6)).bridgeOff a

end Sys2Proof.Machine
end

