-- ==== Sys2Proof/Machine/Settle.lean ====
section
/-! DEFINITION. The two safety reactions, STO and SS1, as the monitor applies them (R356, R361), what the monitor publishes in
SAF_STAT, and how a command ends: requests that a rise has put on a lane's safety request line are heard. -/
namespace Sys2Proof.Machine

/-- A lane whose requests and values count at the monitor: out of reset and not declared failed (R357, R379). -/
def State.heard (s : State) (l : Lane) : Bool := !s.inReset l && !s.declared l

/-- A SAF or CLS field as the monitor holds it: what it has applied, kept across the reset of a lane (R97). -/
def State.safCfg (s : State) (f : Fld) : Nat := bits (s.mon.regs.read f.addr) f.lo f.w

/-- A CLAUSE receive connection of a lane that counts: enabled, and running or expired, or waiting with CLS_REQ = 1 (R377). -/
def State.clsCounts (s : State) (l : Lane) (n : Fin 8) : Bool :=
  s.flag l (F.CLS_CFG_EN n.val) && !s.flag l (F.CLS_CFG_DIR n.val) &&
  (s.fld l (F.CLS_STAT_STATE n.val) ≥ 2 || s.safCfg F.SAF_CFG_CLS_REQ == 1)

/-- The command data a connection contributes: its data in effect, without the RUN permit where CLS_REQ asks for permissive
telegrams that have not come yet, and after an expiry (R376, R377). -/
def State.clsWord (s : State) (l : Lane) (n : Fin 8) : Word :=
  let c := (s.lane l).cls[n]
  let none_ := if c.gone then !s.mon.ss1 else c.accepted < 2 && s.safCfg F.SAF_CFG_CLS_REQ == 1
  if none_ then c.data &&& ~~~1#32 else c.data

/-- What CLAUSE permits or limits (R378). -/
structure ClsView where
  run : Bool := true
  noSs1 : Bool := true
  /-- the lowest selected SLS limit, with its index -/
  sls : Option (Nat × Nat) := none
  sdiPos : Bool := true
  sdiNeg : Bool := true
  slp : Bool := false
  tlim : Nat := 0xFFFF
deriving DecidableEq, Repr

/-- The limit LIMn of SAF_SLS01 and SAF_SLS23. -/
def State.slsLim (s : State) (n : Nat) : Nat :=
  match n with
  | 0 => s.safCfg F.SAF_SLS01_LIM0 | 1 => s.safCfg F.SAF_SLS01_LIM1
  | 2 => s.safCfg F.SAF_SLS23_LIM2 | _ => s.safCfg F.SAF_SLS23_LIM3

/-- The more restrictive of two selections: the lower limit. -/
def minLim : Option (Nat × Nat) → Option (Nat × Nat) → Option (Nat × Nat)
  | none, y => y
  | x, none => x
  | some x, some y => if y.1 < x.1 then some y else some x

/-- A view narrowed by one connection's command data (R378, R379). -/
def ClsView.narrow (v : ClsView) (d : Word) (lim : Nat → Nat) : ClsView :=
  let n := bits d 3 2
  { run := v.run && bit d 0, noSs1 := v.noSs1 && bit d 1
    sls := if bit d 2 then minLim v.sls (some (lim n, n)) else v.sls
    sdiPos := v.sdiPos && bit d 5, sdiNeg := v.sdiNeg && bit d 6
    slp := v.slp || bit d 8, tlim := min v.tlim (bits d 16 16) }

/-- What one lane has accepted. -/
def State.clsLane (s : State) (l : Lane) : ClsView :=
  (List.finRange 8).foldl (fun (v : ClsView) (n : Fin 8) =>
    if s.clsCounts l n then v.narrow (s.clsWord l n) s.slsLim else v) {}

/-- The most restrictive of two views. -/
def ClsView.meet (v w : ClsView) : ClsView :=
  { run := v.run && w.run, noSs1 := v.noSs1 && w.noSs1, sls := minLim v.sls w.sls, sdiPos := v.sdiPos && w.sdiPos
    sdiNeg := v.sdiNeg && w.sdiNeg, slp := v.slp || w.slp, tlim := min v.tlim w.tlim }

/-- What the monitor applies: the most restrictive value of each field among the lanes it hears (R379). -/
def State.clsAll (s : State) : ClsView :=
  let v := if s.heard .A then s.clsLane .A else {}
  if s.heard .B then v.meet (s.clsLane .B) else v

/-- A cause of a latched reaction is present (R372): an STO pin is low, a CLAUSE permit is missing, or a limit judged at its
last check is violated. -/
def State.causePresent (s : State) : Bool :=
  !s.aon.sto1 || !s.aon.sto2 || !s.clsAll.run || !s.clsAll.noSs1 || !s.mon.causes.isEmpty ||
  (s.mon.disc && !s.mon.discClear)

/-- SAF_STAT.STATE by R372: 0 NORMAL, 1 SS1, 2 STO, 3 HELD. -/
def State.safStateNow (s : State) : Nat :=
  if s.mon.ss1 then 1 else if s.mon.sto then (if s.causePresent then 2 else 3)
  else if s.mon.holdTq.a || s.mon.holdTq.b then 3 else 0

/-- What the monitor sends on the command line of a lane and the lane shows in SAF_STAT (R357, R385). A lane whose command
line is lost keeps the last state it received. -/
def State.publishTo (s : State) (l : Lane) : State :=
  if s.inReset l || (s.lane l).saf.cmdLost || !s.mon.alive then s else
  let v := s.clsAll
  let s := s.put l F.SAF_STAT_STATE s.mon.safState
  let s := s.put l F.SAF_STAT_CAUSE (match (s.lane l).red.ownStop with
    | some c => c
    | none => if s.mon.disc && s.mon.safCause == 1 then 2 else s.mon.safCause)
  let s := (s.putFlag l F.SAF_STAT_STO1 s.aon.sto1).putFlag l F.SAF_STAT_STO2 s.aon.sto2
  let s := (s.putFlag l F.SAF_STAT_DISC s.mon.disc).putFlag l F.SAF_STAT_DIVERSE s.mon.diverse
  let s := s.put l F.SAF_STAT_K_FAULT s.mon.kFault.toNat
  let s := (s.putWord l F.SAF_SPD_ACT_SPD.addr s.mon.spd).putWord l F.SAF_TQB_TQB.addr s.mon.tqb
  let s := s.putFlag l F.SAF_STAT_INTERLOCK s.mon.holdIl
  let s := s.putFlag l F.SAF_STAT_SLS_ACT v.sls.isSome
  let s := s.put l F.SAF_STAT_SLS_SEL (match v.sls with | some x => x.2 | none => 0)
  let s := s.putFlag l F.SAF_STAT_SDI_POS v.sdiPos
  let s := s.putFlag l F.SAF_STAT_SDI_NEG v.sdiNeg
  let s := s.putFlag l F.SAF_STAT_SLP_ACT v.slp
  s.putFlag l F.SAF_STAT_CLS_PERMIT v.run

/-- The monitor's view of the reaction renewed and published through both lanes. -/
def State.publish (s : State) : State :=
  if !s.mon.alive then s else
  let s := s.modMon (fun m => { m with safState := s.safStateNow })
  (s.publishTo .A).publishTo .B

/-- The six islands of a set under HOLD: all six off first, and no leg permitted to short until its high side reports
(R248). An island that has lost the safe-state line does not see the hold. -/
def State.holdSet (s : State) (l : Lane) : State :=
  let s := s.modMon (fun m => { m with mask := m.mask.set l 0 })
  (setChans l).foldl (fun s n => s.modHv n (fun h =>
    if h.lineLost then h else { h with outOn := false, ascOvs := false, mode := some false })) s

/-- STO in one lane (R356): its set to SAFE with cause 4, its converter stopped, the charger in FAULT with cause 15 and the
actuators coasting where the lane holds the token. -/
def State.laneSto (s : State) (l : Lane) : State :=
  if s.inReset l then s else
  let s := s.levelEv l E.SAF_STO true
  let s := s.levelEv l E.SAF_SS1 false
  let s := s.setFault l 4
  let s := s.dclStop l
  let s := if s.holdsAny l then s.chgFault l 15 else s
  let s := (s.actIdle l 0).actIdle l 1
  s.modSaf l (fun x => { x with rampDone := false })

/-- The monitor applies STO with a cause (R356). An STO already applied keeps its cause, and takes up that of a new cause
that comes while only the acknowledgement is missing (R372). -/
def State.applySto (s : State) (cause : Nat) : State :=
  if !s.mon.alive then s else
  if s.mon.sto then
    let back := s.mon.safState == 3
    (s.modMon (fun m => { m with safCause := if back then cause else m.safCause })).publish
  else
  let s := s.modMon (fun m => { m with sto := true, ss1 := false, safCause := cause, ackAt := ⟨none, none⟩ })
  let s := s.monLevel E.MON_STO true
  let s := s.monLevel E.MON_SS1 false
  let s := (s.holdSet .A).holdSet .B
  let s := if (s.lane .A).saf.cmdLost then s else s.laneSto .A
  let s := if (s.lane .B).saf.cmdLost then s else s.laneSto .B
  s.publish

/-- SS1 in one lane (R361): a set in START or RUN ramps out in STOPPING, a set in CATCH, POLARITY, ASC_ACQ or BRAKE enters
SAFE with cause 4, and a set without torque has no ramp to do. -/
def State.laneSs1 (s : State) (l : Lane) : State :=
  if s.inReset l then s else
  let s := s.levelEv l E.SAF_SS1 true
  let st := s.sm l
  if st == 5 || st == 6 then
    ((s.smGoto l 7).modTrc l (fun t => { t with ss1Ramp := true })).modSaf l (fun x => { x with rampDone := false })
  else if st == 2 || st == 3 || st == 4 || st == 8 then
    (s.setFault l 4).modSaf l (fun x => { x with rampDone := true })
  else s.modSaf l (fun x => { x with rampDone := st != 7 })

/-- The monitor starts SS1 with a cause (R361). A trigger during an SS1 keeps the first cause and does not restart its
timer; during an STO nothing changes (R381). -/
def State.applySs1 (s : State) (cause : Nat) : State :=
  if !s.mon.alive || s.mon.ss1 || s.mon.sto then s else
  let s := s.modMon (fun m => { m with ss1 := true, safCause := cause })
  let s := s.monLevel E.MON_SS1 true
  let s := if (s.lane .A).saf.cmdLost then s else s.laneSs1 .A
  let s := if (s.lane .B).saf.cmdLost then s else s.laneSs1 .B
  s.publish

/-- A safety event raised in both lanes. -/
def State.safEv (s : State) (e : Ev) : State := s.both (fun l s => s.pulseEv l e)

/-- The events of a trigger, by its cause (R363 to R365, R368, R377, R378, R463). -/
def State.causeEv (s : State) (c : Nat) : State :=
  match c with
  | 3 | 4 | 5 => s.monEv E.MON_CLAUSE
  | 6 => (s.safEv E.SAF_SLS).monEv E.MON_SPEED
  | 7 => (s.safEv E.SAF_SDI).monEv E.MON_SPEED
  | 8 => (s.safEv E.SAF_SLP).monEv E.MON_SPEED
  | 9 => (s.safEv E.SAF_TORQUE).monEv E.MON_TORQUE
  | _ => s

/-- The requests on the lanes' safety request lines are heard: STO before SS1, from lanes that are running (R357). -/
def State.hearRequests (s : State) : State :=
  if !s.mon.alive then s else
  let x := (s.lane .A).saf
  let y := (s.lane .B).saf
  let a := s.heard .A
  let b := s.heard .B
  let clear := fun (l : Lane) (s : State) => s.modSaf l (fun v => { v with reqSto := false, reqSs1 := false })
  let s := s.both clear
  if a && x.reqSto then (s.causeEv x.cause).applySto x.cause
  else if b && y.reqSto then (s.causeEv y.cause).applySto y.cause
  else if a && x.reqSs1 then (s.causeEv x.cause).applySs1 x.cause
  else if b && y.reqSs1 then (s.causeEv y.cause).applySs1 y.cause
  else s

/-- The end of every command: requests raised by configured reactions are heard, those that the reaction itself raises
among them (R460). -/
def State.settle (s : State) : State :=
  let quiet := fun (l : Lane) => !(s.lane l).saf.reqSto && !(s.lane l).saf.reqSs1
  if quiet .A && quiet .B then s else s.hearRequests.hearRequests.hearRequests

/-- A command's answer: the state it leaves, with requests heard. -/
def done (s : State) : Out := .next s.settle

end Sys2Proof.Machine
end

