-- ==== Sys2Proof/Machine/Fail.lean ====
section
/-! DEFINITION. A continuous self-test failure takes a lane into FAILED (R333). -/
namespace Sys2Proof.Machine

/-- The RED_HEALTH bit of a self-test cause (R333, R351). -/
def healthBit (cause : Nat) : Option Nat := if 2 ≤ cause && cause ≤ 9 then some cause else none

/-- A continuous self-test failure with its cause: the lane enters FAILED, stops its command streams, and carries FAIL in its
next two heartbeats (R333). -/
def State.selfFail (s : State) (l : Lane) (cause : Nat) : State :=
  if !s.ready l || s.failed l then s else
  let s := (s.put l F.RED_STAT_SELF 3).put l F.RED_STAT_SELF_CAUSE cause
  let s := match healthBit cause with
    | some n => (s.putFlag l ⟨F.RED_HEALTH_ALL.addr, n, 1⟩ false).putFlag l F.RED_HEALTH_ALL false
    | none => s
  let s := s.modRed l (fun r => { r with failSend := 2 })
  s.levelEv l E.RED_SELF_FAILED true

/-- LOCKSTEP_MISMATCH: the lockstep checker of the management processor (R333). -/
def execLockstepMismatch (l : Lane) (s : State) : Out := done (s.selfFail l 2)

end Sys2Proof.Machine
end

