-- ==== Sys2Proof/Machine/Access.lean ====
section
/-! DEFINITION. How an access through a lane is taken or turned away before its own checks, and how it is answered
(R62, R93, R94, R408). -/
namespace Sys2Proof.Machine

/-- The answer of an access through a lane. -/
def State.reply (s : State) (l : Lane) (st : Status) (d : Word := 0) : State :=
  s.modLane l (fun x => { x with answer := { status := st, data := d } })

/-- A rejected write: nothing changes, the status is answered, and SYS.ACCESS_REJECT is raised, or CE.COEF_CLOSED for that
status (R93). BUSY means that the write was not taken and raises nothing. -/
def State.reject (s : State) (l : Lane) (st : Status) : State :=
  let s := s.reply l st
  match st with
  | .busy => s
  | .coefClosed => s.pulseEv l E.CE_COEF_CLOSED
  | _ => s.pulseEv l E.SYS_ACCESS_REJECT

/-- Why a write is rejected: a status alone, or with the event that goes with it: a full transmit queue (R428), or a full
journal of the peer (R339), or a bank that must stay on, with its cause (R448); or a law table of more than 512 entries (R175), or a
command of TRC_SM_CMD, which the peer judges for itself (R213). -/
inductive Rej where
  | status (st : Status)
  | txqFull (c : Fin 2)
  | journalFull
  | pwrRefused (bank cause : Nat)
  | tableCount
  | smCmd (c : Nat)
deriving DecidableEq, Repr

/-- What a checked write gives: the state with its effect, or the reason why nothing changes. -/
abbrev Eff := Except Rej State

/-- The status of a rejection. -/
def Rej.code : Rej → Status
  | .status st => st
  | .txqFull _ => .stateErr
  | .journalFull => .busy
  | .pwrRefused _ _ => .stateErr
  | .tableCount => .countErr
  | .smCmd _ => .stateErr

/-- A rejected write with its events. -/
def State.turnDown (s : State) (l : Lane) (r : Rej) : State :=
  match r with
  | .status st => s.reject l st
  | .txqFull c => (s.pulseEv l (E.CAN_TXQ_FULL c.val)).reject l .stateErr
  | .journalFull => ((s.bump l F.RED_JRNL_FULL_CNT).pulseEv l E.RED_JOURNAL_FULL).reject l .busy
  | .pwrRefused b c =>
    let s := ((s.put l F.MEM_PWR_STAT_LAST_BANK b).put l F.MEM_PWR_STAT_LAST_CAUSE c).bump l F.MEM_PWR_STAT_REF_CNT
    (s.pulseEv l E.MEM_PWR_REFUSED).reject l .stateErr
  | .tableCount => s.reject l .countErr
  | .smCmd _ => s.reject l .stateErr

/-- A checked write's outcome answered. -/
def State.settleWrite (s : State) (l : Lane) (e : Eff) : State :=
  match e with
  | .ok t => t.reply l .ok
  | .error r => s.turnDown l r

/-- The offset of the bulk window, and whether an address lies in the BULK page or in that window (R85). -/
def bulkAddr (addr : Nat) : Bool := addr / 0x1000 == 0xA1 || (0xC00000 ≤ addr && addr < 0xC40000)

/-- Whether a lane turns an access away as a whole: BUSY before control-ready, while its management processor restarts or is
overloaded; STATE_ERR for what boot-hold does not serve (R62) and for writes in FAILED (R408). -/
def State.turnAway (s : State) (l : Lane) (addr : Nat) (write retest : Bool) : Option Status :=
  let b := (s.lane l).boot
  match b.phase with
  | .starting => some .busy
  | .bootHold =>
    let page := addr / 0x1000
    if bulkAddr addr then none
    else if !write && (page == 0x00 || page == 0x03 || page == 0x80) then none
    else if write && addr == 0x004 then none
    else some .stateErr
  | .ready =>
    if b.warm || b.mpBusy then some .busy
    else if s.failed l && write && !bulkAddr addr && !retest then some .stateErr
    else none

/-- The place of a status in the order of R489; those that reject nothing come last. -/
def Status.rank : Status → Nat
  | .busy => 1 | .seqStale => 2 | .idErr => 3 | .addrErr => 4 | .islandDown => 5 | .ownerErr => 6 | .accErr => 7
  | .rsvErr => 8 | .countErr => 9 | .lenErr => 10 | .rangeErr => 11 | .lockErr => 12 | .coefClosed => 13 | .stateErr => 14
  | .ok | .dualPend | .dualFail | .notMirrored => 15

/-- The status that comes first in that order. -/
def Status.first (a b : Status) : Status := if b.rank < a.rank then b else a

/-- A write through a lane: no answer while the lane is in reset; turned away by the lane's state, with the first status that applies;
else handed on. -/
def State.writing (s : State) (l : Lane) (addr : Nat) (k : State → State) : State :=
  if s.inReset l then s else
  match s.turnAway l addr true false with
  | some st => s.reject l (st.first ((k s).lane l).answer.status)
  | none => k s

/-- The channel's function is disabled (R239, R245, R256): its traction state machine is OFF, its lane's converter is OFF or
STOPPED, the token holder's charger is disabled, or its actuator is not driven. -/
def State.fnDisabled (s : State) (n : Nat) : Bool :=
  if n < 12 then s.sm (setOf n) == 0
  else if n < 20 then
    let st := s.fld (phaseLane (phaseOf n)) F.DCL_STAT_STATE
    st == 0 || st == 4
  else
    let h := s.hvOwner (if n < 26 then 20 else 26)
    !s.flag h F.CHG_CTRL_EN && !s.chgSession h

/-- The same for an LV channel: its actuator is in IDLE or FAULT. -/
def State.lvDisabled (s : State) (n : Fin 12) : Bool :=
  let st := s.fld (s.lvOwner n) (F.ACT_STAT_STATE (n.val / 6))
  st == 0 || st == 6

end Sys2Proof.Machine
end

