-- ==== Sys2Proof/Machine/Float.lean ====
section
/-! DEFINITION. The arithmetic of the control engine (R160): binary32 with rounding to nearest even, denormal operands read
as zero and denormal results delivered as zero. A finite word stands for an exact number of 2⁻¹⁴⁹ steps. -/
namespace Sys2Proof.Machine

def fSign (x : Word) : Bool := bit x 31
def fExp (x : Word) : Nat := bits x 23 8
def fMan (x : Word) : Nat := bits x 0 23

/-- Neither an infinity nor a NaN. -/
def fFinite (x : Word) : Bool := fExp x != 255
def fNaN (x : Word) : Bool := fExp x == 255 && fMan x != 0
def fInf (x : Word) : Bool := fExp x == 255 && fMan x == 0

/-- The word used for a NaN result; only that it is a NaN matters (R161). -/
def fQNaN : Word := 0x7FC00000

/-- The magnitude of a finite word in steps of 2⁻¹⁴⁹; a denormal is read as zero. -/
def fMag (x : Word) : Nat := if fExp x == 0 then 0 else (2 ^ 23 + fMan x) * 2 ^ (fExp x - 1)

/-- The value of a finite word in steps of 2⁻¹⁴⁹, and beyond every finite value for an infinity. -/
def fVal (x : Word) : Int :=
  let m : Nat := if fExp x == 255 then 2 ^ 300 else fMag x
  if fSign x then -(m : Int) else m

/-- The word with a sign and the bits of a magnitude. -/
def fWord (neg : Bool) (body : Nat) : Word := BitVec.ofNat 32 (body + if neg then 2 ^ 31 else 0)

/-- `a` shifted left by a signed amount, as a fraction of two naturals. -/
def scale2 (a d : Nat) (x : Int) : Nat × Nat :=
  if x ≥ 0 then (a, d * 2 ^ x.toNat) else (a * 2 ^ (-x).toNat, d)

/-- The quotient of two naturals rounded to nearest, ties to even. -/
def divEven (n d : Nat) : Nat :=
  let q := n / d
  let r := n % d
  if 2 * r > d || (2 * r == d && q % 2 == 1) then q + 1 else q

/-- The binary32 word nearest to ±a / d (R160). -/
def fRat (neg : Bool) (a d : Nat) : Word :=
  if a == 0 then fWord neg 0 else
  let x : Int := (a.log2 : Int) - (d.log2 : Int) - 23
  let t := scale2 a d x
  let x := if t.1 / t.2 < 2 ^ 23 then x - 1 else x
  let t := scale2 a d x
  let m := divEven t.1 t.2
  let up := m == 2 ^ 24
  let e : Int := x + 150 + (if up then 1 else 0)
  let m := if up then 2 ^ 23 else m
  if e ≤ 0 then fWord neg 0
  else if e ≥ 255 then fWord neg 0x7F800000
  else fWord neg (e.toNat * 2 ^ 23 + (m - 2 ^ 23))

/-- The word nearest to an exact fraction n / d. -/
def fFrac (n : Int) (d : Nat) : Word := fRat (n < 0) n.natAbs d

/-- The word nearest to an integer. -/
def fInt (n : Int) : Word := fFrac n 1

/-- The word nearest to a number of 2⁻¹⁴⁹ steps. -/
def fSteps (n : Int) : Word := fFrac n (2 ^ 149)

def fOne : Word := 0x3F800000
def fBool (b : Bool) : Word := if b then fOne else 0

def fNeg (x : Word) : Word := x ^^^ 0x80000000
def fAbs (x : Word) : Word := x &&& 0x7FFFFFFF

def fAdd (x y : Word) : Word :=
  if fNaN x || fNaN y then fQNaN
  else if fInf x then (if fInf y && fSign x != fSign y then fQNaN else x)
  else if fInf y then y
  else
    let v := fVal x + fVal y
    if v == 0 then fWord (fSign x && fSign y) 0 else fSteps v

def fSub (x y : Word) : Word := fAdd x (fNeg y)

def fMul (x y : Word) : Word :=
  let s := fSign x != fSign y
  if fNaN x || fNaN y then fQNaN
  else if fInf x || fInf y then (if fMag x == 0 && !fInf x || fMag y == 0 && !fInf y then fQNaN else fWord s 0x7F800000)
  else fRat s (fMag x * fMag y) (2 ^ 298)

def fDiv (x y : Word) : Word :=
  let s := fSign x != fSign y
  if fNaN x || fNaN y || (fInf x && fInf y) then fQNaN
  else if fInf x then fWord s 0x7F800000
  else if fInf y then fWord s 0
  else if fMag y == 0 then (if fMag x == 0 then fQNaN else fWord s 0x7F800000)
  else fRat s (fMag x) (fMag y)

/-- The integer square root, by its bits from bit `k` down. -/
def isqrtFrom (n : Nat) : Nat → Nat → Nat
  | 0, r => if (r + 1) * (r + 1) ≤ n then r + 1 else r
  | k + 1, r =>
    let t := r + 2 ^ (k + 1)
    isqrtFrom n k (if t * t ≤ n then t else r)

def isqrt (n : Nat) : Nat := isqrtFrom n (n.log2 / 2 + 1) 0

/-- The correctly rounded square root. -/
def fSqrt (x : Word) : Word :=
  if fNaN x then fQNaN
  else if fMag x == 0 && !fInf x then fWord (fSign x) 0
  else if fSign x then fQNaN
  else if fInf x then x
  else
    let n := fMag x * 2 ^ (149 + 120)
    let r := isqrt n
    fRat false (2 * r + if r * r == n then 0 else 1) (2 ^ (149 + 61))

/-- Comparisons; a NaN compares as nothing. -/
def fLt (x y : Word) : Bool := !fNaN x && !fNaN y && fVal x < fVal y
def fLe (x y : Word) : Bool := !fNaN x && !fNaN y && fVal x ≤ fVal y
def fMin (x y : Word) : Word := if fLt y x then y else x
def fMax (x y : Word) : Word := if fLt x y then y else x
def fClamp (x lo hi : Word) : Word := fMax lo (fMin x hi)

/-- A number of 2⁻¹⁴⁹ steps rounded to a whole number, ties to even. -/
def stepsRound (v : Int) : Int :=
  let q := divEven v.natAbs (2 ^ 149)
  if v < 0 then -(q : Int) else q

/-- Conversion to an unsigned and to a signed field: nearest even, saturating; a NaN converts to 0 (R160). -/
def fToNat (w : Nat) (x : Word) : Nat :=
  if fNaN x then 0 else sat w (stepsRound (fVal x)).toNat
def fToSigned (w : Nat) (x : Word) : Nat := if fNaN x then 0 else satBits w (stepsRound (fVal x))

/-- π in steps of 10⁻⁵⁰. -/
def piSteps : Int := 314159265358979323846264338327950288419716939937511

/-- The sum of `n` terms of the sine series in steps of 10⁻⁵⁰: term `t` of order `2 i − 1`, and the square of the argument. -/
def sineSum (sq : Int) : Nat → Nat → Int → Int
  | 0, _, _ => 0
  | n + 1, i, t => t + sineSum sq n (i + 1) (-(t * sq / 10 ^ 50) / (2 * i * (2 * i + 1) : Nat))

/-- The binary32 word nearest to sin(2π k / 4,096) (R188). -/
def sineWord (k : Nat) : Word :=
  let j := k % 2048
  let x : Int := piSteps * (if j ≤ 1024 then j else 2048 - j : Nat) / 2048
  let v := sineSum (x * x / 10 ^ 50) 24 1 x
  fFrac (if k % 4096 < 2048 then v else -v) (10 ^ 50)

/-- Entry k of the sine table, where B15 holds it. -/
def sineEntry (sine : Bool) (k : Nat) : Word := if sine then sineWord k else 0

/-- An angle in counts reduced modulo 65,536 (R160). -/
def fAngle (x : Word) : Word := if !fFinite x then x else fSteps (fVal x % (65536 * 2 ^ 149))

/-- The value of a finite word times a whole factor, rounded to a whole number. -/
def fScaled (x : Word) (k : Nat) : Int := stepsRound (fVal x * k)

/-- |x| > k for a whole number k over a whole divisor. -/
def fAbove (x : Word) (n d : Nat) : Bool := (fVal x).natAbs * d > n * 2 ^ 149

end Sys2Proof.Machine
end

