-- ==== Sys2Proof/Machine/Engine.lean ====
section
/-! DEFINITION. The control engine: bank B10, the kernel library, the execution of a rate group, and the commit checks
(chapter 7). -/
namespace Sys2Proof.Machine

/-- The regions of bank B10 (R162). -/
def b10Entry (k : Nat) : Nat := 0x401000 + k * 8
def b10Param (i : Nat) : Nat := 0x402000 + i * 4
def b10Table (i : Nat) : Nat := 0x406000 + i * 4
def b10Wire (i : Nat) : Nat := 0x40C000 + i * 4
def b10State (i : Nat) : Nat := 0x40E000 + i * 4
def b10Copy (i : Nat) : Nat := 0x40FC00 + i * 4

abbrev Mem := List Host.Cell

def mw (m : Mem) (a : Nat) : Word := memWord 0 m a
def mput (m : Mem) (a : Nat) (w : Word) : Mem := memWriteBytes 0 m a (wordBytes w)

/-- A list of words stored from an address up. -/
def mputs (m : Mem) (a : Nat) : List Word → Mem
  | [] => m
  | w :: t => mputs (mput m a w) (a + 4) t

/-- The header fields of R163. -/
def tblNkern (m : Mem) : Nat := bits (mw m 0x400000) 0 10
def tblN (m : Mem) : Nat := bits (mw m 0x400004) 0 6
def tblSlowOk (m : Mem) : Bool := bit (mw m 0x400008) 0
def tblLane (m : Mem) : Nat := bits (mw m 0x400008) 1 1
def tblDigest (m : Mem) : List Word := (List.range 8).map (fun i => mw m (0x400020 + i * 4))

/-- An entry of the law table (R164). -/
structure Entry where
  ktype : Nat
  rate : Nat
  loop : Nat
  copy : Bool
  rsv : Bool
  pbase : Nat
  obase : Nat
  sbase : Nat
deriving DecidableEq, Repr

def entryOf (m : Mem) (k : Nat) : Entry :=
  let v := (mw m (b10Entry k + 4)).toNat * 2 ^ 32 + (mw m (b10Entry k)).toNat
  let f := fun (lo w : Nat) => v / 2 ^ lo % 2 ^ w
  { ktype := f 58 6, rate := f 56 2, loop := f 51 5, copy := f 50 1 == 1, rsv := f 48 2 != 0 || f 0 14 != 0
    pbase := f 36 12, obase := f 25 11, sbase := f 14 11 }

/-- The entries executed, with their indices (R163). -/
def entriesOf (m : Mem) : List (Nat × Entry) := (List.range (min (tblNkern m) 512)).map (fun k => (k, entryOf m k))

/-- The counts of a kernel: inputs, coefficient words (the sink index among them), live words, state words, outputs at
OBASE, sink wires and cycles (R167, R492). -/
structure KInfo where
  nIn : Nat
  nCoef : Nat
  nLive : Nat
  nState : Nat
  nOut : Nat
  nSink : Nat
  cost : Nat
deriving DecidableEq, Repr

def kInfo (code : Nat) : Option KInfo :=
  match code with
  | 0x01 => some ⟨6, 2, 4, 2, 2, 0, 24⟩
  | 0x02 => some ⟨7, 4, 4, 4, 2, 0, 34⟩
  | 0x03 => some ⟨1, 5, 0, 2, 1, 0, 18⟩
  | 0x04 => some ⟨1, 3, 0, 1, 1, 0, 16⟩
  | 0x05 => some ⟨1, 0, 2, 0, 2, 0, 8⟩
  | 0x06 => some ⟨2, 1, 1, 0, 3, 0, 30⟩
  | 0x07 => some ⟨2, 0, 5, 2, 3, 0, 40⟩
  | 0x08 => some ⟨3, 0, 0, 0, 3, 0, 14⟩
  | 0x09 => some ⟨2, 0, 0, 0, 3, 0, 12⟩
  | 0x0A => some ⟨3, 1, 0, 0, 2, 0, 26⟩
  | 0x0B => some ⟨3, 1, 0, 0, 2, 0, 26⟩
  | 0x0C => some ⟨3, 1, 1, 0, 1, 3, 64⟩
  | 0x0D => some ⟨16, 6, 0, 4, 2, 0, 170⟩
  | 0x0E => some ⟨4, 2, 1, 1, 1, 0, 46⟩
  | 0x0F => some ⟨2, Config.coefWords 0x0F, 0, 0, 2, 0, 52⟩
  | 0x10 => some ⟨4, Config.coefWords 0x10, 0, 8, 3, 0, 140⟩
  | 0x11 => some ⟨3, Config.coefWords 0x11, 0, 10, 4, 0, 160⟩
  | 0x12 => some ⟨6, Config.coefWords 0x12, 0, 2, 2, 0, 60⟩
  | 0x13 => some ⟨3, 1, 1, 0, 1, 0, 30⟩
  | 0x14 => some ⟨3, 3, 0, 3, 5, 0, 120⟩
  | 0x15 => some ⟨4, 1, 0, 0, 3, 0, 40⟩
  | 0x16 => some ⟨3, 4, 1, 0, 1, 1, 90⟩
  | 0x17 => some ⟨4, 4, 2, 2, 0, 1, 70⟩
  | 0x18 => some ⟨1, 2, 0, 0, 1, 0, 20⟩
  | 0x19 => some ⟨2, Config.coefWords 0x19, 0, 0, 1, 0, 44⟩
  | 0x1A => some ⟨2, 0, 1, 1, 1, 0, 8⟩
  | 0x1B => some ⟨3, 0, 0, 0, 1, 0, 6⟩
  | 0x1C => some ⟨2, 1, 0, 0, 1, 0, 6⟩
  | _ => none

/-- The words of the input list of a kernel (R492). -/
def KInfo.inWords (k : KInfo) : Nat := (k.nIn + 1) / 2

/-- The words of its parameter block (R164). -/
def KInfo.block (k : KInfo) : Nat := k.inWords + k.nCoef + k.nLive

/-- Coefficient word `i` of an entry, and live word `i`. -/
def coefAt (m : Mem) (e : Entry) (k : KInfo) (i : Nat) : Word := mw m (b10Param (e.pbase + k.inWords + i))
def liveAt (m : Mem) (e : Entry) (k : KInfo) (i : Nat) : Word := mw m (b10Param (e.pbase + k.inWords + k.nCoef + i))

/-- The first sink wire an entry writes: its sink index is its last coefficient (R492). -/
def sinkOf (m : Mem) (e : Entry) (k : KInfo) : Nat := (coefAt m e k (k.nCoef - 1)).toNat

/-- The outputs that an entry has at OBASE: a grid transform gives D and Q, or three phases. -/
def outCount (m : Mem) (e : Entry) (k : KInfo) : Nat :=
  if e.ktype == 0x15 then (if Config.gridInverse (coefAt m e k 0) then 3 else 2) else k.nOut

/-- The input wire `i` of an entry; 0xFFFF is unconnected (R164). -/
def inputWire (m : Mem) (e : Entry) (i : Nat) : Nat := bits (mw m (b10Param (e.pbase + i / 2))) (16 * (i % 2)) 16

/-- The part of the table pool that an entry's table occupies (R493): its base and extent in words. -/
def tableOf (m : Mem) (e : Entry) (k : KInfo) : Option (Nat × Nat) :=
  let cs := (List.range k.nCoef).map (coefAt m e k)
  let base := (cs.getD 0 0).toNat
  match e.ktype with
  | 0x0F => some (base, 4096)
  | 0x18 => some (base, 2 * (cs.getD 1 0).toNat)
  | 0x19 => let n := Config.lookupSizes cs; some (base, n.1 + n.2 + n.1 * n.2)
  | _ => none

/-- The cycles of an entry (R167): division and square root take 16. -/
def entryCost (m : Mem) (e : Entry) : Nat :=
  match kInfo e.ktype with
  | none => 0
  | some k => if e.ktype == 0x1C && ((coefAt m e k 0) == 6 || (coefAt m e k 0) == 7) then 16 else k.cost

/-- The cycles of a rate group: 3 fast, 2 medium, 1 slow. -/
def groupCost (m : Mem) (rate : Nat) : Nat :=
  (entriesOf m).foldl (fun n e => if e.2.rate == rate then n + entryCost m e.2 else n) 0

/-- CRC-32 with the IEEE 802.3 polynomial. -/
def crcBit (c : BitVec 32) : BitVec 32 := if c.getLsbD 0 then (c >>> 1) ^^^ 0xEDB88320 else c >>> 1
def crcByte (c : BitVec 32) (b : Byte) : BitVec 32 :=
  (List.range 8).foldl (fun c _ => crcBit c) (c ^^^ b.setWidth 32)
def crc32 (bs : List Byte) : BitVec 32 := ~~~(bs.foldl crcByte 0xFFFFFFFF)

/-- The present fast rate of a lane in units of 10 Hz (R203, R206). -/
def State.fastRate (s : State) (l : Lane) : Nat :=
  let f := if s.flag l F.TRC_STAT_ALT_ACT then s.fld l F.TRC_PWM_FSW_ALT else s.fld l F.TRC_PWM_FSW
  if s.flag l F.TRC_SET_UPD then 2 * f else f

/-- The budget conditions of R173 at a clock divisor, for a fast rate in units of 10 Hz. -/
def budgetAt (m : Mem) (f d : Nat) : Bool :=
  let hz := f * 10
  let cd := 300000000 / hz / d
  let r := hz / 1000
  let pf := groupCost m 3 + 150
  let pm := groupCost m 2
  let ps := groupCost m 1 + 400
  let n := tblN m
  pf ≤ cd && pm ≤ n * (cd - pf) && ps + (r + n - 1) / n * pm ≤ r * (cd - pf)

/-- The check made at commit and at every change of the fast rate (R174). -/
def budgetOk (m : Mem) (f : Nat) : Bool := budgetAt m f 1 && (!tblSlowOk m || budgetAt m f 2)

/-- The medium rate lies within 2 kHz to 20 kHz (R175, R206). -/
def mediumOk (m : Mem) (f : Nat) : Bool := 2000 * tblN m ≤ f * 10 && f * 10 ≤ 20000 * tblN m

/-- The wires that an entry outputs to: at OBASE, and through its sink index (R492). -/
def outWires (m : Mem) (e : Entry) (k : KInfo) : List Nat :=
  (List.range (outCount m e k)).map (e.obase + ·) ++
  (if k.nSink == 0 then [] else (List.range k.nSink).map (sinkOf m e k + ·))

/-- Entries of a defined kernel among those executed. -/
def kernelsOf (m : Mem) : List (Entry × KInfo) :=
  (entriesOf m).filterMap (fun e => (kInfo e.2.ktype).map (fun k => (e.2, k)))

/-- Commit checks 5, 6 and 7 of R175, with the ACT input wires of R310. -/
def entryFormOk (m : Mem) : Bool :=
  (entriesOf m).all (fun e =>
    (e.2.ktype == 0 || (kInfo e.2.ktype).isSome) && !e.2.rsv &&
    (e.2.ktype != 0x1C || (coefAt m e.2 ⟨2, 1, 0, 0, 1, 0, 6⟩ 0).toNat ≤ 7))
def headerFormOk (m : Mem) : Bool :=
  bits (mw m 0x400000) 10 6 == 0 && bits (mw m 0x400004) 6 10 == 0 && bits (mw m 0x400008) 2 30 == 0 &&
  bits (mw m 0x40000C) 16 16 == 0 && mw m 0x400018 == 0 &&
  (List.range 48).all (fun i => mw m (0x400040 + i * 4) == 0)
def wiresDistinct : List Nat → Bool
  | [] => true
  | a :: t => !t.contains a && wiresDistinct t
def rangesOk (m : Mem) : Bool :=
  let ks := kernelsOf m
  ks.all (fun (e, k) =>
    e.pbase + k.block ≤ 4096 && e.sbase + k.nState ≤ 1792 &&
    (outCount m e k == 0 || (0x080 ≤ e.obase && e.obase + outCount m e k ≤ 2048)) &&
    (k.nSink == 0 || (0x080 ≤ sinkOf m e k && sinkOf m e k + k.nSink ≤ 0x0C0)) &&
    (match tableOf m e k with
     | some (b, n) => b + n ≤ 6144
     | none => true)) &&
  wiresDistinct (ks.flatMap (fun (e, k) => outWires m e k)) &&
  ks.all (fun (e, k) => (outWires m e k).all (fun w => (List.range 4).all (fun i => w != Config.actWire 0 i && w != Config.actWire 1 i)))
def copyTotal (m : Mem) : Nat := (kernelsOf m).foldl (fun n e => if e.1.copy then n + e.2.nState else n) 0

/-- The first failing commit check, 0 where all pass (R175). -/
def State.commitFail (s : State) (l : Lane) : Nat :=
  let m := (s.lane l).mem
  let f := s.fastRate l
  let crc := crc32 (memBytes 0 m 0x400000 28 ++ memBytes 0 m 0x401000 4096)
  if crc != mw m 0x40001C then 1
  else if tblNkern m > 512 then 2
  else if tblN m < 2 || tblN m > 40 || !mediumOk m f then 3
  else if !budgetOk m f then 4
  else if !headerFormOk m || !entryFormOk m || tblLane m != l.idx then 5
  else if !rangesOk m then 6
  else if copyTotal m > 256 then 7
  else 0

/-- MMAX_HW of R203: 1 − 2δ with double update, 1 − δ with single, δ = 2 × T_win × FSW. T_win is counted in steps of
625 ps; δ as a fraction over 10¹². -/
def State.deltaNum (s : State) (l : Lane) : Nat :=
  let dt := (setChans l).foldl (fun n c => max n (s.mfld (F.GDH_DT_DT_MIN c.val))) 0
  let steps := s.fld l F.SMP_TIM_QUIET * 20 + s.fld l F.SMP_TIM_LEAD * 20 + dt * 16 + 160
  let f := if s.flag l F.TRC_STAT_ALT_ACT then s.fld l F.TRC_PWM_FSW_ALT else s.fld l F.TRC_PWM_FSW
  2 * steps * 625 * (f * 10)
def State.mmaxHw (s : State) (l : Lane) : Word :=
  let d := s.deltaNum l * (if s.flag l F.TRC_SET_UPD then 2 else 1)
  fFrac ((10 ^ 12 : Nat) - (d : Int)) (10 ^ 12)

def State.showMmax (s : State) (l : Lane) : State := s.putWord l F.TRC_MMAX_MMAX_HW.addr (s.mmaxHw l)

/-- A table of 4,096 entries at an angle in counts, with the interpolation of R188. -/
def angleTable (t : Nat → Word) (θ : Word) : Word :=
  let v := fVal (fAngle θ)
  let i := (v / (16 * 2 ^ 149)).toNat
  let f := fFrac (v % (16 * 2 ^ 149)) (16 * 2 ^ 149)
  let a := t (i % 4096)
  fAdd a (fMul f (fSub (t ((i + 1) % 4096)) a))

/-- sin and cos of an angle in counts by the sine table, which reads as zeros where B15 has lost it (R188, R447). -/
def sinTable (sine : Bool) (θ : Word) : Word := angleTable (sineEntry sine) θ
def cosTable (sine : Bool) (θ : Word) : Word := sinTable sine (fAdd (fAngle θ) (fInt 16384))

/-- A kernel's operands at one execution. -/
structure KIn where
  ins : List Word
  /-- which inputs are connected -/
  con : List Bool
  coef : List Word
  live : List Word
  st : List Word
  /-- the group's period in seconds -/
  ts : Word
  preset : Bool := false
  rampPre : Bool := false

/-- What one execution gives: outputs at OBASE, values for its sinks, state words, and what it reports. -/
structure KOut where
  outs : List Word := []
  sinks : List Word := []
  st : List Word := []
  clip : Bool := false
  brake : Bool := false
  vlim : Bool := false
  mmax : Bool := false

def nth (l : List Word) (i : Nat) : Word := l.getD i 0

/-- Results of a kernel whose formula the spec does not give. -/
def openKernel (code nOut nState : Nat) (x : KIn) : KOut :=
  let ws := x.ins ++ x.coef ++ x.live ++ x.st ++ [x.ts]
  { outs := (List.range nOut).map (Config.kernel code ws), st := (List.range nState).map (fun i => Config.kernel code ws (16 + i)) }

/-- PI and PID (R168, R169); `d` is the derivative term of a PID, whose formula is not stated, and `rest` its other state
words. -/
def piKernel (x : KIn) (p d : Word) (ki : Word) (rest : List Word) : KOut :=
  let ff := nth x.ins 2
  let ymin := nth x.live 0
  let ymax := nth x.live 1
  let mode := (nth x.live 2).toNat
  let p := fAdd p d
  let e := fSub (nth x.ins 0) (nth x.ins 1)
  let lo := fSub (fSub ymin p) ff
  let hi := fSub (fSub ymax p) ff
  let i0 := nth x.st 0
  let sum := fun (i : Word) => fAdd (fAdd p i) ff
  let sat := fun (y : Word) => fBool (fLe ymax y || fLe y ymin)
  let pre := fClamp (fSub (fSub (nth x.live 3) p) ff) lo hi
  if mode == 1 then
    let y := fClamp (nth x.ins 3) ymin ymax
    { outs := [y, sat y], st := fSub (fSub y p) ff :: rest }
  else if mode == 2 then
    let i := if x.preset then pre else i0
    let y := fClamp (sum i) ymin ymax
    { outs := [y, sat y], st := i :: rest }
  else if mode == 0 then
    let step := fMul (fMul ki e) x.ts
    let y0 := sum i0
    let stuck := (fLe ymax y0 && fLt 0 step) || (fLe y0 ymin && fLt step 0)
    let i := if x.preset then pre else fClamp (if stuck then i0 else fAdd i0 step) lo hi
    let y := fClamp (sum i) ymin ymax
    { outs := [y, sat y], st := i :: rest }
  else openKernel 0x01 2 (1 + rest.length) x

/-- The gain taken from a connected input, else the coefficient (R169). -/
def gain (x : KIn) (i c : Nat) : Word := if x.con.getD i false then nth x.ins i else nth x.coef c

/-- The limiter of the predictor and of the vector-limiter kernel with PRIO 1: x first, and y takes what remains. -/
def limitFirst (x y mag : Word) : Word × Word :=
  let x' := fClamp x (fNeg mag) mag
  let r := fSqrt (fMax 0 (fSub (fMul mag mag) (fMul x' x')))
  (x', fClamp y (fNeg r) r)

/-- The ramp of R180. -/
def rampKernel (x : KIn) : KOut :=
  let t := x.ts
  let rate := nth x.live 2
  let jerk := nth x.live 3
  let mode := (nth x.live 4).toNat
  let target := fClamp (nth x.ins 0) (nth x.live 0) (nth x.live 1)
  let clip := fVal target != fVal (nth x.ins 0)
  let y := if x.rampPre then nth x.ins 1 else nth x.st 0
  let v := if x.rampPre then 0 else nth x.st 1
  let fin := fun (y v : Word) (b : Bool) =>
    ({ outs := [y, v, fBool (fVal y == fVal target && fVal v == 0)], st := [y, v], clip := clip, brake := b } : KOut)
  if mode == 1 then fin y 0 false
  else if mode == 2 then fin (nth x.ins 1) 0 false
  else if mode != 0 then openKernel 0x07 3 2 x
  else
    let e := fSub target y
    let sg := fun (w : Word) => if fVal w < 0 then (-1 : Int) else if fVal w > 0 then 1 else 0
    let mag := if fVal jerk == 0 then rate else fMin rate (fSqrt (fMul (fMul (fInt 2) jerk) (fAbs e)))
    let vdes := fMul (fInt (sg e)) mag
    let brakes := fLt 0 jerk && fLt (fAbs vdes) (fAbs v) && sg v == sg e
    let jt := fMul jerk t
    let v' := if brakes then vdes else if fVal jerk == 0 then vdes
              else fAdd v (fClamp (fSub vdes v) (fNeg jt) jt)
    let ovr := brakes && fLt jt (fAbs (fSub v' v))
    if fLe (fAbs e) (fMul (fAbs v') t) then fin target 0 ovr else fin (fAdd y (fMul v' t)) v' ovr

/-- The speed voltages of R190: ed and eq. -/
def speedVolt (id iq pd pq w ld lq psi md mq : Word) : Word × Word :=
  (fNeg (fMul w (fAdd (fMul lq iq) (fMul mq pq))),
   fMul w (fAdd (fAdd (fMul ld id) (fMul md pd)) psi))

/-- What the lane makes of a converter phase's current reference: its limit, overvoltage forcing to −IOVL, and the part of a ramp that is
in effect (R270, R272, R275, R279, R280). -/
structure PhaseRef where
  limit : Word
  iovl : Word
  force : Bool
  part : Word
  /-- the reference that takes the law's place with REG = 1 (R287) -/
  iref : Option Word

def PhaseRef.apply (p : PhaseRef) (x : Word) : Word :=
  if p.force then fNeg p.iovl else fMul (fClamp (p.iref.getD x) (fNeg p.limit) p.limit) p.part

/-- The compensation of the current references (R189): the entry whose first two inputs take the offsets, the offsets in
amperes, and with MODE 1 COMP_IREF. -/
structure Comp where
  entry : Nat
  dId : Word
  dIq : Word
  iref : Option Word

def Comp.apply (c : Comp) : List Word → List Word
  | d :: q :: t =>
    let k := match c.iref with
      | some r => fClamp (fDiv q r) (fNeg fOne) fOne
      | none => fOne
    fAdd d (fMul k c.dId) :: fAdd q (fMul k c.dIq) :: t
  | ws => ws

/-- The entry ahead of which R189 adds the offsets: the vector limiter whose outputs are the predictor's current references, or the
predictor itself where the law has none. -/
def compEntry (m : Mem) : Option Nat :=
  ((entriesOf m).find? (fun e => e.2.ktype == 0x0D)).map (fun p =>
    match (entriesOf m).find? (fun e => e.2.ktype == 0x06 && e.2.obase == inputWire m p.2 0 && e.2.obase + 1 == inputWire m p.2 1) with
    | some e => e.1
    | none => p.1)

/-- What kernels take from the lane. Of the deadbeat predictor (R192, R195): the decoupling in effect (0 measured, 1 model, 2 off), the
time from the sampling instant to the load instant, MMAX, the fast period, the geometry of R4, and the peer's references one
message earlier. -/
structure DbCtx where
  dec : Nat
  tau : Word
  mmax : Word
  ts : Word
  solo : Bool
  prevRef : Word × Word
  /-- the blend of R226 in progress: the currents it starts from, none in its first cycle, and how far it has come -/
  blend : Option (Option (Word × Word) × Word)
  /-- what limits and scales the current references of the lane's two converter phases -/
  phase : PhaseRef × PhaseRef
  /-- the compensation in effect (R189), and whether the sine table stands in B15 -/
  comp : Option Comp
  sine : Bool

/-- The deadbeat predictor (R192) with the peer's currents of R195 and R196. State words 0 and 1 hold the voltage already
commanded, words 2 and 3 the estimated peer currents. -/
def deadbeat (x : KIn) (c : DbCtx) : KOut :=
  let im := (nth x.ins 2, nth x.ins 3)
  let ref : Word × Word := match c.blend with
    | none => (nth x.ins 0, nth x.ins 1)
    | some (none, _) => im
    | some (some i, f) => (fAdd i.1 (fMul f (fSub (nth x.ins 0) i.1)), fAdd i.2 (fMul f (fSub (nth x.ins 1) i.2)))
  let w := nth x.ins 5
  let udc := nth x.ins 6
  let peer := fun i => nth x.ins (7 + i)
  let ld := nth x.coef 0
  let lq := nth x.coef 1
  let rs := nth x.coef 2
  let psi := nth x.coef 3
  let md := if c.solo then 0 else nth x.coef 4
  let mq := if c.solo then 0 else nth x.coef 5
  let mode := fToNat 8 (peer 6)
  let ws := x.ins ++ x.coef ++ x.st ++ [x.ts]
  let model := fun (i : Nat) => Config.kernel 0x4D ws i
  let belowTh := fLt (fMul (fAbs w) (fMul (fSqrt (fInt 3)) psi)) udc
  -- peer currents and their rates of change
  let pk : (Word × Word) × (Word × Word) :=
    if c.dec == 2 || c.solo then ((0, 0), (0, 0))
    else if c.dec == 0 then ((Config.kernel 0x5D ws 0, Config.kernel 0x5D ws 1), (Config.kernel 0x5D ws 2, Config.kernel 0x5D ws 3))
    else if mode == 1 then
      ((peer 4, peer 5), (fDiv (fSub (peer 4) c.prevRef.1) c.ts, fDiv (fSub (peer 5) c.prevRef.2) c.ts))
    else if mode == 4 then ((0, 0), (0, 0))
    else if (mode == 3 || mode == 0) && belowTh then ((0, 0), (0, 0))
    else ((model 0, model 1), (model 2, model 3))
  let ip := pk.1
  let dip := pk.2
  let e1 := speedVolt im.1 im.2 ip.1 ip.2 w ld lq psi md mq
  let carry := fun (i v e m d l : Word) =>
    fAdd i (fDiv (fMul (fSub (fSub (fSub v (fMul rs i)) e) (fMul m d)) c.tau) l)
  let jd := carry im.1 (nth x.st 0) e1.1 md dip.1 ld
  let jq := carry im.2 (nth x.st 1) e1.2 mq dip.2 lq
  let e2 := speedVolt jd jq ip.1 ip.2 w ld lq psi md mq
  let volt := fun (i r e m d l : Word) =>
    fAdd (fAdd (fAdd (fMul rs i) (fDiv (fMul l (fSub r i)) c.ts)) e) (fMul m d)
  let vd := volt jd ref.1 e2.1 md dip.1 ld
  let vq := volt jq ref.2 e2.2 mq dip.2 lq
  let lim := limitFirst vd vq (fDiv (fMul c.mmax udc) (fSqrt (fInt 3)))
  { outs := [lim.1, lim.2], st := [lim.1, lim.2, ip.1, ip.2]
    vlim := fVal lim.1 != fVal vd || fVal lim.2 != fVal vq }

/-- The space-vector modulator (R202): inverse Clarke, min-max zero sequence, and with single update the reduction by δ / 2. -/
def svm (x : KIn) (mmaxHw : Word) (half : Word) : KOut :=
  let u := fun i => Config.kernel 0x09 [nth x.ins 0, nth x.ins 1] i
  let v0 := fDiv (fAdd (fMax (fMax (u 0) (u 1)) (u 2)) (fMin (fMin (u 0) (u 1)) (u 2))) (fInt 2)
  let d := fun i => fSub (fAdd (fFrac 1 2) (fDiv (fSub (u i) v0) (nth x.ins 2))) half
  let cl := fun i => fClamp (d i) 0 fOne
  let sat := (List.range 3).any (fun i => fVal (cl i) != fVal (d i))
  { outs := [fBool sat], sinks := [cl 0, cl 1, cl 2], mmax := fLt mmaxHw (nth x.live 0) }

/-- Linear interpolation between two points of a table. -/
def lerp (x x0 x1 y0 y1 : Word) : Word :=
  fAdd y0 (fDiv (fMul (fSub x x0) (fSub y1 y0)) (fSub x1 x0))

/-- The segment of `n` breakpoints from word `b` of the table pool that holds `x`: the number of breakpoints from the second
to the last but one that are at or below it. -/
def segment (m : Mem) (b n : Nat) (x : Word) : Nat :=
  (List.range (n - 2)).foldl (fun k i => if fLe (mw m (b10Table (b + i + 1))) x then i + 1 else k) 0

/-- `x` held within the end breakpoints (R167). -/
def withinEnds (m : Mem) (b n : Nat) (x : Word) : Word :=
  fClamp x (mw m (b10Table b)) (mw m (b10Table (b + (n - 1))))

def lookup1 (m : Mem) (x : KIn) : Word :=
  let b := (nth x.coef 0).toNat
  let n := (nth x.coef 1).toNat
  let t := fun i => mw m (b10Table (b + i))
  if n == 0 then Config.kernel 0x18 (x.ins ++ x.coef) 0
  else if n == 1 then t 1
  else
    let v := withinEnds m b n (nth x.ins 0)
    let i := segment m b n v
    lerp v (t i) (t (i + 1)) (t (n + i)) (t (n + i + 1))

def lookup2 (m : Mem) (x : KIn) : Word :=
  let b := (nth x.coef 0).toNat
  let nx := (Config.lookupSizes x.coef).1
  let ny := (Config.lookupSizes x.coef).2
  let t := fun i => mw m (b10Table (b + i))
  if nx < 2 || ny < 2 then Config.kernel 0x19 (x.ins ++ x.coef) 0
  else
    let vx := withinEnds m b nx (nth x.ins 0)
    let vy := withinEnds m (b + nx) ny (nth x.ins 1)
    let i := segment m b nx vx
    let j := segment m (b + nx) ny vy
    let z := fun (i j : Nat) => t (nx + ny + j * nx + i)
    let row := fun j => lerp vx (t i) (t (i + 1)) (z i j) (z (i + 1) j)
    lerp vy (t (nx + j)) (t (nx + j + 1)) (row j) (row (j + 1))

/-- The arithmetic kernel (R167). -/
def arith (op : Nat) (a b : Word) : Word :=
  match op with
  | 0 => fAdd a b
  | 1 => fSub a b
  | 2 => fMul a b
  | 3 => fMin a b
  | 4 => fMax a b
  | 5 => fAbs a
  | 6 => fDiv a b
  | _ => fSqrt a

/-- One execution of a kernel. Transforms whose formula is not printed take the sine and cosine of R188 as operands. -/
def runKernel (m : Mem) (code : Nat) (k : KInfo) (x : KIn) (c : DbCtx) (mmaxHw half : Word) : KOut :=
  let i := fun n => nth x.ins n
  match code with
  | 0x01 =>
    piKernel x (fMul (gain x 4 0) (fSub (i 0) (i 1))) 0 (gain x 5 1) [nth x.st 1]
  | 0x02 =>
    let ws := x.ins ++ x.coef ++ x.st ++ [x.ts, gain x 6 2]
    piKernel x (fMul (gain x 4 0) (fSub (i 0) (i 1))) (Config.kernel 0x02 ws 0) (gain x 5 1)
      ((List.range 3).map (fun j => Config.kernel 0x02 ws (17 + j)))
  | 0x05 =>
    let y := fClamp (i 0) (nth x.live 0) (nth x.live 1)
    { outs := [y, fBool (fVal y != fVal (i 0))] }
  | 0x06 =>
    let mag := nth x.live 0
    if (nth x.coef 0) == 1 then
      let r := limitFirst (i 0) (i 1) mag
      { outs := [r.1, r.2, fBool (fVal r.1 != fVal (i 0) || fVal r.2 != fVal (i 1))] }
    else
      let n := fSqrt (fAdd (fMul (i 0) (i 0)) (fMul (i 1) (i 1)))
      if fLt mag n then { outs := [fDiv (fMul (i 0) mag) n, fDiv (fMul (i 1) mag) n, fOne] }
      else { outs := [i 0, i 1, 0] }
  | 0x07 => rampKernel x
  | 0x0A | 0x0B =>
    let θ := fAdd (i 2) (nth x.coef 0)
    openKernel code k.nOut k.nState { x with ins := [i 0, i 1, sinTable c.sine θ, cosTable c.sine θ], coef := [] }
  | 0x0C => svm x mmaxHw half
  | 0x0D => deadbeat x c
  | 0x15 =>
    let θ := if Config.gridInverse (nth x.coef 0) then i 2 else i 3
    openKernel code (if Config.gridInverse (nth x.coef 0) then 3 else 2) 0
      { x with ins := x.ins ++ [sinTable c.sine θ, cosTable c.sine θ] }
  | 0x16 => let r := openKernel code 2 0 x; { outs := r.outs.drop 1, sinks := r.outs.take 1 }
  | 0x17 => let r := openKernel code 1 2 x; { sinks := r.outs, st := r.st }
  | 0x18 => { outs := [lookup1 m x] }
  | 0x19 => { outs := [lookup2 m x] }
  | 0x1B => { outs := [if fLt (fFrac 1 2) (i 0) then i 1 else i 2] }
  | 0x1C => { outs := [arith (nth x.coef 0).toNat (i 0) (i 1)] }
  | _ => openKernel code k.nOut k.nState x

/-- The course of a rate group: the windows' bytes, the wires held back, and what the kernels have reported. -/
structure Run where
  mem : Mem
  /-- true for the fast group, whose outputs go onto the wires at once (R170) -/
  direct : Bool
  ovr : List (Nat × Word) := []
  nf : List Nat := []
  clips : Nat := 0
  brake : Bool := false
  vlim : Bool := false
  mmax : Bool := false
  track : List Nat := []

/-- A wire as a kernel of the group reads it: an output of the group already computed, else the wire pool. -/
def Run.wire (r : Run) (i : Nat) : Word :=
  match r.ovr.find? (fun c => c.1 == i) with
  | some c => c.2
  | none => mw r.mem (b10Wire i)

def Run.setWire (r : Run) (i : Nat) (w : Word) : Run :=
  if r.direct then { r with mem := mput r.mem (b10Wire i) w }
  else { r with ovr := (i, w) :: r.ovr.filter (fun c => c.1 != i) }

/-- Outputs put on consecutive wires; a non-finite one leaves its wire at the last finite value (R161). -/
def Run.setWires (r : Run) (i : Nat) : List Word → Run
  | [] => r
  | w :: t => (if fFinite w then r.setWire i w else r).setWires (i + 1) t

/-- State words stored, non-finite ones kept as they were. -/
def Run.setStates (r : Run) (i : Nat) : List Word → Run
  | [] => r
  | w :: t => ({ r with mem := if fFinite w then mput r.mem (b10State i) w else r.mem } : Run).setStates (i + 1) t

/-- One entry of a group executed (R161, R164, R170). -/
def Run.entry (r : Run) (e : EngState) (ts : Word) (c : DbCtx) (mmaxHw half : Word) (ke : Nat × Entry) : Run :=
  match kInfo ke.2.ktype with
  | none => r
  | some k =>
    let wires := (List.range k.nIn).map (inputWire r.mem ke.2)
    let x : KIn :=
      { ins := wires.map (fun w => if w < 2048 then r.wire w else 0), con := wires.map (fun w => decide (w < 2048))
        coef := (List.range k.nCoef).map (coefAt r.mem ke.2 k), live := (List.range k.nLive).map (liveAt r.mem ke.2 k)
        st := (List.range k.nState).map (fun i => mw r.mem (b10State (ke.2.sbase + i)))
        ts := ts, preset := e.presets.contains ke.1
        rampPre := (e.rampPre.contains ke.1 || (e.rampTrack.contains ke.1 && liveAt r.mem ke.2 k 4 == 0)) && inputWire r.mem ke.2 1 < 2048 }
    let first := fun (f : Word → Word) => match x.ins with
      | a :: t => { x with ins := f a :: t }
      | [] => x
    let x := if ke.2.ktype != 0x17 then x
      else if sinkOf r.mem ke.2 k == 0x088 then first c.phase.1.apply
      else if sinkOf r.mem ke.2 k == 0x089 then first c.phase.2.apply else x
    let x := match c.comp with
      | some p => if p.entry == ke.1 then { x with ins := p.apply x.ins } else x
      | none => x
    let o := runKernel r.mem ke.2.ktype k x c mmaxHw half
    let bad := (o.outs ++ o.sinks ++ o.st).any (fun w => !fFinite w)
    let r := (r.setWires ke.2.obase o.outs).setStates ke.2.sbase o.st
    let r := if k.nSink == 0 then r else r.setWires (sinkOf r.mem ke.2 k) o.sinks
    let own := ke.2.ktype == 0x0C && sinkOf r.mem ke.2 k == 0x080
    { r with nf := if bad then ke.1 :: r.nf else r.nf, clips := r.clips + (if o.clip then 1 else 0)
             brake := r.brake || o.brake, vlim := r.vlim || o.vlim, mmax := r.mmax || (o.mmax && own)
             track := if ke.2.ktype == 0x07 && liveAt r.mem ke.2 k 4 == 2 then ke.1 :: r.track else r.track }

/-- The period of a group in seconds: fast rate f × 10 Hz, divided by N for the medium group, 1 kHz for the slow (R27). -/
def groupPeriod (m : Mem) (f rate : Nat) : Word :=
  if rate == 3 then fFrac 1 (f * 10) else if rate == 2 then fFrac (tblN m) (f * 10) else fFrac 1 1000

/-- The decoupling a fast cycle uses (R195): off, model, or measured. -/
def State.decNow (s : State) (l : Lane) (missed : Bool) : Nat :=
  let d := s.fld l F.TRC_SET_DEC
  if d == 2 then 2
  else if d == 1 || missed || s.flag l F.TRC_STAT_DEC_MODEL || !s.flag l F.CLK_STAT_PEER_LOCK then 1 else 0

/-- The blend of R226, × 50 µs, as far as it has come. -/
def State.blending (s : State) (l : Lane) : Option (Option (Word × Word) × Word) :=
  let t := (s.lane l).trc
  if !t.blend then none
  else if t.blendN == 0 then some (none, 0)
  else some (some t.blendI, fMin fOne (fFrac (t.blendN * 2000) (s.fld l F.TRC_SM_CFG_BLEND * s.fastRate l)))

/-- A share of a time that has passed, at most 1. -/
def passed (t total : Nat) : Word := if t ≥ total then fOne else fFrac t total

/-- With REG = 1 each active phase of both lanes carries its part of I_bat*, the token holder's own or the one that its state copy brings
(R287); the phase currents are positive from battery to link. -/
def State.batteryRef (s : State) (l : Lane) : Option Word :=
  let n := ((List.range 4).filter (fun m => s.phaseActive l (m + 1))).length
  if !s.flag l F.DCL_CTRL_REG || n == 0 then none
  else if s.holdsAny l then some (fDiv (fNeg (s.lane l).chg.ibat) (fInt n))
  else some (match (s.lane l).red.copy with
    | some c => fDiv (fNeg c.ibat) (fInt n)
    | none => 0)

/-- What the lane makes of the current reference of its converter phase k (R270, R272, R275, R279, R280): STOPPING ramps it out over
1 ms, a phase that is shed over 8 of its periods, and a returning lane ramps it in over RET_T. -/
def State.phaseRef (s : State) (l : Lane) (k : Fin 2) : PhaseRef :=
  let d := (s.lane l).dcl
  let iovl := fInt (s.fld l F.DCL_OVL_IOVL)
  let part :=
    if s.fld l F.DCL_STAT_STATE == 3 then fSub fOne (passed (s.time - d.stopAt) 80000)
    else if d.leaving == some (2 * l.idx + k.val + 1) then
      fSub fOne (passed ((s.time - d.leaveAt) * s.fld l F.DCL_FSW_FSW) 64000000)
    else match d.ret with
      | some t => passed (s.time - t) (s.fld l F.RED_CFG_RET_T * 80000)
      | none => fOne
  { limit := if d.der[k] then fInt (s.fld l F.DCL_OVL_ICONT) else iovl, iovl := iovl, force := s.flag l F.DCL_STAT_OV, part := part
    iref := s.batteryRef l }

/-- The compensation of R189: the table of B15 at the own-set angle, in steps of TRC_COMP_LSB. -/
def State.compNow (s : State) (l : Lane) : Option Comp :=
  let m := (s.lane l).mem
  if !s.flag l F.TRC_COMP_EN then none else
  (compEntry m).map (fun k =>
    let θ := fInt (s.fld l F.FBK_ANG_ANGLE)
    let t := fun (lo i : Nat) => fInt (signed 16 (bits (mw m (0x414000 + i * 4)) lo 16))
    let lsb := s.word l F.TRC_COMP_LSB_LSB.addr
    { entry := k, dId := fMul (angleTable (t 16) θ) lsb, dIq := fMul (angleTable (t 0) θ) lsb
      iref := if s.flag l F.TRC_COMP_MODE then some (s.word l F.TRC_COMP_IREF_IREF.addr) else none })

/-- The MMAX in effect (R192, R203): the live word of the own set's modulator, at most MMAX_HW. -/
def State.mmaxNow (s : State) (l : Lane) : Word :=
  let m := (s.lane l).mem
  match (kernelsOf m).find? (fun e => e.1.ktype == 0x0C && sinkOf m e.1 e.2 == 0x080) with
  | some e => fMin (liveAt m e.1 e.2 0) (s.mmaxHw l)
  | none => s.mmaxHw l

/-- The operands that the deadbeat predictor takes from the lane: LEAD against LAT decides the load instant (R192, R174). -/
def State.dbCtx (s : State) (l : Lane) (missed : Bool) : DbCtx :=
  let m := (s.lane l).mem
  let f := s.fastRate l
  let lat := if s.flag l F.CE_STAT_HALF then bits (mw m 0x400014) 16 16 else bits (mw m 0x400014) 0 16
  let leadHalfNs := s.fld l F.SMP_TIM_LEAD * 25
  let extra := if leadHalfNs ≥ 2 * lat then 0 else 1
  { dec := s.decNow l missed
    -- LEAD × 12.5 ns plus, where it is shorter than LAT, one fast cycle; over the common divisor 2 × 10⁹ × f × 10
    tau := fFrac ((leadHalfNs * (f * 10) + extra * 2000000000 : Nat) : Int) (2000000000 * (f * 10))
    mmax := s.mmaxNow l, ts := fFrac 1 (f * 10), solo := s.fld l F.TRC_SET_GEOM == 2
    prevRef := (nth (s.lane l).eng.exchPrev 4, nth (s.lane l).eng.exchPrev 5)
    blend := s.blending l, phase := (s.phaseRef l 0, s.phaseRef l 1)
    comp := s.compNow l, sine := (s.lane l).boot.sine }

/-- A rate group executed over the windows as they are: 3 fast, 2 medium, 1 slow. -/
def State.runGroup (s : State) (l : Lane) (rate : Nat) (missed : Bool) : Run :=
  let x := s.lane l
  let ts := groupPeriod x.mem (s.fastRate l) rate
  let half := if s.flag l F.TRC_SET_UPD then 0 else fFrac (s.deltaNum l) (2 * 10 ^ 12)
  ((entriesOf x.mem).filter (fun e => e.2.rate == rate)).foldl
    (fun r e => r.entry x.eng ts (s.dbCtx l missed) (s.mmaxHw l) half e)
    { mem := x.mem, direct := rate == 3 }

/-- The entries of a rate. -/
def rateEntries (m : Mem) (rate : Nat) : List Nat := ((entriesOf m).filter (fun e => e.2.rate == rate)).map (·.1)

/-- What a group has reported: CE_NFn, CE.NONFINITE, ramp clips and brakes, the voltage limiter and MMAX (R161, R180, R192,
R203); consumed presets are dropped. -/
def State.afterGroup (s : State) (l : Lane) (rate : Nat) (r : Run) : State :=
  let done := rateEntries r.mem rate
  let s := s.modLane l (fun x => { x with
    mem := r.mem
    eng := { x.eng with
      held := r.ovr ++ x.eng.held.filter (fun c => !r.ovr.any (fun d => d.1 == c.1))
      presets := x.eng.presets.filter (fun k => !done.contains k)
      rampPre := x.eng.rampPre.filter (fun k => !done.contains k)
      rampTrack := r.track ++ x.eng.rampTrack.filter (fun k => !done.contains k) } })
  let s := r.nf.foldr (fun k s =>
    let f : Fld := ⟨(F.CE_NF_NF (k / 32 % 16)).addr, k % 32, 1⟩
    ((s.putFlag l f true).bump l F.CE_NF_LAST_NF_CNT).put l F.CE_NF_LAST_KIDX k) s
  let s := if r.nf.isEmpty then s else s.pulseEv l E.CE_NONFINITE
  let s := if r.clips == 0 then s else
    ((s.bump l F.CE_SP_STAT_CLIP_CNT r.clips).putFlag l F.CE_SP_STAT_CLIP true).pulseEv l E.CE_SP_CLIP
  if r.brake then s.pulseEv l E.CE_RAMP_BRAKE else s

/-- The words of the state-copy image: state words of every entry with COPY = 1, in entry order (R171). -/
def copyWords (m : Mem) : List Word :=
  (kernelsOf m).flatMap (fun (e, k) => if e.copy then (List.range k.nState).map (fun i => mw m (b10State (e.sbase + i))) else [])

/-- The engine stopped: it no longer executes, sink wires read 0.0 and the modulators hold their outputs off (R175). -/
def State.engineStop (s : State) (l : Lane) : State :=
  let s := s.modLane l (fun x => { x with
    mem := mputs x.mem (b10Wire 0x080) (List.replicate 64 0)
    eng := { x.eng with stop := false, duty := [], held := [] } })
  (s.putFlag l F.CE_STAT_RUNNING false).gatesOff (setChans l ++ convChans l)

/-- The engine started on a table that passed: all state words zero, and every wire 0.0 until its kernel has run. -/
def State.engineStart (s : State) (l : Lane) : State :=
  let s := s.modLane l (fun x => { x with
    mem := mputs (mputs x.mem (b10State 0) (List.replicate 1792 0)) (b10Wire 0x080) (List.replicate 1920 0)
    eng := { x.eng with start := false, held := [], presets := [], rampPre := [], rampTrack := [] } })
  let s := s.putFlag l F.CE_STAT_RUNNING true
  (s.put l F.CE_RATE_N (tblN (s.lane l).mem)).put l F.CE_RATE_FAST (s.fastRate l)

/-- PAIR_DIGEST compared over the link (R175). -/
def State.pairMatch (s : State) : State :=
  if !s.ready .A || !s.ready .B || !s.linkUp .A || !s.linkUp .B then s else
  let same := tblDigest (s.lane .A).mem == tblDigest (s.lane .B).mem
  s.both (fun l s => s.putFlag l F.CE_STAT_PEER_MATCH same)

/-- A commit check made: TABLE_OK and RUN where it passes, else FAIL and CE.TABLE_INVALID (R175). -/
def State.commitTable (s : State) (l : Lane) : State :=
  let f := s.commitFail l
  let s := s.put l F.CE_STAT_FAIL f
  if f != 0 then
    ((s.putFlag l F.CE_STAT_TABLE_OK false).putFlag l F.CE_CTRL_RUN false).pulseEv l E.CE_TABLE_INVALID
  else
    let m := (s.lane l).mem
    let s := (s.putFlag l F.CE_STAT_TABLE_OK true).putFlag l F.CE_CTRL_RUN true
    let s := (s.putFlag l F.CE_STAT_CE_SLOW_OK (tblSlowOk m)).putFlag l F.PWR_STAT_CE_SLOW_OK (tblSlowOk m)
    (s.modEng l (fun e => { e with start := true })).pairMatch

/-- Every function of a lane is disabled (R175): its traction set, its converter, the charger and the actuators. -/
def State.allDisabled (s : State) (l : Lane) : Bool :=
  let d := s.fld l F.DCL_STAT_STATE
  s.sm l == 0 && (d == 0 || d == 4) && !s.flag l F.CHG_CTRL_EN && !s.chgSession l &&
  !s.actDriven l 0 && !s.actDriven l 1 && s.fld l (F.ACT_STAT_STATE 0) != 5 && s.fld l (F.ACT_STAT_STATE 1) != 5

/-- The owning loops of a word of B10, and the kind of access it has (R166): `none` for a word without a kernel. -/
def ownersOf (m : Mem) (addr : Nat) : List Nat :=
  (kernelsOf m).filterMap (fun (e, k) =>
    let p := (addr - 0x402000) / 4
    let t := (addr - 0x406000) / 4
    let inBlock := 0x402000 ≤ addr && addr < 0x406000 && e.pbase ≤ p && p < e.pbase + k.inWords + k.nCoef
    let inTable := match tableOf m e k with
      | some (b, n) => 0x406000 ≤ addr && addr < 0x40C000 && b ≤ t && t < b + n
      | none => false
    if inBlock || inTable then some e.loop else none)

/-- The entries of which an address is the live word `i` of a kernel code. -/
def liveOwners (m : Mem) (addr : Nat) (codes : List Nat) (i : Nat) : List Nat :=
  (entriesOf m).filterMap (fun e =>
    match kInfo e.2.ktype with
    | some k => if codes.contains e.2.ktype && addr == b10Param (e.2.pbase + k.inWords + k.nCoef + i) then some e.1 else none
    | none => none)

/-- An address is the OP word of an arithmetic kernel. -/
def isOpWord (m : Mem) (addr : Nat) : Bool :=
  (entriesOf m).any (fun e => e.2.ktype == 0x1C && addr == b10Param (e.2.pbase + 1))

/-- The first entry of a kernel code, with its counts. -/
def firstOf (m : Mem) (code : Nat) : Option (Entry × KInfo) := (kernelsOf m).find? (fun e => e.1.ktype == code)

end Sys2Proof.Machine
end

