-- ==== Sys2Proof/Machine/Ce.lean ====
section
/-! DEFINITION. The commands of the CE pages: stopping and committing a law table, loops, and the set-point path (R175 to
R178, R182, R183). -/
namespace Sys2Proof.Machine

/-- RUN = 0 written: accepted with every loop open and every function disabled; the engine stops at the next fast-cycle
start (R175). -/
def State.ceStop (s : State) (l : Lane) : State :=
  if s.word l F.CE_LOOP_STAT_CLOSED.addr != 0 || !s.allDisabled l then s.reject l .stateErr
  else ((s.putFlag l F.CE_CTRL_RUN false).modEng l (fun e => { e with stop := true, start := false })).reply l .ok

def execCeStop (l : Lane) (s : State) : Out := done (s.writing l 0x10040 (fun s => s.ceStop l))

/-- COMMIT written: rejected while RUN = 1 or a function is enabled; a table of more than 512 entries answers COUNT_ERR. -/
def State.ceCommit (s : State) (l : Lane) : State :=
  if s.flag l F.CE_CTRL_RUN || !s.allDisabled l then s.reject l .stateErr
  else
    let s := s.commitTable l
    if s.fld l F.CE_STAT_FAIL == 2 then s.reject l .countErr else s.reply l .ok

def execCommit (l : Lane) (s : State) : Out := done (s.writing l 0x10040 (fun s => s.ceCommit l))

/-- Loops 8 to 31 named by the bits of a mask, lowest first. -/
def loopsOf (mask : BitVec 24) : List Nat := (List.range 24).filterMap (fun i => if mask.getLsbD i then some (i + 8) else none)

/-- LOOP_CLOSE: the loops close at the next fast-cycle start (R176). -/
def State.loopsClose (s : State) (l : Lane) (mask : BitVec 24) : State := (loopsOf mask).foldl (fun s n => s.loopAsk l n) s
def execLoopClose (l : Lane) (mask : BitVec 24) (s : State) : Out :=
  done (s.writing l 0x10050 (fun s => (s.loopsClose l mask).reply l .ok))

/-- LOOP_OPEN: the loops open at once (R176). -/
def State.loopsOpen (s : State) (l : Lane) (mask : BitVec 24) : State := (loopsOf mask).foldl (fun s n => s.loopOpen l n) s
def execLoopOpen (l : Lane) (mask : BitVec 24) (s : State) : Out :=
  done (s.writing l 0x10054 (fun s => (s.loopsOpen l mask).reply l .ok))

/-- CE_CLR.NF: CE_NFn and NF_CNT cleared (R182). -/
def State.clrNf (s : State) (l : Lane) : State :=
  ((List.range 16).foldl (fun s n => s.putWord l (0x12040 + n * 4) 0) s).put l F.CE_NF_LAST_NF_CNT 0
def execCeClrNf (l : Lane) (s : State) : Out := done (s.writing l 0x1005C (fun s => (s.clrNf l).reply l .ok))

/-- CE_CLR.OVR: OVR_CNT and OVR_GRP cleared (R182). -/
def State.clrOvr (s : State) (l : Lane) : State := (s.put l F.CE_STAT_OVR_CNT 0).put l F.CE_STAT_OVR_GRP 0
def execCeClrOvr (l : Lane) (s : State) : Out := done (s.writing l 0x1005C (fun s => (s.clrOvr l).reply l .ok))

/-- CE_CLR.MAX: FAST_MAX cleared (R182). -/
def State.clrMax (s : State) (l : Lane) : State := s.put l F.CE_CYC_FAST_MAX 0
def execCeClrMax (l : Lane) (s : State) : Out := done (s.writing l 0x1005C (fun s => (s.clrMax l).reply l .ok))

/-- The set-point source faults (R178). The register source never does (R177). -/
def State.spFault (s : State) (l : Lane) : State :=
  if s.inReset l || s.fld l F.CE_SP_STAT_SRC_ACT == 0 || s.flag l F.CE_SP_STAT_FAULT then s else
  (s.putFlag l F.CE_SP_STAT_FAULT true).levelEv l E.CE_SP_FAULT true

/-- SP_FAULT: PIN_TO or SP_TO has expired, input 12 is faulted, or the ring source names no word. -/
def execSpFault (l : Lane) (s : State) : Out := done (s.spFault l)

/-- SP_FAULT_CLEAR: the source has been free of faults for 100 ms; the selected value returns (R178). -/
def execSpFaultClear (l : Lane) (s : State) : Out :=
  done (if s.inReset l then s else (s.putFlag l F.CE_SP_STAT_FAULT false).levelEv l E.CE_SP_FAULT false)

/-- The measured value of PIN_SP (R177): the high time over the period in 0.1 %, or the frequency in Hz from 1 to 65,535. -/
def pinValue (src high period : Nat) : Nat :=
  if period == 0 then 0
  else if src == 2 then sat 16 (Config.quot (high * 1000) period).toNat
  else max 1 (sat 16 (Config.quot 80000000 period).toNat)

/-- A measured value outside IN_LO to IN_HI by more than a sixteenth of the range (R177). -/
def State.spOutside (s : State) (l : Lane) (v : Nat) : Bool :=
  let lo := s.fld l F.CE_SP_IN_IN_LO
  let hi := s.fld l F.CE_SP_IN_IN_HI
  (v < lo && 16 * (lo - v) > hi - lo) || (v > hi && 16 * (v - hi) > hi - lo)

/-- PIN_SP_EDGE: an edge on PIN_SP; a rising edge ends a period (R177). -/
def execPinSpEdge (l : Lane) (rising : Bool) (s : State) : Out :=
  if s.inReset l then done s else
  let e := (s.lane l).eng
  match e.pinRise with
  | none => done (if rising then s.modEng l (fun e => { e with pinRise := some s.time }) else s)
  | some t0 =>
    if !rising then done (s.modEng l (fun e => { e with pinHigh := s.time - t0 }))
    else
      let p := s.time - t0
      let s := s.modEng l (fun e => { e with pinRise := some s.time })
      let src := s.fld l F.CE_SP_STAT_SRC_ACT
      if src == 2 || src == 3 then
        let v := pinValue src e.pinHigh p
        let s := s.put l F.CE_SP_STAT_RAW v
        done (if s.spOutside l v then s.spFault l else s)
      else done s

/-- Source wire 0x030 + k (R177, R404): the word of the last accepted OUT record that entry k of the map in effect names, or 0.0 where
the entry is disabled or names a word at or beyond OUT_W. -/
def State.ringWire (s : State) (l : Lane) (k : Nat) : Word :=
  let r := (s.lane l).ring
  let e := bits (r.outMap.toList.getD (k / 4) 0) (8 * (k % 4)) 8
  if e ≥ 128 && e % 64 < bits r.cfg 16 7 then nth r.out (e % 64) else 0

/-- Source wire 0x01C (R177, R178): SP_FLT while the source is faulted; the register's or the ring's value clamped to the
range of SP_LO and SP_HI; or the measured value mapped linearly and clamped. -/
def State.spWire (s : State) (l : Lane) : Word :=
  let a := s.word l F.CE_SP_LO_SP_LO.addr
  let b := s.word l F.CE_SP_HI_SP_HI.addr
  let clampIt := fun (v : Word) => fClamp v (fMin a b) (fMax a b)
  if s.flag l F.CE_SP_STAT_FAULT then s.word l F.CE_SP_FLT_SP_FLT.addr
  else
    match s.fld l F.CE_SP_STAT_SRC_ACT with
    | 0 => clampIt (s.word l F.CE_SP_VAL_VAL.addr)
    | 4 => clampIt (s.ringWire l 0)
    | _ =>
      let lo := fInt (s.fld l F.CE_SP_IN_IN_LO)
      let hi := fInt (s.fld l F.CE_SP_IN_IN_HI)
      clampIt (lerp (fInt (s.fld l F.CE_SP_STAT_RAW)) lo hi a b)

end Sys2Proof.Machine
end

