-- ==== Sys2Proof/Machine/Trc.lean ====
section
/-! DEFINITION. The TRC block of chapter 8: the current exchange, decoupling, the carrier and its lock, the switching rate, and
the voltage limit's report (R187, R192, R194, R195, R204 to R206, R209). -/
namespace Sys2Proof.Machine

/-- The geometry fields that must agree in both lanes (R187). -/
def State.geom (s : State) (l : Lane) : List Nat :=
  [s.fld l F.TRC_SET_GEOM, s.fld l F.TRC_SET_UPD, s.fld l F.TRC_SET_DEC, s.fld l F.TRC_PWM_FSW,
   s.fld l F.TRC_PWM_FSW_ALT, s.fld l F.TRC_ILV_ANGLE]

/-- The lane may close loop 1 as far as the geometry goes: its fields equal those the peer last reported, and a peer never
heard of is missed except by Lane A of a three-phase machine (R187). -/
def State.geomOk (s : State) (l : Lane) : Bool :=
  match (s.lane l).eng.peerGeom with
  | some g => g == s.geom l
  | none => l == .A && s.fld l F.TRC_SET_GEOM == 2

/-- CURRENT_EXCHANGE: a complete message of the peer has arrived; its 16 words feed wires 0x020 to 0x02F (R33, R194). -/
def execCurrentExchange (l : Lane) (w : Vector Word 16) (s : State) : Out :=
  if s.inReset l || !s.linkUp l then done s else
  done (s.modEng l (fun e => { e with exchPrev := e.exch, exch := w.toList, gotExch := true }))

/-- DEC_MODEL: after three consecutive missing messages the lane uses model-estimated decoupling (R34, R195). -/
def execDecModel (l : Lane) (s : State) : Out :=
  if s.inReset l || s.fld l F.TRC_MISS_CONSEC < 3 || s.flag l F.TRC_STAT_DEC_MODEL then done s else
  done (((s.putFlag l F.TRC_STAT_DEC_MODEL true).modEng l (fun e => { e with okRun := 0 })).pulseEv l E.TRC_DEC_MODEL)

/-- DEC_RESTORED: after six consecutive messages the lane returns to measured decoupling (R34, R195). -/
def execDecRestored (l : Lane) (s : State) : Out :=
  if s.inReset l || (s.lane l).eng.okRun < 6 || !s.flag l F.TRC_STAT_DEC_MODEL then done s else
  done ((s.putFlag l F.TRC_STAT_DEC_MODEL false).pulseEv l E.TRC_DEC_RESTORED)

/-- The PWM timebase lock lost in a lane (R25, R205): ILV_ACT falls, an alignment is abandoned. -/
def State.lockLost (s : State) (l : Lane) : State :=
  if s.inReset l || !s.flag l F.CLK_STAT_PEER_LOCK then s else
  let s := (s.putFlag l F.CLK_STAT_PEER_LOCK false).putFlag l F.CONJ_STAT_TIME_LOCK false
  let s := s.put l F.CLK_STAT_PEER_PPM 0
  let was := s.flag l F.TRC_STAT_ILV_ACT || s.flag l F.TRC_STAT_ALIGNING
  let s := (s.putFlag l F.TRC_STAT_ILV_ACT false).putFlag l F.TRC_STAT_ALIGNING false
  let s := if was then s.pulseEv l E.TRC_ILV_CHANGE else s
  s.pulseEv l E.CONJ_LOCK_LOST

/-- LOCK_LOST. -/
def execLockLost (l : Lane) (s : State) : Out := done (s.lockLost l)

/-- LOCK: the lock has returned; Lane B aligns its carrier by lengthening periods (R205). -/
def State.lockGained (s : State) (l : Lane) : State :=
  if s.inReset l || s.flag l F.CLK_STAT_PEER_LOCK then s else
  let s := (s.putFlag l F.CLK_STAT_PEER_LOCK true).putFlag l F.CONJ_STAT_TIME_LOCK true
  let s := if l == .B then s.putFlag l F.TRC_STAT_ALIGNING true else s
  s.pulseEv l E.CONJ_LOCK
def execLock (l : Lane) (s : State) : Out := done (s.lockGained l)

/-- ALIGNMENT_DONE: Lane B's carrier lag equals the configured angle (R204, R205). -/
def execAlignmentDone (s : State) : Out :=
  if !s.flag .B F.TRC_STAT_ALIGNING then done s else
  let s := s.putFlag .B F.TRC_STAT_ALIGNING false
  done (s.both (fun l s =>
    if s.inReset l || !s.flag l F.CLK_STAT_PEER_LOCK then s
    else (s.putFlag l F.TRC_STAT_ILV_ACT true).pulseEv l E.TRC_ILV_CHANGE))

/-- The switching frequency that ALT would put into effect gives a fast rate that passes R174 and the medium rate's bounds. -/
def State.rateOk (s : State) (l : Lane) (fsw : Nat) (double : Bool) : Bool :=
  let f := if double then 2 * fsw else fsw
  let m := (s.lane l).mem
  !s.flag l F.CE_STAT_TABLE_OK || (budgetOk m f && mediumOk m f)

/-- A write of TRC_PWM_SEL.ALT (R206): while the link is up Lane A's governs both lanes and Lane B's is only stored. -/
def State.altSelect (s : State) (l : Lane) (alt : Bool) : State :=
  if alt && s.fld l F.TRC_PWM_FSW_ALT == 0 then s.reject l .rangeErr
  else if !s.rateOk l (if alt then s.fld l F.TRC_PWM_FSW_ALT else s.fld l F.TRC_PWM_FSW) (s.flag l F.TRC_SET_UPD) then
    s.reject l .stateErr
  else
    let s := s.putFlag l F.TRC_PWM_SEL_ALT alt
    let ask := fun (k : Lane) (s : State) => s.modEng k (fun e => { e with altWait := some alt })
    let s := if l == .B && s.linkUp .B then s
             else if l == .A && s.linkUp .A && s.ready .B then ask .B (ask .A s) else ask l s
    s.reply l .ok

/-- PWM_ALT_SELECT. -/
def execPwmAltSelect (l : Lane) (alt : Bool) (s : State) : Out := done (s.writing l 0x20048 (fun s => s.altSelect l alt))

/-- The rate change that waits in a lane takes effect (R206). -/
def State.rateChange (s : State) (l : Lane) : State :=
  match (s.lane l).eng.altWait with
  | none => s
  | some alt =>
    let s := s.modEng l (fun e => { e with altWait := none })
    let s := s.putFlag l F.TRC_STAT_ALT_ACT alt
    (s.put l F.CE_RATE_FAST (s.fastRate l)).showMmax l

/-- PWM_RATE_CHANGE: the named period begins; with the link up both lanes change, and an alignment in progress is awaited. -/
def execPwmRateChange (l : Lane) (s : State) : Out :=
  if s.inReset l || s.flag .B F.TRC_STAT_ALIGNING then done s else
  let s := s.rateChange l
  done (if s.linkUp l && !s.inReset l.other then s.rateChange l.other else s)

/-- VLIM: the voltage limiter has acted for VLIM_N consecutive fast cycles (R192). -/
def execVlim (l : Lane) (s : State) : Out :=
  if s.inReset l || (s.lane l).eng.vlimRun < s.fld l F.TRC_SET_VLIM_N then done s else done (s.pulseEv l E.TRC_VLIM)

/-- TRC_CLR.MISS: MISS_CNT cleared (R209). -/
def State.clrMiss (s : State) (l : Lane) : State := s.put l F.TRC_MISS_MISS_CNT 0
def execTrcClrMiss (l : Lane) (s : State) : Out := done (s.writing l 0x21068 (fun s => (s.clrMiss l).reply l .ok))

end Sys2Proof.Machine
end

