-- ==== Sys2Proof/Machine/Feedback.lean ====
section
/-! DEFINITION. Position and speed feedback (chapter 5): what each sensor gives, the checks that fault a source, the angle
and speed delivered at a sampling instant, and the choice of the active source. -/
namespace Sys2Proof.Machine

/-- π as a fraction, exact to 10⁻¹⁸. -/
def piNum : Nat := 3141592653589793238
def piDen : Nat := 1000000000000000000

/-- A quotient rounded to nearest, ties to even. -/
def roundDiv (n : Int) (d : Nat) : Int :=
  let q := divEven n.natAbs d
  if n < 0 then -(q : Int) else q

def angleMod (v : Int) : Nat := (v % 65536).toNat

/-- A source faulted (R120 to R132). -/
def State.srcFaulted (s : State) (l : Lane) (x : Src) : Bool := bit (s.word l F.FBK_STAT_FAULT.addr) (16 + x.idx)
def State.faultSrc (s : State) (l : Lane) (x : Src) : State :=
  (s.putFlag l ⟨F.FBK_STAT_FAULT.addr, 16 + x.idx, 1⟩ true).modFbk l (fun f => { f with qual := f.qual &&& ~~~(1#5 <<< x.idx) })

/-- A source code of FBK_SEL (R111). -/
def srcOfCode (c : Nat) : Option Src :=
  match c with
  | 1 => some .res
  | 2 => some .enc
  | 3 => some .ssi
  | 4 => some .hall
  | 5 => some .obs
  | _ => none

/-- An encoder glitch (R122). -/
def State.encGlitch (s : State) (l : Lane) : State :=
  let s := s.pulseEv l E.FBK_ENC_GLITCH
  let s := s.bump l F.FBK_FLT_CNT_GLITCH
  let s := s.modFbk l (fun f => { f with glitch := f.glitch + 1 })
  if (s.lane l).fbk.glitch > s.fld l F.FBK_ENC_CHK_GLITCH_LIM && !s.srcFaulted l .enc then
    (s.faultSrc l .enc).pulseEv l E.FBK_ENC_FAULT
  else s

/-- The counter moved by a signed number of counts. -/
def State.encAdd (s : State) (l : Lane) (d : Int) : State :=
  s.putWord l F.FBK_ENC_CNT_CNT.addr (s.word l F.FBK_ENC_CNT_CNT.addr + BitVec.ofInt 32 d)

/-- ENC_EDGE: accepted levels of PA and PB after an edge (R121, R122). A change of both is illegal and does not count; an
early edge counts and is a glitch. -/
def execEncEdge (l : Lane) (pa pb : Bool) (s : State) : Out :=
  if s.inReset l then done s else
  let f := (s.lane l).fbk
  if pa == f.pa && pb == f.pb then done s else
  let both := pa != f.pa && pb != f.pb
  let early := match f.lastEdge with
    | some t => decide (s.time < t + s.fld l F.FBK_ENC_CFG_MIN_SP)
    | none => false
  let up := Config.encUp f.pa f.pb pa pb
  let s := s.modFbk l (fun f => { f with pa := pa, pb := pb })
  if both then done (s.encGlitch l) else
  let s := s.encAdd l (if up then 1 else -1)
  let n := signed 32 (s.word l F.FBK_ENC_CNT_CNT.addr).toNat
  let s := s.modFbk l (fun f => { f with
    lastEdge := some s.time, edges := ((s.time, n) :: f.edges).take 65, encZero := false, hallRun := 0
    turned := f.turned || (f.up.isSome && f.up != some up), up := some up
    cur := { n := f.cur.n + 1, first := if f.cur.n == 0 then (s.time, n) else f.cur.first, last := (s.time, n) } })
  done (if early then s.encGlitch l else s)

/-- The index latch compared with the previous one (R125). -/
def State.indexCheck (s : State) (l : Lane) (prev cnt : Word) : State :=
  let d := signed 32 (cnt - prev).toNat
  let n4 : Int := 4 * s.fld l F.FBK_ENC_CFG_LINES
  let e := d - (if d > 0 then n4 else if d < 0 then -n4 else 0)
  let clamp := fun (v lim : Int) => if v > lim then lim else if v < -lim then -lim else v
  let s := s.put l F.FBK_IDX_ERR_LAST_ERR (toBits 8 (clamp e 127))
  let s := s.put l F.FBK_IDX_ERR_DRIFT (toBits 16 (clamp (signed 16 (s.fld l F.FBK_IDX_ERR_DRIFT) + e) 32767))
  if e.natAbs ≤ s.fld l F.FBK_ENC_CHK_TOL then s.put l F.FBK_IDX_ERR_MM_CNT 0
  else
    let s := (s.bump l F.FBK_FLT_CNT_IDX).bump l F.FBK_IDX_ERR_MM_CNT
    let s := s.pulseEv l E.FBK_INDEX_MISMATCH
    if s.fld l F.FBK_IDX_ERR_MM_CNT ≥ s.fld l F.FBK_ENC_CHK_M && !s.srcFaulted l .enc then
      (s.faultSrc l .enc).pulseEv l E.FBK_ENC_FAULT
    else s

/-- INDEX_LATCH: an index pulse whose gate holds, while IDX_EN = 1 (R123 to R125). -/
def execIndexLatch (l : Lane) (s : State) : Out :=
  if s.inReset l || !s.flag l F.FBK_ENC_CFG_IDX_EN then done s else
  let cnt := s.word l F.FBK_ENC_CNT_CNT.addr
  let f := (s.lane l).fbk
  let s := s.putWord l F.FBK_IDX_CNT_CNT.addr cnt
  let ts := s.stamp l
  let s := (s.putWord l F.FBK_IDX_TS_LO_TS.addr (ts.setWidth 32)).putWord l F.FBK_IDX_TS_HI_TS.addr ((ts >>> 32).setWidth 32)
  let s := if f.latch.isNone && !s.flag l F.FBK_STAT_ENC_REF then
      (s.putWord l F.FBK_IDX_REF_REF.addr cnt).putFlag l F.FBK_STAT_ENC_REF true else s
  let s := match f.latch with
    | some p => if f.turned || f.ofsSeen then s else s.indexCheck l p cnt
    | none => s
  done (s.modFbk l (fun f => { f with latch := some cnt, turned := false, ofsSeen := false }))

/-- The sector of a Hall state with SEQ = 0 (R127); none for 0b000 and 0b111. -/
def hallSector0 (h : BitVec 3) : Option Nat :=
  match h.toNat with
  | 1 => some 0 | 3 => some 1 | 2 => some 2 | 6 => some 3 | 4 => some 4 | 5 => some 5
  | _ => none

/-- The sector with the direction of SEQ applied: SEQ = 1 reverses the sequence. -/
def hallSector (seq : Bool) (h : BitVec 3) : Option Nat :=
  (hallSector0 h).map (fun k => if seq then (6 - k) % 6 else k)

/-- An illegal Hall event (R127). -/
def State.hallIllegal (s : State) (l : Lane) : State :=
  let s := (s.bump l F.FBK_FLT_CNT_HALL).pulseEv l E.FBK_HALL_ILLEGAL
  let s := s.modFbk l (fun f => { f with hallBad := f.hallBad + 1 })
  if (s.lane l).fbk.hallBad ≥ s.fld l F.FBK_HALL_CFG_HALL_N && !s.srcFaulted l .hall then
    (s.faultSrc l .hall).pulseEv l E.FBK_HALL_FAULT
  else s

/-- HALL_EDGE: a filtered Hall state change (R123, R127). Two valid transitions without an encoder edge between them fault
the encoder where HALL_CHK = 1. -/
def execHallEdge (l : Lane) (h : BitVec 3) (s : State) : Out :=
  if s.inReset l then done s else
  let f := (s.lane l).fbk
  match hallSector (s.flag l F.FBK_HALL_CFG_SEQ) h with
  | none => done (s.hallIllegal l)
  | some k =>
    let step := match f.sector with
      | none => some none
      | some p => if k == (p + 1) % 6 then some (some true) else if p == (k + 1) % 6 then some (some false)
                  else if k == p then some none else none
    match step with
    | none => done ((s.modFbk l (fun f => { f with sector := some k, hallAt := none, hallDt := none })).hallIllegal l)
    | some d =>
      let s := s.modFbk l (fun f => { f with
        sector := some k, hallBad := 0, hallZero := false, hallRun := f.hallRun + 1
        hallUp := d.getD f.hallUp, hallAt := some s.time
        hallDt := match f.hallAt with
          | some t => some (s.time - t)
          | none => none })
      done (if s.flag l F.FBK_SEL_HALL_CHK && (s.lane l).fbk.hallRun ≥ 2 && !s.srcFaulted l .enc then
          (s.faultSrc l .enc).pulseEv l E.FBK_ENC_FAULT
        else s)

/-- One resolver check at a tracking update: FILT consecutive failures fault the source and raise the event (R120). -/
def State.resCheck (s : State) (l : Lane) (n : Nat) (e : Ev) : State :=
  if n == s.fld l F.FBK_RES_CHK_FILT then (s.faultSrc l .res).pulseEv l e else s

/-- RES_TRACK_UPDATE: the tracking loop's angle and speed after an update, the demodulated amplitude (65,535 = full scale),
whether a converter is at full scale, the loop error in counts and the carrier phase (R118 to R120). -/
def execResTrackUpdate (l : Lane) (angle : BitVec 24) (speed : Word) (amp : BitVec 16) (full : Bool) (err : BitVec 16)
    (phase : BitVec 8) (s : State) : Out :=
  if s.inReset l then done s else
  let lowAmp := amp.toNat * 256 < s.fld l F.FBK_RES_CHK_AMP_LO * 65535
  let highAmp := amp.toNat * 256 > s.fld l F.FBK_RES_CHK_AMP_HI * 65535 || full
  let track := err.toNat > s.fld l F.FBK_RES_CHK_TRK_LIM * 16
  let s := s.modFbk l (fun f => { f with
    res := some (angle, speed, s.time)
    los := if lowAmp then f.los + 1 else 0, dos := if highAmp then f.dos + 1 else 0, lot := if track then f.lot + 1 else 0 })
  let s := s.putWord l F.FBK_RES_STAT_AMP.addr (amp ++ phase ++ BitVec.ofNat 8 (sat 8 (err.toNat / 16)))
  let f := (s.lane l).fbk
  let s := s.resCheck l f.los E.FBK_RES_LOS
  let s := s.resCheck l f.dos E.FBK_RES_DOS
  done (s.resCheck l f.lot E.FBK_RES_LOT)

/-- A failed or skipped SSI frame (R129). -/
def State.ssiError (s : State) (l : Lane) : State :=
  let s := (s.bump l F.FBK_FLT_CNT_SSI).pulseEv l E.FBK_SSI_ERR
  let s := s.modFbk l (fun f => { f with ssiBad := f.ssiBad + 1 })
  if (s.lane l).fbk.ssiBad ≥ s.fld l F.FBK_SSI_CFG_SSI_N then s.faultSrc l .ssi else s

/-- SSI_REQUEST: a frame falls due (R128, R129): skipped while the previous frame or its monoflop wait has not ended, and
discarded where the data line is low. -/
def execSsiRequest (l : Lane) (datLow : Bool) (s : State) : Out :=
  if s.inReset l then done s else
  let f := (s.lane l).fbk
  if f.ssiBusy || s.time < f.ssiFree || datLow then done (s.ssiError l)
  else done (s.modFbk l (fun f => { f with
    ssiBusy := true, ssiStamp := s.time + (Config.quot (s.fld l F.FBK_SSI_TIM_LAT * 4) 5).toNat }))

/-- The value that Gray-coded bits stand for. -/
def grayDecode (v : Nat) : Nat := (List.range 32).foldl (fun x k => x ^^^ (v >>> (k + 1))) v

/-- The number of ones among the low `n` bits. -/
def ones (n v : Nat) : Nat := (List.range n).foldl (fun c k => c + v / 2 ^ k % 2) 0

/-- SSI_FRAME: a frame ends: its position bits, error bit, parity bit, and whether the line is low one clock after the last
bit (R128, R129). -/
def execSsiFrame (l : Lane) (data : Word) (err par low : Bool) (s : State) : Out :=
  if s.inReset l || !(s.lane l).fbk.ssiBusy then done s else
  let pw := s.fld l F.FBK_SSI_CFG_PW_M1 + 1
  let v := data.toNat % 2 ^ pw
  let s := s.modFbk l (fun f => { f with ssiBusy := false, ssiFree := s.time + us (s.fld l F.FBK_SSI_TIM_TM) })
  let bad := !low || (s.flag l F.FBK_SSI_CFG_ERRB && err) ||
    (s.flag l F.FBK_SSI_CFG_PAR && (ones pw v + par.toNat) % 2 == 1)
  if bad then done (s.ssiError l) else
  let p := if s.flag l F.FBK_SSI_CFG_GRAY then grayDecode v else v
  done (s.modFbk l (fun f => { f with ssiBad := 0, ssi := ((p, f.ssiStamp) :: f.ssi).take 2 }))

/-- The stamp of a source's latest reading, for the sources that can be stale (R116): an encoder never is, and a Hall state
is current at every instant (R127). -/
def State.readAt (s : State) (l : Lane) (x : Src) : Option Nat :=
  let f := (s.lane l).fbk
  match x with
  | .res => f.res.map (fun r => r.2.2)
  | .ssi => f.ssi.head?.map (fun r => r.2)
  | _ => none

/-- A source is stale at an instant (R116). -/
def State.stale (s : State) (l : Lane) (x : Src) (t : Nat) : Bool :=
  match s.readAt l x with
  | some r => r + us (s.fld l F.FBK_CHK_CFG_EXTRAP_MAX) < t
  | none => false

/-- POS_STALE: at a sampling instant a source's latest reading is older than EXTRAP_MAX (R116). -/
def execPosStale (l : Lane) (x : Src) (s : State) : Out :=
  if s.inReset l || !s.stale l x s.time then done s else
  let s := (s.faultSrc l x).pulseEv l E.FBK_POS_STALE
  done (if s.fld l F.FBK_STAT_ACT == x.code then s.putFlag l F.FBK_ANG_VALID false else s)

/-- SPEED_ZERO_TIMEOUT: ZERO_TO has passed without an edge of ENC or HALL (R131). -/
def execSpeedZeroTimeout (l : Lane) (x : Src) (s : State) : Out :=
  if s.inReset l then done s else
  match x with
  | .enc => done (s.modFbk l (fun f => { f with encZero := true }))
  | .hall => done (s.modFbk l (fun f => { f with hallZero := true }))
  | _ => done s

/-- The advance of an angle in counts at a speed over a time in counts of 12.5 ns (R115). -/
def advance (w : Word) (dt : Int) : Int :=
  roundDiv (fVal w * dt * 65536 * piDen) (2 ^ 149 * 80000000 * (2 * piNum))

/-- The electrical speed of `n` mechanical counts in `dt` time counts, of `per` counts per revolution (R130). -/
def countSpeed (n : Int) (dt per pp : Nat) : Word :=
  if dt == 0 then 0 else fFrac (n * 80000000 * (2 * piNum) * pp) (dt * per * piDen)

/-- The smaller in magnitude of a speed and a bound (R131). -/
def smaller (v b : Word) : Word := if fLt (fAbs b) (fAbs v) then b else v

/-- The encoder's speed before its direction (R130, R131). -/
def State.encSpeed (s : State) (l : Lane) (t : Nat) : Word :=
  let f := (s.lane l).fbk
  let per := 4 * s.fld l F.FBK_ENC_CFG_LINES
  let pp := s.fld l F.FBK_MECH_PP
  if f.encZero then 0
  else if s.flag l F.FBK_STAT_SPD_MODE then
    let ws := (f.win.take (s.fld l F.FBK_SPD_CFG_W_M1 + 1)).filter (fun w => w.n != 0)
    match ws.head?, ws.getLast? with
    | some a, some b => countSpeed (a.last.2 - b.first.2) (a.last.1 - b.first.1) per pp
    | _, _ => 0
  else
    match f.edges.head?, f.edges[s.fld l F.FBK_SPD_CFG_K_M1 + 1]? with
    | some a, some b =>
      let v := countSpeed (a.2 - b.2) (a.1 - b.1) per pp
      let one := countSpeed (if fSign v then -1 else 1) (t - a.1) per pp
      if t ≤ a.1 then v else smaller v one
    | _, _ => 0

/-- The Hall speed (R130, R131). -/
def State.hallSpeed (s : State) (l : Lane) (t : Nat) : Word :=
  let f := (s.lane l).fbk
  let one := fun (dt : Nat) => countSpeed (if f.hallUp then 1 else -1) dt 6 1
  match f.hallAt, f.hallDt with
  | some a, some d => if f.hallZero then 0 else if t ≤ a then one d else smaller (one d) (one (t - a))
  | _, _ => 0

/-- The SSI speed: the difference of the last two good frames over that of their stamps (R130). -/
def State.ssiSpeed (s : State) (l : Lane) : Word :=
  let pw := s.fld l F.FBK_SSI_CFG_PW_M1 + 1
  match (s.lane l).fbk.ssi with
  | a :: b :: _ => countSpeed (signed pw (a.1 + 2 ^ pw - b.1)) (a.2 - b.2) (2 ^ pw) (s.fld l F.FBK_MECH_PP)
  | _ => 0

/-- The centre of a Hall sector (R127). -/
def sectorCentre (k : Nat) : Nat := [0, 10923, 21845, 32768, 43691, 54613].getD k 0

/-- A source's electrical angle and speed at a sampling instant (R113, R115, R119, R123, R127, R128, R130); none before its
first reading. -/
def State.srcRead (s : State) (l : Lane) (x : Src) (t : Nat) : Option (Nat × Word) :=
  let f := (s.lane l).fbk
  let neg := s.flag l F.FBK_MECH_DIR
  let pp := s.fld l F.FBK_MECH_PP
  let sg : Int := if neg then -1 else 1
  let sw := fun (w : Word) => if neg then fNeg w else w
  match x with
  | .res => f.res.map (fun r =>
      let ratio := s.fld l F.FBK_RES_CFG_RATIO
      let w := sw (fMul r.2.1 (fInt ratio))
      let base := roundDiv (sg * (ratio * r.1.toNat : Nat)) 256 + s.fld l F.FBK_ANG_OFS_RES_ANG
      (angleMod (base + advance w ((t : Int) - r.2.2)), w))
  | .enc =>
      let per := 4 * s.fld l F.FBK_ENC_CFG_LINES
      let n := ((signed 32 (s.word l F.FBK_ENC_CNT_CNT.addr - s.word l F.FBK_IDX_REF_REF.addr).toNat) % (per : Int)).toNat
      let w := sw (s.encSpeed l t)
      let base := roundDiv (sg * (n * pp * 65536 : Nat)) per + s.fld l F.FBK_ANG_OFS_ENC_ANG
      let lim : Int := roundDiv ((pp * 65536 : Nat) : Int) per
      let adv := match f.lastEdge with
        | some e => let a := advance w ((t : Int) - e); if a > lim then lim else if a < -lim then -lim else a
        | none => 0
      some (angleMod (base + adv), w)
  | .ssi => f.ssi.head?.map (fun r =>
      let pw := s.fld l F.FBK_SSI_CFG_PW_M1 + 1
      let w := sw (s.ssiSpeed l)
      let base := roundDiv (sg * (r.1 * pp * 65536 : Nat)) (2 ^ pw) + s.fld l F.FBK_ANG_OFS2_SSI_ANG
      (angleMod (base + advance w ((t : Int) - r.2)), w))
  | .hall => f.sector.map (fun k =>
      let w := s.hallSpeed l t
      let c := sectorCentre k + s.fld l F.FBK_ANG_OFS2_HALL_ANG
      match f.hallAt with
      | some e =>
        if fVal w == 0 then (angleMod c, w)
        else
          let edge : Int := if f.hallUp then (c : Int) - 5461 else (c : Int) + 5461
          let a := edge + advance w ((t : Int) - e)
          let a := if a > (c : Int) + 5461 then (c : Int) + 5461 else if a < (c : Int) - 5461 then (c : Int) - 5461 else a
          (angleMod a, w)
      | none => (angleMod c, w))
  | .obs =>
      let m := (s.lane l).mem
      some (angleMod (stepsRound (fVal (mw m (b10Wire 0x083)))), mw m (b10Wire 0x084))

/-- A source is configured for its use (R133). -/
def State.srcUsed (s : State) (l : Lane) (x : Src) : Bool :=
  match x with
  | .obs => s.flag l F.FBK_SEL_OBS_EN
  | _ => s.fld l F.FBK_SEL_PRIM == x.code || s.fld l F.FBK_SEL_SEC == x.code ||
         (x == .hall && s.flag l F.FBK_SEL_HALL_CHK)

/-- A source is healthy at an instant (R133, R135): configured, not faulted, not in its return qualification, not stale, an
encoder referenced, the observer locked. -/
def State.srcHealthy (s : State) (l : Lane) (x : Src) (t : Nat) : Bool :=
  s.srcUsed l x && !s.srcFaulted l x && !(s.lane l).fbk.qual.getLsbD x.idx && !s.stale l x t &&
  match x with
  | .enc => s.flag l F.FBK_STAT_ENC_REF
  | .obs => fLt (fFrac 1 2) (mw (s.lane l).mem (b10Wire 0x085))
  | _ => (s.srcRead l x t).isSome

/-- The order of R133: PRIM, SEC, then OBS. -/
def State.srcOrder (s : State) (l : Lane) : List Src :=
  (srcOfCode (s.fld l F.FBK_SEL_PRIM)).toList ++ (srcOfCode (s.fld l F.FBK_SEL_SEC)).toList ++
  (if s.flag l F.FBK_SEL_OBS_EN then [.obs] else [])

/-- The active source a fast-cycle start chooses (R133, R135): the first healthy one in order that may stand there; a
candidate below the active source takes over only where no other is healthy. -/
def State.srcChoice (s : State) (l : Lane) (t : Nat) : Option Src :=
  let hs := (s.srcOrder l).filter (fun x => s.srcHealthy l x t)
  let act := srcOfCode (s.fld l F.FBK_STAT_ACT)
  match hs.find? (fun x => !(s.lane l).fbk.below.getLsbD x.idx || act == some x) with
  | some x => some x
  | none => hs.head?

/-- The difference of two angles, the shorter way round. -/
def angleGap (a b : Nat) : Nat :=
  let d := (a + 65536 - b % 65536) % 65536
  min d (65536 - d)

/-- An angle known to lie farther from a referee. -/
def State.posDisagree (s : State) (l : Lane) : State :=
  let f := (s.lane l).fbk
  match srcOfCode (s.fld l F.FBK_SEL_PRIM), srcOfCode (s.fld l F.FBK_SEL_SEC) with
  | some p, some q =>
    let s := (s.pulseEv l E.FBK_POS_DISAGREE).modFbk l (fun f => { f with posBad := 0 })
    let angOf := fun (x : Src) => (f.ang[x.idx]?).join
    let ok := fun (x : Src) => bit (s.word l F.FBK_STAT_HEALTHY.addr) (8 + x.idx) && !s.srcFaulted l x
    let peer := nth (s.lane l).eng.exch 8
    let γ : Int := if s.fld l F.TRC_SET_GEOM == 1 then 5461 else 0
    let referee : Option Nat :=
      if s.flag l F.FBK_SEL_HALL_CHK && ok .hall && p != .hall && q != .hall then angOf .hall
      else if s.flag l F.FBK_SEL_PEER_CHK && s.linkUp l && !(s.lane l).eng.exch.isEmpty then
        some (angleMod (stepsRound (fVal peer) + (if l == .A then γ else -γ)))
      else if ok .obs then angOf .obs else none
    match referee, angOf p, angOf q with
    | some r, some a, some b => if angleGap a r > angleGap b r then s.faultSrc l p else s.faultSrc l q
    | _, _, _ => (s.faultSrc l p).faultSrc l q
  | _, _ => s

/-- POS_DISAGREE: PRIM and SEC have disagreed for POS_N consecutive fast cycles (R133). -/
def execPosDisagree (l : Lane) (s : State) : Out :=
  if s.inReset l || (s.lane l).fbk.posBad < s.fld l F.FBK_CHK_CFG_POS_N then done s else done (s.posDisagree l)

/-- SOURCE_RETURN: a cleared source has been healthy for 100 ms; `agreed` says that its angle agreed with the active
source's throughout (R135). -/
def execSourceReturn (l : Lane) (x : Src) (agreed : Bool) (s : State) : Out :=
  if s.inReset l || !(s.lane l).fbk.qual.getLsbD x.idx then done s else
  let full := s.flag l F.FBK_SEL_RETURN_EN && agreed
  done (s.modFbk l (fun f => { f with
    qual := f.qual &&& ~~~(1#5 <<< x.idx)
    below := if full then f.below &&& ~~~(1#5 <<< x.idx) else f.below ||| (1#5 <<< x.idx) }))

/-- FBK_ENC_OFS written: added to the counter at the next fast-cycle start (R126). -/
def State.encOffset (s : State) (l : Lane) (w : Word) : State :=
  s.modFbk l (fun f => { f with ofs := f.ofs + signed 32 w.toNat, ofsSeen := true })
def execEncOffsetWrite (l : Lane) (ofs : Word) (s : State) : Out :=
  done (s.writing l 0x24058 (fun s => (s.encOffset l ofs).reply l .ok))

/-- FBK_CLR.CNT: FBK_FLT_CNT cleared (R138). -/
def State.clrFbkCnt (s : State) (l : Lane) : State := s.putWord l F.FBK_FLT_CNT_GLITCH.addr 0
def execFbkClrCnt (l : Lane) (s : State) : Out := done (s.writing l 0x2506C (fun s => (s.clrFbkCnt l).reply l .ok))

/-- FBK_CLR.DRIFT: DRIFT and LAST_ERR cleared (R126). -/
def State.clrDrift (s : State) (l : Lane) : State := (s.put l F.FBK_IDX_ERR_DRIFT 0).put l F.FBK_IDX_ERR_LAST_ERR 0
def execFbkClrDrift (l : Lane) (s : State) : Out := done (s.writing l 0x2506C (fun s => (s.clrDrift l).reply l .ok))

/-- FBK_CLR.ENC_REF: the present count copied into FBK_IDX_REF, and the encoder referenced (R123). -/
def State.encRef (s : State) (l : Lane) : State :=
  (s.putWord l F.FBK_IDX_REF_REF.addr (s.word l F.FBK_ENC_CNT_CNT.addr)).putFlag l F.FBK_STAT_ENC_REF true
def execFbkClrEncRef (l : Lane) (s : State) : Out := done (s.writing l 0x2506C (fun s => (s.encRef l).reply l .ok))

/-- FBK_CLR.FAULT: a source's fault cleared, and its 100 ms qualification begun (R135). -/
def State.clrSrc (s : State) (l : Lane) (i : Nat) : State :=
  if !bit (s.word l F.FBK_STAT_FAULT.addr) (16 + i) then s else
  (s.putFlag l ⟨F.FBK_STAT_FAULT.addr, 16 + i, 1⟩ false).modFbk l (fun f => { f with
    qual := f.qual ||| (1#5 <<< i), los := 0, dos := 0, lot := 0, ssiBad := 0, hallBad := 0, hallRun := 0 })
def execFbkClrFault (l : Lane) (x : Src) (s : State) : Out :=
  done (s.writing l 0x2506C (fun s => (s.clrSrc l x.idx).reply l .ok))

/-- The five sources. -/
def allSrc : List Src := [.res, .enc, .ssi, .hall, .obs]

/-- The encoder's window rolled at a fast-cycle boundary, and its speed method chosen (R130, R131). -/
def State.encWindow (s : State) (l : Lane) : State :=
  let s := s.modFbk l (fun f => { f with win := (f.cur :: f.win).take 64, cur := {} })
  let n := (((s.lane l).fbk.win.take (s.fld l F.FBK_SPD_CFG_W_M1 + 1)).map (·.n)).foldl (· + ·) 0
  if s.flag l F.FBK_STAT_SPD_MODE then
    (if n ≤ s.fld l F.FBK_SPD_CFG_CHG_LO then s.putFlag l F.FBK_STAT_SPD_MODE false else s)
  else if n ≥ s.fld l F.FBK_SPD_CFG_CHG_HI then s.putFlag l F.FBK_STAT_SPD_MODE true else s

/-- What the feedback interface does at a fast-cycle start (R112, R126, R131 to R135): offsets are added, speeds beyond
18,850 rad/s fault their source, the active source is chosen, and the angle and speed of the sampling instant are
delivered. The set's consequence of a lost angle is the traction state machine's. -/
def State.feedback (s : State) (l : Lane) : State :=
  let s := (s.encAdd l (s.lane l).fbk.ofs).modFbk l (fun f => { f with ofs := 0 })
  let s := s.encWindow l
  let t := s.time - s.fld l F.SMP_TIM_LEAD
  let s := allSrc.foldl (fun s x =>
    match s.srcRead l x t with
    | some r =>
      let s := s.modFbk l (fun f => { f with ang := f.ang.setIfInBounds x.idx (some r.1) })
      if s.srcUsed l x && fAbove r.2 18850 1 && !s.srcFaulted l x then (s.faultSrc l x).pulseEv l E.FBK_SPEED_RANGE else s
    | none => s) s
  let s := allSrc.foldl (fun s x => s.putFlag l ⟨F.FBK_STAT_HEALTHY.addr, 8 + x.idx, 1⟩ (s.srcHealthy l x t)) s
  let act := s.srcChoice l t
  let code := match act with
    | some x => x.code
    | none => 0
  let changed := code != s.fld l F.FBK_STAT_ACT
  let s := s.modFbk l (fun f => { f with
    changed := changed, below := match act with
      | some x => f.below &&& ~~~(1#5 <<< x.idx)
      | none => f.below })
  let s := s.put l F.FBK_STAT_ACT code
  let s := if changed && code != 0 then s.pulseEv l E.FBK_SRC_CHANGE else s
  let s := match act.bind (fun x => s.srcRead l x t) with
    | some r => ((s.putFlag l F.FBK_ANG_VALID true).put l F.FBK_ANG_ANGLE r.1).putWord l F.FBK_SPEED_SPEED.addr r.2
    | none => s.putFlag l F.FBK_ANG_VALID false
  let s := s.levelEv l E.FBK_NO_SOURCE (code == 0)
  match srcOfCode (s.fld l F.FBK_SEL_PRIM), srcOfCode (s.fld l F.FBK_SEL_SEC) with
  | some p, some q =>
    if s.srcHealthy l p t && s.srcHealthy l q t then
      match s.srcRead l p t, s.srcRead l q t with
      | some a, some b =>
        let far := angleGap a.1 b.1 > s.fld l F.FBK_CHK_CFG_POS_TOL * 32
        s.modFbk l (fun f => { f with posBad := if far then f.posBad + 1 else 0 })
      | _, _ => s
    else s.modFbk l (fun f => { f with posBad := 0 })
  | _, _ => s

end Sys2Proof.Machine
end

