-- ==== Sys2Proof/Machine/Sensing.lean ====
section
/-! DEFINITION. Current and voltage sensing (chapter 6): results and their checks, sense streams, the DC-link comparison,
calibration and clearing; with the current limits that a result trips in the converter and the charger (R271, R286). -/
namespace Sys2Proof.Machine

/-- The physical value of an input: (code − OFS) × GAIN in FP32 (R143). -/
def State.physOf (s : State) (l : Lane) (n : Nat) (code : Nat) : Word :=
  fMul (fSub (fInt code) (fInt (s.fld l (F.SMP_IN_OFS_OFS n)))) (s.word l (F.SMP_IN_GAIN_GAIN n).addr)
def State.phys (s : State) (l : Lane) (n : Nat) : Word := s.physOf l n (s.fld l (F.SMP_RAW_CODE n))

/-- The value of a sense stream as its lane uses it: the signed output times the divider is the law's; the word is the
signed output. -/
def State.senseVal (s : State) (l : Lane) (m : Nat) : Int := signed 16 (s.fld l (F.SMP_SNS_VALUE m))

/-- A stream is decoded in a lane (R18). -/
def decodes (l : Lane) (m : Nat) : Bool :=
  match l with
  | .A => m == 0 || m == 2 || m ≥ 3
  | .B => m == 1 || m ≥ 3

/-- A lane's own DC-link stream (R147). -/
def linkStream : Lane → Nat
  | .A => 0
  | .B => 1

def State.inputFaulted (s : State) (l : Lane) (n : Nat) : Bool := bit (s.word l F.SMP_FLT_FLT.addr) n
def State.streamLost (s : State) (l : Lane) (m : Nat) : Bool := bit (s.word l F.SMP_SNS_FLT_LOST.addr) m

/-- The consequences of a faulted input (R152). -/
def State.inputConsequence (s : State) (l : Lane) (n : Nat) : State :=
  if n < 3 then s.setFault l 2
  else if n < 5 then s.phaseStop l ((ownPhases l).getD (n - 3) 0)
  else if n < 9 then (if s.holdsAny l then s.chgFault l 10 else s.putFlag l F.RED_STAT_SUBJ_OK false)
  else if n == 12 && s.fld l F.CE_SP_STAT_SRC_ACT == 1 then s.spFault l
  else s

/-- An input marked faulted (R148, R149). -/
def State.faultInput (s : State) (l : Lane) (n : Nat) (e : Ev) : State :=
  let was := s.inputFaulted l n
  let s := s.putFlag l ⟨F.SMP_FLT_FLT.addr, n, 1⟩ true
  let s := s.pulseEv l e
  if was then s else s.inputConsequence l n

/-- The check of a magnitude in amperes against LIM / 256 × IFS, IFS = 32,768 × |GAIN of input 00| (R150). -/
def State.aboveIfs (s : State) (l : Lane) (x : Word) (lim : Nat) : Bool :=
  (fVal x).natAbs * 256 > lim * 32768 * (fVal (s.word l (F.SMP_IN_GAIN_GAIN 0).addr)).natAbs

/-- The three-phase sum at a sampling instant (R150). -/
def State.sumCheck (s : State) (l : Lane) : State :=
  let v := fAdd (fAdd (s.phys l 0) (s.phys l 1)) (s.phys l 2)
  let s := s.putWord l F.SMP_ISUM_SUM.addr v
  if !s.flag l F.SMP_CHK_SUM_EN then s.modSmp l (fun x => { x with isum := 0 })
  else if s.aboveIfs l v (s.fld l F.SMP_CHK_SUM_LIM) then
    let n := (s.lane l).smp.isum + 1
    let s := s.modSmp l (fun x => { x with isum := n })
    if n == s.fld l F.SMP_CHK_SUM_N then ((s.bump l F.SMP_FRZ_CNT_ISUM).pulseEv l E.SMP_ISUM).setFault l 2 else s
  else s.modSmp l (fun x => { x with isum := 0 })

/-- The prediction residual at a sampling instant (R150), and its count against ORES_LIM while OBS is active (R224). The
predicted current is the predictor's, whose value at the sampling instant the spec does not write out. -/
def State.residCheck (s : State) (l : Lane) : State :=
  let v := fAbs (Config.kernel 0x6D [s.phys l 0, s.phys l 1, s.phys l 2, s.word l F.TRC_VD_VD.addr, s.word l F.TRC_VQ_VQ.addr,
    s.word l F.FBK_SPEED_SPEED.addr, s.word l F.FBK_ANG_ANGLE.addr] 0)
  let s := s.putWord l F.SMP_RESID_RESID.addr v
  let obs := s.fld l F.FBK_STAT_ACT == 5 && s.aboveIfs l v (s.fld l F.TRC_OBS_CFG_ORES_LIM)
  let s := s.modTrc l (fun t => { t with oresCnt := if obs then t.oresCnt + 1 else 0 })
  if (s.lane l).fbk.changed || !s.aboveIfs l v (s.fld l F.SMP_CHK_RES_LIM) then s.modSmp l (fun x => { x with resid := 0 })
  else
    let n := (s.lane l).smp.resid + 1
    let s := s.modSmp l (fun x => { x with resid := n })
    if n == s.fld l F.SMP_CHK_RES_N then ((s.bump l F.SMP_FRZ_CNT_RESID).pulseEv l E.SMP_IRESID).setFault l 2 else s

/-- A converter phase current compared with ±IPK: the phase is off for the rest of its period (R271). The squared current is
gathered for the overload accumulator (R272). -/
def State.ipkCheck (s : State) (l : Lane) (k : Fin 2) (v : Word) : State :=
  let m := (ownPhases l).getD k.val 0
  let s := s.modSmp l (fun x => { x with
    sq := x.sq.set k (x.sq[k].1 + (fVal v).natAbs * (fVal v).natAbs, x.sq[k].2 + 1) })
  if !fAbove v (s.fld l F.DCL_ILIM_IPK) 1 || !s.phaseActive l m || (s.lane l).smp.ipkNow[k] then s else
  let s := s.gatesOff (phaseChans m)
  let s := (s.bump l F.DCL_CNT_IPK).pulseEv l E.DCL_IPK
  let n := (s.lane l).smp.ipk[k] + 1
  let s := s.modSmp l (fun x => { x with ipk := x.ipk.set k n, ipkNow := x.ipkNow.set k true })
  if n ≥ s.fld l F.DCL_ILIM_IPK_N then s.phaseStop l m else s

/-- A charger current compared with ±IPK of its stage, in the token holder: that leg or bridge is off for the rest of its
period; IPK_N such periods stop the charger, cause 8 (R286, R294). -/
def State.chgIpk (s : State) (l : Lane) (k : Fin 4) (v : Word) : State :=
  let dab := k.val == 3
  let lim := if dab then s.fld l F.DAB_ILIM_IPK else s.fld l F.AFE_ILIM_IPK
  if !fAbove v lim 1 || !s.holdsAny l || !s.chgSession l || (s.lane l).smp.ipkCNow[k] then s else
  let s := s.gatesOff (if dab then dabChans
    else match k.val with
      | 0 => [20, 21] | 1 => [22, 23] | _ => [24, 25])
  let s := if dab then (s.bump l F.DAB_CNT_IPK).pulseEv l E.DAB_IPK else (s.bump l F.AFE_CNT_IPK).pulseEv l E.AFE_IPK
  let n := (s.lane l).smp.ipkC[k] + 1
  let s := s.modSmp l (fun x => { x with ipkC := x.ipkC.set k n, ipkCNow := x.ipkCNow.set k true })
  if n ≥ (if dab then s.fld l F.DAB_ILIM_IPK_N else s.fld l F.AFE_ILIM_IPK_N) then s.chgFault l 8 else s

/-- What a result means to the functions that use its input. -/
def State.useResult (s : State) (l : Lane) (n : Fin 24) : State :=
  let v := s.phys l n.val
  if n.val == 0 then
    let ts := s.stamp l
    (s.putWord l F.SMP_TS_LO_TS.addr (ts.setWidth 32)).putWord l F.SMP_TS_HI_TS.addr ((ts >>> 32).setWidth 32)
  else if n.val == 2 then ((s.sumCheck l).residCheck l).modSmp l (fun x => { x with fresh := true })
  else if n.val == 3 then s.ipkCheck l 0 v
  else if n.val == 4 then s.ipkCheck l 1 v
  else if n.val == 5 then s.chgIpk l 0 v
  else if n.val == 6 then s.chgIpk l 1 v
  else if n.val == 7 then s.chgIpk l 2 v
  else if n.val == 8 then s.chgIpk l 3 v
  else if n.val == 12 && s.fld l F.CE_SP_STAT_SRC_ACT == 1 then s.put l F.CE_SP_STAT_RAW (s.fld l (F.SMP_RAW_CODE 12))
  else if 13 ≤ n.val && n.val < 19 then
    let k := n.val - 13
    let s := s.put l (F.SMP_TEMP_TEMP k) (fToSigned 16 (fMul v (fInt 16)))
    let s := s.put l (F.SMP_TEMP_TAG k) (s.fld l (F.SMP_RAW_TAG n.val))
    s.put l (F.SMP_TEMP_RAW12 k) (s.fld l (F.SMP_RAW_CODE n.val) / 16)
  else s

/-- A SAR result: its tag and range are checked, then it is used (R142, R144, R148, R149). -/
def State.sarResult (s : State) (l : Lane) (n : Fin 24) (code : BitVec 16) (tag : BitVec 4) (waited edge : Bool) : State :=
  if !s.flag l (F.SMP_IN_CFG_USED n.val) then s else
  let x := (s.lane l).smp
  let repeated := x.seen.getLsbD n.val && s.fld l (F.SMP_RAW_TAG n.val) == tag.toNat
  let s := s.putWord l (F.SMP_RAW_CODE n.val).addr (code ++ tag ++ 0#12)
  let s := if waited then (s.bump l F.SMP_STAT_SLIP_CNT).pulseEv l E.SMP_SLIP else s
  let s := if n.val == 0 then
      let s := s.putFlag l F.SMP_STAT_EDGE_WIN edge
      if edge then s.pulseEv l E.SMP_EDGE_WIN else s
    else s
  let outside := s.flag l (F.SMP_IN_CFG_LIM_EN n.val) &&
    (code.toNat < s.fld l (F.SMP_IN_LIM_LO n.val) || code.toNat > s.fld l (F.SMP_IN_LIM_HI n.val))
  let before := x.out.getLsbD n.val
  let run := if repeated then x.rep[n] + 1 else 0
  let s := s.modSmp l (fun x => { x with
    seen := x.seen ||| (1#24 <<< n.val), rep := x.rep.set n run
    out := if outside then x.out ||| (1#24 <<< n.val) else x.out &&& ~~~(1#24 <<< n.val) })
  let s := if repeated then s.bump l F.SMP_FRZ_CNT_FRZ else s
  let s := if repeated && run == s.fld l F.SMP_CHK_FRZ_N then s.faultInput l n.val E.SMP_FROZEN else s
  let s := if outside && before then
      if s.inputFaulted l n.val then s else (s.bump l F.SMP_FRZ_CNT_RNG).faultInput l n.val E.SMP_RANGE
    else s
  s.useResult l n

/-- Expected codes of the internal references 0.300 V and 3.000 V at 3.3 V full scale (R140, R150), in thirds of 1/11 code:
code × 11 against 65,536 and 655,360. -/
def refOff (high : Bool) (code : Nat) : Bool :=
  let want : Int := if high then 655360 else 65536
  ((11 * code : Nat) - want).natAbs > 164 * 11

/-- The DC-link sources of a lane (R265): both senses lost stop the converter in both lanes; an own sense lost with the link
down stops the lane's phases; otherwise DCL_STAT.SRC says what is used. -/
def State.dclSource (s : State) (l : Lane) : State :=
  if s.inReset l then s else
  let own := s.streamLost l (linkStream l)
  let peer := s.streamLost l.other (linkStream l.other)
  let dis := s.flag l F.SMP_STAT_DCL_DIS
  let up := s.linkUp l
  let src := if own then (if up && !peer then 1 else 3) else if dis then 2 else 0
  let was := s.fld l F.DCL_STAT_SRC
  let s := s.put l F.DCL_STAT_SRC src
  let s := if src == 1 && was != 1 then s.pulseEv l E.DCL_SENSE_ONE else s
  if own && peer && up then (s.dclFault l).dclFault l.other
  else if src == 3 then (ownPhases l).foldl (fun s m => s.phaseStop l m) s
  else s

/-- CONVERSION_RESULT. -/
def execConversionResult (l : Lane) (r : ConvIn) (s : State) : Out :=
  if s.inReset l then done s else
  match r with
  | .sar n code tag waited edge => done (s.sarResult l n code tag waited edge)
  | .reference high code =>
    if refOff high code.toNat then
      done (((s.putFlag l F.SMP_STAT_REF_OK false).pulseEv l E.SMP_REF_FAIL).selfFail l 5)
    else done (s.putFlag l F.SMP_STAT_REF_OK true)
  | .stream m value tag =>
    if !decodes l m.val then done s else
    let x := (s.lane l).smp
    if x.skip[m] != 0 then done (s.modSmp l (fun x => { x with skip := x.skip.set m (x.skip[m] - 1) })) else
    let repeated := x.sseen.getLsbD m.val && s.fld l (F.SMP_SNS_TAG m.val) == tag.toNat
    let run := if repeated then x.srep[m] + 1 else 0
    let s := (s.put l (F.SMP_SNS_VALUE m.val) value.toNat).put l (F.SMP_SNS_TAG m.val) tag.toNat
    let s := s.modSmp l (fun x => { x with sseen := x.sseen ||| (1#7 <<< m.val), srep := x.srep.set m run })
    let s := if repeated then s.bump l F.SMP_FRZ_CNT_FRZ else s
    done (if repeated && run == s.fld l F.SMP_CHK_FRZ_N then
        (s.putFlag l ⟨F.SMP_SNS_FLT_LOST.addr, m.val, 1⟩ true).pulseEv l E.SMP_FROZEN
      else s)

/-- A stream's modulator clock changes over to the other lane's; the first three outputs after it are discarded (R145, R146). -/
def State.snsClock (s : State) (m : Fin 7) (toB : Bool) : State :=
  if s.sns[m].clkB == toB then s else
  let s := s.modSns m (fun x => { x with clkB := toB })
  let s := s.mbump (F.SNS_CNT_CHG m.val)
  s.both (fun l s => if s.inReset l then s else s.modSmp l (fun x => { x with skip := x.skip.set m 3 }))

/-- SNS_CLOCK_CHANGEOVER: S3 to S6 change to the other lane's modulator clock while CLK_SEL is automatic (R145). -/
def execSnsClockChangeover (m : Fin 7) (toB : Bool) (s : State) : Out :=
  done (if m.val < 3 || s.mfld (F.SNS_CFG_CLK_SEL m.val) != 0 then s else s.snsClock m toB)

/-- SNS_LOST: a stream has lost its clock, shows a run of equal bits or gives no output (R146). -/
def execSnsLost (w : Seer) (m : Fin 7) (s : State) : Out :=
  match w with
  | .lane l =>
    if s.inReset l || !decodes l m.val then done s else
    let s := s.putFlag l ⟨F.SMP_SNS_FLT_LOST.addr, m.val, 1⟩ true
    let s := s.putFlag l (F.SMP_SNS_LOST m.val) true
    let s := s.modSmp l (fun x => { x with skip := x.skip.set m 3 })
    let s := s.pulseEv l E.SMP_SNS_LOST
    done (if m.val < 2 then (s.dclSource l).dclSource l.other else s)
  | .mon =>
    if !s.mon.alive || m.val ≥ 2 then done s else
    let k : Fin 2 := ⟨m.val % 2, by omega⟩
    let s := s.mbump (F.SNS_CNT_LOSS m.val)
    let s := s.modMon (fun x => { x with sst := { x.sst with u := x.sst.u.set k none, lost := x.sst.lost.set k true } })
    done (s.monEv E.MON_SNS_LOST)

/-- The monitor's decode of S0 or S1 gives a valid output, in volts: U_LOST is cleared (R216). -/
def State.monSense (s : State) (k : Fin 2) (value : BitVec 16) (volts : Nat) : State :=
  let s := s.mput (F.SNS_MON_VALUE k.val) value.toNat
  let s := s.modMon (fun x => { x with sst := { x.sst with u := x.sst.u.set k (some volts), lost := x.sst.lost.set k false } })
  let lo := match s.mon.sst.u[0], s.mon.sst.u[1] with
    | some a, some b => min a b
    | some a, none => a
    | none, some b => b
    | none, none => volts
  (s.modMon (fun x => { x with sst := { x.sst with uLast := lo } })).mputFlag F.MON_SST_STAT_U_LOST false

/-- SNS_RESTORED: a lost stream gives valid outputs again, its first three discarded; in a lane the fault waits for SMP_CLR
(R146, R152, R216). -/
def execSnsRestored (w : Seer) (m : Fin 7) (value : BitVec 16) (volts : Nat) (s : State) : Out :=
  match w with
  | .lane l =>
    if s.inReset l || !decodes l m.val then done s else
    let s := (s.putFlag l (F.SMP_SNS_LOST m.val) false).put l (F.SMP_SNS_VALUE m.val) value.toNat
    done (s.modSmp l (fun x => { x with skip := x.skip.set m 0 }))
  | .mon => if !s.mon.alive || m.val ≥ 2 then done s else done (s.monSense ⟨m.val % 2, by omega⟩ value volts)

/-- DCL_DISAGREE: the lanes' DC-link values have disagreed for DIS_N fast cycles; or the monitor's decodes for four outputs
(R147, R265). -/
def execDclDisagree (w : Seer) (s : State) : Out :=
  match w with
  | .lane k =>
    if s.inReset k || (s.lane k).smp.dis < s.fld k F.SMP_SNSCHK_DIS_N then done s else
    let s := s.both (fun l s => if s.inReset l then s else
      (s.putFlag l F.SMP_STAT_DCL_DIS true).levelEv l E.SMP_DCL_DISAGREE true)
    done ((s.dclSource .A).dclSource .B)
  | .mon => done (s.monEv E.MON_DCL_DISAGREE)

/-- The loop that uses an input (R154), and the channels it drives. -/
def inputLoop (l : Lane) (n : Nat) : Option (List Nat × List (Fin 34)) :=
  if n < 3 || (9 ≤ n && n < 12) then some ([1], setChans l)
  else if n < 5 then some ([3], convChans l)
  else if n < 8 then some ([4], afeChans)
  else if n == 8 then some ([5], dabChans)
  else none

/-- SMP_CAL.START written (R151): accepted while every loop that uses a masked input is open and its gates are off. -/
def State.calStart (s : State) (l : Lane) (mask : BitVec 24) : State :=
  let busy := (List.range 24).any (fun n => mask.getLsbD n &&
    match inputLoop l n with
    | some (ls, cs) => ls.any (s.loopClosed l) || cs.any (fun c => s.hv[c].outOn && s.hvOwner c == l)
    | none => false)
  if mask.getLsbD 12 then s.reject l .rangeErr
  else if busy then s.reject l .stateErr
  else ((s.put l F.SMP_CAL_MASK mask.toNat).putFlag l F.SMP_STAT_CAL_BUSY true).reply l .ok

/-- CALIBRATION_START. -/
def execCalibrationStart (l : Lane) (mask : BitVec 24) (s : State) : Out :=
  done (s.writing l 0x28050 (fun s => s.calStart l mask))

/-- CAL_DONE: 256 results of each masked input have been averaged (R151). -/
def execCalDone (l : Lane) (avg : Vector (BitVec 16) 24) (s : State) : Out :=
  if s.inReset l || !s.flag l F.SMP_STAT_CAL_BUSY then done s else
  let mask := s.fld l F.SMP_CAL_MASK
  let s := (List.finRange 24).foldl (fun (s : State) (n : Fin 24) =>
    if mask / 2 ^ n.val % 2 == 0 then s
    else
      let v := avg[n].toNat
      if 32768 - 2048 ≤ v && v ≤ 32768 + 2048 then s.put l (F.SMP_IN_OFS_OFS n.val) v
      else s.pulseEv l E.SMP_CAL_FAIL) s
  done ((s.putFlag l F.SMP_STAT_CAL_BUSY false).pulseEv l E.SMP_CAL_DONE)

/-- SMP_CLR.CNT: SLIP_CNT and SMP_FRZ_CNT cleared (R154). -/
def State.clrSmpCnt (s : State) (l : Lane) : State :=
  (s.put l F.SMP_STAT_SLIP_CNT 0).putWord l F.SMP_FRZ_CNT_FRZ.addr 0
def execSmpClrCnt (l : Lane) (s : State) : Out := done (s.writing l 0x28054 (fun s => (s.clrSmpCnt l).reply l .ok))

/-- SMP_CLR.SNS: the loss of a stream cleared (R152). -/
def State.clrSns (s : State) (l : Lane) (m : Nat) : State :=
  let s := s.putFlag l ⟨F.SMP_SNS_FLT_LOST.addr, m, 1⟩ false
  if m < 2 then (s.dclSource l).dclSource l.other else s
def execSmpClrSns (l : Lane) (m : Fin 7) (s : State) : Out :=
  done (s.writing l 0x28054 (fun s => (s.clrSns l m.val).reply l .ok))

/-- SMP_CLR.FLT: the fault of an input cleared (R152). Clearing does not return a function to service. -/
def State.clrFlt (s : State) (l : Lane) (n : Fin 24) : State :=
  (s.putFlag l ⟨F.SMP_FLT_FLT.addr, n.val, 1⟩ false).modSmp l (fun x => { x with
    rep := x.rep.set n 0, out := x.out &&& ~~~(1#24 <<< n.val) })
def execSmpClrFlt (l : Lane) (n : Fin 24) (s : State) : Out :=
  done (s.writing l 0x28054 (fun s => (s.clrFlt l n).reply l .ok))

end Sys2Proof.Machine
end

