-- ==== Sys2Proof/Machine/Supply.lean ====
section
/-! DEFINITION. Supplies, clocks, start-up and reset (chapter 3): the rails, the resets and what they leave, the image on
trial, droop, and the clock cross-checks. -/
namespace Sys2Proof.Machine

/-- The token lines driven to a lane (R21, R335): MON.TOKEN_MOVE, and islands whose outputs are held off because their
owner's stream is lost latch the new state at once (R247). -/
def State.driveToken (s : State) (l : Lane) : State :=
  if s.token == l || s.mflag F.MON_RED_STAT_ISOLATED then s else
  let old := s.token
  let s := s.mputFlag F.MON_RED_STAT_TOKEN (l == .B)
  let s := s.mputFlag F.MON_RED_STAT_MOVING true
  let s := s.modMon (fun m => { m with moveFrom := some old, chgK := m.chgK.set l (m.chgK.get old) })
  let s := s.both (fun k s => if s.inReset k then s else s.putFlag k F.RED_STAT_HANDOVER true)
  let s := s.monEv E.MON_TOKEN_MOVE
  let s := (afeChans ++ dabChans).foldl (fun s n =>
    if s.hv[n].lost || !s.streams old then s.modHv n (fun h => { h with ownerB := l == .B }) else s) s
  let s := if s.lv.lost || !s.streams old then s.modLv (fun v => { v with ownerB0 := l == .B, ownerB1 := l == .B }) else s
  s.driveK

/-- The power-good pins that a lost lane takes down are low at once (R281, R303). -/
def State.pgLow (s : State) : State :=
  let any := s.aon.pgDcl || s.aon.pgAfe || s.aon.pgDab
  let s := s.modAon (fun a => { a with pgDcl := false, pgAfe := false, pgDab := false })
  let s := s.mputFlag F.MON_PG_DCL_PG_STATE false
  let s := (s.mputFlag F.MON_PG_CHG_AFE_STATE false).mputFlag F.MON_PG_CHG_DAB_STATE false
  if any then s.monEv E.MON_PG_CHANGE else s

/-- The monitor declares a lane failed (R330, R335 steps 2 and 3): HOLD on its set, the token to the other lane where the
failed one held it and the other is not failed, its requests and CLAUSE values excluded. -/
def State.declare (s : State) (x : Lane) : State :=
  if !s.mon.alive || s.declared x then s else
  let s := match x with
    | .A => s.mputFlag F.MON_RED_STAT_FAILED_A true
    | .B => s.mputFlag F.MON_RED_STAT_FAILED_B true
  let s := s.monEv E.MON_LANE_FAILED
  let s := s.modMon (fun m => { m with
    counted := m.counted.set x false, holdFail := m.holdFail.set x true
    moveReq := none })
  let s := (s.holdSet x).setFault x 5
  let y := x.other
  let s := if s.token == x && !s.declared y && !s.inReset y then
      (s.driveToken y).modRed y (fun r => { r with takeover := true }) else s
  let s := if s.declared y || s.inReset y then s.pgLow else s
  s.publish

/-- The slot from which a lane boots: one marked by IMG_COMMIT, else the one with the higher VERSION, and slot 0 where they
are equal (R62, R416). -/
def bootSlot (v : Vector ImgSlot 2) : Fin 2 :=
  if v[0].marked && !v[1].marked then 0
  else if v[1].marked && !v[0].marked then 1
  else if v[0].version.toNat < v[1].version.toNat then 1 else 0

/-- A lane die reset (R76, R81): its registers, banks and lock bits return to their reset values and its pending dual halves
are discarded (R98). Kept are the flash and what the lane knows of its slots, the causes that hold it, the count of droops
and a duplicate device number since nPOR, and the reset causes recorded before, to which `cause` is added. -/
def State.resetLane (s : State) (l : Lane) (cause : Fld) : State :=
  let x := s.lane l
  let droops := s.fld l F.PWR_STAT_DROOP_CNT
  let causes := s.word l F.RST_CAUSE_POR.addr &&& 0x3F#32
  let y : LaneState := { hold := x.hold, flash := x.flash, dup := x.dup
                         boot := { slot := x.boot.slot, cur := bootSlot x.boot.slot } }
  let s := s.setLane l y
  let s := s.putWord l F.RST_CAUSE_POR.addr causes
  let s := s.putFlag l cause true
  let s := s.put l F.PWR_STAT_DROOP_CNT droops
  let s := s.putFlag l F.RING_STAT_DEV_DUP x.dup
  let s := if s.inReset l.other then s else s.modOfs l (fun _ => s.timeOfs.get l.other)
  s.modMon (fun m => { m with
    halves := m.halves.filter (fun h => h.lane != l)
    hb := m.hb.set l none
    missHb := m.missHb.set l 0
    peerBlind := m.peerBlind.set l true })

/-- A lane enters reset for a cause (R78, R79, R330): its streams stop at once and the monitor declares it failed, holding
its set. MON.BOTH_LANES_RESET is raised where the other lane is in reset or declared failed. -/
def State.enterReset (s : State) (l : Lane) (cause : Fld) (setHold : Hold → Hold) : State :=
  let was := s.inReset l
  let s := s.modHold l setHold
  let s := (s.mon.halves.filter (fun h => h.lane == l)).foldl (fun (s : State) h => s.halfGone l h.addr true) s
  let s := s.resetLane l cause
  if was then s else
  let s := s.declare l
  let other := l.other
  if s.inReset other || s.declared other then s.monEv E.MON_BOTH_LANES_RESET else s

/-- The instant t0 of a lane: nothing holds it any more, and it starts from its first slot (R59, R60, R491). The running
peer's reports of the held reset end. -/
def State.release (s : State) (l : Lane) : State :=
  if s.inReset l then s else
  let p := l.other
  let late := s.ready p || (!s.inReset p && (s.lane p).boot.t0 < s.time)
  let s := s.modBoot l (fun b => { slot := b.slot, cur := bootSlot b.slot, t0 := s.time, late := late })
  (s.levelEv p E.RED_PEER_RESET false).levelEv p E.RED_PEER_RESET_STUCK false

/-- Module power-on reset (R76): both lanes, the monitor, AON state, straps and lock bits. Every reset cause is cleared and
POR set (R81). The islands' latches are kept, and no line reaches them any more (R80). -/
def State.modulePor (s : State) : State :=
  let fresh := fun (l : Lane) =>
    let x := s.lane l
    ({ hold := { vs := x.hold.vs, pin := x.hold.pin }, flash := x.flash
       boot := { slot := x.boot.slot, cur := bootSlot x.boot.slot } } : LaneState)
  { s with
    lanes := ⟨fresh .A, fresh .B⟩, mon := {}, timeOfs := ⟨0, 0⟩
    aon := { s.aon with devnum := none, unstable := false, tmode := false, k := 0, pgDcl := false, pgAfe := false
                        pgDab := false, cpS2 := false } }

/-- VS_VALID: a rail has been above 4.60 V for 200 µs (R57). The lane is released where this was its last cause. -/
def execVsValid (l : Lane) (s : State) : Out :=
  let s := match l with
    | .A => s.modAon (fun a => { a with vsaOk := true })
    | .B => s.modAon (fun a => { a with vsbOk := true })
  let was := s.inReset l
  let s := s.modHold l (fun h => { h with vs := false })
  done (if was then s.release l else s)

/-- VS_FAILED: a rail has been below 4.20 V for 5 µs (R57). It resets its lane, or the whole module where both have failed. -/
def execVsFailed (l : Lane) (s : State) : Out :=
  let s := match l with
    | .A => s.modAon (fun a => { a with vsaOk := false })
    | .B => s.modAon (fun a => { a with vsbOk := false })
  if !s.aon.vsaOk && !s.aon.vsbOk then
    done ((s.modulePor.modHold .A (fun h => { h with vs := true })).modHold .B (fun h => { h with vs := true }))
  else done (s.enterReset l F.RST_CAUSE_VS (fun h => { h with vs := true }))

/-- NPOR_ASSERT: a qualified low on nPOR (R76, R80). -/
def execNporAssert (s : State) : Out :=
  let s := s.modulePor
  done (s.modAon (fun a => { a with nPor := true }))

/-- NPOR_RELEASE: nPOR has been high for 18 µs, and start-up begins (R60, R77). The monitor drives the token lines to Lane A
and the safe-state line to freewheel, which usable islands latch; their owner's stream is lost, so they latch at once. -/
def execNporRelease (s : State) : Out :=
  let s := s.modAon (fun a => { a with nPor := false })
  let s := (List.finRange 34).foldl (fun (s : State) (n : Fin 34) => s.modHv n (fun h =>
    if h.usable then { h with ownerB := false, tokenOk := true, mode := some false, lineLost := false, ascOvs := false } else h)) s
  let s := s.modLv (fun v => if v.usable then { v with ownerB0 := false, ownerB1 := false, tokenOk := true } else v)
  let s := (s.release .A).release .B
  done (s.both (fun l s => if s.inReset l then s.declare l else s))

/-- NRST_ASSERT: a qualified low on nRST_x holds its lane in reset (R78). -/
def execNrstAssert (l : Lane) (s : State) : Out :=
  done (s.enterReset l F.RST_CAUSE_PIN (fun h => { h with pin := true }))

/-- LANE_RESET_RELEASE: a cause of R491 ends; the lane is released when the last of them has ended. -/
def execLaneResetRelease (l : Lane) (c : TimedHold) (s : State) : Out :=
  let was := s.inReset l
  let s := s.modHold l (fun h => match c with
    | .pin => { h with pin := false } | .soft => { h with soft := false }
    | .mon => { h with mon := false } | .clk => { h with clk := false })
  done (if was then s.release l else s)

/-- A soft reset of a lane (R76): held for 20 µs on AON (R491). -/
def State.softReset (s : State) (l : Lane) : State :=
  if s.inReset l then s else s.enterReset l F.RST_CAUSE_SOFT (fun h => { h with soft := true })

/-- SOFT_RESET: a soft reset written to a lane's SYS page. Boot-hold accepts it too (R62), so it does not wait on EN. -/
def execSoftReset (l : Lane) (s : State) : Out := done (s.softReset l)

/-- A warm restart of the management processor (R76): RST_CAUSE.WARM_CNT counts it, and acyclic requests are answered BUSY
until it is done; control and hardware paths keep running. -/
def State.warmRestart (s : State) (l : Lane) : State :=
  if s.inReset l then s else
  (s.bump l F.RST_CAUSE_WARM_CNT).modBoot l (fun b => { b with warm := true })

/-- WARM_RESTART: the task watchdog has expired. -/
def execWarmRestart (l : Lane) (s : State) : Out := done (s.warmRestart l)

/-- WARM_RESTART_DONE: the restart is complete within 20 ms. -/
def execWarmRestartDone (l : Lane) (s : State) : Out :=
  done (if s.inReset l then s else s.modBoot l (fun b => { b with warm := false }))

/-- DEVNUM_SAMPLE: the three samples of R51 and R52. Agreeing samples with V33_OUT above 3.0 V lock the device number;
otherwise both lanes raise SYS.DEVNUM_UNSTABLE. Three high samples of TMODE keep both lanes in reset, and the monitor holds
every island in safe state. -/
def execDevnumSample (s1 s2 s3 : Straps) (v33Low : Bool) (s : State) : Out :=
  if s.aon.nPor || s.aon.devnum.isSome || s.aon.unstable || s.aon.tmode then done s else
  let agree := s1.devnum == s2.devnum && s2.devnum == s3.devnum && !v33Low
  let test := s1.tmode && s2.tmode && s3.tmode
  let s := s.modAon (fun a => { a with devnum := if agree then some s1.devnum else none, unstable := !agree })
  let s := if agree then s else (s.levelEv .A E.SYS_DEVNUM_UNSTABLE true).levelEv .B E.SYS_DEVNUM_UNSTABLE true
  if test then
    let s := s.modAon (fun a => { a with tmode := true })
    let s := s.modMon (fun m => { m with holdFail := ⟨true, true⟩ })
    done ((s.holdSet .A).holdSet .B)
  else done s

/-- A slot is abandoned (R62): the other slot is tried and SYS.IMAGE_FALLBACK raised; where that one was abandoned already,
the lane stays in boot-hold and raises SYS.IMAGE_INVALID. -/
def State.abandonSlot (s : State) (l : Lane) : State :=
  if (s.lane l).boot.fellBack then
    let s := s.modBoot l (fun b => { b with phase := .bootHold, img := none, readOk := false })
    s.levelEv l E.SYS_IMAGE_INVALID true
  else
    let s := s.modBoot l (fun b => { b with cur := if b.cur == 0 then 1 else 0, fellBack := true, img := none, readOk := false })
    s.levelEv l E.SYS_IMAGE_FALLBACK true

/-- The manifest's FLAGS bit that names this lane's law table (R61). -/
def hasTable (l : Lane) (flags : Byte) : Bool := flags.getLsbD l.idx

/-- FLASH_READ_PASS_DONE: the read pass of the slot on trial ends and its CRC-32 is compared (R60, R62). -/
def execFlashReadPassDone (l : Lane) (r : ImageRead) (s : State) : Out :=
  let b := (s.lane l).boot
  if s.inReset l || b.phase != .starting || b.readOk || b.verified then done s else
  if !r.crcOk || b.slot[b.cur].broken then done (s.abandonSlot l)
  else
    let s := s.modBoot l (fun b => { b with
      readOk := true, img := some r
      slot := b.slot.set b.cur { b.slot[b.cur] with
        version := r.version, flags := r.flags, digest := r.digest, pairDigest := r.pairDigest } })
    done s

/-- IMAGE_VERIFY: the signature check of the manifest ends (R62). A slot that fails, or that lacks this lane's law table, is
abandoned (R175). -/
def execImageVerify (l : Lane) (sigOk : Bool) (s : State) : Out :=
  let b := (s.lane l).boot
  if s.inReset l || b.phase != .starting || !b.readOk || b.verified then done s else
  if !sigOk || !hasTable l b.slot[b.cur].flags then done (s.abandonSlot l)
  else done (s.modBoot l (fun b => { b with verified := true }))

/-- DROOP_ENTRY: the lane's VS rail has fallen below the threshold (R65, R66). The droop is shown, counted and reported
whatever EN holds; with EN = 1 x.SYS is halved, and x.CE where the law table carries CE_SLOW_OK. -/
def execDroopEntry (l : Lane) (s : State) : Out :=
  if s.inReset l || s.flag l F.PWR_STAT_DROOP then done s else
  let s := s.putFlag l F.PWR_STAT_DROOP true
  let s := s.bump l F.PWR_STAT_DROOP_CNT
  let s := if s.flag l F.PWR_DROOP_CFG_EN then
      let s := s.putFlag l F.PWR_STAT_SYS_HALF true
      let ce := s.flag l F.PWR_STAT_CE_SLOW_OK
      if ce then (s.putFlag l F.PWR_STAT_CE_HALF true).putFlag l F.CE_STAT_HALF true else s
    else s
  done (s.levelEv l E.PWR_DROOP true)

/-- DROOP_RELEASE: the rail has stayed 100 mV above the threshold for RELEASE µs (R68). x.SYS returns at once; x.CE returns
at the next fast-cycle start. -/
def execDroopRelease (l : Lane) (s : State) : Out :=
  if s.inReset l then done s else
  let s := (s.putFlag l F.PWR_STAT_DROOP false).putFlag l F.PWR_STAT_SYS_HALF false
  done (s.levelEv l E.PWR_DROOP false)

/-- XTAL_FAIL: a lane's PLL loses lock or its crystal stops (R74). It stops its streams and is held until its clock has been
good for 1 ms; the peer and the monitor report it. -/
def execXtalFail (l : Lane) (s : State) : Out :=
  let s := s.enterReset l F.RST_CAUSE_CLK (fun h => { h with clk := true })
  let s := s.pulseEv l.other E.CLK_XTAL_FAIL
  done (s.monEv E.MON_CLK_LANE)

/-- A lane confirmed deviant: CLK.LANE_DEV in both lanes, declared failed, and reset at once by the monitor (R74). -/
def State.clockReset (s : State) (l : Lane) : State :=
  let s := s.both (fun k s => s.pulseEv k E.CLK_LANE_DEV)
  let s := s.declare l
  s.enterReset l F.RST_CAUSE_CLK (fun h => { h with clk := true })

/-- What a lane shows of a window (R74). -/
def State.clockShow (s : State) (lock : Bool) (l : Lane) (ppm : Int) (monOk sees : Bool) : State :=
  if s.inReset l then s else
  let s := s.put l F.CLK_STAT_PEER_PPM (if lock then satBits 16 ppm else 0)
  let s := s.putFlag l F.CLK_STAT_PEER_OK (lock && ppm.natAbs ≤ 500)
  (s.putFlag l F.CLK_STAT_MON_OK monOk).putFlag l F.CLK_STAT_MON_SEES_SELF sees

/-- The lanes' frequencies differ and the monitor finds no lane deviant: each lane reports its peer, and the lock is lost. -/
def State.clockApart (s : State) : State :=
  let s := s.both (fun l s => s.levelEv l E.CLK_PEER_DEV true)
  let s := s.both (fun l s => s.putFlag l F.CLK_STAT_PEER_LOCK false)
  s.both (fun l s => s.pulseEv l E.CONJ_LOCK_LOST)

/-- The lanes that are confirmed deviant. -/
def State.clockVerdict (s : State) (devA devB : Bool) : State :=
  let s := if devA then s.clockReset .A else s
  let s := if devB then s.clockReset .B else s
  s.monEv E.MON_CLK_LANE

/-- The monitor's own clock: three windows that point at it, and three windows that clear it. -/
def State.clockMon (s : State) (points clears : Bool) : State :=
  if !s.mon.alive then s
  else if points then
    let n := s.mon.clkBad + 1
    let s := s.modMon (fun m => { m with clkBad := n, clkGood := 0 })
    if n ≥ 3 && !s.mon.clkSuspect then (s.modMon (fun m => { m with clkSuspect := true })).monLevel E.MON_CLK_SELF true else s
  else if clears then
    let n := s.mon.clkGood + 1
    let s := s.modMon (fun m => { m with clkGood := n, clkBad := 0 })
    if n ≥ 3 && s.mon.clkSuspect then (s.modMon (fun m => { m with clkSuspect := false })).monLevel E.MON_CLK_SELF false else s
  else s.modMon (fun m => { m with clkBad := 0, clkGood := 0 })

/-- Both lanes find the monitor deviant and agree with each other: it is treated as lost (R37, R343). -/
def State.clockMonLost (s : State) (bad : Bool) : State :=
  let s := s.both (fun l s => s.levelEv l E.CLK_MON_DEV bad)
  if bad then s.both (fun l s =>
    let s := s.putFlag l F.RED_STAT_MON_OK false
    (s.putFlag l F.RED_STAT_MON_SS true).levelEv l E.RED_MON_LOST true) else s

/-- CLOCK_CHECK_WINDOW: a 1 ms window ends and the verdicts are combined by the table of R74. -/
def execClockCheckWindow (w : ClockWindow) (s : State) : Out :=
  let liveA := !s.inReset .A
  let liveB := !s.inReset .B
  let lock := s.flag .A F.CLK_STAT_PEER_LOCK && s.flag .B F.CLK_STAT_PEER_LOCK
  let s := (s.clockShow lock .A w.ppm w.aFindsMon w.monFindsA).clockShow lock .B (-w.ppm) w.bFindsMon w.monFindsB
  let two := liveA && liveB
  let apart := two && w.ppm.natAbs > 500
  let devA := liveA && !w.monFindsA
  let devB := liveB && !w.monFindsB
  let s :=
    if s.mon.alive && !s.mon.clkSuspect && apart && (devA || devB) then s.clockVerdict devA devB
    else if apart && !devA && !devB then s.clockApart
    else if !apart then s.both (fun l s => s.levelEv l E.CLK_PEER_DEV false) else s
  let s := s.clockMon (two && !apart && (devA || devB)) (!devA && !devB)
  done (s.clockMonLost (two && !w.aFindsMon && !w.bFindsMon && !apart))

/-- PEER_RESET: the peer's reset has been held for 100 ms, so the running lane reports it (R78). -/
def execPeerReset (l : Lane) (s : State) : Out :=
  done (if s.inReset l.other then s.levelEv l E.RED_PEER_RESET true else s)

/-- PEER_RESET_STUCK: the peer's reset has been held for 2 s (R78). -/
def execPeerResetStuck (l : Lane) (s : State) : Out :=
  done (if s.inReset l.other then s.levelEv l E.RED_PEER_RESET_STUCK true else s)

end Sys2Proof.Machine
end

