-- ==== Sys2Proof/Machine/Gate.lean ====
section
/-! DEFINITION. The gate islands and the gate-command fabric (chapter 10, R58, R83, R84): supplies, streams, the OVS rule,
short circuit, interlock, dead time, leg faults, token latches and the HOLD mask. -/
namespace Sys2Proof.Machine

/-- The leg of an HV channel and of an LV channel (R242); LV legs are numbered from 17 in the fabric's list. -/
def legOf (n : Fin 34) : Nat := n.val / 2
def lvLegOf (n : Fin 12) : Nat := 17 + n.val / 2

/-- The two pages of an HV leg, and of an LV leg, as first offsets. -/
def legPages (leg : Nat) : List Nat :=
  if leg < 17 then [0x30000 + 2 * leg * 0x1000, 0x30000 + (2 * leg + 1) * 0x1000]
  else [0x60000 + 2 * (leg - 17) * 0x1000, 0x60000 + (2 * (leg - 17) + 1) * 0x1000]

/-- The leg fault bits of a leg, as seen in a page: GDH_LEG.LEG_FAULT or GDL_CNT.LEG_FAULT (R256, R257). -/
def legFld (page : Nat) : Fld := if page < 0x60000 then ⟨page + 0x068, 0, 2⟩ else ⟨page + 0x04C, 2, 2⟩

/-- The leg faults latched for a leg: bit 0 by Lane A's fabric, bit 1 by Lane B's. -/
def State.legBits (s : State) (leg : Nat) : Nat := s.mfld (legFld ((legPages leg).headD 0))

def State.setLegBits (s : State) (leg v : Nat) : State := (legPages leg).foldl (fun s p => s.mput (legFld p) v) s

def legEv (leg : Nat) : Ev := ⟨(legPages leg).headD 0, 5⟩

/-- The lane that owns a leg at present. -/
def State.legOwner (s : State) (leg : Nat) : Lane :=
  if h : leg < 17 then s.hvOwner ⟨2 * leg, by omega⟩
  else if leg < 20 then s.lvOwner 0 else s.lvOwner 6

/-- The consequence of a leg fault for the owner (R245). A driven actuator enters FAULT with cause 5 (R321). -/
def State.legConsequence (s : State) (leg : Nat) (o : Lane) : State :=
  if leg < 6 then s.setFault o 3
  else if leg < 10 then s.phaseStop o (leg - 5)
  else if leg < 17 then s.chgFault o 9
  else
    let a : Fin 2 := if leg < 20 then 0 else 1
    if s.actDriven o a || s.fld o (F.ACT_STAT_STATE a.val) == 5 then s.actFault o a 5 else s

/-- A leg fault in a lane (R245): its own bit is latched, GDH.LEG_FAULT or GDL.LEG_FAULT raised, and the owner's function
stops. In a standby, the Subjunctive computation of a token function is marked invalid. -/
def State.legFault (s : State) (l : Lane) (leg : Nat) : State :=
  if s.inReset l then s else
  let s := s.setLegBits leg (s.legBits leg ||| (1 <<< l.idx))
  let s := s.levelEv .A (legEv leg) true
  if s.legOwner leg == l then s.legConsequence leg l
  else if leg ≥ 10 then s.putFlag l F.RED_STAT_SUBJ_OK false else s

/-- An interlock event of R243 or R244 in a lane's fabric: three on one leg within 1 ms make a leg fault (R245). -/
def State.legEvent (s : State) (l : Lane) (leg : Nat) : State :=
  let near := ((s.lane l).legEvents.filter (fun e => e.1 == leg && s.time < e.2 + ms 1)).length
  let s := s.modLane l (fun x => { x with
    legEvents := (leg, s.time) :: x.legEvents.filter (fun e => s.time < e.2 + ms 1) })
  if near + 1 ≥ 3 then s.legFault l leg else s

/-- Whether the safe-state line reaches an island: the monitor drives it and the island has not lost it (R83). -/
def State.lineOk (s : State) (n : Fin 34) : Bool := s.mon.alive && !s.aon.nPor && !s.hv[n].lineLost

/-- An HV island's undervoltage, or its recovery, on either rail (R240). -/
def State.setRails (s : State) (n : Fin 34) (vp vn : Bool) : State :=
  let s := s.modHv n (fun h => { h with vpOk := vp, vnOk := vn, usable := vp && vn })
  (s.levelEv .A (E.GDH_UVLO_P n.val) (!vp)).levelEv .A (E.GDH_UVLO_N n.val) (!vn)

/-- ISLAND_USABLE: an island's supply has become valid; the monitor rewrites its configuration into it and it latches the
token and the safe-state mode that its lines carry (R58, R60, R249, R256). -/
def execIslandUsable (i : Island) (s : State) : Out :=
  match i with
  | .hv n =>
    let old := s.hv[n]
    let cfg := if s.mon.alive && !s.aon.nPor then s.mon.regs.read (0x30050 + n.val * 0x1000) else 0x0AE1
    let line := s.mon.alive && !s.aon.nPor
    let s := if old.usable then s else s.modHv n (fun _ =>
      { usable := true, vpOk := true, vnOk := true, ovsCfg := cfg, lineLost := !line
        ownerB := line && s.token == .B, tokenOk := line
        mode := if line then some s.asc else none
        lost := !s.streams (match fixedOwner n.val with | some o => o | none => s.token) })
    let s := s.setRails n true true
    let s := s.levelEv .A (E.GDH_STREAM n.val) s.hv[n].lost
    done (if n.val < 12 then s.placeTraction n else s)
  | .sense n => done (s.modSns n (fun x => { x with usable := true }))
  | .lv =>
    let s := if s.lv.usable then s else s.modLv (fun _ =>
      { usable := true, vglOk := true, tokenOk := s.mon.alive && !s.aon.nPor
        ownerB0 := s.token == .B, ownerB1 := s.token == .B, lost := !s.streams s.token })
    done (s.levelEv .A (E.GDL_UVLO 0) false)

/-- The function of a converter or charger channel whose island has gone out of service. -/
def State.islandOut (s : State) (n : Fin 34) : State :=
  if n.val < 12 then s
  else if n.val < 20 then s.phaseStop (phaseLane (phaseOf n.val)) (phaseOf n.val)
  else s.chgFault (s.hvOwner n) 9

/-- Undervoltage of an HV island: OUTH off, reported, and a leg fault at once in each lane that is out of reset (R240,
R245). -/
def State.undervolt (s : State) (n : Fin 34) (vp vn : Bool) : State :=
  let s := s.mbump (F.GDH_CNT_UVLO n.val)
  let s := s.setRails n (s.hv[n].vpOk && !vp) (s.hv[n].vnOk && !vn)
  let s := s.modHv n (fun h => { h with outOn := false })
  let s := s.monEv E.MON_ISLAND_DOWN
  (s.legFault .A (legOf n)).legFault .B (legOf n)

/-- UVLO: VP, VN or both have been in undervoltage for 2 µs. With UVN_SEL = 0 the VN check is off. -/
def execUvlo (n : Fin 34) (vp vn : Bool) (s : State) : Out :=
  let vn := vn && s.mfld (F.GDH_CFG_UVN_SEL n.val) != 0
  done (if s.hv[n].usable && (vp || vn) then s.undervolt n vp vn else s)

/-- UVLO_RECOVER: both rails have been good for 10 µs; the island resumes at its next period start (R240). -/
def execUvloRecover (n : Fin 34) (s : State) : Out :=
  done (if s.hv[n].vpOk && s.hv[n].vnOk then s else
    let s := s.setRails n true true
    if n.val < 12 then s.placeTraction n else s)

/-- All outputs of the LV island go low with VGL lost (R252). VGL is one rail for all twelve channels: the event is raised
in the page of L00. -/
def State.vglLost (s : State) : State :=
  let s := (s.bridgeOff 0).bridgeOff 1
  let s := s.modLv (fun v => { v with vglOk := false, usable := false })
  let s := s.levelEv .A (E.GDL_UVLO 0) true
  s.monEv E.MON_ISLAND_DOWN

/-- GDL_UVLO: VGL has been below 9.5 V for 2 µs. -/
def execGdlUvlo (s : State) : Out := done (if s.lv.usable then s.vglLost else s)

/-- ISLAND_SUPPLY_LOST: an island loses its supply; its gate is held off passively, its latches are lost with it, and its
function goes out of service (R50, R58, R83). -/
def execIslandSupplyLost (i : Island) (s : State) : Out :=
  match i with
  | .hv n =>
    let s := if s.hv[n].usable then s.undervolt n true false else s
    let s := s.islandOut n
    done (s.modHv n (fun h => { usable := false, vpOk := false, vnOk := false, ownerB := h.ownerB }))
  | .sense n => done ((s.modSns n (fun x => { x with usable := false })).monEv E.MON_ISLAND_DOWN)
  | .lv => done (if s.lv.usable then s.vglLost else s)

/-- STREAM_LOST: no valid frame of the obeyed stream for 400 ns (R83, R250, R335 step 1). Of a stream that its lane still sends it is
a framing error (R256). -/
def execStreamLost (i : GateIsland) (s : State) : Out :=
  match i with
  | .hv n =>
    if !s.hv[n].usable || s.hv[n].lost then done s else
    let s := s.modHv n (fun h => { h with
      lost := true, ascFree := false, outOn := false
      mode := if s.lineOk n then some s.asc else h.mode
      ownerB := if s.mon.alive && h.tokenOk then s.token == .B else h.ownerB })
    let s := if s.streams (s.hvOwner n) then s.mbump (F.GDH_CNT_STRM n.val) else s
    let s := s.levelEv .A (E.GDH_STREAM n.val) true
    done (if n.val < 12 then s.placeTraction n else s)
  | .lv =>
    if !s.lv.usable || s.lv.lost then done s else
    let s := (s.bridgeOff 0).bridgeOff 1
    let tok := s.mon.alive && s.lv.tokenOk
    let s := s.modLv (fun v => { v with
      lost := true, ownerB0 := if tok then s.token == .B else v.ownerB0, ownerB1 := if tok then s.token == .B else v.ownerB1 })
    done (s.levelEv .A (E.GDL_STREAM 0) true)

/-- STREAM_RESUMED: valid frames of the obeyed owner stream arrive again; the island follows it and ends an autonomous ASC
(R84). -/
def execStreamResumed (i : GateIsland) (s : State) : Out :=
  match i with
  | .hv n =>
    if !s.hv[n].lost then done s else
    let s := s.modHv n (fun h => { h with lost := false, ascFree := false, ascOvs := false, outOn := false })
    let s := s.levelEv .A (E.GDH_STREAM n.val) false
    done (if n.val < 12 then s.placeTraction n else s)
  | .lv => done (if s.lv.lost then (s.modLv (fun v => { v with lost := false })).levelEv .A (E.GDL_STREAM 0) false else s)

/-- SAFE_STATE_LINE_LOST: no valid code for 5 µs; the island drops HOLD and acts by R83 on the streams it receives. The mode
it last applied is its latched mode (R248). -/
def execSafeStateLineLost (n : Fin 12) (s : State) : Out :=
  let i : Fin 34 := ⟨n.val, by omega⟩
  if !s.hv[i].usable then done s else
  let s := s.modHv i (fun h => { h with lineLost := true })
  done (s.placeTraction i)

/-- The channel of low-side traction island k (R249): H01, H03, ... H11. -/
def lowChan (k : Fin 6) : Fin 34 := ⟨2 * k.val + 1, by omega⟩

/-- The overvoltage threshold and hysteresis of island n in mV, from the OVS_TH and OVS_HYS that the island holds (R249). -/
def State.ovsThr (s : State) (n : Fin 34) : Nat := 1000 + 4 * bits s.hv[n].ovsCfg 0 8

def State.ovsHys (s : State) (n : Fin 34) : Nat := 8 * bits s.hv[n].ovsCfg 8 5

/-- OVS_OVERVOLTAGE: the OVS input has been above its threshold for 1 µs (R249). While the obeyed stream is valid it is only
reported; with the stream lost for 2.0 µs the island enters ASC (R84, R250, R255). -/
def execOvsOvervoltage (k : Fin 6) (mv : BitVec 16) (s : State) : Out :=
  let n := lowChan k
  if !s.hv[n].usable || s.hv[n].ovsAct || mv.toNat ≤ s.ovsThr n then done s else
  let s := s.modHv n (fun h => { h with ovsAct := true, ascOvs := h.ascOvs || (h.lost && h.ascFree) })
  let s := s.mbump (F.GDH_CNT_OVS n.val)
  let s := s.levelEv .A (E.GDH_OVS n.val) true
  done (s.placeTraction n)

/-- OVS_RELEASE: OVS has fallen below its release threshold (R249); an ASC entered on overvoltage is held (R84). -/
def execOvsRelease (k : Fin 6) (mv : BitVec 16) (s : State) : Out :=
  let n := lowChan k
  if mv.toNat + s.ovsHys n ≥ s.ovsThr n then done s else
  let s := s.modHv n (fun h => { h with ovsAct := false })
  done (s.levelEv .A (E.GDH_OVS n.val) false)

/-- OVS_ASC_ENTRY: 2.0 µs after the stream was declared lost, the OVS rule may turn the low side on (R250). -/
def execOvsAscEntry (k : Fin 6) (s : State) : Out :=
  let n := lowChan k
  if !s.hv[n].lost then done s else
  let s := s.modHv n (fun h => { h with ascFree := true, ascOvs := h.ascOvs || h.ovsAct })
  done (s.placeTraction n)

/-- OVS_ASC_RELEASE: OVS has stayed below release for 10 ms with the safe-state line valid, and the line's mode applies
(R84). -/
def execOvsAscRelease (k : Fin 6) (s : State) : Out :=
  let n := lowChan k
  if !s.hv[n].ascOvs || s.hv[n].ovsAct || !s.lineOk n then done s else
  let s := s.modHv n (fun h => { h with ascOvs := false, mode := some s.asc })
  done (s.placeTraction n)

/-- GATE_BELOW_THRESHOLD: the island reports its gate below the gate-off threshold, and CLMP conducts (R237). A low side that
the set's state wants on waits for this report of its high side (R244). -/
def execGateBelowThreshold (n : Fin 34) (s : State) : Out :=
  if !s.hv[n].usable then done s else
  let s := s.modHv n (fun h => { h with gateOff := true })
  done (if h : n.val < 12 ∧ n.val % 2 = 0 then s.placeTraction ⟨n.val + 1, by omega⟩ else s)

/-- SC: a desaturation survives blanking and filtering (R238, R239). The island starts soft-off, latches and reports; a
short circuit during the soft-off of a previous event changes nothing (R255). -/
def execSc (n : Fin 34) (s : State) : Out :=
  let h := s.hv[n]
  if !h.usable || h.scLatch || !s.mflag (F.GDH_CFG_SC_EN n.val) then done s else
  let s := s.modHv n (fun h => { h with softOff := true, scLatch := true, outOn := false })
  let s := s.mbump (F.GDH_CNT_SC n.val)
  let s := s.mput (F.GDH_TS_TS n.val) (s.stamp (s.hvOwner n)).toNat
  let s := s.levelEv .A (E.GDH_SC n.val) true
  let o := s.hvOwner n
  done (if n.val < 12 then s.setFault o 3
        else if n.val < 20 then s.phaseStop o (phaseOf n.val)
        else s.chgFault o 9)

/-- SOFT_OFF_END: SOFT_T after soft-off starts, OUTL and CLMP take over (R238). -/
def execSoftOffEnd (n : Fin 34) (s : State) : Out := done (s.modHv n (fun h => { h with softOff := false }))

/-- TMP_CONVERSION: the island converts TMP, and measures VP and VN, every 100 µs (R240, R241). Neither condition changes the
gate. -/
def execTmpConversion (n : Fin 34) (code : BitVec 12) (vp vn : BitVec 16) (s : State) : Out :=
  if !s.hv[n].usable then done s else
  let s := s.mput (F.GDH_TMP_CODE n.val) code.toNat
  let s := (s.mput (F.GDH_VSUP_VP n.val) vp.toNat).mput (F.GDH_VSUP_VN n.val) vn.toNat
  let s := s.levelEv .A (E.GDH_OT n.val) (code.toNat ≥ s.mfld (F.GDH_OT_OT_TH n.val))
  done (s.levelEv .A (E.GDH_TMP_OPEN n.val) (code.toNat > 4000))

/-- SHOOT_REQ: both channels of a leg are requested on in a lane's fabric, which holds both off and counts the episode
(R243). -/
def execShootReq (l : Lane) (c : Chan) (s : State) : Out :=
  if s.inReset l then done s else
  match c with
  | .h n =>
    let leg := legOf n
    let s := (legPages leg).foldl (fun s p => s.mbump ⟨p + 0x068, 24, 8⟩) s
    let s := if s.hvOwner n == l then
        s.gatesOff [⟨2 * leg, by simp only [leg, legOf]; omega⟩, ⟨2 * leg + 1, by simp only [leg, legOf]; omega⟩] else s
    let s := s.pulseEv .A ⟨0x30000 + 2 * leg * 0x1000, 3⟩
    done (s.legEvent l leg)
  | .l n =>
    let leg := lvLegOf n
    let s := (legPages leg).foldl (fun s p => s.mbump ⟨p + 0x04C, 8, 8⟩) s
    let off := fun (c : LvChan) => { c with outOn := false }
    let s := if s.lvOwner n == l then
        (s.modLvCh ⟨n.val / 2 * 2, by omega⟩ off).modLvCh ⟨n.val / 2 * 2 + 1, by omega⟩ off else s
    let s := s.pulseEv .A ⟨0x60000 + n.val / 2 * 2 * 0x1000, 3⟩
    done (s.legEvent l leg)

/-- The other channel of a leg. -/
def partner (n : Fin 34) : Fin 34 := if h : n.val % 2 = 0 then ⟨n.val + 1, by omega⟩ else ⟨n.val - 1, by omega⟩
def lvPartner (n : Fin 12) : Fin 12 := if h : n.val % 2 = 0 then ⟨n.val + 1, by omega⟩ else ⟨n.val - 1, by omega⟩

/-- DEAD_TIME_RELEASE: DT_MIN has elapsed and the partner's report has arrived, so the fabric releases the waiting on-edge
(R244); `ext` is the wait beyond DT_MIN in steps of 625 ps, reported for an HV channel. An island acts on the edge only
while it obeys that lane and nothing holds it off. -/
def execDeadTimeRelease (l : Lane) (c : Chan) (ext : Nat) (s : State) : Out :=
  if s.inReset l then done s else
  match c with
  | .h n =>
    let h := s.hv[n]
    if s.hv[partner n].outOn then done s else
    let s := s.mput (F.GDH_DT_STAT_EXT_LAST n.val) (sat 16 ext)
    let s := s.mput (F.GDH_DT_STAT_EXT_MAX n.val) (max (s.mfld (F.GDH_DT_STAT_EXT_MAX n.val)) (sat 16 ext))
    let ok := s.hvOwner n == l && s.streams l && h.usable && !h.scLatch && !h.softOff && !h.lost &&
              !(n.val < 12 && s.held (setOf n.val) && !h.lineLost)
    done (s.modHv n (fun h => { h with outOn := ok, gateOff := h.gateOff && !ok }))
  | .l n =>
    let v := s.lv
    if v.ch[lvPartner n].outOn then done s else
    let oc := if n.val < 6 then v.oc0 else v.oc1
    let ok := s.lvOwner n == l && s.streams l && v.usable && !v.lost && !v.ch[n].heldOff && !oc
    done (s.modLvCh n (fun c => { c with outOn := ok, gateOff := c.gateOff && !ok }))

/-- DT_TIMEOUT: the partner's report has not arrived DT_TO after its off-edge; the on-edge is withheld for the period and
the timeout counts towards a leg fault in that lane's fabric (R244, R245). Without a lane it is the monitor's held ASC: the
leg stays in freewheel (R248). -/
def execDtTimeout (by_ : Option Lane) (c : Chan) (s : State) : Out :=
  match c with
  | .h n =>
    let leg := legOf n
    let s := s.pulseEv .A (E.GDH_DT_TIMEOUT n.val)
    match by_ with
    | none => done s
    | some l =>
      if s.inReset l then done s else
      let s := s.modHv n (fun h => { h with outOn := false })
      let s := (legPages leg).foldl (fun s p => s.mbump ⟨p + 0x068, 16, 8⟩) s
      done (s.legEvent l leg)
  | .l n =>
    match by_ with
    | none => done s
    | some l =>
      if s.inReset l then done s else
      let s := s.pulseEv .A (E.GDL_DT_TIMEOUT n.val)
      let s := s.modLvCh n (fun c => { c with outOn := false })
      done (s.legEvent l (lvLegOf n))

/-- ISLAND_SILENT: the owner sees a traction island's back-channel silent for 400 ns; it turns off the set's high sides and
enters SAFE with cause 3 (R251). -/
def execIslandSilent (n : Fin 12) (s : State) : Out :=
  let o := setOf n.val
  let s := s.gatesOff ((setChans o).filter (fun c => c.val % 2 == 0))
  done (s.setFault o 3)

/-- A write of GDH_CLR or GDH_TEST through a lane: the island must be usable and the lane must own the channel (R87, R246). -/
def State.gdhWrite (s : State) (l : Lane) (n : Fin 34) (k : State → State) : State :=
  s.writing l (0x30070 + n.val * 0x1000) (fun s =>
    if !s.hv[n].usable then s.reject l .islandDown
    else if s.hvOwner n != l then s.reject l .ownerErr
    else k s)

/-- GDH_CLR_SC: clears a short-circuit latch, only while the channel's function is disabled (R239). -/
def State.clrSc (s : State) (l : Lane) (n : Fin 34) : State :=
  let s := s.modHv n (fun h => { h with scLatch := false })
  (s.levelEv .A (E.GDH_SC n.val) false).reply l .ok

def execGdhClrSc (l : Lane) (n : Fin 34) (s : State) : Out :=
  done (s.gdhWrite l n (fun s => if s.fnDisabled n.val then s.clrSc l n else s.reject l .stateErr))

/-- The clearing of a lane's own leg fault (R245): the counting window restarts. -/
def State.clrLeg (s : State) (l : Lane) (leg : Nat) : State :=
  let s := s.setLegBits leg (s.legBits leg &&& (3 - (1 <<< l.idx)))
  let s := s.modLane l (fun x => { x with legEvents := x.legEvents.filter (fun e => e.1 != leg) })
  s.levelEv .A (legEv leg) (s.legBits leg != 0)

/-- GDH_CLR_LEG: clears the writing lane's leg-fault bit; accepted through either lane, the owner's only while the function
is disabled (R245). -/
def execGdhClrLeg (l : Lane) (n : Fin 34) (s : State) : Out :=
  done (s.writing l (0x30070 + n.val * 0x1000) (fun s =>
    if !s.hv[n].usable then s.reject l .islandDown
    else if s.hvOwner n == l && !s.fnDisabled n.val then s.reject l .stateErr
    else (s.clrLeg l (legOf n)).reply l .ok))

/-- GDH_CLR_DT: clears GDH_DT_STAT. -/
def State.clrDt (s : State) (n : Fin 34) : State := s.putWord .A (0x30064 + n.val * 0x1000) 0
def execGdhClrDt (l : Lane) (n : Fin 34) (s : State) : Out :=
  done (s.gdhWrite l n (fun s => (s.clrDt n).reply l .ok))

/-- GDH_CLR_CNT: clears GDH_CNT and the counts of GDH_LEG, which both pages of the leg show. -/
def State.clrGdhCnt (s : State) (n : Fin 34) : State :=
  let s := s.putWord .A (0x3006C + n.val * 0x1000) 0
  (legPages (legOf n)).foldl (fun s p => (s.mput ⟨p + 0x068, 24, 8⟩ 0).mput ⟨p + 0x068, 16, 8⟩ 0) s
def execGdhClrCnt (l : Lane) (n : Fin 34) (s : State) : Out :=
  done (s.gdhWrite l n (fun s => (s.clrGdhCnt n).reply l .ok))

/-- SC_SELF_TEST: an internal level is applied to the comparator; SC_SELF shows whether it tripped (R256). -/
def execScSelfTest (l : Lane) (n : Fin 34) (tripped : Bool) (s : State) : Out :=
  done (s.gdhWrite l n (fun s =>
    if !s.fnDisabled n.val then s.reject l .stateErr
    else (s.modHv n (fun h => { h with scSelf := tripped })).reply l .ok))

/-- TOKEN_PUB of each lane follows the islands, and RED_TOK_TS notes each change (R345). -/
def State.pubToken (s : State) : State :=
  s.both (fun l s =>
    let p := s.holdsAny l
    if s.inReset l || s.flag l F.RED_STAT_TOKEN_PUB == p then s else
    let s := s.putFlag l F.RED_STAT_TOKEN_PUB p
    let ts := s.stamp l
    (s.putWord l F.RED_TOK_TS_LO_TS.addr (ts.setWidth 32)).putWord l F.RED_TOK_TS_HI_TS.addr ((ts >>> 32).setWidth 32))

/-- The channels of a token group's HV islands. -/
def groupChans : TokenGroup → List (Fin 34)
  | .tg0 => afeChans
  | .tg1 => dabChans
  | .tg2 => []

/-- TOKEN_LATCH: the islands of a group, or one bridge of the LV island, latch the token state driven, at the new owner's
next period-start marker (R247). A waiting on-edge is discarded (R255). -/
def execTokenLatch (g : TokenGroup) (bridge : Fin 2) (s : State) : Out :=
  if !s.mon.alive then done s else
  let b := s.token == .B
  let s := (groupChans g).foldl (fun s n => s.modHv n (fun h =>
    if h.usable then { h with ownerB := b, tokenOk := true, outOn := h.outOn && h.ownerB == b } else h)) s
  let s := if g == .tg2 && s.lv.usable then
      s.modLv (fun v => if bridge.val == 0 then { v with ownerB0 := b, tokenOk := true } else { v with ownerB1 := b, tokenOk := true })
    else s
  done s.pubToken

/-- All groups whose islands can report show the token state driven (R22). -/
def State.tokenDone (s : State) : Bool :=
  let b := s.token == .B
  (afeChans ++ dabChans).all (fun n => !s.hv[n].usable || s.hv[n].ownerB == b) &&
  (!s.lv.usable || (s.lv.ownerB0 == b && s.lv.ownerB1 == b))

/-- TOKEN_MOVED: all three groups report the new owner, and the move is complete (R22). -/
def execTokenMoved (s : State) : Out :=
  if s.mon.moveFrom.isNone || !s.tokenDone then done s else
  let s := s.modMon (fun m => { m with moveFrom := none })
  let s := s.mputFlag F.MON_RED_STAT_MOVING false
  let s := s.both (fun l s => if s.inReset l then s else
    (s.putFlag l F.RED_STAT_HANDOVER false).pulseEv l E.RED_TOKEN_MOVED)
  done s.pubToken

/-- TOKEN_CODE_INVALID: a token code has been invalid for 5 µs; the latch is kept and TOKEN_OK cleared (R247). -/
def execTokenCodeInvalid (g : TokenGroup) (s : State) : Out :=
  let s := (groupChans g).foldl (fun s n => s.modHv n (fun h => { h with tokenOk := false })) s
  let s := if g == .tg2 then s.modLv (fun v => { v with tokenOk := false }) else s
  done (s.monEv E.MON_TOKEN_CODE)

/-- HOLD_ASC_MASK: under a held ASC the monitor sets a leg's mask bit once the leg's high side reports its gate below
threshold, and the leg's low side turns on (R248). -/
def execHoldAscMask (k : Fin 6) (s : State) : Out :=
  let l : Lane := if k.val < 3 then .A else .B
  let hi : Fin 34 := ⟨2 * k.val, by omega⟩
  let lo : Fin 34 := ⟨2 * k.val + 1, by omega⟩
  if !s.held l || !s.asc || !s.hv[hi].gateOff || (l == .A && s.mon.freeA) then done s else
  let s := s.modMon (fun m => { m with mask := m.mask.mod l (fun x => x ||| (1#3 <<< (k.val % 3))) })
  let s := s.modHv lo (fun h => if h.lineLost then h else { h with mode := some true })
  done (s.placeTraction lo)

/-- BOOT_UV: BOOT − SW falls below 7.5 V while the high side is on (R253). The high side turns off, a refresh is forced in the
next period, and BOOT_N consecutive periods that end so hold the channel off with a leg fault. `leg` is the leg of the high
side L(2 leg). -/
def execBootUv (leg : Fin 6) (vboot : BitVec 16) (s : State) : Out :=
  let n : Fin 12 := ⟨2 * leg.val, by omega⟩
  if !s.lv.usable then done s else
  let o := s.lvOwner n
  let s := s.mput (F.GDL_STAT_VBOOT n.val) vboot.toNat
  let s := s.modLvCh n (fun c => { c with outOn := false, refresh := true, uvNow := true, bootRun := c.bootRun + 1 })
  let s := s.mbump (F.GDL_CNT_BOOT_UV n.val)
  let s := s.pulseEv .A (E.GDL_BOOT_UV n.val)
  done (if s.lv.ch[n].bootRun ≥ s.mfld (F.GDL_BOOT_BOOT_N n.val) then
      (s.modLvCh n (fun c => { c with heldOff := true })).legFault o (lvLegOf n)
    else s)

/-- SHUNT_OC: an actuator shunt has been above OC_TH for 200 ns: the bridge turns off and the overcurrent is latched
(R254). A driven actuator enters FAULT with cause 4, and a learning result is discarded (R320). -/
def execShuntOc (a : Fin 2) (s : State) : Out :=
  if !s.lv.usable then done s else
  let page := if a.val == 0 then 0 else 6
  let o := s.lvOwner (if a.val == 0 then 0 else 6)
  let s := s.bridgeOff a
  let s := s.modLv (fun v => if a.val == 0 then { v with oc0 := true } else { v with oc1 := true })
  let s := s.levelEv .A (E.GDL_OC page) true
  done (if s.actDriven o a then s.actFault o a 4 else s)

/-- GDL_CLR_LEG: clears the writing lane's LV leg fault; on L00 and L06 a write by the token holder also clears OC (R245,
R257). -/
def State.gdlClrLeg (s : State) (l : Lane) (n : Fin 12) : State :=
  let s := s.clrLeg l (lvLegOf n)
  let s := if s.legBits (lvLegOf n) == 0 then
      s.modLvCh ⟨n.val / 2 * 2, by omega⟩ (fun c => { c with heldOff := false, bootRun := 0 }) else s
  if s.lvOwner n == l && n.val == 0 then
    (s.modLv (fun v => { v with oc0 := false })).levelEv .A (E.GDL_OC 0) false
  else if s.lvOwner n == l && n.val == 6 then
    (s.modLv (fun v => { v with oc1 := false })).levelEv .A (E.GDL_OC 6) false
  else s
def execGdlClrLeg (l : Lane) (n : Fin 12) (s : State) : Out :=
  done (s.writing l (0x6004C + n.val * 0x1000) (fun s =>
    if !s.lv.usable then s.reject l .islandDown
    else if s.lvOwner n == l && !s.lvDisabled n then s.reject l .stateErr
    else (s.gdlClrLeg l n).reply l .ok))

/-- GDL_CLR_CNT: clears the LV counts, through the owner (R246, R257). -/
def State.clrGdlCnt (s : State) (n : Fin 12) : State :=
  ((s.mput (F.GDL_CNT_BOOT_UV n.val) 0).mput (F.GDL_CNT_CLIP n.val) 0).mput (F.GDL_CNT_SHOOT n.val) 0
def execGdlClrCnt (l : Lane) (n : Fin 12) (s : State) : Out :=
  done (s.writing l (0x6004C + n.val * 0x1000) (fun s =>
    if !s.lv.usable then s.reject l .islandDown
    else if s.lvOwner n != l then s.reject l .ownerErr
    else (s.clrGdlCnt n).reply l .ok))

end Sys2Proof.Machine
end

