-- ==== Sys2Proof/Machine/Traction.lean ====
section
/-! DEFINITION. The traction state machine of a lane and the monitor's safe-state selection (chapter 9). -/
namespace Sys2Proof.Machine

/-- The state machine enters a state: loops and gates follow it (R211). -/
def State.smEnter (s : State) (l : Lane) (st : Nat) : State :=
  let s := (s.smGoto l st).smLoops l
  if smModulates st then s else (s.gatesOff (setChans l)).placeSet l

/-- START entered; `blend` from ASC_ACQ or BRAKE (R218, R226). -/
def State.enterStart (s : State) (l : Lane) (blend : Bool) : State :=
  ((s.smEnter l 5).setRamp l 0).modTrc l (fun t => { t with startCnt := 0, blend := blend, blendN := 0, ss1Ramp := false })

def State.enterCatch (s : State) (l : Lane) : State := (s.smEnter l 2).modTrc l (fun t => { t with catchCnt := 0 })
def State.enterAcq (s : State) (l : Lane) : State := s.smEnter l 4

/-- The monitor's selection as the lane knows it: true for ASC (R232). -/
def State.selAsc (s : State) (l : Lane) : Bool := s.flag l F.TRC_SM_STAT_SS_SEL

/-- A cause of SAFE that is still present (R212): the angle, the current feedback, a leg, a safety reaction or a connector,
or the monitor's hold. -/
def State.causeStill (s : State) (l : Lane) (c : Nat) : Bool :=
  match c with
  | 1 => !s.flag l F.FBK_ANG_VALID
  | 2 => [0, 1, 2].any (s.inputFaulted l)
  | 3 => (setChans l).any (fun n => !s.hv[n].usable || s.hv[n].scLatch) ||
         [0, 1, 2].any (fun k => s.legBits (setBase l / 2 + k) / 2 ^ l.idx % 2 == 1)
  | 4 => s.fld l F.SAF_STAT_STATE != 0 || (s.lane l).saf.connector || (s.lane l).red.ownStop.isSome
  | 5 => s.held l
  | _ => false

/-- Every function enable is refused: the lanes' images, or their law-table pairs, differ (R63, R175). -/
def State.enableRefused (s : State) (l : Lane) : Bool :=
  (s.lane l).boot.mismatch || (s.linkUp l && s.ready l.other && !s.flag l F.CE_STAT_PEER_MATCH)

/-- The law table holds a deadbeat predictor for loop 1 whose LD, LQ and RS are all above 0.0 (R212). -/
def State.predictorOk (s : State) (l : Lane) : Bool :=
  let m := (s.lane l).mem
  s.flag l F.CE_STAT_TABLE_OK &&
  (kernelsOf m).any (fun (e, k) => e.ktype == 0x0D && e.loop == 1 && [0, 1, 2].all (fun i => fLt 0 (coefAt m e k i)))

/-- CMD ENABLE's conditions beside the geometry (R212, R300). -/
def State.canEnable (s : State) (l : Lane) : Bool :=
  s.sm l == 0 && (setChans l).all (fun n => s.hv[n].usable) && !([2, 3, 4, 5].any (s.causeStill l)) &&
  s.predictorOk l && !s.enableRefused l

/-- A command of TRC_SM_CMD in one lane (R212): the state it leaves, or none where the lane rejects it. A geometry that differs
is reported at the enable (R187). -/
def State.smCmd (s : State) (l : Lane) (c : Nat) : Option State :=
  let st := s.sm l
  match c with
  | 1 => if s.canEnable l && s.geomOk l then some ((s.smEnter l 1).putFlag l F.TRC_SM_STAT_GEN_SEEN false) else none
  | 2 =>
    if st != 1 then none
    else
      let act := s.fld l F.FBK_STAT_ACT
      if 1 ≤ act && act ≤ 4 then some (s.enterStart l false)
      else if s.selAsc l then some (s.enterAcq l) else some (s.enterCatch l)
  | 3 => if st == 5 || st == 6 then some (s.smEnter l 7) else none
  | 4 =>
    if st == 6 && fLe (s.word l F.TRC_BRAKE_CFG_BRAKE_MIN.addr) (fAbs (s.word l F.FBK_SPEED_SPEED.addr)) then
      some ((s.smEnter l 8).setRamp l 0) else none
  | 5 => if st != 8 then none else if s.flag l F.FBK_ANG_VALID then some (s.enterStart l true) else some (s.enterAcq l)
  | 6 => if st == 0 then none else some ((s.smEnter l 0).setRamp l 0)
  | 7 => if st == 9 && !s.causeStill l (s.fld l F.TRC_SM_STAT_CAUSE) then some (s.smEnter l 0) else none
  | _ => some s

/-- A rejected ENABLE raises TRC.GEOM_MISMATCH where the geometry is the reason (R187). -/
def State.smRejected (s : State) (l : Lane) (c : Nat) : State :=
  if c == 1 && s.sm l == 0 && !s.geomOk l then s.pulseEv l E.TRC_GEOM_MISMATCH else s

/-- With GEOM = 0b10 Lane B's state follows Lane A's, and its commands are ignored (R213). -/
def State.smIgnores (s : State) (l : Lane) : Bool := l == .B && s.fld l F.TRC_SET_GEOM == 2

/-- A command written to TRC_SM_CMD through a lane: it acts there, and while the link is up in the peer too; each lane checks
it against its own state and reports its own rejection (R213). -/
def State.smWrite (s : State) (l : Lane) (c : Nat) : State :=
  let s := if s.smIgnores l then s.reply l .ok else
    match s.smCmd l c with
    | some s => s.reply l .ok
    | none => (s.smRejected l c).reject l .stateErr
  let p := l.other
  if c == 0 || !s.linkUp l || !s.ready p || s.failed p || s.smIgnores p then s else
  match s.smCmd p c with
  | some s => s
  | none => (s.smRejected p c).pulseEv p E.SYS_ACCESS_REJECT

/-- ENABLE, START, STOP, BRAKE, RELEASE, DISABLE and CLEAR: commands of TRC_SM_CMD (R212, R213, R228, R231). -/
def execEnable (l : Lane) (s : State) : Out := done (s.writing l 0x22040 (fun s => s.smWrite l 1))
def execStart (l : Lane) (s : State) : Out := done (s.writing l 0x22040 (fun s => s.smWrite l 2))
def execStop (l : Lane) (s : State) : Out := done (s.writing l 0x22040 (fun s => s.smWrite l 3))
def execBrake (l : Lane) (s : State) : Out := done (s.writing l 0x22040 (fun s => s.smWrite l 4))
def execRelease (l : Lane) (s : State) : Out := done (s.writing l 0x22040 (fun s => s.smWrite l 5))
def execDisable (l : Lane) (s : State) : Out := done (s.writing l 0x22040 (fun s => s.smWrite l 6))
def execClear (l : Lane) (s : State) : Out := done (s.writing l 0x22040 (fun s => s.smWrite l 7))

/-- The law holds an HFI estimator (R212). -/
def State.hasHfi (s : State) (l : Lane) : Bool := (firstOf (s.lane l).mem 0x11).isSome

/-- CATCH_TIMEOUT: CATCH_T has elapsed with no amplitude at or above E_MIN (R212). -/
def execCatchTimeout (l : Lane) (s : State) : Out :=
  if s.inReset l || s.sm l != 2 then done s else
  if s.hasHfi l then
    done (((s.smEnter l 3).modTrc l (fun t => { t with polPairs := 0 })).pulseEv l E.TRC_CATCH_DONE)
  else done ((s.safeEntry l 8).pulseEv l E.TRC_START_FAIL)

/-- The state words of the law's first estimator of a kernel code after the lane has set its angle (R219, R222, R225): what they hold then
the spec does not state. -/
def State.estimator (s : State) (l : Lane) (ktype code : Nat) (ws : List Word) : State :=
  match firstOf (s.lane l).mem ktype with
  | none => s
  | some (e, k) =>
    let st := (List.range k.nState).map (fun i => mw (s.lane l).mem (b10State (e.sbase + i)))
    s.modLane l (fun x => { x with
      mem := mputs x.mem (b10State e.sbase) ((List.range k.nState).map (Config.kernel code (ws ++ st))) })

/-- POL_DONE: a pair of polarity pulses ends (R222): the +d pulse rose at least 5 % faster, the −d pulse did, or neither. The
pair is repeated up to three times. -/
def execPolDone (l : Lane) (r : PolResult) (s : State) : Out :=
  if s.inReset l || s.sm l != 3 then done s else
  match r with
  | .plus => done ((s.enterStart l false).pulseEv l E.TRC_POL_DONE)
  | .minus => done (((s.estimator l 0x11 0x51 []).enterStart l false).pulseEv l E.TRC_POL_DONE)
  | .neither =>
    let n := (s.lane l).trc.polPairs + 1
    done (if n ≥ 4 then s.safeEntry l 8 else s.modTrc l (fun t => { t with polPairs := n }))

/-- TRC_CATCH_RES and TRC_CATCH_SPD at the end of CATCH or ASC_ACQ, whose angle and speed preset the observer's PLL (R219, R225). -/
def State.catchRes (s : State) (l : Lane) (angle : BitVec 16) (speed : Word) : State :=
  let s := s.estimator l 0x10 0x50 [fInt angle.toNat, speed]
  (s.put l F.TRC_CATCH_RES_ANGLE angle.toNat).putWord l F.TRC_CATCH_SPD_SPEED.addr speed

/-- ACQ_DONE: the angle re-acquired in ASC_ACQ is accepted at the end of a second period (R225, R226). -/
def execAcqDone (l : Lane) (angle : BitVec 16) (speed : Word) (s : State) : Out :=
  if s.inReset l || s.sm l != 4 then done s else
  let s := (s.catchRes l angle speed).bump l F.TRC_SM_CNT_ACQ
  done ((s.enterStart l true).pulseEv l E.TRC_ACQ_DONE)

/-- ACQ_FAIL: ACQ_MAX electrical periods have passed without acceptance (R212). -/
def execAcqFail (l : Lane) (s : State) : Out :=
  if s.inReset l || s.sm l != 4 then done s else
  done (((s.safeEntry l 7).bump l F.TRC_SM_CNT_ACQ_FAIL).pulseEv l E.TRC_ACQ_FAIL)

/-- START_TO_RUN: 16 consecutive fast cycles of START with a valid angle (R212, R223). -/
def execStartToRun (l : Lane) (s : State) : Out :=
  if s.inReset l || s.sm l != 5 || (s.lane l).trc.startCnt < 16 then done s else done ((s.smEnter l 6).setRamp l 0)

/-- STOPPING_DONE: the ramp-in factor is 0 in STOPPING (R212, R223); under an SS1 the lane reports its ramp done (R361). -/
def execStoppingDone (l : Lane) (s : State) : Out :=
  if s.inReset l || s.sm l != 7 || (s.lane l).trc.rampIn != 0 then done s else
  let ss1 := (s.lane l).trc.ss1Ramp
  let s := (s.smEnter l 1).modTrc l (fun t => { t with ss1Ramp := false })
  done (if ss1 then s.modSaf l (fun x => { x with rampDone := true }) else s)

/-- The set of a lane in RUN has lost its angle (R212). -/
def State.angleLost (s : State) (l : Lane) : State :=
  if s.sm l != 6 then s else
  let s := (s.bump l F.TRC_SM_CNT_LOSS).pulseEv l E.TRC_OBS_LOST
  let s := s.setRamp l 0
  if !s.flag l F.TRC_SM_CFG_AUTO_RECATCH then s.safeEntry l 1
  else if s.selAsc l then s.enterAcq l else s.enterCatch l

/-- OBS_LOST: OBS is active and its LOCK has fallen, or the residual has exceeded ORES_LIM for ORES_N samples (R224). The
observer is unhealthy, no source is left, and the set passes out of RUN. -/
def execObsLost (l : Lane) (s : State) : Out :=
  let lock := fLt (fFrac 1 2) (mw (s.lane l).mem (b10Wire 0x085))
  if s.inReset l || s.fld l F.FBK_STAT_ACT != 5 ||
     (lock && (s.lane l).trc.oresCnt < s.fld l F.TRC_OBS_CFG_ORES_N) then done s else
  let s := s.modTrc l (fun t => { t with oresCnt := 0 })
  let s := s.putFlag l ⟨F.FBK_STAT_HEALTHY.addr, 12, 1⟩ false
  let s := (s.put l F.FBK_STAT_ACT 0).putFlag l F.FBK_ANG_VALID false
  done ((s.levelEv l E.FBK_NO_SOURCE true).angleLost l)

/-- STALL: a stall has lasted STALL_T in RUN (R229). -/
def execStall (l : Lane) (s : State) : Out :=
  if s.inReset l || s.sm l != 6 || s.flag l F.TRC_SM_STAT_STALL_DER then done s else
  done ((s.putFlag l F.TRC_SM_STAT_STALL_DER true).levelEv l E.TRC_STALL true)

/-- STALL_RECOVER: |ω| has stayed above 2 × STALL_F for 100 ms (R229). -/
def execStallRecover (l : Lane) (s : State) : Out :=
  done (if s.inReset l then s else (s.putFlag l F.TRC_SM_STAT_STALL_DER false).levelEv l E.TRC_STALL false)

/-- Speeds are compared in units of 2⁻¹⁴⁹ / 1,000 rad/s. -/
def spdUnit : Nat := 2 ^ 149 * 1000

/-- The speeds that lanes report with their heartbeats, while valid and no older than 100 µs (R214). -/
def State.laneSpeed (s : State) (l : Lane) : Option Nat :=
  match s.mon.hb.get l with
  | some (h, t) => if h.speedValid && s.time ≤ t + us 100 && !s.inReset l then some ((fVal h.speed).natAbs * 1000) else none
  | none => none

/-- The larger of two optional values. -/
def optMax : Option Nat → Option Nat → Option Nat
  | none, y => y
  | x, none => x
  | some a, some b => some (max a b)

/-- ω_m of R214 with its source: 0 lanes, 1 MON_TACH, 2 the short-circuit current (R215), 3 none. -/
def State.monSpeed (s : State) : Option Nat × Nat :=
  let lanes := optMax (s.laneSpeed .A) (s.laneSpeed .B)
  let tach := if s.mfld F.MON_SST_CFG2_TACH_PPR == 0 then none else s.mon.sst.tach.map (· * 2 ^ 149)
  match optMax lanes tach with
  | some w => (some w, if lanes == some w then 0 else 1)
  | none =>
    match s.mon.sst.sc with
    | some w => if s.asc then (some (w * 2 ^ 149), 2) else (none, 3)
    | none => (none, 3)

/-- U of R214 and R216, in volts. -/
def State.monU (s : State) : Nat :=
  if s.mflag F.MON_SST_STAT_U_LOST then min s.mon.sst.uLast 400
  else
    match s.mon.sst.u[0], s.mon.sst.u[1] with
    | some a, some b => min a b
    | some a, none => a
    | none, some b => b
    | none, none => s.mon.sst.uLast

/-- ω ≥ ω_th × pct / 100 with ω_th = U / (√3 × PSI), decided on the squares (R214). -/
def reaches (w u psi pct : Nat) : Bool :=
  let a := w * psi * 4 * 100
  let b := u * pct * 1000000 * spdUnit
  3 * a * a ≥ b * b

/-- ω_th in whole rad/s. -/
def threshold (u psi : Nat) : Nat :=
  let n := u * 1000000
  let d := psi * 4
  let r := isqrt (n * n / (3 * d * d))
  if 3 * d * d * r * r == n * n then r else r + (if Config.roundUp n d then 1 else 0)

/-- The islands of a set take the mode the line carries. -/
def State.lineMode (s : State) (l : Lane) : State :=
  let s := s.modMon (fun m => { m with mask := m.mask.set l 0 })
  let s := (setChans l).foldl (fun s n => s.modHv n (fun h => if h.lineLost then h else { h with mode := some s.asc })) s
  s.placeSet l

/-- SS_SEL of each lane that hears the monitor is its selection (R232, R343). -/
def State.showSel (s : State) : State :=
  s.both (fun l s => if s.inReset l || s.flag l F.RED_STAT_MON_SS then s else s.putFlag l F.TRC_SM_STAT_SS_SEL s.asc)

/-- The monitor's selection recomputed and driven on the line (R214 to R216). -/
def State.select (s : State) : State :=
  if !s.mon.alive then s else
  let psi := s.mfld F.MON_SST_CFG_PSI
  let margin := s.mfld F.MON_SST_CFG_MARGIN
  let hyst := s.mfld F.MON_SST_CFG_HYST
  let u := s.monU
  let (w, src) := s.monSpeed
  let s := if w.isSome then s.modMon (fun m => { m with sst := { m.sst with known := true } }) else s
  let ugen := !s.mflag F.MON_SST_STAT_U_LOST && u > s.mfld F.MON_SST_CFG2_UGEN
  let was := s.asc
  let bySpeed := match w with
    | some v => if was then reaches v u psi (100 - margin - hyst) else reaches v u psi (100 - margin)
    | none => was && s.mon.sst.known
  let sel := ugen || bySpeed
  let s := s.mputFlag F.MON_SST_STAT_SEL sel
  let s := s.mput F.MON_SST_STAT_SRC src
  let s := s.mputFlag F.MON_SST_STAT_UGEN_HIT ugen
  let s := s.mput F.MON_SST_STAT_THR (sat 16 (threshold u psi))
  let s := s.mput F.MON_SST_SPD_SPD (match w with
    | some v => sat 16 (Config.quot v spdUnit).toNat
    | none => 0)
  let s := s.monLevel E.MON_UGEN ugen
  let s := s.showSel
  if sel == was then s else ((s.monEv E.MON_SST_CHANGE).lineMode .A).lineMode .B

/-- SAFE_STATE_SELECTION: at a medium boundary, or after at most 500 µs, with the monitor's newest decodes of S0 and S1 as
signed outputs and in volts. -/
def execSafeStateSelection (v0 v1 : BitVec 16) (u0 u1 : Nat) (s : State) : Out :=
  if !s.mon.alive then done s else
  let s := if s.mon.sst.lost[0] then s else s.monSense 0 v0 u0
  let s := if s.mon.sst.lost[1] then s else s.monSense 1 v1 u1
  done s.select

/-- SC_SPEED_TIMEOUT: MON_IU1 and MON_IU2 have not crossed zero for 100 ms under ASC: the speed is taken as 0 (R215). -/
def execScSpeedTimeout (s : State) : Out :=
  done (s.modMon (fun m => { m with sst := { m.sst with sc := some 0 } })).select

/-- U_LOST: 10 ms after both decodes are lost (R216). -/
def execULost (s : State) : Out :=
  if !s.mon.alive || !s.mon.sst.lost[0] || !s.mon.sst.lost[1] then done s else
  done (s.mputFlag F.MON_SST_STAT_U_LOST true).select

/-- MON_TACH_PULSE: a pulse on MON_TACH (R214): the speed from the time since the previous one, TACH_PPR and PP. -/
def execMonTachPulse (s : State) : Out :=
  let ppr := s.mfld F.MON_SST_CFG2_TACH_PPR
  if !s.mon.alive || ppr == 0 then done s else
  let s := match s.mon.sst.tachAt with
    | some t =>
      if t < s.time then
        let w := (Config.quot (2 * piNum * 1000 * s.mfld F.MON_SST_CFG2_PP * 80000000 : Nat) (ppr * (s.time - t) * piDen : Nat)).toNat
        s.modMon (fun m => { m with sst := { m.sst with tach := some w } })
      else s
    | none => s
  done (s.modMon (fun m => { m with sst := { m.sst with tachAt := some s.time } })).select

end Sys2Proof.Machine
end

