-- ==== Sys2Proof/Machine/Dcl.lean ====
section
/-! DEFINITION. The DC-link converter (chapter 11): link value and target, the reference ramp, start and stop, overload,
shedding and its abort, the loss of a lane, overvoltage and the power-good pin. -/
namespace Sys2Proof.Machine

/-- A sense stream in volts. -/
def State.sense (s : State) (l : Lane) (m : Nat) : Word := fMul (fInt (s.senseVal l m)) (Config.senseGain m)

/-- The peer's word of the current exchange (R194). -/
def State.exchWord (s : State) (l : Lane) (i : Nat) : Word := nth (s.lane l).eng.exch i

/-- The link value that a lane's chain uses (R265). -/
def State.linkValue (s : State) (l : Lane) : Option Word :=
  let own := s.sense l (linkStream l)
  let peer := s.exchWord l 9
  match s.fld l F.DCL_STAT_SRC with
  | 0 => some own
  | 1 => some peer
  | 2 => some (fMax own peer)
  | _ => none

/-- A lane's battery voltage (R266): S2 in Lane A, the exchanged value in Lane B. -/
def State.ubat (s : State) (l : Lane) : Option Word :=
  match l with
  | .A => if s.streamLost .A 2 then none else some (s.sense .A 2)
  | .B => if s.linkUp .B && !s.streamLost .A 2 then some (s.exchWord .B 10) else none

/-- The islands of a lane's two phases are usable (R269). -/
def State.convUsable (s : State) (l : Lane) : Bool := (convChans l).all (fun n => s.hv[n].usable)

/-- The conditions of EN = 1 (R269), with those of R63 and R175. -/
def State.dclCanEnable (s : State) (l : Lane) : Bool :=
  !s.enableRefused l && (s.convUsable .A || s.convUsable .B) &&
  (match s.linkValue l, s.ubat l with
   | some u, some b => fLe (fSub b (fInt (s.fld l F.DCL_TRACK_PRE_TOL))) u
   | _, _ => false)

/-- A phase of a lane runs: the converter runs, the phase is neither stopped nor shed, and in REG = 1 Lane B has the link
(R274, R275, R287). -/
def State.phaseRuns (s : State) (l : Lane) (m : Nat) : Bool :=
  let st := s.fld l F.DCL_STAT_STATE
  (st == 2 || st == 3) && !s.phaseStopped l m && !(s.lane l).dcl.shed.contains m &&
  !(l == .B && s.flag l F.DCL_CTRL_REG && !s.linkUp l)

/-- A phase that starts or joins has its boost law preset to the duty 1 − UBAT / UDC (R269): its sink wire carries it, and what its
state words then hold the spec does not state. -/
def State.presetBoost (s : State) (l : Lane) (m : Nat) : State :=
  let mem := (s.lane l).mem
  let b := match s.ubat l with
    | some b => b
    | none => (s.lane l).dcl.ubat.getD 0
  let d := fSub fOne (fDiv b ((s.linkValue l).getD 0))
  let w := 0x088 + (m - 1) % 2
  match (kernelsOf mem).find? (fun e => e.1.ktype == 0x17 && sinkOf mem e.1 e.2 == w) with
  | some (e, k) =>
    if !fFinite d then s else
    let st := (List.range k.nState).map (fun i => mw mem (b10State (e.sbase + i)))
    s.modLane l (fun x => { x with
      mem := mputs (Machine.mput x.mem (b10Wire w) d) (b10State e.sbase) ((List.range k.nState).map (Config.kernel 0x57 (d :: st))) })
  | none => s

/-- The active phases of a lane shown and driven; a phase that does not run has its gates off. -/
def State.showPhases (s : State) (l : Lane) : State :=
  (ownPhases l).foldl (fun s m =>
    let on := s.phaseRuns l m
    let s := if on && !s.phaseActive l m then s.presetBoost l m else s
    let s := s.setPhaseActive l m on
    if on then s else s.gatesOff (phaseChans m)) s

/-- The active phases of a lane. -/
def State.activePhases (s : State) (l : Lane) : List Nat := (ownPhases l).filter (s.phaseActive l)

/-- EN = 1 in one lane (R269): loop 3 is asked to close and the ramp presets to the measured link value. A lane whose own
islands are not usable keeps its phases stopped. -/
def State.dclStart (s : State) (l : Lane) : State :=
  let st := s.fld l F.DCL_STAT_STATE
  if s.inReset l || st == 1 || st == 2 then s else
  if !s.convUsable l then s.put l F.DCL_STAT_STATE 4 else
  let u := (s.linkValue l).getD 0
  let s := (s.put l F.DCL_STAT_STATE 1).putWord l F.DCL_VREF_ACT_VREF_ACT.addr u
  (s.modDcl l (fun d => { d with target := u, clipRaw := none })).loopAsk l 3

/-- EN = 0 in one lane (R270): the target moves to the present measured value and the phase currents ramp to 0. A lane that
was kept stopped goes to OFF. -/
def State.dclEnd (s : State) (l : Lane) : State :=
  let st := s.fld l F.DCL_STAT_STATE
  if s.inReset l || st == 0 || st == 3 then s
  else if st == 4 then (s.put l F.DCL_STAT_STATE 0).loopOpen l 3
  else (s.put l F.DCL_STAT_STATE 3).modDcl l (fun d => { d with
    hold := (s.linkValue l).getD (s.word l F.DCL_VREF_ACT_VREF_ACT.addr), ret := none, stopAt := s.time })

/-- DCL_STOP_DONE: after the 1 ms ramp the gates turn off and loop 3 opens (R270). -/
def execDclStopDone (l : Lane) (s : State) : Out :=
  if s.inReset l || s.fld l F.DCL_STAT_STATE != 3 then done s else
  let s := ((s.put l F.DCL_STAT_STATE 0).putFlag l F.DCL_STAT_OV false).levelEv l E.DCL_OV false
  done ((s.showPhases l).loopOpen l 3)

/-- The cause of a phase's stop is gone (R274): its input, its short-circuit latches, its leg and the lane's link value. -/
def State.phaseCauseGone (s : State) (l : Lane) (m : Nat) : Bool :=
  let n := 3 + (m - 1) % 2
  !s.inputFaulted l n && (phaseChans m).all (fun c => !s.hv[c].scLatch) &&
  s.legBits (m + 5) / 2 ^ l.idx % 2 == 0 && s.fld l F.DCL_STAT_SRC != 3

/-- DCL_CLR.PHASE for one phase: bits of the peer's phases are ignored, and the latch is kept while its cause lasts. The phase
rejoins with the next showing of the active phases (R274, R284). -/
def State.phaseClear (s : State) (l : Lane) (m : Nat) : State :=
  if phaseLane m != l || !s.phaseStopped l m || !s.phaseCauseGone l m then s else
  let s := s.putFlag l ⟨F.DCL_STAT_ACT.addr, 20 + (m - 1), 1⟩ false
  let k : Fin 2 := ⟨(m - 1) % 2, by omega⟩
  let s := s.modSmp l (fun x => { x with ipk := x.ipk.set k 0 })
  if (ownPhases l).any (s.phaseStopped l) then s else s.levelEv l E.DCL_PHASE_STOP false

/-- The target of the ramp before clamping, none while it is frozen (R266, R270). -/
def State.dclRaw (s : State) (l : Lane) : Option Word :=
  if s.fld l F.DCL_STAT_STATE == 3 then some (s.lane l).dcl.hold else
  match s.fld l F.DCL_CTRL_TRACK with
  | 1 => (s.ubat l).map (fun b => fAdd b (fInt (s.fld l F.DCL_TRACK_VHEAD)))
  | 2 => (s.ubat l).map (fun b => fMul (fFrac (s.fld l F.DCL_TRACK_RATIO) 4096) b)
  | _ => some (s.word l F.DCL_VREF_VREF.addr)

/-- The target clamped to VMIN to VMAX and raised to the floor, with what that reports (R266). -/
def State.dclTarget (s : State) (l : Lane) : State × Word :=
  let ub := s.ubat l
  let s := match ub with
    | some b => s.modDcl l (fun d => { d with ubat := some b })
    | none => s
  match s.dclRaw l with
  | none =>
    let s := (s.putFlag l F.DCL_STAT_VBAT_FRZ true).levelEv l E.DCL_VBAT_LOST true
    (s, (s.lane l).dcl.target)
  | some raw =>
    let s := (s.putFlag l F.DCL_STAT_VBAT_FRZ false).levelEv l E.DCL_VBAT_LOST false
    let c := fClamp raw (fInt (s.fld l F.DCL_VLIM_VMIN)) (fInt (s.fld l F.DCL_VLIM_VMAX))
    let clipped := fVal c != fVal raw
    let again := (s.lane l).dcl.clipRaw == some raw
    let s := if clipped && !again then s.pulseEv l E.DCL_VREF_CLIP else s
    let floor := (s.lane l).dcl.ubat.map (fun b => fAdd b (fInt (s.fld l F.DCL_TRACK_VHEAD)))
    let low := match floor with
      | some f => fLt c f
      | none => false
    let c := if low then floor.getD c else c
    let s := s.putFlag l F.DCL_STAT_FLOOR low
    (s.modDcl l (fun d => { d with target := c, clipRaw := if clipped then some raw else none }), c)

/-- The converter's medium cycle: the reference in effect moves towards its target at SLEW (R262, R267). -/
def State.dclMedium (s : State) (l : Lane) : State :=
  let st := s.fld l F.DCL_STAT_STATE
  if st != 1 && st != 2 && st != 3 then s else
  let (s, target) := s.dclTarget l
  let r := rampKernel
    { ins := [target, 0], con := [true, false], coef := []
      live := [target, target, fInt (s.fld l F.DCL_SLEW_SLEW * 100), 0, 0]
      st := [s.word l F.DCL_VREF_ACT_VREF_ACT.addr, 0], ts := groupPeriod (s.lane l).mem (s.fastRate l) 2 }
  s.putWord l F.DCL_VREF_ACT_VREF_ACT.addr (nth r.outs 0)

/-- One squared ampere in the accumulator's unit. -/
def sqUnit : Nat := 2 ^ 298

/-- The converter's slow cycle: the overload accumulators (R272). -/
def State.dclSlow (s : State) (l : Lane) : State :=
  let iovl := s.fld l F.DCL_OVL_IOVL
  let ic := s.fld l F.DCL_OVL_ICONT
  let full := (iovl * iovl - ic * ic) * (s.fld l F.DCL_OVL_TOVL * 100) * sqUnit
  let s := (List.finRange 2).foldl (fun (s : State) (k : Fin 2) =>
    let q := (s.lane l).smp.sq[k]
    let mean := if q.2 == 0 then 0 else (Config.quot q.1 q.2).toNat
    let a := (s.lane l).dcl.acc[k] + mean - ic * ic * sqUnit
    let was := (s.lane l).dcl.der[k]
    let on := if was then decide (full < 2 * a) else decide (full ≤ a)
    let s := s.modDcl l (fun d => { d with acc := d.acc.set k a, der := d.der.set k on })
    s.modSmp l (fun x => { x with sq := x.sq.set k (0, 0) })) s
  let any := (s.lane l).dcl.der[0] || (s.lane l).dcl.der[1]
  (s.putFlag l F.DCL_STAT_OVL_DER any).levelEv l E.DCL_OVERLOAD any

/-- The mean magnitude of a lane's active phase currents, as a sum of steps of 2⁻¹⁴⁹ A and a number of phases (R275). -/
def State.meanPhase (s : State) (l : Lane) : Nat × Nat :=
  (s.activePhases l).foldl (fun a m => (a.1 + (fVal (s.phys l (3 + (m - 1) % 2))).natAbs, a.2 + 1)) (0, 0)

/-- A lane restores its own shed phases (R276). -/
def State.restorePhases (s : State) (l : Lane) : State :=
  let s := (s.modDcl l (fun d => { d with shed := [], leaving := none })).putFlag l F.DCL_STAT_SHEDDING false
  s.showPhases l

/-- A shedding sequence is to be aborted as a lane sees it: I_ph above ADD_I, or the link off its reference by more than
VBAND (R276). -/
def State.shedAborts (s : State) (l : Lane) : Bool :=
  let d := (s.lane l).dcl
  let i := s.meanPhase l
  let off := match s.linkValue l with
    | some u => fAbove (fSub (s.word l F.DCL_VREF_ACT_VREF_ACT.addr) u) (s.fld l F.DCL_SHED_VBAND * 5) 1
    | none => false
  (!d.shed.isEmpty || d.leaving.isSome) && (i.1 > s.fld l F.DCL_SHED_ADD_I * i.2 * 2 ^ 149 || off)

/-- Shedding may run: it is enabled in the deciding lane, the link is up, the lock holds and Lane A runs (R275, R277, R283). -/
def State.shedMay (s : State) : Bool :=
  s.flag .A F.DCL_CTRL_SHED_EN && s.linkUp .A && s.flag .A F.CLK_STAT_PEER_LOCK && s.fld .A F.DCL_STAT_STATE == 2

/-- The next phase to leave, in the order 4, 2, 3 (R275). -/
def State.nextToShed (s : State) : Option Nat :=
  [4, 2, 3].find? (fun m => !(s.lane .A).dcl.shed.contains m && !s.phaseStopped (phaseLane m) m)

/-- Active phases of both lanes. -/
def State.activeAll (s : State) : Nat := (s.activePhases .A).length + (s.activePhases .B).length

/-- SHED: I_ph has stayed below the shedding level for SHED_T, so the next phase starts to ramp out (R275). -/
def execShed (s : State) : Out :=
  if !s.shedMay || (s.lane .A).dcl.leaving.isSome || s.activeAll ≤ s.fld .A F.DCL_SHED_MIN_M1 + 1 then done s else
  match s.nextToShed with
  | none => done s
  | some m => done (s.both (fun l s => if s.inReset l then s else
      (s.modDcl l (fun d => { d with leaving := some m, leaveAt := s.time })).putFlag l F.DCL_STAT_SHEDDING true))

/-- SHED_RAMP_DONE: the leaving phase turns off, and the angles are recomputed (R275). -/
def execShedRampDone (s : State) : Out :=
  match (s.lane .A).dcl.leaving with
  | none => done s
  | some m => done (s.both (fun l s => if s.inReset l || (s.lane l).dcl.leaving != some m then s else
      let s := (s.modDcl l (fun d => { d with leaving := none, shed := d.shed ++ [m] })).putFlag l F.DCL_STAT_SHEDDING false
      let s := (s.showPhases l).bump l F.DCL_CNT_SHED
      s.pulseEv l E.DCL_SHED))

/-- SHED_ABORT_NOTICE: the peer receives the abort and restores its own shed phases (R276). -/
def execShedAbortNotice (l : Lane) (s : State) : Out :=
  done (if s.inReset l || !s.linkUp l then s else s.restorePhases l)

/-- The placement of the active phases on the reference carrier, in 1/1,000 degrees (R273): the phase with its angle. A lane
without the lock places its own phases by the same rule. -/
def phaseAngles (active : List Nat) : List (Nat × Nat) :=
  let order := [1, 3, 2, 4].filter active.contains
  order.zipIdx.map (fun x => (x.1, x.2 * 360000 / order.length))

def State.placement (s : State) (l : Lane) : List (Nat × Nat) :=
  phaseAngles (if s.flag l F.CLK_STAT_PEER_LOCK then s.activePhases .A ++ s.activePhases .B else s.activePhases l)

/-- OV_TIMEOUT: the overvoltage has lasted OV_T, so the converter stops in that lane by the fault path (R280). -/
def execOvTimeout (l : Lane) (s : State) : Out :=
  done (if s.inReset l || !s.flag l F.DCL_STAT_OV then s else s.dclFault l)

/-- The voltage integrator preset by the survivor in the first fast cycle after the declaration (R278): the output of the
first medium PI of loop 3 is scaled by the active phases of both lanes over its own, within IOVL per phase. -/
def State.dclSurvive (s : State) (l : Lane) : State :=
  let own := (s.activePhases l).length
  let both := (s.lane l).dcl.both
  let s := (s.modDcl l (fun d => { d with peerLost := false })).restorePhases l
  let m := (s.lane l).mem
  match (kernelsOf m).find? (fun e => e.1.ktype == 0x01 && e.1.loop == 3 && e.1.rate == 2) with
  | none => s
  | some (e, _) =>
    if own == 0 then s else
    let y := mw m (b10Wire e.obase)
    let lim := fInt (s.fld l F.DCL_OVL_IOVL * own)
    let y' := fClamp (fMul y (fFrac both own)) (fNeg lim) lim
    let i := mw m (b10State e.sbase)
    s.modLane l (fun x => { x with mem := Machine.mput x.mem (b10State e.sbase) (fAdd i (fSub y' y)) })

/-- Overvoltage forcing (R280). -/
def State.dclOv (s : State) (l : Lane) : State :=
  let st := s.fld l F.DCL_STAT_STATE
  match s.linkValue l with
  | none => s
  | some u =>
    let ov := s.fld l F.DCL_OV_OV
    let on := if s.flag l F.DCL_STAT_OV then !fLt u (fInt ((ov : Int) - s.fld l F.DCL_OV_OV_HYS)) else fLt (fInt ov) u
    let on := on && (st == 2 || st == 3)
    (s.putFlag l F.DCL_STAT_OV on).levelEv l E.DCL_OV on

/-- A lane of the converter that starts is running once loop 3 is closed (R269). -/
def State.dclBegin (s : State) (l : Lane) : State :=
  if s.fld l F.DCL_STAT_STATE == 1 && s.loopClosed l 3 then s.put l F.DCL_STAT_STATE 2 else s

/-- What a lane shows of the converter at a fast-cycle start: its link value, the peer's phases while the link is up, and
ILV_LOCAL (R265, R273, R284). -/
def State.dclShow (s : State) (l : Lane) : State :=
  let s := s.putWord l F.DCL_UDC_UDC.addr ((s.linkValue l).getD 0)
  let st := s.fld l F.DCL_STAT_STATE
  let s := s.putFlag l F.DCL_STAT_ILV_LOCAL ((st == 1 || st == 2 || st == 3) && !s.flag l F.CLK_STAT_PEER_LOCK)
  let p := l.other
  (ownPhases p).foldl (fun s m =>
    let on := s.linkUp l && s.ready p && s.phaseActive p m
    let off := s.linkUp l && s.ready p && s.phaseStopped p m
    (s.setPhaseActive l m on).putFlag l ⟨F.DCL_STAT_ACT.addr, 20 + (m - 1), 1⟩ off) s

/-- The converter's share of a fast-cycle start in a lane. -/
def State.dclFast (s : State) (l : Lane) : State :=
  let s := s.dclSource l
  let s := if s.mon.sto && !(s.lane l).saf.cmdLost then s.dclStop l else s
  let s := s.dclBegin l
  let s := if (s.lane l).dcl.peerLost then s.dclSurvive l else s
  let s := s.dclOv l
  let s := if s.shedAborts l then
      ((s.restorePhases l).bump l F.DCL_CNT_ABORT).pulseEv l E.DCL_SHED_ABORT
    else if !s.shedMay && (!(s.lane l).dcl.shed.isEmpty || (s.lane l).dcl.leaving.isSome) then s.restorePhases l
    else s
  let s := s.showPhases l
  let s := if s.linkUp l && s.ready l.other then s.modDcl l (fun d => { d with both := s.activeAll }) else s
  s.dclShow l

/-- U of R214 lies within a window of a reported reference. -/
def State.uWithin (s : State) (win : Nat) (v : Word) : Bool := ((s.monU : Int) * 2 ^ 149 - fVal v).natAbs ≤ win * 2 ^ 149

/-- The heartbeat of a lane that the monitor counts. -/
def State.hbOf (s : State) (l : Lane) : Option Heartbeat :=
  if s.heard l then (s.mon.hb.get l).map (·.1) else none

/-- The reference in effect that counts at the monitor: Lane A's, or Lane B's while Lane A is failed (R281). -/
def State.vrefSeen (s : State) : Option Word := ((s.hbOf (if s.declared .A then .B else .A))).map (·.vref)

/-- The conditions of PG_DCL (R281). -/
def State.pgDclOk (s : State) : Bool :=
  let a := s.hbOf .A
  let b := s.hbOf .B
  let run := fun (h : Option Heartbeat) => h.any (fun h => h.dclState == 2)
  s.mon.alive && !s.aon.nPor && s.mflag F.MON_PG_DCL_PG_EN && (run a || run b) &&
  s.vrefSeen.any (s.uWithin (s.mfld F.MON_PG_DCL_PG_WIN)) && !a.any (·.dclOv) && !b.any (·.dclOv)

/-- PG_DCL set. -/
def State.setPgDcl (s : State) (on : Bool) : State :=
  if s.aon.pgDcl == on then s else
  ((s.modAon (fun a => { a with pgDcl := on })).mputFlag F.MON_PG_DCL_PG_STATE on).monEv E.MON_PG_CHANGE

/-- PG_DCL_RELEASE: the conditions have held for PG_DLY (R281). -/
def execPgDclRelease (s : State) : Out := done (if s.pgDclOk then s.setPgDcl true else s)

end Sys2Proof.Machine
end

