-- ==== Sys2Proof/Machine/Charger.lean ====
section
/-! DEFINITION. The on-board charger (chapter 12): the pilot circuits, the sequence, the power coordinator, ride-through and
trips, vehicle-to-load, the drive–charge interlock and the power-good pins. -/
namespace Sys2Proof.Machine

/-- The control-pilot code of a measurement (R289). -/
def cpCode (c : CpLevel) : Nat :=
  let zero := fun (v : Int) => -1500 ≤ v && v < 1500
  if zero c.high && (zero c.low || !c.pwm) then 4
  else if c.pwm && (c.low < -13500 || c.low > -10500 || c.mhz < 980000 || c.mhz > 1020000) then 6
  else if 10500 ≤ c.high && c.high ≤ 13500 then 0
  else if 7500 ≤ c.high && c.high < 10500 then 1
  else if 4500 ≤ c.high && c.high < 7500 then 2
  else if 1500 ≤ c.high && c.high < 4500 then 3
  else if !c.pwm && -13500 ≤ c.high && c.high ≤ -10500 then 5
  else 6

/-- The proximity-pilot code of a resistance in milliohms (R291). -/
def ppCode (r : Nat) : Nat :=
  if r > 4000000 then 0
  else if 1200000 ≤ r && r ≤ 1800000 then 1
  else if 544000 ≤ r && r ≤ 816000 then 2
  else if 176000 ≤ r && r ≤ 264000 then 3
  else if 80000 ≤ r && r ≤ 120000 then 4
  else if r ≥ 50000 then 5
  else 6

/-- The pilot current in 0.1 A of a duty in 0.1 % (R290); `host` is ILIM_HOST in amperes. -/
def pilotAmps (d host : Nat) : Nat :=
  if d < 30 || d > 970 then 0
  else if d ≤ 70 then host * 10
  else if d < 80 then 0
  else if d < 100 then 60
  else if d ≤ 850 then d * 6 / 10
  else if d ≤ 960 then (d - 640) * 25 / 10
  else 800

/-- The rating of a cable in 0.1 A by its PP code (R291), none where no cable is classified. -/
def cableAmps (pp : Nat) : Option Nat :=
  match pp with
  | 1 => some 130 | 2 => some 200 | 3 => some 320 | 4 => some 630 | _ => none

/-- A lane's connector verdict (R292). -/
def State.verdict (s : State) (l : Lane) : Bool :=
  !s.flag l F.SAF_CFG_NO_CHG && (s.fld l F.CHG_STAT_CP != 0 || s.fld l F.CHG_STAT_PP != 0)

/-- A connector is detected while either lane's verdict says so (R292). -/
def State.connector (s : State) : Bool := s.flag .A F.CHG_STAT_CONN || s.flag .B F.CHG_STAT_CONN

/-- The interlock hold (R369): applied while a running lane signals a connector. -/
def State.interlock (s : State) : State :=
  let on := (s.heard .A && (s.lane .A).saf.connector) || (s.heard .B && (s.lane .B).saf.connector)
  if !s.mon.alive || !on || s.mon.holdIl then s else
  let s := s.modMon (fun m => { m with holdIl := true })
  let s := (s.holdSet .A).holdSet .B
  (((s.placeSet .A).placeSet .B).monEv E.MON_INTERLOCK).publish

/-- A lane's verdict renewed (R292, R300, R369): a change raises CHG.CONNECT, and a connector takes every set that is not OFF to
SAFE with cause 4. -/
def State.connUpdate (s : State) (l : Lane) : State :=
  let v := s.verdict l
  if s.flag l F.CHG_STAT_CONN == v then s else
  let s := (s.putFlag l F.CHG_STAT_CONN v).pulseEv l E.CHG_CONNECT
  let s := s.modSaf l (fun x => { x with connector := v })
  let s := if v then (s.setFault .A 4).setFault .B 4 else s
  s.interlock

/-- CHG.PILOT follows the decodes (R309). -/
def State.pilotEv (s : State) (l : Lane) : State :=
  s.levelEv l E.CHG_PILOT (s.fld l F.CHG_STAT_CP ≥ 4 || s.fld l F.CHG_STAT_PP ≥ 5)

/-- The lane runs a vehicle-to-load session or is set to (R299). -/
def State.v2l (s : State) (l : Lane) : Bool := s.fld l F.CHG_CTRL_MODE == 3

/-- A change of the session that the owner alone makes. -/
def State.asHolder (s : State) (l : Lane) (f : State → State) : State := if s.holdsAny l then f s else s

/-- CP_STATE_CHANGE (R289, R292, R294, R299). -/
def execCpStateChange (l : Lane) (c : CpLevel) (s : State) : Out :=
  if s.inReset l || s.flag l F.SAF_CFG_NO_CHG then done s else
  let old := s.fld l F.CHG_STAT_CP
  let new := cpCode c
  let s := s.put l F.CHG_STAT_CP new
  let s := if c.pwm then s else
    ((s.modChg l (fun x => { x with duty := [] })).put l F.CHG_STAT_DUTY 0).put l F.CHG_ILIM_IPILOT 0
  let s := (s.pilotEv l).connUpdate l
  done (s.asHolder l (fun s =>
    let form := s.fld l F.CHG_STAT_STATE == 10
    if form && new != 0 then (s.pulseEv l E.CHG_V2L).chgFault l 14
    else if new ≥ 4 then s.chgFault l 2
    else if (old == 2 || old == 3) && new < 2 then s.chgRampdown l 2
    else if new == 3 && !Config.permitsD then s.chgRampdown l 2
    else if !c.pwm && !s.v2l l then s.chgRampdown l 3
    else s))

/-- CP_PWM_PERIOD: a pilot period's duty in 0.1 % joins the average over the last 8 periods (R290). A pilot current of 0 A ends
a session (R294). -/
def execCpPwmPeriod (l : Lane) (duty : Nat) (s : State) : Out :=
  if s.inReset l || s.flag l F.SAF_CFG_NO_CHG then done s else
  let ds := (duty :: (s.lane l).chg.duty).take 8
  let d := ds.foldl (· + ·) 0 / ds.length
  let s := s.modChg l (fun x => { x with duty := ds })
  let amps := pilotAmps d (s.fld l F.CHG_PLIM_ILIM_HOST)
  let s := ((s.put l F.CHG_STAT_DUTY d).putFlag l F.CHG_STAT_DIGITAL (30 ≤ d && d ≤ 70)).put l F.CHG_ILIM_IPILOT amps
  done (s.asHolder l (fun s => if amps == 0 && !s.v2l l then s.chgRampdown l 3 else s))

/-- PP_CLASSIFY: a stable resistance in milliohms is classified (R291); a changed code ends a session (R294). -/
def execPpClassify (l : Lane) (r : Nat) (s : State) : Out :=
  if s.inReset l || s.flag l F.SAF_CFG_NO_CHG then done s else
  let old := s.fld l F.CHG_STAT_PP
  let s := s.put l F.CHG_STAT_PP (ppCode r)
  let s := (s.pilotEv l).connUpdate l
  done (s.asHolder l (fun s => if old != ppCode r then s.chgRampdown l 4 else s))

/-- INTERLOCK_RELEASE: both lanes have signalled no connector for 100 ms (R369). -/
def execInterlockRelease (s : State) : Out :=
  if !s.mon.alive || !s.mon.holdIl || (s.lane .A).saf.connector || (s.lane .B).saf.connector then done s else
  let s := s.modMon (fun m => { m with holdIl := false })
  done ((s.placeSet .A).placeSet .B).publish

/-- INTERLOCK_DISAGREE: the verdicts have differed for more than 100 ms (R369). -/
def execInterlockDisagree (s : State) : Out :=
  if (s.lane .A).saf.connector == (s.lane .B).saf.connector then done s else
  done (s.both (fun l s => s.pulseEv l E.SAF_INTERLOCK))

/-- Both traction state machines are OFF (R293, R300). -/
def State.bothOff (s : State) : Bool := s.sm .A == 0 && s.sm .B == 0

/-- READY's conditions (R293). -/
def State.chgCanReady (s : State) (l : Lane) : Bool :=
  let m := s.fld l F.CHG_CTRL_MODE
  s.flag l F.CHG_CTRL_EN && (m == 1 || (m == 2 && s.flag l F.CHG_GRID2_V2G_EN)) && s.fld l F.CHG_STAT_CP == 1 &&
  s.fld l F.CHG_ILIM_IPILOT ≥ 60 && s.fld l F.DCL_STAT_STATE == 2 && !s.flag l F.DCL_CTRL_REG && s.bothOff

/-- The charger enters READY: S2 is closed (R293). -/
def State.chgReady (s : State) (l : Lane) : State :=
  (s.put l F.CHG_STAT_STATE 2).driveS2 l true |>.modChg l (fun x => { x with tripped := false })

/-- The charger enters PRELOAD: the DAB drives power to the bus, whose reference starts at its present value (R293). -/
def State.chgPreload (s : State) (l : Lane) : State :=
  let s := (s.put l F.CHG_STAT_STATE 3).put l F.DAB_STAT_STATE 1
  (s.modChg l (fun x => { x with busRef := s.sense l 3 })).loopAsk l 5

/-- MAINS_PRESENT: the mains has been present for 100 ms in READY (R293). -/
def execMainsPresent (l : Lane) (s : State) : Out :=
  done (if s.inReset l || !s.holdsAny l || s.fld l F.CHG_STAT_STATE != 2 then s else s.chgPreload l)

/-- PRELOAD_DONE: the bus has been at its target for 5 ms; K4 is requested, in single-phase mode after the K5 changeover
(R293, R296). -/
def execPreloadDone (l : Lane) (s : State) : Out :=
  if s.inReset l || !s.holdsAny l || s.fld l F.CHG_STAT_STATE != 3 then done s else
  let s := s.put l F.CHG_STAT_STATE 4
  let s := if s.fld l F.AFE_CFG_PHASES == 1 then s.askK l 5 true else s
  done (s.askK l 4 true)

/-- The battery current measured, positive into the battery: the active phases of both lanes carry it (R262, R287). -/
def State.ibatMeas (s : State) : Word :=
  let f := fun (l : Lane) (a : Word) => (s.activePhases l).foldl (fun a m => fSub a (s.phys l (3 + (m - 1) % 2))) a
  f .B (f .A 0)

/-- The integrator of the DAB, that of the first PI of loop 5, preset to the present phase shift (R287). -/
def State.dabPreset (s : State) (l : Lane) : State :=
  let m := (s.lane l).mem
  match (kernelsOf m).find? (fun e => e.1.ktype == 0x01 && e.1.loop == 5) with
  | some (e, _) => s.modLane l (fun x => { x with mem := Machine.mput x.mem (b10State e.sbase) (mw m (b10Wire 0x08D)) })
  | none => s

/-- The cascade of R287 begins: REG reads 1 in both lanes, and I_bat* starts from the measured battery current. -/
def State.chgCascade (s : State) (l : Lane) : State :=
  let i := s.ibatMeas
  let s := s.dabPreset l
  ((s.modChg l (fun x => { x with ibat := i, formRef := 0 })).bump l F.CHG_CNT_SESS).setReg l true

/-- The charger enters SYNC, or FORM in V2L (R293): loop 4 closes; FORM starts the cascade by R287 at once. -/
def State.chgClosed (s : State) (l : Lane) : State :=
  let s := s.loopAsk l 4
  if s.v2l l then
    let s := ((s.put l F.CHG_STAT_STATE 10).put l F.AFE_STAT_STATE 5).put l F.DAB_STAT_STATE 3
    s.chgCascade l
  else ((s.put l F.CHG_STAT_STATE 5).put l F.AFE_STAT_STATE 1).put l F.DAB_STAT_STATE 2

/-- OPEN is left with the contactors open (R293): for CONNECTED, or for IDLE with no connector. It stays while S2 is closed and
a restart after a trip is awaited (R297). -/
def State.chgLeave (s : State) (l : Lane) : State :=
  if (s.lane l).chg.tripped && s.flag l F.CHG_STAT_S2 && s.flag l F.CHG_CTRL_EN && s.fld l F.CHG_STAT_CP == 2 then s
  else s.put l F.CHG_STAT_STATE (if s.connector then 1 else 0)

/-- The read-back of a contactor as both lanes see it. -/
def State.setKfb (s : State) (n : Fin 6) (closed : Bool) : State :=
  let s := s.modAon (fun a => { a with kfb := if closed then a.kfb ||| kBit n.val else a.kfb &&& ~~~(kBit n.val) })
  (s.both (fun l s => if s.inReset l then s else
    (s.putFlag l F.CHG_STAT_K3FB (s.aon.kfb.getLsbD 3)).putFlag l F.CHG_STAT_K4FB (s.aon.kfb.getLsbD 4))).showK

/-- The sequence of a lane goes on with the read-backs (R293): K3 follows K4 in CLOSE; K4 follows K3 in OPEN. -/
def State.chgKfb (s : State) (l : Lane) : State :=
  let k3 := s.aon.kfb.getLsbD 3
  let k4 := s.aon.kfb.getLsbD 4
  match s.fld l F.CHG_STAT_STATE with
  | 4 => if k4 && k3 then s.chgClosed l else if k4 then s.askK l 3 true else s
  | 8 => if k3 then s else if k4 then (s.askK l 4 false).askK l 5 false else s.chgLeave l
  | _ => s

/-- KFB_CONFIRM: a read-back shows its contactor closed or open, which advances the sequence (R293). -/
def execKfbConfirm (n : Fin 6) (closed : Bool) (s : State) : Out :=
  let s := s.setKfb n closed
  done (s.both (fun l s => if s.inReset l then s else s.asHolder l (fun s => s.chgKfb l)))

/-- AFE_LOCK: the AFE has held PLL lock for 100 ms with the bus near VBUS, so the charger enters RUN, and the cascade of R287
begins (R293). -/
def execAfeLock (l : Lane) (s : State) : Out :=
  if s.inReset l || !s.holdsAny l || s.fld l F.CHG_STAT_STATE != 5 then done s else
  let s := ((s.put l F.CHG_STAT_STATE 6).put l F.AFE_STAT_STATE 2).put l F.DAB_STAT_STATE 3
  done (s.chgCascade l)

/-- AFE_CURRENT_ZERO: every AFE phase current is below 2 A rms in RAMPDOWN: both stages off, K3 opened, and S2 opened for
causes 1 and 4 (R293, R294). -/
def execAfeCurrentZero (l : Lane) (s : State) : Out :=
  if s.inReset l || !s.holdsAny l || s.fld l F.CHG_STAT_STATE != 7 then done s else
  let s := s.put l F.CHG_STAT_STATE 8
  let s := ((s.put l F.AFE_STAT_STATE 0).put l F.DAB_STAT_STATE 0).gatesOff (afeChans ++ dabChans)
  let s := (s.loopOpen l 4).loopOpen l 5
  let s := (s.setReg l false).modChg l (fun x => { x with ibat := 0, downRate := none })
  let c := s.fld l F.CHG_CAUSE_STOP
  let s := if c == 1 || c == 4 then s.driveS2 l false else s
  done ((s.askK l 3 false).chgKfb l)

/-- K_FEEDBACK: KFB3 or KFB4 has differed from its command for 50 ms (R294): CHG.K_FEEDBACK, counted, and a session ends in FAULT
with cause 5. -/
def execKFeedback (k4 closed : Bool) (s : State) : Out :=
  let n : Fin 6 := if k4 then 4 else 3
  let s := s.setKfb n closed
  if s.aon.k.getLsbD n.val == closed then done s else
  done (s.both (fun l s => if s.inReset l then s else s.asHolder l (fun s =>
    ((s.bump l F.CHG_CNT_KFB).pulseEv l E.CHG_K_FEEDBACK).chgFault l 5)))

/-- A trip (R297, R298): RAMPDOWN with its cause, and the code kept. -/
def State.chgTrip (s : State) (l : Lane) (cause code : Nat) (e : Ev) : State :=
  let s := (s.put l F.CHG_CAUSE_TRIP code).bump l F.AFE_CNT_TRIP
  (s.pulseEv l e).chgRampdown l cause

/-- The trip code of a disturbance (R297). -/
def tripCode : GridTrip → Nat
  | .deepDip => 1 | .longDip => 2 | .overvoltage => 3 | .frequency => 4 | .phaseLost => 7 | .unlock => 8 | .busLow => 9

/-- GRID_DIP: the retained voltage, in 0.1 %, has fallen below 85 % (R297): the charger goes on, ceases, or trips. -/
def execGridDip (l : Lane) (retained : Nat) (s : State) : Out :=
  let st := s.fld l F.CHG_STAT_STATE
  if s.inReset l || !s.holdsAny l || !(st == 5 || st == 6 || st == 7) || retained ≥ 850 then done s else
  if retained ≥ 500 then done ((s.bump l F.AFE_CNT_DIP).pulseEv l E.CHG_GRID_DIP)
  else if retained ≥ 150 then
    let s := (s.put l F.AFE_STAT_STATE 3).gatesOff afeChans
    let s := s.modChg l (fun x => { x with ibat := 0 })
    done ((s.bump l F.AFE_CNT_CEASE).pulseEv l E.CHG_GRID_DIP)
  else done (if st == 7 then s else s.chgTrip l 6 1 E.CHG_GRID_TRIP)

/-- GRID_TRIP: a disturbance outlasts its allowance (R297). Loss of lock and a low bus trip in RUN alone. -/
def execGridTrip (l : Lane) (t : GridTrip) (s : State) : Out :=
  let st := s.fld l F.CHG_STAT_STATE
  let inRun := t == .unlock || t == .busLow
  if s.inReset l || !s.holdsAny l || !(if inRun then st == 6 else 3 ≤ st && st ≤ 6) || s.v2l l then done s else
  done (s.chgTrip l 6 (tripCode t) E.CHG_GRID_TRIP)

/-- GRID_RESTART: the mains has been present for RESTART_T after a trip (R297). -/
def execGridRestart (l : Lane) (s : State) : Out :=
  let open_ := !s.aon.kfb.getLsbD 3 && !s.aon.kfb.getLsbD 4
  if s.inReset l || !s.holdsAny l || s.fld l F.CHG_STAT_STATE != 8 || !open_ || !(s.lane l).chg.tripped ||
     s.fld l F.CHG_STAT_CP != 2 || !s.flag l F.CHG_CTRL_EN || !s.flag l F.CHG_STAT_S2 then done s
  else done (s.chgReady l)

/-- ISLAND: during export, a sustained rate of change of frequency, or a phase jump (R298). -/
def execIsland (l : Lane) (jump : Bool) (s : State) : Out :=
  if s.inReset l || !s.holdsAny l || s.fld l F.CHG_STAT_STATE != 6 || s.fld l F.CHG_CTRL_MODE != 2 ||
     !fLt (s.lane l).chg.ibat 0 then done s
  else done (s.chgTrip l 7 (if jump then 6 else 5) E.CHG_ISLAND)

/-- V2L: a fold-back or an overload has outlasted its time (R299). -/
def execV2l (l : Lane) (s : State) : Out :=
  if s.inReset l || !s.holdsAny l || s.fld l F.CHG_STAT_STATE != 10 then done s else
  done ((s.pulseEv l E.CHG_V2L).chgFault l 14)

/-- S2_HOLD_TIMEOUT: 50 ms after a token move, S2 opens where the new owner has not renewed the request (R292). -/
def execS2HoldTimeout (s : State) : Out :=
  done (if s.flag s.token F.CHG_STAT_S2 then s else s.modAon (fun a => { a with cpS2 := false }))

/-- The cause of a FAULT is gone (R293, R294). -/
def State.chgCauseGone (s : State) (l : Lane) : Bool :=
  match s.fld l F.CHG_CAUSE_STOP with
  | 2 => s.fld l F.CHG_STAT_CP < 4
  | 5 => s.aon.kfb.getLsbD 3 == s.aon.k.getLsbD 3 && s.aon.kfb.getLsbD 4 == s.aon.k.getLsbD 4
  | 9 => (afeChans ++ dabChans).all (fun c => !s.hv[c].scLatch) &&
         (List.range 7).all (fun g => s.legBits (g + 10) / 2 ^ l.idx % 2 == 0)
  | 10 => [5, 6, 7, 8].all (fun n => !s.inputFaulted l n)
  | 11 => l == .A || s.linkUp l
  | 12 => s.bothOff
  | 13 => s.fld l F.DCL_STAT_STATE == 2
  | 15 => !s.mon.sto && !s.mon.ss1
  | _ => true

/-- CHG_CLR.FAULT: FAULT is left once its cause is gone, for CONNECTED or IDLE (R293). -/
def State.chgClrFault (s : State) (l : Lane) : State :=
  if s.fld l F.CHG_STAT_STATE == 9 && s.chgCauseGone l then s.put l F.CHG_STAT_STATE (if s.connector then 1 else 0) else s

/-- CHG_CLR.CNT, AFE_CLR.CNT and DAB_CLR.CNT (R306 to R308). -/
def State.clrChgCnt (s : State) (l : Lane) : State :=
  (s.putWord l F.CHG_CNT_KFB.addr 0).putWord l F.CHG_CAUSE_STOP.addr 0
def State.clrAfeCnt (s : State) (l : Lane) : State := s.putWord l F.AFE_CNT_IPK.addr 0
def State.clrDabCnt (s : State) (l : Lane) : State := s.putWord l F.DAB_CNT_IPK.addr 0

/-- The wire `i` of the first kernel of a code, none where the table holds none. -/
def State.kernelOut (s : State) (l : Lane) (code i : Nat) : Option Word :=
  (firstOf (s.lane l).mem code).map (fun e => mw (s.lane l).mem (b10Wire (e.1.obase + i)))

/-- What the AFE and DAB pages show (R297, R306, R307): the mains measured, the PLL's frequency and lock, the flag of the law's current limiter (R296),
and the phase shift. -/
def State.chgShow (s : State) (l : Lane) (g : GridMeas) : State :=
  let s := ((s.put l F.AFE_GRID1_V1 g.v1.toNat).put l F.AFE_GRID1_V2 g.v2.toNat).put l F.AFE_GRID2_V3 g.v3.toNat
  let s := (s.put l F.AFE_GRID2_THD g.thd.toNat).putFlag l F.AFE_STAT_HARM (g.thd.toNat > 120)
  let s := s.modChg l (fun x => { x with vll := g.vll.toNat })
  let s := match s.kernelOut l 0x14 1, s.kernelOut l 0x14 4 with
    | some f, some k => (s.put l F.AFE_STAT_FREQ (fToNat 16 (fMul f (fInt 100)))).putFlag l F.AFE_STAT_LOCK (fLt (fFrac 1 2) k)
    | _, _ => s
  let lim := (kernelsOf (s.lane l).mem).find? (fun e => e.1.ktype == 0x06 && e.1.loop == 4)
  let s := match lim with
    | some e => s.putFlag l F.AFE_STAT_ILIM (fLt (fFrac 1 2) (mw (s.lane l).mem (b10Wire (e.1.obase + 2))))
    | none => s
  let w := mw (s.lane l).mem (b10Wire 0x08D)
  let s := (s.put l F.DAB_STAT_PHASE (fToSigned 16 (fMul w (fInt 32768)))).putFlag l F.DAB_STAT_DIR (fLt w 0)
  let sat := match s.kernelOut l 0x16 0 with
    | some k => fLt (fFrac 1 2) k
    | none => false
  let s := if sat && !s.flag l F.DAB_STAT_SAT then s.bump l F.DAB_CNT_SAT else s
  let s := s.putFlag l F.DAB_STAT_SAT sat
  let s := s.putWord l F.DAB_P_P.addr (Config.kernel 0x80 [w, s.sense l 3, s.phys l 8, (s.linkValue l).getD 0] 0)
  s.putWord l F.CHG_PBAT_PBAT.addr (Config.kernel 0x80 [(s.ubat l).getD 0, (s.lane l).chg.ibat, s.phys l 3, s.phys l 4] 1)

/-- IEFF in 0.1 A: the least of the pilot current, the cable rating, IMAX and in V2L IOUT (R288). The pilot and cable bound a
session that has them. -/
def State.ieff (s : State) (l : Lane) : Nat :=
  let a := s.fld l F.AFE_ILIM_IMAX * 10
  let a := if s.v2l l then min a (s.fld l F.CHG_V2L_IOUT * 10) else min a (s.fld l F.CHG_ILIM_IPILOT)
  match cableAmps (s.fld l F.CHG_STAT_PP) with
  | some c => min a c
  | none => a

/-- ΣV in 0.1 V over the phases in use (R288). -/
def State.sumV (s : State) (l : Lane) : Nat :=
  let v1 := s.fld l F.AFE_GRID1_V1
  if s.fld l F.AFE_CFG_PHASES == 1 then v1 else v1 + s.fld l F.AFE_GRID1_V2 + s.fld l F.AFE_GRID2_V3

/-- The battery-current limits of R288, for charge and for discharge, in amperes: P_g × ETA / UBAT and P_g / (ETA × UBAT). -/
def State.ibatLimits (s : State) (l : Lane) : Word × Word :=
  let pg := min (s.fld l F.CHG_PLIM_PMAX * 10 * 100) (s.ieff l * s.sumV l)
  let p := fFrac pg 100
  let eta := fFrac (s.fld l F.CHG_PLIM_ETA) 256
  let u := (s.ubat l).getD 0
  (fDiv (fMul p eta) u, fDiv p (fMul eta u))

/-- A value moved towards a target by at most a step. -/
def towards (x target step : Word) : Word :=
  if fLe (fAbs (fSub target x)) step then target
  else if fLt x target then fAdd x step else fSub x step

/-- I_bat* formed in a medium cycle of RUN or FORM (R288). The law of the PI on UBAT is not printed. -/
def State.ibatForm (s : State) (l : Lane) (t : Word) : State :=
  let lim := s.ibatLimits l
  let want := s.word l F.CHG_IBAT_IBAT.addr
  let c := fClamp want (fNeg lim.2) lim.1
  let s := s.putFlag l F.CHG_STAT_PLIM (fVal c != fVal want)
  let u := (s.ubat l).getD 0
  let pi := Config.kernel 0x81 [u, s.word l F.CHG_VBAT_VBAT.addr, s.word l F.CHG_VBMIN_VBMIN.addr, c, (s.lane l).chg.ibat] 0
  let ref := if fLt c 0 then fMin 0 (fMax c pi) else fMax 0 (fMin c pi)
  let step := fMul (fFrac (s.fld l F.CHG_CTRL_RAMP * 500) 1) t
  if s.fld l F.AFE_STAT_STATE == 3 then s.modChg l (fun x => { x with ibat := 0 })
  else s.modChg l (fun x => { x with ibat := towards x.ibat ref step })

/-- I_bat* in RAMPDOWN: to 0 at RAMP, and within 50 ms (R288); then the link is regulated again (R287). -/
def State.ibatDown (s : State) (l : Lane) (t : Word) : State :=
  let x := (s.lane l).chg
  let rate := match x.downRate with
    | some r => r
    | none => fMax (fFrac (s.fld l F.CHG_CTRL_RAMP * 500) 1) (fMul (fAbs x.ibat) (fInt 20))
  let y := towards x.ibat 0 (fMul rate t)
  let s := s.modChg l (fun x => { x with ibat := y, downRate := some rate })
  if fVal y == 0 then s.setReg l false else s

/-- The bus reference of PRELOAD (R293), 50 V/ms towards its target. -/
def State.busTarget (s : State) (l : Lane) : Word :=
  if s.v2l l || s.fld l F.AFE_CFG_PHASES == 1 || s.fld l F.CHG_STAT_STATE != 3 then fInt (s.fld l F.AFE_VBUS_VBUS)
  else fMul (fSqrt (fInt 2)) (fMul (fFrac 105 100) (fFrac (s.lane l).chg.vll 10))

/-- The charger's medium cycle in a lane (R288, R293, R297, R299, R300). -/
def State.chgMedium (s : State) (l : Lane) (g : GridMeas) : State :=
  let s := s.chgShow l g
  let s := s.put l F.CHG_ILIM_IEFF (s.ieff l)
  if !s.holdsAny l then s else
  let t := groupPeriod (s.lane l).mem (s.fastRate l) 2
  let st := s.fld l F.CHG_STAT_STATE
  if s.chgSession l && !s.bothOff then s.chgFault l 12
  else if st == 0 then (if s.connector then s.put l F.CHG_STAT_STATE 1 else s)
  else if st == 1 then
    if !s.connector then s.put l F.CHG_STAT_STATE 0
    else if s.chgCanReady l then s.chgReady l
    else if s.flag l F.CHG_CTRL_EN && s.v2l l && s.bothOff && s.fld l F.CHG_STAT_CP == 0 &&
        (cableAmps (s.fld l F.CHG_STAT_PP)).isSome then
      let high := g.v1.toNat ≥ 200 || g.v2.toNat ≥ 200 || g.v3.toNat ≥ 200
      let s := s.levelEv l E.CHG_V2L high
      if high then s else s.chgPreload l
    else s.levelEv l E.CHG_V2L false
  else if st == 9 then s
  else if !s.flag l F.CHG_CTRL_EN && st != 7 && st != 8 then s.chgRampdown l 1
  else if st == 2 && !s.connector then (s.put l F.CHG_STAT_STATE 0).driveS2 l false
  else if st == 3 || st == 5 then
    s.modChg l (fun x => { x with busRef := towards x.busRef (s.busTarget l) (fMul (fInt 50000) t) })
  else if st == 6 || st == 10 then
    let s := if s.fld l F.AFE_STAT_STATE == 3 && g.retained ≥ 850 then s.put l F.AFE_STAT_STATE 2 else s
    let s := if st == 10 then
        let v := fFrac (s.fld l F.CHG_V2L_VOUT) 10
        s.modChg l (fun x => { x with formRef := towards x.formRef v (fMul (fMul v (fInt 10)) t) })
      else s
    s.ibatForm l t
  else if st == 7 then s.ibatDown l t
  else if st == 8 && !s.aon.kfb.getLsbD 3 && !s.aon.kfb.getLsbD 4 then s.chgLeave l
  else s

/-- The heartbeat of the token holder (R303). -/
def State.hbToken (s : State) : Option Heartbeat := s.hbOf s.token

/-- The conditions of PG_AFE and PG_DAB (R303). -/
def State.pgAfeOk (s : State) : Bool :=
  let vbus := s.fld s.token F.AFE_VBUS_VBUS
  s.mon.alive && !s.aon.nPor && s.mflag F.MON_PG_CHG_AFE_EN && s.hbToken.any (fun h => h.afeState == 2 || h.afeState == 5) &&
  !fAbove (fSub (s.sense s.token 3) (fInt vbus)) (s.mfld F.MON_PG_CHG_AFE_WIN) 1
def State.pgDabOk (s : State) : Bool :=
  s.mon.alive && !s.aon.nPor && s.mflag F.MON_PG_CHG_DAB_EN && s.hbToken.any (fun h => h.dabState == 3) &&
  s.vrefSeen.any (s.uWithin (s.mfld F.MON_PG_CHG_DAB_WIN))

def State.setPgAfe (s : State) (on : Bool) : State :=
  if s.aon.pgAfe == on then s else
  ((s.modAon (fun a => { a with pgAfe := on })).mputFlag F.MON_PG_CHG_AFE_STATE on).monEv E.MON_PG_CHANGE
def State.setPgDab (s : State) (on : Bool) : State :=
  if s.aon.pgDab == on then s else
  ((s.modAon (fun a => { a with pgDab := on })).mputFlag F.MON_PG_CHG_DAB_STATE on).monEv E.MON_PG_CHANGE

/-- PG_CHG_RELEASE: the conditions of PG_AFE, or of PG_DAB, have held for PG_DLY (R303). -/
def execPgChgRelease (dab : Bool) (s : State) : Out :=
  done (if dab then (if s.pgDabOk then s.setPgDab true else s) else (if s.pgAfeOk then s.setPgAfe true else s))

/-- The pins whose conditions have failed go low (R281, R303); across a token move the charger's two keep their state. -/
def State.pgCheck (s : State) : State :=
  let s := if s.aon.pgDcl && !s.pgDclOk then s.setPgDcl false else s
  if s.mon.moveFrom.isSome then s else
  let s := if s.aon.pgAfe && !s.pgAfeOk then s.setPgAfe false else s
  if s.aon.pgDab && !s.pgDabOk then s.setPgDab false else s

end Sys2Proof.Machine
end

