-- ==== Sys2Proof/Machine/Actuator.lean ====
section
/-! DEFINITION. The gearbox actuators (chapter 13): commands, Hall steps and commutation, locked rotor, ends, moves, the
supply window, and the carriers' period starts (R28). -/
namespace Sys2Proof.Machine

/-- The lane drives an actuator's bridge: the LV island's latched token names it (R319). -/
def State.actOwner (s : State) (l : Lane) (a : Fin 2) : Bool := s.lvOwner (if a.val == 0 then 0 else 6) == l

/-- VLV lies within its window (R317). -/
def State.vlvOk (s : State) (l : Lane) : Bool :=
  let v := s.fld l F.ACT_VLV_VLV
  s.fld l F.ACT_VLV_VLV_LO * 100 ≤ v && v ≤ s.fld l F.ACT_VLV_VLV_HI * 100

/-- An actuator's position, signed. -/
def State.actPos (s : State) (l : Lane) (a : Fin 2) : Int := signed 32 (s.fld l (F.ACT_POS_POS a.val))
def State.setActPos (s : State) (l : Lane) (a : Fin 2) (v : Int) : State := s.put l (F.ACT_POS_POS a.val) (toBits 32 v)

/-- The duty that an actuator's drive commands (R310, R315, R316): the sink wire in MOVE, ± LEARN_DUTY / 256 in HOME and
LEARN. -/
def State.actDuty (s : State) (l : Lane) (a : Fin 2) : Word :=
  let d := fFrac (s.fld l (F.ACT_LEARN_LEARN_DUTY a.val)) 256
  match s.fld l (F.ACT_STAT_STATE a.val) with
  | 1 => mw (s.lane l).mem (b10Wire (0x08E + a.val))
  | 2 | 3 => fNeg d
  | 4 => d
  | _ => 0

/-- The bridge's legs at fault for the lane, as bits (R245). -/
def State.actLegs (s : State) (l : Lane) (a : Fin 2) : Bool :=
  (List.range 3).any (fun i => s.legBits (17 + 3 * a.val + i) / 2 ^ l.idx % 2 == 1)

/-- The cause of an actuator's FAULT is gone (R321). -/
def State.actCauseGone (s : State) (l : Lane) (a : Fin 2) : Bool :=
  match s.fld l (F.ACT_STAT_CAUSE a.val) with
  | 2 => s.fld l (F.ACT_STAT_SECTOR a.val) < 6
  | 4 => !(if a.val == 0 then s.lv.oc0 else s.lv.oc1)
  | 5 => !s.actLegs l a
  | 6 => s.vlvOk l
  | _ => true

/-- A command clears LOCKED, and a move DONE (R321). -/
def State.actBegin (s : State) (l : Lane) (a : Fin 2) (st : Nat) : State :=
  let s := (s.putFlag l (F.ACT_STAT_LOCKED a.val) false).putFlag l (F.ACT_STAT_DONE a.val) false
  let s := s.modAct l a (fun x => { x with applied := 0, limited := false })
  (s.put l (F.ACT_STAT_STATE a.val) st).loopAsk l (a.val + 6)

/-- A value of CMD in the owner (R315 to R317, R320, R321); none where it is rejected with STATE_ERR. -/
def State.actCmd (s : State) (l : Lane) (a : Fin 2) (c : Nat) : Option State :=
  let st := s.fld l (F.ACT_STAT_STATE a.val)
  let idle := st == 0 && s.vlvOk l && !s.enableRefused l
  match c with
  | 1 => if idle && s.flag l (F.ACT_STAT_REF a.val) then some (s.actBegin l a 1) else none
  | 2 => if idle && s.fld l (F.ACT_END_TRAVEL a.val) != 0 then some (s.actBegin l a 2) else none
  | 3 => if idle then some (s.actBegin l a 3) else none
  | 4 =>
    if !s.vlvOk l then none
    else
      let s := s.putFlag l (F.ACT_STAT_LOCKED a.val) false
      some (if s.actDriven l a then s.actBrake l a else s)
  | 5 => some ((s.putFlag l (F.ACT_STAT_LOCKED a.val) false).actIdle l a)
  | 6 =>
    if st != 6 then some s
    else if s.actCauseGone l a then
      some (((s.put l (F.ACT_STAT_STATE a.val) 0).put l (F.ACT_STAT_CAUSE a.val) 0).putFlag l (F.ACT_STAT_LOCKED a.val) false)
    else none
  | _ => some s

/-- ACTa_CLR.CNT, in the addressed lane (R321). -/
def State.clrActCnt (s : State) (l : Lane) (a : Fin 2) : State := s.putWord l (F.ACT_CNT_LOCK a.val).addr 0

/-- A Hall fault (R311): the bridge coasts, and HALL_N of them in a row are a fault of the actuator. SECTOR reads 0b110 or
0b111, which of them the spec leaves open. -/
def State.actHallFault (s : State) (l : Lane) (a : Fin 2) : State :=
  let (w, s) := s.fresh
  let s := (s.put l (F.ACT_STAT_SECTOR a.val) (6 + bits w 0 1)).bump l (F.ACT_CNT_HALL a.val)
  let s := s.modAct l a (fun x => { x with hallBad := x.hallBad + 1 })
  let s := if s.actOwner l a then s.bridgeOff a else s
  if (s.lane l).act[a].hallBad ≥ s.fld l (F.ACT_CFG_HALL_N a.val) && s.actOwner l a &&
     s.fld l (F.ACT_STAT_STATE a.val) != 6 then (s.actFault l a 2).pulseEv l E.ACT_HALL_FAULT
  else s

/-- ACT_HALL_STEP: an actuator's Hall inputs as a lane reads them change (R311, R312): a position step, the first sector, or a
Hall fault. -/
def execActHallStep (l : Lane) (a : Fin 2) (h : BitVec 3) (s : State) : Out :=
  if s.inReset l then done s else
  match hallSector (s.flag l (F.ACT_CFG_SEQ a.val)) h with
  | none => done (s.actHallFault l a)
  | some k =>
    let show_ := fun (s : State) => s.put l (F.ACT_STAT_SECTOR a.val) ((k + s.fld l (F.ACT_CFG_SECT_OFS a.val)) % 6)
    match (s.lane l).act[a].sector with
    | none => done (show_ (s.modAct l a (fun x => { x with sector := some k, hallBad := 0 })))
    | some j =>
      let s := s.modAct l a (fun x => { x with sector := some k })
      if k == j then done (show_ (s.modAct l a (fun x => { x with hallBad := 0 })))
      else if k == (j + 1) % 6 || j == (k + 1) % 6 then
        let up := k == (j + 1) % 6
        let s := s.setActPos l a (s.actPos l a + if up then 1 else -1)
        done (show_ (s.modAct l a (fun x => { x with
          hallBad := 0, stepUp := up, stepAt := some s.time, stepDt := x.stepAt.map (fun t => s.time - t) })))
      else done (s.actHallFault l a)

/-- An end is reached (R314): the position is corrected, and BRAKE follows; a target at that end is done. -/
def State.actEnd (s : State) (l : Lane) (a : Fin 2) (pos : Nat) : State :=
  let home := s.fld l (F.ACT_STAT_STATE a.val) == 2
  let s := s.setActPos l a pos
  let s := if home then s.putFlag l (F.ACT_STAT_REF a.val) true
           else if s.fld l (F.ACT_TGT_TARGET a.val) == pos then s.putFlag l (F.ACT_STAT_DONE a.val) true else s
  (s.actBrake l a).pulseEv l E.ACT_END_REACHED

/-- The end of LEARN_HI (R315). -/
def State.actLearned (s : State) (l : Lane) (a : Fin 2) : State :=
  let p := s.actPos l a
  if s.fld l (F.ACT_TRAVEL_TRAVEL_MIN a.val) ≤ p && p ≤ s.fld l (F.ACT_TRAVEL_TRAVEL_MAX a.val) then
    let s := (s.put l (F.ACT_END_TRAVEL a.val) p.toNat).putFlag l (F.ACT_STAT_REF a.val) true
    (s.actBrake l a).pulseEv l E.ACT_LEARN_DONE
  else ((s.putFlag l (F.ACT_STAT_REF a.val) false).actFault l a 7).pulseEv l E.ACT_LEARN_FAIL

/-- LOCKED_ROTOR: the locked-rotor timer has reached LR_T (R314). -/
def execLockedRotor (l : Lane) (a : Fin 2) (s : State) : Out :=
  if s.inReset l || !s.actOwner l a || !s.actDriven l a then done s else
  let st := s.fld l (F.ACT_STAT_STATE a.val)
  let d := s.actDuty l a
  let p := s.actPos l a
  let win : Int := s.fld l (F.ACT_MOVE_END_WIN a.val)
  let travel := s.fld l (F.ACT_END_TRAVEL a.val)
  let s := (s.putFlag l (F.ACT_STAT_LOCKED a.val) true).bump l (F.ACT_CNT_LOCK a.val)
  done (if st == 3 then (s.setActPos l a 0).put l (F.ACT_STAT_STATE a.val) 4
        else if st == 4 then s.actLearned l a
        else if fLt d 0 && p ≤ win then s.actEnd l a 0
        else if st == 1 && fLt 0 d && p ≥ travel - win then s.actEnd l a travel
        else (s.actFault l a 1).pulseEv l E.ACT_BLOCKED)

/-- HOLD_T_EXPIRY: BRAKE has lasted HOLD_T (R314). -/
def execHoldTExpiry (l : Lane) (a : Fin 2) (s : State) : Out :=
  done (if s.inReset l || !s.actOwner l a || s.fld l (F.ACT_STAT_STATE a.val) != 5 then s else s.actIdle l a)

/-- MOVE_DONE: the ramp is done and the position has stayed within POS_WIN for 5 ms (R316). -/
def execMoveDone (l : Lane) (a : Fin 2) (s : State) : Out :=
  let e := (s.actPos l a - s.fld l (F.ACT_TGT_TARGET a.val)).natAbs
  if s.inReset l || !s.actOwner l a || s.fld l (F.ACT_STAT_STATE a.val) != 1 || e > s.fld l (F.ACT_MOVE_POS_WIN a.val) then
    done s
  else done (((s.putFlag l (F.ACT_STAT_DONE a.val) true).actBrake l a).pulseEv l E.ACT_MOVE_DONE)

/-- MOVE_TIMEOUT: a move is not done within MOVE_T (R316). -/
def execMoveTimeout (l : Lane) (a : Fin 2) (s : State) : Out :=
  if s.inReset l || !s.actOwner l a || s.fld l (F.ACT_STAT_STATE a.val) != 1 then done s else
  done (((s.bump l (F.ACT_CNT_TMO a.val)).actFault l a 3).pulseEv l E.ACT_MOVE_TIMEOUT)

/-- What a lane does with VLV outside its window (R317). -/
def State.vlvLost (s : State) (l : Lane) : State :=
  (List.finRange 2).foldl (fun (s : State) (a : Fin 2) =>
    if !s.actOwner l a then s
    else if s.actDriven l a then s.actFault l a 6
    else s.bridgeOff a) s

/-- VLV_OUT_OF_WINDOW: the LV island's measurement of VLV, in 10 mV (R317). A value back inside the window ends the report. -/
def execVlvOutOfWindow (v : BitVec 16) (s : State) : Out :=
  done (s.both (fun l s => if s.inReset l then s else
    let s := s.put l F.ACT_VLV_VLV v.toNat
    let ok := s.vlvOk l
    let s := (s.putFlag l (F.ACT_STAT_VLV_OK 0) ok).putFlag l (F.ACT_STAT_VLV_OK 1) ok
    let s := s.levelEv l E.ACT_VLV (!ok)
    if ok then s else s.vlvLost l))

/-- The legs that a sector and the sign of the duty select: the PWM leg and the low-side leg, 0 to 2 for U, V, W (R311). -/
def commLegs (k : Nat) (pos : Bool) : Nat × Nat :=
  let p := match k with
    | 0 => (0, 1) | 1 => (0, 2) | 2 => (1, 2) | 3 => (1, 0) | 4 => (2, 0) | _ => (2, 1)
  if pos then p else (p.2, p.1)

/-- Leg `j`'s high and low side in an actuator's bridge. -/
def actHigh (a : Fin 2) (j : Nat) : Fin 12 := ⟨(6 * a.val + 2 * j) % 12, by omega⟩
def actLow (a : Fin 2) (j : Nat) : Fin 12 := ⟨(6 * a.val + 2 * j + 1) % 12, by omega⟩

/-- The force limit at a period start (R313): the shunt's code is scaled, and the applied duty falls or recovers by 1/64. -/
def State.forceLimit (s : State) (l : Lane) (a : Fin 2) (code : BitVec 10) : State :=
  let i := fMul (fInt code.toNat) (s.word l (F.ACT_SHUNT_GAIN a.val).addr)
  let s := s.putWord l (F.ACT_I_I a.val).addr i
  let st := s.fld l (F.ACT_STAT_STATE a.val)
  let lim := if st == 1 then s.fld l (F.ACT_CFG_ILIM a.val) else s.fld l (F.ACT_LEARN_LEARN_I a.val)
  let cmd := fMin (fAbs (s.actDuty l a)) fOne
  let x := (s.lane l).act[a]
  let ovr := fLt (fFrac lim 10) i
  let m := if ovr then fMax 0 (fSub x.applied (fFrac 1 64))
           else if x.limited then fMin cmd (fAdd x.applied (fFrac 1 64)) else cmd
  let m := fMin m cmd
  let low := fLt m cmd
  let s := s.modAct l a (fun x => { x with applied := m, limited := low })
  let was := s.flag l (F.ACT_STAT_FLIM a.val)
  let s := s.putFlag l (F.ACT_STAT_FLIM a.val) low
  if low && !was then s.pulseEv l E.ACT_FLIM else s

/-- The bootstrap rules at a period start of the PWM leg's high side (R253): the clip at 98 %, the refresh above 96 % in every
eighth period, and the refresh that a BOOT_UV forces. -/
def State.bootPeriod (s : State) (n : Fin 12) (m : Word) : State :=
  let c := s.lv.ch[n]
  let clip := fLt (fFrac 98 100) m
  let s := if clip && !c.clipped then s.pulseEv .A (E.GDL_DUTY_CLIP n.val) else s
  let s := if clip then s.mbump (F.GDL_CNT_CLIP n.val) else s
  let near := fLt (fFrac 96 100) (fMin m (fFrac 98 100))
  let eighth := if near then (c.eighth + 1) % 8 else 0
  let forced := c.refresh || (near && eighth == 0)
  let s := s.modLvCh n (fun c => { c with
    clipped := clip, eighth := eighth, refresh := false, bootRun := if c.uvNow then c.bootRun else 0, uvNow := false })
  s.mputFlag (F.GDL_STAT_REFRESH n.val) forced

/-- The low side of a leg of an actuator's bridge on (R318). -/
def State.lowOn (s : State) (a : Fin 2) (j : Nat) : State :=
  let s := s.modLvCh (actLow a j) (fun c => { c with outOn := true })
  s.modLvCh (actHigh a j) (fun c => { c with lowAt := some s.time })

/-- The drive of an actuator's period (R311, R318): the low-side leg's low side on, the third leg off, and the PWM leg's high
side after its precharge. -/
def State.actPeriod (s : State) (l : Lane) (a : Fin 2) : State :=
  let k := s.fld l (F.ACT_STAT_SECTOR a.val)
  if !s.actOwner l a || !s.actDriven l a || k ≥ 6 || !s.lv.usable || s.lv.lost then s else
  let legs := commLegs k (fLt 0 (s.actDuty l a))
  let hi := actHigh a legs.1
  let s := s.bootPeriod hi (s.lane l).act[a].applied
  let fresh := match s.lv.ch[hi].lowAt with
    | some t => decide (s.time < t + ms 10)
    | none => false
  let x := (s.lane l).act[a]
  let charging := match x.preUntil with
    | some t => decide (s.time < t)
    | none => !fresh
  let s := s.bridgeOff a
  if charging then
    let s := s.modAct l a (fun x => { x with preUntil := match x.preUntil with
      | some t => some t
      | none => some (s.time + us (10 * s.mfld (F.GDL_BOOT_PRECHG hi.val))) })
    s.lowOn a legs.1
  else
    let s := s.modAct l a (fun x => { x with preUntil := none })
    let s := s.modLvCh hi (fun c => { c with lowAt := some s.time })
    s.lowOn a legs.2

/-- The newest value of a sink wire loaded by its modulator (R28). -/
def State.loadSink (s : State) (l : Lane) (i : Fin 16) : State :=
  s.modEng l (fun e => { e with loaded := e.loaded.set i (e.duty.getD i.val 0) })

/-- CARRIER_PERIOD_START: a carrier reaches its period boundary and loads the newest duty (R28). A period that ended without an
IPK cut-off ends the run of those that did, and the cut-off itself ends (R271, R286). -/
def execCarrierPeriodStart (l : Lane) (c : Carrier) (s : State) : Out :=
  if s.inReset l then done s else
  match c with
  | .phase k =>
    let s := s.loadSink l ⟨8 + k.val, by omega⟩
    let s := s.modSmp l (fun x => { x with
      ipk := if x.ipkNow[k] then x.ipk else x.ipk.set k 0, ipkNow := x.ipkNow.set k false })
    done (s.showPhases l)
  | .leg k =>
    let s := s.loadSink l ⟨10 + k.val, by omega⟩
    let i : Fin 4 := ⟨k.val, by omega⟩
    done (s.modSmp l (fun x => { x with
      ipkC := if x.ipkCNow[i] then x.ipkC else x.ipkC.set i 0, ipkCNow := x.ipkCNow.set i false }))
  | .dab =>
    let s := s.loadSink l 13
    done (s.modSmp l (fun x => { x with
      ipkC := if x.ipkCNow[3] then x.ipkC else x.ipkC.set 3 0, ipkCNow := x.ipkCNow.set 3 false }))
  | .bridge a code =>
    let s := s.loadSink l ⟨14 + a.val, by omega⟩
    let s := if s.actDriven l a then s.forceLimit l a code
             else s.putWord l (F.ACT_I_I a.val).addr (fMul (fInt code.toNat) (s.word l (F.ACT_SHUNT_GAIN a.val).addr))
    done (s.actPeriod l a)

/-- The ACT input wires of a lane at a fast-cycle start (R310). The speed's law is not printed. -/
def State.actWires (s : State) (l : Lane) : State :=
  (List.finRange 2).foldl (fun (s : State) (a : Fin 2) =>
    let x := (s.lane l).act[a]
    let num := fun (o : Option Nat) => BitVec.ofNat 32 (o.getD 0)
    let v := Config.kernel 0x82 [num x.stepAt, num x.stepDt, BitVec.ofNat 32 x.stepUp.toNat, BitVec.ofNat 32 s.time] 0
    let ws := [(0, fInt (s.actPos l a)), (1, v), (2, s.word l (F.ACT_I_I a.val).addr),
      (3, fBool (s.flag l (F.ACT_STAT_REF a.val)))]
    s.modLane l (fun y => { y with
      mem := ws.foldl (fun m w => Machine.mput m (b10Wire (Config.actWire a.val w.1)) w.2) y.mem })) s

end Sys2Proof.Machine
end

