-- ==== Sys2Proof/Machine/Mem.lean ====
section
/-! DEFINITION. The memory banks of a lane (chapter 18): power states, scrubbing and ECC, and the capture windows' states. -/
namespace Sys2Proof.Machine

/-- The words of each bank (R442). -/
def bankWords (b : Nat) : Nat :=
  if b < 8 then 16384 else if b < 10 then 4096 else if b == 10 then 16384
  else if b < 14 then 32768 else if b == 14 then 65536 else 8192

/-- The bank behind a window of the page map (R85, R442). -/
def bankOf (addr : Nat) : Option Nat :=
  if 0x400000 ≤ addr && addr < 0x410000 then some 10
  else if 0x410000 ≤ addr && addr < 0x418000 then some 15
  else if 0x800000 ≤ addr && addr < 0x820000 then some 11
  else if 0xC00000 ≤ addr && addr < 0xC40000 then some 14
  else none

/-- A bank is on (R447). -/
def State.bankOn (s : State) (l : Lane) (b : Nat) : Bool := s.fld l (F.MEM_PWR_STATE b) == 0

/-- A capture window is ARMED or TRIGGERED (R450). -/
def State.capActive (s : State) (l : Lane) (w : Nat) : Bool :=
  let st := s.fld l (F.MEM_CAP_STAT_STATE w)
  st == 1 || st == 2

/-- The first KiB of a window's area and the KiB after its last (R454). -/
def State.capArea (s : State) (l : Lane) (w : Nat) : Nat × Nat :=
  let b := s.fld l (F.MEM_CAP_AREA_BASE_K w)
  (b, b + s.fld l (F.MEM_CAP_AREA_SIZE_K w))

/-- A window's area lies in part in a capture bank: B12 below 128 KiB, B13 from there (R442). -/
def State.capIn (s : State) (l : Lane) (w b : Nat) : Bool :=
  let a := s.capArea l w
  if b == 12 then decide (a.1 < 128) else decide (a.2 > 128)

/-- The descriptors a lane owns: all of them, or those with a command (R415). -/
def State.owns (s : State) (l : Lane) (cmd : Option Nat) : Bool :=
  (List.range 64).any (fun n => s.flag l (F.BULK_DESC0_OWN n) &&
    (match cmd with | some c => s.fld l (F.BULK_DESC0_CMD n) == c | none => true))

/-- Why a bank must stay on: the cause by R448. -/
def State.keepOn (s : State) (l : Lane) (b : Nat) : Option Nat :=
  if b == 10 || b == 11 || b == 15 then (if s.flag l F.CE_STAT_RUNNING then some 1 else none)
  else if b == 8 || b == 9 then (if s.flag l F.CONJ_STAT_TRAINED then some 2 else none)
  else if b < 2 then some 3
  else if b == 12 || b == 13 then
    (if (List.range 8).any (fun w => s.capActive l w && s.capIn l w b) || s.owns l (some 1) then some 4 else none)
  else if b == 14 then (if s.owns l none then some 5 else none)
  else none

/-- What a bank loses when it is switched off (R447); it reads as zeros when it is on again. -/
def State.loseBank (s : State) (l : Lane) (b : Nat) : State :=
  if b == 8 then s.modRed l (fun r => { r with copy := none, copiesOk := 0 })
  else if b == 9 then (s.modRed l (fun r => { r with journal := [] })).put l F.RED_JRNL_FILL 0
  else if b == 12 || b == 13 then
    s.modLane l (fun x => { x with cap := Vector.ofFn (fun w : Fin 8 =>
      if s.capIn l w.val b then { x.cap[w] with recs := x.cap[w].recs.map (fun r => r.map (fun _ => 0)) } else x.cap[w]) })
  else
    let s := if b == 15 then s.modBoot l (fun x => { x with sine := false }) else s
    s.modLane l (fun x => { x with mem := x.mem.filter (fun c => bankOf c.1 != some b) })

/-- A MEM_PWR write (R447, R448): refused whole, or every bank begins its change. -/
def State.memPwr (s : State) (l : Lane) (w : Word) : Eff :=
  if (List.range 16).any (fun b => bits w (2 * b) 2 == 3) then .error (.status .rangeErr) else
  let leaves := fun (b : Nat) => s.bankOn l b && bits w (2 * b) 2 != 0
  match ((List.range 16).filter leaves).filterMap (fun b => (s.keepOn l b).map (fun c => (b, c))) with
  | (b, c) :: _ => .error (.pwrRefused b c)
  | [] =>
    .ok ((List.finRange 16).foldl (fun (s : State) (b : Fin 16) =>
      let new := bits w (2 * b.val) 2
      if s.fld l (F.MEM_PWR_STATE b.val) == new then s else
      let s := (s.put l (F.MEM_PWR_STATE b.val) new).putFlag l ⟨F.MEM_PWR_STAT_BUSY.addr, 16 + b.val, 1⟩ true
      let s := if new == 0 then s.modLane l (fun x => { x with scrub := x.scrub.set b (0, s.time) }) else s
      if new == 2 then s.loseBank l b.val else s) s)
def execMemPwr (l : Lane) (w : Word) (s : State) : Out :=
  done (s.writing l F.MEM_PWR_STAT_BUSY.addr (fun s => s.settleWrite l (s.memPwr l w)))

/-- MEM_PWR_DONE: a bank's change completes (R447). -/
def execMemPwrDone (l : Lane) (b : Fin 16) (s : State) : Out :=
  done (if s.inReset l then s else s.putFlag l ⟨F.MEM_PWR_STAT_BUSY.addr, 16 + b.val, 1⟩ false)

/-- An ECC error found in a word of a bank (R333, R445). -/
def State.eccError (s : State) (l : Lane) (b word : Nat) (double scrub : Bool) : State :=
  let s := ((s.put l F.MEM_ECC_LAST_BANK b).putFlag l F.MEM_ECC_LAST_DOUBLE double).putFlag l F.MEM_ECC_LAST_SCRUB scrub
  let s := s.put l F.MEM_ECC_LAST_WORD word
  if !double then (s.bump l F.MEM_ECC_CNT_CORR).pulseEv l E.MEM_ECC_CORR
  else
    let s := (s.bump l F.MEM_ECC_CNT_UNCORR).pulseEv l E.MEM_ECC_UNCORR
    if b < 8 then s.warmRestart l else s.selfFail l 6

/-- SCRUB: a bank's scrubber reads its next word, with what it finds: nothing, a single-bit error, or a double one. At the end of
the bank the pass is complete and the next begins (R446, R453). -/
def execScrub (l : Lane) (b : Fin 16) (e : Option Bool) (s : State) : Out :=
  if s.inReset l || !s.bankOn l b.val then done s else
  let (w, t0) := (s.lane l).scrub[b]
  let s := match e with
    | some d => s.eccError l b.val w d true
    | none => s
  if s.inReset l then done s else
  if w + 1 < bankWords b.val then done (s.modLane l (fun x => { x with scrub := x.scrub.set b (w + 1, t0) }))
  else
    let took := (Config.quot ((s.time - t0 : Nat) : Int) (ms 1 : Nat)).toNat
    let s := s.put l F.MEM_SCRUB_MAX_MS (max (s.fld l F.MEM_SCRUB_MAX_MS) (sat 8 took))
    done (s.modLane l (fun x => { x with scrub := x.scrub.set b (0, s.time) }))

/-- SCRUB_LATE: a bank that is on has not completed a pass 200 ms after the one before: a self-test failure (R446). -/
def execScrubLate (l : Lane) (b : Fin 16) (s : State) : Out :=
  if s.inReset l || !s.bankOn l b.val then done s else
  done ((s.pulseEv l E.MEM_SCRUB_LATE).selfFail l 7)

/-- MEM_CLR.SCRUB and MEM_CLR.ECC (R453). -/
def State.memClrScrub (s : State) (l : Lane) : State := s.put l F.MEM_SCRUB_MAX_MS 0
def State.memClrEcc (s : State) (l : Lane) : State := s.putWord l F.MEM_ECC_CNT_CORR.addr 0
def execMemClrScrub (l : Lane) (s : State) : Out := done (s.writing l 0x05054 (fun s => (s.memClrScrub l).reply l .ok))
def execMemClrEcc (l : Lane) (s : State) : Out := done (s.writing l 0x05054 (fun s => (s.memClrEcc l).reply l .ok))

/-- The record size in bytes, and the records an area holds (R449). -/
def State.capRec (s : State) (l : Lane) (w : Nat) : Nat :=
  4 * (s.fld l (F.MEM_CAP_CFG_NCH_M1 w) + 1) + 8 * s.fld l (F.MEM_CAP_CFG_TS w)
def State.capMax (s : State) (l : Lane) (w : Nat) : Nat := s.fld l (F.MEM_CAP_AREA_SIZE_K w) * 1024 / s.capRec l w

/-- A window is armed (R448, R450). -/
def State.capArm (s : State) (l : Lane) (w : Fin 8) : Eff :=
  let a := s.capArea l w.val
  let clash := (List.range 8).any (fun v =>
    let b := s.capArea l v
    s.capActive l v && a.1 < b.2 && b.1 < a.2)
  let off := (s.capIn l w.val 12 && !s.bankOn l 12) || (s.capIn l w.val 13 && !s.bankOn l 13)
  if clash || a.2 > 256 || off then .error (.status .stateErr) else
  let s := s.put l (F.MEM_CAP_STAT_STATE w.val) 1
  let s := (s.putFlag l (F.MEM_CAP_STAT_WRAPPED w.val) false).put l (F.MEM_CAP_STAT_COUNT w.val) 0
  .ok (s.modLane l (fun x => { x with cap := x.cap.set w {} }))
def execCapArm (l : Lane) (w : Fin 8) (s : State) : Out :=
  done (s.writing l 0x05058 (fun s => s.settleWrite l (s.capArm l w)))

/-- A window is triggered, with its event (R450). -/
def State.capTrig (s : State) (l : Lane) (w : Fin 8) : State :=
  if s.fld l (F.MEM_CAP_STAT_STATE w.val) == 1 then (s.capTrigger l w).pulseEv l E.MEM_CAP_TRIG else s
def execCapTrig (l : Lane) (w : Fin 8) (s : State) : Out :=
  done (s.writing l 0x05058 (fun s => (s.capTrig l w).reply l .ok))

/-- STOP: an ARMED or TRIGGERED window is DONE at once (R450). -/
def State.capStop (s : State) (l : Lane) (w : Fin 8) : State :=
  if s.capActive l w.val then s.put l (F.MEM_CAP_STAT_STATE w.val) 3 else s
def execCapStop (l : Lane) (w : Fin 8) (s : State) : Out :=
  done (s.writing l 0x05058 (fun s => (s.capStop l w).reply l .ok))

/-- The records after the trigger: POST, limited to one less than the area holds (R450). -/
def State.capPost (s : State) (l : Lane) (w : Nat) : Nat := min (s.fld l (F.MEM_CAP_CFG_POST w)) (s.capMax l w - 1)

/-- CAP_DONE: POST records after the trigger, the window is DONE (R450). -/
def execCapDone (l : Lane) (w : Fin 8) (s : State) : Out :=
  if s.inReset l || s.fld l (F.MEM_CAP_STAT_STATE w.val) != 2 || (s.lane l).cap[w].post < s.capPost l w.val then done s
  else done ((s.put l (F.MEM_CAP_STAT_STATE w.val) 3).pulseEv l E.MEM_CAP_DONE)

/-- A record placed in a window (R449): the oldest leaves a full area. -/
def State.capAdd (s : State) (l : Lane) (w : Fin 8) (r : List Word) : State :=
  let n := s.capMax l w.val
  let x := (s.lane l).cap[w]
  let recs := (if x.recs.length ≥ n then x.recs.tail else x.recs) ++ [r]
  let s := s.modLane l (fun y => { y with cap := y.cap.set w { x with
    recs := recs
    post := if s.fld l (F.MEM_CAP_STAT_STATE w.val) == 2 then x.post + 1 else x.post
    last0 := r.head? } })
  let s := s.put l (F.MEM_CAP_STAT_COUNT w.val) recs.length
  if recs.length ≥ n then s.putFlag l (F.MEM_CAP_STAT_WRAPPED w.val) true else s

end Sys2Proof.Machine
end

