-- ==== Sys2Proof/Machine/Bulk.lean ====
section
/-! DEFINITION. The bulk window (R415 to R417): descriptors, captures, the fault log and the image slots. -/
namespace Sys2Proof.Machine

/-- The size of a slot, the slots there are, and where slot n begins (R415). -/
def State.slotSize (s : State) (l : Lane) : Nat := 4096 * 2 ^ (s.fld l F.BULK_CFG_SLOT)
def State.slotCount (s : State) (l : Lane) : Nat := 64 / 2 ^ (s.fld l F.BULK_CFG_SLOT)
def State.slotAt (s : State) (l : Lane) (n : Nat) : Nat := 0xC00000 + n * s.slotSize l

/-- The descriptors a lane owns, in the order in which it processes them: ascending index after the last one (R415). -/
def State.ownedList (s : State) (l : Lane) : List (Fin 64) :=
  let own := (List.finRange 64).filter (fun n => s.flag l (F.BULK_DESC0_OWN n.val))
  match (s.lane l).bulkLast with
  | some k => own.filter (k < ·) ++ own.filter (· ≤ k)
  | none => own

/-- BULK_STAT.OWNED follows. -/
def State.showOwned (s : State) (l : Lane) : State := s.put l F.BULK_STAT_OWNED (s.ownedList l).length

/-- A descriptor passes back to the host. -/
def State.descBack (s : State) (l : Lane) (n : Fin 64) (st : Status) : State :=
  let s := (s.put l (F.BULK_DESC1_STATUS n.val) st.code).putFlag l (F.BULK_DESC0_OWN n.val) false
  let s := s.modLane l (fun x => { x with bulkLast := some n })
  s.showOwned l

/-- A descriptor is completed with a status and a delivered length (R415). -/
def State.descDone (s : State) (l : Lane) (n : Fin 64) (st : Status) (len : Nat) : State :=
  (((s.put l (F.BULK_DESC0_LEN n.val) len).descBack l n st).bump l F.BULK_STAT_DONE_CNT).pulseEv l E.BULK_DONE

/-- A descriptor is rejected (R417). -/
def State.descReject (s : State) (l : Lane) (n : Fin 64) (st : Status) : State :=
  ((s.descBack l n st).bump l F.BULK_STAT_REJ_CNT).pulseEv l E.BULK_REJECT

/-- The lane is in boot-hold (R62). -/
def State.bootHold (s : State) (l : Lane) : Bool := (s.lane l).boot.phase == .bootHold

/-- The whole check of a descriptor (R417), in the order of R489. -/
def State.descCheck (s : State) (l : Lane) (n : Fin 64) : Option Status :=
  let cmd := s.fld l (F.BULK_DESC0_CMD n.val)
  let len := s.fld l (F.BULK_DESC0_LEN n.val)
  let arg := s.fld l (F.BULK_DESC1_ARG n.val)
  let low := arg % 2 ^ 23
  if cmd == 0 then none
  else if s.fld l (F.BULK_DESC0_SLOT n.val) ≥ s.slotCount l then some .countErr
  else if len > s.slotSize l then some .lenErr
  else if cmd == 3 && low < 512 && low + (len + 4095) / 4096 > 512 then some .lenErr
  else if cmd > 4 then some .rangeErr
  else if cmd ≥ 3 && arg ≥ 2 ^ 23 && !s.bootHold l then some .rangeErr
  else if cmd == 1 && (arg % 4 != 0 || bits (BitVec.ofNat 32 arg) 18 3 != 0) then some .rangeErr
  else if cmd == 3 && (low ≥ 512 || len % 16 != 0) then some .rangeErr
  else if cmd == 4 && low != 0 then some .rangeErr
  else none

/-- The descriptor that is next, where it carries the given command and no image is being programmed: rejected, or processed. -/
def State.descNext (s : State) (l : Lane) (cmd : Nat) (f : Fin 64 → State → State) : State :=
  if s.inReset l || (s.lane l).boot.phase == .starting || s.flag l F.BULK_STAT_IMG_BUSY then s else
  match s.ownedList l with
  | n :: _ =>
    if s.fld l (F.BULK_DESC0_CMD n.val) != cmd then s else
    match s.descCheck l n with
    | some st => s.descReject l n st
    | none => f n s
  | [] => s

/-- BULK_NONE: CMD 0x0 is returned OK at once (R416). -/
def execBulkNone (l : Lane) (s : State) : Out := done (s.descNext l 0 (fun n s => s.descDone l n .ok (s.fld l (F.BULK_DESC0_LEN n.val))))

/-- The bytes of a window's records, oldest first (R451). -/
def State.capBytes (s : State) (l : Lane) (w : Fin 8) : List Byte := (s.lane l).cap[w].recs.flatMap (fun r => r.flatMap wordBytes)

/-- Bytes delivered into a descriptor's slot. -/
def State.toSlot (s : State) (l : Lane) (n : Fin 64) (bs : List Byte) : State :=
  let at_ := s.slotAt l (s.fld l (F.BULK_DESC0_SLOT n.val))
  (s.modLane l (fun x => { x with mem := memWriteBytes 0 x.mem at_ bs })).descDone l n .ok bs.length

/-- CAPTURE: a DONE window is copied into the slot from a byte offset (R451). -/
def execCapture (l : Lane) (s : State) : Out :=
  done (s.descNext l 1 (fun n s =>
    let arg := s.fld l (F.BULK_DESC1_ARG n.val)
    let w := Fin.ofNat 8 (arg / 2 ^ 21)
    let bs := if s.fld l (F.MEM_CAP_STAT_STATE w.val) == 3 then s.capBytes l w else []
    s.toSlot l n ((bs.drop (arg % 2 ^ 18)).take (s.fld l (F.BULK_DESC0_LEN n.val)))))

/-- An entry of the fault log as 32 bytes (R466). -/
def LogEntry.bytes (e : LogEntry) : List Byte :=
  let n := fun (k v : Nat) => natBytes k v
  let body := wordBytes e.num ++ n 8 e.ts.toNat ++
    n 1 (e.origin.toNat + e.tsSrc.toNat * 4 + e.forced.toNat * 8) ++ n 1 (e.source.toNat + e.mon.toNat * 128) ++
    [e.type] ++ n 1 e.inst.toNat ++ n 1 e.bit.toNat ++ n 1 e.react.toNat ++ [0, 0, e.trc, e.saf, e.red, 0] ++ wordBytes e.data
  body ++ wordBytes (crc32 body)

/-- FLOG: whole entries from the one whose number matches, or from the oldest kept (R466). -/
def execFlog (l : Lane) (s : State) : Out :=
  done (s.descNext l 2 (fun n s =>
    let kept := s.mon.log.reverse
    let arg := s.fld l (F.BULK_DESC1_ARG n.val)
    let from_ := kept.dropWhile (fun e => e.num.toNat % 2 ^ 24 != arg)
    let es := if from_.isEmpty then kept else from_
    s.toSlot l n ((es.take (s.fld l (F.BULK_DESC0_LEN n.val) / 32)).flatMap LogEntry.bytes)))

/-- The image slot that image commands act on (R416): the one that is not running, or in boot-hold the one ARG[23] names. -/
def State.imgTarget (s : State) (l : Lane) (arg : Nat) : Fin 2 :=
  if s.bootHold l then (if arg ≥ 2 ^ 23 then 1 else 0) else if (s.lane l).boot.cur == 0 then 1 else 0

/-- A change of an image slot. -/
def State.modSlot (s : State) (l : Lane) (k : Fin 2) (f : ImgSlot → ImgSlot) : State :=
  s.modBoot l (fun b => { b with slot := b.slot.set k (f b.slot[k]) })

/-- IMG_WRITE: every block touched is erased and programmed; until a commit the slot fails its CRC-32 (R62, R416). -/
def execImgWrite (l : Lane) (s : State) : Out :=
  done (s.descNext l 3 (fun n s =>
    let arg := s.fld l (F.BULK_DESC1_ARG n.val)
    let len := s.fld l (F.BULK_DESC0_LEN n.val)
    let k := s.imgTarget l arg
    let at_ := k.val * 0x200000 + arg % 2 ^ 23 * 4096
    let blocks := (len + 4095) / 4096
    let data := memBytes 0 (s.lane l).mem (s.slotAt l (s.fld l (F.BULK_DESC0_SLOT n.val))) len
    let s := if len == 0 then s else s.modSlot l k (fun x => { x with broken := true, marked := false })
    let s := s.modLane l (fun x => { x with
      flash := memWriteBytes 0xFF (x.flash.filter (fun c => c.1 < at_ || at_ + blocks * 4096 ≤ c.1)) at_ data })
    s.putFlag l F.BULK_STAT_IMG_BUSY true))

/-- IMG_WRITE_DONE: the programming ends and the descriptor is returned (R416). -/
def execImgWriteDone (l : Lane) (s : State) : Out :=
  if s.inReset l || !s.flag l F.BULK_STAT_IMG_BUSY then done s else
  let s := s.putFlag l F.BULK_STAT_IMG_BUSY false
  match s.ownedList l with
  | n :: _ => done (s.descDone l n .ok (s.fld l (F.BULK_DESC0_LEN n.val)))
  | [] => done s

/-- IMG_COMMIT: the slot not running is checked by R62, with what the check finds: its content, and whether the signature verifies.
A good one boots at the next lane reset where its VERSION allows; a bad one gives STATE_ERR and BULK.IMAGE_FAIL (R416). -/
def execImgCommit (l : Lane) (r : ImageRead) (sigOk : Bool) (s : State) : Out :=
  done (s.descNext l 4 (fun n s =>
    let k := s.imgTarget l (s.fld l (F.BULK_DESC1_ARG n.val))
    if !r.crcOk || !sigOk || !r.flags.getLsbD l.idx then (s.descDone l n .stateErr 0).pulseEv l E.BULK_IMAGE_FAIL
    else
      let run := (s.lane l).boot.slot[(s.lane l).boot.cur].version
      let first := s.bootHold l || run.toNat < r.version.toNat || (run == r.version && k == 0)
      let s := s.modSlot l k (fun x => { x with
        version := r.version, flags := r.flags, digest := r.digest, pairDigest := r.pairDigest
        broken := false, marked := first })
      let other : Fin 2 := if k == 0 then 1 else 0
      let s := if first then s.modSlot l other (fun x => { x with marked := false }) else s
      s.descDone l n .ok 0))

/-- BULK_CLR.CNT (R421). -/
def State.bulkClr (s : State) (l : Lane) : State := (s.put l F.BULK_STAT_DONE_CNT 0).put l F.BULK_STAT_REJ_CNT 0
def execBulkClrCnt (l : Lane) (s : State) : Out := done (s.writing l 0xA1048 (fun s => (s.bulkClr l).reply l .ok))

/-- A write of a descriptor word by the host (R415 to R417): refused while the lane owns the descriptor. Handing it over needs the
bank of the window, and for a capture those of the capture space, on (R448); an undefined command comes back at once. -/
def State.descWrite (s : State) (l : Lane) (off : Nat) (w : Word) : Eff :=
  let n := Fin.ofNat 64 ((off - 0x200) / 8)
  if s.flag l (F.BULK_DESC0_OWN n.val) then .error (.status .stateErr)
  else if off % 8 == 4 then .ok (s.put l (F.BULK_DESC1_ARG n.val) (bits w 0 24))
  else if bit w 31 && (!s.bankOn l 14 || (bits w 27 4 == 1 && (!s.bankOn l 12 || !s.bankOn l 13))) then
    .error (.status .stateErr)
  else
    let s := (s.putWord l (F.BULK_DESC0_OWN n.val).addr w).showOwned l
    .ok (if bit w 31 && bits w 27 4 > 4 then s.descReject l n ((s.descCheck l n).getD .rangeErr) else s)

/-- A slot of the bulk window that a descriptor in the lane's hands names (R417). -/
def State.slotOwned (s : State) (l : Lane) (addr : Nat) : Bool :=
  (s.ownedList l).any (fun n => s.fld l (F.BULK_DESC0_SLOT n.val) == (addr - 0xC00000) / s.slotSize l)

end Sys2Proof.Machine
end

