-- ==== Sys2Proof/Machine/Can.lean ====
section
/-! DEFINITION. The CAN FD controllers (chapter 17): transmit queues, candidate, cancellation, retry, completions, error
confinement, filters and the receive FIFO. -/
namespace Sys2Proof.Machine

/-- A controller of a lane. -/
def State.can (s : State) (l : Lane) (c : Fin 2) : CanState := (s.lane l).can[c]
def State.modCan (s : State) (l : Lane) (c : Fin 2) (f : CanState → CanState) : State :=
  s.modLane l (fun x => { x with can := x.can.set c (f x.can[c]) })

/-- The controller takes part in bus traffic (R424, R437). -/
def State.canOn (s : State) (l : Lane) (c : Fin 2) : Bool :=
  s.ready l && !s.failed l && s.flag l ⟨0xB0000 + c.val * 0x1000 + 4, 0, 1⟩ && !s.flag l (F.CAN_CTRL_INIT c.val) &&
  (s.can l c).joined

/-- It may send: on the bus, not bus-off, and in normal or loopback mode (R423, R431). -/
def State.canSends (s : State) (l : Lane) (c : Fin 2) : Bool :=
  let m := s.fld l (F.CAN_CTRL_MODE c.val)
  s.canOn l c && s.fld l (F.CAN_STAT_STATE c.val) != 2 && (m == 0 || m == 3)

/-- The arbitration order of ISO 11898-1 as a number, lower first: base identifier, then RTR or SRR, IDE, the identifier's
extension, and RTR (R427). A base FD frame sends RRS dominant. -/
def canOrder (f : CanFrame) : Nat :=
  let id := f.id.toNat
  if f.ide then ((id / 2 ^ 18 % 2 ^ 11 * 2 + 1) * 2 + 1) * 2 ^ 19 + id % 2 ^ 18 * 2 + f.rtr.toNat
  else (id % 2 ^ 11 * 2 + f.rtr.toNat) * 2 * 2 ^ 19

/-- A queued frame by its source: 0 the FIFO head, 4 + n slot n. -/
def CanState.entry (x : CanState) (src : Nat) : Option TxEntry :=
  if src == 0 then x.fifo.head? else if h : 4 ≤ src ∧ src < 8 then x.slot[src - 4] else none

/-- The candidate by R427: the highest priority; at equal arbitration fields a slot before the FIFO head, a lower slot first. -/
def CanState.select (x : CanState) : Option Nat :=
  ([4, 5, 6, 7, 0].filterMap (fun k => (x.entry k).map (fun e => (k, canOrder e.frame)))).foldl
    (fun (a : Option (Nat × Nat)) p => match a with
      | some b => if p.2 < b.2 then some p else a
      | none => some p) none |>.map (·.1)

/-- The start of frame fixes the candidate, and before it there is none (R427). -/
def CanState.atPhase (x : CanState) (p : BusPhase) : CanState :=
  match p with
  | .before => { x with phase := .before, cand := none }
  | .started => { x with phase := .started, cand := match x.cand with | some k => some k | none => x.select }

/-- The phase of a controller's own frame; one that cannot send has started none (R424, R431). -/
def State.canPhase (s : State) (l : Lane) (c : Fin 2) (p : BusPhase) : State :=
  s.modCan l c (fun x => x.atPhase (if s.canSends l c then p else .before))

/-- A queued frame replaced, or removed with `none`. -/
def CanState.putEntry (x : CanState) (src : Nat) (e : Option TxEntry) : CanState :=
  if src == 0 then { x with fifo := e.toList ++ x.fifo.tail }
  else if h : 4 ≤ src ∧ src < 8 then { x with slot := x.slot.set (src - 4) e } else x

/-- CAN_TXQ and CAN_RXQ follow the queues. -/
def State.showCan (s : State) (l : Lane) (c : Fin 2) : State :=
  let x := s.can l c
  let pend := ((List.range 4).filter (fun k => (x.entry (4 + k)).isSome)).foldl (fun a k => a + 2 ^ k) 0
  let s := (s.put l (F.CAN_TXQ_SLOT_PEND c.val) pend).put l (F.CAN_TXQ_FILL c.val) x.fifo.length
  (s.put l (F.CAN_TXQ_TXC_FILL c.val) x.txc.length).put l (F.CAN_RXQ_FILL c.val) x.rx.length

/-- A completion entry is written; a full queue loses its oldest (R438, R441). -/
def State.canDone (s : State) (l : Lane) (c : Fin 2) (e : TxEntry) (src result : Nat) (ts : BitVec 64) : State :=
  let d : TxDone := { tag := e.tag, late := e.cancel && (result == 0 || result == 2), result := result
                      attempts := min e.attempts 15, lastErr := e.lastErr, src := src, ts := ts }
  let s := s.modCan l c (fun x => { x with txc := (if x.txc.length ≥ 32 then x.txc.tail else x.txc) ++ [d] })
  let s := if result == 0 then s.bump l (F.CAN_CNT_TXOK c.val)
           else if result == 2 then (s.bump l (F.CAN_CNT_TXFAIL c.val)).pulseEv l (E.CAN_TX_FAIL c.val) else s
  (s.showCan l c).pulseEv l (E.CAN_TX_DONE c.val)

/-- The stamp of a frame that has not been started: the spec states none (R435). -/
def State.freshTs (s : State) : BitVec 64 × State :=
  let (a, s) := s.fresh
  let (b, s) := s.fresh
  (b ++ a, s)

/-- CAN.NO_ACK with its count (R430). -/
def State.canNoAck (s : State) (l : Lane) (c : Fin 2) : State :=
  (s.bump l (F.CAN_CNT_NOACK c.val)).pulseEv l (E.CAN_NO_ACK c.val)

/-- The error state and CAN_STAT follow TEC and REC (R431): warning at 96, error passive above 127. -/
def State.canErrState (s : State) (l : Lane) (c : Fin 2) (tec rec_ : Nat) : State :=
  let s := s.modCan l c (fun x => { x with rxErr := rec_ })
  let s := s.put l (F.CAN_STAT_TEC c.val) tec
  let (w, s) := if rec_ > 127 then s.fresh else (BitVec.ofNat 32 rec_, s)
  let s := (s.put l (F.CAN_STAT_REC c.val) (bits w 0 7)).putFlag l (F.CAN_STAT_RP c.val) (decide (rec_ > 127))
  let warn := decide (tec ≥ 96) || decide (rec_ ≥ 96)
  let s := (s.putFlag l (F.CAN_STAT_WARN c.val) warn).levelEv l (E.CAN_WARN c.val) warn
  let passive := decide (tec > 127) || decide (rec_ > 127)
  if s.fld l (F.CAN_STAT_STATE c.val) ≥ 2 then s
  else (s.put l (F.CAN_STAT_STATE c.val) passive.toNat).levelEv l (E.CAN_ERR_PASSIVE c.val) passive

/-- Entry into bus-off (R431, R438): the queues keep their frames, and a pending cancellation completes. The error counter has
passed what CAN_STAT.TEC can show. -/
def State.canBusOff (s : State) (l : Lane) (c : Fin 2) : State :=
  let (w, s) := s.fresh
  let s := (s.put l (F.CAN_STAT_TEC c.val) (bits w 0 8)).put l (F.CAN_STAT_STATE c.val) 2
  let s := (s.bump l (F.CAN_CNT_BUSOFF c.val)).levelEv l (E.CAN_ERR_PASSIVE c.val) false
  let s := s.modCan l c (fun x => { x with recovering := s.flag l (F.CAN_CTRL_AUTO_REC c.val) })
  s.levelEv l (E.CAN_BUS_OFF c.val) true

/-- A queued frame is removed with a result and leaves the candidate's place. -/
def State.canEnd (s : State) (l : Lane) (c : Fin 2) (src : Nat) (e : TxEntry) (result : Nat) (ts : BitVec 64) : State :=
  (s.modCan l c (fun x => x.putEntry src none)).canDone l c e src result ts

/-- A frame that has not been started is cancelled or discarded. -/
def State.canDrop (s : State) (l : Lane) (c : Fin 2) (e : TxEntry) (src result : Nat) : State :=
  let (ts, s) := s.freshTs
  s.canDone l c e src result ts

/-- Every pending frame leaves as DISCARDED (R431). -/
def State.canDiscard (s : State) (l : Lane) (c : Fin 2) : State :=
  let x := s.can l c
  let s := s.modCan l c (fun x => { x with fifo := [], slot := Vector.replicate 4 none, cand := none, phase := .before })
  let s := x.fifo.foldl (fun s e => s.canDrop l c e 0 3) s
  [4, 5, 6, 7].foldl (fun s k => match x.entry k with | some e => s.canDrop l c e k 3 | none => s) s

/-- CAN_CTRL.INIT written (R424): 1 takes the controller off the bus and resets its protocol engine; 0 begins integration. -/
def State.canInit (s : State) (l : Lane) (c : Fin 2) (b : Bool) : Eff :=
  if !b && !s.flag l ⟨0xB0000 + c.val * 0x1000 + 4, 0, 1⟩ then .error (.status .stateErr) else
  let was := s.flag l (F.CAN_CTRL_INIT c.val)
  let s := s.putFlag l (F.CAN_CTRL_INIT c.val) b
  if was == b then .ok s else
  let s := if b then (s.canDiscard l c).modCan l c (fun x => { x with joined := false, recovering := false }) else s
  let s := s.levelEv l (E.CAN_BUS_OFF c.val) false
  let s := s.put l (F.CAN_STAT_STATE c.val) 0
  .ok ((s.canErrState l c 0 0).put l (F.CAN_STAT_STATE c.val) 3)
def execCanInit (l : Lane) (c : Fin 2) (b : Bool) (s : State) : Out :=
  done (s.writing l (0xB0040 + c.val * 0x1000) (fun s => s.settleWrite l (s.canInit l c b)))

/-- BUS_INTEGRATION: 11 consecutive recessive bits, and the controller joins the bus (R424). -/
def execBusIntegration (l : Lane) (c : Fin 2) (s : State) : Out :=
  if !s.ready l || s.failed l || !s.flag l ⟨0xB0000 + c.val * 0x1000 + 4, 0, 1⟩ || s.flag l (F.CAN_CTRL_INIT c.val) ||
     (s.can l c).joined then done s else
  let s := (s.modCan l c (fun x => { x with joined := true })).put l (F.CAN_STAT_STATE c.val) 0
  done (s.canErrState l c (s.fld l (F.CAN_STAT_TEC c.val)) (s.can l c).rxErr)

/-- The data bytes that a length code selects (R428). -/
def dlcBytes (fdf : Bool) (dlc : Nat) : Nat :=
  if dlc ≤ 8 then dlc else if !fdf then 8
  else match dlc with | 9 => 12 | 10 => 16 | 11 => 20 | 12 => 24 | 13 => 32 | 14 => 48 | _ => 64

/-- The staged frame. -/
def State.canStaged (s : State) (l : Lane) (c : Fin 2) : CanFrame :=
  let id := s.word l (F.CAN_TX_ID_ID c.val).addr
  let h := s.word l (F.CAN_TX_HDR_TAG c.val).addr
  let bytes := (List.range 16).flatMap (fun w => wordBytes (s.word l (F.CAN_TX_DATA_DATA c.val w).addr))
  { ide := bit id 31, id := id.setWidth 29, fdf := bit h 7, brs := bit h 6, rtr := bit h 5, dlc := h.setWidth 4
    data := if bit h 5 then [] else bytes.take (dlcBytes (bit h 7) (bits h 0 4)) }

/-- A transmit CLAUSE connection uses the controller (R428, R436). -/
def State.canClaused (s : State) (l : Lane) (c : Fin 2) : Bool :=
  (List.range 8).any (fun n => s.flag l (F.CLS_CFG_EN n) && s.flag l (F.CLS_CFG_DIR n) && s.flag l (F.CLS_CFG_CAR n) &&
    s.fld l (F.CLS_CFG_CANC n) == c.val)

/-- CAN_TX_PUSH: the staged frame checked whole and queued (R428). -/
def State.canPush (s : State) (l : Lane) (c : Fin 2) (dest : Nat) : Eff :=
  let f := s.canStaged l c
  if 1 ≤ dest && dest ≤ 3 then .error (.status .rangeErr)
  else if (!f.ide && f.id.toNat > 0x7FF) || (f.brs && !f.fdf) || (f.rtr && f.fdf) then .error (.status .rangeErr)
  else if s.flag l (F.CAN_CTRL_INIT c.val) || (f.fdf && !s.flag l (F.CAN_CTRL_FDE c.val)) ||
          (f.brs && !s.flag l (F.CAN_CTRL_BRSE c.val)) then .error (.status .stateErr)
  else if dest == 7 && s.canClaused l c then .error (.status .stateErr)
  else
    let e : TxEntry := { frame := f, tag := (s.word l (F.CAN_TX_HDR_TAG c.val).addr >>> 24).setWidth 8 }
    let x := s.can l c
    if dest == 0 then
      if x.fifo.length ≥ 32 then .error (.txqFull c)
      else .ok ((s.modCan l c (fun x => { x with fifo := x.fifo ++ [e] })).showCan l c)
    else if (x.entry dest).isSome then .error (.txqFull c)
    else .ok ((s.modCan l c (fun x => x.putEntry dest (some e))).showCan l c)
def execTxPush (l : Lane) (c : Fin 2) (dest : BitVec 3) (p : BusPhase) (s : State) : Out :=
  done (s.writing l (0xB0068 + c.val * 0x1000) (fun s =>
    let s := s.canPhase l c p
    s.settleWrite l (s.canPush l c dest.toNat)))

/-- A pending frame, by source or further back in the FIFO, is cancelled (R429): the started candidate only notes it. -/
def State.cancelSrc (s : State) (l : Lane) (c : Fin 2) (src : Nat) : State :=
  match (s.can l c).entry src with
  | none => s
  | some e =>
    if (s.can l c).cand == some src then s.modCan l c (fun x => x.putEntry src (some { e with cancel := true }))
    else (s.modCan l c (fun x => x.putEntry src none)).canDrop l c e src 1

/-- The FIFO entries that stay and that leave when one tag is cancelled: the oldest with that tag leaves. -/
def cancelTagIn (tag : Byte) : List TxEntry → List TxEntry × Option TxEntry
  | [] => ([], none)
  | e :: t => if e.tag == tag then (t, some e) else let r := cancelTagIn tag t; (e :: r.1, r.2)

/-- CAN_TX_CANCEL (R429). -/
def State.canCancel (s : State) (l : Lane) (c : Fin 2) (kind sel : Nat) : State :=
  let x := s.can l c
  match kind with
  | 1 =>
    let tag := BitVec.ofNat 8 sel
    if x.fifo.head?.any (fun e => e.tag == tag) then (s.cancelSrc l c 0).showCan l c
    else match cancelTagIn tag x.fifo with
      | (rest, some e) => ((s.modCan l c (fun x => { x with fifo := rest })).canDrop l c e 0 1).showCan l c
      | (_, none) => s
  | 2 => (s.cancelSrc l c (4 + sel % 4)).showCan l c
  | 3 =>
    -- every frame behind the FIFO head, then the head and the slots
    let s := s.modCan l c (fun x => { x with fifo := x.fifo.take 1 })
    let s := s.cancelSrc l c 0
    let s := x.fifo.tail.foldl (fun s e => s.canDrop l c e 0 1) s
    ([4, 5, 6, 7].foldl (fun s k => s.cancelSrc l c k) s).showCan l c
  | _ => s
/-- A cancellation through a lane, with the phase of the controller's own frame. -/
def State.cancelVia (s : State) (l : Lane) (c : Fin 2) (p : BusPhase) (kind sel : Nat) : State :=
  s.writing l (0xB006C + c.val * 0x1000) (fun s => ((s.canPhase l c p).canCancel l c kind sel).reply l .ok)
def execCancelTag (l : Lane) (c : Fin 2) (tag : Byte) (p : BusPhase) (s : State) : Out :=
  done (s.cancelVia l c p 1 tag.toNat)
def execCancelSlot (l : Lane) (c : Fin 2) (k : Fin 4) (p : BusPhase) (s : State) : Out :=
  done (s.cancelVia l c p 2 k.val)
def execCancelAll (l : Lane) (c : Fin 2) (p : BusPhase) (s : State) : Out := done (s.cancelVia l c p 3 0)

/-- CAN_POP.RX and CAN_POP.TXC (R434, R439). -/
def State.canPopRx (s : State) (l : Lane) (c : Fin 2) : State :=
  (s.modCan l c (fun x => { x with rx := x.rx.tail })).showCan l c
def State.canPopTxc (s : State) (l : Lane) (c : Fin 2) : State :=
  (s.modCan l c (fun x => { x with txc := x.txc.tail })).showCan l c
def execPopRx (l : Lane) (c : Fin 2) (s : State) : Out :=
  done (s.writing l (0xB007C + c.val * 0x1000) (fun s => (s.canPopRx l c).reply l .ok))
def execPopTxc (l : Lane) (c : Fin 2) (s : State) : Out :=
  done (s.writing l (0xB007C + c.val * 0x1000) (fun s => (s.canPopTxc l c).reply l .ok))

/-- CAN_CTRL.REC_REQ starts a recovery from bus-off (R431). -/
def State.canRecReq (s : State) (l : Lane) (c : Fin 2) : State :=
  if s.fld l (F.CAN_STAT_STATE c.val) == 2 then s.modCan l c (fun x => { x with recovering := true }) else s
def execRecReq (l : Lane) (c : Fin 2) (s : State) : Out :=
  done (s.writing l (0xB0040 + c.val * 0x1000) (fun s => (s.canRecReq l c).reply l .ok))

/-- CAN_CLR.OVF and CAN_CLR.CNT (R439). -/
def State.canClrOvf (s : State) (l : Lane) (c : Fin 2) : State := s.put l (F.CAN_RXQ_OVF_CNT c.val) 0
def State.canClrCnt (s : State) (l : Lane) (c : Fin 2) : State := s.putWord l (F.CAN_CNT_TXOK c.val).addr 0
def execCanClrOvf (l : Lane) (c : Fin 2) (s : State) : Out :=
  done (s.writing l (0xB005C + c.val * 0x1000) (fun s => (s.canClrOvf l c).reply l .ok))
def execCanClrCnt (l : Lane) (c : Fin 2) (s : State) : Out :=
  done (s.writing l (0xB005C + c.val * 0x1000) (fun s => (s.canClrCnt l c).reply l .ok))

/-- The stamp of a start of frame `age` counts ago (R435). -/
def State.sof (s : State) (l : Lane) (age : Nat) : BitVec 64 := s.stamp l - BitVec.ofNat 64 age

/-- The candidate with its entry, fixed by the outcome that ends its attempt; the controller is then before its next start. -/
def State.canAttempt (s : State) (l : Lane) (c : Fin 2) : Option (Nat × TxEntry) × State :=
  let x := (s.can l c).atPhase .started
  let e := x.cand.bind (fun k => (x.entry k).map (fun e => (k, e)))
  (e, s.canPhase l c .before)

/-- ARBITRATION_LOST: the candidate loses arbitration (R427, R429, R430). -/
def execArbitrationLost (l : Lane) (c : Fin 2) (age : Nat) (s : State) : Out :=
  if !s.canSends l c then done s else
  match s.canAttempt l c with
  | (none, s) => done s
  | (some (k, e), s) =>
    if s.flag l (F.CAN_CTRL_ONESHOT c.val) && !e.cancel then
      let s := s.canEnd l c k { e with attempts := e.attempts + 1 } 2 (s.sof l age)
      done (if e.lastErr == 3 then s.canNoAck l c else s)
    else if e.cancel then done (s.canEnd l c k e 1 (s.sof l age))
    else done s

/-- The first matching filter of a frame: its index and action; 0x3F and NOMATCH's action where none matches (R433). -/
def State.canFilter (s : State) (l : Lane) (c : Fin 2) (f : CanFrame) : Nat × Nat :=
  let hit := fun (n : Nat) =>
    s.flag l (F.CAN_FLT_ID_IDE c.val n) == f.ide &&
    (BitVec.ofNat 29 (s.fld l (F.CAN_FLT_ID_ID c.val n)) ^^^ f.id) &&& BitVec.ofNat 29 (s.fld l (F.CAN_FLT_MASK_MASK c.val n)) == 0
  match (List.range (min 48 (s.fld l (F.CAN_FCFG_NFILT c.val)))).find? hit with
  | some n => (n, s.fld l (F.CAN_FLT_ID_ACT c.val n))
  | none => (0x3F, if s.flag l (F.CAN_FCFG_NOMATCH c.val) then 0 else 2)

/-- The receive connections that take a frame handed to the CLS block (R386, R436). -/
def State.canToCls (s : State) (l : Lane) (c : Fin 2) (f : CanFrame) : State :=
  (List.finRange 8).foldl (fun (s : State) (n : Fin 8) =>
    if s.flag l (F.CLS_CFG_EN n.val) && !s.flag l (F.CLS_CFG_DIR n.val) && s.flag l (F.CLS_CFG_CAR n.val) &&
       s.fld l (F.CLS_CFG_CANC n.val) == c.val && s.flag l (F.CLS_LOC_IDE n.val) == f.ide &&
       s.fld l (F.CLS_LOC_LOC n.val) == f.id.toNat
    then s.modLane l (fun x => { x with cls := x.cls.set n { x.cls[n] with tel := some f.data } }) else s) s

/-- A frame placed in the receive FIFO, or discarded and counted (R434). -/
def State.canStore (s : State) (l : Lane) (c : Fin 2) (r : RxFrame) : State :=
  if (s.can l c).rx.length ≥ 64 then (s.bump l (F.CAN_RXQ_OVF_CNT c.val)).pulseEv l (E.CAN_RX_OVF c.val)
  else
    let s := (s.modCan l c (fun x => { x with rx := x.rx ++ [r] })).showCan l c
    if (s.can l c).rx.length == s.fld l (F.CAN_RXQ_WM c.val) then s.pulseEv l (E.CAN_RX c.val) else s

/-- A frame filtered to where it goes (R433). -/
def State.canTake (s : State) (l : Lane) (c : Fin 2) (f : CanFrame) (age : Nat) : State :=
  let (n, act) := s.canFilter l c f
  let s := if act == 1 || act == 3 then s.canToCls l c f else s
  if act == 0 || act == 3 then s.canStore l c { frame := f, filt := n, ts := s.sof l age } else s

/-- CAN_RX_FRAME: a frame received without error (R431, R433 to R435). ISO 11898-1 lowers REC by 1, and one above 127 to between
119 and 127. -/
def execCanRxFrame (l : Lane) (c : Fin 2) (f : CanFrame) (age : Nat) (s : State) : Out :=
  if !s.canOn l c || s.fld l (F.CAN_STAT_STATE c.val) == 2 then done s else
  let r := (s.can l c).rxErr
  let (w, s) := if r > 127 then s.fresh else (0, s)
  let r := if r > 127 then 119 + w.toNat % 9 else r - 1
  let s := s.canErrState l c (s.fld l (F.CAN_STAT_TEC c.val)) r
  done (s.canTake l c f age)

/-- TX_COMPLETE: a transmitted frame completes (R429, R431). In internal loopback the controller receives it too (R433). -/
def execTxComplete (l : Lane) (c : Fin 2) (age : Nat) (s : State) : Out :=
  if !s.canSends l c then done s else
  match s.canAttempt l c with
  | (none, s) => done s
  | (some (k, e), s) =>
    let s := s.canErrState l c (s.fld l (F.CAN_STAT_TEC c.val) - 1) (s.can l c).rxErr
    let s := s.canEnd l c k { e with attempts := e.attempts + 1 } 0 (s.sof l age)
    done (if s.fld l (F.CAN_CTRL_MODE c.val) == 3 then s.canTake l c e.frame age else s)

/-- The last error shown in CAN_STAT: nominal or data phase (R439). -/
def State.canErr (s : State) (l : Lane) (c : Fin 2) (err : Nat) (data : Bool) : State :=
  s.put l (if data then F.CAN_STAT_DLEC c.val else F.CAN_STAT_LEC c.val) err

/-- TX_ERROR: an attempt ends in an error (R429 to R432). TEC rises by 8, but not where ISO 11898-1 spares the error, nor for an
error-passive transmitter's acknowledgement error without a dominant bit in its error flag. -/
def execTxError (l : Lane) (c : Fin 2) (err : BitVec 3) (data dominant spared : Bool) (age : Nat) (s : State) : Out :=
  if !s.canSends l c then done s else
  match s.canAttempt l c with
  | (none, s) => done s
  | (some (k, e), s) =>
    let s := s.canErr l c err.toNat data
    let ack := err == 3
    let keep := spared || (ack && s.fld l (F.CAN_STAT_STATE c.val) == 1 && !dominant)
    let tec := s.fld l (F.CAN_STAT_TEC c.val) + (if keep then 0 else 8)
    let off := decide (tec > 255)
    let s := if off then s.canBusOff l c else s.canErrState l c tec (s.can l c).rxErr
    let e := { e with attempts := e.attempts + 1, lastErr := err.toNat, ackErrs := if ack then e.ackErrs + 1 else 0 }
    let retry := s.fld l (F.CAN_CTRL_RETRY c.val)
    if off && e.cancel then done (s.canEnd l c k e 1 (s.sof l age))
    else if e.cancel || s.flag l (F.CAN_CTRL_ONESHOT c.val) || (retry != 0 && e.attempts > retry) then
      let s := s.canEnd l c k e 2 (s.sof l age)
      done (if ack then s.canNoAck l c else s)
    else
      let s := s.modCan l c (fun x => x.putEntry k (some e))
      done (if retry == 0 && ack && e.ackErrs == 16 then s.canNoAck l c else s)

/-- BUS_OFF_RECOVERY: 128 occurrences of 11 recessive bits; both error counters are 0 again (R431). -/
def execBusOffRecovery (l : Lane) (c : Fin 2) (s : State) : Out :=
  if !s.canOn l c || s.fld l (F.CAN_STAT_STATE c.val) != 2 || !(s.can l c).recovering then done s else
  let s := (s.modCan l c (fun x => { x with recovering := false })).put l (F.CAN_STAT_STATE c.val) 0
  done ((s.canErrState l c 0 0).levelEv l (E.CAN_BUS_OFF c.val) false)

/-- CAN_RX_ERROR: a received frame ends in an error: ISO 11898-1 raises REC by 1, or by 8 (`eight`) (R431). -/
def execCanRxError (l : Lane) (c : Fin 2) (err : BitVec 3) (data eight : Bool) (s : State) : Out :=
  if !s.canOn l c || s.fld l (F.CAN_STAT_STATE c.val) == 2 then done s else
  let s := s.canErr l c err.toNat data
  done (s.canErrState l c (s.fld l (F.CAN_STAT_TEC c.val)) (satAdd 8 (s.can l c).rxErr (if eight then 8 else 1)))

/-- CAN_PROTOCOL_EXCEPTION: with PXHD = 0 a frame in an unknown format makes the controller integrate anew (R423, R441). -/
def execCanProtocolException (l : Lane) (c : Fin 2) (s : State) : Out :=
  if !s.canOn l c || s.fld l (F.CAN_STAT_STATE c.val) == 2 || s.flag l (F.CAN_CTRL_PXHD c.val) then done s else
  let s := (s.modCan l c (fun x => { x with joined := false })).put l (F.CAN_STAT_STATE c.val) 3
  done (s.pulseEv l (E.CAN_PROTO_EXC c.val))

/-- A word of a received or staged frame's data: bytes 4w to 4w + 3. -/
def dataWord (bs : List Byte) (w : Nat) : Word := BitVec.ofNat 32 (bytesNat ((bs.drop (4 * w)).take 4))

/-- The registers of a CAN page that show the heads of the queues (R439). -/
def State.canHead (s : State) (l : Lane) (c : Fin 2) (off : Nat) : Option Word :=
  let x := s.can l c
  let hi := fun (t : BitVec 64) => (t >>> 32).setWidth 32
  if off == 0x070 then some (match x.txc.head? with
    | some d => BitVec.ofNat 32 (d.tag.toNat * 2 ^ 24 + 2 ^ 23 + d.late.toNat * 2 ^ 22 + d.result * 2 ^ 20 + d.attempts * 2 ^ 16 +
        d.lastErr * 2 ^ 8 + d.src)
    | none => 0)
  else if off == 0x074 then some (match x.txc.head? with | some d => d.ts.setWidth 32 | none => 0)
  else if off == 0x078 then some (match x.txc.head? with | some d => hi d.ts | none => 0)
  else if off == 0x0C0 then some (match x.rx.head? with
    | some r => BitVec.ofNat 32 (r.frame.ide.toNat * 2 ^ 31 + 2 ^ 30 + r.frame.id.toNat)
    | none => 0)
  else if off == 0x0C4 then some (match x.rx.head? with
    | some r => BitVec.ofNat 32 (r.filt * 2 ^ 26 + r.frame.fdf.toNat * 128 + r.frame.brs.toNat * 64 + r.frame.rtr.toNat * 32 +
        r.frame.esi.toNat * 16 + r.frame.dlc.toNat)
    | none => 0)
  else if off == 0x0C8 then some (match x.rx.head? with | some r => r.ts.setWidth 32 | none => 0)
  else if off == 0x0CC then some (match x.rx.head? with | some r => hi r.ts | none => 0)
  else if 0x0D0 ≤ off && off < 0x110 then some (match x.rx.head? with
    | some r => dataWord r.frame.data ((off - 0x0D0) / 4)
    | none => 0)
  else none

end Sys2Proof.Machine
end

