-- ==== Sys2Proof/Machine/Guard.lean ====
section
/-! DEFINITION. The safety functions of chapter 15 at the monitor: the STO pins, requests and acknowledgement, SS1 and its end,
the comparison of speeds and their limits, torque monitoring and the contactors; and a lane's own stop (R360). -/
namespace Sys2Proof.Machine

/-- A trigger of STO, and of SS1, at the monitor, with its events (R381). -/
def State.trigSto (s : State) (c : Nat) : State := if s.mon.alive then (s.causeEv c).applySto c else s
def State.trigSs1 (s : State) (c : Nat) : State := if s.mon.alive then (s.causeEv c).applySs1 c else s

/-- STO_PIN: a low on STO1 or STO2 is taken (R358 to R360). While the monitor does not run the pin has no effect. -/
def execStoPin (two : Bool) (s : State) : Out :=
  let s := s.modAon (fun a => if two then { a with sto2 := false } else { a with sto1 := false })
  let s := if s.mon.disc && !s.aon.sto1 && !s.aon.sto2 then s.modMon (fun m => { m with discLow := true, discClear := false }) else s
  done (s.trigSto 1).publish

/-- STO_PIN_HIGH: a pin has returned high; both high after both low clear the way for a restart with DISC latched (R358,
R372). -/
def execStoPinHigh (two : Bool) (s : State) : Out :=
  let s := s.modAon (fun a => if two then { a with sto2 := true } else { a with sto1 := true })
  let s := if s.mon.disc && s.mon.discLow && s.aon.sto1 && s.aon.sto2 then s.modMon (fun m => { m with discClear := true }) else s
  done s.publish

/-- STO_DISC: the pins have differed for longer than DISC_T: DISC is latched (R358). -/
def execStoDisc (s : State) : Out :=
  if !s.mon.alive || s.aon.sto1 == s.aon.sto2 then done s else
  let s := s.modMon (fun m => { m with disc := true, discLow := false, discClear := false })
  let s := s.both (fun l s => s.levelEv l E.SAF_STO_DISC true)
  done (s.monLevel E.MON_STO_DISC true).publish

/-- A request put onto a lane's safety request line with a cause; the first cause of a kind is kept. -/
def State.askSto (s : State) (l : Lane) (c : Nat) : State :=
  s.modSaf l (fun x => { x with reqSto := true, cause := if x.reqSto then x.cause else c })
def State.askSs1 (s : State) (l : Lane) (c : Nat) : State :=
  s.modSaf l (fun x => { x with reqSs1 := true, cause := if x.reqSs1 || x.reqSto then x.cause else c })

/-- STO_REQUEST and SS1_REQUEST: SAF_CTRL.STO and SAF_CTRL.SS1 through a lane, cause 10 (R385). -/
def execStoRequest (l : Lane) (s : State) : Out :=
  done (s.writing l 0x90074 (fun s => (s.askSto l 10).reply l .ok))
def execSs1Request (l : Lane) (s : State) : Out :=
  done (s.writing l 0x90074 (fun s => (s.askSs1 l 10).reply l .ok))

/-- A reaction is latched at the monitor that an acknowledgement can release (R372): STO, or the hold of one set. An SS1 is not
released before its STO. -/
def State.latched (s : State) : Bool := !s.mon.ss1 && (s.mon.sto || s.mon.holdTq.a || s.mon.holdTq.b)

/-- The monitor releases the reaction: SAF.RESTART, and the sets' own states remain until CLEAR and ENABLE (R372). -/
def State.restart (s : State) : State :=
  let s := s.modMon (fun m => { m with
    sto := false, holdTq := ⟨false, false⟩, disc := false, discLow := false, discClear := false, safCause := 0
    ackAt := ⟨none, none⟩, ackNeed := ⟨false, false⟩ })
  let s := ((s.monLevel E.MON_STO false).monLevel E.MON_SET_HOLD false).monLevel E.MON_STO_DISC false
  let s := s.both (fun l s => if s.inReset l then s else
    ((s.levelEv l E.SAF_STO false).levelEv l E.SAF_STO_DISC false).pulseEv l E.SAF_RESTART)
  (((s.placeSet .A).placeSet .B).monEv E.MON_RESTART).publish

/-- A complete acknowledgement (R372): it releases a latched reaction once no cause is present, and has no effect otherwise. -/
def State.acknowledge (s : State) : State :=
  if s.mon.alive && s.latched && !s.causePresent then s.restart else s

/-- A lane that the monitor counts as running (R346, R372). -/
def State.counts (s : State) (l : Lane) : Bool := s.mon.counted.get l && s.heard l

/-- A stop that the lane has executed on its own streams is released (R360). -/
def State.ownRelease (s : State) (l : Lane) : State :=
  let s := s.modRed l (fun r => { r with ownStop := none, ownSs1 := false })
  let s := (s.levelEv l E.SAF_STO false).pulseEv l E.SAF_RESTART
  s.put l F.SAF_STAT_CAUSE s.mon.safCause

/-- A lane is out of the monitor's reach: it is in a split, or its relay path is lost (R343, R344, R360). -/
def State.alone (s : State) (l : Lane) : Bool := s.flag l F.RED_STAT_SPLIT || (s.lane l).red.missRelay ≥ 3

/-- CLAUSE ACK accepted in a lane (R372, R379): it is complete when every running lane that counted at its beginning has
accepted one within 100 ms. A lane's own stop is released by it where the monitor is out of reach (R360). -/
def State.clsAck (s : State) (l : Lane) : State :=
  let v := s.clsLane l
  let s := if (s.lane l).red.ownStop.isSome && s.alone l && v.run && v.noSs1 then s.ownRelease l else s
  if !s.mon.alive || !s.counts l || !s.latched || s.causePresent then s else
  let old := fun (x : Lane) => match s.mon.ackAt.get x with
    | some t => if s.time ≤ t + ms 100 then some t else none
    | none => none
  let begun := (old .A).isSome || (old .B).isSome
  let need := if begun then s.mon.ackNeed else ⟨s.counts .A, s.counts .B⟩
  let at_ := (⟨old .A, old .B⟩ : PerLane (Option Nat)).set l (some s.time)
  let s := s.modMon (fun m => { m with ackAt := at_, ackNeed := need })
  let got := fun (x : Lane) => !(need.get x && s.counts x) || (at_.get x).isSome
  if got .A && got .B then s.acknowledge else s

/-- The position references of both lanes and of the monitor set to 0 (R365). -/
def State.zeroPos (s : State) : State :=
  let s := s.modMon (fun m => { m with pos := ⟨0, 0⟩, slpAt := ⟨none, none⟩ })
  s.both (fun l s => if s.inReset l then s else
    (s.modSaf l (fun x => { x with pos := 0 })).putWord l F.SAF_POS_POS.addr 0)

/-- SLP_SET accepted in a lane (R379): it acts when every running lane has accepted one within 100 ms. -/
def State.clsSlpSet (s : State) (l : Lane) : State :=
  if !s.mon.alive || !s.counts l then s else
  let recent := fun (x : Lane) => match s.mon.slpAt.get x with
    | some t => if s.time ≤ t + ms 100 then some t else none
    | none => none
  let at_ := (⟨recent .A, recent .B⟩ : PerLane (Option Nat)).set l (some s.time)
  let s := s.modMon (fun m => { m with slpAt := at_ })
  let got := fun (x : Lane) => !s.counts x || (at_.get x).isSome
  if got .A && got .B then s.zeroPos else s

/-- The STO that ends an SS1, with the SS1's cause (R361). -/
def State.ss1End (s : State) : State := if s.mon.alive && s.mon.ss1 then s.applySto s.mon.safCause else s

/-- A lane executes a stop on its own streams, latched with its cause (R344, R360). -/
def State.ownSto (s : State) (l : Lane) (c : Nat) : State :=
  if s.inReset l || (s.lane l).red.ownStop.isSome then s else
  let s := s.modRed l (fun r => { r with ownStop := some c, ownSs1 := false })
  let s := (s.put l F.SAF_STAT_CAUSE c).levelEv l E.SAF_SS1 false
  (s.levelEv l E.SAF_STO true).setFault l 4

/-- A lane starts SS1 on its own set (R344, R361). -/
def State.ownSs1Start (s : State) (l : Lane) (c : Nat) : State :=
  let r := (s.lane l).red
  if s.inReset l || r.ownSs1 || r.ownStop.isSome then s else
  let s := s.modRed l (fun r => { r with ownSs1 := true, ownCause := c })
  (s.put l F.SAF_STAT_CAUSE c).laneSs1 l

/-- What CLAUSE now asks for is judged (R377 to R379): a missing RUN permit applies STO with cause 3, a missing NO_SS1 starts SS1
with cause 4. A lane that cannot reach the monitor acts on its own streams (R360, R381). -/
def State.clsJudge (s : State) : State :=
  let v := s.clsAll
  let s := if !s.mon.alive then s
    else if !v.run then (if s.mon.sto then s else s.trigSto 3)
    else if !v.noSs1 then (if s.mon.sto || s.mon.ss1 then s else s.trigSs1 4)
    else s
  let s := s.both (fun l s =>
    if !s.ready l || !s.alone l then s
    else if !(s.clsLane l).run then s.ownSto l 3
    else if !(s.clsLane l).noSs1 then s.ownSs1Start l 4
    else s)
  s.publish

/-- SS1_TIMEOUT: SS1_T after its start, an SS1 ends in STO: the monitor's, or a lane's own (R361). -/
def execSs1Timeout (w : Seer) (s : State) : Out :=
  match w with
  | .mon => done s.ss1End
  | .lane l => done (if (s.lane l).red.ownSs1 then s.ownSto l (s.lane l).red.ownCause else s)

/-- SS1_RAMP_DONE: every running lane has reported its ramp done, or the lane's own ramp is done, before SS1_T (R361). -/
def execSs1RampDone (w : Seer) (s : State) : Out :=
  match w with
  | .mon =>
    let ok := fun (l : Lane) => !s.counts l || (s.lane l).saf.rampDone
    done (if (s.counts .A || s.counts .B) && ok .A && ok .B then s.ss1End else s)
  | .lane l => done (if (s.lane l).red.ownSs1 && (s.lane l).saf.rampDone then s.ownSto l (s.lane l).red.ownCause else s)

/-- COMMAND_LINE_LOST: no valid code on a lane's command line for 5 µs: the lane keeps the last state it received (R357). With
valid codes again (`back`) the lane takes up what the monitor sends. -/
def execCommandLineLost (l : Lane) (back : Bool) (s : State) : Out :=
  if s.inReset l then done s
  else if !back then done (s.modSaf l (fun x => { x with cmdLost := true }))
  else if !(s.lane l).saf.cmdLost || !s.mon.alive then done s
  else
    let s := s.modSaf l (fun x => { x with cmdLost := false })
    let s := if s.mon.sto then s.laneSto l else s.levelEv l E.SAF_STO false
    let s := if s.mon.ss1 then s.laneSs1 l else s.levelEv l E.SAF_SS1 false
    done (s.publishTo l)

/-- The signed electrical speed that a lane reports, in steps of 2⁻¹⁴⁹ rad/s, while it counts by R214. -/
def State.hbSpeed (s : State) (l : Lane) : Option Int :=
  match s.mon.hb.get l with
  | some (h, t) => if h.speedValid && s.time ≤ t + us 100 && !s.inReset l then some (fVal h.speed) else none
  | none => none

/-- MON_TACH's speed, in steps of 2⁻¹⁴⁹ rad/s electrical; it carries no sign (R362). -/
def State.tachSpeed (s : State) : Option Int :=
  if s.mfld F.MON_SST_CFG2_TACH_PPR == 0 then none else s.mon.sst.tach.map (fun w => (w * 2 ^ 149 / 1000 : Nat))

/-- The valid speed sources: (speed, carries a sign). -/
def State.speedSources (s : State) : List (Int × Bool) :=
  [(s.hbSpeed .A, true), (s.hbSpeed .B, true), (s.tachSpeed, false)].filterMap (fun x => x.1.map (fun v => (v, x.2)))

/-- |v| electrical steps exceed a number of min⁻¹ mechanical with `pp` pole pairs (R362, R363). -/
def rpmAbove (v : Int) (rpm pp : Nat) : Bool := v.natAbs * 60 * piDen > rpm * (2 * piNum) * pp * 2 ^ 149

/-- A speed in min⁻¹ mechanical, FP32. -/
def rpmWord (v : Int) (pp : Nat) : Word := fFrac (v * 60 * piDen) (2 * piNum * pp * 2 ^ 149)

/-- A position with its stop distance lies outside the limits (R365): P in 2⁻³² of 1/256 revolution, ω in steps of 2⁻¹⁴⁹ rad/s
electrical, DEC in steps of 2⁻¹⁴⁹ rad/s² mechanical. -/
def slpOut (p : Int) (v : Int) (pp : Nat) (dec : Nat) (lo hi : Int) : Bool :=
  let d : Int := (2 ^ 149 * pp * pp * 4 * dec * piNum : Nat)
  let n : Int := (v.natAbs * v.natAbs * 256 * piDen : Nat) * (if v < 0 then -1 else 1)
  let x := p * d + n * 2 ^ 32
  decide (x > hi * 2 ^ 32 * d) || decide (x < lo * 2 ^ 32 * d)

/-- The violations among SLS (6), SDI (7) and SLP (8) of a speed and a position under what CLAUSE asks for (R363 to R365). -/
def State.violations (s : State) (v : ClsView) (w : Int) (signed_ : Bool) (pos : Option Int) (pp : Nat) : List Nat :=
  let tol := s.safCfg F.SAF_SPD_SDI_TOL
  let sls := match v.sls with
    | some x => rpmAbove w x.1 pp
    | none => false
  let sdi := rpmAbove w tol pp &&
    ((!v.sdiPos && !v.sdiNeg) || (signed_ && ((!v.sdiPos && decide (w > 0)) || (!v.sdiNeg && decide (w < 0)))))
  let dec := (fVal (BitVec.ofNat 32 (s.safCfg F.SAF_SLP_DEC_DEC))).toNat
  let slp := v.slp && (match pos with
    | some p => slpOut p w pp dec (signed 32 (s.safCfg F.SAF_SLP_LO_LO)) (signed 32 (s.safCfg F.SAF_SLP_HI_HI))
    | none => false)
  (if sls then [6] else []) ++ (if sdi then [7] else []) ++ (if slp then [8] else [])

/-- The monitor's own limit checks over every valid source (R363 to R365). -/
def State.monViolations (s : State) : List Nat :=
  let v := s.clsAll
  let pp := s.mfld F.MON_SST_CFG2_PP
  let one := fun (l : Lane) => match s.hbSpeed l with
    | some w => s.violations v w true (some (s.mon.pos.get l)) pp
    | none => []
  one .A ++ one .B ++ (match s.tachSpeed with
    | some w => s.violations v w false none pp
    | none => [])

/-- A limit check made: a violation that was not there starts SS1 with its cause, and present violations keep a reaction latched
(R363 to R365, R372). -/
def State.limitCheck (s : State) : State :=
  let now := s.monViolations
  let old := s.mon.causes
  let s := s.modMon (fun m => { m with causes := [6, 7, 8].filter now.contains ++ old.filter (fun c => c != 6 && c != 7 && c != 8) })
  ([6, 7, 8].filter (fun c => now.contains c && !old.contains c)).foldl (fun s c => s.trigSs1 c) s

/-- SLS, SDI or SLP is active (R362). -/
def ClsView.limits (v : ClsView) : Bool := v.sls.isSome || !v.sdiPos || !v.sdiNeg || v.slp

/-- The source with the largest magnitude (R362, R385). -/
def worstSpeed (xs : List (Int × Bool)) : Int := xs.foldl (fun a x => if x.1.natAbs > a.natAbs then x.1 else a) 0

/-- SPEED_COMPARE: every 1 ms the monitor compares the lanes' speeds and judges diversity (R362). -/
def execSpeedCompare (s : State) : Out :=
  if !s.mon.alive then done s else
  let pp := s.mfld F.MON_SST_CFG2_PP
  let xs := s.speedSources
  let s := s.modMon (fun m => { m with spd := rpmWord (worstSpeed xs) pp })
  let apart := match s.hbSpeed .A, s.hbSpeed .B with
    | some a, some b => rpmAbove (a - b) (s.safCfg F.SAF_SPD_SPD_TOL * 10) pp
    | _, _ => false
  let n := if apart then s.mon.spdCnt + 1 else 0
  let s := s.modMon (fun m => { m with spdCnt := n })
  let s := if n == s.safCfg F.SAF_SPD_SPD_N && apart then s.safEv E.SAF_SPEED_DISAGREE else s
  let was := s.mon.diverse
  let div := decide (xs.length ≥ 2)
  let need := s.safCfg F.SAF_CFG_DIV_REQ == 1 && s.clsAll.limits
  let rest := s.mon.causes.filter (· != 11)
  let s := s.modMon (fun m => { m with diverse := div, causes := if need && !div then rest ++ [11] else rest })
  done (if need && was && !div then s.trigSs1 11 else s).publish

/-- The current of a set in amperes from a pair of codes: I² = (4 iu² + 4 iu iv + 4 iv²) / 3 (R367). -/
def pairCurrent (gain : Word) (iu iv : BitVec 12) : Word :=
  let a := fMul gain (fInt ((iu.toNat : Int) - 2048))
  let b := fMul gain (fInt ((iv.toNat : Int) - 2048))
  fSqrt (fDiv (fMul (fInt 4) (fAdd (fAdd (fMul a a) (fMul a b)) (fMul b b))) (fInt 3))

/-- The torque ceiling of a set with current `x` beside one with current `y` (R367). -/
def State.ceiling (s : State) (x y : Word) : Word :=
  let psi := fFrac (s.mfld F.MON_SST_CFG_PSI * 4) 1000000
  let dl := fFrac (s.safCfg F.SAF_MACH_DL) 10000000
  let dm := fFrac (s.safCfg F.SAF_MACH_DM) 10000000
  let t := fAdd (fAdd (fMul psi x) (fDiv (fMul dl (fMul x x)) (fInt 2))) (fMul dm (fMul x y))
  fMul (fMul (fFrac 3 2) (fInt (s.mfld F.MON_SST_CFG2_PP))) t

/-- A set is held in ASC (R368). -/
def State.heldAsc (s : State) (l : Lane) : Bool := s.held l && s.asc && s.mon.mask.get l != 0

/-- The hold of one set by its ceiling: latched, cause 13; the lane enters SAFE with cause 5 (R368). -/
def State.holdOne (s : State) (l : Lane) : State :=
  if s.mon.holdTq.get l then s else
  let s := s.modMon (fun m => { m with
    holdTq := m.holdTq.set l true, safCause := if m.sto || m.ss1 then m.safCause else 13 })
  let s := s.safEv E.SAF_TORQUE
  (((s.holdSet l).placeSet l).setFault l 5).monLevel E.MON_SET_HOLD true

/-- TORQUE_MONITOR: at the end of FILT the mean ceilings are compared with the allowed torque and with TSET (R368). A set held in
ASC is left out of the total, and TSET is not applied to it. -/
def execTorqueMonitor (s : State) : Out :=
  if !s.mon.alive || s.mon.tqCnt == 0 then done s else
  let n := fInt s.mon.tqCnt
  let a := fDiv s.mon.tqSum.1 n
  let b := fDiv s.mon.tqSum.2 n
  let s := s.modMon (fun m => { m with tqSum := (0, 0), tqCnt := 0 })
  let exA := s.heldAsc .A
  let exB := s.heldAsc .B
  let total := fAdd (if exA then 0 else a) (if exB then 0 else b)
  let s := s.modMon (fun m => { m with tqb := total })
  let allowed := min (s.safCfg F.SAF_TQM_TSTAT) s.clsAll.tlim
  let tset := fInt (s.safCfg F.SAF_TQM2_TSET)
  let ovr := fLt (fInt allowed) total
  let overA := !exA && fLt tset a
  let overB := !exB && fLt tset b
  let old := s.mon.causes
  let keep := old.filter (fun c => c != 9 && c != 13)
  let s := s.modMon (fun m => { m with
    causes := keep ++ (if ovr then [9] else []) ++ (if overA || overB then [13] else []) })
  let s := if ovr && !old.contains 9 then s.trigSto 9 else s
  let s := if overA then s.holdOne .A else s
  let s := if overB then s.holdOne .B else s
  done s.publish

/-- SAF_K_FEEDBACK: a read-back has differed from its output for 50 ms outside a test (R370). -/
def execSafKFeedback (n : Fin 6) (closed : Bool) (s : State) : Out :=
  let s := s.setKfb n closed
  let t := s.mon.kTest[n]
  if !s.mon.alive || t.pulse || t.check || s.aon.k.getLsbD n.val == closed then done s else
  done ((s.safEv E.SAF_K_FEEDBACK).monEv E.MON_K_FEEDBACK)

/-- K_TEST: a test pulse falls due on an output whose TEST_EN bit is set, and no demand has changed for 10 ms (R371). -/
def execKTest (n : Fin 6) (s : State) : Out :=
  let t := s.mon.kTest[n]
  let soon := match t.lastDemand with
    | some d => decide (s.time < d + ms 10)
    | none => false
  if !s.mon.alive || s.aon.nPor || !bit (BitVec.ofNat 32 (s.safCfg F.SAF_K_CFG_TEST_EN)) n.val || t.pulse || t.check || soon
  then done s else
  let s := s.modAon (fun a => { a with k := a.k ^^^ kBit n.val })
  done (s.modMon (fun m => { m with kTest := m.kTest.set n { t with pulse := true } })).showK

/-- The result of a test, or of its first half: a failure raises SAF.K_TEST, and the second in a row latches K_FAULT (R371). -/
def State.kTestEnd (s : State) (n : Fin 6) (pass : Bool) : State :=
  let t := s.mon.kTest[n]
  if pass then s.modMon (fun m => { m with kTest := m.kTest.set n { t with pulse := false, check := false, fails := 0 } })
  else
    let s := s.modMon (fun m => { m with
      kTest := m.kTest.set n { t with pulse := false, check := false, fails := t.fails + 1 }
      kFault := if t.fails + 1 ≥ 2 then m.kFault ||| kBit n.val else m.kFault })
    ((s.safEv E.SAF_K_TEST).monEv E.MON_K_TEST).publish

/-- K_TEST_CHECK: KFB at the end of the pulse, which must show the pulsed state, or 1 ms later, which must show the restored
state (R371). -/
def execKTestCheck (n : Fin 6) (closed : Bool) (s : State) : Out :=
  let t := s.mon.kTest[n]
  let s := s.setKfb n closed
  if !s.mon.alive then done s
  else if t.pulse then
    let pass := s.aon.k.getLsbD n.val == closed
    let s := s.modAon (fun a => { a with k := a.k ^^^ kBit n.val })
    let s := s.modMon (fun m => { m with kTest := m.kTest.set n { t with pulse := false, check := true } })
    done (if pass then s else s.kTestEnd n false).showK
  else if t.check then done (s.kTestEnd n (s.aon.k.getLsbD n.val == closed)).showK
  else done s

/-- A sample of MON_IU1 or MON_IU2 that has changed sign is a zero crossing, and the time from the one before gives the speed of
a shorted set: half a period of the electrical frequency (R215). -/
def State.crossing (s : State) (k : Fin 2) (iu : BitVec 12) : State :=
  let neg := decide (iu.toNat < 2048)
  let was := s.mon.crossNeg[k]
  let s := s.modMon (fun m => { m with crossNeg := m.crossNeg.set k (some neg) })
  if was == some neg || was == none then s else
  let w := match s.mon.crossAt[k] with
    | some t => if t < s.time then some (Config.quot (piNum * 80000000 * 1000 : Nat) ((s.time - t) * piDen : Nat)).toNat else none
    | none => none
  s.modMon (fun m => { m with
    crossAt := m.crossAt.set k (some s.time)
    sst := { m.sst with sc := match w with | some v => some v | none => m.sst.sc } })

/-- MON_CONVERTER_FRAME: an eight-slot frame of the monitor's converters completes (R367, R463): three pairs of samples of each
set give torque ceilings and zero crossings; slots 6 and 7 check the supplies, the references and the die temperature. -/
def execMonConverterFrame (f : MonFrame) (s : State) : Out :=
  if !s.mon.alive then done s else
  let gain := BitVec.ofNat 32 (s.safCfg F.SAF_MI_GAIN)
  let s := (List.finRange 3).foldl (fun (s : State) (k : Fin 3) =>
    let x := pairCurrent gain f.iu1[k] f.iv1[k]
    let y := pairCurrent gain f.iu2[k] f.iv2[k]
    let s := (s.crossing 0 f.iu1[k]).crossing 1 f.iu2[k]
    s.modMon (fun m => { m with
      tqSum := (fAdd m.tqSum.1 (s.ceiling x y), fAdd m.tqSum.2 (s.ceiling y x)), tqCnt := m.tqCnt + 1 })) s
  let bad := fun (mv : Nat) => mv < 4200 || mv > 5500
  let s := s.monLevel E.MON_SUPPLY (bad f.vsa || bad f.vsb || bad f.internal)
  let s := s.monLevel E.MON_ADC_REF f.refOff
  done (s.monLevel E.MON_TEMP (decide (f.temp > 150)))

/-- MON_SELF_TEST_FAIL: the monitor fails its self-test: it raises MON.SELF_TEST and stops its relay frames, so the lanes proceed
by R343. The stopped monitor drives no line: its holds and the safe-state line end (R37, R83, R360). -/
def execMonSelfTestFail (s : State) : Out :=
  if !s.mon.alive then done s else
  let s := s.monEv E.MON_SELF_TEST
  done (s.modMon (fun m => { m with alive := false }))

end Sys2Proof.Machine
end

