-- ==== Sys2Proof/Machine/Redundancy.lean ====
section
/-! DEFINITION. Two lanes beside each other (chapter 14): the link, heartbeats and verdicts, fail-over, split, journal, return,
retest and host token moves; and a lane's control-ready (R59 to R64). -/
namespace Sys2Proof.Machine

/-- RED_STAT.PEER of a lane from the state a heartbeat carries (R328, R351). -/
def peerCode (st : Nat) : Nat := if st == 1 || st == 2 || st == 3 then st else if st == 4 then 3 else 0

/-- The peer's heartbeat as a lane knows it: the direct one, else the relayed one. -/
def State.peerHb (s : State) (l : Lane) : Option Heartbeat :=
  let r := (s.lane l).red
  match r.hbDirect with
  | some h => some h
  | none => r.hbRelay

/-- The cause of a peer's failure as a lane records it (R333): 10 reset, the cause that a heartbeat with FAIL carried, else 1. -/
def State.peerCause (s : State) (l : Lane) : Nat :=
  let r := (s.lane l).red
  let from_ := fun (h : Option Heartbeat) => h.bind (fun h => if h.fail then some h.cause.toNat else none)
  if s.inReset l.other then 10
  else match from_ r.hbDirect with
    | some c => c
    | none => (from_ r.hbRelay).getD 1

/-- With the standby bridge of GEOM = 0b10, Lane B's state machine leaves READY as on CMD START (R338). -/
def State.standbyBridge (s : State) (l : Lane) : State :=
  if l == .B && s.fld .B F.TRC_SET_GEOM == 2 && s.flag .B F.RED_CFG_STBY_BR then (s.smCmd .B 2).getD s else s

/-- A lane declares its peer failed (R331, R335): recorded and reported; the shares, the converter and the token follow at the
next fast-cycle start. -/
def State.peerFails (s : State) (l : Lane) : State :=
  let r := (s.lane l).red
  if !s.ready l || s.failed l || r.peerFailed then s else
  let c := s.peerCause l
  let s := s.modRed l (fun r => { r with peerFailed := true, ramp := none })
  let s := s.modDcl l (fun d => { d with peerLost := true })
  let s := (s.bump l F.RED_FO_FO_CNT).put l F.RED_FO_LAST_CAUSE c
  let s := s.put l F.RED_FO_LAST_DET (sat 16 ((s.time - r.hbTime) / 8))
  let s := s.putWord l F.RED_FO_TS_LO_TS.addr ((s.stamp l).setWidth 32)
  let s := s.putWord l F.RED_FO_TS_HI_TS.addr ((s.stamp l >>> 32).setWidth 32)
  let s := (s.put l F.RED_STAT_PEER (if s.inReset l.other then 4 else 3)).put l F.RED_STAT_PEER_CAUSE c
  let s := s.putFlag l F.RED_STAT_RETURNING false
  let s := s.levelEv l E.RED_PEER_FAILED true
  s.standbyBridge l

/-- The Conjunction link is down as a lane finds it (R342): island torque mode, no lock, no copies. With Lane B as token holder
its charger enters FAULT with cause 11 (R294, R305). -/
def State.linkDown (s : State) (l : Lane) : State :=
  if s.inReset l || !s.linkUp l then s else
  let s := (s.putFlag l F.CONJ_STAT_LINK_UP false).putFlag l F.CONJ_STAT_TRAINED false
  let s := (s.putFlag l F.CONJ_STAT_COPY_VALID false).putFlag l F.RED_STAT_CONJ_OK false
  let s := (s.putFlag l F.RED_STAT_ISLAND_MODE true).putFlag l F.RED_STAT_SUBJ_OK false
  let s := s.modRed l (fun r => { r with copiesOk := 0, rxCnt := none, divGood := 0, divBad := 0 })
  let s := s.modLane l (fun x => { x with sess := x.sess.map (fun e => { e with
    periods := e.periods.map (fun p => { p with linkLost := true }) }) })
  let s := (s.levelEv l E.CONJ_LINK_DOWN true).lockLost l
  if l == .B && s.holdsAny .B then s.chgFault .B 11 else s

/-- A lane declares a split (R344): its split timer runs from SPLIT_TOL. -/
def State.split (s : State) (l : Lane) : State :=
  if s.flag l F.RED_STAT_SPLIT then s else
  let s := s.putFlag l F.RED_STAT_SPLIT true
  let s := s.modRed l (fun r => { r with splitAt := s.time, haveDirect := 0, haveRelay := 0 })
  let tol := s.fld l F.RED_CFG_SPLIT_TOL
  let s := s.put l F.RED_SPLIT_LEFT_LEFT (if tol == 0 then 0xFFFF else tol)
  s.levelEv l E.RED_SPLIT true

/-- The end of a split (R344): the timer stops, and an SS1 already begun completes. -/
def State.splitEnd (s : State) (l : Lane) : State :=
  let s := (s.putFlag l F.RED_STAT_SPLIT false).put l F.RED_SPLIT_LEFT_LEFT 0
  (s.levelEv l E.RED_SPLIT false).pulseEv l E.RED_SPLIT_END

/-- STATE_COPY: the peer's state copy arrives in B8 (R327): valid when its CRC is good, VALID is set and its counter is one above
the previous one's. -/
def execStateCopy (l : Lane) (c : StateCopy) (crcOk : Bool) (s : State) : Out :=
  if !s.ready l || !s.linkUp l then done s else
  let next := match (s.lane l).red.rxCnt with
    | some n => c.counter == n + 1
    | none => true
  let s := s.modRed l (fun r => { r with rxCnt := some c.counter })
  if crcOk && c.valid && next then
    let s := s.modRed l (fun r => { r with copy := some c, copiesOk := r.copiesOk + 1, copyAge := 0 })
    let s := (s.put l F.CONJ_AGE_COPY_SEQ (c.counter.toNat % 65536)).put l F.CONJ_AGE_AGE 0
    let s := s.putFlag l F.CONJ_STAT_COPY_VALID true
    -- the standby compares its counts with the owner's (R319)
    done (if s.holdsAny l then s else (List.finRange 2).foldl (fun (s : State) (a : Fin 2) =>
      let own := signed 32 (s.word l (F.ACT_POS_POS a.val).addr).toNat
      let n := if (own - signed 32 c.act[a].pos.toNat).natAbs > 1 then (s.lane l).act[a].posBad + 1 else 0
      let s := s.modAct l a (fun x => { x with posBad := if n ≥ 3 then 0 else n })
      if n ≥ 3 then (s.putWord l (F.ACT_POS_POS a.val).addr c.act[a].pos).pulseEv l E.ACT_POS_DISAGREE else s) s)
  else
    let s := s.modRed l (fun r => { r with copiesOk := 0 })
    let s := s.bump l F.CONJ_CNT_COPY_INV
    if crcOk then done s else
      let s := (s.bump l F.CONJ_CNT_CRC).pulseEv l E.CONJ_CRC
      let s := s.modRed l (fun r => { r with crcErrs := r.crcErrs + 1 })
      done (if (s.lane l).red.crcErrs > s.fld l F.CONJ_CFG_CRC_LIM then s.linkDown l else s)

/-- The monitor's position estimate of a lane advanced by a reported speed over the time since the last heartbeat, in 2⁻³² of 1/256
revolution (R365). -/
def posStep (w : Word) (dt pp : Nat) : Int :=
  Config.quot (fVal w * (dt * 256 * 2 ^ 32 * piDen : Nat)) (2 ^ 149 * 80000000 * 2 * piNum * pp : Nat)

/-- A heartbeat at the monitor (R328 to R330, R332, R363 to R365): it ends the present window, FAIL declares its lane failed, and
the limits are checked. -/
def State.hbMon (s : State) (x : Lane) (h : Heartbeat) : State :=
  let last := s.mon.hb.get x
  if !s.mon.alive || last.any (fun p => p.1.counter == h.counter) then s else
  let dt := match last with
    | some p => s.time - p.2
    | none => 0
  let pp := s.mfld F.MON_SST_CFG2_PP
  let step := if h.speedValid then posStep h.speed dt pp else 0
  let y := x.other
  let s := s.modMon (fun m => { m with
    hb := m.hb.set x (some (h, s.time)), missHb := m.missHb.set x 0, pos := m.pos.mod x (· + step)
    peerBlind := (m.peerBlind.set x true).mod y (fun b => b && !h.peerSeen) })
  let s := (s.mputFlag F.MON_RED_STAT_ISOLATED false).monLevel E.MON_ISOLATED false
  let s := if h.fail then s.declare x else s
  s.limitCheck.pgCheck

/-- A heartbeat at a lane on the direct path (R328, R329, R350, R351). -/
def State.hbDirectIn (s : State) (l : Lane) (h : Heartbeat) (crcOk : Bool) : State :=
  if !s.ready l then s
  else if !crcOk then
    let s := (s.bump l F.CONJ_CNT_CRC).pulseEv l E.CONJ_CRC
    let s := s.modRed l (fun r => { r with crcErrs := r.crcErrs + 1 })
    if (s.lane l).red.crcErrs > s.fld l F.CONJ_CFG_CRC_LIM then s.linkDown l else s
  else if (s.lane l).red.hbDirect.any (fun p => p.counter == h.counter) then s
  else
    let s := s.modRed l (fun r => { r with hbDirect := some h, gotDirect := true, hbTime := s.time })
    let s := if (s.lane l).red.peerFailed then s else s.put l F.RED_STAT_PEER (peerCode h.state.toNat)
    if h.fail then s.put l F.RED_STAT_PEER_CAUSE h.cause.toNat else s

/-- HEARTBEAT: a heartbeat arrives on a path; a frame with a bad CRC is no heartbeat, and counts on the link (R328, R329, R333). -/
def execHeartbeat (p : HbPath) (h : Heartbeat) (crcOk : Bool) (s : State) : Out :=
  match p with
  | .direct l => done (s.hbDirectIn l h crcOk)
  | .toMon x => done (if crcOk then s.hbMon x h else s)
  | .relayed l => done (if s.ready l && crcOk then s.modRed l (fun r => { r with hbRelay := some h }) else s)

/-- The monitor's relay path is back in a lane (R343, R360): its own selection ends, and a stop that it executes itself goes on
under the monitor, with the same cause. -/
def State.relayBack (s : State) (l : Lane) : State :=
  let s := (s.putFlag l F.RED_STAT_MON_OK true).levelEv l E.RED_MON_LOST false
  let s := if s.flag l F.RED_STAT_MON_SS then (s.putFlag l F.RED_STAT_MON_SS false).showSel else s
  match (s.lane l).red.ownStop with
  | some c => (s.modRed l (fun r => { r with ownStop := none })).askSto l c
  | none => s

/-- RELAY_FRAME: a lane receives the monitor's relay frame, which carries the peer's heartbeat or marks it absent, and the
monitor's declarations (R328, R330, R331). -/
def execRelayFrame (l : Lane) (s : State) : Out :=
  if !s.ready l || !s.mon.alive then done s else
  let p := l.other
  let hb := if s.mon.missHb.get p == 0 && !s.inReset p then (s.mon.hb.get p).map (·.1) else none
  let s := s.modRed l (fun r => { r with
    gotRelay := true, missRelay := 0, peerAbsent := hb.isNone
    hbRelay := match hb with | some h => some h | none => r.hbRelay })
  let s := s.relayBack l
  let s := if s.declared p then s.peerFails l else s
  done (if s.declared l && s.self l == 2 then s.selfFail l 1 else s)

/-- The windows of a lane (R329, R331, R342 to R344): missing heartbeats are counted and the verdict table applied. A direct
heartbeat can be missing only once one has arrived since the link came up. -/
def State.laneWindow (s : State) (l : Lane) : State :=
  if !s.ready l then s else
  let r := (s.lane l).red
  let gd := r.gotDirect
  let gr := r.gotRelay
  let seen := r.hbDirect.isSome
  let md := if gd || !seen then 0 else r.missDirect + 1
  let mr := if gr then 0 else r.missRelay + 1
  let s := s.modRed l (fun r => { r with
    gotDirect := false, gotRelay := false, missDirect := md, missRelay := mr
    haveDirect := if gd then r.haveDirect + 1 else 0, haveRelay := if gr then r.haveRelay + 1 else 0
    cleanHb := if s.self l == 1 then r.cleanHb + 1 else r.cleanHb })
  let s := (s.putFlag l F.CONJ_STAT_HB_DIRECT gd).putFlag l F.CONJ_STAT_HB_RELAY gr
  let s := if seen && !gd then (s.bump l F.CONJ_CNT_HB_MISS).pulseEv l E.CONJ_HB_MISS else s
  let s := if md ≥ 3 then s.linkDown l else s
  let lost := decide (mr ≥ 3)
  let s := if lost && s.monOk l then s.putFlag l F.RED_STAT_MON_OK false else s
  let s := if lost && md < 3 then
      (s.putFlag l F.RED_STAT_MON_SS (s.linkUp l)).levelEv l E.RED_MON_LOST true else s
  let s := if md ≥ 3 && !lost && (r.peerAbsent || s.declared l.other) then s.peerFails l else s
  if s.flag l F.RED_STAT_SPLIT then
    let r := (s.lane l).red
    if r.haveDirect ≥ 3 || r.haveRelay ≥ 3 then s.splitEnd l else s
  else if md ≥ 3 && lost then s.split l
  else s

/-- The islands of a lane's set report its stream lost: every usable one, and at least one is usable (R330, R332). -/
def State.setSilent (s : State) (x : Lane) : Bool :=
  let us := (setChans x).filter (fun n => s.hv[n].usable)
  !us.isEmpty && us.all (fun n => s.hv[n].lost)

/-- The islands of a lane's set report valid streams (R332). -/
def State.setValid (s : State) (x : Lane) : Bool := (setChans x).any (fun n => s.hv[n].usable && !s.hv[n].lost)

/-- A window in which a lane's heartbeat has been missing at the monitor (R329, R330, R332). -/
def State.monWindow (s : State) (x : Lane) : State :=
  if !s.mon.alive || s.declared x || (s.mon.hb.get x).isNone then s else
  let n := s.mon.missHb.get x + 1
  let s := (s.modMon (fun m => { m with missHb := m.missHb.set x n })).monEv E.MON_HB_MISS
  if n < 3 then s.pgCheck else
  let y := x.other
  let quiet := s.mon.missHb.get y ≥ 3 || (s.mon.hb.get y).isNone
  let s :=
    if !quiet then (if s.mon.peerBlind.get x then s.declare x else s)
    else if s.setSilent x then
      if s.mflag F.MON_RED_STAT_ISOLATED then
        (((s.modMon (fun m => { m with holdFail := m.holdFail.set x true })).holdSet x).placeSet x).publish
      else s.declare x
    else if (s.mon.hb.get y).isSome && s.setValid x && s.setValid y then
      (s.mputFlag F.MON_RED_STAT_ISOLATED true).monLevel E.MON_ISOLATED true
    else s
  s.pgCheck

/-- HEARTBEAT_WINDOW: a window of a lane ends, or a window of the monitor for a lane ends without its heartbeat (R329). -/
def execHeartbeatWindow (w : Seer) (x : Lane) (s : State) : Out :=
  match w with
  | .lane l => done (s.laneWindow l)
  | .mon => done (s.monWindow x)

/-- SPLIT_TIMEOUT: the split timer expires: RED.SPLIT_TIMEOUT, and SS1 on the lane's own set (R344). No rule names the cause that
SAF_STAT shows for it. -/
def execSplitTimeout (l : Lane) (s : State) : Out :=
  if s.inReset l || !s.flag l F.RED_STAT_SPLIT || s.fld l F.RED_CFG_SPLIT_TOL == 0 then done s else
  let s := (s.put l F.RED_SPLIT_LEFT_LEFT 0).pulseEv l E.RED_SPLIT_TIMEOUT
  let (w, s) := s.fresh
  done (s.ownSs1Start l (bits w 0 4))

/-- AUTO_RESET: RST_DLY after a declaration the monitor resets the failed lane; the RETIRE_N-th such reset within 60 s is not
released (R336). -/
def execAutoReset (x : Lane) (s : State) : Out :=
  if !s.mon.alive || !s.mflag F.MON_RED_CFG_AUTO_RST || !s.declared x || s.inReset x then done s else
  let ts := s.time :: (s.mon.resets.get x).filter (fun t => s.time < t + ms 60000)
  let s := s.modMon (fun m => { m with resets := m.resets.set x ts })
  let n := s.mfld F.MON_RED_CFG_RETIRE_N
  if n != 0 && ts.length ≥ n then
    let s := s.enterReset x F.RST_CAUSE_MON (fun h => { h with mon := true, retired := true })
    let s := match x with
      | .A => s.mputFlag F.MON_RED_STAT_RETIRED_A true
      | .B => s.mputFlag F.MON_RED_STAT_RETIRED_B true
    done (s.monEv E.MON_LANE_RETIRED)
  else done (s.enterReset x F.RST_CAUSE_MON (fun h => { h with mon := true }))

/-- UNRETIRE_A and UNRETIRE_B: MON_RED_CTRL through a lane (R336, R353). Through the lane itself the write is rejected; where the
lane is not retired it has no effect. -/
def State.unretire (s : State) (l x : Lane) : State :=
  if l == x then s.reject l .stateErr
  else if !(s.lane x).hold.retired then s.reply l .ok
  else
    let s := match x with
      | .A => s.mputFlag F.MON_RED_STAT_RETIRED_A false
      | .B => s.mputFlag F.MON_RED_STAT_RETIRED_B false
    let s := s.modHold x (fun h => { h with retired := false })
    (s.release x).reply l .ok
def execUnretireA (l : Lane) (s : State) : Out := done (s.writing l 0xC1060 (fun s => s.unretire l .A))
def execUnretireB (l : Lane) (s : State) : Out := done (s.writing l 0xC1060 (fun s => s.unretire l .B))

/-- RED_JRNL.FILL follows the unapplied entries. -/
def State.showJournal (s : State) (l : Lane) : State := s.put l F.RED_JRNL_FILL (sat 11 (s.lane l).red.journal.length)

/-- The number `n` newer than `h` (R105). -/
def newerBy (n h : BitVec 16) : Nat := (n - h).toNat
def isNewer (n h : BitVec 16) : Bool := 1 ≤ newerBy n h && newerBy n h ≤ 32767

/-- RED_SEQ01 and RED_SEQ23 show the highest accepted numbers (R351). -/
def State.showSeq (s : State) (l : Lane) : State :=
  let h := fun (k : Fin 4) => (s.lane l).sess[k].highest.toNat
  (((s.put l F.RED_SEQ01_SESS0 (h 0)).put l F.RED_SEQ01_SESS1 (h 1)).put l F.RED_SEQ23_SESS2 (h 2)).put l F.RED_SEQ23_SESS3 (h 3)

/-- A number entered in a lane's record of a session with the status of its request (R105). Numbers more than 1,023 below the
highest leave the record. -/
def State.accept (s : State) (l : Lane) (k : Fin 4) (n : BitVec 16) (st : Status) : State :=
  (s.modLane l (fun x =>
    let e := x.sess[k]
    let h := if isNewer n e.highest then n else e.highest
    { x with sess := x.sess.set k { e with
        highest := h, seen := (n, st) :: e.seen.filter (fun p => (h - p.1).toNat < 1024 && p.1 != n)
        seed := e.seed.filter (fun z => (h - z).toNat < 1024) } })).showSeq l

/-- A journal entry placed in a lane's B9 (R339): one marked applied only enters its number; another waits, once. -/
def State.journalIn (s : State) (l : Lane) (e : JEntry) : State :=
  if e.applied then s.accept l e.sess e.seq .ok
  else if (s.lane l).red.journal.any (fun x => x.sess == e.sess && x.seq == e.seq) || (s.lane l).red.journal.length ≥ 1024 then s
  else (s.modRed l (fun r => { r with journal := r.journal ++ [e] })).showJournal l

/-- JOURNAL_ENTRY: a mirrored write arrives in a lane's journal. -/
def execJournalEntry (l : Lane) (e : JEntry) (s : State) : Out :=
  done (if !s.ready l || !s.linkUp l then s else s.journalIn l e)

/-- LINK_RETRAIN: a down link attempts training; the one at start-up is no retraining (R60, R342, R352). -/
def execLinkRetrain (l : Lane) (ok : Bool) (s : State) : Out :=
  if s.inReset l || s.linkUp l then done s else
  let s := if s.ready l then s.bump l F.CONJ_CNT_RETRAIN else s
  done (s.putFlag l F.CONJ_STAT_TRAINED ok)

/-- The manifest digest of the image a lane runs (R63). -/
def State.digest (s : State) (l : Lane) : BitVec 256 := let b := (s.lane l).boot; b.slot[b.cur].digest

/-- RED_HEALTH.IMAGE: manifest and PAIR_DIGEST agree (R351). -/
def State.showImage (s : State) (l : Lane) : State :=
  s.putFlag l F.RED_HEALTH_IMAGE (!(s.lane l).boot.mismatch && (s.flag l F.CE_STAT_PEER_MATCH || !s.ready l.other))

/-- A lane's image differs from its peer's: enables are refused, and SYS.IMAGE_MISMATCH stands (R63). -/
def State.setMismatch (s : State) (l : Lane) (b : Bool) : State :=
  ((s.modBoot l (fun x => { x with mismatch := b })).levelEv l E.SYS_IMAGE_MISMATCH b).showImage l

/-- The directory of a lane, as the bytes it lists in the directory window (R99). -/
def State.directory (s : State) (l : Lane) : List Host.Cell :=
  (s.lane l).mem.filter (fun c => 0x800000 ≤ c.1 && c.1 < 0x820000)

/-- The lanes compare images, law tables and directories over the link (R63, R99, R175). A lane that returns with another image
does not affect the running one. -/
def State.compareImages (s : State) : State :=
  if !s.ready .A || !s.ready .B || !s.linkUp .A || !s.linkUp .B then s else
  let differ := s.digest .A != s.digest .B
  let s := s.both (fun l s => if s.self l.other == 1 && s.self l == 2 then s else s.setMismatch l differ)
  let same := s.directory .A == s.directory .B
  let s := s.both (fun l s => s.putFlag l F.DIR_STAT_PEER_MATCH same)
  s.pairMatch.both (fun l s => s.showImage l)

/-- LINK_UP: the link is up again after training and 16 CRC-good messages (R342). -/
def execLinkUp (l : Lane) (s : State) : Out :=
  if s.inReset l || s.linkUp l || !s.flag l F.CONJ_STAT_TRAINED then done s else
  let s := (s.putFlag l F.CONJ_STAT_LINK_UP true).putFlag l F.RED_STAT_CONJ_OK true
  let s := s.putFlag l F.RED_STAT_ISLAND_MODE false
  let s := s.modRed l (fun r => { r with hbDirect := none, missDirect := 0, crcErrs := 0, rxCnt := none })
  done ((s.levelEv l E.CONJ_LINK_DOWN false).pulseEv l E.CONJ_LINK_UP).compareImages

/-- The monitor counts a lane as running (R346); its peer takes the failure as ended. With `free` the hold on its set is released
(R347). -/
def State.countRunning (s : State) (x : Lane) (free : Bool) : State :=
  let s := s.modMon (fun m => if !m.alive then m else { m with
    counted := m.counted.set x true, holdFail := if free then m.holdFail.set x false else m.holdFail
    freeA := m.freeA && x != .A })
  let s := if !s.mon.alive then s else match x with
    | .A => s.mputFlag F.MON_RED_STAT_FAILED_A false
    | .B => s.mputFlag F.MON_RED_STAT_FAILED_B false
  let p := x.other
  let s := if s.inReset p then s else
    ((s.modRed p (fun r => { r with peerFailed := false })).levelEv p E.RED_PEER_FAILED false).put p F.RED_STAT_PEER 2
  (if free then s.placeSet x else s).publish

/-- A lane runs without a running peer (R25, R59, R64, R105): it is counted at once, and takes the token where its peer cannot
hold it. -/
def State.runAlone (s : State) (l : Lane) : State :=
  let p := l.other
  let s := (s.put l F.RED_STAT_SELF 2).modRed l (fun r => { r with peerFailed := s.declared p || s.inReset p })
  let s := s.countRunning l true
  if s.mon.alive && s.token == p && (s.inReset p || s.declared p) then s.driveToken l else s

/-- The image's configuration applied to a lane's own pages: writable fields alone (R60). The monitor takes the dual-write values
of the SAF and CLS pages with them. -/
def State.configure (s : State) (l : Lane) (c : List (Nat × Word)) : State :=
  c.foldl (fun s aw =>
    if monAddr aw.1 then s else
    match regFields aw.1 with
    | none => s
    | some fs =>
      let w := fs.foldl (fun w f => if f.acc == .rw || f.acc == .rwl || f.acc == .rwq then setBits w f.lo f.w (bits aw.2 f.lo f.w) else w) (s.word l aw.1)
      let s := s.putWord l aw.1 w
      let saf := aw.1 / 0x1000 == 0x90 || aw.1 / 0x1000 == 0x91
      if saf && !(s.lane l).boot.mismatch then s.modMon (fun m => { m with regs := m.regs.write aw.1 w }) else s) s

/-- The bytes that the image copies into a lane's windows (R60, R175). -/
def State.loadImage (s : State) (l : Lane) (bs : List (Nat × Byte)) : State :=
  s.modLane l (fun x => { x with mem := bs.foldl (fun m c => if 0x400000 ≤ c.1 && c.1 < 0xC00000 then memWrite 0 m c.1 c.2 else m) x.mem })

/-- The used entries of a lane's directory (R99, R100): those whose TYPE is not 0. -/
def State.dirCount (s : State) (l : Lane) : Nat :=
  ((s.directory l).filter (fun c => c.1 % 8 == 4 && c.2.toNat / 16 != 0)).length

/-- Configuration onwards of a lane's start-up (R60, R348): configuration, windows, law table, health. -/
def State.startUp (s : State) (l : Lane) : State :=
  let s := match (s.lane l).boot.img with
    | some r => (s.loadImage l r.load).configure l r.config
    | none => s
  let s := s.put l F.DIR_STAT_COUNT (sat 15 (s.dirCount l))
  let s := (s.putFlag l F.CLK_STAT_XTAL_OK true).putFlag l F.CLK_STAT_PLL_LOCK true
  let s := s.put l ⟨F.RED_HEALTH_ALL.addr, 0, 10⟩ 0x3FF
  let s := s.modBoot l (fun b => { b with phase := .ready, sine := true })
  let s := (s.showMmax l).commitTable l
  let s := s.modRed l (fun r => { r with copiesOk := 0, cleanHb := 0, failSend := 0, retest := false })
  let p := l.other
  let s := if s.ready p && s.self p == 2 && (s.lane l).boot.late then s.put l F.RED_STAT_SELF 1 else s.runAlone l
  s.compareImages.clsJudge.showK

/-- CONTROL_READY: start-up tests and fabric loopback are complete (R59, R60, R63, R64). Lane A is timing master after nPOR; a lane
that comes later locks to the running one (R25). -/
def execControlReady (l : Lane) (s : State) : Out :=
  let b := (s.lane l).boot
  if s.inReset l || b.phase != .starting || !b.verified || b.img.isNone then done s else
  let p := l.other
  let s := s.startUp l
  let keep := s.ready p && (b.late || l == .B)
  let s := s.modRed l (fun r => { r with master := !keep })
  done (s.modRed p (fun r => { r with master := keep }))

/-- An entry put into a list sorted by a key. -/
def sortIn (key : JEntry → Nat) (e : JEntry) : List JEntry → List JEntry
  | [] => [e]
  | x :: t => if key e < key x then e :: x :: t else x :: sortIn key e t

/-- The entries of a session that an owner's highest number covers, in sequence order (R301, R340). -/
def dueEntries (j : List JEntry) (k : Fin 4) (ok : BitVec 16 → Bool) (h : BitVec 16) : List JEntry :=
  (j.filter (fun e => e.sess == k && ok e.seq)).foldl (fun a e => sortIn (fun x => ((x.seq - h).toInt + 32768).toNat) e a) []

/-- A number is not newer than an owner's highest. -/
def notNewer (h n : BitVec 16) : Bool := !isNewer n h

/-- The lane is resynchronised (R346). -/
def State.resynced (s : State) (l : Lane) : Bool :=
  let p := l.other
  let r := (s.lane l).red
  let h := fun (k : Fin 4) => match r.copy with | some c => c.seq[k] | none => 0
  s.self l == 1 && s.ready p && s.self p == 2 && s.linkUp l && s.linkUp p && !(s.lane l).boot.mismatch &&
  s.flag l F.CE_STAT_PEER_MATCH && s.flag l F.CLK_STAT_PEER_LOCK && r.copiesOk ≥ 16 && r.cleanHb ≥ 16 &&
  (List.finRange 4).all (fun k => (dueEntries r.journal k (notNewer (h k)) (h k)).isEmpty)

/-- A lane's sequence record seeded from the running lane's (R105). -/
def State.seedFrom (s : State) (l p : Lane) : State :=
  let y := (s.lane p).sess
  (s.modLane l (fun x => { x with sess := Vector.ofFn (fun k : Fin 4 =>
    { x.sess[k] with highest := y[k].highest, seed := some y[k].highest, seen := [] }) })).showSeq l

/-- PEER_RETURN: a returning lane is resynchronised: the monitor counts it as running, and it takes back its set, or waits for
REJOIN (R346, R347). -/
def execPeerReturn (l : Lane) (s : State) : Out :=
  if !s.ready l || !s.resynced l then done s else
  let p := l.other
  let s := (s.seedFrom l p).put l F.RED_STAT_SELF 2
  let s := (s.countRunning l false).pulseEv p E.RED_PEER_RETURN
  let s := s.put l F.RED_STAT_PEER 2
  let s := s.modRed l (fun r => { r with peerFailed := false, lost := true })
  done (if s.flag l F.RED_CFG_RETURN_EN then s.modRed l (fun r => { r with rejoin := true })
        else s.putFlag l F.RED_STAT_HELD true)

/-- RETURN_DONE: the returning lane's share ramp has ended at its configured share (R347). -/
def execReturnDone (l : Lane) (s : State) : Out :=
  if s.inReset l || !s.flag l F.RED_STAT_RETURNING || (s.lane l).red.ramp.isSome then done s else
  done ((s.putFlag l F.RED_STAT_RETURNING false).pulseEv l E.RED_RETURN_DONE)

/-- A command of RED_CTRL through a lane, accepted on a condition (R351). -/
def State.redCtrl (s : State) (l : Lane) (ok : State → Bool) (f : State → State) : State :=
  s.writing l 0x80040 (fun s => if ok s then (f s).reply l .ok else s.reject l .stateErr)

/-- SPLIT_CMD CONTINUE: the split timer restarts (R344). -/
def State.splitContinue (s : State) (l : Lane) : State :=
  let tol := s.fld l F.RED_CFG_SPLIT_TOL
  (s.modRed l (fun r => { r with splitAt := s.time })).put l F.RED_SPLIT_LEFT_LEFT (if tol == 0 then 0xFFFF else tol)
def execSplitContinue (l : Lane) (s : State) : Out :=
  done (s.redCtrl l (fun s => s.flag l F.RED_STAT_SPLIT) (fun s => s.splitContinue l))

/-- SPLIT_CMD SS1: SS1 on the lane's own set at once (R344), a register request (cause 10). -/
def execSplitSs1 (l : Lane) (s : State) : Out :=
  done (s.redCtrl l (fun s => s.flag l F.RED_STAT_SPLIT) (fun s => s.ownSs1Start l 10))

/-- RED_CTRL.REJOIN: a held lane takes back its set at the next fast-cycle start (R347); a lane that is not held rejects it. -/
def State.rejoinNow (s : State) (l : Lane) : State :=
  (s.putFlag l F.RED_STAT_HELD false).modRed l (fun r => { r with rejoin := true })
def execRejoin (l : Lane) (s : State) : Out :=
  done (s.redCtrl l (fun s => s.flag l F.RED_STAT_HELD) (fun s => s.rejoinNow l))

/-- The conditions of a host token move (R349). -/
def State.moveOk (s : State) : Bool :=
  s.ready .A && s.ready .B && s.self .A == 2 && s.self .B == 2 && s.linkUp .A && s.linkUp .B &&
  s.flag s.token.other F.RED_STAT_SUBJ_OK && !s.flag .A F.RED_STAT_SPLIT && !s.flag .B F.RED_STAT_SPLIT

/-- RED_CTRL.TOKEN_MOVE: the move is asked of the monitor (R349). -/
def State.moveAsk (s : State) : State := s.modMon (fun m => { m with moveReq := some s.token.other })
def execTokenMove (l : Lane) (s : State) : Out := done (s.redCtrl l (fun s => s.moveOk) (fun s => s.moveAsk))

/-- The newest valid copy that a lane may use: not stale (R327). -/
def State.goodCopy (s : State) (l : Lane) : Option StateCopy :=
  if (s.lane l).red.copyAge ≤ s.fld l F.RED_COPY_COPY_AGE then (s.lane l).red.copy else none

/-- The sequence states of the token functions taken from a copy, as they are (R302, R319, R349). -/
def State.takeStates (s : State) (l : Lane) (c : StateCopy) : State :=
  let s := ((s.put l F.CHG_STAT_STATE c.chgState.toNat).put l F.AFE_STAT_STATE c.afeState.toNat).put l F.DAB_STAT_STATE c.dabState.toNat
  let s := s.modChg l (fun x => { x with ibat := c.ibat })
  (List.finRange 2).foldl (fun (s : State) (a : Fin 2) =>
    let x := c.act[a]
    let s := (s.put l (F.ACT_STAT_STATE a.val) x.state.toNat).putWord l (F.ACT_POS_POS a.val).addr x.pos
    let s := (s.putFlag l (F.ACT_STAT_REF a.val) x.ref).put l (F.ACT_END_TRAVEL a.val) x.travel.toNat
    s.put l (F.ACT_TGT_TARGET a.val) x.target.toNat) s

/-- The loops that belong to the states taken are closed in the new owner (R293, R316). -/
def State.takeLoops (s : State) (l : Lane) : State :=
  let st := s.fld l F.CHG_STAT_STATE
  let s := if 3 ≤ st && st ≤ 7 || st == 10 then s.loopAsk l 5 else s
  let s := if 5 ≤ st && st ≤ 7 || st == 10 then s.loopAsk l 4 else s
  (List.finRange 2).foldl (fun (s : State) (a : Fin 2) =>
    let st := s.fld l (F.ACT_STAT_STATE a.val)
    if 1 ≤ st && st ≤ 5 then s.loopAsk l (a.val + 6) else s) s

/-- S2 is renewed by a new owner whose session had it closed (R292, R302). -/
def State.renewS2 (s : State) (l : Lane) : State :=
  let st := s.fld l F.CHG_STAT_STATE
  if s.aon.cpS2 && 2 ≤ st && st ≤ 8 && !s.v2l l then s.putFlag l F.CHG_STAT_S2 true else s

/-- The new owner of a host token move continues from the state loaded (R349): no sequence state restarts. -/
def State.continueFrom (s : State) (l : Lane) : State :=
  match s.goodCopy l with
  | some c => ((s.takeStates l c).takeLoops l).renewS2 l
  | none => s

/-- TOKEN_MOVE_EXECUTE: a fast-cycle start at which both lanes report the same highest applied numbers (R349). A move whose
conditions have failed is dropped (R350). -/
def execTokenMoveExecute (s : State) : Out :=
  match s.mon.moveReq with
  | none => done s
  | some y =>
    if !s.mon.alive then done s
    else if !s.moveOk then done (s.modMon (fun m => { m with moveReq := none }))
    else if (List.finRange 4).all (fun k => (s.lane .A).sess[k].highest == (s.lane .B).sess[k].highest) then
      done (((s.modMon (fun m => { m with moveReq := none })).driveToken y).continueFrom y)
    else done s

/-- RED_CTRL.RETEST through a lane in FAILED with an eligible cause (R348, R408). -/
def State.retestNow (s : State) (l : Lane) : State :=
  let c := s.fld l F.RED_STAT_SELF_CAUSE
  if s.failed l && [3, 4, 5, 7, 8].contains c then
    ((s.put l F.RED_STAT_SELF 4).modRed l (fun r => { r with retest := true })).reply l .ok
  else s.reject l .stateErr
def execRetest (l : Lane) (s : State) : Out :=
  if s.inReset l then done s else
  match s.turnAway l 0x80040 true true with
  | some st => done (s.reject l st)
  | none => done (s.retestNow l)

/-- RETEST_DONE: the retest passes, and the lane resynchronises without a reset; or it fails, and the lane stays FAILED (R348). -/
def execRetestDone (l : Lane) (pass : Bool) (s : State) : Out :=
  if !s.ready l || s.self l != 4 then done s else
  if !pass then done ((s.put l F.RED_STAT_SELF 3).modRed l (fun r => { r with retest := false }))
  else
    let s := (s.put l F.RED_STAT_SELF_CAUSE 0).levelEv l E.RED_SELF_FAILED false
    let s := s.modBoot l (fun b => { b with late := true })
    done (s.startUp l)

/-- RED_CLR.JRNL, RED_CLR.FO and CONJ_CLR.CNT (R351, R352). -/
def State.clrJrnl (s : State) (l : Lane) : State := s.put l F.RED_JRNL_FULL_CNT 0
def State.clrFo (s : State) (l : Lane) : State := (s.put l F.RED_FO_FO_CNT 0).put l F.RED_FO_LAST_CAUSE 0
def State.clrConj (s : State) (l : Lane) : State := s.putWord l F.CONJ_CNT_CRC.addr 0
def execRedClrJrnl (l : Lane) (s : State) : Out := done (s.writing l 0x80088 (fun s => (s.clrJrnl l).reply l .ok))
def execRedClrFo (l : Lane) (s : State) : Out := done (s.writing l 0x80088 (fun s => (s.clrFo l).reply l .ok))
def execConjClrCnt (l : Lane) (s : State) : Out := done (s.writing l 0x81054 (fun s => (s.clrConj l).reply l .ok))

end Sys2Proof.Machine
end

