-- ==== Sys2Proof/Machine/Clause.lean ====
section
/-! DEFINITION. The CLAUSE layer of a lane (R374 to R380): telegrams checked, the watchdog, lane differences, and the status
telegrams that a transmit connection sends; and the CRC over the safety configuration (R382). -/
namespace Sys2Proof.Machine

/-- The CRC of R375 over a list of bytes. -/
def clsCrcBit (c : BitVec 32) : BitVec 32 := if c.getLsbD 0 then (c >>> 1) ^^^ 0xC8DF352F else c >>> 1
def clsCrcByte (c : BitVec 32) (b : Byte) : BitVec 32 :=
  (List.range 8).foldl (fun c _ => clsCrcBit c) (c ^^^ b.setWidth 32)
def clsCrc (bs : List Byte) : BitVec 32 := ~~~(bs.foldl clsCrcByte 0xFFFFFFFF)

/-- The safety data's length N, and the connection's identity (R374, R386). -/
def State.clsLen (s : State) (l : Lane) (n : Fin 8) : Nat := s.fld l (F.CLS_CFG_LEN_M4 n.val) + 4
def State.clsIdent (s : State) (l : Lane) (n : Fin 8) : Word := s.word l (F.CLS_ID_IDENT n.val).addr

def State.modCls (s : State) (l : Lane) (n : Fin 8) (f : ClsConn → ClsConn) : State :=
  s.modLane l (fun x => { x with cls := x.cls.set n (f x.cls[n]) })

/-- The more restrictive of two command data words, field by field (R378, R379). -/
def clsMeet (lim : Nat → Nat) (a b : Word) : Word :=
  let both := fun (k : Nat) => if bit a k && bit b k then 1#32 <<< k else 0#32
  let any := fun (k : Nat) => if bit a k || bit b k then 1#32 <<< k else 0#32
  let sls := if !bit a 2 then b &&& 0x1C#32 else if !bit b 2 then a &&& 0x1C#32
    else if lim (bits b 3 2) < lim (bits a 3 2) then b &&& 0x1C#32 else a &&& 0x1C#32
  both 0 ||| both 1 ||| sls ||| both 5 ||| both 6 ||| any 8 ||| (BitVec.ofNat 32 (min (bits a 16 16) (bits b 16 16)) <<< 16)

/-- The expiry of a running connection's watchdog (R377): CLS.WDOG, and SS1 with cause 5, on the lane's own set where the
monitor is out of reach. -/
def State.clsExpire (s : State) (l : Lane) (n : Fin 8) : State :=
  let s := (s.put l (F.CLS_STAT_STATE n.val) 3).bump l (F.CLS_CNT_EXPIRE n.val)
  let s := s.modCls l n (fun c => { c with gone := true, accepted := 0, crcAt := [] })
  let s := s.pulseEv l E.CLS_WDOG
  let s := if s.alone l then s.ownSs1Start l 5 else s
  (if s.heard l && !s.alone l then s.trigSs1 5 else s).clsJudge

/-- A CRC error on a connection (R376): counted; more than CRC_LIM of them in 1 s on a running one count as an expiry. -/
def State.clsBadCrc (s : State) (l : Lane) (n : Fin 8) : State :=
  let s := (s.bump l (F.CLS_STAT_CRC n.val)).pulseEv l E.CLS_CRC
  if s.fld l (F.CLS_STAT_STATE n.val) != 2 then s else
  let at_ := s.time :: ((s.lane l).cls[n].crcAt.filter (fun t => decide (s.time < t + ms 1000)))
  let s := s.modCls l n (fun c => { c with crcAt := at_ })
  if at_.length > s.safCfg F.CLS_CFG_CRC_LIM then s.clsExpire l n else s

/-- A telegram accepted (R376 to R379): the watchdog restarts, the data act, permissive ones from the second telegram on. -/
def State.clsAccept (s : State) (l : Lane) (n : Fin 8) (t : List Byte) : State :=
  let c := (s.lane l).cls[n]
  let seq := bytesNat ((t.drop 1).take 2)
  let texp := bytesNat ((t.drop 3).take 2)
  let new := BitVec.ofNat 32 (bytesNat ((t.drop 5).take 4))
  let k := c.accepted + 1
  let due := s.time + us (10 * min texp (s.fld l (F.CLS_WD_WD_MAX n.val)) + 100 * s.fld l (F.CLS_CFG_GRACE n.val))
  let data := if k ≥ 2 then new else clsMeet s.slsLim c.data new
  let s := (s.put l (F.CLS_STAT_SEQ n.val) seq).put l (F.CLS_STAT_STATE n.val) 2
  let s := s.modCls l n (fun c => { c with accepted := k, wdog := due, data := data, gone := c.gone && k < 2 })
  let s := s.clsJudge
  let s := if k ≥ 2 && bit new 7 then s.clsAck l else s
  if k ≥ 2 && bit new 9 then s.clsSlpSet l else s

/-- CLAUSE_RECEIVE: the telegram that has arrived for a receive connection is checked in the order of R376. -/
def execClauseReceive (l : Lane) (n : Fin 8) (s : State) : Out :=
  if !s.ready l || !s.flag l (F.CLS_CFG_EN n.val) || s.flag l (F.CLS_CFG_DIR n.val) then done s else
  match (s.lane l).cls[n].tel with
  | none => done s
  | some t =>
    let s := s.modCls l n (fun c => { c with tel := none })
    let len := s.clsLen l n
    let st := s.fld l (F.CLS_STAT_STATE n.val)
    if t.length < 9 + len then done (s.pulseEv l E.CLS_CRC)
    else if (clsCrc (wordBytes (s.clsIdent l n) ++ t.take (5 + len))).toNat != bytesNat ((t.drop (5 + len)).take 4) then
      done (s.clsBadCrc l n)
    else if bytesNat (t.take 1) != s.fld l (F.CLS_CFG_SID n.val) then
      done ((s.bump l (F.CLS_CNT_SIDERR n.val)).pulseEv l E.CLS_SID)
    else if st ≤ 1 then done (s.clsAccept l n t)
    else
      let d := (bytesNat ((t.drop 1).take 2) + 65536 - s.fld l (F.CLS_STAT_SEQ n.val)) % 65536
      if d == 0 then done (s.bump l (F.CLS_CNT_REPEAT n.val))
      else if d > s.fld l (F.CLS_CFG_SEQ_WIN n.val) then
        done ((s.bump l (F.CLS_CNT_SEQERR n.val)).pulseEv l E.CLS_SEQ)
      else done (s.clsAccept l n t)

/-- WDOG: a running receive connection's time expectation has passed (R376, R377). -/
def execWdog (l : Lane) (n : Fin 8) (s : State) : Out :=
  if !s.ready l || !s.flag l (F.CLS_CFG_EN n.val) || s.flag l (F.CLS_CFG_DIR n.val) ||
     s.fld l (F.CLS_STAT_STATE n.val) != 2 || s.time < (s.lane l).cls[n].wdog then done s
  else done (s.clsExpire l n)

/-- LANE_DIFF: a CLAUSE field has differed between the lanes for more than 100 ms (R379). -/
def execLaneDiff (s : State) : Out :=
  if s.heard .A && s.heard .B && s.clsLane .A != s.clsLane .B then
    done (s.both (fun l s => s.pulseEv l E.CLS_LANE_DIFF))
  else done s

/-- The RWL dual-write part of a register: its mask. -/
def dualMask (fs : List FieldDesc) : Word :=
  fs.foldl (fun m f => if f.dual && f.acc == .rwl then setBits m f.lo f.w (2 ^ f.w - 1) else m) 0

/-- SAF_CFG_CRC (R382): the CRC over the RWL dual-write parts of the registers of SAF, CLS and MON page 1, in address order. -/
def State.cfgCrc (s : State) : Word :=
  let words := fun (p : Page) => (regsOf p).flatMap (fun d =>
    let m := dualMask d.fields
    if m == 0 then [] else (List.range d.count).map (fun i => (p.base + d.off + i * d.stride, m)))
  let insert := fun (x : Nat × Word) (xs : List (Nat × Word)) => xs.takeWhile (·.1 < x.1) ++ x :: xs.dropWhile (·.1 < x.1)
  let all := [Page.saf, .cls, .mon 1].flatMap (fun p => (words p).foldl (fun a x => insert x a) [])
  crc32 (all.flatMap (fun x => wordBytes (s.mon.regs.read x.1 &&& x.2)))

/-- LOCK0 is set in SAF, CLS and MON page 1 (R382, R385). -/
def State.cfgLocked (s : State) : Bool :=
  [Page.saf, .cls, .mon 1].all (fun p => bit (s.mon.regs.read (p.base + 8)) 0)

/-- Bytes whose content the spec does not state. -/
def State.freshBytes (s : State) : Nat → List Byte × State
  | 0 => ([], s)
  | n + 1 =>
    let (w, s) := s.fresh
    let (bs, s) := s.freshBytes n
    (byteOf w 0 :: bs, s)

/-- The first eight bytes of status data (R380). -/
def State.statusData (s : State) (l : Lane) : List Byte :=
  let st := s.fld l F.SAF_STAT_STATE
  let b0 := (st == 0).toNat + (st == 1).toNat * 2 + (st == 2).toNat * 4 + s.fld l F.SAF_STAT_SLS_ACT * 8 +
    (!(s.flag l F.SAF_STAT_SDI_POS && s.flag l F.SAF_STAT_SDI_NEG)).toNat * 16 + s.fld l F.SAF_STAT_SLP_ACT * 32 +
    s.fld l F.SAF_STAT_INTERLOCK * 64 + s.cfgLocked.toNat * 128
  let b1 := s.fld l F.SAF_STAT_CAUSE + s.asc.toNat * 16 + s.fld l F.SAF_STAT_DIVERSE * 32
  natBytes 1 b0 ++ natBytes 1 b1 ++ natBytes 2 (fToSigned 16 (s.word l F.SAF_SPD_ACT_SPD.addr)) ++ wordBytes s.cfgCrc

/-- The FD length code that holds a number of bytes (R428). -/
def fdCode (n : Nat) : Nat := ((List.range 16).find? (fun k => dlcBytes true k ≥ n)).getD 15

/-- A telegram placed in urgent slot 3 of its controller (R436). Neither its tag nor the padding of its frame is stated. -/
def State.clsToCan (s : State) (l : Lane) (n : Fin 8) (t : List Byte) : State :=
  let c : Fin 2 := if s.flag l (F.CLS_CFG_CANC n.val) then 1 else 0
  if !s.flag l (F.CAN_CTRL_FDE c.val) || s.flag l (F.CAN_CTRL_INIT c.val) then s else
  let code := fdCode t.length
  let (pad, s) := s.freshBytes (dlcBytes true code - t.length)
  let (w, s) := s.fresh
  let f : CanFrame := { ide := s.flag l (F.CLS_LOC_IDE n.val), id := BitVec.ofNat 29 (s.fld l (F.CLS_LOC_LOC n.val)), fdf := true
                        brs := s.flag l (F.CAN_CTRL_BRSE c.val), dlc := BitVec.ofNat 4 code, data := t ++ pad }
  (s.modCan l c (fun x => x.putEntry 7 (some { frame := f, tag := byteOf w 0 }))).showCan l c

/-- The number from which a lane that takes a connection over goes on: the last one in its copy; without a copy the spec names
none. -/
def State.clsBase (s : State) (l : Lane) (n : Fin 8) : BitVec 16 × State :=
  match (s.lane l).red.copy with
  | some y => (y.clsSeq[n], s)
  | none => let (w, s) := s.fresh; (w.setWidth 16, s)

/-- CLAUSE_TRANSMIT: a transmit connection sends its status telegram (R380): by the lane its LANE field names, or by the other
while that one is failed, which continues the sequence from the newest valid state copy. -/
def execClauseTransmit (l : Lane) (n : Fin 8) (s : State) : Out :=
  let named := Lane.ofB (s.flag l (F.CLS_CFG_LANE n.val))
  let mine := l == named || (s.lane l).red.peerFailed || s.declared named
  if !s.ready l || s.failed l || !s.flag l (F.CLS_CFG_EN n.val) || !s.flag l (F.CLS_CFG_DIR n.val) || !mine then done s else
  let c := (s.lane l).cls[n]
  let (base, s) := if l == named || c.took then (c.sent, s) else s.clsBase l n
  let seq := base + 1
  let len := s.clsLen l n
  let (more, s) := s.freshBytes (len - 8)
  let data := ((s.statusData l) ++ more).take len
  let body := natBytes 1 (s.fld l (F.CLS_CFG_SID n.val)) ++ natBytes 2 seq.toNat ++
    natBytes 2 (s.fld l (F.CLS_WD_WD_MAX n.val)) ++ data
  let t := body ++ wordBytes (clsCrc (wordBytes (s.clsIdent l n) ++ body))
  let s := s.put l (F.CLS_STAT_SEQ n.val) seq.toNat
  let s := s.modCls l n (fun c => { c with sent := seq, took := l != named, tx := t })
  done (if s.flag l (F.CLS_CFG_CAR n.val) then s.clsToCan l n t else s)

end Sys2Proof.Machine
end

