-- ==== Sys2Proof/Machine/Events.lean ====
section
/-! DEFINITION. The rows of chapter 19 that act on the lane's own event path: a STOP that is due, pending bits and counters cleared,
the monitor's log cleared, and the management processor's load. -/
namespace Sys2Proof.Machine

/-- What STOP does for a page's block (R461): own set to SAFE, own converter stopped by the fault path, charger FAULT, or both
bridges coasting; the last two in the token holder alone. -/
def State.stopBlock (s : State) (l : Lane) (page : Nat) : State :=
  let conv := fun (s : State) => let s := s.dclStop l; if s.holdsAny l then s.chgFault l 13 else s
  let chg := fun (s : State) => if s.holdsAny l then s.chgFault l 15 else s
  match pageAt page with
  | some (.fbk _) | some (.smp _) | some (.trc _) => s.setFault l 4
  | some (.gdh n) => if n.val < 12 then s.setFault l 4 else if n.val < 20 then conv s else chg s
  | some .dcl => conv s
  | some .afe | some .dab | some .chg => chg s
  | some .act | some (.gdl _) => if s.holdsAny l then (s.actIdle l 0).actIdle l 1 else s
  | _ => s

/-- REACTION_STOP: the configured STOPs of a lane act at a fast-cycle start (R460, R461). -/
def execReactionStop (l : Lane) (s : State) : Out :=
  if s.inReset l || s.failed l then done s else
  let due := (s.lane l).stopPend
  let s := s.modLane l (fun x => { x with stopPend := [] })
  done (due.foldl (fun s p => s.stopBlock l p) s)

/-- EVC_PENDg written: each 1 clears every header PEND bit of that source (R467, R468). -/
def State.evcPend (s : State) (l : Lane) (g : Nat) (w : Word) : State :=
  (List.range 32).foldl (fun (s : State) b =>
    if !bit w b then s else
    (allSrcBits (32 * g + b)).foldl (fun s e =>
      s.putWord l (e.page + 0x018) (s.word l (e.page + 0x018) &&& ~~~(1#32 <<< e.bit))) s) s
def execEvcPendClear (l : Lane) (g : Fin 4) (w : Word) (s : State) : Out :=
  done (s.writing l (0x04050 + g.val * 4) (fun s => (s.evcPend l g.val w).reply l .ok))

/-- EVC_CLR.CNT: EVC_CNTk and REACT_CNT are cleared (R464, R468). -/
def State.evcClr (s : State) (l : Lane) : State :=
  (List.range 24).foldl (fun (s : State) k => s.putWord l (F.EVC_CNT_CNT k 0).addr 0) (s.put l F.EVC_STAT_REACT_CNT 0)
def execEvcClrCnt (l : Lane) (s : State) : Out := done (s.writing l 0x040BC (fun s => (s.evcClr l).reply l .ok))

/-- MON_LOG_CLR.CNT and MON_LOG_CLR.CLEAR once applied (R469): the monitor's counters; the log, whose NEXT is kept. -/
def State.monClrCnt (s : State) : State :=
  (List.range 8).foldl (fun (s : State) k => s.putWord .A (F.MON_CNT_CNT k 0).addr 0) s
def State.monLogClear (s : State) : State :=
  (s.modMon (fun m => { m with log := [] })).mput F.MON_LOG_STAT_FILL 0

/-- MP_OVERLOAD: the management processor's load has been above 90 % for 10 ms, or (`over` false) is so no more (R408, R457). -/
def execMpOverload (l : Lane) (ovr : Bool) (s : State) : Out :=
  if s.inReset l then done s else
  done ((s.modBoot l (fun b => { b with mpBusy := ovr })).levelEv l E.SYS_MP_LOAD ovr)

end Sys2Proof.Machine
end

