-- ==== Sys2Proof/Machine/Read.lean ====
section
/-! DEFINITION. What a read returns (R86 to R88, R91, R94): registers that show a present condition, windows, and the signals of
the directory (R99 to R102). -/
namespace Sys2Proof.Machine

/-- A truth value placed at a bit. -/
def at_ (b : Bool) (k : Nat) : Word := if b then 1#32 <<< k else 0#32

/-- PG_ID of a page, read through a lane (R88). -/
def State.pgId (_ : State) (l : Lane) (p : Page) : Word :=
  BitVec.ofNat 32 (p.type * 2 ^ 24 + l.idx * 2 ^ 23 + p.inst * 2 ^ 16 + (Config.version p.type).toNat)

/-- The framing of a lane's stream at an island is good: the lane sends it, and it is not the obeyed stream that is lost (R20,
R83). -/
def State.framed (s : State) (l owner : Lane) (lost : Bool) : Bool := s.streams l && !(lost && owner == l)

/-- GDH_STAT of a channel (R256). The safe-state line reaches the traction islands alone. -/
def State.gdhStat (s : State) (n : Fin 34) : Word :=
  let h := s.hv[n]
  let o := s.hvOwner n
  let trac := decide (n.val < 12)
  at_ h.ascOvs 13 ||| at_ h.ovsAct 12 ||| at_ (trac && !h.lineLost && s.held (setOf n.val)) 11 |||
  at_ (trac && h.mode.getD false) 10 ||| at_ (decide (n.val ≥ 20) && h.tokenOk) 9 ||| at_ (o == .B) 8 |||
  at_ (s.framed .B o h.lost) 7 ||| at_ (s.framed .A o h.lost) 6 ||| at_ h.scLatch 5 ||| at_ h.scSelf 4 |||
  at_ h.gateOff 3 ||| at_ h.vnOk 2 ||| at_ h.vpOk 1 ||| at_ h.outOn 0

/-- GDL_STAT of a channel, beside what the register file holds of it (R257). -/
def State.gdlStat (s : State) (n : Fin 12) : Word :=
  let c := s.lv.ch[n]
  let oc := if n.val == 0 then s.lv.oc0 else if n.val == 6 then s.lv.oc1 else false
  at_ oc 6 ||| at_ s.lv.tokenOk 4 ||| at_ (s.lvOwner n == .B) 3 ||| at_ c.gateOff 2 ||| at_ s.lv.vglOk 1 ||| at_ c.outOn 0

/-- SNS_STAT of a sense island (R157): a lane's modulator clock arrives while the lane is out of reset. -/
def State.snsStat (s : State) (m : Fin 7) : Word :=
  at_ s.sns[m].usable 4 ||| at_ s.sns[m].clkB 3 ||| at_ (!s.inReset .B) 2 ||| at_ (!s.inReset .A) 1

/-- The automatic resets of a lane in the last 60 s (R336, R353). -/
def State.recentResets (s : State) (x : Lane) : Nat := ((s.mon.resets.get x).filter (fun t => s.time < t + ms 60000)).length

/-- The OR of the RAW of each of a group's sources, and of their PEND (R456, R468). -/
def State.evcWord (s : State) (l : Lane) (g : Nat) (pend : Bool) : Word :=
  (List.range 32).foldl (fun (w : Word) b =>
    let on := (allSrcBits (32 * g + b)).any (fun e =>
      if pend then bit (s.word l (e.page + 0x018)) e.bit else s.raw l e)
    w ||| at_ on b) 0

/-- nIRQ of a lane is asserted: a source with its IRQ bit set has an unmasked pending header bit (R459). -/
def State.irq (s : State) (l : Lane) : Bool :=
  !s.inReset l && (List.range 128).any (fun src => s.evcBit l 0x04060 src && s.srcPending l src)

/-- The registers that show a present condition which the register file does not hold. -/
def State.liveWord (s : State) (l : Lane) (p : Page) (off : Nat) : Option Word :=
  let stored := s.word l (p.base + off)
  match p with
  | .pwr => if off == 0x044 then some (stored ||| at_ s.aon.vsbOk 1 ||| at_ s.aon.vsaOk 0) else none
  | .evc =>
    if 0x040 ≤ off && off < 0x050 then some (s.evcWord l ((off - 0x040) / 4) false)
    else if 0x050 ≤ off && off < 0x060 then some (s.evcWord l ((off - 0x050) / 4) true)
    else if off == 0x0B8 then some (stored ||| at_ (s.irq l) 31) else none
  | .ce i => if i.val == 1 && off == 0x054 then some (memWord 0 (s.lane l).mem (b10Wire 0x1C)) else none
  | .gdh n =>
    if off == 0x058 then some (s.gdhStat n) else if off == 0x07C then some (Config.gdhDie n.val) else none
  | .gdl n => if off == 0x048 then some (stored ||| s.gdlStat n) else none
  | .sns m => if off == 0x044 then some (s.snsStat m) else none
  | .smp i =>
    if i.val == 1 && 0x180 ≤ off && off < 0x19C then some (stored ||| at_ (decodes l ((off - 0x180) / 4)) 0) else none
  | .saf =>
    if off == 0x078 then some (stored ||| at_ s.cfgLocked 17) else if off == 0x088 then some s.cfgCrc else none
  | .ring => if off == 0x058 then some (stored ||| at_ (!s.linkUp l) 28) else none
  | .can c => s.canHead l c off
  | .mon i =>
    if i.val == 1 && off == 0x05C then
      let f := fun (w : Word) (k : Fld) (v : Nat) => setBits w k.lo k.w (sat k.w v)
      some (f (f stored F.MON_RED_STAT_RST_CNT_A (s.recentResets .A)) F.MON_RED_STAT_RST_CNT_B (s.recentResets .B))
    else none
  | _ => none

/-- The word that a mapped register returns: an island page whose island is not usable reads 0, but for PG_ID and PG_STAT
(R87). -/
def State.regRead (s : State) (l : Lane) (addr : Nat) : Word :=
  match pageAt addr with
  | none => 0
  | some p =>
    let off := addr % 0x1000
    if off == 0x000 then s.pgId l p
    else if off == 0x00C then s.pgStat l p
    else if s.notUsable p then 0
    else if off == 0x010 then s.rawWord l p.base
    else (s.liveWord l p off).getD (s.word l addr)

/-- The word at a page-map offset, of a window or of a page. -/
def State.wordAt (s : State) (l : Lane) (addr : Nat) : Word :=
  match bankOf addr with
  | some _ =>
    if 0x410000 ≤ addr && addr < 0x414000 then sineEntry (s.lane l).boot.sine ((addr - 0x410000) / 4)
    else memWord 0 (s.lane l).mem addr
  | none => s.regRead l addr

/-- Why a word cannot be read: an unmapped offset, or a window whose bank is not on (R86, R447). -/
def State.readFail (s : State) (l : Lane) (addr : Nat) : Option Status :=
  if addr % 4 != 0 then some .addrErr else
  match bankOf addr with
  | some b => if s.bankOn l b then none else some .stateErr
  | none => if (regFields addr).isNone then some .addrErr else none

/-- A directory entry: its high and its low word (R99, R100). -/
structure DirEntry where
  hi : Word
  lo : Word
deriving DecidableEq, Repr

def State.dirEntry (s : State) (l : Lane) (n : Nat) : DirEntry :=
  { hi := memWord 0 (s.lane l).mem (0x800000 + n * 8 + 4), lo := memWord 0 (s.lane l).mem (0x800000 + n * 8) }

def dirType (e : DirEntry) : Nat := bits e.hi 4 4
def dirLane (e : DirEntry) : Nat := bits e.hi 30 2
def dirRd (e : DirEntry) : Bool := bit e.hi 27
def dirWr (e : DirEntry) : Bool := bit e.hi 26
def dirCyc (e : DirEntry) : Bool := bit e.hi 25
def dirAddr (e : DirEntry) : Nat := bits e.lo 0 24
def dirPos (e : DirEntry) : Nat := bits e.lo 24 5
def dirWidth (e : DirEntry) : Nat := bits e.hi 0 2 * 8 + bits e.lo 29 3 + 1

/-- A raw field taken from a word: from BITPOS upwards, zero-extended, or sign-extended for SINT (R403). -/
def dirExtract (e : DirEntry) (w : Word) : Word :=
  let v := bits w (dirPos e) (dirWidth e)
  if dirType e == 3 && 2 ^ (dirWidth e - 1) ≤ v then BitVec.ofInt 32 ((v : Int) - 2 ^ dirWidth e) else BitVec.ofNat 32 v

/-- The words that a signal places into a record: one, or two for TIME64, low word first (R403). -/
def State.sigWords (s : State) (l : Lane) (n : Nat) : List Word :=
  let e := s.dirEntry l n
  let w := s.wordAt l (dirAddr e)
  if dirType e == 7 then [w, s.wordAt l (dirAddr e + 4)] else [dirExtract e w]

/-- The word that a capture channel places into a record (R449). -/
def State.sigWord (s : State) (l : Lane) (n : Nat) : Word := (s.sigWords l n).headD 0

end Sys2Proof.Machine
end

