-- ==== Sys2Proof/Machine/Effect.lean ====
section
/-! DEFINITION. What a write that has passed its field checks does (R90, R93, R97): the effect of each register that acts, the
block soft reset, and the values that the monitor applies from matching halves. -/
namespace Sys2Proof.Machine

/-- A meaning that answers by itself, as the outcome of a checked write. -/
def ofReply (l : Lane) (t : State) : Eff :=
  let st := (t.lane l).answer.status
  if st == .ok then .ok t else .error (.status st)

/-- A condition of a write that is tested last (R489). -/
def need (ok : Bool) (s : State) : Eff := if ok then .ok s else .error (.status .stateErr)

/-- An effect applied where a bit is set. -/
def onBit (b : Bool) (f : State → Eff) (s : State) : Eff := if b then f s else .ok s
def onBit' (b : Bool) (f : State → State) (s : State) : State := if b then f s else s

/-- The internal state of a page's block returned to reset (R90): what the block drives is off. -/
def State.blockState (s : State) (l : Lane) (p : Page) : State :=
  match p with
  | .ce i => if i.val == 0 then (s.engineStop l).modLane l (fun x => { x with eng := {}, loopReq := 0 }) else s
  | .trc i => if i.val == 2 then (s.smEnter l 0).modTrc l (fun _ => {}) else s
  | .fbk i => if i.val == 0 then s.modFbk l (fun _ => {}) else s
  | .smp i => if i.val == 0 then s.modSmp l (fun _ => {}) else s
  | .dcl => ((s.dclStop l).loopOpen l 3).modDcl l (fun _ => {})
  | .afe => (s.gatesOff afeChans).loopOpen l 4
  | .dab => (s.gatesOff dabChans).loopOpen l 5
  | .chg => ((((s.gatesOff (afeChans ++ dabChans)).loopOpen l 4).loopOpen l 5).modChg l (fun _ => {})).modMon (fun m =>
      { m with chgK := m.chgK.set l 0 }) |>.driveK
  | .act => ((s.actIdle l 0).actIdle l 1).modLane l (fun x => { x with act := Vector.replicate 2 {} })
  | .can c => s.modCan l c (fun _ => {})
  | .bulk => s.modLane l (fun x => { x with bulkLast := none })
  | .mem => s.modLane l (fun x => { x with cap := Vector.replicate 8 {}, scrub := Vector.replicate 16 (0, s.time) })
  | .ring => s.modRing l (fun r => { ({} : RingState) with cyc := r.cyc, sent := r.sent, evSeq := r.evSeq, evSent := r.evSent })
  | _ => s

/-- Blocks whose status fields show what goes on outside the block's own registers: a soft reset leaves them to it. -/
def keepsStatus (p : Page) : Bool :=
  match p with
  | .sys | .clk | .pwr | .rst | .dir | .red | .conj | .saf | .cls | .mon _ | .ring | .gdh _ | .gdl _ | .sns _ => true
  | _ => false

/-- A register after a block soft reset: each unlocked field at its reset value. A lane's soft reset does not reach the dual-write
values that the monitor holds for the SAF and CLS pages. -/
def softWord (p : Page) (off : Nat) (lock0 : Bool) (fs : List FieldDesc) (w : Word) : Word :=
  fs.foldl (fun w f =>
    if (f.acc == .rwl && lock0) || (f.acc == .ro && keepsStatus p) || (f.dual && !p.monServed) then w
    else setBits w f.lo f.w (fieldReset p off f)) w

/-- A block soft reset (R90): the registers from offset 0x040 up, the internal state and the shadows; the header is kept. -/
def State.blockReset (s : State) (l : Lane) (p : Page) : State :=
  let s := s.blockState l p
  let lock0 := bit (s.word l (p.base + 8)) 0
  let regs := (regsOf p).flatMap (fun d => (List.range d.count).map (fun i => d.off + i * d.stride))
  let s := regs.foldl (fun (s : State) off =>
    match fieldsAt p off with
    | some fs => s.putWord l (p.base + off) (softWord p off lock0 fs (s.word l (p.base + off)))
    | none => s) s
  let s := s.modLane l (fun x => { x with shadows := x.shadows.filter (fun h => h.addr / 0x1000 != p.base / 0x1000) })
  match p with
  | .trc _ | .smp _ => s.showMmax l
  | _ => s

/-- PG_CTRL written (R90): SRST only while EN was 0; on the SYS page it is the lane's soft reset (R76). -/
def State.pgCtrl (s : State) (l : Lane) (p : Page) (old new wo : Word) : Eff :=
  if !bit wo 1 then .ok (s.putWord l (p.base + 4) new)
  else if p == .sys then .ok (s.softReset l)
  else if bit old 0 then .error (.status .stateErr)
  else .ok ((s.putWord l (p.base + 4) new).blockReset l p)

/-- PG_LOCK written (R95, R96): a lock bit is not set over a shadow of a field that it covers. -/
def State.pgLock (s : State) (l : Lane) (p : Page) (old new : Word) : Eff :=
  let covered := (s.lane l).shadows.any (fun h => h.addr / 0x1000 == p.base / 0x1000 &&
    match regFields h.addr with
    | some fs => fs.any (fun f => f.shadow && f.acc == .rwl)
    | none => false)
  if bit new 0 && !bit old 0 && covered then .error (.status .stateErr) else .ok (s.putWord l (p.base + 8) new)

/-- EVT_FORCE written (R88, R89): RAW of each source named reads 1 for 1 µs. -/
def State.force (s : State) (l : Lane) (p : Page) (w : Word) : State :=
  (List.range 32).foldl (fun (s : State) b => if bit w b then s.pulseEv l ⟨p.base, b⟩ true else s) s

/-- CE_CTRL written (R175, R182). COMMIT needs the table's banks on (R448), and too many entries answer COUNT_ERR. -/
def State.ceCtrl (s : State) (l : Lane) (old new wo : Word) : Eff :=
  if bit wo 1 then
    if bit old 0 || !s.allDisabled l || !s.bankOn l 10 || !s.bankOn l 11 || !s.bankOn l 15 then .error (.status .stateErr)
    else if s.commitFail l == 2 then .error .tableCount
    else .ok (s.commitTable l)
  else if bit old 0 && !bit new 0 then ofReply l (s.ceStop l)
  else need (bit old 0 == bit new 0) s

/-- A switching frequency or update mode written (R206): the fast rates it gives must pass the budget and the medium bounds. -/
def State.ratesOk (s : State) (l : Lane) : Bool :=
  let d := s.flag l F.TRC_SET_UPD
  s.rateOk l (s.fld l F.TRC_PWM_FSW) d &&
  (s.fld l F.TRC_PWM_FSW_ALT == 0 || s.rateOk l (s.fld l F.TRC_PWM_FSW_ALT) d)
def State.pwmWrite (s : State) (l : Lane) (addr : Nat) (new : Word) : Eff :=
  let s := s.putWord l addr new
  need (s.ratesOk l) ((s.put l F.CE_RATE_FAST (s.fastRate l)).showMmax l)

/-- DCL_CTRL written in one lane (R269, R270): EN = 1 starts a converter that does not run, and EN = 0 stops it. -/
def State.dclCtrl (s : State) (l : Lane) (peer : Bool) (old new : Word) : Eff :=
  let go := bit new 0 && !(bit old 0 && (s.fld l F.DCL_STAT_STATE == 1 || s.fld l F.DCL_STAT_STATE == 2))
  if go && !peer && !s.dclCanEnable l then .error (.status .stateErr) else
  let s := s.putWord l F.DCL_CTRL_EN.addr new
  .ok (if go then s.dclStart l else if bit old 0 && !bit new 0 then s.dclEnd l else s)

/-- RED_CTRL written (R344, R347 to R349, R351): every command it carries must hold. -/
def State.redCtrlWrite (s : State) (l : Lane) (wo : Word) : Eff := do
  let c := bits wo 6 2
  if c == 3 then .error (.status .rangeErr)
  let s ← onBit (bit wo 0) (fun s => ofReply l (s.retestNow l)) s
  let s ← onBit (bit wo 2) (fun s => need s.moveOk s.moveAsk) s
  let s ← onBit (bit wo 3) (fun s => need (s.flag l F.RED_STAT_HELD) (s.rejoinNow l)) s
  onBit (c != 0) (fun s => need (s.flag l F.RED_STAT_SPLIT) (if c == 1 then s.splitContinue l else s.ownSs1Start l 10)) s

/-- GDH_CLR written (R239, R245, R256). -/
def State.gdhClr (s : State) (l : Lane) (n : Fin 34) (wo : Word) : Eff :=
  let own := s.hvOwner n == l
  if bit wo 3 && !s.fnDisabled n.val then .error (.status .stateErr)
  else if bit wo 2 && own && !s.fnDisabled n.val then .error (.status .stateErr)
  else
    let s := onBit' (bit wo 3) (fun s => s.clrSc l n) s
    let s := onBit' (bit wo 2) (fun s => s.clrLeg l (legOf n)) s
    let s := onBit' (bit wo 1) (fun s => s.clrDt n) s
    .ok (onBit' (bit wo 0) (fun s => s.clrGdhCnt n) s)

/-- GDL_CNT written (R245, R257). -/
def State.gdlClr (s : State) (l : Lane) (n : Fin 12) (wo : Word) : Eff :=
  if bit wo 1 && s.lvOwner n == l && !s.lvDisabled n then .error (.status .stateErr)
  else
    let s := onBit' (bit wo 1) (fun s => s.gdlClrLeg l n) s
    .ok (onBit' (bit wo 0) (fun s => s.clrGdlCnt n) s)

/-- GDH_TEST written without the row that reports its outcome: SC_SELF is left open. -/
def State.gdhTest (s : State) (n : Fin 34) : Eff :=
  if !s.fnDisabled n.val then .error (.status .stateErr) else
  let (w, s) := s.fresh
  .ok (s.modHv n (fun h => { h with scSelf := bit w 0 }))

/-- CAN_CTRL written (R423, R424, R431): the mode only with INIT = 1. -/
def State.canCtrl (s : State) (l : Lane) (c : Fin 2) (old new wo : Word) : Eff := do
  let addr := (F.CAN_CTRL_INIT c.val).addr
  if bits new 2 2 != bits old 2 2 && !bit old 0 then .error (.status .stateErr)
  let s := s.putWord l addr (setBits new 0 1 (bits old 0 1))
  let s ← s.canInit l c (bit new 0)
  .ok (onBit' (bit wo 1) (fun s => s.canRecReq l c) s)

/-- A directory entry that a capture channel, or an IN map entry, may name (R405, R449). -/
def State.capId (s : State) (l : Lane) (n : Nat) : Bool := let e := s.dirEntry l n; dirType e != 0 && dirRd e
def State.cycId (s : State) (l : Lane) (n : Nat) : Bool := let e := s.dirEntry l n; dirType e != 0 && dirCyc e

/-- The registers of the MEM page that act (R447 to R454): captures are configured while IDLE or DONE. -/
def State.memEffect (s : State) (l : Lane) (off : Nat) (old new wo : Word) : Eff :=
  if off == 0x040 then s.memPwr l new
  else if off == 0x054 then
    .ok (onBit' (bit wo 0) (fun s => s.memClrEcc l) (onBit' (bit wo 1) (fun s => s.memClrScrub l) s))
  else if off == 0x058 then do
    let s ← (List.finRange 8).foldlM (fun (s : State) (w : Fin 8) => onBit (bit wo w.val) (fun s => s.capArm l w) s) s
    let s := (List.finRange 8).foldl (fun (s : State) (w : Fin 8) => onBit' (bit wo (8 + w.val)) (fun s => s.capTrig l w) s) s
    .ok ((List.finRange 8).foldl (fun (s : State) (w : Fin 8) => onBit' (bit wo (16 + w.val)) (fun s => s.capStop l w) s) s)
  else if 0x100 ≤ off then
    let w := (off - 0x100) / 0x20
    let o := off % 0x20
    let ch := 0x0C ≤ o && o < 0x1C
    let bad := fun (lo : Nat) => bits new lo 14 != bits old lo 14 && !s.capId l (bits new lo 14)
    if ch && (bad 0 || bad 16) then .error (.status .idErr)
    else need (!s.capActive l w) (s.putWord l (0x05000 + off) new)
  else .ok (s.putWord l (0x05000 + off) new)

/-- The effect of a write on a block register of a lane's page, or on a non-dual field of a page that the monitor serves: `new` is
the word to store, `wo` the ones written to WO and W1C fields. A register without an effect of its own is stored. `peer`: the write comes
over the link as an axle-wide one. -/
def State.regEffect (s : State) (l : Lane) (p : Page) (off : Nat) (old new wo : Word) (ph : BusPhase) (peer : Bool) : Eff :=
  let addr := p.base + off
  let keep := s.putWord l addr new
  if off == 0x004 then s.pgCtrl l p old new wo
  else if off == 0x008 then s.pgLock l p old new
  else if off == 0x01C then .ok (s.force l p wo)
  else if off < 0x040 then .ok keep
  else
    match p with
    | .fbk i =>
      if i.val == 0 && off == 0x058 then .ok (s.encOffset l wo)
      else if i.val == 1 && off == 0x06C then
        let s := onBit' (bit wo 7) (fun s => s.clrFbkCnt l) s
        let s := onBit' (bit wo 6) (fun s => s.clrDrift l) s
        let s := onBit' (bit wo 5) (fun s => s.encRef l) s
        .ok ((List.range 5).foldl (fun (s : State) i => onBit' (bit wo i) (fun s => s.clrSrc l i) s) s)
      else .ok keep
    | .smp i =>
      if i.val == 0 && off == 0x040 then .ok (keep.showMmax l)
      else if i.val == 0 && off == 0x050 then
        if bit wo 31 then ofReply l (keep.calStart l (new.setWidth 24)) else .ok keep
      else if i.val == 0 && off == 0x054 then
        let s := onBit' (bit wo 31) (fun s => s.clrSmpCnt l) s
        let s := (List.range 7).foldl (fun (s : State) m => onBit' (bit wo (24 + m)) (fun s => s.clrSns l m) s) s
        .ok ((List.finRange 24).foldl (fun (s : State) (n : Fin 24) => onBit' (bit wo n.val) (fun s => s.clrFlt l n) s) s)
      else .ok keep
    | .ce i =>
      if i.val == 0 && off == 0x040 then s.ceCtrl l old new wo
      else if i.val == 0 && off == 0x050 then .ok (s.loopsClose l ((wo >>> 8).setWidth 24))
      else if i.val == 0 && off == 0x054 then .ok (s.loopsOpen l ((wo >>> 8).setWidth 24))
      else if i.val == 0 && off == 0x05C then
        .ok (onBit' (bit wo 0) (fun s => s.clrMax l) (onBit' (bit wo 1) (fun s => s.clrOvr l)
          (onBit' (bit wo 2) (fun s => s.clrNf l) s)))
      else if i.val == 1 && off == 0x040 then
        .ok (if bits new 0 3 != bits old 0 3 then keep.modEng l (fun e => { e with srcWait := true }) else keep)
      else if i.val == 1 && off == 0x058 then
        .ok (if bit old 4 && !bit new 4 then keep.put l F.CE_SP_STAT_CLIP_CNT 0 else keep)
      else .ok keep
    | .trc i =>
      if i.val == 0 && (off == 0x040 || off == 0x044) then
        if new == old then .ok s else s.pwmWrite l addr new
      else if i.val == 0 && off == 0x048 then ofReply l (s.altSelect l (bit new 0))
      else if i.val == 1 && off == 0x068 then .ok (onBit' (bit wo 0) (fun s => s.clrMiss l) s)
      else if i.val == 2 && off == 0x040 then
        match ofReply l (s.smWrite l (bits wo 0 3)) with
        | .ok t => .ok t
        | .error _ => .error (.smCmd (bits wo 0 3))
      else .ok keep
    | .gdh n => if off == 0x070 then s.gdhClr l n wo else if off == 0x074 then (if bit wo 0 then s.gdhTest n else .ok s) else .ok keep
    | .gdl n => if off == 0x04C then s.gdlClr l n wo else .ok keep
    | .dcl =>
      if off == 0x040 then s.dclCtrl l peer old new
      else if off == 0x07C then
        let s := onBit' (bit wo 4) (fun s => s.putWord l F.DCL_CNT_IPK.addr 0) s
        .ok ((List.range 4).foldl (fun (s : State) k => onBit' (bit wo k) (fun s => s.phaseClear l (k + 1)) s) s)
      else .ok keep
    | .afe =>
      if off == 0x040 then need (bits new 0 2 != 1 || s.safCfg F.SAF_K_CFG_K5_USE == 1) keep
      else if off == 0x060 then .ok (onBit' (bit wo 0) (fun s => s.clrAfeCnt l) s) else .ok keep
    | .dab => if off == 0x054 then .ok (onBit' (bit wo 0) (fun s => s.clrDabCnt l) s) else .ok keep
    | .chg =>
      if off == 0x040 then
        let on := bit new 0 && !bit old 0
        need (!(bit old 0 && bits new 4 2 != bits old 4 2) &&
          (!on || peer || (!s.enableRefused l && !s.flag l F.SAF_CFG_NO_CHG))) keep
      else if off == 0x074 then
        .ok (onBit' (bit wo 0) (fun s => s.clrChgCnt l) (onBit' (bit wo 1) (fun s => s.chgClrFault l) s))
      else .ok keep
    | .act =>
      let a : Fin 2 := if off < 0x080 then 0 else 1
      let o := off - 0x040 - a.val * 0x40
      if off ≥ 0x0C0 then .ok keep
      else if o == 0x14 then need (s.fld l (F.ACT_STAT_STATE a.val) == 0) keep
      else if o == 0x20 then
        let c := bits wo 0 3
        if c == 7 then .error (.status .rangeErr) else
        match s.actCmd l a c with
        | some t => .ok t
        | none => .error (.status .stateErr)
      else if o == 0x34 then .ok (onBit' (bit wo 0) (fun s => s.clrActCnt l a) s)
      else .ok keep
    | .red =>
      if off == 0x040 then s.redCtrlWrite l wo
      else if off == 0x088 then .ok (onBit' (bit wo 0) (fun s => s.clrFo l) (onBit' (bit wo 1) (fun s => s.clrJrnl l) s))
      else if (off == 0x048 || off == 0x04C) && !peer then need (s.linkUp l) keep
      else .ok keep
    | .conj => if off == 0x054 then .ok (onBit' (bit wo 0) (fun s => s.clrConj l) s) else .ok keep
    | .saf =>
      if off == 0x070 then .ok ((keep.modMon (fun m => { m with kReq := m.kReq.set l (some (new.setWidth 6)) })).driveK)
      else if off == 0x074 then
        .ok (onBit' (bit wo 1) (fun s => s.askSs1 l 10) (onBit' (bit wo 2) (fun s => s.askSto l 10) s))
      else .ok keep
    | .ring =>
      if off == 0x070 then
        .ok (onBit' (bit wo 0) (fun s => (s.putWord l F.RING_CNT_CRC.addr 0).putWord l F.RING_CNT2_BUSY.addr 0) s)
      else if 0x100 ≤ off && bit new 31 && new != old && !s.cycId l (bits new 0 14) then .error (.status .idErr)
      else .ok keep
    | .bulk =>
      if off == 0x040 then need (!s.owns l none) keep
      else if off == 0x048 then .ok (onBit' (bit wo 0) (fun s => s.bulkClr l) s)
      else if 0x200 ≤ off then s.descWrite l off new
      else .ok keep
    | .can c =>
      let s := s.canPhase l c ph
      let keep := s.putWord l addr new
      if off == 0x040 then s.canCtrl l c old new wo
      else if off == 0x068 then s.canPush l c (bits wo 0 3)
      else if off == 0x06C then .ok (s.canCancel l c (bits wo 8 2) (bits wo 0 8))
      else if off == 0x07C then .ok (onBit' (bit wo 0) (fun s => s.canPopTxc l c) (onBit' (bit wo 1) (fun s => s.canPopRx l c) s))
      else if off == 0x05C then .ok (onBit' (bit wo 0) (fun s => s.canClrCnt l c) (onBit' (bit wo 1) (fun s => s.canClrOvf l c) s))
      else if off == 0x044 || off == 0x048 || off ≥ 0x110 then need (s.flag l (F.CAN_CTRL_INIT c.val)) keep
      else .ok keep
    | .mem => s.memEffect l off old new wo
    | .evc =>
      if 0x050 ≤ off && off < 0x060 then .ok (s.evcPend l ((off - 0x050) / 4) wo)
      else if off == 0x0BC then .ok (onBit' (bit wo 0) (fun s => s.evcClr l) s)
      else .ok keep
    | .mon i =>
      if i.val == 1 && off == 0x060 then do
        let s ← onBit (bit wo 0) (fun s => ofReply l (s.unretire l .A)) s
        onBit (bit wo 1) (fun s => ofReply l (s.unretire l .B)) s
      else .ok keep
    | _ => .ok keep

/-- A CLAUSE connection enabled or disabled by an applied value (R376, R377). -/
def State.clsApplied (s : State) (n : Fin 8) (was now : Bool) : State :=
  if was == now then s else
  s.both (fun l s => if s.inReset l then s else
    (s.put l (F.CLS_STAT_STATE n.val) now.toNat).modCls l n (fun _ => {}))

/-- What follows from a dual-write value that the monitor has applied: an acknowledgement, the log's clearing, an island's own
copy of its configuration, a fixed modulator clock, and the rules that read the configuration. -/
def State.applied (s : State) (p : Page) (off : Nat) (old new wo : Word) : State :=
  match p with
  | .saf =>
    if off == 0x074 then onBit' (bit wo 0) (fun s => s.acknowledge) s
    else if off == 0x040 then (s.both (fun l s => if s.inReset l then s else s.connUpdate l)).clsJudge
    else if off == 0x06C then s.driveK
    else s
  | .cls =>
    if 0x100 ≤ off && off % 0x20 == 4 then
      (s.clsApplied (Fin.ofNat 8 ((off - 0x100) / 0x20)) (bit old 31) (bit new 31)).clsJudge
    else s
  | .gdh n =>
    let s := if off == 0x050 && s.hv[n].usable then s.modHv n (fun h => { h with ovsCfg := new }) else s
    if off == 0x04C && n.val < 12 && !s.inReset (setOf n.val) then s.showMmax (setOf n.val) else s
  | .sns m => if off == 0x040 && bits new 0 2 != 0 then s.snsClock m (bits new 0 2 == 2) else s
  | .mon i =>
    if i.val == 0 && off == 0x048 then
      onBit' (bit wo 0) (fun s => s.monLogClear) (onBit' (bit wo 1) (fun s => s.monClrCnt) s)
    else if i.val == 1 && (off == 0x050 || off == 0x054) then s.pgCheck
    else s
  | _ => s

/-- The monitor applies the dual-write part `v` of a register (R97): it is in effect in the monitor, and in the page of every lane
out of reset. -/
def State.dualApply (s : State) (p : Page) (off : Nat) (dual wo v : Word) : State :=
  let addr := p.base + off
  let old := s.mon.regs.read addr
  let v' := if off == 0x008 then v ||| old else v
  let mix := fun (w : Word) => (w &&& ~~~(dual &&& ~~~wo)) ||| (v' &&& dual &&& ~~~wo)
  let new := mix old
  let s := s.modMon (fun m => { m with regs := m.regs.write addr new })
  let s := if p.monServed then s else
    s.both (fun l s => if s.inReset l then s else s.putWord l addr (mix (s.word l addr)))
  s.applied p off old new (v &&& wo)

end Sys2Proof.Machine
end

