-- ==== Sys2Proof/Machine/Write.lean ====
section
/-! DEFINITION. The write of a word, checked whole before anything is applied (R91 to R97, R108, R166, R489), and the writes of a
request: several words, shared and axle-wide registers, and the numbers of host sessions (R103 to R105, R268, R339). -/
namespace Sys2Proof.Machine

/-- How a write comes: its number, the place of the controller's own CAN frame, and whether it is applied again with an acceptance
given elsewhere: by the journal's replay, or over the link as an axle-wide write (R268, R340). -/
structure WCtx where
  q : Option Req := none
  ph : BusPhase := .before
  again : Bool := false
  axle : Bool := false
deriving DecidableEq, Repr

/-- The mask of a field, and of the fields that satisfy a condition. -/
def fldMask (f : FieldDesc) : Word := setBits 0#32 f.lo f.w (2 ^ f.w - 1)
def maskOf (fs : List FieldDesc) (p : FieldDesc → Bool) : Word := fs.foldl (fun m f => if p f then m ||| fldMask f else m) 0

/-- The bits of the bytes that a write enables. -/
def hitMask (be : BitVec 4) : Word := mergeBytes 0 0xFFFFFFFF be

/-- Pages whose PG_LOCK is dual-write (R97), and a dual-write field of a register. -/
def dualPage (p : Page) : Bool :=
  match p with
  | .saf | .cls | .mon _ | .gdh _ | .gdl _ | .sns _ => true
  | _ => false
def isDual (p : Page) (off : Nat) (f : FieldDesc) : Bool := f.dual || (off == 0x008 && dualPage p)

/-- A stored field's codes. -/
def Acc.stored (a : Acc) : Bool := a == .rw || a == .rwl || a == .rwq

/-- The status that a field's value calls for, none where it lies within the field's stated range (R93). -/
def rngFail (g : Rng) (lo : Nat) (v : Nat) : Option Status :=
  let w := BitVec.ofNat 32 v
  let bad := fun (b : Bool) => if b then some Status.rangeErr else none
  match g with
  | .any => none
  | .between a b => bad (v < a || b < v)
  | .zeroOr a b => bad (v != 0 && (v < a || b < v))
  | .noBit n => bad (v / 2 ^ (n - lo) % 2 == 1)
  | .finite => bad (!fFinite w)
  | .fge0 => bad (!fFinite w || fLt w 0)
  | .fgt0 => bad (!fFinite w || !fLt 0 w)
  | .f01 => bad (!fFinite w || fLt w 0 || fLt fOne w)
  | .count n => if v > n then some .countErr else none

/-- The ranges that two fields give each other, and those that depend on which register of an array is written (R93). -/
def State.crossBad (s : State) (l : Lane) (p : Page) (off : Nat) (w : Word) : Bool :=
  let sg := fun (x : Word) => signed 32 x.toNat
  match p with
  | .fbk i =>
    if i.val != 0 then false
    else if off == 0x040 then bits w 0 3 != 0 && bits w 0 3 == bits w 4 3
    else if off == 0x04C then bits w 16 8 ≤ bits w 24 8
    else if off == 0x064 then bits w 12 8 ≤ bits w 4 8
    else false
  | .smp i => i.val == 0 && 0x100 ≤ off && off < 0x280 && off % 16 == 4 && bits w 16 16 ≤ bits w 0 16
  | .ce i => i.val == 1 && off == 0x04C && bits w 16 16 ≤ bits w 0 16
  | .trc i =>
    if i.val == 0 then
      -- R203: the fast rate, FSW or FSW_ALT with single update and twice that with double, in units of 10 Hz
      let bad := fun (double : Bool) (f : Nat) => let r := if double then 2 * f else f; r < 800 || 8000 < r
      let either := fun (double : Bool) (v : Word) => bad double (bits v 0 16) || (bits v 16 16 != 0 && bad double (bits v 16 16))
      if off == 0x040 then either (bit w 3) (s.word l F.TRC_PWM_FSW.addr)
      else off == 0x044 && either (s.flag l F.TRC_SET_UPD) w
    else if i.val != 2 then false
    else if off == 0x048 then bits w 24 8 < bits w 16 8
    else if off == 0x04C then s.fld l F.SMP_CHK_RES_LIM ≤ bits w 24 8
    else false
  | .dcl =>
    if off == 0x050 then bits w 16 16 ≤ bits w 0 16
    else if off == 0x054 then bits w 16 16 ≤ s.fld l F.DCL_VLIM_VMAX
    else off == 0x060 && bits w 24 8 ≤ bits w 16 8
  | .afe => off == 0x044 && bits w 16 16 ≤ bits w 0 16
  | .act =>
    let g := 0x040 + (off - 0x040) / 0x40 * 0x40
    if off == 0x0C0 then bits w 0 8 ≤ bits w 8 8
    else if off - g == 0x10 then bits w 16 16 ≤ bits w 0 16
    else if off - g == 0x14 then
      let t := s.word l (0x74000 + g + 0x10)
      bits w 0 16 != 0 && (bits w 0 16 < bits t 0 16 || bits t 16 16 < bits w 0 16)
    else off - g == 0x1C && bits (s.word l (0x74000 + g + 0x14)) 0 16 < bits w 0 16
  | .saf =>
    if off == 0x040 then bits w 0 8 < bits w 8 8
    else off == 0x054 && sg w ≤ sg (s.word l F.SAF_SLP_LO_LO.addr)
  | .mon i => i.val == 1 && off == 0x040 && bits w 8 8 + bits w 0 8 > 60
  | .cls =>
    if off < 0x100 then false
    else if off % 0x20 == 4 then bit w 30 && bits w 21 6 < 4
    else off % 0x20 == 8 && !s.flag l (F.CLS_CFG_CAR ((off - 0x100) / 0x20)) && bits w 0 29 > 255
  | .can _ =>
    if off == 0x044 then bits w 8 7 < bits w 0 7 else off == 0x048 && bits w 4 4 < bits w 0 4
  | .sns m => m.val < 3 && off == 0x040 && bits w 0 2 != 0
  | .evc =>
    0x0A0 ≤ off && off < 0x0B8 && (List.range 16).any (fun m =>
      let src := (off - 0x0A0) / 4 * 16 + m
      bits w (2 * m) 2 == 1 && (src < 32 || 77 ≤ src))
  | _ => false

/-- The loops that own the RWQ fields of a page's register (R137, R154, R176, R284, R306, R307, R321). -/
def pageLoops (l : Lane) (p : Page) (off : Nat) : List Nat :=
  match p with
  | .fbk _ | .trc _ => [1]
  | .smp _ =>
    if off < 0x100 then [1] else match inputLoop l ((off - 0x100) / 16) with
      | some (ls, _) => ls
      | none => []
  | .dcl => [3] | .afe => [4] | .dab => [5]
  | .act => [if off < 0x080 then 6 else 7]
  | _ => []

/-- The lane that owns a page's token function (R301, R322). ACTa_CLR acts in the addressed lane (R321). -/
def State.pageOwner (s : State) (p : Page) (off : Nat) : Option Lane :=
  match p with
  | .afe | .chg => some (s.hvOwner 20)
  | .dab => some (s.hvOwner 26)
  | .act => if off == 0x074 || off == 0x0B4 then none else some (s.lvOwner 0)
  | _ => none

/-- What a write of a register comes to before it is applied: the word in effect, the word to store, the ones written to WO and W1C
fields, the dual-write part, and whether fields of each kind are given another value. -/
structure Merged where
  p : Page
  off : Nat
  fs : List FieldDesc
  old : Word
  new : Word
  wo : Word
  dual : Word
  woMask : Word
  half : Bool
  rest : Bool
deriving DecidableEq, Repr

/-- A write merged with what the register holds. The bytes of a shadowed field that are not written keep the shadow's value (R108),
and a lock bit that is set stays set (R95). -/
def State.merge (s : State) (l : Lane) (p : Page) (off : Nat) (fs : List FieldDesc) (data : Word) (be : BitVec 4) : Merged :=
  let addr := p.base + off
  let old := s.word l addr
  let sh := maskOf fs (·.shadow)
  let base := match (s.lane l).shadows.find? (fun h => h.addr == addr) with
    | some h => (old &&& ~~~sh) ||| (h.val &&& sh)
    | none => old
  let hit := hitMask be
  let given := data &&& hit
  let stored := maskOf fs (fun f => f.acc.stored)
  let w1c := maskOf fs (fun f => f.acc == .w1c)
  let woM := maskOf fs (fun f => f.acc == .wo)
  let put := (base &&& ~~~hit) ||| given
  let put := if off == 0x008 then put ||| old else put
  let new := (old &&& ~~~(stored ||| w1c)) ||| (put &&& stored) ||| (old &&& w1c &&& ~~~given)
  let wo := given &&& (woM ||| w1c)
  let dual := maskOf fs (fun f => f.acc != .ro && isDual p off f)
  let other := maskOf fs (fun f => f.acc != .ro) &&& ~~~dual
  { p, off, fs, old, new, wo, dual, woMask := woM
    half := (new ^^^ old) &&& dual &&& ~~~woM != 0 || wo &&& dual != 0
    rest := (new ^^^ old) &&& other != 0 || wo &&& other != 0 }

/-- The ownership rule of R246 and of the token pages: a write of GDH_CLR or GDL_CNT with no bit but LEG or CLR_LEG passes through
either lane, and dual-write fields whoever owns the channel. -/
def State.ownerBad (s : State) (l : Lane) (m : Merged) : Bool :=
  let only := fun (b : Nat) => m.wo &&& ~~~(1#32 <<< b) == 0#32
  let checked := if m.dual == 0 then true else m.rest
  match m.p with
  | .gdh n => checked && s.hvOwner n != l && !(m.off == 0x070 && only 2)
  | .gdl n => checked && s.lvOwner n != l && !(m.off == 0x04C && only 1)
  | p => match s.pageOwner p m.off with
    | some o => o != l
    | none => false

/-- A locked field would change (R91, R95): LOCK_CTRL covers PG_CTRL, LOCK_FORCE covers EVT_FORCE, and LOCK0 the RWL fields. -/
def State.lockBad (s : State) (l : Lane) (m : Merged) : Bool :=
  let lock := s.word l (m.p.base + 8)
  if m.off == 0x004 then bit lock 31 && (m.new != m.old || m.wo != 0)
  else if m.off == 0x01C then bit lock 30 && m.wo != 0
  else m.off ≥ 0x040 && bit lock 0 && (m.new ^^^ m.old) &&& maskOf m.fs (fun f => f.acc == .rwl) != 0

/-- The first status of R489 that a write of a register calls for, up to COEF_CLOSED. -/
def State.regCheck (s : State) (l : Lane) (c : WCtx) (m : Merged) (data : Word) (be : BitVec 4) : Option Status :=
  let hit := hitMask be
  let known := maskOf m.fs (fun _ => true)
  let known := if 0x010 ≤ m.off && m.off < 0x020 then known &&& evMask m.p else known
  let ranges := m.fs.filterMap (fun f =>
    if (f.acc.stored || f.acc == .wo) && fldMask f &&& hit != 0 then
      rngFail f.rng f.lo (bits (if f.acc == .wo then m.wo else m.new) f.lo f.w) else none)
  if s.notUsable m.p then some .islandDown
  else if !c.again && s.ownerBad l m then some .ownerErr
  else if m.fs.all (fun f => f.acc == .ro) then some .accErr
  else if data &&& hit &&& ~~~known != 0 then some .rsvErr
  else if ranges.contains .countErr then some .countErr
  else if !ranges.isEmpty || s.crossBad l m.p m.off m.new then some .rangeErr
  else if s.lockBad l m then some .lockErr
  else if !c.again && (m.new ^^^ m.old) &&& maskOf m.fs (fun f => f.acc == .rwq) != 0 &&
      (pageLoops l m.p m.off).any (s.loopClosed l) then some .coefClosed
  else none

/-- A session's record changed where the write has a number. -/
def State.modSess (s : State) (l : Lane) (q : Option Req) (f : Sess → Sess) : State :=
  match q with
  | some r => s.modLane l (fun x => { x with sess := x.sess.set r.sess (f x.sess[r.sess]) })
  | none => s

/-- A half passed to the monitor (R97): it meets its partner, and is applied or discarded with it, or waits. The half of SAF_CTRL.ACK
needs no partner while one lane alone counts as running (R372). -/
def State.passHalf (s : State) (l : Lane) (q : Option Req) (m : Merged) : Except Rej (State × Status) :=
  let addr := m.p.base + m.off
  let v := (m.new &&& m.dual &&& ~~~m.woMask) ||| (m.wo &&& m.dual &&& m.woMask)
  let wo := m.dual &&& m.woMask
  let mine := s.mon.halves.filter (fun h => h.lane == l)
  let has := mine.any (fun h => h.addr == addr)
  if m.p == .saf && m.off == 0x074 && s.mon.alive && s.counts l && !s.counts l.other then .ok (s.acknowledge, .ok)
  else if mine.length ≥ 16 && !has then .error (.status .stateErr)
  else
    let s := s.modSess l q (fun e => { e with halves := if e.halves.contains addr then e.halves else e.halves ++ [addr] })
    let s := s.modLane l (fun x => { x with
      timedHalves := if x.timedHalves.contains addr then x.timedHalves else x.timedHalves ++ [addr] })
    if !s.mon.alive then .ok (s, .dualPend) else
    let s := s.modMon (fun k => { k with
      halves := k.halves.filter (fun h => !(h.lane == l && h.addr == addr)) ++ [{ lane := l, addr := addr, val := v }] })
    match s.mon.halves.find? (fun h => h.lane == l.other && h.addr == addr) with
    | none => .ok (s, .dualPend)
    | some h =>
      let s := s.modMon (fun k => { k with halves := k.halves.filter (fun h => h.addr != addr) })
      let ok := h.val == v
      let s := (s.halfGone l addr (!ok)).halfGone l.other addr (!ok)
      .ok (if ok then s.dualApply m.p m.off m.dual wo v else s.monEv E.MON_DUAL_MISMATCH, .dualPend)

/-- A value put into a shadow that is not armed (R108). -/
def State.toShadow (s : State) (l : Lane) (addr : Nat) (v : Word) : State :=
  s.modLane l (fun x => { x with shadows := x.shadows.filter (fun h => h.addr != addr) ++ [{ addr := addr, val := v }] })

/-- A checked write of a register applied: its shadowed part goes to the shadow, its dual-write part to the monitor, and the rest
acts at once (R97, R108). -/
def State.regApply (s : State) (l : Lane) (c : WCtx) (m : Merged) : Except Rej (State × Status) := do
  let addr := m.p.base + m.off
  let sh := maskOf m.fs (·.shadow)
  if sh != 0 then
    let s := s.toShadow l addr (m.new &&& sh)
    let s ← s.regEffect l m.p m.off m.old ((m.new &&& ~~~sh) ||| (m.old &&& sh)) m.wo c.ph c.axle
    pure (s, .ok)
  else if m.dual == 0 then
    let s ← s.regEffect l m.p m.off m.old m.new m.wo c.ph c.axle
    pure (s, .ok)
  else
    let new := (m.new &&& ~~~m.dual) ||| (m.old &&& m.dual)
    let s ← if m.rest then s.regEffect l m.p m.off m.old new (m.wo &&& ~~~m.dual) c.ph c.axle else pure s
    if !m.half then pure (s, .ok)
    else if !s.monOk l then
      if m.rest then pure (s.modSess l c.q (fun e => { e with dualLost := true }), .ok) else throw (.status .stateErr)
    else s.passHalf l c.q m

/-- A write of a register of a page. -/
def State.regWrite (s : State) (l : Lane) (c : WCtx) (p : Page) (off : Nat) (data : Word) (be : BitVec 4) :
    Except Rej (State × Status) :=
  match regFields (p.base + off) with
  | none => .error (.status .addrErr)
  | some fs =>
    let m := s.merge l p off fs data be
    match s.regCheck l c m data be with
    | some st => .error (.status st)
    | none => s.regApply l c m

/-- The first status that a write of a window's word calls for (R99, R166, R188, R417, R447). -/
def State.winCheck (s : State) (l : Lane) (c : WCtx) (addr b : Nat) (new : Word) : Option Status :=
  let m := (s.lane l).mem
  let running := s.flag l F.CE_CTRL_RUN
  let closed := fun (ls : List Nat) => !c.again && new != memWord 0 m addr && ls.any (fun n => n != 0 && s.loopClosed l n)
  let st := if !s.bankOn l b then some Status.stateErr else none
  if b == 11 then some .accErr
  else if b == 14 then (if s.slotOwned l addr then some .stateErr else st)
  else if b == 15 then
    if addr < 0x414000 then some .accErr else if closed [1] then some .coefClosed else st
  else if 0x400100 ≤ addr && addr < 0x401000 then some .addrErr
  else if addr < 0x402000 then (if running then some .stateErr else st)
  else if 0x40C000 ≤ addr then some .accErr
  else if isOpWord m addr && new.toNat > 7 then some .rangeErr
  else if closed (ownersOf m addr) then some .coefClosed
  else st

/-- A write of a window's word. A PRESET word of a PI or PID kernel is consumed at its next execution (R168). -/
def State.winWrite (s : State) (l : Lane) (c : WCtx) (addr b : Nat) (data : Word) (be : BitVec 4) : Except Rej (State × Status) :=
  let new := mergeBytes (memWord 0 (s.lane l).mem addr) data be
  match s.winCheck l c addr b new with
  | some st => .error (.status st)
  | none =>
    let pre := if b == 10 then liveOwners (s.lane l).mem addr [1, 2] 3 else []
    let s := s.modLane l (fun x => { x with mem := memWriteBytes 0 x.mem addr (wordBytes new) })
    .ok (s.modEng l (fun e => { e with presets := pre.filter (fun k => !e.presets.contains k) ++ e.presets }), .ok)

/-- A write of one word, checked whole and applied, or the reason why nothing changes. -/
def State.writeWord (s : State) (l : Lane) (c : WCtx) (addr : Nat) (data : Word) (be : BitVec 4) : Except Rej (State × Status) :=
  if addr % 4 != 0 then .error (.status .addrErr) else
  match bankOf addr with
  | some b => s.winWrite l c addr b data be
  | none => match pageAt addr with
    | some p => s.regWrite l c p (addr % 0x1000) data be
    | none => .error (.status .addrErr)

/-- Axle-wide registers (R268, R351): the block registers of the DCL page but DCL_CLR, and of the RED page but RED_CTRL and RED_CLR,
with PG_CTRL and PG_LOCK of both. -/
def axleWide (addr : Nat) : Bool :=
  let off := addr % 0x1000
  let block := fun (except_ : List Nat) => off == 0x004 || off == 0x008 || (off ≥ 0x040 && !except_.contains off)
  if addr / 0x1000 == 0x70 then block [0x07C] else addr / 0x1000 == 0x80 && block [0x040, 0x088]

/-- The ordering group of R103, whose applied writes are mirrored: the DCL and token pages and the share fields of the RED page. -/
def mirrored (addr : Nat) : Bool :=
  let p := addr / 0x1000
  (0x70 ≤ p && p ≤ 0x74) || addr == 0x80048 || addr == 0x8004C

/-- A mirrored write whose entry is marked applied when it arrives: it has acted in the peer already, or acts in the addressed lane
alone (R268, R321, R339). -/
def mirroredApplied (addr : Nat) : Bool :=
  let off := addr % 0x1000
  addr / 0x1000 == 0x70 || addr / 0x1000 == 0x80 || (addr / 0x1000 == 0x74 && (off == 0x074 || off == 0x0B4))

/-- The journal entry of a write (R339). -/
def State.entryOf (s : State) (l : Lane) (r : Req) (addr : Nat) (data : Word) (be : BitVec 4) (rmw : Bool) : JEntry :=
  { seq := r.seq, sess := r.sess, kind := if axleWide addr then 2 else if rmw then 1 else 0, be := be
    applied := mirroredApplied addr, addr := BitVec.ofNat 24 addr, data := data, ts := (s.stamp l).setWidth 32 }

/-- A write of one word with what it does in the peer: an axle-wide one is applied there, and a mirrored one enters the peer's
journal (R106, R268, R339, R351). Over a link that is down it is applied in the addressed lane alone. -/
def State.writeShared (s : State) (l : Lane) (c : WCtx) (addr : Nat) (data : Word) (be : BitVec 4) (rmw : Bool) :
    Except Rej (State × Status) := do
  let shared := axleWide addr || mirrored addr
  let p := l.other
  let up := s.linkUp l && s.ready p
  if shared && up && c.q.isSome && mirrored addr && (s.lane p).red.journal.length ≥ 1024 then throw .journalFull
  let (t, st) ← s.writeWord l c addr data be
  if !shared then pure (t, st)
  else if !up then pure (t.modSess l c.q (fun e => { e with unmirrored := true }), .notMirrored)
  else
    let t := if axleWide addr then
        match t.writeWord p { c with again := true, axle := true, q := none } addr data be with
        | .ok (u, _) => u
        | .error _ => t
      else t
    match c.q with
    | some r => if mirrored addr || axleWide addr then pure (t.journalIn p (t.entryOf l r addr data be rmw), st) else pure (t, st)
    | none => pure (t, st)

/-- The status of a request whose words end with two statuses. -/
def Status.join (a b : Status) : Status := if a == .ok then b else a

/-- The words of a request applied in address order. -/
def State.writeAll (s : State) (l : Lane) (c : WCtx) (be : BitVec 4) (rmw : Bool) : Nat → List Word → Status → Except Rej (State × Status)
  | _, [], st => .ok (s, st)
  | addr, w :: t, st => do
    let (s, st') ← s.writeShared l c addr w be rmw
    s.writeAll l c be rmw (addr + 4) t (st.join st')

/-- The first reason, in address order, for which one of the words would be rejected as things stand (R93). -/
def State.checkAll (s : State) (l : Lane) (c : WCtx) (be : BitVec 4) (rmw : Bool) : Nat → List Word → Option Rej
  | _, [] => none
  | addr, w :: t =>
    match s.writeShared l c addr w be rmw with
    | .error r => some r
    | .ok _ => s.checkAll l c be rmw (addr + 4) t

/-- A write of one word or several, applied whole or not at all, and answered (R93). -/
def State.writes (s : State) (l : Lane) (c : WCtx) (addr : Nat) (ws : List Word) (be : BitVec 4) (rmw : Bool) : State :=
  let no := fun (r : Rej) => match r with
    | .smCmd k => s.smWrite l k
    | .tableCount => (s.commitTable l).reject l .countErr
    | r => s.turnDown l r
  match s.checkAll l c be rmw addr ws with
  | some r => no r
  | none => match s.writeAll l c be rmw addr ws .ok with
    | .ok (t, st) => if t.inReset l then t else t.reply l st
    | .error r => no r

/-- What a lane knows of a request's number (R105): it is new, a duplicate of one answered with a status, or too old. -/
inductive SeqVerdict where
  | new
  | dup (st : Status)
  | stale
deriving DecidableEq, Repr

def Sess.judge (e : Sess) (n : BitVec 16) : SeqVerdict :=
  if isNewer n e.highest then .new
  else if (e.highest - n).toNat ≥ 1024 then .stale
  else match e.seen.find? (fun p => p.1 == n) with
    | some p => .dup p.2
    | none => match e.seed with
      | some z => if (z - n).toNat < 1024 then .dup .ok else .new
      | none => .new

end Sys2Proof.Machine
end

