-- ==== Sys2Proof/Machine/Registers.lean ====
section
/-! DEFINITION. Accesses through a lane: numbers, the page queues behind armed shadows, reads, responses, PERIODs and shadows (R97,
R102 to R110, R407, R408); and the rows that are one write of a register. -/
namespace Sys2Proof.Machine

/-- The access writes. -/
def Access.isWrite (x : Access) : Bool :=
  match x.op with
  | .read _ => false
  | _ => true

/-- The words that an access touches. -/
def Access.words (x : Access) : List Nat :=
  let n := match x.op with
    | .write ws _ => ws.length
    | .rmw _ _ => 1
    | .read n => n / 4
  (List.range n).map (fun k => x.addr + 4 * k)

/-- RED_CTRL.RETEST, the one register write that a lane in FAILED judges (R408). -/
def Access.retest (x : Access) : Bool :=
  x.addr == 0x80040 && (match x.op with
    | .write (w :: _) be => bit w 0 && be.getLsbD 0
    | .rmw _ v => bit v 0
    | _ => false)

/-- The session of an access. -/
def Access.sess (x : Access) : Option (Fin 4) := x.q.map (·.sess)

/-- An access waits behind an earlier one that writes: a write to the same page, or to the ordering group in the same session; a read
behind its own session's write to the same page (R103, R104). -/
def Access.behind (x y : Access) : Bool :=
  let page := x.addr / 0x1000 == y.addr / 0x1000
  let same := x.sess == y.sess
  y.isWrite && (if x.isWrite then page || (same && mirrored x.addr && mirrored y.addr) else page && same)

/-- A register's shadow is armed, in the lane, or in its peer for an axle-wide register (R108, R268). -/
def State.armedAt (s : State) (l : Lane) (addr : Nat) : Bool :=
  let armed := fun (k : Lane) => (s.lane k).shadows.any (fun h => h.addr == addr && h.armed)
  armed l || (axleWide addr && s.linkUp l && armed l.other)

/-- An access must wait: behind an armed shadow that it writes, or behind an access that waits (R108). -/
def State.mustWait (s : State) (l : Lane) (x : Access) (ahead : List Access) : Bool :=
  (x.isWrite && x.words.any (s.armedAt l)) || ahead.any x.behind

/-- A response sent towards an end; BUSY answers are counted (R408, R420). A lane without a device number of its own answers none (R51,
R411). -/
def State.answerTo (s : State) (l : Lane) (type : Byte) (q : Req) (addr : Nat) (d : List Byte) (e : Bool) : State :=
  let st := (s.lane l).answer.status
  let s := if st == .busy then s.bump l F.RING_CNT2_BUSY else s
  if s.talks l then s.send l e (.rsp e type q.sess q.seq (BitVec.ofNat 24 addr) st d) else s

/-- The responses of an access, towards each end from which a copy came (R390, R408). -/
def State.respond (s : State) (l : Lane) (x : Access) (d : List Byte) : State :=
  match x.q with
  | none => s
  | some q =>
    let type : Byte := match x.op with
      | .write _ _ => 0x11
      | .rmw _ _ => 0x12
      | .read _ => 0x10
    x.ends.foldl (fun s e => s.answerTo l type q x.addr d e) s

/-- The request was applied or read: its status is no rejection (R94). -/
def Status.taken (st : Status) : Bool := st == .ok || st == .dualPend || st == .notMirrored

/-- A write of a signal whose LANE is MIRRORED takes effect in the peer as well, before its acknowledgement (R102). -/
def State.mirror (s : State) (l : Lane) (x : Access) : State :=
  let st := (s.lane l).answer.status
  if !x.mirror || !st.taken || axleWide x.addr then s
  else if s.linkUp l && s.ready l.other then
    match x.op with
    | .write [w] be => match s.writeWord l.other { again := true } x.addr w be with
      | .ok (t, _) => t
      | .error _ => s
    | _ => s
  else (s.modSess l x.q (fun e => { e with unmirrored := true })).reply l .notMirrored

/-- A read: its status, and the bytes where every word can be read (R86, R447). -/
def State.readAll (s : State) (l : Lane) (addrs : List Nat) : Status × List Byte :=
  match addrs.findSome? (s.readFail l) with
  | some st => (st, [])
  | none => (.ok, addrs.flatMap (fun a => wordBytes (s.wordAt l a)))

/-- An access checked and performed: the state that answers it, and the bytes of its response. -/
def State.perform (s : State) (l : Lane) (x : Access) : State × List Byte :=
  let c : WCtx := { q := x.q, ph := x.ph }
  match x.op with
  | .write ws be => ((s.writes l c x.addr ws be false).mirror l x, [])
  | .rmw mask v =>
    let old := s.wordAt l x.addr
    let t := s.writes l c x.addr [(old &&& mask) ||| v] 0xF true
    (t, if (t.lane l).answer.status.taken then wordBytes old else [])
  | .read _ =>
    let (st, d) := s.readAll l x.words
    (s.reply l st (BitVec.ofNat 32 (bytesNat (d.take 4))), d)

/-- An access performed, its number entered in the record, and its copies answered (R105, R408). One answered BUSY is not accepted. -/
def State.finish (s : State) (l : Lane) (x : Access) : State :=
  let (t, d) := s.perform l x
  if t.inReset l then t else
  let st := (t.lane l).answer.status
  let t := match x.isWrite, x.q with
    | true, some r => if st == Status.busy then t else t.accept l r.sess r.seq st
    | _, _ => t
  t.respond l x d

/-- What a performed access leaves for its covering PERIOD, where one has arrived while it waited (R106). -/
def State.finishWaiting (s : State) (l : Lane) (x : Access) : State :=
  match x.q, x.covered with
  | some r, p :: _ =>
    let old := (s.lane l).sess[r.sess]
    let s := s.modSess l x.q (fun e => { e with dualLost := false, unmirrored := false, halves := [] })
    let s := s.finish l x
    let new := (s.lane l).sess[r.sess]
    let s := s.modSess l x.q (fun e => { e with
      dualLost := old.dualLost, unmirrored := old.unmirrored, halves := old.halves })
    s.both (fun k s => s.modSess k x.q (fun e => { e with periods := e.periods.map (fun y =>
      if y.seq == p.seq then { y with
        halves := y.halves ++ new.halves.map (fun a => (l, a)), dualLost := y.dualLost || new.dualLost
        unmirrored := y.unmirrored || new.unmirrored } else y) }))
  | _, _ => s.finish l x

/-- The first waiting access that nothing holds any more, with those that go on waiting. -/
def State.nextFree (s : State) (l : Lane) : List Access → List Access → Option (Access × List Access)
  | _, [] => none
  | ahead, x :: t => if s.mustWait l x ahead then s.nextFree l (ahead ++ [x]) t else some (x, ahead ++ t)

/-- The waiting accesses that nothing holds any more are performed in their order. -/
def State.drainN (s : State) (l : Lane) : Nat → State
  | 0 => s
  | n + 1 => match s.nextFree l [] (s.lane l).waiting with
    | none => s
    | some (x, rest) => ((s.modLane l (fun y => { y with waiting := rest })).finishWaiting l x).drainN l n
def State.drain (s : State) : State := s.both (fun l s => s.drainN l (s.lane l).waiting.length)

/-- A waiting access placed in its queue: behind those before it, but before a newer number of its session in the ordering group
(R103). -/
def queueIn (x : Access) : List Access → List Access
  | [] => [x]
  | y :: t =>
    let newer := match x.q, y.q with
      | some a, some b => a.sess == b.sess && isNewer b.seq a.seq
      | _, _ => false
    if x.isWrite && y.isWrite && mirrored x.addr && mirrored y.addr && newer then x :: y :: t else y :: queueIn x t

/-- The requests of a session that are outstanding in a lane. -/
def State.outstanding (s : State) (l : Lane) (k : Fin 4) : Nat :=
  ((s.lane l).waiting.filter (fun y => y.sess == some k)).length + (s.lane l).sess[k].periods.length

/-- A copy of a request whose first copy still waits is answered with it (R105). -/
def State.joinWaiting (s : State) (l : Lane) (x : Access) : Option State :=
  if x.isWrite && x.q.isSome && (s.lane l).waiting.any (fun y => y.isWrite && y.q == x.q) then
    some (s.modLane l (fun v => { v with waiting := v.waiting.map (fun y =>
      if y.isWrite && y.q == x.q then { y with ends := y.ends ++ x.ends } else y) }))
  else none

/-- What a lane knows of the number of a request: a read and an unnumbered one are new. -/
def State.judged (s : State) (l : Lane) (x : Access) : SeqVerdict :=
  match x.isWrite, x.q with
  | true, some r => (s.lane l).sess[r.sess].judge r.seq
  | _, _ => .new

/-- A request turned away: a write is rejected, a read answered with its status. -/
def State.refuse (s : State) (l : Lane) (x : Access) (st : Status) : State :=
  let s := if x.isWrite then s.reject l st else s.reply l st
  let s := match x.isWrite, x.q with
    | true, some r => s.accept l r.sess r.seq st
    | _, _ => s
  s.respond l x []

/-- An access through a lane (R62, R105, R408, R489): BUSY first, then its number; one that the lane's state does not serve, or that is
`bad` by the rules of its frame, ends with the first status that applies; else it waits or is performed. No rule states what the
response to the second copy of an RMW carries. -/
def State.access (s : State) (l : Lane) (x : Access) (bad : Option Status := none) : State :=
  if s.inReset l then s else
  let busy := fun (_ : Unit) => (s.reply l .busy).respond l x []
  let away := s.turnAway l x.addr x.isWrite x.retest
  if away == some .busy then busy () else
  match s.joinWaiting l x with
  | some t => t
  | none =>
    match s.judged l x with
    | .dup st =>
      match x.op with
      | .rmw _ _ => let (w, s) := s.fresh; (s.reply l st).respond l x (if st.taken then wordBytes w else [])
      | _ => (s.reply l st).respond l x []
    | .stale => (s.reject l .seqStale).respond l x []
    | .new =>
      let full := x.sess.any (fun k => decide (s.outstanding l k ≥ 16))
      let no := match away, bad with
        | some a, some b => some (a.first b)
        | some a, none => some a
        | none, b => b
      if full then busy () else
      match no with
      | some st =>
        let st := st.first ((s.perform l x).1.lane l).answer.status
        if st == .busy then busy () else s.refuse l x st
      | none =>
        if s.mustWait l x (s.lane l).waiting then s.modLane l (fun v => { v with waiting := queueIn x v.waiting })
        else (s.finish l x).drain

/-- A write of one word with a number. -/
def State.write1 (s : State) (l : Lane) (q : Option Req) (addr : Nat) (w : Word) (be : BitVec 4) : State :=
  s.access l { q := q, addr := addr, op := .write [w] be }

/-- REGISTER_WRITE: a write of a register or window word through a lane (R93). `ph`: where the CAN controller's own frame stands. -/
def execRegisterWrite (l : Lane) (addr : BitVec 24) (data : Word) (be : BitVec 4) (q : Option Req) (ph : BusPhase) (s : State) : Out :=
  done (s.access l { q := q, addr := addr.toNat, op := .write [data] be, ph := ph })

/-- BLOCK_SOFT_RESET: PG_CTRL.SRST of a page (R90). -/
def execBlockSoftReset (l : Lane) (pg : BitVec 12) (q : Option Req) (s : State) : Out :=
  done (s.write1 l q (pg.toNat * 0x1000 + 4) 2 0x1)

/-- LOCK_SET: a write of PG_LOCK (R95, R96). -/
def execLockSet (l : Lane) (pg : BitVec 12) (w : Word) (q : Option Req) (s : State) : Out :=
  done (s.write1 l q (pg.toNat * 0x1000 + 8) w 0xF)

/-- EVENT_FORCE: a write of EVT_FORCE (R89). -/
def execEventForce (l : Lane) (pg : BitVec 12) (w : Word) (q : Option Req) (s : State) : Out :=
  done (s.write1 l q (pg.toNat * 0x1000 + 0x1C) w 0xF)

/-- DUAL_WRITE_HALF: a write of a register that holds dual-write fields (R97). -/
def execDualWriteHalf (l : Lane) (addr : BitVec 24) (data : Word) (q : Option Req) (s : State) : Out :=
  done (s.write1 l q addr.toNat data 0xF)

/-- DUAL_TIMEOUT: 10 ms of the monitor's clock have passed over a half that waits for its partner (R97). -/
def execDualTimeout (l : Lane) (addr : BitVec 24) (s : State) : Out :=
  let mine := fun (h : Half) => h.lane == l && h.addr == addr.toNat
  if !s.mon.alive || !s.mon.halves.any mine then done s else
  let s := s.modMon (fun m => { m with halves := m.halves.filter (fun h => !mine h) })
  done ((s.halfGone l addr.toNat true).monEv E.MON_DUAL_TIMEOUT)

/-- DUAL_HALF_LANE_TIMEOUT: 10 ms have passed in the lane over a half of which the monitor has not told the end (R97). -/
def execDualHalfLaneTimeout (l : Lane) (addr : BitVec 24) (s : State) : Out :=
  done (if (s.lane l).timedHalves.contains addr.toNat then s.halfGone l addr.toNat true else s)

/-- Why a signal's write or read is rejected before its register is reached (R102, R447). The owner of a function without a page of its
own is the lane that holds the token. -/
def State.sigFail (s : State) (l : Lane) (e : DirEntry) (write : Bool) : Option Status :=
  let own := match pageAt (dirAddr e) with
    | some p => (s.pageOwner p (dirAddr e % 0x1000)).getD (if s.holdsAny l then l else l.other)
    | none => l
  if !s.bankOn l 11 then some .stateErr
  else if dirType e == 0 || (if write then !dirWr e else !dirRd e) then some .idErr
  else if write && dirLane e == 2 && own != l then some .ownerErr
  else none

/-- SIGNAL_ACCESS: a read, or a write of a raw value, of a signal named by its local number (R102). The write sets the signal's field and
leaves the other fields of its bytes as they read; the read returns the word at ADDR. -/
def execSignalAccess (l : Lane) (n : BitVec 14) (w : Option Word) (q : Option Req) (ph : BusPhase) (s : State) : Out :=
  let e := s.dirEntry l n.toNat
  let known := s.bankOn l 11
  let a := if known then dirAddr e else 0x800000
  let be : BitVec 4 := (List.range 4).foldl (fun m k =>
    if dirPos e < 8 * k + 8 && 8 * k < dirPos e + dirWidth e then m ||| (1#4 <<< k) else m) 0
  let op := match w with
    | some v => .write (if known then [setBits (s.wordAt l a) (dirPos e) (dirWidth e) v.toNat] else []) be
    | none => .read (if known then 4 else 0)
  let x : Access := { q := q, addr := a, ph := ph, mirror := dirLane e == 1, op := op }
  done (s.access l x (s.sigFail l e w.isSome))

/-- A PERIOD arrives (R106, R108): it covers what its session has written since the PERIOD before it, in either lane, and marks the
shadows written before it. With the link down it covers the addressed lane alone. -/
def State.periodIn (s : State) (l : Lane) (q : Req) (ends : List Bool) : State :=
  let up := s.linkUp l && s.ready l.other
  let lanes := if up then [l, l.other] else [l]
  let p : PeriodReq := lanes.foldl (fun (p : PeriodReq) k =>
    let e := (s.lane k).sess[q.sess]
    { p with
      halves := p.halves ++ e.halves.map (fun a => (k, a)), dualLost := p.dualLost || e.dualLost
      unmirrored := p.unmirrored || e.unmirrored }) { seq := q.seq, ends := ends, linkLost := !up }
  let s := lanes.foldl (fun (s : State) k =>
    let s := s.modSess k (some q) (fun e => { e with halves := [], dualLost := false, unmirrored := false })
    s.modLane k (fun v => { v with
      shadows := v.shadows.map (fun h => if h.armed then h else { h with due := h.due ++ [q] })
      waiting := v.waiting.map (fun y => if y.sess == some q.sess && y.covered.isEmpty then { y with covered := [q] } else y) })) s
  s.modSess l (some q) (fun e => { e with periods := e.periods ++ [p] })

/-- A PERIOD's acknowledgement sent towards the ends of its copies. -/
def State.respondPeriod (s : State) (l : Lane) (q : Req) (ends : List Bool) : State :=
  ends.foldl (fun s e => s.answerTo l 0x13 q 0 [] e) s

/-- A PERIOD request through a lane (R105, R106, R408). It is served in FAILED and in boot-hold, and a copy of one that awaits
completion is answered with it. `bad`: rejected by the rules of its frame. -/
def State.period (s : State) (l : Lane) (q : Req) (ends : List Bool) (bad : Option Status) : State :=
  let e := (s.lane l).sess[q.sess]
  if s.inReset l then s
  else if (s.turnAway l 0xA1000 true false).isSome then (s.reply l .busy).respondPeriod l q ends
  else if e.periods.any (fun p => p.seq == q.seq) then
    s.modSess l (some q) (fun e => { e with periods := e.periods.map (fun p =>
      if p.seq == q.seq then { p with ends := p.ends ++ ends } else p) })
  else match e.judge q.seq with
    | .dup st => (s.reply l st).respondPeriod l q ends
    | .stale => (s.reject l .seqStale).respondPeriod l q ends
    | .new =>
      if s.outstanding l q.sess ≥ 16 then (s.reply l .busy).respondPeriod l q ends else
      match bad with
      | some st => ((s.reject l st).accept l q.sess q.seq st).respondPeriod l q ends
      | none => s.periodIn l q ends

/-- The status of a completed PERIOD (R106). -/
def State.periodStatus (s : State) (l : Lane) (p : PeriodReq) : Status :=
  if p.dualLost then .dualFail
  else if p.unmirrored || p.linkLost || !s.linkUp l then .notMirrored
  else .ok

/-- The shadows that a PERIOD covers are armed (R108). -/
def State.arm (s : State) (l : Lane) (q : Req) : State :=
  s.modLane l (fun v => { v with shadows := v.shadows.map (fun h => if h.due.contains q then { h with armed := true } else h) })

/-- PERIOD_COMPLETE: the oldest PERIOD of a session in a lane: all that it covers has ended, in both lanes while the link is up, and no
earlier PERIOD of the session is unacknowledged (R106). -/
def execPeriodComplete (l : Lane) (k : Fin 4) (s : State) : Out :=
  match (s.lane l).sess[k].periods with
  | [] => done s
  | p :: rest =>
    let q : Req := { sess := k, seq := p.seq }
    let lanes := if s.linkUp l && !p.linkLost then [l, l.other] else [l]
    let waits := lanes.any (fun x => (s.lane x).waiting.any (fun y => y.isWrite && y.covered.contains q))
    let earlier := lanes.any (fun x => x != l && (s.lane x).sess[k].periods.any (fun y => isNewer p.seq y.seq))
    if s.inReset l || waits || earlier || !(p.halves.filter (fun h => lanes.contains h.1)).isEmpty then done s else
    let st := s.periodStatus l p
    let s := s.modSess l (some q) (fun e => { e with periods := rest })
    let s := (s.arm l q).reply l st
    done ((s.accept l k p.seq st).respondPeriod l q p.ends)

/-- SHADOW_ARM_PEER: a lane receives the notice that its peer has completed a PERIOD, and arms the shadows that it covers (R109). -/
def execShadowArmPeer (l : Lane) (q : Req) (s : State) : Out :=
  let e := (s.lane l.other).sess[q.sess]
  let complete := e.seen.any (fun p => p.1 == q.seq) && !e.periods.any (fun p => p.seq == q.seq)
  done (if s.ready l && s.linkUp l && complete then s.arm l q else s)

/-- The droop sharers of a lane's law take up DCL_DROOP (R264): a shadow transfer, made whether or not loop 3 is closed. -/
def State.feedDroop (s : State) (l : Lane) : State :=
  let m := (s.lane l).mem
  let as := (kernelsOf m).filterMap (fun e => if e.1.ktype == 0x13 then some (b10Param (e.1.pbase + e.2.inWords)) else none)
  let w := s.word l F.DCL_DROOP_RDROOP.addr
  if !s.bankOn l 10 then s else s.modLane l (fun x => { x with mem := as.foldl (fun m a => Machine.mput m a w) x.mem })

/-- A lane's armed shadows transferred into effect (R29, R108); then the accesses that waited behind them are performed. -/
def State.transferShadows (s : State) (l : Lane) : State :=
  let s := (s.lane l).shadows.foldl (fun (s : State) h =>
    if !h.armed then s else
    let m := match regFields h.addr with
      | some fs => maskOf fs (·.shadow)
      | none => 0
    let s := s.putWord l h.addr ((s.word l h.addr &&& ~~~m) ||| (h.val &&& m))
    if h.addr == F.DCL_DROOP_RDROOP.addr then s.feedDroop l else s) s
  (s.modLane l (fun v => { v with shadows := v.shadows.filter (fun h => !h.armed) })).drain

/-- SHADOW_TRANSFER: the first medium-cycle boundary after arming (R29). -/
def execShadowTransfer (l : Lane) (s : State) : Out := done (if s.inReset l then s else s.transferShadows l)

/-- DCL_WRITE: a write of a DCL block register (R268, R284). -/
def execDclWrite (l : Lane) (off : BitVec 12) (data : Word) (be : BitVec 4) (q : Option Req) (s : State) : Out :=
  done (s.write1 l q (0x70000 + off.toNat) data be)

/-- DCL_ENABLE and DCL_DISABLE: DCL_CTRL written with EN set or clear and its other fields as they are (R269, R270). -/
def execDclEnable (l : Lane) (q : Option Req) (s : State) : Out :=
  done (s.write1 l q 0x70040 (s.word l 0x70040 ||| 1) 0x1)
def execDclDisable (l : Lane) (q : Option Req) (s : State) : Out :=
  done (s.write1 l q 0x70040 (s.word l 0x70040 &&& ~~~1#32) 0x1)

/-- PHASE_CLEAR: DCL_CLR.PHASE of phase m + 1 (R274). -/
def execPhaseClear (l : Lane) (m : Fin 4) (q : Option Req) (s : State) : Out := done (s.write1 l q 0x7007C (1#32 <<< m.val) 0x1)

/-- Clears of counters and faults: one bit of a clear register (R284, R293, R306 to R308, R420). -/
def execDclClrCnt (l : Lane) (q : Option Req) (s : State) : Out := done (s.write1 l q 0x7007C 0x10 0x1)
def execChgClrFault (l : Lane) (q : Option Req) (s : State) : Out := done (s.write1 l q 0x73074 2 0x1)
def execChgClrCnt (l : Lane) (q : Option Req) (s : State) : Out := done (s.write1 l q 0x73074 1 0x1)
def execAfeClrCnt (l : Lane) (q : Option Req) (s : State) : Out := done (s.write1 l q 0x71060 1 0x1)
def execDabClrCnt (l : Lane) (q : Option Req) (s : State) : Out := done (s.write1 l q 0x72054 1 0x1)
def execRingClrCnt (l : Lane) (q : Option Req) (s : State) : Out := done (s.write1 l q 0xA0070 1 0x1)

/-- The commands of an actuator: ACTa_CMD.CMD (R316, R321). -/
def State.actWrite (s : State) (l : Lane) (a : Fin 2) (q : Option Req) (c : Word) : State :=
  s.write1 l q (0x74060 + a.val * 0x40) c 0x1
def execActMove (l : Lane) (a : Fin 2) (q : Option Req) (s : State) : Out := done (s.actWrite l a q 1)
def execActHome (l : Lane) (a : Fin 2) (q : Option Req) (s : State) : Out := done (s.actWrite l a q 2)
def execActLearn (l : Lane) (a : Fin 2) (q : Option Req) (s : State) : Out := done (s.actWrite l a q 3)
def execActStop (l : Lane) (a : Fin 2) (q : Option Req) (s : State) : Out := done (s.actWrite l a q 4)
def execActCoast (l : Lane) (a : Fin 2) (q : Option Req) (s : State) : Out := done (s.actWrite l a q 5)
def execActClear (l : Lane) (a : Fin 2) (q : Option Req) (s : State) : Out := done (s.actWrite l a q 6)

/-- ACTa_CLR.CNT acts in the addressed lane (R321). -/
def execActClrCnt (l : Lane) (a : Fin 2) (q : Option Req) (s : State) : Out :=
  done (s.write1 l q (0x74074 + a.val * 0x40) 1 0x1)

/-- RED_WRITE: a write of a RED block register (R351). -/
def execRedWrite (l : Lane) (off : BitVec 12) (data : Word) (be : BitVec 4) (q : Option Req) (s : State) : Out :=
  done (s.write1 l q (0x80000 + off.toNat) data be)

/-- SAF_ACK: SAF_CTRL.ACK written through a lane (R97, R372). -/
def execSafAck (l : Lane) (q : Option Req) (s : State) : Out := done (s.write1 l q 0x90074 1 0x1)

/-- MON_LOG_CLR.CNT and MON_LOG_CLR.CLEAR written through a lane (R97, R469). -/
def execMonLogClrCnt (l : Lane) (q : Option Req) (s : State) : Out := done (s.write1 l q 0xC0048 2 0x1)
def execMonLogClear (l : Lane) (q : Option Req) (s : State) : Out := done (s.write1 l q 0xC0048 1 0x1)

end Sys2Proof.Machine
end

