-- ==== Sys2Proof/Machine/Wires.lean ====
section
/-! DEFINITION. What a fast-cycle start writes and sends: loops that close, source wires, the peer exchange, the share of torque,
the torque chain's reports, captures, heartbeat and state copy (R165, R171, R176, R194, R197 to R201, R209, R327, R328, R449). -/
namespace Sys2Proof.Machine

/-- A rate group has not finished when its next start falls due (R31, R174): group code 1 slow, 2 medium, 3 fast; `n` overruns in a
row. -/
def State.overrun (s : State) (l : Lane) (group n : Nat) : State :=
  let s := ((s.bump l F.CE_STAT_OVR_CNT).put l F.CE_STAT_OVR_GRP group).pulseEv l E.CE_OVERRUN
  if n ≥ 2 then s.selfFail l 4 else s

/-- The loops asked to close do so (R176); ramps of theirs whose MEAS is connected preset from it (R179). -/
def State.closeLoops (s : State) (l : Lane) : State :=
  let req := (s.lane l).loopReq
  let a := F.CE_LOOP_STAT_CLOSED.addr
  let was := s.word l a
  let m := (s.lane l).mem
  let ks := ((entriesOf m).filter (fun e =>
    e.2.ktype == 0x07 && bit (req &&& ~~~was) e.2.loop && inputWire m e.2 1 < 2048)).map (·.1)
  (s.putWord l a (was ||| req)).modLane l (fun x => { x with
    loopReq := 0
    eng := { x.eng with rampPre := ks ++ x.eng.rampPre.filter (fun k => !ks.contains k) } })

/-- The modulators of the own set load the duties of the last cycle at this update point (R28, R192). -/
def State.loadTraction (s : State) (l : Lane) : State := ((s.loadSink l 0).loadSink l 1).loadSink l 2

/-- Wires 0x000 to 0x03F (R165). -/
def State.sourceWires (s : State) (l : Lane) : List Word :=
  let e := (s.lane l).eng
  let p := fun (n : Nat) => s.phys l n
  [p 0, p 1, p 2, p 9, p 10, p 11,
   fInt (s.fld l F.FBK_ANG_ANGLE), s.word l F.FBK_SPEED_SPEED.addr, fBool (s.flag l F.FBK_ANG_VALID),
   p 3, p 4, p 5, p 6, p 7, p 8,
   s.sense l (linkStream l), s.exchWord l 9, (if l == .A then s.sense .A 2 else s.exchWord .B 10),
   s.sense l 3, s.sense l 4, s.sense l 5, s.sense l 6] ++
  (List.range 6).map (fun k => fFrac (signed 16 (s.fld l (F.SMP_TEMP_TEMP k))) 16) ++
  [s.spWire l, fBool (s.flag l F.CE_STAT_HALF), fBool (s.holdsAny l),
   fMul (s.word l F.RED_SHARE_ACT_SHARE.addr) (fFrac (s.lane l).trc.rampIn 1000000)] ++
  (List.range 15).map (nth e.exch) ++ [fInt e.age] ++
  (List.range 16).map (s.ringWire l)

/-- The wires loaded at a fast-cycle start: the source wires, the wires that medium and slow groups have held back, and the ACT
input wires (R165, R170, R310). -/
def State.loadWires (s : State) (l : Lane) : State :=
  let ws := s.sourceWires l
  let s := s.modLane l (fun x => { x with
    mem := mputs (x.eng.held.foldl (fun m w => Machine.mput m (b10Wire w.1) w.2) x.mem) (b10Wire 0) ws
    eng := { x.eng with held := [] } })
  s.actWires l

/-- The set mode that a lane sends in word 0x02D (R194, R213, R228). -/
def State.setMode (s : State) (l : Lane) : Nat :=
  if s.smIgnores l then 4 else
  match s.sm l with
  | 0 | 1 => 0
  | 2 => 3
  | 4 => 2
  | 8 => 5
  | 9 => if s.selAsc l then 2 else 3
  | _ => 1

/-- The peer set mode in use (R194, R335): the peer's word, or by the monitor's selection once the peer is declared failed. -/
def State.peerMode (s : State) (l : Lane) : Nat :=
  if (s.lane l).red.peerFailed then (if s.selAsc l then 2 else 3) else fToNat 4 (s.exchWord l 13)

/-- The exchange taken up at a fast-cycle start (R34, R194, R199): missing messages counted, the peer's geometry, the peer set mode
and the drag compensation that follows from it, and the torque command in effect (R197). True where the message was missing. -/
def State.takeExchange (s : State) (l : Lane) : State × Bool :=
  let e := (s.lane l).eng
  let missed := !e.gotExch
  let s := if missed then (s.bump l F.TRC_MISS_CONSEC).bump l F.TRC_MISS_MISS_CNT else s.put l F.TRC_MISS_CONSEC 0
  let p := l.other
  let up := s.linkUp l && s.ready p
  let g := s.geom p
  let follows := l == .B && s.linkUp l && !(s.lane l).red.peerFailed && !s.inReset p && s.fld l F.TRC_SET_GEOM != 2
  let t := if follows then s.exchWord l 11 else e.tLoad
  let s := s.modEng l (fun e => { e with
    gotExch := false, age := if missed then e.age + 1 else 0, okRun := if missed then 0 else e.okRun + 1, tStar := t
    peerGeom := if up then some g else e.peerGeom })
  let mode := s.peerMode l
  let drag := mode == 2 && s.fld l F.TRC_SET_GEOM != 2
  let s := s.put l F.TRC_STAT_PEER_MODE mode
  ((s.putFlag l F.TRC_STAT_DRAG_ON drag).levelEv l E.TRC_DRAG drag, missed)

/-- The configured share of a lane (R351). -/
def State.shareCfg (s : State) (l : Lane) : Word :=
  let a := s.word l F.RED_SHARE_SHARE_A.addr
  if l == .A then a else fSub fOne a

def State.setShare (s : State) (l : Lane) (w : Word) : State := s.putWord l F.RED_SHARE_ACT_SHARE.addr w

/-- The number of fast cycles in a number of milliseconds. -/
def State.cyclesIn (s : State) (l : Lane) (n : Nat) : Nat := n * s.fastRate l / 100

/-- A lane's set leaves the sharing of torque in SAFE and ASC_ACQ, and in CATCH after RUN, until it runs again (R213). -/
def State.markLost (s : State) (l : Lane) : State :=
  let st := s.sm l
  if st == 9 || st == 4 || (st == 2 && s.fld l F.TRC_SM_STAT_PREV == 6) then s.modRed l (fun r => { r with lost := true }) else s

/-- The lane that leads the share beside Lane A: one whose set is out of the sharing of torque, or whose return ramp runs (R347). -/
def State.leadsReturn (s : State) (l : Lane) : Bool := (s.lane l).red.lost || s.flag l F.RED_STAT_RETURNING

/-- The own share in a fast cycle (R201, R342, R347): 1.0 beside a failed peer, frozen without the link, 0 while the own set is out,
the return ramp from its entry into RUN, the leader's complement, or the configured share approached at RATE. -/
def State.shareFast (s : State) (l : Lane) : State :=
  let r := (s.lane l).red
  let p := l.other
  let cfg := s.shareCfg l
  let now := s.word l F.RED_SHARE_ACT_SHARE.addr
  if s.self l != 2 then s
  else if r.peerFailed then
    (s.modRed l (fun r => { r with ramp := none, shareOn := true, lost := r.lost && s.sm l != 6 })).setShare l fOne
  else if !s.linkUp l then s
  else if r.lost then
    if s.sm l == 6 then
      let s := s.modRed l (fun r => { r with
        lost := false, shareOn := true, ramp := some (0, cfg, 0, s.cyclesIn l (s.fld l F.RED_CFG_RET_T)) })
      (s.putFlag l F.RED_STAT_RETURNING true).setShare l 0
    else s.setShare l 0
  else match r.ramp with
  | some (a, z, k, n) =>
    let (a, z, k, n) := if z == cfg then (a, z, k, n) else (now, cfg, 0, n - k)
    let k := k + 1
    if k ≥ n then (s.modRed l (fun r => { r with ramp := none })).setShare l z
    else (s.modRed l (fun r => { r with ramp := some (a, z, k, n) })).setShare l (fAdd a (fMul (fSub z a) (fFrac k n)))
  | none =>
    if s.flag l F.RED_STAT_RETURNING then s
    else if s.ready p && s.leadsReturn p && !(s.lane l).eng.exch.isEmpty then s.setShare l (fSub fOne (s.exchWord l 12))
    else if !r.shareOn then (s.modRed l (fun r => { r with shareOn := true })).setShare l cfg
    else if l == .A then s.setShare l (towards now cfg (fFrac (s.fld l F.RED_SHARE_RATE_RATE) (10 * s.fastRate l)))
    else if s.ready p && !(s.lane l).eng.exch.isEmpty then s.setShare l (fSub fOne (s.exchWord l 12))
    else s

/-- TRC_ID to TRC_DRAG after the fast kernels (R209), and the torque limit's report (R198, R229). -/
def State.torqueReport (s : State) (l : Lane) : State :=
  let m := (s.lane l).mem
  let s := (List.range 7).foldl (fun (s : State) k =>
    s.putWord l (F.TRC_ID_ID.addr + 4 * k) (mw m (b10Wire (Config.trcWire (k + 1))))) s
  let d := if s.flag l F.TRC_STAT_DRAG_ON then s.word l F.TRC_DRAG_DRAG.addr else 0
  let want := fAdd (fMul (mw m (b10Wire 0x01F)) (s.lane l).eng.tStar) d
  let lim := fMul (s.word l F.TRC_TMAX_TMAX.addr) (fFrac (s.lane l).trc.derate 100)
  let on := fLt lim (fAbs want)
  (s.putFlag l F.TRC_STAT_TLIM on).levelEv l E.TRC_TLIM on

/-- What the fast group has reported of the voltage limiter, MMAX and field weakening (R192, R200, R203). -/
def State.limitReport (s : State) (l : Lane) (r : Run) : State :=
  let s := (s.putFlag l F.TRC_STAT_VLIM r.vlim).modEng l (fun e => { e with vlimRun := if r.vlim then e.vlimRun + 1 else 0 })
  let was := s.flag l F.TRC_STAT_MMAX_CL
  let s := s.putFlag l F.TRC_STAT_MMAX_CL r.mmax
  let s := if r.mmax && !was then s.pulseEv l E.TRC_MMAX_CLAMP else s
  s.putFlag l F.TRC_STAT_FW (match s.kernelOut l 0x0E 0 with
    | some w => fVal w != 0
    | none => false)

/-- The blend of R226 goes on by one cycle: its first keeps the currents measured, the predictor's inputs 2 and 3. -/
def State.blendOn (s : State) (l : Lane) : State :=
  let t := (s.lane l).trc
  if !t.blend then s else
  let m := (s.lane l).mem
  let i : Word × Word := match firstOf m 0x0D with
    | some e => (mw m (b10Wire (inputWire m e.1 2)), mw m (b10Wire (inputWire m e.1 3)))
    | none => (0, 0)
  s.modTrc l (fun t => { t with
    blendI := if t.blendN == 0 then i else t.blendI, blendN := t.blendN + 1
    blend := (t.blendN + 1) * 2000 < s.fld l F.TRC_SM_CFG_BLEND * s.fastRate l })

/-- The fast kernels run, with the cycles they take, what they report, the copied words and the duties (R171, R174, R203). -/
def State.fastKernels (s : State) (l : Lane) (missed : Bool) : State :=
  if !s.flag l F.CE_STAT_RUNNING then s else
  let r := s.runGroup l 3 missed
  let s := (s.afterGroup l 3 r).limitReport l r
  let n := groupCost (s.lane l).mem 3 + 150
  let s := s.put l F.CE_CYC_FAST_LAST (sat 16 n)
  let s := s.put l F.CE_CYC_FAST_MAX (max (s.fld l F.CE_CYC_FAST_MAX) (sat 16 n))
  let s := (s.torqueReport l).blendOn l
  s.modLane l (fun x => { x with
    mem := mputs x.mem (b10Copy 0) (copyWords x.mem)
    eng := { x.eng with duty := (List.range 64).map (fun i => mw x.mem (b10Wire (0x080 + i))) } })

/-- A sink wire from 0x08A as the 16-bit signed fraction that the state copy carries (R327). -/
def State.sinkFrac (s : State) (l : Lane) (i : Nat) : BitVec 16 :=
  BitVec.ofNat 16 (fToSigned 16 (fMul (mw (s.lane l).mem (b10Wire (0x08A + i))) (fInt 32768)))

/-- Whether the own sinks differ from the owner's by more than DIV_LIM / 256 (R325). -/
def State.diverges (s : State) (l : Lane) (c : StateCopy) : Bool :=
  (List.finRange 6).any (fun (i : Fin 6) =>
    ((s.sinkFrac l i.val).toInt - c.sinks[i].toInt).natAbs > s.fld l F.RED_SUBJ_DIV_LIM * 128)

/-- A leg fault of a token leg latched in its standby's fabric: the Subjunctive computation is invalid until it is cleared (R245). -/
def State.standbyLegBad (s : State) (l : Lane) : Bool :=
  (List.range 13).any (fun k => s.legOwner (10 + k) != l && s.legBits (10 + k) / 2 ^ l.idx % 2 == 1)

/-- The standby's comparison with the owner (R325): RED.SUBJ_DIVERGE and SUBJ_OK. -/
def State.subjCheck (s : State) (l : Lane) : State :=
  if s.holdsAny l || !s.linkUp l || !s.flag l F.CONJ_STAT_COPY_VALID then s else
  match (s.lane l).red.copy with
  | none => s
  | some c =>
    let far := s.diverges l c
    let n := s.fld l F.RED_SUBJ_DIV_N
    let s := s.modRed l (fun r => { r with
      divBad := if far then r.divBad + 1 else 0, divGood := if far then 0 else r.divGood + 1 })
    let r := (s.lane l).red
    let ok := s.flag l F.RED_STAT_SUBJ_OK
    if s.standbyLegBad l then s.putFlag l F.RED_STAT_SUBJ_OK false
    else if r.divBad ≥ n && ok then (s.putFlag l F.RED_STAT_SUBJ_OK false).pulseEv l E.RED_SUBJ_DIVERGE
    else if r.divGood ≥ n then s.putFlag l F.RED_STAT_SUBJ_OK true else s

/-- The age of the newest valid copy (R327, R352). -/
def State.copyAges (s : State) (l : Lane) : State :=
  let n := (s.lane l).red.copyAge + 1
  let s := (s.modRed l (fun r => { r with copyAge := n })).put l F.CONJ_AGE_AGE (sat 8 n)
  if n > s.fld l F.RED_COPY_COPY_AGE then s.putFlag l F.CONJ_STAT_COPY_VALID false else s

/-- CONJ_TOFS (R352): the peer's time minus the own in 100 ps; its PWM timebase is not part of the model. -/
def State.showTofs (s : State) (l : Lane) : State :=
  let d := (s.timeOfs.get l.other - s.timeOfs.get l) * 125
  let (w, s) := s.fresh
  (s.put l F.CONJ_TOFS_TIME_OFS (satBits 16 d)).put l F.CONJ_TOFS_PWM_OFS (bits w 0 16)

/-- The heartbeat of this fast cycle (R328). The period of a cycle lengthened by an alignment is not part of the model. -/
def State.sendHb (s : State) (l : Lane) : State :=
  let r := (s.lane l).red
  let fail := r.failSend > 0 || s.failed l
  let (w, s) := if s.flag l F.TRC_STAT_ALIGNING then s.fresh else (0, s)
  let per := if s.flag l F.TRC_STAT_ALIGNING then bits w 0 16 else sat 16 (Config.quot 10000000 (s.fastRate l)).toNat
  let b := fun (k : Nat) (f : Fld) => BitVec.ofNat k (s.fld l f)
  let h : Heartbeat :=
    { counter := r.hbCnt, state := b 3 F.RED_STAT_SELF, fail := fail, cause := b 4 F.RED_STAT_SELF_CAUSE
      peerSeen := s.flag l F.CONJ_STAT_HB_DIRECT, split := s.flag l F.RED_STAT_SPLIT, tokenPub := s.flag l F.RED_STAT_TOKEN_PUB
      speed := s.word l F.FBK_SPEED_SPEED.addr, vref := s.word l F.DCL_VREF_ACT_VREF_ACT.addr
      dclState := b 4 F.DCL_STAT_STATE, dclOv := s.flag l F.DCL_STAT_OV, speedValid := s.flag l F.FBK_ANG_VALID
      afeState := b 4 F.AFE_STAT_STATE, dabState := b 4 F.DAB_STAT_STATE, fper := BitVec.ofNat 16 per }
  s.modRed l (fun r => { r with txHb := some h, hbCnt := r.hbCnt + 1, failSend := r.failSend - 1 })

/-- One actuator as the state copy carries it (R327). The times left on its timers are not part of the model. -/
def State.actCopy (s : State) (l : Lane) (a : Fin 2) : ActCopy :=
  { state := BitVec.ofNat 8 (s.fld l (F.ACT_STAT_STATE a.val)), pos := s.word l (F.ACT_POS_POS a.val).addr
    ref := s.flag l (F.ACT_STAT_REF a.val), travel := BitVec.ofNat 32 (s.fld l (F.ACT_END_TRAVEL a.val))
    target := BitVec.ofNat 32 (s.fld l (F.ACT_TGT_TARGET a.val)) }

/-- The state copy of this fast cycle (R171, R327). -/
def State.sendCopy (s : State) (l : Lane) (valid : Bool) : State :=
  let x := s.lane l
  let b := fun (k : Nat) (f : Fld) => BitVec.ofNat k (s.fld l f)
  let tx := fun (n : Fin 8) => if s.flag l (F.CLS_CFG_EN n.val) && s.flag l (F.CLS_CFG_DIR n.val) then x.cls[n].sent else 0
  let c : StateCopy :=
    { counter := x.red.copyCnt, ts := s.stamp l, valid := valid, half := s.flag l F.CE_STAT_HALF, token := s.holdsAny l
      trcState := b 4 F.TRC_SM_STAT_STATE, safeCause := b 4 F.TRC_SM_STAT_CAUSE, chgState := b 8 F.CHG_STAT_STATE
      afeState := b 4 F.AFE_STAT_STATE, dabState := b 4 F.DAB_STAT_STATE
      seq := x.sess.map (·.highest), share := s.word l F.RED_SHARE_ACT_SHARE.addr, tstar := x.eng.tStar
      act := Vector.ofFn (s.actCopy l), ibat := x.chg.ibat
      sinks := Vector.ofFn (fun i : Fin 6 => s.sinkFrac l i.val), clsSeq := Vector.ofFn tx
      engine := (copyWords x.mem).zipIdx.map (fun w => (w.2, w.1)) }
  s.modRed l (fun r => { r with txCopy := some c, copyCnt := r.copyCnt + 1 })

/-- The 16 words of the current exchange (R33, R194). The references are the first two inputs of the law's predictor; the offset
between the lanes' sampling instants is not part of the model. -/
def State.sendExch (s : State) (l : Lane) : State :=
  let m := (s.lane l).mem
  let t := fun (k : Nat) => mw m (b10Wire (Config.trcWire k))
  let ref := fun (i : Nat) => match firstOf m 0x0D with
    | some e => mw m (b10Wire (inputWire m e.1 i))
    | none => 0
  let (w, s) := s.fresh
  let ws := [t 1, t 2, t 3, t 4, ref 0, ref 1, t 5, s.word l F.FBK_SPEED_SPEED.addr, fInt (s.fld l F.FBK_ANG_ANGLE),
    s.sense l (linkStream l), (if l == .A then s.sense .A 2 else 0), (s.lane l).eng.tLoad,
    s.word l F.RED_SHARE_ACT_SHARE.addr, fInt (s.setMode l), w, 0]
  s.modEng l (fun e => { e with txExch := ws })

/-- What a lane sends at the end of the fast kernels (R33, R327, R328). A lane in FAILED sends its two heartbeats with FAIL and
no copy. -/
def State.sendFast (s : State) (l : Lane) (valid : Bool) : State :=
  if s.failed l then (if (s.lane l).red.failSend > 0 then s.sendHb l else s)
  else ((s.sendExch l).sendCopy l valid).sendHb l

/-- A record of one window (R449): its channels, then the time stamp. -/
def State.capRecord (s : State) (l : Lane) (w : Nat) : List Word :=
  let ch := fun (n : Nat) =>
    let x := s.word l (0x0510C + w * 32 + (n / 2) * 4)
    bits x (16 * (n % 2)) 14
  let t := s.stamp l
  (List.range (s.fld l (F.MEM_CAP_CFG_NCH_M1 w) + 1)).map (fun n => s.sigWord l (ch n)) ++
  (if s.flag l (F.MEM_CAP_CFG_TS w) then [t.setWidth 32, (t >>> 32).setWidth 32] else [])

/-- Channel 0 of a window has risen above, or fallen below, its LEVEL since the last record (R450). -/
def State.capLevel (s : State) (l : Lane) (w : Fin 8) (new : Word) : Bool :=
  match (s.lane l).cap[w].last0 with
  | none => false
  | some old =>
    let lev := (s.word l (F.MEM_CAP_LEVEL_LEVEL w.val).addr).toInt
    match s.fld l (F.MEM_CAP_CFG_TMODE w.val) with
    | 2 => decide (old.toInt ≤ lev ∧ lev < new.toInt)
    | 3 => decide (lev ≤ old.toInt ∧ new.toInt < lev)
    | _ => false

/-- The windows of a rate record at a start of their group, what its last completed execution left (R449, R450). -/
def State.captures (s : State) (l : Lane) (rate : Nat) : State :=
  (List.finRange 8).foldl (fun (s : State) (w : Fin 8) =>
    if !s.capActive l w.val || s.fld l (F.MEM_CAP_CFG_RATE w.val) != rate then s
    else if s.fld l (F.MEM_CAP_STAT_STATE w.val) == 2 && (s.lane l).cap[w].post ≥ s.capPost l w.val then s
    else
      let r := s.capRecord l w.val
      let hit := s.capLevel l w (r.headD 0)
      let s := s.capAdd l w r
      if hit then s.capTrig l w else s) s

end Sys2Proof.Machine
end

