-- ==== Sys2Proof/Machine/Takeover.lean ====
section
/-! DEFINITION. The token functions between the lanes: the standby's journal and engine state, the take-over by a new owner, warm
or cold, and a returned lane's taking back of its set (R301, R302, R319, R325, R335, R340, R341, R347). -/
namespace Sys2Proof.Machine

/-- A journal entry applied with the acceptance given elsewhere, its number recorded, and the entry freed (R339, R340). -/
def State.applyEntry (s : State) (l : Lane) (e : JEntry) : State :=
  let s := match s.writeWord l { again := true } e.addr.toNat e.data e.be with
    | .ok (t, _) => t
    | .error _ => s
  if s.inReset l then s else
  let s := s.accept l e.sess e.seq .ok
  (s.modRed l (fun r => { r with journal := r.journal.filter (fun x => !(x.sess == e.sess && x.seq == e.seq)) })).showJournal l

/-- Entries of a lane's journal, of the four sessions in order, whose numbers pass a test against the copy's highest (R301, R340). -/
def State.journalDue (s : State) (l : Lane) (c : StateCopy) (ok : BitVec 16 → BitVec 16 → Bool) : List JEntry :=
  (List.finRange 4).flatMap (fun k => dueEntries (s.lane l).red.journal k (ok c.seq[k]) c.seq[k])

/-- A number is newer than an owner's highest: it has not been applied there as far as the copy says (R340). -/
def newerThan (h n : BitVec 16) : Bool := isNewer n h

/-- The state words of the entries that are copied, for the loops of a test, loaded from a copy (R171, R325). -/
def loadCopied (m : Mem) (want : Nat → Bool) (c : StateCopy) : Mem :=
  ((kernelsOf m).filter (fun e => e.1.copy)).foldl (fun (acc : Mem × Nat) e =>
    let m := (List.range e.2.nState).foldl (fun m i =>
      match c.engine.find? (fun w => w.1 == acc.2 + i) with
      | some w => if want e.1.loop then mput m (b10State (e.1.sbase + i)) w.2 else m
      | none => m) acc.1
    (m, acc.2 + e.2.nState)) (m, 0) |>.1

/-- The loops of the token functions (R176). -/
def tokenLoop (n : Nat) : Bool := 4 ≤ n && n ≤ 7

/-- The standby at a fast-cycle start (R301, R325): the entries that the owner reports as applied are applied, and the state words of
the token functions loaded; with GEOM = 0b10 Lane B follows Lane A's traction loops too (R213). -/
def State.standbyFast (s : State) (l : Lane) : State :=
  if s.holdsAny l || !s.linkUp l then s else
  match s.goodCopy l with
  | none => s
  | some c =>
    let s := (s.journalDue l c notNewer).foldl (fun s e => s.applyEntry l e) s
    if s.inReset l || !s.flag l F.CE_STAT_RUNNING then s else
    s.modLane l (fun x => { x with
      mem := loadCopied x.mem (fun n => tokenLoop n || (s.smIgnores l && (n == 1 || n == 2))) c })

/-- A LEARN in progress is abandoned by the new owner (R319). -/
def State.learnAbandon (s : State) (l : Lane) (a : Fin 2) : State :=
  let st := s.fld l (F.ACT_STAT_STATE a.val)
  if st == 3 || st == 4 then
    ((s.putFlag l (F.ACT_STAT_REF a.val) false).put l (F.ACT_STAT_STATE a.val) 0).pulseEv l E.ACT_LEARN_FAIL
  else s

/-- The journal replayed by a new owner (R340). -/
def State.replay (s : State) (l : Lane) (es : List JEntry) : State :=
  let s := es.foldl (fun s e => s.applyEntry l e) s
  if es.isEmpty || s.inReset l then s else s.pulseEv l E.RED_REPLAY

/-- The take-over from a usable copy (R302, R319, R325, R335, R340): PRELOAD and CLOSE return to READY. -/
def State.takeWarm (s : State) (l : Lane) (c : StateCopy) : State :=
  let s := s.takeStates l c
  let st := s.fld l F.CHG_STAT_STATE
  let s := if st == 3 || st == 4 then
      ((s.put l F.CHG_STAT_STATE 2).put l F.AFE_STAT_STATE 0).put l F.DAB_STAT_STATE 0
    else s
  let s := (s.learnAbandon l 0).learnAbandon l 1
  let s := (s.takeLoops l).renewS2 l
  let s := s.modLane l (fun x => { x with mem := loadCopied x.mem tokenLoop c })
  s.replay l (s.journalDue l c newerThan)

/-- The entries that a cold take-over applies (R341): those of each session in the order of their arrival, but for numbers that the
lane's own record holds. -/
def State.coldEntries (s : State) (l : Lane) : List JEntry :=
  (List.finRange 4).flatMap (fun (k : Fin 4) =>
    (s.lane l).red.journal.filter (fun e => e.sess == k && (s.lane l).sess[k].judge e.seq == .new))

/-- The state words of the token functions' entries at zero (R341). -/
def zeroToken (m : Mem) : Mem :=
  ((kernelsOf m).filter (fun e => tokenLoop e.1.loop)).foldl (fun m e =>
    mputs m (b10State e.1.sbase) (List.replicate e.2.nState 0)) m

/-- The cold start of the token functions (R341). -/
def State.takeCold (s : State) (l : Lane) : State :=
  let s := s.pulseEv l E.RED_COPY_STALE
  let s := (s.put l F.CHG_STAT_STATE 6).chgFault l 11
  let s := (List.finRange 2).foldl (fun (s : State) (a : Fin 2) =>
    ((s.put l (F.ACT_STAT_STATE a.val) 0).loopOpen l (a.val + 6)).putFlag l (F.ACT_STAT_REF a.val) false) s
  let s := s.modLane l (fun x => { x with mem := zeroToken x.mem })
  let s := s.replay l (s.coldEntries l)
  if s.inReset l then s else (s.modRed l (fun r => { r with journal := [] })).showJournal l

/-- Step 6 of R335: the new owner takes the token functions over before its token kernels. -/
def State.takeOver (s : State) (l : Lane) : State :=
  if !(s.lane l).red.takeover then s else
  let s := s.modRed l (fun r => { r with takeover := false })
  match s.goodCopy l with
  | some c => s.takeWarm l c
  | none => s.takeCold l

/-- A returned lane's state machine enters its peer's state (R347). -/
def State.enterPeer (s : State) (l : Lane) : State :=
  let p := l.other
  let go := fun (s : State) (c : Nat) => (s.smCmd l c).getD s
  match s.sm p with
  | 0 => s
  | 1 | 7 => go s 1
  | 8 => let s := go s 1; if s.sm l == 1 then (s.smEnter l 8).setRamp l 0 else s
  | 9 => (go s 1).safeEntry l (s.fld p F.TRC_SM_STAT_CAUSE)
  | _ => go (go s 1) 2

/-- A resynchronised lane takes back its set and its converter phases (R347): the monitor releases its hold, and the share waits for
RUN. A lane whose converter starts beside a running one ramps its current demand (R279). -/
def State.rejoinFast (s : State) (l : Lane) : State :=
  if !(s.lane l).red.rejoin then s else
  let p := l.other
  let s := s.modRed l (fun r => { r with rejoin := false, lost := true })
  let s := if s.mon.alive then
      (s.modMon (fun m => { m with holdFail := m.holdFail.set l false, freeA := m.freeA && l != .A })).publish else s
  let s := (s.placeSet l).enterPeer l
  let st := s.fld p F.DCL_STAT_STATE
  if st == 1 || st == 2 then (s.dclStart l).modDcl l (fun d => { d with ret := some s.time }) else s

/-- A lane in RESYNC whose peer has failed runs alone (R59, R346). -/
def State.resyncAlone (s : State) (l : Lane) : State :=
  let p := l.other
  if s.self l == 1 && (s.inReset p || s.declared p || s.failed p) then s.runAlone l else s

end Sys2Proof.Machine
end

