-- ==== Sys2Proof/Machine/Cycles.lean ====
section
/-! DEFINITION. The starts of a lane's fast, medium and slow cycles (R27, R30, R31). -/
namespace Sys2Proof.Machine

/-- The state machine in CATCH (R212, R219, R220): generation seen, or the estimate settled once CATCH_MIN has passed. -/
def State.catchFast (s : State) (l : Lane) (caught : Option (BitVec 16 × Word)) : State :=
  let n := (s.lane l).trc.catchCnt + 1
  let s := s.modTrc l (fun t => { t with catchCnt := n })
  let gen := [0, 1, 2].any (fun k => fAbove (s.phys l k) (s.fld l F.TRC_CATCH_CFG_GEN_I * 8) 1)
  if gen then ((s.enterAcq l).putFlag l F.TRC_SM_STAT_GEN_SEEN true).pulseEv l E.TRC_GEN_CATCH
  else match caught with
    | some (a, w) =>
      if n * 1000 < s.fld l F.TRC_CATCH_CFG_CATCH_MIN * s.fastRate l then s
      else (((s.catchRes l a w).bump l F.TRC_SM_CNT_CATCH).enterStart l false).pulseEv l E.TRC_CATCH_DONE
    | none => s

/-- One step of the ramp-in factor, in millionths (R223, R361). -/
def State.rampStep (s : State) (l : Lane) : Nat :=
  let t := if (s.lane l).trc.ss1Ramp && s.sm l == 7 then s.safCfg F.SAF_CFG_SS1_RAMP * 10 else s.fld l F.TRC_SM_CFG_RAMPIN
  let n := t * s.fastRate l
  if n == 0 then 1000000 else (100000000 + n - 1) / n

/-- The state machine at a fast-cycle start (R212, R213, R219, R220, R223, R230). -/
def State.smFast (s : State) (l : Lane) (caught : Option (BitVec 16 × Word)) : State :=
  let sel := s.selAsc l
  let valid := s.flag l F.FBK_ANG_VALID
  let act := s.fld l F.FBK_STAT_ACT
  let r := (s.lane l).trc.rampIn
  let s := if s.smIgnores l && !(s.lane l).red.peerFailed then
      match s.goodCopy l with
      | some c => if c.trcState.toNat == s.sm l then s else s.smEnter l c.trcState.toNat
      | none => s
    else match s.sm l with
    | 2 => s.catchFast l caught
    | 4 =>
      if 1 ≤ act && act ≤ 4 then (s.enterStart l true).pulseEv l E.TRC_ACQ_DONE
      else if (s.lane l).trc.selWas && !sel then s.enterCatch l else s
    | 5 => s.modTrc l (fun t => { t with startCnt := if valid then t.startCnt + 1 else 0 })
    | 6 => if !valid then s.angleLost l else s.setRamp l (min 1000000 (r + s.rampStep l))
    | 7 => s.setRamp l (r - s.rampStep l)
    | 8 =>
      if fLt (fAbs (s.word l F.FBK_SPEED_SPEED.addr)) (s.word l F.TRC_BRAKE_CFG_BRAKE_MIN.addr) then
        (s.smEnter l 1).pulseEv l E.TRC_BRAKE_END else s
    | _ => s
  s.modTrc l (fun t => { t with selWas := sel })

/-- The standby bridge of GEOM = 0b10 has shorted the machine: the monitor changes its hold of set A to freewheel (R338). -/
def State.standbyShorts (s : State) : State :=
  let on := ([7, 9, 11] : List (Fin 34)).all (fun n => s.hv[n].outOn && !s.hv[n].gateOff)
  if s.mon.alive && !s.mon.freeA && s.mon.holdFail.a && s.asc && s.fld .B F.TRC_SET_GEOM == 2 &&
     s.flag .B F.RED_CFG_STBY_BR && s.sm .B == 4 && on then
    ((s.modMon (fun m => { m with freeA := true })).holdSet .A).placeSet .A
  else s

/-- The lane computes the selection of R214 itself while its relay path is lost with the link up (R343). -/
def State.ownSelect (s : State) (l : Lane) : State :=
  if !s.flag l F.RED_STAT_MON_SS || !s.flag l F.FBK_ANG_VALID then s else
  match s.linkValue l with
  | none => s
  | some u =>
    let v := (Config.quot (fVal u) (2 ^ 149)).toNat
    let w := (fVal (s.word l F.FBK_SPEED_SPEED.addr)).natAbs * 1000
    let psi := s.mfld F.MON_SST_CFG_PSI
    let margin := s.mfld F.MON_SST_CFG_MARGIN
    let hyst := s.mfld F.MON_SST_CFG_HYST
    let was := s.selAsc l
    let sel := v > s.mfld F.MON_SST_CFG2_UGEN || reaches w v psi (100 - if was then margin + hyst else margin)
    if sel == was then s else (s.putFlag l F.TRC_SM_STAT_SS_SEL sel).placeSet l

/-- The lane's own position while SLP is active (R365): in 1/65,536 electrical revolutions from its angle, shown in 1/256 mechanical
revolution. -/
def State.ownPos (s : State) (l : Lane) (v : ClsView) : State :=
  if !v.slp || !s.flag l F.FBK_ANG_VALID then s.modSaf l (fun x => { x with posAng := none }) else
  let a := s.fld l F.FBK_ANG_ANGLE
  let d : Int := match (s.lane l).saf.posAng with
    | some b => signed 16 (a + 65536 - b)
    | none => 0
  let p := (s.lane l).saf.pos + d
  let pp := s.fld l F.FBK_MECH_PP
  let s := s.modSaf l (fun x => { x with pos := p, posAng := some a })
  s.put l F.SAF_POS_POS (toBits 32 (Config.quot p (256 * pp)))

/-- The lane's own checks of SLS, SDI and SLP at a sampling instant (R363 to R365): a new violation goes onto the request line, or
starts SS1 on the own set where the monitor is out of reach. -/
def State.ownLimits (s : State) (l : Lane) : State :=
  let v := if s.alone l then s.clsLane l else s.clsAll
  let s := s.ownPos l v
  let pp := s.fld l F.FBK_MECH_PP
  let now := if s.flag l F.FBK_ANG_VALID then
      s.violations v (fVal (s.word l F.FBK_SPEED_SPEED.addr)) true (some (Config.quot ((s.lane l).saf.pos * 2 ^ 24) pp)) pp
    else []
  let new := now.filter (fun c => !(s.lane l).saf.viol.contains c)
  let s := s.modSaf l (fun x => { x with viol := now })
  new.foldl (fun s c => if s.alone l then s.ownSs1Start l c else s.askSs1 l c) s

/-- The DC-link values compared (R147): consecutive fast cycles in which the own and the peer's differ by more than DIS_LIM / 256 of
full scale, 32,767 counts. -/
def State.linkCompare (s : State) (l : Lane) : State :=
  if !s.linkUp l || s.streamLost l (linkStream l) || (s.lane l).eng.exch.isEmpty then s.modSmp l (fun x => { x with dis := 0 }) else
  let d := fAbs (fSub (s.sense l (linkStream l)) (s.exchWord l 9))
  let lim := fMul (fFrac (s.fld l F.SMP_SNSCHK_DIS_LIM * 32767) 256) (Config.senseGain (linkStream l))
  s.modSmp l (fun x => { x with dis := if fLt lim d then x.dis + 1 else 0 })

/-- An overrun of the fast group, or its end (R31). -/
def State.fastOverrun (s : State) (l : Lane) (ovr : Bool) : State :=
  let n := if ovr then (s.lane l).eng.ovrFast + 1 else 0
  let s := s.modEng l (fun e => { e with ovrFast := n })
  if ovr then s.overrun l 3 n else s

/-- The engine stopped or started as asked (R175). -/
def State.engineTurn (s : State) (l : Lane) : State :=
  let e := (s.lane l).eng
  let s := if e.stop then s.engineStop l else s
  if e.start then s.engineStart l else s

/-- A fast cycle of a control-ready lane (R30). With an overrun no kernels run, the modulators keep their values, and the copy is
marked invalid (R31). -/
def State.fastCycle (s : State) (l : Lane) (ovr : Bool) (caught : Option (BitVec 16 × Word)) : State :=
  let s := s.fastOverrun l ovr
  if s.failed l then s.sendFast l false else
  let s := if ovr then s else s.loadTraction l
  let s := (s.engineTurn l).closeLoops l
  let s := (s.feedback l).resyncAlone l
  let s := s.rejoinFast l
  let s := (s.smFast l caught).markLost l
  let (s, missed) := s.takeExchange l
  let s := s.shareFast l
  let s := (s.takeOver l).standbyFast l
  let s := ((s.dclFast l).standbyShorts).ownSelect l
  let s := s.loadWires l
  let s := if ovr then s else s.fastKernels l missed
  let s := (s.linkCompare l).subjCheck l
  let s := (s.copyAges l).showTofs l
  let s := (s.ownLimits l).captures l 3
  s.sendFast l (!ovr)

/-- FAST_CYCLE_START: `over`, the previous cycle's kernels have not finished; `caught`, the angle and speed of a settled estimate in
CATCH (R219). A lane that boots has no cycles; one in FAILED runs none and sends its last heartbeats (R333). -/
def execFastCycleStart (l : Lane) (ovr : Bool) (caught : Option (BitVec 16 × Word)) (s : State) : Out :=
  if !s.ready l then done s
  else if s.failed l || s.self l == 4 then done (s.sendFast l false)
  else done (s.fastCycle l ovr caught)

/-- A source of the set-point path that waits takes effect at a medium boundary, and the ramps preset from MEAS (R179). -/
def State.takeSource (s : State) (l : Lane) : State :=
  if !(s.lane l).eng.srcWait then s else
  let m := (s.lane l).mem
  let ks := ((entriesOf m).filter (fun e => e.2.ktype == 0x07 && inputWire m e.2 1 < 2048)).map (·.1)
  let s := s.put l F.CE_SP_STAT_SRC_ACT (s.fld l F.CE_SP_CFG_SRC)
  s.modEng l (fun e => { e with srcWait := false, rampPre := ks ++ e.rampPre.filter (fun k => !ks.contains k) })

/-- The torque command loaded from its wire, and sent with the exchange (R197). -/
def State.loadTorque (s : State) (l : Lane) : State :=
  let t := mw (s.lane l).mem (b10Wire (Config.trcWire 0))
  s.modEng l (fun e => { e with tLoad := t, txExch := if e.txExch.isEmpty then [] else e.txExch.set 11 t })

/-- A rate group run where the engine runs. -/
def State.group (s : State) (l : Lane) (rate : Nat) : State :=
  if s.flag l F.CE_STAT_RUNNING then s.afterGroup l rate (s.runGroup l rate false) else s

/-- MEDIUM_CYCLE_START: `over`, the medium group has not completed, so that this start is skipped (R174); `g`, what the mains shows. -/
def execMediumCycleStart (l : Lane) (ovr : Bool) (g : GridMeas) (s : State) : Out :=
  if !s.ready l || s.failed l || s.self l == 4 then done s else
  let n := if ovr then (s.lane l).eng.ovrMed + 1 else 0
  let s := s.modEng l (fun e => { e with ovrMed := n })
  if ovr then done (s.overrun l 2 n) else
  let s := (s.takeSource l).captures l 2
  let s := ((s.dclMedium l).chgMedium l g).group l 2
  done (s.loadTorque l)

/-- The stall derating moves by 1 % of TMAX a millisecond (R229). -/
def State.derateStep (s : State) (l : Lane) : State :=
  let low := s.fld l F.TRC_STALL_CFG_STALL_PCT
  let d := (s.lane l).trc.derate
  let d := if s.flag l F.TRC_SM_STAT_STALL_DER then (if d > low then d - 1 else d) else min 100 (d + 1)
  s.modTrc l (fun t => { t with derate := d })

/-- RED_SPLIT_LEFT counts down in a split whose time is limited (R344). -/
def State.splitCount (s : State) (l : Lane) : State :=
  let tol := s.fld l F.RED_CFG_SPLIT_TOL
  if !s.flag l F.RED_STAT_SPLIT || tol == 0 then s else
  let gone := (s.time - (s.lane l).red.splitAt) / ms 100
  s.put l F.RED_SPLIT_LEFT_LEFT (min (s.fld l F.RED_SPLIT_LEFT_LEFT) (tol - gone))

/-- The result of the test vectors (R172): a mismatch, or a set not completed, is a failure of the lane. -/
def State.testVectors (s : State) (l : Lane) (ok : Bool) : State :=
  let s := s.putFlag l F.CE_STAT_TV_OK ok
  if ok then s else (s.pulseEv l E.CE_TEST_FAIL).selfFail l 3

/-- SLOW_CYCLE_START: `over`, the slow group has not completed (R174); `tvOk`, the test vectors of the last slow cycle are good (R172).
Counts kept for one slow cycle begin again (R122, R333). -/
def execSlowCycleStart (l : Lane) (ovr tvOk : Bool) (s : State) : Out :=
  if !s.ready l || s.failed l || s.self l == 4 then done s else
  let n := if ovr then (s.lane l).eng.ovrSlow + 1 else 0
  let s := s.modEng l (fun e => { e with ovrSlow := n })
  let s := s.testVectors l tvOk
  if s.failed l then done s else
  let s := (s.modFbk l (fun f => { f with glitch := 0 })).modRed l (fun r => { r with crcErrs := 0 })
  let s := ((s.derateStep l).splitCount l).dclSlow l
  if ovr then done (s.overrun l 1 n) else
  done ((s.captures l 1).group l 1)

end Sys2Proof.Machine
end

