-- ==== Sys2Proof/Machine/Ring.lean ====
section
/-! DEFINITION. The Idgaeb ring at a lane (chapter 16): cycle and time, IN and OUT records, forwarding, cuts, and the requests of the
host. Ends are false for end 0 and true for end 1; an operand `from_` is the end on whose side the frame arrives. -/
namespace Sys2Proof.Machine

/-- The side of a lane's own port, which is its home end (R388, R390). -/
def homeEnd (l : Lane) : Bool := l == .B

/-- A frame can arrive at a lane: the lane is out of reset, and the path from that side is not cut (R49, R412). -/
def State.arrives (s : State) (l : Lane) (from_ : Bool) : Bool := !s.inReset l && !s.pathCut l from_

/-- A frame received is counted and reported where its CRC is bad (R398). -/
def State.crcSeen (s : State) (l : Lane) (crcOk : Bool) : State :=
  if crcOk then s else (s.bump l F.RING_CNT_CRC).pulseEv l E.RING_CRC

/-- A frame whose LEN is not the number of its payload bytes (R399), and one that is too long (R392), is dropped. -/
def State.lenDrop (s : State) (l : Lane) : State := (s.bump l F.RING_CNT_LEN_DROP).pulseEv l E.RING_LEN_DROP
def State.tooLong (s : State) (l : Lane) : State := s.bump l F.RING_CNT_LEN_DROP

/-- A frame passed on unchanged, and what the lane does with it once its CRC has checked good (R389, R398, R399). `n`: the payload bytes
received, `len`: its LEN field. -/
def State.frame (s : State) (l : Lane) (from_ : Bool) (type : Byte) (crcOk : Bool) (len n : Nat) (act : State → State) : State :=
  if !s.arrives l from_ then s
  else if n > 256 then s.tooLong l
  else if len != n then s.lenDrop l
  else
    let s := (s.send l (!from_) (.fwd (!from_) type)).crcSeen l crcOk
    if crcOk then act s else s

/-- A frame names this lane as its device and lane. -/
def State.named (s : State) (l : Lane) (dev : BitVec 6) (lane : Lane) : Bool := s.aon.devnum == some dev && l == lane

/-- Bytes written over a record at an offset, within its length. -/
def overlay (bs : List Byte) (o : Nat) (t : List Byte) : List Byte := (bs.take o ++ t ++ bs.drop (o + t.length)).take bs.length

/-- Words whose content the spec does not state. -/
def State.freshWords (s : State) : Nat → List Word × State
  | 0 => ([], s)
  | n + 1 =>
    let (w, s) := s.fresh
    let (ws, s) := s.freshWords n
    (w :: ws, s)

/-- The words that the enabled entries of the IN map in effect place, in ascending order (R403). -/
def State.mapped (s : State) (l : Lane) : List Word :=
  (s.lane l).ring.inMap.toList.flatMap (fun e => if bit e 31 then s.sigWords l (bits e 0 14) else [])

/-- The state flags of an IN record (R402). -/
def State.inFlags (s : State) (l : Lane) (outOk : Bool) : BitVec 16 :=
  let b := fun (f : Fld) (k : Nat) => s.fld l f * 2 ^ k
  BitVec.ofNat 16 (s.self l + b F.RED_STAT_SPLIT 3 + b F.RED_STAT_TOKEN_PUB 4 + b F.RED_STAT_CONJ_OK 5 + b F.RED_STAT_MON_OK 6 +
    b F.RING_STAT_REDIR 7 + outOk.toNat * 256 + b F.RING_STAT_TIME_OK 9)

/-- The IN record latched (R402, R403): IN_W words from the map, and over them the telegrams of the transmit CLAUSE connections that the
lane sends on the ring. Words that no entry fills are not stated. -/
def State.latchIn (s : State) (l : Lane) (outOk : Bool) : State :=
  let n := bits (s.lane l).ring.cfg 24 7
  let ws := s.mapped l
  let s := s.putFlag l F.RING_STAT_MAP_TRUNC (ws.length > n)
  let (pad, s) := s.freshWords (n - ws.length)
  let bytes := (ws.take n ++ pad).flatMap wordBytes
  let bytes := (List.finRange 8).foldl (fun (bs : List Byte) (c : Fin 8) =>
    let x := (s.lane l).cls[c]
    let mine := l == Lane.ofB (s.flag l (F.CLS_CFG_LANE c.val)) || x.took
    if mine && s.flag l (F.CLS_CFG_EN c.val) && s.flag l (F.CLS_CFG_DIR c.val) && !s.flag l (F.CLS_CFG_CAR c.val) then
      overlay bs (s.fld l (F.CLS_LOC_LOC c.val)) x.tx else bs) bytes
  let rec_ := (List.range n).map (fun k => BitVec.ofNat 32 (bytesNat ((bytes.drop (4 * k)).take 4)))
  let flags := s.inFlags l outOk
  s.modRing l (fun r => { r with latched := some (flags, rec_) })

/-- A latched IN record sent towards the chosen end (R402). -/
def State.sendIn (s : State) (l : Lane) (e : Bool) : State :=
  let r := (s.lane l).ring
  match r.latched, r.cyc with
  | some (flags, ws), some n =>
    let s := s.modRing l (fun r => { r with latched := none })
    if s.talks l && s.ready l then s.send l e (.inRec e (n.setWidth 16) flags (BitVec.ofNat 8 (bits r.cfg 8 8)) ws) else s
  | _, _ => s

/-- The device number in a loop point; while it is unstable the spec names none (R51). -/
def State.loopDev (s : State) : Nat × State :=
  match s.aon.devnum with
  | some d => (d.toNat, s)
  | none => let (w, s) := s.fresh; (bits w 0 6, s)

/-- A CYC frame forwarded, or turned back at a cut path with this lane as its loop point (R389, R412). A lane whose device number is not
stable has none to give. -/
def State.passCyc (s : State) (l : Lane) (from_ loop : Bool) (lpt : BitVec 16) (corr : Word) (host : BitVec 64) (period : BitVec 16)
    (num : Word) (crcOk : Bool) : State :=
  let e := !from_
  if !loop && s.pathCut l e then
    let (dev, s) := s.loopDev
    s.send l from_ (.cyc from_ true (BitVec.ofNat 16 (0x8000 + l.idx * 64 + dev)) corr host period num (!crcOk))
  else s.send l e (.cyc e loop lpt corr host period num (!crcOk))

/-- What an unlooped CYC frame with a good CRC gives the lane (R390, R397, R402, R414): the cycle number and the period, and the record
latched at its first copy before TIME_OK. -/
def State.takeCyc (s : State) (l : Lane) (from_ : Bool) (period : BitVec 16) (num : Word) : State :=
  let new := (s.lane l).ring.cyc != some num
  let s := s.modRing l (fun r => { r with seen0 := r.seen0 || !from_, seen1 := r.seen1 || from_, cyc := some num })
  let s := (s.put l F.RING_STAT_PERIOD_K (period.toNat % 256)).putWord l F.RING_CYC_CYCNUM.addr num
  let s := if s.flag l F.RING_STAT_ORPHAN then (s.putFlag l F.RING_STAT_ORPHAN false).levelEv l E.RING_ORPHAN false else s
  let s :=
    if !new then s else
    let was := (s.lane l).ring.outOk
    let s := s.modRing l (fun r => { r with outOk := false })
    if s.ready l && !s.flag l F.RING_STAT_TIME_OK then s.latchIn l was else s
  if (s.lane l).ring.chosen == some from_ then s.sendIn l from_ else s

/-- CYC: a CYC frame arrives (R389, R397, R398, R400). A looped one goes on towards its origin and gives no time. `residence`: the time
from /S/ in to /S/ out in 100 ps. -/
def execCyc (l : Lane) (from_ loop crcOk lenOk : Bool) (host : BitVec 64) (corr : Word) (period lpt : BitVec 16) (num residence : Word)
    (s : State) : Out :=
  if !s.arrives l from_ then done s
  else if !lenOk then done (s.lenDrop l)
  else
    let link := if from_ == homeEnd l then BitVec.ofNat 32 (s.fld l F.RING_DLY_LINK_DLY) else 0
    let s := (s.passCyc l from_ loop lpt (corr + link + residence) host period num crcOk).crcSeen l crcOk
    done (if crcOk && !loop then s.takeCyc l from_ period num else s)

/-- The servo of R401 on an error in 100 ps, the reconstructed start minus the local time: above 1 µs the counter is stepped, Lane A's
with Lane B's while the link is up; 16 consecutive cycles within 25 ns set TIME_OK. -/
def State.servo (s : State) (l : Lane) (err : Int) : State :=
  let up := s.linkUp l
  let fit := decide (err.natAbs ≤ 250)
  let s := s.modRing l (fun r => { r with okRun := if fit then r.okRun + 1 else 0 })
  let s := if (s.lane l).ring.okRun ≥ 16 then s.putFlag l F.RING_STAT_TIME_OK true else s
  if err.natAbs ≤ 10000 || (up && l == .B) then s else
  let d := Config.quot err 125
  (if up then [l, l.other] else [l]).foldl (fun (s : State) k =>
    if s.inReset k then s else
    let s := s.modOfs k (· + d)
    let s := (s.putFlag k F.RING_STAT_TIME_OK false).modRing k (fun r => { r with okRun := 0 })
    s.pulseEv k E.RING_TIME_STEP) s

/-- The end towards which a lane sends in the cycle that starts (R390). -/
def chooseEnd (l : Lane) (r : RingState) : Option Bool :=
  let seen := fun (e : Bool) => if e then r.seen1 else r.seen0
  if seen (homeEnd l) then some (homeEnd l) else if seen (!homeEnd l) then some (!homeEnd l) else none

/-- The backlog sent, oldest first, at most two EVENT frames (R410). -/
def State.drainEvents (s : State) (l : Lane) (e : Bool) : Nat → State
  | 0 => s
  | n + 1 =>
    match (s.lane l).evq with
    | [] => s
    | x :: t => ((s.modLane l (fun y => { y with evq := t })).sendEvent l e x).drainEvents l e n

/-- CYCLE_START: a predicted ring cycle start (R390, R401, R402, R405, R410). `err`: the time error in 100 ps, where a CYC copy of the
cycle before gave one. -/
def execCycleStart (l : Lane) (err : Option Int) (s : State) : Out :=
  if s.inReset l then done s else
  let r := (s.lane l).ring
  let home := if homeEnd l then r.seen1 else r.seen0
  let other := if homeEnd l then r.seen0 else r.seen1
  let chosen := chooseEnd l r
  let s := (s.putFlag l F.RING_STAT_HOME_OK home).putFlag l F.RING_STAT_OTHER_OK other
  let s := s.putFlag l F.RING_STAT_REDIR (chosen == some (!homeEnd l))
  let outOk := r.outOk && (r.seen0 || r.seen1)
  let s := s.modRing l (fun r => { r with
    seen0 := false, seen1 := false, chosen := chosen, sent := [], evSent := 0, outOk := outOk, latched := none
    cfg := s.word l F.RING_CFG_IN_W.addr
    outMap := Vector.ofFn (fun j : Fin 4 => s.word l (F.RING_OUTMAP_EN0 j.val).addr)
    inMap := Vector.ofFn (fun k : Fin 64 => s.word l (F.RING_INMAP_EN k.val).addr) })
  let s := match err with
    | some x => (s.putWord l F.RING_TERR_TERR.addr (BitVec.ofInt 32 x)).servo l x
    | none => s.modRing l (fun r => { r with okRun := 0 })
  let s := if s.ready l && s.flag l F.RING_STAT_TIME_OK then s.latchIn l outOk else s
  done (match chosen with
    | some e => if s.talks l then s.drainEvents l e 2 else s
    | none => s)

/-- An OUT record accepted (R404): it feeds the source wires, and the telegrams of the receive CLAUSE connections. -/
def State.takeOut (s : State) (l : Lane) (data : List Byte) : State :=
  let ws := (List.range (data.length / 4)).map (fun k => BitVec.ofNat 32 (bytesNat ((data.drop (4 * k)).take 4)))
  let s := s.modRing l (fun r => { r with out := ws, outOk := true })
  (List.finRange 8).foldl (fun (s : State) (c : Fin 8) =>
    if s.flag l (F.CLS_CFG_EN c.val) && !s.flag l (F.CLS_CFG_DIR c.val) && !s.flag l (F.CLS_CFG_CAR c.val) then
      s.modCls l c (fun x => { x with tel := some ((data.drop (s.fld l (F.CLS_LOC_LOC c.val))).take (9 + s.clsLen l c)) })
    else s) s

/-- OUT: an OUT frame arrives (R399, R404). The first good copy of the present cycle for this device is accepted. -/
def execRingOut (l : Lane) (from_ crcOk : Bool) (dev : BitVec 6) (seq len : BitVec 16) (data : List Byte) (s : State) : Out :=
  done (s.frame l from_ 0x02 crcOk len.toNat data.length (fun s =>
    let r := (s.lane l).ring
    let present := match r.cyc with
      | some n => n.setWidth 16 == seq
      | none => false
    if s.aon.devnum == some dev && present && !r.outOk && data.length == 4 * bits r.cfg 16 7 then s.takeOut l data else s))

/-- IN: an IN frame arrives; one with this lane's own device number is a duplicate (R411). -/
def execRingIn (l : Lane) (from_ crcOk : Bool) (dev : BitVec 6) (lane : Lane) (len n : BitVec 16) (s : State) : Out :=
  done (s.frame l from_ 0x03 crcOk len.toNat n.toNat (fun s =>
    if s.named l dev lane then
      ((s.modLane l (fun x => { x with dup := true })).putFlag l F.RING_STAT_DEV_DUP true).levelEv l E.RING_DEV_DUP true
    else s))

/-- EVENT_FRAME_RECEIVED: an EVENT frame of another lane is forwarded towards its end (R389, R412). -/
def execEventFrameReceived (l : Lane) (from_ crcOk : Bool) (len n : BitVec 16) (s : State) : Out :=
  done (s.frame l from_ 0x04 crcOk len.toNat n.toNat id)

/-- UNKNOWN_FRAME: a frame of a TYPE that R396 does not name is forwarded and counted. -/
def execUnknownFrame (l : Lane) (from_ crcOk : Bool) (type : Byte) (len n : BitVec 16) (s : State) : Out :=
  let known := [0x01, 0x02, 0x03, 0x04, 0x10, 0x11, 0x12, 0x13].contains type.toNat
  done (s.frame l from_ type crcOk len.toNat n.toNat (fun s => if known then s else s.bump l F.RING_CNT2_UNK))

/-- LINK_DELAY_REQUEST: the port sends /DQ/; the neighbour's reply gives the delay: (round trip − turnaround) / 2, in 100 ps (R393). -/
def execLinkDelayRequest (l : Lane) (reply : Option (Word × Word)) (s : State) : Out :=
  if s.inReset l then done s else
  let s := s.modRing l (fun r => { r with sent := r.sent ++ [.dq] })
  done (match reply with
    | some (rt, turn) => s.put l F.RING_DLY_LINK_DLY (sat 16 (Config.quot ((rt.toNat : Int) - turn.toNat) 2).toNat)
    | none => s)

/-- LINK_DELAY_REPLY: a /DQ/ from the neighbour is answered with /DR/ and the turnaround time (R393). -/
def execLinkDelayReply (l : Lane) (turnaround : Word) (s : State) : Out :=
  done (if s.inReset l then s else s.modRing l (fun r => { r with sent := r.sent ++ [.dr turnaround] }))

/-- CUT: the lane's port declares its link cut (R394). -/
def execCut (l : Lane) (s : State) : Out :=
  if s.inReset l || s.flag l F.RING_STAT_PORT_CUT then done s else
  done (((s.putFlag l F.RING_STAT_PORT_CUT true).bump l F.RING_CNT_CUT).levelEv l E.RING_CUT true)

/-- HEAL: 1,000 valid idles and a delay measurement have ended the cut (R394). -/
def execHeal (l : Lane) (s : State) : Out :=
  if s.inReset l || !s.flag l F.RING_STAT_PORT_CUT then done s else
  done (((s.putFlag l F.RING_STAT_PORT_CUT false).levelEv l E.RING_CUT false).pulseEv l E.RING_HEAL)

/-- ORPHAN: ORPH_N periods have passed without an unlooped CYC frame; the lane's time runs free (R414). -/
def execOrphan (l : Lane) (s : State) : Out :=
  if s.inReset l || s.flag l F.RING_STAT_ORPHAN then done s else
  let s := (s.putFlag l F.RING_STAT_ORPHAN true).putFlag l F.RING_STAT_TIME_OK false
  let s := s.modRing l (fun r => { r with okRun := 0 })
  done (s.levelEv l E.RING_ORPHAN true)

/-- A transfer of some bytes at an offset is not word-aligned, or crosses a 4 KiB boundary (R407). -/
def crosses (addr n : Nat) : Bool := addr % 4 != 0 || 0x1000 < addr % 0x1000 + n

/-- A request's first status by the rules of its frame (R407, R489). -/
def wrBad (addr n : Nat) (be : BitVec 4) : Option Status :=
  if crosses addr n then some .addrErr
  else if n % 4 != 0 || (n > 4 && be != 0xF) then some .rangeErr else none
def rdBad (addr n : Nat) : Option Status :=
  if crosses addr (if n > 256 then 0 else n) then some .addrErr
  else if n > 256 then some .countErr
  else if n % 4 != 0 then some .rangeErr else none

/-- A request arrives for a lane that answers requests: it is handed on, and the frame passes to the far end (R389, R408). -/
def State.request (s : State) (l : Lane) (from_ : Bool) (type : Byte) (crcOk : Bool) (dev : BitVec 6) (lane : Lane) (len n : Nat)
    (k : State → State) : State :=
  s.frame l from_ type crcOk len n (fun s => if s.named l dev lane && s.talks l then k s else s)

/-- An uncorrectable word met by a read of a window (R445): STATE_ERR, and data of zeros. -/
def State.eccRead (s : State) (l : Lane) (x : Access) (b word : Nat) : State :=
  (((s.eccError l b word true false).reply l .stateErr).respond l x [0, 0, 0, 0])

/-- RD: a read request (R104, R407, R408, R445). `ecc`: the word of the transfer, of a window, at which the port meets an ECC error, and
whether it is uncorrectable. -/
def execRd (l : Lane) (from_ crcOk : Bool) (dev : BitVec 6) (lane : Lane) (q : Req) (addr : BitVec 24) (count : BitVec 16)
    (ecc : Option (BitVec 6 × Bool)) (s : State) : Out :=
  done (s.request l from_ 0x10 crcOk dev lane 4 4 (fun s =>
    let a := addr.toNat
    let n := count.toNat
    let x : Access := { q := some q, addr := a, op := .read n, ends := [from_] }
    let base := fun (b : Nat) => if b == 10 then 0x400000 else if b == 15 then 0x410000 else if b == 11 then 0x800000 else 0xC00000
    match ecc, bankOf a with
    | some (k, double), some b =>
      if s.inReset l || (s.turnAway l a false false).isSome || (rdBad a n).isSome || k.toNat ≥ n / 4 || !s.bankOn l b then
        s.access l x (rdBad a n)
      else
        let w := (a - base b) / 4 + k.toNat
        if double then s.eccRead l x b w else (s.eccError l b w false false).access l x
    | _, _ => s.access l x (rdBad a n)))

/-- WR: a write request of LEN bytes (R93, R103, R105, R407). -/
def execWr (l : Lane) (from_ crcOk : Bool) (dev : BitVec 6) (lane : Lane) (q : Req) (addr : BitVec 24) (be : BitVec 4) (len : BitVec 16)
    (data : List Byte) (ph : BusPhase) (s : State) : Out :=
  done (s.request l from_ 0x11 crcOk dev lane len.toNat data.length (fun s =>
    let ws := (List.range (data.length / 4)).map (fun k => BitVec.ofNat 32 (bytesNat ((data.drop (4 * k)).take 4)))
    s.access l { q := some q, addr := addr.toNat, op := .write ws be, ph := ph, ends := [from_] }
      (wrBad addr.toNat data.length be)))

/-- RMW: (old AND mask) OR value is written, and the old word returned (R407). -/
def execRmw (l : Lane) (from_ crcOk : Bool) (dev : BitVec 6) (lane : Lane) (q : Req) (addr : BitVec 24) (mask value : Word)
    (ph : BusPhase) (s : State) : Out :=
  done (s.request l from_ 0x12 crcOk dev lane 8 8 (fun s =>
    s.access l { q := some q, addr := addr.toNat, op := .rmw mask value, ph := ph, ends := [from_] } (wrBad addr.toNat 4 0xF)))

/-- PERIOD: a PERIOD request is numbered and waits for its completion (R106, R407). -/
def execPeriod (l : Lane) (from_ crcOk : Bool) (dev : BitVec 6) (lane : Lane) (q : Req) (len n : BitVec 16) (s : State) : Out :=
  done (s.request l from_ 0x13 crcOk dev lane len.toNat n.toNat (fun s =>
    s.period l q [from_] (if n.toNat == 0 then none else some .rangeErr)))

end Sys2Proof.Machine
end

