-- ==== Sys2Proof/Machine/Dispatch.lean ====
section
/-! DEFINITION. The dispatch of a command to its meaning: one arm per row of the opcode table. -/
namespace Sys2Proof.Machine

def exec (i : Instr) (s : State) : Host.Outcome State Fault Refusal :=
  match i with
  | .vsValid l => Sys2Proof.Machine.execVsValid l s
  | .vsFailed l => Sys2Proof.Machine.execVsFailed l s
  | .nporAssert => Sys2Proof.Machine.execNporAssert s
  | .nporRelease => Sys2Proof.Machine.execNporRelease s
  | .nrstAssert l => Sys2Proof.Machine.execNrstAssert l s
  | .laneResetRelease l c => Sys2Proof.Machine.execLaneResetRelease l c s
  | .softReset l => Sys2Proof.Machine.execSoftReset l s
  | .warmRestart l => Sys2Proof.Machine.execWarmRestart l s
  | .devnumSample s1 s2 s3 v33Low => Sys2Proof.Machine.execDevnumSample s1 s2 s3 v33Low s
  | .flashReadPassDone l r => Sys2Proof.Machine.execFlashReadPassDone l r s
  | .imageVerify l sigOk => Sys2Proof.Machine.execImageVerify l sigOk s
  | .controlReady l => Sys2Proof.Machine.execControlReady l s
  | .droopEntry l => Sys2Proof.Machine.execDroopEntry l s
  | .droopRelease l => Sys2Proof.Machine.execDroopRelease l s
  | .xtalFail l => Sys2Proof.Machine.execXtalFail l s
  | .clockCheckWindow w => Sys2Proof.Machine.execClockCheckWindow w s
  | .peerReset l => Sys2Proof.Machine.execPeerReset l s
  | .peerResetStuck l => Sys2Proof.Machine.execPeerResetStuck l s
  | .islandUsable isl => Sys2Proof.Machine.execIslandUsable isl s
  | .islandSupplyLost isl => Sys2Proof.Machine.execIslandSupplyLost isl s
  | .streamLost isl => Sys2Proof.Machine.execStreamLost isl s
  | .safeStateLineLost n => Sys2Proof.Machine.execSafeStateLineLost n s
  | .ovsOvervoltage k mv => Sys2Proof.Machine.execOvsOvervoltage k mv s
  | .ovsAscEntry k => Sys2Proof.Machine.execOvsAscEntry k s
  | .ovsAscRelease k => Sys2Proof.Machine.execOvsAscRelease k s
  | .registerWrite l addr data be q ph => Sys2Proof.Machine.execRegisterWrite l addr data be q ph s
  | .blockSoftReset l pg q => Sys2Proof.Machine.execBlockSoftReset l pg q s
  | .lockSet l pg w q => Sys2Proof.Machine.execLockSet l pg w q s
  | .eventForce l pg w q => Sys2Proof.Machine.execEventForce l pg w q s
  | .dualWriteHalf l addr data q => Sys2Proof.Machine.execDualWriteHalf l addr data q s
  | .dualTimeout l addr => Sys2Proof.Machine.execDualTimeout l addr s
  | .dualHalfLaneTimeout l addr => Sys2Proof.Machine.execDualHalfLaneTimeout l addr s
  | .signalAccess l n w q ph => Sys2Proof.Machine.execSignalAccess l n w q ph s
  | .periodComplete l k => Sys2Proof.Machine.execPeriodComplete l k s
  | .shadowArmPeer l q => Sys2Proof.Machine.execShadowArmPeer l q s
  | .shadowTransfer l => Sys2Proof.Machine.execShadowTransfer l s
  | .fastCycleStart l ovr caught => Sys2Proof.Machine.execFastCycleStart l ovr caught s
  | .mediumCycleStart l ovr g => Sys2Proof.Machine.execMediumCycleStart l ovr g s
  | .slowCycleStart l ovr tvOk => Sys2Proof.Machine.execSlowCycleStart l ovr tvOk s
  | .lockstepMismatch l => Sys2Proof.Machine.execLockstepMismatch l s
  | .conversionResult l r => Sys2Proof.Machine.execConversionResult l r s
  | .encEdge l pa pb => Sys2Proof.Machine.execEncEdge l pa pb s
  | .indexLatch l => Sys2Proof.Machine.execIndexLatch l s
  | .hallEdge l h => Sys2Proof.Machine.execHallEdge l h s
  | .resTrackUpdate l angle speed amp full err phase => Sys2Proof.Machine.execResTrackUpdate l angle speed amp full err phase s
  | .ssiRequest l datLow => Sys2Proof.Machine.execSsiRequest l datLow s
  | .ssiFrame l data err par low => Sys2Proof.Machine.execSsiFrame l data err par low s
  | .posStale l x => Sys2Proof.Machine.execPosStale l x s
  | .speedZeroTimeout l x => Sys2Proof.Machine.execSpeedZeroTimeout l x s
  | .posDisagree l => Sys2Proof.Machine.execPosDisagree l s
  | .sourceReturn l x agreed => Sys2Proof.Machine.execSourceReturn l x agreed s
  | .encOffsetWrite l ofs => Sys2Proof.Machine.execEncOffsetWrite l ofs s
  | .fbkClrCnt l => Sys2Proof.Machine.execFbkClrCnt l s
  | .fbkClrDrift l => Sys2Proof.Machine.execFbkClrDrift l s
  | .fbkClrEncRef l => Sys2Proof.Machine.execFbkClrEncRef l s
  | .fbkClrFault l x => Sys2Proof.Machine.execFbkClrFault l x s
  | .snsClockChangeover m toB => Sys2Proof.Machine.execSnsClockChangeover m toB s
  | .snsLost w m => Sys2Proof.Machine.execSnsLost w m s
  | .dclDisagree w => Sys2Proof.Machine.execDclDisagree w s
  | .calibrationStart l mask => Sys2Proof.Machine.execCalibrationStart l mask s
  | .calDone l avg => Sys2Proof.Machine.execCalDone l avg s
  | .smpClrCnt l => Sys2Proof.Machine.execSmpClrCnt l s
  | .smpClrSns l m => Sys2Proof.Machine.execSmpClrSns l m s
  | .smpClrFlt l n => Sys2Proof.Machine.execSmpClrFlt l n s
  | .ceStop l => Sys2Proof.Machine.execCeStop l s
  | .commit l => Sys2Proof.Machine.execCommit l s
  | .loopClose l mask => Sys2Proof.Machine.execLoopClose l mask s
  | .loopOpen l mask => Sys2Proof.Machine.execLoopOpen l mask s
  | .ceClrNf l => Sys2Proof.Machine.execCeClrNf l s
  | .ceClrOvr l => Sys2Proof.Machine.execCeClrOvr l s
  | .ceClrMax l => Sys2Proof.Machine.execCeClrMax l s
  | .pinSpEdge l rising => Sys2Proof.Machine.execPinSpEdge l rising s
  | .spFault l => Sys2Proof.Machine.execSpFault l s
  | .spFaultClear l => Sys2Proof.Machine.execSpFaultClear l s
  | .currentExchange l w => Sys2Proof.Machine.execCurrentExchange l w s
  | .decModel l => Sys2Proof.Machine.execDecModel l s
  | .decRestored l => Sys2Proof.Machine.execDecRestored l s
  | .lockLost l => Sys2Proof.Machine.execLockLost l s
  | .lock l => Sys2Proof.Machine.execLock l s
  | .alignmentDone => Sys2Proof.Machine.execAlignmentDone s
  | .pwmAltSelect l alt => Sys2Proof.Machine.execPwmAltSelect l alt s
  | .pwmRateChange l => Sys2Proof.Machine.execPwmRateChange l s
  | .vlim l => Sys2Proof.Machine.execVlim l s
  | .trcClrMiss l => Sys2Proof.Machine.execTrcClrMiss l s
  | .enable l => Sys2Proof.Machine.execEnable l s
  | .start l => Sys2Proof.Machine.execStart l s
  | .stop l => Sys2Proof.Machine.execStop l s
  | .brake l => Sys2Proof.Machine.execBrake l s
  | .release l => Sys2Proof.Machine.execRelease l s
  | .disable l => Sys2Proof.Machine.execDisable l s
  | .clear l => Sys2Proof.Machine.execClear l s
  | .catchTimeout l => Sys2Proof.Machine.execCatchTimeout l s
  | .polDone l r => Sys2Proof.Machine.execPolDone l r s
  | .acqDone l angle speed => Sys2Proof.Machine.execAcqDone l angle speed s
  | .acqFail l => Sys2Proof.Machine.execAcqFail l s
  | .startToRun l => Sys2Proof.Machine.execStartToRun l s
  | .stoppingDone l => Sys2Proof.Machine.execStoppingDone l s
  | .obsLost l => Sys2Proof.Machine.execObsLost l s
  | .stall l => Sys2Proof.Machine.execStall l s
  | .stallRecover l => Sys2Proof.Machine.execStallRecover l s
  | .safeStateSelection v0 v1 u0 u1 => Sys2Proof.Machine.execSafeStateSelection v0 v1 u0 u1 s
  | .scSpeedTimeout => Sys2Proof.Machine.execScSpeedTimeout s
  | .uLost => Sys2Proof.Machine.execULost s
  | .monTachPulse => Sys2Proof.Machine.execMonTachPulse s
  | .gateBelowThreshold n => Sys2Proof.Machine.execGateBelowThreshold n s
  | .sc n => Sys2Proof.Machine.execSc n s
  | .softOffEnd n => Sys2Proof.Machine.execSoftOffEnd n s
  | .uvlo n vp vn => Sys2Proof.Machine.execUvlo n vp vn s
  | .uvloRecover n => Sys2Proof.Machine.execUvloRecover n s
  | .tmpConversion n code vp vn => Sys2Proof.Machine.execTmpConversion n code vp vn s
  | .shootReq l c => Sys2Proof.Machine.execShootReq l c s
  | .deadTimeRelease l c ext => Sys2Proof.Machine.execDeadTimeRelease l c ext s
  | .dtTimeout by_ c => Sys2Proof.Machine.execDtTimeout by_ c s
  | .islandSilent n => Sys2Proof.Machine.execIslandSilent n s
  | .gdhClrSc l n => Sys2Proof.Machine.execGdhClrSc l n s
  | .gdhClrLeg l n => Sys2Proof.Machine.execGdhClrLeg l n s
  | .gdhClrDt l n => Sys2Proof.Machine.execGdhClrDt l n s
  | .gdhClrCnt l n => Sys2Proof.Machine.execGdhClrCnt l n s
  | .scSelfTest l n tripped => Sys2Proof.Machine.execScSelfTest l n tripped s
  | .tokenLatch g bridge => Sys2Proof.Machine.execTokenLatch g bridge s
  | .tokenMoved => Sys2Proof.Machine.execTokenMoved s
  | .tokenCodeInvalid g => Sys2Proof.Machine.execTokenCodeInvalid g s
  | .holdAscMask k => Sys2Proof.Machine.execHoldAscMask k s
  | .gdlUvlo => Sys2Proof.Machine.execGdlUvlo s
  | .bootUv leg vboot => Sys2Proof.Machine.execBootUv leg vboot s
  | .shuntOc a => Sys2Proof.Machine.execShuntOc a s
  | .gdlClrLeg l n => Sys2Proof.Machine.execGdlClrLeg l n s
  | .gdlClrCnt l n => Sys2Proof.Machine.execGdlClrCnt l n s
  | .dclWrite l off data be q => Sys2Proof.Machine.execDclWrite l off data be q s
  | .dclEnable l q => Sys2Proof.Machine.execDclEnable l q s
  | .dclDisable l q => Sys2Proof.Machine.execDclDisable l q s
  | .dclStopDone l => Sys2Proof.Machine.execDclStopDone l s
  | .phaseClear l m q => Sys2Proof.Machine.execPhaseClear l m q s
  | .dclClrCnt l q => Sys2Proof.Machine.execDclClrCnt l q s
  | .shed => Sys2Proof.Machine.execShed s
  | .shedRampDone => Sys2Proof.Machine.execShedRampDone s
  | .shedAbortNotice l => Sys2Proof.Machine.execShedAbortNotice l s
  | .ovTimeout l => Sys2Proof.Machine.execOvTimeout l s
  | .pgDclRelease => Sys2Proof.Machine.execPgDclRelease s
  | .cpStateChange l c => Sys2Proof.Machine.execCpStateChange l c s
  | .ppClassify l r => Sys2Proof.Machine.execPpClassify l r s
  | .interlockRelease => Sys2Proof.Machine.execInterlockRelease s
  | .interlockDisagree => Sys2Proof.Machine.execInterlockDisagree s
  | .mainsPresent l => Sys2Proof.Machine.execMainsPresent l s
  | .preloadDone l => Sys2Proof.Machine.execPreloadDone l s
  | .kfbConfirm n closed => Sys2Proof.Machine.execKfbConfirm n closed s
  | .afeLock l => Sys2Proof.Machine.execAfeLock l s
  | .afeCurrentZero l => Sys2Proof.Machine.execAfeCurrentZero l s
  | .kFeedback k4 closed => Sys2Proof.Machine.execKFeedback k4 closed s
  | .gridDip l retained => Sys2Proof.Machine.execGridDip l retained s
  | .gridTrip l t => Sys2Proof.Machine.execGridTrip l t s
  | .gridRestart l => Sys2Proof.Machine.execGridRestart l s
  | .island l jump => Sys2Proof.Machine.execIsland l jump s
  | .v2l l => Sys2Proof.Machine.execV2l l s
  | .s2HoldTimeout => Sys2Proof.Machine.execS2HoldTimeout s
  | .pgChgRelease dab => Sys2Proof.Machine.execPgChgRelease dab s
  | .chgClrFault l q => Sys2Proof.Machine.execChgClrFault l q s
  | .chgClrCnt l q => Sys2Proof.Machine.execChgClrCnt l q s
  | .afeClrCnt l q => Sys2Proof.Machine.execAfeClrCnt l q s
  | .dabClrCnt l q => Sys2Proof.Machine.execDabClrCnt l q s
  | .actMove l a q => Sys2Proof.Machine.execActMove l a q s
  | .actHome l a q => Sys2Proof.Machine.execActHome l a q s
  | .actLearn l a q => Sys2Proof.Machine.execActLearn l a q s
  | .actStop l a q => Sys2Proof.Machine.execActStop l a q s
  | .actCoast l a q => Sys2Proof.Machine.execActCoast l a q s
  | .actClear l a q => Sys2Proof.Machine.execActClear l a q s
  | .actHallStep l a h => Sys2Proof.Machine.execActHallStep l a h s
  | .lockedRotor l a => Sys2Proof.Machine.execLockedRotor l a s
  | .holdTExpiry l a => Sys2Proof.Machine.execHoldTExpiry l a s
  | .moveDone l a => Sys2Proof.Machine.execMoveDone l a s
  | .moveTimeout l a => Sys2Proof.Machine.execMoveTimeout l a s
  | .vlvOutOfWindow v => Sys2Proof.Machine.execVlvOutOfWindow v s
  | .actClrCnt l a q => Sys2Proof.Machine.execActClrCnt l a q s
  | .stateCopy l c crcOk => Sys2Proof.Machine.execStateCopy l c crcOk s
  | .heartbeat p h crcOk => Sys2Proof.Machine.execHeartbeat p h crcOk s
  | .relayFrame l => Sys2Proof.Machine.execRelayFrame l s
  | .heartbeatWindow w x => Sys2Proof.Machine.execHeartbeatWindow w x s
  | .splitTimeout l => Sys2Proof.Machine.execSplitTimeout l s
  | .autoReset x => Sys2Proof.Machine.execAutoReset x s
  | .journalEntry l e => Sys2Proof.Machine.execJournalEntry l e s
  | .linkRetrain l ok => Sys2Proof.Machine.execLinkRetrain l ok s
  | .linkUp l => Sys2Proof.Machine.execLinkUp l s
  | .peerReturn l => Sys2Proof.Machine.execPeerReturn l s
  | .returnDone l => Sys2Proof.Machine.execReturnDone l s
  | .redWrite l off data be q => Sys2Proof.Machine.execRedWrite l off data be q s
  | .splitContinue l => Sys2Proof.Machine.execSplitContinue l s
  | .splitSs1 l => Sys2Proof.Machine.execSplitSs1 l s
  | .rejoin l => Sys2Proof.Machine.execRejoin l s
  | .tokenMove l => Sys2Proof.Machine.execTokenMove l s
  | .tokenMoveExecute => Sys2Proof.Machine.execTokenMoveExecute s
  | .retest l => Sys2Proof.Machine.execRetest l s
  | .retestDone l pass => Sys2Proof.Machine.execRetestDone l pass s
  | .redClrJrnl l => Sys2Proof.Machine.execRedClrJrnl l s
  | .redClrFo l => Sys2Proof.Machine.execRedClrFo l s
  | .conjClrCnt l => Sys2Proof.Machine.execConjClrCnt l s
  | .unretireA l => Sys2Proof.Machine.execUnretireA l s
  | .unretireB l => Sys2Proof.Machine.execUnretireB l s
  | .stoPin two => Sys2Proof.Machine.execStoPin two s
  | .stoPinHigh two => Sys2Proof.Machine.execStoPinHigh two s
  | .stoDisc => Sys2Proof.Machine.execStoDisc s
  | .stoRequest l => Sys2Proof.Machine.execStoRequest l s
  | .ss1Request l => Sys2Proof.Machine.execSs1Request l s
  | .safAck l q => Sys2Proof.Machine.execSafAck l q s
  | .ss1Timeout w => Sys2Proof.Machine.execSs1Timeout w s
  | .ss1RampDone w => Sys2Proof.Machine.execSs1RampDone w s
  | .commandLineLost l back => Sys2Proof.Machine.execCommandLineLost l back s
  | .speedCompare => Sys2Proof.Machine.execSpeedCompare s
  | .torqueMonitor => Sys2Proof.Machine.execTorqueMonitor s
  | .safKFeedback n closed => Sys2Proof.Machine.execSafKFeedback n closed s
  | .kTest n => Sys2Proof.Machine.execKTest n s
  | .kTestCheck n closed => Sys2Proof.Machine.execKTestCheck n closed s
  | .clauseReceive l n => Sys2Proof.Machine.execClauseReceive l n s
  | .wdog l n => Sys2Proof.Machine.execWdog l n s
  | .laneDiff => Sys2Proof.Machine.execLaneDiff s
  | .clauseTransmit l n => Sys2Proof.Machine.execClauseTransmit l n s
  | .cycleStart l err => Sys2Proof.Machine.execCycleStart l err s
  | .cyc l from_ loop crcOk lenOk host corr period lpt num residence => Sys2Proof.Machine.execCyc l from_ loop crcOk lenOk host corr period lpt num residence s
  | .ringOut l from_ crcOk dev seq len data => Sys2Proof.Machine.execRingOut l from_ crcOk dev seq len data s
  | .ringIn l from_ crcOk dev lane len n => Sys2Proof.Machine.execRingIn l from_ crcOk dev lane len n s
  | .rd l from_ crcOk dev lane q addr count ecc => Sys2Proof.Machine.execRd l from_ crcOk dev lane q addr count ecc s
  | .wr l from_ crcOk dev lane q addr be len data ph => Sys2Proof.Machine.execWr l from_ crcOk dev lane q addr be len data ph s
  | .rmw l from_ crcOk dev lane q addr mask value ph => Sys2Proof.Machine.execRmw l from_ crcOk dev lane q addr mask value ph s
  | .period l from_ crcOk dev lane q len n => Sys2Proof.Machine.execPeriod l from_ crcOk dev lane q len n s
  | .unknownFrame l from_ crcOk type len n => Sys2Proof.Machine.execUnknownFrame l from_ crcOk type len n s
  | .linkDelayRequest l reply => Sys2Proof.Machine.execLinkDelayRequest l reply s
  | .cut l => Sys2Proof.Machine.execCut l s
  | .heal l => Sys2Proof.Machine.execHeal l s
  | .orphan l => Sys2Proof.Machine.execOrphan l s
  | .ringClrCnt l q => Sys2Proof.Machine.execRingClrCnt l q s
  | .bulkNone l => Sys2Proof.Machine.execBulkNone l s
  | .capture l => Sys2Proof.Machine.execCapture l s
  | .flog l => Sys2Proof.Machine.execFlog l s
  | .imgWrite l => Sys2Proof.Machine.execImgWrite l s
  | .imgCommit l r sigOk => Sys2Proof.Machine.execImgCommit l r sigOk s
  | .bulkClrCnt l => Sys2Proof.Machine.execBulkClrCnt l s
  | .canInit l c b => Sys2Proof.Machine.execCanInit l c b s
  | .busIntegration l c => Sys2Proof.Machine.execBusIntegration l c s
  | .txPush l c dest p => Sys2Proof.Machine.execTxPush l c dest p s
  | .cancelTag l c tag p => Sys2Proof.Machine.execCancelTag l c tag p s
  | .cancelSlot l c k p => Sys2Proof.Machine.execCancelSlot l c k p s
  | .cancelAll l c p => Sys2Proof.Machine.execCancelAll l c p s
  | .popRx l c => Sys2Proof.Machine.execPopRx l c s
  | .popTxc l c => Sys2Proof.Machine.execPopTxc l c s
  | .recReq l c => Sys2Proof.Machine.execRecReq l c s
  | .canClrOvf l c => Sys2Proof.Machine.execCanClrOvf l c s
  | .canClrCnt l c => Sys2Proof.Machine.execCanClrCnt l c s
  | .arbitrationLost l c age => Sys2Proof.Machine.execArbitrationLost l c age s
  | .txComplete l c age => Sys2Proof.Machine.execTxComplete l c age s
  | .txError l c err data dominant spared age => Sys2Proof.Machine.execTxError l c err data dominant spared age s
  | .busOffRecovery l c => Sys2Proof.Machine.execBusOffRecovery l c s
  | .canRxFrame l c f age => Sys2Proof.Machine.execCanRxFrame l c f age s
  | .memPwr l w => Sys2Proof.Machine.execMemPwr l w s
  | .memPwrDone l b => Sys2Proof.Machine.execMemPwrDone l b s
  | .scrub l b e => Sys2Proof.Machine.execScrub l b e s
  | .scrubLate l b => Sys2Proof.Machine.execScrubLate l b s
  | .memClrScrub l => Sys2Proof.Machine.execMemClrScrub l s
  | .memClrEcc l => Sys2Proof.Machine.execMemClrEcc l s
  | .capArm l w => Sys2Proof.Machine.execCapArm l w s
  | .capTrig l w => Sys2Proof.Machine.execCapTrig l w s
  | .capStop l w => Sys2Proof.Machine.execCapStop l w s
  | .capDone l w => Sys2Proof.Machine.execCapDone l w s
  | .reactionStop l => Sys2Proof.Machine.execReactionStop l s
  | .evcPendClear l g w => Sys2Proof.Machine.execEvcPendClear l g w s
  | .evcClrCnt l => Sys2Proof.Machine.execEvcClrCnt l s
  | .monLogClrCnt l q => Sys2Proof.Machine.execMonLogClrCnt l q s
  | .monLogClear l q => Sys2Proof.Machine.execMonLogClear l q s
  | .streamResumed isl => Sys2Proof.Machine.execStreamResumed isl s
  | .ovsRelease k mv => Sys2Proof.Machine.execOvsRelease k mv s
  | .snsRestored w m value volts => Sys2Proof.Machine.execSnsRestored w m value volts s
  | .monConverterFrame f => Sys2Proof.Machine.execMonConverterFrame f s
  | .monSelfTestFail => Sys2Proof.Machine.execMonSelfTestFail s
  | .mpOverload l ovr => Sys2Proof.Machine.execMpOverload l ovr s
  | .warmRestartDone l => Sys2Proof.Machine.execWarmRestartDone l s
  | .imgWriteDone l => Sys2Proof.Machine.execImgWriteDone l s
  | .carrierPeriodStart l c => Sys2Proof.Machine.execCarrierPeriodStart l c s
  | .cpPwmPeriod l duty => Sys2Proof.Machine.execCpPwmPeriod l duty s
  | .eventFrameReceived l from_ crcOk len n => Sys2Proof.Machine.execEventFrameReceived l from_ crcOk len n s
  | .linkDelayReply l turnaround => Sys2Proof.Machine.execLinkDelayReply l turnaround s
  | .canRxError l c err data eight => Sys2Proof.Machine.execCanRxError l c err data eight s
  | .canProtocolException l c => Sys2Proof.Machine.execCanProtocolException l c s

end Sys2Proof.Machine
end

