-- ==== Sys2Proof/Machine/Step.lean ====
section
/-! DEFINITION. One step of the block: it takes the command at the front of the queue and runs it with the rest of the
queue waiting. On an empty queue the block idles for one count of the time base. -/
namespace Sys2Proof.Machine

/-- One step: the front command, first in, first out; on an empty queue one 12.5 ns count passes (DESIGN CHOICE). -/
def step (s : State) : Host.Outcome State Fault Refusal :=
  match s.pending with
  | [] => .next { s with time := s.time + 1 }
  | c :: rest => exec c { s with pending := rest }

/-- The machine with the command that a table word spells at the front of its queue. The opcode table gives no row bits,
so no word spells a command and the machine is unchanged. -/
def State.withFetchWord (s : State) (nbits w : Nat) : State :=
  match decodeTableWord nbits w with
  | some c => { s with pending := c :: s.pending }
  | none => s

end Sys2Proof.Machine
end

