-- ==== Sys2Proof/Safety.lean ====
section
/-! DEFINITION. What a sound state is, whatever configuration is in it: every sparse file in its canonical form, and every queue
of the chapters within its depth. Every step keeps it. -/
namespace Sys2Proof.Machine

/-- The queues of a CAN controller within their depths: 32 frames to send, 32 completions, 64 received (R426, R434, R438). -/
def CanState.Fits (x : CanState) : Prop := x.fifo.length ≤ 32 ∧ x.txc.length ≤ 32 ∧ x.rx.length ≤ 64

/-- A lane's files are canonical, and its backlog of events (R410), its journal (R339) and its CAN queues within their depths. -/
def LaneState.Sound (x : LaneState) : Prop :=
  x.regs.wf = true ∧ Memory.wf 0 x.mem = true ∧ Memory.wf 0xFF x.flash = true ∧ x.evq.length ≤ 32 ∧
  x.red.journal.length ≤ 1024 ∧ ∀ c : Fin 2, (x.can[c]).Fits

/-- The monitor's file is canonical, and its fault log holds at most 512 entries (R465). -/
def MonState.Sound (m : MonState) : Prop := m.regs.wf = true ∧ m.log.length ≤ 512

/-- A sound state. -/
def State.Sound (s : State) : Prop := s.lanes.a.Sound ∧ s.lanes.b.Sound ∧ s.mon.Sound

/-- The addresses that the coming of an event may write, whatever page it is on: EVT_RAW and EVT_PEND of the page, the EVC and MEM pages,
the ring's counts of event frames, and the monitor's log and counts (R88, R410, R450, R457, R465). -/
def evAddr (n : Nat) : Bool :=
  n % 0x1000 == 0x010 || n % 0x1000 == 0x018 || n / 0x1000 == 4 || n / 0x1000 == 5 || n == 0xA0068 || n == 0xA006C ||
  n == 0xC0040 || n == 0xC0044 || (decide (0xC0100 ≤ n) && decide (n < 0xC0120))

/-- What an event leaves of a lane: everything but registers, pulses, the configured STOPs and requests, the EVENT path and the
capture windows. -/
def LaneState.still (x : LaneState) : LaneState :=
  { x with regs := [], pulses := [], stopPend := [], evq := [], cap := Vector.replicate 8 {}
           saf := { x.saf with reqSto := false, reqSs1 := false, cause := 0 }
           ring := { x.ring with evSeq := 0, evSent := 0, sent := [] } }

/-- What an event leaves of the monitor. -/
def MonState.still (m : MonState) : MonState := { m with regs := [], pulses := [], log := [], logged := [] }

/-- The parts of the state outside the register pages: of the module, of the monitor, and of the lanes. -/
inductive Part where
  | hv | lv | sns | aon | free | ofs | mon
  | hold | boot | mem | flash | shadows | waiting | timedHalves | sess | answer | red | saf | cls | trc | eng | fbk | smp | dcl | chg
  | act | can | ring | bulkLast | dup | loopReq | scrub | legEvents
deriving DecidableEq, Repr

/-- A part of a lane is the same in x and y; the parts of the module and of the monitor ask nothing of it. -/
def LaneState.Same (p : Part) (x y : LaneState) : Prop :=
  match p with
  | .hold => x.hold = y.hold | .boot => x.boot = y.boot | .mem => x.mem = y.mem | .flash => x.flash = y.flash
  | .shadows => x.shadows = y.shadows | .waiting => x.waiting = y.waiting | .timedHalves => x.timedHalves = y.timedHalves
  | .sess => x.sess = y.sess | .answer => x.answer = y.answer | .red => x.red = y.red | .saf => x.still.saf = y.still.saf
  | .cls => x.cls = y.cls | .trc => x.trc = y.trc | .eng => x.eng = y.eng | .fbk => x.fbk = y.fbk | .smp => x.smp = y.smp
  | .dcl => x.dcl = y.dcl | .chg => x.chg = y.chg | .act => x.act = y.act | .can => x.can = y.can
  | .ring => x.still.ring = y.still.ring | .bulkLast => x.bulkLast = y.bulkLast | .dup => x.dup = y.dup
  | .loopReq => x.loopReq = y.loopReq | .scrub => x.scrub = y.scrub | .legEvents => x.legEvents = y.legEvents
  | .hv | .lv | .sns | .aon | .free | .ofs | .mon => True

/-- A part of the state is the same in s and t. -/
def State.Same (p : Part) (s t : State) : Prop :=
  match p with
  | .hv => s.hv = t.hv | .lv => s.lv = t.lv | .sns => s.sns = t.sns | .aon => s.aon = t.aon | .free => s.free = t.free
  | .ofs => s.timeOfs = t.timeOfs | .mon => s.mon.still = t.mon.still
  | p => ∀ l, (s.lane l).Same p (t.lane l)

/-- The kind of register page an address lies in: its PG_ID.TYPE, 0 where there is no page (R85). -/
def typeAt (n : Nat) : Nat :=
  match pageAt n with
  | some p => p.type
  | none => 0

/-- A footprint: the parts of the state and the types of register pages that an operation may change, or registers of any page. -/
structure Foot where
  parts : List Part := []
  pages : List Nat := []
  anyPage : Bool := false
deriving DecidableEq, Repr

/-- A register word that a footprint allows to change: one of its pages, or one that the coming of an event may write. -/
def Foot.has (f : Foot) (n : Nat) : Bool := f.anyPage || evAddr n || f.pages.contains (typeAt n)

/-- t differs from s only within a footprint, and in what events change. -/
def State.Only (f : Foot) (s t : State) : Prop :=
  (∀ p, p ∉ f.parts → s.Same p t) ∧ ∀ l n, f.has n = false → t.word l n = s.word l n

/-- A lane takes a write at an address: it is out of reset, and neither BUSY nor a state that serves no such write turns it away
(R62, R408). -/
def State.Takes (s : State) (l : Lane) (addr : Nat) : Prop := s.inReset l = false ∧ s.turnAway l addr true false = none

/-- A write through a lane at an address with a number, or without one, that is performed at once: the lane takes it, nothing waits and no
shadow of the register is armed, its number is new with fewer than 16 PERIODs of its session outstanding, and the peer's journal has room
for a mirrored one (R105, R108, R339, R408). -/
def State.Serves (s : State) (l : Lane) (addr : Nat) (q : Option Req) : Prop :=
  s.Takes l addr ∧ (∀ k, (s.lane k).waiting = []) ∧ s.armedAt l addr = false ∧
  match q with
  | none => True
  | some r => (s.lane l).sess[r.sess].judge r.seq = .new ∧ (s.lane l).sess[r.sess].periods.length < 16 ∧
    (mirrored addr = true → (s.lane l.other).red.journal.length < 1024)

/-- The status that an access through a lane was answered with (R94). -/
def State.answered (s : State) (l : Lane) : Status := (s.lane l).answer.status

/-- A lane's supply rail is valid (R57). -/
def State.rail (s : State) (l : Lane) : Bool :=
  match l with
  | .A => s.aon.vsaOk
  | .B => s.aon.vsbOk

/-- A header bit's EVT_PEND, and its EVT_RAW as far as a lasting condition makes it (R88). -/
def State.pended (s : State) (l : Lane) (e : Ev) : Bool := bit (s.word l (e.page + 0x018)) e.bit
def State.present (s : State) (l : Lane) (e : Ev) : Bool := bit (s.word l (e.page + 0x010)) e.bit

/-- The command completes: it answers the state u, in which P holds, with the requests that u's events have raised on the safety
request lines heard (R357, R460). -/
def Completes (o : Out) (P : State → Prop) : Prop := ∃ u, o = .next u.settle ∧ P u

end Sys2Proof.Machine
end

