-- ==== Sys2Proof/Machine/Footprint.lean ====
section
/-! DEFINITION. What each command may change: for every command a footprint, the parts of the state and the kinds of register pages
outside which it leaves everything as it is, but for what events change. A command that carries out a write of any register has
the whole state as its footprint. -/
namespace Sys2Proof.Machine

/-- Every part and every page. -/
def Foot.all : Foot :=
  ⟨[.hv, .lv, .sns, .aon, .free, .ofs, .mon, .hold, .boot, .mem, .flash, .shadows, .waiting, .timedHalves, .sess, .answer, .red, .saf,
    .cls, .trc, .eng, .fbk, .smp, .dcl, .chg, .act, .can, .ring, .bulkLast, .dup, .loopReq, .scrub, .legEvents], [], true⟩

/-- What the reset of a lane may change. -/
def Foot.laneReset : Foot :=
  ⟨[.hv, .lv, .aon, .ofs, .mon, .hold, .boot, .mem, .flash, .shadows, .waiting, .timedHalves, .sess, .answer, .red, .saf, .cls, .trc,
    .eng, .fbk, .smp, .dcl, .chg, .act, .can, .ring, .bulkLast, .dup, .loopReq, .scrub, .legEvents], [], true⟩

/-- The end of a command: the safety reactions that its events have requested, and the monitor's report of its state (R356, R361). -/
def settleFoot : Foot :=
  ⟨[.hv, .lv, .aon, .mon, .saf, .trc, .dcl, .chg, .loopReq], [0x10, 0x11, 0x30, 0x31, 0x32, 0x33, 0x34, 0x50], false⟩

/-- The footprint of each command, before its end. -/
def footprint (i : Instr) : Foot :=
  match i with
  | .vsValid _ => ⟨[.aon, .hold, .boot], [], false⟩
  | .vsFailed _ => .all
  | .nporAssert => .all
  | .nporRelease => ⟨[.hv, .lv, .aon, .mon, .boot, .red, .trc, .loopReq], [0x10, 0x11, 0x40, 0x50, 0x80], false⟩
  | .nrstAssert _ => .laneReset
  | .laneResetRelease _ _ => ⟨[.hold, .boot], [], false⟩
  | .softReset _ => .laneReset
  | .warmRestart _ => ⟨[.boot], [0x04], false⟩
  | .devnumSample _ _ _ _ => ⟨[.hv, .aon, .mon], [], false⟩
  | .flashReadPassDone _ _ => ⟨[.boot], [], false⟩
  | .imageVerify _ _ => ⟨[.boot], [], false⟩
  | .controlReady _ => ⟨[.hv, .lv, .aon, .mon, .boot, .mem, .red, .saf, .trc, .eng, .dcl, .chg, .loopReq], [], true⟩
  | .droopEntry _ => ⟨[], [0x03, 0x10], false⟩
  | .droopRelease _ => ⟨[], [0x03], false⟩
  | .xtalFail _ => .laneReset
  | .clockCheckWindow _ => .laneReset
  | .peerReset _ => ⟨[], [], false⟩
  | .peerResetStuck _ => ⟨[], [], false⟩
  | .islandUsable _ => ⟨[.hv, .lv, .sns], [], false⟩
  | .islandSupplyLost _ => ⟨[.hv, .lv, .sns, .aon, .mon, .trc, .chg, .loopReq], [0x10, 0x11, 0x20, 0x21, 0x30, 0x31, 0x32, 0x33, 0x34,
      0x40, 0x50], false⟩
  | .streamLost _ => ⟨[.hv, .lv], [0x20], false⟩
  | .safeStateLineLost _ => ⟨[.hv], [], false⟩
  | .ovsOvervoltage _ _ => ⟨[.hv], [0x20], false⟩
  | .ovsAscEntry _ => ⟨[.hv], [], false⟩
  | .ovsAscRelease _ => ⟨[.hv], [], false⟩
  | .registerWrite _ _ _ _ _ _ => .all
  | .blockSoftReset _ _ _ => .all
  | .lockSet _ _ _ _ => .all
  | .eventForce _ _ _ _ => .all
  | .dualWriteHalf _ _ _ _ => .all
  | .dualTimeout _ _ => ⟨[.mon, .timedHalves, .sess], [], false⟩
  | .dualHalfLaneTimeout _ _ => ⟨[.timedHalves, .sess], [], false⟩
  | .signalAccess _ _ _ _ _ => .all
  | .periodComplete _ _ => ⟨[.shadows, .sess, .answer], [0x40], false⟩
  | .shadowArmPeer _ _ => ⟨[.shadows], [], false⟩
  | .shadowTransfer _ => .all
  | .fastCycleStart _ _ _ => .all
  | .mediumCycleStart _ _ _ => ⟨[.hv, .aon, .mon, .mem, .red, .eng, .dcl, .chg, .loopReq], [0x10, 0x30, 0x31, 0x32, 0x33, 0x40, 0x50],
      false⟩
  | .slowCycleStart _ _ _ => ⟨[.mem, .red, .trc, .eng, .fbk, .smp, .dcl], [0x10, 0x30, 0x40], false⟩
  | .lockstepMismatch _ => ⟨[.red], [0x40], false⟩
  | .conversionResult _ _ => ⟨[.hv, .aon, .free, .mon, .red, .trc, .smp, .chg, .loopReq], [0x10, 0x11, 0x13, 0x30, 0x31, 0x32, 0x33,
      0x40, 0x50], false⟩
  | .encEdge _ _ _ => ⟨[.fbk], [0x12], false⟩
  | .indexLatch _ => ⟨[.fbk], [0x12], false⟩
  | .hallEdge _ _ => ⟨[.fbk], [0x12], false⟩
  | .resTrackUpdate _ _ _ _ _ _ _ => ⟨[.fbk], [0x12], false⟩
  | .ssiRequest _ _ => ⟨[.fbk], [0x12], false⟩
  | .ssiFrame _ _ _ _ _ => ⟨[.fbk], [0x12], false⟩
  | .posStale _ _ => ⟨[.fbk], [0x12], false⟩
  | .speedZeroTimeout _ _ => ⟨[.fbk], [], false⟩
  | .posDisagree _ => ⟨[.fbk], [0x12], false⟩
  | .sourceReturn _ _ _ => ⟨[.fbk], [], false⟩
  | .encOffsetWrite _ _ => ⟨[.answer, .fbk], [], false⟩
  | .fbkClrCnt _ => ⟨[.answer], [0x12], false⟩
  | .fbkClrDrift _ => ⟨[.answer], [0x12], false⟩
  | .fbkClrEncRef _ => ⟨[.answer], [0x12], false⟩
  | .fbkClrFault _ _ => ⟨[.answer, .fbk], [0x12], false⟩
  | .snsClockChangeover _ _ => ⟨[.sns, .smp], [0x22], false⟩
  | .snsLost _ _ => ⟨[.hv, .aon, .mon, .smp, .dcl, .chg, .loopReq], [0x10, 0x13, 0x22, 0x30, 0x31, 0x32, 0x33, 0x50], false⟩
  | .dclDisagree _ => ⟨[.hv, .aon, .mon, .dcl, .chg, .loopReq], [0x10, 0x13, 0x30, 0x31, 0x32, 0x33, 0x50], false⟩
  | .calibrationStart _ _ => ⟨[.answer], [0x13], false⟩
  | .calDone _ _ => ⟨[], [0x13], false⟩
  | .smpClrCnt _ => ⟨[.answer], [0x13], false⟩
  | .smpClrSns _ _ => ⟨[.hv, .aon, .mon, .answer, .dcl, .chg, .loopReq], [0x10, 0x13, 0x30, 0x31, 0x32, 0x33, 0x50], false⟩
  | .smpClrFlt _ _ => ⟨[.answer, .smp], [0x13], false⟩
  | .ceStop _ => ⟨[.answer, .eng], [0x10], false⟩
  | .commit _ => ⟨[.answer, .eng], [0x03, 0x10], false⟩
  | .loopClose _ _ => ⟨[.answer, .loopReq], [], false⟩
  | .loopOpen _ _ => ⟨[.answer, .loopReq], [0x10], false⟩
  | .ceClrNf _ => ⟨[.answer], [0x10], false⟩
  | .ceClrOvr _ => ⟨[.answer], [0x10], false⟩
  | .ceClrMax _ => ⟨[.answer], [0x10], false⟩
  | .pinSpEdge _ _ => ⟨[.eng], [0x10], false⟩
  | .spFault _ => ⟨[], [0x10], false⟩
  | .spFaultClear _ => ⟨[], [0x10], false⟩
  | .currentExchange _ _ => ⟨[.eng], [], false⟩
  | .decModel _ => ⟨[.eng], [0x11], false⟩
  | .decRestored _ => ⟨[], [0x11], false⟩
  | .lockLost _ => ⟨[], [0x02, 0x11, 0x41], false⟩
  | .lock _ => ⟨[], [0x02, 0x11, 0x41], false⟩
  | .alignmentDone => ⟨[], [0x11], false⟩
  | .pwmAltSelect _ _ => ⟨[.answer, .eng], [0x11], false⟩
  | .pwmRateChange _ => ⟨[.eng], [0x10, 0x11], false⟩
  | .vlim _ => ⟨[], [], false⟩
  | .trcClrMiss _ => ⟨[.answer], [0x11], false⟩
  | .enable _ => ⟨[.hv, .answer, .trc, .loopReq], [0x10, 0x11], false⟩
  | .start _ => ⟨[.hv, .answer, .trc, .loopReq], [0x10, 0x11], false⟩
  | .stop _ => ⟨[.hv, .answer, .trc, .loopReq], [0x10, 0x11], false⟩
  | .brake _ => ⟨[.hv, .answer, .trc, .loopReq], [0x10, 0x11], false⟩
  | .release _ => ⟨[.hv, .answer, .trc, .loopReq], [0x10, 0x11], false⟩
  | .disable _ => ⟨[.hv, .answer, .trc, .loopReq], [0x10, 0x11], false⟩
  | .clear _ => ⟨[.hv, .answer, .trc, .loopReq], [0x10, 0x11], false⟩
  | .catchTimeout _ => ⟨[.hv, .trc, .loopReq], [0x10, 0x11], false⟩
  | .polDone _ _ => ⟨[.hv, .mem, .trc, .loopReq], [0x10, 0x11], false⟩
  | .acqDone _ _ _ => ⟨[.hv, .mem, .trc, .loopReq], [0x10, 0x11], false⟩
  | .acqFail _ => ⟨[.hv, .trc, .loopReq], [0x10, 0x11], false⟩
  | .startToRun _ => ⟨[.hv, .trc, .loopReq], [0x10, 0x11], false⟩
  | .stoppingDone _ => ⟨[.hv, .saf, .trc, .loopReq], [0x10, 0x11], false⟩
  | .obsLost _ => ⟨[.hv, .trc, .loopReq], [0x10, 0x11, 0x12], false⟩
  | .stall _ => ⟨[], [0x11], false⟩
  | .stallRecover _ => ⟨[], [0x11], false⟩
  | .safeStateSelection _ _ _ _ => ⟨[.hv, .mon], [0x11, 0x22, 0x80], false⟩
  | .scSpeedTimeout => ⟨[.hv, .mon], [0x11, 0x80], false⟩
  | .uLost => ⟨[.hv, .mon], [0x11, 0x80], false⟩
  | .monTachPulse => ⟨[.hv, .mon], [0x11, 0x80], false⟩
  | .gateBelowThreshold _ => ⟨[.hv], [], false⟩
  | .sc _ => ⟨[.hv, .aon, .mon, .trc, .chg, .loopReq], [0x10, 0x11, 0x20, 0x30, 0x31, 0x32, 0x33, 0x50], false⟩
  | .softOffEnd _ => ⟨[.hv], [], false⟩
  | .uvlo _ _ _ => ⟨[.hv, .lv, .aon, .mon, .trc, .chg, .loopReq], [0x10, 0x11, 0x20, 0x21, 0x30, 0x31, 0x32, 0x33, 0x34, 0x40, 0x50],
      false⟩
  | .uvloRecover _ => ⟨[.hv], [], false⟩
  | .tmpConversion _ _ _ _ => ⟨[], [0x20], false⟩
  | .shootReq _ _ => ⟨[.hv, .lv, .aon, .mon, .trc, .chg, .loopReq, .legEvents], [0x10, 0x11, 0x20, 0x21, 0x30, 0x31, 0x32, 0x33, 0x34,
      0x40, 0x50], false⟩
  | .deadTimeRelease _ _ _ => ⟨[.hv, .lv], [0x20], false⟩
  | .dtTimeout _ _ => ⟨[.hv, .lv, .aon, .mon, .trc, .chg, .loopReq, .legEvents], [0x10, 0x11, 0x20, 0x21, 0x30, 0x31, 0x32, 0x33, 0x34,
      0x40, 0x50], false⟩
  | .islandSilent _ => ⟨[.hv, .trc, .loopReq], [0x10, 0x11], false⟩
  | .gdhClrSc _ _ => ⟨[.hv, .answer], [], false⟩
  | .gdhClrLeg _ _ => ⟨[.answer, .legEvents], [0x20, 0x21], false⟩
  | .gdhClrDt _ _ => ⟨[.answer], [0x20], false⟩
  | .gdhClrCnt _ _ => ⟨[.answer], [0x20], false⟩
  | .scSelfTest _ _ _ => ⟨[.hv, .answer], [], false⟩
  | .tokenLatch _ _ => ⟨[.hv, .lv], [0x40], false⟩
  | .tokenMoved => ⟨[.mon], [0x40, 0x80], false⟩
  | .tokenCodeInvalid _ => ⟨[.hv, .lv], [], false⟩
  | .holdAscMask _ => ⟨[.hv, .mon], [], false⟩
  | .gdlUvlo => ⟨[.lv], [], false⟩
  | .bootUv _ _ => ⟨[.hv, .lv, .aon, .mon, .trc, .chg, .loopReq], [0x10, 0x11, 0x20, 0x21, 0x30, 0x31, 0x32, 0x33, 0x34, 0x40, 0x50],
      false⟩
  | .shuntOc _ => ⟨[.lv, .loopReq], [0x10, 0x34], false⟩
  | .gdlClrLeg _ _ => ⟨[.lv, .answer, .legEvents], [0x20, 0x21], false⟩
  | .gdlClrCnt _ _ => ⟨[.answer], [0x21], false⟩
  | .dclWrite _ _ _ _ _ => .all
  | .dclEnable _ _ => .all
  | .dclDisable _ _ => .all
  | .dclStopDone _ => ⟨[.hv, .mem, .loopReq], [0x10, 0x30], false⟩
  | .phaseClear _ _ _ => .all
  | .dclClrCnt _ _ => .all
  | .shed => ⟨[.dcl], [0x30], false⟩
  | .shedRampDone => ⟨[.hv, .mem, .dcl], [0x30], false⟩
  | .shedAbortNotice _ => ⟨[.hv, .mem, .dcl], [0x30], false⟩
  | .ovTimeout _ => ⟨[.hv, .aon, .mon, .dcl, .chg, .loopReq], [0x10, 0x30, 0x31, 0x32, 0x33, 0x50], false⟩
  | .pgDclRelease => ⟨[.aon], [0x80], false⟩
  | .cpStateChange _ _ => ⟨[.hv, .aon, .mon, .saf, .trc, .chg, .loopReq], [0x10, 0x11, 0x30, 0x31, 0x32, 0x33, 0x50], false⟩
  | .ppClassify _ _ => ⟨[.hv, .mon, .saf, .trc, .chg, .loopReq], [0x10, 0x11, 0x31, 0x32, 0x33, 0x50], false⟩
  | .interlockRelease => ⟨[.hv, .mon], [0x50], false⟩
  | .interlockDisagree => ⟨[], [], false⟩
  | .mainsPresent _ => ⟨[.chg, .loopReq], [0x32, 0x33], false⟩
  | .preloadDone _ => ⟨[.aon, .mon], [0x33, 0x50], false⟩
  | .kfbConfirm _ _ => ⟨[.aon, .mon, .mem, .chg, .loopReq], [0x30, 0x31, 0x32, 0x33, 0x50], false⟩
  | .afeLock _ => ⟨[.mem, .chg], [0x30, 0x31, 0x32, 0x33], false⟩
  | .afeCurrentZero _ => ⟨[.hv, .aon, .mon, .mem, .chg, .loopReq], [0x10, 0x30, 0x31, 0x32, 0x33, 0x50], false⟩
  | .kFeedback _ _ => ⟨[.hv, .aon, .mon, .chg, .loopReq], [0x10, 0x30, 0x31, 0x32, 0x33, 0x50], false⟩
  | .gridDip _ _ => ⟨[.hv, .chg], [0x31, 0x32, 0x33], false⟩
  | .gridTrip _ _ => ⟨[.chg], [0x31, 0x32, 0x33], false⟩
  | .gridRestart _ => ⟨[.aon, .chg], [0x33], false⟩
  | .island _ _ => ⟨[.chg], [0x31, 0x32, 0x33], false⟩
  | .v2l _ => ⟨[.hv, .aon, .mon, .chg, .loopReq], [0x10, 0x30, 0x31, 0x32, 0x33, 0x50], false⟩
  | .s2HoldTimeout => ⟨[.aon], [], false⟩
  | .pgChgRelease _ => ⟨[.aon], [0x80], false⟩
  | .chgClrFault _ _ => .all
  | .chgClrCnt _ _ => .all
  | .afeClrCnt _ _ => .all
  | .dabClrCnt _ _ => .all
  | .actMove _ _ _ => .all
  | .actHome _ _ _ => .all
  | .actLearn _ _ _ => .all
  | .actStop _ _ _ => .all
  | .actCoast _ _ _ => .all
  | .actClear _ _ _ => .all
  | .actHallStep _ _ _ => ⟨[.lv, .free, .act, .loopReq], [0x10, 0x34], false⟩
  | .lockedRotor _ _ => ⟨[.lv, .loopReq], [0x10, 0x34], false⟩
  | .holdTExpiry _ _ => ⟨[.lv, .loopReq], [0x10, 0x34], false⟩
  | .moveDone _ _ => ⟨[.lv, .loopReq], [0x34], false⟩
  | .moveTimeout _ _ => ⟨[.lv, .loopReq], [0x10, 0x34], false⟩
  | .vlvOutOfWindow _ => ⟨[.lv, .loopReq], [0x10, 0x34], false⟩
  | .actClrCnt _ _ _ => .all
  | .stateCopy _ _ _ => ⟨[.hv, .aon, .mon, .sess, .red, .chg, .act, .loopReq], [0x02, 0x10, 0x11, 0x30, 0x31, 0x32, 0x33, 0x34, 0x40,
      0x41, 0x50], false⟩
  | .heartbeat _ _ _ => ⟨[.hv, .lv, .aon, .mon, .sess, .red, .saf, .trc, .chg, .loopReq], [0x02, 0x10, 0x11, 0x30, 0x31, 0x32, 0x33,
      0x40, 0x41, 0x50, 0x80], false⟩
  | .relayFrame _ => ⟨[.hv, .red, .saf, .trc, .dcl, .loopReq], [0x10, 0x11, 0x40], false⟩
  | .heartbeatWindow _ _ => ⟨[.hv, .lv, .aon, .mon, .sess, .red, .trc, .dcl, .chg, .loopReq], [0x02, 0x10, 0x11, 0x30, 0x31, 0x32,
      0x33, 0x40, 0x41, 0x50, 0x80], false⟩
  | .splitTimeout _ => ⟨[.hv, .free, .red, .saf, .trc, .loopReq], [0x10, 0x11, 0x40, 0x50], false⟩
  | .autoReset _ => .laneReset
  | .journalEntry _ _ => ⟨[.hv, .lv, .sns, .aon, .mon, .sess, .red, .saf, .cls, .trc, .smp, .dcl, .chg, .loopReq], [0x10, 0x11, 0x22,
      0x30, 0x31, 0x32, 0x33, 0x34, 0x40, 0x50, 0x51, 0x80], false⟩
  | .linkRetrain _ _ => ⟨[], [0x41], false⟩
  | .linkUp _ => ⟨[.boot, .red], [0x07, 0x10, 0x40, 0x41], false⟩
  | .peerReturn _ => ⟨[.hv, .mon, .sess, .red], [0x40, 0x50, 0x80], false⟩
  | .returnDone _ => ⟨[], [0x40], false⟩
  | .redWrite _ _ _ _ _ => .all
  | .splitContinue _ => ⟨[.answer, .red], [0x40], false⟩
  | .splitSs1 _ => ⟨[.hv, .answer, .red, .saf, .trc, .loopReq], [0x10, 0x11, 0x50], false⟩
  | .rejoin _ => ⟨[.answer, .red], [0x40], false⟩
  | .tokenMove _ => ⟨[.mon, .answer], [], false⟩
  | .tokenMoveExecute => ⟨[.hv, .lv, .aon, .mon, .chg, .loopReq], [0x31, 0x32, 0x33, 0x34, 0x40, 0x50, 0x80], false⟩
  | .retest _ => ⟨[.answer, .red], [0x40], false⟩
  | .retestDone _ _ => ⟨[.hv, .lv, .aon, .mon, .boot, .mem, .red, .saf, .trc, .eng, .dcl, .chg, .loopReq], [], true⟩
  | .redClrJrnl _ => ⟨[.answer], [0x40], false⟩
  | .redClrFo _ => ⟨[.answer], [0x40], false⟩
  | .conjClrCnt _ => ⟨[.answer], [0x41], false⟩
  | .unretireA _ => ⟨[.hold, .boot, .answer], [0x80], false⟩
  | .unretireB _ => ⟨[.hold, .boot, .answer], [0x80], false⟩
  | .stoPin _ => ⟨[.hv, .lv, .aon, .mon, .saf, .trc, .dcl, .chg, .loopReq], [0x10, 0x11, 0x30, 0x31, 0x32, 0x33, 0x34, 0x50], false⟩
  | .stoPinHigh _ => ⟨[.aon, .mon], [0x50], false⟩
  | .stoDisc => ⟨[.mon], [0x50], false⟩
  | .stoRequest _ => ⟨[.answer, .saf], [], false⟩
  | .ss1Request _ => ⟨[.answer, .saf], [], false⟩
  | .safAck _ _ => .all
  | .ss1Timeout _ => ⟨[.hv, .lv, .aon, .mon, .red, .saf, .trc, .dcl, .chg, .loopReq], [0x10, 0x11, 0x30, 0x31, 0x32, 0x33, 0x34, 0x50],
      false⟩
  | .ss1RampDone _ => ⟨[.hv, .lv, .aon, .mon, .red, .saf, .trc, .dcl, .chg, .loopReq], [0x10, 0x11, 0x30, 0x31, 0x32, 0x33, 0x34,
      0x50], false⟩
  | .commandLineLost _ _ => ⟨[.hv, .lv, .aon, .mon, .saf, .trc, .dcl, .chg, .loopReq], [0x10, 0x11, 0x30, 0x31, 0x32, 0x33, 0x34,
      0x50], false⟩
  | .speedCompare => ⟨[.hv, .mon, .saf, .trc, .loopReq], [0x10, 0x11, 0x50], false⟩
  | .torqueMonitor => ⟨[.hv, .lv, .aon, .mon, .saf, .trc, .dcl, .chg, .loopReq], [0x10, 0x11, 0x30, 0x31, 0x32, 0x33, 0x34, 0x50], false⟩
  | .safKFeedback _ _ => ⟨[.aon], [0x33, 0x50], false⟩
  | .kTest _ => ⟨[.aon, .mon], [0x50], false⟩
  | .kTestCheck _ _ => ⟨[.aon, .mon], [0x33, 0x50], false⟩
  | .clauseReceive _ _ => ⟨[.hv, .lv, .aon, .mon, .red, .saf, .cls, .trc, .dcl, .chg, .loopReq], [0x10, 0x11, 0x30, 0x31, 0x32, 0x33,
      0x34, 0x50, 0x51], false⟩
  | .wdog _ _ => ⟨[.hv, .lv, .aon, .mon, .red, .saf, .cls, .trc, .dcl, .chg, .loopReq], [0x10, 0x11, 0x30, 0x31, 0x32, 0x33, 0x34,
      0x50, 0x51], false⟩
  | .laneDiff => ⟨[], [], false⟩
  | .clauseTransmit _ _ => ⟨[.free, .cls, .can], [0x51, 0x70], false⟩
  | .cycleStart _ _ => ⟨[.free, .ofs, .ring], [0x60], false⟩
  | .cyc _ _ _ _ _ _ _ _ _ _ _ => ⟨[.free, .shadows, .waiting, .sess, .answer, .ring], [0x40, 0x60], false⟩
  | .ringOut _ _ _ _ _ _ _ => ⟨[.cls, .ring], [], false⟩
  | .ringIn _ _ _ _ _ _ _ => ⟨[.dup], [0x60], false⟩
  | .rd _ _ _ _ _ _ _ _ _ => .all
  | .wr _ _ _ _ _ _ _ _ _ _ _ => .all
  | .rmw _ _ _ _ _ _ _ _ _ _ => .all
  | .period _ _ _ _ _ _ _ _ => ⟨[.shadows, .waiting, .sess, .answer], [0x40], false⟩
  | .unknownFrame _ _ _ _ _ _ => ⟨[], [], false⟩
  | .linkDelayRequest _ _ => ⟨[.answer, .ring], [0x60], false⟩
  | .cut _ => ⟨[], [0x60], false⟩
  | .heal _ => ⟨[], [0x60], false⟩
  | .orphan _ => ⟨[.ring], [0x60], false⟩
  | .ringClrCnt _ _ => .all
  | .bulkNone _ => ⟨[.bulkLast], [0x61], false⟩
  | .capture _ => ⟨[.mem, .bulkLast], [0x61], false⟩
  | .flog _ => ⟨[.mem, .bulkLast], [0x61], false⟩
  | .imgWrite _ => ⟨[.boot, .flash, .bulkLast], [0x61], false⟩
  | .imgCommit _ _ _ => ⟨[.boot, .bulkLast], [0x61], false⟩
  | .bulkClrCnt _ => ⟨[.answer], [0x61], false⟩
  | .canInit _ _ _ => ⟨[.hv, .free, .answer, .trc, .can, .loopReq], [0x10, 0x11, 0x40, 0x70], false⟩
  | .busIntegration _ _ => ⟨[.free, .can], [0x70], false⟩
  | .txPush _ _ _ _ => ⟨[.hv, .answer, .trc, .can, .loopReq], [0x10, 0x11, 0x40, 0x70], false⟩
  | .cancelTag _ _ _ _ => ⟨[.free, .answer, .can], [0x70], false⟩
  | .cancelSlot _ _ _ _ => ⟨[.free, .answer, .can], [0x70], false⟩
  | .cancelAll _ _ _ => ⟨[.free, .answer, .can], [0x70], false⟩
  | .popRx _ _ => ⟨[.answer, .can], [0x70], false⟩
  | .popTxc _ _ => ⟨[.answer, .can], [0x70], false⟩
  | .recReq _ _ => ⟨[.answer, .can], [], false⟩
  | .canClrOvf _ _ => ⟨[.answer], [0x70], false⟩
  | .canClrCnt _ _ => ⟨[.answer], [0x70], false⟩
  | .arbitrationLost _ _ _ => ⟨[.can], [0x70], false⟩
  | .txComplete _ _ _ => ⟨[.free, .cls, .can], [0x70], false⟩
  | .txError _ _ _ _ _ _ _ => ⟨[.free, .can], [0x70], false⟩
  | .busOffRecovery _ _ => ⟨[.free, .can], [0x70], false⟩
  | .canRxFrame _ _ _ _ => ⟨[.free, .cls, .can], [0x70], false⟩
  | .memPwr _ _ => ⟨[.hv, .boot, .mem, .answer, .red, .trc, .loopReq, .scrub], [0x10, 0x11, 0x40], false⟩
  | .memPwrDone _ _ => ⟨[], [], false⟩
  | .scrub _ _ _ => ⟨[.boot, .red, .scrub], [0x04, 0x40], false⟩
  | .scrubLate _ _ => ⟨[.red], [0x40], false⟩
  | .memClrScrub _ => ⟨[.answer], [], false⟩
  | .memClrEcc _ => ⟨[.answer], [], false⟩
  | .capArm _ _ => ⟨[.hv, .answer, .trc, .loopReq], [0x10, 0x11, 0x40], false⟩
  | .capTrig _ _ => ⟨[.answer], [], false⟩
  | .capStop _ _ => ⟨[.answer], [], false⟩
  | .capDone _ _ => ⟨[], [], false⟩
  | .reactionStop _ => ⟨[.hv, .lv, .aon, .mon, .trc, .dcl, .chg, .loopReq], [0x10, 0x11, 0x30, 0x31, 0x32, 0x33, 0x34, 0x50], false⟩
  | .evcPendClear _ _ _ => ⟨[.answer], [], false⟩
  | .evcClrCnt _ => ⟨[.answer], [], false⟩
  | .monLogClrCnt _ _ => .all
  | .monLogClear _ _ => .all
  | .streamResumed _ => ⟨[.hv, .lv], [], false⟩
  | .ovsRelease _ _ => ⟨[.hv], [], false⟩
  | .snsRestored _ _ _ _ => ⟨[.mon, .smp], [0x13, 0x22, 0x80], false⟩
  | .monConverterFrame _ => ⟨[.mon], [], false⟩
  | .monSelfTestFail => ⟨[.mon], [], false⟩
  | .mpOverload _ _ => ⟨[.boot], [], false⟩
  | .warmRestartDone _ => ⟨[.boot], [], false⟩
  | .imgWriteDone _ => ⟨[.bulkLast], [0x61], false⟩
  | .carrierPeriodStart _ _ => ⟨[.hv, .lv, .sns, .aon, .free, .mon, .mem, .red, .saf, .cls, .trc, .eng, .smp, .dcl, .chg, .act,
      .loopReq], [0x10, 0x11, 0x21, 0x22, 0x30, 0x31, 0x32, 0x33, 0x34, 0x50, 0x51, 0x80], false⟩
  | .cpPwmPeriod _ _ => ⟨[.chg], [0x31, 0x32, 0x33], false⟩
  | .eventFrameReceived _ _ _ _ _ => ⟨[], [], false⟩
  | .linkDelayReply _ _ => ⟨[.ring], [], false⟩
  | .canRxError _ _ _ _ _ => ⟨[.free, .can], [0x70], false⟩
  | .canProtocolException _ _ => ⟨[.can], [0x70], false⟩

end Sys2Proof.Machine
end

