-- ==== Sys2Proof/Certificates/Slice0/Obligations.lean ====
section
/-! DEFINITION. The statements for the provers. A statement of the form `Completes (exec c s) P` says that the command c answers a next
state, and that P holds of that state but for the end common to every command (`State.settle`): the safety reactions that its events
have requested, and the report of the monitor. -/
open Sys2Proof Sys2Proof.Machine

/-- A step runs the command at the front of the queue. For every command and state, a step of the state with the command at the front of its
queue is what exec answers for the command on the state with the rest of the queue. -/
def Obligations.StepTakesTheFrontCommand : Prop :=
  ∀ (s : State) (c : Instr) (rest : List Instr), step { s with pending := c :: rest } = exec c { s with pending := rest }

/-- A step on an empty queue counts the time base. On an empty queue a step answers the same state one 12.5 ns count later. That an idle
step is one count is the model's choice (assumption 2), no rule of the spec. -/
def Obligations.IdleStepCountsTime : Prop :=
  ∀ s : State, s.pending = [] → step s = .next { s with time := s.time + 1 }

/-- The machine at reset is sound. At reset every sparse file is in its canonical form and every queue of the chapters is within its depth. -/
def Obligations.ResetIsSound : Prop := State.reset.Sound

/-- Every step keeps the machine sound. From every sound state, whatever command is in front, a step that answers a next state answers a
sound one: the register, bank and flash files stay canonical, and the journal, the event backlog, the fault log and the CAN queues stay
within their depths. -/
def Obligations.StepKeepsSound : Prop := ∀ s t : State, s.Sound → step s = .next t → t.Sound

/-- Every command completes and changes only what its footprint names. Every command in every state answers a next state, leaves the queue
and the time base alone, and before its end has changed no part of the state and no register outside its footprint, but for what events
change. Its end changes nothing where no safety request is raised, and else only what the safety reactions change. -/
def Obligations.CommandsCompleteWithinTheirFootprints : Prop :=
  ∀ (s : State) (c : Instr),
    Completes (exec c s) (fun u => s.Only (footprint c) u ∧ u.Only settleFoot u.settle ∧
      ((∀ l, (u.lane l).saf.reqSto = false ∧ (u.lane l).saf.reqSs1 = false) → u.settle = u)) ∧
    ∀ t, exec c s = .next t → t.pending = s.pending ∧ t.time = s.time

/-- What reset leaves. At reset each lane boots, its queue and its records are empty, the traction sets are OFF, no loop is closed, and
registers read the reset values of their tables: the feedback, sampling, converter, charger, redundancy, safety and ring pages, and POR
as the reset cause. -/
def Obligations.ResetValues : Prop :=
  State.reset.pending = [] ∧ ∀ l : Lane,
    (State.reset.lane l).boot.phase = .starting ∧ State.reset.inReset l = false ∧ State.reset.sm l = 0 ∧
    State.reset.flag l F.RST_CAUSE_POR = true ∧ State.reset.word l F.CE_LOOP_STAT_CLOSED.addr = 0 ∧
    (State.reset.lane l).shadows = [] ∧ (State.reset.lane l).waiting = [] ∧ (State.reset.lane l).ring.sent = [] ∧
    (∀ k : Fin 4, ((State.reset.lane l).sess[k]).highest = 0) ∧
    (∀ a ∈ [(0x24044, 0x00000001), (0x24068, 0x64192030), (0x28048, 0x830C4202), (0x70050, 0x03840190), (0x70068, 0x3DCCCCCD),
        (0x73050, 0x898F0000), (0x80044, 0x80640064), (0x80048, 0x3F000000), (0x90040, 0x000A0A14), (0x90054, 0x7FFFFFFF),
        (0xA0040, 0x00000003)], State.reset.word l a.1 = BitVec.ofNat 32 a.2) ∧
    ∀ p ∈ [Page.fbk 0, .dcl, .red, .saf, .ring], State.reset.word l (p.base + 0x014) &&& evMask p = evMask p ∧
      State.reset.word l (p.base + 0x018) = 0 ∧ State.reset.word l (p.base + 0x008) = 0

/-- What holds a lane in reset and what releases it. VS_FAILED, NRST_ASSERT, SOFT_RESET and XTAL_FAIL each put their lane into reset, record
their own cause in RST_CAUSE and clear its memories; VS_FAILED of the second rail is a module power-on reset instead. VS_VALID and
LANE_RESET_RELEASE end one cause, and a lane that leaves reset by it starts at this instant. -/
def Obligations.ResetCausesHoldAndReleaseALane : Prop :=
  ∀ (s : State) (l : Lane),
    (s.rail l.other = true → Completes (exec (.vsFailed l) s) fun u =>
      u.inReset l = true ∧ (u.lane l).hold.vs = true ∧ u.rail l = false ∧ u.flag l F.RST_CAUSE_VS = true ∧ (u.lane l).mem = []) ∧
    (s.rail l.other = false → Completes (exec (.vsFailed l) s) fun u =>
      u.mon = {} ∧ ∀ k, u.inReset k = true ∧ (u.lane k).hold.vs = true ∧ (u.lane k).mem = [] ∧ u.flag k F.RST_CAUSE_POR = true) ∧
    (Completes (exec (.nrstAssert l) s) fun u =>
      u.inReset l = true ∧ (u.lane l).hold.pin = true ∧ u.flag l F.RST_CAUSE_PIN = true ∧ (u.lane l).mem = []) ∧
    (s.inReset l = false → Completes (exec (.softReset l) s) fun u =>
      u.inReset l = true ∧ (u.lane l).hold.soft = true ∧ u.flag l F.RST_CAUSE_SOFT = true ∧ (u.lane l).mem = []) ∧
    (Completes (exec (.xtalFail l) s) fun u =>
      u.inReset l = true ∧ (u.lane l).hold.clk = true ∧ u.flag l F.RST_CAUSE_CLK = true ∧ (u.lane l).mem = []) ∧
    (Completes (exec (.vsValid l) s) fun u =>
      u.rail l = true ∧ (u.lane l).hold = { (s.lane l).hold with vs := false } ∧
      (s.inReset l = true → u.inReset l = false → (u.lane l).boot.t0 = s.time ∧ (u.lane l).boot.phase = .starting)) ∧
    ∀ c, Completes (exec (.laneResetRelease l c) s) fun u =>
      (u.lane l).hold = (match c with
        | .pin => { (s.lane l).hold with pin := false }
        | .soft => { (s.lane l).hold with soft := false }
        | .mon => { (s.lane l).hold with mon := false }
        | .clk => { (s.lane l).hold with clk := false }) ∧
      (s.inReset l = true → u.inReset l = false → (u.lane l).boot.t0 = s.time ∧ (u.lane l).boot.phase = .starting)

/-- Module power-on reset and start-up. NPOR_ASSERT resets both lanes and the monitor. NPOR_RELEASE starts every lane that nothing else
holds, and islands that are usable latch the token of Lane A and freewheel. DEVNUM_SAMPLE locks the number that three samples agree on.
FLASH_READ_PASS_DONE and IMAGE_VERIFY take the slot on trial further when its CRC-32, its signature and its law table are good, and
abandon it otherwise; a second failure leaves the lane in boot-hold. -/
def Obligations.ModuleResetAndStartUp : Prop :=
  ∀ (s : State) (l : Lane),
    (Completes (exec .nporAssert s) fun u =>
      u.mon = {} ∧ u.aon.nPor = true ∧ u.aon.devnum = none ∧ u.aon.k = 0 ∧
      ∀ k, u.inReset k = true ∧ (u.lane k).mem = [] ∧ (u.lane k).boot.phase = .starting) ∧
    ((∀ k, ({ s with aon := { s.aon with nPor := false } }).inReset k = false) → Completes (exec .nporRelease s) fun u =>
      u.aon.nPor = false ∧ (∀ k, u.inReset k = false ∧ (u.lane k).boot.t0 = s.time ∧ (u.lane k).boot.phase = .starting) ∧
      ∀ n : Fin 34, s.hv[n].usable = true → u.hv[n].ownerB = false ∧ u.hv[n].mode = some false ∧ u.hv[n].tokenOk = true) ∧
    (s.aon.nPor = false → s.aon.devnum = none → s.aon.unstable = false → s.aon.tmode = false → ∀ a b c low,
      Completes (exec (.devnumSample a b c low) s) fun u =>
        u.aon.devnum = (if a.devnum = b.devnum ∧ b.devnum = c.devnum ∧ low = false then some a.devnum else none) ∧
        u.aon.unstable = u.aon.devnum.isNone ∧ u.aon.tmode = (a.tmode && b.tmode && c.tmode)) ∧
    (s.inReset l = false → (s.lane l).boot.phase = .starting → (s.lane l).boot.readOk = false → (s.lane l).boot.verified = false →
      ∀ r : ImageRead, Completes (exec (.flashReadPassDone l r) s) fun u =>
        if r.crcOk = true ∧ ((s.lane l).boot.slot[(s.lane l).boot.cur]).broken = false then
          (u.lane l).boot.readOk = true ∧ (u.lane l).boot.img = some r ∧
          ((u.lane l).boot.slot[(s.lane l).boot.cur]).version = r.version
        else if (s.lane l).boot.fellBack = true then (u.lane l).boot.phase = .bootHold
        else (u.lane l).boot.fellBack = true ∧ (u.lane l).boot.cur ≠ (s.lane l).boot.cur ∧ (u.lane l).boot.phase = .starting) ∧
    (s.inReset l = false → (s.lane l).boot.phase = .starting → (s.lane l).boot.readOk = true → (s.lane l).boot.verified = false →
      ∀ ok, Completes (exec (.imageVerify l ok) s) fun u =>
        if ok = true ∧ hasTable l ((s.lane l).boot.slot[(s.lane l).boot.cur]).flags = true then
          (u.lane l).boot = { (s.lane l).boot with verified := true }
        else if (s.lane l).boot.fellBack = true then (u.lane l).boot.phase = .bootHold
        else (u.lane l).boot.fellBack = true ∧ (u.lane l).boot.cur ≠ (s.lane l).boot.cur ∧ (u.lane l).boot.readOk = false)

/-- Droop, warm restart, clock windows and the peer's held reset. DROOP_ENTRY shows and counts the droop and, with EN set, halves x.SYS, and
x.CE where the law table carries CE_SLOW_OK; DROOP_RELEASE ends it. WARM_RESTART counts and holds the management processor until
WARM_RESTART_DONE. CLOCK_CHECK_WINDOW shows the monitor's verdict in a running lane when the lanes agree, and resets a lane that the
monitor finds deviant while both lanes run and differ by more than 500 ppm. PEER_RESET and PEER_RESET_STUCK report a peer that is held
in reset. -/
def Obligations.DroopRestartAndClockChecks : Prop :=
  ∀ (s : State) (l : Lane), s.inReset l = false →
    (s.flag l F.PWR_STAT_DROOP = false → Completes (exec (.droopEntry l) s) fun u =>
      u.flag l F.PWR_STAT_DROOP = true ∧ u.fld l F.PWR_STAT_DROOP_CNT = satAdd F.PWR_STAT_DROOP_CNT.w (s.fld l F.PWR_STAT_DROOP_CNT) 1 ∧
      (s.flag l F.PWR_DROOP_CFG_EN = true → u.flag l F.PWR_STAT_SYS_HALF = true ∧
        u.flag l F.PWR_STAT_CE_HALF = (s.flag l F.PWR_STAT_CE_SLOW_OK || s.flag l F.PWR_STAT_CE_HALF)) ∧
      (s.flag l F.PWR_DROOP_CFG_EN = false → u.flag l F.PWR_STAT_SYS_HALF = s.flag l F.PWR_STAT_SYS_HALF)) ∧
    (Completes (exec (.droopRelease l) s) fun u =>
      u.flag l F.PWR_STAT_DROOP = false ∧ u.flag l F.PWR_STAT_SYS_HALF = false ∧ u.present l E.PWR_DROOP = false) ∧
    (Completes (exec (.warmRestart l) s) fun u =>
      (u.lane l).boot.warm = true ∧ u.fld l F.RST_CAUSE_WARM_CNT = satAdd F.RST_CAUSE_WARM_CNT.w (s.fld l F.RST_CAUSE_WARM_CNT) 1) ∧
    (Completes (exec (.warmRestartDone l) s) fun u => (u.lane l).boot = { (s.lane l).boot with warm := false }) ∧
    (∀ w : ClockWindow, w.ppm.natAbs ≤ 500 → w.monFindsA = true → w.monFindsB = true → w.aFindsMon = true → w.bFindsMon = true →
      Completes (exec (.clockCheckWindow w) s) fun u =>
        u.inReset l = false ∧ u.flag l F.CLK_STAT_MON_OK = true ∧ u.flag l F.CLK_STAT_MON_SEES_SELF = true ∧
        u.present l E.CLK_PEER_DEV = false) ∧
    (∀ w : ClockWindow, s.inReset l.other = false → 500 < w.ppm.natAbs → (match l with | .A => w.monFindsA | .B => w.monFindsB) = false → s.mon.alive = true →
      s.mon.clkSuspect = false → Completes (exec (.clockCheckWindow w) s) fun u =>
        u.inReset l = true ∧ (u.lane l).hold.clk = true ∧ u.flag l F.RST_CAUSE_CLK = true) ∧
    (s.inReset l.other = true → (Completes (exec (.peerReset l) s) fun u => u.present l E.RED_PEER_RESET = true) ∧
      Completes (exec (.peerResetStuck l) s) fun u => u.present l E.RED_PEER_RESET_STUCK = true)

/-- Islands become usable, lose their supply, their rails and their streams. An island that becomes usable starts without latched faults and
latches the token state and the mode driven. One that loses its supply, or whose rail falls into undervoltage, has its output off, and
an undervoltage latches the leg fault of every lane out of reset. A lost stream ends the free turn-on of the low side, latches the mode
that the safe-state line carries and turns outputs off; a resumed stream ends it and an autonomous ASC. -/
def Obligations.IslandsComeAndGo : Prop :=
  (∀ (s : State) (n : Fin 34), s.hv[n].usable = false → Completes (exec (.islandUsable (.hv n)) s) fun u =>
    u.hv[n].usable = true ∧ u.hv[n].vpOk = true ∧ u.hv[n].vnOk = true ∧ u.hv[n].scLatch = false ∧ u.hv[n].ovsAct = false ∧
    (s.mon.alive = true → s.aon.nPor = false → u.hv[n].ownerB = (s.token == .B) ∧ u.hv[n].tokenOk = true ∧ u.hv[n].mode = some s.asc)) ∧
  (∀ (s : State) (n : Fin 7), Completes (exec (.islandUsable (.sense n)) s) fun u => u.sns[n].usable = true) ∧
  (∀ s : State, s.lv.usable = false → Completes (exec (.islandUsable .lv) s) fun u =>
    u.lv.usable = true ∧ u.lv.vglOk = true ∧ u.lv.ownerB0 = (s.token == .B) ∧ u.lv.ownerB1 = (s.token == .B)) ∧
  (∀ (s : State) (n : Fin 34), Completes (exec (.islandSupplyLost (.hv n)) s) fun u =>
    u.hv[n].usable = false ∧ u.hv[n].outOn = false ∧ u.hv[n].mode = none ∧ u.hv[n].scLatch = false) ∧
  (∀ (s : State) (n : Fin 7), Completes (exec (.islandSupplyLost (.sense n)) s) fun u => u.sns[n].usable = false) ∧
  (∀ s : State, s.lv.usable = true →
    (Completes (exec (.islandSupplyLost .lv) s) fun u => u.lv.usable = false ∧ ∀ c : Fin 12, u.lv.ch[c].outOn = false) ∧
    Completes (exec .gdlUvlo s) fun u => u.lv.usable = false ∧ u.lv.vglOk = false ∧ ∀ c : Fin 12, u.lv.ch[c].outOn = false) ∧
  (∀ (s : State) (n : Fin 34), s.hv[n].usable = true → Completes (exec (.uvlo n true false) s) fun u =>
    u.hv[n].usable = false ∧ u.hv[n].vpOk = false ∧ u.hv[n].outOn = false ∧
    ∀ l, s.inReset l = false → (u.legBits (legOf n)).testBit l.idx = true) ∧
  (∀ (s : State) (n : Fin 34), (s.hv[n].vpOk && s.hv[n].vnOk) = false → Completes (exec (.uvloRecover n) s) fun u =>
    u.hv[n].usable = true ∧ u.hv[n].vpOk = true ∧ u.hv[n].vnOk = true) ∧
  (∀ (s : State) (n : Fin 34), s.hv[n].usable = true → s.hv[n].lost = false → Completes (exec (.streamLost (.hv n)) s) fun u =>
    u.hv[n].lost = true ∧ u.hv[n].ascFree = false ∧ u.hv[n].mode = (if s.lineOk n then some s.asc else s.hv[n].mode) ∧
    (12 ≤ n.val → u.hv[n].outOn = false)) ∧
  (∀ s : State, s.lv.usable = true → s.lv.lost = false → Completes (exec (.streamLost .lv) s) fun u =>
    u.lv.lost = true ∧ ∀ c : Fin 12, u.lv.ch[c].outOn = false) ∧
  (∀ (s : State) (n : Fin 34), s.hv[n].lost = true → Completes (exec (.streamResumed (.hv n)) s) fun u =>
    u.hv[n].lost = false ∧ u.hv[n].ascFree = false ∧ u.hv[n].ascOvs = false) ∧
  ∀ s : State, Completes (exec (.streamResumed .lv) s) fun u => u.lv.lost = false

/-- The safe-state line, the OVS rule and a held ASC. OVS above its threshold is latched and counted; with the stream lost for 2.0 µs the
low side turns on while its island is usable, unheld and without a latched short circuit. OVS below its release threshold ends the
report and keeps an ASC entered on it; OVS_ASC_RELEASE ends that ASC and applies the mode of the line. A lost safe-state line is
remembered, a gate reported below threshold is noted, and under a held ASC the leg's mask bit is set and its low side turns on. -/
def Obligations.OvervoltageAndSafeStateLine : Prop :=
  (∀ (s : State) (k : Fin 6) (mv : BitVec 16), s.hv[lowChan k].usable = true → s.hv[lowChan k].ovsAct = false →
    s.ovsThr (lowChan k) < mv.toNat → Completes (exec (.ovsOvervoltage k mv) s) fun u =>
      u.hv[lowChan k].ovsAct = true ∧
      u.mfld (F.GDH_CNT_OVS (lowChan k).val) = satAdd 8 (s.mfld (F.GDH_CNT_OVS (lowChan k).val)) 1) ∧
  (∀ (s : State) (k : Fin 6) (mv : BitVec 16), mv.toNat + s.ovsHys (lowChan k) < s.ovsThr (lowChan k) →
    Completes (exec (.ovsRelease k mv) s) fun u =>
      u.hv[lowChan k].ovsAct = false ∧ u.hv[lowChan k].ascOvs = s.hv[lowChan k].ascOvs) ∧
  (∀ (s : State) (k : Fin 6), s.hv[lowChan k].lost = true → Completes (exec (.ovsAscEntry k) s) fun u =>
    u.hv[lowChan k].ascFree = true ∧ u.hv[lowChan k].ascOvs = (s.hv[lowChan k].ascOvs || s.hv[lowChan k].ovsAct) ∧
    (s.hv[lowChan k].usable = true → s.hv[lowChan k].scLatch = false → s.hv[lowChan k].softOff = false →
      s.held (setOf (lowChan k).val) = false → s.hv[lowChan k].ovsAct = true → u.hv[lowChan k].outOn = true)) ∧
  (∀ (s : State) (k : Fin 6), s.hv[lowChan k].ascOvs = true → s.hv[lowChan k].ovsAct = false → s.lineOk (lowChan k) = true →
    Completes (exec (.ovsAscRelease k) s) fun u => u.hv[lowChan k].ascOvs = false ∧ u.hv[lowChan k].mode = some s.asc) ∧
  (∀ (s : State) (n : Fin 12), (s.hv[(⟨n.val, by omega⟩ : Fin 34)]).usable = true → Completes (exec (.safeStateLineLost n) s) fun u =>
    (u.hv[(⟨n.val, by omega⟩ : Fin 34)]).lineLost = true) ∧
  (∀ (s : State) (n : Fin 34), s.hv[n].usable = true → Completes (exec (.gateBelowThreshold n) s) fun u => u.hv[n].gateOff = true) ∧
  ∀ (s : State) (k : Fin 6), let l : Lane := if k.val < 3 then .A else .B
    s.held l = true → s.asc = true → (l = .A → s.mon.freeA = false) → (s.hv[(⟨2 * k.val, by omega⟩ : Fin 34)]).gateOff = true →
    Completes (exec (.holdAscMask k) s) fun u =>
      (u.mon.mask.get l).getLsbD (k.val % 3) = true ∧
      (s.hv[lowChan k].usable = true → s.hv[lowChan k].scLatch = false → s.hv[lowChan k].softOff = false →
        s.hv[lowChan k].lineLost = false → u.hv[lowChan k].outOn = true)

/-- Short circuit, temperature, back-channel and actuator gate protection. A short circuit latches in its island with the output off, is
stamped, counted and shown in EVT_RAW. SOFT_OFF_END ends the soft-off alone. TMP_CONVERSION stores the codes, shows overtemperature
against OT_TH and an open sensor above 4,000, and changes no gate. A silent back-channel takes a set from any state but OFF and SAFE
into SAFE with cause 3. A bootstrap undervoltage turns its high side off and forces a refresh; a shunt overcurrent turns the bridge off
and latches. -/
def Obligations.GateProtection : Prop :=
  (∀ (s : State) (n : Fin 34), s.mon.alive = true → s.hv[n].usable = true → s.hv[n].scLatch = false →
    s.mflag (F.GDH_CFG_SC_EN n.val) = true → Completes (exec (.sc n) s) fun u =>
      u.hv[n].scLatch = true ∧ u.hv[n].softOff = true ∧ u.hv[n].outOn = false ∧ u.mfld (F.GDH_TS_TS n.val) = (s.stamp (s.hvOwner n)).toNat % 2 ^ 32 ∧
      u.mfld (F.GDH_CNT_SC n.val) = satAdd 8 (s.mfld (F.GDH_CNT_SC n.val)) 1 ∧ u.present .A (E.GDH_SC n.val) = true) ∧
  (∀ (s : State) (n : Fin 34), Completes (exec (.softOffEnd n) s) fun u => u = s.modHv n (fun h => { h with softOff := false })) ∧
  (∀ (s : State) (n : Fin 34) (code : BitVec 12) (vp vn : BitVec 16), s.mon.alive = true → s.hv[n].usable = true →
    Completes (exec (.tmpConversion n code vp vn) s) fun u =>
      u.mfld (F.GDH_TMP_CODE n.val) = code.toNat ∧ u.mfld (F.GDH_VSUP_VP n.val) = vp.toNat ∧ u.mfld (F.GDH_VSUP_VN n.val) = vn.toNat ∧
      u.present .A (E.GDH_OT n.val) = decide (s.mfld (F.GDH_OT_OT_TH n.val) ≤ code.toNat) ∧
      u.present .A (E.GDH_TMP_OPEN n.val) = decide (4000 < code.toNat) ∧ u.hv = s.hv) ∧
  (∀ (s : State) (n : Fin 12), s.inReset (setOf n.val) = false → s.sm (setOf n.val) ≠ 0 → s.sm (setOf n.val) ≠ 9 →
    Completes (exec (.islandSilent n) s) fun u =>
      u.sm (setOf n.val) = 9 ∧ u.fld (setOf n.val) F.TRC_SM_STAT_CAUSE = 3 ∧ u.fld (setOf n.val) F.TRC_SM_STAT_PREV = s.sm (setOf n.val)) ∧
  (∀ (s : State) (leg : Fin 6) (mv : BitVec 16), s.lv.usable = true → Completes (exec (.bootUv leg mv) s) fun u =>
    u.mfld (F.GDL_STAT_VBOOT (2 * leg.val)) = mv.toNat ∧ (u.lv.ch[(⟨2 * leg.val, by omega⟩ : Fin 12)]).outOn = false ∧
    (u.lv.ch[(⟨2 * leg.val, by omega⟩ : Fin 12)]).refresh = true) ∧
  ∀ (s : State) (a : Fin 2), s.mon.alive = true → s.lv.usable = true → Completes (exec (.shuntOc a) s) fun u =>
    (if a.val = 0 then u.lv.oc0 else u.lv.oc1) = true ∧ (∀ c ∈ bridgeChans a, u.lv.ch[c].outOn = false) ∧
    u.present .A (E.GDL_OC (6 * a.val)) = true

/-- Interlock, dead time and leg faults. Both channels of a leg requested on, or a dead-time timeout, is counted and noted in that lane's
fabric, and the third such event of a leg within 1 ms latches the lane's leg fault. The fabric releases a waiting on-edge only while the
partner is off, and an island obeys it only where that lane owns it, its stream is sent and received, and nothing latched or held keeps
it off. -/
def Obligations.InterlockAndDeadTime : Prop :=
  (∀ (s : State) (l : Lane) (n : Fin 34), s.inReset l = false → Completes (exec (.shootReq l (.h n)) s) fun u =>
    (∀ p ∈ legPages (legOf n), u.mfld ⟨p + 0x068, 24, 8⟩ = satAdd 8 (s.mfld ⟨p + 0x068, 24, 8⟩) 1) ∧
    (legOf n, s.time) ∈ (u.lane l).legEvents ∧
    (2 ≤ ((s.lane l).legEvents.filter (fun e => e.1 == legOf n && s.time < e.2 + ms 1)).length →
      (u.legBits (legOf n)).testBit l.idx = true)) ∧
  (∀ (s : State) (l : Lane) (n : Fin 12), s.inReset l = false → Completes (exec (.shootReq l (.l n)) s) fun u =>
    (∀ p ∈ legPages (lvLegOf n), u.mfld ⟨p + 0x04C, 8, 8⟩ = satAdd 8 (s.mfld ⟨p + 0x04C, 8, 8⟩) 1) ∧
    (lvLegOf n, s.time) ∈ (u.lane l).legEvents) ∧
  (∀ (s : State) (l : Lane) (n : Fin 34) (ext : Nat), s.inReset l = false → s.hv[partner n].outOn = false →
    Completes (exec (.deadTimeRelease l (.h n) ext) s) fun u =>
      u.mfld (F.GDH_DT_STAT_EXT_LAST n.val) = sat 16 ext ∧
      u.mfld (F.GDH_DT_STAT_EXT_MAX n.val) = max (s.mfld (F.GDH_DT_STAT_EXT_MAX n.val)) (sat 16 ext) ∧
      (u.hv[n].outOn = true ↔ s.hvOwner n = l ∧ s.streams l = true ∧ s.hv[n].usable = true ∧ s.hv[n].scLatch = false ∧
        s.hv[n].softOff = false ∧ s.hv[n].lost = false ∧
        (n.val < 12 → s.held (setOf n.val) = true → s.hv[n].lineLost = true))) ∧
  (∀ (s : State) (l : Lane) (n : Fin 12) (ext : Nat), s.inReset l = false → s.lv.ch[lvPartner n].outOn = false →
    Completes (exec (.deadTimeRelease l (.l n) ext) s) fun u =>
      (u.lv.ch[n].outOn = true ↔ s.lvOwner n = l ∧ s.streams l = true ∧ s.lv.usable = true ∧ s.lv.lost = false ∧
        s.lv.ch[n].heldOff = false ∧ (if n.val < 6 then s.lv.oc0 else s.lv.oc1) = false)) ∧
  (∀ (s : State) (l : Lane) (n : Fin 34), s.inReset l = false → Completes (exec (.dtTimeout (some l) (.h n)) s) fun u =>
    (∀ p ∈ legPages (legOf n), u.mfld ⟨p + 0x068, 16, 8⟩ = satAdd 8 (s.mfld ⟨p + 0x068, 16, 8⟩) 1) ∧
    (legOf n, s.time) ∈ (u.lane l).legEvents ∧
    (((s.lane l).legEvents.filter (fun e => e.1 == legOf n && s.time < e.2 + ms 1)).length < 2 → u.hv[n].outOn = false)) ∧
  ∀ (s : State) (l : Lane) (n : Fin 12), s.inReset l = false → Completes (exec (.dtTimeout (some l) (.l n)) s) fun u =>
    u.lv.ch[n].outOn = false ∧ (lvLegOf n, s.time) ∈ (u.lane l).legEvents

/-- Clears and the self-test of the gate pages. Through a lane that takes the write, for a usable island, each clear of GDH_CLR and GDL_CNT
and the comparator test does its own effect and answers OK under the conditions on owner and disabled function: the short-circuit latch,
the writing lane's leg fault, the dead-time record, the counts, SC_SELF. -/
def Obligations.GateClearsAndTests : Prop :=
  (∀ (s : State) (l : Lane) (n : Fin 34), s.Takes l (0x30070 + n.val * 0x1000) → s.hv[n].usable = true →
    (s.hvOwner n = l → s.fnDisabled n.val = true → s.mon.alive = true → Completes (exec (.gdhClrSc l n) s) fun u =>
      u.hv[n] = { s.hv[n] with scLatch := false } ∧ u.present .A (E.GDH_SC n.val) = false ∧ u.answered l = .ok) ∧
    (s.hvOwner n ≠ l ∨ s.fnDisabled n.val = true → Completes (exec (.gdhClrLeg l n) s) fun u =>
      (u.legBits (legOf n)).testBit l.idx = false ∧
      (u.legBits (legOf n)).testBit l.other.idx = (s.legBits (legOf n)).testBit l.other.idx ∧
      (∀ e ∈ (u.lane l).legEvents, e.1 ≠ legOf n) ∧ u.answered l = .ok) ∧
    (s.hvOwner n = l → Completes (exec (.gdhClrDt l n) s) fun u => u.word .A (0x30064 + n.val * 0x1000) = 0 ∧ u.answered l = .ok) ∧
    (s.hvOwner n = l → Completes (exec (.gdhClrCnt l n) s) fun u => u.word .A (0x3006C + n.val * 0x1000) = 0 ∧
      (∀ p ∈ legPages (legOf n), u.mfld ⟨p + 0x068, 24, 8⟩ = 0 ∧ u.mfld ⟨p + 0x068, 16, 8⟩ = 0) ∧ u.answered l = .ok) ∧
    (s.hvOwner n = l → s.fnDisabled n.val = true → ∀ t, Completes (exec (.scSelfTest l n t) s) fun u =>
      u.hv[n] = { s.hv[n] with scSelf := t } ∧ u.answered l = .ok)) ∧
  ∀ (s : State) (l : Lane) (n : Fin 12), s.Takes l (0x6004C + n.val * 0x1000) → s.lv.usable = true →
    (s.lvOwner n ≠ l ∨ s.lvDisabled n = true → Completes (exec (.gdlClrLeg l n) s) fun u =>
      (u.legBits (lvLegOf n)).testBit l.idx = false ∧ u.answered l = .ok ∧
      (s.lvOwner n = l → n.val = 0 → u.lv.oc0 = false) ∧ (s.lvOwner n = l → n.val = 6 → u.lv.oc1 = false)) ∧
    (s.lvOwner n = l → Completes (exec (.gdlClrCnt l n) s) fun u =>
      u.mfld (F.GDL_CNT_BOOT_UV n.val) = 0 ∧ u.mfld (F.GDL_CNT_CLIP n.val) = 0 ∧ u.mfld (F.GDL_CNT_SHOOT n.val) = 0 ∧ u.answered l = .ok)

/-- Token latches. TOKEN_LATCH latches the token state driven into every usable island of its group, or into one bridge of the LV island,
and TOKEN_PUB of a running lane then tells whether an island names it. TOKEN_MOVED ends a move whose groups all report the new owner. An
invalid token code keeps the latch and clears TOKEN_OK. -/
def Obligations.TokenLatchesAndMoves : Prop :=
  (∀ (s : State) (g : TokenGroup) (b : Fin 2), s.mon.alive = true → Completes (exec (.tokenLatch g b) s) fun u =>
    (∀ n ∈ groupChans g, s.hv[n].usable = true → u.hv[n].ownerB = (s.token == .B) ∧ u.hv[n].tokenOk = true) ∧
    (g = .tg2 → s.lv.usable = true → (if b.val = 0 then u.lv.ownerB0 else u.lv.ownerB1) = (s.token == .B)) ∧
    ∀ l, s.inReset l = false → u.flag l F.RED_STAT_TOKEN_PUB = u.holdsAny l) ∧
  (∀ s : State, s.mon.moveFrom.isSome = true → s.tokenDone = true → Completes (exec .tokenMoved s) fun u =>
    u.mon.moveFrom = none ∧ u.mflag F.MON_RED_STAT_MOVING = false ∧ u.hv = s.hv ∧
    ∀ l, s.inReset l = false → u.flag l F.RED_STAT_HANDOVER = false) ∧
  ∀ (s : State) (g : TokenGroup), Completes (exec (.tokenCodeInvalid g) s) fun u =>
    (∀ n ∈ groupChans g, u.hv[n] = { s.hv[n] with tokenOk := false }) ∧ (g = .tg2 → u.lv = { s.lv with tokenOk := false })

/-- Law table, loops and set-point source. With every loop open and every function disabled, RUN = 0 is accepted and COMMIT starts a table
that passes every check, or records why it fails. LOOP_CLOSE asks for its loops, LOOP_OPEN opens them at once. CE_CLR clears what it
names. A set-point fault and its end show in CE_SP_STAT and EVT_RAW, and the edges of PIN_SP give the measured high time and period. -/
def Obligations.EngineAndSetPointCommands : Prop :=
  ∀ (s : State) (l : Lane),
    (s.Takes l 0x10040 → s.word l F.CE_LOOP_STAT_CLOSED.addr = 0 → s.allDisabled l = true → Completes (exec (.ceStop l) s) fun u =>
      u.flag l F.CE_CTRL_RUN = false ∧ (u.lane l).eng.stop = true ∧ (u.lane l).eng.start = false ∧ u.answered l = .ok) ∧
    (s.Takes l 0x10040 → s.flag l F.CE_CTRL_RUN = false → s.allDisabled l = true → Completes (exec (.commit l) s) fun u =>
      u.fld l F.CE_STAT_FAIL = s.commitFail l ∧ u.flag l F.CE_STAT_TABLE_OK = (s.commitFail l == 0) ∧
      u.flag l F.CE_CTRL_RUN = (s.commitFail l == 0) ∧ (s.commitFail l = 0 → (u.lane l).eng.start = true) ∧
      u.answered l = (if s.commitFail l = 2 then .countErr else .ok)) ∧
    (s.Takes l 0x10050 → ∀ mask, Completes (exec (.loopClose l mask) s) fun u => u.answered l = .ok ∧
      ∀ n : Nat, n < 32 → bit (u.lane l).loopReq n = (bit (s.lane l).loopReq n || (decide (8 ≤ n) && mask.getLsbD (n - 8)))) ∧
    (s.Takes l 0x10054 → ∀ mask, Completes (exec (.loopOpen l mask) s) fun u => u.answered l = .ok ∧
      ∀ n : Nat, n < 32 → u.loopClosed l n = (s.loopClosed l n && !(decide (8 ≤ n) && mask.getLsbD (n - 8)))) ∧
    (s.Takes l 0x1005C →
      (Completes (exec (.ceClrNf l) s) fun u => u.fld l F.CE_NF_LAST_NF_CNT = 0 ∧ u.answered l = .ok ∧
        ∀ n : Fin 16, u.word l (0x12040 + n.val * 4) = 0) ∧
      (Completes (exec (.ceClrOvr l) s) fun u => u.fld l F.CE_STAT_OVR_CNT = 0 ∧ u.fld l F.CE_STAT_OVR_GRP = 0 ∧ u.answered l = .ok) ∧
      Completes (exec (.ceClrMax l) s) fun u => u.fld l F.CE_CYC_FAST_MAX = 0 ∧ u.answered l = .ok) ∧
    (s.inReset l = false → s.fld l F.CE_SP_STAT_SRC_ACT ≠ 0 → s.flag l F.CE_SP_STAT_FAULT = false →
      Completes (exec (.spFault l) s) fun u => u.flag l F.CE_SP_STAT_FAULT = true ∧ u.present l E.CE_SP_FAULT = true) ∧
    (s.inReset l = false → Completes (exec (.spFaultClear l) s) fun u =>
      u.flag l F.CE_SP_STAT_FAULT = false ∧ u.present l E.CE_SP_FAULT = false) ∧
    (s.inReset l = false → (Completes (exec (.pinSpEdge l true) s) fun u => (u.lane l).eng.pinRise = some s.time) ∧
      ∀ t, (s.lane l).eng.pinRise = some t →
        (Completes (exec (.pinSpEdge l false) s) fun u => (u.lane l).eng.pinHigh = s.time - t) ∧
        (s.fld l F.CE_SP_STAT_SRC_ACT = 2 ∨ s.fld l F.CE_SP_STAT_SRC_ACT = 3 → Completes (exec (.pinSpEdge l true) s) fun u =>
          u.fld l F.CE_SP_STAT_RAW = pinValue (s.fld l F.CE_SP_STAT_SRC_ACT) (s.lane l).eng.pinHigh (s.time - t)))

/-- Current exchange, carrier lock, switching rate and the lockstep checker. A complete exchange message replaces the last one. After three
missing messages the lane uses model-estimated decoupling, and after six good ones it returns to the measured one. Losing the lock drops
interleaving and an alignment, and gaining it starts one in Lane B, whose end sets ILV_ACT in every locked lane. An ALT write is stored
and waits; the rate change takes it into effect. VLIM is reported, MISS_CNT cleared, and a lockstep mismatch takes a control-ready lane
into FAILED with cause 2. -/
def Obligations.ExchangeLockAndRate : Prop :=
  ∀ (s : State) (l : Lane), s.inReset l = false →
    (s.linkUp l = true → ∀ w, Completes (exec (.currentExchange l w) s) fun u =>
      (u.lane l).eng = { (s.lane l).eng with exch := w.toList, exchPrev := (s.lane l).eng.exch, gotExch := true }) ∧
    (3 ≤ s.fld l F.TRC_MISS_CONSEC → s.flag l F.TRC_STAT_DEC_MODEL = false → s.present l E.TRC_DEC_MODEL = false →
      Completes (exec (.decModel l) s) fun u =>
        u.flag l F.TRC_STAT_DEC_MODEL = true ∧ (u.lane l).eng.okRun = 0 ∧ u.pended l E.TRC_DEC_MODEL = true) ∧
    (6 ≤ (s.lane l).eng.okRun → s.flag l F.TRC_STAT_DEC_MODEL = true → s.present l E.TRC_DEC_RESTORED = false →
      Completes (exec (.decRestored l) s) fun u => u.flag l F.TRC_STAT_DEC_MODEL = false ∧ u.pended l E.TRC_DEC_RESTORED = true) ∧
    (s.flag l F.CLK_STAT_PEER_LOCK = true → s.present l E.CONJ_LOCK_LOST = false → Completes (exec (.lockLost l) s) fun u =>
      u.flag l F.CLK_STAT_PEER_LOCK = false ∧ u.flag l F.CONJ_STAT_TIME_LOCK = false ∧ u.fld l F.CLK_STAT_PEER_PPM = 0 ∧
      u.flag l F.TRC_STAT_ILV_ACT = false ∧ u.flag l F.TRC_STAT_ALIGNING = false ∧ u.pended l E.CONJ_LOCK_LOST = true) ∧
    (s.flag l F.CLK_STAT_PEER_LOCK = false → s.present l E.CONJ_LOCK = false → Completes (exec (.lock l) s) fun u =>
      u.flag l F.CLK_STAT_PEER_LOCK = true ∧ u.flag l F.CONJ_STAT_TIME_LOCK = true ∧
      u.flag l F.TRC_STAT_ALIGNING = (decide (l = .B) || s.flag l F.TRC_STAT_ALIGNING) ∧ u.pended l E.CONJ_LOCK = true) ∧
    (s.flag .B F.TRC_STAT_ALIGNING = true → Completes (exec .alignmentDone s) fun u => u.flag .B F.TRC_STAT_ALIGNING = false ∧
      (s.flag l F.CLK_STAT_PEER_LOCK = true → u.flag l F.TRC_STAT_ILV_ACT = true)) ∧
    (∀ alt : Bool, s.Takes l 0x20048 → (alt = true → s.fld l F.TRC_PWM_FSW_ALT ≠ 0) →
      s.rateOk l (if alt then s.fld l F.TRC_PWM_FSW_ALT else s.fld l F.TRC_PWM_FSW) (s.flag l F.TRC_SET_UPD) = true →
      Completes (exec (.pwmAltSelect l alt) s) fun u => u.flag l F.TRC_PWM_SEL_ALT = alt ∧ u.answered l = .ok ∧
        (u.lane l).eng.altWait = (if l = .B ∧ s.linkUp .B = true then (s.lane l).eng.altWait else some alt)) ∧
    (∀ alt : Bool, s.flag .B F.TRC_STAT_ALIGNING = false → (s.lane l).eng.altWait = some alt →
      Completes (exec (.pwmRateChange l) s) fun u => u.flag l F.TRC_STAT_ALT_ACT = alt ∧ (u.lane l).eng.altWait = none) ∧
    (s.fld l F.TRC_SET_VLIM_N ≤ (s.lane l).eng.vlimRun → s.present l E.TRC_VLIM = false → Completes (exec (.vlim l) s) fun u =>
      u.pended l E.TRC_VLIM = true) ∧
    (s.Takes l 0x21068 → Completes (exec (.trcClrMiss l) s) fun u => u.fld l F.TRC_MISS_MISS_CNT = 0 ∧ u.answered l = .ok) ∧
    ((s.lane l).boot.phase = .ready → s.failed l = false → Completes (exec (.lockstepMismatch l) s) fun u =>
      u.self l = 3 ∧ u.fld l F.RED_STAT_SELF_CAUSE = 2 ∧ u.flag l F.RED_HEALTH_ALL = false ∧ (u.lane l).red.failSend = 2 ∧
      u.present l E.RED_SELF_FAILED = true)

/-- What each position sensor gives. An encoder edge of one channel moves the count by one in the direction that the encoding gives, and an
illegal change of both moves nothing and counts a glitch. An index latch keeps the count and its time, and the first one makes the
reference. A legal Hall state is taken with its time and an undefined one counted. A resolver update is kept with its time and
amplitude. An SSI frame that may start is stamped, one that may not is an error, and a good frame's position is kept. -/
def Obligations.PositionSensors : Prop :=
  ∀ (s : State) (l : Lane), s.inReset l = false →
    (∀ pa pb : Bool, (pa != (s.lane l).fbk.pa) ≠ (pb != (s.lane l).fbk.pb) → Completes (exec (.encEdge l pa pb) s) fun u =>
      u.word l F.FBK_ENC_CNT_CNT.addr = s.word l F.FBK_ENC_CNT_CNT.addr +
        BitVec.ofInt 32 (if Config.encUp (s.lane l).fbk.pa (s.lane l).fbk.pb pa pb then 1 else -1) ∧
      (u.lane l).fbk.pa = pa ∧ (u.lane l).fbk.pb = pb ∧ (u.lane l).fbk.lastEdge = some s.time) ∧
    (Completes (exec (.encEdge l (!(s.lane l).fbk.pa) (!(s.lane l).fbk.pb)) s) fun u =>
      u.word l F.FBK_ENC_CNT_CNT.addr = s.word l F.FBK_ENC_CNT_CNT.addr ∧ (u.lane l).fbk.pa = !(s.lane l).fbk.pa ∧
      (u.lane l).fbk.glitch = (s.lane l).fbk.glitch + 1 ∧ u.fld l F.FBK_FLT_CNT_GLITCH = satAdd 8 (s.fld l F.FBK_FLT_CNT_GLITCH) 1) ∧
    (s.flag l F.FBK_ENC_CFG_IDX_EN = true → Completes (exec (.indexLatch l) s) fun u =>
      u.word l F.FBK_IDX_CNT_CNT.addr = s.word l F.FBK_ENC_CNT_CNT.addr ∧
      u.word l F.FBK_IDX_TS_LO_TS.addr = (s.stamp l).setWidth 32 ∧
      u.word l F.FBK_IDX_TS_HI_TS.addr = (s.stamp l >>> 32).setWidth 32 ∧
      (u.lane l).fbk.latch = some (s.word l F.FBK_ENC_CNT_CNT.addr) ∧
      ((s.lane l).fbk.latch = none → s.flag l F.FBK_STAT_ENC_REF = false →
        u.word l F.FBK_IDX_REF_REF.addr = s.word l F.FBK_ENC_CNT_CNT.addr ∧ u.flag l F.FBK_STAT_ENC_REF = true)) ∧
    (∀ (h : BitVec 3) (k : Nat), hallSector (s.flag l F.FBK_HALL_CFG_SEQ) h = some k → (s.lane l).fbk.sector = none →
      Completes (exec (.hallEdge l h) s) fun u => (u.lane l).fbk.sector = some k ∧ (u.lane l).fbk.hallAt = some s.time ∧
        (u.lane l).fbk.hallBad = 0) ∧
    (∀ (h : BitVec 3), h = 0 ∨ h = 7 → Completes (exec (.hallEdge l h) s) fun u =>
      (u.lane l).fbk.sector = (s.lane l).fbk.sector ∧ (u.lane l).fbk.hallBad = (s.lane l).fbk.hallBad + 1 ∧
      u.fld l F.FBK_FLT_CNT_HALL = satAdd 8 (s.fld l F.FBK_FLT_CNT_HALL) 1) ∧
    (∀ (angle : BitVec 24) (speed : Word) (amp : BitVec 16) (full : Bool) (err : BitVec 16) (phase : BitVec 8),
      Completes (exec (.resTrackUpdate l angle speed amp full err phase) s) fun u =>
        (u.lane l).fbk.res = some (angle, speed, s.time) ∧
        bits (u.word l F.FBK_RES_STAT_AMP.addr) 16 16 = amp.toNat ∧ bits (u.word l F.FBK_RES_STAT_AMP.addr) 8 8 = phase.toNat) ∧
    ((s.lane l).fbk.ssiBusy = false → (s.lane l).fbk.ssiFree ≤ s.time → Completes (exec (.ssiRequest l false) s) fun u =>
      (u.lane l).fbk.ssiBusy = true ∧ (u.lane l).fbk.ssiBad = (s.lane l).fbk.ssiBad) ∧
    (Completes (exec (.ssiRequest l true) s) fun u =>
      (u.lane l).fbk.ssiBusy = (s.lane l).fbk.ssiBusy ∧ u.fld l F.FBK_FLT_CNT_SSI = satAdd 8 (s.fld l F.FBK_FLT_CNT_SSI) 1) ∧
    ((s.lane l).fbk.ssiBusy = true → ∀ (data : Word) (err par : Bool),
      (s.flag l F.FBK_SSI_CFG_ERRB = false → s.flag l F.FBK_SSI_CFG_PAR = false → s.flag l F.FBK_SSI_CFG_GRAY = false →
        Completes (exec (.ssiFrame l data err par true) s) fun u => (u.lane l).fbk.ssiBusy = false ∧ (u.lane l).fbk.ssiBad = 0 ∧
          (u.lane l).fbk.ssi.head? = some (data.toNat % 2 ^ (s.fld l F.FBK_SSI_CFG_PW_M1 + 1), (s.lane l).fbk.ssiStamp)) ∧
      Completes (exec (.ssiFrame l data err par false) s) fun u => (u.lane l).fbk.ssiBusy = false ∧
        (u.lane l).fbk.ssi = (s.lane l).fbk.ssi ∧ u.fld l F.FBK_FLT_CNT_SSI = satAdd 8 (s.fld l F.FBK_FLT_CNT_SSI) 1)

/-- Faults of position sources, their return and FBK_CLR. A stale source is faulted and, where it is the active one, the angle is not valid.
SPEED_ZERO_TIMEOUT zeroes the speed of the encoder or the Hall sensors. Lasting disagreement of PRIM and SEC faults one of them or both.
A cleared source that was healthy for 100 ms leaves its qualification. FBK_ENC_OFS and the bits of FBK_CLR do what they name. -/
def Obligations.PositionSourcesAndClears : Prop :=
  ∀ (s : State) (l : Lane), s.inReset l = false →
    (∀ x, s.stale l x s.time = true → Completes (exec (.posStale l x) s) fun u => u.srcFaulted l x = true ∧
      (s.fld l F.FBK_STAT_ACT = x.code → u.flag l F.FBK_ANG_VALID = false)) ∧
    (Completes (exec (.speedZeroTimeout l .enc) s) fun u => (u.lane l).fbk.encZero = true) ∧
    (Completes (exec (.speedZeroTimeout l .hall) s) fun u => (u.lane l).fbk.hallZero = true) ∧
    (∀ p q, srcOfCode (s.fld l F.FBK_SEL_PRIM) = some p → srcOfCode (s.fld l F.FBK_SEL_SEC) = some q →
      s.fld l F.FBK_CHK_CFG_POS_N ≤ (s.lane l).fbk.posBad → Completes (exec (.posDisagree l) s) fun u =>
        (u.lane l).fbk.posBad = 0 ∧ (u.srcFaulted l p = true ∨ u.srcFaulted l q = true)) ∧
    (∀ x ok, (s.lane l).fbk.qual.getLsbD x.idx = true → Completes (exec (.sourceReturn l x ok) s) fun u =>
      (u.lane l).fbk.qual.getLsbD x.idx = false ∧ (u.lane l).fbk.below.getLsbD x.idx = !(s.flag l F.FBK_SEL_RETURN_EN && ok)) ∧
    (s.Takes l 0x24058 → ∀ w, Completes (exec (.encOffsetWrite l w) s) fun u =>
      (u.lane l).fbk.ofs = (s.lane l).fbk.ofs + signed 32 w.toNat ∧ (u.lane l).fbk.ofsSeen = true ∧ u.answered l = .ok) ∧
    (s.Takes l 0x2506C →
      (Completes (exec (.fbkClrCnt l) s) fun u => u.word l F.FBK_FLT_CNT_GLITCH.addr = 0 ∧ u.answered l = .ok) ∧
      (Completes (exec (.fbkClrDrift l) s) fun u =>
        u.fld l F.FBK_IDX_ERR_DRIFT = 0 ∧ u.fld l F.FBK_IDX_ERR_LAST_ERR = 0 ∧ u.answered l = .ok) ∧
      (Completes (exec (.fbkClrEncRef l) s) fun u =>
        u.word l F.FBK_IDX_REF_REF.addr = s.word l F.FBK_ENC_CNT_CNT.addr ∧ u.flag l F.FBK_STAT_ENC_REF = true ∧ u.answered l = .ok) ∧
      ∀ x : Src, Completes (exec (.fbkClrFault l x) s) fun u => u.srcFaulted l x = false ∧ u.answered l = .ok ∧
        (s.srcFaulted l x = true → (u.lane l).fbk.qual.getLsbD x.idx = true))

/-- Conversion results and sense streams. The result of a used input is stored with its tag, and that of input 0 with its time. A reference
off its expected code fails the lane's self-test. A stream output is stored, but for those discarded after a change. A stream's clock
changes over while CLK_SEL is automatic; a lost stream is marked in its lane or in the monitor, and SNS_RESTORED ends the loss. DC-link
values that disagree are shown in both running lanes. -/
def Obligations.ConversionsAndSenseStreams : Prop :=
  (∀ (s : State) (l : Lane), s.inReset l = false →
    (∀ (n : Fin 24) (code : BitVec 16) (tag : BitVec 4) (waited edge : Bool), s.flag l (F.SMP_IN_CFG_USED n.val) = true →
      Completes (exec (.conversionResult l (.sar n code tag waited edge)) s) fun u =>
        u.fld l (F.SMP_RAW_CODE n.val) = code.toNat ∧ u.fld l (F.SMP_RAW_TAG n.val) = tag.toNat ∧
        (n.val = 0 → u.word l F.SMP_TS_LO_TS.addr = (s.stamp l).setWidth 32)) ∧
    (∀ (high : Bool) (code : BitVec 16),
      (refOff high code.toNat = true → Completes (exec (.conversionResult l (.reference high code)) s) fun u =>
        u.flag l F.SMP_STAT_REF_OK = false ∧
        ((s.lane l).boot.phase = .ready → s.failed l = false → u.self l = 3 ∧ u.fld l F.RED_STAT_SELF_CAUSE = 5)) ∧
      (refOff high code.toNat = false → Completes (exec (.conversionResult l (.reference high code)) s) fun u =>
        u.flag l F.SMP_STAT_REF_OK = true)) ∧
    (∀ (m : Fin 7) (value : BitVec 16) (tag : BitVec 4), decodes l m.val = true →
      ((s.lane l).smp.skip[m] = 0 → Completes (exec (.conversionResult l (.stream m value tag)) s) fun u =>
        u.fld l (F.SMP_SNS_VALUE m.val) = value.toNat ∧ u.fld l (F.SMP_SNS_TAG m.val) = tag.toNat) ∧
      ((s.lane l).smp.skip[m] ≠ 0 → Completes (exec (.conversionResult l (.stream m value tag)) s) fun u =>
        (u.lane l).smp.skip[m] = (s.lane l).smp.skip[m] - 1 ∧ u.fld l (F.SMP_SNS_VALUE m.val) = s.fld l (F.SMP_SNS_VALUE m.val)) ∧
      (Completes (exec (.snsLost (.lane l) m) s) fun u =>
        u.streamLost l m.val = true ∧ u.flag l (F.SMP_SNS_LOST m.val) = true ∧ (u.lane l).smp.skip[m] = 3) ∧
      ∀ volts : Nat, Completes (exec (.snsRestored (.lane l) m value volts) s) fun u =>
        u.flag l (F.SMP_SNS_LOST m.val) = false ∧ u.fld l (F.SMP_SNS_VALUE m.val) = value.toNat ∧
        u.streamLost l m.val = s.streamLost l m.val ∧ (u.lane l).smp.skip[m] = 0) ∧
    ∀ k : Lane, s.inReset k = false → s.fld k F.SMP_SNSCHK_DIS_N ≤ (s.lane k).smp.dis →
      Completes (exec (.dclDisagree (.lane k)) s) fun u =>
        u.flag l F.SMP_STAT_DCL_DIS = true ∧ u.present l E.SMP_DCL_DISAGREE = true) ∧
  (∀ (s : State) (m : Fin 7) (toB : Bool), 3 ≤ m.val → s.mfld (F.SNS_CFG_CLK_SEL m.val) = 0 → s.sns[m].clkB ≠ toB →
    Completes (exec (.snsClockChangeover m toB) s) fun u => u.sns[m].clkB = toB ∧
      u.mfld (F.SNS_CNT_CHG m.val) = satAdd 16 (s.mfld (F.SNS_CNT_CHG m.val)) 1 ∧
      ∀ l, s.inReset l = false → (u.lane l).smp.skip[m] = 3) ∧
  ∀ (s : State) (k : Fin 2), s.mon.alive = true →
    (Completes (exec (.snsLost .mon ⟨k.val, by omega⟩) s) fun u => u.mon.sst.u[k] = none ∧ u.mon.sst.lost[k] = true) ∧
    (∀ (value : BitVec 16) (volts : Nat), Completes (exec (.snsRestored .mon ⟨k.val, by omega⟩ value volts) s) fun u =>
      u.mon.sst.u[k] = some volts ∧ u.mon.sst.lost[k] = false ∧ u.mflag F.MON_SST_STAT_U_LOST = false) ∧
    (s.present .A E.MON_DCL_DISAGREE = false → Completes (exec (.dclDisagree .mon) s) fun u => u.pended .A E.MON_DCL_DISAGREE = true)

/-- Calibration and SMP_CLR. A calibration starts while the loops that use the masked inputs are open and their gates off. Its end stores
each average within 2,048 codes of mid-scale as the input's offset, leaves the others, and reports the end. SMP_CLR clears counters, the
loss of a stream and the fault of an input. -/
def Obligations.CalibrationAndSensingClears : Prop :=
  ∀ (s : State) (l : Lane),
    (s.Takes l 0x28050 → ∀ mask : BitVec 24, mask.getLsbD 12 = false →
      (∀ n ls cs, mask.getLsbD n = true → inputLoop l n = some (ls, cs) →
        (∀ k ∈ ls, s.loopClosed l k = false) ∧ ∀ c ∈ cs, s.hv[c].outOn = true → s.hvOwner c ≠ l) →
      Completes (exec (.calibrationStart l mask) s) fun u =>
        u.fld l F.SMP_CAL_MASK = mask.toNat ∧ u.flag l F.SMP_STAT_CAL_BUSY = true ∧ u.answered l = .ok) ∧
    (s.inReset l = false → s.flag l F.SMP_STAT_CAL_BUSY = true → s.present l E.SMP_CAL_DONE = false → ∀ avg : Vector (BitVec 16) 24,
      Completes (exec (.calDone l avg) s) fun u => u.flag l F.SMP_STAT_CAL_BUSY = false ∧ u.pended l E.SMP_CAL_DONE = true ∧
        ∀ n : Fin 24, u.fld l (F.SMP_IN_OFS_OFS n.val) =
          if (s.fld l F.SMP_CAL_MASK).testBit n.val = true ∧ 30720 ≤ avg[n].toNat ∧ avg[n].toNat ≤ 34816 then avg[n].toNat
          else s.fld l (F.SMP_IN_OFS_OFS n.val)) ∧
    (s.Takes l 0x28054 →
      (Completes (exec (.smpClrCnt l) s) fun u =>
        u.fld l F.SMP_STAT_SLIP_CNT = 0 ∧ u.word l F.SMP_FRZ_CNT_FRZ.addr = 0 ∧ u.answered l = .ok) ∧
      (∀ m : Fin 7, Completes (exec (.smpClrSns l m) s) fun u => u.streamLost l m.val = false ∧ u.answered l = .ok) ∧
      ∀ n : Fin 24, Completes (exec (.smpClrFlt l n) s) fun u =>
        u.inputFaulted l n.val = false ∧ (u.lane l).smp.rep[n] = 0 ∧ u.answered l = .ok)

/-- The commands of the traction state machine. A write of TRC_SM_CMD that the lane takes runs its command where the state allows it. ENABLE
leads from OFF to READY, START from READY to START, or to ASC_ACQ or CATCH without a position source, STOP from START or RUN to
STOPPING, BRAKE from RUN at speed to BRAKE, RELEASE from BRAKE to START or ASC_ACQ, DISABLE to OFF with the high sides off, and CLEAR
from SAFE to OFF once its cause is gone. In any other state START and STOP are rejected with STATE_ERR and the state stays. -/
def Obligations.TractionCommands : Prop :=
  ∀ (s : State) (l : Lane), s.Takes l 0x22040 → s.smIgnores l = false →
    (s.canEnable l = true → s.geomOk l = true → Completes (exec (.enable l) s) fun u =>
      u.sm l = 1 ∧ u.fld l F.TRC_SM_STAT_PREV = 0 ∧ u.flag l F.TRC_SM_STAT_GEN_SEEN = false ∧ u.answered l = .ok) ∧
    (s.sm l = 1 → Completes (exec (.start l) s) fun u =>
      u.sm l = (if 1 ≤ s.fld l F.FBK_STAT_ACT ∧ s.fld l F.FBK_STAT_ACT ≤ 4 then 5
        else if s.flag l F.TRC_SM_STAT_SS_SEL = true then 4 else 2) ∧
      u.fld l F.TRC_SM_STAT_PREV = 1 ∧ u.answered l = .ok) ∧
    (s.sm l = 5 ∨ s.sm l = 6 → Completes (exec (.stop l) s) fun u =>
      u.sm l = 7 ∧ u.fld l F.TRC_SM_STAT_PREV = s.sm l ∧ u.answered l = .ok) ∧
    (s.sm l = 6 → fLe (s.word l F.TRC_BRAKE_CFG_BRAKE_MIN.addr) (fAbs (s.word l F.FBK_SPEED_SPEED.addr)) = true →
      Completes (exec (.brake l) s) fun u => u.sm l = 8 ∧ u.flag l F.TRC_SM_STAT_BRAKE_MODE = true ∧ (u.lane l).trc.rampIn = 0 ∧
        u.loopClosed l 1 = false ∧ u.loopClosed l 2 = false ∧ u.answered l = .ok) ∧
    (s.sm l = 8 → Completes (exec (.release l) s) fun u =>
      u.sm l = (if s.flag l F.FBK_ANG_VALID = true then 5 else 4) ∧ u.flag l F.TRC_SM_STAT_BRAKE_MODE = false ∧ u.answered l = .ok) ∧
    (s.sm l ≠ 0 → Completes (exec (.disable l) s) fun u => u.sm l = 0 ∧ (u.lane l).trc.rampIn = 0 ∧
      u.loopClosed l 1 = false ∧ u.loopClosed l 2 = false ∧ (∀ n ∈ setChans l, n.val % 2 = 0 → u.hv[n].outOn = false) ∧
      u.answered l = .ok) ∧
    (s.sm l = 9 → s.causeStill l (s.fld l F.TRC_SM_STAT_CAUSE) = false → Completes (exec (.clear l) s) fun u =>
      u.sm l = 0 ∧ u.fld l F.TRC_SM_STAT_PREV = 9 ∧ u.answered l = .ok) ∧
    (s.sm l ≠ 1 → Completes (exec (.start l) s) fun u => u.sm l = s.sm l ∧ u.answered l = .stateErr) ∧
    (s.sm l ≠ 5 → s.sm l ≠ 6 → Completes (exec (.stop l) s) fun u => u.sm l = s.sm l ∧ u.answered l = .stateErr)

/-- The transitions of the traction state machine. CATCH_TIMEOUT, POL_DONE, ACQ_DONE, ACQ_FAIL, START_TO_RUN, STOPPING_DONE, OBS_LOST, STALL
and STALL_RECOVER each lead from the state they belong to into the state that R212 gives, with the SAFE cause, counter or flag that goes
with it. -/
def Obligations.TractionTransitions : Prop :=
  ∀ (s : State) (l : Lane), s.inReset l = false →
    (s.sm l = 2 → Completes (exec (.catchTimeout l) s) fun u =>
      if s.hasHfi l = true then u.sm l = 3 ∧ (s.present l E.TRC_CATCH_DONE = false → u.pended l E.TRC_CATCH_DONE = true)
      else u.sm l = 9 ∧ u.fld l F.TRC_SM_STAT_CAUSE = 8 ∧ (s.present l E.TRC_START_FAIL = false → u.pended l E.TRC_START_FAIL = true)) ∧
    (s.sm l = 3 →
      (Completes (exec (.polDone l .plus) s) fun u => u.sm l = 5) ∧ (Completes (exec (.polDone l .minus) s) fun u => u.sm l = 5) ∧
      ((s.lane l).trc.polPairs < 3 → Completes (exec (.polDone l .neither) s) fun u =>
        u.sm l = 3 ∧ (u.lane l).trc.polPairs = (s.lane l).trc.polPairs + 1) ∧
      (3 ≤ (s.lane l).trc.polPairs → Completes (exec (.polDone l .neither) s) fun u =>
        u.sm l = 9 ∧ u.fld l F.TRC_SM_STAT_CAUSE = 8)) ∧
    (s.sm l = 4 →
      (∀ (angle : BitVec 16) (speed : Word), Completes (exec (.acqDone l angle speed) s) fun u =>
        u.sm l = 5 ∧ u.fld l F.TRC_CATCH_RES_ANGLE = angle.toNat ∧ u.word l F.TRC_CATCH_SPD_SPEED.addr = speed ∧
        u.fld l F.TRC_SM_CNT_ACQ = satAdd F.TRC_SM_CNT_ACQ.w (s.fld l F.TRC_SM_CNT_ACQ) 1) ∧
      Completes (exec (.acqFail l) s) fun u => u.sm l = 9 ∧ u.fld l F.TRC_SM_STAT_CAUSE = 7 ∧
        u.fld l F.TRC_SM_CNT_ACQ_FAIL = satAdd F.TRC_SM_CNT_ACQ_FAIL.w (s.fld l F.TRC_SM_CNT_ACQ_FAIL) 1) ∧
    (s.sm l = 5 → 16 ≤ (s.lane l).trc.startCnt → Completes (exec (.startToRun l) s) fun u => u.sm l = 6) ∧
    (s.sm l = 7 → (s.lane l).trc.rampIn = 0 → Completes (exec (.stoppingDone l) s) fun u =>
      u.sm l = 1 ∧ ((s.lane l).trc.ss1Ramp = true → (u.lane l).saf.rampDone = true)) ∧
    (s.fld l F.FBK_STAT_ACT = 5 → (fLt (fFrac 1 2) (mw (s.lane l).mem (b10Wire 0x085)) = false ∨
        s.fld l F.TRC_OBS_CFG_ORES_N ≤ (s.lane l).trc.oresCnt) → Completes (exec (.obsLost l) s) fun u =>
      u.fld l F.FBK_STAT_ACT = 0 ∧ u.flag l F.FBK_ANG_VALID = false ∧ u.present l E.FBK_NO_SOURCE = true ∧
      u.sm l = (if s.sm l ≠ 6 then s.sm l else if s.flag l F.TRC_SM_CFG_AUTO_RECATCH = false then 9
        else if s.flag l F.TRC_SM_STAT_SS_SEL = true then 4 else 2)) ∧
    (s.sm l = 6 → s.flag l F.TRC_SM_STAT_STALL_DER = false → Completes (exec (.stall l) s) fun u =>
      u.flag l F.TRC_SM_STAT_STALL_DER = true ∧ u.present l E.TRC_STALL = true) ∧
    Completes (exec (.stallRecover l) s) fun u => u.flag l F.TRC_SM_STAT_STALL_DER = false ∧ u.present l E.TRC_STALL = false

/-- The monitor's speed, voltage and safe-state selection. SAFE_STATE_SELECTION takes the newest decodes that are not lost. Above UGEN the
selection is ASC; else it is ASC where a known speed reaches the threshold less the margin, and less the hysteresis too while ASC is
selected. SC_SPEED_TIMEOUT takes the speed under ASC as 0, U_LOST marks the voltage lost once both decodes are, and a pulse of MON_TACH
is timed. -/
def Obligations.SafeStateSelection : Prop :=
  ∀ (s : State), s.mon.alive = true →
    (s.mon.sst.lost[0] = false → s.mon.sst.lost[1] = false → ∀ (v0 v1 : BitVec 16) (u0 u1 : Nat),
      Completes (exec (.safeStateSelection v0 v1 u0 u1) s) fun u =>
        u.mon.sst.u[0] = some u0 ∧ u.mon.sst.u[1] = some u1 ∧ u.mflag F.MON_SST_STAT_U_LOST = false ∧
        u.mflag F.MON_SST_STAT_UGEN_HIT = decide (s.mfld F.MON_SST_CFG2_UGEN < min u0 u1) ∧
        (s.mfld F.MON_SST_CFG2_UGEN < min u0 u1 → u.asc = true) ∧
        (min u0 u1 ≤ s.mfld F.MON_SST_CFG2_UGEN → s.monSpeed.1 = none → s.mon.sst.known = false → u.asc = false) ∧
        ∀ w, min u0 u1 ≤ s.mfld F.MON_SST_CFG2_UGEN → s.monSpeed.1 = some w →
          u.asc = reaches w (min u0 u1) (s.mfld F.MON_SST_CFG_PSI)
            (if s.asc then 100 - s.mfld F.MON_SST_CFG_MARGIN - s.mfld F.MON_SST_CFG_HYST else 100 - s.mfld F.MON_SST_CFG_MARGIN)) ∧
    (Completes (exec .scSpeedTimeout s) fun u => u.mon.sst.sc = some 0) ∧
    (s.mon.sst.lost[0] = true → s.mon.sst.lost[1] = true → Completes (exec .uLost s) fun u =>
      u.mflag F.MON_SST_STAT_U_LOST = true ∧ u.mflag F.MON_SST_STAT_UGEN_HIT = false) ∧
    (s.mfld F.MON_SST_CFG2_TACH_PPR ≠ 0 → Completes (exec .monTachPulse s) fun u =>
      u.mon.sst.tachAt = some s.time ∧ (s.mon.sst.tachAt = none → u.mon.sst.tach = s.mon.sst.tach) ∧
      ∀ t, s.mon.sst.tachAt = some t → t < s.time → u.mon.sst.tach = some (Config.quot
        (2 * piNum * 1000 * s.mfld F.MON_SST_CFG2_PP * 80000000 : Nat)
        (s.mfld F.MON_SST_CFG2_TACH_PPR * (s.time - t) * piDen : Nat)).toNat)

/-- Writes and commands of the DC-link converter. A finite reference written to DCL_VREF is in effect in the lane and, with the link up, in
a ready peer. EN = 1 starts a converter in OFF where the conditions of R269 hold, with the reference preset to the link value, and a
lane whose own islands are not usable is STOPPED; EN = 0 makes a starting or running converter STOPPING. PHASE_CLEAR releases the latch
of an own phase whose cause is gone, and DCL_CLR.CNT zeroes the counters. -/
def Obligations.ConverterWritesAndCommands : Prop :=
  ∀ (s : State) (l : Lane) (q : Option Req),
    (s.Serves l 0x70044 q → ∀ w : Word, fFinite w = true → Completes (exec (.dclWrite l 0x044 w 0xF q) s) fun u =>
      u.word l F.DCL_VREF_VREF.addr = w ∧ (s.linkUp l = true → s.ready l.other = true → u.word l.other F.DCL_VREF_VREF.addr = w) ∧
      u.answered l = (if s.linkUp l = true ∧ s.ready l.other = true then .ok else .notMirrored)) ∧
    (s.Serves l 0x70040 q → s.word l 0x70040 &&& 0x4C = 0 → s.fld l F.DCL_CTRL_TRACK ≤ 2 →
      (s.dclCanEnable l = true → s.fld l F.DCL_STAT_STATE = 0 → Completes (exec (.dclEnable l q) s) fun u =>
        u.flag l F.DCL_CTRL_EN = true ∧ (u.answered l).taken = true ∧
        (s.convUsable l = false → u.fld l F.DCL_STAT_STATE = 4) ∧
        (s.convUsable l = true → u.fld l F.DCL_STAT_STATE = 1 ∧ (u.lane l).loopReq.getLsbD 3 = true ∧
          s.linkValue l = some (u.word l F.DCL_VREF_ACT_VREF_ACT.addr))) ∧
      (s.flag l F.DCL_CTRL_EN = true → s.fld l F.DCL_STAT_STATE = 1 ∨ s.fld l F.DCL_STAT_STATE = 2 →
        Completes (exec (.dclDisable l q) s) fun u =>
          u.flag l F.DCL_CTRL_EN = false ∧ u.fld l F.DCL_STAT_STATE = 3 ∧ (u.lane l).dcl.stopAt = s.time ∧
          (u.answered l).taken = true)) ∧
    (s.Serves l 0x7007C q →
      (∀ m : Fin 4, phaseLane (m.val + 1) = l → s.phaseStopped l (m.val + 1) = true → s.phaseCauseGone l (m.val + 1) = true →
        Completes (exec (.phaseClear l m q) s) fun u => u.phaseStopped l (m.val + 1) = false ∧ (u.answered l).taken = true) ∧
      Completes (exec (.dclClrCnt l q) s) fun u => u.word l F.DCL_CNT_IPK.addr = 0 ∧ (u.answered l).taken = true)

/-- The converter's stop, its shedding and its overvoltage. After the stopping ramp the converter is OFF with its gates off and loop 3 open.
SHED makes the next phase leave in both lanes, SHED_RAMP_DONE ends its leaving and turns it off, and an abort notice restores a lane's
own phases. A lasting overvoltage stops the converter by the fault path, and the charging of a token holder with it. PG_DCL is set once
its conditions have held. -/
def Obligations.ConverterRunsDown : Prop :=
  ∀ (s : State) (l : Lane),
    (s.inReset l = false → s.fld l F.DCL_STAT_STATE = 3 → Completes (exec (.dclStopDone l) s) fun u =>
      u.fld l F.DCL_STAT_STATE = 0 ∧ u.flag l F.DCL_STAT_OV = false ∧ u.loopClosed l 3 = false ∧
      ∀ n ∈ convChans l, u.hv[n].outOn = false) ∧
    (∀ m, s.shedMay = true → (s.lane .A).dcl.leaving = none → s.fld .A F.DCL_SHED_MIN_M1 + 1 < s.activeAll → s.nextToShed = some m →
      Completes (exec .shed s) fun u => ∀ k, s.inReset k = false →
        (u.lane k).dcl.leaving = some m ∧ (u.lane k).dcl.leaveAt = s.time ∧ u.flag k F.DCL_STAT_SHEDDING = true) ∧
    (∀ m, (s.lane .A).dcl.leaving = some m → Completes (exec .shedRampDone s) fun u =>
      ∀ k, s.inReset k = false → (s.lane k).dcl.leaving = some m →
        (u.lane k).dcl.leaving = none ∧ (u.lane k).dcl.shed = (s.lane k).dcl.shed ++ [m] ∧
        u.flag k F.DCL_STAT_SHEDDING = false ∧ (m ∈ ownPhases k → u.phaseActive k m = false) ∧
        u.fld k F.DCL_CNT_SHED = satAdd F.DCL_CNT_SHED.w (s.fld k F.DCL_CNT_SHED) 1) ∧
    (s.inReset l = false → s.linkUp l = true → Completes (exec (.shedAbortNotice l) s) fun u =>
      (u.lane l).dcl.shed = [] ∧ (u.lane l).dcl.leaving = none ∧ u.flag l F.DCL_STAT_SHEDDING = false) ∧
    (s.inReset l = false → s.flag l F.DCL_STAT_OV = true → s.fld l F.DCL_STAT_STATE ≠ 0 → Completes (exec (.ovTimeout l) s) fun u =>
      u.fld l F.DCL_STAT_STATE = 0 ∧ (∀ n ∈ convChans l, u.hv[n].outOn = false) ∧
      (s.present l E.DCL_STOP = false → u.pended l E.DCL_STOP = true) ∧
      (s.holdsAny l = true → s.chgSession l = true → u.fld l F.CHG_STAT_STATE = 9 ∧ u.fld l F.CHG_CAUSE_STOP = 13)) ∧
    (s.pgDclOk = true → Completes (exec .pgDclRelease s) fun u =>
      u.aon.pgDcl = true ∧ (s.aon.pgDcl = false → u.mflag F.MON_PG_DCL_PG_STATE = true))

/-- Pilot circuits, connector verdict and interlock. A control-pilot measurement and a proximity resistance are classified and shown, with
the lane's connector verdict. A measurement without PWM clears the pilot duty and current, and a period's duty joins the average of the
last eight, which gives the pilot current. An error code ends a session of the token holder in FAULT, and an unplugging or a changed
cable by RAMPDOWN. The interlock hold ends with INTERLOCK_RELEASE, and verdicts that differ are reported in both running lanes. -/
def Obligations.ChargerPilots : Prop :=
  (∀ (s : State) (l : Lane), s.inReset l = false → s.flag l F.SAF_CFG_NO_CHG = false →
    (∀ c : CpLevel, Completes (exec (.cpStateChange l c) s) fun u =>
      u.fld l F.CHG_STAT_CP = cpCode c ∧ u.flag l F.CHG_STAT_CONN = (cpCode c != 0 || s.fld l F.CHG_STAT_PP != 0) ∧
      (c.pwm = false → u.fld l F.CHG_STAT_DUTY = 0 ∧ u.fld l F.CHG_ILIM_IPILOT = 0) ∧
      (s.holdsAny l = true → s.chgSession l = true → s.fld l F.CHG_STAT_STATE ≠ 10 →
        (4 ≤ cpCode c → u.fld l F.CHG_STAT_STATE = 9 ∧ u.fld l F.CHG_CAUSE_STOP = 2) ∧
        (cpCode c < 2 → s.fld l F.CHG_STAT_CP = 2 ∨ s.fld l F.CHG_STAT_CP = 3 → s.fld l F.CHG_STAT_STATE < 7 →
          u.fld l F.CHG_STAT_STATE = 7 ∧ u.fld l F.CHG_CAUSE_STOP = 2))) ∧
    (∀ duty, Completes (exec (.cpPwmPeriod l duty) s) fun u =>
      (u.lane l).chg.duty = (duty :: (s.lane l).chg.duty).take 8 ∧
      ∀ d, d = ((u.lane l).chg.duty.foldl (· + ·) 0) / (u.lane l).chg.duty.length → d ≤ 1000 →
        u.fld l F.CHG_STAT_DUTY = d ∧ u.flag l F.CHG_STAT_DIGITAL = (decide (30 ≤ d) && decide (d ≤ 70)) ∧
        u.fld l F.CHG_ILIM_IPILOT = pilotAmps d (s.fld l F.CHG_PLIM_ILIM_HOST) % 2 ^ 16) ∧
    ∀ r, Completes (exec (.ppClassify l r) s) fun u =>
      u.fld l F.CHG_STAT_PP = ppCode r ∧ u.flag l F.CHG_STAT_CONN = (s.fld l F.CHG_STAT_CP != 0 || ppCode r != 0) ∧
      (s.holdsAny l = true → s.chgSession l = true → s.fld l F.CHG_STAT_STATE < 7 → s.fld l F.CHG_STAT_PP ≠ ppCode r →
        u.fld l F.CHG_STAT_STATE = 7 ∧ u.fld l F.CHG_CAUSE_STOP = 4)) ∧
  ∀ (s : State),
    (s.mon.alive = true → s.mon.holdIl = true → (∀ l, (s.lane l).saf.connector = false) →
      Completes (exec .interlockRelease s) fun u => u.mon.holdIl = false) ∧
    ((s.lane .A).saf.connector ≠ (s.lane .B).saf.connector → Completes (exec .interlockDisagree s) fun u =>
      ∀ l, s.inReset l = false → s.present l E.SAF_INTERLOCK = false → u.pended l E.SAF_INTERLOCK = true)

/-- The charging sequence of the token holder. MAINS_PRESENT leads from READY to PRELOAD and PRELOAD_DONE to CLOSE with K4 requested, and K5
in single-phase mode. A read-back is shown at once: in CLOSE K3 follows K4, and with both the charger enters SYNC, or FORM in V2L; in
OPEN K4 follows K3. AFE_LOCK leads to RUN with the cascade of R287, and AFE_CURRENT_ZERO ends RAMPDOWN with both stages off and K3
opened. A read-back that differs from its command ends a session in FAULT. S2 opens after a token move where the new owner has not
renewed it, and PG_AFE and PG_DAB are set once their conditions have held. -/
def Obligations.ChargerSequence : Prop :=
  (∀ (s : State) (l : Lane), s.inReset l = false → s.holdsAny l = true →
    (s.fld l F.CHG_STAT_STATE = 2 → Completes (exec (.mainsPresent l) s) fun u =>
      u.fld l F.CHG_STAT_STATE = 3 ∧ u.fld l F.DAB_STAT_STATE = 1 ∧ (u.lane l).loopReq.getLsbD 5 = true) ∧
    (s.fld l F.CHG_STAT_STATE = 3 → Completes (exec (.preloadDone l) s) fun u =>
      u.fld l F.CHG_STAT_STATE = 4 ∧ (u.mon.chgK.get l).getLsbD 4 = true ∧
      (s.fld l F.AFE_CFG_PHASES = 1 → (u.mon.chgK.get l).getLsbD 5 = true)) ∧
    (∀ (n : Fin 6) (closed : Bool) (k : BitVec 6), k = (if closed = true then s.aon.kfb ||| kBit n.val else s.aon.kfb &&& ~~~(kBit n.val)) →
      Completes (exec (.kfbConfirm n closed) s) fun u => u.aon.kfb = k ∧
        (s.fld l F.CHG_STAT_STATE = 4 → k.getLsbD 4 = true → k.getLsbD 3 = false → (u.mon.chgK.get l).getLsbD 3 = true) ∧
        (s.fld l F.CHG_STAT_STATE = 4 → k.getLsbD 4 = true → k.getLsbD 3 = true →
          (u.lane l).loopReq.getLsbD 4 = true ∧ u.fld l F.CHG_STAT_STATE = (if s.v2l l = true then 10 else 5) ∧
          u.fld l F.AFE_STAT_STATE = (if s.v2l l = true then 5 else 1) ∧ u.fld l F.DAB_STAT_STATE = (if s.v2l l = true then 3 else 2)) ∧
        (s.fld l F.CHG_STAT_STATE = 8 → k.getLsbD 3 = false → k.getLsbD 4 = true → (u.mon.chgK.get l).getLsbD 4 = false)) ∧
    (s.fld l F.CHG_STAT_STATE = 5 → Completes (exec (.afeLock l) s) fun u =>
      u.fld l F.CHG_STAT_STATE = 6 ∧ u.fld l F.AFE_STAT_STATE = 2 ∧ u.fld l F.DAB_STAT_STATE = 3 ∧
      u.flag l F.DCL_CTRL_REG = true ∧ (u.lane l).chg.ibat = s.ibatMeas) ∧
    (s.fld l F.CHG_STAT_STATE = 7 → Completes (exec (.afeCurrentZero l) s) fun u =>
      u.fld l F.AFE_STAT_STATE = 0 ∧ u.fld l F.DAB_STAT_STATE = 0 ∧ u.loopClosed l 4 = false ∧ u.loopClosed l 5 = false ∧
      u.flag l F.DCL_CTRL_REG = false ∧ (u.mon.chgK.get l).getLsbD 3 = false ∧ (∀ n ∈ afeChans ++ dabChans, u.hv[n].outOn = false) ∧
      (s.aon.kfb.getLsbD 3 = true → u.fld l F.CHG_STAT_STATE = 8) ∧
      (s.fld l F.CHG_CAUSE_STOP = 1 ∨ s.fld l F.CHG_CAUSE_STOP = 4 → u.flag l F.CHG_STAT_S2 = false ∧ u.aon.cpS2 = false)) ∧
    (∀ k4 closed : Bool, s.aon.k.getLsbD (if k4 then 4 else 3) ≠ closed → Completes (exec (.kFeedback k4 closed) s) fun u =>
      u.aon.kfb.getLsbD (if k4 then 4 else 3) = closed ∧ u.fld l F.CHG_CNT_KFB = satAdd 8 (s.fld l F.CHG_CNT_KFB) 1 ∧
      (s.chgSession l = true → u.fld l F.CHG_STAT_STATE = 9 ∧ u.fld l F.CHG_CAUSE_STOP = 5))) ∧
  ∀ (s : State),
    (s.flag s.token F.CHG_STAT_S2 = false → Completes (exec .s2HoldTimeout s) fun u => u.aon.cpS2 = false) ∧
    (s.pgAfeOk = true → Completes (exec (.pgChgRelease false) s) fun u => u.aon.pgAfe = true) ∧
    (s.pgDabOk = true → Completes (exec (.pgChgRelease true) s) fun u => u.aon.pgDab = true)

/-- Ride-through, trips, islanding and vehicle-to-load. A dip to a retained voltage of 50 % or more is counted and ridden through, one of 15
% or more makes the AFE cease with its gates off, and a deeper one trips. Each grid disturbance that outlasts its allowance trips with
its own code, and a detected island with cause 7; a trip ends the session by RAMPDOWN. GRID_RESTART leads from OPEN to READY with S2
still closed. A lasting overload of V2L ends in FAULT. -/
def Obligations.ChargerGrid : Prop :=
  ∀ (s : State) (l : Lane), s.inReset l = false → s.holdsAny l = true →
    (∀ r, r < 850 → s.fld l F.CHG_STAT_STATE = 5 ∨ s.fld l F.CHG_STAT_STATE = 6 → Completes (exec (.gridDip l r) s) fun u =>
      (500 ≤ r → u.fld l F.CHG_STAT_STATE = s.fld l F.CHG_STAT_STATE ∧ u.fld l F.AFE_CNT_DIP = satAdd 8 (s.fld l F.AFE_CNT_DIP) 1) ∧
      (150 ≤ r → r < 500 → u.fld l F.CHG_STAT_STATE = s.fld l F.CHG_STAT_STATE ∧ u.fld l F.AFE_STAT_STATE = 3 ∧
        (u.lane l).chg.ibat = 0 ∧ (∀ n ∈ afeChans, u.hv[n].outOn = false) ∧
        u.fld l F.AFE_CNT_CEASE = satAdd 8 (s.fld l F.AFE_CNT_CEASE) 1) ∧
      (150 ≤ r → s.present l E.CHG_GRID_DIP = false → u.pended l E.CHG_GRID_DIP = true) ∧
      (r < 150 → u.fld l F.CHG_STAT_STATE = 7 ∧ u.fld l F.CHG_CAUSE_STOP = 6 ∧ u.fld l F.CHG_CAUSE_TRIP = 1 ∧
        u.fld l F.AFE_CNT_TRIP = satAdd 8 (s.fld l F.AFE_CNT_TRIP) 1)) ∧
    (∀ t : GridTrip, s.v2l l = false →
      s.fld l F.CHG_STAT_STATE = 6 ∨ (3 ≤ s.fld l F.CHG_STAT_STATE ∧ s.fld l F.CHG_STAT_STATE ≤ 6 ∧ t ≠ .unlock ∧ t ≠ .busLow) →
      Completes (exec (.gridTrip l t) s) fun u =>
        u.fld l F.CHG_STAT_STATE = 7 ∧ u.fld l F.CHG_CAUSE_STOP = 6 ∧ u.fld l F.CHG_CAUSE_TRIP = tripCode t) ∧
    (s.fld l F.CHG_STAT_STATE = 8 → s.aon.kfb.getLsbD 3 = false → s.aon.kfb.getLsbD 4 = false → (s.lane l).chg.tripped = true →
      s.fld l F.CHG_STAT_CP = 2 → s.flag l F.CHG_CTRL_EN = true → s.flag l F.CHG_STAT_S2 = true →
      Completes (exec (.gridRestart l) s) fun u => u.fld l F.CHG_STAT_STATE = 2 ∧ (u.lane l).chg.tripped = false) ∧
    (s.fld l F.CHG_STAT_STATE = 6 → s.fld l F.CHG_CTRL_MODE = 2 → fLt (s.lane l).chg.ibat 0 = true → ∀ jump : Bool,
      Completes (exec (.island l jump) s) fun u =>
        u.fld l F.CHG_STAT_STATE = 7 ∧ u.fld l F.CHG_CAUSE_STOP = 7 ∧ u.fld l F.CHG_CAUSE_TRIP = (if jump then 6 else 5)) ∧
    (s.fld l F.CHG_STAT_STATE = 10 → Completes (exec (.v2l l) s) fun u =>
      u.fld l F.CHG_STAT_STATE = 9 ∧ u.fld l F.CHG_CAUSE_STOP = 14)

/-- Clears of the charger's pages. Written through the owner, CHG_CLR.FAULT leaves FAULT for CONNECTED or IDLE once its cause is gone, and
CHG_CLR.CNT, AFE_CLR.CNT and DAB_CLR.CNT zero the counters of their pages. -/
def Obligations.ChargerClears : Prop :=
  ∀ (s : State) (l : Lane) (q : Option Req),
    (s.Serves l 0x73074 q → s.hvOwner 20 = l →
      (s.fld l F.CHG_STAT_STATE = 9 → s.chgCauseGone l = true → Completes (exec (.chgClrFault l q) s) fun u =>
        u.fld l F.CHG_STAT_STATE = (if s.connector = true then 1 else 0) ∧ (u.answered l).taken = true) ∧
      Completes (exec (.chgClrCnt l q) s) fun u =>
        u.word l F.CHG_CNT_KFB.addr = 0 ∧ u.word l F.CHG_CAUSE_STOP.addr = 0 ∧ (u.answered l).taken = true) ∧
    (s.Serves l 0x71060 q → s.hvOwner 20 = l → Completes (exec (.afeClrCnt l q) s) fun u =>
      u.word l F.AFE_CNT_IPK.addr = 0 ∧ (u.answered l).taken = true) ∧
    (s.Serves l 0x72054 q → s.hvOwner 26 = l → Completes (exec (.dabClrCnt l q) s) fun u =>
      u.word l F.DAB_CNT_IPK.addr = 0 ∧ (u.answered l).taken = true)

/-- The commands of an actuator. Through the owner, MOVE with a reference, HOME with a learned travel and LEARN start from IDLE inside the
supply window and ask loop a + 6 to close. STOP brakes a driven actuator with all low sides on, COAST goes to IDLE with the bridge off,
and CLEAR leaves FAULT once its cause is gone. ACTa_CLR.CNT zeroes the counters in the addressed lane, whoever owns the actuator. -/
def Obligations.ActuatorCommands : Prop :=
  ∀ (s : State) (l : Lane) (a : Fin 2) (q : Option Req),
    (s.Serves l (0x74060 + a.val * 0x40) q → s.lvOwner 0 = l →
      (s.fld l (F.ACT_STAT_STATE a.val) = 0 → s.vlvOk l = true → s.enableRefused l = false →
        (s.flag l (F.ACT_STAT_REF a.val) = true → Completes (exec (.actMove l a q) s) fun u =>
          u.fld l (F.ACT_STAT_STATE a.val) = 1 ∧ u.flag l (F.ACT_STAT_DONE a.val) = false ∧
          (u.lane l).loopReq.getLsbD (a.val + 6) = true ∧ (u.answered l).taken = true) ∧
        (s.fld l (F.ACT_END_TRAVEL a.val) ≠ 0 → Completes (exec (.actHome l a q) s) fun u =>
          u.fld l (F.ACT_STAT_STATE a.val) = 2 ∧ (u.lane l).loopReq.getLsbD (a.val + 6) = true ∧ (u.answered l).taken = true) ∧
        Completes (exec (.actLearn l a q) s) fun u =>
          u.fld l (F.ACT_STAT_STATE a.val) = 3 ∧ (u.lane l).loopReq.getLsbD (a.val + 6) = true ∧ (u.answered l).taken = true) ∧
      (s.vlvOk l = true → s.actDriven l a = true → Completes (exec (.actStop l a q) s) fun u =>
        u.fld l (F.ACT_STAT_STATE a.val) = 5 ∧ (u.answered l).taken = true ∧
        ∀ n ∈ bridgeChans a, u.lv.ch[n].outOn = decide (n.val % 2 = 1)) ∧
      (s.fld l (F.ACT_STAT_STATE a.val) ≠ 6 → Completes (exec (.actCoast l a q) s) fun u =>
        u.fld l (F.ACT_STAT_STATE a.val) = 0 ∧ u.loopClosed l (a.val + 6) = false ∧ (u.answered l).taken = true ∧
        ∀ n ∈ bridgeChans a, u.lv.ch[n].outOn = false) ∧
      (s.fld l (F.ACT_STAT_STATE a.val) = 6 → s.actCauseGone l a = true → Completes (exec (.actClear l a q) s) fun u =>
        u.fld l (F.ACT_STAT_STATE a.val) = 0 ∧ u.fld l (F.ACT_STAT_CAUSE a.val) = 0 ∧ (u.answered l).taken = true)) ∧
    (s.Serves l (0x74074 + a.val * 0x40) q → Completes (exec (.actClrCnt l a q) s) fun u =>
      u.word l (F.ACT_CNT_LOCK a.val).addr = 0 ∧ (u.answered l).taken = true)

/-- Steps, ends and faults of an actuator, and the carriers. A Hall step to a neighbouring sector moves the position by one in its
direction, a first sector is taken, and an undefined combination is counted and turns the owner's bridge off. LOCKED_ROTOR ends homing
and moves at an end in BRAKE, learning by its two ends, and a block elsewhere in FAULT. HOLD_T_EXPIRY, MOVE_DONE, MOVE_TIMEOUT and
VLV_OUT_OF_WINDOW have the effect they name. A carrier's period start loads its modulator with the newest duty. -/
def Obligations.ActuatorEvents : Prop :=
  (∀ (s : State) (l : Lane) (a : Fin 2), s.inReset l = false →
    (∀ (h : BitVec 3) (k : Nat), hallSector (s.flag l (F.ACT_CFG_SEQ a.val)) h = some k →
      ((s.lane l).act[a].sector = none → Completes (exec (.actHallStep l a h) s) fun u =>
        (u.lane l).act[a].sector = some k ∧ u.actPos l a = s.actPos l a) ∧
      ∀ j, (s.lane l).act[a].sector = some j →
        (k = (j + 1) % 6 → k ≠ j → Completes (exec (.actHallStep l a h) s) fun u =>
          (u.lane l).act[a].sector = some k ∧ (u.lane l).act[a].stepUp = true ∧ (u.lane l).act[a].stepAt = some s.time ∧
          u.fld l (F.ACT_POS_POS a.val) = toBits 32 (s.actPos l a + 1)) ∧
        (j = (k + 1) % 6 → Completes (exec (.actHallStep l a h) s) fun u =>
          (u.lane l).act[a].sector = some k ∧ (u.lane l).act[a].stepUp = false ∧ (u.lane l).act[a].stepAt = some s.time ∧
          u.fld l (F.ACT_POS_POS a.val) = toBits 32 (s.actPos l a - 1))) ∧
    (∀ h : BitVec 3, hallSector (s.flag l (F.ACT_CFG_SEQ a.val)) h = none → Completes (exec (.actHallStep l a h) s) fun u =>
      6 ≤ u.fld l (F.ACT_STAT_SECTOR a.val) ∧ u.fld l (F.ACT_CNT_HALL a.val) = satAdd 8 (s.fld l (F.ACT_CNT_HALL a.val)) 1 ∧
      (s.actOwner l a = true → ∀ n ∈ bridgeChans a, u.lv.ch[n].outOn = false)) ∧
    (s.actOwner l a = true →
      (s.fld l (F.ACT_STAT_STATE a.val) = 2 → fLt (s.actDuty l a) 0 = true → Completes (exec (.lockedRotor l a) s) fun u =>
        u.flag l (F.ACT_STAT_LOCKED a.val) = true ∧
        if s.actPos l a ≤ s.fld l (F.ACT_MOVE_END_WIN a.val) then
          u.fld l (F.ACT_STAT_STATE a.val) = 5 ∧ u.actPos l a = 0 ∧ u.flag l (F.ACT_STAT_REF a.val) = true
        else u.fld l (F.ACT_STAT_STATE a.val) = 6 ∧ u.fld l (F.ACT_STAT_CAUSE a.val) = 1) ∧
      (s.fld l (F.ACT_STAT_STATE a.val) = 1 → fLt (s.actDuty l a) 0 = false → Completes (exec (.lockedRotor l a) s) fun u =>
        if fLt 0 (s.actDuty l a) = true ∧
            (s.fld l (F.ACT_END_TRAVEL a.val) : Int) - s.fld l (F.ACT_MOVE_END_WIN a.val) ≤ s.actPos l a then
          u.fld l (F.ACT_STAT_STATE a.val) = 5 ∧ u.fld l (F.ACT_POS_POS a.val) = s.fld l (F.ACT_END_TRAVEL a.val)
        else u.fld l (F.ACT_STAT_STATE a.val) = 6 ∧ u.fld l (F.ACT_STAT_CAUSE a.val) = 1) ∧
      (s.fld l (F.ACT_STAT_STATE a.val) = 3 → Completes (exec (.lockedRotor l a) s) fun u =>
        u.fld l (F.ACT_STAT_STATE a.val) = 4 ∧ u.actPos l a = 0) ∧
      (s.fld l (F.ACT_STAT_STATE a.val) = 4 → Completes (exec (.lockedRotor l a) s) fun u =>
        if (s.fld l (F.ACT_TRAVEL_TRAVEL_MIN a.val) : Int) ≤ s.actPos l a ∧ s.actPos l a ≤ s.fld l (F.ACT_TRAVEL_TRAVEL_MAX a.val) then
          u.fld l (F.ACT_STAT_STATE a.val) = 5 ∧ (u.fld l (F.ACT_END_TRAVEL a.val) : Int) = s.actPos l a ∧
          u.flag l (F.ACT_STAT_REF a.val) = true
        else u.fld l (F.ACT_STAT_STATE a.val) = 6 ∧ u.fld l (F.ACT_STAT_CAUSE a.val) = 7 ∧
          u.flag l (F.ACT_STAT_REF a.val) = false) ∧
      (s.fld l (F.ACT_STAT_STATE a.val) = 5 → Completes (exec (.holdTExpiry l a) s) fun u =>
        u.fld l (F.ACT_STAT_STATE a.val) = 0 ∧ u.loopClosed l (a.val + 6) = false ∧ ∀ n ∈ bridgeChans a, u.lv.ch[n].outOn = false) ∧
      (s.fld l (F.ACT_STAT_STATE a.val) = 1 →
        ((s.actPos l a - s.fld l (F.ACT_TGT_TARGET a.val)).natAbs ≤ s.fld l (F.ACT_MOVE_POS_WIN a.val) →
          Completes (exec (.moveDone l a) s) fun u =>
            u.fld l (F.ACT_STAT_STATE a.val) = 5 ∧ u.flag l (F.ACT_STAT_DONE a.val) = true) ∧
        Completes (exec (.moveTimeout l a) s) fun u =>
          u.fld l (F.ACT_STAT_STATE a.val) = 6 ∧ u.fld l (F.ACT_STAT_CAUSE a.val) = 3 ∧
          u.fld l (F.ACT_CNT_TMO a.val) = satAdd 8 (s.fld l (F.ACT_CNT_TMO a.val)) 1)) ∧
    (∀ k : Fin 2, Completes (exec (.carrierPeriodStart l (.phase k)) s) fun u =>
      (u.lane l).eng.loaded[8 + k.val] = (s.lane l).eng.duty.getD (8 + k.val) 0) ∧
    (∀ k : Fin 3, Completes (exec (.carrierPeriodStart l (.leg k)) s) fun u =>
      (u.lane l).eng.loaded[10 + k.val] = (s.lane l).eng.duty.getD (10 + k.val) 0) ∧
    (Completes (exec (.carrierPeriodStart l .dab) s) fun u => (u.lane l).eng.loaded[13] = (s.lane l).eng.duty.getD 13 0) ∧
    ∀ code : BitVec 10, Completes (exec (.carrierPeriodStart l (.bridge a code)) s) fun u =>
      (u.lane l).eng.loaded[14 + a.val] = (s.lane l).eng.duty.getD (14 + a.val) 0 ∧
      u.word l (F.ACT_I_I a.val).addr = fMul (fInt code.toNat) (s.word l (F.ACT_SHUNT_GAIN a.val).addr)) ∧
  ∀ (s : State) (v : BitVec 16), Completes (exec (.vlvOutOfWindow v) s) fun u => ∀ l, s.inReset l = false →
    u.fld l F.ACT_VLV_VLV = v.toNat ∧ u.present l E.ACT_VLV = !(u.vlvOk l) ∧
    u.vlvOk l = (decide (s.fld l F.ACT_VLV_VLV_LO * 100 ≤ v.toNat) && decide (v.toNat ≤ s.fld l F.ACT_VLV_VLV_HI * 100)) ∧
    ∀ a : Fin 2, u.flag l (F.ACT_STAT_VLV_OK a.val) = u.vlvOk l ∧
      (u.vlvOk l = false → s.actOwner l a = true → s.actDriven l a = true →
        u.fld l (F.ACT_STAT_STATE a.val) = 6 ∧ u.fld l (F.ACT_STAT_CAUSE a.val) = 6)

/-- STO by its pins and by request. A low on an STO pin applies STO while the monitor runs: it is shown in every lane that hears it, each
running set goes to SAFE, the converter stops, and the channels of the sets that follow the safe-state line are off. A stopped monitor
does nothing. Pins that differ too long latch DISC, which both pins high after both low clear. A request through a lane is put on its
safety request line, and a running monitor applies it. -/
def Obligations.SafeTorqueOff : Prop :=
  ∀ (s : State),
    (∀ two : Bool, s.mon.alive = true → Completes (exec (.stoPin two) s) fun u =>
      (if two then u.aon.sto2 = false else u.aon.sto1 = false) ∧ u.mon.sto = true ∧
      (s.mon.sto = false → u.mon.safCause = 1 ∧ u.mon.ss1 = false ∧
        (∀ n : Fin 34, n.val < 12 → s.hv[n].lineLost = false → u.hv[n].outOn = false) ∧
        ∀ l, s.inReset l = false → (s.lane l).saf.cmdLost = false →
          u.sm l = (if s.sm l = 0 then 0 else 9) ∧ u.fld l F.DCL_STAT_STATE = 0 ∧ u.fld l F.SAF_STAT_STATE = 2 ∧
          u.present l E.SAF_STO = true)) ∧
    (∀ two : Bool, s.mon.alive = false → Completes (exec (.stoPin two) s) fun u =>
      (if two then u.aon.sto2 = false else u.aon.sto1 = false) ∧ u.mon.sto = s.mon.sto ∧ ∀ l, u.sm l = s.sm l) ∧
    (∀ two : Bool, Completes (exec (.stoPinHigh two) s) fun u =>
      (if two then u.aon.sto2 = true else u.aon.sto1 = true) ∧ u.mon.sto = s.mon.sto ∧
      (s.mon.disc = true → s.mon.discLow = true → (if two then s.aon.sto1 else s.aon.sto2) = true → u.mon.discClear = true)) ∧
    (s.mon.alive = true → s.aon.sto1 ≠ s.aon.sto2 → Completes (exec .stoDisc s) fun u =>
      u.mon.disc = true ∧ u.mon.discClear = false ∧ u.present .A E.MON_STO_DISC = true) ∧
    ∀ l, s.Takes l 0x90074 → Completes (exec (.stoRequest l) s) fun u =>
      (u.lane l).saf.reqSto = true ∧ u.answered l = .ok ∧ (s.mon.alive = true → s.heard l = true → u.settle.mon.sto = true)

/-- SS1, its end in STO, the acknowledgement and the command line. A request for SS1 through a lane starts it, unless STO is applied.
SS1_TIMEOUT, or the reported end of every counted lane's ramp, ends the monitor's SS1 in STO with the SS1's cause, and a lane's own SS1
in its own stop. SAF_CTRL.ACK releases a latched reaction without a cause: alone where one lane alone counts as running, else with its
partner's half; a first half waits. A lane whose command line is lost keeps what it received, and takes up the monitor's state when
valid codes come back. -/
def Obligations.SafeStopOneAndAcknowledgement : Prop :=
  (∀ (s : State) (l : Lane),
    (s.Takes l 0x90074 → Completes (exec (.ss1Request l) s) fun u =>
      (u.lane l).saf.reqSs1 = true ∧ u.answered l = .ok ∧
      (s.mon.alive = true → s.heard l = true → u.settle.mon.ss1 = true ∨ u.settle.mon.sto = true)) ∧
    (s.mon.alive = true → s.mon.ss1 = true → s.mon.sto = false →
      (Completes (exec (.ss1Timeout .mon) s) fun u =>
        u.mon.sto = true ∧ u.mon.ss1 = false ∧ u.mon.safCause = s.mon.safCause) ∧
      (s.counts l = true → (∀ k, s.counts k = true → (s.lane k).saf.rampDone = true) → Completes (exec (.ss1RampDone .mon) s) fun u =>
        u.mon.sto = true ∧ u.mon.ss1 = false ∧ u.mon.safCause = s.mon.safCause)) ∧
    (s.inReset l = false → (s.lane l).red.ownSs1 = true → (s.lane l).red.ownStop = none →
      (Completes (exec (.ss1Timeout (.lane l)) s) fun u =>
        (u.lane l).red.ownStop = some (s.lane l).red.ownCause ∧ u.sm l = (if s.sm l = 0 then 0 else 9) ∧
        u.present l E.SAF_STO = true) ∧
      ((s.lane l).saf.rampDone = true → Completes (exec (.ss1RampDone (.lane l)) s) fun u =>
        (u.lane l).red.ownStop = some (s.lane l).red.ownCause ∧ u.sm l = (if s.sm l = 0 then 0 else 9))) ∧
    (s.inReset l = false →
      (Completes (exec (.commandLineLost l false) s) fun u => (u.lane l).saf.cmdLost = true ∧
        u.fld l F.SAF_STAT_STATE = s.fld l F.SAF_STAT_STATE) ∧
      ((s.lane l).saf.cmdLost = true → s.mon.alive = true → s.mon.safState < 4 → Completes (exec (.commandLineLost l true) s) fun u =>
        (u.lane l).saf.cmdLost = false ∧ u.fld l F.SAF_STAT_STATE = s.mon.safState ∧
        (s.mon.sto = true → u.sm l = (if s.sm l = 0 then 0 else 9))))) ∧
  ∀ (s : State) (l : Lane) (q : Option Req), s.Serves l 0x90074 q → s.monOk l = true → s.mon.alive = true →
    (s.counts l = true → s.counts l.other = false → s.latched = true → s.causePresent = false →
      Completes (exec (.safAck l q) s) fun u => u.mon.sto = false ∧ u.mon.holdTq = ⟨false, false⟩ ∧ u.answered l = .ok) ∧
    (s.counts l.other = true → (s.mon.halves.filter (fun h => h.lane == l)).length < 16 →
      ((∀ h ∈ s.mon.halves, h.lane = l.other → h.addr ≠ 0x90074) → Completes (exec (.safAck l q) s) fun u =>
        u.mon.sto = s.mon.sto ∧ { lane := l, addr := 0x90074, val := 1 } ∈ u.mon.halves ∧ u.answered l = .dualPend) ∧
      ((∀ h ∈ s.mon.halves, h.lane = l.other → h.addr = 0x90074 → h.val = 1) →
        (∃ h ∈ s.mon.halves, h.lane = l.other ∧ h.addr = 0x90074) → s.latched = true → s.causePresent = false →
        Completes (exec (.safAck l q) s) fun u => u.mon.sto = false ∧ u.mon.holdTq = ⟨false, false⟩ ∧
          ∀ h ∈ u.mon.halves, h.addr ≠ 0x90074))

/-- Speed, torque and self-test at the monitor. SPEED_COMPARE shows the source with the largest magnitude, counts disagreement of the lanes
and judges diversity. TORQUE_MONITOR shows the total of the mean ceilings of the sets not held in ASC, clears the means, applies STO
where the total newly exceeds what is allowed, and holds a set above TSET. A converter frame adds three ceilings and checks supplies,
references and temperature. A failed self-test stops the monitor. -/
def Obligations.MonitorSupervision : Prop :=
  ∀ (s : State), s.mon.alive = true →
    (Completes (exec .speedCompare s) fun u =>
      u.mon.spd = rpmWord (worstSpeed s.speedSources) (s.mfld F.MON_SST_CFG2_PP) ∧
      u.mon.diverse = decide (2 ≤ s.speedSources.length) ∧
      (∀ a b, s.hbSpeed .A = some a → s.hbSpeed .B = some b → u.mon.spdCnt =
        if rpmAbove (a - b) (s.safCfg F.SAF_SPD_SPD_TOL * 10) (s.mfld F.MON_SST_CFG2_PP) = true then s.mon.spdCnt + 1 else 0)) ∧
    (s.mon.tqCnt ≠ 0 → ∀ a b total,
      a = fDiv s.mon.tqSum.1 (fInt s.mon.tqCnt) → b = fDiv s.mon.tqSum.2 (fInt s.mon.tqCnt) →
      total = fAdd (if s.heldAsc .A then 0 else a) (if s.heldAsc .B then 0 else b) →
      Completes (exec .torqueMonitor s) fun u =>
        u.mon.tqSum = (0, 0) ∧ u.mon.tqCnt = 0 ∧ u.mon.tqb = total ∧
        (fLt (fInt (min (s.safCfg F.SAF_TQM_TSTAT) s.clsAll.tlim)) total = true → 9 ∉ s.mon.causes → u.mon.sto = true) ∧
        (s.heldAsc .A = false → fLt (fInt (s.safCfg F.SAF_TQM2_TSET)) a = true → u.mon.holdTq.a = true) ∧
        (s.heldAsc .B = false → fLt (fInt (s.safCfg F.SAF_TQM2_TSET)) b = true → u.mon.holdTq.b = true)) ∧
    (∀ f : MonFrame, Completes (exec (.monConverterFrame f) s) fun u =>
      u.mon.tqCnt = s.mon.tqCnt + 3 ∧ u.present .A E.MON_ADC_REF = f.refOff ∧ u.present .A E.MON_TEMP = decide (150 < f.temp) ∧
      (u.present .A E.MON_SUPPLY = false ↔ (4200 ≤ f.vsa ∧ f.vsa ≤ 5500) ∧ (4200 ≤ f.vsb ∧ f.vsb ≤ 5500) ∧
        4200 ≤ f.internal ∧ f.internal ≤ 5500)) ∧
    Completes (exec .monSelfTestFail s) fun u => u.mon.alive = false ∧
      (s.present .A E.MON_SELF_TEST = false → u.pended .A E.MON_SELF_TEST = true)

/-- Contactor read-backs and test pulses. A read-back that differs from its output outside a test is shown and reported. A test pulse that
falls due inverts its output; at its end the output is restored, and the read-back must have shown the pulsed state, and 1 ms later the
restored one. A failure is counted, the second in a row latches K_FAULT for that output, and a pass ends the count. -/
def Obligations.ContactorMonitoring : Prop :=
  ∀ (s : State) (n : Fin 6), s.mon.alive = true →
    (∀ closed : Bool, s.mon.kTest[n].pulse = false → s.mon.kTest[n].check = false → s.aon.k.getLsbD n.val ≠ closed →
      Completes (exec (.safKFeedback n closed) s) fun u => u.aon.kfb.getLsbD n.val = closed ∧
        (s.present .A E.MON_K_FEEDBACK = false → u.pended .A E.MON_K_FEEDBACK = true) ∧
        ∀ l, s.inReset l = false → s.present l E.SAF_K_FEEDBACK = false → u.pended l E.SAF_K_FEEDBACK = true) ∧
    (s.aon.nPor = false → bit (BitVec.ofNat 32 (s.safCfg F.SAF_K_CFG_TEST_EN)) n.val = true → s.mon.kTest[n].pulse = false →
      s.mon.kTest[n].check = false → (∀ d, s.mon.kTest[n].lastDemand = some d → d + ms 10 ≤ s.time) →
      Completes (exec (.kTest n) s) fun u => u.aon.k = s.aon.k ^^^ kBit n.val ∧
        u.mon.kTest[n] = { s.mon.kTest[n] with pulse := true }) ∧
    (∀ closed : Bool, s.mon.kTest[n].pulse = true → Completes (exec (.kTestCheck n closed) s) fun u =>
      u.aon.k = s.aon.k ^^^ kBit n.val ∧
      if s.aon.k.getLsbD n.val = closed then u.mon.kTest[n] = { s.mon.kTest[n] with pulse := false, check := true }
      else u.mon.kTest[n] = { s.mon.kTest[n] with pulse := false, check := false, fails := s.mon.kTest[n].fails + 1 } ∧
        (1 ≤ s.mon.kTest[n].fails → u.mon.kFault.getLsbD n.val = true)) ∧
    ∀ closed : Bool, s.mon.kTest[n].pulse = false → s.mon.kTest[n].check = true → Completes (exec (.kTestCheck n closed) s) fun u =>
      u.aon.k = s.aon.k ∧
      if s.aon.k.getLsbD n.val = closed then u.mon.kTest[n] = { s.mon.kTest[n] with check := false, fails := 0 }
      else u.mon.kTest[n] = { s.mon.kTest[n] with check := false, fails := s.mon.kTest[n].fails + 1 } ∧
        (1 ≤ s.mon.kTest[n].fails → u.mon.kFault.getLsbD n.val = true)

/-- A CLAUSE telegram received, the watchdog and lane differences. A telegram that has come is taken once. One with a bad CRC, a wrong
identity or a number outside the window is counted and not accepted, and a repetition is counted. An accepted one sets the number and
the watchdog and makes the connection run; its data are in effect from the second one on. An expired watchdog ends the connection and
asks for SS1. A lasting difference between the lanes is reported in both. -/
def Obligations.ClauseTelegramsReceived : Prop :=
  (∀ (s : State) (l : Lane) (n : Fin 8) (t : List Byte), s.ready l = true → s.flag l (F.CLS_CFG_EN n.val) = true →
    s.flag l (F.CLS_CFG_DIR n.val) = false → (s.lane l).cls[n].tel = some t →
    ∀ len good seq, len = s.clsLen l n → seq = bytesNat ((t.drop 1).take 2) →
      good = decide ((clsCrc (wordBytes (s.clsIdent l n) ++ t.take (5 + len))).toNat = bytesNat ((t.drop (5 + len)).take 4)) →
      (9 + len ≤ t.length → good = false → Completes (exec (.clauseReceive l n) s) fun u => (u.lane l).cls[n].tel = none ∧
        u.fld l (F.CLS_STAT_CRC n.val) = satAdd 8 (s.fld l (F.CLS_STAT_CRC n.val)) 1 ∧
        u.fld l (F.CLS_STAT_SEQ n.val) = s.fld l (F.CLS_STAT_SEQ n.val)) ∧
      (9 + len ≤ t.length → good = true →
        (bytesNat (t.take 1) ≠ s.fld l (F.CLS_CFG_SID n.val) → Completes (exec (.clauseReceive l n) s) fun u =>
          (u.lane l).cls[n].tel = none ∧ u.fld l (F.CLS_CNT_SIDERR n.val) = satAdd 8 (s.fld l (F.CLS_CNT_SIDERR n.val)) 1 ∧
          u.fld l (F.CLS_STAT_SEQ n.val) = s.fld l (F.CLS_STAT_SEQ n.val)) ∧
        (bytesNat (t.take 1) = s.fld l (F.CLS_CFG_SID n.val) →
          ∀ d, d = (seq + 65536 - s.fld l (F.CLS_STAT_SEQ n.val)) % 65536 →
          (s.fld l (F.CLS_STAT_STATE n.val) ≤ 1 ∨ (1 ≤ d ∧ d ≤ s.fld l (F.CLS_CFG_SEQ_WIN n.val)) →
            Completes (exec (.clauseReceive l n) s) fun u =>
              (u.lane l).cls[n].tel = none ∧ u.fld l (F.CLS_STAT_SEQ n.val) = seq ∧ u.fld l (F.CLS_STAT_STATE n.val) = 2 ∧
              (u.lane l).cls[n].accepted = (s.lane l).cls[n].accepted + 1 ∧
              (u.lane l).cls[n].wdog = s.time + us (10 * min (bytesNat ((t.drop 3).take 2)) (s.fld l (F.CLS_WD_WD_MAX n.val)) +
                100 * s.fld l (F.CLS_CFG_GRACE n.val)) ∧
              (1 ≤ (s.lane l).cls[n].accepted → (u.lane l).cls[n].data = BitVec.ofNat 32 (bytesNat ((t.drop 5).take 4)))) ∧
          (2 ≤ s.fld l (F.CLS_STAT_STATE n.val) → d = 0 → Completes (exec (.clauseReceive l n) s) fun u =>
            u.fld l (F.CLS_CNT_REPEAT n.val) = satAdd 8 (s.fld l (F.CLS_CNT_REPEAT n.val)) 1 ∧
            (u.lane l).cls[n].accepted = (s.lane l).cls[n].accepted) ∧
          (2 ≤ s.fld l (F.CLS_STAT_STATE n.val) → s.fld l (F.CLS_CFG_SEQ_WIN n.val) < d → d ≠ 0 →
            Completes (exec (.clauseReceive l n) s) fun u =>
              u.fld l (F.CLS_CNT_SEQERR n.val) = satAdd 8 (s.fld l (F.CLS_CNT_SEQERR n.val)) 1 ∧
              (u.lane l).cls[n].accepted = (s.lane l).cls[n].accepted)))) ∧
  (∀ (s : State) (l : Lane) (n : Fin 8), s.ready l = true → s.flag l (F.CLS_CFG_EN n.val) = true →
    s.flag l (F.CLS_CFG_DIR n.val) = false → s.fld l (F.CLS_STAT_STATE n.val) = 2 → (s.lane l).cls[n].wdog ≤ s.time →
    Completes (exec (.wdog l n) s) fun u => u.fld l (F.CLS_STAT_STATE n.val) = 3 ∧ (u.lane l).cls[n].gone = true ∧
      u.fld l (F.CLS_CNT_EXPIRE n.val) = satAdd 8 (s.fld l (F.CLS_CNT_EXPIRE n.val)) 1 ∧
      (s.mon.alive = true → s.heard l = true → s.alone l = false → u.mon.ss1 = true ∨ u.mon.sto = true)) ∧
  ∀ (s : State), s.heard .A = true → s.heard .B = true → s.clsLane .A ≠ s.clsLane .B → Completes (exec .laneDiff s) fun u =>
    ∀ l, s.present l E.CLS_LANE_DIFF = false → u.pended l E.CLS_LANE_DIFF = true

/-- A CLAUSE status telegram sent. A transmit connection of its named lane sends its service identifier, the next number, the watchdog time
and its status data, followed by the CRC over its identity and all of these. -/
def Obligations.ClauseTelegramsSent : Prop :=
  ∀ (s : State) (l : Lane) (n : Fin 8), s.ready l = true → s.failed l = false → s.flag l (F.CLS_CFG_EN n.val) = true →
    s.flag l (F.CLS_CFG_DIR n.val) = true → s.flag l (F.CLS_CFG_LANE n.val) = (l == .B) →
    Completes (exec (.clauseTransmit l n) s) fun u =>
      (u.lane l).cls[n].sent = (s.lane l).cls[n].sent + 1 ∧ (u.lane l).cls[n].took = false ∧
      u.fld l (F.CLS_STAT_SEQ n.val) = ((s.lane l).cls[n].sent + 1).toNat ∧
      ∃ data : List Byte, data.take (min 8 (s.clsLen l n)) = (s.statusData l).take (s.clsLen l n) ∧
        ∀ body, body = natBytes 1 (s.fld l (F.CLS_CFG_SID n.val)) ++ natBytes 2 ((s.lane l).cls[n].sent + 1).toNat ++
          natBytes 2 (s.fld l (F.CLS_WD_WD_MAX n.val)) ++ data →
        (u.lane l).cls[n].tx = body ++ wordBytes (clsCrc (wordBytes (s.clsIdent l n) ++ body))

/-- State copies, heartbeats and their windows. A good copy with the next counter is taken, with its age reset; another one counts as
invalid. A new direct heartbeat is noted in the lane and shown as the peer's state, one at the monitor ends the missing count there, and
FAIL declares its lane failed; a relayed one is noted. At the end of a lane's window the missing heartbeats of both paths are counted:
three direct ones take the link down, and three on both paths make a split. The monitor counts likewise, and declares a lane that its
peer does not see either. -/
def Obligations.CopiesAndHeartbeats : Prop :=
  (∀ (s : State) (l : Lane), s.ready l = true →
    (s.linkUp l = true → ∀ (c : StateCopy) (ok : Bool),
      (ok = true → c.valid = true → (∀ n, (s.lane l).red.rxCnt = some n → c.counter = n + 1) →
        Completes (exec (.stateCopy l c ok) s) fun u => (u.lane l).red.copy = some c ∧
          (u.lane l).red.copiesOk = (s.lane l).red.copiesOk + 1 ∧ u.flag l F.CONJ_STAT_COPY_VALID = true ∧
          u.fld l F.CONJ_AGE_AGE = 0 ∧ u.fld l F.CONJ_AGE_COPY_SEQ = c.counter.toNat % 65536) ∧
      (ok = false ∨ c.valid = false → Completes (exec (.stateCopy l c ok) s) fun u =>
        (u.lane l).red.copy = (s.lane l).red.copy ∧ (u.lane l).red.copiesOk = 0 ∧
        u.fld l F.CONJ_CNT_COPY_INV = satAdd 8 (s.fld l F.CONJ_CNT_COPY_INV) 1)) ∧
    (∀ h : Heartbeat,
      ((∀ p, (s.lane l).red.hbDirect = some p → p.counter ≠ h.counter) → Completes (exec (.heartbeat (.direct l) h true) s) fun u =>
        (u.lane l).red.hbDirect = some h ∧ (u.lane l).red.gotDirect = true ∧ (u.lane l).red.hbTime = s.time ∧
        ((s.lane l).red.peerFailed = false → u.fld l F.RED_STAT_PEER = peerCode h.state.toNat)) ∧
      (Completes (exec (.heartbeat (.direct l) h false) s) fun u =>
        (u.lane l).red.gotDirect = (s.lane l).red.gotDirect ∧ u.fld l F.CONJ_CNT_CRC = satAdd F.CONJ_CNT_CRC.w (s.fld l F.CONJ_CNT_CRC) 1) ∧
      Completes (exec (.heartbeat (.relayed l) h true) s) fun u => (u.lane l).red.hbRelay = some h) ∧
    (s.mon.alive = true → Completes (exec (.relayFrame l) s) fun u =>
      (u.lane l).red.gotRelay = true ∧ (u.lane l).red.missRelay = 0 ∧ u.monOk l = true) ∧
    Completes (exec (.heartbeatWindow (.lane l) l) s) fun u =>
      (u.lane l).red.missDirect = (if (s.lane l).red.gotDirect = true ∨ (s.lane l).red.hbDirect = none then 0
        else (s.lane l).red.missDirect + 1) ∧
      (u.lane l).red.missRelay = (if (s.lane l).red.gotRelay then 0 else (s.lane l).red.missRelay + 1) ∧
      (u.lane l).red.gotDirect = false ∧ (u.lane l).red.gotRelay = false ∧
      (3 ≤ (u.lane l).red.missDirect → u.linkUp l = false) ∧
      (3 ≤ (u.lane l).red.missDirect → 3 ≤ (u.lane l).red.missRelay → u.flag l F.RED_STAT_SPLIT = true) ∧
      (3 ≤ (u.lane l).red.missRelay → u.monOk l = false)) ∧
  ∀ (s : State) (x : Lane), s.mon.alive = true →
    (∀ h : Heartbeat, (∀ p t, s.mon.hb.get x = some (p, t) → p.counter ≠ h.counter) →
      Completes (exec (.heartbeat (.toMon x) h true) s) fun u =>
        u.mon.hb.get x = some (h, s.time) ∧ u.mon.missHb.get x = 0 ∧ (h.fail = true → u.declared x = true)) ∧
    (s.declared x = false → (s.mon.hb.get x).isSome = true → Completes (exec (.heartbeatWindow .mon x) s) fun u =>
      u.mon.missHb.get x = s.mon.missHb.get x + 1 ∧
      (2 ≤ s.mon.missHb.get x → s.mon.missHb.get x.other < 3 → (s.mon.hb.get x.other).isSome = true →
        s.mon.peerBlind.get x = true → u.declared x = true))

/-- Control-ready, the link, the journal and the return of a lane. CONTROL_READY makes a verified lane ready, running or resynchronising,
and leaves one lane timing master. Training is recorded, and LINK_UP ends the island mode of a trained link. A mirrored write enters the
journal once, or its number alone where it is marked applied. A split that times out starts SS1 on the lane's own set. A resynchronised
lane runs again and takes back its set or waits held, and RETURN_DONE ends its return. -/
def Obligations.LinkSplitAndReturn : Prop :=
  ∀ (s : State) (l : Lane), s.inReset l = false →
    ((s.lane l).boot.phase = .starting → (s.lane l).boot.verified = true → (s.lane l).boot.img.isSome = true →
      Completes (exec (.controlReady l) s) fun u => (u.lane l).boot.phase = .ready ∧ (u.self l = 1 ∨ u.self l = 2) ∧
        (u.lane l).red.master ≠ (u.lane l.other).red.master) ∧
    (s.linkUp l = false →
      (∀ ok : Bool, Completes (exec (.linkRetrain l ok) s) fun u => u.flag l F.CONJ_STAT_TRAINED = ok ∧ u.linkUp l = false) ∧
      (s.flag l F.CONJ_STAT_TRAINED = true → Completes (exec (.linkUp l) s) fun u =>
        u.linkUp l = true ∧ u.flag l F.RED_STAT_CONJ_OK = true ∧ u.flag l F.RED_STAT_ISLAND_MODE = false ∧
        u.present l E.CONJ_LINK_DOWN = false)) ∧
    (s.ready l = true → s.linkUp l = true → ∀ e : JEntry,
      (e.applied = true → isNewer e.seq ((s.lane l).sess[e.sess]).highest = true → Completes (exec (.journalEntry l e) s) fun u =>
        ((u.lane l).sess[e.sess]).highest = e.seq ∧ (u.lane l).red.journal = (s.lane l).red.journal) ∧
      (e.applied = false → (s.lane l).red.journal.length < 1024 →
        (∀ x ∈ (s.lane l).red.journal, x.sess = e.sess → x.seq ≠ e.seq) → Completes (exec (.journalEntry l e) s) fun u =>
          (u.lane l).red.journal = (s.lane l).red.journal ++ [e] ∧ u.fld l F.RED_JRNL_FILL = (s.lane l).red.journal.length + 1)) ∧
    (s.flag l F.RED_STAT_SPLIT = true → s.fld l F.RED_CFG_SPLIT_TOL ≠ 0 → Completes (exec (.splitTimeout l) s) fun u =>
      u.fld l F.RED_SPLIT_LEFT_LEFT = 0 ∧ ((u.lane l).red.ownSs1 = true ∨ (u.lane l).red.ownStop.isSome = true)) ∧
    (s.ready l = true → s.resynced l = true → Completes (exec (.peerReturn l) s) fun u =>
      u.self l = 2 ∧ (s.mon.alive = true → u.mon.counted.get l = true) ∧
      if s.flag l F.RED_CFG_RETURN_EN = true then (u.lane l).red.rejoin = true else u.flag l F.RED_STAT_HELD = true) ∧
    (s.flag l F.RED_STAT_RETURNING = true → (s.lane l).red.ramp = none → Completes (exec (.returnDone l) s) fun u =>
      u.flag l F.RED_STAT_RETURNING = false)

/-- Commands and writes of the RED and CONJ pages. A share written to RED_SHARE is in effect in both lanes with the link up, and rejected
with STATE_ERR without it. CONTINUE restarts the split timer and SS1 starts one in a split, REJOIN takes back the set of a held lane,
and TOKEN_MOVE is asked of the monitor where its conditions hold; each is rejected with STATE_ERR elsewhere. TOKEN_MOVE_EXECUTE moves
the token once both lanes report the same numbers, or drops the move. RETEST starts where the failure's cause allows it, and ends in
FAILED or in a start. The clears zero their counters. -/
def Obligations.RedundancyCommands : Prop :=
  (∀ (s : State) (l : Lane) (q : Option Req) (w : Word), s.Serves l 0x80048 q → fFinite w = true → fLt w 0 = false →
    fLt fOne w = false →
    (s.linkUp l = true → s.ready l.other = true → Completes (exec (.redWrite l 0x048 w 0xF q) s) fun u =>
      u.word l F.RED_SHARE_SHARE_A.addr = w ∧ u.word l.other F.RED_SHARE_SHARE_A.addr = w ∧ u.answered l = .ok) ∧
    (s.linkUp l = false → Completes (exec (.redWrite l 0x048 w 0xF q) s) fun u =>
      u.word l F.RED_SHARE_SHARE_A.addr = s.word l F.RED_SHARE_SHARE_A.addr ∧ u.answered l = .stateErr)) ∧
  (∀ (s : State) (l : Lane), s.Takes l 0x80040 →
    (s.flag l F.RED_STAT_SPLIT = true →
      (Completes (exec (.splitContinue l) s) fun u => (u.lane l).red.splitAt = s.time ∧ u.answered l = .ok ∧
        u.fld l F.RED_SPLIT_LEFT_LEFT = (if s.fld l F.RED_CFG_SPLIT_TOL = 0 then 0xFFFF else s.fld l F.RED_CFG_SPLIT_TOL)) ∧
      (Completes (exec (.splitSs1 l) s) fun u =>
        ((u.lane l).red.ownSs1 = true ∨ (u.lane l).red.ownStop.isSome = true) ∧ u.answered l = .ok)) ∧
    (s.flag l F.RED_STAT_SPLIT = false →
      (Completes (exec (.splitContinue l) s) fun u => u.answered l = .stateErr) ∧
      (Completes (exec (.splitSs1 l) s) fun u => u.answered l = .stateErr ∧ (u.lane l).red = (s.lane l).red)) ∧
    (s.flag l F.RED_STAT_HELD = true → Completes (exec (.rejoin l) s) fun u =>
      u.flag l F.RED_STAT_HELD = false ∧ (u.lane l).red.rejoin = true ∧ u.answered l = .ok) ∧
    (s.flag l F.RED_STAT_HELD = false → Completes (exec (.rejoin l) s) fun u => u.answered l = .stateErr) ∧
    (s.moveOk = true → Completes (exec (.tokenMove l) s) fun u =>
      u.mon.moveReq = some s.token.other ∧ u.token = s.token ∧ u.answered l = .ok) ∧
    (s.moveOk = false → Completes (exec (.tokenMove l) s) fun u =>
      u.mon.moveReq = s.mon.moveReq ∧ u.answered l = .stateErr)) ∧
  (∀ (s : State) (y : Lane), s.mon.alive = true → s.mon.moveReq = some y →
    (s.moveOk = true → s.mflag F.MON_RED_STAT_ISOLATED = false →
      (∀ k : Fin 4, ((s.lane .A).sess[k]).highest = ((s.lane .B).sess[k]).highest) → Completes (exec .tokenMoveExecute s) fun u =>
        u.token = y ∧ u.mon.moveReq = none ∧ (s.token ≠ y → u.mflag F.MON_RED_STAT_MOVING = true)) ∧
    (s.moveOk = false → Completes (exec .tokenMoveExecute s) fun u => u.token = s.token ∧ u.mon.moveReq = none)) ∧
  ∀ (s : State) (l : Lane),
    (s.inReset l = false → s.turnAway l 0x80040 true true = none → s.failed l = true →
      s.fld l F.RED_STAT_SELF_CAUSE ∈ [3, 4, 5, 7, 8] → Completes (exec (.retest l) s) fun u =>
        u.self l = 4 ∧ (u.lane l).red.retest = true ∧ u.answered l = .ok) ∧
    (s.ready l = true → s.self l = 4 →
      (Completes (exec (.retestDone l false) s) fun u => u.self l = 3 ∧ (u.lane l).red.retest = false) ∧
      (Completes (exec (.retestDone l true) s) fun u => u.self l = 1 ∨ u.self l = 2)) ∧
    (s.Takes l 0x80088 →
      (Completes (exec (.redClrJrnl l) s) fun u => u.fld l F.RED_JRNL_FULL_CNT = 0 ∧ u.answered l = .ok) ∧
      (Completes (exec (.redClrFo l) s) fun u => u.fld l F.RED_FO_FO_CNT = 0 ∧ u.fld l F.RED_FO_LAST_CAUSE = 0 ∧ u.answered l = .ok)) ∧
    (s.Takes l 0x81054 → Completes (exec (.conjClrCnt l) s) fun u => u.word l F.CONJ_CNT_CRC.addr = 0 ∧ u.answered l = .ok)

/-- The monitor's reset of a failed lane, and its release from retirement. With AUTO_RST the monitor resets a declared lane and records the
instant; the reset that reaches RETIRE_N within 60 s retires it. MON_RED_CTRL through the other lane releases a retired lane from its
retirement, and through the lane itself it is rejected with STATE_ERR. -/
def Obligations.MonitorResetsAndRetires : Prop :=
  (∀ (s : State) (x : Lane), s.mon.alive = true → s.mflag F.MON_RED_CFG_AUTO_RST = true → s.declared x = true → s.inReset x = false →
    ∀ n, n = ((s.mon.resets.get x).filter (fun t => s.time < t + ms 60000)).length + 1 →
    Completes (exec (.autoReset x) s) fun u => u.inReset x = true ∧ (u.lane x).hold.mon = true ∧ (u.lane x).mem = [] ∧
      (u.mon.resets.get x).length = n ∧
      (s.mfld F.MON_RED_CFG_RETIRE_N ≠ 0 → s.mfld F.MON_RED_CFG_RETIRE_N ≤ n → (u.lane x).hold.retired = true)) ∧
  ∀ (s : State) (l : Lane), s.Takes l 0xC1060 →
    (∀ x, x = Lane.A → x ≠ l → (s.lane x).hold.retired = true → Completes (exec (.unretireA l) s) fun u =>
      (u.lane x).hold.retired = false ∧ u.mflag F.MON_RED_STAT_RETIRED_A = false ∧ u.answered l = .ok) ∧
    (∀ x, x = Lane.B → x ≠ l → (s.lane x).hold.retired = true → Completes (exec (.unretireB l) s) fun u =>
      (u.lane x).hold.retired = false ∧ u.mflag F.MON_RED_STAT_RETIRED_B = false ∧ u.answered l = .ok) ∧
    (l = .A → Completes (exec (.unretireA l) s) fun u => u.answered l = .stateErr) ∧
    (l = .B → Completes (exec (.unretireB l) s) fun u => u.answered l = .stateErr)

/-- Queues and control of a CAN controller. INIT = 1 takes the controller off the bus with empty transmit queues, INIT = 0 begins
integration, and BUS_INTEGRATION joins the bus. A valid staged frame is queued in the FIFO or a free slot, and a full FIFO answers
STATE_ERR. A cancelled frame that has not been started leaves at once as CANCELLED, and the started one is only marked. POP removes the
oldest entry, REC_REQ begins a recovery from bus-off, and the clears zero their counters. -/
def Obligations.CanQueuesAndControl : Prop :=
  ∀ (s : State) (l : Lane) (c : Fin 2),
    (s.Takes l (0xB0040 + c.val * 0x1000) →
      (Completes (exec (.canInit l c true) s) fun u => u.flag l (F.CAN_CTRL_INIT c.val) = true ∧ u.answered l = .ok ∧
        (s.flag l (F.CAN_CTRL_INIT c.val) = false → (u.can l c).fifo = [] ∧ (u.can l c).slot = Vector.replicate 4 none ∧
          (u.can l c).joined = false ∧ u.fld l (F.CAN_STAT_STATE c.val) = 3)) ∧
      (s.flag l ⟨0xB0004 + c.val * 0x1000, 0, 1⟩ = true → Completes (exec (.canInit l c false) s) fun u =>
        u.flag l (F.CAN_CTRL_INIT c.val) = false ∧ u.answered l = .ok ∧
        (s.flag l (F.CAN_CTRL_INIT c.val) = true → u.fld l (F.CAN_STAT_STATE c.val) = 3 ∧ u.fld l (F.CAN_STAT_TEC c.val) = 0)) ∧
      (s.flag l ⟨0xB0004 + c.val * 0x1000, 0, 1⟩ = false → Completes (exec (.canInit l c false) s) fun u =>
        u.flag l (F.CAN_CTRL_INIT c.val) = s.flag l (F.CAN_CTRL_INIT c.val) ∧ u.answered l = .stateErr) ∧
      (s.fld l (F.CAN_STAT_STATE c.val) = 2 → Completes (exec (.recReq l c) s) fun u =>
        (u.can l c).recovering = true ∧ u.answered l = .ok)) ∧
    (s.ready l = true → s.failed l = false → s.flag l ⟨0xB0004 + c.val * 0x1000, 0, 1⟩ = true →
      s.flag l (F.CAN_CTRL_INIT c.val) = false → (s.can l c).joined = false → Completes (exec (.busIntegration l c) s) fun u =>
        (u.can l c).joined = true ∧ u.fld l (F.CAN_STAT_STATE c.val) =
          if 127 < s.fld l (F.CAN_STAT_TEC c.val) ∨ 127 < (s.can l c).rxErr then 1 else 0) ∧
    (s.Takes l (0xB0068 + c.val * 0x1000) → ∀ (p : BusPhase) (f : CanFrame), f = s.canStaged l c →
      (f.ide = true ∨ f.id.toNat ≤ 0x7FF) → (f.brs = true → f.fdf = true ∧ s.flag l (F.CAN_CTRL_BRSE c.val) = true) →
      (f.fdf = true → f.rtr = false ∧ s.flag l (F.CAN_CTRL_FDE c.val) = true) → s.flag l (F.CAN_CTRL_INIT c.val) = false →
      ((s.can l c).fifo.length < 32 → Completes (exec (.txPush l c 0 p) s) fun u =>
        (∃ e : TxEntry, (u.can l c).fifo = (s.can l c).fifo ++ [e] ∧ e.frame = f ∧ e.attempts = 0 ∧
          e.tag.toNat = s.fld l (F.CAN_TX_HDR_TAG c.val)) ∧ u.answered l = .ok) ∧
      (32 ≤ (s.can l c).fifo.length → Completes (exec (.txPush l c 0 p) s) fun u =>
        (u.can l c).fifo = (s.can l c).fifo ∧ u.answered l = .stateErr) ∧
      ∀ k : Fin 4, (s.can l c).slot[k] = none → (k = 3 → s.canClaused l c = false) →
        Completes (exec (.txPush l c (BitVec.ofNat 3 (4 + k.val)) p) s) fun u =>
          (∃ e : TxEntry, (u.can l c).slot[k] = some e ∧ e.frame = f) ∧ u.answered l = .ok) ∧
    (s.Takes l (0xB006C + c.val * 0x1000) →
      (∀ tag, Completes (exec (.cancelTag l c tag .before) s) fun u =>
        (u.can l c).fifo = (cancelTagIn tag (s.can l c).fifo).1 ∧ u.answered l = .ok) ∧
      (∀ (k : Fin 4) (e : TxEntry), (s.can l c).slot[k] = some e →
        (Completes (exec (.cancelSlot l c k .before) s) fun u => (u.can l c).slot[k] = none ∧
          (∃ d, (u.can l c).txc.getLast? = some d ∧ d.tag = e.tag ∧ d.result = 1 ∧ d.src = 4 + k.val) ∧ u.answered l = .ok) ∧
        (s.canSends l c = true → (s.can l c).cand = some (4 + k.val) → Completes (exec (.cancelSlot l c k .started) s) fun u =>
          (u.can l c).slot[k] = some { e with cancel := true } ∧ (u.can l c).txc = (s.can l c).txc ∧ u.answered l = .ok)) ∧
      Completes (exec (.cancelAll l c .before) s) fun u =>
        (u.can l c).fifo = [] ∧ (u.can l c).slot = Vector.replicate 4 none ∧ u.answered l = .ok) ∧
    (s.Takes l (0xB007C + c.val * 0x1000) →
      (Completes (exec (.popRx l c) s) fun u => (u.can l c).rx = (s.can l c).rx.tail ∧ u.answered l = .ok) ∧
      (Completes (exec (.popTxc l c) s) fun u => (u.can l c).txc = (s.can l c).txc.tail ∧ u.answered l = .ok)) ∧
    (s.Takes l (0xB005C + c.val * 0x1000) →
      (Completes (exec (.canClrOvf l c) s) fun u => u.fld l (F.CAN_RXQ_OVF_CNT c.val) = 0 ∧ u.answered l = .ok) ∧
      (Completes (exec (.canClrCnt l c) s) fun u => u.word l (F.CAN_CNT_TXOK c.val).addr = 0 ∧ u.answered l = .ok))

/-- What happens on a CAN bus. A candidate that completes leaves its queue with a completion and lowers TEC by 1. One that loses arbitration
stays, or in one-shot mode leaves as failed. An error raises TEC by 8 and keeps the frame for another attempt, or brings bus-off above
255; a one-shot frame leaves as failed. Recovery clears both error counters. A received frame is stored with its filter and stamp,
handed to CLAUSE, or discarded by its filter's action, and lost where the FIFO is full; a receive error raises REC. -/
def Obligations.CanOnTheBus : Prop :=
  (∀ (s : State) (l : Lane) (c : Fin 2) (k : Nat) (e : TxEntry) (age : Nat), s.canSends l c = true →
    ((s.can l c).atPhase .started).cand = some k → (s.can l c).entry k = some e →
    (Completes (exec (.txComplete l c age) s) fun u =>
      (u.can l c).fifo = ((s.can l c).putEntry k none).fifo ∧ (u.can l c).slot = ((s.can l c).putEntry k none).slot ∧
      (∃ d, (u.can l c).txc.getLast? = some d ∧ d.tag = e.tag ∧ d.result = 0 ∧ d.src = k ∧ d.late = e.cancel ∧
        d.ts = s.sof l age) ∧
      u.fld l (F.CAN_STAT_TEC c.val) = s.fld l (F.CAN_STAT_TEC c.val) - 1 ∧
      u.fld l (F.CAN_CNT_TXOK c.val) = satAdd 8 (s.fld l (F.CAN_CNT_TXOK c.val)) 1) ∧
    (e.cancel = false →
      (s.flag l (F.CAN_CTRL_ONESHOT c.val) = false → Completes (exec (.arbitrationLost l c age) s) fun u =>
        (u.can l c).fifo = (s.can l c).fifo ∧ (u.can l c).slot = (s.can l c).slot ∧ (u.can l c).phase = .before ∧
        (u.can l c).cand = none) ∧
      (s.flag l (F.CAN_CTRL_ONESHOT c.val) = true → Completes (exec (.arbitrationLost l c age) s) fun u =>
        (u.can l c).fifo = ((s.can l c).putEntry k none).fifo ∧ (u.can l c).slot = ((s.can l c).putEntry k none).slot ∧
        ∃ d, (u.can l c).txc.getLast? = some d ∧ d.tag = e.tag ∧ d.result = 2 ∧ d.src = k) ∧
      ∀ (err : BitVec 3) (data dominant : Bool), err ≠ 3 →
        (s.flag l (F.CAN_CTRL_ONESHOT c.val) = false → s.fld l (F.CAN_CTRL_RETRY c.val) = 0 →
          (s.fld l (F.CAN_STAT_TEC c.val) ≤ 247 → Completes (exec (.txError l c err data dominant false age) s) fun u =>
            u.fld l (F.CAN_STAT_TEC c.val) = s.fld l (F.CAN_STAT_TEC c.val) + 8 ∧
            (u.can l c).entry k = some { e with attempts := e.attempts + 1, lastErr := err.toNat, ackErrs := 0 }) ∧
          (248 ≤ s.fld l (F.CAN_STAT_TEC c.val) → Completes (exec (.txError l c err data dominant false age) s) fun u =>
            u.fld l (F.CAN_STAT_STATE c.val) = 2 ∧ u.present l (E.CAN_BUS_OFF c.val) = true ∧
            (u.can l c).entry k = some { e with attempts := e.attempts + 1, lastErr := err.toNat, ackErrs := 0 })) ∧
        (s.flag l (F.CAN_CTRL_ONESHOT c.val) = true → Completes (exec (.txError l c err data dominant false age) s) fun u =>
          (u.can l c).fifo = ((s.can l c).putEntry k none).fifo ∧ (u.can l c).slot = ((s.can l c).putEntry k none).slot ∧
          ∃ d, (u.can l c).txc.getLast? = some d ∧ d.tag = e.tag ∧ d.result = 2 ∧ d.lastErr = err.toNat))) ∧
  ∀ (s : State) (l : Lane) (c : Fin 2), s.canOn l c = true →
    (s.fld l (F.CAN_STAT_STATE c.val) = 2 → (s.can l c).recovering = true → Completes (exec (.busOffRecovery l c) s) fun u =>
      u.fld l (F.CAN_STAT_STATE c.val) = 0 ∧ u.fld l (F.CAN_STAT_TEC c.val) = 0 ∧ (u.can l c).rxErr = 0 ∧
      (u.can l c).recovering = false ∧ u.present l (E.CAN_BUS_OFF c.val) = false) ∧
    (s.fld l (F.CAN_STAT_STATE c.val) ≠ 2 →
      (∀ (f : CanFrame) (age n act : Nat), s.canFilter l c f = (n, act) → Completes (exec (.canRxFrame l c f age) s) fun u =>
        ((s.can l c).rx.length < 64 → act = 0 ∨ act = 3 →
          (u.can l c).rx = (s.can l c).rx ++ [{ frame := f, filt := n, ts := s.sof l age }]) ∧
        (64 ≤ (s.can l c).rx.length ∨ (act ≠ 0 ∧ act ≠ 3) → (u.can l c).rx = (s.can l c).rx) ∧
        (64 ≤ (s.can l c).rx.length → act = 0 ∨ act = 3 →
          u.fld l (F.CAN_RXQ_OVF_CNT c.val) = satAdd 8 (s.fld l (F.CAN_RXQ_OVF_CNT c.val)) 1)) ∧
      (∀ (err : BitVec 3) (data eight : Bool), Completes (exec (.canRxError l c err data eight) s) fun u =>
        u.fld l (if data then F.CAN_STAT_DLEC c.val else F.CAN_STAT_LEC c.val) = err.toNat ∧
        (u.can l c).rxErr = satAdd 8 (s.can l c).rxErr (if eight then 8 else 1)) ∧
      (s.flag l (F.CAN_CTRL_PXHD c.val) = false → Completes (exec (.canProtocolException l c) s) fun u =>
        (u.can l c).joined = false ∧ u.fld l (F.CAN_STAT_STATE c.val) = 3))

/-- Power, scrubbing and errors of the memory banks. A MEM_PWR write whose leaving banks need not stay on sets every bank's state and marks
the changing ones busy; else it is refused whole, with the first bank and its cause recorded. MEM_PWR_DONE ends a change. A scrubber
goes on word by word and begins anew at the end of the bank. A single error is counted; a double one outside the program banks, and a
late scrubber, fail the lane's self-test. The clears zero what they name. -/
def Obligations.MemoryBanks : Prop :=
  ∀ (s : State) (l : Lane),
    (s.Takes l F.MEM_PWR_STAT_BUSY.addr → ∀ w : Word, (∀ b, b < 16 → bits w (2 * b) 2 ≠ 3) →
      ((∀ b, b < 16 → s.bankOn l b = true → bits w (2 * b) 2 ≠ 0 → s.keepOn l b = none) →
        Completes (exec (.memPwr l w) s) fun u => u.answered l = .ok ∧ ∀ b, b < 16 →
          u.fld l (F.MEM_PWR_STATE b) = bits w (2 * b) 2 ∧
          (s.fld l (F.MEM_PWR_STATE b) ≠ bits w (2 * b) 2 → u.flag l ⟨F.MEM_PWR_STAT_BUSY.addr, 16 + b, 1⟩ = true)) ∧
      (∀ b c, b < 16 → s.bankOn l b = true → bits w (2 * b) 2 ≠ 0 → s.keepOn l b = some c →
        (∀ b', b' < b → s.bankOn l b' = true → bits w (2 * b') 2 ≠ 0 → s.keepOn l b' = none) →
        Completes (exec (.memPwr l w) s) fun u => u.answered l = .stateErr ∧ u.fld l F.MEM_PWR_STAT_LAST_BANK = b ∧
          u.fld l F.MEM_PWR_STAT_LAST_CAUSE = c ∧ ∀ b', b' < 16 → u.fld l (F.MEM_PWR_STATE b') = s.fld l (F.MEM_PWR_STATE b'))) ∧
    (s.inReset l = false → ∀ b : Fin 16,
      (Completes (exec (.memPwrDone l b) s) fun u => u.flag l ⟨F.MEM_PWR_STAT_BUSY.addr, 16 + b.val, 1⟩ = false) ∧
      (s.bankOn l b.val = true →
        (((s.lane l).scrub[b]).1 + 1 < bankWords b.val → Completes (exec (.scrub l b none) s) fun u =>
          (u.lane l).scrub[b] = (((s.lane l).scrub[b]).1 + 1, ((s.lane l).scrub[b]).2)) ∧
        (bankWords b.val ≤ ((s.lane l).scrub[b]).1 + 1 → Completes (exec (.scrub l b none) s) fun u =>
          (u.lane l).scrub[b] = (0, s.time) ∧ s.fld l F.MEM_SCRUB_MAX_MS ≤ u.fld l F.MEM_SCRUB_MAX_MS) ∧
        (Completes (exec (.scrub l b (some false)) s) fun u =>
          u.fld l F.MEM_ECC_CNT_CORR = satAdd 16 (s.fld l F.MEM_ECC_CNT_CORR) 1) ∧
        (8 ≤ b.val → s.ready l = true → s.failed l = false →
          (Completes (exec (.scrub l b (some true)) s) fun u => u.self l = 3 ∧ u.fld l F.RED_STAT_SELF_CAUSE = 6 ∧
            u.fld l F.MEM_ECC_CNT_UNCORR = satAdd 8 (s.fld l F.MEM_ECC_CNT_UNCORR) 1) ∧
          Completes (exec (.scrubLate l b) s) fun u => u.self l = 3 ∧ u.fld l F.RED_STAT_SELF_CAUSE = 7))) ∧
    (s.Takes l 0x05054 →
      (Completes (exec (.memClrScrub l) s) fun u => u.fld l F.MEM_SCRUB_MAX_MS = 0 ∧ u.answered l = .ok) ∧
      (Completes (exec (.memClrEcc l) s) fun u => u.word l F.MEM_ECC_CNT_CORR.addr = 0 ∧ u.answered l = .ok))

/-- The states of a capture window. ARM arms a window inside the capture space whose banks are on and whose area no other active window
uses; an overlap is rejected with STATE_ERR. TRIG triggers an armed window, STOP ends an active one at once, and CAP_DONE ends a
triggered one after its records. -/
def Obligations.CaptureWindows : Prop :=
  (∀ (s : State) (l : Lane) (w : Fin 8), s.Takes l 0x05058 →
    ((∀ v, v < 8 → s.capActive l v = true → (s.capArea l v).2 ≤ (s.capArea l w.val).1 ∨ (s.capArea l w.val).2 ≤ (s.capArea l v).1) →
      (s.capArea l w.val).2 ≤ 256 → (s.capIn l w.val 12 = true → s.bankOn l 12 = true) →
      (s.capIn l w.val 13 = true → s.bankOn l 13 = true) → Completes (exec (.capArm l w) s) fun u =>
        u.fld l (F.MEM_CAP_STAT_STATE w.val) = 1 ∧ u.fld l (F.MEM_CAP_STAT_COUNT w.val) = 0 ∧ (u.lane l).cap[w].recs = [] ∧
        u.answered l = .ok) ∧
    (∀ v, v < 8 → s.capActive l v = true → (s.capArea l w.val).1 < (s.capArea l v).2 → (s.capArea l v).1 < (s.capArea l w.val).2 →
      Completes (exec (.capArm l w) s) fun u =>
        u.capActive l v = true ∧ u.answered l = .stateErr) ∧
    (s.fld l (F.MEM_CAP_STAT_STATE w.val) = 1 → Completes (exec (.capTrig l w) s) fun u =>
      u.fld l (F.MEM_CAP_STAT_STATE w.val) = 2 ∧ u.answered l = .ok ∧
      (s.present l E.MEM_CAP_TRIG = false → u.pended l E.MEM_CAP_TRIG = true)) ∧
    (s.capActive l w.val = true → Completes (exec (.capStop l w) s) fun u =>
      u.fld l (F.MEM_CAP_STAT_STATE w.val) = 3 ∧ u.answered l = .ok)) ∧
  ∀ (s : State) (l : Lane) (w : Fin 8), s.inReset l = false → s.fld l (F.MEM_CAP_STAT_STATE w.val) = 2 →
    s.capPost l w.val ≤ (s.lane l).cap[w].post → Completes (exec (.capDone l w) s) fun u =>
      u.fld l (F.MEM_CAP_STAT_STATE w.val) = 3 ∧ (s.present l E.MEM_CAP_DONE = false → u.pended l E.MEM_CAP_DONE = true)

/-- Configured stops, clears of the event path and the processor's load. REACTION_STOP takes the set to SAFE for a position, sensing or
traction page and stops the converter for its page. A 1 written to EVC_PEND clears every header bit of that source, and EVC_CLR.CNT the
counters. The load of the management processor makes a lane answer BUSY and is shown. MON_LOG_CLR acts once the partner's half has come,
and its first half waits. -/
def Obligations.EventPath : Prop :=
  (∀ (s : State) (l : Lane), s.inReset l = false →
    (s.failed l = false → Completes (exec (.reactionStop l) s) fun u =>
      (∀ p ∈ (s.lane l).stopPend, p ∈ [0x20000, 0x21000, 0x22000, 0x24000, 0x28000] → u.sm l = if s.sm l = 0 then 0 else 9) ∧
      (0x70000 ∈ (s.lane l).stopPend → u.fld l F.DCL_STAT_STATE = 0)) ∧
    ∀ ovr : Bool, Completes (exec (.mpOverload l ovr) s) fun u =>
      (u.lane l).boot.mpBusy = ovr ∧ u.present l E.SYS_MP_LOAD = ovr) ∧
  (∀ (s : State) (l : Lane),
    (∀ (g : Fin 4) (w : Word), s.Takes l (0x04050 + g.val * 4) → Completes (exec (.evcPendClear l g w) s) fun u =>
      u.answered l = .ok ∧ ∀ b, b < 32 → bit w b = true → ∀ e ∈ allSrcBits (32 * g.val + b), u.pended l e = false) ∧
    (s.Takes l 0x040BC → Completes (exec (.evcClrCnt l) s) fun u =>
      u.answered l = .ok ∧ u.fld l F.EVC_STAT_REACT_CNT = 0 ∧ ∀ k, k < 24 → u.word l (F.EVC_CNT_CNT k 0).addr = 0)) ∧
  ∀ (s : State) (l : Lane) (q : Option Req), s.Serves l 0xC0048 q → s.monOk l = true → s.mon.alive = true →
    (s.mon.halves.filter (fun h => h.lane == l)).length < 16 →
    ((∀ h ∈ s.mon.halves, h.lane = l.other → h.addr ≠ 0xC0048) → Completes (exec (.monLogClear l q) s) fun u =>
      u.mon.log = s.mon.log ∧ u.answered l = .dualPend) ∧
    ((∃ h ∈ s.mon.halves, h.lane = l.other ∧ h.addr = 0xC0048) →
      ((∀ h ∈ s.mon.halves, h.lane = l.other → h.addr = 0xC0048 → h.val = 1) → Completes (exec (.monLogClear l q) s) fun u =>
        u.mon.log = [] ∧ u.mfld F.MON_LOG_STAT_FILL = 0) ∧
      ((∀ h ∈ s.mon.halves, h.lane = l.other → h.addr = 0xC0048 → h.val = 2) → Completes (exec (.monLogClrCnt l q) s) fun u =>
        ∀ k, k < 8 → u.word l (F.MON_CNT_CNT k 0).addr = 0))

/-- The descriptors of the bulk window. The next descriptor of a lane is rejected with the first status its check finds, or processed by its
command. NONE comes back OK. CAPTURE and FLOG deliver records and whole log entries into the slot and say how much. IMG_WRITE programs
the image slot that it may write and breaks its CRC until a commit, and comes back when the programming ends. IMG_COMMIT takes a good
image over and answers STATE_ERR for another. -/
def Obligations.BulkDescriptors : Prop :=
  ∀ (s : State) (l : Lane),
    (s.inReset l = false → (s.lane l).boot.phase ≠ .starting → s.flag l F.BULK_STAT_IMG_BUSY = false → ∀ (n : Fin 64) (t : List (Fin 64)),
      s.ownedList l = n :: t → ∀ len arg, len = s.fld l (F.BULK_DESC0_LEN n.val) → arg = s.fld l (F.BULK_DESC1_ARG n.val) →
      (s.fld l (F.BULK_DESC0_CMD n.val) = 0 → Completes (exec (.bulkNone l) s) fun u =>
        u.flag l (F.BULK_DESC0_OWN n.val) = false ∧ u.fld l (F.BULK_DESC1_STATUS n.val) = 0 ∧
        (s.present l E.BULK_DONE = false → u.pended l E.BULK_DONE = true)) ∧
      (s.fld l (F.BULK_DESC0_CMD n.val) = 1 →
        (∀ st, s.descCheck l n = some st → Completes (exec (.capture l) s) fun u =>
          u.flag l (F.BULK_DESC0_OWN n.val) = false ∧ u.fld l (F.BULK_DESC1_STATUS n.val) = st.code ∧
          (s.present l E.BULK_REJECT = false → u.pended l E.BULK_REJECT = true)) ∧
        (s.descCheck l n = none → Memory.wf 0 (s.lane l).mem = true → ∀ bs,
          bs = ((if s.fld l (F.MEM_CAP_STAT_STATE (arg / 2 ^ 21 % 8)) = 3 then s.capBytes l (Fin.ofNat 8 (arg / 2 ^ 21)) else []).drop
            (arg % 2 ^ 18)).take len →
          Completes (exec (.capture l) s) fun u => u.flag l (F.BULK_DESC0_OWN n.val) = false ∧
            u.fld l (F.BULK_DESC1_STATUS n.val) = 0 ∧ u.fld l (F.BULK_DESC0_LEN n.val) = bs.length ∧
            memBytes 0 (u.lane l).mem (s.slotAt l (s.fld l (F.BULK_DESC0_SLOT n.val))) bs.length = bs)) ∧
      (s.fld l (F.BULK_DESC0_CMD n.val) = 2 → s.descCheck l n = none → Completes (exec (.flog l) s) fun u =>
        u.flag l (F.BULK_DESC0_OWN n.val) = false ∧ u.fld l (F.BULK_DESC1_STATUS n.val) = 0 ∧
        ∃ k, u.fld l (F.BULK_DESC0_LEN n.val) = 32 * k ∧ k ≤ len / 32 ∧ k ≤ s.mon.log.length) ∧
      (s.fld l (F.BULK_DESC0_CMD n.val) = 3 → s.descCheck l n = none → len ≠ 0 → Memory.wf 0xFF (s.lane l).flash = true →
        Completes (exec (.imgWrite l) s) fun u => u.flag l F.BULK_STAT_IMG_BUSY = true ∧
          ((u.lane l).boot.slot[s.imgTarget l arg]).broken = true ∧ u.flag l (F.BULK_DESC0_OWN n.val) = true ∧
          memBytes 0xFF (u.lane l).flash ((s.imgTarget l arg).val * 0x200000 + arg % 2 ^ 23 * 4096) len =
            memBytes 0 (s.lane l).mem (s.slotAt l (s.fld l (F.BULK_DESC0_SLOT n.val))) len) ∧
      (s.fld l (F.BULK_DESC0_CMD n.val) = 4 → s.descCheck l n = none → ∀ (r : ImageRead) (sig : Bool),
        Completes (exec (.imgCommit l r sig) s) fun u => u.flag l (F.BULK_DESC0_OWN n.val) = false ∧
          if r.crcOk = true ∧ sig = true ∧ r.flags.getLsbD l.idx = true then
            u.fld l (F.BULK_DESC1_STATUS n.val) = 0 ∧ ((u.lane l).boot.slot[s.imgTarget l arg]).version = r.version ∧
            ((u.lane l).boot.slot[s.imgTarget l arg]).broken = false
          else u.fld l (F.BULK_DESC1_STATUS n.val) = Status.code .stateErr ∧ (u.lane l).boot.slot = (s.lane l).boot.slot ∧
            (s.present l E.BULK_IMAGE_FAIL = false → u.pended l E.BULK_IMAGE_FAIL = true))) ∧
    (s.inReset l = false → s.flag l F.BULK_STAT_IMG_BUSY = true → ∀ (n : Fin 64) (t : List (Fin 64)), s.ownedList l = n :: t →
      Completes (exec (.imgWriteDone l) s) fun u => u.flag l F.BULK_STAT_IMG_BUSY = false ∧
        u.flag l (F.BULK_DESC0_OWN n.val) = false ∧ u.fld l (F.BULK_DESC1_STATUS n.val) = 0) ∧
    (s.Takes l 0xA1048 → Completes (exec (.bulkClrCnt l) s) fun u =>
      u.fld l F.BULK_STAT_DONE_CNT = 0 ∧ u.fld l F.BULK_STAT_REJ_CNT = 0 ∧ u.answered l = .ok)

/-- A register write is applied, or rejected whole. A write of an EVC enable register puts the bytes that it enables and is answered OK. A
write for which the checks of R93 find a status is answered with it and raises SYS.ACCESS_REJECT, or CE.COEF_CLOSED for that status, and
changes nothing else. A WR of two words of which the second is out of its range writes neither. -/
def Obligations.RegisterWrites : Prop :=
  (∀ (s : State) (l : Lane) (g : Fin 4) (k : Nat) (a : BitVec 24) (w : Word) (be : BitVec 4) (q : Option Req) (ph : BusPhase),
    k = 0x04060 ∨ k = 0x04070 ∨ k = 0x04080 → a.toNat = k + 4 * g.val → s.Serves l a.toNat q →
    Completes (exec (.registerWrite l a w be q ph) s) fun u =>
      u.word l a.toNat = mergeBytes (s.word l a.toNat) w be ∧ u.answered l = .ok) ∧
  (∀ (s : State) (l : Lane) (a : BitVec 24) (w : Word) (be : BitVec 4) (ph : BusPhase) (p : Page) (fs : List FieldDesc) (st : Status),
    s.Serves l a.toNat none → a.toNat % 4 = 0 → bankOf a.toNat = none → pageAt a.toNat = some p → regFields a.toNat = some fs →
    s.regCheck l { ph := ph } (s.merge l p (a.toNat % 0x1000) fs w be) w be = some st →
    Completes (exec (.registerWrite l a w be none ph) s) fun u =>
      u.answered l = st ∧ s.Only { parts := [.answer] } u ∧
      (st ≠ .coefClosed → s.present l E.SYS_ACCESS_REJECT = false → u.pended l E.SYS_ACCESS_REJECT = true) ∧
      (st = .coefClosed → s.present l E.CE_COEF_CLOSED = false → u.pended l E.CE_COEF_CLOSED = true)) ∧
  ∀ (s : State) (l : Lane) (e : Bool) (q : Req) (d : List Byte) (dev : BitVec 6) (ph : BusPhase),
    s.arrives l e = true → s.aon.devnum = some dev → (s.lane l).dup = false → s.Serves l 0x11044 (some q) → s.armedAt l 0x11048 = false →
    d.length = 8 → fFinite (BitVec.ofNat 32 (bytesNat (d.take 4))) = true → fFinite (BitVec.ofNat 32 (bytesNat (d.drop 4))) = false →
    Completes (exec (.wr l e true dev l q 0x11044 0xF 8 d ph) s) fun u =>
      u.word l 0x11044 = s.word l 0x11044 ∧ u.word l 0x11048 = s.word l 0x11048 ∧ u.answered l = .rangeErr ∧
      .rsp e 0x11 q.sess q.seq 0x11044 .rangeErr [] ∈ (u.lane l).ring.sent

/-- Unmapped offsets. An offset that lies in no window and in no assigned register is read as 0x0000_0000 with status ADDR_ERR, and a write
to it is rejected with ADDR_ERR and changes nothing but the answer. No offset from 0x40_0000 up lies in a page, so the windows have no
page header. -/
def Obligations.UnmappedOffsets : Prop :=
  (∀ a : Nat, 0x400000 ≤ a → pageAt a = none) ∧
  ∀ (s : State) (l : Lane) (a : BitVec 24), a.toNat % 4 = 0 → bankOf a.toNat = none → regFields a.toNat = none →
    (∀ (w : Word) (be : BitVec 4) (ph : BusPhase), s.Serves l a.toNat none → Completes (exec (.registerWrite l a w be none ph) s) fun u =>
      u.answered l = .addrErr ∧ s.Only { parts := [.answer] } u) ∧
    ∀ (e : Bool) (q : Req) (dev : BitVec 6), s.arrives l e = true → s.aon.devnum = some dev → (s.lane l).dup = false →
      s.turnAway l a.toNat false false = none → (∀ k, (s.lane k).waiting = []) → ((s.lane l).sess[q.sess]).periods.length < 16 →
      Completes (exec (.rd l e true dev l q a 4 none) s) fun u =>
        u.answered l = .addrErr ∧ (u.lane l).answer.data = 0 ∧ .rsp e 0x10 q.sess q.seq a .addrErr [] ∈ (u.lane l).ring.sent

/-- Soft reset, locks and forced events of a page. SRST with EN = 0 returns every unlocked field of the block's registers and the block's
state to reset, discards its shadows and keeps the header; with EN = 1 it answers STATE_ERR, and on the SYS page it resets the lane. A
write of PG_LOCK sets the bits it names and clears none, and is rejected over a shadow of a field that the bit covers. EVT_FORCE makes
the sources it names rise. -/
def Obligations.PageHeaders : Prop :=
  ∀ (s : State) (l : Lane) (q : Option Req),
    (s.Serves l 0x24004 q → bit (s.word l 0x24008) 31 = false →
      (bit (s.word l 0x24004) 0 = true → Completes (exec (.blockSoftReset l 0x24 q) s) fun u =>
        u.answered l = .stateErr ∧ bit (u.word l 0x24004) 0 = true ∧ (u.lane l).fbk = (s.lane l).fbk) ∧
      (bit (s.word l 0x24004) 0 = false → Completes (exec (.blockSoftReset l 0x24 q) s) fun u =>
        u.answered l = .ok ∧ (u.lane l).fbk = {} ∧ (∀ h ∈ (u.lane l).shadows, h.addr / 0x1000 ≠ 0x24) ∧
        (∀ off fs f, 0x040 ≤ off → fieldsAt (.fbk 0) off = some fs → f ∈ fs → bits (u.word l (0x24000 + off)) f.lo f.w =
          if f.acc = .rwl ∧ bit (s.word l 0x24008) 0 = true then bits (s.word l (0x24000 + off)) f.lo f.w else fieldReset (.fbk 0) off f) ∧
        ∀ n ∈ [0x24008, 0x24014, 0x24018], u.word l n = s.word l n)) ∧
    (s.Serves l 0x00004 q → bit (s.word l 0x00008) 31 = false → Completes (exec (.blockSoftReset l 0x00 q) s) fun u =>
      u.inReset l = true ∧ (u.lane l).hold.soft = true) ∧
    (s.Serves l 0x24008 q → ∀ w : Word, w &&& ~~~0xC0000001 = 0 →
      ((∀ h ∈ (s.lane l).shadows, h.addr / 0x1000 ≠ 0x24) → Completes (exec (.lockSet l 0x24 w q) s) fun u =>
        u.word l 0x24008 = s.word l 0x24008 ||| w ∧ u.answered l = .ok) ∧
      (bit w 0 = true → bit (s.word l 0x24008) 0 = false → (∃ h ∈ (s.lane l).shadows, h.addr = F.FBK_SEL_PRIM.addr) →
        Completes (exec (.lockSet l 0x24 w q) s) fun u => u.word l 0x24008 = s.word l 0x24008 ∧ u.answered l = .stateErr)) ∧
    (s.Serves l 0x2401C q → bit (s.word l 0x24008) 30 = false → ∀ w : Word, w &&& ~~~evMask (.fbk 0) = 0 →
      Completes (exec (.eventForce l 0x24 w q) s) fun u => u.answered l = .ok ∧
        ∀ b, bit w b = true → s.present l ⟨0x24000, b⟩ = false → u.pended l ⟨0x24000, b⟩ = true)

/-- Dual writes: halves, partners and their time. A half without a partner waits at the monitor and changes no value. With a partner of
equal value it takes effect in every lane out of reset, and with another value both are discarded and MON.DUAL_MISMATCH is raised. A
17th half, and a half without a relay path, answer STATE_ERR. After 10 ms the monitor discards a half with MON.DUAL_TIMEOUT, or the lane
counts it as discarded. -/
def Obligations.DualWrites : Prop :=
  (∀ (s : State) (l : Lane) (q : Option Req) (w : Word), s.Serves l 0x90064 q → bit (s.word l 0x90008) 0 = false →
    w ≠ s.word l 0x90064 →
    (s.monOk l = false → Completes (exec (.dualWriteHalf l 0x90064 w q) s) fun u =>
      u.answered l = .stateErr ∧ u.mon.halves = s.mon.halves ∧ u.word l 0x90064 = s.word l 0x90064) ∧
    (s.monOk l = true → 16 ≤ (s.mon.halves.filter (fun h => h.lane == l)).length → (∀ h ∈ s.mon.halves, h.lane = l → h.addr ≠ 0x90064) →
      Completes (exec (.dualWriteHalf l 0x90064 w q) s) fun u =>
        u.answered l = .stateErr ∧ u.mon.halves = s.mon.halves ∧ u.word l 0x90064 = s.word l 0x90064) ∧
    (s.monOk l = true → s.mon.alive = true → (s.mon.halves.filter (fun h => h.lane == l)).length < 16 →
      ((∀ h ∈ s.mon.halves, h.lane = l.other → h.addr ≠ 0x90064) → Completes (exec (.dualWriteHalf l 0x90064 w q) s) fun u =>
        u.answered l = .dualPend ∧ u.word l 0x90064 = s.word l 0x90064 ∧ ({ lane := l, addr := 0x90064, val := w } : Half) ∈ u.mon.halves) ∧
      ((∃ h ∈ s.mon.halves, h.lane = l.other ∧ h.addr = 0x90064) →
        ((∀ h ∈ s.mon.halves, h.lane = l.other → h.addr = 0x90064 → h.val = w) →
          Completes (exec (.dualWriteHalf l 0x90064 w q) s) fun u => u.answered l = .dualPend ∧ u.mon.regs.read 0x90064 = w ∧
            (∀ k, s.inReset k = false → u.word k 0x90064 = w) ∧ ∀ h ∈ u.mon.halves, h.addr ≠ 0x90064) ∧
        ((∀ h ∈ s.mon.halves, h.lane = l.other → h.addr = 0x90064 → h.val ≠ w) →
          Completes (exec (.dualWriteHalf l 0x90064 w q) s) fun u => u.answered l = .dualPend ∧
            (∀ k, u.word k 0x90064 = s.word k 0x90064) ∧ (∀ h ∈ u.mon.halves, h.addr ≠ 0x90064) ∧
            (s.present l E.MON_DUAL_MISMATCH = false → u.pended l E.MON_DUAL_MISMATCH = true))))) ∧
  ∀ (s : State) (l : Lane) (a : BitVec 24),
    (s.mon.alive = true → (∃ h ∈ s.mon.halves, h.lane = l ∧ h.addr = a.toNat) → Completes (exec (.dualTimeout l a) s) fun u =>
      (∀ h ∈ u.mon.halves, ¬(h.lane = l ∧ h.addr = a.toNat)) ∧ a.toNat ∉ (u.lane l).timedHalves ∧
      (∀ k : Fin 4, a.toNat ∈ ((s.lane l).sess[k]).halves → ((u.lane l).sess[k]).dualLost = true) ∧
      (s.present l E.MON_DUAL_TIMEOUT = false → u.pended l E.MON_DUAL_TIMEOUT = true)) ∧
    (a.toNat ∈ (s.lane l).timedHalves → Completes (exec (.dualHalfLaneTimeout l a) s) fun u =>
      a.toNat ∉ (u.lane l).timedHalves ∧
      ∀ k : Fin 4, a.toNat ∈ ((s.lane l).sess[k]).halves → ((u.lane l).sess[k]).dualLost = true)

/-- Dual writes over a lane reset and without the link. A reset of a lane by its pin, by software, by its supply or by its clock discards
the pending halves of that lane and no other lane's, and leaves every SAF and CLS value that the monitor has applied. With the
Conjunction link down a half is answered DUAL_PEND and waits, and takes effect with its matching partner. -/
def Obligations.LaneResetDiscardsHalves : Prop :=
  (∀ (s : State) (l : Lane) (c : Instr), s.inReset l = false →
    c = .nrstAssert l ∨ c = .softReset l ∨ c = .xtalFail l ∨ (c = .vsFailed l ∧ s.rail l.other = true) →
    Completes (exec c s) fun u => u.inReset l = true ∧ (∀ h ∈ u.mon.halves, h.lane ≠ l) ∧
      (∀ h ∈ s.mon.halves, h.lane = l.other → h ∈ u.mon.halves) ∧
      ∀ n, n / 0x1000 = 0x90 ∨ n / 0x1000 = 0x91 → u.mon.regs.read n = s.mon.regs.read n) ∧
  ∀ (s : State) (l : Lane) (w : Word), s.linkUp l = false → s.Serves l 0x90064 none →
    bit (s.word l 0x90008) 0 = false → w ≠ s.word l 0x90064 → s.monOk l = true → s.mon.alive = true →
    (s.mon.halves.filter (fun h => h.lane == l)).length < 16 →
    ((∀ h ∈ s.mon.halves, h.lane = l.other → h.addr ≠ 0x90064) → Completes (exec (.dualWriteHalf l 0x90064 w none) s) fun u =>
      u.answered l = .dualPend ∧ ({ lane := l, addr := 0x90064, val := w } : Half) ∈ u.mon.halves) ∧
    ((∃ h ∈ s.mon.halves, h.lane = l.other ∧ h.addr = 0x90064) →
      (∀ h ∈ s.mon.halves, h.lane = l.other → h.addr = 0x90064 → h.val = w) →
      Completes (exec (.dualWriteHalf l 0x90064 w none) s) fun u =>
        u.answered l = .dualPend ∧ ∀ k, s.inReset k = false → u.word k 0x90064 = w)

/-- Signals by number, PERIODs and shadows. A readable signal answers the word at its ADDR, and an unused entry ID_ERR. A PERIOD whose
writes have ended is acknowledged with the first status that applies and arms the shadows it covers; the notice arms those of the peer.
An armed shadow is transferred into effect at the medium boundary, and one not armed stays pending. -/
def Obligations.SignalsPeriodsShadows : Prop :=
  (∀ (s : State) (l : Lane) (n : BitVec 14) (ph : BusPhase) (e : DirEntry), e = s.dirEntry l n.toNat → s.bankOn l 11 = true →
    s.inReset l = false → s.turnAway l (dirAddr e) false false = none → (∀ k, (s.lane k).waiting = []) →
    (dirType e = 0 → Completes (exec (.signalAccess l n none none ph) s) fun u => u.answered l = .idErr) ∧
    (dirType e ≠ 0 → dirRd e = true → s.readFail l (dirAddr e) = none → Completes (exec (.signalAccess l n none none ph) s) fun u =>
      u.answered l = .ok ∧ (u.lane l).answer.data = s.wordAt l (dirAddr e))) ∧
  (∀ (s : State) (l : Lane) (k : Fin 4) (p : PeriodReq) (t : List PeriodReq), ((s.lane l).sess[k]).periods = p :: t →
    s.inReset l = false → (∀ x, (s.lane x).waiting = []) → p.halves = [] →
    (∀ y ∈ ((s.lane l.other).sess[k]).periods, isNewer p.seq y.seq = false) → Completes (exec (.periodComplete l k) s) fun u =>
      ((u.lane l).sess[k]).periods = t ∧
      u.answered l = (if p.dualLost then .dualFail else if p.unmirrored || p.linkLost || !s.linkUp l then .notMirrored else .ok) ∧
      ∀ h ∈ (u.lane l).shadows, { sess := k, seq := p.seq } ∈ h.due → h.armed = true) ∧
  (∀ (s : State) (l : Lane) (q : Req), s.ready l = true → s.linkUp l = true →
    (∃ p ∈ ((s.lane l.other).sess[q.sess]).seen, p.1 = q.seq) → (∀ p ∈ ((s.lane l.other).sess[q.sess]).periods, p.seq ≠ q.seq) →
    Completes (exec (.shadowArmPeer l q) s) fun u =>
      (u.lane l).shadows.length = (s.lane l).shadows.length ∧ ∀ h ∈ (u.lane l).shadows, q ∈ h.due → h.armed = true) ∧
  ∀ (s : State) (l : Lane) (h : Shadow), s.inReset l = false → (∀ k, (s.lane k).waiting = []) → (s.lane l).shadows = [h] →
    (h.armed = false → Completes (exec (.shadowTransfer l) s) fun u =>
      (u.lane l).shadows = [h] ∧ u.word l h.addr = s.word l h.addr) ∧
    (h.armed = true → ∀ fs m, regFields h.addr = some fs → m = maskOf fs (·.shadow) → Completes (exec (.shadowTransfer l) s) fun u =>
      (u.lane l).shadows = [] ∧ u.word l h.addr = (s.word l h.addr &&& ~~~m) ||| (h.val &&& m))

/-- Frames passed on, records taken, duplicates found. A frame that arrives is passed on towards the other end; one with a bad CRC is
counted, reported and not acted on. A frame of an unnamed TYPE is counted. The first good OUT record of the present cycle for this
device is taken with the telegrams it carries; a later one is not. An IN frame with the lane's own number raises DEV_DUP and ends its
answers and frames: a request to it is passed on and no more. -/
def Obligations.RingFrames : Prop :=
  ∀ (s : State) (l : Lane) (e : Bool), s.arrives l e = true → s.pathCut l (!e) = false →
    (∀ n : BitVec 16, n.toNat ≤ 256 →
      (Completes (exec (.eventFrameReceived l e true n n) s) fun u =>
        (u.lane l).ring.sent = (s.lane l).ring.sent ++ [.fwd (!e) 0x04] ∧ s.Only {} u) ∧
      (Completes (exec (.eventFrameReceived l e false n n) s) fun u =>
        .fwd (!e) 0x04 ∈ (u.lane l).ring.sent ∧ u.fld l F.RING_CNT_CRC = satAdd 8 (s.fld l F.RING_CNT_CRC) 1 ∧
        (s.present l E.RING_CRC = false → u.pended l E.RING_CRC = true)) ∧
      (∀ t : Byte, t.toNat ∉ [0x01, 0x02, 0x03, 0x04, 0x10, 0x11, 0x12, 0x13] → Completes (exec (.unknownFrame l e true t n n) s) fun u =>
        (u.lane l).ring.sent = (s.lane l).ring.sent ++ [.fwd (!e) t] ∧ u.fld l F.RING_CNT2_UNK = satAdd 8 (s.fld l F.RING_CNT2_UNK) 1) ∧
      (∀ (d : BitVec 6) (k : Lane), ¬(s.aon.devnum = some d ∧ k = l) → Completes (exec (.ringIn l e true d k n n) s) fun u =>
        (u.lane l).ring.sent = (s.lane l).ring.sent ++ [.fwd (!e) 0x03] ∧ s.Only {} u) ∧
      ∀ d : BitVec 6, s.aon.devnum = some d → Completes (exec (.ringIn l e true d l n n) s) fun u =>
        (u.lane l).dup = true ∧ u.flag l F.RING_STAT_DEV_DUP = true ∧ u.talks l = false ∧ u.present l E.RING_DEV_DUP = true ∧
        .fwd (!e) 0x03 ∈ (u.lane l).ring.sent) ∧
    (∀ (d : BitVec 6) (c : Word) (n : BitVec 16) (bs : List Byte), s.aon.devnum = some d → (s.lane l).ring.cyc = some c →
      n.toNat = bs.length → bs.length ≤ 256 → bs.length = 4 * bits (s.lane l).ring.cfg 16 7 →
      ((s.lane l).ring.outOk = false → Completes (exec (.ringOut l e true d (c.setWidth 16) n bs) s) fun u =>
        (u.lane l).ring.outOk = true ∧ (u.lane l).ring.out.length = bs.length / 4 ∧
        (∀ j, j < bs.length / 4 → (u.lane l).ring.out[j]? = some (BitVec.ofNat 32 (bytesNat ((bs.drop (4 * j)).take 4)))) ∧
        ∀ k : Fin 8, s.flag l (F.CLS_CFG_EN k.val) = true → s.flag l (F.CLS_CFG_DIR k.val) = false → s.flag l (F.CLS_CFG_CAR k.val) = false →
          ((u.lane l).cls[k]).tel = some ((bs.drop (s.fld l (F.CLS_LOC_LOC k.val))).take (9 + s.clsLen l k))) ∧
      ((s.lane l).ring.outOk = true → Completes (exec (.ringOut l e true d (c.setWidth 16) n bs) s) fun u =>
        (u.lane l).ring.out = (s.lane l).ring.out ∧ (u.lane l).ring.sent = (s.lane l).ring.sent ++ [.fwd (!e) 0x02]) ∧
      Completes (exec (.ringOut l e false d (c.setWidth 16) n bs) s) fun u =>
        (u.lane l).ring.out = (s.lane l).ring.out ∧ (u.lane l).ring.outOk = (s.lane l).ring.outOk) ∧
    ((s.lane l).dup = true → ∀ (d : BitVec 6) (q : Req) (a : BitVec 24) (m v : Word) (ph : BusPhase),
      Completes (exec (.rmw l e true d l q a m v ph) s) fun u =>
        (u.lane l).ring.sent = (s.lane l).ring.sent ++ [.fwd (!e) 0x12] ∧ s.Only {} u)

/-- Frames of a wrong length. A frame whose LEN is not the number of its payload bytes (for CYC: the command says so), so every frame with
LEN 0xFFFF, is counted in RING_CNT.LEN_DROP and raises RING.LEN_DROP; it is neither passed on nor answered, and changes nothing else. An
OUT frame whose LEN is no multiple of 4 is not taken, and such a WR is not applied. -/
def Obligations.RingFrameLength : Prop :=
  (∀ (s : State) (l : Lane) (e : Bool) (n k : BitVec 16) (bs : List Byte) (crc : Bool) (d : BitVec 6) (x : Lane) (t : Byte) (q : Req)
      (a : BitVec 24) (be : BitVec 4) (ph : BusPhase) (c : Instr), s.arrives l e = true →
    (n ≠ k ∧ k.toNat ≤ 256 ∧ (c = .ringIn l e crc d x n k ∨ c = .eventFrameReceived l e crc n k ∨ c = .unknownFrame l e crc t n k ∨
        c = .period l e crc d x q n k)) ∨
      (n.toNat ≠ bs.length ∧ bs.length ≤ 256 ∧ (c = .ringOut l e crc d k n bs ∨ c = .wr l e crc d x q a be n bs ph)) ∨
      (∃ loop host corr per lpt num res, c = .cyc l e loop crc false host corr per lpt num res) →
    Completes (exec c s) fun u =>
      u.fld l F.RING_CNT_LEN_DROP = satAdd 8 (s.fld l F.RING_CNT_LEN_DROP) 1 ∧
      (s.present l E.RING_LEN_DROP = false → u.pended l E.RING_LEN_DROP = true) ∧ s.Only {} u ∧
      ∀ f ∈ (u.lane l).ring.sent, f ∈ (s.lane l).ring.sent ∨ ∃ w seq src r m ts, f = .event w seq src r m ts) ∧
  ∀ (s : State) (l : Lane) (e : Bool) (n : BitVec 16) (bs : List Byte) (d : BitVec 6), s.arrives l e = true → n.toNat = bs.length →
    bs.length ≤ 256 → bs.length % 4 ≠ 0 →
    (∀ seq : BitVec 16, Completes (exec (.ringOut l e true d seq n bs) s) fun u => (u.lane l).ring.out = (s.lane l).ring.out) ∧
    ∀ (q : Req) (a : BitVec 24) (be : BitVec 4) (ph : BusPhase), s.Serves l a.toNat (some q) →
      Completes (exec (.wr l e true d l q a be n bs ph) s) fun u =>
        s.Only { parts := [.answer, .sess], pages := [typeAt 0x80000] } u ∧
        (s.aon.devnum = some d → (s.lane l).dup = false → (u.answered l).taken = false)

/-- Cycle time, the chosen end, cuts and link delays. An unlooped CYC frame goes on with its correction extended and gives the lane its
number, period and end; a looped one gives nothing; at a cut it turns back with this lane as its loop point. A cycle start chooses the
home end if it was heard, then the other, takes up the configuration and the maps, and steps the time on an error above 1 µs; 16 cycles
within 25 ns set TIME_OK. Cuts, their end and ORPHAN are shown and reported. Delay requests and replies are sent and the measured delay
is shown. RING_CLR clears the counters. -/
def Obligations.RingCycleAndLink : Prop :=
  (∀ (s : State) (l : Lane) (e : Bool) (host : BitVec 64) (corr num res : Word) (per lpt : BitVec 16), s.arrives l e = true → ∀ v,
    v = corr + (if e = homeEnd l then BitVec.ofNat 32 (s.fld l F.RING_DLY_LINK_DLY) else 0) + res →
    (s.pathCut l (!e) = false →
      (Completes (exec (.cyc l e false true true host corr per lpt num res) s) fun u =>
        .cyc (!e) false lpt v host per num false ∈ (u.lane l).ring.sent ∧ (u.lane l).ring.cyc = some num ∧
        u.word l F.RING_CYC_CYCNUM.addr = num ∧ u.fld l F.RING_STAT_PERIOD_K = per.toNat % 256 ∧ u.flag l F.RING_STAT_ORPHAN = false ∧
        (if e then (u.lane l).ring.seen1 else (u.lane l).ring.seen0) = true) ∧
      (Completes (exec (.cyc l e true true true host corr per lpt num res) s) fun u =>
        (u.lane l).ring.sent = (s.lane l).ring.sent ++ [.cyc (!e) true lpt v host per num false] ∧
        (u.lane l).ring.cyc = (s.lane l).ring.cyc) ∧
      Completes (exec (.cyc l e false false true host corr per lpt num res) s) fun u =>
        .cyc (!e) false lpt v host per num true ∈ (u.lane l).ring.sent ∧ (u.lane l).ring.cyc = (s.lane l).ring.cyc) ∧
    (s.pathCut l (!e) = true → ∀ d, s.aon.devnum = some d →
      Completes (exec (.cyc l e false true true host corr per lpt num res) s) fun u =>
        .cyc e true (BitVec.ofNat 16 (0x8000 + l.idx * 64 + d.toNat)) v host per num false ∈ (u.lane l).ring.sent)) ∧
  (∀ (s : State) (l : Lane), s.inReset l = false →
    (Completes (exec (.cycleStart l none) s) fun u => (u.lane l).ring.chosen =
        (if (if l = .A then (s.lane l).ring.seen0 else (s.lane l).ring.seen1) = true then some (homeEnd l)
         else if (if l = .A then (s.lane l).ring.seen1 else (s.lane l).ring.seen0) = true then some (!homeEnd l) else none) ∧
      (u.lane l).ring.seen0 = false ∧ (u.lane l).ring.seen1 = false ∧ (u.lane l).ring.okRun = 0 ∧
      (u.lane l).ring.cfg = s.word l F.RING_CFG_IN_W.addr ∧
      (∀ k : Fin 64, (u.lane l).ring.inMap[k] = s.word l (F.RING_INMAP_EN k.val).addr) ∧
      u.flag l F.RING_STAT_REDIR = ((u.lane l).ring.chosen == some (!homeEnd l))) ∧
    (∀ x : Int, -250 ≤ x → x ≤ 250 → Completes (exec (.cycleStart l (some x)) s) fun u =>
      u.word l F.RING_TERR_TERR.addr = BitVec.ofInt 32 x ∧ (u.lane l).ring.okRun = (s.lane l).ring.okRun + 1 ∧
      (15 ≤ (s.lane l).ring.okRun → u.flag l F.RING_STAT_TIME_OK = true) ∧ u.timeOfs = s.timeOfs) ∧
    (∀ x : Int, 10000 < x ∨ x < -10000 → l = .A ∨ s.linkUp l = false → Completes (exec (.cycleStart l (some x)) s) fun u =>
      u.timeOfs.get l = s.timeOfs.get l + Config.quot x 125 ∧ u.flag l F.RING_STAT_TIME_OK = false ∧
      (s.present l E.RING_TIME_STEP = false → u.pended l E.RING_TIME_STEP = true)) ∧
    (s.flag l F.RING_STAT_PORT_CUT = false → Completes (exec (.cut l) s) fun u => u.flag l F.RING_STAT_PORT_CUT = true ∧
      u.fld l F.RING_CNT_CUT = satAdd 8 (s.fld l F.RING_CNT_CUT) 1 ∧ u.present l E.RING_CUT = true) ∧
    (s.flag l F.RING_STAT_PORT_CUT = true → Completes (exec (.heal l) s) fun u => u.flag l F.RING_STAT_PORT_CUT = false ∧
      u.present l E.RING_CUT = false ∧ (s.present l E.RING_HEAL = false → u.pended l E.RING_HEAL = true)) ∧
    (s.flag l F.RING_STAT_ORPHAN = false → Completes (exec (.orphan l) s) fun u => u.flag l F.RING_STAT_ORPHAN = true ∧
      u.flag l F.RING_STAT_TIME_OK = false ∧ u.present l E.RING_ORPHAN = true) ∧
    (Completes (exec (.linkDelayRequest l none) s) fun u =>
      (u.lane l).ring.sent = (s.lane l).ring.sent ++ [.dq] ∧ u.fld l F.RING_DLY_LINK_DLY = s.fld l F.RING_DLY_LINK_DLY) ∧
    (∀ rt turn : Word, Completes (exec (.linkDelayRequest l (some (rt, turn))) s) fun u =>
      .dq ∈ (u.lane l).ring.sent ∧
      u.fld l F.RING_DLY_LINK_DLY = sat 16 (Config.quot ((rt.toNat : Int) - turn.toNat) 2).toNat) ∧
    ∀ turn : Word, Completes (exec (.linkDelayReply l turn) s) fun u =>
      (u.lane l).ring.sent = (s.lane l).ring.sent ++ [.dr turn]) ∧
  ∀ (s : State) (l : Lane) (q : Option Req), s.Serves l 0xA0070 q → Completes (exec (.ringClrCnt l q) s) fun u =>
    u.word l F.RING_CNT_CRC.addr = 0 ∧ u.word l F.RING_CNT2_BUSY.addr = 0 ∧ u.answered l = .ok

/-- Reads, writes, read-modify-writes and PERIODs of the host. A read returns the bytes of the word. A write with a new number is applied
and acknowledged, a number seen before is answered with its first status and a stale one with SEQ_STALE, and neither is applied. An RMW
writes (old AND mask) OR value and returns the old word. A PERIOD waits for its completion and covers the shadows written before it; one
with a payload is rejected with RANGE_ERR. -/
def Obligations.HostRequests : Prop :=
  ∀ (s : State) (l : Lane) (e : Bool) (dev : BitVec 6) (q : Req), s.arrives l e = true → s.aon.devnum = some dev → (s.lane l).dup = false →
    (∀ a : BitVec 24, a.toNat % 4 = 0 → s.turnAway l a.toNat false false = none → (∀ k, (s.lane k).waiting = []) →
      ((s.lane l).sess[q.sess]).periods.length < 16 → s.readFail l a.toNat = none →
      s.pathCut l (!e) = false → Completes (exec (.rd l e true dev l q a 4 none) s) fun u =>
        .rsp e 0x10 q.sess q.seq a .ok (wordBytes (s.wordAt l a.toNat)) ∈ (u.lane l).ring.sent) ∧
    (∀ (a : BitVec 24) (k : Nat) (g : Fin 4), k = 0x04060 ∨ k = 0x04070 ∨ k = 0x04080 → a.toNat = k + 4 * g.val →
      (s.Serves l a.toNat (some q) →
        (∀ (d : List Byte) (be : BitVec 4) (ph : BusPhase), d.length = 4 → Completes (exec (.wr l e true dev l q a be 4 d ph) s) fun u =>
          u.word l a.toNat = mergeBytes (s.word l a.toNat) (BitVec.ofNat 32 (bytesNat d)) be ∧
          .rsp e 0x11 q.sess q.seq a .ok [] ∈ (u.lane l).ring.sent ∧ ((u.lane l).sess[q.sess]).judge q.seq = .dup .ok) ∧
        ∀ (m v : Word) (ph : BusPhase), Completes (exec (.rmw l e true dev l q a m v ph) s) fun u =>
          u.word l a.toNat = (s.word l a.toNat &&& m) ||| v ∧
          .rsp e 0x12 q.sess q.seq a .ok (wordBytes (s.word l a.toNat)) ∈ (u.lane l).ring.sent) ∧
      (s.turnAway l a.toNat true false = none → (s.lane l).waiting = [] →
        (∀ (d : List Byte) (be : BitVec 4) (ph : BusPhase) (st : Status), d.length = 4 → st ≠ .busy →
          ((s.lane l).sess[q.sess]).judge q.seq = .dup st → Completes (exec (.wr l e true dev l q a be 4 d ph) s) fun u =>
            .rsp e 0x11 q.sess q.seq a st [] ∈ (u.lane l).ring.sent ∧ s.Only { parts := [.answer] } u) ∧
        ∀ (d : List Byte) (be : BitVec 4) (ph : BusPhase), d.length = 4 → ((s.lane l).sess[q.sess]).judge q.seq = .stale →
          Completes (exec (.wr l e true dev l q a be 4 d ph) s) fun u =>
            .rsp e 0x11 q.sess q.seq a .seqStale [] ∈ (u.lane l).ring.sent ∧ s.Only { parts := [.answer] } u)) ∧
    (s.turnAway l 0xA1000 true false = none → (∀ p ∈ ((s.lane l).sess[q.sess]).periods, p.seq ≠ q.seq) →
      ((s.lane l).sess[q.sess]).judge q.seq = .new → (s.lane l).waiting = [] → ((s.lane l).sess[q.sess]).periods.length < 16 →
      (Completes (exec (.period l e true dev l q 0 0) s) fun u =>
        (∃ p, ((u.lane l).sess[q.sess]).periods = ((s.lane l).sess[q.sess]).periods ++ [p] ∧ p.seq = q.seq ∧ p.ends = [e]) ∧
        ∀ h ∈ (u.lane l).shadows, h.armed = true ∨ q ∈ h.due) ∧
      ∀ n : BitVec 16, n ≠ 0 → n.toNat ≤ 256 → Completes (exec (.period l e true dev l q n n) s) fun u =>
        .rsp e 0x13 q.sess q.seq 0 .rangeErr [] ∈ (u.lane l).ring.sent ∧ u.answered l = .rangeErr)

/-- The starts of fast cycles. A lane that boots has no fast cycles. A lane in FAILED or RETEST keeps its states at a fast-cycle start. A
second overrun in a row is a self-test failure, counted and reported. A running lane ends its fast cycle with its 16 exchange words, its
state copy, which an overrun marks invalid, and its heartbeat, and they carry what the lane's registers then show. -/
def Obligations.FastCycles : Prop :=
  ∀ (s : State) (l : Lane) (caught : Option (BitVec 16 × Word)),
    (s.ready l = false → ∀ ovr, Completes (exec (.fastCycleStart l ovr caught) s) fun u => u = s) ∧
    (s.ready l = true → s.failed l = true ∨ s.self l = 4 → ∀ ovr, Completes (exec (.fastCycleStart l ovr caught) s) fun u =>
      s.Only { parts := [.red, .eng, .free] } u ∧ (∀ k n, u.word k n = s.word k n) ∧
      (0 < (s.lane l).red.failSend → ∃ h, (u.lane l).red.txHb = some h ∧ h.fail = true ∧ h.counter = (s.lane l).red.hbCnt)) ∧
    (s.ready l = true → s.failed l = false → s.self l ≠ 4 →
      (1 ≤ (s.lane l).eng.ovrFast → Completes (exec (.fastCycleStart l true caught) s) fun u =>
        u.self l = 3 ∧ u.fld l F.RED_STAT_SELF_CAUSE = 4 ∧ u.fld l F.CE_STAT_OVR_GRP = 3 ∧
        u.fld l F.CE_STAT_OVR_CNT = satAdd 16 (s.fld l F.CE_STAT_OVR_CNT) 1 ∧ (s.present l E.CE_OVERRUN = false → u.pended l E.CE_OVERRUN = true)) ∧
      ∀ ovr, (ovr = true → (s.lane l).eng.ovrFast = 0) → Completes (exec (.fastCycleStart l ovr caught) s) fun u =>
        u.failed l = false → (u.lane l).eng.txExch.length = 16 ∧
          (u.lane l).eng.txExch[7]? = some (u.word l F.FBK_SPEED_SPEED.addr) ∧
          (u.lane l).eng.txExch[12]? = some (u.word l F.RED_SHARE_ACT_SHARE.addr) ∧
          (∃ c, (u.lane l).red.txCopy = some c ∧ c.valid = !ovr ∧ c.trcState.toNat = u.sm l ∧ c.share = u.word l F.RED_SHARE_ACT_SHARE.addr ∧
            c.token = u.holdsAny l ∧ c.ibat = (u.lane l).chg.ibat) ∧
          ∃ h, (u.lane l).red.txHb = some h ∧ h.speed = u.word l F.FBK_SPEED_SPEED.addr ∧ h.state.toNat = u.self l ∧
            h.dclState.toNat = u.fld l F.DCL_STAT_STATE ∧ h.tokenPub = u.flag l F.RED_STAT_TOKEN_PUB)

/-- The starts of medium and slow cycles. A medium start loads the torque command from its wire into the command and the exchange, and an
overrun skips it and is counted. A second overrun of a group in a row fails the lane's self-test. A slow start with bad test vectors
fails it as well; else it begins the counts of one slow cycle anew and moves the stall derating by 1 %. Both do nothing in a lane that
boots. -/
def Obligations.MediumAndSlowCycles : Prop :=
  ∀ (s : State) (l : Lane),
    (s.ready l = false → (∀ ovr g, Completes (exec (.mediumCycleStart l ovr g) s) fun u => u = s) ∧
      ∀ ovr tv, Completes (exec (.slowCycleStart l ovr tv) s) fun u => u = s) ∧
    (s.ready l = true → s.failed l = false → s.self l ≠ 4 →
      (∀ g, Completes (exec (.mediumCycleStart l false g) s) fun u =>
        (u.lane l).eng.tLoad = mw (u.lane l).mem (b10Wire (Config.trcWire 0)) ∧
        ((u.lane l).eng.txExch.length = 16 → (u.lane l).eng.txExch[11]? = some (u.lane l).eng.tLoad)) ∧
      (∀ g, Completes (exec (.mediumCycleStart l true g) s) fun u =>
        (u.lane l).eng.ovrMed = (s.lane l).eng.ovrMed + 1 ∧ (u.lane l).eng.tLoad = (s.lane l).eng.tLoad ∧ u.fld l F.CE_STAT_OVR_GRP = 2 ∧
        u.fld l F.CE_STAT_OVR_CNT = satAdd 16 (s.fld l F.CE_STAT_OVR_CNT) 1 ∧
        (s.present l E.CE_OVERRUN = false → u.pended l E.CE_OVERRUN = true) ∧
        (1 ≤ (s.lane l).eng.ovrMed → u.self l = 3 ∧ u.fld l F.RED_STAT_SELF_CAUSE = 4)) ∧
      (∀ ovr, Completes (exec (.slowCycleStart l ovr false) s) fun u =>
        u.flag l F.CE_STAT_TV_OK = false ∧ u.self l = 3 ∧ u.fld l F.RED_STAT_SELF_CAUSE = 3 ∧
        (s.present l E.CE_TEST_FAIL = false → u.pended l E.CE_TEST_FAIL = true)) ∧
      ∀ ovr, Completes (exec (.slowCycleStart l ovr true) s) fun u =>
        u.flag l F.CE_STAT_TV_OK = true ∧ (u.lane l).fbk.glitch = 0 ∧ (u.lane l).red.crcErrs = 0 ∧
        (u.lane l).trc.derate = (if s.flag l F.TRC_SM_STAT_STALL_DER then
            (if s.fld l F.TRC_STALL_CFG_STALL_PCT < (s.lane l).trc.derate then (s.lane l).trc.derate - 1 else (s.lane l).trc.derate)
          else min 100 ((s.lane l).trc.derate + 1)) ∧
        (ovr = true → u.fld l F.CE_STAT_OVR_GRP = 1 ∧ (1 ≤ (s.lane l).eng.ovrSlow → u.self l = 3)))
end

