-- ==== Sys2Proof/Laws/Files.lean ====
section
/-! SUPPORT. The sparse files: read after write, canonical forms kept, and the arithmetic of register fields. -/
namespace Sys2Proof.Machine
set_option linter.all false
set_option Elab.async false

theorem RegFile.read_nil (a : Nat) : RegFile.read [] a = resetWord a := rfl

theorem RegFile.read_cons (c : Nat × Word) (t : RegFile) (a : Nat) :
    RegFile.read (c :: t) a = if c.1 = a then c.2 else RegFile.read t a := by
  simp only [RegFile.read, List.find?_cons]
  by_cases h : c.1 = a
  · simp [h]
  · rw [show (c.1 == a) = false by simp [h]]
    simp [h]

theorem RegFile.read_erase (f : RegFile) (a b : Nat) :
    (f.erase a).read b = if a = b then resetWord b else f.read b := by
  induction f with
  | nil => simp [RegFile.erase, RegFile.read_nil]
  | cons c t ih =>
    simp only [RegFile.erase]
    by_cases h : c.1 = a
    · simp only [h, beq_self_eq_true, if_true, ih, RegFile.read_cons]
      by_cases hb : a = b <;> simp [hb]
    · simp only [beq_iff_eq, h, if_false, RegFile.read_cons, ih]
      by_cases hb : a = b
      · subst hb; simp [h]
      · simp [hb]

theorem RegFile.read_insert (f : RegFile) (a : Nat) (w : Word) (b : Nat) :
    (f.insert a w).read b = if a = b then w else f.read b := by
  induction f with
  | nil => simp [RegFile.insert, RegFile.read_cons]
  | cons c t ih =>
    simp only [RegFile.insert]
    by_cases h1 : a < c.1
    · simp [h1, RegFile.read_cons]
    · by_cases h2 : a = c.1
      · simp only [h2, Nat.lt_irrefl, if_false, beq_self_eq_true, if_true, RegFile.read_cons]
        by_cases hb : c.1 = b <;> simp [hb]
      · simp only [h1, if_false, beq_iff_eq, h2, RegFile.read_cons, ih]
        by_cases hb : a = b
        · subst hb; simp [Ne.symm h2]
        · simp [hb]

/-- Read after write in a register file, at any two addresses. -/
theorem RegFile.read_write (f : RegFile) (a : Nat) (w : Word) (b : Nat) :
    (f.write a w).read b = if a = b then w else f.read b := by
  unfold RegFile.write
  by_cases h : w = resetWord a
  · simp only [h, beq_self_eq_true, if_true, RegFile.read_erase]
    by_cases hb : a = b <;> simp [hb]
  · simp [h, RegFile.read_insert]

/-- A lower bound of a canonical file's addresses. -/
def RegFile.above (lo : Option Nat) (f : RegFile) : Bool :=
  match lo, f with
  | some n, c :: _ => n < c.1
  | _, _ => true

theorem RegFile.wf_cons (c : Nat × Word) (t : RegFile) :
    RegFile.wf (c :: t) = (c.2 != resetWord c.1 && RegFile.above (some c.1) t && RegFile.wf t) := by
  cases t <;> simp [RegFile.wf, RegFile.above]

theorem RegFile.erase_wf (f : RegFile) (a : Nat) (h : f.wf = true) :
    (f.erase a).wf = true ∧ ∀ lo, RegFile.above lo f = true → RegFile.above lo (f.erase a) = true := by
  induction f with
  | nil => exact ⟨rfl, fun lo _ => by cases lo <;> rfl⟩
  | cons c t ih =>
    rw [RegFile.wf_cons] at h
    simp only [Bool.and_eq_true] at h
    obtain ⟨⟨hv, hc⟩, ht⟩ := h
    have ih := ih ht
    simp only [RegFile.erase]
    split
    · refine ⟨ih.1, fun lo hl => ih.2 lo ?_⟩
      cases lo with
      | none => rfl
      | some n =>
        cases t with
        | nil => rfl
        | cons d u => simp only [RegFile.above, decide_eq_true_eq] at *; omega
    · refine ⟨?_, fun lo hl => by cases lo <;> simpa [RegFile.above] using hl⟩
      rw [RegFile.wf_cons]
      simp only [Bool.and_eq_true]
      exact ⟨⟨hv, ih.2 _ hc⟩, ih.1⟩

theorem RegFile.insert_wf (f : RegFile) (a : Nat) (w : Word) (hw : w ≠ resetWord a) (h : f.wf = true) :
    (f.insert a w).wf = true ∧ ∀ n, n < a → RegFile.above (some n) f = true → RegFile.above (some n) (f.insert a w) = true := by
  induction f with
  | nil => exact ⟨by simp [RegFile.insert, RegFile.wf, hw], fun n hn _ => by simp [RegFile.insert, RegFile.above, hn]⟩
  | cons c t ih =>
    have h' := h
    rw [RegFile.wf_cons] at h
    simp only [Bool.and_eq_true] at h
    obtain ⟨⟨hv, hc⟩, ht⟩ := h
    have ih := ih ht
    simp only [RegFile.insert]
    by_cases h1 : a < c.1
    · simp only [h1, if_true]
      refine ⟨?_, fun n hn _ => by simp [RegFile.above, hn]⟩
      rw [RegFile.wf_cons]
      simp [RegFile.above, h1, hw, h']
    · by_cases h2 : a = c.1
      · subst h2
        simp only [Nat.lt_irrefl, if_false, beq_self_eq_true, if_true]
        refine ⟨?_, fun n hn _ => by simpa [RegFile.above] using hn⟩
        rw [RegFile.wf_cons]
        simp [hw, hc, ht]
      · simp only [h1, if_false, beq_iff_eq, h2]
        refine ⟨?_, fun n hn hl => hl⟩
        rw [RegFile.wf_cons]
        simp only [Bool.and_eq_true]
        exact ⟨⟨hv, ih.2 c.1 (by omega) hc⟩, ih.1⟩

/-- Every write keeps a register file canonical. -/
theorem RegFile.write_wf (f : RegFile) (a : Nat) (w : Word) (h : f.wf = true) : (f.write a w).wf = true := by
  unfold RegFile.write
  by_cases hw : w = resetWord a
  · simp [hw, (RegFile.erase_wf f a h).1]
  · simp [hw, (RegFile.insert_wf f a w hw h).1]

theorem memRead_erase (d : Byte) (m : List Host.Cell) (a b : Nat) :
    memRead d (memErase m a) b = if a = b then d else memRead d m b := by
  induction m with
  | nil => simp [memErase, memRead]
  | cons c t ih =>
    simp only [memErase]
    by_cases h : c.1 = a
    · simp only [h, beq_self_eq_true, if_true, ih, memRead]
      by_cases hb : a = b <;> simp [hb]
    · simp only [beq_iff_eq, h, if_false, memRead, ih]
      by_cases hb : a = b
      · subst hb; simp [h]
      · simp [hb]

theorem memRead_insert (d : Byte) (m : List Host.Cell) (a : Nat) (v : Byte) (b : Nat) :
    memRead d (memInsert m a v) b = if a = b then v else memRead d m b := by
  induction m with
  | nil => simp [memInsert, memRead]
  | cons c t ih =>
    simp only [memInsert]
    by_cases h1 : a < c.1
    · simp [h1, memRead]
    · by_cases h2 : a = c.1
      · simp only [h2, Nat.lt_irrefl, if_false, beq_self_eq_true, if_true, memRead]
        by_cases hb : c.1 = b <;> simp [hb]
      · simp only [h1, if_false, beq_iff_eq, h2, memRead, ih]
        by_cases hb : a = b
        · subst hb; simp [Ne.symm h2]
        · simp [hb]

/-- Read after write in a memory, at any two addresses. -/
theorem memRead_write (d : Byte) (m : List Host.Cell) (a : Nat) (v : Byte) (b : Nat) :
    memRead d (memWrite d m a v) b = if a = b then v else memRead d m b := by
  unfold memWrite
  by_cases h : v = d
  · simp only [h, beq_self_eq_true, if_true, memRead_erase]
  · simp [h, memRead_insert]

/-- A lower bound of a canonical memory's addresses. -/
def memAbove (n : Nat) : List Host.Cell → Bool
  | c :: _ => n < c.1
  | [] => true

theorem Memory.wf_cons (d : Byte) (c : Host.Cell) (t : List Host.Cell) :
    Memory.wf d (c :: t) = (c.2 != d && memAbove c.1 t && Memory.wf d t) := by
  cases t <;> simp [Memory.wf, memAbove]

/-- What a test drops from a canonical memory leaves it canonical. -/
theorem Memory.filter_wf (d : Byte) (p : Host.Cell → Bool) (m : List Host.Cell) (h : Memory.wf d m = true) :
    Memory.wf d (m.filter p) = true ∧ ∀ n, memAbove n m = true → memAbove n (m.filter p) = true := by
  induction m with
  | nil => exact ⟨rfl, fun _ _ => rfl⟩
  | cons c t ih =>
    rw [Memory.wf_cons] at h
    simp only [Bool.and_eq_true] at h
    obtain ⟨⟨hv, hc⟩, ht⟩ := h
    have ih := ih ht
    simp only [List.filter_cons]
    split
    · refine ⟨?_, fun n hl => hl⟩
      rw [Memory.wf_cons]
      simp only [Bool.and_eq_true]
      exact ⟨⟨hv, ih.2 _ hc⟩, ih.1⟩
    · refine ⟨ih.1, fun n hl => ih.2 n ?_⟩
      cases t with
      | nil => rfl
      | cons e u => simp only [memAbove, decide_eq_true_eq] at *; omega

theorem memErase_eq_filter (m : List Host.Cell) (a : Nat) : memErase m a = m.filter (fun c => !(c.1 == a)) := by
  induction m with
  | nil => rfl
  | cons c t ih =>
    simp only [memErase, List.filter_cons]
    by_cases h : c.1 = a <;> simp [h, ih]

theorem Memory.insert_wf (d : Byte) (m : List Host.Cell) (a : Nat) (v : Byte) (hv : v ≠ d) (h : Memory.wf d m = true) :
    Memory.wf d (memInsert m a v) = true ∧ ∀ n, n < a → memAbove n m = true → memAbove n (memInsert m a v) = true := by
  induction m with
  | nil => exact ⟨by simp [memInsert, Memory.wf, hv], fun n hn _ => by simp [memInsert, memAbove, hn]⟩
  | cons c t ih =>
    have h' := h
    rw [Memory.wf_cons] at h
    simp only [Bool.and_eq_true] at h
    obtain ⟨⟨hc2, hc⟩, ht⟩ := h
    have ih := ih ht
    simp only [memInsert]
    by_cases h1 : a < c.1
    · simp only [h1, if_true]
      refine ⟨?_, fun n hn _ => by simp [memAbove, hn]⟩
      rw [Memory.wf_cons]
      simp [memAbove, h1, hv, h']
    · by_cases h2 : a = c.1
      · subst h2
        simp only [Nat.lt_irrefl, if_false, beq_self_eq_true, if_true]
        refine ⟨?_, fun n hn _ => by simpa [memAbove] using hn⟩
        rw [Memory.wf_cons]
        simp [hv, hc, ht]
      · simp only [h1, if_false, beq_iff_eq, h2]
        refine ⟨?_, fun n hn hl => hl⟩
        rw [Memory.wf_cons]
        simp only [Bool.and_eq_true]
        exact ⟨⟨hc2, ih.2 c.1 (by omega) hc⟩, ih.1⟩

/-- Every write of a byte keeps a memory canonical. -/
theorem memWrite_wf (d : Byte) (m : List Host.Cell) (a : Nat) (v : Byte) (h : Memory.wf d m = true) :
    Memory.wf d (memWrite d m a v) = true := by
  unfold memWrite
  by_cases hv : v = d
  · simp [hv, memErase_eq_filter, (Memory.filter_wf d _ m h).1]
  · simp [hv, (Memory.insert_wf d m a v hv h).1]

theorem memWriteBytes_wf (d : Byte) (bs : List Byte) (m : List Host.Cell) (a : Nat) (h : Memory.wf d m = true) :
    Memory.wf d (memWriteBytes d m a bs) = true := by
  induction bs generalizing m a with
  | nil => exact h
  | cons b t ih => exact ih _ _ (memWrite_wf d m a b h)

theorem bits_lt (x : Word) (lo w : Nat) : bits x lo w < 2 ^ w := Nat.mod_lt _ (Nat.two_pow_pos w)

/-- The number a word becomes when a field of it is replaced. -/
theorem setBits_toNat (x : Word) (lo w v : Nat) (h : lo + w ≤ 32) :
    (setBits x lo w v).toNat =
      x.toNat / 2 ^ (lo + w) * 2 ^ (lo + w) + v % 2 ^ w * 2 ^ lo + x.toNat % 2 ^ lo := by
  have hx := x.isLt
  have e : (2 : Nat) ^ (lo + w) = 2 ^ lo * 2 ^ w := Nat.pow_add ..
  have hb : bits x lo w = x.toNat / 2 ^ lo % 2 ^ w := by simp [bits, Nat.shiftRight_eq_div_pow]
  have d1 := Nat.div_add_mod x.toNat (2 ^ lo)
  have d2 := Nat.div_add_mod (x.toNat / 2 ^ lo) (2 ^ w)
  have d3 : x.toNat / 2 ^ (lo + w) = x.toNat / 2 ^ lo / 2 ^ w := by rw [e, Nat.div_div_eq_div_mul]
  have hv : v % 2 ^ w < 2 ^ w := Nat.mod_lt _ (Nat.two_pow_pos w)
  have hm : x.toNat % 2 ^ lo < 2 ^ lo := Nat.mod_lt _ (Nat.two_pow_pos lo)
  obtain ⟨q, hq⟩ : ∃ q, q = x.toNat / 2 ^ lo / 2 ^ w := ⟨_, rfl⟩
  obtain ⟨r, hr⟩ : ∃ r, r = x.toNat / 2 ^ lo % 2 ^ w := ⟨_, rfl⟩
  obtain ⟨m, hmm⟩ : ∃ m, m = x.toNat % 2 ^ lo := ⟨_, rfl⟩
  rw [← hq, ← hr] at d2
  rw [← d2, ← hmm] at d1
  have e2 : 2 ^ lo * (2 ^ w * q + r) = q * (2 ^ lo * 2 ^ w) + r * 2 ^ lo := by
    rw [Nat.mul_add]
    rw [show 2 ^ lo * (2 ^ w * q) = q * (2 ^ lo * 2 ^ w) by rw [← Nat.mul_assoc, Nat.mul_comm]]
    rw [Nat.mul_comm (2 ^ lo) r]
  have total : q * (2 ^ lo * 2 ^ w) + v % 2 ^ w * 2 ^ lo + m < 2 ^ 32 := by
    have hle : (2 : Nat) ^ (lo + w) * 2 ^ (32 - (lo + w)) = 2 ^ 32 := by rw [← Nat.pow_add]; congr 1; omega
    have hq2 : q < 2 ^ (32 - (lo + w)) := by
      have : q = x.toNat / 2 ^ (lo + w) := by rw [hq, d3]
      rw [this]
      exact Nat.div_lt_of_lt_mul (by rw [hle]; exact hx)
    have hq3 : (q + 1) * 2 ^ (lo + w) ≤ 2 ^ 32 := by
      rw [← hle, Nat.mul_comm (2 ^ (lo + w))]; exact Nat.mul_le_mul_right _ hq2
    have h4 : (v % 2 ^ w + 1) * 2 ^ lo ≤ 2 ^ w * 2 ^ lo := Nat.mul_le_mul_right _ hv
    have h5 : v % 2 ^ w * 2 ^ lo + m < 2 ^ lo * 2 ^ w := by
      rw [Nat.add_mul, Nat.one_mul] at h4
      rw [Nat.mul_comm (2 ^ w)] at h4
      omega
    rw [e, Nat.add_mul, Nat.one_mul] at hq3
    omega
  rw [setBits, BitVec.toNat_ofNat, hb, ← hr, d3, ← hq, e, ← hmm]
  have : x.toNat - r * 2 ^ lo + v % 2 ^ w * 2 ^ lo = q * (2 ^ lo * 2 ^ w) + v % 2 ^ w * 2 ^ lo + m := by
    rw [e2] at d1; omega
  rw [this, Nat.mod_eq_of_lt total]

/-- A field reads back what was set in it. -/
theorem bits_setBits_same (x : Word) (lo w v : Nat) (h : lo + w ≤ 32) : bits (setBits x lo w v) lo w = v % 2 ^ w := by
  have e : (2 : Nat) ^ (lo + w) = 2 ^ lo * 2 ^ w := Nat.pow_add ..
  rw [bits, setBits_toNat x lo w v h, Nat.shiftRight_eq_div_pow]
  have hm : x.toNat % 2 ^ lo < 2 ^ lo := Nat.mod_lt _ (Nat.two_pow_pos lo)
  have : x.toNat / 2 ^ (lo + w) * 2 ^ (lo + w) + v % 2 ^ w * 2 ^ lo + x.toNat % 2 ^ lo =
      x.toNat % 2 ^ lo + 2 ^ lo * (x.toNat / 2 ^ (lo + w) * 2 ^ w + v % 2 ^ w) := by
    rw [e, Nat.mul_add]
    rw [show x.toNat / (2 ^ lo * 2 ^ w) * (2 ^ lo * 2 ^ w) = 2 ^ lo * (x.toNat / (2 ^ lo * 2 ^ w) * 2 ^ w) by
      rw [Nat.mul_left_comm]]
    rw [Nat.mul_comm (v % 2 ^ w)]
    omega
  rw [this, Nat.add_mul_div_left _ _ (Nat.two_pow_pos lo), Nat.div_eq_of_lt hm, Nat.zero_add,
    Nat.mul_add_mod_self_right, Nat.mod_mod]

/-- A field apart from the one set keeps its value. -/
theorem bits_setBits_apart (x : Word) (lo w v lo' w' : Nat) (h : lo + w ≤ 32) (ha : lo' + w' ≤ lo ∨ lo + w ≤ lo') :
    bits (setBits x lo w v) lo' w' = bits x lo' w' := by
  have e : (2 : Nat) ^ (lo + w) = 2 ^ lo * 2 ^ w := Nat.pow_add ..
  have hm : x.toNat % 2 ^ lo < 2 ^ lo := Nat.mod_lt _ (Nat.two_pow_pos lo)
  have hv : v % 2 ^ w < 2 ^ w := Nat.mod_lt _ (Nat.two_pow_pos w)
  rw [bits, bits, setBits_toNat x lo w v h, Nat.shiftRight_eq_div_pow, Nat.shiftRight_eq_div_pow]
  rcases ha with ha | ha
  · have hk : (2 : Nat) ^ lo = 2 ^ (lo' + w') * 2 ^ (lo - (lo' + w')) := by rw [← Nat.pow_add]; congr 1; omega
    have key : ∀ y : Nat, y / 2 ^ lo' % 2 ^ w' = y % 2 ^ (lo' + w') / 2 ^ lo' := by
      intro y; rw [Nat.pow_add, Nat.mod_mul_right_div_self]
    rw [key, key]
    congr 1
    rw [e, hk]
    rw [show x.toNat / (2 ^ (lo' + w') * 2 ^ (lo - (lo' + w')) * 2 ^ w) * (2 ^ (lo' + w') * 2 ^ (lo - (lo' + w')) * 2 ^ w) +
        v % 2 ^ w * (2 ^ (lo' + w') * 2 ^ (lo - (lo' + w'))) + x.toNat % (2 ^ (lo' + w') * 2 ^ (lo - (lo' + w'))) =
        x.toNat % (2 ^ (lo' + w') * 2 ^ (lo - (lo' + w'))) + 2 ^ (lo' + w') *
          (x.toNat / (2 ^ (lo' + w') * 2 ^ (lo - (lo' + w')) * 2 ^ w) * (2 ^ (lo - (lo' + w')) * 2 ^ w) +
            v % 2 ^ w * 2 ^ (lo - (lo' + w'))) by
      rw [Nat.mul_add]
      simp only [Nat.mul_assoc, Nat.mul_left_comm, Nat.mul_comm]
      simp only [Nat.add_comm, Nat.add_left_comm]]
    rw [Nat.add_mul_mod_self_left, Nat.mod_mul_right_mod]
  · have hlt : v % 2 ^ w * 2 ^ lo + x.toNat % 2 ^ lo < 2 ^ (lo + w) := by
      have h4 : (v % 2 ^ w + 1) * 2 ^ lo ≤ 2 ^ w * 2 ^ lo := Nat.mul_le_mul_right _ hv
      rw [Nat.add_mul, Nat.one_mul] at h4
      rw [e, Nat.mul_comm (2 ^ lo)]
      omega
    have hk : (2 : Nat) ^ lo' = 2 ^ (lo + w) * 2 ^ (lo' - (lo + w)) := by rw [← Nat.pow_add]; congr 1; omega
    rw [hk, ← Nat.div_div_eq_div_mul, ← Nat.div_div_eq_div_mul, Nat.add_assoc, Nat.mul_comm _ (2 ^ (lo + w)),
      Nat.mul_add_div (Nat.two_pow_pos _), Nat.div_eq_of_lt hlt, Nat.add_zero]

end Sys2Proof.Machine
end

