-- ==== Sys2Proof/Laws/State.lean ====
section
/-! SUPPORT. What each update of the state changes and what it leaves: one lemma per field per update, and read after write for
registers and fields. -/
namespace Sys2Proof.Machine

@[simp] theorem PerLane.get_set_same {α : Type} (p : PerLane α) (l : Lane) (v : α) : (p.set l v).get l = v := by
  cases l <;> rfl

theorem PerLane.get_set {α : Type} (p : PerLane α) (l k : Lane) (v : α) :
    (p.set l v).get k = if k = l then v else p.get k := by
  cases l <;> cases k <;> rfl

theorem State.lane_setLane (s : State) (l k : Lane) (x : LaneState) :
    (s.setLane l x).lane k = if k = l then x else s.lane k := PerLane.get_set ..

@[simp] theorem State.lane_modLane_same (s : State) (l : Lane) (f : LaneState → LaneState) :
    (s.modLane l f).lane l = f (s.lane l) := PerLane.get_set_same ..

theorem State.lane_modLane (s : State) (l k : Lane) (f : LaneState → LaneState) :
    (s.modLane l f).lane k = if k = l then f (s.lane k) else s.lane k := by
  cases l <;> cases k <;> rfl

@[simp] theorem Lane.other_ne (l : Lane) : l.other ≠ l := by cases l <;> decide

@[simp] theorem Lane.ne_other (l : Lane) : l ≠ l.other := by cases l <;> decide

@[simp] theorem State.lane_modLane_other (s : State) (l : Lane) (f : LaneState → LaneState) :
    (s.modLane l f).lane l.other = s.lane l.other := by cases l <;> rfl

@[simp] theorem State.lane_modLane_of_other (s : State) (l : Lane) (f : LaneState → LaneState) :
    (s.modLane l.other f).lane l = s.lane l := by cases l <;> rfl

@[simp] theorem State.modLane_time (s : State) (l : Lane) (f : LaneState → LaneState) : (s.modLane l f).time = s.time := rfl
@[simp] theorem State.modLane_timeOfs (s : State) (l : Lane) (f : LaneState → LaneState) : (s.modLane l f).timeOfs = s.timeOfs := rfl
@[simp] theorem State.modLane_mon (s : State) (l : Lane) (f : LaneState → LaneState) : (s.modLane l f).mon = s.mon := rfl
@[simp] theorem State.modLane_hv (s : State) (l : Lane) (f : LaneState → LaneState) : (s.modLane l f).hv = s.hv := rfl
@[simp] theorem State.modLane_lv (s : State) (l : Lane) (f : LaneState → LaneState) : (s.modLane l f).lv = s.lv := rfl
@[simp] theorem State.modLane_sns (s : State) (l : Lane) (f : LaneState → LaneState) : (s.modLane l f).sns = s.sns := rfl
@[simp] theorem State.modLane_aon (s : State) (l : Lane) (f : LaneState → LaneState) : (s.modLane l f).aon = s.aon := rfl
@[simp] theorem State.modLane_free (s : State) (l : Lane) (f : LaneState → LaneState) : (s.modLane l f).free = s.free := rfl
@[simp] theorem State.modLane_pending (s : State) (l : Lane) (f : LaneState → LaneState) : (s.modLane l f).pending = s.pending := rfl
@[simp] theorem State.modMon_time (s : State) (f : MonState → MonState) : (s.modMon f).time = s.time := rfl
@[simp] theorem State.modMon_timeOfs (s : State) (f : MonState → MonState) : (s.modMon f).timeOfs = s.timeOfs := rfl
@[simp] theorem State.modMon_lanes (s : State) (f : MonState → MonState) : (s.modMon f).lanes = s.lanes := rfl
@[simp] theorem State.modMon_hv (s : State) (f : MonState → MonState) : (s.modMon f).hv = s.hv := rfl
@[simp] theorem State.modMon_lv (s : State) (f : MonState → MonState) : (s.modMon f).lv = s.lv := rfl
@[simp] theorem State.modMon_sns (s : State) (f : MonState → MonState) : (s.modMon f).sns = s.sns := rfl
@[simp] theorem State.modMon_aon (s : State) (f : MonState → MonState) : (s.modMon f).aon = s.aon := rfl
@[simp] theorem State.modMon_free (s : State) (f : MonState → MonState) : (s.modMon f).free = s.free := rfl
@[simp] theorem State.modMon_pending (s : State) (f : MonState → MonState) : (s.modMon f).pending = s.pending := rfl
@[simp] theorem State.modMon_mon (s : State) (f : MonState → MonState) : (s.modMon f).mon = f s.mon := rfl
@[simp] theorem State.modMon_lane (s : State) (f : MonState → MonState) (l : Lane) : (s.modMon f).lane l = s.lane l := rfl
@[simp] theorem State.modHv_time (s : State) (n : Fin 34) (f : HvIsl → HvIsl) : (s.modHv n f).time = s.time := rfl
@[simp] theorem State.modHv_timeOfs (s : State) (n : Fin 34) (f : HvIsl → HvIsl) : (s.modHv n f).timeOfs = s.timeOfs := rfl
@[simp] theorem State.modHv_lanes (s : State) (n : Fin 34) (f : HvIsl → HvIsl) : (s.modHv n f).lanes = s.lanes := rfl
@[simp] theorem State.modHv_mon (s : State) (n : Fin 34) (f : HvIsl → HvIsl) : (s.modHv n f).mon = s.mon := rfl
@[simp] theorem State.modHv_lv (s : State) (n : Fin 34) (f : HvIsl → HvIsl) : (s.modHv n f).lv = s.lv := rfl
@[simp] theorem State.modHv_sns (s : State) (n : Fin 34) (f : HvIsl → HvIsl) : (s.modHv n f).sns = s.sns := rfl
@[simp] theorem State.modHv_aon (s : State) (n : Fin 34) (f : HvIsl → HvIsl) : (s.modHv n f).aon = s.aon := rfl
@[simp] theorem State.modHv_free (s : State) (n : Fin 34) (f : HvIsl → HvIsl) : (s.modHv n f).free = s.free := rfl
@[simp] theorem State.modHv_pending (s : State) (n : Fin 34) (f : HvIsl → HvIsl) : (s.modHv n f).pending = s.pending := rfl
@[simp] theorem State.modHv_lane (s : State) (n : Fin 34) (f : HvIsl → HvIsl) (l : Lane) : (s.modHv n f).lane l = s.lane l := rfl
@[simp] theorem State.modHv_hv (s : State) (n : Fin 34) (f : HvIsl → HvIsl) : (s.modHv n f).hv = s.hv.set n (f s.hv[n]) := rfl
@[simp] theorem State.modLv_time (s : State) (f : LvIsl → LvIsl) : (s.modLv f).time = s.time := rfl
@[simp] theorem State.modLv_timeOfs (s : State) (f : LvIsl → LvIsl) : (s.modLv f).timeOfs = s.timeOfs := rfl
@[simp] theorem State.modLv_lanes (s : State) (f : LvIsl → LvIsl) : (s.modLv f).lanes = s.lanes := rfl
@[simp] theorem State.modLv_mon (s : State) (f : LvIsl → LvIsl) : (s.modLv f).mon = s.mon := rfl
@[simp] theorem State.modLv_hv (s : State) (f : LvIsl → LvIsl) : (s.modLv f).hv = s.hv := rfl
@[simp] theorem State.modLv_sns (s : State) (f : LvIsl → LvIsl) : (s.modLv f).sns = s.sns := rfl
@[simp] theorem State.modLv_aon (s : State) (f : LvIsl → LvIsl) : (s.modLv f).aon = s.aon := rfl
@[simp] theorem State.modLv_free (s : State) (f : LvIsl → LvIsl) : (s.modLv f).free = s.free := rfl
@[simp] theorem State.modLv_pending (s : State) (f : LvIsl → LvIsl) : (s.modLv f).pending = s.pending := rfl
@[simp] theorem State.modLv_lane (s : State) (f : LvIsl → LvIsl) (l : Lane) : (s.modLv f).lane l = s.lane l := rfl
@[simp] theorem State.modLv_lv (s : State) (f : LvIsl → LvIsl) : (s.modLv f).lv = f s.lv := rfl
@[simp] theorem State.modAon_time (s : State) (f : Aon → Aon) : (s.modAon f).time = s.time := rfl
@[simp] theorem State.modAon_timeOfs (s : State) (f : Aon → Aon) : (s.modAon f).timeOfs = s.timeOfs := rfl
@[simp] theorem State.modAon_lanes (s : State) (f : Aon → Aon) : (s.modAon f).lanes = s.lanes := rfl
@[simp] theorem State.modAon_mon (s : State) (f : Aon → Aon) : (s.modAon f).mon = s.mon := rfl
@[simp] theorem State.modAon_hv (s : State) (f : Aon → Aon) : (s.modAon f).hv = s.hv := rfl
@[simp] theorem State.modAon_lv (s : State) (f : Aon → Aon) : (s.modAon f).lv = s.lv := rfl
@[simp] theorem State.modAon_sns (s : State) (f : Aon → Aon) : (s.modAon f).sns = s.sns := rfl
@[simp] theorem State.modAon_free (s : State) (f : Aon → Aon) : (s.modAon f).free = s.free := rfl
@[simp] theorem State.modAon_pending (s : State) (f : Aon → Aon) : (s.modAon f).pending = s.pending := rfl
@[simp] theorem State.modAon_lane (s : State) (f : Aon → Aon) (k : Lane) : (s.modAon f).lane k = s.lane k := rfl
@[simp] theorem State.word_modAon (s : State) (f : Aon → Aon) (k : Lane) (a : Nat) : (s.modAon f).word k a = s.word k a := rfl
@[simp] theorem State.modSns_time (s : State) (n : Fin 7) (f : SnsIsl → SnsIsl) : (s.modSns n f).time = s.time := rfl
@[simp] theorem State.modSns_timeOfs (s : State) (n : Fin 7) (f : SnsIsl → SnsIsl) : (s.modSns n f).timeOfs = s.timeOfs := rfl
@[simp] theorem State.modSns_lanes (s : State) (n : Fin 7) (f : SnsIsl → SnsIsl) : (s.modSns n f).lanes = s.lanes := rfl
@[simp] theorem State.modSns_mon (s : State) (n : Fin 7) (f : SnsIsl → SnsIsl) : (s.modSns n f).mon = s.mon := rfl
@[simp] theorem State.modSns_hv (s : State) (n : Fin 7) (f : SnsIsl → SnsIsl) : (s.modSns n f).hv = s.hv := rfl
@[simp] theorem State.modSns_lv (s : State) (n : Fin 7) (f : SnsIsl → SnsIsl) : (s.modSns n f).lv = s.lv := rfl
@[simp] theorem State.modSns_aon (s : State) (n : Fin 7) (f : SnsIsl → SnsIsl) : (s.modSns n f).aon = s.aon := rfl
@[simp] theorem State.modSns_free (s : State) (n : Fin 7) (f : SnsIsl → SnsIsl) : (s.modSns n f).free = s.free := rfl
@[simp] theorem State.modSns_pending (s : State) (n : Fin 7) (f : SnsIsl → SnsIsl) : (s.modSns n f).pending = s.pending := rfl
@[simp] theorem State.modSns_lane (s : State) (n : Fin 7) (f : SnsIsl → SnsIsl) (k : Lane) : (s.modSns n f).lane k = s.lane k := rfl
@[simp] theorem State.word_modSns (s : State) (n : Fin 7) (f : SnsIsl → SnsIsl) (k : Lane) (a : Nat) : (s.modSns n f).word k a = s.word k a := rfl
@[simp] theorem State.modOfs_time (s : State) (l : Lane) (f : Int → Int) : (s.modOfs l f).time = s.time := rfl
@[simp] theorem State.modOfs_lanes (s : State) (l : Lane) (f : Int → Int) : (s.modOfs l f).lanes = s.lanes := rfl
@[simp] theorem State.modOfs_mon (s : State) (l : Lane) (f : Int → Int) : (s.modOfs l f).mon = s.mon := rfl
@[simp] theorem State.modOfs_hv (s : State) (l : Lane) (f : Int → Int) : (s.modOfs l f).hv = s.hv := rfl
@[simp] theorem State.modOfs_lv (s : State) (l : Lane) (f : Int → Int) : (s.modOfs l f).lv = s.lv := rfl
@[simp] theorem State.modOfs_sns (s : State) (l : Lane) (f : Int → Int) : (s.modOfs l f).sns = s.sns := rfl
@[simp] theorem State.modOfs_aon (s : State) (l : Lane) (f : Int → Int) : (s.modOfs l f).aon = s.aon := rfl
@[simp] theorem State.modOfs_free (s : State) (l : Lane) (f : Int → Int) : (s.modOfs l f).free = s.free := rfl
@[simp] theorem State.modOfs_pending (s : State) (l : Lane) (f : Int → Int) : (s.modOfs l f).pending = s.pending := rfl
@[simp] theorem State.modOfs_lane (s : State) (l : Lane) (f : Int → Int) (k : Lane) : (s.modOfs l f).lane k = s.lane k := rfl
@[simp] theorem State.word_modOfs (s : State) (l : Lane) (f : Int → Int) (k : Lane) (a : Nat) : (s.modOfs l f).word k a = s.word k a := rfl
@[simp] theorem State.modAon_aon (s : State) (f : Aon → Aon) : (s.modAon f).aon = f s.aon := rfl
@[simp] theorem State.modSns_sns (s : State) (n : Fin 7) (f : SnsIsl → SnsIsl) : (s.modSns n f).sns = s.sns.set n (f s.sns[n]) := rfl

/-- What an island holds after an island is changed. -/
theorem State.modHv_get (s : State) (n m : Fin 34) (f : HvIsl → HvIsl) :
    (s.modHv n f).hv[m] = if n = m then f s.hv[n] else s.hv[m] := by
  rw [State.modHv_hv]
  by_cases h : n = m
  · subst h; simp
  · have : n.val ≠ m.val := fun e => h (Fin.ext e)
    simp [h, Vector.getElem_set, this]

@[simp] theorem State.modHv_same (s : State) (n : Fin 34) (f : HvIsl → HvIsl) : (s.modHv n f).hv[n] = f s.hv[n] := by
  simp [State.modHv_get]

/-- A lane's stored words are kept by an update that keeps its file. -/
theorem State.word_modLane (s : State) (l k : Lane) (f : LaneState → LaneState) (a : Nat)
    (h : (f (s.lane l)).regs = (s.lane l).regs) : (s.modLane l f).word k a = s.word k a := by
  cases l <;> cases k <;> unfold State.word <;> split <;> first | rfl | (exact congrArg (fun r => RegFile.read r a) h)

@[simp] theorem State.word_modRed (s : State) (l k : Lane) (f : RedState → RedState) (a : Nat) :
    (s.modRed l f).word k a = s.word k a := State.word_modLane _ _ _ _ _ rfl
@[simp] theorem State.lane_modRed (s : State) (l : Lane) (f : RedState → RedState) :
    (s.modRed l f).lane l = { s.lane l with red := f (s.lane l).red } := State.lane_modLane_same ..
@[simp] theorem State.lane_modRed_other (s : State) (l : Lane) (f : RedState → RedState) :
    (s.modRed l f).lane l.other = s.lane l.other := State.lane_modLane_other ..
@[simp] theorem State.modRed_time (s : State) (l : Lane) (f : RedState → RedState) : (s.modRed l f).time = s.time := rfl
@[simp] theorem State.modRed_timeOfs (s : State) (l : Lane) (f : RedState → RedState) : (s.modRed l f).timeOfs = s.timeOfs := rfl
@[simp] theorem State.modRed_mon (s : State) (l : Lane) (f : RedState → RedState) : (s.modRed l f).mon = s.mon := rfl
@[simp] theorem State.modRed_hv (s : State) (l : Lane) (f : RedState → RedState) : (s.modRed l f).hv = s.hv := rfl
@[simp] theorem State.modRed_lv (s : State) (l : Lane) (f : RedState → RedState) : (s.modRed l f).lv = s.lv := rfl
@[simp] theorem State.modRed_sns (s : State) (l : Lane) (f : RedState → RedState) : (s.modRed l f).sns = s.sns := rfl
@[simp] theorem State.modRed_aon (s : State) (l : Lane) (f : RedState → RedState) : (s.modRed l f).aon = s.aon := rfl
@[simp] theorem State.modRed_free (s : State) (l : Lane) (f : RedState → RedState) : (s.modRed l f).free = s.free := rfl
@[simp] theorem State.modRed_pending (s : State) (l : Lane) (f : RedState → RedState) : (s.modRed l f).pending = s.pending := rfl
@[simp] theorem State.word_modTrc (s : State) (l k : Lane) (f : TrcState → TrcState) (a : Nat) :
    (s.modTrc l f).word k a = s.word k a := State.word_modLane _ _ _ _ _ rfl
@[simp] theorem State.lane_modTrc (s : State) (l : Lane) (f : TrcState → TrcState) :
    (s.modTrc l f).lane l = { s.lane l with trc := f (s.lane l).trc } := State.lane_modLane_same ..
@[simp] theorem State.lane_modTrc_other (s : State) (l : Lane) (f : TrcState → TrcState) :
    (s.modTrc l f).lane l.other = s.lane l.other := State.lane_modLane_other ..
@[simp] theorem State.modTrc_time (s : State) (l : Lane) (f : TrcState → TrcState) : (s.modTrc l f).time = s.time := rfl
@[simp] theorem State.modTrc_timeOfs (s : State) (l : Lane) (f : TrcState → TrcState) : (s.modTrc l f).timeOfs = s.timeOfs := rfl
@[simp] theorem State.modTrc_mon (s : State) (l : Lane) (f : TrcState → TrcState) : (s.modTrc l f).mon = s.mon := rfl
@[simp] theorem State.modTrc_hv (s : State) (l : Lane) (f : TrcState → TrcState) : (s.modTrc l f).hv = s.hv := rfl
@[simp] theorem State.modTrc_lv (s : State) (l : Lane) (f : TrcState → TrcState) : (s.modTrc l f).lv = s.lv := rfl
@[simp] theorem State.modTrc_sns (s : State) (l : Lane) (f : TrcState → TrcState) : (s.modTrc l f).sns = s.sns := rfl
@[simp] theorem State.modTrc_aon (s : State) (l : Lane) (f : TrcState → TrcState) : (s.modTrc l f).aon = s.aon := rfl
@[simp] theorem State.modTrc_free (s : State) (l : Lane) (f : TrcState → TrcState) : (s.modTrc l f).free = s.free := rfl
@[simp] theorem State.modTrc_pending (s : State) (l : Lane) (f : TrcState → TrcState) : (s.modTrc l f).pending = s.pending := rfl
@[simp] theorem State.word_modEng (s : State) (l k : Lane) (f : EngState → EngState) (a : Nat) :
    (s.modEng l f).word k a = s.word k a := State.word_modLane _ _ _ _ _ rfl
@[simp] theorem State.lane_modEng (s : State) (l : Lane) (f : EngState → EngState) :
    (s.modEng l f).lane l = { s.lane l with eng := f (s.lane l).eng } := State.lane_modLane_same ..
@[simp] theorem State.lane_modEng_other (s : State) (l : Lane) (f : EngState → EngState) :
    (s.modEng l f).lane l.other = s.lane l.other := State.lane_modLane_other ..
@[simp] theorem State.modEng_time (s : State) (l : Lane) (f : EngState → EngState) : (s.modEng l f).time = s.time := rfl
@[simp] theorem State.modEng_timeOfs (s : State) (l : Lane) (f : EngState → EngState) : (s.modEng l f).timeOfs = s.timeOfs := rfl
@[simp] theorem State.modEng_mon (s : State) (l : Lane) (f : EngState → EngState) : (s.modEng l f).mon = s.mon := rfl
@[simp] theorem State.modEng_hv (s : State) (l : Lane) (f : EngState → EngState) : (s.modEng l f).hv = s.hv := rfl
@[simp] theorem State.modEng_lv (s : State) (l : Lane) (f : EngState → EngState) : (s.modEng l f).lv = s.lv := rfl
@[simp] theorem State.modEng_sns (s : State) (l : Lane) (f : EngState → EngState) : (s.modEng l f).sns = s.sns := rfl
@[simp] theorem State.modEng_aon (s : State) (l : Lane) (f : EngState → EngState) : (s.modEng l f).aon = s.aon := rfl
@[simp] theorem State.modEng_free (s : State) (l : Lane) (f : EngState → EngState) : (s.modEng l f).free = s.free := rfl
@[simp] theorem State.modEng_pending (s : State) (l : Lane) (f : EngState → EngState) : (s.modEng l f).pending = s.pending := rfl
@[simp] theorem State.word_modFbk (s : State) (l k : Lane) (f : FbkState → FbkState) (a : Nat) :
    (s.modFbk l f).word k a = s.word k a := State.word_modLane _ _ _ _ _ rfl
@[simp] theorem State.lane_modFbk (s : State) (l : Lane) (f : FbkState → FbkState) :
    (s.modFbk l f).lane l = { s.lane l with fbk := f (s.lane l).fbk } := State.lane_modLane_same ..
@[simp] theorem State.lane_modFbk_other (s : State) (l : Lane) (f : FbkState → FbkState) :
    (s.modFbk l f).lane l.other = s.lane l.other := State.lane_modLane_other ..
@[simp] theorem State.modFbk_time (s : State) (l : Lane) (f : FbkState → FbkState) : (s.modFbk l f).time = s.time := rfl
@[simp] theorem State.modFbk_timeOfs (s : State) (l : Lane) (f : FbkState → FbkState) : (s.modFbk l f).timeOfs = s.timeOfs := rfl
@[simp] theorem State.modFbk_mon (s : State) (l : Lane) (f : FbkState → FbkState) : (s.modFbk l f).mon = s.mon := rfl
@[simp] theorem State.modFbk_hv (s : State) (l : Lane) (f : FbkState → FbkState) : (s.modFbk l f).hv = s.hv := rfl
@[simp] theorem State.modFbk_lv (s : State) (l : Lane) (f : FbkState → FbkState) : (s.modFbk l f).lv = s.lv := rfl
@[simp] theorem State.modFbk_sns (s : State) (l : Lane) (f : FbkState → FbkState) : (s.modFbk l f).sns = s.sns := rfl
@[simp] theorem State.modFbk_aon (s : State) (l : Lane) (f : FbkState → FbkState) : (s.modFbk l f).aon = s.aon := rfl
@[simp] theorem State.modFbk_free (s : State) (l : Lane) (f : FbkState → FbkState) : (s.modFbk l f).free = s.free := rfl
@[simp] theorem State.modFbk_pending (s : State) (l : Lane) (f : FbkState → FbkState) : (s.modFbk l f).pending = s.pending := rfl
@[simp] theorem State.word_modSmp (s : State) (l k : Lane) (f : SmpState → SmpState) (a : Nat) :
    (s.modSmp l f).word k a = s.word k a := State.word_modLane _ _ _ _ _ rfl
@[simp] theorem State.lane_modSmp (s : State) (l : Lane) (f : SmpState → SmpState) :
    (s.modSmp l f).lane l = { s.lane l with smp := f (s.lane l).smp } := State.lane_modLane_same ..
@[simp] theorem State.lane_modSmp_other (s : State) (l : Lane) (f : SmpState → SmpState) :
    (s.modSmp l f).lane l.other = s.lane l.other := State.lane_modLane_other ..
@[simp] theorem State.modSmp_time (s : State) (l : Lane) (f : SmpState → SmpState) : (s.modSmp l f).time = s.time := rfl
@[simp] theorem State.modSmp_timeOfs (s : State) (l : Lane) (f : SmpState → SmpState) : (s.modSmp l f).timeOfs = s.timeOfs := rfl
@[simp] theorem State.modSmp_mon (s : State) (l : Lane) (f : SmpState → SmpState) : (s.modSmp l f).mon = s.mon := rfl
@[simp] theorem State.modSmp_hv (s : State) (l : Lane) (f : SmpState → SmpState) : (s.modSmp l f).hv = s.hv := rfl
@[simp] theorem State.modSmp_lv (s : State) (l : Lane) (f : SmpState → SmpState) : (s.modSmp l f).lv = s.lv := rfl
@[simp] theorem State.modSmp_sns (s : State) (l : Lane) (f : SmpState → SmpState) : (s.modSmp l f).sns = s.sns := rfl
@[simp] theorem State.modSmp_aon (s : State) (l : Lane) (f : SmpState → SmpState) : (s.modSmp l f).aon = s.aon := rfl
@[simp] theorem State.modSmp_free (s : State) (l : Lane) (f : SmpState → SmpState) : (s.modSmp l f).free = s.free := rfl
@[simp] theorem State.modSmp_pending (s : State) (l : Lane) (f : SmpState → SmpState) : (s.modSmp l f).pending = s.pending := rfl
@[simp] theorem State.word_modDcl (s : State) (l k : Lane) (f : DclState → DclState) (a : Nat) :
    (s.modDcl l f).word k a = s.word k a := State.word_modLane _ _ _ _ _ rfl
@[simp] theorem State.lane_modDcl (s : State) (l : Lane) (f : DclState → DclState) :
    (s.modDcl l f).lane l = { s.lane l with dcl := f (s.lane l).dcl } := State.lane_modLane_same ..
@[simp] theorem State.lane_modDcl_other (s : State) (l : Lane) (f : DclState → DclState) :
    (s.modDcl l f).lane l.other = s.lane l.other := State.lane_modLane_other ..
@[simp] theorem State.modDcl_time (s : State) (l : Lane) (f : DclState → DclState) : (s.modDcl l f).time = s.time := rfl
@[simp] theorem State.modDcl_timeOfs (s : State) (l : Lane) (f : DclState → DclState) : (s.modDcl l f).timeOfs = s.timeOfs := rfl
@[simp] theorem State.modDcl_mon (s : State) (l : Lane) (f : DclState → DclState) : (s.modDcl l f).mon = s.mon := rfl
@[simp] theorem State.modDcl_hv (s : State) (l : Lane) (f : DclState → DclState) : (s.modDcl l f).hv = s.hv := rfl
@[simp] theorem State.modDcl_lv (s : State) (l : Lane) (f : DclState → DclState) : (s.modDcl l f).lv = s.lv := rfl
@[simp] theorem State.modDcl_sns (s : State) (l : Lane) (f : DclState → DclState) : (s.modDcl l f).sns = s.sns := rfl
@[simp] theorem State.modDcl_aon (s : State) (l : Lane) (f : DclState → DclState) : (s.modDcl l f).aon = s.aon := rfl
@[simp] theorem State.modDcl_free (s : State) (l : Lane) (f : DclState → DclState) : (s.modDcl l f).free = s.free := rfl
@[simp] theorem State.modDcl_pending (s : State) (l : Lane) (f : DclState → DclState) : (s.modDcl l f).pending = s.pending := rfl
@[simp] theorem State.word_modChg (s : State) (l k : Lane) (f : ChgState → ChgState) (a : Nat) :
    (s.modChg l f).word k a = s.word k a := State.word_modLane _ _ _ _ _ rfl
@[simp] theorem State.lane_modChg (s : State) (l : Lane) (f : ChgState → ChgState) :
    (s.modChg l f).lane l = { s.lane l with chg := f (s.lane l).chg } := State.lane_modLane_same ..
@[simp] theorem State.lane_modChg_other (s : State) (l : Lane) (f : ChgState → ChgState) :
    (s.modChg l f).lane l.other = s.lane l.other := State.lane_modLane_other ..
@[simp] theorem State.modChg_time (s : State) (l : Lane) (f : ChgState → ChgState) : (s.modChg l f).time = s.time := rfl
@[simp] theorem State.modChg_timeOfs (s : State) (l : Lane) (f : ChgState → ChgState) : (s.modChg l f).timeOfs = s.timeOfs := rfl
@[simp] theorem State.modChg_mon (s : State) (l : Lane) (f : ChgState → ChgState) : (s.modChg l f).mon = s.mon := rfl
@[simp] theorem State.modChg_hv (s : State) (l : Lane) (f : ChgState → ChgState) : (s.modChg l f).hv = s.hv := rfl
@[simp] theorem State.modChg_lv (s : State) (l : Lane) (f : ChgState → ChgState) : (s.modChg l f).lv = s.lv := rfl
@[simp] theorem State.modChg_sns (s : State) (l : Lane) (f : ChgState → ChgState) : (s.modChg l f).sns = s.sns := rfl
@[simp] theorem State.modChg_aon (s : State) (l : Lane) (f : ChgState → ChgState) : (s.modChg l f).aon = s.aon := rfl
@[simp] theorem State.modChg_free (s : State) (l : Lane) (f : ChgState → ChgState) : (s.modChg l f).free = s.free := rfl
@[simp] theorem State.modChg_pending (s : State) (l : Lane) (f : ChgState → ChgState) : (s.modChg l f).pending = s.pending := rfl
@[simp] theorem State.word_modBoot (s : State) (l k : Lane) (f : BootState → BootState) (a : Nat) :
    (s.modBoot l f).word k a = s.word k a := State.word_modLane _ _ _ _ _ rfl
@[simp] theorem State.lane_modBoot (s : State) (l : Lane) (f : BootState → BootState) :
    (s.modBoot l f).lane l = { s.lane l with boot := f (s.lane l).boot } := State.lane_modLane_same ..
@[simp] theorem State.lane_modBoot_other (s : State) (l : Lane) (f : BootState → BootState) :
    (s.modBoot l f).lane l.other = s.lane l.other := State.lane_modLane_other ..
@[simp] theorem State.modBoot_time (s : State) (l : Lane) (f : BootState → BootState) : (s.modBoot l f).time = s.time := rfl
@[simp] theorem State.modBoot_timeOfs (s : State) (l : Lane) (f : BootState → BootState) : (s.modBoot l f).timeOfs = s.timeOfs := rfl
@[simp] theorem State.modBoot_mon (s : State) (l : Lane) (f : BootState → BootState) : (s.modBoot l f).mon = s.mon := rfl
@[simp] theorem State.modBoot_hv (s : State) (l : Lane) (f : BootState → BootState) : (s.modBoot l f).hv = s.hv := rfl
@[simp] theorem State.modBoot_lv (s : State) (l : Lane) (f : BootState → BootState) : (s.modBoot l f).lv = s.lv := rfl
@[simp] theorem State.modBoot_sns (s : State) (l : Lane) (f : BootState → BootState) : (s.modBoot l f).sns = s.sns := rfl
@[simp] theorem State.modBoot_aon (s : State) (l : Lane) (f : BootState → BootState) : (s.modBoot l f).aon = s.aon := rfl
@[simp] theorem State.modBoot_free (s : State) (l : Lane) (f : BootState → BootState) : (s.modBoot l f).free = s.free := rfl
@[simp] theorem State.modBoot_pending (s : State) (l : Lane) (f : BootState → BootState) : (s.modBoot l f).pending = s.pending := rfl
@[simp] theorem State.word_modHold (s : State) (l k : Lane) (f : Hold → Hold) (a : Nat) :
    (s.modHold l f).word k a = s.word k a := State.word_modLane _ _ _ _ _ rfl
@[simp] theorem State.lane_modHold (s : State) (l : Lane) (f : Hold → Hold) :
    (s.modHold l f).lane l = { s.lane l with hold := f (s.lane l).hold } := State.lane_modLane_same ..
@[simp] theorem State.lane_modHold_other (s : State) (l : Lane) (f : Hold → Hold) :
    (s.modHold l f).lane l.other = s.lane l.other := State.lane_modLane_other ..
@[simp] theorem State.modHold_time (s : State) (l : Lane) (f : Hold → Hold) : (s.modHold l f).time = s.time := rfl
@[simp] theorem State.modHold_timeOfs (s : State) (l : Lane) (f : Hold → Hold) : (s.modHold l f).timeOfs = s.timeOfs := rfl
@[simp] theorem State.modHold_mon (s : State) (l : Lane) (f : Hold → Hold) : (s.modHold l f).mon = s.mon := rfl
@[simp] theorem State.modHold_hv (s : State) (l : Lane) (f : Hold → Hold) : (s.modHold l f).hv = s.hv := rfl
@[simp] theorem State.modHold_lv (s : State) (l : Lane) (f : Hold → Hold) : (s.modHold l f).lv = s.lv := rfl
@[simp] theorem State.modHold_sns (s : State) (l : Lane) (f : Hold → Hold) : (s.modHold l f).sns = s.sns := rfl
@[simp] theorem State.modHold_aon (s : State) (l : Lane) (f : Hold → Hold) : (s.modHold l f).aon = s.aon := rfl
@[simp] theorem State.modHold_free (s : State) (l : Lane) (f : Hold → Hold) : (s.modHold l f).free = s.free := rfl
@[simp] theorem State.modHold_pending (s : State) (l : Lane) (f : Hold → Hold) : (s.modHold l f).pending = s.pending := rfl
@[simp] theorem State.word_modSaf (s : State) (l k : Lane) (f : SafLines → SafLines) (a : Nat) :
    (s.modSaf l f).word k a = s.word k a := State.word_modLane _ _ _ _ _ rfl
@[simp] theorem State.lane_modSaf (s : State) (l : Lane) (f : SafLines → SafLines) :
    (s.modSaf l f).lane l = { s.lane l with saf := f (s.lane l).saf } := State.lane_modLane_same ..
@[simp] theorem State.lane_modSaf_other (s : State) (l : Lane) (f : SafLines → SafLines) :
    (s.modSaf l f).lane l.other = s.lane l.other := State.lane_modLane_other ..
@[simp] theorem State.modSaf_time (s : State) (l : Lane) (f : SafLines → SafLines) : (s.modSaf l f).time = s.time := rfl
@[simp] theorem State.modSaf_timeOfs (s : State) (l : Lane) (f : SafLines → SafLines) : (s.modSaf l f).timeOfs = s.timeOfs := rfl
@[simp] theorem State.modSaf_mon (s : State) (l : Lane) (f : SafLines → SafLines) : (s.modSaf l f).mon = s.mon := rfl
@[simp] theorem State.modSaf_hv (s : State) (l : Lane) (f : SafLines → SafLines) : (s.modSaf l f).hv = s.hv := rfl
@[simp] theorem State.modSaf_lv (s : State) (l : Lane) (f : SafLines → SafLines) : (s.modSaf l f).lv = s.lv := rfl
@[simp] theorem State.modSaf_sns (s : State) (l : Lane) (f : SafLines → SafLines) : (s.modSaf l f).sns = s.sns := rfl
@[simp] theorem State.modSaf_aon (s : State) (l : Lane) (f : SafLines → SafLines) : (s.modSaf l f).aon = s.aon := rfl
@[simp] theorem State.modSaf_free (s : State) (l : Lane) (f : SafLines → SafLines) : (s.modSaf l f).free = s.free := rfl
@[simp] theorem State.modSaf_pending (s : State) (l : Lane) (f : SafLines → SafLines) : (s.modSaf l f).pending = s.pending := rfl
@[simp] theorem State.word_modRing (s : State) (l k : Lane) (f : RingState → RingState) (a : Nat) :
    (s.modRing l f).word k a = s.word k a := State.word_modLane _ _ _ _ _ rfl
@[simp] theorem State.lane_modRing (s : State) (l : Lane) (f : RingState → RingState) :
    (s.modRing l f).lane l = { s.lane l with ring := f (s.lane l).ring } := State.lane_modLane_same ..
@[simp] theorem State.lane_modRing_other (s : State) (l : Lane) (f : RingState → RingState) :
    (s.modRing l f).lane l.other = s.lane l.other := State.lane_modLane_other ..
@[simp] theorem State.modRing_time (s : State) (l : Lane) (f : RingState → RingState) : (s.modRing l f).time = s.time := rfl
@[simp] theorem State.modRing_timeOfs (s : State) (l : Lane) (f : RingState → RingState) : (s.modRing l f).timeOfs = s.timeOfs := rfl
@[simp] theorem State.modRing_mon (s : State) (l : Lane) (f : RingState → RingState) : (s.modRing l f).mon = s.mon := rfl
@[simp] theorem State.modRing_hv (s : State) (l : Lane) (f : RingState → RingState) : (s.modRing l f).hv = s.hv := rfl
@[simp] theorem State.modRing_lv (s : State) (l : Lane) (f : RingState → RingState) : (s.modRing l f).lv = s.lv := rfl
@[simp] theorem State.modRing_sns (s : State) (l : Lane) (f : RingState → RingState) : (s.modRing l f).sns = s.sns := rfl
@[simp] theorem State.modRing_aon (s : State) (l : Lane) (f : RingState → RingState) : (s.modRing l f).aon = s.aon := rfl
@[simp] theorem State.modRing_free (s : State) (l : Lane) (f : RingState → RingState) : (s.modRing l f).free = s.free := rfl
@[simp] theorem State.modRing_pending (s : State) (l : Lane) (f : RingState → RingState) : (s.modRing l f).pending = s.pending := rfl
@[simp] theorem State.word_modAct (s : State) (l k : Lane) (n : Fin 2) (f : ActState → ActState) (a : Nat) :
    (s.modAct l n f).word k a = s.word k a := State.word_modLane _ _ _ _ _ rfl
@[simp] theorem State.word_modHv (s : State) (n : Fin 34) (f : HvIsl → HvIsl) (k : Lane) (a : Nat) : (s.modHv n f).word k a = s.word k a := rfl
@[simp] theorem State.word_modLv (s : State) (f : LvIsl → LvIsl) (k : Lane) (a : Nat) : (s.modLv f).word k a = s.word k a := rfl

/-- The monitor's file kept, every stored word is kept. -/
theorem State.word_modMon (s : State) (f : MonState → MonState) (k : Lane) (a : Nat) (h : (f s.mon).regs = s.mon.regs) :
    (s.modMon f).word k a = s.word k a := by
  unfold State.word
  split
  · exact congrArg (fun r => RegFile.read r a) h
  · rfl

/-- Read after write of a register: the word written shows at its address, through both lanes for a monitor page, and every
other address is kept. -/
theorem State.word_putWord (s : State) (l k : Lane) (a b : Nat) (w : Word) :
    (s.putWord l a w).word k b = if a = b ∧ (k = l ∨ monAddr a = true) then w else s.word k b := by
  unfold State.putWord
  by_cases h : monAddr a = true
  · simp only [h, if_true, or_true, and_true]
    unfold State.word
    by_cases hb : a = b
    · subst hb
      simp only [h, if_true]
      simp [RegFile.read_write]
    · simp only [hb, if_false]
      split
      · simp [RegFile.read_write, hb]
      · rfl
  · simp only [h, Bool.false_eq_true, if_false, or_false]
    unfold State.word
    by_cases hb : a = b
    · subst hb
      simp only [h, Bool.false_eq_true, if_false, true_and, State.lane_modLane]
      by_cases hk : k = l <;> simp [hk, RegFile.read_write]
    · simp only [hb, false_and, if_false]
      split
      · rfl
      · rw [State.lane_modLane]
        by_cases hk : k = l <;> simp [hk, RegFile.read_write, hb]

@[simp] theorem State.word_putWord_same (s : State) (l : Lane) (a : Nat) (w : Word) : (s.putWord l a w).word l a = w := by
  simp [State.word_putWord]

theorem State.word_putWord_ne (s : State) (l k : Lane) (a b : Nat) (w : Word) (h : a ≠ b) :
    (s.putWord l a w).word k b = s.word k b := by
  simp [State.word_putWord, h]

theorem State.word_put_ne (s : State) (l k : Lane) (f : Fld) (v b : Nat) (h : f.addr ≠ b) :
    (s.put l f v).word k b = s.word k b := State.word_putWord_ne _ _ _ _ _ _ h

/-- A field reads back what was put in it. -/
theorem State.fld_put_same (s : State) (l : Lane) (f : Fld) (v : Nat) (h : f.lo + f.w ≤ 32) :
    (s.put l f v).fld l f = v % 2 ^ f.w := by
  unfold State.fld State.put
  rw [State.word_putWord_same, bits_setBits_same _ _ _ _ h]

/-- A field of another register, or apart in the same one, keeps its value. -/
theorem State.fld_put_ne (s : State) (l k : Lane) (f g : Fld) (v : Nat) (h : f.addr ≠ g.addr) :
    (s.put l f v).fld k g = s.fld k g := by
  unfold State.fld
  rw [State.word_put_ne _ _ _ _ _ _ h]

theorem State.fld_put_apart (s : State) (l k : Lane) (f g : Fld) (v : Nat) (h : f.lo + f.w ≤ 32)
    (ha : g.lo + g.w ≤ f.lo ∨ f.lo + f.w ≤ g.lo) : (s.put l f v).fld k g = s.fld k g := by
  unfold State.fld State.put
  rw [State.word_putWord]
  split
  · rename_i hc
    rw [bits_setBits_apart _ _ _ _ _ _ h ha]
    obtain ⟨hc1, hc2⟩ := hc
    rcases hc2 with hc2 | hc2
    · rw [hc1, hc2]
    · rw [← hc1]; simp [State.word, hc2]
  · rfl

@[simp] theorem State.flag_eq (s : State) (l : Lane) (f : Fld) : s.flag l f = (s.fld l f != 0) := rfl
@[simp] theorem State.putFlag_eq (s : State) (l : Lane) (f : Fld) (b : Bool) : s.putFlag l f b = s.put l f b.toNat := rfl
@[simp] theorem State.bump_eq (s : State) (l : Lane) (f : Fld) (n : Nat) : s.bump l f n = s.put l f (satAdd f.w (s.fld l f) n) := rfl
@[simp] theorem State.mfld_eq (s : State) (f : Fld) : s.mfld f = s.fld .A f := rfl
@[simp] theorem State.mflag_eq (s : State) (f : Fld) : s.mflag f = (s.fld .A f != 0) := rfl
@[simp] theorem State.mput_eq (s : State) (f : Fld) (v : Nat) : s.mput f v = s.put .A f v := rfl
@[simp] theorem State.mputFlag_eq (s : State) (f : Fld) (b : Bool) : s.mputFlag f b = s.put .A f b.toNat := rfl
@[simp] theorem State.mbump_eq (s : State) (f : Fld) (n : Nat) : s.mbump f n = s.put .A f (satAdd f.w (s.fld .A f) n) := rfl

@[simp] theorem State.putWord_time (s : State) (l : Lane) (a : Nat) (w : Word) :
    (s.putWord l a w).time = s.time := by unfold State.putWord; split <;> rfl
@[simp] theorem State.put_time (s : State) (l : Lane) (f : Fld) (v : Nat) : (s.put l f v).time = s.time := State.putWord_time ..
@[simp] theorem State.putWord_timeOfs (s : State) (l : Lane) (a : Nat) (w : Word) :
    (s.putWord l a w).timeOfs = s.timeOfs := by unfold State.putWord; split <;> rfl
@[simp] theorem State.put_timeOfs (s : State) (l : Lane) (f : Fld) (v : Nat) : (s.put l f v).timeOfs = s.timeOfs := State.putWord_timeOfs ..
@[simp] theorem State.putWord_hv (s : State) (l : Lane) (a : Nat) (w : Word) : (s.putWord l a w).hv = s.hv := by unfold State.putWord; split <;> rfl
@[simp] theorem State.put_hv (s : State) (l : Lane) (f : Fld) (v : Nat) : (s.put l f v).hv = s.hv := State.putWord_hv ..
@[simp] theorem State.putWord_lv (s : State) (l : Lane) (a : Nat) (w : Word) : (s.putWord l a w).lv = s.lv := by unfold State.putWord; split <;> rfl
@[simp] theorem State.put_lv (s : State) (l : Lane) (f : Fld) (v : Nat) : (s.put l f v).lv = s.lv := State.putWord_lv ..
@[simp] theorem State.putWord_sns (s : State) (l : Lane) (a : Nat) (w : Word) :
    (s.putWord l a w).sns = s.sns := by unfold State.putWord; split <;> rfl
@[simp] theorem State.put_sns (s : State) (l : Lane) (f : Fld) (v : Nat) : (s.put l f v).sns = s.sns := State.putWord_sns ..
@[simp] theorem State.putWord_aon (s : State) (l : Lane) (a : Nat) (w : Word) :
    (s.putWord l a w).aon = s.aon := by unfold State.putWord; split <;> rfl
@[simp] theorem State.put_aon (s : State) (l : Lane) (f : Fld) (v : Nat) : (s.put l f v).aon = s.aon := State.putWord_aon ..
@[simp] theorem State.putWord_free (s : State) (l : Lane) (a : Nat) (w : Word) :
    (s.putWord l a w).free = s.free := by unfold State.putWord; split <;> rfl
@[simp] theorem State.put_free (s : State) (l : Lane) (f : Fld) (v : Nat) : (s.put l f v).free = s.free := State.putWord_free ..
@[simp] theorem State.putWord_pending (s : State) (l : Lane) (a : Nat) (w : Word) :
    (s.putWord l a w).pending = s.pending := by unfold State.putWord; split <;> rfl
@[simp] theorem State.put_pending (s : State) (l : Lane) (f : Fld) (v : Nat) : (s.put l f v).pending = s.pending := State.putWord_pending ..
@[simp] theorem State.putWord_lane_hold (s : State) (l k : Lane) (a : Nat) (w : Word) : ((s.putWord l a w).lane k).hold = (s.lane k).hold := by
  unfold State.putWord; split <;> first | rfl | (cases l <;> cases k <;> rfl)
@[simp] theorem State.put_lane_hold (s : State) (l k : Lane) (f : Fld) (v : Nat) :
    ((s.put l f v).lane k).hold = (s.lane k).hold := State.putWord_lane_hold ..
@[simp] theorem State.putWord_lane_boot (s : State) (l k : Lane) (a : Nat) (w : Word) : ((s.putWord l a w).lane k).boot = (s.lane k).boot := by
  unfold State.putWord; split <;> first | rfl | (cases l <;> cases k <;> rfl)
@[simp] theorem State.put_lane_boot (s : State) (l k : Lane) (f : Fld) (v : Nat) :
    ((s.put l f v).lane k).boot = (s.lane k).boot := State.putWord_lane_boot ..
@[simp] theorem State.putWord_lane_mem (s : State) (l k : Lane) (a : Nat) (w : Word) : ((s.putWord l a w).lane k).mem = (s.lane k).mem := by
  unfold State.putWord; split <;> first | rfl | (cases l <;> cases k <;> rfl)
@[simp] theorem State.put_lane_mem (s : State) (l k : Lane) (f : Fld) (v : Nat) :
    ((s.put l f v).lane k).mem = (s.lane k).mem := State.putWord_lane_mem ..
@[simp] theorem State.putWord_lane_flash (s : State) (l k : Lane) (a : Nat) (w : Word) : ((s.putWord l a w).lane k).flash = (s.lane k).flash := by
  unfold State.putWord; split <;> first | rfl | (cases l <;> cases k <;> rfl)
@[simp] theorem State.put_lane_flash (s : State) (l k : Lane) (f : Fld) (v : Nat) :
    ((s.put l f v).lane k).flash = (s.lane k).flash := State.putWord_lane_flash ..
@[simp] theorem State.putWord_lane_pulses (s : State) (l k : Lane) (a : Nat) (w : Word) : ((s.putWord l a w).lane k).pulses = (s.lane k).pulses := by
  unfold State.putWord; split <;> first | rfl | (cases l <;> cases k <;> rfl)
@[simp] theorem State.put_lane_pulses (s : State) (l k : Lane) (f : Fld) (v : Nat) :
    ((s.put l f v).lane k).pulses = (s.lane k).pulses := State.putWord_lane_pulses ..
@[simp] theorem State.putWord_lane_stopPend (s : State) (l k : Lane) (a : Nat) (w : Word) :
    ((s.putWord l a w).lane k).stopPend = (s.lane k).stopPend := by
  unfold State.putWord; split <;> first | rfl | (cases l <;> cases k <;> rfl)
@[simp] theorem State.put_lane_stopPend (s : State) (l k : Lane) (f : Fld) (v : Nat) :
    ((s.put l f v).lane k).stopPend = (s.lane k).stopPend := State.putWord_lane_stopPend ..
@[simp] theorem State.putWord_lane_evq (s : State) (l k : Lane) (a : Nat) (w : Word) : ((s.putWord l a w).lane k).evq = (s.lane k).evq := by
  unfold State.putWord; split <;> first | rfl | (cases l <;> cases k <;> rfl)
@[simp] theorem State.put_lane_evq (s : State) (l k : Lane) (f : Fld) (v : Nat) :
    ((s.put l f v).lane k).evq = (s.lane k).evq := State.putWord_lane_evq ..
@[simp] theorem State.putWord_lane_shadows (s : State) (l k : Lane) (a : Nat) (w : Word) :
    ((s.putWord l a w).lane k).shadows = (s.lane k).shadows := by
  unfold State.putWord; split <;> first | rfl | (cases l <;> cases k <;> rfl)
@[simp] theorem State.put_lane_shadows (s : State) (l k : Lane) (f : Fld) (v : Nat) :
    ((s.put l f v).lane k).shadows = (s.lane k).shadows := State.putWord_lane_shadows ..
@[simp] theorem State.putWord_lane_waiting (s : State) (l k : Lane) (a : Nat) (w : Word) :
    ((s.putWord l a w).lane k).waiting = (s.lane k).waiting := by
  unfold State.putWord; split <;> first | rfl | (cases l <;> cases k <;> rfl)
@[simp] theorem State.put_lane_waiting (s : State) (l k : Lane) (f : Fld) (v : Nat) :
    ((s.put l f v).lane k).waiting = (s.lane k).waiting := State.putWord_lane_waiting ..
@[simp] theorem State.putWord_lane_timedHalves (s : State) (l k : Lane) (a : Nat) (w : Word) :
    ((s.putWord l a w).lane k).timedHalves = (s.lane k).timedHalves := by
  unfold State.putWord; split <;> first | rfl | (cases l <;> cases k <;> rfl)
@[simp] theorem State.put_lane_timedHalves (s : State) (l k : Lane) (f : Fld) (v : Nat) :
    ((s.put l f v).lane k).timedHalves = (s.lane k).timedHalves := State.putWord_lane_timedHalves ..
@[simp] theorem State.putWord_lane_sess (s : State) (l k : Lane) (a : Nat) (w : Word) : ((s.putWord l a w).lane k).sess = (s.lane k).sess := by
  unfold State.putWord; split <;> first | rfl | (cases l <;> cases k <;> rfl)
@[simp] theorem State.put_lane_sess (s : State) (l k : Lane) (f : Fld) (v : Nat) :
    ((s.put l f v).lane k).sess = (s.lane k).sess := State.putWord_lane_sess ..
@[simp] theorem State.putWord_lane_answer (s : State) (l k : Lane) (a : Nat) (w : Word) : ((s.putWord l a w).lane k).answer = (s.lane k).answer := by
  unfold State.putWord; split <;> first | rfl | (cases l <;> cases k <;> rfl)
@[simp] theorem State.put_lane_answer (s : State) (l k : Lane) (f : Fld) (v : Nat) :
    ((s.put l f v).lane k).answer = (s.lane k).answer := State.putWord_lane_answer ..
@[simp] theorem State.putWord_lane_red (s : State) (l k : Lane) (a : Nat) (w : Word) : ((s.putWord l a w).lane k).red = (s.lane k).red := by
  unfold State.putWord; split <;> first | rfl | (cases l <;> cases k <;> rfl)
@[simp] theorem State.put_lane_red (s : State) (l k : Lane) (f : Fld) (v : Nat) :
    ((s.put l f v).lane k).red = (s.lane k).red := State.putWord_lane_red ..
@[simp] theorem State.putWord_lane_saf (s : State) (l k : Lane) (a : Nat) (w : Word) : ((s.putWord l a w).lane k).saf = (s.lane k).saf := by
  unfold State.putWord; split <;> first | rfl | (cases l <;> cases k <;> rfl)
@[simp] theorem State.put_lane_saf (s : State) (l k : Lane) (f : Fld) (v : Nat) :
    ((s.put l f v).lane k).saf = (s.lane k).saf := State.putWord_lane_saf ..
@[simp] theorem State.putWord_lane_cls (s : State) (l k : Lane) (a : Nat) (w : Word) : ((s.putWord l a w).lane k).cls = (s.lane k).cls := by
  unfold State.putWord; split <;> first | rfl | (cases l <;> cases k <;> rfl)
@[simp] theorem State.put_lane_cls (s : State) (l k : Lane) (f : Fld) (v : Nat) :
    ((s.put l f v).lane k).cls = (s.lane k).cls := State.putWord_lane_cls ..
@[simp] theorem State.putWord_lane_trc (s : State) (l k : Lane) (a : Nat) (w : Word) : ((s.putWord l a w).lane k).trc = (s.lane k).trc := by
  unfold State.putWord; split <;> first | rfl | (cases l <;> cases k <;> rfl)
@[simp] theorem State.put_lane_trc (s : State) (l k : Lane) (f : Fld) (v : Nat) :
    ((s.put l f v).lane k).trc = (s.lane k).trc := State.putWord_lane_trc ..
@[simp] theorem State.putWord_lane_eng (s : State) (l k : Lane) (a : Nat) (w : Word) : ((s.putWord l a w).lane k).eng = (s.lane k).eng := by
  unfold State.putWord; split <;> first | rfl | (cases l <;> cases k <;> rfl)
@[simp] theorem State.put_lane_eng (s : State) (l k : Lane) (f : Fld) (v : Nat) :
    ((s.put l f v).lane k).eng = (s.lane k).eng := State.putWord_lane_eng ..
@[simp] theorem State.putWord_lane_fbk (s : State) (l k : Lane) (a : Nat) (w : Word) : ((s.putWord l a w).lane k).fbk = (s.lane k).fbk := by
  unfold State.putWord; split <;> first | rfl | (cases l <;> cases k <;> rfl)
@[simp] theorem State.put_lane_fbk (s : State) (l k : Lane) (f : Fld) (v : Nat) :
    ((s.put l f v).lane k).fbk = (s.lane k).fbk := State.putWord_lane_fbk ..
@[simp] theorem State.putWord_lane_smp (s : State) (l k : Lane) (a : Nat) (w : Word) : ((s.putWord l a w).lane k).smp = (s.lane k).smp := by
  unfold State.putWord; split <;> first | rfl | (cases l <;> cases k <;> rfl)
@[simp] theorem State.put_lane_smp (s : State) (l k : Lane) (f : Fld) (v : Nat) :
    ((s.put l f v).lane k).smp = (s.lane k).smp := State.putWord_lane_smp ..
@[simp] theorem State.putWord_lane_dcl (s : State) (l k : Lane) (a : Nat) (w : Word) : ((s.putWord l a w).lane k).dcl = (s.lane k).dcl := by
  unfold State.putWord; split <;> first | rfl | (cases l <;> cases k <;> rfl)
@[simp] theorem State.put_lane_dcl (s : State) (l k : Lane) (f : Fld) (v : Nat) :
    ((s.put l f v).lane k).dcl = (s.lane k).dcl := State.putWord_lane_dcl ..
@[simp] theorem State.putWord_lane_chg (s : State) (l k : Lane) (a : Nat) (w : Word) : ((s.putWord l a w).lane k).chg = (s.lane k).chg := by
  unfold State.putWord; split <;> first | rfl | (cases l <;> cases k <;> rfl)
@[simp] theorem State.put_lane_chg (s : State) (l k : Lane) (f : Fld) (v : Nat) :
    ((s.put l f v).lane k).chg = (s.lane k).chg := State.putWord_lane_chg ..
@[simp] theorem State.putWord_lane_act (s : State) (l k : Lane) (a : Nat) (w : Word) : ((s.putWord l a w).lane k).act = (s.lane k).act := by
  unfold State.putWord; split <;> first | rfl | (cases l <;> cases k <;> rfl)
@[simp] theorem State.put_lane_act (s : State) (l k : Lane) (f : Fld) (v : Nat) :
    ((s.put l f v).lane k).act = (s.lane k).act := State.putWord_lane_act ..
@[simp] theorem State.putWord_lane_can (s : State) (l k : Lane) (a : Nat) (w : Word) : ((s.putWord l a w).lane k).can = (s.lane k).can := by
  unfold State.putWord; split <;> first | rfl | (cases l <;> cases k <;> rfl)
@[simp] theorem State.put_lane_can (s : State) (l k : Lane) (f : Fld) (v : Nat) :
    ((s.put l f v).lane k).can = (s.lane k).can := State.putWord_lane_can ..
@[simp] theorem State.putWord_lane_ring (s : State) (l k : Lane) (a : Nat) (w : Word) : ((s.putWord l a w).lane k).ring = (s.lane k).ring := by
  unfold State.putWord; split <;> first | rfl | (cases l <;> cases k <;> rfl)
@[simp] theorem State.put_lane_ring (s : State) (l k : Lane) (f : Fld) (v : Nat) :
    ((s.put l f v).lane k).ring = (s.lane k).ring := State.putWord_lane_ring ..
@[simp] theorem State.putWord_lane_bulkLast (s : State) (l k : Lane) (a : Nat) (w : Word) :
    ((s.putWord l a w).lane k).bulkLast = (s.lane k).bulkLast := by
  unfold State.putWord; split <;> first | rfl | (cases l <;> cases k <;> rfl)
@[simp] theorem State.put_lane_bulkLast (s : State) (l k : Lane) (f : Fld) (v : Nat) :
    ((s.put l f v).lane k).bulkLast = (s.lane k).bulkLast := State.putWord_lane_bulkLast ..
@[simp] theorem State.putWord_lane_dup (s : State) (l k : Lane) (a : Nat) (w : Word) : ((s.putWord l a w).lane k).dup = (s.lane k).dup := by
  unfold State.putWord; split <;> first | rfl | (cases l <;> cases k <;> rfl)
@[simp] theorem State.put_lane_dup (s : State) (l k : Lane) (f : Fld) (v : Nat) :
    ((s.put l f v).lane k).dup = (s.lane k).dup := State.putWord_lane_dup ..
@[simp] theorem State.putWord_lane_loopReq (s : State) (l k : Lane) (a : Nat) (w : Word) :
    ((s.putWord l a w).lane k).loopReq = (s.lane k).loopReq := by
  unfold State.putWord; split <;> first | rfl | (cases l <;> cases k <;> rfl)
@[simp] theorem State.put_lane_loopReq (s : State) (l k : Lane) (f : Fld) (v : Nat) :
    ((s.put l f v).lane k).loopReq = (s.lane k).loopReq := State.putWord_lane_loopReq ..
@[simp] theorem State.putWord_lane_cap (s : State) (l k : Lane) (a : Nat) (w : Word) : ((s.putWord l a w).lane k).cap = (s.lane k).cap := by
  unfold State.putWord; split <;> first | rfl | (cases l <;> cases k <;> rfl)
@[simp] theorem State.put_lane_cap (s : State) (l k : Lane) (f : Fld) (v : Nat) :
    ((s.put l f v).lane k).cap = (s.lane k).cap := State.putWord_lane_cap ..
@[simp] theorem State.putWord_lane_scrub (s : State) (l k : Lane) (a : Nat) (w : Word) : ((s.putWord l a w).lane k).scrub = (s.lane k).scrub := by
  unfold State.putWord; split <;> first | rfl | (cases l <;> cases k <;> rfl)
@[simp] theorem State.put_lane_scrub (s : State) (l k : Lane) (f : Fld) (v : Nat) :
    ((s.put l f v).lane k).scrub = (s.lane k).scrub := State.putWord_lane_scrub ..
@[simp] theorem State.putWord_lane_legEvents (s : State) (l k : Lane) (a : Nat) (w : Word) :
    ((s.putWord l a w).lane k).legEvents = (s.lane k).legEvents := by
  unfold State.putWord; split <;> first | rfl | (cases l <;> cases k <;> rfl)
@[simp] theorem State.put_lane_legEvents (s : State) (l k : Lane) (f : Fld) (v : Nat) :
    ((s.put l f v).lane k).legEvents = (s.lane k).legEvents := State.putWord_lane_legEvents ..
@[simp] theorem State.putWord_mon_pulses (s : State) (l : Lane) (a : Nat) (w : Word) :
    (s.putWord l a w).mon.pulses = s.mon.pulses := by unfold State.putWord; split <;> rfl
@[simp] theorem State.put_mon_pulses (s : State) (l : Lane) (f : Fld) (v : Nat) :
    (s.put l f v).mon.pulses = s.mon.pulses := State.putWord_mon_pulses ..
@[simp] theorem State.putWord_mon_alive (s : State) (l : Lane) (a : Nat) (w : Word) :
    (s.putWord l a w).mon.alive = s.mon.alive := by unfold State.putWord; split <;> rfl
@[simp] theorem State.put_mon_alive (s : State) (l : Lane) (f : Fld) (v : Nat) : (s.put l f v).mon.alive = s.mon.alive := State.putWord_mon_alive ..
@[simp] theorem State.putWord_mon_log (s : State) (l : Lane) (a : Nat) (w : Word) :
    (s.putWord l a w).mon.log = s.mon.log := by unfold State.putWord; split <;> rfl
@[simp] theorem State.put_mon_log (s : State) (l : Lane) (f : Fld) (v : Nat) : (s.put l f v).mon.log = s.mon.log := State.putWord_mon_log ..
@[simp] theorem State.putWord_mon_logged (s : State) (l : Lane) (a : Nat) (w : Word) :
    (s.putWord l a w).mon.logged = s.mon.logged := by unfold State.putWord; split <;> rfl
@[simp] theorem State.put_mon_logged (s : State) (l : Lane) (f : Fld) (v : Nat) :
    (s.put l f v).mon.logged = s.mon.logged := State.putWord_mon_logged ..
@[simp] theorem State.putWord_mon_halves (s : State) (l : Lane) (a : Nat) (w : Word) :
    (s.putWord l a w).mon.halves = s.mon.halves := by unfold State.putWord; split <;> rfl
@[simp] theorem State.put_mon_halves (s : State) (l : Lane) (f : Fld) (v : Nat) :
    (s.put l f v).mon.halves = s.mon.halves := State.putWord_mon_halves ..
@[simp] theorem State.putWord_mon_counted (s : State) (l : Lane) (a : Nat) (w : Word) :
    (s.putWord l a w).mon.counted = s.mon.counted := by unfold State.putWord; split <;> rfl
@[simp] theorem State.put_mon_counted (s : State) (l : Lane) (f : Fld) (v : Nat) :
    (s.put l f v).mon.counted = s.mon.counted := State.putWord_mon_counted ..
@[simp] theorem State.putWord_mon_hb (s : State) (l : Lane) (a : Nat) (w : Word) :
    (s.putWord l a w).mon.hb = s.mon.hb := by unfold State.putWord; split <;> rfl
@[simp] theorem State.put_mon_hb (s : State) (l : Lane) (f : Fld) (v : Nat) : (s.put l f v).mon.hb = s.mon.hb := State.putWord_mon_hb ..
@[simp] theorem State.putWord_mon_missHb (s : State) (l : Lane) (a : Nat) (w : Word) :
    (s.putWord l a w).mon.missHb = s.mon.missHb := by unfold State.putWord; split <;> rfl
@[simp] theorem State.put_mon_missHb (s : State) (l : Lane) (f : Fld) (v : Nat) :
    (s.put l f v).mon.missHb = s.mon.missHb := State.putWord_mon_missHb ..
@[simp] theorem State.putWord_mon_peerBlind (s : State) (l : Lane) (a : Nat) (w : Word) :
    (s.putWord l a w).mon.peerBlind = s.mon.peerBlind := by unfold State.putWord; split <;> rfl
@[simp] theorem State.put_mon_peerBlind (s : State) (l : Lane) (f : Fld) (v : Nat) :
    (s.put l f v).mon.peerBlind = s.mon.peerBlind := State.putWord_mon_peerBlind ..
@[simp] theorem State.putWord_mon_moveReq (s : State) (l : Lane) (a : Nat) (w : Word) :
    (s.putWord l a w).mon.moveReq = s.mon.moveReq := by unfold State.putWord; split <;> rfl
@[simp] theorem State.put_mon_moveReq (s : State) (l : Lane) (f : Fld) (v : Nat) :
    (s.put l f v).mon.moveReq = s.mon.moveReq := State.putWord_mon_moveReq ..
@[simp] theorem State.putWord_mon_moveFrom (s : State) (l : Lane) (a : Nat) (w : Word) :
    (s.putWord l a w).mon.moveFrom = s.mon.moveFrom := by unfold State.putWord; split <;> rfl
@[simp] theorem State.put_mon_moveFrom (s : State) (l : Lane) (f : Fld) (v : Nat) :
    (s.put l f v).mon.moveFrom = s.mon.moveFrom := State.putWord_mon_moveFrom ..
@[simp] theorem State.putWord_mon_resets (s : State) (l : Lane) (a : Nat) (w : Word) :
    (s.putWord l a w).mon.resets = s.mon.resets := by unfold State.putWord; split <;> rfl
@[simp] theorem State.put_mon_resets (s : State) (l : Lane) (f : Fld) (v : Nat) :
    (s.put l f v).mon.resets = s.mon.resets := State.putWord_mon_resets ..
@[simp] theorem State.putWord_mon_holdFail (s : State) (l : Lane) (a : Nat) (w : Word) :
    (s.putWord l a w).mon.holdFail = s.mon.holdFail := by unfold State.putWord; split <;> rfl
@[simp] theorem State.put_mon_holdFail (s : State) (l : Lane) (f : Fld) (v : Nat) :
    (s.put l f v).mon.holdFail = s.mon.holdFail := State.putWord_mon_holdFail ..
@[simp] theorem State.putWord_mon_holdTq (s : State) (l : Lane) (a : Nat) (w : Word) :
    (s.putWord l a w).mon.holdTq = s.mon.holdTq := by unfold State.putWord; split <;> rfl
@[simp] theorem State.put_mon_holdTq (s : State) (l : Lane) (f : Fld) (v : Nat) :
    (s.put l f v).mon.holdTq = s.mon.holdTq := State.putWord_mon_holdTq ..
@[simp] theorem State.putWord_mon_holdIl (s : State) (l : Lane) (a : Nat) (w : Word) :
    (s.putWord l a w).mon.holdIl = s.mon.holdIl := by unfold State.putWord; split <;> rfl
@[simp] theorem State.put_mon_holdIl (s : State) (l : Lane) (f : Fld) (v : Nat) :
    (s.put l f v).mon.holdIl = s.mon.holdIl := State.putWord_mon_holdIl ..
@[simp] theorem State.putWord_mon_mask (s : State) (l : Lane) (a : Nat) (w : Word) :
    (s.putWord l a w).mon.mask = s.mon.mask := by unfold State.putWord; split <;> rfl
@[simp] theorem State.put_mon_mask (s : State) (l : Lane) (f : Fld) (v : Nat) : (s.put l f v).mon.mask = s.mon.mask := State.putWord_mon_mask ..
@[simp] theorem State.putWord_mon_sto (s : State) (l : Lane) (a : Nat) (w : Word) :
    (s.putWord l a w).mon.sto = s.mon.sto := by unfold State.putWord; split <;> rfl
@[simp] theorem State.put_mon_sto (s : State) (l : Lane) (f : Fld) (v : Nat) : (s.put l f v).mon.sto = s.mon.sto := State.putWord_mon_sto ..
@[simp] theorem State.putWord_mon_ss1 (s : State) (l : Lane) (a : Nat) (w : Word) :
    (s.putWord l a w).mon.ss1 = s.mon.ss1 := by unfold State.putWord; split <;> rfl
@[simp] theorem State.put_mon_ss1 (s : State) (l : Lane) (f : Fld) (v : Nat) : (s.put l f v).mon.ss1 = s.mon.ss1 := State.putWord_mon_ss1 ..
@[simp] theorem State.putWord_mon_safState (s : State) (l : Lane) (a : Nat) (w : Word) :
    (s.putWord l a w).mon.safState = s.mon.safState := by unfold State.putWord; split <;> rfl
@[simp] theorem State.put_mon_safState (s : State) (l : Lane) (f : Fld) (v : Nat) :
    (s.put l f v).mon.safState = s.mon.safState := State.putWord_mon_safState ..
@[simp] theorem State.putWord_mon_safCause (s : State) (l : Lane) (a : Nat) (w : Word) :
    (s.putWord l a w).mon.safCause = s.mon.safCause := by unfold State.putWord; split <;> rfl
@[simp] theorem State.put_mon_safCause (s : State) (l : Lane) (f : Fld) (v : Nat) :
    (s.put l f v).mon.safCause = s.mon.safCause := State.putWord_mon_safCause ..
@[simp] theorem State.putWord_mon_causes (s : State) (l : Lane) (a : Nat) (w : Word) :
    (s.putWord l a w).mon.causes = s.mon.causes := by unfold State.putWord; split <;> rfl
@[simp] theorem State.put_mon_causes (s : State) (l : Lane) (f : Fld) (v : Nat) :
    (s.put l f v).mon.causes = s.mon.causes := State.putWord_mon_causes ..
@[simp] theorem State.putWord_mon_ackAt (s : State) (l : Lane) (a : Nat) (w : Word) :
    (s.putWord l a w).mon.ackAt = s.mon.ackAt := by unfold State.putWord; split <;> rfl
@[simp] theorem State.put_mon_ackAt (s : State) (l : Lane) (f : Fld) (v : Nat) : (s.put l f v).mon.ackAt = s.mon.ackAt := State.putWord_mon_ackAt ..
@[simp] theorem State.putWord_mon_ackNeed (s : State) (l : Lane) (a : Nat) (w : Word) :
    (s.putWord l a w).mon.ackNeed = s.mon.ackNeed := by unfold State.putWord; split <;> rfl
@[simp] theorem State.put_mon_ackNeed (s : State) (l : Lane) (f : Fld) (v : Nat) :
    (s.put l f v).mon.ackNeed = s.mon.ackNeed := State.putWord_mon_ackNeed ..
@[simp] theorem State.putWord_mon_slpAt (s : State) (l : Lane) (a : Nat) (w : Word) :
    (s.putWord l a w).mon.slpAt = s.mon.slpAt := by unfold State.putWord; split <;> rfl
@[simp] theorem State.put_mon_slpAt (s : State) (l : Lane) (f : Fld) (v : Nat) : (s.put l f v).mon.slpAt = s.mon.slpAt := State.putWord_mon_slpAt ..
@[simp] theorem State.putWord_mon_disc (s : State) (l : Lane) (a : Nat) (w : Word) :
    (s.putWord l a w).mon.disc = s.mon.disc := by unfold State.putWord; split <;> rfl
@[simp] theorem State.put_mon_disc (s : State) (l : Lane) (f : Fld) (v : Nat) : (s.put l f v).mon.disc = s.mon.disc := State.putWord_mon_disc ..
@[simp] theorem State.putWord_mon_diverse (s : State) (l : Lane) (a : Nat) (w : Word) :
    (s.putWord l a w).mon.diverse = s.mon.diverse := by unfold State.putWord; split <;> rfl
@[simp] theorem State.put_mon_diverse (s : State) (l : Lane) (f : Fld) (v : Nat) :
    (s.put l f v).mon.diverse = s.mon.diverse := State.putWord_mon_diverse ..
@[simp] theorem State.putWord_mon_spd (s : State) (l : Lane) (a : Nat) (w : Word) :
    (s.putWord l a w).mon.spd = s.mon.spd := by unfold State.putWord; split <;> rfl
@[simp] theorem State.put_mon_spd (s : State) (l : Lane) (f : Fld) (v : Nat) : (s.put l f v).mon.spd = s.mon.spd := State.putWord_mon_spd ..
@[simp] theorem State.putWord_mon_kFault (s : State) (l : Lane) (a : Nat) (w : Word) :
    (s.putWord l a w).mon.kFault = s.mon.kFault := by unfold State.putWord; split <;> rfl
@[simp] theorem State.put_mon_kFault (s : State) (l : Lane) (f : Fld) (v : Nat) :
    (s.put l f v).mon.kFault = s.mon.kFault := State.putWord_mon_kFault ..
@[simp] theorem State.putWord_mon_tqb (s : State) (l : Lane) (a : Nat) (w : Word) :
    (s.putWord l a w).mon.tqb = s.mon.tqb := by unfold State.putWord; split <;> rfl
@[simp] theorem State.put_mon_tqb (s : State) (l : Lane) (f : Fld) (v : Nat) : (s.put l f v).mon.tqb = s.mon.tqb := State.putWord_mon_tqb ..
@[simp] theorem State.putWord_mon_freeA (s : State) (l : Lane) (a : Nat) (w : Word) :
    (s.putWord l a w).mon.freeA = s.mon.freeA := by unfold State.putWord; split <;> rfl
@[simp] theorem State.put_mon_freeA (s : State) (l : Lane) (f : Fld) (v : Nat) : (s.put l f v).mon.freeA = s.mon.freeA := State.putWord_mon_freeA ..
@[simp] theorem State.putWord_mon_discLow (s : State) (l : Lane) (a : Nat) (w : Word) :
    (s.putWord l a w).mon.discLow = s.mon.discLow := by unfold State.putWord; split <;> rfl
@[simp] theorem State.put_mon_discLow (s : State) (l : Lane) (f : Fld) (v : Nat) :
    (s.put l f v).mon.discLow = s.mon.discLow := State.putWord_mon_discLow ..
@[simp] theorem State.putWord_mon_discClear (s : State) (l : Lane) (a : Nat) (w : Word) :
    (s.putWord l a w).mon.discClear = s.mon.discClear := by unfold State.putWord; split <;> rfl
@[simp] theorem State.put_mon_discClear (s : State) (l : Lane) (f : Fld) (v : Nat) :
    (s.put l f v).mon.discClear = s.mon.discClear := State.putWord_mon_discClear ..
@[simp] theorem State.putWord_mon_spdCnt (s : State) (l : Lane) (a : Nat) (w : Word) :
    (s.putWord l a w).mon.spdCnt = s.mon.spdCnt := by unfold State.putWord; split <;> rfl
@[simp] theorem State.put_mon_spdCnt (s : State) (l : Lane) (f : Fld) (v : Nat) :
    (s.put l f v).mon.spdCnt = s.mon.spdCnt := State.putWord_mon_spdCnt ..
@[simp] theorem State.putWord_mon_pos (s : State) (l : Lane) (a : Nat) (w : Word) :
    (s.putWord l a w).mon.pos = s.mon.pos := by unfold State.putWord; split <;> rfl
@[simp] theorem State.put_mon_pos (s : State) (l : Lane) (f : Fld) (v : Nat) : (s.put l f v).mon.pos = s.mon.pos := State.putWord_mon_pos ..
@[simp] theorem State.putWord_mon_sst (s : State) (l : Lane) (a : Nat) (w : Word) :
    (s.putWord l a w).mon.sst = s.mon.sst := by unfold State.putWord; split <;> rfl
@[simp] theorem State.put_mon_sst (s : State) (l : Lane) (f : Fld) (v : Nat) : (s.put l f v).mon.sst = s.mon.sst := State.putWord_mon_sst ..
@[simp] theorem State.putWord_mon_clkBad (s : State) (l : Lane) (a : Nat) (w : Word) :
    (s.putWord l a w).mon.clkBad = s.mon.clkBad := by unfold State.putWord; split <;> rfl
@[simp] theorem State.put_mon_clkBad (s : State) (l : Lane) (f : Fld) (v : Nat) :
    (s.put l f v).mon.clkBad = s.mon.clkBad := State.putWord_mon_clkBad ..
@[simp] theorem State.putWord_mon_clkGood (s : State) (l : Lane) (a : Nat) (w : Word) :
    (s.putWord l a w).mon.clkGood = s.mon.clkGood := by unfold State.putWord; split <;> rfl
@[simp] theorem State.put_mon_clkGood (s : State) (l : Lane) (f : Fld) (v : Nat) :
    (s.put l f v).mon.clkGood = s.mon.clkGood := State.putWord_mon_clkGood ..
@[simp] theorem State.putWord_mon_clkSuspect (s : State) (l : Lane) (a : Nat) (w : Word) :
    (s.putWord l a w).mon.clkSuspect = s.mon.clkSuspect := by unfold State.putWord; split <;> rfl
@[simp] theorem State.put_mon_clkSuspect (s : State) (l : Lane) (f : Fld) (v : Nat) :
    (s.put l f v).mon.clkSuspect = s.mon.clkSuspect := State.putWord_mon_clkSuspect ..
@[simp] theorem State.putWord_mon_kTest (s : State) (l : Lane) (a : Nat) (w : Word) :
    (s.putWord l a w).mon.kTest = s.mon.kTest := by unfold State.putWord; split <;> rfl
@[simp] theorem State.put_mon_kTest (s : State) (l : Lane) (f : Fld) (v : Nat) : (s.put l f v).mon.kTest = s.mon.kTest := State.putWord_mon_kTest ..
@[simp] theorem State.putWord_mon_chgK (s : State) (l : Lane) (a : Nat) (w : Word) :
    (s.putWord l a w).mon.chgK = s.mon.chgK := by unfold State.putWord; split <;> rfl
@[simp] theorem State.put_mon_chgK (s : State) (l : Lane) (f : Fld) (v : Nat) : (s.put l f v).mon.chgK = s.mon.chgK := State.putWord_mon_chgK ..
@[simp] theorem State.putWord_mon_kReq (s : State) (l : Lane) (a : Nat) (w : Word) :
    (s.putWord l a w).mon.kReq = s.mon.kReq := by unfold State.putWord; split <;> rfl
@[simp] theorem State.put_mon_kReq (s : State) (l : Lane) (f : Fld) (v : Nat) : (s.put l f v).mon.kReq = s.mon.kReq := State.putWord_mon_kReq ..
@[simp] theorem State.putWord_mon_tqSum (s : State) (l : Lane) (a : Nat) (w : Word) :
    (s.putWord l a w).mon.tqSum = s.mon.tqSum := by unfold State.putWord; split <;> rfl
@[simp] theorem State.put_mon_tqSum (s : State) (l : Lane) (f : Fld) (v : Nat) : (s.put l f v).mon.tqSum = s.mon.tqSum := State.putWord_mon_tqSum ..
@[simp] theorem State.putWord_mon_tqCnt (s : State) (l : Lane) (a : Nat) (w : Word) :
    (s.putWord l a w).mon.tqCnt = s.mon.tqCnt := by unfold State.putWord; split <;> rfl
@[simp] theorem State.put_mon_tqCnt (s : State) (l : Lane) (f : Fld) (v : Nat) : (s.put l f v).mon.tqCnt = s.mon.tqCnt := State.putWord_mon_tqCnt ..
@[simp] theorem State.putWord_mon_crossAt (s : State) (l : Lane) (a : Nat) (w : Word) :
    (s.putWord l a w).mon.crossAt = s.mon.crossAt := by unfold State.putWord; split <;> rfl
@[simp] theorem State.put_mon_crossAt (s : State) (l : Lane) (f : Fld) (v : Nat) :
    (s.put l f v).mon.crossAt = s.mon.crossAt := State.putWord_mon_crossAt ..
@[simp] theorem State.putWord_mon_crossNeg (s : State) (l : Lane) (a : Nat) (w : Word) :
    (s.putWord l a w).mon.crossNeg = s.mon.crossNeg := by unfold State.putWord; split <;> rfl
@[simp] theorem State.put_mon_crossNeg (s : State) (l : Lane) (f : Fld) (v : Nat) :
    (s.put l f v).mon.crossNeg = s.mon.crossNeg := State.putWord_mon_crossNeg ..

@[simp] theorem State.inReset_putWord (s : State) (l k : Lane) (a : Nat) (w : Word) : (s.putWord l a w).inReset k = s.inReset k := by
  simp [State.inReset]

@[simp] theorem State.inReset_put (s : State) (l k : Lane) (f : Fld) (v : Nat) : (s.put l f v).inReset k = s.inReset k :=
  State.inReset_putWord ..

@[simp] theorem State.inReset_modHv (s : State) (n : Fin 34) (f : HvIsl → HvIsl) (k : Lane) : (s.modHv n f).inReset k = s.inReset k := rfl

@[simp] theorem State.inReset_modLv (s : State) (f : LvIsl → LvIsl) (k : Lane) : (s.modLv f).inReset k = s.inReset k := rfl

@[simp] theorem State.inReset_modMon (s : State) (f : MonState → MonState) (k : Lane) : (s.modMon f).inReset k = s.inReset k := rfl

theorem State.inReset_modLane (s : State) (l k : Lane) (f : LaneState → LaneState) (h : (f (s.lane l)).hold = (s.lane l).hold) :
    (s.modLane l f).inReset k = s.inReset k := by
  unfold State.inReset
  rw [State.lane_modLane]
  by_cases hk : k = l
  · subst hk; simp [h]
  · simp [hk]

@[simp] theorem State.inReset_modRed (s : State) (l k : Lane) (f : RedState → RedState) :
    (s.modRed l f).inReset k = s.inReset k := State.inReset_modLane _ _ _ _ rfl
@[simp] theorem State.inReset_modTrc (s : State) (l k : Lane) (f : TrcState → TrcState) :
    (s.modTrc l f).inReset k = s.inReset k := State.inReset_modLane _ _ _ _ rfl
@[simp] theorem State.inReset_modEng (s : State) (l k : Lane) (f : EngState → EngState) :
    (s.modEng l f).inReset k = s.inReset k := State.inReset_modLane _ _ _ _ rfl
@[simp] theorem State.inReset_modFbk (s : State) (l k : Lane) (f : FbkState → FbkState) :
    (s.modFbk l f).inReset k = s.inReset k := State.inReset_modLane _ _ _ _ rfl
@[simp] theorem State.inReset_modSmp (s : State) (l k : Lane) (f : SmpState → SmpState) :
    (s.modSmp l f).inReset k = s.inReset k := State.inReset_modLane _ _ _ _ rfl
@[simp] theorem State.inReset_modDcl (s : State) (l k : Lane) (f : DclState → DclState) :
    (s.modDcl l f).inReset k = s.inReset k := State.inReset_modLane _ _ _ _ rfl
@[simp] theorem State.inReset_modChg (s : State) (l k : Lane) (f : ChgState → ChgState) :
    (s.modChg l f).inReset k = s.inReset k := State.inReset_modLane _ _ _ _ rfl
@[simp] theorem State.inReset_modBoot (s : State) (l k : Lane) (f : BootState → BootState) :
    (s.modBoot l f).inReset k = s.inReset k := State.inReset_modLane _ _ _ _ rfl
@[simp] theorem State.inReset_modSaf (s : State) (l k : Lane) (f : SafLines → SafLines) :
    (s.modSaf l f).inReset k = s.inReset k := State.inReset_modLane _ _ _ _ rfl
@[simp] theorem State.inReset_modRing (s : State) (l k : Lane) (f : RingState → RingState) :
    (s.modRing l f).inReset k = s.inReset k := State.inReset_modLane _ _ _ _ rfl

end Sys2Proof.Machine
end

