-- ==== Sys2Proof/Laws/Events.lean ====
section
/-! SUPPORT. What an event changes: header bits, counts, the fault log, the EVENT path, captures, and the requests on the safety
request line; everything else keeps its value. -/
namespace Sys2Proof.Machine
set_option linter.all false
set_option Elab.async false

/-- t differs from a only in what events change. -/
structure State.EvOnly (a t : State) : Prop where
  hv : t.hv = a.hv
  lv : t.lv = a.lv
  sns : t.sns = a.sns
  aon : t.aon = a.aon
  time : t.time = a.time
  timeOfs : t.timeOfs = a.timeOfs
  free : t.free = a.free
  lane : ∀ k, (t.lane k).still = (a.lane k).still
  mon : t.mon.still = a.mon.still
  word : ∀ k n, evAddr n = false → t.word k n = a.word k n

namespace State.EvOnly
variable {a s : State}

theorem refl : a.EvOnly a := ⟨rfl, rfl, rfl, rfl, rfl, rfl, rfl, fun _ => rfl, rfl, fun _ _ _ => rfl⟩

theorem modLane (h : a.EvOnly s) (l : Lane) (f : LaneState → LaneState) (hf : ∀ x, (f x).still = x.still)
    (hr : ∀ x, (f x).regs = x.regs) : a.EvOnly (s.modLane l f) :=
  { h with
    lane := fun k => by
      rw [State.lane_modLane]
      split
      · rw [hf]; exact h.lane k
      · exact h.lane k
    word := fun k n hn => by rw [State.word_modLane _ _ _ _ _ (hr _)]; exact h.word k n hn }

theorem modMon (h : a.EvOnly s) (f : MonState → MonState) (hf : ∀ x, (f x).still = x.still)
    (hr : ∀ x, (f x).regs = x.regs) : a.EvOnly (s.modMon f) :=
  { h with
    mon := by
      rw [State.modMon_mon, hf]
      exact h.mon
    word := fun k n hn => by rw [State.word_modMon _ _ _ _ (hr _)]; exact h.word k n hn }

theorem putWord (h : a.EvOnly s) (l : Lane) (n : Nat) (w : Word) (hn : evAddr n = true) : a.EvOnly (s.putWord l n w) := by
  refine ⟨?_, ?_, ?_, ?_, ?_, ?_, ?_, fun k => ?_, ?_, fun k m hm => ?_⟩
  · simpa using h.hv
  · simpa using h.lv
  · simpa using h.sns
  · simpa using h.aon
  · simpa using h.time
  · simpa using h.timeOfs
  · simpa using h.free
  · rw [← h.lane k]; simp [LaneState.still]
  · rw [← h.mon]; simp [MonState.still]
  · rw [State.word_putWord_ne]
    · exact h.word k m hm
    · intro e
      rw [e, hm] at hn
      cases hn

theorem put (h : a.EvOnly s) (l : Lane) (f : Fld) (v : Nat) (hn : evAddr f.addr = true) : a.EvOnly (s.put l f v) :=
  putWord h l _ _ hn

theorem bump (h : a.EvOnly s) (l : Lane) (f : Fld) (n : Nat) (hn : evAddr f.addr = true) : a.EvOnly (s.bump l f n) :=
  put h l f _ hn

theorem ite {p : Prop} [Decidable p] {t : State} (h : a.EvOnly s) (k : a.EvOnly t) : a.EvOnly (if p then s else t) := by
  split
  · exact h
  · exact k

theorem fold {α : Type} (xs : List α) (f : State → α → State) (h : a.EvOnly s) (hf : ∀ s x, a.EvOnly s → a.EvOnly (f s x)) :
    a.EvOnly (xs.foldl f s) := by
  induction xs generalizing s with
  | nil => exact h
  | cons x t ih => exact ih (hf _ _ h)

theorem send (h : a.EvOnly s) (l : Lane) (e : Bool) (f : Sent) : a.EvOnly (s.send l e f) := by
  unfold State.send
  refine ite ?_ ?_
  · exact bump h l F.RING_CNT_CUT_DROP 1 rfl
  · unfold State.modRing
    refine modLane h l _ ?_ ?_ <;> intro _ <;> rfl

theorem sendEvent (h : a.EvOnly s) (l : Lane) (e : Bool) (x : EvItem) : a.EvOnly (s.sendEvent l e x) := by
  unfold State.sendEvent
  refine send ?_ l e _
  unfold State.modRing
  refine modLane h l _ ?_ ?_ <;> intro _ <;> rfl

theorem evIn (h : a.EvOnly s) (l : Lane) (x : EvItem) : a.EvOnly (s.evIn l x) := by
  have wait : ∀ (t : State) (y : EvItem), a.EvOnly t → a.EvOnly (if (t.lane l).evq.length ≥ 32 then t
      else (t.modLane l (fun z => { z with evq := z.evq ++ [y] })).bump l F.RING_CNT2_EVT_COAL) := by
    intro t y ht
    refine ite ht (bump ?_ l F.RING_CNT2_EVT_COAL 1 rfl)
    refine modLane ht l _ ?_ ?_ <;> intro _ <;> rfl
  have h1 : a.EvOnly (s.modRing l (fun r => { r with evSeq := r.evSeq + 1 })) := by
    unfold State.modRing
    refine modLane h l _ ?_ ?_ <;> intro _ <;> rfl
  unfold State.evIn
  dsimp only
  refine ite h1 ?_
  split
  · exact ite (sendEvent h1 ..) (wait _ _ h1)
  · exact wait _ _ h1

theorem routeRing (h : a.EvOnly s) (l : Lane) (src : Nat) (b : Bool) : a.EvOnly (s.routeRing l src b) := by
  unfold State.routeRing
  exact ite (ite h (evIn h ..)) h

theorem routeFall (h : a.EvOnly s) (l : Lane) (src : Nat) (b : Bool) : a.EvOnly (s.routeFall l src b) := by
  unfold State.routeFall
  exact ite (evIn h ..) h

theorem addLog (h : a.EvOnly s) (l : Lane) (o : Nat) (p : Page) (e : Ev) (src : Nat) (m f : Bool) (r : Nat) :
    a.EvOnly (s.addLog l o p e src m f r) := by
  unfold State.addLog
  dsimp only
  refine ite h ?_
  have k : ∀ (f : MonState → MonState) (w : Word), (∀ x, (f x).still = x.still) → (∀ x, (f x).regs = x.regs) →
      a.EvOnly (((s.modMon f).putWord .A F.MON_LOG_NEXT_NEXT.addr w).mput F.MON_LOG_STAT_FILL
        ((s.modMon f).putWord .A F.MON_LOG_NEXT_NEXT.addr w).mon.log.length) :=
    fun f w h1 h2 => put (putWord (modMon h f h1 h2) .A F.MON_LOG_NEXT_NEXT.addr w rfl) .A F.MON_LOG_STAT_FILL _ rfl
  refine ite (bump (k _ _ ?_ ?_) .A F.MON_LOG_STAT_OVR 1 rfl) (k _ _ ?_ ?_)
  all_goals
    intro _
    rfl

theorem pend (h : a.EvOnly s) (l : Lane) (e : Ev) (he : e.page % 0x1000 = 0) : a.EvOnly (s.pend l e) := by
  refine putWord h l _ _ ?_
  simp only [evAddr]
  have : (e.page + 0x018) % 0x1000 = 0x018 := by omega
  simp [this]

theorem capTrigger (h : a.EvOnly s) (l : Lane) (w : Fin 8) : a.EvOnly (s.capTrigger l w) := by
  unfold State.capTrigger
  refine ite (modLane (put h l _ _ ?_) l _ (fun _ => rfl) (fun _ => rfl)) h
  have := w.isLt
  have e : (F.MEM_CAP_STAT_STATE w.val).addr / 0x1000 = 5 := by
    show (0x0511C + w.val * 32) / 0x1000 = 5
    omega
  simp [evAddr, e]

theorem evcCnt (src : Nat) (h : src < 128) : evAddr (F.EVC_CNT_CNT (src / 4) (src % 4)).addr = true := by
  have e : (F.EVC_CNT_CNT (src / 4) (src % 4)).addr / 0x1000 = 4 := by
    show (0x04100 + src / 4 * 4) / 0x1000 = 4
    omega
  simp [evAddr, e]

theorem countRise (h : a.EvOnly s) (l : Lane) (src : Nat) (hs : src < 128) : a.EvOnly (s.countRise l src) :=
  put (put (bump h l _ 1 (evcCnt src hs)) l F.EVC_STAT_LAST_SRC src rfl) l F.EVC_STAT_LAST_MON 0 rfl

theorem startReact (h : a.EvOnly s) (l : Lane) (p r : Nat) : a.EvOnly (s.startReact l p r) := by
  unfold State.startReact
  have h1 : a.EvOnly (s.bump l F.EVC_STAT_REACT_CNT) := bump h l _ 1 rfl
  refine ite h (ite ?_ (ite ?_ ?_))
  · refine modLane h1 l _ ?_ ?_ <;> intro _ <;> rfl
  · unfold State.modSaf
    refine modLane h1 l _ ?_ ?_ <;> intro _ <;> rfl
  · unfold State.modSaf
    refine modLane h1 l _ ?_ ?_ <;> intro _ <;> rfl

theorem capBySource (h : a.EvOnly s) (l : Lane) (src : Nat) : a.EvOnly (s.capBySource l src).1 := by
  unfold State.capBySource
  suffices ∀ (xs : List (Fin 8)) (acc : State × Bool), a.EvOnly acc.1 → a.EvOnly (xs.foldl (fun (acc : State × Bool) w =>
    if acc.1.fld l (F.MEM_CAP_STAT_STATE w.val) == 1 && acc.1.fld l (F.MEM_CAP_CFG_TMODE w.val) == 1 &&
       acc.1.fld l (F.MEM_CAP_CFG_TSRC w.val) == src then (acc.1.capTrigger l w, true) else acc) acc).1 from this _ _ h
  intro xs
  induction xs with
  | nil => intro acc hacc; exact hacc
  | cons w t ih =>
    intro acc hacc
    refine ih _ ?_
    dsimp only
    split
    · exact capTrigger hacc l w
    · exact hacc

end State.EvOnly

/-- Every source number of R456 is below 96. -/
theorem sourceOf_lt {p b src : Nat} (h : sourceOf p b = some src) : src < 96 := by
  unfold sourceOf at h
  split at h
  · split at h
    · simp only [Option.some.injEq] at h; omega
    · cases h
  · split at h
    · simp only [Option.some.injEq] at h; omega
    · cases h
  · split at h
    · simp only [Option.some.injEq] at h; omega
    · cases h
  · split at h
    · rename_i r hr
      have hm := List.mem_of_find?_eq_some hr
      have hall : ∀ r ∈ srcTable, ∀ x ∈ r.2, x < 96 := by decide
      exact hall r hm src (List.mem_of_getElem? h)
    · cases h

namespace State.EvOnly
variable {a s : State}

theorem laneRise (h : a.EvOnly s) (l : Lane) (e : Ev) (f : Bool) (he : e.page % 0x1000 = 0) : a.EvOnly (s.laneRise l e f) := by
  unfold State.laneRise
  have h1 := pend h l e he
  dsimp only
  split
  · rename_i src p hs hp
    have h2 := countRise h1 l src (by have := sourceOf_lt hs; omega)
    exact startReact (ite (addLog h2 ..) h2) ..
  · exact h1

theorem routed (h : a.EvOnly s) (l : Lane) (e : Ev) (pulse : Bool) (f : State → State) (hf : ∀ t, a.EvOnly t → a.EvOnly (f t)) :
    a.EvOnly (s.routed l e pulse f) := by
  unfold State.routed
  split
  · exact hf _ h
  · refine fold _ _ (hf _ h) (fun t k ht => ?_)
    exact ite ht (ite (routeFall (routeRing ht ..) ..) (routeRing ht ..))

theorem capWake (h : a.EvOnly s) (l : Lane) (src : Nat) : a.EvOnly (s.capWake l src) := by
  unfold State.capWake
  have h2 := capBySource h l src
  refine ite h2 (capBySource (routed h2 l _ true _ (fun t ht => laneRise ?_ l E.MEM_CAP_TRIG false rfl)) l 11)
  refine modLane ht l _ ?_ ?_ <;> intro _ <;> rfl

theorem laneRiseCap (h : a.EvOnly s) (l : Lane) (e : Ev) (f : Bool) (he : e.page % 0x1000 = 0) :
    a.EvOnly (s.laneRiseCap l e f) := by
  unfold State.laneRiseCap
  have h1 := laneRise h l e f he
  dsimp only
  split
  · exact h1
  · exact capWake h1 l _

theorem islRise (h : a.EvOnly s) (e : Ev) (f : Bool) (he : e.page % 0x1000 = 0) : a.EvOnly (s.islRise e f) := by
  unfold State.islRise
  have h1 := pend h .A e he
  dsimp only
  split
  · rename_i src p hs hp
    have hs' : src < 128 := by have := sourceOf_lt hs; omega
    have h2 : a.EvOnly (if (!s.inReset .A) = true then (s.pend .A e).countRise .A src else s.pend .A e) :=
      ite (countRise h1 .A src hs') h1
    have cr : ∀ (t : State) (l : Lane) (p : Prop) [Decidable p], a.EvOnly t → a.EvOnly (if p then t.countRise l src else t) :=
      fun t l p _ ht => ite (countRise ht l src hs') ht
    have cb : ∀ (t : State) (l : Lane) (p : Prop) [Decidable p], a.EvOnly t → a.EvOnly (if p then t.capWake l src else t) :=
      fun t l p _ ht => ite (capWake ht l src) ht
    have lg : ∀ (t : State) (r : Nat) (p' : Prop) [Decidable p'], a.EvOnly t →
        a.EvOnly (if p' then t.addLog .A 2 p e src false f r else t) := fun t r p' _ ht => ite (addLog ht ..) ht
    exact cb _ .B _ (cb _ .A _ (startReact (startReact (lg _ _ _ (cr _ .B _ (cr _ .A _ h1))) ..) ..))
  · exact h1

theorem monRise (h : a.EvOnly s) (e : Ev) (f : Bool) (he : e.page % 0x1000 = 0) (hb : e.bit < 32) : a.EvOnly (s.monRise e f) := by
  unfold State.monRise
  refine addLog ?_ ..
  have h1 : a.EvOnly ((s.pend .A e).mbump (F.MON_CNT_CNT (e.bit / 4) (e.bit % 4))) := by
    refine put (pend h .A e he) .A _ _ ?_
    have : (F.MON_CNT_CNT (e.bit / 4) (e.bit % 4)).addr = 0xC0100 + e.bit / 4 * 4 := rfl
    rw [this]
    simp only [evAddr, Bool.or_eq_true, Bool.and_eq_true, decide_eq_true_eq]
    right
    omega
  have step : ∀ (t : State) (l : Lane), a.EvOnly t → a.EvOnly (if t.inReset l then t
      else (t.put l F.EVC_STAT_LAST_SRC e.bit).putFlag l F.EVC_STAT_LAST_MON true) :=
    fun t l ht => ite ht (put (put ht l _ _ rfl) l _ _ rfl)
  exact step _ .B (step _ .A h1)

/-- A header bit as the chapters have them: its page begins on a page boundary, and it is one of 32. -/
def Proper (e : Ev) : Prop := e.page % 0x1000 = 0 ∧ e.bit < 32

theorem rise (h : a.EvOnly s) (l : Lane) (e : Ev) (f : Bool) (he : Proper e) : a.EvOnly (s.rise l e f) := by
  unfold State.rise
  split
  · exact monRise h e f he.1 he.2
  · exact islRise h e f he.1
  · exact islRise h e f he.1
  · exact laneRiseCap h l e f he.1

theorem pulseEv (h : a.EvOnly s) (l : Lane) (e : Ev) (f : Bool) (he : Proper e) : a.EvOnly (s.pulseEv l e f) := by
  unfold State.pulseEv
  refine ite h (routed h l e true _ (fun t ht => ?_))
  dsimp only
  refine rise (ite ?_ ?_) l e f he
  · exact modMon ht _ (fun _ => rfl) (fun _ => rfl)
  · exact modLane ht l _ (fun _ => rfl) (fun _ => rfl)

theorem levelEv (h : a.EvOnly s) (l : Lane) (e : Ev) (on : Bool) (he : Proper e) : a.EvOnly (s.levelEv l e on) := by
  unfold State.levelEv
  refine ite h (routed h l e false _ (fun t ht => ?_))
  dsimp only
  have k : ∀ w, a.EvOnly (t.putWord l (e.page + 0x010) w) := fun w => by
    refine putWord ht l _ _ ?_
    have : (e.page + 0x010) % 0x1000 = 0x010 := by have := he.1; omega
    simp [evAddr, this]
  exact ite (rise (k _) l e false he) (k _)

end State.EvOnly

end Sys2Proof.Machine
end

