-- ==== Sys2Proof/Laws/Keeps.lean ====
section
/-! SUPPORT. What every operation keeps: it leaves the queue of waiting commands and the time base alone and takes a sound state to a sound one. The
relation is carried through an operation by one lemma per shared operation. -/
namespace Sys2Proof.Machine
set_option linter.all false
set_option Elab.async false

/-- t came from a by operations that leave the queue and the time base alone and keep soundness. -/
def State.Keeps (a t : State) : Prop := (t.pending = a.pending ∧ t.time = a.time) ∧ (a.Sound → t.Sound)

/-- The same of an answer, of an effect, of an optional state and of a state beside a value. -/
def OutKeeps (a : State) (o : Out) : Prop := ∀ t, o = .next t → a.Keeps t
def EffKeeps (a : State) (e : Eff) : Prop := ∀ t, e = .ok t → a.Keeps t
def WriteKeeps (a : State) (e : Except Rej (State × Status)) : Prop := ∀ t st, e = .ok (t, st) → a.Keeps t
def OptKeeps (a : State) (o : Option State) : Prop := ∀ t, o = some t → a.Keeps t

namespace State.Keeps
variable {a s : State}

theorem refl : a.Keeps a := ⟨⟨rfl, rfl⟩, id⟩

theorem trans {b c : State} (h : a.Keeps b) (k : b.Keeps c) : a.Keeps c := ⟨⟨k.1.1.trans h.1.1, k.1.2.trans h.1.2⟩, fun x => k.2 (h.2 x)⟩

theorem lane (h : a.Keeps s) (l : Lane) (f : LaneState → LaneState) (hf : ∀ x : LaneState, x.Sound → (f x).Sound) :
    a.Keeps (s.modLane l f) := by
  refine ⟨h.1, fun x => ?_⟩
  obtain ⟨h1, h2, h3⟩ := h.2 x
  cases l
  · exact ⟨hf _ h1, h2, h3⟩
  · exact ⟨h1, hf _ h2, h3⟩

/-- A change that looks at the lane's own state, whose soundness it may use. -/
theorem laneOf (h : a.Keeps s) (l : Lane) (f : LaneState → LaneState) (hf : (s.lane l).Sound → (f (s.lane l)).Sound) :
    a.Keeps (s.modLane l f) := by
  refine ⟨h.1, fun x => ?_⟩
  obtain ⟨h1, h2, h3⟩ := h.2 x
  cases l
  · exact ⟨hf h1, h2, h3⟩
  · exact ⟨h1, hf h2, h3⟩

theorem mon (h : a.Keeps s) (f : MonState → MonState) (hf : ∀ x : MonState, x.Sound → (f x).Sound) : a.Keeps (s.modMon f) := by
  refine ⟨h.1, fun x => ?_⟩
  obtain ⟨h1, h2, h3⟩ := h.2 x
  exact ⟨h1, h2, hf _ h3⟩

theorem red (h : a.Keeps s) (l : Lane) (f : RedState → RedState)
    (hf : ∀ r : RedState, r.journal.length ≤ 1024 → (f r).journal.length ≤ 1024) : a.Keeps (s.modRed l f) :=
  lane h l _ (fun _ ⟨h1, h2, h3, h4, h5, h6⟩ => ⟨h1, h2, h3, h4, hf _ h5, h6⟩)

theorem trc (h : a.Keeps s) (l : Lane) (f : TrcState → TrcState) : a.Keeps (s.modTrc l f) := lane h l _ (fun _ hx => hx)
theorem eng (h : a.Keeps s) (l : Lane) (f : EngState → EngState) : a.Keeps (s.modEng l f) := lane h l _ (fun _ hx => hx)
theorem fbk (h : a.Keeps s) (l : Lane) (f : FbkState → FbkState) : a.Keeps (s.modFbk l f) := lane h l _ (fun _ hx => hx)
theorem smp (h : a.Keeps s) (l : Lane) (f : SmpState → SmpState) : a.Keeps (s.modSmp l f) := lane h l _ (fun _ hx => hx)
theorem dcl (h : a.Keeps s) (l : Lane) (f : DclState → DclState) : a.Keeps (s.modDcl l f) := lane h l _ (fun _ hx => hx)
theorem chg (h : a.Keeps s) (l : Lane) (f : ChgState → ChgState) : a.Keeps (s.modChg l f) := lane h l _ (fun _ hx => hx)
theorem act (h : a.Keeps s) (l : Lane) (n : Fin 2) (f : ActState → ActState) : a.Keeps (s.modAct l n f) := lane h l _ (fun _ hx => hx)
theorem boot (h : a.Keeps s) (l : Lane) (f : BootState → BootState) : a.Keeps (s.modBoot l f) := lane h l _ (fun _ hx => hx)
theorem hold (h : a.Keeps s) (l : Lane) (f : Hold → Hold) : a.Keeps (s.modHold l f) := lane h l _ (fun _ hx => hx)
theorem saf (h : a.Keeps s) (l : Lane) (f : SafLines → SafLines) : a.Keeps (s.modSaf l f) := lane h l _ (fun _ hx => hx)
theorem ring (h : a.Keeps s) (l : Lane) (f : RingState → RingState) : a.Keeps (s.modRing l f) := lane h l _ (fun _ hx => hx)
theorem hv (h : a.Keeps s) (n : Fin 34) (f : HvIsl → HvIsl) : a.Keeps (s.modHv n f) := h
theorem lv (h : a.Keeps s) (f : LvIsl → LvIsl) : a.Keeps (s.modLv f) := h
theorem lvCh (h : a.Keeps s) (n : Fin 12) (f : LvChan → LvChan) : a.Keeps (s.modLvCh n f) := h
theorem aon (h : a.Keeps s) (f : Aon → Aon) : a.Keeps (s.modAon f) := h
theorem sns (h : a.Keeps s) (n : Fin 7) (f : SnsIsl → SnsIsl) : a.Keeps (s.modSns n f) := h
theorem ofs (h : a.Keeps s) (l : Lane) (f : Int → Int) : a.Keeps (s.modOfs l f) := h
theorem withFree (h : a.Keeps s) (v : Nat) : a.Keeps { s with free := v } := h

theorem ite {p : Prop} [Decidable p] {t : State} (h : p → a.Keeps s) (k : ¬p → a.Keeps t) : a.Keeps (if p then s else t) := by
  split
  · exact h ‹_›
  · exact k ‹_›

theorem fold {α : Type} (xs : List α) (f : State → α → State) (h : a.Keeps s) (hf : ∀ s x, a.Keeps s → a.Keeps (f s x)) :
    a.Keeps (xs.foldl f s) := by
  induction xs generalizing s with
  | nil => exact h
  | cons x t ih => exact ih (hf _ _ h)

theorem both (h : a.Keeps s) (f : Lane → State → State) (hf : ∀ l s, a.Keeps s → a.Keeps (f l s)) : a.Keeps (s.both f) :=
  hf _ _ (hf _ _ h)

theorem out {t : State} (h : a.Keeps s) (e : s.Keeps t) : a.Keeps t := h.trans e

theorem effOk (h : a.Keeps s) : EffKeeps a (.ok s) := fun _ e => by cases e; exact h
theorem effError (r : Rej) : EffKeeps a (.error r) := fun _ e => by cases e
theorem writeOk (h : a.Keeps s) (st : Status) : WriteKeeps a (.ok (s, st)) := fun _ _ e => by cases e; exact h
theorem writeError (r : Rej) : WriteKeeps a (.error r) := fun _ _ e => by cases e
theorem optSome (h : a.Keeps s) : OptKeeps a (some s) := fun _ e => by cases e; exact h
theorem optNone : OptKeeps a none := fun _ e => by cases e
theorem outNext (h : a.Keeps s) : OutKeeps a (.next s) := fun _ e => by cases e; exact h

theorem setLane (h : a.Keeps s) (l : Lane) (x : LaneState) (hx : (s.lane l).Sound → x.Sound) : a.Keeps (s.setLane l x) := by
  refine ⟨h.1, fun z => ?_⟩
  obtain ⟨h1, h2, h3⟩ := h.2 z
  cases l
  · exact ⟨hx h1, h2, h3⟩
  · exact ⟨h1, hx h2, h3⟩

/-- A change of a lane's windows, and of anything that soundness does not look at. -/
theorem mem (h : a.Keeps s) (l : Lane) (f : LaneState → LaneState)
    (hm : a.Sound → Memory.wf 0 (s.lane l).mem = true → Memory.wf 0 (f (s.lane l)).mem = true)
    (hf : ∀ x : LaneState, (f x).regs = x.regs ∧ (f x).flash = x.flash ∧ (f x).evq = x.evq ∧ (f x).red = x.red ∧ (f x).can = x.can) :
    a.Keeps (s.modLane l f) := by
  refine ⟨h.1, fun z => ?_⟩
  have key : (s.lane l).Sound → (f (s.lane l)).Sound := by
    rintro ⟨h1, h2, h3, h4, h5, h6⟩
    obtain ⟨e1, e2, e3, e4, e5⟩ := hf (s.lane l)
    refine ⟨by rw [e1]; exact h1, hm z h2, by rw [e2]; exact h3, by rw [e3]; exact h4, by rw [e4]; exact h5, ?_⟩
    rw [e5]; exact h6
  obtain ⟨h1, h2, h3⟩ := h.2 z
  cases l
  · exact ⟨key h1, h2, h3⟩
  · exact ⟨h1, key h2, h3⟩

theorem getD {o : Option State} (h : a.Keeps s) (k : OptKeeps a o) : a.Keeps (o.getD s) := by
  cases o with
  | none => exact h
  | some t => exact k t rfl

theorem effIte {p : Prop} [Decidable p] {x y : Eff} (h : EffKeeps a x) (k : EffKeeps a y) : EffKeeps a (if p then x else y) := by
  split
  · exact h
  · exact k

theorem effBind (x : Eff) (k : State → Eff) (hx : EffKeeps a x) (hk : ∀ s, a.Keeps s → EffKeeps a (k s)) :
    EffKeeps a (x >>= k) := by
  cases x with
  | ok t => exact hk t (hx t rfl)
  | error r => exact effError r

theorem effGuard {α : Type} (x : Except Rej α) (k : α → Eff) (hk : ∀ u, EffKeeps a (k u)) : EffKeeps a (x >>= k) := by
  cases x with
  | ok t => exact hk t
  | error r => exact effError r

theorem writeBindEff (x : Eff) (k : State → Except Rej (State × Status)) (hx : EffKeeps a x)
    (hk : ∀ s, a.Keeps s → WriteKeeps a (k s)) : WriteKeeps a (x >>= k) := by
  cases x with
  | ok t => exact hk t (hx t rfl)
  | error r => exact writeError r

theorem writeBind (x : Except Rej (State × Status)) (k : State × Status → Except Rej (State × Status)) (hx : WriteKeeps a x)
    (hk : ∀ s st, a.Keeps s → WriteKeeps a (k (s, st))) : WriteKeeps a (x >>= k) := by
  cases x with
  | ok t => exact hk t.1 t.2 (hx t.1 t.2 rfl)
  | error r => exact writeError r

theorem writeGuard {α : Type} (x : Except Rej α) (k : α → Except Rej (State × Status)) (hk : ∀ u, WriteKeeps a (k u)) :
    WriteKeeps a (x >>= k) := by
  cases x with
  | ok t => exact hk t
  | error r => exact writeError r

end State.Keeps

/-- A CAN controller after reset fits. -/
theorem CanState.fits_reset (c : Fin 2) : ((Vector.replicate 2 ({} : CanState))[c]).Fits := by
  simp [CanState.Fits]

/-- A lane after reset with a canonical flash is sound. -/
theorem LaneState.sound_reset (f : List Host.Cell) (h : Memory.wf 0xFF f = true) (hold : Hold) (boot : BootState) (dup : Bool) :
    LaneState.Sound { hold := hold, flash := f, dup := dup, boot := boot } :=
  ⟨rfl, rfl, h, Nat.zero_le _, Nat.zero_le _, CanState.fits_reset⟩

theorem State.putWord_keeps {a s : State} (h : a.Keeps s) (l : Lane) (n : Nat) (w : Word) : a.Keeps (s.putWord l n w) := by
  unfold State.putWord
  split
  · exact h.mon _ (fun m hm => ⟨RegFile.write_wf _ _ _ hm.1, hm.2⟩)
  · exact h.lane _ _ (fun x hx => ⟨RegFile.write_wf _ _ _ hx.1, hx.2⟩)

theorem State.fresh_keeps {a s : State} (h : a.Keeps s) : a.Keeps s.fresh.2 := h

theorem State.fresh_pair {a s t : State} {w : Word} (e : s.fresh = (w, t)) (h : a.Keeps s) : a.Keeps t := by
  cases e
  exact h

theorem State.put_keeps {a s : State} (h : a.Keeps s) (l : Lane) (f : Fld) (v : Nat) : a.Keeps (s.put l f v) := putWord_keeps h ..
theorem State.putFlag_keeps {a s : State} (h : a.Keeps s) (l : Lane) (f : Fld) (v : Bool) : a.Keeps (s.putFlag l f v) := put_keeps h ..
theorem State.bump_keeps {a s : State} (h : a.Keeps s) (l : Lane) (f : Fld) (v : Nat) : a.Keeps (s.bump l f v) := put_keeps h ..
theorem State.mput_keeps {a s : State} (h : a.Keeps s) (f : Fld) (v : Nat) : a.Keeps (s.mput f v) := put_keeps h ..
theorem State.mputFlag_keeps {a s : State} (h : a.Keeps s) (f : Fld) (v : Bool) : a.Keeps (s.mputFlag f v) := put_keeps h ..
theorem State.mbump_keeps {a s : State} (h : a.Keeps s) (f : Fld) (v : Nat) : a.Keeps (s.mbump f v) := put_keeps h ..

end Sys2Proof.Machine
end

