-- ==== Sys2Proof/Laws/Keeps/Ops.lean ====
section
/-! SUPPORT. What the operations of Ops keep. -/
namespace Sys2Proof.Machine
set_option linter.all false
set_option Elab.async false

theorem State.halfGone_keeps {a s : State} (h : a.Keeps s) (l : Lane) (addr : Nat) (lost : Bool) :
    a.Keeps (State.halfGone s l addr lost) := by
  unfold State.halfGone
  repeat' (first | (exact fun (_ : LaneState) hx => hx) | with_reducible assumption | lift_lets -underBinder | (intro x; have hx : a.Keeps x := (by repeat' (first | (exact fun (_ : LaneState) hx => hx) | with_reducible assumption | lift_lets -underBinder | (with_reducible first | apply State.Keeps.ite | apply State.Keeps.both | apply State.Keeps.lane) | (first | split | (dsimp only [x]; split)) | (intro _))); clear_value x) | (intro x; dsimp -zeta only [x]; clear x) | (intro x; clear_value x) | (with_reducible first | apply State.Keeps.ite | apply State.Keeps.both | apply State.Keeps.lane) | split | (intro _))

end Sys2Proof.Machine
end

