-- ==== Sys2Proof/Laws/Keeps/Flags.lean ====
section
/-! SUPPORT. What the operations of Flags keep. -/
namespace Sys2Proof.Machine
set_option linter.all false
set_option Elab.async false

theorem State.send_keeps {a s : State} (h : a.Keeps s) (l : Lane) (toEnd : Bool) (f : Sent) :
    a.Keeps (State.send s l toEnd f) := by
  unfold State.send
  repeat' (first | with_reducible assumption | (with_reducible first | apply State.Keeps.ite | apply State.Keeps.ring | apply State.bump_keeps) | (intro _))

theorem State.sendEvent_keeps {a s : State} (h : a.Keeps s) (l : Lane) (toEnd : Bool) (x : EvItem) :
    a.Keeps (State.sendEvent s l toEnd x) := by
  unfold State.sendEvent
  repeat' (first | with_reducible assumption | lift_lets -underBinder | (intro x; have hx : a.Keeps x := (by repeat' (first | with_reducible assumption | lift_lets -underBinder | (with_reducible first | apply State.Keeps.ite | apply State.Keeps.ring | apply State.send_keeps) | (intro _))); clear_value x) | (intro x; clear_value x) | (with_reducible first | apply State.Keeps.ite | apply State.Keeps.ring | apply State.send_keeps) | (intro _))

theorem State.evIn_keeps {a s : State} (h : a.Keeps s) (l : Lane) (x : EvItem) : a.Keeps (State.evIn s l x) := by
  have wait : ∀ (t : State) (y : EvItem), a.Keeps t → a.Keeps (if (t.lane l).evq.length ≥ 32 then t
      else (t.modLane l (fun z => { z with evq := z.evq ++ [y] })).bump l F.RING_CNT2_EVT_COAL) := by
    intro t y ht
    refine State.Keeps.ite (fun _ => ht) (fun hn => State.bump_keeps (ht.laneOf l _ ?_) ..)
    rintro ⟨h1, h2, h3, h4, h5, h6⟩
    exact ⟨h1, h2, h3, by simp only [List.length_append, List.length_cons, List.length_nil]; omega, h5, h6⟩
  unfold State.evIn
  refine State.Keeps.ite (fun _ => h.ring ..) (fun _ => ?_)
  split
  · exact State.Keeps.ite (fun _ => State.sendEvent_keeps (h.ring ..) ..) (fun _ => wait _ _ (h.ring ..))
  · exact wait _ _ (h.ring ..)

theorem State.routeRing_keeps {a s : State} (h : a.Keeps s) (l : Lane) (src : Nat) (before : Bool) :
    a.Keeps (State.routeRing s l src before) := by
  unfold State.routeRing
  repeat' (first | with_reducible assumption | lift_lets -underBinder | (intro x; have hx : a.Keeps x := (by repeat' (first | with_reducible assumption | lift_lets -underBinder | (with_reducible first | apply State.Keeps.ite | apply State.evIn_keeps) | (intro _))); clear_value x) | (intro x; clear_value x) | (with_reducible first | apply State.Keeps.ite | apply State.evIn_keeps) | (intro _))

theorem State.routeFall_keeps {a s : State} (h : a.Keeps s) (l : Lane) (src : Nat) (before : Bool) :
    a.Keeps (State.routeFall s l src before) := by
  unfold State.routeFall
  repeat' (first | with_reducible assumption | (with_reducible first | apply State.Keeps.ite | apply State.evIn_keeps) | (intro _))

theorem State.addLog_keeps {a s : State} (h : a.Keeps s) (l : Lane) (origin : Nat) (p : Page) (e : Ev) (src : Nat)
    (mon forced : Bool) (react : Nat) : a.Keeps (State.addLog s l origin p e src mon forced react) := by
  unfold State.addLog
  refine State.Keeps.ite (fun _ => h) (fun _ => ?_)
  have h1 : ∀ (f : MonState → MonState), (∀ m, (f m).regs = m.regs ∧ (f m).log.length ≤ 512) → a.Keeps (s.modMon f) :=
    fun f hf => h.mon f (fun m hm => ⟨by rw [(hf m).1]; exact hm.1, (hf m).2⟩)
  refine State.Keeps.ite (fun _ => ?_) (fun _ => ?_)
  · refine State.mbump_keeps (State.mput_keeps (State.putWord_keeps (h1 _ ?_) ..) ..) ..
    exact fun m => ⟨rfl, by simp only [List.length_take]; omega⟩
  · refine State.mput_keeps (State.putWord_keeps (h1 _ ?_) ..) ..
    exact fun m => ⟨rfl, by simp only [List.length_take]; omega⟩

theorem State.pend_keeps {a s : State} (h : a.Keeps s) (l : Lane) (e : Ev) :
    a.Keeps (State.pend s l e) := by
  unfold State.pend
  repeat' (first | with_reducible assumption | (with_reducible first | apply State.putWord_keeps) | split | (intro _))

theorem State.capTrigger_keeps {a s : State} (h : a.Keeps s) (l : Lane) (w : Fin 8) :
    a.Keeps (State.capTrigger s l w) := by
  unfold State.capTrigger
  repeat' (first | (exact fun (_ : LaneState) hx => hx) | with_reducible assumption | (with_reducible first | apply State.Keeps.ite | apply State.Keeps.lane | apply State.put_keeps) | (intro _))

theorem State.countRise_keeps {a s : State} (h : a.Keeps s) (l : Lane) (src : Nat) :
    a.Keeps (State.countRise s l src) := by
  unfold State.countRise
  repeat' (first | with_reducible assumption | lift_lets -underBinder | (intro x; have hx : a.Keeps x := (by repeat' (first | with_reducible assumption | lift_lets -underBinder | (with_reducible first | apply State.bump_keeps | apply State.putFlag_keeps | apply State.put_keeps) | (intro _))); clear_value x) | (intro x; clear_value x) | (with_reducible first | apply State.bump_keeps | apply State.putFlag_keeps | apply State.put_keeps) | (intro _))

theorem State.startReact_keeps {a s : State} (h : a.Keeps s) (l : Lane) (page : Nat) (r : Nat) :
    a.Keeps (State.startReact s l page r) := by
  unfold State.startReact
  repeat' (first | (exact fun (_ : LaneState) hx => hx) | with_reducible assumption | lift_lets -underBinder | (intro x; have hx : a.Keeps x := (by repeat' (first | (exact fun (_ : LaneState) hx => hx) | with_reducible assumption | lift_lets -underBinder | (with_reducible first | apply State.Keeps.ite | apply State.Keeps.lane | apply State.Keeps.saf | apply State.bump_keeps) | (first | split | (dsimp only [x]; split)) | (intro _))); clear_value x) | (intro x; clear_value x) | (with_reducible first | apply State.Keeps.ite | apply State.Keeps.lane | apply State.Keeps.saf | apply State.bump_keeps) | split | (intro _))

theorem State.capBySource_keeps {a s : State} (h : a.Keeps s) (l : Lane) (src : Nat) : a.Keeps (s.capBySource l src).1 := by
  unfold State.capBySource
  suffices ∀ (xs : List (Fin 8)) (acc : State × Bool), a.Keeps acc.1 → a.Keeps (xs.foldl (fun (acc : State × Bool) w =>
    if acc.1.fld l (F.MEM_CAP_STAT_STATE w.val) == 1 && acc.1.fld l (F.MEM_CAP_CFG_TMODE w.val) == 1 &&
       acc.1.fld l (F.MEM_CAP_CFG_TSRC w.val) == src then (acc.1.capTrigger l w, true) else acc) acc).1 from this _ _ h
  intro xs
  induction xs with
  | nil => intro acc hacc; exact hacc
  | cons w t ih =>
    intro acc hacc
    refine ih _ ?_
    dsimp only
    split
    · exact State.capTrigger_keeps hacc l w
    · exact hacc

theorem State.laneRise_keeps {a s : State} (h : a.Keeps s) (l : Lane) (e : Ev) (forced : Bool) :
    a.Keeps (State.laneRise s l e forced) := by
  unfold State.laneRise
  repeat' (first | with_reducible assumption | lift_lets -underBinder | (intro x; have hx : a.Keeps x := (by repeat' (first | with_reducible assumption | lift_lets -underBinder | (with_reducible first | apply State.Keeps.ite | apply State.addLog_keeps | apply State.countRise_keeps | apply State.pend_keeps | apply State.startReact_keeps) | (first | split | (dsimp only [x]; split)) | (intro _))); clear_value x) | (intro x; clear_value x) | (with_reducible first | apply State.Keeps.ite | apply State.addLog_keeps | apply State.countRise_keeps | apply State.pend_keeps | apply State.startReact_keeps) | split | (intro _))

theorem State.routed_keeps {a s : State} (h : a.Keeps s) (l : Lane) (e : Ev) (pulse : Bool) (f : State → State) (hf : ∀ s, a.Keeps s → a.Keeps (f s)) :
    a.Keeps (State.routed s l e pulse f) := by
  unfold State.routed
  repeat' (first | with_reducible assumption | lift_lets -underBinder | (intro x; have hx : a.Keeps x := (by repeat' (first | with_reducible assumption | lift_lets -underBinder | (with_reducible first | apply State.Keeps.ite | apply State.Keeps.fold | apply State.routeFall_keeps | apply State.routeRing_keeps | apply hf) | (first | split | (dsimp only [x]; split)) | (intro _))); clear_value x) | (intro x; clear_value x) | (with_reducible first | apply State.Keeps.ite | apply State.Keeps.fold | apply State.routeFall_keeps | apply State.routeRing_keeps | apply hf) | split | (intro _))

theorem State.capWake_keeps {a s : State} (h : a.Keeps s) (l : Lane) (src : Nat) : a.Keeps (State.capWake s l src) := by
  unfold State.capWake
  have h2 := State.capBySource_keeps h l src
  refine State.Keeps.ite (fun _ => h2) (fun _ => State.capBySource_keeps (State.routed_keeps h2 l _ true _ (fun t ht => ?_)) l 11)
  refine State.laneRise_keeps ?_ ..
  exact ht.lane l _ (fun _ hx => hx)

theorem State.laneRiseCap_keeps {a s : State} (h : a.Keeps s) (l : Lane) (e : Ev) (forced : Bool) :
    a.Keeps (State.laneRiseCap s l e forced) := by
  unfold State.laneRiseCap
  repeat' (first | with_reducible assumption | lift_lets -underBinder | (intro x; have hx : a.Keeps x := (by repeat' (first | with_reducible assumption | lift_lets -underBinder | (with_reducible first | apply State.capWake_keeps | apply State.laneRise_keeps) | (first | split | (dsimp only [x]; split)) | (intro _))); clear_value x) | (intro x; clear_value x) | (with_reducible first | apply State.capWake_keeps | apply State.laneRise_keeps) | split | (intro _))

theorem State.islRise_keeps {a s : State} (h : a.Keeps s) (e : Ev) (forced : Bool) :
    a.Keeps (State.islRise s e forced) := by
  unfold State.islRise
  repeat' (first | with_reducible assumption | lift_lets -underBinder | (intro x; have hx : a.Keeps x := (by repeat' (first | with_reducible assumption | lift_lets -underBinder | (with_reducible first | apply State.Keeps.ite | apply State.addLog_keeps | apply State.capWake_keeps | apply State.countRise_keeps | apply State.pend_keeps | apply State.startReact_keeps) | (first | split | (dsimp only [x]; split)) | (intro _))); clear_value x) | (intro x; dsimp -zeta only [x]; clear x) | (intro x; clear_value x) | (with_reducible first | apply State.Keeps.ite | apply State.addLog_keeps | apply State.capWake_keeps | apply State.countRise_keeps | apply State.pend_keeps | apply State.startReact_keeps) | split | (intro _))

theorem State.monRise_keeps {a s : State} (h : a.Keeps s) (e : Ev) (forced : Bool) :
    a.Keeps (State.monRise s e forced) := by
  unfold State.monRise
  repeat' (first | with_reducible assumption | lift_lets -underBinder | (intro x; have hx : a.Keeps x := (by repeat' (first | with_reducible assumption | lift_lets -underBinder | (with_reducible first | apply State.Keeps.ite | apply State.Keeps.both | apply State.addLog_keeps | apply State.mbump_keeps | apply State.pend_keeps | apply State.putFlag_keeps | apply State.put_keeps) | (intro _))); clear_value x) | (intro x; clear_value x) | (with_reducible first | apply State.Keeps.ite | apply State.Keeps.both | apply State.addLog_keeps | apply State.mbump_keeps | apply State.pend_keeps | apply State.putFlag_keeps | apply State.put_keeps) | (intro _))

theorem State.rise_keeps {a s : State} (h : a.Keeps s) (l : Lane) (e : Ev) (forced : Bool) :
    a.Keeps (State.rise s l e forced) := by
  unfold State.rise
  repeat' (first | with_reducible assumption | (with_reducible first | apply State.islRise_keeps | apply State.laneRiseCap_keeps | apply State.monRise_keeps) | split | (intro _))

theorem State.pulseEv_keeps {a s : State} (h : a.Keeps s) (l : Lane) (e : Ev) (forced : Bool) :
    a.Keeps (State.pulseEv s l e forced) := by
  unfold State.pulseEv
  repeat' (first | (exact fun (_ : LaneState) hx => hx) | (exact fun (_ : MonState) hx => hx) | with_reducible assumption | lift_lets -underBinder | (intro x; have hx : a.Keeps x := (by repeat' (first | (exact fun (_ : LaneState) hx => hx) | (exact fun (_ : MonState) hx => hx) | with_reducible assumption | lift_lets -underBinder | (with_reducible first | apply State.Keeps.ite | apply State.Keeps.lane | apply State.Keeps.mon | apply State.rise_keeps | apply State.routed_keeps) | (first | split | (dsimp only [x]; split)) | (intro _))); clear_value x) | (intro x; dsimp -zeta only [x]; clear x) | (intro x; clear_value x) | (with_reducible first | apply State.Keeps.ite | apply State.Keeps.lane | apply State.Keeps.mon | apply State.rise_keeps | apply State.routed_keeps) | split | (intro _))

theorem State.levelEv_keeps {a s : State} (h : a.Keeps s) (l : Lane) (e : Ev) (on : Bool) :
    a.Keeps (State.levelEv s l e on) := by
  unfold State.levelEv
  repeat' (first | with_reducible assumption | lift_lets -underBinder | (intro x; have hx : a.Keeps x := (by repeat' (first | with_reducible assumption | lift_lets -underBinder | (with_reducible first | apply State.Keeps.ite | apply State.putWord_keeps | apply State.rise_keeps | apply State.routed_keeps) | (first | split | (dsimp only [x]; split)) | (intro _))); clear_value x) | (intro x; clear_value x) | (with_reducible first | apply State.Keeps.ite | apply State.putWord_keeps | apply State.rise_keeps | apply State.routed_keeps) | split | (intro _))

theorem State.monEv_keeps {a s : State} (h : a.Keeps s) (e : Ev) :
    a.Keeps (State.monEv s e) := by
  unfold State.monEv
  repeat' (first | with_reducible assumption | (with_reducible first | apply State.pulseEv_keeps) | (intro _))

theorem State.monLevel_keeps {a s : State} (h : a.Keeps s) (e : Ev) (on : Bool) :
    a.Keeps (State.monLevel s e on) := by
  unfold State.monLevel
  repeat' (first | with_reducible assumption | (with_reducible first | apply State.levelEv_keeps) | (intro _))

end Sys2Proof.Machine
end

