-- ==== Sys2Proof/Laws/EventFrames.lean ====
section
/-! SUPPORT. What an event leaves unchanged, field by field, so that a proof about a command passes over the events it raises. -/
namespace Sys2Proof.Machine

/-- Raising and releasing events, once each. -/
theorem State.pulseEv_only (s : State) (l : Lane) (e : Ev) (f : Bool) (he : State.EvOnly.Proper e) : s.EvOnly (s.pulseEv l e f) :=
  State.EvOnly.refl.pulseEv l e f he

theorem State.levelEv_only (s : State) (l : Lane) (e : Ev) (on : Bool) (he : State.EvOnly.Proper e) : s.EvOnly (s.levelEv l e on) :=
  State.EvOnly.refl.levelEv l e on he

@[simp] theorem E.SYS_DEVNUM_UNSTABLE_proper : State.EvOnly.Proper E.SYS_DEVNUM_UNSTABLE := ⟨by decide, by decide⟩

@[simp] theorem E.SYS_IMAGE_FALLBACK_proper : State.EvOnly.Proper E.SYS_IMAGE_FALLBACK := ⟨by decide, by decide⟩

@[simp] theorem E.SYS_IMAGE_INVALID_proper : State.EvOnly.Proper E.SYS_IMAGE_INVALID := ⟨by decide, by decide⟩

@[simp] theorem E.SYS_IMAGE_MISMATCH_proper : State.EvOnly.Proper E.SYS_IMAGE_MISMATCH := ⟨by decide, by decide⟩

@[simp] theorem E.SYS_ACCESS_REJECT_proper : State.EvOnly.Proper E.SYS_ACCESS_REJECT := ⟨by decide, by decide⟩

@[simp] theorem E.SYS_MP_LOAD_proper : State.EvOnly.Proper E.SYS_MP_LOAD := ⟨by decide, by decide⟩

@[simp] theorem E.CLK_XTAL_FAIL_proper : State.EvOnly.Proper E.CLK_XTAL_FAIL := ⟨by decide, by decide⟩

@[simp] theorem E.CLK_LANE_DEV_proper : State.EvOnly.Proper E.CLK_LANE_DEV := ⟨by decide, by decide⟩

@[simp] theorem E.CLK_PEER_DEV_proper : State.EvOnly.Proper E.CLK_PEER_DEV := ⟨by decide, by decide⟩

@[simp] theorem E.CLK_MON_DEV_proper : State.EvOnly.Proper E.CLK_MON_DEV := ⟨by decide, by decide⟩

@[simp] theorem E.PWR_DROOP_proper : State.EvOnly.Proper E.PWR_DROOP := ⟨by decide, by decide⟩

@[simp] theorem E.MEM_ECC_CORR_proper : State.EvOnly.Proper E.MEM_ECC_CORR := ⟨by decide, by decide⟩

@[simp] theorem E.MEM_ECC_UNCORR_proper : State.EvOnly.Proper E.MEM_ECC_UNCORR := ⟨by decide, by decide⟩

@[simp] theorem E.MEM_SCRUB_LATE_proper : State.EvOnly.Proper E.MEM_SCRUB_LATE := ⟨by decide, by decide⟩

@[simp] theorem E.MEM_PWR_REFUSED_proper : State.EvOnly.Proper E.MEM_PWR_REFUSED := ⟨by decide, by decide⟩

@[simp] theorem E.MEM_CAP_TRIG_proper : State.EvOnly.Proper E.MEM_CAP_TRIG := ⟨by decide, by decide⟩

@[simp] theorem E.MEM_CAP_DONE_proper : State.EvOnly.Proper E.MEM_CAP_DONE := ⟨by decide, by decide⟩

@[simp] theorem E.MEM_DP_COLLIDE_proper : State.EvOnly.Proper E.MEM_DP_COLLIDE := ⟨by decide, by decide⟩

@[simp] theorem E.CE_OVERRUN_proper : State.EvOnly.Proper E.CE_OVERRUN := ⟨by decide, by decide⟩

@[simp] theorem E.CE_NONFINITE_proper : State.EvOnly.Proper E.CE_NONFINITE := ⟨by decide, by decide⟩

@[simp] theorem E.CE_COEF_CLOSED_proper : State.EvOnly.Proper E.CE_COEF_CLOSED := ⟨by decide, by decide⟩

@[simp] theorem E.CE_SP_CLIP_proper : State.EvOnly.Proper E.CE_SP_CLIP := ⟨by decide, by decide⟩

@[simp] theorem E.CE_SP_FAULT_proper : State.EvOnly.Proper E.CE_SP_FAULT := ⟨by decide, by decide⟩

@[simp] theorem E.CE_TEST_FAIL_proper : State.EvOnly.Proper E.CE_TEST_FAIL := ⟨by decide, by decide⟩

@[simp] theorem E.CE_TABLE_INVALID_proper : State.EvOnly.Proper E.CE_TABLE_INVALID := ⟨by decide, by decide⟩

@[simp] theorem E.CE_RAMP_BRAKE_proper : State.EvOnly.Proper E.CE_RAMP_BRAKE := ⟨by decide, by decide⟩

@[simp] theorem E.RED_PEER_FAILED_proper : State.EvOnly.Proper E.RED_PEER_FAILED := ⟨by decide, by decide⟩

@[simp] theorem E.RED_SELF_FAILED_proper : State.EvOnly.Proper E.RED_SELF_FAILED := ⟨by decide, by decide⟩

@[simp] theorem E.RED_TOKEN_MOVED_proper : State.EvOnly.Proper E.RED_TOKEN_MOVED := ⟨by decide, by decide⟩

@[simp] theorem E.RED_SPLIT_proper : State.EvOnly.Proper E.RED_SPLIT := ⟨by decide, by decide⟩

@[simp] theorem E.RED_SPLIT_END_proper : State.EvOnly.Proper E.RED_SPLIT_END := ⟨by decide, by decide⟩

@[simp] theorem E.RED_SPLIT_TIMEOUT_proper : State.EvOnly.Proper E.RED_SPLIT_TIMEOUT := ⟨by decide, by decide⟩

@[simp] theorem E.RED_PEER_RETURN_proper : State.EvOnly.Proper E.RED_PEER_RETURN := ⟨by decide, by decide⟩

@[simp] theorem E.RED_RETURN_DONE_proper : State.EvOnly.Proper E.RED_RETURN_DONE := ⟨by decide, by decide⟩

@[simp] theorem E.RED_PEER_RESET_proper : State.EvOnly.Proper E.RED_PEER_RESET := ⟨by decide, by decide⟩

@[simp] theorem E.RED_PEER_RESET_STUCK_proper : State.EvOnly.Proper E.RED_PEER_RESET_STUCK := ⟨by decide, by decide⟩

@[simp] theorem E.RED_JOURNAL_FULL_proper : State.EvOnly.Proper E.RED_JOURNAL_FULL := ⟨by decide, by decide⟩

@[simp] theorem E.RED_REPLAY_proper : State.EvOnly.Proper E.RED_REPLAY := ⟨by decide, by decide⟩

@[simp] theorem E.RED_SUBJ_DIVERGE_proper : State.EvOnly.Proper E.RED_SUBJ_DIVERGE := ⟨by decide, by decide⟩

@[simp] theorem E.RED_COPY_STALE_proper : State.EvOnly.Proper E.RED_COPY_STALE := ⟨by decide, by decide⟩

@[simp] theorem E.RED_MON_LOST_proper : State.EvOnly.Proper E.RED_MON_LOST := ⟨by decide, by decide⟩

@[simp] theorem E.CONJ_LINK_DOWN_proper : State.EvOnly.Proper E.CONJ_LINK_DOWN := ⟨by decide, by decide⟩

@[simp] theorem E.CONJ_LINK_UP_proper : State.EvOnly.Proper E.CONJ_LINK_UP := ⟨by decide, by decide⟩

@[simp] theorem E.CONJ_LOCK_LOST_proper : State.EvOnly.Proper E.CONJ_LOCK_LOST := ⟨by decide, by decide⟩

@[simp] theorem E.CONJ_LOCK_proper : State.EvOnly.Proper E.CONJ_LOCK := ⟨by decide, by decide⟩

@[simp] theorem E.CONJ_CRC_proper : State.EvOnly.Proper E.CONJ_CRC := ⟨by decide, by decide⟩

@[simp] theorem E.CONJ_HB_MISS_proper : State.EvOnly.Proper E.CONJ_HB_MISS := ⟨by decide, by decide⟩

@[simp] theorem E.RING_CUT_proper : State.EvOnly.Proper E.RING_CUT := ⟨by decide, by decide⟩

@[simp] theorem E.RING_HEAL_proper : State.EvOnly.Proper E.RING_HEAL := ⟨by decide, by decide⟩

@[simp] theorem E.RING_ORPHAN_proper : State.EvOnly.Proper E.RING_ORPHAN := ⟨by decide, by decide⟩

@[simp] theorem E.RING_CRC_proper : State.EvOnly.Proper E.RING_CRC := ⟨by decide, by decide⟩

@[simp] theorem E.RING_LEN_DROP_proper : State.EvOnly.Proper E.RING_LEN_DROP := ⟨by decide, by decide⟩

@[simp] theorem E.RING_TIME_STEP_proper : State.EvOnly.Proper E.RING_TIME_STEP := ⟨by decide, by decide⟩

@[simp] theorem E.RING_DEV_DUP_proper : State.EvOnly.Proper E.RING_DEV_DUP := ⟨by decide, by decide⟩

@[simp] theorem E.RING_RXQ_DROP_proper : State.EvOnly.Proper E.RING_RXQ_DROP := ⟨by decide, by decide⟩

@[simp] theorem E.BULK_DONE_proper : State.EvOnly.Proper E.BULK_DONE := ⟨by decide, by decide⟩

@[simp] theorem E.BULK_REJECT_proper : State.EvOnly.Proper E.BULK_REJECT := ⟨by decide, by decide⟩

@[simp] theorem E.BULK_IMAGE_FAIL_proper : State.EvOnly.Proper E.BULK_IMAGE_FAIL := ⟨by decide, by decide⟩

@[simp] theorem E.FBK_RES_LOS_proper : State.EvOnly.Proper E.FBK_RES_LOS := ⟨by decide, by decide⟩

@[simp] theorem E.FBK_RES_DOS_proper : State.EvOnly.Proper E.FBK_RES_DOS := ⟨by decide, by decide⟩

@[simp] theorem E.FBK_RES_LOT_proper : State.EvOnly.Proper E.FBK_RES_LOT := ⟨by decide, by decide⟩

@[simp] theorem E.FBK_ENC_GLITCH_proper : State.EvOnly.Proper E.FBK_ENC_GLITCH := ⟨by decide, by decide⟩

@[simp] theorem E.FBK_ENC_FAULT_proper : State.EvOnly.Proper E.FBK_ENC_FAULT := ⟨by decide, by decide⟩

@[simp] theorem E.FBK_INDEX_MISMATCH_proper : State.EvOnly.Proper E.FBK_INDEX_MISMATCH := ⟨by decide, by decide⟩

@[simp] theorem E.FBK_HALL_ILLEGAL_proper : State.EvOnly.Proper E.FBK_HALL_ILLEGAL := ⟨by decide, by decide⟩

@[simp] theorem E.FBK_SSI_ERR_proper : State.EvOnly.Proper E.FBK_SSI_ERR := ⟨by decide, by decide⟩

@[simp] theorem E.FBK_POS_DISAGREE_proper : State.EvOnly.Proper E.FBK_POS_DISAGREE := ⟨by decide, by decide⟩

@[simp] theorem E.FBK_SRC_CHANGE_proper : State.EvOnly.Proper E.FBK_SRC_CHANGE := ⟨by decide, by decide⟩

@[simp] theorem E.FBK_NO_SOURCE_proper : State.EvOnly.Proper E.FBK_NO_SOURCE := ⟨by decide, by decide⟩

@[simp] theorem E.FBK_POS_STALE_proper : State.EvOnly.Proper E.FBK_POS_STALE := ⟨by decide, by decide⟩

@[simp] theorem E.FBK_SPEED_RANGE_proper : State.EvOnly.Proper E.FBK_SPEED_RANGE := ⟨by decide, by decide⟩

@[simp] theorem E.FBK_HALL_FAULT_proper : State.EvOnly.Proper E.FBK_HALL_FAULT := ⟨by decide, by decide⟩

@[simp] theorem E.SMP_RANGE_proper : State.EvOnly.Proper E.SMP_RANGE := ⟨by decide, by decide⟩

@[simp] theorem E.SMP_FROZEN_proper : State.EvOnly.Proper E.SMP_FROZEN := ⟨by decide, by decide⟩

@[simp] theorem E.SMP_ISUM_proper : State.EvOnly.Proper E.SMP_ISUM := ⟨by decide, by decide⟩

@[simp] theorem E.SMP_IRESID_proper : State.EvOnly.Proper E.SMP_IRESID := ⟨by decide, by decide⟩

@[simp] theorem E.SMP_SNS_LOST_proper : State.EvOnly.Proper E.SMP_SNS_LOST := ⟨by decide, by decide⟩

@[simp] theorem E.SMP_DCL_DISAGREE_proper : State.EvOnly.Proper E.SMP_DCL_DISAGREE := ⟨by decide, by decide⟩

@[simp] theorem E.SMP_REF_FAIL_proper : State.EvOnly.Proper E.SMP_REF_FAIL := ⟨by decide, by decide⟩

@[simp] theorem E.SMP_SLIP_proper : State.EvOnly.Proper E.SMP_SLIP := ⟨by decide, by decide⟩

@[simp] theorem E.SMP_EDGE_WIN_proper : State.EvOnly.Proper E.SMP_EDGE_WIN := ⟨by decide, by decide⟩

@[simp] theorem E.SMP_CAL_DONE_proper : State.EvOnly.Proper E.SMP_CAL_DONE := ⟨by decide, by decide⟩

@[simp] theorem E.SMP_CAL_FAIL_proper : State.EvOnly.Proper E.SMP_CAL_FAIL := ⟨by decide, by decide⟩

@[simp] theorem E.TRC_VLIM_proper : State.EvOnly.Proper E.TRC_VLIM := ⟨by decide, by decide⟩

@[simp] theorem E.TRC_DEC_MODEL_proper : State.EvOnly.Proper E.TRC_DEC_MODEL := ⟨by decide, by decide⟩

@[simp] theorem E.TRC_DEC_RESTORED_proper : State.EvOnly.Proper E.TRC_DEC_RESTORED := ⟨by decide, by decide⟩

@[simp] theorem E.TRC_TLIM_proper : State.EvOnly.Proper E.TRC_TLIM := ⟨by decide, by decide⟩

@[simp] theorem E.TRC_GEOM_MISMATCH_proper : State.EvOnly.Proper E.TRC_GEOM_MISMATCH := ⟨by decide, by decide⟩

@[simp] theorem E.TRC_MMAX_CLAMP_proper : State.EvOnly.Proper E.TRC_MMAX_CLAMP := ⟨by decide, by decide⟩

@[simp] theorem E.TRC_ILV_CHANGE_proper : State.EvOnly.Proper E.TRC_ILV_CHANGE := ⟨by decide, by decide⟩

@[simp] theorem E.TRC_DRAG_proper : State.EvOnly.Proper E.TRC_DRAG := ⟨by decide, by decide⟩

@[simp] theorem E.TRC_SAFE_ENTRY_proper : State.EvOnly.Proper E.TRC_SAFE_ENTRY := ⟨by decide, by decide⟩

@[simp] theorem E.TRC_CATCH_DONE_proper : State.EvOnly.Proper E.TRC_CATCH_DONE := ⟨by decide, by decide⟩

@[simp] theorem E.TRC_GEN_CATCH_proper : State.EvOnly.Proper E.TRC_GEN_CATCH := ⟨by decide, by decide⟩

@[simp] theorem E.TRC_OBS_LOST_proper : State.EvOnly.Proper E.TRC_OBS_LOST := ⟨by decide, by decide⟩

@[simp] theorem E.TRC_ACQ_DONE_proper : State.EvOnly.Proper E.TRC_ACQ_DONE := ⟨by decide, by decide⟩

@[simp] theorem E.TRC_ACQ_FAIL_proper : State.EvOnly.Proper E.TRC_ACQ_FAIL := ⟨by decide, by decide⟩

@[simp] theorem E.TRC_START_FAIL_proper : State.EvOnly.Proper E.TRC_START_FAIL := ⟨by decide, by decide⟩

@[simp] theorem E.TRC_BRAKE_END_proper : State.EvOnly.Proper E.TRC_BRAKE_END := ⟨by decide, by decide⟩

@[simp] theorem E.TRC_STALL_proper : State.EvOnly.Proper E.TRC_STALL := ⟨by decide, by decide⟩

@[simp] theorem E.TRC_POL_DONE_proper : State.EvOnly.Proper E.TRC_POL_DONE := ⟨by decide, by decide⟩

@[simp] theorem E.GDH_SC_proper (n : Nat) : State.EvOnly.Proper (E.GDH_SC n) := by
  constructor
  · show (_ + n * 0x1000) % 0x1000 = 0
    omega
  · show (0 : Nat) < 32
    omega

@[simp] theorem E.GDH_UVLO_P_proper (n : Nat) : State.EvOnly.Proper (E.GDH_UVLO_P n) := by
  constructor
  · show (_ + n * 0x1000) % 0x1000 = 0
    omega
  · show (1 : Nat) < 32
    omega

@[simp] theorem E.GDH_UVLO_N_proper (n : Nat) : State.EvOnly.Proper (E.GDH_UVLO_N n) := by
  constructor
  · show (_ + n * 0x1000) % 0x1000 = 0
    omega
  · show (2 : Nat) < 32
    omega

@[simp] theorem E.GDH_SHOOT_REQ_proper (n : Nat) : State.EvOnly.Proper (E.GDH_SHOOT_REQ n) := by
  constructor
  · show (_ + n * 0x1000) % 0x1000 = 0
    omega
  · show (3 : Nat) < 32
    omega

@[simp] theorem E.GDH_DT_TIMEOUT_proper (n : Nat) : State.EvOnly.Proper (E.GDH_DT_TIMEOUT n) := by
  constructor
  · show (_ + n * 0x1000) % 0x1000 = 0
    omega
  · show (4 : Nat) < 32
    omega

@[simp] theorem E.GDH_LEG_FAULT_proper (n : Nat) : State.EvOnly.Proper (E.GDH_LEG_FAULT n) := by
  constructor
  · show (_ + n * 0x1000) % 0x1000 = 0
    omega
  · show (5 : Nat) < 32
    omega

@[simp] theorem E.GDH_OT_proper (n : Nat) : State.EvOnly.Proper (E.GDH_OT n) := by
  constructor
  · show (_ + n * 0x1000) % 0x1000 = 0
    omega
  · show (6 : Nat) < 32
    omega

@[simp] theorem E.GDH_STREAM_proper (n : Nat) : State.EvOnly.Proper (E.GDH_STREAM n) := by
  constructor
  · show (_ + n * 0x1000) % 0x1000 = 0
    omega
  · show (7 : Nat) < 32
    omega

@[simp] theorem E.GDH_OVS_proper (n : Nat) : State.EvOnly.Proper (E.GDH_OVS n) := by
  constructor
  · show (_ + n * 0x1000) % 0x1000 = 0
    omega
  · show (8 : Nat) < 32
    omega

@[simp] theorem E.GDH_TMP_OPEN_proper (n : Nat) : State.EvOnly.Proper (E.GDH_TMP_OPEN n) := by
  constructor
  · show (_ + n * 0x1000) % 0x1000 = 0
    omega
  · show (9 : Nat) < 32
    omega

@[simp] theorem E.GDL_BOOT_UV_proper (n : Nat) : State.EvOnly.Proper (E.GDL_BOOT_UV n) := by
  constructor
  · show (_ + n * 0x1000) % 0x1000 = 0
    omega
  · show (0 : Nat) < 32
    omega

@[simp] theorem E.GDL_DUTY_CLIP_proper (n : Nat) : State.EvOnly.Proper (E.GDL_DUTY_CLIP n) := by
  constructor
  · show (_ + n * 0x1000) % 0x1000 = 0
    omega
  · show (1 : Nat) < 32
    omega

@[simp] theorem E.GDL_UVLO_proper (n : Nat) : State.EvOnly.Proper (E.GDL_UVLO n) := by
  constructor
  · show (_ + n * 0x1000) % 0x1000 = 0
    omega
  · show (2 : Nat) < 32
    omega

@[simp] theorem E.GDL_SHOOT_REQ_proper (n : Nat) : State.EvOnly.Proper (E.GDL_SHOOT_REQ n) := by
  constructor
  · show (_ + n * 0x1000) % 0x1000 = 0
    omega
  · show (3 : Nat) < 32
    omega

@[simp] theorem E.GDL_DT_TIMEOUT_proper (n : Nat) : State.EvOnly.Proper (E.GDL_DT_TIMEOUT n) := by
  constructor
  · show (_ + n * 0x1000) % 0x1000 = 0
    omega
  · show (4 : Nat) < 32
    omega

@[simp] theorem E.GDL_LEG_FAULT_proper (n : Nat) : State.EvOnly.Proper (E.GDL_LEG_FAULT n) := by
  constructor
  · show (_ + n * 0x1000) % 0x1000 = 0
    omega
  · show (5 : Nat) < 32
    omega

@[simp] theorem E.GDL_OC_proper (n : Nat) : State.EvOnly.Proper (E.GDL_OC n) := by
  constructor
  · show (_ + n * 0x1000) % 0x1000 = 0
    omega
  · show (6 : Nat) < 32
    omega

@[simp] theorem E.GDL_STREAM_proper (n : Nat) : State.EvOnly.Proper (E.GDL_STREAM n) := by
  constructor
  · show (_ + n * 0x1000) % 0x1000 = 0
    omega
  · show (7 : Nat) < 32
    omega

@[simp] theorem E.DCL_PHASE_STOP_proper : State.EvOnly.Proper E.DCL_PHASE_STOP := ⟨by decide, by decide⟩

@[simp] theorem E.DCL_IPK_proper : State.EvOnly.Proper E.DCL_IPK := ⟨by decide, by decide⟩

@[simp] theorem E.DCL_OVERLOAD_proper : State.EvOnly.Proper E.DCL_OVERLOAD := ⟨by decide, by decide⟩

@[simp] theorem E.DCL_SHED_proper : State.EvOnly.Proper E.DCL_SHED := ⟨by decide, by decide⟩

@[simp] theorem E.DCL_SHED_ABORT_proper : State.EvOnly.Proper E.DCL_SHED_ABORT := ⟨by decide, by decide⟩

@[simp] theorem E.DCL_SENSE_ONE_proper : State.EvOnly.Proper E.DCL_SENSE_ONE := ⟨by decide, by decide⟩

@[simp] theorem E.DCL_STOP_proper : State.EvOnly.Proper E.DCL_STOP := ⟨by decide, by decide⟩

@[simp] theorem E.DCL_VBAT_LOST_proper : State.EvOnly.Proper E.DCL_VBAT_LOST := ⟨by decide, by decide⟩

@[simp] theorem E.DCL_VREF_CLIP_proper : State.EvOnly.Proper E.DCL_VREF_CLIP := ⟨by decide, by decide⟩

@[simp] theorem E.DCL_OV_proper : State.EvOnly.Proper E.DCL_OV := ⟨by decide, by decide⟩

@[simp] theorem E.AFE_IPK_proper : State.EvOnly.Proper E.AFE_IPK := ⟨by decide, by decide⟩

@[simp] theorem E.DAB_IPK_proper : State.EvOnly.Proper E.DAB_IPK := ⟨by decide, by decide⟩

@[simp] theorem E.CHG_CONNECT_proper : State.EvOnly.Proper E.CHG_CONNECT := ⟨by decide, by decide⟩

@[simp] theorem E.CHG_PILOT_proper : State.EvOnly.Proper E.CHG_PILOT := ⟨by decide, by decide⟩

@[simp] theorem E.CHG_K_FEEDBACK_proper : State.EvOnly.Proper E.CHG_K_FEEDBACK := ⟨by decide, by decide⟩

@[simp] theorem E.CHG_GRID_DIP_proper : State.EvOnly.Proper E.CHG_GRID_DIP := ⟨by decide, by decide⟩

@[simp] theorem E.CHG_GRID_TRIP_proper : State.EvOnly.Proper E.CHG_GRID_TRIP := ⟨by decide, by decide⟩

@[simp] theorem E.CHG_ISLAND_proper : State.EvOnly.Proper E.CHG_ISLAND := ⟨by decide, by decide⟩

@[simp] theorem E.CHG_STOP_proper : State.EvOnly.Proper E.CHG_STOP := ⟨by decide, by decide⟩

@[simp] theorem E.CHG_V2L_proper : State.EvOnly.Proper E.CHG_V2L := ⟨by decide, by decide⟩

@[simp] theorem E.ACT_END_REACHED_proper : State.EvOnly.Proper E.ACT_END_REACHED := ⟨by decide, by decide⟩

@[simp] theorem E.ACT_MOVE_DONE_proper : State.EvOnly.Proper E.ACT_MOVE_DONE := ⟨by decide, by decide⟩

@[simp] theorem E.ACT_BLOCKED_proper : State.EvOnly.Proper E.ACT_BLOCKED := ⟨by decide, by decide⟩

@[simp] theorem E.ACT_MOVE_TIMEOUT_proper : State.EvOnly.Proper E.ACT_MOVE_TIMEOUT := ⟨by decide, by decide⟩

@[simp] theorem E.ACT_HALL_FAULT_proper : State.EvOnly.Proper E.ACT_HALL_FAULT := ⟨by decide, by decide⟩

@[simp] theorem E.ACT_LEARN_DONE_proper : State.EvOnly.Proper E.ACT_LEARN_DONE := ⟨by decide, by decide⟩

@[simp] theorem E.ACT_LEARN_FAIL_proper : State.EvOnly.Proper E.ACT_LEARN_FAIL := ⟨by decide, by decide⟩

@[simp] theorem E.ACT_VLV_proper : State.EvOnly.Proper E.ACT_VLV := ⟨by decide, by decide⟩

@[simp] theorem E.ACT_FLIM_proper : State.EvOnly.Proper E.ACT_FLIM := ⟨by decide, by decide⟩

@[simp] theorem E.ACT_POS_DISAGREE_proper : State.EvOnly.Proper E.ACT_POS_DISAGREE := ⟨by decide, by decide⟩

@[simp] theorem E.SAF_STO_proper : State.EvOnly.Proper E.SAF_STO := ⟨by decide, by decide⟩

@[simp] theorem E.SAF_STO_DISC_proper : State.EvOnly.Proper E.SAF_STO_DISC := ⟨by decide, by decide⟩

@[simp] theorem E.SAF_SS1_proper : State.EvOnly.Proper E.SAF_SS1 := ⟨by decide, by decide⟩

@[simp] theorem E.SAF_SLS_proper : State.EvOnly.Proper E.SAF_SLS := ⟨by decide, by decide⟩

@[simp] theorem E.SAF_SDI_proper : State.EvOnly.Proper E.SAF_SDI := ⟨by decide, by decide⟩

@[simp] theorem E.SAF_SLP_proper : State.EvOnly.Proper E.SAF_SLP := ⟨by decide, by decide⟩

@[simp] theorem E.SAF_TORQUE_proper : State.EvOnly.Proper E.SAF_TORQUE := ⟨by decide, by decide⟩

@[simp] theorem E.SAF_INTERLOCK_proper : State.EvOnly.Proper E.SAF_INTERLOCK := ⟨by decide, by decide⟩

@[simp] theorem E.SAF_SPEED_DISAGREE_proper : State.EvOnly.Proper E.SAF_SPEED_DISAGREE := ⟨by decide, by decide⟩

@[simp] theorem E.SAF_K_TEST_proper : State.EvOnly.Proper E.SAF_K_TEST := ⟨by decide, by decide⟩

@[simp] theorem E.SAF_K_FEEDBACK_proper : State.EvOnly.Proper E.SAF_K_FEEDBACK := ⟨by decide, by decide⟩

@[simp] theorem E.SAF_RESTART_proper : State.EvOnly.Proper E.SAF_RESTART := ⟨by decide, by decide⟩

@[simp] theorem E.CLS_CRC_proper : State.EvOnly.Proper E.CLS_CRC := ⟨by decide, by decide⟩

@[simp] theorem E.CLS_SEQ_proper : State.EvOnly.Proper E.CLS_SEQ := ⟨by decide, by decide⟩

@[simp] theorem E.CLS_SID_proper : State.EvOnly.Proper E.CLS_SID := ⟨by decide, by decide⟩

@[simp] theorem E.CLS_WDOG_proper : State.EvOnly.Proper E.CLS_WDOG := ⟨by decide, by decide⟩

@[simp] theorem E.CLS_LANE_DIFF_proper : State.EvOnly.Proper E.CLS_LANE_DIFF := ⟨by decide, by decide⟩

@[simp] theorem E.CAN_RX_proper (n : Nat) : State.EvOnly.Proper (E.CAN_RX n) := by
  constructor
  · show (_ + n * 0x1000) % 0x1000 = 0
    omega
  · show (0 : Nat) < 32
    omega

@[simp] theorem E.CAN_RX_OVF_proper (n : Nat) : State.EvOnly.Proper (E.CAN_RX_OVF n) := by
  constructor
  · show (_ + n * 0x1000) % 0x1000 = 0
    omega
  · show (1 : Nat) < 32
    omega

@[simp] theorem E.CAN_TX_DONE_proper (n : Nat) : State.EvOnly.Proper (E.CAN_TX_DONE n) := by
  constructor
  · show (_ + n * 0x1000) % 0x1000 = 0
    omega
  · show (2 : Nat) < 32
    omega

@[simp] theorem E.CAN_TX_FAIL_proper (n : Nat) : State.EvOnly.Proper (E.CAN_TX_FAIL n) := by
  constructor
  · show (_ + n * 0x1000) % 0x1000 = 0
    omega
  · show (3 : Nat) < 32
    omega

@[simp] theorem E.CAN_NO_ACK_proper (n : Nat) : State.EvOnly.Proper (E.CAN_NO_ACK n) := by
  constructor
  · show (_ + n * 0x1000) % 0x1000 = 0
    omega
  · show (4 : Nat) < 32
    omega

@[simp] theorem E.CAN_WARN_proper (n : Nat) : State.EvOnly.Proper (E.CAN_WARN n) := by
  constructor
  · show (_ + n * 0x1000) % 0x1000 = 0
    omega
  · show (5 : Nat) < 32
    omega

@[simp] theorem E.CAN_ERR_PASSIVE_proper (n : Nat) : State.EvOnly.Proper (E.CAN_ERR_PASSIVE n) := by
  constructor
  · show (_ + n * 0x1000) % 0x1000 = 0
    omega
  · show (6 : Nat) < 32
    omega

@[simp] theorem E.CAN_BUS_OFF_proper (n : Nat) : State.EvOnly.Proper (E.CAN_BUS_OFF n) := by
  constructor
  · show (_ + n * 0x1000) % 0x1000 = 0
    omega
  · show (7 : Nat) < 32
    omega

@[simp] theorem E.CAN_PROTO_EXC_proper (n : Nat) : State.EvOnly.Proper (E.CAN_PROTO_EXC n) := by
  constructor
  · show (_ + n * 0x1000) % 0x1000 = 0
    omega
  · show (8 : Nat) < 32
    omega

@[simp] theorem E.CAN_TXQ_FULL_proper (n : Nat) : State.EvOnly.Proper (E.CAN_TXQ_FULL n) := by
  constructor
  · show (_ + n * 0x1000) % 0x1000 = 0
    omega
  · show (9 : Nat) < 32
    omega

@[simp] theorem E.MON_DUAL_MISMATCH_proper : State.EvOnly.Proper E.MON_DUAL_MISMATCH := ⟨by decide, by decide⟩

@[simp] theorem E.MON_DUAL_TIMEOUT_proper : State.EvOnly.Proper E.MON_DUAL_TIMEOUT := ⟨by decide, by decide⟩

@[simp] theorem E.MON_LANE_FAILED_proper : State.EvOnly.Proper E.MON_LANE_FAILED := ⟨by decide, by decide⟩

@[simp] theorem E.MON_LANE_RETIRED_proper : State.EvOnly.Proper E.MON_LANE_RETIRED := ⟨by decide, by decide⟩

@[simp] theorem E.MON_ISOLATED_proper : State.EvOnly.Proper E.MON_ISOLATED := ⟨by decide, by decide⟩

@[simp] theorem E.MON_BOTH_LANES_RESET_proper : State.EvOnly.Proper E.MON_BOTH_LANES_RESET := ⟨by decide, by decide⟩

@[simp] theorem E.MON_CLK_LANE_proper : State.EvOnly.Proper E.MON_CLK_LANE := ⟨by decide, by decide⟩

@[simp] theorem E.MON_CLK_SELF_proper : State.EvOnly.Proper E.MON_CLK_SELF := ⟨by decide, by decide⟩

@[simp] theorem E.MON_STO_proper : State.EvOnly.Proper E.MON_STO := ⟨by decide, by decide⟩

@[simp] theorem E.MON_SS1_proper : State.EvOnly.Proper E.MON_SS1 := ⟨by decide, by decide⟩

@[simp] theorem E.MON_SPEED_proper : State.EvOnly.Proper E.MON_SPEED := ⟨by decide, by decide⟩

@[simp] theorem E.MON_TORQUE_proper : State.EvOnly.Proper E.MON_TORQUE := ⟨by decide, by decide⟩

@[simp] theorem E.MON_SET_HOLD_proper : State.EvOnly.Proper E.MON_SET_HOLD := ⟨by decide, by decide⟩

@[simp] theorem E.MON_INTERLOCK_proper : State.EvOnly.Proper E.MON_INTERLOCK := ⟨by decide, by decide⟩

@[simp] theorem E.MON_STO_DISC_proper : State.EvOnly.Proper E.MON_STO_DISC := ⟨by decide, by decide⟩

@[simp] theorem E.MON_CLAUSE_proper : State.EvOnly.Proper E.MON_CLAUSE := ⟨by decide, by decide⟩

@[simp] theorem E.MON_SST_CHANGE_proper : State.EvOnly.Proper E.MON_SST_CHANGE := ⟨by decide, by decide⟩

@[simp] theorem E.MON_UGEN_proper : State.EvOnly.Proper E.MON_UGEN := ⟨by decide, by decide⟩

@[simp] theorem E.MON_TOKEN_MOVE_proper : State.EvOnly.Proper E.MON_TOKEN_MOVE := ⟨by decide, by decide⟩

@[simp] theorem E.MON_HB_MISS_proper : State.EvOnly.Proper E.MON_HB_MISS := ⟨by decide, by decide⟩

@[simp] theorem E.MON_SNS_LOST_proper : State.EvOnly.Proper E.MON_SNS_LOST := ⟨by decide, by decide⟩

@[simp] theorem E.MON_DCL_DISAGREE_proper : State.EvOnly.Proper E.MON_DCL_DISAGREE := ⟨by decide, by decide⟩

@[simp] theorem E.MON_K_TEST_proper : State.EvOnly.Proper E.MON_K_TEST := ⟨by decide, by decide⟩

@[simp] theorem E.MON_K_FEEDBACK_proper : State.EvOnly.Proper E.MON_K_FEEDBACK := ⟨by decide, by decide⟩

@[simp] theorem E.MON_PG_CHANGE_proper : State.EvOnly.Proper E.MON_PG_CHANGE := ⟨by decide, by decide⟩

@[simp] theorem E.MON_SUPPLY_proper : State.EvOnly.Proper E.MON_SUPPLY := ⟨by decide, by decide⟩

@[simp] theorem E.MON_ADC_REF_proper : State.EvOnly.Proper E.MON_ADC_REF := ⟨by decide, by decide⟩

@[simp] theorem E.MON_TEMP_proper : State.EvOnly.Proper E.MON_TEMP := ⟨by decide, by decide⟩

@[simp] theorem E.MON_ISLAND_DOWN_proper : State.EvOnly.Proper E.MON_ISLAND_DOWN := ⟨by decide, by decide⟩

@[simp] theorem E.MON_TOKEN_CODE_proper : State.EvOnly.Proper E.MON_TOKEN_CODE := ⟨by decide, by decide⟩

@[simp] theorem E.MON_RESTART_proper : State.EvOnly.Proper E.MON_RESTART := ⟨by decide, by decide⟩

@[simp] theorem E.MON_SELF_TEST_proper : State.EvOnly.Proper E.MON_SELF_TEST := ⟨by decide, by decide⟩

@[simp] theorem State.pulseEv_hv (s : State) (l : Lane) (e : Ev) (f : Bool) (he : State.EvOnly.Proper e) : (s.pulseEv l e f).hv = s.hv :=
  (s.pulseEv_only l e f he).hv

@[simp] theorem State.pulseEv_lv (s : State) (l : Lane) (e : Ev) (f : Bool) (he : State.EvOnly.Proper e) : (s.pulseEv l e f).lv = s.lv :=
  (s.pulseEv_only l e f he).lv

@[simp] theorem State.pulseEv_sns (s : State) (l : Lane) (e : Ev) (f : Bool) (he : State.EvOnly.Proper e) : (s.pulseEv l e f).sns = s.sns :=
  (s.pulseEv_only l e f he).sns

@[simp] theorem State.pulseEv_aon (s : State) (l : Lane) (e : Ev) (f : Bool) (he : State.EvOnly.Proper e) : (s.pulseEv l e f).aon = s.aon :=
  (s.pulseEv_only l e f he).aon

@[simp] theorem State.pulseEv_time (s : State) (l : Lane) (e : Ev) (f : Bool) (he : State.EvOnly.Proper e) : (s.pulseEv l e f).time = s.time :=
  (s.pulseEv_only l e f he).time

@[simp] theorem State.pulseEv_timeOfs (s : State) (l : Lane) (e : Ev) (f : Bool) (he : State.EvOnly.Proper e) : (s.pulseEv l e f).timeOfs = s.timeOfs :=
  (s.pulseEv_only l e f he).timeOfs

@[simp] theorem State.pulseEv_free (s : State) (l : Lane) (e : Ev) (f : Bool) (he : State.EvOnly.Proper e) : (s.pulseEv l e f).free = s.free :=
  (s.pulseEv_only l e f he).free

@[simp] theorem State.pulseEv_pending (s : State) (l : Lane) (e : Ev) (f : Bool) : (s.pulseEv l e f).pending = s.pending :=
  (State.pulseEv_keeps State.Keeps.refl l e f).1.1

@[simp] theorem State.pulseEv_lane_hold (s : State) (l : Lane) (e : Ev) (f : Bool) (he : State.EvOnly.Proper e) (k : Lane) : ((s.pulseEv l e f).lane k).hold = (s.lane k).hold := by
  have h := congrArg LaneState.hold ((s.pulseEv_only l e f he).lane k)
  exact h

@[simp] theorem State.pulseEv_lane_boot (s : State) (l : Lane) (e : Ev) (f : Bool) (he : State.EvOnly.Proper e) (k : Lane) : ((s.pulseEv l e f).lane k).boot = (s.lane k).boot := by
  have h := congrArg LaneState.boot ((s.pulseEv_only l e f he).lane k)
  exact h

@[simp] theorem State.pulseEv_lane_mem (s : State) (l : Lane) (e : Ev) (f : Bool) (he : State.EvOnly.Proper e) (k : Lane) : ((s.pulseEv l e f).lane k).mem = (s.lane k).mem := by
  have h := congrArg LaneState.mem ((s.pulseEv_only l e f he).lane k)
  exact h

@[simp] theorem State.pulseEv_lane_flash (s : State) (l : Lane) (e : Ev) (f : Bool) (he : State.EvOnly.Proper e) (k : Lane) : ((s.pulseEv l e f).lane k).flash = (s.lane k).flash := by
  have h := congrArg LaneState.flash ((s.pulseEv_only l e f he).lane k)
  exact h

@[simp] theorem State.pulseEv_lane_shadows (s : State) (l : Lane) (e : Ev) (f : Bool) (he : State.EvOnly.Proper e) (k : Lane) : ((s.pulseEv l e f).lane k).shadows = (s.lane k).shadows := by
  have h := congrArg LaneState.shadows ((s.pulseEv_only l e f he).lane k)
  exact h

@[simp] theorem State.pulseEv_lane_waiting (s : State) (l : Lane) (e : Ev) (f : Bool) (he : State.EvOnly.Proper e) (k : Lane) : ((s.pulseEv l e f).lane k).waiting = (s.lane k).waiting := by
  have h := congrArg LaneState.waiting ((s.pulseEv_only l e f he).lane k)
  exact h

@[simp] theorem State.pulseEv_lane_timedHalves (s : State) (l : Lane) (e : Ev) (f : Bool) (he : State.EvOnly.Proper e) (k : Lane) : ((s.pulseEv l e f).lane k).timedHalves = (s.lane k).timedHalves := by
  have h := congrArg LaneState.timedHalves ((s.pulseEv_only l e f he).lane k)
  exact h

@[simp] theorem State.pulseEv_lane_sess (s : State) (l : Lane) (e : Ev) (f : Bool) (he : State.EvOnly.Proper e) (k : Lane) : ((s.pulseEv l e f).lane k).sess = (s.lane k).sess := by
  have h := congrArg LaneState.sess ((s.pulseEv_only l e f he).lane k)
  exact h

@[simp] theorem State.pulseEv_lane_answer (s : State) (l : Lane) (e : Ev) (f : Bool) (he : State.EvOnly.Proper e) (k : Lane) : ((s.pulseEv l e f).lane k).answer = (s.lane k).answer := by
  have h := congrArg LaneState.answer ((s.pulseEv_only l e f he).lane k)
  exact h

@[simp] theorem State.pulseEv_lane_red (s : State) (l : Lane) (e : Ev) (f : Bool) (he : State.EvOnly.Proper e) (k : Lane) : ((s.pulseEv l e f).lane k).red = (s.lane k).red := by
  have h := congrArg LaneState.red ((s.pulseEv_only l e f he).lane k)
  exact h

@[simp] theorem State.pulseEv_lane_cls (s : State) (l : Lane) (e : Ev) (f : Bool) (he : State.EvOnly.Proper e) (k : Lane) : ((s.pulseEv l e f).lane k).cls = (s.lane k).cls := by
  have h := congrArg LaneState.cls ((s.pulseEv_only l e f he).lane k)
  exact h

@[simp] theorem State.pulseEv_lane_trc (s : State) (l : Lane) (e : Ev) (f : Bool) (he : State.EvOnly.Proper e) (k : Lane) : ((s.pulseEv l e f).lane k).trc = (s.lane k).trc := by
  have h := congrArg LaneState.trc ((s.pulseEv_only l e f he).lane k)
  exact h

@[simp] theorem State.pulseEv_lane_eng (s : State) (l : Lane) (e : Ev) (f : Bool) (he : State.EvOnly.Proper e) (k : Lane) : ((s.pulseEv l e f).lane k).eng = (s.lane k).eng := by
  have h := congrArg LaneState.eng ((s.pulseEv_only l e f he).lane k)
  exact h

@[simp] theorem State.pulseEv_lane_fbk (s : State) (l : Lane) (e : Ev) (f : Bool) (he : State.EvOnly.Proper e) (k : Lane) : ((s.pulseEv l e f).lane k).fbk = (s.lane k).fbk := by
  have h := congrArg LaneState.fbk ((s.pulseEv_only l e f he).lane k)
  exact h

@[simp] theorem State.pulseEv_lane_smp (s : State) (l : Lane) (e : Ev) (f : Bool) (he : State.EvOnly.Proper e) (k : Lane) : ((s.pulseEv l e f).lane k).smp = (s.lane k).smp := by
  have h := congrArg LaneState.smp ((s.pulseEv_only l e f he).lane k)
  exact h

@[simp] theorem State.pulseEv_lane_dcl (s : State) (l : Lane) (e : Ev) (f : Bool) (he : State.EvOnly.Proper e) (k : Lane) : ((s.pulseEv l e f).lane k).dcl = (s.lane k).dcl := by
  have h := congrArg LaneState.dcl ((s.pulseEv_only l e f he).lane k)
  exact h

@[simp] theorem State.pulseEv_lane_chg (s : State) (l : Lane) (e : Ev) (f : Bool) (he : State.EvOnly.Proper e) (k : Lane) : ((s.pulseEv l e f).lane k).chg = (s.lane k).chg := by
  have h := congrArg LaneState.chg ((s.pulseEv_only l e f he).lane k)
  exact h

@[simp] theorem State.pulseEv_lane_act (s : State) (l : Lane) (e : Ev) (f : Bool) (he : State.EvOnly.Proper e) (k : Lane) : ((s.pulseEv l e f).lane k).act = (s.lane k).act := by
  have h := congrArg LaneState.act ((s.pulseEv_only l e f he).lane k)
  exact h

@[simp] theorem State.pulseEv_lane_can (s : State) (l : Lane) (e : Ev) (f : Bool) (he : State.EvOnly.Proper e) (k : Lane) : ((s.pulseEv l e f).lane k).can = (s.lane k).can := by
  have h := congrArg LaneState.can ((s.pulseEv_only l e f he).lane k)
  exact h

@[simp] theorem State.pulseEv_lane_bulkLast (s : State) (l : Lane) (e : Ev) (f : Bool) (he : State.EvOnly.Proper e) (k : Lane) : ((s.pulseEv l e f).lane k).bulkLast = (s.lane k).bulkLast := by
  have h := congrArg LaneState.bulkLast ((s.pulseEv_only l e f he).lane k)
  exact h

@[simp] theorem State.pulseEv_lane_dup (s : State) (l : Lane) (e : Ev) (f : Bool) (he : State.EvOnly.Proper e) (k : Lane) : ((s.pulseEv l e f).lane k).dup = (s.lane k).dup := by
  have h := congrArg LaneState.dup ((s.pulseEv_only l e f he).lane k)
  exact h

@[simp] theorem State.pulseEv_lane_loopReq (s : State) (l : Lane) (e : Ev) (f : Bool) (he : State.EvOnly.Proper e) (k : Lane) : ((s.pulseEv l e f).lane k).loopReq = (s.lane k).loopReq := by
  have h := congrArg LaneState.loopReq ((s.pulseEv_only l e f he).lane k)
  exact h

@[simp] theorem State.pulseEv_lane_scrub (s : State) (l : Lane) (e : Ev) (f : Bool) (he : State.EvOnly.Proper e) (k : Lane) : ((s.pulseEv l e f).lane k).scrub = (s.lane k).scrub := by
  have h := congrArg LaneState.scrub ((s.pulseEv_only l e f he).lane k)
  exact h

@[simp] theorem State.pulseEv_lane_legEvents (s : State) (l : Lane) (e : Ev) (f : Bool) (he : State.EvOnly.Proper e) (k : Lane) : ((s.pulseEv l e f).lane k).legEvents = (s.lane k).legEvents := by
  have h := congrArg LaneState.legEvents ((s.pulseEv_only l e f he).lane k)
  exact h

@[simp] theorem State.pulseEv_mon_alive (s : State) (l : Lane) (e : Ev) (f : Bool) (he : State.EvOnly.Proper e) : (s.pulseEv l e f).mon.alive = s.mon.alive := by
  have h := congrArg MonState.alive (s.pulseEv_only l e f he).mon
  exact h

@[simp] theorem State.pulseEv_mon_halves (s : State) (l : Lane) (e : Ev) (f : Bool) (he : State.EvOnly.Proper e) : (s.pulseEv l e f).mon.halves = s.mon.halves := by
  have h := congrArg MonState.halves (s.pulseEv_only l e f he).mon
  exact h

@[simp] theorem State.pulseEv_mon_counted (s : State) (l : Lane) (e : Ev) (f : Bool) (he : State.EvOnly.Proper e) : (s.pulseEv l e f).mon.counted = s.mon.counted := by
  have h := congrArg MonState.counted (s.pulseEv_only l e f he).mon
  exact h

@[simp] theorem State.pulseEv_mon_hb (s : State) (l : Lane) (e : Ev) (f : Bool) (he : State.EvOnly.Proper e) : (s.pulseEv l e f).mon.hb = s.mon.hb := by
  have h := congrArg MonState.hb (s.pulseEv_only l e f he).mon
  exact h

@[simp] theorem State.pulseEv_mon_missHb (s : State) (l : Lane) (e : Ev) (f : Bool) (he : State.EvOnly.Proper e) : (s.pulseEv l e f).mon.missHb = s.mon.missHb := by
  have h := congrArg MonState.missHb (s.pulseEv_only l e f he).mon
  exact h

@[simp] theorem State.pulseEv_mon_peerBlind (s : State) (l : Lane) (e : Ev) (f : Bool) (he : State.EvOnly.Proper e) : (s.pulseEv l e f).mon.peerBlind = s.mon.peerBlind := by
  have h := congrArg MonState.peerBlind (s.pulseEv_only l e f he).mon
  exact h

@[simp] theorem State.pulseEv_mon_moveReq (s : State) (l : Lane) (e : Ev) (f : Bool) (he : State.EvOnly.Proper e) : (s.pulseEv l e f).mon.moveReq = s.mon.moveReq := by
  have h := congrArg MonState.moveReq (s.pulseEv_only l e f he).mon
  exact h

@[simp] theorem State.pulseEv_mon_moveFrom (s : State) (l : Lane) (e : Ev) (f : Bool) (he : State.EvOnly.Proper e) : (s.pulseEv l e f).mon.moveFrom = s.mon.moveFrom := by
  have h := congrArg MonState.moveFrom (s.pulseEv_only l e f he).mon
  exact h

@[simp] theorem State.pulseEv_mon_resets (s : State) (l : Lane) (e : Ev) (f : Bool) (he : State.EvOnly.Proper e) : (s.pulseEv l e f).mon.resets = s.mon.resets := by
  have h := congrArg MonState.resets (s.pulseEv_only l e f he).mon
  exact h

@[simp] theorem State.pulseEv_mon_holdFail (s : State) (l : Lane) (e : Ev) (f : Bool) (he : State.EvOnly.Proper e) : (s.pulseEv l e f).mon.holdFail = s.mon.holdFail := by
  have h := congrArg MonState.holdFail (s.pulseEv_only l e f he).mon
  exact h

@[simp] theorem State.pulseEv_mon_holdTq (s : State) (l : Lane) (e : Ev) (f : Bool) (he : State.EvOnly.Proper e) : (s.pulseEv l e f).mon.holdTq = s.mon.holdTq := by
  have h := congrArg MonState.holdTq (s.pulseEv_only l e f he).mon
  exact h

@[simp] theorem State.pulseEv_mon_holdIl (s : State) (l : Lane) (e : Ev) (f : Bool) (he : State.EvOnly.Proper e) : (s.pulseEv l e f).mon.holdIl = s.mon.holdIl := by
  have h := congrArg MonState.holdIl (s.pulseEv_only l e f he).mon
  exact h

@[simp] theorem State.pulseEv_mon_mask (s : State) (l : Lane) (e : Ev) (f : Bool) (he : State.EvOnly.Proper e) : (s.pulseEv l e f).mon.mask = s.mon.mask := by
  have h := congrArg MonState.mask (s.pulseEv_only l e f he).mon
  exact h

@[simp] theorem State.pulseEv_mon_sto (s : State) (l : Lane) (e : Ev) (f : Bool) (he : State.EvOnly.Proper e) : (s.pulseEv l e f).mon.sto = s.mon.sto := by
  have h := congrArg MonState.sto (s.pulseEv_only l e f he).mon
  exact h

@[simp] theorem State.pulseEv_mon_ss1 (s : State) (l : Lane) (e : Ev) (f : Bool) (he : State.EvOnly.Proper e) : (s.pulseEv l e f).mon.ss1 = s.mon.ss1 := by
  have h := congrArg MonState.ss1 (s.pulseEv_only l e f he).mon
  exact h

@[simp] theorem State.pulseEv_mon_safState (s : State) (l : Lane) (e : Ev) (f : Bool) (he : State.EvOnly.Proper e) : (s.pulseEv l e f).mon.safState = s.mon.safState := by
  have h := congrArg MonState.safState (s.pulseEv_only l e f he).mon
  exact h

@[simp] theorem State.pulseEv_mon_safCause (s : State) (l : Lane) (e : Ev) (f : Bool) (he : State.EvOnly.Proper e) : (s.pulseEv l e f).mon.safCause = s.mon.safCause := by
  have h := congrArg MonState.safCause (s.pulseEv_only l e f he).mon
  exact h

@[simp] theorem State.pulseEv_mon_causes (s : State) (l : Lane) (e : Ev) (f : Bool) (he : State.EvOnly.Proper e) : (s.pulseEv l e f).mon.causes = s.mon.causes := by
  have h := congrArg MonState.causes (s.pulseEv_only l e f he).mon
  exact h

@[simp] theorem State.pulseEv_mon_ackAt (s : State) (l : Lane) (e : Ev) (f : Bool) (he : State.EvOnly.Proper e) : (s.pulseEv l e f).mon.ackAt = s.mon.ackAt := by
  have h := congrArg MonState.ackAt (s.pulseEv_only l e f he).mon
  exact h

@[simp] theorem State.pulseEv_mon_ackNeed (s : State) (l : Lane) (e : Ev) (f : Bool) (he : State.EvOnly.Proper e) : (s.pulseEv l e f).mon.ackNeed = s.mon.ackNeed := by
  have h := congrArg MonState.ackNeed (s.pulseEv_only l e f he).mon
  exact h

@[simp] theorem State.pulseEv_mon_slpAt (s : State) (l : Lane) (e : Ev) (f : Bool) (he : State.EvOnly.Proper e) : (s.pulseEv l e f).mon.slpAt = s.mon.slpAt := by
  have h := congrArg MonState.slpAt (s.pulseEv_only l e f he).mon
  exact h

@[simp] theorem State.pulseEv_mon_disc (s : State) (l : Lane) (e : Ev) (f : Bool) (he : State.EvOnly.Proper e) : (s.pulseEv l e f).mon.disc = s.mon.disc := by
  have h := congrArg MonState.disc (s.pulseEv_only l e f he).mon
  exact h

@[simp] theorem State.pulseEv_mon_diverse (s : State) (l : Lane) (e : Ev) (f : Bool) (he : State.EvOnly.Proper e) : (s.pulseEv l e f).mon.diverse = s.mon.diverse := by
  have h := congrArg MonState.diverse (s.pulseEv_only l e f he).mon
  exact h

@[simp] theorem State.pulseEv_mon_spd (s : State) (l : Lane) (e : Ev) (f : Bool) (he : State.EvOnly.Proper e) : (s.pulseEv l e f).mon.spd = s.mon.spd := by
  have h := congrArg MonState.spd (s.pulseEv_only l e f he).mon
  exact h

@[simp] theorem State.pulseEv_mon_kFault (s : State) (l : Lane) (e : Ev) (f : Bool) (he : State.EvOnly.Proper e) : (s.pulseEv l e f).mon.kFault = s.mon.kFault := by
  have h := congrArg MonState.kFault (s.pulseEv_only l e f he).mon
  exact h

@[simp] theorem State.pulseEv_mon_tqb (s : State) (l : Lane) (e : Ev) (f : Bool) (he : State.EvOnly.Proper e) : (s.pulseEv l e f).mon.tqb = s.mon.tqb := by
  have h := congrArg MonState.tqb (s.pulseEv_only l e f he).mon
  exact h

@[simp] theorem State.pulseEv_mon_freeA (s : State) (l : Lane) (e : Ev) (f : Bool) (he : State.EvOnly.Proper e) : (s.pulseEv l e f).mon.freeA = s.mon.freeA := by
  have h := congrArg MonState.freeA (s.pulseEv_only l e f he).mon
  exact h

@[simp] theorem State.pulseEv_mon_discLow (s : State) (l : Lane) (e : Ev) (f : Bool) (he : State.EvOnly.Proper e) : (s.pulseEv l e f).mon.discLow = s.mon.discLow := by
  have h := congrArg MonState.discLow (s.pulseEv_only l e f he).mon
  exact h

@[simp] theorem State.pulseEv_mon_discClear (s : State) (l : Lane) (e : Ev) (f : Bool) (he : State.EvOnly.Proper e) : (s.pulseEv l e f).mon.discClear = s.mon.discClear := by
  have h := congrArg MonState.discClear (s.pulseEv_only l e f he).mon
  exact h

@[simp] theorem State.pulseEv_mon_spdCnt (s : State) (l : Lane) (e : Ev) (f : Bool) (he : State.EvOnly.Proper e) : (s.pulseEv l e f).mon.spdCnt = s.mon.spdCnt := by
  have h := congrArg MonState.spdCnt (s.pulseEv_only l e f he).mon
  exact h

@[simp] theorem State.pulseEv_mon_pos (s : State) (l : Lane) (e : Ev) (f : Bool) (he : State.EvOnly.Proper e) : (s.pulseEv l e f).mon.pos = s.mon.pos := by
  have h := congrArg MonState.pos (s.pulseEv_only l e f he).mon
  exact h

@[simp] theorem State.pulseEv_mon_sst (s : State) (l : Lane) (e : Ev) (f : Bool) (he : State.EvOnly.Proper e) : (s.pulseEv l e f).mon.sst = s.mon.sst := by
  have h := congrArg MonState.sst (s.pulseEv_only l e f he).mon
  exact h

@[simp] theorem State.pulseEv_mon_clkBad (s : State) (l : Lane) (e : Ev) (f : Bool) (he : State.EvOnly.Proper e) : (s.pulseEv l e f).mon.clkBad = s.mon.clkBad := by
  have h := congrArg MonState.clkBad (s.pulseEv_only l e f he).mon
  exact h

@[simp] theorem State.pulseEv_mon_clkGood (s : State) (l : Lane) (e : Ev) (f : Bool) (he : State.EvOnly.Proper e) : (s.pulseEv l e f).mon.clkGood = s.mon.clkGood := by
  have h := congrArg MonState.clkGood (s.pulseEv_only l e f he).mon
  exact h

@[simp] theorem State.pulseEv_mon_clkSuspect (s : State) (l : Lane) (e : Ev) (f : Bool) (he : State.EvOnly.Proper e) : (s.pulseEv l e f).mon.clkSuspect = s.mon.clkSuspect := by
  have h := congrArg MonState.clkSuspect (s.pulseEv_only l e f he).mon
  exact h

@[simp] theorem State.pulseEv_mon_kTest (s : State) (l : Lane) (e : Ev) (f : Bool) (he : State.EvOnly.Proper e) : (s.pulseEv l e f).mon.kTest = s.mon.kTest := by
  have h := congrArg MonState.kTest (s.pulseEv_only l e f he).mon
  exact h

@[simp] theorem State.pulseEv_mon_chgK (s : State) (l : Lane) (e : Ev) (f : Bool) (he : State.EvOnly.Proper e) : (s.pulseEv l e f).mon.chgK = s.mon.chgK := by
  have h := congrArg MonState.chgK (s.pulseEv_only l e f he).mon
  exact h

@[simp] theorem State.pulseEv_mon_kReq (s : State) (l : Lane) (e : Ev) (f : Bool) (he : State.EvOnly.Proper e) : (s.pulseEv l e f).mon.kReq = s.mon.kReq := by
  have h := congrArg MonState.kReq (s.pulseEv_only l e f he).mon
  exact h

@[simp] theorem State.pulseEv_mon_tqSum (s : State) (l : Lane) (e : Ev) (f : Bool) (he : State.EvOnly.Proper e) : (s.pulseEv l e f).mon.tqSum = s.mon.tqSum := by
  have h := congrArg MonState.tqSum (s.pulseEv_only l e f he).mon
  exact h

@[simp] theorem State.pulseEv_mon_tqCnt (s : State) (l : Lane) (e : Ev) (f : Bool) (he : State.EvOnly.Proper e) : (s.pulseEv l e f).mon.tqCnt = s.mon.tqCnt := by
  have h := congrArg MonState.tqCnt (s.pulseEv_only l e f he).mon
  exact h

@[simp] theorem State.pulseEv_mon_crossAt (s : State) (l : Lane) (e : Ev) (f : Bool) (he : State.EvOnly.Proper e) : (s.pulseEv l e f).mon.crossAt = s.mon.crossAt := by
  have h := congrArg MonState.crossAt (s.pulseEv_only l e f he).mon
  exact h

@[simp] theorem State.pulseEv_mon_crossNeg (s : State) (l : Lane) (e : Ev) (f : Bool) (he : State.EvOnly.Proper e) : (s.pulseEv l e f).mon.crossNeg = s.mon.crossNeg := by
  have h := congrArg MonState.crossNeg (s.pulseEv_only l e f he).mon
  exact h

@[simp] theorem State.pulseEv_word (s : State) (l : Lane) (e : Ev) (f : Bool) (he : State.EvOnly.Proper e) (k : Lane) (n : Nat) (hn : evAddr n = false) : (s.pulseEv l e f).word k n = s.word k n :=
  (s.pulseEv_only l e f he).word k n hn

@[simp] theorem State.pulseEv_fld (s : State) (l : Lane) (e : Ev) (f : Bool) (he : State.EvOnly.Proper e) (k : Lane) (g : Fld) (hn : evAddr g.addr = false) : (s.pulseEv l e f).fld k g = s.fld k g := by
  simp only [State.fld, State.pulseEv_word s l e f he k g.addr hn]

@[simp] theorem State.pulseEv_inReset (s : State) (l : Lane) (e : Ev) (f : Bool) (he : State.EvOnly.Proper e) (k : Lane) : (s.pulseEv l e f).inReset k = s.inReset k := by
  simp [State.inReset, he]

@[simp] theorem State.levelEv_hv (s : State) (l : Lane) (e : Ev) (on : Bool) (he : State.EvOnly.Proper e) : (s.levelEv l e on).hv = s.hv :=
  (s.levelEv_only l e on he).hv

@[simp] theorem State.levelEv_lv (s : State) (l : Lane) (e : Ev) (on : Bool) (he : State.EvOnly.Proper e) : (s.levelEv l e on).lv = s.lv :=
  (s.levelEv_only l e on he).lv

@[simp] theorem State.levelEv_sns (s : State) (l : Lane) (e : Ev) (on : Bool) (he : State.EvOnly.Proper e) : (s.levelEv l e on).sns = s.sns :=
  (s.levelEv_only l e on he).sns

@[simp] theorem State.levelEv_aon (s : State) (l : Lane) (e : Ev) (on : Bool) (he : State.EvOnly.Proper e) : (s.levelEv l e on).aon = s.aon :=
  (s.levelEv_only l e on he).aon

@[simp] theorem State.levelEv_time (s : State) (l : Lane) (e : Ev) (on : Bool) (he : State.EvOnly.Proper e) : (s.levelEv l e on).time = s.time :=
  (s.levelEv_only l e on he).time

@[simp] theorem State.levelEv_timeOfs (s : State) (l : Lane) (e : Ev) (on : Bool) (he : State.EvOnly.Proper e) : (s.levelEv l e on).timeOfs = s.timeOfs :=
  (s.levelEv_only l e on he).timeOfs

@[simp] theorem State.levelEv_free (s : State) (l : Lane) (e : Ev) (on : Bool) (he : State.EvOnly.Proper e) : (s.levelEv l e on).free = s.free :=
  (s.levelEv_only l e on he).free

@[simp] theorem State.levelEv_pending (s : State) (l : Lane) (e : Ev) (on : Bool) : (s.levelEv l e on).pending = s.pending :=
  (State.levelEv_keeps State.Keeps.refl l e on).1.1

@[simp] theorem State.levelEv_lane_hold (s : State) (l : Lane) (e : Ev) (on : Bool) (he : State.EvOnly.Proper e) (k : Lane) : ((s.levelEv l e on).lane k).hold = (s.lane k).hold := by
  have h := congrArg LaneState.hold ((s.levelEv_only l e on he).lane k)
  exact h

@[simp] theorem State.levelEv_lane_boot (s : State) (l : Lane) (e : Ev) (on : Bool) (he : State.EvOnly.Proper e) (k : Lane) : ((s.levelEv l e on).lane k).boot = (s.lane k).boot := by
  have h := congrArg LaneState.boot ((s.levelEv_only l e on he).lane k)
  exact h

@[simp] theorem State.levelEv_lane_mem (s : State) (l : Lane) (e : Ev) (on : Bool) (he : State.EvOnly.Proper e) (k : Lane) : ((s.levelEv l e on).lane k).mem = (s.lane k).mem := by
  have h := congrArg LaneState.mem ((s.levelEv_only l e on he).lane k)
  exact h

@[simp] theorem State.levelEv_lane_flash (s : State) (l : Lane) (e : Ev) (on : Bool) (he : State.EvOnly.Proper e) (k : Lane) : ((s.levelEv l e on).lane k).flash = (s.lane k).flash := by
  have h := congrArg LaneState.flash ((s.levelEv_only l e on he).lane k)
  exact h

@[simp] theorem State.levelEv_lane_shadows (s : State) (l : Lane) (e : Ev) (on : Bool) (he : State.EvOnly.Proper e) (k : Lane) : ((s.levelEv l e on).lane k).shadows = (s.lane k).shadows := by
  have h := congrArg LaneState.shadows ((s.levelEv_only l e on he).lane k)
  exact h

@[simp] theorem State.levelEv_lane_waiting (s : State) (l : Lane) (e : Ev) (on : Bool) (he : State.EvOnly.Proper e) (k : Lane) : ((s.levelEv l e on).lane k).waiting = (s.lane k).waiting := by
  have h := congrArg LaneState.waiting ((s.levelEv_only l e on he).lane k)
  exact h

@[simp] theorem State.levelEv_lane_timedHalves (s : State) (l : Lane) (e : Ev) (on : Bool) (he : State.EvOnly.Proper e) (k : Lane) : ((s.levelEv l e on).lane k).timedHalves = (s.lane k).timedHalves := by
  have h := congrArg LaneState.timedHalves ((s.levelEv_only l e on he).lane k)
  exact h

@[simp] theorem State.levelEv_lane_sess (s : State) (l : Lane) (e : Ev) (on : Bool) (he : State.EvOnly.Proper e) (k : Lane) : ((s.levelEv l e on).lane k).sess = (s.lane k).sess := by
  have h := congrArg LaneState.sess ((s.levelEv_only l e on he).lane k)
  exact h

@[simp] theorem State.levelEv_lane_answer (s : State) (l : Lane) (e : Ev) (on : Bool) (he : State.EvOnly.Proper e) (k : Lane) : ((s.levelEv l e on).lane k).answer = (s.lane k).answer := by
  have h := congrArg LaneState.answer ((s.levelEv_only l e on he).lane k)
  exact h

@[simp] theorem State.levelEv_lane_red (s : State) (l : Lane) (e : Ev) (on : Bool) (he : State.EvOnly.Proper e) (k : Lane) : ((s.levelEv l e on).lane k).red = (s.lane k).red := by
  have h := congrArg LaneState.red ((s.levelEv_only l e on he).lane k)
  exact h

@[simp] theorem State.levelEv_lane_cls (s : State) (l : Lane) (e : Ev) (on : Bool) (he : State.EvOnly.Proper e) (k : Lane) : ((s.levelEv l e on).lane k).cls = (s.lane k).cls := by
  have h := congrArg LaneState.cls ((s.levelEv_only l e on he).lane k)
  exact h

@[simp] theorem State.levelEv_lane_trc (s : State) (l : Lane) (e : Ev) (on : Bool) (he : State.EvOnly.Proper e) (k : Lane) : ((s.levelEv l e on).lane k).trc = (s.lane k).trc := by
  have h := congrArg LaneState.trc ((s.levelEv_only l e on he).lane k)
  exact h

@[simp] theorem State.levelEv_lane_eng (s : State) (l : Lane) (e : Ev) (on : Bool) (he : State.EvOnly.Proper e) (k : Lane) : ((s.levelEv l e on).lane k).eng = (s.lane k).eng := by
  have h := congrArg LaneState.eng ((s.levelEv_only l e on he).lane k)
  exact h

@[simp] theorem State.levelEv_lane_fbk (s : State) (l : Lane) (e : Ev) (on : Bool) (he : State.EvOnly.Proper e) (k : Lane) : ((s.levelEv l e on).lane k).fbk = (s.lane k).fbk := by
  have h := congrArg LaneState.fbk ((s.levelEv_only l e on he).lane k)
  exact h

@[simp] theorem State.levelEv_lane_smp (s : State) (l : Lane) (e : Ev) (on : Bool) (he : State.EvOnly.Proper e) (k : Lane) : ((s.levelEv l e on).lane k).smp = (s.lane k).smp := by
  have h := congrArg LaneState.smp ((s.levelEv_only l e on he).lane k)
  exact h

@[simp] theorem State.levelEv_lane_dcl (s : State) (l : Lane) (e : Ev) (on : Bool) (he : State.EvOnly.Proper e) (k : Lane) : ((s.levelEv l e on).lane k).dcl = (s.lane k).dcl := by
  have h := congrArg LaneState.dcl ((s.levelEv_only l e on he).lane k)
  exact h

@[simp] theorem State.levelEv_lane_chg (s : State) (l : Lane) (e : Ev) (on : Bool) (he : State.EvOnly.Proper e) (k : Lane) : ((s.levelEv l e on).lane k).chg = (s.lane k).chg := by
  have h := congrArg LaneState.chg ((s.levelEv_only l e on he).lane k)
  exact h

@[simp] theorem State.levelEv_lane_act (s : State) (l : Lane) (e : Ev) (on : Bool) (he : State.EvOnly.Proper e) (k : Lane) : ((s.levelEv l e on).lane k).act = (s.lane k).act := by
  have h := congrArg LaneState.act ((s.levelEv_only l e on he).lane k)
  exact h

@[simp] theorem State.levelEv_lane_can (s : State) (l : Lane) (e : Ev) (on : Bool) (he : State.EvOnly.Proper e) (k : Lane) : ((s.levelEv l e on).lane k).can = (s.lane k).can := by
  have h := congrArg LaneState.can ((s.levelEv_only l e on he).lane k)
  exact h

@[simp] theorem State.levelEv_lane_bulkLast (s : State) (l : Lane) (e : Ev) (on : Bool) (he : State.EvOnly.Proper e) (k : Lane) : ((s.levelEv l e on).lane k).bulkLast = (s.lane k).bulkLast := by
  have h := congrArg LaneState.bulkLast ((s.levelEv_only l e on he).lane k)
  exact h

@[simp] theorem State.levelEv_lane_dup (s : State) (l : Lane) (e : Ev) (on : Bool) (he : State.EvOnly.Proper e) (k : Lane) : ((s.levelEv l e on).lane k).dup = (s.lane k).dup := by
  have h := congrArg LaneState.dup ((s.levelEv_only l e on he).lane k)
  exact h

@[simp] theorem State.levelEv_lane_loopReq (s : State) (l : Lane) (e : Ev) (on : Bool) (he : State.EvOnly.Proper e) (k : Lane) : ((s.levelEv l e on).lane k).loopReq = (s.lane k).loopReq := by
  have h := congrArg LaneState.loopReq ((s.levelEv_only l e on he).lane k)
  exact h

@[simp] theorem State.levelEv_lane_scrub (s : State) (l : Lane) (e : Ev) (on : Bool) (he : State.EvOnly.Proper e) (k : Lane) : ((s.levelEv l e on).lane k).scrub = (s.lane k).scrub := by
  have h := congrArg LaneState.scrub ((s.levelEv_only l e on he).lane k)
  exact h

@[simp] theorem State.levelEv_lane_legEvents (s : State) (l : Lane) (e : Ev) (on : Bool) (he : State.EvOnly.Proper e) (k : Lane) : ((s.levelEv l e on).lane k).legEvents = (s.lane k).legEvents := by
  have h := congrArg LaneState.legEvents ((s.levelEv_only l e on he).lane k)
  exact h

@[simp] theorem State.levelEv_mon_alive (s : State) (l : Lane) (e : Ev) (on : Bool) (he : State.EvOnly.Proper e) : (s.levelEv l e on).mon.alive = s.mon.alive := by
  have h := congrArg MonState.alive (s.levelEv_only l e on he).mon
  exact h

@[simp] theorem State.levelEv_mon_halves (s : State) (l : Lane) (e : Ev) (on : Bool) (he : State.EvOnly.Proper e) : (s.levelEv l e on).mon.halves = s.mon.halves := by
  have h := congrArg MonState.halves (s.levelEv_only l e on he).mon
  exact h

@[simp] theorem State.levelEv_mon_counted (s : State) (l : Lane) (e : Ev) (on : Bool) (he : State.EvOnly.Proper e) : (s.levelEv l e on).mon.counted = s.mon.counted := by
  have h := congrArg MonState.counted (s.levelEv_only l e on he).mon
  exact h

@[simp] theorem State.levelEv_mon_hb (s : State) (l : Lane) (e : Ev) (on : Bool) (he : State.EvOnly.Proper e) : (s.levelEv l e on).mon.hb = s.mon.hb := by
  have h := congrArg MonState.hb (s.levelEv_only l e on he).mon
  exact h

@[simp] theorem State.levelEv_mon_missHb (s : State) (l : Lane) (e : Ev) (on : Bool) (he : State.EvOnly.Proper e) : (s.levelEv l e on).mon.missHb = s.mon.missHb := by
  have h := congrArg MonState.missHb (s.levelEv_only l e on he).mon
  exact h

@[simp] theorem State.levelEv_mon_peerBlind (s : State) (l : Lane) (e : Ev) (on : Bool) (he : State.EvOnly.Proper e) : (s.levelEv l e on).mon.peerBlind = s.mon.peerBlind := by
  have h := congrArg MonState.peerBlind (s.levelEv_only l e on he).mon
  exact h

@[simp] theorem State.levelEv_mon_moveReq (s : State) (l : Lane) (e : Ev) (on : Bool) (he : State.EvOnly.Proper e) : (s.levelEv l e on).mon.moveReq = s.mon.moveReq := by
  have h := congrArg MonState.moveReq (s.levelEv_only l e on he).mon
  exact h

@[simp] theorem State.levelEv_mon_moveFrom (s : State) (l : Lane) (e : Ev) (on : Bool) (he : State.EvOnly.Proper e) : (s.levelEv l e on).mon.moveFrom = s.mon.moveFrom := by
  have h := congrArg MonState.moveFrom (s.levelEv_only l e on he).mon
  exact h

@[simp] theorem State.levelEv_mon_resets (s : State) (l : Lane) (e : Ev) (on : Bool) (he : State.EvOnly.Proper e) : (s.levelEv l e on).mon.resets = s.mon.resets := by
  have h := congrArg MonState.resets (s.levelEv_only l e on he).mon
  exact h

@[simp] theorem State.levelEv_mon_holdFail (s : State) (l : Lane) (e : Ev) (on : Bool) (he : State.EvOnly.Proper e) : (s.levelEv l e on).mon.holdFail = s.mon.holdFail := by
  have h := congrArg MonState.holdFail (s.levelEv_only l e on he).mon
  exact h

@[simp] theorem State.levelEv_mon_holdTq (s : State) (l : Lane) (e : Ev) (on : Bool) (he : State.EvOnly.Proper e) : (s.levelEv l e on).mon.holdTq = s.mon.holdTq := by
  have h := congrArg MonState.holdTq (s.levelEv_only l e on he).mon
  exact h

@[simp] theorem State.levelEv_mon_holdIl (s : State) (l : Lane) (e : Ev) (on : Bool) (he : State.EvOnly.Proper e) : (s.levelEv l e on).mon.holdIl = s.mon.holdIl := by
  have h := congrArg MonState.holdIl (s.levelEv_only l e on he).mon
  exact h

@[simp] theorem State.levelEv_mon_mask (s : State) (l : Lane) (e : Ev) (on : Bool) (he : State.EvOnly.Proper e) : (s.levelEv l e on).mon.mask = s.mon.mask := by
  have h := congrArg MonState.mask (s.levelEv_only l e on he).mon
  exact h

@[simp] theorem State.levelEv_mon_sto (s : State) (l : Lane) (e : Ev) (on : Bool) (he : State.EvOnly.Proper e) : (s.levelEv l e on).mon.sto = s.mon.sto := by
  have h := congrArg MonState.sto (s.levelEv_only l e on he).mon
  exact h

@[simp] theorem State.levelEv_mon_ss1 (s : State) (l : Lane) (e : Ev) (on : Bool) (he : State.EvOnly.Proper e) : (s.levelEv l e on).mon.ss1 = s.mon.ss1 := by
  have h := congrArg MonState.ss1 (s.levelEv_only l e on he).mon
  exact h

@[simp] theorem State.levelEv_mon_safState (s : State) (l : Lane) (e : Ev) (on : Bool) (he : State.EvOnly.Proper e) : (s.levelEv l e on).mon.safState = s.mon.safState := by
  have h := congrArg MonState.safState (s.levelEv_only l e on he).mon
  exact h

@[simp] theorem State.levelEv_mon_safCause (s : State) (l : Lane) (e : Ev) (on : Bool) (he : State.EvOnly.Proper e) : (s.levelEv l e on).mon.safCause = s.mon.safCause := by
  have h := congrArg MonState.safCause (s.levelEv_only l e on he).mon
  exact h

@[simp] theorem State.levelEv_mon_causes (s : State) (l : Lane) (e : Ev) (on : Bool) (he : State.EvOnly.Proper e) : (s.levelEv l e on).mon.causes = s.mon.causes := by
  have h := congrArg MonState.causes (s.levelEv_only l e on he).mon
  exact h

@[simp] theorem State.levelEv_mon_ackAt (s : State) (l : Lane) (e : Ev) (on : Bool) (he : State.EvOnly.Proper e) : (s.levelEv l e on).mon.ackAt = s.mon.ackAt := by
  have h := congrArg MonState.ackAt (s.levelEv_only l e on he).mon
  exact h

@[simp] theorem State.levelEv_mon_ackNeed (s : State) (l : Lane) (e : Ev) (on : Bool) (he : State.EvOnly.Proper e) : (s.levelEv l e on).mon.ackNeed = s.mon.ackNeed := by
  have h := congrArg MonState.ackNeed (s.levelEv_only l e on he).mon
  exact h

@[simp] theorem State.levelEv_mon_slpAt (s : State) (l : Lane) (e : Ev) (on : Bool) (he : State.EvOnly.Proper e) : (s.levelEv l e on).mon.slpAt = s.mon.slpAt := by
  have h := congrArg MonState.slpAt (s.levelEv_only l e on he).mon
  exact h

@[simp] theorem State.levelEv_mon_disc (s : State) (l : Lane) (e : Ev) (on : Bool) (he : State.EvOnly.Proper e) : (s.levelEv l e on).mon.disc = s.mon.disc := by
  have h := congrArg MonState.disc (s.levelEv_only l e on he).mon
  exact h

@[simp] theorem State.levelEv_mon_diverse (s : State) (l : Lane) (e : Ev) (on : Bool) (he : State.EvOnly.Proper e) : (s.levelEv l e on).mon.diverse = s.mon.diverse := by
  have h := congrArg MonState.diverse (s.levelEv_only l e on he).mon
  exact h

@[simp] theorem State.levelEv_mon_spd (s : State) (l : Lane) (e : Ev) (on : Bool) (he : State.EvOnly.Proper e) : (s.levelEv l e on).mon.spd = s.mon.spd := by
  have h := congrArg MonState.spd (s.levelEv_only l e on he).mon
  exact h

@[simp] theorem State.levelEv_mon_kFault (s : State) (l : Lane) (e : Ev) (on : Bool) (he : State.EvOnly.Proper e) : (s.levelEv l e on).mon.kFault = s.mon.kFault := by
  have h := congrArg MonState.kFault (s.levelEv_only l e on he).mon
  exact h

@[simp] theorem State.levelEv_mon_tqb (s : State) (l : Lane) (e : Ev) (on : Bool) (he : State.EvOnly.Proper e) : (s.levelEv l e on).mon.tqb = s.mon.tqb := by
  have h := congrArg MonState.tqb (s.levelEv_only l e on he).mon
  exact h

@[simp] theorem State.levelEv_mon_freeA (s : State) (l : Lane) (e : Ev) (on : Bool) (he : State.EvOnly.Proper e) : (s.levelEv l e on).mon.freeA = s.mon.freeA := by
  have h := congrArg MonState.freeA (s.levelEv_only l e on he).mon
  exact h

@[simp] theorem State.levelEv_mon_discLow (s : State) (l : Lane) (e : Ev) (on : Bool) (he : State.EvOnly.Proper e) : (s.levelEv l e on).mon.discLow = s.mon.discLow := by
  have h := congrArg MonState.discLow (s.levelEv_only l e on he).mon
  exact h

@[simp] theorem State.levelEv_mon_discClear (s : State) (l : Lane) (e : Ev) (on : Bool) (he : State.EvOnly.Proper e) : (s.levelEv l e on).mon.discClear = s.mon.discClear := by
  have h := congrArg MonState.discClear (s.levelEv_only l e on he).mon
  exact h

@[simp] theorem State.levelEv_mon_spdCnt (s : State) (l : Lane) (e : Ev) (on : Bool) (he : State.EvOnly.Proper e) : (s.levelEv l e on).mon.spdCnt = s.mon.spdCnt := by
  have h := congrArg MonState.spdCnt (s.levelEv_only l e on he).mon
  exact h

@[simp] theorem State.levelEv_mon_pos (s : State) (l : Lane) (e : Ev) (on : Bool) (he : State.EvOnly.Proper e) : (s.levelEv l e on).mon.pos = s.mon.pos := by
  have h := congrArg MonState.pos (s.levelEv_only l e on he).mon
  exact h

@[simp] theorem State.levelEv_mon_sst (s : State) (l : Lane) (e : Ev) (on : Bool) (he : State.EvOnly.Proper e) : (s.levelEv l e on).mon.sst = s.mon.sst := by
  have h := congrArg MonState.sst (s.levelEv_only l e on he).mon
  exact h

@[simp] theorem State.levelEv_mon_clkBad (s : State) (l : Lane) (e : Ev) (on : Bool) (he : State.EvOnly.Proper e) : (s.levelEv l e on).mon.clkBad = s.mon.clkBad := by
  have h := congrArg MonState.clkBad (s.levelEv_only l e on he).mon
  exact h

@[simp] theorem State.levelEv_mon_clkGood (s : State) (l : Lane) (e : Ev) (on : Bool) (he : State.EvOnly.Proper e) : (s.levelEv l e on).mon.clkGood = s.mon.clkGood := by
  have h := congrArg MonState.clkGood (s.levelEv_only l e on he).mon
  exact h

@[simp] theorem State.levelEv_mon_clkSuspect (s : State) (l : Lane) (e : Ev) (on : Bool) (he : State.EvOnly.Proper e) : (s.levelEv l e on).mon.clkSuspect = s.mon.clkSuspect := by
  have h := congrArg MonState.clkSuspect (s.levelEv_only l e on he).mon
  exact h

@[simp] theorem State.levelEv_mon_kTest (s : State) (l : Lane) (e : Ev) (on : Bool) (he : State.EvOnly.Proper e) : (s.levelEv l e on).mon.kTest = s.mon.kTest := by
  have h := congrArg MonState.kTest (s.levelEv_only l e on he).mon
  exact h

@[simp] theorem State.levelEv_mon_chgK (s : State) (l : Lane) (e : Ev) (on : Bool) (he : State.EvOnly.Proper e) : (s.levelEv l e on).mon.chgK = s.mon.chgK := by
  have h := congrArg MonState.chgK (s.levelEv_only l e on he).mon
  exact h

@[simp] theorem State.levelEv_mon_kReq (s : State) (l : Lane) (e : Ev) (on : Bool) (he : State.EvOnly.Proper e) : (s.levelEv l e on).mon.kReq = s.mon.kReq := by
  have h := congrArg MonState.kReq (s.levelEv_only l e on he).mon
  exact h

@[simp] theorem State.levelEv_mon_tqSum (s : State) (l : Lane) (e : Ev) (on : Bool) (he : State.EvOnly.Proper e) : (s.levelEv l e on).mon.tqSum = s.mon.tqSum := by
  have h := congrArg MonState.tqSum (s.levelEv_only l e on he).mon
  exact h

@[simp] theorem State.levelEv_mon_tqCnt (s : State) (l : Lane) (e : Ev) (on : Bool) (he : State.EvOnly.Proper e) : (s.levelEv l e on).mon.tqCnt = s.mon.tqCnt := by
  have h := congrArg MonState.tqCnt (s.levelEv_only l e on he).mon
  exact h

@[simp] theorem State.levelEv_mon_crossAt (s : State) (l : Lane) (e : Ev) (on : Bool) (he : State.EvOnly.Proper e) : (s.levelEv l e on).mon.crossAt = s.mon.crossAt := by
  have h := congrArg MonState.crossAt (s.levelEv_only l e on he).mon
  exact h

@[simp] theorem State.levelEv_mon_crossNeg (s : State) (l : Lane) (e : Ev) (on : Bool) (he : State.EvOnly.Proper e) : (s.levelEv l e on).mon.crossNeg = s.mon.crossNeg := by
  have h := congrArg MonState.crossNeg (s.levelEv_only l e on he).mon
  exact h

@[simp] theorem State.levelEv_word (s : State) (l : Lane) (e : Ev) (on : Bool) (he : State.EvOnly.Proper e) (k : Lane) (n : Nat) (hn : evAddr n = false) : (s.levelEv l e on).word k n = s.word k n :=
  (s.levelEv_only l e on he).word k n hn

@[simp] theorem State.levelEv_fld (s : State) (l : Lane) (e : Ev) (on : Bool) (he : State.EvOnly.Proper e) (k : Lane) (g : Fld) (hn : evAddr g.addr = false) : (s.levelEv l e on).fld k g = s.fld k g := by
  simp only [State.fld, State.levelEv_word s l e on he k g.addr hn]

@[simp] theorem State.levelEv_inReset (s : State) (l : Lane) (e : Ev) (on : Bool) (he : State.EvOnly.Proper e) (k : Lane) : (s.levelEv l e on).inReset k = s.inReset k := by
  simp [State.inReset, he]

end Sys2Proof.Machine
end

