-- ==== Sys2Proof/Laws/Keeps/Stops.lean ====
section
/-! SUPPORT. What the operations of Stops keep. -/
namespace Sys2Proof.Machine
set_option linter.all false
set_option Elab.async false

theorem State.loopOpen_keeps {a s : State} (h : a.Keeps s) (l : Lane) (n : Nat) :
    a.Keeps (State.loopOpen s l n) := by
  unfold State.loopOpen
  repeat' (first | (exact fun (_ : LaneState) hx => hx) | with_reducible assumption | lift_lets -underBinder | (intro x; have hx : a.Keeps x := (by repeat' (first | (exact fun (_ : LaneState) hx => hx) | with_reducible assumption | lift_lets -underBinder | (with_reducible first | apply State.Keeps.lane | apply State.putWord_keeps) | (intro _))); clear_value x) | (intro x; clear_value x) | (with_reducible first | apply State.Keeps.lane | apply State.putWord_keeps) | (intro _))

theorem State.loopAsk_keeps {a s : State} (h : a.Keeps s) (l : Lane) (n : Nat) :
    a.Keeps (State.loopAsk s l n) := by
  unfold State.loopAsk
  repeat' (first | (exact fun (_ : LaneState) hx => hx) | with_reducible assumption | (with_reducible first | apply State.Keeps.lane) | split | (intro _))

theorem State.gatesOff_keeps {a s : State} (h : a.Keeps s) (ns : List (Fin 34)) :
    a.Keeps (State.gatesOff s ns) := by
  unfold State.gatesOff
  repeat' (first | with_reducible assumption | (with_reducible first | apply State.Keeps.fold | apply State.Keeps.hv) | (intro _))

theorem State.smGoto_keeps {a s : State} (h : a.Keeps s) (l : Lane) (st : Nat) :
    a.Keeps (State.smGoto s l st) := by
  unfold State.smGoto
  repeat' (first | with_reducible assumption | lift_lets -underBinder | (intro x; have hx : a.Keeps x := (by repeat' (first | with_reducible assumption | lift_lets -underBinder | (with_reducible first | apply State.putFlag_keeps | apply State.put_keeps) | (intro _))); clear_value x) | (intro x; clear_value x) | (with_reducible first | apply State.putFlag_keeps | apply State.put_keeps) | (intro _))

theorem State.smLoops_keeps {a s : State} (h : a.Keeps s) (l : Lane) :
    a.Keeps (State.smLoops s l) := by
  unfold State.smLoops
  repeat' (first | with_reducible assumption | (with_reducible first | apply State.Keeps.ite | apply State.loopAsk_keeps | apply State.loopOpen_keeps) | (intro _))

theorem State.setRamp_keeps {a s : State} (h : a.Keeps s) (l : Lane) (v : Nat) :
    a.Keeps (State.setRamp s l v) := by
  unfold State.setRamp
  repeat' (first | with_reducible assumption | (with_reducible first | apply State.Keeps.trc | apply State.put_keeps) | (intro _))

theorem State.placeTraction_keeps {a s : State} (h : a.Keeps s) (n : Fin 34) :
    a.Keeps (State.placeTraction s n) := by
  unfold State.placeTraction
  repeat' (first | with_reducible assumption | lift_lets -underBinder | (intro x; have hx : a.Keeps x := (by repeat' (first | with_reducible assumption | lift_lets -underBinder | (with_reducible first | apply State.Keeps.ite | apply State.Keeps.hv) | (first | split | (dsimp only [x]; split)) | (intro _))); clear_value x) | (intro x; clear_value x) | (with_reducible first | apply State.Keeps.ite | apply State.Keeps.hv) | split | (intro _))

theorem State.placeSet_keeps {a s : State} (h : a.Keeps s) (l : Lane) :
    a.Keeps (State.placeSet s l) := by
  unfold State.placeSet
  repeat' (first | with_reducible assumption | lift_lets -underBinder | (intro x; have hx : a.Keeps x := (by repeat' (first | with_reducible assumption | lift_lets -underBinder | (with_reducible first | apply State.Keeps.fold | apply State.placeTraction_keeps) | (intro _))); clear_value x) | (intro x; clear_value x) | (with_reducible first | apply State.Keeps.fold | apply State.placeTraction_keeps) | (intro _))

theorem State.safeEntry_keeps {a s : State} (h : a.Keeps s) (l : Lane) (c : Nat) :
    a.Keeps (State.safeEntry s l c) := by
  unfold State.safeEntry
  repeat' (first | with_reducible assumption | lift_lets -underBinder | (intro x; have hx : a.Keeps x := (by repeat' (first | with_reducible assumption | lift_lets -underBinder | (with_reducible first | apply State.Keeps.ite | apply State.gatesOff_keeps | apply State.loopOpen_keeps | apply State.placeSet_keeps | apply State.pulseEv_keeps | apply State.put_keeps | apply State.setRamp_keeps | apply State.smGoto_keeps) | (first | split | (dsimp only [x]; split)) | (intro _))); clear_value x) | (intro x; clear_value x) | (with_reducible first | apply State.Keeps.ite | apply State.gatesOff_keeps | apply State.loopOpen_keeps | apply State.placeSet_keeps | apply State.pulseEv_keeps | apply State.put_keeps | apply State.setRamp_keeps | apply State.smGoto_keeps) | split | (intro _))

theorem State.setFault_keeps {a s : State} (h : a.Keeps s) (l : Lane) (c : Nat) :
    a.Keeps (State.setFault s l c) := by
  unfold State.setFault
  repeat' (first | with_reducible assumption | (with_reducible first | apply State.safeEntry_keeps) | (intro _))

theorem State.setPhaseActive_keeps {a s : State} (h : a.Keeps s) (l : Lane) (m : Nat) (b : Bool) :
    a.Keeps (State.setPhaseActive s l m b) := by
  unfold State.setPhaseActive
  repeat' (first | with_reducible assumption | (with_reducible first | apply State.putFlag_keeps) | (intro _))

theorem State.phaseStop_keeps {a s : State} (h : a.Keeps s) (l : Lane) (m : Nat) :
    a.Keeps (State.phaseStop s l m) := by
  unfold State.phaseStop
  repeat' (first | with_reducible assumption | lift_lets -underBinder | (intro x; have hx : a.Keeps x := (by repeat' (first | with_reducible assumption | lift_lets -underBinder | (with_reducible first | apply State.Keeps.ite | apply State.bump_keeps | apply State.gatesOff_keeps | apply State.levelEv_keeps | apply State.putFlag_keeps | apply State.setPhaseActive_keeps) | (first | split | (dsimp only [x]; split)) | (intro _))); clear_value x) | (intro x; clear_value x) | (with_reducible first | apply State.Keeps.ite | apply State.bump_keeps | apply State.gatesOff_keeps | apply State.levelEv_keeps | apply State.putFlag_keeps | apply State.setPhaseActive_keeps) | split | (intro _))

theorem State.dclStop_keeps {a s : State} (h : a.Keeps s) (l : Lane) :
    a.Keeps (State.dclStop s l) := by
  unfold State.dclStop
  repeat' (first | with_reducible assumption | lift_lets -underBinder | (intro x; have hx : a.Keeps x := (by repeat' (first | with_reducible assumption | lift_lets -underBinder | (with_reducible first | apply State.Keeps.ite | apply State.Keeps.dcl | apply State.Keeps.fold | apply State.gatesOff_keeps | apply State.levelEv_keeps | apply State.loopOpen_keeps | apply State.putFlag_keeps | apply State.put_keeps | apply State.setPhaseActive_keeps) | (first | split | (dsimp only [x]; split)) | (intro _))); clear_value x) | (intro x; clear_value x) | (with_reducible first | apply State.Keeps.ite | apply State.Keeps.dcl | apply State.Keeps.fold | apply State.gatesOff_keeps | apply State.levelEv_keeps | apply State.loopOpen_keeps | apply State.putFlag_keeps | apply State.put_keeps | apply State.setPhaseActive_keeps) | split | (intro _))

theorem State.setReg_keeps {a s : State} (h : a.Keeps s) (l : Lane) (b : Bool) :
    a.Keeps (State.setReg s l b) := by
  unfold State.setReg
  repeat' (first | with_reducible assumption | lift_lets -underBinder | (intro x; have hx : a.Keeps x := (by repeat' (first | with_reducible assumption | lift_lets -underBinder | (with_reducible first | apply State.Keeps.ite | apply State.putFlag_keeps | apply State.putWord_keeps) | (intro _))); clear_value x) | (intro x; dsimp -zeta only [x]; clear x) | (intro x; clear_value x) | (with_reducible first | apply State.Keeps.ite | apply State.putFlag_keeps | apply State.putWord_keeps) | (intro _))

theorem State.showK_keeps {a s : State} (h : a.Keeps s) :
    a.Keeps (State.showK s) := by
  unfold State.showK
  repeat' (first | with_reducible assumption | (with_reducible first | apply State.Keeps.ite | apply State.Keeps.both | apply State.put_keeps) | (intro _))

theorem State.driveK_keeps {a s : State} (h : a.Keeps s) : a.Keeps (State.driveK s) := by
  unfold State.driveK
  refine State.showK_keeps (State.Keeps.fold _ _ (h.aon _) (fun t n ht => ?_))
  refine State.Keeps.ite (fun _ => State.Keeps.ite (fun _ => ht.aon _) (fun _ => ht)) (fun _ => ht.mon _ (fun (_ : MonState) hx => hx))

theorem State.askK_keeps {a s : State} (h : a.Keeps s) (l : Lane) (n : Nat) (on : Bool) :
    a.Keeps (State.askK s l n on) := by
  unfold State.askK
  repeat' (first | (exact fun (_ : MonState) hx => hx) | with_reducible assumption | (with_reducible first | apply State.Keeps.ite | apply State.Keeps.mon | apply State.driveK_keeps) | split | (intro _))

theorem State.driveS2_keeps {a s : State} (h : a.Keeps s) (l : Lane) (on : Bool) : a.Keeps (State.driveS2 s l on) :=
  (State.putFlag_keeps h l F.CHG_STAT_S2 on).aon _

theorem State.chgEnd_keeps {a s : State} (h : a.Keeps s) (l : Lane) (c : Nat) :
    a.Keeps (State.chgEnd s l c) := by
  unfold State.chgEnd
  repeat' (first | with_reducible assumption | lift_lets -underBinder | (intro x; have hx : a.Keeps x := (by repeat' (first | with_reducible assumption | lift_lets -underBinder | (with_reducible first | apply State.bump_keeps | apply State.pulseEv_keeps | apply State.put_keeps) | (intro _))); clear_value x) | (intro x; clear_value x) | (with_reducible first | apply State.bump_keeps | apply State.pulseEv_keeps | apply State.put_keeps) | (intro _))

theorem State.chgFault_keeps {a s : State} (h : a.Keeps s) (l : Lane) (c : Nat) :
    a.Keeps (State.chgFault s l c) := by
  unfold State.chgFault
  repeat' (first | with_reducible assumption | lift_lets -underBinder | (intro x; have hx : a.Keeps x := (by repeat' (first | with_reducible assumption | lift_lets -underBinder | (with_reducible first | apply State.Keeps.ite | apply State.Keeps.chg | apply State.askK_keeps | apply State.chgEnd_keeps | apply State.driveS2_keeps | apply State.gatesOff_keeps | apply State.loopOpen_keeps | apply State.put_keeps | apply State.setReg_keeps) | (first | split | (dsimp only [x]; split)) | (intro _))); clear_value x) | (intro x; clear_value x) | (with_reducible first | apply State.Keeps.ite | apply State.Keeps.chg | apply State.askK_keeps | apply State.chgEnd_keeps | apply State.driveS2_keeps | apply State.gatesOff_keeps | apply State.loopOpen_keeps | apply State.put_keeps | apply State.setReg_keeps) | split | (intro _))

theorem State.chgRampdown_keeps {a s : State} (h : a.Keeps s) (l : Lane) (c : Nat) :
    a.Keeps (State.chgRampdown s l c) := by
  unfold State.chgRampdown
  repeat' (first | with_reducible assumption | lift_lets -underBinder | (intro x; have hx : a.Keeps x := (by repeat' (first | with_reducible assumption | lift_lets -underBinder | (with_reducible first | apply State.Keeps.ite | apply State.Keeps.chg | apply State.chgEnd_keeps | apply State.put_keeps) | (first | split | (dsimp only [x]; split)) | (intro _))); clear_value x) | (intro x; clear_value x) | (with_reducible first | apply State.Keeps.ite | apply State.Keeps.chg | apply State.chgEnd_keeps | apply State.put_keeps) | split | (intro _))

theorem State.dclFault_keeps {a s : State} (h : a.Keeps s) (l : Lane) :
    a.Keeps (State.dclFault s l) := by
  unfold State.dclFault
  repeat' (first | with_reducible assumption | lift_lets -underBinder | (intro x; have hx : a.Keeps x := (by repeat' (first | with_reducible assumption | lift_lets -underBinder | (with_reducible first | apply State.Keeps.ite | apply State.chgFault_keeps | apply State.dclStop_keeps | apply State.pulseEv_keeps) | (first | split | (dsimp only [x]; split)) | (intro _))); clear_value x) | (intro x; clear_value x) | (with_reducible first | apply State.Keeps.ite | apply State.chgFault_keeps | apply State.dclStop_keeps | apply State.pulseEv_keeps) | split | (intro _))

theorem State.bridgeOff_keeps {a s : State} (h : a.Keeps s) (a' : Fin 2) :
    a.Keeps (State.bridgeOff s a') := by
  unfold State.bridgeOff
  repeat' (first | with_reducible assumption | (with_reducible first | apply State.Keeps.fold | apply State.Keeps.lvCh) | (intro _))

theorem State.actIdle_keeps {a s : State} (h : a.Keeps s) (l : Lane) (a' : Fin 2) :
    a.Keeps (State.actIdle s l a') := by
  unfold State.actIdle
  repeat' (first | with_reducible assumption | (with_reducible first | apply State.Keeps.ite | apply State.bridgeOff_keeps | apply State.loopOpen_keeps | apply State.put_keeps) | split | (intro _))

theorem State.actBrake_keeps {a s : State} (h : a.Keeps s) (l : Lane) (a' : Fin 2) :
    a.Keeps (State.actBrake s l a') := by
  unfold State.actBrake
  repeat' (first | with_reducible assumption | lift_lets -underBinder | (intro x; have hx : a.Keeps x := (by repeat' (first | with_reducible assumption | lift_lets -underBinder | (with_reducible first | apply State.Keeps.ite | apply State.Keeps.fold | apply State.Keeps.lvCh | apply State.bridgeOff_keeps | apply State.loopAsk_keeps | apply State.put_keeps) | (intro _))); clear_value x) | (intro x; clear_value x) | (with_reducible first | apply State.Keeps.ite | apply State.Keeps.fold | apply State.Keeps.lvCh | apply State.bridgeOff_keeps | apply State.loopAsk_keeps | apply State.put_keeps) | (intro _))

theorem State.actFault_keeps {a s : State} (h : a.Keeps s) (l : Lane) (a' : Fin 2) (c : Nat) :
    a.Keeps (State.actFault s l a' c) := by
  unfold State.actFault
  repeat' (first | with_reducible assumption | lift_lets -underBinder | (intro x; have hx : a.Keeps x := (by repeat' (first | with_reducible assumption | lift_lets -underBinder | (with_reducible first | apply State.Keeps.ite | apply State.bridgeOff_keeps | apply State.bump_keeps | apply State.loopOpen_keeps | apply State.put_keeps) | (intro _))); clear_value x) | (intro x; clear_value x) | (with_reducible first | apply State.Keeps.ite | apply State.bridgeOff_keeps | apply State.bump_keeps | apply State.loopOpen_keeps | apply State.put_keeps) | (intro _))

end Sys2Proof.Machine
end

