-- ==== Sys2Proof/Laws/Keeps/Settle.lean ====
section
/-! SUPPORT. What the operations of Settle keep. -/
namespace Sys2Proof.Machine
set_option linter.all false
set_option Elab.async false

theorem State.publishTo_keeps {a s : State} (h : a.Keeps s) (l : Lane) :
    a.Keeps (State.publishTo s l) := by
  unfold State.publishTo
  repeat' (first | with_reducible assumption | lift_lets -underBinder | (intro x; have hx : a.Keeps x := (by repeat' (first | with_reducible assumption | lift_lets -underBinder | (with_reducible first | apply State.Keeps.ite | apply State.putFlag_keeps | apply State.putWord_keeps | apply State.put_keeps) | (first | split | (dsimp only [x]; split)) | (intro _))); clear_value x) | (intro x; clear_value x) | (with_reducible first | apply State.Keeps.ite | apply State.putFlag_keeps | apply State.putWord_keeps | apply State.put_keeps) | split | (intro _))

theorem State.publish_keeps {a s : State} (h : a.Keeps s) :
    a.Keeps (State.publish s) := by
  unfold State.publish
  repeat' (first | (exact fun (_ : MonState) hx => hx) | with_reducible assumption | lift_lets -underBinder | (intro x; have hx : a.Keeps x := (by repeat' (first | (exact fun (_ : MonState) hx => hx) | with_reducible assumption | lift_lets -underBinder | (with_reducible first | apply State.Keeps.ite | apply State.Keeps.mon | apply State.publishTo_keeps) | (intro _))); clear_value x) | (intro x; clear_value x) | (with_reducible first | apply State.Keeps.ite | apply State.Keeps.mon | apply State.publishTo_keeps) | (intro _))

theorem State.holdSet_keeps {a s : State} (h : a.Keeps s) (l : Lane) :
    a.Keeps (State.holdSet s l) := by
  unfold State.holdSet
  repeat' (first | (exact fun (_ : MonState) hx => hx) | with_reducible assumption | lift_lets -underBinder | (intro x; have hx : a.Keeps x := (by repeat' (first | (exact fun (_ : MonState) hx => hx) | with_reducible assumption | lift_lets -underBinder | (with_reducible first | apply State.Keeps.ite | apply State.Keeps.fold | apply State.Keeps.hv | apply State.Keeps.mon) | (intro _))); clear_value x) | (intro x; clear_value x) | (with_reducible first | apply State.Keeps.ite | apply State.Keeps.fold | apply State.Keeps.hv | apply State.Keeps.mon) | (intro _))

theorem State.laneSto_keeps {a s : State} (h : a.Keeps s) (l : Lane) :
    a.Keeps (State.laneSto s l) := by
  unfold State.laneSto
  repeat' (first | with_reducible assumption | lift_lets -underBinder | (intro x; have hx : a.Keeps x := (by repeat' (first | with_reducible assumption | lift_lets -underBinder | (with_reducible first | apply State.Keeps.ite | apply State.Keeps.saf | apply State.actIdle_keeps | apply State.chgFault_keeps | apply State.dclStop_keeps | apply State.levelEv_keeps | apply State.setFault_keeps) | (intro _))); clear_value x) | (intro x; clear_value x) | (with_reducible first | apply State.Keeps.ite | apply State.Keeps.saf | apply State.actIdle_keeps | apply State.chgFault_keeps | apply State.dclStop_keeps | apply State.levelEv_keeps | apply State.setFault_keeps) | (intro _))

theorem State.applySto_keeps {a s : State} (h : a.Keeps s) (cause : Nat) :
    a.Keeps (State.applySto s cause) := by
  unfold State.applySto
  repeat' (first | (exact fun (_ : MonState) hx => hx) | with_reducible assumption | lift_lets -underBinder | (intro x; have hx : a.Keeps x := (by repeat' (first | (exact fun (_ : MonState) hx => hx) | with_reducible assumption | lift_lets -underBinder | (with_reducible first | apply State.Keeps.ite | apply State.Keeps.mon | apply State.holdSet_keeps | apply State.laneSto_keeps | apply State.monLevel_keeps | apply State.publish_keeps) | (intro _))); clear_value x) | (intro x; clear_value x) | (with_reducible first | apply State.Keeps.ite | apply State.Keeps.mon | apply State.holdSet_keeps | apply State.laneSto_keeps | apply State.monLevel_keeps | apply State.publish_keeps) | (intro _))

theorem State.laneSs1_keeps {a s : State} (h : a.Keeps s) (l : Lane) :
    a.Keeps (State.laneSs1 s l) := by
  unfold State.laneSs1
  repeat' (first | with_reducible assumption | lift_lets -underBinder | (intro x; have hx : a.Keeps x := (by repeat' (first | with_reducible assumption | lift_lets -underBinder | (with_reducible first | apply State.Keeps.ite | apply State.Keeps.saf | apply State.Keeps.trc | apply State.levelEv_keeps | apply State.setFault_keeps | apply State.smGoto_keeps) | (first | split | (dsimp only [x]; split)) | (intro _))); clear_value x) | (intro x; clear_value x) | (with_reducible first | apply State.Keeps.ite | apply State.Keeps.saf | apply State.Keeps.trc | apply State.levelEv_keeps | apply State.setFault_keeps | apply State.smGoto_keeps) | split | (intro _))

theorem State.applySs1_keeps {a s : State} (h : a.Keeps s) (cause : Nat) :
    a.Keeps (State.applySs1 s cause) := by
  unfold State.applySs1
  repeat' (first | (exact fun (_ : MonState) hx => hx) | with_reducible assumption | lift_lets -underBinder | (intro x; have hx : a.Keeps x := (by repeat' (first | (exact fun (_ : MonState) hx => hx) | with_reducible assumption | lift_lets -underBinder | (with_reducible first | apply State.Keeps.ite | apply State.Keeps.mon | apply State.laneSs1_keeps | apply State.monLevel_keeps | apply State.publish_keeps) | (first | split | (dsimp only [x]; split)) | (intro _))); clear_value x) | (intro x; clear_value x) | (with_reducible first | apply State.Keeps.ite | apply State.Keeps.mon | apply State.laneSs1_keeps | apply State.monLevel_keeps | apply State.publish_keeps) | split | (intro _))

theorem State.safEv_keeps {a s : State} (h : a.Keeps s) (e : Ev) :
    a.Keeps (State.safEv s e) := by
  unfold State.safEv
  repeat' (first | with_reducible assumption | (with_reducible first | apply State.Keeps.both | apply State.pulseEv_keeps) | (intro _))

theorem State.causeEv_keeps {a s : State} (h : a.Keeps s) (c : Nat) :
    a.Keeps (State.causeEv s c) := by
  unfold State.causeEv
  repeat' (first | with_reducible assumption | (with_reducible first | apply State.monEv_keeps | apply State.safEv_keeps) | split | (intro _))

theorem State.hearRequests_keeps {a s : State} (h : a.Keeps s) : a.Keeps (State.hearRequests s) := by
  unfold State.hearRequests
  refine State.Keeps.ite (fun _ => h) (fun _ => ?_)
  have k : a.Keeps (s.both (fun (l : Lane) (s : State) => s.modSaf l (fun v => { v with reqSto := false, reqSs1 := false }))) :=
    h.both _ (fun l t ht => ht.saf ..)
  dsimp only
  repeat' (first | exact k | (with_reducible first | apply State.Keeps.ite | apply State.applySto_keeps | apply State.applySs1_keeps | apply State.causeEv_keeps) | (intro _))

theorem State.settle_keeps {a s : State} (h : a.Keeps s) :
    a.Keeps (State.settle s) := by
  unfold State.settle
  repeat' (first | with_reducible assumption | lift_lets -underBinder | (intro x; have hx : a.Keeps x := (by repeat' (first | with_reducible assumption | lift_lets -underBinder | (with_reducible first | apply State.Keeps.ite | apply State.hearRequests_keeps) | (intro _))); clear_value x) | (intro x; dsimp -zeta only [x]; clear x) | (intro x; clear_value x) | (with_reducible first | apply State.Keeps.ite | apply State.hearRequests_keeps) | (intro _))

theorem done_keeps {a s : State} (h : a.Keeps s) :
    OutKeeps a (done s) := by
  unfold done
  repeat' (first | with_reducible assumption | (with_reducible first | apply State.settle_keeps | apply State.Keeps.outNext) | (intro _))

end Sys2Proof.Machine
end

