-- ==== Sys2Proof/Laws/Keeps/Engine.lean ====
section
/-! SUPPORT. What the operations of Engine keep. -/
namespace Sys2Proof.Machine
set_option linter.all false
set_option Elab.async false

theorem mput_wf (m : Mem) (n : Nat) (w : Word) (h : Memory.wf 0 m = true) : Memory.wf 0 (mput m n w) = true :=
  memWriteBytes_wf 0 _ m n h

theorem mputs_wf (ws : List Word) (m : Mem) (n : Nat) (h : Memory.wf 0 m = true) : Memory.wf 0 (mputs m n ws) = true := by
  induction ws generalizing m n with
  | nil => exact h
  | cons w t ih => exact ih _ _ (mput_wf m n w h)

theorem Run.setWires_wf (ws : List Word) (r : Run) (i : Nat) (h : Memory.wf 0 r.mem = true) :
    Memory.wf 0 (r.setWires i ws).mem = true := by
  induction ws generalizing r i with
  | nil => exact h
  | cons w t ih =>
    refine ih _ _ ?_
    unfold Run.setWire
    split
    · split
      · exact mput_wf _ _ _ h
      · exact h
    · exact h

theorem Run.setStates_wf (ws : List Word) (r : Run) (i : Nat) (h : Memory.wf 0 r.mem = true) :
    Memory.wf 0 (r.setStates i ws).mem = true := by
  induction ws generalizing r i with
  | nil => exact h
  | cons w t ih =>
    refine ih _ _ ?_
    dsimp only
    split
    · exact mput_wf _ _ _ h
    · exact h

theorem Run.entry_wf (r : Run) (e : EngState) (ts : Word) (c : DbCtx) (p q : Word) (ke : Nat × Entry)
    (h : Memory.wf 0 r.mem = true) : Memory.wf 0 (r.entry e ts c p q ke).mem = true := by
  unfold Run.entry
  split
  · exact h
  · dsimp only
    split
    · exact Run.setStates_wf _ _ _ (Run.setWires_wf _ _ _ h)
    · exact Run.setWires_wf _ _ _ (Run.setStates_wf _ _ _ (Run.setWires_wf _ _ _ h))

/-- A rate group's run leaves the windows canonical. -/
theorem State.runGroup_wf (s : State) (l : Lane) (rate : Nat) (missed : Bool) (h : Memory.wf 0 (s.lane l).mem = true) :
    Memory.wf 0 (s.runGroup l rate missed).mem = true := by
  unfold State.runGroup
  dsimp only
  suffices ∀ (xs : List (Nat × Entry)) (r : Run), Memory.wf 0 r.mem = true → ∀ (ts p q : Word),
      Memory.wf 0 (xs.foldl (fun r e => r.entry (s.lane l).eng ts (s.dbCtx l missed) p q e) r).mem = true from this _ _ h _ _ _
  intro xs
  induction xs with
  | nil => intro r hr _ _ _; exact hr
  | cons x t ih => intro r hr ts p q; exact ih _ (Run.entry_wf _ _ _ _ _ _ _ hr) _ _ _

theorem State.showMmax_keeps {a s : State} (h : a.Keeps s) (l : Lane) :
    a.Keeps (State.showMmax s l) := by
  unfold State.showMmax
  repeat' (first | with_reducible assumption | (with_reducible first | apply State.putWord_keeps) | (intro _))

theorem State.afterGroup_keeps {a s : State} (h : a.Keeps s) (l : Lane) (rate : Nat) (r : Run)
    (hr : a.Sound → Memory.wf 0 r.mem = true) : a.Keeps (State.afterGroup s l rate r) := by
  unfold State.afterGroup
  have fr : ∀ (f : Nat → State → State), (∀ n s, a.Keeps s → a.Keeps (f n s)) → ∀ (xs : List Nat) (s : State), a.Keeps s →
      a.Keeps (xs.foldr f s) := by
    intro f hf xs
    induction xs with
    | nil => intro s hs; exact hs
    | cons x t ih => intro s hs; exact hf _ _ (ih s hs)
  lift_lets -underBinder
  intro d s1
  have h1 : a.Keeps s1 := h.mem l _ (fun z _ => hr z) (fun _ => ⟨rfl, rfl, rfl, rfl, rfl⟩)
  clear_value s1
  intro s2
  have h2 : a.Keeps s2 := fr _ (fun n t ht => State.put_keeps (State.bump_keeps (State.putFlag_keeps ht ..) ..) ..) _ _ h1
  clear_value s2
  repeat' (first | with_reducible assumption | (intro x; have hx : a.Keeps x := (by repeat' (first | with_reducible assumption | (with_reducible first | apply State.Keeps.ite | apply State.pulseEv_keeps | apply State.putFlag_keeps | apply State.bump_keeps) | (intro _))); clear_value x) | (intro _) | (with_reducible first | apply State.Keeps.ite | apply State.pulseEv_keeps))

theorem State.engineStop_keeps {a s : State} (h : a.Keeps s) (l : Lane) : a.Keeps (State.engineStop s l) := by
  unfold State.engineStop
  refine State.gatesOff_keeps (State.putFlag_keeps (h.mem l _ ?_ ?_) ..) _
  · intro _ hm
    dsimp only
    exact mputs_wf _ _ _ hm
  · intro x
    dsimp only
    exact ⟨rfl, rfl, rfl, rfl, rfl⟩

theorem State.engineStart_keeps {a s : State} (h : a.Keeps s) (l : Lane) : a.Keeps (State.engineStart s l) := by
  unfold State.engineStart
  refine State.put_keeps (State.put_keeps (State.putFlag_keeps (h.mem l _ ?_ ?_) ..) ..) ..
  · intro _ hm
    dsimp only
    exact mputs_wf _ _ _ (mputs_wf _ _ _ hm)
  · intro x
    dsimp only
    exact ⟨rfl, rfl, rfl, rfl, rfl⟩

theorem State.pairMatch_keeps {a s : State} (h : a.Keeps s) :
    a.Keeps (State.pairMatch s) := by
  unfold State.pairMatch
  repeat' (first | with_reducible assumption | lift_lets -underBinder | (intro x; have hx : a.Keeps x := (by repeat' (first | with_reducible assumption | lift_lets -underBinder | (with_reducible first | apply State.Keeps.ite | apply State.Keeps.both | apply State.putFlag_keeps) | (first | split | (dsimp only [x]; split)) | (intro _))); clear_value x) | (intro x; clear_value x) | (with_reducible first | apply State.Keeps.ite | apply State.Keeps.both | apply State.putFlag_keeps) | split | (intro _))

theorem State.commitTable_keeps {a s : State} (h : a.Keeps s) (l : Lane) :
    a.Keeps (State.commitTable s l) := by
  unfold State.commitTable
  repeat' (first | with_reducible assumption | lift_lets -underBinder | (intro x; have hx : a.Keeps x := (by repeat' (first | with_reducible assumption | lift_lets -underBinder | (with_reducible first | apply State.Keeps.ite | apply State.Keeps.eng | apply State.pairMatch_keeps | apply State.pulseEv_keeps | apply State.putFlag_keeps | apply State.put_keeps) | (intro _))); clear_value x) | (intro x; clear_value x) | (with_reducible first | apply State.Keeps.ite | apply State.Keeps.eng | apply State.pairMatch_keeps | apply State.pulseEv_keeps | apply State.putFlag_keeps | apply State.put_keeps) | (intro _))

end Sys2Proof.Machine
end

