-- ==== Sys2Proof/Laws/Keeps/Supply.lean ====
section
/-! SUPPORT. What the operations of Supply keep. -/
namespace Sys2Proof.Machine
set_option linter.all false
set_option Elab.async false

theorem State.driveToken_keeps {a s : State} (h : a.Keeps s) (l : Lane) :
    a.Keeps (State.driveToken s l) := by
  unfold State.driveToken
  repeat' (first | (exact fun (_ : MonState) hx => hx) | with_reducible assumption | lift_lets -underBinder | (intro x; have hx : a.Keeps x := (by repeat' (first | (exact fun (_ : MonState) hx => hx) | with_reducible assumption | lift_lets -underBinder | (with_reducible first | apply State.Keeps.ite | apply State.Keeps.both | apply State.Keeps.fold | apply State.Keeps.hv | apply State.Keeps.lv | apply State.Keeps.mon | apply State.driveK_keeps | apply State.monEv_keeps | apply State.mputFlag_keeps | apply State.putFlag_keeps) | (first | split | (dsimp only [x]; split)) | (intro _))); clear_value x) | (intro x; clear_value x) | (with_reducible first | apply State.Keeps.ite | apply State.Keeps.both | apply State.Keeps.fold | apply State.Keeps.hv | apply State.Keeps.lv | apply State.Keeps.mon | apply State.driveK_keeps | apply State.monEv_keeps | apply State.mputFlag_keeps | apply State.putFlag_keeps) | split | (intro _))

theorem State.pgLow_keeps {a s : State} (h : a.Keeps s) :
    a.Keeps (State.pgLow s) := by
  unfold State.pgLow
  repeat' (first | with_reducible assumption | lift_lets -underBinder | (intro x; have hx : a.Keeps x := (by repeat' (first | with_reducible assumption | lift_lets -underBinder | (with_reducible first | apply State.Keeps.ite | apply State.Keeps.aon | apply State.monEv_keeps | apply State.mputFlag_keeps) | (first | split | (dsimp only [x]; split)) | (intro _))); clear_value x) | (intro x; clear_value x) | (with_reducible first | apply State.Keeps.ite | apply State.Keeps.aon | apply State.monEv_keeps | apply State.mputFlag_keeps) | split | (intro _))

theorem State.declare_keeps {a s : State} (h : a.Keeps s) (x : Lane) :
    a.Keeps (State.declare s x) := by
  unfold State.declare
  repeat' (first | (exact fun (_ : RedState) hx => hx) | (exact fun (_ : MonState) hx => hx) | with_reducible assumption | lift_lets -underBinder | (intro x; have hx : a.Keeps x := (by repeat' (first | (exact fun (_ : RedState) hx => hx) | (exact fun (_ : MonState) hx => hx) | with_reducible assumption | lift_lets -underBinder | (with_reducible first | apply State.Keeps.ite | apply State.Keeps.mon | apply State.Keeps.red | apply State.driveToken_keeps | apply State.holdSet_keeps | apply State.monEv_keeps | apply State.mputFlag_keeps | apply State.pgLow_keeps | apply State.publish_keeps | apply State.setFault_keeps) | (first | split | (dsimp only [x]; split)) | (intro _))); clear_value x) | (intro x; clear_value x) | (with_reducible first | apply State.Keeps.ite | apply State.Keeps.mon | apply State.Keeps.red | apply State.driveToken_keeps | apply State.holdSet_keeps | apply State.monEv_keeps | apply State.mputFlag_keeps | apply State.pgLow_keeps | apply State.publish_keeps | apply State.setFault_keeps) | split | (intro _))

theorem State.resetLane_keeps {a s : State} (h : a.Keeps s) (l : Lane) (cause : Fld) : a.Keeps (State.resetLane s l cause) := by
  unfold State.resetLane
  dsimp only
  refine State.Keeps.mon ?_ _ (fun (_ : MonState) hx => hx)
  refine State.Keeps.ite (fun _ => ?_) (fun _ => State.Keeps.ofs ?_ _ _) <;>
  · refine State.putFlag_keeps (State.put_keeps (State.putFlag_keeps (State.putWord_keeps (h.setLane l _ ?_) ..) ..) ..) ..
    exact fun hx => LaneState.sound_reset _ hx.2.2.1 _ _ _

theorem State.enterReset_keeps {a s : State} (h : a.Keeps s) (l : Lane) (cause : Fld) (setHold : Hold → Hold) :
    a.Keeps (State.enterReset s l cause setHold) := by
  unfold State.enterReset
  repeat' (first | with_reducible assumption | lift_lets -underBinder | (intro x; have hx : a.Keeps x := (by repeat' (first | with_reducible assumption | lift_lets -underBinder | (with_reducible first | apply State.Keeps.ite | apply State.Keeps.fold | apply State.Keeps.hold | apply State.declare_keeps | apply State.halfGone_keeps | apply State.monEv_keeps | apply State.resetLane_keeps) | (first | split | (dsimp only [x]; split)) | (intro _))); clear_value x) | (intro x; clear_value x) | (with_reducible first | apply State.Keeps.ite | apply State.Keeps.fold | apply State.Keeps.hold | apply State.declare_keeps | apply State.halfGone_keeps | apply State.monEv_keeps | apply State.resetLane_keeps) | split | (intro _))

theorem State.release_keeps {a s : State} (h : a.Keeps s) (l : Lane) :
    a.Keeps (State.release s l) := by
  unfold State.release
  repeat' (first | with_reducible assumption | lift_lets -underBinder | (intro x; have hx : a.Keeps x := (by repeat' (first | with_reducible assumption | lift_lets -underBinder | (with_reducible first | apply State.Keeps.ite | apply State.Keeps.boot | apply State.levelEv_keeps) | (first | split | (dsimp only [x]; split)) | (intro _))); clear_value x) | (intro x; clear_value x) | (with_reducible first | apply State.Keeps.ite | apply State.Keeps.boot | apply State.levelEv_keeps) | split | (intro _))

theorem State.modulePor_keeps {a s : State} (h : a.Keeps s) : a.Keeps (State.modulePor s) := by
  refine ⟨h.1, fun z => ?_⟩
  obtain ⟨h1, h2, h3⟩ := h.2 z
  exact ⟨LaneState.sound_reset _ h1.2.2.1 _ _ _, LaneState.sound_reset _ h2.2.2.1 _ _ _, rfl, Nat.zero_le _⟩

theorem execVsValid_keeps {a s : State} (h : a.Keeps s) (l : Lane) :
    OutKeeps a (execVsValid l s) := by
  unfold execVsValid
  repeat' (first | with_reducible assumption | lift_lets -underBinder | (intro x; have hx : a.Keeps x := (by repeat' (first | with_reducible assumption | lift_lets -underBinder | (with_reducible first | apply State.Keeps.ite | apply State.Keeps.aon | apply State.Keeps.hold | apply State.release_keeps | apply done_keeps) | (first | split | (dsimp only [x]; split)) | (intro _))); clear_value x) | (intro x; clear_value x) | (with_reducible first | apply State.Keeps.ite | apply State.Keeps.aon | apply State.Keeps.hold | apply State.release_keeps | apply done_keeps) | split | (intro _))

theorem execVsFailed_keeps {a s : State} (h : a.Keeps s) (l : Lane) :
    OutKeeps a (execVsFailed l s) := by
  unfold execVsFailed
  repeat' (first | with_reducible assumption | lift_lets -underBinder | (intro x; have hx : a.Keeps x := (by repeat' (first | with_reducible assumption | lift_lets -underBinder | (with_reducible first | apply State.Keeps.ite | apply State.Keeps.aon | apply State.Keeps.hold | apply State.enterReset_keeps | apply State.modulePor_keeps | apply done_keeps) | (first | split | (dsimp only [x]; split)) | (intro _))); clear_value x) | (intro x; clear_value x) | (with_reducible first | apply State.Keeps.ite | apply State.Keeps.aon | apply State.Keeps.hold | apply State.enterReset_keeps | apply State.modulePor_keeps | apply done_keeps) | split | (intro _))

theorem execNporAssert_keeps {a s : State} (h : a.Keeps s) :
    OutKeeps a (execNporAssert s) := by
  unfold execNporAssert
  repeat' (first | with_reducible assumption | lift_lets -underBinder | (intro x; have hx : a.Keeps x := (by repeat' (first | with_reducible assumption | lift_lets -underBinder | (with_reducible first | apply State.Keeps.aon | apply State.modulePor_keeps | apply done_keeps) | (intro _))); clear_value x) | (intro x; clear_value x) | (with_reducible first | apply State.Keeps.aon | apply State.modulePor_keeps | apply done_keeps) | (intro _))

theorem execNporRelease_keeps {a s : State} (h : a.Keeps s) :
    OutKeeps a (execNporRelease s) := by
  unfold execNporRelease
  repeat' (first | with_reducible assumption | lift_lets -underBinder | (intro x; have hx : a.Keeps x := (by repeat' (first | with_reducible assumption | lift_lets -underBinder | (with_reducible first | apply State.Keeps.ite | apply State.Keeps.aon | apply State.Keeps.both | apply State.Keeps.fold | apply State.Keeps.hv | apply State.Keeps.lv | apply State.declare_keeps | apply State.release_keeps | apply done_keeps) | (first | split | (dsimp only [x]; split)) | (intro _))); clear_value x) | (intro x; clear_value x) | (with_reducible first | apply State.Keeps.ite | apply State.Keeps.aon | apply State.Keeps.both | apply State.Keeps.fold | apply State.Keeps.hv | apply State.Keeps.lv | apply State.declare_keeps | apply State.release_keeps | apply done_keeps) | split | (intro _))

theorem execNrstAssert_keeps {a s : State} (h : a.Keeps s) (l : Lane) :
    OutKeeps a (execNrstAssert l s) := by
  unfold execNrstAssert
  repeat' (first | with_reducible assumption | (with_reducible first | apply State.enterReset_keeps | apply done_keeps) | (intro _))

theorem execLaneResetRelease_keeps {a s : State} (h : a.Keeps s) (l : Lane) (c : TimedHold) :
    OutKeeps a (execLaneResetRelease l c s) := by
  unfold execLaneResetRelease
  repeat' (first | with_reducible assumption | lift_lets -underBinder | (intro x; have hx : a.Keeps x := (by repeat' (first | with_reducible assumption | lift_lets -underBinder | (with_reducible first | apply State.Keeps.ite | apply State.Keeps.hold | apply State.release_keeps | apply done_keeps) | (first | split | (dsimp only [x]; split)) | (intro _))); clear_value x) | (intro x; clear_value x) | (with_reducible first | apply State.Keeps.ite | apply State.Keeps.hold | apply State.release_keeps | apply done_keeps) | split | (intro _))

theorem State.softReset_keeps {a s : State} (h : a.Keeps s) (l : Lane) :
    a.Keeps (State.softReset s l) := by
  unfold State.softReset
  repeat' (first | with_reducible assumption | (with_reducible first | apply State.Keeps.ite | apply State.enterReset_keeps) | (intro _))

theorem execSoftReset_keeps {a s : State} (h : a.Keeps s) (l : Lane) :
    OutKeeps a (execSoftReset l s) := by
  unfold execSoftReset
  repeat' (first | with_reducible assumption | (with_reducible first | apply State.softReset_keeps | apply done_keeps) | (intro _))

theorem State.warmRestart_keeps {a s : State} (h : a.Keeps s) (l : Lane) :
    a.Keeps (State.warmRestart s l) := by
  unfold State.warmRestart
  repeat' (first | with_reducible assumption | (with_reducible first | apply State.Keeps.ite | apply State.Keeps.boot | apply State.bump_keeps) | (intro _))

theorem execWarmRestart_keeps {a s : State} (h : a.Keeps s) (l : Lane) :
    OutKeeps a (execWarmRestart l s) := by
  unfold execWarmRestart
  repeat' (first | with_reducible assumption | (with_reducible first | apply State.warmRestart_keeps | apply done_keeps) | (intro _))

theorem execWarmRestartDone_keeps {a s : State} (h : a.Keeps s) (l : Lane) :
    OutKeeps a (execWarmRestartDone l s) := by
  unfold execWarmRestartDone
  repeat' (first | with_reducible assumption | (with_reducible first | apply State.Keeps.ite | apply State.Keeps.boot | apply done_keeps) | split | (intro _))

theorem execDevnumSample_keeps {a s : State} (h : a.Keeps s) (s1 : Straps) (s2 : Straps) (s3 : Straps) (v33Low : Bool) :
    OutKeeps a (execDevnumSample s1 s2 s3 v33Low s) := by
  unfold execDevnumSample
  repeat' (first | (exact fun (_ : MonState) hx => hx) | with_reducible assumption | lift_lets -underBinder | (intro x; have hx : a.Keeps x := (by repeat' (first | (exact fun (_ : MonState) hx => hx) | with_reducible assumption | lift_lets -underBinder | (with_reducible first | apply State.Keeps.ite | apply State.Keeps.aon | apply State.Keeps.mon | apply State.holdSet_keeps | apply State.levelEv_keeps | apply done_keeps) | (first | split | (dsimp only [x]; split)) | (intro _))); clear_value x) | (intro x; clear_value x) | (with_reducible first | apply State.Keeps.ite | apply State.Keeps.aon | apply State.Keeps.mon | apply State.holdSet_keeps | apply State.levelEv_keeps | apply done_keeps) | split | (intro _))

theorem State.abandonSlot_keeps {a s : State} (h : a.Keeps s) (l : Lane) :
    a.Keeps (State.abandonSlot s l) := by
  unfold State.abandonSlot
  repeat' (first | with_reducible assumption | lift_lets -underBinder | (intro x; have hx : a.Keeps x := (by repeat' (first | with_reducible assumption | lift_lets -underBinder | (with_reducible first | apply State.Keeps.ite | apply State.Keeps.boot | apply State.levelEv_keeps) | (intro _))); clear_value x) | (intro x; clear_value x) | (with_reducible first | apply State.Keeps.ite | apply State.Keeps.boot | apply State.levelEv_keeps) | (intro _))

theorem execFlashReadPassDone_keeps {a s : State} (h : a.Keeps s) (l : Lane) (r : ImageRead) :
    OutKeeps a (execFlashReadPassDone l r s) := by
  unfold execFlashReadPassDone
  repeat' (first | with_reducible assumption | lift_lets -underBinder | (intro x; have hx : a.Keeps x := (by repeat' (first | with_reducible assumption | lift_lets -underBinder | (with_reducible first | apply State.Keeps.ite | apply State.Keeps.boot | apply State.abandonSlot_keeps | apply done_keeps) | (first | split | (dsimp only [x]; split)) | (intro _))); clear_value x) | (intro x; clear_value x) | (with_reducible first | apply State.Keeps.ite | apply State.Keeps.boot | apply State.abandonSlot_keeps | apply done_keeps) | split | (intro _))

theorem execImageVerify_keeps {a s : State} (h : a.Keeps s) (l : Lane) (sigOk : Bool) :
    OutKeeps a (execImageVerify l sigOk s) := by
  unfold execImageVerify
  repeat' (first | with_reducible assumption | lift_lets -underBinder | (intro x; have hx : a.Keeps x := (by repeat' (first | with_reducible assumption | lift_lets -underBinder | (with_reducible first | apply State.Keeps.ite | apply State.Keeps.boot | apply State.abandonSlot_keeps | apply done_keeps) | (first | split | (dsimp only [x]; split)) | (intro _))); clear_value x) | (intro x; clear_value x) | (with_reducible first | apply State.Keeps.ite | apply State.Keeps.boot | apply State.abandonSlot_keeps | apply done_keeps) | split | (intro _))

theorem execDroopEntry_keeps {a s : State} (h : a.Keeps s) (l : Lane) :
    OutKeeps a (execDroopEntry l s) := by
  unfold execDroopEntry
  repeat' (first | with_reducible assumption | lift_lets -underBinder | (intro x; have hx : a.Keeps x := (by repeat' (first | with_reducible assumption | lift_lets -underBinder | (with_reducible first | apply State.Keeps.ite | apply State.bump_keeps | apply State.levelEv_keeps | apply State.putFlag_keeps | apply done_keeps) | (first | split | (dsimp only [x]; split)) | (intro _))); clear_value x) | (intro x; clear_value x) | (with_reducible first | apply State.Keeps.ite | apply State.bump_keeps | apply State.levelEv_keeps | apply State.putFlag_keeps | apply done_keeps) | split | (intro _))

theorem execDroopRelease_keeps {a s : State} (h : a.Keeps s) (l : Lane) :
    OutKeeps a (execDroopRelease l s) := by
  unfold execDroopRelease
  repeat' (first | with_reducible assumption | lift_lets -underBinder | (intro x; have hx : a.Keeps x := (by repeat' (first | with_reducible assumption | lift_lets -underBinder | (with_reducible first | apply State.Keeps.ite | apply State.levelEv_keeps | apply State.putFlag_keeps | apply done_keeps) | (first | split | (dsimp only [x]; split)) | (intro _))); clear_value x) | (intro x; clear_value x) | (with_reducible first | apply State.Keeps.ite | apply State.levelEv_keeps | apply State.putFlag_keeps | apply done_keeps) | split | (intro _))

theorem execXtalFail_keeps {a s : State} (h : a.Keeps s) (l : Lane) :
    OutKeeps a (execXtalFail l s) := by
  unfold execXtalFail
  repeat' (first | with_reducible assumption | lift_lets -underBinder | (intro x; have hx : a.Keeps x := (by repeat' (first | with_reducible assumption | lift_lets -underBinder | (with_reducible first | apply State.enterReset_keeps | apply State.monEv_keeps | apply State.pulseEv_keeps | apply done_keeps) | (intro _))); clear_value x) | (intro x; clear_value x) | (with_reducible first | apply State.enterReset_keeps | apply State.monEv_keeps | apply State.pulseEv_keeps | apply done_keeps) | (intro _))

theorem State.clockReset_keeps {a s : State} (h : a.Keeps s) (l : Lane) :
    a.Keeps (State.clockReset s l) := by
  unfold State.clockReset
  repeat' (first | with_reducible assumption | lift_lets -underBinder | (intro x; have hx : a.Keeps x := (by repeat' (first | with_reducible assumption | lift_lets -underBinder | (with_reducible first | apply State.Keeps.both | apply State.declare_keeps | apply State.enterReset_keeps | apply State.pulseEv_keeps) | (intro _))); clear_value x) | (intro x; clear_value x) | (with_reducible first | apply State.Keeps.both | apply State.declare_keeps | apply State.enterReset_keeps | apply State.pulseEv_keeps) | (intro _))

theorem State.clockShow_keeps {a s : State} (h : a.Keeps s) (lock : Bool) (l : Lane) (ppm : Int) (monOk : Bool) (sees : Bool) :
    a.Keeps (State.clockShow s lock l ppm monOk sees) := by
  unfold State.clockShow
  repeat' (first | with_reducible assumption | lift_lets -underBinder | (intro x; have hx : a.Keeps x := (by repeat' (first | with_reducible assumption | lift_lets -underBinder | (with_reducible first | apply State.Keeps.ite | apply State.putFlag_keeps | apply State.put_keeps) | (intro _))); clear_value x) | (intro x; clear_value x) | (with_reducible first | apply State.Keeps.ite | apply State.putFlag_keeps | apply State.put_keeps) | (intro _))

theorem State.clockApart_keeps {a s : State} (h : a.Keeps s) :
    a.Keeps (State.clockApart s) := by
  unfold State.clockApart
  repeat' (first | with_reducible assumption | lift_lets -underBinder | (intro x; have hx : a.Keeps x := (by repeat' (first | with_reducible assumption | lift_lets -underBinder | (with_reducible first | apply State.Keeps.both | apply State.levelEv_keeps | apply State.pulseEv_keeps | apply State.putFlag_keeps) | (intro _))); clear_value x) | (intro x; clear_value x) | (with_reducible first | apply State.Keeps.both | apply State.levelEv_keeps | apply State.pulseEv_keeps | apply State.putFlag_keeps) | (intro _))

theorem State.clockVerdict_keeps {a s : State} (h : a.Keeps s) (devA : Bool) (devB : Bool) :
    a.Keeps (State.clockVerdict s devA devB) := by
  unfold State.clockVerdict
  repeat' (first | with_reducible assumption | lift_lets -underBinder | (intro x; have hx : a.Keeps x := (by repeat' (first | with_reducible assumption | lift_lets -underBinder | (with_reducible first | apply State.Keeps.ite | apply State.clockReset_keeps | apply State.monEv_keeps) | (intro _))); clear_value x) | (intro x; clear_value x) | (with_reducible first | apply State.Keeps.ite | apply State.clockReset_keeps | apply State.monEv_keeps) | (intro _))

theorem State.clockMon_keeps {a s : State} (h : a.Keeps s) (points : Bool) (clears : Bool) :
    a.Keeps (State.clockMon s points clears) := by
  unfold State.clockMon
  repeat' (first | (exact fun (_ : MonState) hx => hx) | with_reducible assumption | lift_lets -underBinder | (intro x; have hx : a.Keeps x := (by repeat' (first | (exact fun (_ : MonState) hx => hx) | with_reducible assumption | lift_lets -underBinder | (with_reducible first | apply State.Keeps.ite | apply State.Keeps.mon | apply State.monLevel_keeps) | (intro _))); clear_value x) | (intro x; clear_value x) | (with_reducible first | apply State.Keeps.ite | apply State.Keeps.mon | apply State.monLevel_keeps) | (intro _))

theorem State.clockMonLost_keeps {a s : State} (h : a.Keeps s) (bad : Bool) :
    a.Keeps (State.clockMonLost s bad) := by
  unfold State.clockMonLost
  repeat' (first | with_reducible assumption | lift_lets -underBinder | (intro x; have hx : a.Keeps x := (by repeat' (first | with_reducible assumption | lift_lets -underBinder | (with_reducible first | apply State.Keeps.ite | apply State.Keeps.both | apply State.levelEv_keeps | apply State.putFlag_keeps) | (intro _))); clear_value x) | (intro x; clear_value x) | (with_reducible first | apply State.Keeps.ite | apply State.Keeps.both | apply State.levelEv_keeps | apply State.putFlag_keeps) | (intro _))

theorem execClockCheckWindow_keeps {a s : State} (h : a.Keeps s) (w : ClockWindow) :
    OutKeeps a (execClockCheckWindow w s) := by
  unfold execClockCheckWindow
  repeat' (first | with_reducible assumption | lift_lets -underBinder | (intro x; have hx : a.Keeps x := (by repeat' (first | with_reducible assumption | lift_lets -underBinder | (with_reducible first | apply State.Keeps.ite | apply State.Keeps.both | apply State.clockApart_keeps | apply State.clockMonLost_keeps | apply State.clockMon_keeps | apply State.clockShow_keeps | apply State.clockVerdict_keeps | apply State.levelEv_keeps | apply done_keeps) | (first | split | (dsimp only [x]; split)) | (intro _))); clear_value x) | (intro x; clear_value x) | (with_reducible first | apply State.Keeps.ite | apply State.Keeps.both | apply State.clockApart_keeps | apply State.clockMonLost_keeps | apply State.clockMon_keeps | apply State.clockShow_keeps | apply State.clockVerdict_keeps | apply State.levelEv_keeps | apply done_keeps) | split | (intro _))

theorem execPeerReset_keeps {a s : State} (h : a.Keeps s) (l : Lane) :
    OutKeeps a (execPeerReset l s) := by
  unfold execPeerReset
  repeat' (first | with_reducible assumption | (with_reducible first | apply State.Keeps.ite | apply State.levelEv_keeps | apply done_keeps) | split | (intro _))

theorem execPeerResetStuck_keeps {a s : State} (h : a.Keeps s) (l : Lane) :
    OutKeeps a (execPeerResetStuck l s) := by
  unfold execPeerResetStuck
  repeat' (first | with_reducible assumption | (with_reducible first | apply State.Keeps.ite | apply State.levelEv_keeps | apply done_keeps) | split | (intro _))

end Sys2Proof.Machine
end

