-- ==== Sys2Proof/Laws/Keeps/Access.lean ====
section
/-! SUPPORT. What the operations of Access keep. -/
namespace Sys2Proof.Machine
set_option linter.all false
set_option Elab.async false

theorem State.reply_keeps {a s : State} (h : a.Keeps s) (l : Lane) (st : Status) (d : Word) :
    a.Keeps (State.reply s l st d) := by
  unfold State.reply
  repeat' (first | (exact fun (_ : LaneState) hx => hx) | with_reducible assumption | (with_reducible first | apply State.Keeps.lane) | (intro _))

theorem State.reject_keeps {a s : State} (h : a.Keeps s) (l : Lane) (st : Status) :
    a.Keeps (State.reject s l st) := by
  unfold State.reject
  repeat' (first | with_reducible assumption | lift_lets -underBinder | (intro x; have hx : a.Keeps x := (by repeat' (first | with_reducible assumption | lift_lets -underBinder | (with_reducible first | apply State.pulseEv_keeps | apply State.reply_keeps) | (first | split | (dsimp only [x]; split)) | (intro _))); clear_value x) | (intro x; clear_value x) | (with_reducible first | apply State.pulseEv_keeps | apply State.reply_keeps) | split | (intro _))

theorem State.turnDown_keeps {a s : State} (h : a.Keeps s) (l : Lane) (r : Rej) :
    a.Keeps (State.turnDown s l r) := by
  unfold State.turnDown
  repeat' (first | with_reducible assumption | lift_lets -underBinder | (intro x; have hx : a.Keeps x := (by repeat' (first | with_reducible assumption | lift_lets -underBinder | (with_reducible first | apply State.bump_keeps | apply State.pulseEv_keeps | apply State.put_keeps | apply State.reject_keeps) | (first | split | (dsimp only [x]; split)) | (intro _))); clear_value x) | (intro x; clear_value x) | (with_reducible first | apply State.bump_keeps | apply State.pulseEv_keeps | apply State.put_keeps | apply State.reject_keeps) | split | (intro _))

theorem State.settleWrite_keeps {a s : State} (h : a.Keeps s) (l : Lane) (e : Eff) (he : EffKeeps a e) :
    a.Keeps (State.settleWrite s l e) := by
  cases e with
  | ok t => exact State.reply_keeps (he t rfl) ..
  | error r => exact State.turnDown_keeps h ..

theorem State.writing_keeps {a s : State} (h : a.Keeps s) (l : Lane) (addr : Nat) (k : State → State) (hk : ∀ s, a.Keeps s → a.Keeps (k s)) :
    a.Keeps (State.writing s l addr k) := by
  unfold State.writing
  repeat' (first | with_reducible assumption | (with_reducible first | apply State.Keeps.ite | apply State.reject_keeps | apply hk) | split | (intro _))

end Sys2Proof.Machine
end

