-- ==== Sys2Proof/Laws/Keeps/Gate.lean ====
section
/-! SUPPORT. What the operations of Gate keep. -/
namespace Sys2Proof.Machine
set_option linter.all false
set_option Elab.async false

theorem State.setLegBits_keeps {a s : State} (h : a.Keeps s) (leg : Nat) (v : Nat) :
    a.Keeps (State.setLegBits s leg v) := by
  unfold State.setLegBits
  repeat' (first | with_reducible assumption | (with_reducible first | apply State.Keeps.fold | apply State.mput_keeps) | (intro _))

theorem State.legConsequence_keeps {a s : State} (h : a.Keeps s) (leg : Nat) (o : Lane) :
    a.Keeps (State.legConsequence s leg o) := by
  unfold State.legConsequence
  repeat' (first | with_reducible assumption | lift_lets -underBinder | (intro x; have hx : a.Keeps x := (by repeat' (first | with_reducible assumption | lift_lets -underBinder | (with_reducible first | apply State.Keeps.ite | apply State.actFault_keeps | apply State.chgFault_keeps | apply State.phaseStop_keeps | apply State.setFault_keeps) | (first | split | (dsimp only [x]; split)) | (intro _))); clear_value x) | (intro x; clear_value x) | (with_reducible first | apply State.Keeps.ite | apply State.actFault_keeps | apply State.chgFault_keeps | apply State.phaseStop_keeps | apply State.setFault_keeps) | split | (intro _))

theorem State.legFault_keeps {a s : State} (h : a.Keeps s) (l : Lane) (leg : Nat) :
    a.Keeps (State.legFault s l leg) := by
  unfold State.legFault
  repeat' (first | with_reducible assumption | lift_lets -underBinder | (intro x; have hx : a.Keeps x := (by repeat' (first | with_reducible assumption | lift_lets -underBinder | (with_reducible first | apply State.Keeps.ite | apply State.legConsequence_keeps | apply State.levelEv_keeps | apply State.putFlag_keeps | apply State.setLegBits_keeps) | (first | split | (dsimp only [x]; split)) | (intro _))); clear_value x) | (intro x; clear_value x) | (with_reducible first | apply State.Keeps.ite | apply State.legConsequence_keeps | apply State.levelEv_keeps | apply State.putFlag_keeps | apply State.setLegBits_keeps) | split | (intro _))

theorem State.legEvent_keeps {a s : State} (h : a.Keeps s) (l : Lane) (leg : Nat) :
    a.Keeps (State.legEvent s l leg) := by
  unfold State.legEvent
  repeat' (first | (exact fun (_ : LaneState) hx => hx) | with_reducible assumption | lift_lets -underBinder | (intro x; have hx : a.Keeps x := (by repeat' (first | (exact fun (_ : LaneState) hx => hx) | with_reducible assumption | lift_lets -underBinder | (with_reducible first | apply State.Keeps.ite | apply State.Keeps.lane | apply State.legFault_keeps) | (intro _))); clear_value x) | (intro x; clear_value x) | (with_reducible first | apply State.Keeps.ite | apply State.Keeps.lane | apply State.legFault_keeps) | (intro _))

theorem State.setRails_keeps {a s : State} (h : a.Keeps s) (n : Fin 34) (vp : Bool) (vn : Bool) :
    a.Keeps (State.setRails s n vp vn) := by
  unfold State.setRails
  repeat' (first | with_reducible assumption | lift_lets -underBinder | (intro x; have hx : a.Keeps x := (by repeat' (first | with_reducible assumption | lift_lets -underBinder | (with_reducible first | apply State.Keeps.hv | apply State.levelEv_keeps) | (intro _))); clear_value x) | (intro x; clear_value x) | (with_reducible first | apply State.Keeps.hv | apply State.levelEv_keeps) | (intro _))

theorem execIslandUsable_keeps {a s : State} (h : a.Keeps s) (i : Island) :
    OutKeeps a (execIslandUsable i s) := by
  unfold execIslandUsable
  repeat' (first | with_reducible assumption | lift_lets -underBinder | (intro x; have hx : a.Keeps x := (by repeat' (first | with_reducible assumption | lift_lets -underBinder | (with_reducible first | apply State.Keeps.ite | apply State.Keeps.hv | apply State.Keeps.lv | apply State.Keeps.sns | apply State.levelEv_keeps | apply State.placeTraction_keeps | apply State.setRails_keeps | apply done_keeps) | (first | split | (dsimp only [x]; split)) | (intro _))); clear_value x) | (intro x; clear_value x) | (with_reducible first | apply State.Keeps.ite | apply State.Keeps.hv | apply State.Keeps.lv | apply State.Keeps.sns | apply State.levelEv_keeps | apply State.placeTraction_keeps | apply State.setRails_keeps | apply done_keeps) | split | (intro _))

theorem State.islandOut_keeps {a s : State} (h : a.Keeps s) (n : Fin 34) :
    a.Keeps (State.islandOut s n) := by
  unfold State.islandOut
  repeat' (first | with_reducible assumption | (with_reducible first | apply State.Keeps.ite | apply State.chgFault_keeps | apply State.phaseStop_keeps) | (intro _))

theorem State.undervolt_keeps {a s : State} (h : a.Keeps s) (n : Fin 34) (vp : Bool) (vn : Bool) :
    a.Keeps (State.undervolt s n vp vn) := by
  unfold State.undervolt
  repeat' (first | with_reducible assumption | lift_lets -underBinder | (intro x; have hx : a.Keeps x := (by repeat' (first | with_reducible assumption | lift_lets -underBinder | (with_reducible first | apply State.Keeps.hv | apply State.legFault_keeps | apply State.mbump_keeps | apply State.monEv_keeps | apply State.setRails_keeps) | (intro _))); clear_value x) | (intro x; clear_value x) | (with_reducible first | apply State.Keeps.hv | apply State.legFault_keeps | apply State.mbump_keeps | apply State.monEv_keeps | apply State.setRails_keeps) | (intro _))

theorem execUvlo_keeps {a s : State} (h : a.Keeps s) (n : Fin 34) (vp : Bool) (vn : Bool) :
    OutKeeps a (execUvlo n vp vn s) := by
  unfold execUvlo
  repeat' (first | with_reducible assumption | lift_lets -underBinder | (intro x; have hx : a.Keeps x := (by repeat' (first | with_reducible assumption | lift_lets -underBinder | (with_reducible first | apply State.Keeps.ite | apply State.undervolt_keeps | apply done_keeps) | (first | split | (dsimp only [x]; split)) | (intro _))); clear_value x) | (intro x; clear_value x) | (with_reducible first | apply State.Keeps.ite | apply State.undervolt_keeps | apply done_keeps) | split | (intro _))

theorem execUvloRecover_keeps {a s : State} (h : a.Keeps s) (n : Fin 34) :
    OutKeeps a (execUvloRecover n s) := by
  unfold execUvloRecover
  repeat' (first | with_reducible assumption | lift_lets -underBinder | (intro x; have hx : a.Keeps x := (by repeat' (first | with_reducible assumption | lift_lets -underBinder | (with_reducible first | apply State.Keeps.ite | apply State.placeTraction_keeps | apply State.setRails_keeps | apply done_keeps) | (first | split | (dsimp only [x]; split)) | (intro _))); clear_value x) | (intro x; clear_value x) | (with_reducible first | apply State.Keeps.ite | apply State.placeTraction_keeps | apply State.setRails_keeps | apply done_keeps) | split | (intro _))

theorem State.vglLost_keeps {a s : State} (h : a.Keeps s) :
    a.Keeps (State.vglLost s) := by
  unfold State.vglLost
  repeat' (first | with_reducible assumption | lift_lets -underBinder | (intro x; have hx : a.Keeps x := (by repeat' (first | with_reducible assumption | lift_lets -underBinder | (with_reducible first | apply State.Keeps.lv | apply State.bridgeOff_keeps | apply State.levelEv_keeps | apply State.monEv_keeps) | (intro _))); clear_value x) | (intro x; clear_value x) | (with_reducible first | apply State.Keeps.lv | apply State.bridgeOff_keeps | apply State.levelEv_keeps | apply State.monEv_keeps) | (intro _))

theorem execGdlUvlo_keeps {a s : State} (h : a.Keeps s) :
    OutKeeps a (execGdlUvlo s) := by
  unfold execGdlUvlo
  repeat' (first | with_reducible assumption | (with_reducible first | apply State.Keeps.ite | apply State.vglLost_keeps | apply done_keeps) | split | (intro _))

theorem execIslandSupplyLost_keeps {a s : State} (h : a.Keeps s) (i : Island) :
    OutKeeps a (execIslandSupplyLost i s) := by
  unfold execIslandSupplyLost
  repeat' (first | with_reducible assumption | lift_lets -underBinder | (intro x; have hx : a.Keeps x := (by repeat' (first | with_reducible assumption | lift_lets -underBinder | (with_reducible first | apply State.Keeps.ite | apply State.Keeps.hv | apply State.Keeps.sns | apply State.islandOut_keeps | apply State.monEv_keeps | apply State.undervolt_keeps | apply State.vglLost_keeps | apply done_keeps) | (first | split | (dsimp only [x]; split)) | (intro _))); clear_value x) | (intro x; clear_value x) | (with_reducible first | apply State.Keeps.ite | apply State.Keeps.hv | apply State.Keeps.sns | apply State.islandOut_keeps | apply State.monEv_keeps | apply State.undervolt_keeps | apply State.vglLost_keeps | apply done_keeps) | split | (intro _))

theorem execStreamLost_keeps {a s : State} (h : a.Keeps s) (i : GateIsland) :
    OutKeeps a (execStreamLost i s) := by
  unfold execStreamLost
  repeat' (first | with_reducible assumption | lift_lets -underBinder | (intro x; have hx : a.Keeps x := (by repeat' (first | with_reducible assumption | lift_lets -underBinder | (with_reducible first | apply State.Keeps.ite | apply State.Keeps.hv | apply State.Keeps.lv | apply State.bridgeOff_keeps | apply State.levelEv_keeps | apply State.mbump_keeps | apply State.placeTraction_keeps | apply done_keeps) | (first | split | (dsimp only [x]; split)) | (intro _))); clear_value x) | (intro x; clear_value x) | (with_reducible first | apply State.Keeps.ite | apply State.Keeps.hv | apply State.Keeps.lv | apply State.bridgeOff_keeps | apply State.levelEv_keeps | apply State.mbump_keeps | apply State.placeTraction_keeps | apply done_keeps) | split | (intro _))

theorem execStreamResumed_keeps {a s : State} (h : a.Keeps s) (i : GateIsland) :
    OutKeeps a (execStreamResumed i s) := by
  unfold execStreamResumed
  repeat' (first | with_reducible assumption | lift_lets -underBinder | (intro x; have hx : a.Keeps x := (by repeat' (first | with_reducible assumption | lift_lets -underBinder | (with_reducible first | apply State.Keeps.ite | apply State.Keeps.hv | apply State.Keeps.lv | apply State.levelEv_keeps | apply State.placeTraction_keeps | apply done_keeps) | (first | split | (dsimp only [x]; split)) | (intro _))); clear_value x) | (intro x; clear_value x) | (with_reducible first | apply State.Keeps.ite | apply State.Keeps.hv | apply State.Keeps.lv | apply State.levelEv_keeps | apply State.placeTraction_keeps | apply done_keeps) | split | (intro _))

theorem execSafeStateLineLost_keeps {a s : State} (h : a.Keeps s) (n : Fin 12) :
    OutKeeps a (execSafeStateLineLost n s) := by
  unfold execSafeStateLineLost
  repeat' (first | with_reducible assumption | lift_lets -underBinder | (intro x; have hx : a.Keeps x := (by repeat' (first | with_reducible assumption | lift_lets -underBinder | (with_reducible first | apply State.Keeps.ite | apply State.Keeps.hv | apply State.placeTraction_keeps | apply done_keeps) | (first | split | (dsimp only [x]; split)) | (intro _))); clear_value x) | (intro x; clear_value x) | (with_reducible first | apply State.Keeps.ite | apply State.Keeps.hv | apply State.placeTraction_keeps | apply done_keeps) | split | (intro _))

theorem execOvsOvervoltage_keeps {a s : State} (h : a.Keeps s) (k : Fin 6) (mv : BitVec 16) :
    OutKeeps a (execOvsOvervoltage k mv s) := by
  unfold execOvsOvervoltage
  repeat' (first | with_reducible assumption | lift_lets -underBinder | (intro x; have hx : a.Keeps x := (by repeat' (first | with_reducible assumption | lift_lets -underBinder | (with_reducible first | apply State.Keeps.ite | apply State.Keeps.hv | apply State.levelEv_keeps | apply State.mbump_keeps | apply State.placeTraction_keeps | apply done_keeps) | (first | split | (dsimp only [x]; split)) | (intro _))); clear_value x) | (intro x; clear_value x) | (with_reducible first | apply State.Keeps.ite | apply State.Keeps.hv | apply State.levelEv_keeps | apply State.mbump_keeps | apply State.placeTraction_keeps | apply done_keeps) | split | (intro _))

theorem execOvsRelease_keeps {a s : State} (h : a.Keeps s) (k : Fin 6) (mv : BitVec 16) :
    OutKeeps a (execOvsRelease k mv s) := by
  unfold execOvsRelease
  repeat' (first | with_reducible assumption | lift_lets -underBinder | (intro x; have hx : a.Keeps x := (by repeat' (first | with_reducible assumption | lift_lets -underBinder | (with_reducible first | apply State.Keeps.ite | apply State.Keeps.hv | apply State.levelEv_keeps | apply done_keeps) | (first | split | (dsimp only [x]; split)) | (intro _))); clear_value x) | (intro x; clear_value x) | (with_reducible first | apply State.Keeps.ite | apply State.Keeps.hv | apply State.levelEv_keeps | apply done_keeps) | split | (intro _))

theorem execOvsAscEntry_keeps {a s : State} (h : a.Keeps s) (k : Fin 6) :
    OutKeeps a (execOvsAscEntry k s) := by
  unfold execOvsAscEntry
  repeat' (first | with_reducible assumption | lift_lets -underBinder | (intro x; have hx : a.Keeps x := (by repeat' (first | with_reducible assumption | lift_lets -underBinder | (with_reducible first | apply State.Keeps.ite | apply State.Keeps.hv | apply State.placeTraction_keeps | apply done_keeps) | (first | split | (dsimp only [x]; split)) | (intro _))); clear_value x) | (intro x; clear_value x) | (with_reducible first | apply State.Keeps.ite | apply State.Keeps.hv | apply State.placeTraction_keeps | apply done_keeps) | split | (intro _))

theorem execOvsAscRelease_keeps {a s : State} (h : a.Keeps s) (k : Fin 6) :
    OutKeeps a (execOvsAscRelease k s) := by
  unfold execOvsAscRelease
  repeat' (first | with_reducible assumption | lift_lets -underBinder | (intro x; have hx : a.Keeps x := (by repeat' (first | with_reducible assumption | lift_lets -underBinder | (with_reducible first | apply State.Keeps.ite | apply State.Keeps.hv | apply State.placeTraction_keeps | apply done_keeps) | (first | split | (dsimp only [x]; split)) | (intro _))); clear_value x) | (intro x; clear_value x) | (with_reducible first | apply State.Keeps.ite | apply State.Keeps.hv | apply State.placeTraction_keeps | apply done_keeps) | split | (intro _))

theorem execGateBelowThreshold_keeps {a s : State} (h : a.Keeps s) (n : Fin 34) :
    OutKeeps a (execGateBelowThreshold n s) := by
  unfold execGateBelowThreshold
  repeat' (first | with_reducible assumption | lift_lets -underBinder | (intro x; have hx : a.Keeps x := (by repeat' (first | with_reducible assumption | lift_lets -underBinder | (with_reducible first | apply State.Keeps.ite | apply State.Keeps.hv | apply State.placeTraction_keeps | apply done_keeps) | (first | split | (dsimp only [x]; split)) | (intro _))); clear_value x) | (intro x; clear_value x) | (with_reducible first | apply State.Keeps.ite | apply State.Keeps.hv | apply State.placeTraction_keeps | apply done_keeps) | split | (intro _))

theorem execSc_keeps {a s : State} (h : a.Keeps s) (n : Fin 34) :
    OutKeeps a (execSc n s) := by
  unfold execSc
  repeat' (first | with_reducible assumption | lift_lets -underBinder | (intro x; have hx : a.Keeps x := (by repeat' (first | with_reducible assumption | lift_lets -underBinder | (with_reducible first | apply State.Keeps.ite | apply State.Keeps.hv | apply State.chgFault_keeps | apply State.levelEv_keeps | apply State.mbump_keeps | apply State.mput_keeps | apply State.phaseStop_keeps | apply State.setFault_keeps | apply done_keeps) | (first | split | (dsimp only [x]; split)) | (intro _))); clear_value x) | (intro x; clear_value x) | (with_reducible first | apply State.Keeps.ite | apply State.Keeps.hv | apply State.chgFault_keeps | apply State.levelEv_keeps | apply State.mbump_keeps | apply State.mput_keeps | apply State.phaseStop_keeps | apply State.setFault_keeps | apply done_keeps) | split | (intro _))

theorem execSoftOffEnd_keeps {a s : State} (h : a.Keeps s) (n : Fin 34) :
    OutKeeps a (execSoftOffEnd n s) := by
  unfold execSoftOffEnd
  repeat' (first | with_reducible assumption | (with_reducible first | apply State.Keeps.hv | apply done_keeps) | (intro _))

theorem execTmpConversion_keeps {a s : State} (h : a.Keeps s) (n : Fin 34) (code : BitVec 12) (vp : BitVec 16) (vn : BitVec 16) :
    OutKeeps a (execTmpConversion n code vp vn s) := by
  unfold execTmpConversion
  repeat' (first | with_reducible assumption | lift_lets -underBinder | (intro x; have hx : a.Keeps x := (by repeat' (first | with_reducible assumption | lift_lets -underBinder | (with_reducible first | apply State.Keeps.ite | apply State.levelEv_keeps | apply State.mput_keeps | apply done_keeps) | (first | split | (dsimp only [x]; split)) | (intro _))); clear_value x) | (intro x; clear_value x) | (with_reducible first | apply State.Keeps.ite | apply State.levelEv_keeps | apply State.mput_keeps | apply done_keeps) | split | (intro _))

theorem execShootReq_keeps {a s : State} (h : a.Keeps s) (l : Lane) (c : Chan) :
    OutKeeps a (execShootReq l c s) := by
  unfold execShootReq
  repeat' (first | with_reducible assumption | lift_lets -underBinder | (intro x; have hx : a.Keeps x := (by repeat' (first | with_reducible assumption | lift_lets -underBinder | (with_reducible first | apply State.Keeps.ite | apply State.Keeps.fold | apply State.Keeps.lvCh | apply State.gatesOff_keeps | apply State.legEvent_keeps | apply State.mbump_keeps | apply State.pulseEv_keeps | apply done_keeps) | (first | split | (dsimp only [x]; split)) | (intro _))); clear_value x) | (intro x; dsimp -zeta only [x]; clear x) | (intro x; clear_value x) | (with_reducible first | apply State.Keeps.ite | apply State.Keeps.fold | apply State.Keeps.lvCh | apply State.gatesOff_keeps | apply State.legEvent_keeps | apply State.mbump_keeps | apply State.pulseEv_keeps | apply done_keeps) | split | (intro _))

theorem execDeadTimeRelease_keeps {a s : State} (h : a.Keeps s) (l : Lane) (c : Chan) (ext : Nat) :
    OutKeeps a (execDeadTimeRelease l c ext s) := by
  unfold execDeadTimeRelease
  repeat' (first | with_reducible assumption | lift_lets -underBinder | (intro x; have hx : a.Keeps x := (by repeat' (first | with_reducible assumption | lift_lets -underBinder | (with_reducible first | apply State.Keeps.ite | apply State.Keeps.hv | apply State.Keeps.lvCh | apply State.mput_keeps | apply done_keeps) | (first | split | (dsimp only [x]; split)) | (intro _))); clear_value x) | (intro x; clear_value x) | (with_reducible first | apply State.Keeps.ite | apply State.Keeps.hv | apply State.Keeps.lvCh | apply State.mput_keeps | apply done_keeps) | split | (intro _))

theorem execDtTimeout_keeps {a s : State} (h : a.Keeps s) (by_ : Option Lane) (c : Chan) :
    OutKeeps a (execDtTimeout by_ c s) := by
  unfold execDtTimeout
  repeat' (first | with_reducible assumption | lift_lets -underBinder | (intro x; have hx : a.Keeps x := (by repeat' (first | with_reducible assumption | lift_lets -underBinder | (with_reducible first | apply State.Keeps.ite | apply State.Keeps.fold | apply State.Keeps.hv | apply State.Keeps.lvCh | apply State.legEvent_keeps | apply State.mbump_keeps | apply State.pulseEv_keeps | apply done_keeps) | (first | split | (dsimp only [x]; split)) | (intro _))); clear_value x) | (intro x; clear_value x) | (with_reducible first | apply State.Keeps.ite | apply State.Keeps.fold | apply State.Keeps.hv | apply State.Keeps.lvCh | apply State.legEvent_keeps | apply State.mbump_keeps | apply State.pulseEv_keeps | apply done_keeps) | split | (intro _))

theorem execIslandSilent_keeps {a s : State} (h : a.Keeps s) (n : Fin 12) :
    OutKeeps a (execIslandSilent n s) := by
  unfold execIslandSilent
  repeat' (first | with_reducible assumption | lift_lets -underBinder | (intro x; have hx : a.Keeps x := (by repeat' (first | with_reducible assumption | lift_lets -underBinder | (with_reducible first | apply State.gatesOff_keeps | apply State.setFault_keeps | apply done_keeps) | (intro _))); clear_value x) | (intro x; clear_value x) | (with_reducible first | apply State.gatesOff_keeps | apply State.setFault_keeps | apply done_keeps) | (intro _))

theorem State.gdhWrite_keeps {a s : State} (h : a.Keeps s) (l : Lane) (n : Fin 34) (k : State → State) (hk : ∀ s, a.Keeps s → a.Keeps (k s)) :
    a.Keeps (State.gdhWrite s l n k) := by
  unfold State.gdhWrite
  repeat' (first | with_reducible assumption | (with_reducible first | apply State.Keeps.ite | apply State.reject_keeps | apply State.writing_keeps | apply hk) | (intro _))

theorem State.clrSc_keeps {a s : State} (h : a.Keeps s) (l : Lane) (n : Fin 34) :
    a.Keeps (State.clrSc s l n) := by
  unfold State.clrSc
  repeat' (first | with_reducible assumption | lift_lets -underBinder | (intro x; have hx : a.Keeps x := (by repeat' (first | with_reducible assumption | lift_lets -underBinder | (with_reducible first | apply State.Keeps.hv | apply State.levelEv_keeps | apply State.reply_keeps) | (intro _))); clear_value x) | (intro x; clear_value x) | (with_reducible first | apply State.Keeps.hv | apply State.levelEv_keeps | apply State.reply_keeps) | (intro _))

theorem execGdhClrSc_keeps {a s : State} (h : a.Keeps s) (l : Lane) (n : Fin 34) :
    OutKeeps a (execGdhClrSc l n s) := by
  unfold execGdhClrSc
  repeat' (first | with_reducible assumption | (with_reducible first | apply State.Keeps.ite | apply State.clrSc_keeps | apply State.gdhWrite_keeps | apply State.reject_keeps | apply done_keeps) | split | (intro _))

theorem State.clrLeg_keeps {a s : State} (h : a.Keeps s) (l : Lane) (leg : Nat) :
    a.Keeps (State.clrLeg s l leg) := by
  unfold State.clrLeg
  repeat' (first | (exact fun (_ : LaneState) hx => hx) | with_reducible assumption | lift_lets -underBinder | (intro x; have hx : a.Keeps x := (by repeat' (first | (exact fun (_ : LaneState) hx => hx) | with_reducible assumption | lift_lets -underBinder | (with_reducible first | apply State.Keeps.lane | apply State.levelEv_keeps | apply State.setLegBits_keeps) | (intro _))); clear_value x) | (intro x; clear_value x) | (with_reducible first | apply State.Keeps.lane | apply State.levelEv_keeps | apply State.setLegBits_keeps) | (intro _))

theorem execGdhClrLeg_keeps {a s : State} (h : a.Keeps s) (l : Lane) (n : Fin 34) :
    OutKeeps a (execGdhClrLeg l n s) := by
  unfold execGdhClrLeg
  repeat' (first | with_reducible assumption | (with_reducible first | apply State.Keeps.ite | apply State.clrLeg_keeps | apply State.reject_keeps | apply State.reply_keeps | apply State.writing_keeps | apply done_keeps) | split | (intro _))

theorem State.clrDt_keeps {a s : State} (h : a.Keeps s) (n : Fin 34) :
    a.Keeps (State.clrDt s n) := by
  unfold State.clrDt
  repeat' (first | with_reducible assumption | (with_reducible first | apply State.putWord_keeps) | (intro _))

theorem execGdhClrDt_keeps {a s : State} (h : a.Keeps s) (l : Lane) (n : Fin 34) :
    OutKeeps a (execGdhClrDt l n s) := by
  unfold execGdhClrDt
  repeat' (first | with_reducible assumption | (with_reducible first | apply State.clrDt_keeps | apply State.gdhWrite_keeps | apply State.reply_keeps | apply done_keeps) | (intro _))

theorem State.clrGdhCnt_keeps {a s : State} (h : a.Keeps s) (n : Fin 34) :
    a.Keeps (State.clrGdhCnt s n) := by
  unfold State.clrGdhCnt
  repeat' (first | with_reducible assumption | lift_lets -underBinder | (intro x; have hx : a.Keeps x := (by repeat' (first | with_reducible assumption | lift_lets -underBinder | (with_reducible first | apply State.Keeps.fold | apply State.mput_keeps | apply State.putWord_keeps) | (intro _))); clear_value x) | (intro x; clear_value x) | (with_reducible first | apply State.Keeps.fold | apply State.mput_keeps | apply State.putWord_keeps) | (intro _))

theorem execGdhClrCnt_keeps {a s : State} (h : a.Keeps s) (l : Lane) (n : Fin 34) :
    OutKeeps a (execGdhClrCnt l n s) := by
  unfold execGdhClrCnt
  repeat' (first | with_reducible assumption | (with_reducible first | apply State.clrGdhCnt_keeps | apply State.gdhWrite_keeps | apply State.reply_keeps | apply done_keeps) | (intro _))

theorem execScSelfTest_keeps {a s : State} (h : a.Keeps s) (l : Lane) (n : Fin 34) (tripped : Bool) :
    OutKeeps a (execScSelfTest l n tripped s) := by
  unfold execScSelfTest
  repeat' (first | with_reducible assumption | (with_reducible first | apply State.Keeps.ite | apply State.Keeps.hv | apply State.gdhWrite_keeps | apply State.reject_keeps | apply State.reply_keeps | apply done_keeps) | split | (intro _))

theorem State.pubToken_keeps {a s : State} (h : a.Keeps s) :
    a.Keeps (State.pubToken s) := by
  unfold State.pubToken
  repeat' (first | with_reducible assumption | lift_lets -underBinder | (intro x; have hx : a.Keeps x := (by repeat' (first | with_reducible assumption | lift_lets -underBinder | (with_reducible first | apply State.Keeps.ite | apply State.Keeps.both | apply State.putFlag_keeps | apply State.putWord_keeps) | (first | split | (dsimp only [x]; split)) | (intro _))); clear_value x) | (intro x; clear_value x) | (with_reducible first | apply State.Keeps.ite | apply State.Keeps.both | apply State.putFlag_keeps | apply State.putWord_keeps) | split | (intro _))

theorem execTokenLatch_keeps {a s : State} (h : a.Keeps s) (g : TokenGroup) (bridge : Fin 2) :
    OutKeeps a (execTokenLatch g bridge s) := by
  unfold execTokenLatch
  repeat' (first | with_reducible assumption | lift_lets -underBinder | (intro x; have hx : a.Keeps x := (by repeat' (first | with_reducible assumption | lift_lets -underBinder | (with_reducible first | apply State.Keeps.ite | apply State.Keeps.fold | apply State.Keeps.hv | apply State.Keeps.lv | apply State.pubToken_keeps | apply done_keeps) | (first | split | (dsimp only [x]; split)) | (intro _))); clear_value x) | (intro x; clear_value x) | (with_reducible first | apply State.Keeps.ite | apply State.Keeps.fold | apply State.Keeps.hv | apply State.Keeps.lv | apply State.pubToken_keeps | apply done_keeps) | split | (intro _))

theorem execTokenMoved_keeps {a s : State} (h : a.Keeps s) :
    OutKeeps a (execTokenMoved s) := by
  unfold execTokenMoved
  repeat' (first | (exact fun (_ : MonState) hx => hx) | with_reducible assumption | lift_lets -underBinder | (intro x; have hx : a.Keeps x := (by repeat' (first | (exact fun (_ : MonState) hx => hx) | with_reducible assumption | lift_lets -underBinder | (with_reducible first | apply State.Keeps.ite | apply State.Keeps.both | apply State.Keeps.mon | apply State.mputFlag_keeps | apply State.pubToken_keeps | apply State.pulseEv_keeps | apply State.putFlag_keeps | apply done_keeps) | (first | split | (dsimp only [x]; split)) | (intro _))); clear_value x) | (intro x; clear_value x) | (with_reducible first | apply State.Keeps.ite | apply State.Keeps.both | apply State.Keeps.mon | apply State.mputFlag_keeps | apply State.pubToken_keeps | apply State.pulseEv_keeps | apply State.putFlag_keeps | apply done_keeps) | split | (intro _))

theorem execTokenCodeInvalid_keeps {a s : State} (h : a.Keeps s) (g : TokenGroup) :
    OutKeeps a (execTokenCodeInvalid g s) := by
  unfold execTokenCodeInvalid
  repeat' (first | with_reducible assumption | lift_lets -underBinder | (intro x; have hx : a.Keeps x := (by repeat' (first | with_reducible assumption | lift_lets -underBinder | (with_reducible first | apply State.Keeps.ite | apply State.Keeps.fold | apply State.Keeps.hv | apply State.Keeps.lv | apply State.monEv_keeps | apply done_keeps) | (first | split | (dsimp only [x]; split)) | (intro _))); clear_value x) | (intro x; clear_value x) | (with_reducible first | apply State.Keeps.ite | apply State.Keeps.fold | apply State.Keeps.hv | apply State.Keeps.lv | apply State.monEv_keeps | apply done_keeps) | split | (intro _))

theorem execHoldAscMask_keeps {a s : State} (h : a.Keeps s) (k : Fin 6) :
    OutKeeps a (execHoldAscMask k s) := by
  unfold execHoldAscMask
  repeat' (first | (exact fun (_ : MonState) hx => hx) | with_reducible assumption | lift_lets -underBinder | (intro x; have hx : a.Keeps x := (by repeat' (first | (exact fun (_ : MonState) hx => hx) | with_reducible assumption | lift_lets -underBinder | (with_reducible first | apply State.Keeps.ite | apply State.Keeps.hv | apply State.Keeps.mon | apply State.placeTraction_keeps | apply done_keeps) | (first | split | (dsimp only [x]; split)) | (intro _))); clear_value x) | (intro x; clear_value x) | (with_reducible first | apply State.Keeps.ite | apply State.Keeps.hv | apply State.Keeps.mon | apply State.placeTraction_keeps | apply done_keeps) | split | (intro _))

theorem execBootUv_keeps {a s : State} (h : a.Keeps s) (leg : Fin 6) (vboot : BitVec 16) :
    OutKeeps a (execBootUv leg vboot s) := by
  unfold execBootUv
  repeat' (first | with_reducible assumption | lift_lets -underBinder | (intro x; have hx : a.Keeps x := (by repeat' (first | with_reducible assumption | lift_lets -underBinder | (with_reducible first | apply State.Keeps.ite | apply State.Keeps.lvCh | apply State.legFault_keeps | apply State.mbump_keeps | apply State.mput_keeps | apply State.pulseEv_keeps | apply done_keeps) | (first | split | (dsimp only [x]; split)) | (intro _))); clear_value x) | (intro x; clear_value x) | (with_reducible first | apply State.Keeps.ite | apply State.Keeps.lvCh | apply State.legFault_keeps | apply State.mbump_keeps | apply State.mput_keeps | apply State.pulseEv_keeps | apply done_keeps) | split | (intro _))

theorem execShuntOc_keeps {a s : State} (h : a.Keeps s) (a' : Fin 2) :
    OutKeeps a (execShuntOc a' s) := by
  unfold execShuntOc
  repeat' (first | with_reducible assumption | lift_lets -underBinder | (intro x; have hx : a.Keeps x := (by repeat' (first | with_reducible assumption | lift_lets -underBinder | (with_reducible first | apply State.Keeps.ite | apply State.Keeps.lv | apply State.actFault_keeps | apply State.bridgeOff_keeps | apply State.levelEv_keeps | apply done_keeps) | (first | split | (dsimp only [x]; split)) | (intro _))); clear_value x) | (intro x; clear_value x) | (with_reducible first | apply State.Keeps.ite | apply State.Keeps.lv | apply State.actFault_keeps | apply State.bridgeOff_keeps | apply State.levelEv_keeps | apply done_keeps) | split | (intro _))

theorem State.gdlClrLeg_keeps {a s : State} (h : a.Keeps s) (l : Lane) (n : Fin 12) :
    a.Keeps (State.gdlClrLeg s l n) := by
  unfold State.gdlClrLeg
  repeat' (first | with_reducible assumption | lift_lets -underBinder | (intro x; have hx : a.Keeps x := (by repeat' (first | with_reducible assumption | lift_lets -underBinder | (with_reducible first | apply State.Keeps.ite | apply State.Keeps.lv | apply State.Keeps.lvCh | apply State.clrLeg_keeps | apply State.levelEv_keeps) | (intro _))); clear_value x) | (intro x; clear_value x) | (with_reducible first | apply State.Keeps.ite | apply State.Keeps.lv | apply State.Keeps.lvCh | apply State.clrLeg_keeps | apply State.levelEv_keeps) | (intro _))

theorem execGdlClrLeg_keeps {a s : State} (h : a.Keeps s) (l : Lane) (n : Fin 12) :
    OutKeeps a (execGdlClrLeg l n s) := by
  unfold execGdlClrLeg
  repeat' (first | with_reducible assumption | (with_reducible first | apply State.Keeps.ite | apply State.gdlClrLeg_keeps | apply State.reject_keeps | apply State.reply_keeps | apply State.writing_keeps | apply done_keeps) | split | (intro _))

theorem State.clrGdlCnt_keeps {a s : State} (h : a.Keeps s) (n : Fin 12) :
    a.Keeps (State.clrGdlCnt s n) := by
  unfold State.clrGdlCnt
  repeat' (first | with_reducible assumption | (with_reducible first | apply State.mput_keeps) | (intro _))

theorem execGdlClrCnt_keeps {a s : State} (h : a.Keeps s) (l : Lane) (n : Fin 12) :
    OutKeeps a (execGdlClrCnt l n s) := by
  unfold execGdlClrCnt
  repeat' (first | with_reducible assumption | (with_reducible first | apply State.Keeps.ite | apply State.clrGdlCnt_keeps | apply State.reject_keeps | apply State.reply_keeps | apply State.writing_keeps | apply done_keeps) | split | (intro _))

end Sys2Proof.Machine
end

