-- ==== Sys2Proof/Laws/Keeps/Ce.lean ====
section
/-! SUPPORT. What the operations of Ce keep. -/
namespace Sys2Proof.Machine
set_option linter.all false
set_option Elab.async false

theorem State.ceStop_keeps {a s : State} (h : a.Keeps s) (l : Lane) :
    a.Keeps (State.ceStop s l) := by
  unfold State.ceStop
  repeat' (first | with_reducible assumption | (with_reducible first | apply State.Keeps.ite | apply State.Keeps.eng | apply State.putFlag_keeps | apply State.reject_keeps | apply State.reply_keeps) | split | (intro _))

theorem execCeStop_keeps {a s : State} (h : a.Keeps s) (l : Lane) :
    OutKeeps a (execCeStop l s) := by
  unfold execCeStop
  repeat' (first | with_reducible assumption | (with_reducible first | apply State.ceStop_keeps | apply State.writing_keeps | apply done_keeps) | (intro _))

theorem State.ceCommit_keeps {a s : State} (h : a.Keeps s) (l : Lane) :
    a.Keeps (State.ceCommit s l) := by
  unfold State.ceCommit
  repeat' (first | with_reducible assumption | lift_lets -underBinder | (intro x; have hx : a.Keeps x := (by repeat' (first | with_reducible assumption | lift_lets -underBinder | (with_reducible first | apply State.Keeps.ite | apply State.commitTable_keeps | apply State.reject_keeps | apply State.reply_keeps) | (first | split | (dsimp only [x]; split)) | (intro _))); clear_value x) | (intro x; clear_value x) | (with_reducible first | apply State.Keeps.ite | apply State.commitTable_keeps | apply State.reject_keeps | apply State.reply_keeps) | split | (intro _))

theorem execCommit_keeps {a s : State} (h : a.Keeps s) (l : Lane) :
    OutKeeps a (execCommit l s) := by
  unfold execCommit
  repeat' (first | with_reducible assumption | (with_reducible first | apply State.ceCommit_keeps | apply State.writing_keeps | apply done_keeps) | (intro _))

theorem State.loopsClose_keeps {a s : State} (h : a.Keeps s) (l : Lane) (mask : BitVec 24) :
    a.Keeps (State.loopsClose s l mask) := by
  unfold State.loopsClose
  repeat' (first | with_reducible assumption | (with_reducible first | apply State.Keeps.fold | apply State.loopAsk_keeps) | (intro _))

theorem execLoopClose_keeps {a s : State} (h : a.Keeps s) (l : Lane) (mask : BitVec 24) :
    OutKeeps a (execLoopClose l mask s) := by
  unfold execLoopClose
  repeat' (first | with_reducible assumption | (with_reducible first | apply State.loopsClose_keeps | apply State.reply_keeps | apply State.writing_keeps | apply done_keeps) | (intro _))

theorem State.loopsOpen_keeps {a s : State} (h : a.Keeps s) (l : Lane) (mask : BitVec 24) :
    a.Keeps (State.loopsOpen s l mask) := by
  unfold State.loopsOpen
  repeat' (first | with_reducible assumption | (with_reducible first | apply State.Keeps.fold | apply State.loopOpen_keeps) | (intro _))

theorem execLoopOpen_keeps {a s : State} (h : a.Keeps s) (l : Lane) (mask : BitVec 24) :
    OutKeeps a (execLoopOpen l mask s) := by
  unfold execLoopOpen
  repeat' (first | with_reducible assumption | (with_reducible first | apply State.loopsOpen_keeps | apply State.reply_keeps | apply State.writing_keeps | apply done_keeps) | (intro _))

theorem State.clrNf_keeps {a s : State} (h : a.Keeps s) (l : Lane) :
    a.Keeps (State.clrNf s l) := by
  unfold State.clrNf
  repeat' (first | with_reducible assumption | (with_reducible first | apply State.Keeps.fold | apply State.putWord_keeps | apply State.put_keeps) | (intro _))

theorem execCeClrNf_keeps {a s : State} (h : a.Keeps s) (l : Lane) :
    OutKeeps a (execCeClrNf l s) := by
  unfold execCeClrNf
  repeat' (first | with_reducible assumption | (with_reducible first | apply State.clrNf_keeps | apply State.reply_keeps | apply State.writing_keeps | apply done_keeps) | (intro _))

theorem State.clrOvr_keeps {a s : State} (h : a.Keeps s) (l : Lane) :
    a.Keeps (State.clrOvr s l) := by
  unfold State.clrOvr
  repeat' (first | with_reducible assumption | (with_reducible first | apply State.put_keeps) | (intro _))

theorem execCeClrOvr_keeps {a s : State} (h : a.Keeps s) (l : Lane) :
    OutKeeps a (execCeClrOvr l s) := by
  unfold execCeClrOvr
  repeat' (first | with_reducible assumption | (with_reducible first | apply State.clrOvr_keeps | apply State.reply_keeps | apply State.writing_keeps | apply done_keeps) | (intro _))

theorem State.clrMax_keeps {a s : State} (h : a.Keeps s) (l : Lane) :
    a.Keeps (State.clrMax s l) := by
  unfold State.clrMax
  repeat' (first | with_reducible assumption | (with_reducible first | apply State.put_keeps) | (intro _))

theorem execCeClrMax_keeps {a s : State} (h : a.Keeps s) (l : Lane) :
    OutKeeps a (execCeClrMax l s) := by
  unfold execCeClrMax
  repeat' (first | with_reducible assumption | (with_reducible first | apply State.clrMax_keeps | apply State.reply_keeps | apply State.writing_keeps | apply done_keeps) | (intro _))

theorem State.spFault_keeps {a s : State} (h : a.Keeps s) (l : Lane) :
    a.Keeps (State.spFault s l) := by
  unfold State.spFault
  repeat' (first | with_reducible assumption | (with_reducible first | apply State.Keeps.ite | apply State.levelEv_keeps | apply State.putFlag_keeps) | split | (intro _))

theorem execSpFault_keeps {a s : State} (h : a.Keeps s) (l : Lane) :
    OutKeeps a (execSpFault l s) := by
  unfold execSpFault
  repeat' (first | with_reducible assumption | (with_reducible first | apply State.spFault_keeps | apply done_keeps) | (intro _))

theorem execSpFaultClear_keeps {a s : State} (h : a.Keeps s) (l : Lane) :
    OutKeeps a (execSpFaultClear l s) := by
  unfold execSpFaultClear
  repeat' (first | with_reducible assumption | (with_reducible first | apply State.Keeps.ite | apply State.levelEv_keeps | apply State.putFlag_keeps | apply done_keeps) | split | (intro _))

theorem execPinSpEdge_keeps {a s : State} (h : a.Keeps s) (l : Lane) (rising : Bool) :
    OutKeeps a (execPinSpEdge l rising s) := by
  unfold execPinSpEdge
  repeat' (first | with_reducible assumption | lift_lets -underBinder | (intro x; have hx : a.Keeps x := (by repeat' (first | with_reducible assumption | lift_lets -underBinder | (with_reducible first | apply State.Keeps.ite | apply State.Keeps.eng | apply State.put_keeps | apply State.spFault_keeps | apply done_keeps) | (first | split | (dsimp only [x]; split)) | (intro _))); clear_value x) | (intro x; clear_value x) | (with_reducible first | apply State.Keeps.ite | apply State.Keeps.eng | apply State.put_keeps | apply State.spFault_keeps | apply done_keeps) | split | (intro _))

end Sys2Proof.Machine
end

