-- ==== Sys2Proof/Laws/Keeps/Trc.lean ====
section
/-! SUPPORT. What the operations of Trc keep. -/
namespace Sys2Proof.Machine
set_option linter.all false
set_option Elab.async false

theorem execCurrentExchange_keeps {a s : State} (h : a.Keeps s) (l : Lane) (w : Vector Word 16) :
    OutKeeps a (execCurrentExchange l w s) := by
  unfold execCurrentExchange
  repeat' (first | with_reducible assumption | (with_reducible first | apply State.Keeps.ite | apply State.Keeps.eng | apply done_keeps) | split | (intro _))

theorem execDecModel_keeps {a s : State} (h : a.Keeps s) (l : Lane) :
    OutKeeps a (execDecModel l s) := by
  unfold execDecModel
  repeat' (first | with_reducible assumption | (with_reducible first | apply State.Keeps.ite | apply State.Keeps.eng | apply State.pulseEv_keeps | apply State.putFlag_keeps | apply done_keeps) | split | (intro _))

theorem execDecRestored_keeps {a s : State} (h : a.Keeps s) (l : Lane) :
    OutKeeps a (execDecRestored l s) := by
  unfold execDecRestored
  repeat' (first | with_reducible assumption | (with_reducible first | apply State.Keeps.ite | apply State.pulseEv_keeps | apply State.putFlag_keeps | apply done_keeps) | split | (intro _))

theorem State.lockLost_keeps {a s : State} (h : a.Keeps s) (l : Lane) :
    a.Keeps (State.lockLost s l) := by
  unfold State.lockLost
  repeat' (first | with_reducible assumption | lift_lets -underBinder | (intro x; have hx : a.Keeps x := (by repeat' (first | with_reducible assumption | lift_lets -underBinder | (with_reducible first | apply State.Keeps.ite | apply State.pulseEv_keeps | apply State.putFlag_keeps | apply State.put_keeps) | (first | split | (dsimp only [x]; split)) | (intro _))); clear_value x) | (intro x; clear_value x) | (with_reducible first | apply State.Keeps.ite | apply State.pulseEv_keeps | apply State.putFlag_keeps | apply State.put_keeps) | split | (intro _))

theorem execLockLost_keeps {a s : State} (h : a.Keeps s) (l : Lane) :
    OutKeeps a (execLockLost l s) := by
  unfold execLockLost
  repeat' (first | with_reducible assumption | (with_reducible first | apply State.lockLost_keeps | apply done_keeps) | (intro _))

theorem State.lockGained_keeps {a s : State} (h : a.Keeps s) (l : Lane) :
    a.Keeps (State.lockGained s l) := by
  unfold State.lockGained
  repeat' (first | with_reducible assumption | lift_lets -underBinder | (intro x; have hx : a.Keeps x := (by repeat' (first | with_reducible assumption | lift_lets -underBinder | (with_reducible first | apply State.Keeps.ite | apply State.pulseEv_keeps | apply State.putFlag_keeps) | (first | split | (dsimp only [x]; split)) | (intro _))); clear_value x) | (intro x; clear_value x) | (with_reducible first | apply State.Keeps.ite | apply State.pulseEv_keeps | apply State.putFlag_keeps) | split | (intro _))

theorem execLock_keeps {a s : State} (h : a.Keeps s) (l : Lane) :
    OutKeeps a (execLock l s) := by
  unfold execLock
  repeat' (first | with_reducible assumption | (with_reducible first | apply State.lockGained_keeps | apply done_keeps) | (intro _))

theorem execAlignmentDone_keeps {a s : State} (h : a.Keeps s) :
    OutKeeps a (execAlignmentDone s) := by
  unfold execAlignmentDone
  repeat' (first | with_reducible assumption | lift_lets -underBinder | (intro x; have hx : a.Keeps x := (by repeat' (first | with_reducible assumption | lift_lets -underBinder | (with_reducible first | apply State.Keeps.ite | apply State.Keeps.both | apply State.pulseEv_keeps | apply State.putFlag_keeps | apply done_keeps) | (first | split | (dsimp only [x]; split)) | (intro _))); clear_value x) | (intro x; clear_value x) | (with_reducible first | apply State.Keeps.ite | apply State.Keeps.both | apply State.pulseEv_keeps | apply State.putFlag_keeps | apply done_keeps) | split | (intro _))

theorem State.altSelect_keeps {a s : State} (h : a.Keeps s) (l : Lane) (alt : Bool) :
    a.Keeps (State.altSelect s l alt) := by
  unfold State.altSelect
  repeat' (first | with_reducible assumption | lift_lets -underBinder | (intro x; have hx : a.Keeps x := (by repeat' (first | with_reducible assumption | lift_lets -underBinder | (with_reducible first | apply State.Keeps.ite | apply State.Keeps.eng | apply State.putFlag_keeps | apply State.reject_keeps | apply State.reply_keeps) | (intro _))); clear_value x) | (intro x; dsimp -zeta only [x]; clear x) | (intro x; clear_value x) | (with_reducible first | apply State.Keeps.ite | apply State.Keeps.eng | apply State.putFlag_keeps | apply State.reject_keeps | apply State.reply_keeps) | (intro _))

theorem execPwmAltSelect_keeps {a s : State} (h : a.Keeps s) (l : Lane) (alt : Bool) :
    OutKeeps a (execPwmAltSelect l alt s) := by
  unfold execPwmAltSelect
  repeat' (first | with_reducible assumption | (with_reducible first | apply State.altSelect_keeps | apply State.writing_keeps | apply done_keeps) | (intro _))

theorem State.rateChange_keeps {a s : State} (h : a.Keeps s) (l : Lane) :
    a.Keeps (State.rateChange s l) := by
  unfold State.rateChange
  repeat' (first | with_reducible assumption | lift_lets -underBinder | (intro x; have hx : a.Keeps x := (by repeat' (first | with_reducible assumption | lift_lets -underBinder | (with_reducible first | apply State.Keeps.eng | apply State.putFlag_keeps | apply State.put_keeps | apply State.showMmax_keeps) | (first | split | (dsimp only [x]; split)) | (intro _))); clear_value x) | (intro x; clear_value x) | (with_reducible first | apply State.Keeps.eng | apply State.putFlag_keeps | apply State.put_keeps | apply State.showMmax_keeps) | split | (intro _))

theorem execPwmRateChange_keeps {a s : State} (h : a.Keeps s) (l : Lane) :
    OutKeeps a (execPwmRateChange l s) := by
  unfold execPwmRateChange
  repeat' (first | with_reducible assumption | lift_lets -underBinder | (intro x; have hx : a.Keeps x := (by repeat' (first | with_reducible assumption | lift_lets -underBinder | (with_reducible first | apply State.Keeps.ite | apply State.rateChange_keeps | apply done_keeps) | (first | split | (dsimp only [x]; split)) | (intro _))); clear_value x) | (intro x; clear_value x) | (with_reducible first | apply State.Keeps.ite | apply State.rateChange_keeps | apply done_keeps) | split | (intro _))

theorem execVlim_keeps {a s : State} (h : a.Keeps s) (l : Lane) :
    OutKeeps a (execVlim l s) := by
  unfold execVlim
  repeat' (first | with_reducible assumption | (with_reducible first | apply State.Keeps.ite | apply State.pulseEv_keeps | apply done_keeps) | split | (intro _))

theorem State.clrMiss_keeps {a s : State} (h : a.Keeps s) (l : Lane) :
    a.Keeps (State.clrMiss s l) := by
  unfold State.clrMiss
  repeat' (first | with_reducible assumption | (with_reducible first | apply State.put_keeps) | (intro _))

theorem execTrcClrMiss_keeps {a s : State} (h : a.Keeps s) (l : Lane) :
    OutKeeps a (execTrcClrMiss l s) := by
  unfold execTrcClrMiss
  repeat' (first | with_reducible assumption | (with_reducible first | apply State.clrMiss_keeps | apply State.reply_keeps | apply State.writing_keeps | apply done_keeps) | (intro _))

end Sys2Proof.Machine
end

