-- ==== Sys2Proof/Laws/Keeps/Fail.lean ====
section
/-! SUPPORT. What the operations of Fail keep. -/
namespace Sys2Proof.Machine
set_option linter.all false
set_option Elab.async false

theorem State.selfFail_keeps {a s : State} (h : a.Keeps s) (l : Lane) (cause : Nat) :
    a.Keeps (State.selfFail s l cause) := by
  unfold State.selfFail
  repeat' (first | (exact fun (_ : RedState) hx => hx) | with_reducible assumption | lift_lets -underBinder | (intro x; have hx : a.Keeps x := (by repeat' (first | (exact fun (_ : RedState) hx => hx) | with_reducible assumption | lift_lets -underBinder | (with_reducible first | apply State.Keeps.ite | apply State.Keeps.red | apply State.levelEv_keeps | apply State.putFlag_keeps | apply State.put_keeps) | (first | split | (dsimp only [x]; split)) | (intro _))); clear_value x) | (intro x; clear_value x) | (with_reducible first | apply State.Keeps.ite | apply State.Keeps.red | apply State.levelEv_keeps | apply State.putFlag_keeps | apply State.put_keeps) | split | (intro _))

theorem execLockstepMismatch_keeps {a s : State} (h : a.Keeps s) (l : Lane) :
    OutKeeps a (execLockstepMismatch l s) := by
  unfold execLockstepMismatch
  repeat' (first | with_reducible assumption | (with_reducible first | apply State.selfFail_keeps | apply done_keeps) | (intro _))

end Sys2Proof.Machine
end

