-- ==== Sys2Proof/Laws/Keeps/Feedback.lean ====
section
/-! SUPPORT. What the operations of Feedback keep. -/
namespace Sys2Proof.Machine
set_option linter.all false
set_option Elab.async false

theorem State.faultSrc_keeps {a s : State} (h : a.Keeps s) (l : Lane) (x : Src) :
    a.Keeps (State.faultSrc s l x) := by
  unfold State.faultSrc
  repeat' (first | with_reducible assumption | (with_reducible first | apply State.Keeps.fbk | apply State.putFlag_keeps) | (intro _))

theorem State.encGlitch_keeps {a s : State} (h : a.Keeps s) (l : Lane) :
    a.Keeps (State.encGlitch s l) := by
  unfold State.encGlitch
  repeat' (first | with_reducible assumption | lift_lets -underBinder | (intro x; have hx : a.Keeps x := (by repeat' (first | with_reducible assumption | lift_lets -underBinder | (with_reducible first | apply State.Keeps.ite | apply State.Keeps.fbk | apply State.bump_keeps | apply State.faultSrc_keeps | apply State.pulseEv_keeps) | (intro _))); clear_value x) | (intro x; clear_value x) | (with_reducible first | apply State.Keeps.ite | apply State.Keeps.fbk | apply State.bump_keeps | apply State.faultSrc_keeps | apply State.pulseEv_keeps) | (intro _))

theorem State.encAdd_keeps {a s : State} (h : a.Keeps s) (l : Lane) (d : Int) :
    a.Keeps (State.encAdd s l d) := by
  unfold State.encAdd
  repeat' (first | with_reducible assumption | (with_reducible first | apply State.putWord_keeps) | (intro _))

theorem execEncEdge_keeps {a s : State} (h : a.Keeps s) (l : Lane) (pa : Bool) (pb : Bool) :
    OutKeeps a (execEncEdge l pa pb s) := by
  unfold execEncEdge
  repeat' (first | with_reducible assumption | lift_lets -underBinder | (intro x; have hx : a.Keeps x := (by repeat' (first | with_reducible assumption | lift_lets -underBinder | (with_reducible first | apply State.Keeps.ite | apply State.Keeps.both | apply State.Keeps.fbk | apply State.encAdd_keeps | apply State.encGlitch_keeps | apply done_keeps) | (first | split | (dsimp only [x]; split)) | (intro _))); clear_value x) | (intro x; clear_value x) | (with_reducible first | apply State.Keeps.ite | apply State.Keeps.both | apply State.Keeps.fbk | apply State.encAdd_keeps | apply State.encGlitch_keeps | apply done_keeps) | split | (intro _))

theorem State.indexCheck_keeps {a s : State} (h : a.Keeps s) (l : Lane) (prev : Word) (cnt : Word) :
    a.Keeps (State.indexCheck s l prev cnt) := by
  unfold State.indexCheck
  repeat' (first | with_reducible assumption | lift_lets -underBinder | (intro x; have hx : a.Keeps x := (by repeat' (first | with_reducible assumption | lift_lets -underBinder | (with_reducible first | apply State.Keeps.ite | apply State.bump_keeps | apply State.faultSrc_keeps | apply State.pulseEv_keeps | apply State.put_keeps) | (intro _))); clear_value x) | (intro x; dsimp -zeta only [x]; clear x) | (intro x; clear_value x) | (with_reducible first | apply State.Keeps.ite | apply State.bump_keeps | apply State.faultSrc_keeps | apply State.pulseEv_keeps | apply State.put_keeps) | (intro _))

theorem execIndexLatch_keeps {a s : State} (h : a.Keeps s) (l : Lane) :
    OutKeeps a (execIndexLatch l s) := by
  unfold execIndexLatch
  repeat' (first | with_reducible assumption | lift_lets -underBinder | (intro x; have hx : a.Keeps x := (by repeat' (first | with_reducible assumption | lift_lets -underBinder | (with_reducible first | apply State.Keeps.ite | apply State.Keeps.fbk | apply State.indexCheck_keeps | apply State.putFlag_keeps | apply State.putWord_keeps | apply done_keeps) | (first | split | (dsimp only [x]; split)) | (intro _))); clear_value x) | (intro x; clear_value x) | (with_reducible first | apply State.Keeps.ite | apply State.Keeps.fbk | apply State.indexCheck_keeps | apply State.putFlag_keeps | apply State.putWord_keeps | apply done_keeps) | split | (intro _))

theorem State.hallIllegal_keeps {a s : State} (h : a.Keeps s) (l : Lane) :
    a.Keeps (State.hallIllegal s l) := by
  unfold State.hallIllegal
  repeat' (first | with_reducible assumption | lift_lets -underBinder | (intro x; have hx : a.Keeps x := (by repeat' (first | with_reducible assumption | lift_lets -underBinder | (with_reducible first | apply State.Keeps.ite | apply State.Keeps.fbk | apply State.bump_keeps | apply State.faultSrc_keeps | apply State.pulseEv_keeps) | (intro _))); clear_value x) | (intro x; clear_value x) | (with_reducible first | apply State.Keeps.ite | apply State.Keeps.fbk | apply State.bump_keeps | apply State.faultSrc_keeps | apply State.pulseEv_keeps) | (intro _))

theorem execHallEdge_keeps {a s : State} (h : a.Keeps s) (l : Lane) (h' : BitVec 3) :
    OutKeeps a (execHallEdge l h' s) := by
  unfold execHallEdge
  repeat' (first | with_reducible assumption | lift_lets -underBinder | (intro x; have hx : a.Keeps x := (by repeat' (first | with_reducible assumption | lift_lets -underBinder | (with_reducible first | apply State.Keeps.ite | apply State.Keeps.fbk | apply State.faultSrc_keeps | apply State.hallIllegal_keeps | apply State.pulseEv_keeps | apply done_keeps) | (first | split | (dsimp only [x]; split)) | (intro _))); clear_value x) | (intro x; clear_value x) | (with_reducible first | apply State.Keeps.ite | apply State.Keeps.fbk | apply State.faultSrc_keeps | apply State.hallIllegal_keeps | apply State.pulseEv_keeps | apply done_keeps) | split | (intro _))

theorem State.resCheck_keeps {a s : State} (h : a.Keeps s) (l : Lane) (n : Nat) (e : Ev) :
    a.Keeps (State.resCheck s l n e) := by
  unfold State.resCheck
  repeat' (first | with_reducible assumption | (with_reducible first | apply State.Keeps.ite | apply State.faultSrc_keeps | apply State.pulseEv_keeps) | (intro _))

theorem execResTrackUpdate_keeps {a s : State} (h : a.Keeps s) (l : Lane) (angle : BitVec 24) (speed : Word) (amp : BitVec 16) (full : Bool) (err : BitVec 16) (phase : BitVec 8) :
    OutKeeps a (execResTrackUpdate l angle speed amp full err phase s) := by
  unfold execResTrackUpdate
  repeat' (first | with_reducible assumption | lift_lets -underBinder | (intro x; have hx : a.Keeps x := (by repeat' (first | with_reducible assumption | lift_lets -underBinder | (with_reducible first | apply State.Keeps.ite | apply State.Keeps.fbk | apply State.putWord_keeps | apply State.resCheck_keeps | apply done_keeps) | (first | split | (dsimp only [x]; split)) | (intro _))); clear_value x) | (intro x; clear_value x) | (with_reducible first | apply State.Keeps.ite | apply State.Keeps.fbk | apply State.putWord_keeps | apply State.resCheck_keeps | apply done_keeps) | split | (intro _))

theorem State.ssiError_keeps {a s : State} (h : a.Keeps s) (l : Lane) :
    a.Keeps (State.ssiError s l) := by
  unfold State.ssiError
  repeat' (first | with_reducible assumption | lift_lets -underBinder | (intro x; have hx : a.Keeps x := (by repeat' (first | with_reducible assumption | lift_lets -underBinder | (with_reducible first | apply State.Keeps.ite | apply State.Keeps.fbk | apply State.bump_keeps | apply State.faultSrc_keeps | apply State.pulseEv_keeps) | (intro _))); clear_value x) | (intro x; clear_value x) | (with_reducible first | apply State.Keeps.ite | apply State.Keeps.fbk | apply State.bump_keeps | apply State.faultSrc_keeps | apply State.pulseEv_keeps) | (intro _))

theorem execSsiRequest_keeps {a s : State} (h : a.Keeps s) (l : Lane) (datLow : Bool) :
    OutKeeps a (execSsiRequest l datLow s) := by
  unfold execSsiRequest
  repeat' (first | with_reducible assumption | lift_lets -underBinder | (intro x; have hx : a.Keeps x := (by repeat' (first | with_reducible assumption | lift_lets -underBinder | (with_reducible first | apply State.Keeps.ite | apply State.Keeps.fbk | apply State.ssiError_keeps | apply done_keeps) | (first | split | (dsimp only [x]; split)) | (intro _))); clear_value x) | (intro x; clear_value x) | (with_reducible first | apply State.Keeps.ite | apply State.Keeps.fbk | apply State.ssiError_keeps | apply done_keeps) | split | (intro _))

theorem execSsiFrame_keeps {a s : State} (h : a.Keeps s) (l : Lane) (data : Word) (err : Bool) (par : Bool) (low : Bool) :
    OutKeeps a (execSsiFrame l data err par low s) := by
  unfold execSsiFrame
  repeat' (first | with_reducible assumption | lift_lets -underBinder | (intro x; have hx : a.Keeps x := (by repeat' (first | with_reducible assumption | lift_lets -underBinder | (with_reducible first | apply State.Keeps.ite | apply State.Keeps.fbk | apply State.ssiError_keeps | apply done_keeps) | (first | split | (dsimp only [x]; split)) | (intro _))); clear_value x) | (intro x; clear_value x) | (with_reducible first | apply State.Keeps.ite | apply State.Keeps.fbk | apply State.ssiError_keeps | apply done_keeps) | split | (intro _))

theorem execPosStale_keeps {a s : State} (h : a.Keeps s) (l : Lane) (x : Src) :
    OutKeeps a (execPosStale l x s) := by
  unfold execPosStale
  repeat' (first | with_reducible assumption | lift_lets -underBinder | (intro x; have hx : a.Keeps x := (by repeat' (first | with_reducible assumption | lift_lets -underBinder | (with_reducible first | apply State.Keeps.ite | apply State.faultSrc_keeps | apply State.pulseEv_keeps | apply State.putFlag_keeps | apply done_keeps) | (first | split | (dsimp only [x]; split)) | (intro _))); clear_value x) | (intro x; clear_value x) | (with_reducible first | apply State.Keeps.ite | apply State.faultSrc_keeps | apply State.pulseEv_keeps | apply State.putFlag_keeps | apply done_keeps) | split | (intro _))

theorem execSpeedZeroTimeout_keeps {a s : State} (h : a.Keeps s) (l : Lane) (x : Src) :
    OutKeeps a (execSpeedZeroTimeout l x s) := by
  unfold execSpeedZeroTimeout
  repeat' (first | with_reducible assumption | (with_reducible first | apply State.Keeps.ite | apply State.Keeps.fbk | apply done_keeps) | split | (intro _))

theorem State.posDisagree_keeps {a s : State} (h : a.Keeps s) (l : Lane) :
    a.Keeps (State.posDisagree s l) := by
  unfold State.posDisagree
  repeat' (first | with_reducible assumption | lift_lets -underBinder | (intro x; have hx : a.Keeps x := (by repeat' (first | with_reducible assumption | lift_lets -underBinder | (with_reducible first | apply State.Keeps.ite | apply State.Keeps.fbk | apply State.faultSrc_keeps | apply State.pulseEv_keeps) | (first | split | (dsimp only [x]; split)) | (intro _))); clear_value x) | (intro x; dsimp -zeta only [x]; clear x) | (intro x; clear_value x) | (with_reducible first | apply State.Keeps.ite | apply State.Keeps.fbk | apply State.faultSrc_keeps | apply State.pulseEv_keeps) | split | (intro _))

theorem execPosDisagree_keeps {a s : State} (h : a.Keeps s) (l : Lane) :
    OutKeeps a (execPosDisagree l s) := by
  unfold execPosDisagree
  repeat' (first | with_reducible assumption | (with_reducible first | apply State.Keeps.ite | apply State.posDisagree_keeps | apply done_keeps) | split | (intro _))

theorem execSourceReturn_keeps {a s : State} (h : a.Keeps s) (l : Lane) (x : Src) (agreed : Bool) :
    OutKeeps a (execSourceReturn l x agreed s) := by
  unfold execSourceReturn
  repeat' (first | with_reducible assumption | lift_lets -underBinder | (intro x; have hx : a.Keeps x := (by repeat' (first | with_reducible assumption | lift_lets -underBinder | (with_reducible first | apply State.Keeps.ite | apply State.Keeps.fbk | apply done_keeps) | (first | split | (dsimp only [x]; split)) | (intro _))); clear_value x) | (intro x; clear_value x) | (with_reducible first | apply State.Keeps.ite | apply State.Keeps.fbk | apply done_keeps) | split | (intro _))

theorem State.encOffset_keeps {a s : State} (h : a.Keeps s) (l : Lane) (w : Word) :
    a.Keeps (State.encOffset s l w) := by
  unfold State.encOffset
  repeat' (first | with_reducible assumption | (with_reducible first | apply State.Keeps.fbk) | (intro _))

theorem execEncOffsetWrite_keeps {a s : State} (h : a.Keeps s) (l : Lane) (ofs : Word) :
    OutKeeps a (execEncOffsetWrite l ofs s) := by
  unfold execEncOffsetWrite
  repeat' (first | with_reducible assumption | (with_reducible first | apply State.encOffset_keeps | apply State.reply_keeps | apply State.writing_keeps | apply done_keeps) | (intro _))

theorem State.clrFbkCnt_keeps {a s : State} (h : a.Keeps s) (l : Lane) :
    a.Keeps (State.clrFbkCnt s l) := by
  unfold State.clrFbkCnt
  repeat' (first | with_reducible assumption | (with_reducible first | apply State.putWord_keeps) | (intro _))

theorem execFbkClrCnt_keeps {a s : State} (h : a.Keeps s) (l : Lane) :
    OutKeeps a (execFbkClrCnt l s) := by
  unfold execFbkClrCnt
  repeat' (first | with_reducible assumption | (with_reducible first | apply State.clrFbkCnt_keeps | apply State.reply_keeps | apply State.writing_keeps | apply done_keeps) | (intro _))

theorem State.clrDrift_keeps {a s : State} (h : a.Keeps s) (l : Lane) :
    a.Keeps (State.clrDrift s l) := by
  unfold State.clrDrift
  repeat' (first | with_reducible assumption | (with_reducible first | apply State.put_keeps) | (intro _))

theorem execFbkClrDrift_keeps {a s : State} (h : a.Keeps s) (l : Lane) :
    OutKeeps a (execFbkClrDrift l s) := by
  unfold execFbkClrDrift
  repeat' (first | with_reducible assumption | (with_reducible first | apply State.clrDrift_keeps | apply State.reply_keeps | apply State.writing_keeps | apply done_keeps) | (intro _))

theorem State.encRef_keeps {a s : State} (h : a.Keeps s) (l : Lane) :
    a.Keeps (State.encRef s l) := by
  unfold State.encRef
  repeat' (first | with_reducible assumption | (with_reducible first | apply State.putFlag_keeps | apply State.putWord_keeps) | (intro _))

theorem execFbkClrEncRef_keeps {a s : State} (h : a.Keeps s) (l : Lane) :
    OutKeeps a (execFbkClrEncRef l s) := by
  unfold execFbkClrEncRef
  repeat' (first | with_reducible assumption | (with_reducible first | apply State.encRef_keeps | apply State.reply_keeps | apply State.writing_keeps | apply done_keeps) | (intro _))

theorem State.clrSrc_keeps {a s : State} (h : a.Keeps s) (l : Lane) (i : Nat) :
    a.Keeps (State.clrSrc s l i) := by
  unfold State.clrSrc
  repeat' (first | with_reducible assumption | (with_reducible first | apply State.Keeps.ite | apply State.Keeps.fbk | apply State.putFlag_keeps) | split | (intro _))

theorem execFbkClrFault_keeps {a s : State} (h : a.Keeps s) (l : Lane) (x : Src) :
    OutKeeps a (execFbkClrFault l x s) := by
  unfold execFbkClrFault
  repeat' (first | with_reducible assumption | (with_reducible first | apply State.clrSrc_keeps | apply State.reply_keeps | apply State.writing_keeps | apply done_keeps) | (intro _))

theorem State.encWindow_keeps {a s : State} (h : a.Keeps s) (l : Lane) :
    a.Keeps (State.encWindow s l) := by
  unfold State.encWindow
  repeat' (first | with_reducible assumption | lift_lets -underBinder | (intro x; have hx : a.Keeps x := (by repeat' (first | with_reducible assumption | lift_lets -underBinder | (with_reducible first | apply State.Keeps.ite | apply State.Keeps.fbk | apply State.Keeps.fold | apply State.putFlag_keeps) | (intro _))); clear_value x) | (intro x; clear_value x) | (with_reducible first | apply State.Keeps.ite | apply State.Keeps.fbk | apply State.Keeps.fold | apply State.putFlag_keeps) | (intro _))

theorem State.feedback_keeps {a s : State} (h : a.Keeps s) (l : Lane) :
    a.Keeps (State.feedback s l) := by
  unfold State.feedback
  repeat' (first | with_reducible assumption | lift_lets -underBinder | (intro x; have hx : a.Keeps x := (by repeat' (first | with_reducible assumption | lift_lets -underBinder | (with_reducible first | apply State.Keeps.ite | apply State.Keeps.fbk | apply State.Keeps.fold | apply State.encAdd_keeps | apply State.encWindow_keeps | apply State.faultSrc_keeps | apply State.levelEv_keeps | apply State.pulseEv_keeps | apply State.putFlag_keeps | apply State.putWord_keeps | apply State.put_keeps) | (first | split | (dsimp only [x]; split)) | (intro _))); clear_value x) | (intro x; clear_value x) | (with_reducible first | apply State.Keeps.ite | apply State.Keeps.fbk | apply State.Keeps.fold | apply State.encAdd_keeps | apply State.encWindow_keeps | apply State.faultSrc_keeps | apply State.levelEv_keeps | apply State.pulseEv_keeps | apply State.putFlag_keeps | apply State.putWord_keeps | apply State.put_keeps) | split | (intro _))

end Sys2Proof.Machine
end

