-- ==== Sys2Proof/Laws/Keeps/Sensing.lean ====
section
/-! SUPPORT. What the operations of Sensing keep. -/
namespace Sys2Proof.Machine
set_option linter.all false
set_option Elab.async false

theorem State.inputConsequence_keeps {a s : State} (h : a.Keeps s) (l : Lane) (n : Nat) :
    a.Keeps (State.inputConsequence s l n) := by
  unfold State.inputConsequence
  repeat' (first | with_reducible assumption | (with_reducible first | apply State.Keeps.ite | apply State.chgFault_keeps | apply State.phaseStop_keeps | apply State.putFlag_keeps | apply State.setFault_keeps | apply State.spFault_keeps) | (intro _))

theorem State.faultInput_keeps {a s : State} (h : a.Keeps s) (l : Lane) (n : Nat) (e : Ev) :
    a.Keeps (State.faultInput s l n e) := by
  unfold State.faultInput
  repeat' (first | with_reducible assumption | lift_lets -underBinder | (intro x; have hx : a.Keeps x := (by repeat' (first | with_reducible assumption | lift_lets -underBinder | (with_reducible first | apply State.Keeps.ite | apply State.inputConsequence_keeps | apply State.pulseEv_keeps | apply State.putFlag_keeps) | (intro _))); clear_value x) | (intro x; clear_value x) | (with_reducible first | apply State.Keeps.ite | apply State.inputConsequence_keeps | apply State.pulseEv_keeps | apply State.putFlag_keeps) | (intro _))

theorem State.sumCheck_keeps {a s : State} (h : a.Keeps s) (l : Lane) :
    a.Keeps (State.sumCheck s l) := by
  unfold State.sumCheck
  repeat' (first | with_reducible assumption | lift_lets -underBinder | (intro x; have hx : a.Keeps x := (by repeat' (first | with_reducible assumption | lift_lets -underBinder | (with_reducible first | apply State.Keeps.ite | apply State.Keeps.smp | apply State.bump_keeps | apply State.pulseEv_keeps | apply State.putWord_keeps | apply State.setFault_keeps) | (intro _))); clear_value x) | (intro x; clear_value x) | (with_reducible first | apply State.Keeps.ite | apply State.Keeps.smp | apply State.bump_keeps | apply State.pulseEv_keeps | apply State.putWord_keeps | apply State.setFault_keeps) | (intro _))

theorem State.residCheck_keeps {a s : State} (h : a.Keeps s) (l : Lane) :
    a.Keeps (State.residCheck s l) := by
  unfold State.residCheck
  repeat' (first | with_reducible assumption | lift_lets -underBinder | (intro x; have hx : a.Keeps x := (by repeat' (first | with_reducible assumption | lift_lets -underBinder | (with_reducible first | apply State.Keeps.ite | apply State.Keeps.smp | apply State.Keeps.trc | apply State.bump_keeps | apply State.pulseEv_keeps | apply State.putWord_keeps | apply State.setFault_keeps) | (first | split | (dsimp only [x]; split)) | (intro _))); clear_value x) | (intro x; clear_value x) | (with_reducible first | apply State.Keeps.ite | apply State.Keeps.smp | apply State.Keeps.trc | apply State.bump_keeps | apply State.pulseEv_keeps | apply State.putWord_keeps | apply State.setFault_keeps) | split | (intro _))

theorem State.ipkCheck_keeps {a s : State} (h : a.Keeps s) (l : Lane) (k : Fin 2) (v : Word) :
    a.Keeps (State.ipkCheck s l k v) := by
  unfold State.ipkCheck
  repeat' (first | with_reducible assumption | lift_lets -underBinder | (intro x; have hx : a.Keeps x := (by repeat' (first | with_reducible assumption | lift_lets -underBinder | (with_reducible first | apply State.Keeps.ite | apply State.Keeps.smp | apply State.bump_keeps | apply State.gatesOff_keeps | apply State.phaseStop_keeps | apply State.pulseEv_keeps) | (first | split | (dsimp only [x]; split)) | (intro _))); clear_value x) | (intro x; clear_value x) | (with_reducible first | apply State.Keeps.ite | apply State.Keeps.smp | apply State.bump_keeps | apply State.gatesOff_keeps | apply State.phaseStop_keeps | apply State.pulseEv_keeps) | split | (intro _))

theorem State.chgIpk_keeps {a s : State} (h : a.Keeps s) (l : Lane) (k : Fin 4) (v : Word) :
    a.Keeps (State.chgIpk s l k v) := by
  unfold State.chgIpk
  repeat' (first | with_reducible assumption | lift_lets -underBinder | (intro x; have hx : a.Keeps x := (by repeat' (first | with_reducible assumption | lift_lets -underBinder | (with_reducible first | apply State.Keeps.ite | apply State.Keeps.smp | apply State.bump_keeps | apply State.chgFault_keeps | apply State.gatesOff_keeps | apply State.pulseEv_keeps) | (first | split | (dsimp only [x]; split)) | (intro _))); clear_value x) | (intro x; clear_value x) | (with_reducible first | apply State.Keeps.ite | apply State.Keeps.smp | apply State.bump_keeps | apply State.chgFault_keeps | apply State.gatesOff_keeps | apply State.pulseEv_keeps) | split | (intro _))

theorem State.useResult_keeps {a s : State} (h : a.Keeps s) (l : Lane) (n : Fin 24) :
    a.Keeps (State.useResult s l n) := by
  unfold State.useResult
  repeat' (first | with_reducible assumption | lift_lets -underBinder | (intro x; have hx : a.Keeps x := (by repeat' (first | with_reducible assumption | lift_lets -underBinder | (with_reducible first | apply State.Keeps.ite | apply State.Keeps.smp | apply State.chgIpk_keeps | apply State.fresh_keeps | apply State.ipkCheck_keeps | apply State.putWord_keeps | apply State.put_keeps | apply State.residCheck_keeps | apply State.sumCheck_keeps) | (intro _))); clear_value x) | (intro x; clear_value x) | (with_reducible first | apply State.Keeps.ite | apply State.Keeps.smp | apply State.chgIpk_keeps | apply State.fresh_keeps | apply State.ipkCheck_keeps | apply State.putWord_keeps | apply State.put_keeps | apply State.residCheck_keeps | apply State.sumCheck_keeps) | (intro _))

theorem State.sarResult_keeps {a s : State} (h : a.Keeps s) (l : Lane) (n : Fin 24) (code : BitVec 16) (tag : BitVec 4) (waited : Bool) (edge : Bool) :
    a.Keeps (State.sarResult s l n code tag waited edge) := by
  unfold State.sarResult
  repeat' (first | with_reducible assumption | lift_lets -underBinder | (intro x; have hx : a.Keeps x := (by repeat' (first | with_reducible assumption | lift_lets -underBinder | (with_reducible first | apply State.Keeps.ite | apply State.Keeps.smp | apply State.bump_keeps | apply State.faultInput_keeps | apply State.pulseEv_keeps | apply State.putFlag_keeps | apply State.putWord_keeps | apply State.useResult_keeps) | (first | split | (dsimp only [x]; split)) | (intro _))); clear_value x) | (intro x; clear_value x) | (with_reducible first | apply State.Keeps.ite | apply State.Keeps.smp | apply State.bump_keeps | apply State.faultInput_keeps | apply State.pulseEv_keeps | apply State.putFlag_keeps | apply State.putWord_keeps | apply State.useResult_keeps) | split | (intro _))

theorem State.dclSource_keeps {a s : State} (h : a.Keeps s) (l : Lane) :
    a.Keeps (State.dclSource s l) := by
  unfold State.dclSource
  repeat' (first | with_reducible assumption | lift_lets -underBinder | (intro x; have hx : a.Keeps x := (by repeat' (first | with_reducible assumption | lift_lets -underBinder | (with_reducible first | apply State.Keeps.ite | apply State.Keeps.fold | apply State.dclFault_keeps | apply State.phaseStop_keeps | apply State.pulseEv_keeps | apply State.put_keeps) | (intro _))); clear_value x) | (intro x; clear_value x) | (with_reducible first | apply State.Keeps.ite | apply State.Keeps.fold | apply State.dclFault_keeps | apply State.phaseStop_keeps | apply State.pulseEv_keeps | apply State.put_keeps) | (intro _))

theorem execConversionResult_keeps {a s : State} (h : a.Keeps s) (l : Lane) (r : ConvIn) :
    OutKeeps a (execConversionResult l r s) := by
  unfold execConversionResult
  repeat' (first | with_reducible assumption | lift_lets -underBinder | (intro x; have hx : a.Keeps x := (by repeat' (first | with_reducible assumption | lift_lets -underBinder | (with_reducible first | apply State.Keeps.ite | apply State.Keeps.smp | apply State.bump_keeps | apply State.pulseEv_keeps | apply State.putFlag_keeps | apply State.put_keeps | apply State.sarResult_keeps | apply State.selfFail_keeps | apply done_keeps) | (first | split | (dsimp only [x]; split)) | (intro _))); clear_value x) | (intro x; clear_value x) | (with_reducible first | apply State.Keeps.ite | apply State.Keeps.smp | apply State.bump_keeps | apply State.pulseEv_keeps | apply State.putFlag_keeps | apply State.put_keeps | apply State.sarResult_keeps | apply State.selfFail_keeps | apply done_keeps) | split | (intro _))

theorem State.snsClock_keeps {a s : State} (h : a.Keeps s) (m : Fin 7) (toB : Bool) :
    a.Keeps (State.snsClock s m toB) := by
  unfold State.snsClock
  repeat' (first | with_reducible assumption | lift_lets -underBinder | (intro x; have hx : a.Keeps x := (by repeat' (first | with_reducible assumption | lift_lets -underBinder | (with_reducible first | apply State.Keeps.ite | apply State.Keeps.both | apply State.Keeps.smp | apply State.Keeps.sns | apply State.mbump_keeps) | (intro _))); clear_value x) | (intro x; clear_value x) | (with_reducible first | apply State.Keeps.ite | apply State.Keeps.both | apply State.Keeps.smp | apply State.Keeps.sns | apply State.mbump_keeps) | (intro _))

theorem execSnsClockChangeover_keeps {a s : State} (h : a.Keeps s) (m : Fin 7) (toB : Bool) :
    OutKeeps a (execSnsClockChangeover m toB s) := by
  unfold execSnsClockChangeover
  repeat' (first | with_reducible assumption | (with_reducible first | apply State.Keeps.ite | apply State.snsClock_keeps | apply done_keeps) | split | (intro _))

theorem execSnsLost_keeps {a s : State} (h : a.Keeps s) (w : Seer) (m : Fin 7) :
    OutKeeps a (execSnsLost w m s) := by
  unfold execSnsLost
  repeat' (first | (exact fun (_ : MonState) hx => hx) | with_reducible assumption | lift_lets -underBinder | (intro x; have hx : a.Keeps x := (by repeat' (first | (exact fun (_ : MonState) hx => hx) | with_reducible assumption | lift_lets -underBinder | (with_reducible first | apply State.Keeps.ite | apply State.Keeps.mon | apply State.Keeps.smp | apply State.dclSource_keeps | apply State.mbump_keeps | apply State.monEv_keeps | apply State.pulseEv_keeps | apply State.putFlag_keeps | apply done_keeps) | (first | split | (dsimp only [x]; split)) | (intro _))); clear_value x) | (intro x; clear_value x) | (with_reducible first | apply State.Keeps.ite | apply State.Keeps.mon | apply State.Keeps.smp | apply State.dclSource_keeps | apply State.mbump_keeps | apply State.monEv_keeps | apply State.pulseEv_keeps | apply State.putFlag_keeps | apply done_keeps) | split | (intro _))

theorem State.monSense_keeps {a s : State} (h : a.Keeps s) (k : Fin 2) (value : BitVec 16) (volts : Nat) :
    a.Keeps (State.monSense s k value volts) := by
  unfold State.monSense
  repeat' (first | (exact fun (_ : MonState) hx => hx) | with_reducible assumption | lift_lets -underBinder | (intro x; have hx : a.Keeps x := (by repeat' (first | (exact fun (_ : MonState) hx => hx) | with_reducible assumption | lift_lets -underBinder | (with_reducible first | apply State.Keeps.mon | apply State.mputFlag_keeps | apply State.mput_keeps) | (first | split | (dsimp only [x]; split)) | (intro _))); clear_value x) | (intro x; clear_value x) | (with_reducible first | apply State.Keeps.mon | apply State.mputFlag_keeps | apply State.mput_keeps) | split | (intro _))

theorem execSnsRestored_keeps {a s : State} (h : a.Keeps s) (w : Seer) (m : Fin 7) (value : BitVec 16) (volts : Nat) :
    OutKeeps a (execSnsRestored w m value volts s) := by
  unfold execSnsRestored
  repeat' (first | with_reducible assumption | lift_lets -underBinder | (intro x; have hx : a.Keeps x := (by repeat' (first | with_reducible assumption | lift_lets -underBinder | (with_reducible first | apply State.Keeps.ite | apply State.Keeps.smp | apply State.monSense_keeps | apply State.putFlag_keeps | apply State.put_keeps | apply done_keeps) | (first | split | (dsimp only [x]; split)) | (intro _))); clear_value x) | (intro x; clear_value x) | (with_reducible first | apply State.Keeps.ite | apply State.Keeps.smp | apply State.monSense_keeps | apply State.putFlag_keeps | apply State.put_keeps | apply done_keeps) | split | (intro _))

theorem execDclDisagree_keeps {a s : State} (h : a.Keeps s) (w : Seer) :
    OutKeeps a (execDclDisagree w s) := by
  unfold execDclDisagree
  repeat' (first | with_reducible assumption | lift_lets -underBinder | (intro x; have hx : a.Keeps x := (by repeat' (first | with_reducible assumption | lift_lets -underBinder | (with_reducible first | apply State.Keeps.ite | apply State.Keeps.both | apply State.dclSource_keeps | apply State.levelEv_keeps | apply State.monEv_keeps | apply State.putFlag_keeps | apply done_keeps) | (first | split | (dsimp only [x]; split)) | (intro _))); clear_value x) | (intro x; clear_value x) | (with_reducible first | apply State.Keeps.ite | apply State.Keeps.both | apply State.dclSource_keeps | apply State.levelEv_keeps | apply State.monEv_keeps | apply State.putFlag_keeps | apply done_keeps) | split | (intro _))

theorem State.calStart_keeps {a s : State} (h : a.Keeps s) (l : Lane) (mask : BitVec 24) :
    a.Keeps (State.calStart s l mask) := by
  unfold State.calStart
  repeat' (first | with_reducible assumption | lift_lets -underBinder | (intro x; have hx : a.Keeps x := (by repeat' (first | with_reducible assumption | lift_lets -underBinder | (with_reducible first | apply State.Keeps.ite | apply State.putFlag_keeps | apply State.put_keeps | apply State.reject_keeps | apply State.reply_keeps) | (first | split | (dsimp only [x]; split)) | (intro _))); clear_value x) | (intro x; clear_value x) | (with_reducible first | apply State.Keeps.ite | apply State.putFlag_keeps | apply State.put_keeps | apply State.reject_keeps | apply State.reply_keeps) | split | (intro _))

theorem execCalibrationStart_keeps {a s : State} (h : a.Keeps s) (l : Lane) (mask : BitVec 24) :
    OutKeeps a (execCalibrationStart l mask s) := by
  unfold execCalibrationStart
  repeat' (first | with_reducible assumption | (with_reducible first | apply State.calStart_keeps | apply State.writing_keeps | apply done_keeps) | (intro _))

theorem execCalDone_keeps {a s : State} (h : a.Keeps s) (l : Lane) (avg : Vector (BitVec 16) 24) :
    OutKeeps a (execCalDone l avg s) := by
  unfold execCalDone
  repeat' (first | with_reducible assumption | lift_lets -underBinder | (intro x; have hx : a.Keeps x := (by repeat' (first | with_reducible assumption | lift_lets -underBinder | (with_reducible first | apply State.Keeps.ite | apply State.Keeps.fold | apply State.pulseEv_keeps | apply State.putFlag_keeps | apply State.put_keeps | apply done_keeps) | (first | split | (dsimp only [x]; split)) | (intro _))); clear_value x) | (intro x; clear_value x) | (with_reducible first | apply State.Keeps.ite | apply State.Keeps.fold | apply State.pulseEv_keeps | apply State.putFlag_keeps | apply State.put_keeps | apply done_keeps) | split | (intro _))

theorem State.clrSmpCnt_keeps {a s : State} (h : a.Keeps s) (l : Lane) :
    a.Keeps (State.clrSmpCnt s l) := by
  unfold State.clrSmpCnt
  repeat' (first | with_reducible assumption | (with_reducible first | apply State.putWord_keeps | apply State.put_keeps) | (intro _))

theorem execSmpClrCnt_keeps {a s : State} (h : a.Keeps s) (l : Lane) :
    OutKeeps a (execSmpClrCnt l s) := by
  unfold execSmpClrCnt
  repeat' (first | with_reducible assumption | (with_reducible first | apply State.clrSmpCnt_keeps | apply State.reply_keeps | apply State.writing_keeps | apply done_keeps) | (intro _))

theorem State.clrSns_keeps {a s : State} (h : a.Keeps s) (l : Lane) (m : Nat) :
    a.Keeps (State.clrSns s l m) := by
  unfold State.clrSns
  repeat' (first | with_reducible assumption | lift_lets -underBinder | (intro x; have hx : a.Keeps x := (by repeat' (first | with_reducible assumption | lift_lets -underBinder | (with_reducible first | apply State.Keeps.ite | apply State.dclSource_keeps | apply State.putFlag_keeps) | (intro _))); clear_value x) | (intro x; clear_value x) | (with_reducible first | apply State.Keeps.ite | apply State.dclSource_keeps | apply State.putFlag_keeps) | (intro _))

theorem execSmpClrSns_keeps {a s : State} (h : a.Keeps s) (l : Lane) (m : Fin 7) :
    OutKeeps a (execSmpClrSns l m s) := by
  unfold execSmpClrSns
  repeat' (first | with_reducible assumption | (with_reducible first | apply State.clrSns_keeps | apply State.reply_keeps | apply State.writing_keeps | apply done_keeps) | (intro _))

theorem State.clrFlt_keeps {a s : State} (h : a.Keeps s) (l : Lane) (n : Fin 24) :
    a.Keeps (State.clrFlt s l n) := by
  unfold State.clrFlt
  repeat' (first | with_reducible assumption | (with_reducible first | apply State.Keeps.smp | apply State.putFlag_keeps) | (intro _))

theorem execSmpClrFlt_keeps {a s : State} (h : a.Keeps s) (l : Lane) (n : Fin 24) :
    OutKeeps a (execSmpClrFlt l n s) := by
  unfold execSmpClrFlt
  repeat' (first | with_reducible assumption | (with_reducible first | apply State.clrFlt_keeps | apply State.reply_keeps | apply State.writing_keeps | apply done_keeps) | (intro _))

end Sys2Proof.Machine
end

