-- ==== Sys2Proof/Laws/Keeps/Traction.lean ====
section
/-! SUPPORT. What the operations of Traction keep. -/
namespace Sys2Proof.Machine
set_option linter.all false
set_option Elab.async false

theorem State.smEnter_keeps {a s : State} (h : a.Keeps s) (l : Lane) (st : Nat) :
    a.Keeps (State.smEnter s l st) := by
  unfold State.smEnter
  repeat' (first | with_reducible assumption | lift_lets -underBinder | (intro x; have hx : a.Keeps x := (by repeat' (first | with_reducible assumption | lift_lets -underBinder | (with_reducible first | apply State.Keeps.ite | apply State.gatesOff_keeps | apply State.placeSet_keeps | apply State.smGoto_keeps | apply State.smLoops_keeps) | (intro _))); clear_value x) | (intro x; clear_value x) | (with_reducible first | apply State.Keeps.ite | apply State.gatesOff_keeps | apply State.placeSet_keeps | apply State.smGoto_keeps | apply State.smLoops_keeps) | (intro _))

theorem State.enterStart_keeps {a s : State} (h : a.Keeps s) (l : Lane) (blend : Bool) :
    a.Keeps (State.enterStart s l blend) := by
  unfold State.enterStart
  repeat' (first | with_reducible assumption | (with_reducible first | apply State.Keeps.trc | apply State.setRamp_keeps | apply State.smEnter_keeps) | (intro _))

theorem State.enterCatch_keeps {a s : State} (h : a.Keeps s) (l : Lane) :
    a.Keeps (State.enterCatch s l) := by
  unfold State.enterCatch
  repeat' (first | with_reducible assumption | (with_reducible first | apply State.Keeps.trc | apply State.smEnter_keeps) | (intro _))

theorem State.enterAcq_keeps {a s : State} (h : a.Keeps s) (l : Lane) :
    a.Keeps (State.enterAcq s l) := by
  unfold State.enterAcq
  repeat' (first | with_reducible assumption | (with_reducible first | apply State.smEnter_keeps) | (intro _))

theorem State.smCmd_keeps {a s : State} (h : a.Keeps s) (l : Lane) (c : Nat) :
    OptKeeps a (State.smCmd s l c) := by
  unfold State.smCmd
  repeat' (first | with_reducible assumption | lift_lets -underBinder | (intro x; have hx : a.Keeps x := (by repeat' (first | with_reducible assumption | lift_lets -underBinder | (with_reducible first | apply State.Keeps.ite | apply State.enterAcq_keeps | apply State.enterCatch_keeps | apply State.enterStart_keeps | apply State.putFlag_keeps | apply State.setRamp_keeps | apply State.smEnter_keeps | apply State.Keeps.optSome | apply State.Keeps.optNone) | (first | split | (dsimp only [x]; split)) | (intro _))); clear_value x) | (intro x; clear_value x) | (with_reducible first | apply State.Keeps.ite | apply State.enterAcq_keeps | apply State.enterCatch_keeps | apply State.enterStart_keeps | apply State.putFlag_keeps | apply State.setRamp_keeps | apply State.smEnter_keeps | apply State.Keeps.optSome | apply State.Keeps.optNone) | split | (intro _))

theorem State.smCmd_some {a s t : State} {l : Lane} {c : Nat}
    (e : State.smCmd s l c = some t) (h : a.Keeps s) : a.Keeps t := State.smCmd_keeps h _ _ t e

theorem State.smRejected_keeps {a s : State} (h : a.Keeps s) (l : Lane) (c : Nat) :
    a.Keeps (State.smRejected s l c) := by
  unfold State.smRejected
  repeat' (first | with_reducible assumption | (with_reducible first | apply State.Keeps.ite | apply State.pulseEv_keeps) | (intro _))

theorem State.smWrite_keeps {a s : State} (h : a.Keeps s) (l : Lane) (c : Nat) :
    a.Keeps (State.smWrite s l c) := by
  unfold State.smWrite
  repeat' (first | (exact State.smCmd_some (by assumption) (by with_reducible assumption)) | with_reducible assumption | lift_lets -underBinder | (intro x; have hx : a.Keeps x := (by repeat' (first | (exact State.smCmd_some (by assumption) (by with_reducible assumption)) | with_reducible assumption | lift_lets -underBinder | (with_reducible first | apply State.Keeps.ite | apply State.pulseEv_keeps | apply State.reject_keeps | apply State.reply_keeps | apply State.smCmd_keeps | apply State.smRejected_keeps) | (first | split | (dsimp only [x]; split)) | (intro _))); clear_value x) | (intro x; clear_value x) | (with_reducible first | apply State.Keeps.ite | apply State.pulseEv_keeps | apply State.reject_keeps | apply State.reply_keeps | apply State.smCmd_keeps | apply State.smRejected_keeps) | split | (intro _))

theorem execEnable_keeps {a s : State} (h : a.Keeps s) (l : Lane) :
    OutKeeps a (execEnable l s) := by
  unfold execEnable
  repeat' (first | with_reducible assumption | (with_reducible first | apply State.smWrite_keeps | apply State.writing_keeps | apply done_keeps) | (intro _))

theorem execStart_keeps {a s : State} (h : a.Keeps s) (l : Lane) :
    OutKeeps a (execStart l s) := by
  unfold execStart
  repeat' (first | with_reducible assumption | (with_reducible first | apply State.smWrite_keeps | apply State.writing_keeps | apply done_keeps) | (intro _))

theorem execStop_keeps {a s : State} (h : a.Keeps s) (l : Lane) :
    OutKeeps a (execStop l s) := by
  unfold execStop
  repeat' (first | with_reducible assumption | (with_reducible first | apply State.smWrite_keeps | apply State.writing_keeps | apply done_keeps) | (intro _))

theorem execBrake_keeps {a s : State} (h : a.Keeps s) (l : Lane) :
    OutKeeps a (execBrake l s) := by
  unfold execBrake
  repeat' (first | with_reducible assumption | (with_reducible first | apply State.smWrite_keeps | apply State.writing_keeps | apply done_keeps) | (intro _))

theorem execRelease_keeps {a s : State} (h : a.Keeps s) (l : Lane) :
    OutKeeps a (execRelease l s) := by
  unfold execRelease
  repeat' (first | with_reducible assumption | (with_reducible first | apply State.smWrite_keeps | apply State.writing_keeps | apply done_keeps) | (intro _))

theorem execDisable_keeps {a s : State} (h : a.Keeps s) (l : Lane) :
    OutKeeps a (execDisable l s) := by
  unfold execDisable
  repeat' (first | with_reducible assumption | (with_reducible first | apply State.smWrite_keeps | apply State.writing_keeps | apply done_keeps) | (intro _))

theorem execClear_keeps {a s : State} (h : a.Keeps s) (l : Lane) :
    OutKeeps a (execClear l s) := by
  unfold execClear
  repeat' (first | with_reducible assumption | (with_reducible first | apply State.smWrite_keeps | apply State.writing_keeps | apply done_keeps) | (intro _))

theorem execCatchTimeout_keeps {a s : State} (h : a.Keeps s) (l : Lane) :
    OutKeeps a (execCatchTimeout l s) := by
  unfold execCatchTimeout
  repeat' (first | with_reducible assumption | (with_reducible first | apply State.Keeps.ite | apply State.Keeps.trc | apply State.pulseEv_keeps | apply State.safeEntry_keeps | apply State.smEnter_keeps | apply done_keeps) | split | (intro _))

theorem State.estimator_keeps {a s : State} (h : a.Keeps s) (l : Lane) (ktype : Nat) (code : Nat) (ws : List Word) :
    a.Keeps (State.estimator s l ktype code ws) := by
  unfold State.estimator
  repeat' (first | (exact fun _ => ⟨rfl, rfl, rfl, rfl, rfl⟩) | (intro _ hm; dsimp only; first | exact mputs_wf _ _ _ hm | exact mput_wf _ _ _ hm | exact memWriteBytes_wf _ _ _ _ hm | exact (Memory.filter_wf _ _ _ hm).1) | (exact fun (_ : LaneState) hx => hx) | with_reducible assumption | lift_lets -underBinder | (intro x; have hx : a.Keeps x := (by repeat' (first | (exact fun _ => ⟨rfl, rfl, rfl, rfl, rfl⟩) | (intro _ hm; dsimp only; first | exact mputs_wf _ _ _ hm | exact mput_wf _ _ _ hm | exact memWriteBytes_wf _ _ _ _ hm | exact (Memory.filter_wf _ _ _ hm).1) | (exact fun (_ : LaneState) hx => hx) | with_reducible assumption | lift_lets -underBinder | (with_reducible first | apply State.Keeps.mem | apply State.Keeps.lane) | (first | split | (dsimp only [x]; split)) | (intro _))); clear_value x) | (intro x; clear_value x) | (with_reducible first | apply State.Keeps.mem | apply State.Keeps.lane) | split | (intro _))

theorem execPolDone_keeps {a s : State} (h : a.Keeps s) (l : Lane) (r : PolResult) :
    OutKeeps a (execPolDone l r s) := by
  unfold execPolDone
  repeat' (first | with_reducible assumption | lift_lets -underBinder | (intro x; have hx : a.Keeps x := (by repeat' (first | with_reducible assumption | lift_lets -underBinder | (with_reducible first | apply State.Keeps.ite | apply State.Keeps.trc | apply State.enterStart_keeps | apply State.estimator_keeps | apply State.pulseEv_keeps | apply State.safeEntry_keeps | apply done_keeps) | (first | split | (dsimp only [x]; split)) | (intro _))); clear_value x) | (intro x; clear_value x) | (with_reducible first | apply State.Keeps.ite | apply State.Keeps.trc | apply State.enterStart_keeps | apply State.estimator_keeps | apply State.pulseEv_keeps | apply State.safeEntry_keeps | apply done_keeps) | split | (intro _))

theorem State.catchRes_keeps {a s : State} (h : a.Keeps s) (l : Lane) (angle : BitVec 16) (speed : Word) :
    a.Keeps (State.catchRes s l angle speed) := by
  unfold State.catchRes
  repeat' (first | with_reducible assumption | lift_lets -underBinder | (intro x; have hx : a.Keeps x := (by repeat' (first | with_reducible assumption | lift_lets -underBinder | (with_reducible first | apply State.estimator_keeps | apply State.putWord_keeps | apply State.put_keeps) | (intro _))); clear_value x) | (intro x; clear_value x) | (with_reducible first | apply State.estimator_keeps | apply State.putWord_keeps | apply State.put_keeps) | (intro _))

theorem execAcqDone_keeps {a s : State} (h : a.Keeps s) (l : Lane) (angle : BitVec 16) (speed : Word) :
    OutKeeps a (execAcqDone l angle speed s) := by
  unfold execAcqDone
  repeat' (first | with_reducible assumption | lift_lets -underBinder | (intro x; have hx : a.Keeps x := (by repeat' (first | with_reducible assumption | lift_lets -underBinder | (with_reducible first | apply State.Keeps.ite | apply State.bump_keeps | apply State.catchRes_keeps | apply State.enterStart_keeps | apply State.pulseEv_keeps | apply done_keeps) | (first | split | (dsimp only [x]; split)) | (intro _))); clear_value x) | (intro x; clear_value x) | (with_reducible first | apply State.Keeps.ite | apply State.bump_keeps | apply State.catchRes_keeps | apply State.enterStart_keeps | apply State.pulseEv_keeps | apply done_keeps) | split | (intro _))

theorem execAcqFail_keeps {a s : State} (h : a.Keeps s) (l : Lane) :
    OutKeeps a (execAcqFail l s) := by
  unfold execAcqFail
  repeat' (first | with_reducible assumption | (with_reducible first | apply State.Keeps.ite | apply State.bump_keeps | apply State.pulseEv_keeps | apply State.safeEntry_keeps | apply done_keeps) | split | (intro _))

theorem execStartToRun_keeps {a s : State} (h : a.Keeps s) (l : Lane) :
    OutKeeps a (execStartToRun l s) := by
  unfold execStartToRun
  repeat' (first | with_reducible assumption | (with_reducible first | apply State.Keeps.ite | apply State.setRamp_keeps | apply State.smEnter_keeps | apply done_keeps) | split | (intro _))

theorem execStoppingDone_keeps {a s : State} (h : a.Keeps s) (l : Lane) :
    OutKeeps a (execStoppingDone l s) := by
  unfold execStoppingDone
  repeat' (first | with_reducible assumption | lift_lets -underBinder | (intro x; have hx : a.Keeps x := (by repeat' (first | with_reducible assumption | lift_lets -underBinder | (with_reducible first | apply State.Keeps.ite | apply State.Keeps.saf | apply State.Keeps.trc | apply State.smEnter_keeps | apply done_keeps) | (first | split | (dsimp only [x]; split)) | (intro _))); clear_value x) | (intro x; clear_value x) | (with_reducible first | apply State.Keeps.ite | apply State.Keeps.saf | apply State.Keeps.trc | apply State.smEnter_keeps | apply done_keeps) | split | (intro _))

theorem State.angleLost_keeps {a s : State} (h : a.Keeps s) (l : Lane) :
    a.Keeps (State.angleLost s l) := by
  unfold State.angleLost
  repeat' (first | with_reducible assumption | lift_lets -underBinder | (intro x; have hx : a.Keeps x := (by repeat' (first | with_reducible assumption | lift_lets -underBinder | (with_reducible first | apply State.Keeps.ite | apply State.bump_keeps | apply State.enterAcq_keeps | apply State.enterCatch_keeps | apply State.pulseEv_keeps | apply State.safeEntry_keeps | apply State.setRamp_keeps) | (intro _))); clear_value x) | (intro x; clear_value x) | (with_reducible first | apply State.Keeps.ite | apply State.bump_keeps | apply State.enterAcq_keeps | apply State.enterCatch_keeps | apply State.pulseEv_keeps | apply State.safeEntry_keeps | apply State.setRamp_keeps) | (intro _))

theorem execObsLost_keeps {a s : State} (h : a.Keeps s) (l : Lane) :
    OutKeeps a (execObsLost l s) := by
  unfold execObsLost
  repeat' (first | with_reducible assumption | lift_lets -underBinder | (intro x; have hx : a.Keeps x := (by repeat' (first | with_reducible assumption | lift_lets -underBinder | (with_reducible first | apply State.Keeps.ite | apply State.Keeps.trc | apply State.angleLost_keeps | apply State.levelEv_keeps | apply State.putFlag_keeps | apply State.put_keeps | apply done_keeps) | (first | split | (dsimp only [x]; split)) | (intro _))); clear_value x) | (intro x; clear_value x) | (with_reducible first | apply State.Keeps.ite | apply State.Keeps.trc | apply State.angleLost_keeps | apply State.levelEv_keeps | apply State.putFlag_keeps | apply State.put_keeps | apply done_keeps) | split | (intro _))

theorem execStall_keeps {a s : State} (h : a.Keeps s) (l : Lane) :
    OutKeeps a (execStall l s) := by
  unfold execStall
  repeat' (first | with_reducible assumption | (with_reducible first | apply State.Keeps.ite | apply State.levelEv_keeps | apply State.putFlag_keeps | apply done_keeps) | split | (intro _))

theorem execStallRecover_keeps {a s : State} (h : a.Keeps s) (l : Lane) :
    OutKeeps a (execStallRecover l s) := by
  unfold execStallRecover
  repeat' (first | with_reducible assumption | (with_reducible first | apply State.Keeps.ite | apply State.levelEv_keeps | apply State.putFlag_keeps | apply done_keeps) | split | (intro _))

theorem State.lineMode_keeps {a s : State} (h : a.Keeps s) (l : Lane) :
    a.Keeps (State.lineMode s l) := by
  unfold State.lineMode
  repeat' (first | (exact fun (_ : MonState) hx => hx) | with_reducible assumption | lift_lets -underBinder | (intro x; have hx : a.Keeps x := (by repeat' (first | (exact fun (_ : MonState) hx => hx) | with_reducible assumption | lift_lets -underBinder | (with_reducible first | apply State.Keeps.ite | apply State.Keeps.fold | apply State.Keeps.hv | apply State.Keeps.mon | apply State.placeSet_keeps) | (intro _))); clear_value x) | (intro x; clear_value x) | (with_reducible first | apply State.Keeps.ite | apply State.Keeps.fold | apply State.Keeps.hv | apply State.Keeps.mon | apply State.placeSet_keeps) | (intro _))

theorem State.showSel_keeps {a s : State} (h : a.Keeps s) :
    a.Keeps (State.showSel s) := by
  unfold State.showSel
  repeat' (first | with_reducible assumption | (with_reducible first | apply State.Keeps.ite | apply State.Keeps.both | apply State.putFlag_keeps) | split | (intro _))

theorem State.select_keeps {a s : State} (h : a.Keeps s) :
    a.Keeps (State.select s) := by
  unfold State.select
  repeat' (first | (exact fun (_ : MonState) hx => hx) | with_reducible assumption | lift_lets -underBinder | (intro x; have hx : a.Keeps x := (by repeat' (first | (exact fun (_ : MonState) hx => hx) | with_reducible assumption | lift_lets -underBinder | (with_reducible first | apply State.Keeps.ite | apply State.Keeps.mon | apply State.lineMode_keeps | apply State.monEv_keeps | apply State.monLevel_keeps | apply State.mputFlag_keeps | apply State.mput_keeps | apply State.showSel_keeps) | (first | split | (dsimp only [x]; split)) | (intro _))); clear_value x) | (intro x; clear_value x) | (with_reducible first | apply State.Keeps.ite | apply State.Keeps.mon | apply State.lineMode_keeps | apply State.monEv_keeps | apply State.monLevel_keeps | apply State.mputFlag_keeps | apply State.mput_keeps | apply State.showSel_keeps) | split | (intro _))

theorem execSafeStateSelection_keeps {a s : State} (h : a.Keeps s) (v0 : BitVec 16) (v1 : BitVec 16) (u0 : Nat) (u1 : Nat) :
    OutKeeps a (execSafeStateSelection v0 v1 u0 u1 s) := by
  unfold execSafeStateSelection
  repeat' (first | with_reducible assumption | lift_lets -underBinder | (intro x; have hx : a.Keeps x := (by repeat' (first | with_reducible assumption | lift_lets -underBinder | (with_reducible first | apply State.Keeps.ite | apply State.monSense_keeps | apply State.select_keeps | apply done_keeps) | (first | split | (dsimp only [x]; split)) | (intro _))); clear_value x) | (intro x; clear_value x) | (with_reducible first | apply State.Keeps.ite | apply State.monSense_keeps | apply State.select_keeps | apply done_keeps) | split | (intro _))

theorem execScSpeedTimeout_keeps {a s : State} (h : a.Keeps s) :
    OutKeeps a (execScSpeedTimeout s) := by
  unfold execScSpeedTimeout
  repeat' (first | (exact fun (_ : MonState) hx => hx) | with_reducible assumption | (with_reducible first | apply State.Keeps.mon | apply State.select_keeps | apply done_keeps) | (intro _))

theorem execULost_keeps {a s : State} (h : a.Keeps s) :
    OutKeeps a (execULost s) := by
  unfold execULost
  repeat' (first | with_reducible assumption | (with_reducible first | apply State.Keeps.ite | apply State.mputFlag_keeps | apply State.select_keeps | apply done_keeps) | split | (intro _))

theorem execMonTachPulse_keeps {a s : State} (h : a.Keeps s) :
    OutKeeps a (execMonTachPulse s) := by
  unfold execMonTachPulse
  repeat' (first | (exact fun (_ : MonState) hx => hx) | with_reducible assumption | lift_lets -underBinder | (intro x; have hx : a.Keeps x := (by repeat' (first | (exact fun (_ : MonState) hx => hx) | with_reducible assumption | lift_lets -underBinder | (with_reducible first | apply State.Keeps.ite | apply State.Keeps.mon | apply State.select_keeps | apply done_keeps) | (first | split | (dsimp only [x]; split)) | (intro _))); clear_value x) | (intro x; clear_value x) | (with_reducible first | apply State.Keeps.ite | apply State.Keeps.mon | apply State.select_keeps | apply done_keeps) | split | (intro _))

end Sys2Proof.Machine
end

