-- ==== Sys2Proof/Laws/Keeps/Dcl.lean ====
section
/-! SUPPORT. What the operations of Dcl keep. -/
namespace Sys2Proof.Machine
set_option linter.all false
set_option Elab.async false

theorem State.presetBoost_keeps {a s : State} (h : a.Keeps s) (l : Lane) (m : Nat) : a.Keeps (State.presetBoost s l m) := by
  unfold State.presetBoost
  dsimp only
  split
  · refine State.Keeps.ite (fun _ => h) (fun _ => h.mem l _ (fun _ hm => ?_) (fun _ => ⟨rfl, rfl, rfl, rfl, rfl⟩))
    exact mputs_wf _ _ _ (mput_wf _ _ _ hm)
  · exact h

theorem State.showPhases_keeps {a s : State} (h : a.Keeps s) (l : Lane) :
    a.Keeps (State.showPhases s l) := by
  unfold State.showPhases
  repeat' (first | with_reducible assumption | lift_lets -underBinder | (intro x; have hx : a.Keeps x := (by repeat' (first | with_reducible assumption | lift_lets -underBinder | (with_reducible first | apply State.Keeps.ite | apply State.Keeps.fold | apply State.gatesOff_keeps | apply State.presetBoost_keeps | apply State.setPhaseActive_keeps) | (intro _))); clear_value x) | (intro x; clear_value x) | (with_reducible first | apply State.Keeps.ite | apply State.Keeps.fold | apply State.gatesOff_keeps | apply State.presetBoost_keeps | apply State.setPhaseActive_keeps) | (intro _))

theorem State.dclStart_keeps {a s : State} (h : a.Keeps s) (l : Lane) :
    a.Keeps (State.dclStart s l) := by
  unfold State.dclStart
  repeat' (first | with_reducible assumption | lift_lets -underBinder | (intro x; have hx : a.Keeps x := (by repeat' (first | with_reducible assumption | lift_lets -underBinder | (with_reducible first | apply State.Keeps.ite | apply State.Keeps.dcl | apply State.loopAsk_keeps | apply State.putWord_keeps | apply State.put_keeps) | (first | split | (dsimp only [x]; split)) | (intro _))); clear_value x) | (intro x; clear_value x) | (with_reducible first | apply State.Keeps.ite | apply State.Keeps.dcl | apply State.loopAsk_keeps | apply State.putWord_keeps | apply State.put_keeps) | split | (intro _))

theorem State.dclEnd_keeps {a s : State} (h : a.Keeps s) (l : Lane) :
    a.Keeps (State.dclEnd s l) := by
  unfold State.dclEnd
  repeat' (first | with_reducible assumption | lift_lets -underBinder | (intro x; have hx : a.Keeps x := (by repeat' (first | with_reducible assumption | lift_lets -underBinder | (with_reducible first | apply State.Keeps.ite | apply State.Keeps.dcl | apply State.loopOpen_keeps | apply State.put_keeps) | (first | split | (dsimp only [x]; split)) | (intro _))); clear_value x) | (intro x; clear_value x) | (with_reducible first | apply State.Keeps.ite | apply State.Keeps.dcl | apply State.loopOpen_keeps | apply State.put_keeps) | split | (intro _))

theorem execDclStopDone_keeps {a s : State} (h : a.Keeps s) (l : Lane) :
    OutKeeps a (execDclStopDone l s) := by
  unfold execDclStopDone
  repeat' (first | with_reducible assumption | lift_lets -underBinder | (intro x; have hx : a.Keeps x := (by repeat' (first | with_reducible assumption | lift_lets -underBinder | (with_reducible first | apply State.Keeps.ite | apply State.levelEv_keeps | apply State.loopOpen_keeps | apply State.putFlag_keeps | apply State.put_keeps | apply State.showPhases_keeps | apply done_keeps) | (first | split | (dsimp only [x]; split)) | (intro _))); clear_value x) | (intro x; clear_value x) | (with_reducible first | apply State.Keeps.ite | apply State.levelEv_keeps | apply State.loopOpen_keeps | apply State.putFlag_keeps | apply State.put_keeps | apply State.showPhases_keeps | apply done_keeps) | split | (intro _))

theorem State.phaseClear_keeps {a s : State} (h : a.Keeps s) (l : Lane) (m : Nat) :
    a.Keeps (State.phaseClear s l m) := by
  unfold State.phaseClear
  repeat' (first | with_reducible assumption | lift_lets -underBinder | (intro x; have hx : a.Keeps x := (by repeat' (first | with_reducible assumption | lift_lets -underBinder | (with_reducible first | apply State.Keeps.ite | apply State.Keeps.smp | apply State.levelEv_keeps | apply State.putFlag_keeps) | (first | split | (dsimp only [x]; split)) | (intro _))); clear_value x) | (intro x; clear_value x) | (with_reducible first | apply State.Keeps.ite | apply State.Keeps.smp | apply State.levelEv_keeps | apply State.putFlag_keeps) | split | (intro _))

theorem State.dclTarget_keeps {a s : State} (h : a.Keeps s) (l : Lane) : a.Keeps (s.dclTarget l).1 := by
  unfold State.dclTarget
  dsimp only
  repeat' (first | with_reducible assumption | (with_reducible first | apply State.Keeps.dcl | apply State.levelEv_keeps | apply State.putFlag_keeps | apply State.pulseEv_keeps | apply State.Keeps.ite) | split | (intro _))

theorem State.dclMedium_keeps {a s : State} (h : a.Keeps s) (l : Lane) :
    a.Keeps (State.dclMedium s l) := by
  unfold State.dclMedium
  repeat' (first | with_reducible assumption | lift_lets -underBinder | (intro x; have hx : a.Keeps x := (by repeat' (first | with_reducible assumption | lift_lets -underBinder | (with_reducible first | apply State.Keeps.ite | apply State.dclTarget_keeps | apply State.putWord_keeps) | (intro _))); clear_value x) | (intro x; clear_value x) | (with_reducible first | apply State.Keeps.ite | apply State.dclTarget_keeps | apply State.putWord_keeps) | (intro _))

theorem State.dclSlow_keeps {a s : State} (h : a.Keeps s) (l : Lane) :
    a.Keeps (State.dclSlow s l) := by
  unfold State.dclSlow
  repeat' (first | with_reducible assumption | lift_lets -underBinder | (intro x; have hx : a.Keeps x := (by repeat' (first | with_reducible assumption | lift_lets -underBinder | (with_reducible first | apply State.Keeps.ite | apply State.Keeps.dcl | apply State.Keeps.fold | apply State.Keeps.smp | apply State.levelEv_keeps | apply State.putFlag_keeps) | (first | split | (dsimp only [x]; split)) | (intro _))); clear_value x) | (intro x; clear_value x) | (with_reducible first | apply State.Keeps.ite | apply State.Keeps.dcl | apply State.Keeps.fold | apply State.Keeps.smp | apply State.levelEv_keeps | apply State.putFlag_keeps) | split | (intro _))

theorem State.restorePhases_keeps {a s : State} (h : a.Keeps s) (l : Lane) :
    a.Keeps (State.restorePhases s l) := by
  unfold State.restorePhases
  repeat' (first | with_reducible assumption | lift_lets -underBinder | (intro x; have hx : a.Keeps x := (by repeat' (first | with_reducible assumption | lift_lets -underBinder | (with_reducible first | apply State.Keeps.dcl | apply State.putFlag_keeps | apply State.showPhases_keeps) | (intro _))); clear_value x) | (intro x; clear_value x) | (with_reducible first | apply State.Keeps.dcl | apply State.putFlag_keeps | apply State.showPhases_keeps) | (intro _))

theorem execShed_keeps {a s : State} (h : a.Keeps s) :
    OutKeeps a (execShed s) := by
  unfold execShed
  repeat' (first | with_reducible assumption | (with_reducible first | apply State.Keeps.ite | apply State.Keeps.both | apply State.Keeps.dcl | apply State.putFlag_keeps | apply done_keeps | apply State.Keeps.outNext) | split | (intro _))

theorem execShedRampDone_keeps {a s : State} (h : a.Keeps s) :
    OutKeeps a (execShedRampDone s) := by
  unfold execShedRampDone
  repeat' (first | with_reducible assumption | lift_lets -underBinder | (intro x; have hx : a.Keeps x := (by repeat' (first | with_reducible assumption | lift_lets -underBinder | (with_reducible first | apply State.Keeps.ite | apply State.Keeps.both | apply State.Keeps.dcl | apply State.bump_keeps | apply State.pulseEv_keeps | apply State.putFlag_keeps | apply State.showPhases_keeps | apply done_keeps) | (first | split | (dsimp only [x]; split)) | (intro _))); clear_value x) | (intro x; clear_value x) | (with_reducible first | apply State.Keeps.ite | apply State.Keeps.both | apply State.Keeps.dcl | apply State.bump_keeps | apply State.pulseEv_keeps | apply State.putFlag_keeps | apply State.showPhases_keeps | apply done_keeps) | split | (intro _))

theorem execShedAbortNotice_keeps {a s : State} (h : a.Keeps s) (l : Lane) :
    OutKeeps a (execShedAbortNotice l s) := by
  unfold execShedAbortNotice
  repeat' (first | with_reducible assumption | (with_reducible first | apply State.Keeps.ite | apply State.restorePhases_keeps | apply done_keeps) | split | (intro _))

theorem execOvTimeout_keeps {a s : State} (h : a.Keeps s) (l : Lane) :
    OutKeeps a (execOvTimeout l s) := by
  unfold execOvTimeout
  repeat' (first | with_reducible assumption | (with_reducible first | apply State.Keeps.ite | apply State.dclFault_keeps | apply done_keeps) | split | (intro _))

theorem State.dclSurvive_keeps {a s : State} (h : a.Keeps s) (l : Lane) :
    a.Keeps (State.dclSurvive s l) := by
  unfold State.dclSurvive
  repeat' (first | (exact fun _ => ⟨rfl, rfl, rfl, rfl, rfl⟩) | (intro _ hm; dsimp only; first | exact mputs_wf _ _ _ hm | exact mput_wf _ _ _ hm | exact memWriteBytes_wf _ _ _ _ hm | exact (Memory.filter_wf _ _ _ hm).1) | (exact fun (_ : LaneState) hx => hx) | with_reducible assumption | lift_lets -underBinder | (intro x; have hx : a.Keeps x := (by repeat' (first | (exact fun _ => ⟨rfl, rfl, rfl, rfl, rfl⟩) | (intro _ hm; dsimp only; first | exact mputs_wf _ _ _ hm | exact mput_wf _ _ _ hm | exact memWriteBytes_wf _ _ _ _ hm | exact (Memory.filter_wf _ _ _ hm).1) | (exact fun (_ : LaneState) hx => hx) | with_reducible assumption | lift_lets -underBinder | (with_reducible first | apply State.Keeps.mem | apply State.Keeps.ite | apply State.Keeps.both | apply State.Keeps.dcl | apply State.Keeps.lane | apply State.mput_keeps | apply State.restorePhases_keeps) | (first | split | (dsimp only [x]; split)) | (intro _))); clear_value x) | (intro x; clear_value x) | (with_reducible first | apply State.Keeps.mem | apply State.Keeps.ite | apply State.Keeps.both | apply State.Keeps.dcl | apply State.Keeps.lane | apply State.mput_keeps | apply State.restorePhases_keeps) | split | (intro _))

theorem State.dclOv_keeps {a s : State} (h : a.Keeps s) (l : Lane) :
    a.Keeps (State.dclOv s l) := by
  unfold State.dclOv
  repeat' (first | with_reducible assumption | lift_lets -underBinder | (intro x; have hx : a.Keeps x := (by repeat' (first | with_reducible assumption | lift_lets -underBinder | (with_reducible first | apply State.Keeps.ite | apply State.levelEv_keeps | apply State.putFlag_keeps) | (first | split | (dsimp only [x]; split)) | (intro _))); clear_value x) | (intro x; clear_value x) | (with_reducible first | apply State.Keeps.ite | apply State.levelEv_keeps | apply State.putFlag_keeps) | split | (intro _))

theorem State.dclBegin_keeps {a s : State} (h : a.Keeps s) (l : Lane) :
    a.Keeps (State.dclBegin s l) := by
  unfold State.dclBegin
  repeat' (first | with_reducible assumption | (with_reducible first | apply State.Keeps.ite | apply State.put_keeps) | (intro _))

theorem State.dclShow_keeps {a s : State} (h : a.Keeps s) (l : Lane) :
    a.Keeps (State.dclShow s l) := by
  unfold State.dclShow
  repeat' (first | with_reducible assumption | lift_lets -underBinder | (intro x; have hx : a.Keeps x := (by repeat' (first | with_reducible assumption | lift_lets -underBinder | (with_reducible first | apply State.Keeps.fold | apply State.putFlag_keeps | apply State.putWord_keeps | apply State.setPhaseActive_keeps) | (first | split | (dsimp only [x]; split)) | (intro _))); clear_value x) | (intro x; clear_value x) | (with_reducible first | apply State.Keeps.fold | apply State.putFlag_keeps | apply State.putWord_keeps | apply State.setPhaseActive_keeps) | split | (intro _))

theorem State.dclFast_keeps {a s : State} (h : a.Keeps s) (l : Lane) :
    a.Keeps (State.dclFast s l) := by
  unfold State.dclFast
  repeat' (first | with_reducible assumption | lift_lets -underBinder | (intro x; have hx : a.Keeps x := (by repeat' (first | with_reducible assumption | lift_lets -underBinder | (with_reducible first | apply State.Keeps.ite | apply State.Keeps.both | apply State.Keeps.dcl | apply State.bump_keeps | apply State.dclBegin_keeps | apply State.dclOv_keeps | apply State.dclShow_keeps | apply State.dclSource_keeps | apply State.dclStop_keeps | apply State.dclSurvive_keeps | apply State.pulseEv_keeps | apply State.restorePhases_keeps | apply State.showPhases_keeps) | (first | split | (dsimp only [x]; split)) | (intro _))); clear_value x) | (intro x; clear_value x) | (with_reducible first | apply State.Keeps.ite | apply State.Keeps.both | apply State.Keeps.dcl | apply State.bump_keeps | apply State.dclBegin_keeps | apply State.dclOv_keeps | apply State.dclShow_keeps | apply State.dclSource_keeps | apply State.dclStop_keeps | apply State.dclSurvive_keeps | apply State.pulseEv_keeps | apply State.restorePhases_keeps | apply State.showPhases_keeps) | split | (intro _))

theorem State.setPgDcl_keeps {a s : State} (h : a.Keeps s) (on : Bool) :
    a.Keeps (State.setPgDcl s on) := by
  unfold State.setPgDcl
  repeat' (first | with_reducible assumption | (with_reducible first | apply State.Keeps.ite | apply State.Keeps.aon | apply State.monEv_keeps | apply State.mputFlag_keeps) | (intro _))

theorem execPgDclRelease_keeps {a s : State} (h : a.Keeps s) :
    OutKeeps a (execPgDclRelease s) := by
  unfold execPgDclRelease
  repeat' (first | with_reducible assumption | (with_reducible first | apply State.Keeps.ite | apply State.setPgDcl_keeps | apply done_keeps) | split | (intro _))

end Sys2Proof.Machine
end

