-- ==== Sys2Proof/Laws/Keeps/Charger.lean ====
section
/-! SUPPORT. What the operations of Charger keep. -/
namespace Sys2Proof.Machine
set_option linter.all false
set_option Elab.async false

theorem State.interlock_keeps {a s : State} (h : a.Keeps s) :
    a.Keeps (State.interlock s) := by
  unfold State.interlock
  repeat' (first | (exact fun (_ : MonState) hx => hx) | with_reducible assumption | lift_lets -underBinder | (intro x; have hx : a.Keeps x := (by repeat' (first | (exact fun (_ : MonState) hx => hx) | with_reducible assumption | lift_lets -underBinder | (with_reducible first | apply State.Keeps.ite | apply State.Keeps.mon | apply State.holdSet_keeps | apply State.monEv_keeps | apply State.placeSet_keeps | apply State.publish_keeps) | (first | split | (dsimp only [x]; split)) | (intro _))); clear_value x) | (intro x; clear_value x) | (with_reducible first | apply State.Keeps.ite | apply State.Keeps.mon | apply State.holdSet_keeps | apply State.monEv_keeps | apply State.placeSet_keeps | apply State.publish_keeps) | split | (intro _))

theorem State.connUpdate_keeps {a s : State} (h : a.Keeps s) (l : Lane) :
    a.Keeps (State.connUpdate s l) := by
  unfold State.connUpdate
  repeat' (first | with_reducible assumption | lift_lets -underBinder | (intro x; have hx : a.Keeps x := (by repeat' (first | with_reducible assumption | lift_lets -underBinder | (with_reducible first | apply State.Keeps.ite | apply State.Keeps.saf | apply State.interlock_keeps | apply State.pulseEv_keeps | apply State.putFlag_keeps | apply State.setFault_keeps) | (intro _))); clear_value x) | (intro x; clear_value x) | (with_reducible first | apply State.Keeps.ite | apply State.Keeps.saf | apply State.interlock_keeps | apply State.pulseEv_keeps | apply State.putFlag_keeps | apply State.setFault_keeps) | (intro _))

theorem State.pilotEv_keeps {a s : State} (h : a.Keeps s) (l : Lane) :
    a.Keeps (State.pilotEv s l) := by
  unfold State.pilotEv
  repeat' (first | with_reducible assumption | (with_reducible first | apply State.levelEv_keeps) | split | (intro _))

theorem State.asHolder_keeps {a s : State} (h : a.Keeps s) (l : Lane) (f : State → State) (hf : ∀ s, a.Keeps s → a.Keeps (f s)) :
    a.Keeps (State.asHolder s l f) := by
  unfold State.asHolder
  repeat' (first | with_reducible assumption | (with_reducible first | apply State.Keeps.ite | apply hf) | (intro _))

theorem execCpStateChange_keeps {a s : State} (h : a.Keeps s) (l : Lane) (c : CpLevel) :
    OutKeeps a (execCpStateChange l c s) := by
  unfold execCpStateChange
  repeat' (first | with_reducible assumption | lift_lets -underBinder | (intro x; have hx : a.Keeps x := (by repeat' (first | with_reducible assumption | lift_lets -underBinder | (with_reducible first | apply State.Keeps.ite | apply State.Keeps.chg | apply State.asHolder_keeps | apply State.chgFault_keeps | apply State.chgRampdown_keeps | apply State.connUpdate_keeps | apply State.pilotEv_keeps | apply State.pulseEv_keeps | apply State.put_keeps | apply done_keeps) | (first | split | (dsimp only [x]; split)) | (intro _))); clear_value x) | (intro x; clear_value x) | (with_reducible first | apply State.Keeps.ite | apply State.Keeps.chg | apply State.asHolder_keeps | apply State.chgFault_keeps | apply State.chgRampdown_keeps | apply State.connUpdate_keeps | apply State.pilotEv_keeps | apply State.pulseEv_keeps | apply State.put_keeps | apply done_keeps) | split | (intro _))

theorem execCpPwmPeriod_keeps {a s : State} (h : a.Keeps s) (l : Lane) (duty : Nat) :
    OutKeeps a (execCpPwmPeriod l duty s) := by
  unfold execCpPwmPeriod
  repeat' (first | with_reducible assumption | lift_lets -underBinder | (intro x; have hx : a.Keeps x := (by repeat' (first | with_reducible assumption | lift_lets -underBinder | (with_reducible first | apply State.Keeps.ite | apply State.Keeps.chg | apply State.Keeps.fold | apply State.asHolder_keeps | apply State.chgRampdown_keeps | apply State.putFlag_keeps | apply State.put_keeps | apply done_keeps) | (first | split | (dsimp only [x]; split)) | (intro _))); clear_value x) | (intro x; clear_value x) | (with_reducible first | apply State.Keeps.ite | apply State.Keeps.chg | apply State.Keeps.fold | apply State.asHolder_keeps | apply State.chgRampdown_keeps | apply State.putFlag_keeps | apply State.put_keeps | apply done_keeps) | split | (intro _))

theorem execPpClassify_keeps {a s : State} (h : a.Keeps s) (l : Lane) (r : Nat) :
    OutKeeps a (execPpClassify l r s) := by
  unfold execPpClassify
  repeat' (first | with_reducible assumption | lift_lets -underBinder | (intro x; have hx : a.Keeps x := (by repeat' (first | with_reducible assumption | lift_lets -underBinder | (with_reducible first | apply State.Keeps.ite | apply State.asHolder_keeps | apply State.chgRampdown_keeps | apply State.connUpdate_keeps | apply State.pilotEv_keeps | apply State.put_keeps | apply done_keeps) | (first | split | (dsimp only [x]; split)) | (intro _))); clear_value x) | (intro x; clear_value x) | (with_reducible first | apply State.Keeps.ite | apply State.asHolder_keeps | apply State.chgRampdown_keeps | apply State.connUpdate_keeps | apply State.pilotEv_keeps | apply State.put_keeps | apply done_keeps) | split | (intro _))

theorem execInterlockRelease_keeps {a s : State} (h : a.Keeps s) :
    OutKeeps a (execInterlockRelease s) := by
  unfold execInterlockRelease
  repeat' (first | (exact fun (_ : MonState) hx => hx) | with_reducible assumption | lift_lets -underBinder | (intro x; have hx : a.Keeps x := (by repeat' (first | (exact fun (_ : MonState) hx => hx) | with_reducible assumption | lift_lets -underBinder | (with_reducible first | apply State.Keeps.ite | apply State.Keeps.mon | apply State.placeSet_keeps | apply State.publish_keeps | apply done_keeps) | (first | split | (dsimp only [x]; split)) | (intro _))); clear_value x) | (intro x; clear_value x) | (with_reducible first | apply State.Keeps.ite | apply State.Keeps.mon | apply State.placeSet_keeps | apply State.publish_keeps | apply done_keeps) | split | (intro _))

theorem execInterlockDisagree_keeps {a s : State} (h : a.Keeps s) :
    OutKeeps a (execInterlockDisagree s) := by
  unfold execInterlockDisagree
  repeat' (first | with_reducible assumption | (with_reducible first | apply State.Keeps.ite | apply State.Keeps.both | apply State.pulseEv_keeps | apply done_keeps) | split | (intro _))

theorem State.chgReady_keeps {a s : State} (h : a.Keeps s) (l : Lane) :
    a.Keeps (State.chgReady s l) := by
  unfold State.chgReady
  repeat' (first | with_reducible assumption | (with_reducible first | apply State.Keeps.chg | apply State.driveS2_keeps | apply State.put_keeps) | (intro _))

theorem State.chgPreload_keeps {a s : State} (h : a.Keeps s) (l : Lane) :
    a.Keeps (State.chgPreload s l) := by
  unfold State.chgPreload
  repeat' (first | with_reducible assumption | lift_lets -underBinder | (intro x; have hx : a.Keeps x := (by repeat' (first | with_reducible assumption | lift_lets -underBinder | (with_reducible first | apply State.Keeps.chg | apply State.loopAsk_keeps | apply State.put_keeps) | (intro _))); clear_value x) | (intro x; clear_value x) | (with_reducible first | apply State.Keeps.chg | apply State.loopAsk_keeps | apply State.put_keeps) | (intro _))

theorem execMainsPresent_keeps {a s : State} (h : a.Keeps s) (l : Lane) :
    OutKeeps a (execMainsPresent l s) := by
  unfold execMainsPresent
  repeat' (first | with_reducible assumption | (with_reducible first | apply State.Keeps.ite | apply State.chgPreload_keeps | apply done_keeps) | split | (intro _))

theorem execPreloadDone_keeps {a s : State} (h : a.Keeps s) (l : Lane) :
    OutKeeps a (execPreloadDone l s) := by
  unfold execPreloadDone
  repeat' (first | with_reducible assumption | lift_lets -underBinder | (intro x; have hx : a.Keeps x := (by repeat' (first | with_reducible assumption | lift_lets -underBinder | (with_reducible first | apply State.Keeps.ite | apply State.askK_keeps | apply State.put_keeps | apply done_keeps) | (first | split | (dsimp only [x]; split)) | (intro _))); clear_value x) | (intro x; clear_value x) | (with_reducible first | apply State.Keeps.ite | apply State.askK_keeps | apply State.put_keeps | apply done_keeps) | split | (intro _))

theorem State.dabPreset_keeps {a s : State} (h : a.Keeps s) (l : Lane) : a.Keeps (State.dabPreset s l) := by
  unfold State.dabPreset
  dsimp only
  split
  · exact h.mem l _ (fun _ hm => mput_wf _ _ _ hm) (fun _ => ⟨rfl, rfl, rfl, rfl, rfl⟩)
  · exact h

theorem State.chgCascade_keeps {a s : State} (h : a.Keeps s) (l : Lane) :
    a.Keeps (State.chgCascade s l) := by
  unfold State.chgCascade
  repeat' (first | with_reducible assumption | lift_lets -underBinder | (intro x; have hx : a.Keeps x := (by repeat' (first | with_reducible assumption | lift_lets -underBinder | (with_reducible first | apply State.Keeps.chg | apply State.bump_keeps | apply State.dabPreset_keeps | apply State.setReg_keeps) | (intro _))); clear_value x) | (intro x; clear_value x) | (with_reducible first | apply State.Keeps.chg | apply State.bump_keeps | apply State.dabPreset_keeps | apply State.setReg_keeps) | (intro _))

theorem State.chgClosed_keeps {a s : State} (h : a.Keeps s) (l : Lane) :
    a.Keeps (State.chgClosed s l) := by
  unfold State.chgClosed
  repeat' (first | with_reducible assumption | lift_lets -underBinder | (intro x; have hx : a.Keeps x := (by repeat' (first | with_reducible assumption | lift_lets -underBinder | (with_reducible first | apply State.Keeps.ite | apply State.chgCascade_keeps | apply State.loopAsk_keeps | apply State.put_keeps) | (intro _))); clear_value x) | (intro x; clear_value x) | (with_reducible first | apply State.Keeps.ite | apply State.chgCascade_keeps | apply State.loopAsk_keeps | apply State.put_keeps) | (intro _))

theorem State.chgLeave_keeps {a s : State} (h : a.Keeps s) (l : Lane) :
    a.Keeps (State.chgLeave s l) := by
  unfold State.chgLeave
  repeat' (first | with_reducible assumption | (with_reducible first | apply State.Keeps.ite | apply State.put_keeps) | (intro _))

theorem State.setKfb_keeps {a s : State} (h : a.Keeps s) (n : Fin 6) (closed : Bool) :
    a.Keeps (State.setKfb s n closed) := by
  unfold State.setKfb
  repeat' (first | with_reducible assumption | lift_lets -underBinder | (intro x; have hx : a.Keeps x := (by repeat' (first | with_reducible assumption | lift_lets -underBinder | (with_reducible first | apply State.Keeps.ite | apply State.Keeps.aon | apply State.Keeps.both | apply State.putFlag_keeps | apply State.showK_keeps) | (first | split | (dsimp only [x]; split)) | (intro _))); clear_value x) | (intro x; clear_value x) | (with_reducible first | apply State.Keeps.ite | apply State.Keeps.aon | apply State.Keeps.both | apply State.putFlag_keeps | apply State.showK_keeps) | split | (intro _))

theorem State.chgKfb_keeps {a s : State} (h : a.Keeps s) (l : Lane) :
    a.Keeps (State.chgKfb s l) := by
  unfold State.chgKfb
  repeat' (first | with_reducible assumption | lift_lets -underBinder | (intro x; have hx : a.Keeps x := (by repeat' (first | with_reducible assumption | lift_lets -underBinder | (with_reducible first | apply State.Keeps.ite | apply State.askK_keeps | apply State.chgClosed_keeps | apply State.chgLeave_keeps) | (first | split | (dsimp only [x]; split)) | (intro _))); clear_value x) | (intro x; clear_value x) | (with_reducible first | apply State.Keeps.ite | apply State.askK_keeps | apply State.chgClosed_keeps | apply State.chgLeave_keeps) | split | (intro _))

theorem execKfbConfirm_keeps {a s : State} (h : a.Keeps s) (n : Fin 6) (closed : Bool) :
    OutKeeps a (execKfbConfirm n closed s) := by
  unfold execKfbConfirm
  repeat' (first | with_reducible assumption | lift_lets -underBinder | (intro x; have hx : a.Keeps x := (by repeat' (first | with_reducible assumption | lift_lets -underBinder | (with_reducible first | apply State.Keeps.ite | apply State.Keeps.both | apply State.asHolder_keeps | apply State.chgKfb_keeps | apply State.setKfb_keeps | apply done_keeps) | (first | split | (dsimp only [x]; split)) | (intro _))); clear_value x) | (intro x; clear_value x) | (with_reducible first | apply State.Keeps.ite | apply State.Keeps.both | apply State.asHolder_keeps | apply State.chgKfb_keeps | apply State.setKfb_keeps | apply done_keeps) | split | (intro _))

theorem execAfeLock_keeps {a s : State} (h : a.Keeps s) (l : Lane) :
    OutKeeps a (execAfeLock l s) := by
  unfold execAfeLock
  repeat' (first | with_reducible assumption | lift_lets -underBinder | (intro x; have hx : a.Keeps x := (by repeat' (first | with_reducible assumption | lift_lets -underBinder | (with_reducible first | apply State.Keeps.ite | apply State.chgCascade_keeps | apply State.put_keeps | apply done_keeps) | (first | split | (dsimp only [x]; split)) | (intro _))); clear_value x) | (intro x; clear_value x) | (with_reducible first | apply State.Keeps.ite | apply State.chgCascade_keeps | apply State.put_keeps | apply done_keeps) | split | (intro _))

theorem execAfeCurrentZero_keeps {a s : State} (h : a.Keeps s) (l : Lane) :
    OutKeeps a (execAfeCurrentZero l s) := by
  unfold execAfeCurrentZero
  repeat' (first | with_reducible assumption | lift_lets -underBinder | (intro x; have hx : a.Keeps x := (by repeat' (first | with_reducible assumption | lift_lets -underBinder | (with_reducible first | apply State.Keeps.ite | apply State.Keeps.chg | apply State.askK_keeps | apply State.chgKfb_keeps | apply State.driveS2_keeps | apply State.gatesOff_keeps | apply State.loopOpen_keeps | apply State.put_keeps | apply State.setReg_keeps | apply done_keeps) | (first | split | (dsimp only [x]; split)) | (intro _))); clear_value x) | (intro x; clear_value x) | (with_reducible first | apply State.Keeps.ite | apply State.Keeps.chg | apply State.askK_keeps | apply State.chgKfb_keeps | apply State.driveS2_keeps | apply State.gatesOff_keeps | apply State.loopOpen_keeps | apply State.put_keeps | apply State.setReg_keeps | apply done_keeps) | split | (intro _))

theorem execKFeedback_keeps {a s : State} (h : a.Keeps s) (k4 : Bool) (closed : Bool) :
    OutKeeps a (execKFeedback k4 closed s) := by
  unfold execKFeedback
  repeat' (first | with_reducible assumption | lift_lets -underBinder | (intro x; have hx : a.Keeps x := (by repeat' (first | with_reducible assumption | lift_lets -underBinder | (with_reducible first | apply State.Keeps.ite | apply State.Keeps.both | apply State.asHolder_keeps | apply State.bump_keeps | apply State.chgFault_keeps | apply State.pulseEv_keeps | apply State.setKfb_keeps | apply done_keeps) | (first | split | (dsimp only [x]; split)) | (intro _))); clear_value x) | (intro x; clear_value x) | (with_reducible first | apply State.Keeps.ite | apply State.Keeps.both | apply State.asHolder_keeps | apply State.bump_keeps | apply State.chgFault_keeps | apply State.pulseEv_keeps | apply State.setKfb_keeps | apply done_keeps) | split | (intro _))

theorem State.chgTrip_keeps {a s : State} (h : a.Keeps s) (l : Lane) (cause : Nat) (code : Nat) (e : Ev) :
    a.Keeps (State.chgTrip s l cause code e) := by
  unfold State.chgTrip
  repeat' (first | with_reducible assumption | lift_lets -underBinder | (intro x; have hx : a.Keeps x := (by repeat' (first | with_reducible assumption | lift_lets -underBinder | (with_reducible first | apply State.bump_keeps | apply State.chgRampdown_keeps | apply State.pulseEv_keeps | apply State.put_keeps) | (intro _))); clear_value x) | (intro x; clear_value x) | (with_reducible first | apply State.bump_keeps | apply State.chgRampdown_keeps | apply State.pulseEv_keeps | apply State.put_keeps) | (intro _))

theorem execGridDip_keeps {a s : State} (h : a.Keeps s) (l : Lane) (retained : Nat) :
    OutKeeps a (execGridDip l retained s) := by
  unfold execGridDip
  repeat' (first | with_reducible assumption | lift_lets -underBinder | (intro x; have hx : a.Keeps x := (by repeat' (first | with_reducible assumption | lift_lets -underBinder | (with_reducible first | apply State.Keeps.ite | apply State.Keeps.chg | apply State.bump_keeps | apply State.chgTrip_keeps | apply State.gatesOff_keeps | apply State.pulseEv_keeps | apply State.put_keeps | apply done_keeps) | (first | split | (dsimp only [x]; split)) | (intro _))); clear_value x) | (intro x; clear_value x) | (with_reducible first | apply State.Keeps.ite | apply State.Keeps.chg | apply State.bump_keeps | apply State.chgTrip_keeps | apply State.gatesOff_keeps | apply State.pulseEv_keeps | apply State.put_keeps | apply done_keeps) | split | (intro _))

theorem execGridTrip_keeps {a s : State} (h : a.Keeps s) (l : Lane) (t : GridTrip) :
    OutKeeps a (execGridTrip l t s) := by
  unfold execGridTrip
  repeat' (first | with_reducible assumption | lift_lets -underBinder | (intro x; have hx : a.Keeps x := (by repeat' (first | with_reducible assumption | lift_lets -underBinder | (with_reducible first | apply State.Keeps.ite | apply State.chgTrip_keeps | apply done_keeps) | (first | split | (dsimp only [x]; split)) | (intro _))); clear_value x) | (intro x; clear_value x) | (with_reducible first | apply State.Keeps.ite | apply State.chgTrip_keeps | apply done_keeps) | split | (intro _))

theorem execGridRestart_keeps {a s : State} (h : a.Keeps s) (l : Lane) :
    OutKeeps a (execGridRestart l s) := by
  unfold execGridRestart
  repeat' (first | with_reducible assumption | lift_lets -underBinder | (intro x; have hx : a.Keeps x := (by repeat' (first | with_reducible assumption | lift_lets -underBinder | (with_reducible first | apply State.Keeps.ite | apply State.chgReady_keeps | apply done_keeps) | (first | split | (dsimp only [x]; split)) | (intro _))); clear_value x) | (intro x; clear_value x) | (with_reducible first | apply State.Keeps.ite | apply State.chgReady_keeps | apply done_keeps) | split | (intro _))

theorem execIsland_keeps {a s : State} (h : a.Keeps s) (l : Lane) (jump : Bool) :
    OutKeeps a (execIsland l jump s) := by
  unfold execIsland
  repeat' (first | with_reducible assumption | (with_reducible first | apply State.Keeps.ite | apply State.chgTrip_keeps | apply done_keeps) | split | (intro _))

theorem execV2l_keeps {a s : State} (h : a.Keeps s) (l : Lane) :
    OutKeeps a (execV2l l s) := by
  unfold execV2l
  repeat' (first | with_reducible assumption | (with_reducible first | apply State.Keeps.ite | apply State.chgFault_keeps | apply State.pulseEv_keeps | apply done_keeps) | split | (intro _))

theorem execS2HoldTimeout_keeps {a s : State} (h : a.Keeps s) :
    OutKeeps a (execS2HoldTimeout s) := by
  unfold execS2HoldTimeout
  repeat' (first | with_reducible assumption | (with_reducible first | apply State.Keeps.ite | apply State.Keeps.aon | apply done_keeps) | split | (intro _))

theorem State.chgClrFault_keeps {a s : State} (h : a.Keeps s) (l : Lane) :
    a.Keeps (State.chgClrFault s l) := by
  unfold State.chgClrFault
  repeat' (first | with_reducible assumption | (with_reducible first | apply State.Keeps.ite | apply State.put_keeps) | (intro _))

theorem State.clrChgCnt_keeps {a s : State} (h : a.Keeps s) (l : Lane) :
    a.Keeps (State.clrChgCnt s l) := by
  unfold State.clrChgCnt
  repeat' (first | with_reducible assumption | (with_reducible first | apply State.putWord_keeps) | (intro _))

theorem State.clrAfeCnt_keeps {a s : State} (h : a.Keeps s) (l : Lane) :
    a.Keeps (State.clrAfeCnt s l) := by
  unfold State.clrAfeCnt
  repeat' (first | with_reducible assumption | (with_reducible first | apply State.putWord_keeps) | (intro _))

theorem State.clrDabCnt_keeps {a s : State} (h : a.Keeps s) (l : Lane) :
    a.Keeps (State.clrDabCnt s l) := by
  unfold State.clrDabCnt
  repeat' (first | with_reducible assumption | (with_reducible first | apply State.putWord_keeps) | (intro _))

theorem State.chgShow_keeps {a s : State} (h : a.Keeps s) (l : Lane) (g : GridMeas) :
    a.Keeps (State.chgShow s l g) := by
  unfold State.chgShow
  repeat' (first | with_reducible assumption | lift_lets -underBinder | (intro x; have hx : a.Keeps x := (by repeat' (first | with_reducible assumption | lift_lets -underBinder | (with_reducible first | apply State.Keeps.ite | apply State.Keeps.chg | apply State.bump_keeps | apply State.putFlag_keeps | apply State.putWord_keeps | apply State.put_keeps) | (first | split | (dsimp only [x]; split)) | (intro _))); clear_value x) | (intro x; clear_value x) | (with_reducible first | apply State.Keeps.ite | apply State.Keeps.chg | apply State.bump_keeps | apply State.putFlag_keeps | apply State.putWord_keeps | apply State.put_keeps) | split | (intro _))

theorem State.ibatForm_keeps {a s : State} (h : a.Keeps s) (l : Lane) (t : Word) :
    a.Keeps (State.ibatForm s l t) := by
  unfold State.ibatForm
  repeat' (first | with_reducible assumption | lift_lets -underBinder | (intro x; have hx : a.Keeps x := (by repeat' (first | with_reducible assumption | lift_lets -underBinder | (with_reducible first | apply State.Keeps.ite | apply State.Keeps.chg | apply State.putFlag_keeps) | (intro _))); clear_value x) | (intro x; clear_value x) | (with_reducible first | apply State.Keeps.ite | apply State.Keeps.chg | apply State.putFlag_keeps) | (intro _))

theorem State.ibatDown_keeps {a s : State} (h : a.Keeps s) (l : Lane) (t : Word) :
    a.Keeps (State.ibatDown s l t) := by
  unfold State.ibatDown
  repeat' (first | with_reducible assumption | lift_lets -underBinder | (intro x; have hx : a.Keeps x := (by repeat' (first | with_reducible assumption | lift_lets -underBinder | (with_reducible first | apply State.Keeps.ite | apply State.Keeps.chg | apply State.setReg_keeps) | (first | split | (dsimp only [x]; split)) | (intro _))); clear_value x) | (intro x; clear_value x) | (with_reducible first | apply State.Keeps.ite | apply State.Keeps.chg | apply State.setReg_keeps) | split | (intro _))

theorem State.chgMedium_keeps {a s : State} (h : a.Keeps s) (l : Lane) (g : GridMeas) :
    a.Keeps (State.chgMedium s l g) := by
  unfold State.chgMedium
  repeat' (first | with_reducible assumption | lift_lets -underBinder | (intro x; have hx : a.Keeps x := (by repeat' (first | with_reducible assumption | lift_lets -underBinder | (with_reducible first | apply State.Keeps.ite | apply State.Keeps.chg | apply State.chgFault_keeps | apply State.chgLeave_keeps | apply State.chgPreload_keeps | apply State.chgRampdown_keeps | apply State.chgReady_keeps | apply State.chgShow_keeps | apply State.driveS2_keeps | apply State.ibatDown_keeps | apply State.ibatForm_keeps | apply State.levelEv_keeps | apply State.put_keeps) | (first | split | (dsimp only [x]; split)) | (intro _))); clear_value x) | (intro x; clear_value x) | (with_reducible first | apply State.Keeps.ite | apply State.Keeps.chg | apply State.chgFault_keeps | apply State.chgLeave_keeps | apply State.chgPreload_keeps | apply State.chgRampdown_keeps | apply State.chgReady_keeps | apply State.chgShow_keeps | apply State.driveS2_keeps | apply State.ibatDown_keeps | apply State.ibatForm_keeps | apply State.levelEv_keeps | apply State.put_keeps) | split | (intro _))

theorem State.setPgAfe_keeps {a s : State} (h : a.Keeps s) (on : Bool) :
    a.Keeps (State.setPgAfe s on) := by
  unfold State.setPgAfe
  repeat' (first | with_reducible assumption | (with_reducible first | apply State.Keeps.ite | apply State.Keeps.aon | apply State.monEv_keeps | apply State.mputFlag_keeps) | (intro _))

theorem State.setPgDab_keeps {a s : State} (h : a.Keeps s) (on : Bool) :
    a.Keeps (State.setPgDab s on) := by
  unfold State.setPgDab
  repeat' (first | with_reducible assumption | (with_reducible first | apply State.Keeps.ite | apply State.Keeps.aon | apply State.monEv_keeps | apply State.mputFlag_keeps) | (intro _))

theorem execPgChgRelease_keeps {a s : State} (h : a.Keeps s) (dab : Bool) :
    OutKeeps a (execPgChgRelease dab s) := by
  unfold execPgChgRelease
  repeat' (first | with_reducible assumption | (with_reducible first | apply State.Keeps.ite | apply State.setPgAfe_keeps | apply State.setPgDab_keeps | apply done_keeps) | split | (intro _))

theorem State.pgCheck_keeps {a s : State} (h : a.Keeps s) :
    a.Keeps (State.pgCheck s) := by
  unfold State.pgCheck
  repeat' (first | with_reducible assumption | lift_lets -underBinder | (intro x; have hx : a.Keeps x := (by repeat' (first | with_reducible assumption | lift_lets -underBinder | (with_reducible first | apply State.Keeps.ite | apply State.setPgAfe_keeps | apply State.setPgDab_keeps | apply State.setPgDcl_keeps) | (intro _))); clear_value x) | (intro x; clear_value x) | (with_reducible first | apply State.Keeps.ite | apply State.setPgAfe_keeps | apply State.setPgDab_keeps | apply State.setPgDcl_keeps) | (intro _))

end Sys2Proof.Machine
end

