-- ==== Sys2Proof/Laws/Keeps/Actuator.lean ====
section
/-! SUPPORT. What the operations of Actuator keep. -/
namespace Sys2Proof.Machine
set_option linter.all false
set_option Elab.async false

theorem State.setActPos_keeps {a s : State} (h : a.Keeps s) (l : Lane) (a' : Fin 2) (v : Int) :
    a.Keeps (State.setActPos s l a' v) := by
  unfold State.setActPos
  repeat' (first | with_reducible assumption | (with_reducible first | apply State.put_keeps) | (intro _))

theorem State.actBegin_keeps {a s : State} (h : a.Keeps s) (l : Lane) (a' : Fin 2) (st : Nat) :
    a.Keeps (State.actBegin s l a' st) := by
  unfold State.actBegin
  repeat' (first | with_reducible assumption | lift_lets -underBinder | (intro x; have hx : a.Keeps x := (by repeat' (first | with_reducible assumption | lift_lets -underBinder | (with_reducible first | apply State.Keeps.act | apply State.loopAsk_keeps | apply State.putFlag_keeps | apply State.put_keeps) | (intro _))); clear_value x) | (intro x; clear_value x) | (with_reducible first | apply State.Keeps.act | apply State.loopAsk_keeps | apply State.putFlag_keeps | apply State.put_keeps) | (intro _))

theorem State.actCmd_keeps {a s : State} (h : a.Keeps s) (l : Lane) (a' : Fin 2) (c : Nat) :
    OptKeeps a (State.actCmd s l a' c) := by
  unfold State.actCmd
  repeat' (first | with_reducible assumption | lift_lets -underBinder | (intro x; have hx : a.Keeps x := (by repeat' (first | with_reducible assumption | lift_lets -underBinder | (with_reducible first | apply State.Keeps.ite | apply State.actBegin_keeps | apply State.actBrake_keeps | apply State.actIdle_keeps | apply State.putFlag_keeps | apply State.put_keeps | apply State.Keeps.optSome | apply State.Keeps.optNone) | (first | split | (dsimp only [x]; split)) | (intro _))); clear_value x) | (intro x; clear_value x) | (with_reducible first | apply State.Keeps.ite | apply State.actBegin_keeps | apply State.actBrake_keeps | apply State.actIdle_keeps | apply State.putFlag_keeps | apply State.put_keeps | apply State.Keeps.optSome | apply State.Keeps.optNone) | split | (intro _))

theorem State.actCmd_some {a s t : State} {l : Lane} {a0 : Fin 2} {c : Nat}
    (e : State.actCmd s l a0 c = some t) (h : a.Keeps s) : a.Keeps t := State.actCmd_keeps h _ _ _ t e

theorem State.clrActCnt_keeps {a s : State} (h : a.Keeps s) (l : Lane) (a' : Fin 2) :
    a.Keeps (State.clrActCnt s l a') := by
  unfold State.clrActCnt
  repeat' (first | with_reducible assumption | (with_reducible first | apply State.putWord_keeps) | (intro _))

theorem State.actHallFault_keeps {a s : State} (h : a.Keeps s) (l : Lane) (a' : Fin 2) :
    a.Keeps (State.actHallFault s l a') := by
  unfold State.actHallFault
  repeat' (first | with_reducible assumption | lift_lets -underBinder | (intro x; have hx : a.Keeps x := (by repeat' (first | with_reducible assumption | lift_lets -underBinder | (with_reducible first | apply State.Keeps.ite | apply State.Keeps.act | apply State.actFault_keeps | apply State.bridgeOff_keeps | apply State.bump_keeps | apply State.fresh_keeps | apply State.pulseEv_keeps | apply State.put_keeps) | (intro _))); clear_value x) | (intro x; clear_value x) | (with_reducible first | apply State.Keeps.ite | apply State.Keeps.act | apply State.actFault_keeps | apply State.bridgeOff_keeps | apply State.bump_keeps | apply State.fresh_keeps | apply State.pulseEv_keeps | apply State.put_keeps) | (intro _))

theorem execActHallStep_keeps {a s : State} (h : a.Keeps s) (l : Lane) (a' : Fin 2) (h' : BitVec 3) :
    OutKeeps a (execActHallStep l a' h' s) := by
  unfold execActHallStep
  repeat' (first | with_reducible assumption | lift_lets -underBinder | (intro x; have hx : a.Keeps x := (by repeat' (first | with_reducible assumption | lift_lets -underBinder | (with_reducible first | apply State.Keeps.ite | apply State.Keeps.act | apply State.actHallFault_keeps | apply State.put_keeps | apply State.setActPos_keeps | apply done_keeps) | (first | split | (dsimp only [x]; split)) | (intro _))); clear_value x) | (intro x; dsimp -zeta only [x]; clear x) | (intro x; clear_value x) | (with_reducible first | apply State.Keeps.ite | apply State.Keeps.act | apply State.actHallFault_keeps | apply State.put_keeps | apply State.setActPos_keeps | apply done_keeps) | split | (intro _))

theorem State.actEnd_keeps {a s : State} (h : a.Keeps s) (l : Lane) (a' : Fin 2) (pos : Nat) :
    a.Keeps (State.actEnd s l a' pos) := by
  unfold State.actEnd
  repeat' (first | with_reducible assumption | lift_lets -underBinder | (intro x; have hx : a.Keeps x := (by repeat' (first | with_reducible assumption | lift_lets -underBinder | (with_reducible first | apply State.Keeps.ite | apply State.actBrake_keeps | apply State.pulseEv_keeps | apply State.putFlag_keeps | apply State.setActPos_keeps) | (intro _))); clear_value x) | (intro x; clear_value x) | (with_reducible first | apply State.Keeps.ite | apply State.actBrake_keeps | apply State.pulseEv_keeps | apply State.putFlag_keeps | apply State.setActPos_keeps) | (intro _))

theorem State.actLearned_keeps {a s : State} (h : a.Keeps s) (l : Lane) (a' : Fin 2) :
    a.Keeps (State.actLearned s l a') := by
  unfold State.actLearned
  repeat' (first | with_reducible assumption | lift_lets -underBinder | (intro x; have hx : a.Keeps x := (by repeat' (first | with_reducible assumption | lift_lets -underBinder | (with_reducible first | apply State.Keeps.ite | apply State.actBrake_keeps | apply State.actFault_keeps | apply State.pulseEv_keeps | apply State.putFlag_keeps | apply State.put_keeps) | (intro _))); clear_value x) | (intro x; clear_value x) | (with_reducible first | apply State.Keeps.ite | apply State.actBrake_keeps | apply State.actFault_keeps | apply State.pulseEv_keeps | apply State.putFlag_keeps | apply State.put_keeps) | (intro _))

theorem execLockedRotor_keeps {a s : State} (h : a.Keeps s) (l : Lane) (a' : Fin 2) :
    OutKeeps a (execLockedRotor l a' s) := by
  unfold execLockedRotor
  repeat' (first | with_reducible assumption | lift_lets -underBinder | (intro x; have hx : a.Keeps x := (by repeat' (first | with_reducible assumption | lift_lets -underBinder | (with_reducible first | apply State.Keeps.ite | apply State.actEnd_keeps | apply State.actFault_keeps | apply State.actLearned_keeps | apply State.bump_keeps | apply State.pulseEv_keeps | apply State.putFlag_keeps | apply State.put_keeps | apply State.setActPos_keeps | apply done_keeps) | (first | split | (dsimp only [x]; split)) | (intro _))); clear_value x) | (intro x; clear_value x) | (with_reducible first | apply State.Keeps.ite | apply State.actEnd_keeps | apply State.actFault_keeps | apply State.actLearned_keeps | apply State.bump_keeps | apply State.pulseEv_keeps | apply State.putFlag_keeps | apply State.put_keeps | apply State.setActPos_keeps | apply done_keeps) | split | (intro _))

theorem execHoldTExpiry_keeps {a s : State} (h : a.Keeps s) (l : Lane) (a' : Fin 2) :
    OutKeeps a (execHoldTExpiry l a' s) := by
  unfold execHoldTExpiry
  repeat' (first | with_reducible assumption | (with_reducible first | apply State.Keeps.ite | apply State.actIdle_keeps | apply done_keeps) | split | (intro _))

theorem execMoveDone_keeps {a s : State} (h : a.Keeps s) (l : Lane) (a' : Fin 2) :
    OutKeeps a (execMoveDone l a' s) := by
  unfold execMoveDone
  repeat' (first | with_reducible assumption | lift_lets -underBinder | (intro x; have hx : a.Keeps x := (by repeat' (first | with_reducible assumption | lift_lets -underBinder | (with_reducible first | apply State.Keeps.ite | apply State.actBrake_keeps | apply State.pulseEv_keeps | apply State.putFlag_keeps | apply done_keeps) | (first | split | (dsimp only [x]; split)) | (intro _))); clear_value x) | (intro x; clear_value x) | (with_reducible first | apply State.Keeps.ite | apply State.actBrake_keeps | apply State.pulseEv_keeps | apply State.putFlag_keeps | apply done_keeps) | split | (intro _))

theorem execMoveTimeout_keeps {a s : State} (h : a.Keeps s) (l : Lane) (a' : Fin 2) :
    OutKeeps a (execMoveTimeout l a' s) := by
  unfold execMoveTimeout
  repeat' (first | with_reducible assumption | (with_reducible first | apply State.Keeps.ite | apply State.actFault_keeps | apply State.bump_keeps | apply State.pulseEv_keeps | apply done_keeps) | split | (intro _))

theorem State.vlvLost_keeps {a s : State} (h : a.Keeps s) (l : Lane) :
    a.Keeps (State.vlvLost s l) := by
  unfold State.vlvLost
  repeat' (first | with_reducible assumption | (with_reducible first | apply State.Keeps.ite | apply State.Keeps.fold | apply State.actFault_keeps | apply State.bridgeOff_keeps) | (intro _))

theorem execVlvOutOfWindow_keeps {a s : State} (h : a.Keeps s) (v : BitVec 16) :
    OutKeeps a (execVlvOutOfWindow v s) := by
  unfold execVlvOutOfWindow
  repeat' (first | with_reducible assumption | lift_lets -underBinder | (intro x; have hx : a.Keeps x := (by repeat' (first | with_reducible assumption | lift_lets -underBinder | (with_reducible first | apply State.Keeps.ite | apply State.Keeps.both | apply State.levelEv_keeps | apply State.putFlag_keeps | apply State.put_keeps | apply State.vlvLost_keeps | apply done_keeps) | (first | split | (dsimp only [x]; split)) | (intro _))); clear_value x) | (intro x; clear_value x) | (with_reducible first | apply State.Keeps.ite | apply State.Keeps.both | apply State.levelEv_keeps | apply State.putFlag_keeps | apply State.put_keeps | apply State.vlvLost_keeps | apply done_keeps) | split | (intro _))

theorem State.forceLimit_keeps {a s : State} (h : a.Keeps s) (l : Lane) (a' : Fin 2) (code : BitVec 10) :
    a.Keeps (State.forceLimit s l a' code) := by
  unfold State.forceLimit
  repeat' (first | with_reducible assumption | lift_lets -underBinder | (intro x; have hx : a.Keeps x := (by repeat' (first | with_reducible assumption | lift_lets -underBinder | (with_reducible first | apply State.Keeps.ite | apply State.Keeps.act | apply State.pulseEv_keeps | apply State.putFlag_keeps | apply State.putWord_keeps) | (intro _))); clear_value x) | (intro x; clear_value x) | (with_reducible first | apply State.Keeps.ite | apply State.Keeps.act | apply State.pulseEv_keeps | apply State.putFlag_keeps | apply State.putWord_keeps) | (intro _))

theorem State.bootPeriod_keeps {a s : State} (h : a.Keeps s) (n : Fin 12) (m : Word) :
    a.Keeps (State.bootPeriod s n m) := by
  unfold State.bootPeriod
  repeat' (first | with_reducible assumption | lift_lets -underBinder | (intro x; have hx : a.Keeps x := (by repeat' (first | with_reducible assumption | lift_lets -underBinder | (with_reducible first | apply State.Keeps.ite | apply State.Keeps.lvCh | apply State.mbump_keeps | apply State.mputFlag_keeps | apply State.pulseEv_keeps) | (first | split | (dsimp only [x]; split)) | (intro _))); clear_value x) | (intro x; clear_value x) | (with_reducible first | apply State.Keeps.ite | apply State.Keeps.lvCh | apply State.mbump_keeps | apply State.mputFlag_keeps | apply State.pulseEv_keeps) | split | (intro _))

theorem State.lowOn_keeps {a s : State} (h : a.Keeps s) (a' : Fin 2) (j : Nat) :
    a.Keeps (State.lowOn s a' j) := by
  unfold State.lowOn
  repeat' (first | with_reducible assumption | lift_lets -underBinder | (intro x; have hx : a.Keeps x := (by repeat' (first | with_reducible assumption | lift_lets -underBinder | (with_reducible first | apply State.Keeps.lvCh) | (intro _))); clear_value x) | (intro x; clear_value x) | (with_reducible first | apply State.Keeps.lvCh) | (intro _))

theorem State.actPeriod_keeps {a s : State} (h : a.Keeps s) (l : Lane) (a' : Fin 2) : a.Keeps (State.actPeriod s l a') := by
  unfold State.actPeriod
  dsimp only
  refine State.Keeps.ite (fun _ => h) (fun _ => ?_)
  have k : ∀ hi v, a.Keeps ((s.bootPeriod hi v).bridgeOff a') := fun hi v => State.bridgeOff_keeps (State.bootPeriod_keeps h hi v) a'
  refine State.Keeps.ite (fun _ => State.lowOn_keeps (State.Keeps.act (k _ _) ..) ..)
    (fun _ => State.lowOn_keeps (State.Keeps.lvCh (State.Keeps.act (k _ _) ..) ..) ..)

theorem State.loadSink_keeps {a s : State} (h : a.Keeps s) (l : Lane) (i : Fin 16) :
    a.Keeps (State.loadSink s l i) := by
  unfold State.loadSink
  repeat' (first | with_reducible assumption | (with_reducible first | apply State.Keeps.eng) | (intro _))

theorem execCarrierPeriodStart_keeps {a s : State} (h : a.Keeps s) (l : Lane) (c : Carrier) :
    OutKeeps a (execCarrierPeriodStart l c s) := by
  unfold execCarrierPeriodStart
  repeat' (first | with_reducible assumption | lift_lets -underBinder | (intro x; have hx : a.Keeps x := (by repeat' (first | with_reducible assumption | lift_lets -underBinder | (with_reducible first | apply State.Keeps.ite | apply State.Keeps.smp | apply State.actPeriod_keeps | apply State.forceLimit_keeps | apply State.loadSink_keeps | apply State.putWord_keeps | apply State.showPhases_keeps | apply done_keeps) | (first | split | (dsimp only [x]; split)) | (intro _))); clear_value x) | (intro x; clear_value x) | (with_reducible first | apply State.Keeps.ite | apply State.Keeps.smp | apply State.actPeriod_keeps | apply State.forceLimit_keeps | apply State.loadSink_keeps | apply State.putWord_keeps | apply State.showPhases_keeps | apply done_keeps) | split | (intro _))

theorem State.actWires_keeps {a s : State} (h : a.Keeps s) (l : Lane) : a.Keeps (State.actWires s l) := by
  unfold State.actWires
  refine State.Keeps.fold _ _ h (fun t x ht => ?_)
  dsimp only
  refine ht.mem l _ (fun _ hm => ?_) (fun _ => ⟨rfl, rfl, rfl, rfl, rfl⟩)
  dsimp only [List.foldl]
  exact mput_wf _ _ _ (mput_wf _ _ _ (mput_wf _ _ _ (mput_wf _ _ _ hm)))

end Sys2Proof.Machine
end

