-- ==== Sys2Proof/Laws/Keeps/Guard.lean ====
section
/-! SUPPORT. What the operations of Guard keep. -/
namespace Sys2Proof.Machine
set_option linter.all false
set_option Elab.async false

theorem State.trigSto_keeps {a s : State} (h : a.Keeps s) (c : Nat) :
    a.Keeps (State.trigSto s c) := by
  unfold State.trigSto
  repeat' (first | with_reducible assumption | (with_reducible first | apply State.Keeps.ite | apply State.applySto_keeps | apply State.causeEv_keeps) | (intro _))

theorem State.trigSs1_keeps {a s : State} (h : a.Keeps s) (c : Nat) :
    a.Keeps (State.trigSs1 s c) := by
  unfold State.trigSs1
  repeat' (first | with_reducible assumption | (with_reducible first | apply State.Keeps.ite | apply State.applySs1_keeps | apply State.causeEv_keeps) | (intro _))

theorem execStoPin_keeps {a s : State} (h : a.Keeps s) (two : Bool) :
    OutKeeps a (execStoPin two s) := by
  unfold execStoPin
  repeat' (first | (exact fun (_ : MonState) hx => hx) | with_reducible assumption | lift_lets -underBinder | (intro x; have hx : a.Keeps x := (by repeat' (first | (exact fun (_ : MonState) hx => hx) | with_reducible assumption | lift_lets -underBinder | (with_reducible first | apply State.Keeps.ite | apply State.Keeps.aon | apply State.Keeps.mon | apply State.publish_keeps | apply State.trigSto_keeps | apply done_keeps) | (first | split | (dsimp only [x]; split)) | (intro _))); clear_value x) | (intro x; clear_value x) | (with_reducible first | apply State.Keeps.ite | apply State.Keeps.aon | apply State.Keeps.mon | apply State.publish_keeps | apply State.trigSto_keeps | apply done_keeps) | split | (intro _))

theorem execStoPinHigh_keeps {a s : State} (h : a.Keeps s) (two : Bool) :
    OutKeeps a (execStoPinHigh two s) := by
  unfold execStoPinHigh
  repeat' (first | (exact fun (_ : MonState) hx => hx) | with_reducible assumption | lift_lets -underBinder | (intro x; have hx : a.Keeps x := (by repeat' (first | (exact fun (_ : MonState) hx => hx) | with_reducible assumption | lift_lets -underBinder | (with_reducible first | apply State.Keeps.ite | apply State.Keeps.aon | apply State.Keeps.mon | apply State.publish_keeps | apply done_keeps) | (first | split | (dsimp only [x]; split)) | (intro _))); clear_value x) | (intro x; clear_value x) | (with_reducible first | apply State.Keeps.ite | apply State.Keeps.aon | apply State.Keeps.mon | apply State.publish_keeps | apply done_keeps) | split | (intro _))

theorem execStoDisc_keeps {a s : State} (h : a.Keeps s) :
    OutKeeps a (execStoDisc s) := by
  unfold execStoDisc
  repeat' (first | (exact fun (_ : MonState) hx => hx) | with_reducible assumption | lift_lets -underBinder | (intro x; have hx : a.Keeps x := (by repeat' (first | (exact fun (_ : MonState) hx => hx) | with_reducible assumption | lift_lets -underBinder | (with_reducible first | apply State.Keeps.ite | apply State.Keeps.both | apply State.Keeps.mon | apply State.levelEv_keeps | apply State.monLevel_keeps | apply State.publish_keeps | apply done_keeps) | (first | split | (dsimp only [x]; split)) | (intro _))); clear_value x) | (intro x; clear_value x) | (with_reducible first | apply State.Keeps.ite | apply State.Keeps.both | apply State.Keeps.mon | apply State.levelEv_keeps | apply State.monLevel_keeps | apply State.publish_keeps | apply done_keeps) | split | (intro _))

theorem State.askSto_keeps {a s : State} (h : a.Keeps s) (l : Lane) (c : Nat) :
    a.Keeps (State.askSto s l c) := by
  unfold State.askSto
  repeat' (first | with_reducible assumption | (with_reducible first | apply State.Keeps.ite | apply State.Keeps.saf) | (intro _))

theorem State.askSs1_keeps {a s : State} (h : a.Keeps s) (l : Lane) (c : Nat) :
    a.Keeps (State.askSs1 s l c) := by
  unfold State.askSs1
  repeat' (first | with_reducible assumption | (with_reducible first | apply State.Keeps.ite | apply State.Keeps.saf) | split | (intro _))

theorem execStoRequest_keeps {a s : State} (h : a.Keeps s) (l : Lane) :
    OutKeeps a (execStoRequest l s) := by
  unfold execStoRequest
  repeat' (first | with_reducible assumption | (with_reducible first | apply State.askSto_keeps | apply State.reply_keeps | apply State.writing_keeps | apply done_keeps) | (intro _))

theorem execSs1Request_keeps {a s : State} (h : a.Keeps s) (l : Lane) :
    OutKeeps a (execSs1Request l s) := by
  unfold execSs1Request
  repeat' (first | with_reducible assumption | (with_reducible first | apply State.askSs1_keeps | apply State.reply_keeps | apply State.writing_keeps | apply done_keeps) | (intro _))

theorem State.restart_keeps {a s : State} (h : a.Keeps s) :
    a.Keeps (State.restart s) := by
  unfold State.restart
  repeat' (first | (exact fun (_ : MonState) hx => hx) | with_reducible assumption | lift_lets -underBinder | (intro x; have hx : a.Keeps x := (by repeat' (first | (exact fun (_ : MonState) hx => hx) | with_reducible assumption | lift_lets -underBinder | (with_reducible first | apply State.Keeps.ite | apply State.Keeps.both | apply State.Keeps.mon | apply State.levelEv_keeps | apply State.monEv_keeps | apply State.monLevel_keeps | apply State.placeSet_keeps | apply State.publish_keeps | apply State.pulseEv_keeps) | (intro _))); clear_value x) | (intro x; clear_value x) | (with_reducible first | apply State.Keeps.ite | apply State.Keeps.both | apply State.Keeps.mon | apply State.levelEv_keeps | apply State.monEv_keeps | apply State.monLevel_keeps | apply State.placeSet_keeps | apply State.publish_keeps | apply State.pulseEv_keeps) | (intro _))

theorem State.acknowledge_keeps {a s : State} (h : a.Keeps s) :
    a.Keeps (State.acknowledge s) := by
  unfold State.acknowledge
  repeat' (first | with_reducible assumption | (with_reducible first | apply State.Keeps.ite | apply State.restart_keeps) | (intro _))

theorem State.ownRelease_keeps {a s : State} (h : a.Keeps s) (l : Lane) :
    a.Keeps (State.ownRelease s l) := by
  unfold State.ownRelease
  repeat' (first | (exact fun (_ : RedState) hx => hx) | with_reducible assumption | lift_lets -underBinder | (intro x; have hx : a.Keeps x := (by repeat' (first | (exact fun (_ : RedState) hx => hx) | with_reducible assumption | lift_lets -underBinder | (with_reducible first | apply State.Keeps.red | apply State.levelEv_keeps | apply State.pulseEv_keeps | apply State.put_keeps) | (intro _))); clear_value x) | (intro x; clear_value x) | (with_reducible first | apply State.Keeps.red | apply State.levelEv_keeps | apply State.pulseEv_keeps | apply State.put_keeps) | (intro _))

theorem State.clsAck_keeps {a s : State} (h : a.Keeps s) (l : Lane) :
    a.Keeps (State.clsAck s l) := by
  unfold State.clsAck
  repeat' (first | (exact fun (_ : MonState) hx => hx) | with_reducible assumption | lift_lets -underBinder | (intro x; have hx : a.Keeps x := (by repeat' (first | (exact fun (_ : MonState) hx => hx) | with_reducible assumption | lift_lets -underBinder | (with_reducible first | apply State.Keeps.ite | apply State.Keeps.mon | apply State.acknowledge_keeps | apply State.ownRelease_keeps) | (first | split | (dsimp only [x]; split)) | (intro _))); clear_value x) | (intro x; dsimp -zeta only [x]; clear x) | (intro x; clear_value x) | (with_reducible first | apply State.Keeps.ite | apply State.Keeps.mon | apply State.acknowledge_keeps | apply State.ownRelease_keeps) | split | (intro _))

theorem State.zeroPos_keeps {a s : State} (h : a.Keeps s) :
    a.Keeps (State.zeroPos s) := by
  unfold State.zeroPos
  repeat' (first | (exact fun (_ : MonState) hx => hx) | with_reducible assumption | lift_lets -underBinder | (intro x; have hx : a.Keeps x := (by repeat' (first | (exact fun (_ : MonState) hx => hx) | with_reducible assumption | lift_lets -underBinder | (with_reducible first | apply State.Keeps.ite | apply State.Keeps.both | apply State.Keeps.mon | apply State.Keeps.saf | apply State.putWord_keeps) | (intro _))); clear_value x) | (intro x; clear_value x) | (with_reducible first | apply State.Keeps.ite | apply State.Keeps.both | apply State.Keeps.mon | apply State.Keeps.saf | apply State.putWord_keeps) | (intro _))

theorem State.clsSlpSet_keeps {a s : State} (h : a.Keeps s) (l : Lane) :
    a.Keeps (State.clsSlpSet s l) := by
  unfold State.clsSlpSet
  repeat' (first | (exact fun (_ : MonState) hx => hx) | with_reducible assumption | lift_lets -underBinder | (intro x; have hx : a.Keeps x := (by repeat' (first | (exact fun (_ : MonState) hx => hx) | with_reducible assumption | lift_lets -underBinder | (with_reducible first | apply State.Keeps.ite | apply State.Keeps.mon | apply State.zeroPos_keeps) | (first | split | (dsimp only [x]; split)) | (intro _))); clear_value x) | (intro x; dsimp -zeta only [x]; clear x) | (intro x; clear_value x) | (with_reducible first | apply State.Keeps.ite | apply State.Keeps.mon | apply State.zeroPos_keeps) | split | (intro _))

theorem State.ss1End_keeps {a s : State} (h : a.Keeps s) :
    a.Keeps (State.ss1End s) := by
  unfold State.ss1End
  repeat' (first | with_reducible assumption | (with_reducible first | apply State.Keeps.ite | apply State.applySto_keeps) | (intro _))

theorem State.ownSto_keeps {a s : State} (h : a.Keeps s) (l : Lane) (c : Nat) :
    a.Keeps (State.ownSto s l c) := by
  unfold State.ownSto
  repeat' (first | (exact fun (_ : RedState) hx => hx) | with_reducible assumption | lift_lets -underBinder | (intro x; have hx : a.Keeps x := (by repeat' (first | (exact fun (_ : RedState) hx => hx) | with_reducible assumption | lift_lets -underBinder | (with_reducible first | apply State.Keeps.ite | apply State.Keeps.red | apply State.levelEv_keeps | apply State.put_keeps | apply State.setFault_keeps) | (first | split | (dsimp only [x]; split)) | (intro _))); clear_value x) | (intro x; clear_value x) | (with_reducible first | apply State.Keeps.ite | apply State.Keeps.red | apply State.levelEv_keeps | apply State.put_keeps | apply State.setFault_keeps) | split | (intro _))

theorem State.ownSs1Start_keeps {a s : State} (h : a.Keeps s) (l : Lane) (c : Nat) :
    a.Keeps (State.ownSs1Start s l c) := by
  unfold State.ownSs1Start
  repeat' (first | (exact fun (_ : RedState) hx => hx) | with_reducible assumption | lift_lets -underBinder | (intro x; have hx : a.Keeps x := (by repeat' (first | (exact fun (_ : RedState) hx => hx) | with_reducible assumption | lift_lets -underBinder | (with_reducible first | apply State.Keeps.ite | apply State.Keeps.red | apply State.laneSs1_keeps | apply State.put_keeps) | (first | split | (dsimp only [x]; split)) | (intro _))); clear_value x) | (intro x; clear_value x) | (with_reducible first | apply State.Keeps.ite | apply State.Keeps.red | apply State.laneSs1_keeps | apply State.put_keeps) | split | (intro _))

theorem State.clsJudge_keeps {a s : State} (h : a.Keeps s) :
    a.Keeps (State.clsJudge s) := by
  unfold State.clsJudge
  repeat' (first | with_reducible assumption | lift_lets -underBinder | (intro x; have hx : a.Keeps x := (by repeat' (first | with_reducible assumption | lift_lets -underBinder | (with_reducible first | apply State.Keeps.ite | apply State.Keeps.both | apply State.ownSs1Start_keeps | apply State.ownSto_keeps | apply State.publish_keeps | apply State.trigSs1_keeps | apply State.trigSto_keeps) | (first | split | (dsimp only [x]; split)) | (intro _))); clear_value x) | (intro x; clear_value x) | (with_reducible first | apply State.Keeps.ite | apply State.Keeps.both | apply State.ownSs1Start_keeps | apply State.ownSto_keeps | apply State.publish_keeps | apply State.trigSs1_keeps | apply State.trigSto_keeps) | split | (intro _))

theorem execSs1Timeout_keeps {a s : State} (h : a.Keeps s) (w : Seer) :
    OutKeeps a (execSs1Timeout w s) := by
  unfold execSs1Timeout
  repeat' (first | with_reducible assumption | (with_reducible first | apply State.Keeps.ite | apply State.ownSto_keeps | apply State.ss1End_keeps | apply done_keeps) | split | (intro _))

theorem execSs1RampDone_keeps {a s : State} (h : a.Keeps s) (w : Seer) :
    OutKeeps a (execSs1RampDone w s) := by
  unfold execSs1RampDone
  repeat' (first | with_reducible assumption | lift_lets -underBinder | (intro x; have hx : a.Keeps x := (by repeat' (first | with_reducible assumption | lift_lets -underBinder | (with_reducible first | apply State.Keeps.ite | apply State.ownSto_keeps | apply State.ss1End_keeps | apply done_keeps) | (first | split | (dsimp only [x]; split)) | (intro _))); clear_value x) | (intro x; dsimp -zeta only [x]; clear x) | (intro x; clear_value x) | (with_reducible first | apply State.Keeps.ite | apply State.ownSto_keeps | apply State.ss1End_keeps | apply done_keeps) | split | (intro _))

theorem execCommandLineLost_keeps {a s : State} (h : a.Keeps s) (l : Lane) (back : Bool) :
    OutKeeps a (execCommandLineLost l back s) := by
  unfold execCommandLineLost
  repeat' (first | with_reducible assumption | lift_lets -underBinder | (intro x; have hx : a.Keeps x := (by repeat' (first | with_reducible assumption | lift_lets -underBinder | (with_reducible first | apply State.Keeps.ite | apply State.Keeps.saf | apply State.laneSs1_keeps | apply State.laneSto_keeps | apply State.levelEv_keeps | apply State.publishTo_keeps | apply done_keeps) | (first | split | (dsimp only [x]; split)) | (intro _))); clear_value x) | (intro x; clear_value x) | (with_reducible first | apply State.Keeps.ite | apply State.Keeps.saf | apply State.laneSs1_keeps | apply State.laneSto_keeps | apply State.levelEv_keeps | apply State.publishTo_keeps | apply done_keeps) | split | (intro _))

theorem State.limitCheck_keeps {a s : State} (h : a.Keeps s) :
    a.Keeps (State.limitCheck s) := by
  unfold State.limitCheck
  repeat' (first | (exact fun (_ : MonState) hx => hx) | with_reducible assumption | lift_lets -underBinder | (intro x; have hx : a.Keeps x := (by repeat' (first | (exact fun (_ : MonState) hx => hx) | with_reducible assumption | lift_lets -underBinder | (with_reducible first | apply State.Keeps.fold | apply State.Keeps.mon | apply State.trigSs1_keeps) | (intro _))); clear_value x) | (intro x; clear_value x) | (with_reducible first | apply State.Keeps.fold | apply State.Keeps.mon | apply State.trigSs1_keeps) | (intro _))

theorem execSpeedCompare_keeps {a s : State} (h : a.Keeps s) :
    OutKeeps a (execSpeedCompare s) := by
  unfold execSpeedCompare
  repeat' (first | (exact fun (_ : MonState) hx => hx) | with_reducible assumption | lift_lets -underBinder | (intro x; have hx : a.Keeps x := (by repeat' (first | (exact fun (_ : MonState) hx => hx) | with_reducible assumption | lift_lets -underBinder | (with_reducible first | apply State.Keeps.ite | apply State.Keeps.mon | apply State.publish_keeps | apply State.safEv_keeps | apply State.trigSs1_keeps | apply done_keeps) | (first | split | (dsimp only [x]; split)) | (intro _))); clear_value x) | (intro x; clear_value x) | (with_reducible first | apply State.Keeps.ite | apply State.Keeps.mon | apply State.publish_keeps | apply State.safEv_keeps | apply State.trigSs1_keeps | apply done_keeps) | split | (intro _))

theorem State.holdOne_keeps {a s : State} (h : a.Keeps s) (l : Lane) :
    a.Keeps (State.holdOne s l) := by
  unfold State.holdOne
  repeat' (first | (exact fun (_ : MonState) hx => hx) | with_reducible assumption | lift_lets -underBinder | (intro x; have hx : a.Keeps x := (by repeat' (first | (exact fun (_ : MonState) hx => hx) | with_reducible assumption | lift_lets -underBinder | (with_reducible first | apply State.Keeps.ite | apply State.Keeps.mon | apply State.holdSet_keeps | apply State.monLevel_keeps | apply State.placeSet_keeps | apply State.safEv_keeps | apply State.setFault_keeps) | (first | split | (dsimp only [x]; split)) | (intro _))); clear_value x) | (intro x; clear_value x) | (with_reducible first | apply State.Keeps.ite | apply State.Keeps.mon | apply State.holdSet_keeps | apply State.monLevel_keeps | apply State.placeSet_keeps | apply State.safEv_keeps | apply State.setFault_keeps) | split | (intro _))

theorem execTorqueMonitor_keeps {a s : State} (h : a.Keeps s) :
    OutKeeps a (execTorqueMonitor s) := by
  unfold execTorqueMonitor
  repeat' (first | (exact fun (_ : MonState) hx => hx) | with_reducible assumption | lift_lets -underBinder | (intro x; have hx : a.Keeps x := (by repeat' (first | (exact fun (_ : MonState) hx => hx) | with_reducible assumption | lift_lets -underBinder | (with_reducible first | apply State.Keeps.ite | apply State.Keeps.mon | apply State.holdOne_keeps | apply State.publish_keeps | apply State.trigSto_keeps | apply done_keeps) | (first | split | (dsimp only [x]; split)) | (intro _))); clear_value x) | (intro x; clear_value x) | (with_reducible first | apply State.Keeps.ite | apply State.Keeps.mon | apply State.holdOne_keeps | apply State.publish_keeps | apply State.trigSto_keeps | apply done_keeps) | split | (intro _))

theorem execSafKFeedback_keeps {a s : State} (h : a.Keeps s) (n : Fin 6) (closed : Bool) :
    OutKeeps a (execSafKFeedback n closed s) := by
  unfold execSafKFeedback
  repeat' (first | with_reducible assumption | lift_lets -underBinder | (intro x; have hx : a.Keeps x := (by repeat' (first | with_reducible assumption | lift_lets -underBinder | (with_reducible first | apply State.Keeps.ite | apply State.monEv_keeps | apply State.safEv_keeps | apply State.setKfb_keeps | apply done_keeps) | (first | split | (dsimp only [x]; split)) | (intro _))); clear_value x) | (intro x; clear_value x) | (with_reducible first | apply State.Keeps.ite | apply State.monEv_keeps | apply State.safEv_keeps | apply State.setKfb_keeps | apply done_keeps) | split | (intro _))

theorem execKTest_keeps {a s : State} (h : a.Keeps s) (n : Fin 6) :
    OutKeeps a (execKTest n s) := by
  unfold execKTest
  repeat' (first | (exact fun (_ : MonState) hx => hx) | with_reducible assumption | lift_lets -underBinder | (intro x; have hx : a.Keeps x := (by repeat' (first | (exact fun (_ : MonState) hx => hx) | with_reducible assumption | lift_lets -underBinder | (with_reducible first | apply State.Keeps.ite | apply State.Keeps.aon | apply State.Keeps.mon | apply State.showK_keeps | apply done_keeps) | (first | split | (dsimp only [x]; split)) | (intro _))); clear_value x) | (intro x; clear_value x) | (with_reducible first | apply State.Keeps.ite | apply State.Keeps.aon | apply State.Keeps.mon | apply State.showK_keeps | apply done_keeps) | split | (intro _))

theorem State.kTestEnd_keeps {a s : State} (h : a.Keeps s) (n : Fin 6) (pass : Bool) :
    a.Keeps (State.kTestEnd s n pass) := by
  unfold State.kTestEnd
  repeat' (first | (exact fun (_ : MonState) hx => hx) | with_reducible assumption | lift_lets -underBinder | (intro x; have hx : a.Keeps x := (by repeat' (first | (exact fun (_ : MonState) hx => hx) | with_reducible assumption | lift_lets -underBinder | (with_reducible first | apply State.Keeps.ite | apply State.Keeps.mon | apply State.monEv_keeps | apply State.publish_keeps | apply State.safEv_keeps) | (first | split | (dsimp only [x]; split)) | (intro _))); clear_value x) | (intro x; clear_value x) | (with_reducible first | apply State.Keeps.ite | apply State.Keeps.mon | apply State.monEv_keeps | apply State.publish_keeps | apply State.safEv_keeps) | split | (intro _))

theorem execKTestCheck_keeps {a s : State} (h : a.Keeps s) (n : Fin 6) (closed : Bool) :
    OutKeeps a (execKTestCheck n closed s) := by
  unfold execKTestCheck
  repeat' (first | (exact fun (_ : MonState) hx => hx) | with_reducible assumption | lift_lets -underBinder | (intro x; have hx : a.Keeps x := (by repeat' (first | (exact fun (_ : MonState) hx => hx) | with_reducible assumption | lift_lets -underBinder | (with_reducible first | apply State.Keeps.ite | apply State.Keeps.aon | apply State.Keeps.mon | apply State.kTestEnd_keeps | apply State.setKfb_keeps | apply State.showK_keeps | apply done_keeps) | (first | split | (dsimp only [x]; split)) | (intro _))); clear_value x) | (intro x; clear_value x) | (with_reducible first | apply State.Keeps.ite | apply State.Keeps.aon | apply State.Keeps.mon | apply State.kTestEnd_keeps | apply State.setKfb_keeps | apply State.showK_keeps | apply done_keeps) | split | (intro _))

theorem State.crossing_keeps {a s : State} (h : a.Keeps s) (k : Fin 2) (iu : BitVec 12) :
    a.Keeps (State.crossing s k iu) := by
  unfold State.crossing
  repeat' (first | (exact fun (_ : MonState) hx => hx) | with_reducible assumption | lift_lets -underBinder | (intro x; have hx : a.Keeps x := (by repeat' (first | (exact fun (_ : MonState) hx => hx) | with_reducible assumption | lift_lets -underBinder | (with_reducible first | apply State.Keeps.ite | apply State.Keeps.mon) | (first | split | (dsimp only [x]; split)) | (intro _))); clear_value x) | (intro x; clear_value x) | (with_reducible first | apply State.Keeps.ite | apply State.Keeps.mon) | split | (intro _))

theorem execMonConverterFrame_keeps {a s : State} (h : a.Keeps s) (f : MonFrame) :
    OutKeeps a (execMonConverterFrame f s) := by
  unfold execMonConverterFrame
  repeat' (first | (exact fun (_ : MonState) hx => hx) | with_reducible assumption | lift_lets -underBinder | (intro x; have hx : a.Keeps x := (by repeat' (first | (exact fun (_ : MonState) hx => hx) | with_reducible assumption | lift_lets -underBinder | (with_reducible first | apply State.Keeps.ite | apply State.Keeps.fold | apply State.Keeps.mon | apply State.crossing_keeps | apply State.monLevel_keeps | apply done_keeps) | (first | split | (dsimp only [x]; split)) | (intro _))); clear_value x) | (intro x; dsimp -zeta only [x]; clear x) | (intro x; clear_value x) | (with_reducible first | apply State.Keeps.ite | apply State.Keeps.fold | apply State.Keeps.mon | apply State.crossing_keeps | apply State.monLevel_keeps | apply done_keeps) | split | (intro _))

theorem execMonSelfTestFail_keeps {a s : State} (h : a.Keeps s) :
    OutKeeps a (execMonSelfTestFail s) := by
  unfold execMonSelfTestFail
  repeat' (first | (exact fun (_ : MonState) hx => hx) | with_reducible assumption | lift_lets -underBinder | (intro x; have hx : a.Keeps x := (by repeat' (first | (exact fun (_ : MonState) hx => hx) | with_reducible assumption | lift_lets -underBinder | (with_reducible first | apply State.Keeps.ite | apply State.Keeps.mon | apply State.monEv_keeps | apply done_keeps) | (first | split | (dsimp only [x]; split)) | (intro _))); clear_value x) | (intro x; clear_value x) | (with_reducible first | apply State.Keeps.ite | apply State.Keeps.mon | apply State.monEv_keeps | apply done_keeps) | split | (intro _))

end Sys2Proof.Machine
end

