-- ==== Sys2Proof/Laws/Keeps/Redundancy.lean ====
section
/-! SUPPORT. What the operations of Redundancy keep. -/
namespace Sys2Proof.Machine
set_option linter.all false
set_option Elab.async false

theorem State.standbyBridge_keeps {a s : State} (h : a.Keeps s) (l : Lane) :
    a.Keeps (State.standbyBridge s l) := by
  unfold State.standbyBridge
  repeat' (first | (exact State.smCmd_some (by assumption) (by with_reducible assumption)) | with_reducible assumption | (with_reducible first | apply State.Keeps.ite | apply State.smCmd_keeps | apply State.Keeps.getD) | (intro _))

theorem State.peerFails_keeps {a s : State} (h : a.Keeps s) (l : Lane) :
    a.Keeps (State.peerFails s l) := by
  unfold State.peerFails
  repeat' (first | (exact fun (_ : RedState) hx => hx) | with_reducible assumption | lift_lets -underBinder | (intro x; have hx : a.Keeps x := (by repeat' (first | (exact fun (_ : RedState) hx => hx) | with_reducible assumption | lift_lets -underBinder | (with_reducible first | apply State.Keeps.ite | apply State.Keeps.dcl | apply State.Keeps.red | apply State.bump_keeps | apply State.levelEv_keeps | apply State.putFlag_keeps | apply State.putWord_keeps | apply State.put_keeps | apply State.standbyBridge_keeps) | (first | split | (dsimp only [x]; split)) | (intro _))); clear_value x) | (intro x; clear_value x) | (with_reducible first | apply State.Keeps.ite | apply State.Keeps.dcl | apply State.Keeps.red | apply State.bump_keeps | apply State.levelEv_keeps | apply State.putFlag_keeps | apply State.putWord_keeps | apply State.put_keeps | apply State.standbyBridge_keeps) | split | (intro _))

theorem State.linkDown_keeps {a s : State} (h : a.Keeps s) (l : Lane) :
    a.Keeps (State.linkDown s l) := by
  unfold State.linkDown
  repeat' (first | (exact fun (_ : RedState) hx => hx) | (exact fun (_ : LaneState) hx => hx) | with_reducible assumption | lift_lets -underBinder | (intro x; have hx : a.Keeps x := (by repeat' (first | (exact fun (_ : RedState) hx => hx) | (exact fun (_ : LaneState) hx => hx) | with_reducible assumption | lift_lets -underBinder | (with_reducible first | apply State.Keeps.ite | apply State.Keeps.lane | apply State.Keeps.red | apply State.chgFault_keeps | apply State.levelEv_keeps | apply State.lockLost_keeps | apply State.putFlag_keeps) | (first | split | (dsimp only [x]; split)) | (intro _))); clear_value x) | (intro x; clear_value x) | (with_reducible first | apply State.Keeps.ite | apply State.Keeps.lane | apply State.Keeps.red | apply State.chgFault_keeps | apply State.levelEv_keeps | apply State.lockLost_keeps | apply State.putFlag_keeps) | split | (intro _))

theorem State.split_keeps {a s : State} (h : a.Keeps s) (l : Lane) :
    a.Keeps (State.split s l) := by
  unfold State.split
  repeat' (first | (exact fun (_ : RedState) hx => hx) | with_reducible assumption | lift_lets -underBinder | (intro x; have hx : a.Keeps x := (by repeat' (first | (exact fun (_ : RedState) hx => hx) | with_reducible assumption | lift_lets -underBinder | (with_reducible first | apply State.Keeps.ite | apply State.Keeps.red | apply State.levelEv_keeps | apply State.putFlag_keeps | apply State.put_keeps) | (intro _))); clear_value x) | (intro x; clear_value x) | (with_reducible first | apply State.Keeps.ite | apply State.Keeps.red | apply State.levelEv_keeps | apply State.putFlag_keeps | apply State.put_keeps) | (intro _))

theorem State.splitEnd_keeps {a s : State} (h : a.Keeps s) (l : Lane) :
    a.Keeps (State.splitEnd s l) := by
  unfold State.splitEnd
  repeat' (first | with_reducible assumption | lift_lets -underBinder | (intro x; have hx : a.Keeps x := (by repeat' (first | with_reducible assumption | lift_lets -underBinder | (with_reducible first | apply State.levelEv_keeps | apply State.pulseEv_keeps | apply State.putFlag_keeps | apply State.put_keeps) | (intro _))); clear_value x) | (intro x; clear_value x) | (with_reducible first | apply State.levelEv_keeps | apply State.pulseEv_keeps | apply State.putFlag_keeps | apply State.put_keeps) | (intro _))

theorem execStateCopy_keeps {a s : State} (h : a.Keeps s) (l : Lane) (c : StateCopy) (crcOk : Bool) :
    OutKeeps a (execStateCopy l c crcOk s) := by
  unfold execStateCopy
  repeat' (first | (exact fun (_ : RedState) hx => hx) | with_reducible assumption | lift_lets -underBinder | (intro x; have hx : a.Keeps x := (by repeat' (first | (exact fun (_ : RedState) hx => hx) | with_reducible assumption | lift_lets -underBinder | (with_reducible first | apply State.Keeps.ite | apply State.Keeps.act | apply State.Keeps.fold | apply State.Keeps.red | apply State.bump_keeps | apply State.linkDown_keeps | apply State.pulseEv_keeps | apply State.putFlag_keeps | apply State.putWord_keeps | apply State.put_keeps | apply done_keeps) | (first | split | (dsimp only [x]; split)) | (intro _))); clear_value x) | (intro x; clear_value x) | (with_reducible first | apply State.Keeps.ite | apply State.Keeps.act | apply State.Keeps.fold | apply State.Keeps.red | apply State.bump_keeps | apply State.linkDown_keeps | apply State.pulseEv_keeps | apply State.putFlag_keeps | apply State.putWord_keeps | apply State.put_keeps | apply done_keeps) | split | (intro _))

theorem State.hbMon_keeps {a s : State} (h : a.Keeps s) (x : Lane) (h' : Heartbeat) :
    a.Keeps (State.hbMon s x h') := by
  unfold State.hbMon
  repeat' (first | (exact fun (_ : MonState) hx => hx) | with_reducible assumption | lift_lets -underBinder | (intro x; have hx : a.Keeps x := (by repeat' (first | (exact fun (_ : MonState) hx => hx) | with_reducible assumption | lift_lets -underBinder | (with_reducible first | apply State.Keeps.ite | apply State.Keeps.mon | apply State.declare_keeps | apply State.limitCheck_keeps | apply State.monLevel_keeps | apply State.mputFlag_keeps | apply State.pgCheck_keeps) | (first | split | (dsimp only [x]; split)) | (intro _))); clear_value x) | (intro x; clear_value x) | (with_reducible first | apply State.Keeps.ite | apply State.Keeps.mon | apply State.declare_keeps | apply State.limitCheck_keeps | apply State.monLevel_keeps | apply State.mputFlag_keeps | apply State.pgCheck_keeps) | split | (intro _))

theorem State.hbDirectIn_keeps {a s : State} (h : a.Keeps s) (l : Lane) (h' : Heartbeat) (crcOk : Bool) :
    a.Keeps (State.hbDirectIn s l h' crcOk) := by
  unfold State.hbDirectIn
  repeat' (first | (exact fun (_ : RedState) hx => hx) | with_reducible assumption | lift_lets -underBinder | (intro x; have hx : a.Keeps x := (by repeat' (first | (exact fun (_ : RedState) hx => hx) | with_reducible assumption | lift_lets -underBinder | (with_reducible first | apply State.Keeps.ite | apply State.Keeps.red | apply State.bump_keeps | apply State.linkDown_keeps | apply State.pulseEv_keeps | apply State.put_keeps) | (intro _))); clear_value x) | (intro x; clear_value x) | (with_reducible first | apply State.Keeps.ite | apply State.Keeps.red | apply State.bump_keeps | apply State.linkDown_keeps | apply State.pulseEv_keeps | apply State.put_keeps) | (intro _))

theorem execHeartbeat_keeps {a s : State} (h : a.Keeps s) (p : HbPath) (h' : Heartbeat) (crcOk : Bool) :
    OutKeeps a (execHeartbeat p h' crcOk s) := by
  unfold execHeartbeat
  repeat' (first | (exact fun (_ : RedState) hx => hx) | with_reducible assumption | (with_reducible first | apply State.Keeps.ite | apply State.Keeps.red | apply State.hbDirectIn_keeps | apply State.hbMon_keeps | apply done_keeps) | split | (intro _))

theorem State.relayBack_keeps {a s : State} (h : a.Keeps s) (l : Lane) :
    a.Keeps (State.relayBack s l) := by
  unfold State.relayBack
  repeat' (first | (exact fun (_ : RedState) hx => hx) | with_reducible assumption | lift_lets -underBinder | (intro x; have hx : a.Keeps x := (by repeat' (first | (exact fun (_ : RedState) hx => hx) | with_reducible assumption | lift_lets -underBinder | (with_reducible first | apply State.Keeps.ite | apply State.Keeps.red | apply State.askSto_keeps | apply State.levelEv_keeps | apply State.putFlag_keeps | apply State.showSel_keeps) | (first | split | (dsimp only [x]; split)) | (intro _))); clear_value x) | (intro x; clear_value x) | (with_reducible first | apply State.Keeps.ite | apply State.Keeps.red | apply State.askSto_keeps | apply State.levelEv_keeps | apply State.putFlag_keeps | apply State.showSel_keeps) | split | (intro _))

theorem execRelayFrame_keeps {a s : State} (h : a.Keeps s) (l : Lane) :
    OutKeeps a (execRelayFrame l s) := by
  unfold execRelayFrame
  repeat' (first | (exact fun (_ : RedState) hx => hx) | with_reducible assumption | lift_lets -underBinder | (intro x; have hx : a.Keeps x := (by repeat' (first | (exact fun (_ : RedState) hx => hx) | with_reducible assumption | lift_lets -underBinder | (with_reducible first | apply State.Keeps.ite | apply State.Keeps.red | apply State.peerFails_keeps | apply State.relayBack_keeps | apply State.selfFail_keeps | apply done_keeps) | (first | split | (dsimp only [x]; split)) | (intro _))); clear_value x) | (intro x; clear_value x) | (with_reducible first | apply State.Keeps.ite | apply State.Keeps.red | apply State.peerFails_keeps | apply State.relayBack_keeps | apply State.selfFail_keeps | apply done_keeps) | split | (intro _))

theorem State.laneWindow_keeps {a s : State} (h : a.Keeps s) (l : Lane) :
    a.Keeps (State.laneWindow s l) := by
  unfold State.laneWindow
  repeat' (first | (exact fun (_ : RedState) hx => hx) | with_reducible assumption | lift_lets -underBinder | (intro x; have hx : a.Keeps x := (by repeat' (first | (exact fun (_ : RedState) hx => hx) | with_reducible assumption | lift_lets -underBinder | (with_reducible first | apply State.Keeps.ite | apply State.Keeps.red | apply State.bump_keeps | apply State.levelEv_keeps | apply State.linkDown_keeps | apply State.peerFails_keeps | apply State.pulseEv_keeps | apply State.putFlag_keeps | apply State.splitEnd_keeps | apply State.split_keeps) | (first | split | (dsimp only [x]; split)) | (intro _))); clear_value x) | (intro x; clear_value x) | (with_reducible first | apply State.Keeps.ite | apply State.Keeps.red | apply State.bump_keeps | apply State.levelEv_keeps | apply State.linkDown_keeps | apply State.peerFails_keeps | apply State.pulseEv_keeps | apply State.putFlag_keeps | apply State.splitEnd_keeps | apply State.split_keeps) | split | (intro _))

theorem State.monWindow_keeps {a s : State} (h : a.Keeps s) (x : Lane) :
    a.Keeps (State.monWindow s x) := by
  unfold State.monWindow
  repeat' (first | (exact fun (_ : MonState) hx => hx) | with_reducible assumption | lift_lets -underBinder | (intro x; have hx : a.Keeps x := (by repeat' (first | (exact fun (_ : MonState) hx => hx) | with_reducible assumption | lift_lets -underBinder | (with_reducible first | apply State.Keeps.ite | apply State.Keeps.mon | apply State.declare_keeps | apply State.holdSet_keeps | apply State.monEv_keeps | apply State.monLevel_keeps | apply State.mputFlag_keeps | apply State.pgCheck_keeps | apply State.placeSet_keeps | apply State.publish_keeps) | (first | split | (dsimp only [x]; split)) | (intro _))); clear_value x) | (intro x; clear_value x) | (with_reducible first | apply State.Keeps.ite | apply State.Keeps.mon | apply State.declare_keeps | apply State.holdSet_keeps | apply State.monEv_keeps | apply State.monLevel_keeps | apply State.mputFlag_keeps | apply State.pgCheck_keeps | apply State.placeSet_keeps | apply State.publish_keeps) | split | (intro _))

theorem execHeartbeatWindow_keeps {a s : State} (h : a.Keeps s) (w : Seer) (x : Lane) :
    OutKeeps a (execHeartbeatWindow w x s) := by
  unfold execHeartbeatWindow
  repeat' (first | with_reducible assumption | (with_reducible first | apply State.laneWindow_keeps | apply State.monWindow_keeps | apply done_keeps) | split | (intro _))

theorem execSplitTimeout_keeps {a s : State} (h : a.Keeps s) (l : Lane) :
    OutKeeps a (execSplitTimeout l s) := by
  unfold execSplitTimeout
  repeat' (first | with_reducible assumption | lift_lets -underBinder | (intro x; have hx : a.Keeps x := (by repeat' (first | with_reducible assumption | lift_lets -underBinder | (with_reducible first | apply State.Keeps.ite | apply State.fresh_keeps | apply State.ownSs1Start_keeps | apply State.pulseEv_keeps | apply State.put_keeps | apply done_keeps) | (first | split | (dsimp only [x]; split)) | (intro _))); clear_value x) | (intro x; clear_value x) | (with_reducible first | apply State.Keeps.ite | apply State.fresh_keeps | apply State.ownSs1Start_keeps | apply State.pulseEv_keeps | apply State.put_keeps | apply done_keeps) | split | (intro _))

theorem execAutoReset_keeps {a s : State} (h : a.Keeps s) (x : Lane) :
    OutKeeps a (execAutoReset x s) := by
  unfold execAutoReset
  repeat' (first | (exact fun (_ : MonState) hx => hx) | with_reducible assumption | lift_lets -underBinder | (intro x; have hx : a.Keeps x := (by repeat' (first | (exact fun (_ : MonState) hx => hx) | with_reducible assumption | lift_lets -underBinder | (with_reducible first | apply State.Keeps.ite | apply State.Keeps.mon | apply State.enterReset_keeps | apply State.monEv_keeps | apply State.mputFlag_keeps | apply done_keeps) | (first | split | (dsimp only [x]; split)) | (intro _))); clear_value x) | (intro x; clear_value x) | (with_reducible first | apply State.Keeps.ite | apply State.Keeps.mon | apply State.enterReset_keeps | apply State.monEv_keeps | apply State.mputFlag_keeps | apply done_keeps) | split | (intro _))

theorem State.unretire_keeps {a s : State} (h : a.Keeps s) (l : Lane) (x : Lane) :
    a.Keeps (State.unretire s l x) := by
  unfold State.unretire
  repeat' (first | with_reducible assumption | lift_lets -underBinder | (intro x; have hx : a.Keeps x := (by repeat' (first | with_reducible assumption | lift_lets -underBinder | (with_reducible first | apply State.Keeps.ite | apply State.Keeps.hold | apply State.mputFlag_keeps | apply State.reject_keeps | apply State.release_keeps | apply State.reply_keeps) | (first | split | (dsimp only [x]; split)) | (intro _))); clear_value x) | (intro x; clear_value x) | (with_reducible first | apply State.Keeps.ite | apply State.Keeps.hold | apply State.mputFlag_keeps | apply State.reject_keeps | apply State.release_keeps | apply State.reply_keeps) | split | (intro _))

theorem execUnretireA_keeps {a s : State} (h : a.Keeps s) (l : Lane) :
    OutKeeps a (execUnretireA l s) := by
  unfold execUnretireA
  repeat' (first | with_reducible assumption | (with_reducible first | apply State.unretire_keeps | apply State.writing_keeps | apply done_keeps) | (intro _))

theorem execUnretireB_keeps {a s : State} (h : a.Keeps s) (l : Lane) :
    OutKeeps a (execUnretireB l s) := by
  unfold execUnretireB
  repeat' (first | with_reducible assumption | (with_reducible first | apply State.unretire_keeps | apply State.writing_keeps | apply done_keeps) | (intro _))

theorem State.showJournal_keeps {a s : State} (h : a.Keeps s) (l : Lane) :
    a.Keeps (State.showJournal s l) := by
  unfold State.showJournal
  repeat' (first | with_reducible assumption | (with_reducible first | apply State.put_keeps) | (intro _))

theorem State.showSeq_keeps {a s : State} (h : a.Keeps s) (l : Lane) :
    a.Keeps (State.showSeq s l) := by
  unfold State.showSeq
  repeat' (first | with_reducible assumption | lift_lets -underBinder | (intro x; have hx : a.Keeps x := (by repeat' (first | with_reducible assumption | lift_lets -underBinder | (with_reducible first | apply State.put_keeps) | (intro _))); clear_value x) | (intro x; dsimp -zeta only [x]; clear x) | (intro x; clear_value x) | (with_reducible first | apply State.put_keeps) | (intro _))

theorem State.accept_keeps {a s : State} (h : a.Keeps s) (l : Lane) (k : Fin 4) (n : BitVec 16) (st : Status) :
    a.Keeps (State.accept s l k n st) := by
  unfold State.accept
  repeat' (first | (exact fun (_ : LaneState) hx => hx) | with_reducible assumption | lift_lets -underBinder | (intro x; have hx : a.Keeps x := (by repeat' (first | (exact fun (_ : LaneState) hx => hx) | with_reducible assumption | lift_lets -underBinder | (with_reducible first | apply State.Keeps.ite | apply State.Keeps.lane | apply State.showSeq_keeps) | (intro _))); clear_value x) | (intro x; clear_value x) | (with_reducible first | apply State.Keeps.ite | apply State.Keeps.lane | apply State.showSeq_keeps) | (intro _))

theorem State.journalIn_keeps {a s : State} (h : a.Keeps s) (l : Lane) (e : JEntry) : a.Keeps (State.journalIn s l e) := by
  unfold State.journalIn
  refine State.Keeps.ite (fun _ => State.accept_keeps h ..) (fun _ => State.Keeps.ite (fun _ => h) (fun hn => ?_))
  refine State.showJournal_keeps (h.laneOf l _ ?_) ..
  rintro ⟨h1, h2, h3, h4, h5, h6⟩
  refine ⟨h1, h2, h3, h4, ?_, h6⟩
  simp only [Bool.or_eq_true, decide_eq_true_eq, not_or, ge_iff_le, Nat.not_le] at hn
  simp only [List.length_append, List.length_cons, List.length_nil]
  omega

theorem execJournalEntry_keeps {a s : State} (h : a.Keeps s) (l : Lane) (e : JEntry) :
    OutKeeps a (execJournalEntry l e s) := by
  unfold execJournalEntry
  repeat' (first | with_reducible assumption | (with_reducible first | apply State.Keeps.ite | apply State.journalIn_keeps | apply done_keeps) | split | (intro _))

theorem execLinkRetrain_keeps {a s : State} (h : a.Keeps s) (l : Lane) (ok : Bool) :
    OutKeeps a (execLinkRetrain l ok s) := by
  unfold execLinkRetrain
  repeat' (first | with_reducible assumption | lift_lets -underBinder | (intro x; have hx : a.Keeps x := (by repeat' (first | with_reducible assumption | lift_lets -underBinder | (with_reducible first | apply State.Keeps.ite | apply State.bump_keeps | apply State.putFlag_keeps | apply done_keeps) | (first | split | (dsimp only [x]; split)) | (intro _))); clear_value x) | (intro x; clear_value x) | (with_reducible first | apply State.Keeps.ite | apply State.bump_keeps | apply State.putFlag_keeps | apply done_keeps) | split | (intro _))

theorem State.showImage_keeps {a s : State} (h : a.Keeps s) (l : Lane) :
    a.Keeps (State.showImage s l) := by
  unfold State.showImage
  repeat' (first | with_reducible assumption | (with_reducible first | apply State.putFlag_keeps) | split | (intro _))

theorem State.setMismatch_keeps {a s : State} (h : a.Keeps s) (l : Lane) (b : Bool) :
    a.Keeps (State.setMismatch s l b) := by
  unfold State.setMismatch
  repeat' (first | with_reducible assumption | (with_reducible first | apply State.Keeps.boot | apply State.levelEv_keeps | apply State.showImage_keeps) | (intro _))

theorem State.compareImages_keeps {a s : State} (h : a.Keeps s) :
    a.Keeps (State.compareImages s) := by
  unfold State.compareImages
  repeat' (first | with_reducible assumption | lift_lets -underBinder | (intro x; have hx : a.Keeps x := (by repeat' (first | with_reducible assumption | lift_lets -underBinder | (with_reducible first | apply State.Keeps.ite | apply State.Keeps.both | apply State.pairMatch_keeps | apply State.putFlag_keeps | apply State.setMismatch_keeps | apply State.showImage_keeps) | (first | split | (dsimp only [x]; split)) | (intro _))); clear_value x) | (intro x; clear_value x) | (with_reducible first | apply State.Keeps.ite | apply State.Keeps.both | apply State.pairMatch_keeps | apply State.putFlag_keeps | apply State.setMismatch_keeps | apply State.showImage_keeps) | split | (intro _))

theorem execLinkUp_keeps {a s : State} (h : a.Keeps s) (l : Lane) :
    OutKeeps a (execLinkUp l s) := by
  unfold execLinkUp
  repeat' (first | (exact fun (_ : RedState) hx => hx) | with_reducible assumption | lift_lets -underBinder | (intro x; have hx : a.Keeps x := (by repeat' (first | (exact fun (_ : RedState) hx => hx) | with_reducible assumption | lift_lets -underBinder | (with_reducible first | apply State.Keeps.ite | apply State.Keeps.red | apply State.compareImages_keeps | apply State.levelEv_keeps | apply State.pulseEv_keeps | apply State.putFlag_keeps | apply done_keeps) | (first | split | (dsimp only [x]; split)) | (intro _))); clear_value x) | (intro x; clear_value x) | (with_reducible first | apply State.Keeps.ite | apply State.Keeps.red | apply State.compareImages_keeps | apply State.levelEv_keeps | apply State.pulseEv_keeps | apply State.putFlag_keeps | apply done_keeps) | split | (intro _))

theorem State.countRunning_keeps {a s : State} (h : a.Keeps s) (x : Lane) (free : Bool) : a.Keeps (State.countRunning s x free) := by
  unfold State.countRunning
  lift_lets -underBinder
  intro s1
  have h1 : a.Keeps s1 := by
    refine h.mon _ (fun m hm => ?_)
    split <;> exact hm
  clear_value s1
  repeat' (first | with_reducible assumption | (intro y; have hy : a.Keeps y := (by dsimp only [y]; repeat' (first | with_reducible assumption | (with_reducible first | apply State.Keeps.ite | apply State.Keeps.red | apply State.levelEv_keeps | apply State.mputFlag_keeps | apply State.put_keeps) | (exact fun (_ : RedState) hx => hx) | split | (intro _))); clear_value y) | (intro y; clear_value y) | (with_reducible first | apply State.Keeps.ite | apply State.placeSet_keeps | apply State.publish_keeps) | (intro _))

theorem State.runAlone_keeps {a s : State} (h : a.Keeps s) (l : Lane) :
    a.Keeps (State.runAlone s l) := by
  unfold State.runAlone
  repeat' (first | (exact fun (_ : RedState) hx => hx) | with_reducible assumption | lift_lets -underBinder | (intro x; have hx : a.Keeps x := (by repeat' (first | (exact fun (_ : RedState) hx => hx) | with_reducible assumption | lift_lets -underBinder | (with_reducible first | apply State.Keeps.ite | apply State.Keeps.red | apply State.countRunning_keeps | apply State.driveToken_keeps | apply State.put_keeps) | (first | split | (dsimp only [x]; split)) | (intro _))); clear_value x) | (intro x; clear_value x) | (with_reducible first | apply State.Keeps.ite | apply State.Keeps.red | apply State.countRunning_keeps | apply State.driveToken_keeps | apply State.put_keeps) | split | (intro _))

theorem State.configure_keeps {a s : State} (h : a.Keeps s) (l : Lane) (c : List (Nat × Word)) : a.Keeps (State.configure s l c) := by
  unfold State.configure
  refine State.Keeps.fold _ _ h (fun s aw hs => ?_)
  dsimp only
  refine State.Keeps.ite (fun _ => hs) (fun _ => ?_)
  split
  · exact hs
  · refine State.Keeps.ite (fun _ => ?_) (fun _ => State.putWord_keeps hs ..)
    exact (State.putWord_keeps hs ..).mon _ (fun m hm => ⟨RegFile.write_wf _ _ _ hm.1, hm.2⟩)

theorem State.loadImage_keeps {a s : State} (h : a.Keeps s) (l : Lane) (bs : List (Nat × Byte)) :
    a.Keeps (State.loadImage s l bs) := by
  unfold State.loadImage
  refine h.mem l _ (fun _ hm => ?_) (fun _ => ⟨rfl, rfl, rfl, rfl, rfl⟩)
  dsimp only
  generalize (s.lane l).mem = m at hm
  induction bs generalizing m with
  | nil => exact hm
  | cons c t ih =>
    refine ih _ ?_
    dsimp only
    split
    · exact memWrite_wf _ _ _ _ hm
    · exact hm

theorem State.startUp_keeps {a s : State} (h : a.Keeps s) (l : Lane) :
    a.Keeps (State.startUp s l) := by
  unfold State.startUp
  repeat' (first | (exact fun (_ : RedState) hx => hx) | with_reducible assumption | lift_lets -underBinder | (intro x; have hx : a.Keeps x := (by repeat' (first | (exact fun (_ : RedState) hx => hx) | with_reducible assumption | lift_lets -underBinder | (with_reducible first | apply State.Keeps.ite | apply State.Keeps.boot | apply State.Keeps.red | apply State.clsJudge_keeps | apply State.commitTable_keeps | apply State.compareImages_keeps | apply State.configure_keeps | apply State.loadImage_keeps | apply State.putFlag_keeps | apply State.put_keeps | apply State.runAlone_keeps | apply State.showK_keeps | apply State.showMmax_keeps) | (first | split | (dsimp only [x]; split)) | (intro _))); clear_value x) | (intro x; clear_value x) | (with_reducible first | apply State.Keeps.ite | apply State.Keeps.boot | apply State.Keeps.red | apply State.clsJudge_keeps | apply State.commitTable_keeps | apply State.compareImages_keeps | apply State.configure_keeps | apply State.loadImage_keeps | apply State.putFlag_keeps | apply State.put_keeps | apply State.runAlone_keeps | apply State.showK_keeps | apply State.showMmax_keeps) | split | (intro _))

theorem execControlReady_keeps {a s : State} (h : a.Keeps s) (l : Lane) :
    OutKeeps a (execControlReady l s) := by
  unfold execControlReady
  repeat' (first | (exact fun (_ : RedState) hx => hx) | with_reducible assumption | lift_lets -underBinder | (intro x; have hx : a.Keeps x := (by repeat' (first | (exact fun (_ : RedState) hx => hx) | with_reducible assumption | lift_lets -underBinder | (with_reducible first | apply State.Keeps.ite | apply State.Keeps.red | apply State.startUp_keeps | apply done_keeps) | (first | split | (dsimp only [x]; split)) | (intro _))); clear_value x) | (intro x; clear_value x) | (with_reducible first | apply State.Keeps.ite | apply State.Keeps.red | apply State.startUp_keeps | apply done_keeps) | split | (intro _))

theorem State.seedFrom_keeps {a s : State} (h : a.Keeps s) (l : Lane) (p : Lane) :
    a.Keeps (State.seedFrom s l p) := by
  unfold State.seedFrom
  repeat' (first | (exact fun (_ : LaneState) hx => hx) | with_reducible assumption | lift_lets -underBinder | (intro x; have hx : a.Keeps x := (by repeat' (first | (exact fun (_ : LaneState) hx => hx) | with_reducible assumption | lift_lets -underBinder | (with_reducible first | apply State.Keeps.lane | apply State.showSeq_keeps) | (intro _))); clear_value x) | (intro x; clear_value x) | (with_reducible first | apply State.Keeps.lane | apply State.showSeq_keeps) | (intro _))

theorem execPeerReturn_keeps {a s : State} (h : a.Keeps s) (l : Lane) :
    OutKeeps a (execPeerReturn l s) := by
  unfold execPeerReturn
  repeat' (first | (exact fun (_ : RedState) hx => hx) | with_reducible assumption | lift_lets -underBinder | (intro x; have hx : a.Keeps x := (by repeat' (first | (exact fun (_ : RedState) hx => hx) | with_reducible assumption | lift_lets -underBinder | (with_reducible first | apply State.Keeps.ite | apply State.Keeps.red | apply State.countRunning_keeps | apply State.pulseEv_keeps | apply State.putFlag_keeps | apply State.put_keeps | apply State.seedFrom_keeps | apply done_keeps) | (first | split | (dsimp only [x]; split)) | (intro _))); clear_value x) | (intro x; clear_value x) | (with_reducible first | apply State.Keeps.ite | apply State.Keeps.red | apply State.countRunning_keeps | apply State.pulseEv_keeps | apply State.putFlag_keeps | apply State.put_keeps | apply State.seedFrom_keeps | apply done_keeps) | split | (intro _))

theorem execReturnDone_keeps {a s : State} (h : a.Keeps s) (l : Lane) :
    OutKeeps a (execReturnDone l s) := by
  unfold execReturnDone
  repeat' (first | with_reducible assumption | (with_reducible first | apply State.Keeps.ite | apply State.pulseEv_keeps | apply State.putFlag_keeps | apply done_keeps) | split | (intro _))

theorem State.redCtrl_keeps {a s : State} (h : a.Keeps s) (l : Lane) (ok : State → Bool) (f : State → State) (hf : ∀ s, a.Keeps s → a.Keeps (f s)) :
    a.Keeps (State.redCtrl s l ok f) := by
  unfold State.redCtrl
  repeat' (first | with_reducible assumption | (with_reducible first | apply State.Keeps.ite | apply State.reject_keeps | apply State.reply_keeps | apply State.writing_keeps | apply hok | apply hf) | (intro _))

theorem State.splitContinue_keeps {a s : State} (h : a.Keeps s) (l : Lane) :
    a.Keeps (State.splitContinue s l) := by
  unfold State.splitContinue
  repeat' (first | (exact fun (_ : RedState) hx => hx) | with_reducible assumption | lift_lets -underBinder | (intro x; have hx : a.Keeps x := (by repeat' (first | (exact fun (_ : RedState) hx => hx) | with_reducible assumption | lift_lets -underBinder | (with_reducible first | apply State.Keeps.ite | apply State.Keeps.red | apply State.put_keeps) | (intro _))); clear_value x) | (intro x; clear_value x) | (with_reducible first | apply State.Keeps.ite | apply State.Keeps.red | apply State.put_keeps) | (intro _))

theorem execSplitContinue_keeps {a s : State} (h : a.Keeps s) (l : Lane) :
    OutKeeps a (execSplitContinue l s) := by
  unfold execSplitContinue
  repeat' (first | with_reducible assumption | (with_reducible first | apply State.redCtrl_keeps | apply State.splitContinue_keeps | apply done_keeps) | (intro _))

theorem execSplitSs1_keeps {a s : State} (h : a.Keeps s) (l : Lane) :
    OutKeeps a (execSplitSs1 l s) := by
  unfold execSplitSs1
  repeat' (first | with_reducible assumption | (with_reducible first | apply State.ownSs1Start_keeps | apply State.redCtrl_keeps | apply done_keeps) | (intro _))

theorem State.rejoinNow_keeps {a s : State} (h : a.Keeps s) (l : Lane) :
    a.Keeps (State.rejoinNow s l) := by
  unfold State.rejoinNow
  repeat' (first | (exact fun (_ : RedState) hx => hx) | with_reducible assumption | (with_reducible first | apply State.Keeps.red | apply State.putFlag_keeps) | (intro _))

theorem execRejoin_keeps {a s : State} (h : a.Keeps s) (l : Lane) :
    OutKeeps a (execRejoin l s) := by
  unfold execRejoin
  repeat' (first | with_reducible assumption | (with_reducible first | apply State.redCtrl_keeps | apply State.rejoinNow_keeps | apply done_keeps) | (intro _))

theorem State.moveAsk_keeps {a s : State} (h : a.Keeps s) :
    a.Keeps (State.moveAsk s) := by
  unfold State.moveAsk
  repeat' (first | (exact fun (_ : MonState) hx => hx) | with_reducible assumption | (with_reducible first | apply State.Keeps.mon) | (intro _))

theorem execTokenMove_keeps {a s : State} (h : a.Keeps s) (l : Lane) :
    OutKeeps a (execTokenMove l s) := by
  unfold execTokenMove
  repeat' (first | with_reducible assumption | (with_reducible first | apply State.moveAsk_keeps | apply State.redCtrl_keeps | apply done_keeps) | (intro _))

theorem State.takeStates_keeps {a s : State} (h : a.Keeps s) (l : Lane) (c : StateCopy) :
    a.Keeps (State.takeStates s l c) := by
  unfold State.takeStates
  repeat' (first | with_reducible assumption | lift_lets -underBinder | (intro x; have hx : a.Keeps x := (by repeat' (first | with_reducible assumption | lift_lets -underBinder | (with_reducible first | apply State.Keeps.chg | apply State.Keeps.fold | apply State.putFlag_keeps | apply State.putWord_keeps | apply State.put_keeps) | (intro _))); clear_value x) | (intro x; clear_value x) | (with_reducible first | apply State.Keeps.chg | apply State.Keeps.fold | apply State.putFlag_keeps | apply State.putWord_keeps | apply State.put_keeps) | (intro _))

theorem State.takeLoops_keeps {a s : State} (h : a.Keeps s) (l : Lane) :
    a.Keeps (State.takeLoops s l) := by
  unfold State.takeLoops
  repeat' (first | with_reducible assumption | lift_lets -underBinder | (intro x; have hx : a.Keeps x := (by repeat' (first | with_reducible assumption | lift_lets -underBinder | (with_reducible first | apply State.Keeps.ite | apply State.Keeps.fold | apply State.loopAsk_keeps) | (first | split | (dsimp only [x]; split)) | (intro _))); clear_value x) | (intro x; clear_value x) | (with_reducible first | apply State.Keeps.ite | apply State.Keeps.fold | apply State.loopAsk_keeps) | split | (intro _))

theorem State.renewS2_keeps {a s : State} (h : a.Keeps s) (l : Lane) :
    a.Keeps (State.renewS2 s l) := by
  unfold State.renewS2
  repeat' (first | with_reducible assumption | lift_lets -underBinder | (intro x; have hx : a.Keeps x := (by repeat' (first | with_reducible assumption | lift_lets -underBinder | (with_reducible first | apply State.Keeps.ite | apply State.putFlag_keeps) | (intro _))); clear_value x) | (intro x; clear_value x) | (with_reducible first | apply State.Keeps.ite | apply State.putFlag_keeps) | (intro _))

theorem State.continueFrom_keeps {a s : State} (h : a.Keeps s) (l : Lane) :
    a.Keeps (State.continueFrom s l) := by
  unfold State.continueFrom
  repeat' (first | with_reducible assumption | (with_reducible first | apply State.renewS2_keeps | apply State.takeLoops_keeps | apply State.takeStates_keeps) | split | (intro _))

theorem execTokenMoveExecute_keeps {a s : State} (h : a.Keeps s) :
    OutKeeps a (execTokenMoveExecute s) := by
  unfold execTokenMoveExecute
  repeat' (first | (exact fun (_ : MonState) hx => hx) | with_reducible assumption | (with_reducible first | apply State.Keeps.ite | apply State.Keeps.mon | apply State.continueFrom_keeps | apply State.driveToken_keeps | apply done_keeps) | split | (intro _))

theorem State.retestNow_keeps {a s : State} (h : a.Keeps s) (l : Lane) :
    a.Keeps (State.retestNow s l) := by
  unfold State.retestNow
  repeat' (first | (exact fun (_ : RedState) hx => hx) | with_reducible assumption | lift_lets -underBinder | (intro x; have hx : a.Keeps x := (by repeat' (first | (exact fun (_ : RedState) hx => hx) | with_reducible assumption | lift_lets -underBinder | (with_reducible first | apply State.Keeps.ite | apply State.Keeps.red | apply State.put_keeps | apply State.reject_keeps | apply State.reply_keeps) | (intro _))); clear_value x) | (intro x; clear_value x) | (with_reducible first | apply State.Keeps.ite | apply State.Keeps.red | apply State.put_keeps | apply State.reject_keeps | apply State.reply_keeps) | (intro _))

theorem execRetest_keeps {a s : State} (h : a.Keeps s) (l : Lane) :
    OutKeeps a (execRetest l s) := by
  unfold execRetest
  repeat' (first | with_reducible assumption | (with_reducible first | apply State.Keeps.ite | apply State.reject_keeps | apply State.retestNow_keeps | apply done_keeps) | split | (intro _))

theorem execRetestDone_keeps {a s : State} (h : a.Keeps s) (l : Lane) (pass : Bool) :
    OutKeeps a (execRetestDone l pass s) := by
  unfold execRetestDone
  repeat' (first | (exact fun (_ : RedState) hx => hx) | with_reducible assumption | lift_lets -underBinder | (intro x; have hx : a.Keeps x := (by repeat' (first | (exact fun (_ : RedState) hx => hx) | with_reducible assumption | lift_lets -underBinder | (with_reducible first | apply State.Keeps.ite | apply State.Keeps.boot | apply State.Keeps.red | apply State.levelEv_keeps | apply State.put_keeps | apply State.startUp_keeps | apply done_keeps) | (first | split | (dsimp only [x]; split)) | (intro _))); clear_value x) | (intro x; clear_value x) | (with_reducible first | apply State.Keeps.ite | apply State.Keeps.boot | apply State.Keeps.red | apply State.levelEv_keeps | apply State.put_keeps | apply State.startUp_keeps | apply done_keeps) | split | (intro _))

theorem State.clrJrnl_keeps {a s : State} (h : a.Keeps s) (l : Lane) :
    a.Keeps (State.clrJrnl s l) := by
  unfold State.clrJrnl
  repeat' (first | with_reducible assumption | (with_reducible first | apply State.put_keeps) | (intro _))

theorem State.clrFo_keeps {a s : State} (h : a.Keeps s) (l : Lane) :
    a.Keeps (State.clrFo s l) := by
  unfold State.clrFo
  repeat' (first | with_reducible assumption | (with_reducible first | apply State.put_keeps) | (intro _))

theorem State.clrConj_keeps {a s : State} (h : a.Keeps s) (l : Lane) :
    a.Keeps (State.clrConj s l) := by
  unfold State.clrConj
  repeat' (first | with_reducible assumption | (with_reducible first | apply State.putWord_keeps) | (intro _))

theorem execRedClrJrnl_keeps {a s : State} (h : a.Keeps s) (l : Lane) :
    OutKeeps a (execRedClrJrnl l s) := by
  unfold execRedClrJrnl
  repeat' (first | with_reducible assumption | (with_reducible first | apply State.clrJrnl_keeps | apply State.reply_keeps | apply State.writing_keeps | apply done_keeps) | (intro _))

theorem execRedClrFo_keeps {a s : State} (h : a.Keeps s) (l : Lane) :
    OutKeeps a (execRedClrFo l s) := by
  unfold execRedClrFo
  repeat' (first | with_reducible assumption | (with_reducible first | apply State.clrFo_keeps | apply State.reply_keeps | apply State.writing_keeps | apply done_keeps) | (intro _))

theorem execConjClrCnt_keeps {a s : State} (h : a.Keeps s) (l : Lane) :
    OutKeeps a (execConjClrCnt l s) := by
  unfold execConjClrCnt
  repeat' (first | with_reducible assumption | (with_reducible first | apply State.clrConj_keeps | apply State.reply_keeps | apply State.writing_keeps | apply done_keeps) | (intro _))

end Sys2Proof.Machine
end

