-- ==== Sys2Proof/Laws/Keeps/Can.lean ====
section
/-! SUPPORT. What the operations of Can keep. -/
namespace Sys2Proof.Machine
set_option linter.all false
set_option Elab.async false

theorem State.modCan_keeps {a s : State} (h : a.Keeps s) (l : Lane) (c : Fin 2) (f : CanState → CanState)
    (hf : (s.can l c).Fits → (f (s.can l c)).Fits) : a.Keeps (State.modCan s l c f) := by
  refine h.laneOf l _ (fun hx => ?_)
  obtain ⟨h1, h2, h3, h4, h5, h6⟩ := hx
  refine ⟨h1, h2, h3, h4, h5, fun d => ?_⟩
  by_cases e : c = d
  · subst e
    have := hf (h6 c)
    simpa [State.can] using this
  · have : c.val ≠ d.val := fun z => e (Fin.ext z)
    simpa [this] using h6 d

theorem CanState.fits_atPhase (x : CanState) (p : BusPhase) (h : x.Fits) : (x.atPhase p).Fits := by
  cases p <;> exact h

theorem CanState.fits_putEntry (x : CanState) (k : Nat) (e : Option TxEntry) (h : x.Fits) : (x.putEntry k e).Fits := by
  unfold CanState.putEntry
  split
  · obtain ⟨h1, h2, h3⟩ := h
    refine ⟨?_, h2, h3⟩
    simp only [List.length_append, List.length_tail]
    cases e <;> simp <;> omega
  · split
    · exact h
    · exact h

theorem State.canPhase_keeps {a s : State} (h : a.Keeps s) (l : Lane) (c : Fin 2) (p : BusPhase) : a.Keeps (State.canPhase s l c p) := by
  unfold State.canPhase
  refine State.modCan_keeps h l c _ ?_
  exact CanState.fits_atPhase (s.can l c) _

theorem State.showCan_keeps {a s : State} (h : a.Keeps s) (l : Lane) (c : Fin 2) :
    a.Keeps (State.showCan s l c) := by
  unfold State.showCan
  repeat' (first | with_reducible assumption | lift_lets -underBinder | (intro x; have hx : a.Keeps x := (by repeat' (first | with_reducible assumption | lift_lets -underBinder | (with_reducible first | apply State.Keeps.fold | apply State.pend_keeps | apply State.put_keeps) | (intro _))); clear_value x) | (intro x; clear_value x) | (with_reducible first | apply State.Keeps.fold | apply State.pend_keeps | apply State.put_keeps) | (intro _))

theorem CanState.fits_done (x : CanState) (d : TxDone) (h : x.Fits) :
    CanState.Fits { x with txc := (if x.txc.length ≥ 32 then x.txc.tail else x.txc) ++ [d] } := by
  obtain ⟨h1, h2, h3⟩ := h
  refine ⟨h1, ?_, h3⟩
  simp only [List.length_append, List.length_cons, List.length_nil]
  split
  · simp only [List.length_tail]; omega
  · omega

theorem State.canDone_keeps {a s : State} (h : a.Keeps s) (l : Lane) (c : Fin 2) (e : TxEntry) (src result : Nat) (ts : BitVec 64) :
    a.Keeps (State.canDone s l c e src result ts) := by
  unfold State.canDone
  dsimp only
  refine State.pulseEv_keeps (State.showCan_keeps ?_ ..) ..
  have k : ∀ d : TxDone, a.Keeps (s.modCan l c (fun x => { x with txc := (if x.txc.length ≥ 32 then x.txc.tail else x.txc) ++ [d] })) :=
    fun d => State.modCan_keeps h l c _ (fun hx => CanState.fits_done _ d hx)
  refine State.Keeps.ite (fun _ => State.bump_keeps (k _) ..) (fun _ => State.Keeps.ite (fun _ =>
    State.pulseEv_keeps (State.bump_keeps (k _) ..) ..) (fun _ => k _))

theorem State.freshTs_keeps {a s : State} (h : a.Keeps s) : a.Keeps s.freshTs.2 := h

theorem State.canNoAck_keeps {a s : State} (h : a.Keeps s) (l : Lane) (c : Fin 2) :
    a.Keeps (State.canNoAck s l c) := by
  unfold State.canNoAck
  repeat' (first | with_reducible assumption | (with_reducible first | apply State.bump_keeps | apply State.pulseEv_keeps) | (intro _))

theorem State.canErrState_keeps {a s : State} (h : a.Keeps s) (l : Lane) (c : Fin 2) (tec : Nat) (rec_ : Nat) :
    a.Keeps (State.canErrState s l c tec rec_) := by
  unfold State.canErrState
  repeat' (first | (exact fun hx => hx) | (exact fun hx => CanState.fits_atPhase _ _ hx) | (exact fun hx => CanState.fits_putEntry _ _ _ hx) | with_reducible assumption | lift_lets -underBinder | (intro x; have hx : a.Keeps x := (by repeat' (first | (exact fun hx => hx) | (exact fun hx => CanState.fits_atPhase _ _ hx) | (exact fun hx => CanState.fits_putEntry _ _ _ hx) | with_reducible assumption | lift_lets -underBinder | (with_reducible first | apply State.Keeps.ite | apply State.fresh_keeps | apply State.levelEv_keeps | apply State.modCan_keeps | apply State.putFlag_keeps | apply State.put_keeps) | (first | split | (dsimp only [x]; split)) | (intro _))); clear_value x) | (intro x; clear_value x) | (with_reducible first | apply State.Keeps.ite | apply State.fresh_keeps | apply State.levelEv_keeps | apply State.modCan_keeps | apply State.putFlag_keeps | apply State.put_keeps) | split | (intro _))

theorem State.canBusOff_keeps {a s : State} (h : a.Keeps s) (l : Lane) (c : Fin 2) :
    a.Keeps (State.canBusOff s l c) := by
  unfold State.canBusOff
  repeat' (first | (exact fun hx => hx) | (exact fun hx => CanState.fits_atPhase _ _ hx) | (exact fun hx => CanState.fits_putEntry _ _ _ hx) | with_reducible assumption | lift_lets -underBinder | (intro x; have hx : a.Keeps x := (by repeat' (first | (exact fun hx => hx) | (exact fun hx => CanState.fits_atPhase _ _ hx) | (exact fun hx => CanState.fits_putEntry _ _ _ hx) | with_reducible assumption | lift_lets -underBinder | (with_reducible first | apply State.bump_keeps | apply State.fresh_keeps | apply State.levelEv_keeps | apply State.modCan_keeps | apply State.put_keeps) | (intro _))); clear_value x) | (intro x; clear_value x) | (with_reducible first | apply State.bump_keeps | apply State.fresh_keeps | apply State.levelEv_keeps | apply State.modCan_keeps | apply State.put_keeps) | (intro _))

theorem State.canEnd_keeps {a s : State} (h : a.Keeps s) (l : Lane) (c : Fin 2) (src : Nat) (e : TxEntry) (result : Nat) (ts : BitVec 64) :
    a.Keeps (State.canEnd s l c src e result ts) := by
  unfold State.canEnd
  repeat' (first | (exact fun hx => hx) | (exact fun hx => CanState.fits_atPhase _ _ hx) | (exact fun hx => CanState.fits_putEntry _ _ _ hx) | with_reducible assumption | (with_reducible first | apply State.canDone_keeps | apply State.modCan_keeps) | (intro _))

theorem State.canDrop_keeps {a s : State} (h : a.Keeps s) (l : Lane) (c : Fin 2) (e : TxEntry) (src : Nat) (result : Nat) :
    a.Keeps (State.canDrop s l c e src result) := by
  unfold State.canDrop
  repeat' (first | with_reducible assumption | lift_lets -underBinder | (intro x; have hx : a.Keeps x := (by repeat' (first | with_reducible assumption | lift_lets -underBinder | (with_reducible first | apply State.canDone_keeps | apply State.freshTs_keeps) | (intro _))); clear_value x) | (intro x; clear_value x) | (with_reducible first | apply State.canDone_keeps | apply State.freshTs_keeps) | (intro _))

theorem State.canDiscard_keeps {a s : State} (h : a.Keeps s) (l : Lane) (c : Fin 2) :
    a.Keeps (State.canDiscard s l c) := by
  unfold State.canDiscard
  repeat' (first | (exact fun hx => ⟨Nat.zero_le _, hx.2⟩) | with_reducible assumption | lift_lets -underBinder | (intro x; have hx : a.Keeps x := (by repeat' (first | (exact fun hx => ⟨Nat.zero_le _, hx.2⟩) | with_reducible assumption | lift_lets -underBinder | (with_reducible first | apply State.Keeps.fold | apply State.canDrop_keeps | apply State.modCan_keeps) | (first | split | (dsimp only [x]; split)) | (intro _))); clear_value x) | (intro x; clear_value x) | (with_reducible first | apply State.Keeps.fold | apply State.canDrop_keeps | apply State.modCan_keeps) | split | (intro _))

theorem State.canInit_keeps {a s : State} (h : a.Keeps s) (l : Lane) (c : Fin 2) (b : Bool) :
    EffKeeps a (State.canInit s l c b) := by
  unfold State.canInit
  repeat' (first | (exact fun hx => hx) | (exact fun hx => CanState.fits_atPhase _ _ hx) | (exact fun hx => CanState.fits_putEntry _ _ _ hx) | with_reducible assumption | lift_lets -underBinder | (intro x; have hx : a.Keeps x := (by repeat' (first | (exact fun hx => hx) | (exact fun hx => CanState.fits_atPhase _ _ hx) | (exact fun hx => CanState.fits_putEntry _ _ _ hx) | with_reducible assumption | lift_lets -underBinder | (with_reducible first | apply State.Keeps.ite | apply State.canDiscard_keeps | apply State.canErrState_keeps | apply State.levelEv_keeps | apply State.modCan_keeps | apply State.putFlag_keeps | apply State.put_keeps | apply State.Keeps.effOk | apply State.Keeps.effError) | (first | split | (dsimp only [x]; split)) | (intro _))); clear_value x) | (intro x; clear_value x) | (with_reducible first | apply State.Keeps.ite | apply State.canDiscard_keeps | apply State.canErrState_keeps | apply State.levelEv_keeps | apply State.modCan_keeps | apply State.putFlag_keeps | apply State.put_keeps | apply State.Keeps.effOk | apply State.Keeps.effError) | split | (intro _))

theorem State.canInit_some {a s t : State} {l : Lane} {c : Fin 2} {b : Bool}
    (e : State.canInit s l c b = .ok t) (h : a.Keeps s) : a.Keeps t := State.canInit_keeps h _ _ _ t e

theorem execCanInit_keeps {a s : State} (h : a.Keeps s) (l : Lane) (c : Fin 2) (b : Bool) :
    OutKeeps a (execCanInit l c b s) := by
  unfold execCanInit
  repeat' (first | (exact State.canInit_some (by assumption) (by with_reducible assumption)) | with_reducible assumption | (with_reducible first | apply State.canInit_keeps | apply State.settleWrite_keeps | apply State.writing_keeps | apply done_keeps) | (intro _))

theorem execBusIntegration_keeps {a s : State} (h : a.Keeps s) (l : Lane) (c : Fin 2) :
    OutKeeps a (execBusIntegration l c s) := by
  unfold execBusIntegration
  repeat' (first | (exact fun hx => hx) | (exact fun hx => CanState.fits_atPhase _ _ hx) | (exact fun hx => CanState.fits_putEntry _ _ _ hx) | with_reducible assumption | lift_lets -underBinder | (intro x; have hx : a.Keeps x := (by repeat' (first | (exact fun hx => hx) | (exact fun hx => CanState.fits_atPhase _ _ hx) | (exact fun hx => CanState.fits_putEntry _ _ _ hx) | with_reducible assumption | lift_lets -underBinder | (with_reducible first | apply State.Keeps.ite | apply State.canErrState_keeps | apply State.modCan_keeps | apply State.put_keeps | apply done_keeps) | (first | split | (dsimp only [x]; split)) | (intro _))); clear_value x) | (intro x; clear_value x) | (with_reducible first | apply State.Keeps.ite | apply State.canErrState_keeps | apply State.modCan_keeps | apply State.put_keeps | apply done_keeps) | split | (intro _))

theorem State.canPush_keeps {a s : State} (h : a.Keeps s) (l : Lane) (c : Fin 2) (dest : Nat) :
    EffKeeps a (State.canPush s l c dest) := by
  unfold State.canPush
  dsimp only
  repeat' (first | with_reducible assumption | (with_reducible first | apply State.Keeps.effError) | split)
  · rename_i hn
    refine State.Keeps.effOk (State.showCan_keeps (State.modCan_keeps h l c _ ?_) ..)
    rintro ⟨h1, h2, h3⟩
    exact ⟨by simp only [List.length_append, List.length_cons, List.length_nil]; omega, h2, h3⟩
  · exact State.Keeps.effOk (State.showCan_keeps (State.modCan_keeps h l c _ (fun hx => CanState.fits_putEntry _ _ _ hx)) ..)

theorem State.canPush_some {a s t : State} {l : Lane} {c : Fin 2} {dest : Nat}
    (e : State.canPush s l c dest = .ok t) (h : a.Keeps s) : a.Keeps t := State.canPush_keeps h _ _ _ t e

theorem execTxPush_keeps {a s : State} (h : a.Keeps s) (l : Lane) (c : Fin 2) (dest : BitVec 3) (p : BusPhase) :
    OutKeeps a (execTxPush l c dest p s) := by
  unfold execTxPush
  repeat' (first | with_reducible assumption | lift_lets -underBinder | (intro x; have hx : a.Keeps x := (by repeat' (first | with_reducible assumption | lift_lets -underBinder | (with_reducible first | apply State.canPhase_keeps | apply State.canPush_keeps | apply State.settleWrite_keeps | apply State.writing_keeps | apply done_keeps) | (intro _))); clear_value x) | (intro x; clear_value x) | (with_reducible first | apply State.canPhase_keeps | apply State.canPush_keeps | apply State.settleWrite_keeps | apply State.writing_keeps | apply done_keeps) | (intro _))

theorem State.cancelSrc_keeps {a s : State} (h : a.Keeps s) (l : Lane) (c : Fin 2) (src : Nat) :
    a.Keeps (State.cancelSrc s l c src) := by
  unfold State.cancelSrc
  repeat' (first | (exact fun hx => hx) | (exact fun hx => CanState.fits_atPhase _ _ hx) | (exact fun hx => CanState.fits_putEntry _ _ _ hx) | with_reducible assumption | (with_reducible first | apply State.Keeps.ite | apply State.canDrop_keeps | apply State.modCan_keeps) | split | (intro _))

theorem cancelTagIn_length (tag : Byte) (xs : List TxEntry) : (cancelTagIn tag xs).1.length ≤ xs.length := by
  induction xs with
  | nil => exact Nat.le_refl _
  | cons e t ih =>
    unfold cancelTagIn
    split
    · simp
    · simp only [List.length_cons]; omega

theorem State.canCancel_keeps {a s : State} (h : a.Keeps s) (l : Lane) (c : Fin 2) (kind sel : Nat) :
    a.Keeps (State.canCancel s l c kind sel) := by
  unfold State.canCancel
  dsimp only
  split
  · split
    · exact State.showCan_keeps (State.cancelSrc_keeps h ..) ..
    · split
      · rename_i rest e he
        refine State.showCan_keeps (State.canDrop_keeps (State.modCan_keeps h l c _ ?_) ..) ..
        rintro ⟨h1, h2, h3⟩
        have := cancelTagIn_length (BitVec.ofNat 8 sel) (s.can l c).fifo
        rw [he] at this
        exact ⟨Nat.le_trans this h1, h2, h3⟩
      · exact h
  · exact State.showCan_keeps (State.cancelSrc_keeps h ..) ..
  · refine State.showCan_keeps (State.Keeps.fold _ _ (State.Keeps.fold _ _ (State.cancelSrc_keeps (State.modCan_keeps h l c _ ?_) ..)
      (fun t x ht => State.canDrop_keeps ht ..)) (fun t x ht => State.cancelSrc_keeps ht ..)) ..
    rintro ⟨h1, h2, h3⟩
    exact ⟨by simp only [List.length_take]; omega, h2, h3⟩
  · exact h

theorem State.cancelVia_keeps {a s : State} (h : a.Keeps s) (l : Lane) (c : Fin 2) (p : BusPhase) (kind : Nat) (sel : Nat) :
    a.Keeps (State.cancelVia s l c p kind sel) := by
  unfold State.cancelVia
  repeat' (first | with_reducible assumption | (with_reducible first | apply State.canCancel_keeps | apply State.canPhase_keeps | apply State.reply_keeps | apply State.writing_keeps) | (intro _))

theorem execCancelTag_keeps {a s : State} (h : a.Keeps s) (l : Lane) (c : Fin 2) (tag : Byte) (p : BusPhase) :
    OutKeeps a (execCancelTag l c tag p s) := by
  unfold execCancelTag
  repeat' (first | with_reducible assumption | (with_reducible first | apply State.cancelVia_keeps | apply done_keeps) | (intro _))

theorem execCancelSlot_keeps {a s : State} (h : a.Keeps s) (l : Lane) (c : Fin 2) (k : Fin 4) (p : BusPhase) :
    OutKeeps a (execCancelSlot l c k p s) := by
  unfold execCancelSlot
  repeat' (first | with_reducible assumption | (with_reducible first | apply State.cancelVia_keeps | apply done_keeps) | (intro _))

theorem execCancelAll_keeps {a s : State} (h : a.Keeps s) (l : Lane) (c : Fin 2) (p : BusPhase) :
    OutKeeps a (execCancelAll l c p s) := by
  unfold execCancelAll
  repeat' (first | with_reducible assumption | (with_reducible first | apply State.cancelVia_keeps | apply done_keeps) | (intro _))

theorem State.canPopRx_keeps {a s : State} (h : a.Keeps s) (l : Lane) (c : Fin 2) : a.Keeps (State.canPopRx s l c) := by
  refine State.showCan_keeps (State.modCan_keeps h l c _ ?_) ..
  rintro ⟨h1, h2, h3⟩
  exact ⟨h1, h2, by simp only [List.length_tail]; omega⟩

theorem State.canPopTxc_keeps {a s : State} (h : a.Keeps s) (l : Lane) (c : Fin 2) : a.Keeps (State.canPopTxc s l c) := by
  refine State.showCan_keeps (State.modCan_keeps h l c _ ?_) ..
  rintro ⟨h1, h2, h3⟩
  exact ⟨h1, by simp only [List.length_tail]; omega, h3⟩

theorem execPopRx_keeps {a s : State} (h : a.Keeps s) (l : Lane) (c : Fin 2) :
    OutKeeps a (execPopRx l c s) := by
  unfold execPopRx
  repeat' (first | with_reducible assumption | (with_reducible first | apply State.canPopRx_keeps | apply State.reply_keeps | apply State.writing_keeps | apply done_keeps) | (intro _))

theorem execPopTxc_keeps {a s : State} (h : a.Keeps s) (l : Lane) (c : Fin 2) :
    OutKeeps a (execPopTxc l c s) := by
  unfold execPopTxc
  repeat' (first | with_reducible assumption | (with_reducible first | apply State.canPopTxc_keeps | apply State.reply_keeps | apply State.writing_keeps | apply done_keeps) | (intro _))

theorem State.canRecReq_keeps {a s : State} (h : a.Keeps s) (l : Lane) (c : Fin 2) :
    a.Keeps (State.canRecReq s l c) := by
  unfold State.canRecReq
  repeat' (first | (exact fun hx => hx) | (exact fun hx => CanState.fits_atPhase _ _ hx) | (exact fun hx => CanState.fits_putEntry _ _ _ hx) | with_reducible assumption | (with_reducible first | apply State.Keeps.ite | apply State.modCan_keeps) | (intro _))

theorem execRecReq_keeps {a s : State} (h : a.Keeps s) (l : Lane) (c : Fin 2) :
    OutKeeps a (execRecReq l c s) := by
  unfold execRecReq
  repeat' (first | with_reducible assumption | (with_reducible first | apply State.canRecReq_keeps | apply State.reply_keeps | apply State.writing_keeps | apply done_keeps) | (intro _))

theorem State.canClrOvf_keeps {a s : State} (h : a.Keeps s) (l : Lane) (c : Fin 2) :
    a.Keeps (State.canClrOvf s l c) := by
  unfold State.canClrOvf
  repeat' (first | with_reducible assumption | (with_reducible first | apply State.put_keeps) | (intro _))

theorem State.canClrCnt_keeps {a s : State} (h : a.Keeps s) (l : Lane) (c : Fin 2) :
    a.Keeps (State.canClrCnt s l c) := by
  unfold State.canClrCnt
  repeat' (first | with_reducible assumption | (with_reducible first | apply State.putWord_keeps) | (intro _))

theorem execCanClrOvf_keeps {a s : State} (h : a.Keeps s) (l : Lane) (c : Fin 2) :
    OutKeeps a (execCanClrOvf l c s) := by
  unfold execCanClrOvf
  repeat' (first | with_reducible assumption | (with_reducible first | apply State.canClrOvf_keeps | apply State.reply_keeps | apply State.writing_keeps | apply done_keeps) | (intro _))

theorem execCanClrCnt_keeps {a s : State} (h : a.Keeps s) (l : Lane) (c : Fin 2) :
    OutKeeps a (execCanClrCnt l c s) := by
  unfold execCanClrCnt
  repeat' (first | with_reducible assumption | (with_reducible first | apply State.canClrCnt_keeps | apply State.reply_keeps | apply State.writing_keeps | apply done_keeps) | (intro _))

theorem State.canAttempt_pair {a s t : State} {l : Lane} {c : Fin 2} {o : Option (Nat × TxEntry)}
    (e : s.canAttempt l c = (o, t)) (h : a.Keeps s) : a.Keeps t := by
  have : t = s.canPhase l c .before := by
    have := congrArg Prod.snd e
    exact this.symm
  rw [this]
  exact State.canPhase_keeps h ..

theorem execArbitrationLost_keeps {a s : State} (h : a.Keeps s) (l : Lane) (c : Fin 2) (age : Nat) :
    OutKeeps a (execArbitrationLost l c age s) := by
  unfold execArbitrationLost
  repeat' (first | (exact State.canAttempt_pair (by assumption) (by with_reducible assumption)) | with_reducible assumption | lift_lets -underBinder | (intro x; have hx : a.Keeps x := (by repeat' (first | (exact State.canAttempt_pair (by assumption) (by with_reducible assumption)) | with_reducible assumption | lift_lets -underBinder | (with_reducible first | apply State.Keeps.ite | apply State.canAttempt_keeps | apply State.canEnd_keeps | apply State.canNoAck_keeps | apply done_keeps) | (first | split | (dsimp only [x]; split)) | (intro _))); clear_value x) | (intro x; clear_value x) | (with_reducible first | apply State.Keeps.ite | apply State.canAttempt_keeps | apply State.canEnd_keeps | apply State.canNoAck_keeps | apply done_keeps) | split | (intro _))

theorem State.canToCls_keeps {a s : State} (h : a.Keeps s) (l : Lane) (c : Fin 2) (f : CanFrame) :
    a.Keeps (State.canToCls s l c f) := by
  unfold State.canToCls
  repeat' (first | (exact fun (_ : LaneState) hx => hx) | with_reducible assumption | (with_reducible first | apply State.Keeps.ite | apply State.Keeps.fold | apply State.Keeps.lane) | (intro _))

theorem State.canStore_keeps {a s : State} (h : a.Keeps s) (l : Lane) (c : Fin 2) (r : RxFrame) : a.Keeps (State.canStore s l c r) := by
  unfold State.canStore
  refine State.Keeps.ite (fun _ => State.pulseEv_keeps (State.bump_keeps h ..) ..) (fun hn => ?_)
  dsimp only
  have k : a.Keeps ((s.modCan l c (fun x => { x with rx := x.rx ++ [r] })).showCan l c) := by
    refine State.showCan_keeps (State.modCan_keeps h l c _ ?_) ..
    rintro ⟨h1, h2, h3⟩
    exact ⟨h1, h2, by simp only [List.length_append, List.length_cons, List.length_nil]; omega⟩
  exact State.Keeps.ite (fun _ => State.pulseEv_keeps k ..) (fun _ => k)

theorem State.canTake_keeps {a s : State} (h : a.Keeps s) (l : Lane) (c : Fin 2) (f : CanFrame) (age : Nat) :
    a.Keeps (State.canTake s l c f age) := by
  unfold State.canTake
  repeat' (first | with_reducible assumption | lift_lets -underBinder | (intro x; have hx : a.Keeps x := (by repeat' (first | with_reducible assumption | lift_lets -underBinder | (with_reducible first | apply State.Keeps.ite | apply State.canStore_keeps | apply State.canToCls_keeps) | (first | split | (dsimp only [x]; split)) | (intro _))); clear_value x) | (intro x; clear_value x) | (with_reducible first | apply State.Keeps.ite | apply State.canStore_keeps | apply State.canToCls_keeps) | split | (intro _))

theorem execCanRxFrame_keeps {a s : State} (h : a.Keeps s) (l : Lane) (c : Fin 2) (f : CanFrame) (age : Nat) :
    OutKeeps a (execCanRxFrame l c f age s) := by
  unfold execCanRxFrame
  repeat' (first | with_reducible assumption | lift_lets -underBinder | (intro x; have hx : a.Keeps x := (by repeat' (first | with_reducible assumption | lift_lets -underBinder | (with_reducible first | apply State.Keeps.ite | apply State.canErrState_keeps | apply State.canTake_keeps | apply State.fresh_keeps | apply done_keeps) | (first | split | (dsimp only [x]; split)) | (intro _))); clear_value x) | (intro x; clear_value x) | (with_reducible first | apply State.Keeps.ite | apply State.canErrState_keeps | apply State.canTake_keeps | apply State.fresh_keeps | apply done_keeps) | split | (intro _))

theorem execTxComplete_keeps {a s : State} (h : a.Keeps s) (l : Lane) (c : Fin 2) (age : Nat) :
    OutKeeps a (execTxComplete l c age s) := by
  unfold execTxComplete
  repeat' (first | (exact State.canAttempt_pair (by assumption) (by with_reducible assumption)) | with_reducible assumption | lift_lets -underBinder | (intro x; have hx : a.Keeps x := (by repeat' (first | (exact State.canAttempt_pair (by assumption) (by with_reducible assumption)) | with_reducible assumption | lift_lets -underBinder | (with_reducible first | apply State.Keeps.ite | apply State.canAttempt_keeps | apply State.canEnd_keeps | apply State.canErrState_keeps | apply State.canTake_keeps | apply done_keeps) | (first | split | (dsimp only [x]; split)) | (intro _))); clear_value x) | (intro x; clear_value x) | (with_reducible first | apply State.Keeps.ite | apply State.canAttempt_keeps | apply State.canEnd_keeps | apply State.canErrState_keeps | apply State.canTake_keeps | apply done_keeps) | split | (intro _))

theorem State.canErr_keeps {a s : State} (h : a.Keeps s) (l : Lane) (c : Fin 2) (err : Nat) (data : Bool) :
    a.Keeps (State.canErr s l c err data) := by
  unfold State.canErr
  repeat' (first | with_reducible assumption | (with_reducible first | apply State.Keeps.ite | apply State.put_keeps) | (intro _))

theorem execTxError_keeps {a s : State} (h : a.Keeps s) (l : Lane) (c : Fin 2) (err : BitVec 3) (data : Bool) (dominant : Bool) (spared : Bool) (age : Nat) :
    OutKeeps a (execTxError l c err data dominant spared age s) := by
  unfold execTxError
  repeat' (first | (exact fun hx => hx) | (exact fun hx => CanState.fits_atPhase _ _ hx) | (exact fun hx => CanState.fits_putEntry _ _ _ hx) | (exact State.canAttempt_pair (by assumption) (by with_reducible assumption)) | with_reducible assumption | lift_lets -underBinder | (intro x; have hx : a.Keeps x := (by repeat' (first | (exact fun hx => hx) | (exact fun hx => CanState.fits_atPhase _ _ hx) | (exact fun hx => CanState.fits_putEntry _ _ _ hx) | (exact State.canAttempt_pair (by assumption) (by with_reducible assumption)) | with_reducible assumption | lift_lets -underBinder | (with_reducible first | apply State.Keeps.ite | apply State.canAttempt_keeps | apply State.canBusOff_keeps | apply State.canEnd_keeps | apply State.canErrState_keeps | apply State.canErr_keeps | apply State.canNoAck_keeps | apply State.modCan_keeps | apply done_keeps) | (first | split | (dsimp only [x]; split)) | (intro _))); clear_value x) | (intro x; clear_value x) | (with_reducible first | apply State.Keeps.ite | apply State.canAttempt_keeps | apply State.canBusOff_keeps | apply State.canEnd_keeps | apply State.canErrState_keeps | apply State.canErr_keeps | apply State.canNoAck_keeps | apply State.modCan_keeps | apply done_keeps) | split | (intro _))

theorem execBusOffRecovery_keeps {a s : State} (h : a.Keeps s) (l : Lane) (c : Fin 2) :
    OutKeeps a (execBusOffRecovery l c s) := by
  unfold execBusOffRecovery
  repeat' (first | (exact fun hx => hx) | (exact fun hx => CanState.fits_atPhase _ _ hx) | (exact fun hx => CanState.fits_putEntry _ _ _ hx) | with_reducible assumption | lift_lets -underBinder | (intro x; have hx : a.Keeps x := (by repeat' (first | (exact fun hx => hx) | (exact fun hx => CanState.fits_atPhase _ _ hx) | (exact fun hx => CanState.fits_putEntry _ _ _ hx) | with_reducible assumption | lift_lets -underBinder | (with_reducible first | apply State.Keeps.ite | apply State.canErrState_keeps | apply State.levelEv_keeps | apply State.modCan_keeps | apply State.put_keeps | apply done_keeps) | (first | split | (dsimp only [x]; split)) | (intro _))); clear_value x) | (intro x; clear_value x) | (with_reducible first | apply State.Keeps.ite | apply State.canErrState_keeps | apply State.levelEv_keeps | apply State.modCan_keeps | apply State.put_keeps | apply done_keeps) | split | (intro _))

theorem execCanRxError_keeps {a s : State} (h : a.Keeps s) (l : Lane) (c : Fin 2) (err : BitVec 3) (data : Bool) (eight : Bool) :
    OutKeeps a (execCanRxError l c err data eight s) := by
  unfold execCanRxError
  repeat' (first | with_reducible assumption | lift_lets -underBinder | (intro x; have hx : a.Keeps x := (by repeat' (first | with_reducible assumption | lift_lets -underBinder | (with_reducible first | apply State.Keeps.ite | apply State.canErrState_keeps | apply State.canErr_keeps | apply done_keeps) | (first | split | (dsimp only [x]; split)) | (intro _))); clear_value x) | (intro x; clear_value x) | (with_reducible first | apply State.Keeps.ite | apply State.canErrState_keeps | apply State.canErr_keeps | apply done_keeps) | split | (intro _))

theorem execCanProtocolException_keeps {a s : State} (h : a.Keeps s) (l : Lane) (c : Fin 2) :
    OutKeeps a (execCanProtocolException l c s) := by
  unfold execCanProtocolException
  repeat' (first | (exact fun hx => hx) | (exact fun hx => CanState.fits_atPhase _ _ hx) | (exact fun hx => CanState.fits_putEntry _ _ _ hx) | with_reducible assumption | lift_lets -underBinder | (intro x; have hx : a.Keeps x := (by repeat' (first | (exact fun hx => hx) | (exact fun hx => CanState.fits_atPhase _ _ hx) | (exact fun hx => CanState.fits_putEntry _ _ _ hx) | with_reducible assumption | lift_lets -underBinder | (with_reducible first | apply State.Keeps.ite | apply State.modCan_keeps | apply State.pulseEv_keeps | apply State.put_keeps | apply done_keeps) | (first | split | (dsimp only [x]; split)) | (intro _))); clear_value x) | (intro x; clear_value x) | (with_reducible first | apply State.Keeps.ite | apply State.modCan_keeps | apply State.pulseEv_keeps | apply State.put_keeps | apply done_keeps) | split | (intro _))

end Sys2Proof.Machine
end

