-- ==== Sys2Proof/Laws/Keeps/Mem.lean ====
section
/-! SUPPORT. What the operations of Mem keep. -/
namespace Sys2Proof.Machine
set_option linter.all false
set_option Elab.async false

theorem State.loseBank_keeps {a s : State} (h : a.Keeps s) (l : Lane) (b : Nat) : a.Keeps (State.loseBank s l b) := by
  unfold State.loseBank
  refine State.Keeps.ite (fun _ => h.red l _ (fun _ hr => hr)) (fun _ => State.Keeps.ite (fun _ => ?_) (fun _ =>
    State.Keeps.ite (fun _ => h.lane l _ (fun _ hx => hx)) (fun _ => ?_)))
  · exact State.put_keeps (h.red l _ (fun _ _ => Nat.zero_le _)) ..
  · dsimp only
    have hb : a.Keeps (if (b == 15) = true then s.modBoot l (fun x => { x with sine := false }) else s) :=
      State.Keeps.ite (fun _ => h.boot l _) (fun _ => h)
    exact hb.mem l _ (fun _ hm => (Memory.filter_wf _ _ _ hm).1) (fun _ => ⟨rfl, rfl, rfl, rfl, rfl⟩)

theorem State.memPwr_keeps {a s : State} (h : a.Keeps s) (l : Lane) (w : Word) :
    EffKeeps a (State.memPwr s l w) := by
  unfold State.memPwr
  repeat' (first | (exact fun (_ : LaneState) hx => hx) | with_reducible assumption | lift_lets -underBinder | (intro x; have hx : a.Keeps x := (by repeat' (first | (exact fun (_ : LaneState) hx => hx) | with_reducible assumption | lift_lets -underBinder | (with_reducible first | apply State.Keeps.ite | apply State.Keeps.fold | apply State.Keeps.lane | apply State.loseBank_keeps | apply State.putFlag_keeps | apply State.put_keeps | apply State.Keeps.effOk | apply State.Keeps.effError) | (first | split | (dsimp only [x]; split)) | (intro _))); clear_value x) | (intro x; dsimp -zeta only [x]; clear x) | (intro x; clear_value x) | (with_reducible first | apply State.Keeps.ite | apply State.Keeps.fold | apply State.Keeps.lane | apply State.loseBank_keeps | apply State.putFlag_keeps | apply State.put_keeps | apply State.Keeps.effOk | apply State.Keeps.effError) | split | (intro _))

theorem State.memPwr_some {a s t : State} {l : Lane} {w0 : Word}
    (e : State.memPwr s l w0 = .ok t) (h : a.Keeps s) : a.Keeps t := State.memPwr_keeps h _ _ t e

theorem execMemPwr_keeps {a s : State} (h : a.Keeps s) (l : Lane) (w : Word) :
    OutKeeps a (execMemPwr l w s) := by
  unfold execMemPwr
  repeat' (first | (exact State.memPwr_some (by assumption) (by with_reducible assumption)) | with_reducible assumption | (with_reducible first | apply State.memPwr_keeps | apply State.settleWrite_keeps | apply State.writing_keeps | apply done_keeps) | (intro _))

theorem execMemPwrDone_keeps {a s : State} (h : a.Keeps s) (l : Lane) (b : Fin 16) :
    OutKeeps a (execMemPwrDone l b s) := by
  unfold execMemPwrDone
  repeat' (first | with_reducible assumption | (with_reducible first | apply State.Keeps.ite | apply State.putFlag_keeps | apply done_keeps) | split | (intro _))

theorem State.eccError_keeps {a s : State} (h : a.Keeps s) (l : Lane) (b : Nat) (word : Nat) (double : Bool) (scrub : Bool) :
    a.Keeps (State.eccError s l b word double scrub) := by
  unfold State.eccError
  repeat' (first | with_reducible assumption | lift_lets -underBinder | (intro x; have hx : a.Keeps x := (by repeat' (first | with_reducible assumption | lift_lets -underBinder | (with_reducible first | apply State.Keeps.ite | apply State.bump_keeps | apply State.pulseEv_keeps | apply State.putFlag_keeps | apply State.put_keeps | apply State.selfFail_keeps | apply State.warmRestart_keeps) | (intro _))); clear_value x) | (intro x; clear_value x) | (with_reducible first | apply State.Keeps.ite | apply State.bump_keeps | apply State.pulseEv_keeps | apply State.putFlag_keeps | apply State.put_keeps | apply State.selfFail_keeps | apply State.warmRestart_keeps) | (intro _))

theorem execScrub_keeps {a s : State} (h : a.Keeps s) (l : Lane) (b : Fin 16) (e : Option Bool) :
    OutKeeps a (execScrub l b e s) := by
  unfold execScrub
  repeat' (first | (exact fun (_ : LaneState) hx => hx) | with_reducible assumption | lift_lets -underBinder | (intro x; have hx : a.Keeps x := (by repeat' (first | (exact fun (_ : LaneState) hx => hx) | with_reducible assumption | lift_lets -underBinder | (with_reducible first | apply State.Keeps.ite | apply State.Keeps.lane | apply State.eccError_keeps | apply State.put_keeps | apply done_keeps) | (first | split | (dsimp only [x]; split)) | (intro _))); clear_value x) | (intro x; clear_value x) | (with_reducible first | apply State.Keeps.ite | apply State.Keeps.lane | apply State.eccError_keeps | apply State.put_keeps | apply done_keeps) | split | (intro _))

theorem execScrubLate_keeps {a s : State} (h : a.Keeps s) (l : Lane) (b : Fin 16) :
    OutKeeps a (execScrubLate l b s) := by
  unfold execScrubLate
  repeat' (first | with_reducible assumption | (with_reducible first | apply State.Keeps.ite | apply State.pulseEv_keeps | apply State.selfFail_keeps | apply done_keeps) | split | (intro _))

theorem State.memClrScrub_keeps {a s : State} (h : a.Keeps s) (l : Lane) :
    a.Keeps (State.memClrScrub s l) := by
  unfold State.memClrScrub
  repeat' (first | with_reducible assumption | (with_reducible first | apply State.put_keeps) | (intro _))

theorem State.memClrEcc_keeps {a s : State} (h : a.Keeps s) (l : Lane) :
    a.Keeps (State.memClrEcc s l) := by
  unfold State.memClrEcc
  repeat' (first | with_reducible assumption | (with_reducible first | apply State.putWord_keeps) | (intro _))

theorem execMemClrScrub_keeps {a s : State} (h : a.Keeps s) (l : Lane) :
    OutKeeps a (execMemClrScrub l s) := by
  unfold execMemClrScrub
  repeat' (first | with_reducible assumption | (with_reducible first | apply State.memClrScrub_keeps | apply State.reply_keeps | apply State.writing_keeps | apply done_keeps) | (intro _))

theorem execMemClrEcc_keeps {a s : State} (h : a.Keeps s) (l : Lane) :
    OutKeeps a (execMemClrEcc l s) := by
  unfold execMemClrEcc
  repeat' (first | with_reducible assumption | (with_reducible first | apply State.memClrEcc_keeps | apply State.reply_keeps | apply State.writing_keeps | apply done_keeps) | (intro _))

theorem State.capArm_keeps {a s : State} (h : a.Keeps s) (l : Lane) (w : Fin 8) :
    EffKeeps a (State.capArm s l w) := by
  unfold State.capArm
  repeat' (first | (exact fun (_ : LaneState) hx => hx) | with_reducible assumption | lift_lets -underBinder | (intro x; have hx : a.Keeps x := (by repeat' (first | (exact fun (_ : LaneState) hx => hx) | with_reducible assumption | lift_lets -underBinder | (with_reducible first | apply State.Keeps.ite | apply State.Keeps.lane | apply State.putFlag_keeps | apply State.put_keeps | apply State.Keeps.effOk | apply State.Keeps.effError) | (first | split | (dsimp only [x]; split)) | (intro _))); clear_value x) | (intro x; clear_value x) | (with_reducible first | apply State.Keeps.ite | apply State.Keeps.lane | apply State.putFlag_keeps | apply State.put_keeps | apply State.Keeps.effOk | apply State.Keeps.effError) | split | (intro _))

theorem State.capArm_some {a s t : State} {l : Lane} {w0 : Fin 8}
    (e : State.capArm s l w0 = .ok t) (h : a.Keeps s) : a.Keeps t := State.capArm_keeps h _ _ t e

theorem execCapArm_keeps {a s : State} (h : a.Keeps s) (l : Lane) (w : Fin 8) :
    OutKeeps a (execCapArm l w s) := by
  unfold execCapArm
  repeat' (first | (exact State.capArm_some (by assumption) (by with_reducible assumption)) | with_reducible assumption | (with_reducible first | apply State.capArm_keeps | apply State.settleWrite_keeps | apply State.writing_keeps | apply done_keeps) | (intro _))

theorem State.capTrig_keeps {a s : State} (h : a.Keeps s) (l : Lane) (w : Fin 8) :
    a.Keeps (State.capTrig s l w) := by
  unfold State.capTrig
  repeat' (first | with_reducible assumption | (with_reducible first | apply State.Keeps.ite | apply State.capTrigger_keeps | apply State.pulseEv_keeps) | (intro _))

theorem execCapTrig_keeps {a s : State} (h : a.Keeps s) (l : Lane) (w : Fin 8) :
    OutKeeps a (execCapTrig l w s) := by
  unfold execCapTrig
  repeat' (first | with_reducible assumption | (with_reducible first | apply State.capTrig_keeps | apply State.reply_keeps | apply State.writing_keeps | apply done_keeps) | (intro _))

theorem State.capStop_keeps {a s : State} (h : a.Keeps s) (l : Lane) (w : Fin 8) :
    a.Keeps (State.capStop s l w) := by
  unfold State.capStop
  repeat' (first | with_reducible assumption | (with_reducible first | apply State.Keeps.ite | apply State.put_keeps) | (intro _))

theorem execCapStop_keeps {a s : State} (h : a.Keeps s) (l : Lane) (w : Fin 8) :
    OutKeeps a (execCapStop l w s) := by
  unfold execCapStop
  repeat' (first | with_reducible assumption | (with_reducible first | apply State.capStop_keeps | apply State.reply_keeps | apply State.writing_keeps | apply done_keeps) | (intro _))

theorem execCapDone_keeps {a s : State} (h : a.Keeps s) (l : Lane) (w : Fin 8) :
    OutKeeps a (execCapDone l w s) := by
  unfold execCapDone
  repeat' (first | with_reducible assumption | (with_reducible first | apply State.Keeps.ite | apply State.pulseEv_keeps | apply State.put_keeps | apply done_keeps) | split | (intro _))

theorem State.capAdd_keeps {a s : State} (h : a.Keeps s) (l : Lane) (w : Fin 8) (r : List Word) :
    a.Keeps (State.capAdd s l w r) := by
  unfold State.capAdd
  repeat' (first | (exact fun (_ : LaneState) hx => hx) | with_reducible assumption | lift_lets -underBinder | (intro x; have hx : a.Keeps x := (by repeat' (first | (exact fun (_ : LaneState) hx => hx) | with_reducible assumption | lift_lets -underBinder | (with_reducible first | apply State.Keeps.ite | apply State.Keeps.lane | apply State.putFlag_keeps | apply State.put_keeps) | (intro _))); clear_value x) | (intro x; clear_value x) | (with_reducible first | apply State.Keeps.ite | apply State.Keeps.lane | apply State.putFlag_keeps | apply State.put_keeps) | (intro _))

end Sys2Proof.Machine
end

