-- ==== Sys2Proof/Laws/Keeps/Events.lean ====
section
/-! SUPPORT. What the operations of Events keep. -/
namespace Sys2Proof.Machine
set_option linter.all false
set_option Elab.async false

theorem State.stopBlock_keeps {a s : State} (h : a.Keeps s) (l : Lane) (page : Nat) :
    a.Keeps (State.stopBlock s l page) := by
  unfold State.stopBlock
  repeat' (first | with_reducible assumption | lift_lets -underBinder | (intro x; have hx : a.Keeps x := (by repeat' (first | with_reducible assumption | lift_lets -underBinder | (with_reducible first | apply State.Keeps.ite | apply State.actIdle_keeps | apply State.chgFault_keeps | apply State.dclStop_keeps | apply State.setFault_keeps) | (first | split | (dsimp only [x]; split)) | (intro _))); clear_value x) | (intro x; dsimp -zeta only [x]; clear x) | (intro x; clear_value x) | (with_reducible first | apply State.Keeps.ite | apply State.actIdle_keeps | apply State.chgFault_keeps | apply State.dclStop_keeps | apply State.setFault_keeps) | split | (intro _))

theorem execReactionStop_keeps {a s : State} (h : a.Keeps s) (l : Lane) :
    OutKeeps a (execReactionStop l s) := by
  unfold execReactionStop
  repeat' (first | (exact fun (_ : LaneState) hx => hx) | with_reducible assumption | lift_lets -underBinder | (intro x; have hx : a.Keeps x := (by repeat' (first | (exact fun (_ : LaneState) hx => hx) | with_reducible assumption | lift_lets -underBinder | (with_reducible first | apply State.Keeps.ite | apply State.Keeps.fold | apply State.Keeps.lane | apply State.stopBlock_keeps | apply done_keeps) | (first | split | (dsimp only [x]; split)) | (intro _))); clear_value x) | (intro x; clear_value x) | (with_reducible first | apply State.Keeps.ite | apply State.Keeps.fold | apply State.Keeps.lane | apply State.stopBlock_keeps | apply done_keeps) | split | (intro _))

theorem State.evcPend_keeps {a s : State} (h : a.Keeps s) (l : Lane) (g : Nat) (w : Word) :
    a.Keeps (State.evcPend s l g w) := by
  unfold State.evcPend
  repeat' (first | with_reducible assumption | (with_reducible first | apply State.Keeps.ite | apply State.Keeps.fold | apply State.putWord_keeps) | (intro _))

theorem execEvcPendClear_keeps {a s : State} (h : a.Keeps s) (l : Lane) (g : Fin 4) (w : Word) :
    OutKeeps a (execEvcPendClear l g w s) := by
  unfold execEvcPendClear
  repeat' (first | with_reducible assumption | (with_reducible first | apply State.evcPend_keeps | apply State.reply_keeps | apply State.writing_keeps | apply done_keeps) | (intro _))

theorem State.evcClr_keeps {a s : State} (h : a.Keeps s) (l : Lane) :
    a.Keeps (State.evcClr s l) := by
  unfold State.evcClr
  repeat' (first | with_reducible assumption | (with_reducible first | apply State.Keeps.fold | apply State.putWord_keeps | apply State.put_keeps) | (intro _))

theorem execEvcClrCnt_keeps {a s : State} (h : a.Keeps s) (l : Lane) :
    OutKeeps a (execEvcClrCnt l s) := by
  unfold execEvcClrCnt
  repeat' (first | with_reducible assumption | (with_reducible first | apply State.evcClr_keeps | apply State.reply_keeps | apply State.writing_keeps | apply done_keeps) | (intro _))

theorem State.monClrCnt_keeps {a s : State} (h : a.Keeps s) :
    a.Keeps (State.monClrCnt s) := by
  unfold State.monClrCnt
  repeat' (first | with_reducible assumption | (with_reducible first | apply State.Keeps.fold | apply State.putWord_keeps) | (intro _))

theorem State.monLogClear_keeps {a s : State} (h : a.Keeps s) : a.Keeps (State.monLogClear s) := by
  unfold State.monLogClear
  refine State.mput_keeps ?_ ..
  with_reducible apply State.Keeps.mon
  · exact h
  · exact fun _ hm => ⟨hm.1, Nat.zero_le _⟩

theorem execMpOverload_keeps {a s : State} (h : a.Keeps s) (l : Lane) (ovr : Bool) :
    OutKeeps a (execMpOverload l ovr s) := by
  unfold execMpOverload
  repeat' (first | with_reducible assumption | (with_reducible first | apply State.Keeps.ite | apply State.Keeps.boot | apply State.levelEv_keeps | apply done_keeps) | split | (intro _))

end Sys2Proof.Machine
end

