-- ==== Sys2Proof/Laws/Keeps/Bulk.lean ====
section
/-! SUPPORT. What the operations of Bulk keep. -/
namespace Sys2Proof.Machine
set_option linter.all false
set_option Elab.async false

theorem State.showOwned_keeps {a s : State} (h : a.Keeps s) (l : Lane) :
    a.Keeps (State.showOwned s l) := by
  unfold State.showOwned
  repeat' (first | with_reducible assumption | (with_reducible first | apply State.put_keeps) | (intro _))

theorem State.descBack_keeps {a s : State} (h : a.Keeps s) (l : Lane) (n : Fin 64) (st : Status) :
    a.Keeps (State.descBack s l n st) := by
  unfold State.descBack
  repeat' (first | (exact fun (_ : LaneState) hx => hx) | with_reducible assumption | lift_lets -underBinder | (intro x; have hx : a.Keeps x := (by repeat' (first | (exact fun (_ : LaneState) hx => hx) | with_reducible assumption | lift_lets -underBinder | (with_reducible first | apply State.Keeps.lane | apply State.putFlag_keeps | apply State.put_keeps | apply State.showOwned_keeps) | (intro _))); clear_value x) | (intro x; clear_value x) | (with_reducible first | apply State.Keeps.lane | apply State.putFlag_keeps | apply State.put_keeps | apply State.showOwned_keeps) | (intro _))

theorem State.descDone_keeps {a s : State} (h : a.Keeps s) (l : Lane) (n : Fin 64) (st : Status) (len : Nat) :
    a.Keeps (State.descDone s l n st len) := by
  unfold State.descDone
  repeat' (first | with_reducible assumption | (with_reducible first | apply State.bump_keeps | apply State.descBack_keeps | apply State.pulseEv_keeps | apply State.put_keeps) | (intro _))

theorem State.descReject_keeps {a s : State} (h : a.Keeps s) (l : Lane) (n : Fin 64) (st : Status) :
    a.Keeps (State.descReject s l n st) := by
  unfold State.descReject
  repeat' (first | with_reducible assumption | (with_reducible first | apply State.bump_keeps | apply State.descBack_keeps | apply State.pulseEv_keeps) | (intro _))

theorem State.descNext_keeps {a s : State} (h : a.Keeps s) (l : Lane) (cmd : Nat) (f : Fin 64 → State → State) (hf : ∀ n s, a.Keeps s → a.Keeps (f n s)) :
    a.Keeps (State.descNext s l cmd f) := by
  unfold State.descNext
  repeat' (first | with_reducible assumption | (with_reducible first | apply State.Keeps.ite | apply State.descReject_keeps | apply hf) | split | (intro _))

theorem execBulkNone_keeps {a s : State} (h : a.Keeps s) (l : Lane) :
    OutKeeps a (execBulkNone l s) := by
  unfold execBulkNone
  repeat' (first | with_reducible assumption | (with_reducible first | apply State.descDone_keeps | apply State.descNext_keeps | apply done_keeps) | (intro _))

theorem State.toSlot_keeps {a s : State} (h : a.Keeps s) (l : Lane) (n : Fin 64) (bs : List Byte) :
    a.Keeps (State.toSlot s l n bs) := by
  unfold State.toSlot
  repeat' (first | (exact fun _ => ⟨rfl, rfl, rfl, rfl, rfl⟩) | (intro _ hm; dsimp only; first | exact mputs_wf _ _ _ hm | exact mput_wf _ _ _ hm | exact memWriteBytes_wf _ _ _ _ hm | exact (Memory.filter_wf _ _ _ hm).1) | (exact fun (_ : LaneState) hx => hx) | with_reducible assumption | lift_lets -underBinder | (intro x; have hx : a.Keeps x := (by repeat' (first | (exact fun _ => ⟨rfl, rfl, rfl, rfl, rfl⟩) | (intro _ hm; dsimp only; first | exact mputs_wf _ _ _ hm | exact mput_wf _ _ _ hm | exact memWriteBytes_wf _ _ _ _ hm | exact (Memory.filter_wf _ _ _ hm).1) | (exact fun (_ : LaneState) hx => hx) | with_reducible assumption | lift_lets -underBinder | (with_reducible first | apply State.Keeps.mem | apply State.Keeps.lane | apply State.descDone_keeps) | (intro _))); clear_value x) | (intro x; clear_value x) | (with_reducible first | apply State.Keeps.mem | apply State.Keeps.lane | apply State.descDone_keeps) | (intro _))

theorem execCapture_keeps {a s : State} (h : a.Keeps s) (l : Lane) :
    OutKeeps a (execCapture l s) := by
  unfold execCapture
  repeat' (first | with_reducible assumption | lift_lets -underBinder | (intro x; have hx : a.Keeps x := (by repeat' (first | with_reducible assumption | lift_lets -underBinder | (with_reducible first | apply State.Keeps.ite | apply State.descNext_keeps | apply State.toSlot_keeps | apply done_keeps) | (first | split | (dsimp only [x]; split)) | (intro _))); clear_value x) | (intro x; clear_value x) | (with_reducible first | apply State.Keeps.ite | apply State.descNext_keeps | apply State.toSlot_keeps | apply done_keeps) | split | (intro _))

theorem execFlog_keeps {a s : State} (h : a.Keeps s) (l : Lane) :
    OutKeeps a (execFlog l s) := by
  unfold execFlog
  repeat' (first | with_reducible assumption | lift_lets -underBinder | (intro x; have hx : a.Keeps x := (by repeat' (first | with_reducible assumption | lift_lets -underBinder | (with_reducible first | apply State.Keeps.ite | apply State.descNext_keeps | apply State.toSlot_keeps | apply done_keeps) | (first | split | (dsimp only [x]; split)) | (intro _))); clear_value x) | (intro x; clear_value x) | (with_reducible first | apply State.Keeps.ite | apply State.descNext_keeps | apply State.toSlot_keeps | apply done_keeps) | split | (intro _))

theorem State.modSlot_keeps {a s : State} (h : a.Keeps s) (l : Lane) (k : Fin 2) (f : ImgSlot → ImgSlot) :
    a.Keeps (State.modSlot s l k f) := by
  unfold State.modSlot
  repeat' (first | with_reducible assumption | (with_reducible first | apply State.Keeps.boot) | (intro _))

theorem execImgWrite_keeps {a s : State} (h : a.Keeps s) (l : Lane) : OutKeeps a (execImgWrite l s) := by
  unfold execImgWrite
  refine done_keeps (State.descNext_keeps h l 3 _ (fun n t ht => ?_))
  dsimp only
  refine State.putFlag_keeps (State.Keeps.lane (State.Keeps.ite (fun _ => ht) (fun _ => State.modSlot_keeps ht ..)) l _ ?_) ..
  rintro x ⟨h1, h2, h3, h4, h5, h6⟩
  exact ⟨h1, h2, memWriteBytes_wf _ _ _ _ (Memory.filter_wf _ _ _ h3).1, h4, h5, h6⟩

theorem execImgWriteDone_keeps {a s : State} (h : a.Keeps s) (l : Lane) :
    OutKeeps a (execImgWriteDone l s) := by
  unfold execImgWriteDone
  repeat' (first | with_reducible assumption | lift_lets -underBinder | (intro x; have hx : a.Keeps x := (by repeat' (first | with_reducible assumption | lift_lets -underBinder | (with_reducible first | apply State.Keeps.ite | apply State.descDone_keeps | apply State.putFlag_keeps | apply done_keeps) | (first | split | (dsimp only [x]; split)) | (intro _))); clear_value x) | (intro x; clear_value x) | (with_reducible first | apply State.Keeps.ite | apply State.descDone_keeps | apply State.putFlag_keeps | apply done_keeps) | split | (intro _))

theorem execImgCommit_keeps {a s : State} (h : a.Keeps s) (l : Lane) (r : ImageRead) (sigOk : Bool) :
    OutKeeps a (execImgCommit l r sigOk s) := by
  unfold execImgCommit
  repeat' (first | with_reducible assumption | lift_lets -underBinder | (intro x; have hx : a.Keeps x := (by repeat' (first | with_reducible assumption | lift_lets -underBinder | (with_reducible first | apply State.Keeps.ite | apply State.descDone_keeps | apply State.descNext_keeps | apply State.modSlot_keeps | apply State.pulseEv_keeps | apply done_keeps) | (first | split | (dsimp only [x]; split)) | (intro _))); clear_value x) | (intro x; clear_value x) | (with_reducible first | apply State.Keeps.ite | apply State.descDone_keeps | apply State.descNext_keeps | apply State.modSlot_keeps | apply State.pulseEv_keeps | apply done_keeps) | split | (intro _))

theorem State.bulkClr_keeps {a s : State} (h : a.Keeps s) (l : Lane) :
    a.Keeps (State.bulkClr s l) := by
  unfold State.bulkClr
  repeat' (first | with_reducible assumption | (with_reducible first | apply State.put_keeps) | (intro _))

theorem execBulkClrCnt_keeps {a s : State} (h : a.Keeps s) (l : Lane) :
    OutKeeps a (execBulkClrCnt l s) := by
  unfold execBulkClrCnt
  repeat' (first | with_reducible assumption | (with_reducible first | apply State.bulkClr_keeps | apply State.reply_keeps | apply State.writing_keeps | apply done_keeps) | (intro _))

theorem State.descWrite_keeps {a s : State} (h : a.Keeps s) (l : Lane) (off : Nat) (w : Word) :
    EffKeeps a (State.descWrite s l off w) := by
  unfold State.descWrite
  repeat' (first | with_reducible assumption | lift_lets -underBinder | (intro x; have hx : a.Keeps x := (by repeat' (first | with_reducible assumption | lift_lets -underBinder | (with_reducible first | apply State.Keeps.ite | apply State.descReject_keeps | apply State.putWord_keeps | apply State.put_keeps | apply State.showOwned_keeps | apply State.Keeps.effOk | apply State.Keeps.effError) | (first | split | (dsimp only [x]; split)) | (intro _))); clear_value x) | (intro x; clear_value x) | (with_reducible first | apply State.Keeps.ite | apply State.descReject_keeps | apply State.putWord_keeps | apply State.put_keeps | apply State.showOwned_keeps | apply State.Keeps.effOk | apply State.Keeps.effError) | split | (intro _))

theorem State.descWrite_some {a s t : State} {l : Lane} {off : Nat} {w0 : Word}
    (e : State.descWrite s l off w0 = .ok t) (h : a.Keeps s) : a.Keeps t := State.descWrite_keeps h _ _ _ t e

end Sys2Proof.Machine
end

