-- ==== Sys2Proof/Laws/Keeps/Clause.lean ====
section
/-! SUPPORT. What the operations of Clause keep. -/
namespace Sys2Proof.Machine
set_option linter.all false
set_option Elab.async false

theorem State.modCls_keeps {a s : State} (h : a.Keeps s) (l : Lane) (n : Fin 8) (f : ClsConn → ClsConn) :
    a.Keeps (State.modCls s l n f) := by
  unfold State.modCls
  repeat' (first | (exact fun (_ : LaneState) hx => hx) | with_reducible assumption | (with_reducible first | apply State.Keeps.lane) | (intro _))

theorem State.clsExpire_keeps {a s : State} (h : a.Keeps s) (l : Lane) (n : Fin 8) :
    a.Keeps (State.clsExpire s l n) := by
  unfold State.clsExpire
  repeat' (first | with_reducible assumption | lift_lets -underBinder | (intro x; have hx : a.Keeps x := (by repeat' (first | with_reducible assumption | lift_lets -underBinder | (with_reducible first | apply State.Keeps.ite | apply State.bump_keeps | apply State.clsJudge_keeps | apply State.modCls_keeps | apply State.ownSs1Start_keeps | apply State.pulseEv_keeps | apply State.put_keeps | apply State.trigSs1_keeps) | (intro _))); clear_value x) | (intro x; clear_value x) | (with_reducible first | apply State.Keeps.ite | apply State.bump_keeps | apply State.clsJudge_keeps | apply State.modCls_keeps | apply State.ownSs1Start_keeps | apply State.pulseEv_keeps | apply State.put_keeps | apply State.trigSs1_keeps) | (intro _))

theorem State.clsBadCrc_keeps {a s : State} (h : a.Keeps s) (l : Lane) (n : Fin 8) :
    a.Keeps (State.clsBadCrc s l n) := by
  unfold State.clsBadCrc
  repeat' (first | with_reducible assumption | lift_lets -underBinder | (intro x; have hx : a.Keeps x := (by repeat' (first | with_reducible assumption | lift_lets -underBinder | (with_reducible first | apply State.Keeps.ite | apply State.bump_keeps | apply State.clsExpire_keeps | apply State.modCls_keeps | apply State.pulseEv_keeps) | (intro _))); clear_value x) | (intro x; clear_value x) | (with_reducible first | apply State.Keeps.ite | apply State.bump_keeps | apply State.clsExpire_keeps | apply State.modCls_keeps | apply State.pulseEv_keeps) | (intro _))

theorem State.clsAccept_keeps {a s : State} (h : a.Keeps s) (l : Lane) (n : Fin 8) (t : List Byte) :
    a.Keeps (State.clsAccept s l n t) := by
  unfold State.clsAccept
  repeat' (first | with_reducible assumption | lift_lets -underBinder | (intro x; have hx : a.Keeps x := (by repeat' (first | with_reducible assumption | lift_lets -underBinder | (with_reducible first | apply State.Keeps.ite | apply State.clsAck_keeps | apply State.clsJudge_keeps | apply State.clsSlpSet_keeps | apply State.modCls_keeps | apply State.put_keeps) | (intro _))); clear_value x) | (intro x; clear_value x) | (with_reducible first | apply State.Keeps.ite | apply State.clsAck_keeps | apply State.clsJudge_keeps | apply State.clsSlpSet_keeps | apply State.modCls_keeps | apply State.put_keeps) | (intro _))

theorem execClauseReceive_keeps {a s : State} (h : a.Keeps s) (l : Lane) (n : Fin 8) :
    OutKeeps a (execClauseReceive l n s) := by
  unfold execClauseReceive
  repeat' (first | with_reducible assumption | lift_lets -underBinder | (intro x; have hx : a.Keeps x := (by repeat' (first | with_reducible assumption | lift_lets -underBinder | (with_reducible first | apply State.Keeps.ite | apply State.bump_keeps | apply State.clsAccept_keeps | apply State.clsBadCrc_keeps | apply State.modCls_keeps | apply State.pulseEv_keeps | apply done_keeps) | (first | split | (dsimp only [x]; split)) | (intro _))); clear_value x) | (intro x; clear_value x) | (with_reducible first | apply State.Keeps.ite | apply State.bump_keeps | apply State.clsAccept_keeps | apply State.clsBadCrc_keeps | apply State.modCls_keeps | apply State.pulseEv_keeps | apply done_keeps) | split | (intro _))

theorem execWdog_keeps {a s : State} (h : a.Keeps s) (l : Lane) (n : Fin 8) :
    OutKeeps a (execWdog l n s) := by
  unfold execWdog
  repeat' (first | with_reducible assumption | (with_reducible first | apply State.Keeps.ite | apply State.clsExpire_keeps | apply done_keeps) | split | (intro _))

theorem execLaneDiff_keeps {a s : State} (h : a.Keeps s) :
    OutKeeps a (execLaneDiff s) := by
  unfold execLaneDiff
  repeat' (first | with_reducible assumption | (with_reducible first | apply State.Keeps.ite | apply State.Keeps.both | apply State.pulseEv_keeps | apply done_keeps) | split | (intro _))

theorem State.freshBytes_keeps {a : State} (n : Nat) {s : State} (h : a.Keeps s) : a.Keeps (s.freshBytes n).2 := by
  induction n generalizing s with
  | zero => exact h
  | succ n ih => exact ih (State.fresh_keeps h)

theorem State.freshBytes_pair {a s t : State} {n : Nat} {w : List Byte} (e : s.freshBytes n = (w, t)) (h : a.Keeps s) : a.Keeps t := by
  have := State.freshBytes_keeps n h
  rw [e] at this
  exact this

theorem State.clsToCan_keeps {a s : State} (h : a.Keeps s) (l : Lane) (n : Fin 8) (t : List Byte) :
    a.Keeps (State.clsToCan s l n t) := by
  unfold State.clsToCan
  repeat' (first | (exact fun hx => hx) | (exact fun hx => CanState.fits_atPhase _ _ hx) | (exact fun hx => CanState.fits_putEntry _ _ _ hx) | (exact State.fresh_pair (by assumption) (State.freshBytes_pair (by assumption) (by with_reducible assumption))) | with_reducible assumption | lift_lets -underBinder | (intro x; have hx : a.Keeps x := (by repeat' (first | (exact fun hx => hx) | (exact fun hx => CanState.fits_atPhase _ _ hx) | (exact fun hx => CanState.fits_putEntry _ _ _ hx) | (exact State.fresh_pair (by assumption) (State.freshBytes_pair (by assumption) (by with_reducible assumption))) | with_reducible assumption | lift_lets -underBinder | (with_reducible first | apply State.Keeps.ite | apply State.freshBytes_keeps | apply State.fresh_keeps | apply State.modCan_keeps | apply State.showCan_keeps) | (first | split | (dsimp only [x]; split)) | (intro _))); clear_value x) | (intro x; clear_value x) | (with_reducible first | apply State.Keeps.ite | apply State.freshBytes_keeps | apply State.fresh_keeps | apply State.modCan_keeps | apply State.showCan_keeps) | split | (intro _))

theorem State.clsBase_keeps {a s : State} (h : a.Keeps s) (l : Lane) (n : Fin 8) : a.Keeps (s.clsBase l n).2 := by
  unfold State.clsBase
  split <;> exact h

theorem execClauseTransmit_keeps {a s : State} (h : a.Keeps s) (l : Lane) (n : Fin 8) :
    OutKeeps a (execClauseTransmit l n s) := by
  unfold execClauseTransmit
  repeat' (first | with_reducible assumption | lift_lets -underBinder | (intro x; have hx : a.Keeps x := (by repeat' (first | with_reducible assumption | lift_lets -underBinder | (with_reducible first | apply State.Keeps.ite | apply State.clsBase_keeps | apply State.clsToCan_keeps | apply State.freshBytes_keeps | apply State.modCls_keeps | apply State.put_keeps | apply done_keeps) | (first | split | (dsimp only [x]; split)) | (intro _))); clear_value x) | (intro x; clear_value x) | (with_reducible first | apply State.Keeps.ite | apply State.clsBase_keeps | apply State.clsToCan_keeps | apply State.freshBytes_keeps | apply State.modCls_keeps | apply State.put_keeps | apply done_keeps) | split | (intro _))

end Sys2Proof.Machine
end

