-- ==== Sys2Proof/Laws/Keeps/Effect.lean ====
section
/-! SUPPORT. What the operations of Effect keep. -/
namespace Sys2Proof.Machine
set_option linter.all false
set_option Elab.async false

theorem ofReply_keeps {a s : State} (h : a.Keeps s) (l : Lane) :
    EffKeeps a (ofReply l s) := by
  unfold ofReply
  repeat' (first | with_reducible assumption | lift_lets -underBinder | (intro x; have hx : a.Keeps x := (by repeat' (first | with_reducible assumption | lift_lets -underBinder | (with_reducible first | apply State.Keeps.ite | apply State.Keeps.effOk | apply State.Keeps.effError) | (first | split | (dsimp only [x]; split)) | (intro _))); clear_value x) | (intro x; clear_value x) | (with_reducible first | apply State.Keeps.ite | apply State.Keeps.effOk | apply State.Keeps.effError) | split | (intro _))

theorem ofReply_some {a s t : State} {l : Lane}
    (e : ofReply l s = .ok t) (h : a.Keeps s) : a.Keeps t := ofReply_keeps h _ t e

theorem need_keeps {a s : State} (h : a.Keeps s) (ok : Bool) :
    EffKeeps a (need ok s) := by
  unfold need
  repeat' (first | with_reducible assumption | (with_reducible first | apply State.Keeps.ite | apply State.Keeps.effOk | apply State.Keeps.effError) | split | (intro _))

theorem need_some {a s t : State} {ok : Bool}
    (e : need ok s = .ok t) (h : a.Keeps s) : a.Keeps t := need_keeps h _ t e

theorem onBit_keeps {a s : State} (h : a.Keeps s) (b : Bool) (f : State → Eff) (hf : ∀ s, a.Keeps s → EffKeeps a (f s)) :
    EffKeeps a (onBit b f s) := by
  unfold onBit
  split
  · exact hf _ h
  · exact State.Keeps.effOk h

theorem onBit'_keeps {a s : State} (h : a.Keeps s) (b : Bool) (f : State → State) (hf : ∀ s, a.Keeps s → a.Keeps (f s)) :
    a.Keeps (onBit' b f s) := by
  unfold onBit'
  split
  · exact hf _ h
  · exact h

theorem State.blockState_keeps {a s : State} (h : a.Keeps s) (l : Lane) (p : Page) :
    a.Keeps (State.blockState s l p) := by
  unfold State.blockState
  repeat' (first | (exact fun _ => ⟨Nat.zero_le _, Nat.zero_le _, Nat.zero_le _⟩) | (exact fun (_ : LaneState) hx => hx) | (exact fun (_ : MonState) hx => hx) | with_reducible assumption | (with_reducible first | apply State.Keeps.ite | apply State.Keeps.chg | apply State.Keeps.dcl | apply State.Keeps.fbk | apply State.Keeps.lane | apply State.Keeps.mon | apply State.Keeps.ring | apply State.Keeps.smp | apply State.Keeps.trc | apply State.actIdle_keeps | apply State.dclStop_keeps | apply State.driveK_keeps | apply State.engineStop_keeps | apply State.gatesOff_keeps | apply State.loopOpen_keeps | apply State.modCan_keeps | apply State.smEnter_keeps) | split | (intro _))

theorem State.blockReset_keeps {a s : State} (h : a.Keeps s) (l : Lane) (p : Page) :
    a.Keeps (State.blockReset s l p) := by
  unfold State.blockReset
  repeat' (first | (exact fun (_ : LaneState) hx => hx) | with_reducible assumption | lift_lets -underBinder | (intro x; have hx : a.Keeps x := (by repeat' (first | (exact fun (_ : LaneState) hx => hx) | with_reducible assumption | lift_lets -underBinder | (with_reducible first | apply State.Keeps.fold | apply State.Keeps.lane | apply State.blockState_keeps | apply State.putWord_keeps | apply State.showMmax_keeps) | (first | split | (dsimp only [x]; split)) | (intro _))); clear_value x) | (intro x; clear_value x) | (with_reducible first | apply State.Keeps.fold | apply State.Keeps.lane | apply State.blockState_keeps | apply State.putWord_keeps | apply State.showMmax_keeps) | split | (intro _))

theorem State.pgCtrl_keeps {a s : State} (h : a.Keeps s) (l : Lane) (p : Page) (old : Word) (new : Word) (wo : Word) :
    EffKeeps a (State.pgCtrl s l p old new wo) := by
  unfold State.pgCtrl
  repeat' (first | with_reducible assumption | (with_reducible first | apply State.Keeps.ite | apply State.blockReset_keeps | apply State.putWord_keeps | apply State.softReset_keeps | apply State.Keeps.effOk | apply State.Keeps.effError) | split | (intro _))

theorem State.pgCtrl_some {a s t : State} {l : Lane} {p : Page} {old : Word} {new : Word} {wo : Word}
    (e : State.pgCtrl s l p old new wo = .ok t) (h : a.Keeps s) : a.Keeps t := State.pgCtrl_keeps h _ _ _ _ _ t e

theorem State.pgLock_keeps {a s : State} (h : a.Keeps s) (l : Lane) (p : Page) (old : Word) (new : Word) :
    EffKeeps a (State.pgLock s l p old new) := by
  unfold State.pgLock
  repeat' (first | with_reducible assumption | lift_lets -underBinder | (intro x; have hx : a.Keeps x := (by repeat' (first | with_reducible assumption | lift_lets -underBinder | (with_reducible first | apply State.Keeps.ite | apply State.putWord_keeps | apply State.Keeps.effOk | apply State.Keeps.effError) | (first | split | (dsimp only [x]; split)) | (intro _))); clear_value x) | (intro x; clear_value x) | (with_reducible first | apply State.Keeps.ite | apply State.putWord_keeps | apply State.Keeps.effOk | apply State.Keeps.effError) | split | (intro _))

theorem State.pgLock_some {a s t : State} {l : Lane} {p : Page} {old : Word} {new : Word}
    (e : State.pgLock s l p old new = .ok t) (h : a.Keeps s) : a.Keeps t := State.pgLock_keeps h _ _ _ _ t e

theorem State.force_keeps {a s : State} (h : a.Keeps s) (l : Lane) (p : Page) (w : Word) :
    a.Keeps (State.force s l p w) := by
  unfold State.force
  repeat' (first | with_reducible assumption | (with_reducible first | apply State.Keeps.ite | apply State.Keeps.fold | apply State.pulseEv_keeps) | (intro _))

theorem State.ceCtrl_keeps {a s : State} (h : a.Keeps s) (l : Lane) (old : Word) (new : Word) (wo : Word) :
    EffKeeps a (State.ceCtrl s l old new wo) := by
  unfold State.ceCtrl
  repeat' (first | with_reducible assumption | (with_reducible first | apply State.Keeps.ite | apply State.ceStop_keeps | apply State.commitTable_keeps | apply need_keeps | apply ofReply_keeps | apply State.Keeps.effOk | apply State.Keeps.effError) | split | (intro _))

theorem State.ceCtrl_some {a s t : State} {l : Lane} {old : Word} {new : Word} {wo : Word}
    (e : State.ceCtrl s l old new wo = .ok t) (h : a.Keeps s) : a.Keeps t := State.ceCtrl_keeps h _ _ _ _ t e

theorem State.pwmWrite_keeps {a s : State} (h : a.Keeps s) (l : Lane) (addr : Nat) (new : Word) :
    EffKeeps a (State.pwmWrite s l addr new) := by
  unfold State.pwmWrite
  repeat' (first | with_reducible assumption | lift_lets -underBinder | (intro x; have hx : a.Keeps x := (by repeat' (first | with_reducible assumption | lift_lets -underBinder | (with_reducible first | apply State.putWord_keeps | apply State.put_keeps | apply State.showMmax_keeps | apply need_keeps | apply State.Keeps.effOk | apply State.Keeps.effError) | (intro _))); clear_value x) | (intro x; clear_value x) | (with_reducible first | apply State.putWord_keeps | apply State.put_keeps | apply State.showMmax_keeps | apply need_keeps | apply State.Keeps.effOk | apply State.Keeps.effError) | (intro _))

theorem State.pwmWrite_some {a s t : State} {l : Lane} {addr : Nat} {new : Word}
    (e : State.pwmWrite s l addr new = .ok t) (h : a.Keeps s) : a.Keeps t := State.pwmWrite_keeps h _ _ _ t e

theorem State.dclCtrl_keeps {a s : State} (h : a.Keeps s) (l : Lane) (peer : Bool) (old : Word) (new : Word) :
    EffKeeps a (State.dclCtrl s l peer old new) := by
  unfold State.dclCtrl
  repeat' (first | with_reducible assumption | lift_lets -underBinder | (intro x; have hx : a.Keeps x := (by repeat' (first | with_reducible assumption | lift_lets -underBinder | (with_reducible first | apply State.Keeps.ite | apply State.dclEnd_keeps | apply State.dclStart_keeps | apply State.putWord_keeps | apply State.Keeps.effOk | apply State.Keeps.effError) | (first | split | (dsimp only [x]; split)) | (intro _))); clear_value x) | (intro x; clear_value x) | (with_reducible first | apply State.Keeps.ite | apply State.dclEnd_keeps | apply State.dclStart_keeps | apply State.putWord_keeps | apply State.Keeps.effOk | apply State.Keeps.effError) | split | (intro _))

theorem State.dclCtrl_some {a s t : State} {l : Lane} {peer : Bool} {old : Word} {new : Word}
    (e : State.dclCtrl s l peer old new = .ok t) (h : a.Keeps s) : a.Keeps t := State.dclCtrl_keeps h _ _ _ _ t e

theorem State.redCtrlWrite_keeps {a s : State} (h : a.Keeps s) (l : Lane) (wo : Word) :
    EffKeeps a (State.redCtrlWrite s l wo) := by
  unfold State.redCtrlWrite
  dsimp only
  split
  · refine State.Keeps.effGuard _ _ (fun _ => ?_)
    refine State.Keeps.effBind _ _ (onBit_keeps h _ _ (fun t ht => ofReply_keeps (State.retestNow_keeps ht _) _)) (fun s1 h1 => ?_)
    refine State.Keeps.effBind _ _ (onBit_keeps h1 _ _ (fun t ht => need_keeps (State.moveAsk_keeps ht) _)) (fun s2 h2 => ?_)
    refine State.Keeps.effBind _ _ (onBit_keeps h2 _ _ (fun t ht => need_keeps (State.rejoinNow_keeps ht _) _)) (fun s3 h3 => ?_)
    exact onBit_keeps h3 _ _ (fun t ht => need_keeps (State.Keeps.ite (fun _ => State.splitContinue_keeps ht _)
      (fun _ => State.ownSs1Start_keeps ht _ _)) _)
  · refine State.Keeps.effBind _ _ (onBit_keeps h _ _ (fun t ht => ofReply_keeps (State.retestNow_keeps ht _) _)) (fun s1 h1 => ?_)
    refine State.Keeps.effBind _ _ (onBit_keeps h1 _ _ (fun t ht => need_keeps (State.moveAsk_keeps ht) _)) (fun s2 h2 => ?_)
    refine State.Keeps.effBind _ _ (onBit_keeps h2 _ _ (fun t ht => need_keeps (State.rejoinNow_keeps ht _) _)) (fun s3 h3 => ?_)
    exact onBit_keeps h3 _ _ (fun t ht => need_keeps (State.Keeps.ite (fun _ => State.splitContinue_keeps ht _)
      (fun _ => State.ownSs1Start_keeps ht _ _)) _)

theorem State.gdhClr_keeps {a s : State} (h : a.Keeps s) (l : Lane) (n : Fin 34) (wo : Word) :
    EffKeeps a (State.gdhClr s l n wo) := by
  unfold State.gdhClr
  repeat' (first | with_reducible assumption | lift_lets -underBinder | (intro x; have hx : a.Keeps x := (by repeat' (first | with_reducible assumption | lift_lets -underBinder | (with_reducible first | apply State.Keeps.ite | apply State.clrDt_keeps | apply State.clrGdhCnt_keeps | apply State.clrLeg_keeps | apply State.clrSc_keeps | apply onBit'_keeps | apply onBit_keeps | apply State.Keeps.effOk | apply State.Keeps.effError) | (first | split | (dsimp only [x]; split)) | (intro _))); clear_value x) | (intro x; clear_value x) | (with_reducible first | apply State.Keeps.ite | apply State.clrDt_keeps | apply State.clrGdhCnt_keeps | apply State.clrLeg_keeps | apply State.clrSc_keeps | apply onBit'_keeps | apply onBit_keeps | apply State.Keeps.effOk | apply State.Keeps.effError) | split | (intro _))

theorem State.gdhClr_some {a s t : State} {l : Lane} {n : Fin 34} {wo : Word}
    (e : State.gdhClr s l n wo = .ok t) (h : a.Keeps s) : a.Keeps t := State.gdhClr_keeps h _ _ _ t e

theorem State.gdlClr_keeps {a s : State} (h : a.Keeps s) (l : Lane) (n : Fin 12) (wo : Word) :
    EffKeeps a (State.gdlClr s l n wo) := by
  unfold State.gdlClr
  repeat' (first | with_reducible assumption | lift_lets -underBinder | (intro x; have hx : a.Keeps x := (by repeat' (first | with_reducible assumption | lift_lets -underBinder | (with_reducible first | apply State.Keeps.ite | apply State.clrGdlCnt_keeps | apply State.gdlClrLeg_keeps | apply onBit'_keeps | apply onBit_keeps | apply State.Keeps.effOk | apply State.Keeps.effError) | (first | split | (dsimp only [x]; split)) | (intro _))); clear_value x) | (intro x; clear_value x) | (with_reducible first | apply State.Keeps.ite | apply State.clrGdlCnt_keeps | apply State.gdlClrLeg_keeps | apply onBit'_keeps | apply onBit_keeps | apply State.Keeps.effOk | apply State.Keeps.effError) | split | (intro _))

theorem State.gdlClr_some {a s t : State} {l : Lane} {n : Fin 12} {wo : Word}
    (e : State.gdlClr s l n wo = .ok t) (h : a.Keeps s) : a.Keeps t := State.gdlClr_keeps h _ _ _ t e

theorem State.gdhTest_keeps {a s : State} (h : a.Keeps s) (n : Fin 34) : EffKeeps a (State.gdhTest s n) := by
  unfold State.gdhTest
  split
  · exact State.Keeps.effError _
  · exact State.Keeps.effOk ((State.fresh_keeps h).hv ..)

theorem State.canCtrl_keeps {a s : State} (h : a.Keeps s) (l : Lane) (c : Fin 2) (old new wo : Word) :
    EffKeeps a (State.canCtrl s l c old new wo) := by
  unfold State.canCtrl
  dsimp only
  split
  · refine State.Keeps.effGuard _ _ (fun _ => ?_)
    refine State.Keeps.effBind _ _ (State.canInit_keeps (State.putWord_keeps h ..) _ _ _) (fun s1 h1 => ?_)
    exact State.Keeps.effOk (onBit'_keeps h1 _ _ (fun t ht => State.canRecReq_keeps ht ..))
  · refine State.Keeps.effBind _ _ (State.canInit_keeps (State.putWord_keeps h ..) _ _ _) (fun s1 h1 => ?_)
    exact State.Keeps.effOk (onBit'_keeps h1 _ _ (fun t ht => State.canRecReq_keeps ht ..))

theorem State.memEffect_keeps {a s : State} (h : a.Keeps s) (l : Lane) (off : Nat) (old new wo : Word) :
    EffKeeps a (State.memEffect s l off old new wo) := by
  unfold State.memEffect
  split
  · exact State.memPwr_keeps h _ _
  · split
    · exact State.Keeps.effOk (onBit'_keeps (onBit'_keeps h _ _ (fun _ ht => State.memClrScrub_keeps ht ..)) _ _
        (fun _ ht => State.memClrEcc_keeps ht ..))
    · split
      · refine State.Keeps.effBind _ _ ?_ (fun t ht => ?_)
        · generalize List.finRange 8 = xs
          induction xs generalizing s with
          | nil => exact State.Keeps.effOk h
          | cons w t ih =>
            rw [List.foldlM_cons]
            exact State.Keeps.effBind _ _ (onBit_keeps h _ _ (fun _ ht => State.capArm_keeps ht _ _)) (fun u hu => ih hu)
        · exact State.Keeps.effOk (State.Keeps.fold _ _ (State.Keeps.fold _ _ ht
            (fun u w hu => onBit'_keeps hu _ _ (fun _ hv => State.capTrig_keeps hv ..)))
            (fun u w hu => onBit'_keeps hu _ _ (fun _ hv => State.capStop_keeps hv ..)))
      · split
        · dsimp only
          split
          · exact State.Keeps.effError _
          · exact need_keeps (State.putWord_keeps h ..) _
        · exact State.Keeps.effOk (State.putWord_keeps h ..)

theorem State.regEffect_keeps {a s : State} (h : a.Keeps s) (l : Lane) (p : Page) (off : Nat) (old : Word) (new : Word) (wo : Word) (ph : BusPhase) (peer : Bool) :
    EffKeeps a (State.regEffect s l p off old new wo ph peer) := by
  unfold State.regEffect
  repeat' (first | (exact ofReply_some (by assumption) (State.smWrite_keeps (by with_reducible assumption) _ _)) | (exact State.descWrite_some (by assumption) (by with_reducible assumption)) | (exact State.actCmd_some (by assumption) (by with_reducible assumption)) | (exact State.dclCtrl_some (by assumption) (by with_reducible assumption)) | (exact State.gdlClr_some (by assumption) (by with_reducible assumption)) | (exact State.gdhClr_some (by assumption) (by with_reducible assumption)) | (exact State.smCmd_some (by assumption) (by with_reducible assumption)) | (exact State.pwmWrite_some (by assumption) (by with_reducible assumption)) | (exact State.ceCtrl_some (by assumption) (by with_reducible assumption)) | (exact State.pgLock_some (by assumption) (by with_reducible assumption)) | (exact State.pgCtrl_some (by assumption) (by with_reducible assumption)) | (exact fun (_ : MonState) hx => hx) | with_reducible assumption | lift_lets -underBinder | (intro x; have hx : a.Keeps x := (by repeat' (first | (exact ofReply_some (by assumption) (State.smWrite_keeps (by with_reducible assumption) _ _)) | (exact State.descWrite_some (by assumption) (by with_reducible assumption)) | (exact State.actCmd_some (by assumption) (by with_reducible assumption)) | (exact State.dclCtrl_some (by assumption) (by with_reducible assumption)) | (exact State.gdlClr_some (by assumption) (by with_reducible assumption)) | (exact State.gdhClr_some (by assumption) (by with_reducible assumption)) | (exact State.smCmd_some (by assumption) (by with_reducible assumption)) | (exact State.pwmWrite_some (by assumption) (by with_reducible assumption)) | (exact State.ceCtrl_some (by assumption) (by with_reducible assumption)) | (exact State.pgLock_some (by assumption) (by with_reducible assumption)) | (exact State.pgCtrl_some (by assumption) (by with_reducible assumption)) | (exact fun (_ : MonState) hx => hx) | with_reducible assumption | lift_lets -underBinder | (with_reducible first | apply State.Keeps.effIte | apply State.Keeps.effBind | apply State.Keeps.effGuard | apply State.Keeps.ite | apply State.Keeps.eng | apply State.Keeps.fold | apply State.Keeps.mon | apply State.actCmd_keeps | apply State.altSelect_keeps | apply State.askSs1_keeps | apply State.askSto_keeps | apply State.bulkClr_keeps | apply State.calStart_keeps | apply State.canCancel_keeps | apply State.canClrCnt_keeps | apply State.canClrOvf_keeps | apply State.canCtrl_keeps | apply State.canPhase_keeps | apply State.canPopRx_keeps | apply State.canPopTxc_keeps | apply State.canPush_keeps | apply State.ceCtrl_keeps | apply State.chgClrFault_keeps | apply State.clrActCnt_keeps | apply State.clrAfeCnt_keeps | apply State.clrChgCnt_keeps | apply State.clrConj_keeps | apply State.clrDabCnt_keeps | apply State.clrDrift_keeps | apply State.clrFbkCnt_keeps | apply State.clrFlt_keeps | apply State.clrFo_keeps | apply State.clrJrnl_keeps | apply State.clrMax_keeps | apply State.clrMiss_keeps | apply State.clrNf_keeps | apply State.clrOvr_keeps | apply State.clrSmpCnt_keeps | apply State.clrSns_keeps | apply State.clrSrc_keeps | apply State.dclCtrl_keeps | apply State.descWrite_keeps | apply State.driveK_keeps | apply State.encOffset_keeps | apply State.encRef_keeps | apply State.evcClr_keeps | apply State.evcPend_keeps | apply State.force_keeps | apply State.gdhClr_keeps | apply State.gdhTest_keeps | apply State.gdlClr_keeps | apply State.loopsClose_keeps | apply State.loopsOpen_keeps | apply State.memEffect_keeps | apply State.pgCtrl_keeps | apply State.pgLock_keeps | apply State.phaseClear_keeps | apply State.putWord_keeps | apply State.put_keeps | apply State.pwmWrite_keeps | apply State.redCtrlWrite_keeps | apply State.showMmax_keeps | apply State.smCmd_keeps | apply State.smWrite_keeps | apply State.unretire_keeps | apply need_keeps | apply ofReply_keeps | apply onBit'_keeps | apply onBit_keeps | apply State.Keeps.effOk | apply State.Keeps.effError) | (first | split | (dsimp only [x]; split)) | (intro _))); clear_value x) | (intro x; clear_value x) | (with_reducible first | apply State.Keeps.effIte | apply State.Keeps.effBind | apply State.Keeps.effGuard | apply State.Keeps.ite | apply State.Keeps.eng | apply State.Keeps.fold | apply State.Keeps.mon | apply State.actCmd_keeps | apply State.altSelect_keeps | apply State.askSs1_keeps | apply State.askSto_keeps | apply State.bulkClr_keeps | apply State.calStart_keeps | apply State.canCancel_keeps | apply State.canClrCnt_keeps | apply State.canClrOvf_keeps | apply State.canCtrl_keeps | apply State.canPhase_keeps | apply State.canPopRx_keeps | apply State.canPopTxc_keeps | apply State.canPush_keeps | apply State.ceCtrl_keeps | apply State.chgClrFault_keeps | apply State.clrActCnt_keeps | apply State.clrAfeCnt_keeps | apply State.clrChgCnt_keeps | apply State.clrConj_keeps | apply State.clrDabCnt_keeps | apply State.clrDrift_keeps | apply State.clrFbkCnt_keeps | apply State.clrFlt_keeps | apply State.clrFo_keeps | apply State.clrJrnl_keeps | apply State.clrMax_keeps | apply State.clrMiss_keeps | apply State.clrNf_keeps | apply State.clrOvr_keeps | apply State.clrSmpCnt_keeps | apply State.clrSns_keeps | apply State.clrSrc_keeps | apply State.dclCtrl_keeps | apply State.descWrite_keeps | apply State.driveK_keeps | apply State.encOffset_keeps | apply State.encRef_keeps | apply State.evcClr_keeps | apply State.evcPend_keeps | apply State.force_keeps | apply State.gdhClr_keeps | apply State.gdhTest_keeps | apply State.gdlClr_keeps | apply State.loopsClose_keeps | apply State.loopsOpen_keeps | apply State.memEffect_keeps | apply State.pgCtrl_keeps | apply State.pgLock_keeps | apply State.phaseClear_keeps | apply State.putWord_keeps | apply State.put_keeps | apply State.pwmWrite_keeps | apply State.redCtrlWrite_keeps | apply State.showMmax_keeps | apply State.smCmd_keeps | apply State.smWrite_keeps | apply State.unretire_keeps | apply need_keeps | apply ofReply_keeps | apply onBit'_keeps | apply onBit_keeps | apply State.Keeps.effOk | apply State.Keeps.effError) | split | (intro _))

theorem State.regEffect_some {a s t : State} {l : Lane} {p : Page} {off : Nat} {old : Word} {new : Word} {wo : Word} {ph : BusPhase} {peer : Bool}
    (e : State.regEffect s l p off old new wo ph peer = .ok t) (h : a.Keeps s) : a.Keeps t := State.regEffect_keeps h _ _ _ _ _ _ _ _ t e

theorem State.clsApplied_keeps {a s : State} (h : a.Keeps s) (n : Fin 8) (was : Bool) (now : Bool) :
    a.Keeps (State.clsApplied s n was now) := by
  unfold State.clsApplied
  repeat' (first | with_reducible assumption | (with_reducible first | apply State.Keeps.ite | apply State.Keeps.both | apply State.modCls_keeps | apply State.put_keeps) | (intro _))

theorem State.applied_keeps {a s : State} (h : a.Keeps s) (p : Page) (off : Nat) (old : Word) (new : Word) (wo : Word) :
    a.Keeps (State.applied s p off old new wo) := by
  unfold State.applied
  repeat' (first | with_reducible assumption | lift_lets -underBinder | (intro x; have hx : a.Keeps x := (by repeat' (first | with_reducible assumption | lift_lets -underBinder | (with_reducible first | apply State.Keeps.ite | apply State.Keeps.both | apply State.Keeps.hv | apply State.acknowledge_keeps | apply State.clsApplied_keeps | apply State.clsJudge_keeps | apply State.connUpdate_keeps | apply State.driveK_keeps | apply State.monClrCnt_keeps | apply State.monLogClear_keeps | apply State.pgCheck_keeps | apply State.showMmax_keeps | apply State.snsClock_keeps | apply onBit'_keeps | apply onBit_keeps) | (first | split | (dsimp only [x]; split)) | (intro _))); clear_value x) | (intro x; clear_value x) | (with_reducible first | apply State.Keeps.ite | apply State.Keeps.both | apply State.Keeps.hv | apply State.acknowledge_keeps | apply State.clsApplied_keeps | apply State.clsJudge_keeps | apply State.connUpdate_keeps | apply State.driveK_keeps | apply State.monClrCnt_keeps | apply State.monLogClear_keeps | apply State.pgCheck_keeps | apply State.showMmax_keeps | apply State.snsClock_keeps | apply onBit'_keeps | apply onBit_keeps) | split | (intro _))

theorem State.dualApply_keeps {a s : State} (h : a.Keeps s) (p : Page) (off : Nat) (dual wo v : Word) :
    a.Keeps (State.dualApply s p off dual wo v) := by
  unfold State.dualApply
  dsimp only
  have k : ∀ n w, a.Keeps (s.modMon (fun m => { m with regs := m.regs.write n w })) :=
    fun n w => h.mon _ (fun m hm => ⟨RegFile.write_wf _ _ _ hm.1, hm.2⟩)
  refine State.applied_keeps (State.Keeps.ite (fun _ => k _ _) (fun _ => (k _ _).both _ (fun l t ht => ?_))) ..
  exact State.Keeps.ite (fun _ => ht) (fun _ => State.putWord_keeps ht ..)

end Sys2Proof.Machine
end

