-- ==== Sys2Proof/Laws/Keeps/Write.lean ====
section
/-! SUPPORT. What the operations of Write keep. -/
namespace Sys2Proof.Machine
set_option linter.all false
set_option Elab.async false

theorem State.modSess_keeps {a s : State} (h : a.Keeps s) (l : Lane) (q : Option Req) (f : Sess → Sess) :
    a.Keeps (State.modSess s l q f) := by
  unfold State.modSess
  repeat' (first | (exact fun (_ : LaneState) hx => hx) | with_reducible assumption | (with_reducible first | apply State.Keeps.lane) | split | (intro _))

theorem State.passHalf_keeps {a s : State} (h : a.Keeps s) (l : Lane) (q : Option Req) (m : Merged) :
    WriteKeeps a (State.passHalf s l q m) := by
  unfold State.passHalf
  repeat' (first | (exact fun (_ : LaneState) hx => hx) | (exact fun (_ : MonState) hx => hx) | with_reducible assumption | lift_lets -underBinder | (intro x; have hx : a.Keeps x := (by repeat' (first | (exact fun (_ : LaneState) hx => hx) | (exact fun (_ : MonState) hx => hx) | with_reducible assumption | lift_lets -underBinder | (with_reducible first | apply State.Keeps.ite | apply State.Keeps.lane | apply State.Keeps.mon | apply State.acknowledge_keeps | apply State.dualApply_keeps | apply State.halfGone_keeps | apply State.modSess_keeps | apply State.monEv_keeps | apply State.Keeps.writeOk | apply State.Keeps.writeError) | (first | split | (dsimp only [x]; split)) | (intro _))); clear_value x) | (intro x; clear_value x) | (with_reducible first | apply State.Keeps.ite | apply State.Keeps.lane | apply State.Keeps.mon | apply State.acknowledge_keeps | apply State.dualApply_keeps | apply State.halfGone_keeps | apply State.modSess_keeps | apply State.monEv_keeps | apply State.Keeps.writeOk | apply State.Keeps.writeError) | split | (intro _))

theorem State.passHalf_some {a s t : State} {l : Lane} {q : Option Req} {m : Merged} {w : Status}
    (e : State.passHalf s l q m = .ok (t, w)) (h : a.Keeps s) : a.Keeps t := State.passHalf_keeps h _ _ _ t w e

theorem State.toShadow_keeps {a s : State} (h : a.Keeps s) (l : Lane) (addr : Nat) (v : Word) :
    a.Keeps (State.toShadow s l addr v) := by
  unfold State.toShadow
  repeat' (first | (exact fun (_ : LaneState) hx => hx) | with_reducible assumption | (with_reducible first | apply State.Keeps.lane) | (intro _))

theorem State.regApply_keeps {a s : State} (h : a.Keeps s) (l : Lane) (c : WCtx) (m : Merged) :
    WriteKeeps a (State.regApply s l c m) := by
  unfold State.regApply
  repeat' (first | (dsimp only [pure, Except.pure, throw, throwThe, MonadExceptOf.throw]) | (exact State.passHalf_some (by assumption) (by with_reducible assumption)) | (exact State.regEffect_some (by assumption) (by with_reducible assumption)) | with_reducible assumption | lift_lets -underBinder | (intro x; have hx : a.Keeps x := (by repeat' (first | (dsimp only [pure, Except.pure, throw, throwThe, MonadExceptOf.throw]) | (exact State.passHalf_some (by assumption) (by with_reducible assumption)) | (exact State.regEffect_some (by assumption) (by with_reducible assumption)) | with_reducible assumption | lift_lets -underBinder | (with_reducible first | apply State.Keeps.writeBind | apply State.Keeps.writeBindEff | apply State.Keeps.writeGuard | apply State.Keeps.ite | apply State.modSess_keeps | apply State.passHalf_keeps | apply State.regEffect_keeps | apply State.toShadow_keeps | apply State.Keeps.effOk | apply State.Keeps.effError | apply State.Keeps.writeOk | apply State.Keeps.writeError) | (first | split | (dsimp only [x]; split)) | (intro _))); clear_value x) | (intro x; clear_value x) | (with_reducible first | apply State.Keeps.writeBind | apply State.Keeps.writeBindEff | apply State.Keeps.writeGuard | apply State.Keeps.ite | apply State.modSess_keeps | apply State.passHalf_keeps | apply State.regEffect_keeps | apply State.toShadow_keeps | apply State.Keeps.effOk | apply State.Keeps.effError | apply State.Keeps.writeOk | apply State.Keeps.writeError) | split | (intro _))

theorem State.regApply_some {a s t : State} {l : Lane} {c : WCtx} {m : Merged} {w : Status}
    (e : State.regApply s l c m = .ok (t, w)) (h : a.Keeps s) : a.Keeps t := State.regApply_keeps h _ _ _ t w e

theorem State.regWrite_keeps {a s : State} (h : a.Keeps s) (l : Lane) (c : WCtx) (p : Page) (off : Nat) (data : Word) (be : BitVec 4) :
    WriteKeeps a (State.regWrite s l c p off data be) := by
  unfold State.regWrite
  repeat' (first | (exact State.regApply_some (by assumption) (by with_reducible assumption)) | with_reducible assumption | lift_lets -underBinder | (intro x; have hx : a.Keeps x := (by repeat' (first | (exact State.regApply_some (by assumption) (by with_reducible assumption)) | with_reducible assumption | lift_lets -underBinder | (with_reducible first | apply State.regApply_keeps | apply State.Keeps.writeOk | apply State.Keeps.writeError) | (first | split | (dsimp only [x]; split)) | (intro _))); clear_value x) | (intro x; clear_value x) | (with_reducible first | apply State.regApply_keeps | apply State.Keeps.writeOk | apply State.Keeps.writeError) | split | (intro _))

theorem State.regWrite_some {a s t : State} {l : Lane} {c : WCtx} {p : Page} {off : Nat} {data : Word} {be : BitVec 4} {w : Status}
    (e : State.regWrite s l c p off data be = .ok (t, w)) (h : a.Keeps s) : a.Keeps t := State.regWrite_keeps h _ _ _ _ _ _ t w e

theorem State.winWrite_keeps {a s : State} (h : a.Keeps s) (l : Lane) (c : WCtx) (addr : Nat) (b : Nat) (data : Word) (be : BitVec 4) :
    WriteKeeps a (State.winWrite s l c addr b data be) := by
  unfold State.winWrite
  repeat' (first | (exact fun _ => ⟨rfl, rfl, rfl, rfl, rfl⟩) | (intro _ hm; dsimp only; exact memWriteBytes_wf _ _ _ _ hm) | (exact fun (_ : LaneState) hx => hx) | with_reducible assumption | lift_lets -underBinder | (intro x; have hx : a.Keeps x := (by repeat' (first | (exact fun _ => ⟨rfl, rfl, rfl, rfl, rfl⟩) | (intro _ hm; dsimp only; exact memWriteBytes_wf _ _ _ _ hm) | (exact fun (_ : LaneState) hx => hx) | with_reducible assumption | lift_lets -underBinder | (with_reducible first | apply State.Keeps.mem | apply State.Keeps.ite | apply State.Keeps.eng | apply State.Keeps.lane | apply State.Keeps.writeOk | apply State.Keeps.writeError) | (first | split | (dsimp only [x]; split)) | (intro _))); clear_value x) | (intro x; clear_value x) | (with_reducible first | apply State.Keeps.mem | apply State.Keeps.ite | apply State.Keeps.eng | apply State.Keeps.lane | apply State.Keeps.writeOk | apply State.Keeps.writeError) | split | (intro _))

theorem State.winWrite_some {a s t : State} {l : Lane} {c : WCtx} {addr : Nat} {b : Nat} {data : Word} {be : BitVec 4} {w : Status}
    (e : State.winWrite s l c addr b data be = .ok (t, w)) (h : a.Keeps s) : a.Keeps t := State.winWrite_keeps h _ _ _ _ _ _ t w e

theorem State.writeWord_keeps {a s : State} (h : a.Keeps s) (l : Lane) (c : WCtx) (addr : Nat) (data : Word) (be : BitVec 4) :
    WriteKeeps a (State.writeWord s l c addr data be) := by
  unfold State.writeWord
  repeat' (first | (exact State.regWrite_some (by assumption) (by with_reducible assumption)) | (exact State.winWrite_some (by assumption) (by with_reducible assumption)) | with_reducible assumption | (with_reducible first | apply State.Keeps.ite | apply State.regWrite_keeps | apply State.winWrite_keeps | apply State.Keeps.writeOk | apply State.Keeps.writeError) | split | (intro _))

theorem State.writeWord_some {a s t : State} {l : Lane} {c : WCtx} {addr : Nat} {data : Word} {be : BitVec 4} {w : Status}
    (e : State.writeWord s l c addr data be = .ok (t, w)) (h : a.Keeps s) : a.Keeps t := State.writeWord_keeps h _ _ _ _ _ t w e

theorem State.writeShared_keeps {a s : State} (h : a.Keeps s) (l : Lane) (c : WCtx) (addr : Nat) (data : Word) (be : BitVec 4) (rmw : Bool) :
    WriteKeeps a (State.writeShared s l c addr data be rmw) := by
  unfold State.writeShared
  repeat' (first | (dsimp only [pure, Except.pure, throw, throwThe, MonadExceptOf.throw]) | (exact State.writeWord_some (by assumption) (by with_reducible assumption)) | with_reducible assumption | lift_lets -underBinder | (intro x; have hx : a.Keeps x := (by repeat' (first | (dsimp only [pure, Except.pure, throw, throwThe, MonadExceptOf.throw]) | (exact State.writeWord_some (by assumption) (by with_reducible assumption)) | with_reducible assumption | lift_lets -underBinder | (with_reducible first | apply State.Keeps.writeBind | apply State.Keeps.writeBindEff | apply State.Keeps.writeGuard | apply State.Keeps.ite | apply State.journalIn_keeps | apply State.modSess_keeps | apply State.writeWord_keeps | apply State.Keeps.writeOk | apply State.Keeps.writeError) | (first | split | (dsimp only [x]; split)) | (intro _))); clear_value x) | (intro x; clear_value x) | (with_reducible first | apply State.Keeps.writeBind | apply State.Keeps.writeBindEff | apply State.Keeps.writeGuard | apply State.Keeps.ite | apply State.journalIn_keeps | apply State.modSess_keeps | apply State.writeWord_keeps | apply State.Keeps.writeOk | apply State.Keeps.writeError) | split | (intro _))

theorem State.writeShared_some {a s t : State} {l : Lane} {c : WCtx} {addr : Nat} {data : Word} {be : BitVec 4} {rmw : Bool} {w : Status}
    (e : State.writeShared s l c addr data be rmw = .ok (t, w)) (h : a.Keeps s) : a.Keeps t := State.writeShared_keeps h _ _ _ _ _ _ t w e

theorem State.writeAll_keeps {a : State} (l : Lane) (c : WCtx) (be : BitVec 4) (rmw : Bool) (ws : List Word) {s : State}
    (h : a.Keeps s) (n : Nat) (st : Status) : WriteKeeps a (State.writeAll s l c be rmw n ws st) := by
  induction ws generalizing s n st with
  | nil => unfold State.writeAll; exact State.Keeps.writeOk h _
  | cons w t ih =>
    unfold State.writeAll
    exact State.Keeps.writeBind _ _ (State.writeShared_keeps h _ _ _ _ _ _) (fun u st' hu => ih hu _ _)

theorem State.writeAll_some {a s t : State} {l : Lane} {c : WCtx} {be : BitVec 4} {rmw : Bool} {ws : List Word} {n : Nat} {st w : Status}
    (e : State.writeAll s l c be rmw n ws st = .ok (t, w)) (h : a.Keeps s) : a.Keeps t := State.writeAll_keeps _ _ _ _ _ h _ _ _ _ e

theorem State.writes_keeps {a s : State} (h : a.Keeps s) (l : Lane) (c : WCtx) (addr : Nat) (ws : List Word) (be : BitVec 4) (rmw : Bool) :
    a.Keeps (State.writes s l c addr ws be rmw) := by
  unfold State.writes
  repeat' (first | (exact State.writeAll_some (by assumption) (by with_reducible assumption)) | (exact State.smCmd_some (by assumption) (by with_reducible assumption)) | with_reducible assumption | lift_lets -underBinder | (intro x; have hx : a.Keeps x := (by repeat' (first | (exact State.writeAll_some (by assumption) (by with_reducible assumption)) | (exact State.smCmd_some (by assumption) (by with_reducible assumption)) | with_reducible assumption | lift_lets -underBinder | (with_reducible first | apply State.Keeps.ite | apply State.commitTable_keeps | apply State.reject_keeps | apply State.reply_keeps | apply State.smCmd_keeps | apply State.smWrite_keeps | apply State.turnDown_keeps | apply State.writeAll_keeps) | (first | split | (dsimp only [x]; split)) | (intro _))); clear_value x) | (intro x; dsimp -zeta only [x]; clear x) | (intro x; clear_value x) | (with_reducible first | apply State.Keeps.ite | apply State.commitTable_keeps | apply State.reject_keeps | apply State.reply_keeps | apply State.smCmd_keeps | apply State.smWrite_keeps | apply State.turnDown_keeps | apply State.writeAll_keeps) | split | (intro _))

end Sys2Proof.Machine
end

