-- ==== Sys2Proof/Laws/Keeps/Registers.lean ====
section
/-! SUPPORT. What the operations of Registers keep. -/
namespace Sys2Proof.Machine
set_option linter.all false
set_option Elab.async false

theorem State.answerTo_keeps {a s : State} (h : a.Keeps s) (l : Lane) (type : Byte) (q : Req) (addr : Nat) (d : List Byte) (e : Bool) :
    a.Keeps (State.answerTo s l type q addr d e) := by
  unfold State.answerTo
  repeat' (first | with_reducible assumption | lift_lets -underBinder | (intro x; have hx : a.Keeps x := (by repeat' (first | with_reducible assumption | lift_lets -underBinder | (with_reducible first | apply State.Keeps.ite | apply State.bump_keeps | apply State.send_keeps) | (intro _))); clear_value x) | (intro x; clear_value x) | (with_reducible first | apply State.Keeps.ite | apply State.bump_keeps | apply State.send_keeps) | (intro _))

theorem State.respond_keeps {a s : State} (h : a.Keeps s) (l : Lane) (x : Access) (d : List Byte) :
    a.Keeps (State.respond s l x d) := by
  unfold State.respond
  repeat' (first | with_reducible assumption | lift_lets -underBinder | (intro x; have hx : a.Keeps x := (by repeat' (first | with_reducible assumption | lift_lets -underBinder | (with_reducible first | apply State.Keeps.fold | apply State.answerTo_keeps) | (first | split | (dsimp only [x]; split)) | (intro _))); clear_value x) | (intro x; clear_value x) | (with_reducible first | apply State.Keeps.fold | apply State.answerTo_keeps) | split | (intro _))

theorem State.mirror_keeps {a s : State} (h : a.Keeps s) (l : Lane) (x : Access) :
    a.Keeps (State.mirror s l x) := by
  unfold State.mirror
  repeat' (first | (exact State.writeWord_some (by assumption) (by with_reducible assumption)) | with_reducible assumption | lift_lets -underBinder | (intro x; have hx : a.Keeps x := (by repeat' (first | (exact State.writeWord_some (by assumption) (by with_reducible assumption)) | with_reducible assumption | lift_lets -underBinder | (with_reducible first | apply State.Keeps.ite | apply State.modSess_keeps | apply State.reply_keeps | apply State.writeWord_keeps) | (first | split | (dsimp only [x]; split)) | (intro _))); clear_value x) | (intro x; clear_value x) | (with_reducible first | apply State.Keeps.ite | apply State.modSess_keeps | apply State.reply_keeps | apply State.writeWord_keeps) | split | (intro _))

theorem State.perform_keeps {a s : State} (h : a.Keeps s) (l : Lane) (x : Access) : a.Keeps (s.perform l x).1 := by
  unfold State.perform
  dsimp only
  split
  · exact State.mirror_keeps (State.writes_keeps h ..) ..
  · exact State.writes_keeps h ..
  · exact State.reply_keeps h ..

theorem State.finish_keeps {a s : State} (h : a.Keeps s) (l : Lane) (x : Access) :
    a.Keeps (State.finish s l x) := by
  unfold State.finish
  repeat' (first | with_reducible assumption | lift_lets -underBinder | (intro x; have hx : a.Keeps x := (by repeat' (first | with_reducible assumption | lift_lets -underBinder | (with_reducible first | apply State.Keeps.ite | apply State.accept_keeps | apply State.perform_keeps | apply State.respond_keeps) | (first | split | (dsimp only [x]; split)) | (intro _))); clear_value x) | (intro x; clear_value x) | (with_reducible first | apply State.Keeps.ite | apply State.accept_keeps | apply State.perform_keeps | apply State.respond_keeps) | split | (intro _))

theorem State.finishWaiting_keeps {a s : State} (h : a.Keeps s) (l : Lane) (x : Access) :
    a.Keeps (State.finishWaiting s l x) := by
  unfold State.finishWaiting
  repeat' (first | with_reducible assumption | lift_lets -underBinder | (intro x; have hx : a.Keeps x := (by repeat' (first | with_reducible assumption | lift_lets -underBinder | (with_reducible first | apply State.Keeps.ite | apply State.Keeps.both | apply State.finish_keeps | apply State.modSess_keeps) | (first | split | (dsimp only [x]; split)) | (intro _))); clear_value x) | (intro x; clear_value x) | (with_reducible first | apply State.Keeps.ite | apply State.Keeps.both | apply State.finish_keeps | apply State.modSess_keeps) | split | (intro _))

theorem State.drainN_keeps {a s : State} (h : a.Keeps s) (l : Lane) (n : Nat) : a.Keeps (State.drainN s l n) := by
  induction n generalizing s with
  | zero => exact h
  | succ n ih =>
    unfold State.drainN
    split
    · exact h
    · refine ih (State.finishWaiting_keeps ?_ ..)
      with_reducible apply State.Keeps.lane
      · exact h
      · exact fun _ hx => hx

theorem State.drain_keeps {a s : State} (h : a.Keeps s) : a.Keeps (State.drain s) :=
  h.both _ (fun _ _ ht => State.drainN_keeps ht ..)

theorem State.joinWaiting_keeps {a s : State} (h : a.Keeps s) (l : Lane) (x : Access) :
    OptKeeps a (State.joinWaiting s l x) := by
  unfold State.joinWaiting
  repeat' (first | (exact fun (_ : LaneState) hx => hx) | with_reducible assumption | (with_reducible first | apply State.Keeps.ite | apply State.Keeps.lane | apply State.Keeps.optSome | apply State.Keeps.optNone) | split | (intro _))

theorem State.joinWaiting_some {a s t : State} {l : Lane} {x : Access}
    (e : State.joinWaiting s l x = some t) (h : a.Keeps s) : a.Keeps t := State.joinWaiting_keeps h _ _ t e

theorem State.refuse_keeps {a s : State} (h : a.Keeps s) (l : Lane) (x : Access) (st : Status) :
    a.Keeps (State.refuse s l x st) := by
  unfold State.refuse
  repeat' (first | with_reducible assumption | lift_lets -underBinder | (intro x; have hx : a.Keeps x := (by repeat' (first | with_reducible assumption | lift_lets -underBinder | (with_reducible first | apply State.Keeps.ite | apply State.accept_keeps | apply State.reject_keeps | apply State.reply_keeps | apply State.respond_keeps) | (first | split | (dsimp only [x]; split)) | (intro _))); clear_value x) | (intro x; clear_value x) | (with_reducible first | apply State.Keeps.ite | apply State.accept_keeps | apply State.reject_keeps | apply State.reply_keeps | apply State.respond_keeps) | split | (intro _))

theorem State.access_keeps {a s : State} (h : a.Keeps s) (l : Lane) (x : Access) (bad : Option Status) :
    a.Keeps (State.access s l x bad) := by
  unfold State.access
  repeat' (first | (exact State.joinWaiting_some (by assumption) (by with_reducible assumption)) | (exact fun (_ : LaneState) hx => hx) | with_reducible assumption | lift_lets -underBinder | (intro x; have hx : a.Keeps x := (by repeat' (first | (exact State.joinWaiting_some (by assumption) (by with_reducible assumption)) | (exact fun (_ : LaneState) hx => hx) | with_reducible assumption | lift_lets -underBinder | (with_reducible first | apply State.Keeps.ite | apply State.Keeps.lane | apply State.drain_keeps | apply State.finish_keeps | apply State.fresh_keeps | apply State.joinWaiting_keeps | apply State.perform_keeps | apply State.refuse_keeps | apply State.reject_keeps | apply State.reply_keeps | apply State.respond_keeps) | (first | split | (dsimp only [x]; split)) | (intro _))); clear_value x) | (intro x; dsimp -zeta only [x]; clear x) | (intro x; clear_value x) | (with_reducible first | apply State.Keeps.ite | apply State.Keeps.lane | apply State.drain_keeps | apply State.finish_keeps | apply State.fresh_keeps | apply State.joinWaiting_keeps | apply State.perform_keeps | apply State.refuse_keeps | apply State.reject_keeps | apply State.reply_keeps | apply State.respond_keeps) | split | (intro _))

theorem State.write1_keeps {a s : State} (h : a.Keeps s) (l : Lane) (q : Option Req) (addr : Nat) (w : Word) (be : BitVec 4) :
    a.Keeps (State.write1 s l q addr w be) := by
  unfold State.write1
  repeat' (first | with_reducible assumption | (with_reducible first | apply State.access_keeps) | (intro _))

theorem execRegisterWrite_keeps {a s : State} (h : a.Keeps s) (l : Lane) (addr : BitVec 24) (data : Word) (be : BitVec 4) (q : Option Req) (ph : BusPhase) :
    OutKeeps a (execRegisterWrite l addr data be q ph s) := by
  unfold execRegisterWrite
  repeat' (first | with_reducible assumption | (with_reducible first | apply State.access_keeps | apply done_keeps) | (intro _))

theorem execBlockSoftReset_keeps {a s : State} (h : a.Keeps s) (l : Lane) (pg : BitVec 12) (q : Option Req) :
    OutKeeps a (execBlockSoftReset l pg q s) := by
  unfold execBlockSoftReset
  repeat' (first | with_reducible assumption | (with_reducible first | apply State.write1_keeps | apply done_keeps) | (intro _))

theorem execLockSet_keeps {a s : State} (h : a.Keeps s) (l : Lane) (pg : BitVec 12) (w : Word) (q : Option Req) :
    OutKeeps a (execLockSet l pg w q s) := by
  unfold execLockSet
  repeat' (first | with_reducible assumption | (with_reducible first | apply State.write1_keeps | apply done_keeps) | (intro _))

theorem execEventForce_keeps {a s : State} (h : a.Keeps s) (l : Lane) (pg : BitVec 12) (w : Word) (q : Option Req) :
    OutKeeps a (execEventForce l pg w q s) := by
  unfold execEventForce
  repeat' (first | with_reducible assumption | (with_reducible first | apply State.write1_keeps | apply done_keeps) | (intro _))

theorem execDualWriteHalf_keeps {a s : State} (h : a.Keeps s) (l : Lane) (addr : BitVec 24) (data : Word) (q : Option Req) :
    OutKeeps a (execDualWriteHalf l addr data q s) := by
  unfold execDualWriteHalf
  repeat' (first | with_reducible assumption | (with_reducible first | apply State.write1_keeps | apply done_keeps) | (intro _))

theorem execDualTimeout_keeps {a s : State} (h : a.Keeps s) (l : Lane) (addr : BitVec 24) :
    OutKeeps a (execDualTimeout l addr s) := by
  unfold execDualTimeout
  repeat' (first | (exact fun (_ : MonState) hx => hx) | with_reducible assumption | lift_lets -underBinder | (intro x; have hx : a.Keeps x := (by repeat' (first | (exact fun (_ : MonState) hx => hx) | with_reducible assumption | lift_lets -underBinder | (with_reducible first | apply State.Keeps.ite | apply State.Keeps.mon | apply State.halfGone_keeps | apply State.monEv_keeps | apply done_keeps) | (first | split | (dsimp only [x]; split)) | (intro _))); clear_value x) | (intro x; dsimp -zeta only [x]; clear x) | (intro x; clear_value x) | (with_reducible first | apply State.Keeps.ite | apply State.Keeps.mon | apply State.halfGone_keeps | apply State.monEv_keeps | apply done_keeps) | split | (intro _))

theorem execDualHalfLaneTimeout_keeps {a s : State} (h : a.Keeps s) (l : Lane) (addr : BitVec 24) :
    OutKeeps a (execDualHalfLaneTimeout l addr s) := by
  unfold execDualHalfLaneTimeout
  repeat' (first | with_reducible assumption | (with_reducible first | apply State.Keeps.ite | apply State.halfGone_keeps | apply done_keeps) | split | (intro _))

theorem execSignalAccess_keeps {a s : State} (h : a.Keeps s) (l : Lane) (n : BitVec 14) (w : Option Word) (q : Option Req) (ph : BusPhase) :
    OutKeeps a (execSignalAccess l n w q ph s) := by
  unfold execSignalAccess
  repeat' (first | with_reducible assumption | lift_lets -underBinder | (intro x; have hx : a.Keeps x := (by repeat' (first | with_reducible assumption | lift_lets -underBinder | (with_reducible first | apply State.Keeps.ite | apply State.Keeps.fold | apply State.access_keeps | apply State.mirror_keeps | apply done_keeps) | (first | split | (dsimp only [x]; split)) | (intro _))); clear_value x) | (intro x; clear_value x) | (with_reducible first | apply State.Keeps.ite | apply State.Keeps.fold | apply State.access_keeps | apply State.mirror_keeps | apply done_keeps) | split | (intro _))

theorem State.periodIn_keeps {a s : State} (h : a.Keeps s) (l : Lane) (q : Req) (ends : List Bool) :
    a.Keeps (State.periodIn s l q ends) := by
  unfold State.periodIn
  repeat' (first | (exact fun (_ : LaneState) hx => hx) | with_reducible assumption | lift_lets -underBinder | (intro x; have hx : a.Keeps x := (by repeat' (first | (exact fun (_ : LaneState) hx => hx) | with_reducible assumption | lift_lets -underBinder | (with_reducible first | apply State.Keeps.ite | apply State.Keeps.fold | apply State.Keeps.lane | apply State.modSess_keeps) | (first | split | (dsimp only [x]; split)) | (intro _))); clear_value x) | (intro x; clear_value x) | (with_reducible first | apply State.Keeps.ite | apply State.Keeps.fold | apply State.Keeps.lane | apply State.modSess_keeps) | split | (intro _))

theorem State.respondPeriod_keeps {a s : State} (h : a.Keeps s) (l : Lane) (q : Req) (ends : List Bool) :
    a.Keeps (State.respondPeriod s l q ends) := by
  unfold State.respondPeriod
  repeat' (first | with_reducible assumption | (with_reducible first | apply State.Keeps.fold | apply State.answerTo_keeps) | (intro _))

theorem State.period_keeps {a s : State} (h : a.Keeps s) (l : Lane) (q : Req) (ends : List Bool) (bad : Option Status) :
    a.Keeps (State.period s l q ends bad) := by
  unfold State.period
  repeat' (first | with_reducible assumption | lift_lets -underBinder | (intro x; have hx : a.Keeps x := (by repeat' (first | with_reducible assumption | lift_lets -underBinder | (with_reducible first | apply State.Keeps.ite | apply State.accept_keeps | apply State.modSess_keeps | apply State.periodIn_keeps | apply State.reject_keeps | apply State.reply_keeps | apply State.respondPeriod_keeps) | (first | split | (dsimp only [x]; split)) | (intro _))); clear_value x) | (intro x; clear_value x) | (with_reducible first | apply State.Keeps.ite | apply State.accept_keeps | apply State.modSess_keeps | apply State.periodIn_keeps | apply State.reject_keeps | apply State.reply_keeps | apply State.respondPeriod_keeps) | split | (intro _))

theorem State.arm_keeps {a s : State} (h : a.Keeps s) (l : Lane) (q : Req) :
    a.Keeps (State.arm s l q) := by
  unfold State.arm
  repeat' (first | (exact fun (_ : LaneState) hx => hx) | with_reducible assumption | (with_reducible first | apply State.Keeps.ite | apply State.Keeps.lane) | (intro _))

theorem execPeriodComplete_keeps {a s : State} (h : a.Keeps s) (l : Lane) (k : Fin 4) :
    OutKeeps a (execPeriodComplete l k s) := by
  unfold execPeriodComplete
  repeat' (first | with_reducible assumption | lift_lets -underBinder | (intro x; have hx : a.Keeps x := (by repeat' (first | with_reducible assumption | lift_lets -underBinder | (with_reducible first | apply State.Keeps.ite | apply State.accept_keeps | apply State.arm_keeps | apply State.modSess_keeps | apply State.reply_keeps | apply State.respondPeriod_keeps | apply done_keeps) | (first | split | (dsimp only [x]; split)) | (intro _))); clear_value x) | (intro x; clear_value x) | (with_reducible first | apply State.Keeps.ite | apply State.accept_keeps | apply State.arm_keeps | apply State.modSess_keeps | apply State.reply_keeps | apply State.respondPeriod_keeps | apply done_keeps) | split | (intro _))

theorem execShadowArmPeer_keeps {a s : State} (h : a.Keeps s) (l : Lane) (q : Req) :
    OutKeeps a (execShadowArmPeer l q s) := by
  unfold execShadowArmPeer
  repeat' (first | with_reducible assumption | lift_lets -underBinder | (intro x; have hx : a.Keeps x := (by repeat' (first | with_reducible assumption | lift_lets -underBinder | (with_reducible first | apply State.Keeps.ite | apply State.arm_keeps | apply done_keeps) | (first | split | (dsimp only [x]; split)) | (intro _))); clear_value x) | (intro x; clear_value x) | (with_reducible first | apply State.Keeps.ite | apply State.arm_keeps | apply done_keeps) | split | (intro _))

theorem State.feedDroop_keeps {a s : State} (h : a.Keeps s) (l : Lane) : a.Keeps (State.feedDroop s l) := by
  unfold State.feedDroop
  dsimp only
  refine State.Keeps.ite (fun _ => h) (fun _ => h.mem l _ (fun x hm => ?_) (fun _ => ⟨rfl, rfl, rfl, rfl, rfl⟩))
  have key : ∀ (as : List Nat) (w : Word) (m : Mem), Memory.wf 0 m = true →
      Memory.wf 0 (as.foldl (fun m a => Machine.mput m a w) m) = true := by
    intro as w
    induction as with
    | nil => intro m hm; exact hm
    | cons b t ih => intro m hm; exact ih _ (mput_wf _ _ _ hm)
  exact key _ _ _ hm

theorem State.transferShadows_keeps {a s : State} (h : a.Keeps s) (l : Lane) :
    a.Keeps (State.transferShadows s l) := by
  unfold State.transferShadows
  repeat' (first | (exact fun (_ : LaneState) hx => hx) | with_reducible assumption | lift_lets -underBinder | (intro x; have hx : a.Keeps x := (by repeat' (first | (exact fun (_ : LaneState) hx => hx) | with_reducible assumption | lift_lets -underBinder | (with_reducible first | apply State.Keeps.ite | apply State.Keeps.fold | apply State.Keeps.lane | apply State.drain_keeps | apply State.feedDroop_keeps | apply State.putWord_keeps) | (first | split | (dsimp only [x]; split)) | (intro _))); clear_value x) | (intro x; clear_value x) | (with_reducible first | apply State.Keeps.ite | apply State.Keeps.fold | apply State.Keeps.lane | apply State.drain_keeps | apply State.feedDroop_keeps | apply State.putWord_keeps) | split | (intro _))

theorem execShadowTransfer_keeps {a s : State} (h : a.Keeps s) (l : Lane) :
    OutKeeps a (execShadowTransfer l s) := by
  unfold execShadowTransfer
  repeat' (first | with_reducible assumption | (with_reducible first | apply State.Keeps.ite | apply State.transferShadows_keeps | apply done_keeps) | split | (intro _))

theorem execDclWrite_keeps {a s : State} (h : a.Keeps s) (l : Lane) (off : BitVec 12) (data : Word) (be : BitVec 4) (q : Option Req) :
    OutKeeps a (execDclWrite l off data be q s) := by
  unfold execDclWrite
  repeat' (first | with_reducible assumption | (with_reducible first | apply State.write1_keeps | apply done_keeps) | (intro _))

theorem execDclEnable_keeps {a s : State} (h : a.Keeps s) (l : Lane) (q : Option Req) :
    OutKeeps a (execDclEnable l q s) := by
  unfold execDclEnable
  repeat' (first | with_reducible assumption | (with_reducible first | apply State.write1_keeps | apply done_keeps) | split | (intro _))

theorem execDclDisable_keeps {a s : State} (h : a.Keeps s) (l : Lane) (q : Option Req) :
    OutKeeps a (execDclDisable l q s) := by
  unfold execDclDisable
  repeat' (first | with_reducible assumption | (with_reducible first | apply State.write1_keeps | apply done_keeps) | (intro _))

theorem execPhaseClear_keeps {a s : State} (h : a.Keeps s) (l : Lane) (m : Fin 4) (q : Option Req) :
    OutKeeps a (execPhaseClear l m q s) := by
  unfold execPhaseClear
  repeat' (first | with_reducible assumption | (with_reducible first | apply State.write1_keeps | apply done_keeps) | (intro _))

theorem execDclClrCnt_keeps {a s : State} (h : a.Keeps s) (l : Lane) (q : Option Req) :
    OutKeeps a (execDclClrCnt l q s) := by
  unfold execDclClrCnt
  repeat' (first | with_reducible assumption | (with_reducible first | apply State.write1_keeps | apply done_keeps) | (intro _))

theorem execChgClrFault_keeps {a s : State} (h : a.Keeps s) (l : Lane) (q : Option Req) :
    OutKeeps a (execChgClrFault l q s) := by
  unfold execChgClrFault
  repeat' (first | with_reducible assumption | (with_reducible first | apply State.write1_keeps | apply done_keeps) | (intro _))

theorem execChgClrCnt_keeps {a s : State} (h : a.Keeps s) (l : Lane) (q : Option Req) :
    OutKeeps a (execChgClrCnt l q s) := by
  unfold execChgClrCnt
  repeat' (first | with_reducible assumption | (with_reducible first | apply State.write1_keeps | apply done_keeps) | (intro _))

theorem execAfeClrCnt_keeps {a s : State} (h : a.Keeps s) (l : Lane) (q : Option Req) :
    OutKeeps a (execAfeClrCnt l q s) := by
  unfold execAfeClrCnt
  repeat' (first | with_reducible assumption | (with_reducible first | apply State.write1_keeps | apply done_keeps) | (intro _))

theorem execDabClrCnt_keeps {a s : State} (h : a.Keeps s) (l : Lane) (q : Option Req) :
    OutKeeps a (execDabClrCnt l q s) := by
  unfold execDabClrCnt
  repeat' (first | with_reducible assumption | (with_reducible first | apply State.write1_keeps | apply done_keeps) | (intro _))

theorem execRingClrCnt_keeps {a s : State} (h : a.Keeps s) (l : Lane) (q : Option Req) :
    OutKeeps a (execRingClrCnt l q s) := by
  unfold execRingClrCnt
  repeat' (first | with_reducible assumption | (with_reducible first | apply State.write1_keeps | apply done_keeps) | (intro _))

theorem State.actWrite_keeps {a s : State} (h : a.Keeps s) (l : Lane) (a' : Fin 2) (q : Option Req) (c : Word) :
    a.Keeps (State.actWrite s l a' q c) := by
  unfold State.actWrite
  repeat' (first | with_reducible assumption | (with_reducible first | apply State.write1_keeps) | (intro _))

theorem execActMove_keeps {a s : State} (h : a.Keeps s) (l : Lane) (a' : Fin 2) (q : Option Req) :
    OutKeeps a (execActMove l a' q s) := by
  unfold execActMove
  repeat' (first | with_reducible assumption | (with_reducible first | apply State.actWrite_keeps | apply done_keeps) | (intro _))

theorem execActHome_keeps {a s : State} (h : a.Keeps s) (l : Lane) (a' : Fin 2) (q : Option Req) :
    OutKeeps a (execActHome l a' q s) := by
  unfold execActHome
  repeat' (first | with_reducible assumption | (with_reducible first | apply State.actWrite_keeps | apply done_keeps) | (intro _))

theorem execActLearn_keeps {a s : State} (h : a.Keeps s) (l : Lane) (a' : Fin 2) (q : Option Req) :
    OutKeeps a (execActLearn l a' q s) := by
  unfold execActLearn
  repeat' (first | with_reducible assumption | (with_reducible first | apply State.actWrite_keeps | apply done_keeps) | (intro _))

theorem execActStop_keeps {a s : State} (h : a.Keeps s) (l : Lane) (a' : Fin 2) (q : Option Req) :
    OutKeeps a (execActStop l a' q s) := by
  unfold execActStop
  repeat' (first | with_reducible assumption | (with_reducible first | apply State.actWrite_keeps | apply done_keeps) | (intro _))

theorem execActCoast_keeps {a s : State} (h : a.Keeps s) (l : Lane) (a' : Fin 2) (q : Option Req) :
    OutKeeps a (execActCoast l a' q s) := by
  unfold execActCoast
  repeat' (first | with_reducible assumption | (with_reducible first | apply State.actWrite_keeps | apply done_keeps) | (intro _))

theorem execActClear_keeps {a s : State} (h : a.Keeps s) (l : Lane) (a' : Fin 2) (q : Option Req) :
    OutKeeps a (execActClear l a' q s) := by
  unfold execActClear
  repeat' (first | with_reducible assumption | (with_reducible first | apply State.actWrite_keeps | apply done_keeps) | (intro _))

theorem execActClrCnt_keeps {a s : State} (h : a.Keeps s) (l : Lane) (a' : Fin 2) (q : Option Req) :
    OutKeeps a (execActClrCnt l a' q s) := by
  unfold execActClrCnt
  repeat' (first | with_reducible assumption | (with_reducible first | apply State.write1_keeps | apply done_keeps) | (intro _))

theorem execRedWrite_keeps {a s : State} (h : a.Keeps s) (l : Lane) (off : BitVec 12) (data : Word) (be : BitVec 4) (q : Option Req) :
    OutKeeps a (execRedWrite l off data be q s) := by
  unfold execRedWrite
  repeat' (first | with_reducible assumption | (with_reducible first | apply State.write1_keeps | apply done_keeps) | (intro _))

theorem execSafAck_keeps {a s : State} (h : a.Keeps s) (l : Lane) (q : Option Req) :
    OutKeeps a (execSafAck l q s) := by
  unfold execSafAck
  repeat' (first | with_reducible assumption | (with_reducible first | apply State.write1_keeps | apply done_keeps) | (intro _))

theorem execMonLogClrCnt_keeps {a s : State} (h : a.Keeps s) (l : Lane) (q : Option Req) :
    OutKeeps a (execMonLogClrCnt l q s) := by
  unfold execMonLogClrCnt
  repeat' (first | with_reducible assumption | (with_reducible first | apply State.write1_keeps | apply done_keeps) | (intro _))

theorem execMonLogClear_keeps {a s : State} (h : a.Keeps s) (l : Lane) (q : Option Req) :
    OutKeeps a (execMonLogClear l q s) := by
  unfold execMonLogClear
  repeat' (first | with_reducible assumption | (with_reducible first | apply State.write1_keeps | apply done_keeps) | (intro _))

end Sys2Proof.Machine
end

