-- ==== Sys2Proof/Laws/Keeps/Ring.lean ====
section
/-! SUPPORT. What the operations of Ring keep. -/
namespace Sys2Proof.Machine
set_option linter.all false
set_option Elab.async false

theorem State.crcSeen_keeps {a s : State} (h : a.Keeps s) (l : Lane) (crcOk : Bool) :
    a.Keeps (State.crcSeen s l crcOk) := by
  unfold State.crcSeen
  repeat' (first | with_reducible assumption | (with_reducible first | apply State.Keeps.ite | apply State.bump_keeps | apply State.pulseEv_keeps) | (intro _))

theorem State.lenDrop_keeps {a s : State} (h : a.Keeps s) (l : Lane) :
    a.Keeps (State.lenDrop s l) := by
  unfold State.lenDrop
  repeat' (first | with_reducible assumption | (with_reducible first | apply State.bump_keeps | apply State.pulseEv_keeps) | (intro _))

theorem State.tooLong_keeps {a s : State} (h : a.Keeps s) (l : Lane) :
    a.Keeps (State.tooLong s l) := by
  unfold State.tooLong
  repeat' (first | with_reducible assumption | (with_reducible first | apply State.bump_keeps) | (intro _))

theorem State.frame_keeps {a s : State} (h : a.Keeps s) (l : Lane) (from_ : Bool) (type : Byte) (crcOk : Bool) (len : Nat) (n : Nat) (act : State → State) (hact : ∀ s, a.Keeps s → a.Keeps (act s)) :
    a.Keeps (State.frame s l from_ type crcOk len n act) := by
  unfold State.frame
  repeat' (first | with_reducible assumption | lift_lets -underBinder | (intro x; have hx : a.Keeps x := (by repeat' (first | with_reducible assumption | lift_lets -underBinder | (with_reducible first | apply State.Keeps.ite | apply State.crcSeen_keeps | apply State.lenDrop_keeps | apply State.send_keeps | apply State.tooLong_keeps | apply hact) | (intro _))); clear_value x) | (intro x; clear_value x) | (with_reducible first | apply State.Keeps.ite | apply State.crcSeen_keeps | apply State.lenDrop_keeps | apply State.send_keeps | apply State.tooLong_keeps | apply hact) | (intro _))

theorem State.freshWords_keeps {a : State} (n : Nat) {s : State} (h : a.Keeps s) : a.Keeps (s.freshWords n).2 := by
  induction n generalizing s with
  | zero => exact h
  | succ n ih => exact ih (State.fresh_keeps h)

theorem State.latchIn_keeps {a s : State} (h : a.Keeps s) (l : Lane) (outOk : Bool) :
    a.Keeps (State.latchIn s l outOk) := by
  unfold State.latchIn
  repeat' (first | with_reducible assumption | lift_lets -underBinder | (intro x; have hx : a.Keeps x := (by repeat' (first | with_reducible assumption | lift_lets -underBinder | (with_reducible first | apply State.Keeps.ite | apply State.Keeps.fold | apply State.Keeps.ring | apply State.freshWords_keeps | apply State.putFlag_keeps) | (first | split | (dsimp only [x]; split)) | (intro _))); clear_value x) | (intro x; clear_value x) | (with_reducible first | apply State.Keeps.ite | apply State.Keeps.fold | apply State.Keeps.ring | apply State.freshWords_keeps | apply State.putFlag_keeps) | split | (intro _))

theorem State.sendIn_keeps {a s : State} (h : a.Keeps s) (l : Lane) (e : Bool) :
    a.Keeps (State.sendIn s l e) := by
  unfold State.sendIn
  repeat' (first | with_reducible assumption | lift_lets -underBinder | (intro x; have hx : a.Keeps x := (by repeat' (first | with_reducible assumption | lift_lets -underBinder | (with_reducible first | apply State.Keeps.ite | apply State.Keeps.ring | apply State.send_keeps) | (first | split | (dsimp only [x]; split)) | (intro _))); clear_value x) | (intro x; clear_value x) | (with_reducible first | apply State.Keeps.ite | apply State.Keeps.ring | apply State.send_keeps) | split | (intro _))

theorem State.loopDev_keeps {a s : State} (h : a.Keeps s) : a.Keeps s.loopDev.2 := by
  unfold State.loopDev
  split <;> exact h

theorem State.passCyc_keeps {a s : State} (h : a.Keeps s) (l : Lane) (from_ : Bool) (loop : Bool) (lpt : BitVec 16) (corr : Word) (host : BitVec 64) (period : BitVec 16) (num : Word) (crcOk : Bool) :
    a.Keeps (State.passCyc s l from_ loop lpt corr host period num crcOk) := by
  unfold State.passCyc
  repeat' (first | with_reducible assumption | lift_lets -underBinder | (intro x; have hx : a.Keeps x := (by repeat' (first | with_reducible assumption | lift_lets -underBinder | (with_reducible first | apply State.Keeps.ite | apply State.loopDev_keeps | apply State.period_keeps | apply State.send_keeps) | (intro _))); clear_value x) | (intro x; clear_value x) | (with_reducible first | apply State.Keeps.ite | apply State.loopDev_keeps | apply State.period_keeps | apply State.send_keeps) | (intro _))

theorem State.takeCyc_keeps {a s : State} (h : a.Keeps s) (l : Lane) (from_ : Bool) (period : BitVec 16) (num : Word) :
    a.Keeps (State.takeCyc s l from_ period num) := by
  unfold State.takeCyc
  repeat' (first | with_reducible assumption | lift_lets -underBinder | (intro x; have hx : a.Keeps x := (by repeat' (first | with_reducible assumption | lift_lets -underBinder | (with_reducible first | apply State.Keeps.ite | apply State.Keeps.ring | apply State.latchIn_keeps | apply State.levelEv_keeps | apply State.period_keeps | apply State.putFlag_keeps | apply State.putWord_keeps | apply State.put_keeps | apply State.sendIn_keeps) | (first | split | (dsimp only [x]; split)) | (intro _))); clear_value x) | (intro x; clear_value x) | (with_reducible first | apply State.Keeps.ite | apply State.Keeps.ring | apply State.latchIn_keeps | apply State.levelEv_keeps | apply State.period_keeps | apply State.putFlag_keeps | apply State.putWord_keeps | apply State.put_keeps | apply State.sendIn_keeps) | split | (intro _))

theorem execCyc_keeps {a s : State} (h : a.Keeps s) (l : Lane) (from_ : Bool) (loop : Bool) (crcOk : Bool) (lenOk : Bool) (host : BitVec 64) (corr : Word) (period : BitVec 16) (lpt : BitVec 16) (num : Word) (residence : Word) :
    OutKeeps a (execCyc l from_ loop crcOk lenOk host corr period lpt num residence s) := by
  unfold execCyc
  repeat' (first | with_reducible assumption | lift_lets -underBinder | (intro x; have hx : a.Keeps x := (by repeat' (first | with_reducible assumption | lift_lets -underBinder | (with_reducible first | apply State.Keeps.ite | apply State.crcSeen_keeps | apply State.lenDrop_keeps | apply State.passCyc_keeps | apply State.period_keeps | apply State.takeCyc_keeps | apply done_keeps) | (first | split | (dsimp only [x]; split)) | (intro _))); clear_value x) | (intro x; clear_value x) | (with_reducible first | apply State.Keeps.ite | apply State.crcSeen_keeps | apply State.lenDrop_keeps | apply State.passCyc_keeps | apply State.period_keeps | apply State.takeCyc_keeps | apply done_keeps) | split | (intro _))

theorem State.servo_keeps {a s : State} (h : a.Keeps s) (l : Lane) (err : Int) :
    a.Keeps (State.servo s l err) := by
  unfold State.servo
  repeat' (first | with_reducible assumption | lift_lets -underBinder | (intro x; have hx : a.Keeps x := (by repeat' (first | with_reducible assumption | lift_lets -underBinder | (with_reducible first | apply State.Keeps.ite | apply State.Keeps.fold | apply State.Keeps.ofs | apply State.Keeps.ring | apply State.pulseEv_keeps | apply State.putFlag_keeps) | (first | split | (dsimp only [x]; split)) | (intro _))); clear_value x) | (intro x; clear_value x) | (with_reducible first | apply State.Keeps.ite | apply State.Keeps.fold | apply State.Keeps.ofs | apply State.Keeps.ring | apply State.pulseEv_keeps | apply State.putFlag_keeps) | split | (intro _))

theorem State.drainEvents_keeps {a s : State} (h : a.Keeps s) (l : Lane) (e : Bool) (n : Nat) : a.Keeps (State.drainEvents s l e n) := by
  induction n generalizing s with
  | zero => exact h
  | succ n ih =>
    unfold State.drainEvents
    split
    · exact h
    · rename_i x t hq
      refine ih (State.sendEvent_keeps (h.laneOf l _ ?_) ..)
      rintro ⟨h1, h2, h3, h4, h5, h6⟩
      refine ⟨h1, h2, h3, ?_, h5, h6⟩
      rw [hq] at h4
      simp only [List.length_cons] at h4
      dsimp only
      omega

theorem execCycleStart_keeps {a s : State} (h : a.Keeps s) (l : Lane) (err : Option Int) :
    OutKeeps a (execCycleStart l err s) := by
  unfold execCycleStart
  repeat' (first | with_reducible assumption | lift_lets -underBinder | (intro x; have hx : a.Keeps x := (by repeat' (first | with_reducible assumption | lift_lets -underBinder | (with_reducible first | apply State.Keeps.ite | apply State.Keeps.ring | apply State.drainEvents_keeps | apply State.latchIn_keeps | apply State.putFlag_keeps | apply State.putWord_keeps | apply State.servo_keeps | apply done_keeps) | (first | split | (dsimp only [x]; split)) | (intro _))); clear_value x) | (intro x; clear_value x) | (with_reducible first | apply State.Keeps.ite | apply State.Keeps.ring | apply State.drainEvents_keeps | apply State.latchIn_keeps | apply State.putFlag_keeps | apply State.putWord_keeps | apply State.servo_keeps | apply done_keeps) | split | (intro _))

theorem State.takeOut_keeps {a s : State} (h : a.Keeps s) (l : Lane) (data : List Byte) :
    a.Keeps (State.takeOut s l data) := by
  unfold State.takeOut
  repeat' (first | with_reducible assumption | lift_lets -underBinder | (intro x; have hx : a.Keeps x := (by repeat' (first | with_reducible assumption | lift_lets -underBinder | (with_reducible first | apply State.Keeps.ite | apply State.Keeps.fold | apply State.Keeps.ring | apply State.modCls_keeps) | (intro _))); clear_value x) | (intro x; clear_value x) | (with_reducible first | apply State.Keeps.ite | apply State.Keeps.fold | apply State.Keeps.ring | apply State.modCls_keeps) | (intro _))

theorem execRingOut_keeps {a s : State} (h : a.Keeps s) (l : Lane) (from_ : Bool) (crcOk : Bool) (dev : BitVec 6) (seq : BitVec 16) (len : BitVec 16) (data : List Byte) :
    OutKeeps a (execRingOut l from_ crcOk dev seq len data s) := by
  unfold execRingOut
  repeat' (first | with_reducible assumption | lift_lets -underBinder | (intro x; have hx : a.Keeps x := (by repeat' (first | with_reducible assumption | lift_lets -underBinder | (with_reducible first | apply State.Keeps.ite | apply State.frame_keeps | apply State.takeOut_keeps | apply done_keeps) | (first | split | (dsimp only [x]; split)) | (intro _))); clear_value x) | (intro x; clear_value x) | (with_reducible first | apply State.Keeps.ite | apply State.frame_keeps | apply State.takeOut_keeps | apply done_keeps) | split | (intro _))

theorem execRingIn_keeps {a s : State} (h : a.Keeps s) (l : Lane) (from_ : Bool) (crcOk : Bool) (dev : BitVec 6) (lane : Lane) (len : BitVec 16) (n : BitVec 16) :
    OutKeeps a (execRingIn l from_ crcOk dev lane len n s) := by
  unfold execRingIn
  repeat' (first | (exact fun (_ : LaneState) hx => hx) | with_reducible assumption | (with_reducible first | apply State.Keeps.ite | apply State.Keeps.lane | apply State.frame_keeps | apply State.levelEv_keeps | apply State.putFlag_keeps | apply done_keeps) | split | (intro _))

theorem execEventFrameReceived_keeps {a s : State} (h : a.Keeps s) (l : Lane) (from_ : Bool) (crcOk : Bool) (len : BitVec 16) (n : BitVec 16) :
    OutKeeps a (execEventFrameReceived l from_ crcOk len n s) := by
  unfold execEventFrameReceived
  repeat' (first | (exact fun _ hx => hx) | with_reducible assumption | (with_reducible first | apply State.frame_keeps | apply done_keeps) | (intro _))

theorem execUnknownFrame_keeps {a s : State} (h : a.Keeps s) (l : Lane) (from_ : Bool) (crcOk : Bool) (type : Byte) (len : BitVec 16) (n : BitVec 16) :
    OutKeeps a (execUnknownFrame l from_ crcOk type len n s) := by
  unfold execUnknownFrame
  repeat' (first | with_reducible assumption | lift_lets -underBinder | (intro x; have hx : a.Keeps x := (by repeat' (first | with_reducible assumption | lift_lets -underBinder | (with_reducible first | apply State.Keeps.ite | apply State.bump_keeps | apply State.frame_keeps | apply done_keeps) | (first | split | (dsimp only [x]; split)) | (intro _))); clear_value x) | (intro x; clear_value x) | (with_reducible first | apply State.Keeps.ite | apply State.bump_keeps | apply State.frame_keeps | apply done_keeps) | split | (intro _))

theorem execLinkDelayRequest_keeps {a s : State} (h : a.Keeps s) (l : Lane) (reply : Option (Word × Word)) :
    OutKeeps a (execLinkDelayRequest l reply s) := by
  unfold execLinkDelayRequest
  repeat' (first | with_reducible assumption | lift_lets -underBinder | (intro x; have hx : a.Keeps x := (by repeat' (first | with_reducible assumption | lift_lets -underBinder | (with_reducible first | apply State.Keeps.ite | apply State.Keeps.ring | apply State.put_keeps | apply State.reply_keeps | apply done_keeps) | (first | split | (dsimp only [x]; split)) | (intro _))); clear_value x) | (intro x; clear_value x) | (with_reducible first | apply State.Keeps.ite | apply State.Keeps.ring | apply State.put_keeps | apply State.reply_keeps | apply done_keeps) | split | (intro _))

theorem execLinkDelayReply_keeps {a s : State} (h : a.Keeps s) (l : Lane) (turnaround : Word) :
    OutKeeps a (execLinkDelayReply l turnaround s) := by
  unfold execLinkDelayReply
  repeat' (first | with_reducible assumption | (with_reducible first | apply State.Keeps.ite | apply State.Keeps.ring | apply done_keeps) | split | (intro _))

theorem execCut_keeps {a s : State} (h : a.Keeps s) (l : Lane) :
    OutKeeps a (execCut l s) := by
  unfold execCut
  repeat' (first | with_reducible assumption | (with_reducible first | apply State.Keeps.ite | apply State.bump_keeps | apply State.levelEv_keeps | apply State.putFlag_keeps | apply done_keeps) | split | (intro _))

theorem execHeal_keeps {a s : State} (h : a.Keeps s) (l : Lane) :
    OutKeeps a (execHeal l s) := by
  unfold execHeal
  repeat' (first | with_reducible assumption | (with_reducible first | apply State.Keeps.ite | apply State.levelEv_keeps | apply State.pulseEv_keeps | apply State.putFlag_keeps | apply done_keeps) | split | (intro _))

theorem execOrphan_keeps {a s : State} (h : a.Keeps s) (l : Lane) :
    OutKeeps a (execOrphan l s) := by
  unfold execOrphan
  repeat' (first | with_reducible assumption | lift_lets -underBinder | (intro x; have hx : a.Keeps x := (by repeat' (first | with_reducible assumption | lift_lets -underBinder | (with_reducible first | apply State.Keeps.ite | apply State.Keeps.ring | apply State.levelEv_keeps | apply State.putFlag_keeps | apply done_keeps) | (first | split | (dsimp only [x]; split)) | (intro _))); clear_value x) | (intro x; clear_value x) | (with_reducible first | apply State.Keeps.ite | apply State.Keeps.ring | apply State.levelEv_keeps | apply State.putFlag_keeps | apply done_keeps) | split | (intro _))

theorem State.request_keeps {a s : State} (h : a.Keeps s) (l : Lane) (from_ : Bool) (type : Byte) (crcOk : Bool) (dev : BitVec 6) (lane : Lane) (len : Nat) (n : Nat) (k : State → State) (hk : ∀ s, a.Keeps s → a.Keeps (k s)) :
    a.Keeps (State.request s l from_ type crcOk dev lane len n k) := by
  unfold State.request
  repeat' (first | with_reducible assumption | (with_reducible first | apply State.Keeps.ite | apply State.frame_keeps | apply hk) | (intro _))

theorem State.eccRead_keeps {a s : State} (h : a.Keeps s) (l : Lane) (x : Access) (b : Nat) (word : Nat) :
    a.Keeps (State.eccRead s l x b word) := by
  unfold State.eccRead
  repeat' (first | with_reducible assumption | (with_reducible first | apply State.eccError_keeps | apply State.reply_keeps | apply State.respond_keeps) | (intro _))

theorem execRd_keeps {a s : State} (h : a.Keeps s) (l : Lane) (from_ : Bool) (crcOk : Bool) (dev : BitVec 6) (lane : Lane) (q : Req) (addr : BitVec 24) (count : BitVec 16) (ecc : Option (BitVec 6 × Bool)) :
    OutKeeps a (execRd l from_ crcOk dev lane q addr count ecc s) := by
  unfold execRd
  repeat' (first | with_reducible assumption | lift_lets -underBinder | (intro x; have hx : a.Keeps x := (by repeat' (first | with_reducible assumption | lift_lets -underBinder | (with_reducible first | apply State.Keeps.ite | apply State.access_keeps | apply State.eccError_keeps | apply State.eccRead_keeps | apply State.request_keeps | apply done_keeps) | (first | split | (dsimp only [x]; split)) | (intro _))); clear_value x) | (intro x; dsimp -zeta only [x]; clear x) | (intro x; clear_value x) | (with_reducible first | apply State.Keeps.ite | apply State.access_keeps | apply State.eccError_keeps | apply State.eccRead_keeps | apply State.request_keeps | apply done_keeps) | split | (intro _))

theorem execWr_keeps {a s : State} (h : a.Keeps s) (l : Lane) (from_ : Bool) (crcOk : Bool) (dev : BitVec 6) (lane : Lane) (q : Req) (addr : BitVec 24) (be : BitVec 4) (len : BitVec 16) (data : List Byte) (ph : BusPhase) :
    OutKeeps a (execWr l from_ crcOk dev lane q addr be len data ph s) := by
  unfold execWr
  repeat' (first | with_reducible assumption | lift_lets -underBinder | (intro x; have hx : a.Keeps x := (by repeat' (first | with_reducible assumption | lift_lets -underBinder | (with_reducible first | apply State.access_keeps | apply State.request_keeps | apply done_keeps) | (intro _))); clear_value x) | (intro x; clear_value x) | (with_reducible first | apply State.access_keeps | apply State.request_keeps | apply done_keeps) | (intro _))

theorem execRmw_keeps {a s : State} (h : a.Keeps s) (l : Lane) (from_ : Bool) (crcOk : Bool) (dev : BitVec 6) (lane : Lane) (q : Req) (addr : BitVec 24) (mask : Word) (value : Word) (ph : BusPhase) :
    OutKeeps a (execRmw l from_ crcOk dev lane q addr mask value ph s) := by
  unfold execRmw
  repeat' (first | with_reducible assumption | (with_reducible first | apply State.access_keeps | apply State.request_keeps | apply done_keeps) | (intro _))

theorem execPeriod_keeps {a s : State} (h : a.Keeps s) (l : Lane) (from_ : Bool) (crcOk : Bool) (dev : BitVec 6) (lane : Lane) (q : Req) (len : BitVec 16) (n : BitVec 16) :
    OutKeeps a (execPeriod l from_ crcOk dev lane q len n s) := by
  unfold execPeriod
  repeat' (first | with_reducible assumption | (with_reducible first | apply State.Keeps.ite | apply State.period_keeps | apply State.request_keeps | apply done_keeps) | split | (intro _))

end Sys2Proof.Machine
end

