-- ==== Sys2Proof/Laws/Keeps/Wires.lean ====
section
/-! SUPPORT. What the operations of Wires keep. -/
namespace Sys2Proof.Machine
set_option linter.all false
set_option Elab.async false

theorem State.overrun_keeps {a s : State} (h : a.Keeps s) (l : Lane) (group : Nat) (n : Nat) :
    a.Keeps (State.overrun s l group n) := by
  unfold State.overrun
  repeat' (first | with_reducible assumption | lift_lets -underBinder | (intro x; have hx : a.Keeps x := (by repeat' (first | with_reducible assumption | lift_lets -underBinder | (with_reducible first | apply State.Keeps.ite | apply State.bump_keeps | apply State.pulseEv_keeps | apply State.put_keeps | apply State.selfFail_keeps) | (intro _))); clear_value x) | (intro x; clear_value x) | (with_reducible first | apply State.Keeps.ite | apply State.bump_keeps | apply State.pulseEv_keeps | apply State.put_keeps | apply State.selfFail_keeps) | (intro _))

theorem State.closeLoops_keeps {a s : State} (h : a.Keeps s) (l : Lane) :
    a.Keeps (State.closeLoops s l) := by
  unfold State.closeLoops
  repeat' (first | (exact fun (_ : LaneState) hx => hx) | with_reducible assumption | lift_lets -underBinder | (intro x; have hx : a.Keeps x := (by repeat' (first | (exact fun (_ : LaneState) hx => hx) | with_reducible assumption | lift_lets -underBinder | (with_reducible first | apply State.Keeps.lane | apply State.putWord_keeps) | (first | split | (dsimp only [x]; split)) | (intro _))); clear_value x) | (intro x; clear_value x) | (with_reducible first | apply State.Keeps.lane | apply State.putWord_keeps) | split | (intro _))

theorem State.loadTraction_keeps {a s : State} (h : a.Keeps s) (l : Lane) :
    a.Keeps (State.loadTraction s l) := by
  unfold State.loadTraction
  repeat' (first | with_reducible assumption | (with_reducible first | apply State.loadSink_keeps) | (intro _))

theorem mputFold_wf (xs : List (Nat × Word)) (f : Nat → Nat) (m : Mem) (h : Memory.wf 0 m = true) :
    Memory.wf 0 (xs.foldl (fun m w => mput m (f w.1) w.2) m) = true := by
  induction xs generalizing m with
  | nil => exact h
  | cons x t ih => exact ih _ (mput_wf _ _ _ h)

theorem State.loadWires_keeps {a s : State} (h : a.Keeps s) (l : Lane) : a.Keeps (State.loadWires s l) := by
  unfold State.loadWires
  lift_lets -underBinder
  intro ws
  clear_value ws
  intro t
  have ht : a.Keeps t := by
    with_reducible apply State.Keeps.mem
    · exact h
    · intro _ hm
      dsimp only
      exact mputs_wf _ _ _ (mputFold_wf _ b10Wire _ hm)
    · exact fun _ => ⟨rfl, rfl, rfl, rfl, rfl⟩
  exact State.actWires_keeps ht l

theorem State.takeExchange_keeps {a s : State} (h : a.Keeps s) (l : Lane) : a.Keeps (s.takeExchange l).1 := by
  unfold State.takeExchange
  dsimp only
  repeat' (first | with_reducible assumption | (with_reducible first | apply State.Keeps.eng | apply State.levelEv_keeps | apply State.putFlag_keeps | apply State.put_keeps | apply State.bump_keeps | apply State.Keeps.ite) | (intro _))

theorem State.setShare_keeps {a s : State} (h : a.Keeps s) (l : Lane) (w : Word) :
    a.Keeps (State.setShare s l w) := by
  unfold State.setShare
  repeat' (first | with_reducible assumption | (with_reducible first | apply State.putWord_keeps) | (intro _))

theorem State.markLost_keeps {a s : State} (h : a.Keeps s) (l : Lane) :
    a.Keeps (State.markLost s l) := by
  unfold State.markLost
  repeat' (first | (exact fun (_ : RedState) hx => hx) | with_reducible assumption | lift_lets -underBinder | (intro x; have hx : a.Keeps x := (by repeat' (first | (exact fun (_ : RedState) hx => hx) | with_reducible assumption | lift_lets -underBinder | (with_reducible first | apply State.Keeps.ite | apply State.Keeps.red) | (first | split | (dsimp only [x]; split)) | (intro _))); clear_value x) | (intro x; clear_value x) | (with_reducible first | apply State.Keeps.ite | apply State.Keeps.red) | split | (intro _))

theorem State.shareFast_keeps {a s : State} (h : a.Keeps s) (l : Lane) :
    a.Keeps (State.shareFast s l) := by
  unfold State.shareFast
  repeat' (first | (exact fun (_ : RedState) hx => hx) | with_reducible assumption | lift_lets -underBinder | (intro x; have hx : a.Keeps x := (by repeat' (first | (exact fun (_ : RedState) hx => hx) | with_reducible assumption | lift_lets -underBinder | (with_reducible first | apply State.Keeps.ite | apply State.Keeps.red | apply State.putFlag_keeps | apply State.setShare_keeps) | (first | split | (dsimp only [x]; split)) | (intro _))); clear_value x) | (intro x; clear_value x) | (with_reducible first | apply State.Keeps.ite | apply State.Keeps.red | apply State.putFlag_keeps | apply State.setShare_keeps) | split | (intro _))

theorem State.torqueReport_keeps {a s : State} (h : a.Keeps s) (l : Lane) :
    a.Keeps (State.torqueReport s l) := by
  unfold State.torqueReport
  repeat' (first | with_reducible assumption | lift_lets -underBinder | (intro x; have hx : a.Keeps x := (by repeat' (first | with_reducible assumption | lift_lets -underBinder | (with_reducible first | apply State.Keeps.ite | apply State.Keeps.fold | apply State.levelEv_keeps | apply State.putFlag_keeps | apply State.putWord_keeps) | (intro _))); clear_value x) | (intro x; clear_value x) | (with_reducible first | apply State.Keeps.ite | apply State.Keeps.fold | apply State.levelEv_keeps | apply State.putFlag_keeps | apply State.putWord_keeps) | (intro _))

theorem State.limitReport_keeps {a s : State} (h : a.Keeps s) (l : Lane) (r : Run) :
    a.Keeps (State.limitReport s l r) := by
  unfold State.limitReport
  repeat' (first | with_reducible assumption | lift_lets -underBinder | (intro x; have hx : a.Keeps x := (by repeat' (first | with_reducible assumption | lift_lets -underBinder | (with_reducible first | apply State.Keeps.ite | apply State.Keeps.eng | apply State.pulseEv_keeps | apply State.putFlag_keeps) | (first | split | (dsimp only [x]; split)) | (intro _))); clear_value x) | (intro x; clear_value x) | (with_reducible first | apply State.Keeps.ite | apply State.Keeps.eng | apply State.pulseEv_keeps | apply State.putFlag_keeps) | split | (intro _))

theorem State.blendOn_keeps {a s : State} (h : a.Keeps s) (l : Lane) :
    a.Keeps (State.blendOn s l) := by
  unfold State.blendOn
  repeat' (first | with_reducible assumption | lift_lets -underBinder | (intro x; have hx : a.Keeps x := (by repeat' (first | with_reducible assumption | lift_lets -underBinder | (with_reducible first | apply State.Keeps.ite | apply State.Keeps.trc) | (first | split | (dsimp only [x]; split)) | (intro _))); clear_value x) | (intro x; clear_value x) | (with_reducible first | apply State.Keeps.ite | apply State.Keeps.trc) | split | (intro _))

theorem State.fastKernels_keeps {a s : State} (h : a.Keeps s) (l : Lane) (missed : Bool) : a.Keeps (State.fastKernels s l missed) := by
  unfold State.fastKernels
  refine State.Keeps.ite (fun _ => h) (fun _ => ?_)
  dsimp only
  refine State.Keeps.mem (State.blendOn_keeps (State.torqueReport_keeps (State.put_keeps (State.put_keeps (State.limitReport_keeps
    (State.afterGroup_keeps h l 3 _ (fun z => State.runGroup_wf _ _ _ _ ?_)) ..) ..) ..) ..) ..) l _ (fun _ hm => ?_)
    (fun _ => ⟨rfl, rfl, rfl, rfl, rfl⟩)
  · obtain ⟨h1, h2, -⟩ := h.2 z
    cases l
    · exact h1.2.1
    · exact h2.2.1
  · exact mputs_wf _ _ _ hm

theorem State.subjCheck_keeps {a s : State} (h : a.Keeps s) (l : Lane) :
    a.Keeps (State.subjCheck s l) := by
  unfold State.subjCheck
  repeat' (first | (exact fun (_ : RedState) hx => hx) | with_reducible assumption | lift_lets -underBinder | (intro x; have hx : a.Keeps x := (by repeat' (first | (exact fun (_ : RedState) hx => hx) | with_reducible assumption | lift_lets -underBinder | (with_reducible first | apply State.Keeps.ite | apply State.Keeps.red | apply State.pulseEv_keeps | apply State.putFlag_keeps) | (first | split | (dsimp only [x]; split)) | (intro _))); clear_value x) | (intro x; clear_value x) | (with_reducible first | apply State.Keeps.ite | apply State.Keeps.red | apply State.pulseEv_keeps | apply State.putFlag_keeps) | split | (intro _))

theorem State.copyAges_keeps {a s : State} (h : a.Keeps s) (l : Lane) :
    a.Keeps (State.copyAges s l) := by
  unfold State.copyAges
  repeat' (first | (exact fun (_ : RedState) hx => hx) | with_reducible assumption | lift_lets -underBinder | (intro x; have hx : a.Keeps x := (by repeat' (first | (exact fun (_ : RedState) hx => hx) | with_reducible assumption | lift_lets -underBinder | (with_reducible first | apply State.Keeps.ite | apply State.Keeps.red | apply State.putFlag_keeps | apply State.put_keeps) | (intro _))); clear_value x) | (intro x; clear_value x) | (with_reducible first | apply State.Keeps.ite | apply State.Keeps.red | apply State.putFlag_keeps | apply State.put_keeps) | (intro _))

theorem State.showTofs_keeps {a s : State} (h : a.Keeps s) (l : Lane) :
    a.Keeps (State.showTofs s l) := by
  unfold State.showTofs
  repeat' (first | with_reducible assumption | lift_lets -underBinder | (intro x; have hx : a.Keeps x := (by repeat' (first | with_reducible assumption | lift_lets -underBinder | (with_reducible first | apply State.fresh_keeps | apply State.put_keeps) | (intro _))); clear_value x) | (intro x; clear_value x) | (with_reducible first | apply State.fresh_keeps | apply State.put_keeps) | (intro _))

theorem State.sendHb_keeps {a s : State} (h : a.Keeps s) (l : Lane) :
    a.Keeps (State.sendHb s l) := by
  unfold State.sendHb
  repeat' (first | (exact fun (_ : RedState) hx => hx) | with_reducible assumption | lift_lets -underBinder | (intro x; have hx : a.Keeps x := (by repeat' (first | (exact fun (_ : RedState) hx => hx) | with_reducible assumption | lift_lets -underBinder | (with_reducible first | apply State.Keeps.ite | apply State.Keeps.red | apply State.dclOv_keeps | apply State.fresh_keeps | apply State.split_keeps) | (first | split | (dsimp only [x]; split)) | (intro _))); clear_value x) | (intro x; dsimp -zeta only [x]; clear x) | (intro x; clear_value x) | (with_reducible first | apply State.Keeps.ite | apply State.Keeps.red | apply State.dclOv_keeps | apply State.fresh_keeps | apply State.split_keeps) | split | (intro _))

theorem State.sendCopy_keeps {a s : State} (h : a.Keeps s) (l : Lane) (valid : Bool) :
    a.Keeps (State.sendCopy s l valid) := by
  unfold State.sendCopy
  repeat' (first | (exact fun (_ : RedState) hx => hx) | with_reducible assumption | lift_lets -underBinder | (intro x; have hx : a.Keeps x := (by repeat' (first | (exact fun (_ : RedState) hx => hx) | with_reducible assumption | lift_lets -underBinder | (with_reducible first | apply State.Keeps.ite | apply State.Keeps.red) | (intro _))); clear_value x) | (intro x; dsimp -zeta only [x]; clear x) | (intro x; clear_value x) | (with_reducible first | apply State.Keeps.ite | apply State.Keeps.red) | (intro _))

theorem State.sendExch_keeps {a s : State} (h : a.Keeps s) (l : Lane) :
    a.Keeps (State.sendExch s l) := by
  unfold State.sendExch
  repeat' (first | with_reducible assumption | lift_lets -underBinder | (intro x; have hx : a.Keeps x := (by repeat' (first | with_reducible assumption | lift_lets -underBinder | (with_reducible first | apply State.Keeps.ite | apply State.Keeps.eng | apply State.fresh_keeps) | (first | split | (dsimp only [x]; split)) | (intro _))); clear_value x) | (intro x; dsimp -zeta only [x]; clear x) | (intro x; clear_value x) | (with_reducible first | apply State.Keeps.ite | apply State.Keeps.eng | apply State.fresh_keeps) | split | (intro _))

theorem State.sendFast_keeps {a s : State} (h : a.Keeps s) (l : Lane) (valid : Bool) :
    a.Keeps (State.sendFast s l valid) := by
  unfold State.sendFast
  repeat' (first | with_reducible assumption | (with_reducible first | apply State.Keeps.ite | apply State.sendCopy_keeps | apply State.sendExch_keeps | apply State.sendHb_keeps) | (intro _))

theorem State.captures_keeps {a s : State} (h : a.Keeps s) (l : Lane) (rate : Nat) :
    a.Keeps (State.captures s l rate) := by
  unfold State.captures
  repeat' (first | with_reducible assumption | lift_lets -underBinder | (intro x; have hx : a.Keeps x := (by repeat' (first | with_reducible assumption | lift_lets -underBinder | (with_reducible first | apply State.Keeps.ite | apply State.Keeps.fold | apply State.capAdd_keeps | apply State.capTrig_keeps) | (first | split | (dsimp only [x]; split)) | (intro _))); clear_value x) | (intro x; clear_value x) | (with_reducible first | apply State.Keeps.ite | apply State.Keeps.fold | apply State.capAdd_keeps | apply State.capTrig_keeps) | split | (intro _))

end Sys2Proof.Machine
end

