-- ==== Sys2Proof/Laws/Keeps/Takeover.lean ====
section
/-! SUPPORT. What the operations of Takeover keep. -/
namespace Sys2Proof.Machine
set_option linter.all false
set_option Elab.async false

theorem loadCopied_wf (m : Mem) (want : Nat → Bool) (c : StateCopy) (h : Memory.wf 0 m = true) :
    Memory.wf 0 (loadCopied m want c) = true := by
  unfold loadCopied
  generalize (kernelsOf m).filter (fun e => e.1.copy) = xs
  suffices ∀ (acc : Mem × Nat), Memory.wf 0 acc.1 = true → Memory.wf 0 (xs.foldl (fun (acc : Mem × Nat) e =>
    let m := (List.range e.2.nState).foldl (fun m i =>
      match c.engine.find? (fun w => w.1 == acc.2 + i) with
      | some w => if want e.1.loop then mput m (b10State (e.1.sbase + i)) w.2 else m
      | none => m) acc.1
    (m, acc.2 + e.2.nState)) acc).1 = true from this (m, 0) h
  induction xs with
  | nil => intro acc hacc; exact hacc
  | cons x t ih =>
    intro acc hacc
    refine ih _ ?_
    dsimp only
    generalize List.range x.2.nState = is
    have : ∀ (m : Mem), Memory.wf 0 m = true → Memory.wf 0 (is.foldl (fun m i =>
      match c.engine.find? (fun w => w.1 == acc.2 + i) with
      | some w => if want x.1.loop then mput m (b10State (x.1.sbase + i)) w.2 else m
      | none => m) m) = true := by
      induction is with
      | nil => intro m hm; exact hm
      | cons i u ih2 =>
        intro m hm
        refine ih2 _ ?_
        dsimp only
        split
        · split
          · exact mput_wf _ _ _ hm
          · exact hm
        · exact hm
    exact this _ hacc

theorem zeroToken_wf (m : Mem) (h : Memory.wf 0 m = true) : Memory.wf 0 (zeroToken m) = true := by
  unfold zeroToken
  generalize (kernelsOf m).filter (fun e => tokenLoop e.1.loop) = xs
  induction xs generalizing m with
  | nil => exact h
  | cons x t ih => exact ih _ (mputs_wf _ _ _ h)

theorem State.applyEntry_keeps {a s : State} (h : a.Keeps s) (l : Lane) (e : JEntry) : a.Keeps (State.applyEntry s l e) := by
  unfold State.applyEntry
  lift_lets -underBinder
  intro s1
  have h1 : a.Keeps s1 := by
    dsimp only [s1]
    split
    · exact State.writeWord_some (by assumption) h
    · exact h
  clear_value s1
  dsimp only
  refine State.Keeps.ite (fun _ => h1) (fun _ => State.showJournal_keeps ((State.accept_keeps h1 ..).red l _ ?_) ..)
  exact fun r hr => Nat.le_trans (List.length_filter_le _ _) hr

theorem State.standbyFast_keeps {a s : State} (h : a.Keeps s) (l : Lane) :
    a.Keeps (State.standbyFast s l) := by
  unfold State.standbyFast
  repeat' (first | (exact fun _ => ⟨rfl, rfl, rfl, rfl, rfl⟩) | (intro _ hm; dsimp only; first | exact loadCopied_wf _ _ _ hm | exact zeroToken_wf _ hm) | (exact fun (_ : LaneState) hx => hx) | with_reducible assumption | lift_lets -underBinder | (intro x; have hx : a.Keeps x := (by repeat' (first | (exact fun _ => ⟨rfl, rfl, rfl, rfl, rfl⟩) | (intro _ hm; dsimp only; first | exact loadCopied_wf _ _ _ hm | exact zeroToken_wf _ hm) | (exact fun (_ : LaneState) hx => hx) | with_reducible assumption | lift_lets -underBinder | (with_reducible first | apply State.Keeps.mem | apply State.Keeps.ite | apply State.Keeps.fold | apply State.Keeps.lane | apply State.applyEntry_keeps) | (first | split | (dsimp only [x]; split)) | (intro _))); clear_value x) | (intro x; clear_value x) | (with_reducible first | apply State.Keeps.mem | apply State.Keeps.ite | apply State.Keeps.fold | apply State.Keeps.lane | apply State.applyEntry_keeps) | split | (intro _))

theorem State.learnAbandon_keeps {a s : State} (h : a.Keeps s) (l : Lane) (a' : Fin 2) :
    a.Keeps (State.learnAbandon s l a') := by
  unfold State.learnAbandon
  repeat' (first | with_reducible assumption | lift_lets -underBinder | (intro x; have hx : a.Keeps x := (by repeat' (first | with_reducible assumption | lift_lets -underBinder | (with_reducible first | apply State.Keeps.ite | apply State.pulseEv_keeps | apply State.putFlag_keeps | apply State.put_keeps) | (first | split | (dsimp only [x]; split)) | (intro _))); clear_value x) | (intro x; clear_value x) | (with_reducible first | apply State.Keeps.ite | apply State.pulseEv_keeps | apply State.putFlag_keeps | apply State.put_keeps) | split | (intro _))

theorem State.replay_keeps {a s : State} (h : a.Keeps s) (l : Lane) (es : List JEntry) :
    a.Keeps (State.replay s l es) := by
  unfold State.replay
  repeat' (first | with_reducible assumption | lift_lets -underBinder | (intro x; have hx : a.Keeps x := (by repeat' (first | with_reducible assumption | lift_lets -underBinder | (with_reducible first | apply State.Keeps.ite | apply State.Keeps.fold | apply State.applyEntry_keeps | apply State.pulseEv_keeps) | (first | split | (dsimp only [x]; split)) | (intro _))); clear_value x) | (intro x; clear_value x) | (with_reducible first | apply State.Keeps.ite | apply State.Keeps.fold | apply State.applyEntry_keeps | apply State.pulseEv_keeps) | split | (intro _))

theorem State.takeWarm_keeps {a s : State} (h : a.Keeps s) (l : Lane) (c : StateCopy) :
    a.Keeps (State.takeWarm s l c) := by
  unfold State.takeWarm
  repeat' (first | (exact fun _ => ⟨rfl, rfl, rfl, rfl, rfl⟩) | (intro _ hm; dsimp only; first | exact loadCopied_wf _ _ _ hm | exact zeroToken_wf _ hm) | (exact fun (_ : LaneState) hx => hx) | with_reducible assumption | lift_lets -underBinder | (intro x; have hx : a.Keeps x := (by repeat' (first | (exact fun _ => ⟨rfl, rfl, rfl, rfl, rfl⟩) | (intro _ hm; dsimp only; first | exact loadCopied_wf _ _ _ hm | exact zeroToken_wf _ hm) | (exact fun (_ : LaneState) hx => hx) | with_reducible assumption | lift_lets -underBinder | (with_reducible first | apply State.Keeps.mem | apply State.Keeps.ite | apply State.Keeps.lane | apply State.learnAbandon_keeps | apply State.put_keeps | apply State.renewS2_keeps | apply State.replay_keeps | apply State.takeLoops_keeps | apply State.takeStates_keeps) | (first | split | (dsimp only [x]; split)) | (intro _))); clear_value x) | (intro x; clear_value x) | (with_reducible first | apply State.Keeps.mem | apply State.Keeps.ite | apply State.Keeps.lane | apply State.learnAbandon_keeps | apply State.put_keeps | apply State.renewS2_keeps | apply State.replay_keeps | apply State.takeLoops_keeps | apply State.takeStates_keeps) | split | (intro _))

theorem State.takeCold_keeps {a s : State} (h : a.Keeps s) (l : Lane) :
    a.Keeps (State.takeCold s l) := by
  unfold State.takeCold
  repeat' (first | (exact fun _ => ⟨rfl, rfl, rfl, rfl, rfl⟩) | (intro _ hm; dsimp only; first | exact loadCopied_wf _ _ _ hm | exact zeroToken_wf _ hm) | (exact fun _ _ => Nat.zero_le _) | (exact fun (_ : RedState) hx => hx) | (exact fun (_ : LaneState) hx => hx) | with_reducible assumption | lift_lets -underBinder | (intro x; have hx : a.Keeps x := (by repeat' (first | (exact fun _ => ⟨rfl, rfl, rfl, rfl, rfl⟩) | (intro _ hm; dsimp only; first | exact loadCopied_wf _ _ _ hm | exact zeroToken_wf _ hm) | (exact fun _ _ => Nat.zero_le _) | (exact fun (_ : RedState) hx => hx) | (exact fun (_ : LaneState) hx => hx) | with_reducible assumption | lift_lets -underBinder | (with_reducible first | apply State.Keeps.mem | apply State.Keeps.ite | apply State.Keeps.fold | apply State.Keeps.lane | apply State.Keeps.red | apply State.chgFault_keeps | apply State.loopOpen_keeps | apply State.pulseEv_keeps | apply State.putFlag_keeps | apply State.put_keeps | apply State.replay_keeps | apply State.showJournal_keeps) | (intro _))); clear_value x) | (intro x; clear_value x) | (with_reducible first | apply State.Keeps.mem | apply State.Keeps.ite | apply State.Keeps.fold | apply State.Keeps.lane | apply State.Keeps.red | apply State.chgFault_keeps | apply State.loopOpen_keeps | apply State.pulseEv_keeps | apply State.putFlag_keeps | apply State.put_keeps | apply State.replay_keeps | apply State.showJournal_keeps) | (intro _))

theorem State.takeOver_keeps {a s : State} (h : a.Keeps s) (l : Lane) :
    a.Keeps (State.takeOver s l) := by
  unfold State.takeOver
  repeat' (first | (exact fun (_ : RedState) hx => hx) | with_reducible assumption | lift_lets -underBinder | (intro x; have hx : a.Keeps x := (by repeat' (first | (exact fun (_ : RedState) hx => hx) | with_reducible assumption | lift_lets -underBinder | (with_reducible first | apply State.Keeps.ite | apply State.Keeps.red | apply State.takeCold_keeps | apply State.takeWarm_keeps) | (first | split | (dsimp only [x]; split)) | (intro _))); clear_value x) | (intro x; clear_value x) | (with_reducible first | apply State.Keeps.ite | apply State.Keeps.red | apply State.takeCold_keeps | apply State.takeWarm_keeps) | split | (intro _))

theorem State.enterPeer_keeps {a s : State} (h : a.Keeps s) (l : Lane) :
    a.Keeps (State.enterPeer s l) := by
  unfold State.enterPeer
  repeat' (first | (exact State.smCmd_some (by assumption) (by with_reducible assumption)) | with_reducible assumption | lift_lets -underBinder | (intro x; have hx : a.Keeps x := (by repeat' (first | (exact State.smCmd_some (by assumption) (by with_reducible assumption)) | with_reducible assumption | lift_lets -underBinder | (with_reducible first | apply State.Keeps.ite | apply State.safeEntry_keeps | apply State.setRamp_keeps | apply State.smCmd_keeps | apply State.smEnter_keeps | apply State.Keeps.getD) | (first | split | (dsimp only [x]; split)) | (intro _))); clear_value x) | (intro x; dsimp -zeta only [x]; clear x) | (intro x; clear_value x) | (with_reducible first | apply State.Keeps.ite | apply State.safeEntry_keeps | apply State.setRamp_keeps | apply State.smCmd_keeps | apply State.smEnter_keeps | apply State.Keeps.getD) | split | (intro _))

theorem State.rejoinFast_keeps {a s : State} (h : a.Keeps s) (l : Lane) :
    a.Keeps (State.rejoinFast s l) := by
  unfold State.rejoinFast
  repeat' (first | (exact fun (_ : RedState) hx => hx) | (exact fun (_ : MonState) hx => hx) | with_reducible assumption | lift_lets -underBinder | (intro x; have hx : a.Keeps x := (by repeat' (first | (exact fun (_ : RedState) hx => hx) | (exact fun (_ : MonState) hx => hx) | with_reducible assumption | lift_lets -underBinder | (with_reducible first | apply State.Keeps.ite | apply State.Keeps.dcl | apply State.Keeps.mon | apply State.Keeps.red | apply State.dclStart_keeps | apply State.enterPeer_keeps | apply State.placeSet_keeps | apply State.publish_keeps) | (first | split | (dsimp only [x]; split)) | (intro _))); clear_value x) | (intro x; clear_value x) | (with_reducible first | apply State.Keeps.ite | apply State.Keeps.dcl | apply State.Keeps.mon | apply State.Keeps.red | apply State.dclStart_keeps | apply State.enterPeer_keeps | apply State.placeSet_keeps | apply State.publish_keeps) | split | (intro _))

theorem State.resyncAlone_keeps {a s : State} (h : a.Keeps s) (l : Lane) :
    a.Keeps (State.resyncAlone s l) := by
  unfold State.resyncAlone
  repeat' (first | with_reducible assumption | lift_lets -underBinder | (intro x; have hx : a.Keeps x := (by repeat' (first | with_reducible assumption | lift_lets -underBinder | (with_reducible first | apply State.Keeps.ite | apply State.runAlone_keeps) | (first | split | (dsimp only [x]; split)) | (intro _))); clear_value x) | (intro x; clear_value x) | (with_reducible first | apply State.Keeps.ite | apply State.runAlone_keeps) | split | (intro _))

end Sys2Proof.Machine
end

