-- ==== Sys2Proof/Laws/Keeps/Cycles.lean ====
section
/-! SUPPORT. What the operations of Cycles keep. -/
namespace Sys2Proof.Machine
set_option linter.all false
set_option Elab.async false

theorem State.catchFast_keeps {a s : State} (h : a.Keeps s) (l : Lane) (caught : Option (BitVec 16 × Word)) :
    a.Keeps (State.catchFast s l caught) := by
  unfold State.catchFast
  repeat' (first | with_reducible assumption | lift_lets -underBinder | (intro x; have hx : a.Keeps x := (by repeat' (first | with_reducible assumption | lift_lets -underBinder | (with_reducible first | apply State.Keeps.ite | apply State.Keeps.trc | apply State.bump_keeps | apply State.catchRes_keeps | apply State.enterAcq_keeps | apply State.enterStart_keeps | apply State.pulseEv_keeps | apply State.putFlag_keeps) | (first | split | (dsimp only [x]; split)) | (intro _))); clear_value x) | (intro x; clear_value x) | (with_reducible first | apply State.Keeps.ite | apply State.Keeps.trc | apply State.bump_keeps | apply State.catchRes_keeps | apply State.enterAcq_keeps | apply State.enterStart_keeps | apply State.pulseEv_keeps | apply State.putFlag_keeps) | split | (intro _))

theorem State.smFast_keeps {a s : State} (h : a.Keeps s) (l : Lane) (caught : Option (BitVec 16 × Word)) :
    a.Keeps (State.smFast s l caught) := by
  unfold State.smFast
  repeat' (first | with_reducible assumption | lift_lets -underBinder | (intro x; have hx : a.Keeps x := (by repeat' (first | with_reducible assumption | lift_lets -underBinder | (with_reducible first | apply State.Keeps.ite | apply State.Keeps.trc | apply State.angleLost_keeps | apply State.catchFast_keeps | apply State.enterCatch_keeps | apply State.enterStart_keeps | apply State.pulseEv_keeps | apply State.setRamp_keeps | apply State.smEnter_keeps) | (first | split | (dsimp only [x]; split)) | (intro _))); clear_value x) | (intro x; clear_value x) | (with_reducible first | apply State.Keeps.ite | apply State.Keeps.trc | apply State.angleLost_keeps | apply State.catchFast_keeps | apply State.enterCatch_keeps | apply State.enterStart_keeps | apply State.pulseEv_keeps | apply State.setRamp_keeps | apply State.smEnter_keeps) | split | (intro _))

theorem State.standbyShorts_keeps {a s : State} (h : a.Keeps s) :
    a.Keeps (State.standbyShorts s) := by
  unfold State.standbyShorts
  repeat' (first | (exact fun (_ : MonState) hx => hx) | with_reducible assumption | lift_lets -underBinder | (intro x; have hx : a.Keeps x := (by repeat' (first | (exact fun (_ : MonState) hx => hx) | with_reducible assumption | lift_lets -underBinder | (with_reducible first | apply State.Keeps.ite | apply State.Keeps.mon | apply State.holdSet_keeps | apply State.placeSet_keeps) | (intro _))); clear_value x) | (intro x; clear_value x) | (with_reducible first | apply State.Keeps.ite | apply State.Keeps.mon | apply State.holdSet_keeps | apply State.placeSet_keeps) | (intro _))

theorem State.ownSelect_keeps {a s : State} (h : a.Keeps s) (l : Lane) :
    a.Keeps (State.ownSelect s l) := by
  unfold State.ownSelect
  repeat' (first | with_reducible assumption | lift_lets -underBinder | (intro x; have hx : a.Keeps x := (by repeat' (first | with_reducible assumption | lift_lets -underBinder | (with_reducible first | apply State.Keeps.ite | apply State.placeSet_keeps | apply State.putFlag_keeps) | (first | split | (dsimp only [x]; split)) | (intro _))); clear_value x) | (intro x; clear_value x) | (with_reducible first | apply State.Keeps.ite | apply State.placeSet_keeps | apply State.putFlag_keeps) | split | (intro _))

theorem State.ownPos_keeps {a s : State} (h : a.Keeps s) (l : Lane) (v : ClsView) :
    a.Keeps (State.ownPos s l v) := by
  unfold State.ownPos
  repeat' (first | with_reducible assumption | lift_lets -underBinder | (intro x; have hx : a.Keeps x := (by repeat' (first | with_reducible assumption | lift_lets -underBinder | (with_reducible first | apply State.Keeps.ite | apply State.Keeps.saf | apply State.put_keeps) | (first | split | (dsimp only [x]; split)) | (intro _))); clear_value x) | (intro x; clear_value x) | (with_reducible first | apply State.Keeps.ite | apply State.Keeps.saf | apply State.put_keeps) | split | (intro _))

theorem State.ownLimits_keeps {a s : State} (h : a.Keeps s) (l : Lane) :
    a.Keeps (State.ownLimits s l) := by
  unfold State.ownLimits
  repeat' (first | with_reducible assumption | lift_lets -underBinder | (intro x; have hx : a.Keeps x := (by repeat' (first | with_reducible assumption | lift_lets -underBinder | (with_reducible first | apply State.Keeps.ite | apply State.Keeps.fold | apply State.Keeps.saf | apply State.askSs1_keeps | apply State.ownPos_keeps | apply State.ownSs1Start_keeps) | (intro _))); clear_value x) | (intro x; clear_value x) | (with_reducible first | apply State.Keeps.ite | apply State.Keeps.fold | apply State.Keeps.saf | apply State.askSs1_keeps | apply State.ownPos_keeps | apply State.ownSs1Start_keeps) | (intro _))

theorem State.linkCompare_keeps {a s : State} (h : a.Keeps s) (l : Lane) :
    a.Keeps (State.linkCompare s l) := by
  unfold State.linkCompare
  repeat' (first | with_reducible assumption | lift_lets -underBinder | (intro x; have hx : a.Keeps x := (by repeat' (first | with_reducible assumption | lift_lets -underBinder | (with_reducible first | apply State.Keeps.ite | apply State.Keeps.smp) | (first | split | (dsimp only [x]; split)) | (intro _))); clear_value x) | (intro x; clear_value x) | (with_reducible first | apply State.Keeps.ite | apply State.Keeps.smp) | split | (intro _))

theorem State.fastOverrun_keeps {a s : State} (h : a.Keeps s) (l : Lane) (ovr : Bool) :
    a.Keeps (State.fastOverrun s l ovr) := by
  unfold State.fastOverrun
  repeat' (first | with_reducible assumption | lift_lets -underBinder | (intro x; have hx : a.Keeps x := (by repeat' (first | with_reducible assumption | lift_lets -underBinder | (with_reducible first | apply State.Keeps.ite | apply State.Keeps.eng | apply State.overrun_keeps) | (intro _))); clear_value x) | (intro x; clear_value x) | (with_reducible first | apply State.Keeps.ite | apply State.Keeps.eng | apply State.overrun_keeps) | (intro _))

theorem State.engineTurn_keeps {a s : State} (h : a.Keeps s) (l : Lane) :
    a.Keeps (State.engineTurn s l) := by
  unfold State.engineTurn
  repeat' (first | with_reducible assumption | lift_lets -underBinder | (intro x; have hx : a.Keeps x := (by repeat' (first | with_reducible assumption | lift_lets -underBinder | (with_reducible first | apply State.Keeps.ite | apply State.engineStart_keeps | apply State.engineStop_keeps) | (intro _))); clear_value x) | (intro x; clear_value x) | (with_reducible first | apply State.Keeps.ite | apply State.engineStart_keeps | apply State.engineStop_keeps) | (intro _))

theorem State.fastCycle_keeps {a s : State} (h : a.Keeps s) (l : Lane) (ovr : Bool) (caught : Option (BitVec 16 × Word)) :
    a.Keeps (State.fastCycle s l ovr caught) := by
  unfold State.fastCycle
  repeat' (first | with_reducible assumption | lift_lets -underBinder | (intro x; have hx : a.Keeps x := (by repeat' (first | with_reducible assumption | lift_lets -underBinder | (with_reducible first | apply State.Keeps.ite | apply State.captures_keeps | apply State.closeLoops_keeps | apply State.copyAges_keeps | apply State.dclFast_keeps | apply State.engineTurn_keeps | apply State.fastKernels_keeps | apply State.fastOverrun_keeps | apply State.feedback_keeps | apply State.linkCompare_keeps | apply State.loadTraction_keeps | apply State.loadWires_keeps | apply State.markLost_keeps | apply State.ownLimits_keeps | apply State.ownSelect_keeps | apply State.rejoinFast_keeps | apply State.resyncAlone_keeps | apply State.sendFast_keeps | apply State.shareFast_keeps | apply State.showTofs_keeps | apply State.smFast_keeps | apply State.standbyFast_keeps | apply State.standbyShorts_keeps | apply State.subjCheck_keeps | apply State.takeExchange_keeps | apply State.takeOver_keeps) | (intro _))); clear_value x) | (intro x; clear_value x) | (with_reducible first | apply State.Keeps.ite | apply State.captures_keeps | apply State.closeLoops_keeps | apply State.copyAges_keeps | apply State.dclFast_keeps | apply State.engineTurn_keeps | apply State.fastKernels_keeps | apply State.fastOverrun_keeps | apply State.feedback_keeps | apply State.linkCompare_keeps | apply State.loadTraction_keeps | apply State.loadWires_keeps | apply State.markLost_keeps | apply State.ownLimits_keeps | apply State.ownSelect_keeps | apply State.rejoinFast_keeps | apply State.resyncAlone_keeps | apply State.sendFast_keeps | apply State.shareFast_keeps | apply State.showTofs_keeps | apply State.smFast_keeps | apply State.standbyFast_keeps | apply State.standbyShorts_keeps | apply State.subjCheck_keeps | apply State.takeExchange_keeps | apply State.takeOver_keeps) | (intro _))

theorem execFastCycleStart_keeps {a s : State} (h : a.Keeps s) (l : Lane) (ovr : Bool) (caught : Option (BitVec 16 × Word)) :
    OutKeeps a (execFastCycleStart l ovr caught s) := by
  unfold execFastCycleStart
  repeat' (first | with_reducible assumption | (with_reducible first | apply State.Keeps.ite | apply State.fastCycle_keeps | apply State.sendFast_keeps | apply done_keeps) | split | (intro _))

theorem State.takeSource_keeps {a s : State} (h : a.Keeps s) (l : Lane) :
    a.Keeps (State.takeSource s l) := by
  unfold State.takeSource
  repeat' (first | with_reducible assumption | lift_lets -underBinder | (intro x; have hx : a.Keeps x := (by repeat' (first | with_reducible assumption | lift_lets -underBinder | (with_reducible first | apply State.Keeps.ite | apply State.Keeps.eng | apply State.put_keeps) | (intro _))); clear_value x) | (intro x; clear_value x) | (with_reducible first | apply State.Keeps.ite | apply State.Keeps.eng | apply State.put_keeps) | (intro _))

theorem State.loadTorque_keeps {a s : State} (h : a.Keeps s) (l : Lane) :
    a.Keeps (State.loadTorque s l) := by
  unfold State.loadTorque
  repeat' (first | with_reducible assumption | lift_lets -underBinder | (intro x; have hx : a.Keeps x := (by repeat' (first | with_reducible assumption | lift_lets -underBinder | (with_reducible first | apply State.Keeps.ite | apply State.Keeps.eng) | (intro _))); clear_value x) | (intro x; clear_value x) | (with_reducible first | apply State.Keeps.ite | apply State.Keeps.eng) | (intro _))

theorem State.group_keeps {a s : State} (h : a.Keeps s) (l : Lane) (rate : Nat) : a.Keeps (State.group s l rate) := by
  unfold State.group
  refine State.Keeps.ite (fun _ => State.afterGroup_keeps h l rate _ (fun z => State.runGroup_wf _ _ _ _ ?_)) (fun _ => h)
  obtain ⟨h1, h2, -⟩ := h.2 z
  cases l
  · exact h1.2.1
  · exact h2.2.1

theorem execMediumCycleStart_keeps {a s : State} (h : a.Keeps s) (l : Lane) (ovr : Bool) (g : GridMeas) :
    OutKeeps a (execMediumCycleStart l ovr g s) := by
  unfold execMediumCycleStart
  repeat' (first | with_reducible assumption | lift_lets -underBinder | (intro x; have hx : a.Keeps x := (by repeat' (first | with_reducible assumption | lift_lets -underBinder | (with_reducible first | apply State.Keeps.ite | apply State.Keeps.eng | apply State.captures_keeps | apply State.chgMedium_keeps | apply State.dclMedium_keeps | apply State.group_keeps | apply State.loadTorque_keeps | apply State.overrun_keeps | apply State.takeSource_keeps | apply done_keeps) | (first | split | (dsimp only [x]; split)) | (intro _))); clear_value x) | (intro x; clear_value x) | (with_reducible first | apply State.Keeps.ite | apply State.Keeps.eng | apply State.captures_keeps | apply State.chgMedium_keeps | apply State.dclMedium_keeps | apply State.group_keeps | apply State.loadTorque_keeps | apply State.overrun_keeps | apply State.takeSource_keeps | apply done_keeps) | split | (intro _))

theorem State.derateStep_keeps {a s : State} (h : a.Keeps s) (l : Lane) :
    a.Keeps (State.derateStep s l) := by
  unfold State.derateStep
  repeat' (first | with_reducible assumption | lift_lets -underBinder | (intro x; have hx : a.Keeps x := (by repeat' (first | with_reducible assumption | lift_lets -underBinder | (with_reducible first | apply State.Keeps.ite | apply State.Keeps.trc) | (intro _))); clear_value x) | (intro x; clear_value x) | (with_reducible first | apply State.Keeps.ite | apply State.Keeps.trc) | (intro _))

theorem State.splitCount_keeps {a s : State} (h : a.Keeps s) (l : Lane) :
    a.Keeps (State.splitCount s l) := by
  unfold State.splitCount
  repeat' (first | with_reducible assumption | lift_lets -underBinder | (intro x; have hx : a.Keeps x := (by repeat' (first | with_reducible assumption | lift_lets -underBinder | (with_reducible first | apply State.Keeps.ite | apply State.put_keeps) | (first | split | (dsimp only [x]; split)) | (intro _))); clear_value x) | (intro x; clear_value x) | (with_reducible first | apply State.Keeps.ite | apply State.put_keeps) | split | (intro _))

theorem State.testVectors_keeps {a s : State} (h : a.Keeps s) (l : Lane) (ok : Bool) :
    a.Keeps (State.testVectors s l ok) := by
  unfold State.testVectors
  repeat' (first | with_reducible assumption | lift_lets -underBinder | (intro x; have hx : a.Keeps x := (by repeat' (first | with_reducible assumption | lift_lets -underBinder | (with_reducible first | apply State.Keeps.ite | apply State.pulseEv_keeps | apply State.putFlag_keeps | apply State.selfFail_keeps) | (intro _))); clear_value x) | (intro x; clear_value x) | (with_reducible first | apply State.Keeps.ite | apply State.pulseEv_keeps | apply State.putFlag_keeps | apply State.selfFail_keeps) | (intro _))

theorem execSlowCycleStart_keeps {a s : State} (h : a.Keeps s) (l : Lane) (ovr : Bool) (tvOk : Bool) :
    OutKeeps a (execSlowCycleStart l ovr tvOk s) := by
  unfold execSlowCycleStart
  repeat' (first | (exact fun (_ : RedState) hx => hx) | with_reducible assumption | lift_lets -underBinder | (intro x; have hx : a.Keeps x := (by repeat' (first | (exact fun (_ : RedState) hx => hx) | with_reducible assumption | lift_lets -underBinder | (with_reducible first | apply State.Keeps.ite | apply State.Keeps.eng | apply State.Keeps.fbk | apply State.Keeps.red | apply State.captures_keeps | apply State.dclSlow_keeps | apply State.derateStep_keeps | apply State.group_keeps | apply State.overrun_keeps | apply State.splitCount_keeps | apply State.testVectors_keeps | apply done_keeps) | (first | split | (dsimp only [x]; split)) | (intro _))); clear_value x) | (intro x; clear_value x) | (with_reducible first | apply State.Keeps.ite | apply State.Keeps.eng | apply State.Keeps.fbk | apply State.Keeps.red | apply State.captures_keeps | apply State.dclSlow_keeps | apply State.derateStep_keeps | apply State.group_keeps | apply State.overrun_keeps | apply State.splitCount_keeps | apply State.testVectors_keeps | apply done_keeps) | split | (intro _))

end Sys2Proof.Machine
end

