-- ==== Sys2Proof/Laws/Only.lean ====
section
/-! SUPPORT. What every operation may change: a footprint is carried through an operation by one lemma per shared operation. -/
namespace Sys2Proof.Machine
set_option linter.all false
set_option Elab.async false

/-- A footprint within another. -/
def Foot.le (f g : Foot) : Bool :=
  f.parts.all (fun p => g.parts.contains p) && (g.anyPage || (!f.anyPage && f.pages.all (fun p => g.pages.contains p)))

theorem Foot.parts_of_le {f g : Foot} (h : f.le g = true) {p : Part} (hp : p ∈ f.parts) : p ∈ g.parts := by
  simp only [Foot.le, Bool.and_eq_true, List.all_eq_true, List.contains_iff_mem] at h
  exact h.1 p hp

theorem Foot.has_of_le {f g : Foot} (h : f.le g = true) {n : Nat} (hn : f.has n = true) : g.has n = true := by
  simp only [Foot.le, Foot.has, Bool.and_eq_true, Bool.or_eq_true, Bool.not_eq_true', List.all_eq_true, List.contains_iff_mem] at *
  rcases h.2 with a | ⟨b, c⟩
  · exact Or.inl (Or.inl a)
  · rcases hn with (d | d) | d
    · rw [b] at d; cases d
    · exact Or.inl (Or.inr d)
    · exact Or.inr (c _ d)

theorem Foot.any_of_le {f g : Foot} (h : f.le g = true) (hf : f.anyPage = true) : g.anyPage = true := by
  simp only [Foot.le, hf, Bool.and_eq_true, Bool.or_eq_true, Bool.not_true, Bool.false_and] at h
  rcases h.2 with a | a
  · exact a
  · cases a

theorem Foot.has_of_any {f g : Foot} {n : Nat} (h : f.le g = true) (hf : f.anyPage = true) : g.has n = true := by
  simp [Foot.has, Foot.any_of_le h hf]

theorem Foot.le_trans {f g k : Foot} (h : f.le g = true) (h' : g.le k = true) : f.le k = true := by
  simp only [Foot.le, Bool.and_eq_true, Bool.or_eq_true, Bool.not_eq_true', List.all_eq_true, List.contains_iff_mem] at *
  refine ⟨fun p hp => h'.1 p (h.1 p hp), ?_⟩
  rcases h'.2 with a | ⟨b, c⟩
  · exact Or.inl a
  · rcases h.2 with d | ⟨d, e⟩
    · rw [b] at d; cases d
    · exact Or.inr ⟨d, fun p hp => c p (e p hp)⟩

theorem Foot.has_type {f : Foot} {n t : Nat} (h : typeAt n = t) (ht : f.pages.contains t = true) : f.has n = true := by
  simp only [Foot.has, h, ht, Bool.or_true]

theorem State.Same.rfl' (p : Part) (s : State) : s.Same p s := by
  cases p <;> first | rfl | (intro l; first | rfl | trivial)

theorem State.Same.trans {p : Part} {s t u : State} (h : s.Same p t) (k : t.Same p u) : s.Same p u := by
  cases p <;> first | exact Eq.trans h k | exact fun l => Eq.trans (h l) (k l)

/-- An effect, an optional state and a state beside a value that keep within a footprint. -/
def EffOnly (f : Foot) (a : State) (e : Eff) : Prop := ∀ t, e = .ok t → a.Only f t
def WriteOnly (f : Foot) (a : State) (e : Except Rej (State × Status)) : Prop := ∀ t st, e = .ok (t, st) → a.Only f t
def OptOnly (f : Foot) (a : State) (o : Option State) : Prop := ∀ t, o = some t → a.Only f t
abbrev OutOnly (f : Foot) (a : State) (o : Out) : Prop := Completes o (a.Only f)

namespace State.Only
variable {g : Foot} {a s : State}

theorem refl : a.Only g a := ⟨fun p _ => State.Same.rfl' p a, fun _ _ _ => rfl⟩

theorem trans {b c : State} (h : a.Only g b) (k : b.Only g c) : a.Only g c :=
  ⟨fun p hp => (h.1 p hp).trans (k.1 p hp), fun l n hn => (k.2 l n hn).trans (h.2 l n hn)⟩

theorem wider {g' : Foot} (h : a.Only g s) (k : g.le g' = true) : a.Only g' s :=
  ⟨fun p hp => h.1 p (fun q => hp (Foot.parts_of_le k q)), fun l n hn => h.2 l n (by
    cases e : g.has n with
    | false => rfl
    | true => rw [Foot.has_of_le k e] at hn; cases hn)⟩

/-- A footprint that leaves nothing out allows every state. -/
theorem whole {t : State} (h : Foot.le ⟨[.hv, .lv, .sns, .aon, .free, .ofs, .mon, .hold, .boot, .mem, .flash, .shadows, .waiting, .timedHalves,
    .sess, .answer, .red, .saf, .cls, .trc, .eng, .fbk, .smp, .dcl, .chg, .act, .can, .ring, .bulkLast, .dup, .loopReq, .scrub, .legEvents], [],
    true⟩ g = true) : a.Only g t :=
  ⟨fun p hp => absurd (Foot.parts_of_le h (by cases p <;> decide)) hp, fun l n hn => by rw [Foot.has_of_any h rfl] at hn; cases hn⟩

/-- What events change lies within every footprint. -/
theorem events {t : State} (h : a.Only g s) (k : s.EvOnly t) : a.Only g t := by
  refine h.trans ⟨fun p _ => ?_, fun l n hn => k.word l n ?_⟩
  · cases p with
    | hv => exact k.hv.symm
    | lv => exact k.lv.symm
    | sns => exact k.sns.symm
    | aon => exact k.aon.symm
    | free => exact k.free.symm
    | ofs => exact k.timeOfs.symm
    | mon => exact k.mon.symm
    | saf => exact fun l => (congrArg LaneState.saf (k.lane l)).symm
    | ring => exact fun l => (congrArg LaneState.ring (k.lane l)).symm
    | hold => exact fun l => (congrArg LaneState.hold (k.lane l)).symm
    | boot => exact fun l => (congrArg LaneState.boot (k.lane l)).symm
    | mem => exact fun l => (congrArg LaneState.mem (k.lane l)).symm
    | flash => exact fun l => (congrArg LaneState.flash (k.lane l)).symm
    | shadows => exact fun l => (congrArg LaneState.shadows (k.lane l)).symm
    | waiting => exact fun l => (congrArg LaneState.waiting (k.lane l)).symm
    | timedHalves => exact fun l => (congrArg LaneState.timedHalves (k.lane l)).symm
    | sess => exact fun l => (congrArg LaneState.sess (k.lane l)).symm
    | answer => exact fun l => (congrArg LaneState.answer (k.lane l)).symm
    | red => exact fun l => (congrArg LaneState.red (k.lane l)).symm
    | cls => exact fun l => (congrArg LaneState.cls (k.lane l)).symm
    | trc => exact fun l => (congrArg LaneState.trc (k.lane l)).symm
    | eng => exact fun l => (congrArg LaneState.eng (k.lane l)).symm
    | fbk => exact fun l => (congrArg LaneState.fbk (k.lane l)).symm
    | smp => exact fun l => (congrArg LaneState.smp (k.lane l)).symm
    | dcl => exact fun l => (congrArg LaneState.dcl (k.lane l)).symm
    | chg => exact fun l => (congrArg LaneState.chg (k.lane l)).symm
    | act => exact fun l => (congrArg LaneState.act (k.lane l)).symm
    | can => exact fun l => (congrArg LaneState.can (k.lane l)).symm
    | bulkLast => exact fun l => (congrArg LaneState.bulkLast (k.lane l)).symm
    | dup => exact fun l => (congrArg LaneState.dup (k.lane l)).symm
    | loopReq => exact fun l => (congrArg LaneState.loopReq (k.lane l)).symm
    | scrub => exact fun l => (congrArg LaneState.scrub (k.lane l)).symm
    | legEvents => exact fun l => (congrArg LaneState.legEvents (k.lane l)).symm
  · simp only [Foot.has, Bool.or_eq_false_iff] at hn
    exact hn.1.2

/-- A change of one lane within its parts; `hr` says whether its registers may change. -/
theorem lane (h : a.Only g s) (l : Lane) (f : LaneState → LaneState) (hf : ∀ (x : LaneState) (p : Part), p ∉ g.parts → x.Same p (f x))
    (hr : g.anyPage = true ∨ ∀ x, (f x).regs = x.regs) : a.Only g (s.modLane l f) := by
  refine h.trans ⟨fun p hp => ?_, fun k n hn => ?_⟩
  · have key : ∀ k, (s.lane k).Same p ((s.modLane l f).lane k) := by
      intro k
      rw [State.lane_modLane]
      split
      · exact hf _ p hp
      · cases p <;> first | rfl | trivial
    cases p <;> first | rfl | exact key
  · rcases hr with r | r
    · simp [Foot.has, r] at hn
    · exact State.word_modLane _ _ _ _ _ (r _)

theorem mon (h : a.Only g s) (f : MonState → MonState) (hm : .mon ∈ g.parts) (hr : g.anyPage = true ∨ ∀ x, (f x).regs = x.regs) :
    a.Only g (s.modMon f) := by
  refine h.trans ⟨fun p hp => ?_, fun k n hn => ?_⟩
  · cases p <;> first | rfl | exact absurd hm hp | exact fun _ => rfl
  · rcases hr with r | r
    · simp [Foot.has, r] at hn
    · exact State.word_modMon _ _ _ _ (r _)

/-- A change of the module's own parts. -/
theorem hv (h : a.Only g s) (n : Fin 34) (f : HvIsl → HvIsl) (hm : .hv ∈ g.parts) : a.Only g (s.modHv n f) := by
  refine h.trans ⟨fun p hp => ?_, fun _ _ _ => rfl⟩
  cases p <;> first | rfl | exact absurd hm hp | exact fun _ => rfl
theorem lv (h : a.Only g s) (f : LvIsl → LvIsl) (hm : .lv ∈ g.parts) : a.Only g (s.modLv f) := by
  refine h.trans ⟨fun p hp => ?_, fun _ _ _ => rfl⟩
  cases p <;> first | rfl | exact absurd hm hp | exact fun _ => rfl
theorem lvCh (h : a.Only g s) (n : Fin 12) (f : LvChan → LvChan) (hm : .lv ∈ g.parts) : a.Only g (s.modLvCh n f) := lv h _ hm
theorem aon (h : a.Only g s) (f : Aon → Aon) (hm : .aon ∈ g.parts) : a.Only g (s.modAon f) := by
  refine h.trans ⟨fun p hp => ?_, fun _ _ _ => rfl⟩
  cases p <;> first | rfl | exact absurd hm hp | exact fun _ => rfl
theorem sns (h : a.Only g s) (n : Fin 7) (f : SnsIsl → SnsIsl) (hm : .sns ∈ g.parts) : a.Only g (s.modSns n f) := by
  refine h.trans ⟨fun p hp => ?_, fun _ _ _ => rfl⟩
  cases p <;> first | rfl | exact absurd hm hp | exact fun _ => rfl
theorem ofs (h : a.Only g s) (l : Lane) (f : Int → Int) (hm : .ofs ∈ g.parts) : a.Only g (s.modOfs l f) := by
  refine h.trans ⟨fun p hp => ?_, fun _ _ _ => rfl⟩
  cases p <;> first | rfl | exact absurd hm hp | exact fun _ => rfl
theorem withFree (h : a.Only g s) (v : Nat) (hm : .free ∈ g.parts) : a.Only g { s with free := v } := by
  refine h.trans ⟨fun p hp => ?_, fun _ _ _ => rfl⟩
  cases p <;> first | rfl | exact absurd hm hp | exact fun _ => rfl
theorem fresh (h : a.Only g s) (hm : .free ∈ g.parts) : a.Only g s.fresh.2 := withFree h _ hm
theorem freshPair {t : State} {w : Word} (e : s.fresh = (w, t)) (h : a.Only g s) (hm : .free ∈ g.parts) : a.Only g t := by
  cases e
  exact fresh h hm

/-- A change of one part of a lane. -/
theorem part (q : Part) (h : a.Only g s) (l : Lane) (f : LaneState → LaneState) (hf : ∀ (x : LaneState) (p : Part), p ≠ q → x.Same p (f x))
    (hr : ∀ x, (f x).regs = x.regs) (hm : q ∈ g.parts) : a.Only g (s.modLane l f) :=
  lane h l f (fun x p hp => hf x p (fun e => hp (e ▸ hm))) (Or.inr hr)

/-- A change of a lane's memories and of its compute engine. -/
theorem memEng (h : a.Only g s) (l : Lane) (m : LaneState → List Host.Cell) (e : LaneState → EngState) (hm : .mem ∈ g.parts) (he : .eng ∈ g.parts) :
    a.Only g (s.modLane l (fun x => { x with mem := m x, eng := e x })) := by
  refine lane h l _ (fun x p hp => ?_) (Or.inr (fun _ => rfl))
  cases p <;> first | rfl | trivial | exact absurd hm hp | exact absurd he hp

theorem red (h : a.Only g s) (l : Lane) (f : RedState → RedState) (hm : .red ∈ g.parts) : a.Only g (s.modRed l f) := by
  refine part .red h l _ (fun x p hp => ?_) (fun _ => rfl) hm
  cases p <;> first | rfl | trivial | exact absurd rfl hp
theorem trc (h : a.Only g s) (l : Lane) (f : TrcState → TrcState) (hm : .trc ∈ g.parts) : a.Only g (s.modTrc l f) := by
  refine part .trc h l _ (fun x p hp => ?_) (fun _ => rfl) hm
  cases p <;> first | rfl | trivial | exact absurd rfl hp
theorem eng (h : a.Only g s) (l : Lane) (f : EngState → EngState) (hm : .eng ∈ g.parts) : a.Only g (s.modEng l f) := by
  refine part .eng h l _ (fun x p hp => ?_) (fun _ => rfl) hm
  cases p <;> first | rfl | trivial | exact absurd rfl hp
theorem fbk (h : a.Only g s) (l : Lane) (f : FbkState → FbkState) (hm : .fbk ∈ g.parts) : a.Only g (s.modFbk l f) := by
  refine part .fbk h l _ (fun x p hp => ?_) (fun _ => rfl) hm
  cases p <;> first | rfl | trivial | exact absurd rfl hp
theorem smp (h : a.Only g s) (l : Lane) (f : SmpState → SmpState) (hm : .smp ∈ g.parts) : a.Only g (s.modSmp l f) := by
  refine part .smp h l _ (fun x p hp => ?_) (fun _ => rfl) hm
  cases p <;> first | rfl | trivial | exact absurd rfl hp
theorem dcl (h : a.Only g s) (l : Lane) (f : DclState → DclState) (hm : .dcl ∈ g.parts) : a.Only g (s.modDcl l f) := by
  refine part .dcl h l _ (fun x p hp => ?_) (fun _ => rfl) hm
  cases p <;> first | rfl | trivial | exact absurd rfl hp
theorem chg (h : a.Only g s) (l : Lane) (f : ChgState → ChgState) (hm : .chg ∈ g.parts) : a.Only g (s.modChg l f) := by
  refine part .chg h l _ (fun x p hp => ?_) (fun _ => rfl) hm
  cases p <;> first | rfl | trivial | exact absurd rfl hp
theorem act (h : a.Only g s) (l : Lane) (n : Fin 2) (f : ActState → ActState) (hm : .act ∈ g.parts) : a.Only g (s.modAct l n f) := by
  refine part .act h l _ (fun x p hp => ?_) (fun _ => rfl) hm
  cases p <;> first | rfl | trivial | exact absurd rfl hp
theorem boot (h : a.Only g s) (l : Lane) (f : BootState → BootState) (hm : .boot ∈ g.parts) : a.Only g (s.modBoot l f) := by
  refine part .boot h l _ (fun x p hp => ?_) (fun _ => rfl) hm
  cases p <;> first | rfl | trivial | exact absurd rfl hp
theorem hold (h : a.Only g s) (l : Lane) (f : Hold → Hold) (hm : .hold ∈ g.parts) : a.Only g (s.modHold l f) := by
  refine part .hold h l _ (fun x p hp => ?_) (fun _ => rfl) hm
  cases p <;> first | rfl | trivial | exact absurd rfl hp
theorem saf (h : a.Only g s) (l : Lane) (f : SafLines → SafLines) (hm : .saf ∈ g.parts) : a.Only g (s.modSaf l f) := by
  refine part .saf h l _ (fun x p hp => ?_) (fun _ => rfl) hm
  cases p <;> first | rfl | trivial | exact absurd rfl hp
theorem ring (h : a.Only g s) (l : Lane) (f : RingState → RingState) (hm : .ring ∈ g.parts) : a.Only g (s.modRing l f) := by
  refine part .ring h l _ (fun x p hp => ?_) (fun _ => rfl) hm
  cases p <;> first | rfl | trivial | exact absurd rfl hp

theorem putWord (h : a.Only g s) (l : Lane) (n : Nat) (w : Word) (hn : g.has n = true) : a.Only g (s.putWord l n w) := by
  refine h.trans ⟨fun p _ => ?_, fun k m hm => ?_⟩
  · cases p <;> first | simp [State.Same, LaneState.Same, LaneState.still, MonState.still]
  · rw [State.word_putWord_ne]
    intro e
    rw [e, hm] at hn
    cases hn

theorem put (h : a.Only g s) (l : Lane) (f : Fld) (v : Nat) (hn : g.has f.addr = true) : a.Only g (s.put l f v) := putWord h _ _ _ hn
theorem putFlag (h : a.Only g s) (l : Lane) (f : Fld) (v : Bool) (hn : g.has f.addr = true) : a.Only g (s.putFlag l f v) := put h _ _ _ hn
theorem bump (h : a.Only g s) (l : Lane) (f : Fld) (v : Nat) (hn : g.has f.addr = true) : a.Only g (s.bump l f v) := put h _ _ _ hn
theorem mput (h : a.Only g s) (f : Fld) (v : Nat) (hn : g.has f.addr = true) : a.Only g (s.mput f v) := put h _ _ _ hn
theorem mputFlag (h : a.Only g s) (f : Fld) (v : Bool) (hn : g.has f.addr = true) : a.Only g (s.mputFlag f v) := put h _ _ _ hn
theorem mbump (h : a.Only g s) (f : Fld) (v : Nat) (hn : g.has f.addr = true) : a.Only g (s.mbump f v) := put h _ _ _ hn

theorem pulseEv (h : a.Only g s) (l : Lane) (e : Ev) (f : Bool) (he : State.EvOnly.Proper e) : a.Only g (s.pulseEv l e f) :=
  h.events (s.pulseEv_only l e f he)
theorem levelEv (h : a.Only g s) (l : Lane) (e : Ev) (on : Bool) (he : State.EvOnly.Proper e) : a.Only g (s.levelEv l e on) :=
  h.events (s.levelEv_only l e on he)
/-- A frame sent is one of the things that events change, too. -/
theorem send (h : a.Only g s) (l : Lane) (e : Bool) (f : Sent) : a.Only g (s.send l e f) := h.events (State.EvOnly.refl.send l e f)
theorem drainEvents (h : a.Only g s) (l : Lane) (e : Bool) (n : Nat) : a.Only g (s.drainEvents l e n) := by
  induction n generalizing s with
  | zero => exact h
  | succ n ih =>
    unfold State.drainEvents
    split
    · exact h
    · refine ih (h.events (State.EvOnly.sendEvent ?_ _ _ _))
      refine State.EvOnly.modLane State.EvOnly.refl l _ ?_ ?_ <;> intro _ <;> rfl
theorem monEv (h : a.Only g s) (e : Ev) (he : State.EvOnly.Proper e) : a.Only g (s.monEv e) := pulseEv h _ _ _ he
theorem monLevel (h : a.Only g s) (e : Ev) (on : Bool) (he : State.EvOnly.Proper e) : a.Only g (s.monLevel e on) := levelEv h _ _ _ he

theorem ite {p : Prop} [Decidable p] {t : State} (h : p → a.Only g s) (k : ¬p → a.Only g t) : a.Only g (if p then s else t) := by
  split
  · exact h ‹_›
  · exact k ‹_›

theorem fold {α : Type} (xs : List α) (f : State → α → State) (h : a.Only g s) (hf : ∀ s x, a.Only g s → a.Only g (f s x)) :
    a.Only g (xs.foldl f s) := by
  induction xs generalizing s with
  | nil => exact h
  | cons x t ih => exact ih (hf _ _ h)

theorem foldOf {α : Type} (xs : List α) (f : State → α → State) (h : a.Only g s)
    (hf : ∀ s x, x ∈ xs → a.Only g s → a.Only g (f s x)) : a.Only g (xs.foldl f s) := by
  induction xs generalizing s with
  | nil => exact h
  | cons x t ih => exact ih (hf _ _ (List.mem_cons_self ..) h) (fun s y hy => hf s y (List.mem_cons_of_mem _ hy))

theorem both (h : a.Only g s) (f : Lane → State → State) (hf : ∀ l s, a.Only g s → a.Only g (f l s)) : a.Only g (s.both f) :=
  hf _ _ (hf _ _ h)

theorem effOk (h : a.Only g s) : EffOnly g a (.ok s) := fun _ e => by cases e; exact h
theorem effError (r : Rej) : EffOnly g a (.error r) := fun _ e => by cases e
theorem writeOk (h : a.Only g s) (st : Status) : WriteOnly g a (.ok (s, st)) := fun _ _ e => by cases e; exact h
theorem writeError (r : Rej) : WriteOnly g a (.error r) := fun _ _ e => by cases e
theorem optSome (h : a.Only g s) : OptOnly g a (some s) := fun _ e => by cases e; exact h
theorem optNone : OptOnly g a none := fun _ e => by cases e

theorem done (h : a.Only g s) : OutOnly g a (Machine.done s) := ⟨s, rfl, h⟩

theorem getD {o : Option State} (h : a.Only g s) (k : OptOnly g a o) : a.Only g (o.getD s) := by
  cases o with
  | none => exact h
  | some t => exact k t rfl

theorem effIte {p : Prop} [Decidable p] {x y : Eff} (h : EffOnly g a x) (k : EffOnly g a y) : EffOnly g a (if p then x else y) := by
  split
  · exact h
  · exact k

theorem effBind (x : Eff) (k : State → Eff) (hx : EffOnly g a x) (hk : ∀ s, a.Only g s → EffOnly g a (k s)) :
    EffOnly g a (x >>= k) := by
  cases x with
  | ok t => exact hk t (hx t rfl)
  | error r => exact effError r

theorem effGuard {α : Type} (x : Except Rej α) (k : α → Eff) (hk : ∀ u, EffOnly g a (k u)) : EffOnly g a (x >>= k) := by
  cases x with
  | ok t => exact hk t
  | error r => exact effError r

theorem writeBindEff (x : Eff) (k : State → Except Rej (State × Status)) (hx : EffOnly g a x)
    (hk : ∀ s, a.Only g s → WriteOnly g a (k s)) : WriteOnly g a (x >>= k) := by
  cases x with
  | ok t => exact hk t (hx t rfl)
  | error r => exact writeError r

theorem writeBind (x : Except Rej (State × Status)) (k : State × Status → Except Rej (State × Status)) (hx : WriteOnly g a x)
    (hk : ∀ s st, a.Only g s → WriteOnly g a (k (s, st))) : WriteOnly g a (x >>= k) := by
  cases x with
  | ok t => exact hk t.1 t.2 (hx t.1 t.2 rfl)
  | error r => exact writeError r

theorem writeGuard {α : Type} (x : Except Rej α) (k : α → Except Rej (State × Status)) (hk : ∀ u, WriteOnly g a (k u)) :
    WriteOnly g a (x >>= k) := by
  cases x with
  | ok t => exact hk t
  | error r => exact writeError r

end State.Only
end Sys2Proof.Machine
end

