-- ==== Sys2Proof/Laws/Only/Types.lean ====
section
/-! SUPPORT. The kind of page of every indexed field that an operation writes. -/
namespace Sys2Proof.Machine.F

theorem ACT_CFG_HALL_N_has (n : Nat) (h : n < 2) (f : Foot) (hf : f.pages.contains 0x34 = true) : f.has (F.ACT_CFG_HALL_N n).addr = true := by
  have e : typeAt (F.ACT_CFG_HALL_N n).addr = 0x34 := (by decide : ∀ n : Fin 2, typeAt (F.ACT_CFG_HALL_N n.val).addr = 0x34) ⟨n, h⟩
  simp only [Foot.has, e, hf, Bool.or_true]

theorem ACT_CFG_ILIM_has (n : Nat) (h : n < 2) (f : Foot) (hf : f.pages.contains 0x34 = true) : f.has (F.ACT_CFG_ILIM n).addr = true := by
  have e : typeAt (F.ACT_CFG_ILIM n).addr = 0x34 := (by decide : ∀ n : Fin 2, typeAt (F.ACT_CFG_ILIM n.val).addr = 0x34) ⟨n, h⟩
  simp only [Foot.has, e, hf, Bool.or_true]

theorem ACT_CFG_SECT_OFS_has (n : Nat) (h : n < 2) (f : Foot) (hf : f.pages.contains 0x34 = true) : f.has (F.ACT_CFG_SECT_OFS n).addr = true := by
  have e : typeAt (F.ACT_CFG_SECT_OFS n).addr = 0x34 := (by decide : ∀ n : Fin 2, typeAt (F.ACT_CFG_SECT_OFS n.val).addr = 0x34) ⟨n, h⟩
  simp only [Foot.has, e, hf, Bool.or_true]

theorem ACT_CFG_SEQ_has (n : Nat) (h : n < 2) (f : Foot) (hf : f.pages.contains 0x34 = true) : f.has (F.ACT_CFG_SEQ n).addr = true := by
  have e : typeAt (F.ACT_CFG_SEQ n).addr = 0x34 := (by decide : ∀ n : Fin 2, typeAt (F.ACT_CFG_SEQ n.val).addr = 0x34) ⟨n, h⟩
  simp only [Foot.has, e, hf, Bool.or_true]

theorem ACT_CNT_FLT_has (n : Nat) (h : n < 2) (f : Foot) (hf : f.pages.contains 0x34 = true) : f.has (F.ACT_CNT_FLT n).addr = true := by
  have e : typeAt (F.ACT_CNT_FLT n).addr = 0x34 := (by decide : ∀ n : Fin 2, typeAt (F.ACT_CNT_FLT n.val).addr = 0x34) ⟨n, h⟩
  simp only [Foot.has, e, hf, Bool.or_true]

theorem ACT_CNT_HALL_has (n : Nat) (h : n < 2) (f : Foot) (hf : f.pages.contains 0x34 = true) : f.has (F.ACT_CNT_HALL n).addr = true := by
  have e : typeAt (F.ACT_CNT_HALL n).addr = 0x34 := (by decide : ∀ n : Fin 2, typeAt (F.ACT_CNT_HALL n.val).addr = 0x34) ⟨n, h⟩
  simp only [Foot.has, e, hf, Bool.or_true]

theorem ACT_CNT_LOCK_has (n : Nat) (h : n < 2) (f : Foot) (hf : f.pages.contains 0x34 = true) : f.has (F.ACT_CNT_LOCK n).addr = true := by
  have e : typeAt (F.ACT_CNT_LOCK n).addr = 0x34 := (by decide : ∀ n : Fin 2, typeAt (F.ACT_CNT_LOCK n.val).addr = 0x34) ⟨n, h⟩
  simp only [Foot.has, e, hf, Bool.or_true]

theorem ACT_CNT_TMO_has (n : Nat) (h : n < 2) (f : Foot) (hf : f.pages.contains 0x34 = true) : f.has (F.ACT_CNT_TMO n).addr = true := by
  have e : typeAt (F.ACT_CNT_TMO n).addr = 0x34 := (by decide : ∀ n : Fin 2, typeAt (F.ACT_CNT_TMO n.val).addr = 0x34) ⟨n, h⟩
  simp only [Foot.has, e, hf, Bool.or_true]

theorem ACT_END_TRAVEL_has (n : Nat) (h : n < 2) (f : Foot) (hf : f.pages.contains 0x34 = true) : f.has (F.ACT_END_TRAVEL n).addr = true := by
  have e : typeAt (F.ACT_END_TRAVEL n).addr = 0x34 := (by decide : ∀ n : Fin 2, typeAt (F.ACT_END_TRAVEL n.val).addr = 0x34) ⟨n, h⟩
  simp only [Foot.has, e, hf, Bool.or_true]

theorem ACT_I_I_has (n : Nat) (h : n < 2) (f : Foot) (hf : f.pages.contains 0x34 = true) : f.has (F.ACT_I_I n).addr = true := by
  have e : typeAt (F.ACT_I_I n).addr = 0x34 := (by decide : ∀ n : Fin 2, typeAt (F.ACT_I_I n.val).addr = 0x34) ⟨n, h⟩
  simp only [Foot.has, e, hf, Bool.or_true]

theorem ACT_LEARN_LEARN_DUTY_has (n : Nat) (h : n < 2) (f : Foot) (hf : f.pages.contains 0x34 = true) : f.has (F.ACT_LEARN_LEARN_DUTY n).addr = true := by
  have e : typeAt (F.ACT_LEARN_LEARN_DUTY n).addr = 0x34 := (by decide : ∀ n : Fin 2, typeAt (F.ACT_LEARN_LEARN_DUTY n.val).addr = 0x34) ⟨n, h⟩
  simp only [Foot.has, e, hf, Bool.or_true]

theorem ACT_LEARN_LEARN_I_has (n : Nat) (h : n < 2) (f : Foot) (hf : f.pages.contains 0x34 = true) : f.has (F.ACT_LEARN_LEARN_I n).addr = true := by
  have e : typeAt (F.ACT_LEARN_LEARN_I n).addr = 0x34 := (by decide : ∀ n : Fin 2, typeAt (F.ACT_LEARN_LEARN_I n.val).addr = 0x34) ⟨n, h⟩
  simp only [Foot.has, e, hf, Bool.or_true]

theorem ACT_MOVE_END_WIN_has (n : Nat) (h : n < 2) (f : Foot) (hf : f.pages.contains 0x34 = true) : f.has (F.ACT_MOVE_END_WIN n).addr = true := by
  have e : typeAt (F.ACT_MOVE_END_WIN n).addr = 0x34 := (by decide : ∀ n : Fin 2, typeAt (F.ACT_MOVE_END_WIN n.val).addr = 0x34) ⟨n, h⟩
  simp only [Foot.has, e, hf, Bool.or_true]

theorem ACT_MOVE_POS_WIN_has (n : Nat) (h : n < 2) (f : Foot) (hf : f.pages.contains 0x34 = true) : f.has (F.ACT_MOVE_POS_WIN n).addr = true := by
  have e : typeAt (F.ACT_MOVE_POS_WIN n).addr = 0x34 := (by decide : ∀ n : Fin 2, typeAt (F.ACT_MOVE_POS_WIN n.val).addr = 0x34) ⟨n, h⟩
  simp only [Foot.has, e, hf, Bool.or_true]

theorem ACT_POS_POS_has (n : Nat) (h : n < 2) (f : Foot) (hf : f.pages.contains 0x34 = true) : f.has (F.ACT_POS_POS n).addr = true := by
  have e : typeAt (F.ACT_POS_POS n).addr = 0x34 := (by decide : ∀ n : Fin 2, typeAt (F.ACT_POS_POS n.val).addr = 0x34) ⟨n, h⟩
  simp only [Foot.has, e, hf, Bool.or_true]

theorem ACT_SHUNT_GAIN_has (n : Nat) (h : n < 2) (f : Foot) (hf : f.pages.contains 0x34 = true) : f.has (F.ACT_SHUNT_GAIN n).addr = true := by
  have e : typeAt (F.ACT_SHUNT_GAIN n).addr = 0x34 := (by decide : ∀ n : Fin 2, typeAt (F.ACT_SHUNT_GAIN n.val).addr = 0x34) ⟨n, h⟩
  simp only [Foot.has, e, hf, Bool.or_true]

theorem ACT_STAT_CAUSE_has (n : Nat) (h : n < 2) (f : Foot) (hf : f.pages.contains 0x34 = true) : f.has (F.ACT_STAT_CAUSE n).addr = true := by
  have e : typeAt (F.ACT_STAT_CAUSE n).addr = 0x34 := (by decide : ∀ n : Fin 2, typeAt (F.ACT_STAT_CAUSE n.val).addr = 0x34) ⟨n, h⟩
  simp only [Foot.has, e, hf, Bool.or_true]

theorem ACT_STAT_DONE_has (n : Nat) (h : n < 2) (f : Foot) (hf : f.pages.contains 0x34 = true) : f.has (F.ACT_STAT_DONE n).addr = true := by
  have e : typeAt (F.ACT_STAT_DONE n).addr = 0x34 := (by decide : ∀ n : Fin 2, typeAt (F.ACT_STAT_DONE n.val).addr = 0x34) ⟨n, h⟩
  simp only [Foot.has, e, hf, Bool.or_true]

theorem ACT_STAT_FLIM_has (n : Nat) (h : n < 2) (f : Foot) (hf : f.pages.contains 0x34 = true) : f.has (F.ACT_STAT_FLIM n).addr = true := by
  have e : typeAt (F.ACT_STAT_FLIM n).addr = 0x34 := (by decide : ∀ n : Fin 2, typeAt (F.ACT_STAT_FLIM n.val).addr = 0x34) ⟨n, h⟩
  simp only [Foot.has, e, hf, Bool.or_true]

theorem ACT_STAT_LOCKED_has (n : Nat) (h : n < 2) (f : Foot) (hf : f.pages.contains 0x34 = true) : f.has (F.ACT_STAT_LOCKED n).addr = true := by
  have e : typeAt (F.ACT_STAT_LOCKED n).addr = 0x34 := (by decide : ∀ n : Fin 2, typeAt (F.ACT_STAT_LOCKED n.val).addr = 0x34) ⟨n, h⟩
  simp only [Foot.has, e, hf, Bool.or_true]

theorem ACT_STAT_REF_has (n : Nat) (h : n < 2) (f : Foot) (hf : f.pages.contains 0x34 = true) : f.has (F.ACT_STAT_REF n).addr = true := by
  have e : typeAt (F.ACT_STAT_REF n).addr = 0x34 := (by decide : ∀ n : Fin 2, typeAt (F.ACT_STAT_REF n.val).addr = 0x34) ⟨n, h⟩
  simp only [Foot.has, e, hf, Bool.or_true]

theorem ACT_STAT_SECTOR_has (n : Nat) (h : n < 2) (f : Foot) (hf : f.pages.contains 0x34 = true) : f.has (F.ACT_STAT_SECTOR n).addr = true := by
  have e : typeAt (F.ACT_STAT_SECTOR n).addr = 0x34 := (by decide : ∀ n : Fin 2, typeAt (F.ACT_STAT_SECTOR n.val).addr = 0x34) ⟨n, h⟩
  simp only [Foot.has, e, hf, Bool.or_true]

theorem ACT_STAT_STATE_has (n : Nat) (h : n < 2) (f : Foot) (hf : f.pages.contains 0x34 = true) : f.has (F.ACT_STAT_STATE n).addr = true := by
  have e : typeAt (F.ACT_STAT_STATE n).addr = 0x34 := (by decide : ∀ n : Fin 2, typeAt (F.ACT_STAT_STATE n.val).addr = 0x34) ⟨n, h⟩
  simp only [Foot.has, e, hf, Bool.or_true]

theorem ACT_STAT_VLV_OK_has (n : Nat) (h : n < 2) (f : Foot) (hf : f.pages.contains 0x34 = true) : f.has (F.ACT_STAT_VLV_OK n).addr = true := by
  have e : typeAt (F.ACT_STAT_VLV_OK n).addr = 0x34 := (by decide : ∀ n : Fin 2, typeAt (F.ACT_STAT_VLV_OK n.val).addr = 0x34) ⟨n, h⟩
  simp only [Foot.has, e, hf, Bool.or_true]

theorem ACT_TGT_TARGET_has (n : Nat) (h : n < 2) (f : Foot) (hf : f.pages.contains 0x34 = true) : f.has (F.ACT_TGT_TARGET n).addr = true := by
  have e : typeAt (F.ACT_TGT_TARGET n).addr = 0x34 := (by decide : ∀ n : Fin 2, typeAt (F.ACT_TGT_TARGET n.val).addr = 0x34) ⟨n, h⟩
  simp only [Foot.has, e, hf, Bool.or_true]

theorem ACT_TRAVEL_TRAVEL_MAX_has (n : Nat) (h : n < 2) (f : Foot) (hf : f.pages.contains 0x34 = true) : f.has (F.ACT_TRAVEL_TRAVEL_MAX n).addr = true := by
  have e : typeAt (F.ACT_TRAVEL_TRAVEL_MAX n).addr = 0x34 := (by decide : ∀ n : Fin 2, typeAt (F.ACT_TRAVEL_TRAVEL_MAX n.val).addr = 0x34) ⟨n, h⟩
  simp only [Foot.has, e, hf, Bool.or_true]

theorem ACT_TRAVEL_TRAVEL_MIN_has (n : Nat) (h : n < 2) (f : Foot) (hf : f.pages.contains 0x34 = true) : f.has (F.ACT_TRAVEL_TRAVEL_MIN n).addr = true := by
  have e : typeAt (F.ACT_TRAVEL_TRAVEL_MIN n).addr = 0x34 := (by decide : ∀ n : Fin 2, typeAt (F.ACT_TRAVEL_TRAVEL_MIN n.val).addr = 0x34) ⟨n, h⟩
  simp only [Foot.has, e, hf, Bool.or_true]

theorem BULK_DESC0_CMD_has (n : Nat) (h : n < 64) (f : Foot) (hf : f.pages.contains 0x61 = true) : f.has (F.BULK_DESC0_CMD n).addr = true := by
  have e : typeAt (F.BULK_DESC0_CMD n).addr = 0x61 := (by decide : ∀ n : Fin 64, typeAt (F.BULK_DESC0_CMD n.val).addr = 0x61) ⟨n, h⟩
  simp only [Foot.has, e, hf, Bool.or_true]

theorem BULK_DESC0_LEN_has (n : Nat) (h : n < 64) (f : Foot) (hf : f.pages.contains 0x61 = true) : f.has (F.BULK_DESC0_LEN n).addr = true := by
  have e : typeAt (F.BULK_DESC0_LEN n).addr = 0x61 := (by decide : ∀ n : Fin 64, typeAt (F.BULK_DESC0_LEN n.val).addr = 0x61) ⟨n, h⟩
  simp only [Foot.has, e, hf, Bool.or_true]

theorem BULK_DESC0_OWN_has (n : Nat) (h : n < 64) (f : Foot) (hf : f.pages.contains 0x61 = true) : f.has (F.BULK_DESC0_OWN n).addr = true := by
  have e : typeAt (F.BULK_DESC0_OWN n).addr = 0x61 := (by decide : ∀ n : Fin 64, typeAt (F.BULK_DESC0_OWN n.val).addr = 0x61) ⟨n, h⟩
  simp only [Foot.has, e, hf, Bool.or_true]

theorem BULK_DESC0_SLOT_has (n : Nat) (h : n < 64) (f : Foot) (hf : f.pages.contains 0x61 = true) : f.has (F.BULK_DESC0_SLOT n).addr = true := by
  have e : typeAt (F.BULK_DESC0_SLOT n).addr = 0x61 := (by decide : ∀ n : Fin 64, typeAt (F.BULK_DESC0_SLOT n.val).addr = 0x61) ⟨n, h⟩
  simp only [Foot.has, e, hf, Bool.or_true]

theorem BULK_DESC1_ARG_has (n : Nat) (h : n < 64) (f : Foot) (hf : f.pages.contains 0x61 = true) : f.has (F.BULK_DESC1_ARG n).addr = true := by
  have e : typeAt (F.BULK_DESC1_ARG n).addr = 0x61 := (by decide : ∀ n : Fin 64, typeAt (F.BULK_DESC1_ARG n.val).addr = 0x61) ⟨n, h⟩
  simp only [Foot.has, e, hf, Bool.or_true]

theorem BULK_DESC1_STATUS_has (n : Nat) (h : n < 64) (f : Foot) (hf : f.pages.contains 0x61 = true) : f.has (F.BULK_DESC1_STATUS n).addr = true := by
  have e : typeAt (F.BULK_DESC1_STATUS n).addr = 0x61 := (by decide : ∀ n : Fin 64, typeAt (F.BULK_DESC1_STATUS n.val).addr = 0x61) ⟨n, h⟩
  simp only [Foot.has, e, hf, Bool.or_true]

theorem CAN_CNT_BUSOFF_has (n : Nat) (h : n < 2) (f : Foot) (hf : f.pages.contains 0x70 = true) : f.has (F.CAN_CNT_BUSOFF n).addr = true := by
  have e : typeAt (F.CAN_CNT_BUSOFF n).addr = 0x70 := (by decide : ∀ n : Fin 2, typeAt (F.CAN_CNT_BUSOFF n.val).addr = 0x70) ⟨n, h⟩
  simp only [Foot.has, e, hf, Bool.or_true]

theorem CAN_CNT_NOACK_has (n : Nat) (h : n < 2) (f : Foot) (hf : f.pages.contains 0x70 = true) : f.has (F.CAN_CNT_NOACK n).addr = true := by
  have e : typeAt (F.CAN_CNT_NOACK n).addr = 0x70 := (by decide : ∀ n : Fin 2, typeAt (F.CAN_CNT_NOACK n.val).addr = 0x70) ⟨n, h⟩
  simp only [Foot.has, e, hf, Bool.or_true]

theorem CAN_CNT_TXFAIL_has (n : Nat) (h : n < 2) (f : Foot) (hf : f.pages.contains 0x70 = true) : f.has (F.CAN_CNT_TXFAIL n).addr = true := by
  have e : typeAt (F.CAN_CNT_TXFAIL n).addr = 0x70 := (by decide : ∀ n : Fin 2, typeAt (F.CAN_CNT_TXFAIL n.val).addr = 0x70) ⟨n, h⟩
  simp only [Foot.has, e, hf, Bool.or_true]

theorem CAN_CNT_TXOK_has (n : Nat) (h : n < 2) (f : Foot) (hf : f.pages.contains 0x70 = true) : f.has (F.CAN_CNT_TXOK n).addr = true := by
  have e : typeAt (F.CAN_CNT_TXOK n).addr = 0x70 := (by decide : ∀ n : Fin 2, typeAt (F.CAN_CNT_TXOK n.val).addr = 0x70) ⟨n, h⟩
  simp only [Foot.has, e, hf, Bool.or_true]

theorem CAN_CTRL_AUTO_REC_has (n : Nat) (h : n < 2) (f : Foot) (hf : f.pages.contains 0x70 = true) : f.has (F.CAN_CTRL_AUTO_REC n).addr = true := by
  have e : typeAt (F.CAN_CTRL_AUTO_REC n).addr = 0x70 := (by decide : ∀ n : Fin 2, typeAt (F.CAN_CTRL_AUTO_REC n.val).addr = 0x70) ⟨n, h⟩
  simp only [Foot.has, e, hf, Bool.or_true]

theorem CAN_CTRL_BRSE_has (n : Nat) (h : n < 2) (f : Foot) (hf : f.pages.contains 0x70 = true) : f.has (F.CAN_CTRL_BRSE n).addr = true := by
  have e : typeAt (F.CAN_CTRL_BRSE n).addr = 0x70 := (by decide : ∀ n : Fin 2, typeAt (F.CAN_CTRL_BRSE n.val).addr = 0x70) ⟨n, h⟩
  simp only [Foot.has, e, hf, Bool.or_true]

theorem CAN_CTRL_FDE_has (n : Nat) (h : n < 2) (f : Foot) (hf : f.pages.contains 0x70 = true) : f.has (F.CAN_CTRL_FDE n).addr = true := by
  have e : typeAt (F.CAN_CTRL_FDE n).addr = 0x70 := (by decide : ∀ n : Fin 2, typeAt (F.CAN_CTRL_FDE n.val).addr = 0x70) ⟨n, h⟩
  simp only [Foot.has, e, hf, Bool.or_true]

theorem CAN_CTRL_INIT_has (n : Nat) (h : n < 2) (f : Foot) (hf : f.pages.contains 0x70 = true) : f.has (F.CAN_CTRL_INIT n).addr = true := by
  have e : typeAt (F.CAN_CTRL_INIT n).addr = 0x70 := (by decide : ∀ n : Fin 2, typeAt (F.CAN_CTRL_INIT n.val).addr = 0x70) ⟨n, h⟩
  simp only [Foot.has, e, hf, Bool.or_true]

theorem CAN_CTRL_MODE_has (n : Nat) (h : n < 2) (f : Foot) (hf : f.pages.contains 0x70 = true) : f.has (F.CAN_CTRL_MODE n).addr = true := by
  have e : typeAt (F.CAN_CTRL_MODE n).addr = 0x70 := (by decide : ∀ n : Fin 2, typeAt (F.CAN_CTRL_MODE n.val).addr = 0x70) ⟨n, h⟩
  simp only [Foot.has, e, hf, Bool.or_true]

theorem CAN_CTRL_ONESHOT_has (n : Nat) (h : n < 2) (f : Foot) (hf : f.pages.contains 0x70 = true) : f.has (F.CAN_CTRL_ONESHOT n).addr = true := by
  have e : typeAt (F.CAN_CTRL_ONESHOT n).addr = 0x70 := (by decide : ∀ n : Fin 2, typeAt (F.CAN_CTRL_ONESHOT n.val).addr = 0x70) ⟨n, h⟩
  simp only [Foot.has, e, hf, Bool.or_true]

theorem CAN_CTRL_PXHD_has (n : Nat) (h : n < 2) (f : Foot) (hf : f.pages.contains 0x70 = true) : f.has (F.CAN_CTRL_PXHD n).addr = true := by
  have e : typeAt (F.CAN_CTRL_PXHD n).addr = 0x70 := (by decide : ∀ n : Fin 2, typeAt (F.CAN_CTRL_PXHD n.val).addr = 0x70) ⟨n, h⟩
  simp only [Foot.has, e, hf, Bool.or_true]

theorem CAN_CTRL_RETRY_has (n : Nat) (h : n < 2) (f : Foot) (hf : f.pages.contains 0x70 = true) : f.has (F.CAN_CTRL_RETRY n).addr = true := by
  have e : typeAt (F.CAN_CTRL_RETRY n).addr = 0x70 := (by decide : ∀ n : Fin 2, typeAt (F.CAN_CTRL_RETRY n.val).addr = 0x70) ⟨n, h⟩
  simp only [Foot.has, e, hf, Bool.or_true]

theorem CAN_FCFG_NFILT_has (n : Nat) (h : n < 2) (f : Foot) (hf : f.pages.contains 0x70 = true) : f.has (F.CAN_FCFG_NFILT n).addr = true := by
  have e : typeAt (F.CAN_FCFG_NFILT n).addr = 0x70 := (by decide : ∀ n : Fin 2, typeAt (F.CAN_FCFG_NFILT n.val).addr = 0x70) ⟨n, h⟩
  simp only [Foot.has, e, hf, Bool.or_true]

theorem CAN_FCFG_NOMATCH_has (n : Nat) (h : n < 2) (f : Foot) (hf : f.pages.contains 0x70 = true) : f.has (F.CAN_FCFG_NOMATCH n).addr = true := by
  have e : typeAt (F.CAN_FCFG_NOMATCH n).addr = 0x70 := (by decide : ∀ n : Fin 2, typeAt (F.CAN_FCFG_NOMATCH n.val).addr = 0x70) ⟨n, h⟩
  simp only [Foot.has, e, hf, Bool.or_true]

theorem CAN_RXQ_FILL_has (n : Nat) (h : n < 2) (f : Foot) (hf : f.pages.contains 0x70 = true) : f.has (F.CAN_RXQ_FILL n).addr = true := by
  have e : typeAt (F.CAN_RXQ_FILL n).addr = 0x70 := (by decide : ∀ n : Fin 2, typeAt (F.CAN_RXQ_FILL n.val).addr = 0x70) ⟨n, h⟩
  simp only [Foot.has, e, hf, Bool.or_true]

theorem CAN_RXQ_OVF_CNT_has (n : Nat) (h : n < 2) (f : Foot) (hf : f.pages.contains 0x70 = true) : f.has (F.CAN_RXQ_OVF_CNT n).addr = true := by
  have e : typeAt (F.CAN_RXQ_OVF_CNT n).addr = 0x70 := (by decide : ∀ n : Fin 2, typeAt (F.CAN_RXQ_OVF_CNT n.val).addr = 0x70) ⟨n, h⟩
  simp only [Foot.has, e, hf, Bool.or_true]

theorem CAN_RXQ_WM_has (n : Nat) (h : n < 2) (f : Foot) (hf : f.pages.contains 0x70 = true) : f.has (F.CAN_RXQ_WM n).addr = true := by
  have e : typeAt (F.CAN_RXQ_WM n).addr = 0x70 := (by decide : ∀ n : Fin 2, typeAt (F.CAN_RXQ_WM n.val).addr = 0x70) ⟨n, h⟩
  simp only [Foot.has, e, hf, Bool.or_true]

theorem CAN_STAT_DLEC_has (n : Nat) (h : n < 2) (f : Foot) (hf : f.pages.contains 0x70 = true) : f.has (F.CAN_STAT_DLEC n).addr = true := by
  have e : typeAt (F.CAN_STAT_DLEC n).addr = 0x70 := (by decide : ∀ n : Fin 2, typeAt (F.CAN_STAT_DLEC n.val).addr = 0x70) ⟨n, h⟩
  simp only [Foot.has, e, hf, Bool.or_true]

theorem CAN_STAT_LEC_has (n : Nat) (h : n < 2) (f : Foot) (hf : f.pages.contains 0x70 = true) : f.has (F.CAN_STAT_LEC n).addr = true := by
  have e : typeAt (F.CAN_STAT_LEC n).addr = 0x70 := (by decide : ∀ n : Fin 2, typeAt (F.CAN_STAT_LEC n.val).addr = 0x70) ⟨n, h⟩
  simp only [Foot.has, e, hf, Bool.or_true]

theorem CAN_STAT_REC_has (n : Nat) (h : n < 2) (f : Foot) (hf : f.pages.contains 0x70 = true) : f.has (F.CAN_STAT_REC n).addr = true := by
  have e : typeAt (F.CAN_STAT_REC n).addr = 0x70 := (by decide : ∀ n : Fin 2, typeAt (F.CAN_STAT_REC n.val).addr = 0x70) ⟨n, h⟩
  simp only [Foot.has, e, hf, Bool.or_true]

theorem CAN_STAT_RP_has (n : Nat) (h : n < 2) (f : Foot) (hf : f.pages.contains 0x70 = true) : f.has (F.CAN_STAT_RP n).addr = true := by
  have e : typeAt (F.CAN_STAT_RP n).addr = 0x70 := (by decide : ∀ n : Fin 2, typeAt (F.CAN_STAT_RP n.val).addr = 0x70) ⟨n, h⟩
  simp only [Foot.has, e, hf, Bool.or_true]

theorem CAN_STAT_STATE_has (n : Nat) (h : n < 2) (f : Foot) (hf : f.pages.contains 0x70 = true) : f.has (F.CAN_STAT_STATE n).addr = true := by
  have e : typeAt (F.CAN_STAT_STATE n).addr = 0x70 := (by decide : ∀ n : Fin 2, typeAt (F.CAN_STAT_STATE n.val).addr = 0x70) ⟨n, h⟩
  simp only [Foot.has, e, hf, Bool.or_true]

theorem CAN_STAT_TEC_has (n : Nat) (h : n < 2) (f : Foot) (hf : f.pages.contains 0x70 = true) : f.has (F.CAN_STAT_TEC n).addr = true := by
  have e : typeAt (F.CAN_STAT_TEC n).addr = 0x70 := (by decide : ∀ n : Fin 2, typeAt (F.CAN_STAT_TEC n.val).addr = 0x70) ⟨n, h⟩
  simp only [Foot.has, e, hf, Bool.or_true]

theorem CAN_STAT_WARN_has (n : Nat) (h : n < 2) (f : Foot) (hf : f.pages.contains 0x70 = true) : f.has (F.CAN_STAT_WARN n).addr = true := by
  have e : typeAt (F.CAN_STAT_WARN n).addr = 0x70 := (by decide : ∀ n : Fin 2, typeAt (F.CAN_STAT_WARN n.val).addr = 0x70) ⟨n, h⟩
  simp only [Foot.has, e, hf, Bool.or_true]

theorem CAN_TXQ_FILL_has (n : Nat) (h : n < 2) (f : Foot) (hf : f.pages.contains 0x70 = true) : f.has (F.CAN_TXQ_FILL n).addr = true := by
  have e : typeAt (F.CAN_TXQ_FILL n).addr = 0x70 := (by decide : ∀ n : Fin 2, typeAt (F.CAN_TXQ_FILL n.val).addr = 0x70) ⟨n, h⟩
  simp only [Foot.has, e, hf, Bool.or_true]

theorem CAN_TXQ_SLOT_PEND_has (n : Nat) (h : n < 2) (f : Foot) (hf : f.pages.contains 0x70 = true) : f.has (F.CAN_TXQ_SLOT_PEND n).addr = true := by
  have e : typeAt (F.CAN_TXQ_SLOT_PEND n).addr = 0x70 := (by decide : ∀ n : Fin 2, typeAt (F.CAN_TXQ_SLOT_PEND n.val).addr = 0x70) ⟨n, h⟩
  simp only [Foot.has, e, hf, Bool.or_true]

theorem CAN_TXQ_TXC_FILL_has (n : Nat) (h : n < 2) (f : Foot) (hf : f.pages.contains 0x70 = true) : f.has (F.CAN_TXQ_TXC_FILL n).addr = true := by
  have e : typeAt (F.CAN_TXQ_TXC_FILL n).addr = 0x70 := (by decide : ∀ n : Fin 2, typeAt (F.CAN_TXQ_TXC_FILL n.val).addr = 0x70) ⟨n, h⟩
  simp only [Foot.has, e, hf, Bool.or_true]

theorem CAN_TX_HDR_TAG_has (n : Nat) (h : n < 2) (f : Foot) (hf : f.pages.contains 0x70 = true) : f.has (F.CAN_TX_HDR_TAG n).addr = true := by
  have e : typeAt (F.CAN_TX_HDR_TAG n).addr = 0x70 := (by decide : ∀ n : Fin 2, typeAt (F.CAN_TX_HDR_TAG n.val).addr = 0x70) ⟨n, h⟩
  simp only [Foot.has, e, hf, Bool.or_true]

theorem CAN_TX_ID_ID_has (n : Nat) (h : n < 2) (f : Foot) (hf : f.pages.contains 0x70 = true) : f.has (F.CAN_TX_ID_ID n).addr = true := by
  have e : typeAt (F.CAN_TX_ID_ID n).addr = 0x70 := (by decide : ∀ n : Fin 2, typeAt (F.CAN_TX_ID_ID n.val).addr = 0x70) ⟨n, h⟩
  simp only [Foot.has, e, hf, Bool.or_true]

theorem CE_NF_NF_has (n : Nat) (h : n < 8) (f : Foot) (hf : f.pages.contains 0x10 = true) : f.has (F.CE_NF_NF n).addr = true := by
  have e : typeAt (F.CE_NF_NF n).addr = 0x10 := (by decide : ∀ n : Fin 8, typeAt (F.CE_NF_NF n.val).addr = 0x10) ⟨n, h⟩
  simp only [Foot.has, e, hf, Bool.or_true]

theorem CLS_CFG_CANC_has (n : Nat) (h : n < 8) (f : Foot) (hf : f.pages.contains 0x51 = true) : f.has (F.CLS_CFG_CANC n).addr = true := by
  have e : typeAt (F.CLS_CFG_CANC n).addr = 0x51 := (by decide : ∀ n : Fin 8, typeAt (F.CLS_CFG_CANC n.val).addr = 0x51) ⟨n, h⟩
  simp only [Foot.has, e, hf, Bool.or_true]

theorem CLS_CFG_CAR_has (n : Nat) (h : n < 8) (f : Foot) (hf : f.pages.contains 0x51 = true) : f.has (F.CLS_CFG_CAR n).addr = true := by
  have e : typeAt (F.CLS_CFG_CAR n).addr = 0x51 := (by decide : ∀ n : Fin 8, typeAt (F.CLS_CFG_CAR n.val).addr = 0x51) ⟨n, h⟩
  simp only [Foot.has, e, hf, Bool.or_true]

theorem CLS_CFG_DIR_has (n : Nat) (h : n < 8) (f : Foot) (hf : f.pages.contains 0x51 = true) : f.has (F.CLS_CFG_DIR n).addr = true := by
  have e : typeAt (F.CLS_CFG_DIR n).addr = 0x51 := (by decide : ∀ n : Fin 8, typeAt (F.CLS_CFG_DIR n.val).addr = 0x51) ⟨n, h⟩
  simp only [Foot.has, e, hf, Bool.or_true]

theorem CLS_CFG_EN_has (n : Nat) (h : n < 8) (f : Foot) (hf : f.pages.contains 0x51 = true) : f.has (F.CLS_CFG_EN n).addr = true := by
  have e : typeAt (F.CLS_CFG_EN n).addr = 0x51 := (by decide : ∀ n : Fin 8, typeAt (F.CLS_CFG_EN n.val).addr = 0x51) ⟨n, h⟩
  simp only [Foot.has, e, hf, Bool.or_true]

theorem CLS_CFG_GRACE_has (n : Nat) (h : n < 8) (f : Foot) (hf : f.pages.contains 0x51 = true) : f.has (F.CLS_CFG_GRACE n).addr = true := by
  have e : typeAt (F.CLS_CFG_GRACE n).addr = 0x51 := (by decide : ∀ n : Fin 8, typeAt (F.CLS_CFG_GRACE n.val).addr = 0x51) ⟨n, h⟩
  simp only [Foot.has, e, hf, Bool.or_true]

theorem CLS_CFG_LANE_has (n : Nat) (h : n < 8) (f : Foot) (hf : f.pages.contains 0x51 = true) : f.has (F.CLS_CFG_LANE n).addr = true := by
  have e : typeAt (F.CLS_CFG_LANE n).addr = 0x51 := (by decide : ∀ n : Fin 8, typeAt (F.CLS_CFG_LANE n.val).addr = 0x51) ⟨n, h⟩
  simp only [Foot.has, e, hf, Bool.or_true]

theorem CLS_CFG_LEN_M4_has (n : Nat) (h : n < 8) (f : Foot) (hf : f.pages.contains 0x51 = true) : f.has (F.CLS_CFG_LEN_M4 n).addr = true := by
  have e : typeAt (F.CLS_CFG_LEN_M4 n).addr = 0x51 := (by decide : ∀ n : Fin 8, typeAt (F.CLS_CFG_LEN_M4 n.val).addr = 0x51) ⟨n, h⟩
  simp only [Foot.has, e, hf, Bool.or_true]

theorem CLS_CFG_SEQ_WIN_has (n : Nat) (h : n < 8) (f : Foot) (hf : f.pages.contains 0x51 = true) : f.has (F.CLS_CFG_SEQ_WIN n).addr = true := by
  have e : typeAt (F.CLS_CFG_SEQ_WIN n).addr = 0x51 := (by decide : ∀ n : Fin 8, typeAt (F.CLS_CFG_SEQ_WIN n.val).addr = 0x51) ⟨n, h⟩
  simp only [Foot.has, e, hf, Bool.or_true]

theorem CLS_CFG_SID_has (n : Nat) (h : n < 8) (f : Foot) (hf : f.pages.contains 0x51 = true) : f.has (F.CLS_CFG_SID n).addr = true := by
  have e : typeAt (F.CLS_CFG_SID n).addr = 0x51 := (by decide : ∀ n : Fin 8, typeAt (F.CLS_CFG_SID n.val).addr = 0x51) ⟨n, h⟩
  simp only [Foot.has, e, hf, Bool.or_true]

theorem CLS_CNT_EXPIRE_has (n : Nat) (h : n < 8) (f : Foot) (hf : f.pages.contains 0x51 = true) : f.has (F.CLS_CNT_EXPIRE n).addr = true := by
  have e : typeAt (F.CLS_CNT_EXPIRE n).addr = 0x51 := (by decide : ∀ n : Fin 8, typeAt (F.CLS_CNT_EXPIRE n.val).addr = 0x51) ⟨n, h⟩
  simp only [Foot.has, e, hf, Bool.or_true]

theorem CLS_CNT_REPEAT_has (n : Nat) (h : n < 8) (f : Foot) (hf : f.pages.contains 0x51 = true) : f.has (F.CLS_CNT_REPEAT n).addr = true := by
  have e : typeAt (F.CLS_CNT_REPEAT n).addr = 0x51 := (by decide : ∀ n : Fin 8, typeAt (F.CLS_CNT_REPEAT n.val).addr = 0x51) ⟨n, h⟩
  simp only [Foot.has, e, hf, Bool.or_true]

theorem CLS_CNT_SEQERR_has (n : Nat) (h : n < 8) (f : Foot) (hf : f.pages.contains 0x51 = true) : f.has (F.CLS_CNT_SEQERR n).addr = true := by
  have e : typeAt (F.CLS_CNT_SEQERR n).addr = 0x51 := (by decide : ∀ n : Fin 8, typeAt (F.CLS_CNT_SEQERR n.val).addr = 0x51) ⟨n, h⟩
  simp only [Foot.has, e, hf, Bool.or_true]

theorem CLS_CNT_SIDERR_has (n : Nat) (h : n < 8) (f : Foot) (hf : f.pages.contains 0x51 = true) : f.has (F.CLS_CNT_SIDERR n).addr = true := by
  have e : typeAt (F.CLS_CNT_SIDERR n).addr = 0x51 := (by decide : ∀ n : Fin 8, typeAt (F.CLS_CNT_SIDERR n.val).addr = 0x51) ⟨n, h⟩
  simp only [Foot.has, e, hf, Bool.or_true]

theorem CLS_ID_IDENT_has (n : Nat) (h : n < 8) (f : Foot) (hf : f.pages.contains 0x51 = true) : f.has (F.CLS_ID_IDENT n).addr = true := by
  have e : typeAt (F.CLS_ID_IDENT n).addr = 0x51 := (by decide : ∀ n : Fin 8, typeAt (F.CLS_ID_IDENT n.val).addr = 0x51) ⟨n, h⟩
  simp only [Foot.has, e, hf, Bool.or_true]

theorem CLS_LOC_IDE_has (n : Nat) (h : n < 8) (f : Foot) (hf : f.pages.contains 0x51 = true) : f.has (F.CLS_LOC_IDE n).addr = true := by
  have e : typeAt (F.CLS_LOC_IDE n).addr = 0x51 := (by decide : ∀ n : Fin 8, typeAt (F.CLS_LOC_IDE n.val).addr = 0x51) ⟨n, h⟩
  simp only [Foot.has, e, hf, Bool.or_true]

theorem CLS_LOC_LOC_has (n : Nat) (h : n < 8) (f : Foot) (hf : f.pages.contains 0x51 = true) : f.has (F.CLS_LOC_LOC n).addr = true := by
  have e : typeAt (F.CLS_LOC_LOC n).addr = 0x51 := (by decide : ∀ n : Fin 8, typeAt (F.CLS_LOC_LOC n.val).addr = 0x51) ⟨n, h⟩
  simp only [Foot.has, e, hf, Bool.or_true]

theorem CLS_STAT_CRC_has (n : Nat) (h : n < 8) (f : Foot) (hf : f.pages.contains 0x51 = true) : f.has (F.CLS_STAT_CRC n).addr = true := by
  have e : typeAt (F.CLS_STAT_CRC n).addr = 0x51 := (by decide : ∀ n : Fin 8, typeAt (F.CLS_STAT_CRC n.val).addr = 0x51) ⟨n, h⟩
  simp only [Foot.has, e, hf, Bool.or_true]

theorem CLS_STAT_SEQ_has (n : Nat) (h : n < 8) (f : Foot) (hf : f.pages.contains 0x51 = true) : f.has (F.CLS_STAT_SEQ n).addr = true := by
  have e : typeAt (F.CLS_STAT_SEQ n).addr = 0x51 := (by decide : ∀ n : Fin 8, typeAt (F.CLS_STAT_SEQ n.val).addr = 0x51) ⟨n, h⟩
  simp only [Foot.has, e, hf, Bool.or_true]

theorem CLS_STAT_STATE_has (n : Nat) (h : n < 8) (f : Foot) (hf : f.pages.contains 0x51 = true) : f.has (F.CLS_STAT_STATE n).addr = true := by
  have e : typeAt (F.CLS_STAT_STATE n).addr = 0x51 := (by decide : ∀ n : Fin 8, typeAt (F.CLS_STAT_STATE n.val).addr = 0x51) ⟨n, h⟩
  simp only [Foot.has, e, hf, Bool.or_true]

theorem CLS_WD_WD_MAX_has (n : Nat) (h : n < 8) (f : Foot) (hf : f.pages.contains 0x51 = true) : f.has (F.CLS_WD_WD_MAX n).addr = true := by
  have e : typeAt (F.CLS_WD_WD_MAX n).addr = 0x51 := (by decide : ∀ n : Fin 8, typeAt (F.CLS_WD_WD_MAX n.val).addr = 0x51) ⟨n, h⟩
  simp only [Foot.has, e, hf, Bool.or_true]

theorem GDH_CFG_SC_EN_has (n : Nat) (h : n < 34) (f : Foot) (hf : f.pages.contains 0x20 = true) : f.has (F.GDH_CFG_SC_EN n).addr = true := by
  have e : typeAt (F.GDH_CFG_SC_EN n).addr = 0x20 := (by decide : ∀ n : Fin 34, typeAt (F.GDH_CFG_SC_EN n.val).addr = 0x20) ⟨n, h⟩
  simp only [Foot.has, e, hf, Bool.or_true]

theorem GDH_CFG_UVN_SEL_has (n : Nat) (h : n < 34) (f : Foot) (hf : f.pages.contains 0x20 = true) : f.has (F.GDH_CFG_UVN_SEL n).addr = true := by
  have e : typeAt (F.GDH_CFG_UVN_SEL n).addr = 0x20 := (by decide : ∀ n : Fin 34, typeAt (F.GDH_CFG_UVN_SEL n.val).addr = 0x20) ⟨n, h⟩
  simp only [Foot.has, e, hf, Bool.or_true]

theorem GDH_CNT_OVS_has (n : Nat) (h : n < 34) (f : Foot) (hf : f.pages.contains 0x20 = true) : f.has (F.GDH_CNT_OVS n).addr = true := by
  have e : typeAt (F.GDH_CNT_OVS n).addr = 0x20 := (by decide : ∀ n : Fin 34, typeAt (F.GDH_CNT_OVS n.val).addr = 0x20) ⟨n, h⟩
  simp only [Foot.has, e, hf, Bool.or_true]

theorem GDH_CNT_SC_has (n : Nat) (h : n < 34) (f : Foot) (hf : f.pages.contains 0x20 = true) : f.has (F.GDH_CNT_SC n).addr = true := by
  have e : typeAt (F.GDH_CNT_SC n).addr = 0x20 := (by decide : ∀ n : Fin 34, typeAt (F.GDH_CNT_SC n.val).addr = 0x20) ⟨n, h⟩
  simp only [Foot.has, e, hf, Bool.or_true]

theorem GDH_CNT_STRM_has (n : Nat) (h : n < 34) (f : Foot) (hf : f.pages.contains 0x20 = true) : f.has (F.GDH_CNT_STRM n).addr = true := by
  have e : typeAt (F.GDH_CNT_STRM n).addr = 0x20 := (by decide : ∀ n : Fin 34, typeAt (F.GDH_CNT_STRM n.val).addr = 0x20) ⟨n, h⟩
  simp only [Foot.has, e, hf, Bool.or_true]

theorem GDH_CNT_UVLO_has (n : Nat) (h : n < 34) (f : Foot) (hf : f.pages.contains 0x20 = true) : f.has (F.GDH_CNT_UVLO n).addr = true := by
  have e : typeAt (F.GDH_CNT_UVLO n).addr = 0x20 := (by decide : ∀ n : Fin 34, typeAt (F.GDH_CNT_UVLO n.val).addr = 0x20) ⟨n, h⟩
  simp only [Foot.has, e, hf, Bool.or_true]

theorem GDH_DT_DT_MIN_has (n : Nat) (h : n < 34) (f : Foot) (hf : f.pages.contains 0x20 = true) : f.has (F.GDH_DT_DT_MIN n).addr = true := by
  have e : typeAt (F.GDH_DT_DT_MIN n).addr = 0x20 := (by decide : ∀ n : Fin 34, typeAt (F.GDH_DT_DT_MIN n.val).addr = 0x20) ⟨n, h⟩
  simp only [Foot.has, e, hf, Bool.or_true]

theorem GDH_DT_STAT_EXT_LAST_has (n : Nat) (h : n < 34) (f : Foot) (hf : f.pages.contains 0x20 = true) : f.has (F.GDH_DT_STAT_EXT_LAST n).addr = true := by
  have e : typeAt (F.GDH_DT_STAT_EXT_LAST n).addr = 0x20 := (by decide : ∀ n : Fin 34, typeAt (F.GDH_DT_STAT_EXT_LAST n.val).addr = 0x20) ⟨n, h⟩
  simp only [Foot.has, e, hf, Bool.or_true]

theorem GDH_DT_STAT_EXT_MAX_has (n : Nat) (h : n < 34) (f : Foot) (hf : f.pages.contains 0x20 = true) : f.has (F.GDH_DT_STAT_EXT_MAX n).addr = true := by
  have e : typeAt (F.GDH_DT_STAT_EXT_MAX n).addr = 0x20 := (by decide : ∀ n : Fin 34, typeAt (F.GDH_DT_STAT_EXT_MAX n.val).addr = 0x20) ⟨n, h⟩
  simp only [Foot.has, e, hf, Bool.or_true]

theorem GDH_OT_OT_TH_has (n : Nat) (h : n < 34) (f : Foot) (hf : f.pages.contains 0x20 = true) : f.has (F.GDH_OT_OT_TH n).addr = true := by
  have e : typeAt (F.GDH_OT_OT_TH n).addr = 0x20 := (by decide : ∀ n : Fin 34, typeAt (F.GDH_OT_OT_TH n.val).addr = 0x20) ⟨n, h⟩
  simp only [Foot.has, e, hf, Bool.or_true]

theorem GDH_TMP_CODE_has (n : Nat) (h : n < 34) (f : Foot) (hf : f.pages.contains 0x20 = true) : f.has (F.GDH_TMP_CODE n).addr = true := by
  have e : typeAt (F.GDH_TMP_CODE n).addr = 0x20 := (by decide : ∀ n : Fin 34, typeAt (F.GDH_TMP_CODE n.val).addr = 0x20) ⟨n, h⟩
  simp only [Foot.has, e, hf, Bool.or_true]

theorem GDH_TS_TS_has (n : Nat) (h : n < 34) (f : Foot) (hf : f.pages.contains 0x20 = true) : f.has (F.GDH_TS_TS n).addr = true := by
  have e : typeAt (F.GDH_TS_TS n).addr = 0x20 := (by decide : ∀ n : Fin 34, typeAt (F.GDH_TS_TS n.val).addr = 0x20) ⟨n, h⟩
  simp only [Foot.has, e, hf, Bool.or_true]

theorem GDH_VSUP_VN_has (n : Nat) (h : n < 34) (f : Foot) (hf : f.pages.contains 0x20 = true) : f.has (F.GDH_VSUP_VN n).addr = true := by
  have e : typeAt (F.GDH_VSUP_VN n).addr = 0x20 := (by decide : ∀ n : Fin 34, typeAt (F.GDH_VSUP_VN n.val).addr = 0x20) ⟨n, h⟩
  simp only [Foot.has, e, hf, Bool.or_true]

theorem GDH_VSUP_VP_has (n : Nat) (h : n < 34) (f : Foot) (hf : f.pages.contains 0x20 = true) : f.has (F.GDH_VSUP_VP n).addr = true := by
  have e : typeAt (F.GDH_VSUP_VP n).addr = 0x20 := (by decide : ∀ n : Fin 34, typeAt (F.GDH_VSUP_VP n.val).addr = 0x20) ⟨n, h⟩
  simp only [Foot.has, e, hf, Bool.or_true]

theorem GDL_BOOT_BOOT_N_has (n : Nat) (h : n < 12) (f : Foot) (hf : f.pages.contains 0x21 = true) : f.has (F.GDL_BOOT_BOOT_N n).addr = true := by
  have e : typeAt (F.GDL_BOOT_BOOT_N n).addr = 0x21 := (by decide : ∀ n : Fin 12, typeAt (F.GDL_BOOT_BOOT_N n.val).addr = 0x21) ⟨n, h⟩
  simp only [Foot.has, e, hf, Bool.or_true]

theorem GDL_BOOT_PRECHG_has (n : Nat) (h : n < 12) (f : Foot) (hf : f.pages.contains 0x21 = true) : f.has (F.GDL_BOOT_PRECHG n).addr = true := by
  have e : typeAt (F.GDL_BOOT_PRECHG n).addr = 0x21 := (by decide : ∀ n : Fin 12, typeAt (F.GDL_BOOT_PRECHG n.val).addr = 0x21) ⟨n, h⟩
  simp only [Foot.has, e, hf, Bool.or_true]

theorem GDL_CNT_BOOT_UV_has (n : Nat) (h : n < 12) (f : Foot) (hf : f.pages.contains 0x21 = true) : f.has (F.GDL_CNT_BOOT_UV n).addr = true := by
  have e : typeAt (F.GDL_CNT_BOOT_UV n).addr = 0x21 := (by decide : ∀ n : Fin 12, typeAt (F.GDL_CNT_BOOT_UV n.val).addr = 0x21) ⟨n, h⟩
  simp only [Foot.has, e, hf, Bool.or_true]

theorem GDL_CNT_CLIP_has (n : Nat) (h : n < 12) (f : Foot) (hf : f.pages.contains 0x21 = true) : f.has (F.GDL_CNT_CLIP n).addr = true := by
  have e : typeAt (F.GDL_CNT_CLIP n).addr = 0x21 := (by decide : ∀ n : Fin 12, typeAt (F.GDL_CNT_CLIP n.val).addr = 0x21) ⟨n, h⟩
  simp only [Foot.has, e, hf, Bool.or_true]

theorem GDL_CNT_SHOOT_has (n : Nat) (h : n < 12) (f : Foot) (hf : f.pages.contains 0x21 = true) : f.has (F.GDL_CNT_SHOOT n).addr = true := by
  have e : typeAt (F.GDL_CNT_SHOOT n).addr = 0x21 := (by decide : ∀ n : Fin 12, typeAt (F.GDL_CNT_SHOOT n.val).addr = 0x21) ⟨n, h⟩
  simp only [Foot.has, e, hf, Bool.or_true]

theorem GDL_STAT_REFRESH_has (n : Nat) (h : n < 12) (f : Foot) (hf : f.pages.contains 0x21 = true) : f.has (F.GDL_STAT_REFRESH n).addr = true := by
  have e : typeAt (F.GDL_STAT_REFRESH n).addr = 0x21 := (by decide : ∀ n : Fin 12, typeAt (F.GDL_STAT_REFRESH n.val).addr = 0x21) ⟨n, h⟩
  simp only [Foot.has, e, hf, Bool.or_true]

theorem GDL_STAT_VBOOT_has (n : Nat) (h : n < 12) (f : Foot) (hf : f.pages.contains 0x21 = true) : f.has (F.GDL_STAT_VBOOT n).addr = true := by
  have e : typeAt (F.GDL_STAT_VBOOT n).addr = 0x21 := (by decide : ∀ n : Fin 12, typeAt (F.GDL_STAT_VBOOT n.val).addr = 0x21) ⟨n, h⟩
  simp only [Foot.has, e, hf, Bool.or_true]

theorem MEM_CAP_AREA_BASE_K_has (n : Nat) (h : n < 8) (f : Foot) (_ : f = f) : f.has (F.MEM_CAP_AREA_BASE_K n).addr = true := by
  have e : evAddr (F.MEM_CAP_AREA_BASE_K n).addr = true := (by decide : ∀ n : Fin 8, evAddr (F.MEM_CAP_AREA_BASE_K n.val).addr = true) ⟨n, h⟩
  simp [Foot.has, e]

theorem MEM_CAP_AREA_SIZE_K_has (n : Nat) (h : n < 8) (f : Foot) (_ : f = f) : f.has (F.MEM_CAP_AREA_SIZE_K n).addr = true := by
  have e : evAddr (F.MEM_CAP_AREA_SIZE_K n).addr = true := (by decide : ∀ n : Fin 8, evAddr (F.MEM_CAP_AREA_SIZE_K n.val).addr = true) ⟨n, h⟩
  simp [Foot.has, e]

theorem MEM_CAP_CFG_NCH_M1_has (n : Nat) (h : n < 8) (f : Foot) (_ : f = f) : f.has (F.MEM_CAP_CFG_NCH_M1 n).addr = true := by
  have e : evAddr (F.MEM_CAP_CFG_NCH_M1 n).addr = true := (by decide : ∀ n : Fin 8, evAddr (F.MEM_CAP_CFG_NCH_M1 n.val).addr = true) ⟨n, h⟩
  simp [Foot.has, e]

theorem MEM_CAP_CFG_POST_has (n : Nat) (h : n < 8) (f : Foot) (_ : f = f) : f.has (F.MEM_CAP_CFG_POST n).addr = true := by
  have e : evAddr (F.MEM_CAP_CFG_POST n).addr = true := (by decide : ∀ n : Fin 8, evAddr (F.MEM_CAP_CFG_POST n.val).addr = true) ⟨n, h⟩
  simp [Foot.has, e]

theorem MEM_CAP_CFG_RATE_has (n : Nat) (h : n < 8) (f : Foot) (_ : f = f) : f.has (F.MEM_CAP_CFG_RATE n).addr = true := by
  have e : evAddr (F.MEM_CAP_CFG_RATE n).addr = true := (by decide : ∀ n : Fin 8, evAddr (F.MEM_CAP_CFG_RATE n.val).addr = true) ⟨n, h⟩
  simp [Foot.has, e]

theorem MEM_CAP_CFG_TMODE_has (n : Nat) (h : n < 8) (f : Foot) (_ : f = f) : f.has (F.MEM_CAP_CFG_TMODE n).addr = true := by
  have e : evAddr (F.MEM_CAP_CFG_TMODE n).addr = true := (by decide : ∀ n : Fin 8, evAddr (F.MEM_CAP_CFG_TMODE n.val).addr = true) ⟨n, h⟩
  simp [Foot.has, e]

theorem MEM_CAP_CFG_TS_has (n : Nat) (h : n < 8) (f : Foot) (_ : f = f) : f.has (F.MEM_CAP_CFG_TS n).addr = true := by
  have e : evAddr (F.MEM_CAP_CFG_TS n).addr = true := (by decide : ∀ n : Fin 8, evAddr (F.MEM_CAP_CFG_TS n.val).addr = true) ⟨n, h⟩
  simp [Foot.has, e]

theorem MEM_CAP_CFG_TSRC_has (n : Nat) (h : n < 8) (f : Foot) (_ : f = f) : f.has (F.MEM_CAP_CFG_TSRC n).addr = true := by
  have e : evAddr (F.MEM_CAP_CFG_TSRC n).addr = true := (by decide : ∀ n : Fin 8, evAddr (F.MEM_CAP_CFG_TSRC n.val).addr = true) ⟨n, h⟩
  simp [Foot.has, e]

theorem MEM_CAP_LEVEL_LEVEL_has (n : Nat) (h : n < 8) (f : Foot) (_ : f = f) : f.has (F.MEM_CAP_LEVEL_LEVEL n).addr = true := by
  have e : evAddr (F.MEM_CAP_LEVEL_LEVEL n).addr = true := (by decide : ∀ n : Fin 8, evAddr (F.MEM_CAP_LEVEL_LEVEL n.val).addr = true) ⟨n, h⟩
  simp [Foot.has, e]

theorem MEM_CAP_STAT_COUNT_has (n : Nat) (h : n < 8) (f : Foot) (_ : f = f) : f.has (F.MEM_CAP_STAT_COUNT n).addr = true := by
  have e : evAddr (F.MEM_CAP_STAT_COUNT n).addr = true := (by decide : ∀ n : Fin 8, evAddr (F.MEM_CAP_STAT_COUNT n.val).addr = true) ⟨n, h⟩
  simp [Foot.has, e]

theorem MEM_CAP_STAT_STATE_has (n : Nat) (h : n < 8) (f : Foot) (_ : f = f) : f.has (F.MEM_CAP_STAT_STATE n).addr = true := by
  have e : evAddr (F.MEM_CAP_STAT_STATE n).addr = true := (by decide : ∀ n : Fin 8, evAddr (F.MEM_CAP_STAT_STATE n.val).addr = true) ⟨n, h⟩
  simp [Foot.has, e]

theorem MEM_CAP_STAT_WRAPPED_has (n : Nat) (h : n < 8) (f : Foot) (_ : f = f) : f.has (F.MEM_CAP_STAT_WRAPPED n).addr = true := by
  have e : evAddr (F.MEM_CAP_STAT_WRAPPED n).addr = true := (by decide : ∀ n : Fin 8, evAddr (F.MEM_CAP_STAT_WRAPPED n.val).addr = true) ⟨n, h⟩
  simp [Foot.has, e]

theorem RING_INMAP_EN_has (n : Nat) (h : n < 8) (f : Foot) (hf : f.pages.contains 0x60 = true) : f.has (F.RING_INMAP_EN n).addr = true := by
  have e : typeAt (F.RING_INMAP_EN n).addr = 0x60 := (by decide : ∀ n : Fin 8, typeAt (F.RING_INMAP_EN n.val).addr = 0x60) ⟨n, h⟩
  simp only [Foot.has, e, hf, Bool.or_true]

theorem RING_OUTMAP_EN0_has (n : Nat) (h : n < 8) (f : Foot) (hf : f.pages.contains 0x60 = true) : f.has (F.RING_OUTMAP_EN0 n).addr = true := by
  have e : typeAt (F.RING_OUTMAP_EN0 n).addr = 0x60 := (by decide : ∀ n : Fin 8, typeAt (F.RING_OUTMAP_EN0 n.val).addr = 0x60) ⟨n, h⟩
  simp only [Foot.has, e, hf, Bool.or_true]

theorem SMP_IN_CFG_LIM_EN_has (n : Nat) (h : n < 24) (f : Foot) (hf : f.pages.contains 0x13 = true) : f.has (F.SMP_IN_CFG_LIM_EN n).addr = true := by
  have e : typeAt (F.SMP_IN_CFG_LIM_EN n).addr = 0x13 := (by decide : ∀ n : Fin 24, typeAt (F.SMP_IN_CFG_LIM_EN n.val).addr = 0x13) ⟨n, h⟩
  simp only [Foot.has, e, hf, Bool.or_true]

theorem SMP_IN_CFG_USED_has (n : Nat) (h : n < 24) (f : Foot) (hf : f.pages.contains 0x13 = true) : f.has (F.SMP_IN_CFG_USED n).addr = true := by
  have e : typeAt (F.SMP_IN_CFG_USED n).addr = 0x13 := (by decide : ∀ n : Fin 24, typeAt (F.SMP_IN_CFG_USED n.val).addr = 0x13) ⟨n, h⟩
  simp only [Foot.has, e, hf, Bool.or_true]

theorem SMP_IN_GAIN_GAIN_has (n : Nat) (h : n < 24) (f : Foot) (hf : f.pages.contains 0x13 = true) : f.has (F.SMP_IN_GAIN_GAIN n).addr = true := by
  have e : typeAt (F.SMP_IN_GAIN_GAIN n).addr = 0x13 := (by decide : ∀ n : Fin 24, typeAt (F.SMP_IN_GAIN_GAIN n.val).addr = 0x13) ⟨n, h⟩
  simp only [Foot.has, e, hf, Bool.or_true]

theorem SMP_IN_LIM_HI_has (n : Nat) (h : n < 24) (f : Foot) (hf : f.pages.contains 0x13 = true) : f.has (F.SMP_IN_LIM_HI n).addr = true := by
  have e : typeAt (F.SMP_IN_LIM_HI n).addr = 0x13 := (by decide : ∀ n : Fin 24, typeAt (F.SMP_IN_LIM_HI n.val).addr = 0x13) ⟨n, h⟩
  simp only [Foot.has, e, hf, Bool.or_true]

theorem SMP_IN_LIM_LO_has (n : Nat) (h : n < 24) (f : Foot) (hf : f.pages.contains 0x13 = true) : f.has (F.SMP_IN_LIM_LO n).addr = true := by
  have e : typeAt (F.SMP_IN_LIM_LO n).addr = 0x13 := (by decide : ∀ n : Fin 24, typeAt (F.SMP_IN_LIM_LO n.val).addr = 0x13) ⟨n, h⟩
  simp only [Foot.has, e, hf, Bool.or_true]

theorem SMP_IN_OFS_OFS_has (n : Nat) (h : n < 24) (f : Foot) (hf : f.pages.contains 0x13 = true) : f.has (F.SMP_IN_OFS_OFS n).addr = true := by
  have e : typeAt (F.SMP_IN_OFS_OFS n).addr = 0x13 := (by decide : ∀ n : Fin 24, typeAt (F.SMP_IN_OFS_OFS n.val).addr = 0x13) ⟨n, h⟩
  simp only [Foot.has, e, hf, Bool.or_true]

theorem SMP_RAW_CODE_has (n : Nat) (h : n < 24) (f : Foot) (hf : f.pages.contains 0x13 = true) : f.has (F.SMP_RAW_CODE n).addr = true := by
  have e : typeAt (F.SMP_RAW_CODE n).addr = 0x13 := (by decide : ∀ n : Fin 24, typeAt (F.SMP_RAW_CODE n.val).addr = 0x13) ⟨n, h⟩
  simp only [Foot.has, e, hf, Bool.or_true]

theorem SMP_RAW_TAG_has (n : Nat) (h : n < 24) (f : Foot) (hf : f.pages.contains 0x13 = true) : f.has (F.SMP_RAW_TAG n).addr = true := by
  have e : typeAt (F.SMP_RAW_TAG n).addr = 0x13 := (by decide : ∀ n : Fin 24, typeAt (F.SMP_RAW_TAG n.val).addr = 0x13) ⟨n, h⟩
  simp only [Foot.has, e, hf, Bool.or_true]

theorem SMP_SNS_LOST_has (n : Nat) (h : n < 7) (f : Foot) (hf : f.pages.contains 0x13 = true) : f.has (F.SMP_SNS_LOST n).addr = true := by
  have e : typeAt (F.SMP_SNS_LOST n).addr = 0x13 := (by decide : ∀ n : Fin 7, typeAt (F.SMP_SNS_LOST n.val).addr = 0x13) ⟨n, h⟩
  simp only [Foot.has, e, hf, Bool.or_true]

theorem SMP_SNS_TAG_has (n : Nat) (h : n < 7) (f : Foot) (hf : f.pages.contains 0x13 = true) : f.has (F.SMP_SNS_TAG n).addr = true := by
  have e : typeAt (F.SMP_SNS_TAG n).addr = 0x13 := (by decide : ∀ n : Fin 7, typeAt (F.SMP_SNS_TAG n.val).addr = 0x13) ⟨n, h⟩
  simp only [Foot.has, e, hf, Bool.or_true]

theorem SMP_SNS_VALUE_has (n : Nat) (h : n < 7) (f : Foot) (hf : f.pages.contains 0x13 = true) : f.has (F.SMP_SNS_VALUE n).addr = true := by
  have e : typeAt (F.SMP_SNS_VALUE n).addr = 0x13 := (by decide : ∀ n : Fin 7, typeAt (F.SMP_SNS_VALUE n.val).addr = 0x13) ⟨n, h⟩
  simp only [Foot.has, e, hf, Bool.or_true]

theorem SMP_TEMP_RAW12_has (n : Nat) (h : n < 10) (f : Foot) (hf : f.pages.contains 0x13 = true) : f.has (F.SMP_TEMP_RAW12 n).addr = true := by
  have e : typeAt (F.SMP_TEMP_RAW12 n).addr = 0x13 := (by decide : ∀ n : Fin 10, typeAt (F.SMP_TEMP_RAW12 n.val).addr = 0x13) ⟨n, h⟩
  simp only [Foot.has, e, hf, Bool.or_true]

theorem SMP_TEMP_TAG_has (n : Nat) (h : n < 10) (f : Foot) (hf : f.pages.contains 0x13 = true) : f.has (F.SMP_TEMP_TAG n).addr = true := by
  have e : typeAt (F.SMP_TEMP_TAG n).addr = 0x13 := (by decide : ∀ n : Fin 10, typeAt (F.SMP_TEMP_TAG n.val).addr = 0x13) ⟨n, h⟩
  simp only [Foot.has, e, hf, Bool.or_true]

theorem SMP_TEMP_TEMP_has (n : Nat) (h : n < 10) (f : Foot) (hf : f.pages.contains 0x13 = true) : f.has (F.SMP_TEMP_TEMP n).addr = true := by
  have e : typeAt (F.SMP_TEMP_TEMP n).addr = 0x13 := (by decide : ∀ n : Fin 10, typeAt (F.SMP_TEMP_TEMP n.val).addr = 0x13) ⟨n, h⟩
  simp only [Foot.has, e, hf, Bool.or_true]

theorem SNS_CFG_CLK_SEL_has (n : Nat) (h : n < 7) (f : Foot) (hf : f.pages.contains 0x22 = true) : f.has (F.SNS_CFG_CLK_SEL n).addr = true := by
  have e : typeAt (F.SNS_CFG_CLK_SEL n).addr = 0x22 := (by decide : ∀ n : Fin 7, typeAt (F.SNS_CFG_CLK_SEL n.val).addr = 0x22) ⟨n, h⟩
  simp only [Foot.has, e, hf, Bool.or_true]

theorem SNS_CNT_CHG_has (n : Nat) (h : n < 7) (f : Foot) (hf : f.pages.contains 0x22 = true) : f.has (F.SNS_CNT_CHG n).addr = true := by
  have e : typeAt (F.SNS_CNT_CHG n).addr = 0x22 := (by decide : ∀ n : Fin 7, typeAt (F.SNS_CNT_CHG n.val).addr = 0x22) ⟨n, h⟩
  simp only [Foot.has, e, hf, Bool.or_true]

theorem SNS_CNT_LOSS_has (n : Nat) (h : n < 7) (f : Foot) (hf : f.pages.contains 0x22 = true) : f.has (F.SNS_CNT_LOSS n).addr = true := by
  have e : typeAt (F.SNS_CNT_LOSS n).addr = 0x22 := (by decide : ∀ n : Fin 7, typeAt (F.SNS_CNT_LOSS n.val).addr = 0x22) ⟨n, h⟩
  simp only [Foot.has, e, hf, Bool.or_true]

theorem SNS_MON_VALUE_has (n : Nat) (h : n < 7) (f : Foot) (hf : f.pages.contains 0x22 = true) : f.has (F.SNS_MON_VALUE n).addr = true := by
  have e : typeAt (F.SNS_MON_VALUE n).addr = 0x22 := (by decide : ∀ n : Fin 7, typeAt (F.SNS_MON_VALUE n.val).addr = 0x22) ⟨n, h⟩
  simp only [Foot.has, e, hf, Bool.or_true]

end Sys2Proof.Machine.F
end

