-- ==== Sys2Proof/Laws/Only/Ops.lean ====
section
/-! SUPPORT. What the operations of Ops may change. -/
namespace Sys2Proof.Machine
set_option linter.all false
set_option Elab.async false

theorem State.halfGone_only {g : Foot} {a s : State} (h : a.Only g s) (l : Lane) (addr : Nat) (lost : Bool)
    (hF : Foot.le ⟨[.timedHalves, .sess], [], false⟩ g = true) : a.Only g (State.halfGone s l addr lost) := by
  unfold State.halfGone
  dsimp only
  refine State.Only.lane (State.Only.both h _ (fun k t ht => State.Only.lane ht k _ ?_ (Or.inr ?_))) l _ ?_ (Or.inr ?_)
  · intro x p hp
    cases p <;> first | rfl | trivial | exact absurd (Foot.parts_of_le hF (by decide)) hp
  · exact fun _ => rfl
  · intro x p hp
    cases p <;> first | rfl | trivial | exact absurd (Foot.parts_of_le hF (by decide)) hp
  · exact fun _ => rfl

end Sys2Proof.Machine
end

