-- ==== Sys2Proof/Laws/Only/Stops.lean ====
section
/-! SUPPORT. What the operations of Stops may change. -/
namespace Sys2Proof.Machine
set_option linter.all false
set_option Elab.async false

theorem State.loopOpen_only {g : Foot} {a s : State} (h : a.Only g s) (l : Lane) (n : Nat)
    (hF : Foot.le ⟨[.loopReq], [0x10], false⟩ g = true) :
    a.Only g (State.loopOpen s l n) := by
  unfold State.loopOpen
  repeat' (first | with_reducible assumption | ((with_reducible refine Foot.le_trans ?_ hF); decide) | ((with_reducible refine Foot.has_of_le hF ?_); (first | decide | (dsimp only; decide))) | ((with_reducible refine Foot.parts_of_le hF ?_); decide) | (intro x p hp; cases p <;> first | rfl | trivial | exact absurd (Foot.parts_of_le hF (by decide)) hp) | (exact Or.inr (fun _ => rfl)) | lift_lets -underBinder | (intro (x : Nat); dsimp -zeta only [x]; clear x) | (intro x; have hx : a.Only g x := (by repeat' (first | with_reducible assumption | ((with_reducible refine Foot.le_trans ?_ hF); decide) | ((with_reducible refine Foot.has_of_le hF ?_); (first | decide | (dsimp only; decide))) | ((with_reducible refine Foot.parts_of_le hF ?_); decide) | (intro x p hp; cases p <;> first | rfl | trivial | exact absurd (Foot.parts_of_le hF (by decide)) hp) | (exact Or.inr (fun _ => rfl)) | lift_lets -underBinder | (with_reducible first | apply State.Only.lane | apply State.Only.putWord) | (intro _))); clear_value x) | (intro x; clear_value x) | (with_reducible first | apply State.Only.lane | apply State.Only.putWord) | (intro _))

theorem State.loopAsk_only {g : Foot} {a s : State} (h : a.Only g s) (l : Lane) (n : Nat)
    (hF : Foot.le ⟨[.loopReq], [], false⟩ g = true) :
    a.Only g (State.loopAsk s l n) := by
  unfold State.loopAsk
  repeat' (first | with_reducible assumption | ((with_reducible refine Foot.le_trans ?_ hF); decide) | ((with_reducible refine Foot.has_of_le hF ?_); (first | decide | (dsimp only; decide))) | ((with_reducible refine Foot.parts_of_le hF ?_); decide) | (intro x p hp; cases p <;> first | rfl | trivial | exact absurd (Foot.parts_of_le hF (by decide)) hp) | (exact Or.inr (fun _ => rfl)) | (with_reducible first | apply State.Only.lane) | split | (intro _))

theorem State.gatesOff_only {g : Foot} {a s : State} (h : a.Only g s) (ns : List (Fin 34))
    (hF : Foot.le ⟨[.hv], [], false⟩ g = true) :
    a.Only g (State.gatesOff s ns) := by
  unfold State.gatesOff
  repeat' (first | with_reducible assumption | ((with_reducible refine Foot.le_trans ?_ hF); decide) | ((with_reducible refine Foot.has_of_le hF ?_); (first | decide | (dsimp only; decide))) | ((with_reducible refine Foot.parts_of_le hF ?_); decide) | (with_reducible first | apply State.Only.fold | apply State.Only.hv) | (intro _))

theorem State.smGoto_only {g : Foot} {a s : State} (h : a.Only g s) (l : Lane) (st : Nat)
    (hF : Foot.le ⟨[], [0x11], false⟩ g = true) :
    a.Only g (State.smGoto s l st) := by
  unfold State.smGoto
  repeat' (first | with_reducible assumption | ((with_reducible refine Foot.le_trans ?_ hF); decide) | ((with_reducible refine Foot.has_of_le hF ?_); (first | decide | (dsimp only; decide))) | ((with_reducible refine Foot.parts_of_le hF ?_); decide) | lift_lets -underBinder | (intro x; have hx : a.Only g x := (by repeat' (first | with_reducible assumption | ((with_reducible refine Foot.le_trans ?_ hF); decide) | ((with_reducible refine Foot.has_of_le hF ?_); (first | decide | (dsimp only; decide))) | ((with_reducible refine Foot.parts_of_le hF ?_); decide) | lift_lets -underBinder | (with_reducible first | apply State.Only.put | apply State.Only.putFlag) | (intro _))); clear_value x) | (intro x; clear_value x) | (with_reducible first | apply State.Only.put | apply State.Only.putFlag) | (intro _))

theorem State.smLoops_only {g : Foot} {a s : State} (h : a.Only g s) (l : Lane)
    (hF : Foot.le ⟨[.loopReq], [0x10], false⟩ g = true) :
    a.Only g (State.smLoops s l) := by
  unfold State.smLoops
  repeat' (first | with_reducible assumption | ((with_reducible refine Foot.le_trans ?_ hF); decide) | ((with_reducible refine Foot.has_of_le hF ?_); (first | decide | (dsimp only; decide))) | ((with_reducible refine Foot.parts_of_le hF ?_); decide) | (with_reducible first | apply State.Only.ite | apply State.loopAsk_only | apply State.loopOpen_only) | (intro _))

theorem State.setRamp_only {g : Foot} {a s : State} (h : a.Only g s) (l : Lane) (v : Nat)
    (hF : Foot.le ⟨[.trc], [0x11], false⟩ g = true) :
    a.Only g (State.setRamp s l v) := by
  unfold State.setRamp
  repeat' (first | with_reducible assumption | ((with_reducible refine Foot.le_trans ?_ hF); decide) | ((with_reducible refine Foot.has_of_le hF ?_); (first | decide | (dsimp only; decide))) | ((with_reducible refine Foot.parts_of_le hF ?_); decide) | (with_reducible first | apply State.Only.put | apply State.Only.trc) | (intro _))

theorem State.placeTraction_only {g : Foot} {a s : State} (h : a.Only g s) (n : Fin 34)
    (hF : Foot.le ⟨[.hv], [], false⟩ g = true) :
    a.Only g (State.placeTraction s n) := by
  unfold State.placeTraction
  repeat' (first | with_reducible assumption | ((with_reducible refine Foot.le_trans ?_ hF); decide) | ((with_reducible refine Foot.has_of_le hF ?_); (first | decide | (dsimp only; decide))) | ((with_reducible refine Foot.parts_of_le hF ?_); decide) | lift_lets -underBinder | (intro x; have hx : a.Only g x := (by repeat' (first | with_reducible assumption | ((with_reducible refine Foot.le_trans ?_ hF); decide) | ((with_reducible refine Foot.has_of_le hF ?_); (first | decide | (dsimp only; decide))) | ((with_reducible refine Foot.parts_of_le hF ?_); decide) | lift_lets -underBinder | (with_reducible first | apply State.Only.ite | apply State.Only.hv) | (first | split | (dsimp only [x]; split)) | (intro _))); clear_value x) | (intro x; clear_value x) | (with_reducible first | apply State.Only.ite | apply State.Only.hv) | split | (intro _))

theorem State.placeSet_only {g : Foot} {a s : State} (h : a.Only g s) (l : Lane)
    (hF : Foot.le ⟨[.hv], [], false⟩ g = true) :
    a.Only g (State.placeSet s l) := by
  unfold State.placeSet
  repeat' (first | with_reducible assumption | ((with_reducible refine Foot.le_trans ?_ hF); decide) | ((with_reducible refine Foot.has_of_le hF ?_); (first | decide | (dsimp only; decide))) | ((with_reducible refine Foot.parts_of_le hF ?_); decide) | lift_lets -underBinder | (intro x; have hx : a.Only g x := (by repeat' (first | with_reducible assumption | ((with_reducible refine Foot.le_trans ?_ hF); decide) | ((with_reducible refine Foot.has_of_le hF ?_); (first | decide | (dsimp only; decide))) | ((with_reducible refine Foot.parts_of_le hF ?_); decide) | lift_lets -underBinder | (with_reducible first | apply State.Only.fold | apply State.placeTraction_only) | (intro _))); clear_value x) | (intro x; clear_value x) | (with_reducible first | apply State.Only.fold | apply State.placeTraction_only) | (intro _))

theorem State.safeEntry_only {g : Foot} {a s : State} (h : a.Only g s) (l : Lane) (c : Nat)
    (hF : Foot.le ⟨[.hv, .trc, .loopReq], [0x10, 0x11], false⟩ g = true) :
    a.Only g (State.safeEntry s l c) := by
  unfold State.safeEntry
  repeat' (first | with_reducible assumption | ((with_reducible refine Foot.le_trans ?_ hF); decide) | ((with_reducible refine Foot.has_of_le hF ?_); (first | decide | (dsimp only; decide))) | ((with_reducible refine Foot.parts_of_le hF ?_); decide) | (exact ⟨by decide, by decide⟩) | lift_lets -underBinder | (intro x; have hx : a.Only g x := (by repeat' (first | with_reducible assumption | ((with_reducible refine Foot.le_trans ?_ hF); decide) | ((with_reducible refine Foot.has_of_le hF ?_); (first | decide | (dsimp only; decide))) | ((with_reducible refine Foot.parts_of_le hF ?_); decide) | (exact ⟨by decide, by decide⟩) | lift_lets -underBinder | (with_reducible first | apply State.Only.ite | apply State.Only.pulseEv | apply State.Only.put | apply State.gatesOff_only | apply State.loopOpen_only | apply State.placeSet_only | apply State.setRamp_only | apply State.smGoto_only) | (first | split | (dsimp only [x]; split)) | (intro _))); clear_value x) | (intro x; clear_value x) | (with_reducible first | apply State.Only.ite | apply State.Only.pulseEv | apply State.Only.put | apply State.gatesOff_only | apply State.loopOpen_only | apply State.placeSet_only | apply State.setRamp_only | apply State.smGoto_only) | split | (intro _))

theorem State.setFault_only {g : Foot} {a s : State} (h : a.Only g s) (l : Lane) (c : Nat)
    (hF : Foot.le ⟨[.hv, .trc, .loopReq], [0x10, 0x11], false⟩ g = true) :
    a.Only g (State.setFault s l c) := by
  unfold State.setFault
  repeat' (first | with_reducible assumption | ((with_reducible refine Foot.le_trans ?_ hF); decide) | ((with_reducible refine Foot.has_of_le hF ?_); (first | decide | (dsimp only; decide))) | ((with_reducible refine Foot.parts_of_le hF ?_); decide) | (with_reducible first | apply State.safeEntry_only) | (intro _))

theorem State.setPhaseActive_only {g : Foot} {a s : State} (h : a.Only g s) (l : Lane) (m : Nat) (b : Bool)
    (hF : Foot.le ⟨[], [0x30], false⟩ g = true) :
    a.Only g (State.setPhaseActive s l m b) := by
  unfold State.setPhaseActive
  repeat' (first | with_reducible assumption | ((with_reducible refine Foot.le_trans ?_ hF); decide) | ((with_reducible refine Foot.has_of_le hF ?_); (first | decide | (dsimp only; decide))) | ((with_reducible refine Foot.parts_of_le hF ?_); decide) | (with_reducible first | apply State.Only.putFlag) | (intro _))

theorem State.phaseStop_only {g : Foot} {a s : State} (h : a.Only g s) (l : Lane) (m : Nat)
    (hF : Foot.le ⟨[.hv], [0x30], false⟩ g = true) :
    a.Only g (State.phaseStop s l m) := by
  unfold State.phaseStop
  repeat' (first | with_reducible assumption | ((with_reducible refine Foot.le_trans ?_ hF); decide) | ((with_reducible refine Foot.has_of_le hF ?_); (first | decide | (dsimp only; decide))) | ((with_reducible refine Foot.parts_of_le hF ?_); decide) | (exact ⟨by decide, by decide⟩) | lift_lets -underBinder | (intro x; have hx : a.Only g x := (by repeat' (first | with_reducible assumption | ((with_reducible refine Foot.le_trans ?_ hF); decide) | ((with_reducible refine Foot.has_of_le hF ?_); (first | decide | (dsimp only; decide))) | ((with_reducible refine Foot.parts_of_le hF ?_); decide) | (exact ⟨by decide, by decide⟩) | lift_lets -underBinder | (with_reducible first | apply State.Only.ite | apply State.Only.bump | apply State.Only.levelEv | apply State.Only.putFlag | apply State.gatesOff_only | apply State.setPhaseActive_only) | (first | split | (dsimp only [x]; split)) | (intro _))); clear_value x) | (intro x; clear_value x) | (with_reducible first | apply State.Only.ite | apply State.Only.bump | apply State.Only.levelEv | apply State.Only.putFlag | apply State.gatesOff_only | apply State.setPhaseActive_only) | split | (intro _))

theorem State.dclStop_only {g : Foot} {a s : State} (h : a.Only g s) (l : Lane)
    (hF : Foot.le ⟨[.hv, .dcl, .loopReq], [0x10, 0x30], false⟩ g = true) :
    a.Only g (State.dclStop s l) := by
  unfold State.dclStop
  repeat' (first | with_reducible assumption | ((with_reducible refine Foot.le_trans ?_ hF); decide) | ((with_reducible refine Foot.has_of_le hF ?_); (first | decide | (dsimp only; decide))) | ((with_reducible refine Foot.parts_of_le hF ?_); decide) | (exact ⟨by decide, by decide⟩) | lift_lets -underBinder | (intro x; have hx : a.Only g x := (by repeat' (first | with_reducible assumption | ((with_reducible refine Foot.le_trans ?_ hF); decide) | ((with_reducible refine Foot.has_of_le hF ?_); (first | decide | (dsimp only; decide))) | ((with_reducible refine Foot.parts_of_le hF ?_); decide) | (exact ⟨by decide, by decide⟩) | lift_lets -underBinder | (with_reducible first | apply State.Only.ite | apply State.Only.dcl | apply State.Only.fold | apply State.Only.levelEv | apply State.Only.put | apply State.Only.putFlag | apply State.gatesOff_only | apply State.loopOpen_only | apply State.setPhaseActive_only) | (first | split | (dsimp only [x]; split)) | (intro _))); clear_value x) | (intro x; clear_value x) | (with_reducible first | apply State.Only.ite | apply State.Only.dcl | apply State.Only.fold | apply State.Only.levelEv | apply State.Only.put | apply State.Only.putFlag | apply State.gatesOff_only | apply State.loopOpen_only | apply State.setPhaseActive_only) | split | (intro _))

theorem State.setReg_only {g : Foot} {a s : State} (h : a.Only g s) (l : Lane) (b : Bool)
    (hF : Foot.le ⟨[], [0x30], false⟩ g = true) :
    a.Only g (State.setReg s l b) := by
  unfold State.setReg
  repeat' (first | with_reducible assumption | ((with_reducible refine Foot.le_trans ?_ hF); decide) | ((with_reducible refine Foot.has_of_le hF ?_); (first | decide | (dsimp only; decide))) | ((with_reducible refine Foot.parts_of_le hF ?_); decide) | lift_lets -underBinder | (intro x; have hx : a.Only g x := (by repeat' (first | with_reducible assumption | ((with_reducible refine Foot.le_trans ?_ hF); decide) | ((with_reducible refine Foot.has_of_le hF ?_); (first | decide | (dsimp only; decide))) | ((with_reducible refine Foot.parts_of_le hF ?_); decide) | lift_lets -underBinder | (with_reducible first | apply State.Only.ite | apply State.Only.putFlag | apply State.Only.putWord) | (intro _))); clear_value x) | (intro x; dsimp -zeta only [x]; clear x) | (intro x; clear_value x) | (with_reducible first | apply State.Only.ite | apply State.Only.putFlag | apply State.Only.putWord) | (intro _))

theorem State.showK_only {g : Foot} {a s : State} (h : a.Only g s)
    (hF : Foot.le ⟨[], [0x50], false⟩ g = true) :
    a.Only g (State.showK s) := by
  unfold State.showK
  repeat' (first | with_reducible assumption | ((with_reducible refine Foot.le_trans ?_ hF); decide) | ((with_reducible refine Foot.has_of_le hF ?_); (first | decide | (dsimp only; decide))) | ((with_reducible refine Foot.parts_of_le hF ?_); decide) | (with_reducible first | apply State.Only.ite | apply State.Only.both | apply State.Only.put) | (intro _))

theorem State.driveK_only {g : Foot} {a s : State} (h : a.Only g s)
    (hF : Foot.le ⟨[.aon, .mon], [0x50], false⟩ g = true) :
    a.Only g (State.driveK s) := by
  unfold State.driveK
  repeat' (first | with_reducible assumption | ((with_reducible refine Foot.le_trans ?_ hF); decide) | ((with_reducible refine Foot.has_of_le hF ?_); (first | decide | (dsimp only; decide))) | ((with_reducible refine Foot.parts_of_le hF ?_); decide) | (exact Or.inr (fun _ => rfl)) | lift_lets -underBinder | (intro x; have hx : a.Only g x := (by repeat' (first | with_reducible assumption | ((with_reducible refine Foot.le_trans ?_ hF); decide) | ((with_reducible refine Foot.has_of_le hF ?_); (first | decide | (dsimp only; decide))) | ((with_reducible refine Foot.parts_of_le hF ?_); decide) | (exact Or.inr (fun _ => rfl)) | lift_lets -underBinder | (with_reducible first | apply State.Only.ite | apply State.Only.aon | apply State.Only.fold | apply State.Only.mon | apply State.showK_only) | (first | split | (dsimp only [x]; split)) | (intro _))); clear_value x) | (intro x; clear_value x) | (with_reducible first | apply State.Only.ite | apply State.Only.aon | apply State.Only.fold | apply State.Only.mon | apply State.showK_only) | split | (intro _))

theorem State.askK_only {g : Foot} {a s : State} (h : a.Only g s) (l : Lane) (n : Nat) (on : Bool)
    (hF : Foot.le ⟨[.aon, .mon], [0x50], false⟩ g = true) :
    a.Only g (State.askK s l n on) := by
  unfold State.askK
  repeat' (first | with_reducible assumption | ((with_reducible refine Foot.le_trans ?_ hF); decide) | ((with_reducible refine Foot.has_of_le hF ?_); (first | decide | (dsimp only; decide))) | ((with_reducible refine Foot.parts_of_le hF ?_); decide) | (exact Or.inr (fun _ => rfl)) | (with_reducible first | apply State.Only.ite | apply State.Only.mon | apply State.driveK_only) | split | (intro _))

theorem State.driveS2_only {g : Foot} {a s : State} (h : a.Only g s) (l : Lane) (on : Bool)
    (hF : Foot.le ⟨[.aon], [0x33], false⟩ g = true) :
    a.Only g (State.driveS2 s l on) := by
  unfold State.driveS2
  repeat' (first | with_reducible assumption | ((with_reducible refine Foot.le_trans ?_ hF); decide) | ((with_reducible refine Foot.has_of_le hF ?_); (first | decide | (dsimp only; decide))) | ((with_reducible refine Foot.parts_of_le hF ?_); decide) | (with_reducible first | apply State.Only.aon | apply State.Only.putFlag) | (intro _))

theorem State.chgEnd_only {g : Foot} {a s : State} (h : a.Only g s) (l : Lane) (c : Nat)
    (hF : Foot.le ⟨[], [0x33], false⟩ g = true) :
    a.Only g (State.chgEnd s l c) := by
  unfold State.chgEnd
  repeat' (first | with_reducible assumption | ((with_reducible refine Foot.le_trans ?_ hF); decide) | ((with_reducible refine Foot.has_of_le hF ?_); (first | decide | (dsimp only; decide))) | ((with_reducible refine Foot.parts_of_le hF ?_); decide) | (exact ⟨by decide, by decide⟩) | lift_lets -underBinder | (intro x; have hx : a.Only g x := (by repeat' (first | with_reducible assumption | ((with_reducible refine Foot.le_trans ?_ hF); decide) | ((with_reducible refine Foot.has_of_le hF ?_); (first | decide | (dsimp only; decide))) | ((with_reducible refine Foot.parts_of_le hF ?_); decide) | (exact ⟨by decide, by decide⟩) | lift_lets -underBinder | (with_reducible first | apply State.Only.bump | apply State.Only.pulseEv | apply State.Only.put) | (intro _))); clear_value x) | (intro x; clear_value x) | (with_reducible first | apply State.Only.bump | apply State.Only.pulseEv | apply State.Only.put) | (intro _))

theorem State.chgFault_only {g : Foot} {a s : State} (h : a.Only g s) (l : Lane) (c : Nat)
    (hF : Foot.le ⟨[.hv, .aon, .mon, .chg, .loopReq], [0x10, 0x30, 0x31, 0x32, 0x33, 0x50], false⟩ g = true) :
    a.Only g (State.chgFault s l c) := by
  unfold State.chgFault
  repeat' (first | with_reducible assumption | ((with_reducible refine Foot.le_trans ?_ hF); decide) | ((with_reducible refine Foot.has_of_le hF ?_); (first | decide | (dsimp only; decide))) | ((with_reducible refine Foot.parts_of_le hF ?_); decide) | lift_lets -underBinder | (intro x; have hx : a.Only g x := (by repeat' (first | with_reducible assumption | ((with_reducible refine Foot.le_trans ?_ hF); decide) | ((with_reducible refine Foot.has_of_le hF ?_); (first | decide | (dsimp only; decide))) | ((with_reducible refine Foot.parts_of_le hF ?_); decide) | lift_lets -underBinder | (with_reducible first | apply State.Only.ite | apply State.Only.chg | apply State.Only.put | apply State.askK_only | apply State.chgEnd_only | apply State.driveS2_only | apply State.gatesOff_only | apply State.loopOpen_only | apply State.setReg_only) | (first | split | (dsimp only [x]; split)) | (intro _))); clear_value x) | (intro x; clear_value x) | (with_reducible first | apply State.Only.ite | apply State.Only.chg | apply State.Only.put | apply State.askK_only | apply State.chgEnd_only | apply State.driveS2_only | apply State.gatesOff_only | apply State.loopOpen_only | apply State.setReg_only) | split | (intro _))

theorem State.chgRampdown_only {g : Foot} {a s : State} (h : a.Only g s) (l : Lane) (c : Nat)
    (hF : Foot.le ⟨[.chg], [0x31, 0x32, 0x33], false⟩ g = true) :
    a.Only g (State.chgRampdown s l c) := by
  unfold State.chgRampdown
  repeat' (first | with_reducible assumption | ((with_reducible refine Foot.le_trans ?_ hF); decide) | ((with_reducible refine Foot.has_of_le hF ?_); (first | decide | (dsimp only; decide))) | ((with_reducible refine Foot.parts_of_le hF ?_); decide) | lift_lets -underBinder | (intro x; have hx : a.Only g x := (by repeat' (first | with_reducible assumption | ((with_reducible refine Foot.le_trans ?_ hF); decide) | ((with_reducible refine Foot.has_of_le hF ?_); (first | decide | (dsimp only; decide))) | ((with_reducible refine Foot.parts_of_le hF ?_); decide) | lift_lets -underBinder | (with_reducible first | apply State.Only.ite | apply State.Only.chg | apply State.Only.put | apply State.chgEnd_only) | (first | split | (dsimp only [x]; split)) | (intro _))); clear_value x) | (intro x; clear_value x) | (with_reducible first | apply State.Only.ite | apply State.Only.chg | apply State.Only.put | apply State.chgEnd_only) | split | (intro _))

theorem State.dclFault_only {g : Foot} {a s : State} (h : a.Only g s) (l : Lane)
    (hF : Foot.le ⟨[.hv, .aon, .mon, .dcl, .chg, .loopReq], [0x10, 0x30, 0x31, 0x32, 0x33, 0x50], false⟩ g = true) :
    a.Only g (State.dclFault s l) := by
  unfold State.dclFault
  repeat' (first | with_reducible assumption | ((with_reducible refine Foot.le_trans ?_ hF); decide) | ((with_reducible refine Foot.has_of_le hF ?_); (first | decide | (dsimp only; decide))) | ((with_reducible refine Foot.parts_of_le hF ?_); decide) | (exact ⟨by decide, by decide⟩) | lift_lets -underBinder | (intro x; have hx : a.Only g x := (by repeat' (first | with_reducible assumption | ((with_reducible refine Foot.le_trans ?_ hF); decide) | ((with_reducible refine Foot.has_of_le hF ?_); (first | decide | (dsimp only; decide))) | ((with_reducible refine Foot.parts_of_le hF ?_); decide) | (exact ⟨by decide, by decide⟩) | lift_lets -underBinder | (with_reducible first | apply State.Only.ite | apply State.Only.pulseEv | apply State.chgFault_only | apply State.dclStop_only) | (first | split | (dsimp only [x]; split)) | (intro _))); clear_value x) | (intro x; clear_value x) | (with_reducible first | apply State.Only.ite | apply State.Only.pulseEv | apply State.chgFault_only | apply State.dclStop_only) | split | (intro _))

theorem State.bridgeOff_only {g : Foot} {a s : State} (h : a.Only g s) (a' : Fin 2)
    (hF : Foot.le ⟨[.lv], [], false⟩ g = true) :
    a.Only g (State.bridgeOff s a') := by
  unfold State.bridgeOff
  repeat' (first | with_reducible assumption | ((with_reducible refine Foot.le_trans ?_ hF); decide) | ((with_reducible refine Foot.has_of_le hF ?_); (first | decide | (dsimp only; decide))) | ((with_reducible refine Foot.parts_of_le hF ?_); decide) | (with_reducible first | apply State.Only.fold | apply State.Only.lvCh) | (intro _))

theorem State.actIdle_only {g : Foot} {a s : State} (h : a.Only g s) (l : Lane) (a' : Fin 2)
    (hF : Foot.le ⟨[.lv, .loopReq], [0x10, 0x34], false⟩ g = true) :
    a.Only g (State.actIdle s l a') := by
  unfold State.actIdle
  repeat' (first | with_reducible assumption | ((with_reducible refine Foot.le_trans ?_ hF); decide) | ((with_reducible refine Foot.has_of_le hF ?_); (first | (simp (disch := first | omega | decide) only [F.ACT_STAT_STATE_has]; done) | decide | (dsimp only; decide))) | ((with_reducible refine Foot.parts_of_le hF ?_); decide) | (with_reducible first | apply State.Only.ite | apply State.Only.put | apply State.bridgeOff_only | apply State.loopOpen_only) | split | (intro _))

theorem State.actBrake_only {g : Foot} {a s : State} (h : a.Only g s) (l : Lane) (a' : Fin 2)
    (hF : Foot.le ⟨[.lv, .loopReq], [0x34], false⟩ g = true) :
    a.Only g (State.actBrake s l a') := by
  unfold State.actBrake
  repeat' (first | with_reducible assumption | ((with_reducible refine Foot.le_trans ?_ hF); decide) | ((with_reducible refine Foot.has_of_le hF ?_); (first | (simp (disch := first | omega | decide) only [F.ACT_STAT_STATE_has]; done) | decide | (dsimp only; decide))) | ((with_reducible refine Foot.parts_of_le hF ?_); decide) | lift_lets -underBinder | (intro x; have hx : a.Only g x := (by repeat' (first | with_reducible assumption | ((with_reducible refine Foot.le_trans ?_ hF); decide) | ((with_reducible refine Foot.has_of_le hF ?_); (first | (simp (disch := first | omega | decide) only [F.ACT_STAT_STATE_has]; done) | decide | (dsimp only; decide))) | ((with_reducible refine Foot.parts_of_le hF ?_); decide) | lift_lets -underBinder | (with_reducible first | apply State.Only.ite | apply State.Only.fold | apply State.Only.lvCh | apply State.Only.put | apply State.bridgeOff_only | apply State.loopAsk_only) | (intro _))); clear_value x) | (intro x; clear_value x) | (with_reducible first | apply State.Only.ite | apply State.Only.fold | apply State.Only.lvCh | apply State.Only.put | apply State.bridgeOff_only | apply State.loopAsk_only) | (intro _))

theorem State.actFault_only {g : Foot} {a s : State} (h : a.Only g s) (l : Lane) (a' : Fin 2) (c : Nat)
    (hF : Foot.le ⟨[.lv, .loopReq], [0x10, 0x34], false⟩ g = true) :
    a.Only g (State.actFault s l a' c) := by
  unfold State.actFault
  repeat' (first | with_reducible assumption | ((with_reducible refine Foot.le_trans ?_ hF); decide) | ((with_reducible refine Foot.has_of_le hF ?_); (first | (simp (disch := first | omega | decide) only [F.ACT_STAT_STATE_has, F.ACT_STAT_CAUSE_has, F.ACT_CNT_FLT_has]; done) | decide | (dsimp only; decide))) | ((with_reducible refine Foot.parts_of_le hF ?_); decide) | lift_lets -underBinder | (intro x; have hx : a.Only g x := (by repeat' (first | with_reducible assumption | ((with_reducible refine Foot.le_trans ?_ hF); decide) | ((with_reducible refine Foot.has_of_le hF ?_); (first | (simp (disch := first | omega | decide) only [F.ACT_STAT_STATE_has, F.ACT_STAT_CAUSE_has, F.ACT_CNT_FLT_has]; done) | decide | (dsimp only; decide))) | ((with_reducible refine Foot.parts_of_le hF ?_); decide) | lift_lets -underBinder | (with_reducible first | apply State.Only.ite | apply State.Only.bump | apply State.Only.put | apply State.bridgeOff_only | apply State.loopOpen_only) | (intro _))); clear_value x) | (intro x; clear_value x) | (with_reducible first | apply State.Only.ite | apply State.Only.bump | apply State.Only.put | apply State.bridgeOff_only | apply State.loopOpen_only) | (intro _))

end Sys2Proof.Machine
end

