-- ==== Sys2Proof/Laws/Only/Settle.lean ====
section
/-! SUPPORT. What the operations of Settle may change. -/
namespace Sys2Proof.Machine
set_option linter.all false
set_option Elab.async false

theorem State.publishTo_only {g : Foot} {a s : State} (h : a.Only g s) (l : Lane)
    (hF : Foot.le ⟨[], [0x50], false⟩ g = true) :
    a.Only g (State.publishTo s l) := by
  unfold State.publishTo
  repeat' (first | with_reducible assumption | ((with_reducible refine Foot.le_trans ?_ hF); decide) | ((with_reducible refine Foot.has_of_le hF ?_); (first | decide | (dsimp only; decide))) | ((with_reducible refine Foot.parts_of_le hF ?_); decide) | lift_lets -underBinder | (intro x; have hx : a.Only g x := (by repeat' (first | with_reducible assumption | ((with_reducible refine Foot.le_trans ?_ hF); decide) | ((with_reducible refine Foot.has_of_le hF ?_); (first | decide | (dsimp only; decide))) | ((with_reducible refine Foot.parts_of_le hF ?_); decide) | lift_lets -underBinder | (with_reducible first | apply State.Only.ite | apply State.Only.put | apply State.Only.putFlag | apply State.Only.putWord) | (first | split | (dsimp only [x]; split)) | (intro _))); clear_value x) | (intro x; clear_value x) | (with_reducible first | apply State.Only.ite | apply State.Only.put | apply State.Only.putFlag | apply State.Only.putWord) | split | (intro _))

theorem State.publish_only {g : Foot} {a s : State} (h : a.Only g s)
    (hF : Foot.le ⟨[.mon], [0x50], false⟩ g = true) :
    a.Only g (State.publish s) := by
  unfold State.publish
  repeat' (first | with_reducible assumption | ((with_reducible refine Foot.le_trans ?_ hF); decide) | ((with_reducible refine Foot.has_of_le hF ?_); (first | decide | (dsimp only; decide))) | ((with_reducible refine Foot.parts_of_le hF ?_); decide) | (exact Or.inr (fun _ => rfl)) | lift_lets -underBinder | (intro x; have hx : a.Only g x := (by repeat' (first | with_reducible assumption | ((with_reducible refine Foot.le_trans ?_ hF); decide) | ((with_reducible refine Foot.has_of_le hF ?_); (first | decide | (dsimp only; decide))) | ((with_reducible refine Foot.parts_of_le hF ?_); decide) | (exact Or.inr (fun _ => rfl)) | lift_lets -underBinder | (with_reducible first | apply State.Only.ite | apply State.Only.mon | apply State.publishTo_only) | (intro _))); clear_value x) | (intro x; clear_value x) | (with_reducible first | apply State.Only.ite | apply State.Only.mon | apply State.publishTo_only) | (intro _))

theorem State.holdSet_only {g : Foot} {a s : State} (h : a.Only g s) (l : Lane)
    (hF : Foot.le ⟨[.hv, .mon], [], false⟩ g = true) :
    a.Only g (State.holdSet s l) := by
  unfold State.holdSet
  repeat' (first | with_reducible assumption | ((with_reducible refine Foot.le_trans ?_ hF); decide) | ((with_reducible refine Foot.has_of_le hF ?_); (first | decide | (dsimp only; decide))) | ((with_reducible refine Foot.parts_of_le hF ?_); decide) | (exact Or.inr (fun _ => rfl)) | lift_lets -underBinder | (intro x; have hx : a.Only g x := (by repeat' (first | with_reducible assumption | ((with_reducible refine Foot.le_trans ?_ hF); decide) | ((with_reducible refine Foot.has_of_le hF ?_); (first | decide | (dsimp only; decide))) | ((with_reducible refine Foot.parts_of_le hF ?_); decide) | (exact Or.inr (fun _ => rfl)) | lift_lets -underBinder | (with_reducible first | apply State.Only.ite | apply State.Only.fold | apply State.Only.hv | apply State.Only.mon) | (intro _))); clear_value x) | (intro x; clear_value x) | (with_reducible first | apply State.Only.ite | apply State.Only.fold | apply State.Only.hv | apply State.Only.mon) | (intro _))

theorem State.laneSto_only {g : Foot} {a s : State} (h : a.Only g s) (l : Lane)
    (hF : Foot.le ⟨[.hv, .lv, .aon, .mon, .saf, .trc, .dcl, .chg, .loopReq], [0x10, 0x11, 0x30, 0x31, 0x32, 0x33, 0x34, 0x50], false⟩ g = true) :
    a.Only g (State.laneSto s l) := by
  unfold State.laneSto
  repeat' (first | with_reducible assumption | ((with_reducible refine Foot.le_trans ?_ hF); decide) | ((with_reducible refine Foot.has_of_le hF ?_); (first | decide | (dsimp only; decide))) | ((with_reducible refine Foot.parts_of_le hF ?_); decide) | (exact ⟨by decide, by decide⟩) | lift_lets -underBinder | (intro x; have hx : a.Only g x := (by repeat' (first | with_reducible assumption | ((with_reducible refine Foot.le_trans ?_ hF); decide) | ((with_reducible refine Foot.has_of_le hF ?_); (first | decide | (dsimp only; decide))) | ((with_reducible refine Foot.parts_of_le hF ?_); decide) | (exact ⟨by decide, by decide⟩) | lift_lets -underBinder | (with_reducible first | apply State.Only.ite | apply State.Only.levelEv | apply State.Only.saf | apply State.actIdle_only | apply State.chgFault_only | apply State.dclStop_only | apply State.setFault_only) | (intro _))); clear_value x) | (intro x; clear_value x) | (with_reducible first | apply State.Only.ite | apply State.Only.levelEv | apply State.Only.saf | apply State.actIdle_only | apply State.chgFault_only | apply State.dclStop_only | apply State.setFault_only) | (intro _))

theorem State.applySto_only {g : Foot} {a s : State} (h : a.Only g s) (cause : Nat)
    (hF : Foot.le ⟨[.hv, .lv, .aon, .mon, .saf, .trc, .dcl, .chg, .loopReq], [0x10, 0x11, 0x30, 0x31, 0x32, 0x33, 0x34, 0x50], false⟩ g = true) :
    a.Only g (State.applySto s cause) := by
  unfold State.applySto
  repeat' (first | with_reducible assumption | ((with_reducible refine Foot.le_trans ?_ hF); decide) | ((with_reducible refine Foot.has_of_le hF ?_); (first | decide | (dsimp only; decide))) | ((with_reducible refine Foot.parts_of_le hF ?_); decide) | (exact ⟨by decide, by decide⟩) | (exact Or.inr (fun _ => rfl)) | lift_lets -underBinder | (intro x; have hx : a.Only g x := (by repeat' (first | with_reducible assumption | ((with_reducible refine Foot.le_trans ?_ hF); decide) | ((with_reducible refine Foot.has_of_le hF ?_); (first | decide | (dsimp only; decide))) | ((with_reducible refine Foot.parts_of_le hF ?_); decide) | (exact ⟨by decide, by decide⟩) | (exact Or.inr (fun _ => rfl)) | lift_lets -underBinder | (with_reducible first | apply State.Only.ite | apply State.Only.mon | apply State.Only.monLevel | apply State.holdSet_only | apply State.laneSto_only | apply State.publish_only) | (intro _))); clear_value x) | (intro x; clear_value x) | (with_reducible first | apply State.Only.ite | apply State.Only.mon | apply State.Only.monLevel | apply State.holdSet_only | apply State.laneSto_only | apply State.publish_only) | (intro _))

theorem State.laneSs1_only {g : Foot} {a s : State} (h : a.Only g s) (l : Lane)
    (hF : Foot.le ⟨[.hv, .saf, .trc, .loopReq], [0x10, 0x11], false⟩ g = true) :
    a.Only g (State.laneSs1 s l) := by
  unfold State.laneSs1
  repeat' (first | with_reducible assumption | ((with_reducible refine Foot.le_trans ?_ hF); decide) | ((with_reducible refine Foot.has_of_le hF ?_); (first | decide | (dsimp only; decide))) | ((with_reducible refine Foot.parts_of_le hF ?_); decide) | (exact ⟨by decide, by decide⟩) | lift_lets -underBinder | (intro x; have hx : a.Only g x := (by repeat' (first | with_reducible assumption | ((with_reducible refine Foot.le_trans ?_ hF); decide) | ((with_reducible refine Foot.has_of_le hF ?_); (first | decide | (dsimp only; decide))) | ((with_reducible refine Foot.parts_of_le hF ?_); decide) | (exact ⟨by decide, by decide⟩) | lift_lets -underBinder | (with_reducible first | apply State.Only.ite | apply State.Only.levelEv | apply State.Only.saf | apply State.Only.trc | apply State.setFault_only | apply State.smGoto_only) | (first | split | (dsimp only [x]; split)) | (intro _))); clear_value x) | (intro x; clear_value x) | (with_reducible first | apply State.Only.ite | apply State.Only.levelEv | apply State.Only.saf | apply State.Only.trc | apply State.setFault_only | apply State.smGoto_only) | split | (intro _))

theorem State.applySs1_only {g : Foot} {a s : State} (h : a.Only g s) (cause : Nat)
    (hF : Foot.le ⟨[.hv, .mon, .saf, .trc, .loopReq], [0x10, 0x11, 0x50], false⟩ g = true) :
    a.Only g (State.applySs1 s cause) := by
  unfold State.applySs1
  repeat' (first | with_reducible assumption | ((with_reducible refine Foot.le_trans ?_ hF); decide) | ((with_reducible refine Foot.has_of_le hF ?_); (first | decide | (dsimp only; decide))) | ((with_reducible refine Foot.parts_of_le hF ?_); decide) | (exact ⟨by decide, by decide⟩) | (exact Or.inr (fun _ => rfl)) | lift_lets -underBinder | (intro x; have hx : a.Only g x := (by repeat' (first | with_reducible assumption | ((with_reducible refine Foot.le_trans ?_ hF); decide) | ((with_reducible refine Foot.has_of_le hF ?_); (first | decide | (dsimp only; decide))) | ((with_reducible refine Foot.parts_of_le hF ?_); decide) | (exact ⟨by decide, by decide⟩) | (exact Or.inr (fun _ => rfl)) | lift_lets -underBinder | (with_reducible first | apply State.Only.ite | apply State.Only.mon | apply State.Only.monLevel | apply State.laneSs1_only | apply State.publish_only) | (first | split | (dsimp only [x]; split)) | (intro _))); clear_value x) | (intro x; clear_value x) | (with_reducible first | apply State.Only.ite | apply State.Only.mon | apply State.Only.monLevel | apply State.laneSs1_only | apply State.publish_only) | split | (intro _))

theorem State.safEv_only {g : Foot} {a s : State} (h : a.Only g s) (e : Ev) (he : State.EvOnly.Proper e)
    (hF : Foot.le ⟨[], [], false⟩ g = true) :
    a.Only g (State.safEv s e) := by
  unfold State.safEv
  repeat' (first | with_reducible assumption | ((with_reducible refine Foot.le_trans ?_ hF); decide) | ((with_reducible refine Foot.has_of_le hF ?_); (first | decide | (dsimp only; decide))) | ((with_reducible refine Foot.parts_of_le hF ?_); decide) | (with_reducible first | apply State.Only.both | apply State.Only.pulseEv) | (intro _))

theorem State.causeEv_only {g : Foot} {a s : State} (h : a.Only g s) (c : Nat)
    (hF : Foot.le ⟨[], [], false⟩ g = true) :
    a.Only g (State.causeEv s c) := by
  unfold State.causeEv
  repeat' (first | with_reducible assumption | ((with_reducible refine Foot.le_trans ?_ hF); decide) | ((with_reducible refine Foot.has_of_le hF ?_); (first | decide | (dsimp only; decide))) | ((with_reducible refine Foot.parts_of_le hF ?_); decide) | (exact ⟨by decide, by decide⟩) | (with_reducible first | apply State.Only.monEv | apply State.safEv_only) | split | (intro _))

theorem State.hearRequests_only {g : Foot} {a s : State} (h : a.Only g s)
    (hF : Foot.le ⟨[.hv, .lv, .aon, .mon, .saf, .trc, .dcl, .chg, .loopReq], [0x10, 0x11, 0x30, 0x31, 0x32, 0x33, 0x34, 0x50], false⟩ g = true) :
    a.Only g (State.hearRequests s) := by
  unfold State.hearRequests
  repeat' (first | with_reducible assumption | ((with_reducible refine Foot.le_trans ?_ hF); decide) | ((with_reducible refine Foot.has_of_le hF ?_); (first | decide | (dsimp only; decide))) | ((with_reducible refine Foot.parts_of_le hF ?_); decide) | lift_lets -underBinder | (intro x; have hx : a.Only g x := (by repeat' (first | with_reducible assumption | ((with_reducible refine Foot.le_trans ?_ hF); decide) | ((with_reducible refine Foot.has_of_le hF ?_); (first | decide | (dsimp only; decide))) | ((with_reducible refine Foot.parts_of_le hF ?_); decide) | lift_lets -underBinder | (with_reducible first | apply State.Only.ite | apply State.Only.both | apply State.Only.saf | apply State.applySs1_only | apply State.applySto_only | apply State.causeEv_only) | (intro _))); clear_value x) | (intro x; dsimp -zeta only [x]; clear x) | (intro x; clear_value x) | (with_reducible first | apply State.Only.ite | apply State.Only.both | apply State.Only.saf | apply State.applySs1_only | apply State.applySto_only | apply State.causeEv_only) | (intro _))

theorem State.settle_only {g : Foot} {a s : State} (h : a.Only g s)
    (hF : Foot.le ⟨[.hv, .lv, .aon, .mon, .saf, .trc, .dcl, .chg, .loopReq], [0x10, 0x11, 0x30, 0x31, 0x32, 0x33, 0x34, 0x50], false⟩ g = true) :
    a.Only g (State.settle s) := by
  unfold State.settle
  repeat' (first | with_reducible assumption | ((with_reducible refine Foot.le_trans ?_ hF); decide) | ((with_reducible refine Foot.has_of_le hF ?_); (first | decide | (dsimp only; decide))) | ((with_reducible refine Foot.parts_of_le hF ?_); decide) | lift_lets -underBinder | (intro x; have hx : a.Only g x := (by repeat' (first | with_reducible assumption | ((with_reducible refine Foot.le_trans ?_ hF); decide) | ((with_reducible refine Foot.has_of_le hF ?_); (first | decide | (dsimp only; decide))) | ((with_reducible refine Foot.parts_of_le hF ?_); decide) | lift_lets -underBinder | (with_reducible first | apply State.Only.ite | apply State.hearRequests_only) | (intro _))); clear_value x) | (intro x; dsimp -zeta only [x]; clear x) | (intro x; clear_value x) | (with_reducible first | apply State.Only.ite | apply State.hearRequests_only) | (intro _))

end Sys2Proof.Machine
end

