-- ==== Sys2Proof/Laws/Only/Engine.lean ====
section
/-! SUPPORT. What the operations of Engine may change. -/
namespace Sys2Proof.Machine
set_option linter.all false
set_option Elab.async false

theorem State.showMmax_only {g : Foot} {a s : State} (h : a.Only g s) (l : Lane)
    (hF : Foot.le ⟨[], [0x11], false⟩ g = true) :
    a.Only g (State.showMmax s l) := by
  unfold State.showMmax
  repeat' (first | with_reducible assumption | ((with_reducible refine Foot.le_trans ?_ hF); decide) | ((with_reducible refine Foot.has_of_le hF ?_); (first | decide | (dsimp only; decide))) | ((with_reducible refine Foot.parts_of_le hF ?_); decide) | (with_reducible first | apply State.Only.putWord) | (intro _))

theorem State.Only.foldr {α : Type} {g : Foot} {a : State} (f : α → State → State) (xs : List α) (s : State) (h : a.Only g s)
    (hf : ∀ x t, a.Only g t → a.Only g (f x t)) : a.Only g (xs.foldr f s) := by
  induction xs with
  | nil => exact h
  | cons x xs ih => exact hf _ _ ih

theorem State.afterGroup_only {g : Foot} {a s : State} (h : a.Only g s) (l : Lane) (rate : Nat) (r : Run) (hF : Foot.le ⟨[.mem, .eng], [0x10], false⟩ g = true) :
    a.Only g (State.afterGroup s l rate r) := by
  unfold State.afterGroup
  lift_lets -underBinder
  intro d s1
  have h1 : a.Only g s1 := by
    with_reducible refine State.Only.memEng h l _ _ (Foot.parts_of_le hF (by decide)) (Foot.parts_of_le hF (by decide))
  clear_value s1
  intro s2
  have h2 : a.Only g s2 := by
    refine State.Only.foldr _ _ _ h1 (fun k t ht => ?_)
    have e : g.has (F.CE_NF_NF (k / 32 % 16)).addr = true := Foot.has_of_le hF (Foot.has_type
      ((by decide : ∀ i : Fin 16, typeAt (F.CE_NF_NF i.val).addr = 0x10) ⟨k / 32 % 16, Nat.mod_lt _ (by decide)⟩) (by decide))
    have k1 := State.Only.putFlag ht l ⟨(F.CE_NF_NF (k / 32 % 16)).addr, k % 32, 1⟩ true e
    have k2 := State.Only.bump k1 l F.CE_NF_LAST_NF_CNT 1 (Foot.has_of_le hF (by decide))
    exact State.Only.put k2 l F.CE_NF_LAST_KIDX k (Foot.has_of_le hF (by decide))
  clear_value s2
  intro s3
  have h3 : a.Only g s3 := State.Only.ite (fun _ => h2) (fun _ => State.Only.pulseEv h2 _ _ _ E.CE_NONFINITE_proper)
  clear_value s3
  intro s4
  have h4 : a.Only g s4 := by
    with_reducible
      refine State.Only.ite (fun _ => h3) (fun _ => State.Only.pulseEv (State.Only.putFlag (State.Only.bump h3 _ _ _
        (Foot.has_of_le hF (by decide))) _ _ _ (Foot.has_of_le hF (by decide))) _ _ _ E.CE_SP_CLIP_proper)
  clear_value s4
  exact State.Only.ite (fun _ => State.Only.pulseEv h4 _ _ _ E.CE_RAMP_BRAKE_proper) (fun _ => h4)

theorem State.engineStop_only {g : Foot} {a s : State} (h : a.Only g s) (l : Lane) (hF : Foot.le ⟨[.hv, .mem, .eng], [0x10], false⟩ g = true) :
    a.Only g (State.engineStop s l) := by
  unfold State.engineStop
  refine State.gatesOff_only (State.Only.putFlag (State.Only.lane h l _ (fun x p hp => ?_) (Or.inr (fun x => ?_))) _ _ _
    (Foot.has_of_le hF (by decide))) _ (Foot.le_trans (by decide) hF)
  · generalize List.replicate 64 (0 : Word) = zs
    cases p <;> first | rfl | trivial | exact absurd (Foot.parts_of_le hF (by decide)) hp
  · generalize List.replicate 64 (0 : Word) = zs
    rfl

theorem State.engineStart_only {g : Foot} {a s : State} (h : a.Only g s) (l : Lane) (hF : Foot.le ⟨[.mem, .eng], [0x10], false⟩ g = true) :
    a.Only g (State.engineStart s l) := by
  unfold State.engineStart
  dsimp only
  with_reducible
    refine State.Only.put (State.Only.put (State.Only.putFlag (State.Only.memEng h l _ _ (Foot.parts_of_le hF (by decide))
      (Foot.parts_of_le hF (by decide))) _ _ _ (Foot.has_of_le hF (by decide))) _ _ _ (Foot.has_of_le hF (by decide))) _ _ _
      (Foot.has_of_le hF (by decide))

theorem State.pairMatch_only {g : Foot} {a s : State} (h : a.Only g s)
    (hF : Foot.le ⟨[], [0x10], false⟩ g = true) :
    a.Only g (State.pairMatch s) := by
  unfold State.pairMatch
  repeat' (first | with_reducible assumption | ((with_reducible refine Foot.le_trans ?_ hF); decide) | ((with_reducible refine Foot.has_of_le hF ?_); (first | decide | (dsimp only; decide))) | ((with_reducible refine Foot.parts_of_le hF ?_); decide) | lift_lets -underBinder | (intro x; have hx : a.Only g x := (by repeat' (first | with_reducible assumption | ((with_reducible refine Foot.le_trans ?_ hF); decide) | ((with_reducible refine Foot.has_of_le hF ?_); (first | decide | (dsimp only; decide))) | ((with_reducible refine Foot.parts_of_le hF ?_); decide) | lift_lets -underBinder | (with_reducible first | apply State.Only.ite | apply State.Only.both | apply State.Only.putFlag) | (first | split | (dsimp only [x]; split)) | (intro _))); clear_value x) | (intro x; clear_value x) | (with_reducible first | apply State.Only.ite | apply State.Only.both | apply State.Only.putFlag) | split | (intro _))

theorem State.commitTable_only {g : Foot} {a s : State} (h : a.Only g s) (l : Lane)
    (hF : Foot.le ⟨[.eng], [0x03, 0x10], false⟩ g = true) :
    a.Only g (State.commitTable s l) := by
  unfold State.commitTable
  repeat' (first | with_reducible assumption | ((with_reducible refine Foot.le_trans ?_ hF); decide) | ((with_reducible refine Foot.has_of_le hF ?_); (first | decide | (dsimp only; decide))) | ((with_reducible refine Foot.parts_of_le hF ?_); decide) | (exact ⟨by decide, by decide⟩) | lift_lets -underBinder | (intro x; have hx : a.Only g x := (by repeat' (first | with_reducible assumption | ((with_reducible refine Foot.le_trans ?_ hF); decide) | ((with_reducible refine Foot.has_of_le hF ?_); (first | decide | (dsimp only; decide))) | ((with_reducible refine Foot.parts_of_le hF ?_); decide) | (exact ⟨by decide, by decide⟩) | lift_lets -underBinder | (with_reducible first | apply State.Only.ite | apply State.Only.eng | apply State.Only.pulseEv | apply State.Only.put | apply State.Only.putFlag | apply State.pairMatch_only) | (intro _))); clear_value x) | (intro x; clear_value x) | (with_reducible first | apply State.Only.ite | apply State.Only.eng | apply State.Only.pulseEv | apply State.Only.put | apply State.Only.putFlag | apply State.pairMatch_only) | (intro _))

end Sys2Proof.Machine
end

