-- ==== Sys2Proof/Laws/Only/Supply.lean ====
section
/-! SUPPORT. What the operations of Supply may change. -/
namespace Sys2Proof.Machine
set_option linter.all false
set_option Elab.async false

theorem State.driveToken_only {g : Foot} {a s : State} (h : a.Only g s) (l : Lane)
    (hF : Foot.le ⟨[.hv, .lv, .aon, .mon], [0x40, 0x50, 0x80], false⟩ g = true) :
    a.Only g (State.driveToken s l) := by
  unfold State.driveToken
  repeat' (first | with_reducible assumption | ((with_reducible refine Foot.le_trans ?_ hF); decide) | ((with_reducible refine Foot.has_of_le hF ?_); (first | decide | (dsimp only; decide))) | ((with_reducible refine Foot.parts_of_le hF ?_); decide) | (exact ⟨by decide, by decide⟩) | (exact Or.inr (fun _ => rfl)) | lift_lets -underBinder | (intro x; have hx : a.Only g x := (by repeat' (first | with_reducible assumption | ((with_reducible refine Foot.le_trans ?_ hF); decide) | ((with_reducible refine Foot.has_of_le hF ?_); (first | decide | (dsimp only; decide))) | ((with_reducible refine Foot.parts_of_le hF ?_); decide) | (exact ⟨by decide, by decide⟩) | (exact Or.inr (fun _ => rfl)) | lift_lets -underBinder | (with_reducible first | apply State.Only.ite | apply State.Only.both | apply State.Only.fold | apply State.Only.hv | apply State.Only.lv | apply State.Only.mon | apply State.Only.monEv | apply State.Only.mputFlag | apply State.Only.putFlag | apply State.driveK_only) | (first | split | (dsimp only [x]; split)) | (intro _))); clear_value x) | (intro x; clear_value x) | (with_reducible first | apply State.Only.ite | apply State.Only.both | apply State.Only.fold | apply State.Only.hv | apply State.Only.lv | apply State.Only.mon | apply State.Only.monEv | apply State.Only.mputFlag | apply State.Only.putFlag | apply State.driveK_only) | split | (intro _))

theorem State.pgLow_only {g : Foot} {a s : State} (h : a.Only g s)
    (hF : Foot.le ⟨[.aon], [0x80], false⟩ g = true) :
    a.Only g (State.pgLow s) := by
  unfold State.pgLow
  repeat' (first | with_reducible assumption | ((with_reducible refine Foot.le_trans ?_ hF); decide) | ((with_reducible refine Foot.has_of_le hF ?_); (first | decide | (dsimp only; decide))) | ((with_reducible refine Foot.parts_of_le hF ?_); decide) | (exact ⟨by decide, by decide⟩) | lift_lets -underBinder | (intro x; have hx : a.Only g x := (by repeat' (first | with_reducible assumption | ((with_reducible refine Foot.le_trans ?_ hF); decide) | ((with_reducible refine Foot.has_of_le hF ?_); (first | decide | (dsimp only; decide))) | ((with_reducible refine Foot.parts_of_le hF ?_); decide) | (exact ⟨by decide, by decide⟩) | lift_lets -underBinder | (with_reducible first | apply State.Only.ite | apply State.Only.aon | apply State.Only.monEv | apply State.Only.mputFlag) | (first | split | (dsimp only [x]; split)) | (intro _))); clear_value x) | (intro x; clear_value x) | (with_reducible first | apply State.Only.ite | apply State.Only.aon | apply State.Only.monEv | apply State.Only.mputFlag) | split | (intro _))

theorem State.declare_only {g : Foot} {a s : State} (h : a.Only g s) (x : Lane)
    (hF : Foot.le ⟨[.hv, .lv, .aon, .mon, .red, .trc, .loopReq], [0x10, 0x11, 0x40, 0x50, 0x80], false⟩ g = true) :
    a.Only g (State.declare s x) := by
  unfold State.declare
  repeat' (first | with_reducible assumption | ((with_reducible refine Foot.le_trans ?_ hF); decide) | ((with_reducible refine Foot.has_of_le hF ?_); (first | decide | (dsimp only; decide))) | ((with_reducible refine Foot.parts_of_le hF ?_); decide) | (exact ⟨by decide, by decide⟩) | (exact Or.inr (fun _ => rfl)) | lift_lets -underBinder | (intro x; have hx : a.Only g x := (by repeat' (first | with_reducible assumption | ((with_reducible refine Foot.le_trans ?_ hF); decide) | ((with_reducible refine Foot.has_of_le hF ?_); (first | decide | (dsimp only; decide))) | ((with_reducible refine Foot.parts_of_le hF ?_); decide) | (exact ⟨by decide, by decide⟩) | (exact Or.inr (fun _ => rfl)) | lift_lets -underBinder | (with_reducible first | apply State.Only.ite | apply State.Only.mon | apply State.Only.monEv | apply State.Only.mputFlag | apply State.Only.red | apply State.driveToken_only | apply State.holdSet_only | apply State.pgLow_only | apply State.publish_only | apply State.setFault_only) | (first | split | (dsimp only [x]; split)) | (intro _))); clear_value x) | (intro x; clear_value x) | (with_reducible first | apply State.Only.ite | apply State.Only.mon | apply State.Only.monEv | apply State.Only.mputFlag | apply State.Only.red | apply State.driveToken_only | apply State.holdSet_only | apply State.pgLow_only | apply State.publish_only | apply State.setFault_only) | split | (intro _))

/-- Nothing that a lane is reset from lies outside this footprint. -/
theorem State.Only.setLane {g : Foot} {a s : State} (h : a.Only g s) (l : Lane) (x : LaneState)
    (hp : ∀ p, p ∉ g.parts → (s.lane l).Same p x) (ha : g.anyPage = true) : a.Only g (s.setLane l x) := by
  refine h.trans ⟨fun p hq => ?_, fun _ n hn => ?_⟩
  · have key : ∀ k, (s.lane k).Same p ((s.setLane l x).lane k) := by
      intro k
      rw [State.lane_setLane]
      split
      · rename_i e
        subst e
        exact hp p hq
      · cases p <;> first | rfl | trivial
    cases p <;> first | rfl | exact key
  · simp [Foot.has, ha] at hn

theorem State.resetLane_only {g : Foot} {a s : State} (h : a.Only g s) (l : Lane) (cause : Fld) (hF : Foot.le ⟨[.ofs, .mon, .hold, .boot, .mem, .flash, .shadows, .waiting, .timedHalves, .sess, .answer, .red, .saf, .cls, .trc, .eng, .fbk, .smp, .dcl, .chg, .act, .can, .ring, .bulkLast, .dup, .loopReq, .scrub, .legEvents], [], true⟩ g = true) :
    a.Only g (State.resetLane s l cause) := by
  have ha : g.anyPage = true := Foot.any_of_le hF rfl
  have hh : ∀ n, g.has n = true := fun n => Foot.has_of_any hF rfl
  unfold State.resetLane
  dsimp only
  refine State.Only.mon ?_ _ (Foot.parts_of_le hF (by decide)) (Or.inl ha)
  have k := State.Only.putFlag (State.Only.put (State.Only.putFlag (State.Only.putWord (State.Only.setLane h l
    ({ hold := (s.lane l).hold, flash := (s.lane l).flash, dup := (s.lane l).dup
       boot := { slot := (s.lane l).boot.slot, cur := bootSlot (s.lane l).boot.slot } } : LaneState) (fun p hp => ?_) ha)
    l F.RST_CAUSE_POR.addr (s.word l F.RST_CAUSE_POR.addr &&& 0x3F#32) (hh _)) l cause true (hh _)) l F.PWR_STAT_DROOP_CNT
    (s.fld l F.PWR_STAT_DROOP_CNT) (hh _)) l F.RING_STAT_DEV_DUP (s.lane l).dup (hh _)
  · exact State.Only.ite (fun _ => k) (fun _ => State.Only.ofs k _ _ (Foot.parts_of_le hF (by decide)))
  · cases p <;> first | rfl | trivial | exact absurd (Foot.parts_of_le hF (by decide)) hp

theorem State.enterReset_only {g : Foot} {a s : State} (h : a.Only g s) (l : Lane) (cause : Fld) (setHold : Hold → Hold) (hcause : Foot.has g cause.addr = true)
    (hF : Foot.le ⟨[.hv, .lv, .aon, .ofs, .mon, .hold, .boot, .mem, .flash, .shadows, .waiting, .timedHalves, .sess, .answer, .red, .saf, .cls, .trc, .eng, .fbk, .smp, .dcl, .chg, .act, .can, .ring, .bulkLast, .dup, .loopReq, .scrub, .legEvents], [], true⟩ g = true) :
    a.Only g (State.enterReset s l cause setHold) := by
  unfold State.enterReset
  repeat' (first | with_reducible assumption | ((with_reducible refine Foot.le_trans ?_ hF); decide) | ((with_reducible refine Foot.has_of_le hF ?_); (first | decide | (dsimp only; decide))) | ((with_reducible refine Foot.parts_of_le hF ?_); decide) | (exact ⟨by decide, by decide⟩) | (with_reducible exact Foot.has_of_any hF rfl) | (with_reducible exact Or.inl (Foot.any_of_le hF rfl)) | lift_lets -underBinder | (intro x; have hx : a.Only g x := (by repeat' (first | with_reducible assumption | ((with_reducible refine Foot.le_trans ?_ hF); decide) | ((with_reducible refine Foot.has_of_le hF ?_); (first | decide | (dsimp only; decide))) | ((with_reducible refine Foot.parts_of_le hF ?_); decide) | (exact ⟨by decide, by decide⟩) | (with_reducible exact Foot.has_of_any hF rfl) | (with_reducible exact Or.inl (Foot.any_of_le hF rfl)) | lift_lets -underBinder | (with_reducible first | apply State.Only.ite | apply State.Only.fold | apply State.Only.hold | apply State.Only.monEv | apply State.declare_only | apply State.halfGone_only | apply State.resetLane_only) | (first | split | (dsimp only [x]; split)) | (intro _))); clear_value x) | (intro x; clear_value x) | (with_reducible first | apply State.Only.ite | apply State.Only.fold | apply State.Only.hold | apply State.Only.monEv | apply State.declare_only | apply State.halfGone_only | apply State.resetLane_only) | split | (intro _))

theorem State.release_only {g : Foot} {a s : State} (h : a.Only g s) (l : Lane)
    (hF : Foot.le ⟨[.boot], [], false⟩ g = true) :
    a.Only g (State.release s l) := by
  unfold State.release
  repeat' (first | with_reducible assumption | ((with_reducible refine Foot.le_trans ?_ hF); decide) | ((with_reducible refine Foot.has_of_le hF ?_); (first | decide | (dsimp only; decide))) | ((with_reducible refine Foot.parts_of_le hF ?_); decide) | (exact ⟨by decide, by decide⟩) | lift_lets -underBinder | (intro x; have hx : a.Only g x := (by repeat' (first | with_reducible assumption | ((with_reducible refine Foot.le_trans ?_ hF); decide) | ((with_reducible refine Foot.has_of_le hF ?_); (first | decide | (dsimp only; decide))) | ((with_reducible refine Foot.parts_of_le hF ?_); decide) | (exact ⟨by decide, by decide⟩) | lift_lets -underBinder | (with_reducible first | apply State.Only.ite | apply State.Only.boot | apply State.Only.levelEv) | (first | split | (dsimp only [x]; split)) | (intro _))); clear_value x) | (intro x; clear_value x) | (with_reducible first | apply State.Only.ite | apply State.Only.boot | apply State.Only.levelEv) | split | (intro _))

theorem State.modulePor_only {g : Foot} {a s : State} (_ : a.Only g s) (hF : Foot.le ⟨[.hv, .lv, .sns, .aon, .free, .ofs, .mon, .hold, .boot, .mem, .flash, .shadows, .waiting, .timedHalves, .sess, .answer, .red, .saf, .cls, .trc, .eng, .fbk, .smp, .dcl, .chg, .act, .can, .ring, .bulkLast, .dup, .loopReq, .scrub, .legEvents], [], true⟩ g = true) :
    a.Only g (State.modulePor s) := by
  refine ⟨fun p hp => ?_, fun _ n hn => ?_⟩
  · cases p <;> exact absurd (Foot.parts_of_le hF (by decide)) hp
  · rw [Foot.has_of_any hF rfl] at hn; cases hn

theorem execVsValid_only {g : Foot} {a s : State} (h : a.Only g s) (l : Lane)
    (hF : Foot.le ⟨[.aon, .hold, .boot], [], false⟩ g = true) :
    OutOnly g a (execVsValid l s) := by
  unfold execVsValid
  repeat' (first | with_reducible assumption | ((with_reducible refine Foot.le_trans ?_ hF); decide) | ((with_reducible refine Foot.has_of_le hF ?_); (first | decide | (dsimp only; decide))) | ((with_reducible refine Foot.parts_of_le hF ?_); decide) | lift_lets -underBinder | (intro x; have hx : a.Only g x := (by repeat' (first | with_reducible assumption | ((with_reducible refine Foot.le_trans ?_ hF); decide) | ((with_reducible refine Foot.has_of_le hF ?_); (first | decide | (dsimp only; decide))) | ((with_reducible refine Foot.parts_of_le hF ?_); decide) | lift_lets -underBinder | (with_reducible first | apply State.Only.ite | apply State.Only.aon | apply State.Only.done | apply State.Only.hold | apply State.release_only) | (first | split | (dsimp only [x]; split)) | (intro _))); clear_value x) | (intro x; clear_value x) | (with_reducible first | apply State.Only.ite | apply State.Only.aon | apply State.Only.done | apply State.Only.hold | apply State.release_only) | split | (intro _))

theorem execVsFailed_only {g : Foot} {a s : State} (_ : a.Only g s) (l : Lane) (hF : Foot.le ⟨[.hv, .lv, .sns, .aon, .free, .ofs, .mon, .hold, .boot, .mem, .flash, .shadows, .waiting, .timedHalves, .sess, .answer, .red, .saf, .cls, .trc, .eng, .fbk, .smp, .dcl, .chg, .act, .can, .ring, .bulkLast, .dup, .loopReq, .scrub, .legEvents], [], true⟩ g = true) :
    OutOnly g a (execVsFailed l s) := by
  unfold execVsFailed
  cases l
  all_goals
    dsimp only
    split
    · exact ⟨_, rfl, State.Only.whole hF⟩
    · exact ⟨_, rfl, State.Only.whole hF⟩

theorem execNporAssert_only {g : Foot} {a s : State} (_ : a.Only g s) 
    (hF : Foot.le ⟨[.hv, .lv, .sns, .aon, .free, .ofs, .mon, .hold, .boot, .mem, .flash, .shadows, .waiting, .timedHalves, .sess, .answer, .red, .saf, .cls, .trc, .eng, .fbk, .smp, .dcl, .chg, .act, .can, .ring, .bulkLast, .dup, .loopReq, .scrub, .legEvents], [], true⟩ g = true) : OutOnly g a (execNporAssert s) := by
  unfold execNporAssert
  repeat' (first | exact ⟨_, rfl, State.Only.whole hF⟩ | split)

theorem execNporRelease_only {g : Foot} {a s : State} (h : a.Only g s)
    (hF : Foot.le ⟨[.hv, .lv, .aon, .mon, .boot, .red, .trc, .loopReq], [0x10, 0x11, 0x40, 0x50, 0x80], false⟩ g = true) :
    OutOnly g a (execNporRelease s) := by
  unfold execNporRelease
  repeat' (first | with_reducible assumption | ((with_reducible refine Foot.le_trans ?_ hF); decide) | ((with_reducible refine Foot.has_of_le hF ?_); (first | decide | (dsimp only; decide))) | ((with_reducible refine Foot.parts_of_le hF ?_); decide) | lift_lets -underBinder | (intro x; have hx : a.Only g x := (by repeat' (first | with_reducible assumption | ((with_reducible refine Foot.le_trans ?_ hF); decide) | ((with_reducible refine Foot.has_of_le hF ?_); (first | decide | (dsimp only; decide))) | ((with_reducible refine Foot.parts_of_le hF ?_); decide) | lift_lets -underBinder | (with_reducible first | apply State.Only.ite | apply State.Only.aon | apply State.Only.both | apply State.Only.done | apply State.Only.fold | apply State.Only.hv | apply State.Only.lv | apply State.declare_only | apply State.release_only) | (first | split | (dsimp only [x]; split)) | (intro _))); clear_value x) | (intro x; clear_value x) | (with_reducible first | apply State.Only.ite | apply State.Only.aon | apply State.Only.both | apply State.Only.done | apply State.Only.fold | apply State.Only.hv | apply State.Only.lv | apply State.declare_only | apply State.release_only) | split | (intro _))

theorem execNrstAssert_only {g : Foot} {a s : State} (h : a.Only g s) (l : Lane)
    (hF : Foot.le ⟨[.hv, .lv, .aon, .ofs, .mon, .hold, .boot, .mem, .flash, .shadows, .waiting, .timedHalves, .sess, .answer, .red, .saf, .cls, .trc, .eng, .fbk, .smp, .dcl, .chg, .act, .can, .ring, .bulkLast, .dup, .loopReq, .scrub, .legEvents], [], true⟩ g = true) :
    OutOnly g a (execNrstAssert l s) := by
  unfold execNrstAssert
  repeat' (first | with_reducible assumption | ((with_reducible refine Foot.le_trans ?_ hF); decide) | ((with_reducible refine Foot.has_of_le hF ?_); (first | decide | (dsimp only; decide))) | ((with_reducible refine Foot.parts_of_le hF ?_); decide) | (with_reducible exact Foot.has_of_any hF rfl) | (with_reducible exact Or.inl (Foot.any_of_le hF rfl)) | (with_reducible first | apply State.Only.done | apply State.enterReset_only) | (intro _))

theorem execLaneResetRelease_only {g : Foot} {a s : State} (h : a.Only g s) (l : Lane) (c : TimedHold)
    (hF : Foot.le ⟨[.hold, .boot], [], false⟩ g = true) :
    OutOnly g a (execLaneResetRelease l c s) := by
  unfold execLaneResetRelease
  repeat' (first | with_reducible assumption | ((with_reducible refine Foot.le_trans ?_ hF); decide) | ((with_reducible refine Foot.has_of_le hF ?_); (first | decide | (dsimp only; decide))) | ((with_reducible refine Foot.parts_of_le hF ?_); decide) | lift_lets -underBinder | (intro x; have hx : a.Only g x := (by repeat' (first | with_reducible assumption | ((with_reducible refine Foot.le_trans ?_ hF); decide) | ((with_reducible refine Foot.has_of_le hF ?_); (first | decide | (dsimp only; decide))) | ((with_reducible refine Foot.parts_of_le hF ?_); decide) | lift_lets -underBinder | (with_reducible first | apply State.Only.ite | apply State.Only.done | apply State.Only.hold | apply State.release_only) | (first | split | (dsimp only [x]; split)) | (intro _))); clear_value x) | (intro x; clear_value x) | (with_reducible first | apply State.Only.ite | apply State.Only.done | apply State.Only.hold | apply State.release_only) | split | (intro _))

theorem State.softReset_only {g : Foot} {a s : State} (h : a.Only g s) (l : Lane)
    (hF : Foot.le ⟨[.hv, .lv, .aon, .ofs, .mon, .hold, .boot, .mem, .flash, .shadows, .waiting, .timedHalves, .sess, .answer, .red, .saf, .cls, .trc, .eng, .fbk, .smp, .dcl, .chg, .act, .can, .ring, .bulkLast, .dup, .loopReq, .scrub, .legEvents], [], true⟩ g = true) :
    a.Only g (State.softReset s l) := by
  unfold State.softReset
  repeat' (first | with_reducible assumption | ((with_reducible refine Foot.le_trans ?_ hF); decide) | ((with_reducible refine Foot.has_of_le hF ?_); (first | decide | (dsimp only; decide))) | ((with_reducible refine Foot.parts_of_le hF ?_); decide) | (with_reducible exact Foot.has_of_any hF rfl) | (with_reducible exact Or.inl (Foot.any_of_le hF rfl)) | (with_reducible first | apply State.Only.ite | apply State.enterReset_only) | (intro _))

theorem execSoftReset_only {g : Foot} {a s : State} (h : a.Only g s) (l : Lane)
    (hF : Foot.le ⟨[.hv, .lv, .aon, .ofs, .mon, .hold, .boot, .mem, .flash, .shadows, .waiting, .timedHalves, .sess, .answer, .red, .saf, .cls, .trc, .eng, .fbk, .smp, .dcl, .chg, .act, .can, .ring, .bulkLast, .dup, .loopReq, .scrub, .legEvents], [], true⟩ g = true) :
    OutOnly g a (execSoftReset l s) := by
  unfold execSoftReset
  repeat' (first | with_reducible assumption | ((with_reducible refine Foot.le_trans ?_ hF); decide) | ((with_reducible refine Foot.has_of_le hF ?_); (first | decide | (dsimp only; decide))) | ((with_reducible refine Foot.parts_of_le hF ?_); decide) | (with_reducible exact Foot.has_of_any hF rfl) | (with_reducible exact Or.inl (Foot.any_of_le hF rfl)) | (with_reducible first | apply State.Only.done | apply State.softReset_only) | (intro _))

theorem State.warmRestart_only {g : Foot} {a s : State} (h : a.Only g s) (l : Lane)
    (hF : Foot.le ⟨[.boot], [0x04], false⟩ g = true) :
    a.Only g (State.warmRestart s l) := by
  unfold State.warmRestart
  repeat' (first | with_reducible assumption | ((with_reducible refine Foot.le_trans ?_ hF); decide) | ((with_reducible refine Foot.has_of_le hF ?_); (first | decide | (dsimp only; decide))) | ((with_reducible refine Foot.parts_of_le hF ?_); decide) | (with_reducible first | apply State.Only.ite | apply State.Only.boot | apply State.Only.bump) | (intro _))

theorem execWarmRestart_only {g : Foot} {a s : State} (h : a.Only g s) (l : Lane)
    (hF : Foot.le ⟨[.boot], [0x04], false⟩ g = true) :
    OutOnly g a (execWarmRestart l s) := by
  unfold execWarmRestart
  repeat' (first | with_reducible assumption | ((with_reducible refine Foot.le_trans ?_ hF); decide) | ((with_reducible refine Foot.has_of_le hF ?_); (first | decide | (dsimp only; decide))) | ((with_reducible refine Foot.parts_of_le hF ?_); decide) | (with_reducible first | apply State.Only.done | apply State.warmRestart_only) | (intro _))

theorem execWarmRestartDone_only {g : Foot} {a s : State} (h : a.Only g s) (l : Lane)
    (hF : Foot.le ⟨[.boot], [], false⟩ g = true) :
    OutOnly g a (execWarmRestartDone l s) := by
  unfold execWarmRestartDone
  repeat' (first | with_reducible assumption | ((with_reducible refine Foot.le_trans ?_ hF); decide) | ((with_reducible refine Foot.has_of_le hF ?_); (first | decide | (dsimp only; decide))) | ((with_reducible refine Foot.parts_of_le hF ?_); decide) | (with_reducible first | apply State.Only.ite | apply State.Only.boot | apply State.Only.done) | split | (intro _))

theorem execDevnumSample_only {g : Foot} {a s : State} (h : a.Only g s) (s1 : Straps) (s2 : Straps) (s3 : Straps) (v33Low : Bool)
    (hF : Foot.le ⟨[.hv, .aon, .mon], [], false⟩ g = true) :
    OutOnly g a (execDevnumSample s1 s2 s3 v33Low s) := by
  unfold execDevnumSample
  repeat' (first | with_reducible assumption | ((with_reducible refine Foot.le_trans ?_ hF); decide) | ((with_reducible refine Foot.has_of_le hF ?_); (first | decide | (dsimp only; decide))) | ((with_reducible refine Foot.parts_of_le hF ?_); decide) | (exact ⟨by decide, by decide⟩) | (exact Or.inr (fun _ => rfl)) | lift_lets -underBinder | (intro x; have hx : a.Only g x := (by repeat' (first | with_reducible assumption | ((with_reducible refine Foot.le_trans ?_ hF); decide) | ((with_reducible refine Foot.has_of_le hF ?_); (first | decide | (dsimp only; decide))) | ((with_reducible refine Foot.parts_of_le hF ?_); decide) | (exact ⟨by decide, by decide⟩) | (exact Or.inr (fun _ => rfl)) | lift_lets -underBinder | (with_reducible first | apply State.Only.ite | apply State.Only.aon | apply State.Only.done | apply State.Only.levelEv | apply State.Only.mon | apply State.holdSet_only) | (first | split | (dsimp only [x]; split)) | (intro _))); clear_value x) | (intro x; clear_value x) | (with_reducible first | apply State.Only.ite | apply State.Only.aon | apply State.Only.done | apply State.Only.levelEv | apply State.Only.mon | apply State.holdSet_only) | split | (intro _))

theorem State.abandonSlot_only {g : Foot} {a s : State} (h : a.Only g s) (l : Lane)
    (hF : Foot.le ⟨[.boot], [], false⟩ g = true) :
    a.Only g (State.abandonSlot s l) := by
  unfold State.abandonSlot
  repeat' (first | with_reducible assumption | ((with_reducible refine Foot.le_trans ?_ hF); decide) | ((with_reducible refine Foot.has_of_le hF ?_); (first | decide | (dsimp only; decide))) | ((with_reducible refine Foot.parts_of_le hF ?_); decide) | (exact ⟨by decide, by decide⟩) | lift_lets -underBinder | (intro x; have hx : a.Only g x := (by repeat' (first | with_reducible assumption | ((with_reducible refine Foot.le_trans ?_ hF); decide) | ((with_reducible refine Foot.has_of_le hF ?_); (first | decide | (dsimp only; decide))) | ((with_reducible refine Foot.parts_of_le hF ?_); decide) | (exact ⟨by decide, by decide⟩) | lift_lets -underBinder | (with_reducible first | apply State.Only.ite | apply State.Only.boot | apply State.Only.levelEv) | (intro _))); clear_value x) | (intro x; clear_value x) | (with_reducible first | apply State.Only.ite | apply State.Only.boot | apply State.Only.levelEv) | (intro _))

theorem execFlashReadPassDone_only {g : Foot} {a s : State} (h : a.Only g s) (l : Lane) (r : ImageRead)
    (hF : Foot.le ⟨[.boot], [], false⟩ g = true) :
    OutOnly g a (execFlashReadPassDone l r s) := by
  unfold execFlashReadPassDone
  repeat' (first | with_reducible assumption | ((with_reducible refine Foot.le_trans ?_ hF); decide) | ((with_reducible refine Foot.has_of_le hF ?_); (first | decide | (dsimp only; decide))) | ((with_reducible refine Foot.parts_of_le hF ?_); decide) | lift_lets -underBinder | (intro x; have hx : a.Only g x := (by repeat' (first | with_reducible assumption | ((with_reducible refine Foot.le_trans ?_ hF); decide) | ((with_reducible refine Foot.has_of_le hF ?_); (first | decide | (dsimp only; decide))) | ((with_reducible refine Foot.parts_of_le hF ?_); decide) | lift_lets -underBinder | (with_reducible first | apply State.Only.ite | apply State.Only.boot | apply State.Only.done | apply State.abandonSlot_only) | (first | split | (dsimp only [x]; split)) | (intro _))); clear_value x) | (intro x; clear_value x) | (with_reducible first | apply State.Only.ite | apply State.Only.boot | apply State.Only.done | apply State.abandonSlot_only) | split | (intro _))

theorem execImageVerify_only {g : Foot} {a s : State} (h : a.Only g s) (l : Lane) (sigOk : Bool)
    (hF : Foot.le ⟨[.boot], [], false⟩ g = true) :
    OutOnly g a (execImageVerify l sigOk s) := by
  unfold execImageVerify
  repeat' (first | with_reducible assumption | ((with_reducible refine Foot.le_trans ?_ hF); decide) | ((with_reducible refine Foot.has_of_le hF ?_); (first | decide | (dsimp only; decide))) | ((with_reducible refine Foot.parts_of_le hF ?_); decide) | lift_lets -underBinder | (intro x; have hx : a.Only g x := (by repeat' (first | with_reducible assumption | ((with_reducible refine Foot.le_trans ?_ hF); decide) | ((with_reducible refine Foot.has_of_le hF ?_); (first | decide | (dsimp only; decide))) | ((with_reducible refine Foot.parts_of_le hF ?_); decide) | lift_lets -underBinder | (with_reducible first | apply State.Only.ite | apply State.Only.boot | apply State.Only.done | apply State.abandonSlot_only) | (first | split | (dsimp only [x]; split)) | (intro _))); clear_value x) | (intro x; clear_value x) | (with_reducible first | apply State.Only.ite | apply State.Only.boot | apply State.Only.done | apply State.abandonSlot_only) | split | (intro _))

theorem execDroopEntry_only {g : Foot} {a s : State} (h : a.Only g s) (l : Lane)
    (hF : Foot.le ⟨[], [0x03, 0x10], false⟩ g = true) :
    OutOnly g a (execDroopEntry l s) := by
  unfold execDroopEntry
  repeat' (first | with_reducible assumption | ((with_reducible refine Foot.le_trans ?_ hF); decide) | ((with_reducible refine Foot.has_of_le hF ?_); (first | decide | (dsimp only; decide))) | ((with_reducible refine Foot.parts_of_le hF ?_); decide) | (exact ⟨by decide, by decide⟩) | lift_lets -underBinder | (intro x; have hx : a.Only g x := (by repeat' (first | with_reducible assumption | ((with_reducible refine Foot.le_trans ?_ hF); decide) | ((with_reducible refine Foot.has_of_le hF ?_); (first | decide | (dsimp only; decide))) | ((with_reducible refine Foot.parts_of_le hF ?_); decide) | (exact ⟨by decide, by decide⟩) | lift_lets -underBinder | (with_reducible first | apply State.Only.ite | apply State.Only.bump | apply State.Only.done | apply State.Only.levelEv | apply State.Only.putFlag) | (first | split | (dsimp only [x]; split)) | (intro _))); clear_value x) | (intro x; clear_value x) | (with_reducible first | apply State.Only.ite | apply State.Only.bump | apply State.Only.done | apply State.Only.levelEv | apply State.Only.putFlag) | split | (intro _))

theorem execDroopRelease_only {g : Foot} {a s : State} (h : a.Only g s) (l : Lane)
    (hF : Foot.le ⟨[], [0x03], false⟩ g = true) :
    OutOnly g a (execDroopRelease l s) := by
  unfold execDroopRelease
  repeat' (first | with_reducible assumption | ((with_reducible refine Foot.le_trans ?_ hF); decide) | ((with_reducible refine Foot.has_of_le hF ?_); (first | decide | (dsimp only; decide))) | ((with_reducible refine Foot.parts_of_le hF ?_); decide) | (exact ⟨by decide, by decide⟩) | lift_lets -underBinder | (intro x; have hx : a.Only g x := (by repeat' (first | with_reducible assumption | ((with_reducible refine Foot.le_trans ?_ hF); decide) | ((with_reducible refine Foot.has_of_le hF ?_); (first | decide | (dsimp only; decide))) | ((with_reducible refine Foot.parts_of_le hF ?_); decide) | (exact ⟨by decide, by decide⟩) | lift_lets -underBinder | (with_reducible first | apply State.Only.ite | apply State.Only.done | apply State.Only.levelEv | apply State.Only.putFlag) | (first | split | (dsimp only [x]; split)) | (intro _))); clear_value x) | (intro x; clear_value x) | (with_reducible first | apply State.Only.ite | apply State.Only.done | apply State.Only.levelEv | apply State.Only.putFlag) | split | (intro _))

theorem execXtalFail_only {g : Foot} {a s : State} (h : a.Only g s) (l : Lane)
    (hF : Foot.le ⟨[.hv, .lv, .aon, .ofs, .mon, .hold, .boot, .mem, .flash, .shadows, .waiting, .timedHalves, .sess, .answer, .red, .saf, .cls, .trc, .eng, .fbk, .smp, .dcl, .chg, .act, .can, .ring, .bulkLast, .dup, .loopReq, .scrub, .legEvents], [], true⟩ g = true) :
    OutOnly g a (execXtalFail l s) := by
  unfold execXtalFail
  repeat' (first | with_reducible assumption | ((with_reducible refine Foot.le_trans ?_ hF); decide) | ((with_reducible refine Foot.has_of_le hF ?_); (first | decide | (dsimp only; decide))) | ((with_reducible refine Foot.parts_of_le hF ?_); decide) | (exact ⟨by decide, by decide⟩) | (with_reducible exact Foot.has_of_any hF rfl) | (with_reducible exact Or.inl (Foot.any_of_le hF rfl)) | lift_lets -underBinder | (intro x; have hx : a.Only g x := (by repeat' (first | with_reducible assumption | ((with_reducible refine Foot.le_trans ?_ hF); decide) | ((with_reducible refine Foot.has_of_le hF ?_); (first | decide | (dsimp only; decide))) | ((with_reducible refine Foot.parts_of_le hF ?_); decide) | (exact ⟨by decide, by decide⟩) | (with_reducible exact Foot.has_of_any hF rfl) | (with_reducible exact Or.inl (Foot.any_of_le hF rfl)) | lift_lets -underBinder | (with_reducible first | apply State.Only.done | apply State.Only.monEv | apply State.Only.pulseEv | apply State.enterReset_only) | (intro _))); clear_value x) | (intro x; clear_value x) | (with_reducible first | apply State.Only.done | apply State.Only.monEv | apply State.Only.pulseEv | apply State.enterReset_only) | (intro _))

theorem State.clockReset_only {g : Foot} {a s : State} (h : a.Only g s) (l : Lane)
    (hF : Foot.le ⟨[.hv, .lv, .aon, .ofs, .mon, .hold, .boot, .mem, .flash, .shadows, .waiting, .timedHalves, .sess, .answer, .red, .saf, .cls, .trc, .eng, .fbk, .smp, .dcl, .chg, .act, .can, .ring, .bulkLast, .dup, .loopReq, .scrub, .legEvents], [], true⟩ g = true) :
    a.Only g (State.clockReset s l) := by
  unfold State.clockReset
  repeat' (first | with_reducible assumption | ((with_reducible refine Foot.le_trans ?_ hF); decide) | ((with_reducible refine Foot.has_of_le hF ?_); (first | decide | (dsimp only; decide))) | ((with_reducible refine Foot.parts_of_le hF ?_); decide) | (exact ⟨by decide, by decide⟩) | (with_reducible exact Foot.has_of_any hF rfl) | (with_reducible exact Or.inl (Foot.any_of_le hF rfl)) | lift_lets -underBinder | (intro x; have hx : a.Only g x := (by repeat' (first | with_reducible assumption | ((with_reducible refine Foot.le_trans ?_ hF); decide) | ((with_reducible refine Foot.has_of_le hF ?_); (first | decide | (dsimp only; decide))) | ((with_reducible refine Foot.parts_of_le hF ?_); decide) | (exact ⟨by decide, by decide⟩) | (with_reducible exact Foot.has_of_any hF rfl) | (with_reducible exact Or.inl (Foot.any_of_le hF rfl)) | lift_lets -underBinder | (with_reducible first | apply State.Only.both | apply State.Only.pulseEv | apply State.declare_only | apply State.enterReset_only) | (intro _))); clear_value x) | (intro x; clear_value x) | (with_reducible first | apply State.Only.both | apply State.Only.pulseEv | apply State.declare_only | apply State.enterReset_only) | (intro _))

theorem State.clockShow_only {g : Foot} {a s : State} (h : a.Only g s) (lock : Bool) (l : Lane) (ppm : Int) (monOk : Bool) (sees : Bool)
    (hF : Foot.le ⟨[], [0x02], false⟩ g = true) :
    a.Only g (State.clockShow s lock l ppm monOk sees) := by
  unfold State.clockShow
  repeat' (first | with_reducible assumption | ((with_reducible refine Foot.le_trans ?_ hF); decide) | ((with_reducible refine Foot.has_of_le hF ?_); (first | decide | (dsimp only; decide))) | ((with_reducible refine Foot.parts_of_le hF ?_); decide) | lift_lets -underBinder | (intro x; have hx : a.Only g x := (by repeat' (first | with_reducible assumption | ((with_reducible refine Foot.le_trans ?_ hF); decide) | ((with_reducible refine Foot.has_of_le hF ?_); (first | decide | (dsimp only; decide))) | ((with_reducible refine Foot.parts_of_le hF ?_); decide) | lift_lets -underBinder | (with_reducible first | apply State.Only.ite | apply State.Only.put | apply State.Only.putFlag) | (intro _))); clear_value x) | (intro x; clear_value x) | (with_reducible first | apply State.Only.ite | apply State.Only.put | apply State.Only.putFlag) | (intro _))

theorem State.clockApart_only {g : Foot} {a s : State} (h : a.Only g s)
    (hF : Foot.le ⟨[], [0x02], false⟩ g = true) :
    a.Only g (State.clockApart s) := by
  unfold State.clockApart
  repeat' (first | with_reducible assumption | ((with_reducible refine Foot.le_trans ?_ hF); decide) | ((with_reducible refine Foot.has_of_le hF ?_); (first | decide | (dsimp only; decide))) | ((with_reducible refine Foot.parts_of_le hF ?_); decide) | (exact ⟨by decide, by decide⟩) | lift_lets -underBinder | (intro x; have hx : a.Only g x := (by repeat' (first | with_reducible assumption | ((with_reducible refine Foot.le_trans ?_ hF); decide) | ((with_reducible refine Foot.has_of_le hF ?_); (first | decide | (dsimp only; decide))) | ((with_reducible refine Foot.parts_of_le hF ?_); decide) | (exact ⟨by decide, by decide⟩) | lift_lets -underBinder | (with_reducible first | apply State.Only.both | apply State.Only.levelEv | apply State.Only.pulseEv | apply State.Only.putFlag) | (intro _))); clear_value x) | (intro x; clear_value x) | (with_reducible first | apply State.Only.both | apply State.Only.levelEv | apply State.Only.pulseEv | apply State.Only.putFlag) | (intro _))

theorem State.clockVerdict_only {g : Foot} {a s : State} (h : a.Only g s) (devA : Bool) (devB : Bool)
    (hF : Foot.le ⟨[.hv, .lv, .aon, .ofs, .mon, .hold, .boot, .mem, .flash, .shadows, .waiting, .timedHalves, .sess, .answer, .red, .saf, .cls, .trc, .eng, .fbk, .smp, .dcl, .chg, .act, .can, .ring, .bulkLast, .dup, .loopReq, .scrub, .legEvents], [], true⟩ g = true) :
    a.Only g (State.clockVerdict s devA devB) := by
  unfold State.clockVerdict
  repeat' (first | with_reducible assumption | ((with_reducible refine Foot.le_trans ?_ hF); decide) | ((with_reducible refine Foot.has_of_le hF ?_); (first | decide | (dsimp only; decide))) | ((with_reducible refine Foot.parts_of_le hF ?_); decide) | (exact ⟨by decide, by decide⟩) | (with_reducible exact Foot.has_of_any hF rfl) | (with_reducible exact Or.inl (Foot.any_of_le hF rfl)) | lift_lets -underBinder | (intro x; have hx : a.Only g x := (by repeat' (first | with_reducible assumption | ((with_reducible refine Foot.le_trans ?_ hF); decide) | ((with_reducible refine Foot.has_of_le hF ?_); (first | decide | (dsimp only; decide))) | ((with_reducible refine Foot.parts_of_le hF ?_); decide) | (exact ⟨by decide, by decide⟩) | (with_reducible exact Foot.has_of_any hF rfl) | (with_reducible exact Or.inl (Foot.any_of_le hF rfl)) | lift_lets -underBinder | (with_reducible first | apply State.Only.ite | apply State.Only.monEv | apply State.clockReset_only) | (intro _))); clear_value x) | (intro x; clear_value x) | (with_reducible first | apply State.Only.ite | apply State.Only.monEv | apply State.clockReset_only) | (intro _))

theorem State.clockMon_only {g : Foot} {a s : State} (h : a.Only g s) (points : Bool) (clears : Bool)
    (hF : Foot.le ⟨[.mon], [], false⟩ g = true) :
    a.Only g (State.clockMon s points clears) := by
  unfold State.clockMon
  repeat' (first | with_reducible assumption | ((with_reducible refine Foot.le_trans ?_ hF); decide) | ((with_reducible refine Foot.has_of_le hF ?_); (first | decide | (dsimp only; decide))) | ((with_reducible refine Foot.parts_of_le hF ?_); decide) | (exact ⟨by decide, by decide⟩) | (exact Or.inr (fun _ => rfl)) | lift_lets -underBinder | (intro x; have hx : a.Only g x := (by repeat' (first | with_reducible assumption | ((with_reducible refine Foot.le_trans ?_ hF); decide) | ((with_reducible refine Foot.has_of_le hF ?_); (first | decide | (dsimp only; decide))) | ((with_reducible refine Foot.parts_of_le hF ?_); decide) | (exact ⟨by decide, by decide⟩) | (exact Or.inr (fun _ => rfl)) | lift_lets -underBinder | (with_reducible first | apply State.Only.ite | apply State.Only.mon | apply State.Only.monLevel) | (intro _))); clear_value x) | (intro x; clear_value x) | (with_reducible first | apply State.Only.ite | apply State.Only.mon | apply State.Only.monLevel) | (intro _))

theorem State.clockMonLost_only {g : Foot} {a s : State} (h : a.Only g s) (bad : Bool)
    (hF : Foot.le ⟨[], [0x40], false⟩ g = true) :
    a.Only g (State.clockMonLost s bad) := by
  unfold State.clockMonLost
  repeat' (first | with_reducible assumption | ((with_reducible refine Foot.le_trans ?_ hF); decide) | ((with_reducible refine Foot.has_of_le hF ?_); (first | decide | (dsimp only; decide))) | ((with_reducible refine Foot.parts_of_le hF ?_); decide) | (exact ⟨by decide, by decide⟩) | lift_lets -underBinder | (intro x; have hx : a.Only g x := (by repeat' (first | with_reducible assumption | ((with_reducible refine Foot.le_trans ?_ hF); decide) | ((with_reducible refine Foot.has_of_le hF ?_); (first | decide | (dsimp only; decide))) | ((with_reducible refine Foot.parts_of_le hF ?_); decide) | (exact ⟨by decide, by decide⟩) | lift_lets -underBinder | (with_reducible first | apply State.Only.ite | apply State.Only.both | apply State.Only.levelEv | apply State.Only.putFlag) | (intro _))); clear_value x) | (intro x; clear_value x) | (with_reducible first | apply State.Only.ite | apply State.Only.both | apply State.Only.levelEv | apply State.Only.putFlag) | (intro _))

theorem execClockCheckWindow_only {g : Foot} {a s : State} (h : a.Only g s) (w : ClockWindow)
    (hF : Foot.le ⟨[.hv, .lv, .aon, .ofs, .mon, .hold, .boot, .mem, .flash, .shadows, .waiting, .timedHalves, .sess, .answer, .red, .saf, .cls, .trc, .eng, .fbk, .smp, .dcl, .chg, .act, .can, .ring, .bulkLast, .dup, .loopReq, .scrub, .legEvents], [], true⟩ g = true) :
    OutOnly g a (execClockCheckWindow w s) := by
  unfold execClockCheckWindow
  repeat' (first | with_reducible assumption | ((with_reducible refine Foot.le_trans ?_ hF); decide) | ((with_reducible refine Foot.has_of_le hF ?_); (first | decide | (dsimp only; decide))) | ((with_reducible refine Foot.parts_of_le hF ?_); decide) | (exact ⟨by decide, by decide⟩) | (with_reducible exact Foot.has_of_any hF rfl) | (with_reducible exact Or.inl (Foot.any_of_le hF rfl)) | lift_lets -underBinder | (intro x; have hx : a.Only g x := (by repeat' (first | with_reducible assumption | ((with_reducible refine Foot.le_trans ?_ hF); decide) | ((with_reducible refine Foot.has_of_le hF ?_); (first | decide | (dsimp only; decide))) | ((with_reducible refine Foot.parts_of_le hF ?_); decide) | (exact ⟨by decide, by decide⟩) | (with_reducible exact Foot.has_of_any hF rfl) | (with_reducible exact Or.inl (Foot.any_of_le hF rfl)) | lift_lets -underBinder | (with_reducible first | apply State.Only.ite | apply State.Only.both | apply State.Only.done | apply State.Only.levelEv | apply State.clockApart_only | apply State.clockMonLost_only | apply State.clockMon_only | apply State.clockShow_only | apply State.clockVerdict_only) | (first | split | (dsimp only [x]; split)) | (intro _))); clear_value x) | (intro x; clear_value x) | (with_reducible first | apply State.Only.ite | apply State.Only.both | apply State.Only.done | apply State.Only.levelEv | apply State.clockApart_only | apply State.clockMonLost_only | apply State.clockMon_only | apply State.clockShow_only | apply State.clockVerdict_only) | split | (intro _))

theorem execPeerReset_only {g : Foot} {a s : State} (h : a.Only g s) (l : Lane)
    (hF : Foot.le ⟨[], [], false⟩ g = true) :
    OutOnly g a (execPeerReset l s) := by
  unfold execPeerReset
  repeat' (first | with_reducible assumption | ((with_reducible refine Foot.le_trans ?_ hF); decide) | ((with_reducible refine Foot.has_of_le hF ?_); (first | decide | (dsimp only; decide))) | ((with_reducible refine Foot.parts_of_le hF ?_); decide) | (exact ⟨by decide, by decide⟩) | (with_reducible first | apply State.Only.ite | apply State.Only.done | apply State.Only.levelEv) | split | (intro _))

theorem execPeerResetStuck_only {g : Foot} {a s : State} (h : a.Only g s) (l : Lane)
    (hF : Foot.le ⟨[], [], false⟩ g = true) :
    OutOnly g a (execPeerResetStuck l s) := by
  unfold execPeerResetStuck
  repeat' (first | with_reducible assumption | ((with_reducible refine Foot.le_trans ?_ hF); decide) | ((with_reducible refine Foot.has_of_le hF ?_); (first | decide | (dsimp only; decide))) | ((with_reducible refine Foot.parts_of_le hF ?_); decide) | (exact ⟨by decide, by decide⟩) | (with_reducible first | apply State.Only.ite | apply State.Only.done | apply State.Only.levelEv) | split | (intro _))

end Sys2Proof.Machine
end

