-- ==== Sys2Proof/Laws/Only/Access.lean ====
section
/-! SUPPORT. What the operations of Access may change. -/
namespace Sys2Proof.Machine
set_option linter.all false
set_option Elab.async false

theorem State.reply_only {g : Foot} {a s : State} (h : a.Only g s) (l : Lane) (st : Status) (d : Word)
    (hF : Foot.le ⟨[.answer], [], false⟩ g = true) :
    a.Only g (State.reply s l st d) := by
  unfold State.reply
  repeat' (first | with_reducible assumption | ((with_reducible refine Foot.le_trans ?_ hF); decide) | ((with_reducible refine Foot.has_of_le hF ?_); (first | decide | (dsimp only; decide))) | ((with_reducible refine Foot.parts_of_le hF ?_); decide) | (intro x p hp; cases p <;> first | rfl | trivial | exact absurd (Foot.parts_of_le hF (by decide)) hp) | (exact Or.inr (fun _ => rfl)) | (with_reducible first | apply State.Only.lane) | (intro _))

theorem State.reject_only {g : Foot} {a s : State} (h : a.Only g s) (l : Lane) (st : Status)
    (hF : Foot.le ⟨[.answer], [], false⟩ g = true) :
    a.Only g (State.reject s l st) := by
  unfold State.reject
  repeat' (first | with_reducible assumption | ((with_reducible refine Foot.le_trans ?_ hF); decide) | ((with_reducible refine Foot.has_of_le hF ?_); (first | decide | (dsimp only; decide))) | ((with_reducible refine Foot.parts_of_le hF ?_); decide) | (exact ⟨by decide, by decide⟩) | lift_lets -underBinder | (intro x; have hx : a.Only g x := (by repeat' (first | with_reducible assumption | ((with_reducible refine Foot.le_trans ?_ hF); decide) | ((with_reducible refine Foot.has_of_le hF ?_); (first | decide | (dsimp only; decide))) | ((with_reducible refine Foot.parts_of_le hF ?_); decide) | (exact ⟨by decide, by decide⟩) | lift_lets -underBinder | (with_reducible first | apply State.Only.pulseEv | apply State.reply_only) | (first | split | (dsimp only [x]; split)) | (intro _))); clear_value x) | (intro x; clear_value x) | (with_reducible first | apply State.Only.pulseEv | apply State.reply_only) | split | (intro _))

theorem State.turnDown_only {g : Foot} {a s : State} (h : a.Only g s) (l : Lane) (r : Rej)
    (hF : Foot.le ⟨[.hv, .answer, .trc, .loopReq], [0x10, 0x11, 0x40], false⟩ g = true) :
    a.Only g (State.turnDown s l r) := by
  unfold State.turnDown
  repeat' (first | with_reducible assumption | ((with_reducible refine Foot.le_trans ?_ hF); decide) | ((with_reducible refine Foot.has_of_le hF ?_); (first | decide | (dsimp only; decide))) | ((with_reducible refine Foot.parts_of_le hF ?_); decide) | (exact ⟨by decide, by decide⟩) | (exact E.CAN_TXQ_FULL_proper _) | lift_lets -underBinder | (intro x; have hx : a.Only g x := (by repeat' (first | with_reducible assumption | ((with_reducible refine Foot.le_trans ?_ hF); decide) | ((with_reducible refine Foot.has_of_le hF ?_); (first | decide | (dsimp only; decide))) | ((with_reducible refine Foot.parts_of_le hF ?_); decide) | (exact ⟨by decide, by decide⟩) | (exact E.CAN_TXQ_FULL_proper _) | lift_lets -underBinder | (with_reducible first | apply State.Only.bump | apply State.Only.pulseEv | apply State.Only.put | apply State.reject_only) | (first | split | (dsimp only [x]; split)) | (intro _))); clear_value x) | (intro x; clear_value x) | (with_reducible first | apply State.Only.bump | apply State.Only.pulseEv | apply State.Only.put | apply State.reject_only) | split | (intro _))

theorem State.settleWrite_only {g : Foot} {a s : State} (h : a.Only g s) (l : Lane) (e : Eff) (he : EffOnly g a e)
    (hF : Foot.le ⟨[.hv, .answer, .trc, .loopReq], [0x10, 0x11, 0x40], false⟩ g = true) : a.Only g (State.settleWrite s l e) := by
  cases e with
  | ok t => exact State.reply_only (he t rfl) _ _ _ (Foot.le_trans (by decide) hF)
  | error r => exact State.turnDown_only h _ _ (Foot.le_trans (by decide) hF)

theorem State.writing_only {g : Foot} {a s : State} (h : a.Only g s) (l : Lane) (addr : Nat) (k : State → State) (hk : ∀ s, a.Only g s → a.Only g (k s))
    (hF : Foot.le ⟨[.answer], [], false⟩ g = true) :
    a.Only g (State.writing s l addr k) := by
  unfold State.writing
  repeat' (first | with_reducible assumption | ((with_reducible refine Foot.le_trans ?_ hF); decide) | ((with_reducible refine Foot.has_of_le hF ?_); (first | decide | (dsimp only; decide))) | ((with_reducible refine Foot.parts_of_le hF ?_); decide) | (with_reducible first | apply State.Only.ite | apply State.reject_only | apply hk) | split | (intro _))

end Sys2Proof.Machine
end

