-- ==== Sys2Proof/Laws/Only/Gate.lean ====
section
/-! SUPPORT. What the operations of Gate may change. -/
namespace Sys2Proof.Machine
set_option linter.all false
set_option Elab.async false

theorem legPages_lt {leg p : Nat} (h : leg < 23) (hp : p ∈ legPages leg) : typeAt (legFld p).addr = 0x20 ∨ typeAt (legFld p).addr = 0x21 :=
  (by decide : ∀ leg : Fin 23, ∀ p ∈ legPages leg.val, typeAt (legFld p).addr = 0x20 ∨ typeAt (legFld p).addr = 0x21) ⟨leg, h⟩ p hp

theorem legCnt_type : ∀ n : Fin 34, ∀ p ∈ legPages (legOf n), typeAt (p + 0x068) = 0x20 := by decide

theorem lvLegCnt_type : ∀ n : Fin 12, ∀ p ∈ legPages (lvLegOf n), typeAt (p + 0x04C) = 0x21 := by decide

theorem State.setLegBits_only {g : Foot} {a s : State} (h : a.Only g s) (leg v : Nat) (hleg : leg < 23)
    (hF : Foot.le ⟨[], [0x20, 0x21], false⟩ g = true) : a.Only g (State.setLegBits s leg v) := by
  unfold State.setLegBits
  refine State.Only.foldOf _ _ h (fun t p hp ht => State.Only.mput ht _ _ (Foot.has_of_le hF ?_))
  rcases legPages_lt hleg hp with e | e
  · exact Foot.has_type e (by decide)
  · exact Foot.has_type e (by decide)

theorem legEv_proper (leg : Nat) (h : leg < 23) : State.EvOnly.Proper (legEv leg) := by
  have : ∀ leg : Fin 23, (legEv leg.val).page % 0x1000 = 0 ∧ (legEv leg.val).bit < 32 := by decide
  exact this ⟨leg, h⟩

theorem legOf_lt (n : Fin 34) : legOf n < 23 := by
  have := n.isLt
  simp only [legOf]
  omega

theorem lvLegOf_lt (n : Fin 12) : lvLegOf n < 23 := by
  have := n.isLt
  simp only [lvLegOf]
  omega

theorem State.legConsequence_only {g : Foot} {a s : State} (h : a.Only g s) (leg : Nat) (o : Lane)
    (hF : Foot.le ⟨[.hv, .lv, .aon, .mon, .trc, .chg, .loopReq], [0x10, 0x11, 0x30, 0x31, 0x32, 0x33, 0x34, 0x50], false⟩ g = true) :
    a.Only g (State.legConsequence s leg o) := by
  unfold State.legConsequence
  repeat' (first | with_reducible assumption | ((with_reducible refine Foot.le_trans ?_ hF); decide) | ((with_reducible refine Foot.has_of_le hF ?_); (first | (simp (disch := first | omega | decide) only [F.ACT_STAT_STATE_has]; done) | decide | (dsimp only; decide))) | ((with_reducible refine Foot.parts_of_le hF ?_); decide) | (first | exact legOf_lt _ | exact lvLegOf_lt _ | (show _ < 23; omega)) | lift_lets -underBinder | (intro x; have hx : a.Only g x := (by repeat' (first | with_reducible assumption | ((with_reducible refine Foot.le_trans ?_ hF); decide) | ((with_reducible refine Foot.has_of_le hF ?_); (first | (simp (disch := first | omega | decide) only [F.ACT_STAT_STATE_has]; done) | decide | (dsimp only; decide))) | ((with_reducible refine Foot.parts_of_le hF ?_); decide) | (first | exact legOf_lt _ | exact lvLegOf_lt _ | (show _ < 23; omega)) | lift_lets -underBinder | (with_reducible first | apply State.Only.ite | apply State.actFault_only | apply State.chgFault_only | apply State.phaseStop_only | apply State.setFault_only) | (first | split | (dsimp only [x]; split)) | (intro _))); clear_value x) | (intro x; clear_value x) | (with_reducible first | apply State.Only.ite | apply State.actFault_only | apply State.chgFault_only | apply State.phaseStop_only | apply State.setFault_only) | split | (intro _))

theorem State.legFault_only {g : Foot} {a s : State} (h : a.Only g s) (l : Lane) (leg : Nat) (hleg : leg < 23)
    (hF : Foot.le ⟨[.hv, .lv, .aon, .mon, .trc, .chg, .loopReq], [0x10, 0x11, 0x20, 0x21, 0x30, 0x31, 0x32, 0x33, 0x34, 0x40, 0x50], false⟩ g = true) : a.Only g (State.legFault s l leg) := by
  unfold State.legFault
  refine State.Only.ite (fun _ => h) (fun _ => ?_)
  have k := State.Only.levelEv (State.setLegBits_only h leg (s.legBits leg ||| (1 <<< l.idx)) hleg (Foot.le_trans (by decide) hF))
    .A (legEv leg) true (legEv_proper leg hleg)
  refine State.Only.ite (fun _ => State.legConsequence_only k _ _ (Foot.le_trans (by decide) hF)) (fun _ => State.Only.ite (fun _ => ?_) (fun _ => k))
  exact State.Only.putFlag k _ _ _ (Foot.has_of_le hF (by decide))

theorem State.legEvent_only {g : Foot} {a s : State} (h : a.Only g s) (l : Lane) (leg : Nat) (hleg : leg < 23)
    (hF : Foot.le ⟨[.hv, .lv, .aon, .mon, .trc, .chg, .loopReq, .legEvents], [0x10, 0x11, 0x20, 0x21, 0x30, 0x31, 0x32, 0x33, 0x34, 0x40, 0x50], false⟩ g = true) : a.Only g (State.legEvent s l leg) := by
  unfold State.legEvent
  have k : a.Only g (s.modLane l (fun x => { x with legEvents := (leg, s.time) :: x.legEvents.filter (fun e => s.time < e.2 + ms 1) })) := by
    refine State.Only.part .legEvents h l _ (fun x p hp => ?_) (fun _ => rfl) (Foot.parts_of_le hF (by decide))
    cases p <;> first | rfl | trivial | exact absurd rfl hp
  exact State.Only.ite (fun _ => State.legFault_only k l leg hleg (Foot.le_trans (by decide) hF)) (fun _ => k)

theorem State.setRails_only {g : Foot} {a s : State} (h : a.Only g s) (n : Fin 34) (vp : Bool) (vn : Bool)
    (hF : Foot.le ⟨[.hv], [], false⟩ g = true) :
    a.Only g (State.setRails s n vp vn) := by
  unfold State.setRails
  repeat' (first | with_reducible assumption | ((with_reducible refine Foot.le_trans ?_ hF); decide) | ((with_reducible refine Foot.has_of_le hF ?_); (first | decide | (dsimp only; decide))) | ((with_reducible refine Foot.parts_of_le hF ?_); decide) | (exact ⟨by decide, by decide⟩) | (exact E.GDH_UVLO_N_proper _) | (exact E.GDH_UVLO_P_proper _) | lift_lets -underBinder | (intro x; have hx : a.Only g x := (by repeat' (first | with_reducible assumption | ((with_reducible refine Foot.le_trans ?_ hF); decide) | ((with_reducible refine Foot.has_of_le hF ?_); (first | decide | (dsimp only; decide))) | ((with_reducible refine Foot.parts_of_le hF ?_); decide) | (exact ⟨by decide, by decide⟩) | (exact E.GDH_UVLO_N_proper _) | (exact E.GDH_UVLO_P_proper _) | lift_lets -underBinder | (with_reducible first | apply State.Only.hv | apply State.Only.levelEv) | (intro _))); clear_value x) | (intro x; clear_value x) | (with_reducible first | apply State.Only.hv | apply State.Only.levelEv) | (intro _))

theorem execIslandUsable_only {g : Foot} {a s : State} (h : a.Only g s) (i : Island)
    (hF : Foot.le ⟨[.hv, .lv, .sns], [], false⟩ g = true) :
    OutOnly g a (execIslandUsable i s) := by
  unfold execIslandUsable
  repeat' (first | with_reducible assumption | ((with_reducible refine Foot.le_trans ?_ hF); decide) | ((with_reducible refine Foot.has_of_le hF ?_); (first | decide | (dsimp only; decide))) | ((with_reducible refine Foot.parts_of_le hF ?_); decide) | (exact ⟨by decide, by decide⟩) | (exact E.GDH_STREAM_proper _) | (exact E.GDL_UVLO_proper _) | lift_lets -underBinder | (intro x; have hx : a.Only g x := (by repeat' (first | with_reducible assumption | ((with_reducible refine Foot.le_trans ?_ hF); decide) | ((with_reducible refine Foot.has_of_le hF ?_); (first | decide | (dsimp only; decide))) | ((with_reducible refine Foot.parts_of_le hF ?_); decide) | (exact ⟨by decide, by decide⟩) | (exact E.GDH_STREAM_proper _) | (exact E.GDL_UVLO_proper _) | lift_lets -underBinder | (with_reducible first | apply State.Only.ite | apply State.Only.done | apply State.Only.hv | apply State.Only.levelEv | apply State.Only.lv | apply State.Only.sns | apply State.placeTraction_only | apply State.setRails_only) | (first | split | (dsimp only [x]; split)) | (intro _))); clear_value x) | (intro x; clear_value x) | (with_reducible first | apply State.Only.ite | apply State.Only.done | apply State.Only.hv | apply State.Only.levelEv | apply State.Only.lv | apply State.Only.sns | apply State.placeTraction_only | apply State.setRails_only) | split | (intro _))

theorem State.islandOut_only {g : Foot} {a s : State} (h : a.Only g s) (n : Fin 34)
    (hF : Foot.le ⟨[.hv, .aon, .mon, .chg, .loopReq], [0x10, 0x30, 0x31, 0x32, 0x33, 0x50], false⟩ g = true) :
    a.Only g (State.islandOut s n) := by
  unfold State.islandOut
  repeat' (first | with_reducible assumption | ((with_reducible refine Foot.le_trans ?_ hF); decide) | ((with_reducible refine Foot.has_of_le hF ?_); (first | decide | (dsimp only; decide))) | ((with_reducible refine Foot.parts_of_le hF ?_); decide) | (with_reducible first | apply State.Only.ite | apply State.chgFault_only | apply State.phaseStop_only) | (intro _))

theorem State.undervolt_only {g : Foot} {a s : State} (h : a.Only g s) (n : Fin 34) (vp : Bool) (vn : Bool)
    (hF : Foot.le ⟨[.hv, .lv, .aon, .mon, .trc, .chg, .loopReq], [0x10, 0x11, 0x20, 0x21, 0x30, 0x31, 0x32, 0x33, 0x34, 0x40, 0x50], false⟩ g = true) :
    a.Only g (State.undervolt s n vp vn) := by
  unfold State.undervolt
  repeat' (first | with_reducible assumption | ((with_reducible refine Foot.le_trans ?_ hF); decide) | ((with_reducible refine Foot.has_of_le hF ?_); (first | (simp (disch := first | omega | decide) only [F.GDH_CNT_UVLO_has]; done) | decide | (dsimp only; decide))) | ((with_reducible refine Foot.parts_of_le hF ?_); decide) | (exact ⟨by decide, by decide⟩) | (first | exact legOf_lt _ | exact lvLegOf_lt _ | (show _ < 23; omega)) | lift_lets -underBinder | (intro x; have hx : a.Only g x := (by repeat' (first | with_reducible assumption | ((with_reducible refine Foot.le_trans ?_ hF); decide) | ((with_reducible refine Foot.has_of_le hF ?_); (first | (simp (disch := first | omega | decide) only [F.GDH_CNT_UVLO_has]; done) | decide | (dsimp only; decide))) | ((with_reducible refine Foot.parts_of_le hF ?_); decide) | (exact ⟨by decide, by decide⟩) | (first | exact legOf_lt _ | exact lvLegOf_lt _ | (show _ < 23; omega)) | lift_lets -underBinder | (with_reducible first | apply State.Only.hv | apply State.Only.mbump | apply State.Only.monEv | apply State.legFault_only | apply State.setRails_only) | (intro _))); clear_value x) | (intro x; clear_value x) | (with_reducible first | apply State.Only.hv | apply State.Only.mbump | apply State.Only.monEv | apply State.legFault_only | apply State.setRails_only) | (intro _))

theorem execUvlo_only {g : Foot} {a s : State} (h : a.Only g s) (n : Fin 34) (vp : Bool) (vn : Bool)
    (hF : Foot.le ⟨[.hv, .lv, .aon, .mon, .trc, .chg, .loopReq], [0x10, 0x11, 0x20, 0x21, 0x30, 0x31, 0x32, 0x33, 0x34, 0x40, 0x50], false⟩ g = true) :
    OutOnly g a (execUvlo n vp vn s) := by
  unfold execUvlo
  repeat' (first | with_reducible assumption | ((with_reducible refine Foot.le_trans ?_ hF); decide) | ((with_reducible refine Foot.has_of_le hF ?_); (first | (simp (disch := first | omega | decide) only [F.GDH_CFG_UVN_SEL_has]; done) | decide | (dsimp only; decide))) | ((with_reducible refine Foot.parts_of_le hF ?_); decide) | lift_lets -underBinder | (intro x; have hx : a.Only g x := (by repeat' (first | with_reducible assumption | ((with_reducible refine Foot.le_trans ?_ hF); decide) | ((with_reducible refine Foot.has_of_le hF ?_); (first | (simp (disch := first | omega | decide) only [F.GDH_CFG_UVN_SEL_has]; done) | decide | (dsimp only; decide))) | ((with_reducible refine Foot.parts_of_le hF ?_); decide) | lift_lets -underBinder | (with_reducible first | apply State.Only.ite | apply State.Only.done | apply State.undervolt_only) | (first | split | (dsimp only [x]; split)) | (intro _))); clear_value x) | (intro x; clear_value x) | (with_reducible first | apply State.Only.ite | apply State.Only.done | apply State.undervolt_only) | split | (intro _))

theorem execUvloRecover_only {g : Foot} {a s : State} (h : a.Only g s) (n : Fin 34)
    (hF : Foot.le ⟨[.hv], [], false⟩ g = true) :
    OutOnly g a (execUvloRecover n s) := by
  unfold execUvloRecover
  repeat' (first | with_reducible assumption | ((with_reducible refine Foot.le_trans ?_ hF); decide) | ((with_reducible refine Foot.has_of_le hF ?_); (first | decide | (dsimp only; decide))) | ((with_reducible refine Foot.parts_of_le hF ?_); decide) | lift_lets -underBinder | (intro x; have hx : a.Only g x := (by repeat' (first | with_reducible assumption | ((with_reducible refine Foot.le_trans ?_ hF); decide) | ((with_reducible refine Foot.has_of_le hF ?_); (first | decide | (dsimp only; decide))) | ((with_reducible refine Foot.parts_of_le hF ?_); decide) | lift_lets -underBinder | (with_reducible first | apply State.Only.ite | apply State.Only.done | apply State.placeTraction_only | apply State.setRails_only) | (first | split | (dsimp only [x]; split)) | (intro _))); clear_value x) | (intro x; clear_value x) | (with_reducible first | apply State.Only.ite | apply State.Only.done | apply State.placeTraction_only | apply State.setRails_only) | split | (intro _))

theorem State.vglLost_only {g : Foot} {a s : State} (h : a.Only g s)
    (hF : Foot.le ⟨[.lv], [], false⟩ g = true) :
    a.Only g (State.vglLost s) := by
  unfold State.vglLost
  repeat' (first | with_reducible assumption | ((with_reducible refine Foot.le_trans ?_ hF); decide) | ((with_reducible refine Foot.has_of_le hF ?_); (first | decide | (dsimp only; decide))) | ((with_reducible refine Foot.parts_of_le hF ?_); decide) | (exact ⟨by decide, by decide⟩) | (exact E.GDL_UVLO_proper _) | lift_lets -underBinder | (intro x; have hx : a.Only g x := (by repeat' (first | with_reducible assumption | ((with_reducible refine Foot.le_trans ?_ hF); decide) | ((with_reducible refine Foot.has_of_le hF ?_); (first | decide | (dsimp only; decide))) | ((with_reducible refine Foot.parts_of_le hF ?_); decide) | (exact ⟨by decide, by decide⟩) | (exact E.GDL_UVLO_proper _) | lift_lets -underBinder | (with_reducible first | apply State.Only.levelEv | apply State.Only.lv | apply State.Only.monEv | apply State.bridgeOff_only) | (intro _))); clear_value x) | (intro x; clear_value x) | (with_reducible first | apply State.Only.levelEv | apply State.Only.lv | apply State.Only.monEv | apply State.bridgeOff_only) | (intro _))

theorem execGdlUvlo_only {g : Foot} {a s : State} (h : a.Only g s)
    (hF : Foot.le ⟨[.lv], [], false⟩ g = true) :
    OutOnly g a (execGdlUvlo s) := by
  unfold execGdlUvlo
  repeat' (first | with_reducible assumption | ((with_reducible refine Foot.le_trans ?_ hF); decide) | ((with_reducible refine Foot.has_of_le hF ?_); (first | decide | (dsimp only; decide))) | ((with_reducible refine Foot.parts_of_le hF ?_); decide) | (with_reducible first | apply State.Only.ite | apply State.Only.done | apply State.vglLost_only) | split | (intro _))

theorem execIslandSupplyLost_only {g : Foot} {a s : State} (h : a.Only g s) (i : Island)
    (hF : Foot.le ⟨[.hv, .lv, .sns, .aon, .mon, .trc, .chg, .loopReq], [0x10, 0x11, 0x20, 0x21, 0x30, 0x31, 0x32, 0x33, 0x34, 0x40, 0x50], false⟩ g = true) :
    OutOnly g a (execIslandSupplyLost i s) := by
  unfold execIslandSupplyLost
  repeat' (first | with_reducible assumption | ((with_reducible refine Foot.le_trans ?_ hF); decide) | ((with_reducible refine Foot.has_of_le hF ?_); (first | decide | (dsimp only; decide))) | ((with_reducible refine Foot.parts_of_le hF ?_); decide) | (exact ⟨by decide, by decide⟩) | lift_lets -underBinder | (intro x; have hx : a.Only g x := (by repeat' (first | with_reducible assumption | ((with_reducible refine Foot.le_trans ?_ hF); decide) | ((with_reducible refine Foot.has_of_le hF ?_); (first | decide | (dsimp only; decide))) | ((with_reducible refine Foot.parts_of_le hF ?_); decide) | (exact ⟨by decide, by decide⟩) | lift_lets -underBinder | (with_reducible first | apply State.Only.ite | apply State.Only.done | apply State.Only.hv | apply State.Only.monEv | apply State.Only.sns | apply State.islandOut_only | apply State.undervolt_only | apply State.vglLost_only) | (first | split | (dsimp only [x]; split)) | (intro _))); clear_value x) | (intro x; clear_value x) | (with_reducible first | apply State.Only.ite | apply State.Only.done | apply State.Only.hv | apply State.Only.monEv | apply State.Only.sns | apply State.islandOut_only | apply State.undervolt_only | apply State.vglLost_only) | split | (intro _))

theorem execStreamLost_only {g : Foot} {a s : State} (h : a.Only g s) (i : GateIsland)
    (hF : Foot.le ⟨[.hv, .lv], [0x20], false⟩ g = true) :
    OutOnly g a (execStreamLost i s) := by
  unfold execStreamLost
  repeat' (first | with_reducible assumption | ((with_reducible refine Foot.le_trans ?_ hF); decide) | ((with_reducible refine Foot.has_of_le hF ?_); (first | (simp (disch := first | omega | decide) only [F.GDH_CNT_STRM_has]; done) | decide | (dsimp only; decide))) | ((with_reducible refine Foot.parts_of_le hF ?_); decide) | (exact ⟨by decide, by decide⟩) | (exact E.GDH_STREAM_proper _) | (exact E.GDL_STREAM_proper _) | lift_lets -underBinder | (intro x; have hx : a.Only g x := (by repeat' (first | with_reducible assumption | ((with_reducible refine Foot.le_trans ?_ hF); decide) | ((with_reducible refine Foot.has_of_le hF ?_); (first | (simp (disch := first | omega | decide) only [F.GDH_CNT_STRM_has]; done) | decide | (dsimp only; decide))) | ((with_reducible refine Foot.parts_of_le hF ?_); decide) | (exact ⟨by decide, by decide⟩) | (exact E.GDH_STREAM_proper _) | (exact E.GDL_STREAM_proper _) | lift_lets -underBinder | (with_reducible first | apply State.Only.ite | apply State.Only.done | apply State.Only.hv | apply State.Only.levelEv | apply State.Only.lv | apply State.Only.mbump | apply State.bridgeOff_only | apply State.placeTraction_only) | (first | split | (dsimp only [x]; split)) | (intro _))); clear_value x) | (intro x; clear_value x) | (with_reducible first | apply State.Only.ite | apply State.Only.done | apply State.Only.hv | apply State.Only.levelEv | apply State.Only.lv | apply State.Only.mbump | apply State.bridgeOff_only | apply State.placeTraction_only) | split | (intro _))

theorem execStreamResumed_only {g : Foot} {a s : State} (h : a.Only g s) (i : GateIsland)
    (hF : Foot.le ⟨[.hv, .lv], [], false⟩ g = true) :
    OutOnly g a (execStreamResumed i s) := by
  unfold execStreamResumed
  repeat' (first | with_reducible assumption | ((with_reducible refine Foot.le_trans ?_ hF); decide) | ((with_reducible refine Foot.has_of_le hF ?_); (first | decide | (dsimp only; decide))) | ((with_reducible refine Foot.parts_of_le hF ?_); decide) | (exact ⟨by decide, by decide⟩) | (exact E.GDH_STREAM_proper _) | (exact E.GDL_STREAM_proper _) | lift_lets -underBinder | (intro x; have hx : a.Only g x := (by repeat' (first | with_reducible assumption | ((with_reducible refine Foot.le_trans ?_ hF); decide) | ((with_reducible refine Foot.has_of_le hF ?_); (first | decide | (dsimp only; decide))) | ((with_reducible refine Foot.parts_of_le hF ?_); decide) | (exact ⟨by decide, by decide⟩) | (exact E.GDH_STREAM_proper _) | (exact E.GDL_STREAM_proper _) | lift_lets -underBinder | (with_reducible first | apply State.Only.ite | apply State.Only.done | apply State.Only.hv | apply State.Only.levelEv | apply State.Only.lv | apply State.placeTraction_only) | (first | split | (dsimp only [x]; split)) | (intro _))); clear_value x) | (intro x; clear_value x) | (with_reducible first | apply State.Only.ite | apply State.Only.done | apply State.Only.hv | apply State.Only.levelEv | apply State.Only.lv | apply State.placeTraction_only) | split | (intro _))

theorem execSafeStateLineLost_only {g : Foot} {a s : State} (h : a.Only g s) (n : Fin 12)
    (hF : Foot.le ⟨[.hv], [], false⟩ g = true) :
    OutOnly g a (execSafeStateLineLost n s) := by
  unfold execSafeStateLineLost
  repeat' (first | with_reducible assumption | ((with_reducible refine Foot.le_trans ?_ hF); decide) | ((with_reducible refine Foot.has_of_le hF ?_); (first | decide | (dsimp only; decide))) | ((with_reducible refine Foot.parts_of_le hF ?_); decide) | lift_lets -underBinder | (intro x; have hx : a.Only g x := (by repeat' (first | with_reducible assumption | ((with_reducible refine Foot.le_trans ?_ hF); decide) | ((with_reducible refine Foot.has_of_le hF ?_); (first | decide | (dsimp only; decide))) | ((with_reducible refine Foot.parts_of_le hF ?_); decide) | lift_lets -underBinder | (with_reducible first | apply State.Only.ite | apply State.Only.done | apply State.Only.hv | apply State.placeTraction_only) | (first | split | (dsimp only [x]; split)) | (intro _))); clear_value x) | (intro x; clear_value x) | (with_reducible first | apply State.Only.ite | apply State.Only.done | apply State.Only.hv | apply State.placeTraction_only) | split | (intro _))

theorem execOvsOvervoltage_only {g : Foot} {a s : State} (h : a.Only g s) (k : Fin 6) (mv : BitVec 16)
    (hF : Foot.le ⟨[.hv], [0x20], false⟩ g = true) :
    OutOnly g a (execOvsOvervoltage k mv s) := by
  unfold execOvsOvervoltage
  repeat' (first | with_reducible assumption | ((with_reducible refine Foot.le_trans ?_ hF); decide) | ((with_reducible refine Foot.has_of_le hF ?_); (first | (simp (disch := first | omega | decide) only [F.GDH_CNT_OVS_has]; done) | decide | (dsimp only; decide))) | ((with_reducible refine Foot.parts_of_le hF ?_); decide) | (exact ⟨by decide, by decide⟩) | (exact E.GDH_OVS_proper _) | lift_lets -underBinder | (intro x; have hx : a.Only g x := (by repeat' (first | with_reducible assumption | ((with_reducible refine Foot.le_trans ?_ hF); decide) | ((with_reducible refine Foot.has_of_le hF ?_); (first | (simp (disch := first | omega | decide) only [F.GDH_CNT_OVS_has]; done) | decide | (dsimp only; decide))) | ((with_reducible refine Foot.parts_of_le hF ?_); decide) | (exact ⟨by decide, by decide⟩) | (exact E.GDH_OVS_proper _) | lift_lets -underBinder | (with_reducible first | apply State.Only.ite | apply State.Only.done | apply State.Only.hv | apply State.Only.levelEv | apply State.Only.mbump | apply State.placeTraction_only) | (first | split | (dsimp only [x]; split)) | (intro _))); clear_value x) | (intro x; clear_value x) | (with_reducible first | apply State.Only.ite | apply State.Only.done | apply State.Only.hv | apply State.Only.levelEv | apply State.Only.mbump | apply State.placeTraction_only) | split | (intro _))

theorem execOvsRelease_only {g : Foot} {a s : State} (h : a.Only g s) (k : Fin 6) (mv : BitVec 16)
    (hF : Foot.le ⟨[.hv], [], false⟩ g = true) :
    OutOnly g a (execOvsRelease k mv s) := by
  unfold execOvsRelease
  repeat' (first | with_reducible assumption | ((with_reducible refine Foot.le_trans ?_ hF); decide) | ((with_reducible refine Foot.has_of_le hF ?_); (first | decide | (dsimp only; decide))) | ((with_reducible refine Foot.parts_of_le hF ?_); decide) | (exact ⟨by decide, by decide⟩) | (exact E.GDH_OVS_proper _) | lift_lets -underBinder | (intro x; have hx : a.Only g x := (by repeat' (first | with_reducible assumption | ((with_reducible refine Foot.le_trans ?_ hF); decide) | ((with_reducible refine Foot.has_of_le hF ?_); (first | decide | (dsimp only; decide))) | ((with_reducible refine Foot.parts_of_le hF ?_); decide) | (exact ⟨by decide, by decide⟩) | (exact E.GDH_OVS_proper _) | lift_lets -underBinder | (with_reducible first | apply State.Only.ite | apply State.Only.done | apply State.Only.hv | apply State.Only.levelEv) | (first | split | (dsimp only [x]; split)) | (intro _))); clear_value x) | (intro x; clear_value x) | (with_reducible first | apply State.Only.ite | apply State.Only.done | apply State.Only.hv | apply State.Only.levelEv) | split | (intro _))

theorem execOvsAscEntry_only {g : Foot} {a s : State} (h : a.Only g s) (k : Fin 6)
    (hF : Foot.le ⟨[.hv], [], false⟩ g = true) :
    OutOnly g a (execOvsAscEntry k s) := by
  unfold execOvsAscEntry
  repeat' (first | with_reducible assumption | ((with_reducible refine Foot.le_trans ?_ hF); decide) | ((with_reducible refine Foot.has_of_le hF ?_); (first | decide | (dsimp only; decide))) | ((with_reducible refine Foot.parts_of_le hF ?_); decide) | lift_lets -underBinder | (intro x; have hx : a.Only g x := (by repeat' (first | with_reducible assumption | ((with_reducible refine Foot.le_trans ?_ hF); decide) | ((with_reducible refine Foot.has_of_le hF ?_); (first | decide | (dsimp only; decide))) | ((with_reducible refine Foot.parts_of_le hF ?_); decide) | lift_lets -underBinder | (with_reducible first | apply State.Only.ite | apply State.Only.done | apply State.Only.hv | apply State.placeTraction_only) | (first | split | (dsimp only [x]; split)) | (intro _))); clear_value x) | (intro x; clear_value x) | (with_reducible first | apply State.Only.ite | apply State.Only.done | apply State.Only.hv | apply State.placeTraction_only) | split | (intro _))

theorem execOvsAscRelease_only {g : Foot} {a s : State} (h : a.Only g s) (k : Fin 6)
    (hF : Foot.le ⟨[.hv], [], false⟩ g = true) :
    OutOnly g a (execOvsAscRelease k s) := by
  unfold execOvsAscRelease
  repeat' (first | with_reducible assumption | ((with_reducible refine Foot.le_trans ?_ hF); decide) | ((with_reducible refine Foot.has_of_le hF ?_); (first | decide | (dsimp only; decide))) | ((with_reducible refine Foot.parts_of_le hF ?_); decide) | lift_lets -underBinder | (intro x; have hx : a.Only g x := (by repeat' (first | with_reducible assumption | ((with_reducible refine Foot.le_trans ?_ hF); decide) | ((with_reducible refine Foot.has_of_le hF ?_); (first | decide | (dsimp only; decide))) | ((with_reducible refine Foot.parts_of_le hF ?_); decide) | lift_lets -underBinder | (with_reducible first | apply State.Only.ite | apply State.Only.done | apply State.Only.hv | apply State.placeTraction_only) | (first | split | (dsimp only [x]; split)) | (intro _))); clear_value x) | (intro x; clear_value x) | (with_reducible first | apply State.Only.ite | apply State.Only.done | apply State.Only.hv | apply State.placeTraction_only) | split | (intro _))

theorem execGateBelowThreshold_only {g : Foot} {a s : State} (h : a.Only g s) (n : Fin 34)
    (hF : Foot.le ⟨[.hv], [], false⟩ g = true) :
    OutOnly g a (execGateBelowThreshold n s) := by
  unfold execGateBelowThreshold
  repeat' (first | with_reducible assumption | ((with_reducible refine Foot.le_trans ?_ hF); decide) | ((with_reducible refine Foot.has_of_le hF ?_); (first | decide | (dsimp only; decide))) | ((with_reducible refine Foot.parts_of_le hF ?_); decide) | lift_lets -underBinder | (intro x; have hx : a.Only g x := (by repeat' (first | with_reducible assumption | ((with_reducible refine Foot.le_trans ?_ hF); decide) | ((with_reducible refine Foot.has_of_le hF ?_); (first | decide | (dsimp only; decide))) | ((with_reducible refine Foot.parts_of_le hF ?_); decide) | lift_lets -underBinder | (with_reducible first | apply State.Only.ite | apply State.Only.done | apply State.Only.hv | apply State.placeTraction_only) | (first | split | (dsimp only [x]; split)) | (intro _))); clear_value x) | (intro x; clear_value x) | (with_reducible first | apply State.Only.ite | apply State.Only.done | apply State.Only.hv | apply State.placeTraction_only) | split | (intro _))

theorem execSc_only {g : Foot} {a s : State} (h : a.Only g s) (n : Fin 34)
    (hF : Foot.le ⟨[.hv, .aon, .mon, .trc, .chg, .loopReq], [0x10, 0x11, 0x20, 0x30, 0x31, 0x32, 0x33, 0x50], false⟩ g = true) :
    OutOnly g a (execSc n s) := by
  unfold execSc
  repeat' (first | with_reducible assumption | ((with_reducible refine Foot.le_trans ?_ hF); decide) | ((with_reducible refine Foot.has_of_le hF ?_); (first | (simp (disch := first | omega | decide) only [F.GDH_CFG_SC_EN_has, F.GDH_CNT_SC_has, F.GDH_TS_TS_has]; done) | decide | (dsimp only; decide))) | ((with_reducible refine Foot.parts_of_le hF ?_); decide) | (exact ⟨by decide, by decide⟩) | (exact E.GDH_SC_proper _) | lift_lets -underBinder | (intro x; have hx : a.Only g x := (by repeat' (first | with_reducible assumption | ((with_reducible refine Foot.le_trans ?_ hF); decide) | ((with_reducible refine Foot.has_of_le hF ?_); (first | (simp (disch := first | omega | decide) only [F.GDH_CFG_SC_EN_has, F.GDH_CNT_SC_has, F.GDH_TS_TS_has]; done) | decide | (dsimp only; decide))) | ((with_reducible refine Foot.parts_of_le hF ?_); decide) | (exact ⟨by decide, by decide⟩) | (exact E.GDH_SC_proper _) | lift_lets -underBinder | (with_reducible first | apply State.Only.ite | apply State.Only.done | apply State.Only.hv | apply State.Only.levelEv | apply State.Only.mbump | apply State.Only.mput | apply State.chgFault_only | apply State.phaseStop_only | apply State.setFault_only) | (first | split | (dsimp only [x]; split)) | (intro _))); clear_value x) | (intro x; clear_value x) | (with_reducible first | apply State.Only.ite | apply State.Only.done | apply State.Only.hv | apply State.Only.levelEv | apply State.Only.mbump | apply State.Only.mput | apply State.chgFault_only | apply State.phaseStop_only | apply State.setFault_only) | split | (intro _))

theorem execSoftOffEnd_only {g : Foot} {a s : State} (h : a.Only g s) (n : Fin 34)
    (hF : Foot.le ⟨[.hv], [], false⟩ g = true) :
    OutOnly g a (execSoftOffEnd n s) := by
  unfold execSoftOffEnd
  repeat' (first | with_reducible assumption | ((with_reducible refine Foot.le_trans ?_ hF); decide) | ((with_reducible refine Foot.has_of_le hF ?_); (first | decide | (dsimp only; decide))) | ((with_reducible refine Foot.parts_of_le hF ?_); decide) | (with_reducible first | apply State.Only.done | apply State.Only.hv) | (intro _))

theorem execTmpConversion_only {g : Foot} {a s : State} (h : a.Only g s) (n : Fin 34) (code : BitVec 12) (vp : BitVec 16) (vn : BitVec 16)
    (hF : Foot.le ⟨[], [0x20], false⟩ g = true) :
    OutOnly g a (execTmpConversion n code vp vn s) := by
  unfold execTmpConversion
  repeat' (first | with_reducible assumption | ((with_reducible refine Foot.le_trans ?_ hF); decide) | ((with_reducible refine Foot.has_of_le hF ?_); (first | (simp (disch := first | omega | decide) only [F.GDH_TMP_CODE_has, F.GDH_VSUP_VP_has, F.GDH_VSUP_VN_has, F.GDH_OT_OT_TH_has]; done) | decide | (dsimp only; decide))) | ((with_reducible refine Foot.parts_of_le hF ?_); decide) | (exact ⟨by decide, by decide⟩) | (exact E.GDH_OT_proper _) | (exact E.GDH_TMP_OPEN_proper _) | lift_lets -underBinder | (intro x; have hx : a.Only g x := (by repeat' (first | with_reducible assumption | ((with_reducible refine Foot.le_trans ?_ hF); decide) | ((with_reducible refine Foot.has_of_le hF ?_); (first | (simp (disch := first | omega | decide) only [F.GDH_TMP_CODE_has, F.GDH_VSUP_VP_has, F.GDH_VSUP_VN_has, F.GDH_OT_OT_TH_has]; done) | decide | (dsimp only; decide))) | ((with_reducible refine Foot.parts_of_le hF ?_); decide) | (exact ⟨by decide, by decide⟩) | (exact E.GDH_OT_proper _) | (exact E.GDH_TMP_OPEN_proper _) | lift_lets -underBinder | (with_reducible first | apply State.Only.ite | apply State.Only.done | apply State.Only.levelEv | apply State.Only.mput) | (first | split | (dsimp only [x]; split)) | (intro _))); clear_value x) | (intro x; clear_value x) | (with_reducible first | apply State.Only.ite | apply State.Only.done | apply State.Only.levelEv | apply State.Only.mput) | split | (intro _))

theorem execShootReq_only {g : Foot} {a s : State} (h : a.Only g s) (l : Lane) (c : Chan) (hF : Foot.le ⟨[.hv, .lv, .aon, .mon, .trc, .chg, .loopReq, .legEvents], [0x10, 0x11, 0x20, 0x21, 0x30, 0x31, 0x32, 0x33, 0x34, 0x40, 0x50], false⟩ g = true) :
    OutOnly g a (execShootReq l c s) := by
  unfold execShootReq
  split
  · exact State.Only.done h
  · cases c with
    | h n =>
      refine State.Only.done (State.legEvent_only ?_ l _ (legOf_lt n) (Foot.le_trans (by decide) hF))
      have k : a.Only g ((legPages (legOf n)).foldl (fun s p => s.mbump ⟨p + 0x068, 24, 8⟩) s) :=
        State.Only.foldOf _ _ h (fun t p hp ht => State.Only.mbump ht _ _
          (Foot.has_of_le hF (Foot.has_type (legCnt_type n p hp) (by decide))))
      refine State.Only.pulseEv (State.Only.ite (fun _ => State.gatesOff_only k _ (Foot.le_trans (by decide) hF)) (fun _ => k)) _ _ _ ?_
      constructor
      · show (0x30000 + 2 * legOf n * 0x1000) % 0x1000 = 0
        omega
      · show (3 : Nat) < 32
        omega
    | l n =>
      refine State.Only.done (State.legEvent_only ?_ l _ (lvLegOf_lt n) (Foot.le_trans (by decide) hF))
      have k : a.Only g ((legPages (lvLegOf n)).foldl (fun s p => s.mbump ⟨p + 0x04C, 8, 8⟩) s) :=
        State.Only.foldOf _ _ h (fun t p hp ht => State.Only.mbump ht _ _
          (Foot.has_of_le hF (Foot.has_type (lvLegCnt_type n p hp) (by decide))))
      have m : Part.lv ∈ g.parts := Foot.parts_of_le hF (by decide)
      refine State.Only.pulseEv (State.Only.ite (fun _ => State.Only.lvCh (State.Only.lvCh k _ _ m) _ _ m) (fun _ => k)) _ _ _ ?_
      constructor
      · show (0x60000 + n.val / 2 * 2 * 0x1000) % 0x1000 = 0
        omega
      · show (3 : Nat) < 32
        omega

theorem execDeadTimeRelease_only {g : Foot} {a s : State} (h : a.Only g s) (l : Lane) (c : Chan) (ext : Nat)
    (hF : Foot.le ⟨[.hv, .lv], [0x20], false⟩ g = true) :
    OutOnly g a (execDeadTimeRelease l c ext s) := by
  unfold execDeadTimeRelease
  repeat' (first | with_reducible assumption | ((with_reducible refine Foot.le_trans ?_ hF); decide) | ((with_reducible refine Foot.has_of_le hF ?_); (first | (simp (disch := first | omega | decide) only [F.GDH_DT_STAT_EXT_LAST_has, F.GDH_DT_STAT_EXT_MAX_has]; done) | decide | (dsimp only; decide))) | ((with_reducible refine Foot.parts_of_le hF ?_); decide) | lift_lets -underBinder | (intro x; have hx : a.Only g x := (by repeat' (first | with_reducible assumption | ((with_reducible refine Foot.le_trans ?_ hF); decide) | ((with_reducible refine Foot.has_of_le hF ?_); (first | (simp (disch := first | omega | decide) only [F.GDH_DT_STAT_EXT_LAST_has, F.GDH_DT_STAT_EXT_MAX_has]; done) | decide | (dsimp only; decide))) | ((with_reducible refine Foot.parts_of_le hF ?_); decide) | lift_lets -underBinder | (with_reducible first | apply State.Only.ite | apply State.Only.done | apply State.Only.hv | apply State.Only.lvCh | apply State.Only.mput) | (first | split | (dsimp only [x]; split)) | (intro _))); clear_value x) | (intro x; clear_value x) | (with_reducible first | apply State.Only.ite | apply State.Only.done | apply State.Only.hv | apply State.Only.lvCh | apply State.Only.mput) | split | (intro _))

theorem execDtTimeout_only {g : Foot} {a s : State} (h : a.Only g s) (by_ : Option Lane) (c : Chan) (hF : Foot.le ⟨[.hv, .lv, .aon, .mon, .trc, .chg, .loopReq, .legEvents], [0x10, 0x11, 0x20, 0x21, 0x30, 0x31, 0x32, 0x33, 0x34, 0x40, 0x50], false⟩ g = true) :
    OutOnly g a (execDtTimeout by_ c s) := by
  unfold execDtTimeout
  cases c with
  | h n =>
    have k := State.Only.pulseEv h .A (E.GDH_DT_TIMEOUT n.val) false (E.GDH_DT_TIMEOUT_proper _)
    cases by_ with
    | none => exact State.Only.done k
    | some l =>
      dsimp only
      split
      · exact State.Only.done k
      · refine State.Only.done (State.legEvent_only (State.Only.foldOf _ _ (State.Only.hv k n _ (Foot.parts_of_le hF (by decide)))
          (fun t p hp ht => State.Only.mbump ht _ _ (Foot.has_of_le hF (Foot.has_type (legCnt_type n p hp) (by decide))))) l _
          (legOf_lt n) (Foot.le_trans (by decide) hF))
  | l n =>
    cases by_ with
    | none => exact State.Only.done h
    | some l =>
      dsimp only
      split
      · exact State.Only.done h
      · exact State.Only.done (State.legEvent_only (State.Only.lvCh (State.Only.pulseEv h .A (E.GDL_DT_TIMEOUT n.val) false
          (E.GDL_DT_TIMEOUT_proper _)) _ _ (Foot.parts_of_le hF (by decide))) l _ (lvLegOf_lt n) (Foot.le_trans (by decide) hF))

theorem execIslandSilent_only {g : Foot} {a s : State} (h : a.Only g s) (n : Fin 12)
    (hF : Foot.le ⟨[.hv, .trc, .loopReq], [0x10, 0x11], false⟩ g = true) :
    OutOnly g a (execIslandSilent n s) := by
  unfold execIslandSilent
  repeat' (first | with_reducible assumption | ((with_reducible refine Foot.le_trans ?_ hF); decide) | ((with_reducible refine Foot.has_of_le hF ?_); (first | decide | (dsimp only; decide))) | ((with_reducible refine Foot.parts_of_le hF ?_); decide) | lift_lets -underBinder | (intro x; have hx : a.Only g x := (by repeat' (first | with_reducible assumption | ((with_reducible refine Foot.le_trans ?_ hF); decide) | ((with_reducible refine Foot.has_of_le hF ?_); (first | decide | (dsimp only; decide))) | ((with_reducible refine Foot.parts_of_le hF ?_); decide) | lift_lets -underBinder | (with_reducible first | apply State.Only.done | apply State.gatesOff_only | apply State.setFault_only) | (intro _))); clear_value x) | (intro x; clear_value x) | (with_reducible first | apply State.Only.done | apply State.gatesOff_only | apply State.setFault_only) | (intro _))

theorem State.gdhWrite_only {g : Foot} {a s : State} (h : a.Only g s) (l : Lane) (n : Fin 34) (k : State → State) (hk : ∀ s, a.Only g s → a.Only g (k s))
    (hF : Foot.le ⟨[.answer], [], false⟩ g = true) :
    a.Only g (State.gdhWrite s l n k) := by
  unfold State.gdhWrite
  repeat' (first | with_reducible assumption | ((with_reducible refine Foot.le_trans ?_ hF); decide) | ((with_reducible refine Foot.has_of_le hF ?_); (first | decide | (dsimp only; decide))) | ((with_reducible refine Foot.parts_of_le hF ?_); decide) | (with_reducible first | apply State.Only.ite | apply State.reject_only | apply State.writing_only | apply hk) | (intro _))

theorem State.clrSc_only {g : Foot} {a s : State} (h : a.Only g s) (l : Lane) (n : Fin 34)
    (hF : Foot.le ⟨[.hv, .answer], [], false⟩ g = true) :
    a.Only g (State.clrSc s l n) := by
  unfold State.clrSc
  repeat' (first | with_reducible assumption | ((with_reducible refine Foot.le_trans ?_ hF); decide) | ((with_reducible refine Foot.has_of_le hF ?_); (first | decide | (dsimp only; decide))) | ((with_reducible refine Foot.parts_of_le hF ?_); decide) | (exact ⟨by decide, by decide⟩) | (exact E.GDH_SC_proper _) | lift_lets -underBinder | (intro x; have hx : a.Only g x := (by repeat' (first | with_reducible assumption | ((with_reducible refine Foot.le_trans ?_ hF); decide) | ((with_reducible refine Foot.has_of_le hF ?_); (first | decide | (dsimp only; decide))) | ((with_reducible refine Foot.parts_of_le hF ?_); decide) | (exact ⟨by decide, by decide⟩) | (exact E.GDH_SC_proper _) | lift_lets -underBinder | (with_reducible first | apply State.Only.hv | apply State.Only.levelEv | apply State.reply_only) | (intro _))); clear_value x) | (intro x; clear_value x) | (with_reducible first | apply State.Only.hv | apply State.Only.levelEv | apply State.reply_only) | (intro _))

theorem execGdhClrSc_only {g : Foot} {a s : State} (h : a.Only g s) (l : Lane) (n : Fin 34)
    (hF : Foot.le ⟨[.hv, .answer], [], false⟩ g = true) :
    OutOnly g a (execGdhClrSc l n s) := by
  unfold execGdhClrSc
  repeat' (first | with_reducible assumption | ((with_reducible refine Foot.le_trans ?_ hF); decide) | ((with_reducible refine Foot.has_of_le hF ?_); (first | decide | (dsimp only; decide))) | ((with_reducible refine Foot.parts_of_le hF ?_); decide) | (with_reducible first | apply State.Only.ite | apply State.Only.done | apply State.clrSc_only | apply State.gdhWrite_only | apply State.reject_only) | split | (intro _))

theorem State.clrLeg_only {g : Foot} {a s : State} (h : a.Only g s) (l : Lane) (leg : Nat) (hleg : leg < 23)
    (hF : Foot.le ⟨[.legEvents], [0x20, 0x21], false⟩ g = true) : a.Only g (State.clrLeg s l leg) := by
  unfold State.clrLeg
  dsimp only
  have k := State.Only.part .legEvents (State.setLegBits_only h leg (s.legBits leg &&& (3 - (1 <<< l.idx))) hleg (Foot.le_trans (by decide) hF)) l
    (fun x => { x with legEvents := x.legEvents.filter (fun e => e.1 != leg) }) (fun x p hp => by
      cases p <;> first | rfl | trivial | exact absurd rfl hp) (fun _ => rfl) (Foot.parts_of_le hF (by decide))
  with_reducible exact State.Only.levelEv k _ _ _ (legEv_proper leg hleg)

theorem execGdhClrLeg_only {g : Foot} {a s : State} (h : a.Only g s) (l : Lane) (n : Fin 34)
    (hF : Foot.le ⟨[.answer, .legEvents], [0x20, 0x21], false⟩ g = true) :
    OutOnly g a (execGdhClrLeg l n s) := by
  unfold execGdhClrLeg
  repeat' (first | with_reducible assumption | ((with_reducible refine Foot.le_trans ?_ hF); decide) | ((with_reducible refine Foot.has_of_le hF ?_); (first | decide | (dsimp only; decide))) | ((with_reducible refine Foot.parts_of_le hF ?_); decide) | (first | exact legOf_lt _ | exact lvLegOf_lt _ | (show _ < 23; omega)) | (with_reducible first | apply State.Only.ite | apply State.Only.done | apply State.clrLeg_only | apply State.reject_only | apply State.reply_only | apply State.writing_only) | split | (intro _))

theorem State.clrDt_only {g : Foot} {a s : State} (h : a.Only g s) (n : Fin 34) (hF : Foot.le ⟨[], [0x20], false⟩ g = true) :
    a.Only g (State.clrDt s n) :=
  State.Only.putWord h _ _ _ (Foot.has_of_le hF (Foot.has_type
    ((by decide : ∀ n : Fin 34, typeAt (0x30064 + n.val * 0x1000) = 0x20) n) (by decide)))

theorem execGdhClrDt_only {g : Foot} {a s : State} (h : a.Only g s) (l : Lane) (n : Fin 34)
    (hF : Foot.le ⟨[.answer], [0x20], false⟩ g = true) :
    OutOnly g a (execGdhClrDt l n s) := by
  unfold execGdhClrDt
  repeat' (first | with_reducible assumption | ((with_reducible refine Foot.le_trans ?_ hF); decide) | ((with_reducible refine Foot.has_of_le hF ?_); (first | decide | (dsimp only; decide))) | ((with_reducible refine Foot.parts_of_le hF ?_); decide) | (with_reducible first | apply State.Only.done | apply State.clrDt_only | apply State.gdhWrite_only | apply State.reply_only) | (intro _))

theorem State.clrGdhCnt_only {g : Foot} {a s : State} (h : a.Only g s) (n : Fin 34) (hF : Foot.le ⟨[], [0x20], false⟩ g = true) :
    a.Only g (State.clrGdhCnt s n) := by
  unfold State.clrGdhCnt
  dsimp only
  have k : a.Only g (s.putWord .A (0x3006C + n.val * 0x1000) 0) := by
    with_reducible
      refine State.Only.putWord h _ _ _ (Foot.has_of_le hF (Foot.has_type
        ((by decide : ∀ n : Fin 34, typeAt (0x3006C + n.val * 0x1000) = 0x20) n) (by decide)))
  with_reducible refine State.Only.foldOf _ _ k (fun t p hp ht => ?_)
  have e : g.has (p + 0x068) = true := Foot.has_of_le hF (Foot.has_type (legCnt_type n p hp) (by decide))
  with_reducible exact State.Only.mput (State.Only.mput ht _ _ e) _ _ e

theorem execGdhClrCnt_only {g : Foot} {a s : State} (h : a.Only g s) (l : Lane) (n : Fin 34)
    (hF : Foot.le ⟨[.answer], [0x20], false⟩ g = true) :
    OutOnly g a (execGdhClrCnt l n s) := by
  unfold execGdhClrCnt
  repeat' (first | with_reducible assumption | ((with_reducible refine Foot.le_trans ?_ hF); decide) | ((with_reducible refine Foot.has_of_le hF ?_); (first | decide | (dsimp only; decide))) | ((with_reducible refine Foot.parts_of_le hF ?_); decide) | (with_reducible first | apply State.Only.done | apply State.clrGdhCnt_only | apply State.gdhWrite_only | apply State.reply_only) | (intro _))

theorem execScSelfTest_only {g : Foot} {a s : State} (h : a.Only g s) (l : Lane) (n : Fin 34) (tripped : Bool)
    (hF : Foot.le ⟨[.hv, .answer], [], false⟩ g = true) :
    OutOnly g a (execScSelfTest l n tripped s) := by
  unfold execScSelfTest
  repeat' (first | with_reducible assumption | ((with_reducible refine Foot.le_trans ?_ hF); decide) | ((with_reducible refine Foot.has_of_le hF ?_); (first | decide | (dsimp only; decide))) | ((with_reducible refine Foot.parts_of_le hF ?_); decide) | (with_reducible first | apply State.Only.ite | apply State.Only.done | apply State.Only.hv | apply State.gdhWrite_only | apply State.reject_only | apply State.reply_only) | split | (intro _))

theorem State.pubToken_only {g : Foot} {a s : State} (h : a.Only g s)
    (hF : Foot.le ⟨[], [0x40], false⟩ g = true) :
    a.Only g (State.pubToken s) := by
  unfold State.pubToken
  repeat' (first | with_reducible assumption | ((with_reducible refine Foot.le_trans ?_ hF); decide) | ((with_reducible refine Foot.has_of_le hF ?_); (first | decide | (dsimp only; decide))) | ((with_reducible refine Foot.parts_of_le hF ?_); decide) | lift_lets -underBinder | (intro x; have hx : a.Only g x := (by repeat' (first | with_reducible assumption | ((with_reducible refine Foot.le_trans ?_ hF); decide) | ((with_reducible refine Foot.has_of_le hF ?_); (first | decide | (dsimp only; decide))) | ((with_reducible refine Foot.parts_of_le hF ?_); decide) | lift_lets -underBinder | (with_reducible first | apply State.Only.ite | apply State.Only.both | apply State.Only.putFlag | apply State.Only.putWord) | (first | split | (dsimp only [x]; split)) | (intro _))); clear_value x) | (intro x; clear_value x) | (with_reducible first | apply State.Only.ite | apply State.Only.both | apply State.Only.putFlag | apply State.Only.putWord) | split | (intro _))

theorem execTokenLatch_only {g : Foot} {a s : State} (h : a.Only g s) (g' : TokenGroup) (bridge : Fin 2)
    (hF : Foot.le ⟨[.hv, .lv], [0x40], false⟩ g = true) :
    OutOnly g a (execTokenLatch g' bridge s) := by
  unfold execTokenLatch
  repeat' (first | with_reducible assumption | ((with_reducible refine Foot.le_trans ?_ hF); decide) | ((with_reducible refine Foot.has_of_le hF ?_); (first | decide | (dsimp only; decide))) | ((with_reducible refine Foot.parts_of_le hF ?_); decide) | lift_lets -underBinder | (intro x; have hx : a.Only g x := (by repeat' (first | with_reducible assumption | ((with_reducible refine Foot.le_trans ?_ hF); decide) | ((with_reducible refine Foot.has_of_le hF ?_); (first | decide | (dsimp only; decide))) | ((with_reducible refine Foot.parts_of_le hF ?_); decide) | lift_lets -underBinder | (with_reducible first | apply State.Only.ite | apply State.Only.done | apply State.Only.fold | apply State.Only.hv | apply State.Only.lv | apply State.pubToken_only) | (first | split | (dsimp only [x]; split)) | (intro _))); clear_value x) | (intro x; clear_value x) | (with_reducible first | apply State.Only.ite | apply State.Only.done | apply State.Only.fold | apply State.Only.hv | apply State.Only.lv | apply State.pubToken_only) | split | (intro _))

theorem execTokenMoved_only {g : Foot} {a s : State} (h : a.Only g s)
    (hF : Foot.le ⟨[.mon], [0x40, 0x80], false⟩ g = true) :
    OutOnly g a (execTokenMoved s) := by
  unfold execTokenMoved
  repeat' (first | with_reducible assumption | ((with_reducible refine Foot.le_trans ?_ hF); decide) | ((with_reducible refine Foot.has_of_le hF ?_); (first | decide | (dsimp only; decide))) | ((with_reducible refine Foot.parts_of_le hF ?_); decide) | (exact ⟨by decide, by decide⟩) | (exact Or.inr (fun _ => rfl)) | lift_lets -underBinder | (intro x; have hx : a.Only g x := (by repeat' (first | with_reducible assumption | ((with_reducible refine Foot.le_trans ?_ hF); decide) | ((with_reducible refine Foot.has_of_le hF ?_); (first | decide | (dsimp only; decide))) | ((with_reducible refine Foot.parts_of_le hF ?_); decide) | (exact ⟨by decide, by decide⟩) | (exact Or.inr (fun _ => rfl)) | lift_lets -underBinder | (with_reducible first | apply State.Only.ite | apply State.Only.both | apply State.Only.done | apply State.Only.mon | apply State.Only.mputFlag | apply State.Only.pulseEv | apply State.Only.putFlag | apply State.pubToken_only) | (first | split | (dsimp only [x]; split)) | (intro _))); clear_value x) | (intro x; clear_value x) | (with_reducible first | apply State.Only.ite | apply State.Only.both | apply State.Only.done | apply State.Only.mon | apply State.Only.mputFlag | apply State.Only.pulseEv | apply State.Only.putFlag | apply State.pubToken_only) | split | (intro _))

theorem execTokenCodeInvalid_only {g : Foot} {a s : State} (h : a.Only g s) (g' : TokenGroup)
    (hF : Foot.le ⟨[.hv, .lv], [], false⟩ g = true) :
    OutOnly g a (execTokenCodeInvalid g' s) := by
  unfold execTokenCodeInvalid
  repeat' (first | with_reducible assumption | ((with_reducible refine Foot.le_trans ?_ hF); decide) | ((with_reducible refine Foot.has_of_le hF ?_); (first | decide | (dsimp only; decide))) | ((with_reducible refine Foot.parts_of_le hF ?_); decide) | (exact ⟨by decide, by decide⟩) | lift_lets -underBinder | (intro x; have hx : a.Only g x := (by repeat' (first | with_reducible assumption | ((with_reducible refine Foot.le_trans ?_ hF); decide) | ((with_reducible refine Foot.has_of_le hF ?_); (first | decide | (dsimp only; decide))) | ((with_reducible refine Foot.parts_of_le hF ?_); decide) | (exact ⟨by decide, by decide⟩) | lift_lets -underBinder | (with_reducible first | apply State.Only.ite | apply State.Only.done | apply State.Only.fold | apply State.Only.hv | apply State.Only.lv | apply State.Only.monEv) | (first | split | (dsimp only [x]; split)) | (intro _))); clear_value x) | (intro x; clear_value x) | (with_reducible first | apply State.Only.ite | apply State.Only.done | apply State.Only.fold | apply State.Only.hv | apply State.Only.lv | apply State.Only.monEv) | split | (intro _))

theorem execHoldAscMask_only {g : Foot} {a s : State} (h : a.Only g s) (k : Fin 6)
    (hF : Foot.le ⟨[.hv, .mon], [], false⟩ g = true) :
    OutOnly g a (execHoldAscMask k s) := by
  unfold execHoldAscMask
  repeat' (first | with_reducible assumption | ((with_reducible refine Foot.le_trans ?_ hF); decide) | ((with_reducible refine Foot.has_of_le hF ?_); (first | decide | (dsimp only; decide))) | ((with_reducible refine Foot.parts_of_le hF ?_); decide) | (exact Or.inr (fun _ => rfl)) | lift_lets -underBinder | (intro x; have hx : a.Only g x := (by repeat' (first | with_reducible assumption | ((with_reducible refine Foot.le_trans ?_ hF); decide) | ((with_reducible refine Foot.has_of_le hF ?_); (first | decide | (dsimp only; decide))) | ((with_reducible refine Foot.parts_of_le hF ?_); decide) | (exact Or.inr (fun _ => rfl)) | lift_lets -underBinder | (with_reducible first | apply State.Only.ite | apply State.Only.done | apply State.Only.hv | apply State.Only.mon | apply State.placeTraction_only) | (first | split | (dsimp only [x]; split)) | (intro _))); clear_value x) | (intro x; clear_value x) | (with_reducible first | apply State.Only.ite | apply State.Only.done | apply State.Only.hv | apply State.Only.mon | apply State.placeTraction_only) | split | (intro _))

theorem execBootUv_only {g : Foot} {a s : State} (h : a.Only g s) (leg : Fin 6) (vboot : BitVec 16)
    (hF : Foot.le ⟨[.hv, .lv, .aon, .mon, .trc, .chg, .loopReq], [0x10, 0x11, 0x20, 0x21, 0x30, 0x31, 0x32, 0x33, 0x34, 0x40, 0x50], false⟩ g = true) :
    OutOnly g a (execBootUv leg vboot s) := by
  unfold execBootUv
  repeat' (first | with_reducible assumption | ((with_reducible refine Foot.le_trans ?_ hF); decide) | ((with_reducible refine Foot.has_of_le hF ?_); (first | (simp (disch := first | omega | decide) only [F.GDL_STAT_VBOOT_has, F.GDL_CNT_BOOT_UV_has, F.GDL_BOOT_BOOT_N_has]; done) | decide | (dsimp only; decide))) | ((with_reducible refine Foot.parts_of_le hF ?_); decide) | (exact ⟨by decide, by decide⟩) | (exact E.GDL_BOOT_UV_proper _) | (first | exact legOf_lt _ | exact lvLegOf_lt _ | (show _ < 23; omega)) | lift_lets -underBinder | (intro x; have hx : a.Only g x := (by repeat' (first | with_reducible assumption | ((with_reducible refine Foot.le_trans ?_ hF); decide) | ((with_reducible refine Foot.has_of_le hF ?_); (first | (simp (disch := first | omega | decide) only [F.GDL_STAT_VBOOT_has, F.GDL_CNT_BOOT_UV_has, F.GDL_BOOT_BOOT_N_has]; done) | decide | (dsimp only; decide))) | ((with_reducible refine Foot.parts_of_le hF ?_); decide) | (exact ⟨by decide, by decide⟩) | (exact E.GDL_BOOT_UV_proper _) | (first | exact legOf_lt _ | exact lvLegOf_lt _ | (show _ < 23; omega)) | lift_lets -underBinder | (with_reducible first | apply State.Only.ite | apply State.Only.done | apply State.Only.lvCh | apply State.Only.mbump | apply State.Only.mput | apply State.Only.pulseEv | apply State.legFault_only) | (first | split | (dsimp only [x]; split)) | (intro _))); clear_value x) | (intro x; clear_value x) | (with_reducible first | apply State.Only.ite | apply State.Only.done | apply State.Only.lvCh | apply State.Only.mbump | apply State.Only.mput | apply State.Only.pulseEv | apply State.legFault_only) | split | (intro _))

theorem execShuntOc_only {g : Foot} {a s : State} (h : a.Only g s) (a' : Fin 2)
    (hF : Foot.le ⟨[.lv, .loopReq], [0x10, 0x34], false⟩ g = true) :
    OutOnly g a (execShuntOc a' s) := by
  unfold execShuntOc
  repeat' (first | with_reducible assumption | ((with_reducible refine Foot.le_trans ?_ hF); decide) | ((with_reducible refine Foot.has_of_le hF ?_); (first | decide | (dsimp only; decide))) | ((with_reducible refine Foot.parts_of_le hF ?_); decide) | (exact ⟨by decide, by decide⟩) | (exact E.GDL_OC_proper _) | lift_lets -underBinder | (intro x; have hx : a.Only g x := (by repeat' (first | with_reducible assumption | ((with_reducible refine Foot.le_trans ?_ hF); decide) | ((with_reducible refine Foot.has_of_le hF ?_); (first | decide | (dsimp only; decide))) | ((with_reducible refine Foot.parts_of_le hF ?_); decide) | (exact ⟨by decide, by decide⟩) | (exact E.GDL_OC_proper _) | lift_lets -underBinder | (with_reducible first | apply State.Only.ite | apply State.Only.done | apply State.Only.levelEv | apply State.Only.lv | apply State.actFault_only | apply State.bridgeOff_only) | (first | split | (dsimp only [x]; split)) | (intro _))); clear_value x) | (intro x; clear_value x) | (with_reducible first | apply State.Only.ite | apply State.Only.done | apply State.Only.levelEv | apply State.Only.lv | apply State.actFault_only | apply State.bridgeOff_only) | split | (intro _))

theorem State.gdlClrLeg_only {g : Foot} {a s : State} (h : a.Only g s) (l : Lane) (n : Fin 12)
    (hF : Foot.le ⟨[.lv, .legEvents], [0x20, 0x21], false⟩ g = true) :
    a.Only g (State.gdlClrLeg s l n) := by
  unfold State.gdlClrLeg
  repeat' (first | with_reducible assumption | ((with_reducible refine Foot.le_trans ?_ hF); decide) | ((with_reducible refine Foot.has_of_le hF ?_); (first | decide | (dsimp only; decide))) | ((with_reducible refine Foot.parts_of_le hF ?_); decide) | (exact ⟨by decide, by decide⟩) | (exact E.GDL_OC_proper _) | (first | exact legOf_lt _ | exact lvLegOf_lt _ | (show _ < 23; omega)) | lift_lets -underBinder | (intro x; have hx : a.Only g x := (by repeat' (first | with_reducible assumption | ((with_reducible refine Foot.le_trans ?_ hF); decide) | ((with_reducible refine Foot.has_of_le hF ?_); (first | decide | (dsimp only; decide))) | ((with_reducible refine Foot.parts_of_le hF ?_); decide) | (exact ⟨by decide, by decide⟩) | (exact E.GDL_OC_proper _) | (first | exact legOf_lt _ | exact lvLegOf_lt _ | (show _ < 23; omega)) | lift_lets -underBinder | (with_reducible first | apply State.Only.ite | apply State.Only.levelEv | apply State.Only.lv | apply State.Only.lvCh | apply State.clrLeg_only) | (intro _))); clear_value x) | (intro x; clear_value x) | (with_reducible first | apply State.Only.ite | apply State.Only.levelEv | apply State.Only.lv | apply State.Only.lvCh | apply State.clrLeg_only) | (intro _))

theorem execGdlClrLeg_only {g : Foot} {a s : State} (h : a.Only g s) (l : Lane) (n : Fin 12)
    (hF : Foot.le ⟨[.lv, .answer, .legEvents], [0x20, 0x21], false⟩ g = true) :
    OutOnly g a (execGdlClrLeg l n s) := by
  unfold execGdlClrLeg
  repeat' (first | with_reducible assumption | ((with_reducible refine Foot.le_trans ?_ hF); decide) | ((with_reducible refine Foot.has_of_le hF ?_); (first | decide | (dsimp only; decide))) | ((with_reducible refine Foot.parts_of_le hF ?_); decide) | (first | exact legOf_lt _ | exact lvLegOf_lt _ | (show _ < 23; omega)) | (with_reducible first | apply State.Only.ite | apply State.Only.done | apply State.gdlClrLeg_only | apply State.reject_only | apply State.reply_only | apply State.writing_only) | split | (intro _))

theorem State.clrGdlCnt_only {g : Foot} {a s : State} (h : a.Only g s) (n : Fin 12)
    (hF : Foot.le ⟨[], [0x21], false⟩ g = true) :
    a.Only g (State.clrGdlCnt s n) := by
  unfold State.clrGdlCnt
  repeat' (first | with_reducible assumption | ((with_reducible refine Foot.le_trans ?_ hF); decide) | ((with_reducible refine Foot.has_of_le hF ?_); (first | (simp (disch := first | omega | decide) only [F.GDL_CNT_BOOT_UV_has, F.GDL_CNT_CLIP_has, F.GDL_CNT_SHOOT_has]; done) | decide | (dsimp only; decide))) | ((with_reducible refine Foot.parts_of_le hF ?_); decide) | (with_reducible first | apply State.Only.mput) | (intro _))

theorem execGdlClrCnt_only {g : Foot} {a s : State} (h : a.Only g s) (l : Lane) (n : Fin 12)
    (hF : Foot.le ⟨[.answer], [0x21], false⟩ g = true) :
    OutOnly g a (execGdlClrCnt l n s) := by
  unfold execGdlClrCnt
  repeat' (first | with_reducible assumption | ((with_reducible refine Foot.le_trans ?_ hF); decide) | ((with_reducible refine Foot.has_of_le hF ?_); (first | decide | (dsimp only; decide))) | ((with_reducible refine Foot.parts_of_le hF ?_); decide) | (with_reducible first | apply State.Only.ite | apply State.Only.done | apply State.clrGdlCnt_only | apply State.reject_only | apply State.reply_only | apply State.writing_only) | split | (intro _))

end Sys2Proof.Machine
end

