-- ==== Sys2Proof/Laws/Only/Ce.lean ====
section
/-! SUPPORT. What the operations of Ce may change. -/
namespace Sys2Proof.Machine
set_option linter.all false
set_option Elab.async false

theorem State.ceStop_only {g : Foot} {a s : State} (h : a.Only g s) (l : Lane)
    (hF : Foot.le ⟨[.answer, .eng], [0x10], false⟩ g = true) :
    a.Only g (State.ceStop s l) := by
  unfold State.ceStop
  repeat' (first | with_reducible assumption | ((with_reducible refine Foot.le_trans ?_ hF); decide) | ((with_reducible refine Foot.has_of_le hF ?_); (first | decide | (dsimp only; decide))) | ((with_reducible refine Foot.parts_of_le hF ?_); decide) | (with_reducible first | apply State.Only.ite | apply State.Only.eng | apply State.Only.putFlag | apply State.reject_only | apply State.reply_only) | split | (intro _))

theorem execCeStop_only {g : Foot} {a s : State} (h : a.Only g s) (l : Lane)
    (hF : Foot.le ⟨[.answer, .eng], [0x10], false⟩ g = true) :
    OutOnly g a (execCeStop l s) := by
  unfold execCeStop
  repeat' (first | with_reducible assumption | ((with_reducible refine Foot.le_trans ?_ hF); decide) | ((with_reducible refine Foot.has_of_le hF ?_); (first | decide | (dsimp only; decide))) | ((with_reducible refine Foot.parts_of_le hF ?_); decide) | (with_reducible first | apply State.Only.done | apply State.ceStop_only | apply State.writing_only) | (intro _))

theorem State.ceCommit_only {g : Foot} {a s : State} (h : a.Only g s) (l : Lane)
    (hF : Foot.le ⟨[.answer, .eng], [0x03, 0x10], false⟩ g = true) :
    a.Only g (State.ceCommit s l) := by
  unfold State.ceCommit
  repeat' (first | with_reducible assumption | ((with_reducible refine Foot.le_trans ?_ hF); decide) | ((with_reducible refine Foot.has_of_le hF ?_); (first | decide | (dsimp only; decide))) | ((with_reducible refine Foot.parts_of_le hF ?_); decide) | lift_lets -underBinder | (intro x; have hx : a.Only g x := (by repeat' (first | with_reducible assumption | ((with_reducible refine Foot.le_trans ?_ hF); decide) | ((with_reducible refine Foot.has_of_le hF ?_); (first | decide | (dsimp only; decide))) | ((with_reducible refine Foot.parts_of_le hF ?_); decide) | lift_lets -underBinder | (with_reducible first | apply State.Only.ite | apply State.commitTable_only | apply State.reject_only | apply State.reply_only) | (first | split | (dsimp only [x]; split)) | (intro _))); clear_value x) | (intro x; clear_value x) | (with_reducible first | apply State.Only.ite | apply State.commitTable_only | apply State.reject_only | apply State.reply_only) | split | (intro _))

theorem execCommit_only {g : Foot} {a s : State} (h : a.Only g s) (l : Lane)
    (hF : Foot.le ⟨[.answer, .eng], [0x03, 0x10], false⟩ g = true) :
    OutOnly g a (execCommit l s) := by
  unfold execCommit
  repeat' (first | with_reducible assumption | ((with_reducible refine Foot.le_trans ?_ hF); decide) | ((with_reducible refine Foot.has_of_le hF ?_); (first | decide | (dsimp only; decide))) | ((with_reducible refine Foot.parts_of_le hF ?_); decide) | (with_reducible first | apply State.Only.done | apply State.ceCommit_only | apply State.writing_only) | (intro _))

theorem State.loopsClose_only {g : Foot} {a s : State} (h : a.Only g s) (l : Lane) (mask : BitVec 24)
    (hF : Foot.le ⟨[.loopReq], [], false⟩ g = true) :
    a.Only g (State.loopsClose s l mask) := by
  unfold State.loopsClose
  repeat' (first | with_reducible assumption | ((with_reducible refine Foot.le_trans ?_ hF); decide) | ((with_reducible refine Foot.has_of_le hF ?_); (first | decide | (dsimp only; decide))) | ((with_reducible refine Foot.parts_of_le hF ?_); decide) | (with_reducible first | apply State.Only.fold | apply State.loopAsk_only) | (intro _))

theorem execLoopClose_only {g : Foot} {a s : State} (h : a.Only g s) (l : Lane) (mask : BitVec 24)
    (hF : Foot.le ⟨[.answer, .loopReq], [], false⟩ g = true) :
    OutOnly g a (execLoopClose l mask s) := by
  unfold execLoopClose
  repeat' (first | with_reducible assumption | ((with_reducible refine Foot.le_trans ?_ hF); decide) | ((with_reducible refine Foot.has_of_le hF ?_); (first | decide | (dsimp only; decide))) | ((with_reducible refine Foot.parts_of_le hF ?_); decide) | (with_reducible first | apply State.Only.done | apply State.loopsClose_only | apply State.reply_only | apply State.writing_only) | (intro _))

theorem State.loopsOpen_only {g : Foot} {a s : State} (h : a.Only g s) (l : Lane) (mask : BitVec 24)
    (hF : Foot.le ⟨[.loopReq], [0x10], false⟩ g = true) :
    a.Only g (State.loopsOpen s l mask) := by
  unfold State.loopsOpen
  repeat' (first | with_reducible assumption | ((with_reducible refine Foot.le_trans ?_ hF); decide) | ((with_reducible refine Foot.has_of_le hF ?_); (first | decide | (dsimp only; decide))) | ((with_reducible refine Foot.parts_of_le hF ?_); decide) | (with_reducible first | apply State.Only.fold | apply State.loopOpen_only) | (intro _))

theorem execLoopOpen_only {g : Foot} {a s : State} (h : a.Only g s) (l : Lane) (mask : BitVec 24)
    (hF : Foot.le ⟨[.answer, .loopReq], [0x10], false⟩ g = true) :
    OutOnly g a (execLoopOpen l mask s) := by
  unfold execLoopOpen
  repeat' (first | with_reducible assumption | ((with_reducible refine Foot.le_trans ?_ hF); decide) | ((with_reducible refine Foot.has_of_le hF ?_); (first | decide | (dsimp only; decide))) | ((with_reducible refine Foot.parts_of_le hF ?_); decide) | (with_reducible first | apply State.Only.done | apply State.loopsOpen_only | apply State.reply_only | apply State.writing_only) | (intro _))

theorem State.clrNf_only {g : Foot} {a s : State} (h : a.Only g s) (l : Lane) (hF : Foot.le ⟨[], [0x10], false⟩ g = true) :
    a.Only g (State.clrNf s l) := by
  unfold State.clrNf
  refine State.Only.put (State.Only.foldOf _ _ h (fun t n hn ht => State.Only.putWord ht _ _ _ (Foot.has_of_le hF (Foot.has_type
    ((by decide : ∀ n : Fin 16, typeAt (0x12040 + n.val * 4) = 0x10) ⟨n, List.mem_range.mp hn⟩) (by decide))))) _ _ _
    (Foot.has_of_le hF (by decide))

theorem execCeClrNf_only {g : Foot} {a s : State} (h : a.Only g s) (l : Lane)
    (hF : Foot.le ⟨[.answer], [0x10], false⟩ g = true) :
    OutOnly g a (execCeClrNf l s) := by
  unfold execCeClrNf
  repeat' (first | with_reducible assumption | ((with_reducible refine Foot.le_trans ?_ hF); decide) | ((with_reducible refine Foot.has_of_le hF ?_); (first | decide | (dsimp only; decide))) | ((with_reducible refine Foot.parts_of_le hF ?_); decide) | (with_reducible first | apply State.Only.done | apply State.clrNf_only | apply State.reply_only | apply State.writing_only) | (intro _))

theorem State.clrOvr_only {g : Foot} {a s : State} (h : a.Only g s) (l : Lane)
    (hF : Foot.le ⟨[], [0x10], false⟩ g = true) :
    a.Only g (State.clrOvr s l) := by
  unfold State.clrOvr
  repeat' (first | with_reducible assumption | ((with_reducible refine Foot.le_trans ?_ hF); decide) | ((with_reducible refine Foot.has_of_le hF ?_); (first | decide | (dsimp only; decide))) | ((with_reducible refine Foot.parts_of_le hF ?_); decide) | (with_reducible first | apply State.Only.put) | (intro _))

theorem execCeClrOvr_only {g : Foot} {a s : State} (h : a.Only g s) (l : Lane)
    (hF : Foot.le ⟨[.answer], [0x10], false⟩ g = true) :
    OutOnly g a (execCeClrOvr l s) := by
  unfold execCeClrOvr
  repeat' (first | with_reducible assumption | ((with_reducible refine Foot.le_trans ?_ hF); decide) | ((with_reducible refine Foot.has_of_le hF ?_); (first | decide | (dsimp only; decide))) | ((with_reducible refine Foot.parts_of_le hF ?_); decide) | (with_reducible first | apply State.Only.done | apply State.clrOvr_only | apply State.reply_only | apply State.writing_only) | (intro _))

theorem State.clrMax_only {g : Foot} {a s : State} (h : a.Only g s) (l : Lane)
    (hF : Foot.le ⟨[], [0x10], false⟩ g = true) :
    a.Only g (State.clrMax s l) := by
  unfold State.clrMax
  repeat' (first | with_reducible assumption | ((with_reducible refine Foot.le_trans ?_ hF); decide) | ((with_reducible refine Foot.has_of_le hF ?_); (first | decide | (dsimp only; decide))) | ((with_reducible refine Foot.parts_of_le hF ?_); decide) | (with_reducible first | apply State.Only.put) | (intro _))

theorem execCeClrMax_only {g : Foot} {a s : State} (h : a.Only g s) (l : Lane)
    (hF : Foot.le ⟨[.answer], [0x10], false⟩ g = true) :
    OutOnly g a (execCeClrMax l s) := by
  unfold execCeClrMax
  repeat' (first | with_reducible assumption | ((with_reducible refine Foot.le_trans ?_ hF); decide) | ((with_reducible refine Foot.has_of_le hF ?_); (first | decide | (dsimp only; decide))) | ((with_reducible refine Foot.parts_of_le hF ?_); decide) | (with_reducible first | apply State.Only.done | apply State.clrMax_only | apply State.reply_only | apply State.writing_only) | (intro _))

theorem State.spFault_only {g : Foot} {a s : State} (h : a.Only g s) (l : Lane)
    (hF : Foot.le ⟨[], [0x10], false⟩ g = true) :
    a.Only g (State.spFault s l) := by
  unfold State.spFault
  repeat' (first | with_reducible assumption | ((with_reducible refine Foot.le_trans ?_ hF); decide) | ((with_reducible refine Foot.has_of_le hF ?_); (first | decide | (dsimp only; decide))) | ((with_reducible refine Foot.parts_of_le hF ?_); decide) | (exact ⟨by decide, by decide⟩) | (with_reducible first | apply State.Only.ite | apply State.Only.levelEv | apply State.Only.putFlag) | split | (intro _))

theorem execSpFault_only {g : Foot} {a s : State} (h : a.Only g s) (l : Lane)
    (hF : Foot.le ⟨[], [0x10], false⟩ g = true) :
    OutOnly g a (execSpFault l s) := by
  unfold execSpFault
  repeat' (first | with_reducible assumption | ((with_reducible refine Foot.le_trans ?_ hF); decide) | ((with_reducible refine Foot.has_of_le hF ?_); (first | decide | (dsimp only; decide))) | ((with_reducible refine Foot.parts_of_le hF ?_); decide) | (with_reducible first | apply State.Only.done | apply State.spFault_only) | (intro _))

theorem execSpFaultClear_only {g : Foot} {a s : State} (h : a.Only g s) (l : Lane)
    (hF : Foot.le ⟨[], [0x10], false⟩ g = true) :
    OutOnly g a (execSpFaultClear l s) := by
  unfold execSpFaultClear
  repeat' (first | with_reducible assumption | ((with_reducible refine Foot.le_trans ?_ hF); decide) | ((with_reducible refine Foot.has_of_le hF ?_); (first | decide | (dsimp only; decide))) | ((with_reducible refine Foot.parts_of_le hF ?_); decide) | (exact ⟨by decide, by decide⟩) | (with_reducible first | apply State.Only.ite | apply State.Only.done | apply State.Only.levelEv | apply State.Only.putFlag) | split | (intro _))

theorem execPinSpEdge_only {g : Foot} {a s : State} (h : a.Only g s) (l : Lane) (rising : Bool)
    (hF : Foot.le ⟨[.eng], [0x10], false⟩ g = true) :
    OutOnly g a (execPinSpEdge l rising s) := by
  unfold execPinSpEdge
  repeat' (first | with_reducible assumption | ((with_reducible refine Foot.le_trans ?_ hF); decide) | ((with_reducible refine Foot.has_of_le hF ?_); (first | decide | (dsimp only; decide))) | ((with_reducible refine Foot.parts_of_le hF ?_); decide) | lift_lets -underBinder | (intro x; have hx : a.Only g x := (by repeat' (first | with_reducible assumption | ((with_reducible refine Foot.le_trans ?_ hF); decide) | ((with_reducible refine Foot.has_of_le hF ?_); (first | decide | (dsimp only; decide))) | ((with_reducible refine Foot.parts_of_le hF ?_); decide) | lift_lets -underBinder | (with_reducible first | apply State.Only.ite | apply State.Only.done | apply State.Only.eng | apply State.Only.put | apply State.spFault_only) | (first | split | (dsimp only [x]; split)) | (intro _))); clear_value x) | (intro x; clear_value x) | (with_reducible first | apply State.Only.ite | apply State.Only.done | apply State.Only.eng | apply State.Only.put | apply State.spFault_only) | split | (intro _))

end Sys2Proof.Machine
end

