-- ==== Sys2Proof/Laws/Only/Trc.lean ====
section
/-! SUPPORT. What the operations of Trc may change. -/
namespace Sys2Proof.Machine
set_option linter.all false
set_option Elab.async false

theorem execCurrentExchange_only {g : Foot} {a s : State} (h : a.Only g s) (l : Lane) (w : Vector Word 16)
    (hF : Foot.le ⟨[.eng], [], false⟩ g = true) :
    OutOnly g a (execCurrentExchange l w s) := by
  unfold execCurrentExchange
  repeat' (first | with_reducible assumption | ((with_reducible refine Foot.le_trans ?_ hF); decide) | ((with_reducible refine Foot.has_of_le hF ?_); (first | decide | (dsimp only; decide))) | ((with_reducible refine Foot.parts_of_le hF ?_); decide) | (with_reducible first | apply State.Only.ite | apply State.Only.done | apply State.Only.eng) | split | (intro _))

theorem execDecModel_only {g : Foot} {a s : State} (h : a.Only g s) (l : Lane)
    (hF : Foot.le ⟨[.eng], [0x11], false⟩ g = true) :
    OutOnly g a (execDecModel l s) := by
  unfold execDecModel
  repeat' (first | with_reducible assumption | ((with_reducible refine Foot.le_trans ?_ hF); decide) | ((with_reducible refine Foot.has_of_le hF ?_); (first | decide | (dsimp only; decide))) | ((with_reducible refine Foot.parts_of_le hF ?_); decide) | (exact ⟨by decide, by decide⟩) | (with_reducible first | apply State.Only.ite | apply State.Only.done | apply State.Only.eng | apply State.Only.pulseEv | apply State.Only.putFlag) | split | (intro _))

theorem execDecRestored_only {g : Foot} {a s : State} (h : a.Only g s) (l : Lane)
    (hF : Foot.le ⟨[], [0x11], false⟩ g = true) :
    OutOnly g a (execDecRestored l s) := by
  unfold execDecRestored
  repeat' (first | with_reducible assumption | ((with_reducible refine Foot.le_trans ?_ hF); decide) | ((with_reducible refine Foot.has_of_le hF ?_); (first | decide | (dsimp only; decide))) | ((with_reducible refine Foot.parts_of_le hF ?_); decide) | (exact ⟨by decide, by decide⟩) | (with_reducible first | apply State.Only.ite | apply State.Only.done | apply State.Only.pulseEv | apply State.Only.putFlag) | split | (intro _))

theorem State.lockLost_only {g : Foot} {a s : State} (h : a.Only g s) (l : Lane)
    (hF : Foot.le ⟨[], [0x02, 0x11, 0x41], false⟩ g = true) :
    a.Only g (State.lockLost s l) := by
  unfold State.lockLost
  repeat' (first | with_reducible assumption | ((with_reducible refine Foot.le_trans ?_ hF); decide) | ((with_reducible refine Foot.has_of_le hF ?_); (first | decide | (dsimp only; decide))) | ((with_reducible refine Foot.parts_of_le hF ?_); decide) | (exact ⟨by decide, by decide⟩) | lift_lets -underBinder | (intro x; have hx : a.Only g x := (by repeat' (first | with_reducible assumption | ((with_reducible refine Foot.le_trans ?_ hF); decide) | ((with_reducible refine Foot.has_of_le hF ?_); (first | decide | (dsimp only; decide))) | ((with_reducible refine Foot.parts_of_le hF ?_); decide) | (exact ⟨by decide, by decide⟩) | lift_lets -underBinder | (with_reducible first | apply State.Only.ite | apply State.Only.pulseEv | apply State.Only.put | apply State.Only.putFlag) | (first | split | (dsimp only [x]; split)) | (intro _))); clear_value x) | (intro x; clear_value x) | (with_reducible first | apply State.Only.ite | apply State.Only.pulseEv | apply State.Only.put | apply State.Only.putFlag) | split | (intro _))

theorem execLockLost_only {g : Foot} {a s : State} (h : a.Only g s) (l : Lane)
    (hF : Foot.le ⟨[], [0x02, 0x11, 0x41], false⟩ g = true) :
    OutOnly g a (execLockLost l s) := by
  unfold execLockLost
  repeat' (first | with_reducible assumption | ((with_reducible refine Foot.le_trans ?_ hF); decide) | ((with_reducible refine Foot.has_of_le hF ?_); (first | decide | (dsimp only; decide))) | ((with_reducible refine Foot.parts_of_le hF ?_); decide) | (with_reducible first | apply State.Only.done | apply State.lockLost_only) | (intro _))

theorem State.lockGained_only {g : Foot} {a s : State} (h : a.Only g s) (l : Lane)
    (hF : Foot.le ⟨[], [0x02, 0x11, 0x41], false⟩ g = true) :
    a.Only g (State.lockGained s l) := by
  unfold State.lockGained
  repeat' (first | with_reducible assumption | ((with_reducible refine Foot.le_trans ?_ hF); decide) | ((with_reducible refine Foot.has_of_le hF ?_); (first | decide | (dsimp only; decide))) | ((with_reducible refine Foot.parts_of_le hF ?_); decide) | (exact ⟨by decide, by decide⟩) | lift_lets -underBinder | (intro x; have hx : a.Only g x := (by repeat' (first | with_reducible assumption | ((with_reducible refine Foot.le_trans ?_ hF); decide) | ((with_reducible refine Foot.has_of_le hF ?_); (first | decide | (dsimp only; decide))) | ((with_reducible refine Foot.parts_of_le hF ?_); decide) | (exact ⟨by decide, by decide⟩) | lift_lets -underBinder | (with_reducible first | apply State.Only.ite | apply State.Only.pulseEv | apply State.Only.putFlag) | (first | split | (dsimp only [x]; split)) | (intro _))); clear_value x) | (intro x; clear_value x) | (with_reducible first | apply State.Only.ite | apply State.Only.pulseEv | apply State.Only.putFlag) | split | (intro _))

theorem execLock_only {g : Foot} {a s : State} (h : a.Only g s) (l : Lane)
    (hF : Foot.le ⟨[], [0x02, 0x11, 0x41], false⟩ g = true) :
    OutOnly g a (execLock l s) := by
  unfold execLock
  repeat' (first | with_reducible assumption | ((with_reducible refine Foot.le_trans ?_ hF); decide) | ((with_reducible refine Foot.has_of_le hF ?_); (first | decide | (dsimp only; decide))) | ((with_reducible refine Foot.parts_of_le hF ?_); decide) | (with_reducible first | apply State.Only.done | apply State.lockGained_only) | (intro _))

theorem execAlignmentDone_only {g : Foot} {a s : State} (h : a.Only g s)
    (hF : Foot.le ⟨[], [0x11], false⟩ g = true) :
    OutOnly g a (execAlignmentDone s) := by
  unfold execAlignmentDone
  repeat' (first | with_reducible assumption | ((with_reducible refine Foot.le_trans ?_ hF); decide) | ((with_reducible refine Foot.has_of_le hF ?_); (first | decide | (dsimp only; decide))) | ((with_reducible refine Foot.parts_of_le hF ?_); decide) | (exact ⟨by decide, by decide⟩) | lift_lets -underBinder | (intro x; have hx : a.Only g x := (by repeat' (first | with_reducible assumption | ((with_reducible refine Foot.le_trans ?_ hF); decide) | ((with_reducible refine Foot.has_of_le hF ?_); (first | decide | (dsimp only; decide))) | ((with_reducible refine Foot.parts_of_le hF ?_); decide) | (exact ⟨by decide, by decide⟩) | lift_lets -underBinder | (with_reducible first | apply State.Only.ite | apply State.Only.both | apply State.Only.done | apply State.Only.pulseEv | apply State.Only.putFlag) | (first | split | (dsimp only [x]; split)) | (intro _))); clear_value x) | (intro x; clear_value x) | (with_reducible first | apply State.Only.ite | apply State.Only.both | apply State.Only.done | apply State.Only.pulseEv | apply State.Only.putFlag) | split | (intro _))

theorem State.altSelect_only {g : Foot} {a s : State} (h : a.Only g s) (l : Lane) (alt : Bool)
    (hF : Foot.le ⟨[.answer, .eng], [0x11], false⟩ g = true) :
    a.Only g (State.altSelect s l alt) := by
  unfold State.altSelect
  repeat' (first | with_reducible assumption | ((with_reducible refine Foot.le_trans ?_ hF); decide) | ((with_reducible refine Foot.has_of_le hF ?_); (first | decide | (dsimp only; decide))) | ((with_reducible refine Foot.parts_of_le hF ?_); decide) | lift_lets -underBinder | (intro x; have hx : a.Only g x := (by repeat' (first | with_reducible assumption | ((with_reducible refine Foot.le_trans ?_ hF); decide) | ((with_reducible refine Foot.has_of_le hF ?_); (first | decide | (dsimp only; decide))) | ((with_reducible refine Foot.parts_of_le hF ?_); decide) | lift_lets -underBinder | (with_reducible first | apply State.Only.ite | apply State.Only.eng | apply State.Only.putFlag | apply State.reject_only | apply State.reply_only) | (intro _))); clear_value x) | (intro x; dsimp -zeta only [x]; clear x) | (intro x; clear_value x) | (with_reducible first | apply State.Only.ite | apply State.Only.eng | apply State.Only.putFlag | apply State.reject_only | apply State.reply_only) | (intro _))

theorem execPwmAltSelect_only {g : Foot} {a s : State} (h : a.Only g s) (l : Lane) (alt : Bool)
    (hF : Foot.le ⟨[.answer, .eng], [0x11], false⟩ g = true) :
    OutOnly g a (execPwmAltSelect l alt s) := by
  unfold execPwmAltSelect
  repeat' (first | with_reducible assumption | ((with_reducible refine Foot.le_trans ?_ hF); decide) | ((with_reducible refine Foot.has_of_le hF ?_); (first | decide | (dsimp only; decide))) | ((with_reducible refine Foot.parts_of_le hF ?_); decide) | (with_reducible first | apply State.Only.done | apply State.altSelect_only | apply State.writing_only) | (intro _))

theorem State.rateChange_only {g : Foot} {a s : State} (h : a.Only g s) (l : Lane)
    (hF : Foot.le ⟨[.eng], [0x10, 0x11], false⟩ g = true) :
    a.Only g (State.rateChange s l) := by
  unfold State.rateChange
  repeat' (first | with_reducible assumption | ((with_reducible refine Foot.le_trans ?_ hF); decide) | ((with_reducible refine Foot.has_of_le hF ?_); (first | decide | (dsimp only; decide))) | ((with_reducible refine Foot.parts_of_le hF ?_); decide) | lift_lets -underBinder | (intro x; have hx : a.Only g x := (by repeat' (first | with_reducible assumption | ((with_reducible refine Foot.le_trans ?_ hF); decide) | ((with_reducible refine Foot.has_of_le hF ?_); (first | decide | (dsimp only; decide))) | ((with_reducible refine Foot.parts_of_le hF ?_); decide) | lift_lets -underBinder | (with_reducible first | apply State.Only.eng | apply State.Only.put | apply State.Only.putFlag | apply State.showMmax_only) | (first | split | (dsimp only [x]; split)) | (intro _))); clear_value x) | (intro x; clear_value x) | (with_reducible first | apply State.Only.eng | apply State.Only.put | apply State.Only.putFlag | apply State.showMmax_only) | split | (intro _))

theorem execPwmRateChange_only {g : Foot} {a s : State} (h : a.Only g s) (l : Lane)
    (hF : Foot.le ⟨[.eng], [0x10, 0x11], false⟩ g = true) :
    OutOnly g a (execPwmRateChange l s) := by
  unfold execPwmRateChange
  repeat' (first | with_reducible assumption | ((with_reducible refine Foot.le_trans ?_ hF); decide) | ((with_reducible refine Foot.has_of_le hF ?_); (first | decide | (dsimp only; decide))) | ((with_reducible refine Foot.parts_of_le hF ?_); decide) | lift_lets -underBinder | (intro x; have hx : a.Only g x := (by repeat' (first | with_reducible assumption | ((with_reducible refine Foot.le_trans ?_ hF); decide) | ((with_reducible refine Foot.has_of_le hF ?_); (first | decide | (dsimp only; decide))) | ((with_reducible refine Foot.parts_of_le hF ?_); decide) | lift_lets -underBinder | (with_reducible first | apply State.Only.ite | apply State.Only.done | apply State.rateChange_only) | (first | split | (dsimp only [x]; split)) | (intro _))); clear_value x) | (intro x; clear_value x) | (with_reducible first | apply State.Only.ite | apply State.Only.done | apply State.rateChange_only) | split | (intro _))

theorem execVlim_only {g : Foot} {a s : State} (h : a.Only g s) (l : Lane)
    (hF : Foot.le ⟨[], [], false⟩ g = true) :
    OutOnly g a (execVlim l s) := by
  unfold execVlim
  repeat' (first | with_reducible assumption | ((with_reducible refine Foot.le_trans ?_ hF); decide) | ((with_reducible refine Foot.has_of_le hF ?_); (first | decide | (dsimp only; decide))) | ((with_reducible refine Foot.parts_of_le hF ?_); decide) | (exact ⟨by decide, by decide⟩) | (with_reducible first | apply State.Only.ite | apply State.Only.done | apply State.Only.pulseEv) | split | (intro _))

theorem State.clrMiss_only {g : Foot} {a s : State} (h : a.Only g s) (l : Lane)
    (hF : Foot.le ⟨[], [0x11], false⟩ g = true) :
    a.Only g (State.clrMiss s l) := by
  unfold State.clrMiss
  repeat' (first | with_reducible assumption | ((with_reducible refine Foot.le_trans ?_ hF); decide) | ((with_reducible refine Foot.has_of_le hF ?_); (first | decide | (dsimp only; decide))) | ((with_reducible refine Foot.parts_of_le hF ?_); decide) | (with_reducible first | apply State.Only.put) | (intro _))

theorem execTrcClrMiss_only {g : Foot} {a s : State} (h : a.Only g s) (l : Lane)
    (hF : Foot.le ⟨[.answer], [0x11], false⟩ g = true) :
    OutOnly g a (execTrcClrMiss l s) := by
  unfold execTrcClrMiss
  repeat' (first | with_reducible assumption | ((with_reducible refine Foot.le_trans ?_ hF); decide) | ((with_reducible refine Foot.has_of_le hF ?_); (first | decide | (dsimp only; decide))) | ((with_reducible refine Foot.parts_of_le hF ?_); decide) | (with_reducible first | apply State.Only.done | apply State.clrMiss_only | apply State.reply_only | apply State.writing_only) | (intro _))

end Sys2Proof.Machine
end

