-- ==== Sys2Proof/Laws/Only/Fail.lean ====
section
/-! SUPPORT. What the operations of Fail may change. -/
namespace Sys2Proof.Machine
set_option linter.all false
set_option Elab.async false

theorem State.selfFail_only {g : Foot} {a s : State} (h : a.Only g s) (l : Lane) (cause : Nat)
    (hF : Foot.le ⟨[.red], [0x40], false⟩ g = true) :
    a.Only g (State.selfFail s l cause) := by
  unfold State.selfFail
  repeat' (first | with_reducible assumption | ((with_reducible refine Foot.le_trans ?_ hF); decide) | ((with_reducible refine Foot.has_of_le hF ?_); (first | decide | (dsimp only; decide))) | ((with_reducible refine Foot.parts_of_le hF ?_); decide) | (exact ⟨by decide, by decide⟩) | lift_lets -underBinder | (intro x; have hx : a.Only g x := (by repeat' (first | with_reducible assumption | ((with_reducible refine Foot.le_trans ?_ hF); decide) | ((with_reducible refine Foot.has_of_le hF ?_); (first | decide | (dsimp only; decide))) | ((with_reducible refine Foot.parts_of_le hF ?_); decide) | (exact ⟨by decide, by decide⟩) | lift_lets -underBinder | (with_reducible first | apply State.Only.ite | apply State.Only.levelEv | apply State.Only.put | apply State.Only.putFlag | apply State.Only.red) | (first | split | (dsimp only [x]; split)) | (intro _))); clear_value x) | (intro x; clear_value x) | (with_reducible first | apply State.Only.ite | apply State.Only.levelEv | apply State.Only.put | apply State.Only.putFlag | apply State.Only.red) | split | (intro _))

theorem execLockstepMismatch_only {g : Foot} {a s : State} (h : a.Only g s) (l : Lane)
    (hF : Foot.le ⟨[.red], [0x40], false⟩ g = true) :
    OutOnly g a (execLockstepMismatch l s) := by
  unfold execLockstepMismatch
  repeat' (first | with_reducible assumption | ((with_reducible refine Foot.le_trans ?_ hF); decide) | ((with_reducible refine Foot.has_of_le hF ?_); (first | decide | (dsimp only; decide))) | ((with_reducible refine Foot.parts_of_le hF ?_); decide) | (with_reducible first | apply State.Only.done | apply State.selfFail_only) | (intro _))

end Sys2Proof.Machine
end

