-- ==== Sys2Proof/Laws/Only/Feedback.lean ====
section
/-! SUPPORT. What the operations of Feedback may change. -/
namespace Sys2Proof.Machine
set_option linter.all false
set_option Elab.async false

theorem State.faultSrc_only {g : Foot} {a s : State} (h : a.Only g s) (l : Lane) (x : Src)
    (hF : Foot.le ⟨[.fbk], [0x12], false⟩ g = true) :
    a.Only g (State.faultSrc s l x) := by
  unfold State.faultSrc
  repeat' (first | with_reducible assumption | ((with_reducible refine Foot.le_trans ?_ hF); decide) | ((with_reducible refine Foot.has_of_le hF ?_); (first | decide | (dsimp only; decide))) | ((with_reducible refine Foot.parts_of_le hF ?_); decide) | (with_reducible first | apply State.Only.fbk | apply State.Only.putFlag) | (intro _))

theorem State.encGlitch_only {g : Foot} {a s : State} (h : a.Only g s) (l : Lane)
    (hF : Foot.le ⟨[.fbk], [0x12], false⟩ g = true) :
    a.Only g (State.encGlitch s l) := by
  unfold State.encGlitch
  repeat' (first | with_reducible assumption | ((with_reducible refine Foot.le_trans ?_ hF); decide) | ((with_reducible refine Foot.has_of_le hF ?_); (first | decide | (dsimp only; decide))) | ((with_reducible refine Foot.parts_of_le hF ?_); decide) | (exact ⟨by decide, by decide⟩) | lift_lets -underBinder | (intro x; have hx : a.Only g x := (by repeat' (first | with_reducible assumption | ((with_reducible refine Foot.le_trans ?_ hF); decide) | ((with_reducible refine Foot.has_of_le hF ?_); (first | decide | (dsimp only; decide))) | ((with_reducible refine Foot.parts_of_le hF ?_); decide) | (exact ⟨by decide, by decide⟩) | lift_lets -underBinder | (with_reducible first | apply State.Only.ite | apply State.Only.bump | apply State.Only.fbk | apply State.Only.pulseEv | apply State.faultSrc_only) | (intro _))); clear_value x) | (intro x; clear_value x) | (with_reducible first | apply State.Only.ite | apply State.Only.bump | apply State.Only.fbk | apply State.Only.pulseEv | apply State.faultSrc_only) | (intro _))

theorem State.encAdd_only {g : Foot} {a s : State} (h : a.Only g s) (l : Lane) (d : Int)
    (hF : Foot.le ⟨[], [0x12], false⟩ g = true) :
    a.Only g (State.encAdd s l d) := by
  unfold State.encAdd
  repeat' (first | with_reducible assumption | ((with_reducible refine Foot.le_trans ?_ hF); decide) | ((with_reducible refine Foot.has_of_le hF ?_); (first | decide | (dsimp only; decide))) | ((with_reducible refine Foot.parts_of_le hF ?_); decide) | (with_reducible first | apply State.Only.putWord) | (intro _))

theorem execEncEdge_only {g : Foot} {a s : State} (h : a.Only g s) (l : Lane) (pa : Bool) (pb : Bool)
    (hF : Foot.le ⟨[.fbk], [0x12], false⟩ g = true) :
    OutOnly g a (execEncEdge l pa pb s) := by
  unfold execEncEdge
  repeat' (first | with_reducible assumption | ((with_reducible refine Foot.le_trans ?_ hF); decide) | ((with_reducible refine Foot.has_of_le hF ?_); (first | decide | (dsimp only; decide))) | ((with_reducible refine Foot.parts_of_le hF ?_); decide) | lift_lets -underBinder | (intro x; have hx : a.Only g x := (by repeat' (first | with_reducible assumption | ((with_reducible refine Foot.le_trans ?_ hF); decide) | ((with_reducible refine Foot.has_of_le hF ?_); (first | decide | (dsimp only; decide))) | ((with_reducible refine Foot.parts_of_le hF ?_); decide) | lift_lets -underBinder | (with_reducible first | apply State.Only.ite | apply State.Only.both | apply State.Only.done | apply State.Only.fbk | apply State.encAdd_only | apply State.encGlitch_only) | (first | split | (dsimp only [x]; split)) | (intro _))); clear_value x) | (intro x; clear_value x) | (with_reducible first | apply State.Only.ite | apply State.Only.both | apply State.Only.done | apply State.Only.fbk | apply State.encAdd_only | apply State.encGlitch_only) | split | (intro _))

theorem State.indexCheck_only {g : Foot} {a s : State} (h : a.Only g s) (l : Lane) (prev : Word) (cnt : Word)
    (hF : Foot.le ⟨[.fbk], [0x12], false⟩ g = true) :
    a.Only g (State.indexCheck s l prev cnt) := by
  unfold State.indexCheck
  repeat' (first | with_reducible assumption | ((with_reducible refine Foot.le_trans ?_ hF); decide) | ((with_reducible refine Foot.has_of_le hF ?_); (first | decide | (dsimp only; decide))) | ((with_reducible refine Foot.parts_of_le hF ?_); decide) | (exact ⟨by decide, by decide⟩) | lift_lets -underBinder | (intro x; have hx : a.Only g x := (by repeat' (first | with_reducible assumption | ((with_reducible refine Foot.le_trans ?_ hF); decide) | ((with_reducible refine Foot.has_of_le hF ?_); (first | decide | (dsimp only; decide))) | ((with_reducible refine Foot.parts_of_le hF ?_); decide) | (exact ⟨by decide, by decide⟩) | lift_lets -underBinder | (with_reducible first | apply State.Only.ite | apply State.Only.bump | apply State.Only.pulseEv | apply State.Only.put | apply State.faultSrc_only) | (intro _))); clear_value x) | (intro x; dsimp -zeta only [x]; clear x) | (intro x; clear_value x) | (with_reducible first | apply State.Only.ite | apply State.Only.bump | apply State.Only.pulseEv | apply State.Only.put | apply State.faultSrc_only) | (intro _))

theorem execIndexLatch_only {g : Foot} {a s : State} (h : a.Only g s) (l : Lane)
    (hF : Foot.le ⟨[.fbk], [0x12], false⟩ g = true) :
    OutOnly g a (execIndexLatch l s) := by
  unfold execIndexLatch
  repeat' (first | with_reducible assumption | ((with_reducible refine Foot.le_trans ?_ hF); decide) | ((with_reducible refine Foot.has_of_le hF ?_); (first | decide | (dsimp only; decide))) | ((with_reducible refine Foot.parts_of_le hF ?_); decide) | lift_lets -underBinder | (intro x; have hx : a.Only g x := (by repeat' (first | with_reducible assumption | ((with_reducible refine Foot.le_trans ?_ hF); decide) | ((with_reducible refine Foot.has_of_le hF ?_); (first | decide | (dsimp only; decide))) | ((with_reducible refine Foot.parts_of_le hF ?_); decide) | lift_lets -underBinder | (with_reducible first | apply State.Only.ite | apply State.Only.done | apply State.Only.fbk | apply State.Only.putFlag | apply State.Only.putWord | apply State.indexCheck_only) | (first | split | (dsimp only [x]; split)) | (intro _))); clear_value x) | (intro x; clear_value x) | (with_reducible first | apply State.Only.ite | apply State.Only.done | apply State.Only.fbk | apply State.Only.putFlag | apply State.Only.putWord | apply State.indexCheck_only) | split | (intro _))

theorem State.hallIllegal_only {g : Foot} {a s : State} (h : a.Only g s) (l : Lane)
    (hF : Foot.le ⟨[.fbk], [0x12], false⟩ g = true) :
    a.Only g (State.hallIllegal s l) := by
  unfold State.hallIllegal
  repeat' (first | with_reducible assumption | ((with_reducible refine Foot.le_trans ?_ hF); decide) | ((with_reducible refine Foot.has_of_le hF ?_); (first | decide | (dsimp only; decide))) | ((with_reducible refine Foot.parts_of_le hF ?_); decide) | (exact ⟨by decide, by decide⟩) | lift_lets -underBinder | (intro x; have hx : a.Only g x := (by repeat' (first | with_reducible assumption | ((with_reducible refine Foot.le_trans ?_ hF); decide) | ((with_reducible refine Foot.has_of_le hF ?_); (first | decide | (dsimp only; decide))) | ((with_reducible refine Foot.parts_of_le hF ?_); decide) | (exact ⟨by decide, by decide⟩) | lift_lets -underBinder | (with_reducible first | apply State.Only.ite | apply State.Only.bump | apply State.Only.fbk | apply State.Only.pulseEv | apply State.faultSrc_only) | (intro _))); clear_value x) | (intro x; clear_value x) | (with_reducible first | apply State.Only.ite | apply State.Only.bump | apply State.Only.fbk | apply State.Only.pulseEv | apply State.faultSrc_only) | (intro _))

theorem execHallEdge_only {g : Foot} {a s : State} (h : a.Only g s) (l : Lane) (h' : BitVec 3)
    (hF : Foot.le ⟨[.fbk], [0x12], false⟩ g = true) :
    OutOnly g a (execHallEdge l h' s) := by
  unfold execHallEdge
  repeat' (first | with_reducible assumption | ((with_reducible refine Foot.le_trans ?_ hF); decide) | ((with_reducible refine Foot.has_of_le hF ?_); (first | decide | (dsimp only; decide))) | ((with_reducible refine Foot.parts_of_le hF ?_); decide) | (exact ⟨by decide, by decide⟩) | lift_lets -underBinder | (intro x; have hx : a.Only g x := (by repeat' (first | with_reducible assumption | ((with_reducible refine Foot.le_trans ?_ hF); decide) | ((with_reducible refine Foot.has_of_le hF ?_); (first | decide | (dsimp only; decide))) | ((with_reducible refine Foot.parts_of_le hF ?_); decide) | (exact ⟨by decide, by decide⟩) | lift_lets -underBinder | (with_reducible first | apply State.Only.ite | apply State.Only.done | apply State.Only.fbk | apply State.Only.pulseEv | apply State.faultSrc_only | apply State.hallIllegal_only) | (first | split | (dsimp only [x]; split)) | (intro _))); clear_value x) | (intro x; clear_value x) | (with_reducible first | apply State.Only.ite | apply State.Only.done | apply State.Only.fbk | apply State.Only.pulseEv | apply State.faultSrc_only | apply State.hallIllegal_only) | split | (intro _))

theorem State.resCheck_only {g : Foot} {a s : State} (h : a.Only g s) (l : Lane) (n : Nat) (e : Ev) (he : State.EvOnly.Proper e)
    (hF : Foot.le ⟨[.fbk], [0x12], false⟩ g = true) :
    a.Only g (State.resCheck s l n e) := by
  unfold State.resCheck
  repeat' (first | with_reducible assumption | ((with_reducible refine Foot.le_trans ?_ hF); decide) | ((with_reducible refine Foot.has_of_le hF ?_); (first | decide | (dsimp only; decide))) | ((with_reducible refine Foot.parts_of_le hF ?_); decide) | (with_reducible first | apply State.Only.ite | apply State.Only.pulseEv | apply State.faultSrc_only) | (intro _))

theorem execResTrackUpdate_only {g : Foot} {a s : State} (h : a.Only g s) (l : Lane) (angle : BitVec 24) (speed : Word) (amp : BitVec 16) (full : Bool) (err : BitVec 16) (phase : BitVec 8)
    (hF : Foot.le ⟨[.fbk], [0x12], false⟩ g = true) :
    OutOnly g a (execResTrackUpdate l angle speed amp full err phase s) := by
  unfold execResTrackUpdate
  repeat' (first | with_reducible assumption | ((with_reducible refine Foot.le_trans ?_ hF); decide) | ((with_reducible refine Foot.has_of_le hF ?_); (first | decide | (dsimp only; decide))) | ((with_reducible refine Foot.parts_of_le hF ?_); decide) | (exact ⟨by decide, by decide⟩) | lift_lets -underBinder | (intro x; have hx : a.Only g x := (by repeat' (first | with_reducible assumption | ((with_reducible refine Foot.le_trans ?_ hF); decide) | ((with_reducible refine Foot.has_of_le hF ?_); (first | decide | (dsimp only; decide))) | ((with_reducible refine Foot.parts_of_le hF ?_); decide) | (exact ⟨by decide, by decide⟩) | lift_lets -underBinder | (with_reducible first | apply State.Only.ite | apply State.Only.done | apply State.Only.fbk | apply State.Only.putWord | apply State.resCheck_only) | (first | split | (dsimp only [x]; split)) | (intro _))); clear_value x) | (intro x; clear_value x) | (with_reducible first | apply State.Only.ite | apply State.Only.done | apply State.Only.fbk | apply State.Only.putWord | apply State.resCheck_only) | split | (intro _))

theorem State.ssiError_only {g : Foot} {a s : State} (h : a.Only g s) (l : Lane)
    (hF : Foot.le ⟨[.fbk], [0x12], false⟩ g = true) :
    a.Only g (State.ssiError s l) := by
  unfold State.ssiError
  repeat' (first | with_reducible assumption | ((with_reducible refine Foot.le_trans ?_ hF); decide) | ((with_reducible refine Foot.has_of_le hF ?_); (first | decide | (dsimp only; decide))) | ((with_reducible refine Foot.parts_of_le hF ?_); decide) | (exact ⟨by decide, by decide⟩) | lift_lets -underBinder | (intro x; have hx : a.Only g x := (by repeat' (first | with_reducible assumption | ((with_reducible refine Foot.le_trans ?_ hF); decide) | ((with_reducible refine Foot.has_of_le hF ?_); (first | decide | (dsimp only; decide))) | ((with_reducible refine Foot.parts_of_le hF ?_); decide) | (exact ⟨by decide, by decide⟩) | lift_lets -underBinder | (with_reducible first | apply State.Only.ite | apply State.Only.bump | apply State.Only.fbk | apply State.Only.pulseEv | apply State.faultSrc_only) | (intro _))); clear_value x) | (intro x; clear_value x) | (with_reducible first | apply State.Only.ite | apply State.Only.bump | apply State.Only.fbk | apply State.Only.pulseEv | apply State.faultSrc_only) | (intro _))

theorem execSsiRequest_only {g : Foot} {a s : State} (h : a.Only g s) (l : Lane) (datLow : Bool)
    (hF : Foot.le ⟨[.fbk], [0x12], false⟩ g = true) :
    OutOnly g a (execSsiRequest l datLow s) := by
  unfold execSsiRequest
  repeat' (first | with_reducible assumption | ((with_reducible refine Foot.le_trans ?_ hF); decide) | ((with_reducible refine Foot.has_of_le hF ?_); (first | decide | (dsimp only; decide))) | ((with_reducible refine Foot.parts_of_le hF ?_); decide) | lift_lets -underBinder | (intro x; have hx : a.Only g x := (by repeat' (first | with_reducible assumption | ((with_reducible refine Foot.le_trans ?_ hF); decide) | ((with_reducible refine Foot.has_of_le hF ?_); (first | decide | (dsimp only; decide))) | ((with_reducible refine Foot.parts_of_le hF ?_); decide) | lift_lets -underBinder | (with_reducible first | apply State.Only.ite | apply State.Only.done | apply State.Only.fbk | apply State.ssiError_only) | (first | split | (dsimp only [x]; split)) | (intro _))); clear_value x) | (intro x; clear_value x) | (with_reducible first | apply State.Only.ite | apply State.Only.done | apply State.Only.fbk | apply State.ssiError_only) | split | (intro _))

theorem execSsiFrame_only {g : Foot} {a s : State} (h : a.Only g s) (l : Lane) (data : Word) (err : Bool) (par : Bool) (low : Bool)
    (hF : Foot.le ⟨[.fbk], [0x12], false⟩ g = true) :
    OutOnly g a (execSsiFrame l data err par low s) := by
  unfold execSsiFrame
  repeat' (first | with_reducible assumption | ((with_reducible refine Foot.le_trans ?_ hF); decide) | ((with_reducible refine Foot.has_of_le hF ?_); (first | decide | (dsimp only; decide))) | ((with_reducible refine Foot.parts_of_le hF ?_); decide) | lift_lets -underBinder | (intro x; have hx : a.Only g x := (by repeat' (first | with_reducible assumption | ((with_reducible refine Foot.le_trans ?_ hF); decide) | ((with_reducible refine Foot.has_of_le hF ?_); (first | decide | (dsimp only; decide))) | ((with_reducible refine Foot.parts_of_le hF ?_); decide) | lift_lets -underBinder | (with_reducible first | apply State.Only.ite | apply State.Only.done | apply State.Only.fbk | apply State.ssiError_only) | (first | split | (dsimp only [x]; split)) | (intro _))); clear_value x) | (intro x; clear_value x) | (with_reducible first | apply State.Only.ite | apply State.Only.done | apply State.Only.fbk | apply State.ssiError_only) | split | (intro _))

theorem execPosStale_only {g : Foot} {a s : State} (h : a.Only g s) (l : Lane) (x : Src)
    (hF : Foot.le ⟨[.fbk], [0x12], false⟩ g = true) :
    OutOnly g a (execPosStale l x s) := by
  unfold execPosStale
  repeat' (first | with_reducible assumption | ((with_reducible refine Foot.le_trans ?_ hF); decide) | ((with_reducible refine Foot.has_of_le hF ?_); (first | decide | (dsimp only; decide))) | ((with_reducible refine Foot.parts_of_le hF ?_); decide) | (exact ⟨by decide, by decide⟩) | lift_lets -underBinder | (intro x; have hx : a.Only g x := (by repeat' (first | with_reducible assumption | ((with_reducible refine Foot.le_trans ?_ hF); decide) | ((with_reducible refine Foot.has_of_le hF ?_); (first | decide | (dsimp only; decide))) | ((with_reducible refine Foot.parts_of_le hF ?_); decide) | (exact ⟨by decide, by decide⟩) | lift_lets -underBinder | (with_reducible first | apply State.Only.ite | apply State.Only.done | apply State.Only.pulseEv | apply State.Only.putFlag | apply State.faultSrc_only) | (first | split | (dsimp only [x]; split)) | (intro _))); clear_value x) | (intro x; clear_value x) | (with_reducible first | apply State.Only.ite | apply State.Only.done | apply State.Only.pulseEv | apply State.Only.putFlag | apply State.faultSrc_only) | split | (intro _))

theorem execSpeedZeroTimeout_only {g : Foot} {a s : State} (h : a.Only g s) (l : Lane) (x : Src)
    (hF : Foot.le ⟨[.fbk], [], false⟩ g = true) :
    OutOnly g a (execSpeedZeroTimeout l x s) := by
  unfold execSpeedZeroTimeout
  repeat' (first | with_reducible assumption | ((with_reducible refine Foot.le_trans ?_ hF); decide) | ((with_reducible refine Foot.has_of_le hF ?_); (first | decide | (dsimp only; decide))) | ((with_reducible refine Foot.parts_of_le hF ?_); decide) | (with_reducible first | apply State.Only.ite | apply State.Only.done | apply State.Only.fbk) | split | (intro _))

theorem State.posDisagree_only {g : Foot} {a s : State} (h : a.Only g s) (l : Lane)
    (hF : Foot.le ⟨[.fbk], [0x12], false⟩ g = true) :
    a.Only g (State.posDisagree s l) := by
  unfold State.posDisagree
  repeat' (first | with_reducible assumption | ((with_reducible refine Foot.le_trans ?_ hF); decide) | ((with_reducible refine Foot.has_of_le hF ?_); (first | decide | (dsimp only; decide))) | ((with_reducible refine Foot.parts_of_le hF ?_); decide) | (exact ⟨by decide, by decide⟩) | lift_lets -underBinder | (intro x; have hx : a.Only g x := (by repeat' (first | with_reducible assumption | ((with_reducible refine Foot.le_trans ?_ hF); decide) | ((with_reducible refine Foot.has_of_le hF ?_); (first | decide | (dsimp only; decide))) | ((with_reducible refine Foot.parts_of_le hF ?_); decide) | (exact ⟨by decide, by decide⟩) | lift_lets -underBinder | (with_reducible first | apply State.Only.ite | apply State.Only.fbk | apply State.Only.pulseEv | apply State.faultSrc_only) | (first | split | (dsimp only [x]; split)) | (intro _))); clear_value x) | (intro x; dsimp -zeta only [x]; clear x) | (intro x; clear_value x) | (with_reducible first | apply State.Only.ite | apply State.Only.fbk | apply State.Only.pulseEv | apply State.faultSrc_only) | split | (intro _))

theorem execPosDisagree_only {g : Foot} {a s : State} (h : a.Only g s) (l : Lane)
    (hF : Foot.le ⟨[.fbk], [0x12], false⟩ g = true) :
    OutOnly g a (execPosDisagree l s) := by
  unfold execPosDisagree
  repeat' (first | with_reducible assumption | ((with_reducible refine Foot.le_trans ?_ hF); decide) | ((with_reducible refine Foot.has_of_le hF ?_); (first | decide | (dsimp only; decide))) | ((with_reducible refine Foot.parts_of_le hF ?_); decide) | (with_reducible first | apply State.Only.ite | apply State.Only.done | apply State.posDisagree_only) | split | (intro _))

theorem execSourceReturn_only {g : Foot} {a s : State} (h : a.Only g s) (l : Lane) (x : Src) (agreed : Bool)
    (hF : Foot.le ⟨[.fbk], [], false⟩ g = true) :
    OutOnly g a (execSourceReturn l x agreed s) := by
  unfold execSourceReturn
  repeat' (first | with_reducible assumption | ((with_reducible refine Foot.le_trans ?_ hF); decide) | ((with_reducible refine Foot.has_of_le hF ?_); (first | decide | (dsimp only; decide))) | ((with_reducible refine Foot.parts_of_le hF ?_); decide) | lift_lets -underBinder | (intro x; have hx : a.Only g x := (by repeat' (first | with_reducible assumption | ((with_reducible refine Foot.le_trans ?_ hF); decide) | ((with_reducible refine Foot.has_of_le hF ?_); (first | decide | (dsimp only; decide))) | ((with_reducible refine Foot.parts_of_le hF ?_); decide) | lift_lets -underBinder | (with_reducible first | apply State.Only.ite | apply State.Only.done | apply State.Only.fbk) | (first | split | (dsimp only [x]; split)) | (intro _))); clear_value x) | (intro x; clear_value x) | (with_reducible first | apply State.Only.ite | apply State.Only.done | apply State.Only.fbk) | split | (intro _))

theorem State.encOffset_only {g : Foot} {a s : State} (h : a.Only g s) (l : Lane) (w : Word)
    (hF : Foot.le ⟨[.fbk], [], false⟩ g = true) :
    a.Only g (State.encOffset s l w) := by
  unfold State.encOffset
  repeat' (first | with_reducible assumption | ((with_reducible refine Foot.le_trans ?_ hF); decide) | ((with_reducible refine Foot.has_of_le hF ?_); (first | decide | (dsimp only; decide))) | ((with_reducible refine Foot.parts_of_le hF ?_); decide) | (with_reducible first | apply State.Only.fbk) | (intro _))

theorem execEncOffsetWrite_only {g : Foot} {a s : State} (h : a.Only g s) (l : Lane) (ofs : Word)
    (hF : Foot.le ⟨[.answer, .fbk], [], false⟩ g = true) :
    OutOnly g a (execEncOffsetWrite l ofs s) := by
  unfold execEncOffsetWrite
  repeat' (first | with_reducible assumption | ((with_reducible refine Foot.le_trans ?_ hF); decide) | ((with_reducible refine Foot.has_of_le hF ?_); (first | decide | (dsimp only; decide))) | ((with_reducible refine Foot.parts_of_le hF ?_); decide) | (with_reducible first | apply State.Only.done | apply State.encOffset_only | apply State.reply_only | apply State.writing_only) | (intro _))

theorem State.clrFbkCnt_only {g : Foot} {a s : State} (h : a.Only g s) (l : Lane)
    (hF : Foot.le ⟨[], [0x12], false⟩ g = true) :
    a.Only g (State.clrFbkCnt s l) := by
  unfold State.clrFbkCnt
  repeat' (first | with_reducible assumption | ((with_reducible refine Foot.le_trans ?_ hF); decide) | ((with_reducible refine Foot.has_of_le hF ?_); (first | decide | (dsimp only; decide))) | ((with_reducible refine Foot.parts_of_le hF ?_); decide) | (with_reducible first | apply State.Only.putWord) | (intro _))

theorem execFbkClrCnt_only {g : Foot} {a s : State} (h : a.Only g s) (l : Lane)
    (hF : Foot.le ⟨[.answer], [0x12], false⟩ g = true) :
    OutOnly g a (execFbkClrCnt l s) := by
  unfold execFbkClrCnt
  repeat' (first | with_reducible assumption | ((with_reducible refine Foot.le_trans ?_ hF); decide) | ((with_reducible refine Foot.has_of_le hF ?_); (first | decide | (dsimp only; decide))) | ((with_reducible refine Foot.parts_of_le hF ?_); decide) | (with_reducible first | apply State.Only.done | apply State.clrFbkCnt_only | apply State.reply_only | apply State.writing_only) | (intro _))

theorem State.clrDrift_only {g : Foot} {a s : State} (h : a.Only g s) (l : Lane)
    (hF : Foot.le ⟨[], [0x12], false⟩ g = true) :
    a.Only g (State.clrDrift s l) := by
  unfold State.clrDrift
  repeat' (first | with_reducible assumption | ((with_reducible refine Foot.le_trans ?_ hF); decide) | ((with_reducible refine Foot.has_of_le hF ?_); (first | decide | (dsimp only; decide))) | ((with_reducible refine Foot.parts_of_le hF ?_); decide) | (with_reducible first | apply State.Only.put) | (intro _))

theorem execFbkClrDrift_only {g : Foot} {a s : State} (h : a.Only g s) (l : Lane)
    (hF : Foot.le ⟨[.answer], [0x12], false⟩ g = true) :
    OutOnly g a (execFbkClrDrift l s) := by
  unfold execFbkClrDrift
  repeat' (first | with_reducible assumption | ((with_reducible refine Foot.le_trans ?_ hF); decide) | ((with_reducible refine Foot.has_of_le hF ?_); (first | decide | (dsimp only; decide))) | ((with_reducible refine Foot.parts_of_le hF ?_); decide) | (with_reducible first | apply State.Only.done | apply State.clrDrift_only | apply State.reply_only | apply State.writing_only) | (intro _))

theorem State.encRef_only {g : Foot} {a s : State} (h : a.Only g s) (l : Lane)
    (hF : Foot.le ⟨[], [0x12], false⟩ g = true) :
    a.Only g (State.encRef s l) := by
  unfold State.encRef
  repeat' (first | with_reducible assumption | ((with_reducible refine Foot.le_trans ?_ hF); decide) | ((with_reducible refine Foot.has_of_le hF ?_); (first | decide | (dsimp only; decide))) | ((with_reducible refine Foot.parts_of_le hF ?_); decide) | (with_reducible first | apply State.Only.putFlag | apply State.Only.putWord) | (intro _))

theorem execFbkClrEncRef_only {g : Foot} {a s : State} (h : a.Only g s) (l : Lane)
    (hF : Foot.le ⟨[.answer], [0x12], false⟩ g = true) :
    OutOnly g a (execFbkClrEncRef l s) := by
  unfold execFbkClrEncRef
  repeat' (first | with_reducible assumption | ((with_reducible refine Foot.le_trans ?_ hF); decide) | ((with_reducible refine Foot.has_of_le hF ?_); (first | decide | (dsimp only; decide))) | ((with_reducible refine Foot.parts_of_le hF ?_); decide) | (with_reducible first | apply State.Only.done | apply State.encRef_only | apply State.reply_only | apply State.writing_only) | (intro _))

theorem State.clrSrc_only {g : Foot} {a s : State} (h : a.Only g s) (l : Lane) (i : Nat)
    (hF : Foot.le ⟨[.fbk], [0x12], false⟩ g = true) :
    a.Only g (State.clrSrc s l i) := by
  unfold State.clrSrc
  repeat' (first | with_reducible assumption | ((with_reducible refine Foot.le_trans ?_ hF); decide) | ((with_reducible refine Foot.has_of_le hF ?_); (first | decide | (dsimp only; decide))) | ((with_reducible refine Foot.parts_of_le hF ?_); decide) | (with_reducible first | apply State.Only.ite | apply State.Only.fbk | apply State.Only.putFlag) | split | (intro _))

theorem execFbkClrFault_only {g : Foot} {a s : State} (h : a.Only g s) (l : Lane) (x : Src)
    (hF : Foot.le ⟨[.answer, .fbk], [0x12], false⟩ g = true) :
    OutOnly g a (execFbkClrFault l x s) := by
  unfold execFbkClrFault
  repeat' (first | with_reducible assumption | ((with_reducible refine Foot.le_trans ?_ hF); decide) | ((with_reducible refine Foot.has_of_le hF ?_); (first | decide | (dsimp only; decide))) | ((with_reducible refine Foot.parts_of_le hF ?_); decide) | (with_reducible first | apply State.Only.done | apply State.clrSrc_only | apply State.reply_only | apply State.writing_only) | (intro _))

theorem State.encWindow_only {g : Foot} {a s : State} (h : a.Only g s) (l : Lane)
    (hF : Foot.le ⟨[.fbk], [0x12], false⟩ g = true) :
    a.Only g (State.encWindow s l) := by
  unfold State.encWindow
  repeat' (first | with_reducible assumption | ((with_reducible refine Foot.le_trans ?_ hF); decide) | ((with_reducible refine Foot.has_of_le hF ?_); (first | decide | (dsimp only; decide))) | ((with_reducible refine Foot.parts_of_le hF ?_); decide) | lift_lets -underBinder | (intro x; have hx : a.Only g x := (by repeat' (first | with_reducible assumption | ((with_reducible refine Foot.le_trans ?_ hF); decide) | ((with_reducible refine Foot.has_of_le hF ?_); (first | decide | (dsimp only; decide))) | ((with_reducible refine Foot.parts_of_le hF ?_); decide) | lift_lets -underBinder | (with_reducible first | apply State.Only.ite | apply State.Only.fbk | apply State.Only.fold | apply State.Only.putFlag) | (intro _))); clear_value x) | (intro x; clear_value x) | (with_reducible first | apply State.Only.ite | apply State.Only.fbk | apply State.Only.fold | apply State.Only.putFlag) | (intro _))

theorem State.feedback_only {g : Foot} {a s : State} (h : a.Only g s) (l : Lane)
    (hF : Foot.le ⟨[.fbk], [0x12], false⟩ g = true) :
    a.Only g (State.feedback s l) := by
  unfold State.feedback
  repeat' (first | with_reducible assumption | ((with_reducible refine Foot.le_trans ?_ hF); decide) | ((with_reducible refine Foot.has_of_le hF ?_); (first | decide | (dsimp only; decide))) | ((with_reducible refine Foot.parts_of_le hF ?_); decide) | (exact ⟨by decide, by decide⟩) | lift_lets -underBinder | (intro x; have hx : a.Only g x := (by repeat' (first | with_reducible assumption | ((with_reducible refine Foot.le_trans ?_ hF); decide) | ((with_reducible refine Foot.has_of_le hF ?_); (first | decide | (dsimp only; decide))) | ((with_reducible refine Foot.parts_of_le hF ?_); decide) | (exact ⟨by decide, by decide⟩) | lift_lets -underBinder | (with_reducible first | apply State.Only.ite | apply State.Only.fbk | apply State.Only.fold | apply State.Only.levelEv | apply State.Only.pulseEv | apply State.Only.put | apply State.Only.putFlag | apply State.Only.putWord | apply State.encAdd_only | apply State.encWindow_only | apply State.faultSrc_only) | (first | split | (dsimp only [x]; split)) | (intro _))); clear_value x) | (intro x; clear_value x) | (with_reducible first | apply State.Only.ite | apply State.Only.fbk | apply State.Only.fold | apply State.Only.levelEv | apply State.Only.pulseEv | apply State.Only.put | apply State.Only.putFlag | apply State.Only.putWord | apply State.encAdd_only | apply State.encWindow_only | apply State.faultSrc_only) | split | (intro _))

end Sys2Proof.Machine
end

