-- ==== Sys2Proof/Laws/Only/Sensing.lean ====
section
/-! SUPPORT. What the operations of Sensing may change. -/
namespace Sys2Proof.Machine
set_option linter.all false
set_option Elab.async false

theorem State.inputConsequence_only {g : Foot} {a s : State} (h : a.Only g s) (l : Lane) (n : Nat)
    (hF : Foot.le ⟨[.hv, .aon, .mon, .trc, .chg, .loopReq], [0x10, 0x11, 0x30, 0x31, 0x32, 0x33, 0x40, 0x50], false⟩ g = true) :
    a.Only g (State.inputConsequence s l n) := by
  unfold State.inputConsequence
  repeat' (first | with_reducible assumption | ((with_reducible refine Foot.le_trans ?_ hF); decide) | ((with_reducible refine Foot.has_of_le hF ?_); (first | decide | (dsimp only; decide))) | ((with_reducible refine Foot.parts_of_le hF ?_); decide) | (with_reducible first | apply State.Only.ite | apply State.Only.putFlag | apply State.chgFault_only | apply State.phaseStop_only | apply State.setFault_only | apply State.spFault_only) | (intro _))

theorem State.faultInput_only {g : Foot} {a s : State} (h : a.Only g s) (l : Lane) (n : Nat) (e : Ev) (he : State.EvOnly.Proper e)
    (hF : Foot.le ⟨[.hv, .aon, .mon, .trc, .chg, .loopReq], [0x10, 0x11, 0x13, 0x30, 0x31, 0x32, 0x33, 0x40, 0x50], false⟩ g = true) :
    a.Only g (State.faultInput s l n e) := by
  unfold State.faultInput
  repeat' (first | with_reducible assumption | ((with_reducible refine Foot.le_trans ?_ hF); decide) | ((with_reducible refine Foot.has_of_le hF ?_); (first | decide | (dsimp only; decide))) | ((with_reducible refine Foot.parts_of_le hF ?_); decide) | lift_lets -underBinder | (intro x; have hx : a.Only g x := (by repeat' (first | with_reducible assumption | ((with_reducible refine Foot.le_trans ?_ hF); decide) | ((with_reducible refine Foot.has_of_le hF ?_); (first | decide | (dsimp only; decide))) | ((with_reducible refine Foot.parts_of_le hF ?_); decide) | lift_lets -underBinder | (with_reducible first | apply State.Only.ite | apply State.Only.pulseEv | apply State.Only.putFlag | apply State.inputConsequence_only) | (intro _))); clear_value x) | (intro x; clear_value x) | (with_reducible first | apply State.Only.ite | apply State.Only.pulseEv | apply State.Only.putFlag | apply State.inputConsequence_only) | (intro _))

theorem State.sumCheck_only {g : Foot} {a s : State} (h : a.Only g s) (l : Lane)
    (hF : Foot.le ⟨[.hv, .trc, .smp, .loopReq], [0x10, 0x11, 0x13], false⟩ g = true) :
    a.Only g (State.sumCheck s l) := by
  unfold State.sumCheck
  repeat' (first | with_reducible assumption | ((with_reducible refine Foot.le_trans ?_ hF); decide) | ((with_reducible refine Foot.has_of_le hF ?_); (first | decide | (dsimp only; decide))) | ((with_reducible refine Foot.parts_of_le hF ?_); decide) | (exact ⟨by decide, by decide⟩) | lift_lets -underBinder | (intro x; have hx : a.Only g x := (by repeat' (first | with_reducible assumption | ((with_reducible refine Foot.le_trans ?_ hF); decide) | ((with_reducible refine Foot.has_of_le hF ?_); (first | decide | (dsimp only; decide))) | ((with_reducible refine Foot.parts_of_le hF ?_); decide) | (exact ⟨by decide, by decide⟩) | lift_lets -underBinder | (with_reducible first | apply State.Only.ite | apply State.Only.bump | apply State.Only.pulseEv | apply State.Only.putWord | apply State.Only.smp | apply State.setFault_only) | (intro _))); clear_value x) | (intro x; clear_value x) | (with_reducible first | apply State.Only.ite | apply State.Only.bump | apply State.Only.pulseEv | apply State.Only.putWord | apply State.Only.smp | apply State.setFault_only) | (intro _))

theorem State.residCheck_only {g : Foot} {a s : State} (h : a.Only g s) (l : Lane)
    (hF : Foot.le ⟨[.hv, .trc, .smp, .loopReq], [0x10, 0x11, 0x13], false⟩ g = true) :
    a.Only g (State.residCheck s l) := by
  unfold State.residCheck
  repeat' (first | with_reducible assumption | ((with_reducible refine Foot.le_trans ?_ hF); decide) | ((with_reducible refine Foot.has_of_le hF ?_); (first | decide | (dsimp only; decide))) | ((with_reducible refine Foot.parts_of_le hF ?_); decide) | (exact ⟨by decide, by decide⟩) | lift_lets -underBinder | (intro x; have hx : a.Only g x := (by repeat' (first | with_reducible assumption | ((with_reducible refine Foot.le_trans ?_ hF); decide) | ((with_reducible refine Foot.has_of_le hF ?_); (first | decide | (dsimp only; decide))) | ((with_reducible refine Foot.parts_of_le hF ?_); decide) | (exact ⟨by decide, by decide⟩) | lift_lets -underBinder | (with_reducible first | apply State.Only.ite | apply State.Only.bump | apply State.Only.pulseEv | apply State.Only.putWord | apply State.Only.smp | apply State.Only.trc | apply State.setFault_only) | (first | split | (dsimp only [x]; split)) | (intro _))); clear_value x) | (intro x; clear_value x) | (with_reducible first | apply State.Only.ite | apply State.Only.bump | apply State.Only.pulseEv | apply State.Only.putWord | apply State.Only.smp | apply State.Only.trc | apply State.setFault_only) | split | (intro _))

theorem State.ipkCheck_only {g : Foot} {a s : State} (h : a.Only g s) (l : Lane) (k : Fin 2) (v : Word)
    (hF : Foot.le ⟨[.hv, .smp], [0x30], false⟩ g = true) :
    a.Only g (State.ipkCheck s l k v) := by
  unfold State.ipkCheck
  repeat' (first | with_reducible assumption | ((with_reducible refine Foot.le_trans ?_ hF); decide) | ((with_reducible refine Foot.has_of_le hF ?_); (first | decide | (dsimp only; decide))) | ((with_reducible refine Foot.parts_of_le hF ?_); decide) | (exact ⟨by decide, by decide⟩) | lift_lets -underBinder | (intro x; have hx : a.Only g x := (by repeat' (first | with_reducible assumption | ((with_reducible refine Foot.le_trans ?_ hF); decide) | ((with_reducible refine Foot.has_of_le hF ?_); (first | decide | (dsimp only; decide))) | ((with_reducible refine Foot.parts_of_le hF ?_); decide) | (exact ⟨by decide, by decide⟩) | lift_lets -underBinder | (with_reducible first | apply State.Only.ite | apply State.Only.bump | apply State.Only.pulseEv | apply State.Only.smp | apply State.gatesOff_only | apply State.phaseStop_only) | (first | split | (dsimp only [x]; split)) | (intro _))); clear_value x) | (intro x; clear_value x) | (with_reducible first | apply State.Only.ite | apply State.Only.bump | apply State.Only.pulseEv | apply State.Only.smp | apply State.gatesOff_only | apply State.phaseStop_only) | split | (intro _))

theorem State.chgIpk_only {g : Foot} {a s : State} (h : a.Only g s) (l : Lane) (k : Fin 4) (v : Word)
    (hF : Foot.le ⟨[.hv, .aon, .mon, .smp, .chg, .loopReq], [0x10, 0x30, 0x31, 0x32, 0x33, 0x50], false⟩ g = true) :
    a.Only g (State.chgIpk s l k v) := by
  unfold State.chgIpk
  repeat' (first | with_reducible assumption | ((with_reducible refine Foot.le_trans ?_ hF); decide) | ((with_reducible refine Foot.has_of_le hF ?_); (first | decide | (dsimp only; decide))) | ((with_reducible refine Foot.parts_of_le hF ?_); decide) | (exact ⟨by decide, by decide⟩) | lift_lets -underBinder | (intro x; have hx : a.Only g x := (by repeat' (first | with_reducible assumption | ((with_reducible refine Foot.le_trans ?_ hF); decide) | ((with_reducible refine Foot.has_of_le hF ?_); (first | decide | (dsimp only; decide))) | ((with_reducible refine Foot.parts_of_le hF ?_); decide) | (exact ⟨by decide, by decide⟩) | lift_lets -underBinder | (with_reducible first | apply State.Only.ite | apply State.Only.bump | apply State.Only.pulseEv | apply State.Only.smp | apply State.chgFault_only | apply State.gatesOff_only) | (first | split | (dsimp only [x]; split)) | (intro _))); clear_value x) | (intro x; clear_value x) | (with_reducible first | apply State.Only.ite | apply State.Only.bump | apply State.Only.pulseEv | apply State.Only.smp | apply State.chgFault_only | apply State.gatesOff_only) | split | (intro _))

theorem State.useResult_only {g : Foot} {a s : State} (h : a.Only g s) (l : Lane) (n : Fin 24) (hF : Foot.le ⟨[.hv, .aon, .free, .mon, .trc, .smp, .chg, .loopReq], [0x10, 0x11, 0x13, 0x30, 0x31, 0x32, 0x33, 0x50], false⟩ g = true) :
    a.Only g (State.useResult s l n) := by
  unfold State.useResult
  dsimp only
  refine State.Only.ite (fun _ => ?_) (fun _ => State.Only.ite (fun _ => ?_) (fun _ => State.Only.ite (fun _ => ?_) (fun _ =>
    State.Only.ite (fun _ => ?_) (fun _ => State.Only.ite (fun _ => ?_) (fun _ => State.Only.ite (fun _ => ?_) (fun _ =>
    State.Only.ite (fun _ => ?_) (fun _ => State.Only.ite (fun _ => ?_) (fun _ => State.Only.ite (fun _ => ?_) (fun _ =>
    State.Only.ite (fun c => ?_) (fun _ => h))))))))))
  · exact State.Only.putWord (State.Only.putWord h _ _ _ (Foot.has_of_le hF (by decide))) _ _ _ (Foot.has_of_le hF (by decide))
  · exact State.Only.smp (State.residCheck_only (State.sumCheck_only h _ (Foot.le_trans (by decide) hF)) _ (Foot.le_trans (by decide) hF)) _ _
      (Foot.parts_of_le hF (by decide))
  · exact State.ipkCheck_only h _ _ _ (Foot.le_trans (by decide) hF)
  · exact State.ipkCheck_only h _ _ _ (Foot.le_trans (by decide) hF)
  · exact State.chgIpk_only h _ _ _ (Foot.le_trans (by decide) hF)
  · exact State.chgIpk_only h _ _ _ (Foot.le_trans (by decide) hF)
  · exact State.chgIpk_only h _ _ _ (Foot.le_trans (by decide) hF)
  · exact State.chgIpk_only h _ _ _ (Foot.le_trans (by decide) hF)
  · exact State.Only.put h _ _ _ (Foot.has_of_le hF (by decide))
  · simp only [Bool.and_eq_true, decide_eq_true_eq] at c
    exact State.Only.put (State.Only.put (State.Only.put h _ _ _ (Foot.has_of_le hF (F.SMP_TEMP_TEMP_has _ (by omega) _ rfl)))
      _ _ _ (Foot.has_of_le hF (F.SMP_TEMP_TAG_has _ (by omega) _ rfl))) _ _ _ (Foot.has_of_le hF (F.SMP_TEMP_RAW12_has _ (by omega) _ rfl))

theorem State.sarResult_only {g : Foot} {a s : State} (h : a.Only g s) (l : Lane) (n : Fin 24) (code : BitVec 16) (tag : BitVec 4) (waited : Bool) (edge : Bool)
    (hF : Foot.le ⟨[.hv, .aon, .free, .mon, .trc, .smp, .chg, .loopReq], [0x10, 0x11, 0x13, 0x30, 0x31, 0x32, 0x33, 0x40, 0x50], false⟩ g = true) :
    a.Only g (State.sarResult s l n code tag waited edge) := by
  unfold State.sarResult
  repeat' (first | with_reducible assumption | ((with_reducible refine Foot.le_trans ?_ hF); decide) | ((with_reducible refine Foot.has_of_le hF ?_); (first | (simp (disch := first | omega | decide) only [F.SMP_IN_CFG_USED_has, F.SMP_RAW_TAG_has, F.SMP_RAW_CODE_has, F.SMP_IN_CFG_LIM_EN_has, F.SMP_IN_LIM_LO_has, F.SMP_IN_LIM_HI_has]; done) | decide | (dsimp only; decide))) | ((with_reducible refine Foot.parts_of_le hF ?_); decide) | (exact ⟨by decide, by decide⟩) | lift_lets -underBinder | (intro x; have hx : a.Only g x := (by repeat' (first | with_reducible assumption | ((with_reducible refine Foot.le_trans ?_ hF); decide) | ((with_reducible refine Foot.has_of_le hF ?_); (first | (simp (disch := first | omega | decide) only [F.SMP_IN_CFG_USED_has, F.SMP_RAW_TAG_has, F.SMP_RAW_CODE_has, F.SMP_IN_CFG_LIM_EN_has, F.SMP_IN_LIM_LO_has, F.SMP_IN_LIM_HI_has]; done) | decide | (dsimp only; decide))) | ((with_reducible refine Foot.parts_of_le hF ?_); decide) | (exact ⟨by decide, by decide⟩) | lift_lets -underBinder | (with_reducible first | apply State.Only.ite | apply State.Only.bump | apply State.Only.pulseEv | apply State.Only.putFlag | apply State.Only.putWord | apply State.Only.smp | apply State.faultInput_only | apply State.useResult_only) | (first | split | (dsimp only [x]; split)) | (intro _))); clear_value x) | (intro x; clear_value x) | (with_reducible first | apply State.Only.ite | apply State.Only.bump | apply State.Only.pulseEv | apply State.Only.putFlag | apply State.Only.putWord | apply State.Only.smp | apply State.faultInput_only | apply State.useResult_only) | split | (intro _))

theorem State.dclSource_only {g : Foot} {a s : State} (h : a.Only g s) (l : Lane)
    (hF : Foot.le ⟨[.hv, .aon, .mon, .dcl, .chg, .loopReq], [0x10, 0x30, 0x31, 0x32, 0x33, 0x50], false⟩ g = true) :
    a.Only g (State.dclSource s l) := by
  unfold State.dclSource
  repeat' (first | with_reducible assumption | ((with_reducible refine Foot.le_trans ?_ hF); decide) | ((with_reducible refine Foot.has_of_le hF ?_); (first | decide | (dsimp only; decide))) | ((with_reducible refine Foot.parts_of_le hF ?_); decide) | (exact ⟨by decide, by decide⟩) | lift_lets -underBinder | (intro x; have hx : a.Only g x := (by repeat' (first | with_reducible assumption | ((with_reducible refine Foot.le_trans ?_ hF); decide) | ((with_reducible refine Foot.has_of_le hF ?_); (first | decide | (dsimp only; decide))) | ((with_reducible refine Foot.parts_of_le hF ?_); decide) | (exact ⟨by decide, by decide⟩) | lift_lets -underBinder | (with_reducible first | apply State.Only.ite | apply State.Only.fold | apply State.Only.pulseEv | apply State.Only.put | apply State.dclFault_only | apply State.phaseStop_only) | (intro _))); clear_value x) | (intro x; clear_value x) | (with_reducible first | apply State.Only.ite | apply State.Only.fold | apply State.Only.pulseEv | apply State.Only.put | apply State.dclFault_only | apply State.phaseStop_only) | (intro _))

theorem execConversionResult_only {g : Foot} {a s : State} (h : a.Only g s) (l : Lane) (r : ConvIn)
    (hF : Foot.le ⟨[.hv, .aon, .free, .mon, .red, .trc, .smp, .chg, .loopReq], [0x10, 0x11, 0x13, 0x30, 0x31, 0x32, 0x33, 0x40, 0x50], false⟩ g = true) :
    OutOnly g a (execConversionResult l r s) := by
  unfold execConversionResult
  repeat' (first | with_reducible assumption | ((with_reducible refine Foot.le_trans ?_ hF); decide) | ((with_reducible refine Foot.has_of_le hF ?_); (first | (simp (disch := first | omega | decide) only [F.SMP_SNS_TAG_has, F.SMP_SNS_VALUE_has]; done) | decide | (dsimp only; decide))) | ((with_reducible refine Foot.parts_of_le hF ?_); decide) | (exact ⟨by decide, by decide⟩) | lift_lets -underBinder | (intro x; have hx : a.Only g x := (by repeat' (first | with_reducible assumption | ((with_reducible refine Foot.le_trans ?_ hF); decide) | ((with_reducible refine Foot.has_of_le hF ?_); (first | (simp (disch := first | omega | decide) only [F.SMP_SNS_TAG_has, F.SMP_SNS_VALUE_has]; done) | decide | (dsimp only; decide))) | ((with_reducible refine Foot.parts_of_le hF ?_); decide) | (exact ⟨by decide, by decide⟩) | lift_lets -underBinder | (with_reducible first | apply State.Only.ite | apply State.Only.bump | apply State.Only.done | apply State.Only.pulseEv | apply State.Only.put | apply State.Only.putFlag | apply State.Only.smp | apply State.sarResult_only | apply State.selfFail_only) | (first | split | (dsimp only [x]; split)) | (intro _))); clear_value x) | (intro x; clear_value x) | (with_reducible first | apply State.Only.ite | apply State.Only.bump | apply State.Only.done | apply State.Only.pulseEv | apply State.Only.put | apply State.Only.putFlag | apply State.Only.smp | apply State.sarResult_only | apply State.selfFail_only) | split | (intro _))

theorem State.snsClock_only {g : Foot} {a s : State} (h : a.Only g s) (m : Fin 7) (toB : Bool)
    (hF : Foot.le ⟨[.sns, .smp], [0x22], false⟩ g = true) :
    a.Only g (State.snsClock s m toB) := by
  unfold State.snsClock
  repeat' (first | with_reducible assumption | ((with_reducible refine Foot.le_trans ?_ hF); decide) | ((with_reducible refine Foot.has_of_le hF ?_); (first | (simp (disch := first | omega | decide) only [F.SNS_CNT_CHG_has]; done) | decide | (dsimp only; decide))) | ((with_reducible refine Foot.parts_of_le hF ?_); decide) | lift_lets -underBinder | (intro x; have hx : a.Only g x := (by repeat' (first | with_reducible assumption | ((with_reducible refine Foot.le_trans ?_ hF); decide) | ((with_reducible refine Foot.has_of_le hF ?_); (first | (simp (disch := first | omega | decide) only [F.SNS_CNT_CHG_has]; done) | decide | (dsimp only; decide))) | ((with_reducible refine Foot.parts_of_le hF ?_); decide) | lift_lets -underBinder | (with_reducible first | apply State.Only.ite | apply State.Only.both | apply State.Only.mbump | apply State.Only.smp | apply State.Only.sns) | (intro _))); clear_value x) | (intro x; clear_value x) | (with_reducible first | apply State.Only.ite | apply State.Only.both | apply State.Only.mbump | apply State.Only.smp | apply State.Only.sns) | (intro _))

theorem execSnsClockChangeover_only {g : Foot} {a s : State} (h : a.Only g s) (m : Fin 7) (toB : Bool)
    (hF : Foot.le ⟨[.sns, .smp], [0x22], false⟩ g = true) :
    OutOnly g a (execSnsClockChangeover m toB s) := by
  unfold execSnsClockChangeover
  repeat' (first | with_reducible assumption | ((with_reducible refine Foot.le_trans ?_ hF); decide) | ((with_reducible refine Foot.has_of_le hF ?_); (first | (simp (disch := first | omega | decide) only [F.SNS_CFG_CLK_SEL_has]; done) | decide | (dsimp only; decide))) | ((with_reducible refine Foot.parts_of_le hF ?_); decide) | (with_reducible first | apply State.Only.ite | apply State.Only.done | apply State.snsClock_only) | split | (intro _))

theorem execSnsLost_only {g : Foot} {a s : State} (h : a.Only g s) (w : Seer) (m : Fin 7)
    (hF : Foot.le ⟨[.hv, .aon, .mon, .smp, .dcl, .chg, .loopReq], [0x10, 0x13, 0x22, 0x30, 0x31, 0x32, 0x33, 0x50], false⟩ g = true) :
    OutOnly g a (execSnsLost w m s) := by
  unfold execSnsLost
  repeat' (first | with_reducible assumption | ((with_reducible refine Foot.le_trans ?_ hF); decide) | ((with_reducible refine Foot.has_of_le hF ?_); (first | (simp (disch := first | omega | decide) only [F.SMP_SNS_LOST_has, F.SNS_CNT_LOSS_has]; done) | decide | (dsimp only; decide))) | ((with_reducible refine Foot.parts_of_le hF ?_); decide) | (exact ⟨by decide, by decide⟩) | (exact Or.inr (fun _ => rfl)) | lift_lets -underBinder | (intro x; have hx : a.Only g x := (by repeat' (first | with_reducible assumption | ((with_reducible refine Foot.le_trans ?_ hF); decide) | ((with_reducible refine Foot.has_of_le hF ?_); (first | (simp (disch := first | omega | decide) only [F.SMP_SNS_LOST_has, F.SNS_CNT_LOSS_has]; done) | decide | (dsimp only; decide))) | ((with_reducible refine Foot.parts_of_le hF ?_); decide) | (exact ⟨by decide, by decide⟩) | (exact Or.inr (fun _ => rfl)) | lift_lets -underBinder | (with_reducible first | apply State.Only.ite | apply State.Only.done | apply State.Only.mbump | apply State.Only.mon | apply State.Only.monEv | apply State.Only.pulseEv | apply State.Only.putFlag | apply State.Only.smp | apply State.dclSource_only) | (first | split | (dsimp only [x]; split)) | (intro _))); clear_value x) | (intro x; clear_value x) | (with_reducible first | apply State.Only.ite | apply State.Only.done | apply State.Only.mbump | apply State.Only.mon | apply State.Only.monEv | apply State.Only.pulseEv | apply State.Only.putFlag | apply State.Only.smp | apply State.dclSource_only) | split | (intro _))

theorem State.monSense_only {g : Foot} {a s : State} (h : a.Only g s) (k : Fin 2) (value : BitVec 16) (volts : Nat)
    (hF : Foot.le ⟨[.mon], [0x22, 0x80], false⟩ g = true) :
    a.Only g (State.monSense s k value volts) := by
  unfold State.monSense
  repeat' (first | with_reducible assumption | ((with_reducible refine Foot.le_trans ?_ hF); decide) | ((with_reducible refine Foot.has_of_le hF ?_); (first | (simp (disch := first | omega | decide) only [F.SNS_MON_VALUE_has]; done) | decide | (dsimp only; decide))) | ((with_reducible refine Foot.parts_of_le hF ?_); decide) | (exact Or.inr (fun _ => rfl)) | lift_lets -underBinder | (intro x; have hx : a.Only g x := (by repeat' (first | with_reducible assumption | ((with_reducible refine Foot.le_trans ?_ hF); decide) | ((with_reducible refine Foot.has_of_le hF ?_); (first | (simp (disch := first | omega | decide) only [F.SNS_MON_VALUE_has]; done) | decide | (dsimp only; decide))) | ((with_reducible refine Foot.parts_of_le hF ?_); decide) | (exact Or.inr (fun _ => rfl)) | lift_lets -underBinder | (with_reducible first | apply State.Only.mon | apply State.Only.mput | apply State.Only.mputFlag) | (first | split | (dsimp only [x]; split)) | (intro _))); clear_value x) | (intro x; clear_value x) | (with_reducible first | apply State.Only.mon | apply State.Only.mput | apply State.Only.mputFlag) | split | (intro _))

theorem execSnsRestored_only {g : Foot} {a s : State} (h : a.Only g s) (w : Seer) (m : Fin 7) (value : BitVec 16) (volts : Nat)
    (hF : Foot.le ⟨[.mon, .smp], [0x13, 0x22, 0x80], false⟩ g = true) :
    OutOnly g a (execSnsRestored w m value volts s) := by
  unfold execSnsRestored
  repeat' (first | with_reducible assumption | ((with_reducible refine Foot.le_trans ?_ hF); decide) | ((with_reducible refine Foot.has_of_le hF ?_); (first | (simp (disch := first | omega | decide) only [F.SMP_SNS_LOST_has, F.SMP_SNS_VALUE_has]; done) | decide | (dsimp only; decide))) | ((with_reducible refine Foot.parts_of_le hF ?_); decide) | lift_lets -underBinder | (intro x; have hx : a.Only g x := (by repeat' (first | with_reducible assumption | ((with_reducible refine Foot.le_trans ?_ hF); decide) | ((with_reducible refine Foot.has_of_le hF ?_); (first | (simp (disch := first | omega | decide) only [F.SMP_SNS_LOST_has, F.SMP_SNS_VALUE_has]; done) | decide | (dsimp only; decide))) | ((with_reducible refine Foot.parts_of_le hF ?_); decide) | lift_lets -underBinder | (with_reducible first | apply State.Only.ite | apply State.Only.done | apply State.Only.put | apply State.Only.putFlag | apply State.Only.smp | apply State.monSense_only) | (first | split | (dsimp only [x]; split)) | (intro _))); clear_value x) | (intro x; clear_value x) | (with_reducible first | apply State.Only.ite | apply State.Only.done | apply State.Only.put | apply State.Only.putFlag | apply State.Only.smp | apply State.monSense_only) | split | (intro _))

theorem execDclDisagree_only {g : Foot} {a s : State} (h : a.Only g s) (w : Seer)
    (hF : Foot.le ⟨[.hv, .aon, .mon, .dcl, .chg, .loopReq], [0x10, 0x13, 0x30, 0x31, 0x32, 0x33, 0x50], false⟩ g = true) :
    OutOnly g a (execDclDisagree w s) := by
  unfold execDclDisagree
  repeat' (first | with_reducible assumption | ((with_reducible refine Foot.le_trans ?_ hF); decide) | ((with_reducible refine Foot.has_of_le hF ?_); (first | decide | (dsimp only; decide))) | ((with_reducible refine Foot.parts_of_le hF ?_); decide) | (exact ⟨by decide, by decide⟩) | lift_lets -underBinder | (intro x; have hx : a.Only g x := (by repeat' (first | with_reducible assumption | ((with_reducible refine Foot.le_trans ?_ hF); decide) | ((with_reducible refine Foot.has_of_le hF ?_); (first | decide | (dsimp only; decide))) | ((with_reducible refine Foot.parts_of_le hF ?_); decide) | (exact ⟨by decide, by decide⟩) | lift_lets -underBinder | (with_reducible first | apply State.Only.ite | apply State.Only.both | apply State.Only.done | apply State.Only.levelEv | apply State.Only.monEv | apply State.Only.putFlag | apply State.dclSource_only) | (first | split | (dsimp only [x]; split)) | (intro _))); clear_value x) | (intro x; clear_value x) | (with_reducible first | apply State.Only.ite | apply State.Only.both | apply State.Only.done | apply State.Only.levelEv | apply State.Only.monEv | apply State.Only.putFlag | apply State.dclSource_only) | split | (intro _))

theorem State.calStart_only {g : Foot} {a s : State} (h : a.Only g s) (l : Lane) (mask : BitVec 24)
    (hF : Foot.le ⟨[.answer], [0x13], false⟩ g = true) :
    a.Only g (State.calStart s l mask) := by
  unfold State.calStart
  repeat' (first | with_reducible assumption | ((with_reducible refine Foot.le_trans ?_ hF); decide) | ((with_reducible refine Foot.has_of_le hF ?_); (first | decide | (dsimp only; decide))) | ((with_reducible refine Foot.parts_of_le hF ?_); decide) | lift_lets -underBinder | (intro x; have hx : a.Only g x := (by repeat' (first | with_reducible assumption | ((with_reducible refine Foot.le_trans ?_ hF); decide) | ((with_reducible refine Foot.has_of_le hF ?_); (first | decide | (dsimp only; decide))) | ((with_reducible refine Foot.parts_of_le hF ?_); decide) | lift_lets -underBinder | (with_reducible first | apply State.Only.ite | apply State.Only.put | apply State.Only.putFlag | apply State.reject_only | apply State.reply_only) | (first | split | (dsimp only [x]; split)) | (intro _))); clear_value x) | (intro x; clear_value x) | (with_reducible first | apply State.Only.ite | apply State.Only.put | apply State.Only.putFlag | apply State.reject_only | apply State.reply_only) | split | (intro _))

theorem execCalibrationStart_only {g : Foot} {a s : State} (h : a.Only g s) (l : Lane) (mask : BitVec 24)
    (hF : Foot.le ⟨[.answer], [0x13], false⟩ g = true) :
    OutOnly g a (execCalibrationStart l mask s) := by
  unfold execCalibrationStart
  repeat' (first | with_reducible assumption | ((with_reducible refine Foot.le_trans ?_ hF); decide) | ((with_reducible refine Foot.has_of_le hF ?_); (first | decide | (dsimp only; decide))) | ((with_reducible refine Foot.parts_of_le hF ?_); decide) | (with_reducible first | apply State.Only.done | apply State.calStart_only | apply State.writing_only) | (intro _))

theorem execCalDone_only {g : Foot} {a s : State} (h : a.Only g s) (l : Lane) (avg : Vector (BitVec 16) 24)
    (hF : Foot.le ⟨[], [0x13], false⟩ g = true) :
    OutOnly g a (execCalDone l avg s) := by
  unfold execCalDone
  repeat' (first | with_reducible assumption | ((with_reducible refine Foot.le_trans ?_ hF); decide) | ((with_reducible refine Foot.has_of_le hF ?_); (first | (simp (disch := first | omega | decide) only [F.SMP_IN_OFS_OFS_has]; done) | decide | (dsimp only; decide))) | ((with_reducible refine Foot.parts_of_le hF ?_); decide) | (exact ⟨by decide, by decide⟩) | lift_lets -underBinder | (intro x; have hx : a.Only g x := (by repeat' (first | with_reducible assumption | ((with_reducible refine Foot.le_trans ?_ hF); decide) | ((with_reducible refine Foot.has_of_le hF ?_); (first | (simp (disch := first | omega | decide) only [F.SMP_IN_OFS_OFS_has]; done) | decide | (dsimp only; decide))) | ((with_reducible refine Foot.parts_of_le hF ?_); decide) | (exact ⟨by decide, by decide⟩) | lift_lets -underBinder | (with_reducible first | apply State.Only.ite | apply State.Only.done | apply State.Only.fold | apply State.Only.pulseEv | apply State.Only.put | apply State.Only.putFlag) | (first | split | (dsimp only [x]; split)) | (intro _))); clear_value x) | (intro x; clear_value x) | (with_reducible first | apply State.Only.ite | apply State.Only.done | apply State.Only.fold | apply State.Only.pulseEv | apply State.Only.put | apply State.Only.putFlag) | split | (intro _))

theorem State.clrSmpCnt_only {g : Foot} {a s : State} (h : a.Only g s) (l : Lane)
    (hF : Foot.le ⟨[], [0x13], false⟩ g = true) :
    a.Only g (State.clrSmpCnt s l) := by
  unfold State.clrSmpCnt
  repeat' (first | with_reducible assumption | ((with_reducible refine Foot.le_trans ?_ hF); decide) | ((with_reducible refine Foot.has_of_le hF ?_); (first | decide | (dsimp only; decide))) | ((with_reducible refine Foot.parts_of_le hF ?_); decide) | (with_reducible first | apply State.Only.put | apply State.Only.putWord) | (intro _))

theorem execSmpClrCnt_only {g : Foot} {a s : State} (h : a.Only g s) (l : Lane)
    (hF : Foot.le ⟨[.answer], [0x13], false⟩ g = true) :
    OutOnly g a (execSmpClrCnt l s) := by
  unfold execSmpClrCnt
  repeat' (first | with_reducible assumption | ((with_reducible refine Foot.le_trans ?_ hF); decide) | ((with_reducible refine Foot.has_of_le hF ?_); (first | decide | (dsimp only; decide))) | ((with_reducible refine Foot.parts_of_le hF ?_); decide) | (with_reducible first | apply State.Only.done | apply State.clrSmpCnt_only | apply State.reply_only | apply State.writing_only) | (intro _))

theorem State.clrSns_only {g : Foot} {a s : State} (h : a.Only g s) (l : Lane) (m : Nat)
    (hF : Foot.le ⟨[.hv, .aon, .mon, .dcl, .chg, .loopReq], [0x10, 0x13, 0x30, 0x31, 0x32, 0x33, 0x50], false⟩ g = true) :
    a.Only g (State.clrSns s l m) := by
  unfold State.clrSns
  repeat' (first | with_reducible assumption | ((with_reducible refine Foot.le_trans ?_ hF); decide) | ((with_reducible refine Foot.has_of_le hF ?_); (first | decide | (dsimp only; decide))) | ((with_reducible refine Foot.parts_of_le hF ?_); decide) | lift_lets -underBinder | (intro x; have hx : a.Only g x := (by repeat' (first | with_reducible assumption | ((with_reducible refine Foot.le_trans ?_ hF); decide) | ((with_reducible refine Foot.has_of_le hF ?_); (first | decide | (dsimp only; decide))) | ((with_reducible refine Foot.parts_of_le hF ?_); decide) | lift_lets -underBinder | (with_reducible first | apply State.Only.ite | apply State.Only.putFlag | apply State.dclSource_only) | (intro _))); clear_value x) | (intro x; clear_value x) | (with_reducible first | apply State.Only.ite | apply State.Only.putFlag | apply State.dclSource_only) | (intro _))

theorem execSmpClrSns_only {g : Foot} {a s : State} (h : a.Only g s) (l : Lane) (m : Fin 7)
    (hF : Foot.le ⟨[.hv, .aon, .mon, .answer, .dcl, .chg, .loopReq], [0x10, 0x13, 0x30, 0x31, 0x32, 0x33, 0x50], false⟩ g = true) :
    OutOnly g a (execSmpClrSns l m s) := by
  unfold execSmpClrSns
  repeat' (first | with_reducible assumption | ((with_reducible refine Foot.le_trans ?_ hF); decide) | ((with_reducible refine Foot.has_of_le hF ?_); (first | decide | (dsimp only; decide))) | ((with_reducible refine Foot.parts_of_le hF ?_); decide) | (with_reducible first | apply State.Only.done | apply State.clrSns_only | apply State.reply_only | apply State.writing_only) | (intro _))

theorem State.clrFlt_only {g : Foot} {a s : State} (h : a.Only g s) (l : Lane) (n : Fin 24)
    (hF : Foot.le ⟨[.smp], [0x13], false⟩ g = true) :
    a.Only g (State.clrFlt s l n) := by
  unfold State.clrFlt
  repeat' (first | with_reducible assumption | ((with_reducible refine Foot.le_trans ?_ hF); decide) | ((with_reducible refine Foot.has_of_le hF ?_); (first | decide | (dsimp only; decide))) | ((with_reducible refine Foot.parts_of_le hF ?_); decide) | (with_reducible first | apply State.Only.putFlag | apply State.Only.smp) | (intro _))

theorem execSmpClrFlt_only {g : Foot} {a s : State} (h : a.Only g s) (l : Lane) (n : Fin 24)
    (hF : Foot.le ⟨[.answer, .smp], [0x13], false⟩ g = true) :
    OutOnly g a (execSmpClrFlt l n s) := by
  unfold execSmpClrFlt
  repeat' (first | with_reducible assumption | ((with_reducible refine Foot.le_trans ?_ hF); decide) | ((with_reducible refine Foot.has_of_le hF ?_); (first | decide | (dsimp only; decide))) | ((with_reducible refine Foot.parts_of_le hF ?_); decide) | (with_reducible first | apply State.Only.done | apply State.clrFlt_only | apply State.reply_only | apply State.writing_only) | (intro _))

end Sys2Proof.Machine
end

