-- ==== Sys2Proof/Laws/Only/Traction.lean ====
section
/-! SUPPORT. What the operations of Traction may change. -/
namespace Sys2Proof.Machine
set_option linter.all false
set_option Elab.async false

theorem State.smEnter_only {g : Foot} {a s : State} (h : a.Only g s) (l : Lane) (st : Nat)
    (hF : Foot.le ⟨[.hv, .loopReq], [0x10, 0x11], false⟩ g = true) :
    a.Only g (State.smEnter s l st) := by
  unfold State.smEnter
  repeat' (first | with_reducible assumption | ((with_reducible refine Foot.le_trans ?_ hF); decide) | ((with_reducible refine Foot.has_of_le hF ?_); (first | decide | (dsimp only; decide))) | ((with_reducible refine Foot.parts_of_le hF ?_); decide) | lift_lets -underBinder | (intro x; have hx : a.Only g x := (by repeat' (first | with_reducible assumption | ((with_reducible refine Foot.le_trans ?_ hF); decide) | ((with_reducible refine Foot.has_of_le hF ?_); (first | decide | (dsimp only; decide))) | ((with_reducible refine Foot.parts_of_le hF ?_); decide) | lift_lets -underBinder | (with_reducible first | apply State.Only.ite | apply State.gatesOff_only | apply State.placeSet_only | apply State.smGoto_only | apply State.smLoops_only) | (intro _))); clear_value x) | (intro x; clear_value x) | (with_reducible first | apply State.Only.ite | apply State.gatesOff_only | apply State.placeSet_only | apply State.smGoto_only | apply State.smLoops_only) | (intro _))

theorem State.enterStart_only {g : Foot} {a s : State} (h : a.Only g s) (l : Lane) (blend : Bool)
    (hF : Foot.le ⟨[.hv, .trc, .loopReq], [0x10, 0x11], false⟩ g = true) :
    a.Only g (State.enterStart s l blend) := by
  unfold State.enterStart
  repeat' (first | with_reducible assumption | ((with_reducible refine Foot.le_trans ?_ hF); decide) | ((with_reducible refine Foot.has_of_le hF ?_); (first | decide | (dsimp only; decide))) | ((with_reducible refine Foot.parts_of_le hF ?_); decide) | (with_reducible first | apply State.Only.trc | apply State.setRamp_only | apply State.smEnter_only) | (intro _))

theorem State.enterCatch_only {g : Foot} {a s : State} (h : a.Only g s) (l : Lane)
    (hF : Foot.le ⟨[.hv, .trc, .loopReq], [0x10, 0x11], false⟩ g = true) :
    a.Only g (State.enterCatch s l) := by
  unfold State.enterCatch
  repeat' (first | with_reducible assumption | ((with_reducible refine Foot.le_trans ?_ hF); decide) | ((with_reducible refine Foot.has_of_le hF ?_); (first | decide | (dsimp only; decide))) | ((with_reducible refine Foot.parts_of_le hF ?_); decide) | (with_reducible first | apply State.Only.trc | apply State.smEnter_only) | (intro _))

theorem State.enterAcq_only {g : Foot} {a s : State} (h : a.Only g s) (l : Lane)
    (hF : Foot.le ⟨[.hv, .loopReq], [0x10, 0x11], false⟩ g = true) :
    a.Only g (State.enterAcq s l) := by
  unfold State.enterAcq
  repeat' (first | with_reducible assumption | ((with_reducible refine Foot.le_trans ?_ hF); decide) | ((with_reducible refine Foot.has_of_le hF ?_); (first | decide | (dsimp only; decide))) | ((with_reducible refine Foot.parts_of_le hF ?_); decide) | (with_reducible first | apply State.smEnter_only) | (intro _))

theorem State.smCmd_only {g : Foot} {a s : State} (h : a.Only g s) (l : Lane) (c : Nat)
    (hF : Foot.le ⟨[.hv, .trc, .loopReq], [0x10, 0x11], false⟩ g = true) :
    OptOnly g a (State.smCmd s l c) := by
  unfold State.smCmd
  repeat' (first | with_reducible assumption | ((with_reducible refine Foot.le_trans ?_ hF); decide) | ((with_reducible refine Foot.has_of_le hF ?_); (first | decide | (dsimp only; decide))) | ((with_reducible refine Foot.parts_of_le hF ?_); decide) | lift_lets -underBinder | (intro x; have hx : a.Only g x := (by repeat' (first | with_reducible assumption | ((with_reducible refine Foot.le_trans ?_ hF); decide) | ((with_reducible refine Foot.has_of_le hF ?_); (first | decide | (dsimp only; decide))) | ((with_reducible refine Foot.parts_of_le hF ?_); decide) | lift_lets -underBinder | (with_reducible first | apply State.Only.ite | apply State.Only.putFlag | apply State.enterAcq_only | apply State.enterCatch_only | apply State.enterStart_only | apply State.setRamp_only | apply State.smEnter_only | apply State.Only.optSome | apply State.Only.optNone) | (first | split | (dsimp only [x]; split)) | (intro _))); clear_value x) | (intro x; clear_value x) | (with_reducible first | apply State.Only.ite | apply State.Only.putFlag | apply State.enterAcq_only | apply State.enterCatch_only | apply State.enterStart_only | apply State.setRamp_only | apply State.smEnter_only | apply State.Only.optSome | apply State.Only.optNone) | split | (intro _))

theorem State.smCmd_only_some {g : Foot} {a s t : State} {l : Lane} {c : Nat}
    (e : State.smCmd s l c = some t) (h : a.Only g s) (hF : Foot.le ⟨[.hv, .trc, .loopReq], [0x10, 0x11], false⟩ g = true) : a.Only g t := State.smCmd_only h _ _ hF t e

theorem State.smRejected_only {g : Foot} {a s : State} (h : a.Only g s) (l : Lane) (c : Nat)
    (hF : Foot.le ⟨[], [], false⟩ g = true) :
    a.Only g (State.smRejected s l c) := by
  unfold State.smRejected
  repeat' (first | with_reducible assumption | ((with_reducible refine Foot.le_trans ?_ hF); decide) | ((with_reducible refine Foot.has_of_le hF ?_); (first | decide | (dsimp only; decide))) | ((with_reducible refine Foot.parts_of_le hF ?_); decide) | (exact ⟨by decide, by decide⟩) | (with_reducible first | apply State.Only.ite | apply State.Only.pulseEv) | (intro _))

theorem State.smWrite_only {g : Foot} {a s : State} (h : a.Only g s) (l : Lane) (c : Nat)
    (hF : Foot.le ⟨[.hv, .answer, .trc, .loopReq], [0x10, 0x11], false⟩ g = true) :
    a.Only g (State.smWrite s l c) := by
  unfold State.smWrite
  repeat' (first | (exact State.smCmd_only_some (by assumption) (by with_reducible assumption) (Foot.le_trans (by decide) hF)) | with_reducible assumption | ((with_reducible refine Foot.le_trans ?_ hF); decide) | ((with_reducible refine Foot.has_of_le hF ?_); (first | decide | (dsimp only; decide))) | ((with_reducible refine Foot.parts_of_le hF ?_); decide) | (exact ⟨by decide, by decide⟩) | lift_lets -underBinder | (intro x; have hx : a.Only g x := (by repeat' (first | (exact State.smCmd_only_some (by assumption) (by with_reducible assumption) (Foot.le_trans (by decide) hF)) | with_reducible assumption | ((with_reducible refine Foot.le_trans ?_ hF); decide) | ((with_reducible refine Foot.has_of_le hF ?_); (first | decide | (dsimp only; decide))) | ((with_reducible refine Foot.parts_of_le hF ?_); decide) | (exact ⟨by decide, by decide⟩) | lift_lets -underBinder | (with_reducible first | apply State.Only.ite | apply State.Only.pulseEv | apply State.reject_only | apply State.reply_only | apply State.smCmd_only | apply State.smRejected_only) | (first | split | (dsimp only [x]; split)) | (intro _))); clear_value x) | (intro x; clear_value x) | (with_reducible first | apply State.Only.ite | apply State.Only.pulseEv | apply State.reject_only | apply State.reply_only | apply State.smCmd_only | apply State.smRejected_only) | split | (intro _))

theorem execEnable_only {g : Foot} {a s : State} (h : a.Only g s) (l : Lane)
    (hF : Foot.le ⟨[.hv, .answer, .trc, .loopReq], [0x10, 0x11], false⟩ g = true) :
    OutOnly g a (execEnable l s) := by
  unfold execEnable
  repeat' (first | with_reducible assumption | ((with_reducible refine Foot.le_trans ?_ hF); decide) | ((with_reducible refine Foot.has_of_le hF ?_); (first | decide | (dsimp only; decide))) | ((with_reducible refine Foot.parts_of_le hF ?_); decide) | (with_reducible first | apply State.Only.done | apply State.smWrite_only | apply State.writing_only) | (intro _))

theorem execStart_only {g : Foot} {a s : State} (h : a.Only g s) (l : Lane)
    (hF : Foot.le ⟨[.hv, .answer, .trc, .loopReq], [0x10, 0x11], false⟩ g = true) :
    OutOnly g a (execStart l s) := by
  unfold execStart
  repeat' (first | with_reducible assumption | ((with_reducible refine Foot.le_trans ?_ hF); decide) | ((with_reducible refine Foot.has_of_le hF ?_); (first | decide | (dsimp only; decide))) | ((with_reducible refine Foot.parts_of_le hF ?_); decide) | (with_reducible first | apply State.Only.done | apply State.smWrite_only | apply State.writing_only) | (intro _))

theorem execStop_only {g : Foot} {a s : State} (h : a.Only g s) (l : Lane)
    (hF : Foot.le ⟨[.hv, .answer, .trc, .loopReq], [0x10, 0x11], false⟩ g = true) :
    OutOnly g a (execStop l s) := by
  unfold execStop
  repeat' (first | with_reducible assumption | ((with_reducible refine Foot.le_trans ?_ hF); decide) | ((with_reducible refine Foot.has_of_le hF ?_); (first | decide | (dsimp only; decide))) | ((with_reducible refine Foot.parts_of_le hF ?_); decide) | (with_reducible first | apply State.Only.done | apply State.smWrite_only | apply State.writing_only) | (intro _))

theorem execBrake_only {g : Foot} {a s : State} (h : a.Only g s) (l : Lane)
    (hF : Foot.le ⟨[.hv, .answer, .trc, .loopReq], [0x10, 0x11], false⟩ g = true) :
    OutOnly g a (execBrake l s) := by
  unfold execBrake
  repeat' (first | with_reducible assumption | ((with_reducible refine Foot.le_trans ?_ hF); decide) | ((with_reducible refine Foot.has_of_le hF ?_); (first | decide | (dsimp only; decide))) | ((with_reducible refine Foot.parts_of_le hF ?_); decide) | (with_reducible first | apply State.Only.done | apply State.smWrite_only | apply State.writing_only) | (intro _))

theorem execRelease_only {g : Foot} {a s : State} (h : a.Only g s) (l : Lane)
    (hF : Foot.le ⟨[.hv, .answer, .trc, .loopReq], [0x10, 0x11], false⟩ g = true) :
    OutOnly g a (execRelease l s) := by
  unfold execRelease
  repeat' (first | with_reducible assumption | ((with_reducible refine Foot.le_trans ?_ hF); decide) | ((with_reducible refine Foot.has_of_le hF ?_); (first | decide | (dsimp only; decide))) | ((with_reducible refine Foot.parts_of_le hF ?_); decide) | (with_reducible first | apply State.Only.done | apply State.smWrite_only | apply State.writing_only) | (intro _))

theorem execDisable_only {g : Foot} {a s : State} (h : a.Only g s) (l : Lane)
    (hF : Foot.le ⟨[.hv, .answer, .trc, .loopReq], [0x10, 0x11], false⟩ g = true) :
    OutOnly g a (execDisable l s) := by
  unfold execDisable
  repeat' (first | with_reducible assumption | ((with_reducible refine Foot.le_trans ?_ hF); decide) | ((with_reducible refine Foot.has_of_le hF ?_); (first | decide | (dsimp only; decide))) | ((with_reducible refine Foot.parts_of_le hF ?_); decide) | (with_reducible first | apply State.Only.done | apply State.smWrite_only | apply State.writing_only) | (intro _))

theorem execClear_only {g : Foot} {a s : State} (h : a.Only g s) (l : Lane)
    (hF : Foot.le ⟨[.hv, .answer, .trc, .loopReq], [0x10, 0x11], false⟩ g = true) :
    OutOnly g a (execClear l s) := by
  unfold execClear
  repeat' (first | with_reducible assumption | ((with_reducible refine Foot.le_trans ?_ hF); decide) | ((with_reducible refine Foot.has_of_le hF ?_); (first | decide | (dsimp only; decide))) | ((with_reducible refine Foot.parts_of_le hF ?_); decide) | (with_reducible first | apply State.Only.done | apply State.smWrite_only | apply State.writing_only) | (intro _))

theorem execCatchTimeout_only {g : Foot} {a s : State} (h : a.Only g s) (l : Lane)
    (hF : Foot.le ⟨[.hv, .trc, .loopReq], [0x10, 0x11], false⟩ g = true) :
    OutOnly g a (execCatchTimeout l s) := by
  unfold execCatchTimeout
  repeat' (first | with_reducible assumption | ((with_reducible refine Foot.le_trans ?_ hF); decide) | ((with_reducible refine Foot.has_of_le hF ?_); (first | decide | (dsimp only; decide))) | ((with_reducible refine Foot.parts_of_le hF ?_); decide) | (exact ⟨by decide, by decide⟩) | (with_reducible first | apply State.Only.ite | apply State.Only.done | apply State.Only.pulseEv | apply State.Only.trc | apply State.safeEntry_only | apply State.smEnter_only) | split | (intro _))

theorem State.estimator_only {g : Foot} {a s : State} (h : a.Only g s) (l : Lane) (ktype : Nat) (code : Nat) (ws : List Word)
    (hF : Foot.le ⟨[.mem], [], false⟩ g = true) :
    a.Only g (State.estimator s l ktype code ws) := by
  unfold State.estimator
  repeat' (first | with_reducible assumption | ((with_reducible refine Foot.le_trans ?_ hF); decide) | ((with_reducible refine Foot.has_of_le hF ?_); (first | decide | (dsimp only; decide))) | ((with_reducible refine Foot.parts_of_le hF ?_); decide) | (intro x p hp; cases p <;> first | rfl | trivial | exact absurd (Foot.parts_of_le hF (by decide)) hp) | (exact Or.inr (fun _ => rfl)) | lift_lets -underBinder | (intro x; have hx : a.Only g x := (by repeat' (first | with_reducible assumption | ((with_reducible refine Foot.le_trans ?_ hF); decide) | ((with_reducible refine Foot.has_of_le hF ?_); (first | decide | (dsimp only; decide))) | ((with_reducible refine Foot.parts_of_le hF ?_); decide) | (intro x p hp; cases p <;> first | rfl | trivial | exact absurd (Foot.parts_of_le hF (by decide)) hp) | (exact Or.inr (fun _ => rfl)) | lift_lets -underBinder | (with_reducible first | apply State.Only.lane) | (first | split | (dsimp only [x]; split)) | (intro _))); clear_value x) | (intro x; clear_value x) | (with_reducible first | apply State.Only.lane) | split | (intro _))

theorem execPolDone_only {g : Foot} {a s : State} (h : a.Only g s) (l : Lane) (r : PolResult)
    (hF : Foot.le ⟨[.hv, .mem, .trc, .loopReq], [0x10, 0x11], false⟩ g = true) :
    OutOnly g a (execPolDone l r s) := by
  unfold execPolDone
  repeat' (first | with_reducible assumption | ((with_reducible refine Foot.le_trans ?_ hF); decide) | ((with_reducible refine Foot.has_of_le hF ?_); (first | decide | (dsimp only; decide))) | ((with_reducible refine Foot.parts_of_le hF ?_); decide) | (exact ⟨by decide, by decide⟩) | lift_lets -underBinder | (intro x; have hx : a.Only g x := (by repeat' (first | with_reducible assumption | ((with_reducible refine Foot.le_trans ?_ hF); decide) | ((with_reducible refine Foot.has_of_le hF ?_); (first | decide | (dsimp only; decide))) | ((with_reducible refine Foot.parts_of_le hF ?_); decide) | (exact ⟨by decide, by decide⟩) | lift_lets -underBinder | (with_reducible first | apply State.Only.ite | apply State.Only.done | apply State.Only.pulseEv | apply State.Only.trc | apply State.enterStart_only | apply State.estimator_only | apply State.safeEntry_only) | (first | split | (dsimp only [x]; split)) | (intro _))); clear_value x) | (intro x; clear_value x) | (with_reducible first | apply State.Only.ite | apply State.Only.done | apply State.Only.pulseEv | apply State.Only.trc | apply State.enterStart_only | apply State.estimator_only | apply State.safeEntry_only) | split | (intro _))

theorem State.catchRes_only {g : Foot} {a s : State} (h : a.Only g s) (l : Lane) (angle : BitVec 16) (speed : Word)
    (hF : Foot.le ⟨[.mem], [0x11], false⟩ g = true) :
    a.Only g (State.catchRes s l angle speed) := by
  unfold State.catchRes
  repeat' (first | with_reducible assumption | ((with_reducible refine Foot.le_trans ?_ hF); decide) | ((with_reducible refine Foot.has_of_le hF ?_); (first | decide | (dsimp only; decide))) | ((with_reducible refine Foot.parts_of_le hF ?_); decide) | lift_lets -underBinder | (intro x; have hx : a.Only g x := (by repeat' (first | with_reducible assumption | ((with_reducible refine Foot.le_trans ?_ hF); decide) | ((with_reducible refine Foot.has_of_le hF ?_); (first | decide | (dsimp only; decide))) | ((with_reducible refine Foot.parts_of_le hF ?_); decide) | lift_lets -underBinder | (with_reducible first | apply State.Only.put | apply State.Only.putWord | apply State.estimator_only) | (intro _))); clear_value x) | (intro x; clear_value x) | (with_reducible first | apply State.Only.put | apply State.Only.putWord | apply State.estimator_only) | (intro _))

theorem execAcqDone_only {g : Foot} {a s : State} (h : a.Only g s) (l : Lane) (angle : BitVec 16) (speed : Word)
    (hF : Foot.le ⟨[.hv, .mem, .trc, .loopReq], [0x10, 0x11], false⟩ g = true) :
    OutOnly g a (execAcqDone l angle speed s) := by
  unfold execAcqDone
  repeat' (first | with_reducible assumption | ((with_reducible refine Foot.le_trans ?_ hF); decide) | ((with_reducible refine Foot.has_of_le hF ?_); (first | decide | (dsimp only; decide))) | ((with_reducible refine Foot.parts_of_le hF ?_); decide) | (exact ⟨by decide, by decide⟩) | lift_lets -underBinder | (intro x; have hx : a.Only g x := (by repeat' (first | with_reducible assumption | ((with_reducible refine Foot.le_trans ?_ hF); decide) | ((with_reducible refine Foot.has_of_le hF ?_); (first | decide | (dsimp only; decide))) | ((with_reducible refine Foot.parts_of_le hF ?_); decide) | (exact ⟨by decide, by decide⟩) | lift_lets -underBinder | (with_reducible first | apply State.Only.ite | apply State.Only.bump | apply State.Only.done | apply State.Only.pulseEv | apply State.catchRes_only | apply State.enterStart_only) | (first | split | (dsimp only [x]; split)) | (intro _))); clear_value x) | (intro x; clear_value x) | (with_reducible first | apply State.Only.ite | apply State.Only.bump | apply State.Only.done | apply State.Only.pulseEv | apply State.catchRes_only | apply State.enterStart_only) | split | (intro _))

theorem execAcqFail_only {g : Foot} {a s : State} (h : a.Only g s) (l : Lane)
    (hF : Foot.le ⟨[.hv, .trc, .loopReq], [0x10, 0x11], false⟩ g = true) :
    OutOnly g a (execAcqFail l s) := by
  unfold execAcqFail
  repeat' (first | with_reducible assumption | ((with_reducible refine Foot.le_trans ?_ hF); decide) | ((with_reducible refine Foot.has_of_le hF ?_); (first | decide | (dsimp only; decide))) | ((with_reducible refine Foot.parts_of_le hF ?_); decide) | (exact ⟨by decide, by decide⟩) | (with_reducible first | apply State.Only.ite | apply State.Only.bump | apply State.Only.done | apply State.Only.pulseEv | apply State.safeEntry_only) | split | (intro _))

theorem execStartToRun_only {g : Foot} {a s : State} (h : a.Only g s) (l : Lane)
    (hF : Foot.le ⟨[.hv, .trc, .loopReq], [0x10, 0x11], false⟩ g = true) :
    OutOnly g a (execStartToRun l s) := by
  unfold execStartToRun
  repeat' (first | with_reducible assumption | ((with_reducible refine Foot.le_trans ?_ hF); decide) | ((with_reducible refine Foot.has_of_le hF ?_); (first | decide | (dsimp only; decide))) | ((with_reducible refine Foot.parts_of_le hF ?_); decide) | (with_reducible first | apply State.Only.ite | apply State.Only.done | apply State.setRamp_only | apply State.smEnter_only) | split | (intro _))

theorem execStoppingDone_only {g : Foot} {a s : State} (h : a.Only g s) (l : Lane)
    (hF : Foot.le ⟨[.hv, .saf, .trc, .loopReq], [0x10, 0x11], false⟩ g = true) :
    OutOnly g a (execStoppingDone l s) := by
  unfold execStoppingDone
  repeat' (first | with_reducible assumption | ((with_reducible refine Foot.le_trans ?_ hF); decide) | ((with_reducible refine Foot.has_of_le hF ?_); (first | decide | (dsimp only; decide))) | ((with_reducible refine Foot.parts_of_le hF ?_); decide) | lift_lets -underBinder | (intro x; have hx : a.Only g x := (by repeat' (first | with_reducible assumption | ((with_reducible refine Foot.le_trans ?_ hF); decide) | ((with_reducible refine Foot.has_of_le hF ?_); (first | decide | (dsimp only; decide))) | ((with_reducible refine Foot.parts_of_le hF ?_); decide) | lift_lets -underBinder | (with_reducible first | apply State.Only.ite | apply State.Only.done | apply State.Only.saf | apply State.Only.trc | apply State.smEnter_only) | (first | split | (dsimp only [x]; split)) | (intro _))); clear_value x) | (intro x; clear_value x) | (with_reducible first | apply State.Only.ite | apply State.Only.done | apply State.Only.saf | apply State.Only.trc | apply State.smEnter_only) | split | (intro _))

theorem State.angleLost_only {g : Foot} {a s : State} (h : a.Only g s) (l : Lane)
    (hF : Foot.le ⟨[.hv, .trc, .loopReq], [0x10, 0x11], false⟩ g = true) :
    a.Only g (State.angleLost s l) := by
  unfold State.angleLost
  repeat' (first | with_reducible assumption | ((with_reducible refine Foot.le_trans ?_ hF); decide) | ((with_reducible refine Foot.has_of_le hF ?_); (first | decide | (dsimp only; decide))) | ((with_reducible refine Foot.parts_of_le hF ?_); decide) | (exact ⟨by decide, by decide⟩) | lift_lets -underBinder | (intro x; have hx : a.Only g x := (by repeat' (first | with_reducible assumption | ((with_reducible refine Foot.le_trans ?_ hF); decide) | ((with_reducible refine Foot.has_of_le hF ?_); (first | decide | (dsimp only; decide))) | ((with_reducible refine Foot.parts_of_le hF ?_); decide) | (exact ⟨by decide, by decide⟩) | lift_lets -underBinder | (with_reducible first | apply State.Only.ite | apply State.Only.bump | apply State.Only.pulseEv | apply State.enterAcq_only | apply State.enterCatch_only | apply State.safeEntry_only | apply State.setRamp_only) | (intro _))); clear_value x) | (intro x; clear_value x) | (with_reducible first | apply State.Only.ite | apply State.Only.bump | apply State.Only.pulseEv | apply State.enterAcq_only | apply State.enterCatch_only | apply State.safeEntry_only | apply State.setRamp_only) | (intro _))

theorem execObsLost_only {g : Foot} {a s : State} (h : a.Only g s) (l : Lane)
    (hF : Foot.le ⟨[.hv, .trc, .loopReq], [0x10, 0x11, 0x12], false⟩ g = true) :
    OutOnly g a (execObsLost l s) := by
  unfold execObsLost
  repeat' (first | with_reducible assumption | ((with_reducible refine Foot.le_trans ?_ hF); decide) | ((with_reducible refine Foot.has_of_le hF ?_); (first | decide | (dsimp only; decide))) | ((with_reducible refine Foot.parts_of_le hF ?_); decide) | (exact ⟨by decide, by decide⟩) | lift_lets -underBinder | (intro x; have hx : a.Only g x := (by repeat' (first | with_reducible assumption | ((with_reducible refine Foot.le_trans ?_ hF); decide) | ((with_reducible refine Foot.has_of_le hF ?_); (first | decide | (dsimp only; decide))) | ((with_reducible refine Foot.parts_of_le hF ?_); decide) | (exact ⟨by decide, by decide⟩) | lift_lets -underBinder | (with_reducible first | apply State.Only.ite | apply State.Only.done | apply State.Only.levelEv | apply State.Only.put | apply State.Only.putFlag | apply State.Only.trc | apply State.angleLost_only) | (first | split | (dsimp only [x]; split)) | (intro _))); clear_value x) | (intro x; clear_value x) | (with_reducible first | apply State.Only.ite | apply State.Only.done | apply State.Only.levelEv | apply State.Only.put | apply State.Only.putFlag | apply State.Only.trc | apply State.angleLost_only) | split | (intro _))

theorem execStall_only {g : Foot} {a s : State} (h : a.Only g s) (l : Lane)
    (hF : Foot.le ⟨[], [0x11], false⟩ g = true) :
    OutOnly g a (execStall l s) := by
  unfold execStall
  repeat' (first | with_reducible assumption | ((with_reducible refine Foot.le_trans ?_ hF); decide) | ((with_reducible refine Foot.has_of_le hF ?_); (first | decide | (dsimp only; decide))) | ((with_reducible refine Foot.parts_of_le hF ?_); decide) | (exact ⟨by decide, by decide⟩) | (with_reducible first | apply State.Only.ite | apply State.Only.done | apply State.Only.levelEv | apply State.Only.putFlag) | split | (intro _))

theorem execStallRecover_only {g : Foot} {a s : State} (h : a.Only g s) (l : Lane)
    (hF : Foot.le ⟨[], [0x11], false⟩ g = true) :
    OutOnly g a (execStallRecover l s) := by
  unfold execStallRecover
  repeat' (first | with_reducible assumption | ((with_reducible refine Foot.le_trans ?_ hF); decide) | ((with_reducible refine Foot.has_of_le hF ?_); (first | decide | (dsimp only; decide))) | ((with_reducible refine Foot.parts_of_le hF ?_); decide) | (exact ⟨by decide, by decide⟩) | (with_reducible first | apply State.Only.ite | apply State.Only.done | apply State.Only.levelEv | apply State.Only.putFlag) | split | (intro _))

theorem State.lineMode_only {g : Foot} {a s : State} (h : a.Only g s) (l : Lane)
    (hF : Foot.le ⟨[.hv, .mon], [], false⟩ g = true) :
    a.Only g (State.lineMode s l) := by
  unfold State.lineMode
  repeat' (first | with_reducible assumption | ((with_reducible refine Foot.le_trans ?_ hF); decide) | ((with_reducible refine Foot.has_of_le hF ?_); (first | decide | (dsimp only; decide))) | ((with_reducible refine Foot.parts_of_le hF ?_); decide) | (exact Or.inr (fun _ => rfl)) | lift_lets -underBinder | (intro x; have hx : a.Only g x := (by repeat' (first | with_reducible assumption | ((with_reducible refine Foot.le_trans ?_ hF); decide) | ((with_reducible refine Foot.has_of_le hF ?_); (first | decide | (dsimp only; decide))) | ((with_reducible refine Foot.parts_of_le hF ?_); decide) | (exact Or.inr (fun _ => rfl)) | lift_lets -underBinder | (with_reducible first | apply State.Only.ite | apply State.Only.fold | apply State.Only.hv | apply State.Only.mon | apply State.placeSet_only) | (intro _))); clear_value x) | (intro x; clear_value x) | (with_reducible first | apply State.Only.ite | apply State.Only.fold | apply State.Only.hv | apply State.Only.mon | apply State.placeSet_only) | (intro _))

theorem State.showSel_only {g : Foot} {a s : State} (h : a.Only g s)
    (hF : Foot.le ⟨[], [0x11], false⟩ g = true) :
    a.Only g (State.showSel s) := by
  unfold State.showSel
  repeat' (first | with_reducible assumption | ((with_reducible refine Foot.le_trans ?_ hF); decide) | ((with_reducible refine Foot.has_of_le hF ?_); (first | decide | (dsimp only; decide))) | ((with_reducible refine Foot.parts_of_le hF ?_); decide) | (with_reducible first | apply State.Only.ite | apply State.Only.both | apply State.Only.putFlag) | split | (intro _))

theorem State.select_only {g : Foot} {a s : State} (h : a.Only g s)
    (hF : Foot.le ⟨[.hv, .mon], [0x11, 0x80], false⟩ g = true) :
    a.Only g (State.select s) := by
  unfold State.select
  repeat' (first | with_reducible assumption | ((with_reducible refine Foot.le_trans ?_ hF); decide) | ((with_reducible refine Foot.has_of_le hF ?_); (first | decide | (dsimp only; decide))) | ((with_reducible refine Foot.parts_of_le hF ?_); decide) | (exact ⟨by decide, by decide⟩) | (exact Or.inr (fun _ => rfl)) | lift_lets -underBinder | (intro x; have hx : a.Only g x := (by repeat' (first | with_reducible assumption | ((with_reducible refine Foot.le_trans ?_ hF); decide) | ((with_reducible refine Foot.has_of_le hF ?_); (first | decide | (dsimp only; decide))) | ((with_reducible refine Foot.parts_of_le hF ?_); decide) | (exact ⟨by decide, by decide⟩) | (exact Or.inr (fun _ => rfl)) | lift_lets -underBinder | (with_reducible first | apply State.Only.ite | apply State.Only.mon | apply State.Only.monEv | apply State.Only.monLevel | apply State.Only.mput | apply State.Only.mputFlag | apply State.lineMode_only | apply State.showSel_only) | (first | split | (dsimp only [x]; split)) | (intro _))); clear_value x) | (intro x; clear_value x) | (with_reducible first | apply State.Only.ite | apply State.Only.mon | apply State.Only.monEv | apply State.Only.monLevel | apply State.Only.mput | apply State.Only.mputFlag | apply State.lineMode_only | apply State.showSel_only) | split | (intro _))

theorem execSafeStateSelection_only {g : Foot} {a s : State} (h : a.Only g s) (v0 : BitVec 16) (v1 : BitVec 16) (u0 : Nat) (u1 : Nat)
    (hF : Foot.le ⟨[.hv, .mon], [0x11, 0x22, 0x80], false⟩ g = true) :
    OutOnly g a (execSafeStateSelection v0 v1 u0 u1 s) := by
  unfold execSafeStateSelection
  repeat' (first | with_reducible assumption | ((with_reducible refine Foot.le_trans ?_ hF); decide) | ((with_reducible refine Foot.has_of_le hF ?_); (first | decide | (dsimp only; decide))) | ((with_reducible refine Foot.parts_of_le hF ?_); decide) | lift_lets -underBinder | (intro x; have hx : a.Only g x := (by repeat' (first | with_reducible assumption | ((with_reducible refine Foot.le_trans ?_ hF); decide) | ((with_reducible refine Foot.has_of_le hF ?_); (first | decide | (dsimp only; decide))) | ((with_reducible refine Foot.parts_of_le hF ?_); decide) | lift_lets -underBinder | (with_reducible first | apply State.Only.ite | apply State.Only.done | apply State.monSense_only | apply State.select_only) | (first | split | (dsimp only [x]; split)) | (intro _))); clear_value x) | (intro x; clear_value x) | (with_reducible first | apply State.Only.ite | apply State.Only.done | apply State.monSense_only | apply State.select_only) | split | (intro _))

theorem execScSpeedTimeout_only {g : Foot} {a s : State} (h : a.Only g s)
    (hF : Foot.le ⟨[.hv, .mon], [0x11, 0x80], false⟩ g = true) :
    OutOnly g a (execScSpeedTimeout s) := by
  unfold execScSpeedTimeout
  repeat' (first | with_reducible assumption | ((with_reducible refine Foot.le_trans ?_ hF); decide) | ((with_reducible refine Foot.has_of_le hF ?_); (first | decide | (dsimp only; decide))) | ((with_reducible refine Foot.parts_of_le hF ?_); decide) | (exact Or.inr (fun _ => rfl)) | (with_reducible first | apply State.Only.done | apply State.Only.mon | apply State.select_only) | (intro _))

theorem execULost_only {g : Foot} {a s : State} (h : a.Only g s)
    (hF : Foot.le ⟨[.hv, .mon], [0x11, 0x80], false⟩ g = true) :
    OutOnly g a (execULost s) := by
  unfold execULost
  repeat' (first | with_reducible assumption | ((with_reducible refine Foot.le_trans ?_ hF); decide) | ((with_reducible refine Foot.has_of_le hF ?_); (first | decide | (dsimp only; decide))) | ((with_reducible refine Foot.parts_of_le hF ?_); decide) | (with_reducible first | apply State.Only.ite | apply State.Only.done | apply State.Only.mputFlag | apply State.select_only) | split | (intro _))

theorem execMonTachPulse_only {g : Foot} {a s : State} (h : a.Only g s)
    (hF : Foot.le ⟨[.hv, .mon], [0x11, 0x80], false⟩ g = true) :
    OutOnly g a (execMonTachPulse s) := by
  unfold execMonTachPulse
  repeat' (first | with_reducible assumption | ((with_reducible refine Foot.le_trans ?_ hF); decide) | ((with_reducible refine Foot.has_of_le hF ?_); (first | decide | (dsimp only; decide))) | ((with_reducible refine Foot.parts_of_le hF ?_); decide) | (exact Or.inr (fun _ => rfl)) | lift_lets -underBinder | (intro x; have hx : a.Only g x := (by repeat' (first | with_reducible assumption | ((with_reducible refine Foot.le_trans ?_ hF); decide) | ((with_reducible refine Foot.has_of_le hF ?_); (first | decide | (dsimp only; decide))) | ((with_reducible refine Foot.parts_of_le hF ?_); decide) | (exact Or.inr (fun _ => rfl)) | lift_lets -underBinder | (with_reducible first | apply State.Only.ite | apply State.Only.done | apply State.Only.mon | apply State.select_only) | (first | split | (dsimp only [x]; split)) | (intro _))); clear_value x) | (intro x; clear_value x) | (with_reducible first | apply State.Only.ite | apply State.Only.done | apply State.Only.mon | apply State.select_only) | split | (intro _))

end Sys2Proof.Machine
end

