-- ==== Sys2Proof/Laws/Only/Dcl.lean ====
section
/-! SUPPORT. What the operations of Dcl may change. -/
namespace Sys2Proof.Machine
set_option linter.all false
set_option Elab.async false

theorem State.presetBoost_only {g : Foot} {a s : State} (h : a.Only g s) (l : Lane) (m : Nat)
    (hF : Foot.le ⟨[.mem], [], false⟩ g = true) :
    a.Only g (State.presetBoost s l m) := by
  unfold State.presetBoost
  repeat' (first | with_reducible assumption | ((with_reducible refine Foot.le_trans ?_ hF); decide) | ((with_reducible refine Foot.has_of_le hF ?_); (first | decide | (dsimp only; decide))) | ((with_reducible refine Foot.parts_of_le hF ?_); decide) | (intro x p hp; cases p <;> first | rfl | trivial | exact absurd (Foot.parts_of_le hF (by decide)) hp) | (exact Or.inr (fun _ => rfl)) | lift_lets -underBinder | (intro x; have hx : a.Only g x := (by repeat' (first | with_reducible assumption | ((with_reducible refine Foot.le_trans ?_ hF); decide) | ((with_reducible refine Foot.has_of_le hF ?_); (first | decide | (dsimp only; decide))) | ((with_reducible refine Foot.parts_of_le hF ?_); decide) | (intro x p hp; cases p <;> first | rfl | trivial | exact absurd (Foot.parts_of_le hF (by decide)) hp) | (exact Or.inr (fun _ => rfl)) | lift_lets -underBinder | (with_reducible first | apply State.Only.ite | apply State.Only.lane | apply State.Only.mput) | (first | split | (dsimp only [x]; split)) | (intro _))); clear_value x) | (intro x; clear_value x) | (with_reducible first | apply State.Only.ite | apply State.Only.lane | apply State.Only.mput) | split | (intro _))

theorem State.showPhases_only {g : Foot} {a s : State} (h : a.Only g s) (l : Lane)
    (hF : Foot.le ⟨[.hv, .mem], [0x30], false⟩ g = true) :
    a.Only g (State.showPhases s l) := by
  unfold State.showPhases
  repeat' (first | with_reducible assumption | ((with_reducible refine Foot.le_trans ?_ hF); decide) | ((with_reducible refine Foot.has_of_le hF ?_); (first | decide | (dsimp only; decide))) | ((with_reducible refine Foot.parts_of_le hF ?_); decide) | lift_lets -underBinder | (intro x; have hx : a.Only g x := (by repeat' (first | with_reducible assumption | ((with_reducible refine Foot.le_trans ?_ hF); decide) | ((with_reducible refine Foot.has_of_le hF ?_); (first | decide | (dsimp only; decide))) | ((with_reducible refine Foot.parts_of_le hF ?_); decide) | lift_lets -underBinder | (with_reducible first | apply State.Only.ite | apply State.Only.fold | apply State.gatesOff_only | apply State.presetBoost_only | apply State.setPhaseActive_only) | (intro _))); clear_value x) | (intro x; clear_value x) | (with_reducible first | apply State.Only.ite | apply State.Only.fold | apply State.gatesOff_only | apply State.presetBoost_only | apply State.setPhaseActive_only) | (intro _))

theorem State.dclStart_only {g : Foot} {a s : State} (h : a.Only g s) (l : Lane)
    (hF : Foot.le ⟨[.dcl, .loopReq], [0x30], false⟩ g = true) :
    a.Only g (State.dclStart s l) := by
  unfold State.dclStart
  repeat' (first | with_reducible assumption | ((with_reducible refine Foot.le_trans ?_ hF); decide) | ((with_reducible refine Foot.has_of_le hF ?_); (first | decide | (dsimp only; decide))) | ((with_reducible refine Foot.parts_of_le hF ?_); decide) | lift_lets -underBinder | (intro x; have hx : a.Only g x := (by repeat' (first | with_reducible assumption | ((with_reducible refine Foot.le_trans ?_ hF); decide) | ((with_reducible refine Foot.has_of_le hF ?_); (first | decide | (dsimp only; decide))) | ((with_reducible refine Foot.parts_of_le hF ?_); decide) | lift_lets -underBinder | (with_reducible first | apply State.Only.ite | apply State.Only.dcl | apply State.Only.put | apply State.Only.putWord | apply State.loopAsk_only) | (first | split | (dsimp only [x]; split)) | (intro _))); clear_value x) | (intro x; clear_value x) | (with_reducible first | apply State.Only.ite | apply State.Only.dcl | apply State.Only.put | apply State.Only.putWord | apply State.loopAsk_only) | split | (intro _))

theorem State.dclEnd_only {g : Foot} {a s : State} (h : a.Only g s) (l : Lane)
    (hF : Foot.le ⟨[.dcl, .loopReq], [0x10, 0x30], false⟩ g = true) :
    a.Only g (State.dclEnd s l) := by
  unfold State.dclEnd
  repeat' (first | with_reducible assumption | ((with_reducible refine Foot.le_trans ?_ hF); decide) | ((with_reducible refine Foot.has_of_le hF ?_); (first | decide | (dsimp only; decide))) | ((with_reducible refine Foot.parts_of_le hF ?_); decide) | lift_lets -underBinder | (intro x; have hx : a.Only g x := (by repeat' (first | with_reducible assumption | ((with_reducible refine Foot.le_trans ?_ hF); decide) | ((with_reducible refine Foot.has_of_le hF ?_); (first | decide | (dsimp only; decide))) | ((with_reducible refine Foot.parts_of_le hF ?_); decide) | lift_lets -underBinder | (with_reducible first | apply State.Only.ite | apply State.Only.dcl | apply State.Only.put | apply State.loopOpen_only) | (first | split | (dsimp only [x]; split)) | (intro _))); clear_value x) | (intro x; clear_value x) | (with_reducible first | apply State.Only.ite | apply State.Only.dcl | apply State.Only.put | apply State.loopOpen_only) | split | (intro _))

theorem execDclStopDone_only {g : Foot} {a s : State} (h : a.Only g s) (l : Lane)
    (hF : Foot.le ⟨[.hv, .mem, .loopReq], [0x10, 0x30], false⟩ g = true) :
    OutOnly g a (execDclStopDone l s) := by
  unfold execDclStopDone
  repeat' (first | with_reducible assumption | ((with_reducible refine Foot.le_trans ?_ hF); decide) | ((with_reducible refine Foot.has_of_le hF ?_); (first | decide | (dsimp only; decide))) | ((with_reducible refine Foot.parts_of_le hF ?_); decide) | (exact ⟨by decide, by decide⟩) | lift_lets -underBinder | (intro x; have hx : a.Only g x := (by repeat' (first | with_reducible assumption | ((with_reducible refine Foot.le_trans ?_ hF); decide) | ((with_reducible refine Foot.has_of_le hF ?_); (first | decide | (dsimp only; decide))) | ((with_reducible refine Foot.parts_of_le hF ?_); decide) | (exact ⟨by decide, by decide⟩) | lift_lets -underBinder | (with_reducible first | apply State.Only.ite | apply State.Only.done | apply State.Only.levelEv | apply State.Only.put | apply State.Only.putFlag | apply State.loopOpen_only | apply State.showPhases_only) | (first | split | (dsimp only [x]; split)) | (intro _))); clear_value x) | (intro x; clear_value x) | (with_reducible first | apply State.Only.ite | apply State.Only.done | apply State.Only.levelEv | apply State.Only.put | apply State.Only.putFlag | apply State.loopOpen_only | apply State.showPhases_only) | split | (intro _))

theorem State.phaseClear_only {g : Foot} {a s : State} (h : a.Only g s) (l : Lane) (m : Nat)
    (hF : Foot.le ⟨[.smp], [0x30], false⟩ g = true) :
    a.Only g (State.phaseClear s l m) := by
  unfold State.phaseClear
  repeat' (first | with_reducible assumption | ((with_reducible refine Foot.le_trans ?_ hF); decide) | ((with_reducible refine Foot.has_of_le hF ?_); (first | decide | (dsimp only; decide))) | ((with_reducible refine Foot.parts_of_le hF ?_); decide) | (exact ⟨by decide, by decide⟩) | lift_lets -underBinder | (intro x; have hx : a.Only g x := (by repeat' (first | with_reducible assumption | ((with_reducible refine Foot.le_trans ?_ hF); decide) | ((with_reducible refine Foot.has_of_le hF ?_); (first | decide | (dsimp only; decide))) | ((with_reducible refine Foot.parts_of_le hF ?_); decide) | (exact ⟨by decide, by decide⟩) | lift_lets -underBinder | (with_reducible first | apply State.Only.ite | apply State.Only.levelEv | apply State.Only.putFlag | apply State.Only.smp) | (first | split | (dsimp only [x]; split)) | (intro _))); clear_value x) | (intro x; clear_value x) | (with_reducible first | apply State.Only.ite | apply State.Only.levelEv | apply State.Only.putFlag | apply State.Only.smp) | split | (intro _))

theorem State.dclTarget_only {g : Foot} {a s : State} (h : a.Only g s) (l : Lane) (hF : Foot.le ⟨[.dcl], [0x30], false⟩ g = true) :
    a.Only g (s.dclTarget l).1 := by
  unfold State.dclTarget
  dsimp only
  repeat' (first | with_reducible assumption | ((with_reducible refine Foot.has_of_le hF ?_); decide) | ((with_reducible refine Foot.parts_of_le hF ?_); decide) | (exact ⟨by decide, by decide⟩) | (with_reducible first | apply State.Only.dcl | apply State.Only.levelEv | apply State.Only.putFlag | apply State.Only.pulseEv | apply State.Only.ite) | split | (intro _))

theorem State.dclMedium_only {g : Foot} {a s : State} (h : a.Only g s) (l : Lane)
    (hF : Foot.le ⟨[.dcl], [0x30], false⟩ g = true) :
    a.Only g (State.dclMedium s l) := by
  unfold State.dclMedium
  repeat' (first | with_reducible assumption | ((with_reducible refine Foot.le_trans ?_ hF); decide) | ((with_reducible refine Foot.has_of_le hF ?_); (first | decide | (dsimp only; decide))) | ((with_reducible refine Foot.parts_of_le hF ?_); decide) | lift_lets -underBinder | (intro x; have hx : a.Only g x := (by repeat' (first | with_reducible assumption | ((with_reducible refine Foot.le_trans ?_ hF); decide) | ((with_reducible refine Foot.has_of_le hF ?_); (first | decide | (dsimp only; decide))) | ((with_reducible refine Foot.parts_of_le hF ?_); decide) | lift_lets -underBinder | (with_reducible first | apply State.Only.ite | apply State.Only.putWord | apply State.dclTarget_only) | (intro _))); clear_value x) | (intro x; clear_value x) | (with_reducible first | apply State.Only.ite | apply State.Only.putWord | apply State.dclTarget_only) | (intro _))

theorem State.dclSlow_only {g : Foot} {a s : State} (h : a.Only g s) (l : Lane)
    (hF : Foot.le ⟨[.smp, .dcl], [0x30], false⟩ g = true) :
    a.Only g (State.dclSlow s l) := by
  unfold State.dclSlow
  repeat' (first | with_reducible assumption | ((with_reducible refine Foot.le_trans ?_ hF); decide) | ((with_reducible refine Foot.has_of_le hF ?_); (first | decide | (dsimp only; decide))) | ((with_reducible refine Foot.parts_of_le hF ?_); decide) | (exact ⟨by decide, by decide⟩) | lift_lets -underBinder | (intro x; have hx : a.Only g x := (by repeat' (first | with_reducible assumption | ((with_reducible refine Foot.le_trans ?_ hF); decide) | ((with_reducible refine Foot.has_of_le hF ?_); (first | decide | (dsimp only; decide))) | ((with_reducible refine Foot.parts_of_le hF ?_); decide) | (exact ⟨by decide, by decide⟩) | lift_lets -underBinder | (with_reducible first | apply State.Only.ite | apply State.Only.dcl | apply State.Only.fold | apply State.Only.levelEv | apply State.Only.putFlag | apply State.Only.smp) | (first | split | (dsimp only [x]; split)) | (intro _))); clear_value x) | (intro x; clear_value x) | (with_reducible first | apply State.Only.ite | apply State.Only.dcl | apply State.Only.fold | apply State.Only.levelEv | apply State.Only.putFlag | apply State.Only.smp) | split | (intro _))

theorem State.restorePhases_only {g : Foot} {a s : State} (h : a.Only g s) (l : Lane)
    (hF : Foot.le ⟨[.hv, .mem, .dcl], [0x30], false⟩ g = true) :
    a.Only g (State.restorePhases s l) := by
  unfold State.restorePhases
  repeat' (first | with_reducible assumption | ((with_reducible refine Foot.le_trans ?_ hF); decide) | ((with_reducible refine Foot.has_of_le hF ?_); (first | decide | (dsimp only; decide))) | ((with_reducible refine Foot.parts_of_le hF ?_); decide) | lift_lets -underBinder | (intro x; have hx : a.Only g x := (by repeat' (first | with_reducible assumption | ((with_reducible refine Foot.le_trans ?_ hF); decide) | ((with_reducible refine Foot.has_of_le hF ?_); (first | decide | (dsimp only; decide))) | ((with_reducible refine Foot.parts_of_le hF ?_); decide) | lift_lets -underBinder | (with_reducible first | apply State.Only.dcl | apply State.Only.putFlag | apply State.showPhases_only) | (intro _))); clear_value x) | (intro x; clear_value x) | (with_reducible first | apply State.Only.dcl | apply State.Only.putFlag | apply State.showPhases_only) | (intro _))

theorem execShed_only {g : Foot} {a s : State} (h : a.Only g s)
    (hF : Foot.le ⟨[.dcl], [0x30], false⟩ g = true) :
    OutOnly g a (execShed s) := by
  unfold execShed
  repeat' (first | with_reducible assumption | ((with_reducible refine Foot.le_trans ?_ hF); decide) | ((with_reducible refine Foot.has_of_le hF ?_); (first | decide | (dsimp only; decide))) | ((with_reducible refine Foot.parts_of_le hF ?_); decide) | (with_reducible first | apply State.Only.ite | apply State.Only.both | apply State.Only.dcl | apply State.Only.done | apply State.Only.putFlag) | split | (intro _))

theorem execShedRampDone_only {g : Foot} {a s : State} (h : a.Only g s)
    (hF : Foot.le ⟨[.hv, .mem, .dcl], [0x30], false⟩ g = true) :
    OutOnly g a (execShedRampDone s) := by
  unfold execShedRampDone
  repeat' (first | with_reducible assumption | ((with_reducible refine Foot.le_trans ?_ hF); decide) | ((with_reducible refine Foot.has_of_le hF ?_); (first | decide | (dsimp only; decide))) | ((with_reducible refine Foot.parts_of_le hF ?_); decide) | (exact ⟨by decide, by decide⟩) | lift_lets -underBinder | (intro x; have hx : a.Only g x := (by repeat' (first | with_reducible assumption | ((with_reducible refine Foot.le_trans ?_ hF); decide) | ((with_reducible refine Foot.has_of_le hF ?_); (first | decide | (dsimp only; decide))) | ((with_reducible refine Foot.parts_of_le hF ?_); decide) | (exact ⟨by decide, by decide⟩) | lift_lets -underBinder | (with_reducible first | apply State.Only.ite | apply State.Only.both | apply State.Only.bump | apply State.Only.dcl | apply State.Only.done | apply State.Only.pulseEv | apply State.Only.putFlag | apply State.showPhases_only) | (first | split | (dsimp only [x]; split)) | (intro _))); clear_value x) | (intro x; clear_value x) | (with_reducible first | apply State.Only.ite | apply State.Only.both | apply State.Only.bump | apply State.Only.dcl | apply State.Only.done | apply State.Only.pulseEv | apply State.Only.putFlag | apply State.showPhases_only) | split | (intro _))

theorem execShedAbortNotice_only {g : Foot} {a s : State} (h : a.Only g s) (l : Lane)
    (hF : Foot.le ⟨[.hv, .mem, .dcl], [0x30], false⟩ g = true) :
    OutOnly g a (execShedAbortNotice l s) := by
  unfold execShedAbortNotice
  repeat' (first | with_reducible assumption | ((with_reducible refine Foot.le_trans ?_ hF); decide) | ((with_reducible refine Foot.has_of_le hF ?_); (first | decide | (dsimp only; decide))) | ((with_reducible refine Foot.parts_of_le hF ?_); decide) | (with_reducible first | apply State.Only.ite | apply State.Only.done | apply State.restorePhases_only) | split | (intro _))

theorem execOvTimeout_only {g : Foot} {a s : State} (h : a.Only g s) (l : Lane)
    (hF : Foot.le ⟨[.hv, .aon, .mon, .dcl, .chg, .loopReq], [0x10, 0x30, 0x31, 0x32, 0x33, 0x50], false⟩ g = true) :
    OutOnly g a (execOvTimeout l s) := by
  unfold execOvTimeout
  repeat' (first | with_reducible assumption | ((with_reducible refine Foot.le_trans ?_ hF); decide) | ((with_reducible refine Foot.has_of_le hF ?_); (first | decide | (dsimp only; decide))) | ((with_reducible refine Foot.parts_of_le hF ?_); decide) | (with_reducible first | apply State.Only.ite | apply State.Only.done | apply State.dclFault_only) | split | (intro _))

theorem State.dclSurvive_only {g : Foot} {a s : State} (h : a.Only g s) (l : Lane)
    (hF : Foot.le ⟨[.hv, .mem, .dcl], [0x30], false⟩ g = true) :
    a.Only g (State.dclSurvive s l) := by
  unfold State.dclSurvive
  repeat' (first | with_reducible assumption | ((with_reducible refine Foot.le_trans ?_ hF); decide) | ((with_reducible refine Foot.has_of_le hF ?_); (first | decide | (dsimp only; decide))) | ((with_reducible refine Foot.parts_of_le hF ?_); decide) | (intro x p hp; cases p <;> first | rfl | trivial | exact absurd (Foot.parts_of_le hF (by decide)) hp) | (exact Or.inr (fun _ => rfl)) | lift_lets -underBinder | (intro x; have hx : a.Only g x := (by repeat' (first | with_reducible assumption | ((with_reducible refine Foot.le_trans ?_ hF); decide) | ((with_reducible refine Foot.has_of_le hF ?_); (first | decide | (dsimp only; decide))) | ((with_reducible refine Foot.parts_of_le hF ?_); decide) | (intro x p hp; cases p <;> first | rfl | trivial | exact absurd (Foot.parts_of_le hF (by decide)) hp) | (exact Or.inr (fun _ => rfl)) | lift_lets -underBinder | (with_reducible first | apply State.Only.ite | apply State.Only.both | apply State.Only.dcl | apply State.Only.lane | apply State.Only.mput | apply State.restorePhases_only) | (first | split | (dsimp only [x]; split)) | (intro _))); clear_value x) | (intro x; clear_value x) | (with_reducible first | apply State.Only.ite | apply State.Only.both | apply State.Only.dcl | apply State.Only.lane | apply State.Only.mput | apply State.restorePhases_only) | split | (intro _))

theorem State.dclOv_only {g : Foot} {a s : State} (h : a.Only g s) (l : Lane)
    (hF : Foot.le ⟨[], [0x30], false⟩ g = true) :
    a.Only g (State.dclOv s l) := by
  unfold State.dclOv
  repeat' (first | with_reducible assumption | ((with_reducible refine Foot.le_trans ?_ hF); decide) | ((with_reducible refine Foot.has_of_le hF ?_); (first | decide | (dsimp only; decide))) | ((with_reducible refine Foot.parts_of_le hF ?_); decide) | (exact ⟨by decide, by decide⟩) | lift_lets -underBinder | (intro x; have hx : a.Only g x := (by repeat' (first | with_reducible assumption | ((with_reducible refine Foot.le_trans ?_ hF); decide) | ((with_reducible refine Foot.has_of_le hF ?_); (first | decide | (dsimp only; decide))) | ((with_reducible refine Foot.parts_of_le hF ?_); decide) | (exact ⟨by decide, by decide⟩) | lift_lets -underBinder | (with_reducible first | apply State.Only.ite | apply State.Only.levelEv | apply State.Only.putFlag) | (first | split | (dsimp only [x]; split)) | (intro _))); clear_value x) | (intro x; clear_value x) | (with_reducible first | apply State.Only.ite | apply State.Only.levelEv | apply State.Only.putFlag) | split | (intro _))

theorem State.dclBegin_only {g : Foot} {a s : State} (h : a.Only g s) (l : Lane)
    (hF : Foot.le ⟨[], [0x30], false⟩ g = true) :
    a.Only g (State.dclBegin s l) := by
  unfold State.dclBegin
  repeat' (first | with_reducible assumption | ((with_reducible refine Foot.le_trans ?_ hF); decide) | ((with_reducible refine Foot.has_of_le hF ?_); (first | decide | (dsimp only; decide))) | ((with_reducible refine Foot.parts_of_le hF ?_); decide) | (with_reducible first | apply State.Only.ite | apply State.Only.put) | (intro _))

theorem State.dclShow_only {g : Foot} {a s : State} (h : a.Only g s) (l : Lane)
    (hF : Foot.le ⟨[], [0x30], false⟩ g = true) :
    a.Only g (State.dclShow s l) := by
  unfold State.dclShow
  repeat' (first | with_reducible assumption | ((with_reducible refine Foot.le_trans ?_ hF); decide) | ((with_reducible refine Foot.has_of_le hF ?_); (first | decide | (dsimp only; decide))) | ((with_reducible refine Foot.parts_of_le hF ?_); decide) | lift_lets -underBinder | (intro x; have hx : a.Only g x := (by repeat' (first | with_reducible assumption | ((with_reducible refine Foot.le_trans ?_ hF); decide) | ((with_reducible refine Foot.has_of_le hF ?_); (first | decide | (dsimp only; decide))) | ((with_reducible refine Foot.parts_of_le hF ?_); decide) | lift_lets -underBinder | (with_reducible first | apply State.Only.fold | apply State.Only.putFlag | apply State.Only.putWord | apply State.setPhaseActive_only) | (first | split | (dsimp only [x]; split)) | (intro _))); clear_value x) | (intro x; clear_value x) | (with_reducible first | apply State.Only.fold | apply State.Only.putFlag | apply State.Only.putWord | apply State.setPhaseActive_only) | split | (intro _))

theorem State.dclFast_only {g : Foot} {a s : State} (h : a.Only g s) (l : Lane)
    (hF : Foot.le ⟨[.hv, .aon, .mon, .mem, .dcl, .chg, .loopReq], [0x10, 0x30, 0x31, 0x32, 0x33, 0x50], false⟩ g = true) :
    a.Only g (State.dclFast s l) := by
  unfold State.dclFast
  repeat' (first | with_reducible assumption | ((with_reducible refine Foot.le_trans ?_ hF); decide) | ((with_reducible refine Foot.has_of_le hF ?_); (first | decide | (dsimp only; decide))) | ((with_reducible refine Foot.parts_of_le hF ?_); decide) | (exact ⟨by decide, by decide⟩) | lift_lets -underBinder | (intro x; have hx : a.Only g x := (by repeat' (first | with_reducible assumption | ((with_reducible refine Foot.le_trans ?_ hF); decide) | ((with_reducible refine Foot.has_of_le hF ?_); (first | decide | (dsimp only; decide))) | ((with_reducible refine Foot.parts_of_le hF ?_); decide) | (exact ⟨by decide, by decide⟩) | lift_lets -underBinder | (with_reducible first | apply State.Only.ite | apply State.Only.both | apply State.Only.bump | apply State.Only.dcl | apply State.Only.pulseEv | apply State.dclBegin_only | apply State.dclOv_only | apply State.dclShow_only | apply State.dclSource_only | apply State.dclStop_only | apply State.dclSurvive_only | apply State.restorePhases_only | apply State.showPhases_only) | (first | split | (dsimp only [x]; split)) | (intro _))); clear_value x) | (intro x; clear_value x) | (with_reducible first | apply State.Only.ite | apply State.Only.both | apply State.Only.bump | apply State.Only.dcl | apply State.Only.pulseEv | apply State.dclBegin_only | apply State.dclOv_only | apply State.dclShow_only | apply State.dclSource_only | apply State.dclStop_only | apply State.dclSurvive_only | apply State.restorePhases_only | apply State.showPhases_only) | split | (intro _))

theorem State.setPgDcl_only {g : Foot} {a s : State} (h : a.Only g s) (on : Bool)
    (hF : Foot.le ⟨[.aon], [0x80], false⟩ g = true) :
    a.Only g (State.setPgDcl s on) := by
  unfold State.setPgDcl
  repeat' (first | with_reducible assumption | ((with_reducible refine Foot.le_trans ?_ hF); decide) | ((with_reducible refine Foot.has_of_le hF ?_); (first | decide | (dsimp only; decide))) | ((with_reducible refine Foot.parts_of_le hF ?_); decide) | (exact ⟨by decide, by decide⟩) | (with_reducible first | apply State.Only.ite | apply State.Only.aon | apply State.Only.monEv | apply State.Only.mputFlag) | (intro _))

theorem execPgDclRelease_only {g : Foot} {a s : State} (h : a.Only g s)
    (hF : Foot.le ⟨[.aon], [0x80], false⟩ g = true) :
    OutOnly g a (execPgDclRelease s) := by
  unfold execPgDclRelease
  repeat' (first | with_reducible assumption | ((with_reducible refine Foot.le_trans ?_ hF); decide) | ((with_reducible refine Foot.has_of_le hF ?_); (first | decide | (dsimp only; decide))) | ((with_reducible refine Foot.parts_of_le hF ?_); decide) | (with_reducible first | apply State.Only.ite | apply State.Only.done | apply State.setPgDcl_only) | split | (intro _))

end Sys2Proof.Machine
end

