-- ==== Sys2Proof/Laws/Only/Charger.lean ====
section
/-! SUPPORT. What the operations of Charger may change. -/
namespace Sys2Proof.Machine
set_option linter.all false
set_option Elab.async false

theorem State.interlock_only {g : Foot} {a s : State} (h : a.Only g s)
    (hF : Foot.le ⟨[.hv, .mon], [0x50], false⟩ g = true) :
    a.Only g (State.interlock s) := by
  unfold State.interlock
  repeat' (first | with_reducible assumption | ((with_reducible refine Foot.le_trans ?_ hF); decide) | ((with_reducible refine Foot.has_of_le hF ?_); (first | decide | (dsimp only; decide))) | ((with_reducible refine Foot.parts_of_le hF ?_); decide) | (exact ⟨by decide, by decide⟩) | (exact Or.inr (fun _ => rfl)) | lift_lets -underBinder | (intro x; have hx : a.Only g x := (by repeat' (first | with_reducible assumption | ((with_reducible refine Foot.le_trans ?_ hF); decide) | ((with_reducible refine Foot.has_of_le hF ?_); (first | decide | (dsimp only; decide))) | ((with_reducible refine Foot.parts_of_le hF ?_); decide) | (exact ⟨by decide, by decide⟩) | (exact Or.inr (fun _ => rfl)) | lift_lets -underBinder | (with_reducible first | apply State.Only.ite | apply State.Only.mon | apply State.Only.monEv | apply State.holdSet_only | apply State.placeSet_only | apply State.publish_only) | (first | split | (dsimp only [x]; split)) | (intro _))); clear_value x) | (intro x; clear_value x) | (with_reducible first | apply State.Only.ite | apply State.Only.mon | apply State.Only.monEv | apply State.holdSet_only | apply State.placeSet_only | apply State.publish_only) | split | (intro _))

theorem State.connUpdate_only {g : Foot} {a s : State} (h : a.Only g s) (l : Lane)
    (hF : Foot.le ⟨[.hv, .mon, .saf, .trc, .loopReq], [0x10, 0x11, 0x33, 0x50], false⟩ g = true) :
    a.Only g (State.connUpdate s l) := by
  unfold State.connUpdate
  repeat' (first | with_reducible assumption | ((with_reducible refine Foot.le_trans ?_ hF); decide) | ((with_reducible refine Foot.has_of_le hF ?_); (first | decide | (dsimp only; decide))) | ((with_reducible refine Foot.parts_of_le hF ?_); decide) | (exact ⟨by decide, by decide⟩) | lift_lets -underBinder | (intro x; have hx : a.Only g x := (by repeat' (first | with_reducible assumption | ((with_reducible refine Foot.le_trans ?_ hF); decide) | ((with_reducible refine Foot.has_of_le hF ?_); (first | decide | (dsimp only; decide))) | ((with_reducible refine Foot.parts_of_le hF ?_); decide) | (exact ⟨by decide, by decide⟩) | lift_lets -underBinder | (with_reducible first | apply State.Only.ite | apply State.Only.pulseEv | apply State.Only.putFlag | apply State.Only.saf | apply State.interlock_only | apply State.setFault_only) | (intro _))); clear_value x) | (intro x; clear_value x) | (with_reducible first | apply State.Only.ite | apply State.Only.pulseEv | apply State.Only.putFlag | apply State.Only.saf | apply State.interlock_only | apply State.setFault_only) | (intro _))

theorem State.pilotEv_only {g : Foot} {a s : State} (h : a.Only g s) (l : Lane)
    (hF : Foot.le ⟨[], [], false⟩ g = true) :
    a.Only g (State.pilotEv s l) := by
  unfold State.pilotEv
  repeat' (first | with_reducible assumption | ((with_reducible refine Foot.le_trans ?_ hF); decide) | ((with_reducible refine Foot.has_of_le hF ?_); (first | decide | (dsimp only; decide))) | ((with_reducible refine Foot.parts_of_le hF ?_); decide) | (exact ⟨by decide, by decide⟩) | (with_reducible first | apply State.Only.levelEv) | split | (intro _))

theorem State.asHolder_only {g : Foot} {a s : State} (h : a.Only g s) (l : Lane) (f : State → State) (hf : ∀ s, a.Only g s → a.Only g (f s))
    (hF : Foot.le ⟨[], [], false⟩ g = true) :
    a.Only g (State.asHolder s l f) := by
  unfold State.asHolder
  repeat' (first | with_reducible assumption | ((with_reducible refine Foot.le_trans ?_ hF); decide) | ((with_reducible refine Foot.has_of_le hF ?_); (first | decide | (dsimp only; decide))) | ((with_reducible refine Foot.parts_of_le hF ?_); decide) | (with_reducible first | apply State.Only.ite | apply hf) | (intro _))

theorem execCpStateChange_only {g : Foot} {a s : State} (h : a.Only g s) (l : Lane) (c : CpLevel)
    (hF : Foot.le ⟨[.hv, .aon, .mon, .saf, .trc, .chg, .loopReq], [0x10, 0x11, 0x30, 0x31, 0x32, 0x33, 0x50], false⟩ g = true) :
    OutOnly g a (execCpStateChange l c s) := by
  unfold execCpStateChange
  repeat' (first | with_reducible assumption | ((with_reducible refine Foot.le_trans ?_ hF); decide) | ((with_reducible refine Foot.has_of_le hF ?_); (first | decide | (dsimp only; decide))) | ((with_reducible refine Foot.parts_of_le hF ?_); decide) | (exact ⟨by decide, by decide⟩) | lift_lets -underBinder | (intro x; have hx : a.Only g x := (by repeat' (first | with_reducible assumption | ((with_reducible refine Foot.le_trans ?_ hF); decide) | ((with_reducible refine Foot.has_of_le hF ?_); (first | decide | (dsimp only; decide))) | ((with_reducible refine Foot.parts_of_le hF ?_); decide) | (exact ⟨by decide, by decide⟩) | lift_lets -underBinder | (with_reducible first | apply State.Only.ite | apply State.Only.chg | apply State.Only.done | apply State.Only.pulseEv | apply State.Only.put | apply State.asHolder_only | apply State.chgFault_only | apply State.chgRampdown_only | apply State.connUpdate_only | apply State.pilotEv_only) | (first | split | (dsimp only [x]; split)) | (intro _))); clear_value x) | (intro x; clear_value x) | (with_reducible first | apply State.Only.ite | apply State.Only.chg | apply State.Only.done | apply State.Only.pulseEv | apply State.Only.put | apply State.asHolder_only | apply State.chgFault_only | apply State.chgRampdown_only | apply State.connUpdate_only | apply State.pilotEv_only) | split | (intro _))

theorem execCpPwmPeriod_only {g : Foot} {a s : State} (h : a.Only g s) (l : Lane) (duty : Nat)
    (hF : Foot.le ⟨[.chg], [0x31, 0x32, 0x33], false⟩ g = true) :
    OutOnly g a (execCpPwmPeriod l duty s) := by
  unfold execCpPwmPeriod
  repeat' (first | with_reducible assumption | ((with_reducible refine Foot.le_trans ?_ hF); decide) | ((with_reducible refine Foot.has_of_le hF ?_); (first | decide | (dsimp only; decide))) | ((with_reducible refine Foot.parts_of_le hF ?_); decide) | lift_lets -underBinder | (intro x; have hx : a.Only g x := (by repeat' (first | with_reducible assumption | ((with_reducible refine Foot.le_trans ?_ hF); decide) | ((with_reducible refine Foot.has_of_le hF ?_); (first | decide | (dsimp only; decide))) | ((with_reducible refine Foot.parts_of_le hF ?_); decide) | lift_lets -underBinder | (with_reducible first | apply State.Only.ite | apply State.Only.chg | apply State.Only.done | apply State.Only.fold | apply State.Only.put | apply State.Only.putFlag | apply State.asHolder_only | apply State.chgRampdown_only) | (first | split | (dsimp only [x]; split)) | (intro _))); clear_value x) | (intro x; clear_value x) | (with_reducible first | apply State.Only.ite | apply State.Only.chg | apply State.Only.done | apply State.Only.fold | apply State.Only.put | apply State.Only.putFlag | apply State.asHolder_only | apply State.chgRampdown_only) | split | (intro _))

theorem execPpClassify_only {g : Foot} {a s : State} (h : a.Only g s) (l : Lane) (r : Nat)
    (hF : Foot.le ⟨[.hv, .mon, .saf, .trc, .chg, .loopReq], [0x10, 0x11, 0x31, 0x32, 0x33, 0x50], false⟩ g = true) :
    OutOnly g a (execPpClassify l r s) := by
  unfold execPpClassify
  repeat' (first | with_reducible assumption | ((with_reducible refine Foot.le_trans ?_ hF); decide) | ((with_reducible refine Foot.has_of_le hF ?_); (first | decide | (dsimp only; decide))) | ((with_reducible refine Foot.parts_of_le hF ?_); decide) | lift_lets -underBinder | (intro x; have hx : a.Only g x := (by repeat' (first | with_reducible assumption | ((with_reducible refine Foot.le_trans ?_ hF); decide) | ((with_reducible refine Foot.has_of_le hF ?_); (first | decide | (dsimp only; decide))) | ((with_reducible refine Foot.parts_of_le hF ?_); decide) | lift_lets -underBinder | (with_reducible first | apply State.Only.ite | apply State.Only.done | apply State.Only.put | apply State.asHolder_only | apply State.chgRampdown_only | apply State.connUpdate_only | apply State.pilotEv_only) | (first | split | (dsimp only [x]; split)) | (intro _))); clear_value x) | (intro x; clear_value x) | (with_reducible first | apply State.Only.ite | apply State.Only.done | apply State.Only.put | apply State.asHolder_only | apply State.chgRampdown_only | apply State.connUpdate_only | apply State.pilotEv_only) | split | (intro _))

theorem execInterlockRelease_only {g : Foot} {a s : State} (h : a.Only g s)
    (hF : Foot.le ⟨[.hv, .mon], [0x50], false⟩ g = true) :
    OutOnly g a (execInterlockRelease s) := by
  unfold execInterlockRelease
  repeat' (first | with_reducible assumption | ((with_reducible refine Foot.le_trans ?_ hF); decide) | ((with_reducible refine Foot.has_of_le hF ?_); (first | decide | (dsimp only; decide))) | ((with_reducible refine Foot.parts_of_le hF ?_); decide) | (exact Or.inr (fun _ => rfl)) | lift_lets -underBinder | (intro x; have hx : a.Only g x := (by repeat' (first | with_reducible assumption | ((with_reducible refine Foot.le_trans ?_ hF); decide) | ((with_reducible refine Foot.has_of_le hF ?_); (first | decide | (dsimp only; decide))) | ((with_reducible refine Foot.parts_of_le hF ?_); decide) | (exact Or.inr (fun _ => rfl)) | lift_lets -underBinder | (with_reducible first | apply State.Only.ite | apply State.Only.done | apply State.Only.mon | apply State.placeSet_only | apply State.publish_only) | (first | split | (dsimp only [x]; split)) | (intro _))); clear_value x) | (intro x; clear_value x) | (with_reducible first | apply State.Only.ite | apply State.Only.done | apply State.Only.mon | apply State.placeSet_only | apply State.publish_only) | split | (intro _))

theorem execInterlockDisagree_only {g : Foot} {a s : State} (h : a.Only g s)
    (hF : Foot.le ⟨[], [], false⟩ g = true) :
    OutOnly g a (execInterlockDisagree s) := by
  unfold execInterlockDisagree
  repeat' (first | with_reducible assumption | ((with_reducible refine Foot.le_trans ?_ hF); decide) | ((with_reducible refine Foot.has_of_le hF ?_); (first | decide | (dsimp only; decide))) | ((with_reducible refine Foot.parts_of_le hF ?_); decide) | (exact ⟨by decide, by decide⟩) | (with_reducible first | apply State.Only.ite | apply State.Only.both | apply State.Only.done | apply State.Only.pulseEv) | split | (intro _))

theorem State.chgReady_only {g : Foot} {a s : State} (h : a.Only g s) (l : Lane)
    (hF : Foot.le ⟨[.aon, .chg], [0x33], false⟩ g = true) :
    a.Only g (State.chgReady s l) := by
  unfold State.chgReady
  repeat' (first | with_reducible assumption | ((with_reducible refine Foot.le_trans ?_ hF); decide) | ((with_reducible refine Foot.has_of_le hF ?_); (first | decide | (dsimp only; decide))) | ((with_reducible refine Foot.parts_of_le hF ?_); decide) | (with_reducible first | apply State.Only.chg | apply State.Only.put | apply State.driveS2_only) | (intro _))

theorem State.chgPreload_only {g : Foot} {a s : State} (h : a.Only g s) (l : Lane)
    (hF : Foot.le ⟨[.chg, .loopReq], [0x32, 0x33], false⟩ g = true) :
    a.Only g (State.chgPreload s l) := by
  unfold State.chgPreload
  repeat' (first | with_reducible assumption | ((with_reducible refine Foot.le_trans ?_ hF); decide) | ((with_reducible refine Foot.has_of_le hF ?_); (first | decide | (dsimp only; decide))) | ((with_reducible refine Foot.parts_of_le hF ?_); decide) | lift_lets -underBinder | (intro x; have hx : a.Only g x := (by repeat' (first | with_reducible assumption | ((with_reducible refine Foot.le_trans ?_ hF); decide) | ((with_reducible refine Foot.has_of_le hF ?_); (first | decide | (dsimp only; decide))) | ((with_reducible refine Foot.parts_of_le hF ?_); decide) | lift_lets -underBinder | (with_reducible first | apply State.Only.chg | apply State.Only.put | apply State.loopAsk_only) | (intro _))); clear_value x) | (intro x; clear_value x) | (with_reducible first | apply State.Only.chg | apply State.Only.put | apply State.loopAsk_only) | (intro _))

theorem execMainsPresent_only {g : Foot} {a s : State} (h : a.Only g s) (l : Lane)
    (hF : Foot.le ⟨[.chg, .loopReq], [0x32, 0x33], false⟩ g = true) :
    OutOnly g a (execMainsPresent l s) := by
  unfold execMainsPresent
  repeat' (first | with_reducible assumption | ((with_reducible refine Foot.le_trans ?_ hF); decide) | ((with_reducible refine Foot.has_of_le hF ?_); (first | decide | (dsimp only; decide))) | ((with_reducible refine Foot.parts_of_le hF ?_); decide) | (with_reducible first | apply State.Only.ite | apply State.Only.done | apply State.chgPreload_only) | split | (intro _))

theorem execPreloadDone_only {g : Foot} {a s : State} (h : a.Only g s) (l : Lane)
    (hF : Foot.le ⟨[.aon, .mon], [0x33, 0x50], false⟩ g = true) :
    OutOnly g a (execPreloadDone l s) := by
  unfold execPreloadDone
  repeat' (first | with_reducible assumption | ((with_reducible refine Foot.le_trans ?_ hF); decide) | ((with_reducible refine Foot.has_of_le hF ?_); (first | decide | (dsimp only; decide))) | ((with_reducible refine Foot.parts_of_le hF ?_); decide) | lift_lets -underBinder | (intro x; have hx : a.Only g x := (by repeat' (first | with_reducible assumption | ((with_reducible refine Foot.le_trans ?_ hF); decide) | ((with_reducible refine Foot.has_of_le hF ?_); (first | decide | (dsimp only; decide))) | ((with_reducible refine Foot.parts_of_le hF ?_); decide) | lift_lets -underBinder | (with_reducible first | apply State.Only.ite | apply State.Only.done | apply State.Only.put | apply State.askK_only) | (first | split | (dsimp only [x]; split)) | (intro _))); clear_value x) | (intro x; clear_value x) | (with_reducible first | apply State.Only.ite | apply State.Only.done | apply State.Only.put | apply State.askK_only) | split | (intro _))

theorem State.dabPreset_only {g : Foot} {a s : State} (h : a.Only g s) (l : Lane)
    (hF : Foot.le ⟨[.mem], [], false⟩ g = true) :
    a.Only g (State.dabPreset s l) := by
  unfold State.dabPreset
  repeat' (first | with_reducible assumption | ((with_reducible refine Foot.le_trans ?_ hF); decide) | ((with_reducible refine Foot.has_of_le hF ?_); (first | decide | (dsimp only; decide))) | ((with_reducible refine Foot.parts_of_le hF ?_); decide) | (intro x p hp; cases p <;> first | rfl | trivial | exact absurd (Foot.parts_of_le hF (by decide)) hp) | (exact Or.inr (fun _ => rfl)) | lift_lets -underBinder | (intro x; have hx : a.Only g x := (by repeat' (first | with_reducible assumption | ((with_reducible refine Foot.le_trans ?_ hF); decide) | ((with_reducible refine Foot.has_of_le hF ?_); (first | decide | (dsimp only; decide))) | ((with_reducible refine Foot.parts_of_le hF ?_); decide) | (intro x p hp; cases p <;> first | rfl | trivial | exact absurd (Foot.parts_of_le hF (by decide)) hp) | (exact Or.inr (fun _ => rfl)) | lift_lets -underBinder | (with_reducible first | apply State.Only.lane | apply State.Only.mput) | (first | split | (dsimp only [x]; split)) | (intro _))); clear_value x) | (intro x; clear_value x) | (with_reducible first | apply State.Only.lane | apply State.Only.mput) | split | (intro _))

theorem State.chgCascade_only {g : Foot} {a s : State} (h : a.Only g s) (l : Lane)
    (hF : Foot.le ⟨[.mem, .chg], [0x30, 0x33], false⟩ g = true) :
    a.Only g (State.chgCascade s l) := by
  unfold State.chgCascade
  repeat' (first | with_reducible assumption | ((with_reducible refine Foot.le_trans ?_ hF); decide) | ((with_reducible refine Foot.has_of_le hF ?_); (first | decide | (dsimp only; decide))) | ((with_reducible refine Foot.parts_of_le hF ?_); decide) | lift_lets -underBinder | (intro x; have hx : a.Only g x := (by repeat' (first | with_reducible assumption | ((with_reducible refine Foot.le_trans ?_ hF); decide) | ((with_reducible refine Foot.has_of_le hF ?_); (first | decide | (dsimp only; decide))) | ((with_reducible refine Foot.parts_of_le hF ?_); decide) | lift_lets -underBinder | (with_reducible first | apply State.Only.bump | apply State.Only.chg | apply State.dabPreset_only | apply State.setReg_only) | (intro _))); clear_value x) | (intro x; clear_value x) | (with_reducible first | apply State.Only.bump | apply State.Only.chg | apply State.dabPreset_only | apply State.setReg_only) | (intro _))

theorem State.chgClosed_only {g : Foot} {a s : State} (h : a.Only g s) (l : Lane)
    (hF : Foot.le ⟨[.mem, .chg, .loopReq], [0x30, 0x31, 0x32, 0x33], false⟩ g = true) :
    a.Only g (State.chgClosed s l) := by
  unfold State.chgClosed
  repeat' (first | with_reducible assumption | ((with_reducible refine Foot.le_trans ?_ hF); decide) | ((with_reducible refine Foot.has_of_le hF ?_); (first | decide | (dsimp only; decide))) | ((with_reducible refine Foot.parts_of_le hF ?_); decide) | lift_lets -underBinder | (intro x; have hx : a.Only g x := (by repeat' (first | with_reducible assumption | ((with_reducible refine Foot.le_trans ?_ hF); decide) | ((with_reducible refine Foot.has_of_le hF ?_); (first | decide | (dsimp only; decide))) | ((with_reducible refine Foot.parts_of_le hF ?_); decide) | lift_lets -underBinder | (with_reducible first | apply State.Only.ite | apply State.Only.put | apply State.chgCascade_only | apply State.loopAsk_only) | (intro _))); clear_value x) | (intro x; clear_value x) | (with_reducible first | apply State.Only.ite | apply State.Only.put | apply State.chgCascade_only | apply State.loopAsk_only) | (intro _))

theorem State.chgLeave_only {g : Foot} {a s : State} (h : a.Only g s) (l : Lane)
    (hF : Foot.le ⟨[], [0x33], false⟩ g = true) :
    a.Only g (State.chgLeave s l) := by
  unfold State.chgLeave
  repeat' (first | with_reducible assumption | ((with_reducible refine Foot.le_trans ?_ hF); decide) | ((with_reducible refine Foot.has_of_le hF ?_); (first | decide | (dsimp only; decide))) | ((with_reducible refine Foot.parts_of_le hF ?_); decide) | (with_reducible first | apply State.Only.ite | apply State.Only.put) | (intro _))

theorem State.setKfb_only {g : Foot} {a s : State} (h : a.Only g s) (n : Fin 6) (closed : Bool)
    (hF : Foot.le ⟨[.aon], [0x33, 0x50], false⟩ g = true) :
    a.Only g (State.setKfb s n closed) := by
  unfold State.setKfb
  repeat' (first | with_reducible assumption | ((with_reducible refine Foot.le_trans ?_ hF); decide) | ((with_reducible refine Foot.has_of_le hF ?_); (first | decide | (dsimp only; decide))) | ((with_reducible refine Foot.parts_of_le hF ?_); decide) | lift_lets -underBinder | (intro x; have hx : a.Only g x := (by repeat' (first | with_reducible assumption | ((with_reducible refine Foot.le_trans ?_ hF); decide) | ((with_reducible refine Foot.has_of_le hF ?_); (first | decide | (dsimp only; decide))) | ((with_reducible refine Foot.parts_of_le hF ?_); decide) | lift_lets -underBinder | (with_reducible first | apply State.Only.ite | apply State.Only.aon | apply State.Only.both | apply State.Only.putFlag | apply State.showK_only) | (first | split | (dsimp only [x]; split)) | (intro _))); clear_value x) | (intro x; clear_value x) | (with_reducible first | apply State.Only.ite | apply State.Only.aon | apply State.Only.both | apply State.Only.putFlag | apply State.showK_only) | split | (intro _))

theorem State.chgKfb_only {g : Foot} {a s : State} (h : a.Only g s) (l : Lane)
    (hF : Foot.le ⟨[.aon, .mon, .mem, .chg, .loopReq], [0x30, 0x31, 0x32, 0x33, 0x50], false⟩ g = true) :
    a.Only g (State.chgKfb s l) := by
  unfold State.chgKfb
  repeat' (first | with_reducible assumption | ((with_reducible refine Foot.le_trans ?_ hF); decide) | ((with_reducible refine Foot.has_of_le hF ?_); (first | decide | (dsimp only; decide))) | ((with_reducible refine Foot.parts_of_le hF ?_); decide) | lift_lets -underBinder | (intro x; have hx : a.Only g x := (by repeat' (first | with_reducible assumption | ((with_reducible refine Foot.le_trans ?_ hF); decide) | ((with_reducible refine Foot.has_of_le hF ?_); (first | decide | (dsimp only; decide))) | ((with_reducible refine Foot.parts_of_le hF ?_); decide) | lift_lets -underBinder | (with_reducible first | apply State.Only.ite | apply State.askK_only | apply State.chgClosed_only | apply State.chgLeave_only) | (first | split | (dsimp only [x]; split)) | (intro _))); clear_value x) | (intro x; clear_value x) | (with_reducible first | apply State.Only.ite | apply State.askK_only | apply State.chgClosed_only | apply State.chgLeave_only) | split | (intro _))

theorem execKfbConfirm_only {g : Foot} {a s : State} (h : a.Only g s) (n : Fin 6) (closed : Bool)
    (hF : Foot.le ⟨[.aon, .mon, .mem, .chg, .loopReq], [0x30, 0x31, 0x32, 0x33, 0x50], false⟩ g = true) :
    OutOnly g a (execKfbConfirm n closed s) := by
  unfold execKfbConfirm
  repeat' (first | with_reducible assumption | ((with_reducible refine Foot.le_trans ?_ hF); decide) | ((with_reducible refine Foot.has_of_le hF ?_); (first | decide | (dsimp only; decide))) | ((with_reducible refine Foot.parts_of_le hF ?_); decide) | lift_lets -underBinder | (intro x; have hx : a.Only g x := (by repeat' (first | with_reducible assumption | ((with_reducible refine Foot.le_trans ?_ hF); decide) | ((with_reducible refine Foot.has_of_le hF ?_); (first | decide | (dsimp only; decide))) | ((with_reducible refine Foot.parts_of_le hF ?_); decide) | lift_lets -underBinder | (with_reducible first | apply State.Only.ite | apply State.Only.both | apply State.Only.done | apply State.asHolder_only | apply State.chgKfb_only | apply State.setKfb_only) | (first | split | (dsimp only [x]; split)) | (intro _))); clear_value x) | (intro x; clear_value x) | (with_reducible first | apply State.Only.ite | apply State.Only.both | apply State.Only.done | apply State.asHolder_only | apply State.chgKfb_only | apply State.setKfb_only) | split | (intro _))

theorem execAfeLock_only {g : Foot} {a s : State} (h : a.Only g s) (l : Lane)
    (hF : Foot.le ⟨[.mem, .chg], [0x30, 0x31, 0x32, 0x33], false⟩ g = true) :
    OutOnly g a (execAfeLock l s) := by
  unfold execAfeLock
  repeat' (first | with_reducible assumption | ((with_reducible refine Foot.le_trans ?_ hF); decide) | ((with_reducible refine Foot.has_of_le hF ?_); (first | decide | (dsimp only; decide))) | ((with_reducible refine Foot.parts_of_le hF ?_); decide) | lift_lets -underBinder | (intro x; have hx : a.Only g x := (by repeat' (first | with_reducible assumption | ((with_reducible refine Foot.le_trans ?_ hF); decide) | ((with_reducible refine Foot.has_of_le hF ?_); (first | decide | (dsimp only; decide))) | ((with_reducible refine Foot.parts_of_le hF ?_); decide) | lift_lets -underBinder | (with_reducible first | apply State.Only.ite | apply State.Only.done | apply State.Only.put | apply State.chgCascade_only) | (first | split | (dsimp only [x]; split)) | (intro _))); clear_value x) | (intro x; clear_value x) | (with_reducible first | apply State.Only.ite | apply State.Only.done | apply State.Only.put | apply State.chgCascade_only) | split | (intro _))

theorem execAfeCurrentZero_only {g : Foot} {a s : State} (h : a.Only g s) (l : Lane)
    (hF : Foot.le ⟨[.hv, .aon, .mon, .mem, .chg, .loopReq], [0x10, 0x30, 0x31, 0x32, 0x33, 0x50], false⟩ g = true) :
    OutOnly g a (execAfeCurrentZero l s) := by
  unfold execAfeCurrentZero
  repeat' (first | with_reducible assumption | ((with_reducible refine Foot.le_trans ?_ hF); decide) | ((with_reducible refine Foot.has_of_le hF ?_); (first | decide | (dsimp only; decide))) | ((with_reducible refine Foot.parts_of_le hF ?_); decide) | lift_lets -underBinder | (intro x; have hx : a.Only g x := (by repeat' (first | with_reducible assumption | ((with_reducible refine Foot.le_trans ?_ hF); decide) | ((with_reducible refine Foot.has_of_le hF ?_); (first | decide | (dsimp only; decide))) | ((with_reducible refine Foot.parts_of_le hF ?_); decide) | lift_lets -underBinder | (with_reducible first | apply State.Only.ite | apply State.Only.chg | apply State.Only.done | apply State.Only.put | apply State.askK_only | apply State.chgKfb_only | apply State.driveS2_only | apply State.gatesOff_only | apply State.loopOpen_only | apply State.setReg_only) | (first | split | (dsimp only [x]; split)) | (intro _))); clear_value x) | (intro x; clear_value x) | (with_reducible first | apply State.Only.ite | apply State.Only.chg | apply State.Only.done | apply State.Only.put | apply State.askK_only | apply State.chgKfb_only | apply State.driveS2_only | apply State.gatesOff_only | apply State.loopOpen_only | apply State.setReg_only) | split | (intro _))

theorem execKFeedback_only {g : Foot} {a s : State} (h : a.Only g s) (k4 : Bool) (closed : Bool)
    (hF : Foot.le ⟨[.hv, .aon, .mon, .chg, .loopReq], [0x10, 0x30, 0x31, 0x32, 0x33, 0x50], false⟩ g = true) :
    OutOnly g a (execKFeedback k4 closed s) := by
  unfold execKFeedback
  repeat' (first | with_reducible assumption | ((with_reducible refine Foot.le_trans ?_ hF); decide) | ((with_reducible refine Foot.has_of_le hF ?_); (first | decide | (dsimp only; decide))) | ((with_reducible refine Foot.parts_of_le hF ?_); decide) | (exact ⟨by decide, by decide⟩) | lift_lets -underBinder | (intro x; have hx : a.Only g x := (by repeat' (first | with_reducible assumption | ((with_reducible refine Foot.le_trans ?_ hF); decide) | ((with_reducible refine Foot.has_of_le hF ?_); (first | decide | (dsimp only; decide))) | ((with_reducible refine Foot.parts_of_le hF ?_); decide) | (exact ⟨by decide, by decide⟩) | lift_lets -underBinder | (with_reducible first | apply State.Only.ite | apply State.Only.both | apply State.Only.bump | apply State.Only.done | apply State.Only.pulseEv | apply State.asHolder_only | apply State.chgFault_only | apply State.setKfb_only) | (first | split | (dsimp only [x]; split)) | (intro _))); clear_value x) | (intro x; clear_value x) | (with_reducible first | apply State.Only.ite | apply State.Only.both | apply State.Only.bump | apply State.Only.done | apply State.Only.pulseEv | apply State.asHolder_only | apply State.chgFault_only | apply State.setKfb_only) | split | (intro _))

theorem State.chgTrip_only {g : Foot} {a s : State} (h : a.Only g s) (l : Lane) (cause : Nat) (code : Nat) (e : Ev) (he : State.EvOnly.Proper e)
    (hF : Foot.le ⟨[.chg], [0x31, 0x32, 0x33], false⟩ g = true) :
    a.Only g (State.chgTrip s l cause code e) := by
  unfold State.chgTrip
  repeat' (first | with_reducible assumption | ((with_reducible refine Foot.le_trans ?_ hF); decide) | ((with_reducible refine Foot.has_of_le hF ?_); (first | decide | (dsimp only; decide))) | ((with_reducible refine Foot.parts_of_le hF ?_); decide) | lift_lets -underBinder | (intro x; have hx : a.Only g x := (by repeat' (first | with_reducible assumption | ((with_reducible refine Foot.le_trans ?_ hF); decide) | ((with_reducible refine Foot.has_of_le hF ?_); (first | decide | (dsimp only; decide))) | ((with_reducible refine Foot.parts_of_le hF ?_); decide) | lift_lets -underBinder | (with_reducible first | apply State.Only.bump | apply State.Only.pulseEv | apply State.Only.put | apply State.chgRampdown_only) | (intro _))); clear_value x) | (intro x; clear_value x) | (with_reducible first | apply State.Only.bump | apply State.Only.pulseEv | apply State.Only.put | apply State.chgRampdown_only) | (intro _))

theorem execGridDip_only {g : Foot} {a s : State} (h : a.Only g s) (l : Lane) (retained : Nat)
    (hF : Foot.le ⟨[.hv, .chg], [0x31, 0x32, 0x33], false⟩ g = true) :
    OutOnly g a (execGridDip l retained s) := by
  unfold execGridDip
  repeat' (first | with_reducible assumption | ((with_reducible refine Foot.le_trans ?_ hF); decide) | ((with_reducible refine Foot.has_of_le hF ?_); (first | decide | (dsimp only; decide))) | ((with_reducible refine Foot.parts_of_le hF ?_); decide) | (exact ⟨by decide, by decide⟩) | lift_lets -underBinder | (intro x; have hx : a.Only g x := (by repeat' (first | with_reducible assumption | ((with_reducible refine Foot.le_trans ?_ hF); decide) | ((with_reducible refine Foot.has_of_le hF ?_); (first | decide | (dsimp only; decide))) | ((with_reducible refine Foot.parts_of_le hF ?_); decide) | (exact ⟨by decide, by decide⟩) | lift_lets -underBinder | (with_reducible first | apply State.Only.ite | apply State.Only.bump | apply State.Only.chg | apply State.Only.done | apply State.Only.pulseEv | apply State.Only.put | apply State.chgTrip_only | apply State.gatesOff_only) | (first | split | (dsimp only [x]; split)) | (intro _))); clear_value x) | (intro x; clear_value x) | (with_reducible first | apply State.Only.ite | apply State.Only.bump | apply State.Only.chg | apply State.Only.done | apply State.Only.pulseEv | apply State.Only.put | apply State.chgTrip_only | apply State.gatesOff_only) | split | (intro _))

theorem execGridTrip_only {g : Foot} {a s : State} (h : a.Only g s) (l : Lane) (t : GridTrip)
    (hF : Foot.le ⟨[.chg], [0x31, 0x32, 0x33], false⟩ g = true) :
    OutOnly g a (execGridTrip l t s) := by
  unfold execGridTrip
  repeat' (first | with_reducible assumption | ((with_reducible refine Foot.le_trans ?_ hF); decide) | ((with_reducible refine Foot.has_of_le hF ?_); (first | decide | (dsimp only; decide))) | ((with_reducible refine Foot.parts_of_le hF ?_); decide) | (exact ⟨by decide, by decide⟩) | lift_lets -underBinder | (intro x; have hx : a.Only g x := (by repeat' (first | with_reducible assumption | ((with_reducible refine Foot.le_trans ?_ hF); decide) | ((with_reducible refine Foot.has_of_le hF ?_); (first | decide | (dsimp only; decide))) | ((with_reducible refine Foot.parts_of_le hF ?_); decide) | (exact ⟨by decide, by decide⟩) | lift_lets -underBinder | (with_reducible first | apply State.Only.ite | apply State.Only.done | apply State.chgTrip_only) | (first | split | (dsimp only [x]; split)) | (intro _))); clear_value x) | (intro x; clear_value x) | (with_reducible first | apply State.Only.ite | apply State.Only.done | apply State.chgTrip_only) | split | (intro _))

theorem execGridRestart_only {g : Foot} {a s : State} (h : a.Only g s) (l : Lane)
    (hF : Foot.le ⟨[.aon, .chg], [0x33], false⟩ g = true) :
    OutOnly g a (execGridRestart l s) := by
  unfold execGridRestart
  repeat' (first | with_reducible assumption | ((with_reducible refine Foot.le_trans ?_ hF); decide) | ((with_reducible refine Foot.has_of_le hF ?_); (first | decide | (dsimp only; decide))) | ((with_reducible refine Foot.parts_of_le hF ?_); decide) | lift_lets -underBinder | (intro x; have hx : a.Only g x := (by repeat' (first | with_reducible assumption | ((with_reducible refine Foot.le_trans ?_ hF); decide) | ((with_reducible refine Foot.has_of_le hF ?_); (first | decide | (dsimp only; decide))) | ((with_reducible refine Foot.parts_of_le hF ?_); decide) | lift_lets -underBinder | (with_reducible first | apply State.Only.ite | apply State.Only.done | apply State.chgReady_only) | (first | split | (dsimp only [x]; split)) | (intro _))); clear_value x) | (intro x; clear_value x) | (with_reducible first | apply State.Only.ite | apply State.Only.done | apply State.chgReady_only) | split | (intro _))

theorem execIsland_only {g : Foot} {a s : State} (h : a.Only g s) (l : Lane) (jump : Bool)
    (hF : Foot.le ⟨[.chg], [0x31, 0x32, 0x33], false⟩ g = true) :
    OutOnly g a (execIsland l jump s) := by
  unfold execIsland
  repeat' (first | with_reducible assumption | ((with_reducible refine Foot.le_trans ?_ hF); decide) | ((with_reducible refine Foot.has_of_le hF ?_); (first | decide | (dsimp only; decide))) | ((with_reducible refine Foot.parts_of_le hF ?_); decide) | (exact ⟨by decide, by decide⟩) | (with_reducible first | apply State.Only.ite | apply State.Only.done | apply State.chgTrip_only) | split | (intro _))

theorem execV2l_only {g : Foot} {a s : State} (h : a.Only g s) (l : Lane)
    (hF : Foot.le ⟨[.hv, .aon, .mon, .chg, .loopReq], [0x10, 0x30, 0x31, 0x32, 0x33, 0x50], false⟩ g = true) :
    OutOnly g a (execV2l l s) := by
  unfold execV2l
  repeat' (first | with_reducible assumption | ((with_reducible refine Foot.le_trans ?_ hF); decide) | ((with_reducible refine Foot.has_of_le hF ?_); (first | decide | (dsimp only; decide))) | ((with_reducible refine Foot.parts_of_le hF ?_); decide) | (exact ⟨by decide, by decide⟩) | (with_reducible first | apply State.Only.ite | apply State.Only.done | apply State.Only.pulseEv | apply State.chgFault_only) | split | (intro _))

theorem execS2HoldTimeout_only {g : Foot} {a s : State} (h : a.Only g s)
    (hF : Foot.le ⟨[.aon], [], false⟩ g = true) :
    OutOnly g a (execS2HoldTimeout s) := by
  unfold execS2HoldTimeout
  repeat' (first | with_reducible assumption | ((with_reducible refine Foot.le_trans ?_ hF); decide) | ((with_reducible refine Foot.has_of_le hF ?_); (first | decide | (dsimp only; decide))) | ((with_reducible refine Foot.parts_of_le hF ?_); decide) | (with_reducible first | apply State.Only.ite | apply State.Only.aon | apply State.Only.done) | split | (intro _))

theorem State.chgClrFault_only {g : Foot} {a s : State} (h : a.Only g s) (l : Lane)
    (hF : Foot.le ⟨[], [0x33], false⟩ g = true) :
    a.Only g (State.chgClrFault s l) := by
  unfold State.chgClrFault
  repeat' (first | with_reducible assumption | ((with_reducible refine Foot.le_trans ?_ hF); decide) | ((with_reducible refine Foot.has_of_le hF ?_); (first | decide | (dsimp only; decide))) | ((with_reducible refine Foot.parts_of_le hF ?_); decide) | (with_reducible first | apply State.Only.ite | apply State.Only.put) | (intro _))

theorem State.clrChgCnt_only {g : Foot} {a s : State} (h : a.Only g s) (l : Lane)
    (hF : Foot.le ⟨[], [0x33], false⟩ g = true) :
    a.Only g (State.clrChgCnt s l) := by
  unfold State.clrChgCnt
  repeat' (first | with_reducible assumption | ((with_reducible refine Foot.le_trans ?_ hF); decide) | ((with_reducible refine Foot.has_of_le hF ?_); (first | decide | (dsimp only; decide))) | ((with_reducible refine Foot.parts_of_le hF ?_); decide) | (with_reducible first | apply State.Only.putWord) | (intro _))

theorem State.clrAfeCnt_only {g : Foot} {a s : State} (h : a.Only g s) (l : Lane)
    (hF : Foot.le ⟨[], [0x31], false⟩ g = true) :
    a.Only g (State.clrAfeCnt s l) := by
  unfold State.clrAfeCnt
  repeat' (first | with_reducible assumption | ((with_reducible refine Foot.le_trans ?_ hF); decide) | ((with_reducible refine Foot.has_of_le hF ?_); (first | decide | (dsimp only; decide))) | ((with_reducible refine Foot.parts_of_le hF ?_); decide) | (with_reducible first | apply State.Only.putWord) | (intro _))

theorem State.clrDabCnt_only {g : Foot} {a s : State} (h : a.Only g s) (l : Lane)
    (hF : Foot.le ⟨[], [0x32], false⟩ g = true) :
    a.Only g (State.clrDabCnt s l) := by
  unfold State.clrDabCnt
  repeat' (first | with_reducible assumption | ((with_reducible refine Foot.le_trans ?_ hF); decide) | ((with_reducible refine Foot.has_of_le hF ?_); (first | decide | (dsimp only; decide))) | ((with_reducible refine Foot.parts_of_le hF ?_); decide) | (with_reducible first | apply State.Only.putWord) | (intro _))

theorem State.chgShow_only {g : Foot} {a s : State} (h : a.Only g s) (l : Lane) (g' : GridMeas)
    (hF : Foot.le ⟨[.chg], [0x31, 0x32, 0x33], false⟩ g = true) :
    a.Only g (State.chgShow s l g') := by
  unfold State.chgShow
  repeat' (first | with_reducible assumption | ((with_reducible refine Foot.le_trans ?_ hF); decide) | ((with_reducible refine Foot.has_of_le hF ?_); (first | decide | (dsimp only; decide))) | ((with_reducible refine Foot.parts_of_le hF ?_); decide) | lift_lets -underBinder | (intro x; have hx : a.Only g x := (by repeat' (first | with_reducible assumption | ((with_reducible refine Foot.le_trans ?_ hF); decide) | ((with_reducible refine Foot.has_of_le hF ?_); (first | decide | (dsimp only; decide))) | ((with_reducible refine Foot.parts_of_le hF ?_); decide) | lift_lets -underBinder | (with_reducible first | apply State.Only.ite | apply State.Only.bump | apply State.Only.chg | apply State.Only.put | apply State.Only.putFlag | apply State.Only.putWord) | (first | split | (dsimp only [x]; split)) | (intro _))); clear_value x) | (intro x; clear_value x) | (with_reducible first | apply State.Only.ite | apply State.Only.bump | apply State.Only.chg | apply State.Only.put | apply State.Only.putFlag | apply State.Only.putWord) | split | (intro _))

theorem State.ibatForm_only {g : Foot} {a s : State} (h : a.Only g s) (l : Lane) (t : Word)
    (hF : Foot.le ⟨[.chg], [0x33], false⟩ g = true) :
    a.Only g (State.ibatForm s l t) := by
  unfold State.ibatForm
  repeat' (first | with_reducible assumption | ((with_reducible refine Foot.le_trans ?_ hF); decide) | ((with_reducible refine Foot.has_of_le hF ?_); (first | decide | (dsimp only; decide))) | ((with_reducible refine Foot.parts_of_le hF ?_); decide) | lift_lets -underBinder | (intro x; have hx : a.Only g x := (by repeat' (first | with_reducible assumption | ((with_reducible refine Foot.le_trans ?_ hF); decide) | ((with_reducible refine Foot.has_of_le hF ?_); (first | decide | (dsimp only; decide))) | ((with_reducible refine Foot.parts_of_le hF ?_); decide) | lift_lets -underBinder | (with_reducible first | apply State.Only.ite | apply State.Only.chg | apply State.Only.putFlag) | (intro _))); clear_value x) | (intro x; clear_value x) | (with_reducible first | apply State.Only.ite | apply State.Only.chg | apply State.Only.putFlag) | (intro _))

theorem State.ibatDown_only {g : Foot} {a s : State} (h : a.Only g s) (l : Lane) (t : Word)
    (hF : Foot.le ⟨[.chg], [0x30], false⟩ g = true) :
    a.Only g (State.ibatDown s l t) := by
  unfold State.ibatDown
  repeat' (first | with_reducible assumption | ((with_reducible refine Foot.le_trans ?_ hF); decide) | ((with_reducible refine Foot.has_of_le hF ?_); (first | decide | (dsimp only; decide))) | ((with_reducible refine Foot.parts_of_le hF ?_); decide) | lift_lets -underBinder | (intro x; have hx : a.Only g x := (by repeat' (first | with_reducible assumption | ((with_reducible refine Foot.le_trans ?_ hF); decide) | ((with_reducible refine Foot.has_of_le hF ?_); (first | decide | (dsimp only; decide))) | ((with_reducible refine Foot.parts_of_le hF ?_); decide) | lift_lets -underBinder | (with_reducible first | apply State.Only.ite | apply State.Only.chg | apply State.setReg_only) | (first | split | (dsimp only [x]; split)) | (intro _))); clear_value x) | (intro x; clear_value x) | (with_reducible first | apply State.Only.ite | apply State.Only.chg | apply State.setReg_only) | split | (intro _))

theorem State.chgMedium_only {g : Foot} {a s : State} (h : a.Only g s) (l : Lane) (g' : GridMeas)
    (hF : Foot.le ⟨[.hv, .aon, .mon, .chg, .loopReq], [0x10, 0x30, 0x31, 0x32, 0x33, 0x50], false⟩ g = true) :
    a.Only g (State.chgMedium s l g') := by
  unfold State.chgMedium
  repeat' (first | with_reducible assumption | ((with_reducible refine Foot.le_trans ?_ hF); decide) | ((with_reducible refine Foot.has_of_le hF ?_); (first | decide | (dsimp only; decide))) | ((with_reducible refine Foot.parts_of_le hF ?_); decide) | (exact ⟨by decide, by decide⟩) | lift_lets -underBinder | (intro x; have hx : a.Only g x := (by repeat' (first | with_reducible assumption | ((with_reducible refine Foot.le_trans ?_ hF); decide) | ((with_reducible refine Foot.has_of_le hF ?_); (first | decide | (dsimp only; decide))) | ((with_reducible refine Foot.parts_of_le hF ?_); decide) | (exact ⟨by decide, by decide⟩) | lift_lets -underBinder | (with_reducible first | apply State.Only.ite | apply State.Only.chg | apply State.Only.levelEv | apply State.Only.put | apply State.chgFault_only | apply State.chgLeave_only | apply State.chgPreload_only | apply State.chgRampdown_only | apply State.chgReady_only | apply State.chgShow_only | apply State.driveS2_only | apply State.ibatDown_only | apply State.ibatForm_only) | (first | split | (dsimp only [x]; split)) | (intro _))); clear_value x) | (intro x; clear_value x) | (with_reducible first | apply State.Only.ite | apply State.Only.chg | apply State.Only.levelEv | apply State.Only.put | apply State.chgFault_only | apply State.chgLeave_only | apply State.chgPreload_only | apply State.chgRampdown_only | apply State.chgReady_only | apply State.chgShow_only | apply State.driveS2_only | apply State.ibatDown_only | apply State.ibatForm_only) | split | (intro _))

theorem State.setPgAfe_only {g : Foot} {a s : State} (h : a.Only g s) (on : Bool)
    (hF : Foot.le ⟨[.aon], [0x80], false⟩ g = true) :
    a.Only g (State.setPgAfe s on) := by
  unfold State.setPgAfe
  repeat' (first | with_reducible assumption | ((with_reducible refine Foot.le_trans ?_ hF); decide) | ((with_reducible refine Foot.has_of_le hF ?_); (first | decide | (dsimp only; decide))) | ((with_reducible refine Foot.parts_of_le hF ?_); decide) | (exact ⟨by decide, by decide⟩) | (with_reducible first | apply State.Only.ite | apply State.Only.aon | apply State.Only.monEv | apply State.Only.mputFlag) | (intro _))

theorem State.setPgDab_only {g : Foot} {a s : State} (h : a.Only g s) (on : Bool)
    (hF : Foot.le ⟨[.aon], [0x80], false⟩ g = true) :
    a.Only g (State.setPgDab s on) := by
  unfold State.setPgDab
  repeat' (first | with_reducible assumption | ((with_reducible refine Foot.le_trans ?_ hF); decide) | ((with_reducible refine Foot.has_of_le hF ?_); (first | decide | (dsimp only; decide))) | ((with_reducible refine Foot.parts_of_le hF ?_); decide) | (exact ⟨by decide, by decide⟩) | (with_reducible first | apply State.Only.ite | apply State.Only.aon | apply State.Only.monEv | apply State.Only.mputFlag) | (intro _))

theorem execPgChgRelease_only {g : Foot} {a s : State} (h : a.Only g s) (dab : Bool)
    (hF : Foot.le ⟨[.aon], [0x80], false⟩ g = true) :
    OutOnly g a (execPgChgRelease dab s) := by
  unfold execPgChgRelease
  repeat' (first | with_reducible assumption | ((with_reducible refine Foot.le_trans ?_ hF); decide) | ((with_reducible refine Foot.has_of_le hF ?_); (first | decide | (dsimp only; decide))) | ((with_reducible refine Foot.parts_of_le hF ?_); decide) | (with_reducible first | apply State.Only.ite | apply State.Only.done | apply State.setPgAfe_only | apply State.setPgDab_only) | split | (intro _))

theorem State.pgCheck_only {g : Foot} {a s : State} (h : a.Only g s)
    (hF : Foot.le ⟨[.aon], [0x80], false⟩ g = true) :
    a.Only g (State.pgCheck s) := by
  unfold State.pgCheck
  repeat' (first | with_reducible assumption | ((with_reducible refine Foot.le_trans ?_ hF); decide) | ((with_reducible refine Foot.has_of_le hF ?_); (first | decide | (dsimp only; decide))) | ((with_reducible refine Foot.parts_of_le hF ?_); decide) | lift_lets -underBinder | (intro x; have hx : a.Only g x := (by repeat' (first | with_reducible assumption | ((with_reducible refine Foot.le_trans ?_ hF); decide) | ((with_reducible refine Foot.has_of_le hF ?_); (first | decide | (dsimp only; decide))) | ((with_reducible refine Foot.parts_of_le hF ?_); decide) | lift_lets -underBinder | (with_reducible first | apply State.Only.ite | apply State.setPgAfe_only | apply State.setPgDab_only | apply State.setPgDcl_only) | (intro _))); clear_value x) | (intro x; clear_value x) | (with_reducible first | apply State.Only.ite | apply State.setPgAfe_only | apply State.setPgDab_only | apply State.setPgDcl_only) | (intro _))

end Sys2Proof.Machine
end

