-- ==== Sys2Proof/Laws/Only/Actuator.lean ====
section
/-! SUPPORT. What the operations of Actuator may change. -/
namespace Sys2Proof.Machine
set_option linter.all false
set_option Elab.async false

theorem State.setActPos_only {g : Foot} {a s : State} (h : a.Only g s) (l : Lane) (a' : Fin 2) (v : Int)
    (hF : Foot.le ⟨[], [0x34], false⟩ g = true) :
    a.Only g (State.setActPos s l a' v) := by
  unfold State.setActPos
  repeat' (first | with_reducible assumption | ((with_reducible refine Foot.le_trans ?_ hF); decide) | ((with_reducible refine Foot.has_of_le hF ?_); (first | (simp (disch := first | omega | decide) only [F.ACT_POS_POS_has]; done) | decide | (dsimp only; decide))) | ((with_reducible refine Foot.parts_of_le hF ?_); decide) | (with_reducible first | apply State.Only.put) | (intro _))

theorem State.actBegin_only {g : Foot} {a s : State} (h : a.Only g s) (l : Lane) (a' : Fin 2) (st : Nat)
    (hF : Foot.le ⟨[.hv, .lv, .sns, .aon, .mon, .red, .saf, .cls, .trc, .smp, .dcl, .chg, .act, .loopReq], [0x10, 0x11, 0x22, 0x30, 0x31, 0x32, 0x33, 0x34, 0x50, 0x51, 0x80], false⟩ g = true) :
    a.Only g (State.actBegin s l a' st) := by
  unfold State.actBegin
  repeat' (first | with_reducible assumption | ((with_reducible refine Foot.le_trans ?_ hF); decide) | ((with_reducible refine Foot.has_of_le hF ?_); (first | (simp (disch := first | omega | decide) only [F.ACT_STAT_LOCKED_has, F.ACT_STAT_DONE_has, F.ACT_STAT_STATE_has]; done) | decide | (dsimp only; decide))) | ((with_reducible refine Foot.parts_of_le hF ?_); decide) | lift_lets -underBinder | (intro x; have hx : a.Only g x := (by repeat' (first | with_reducible assumption | ((with_reducible refine Foot.le_trans ?_ hF); decide) | ((with_reducible refine Foot.has_of_le hF ?_); (first | (simp (disch := first | omega | decide) only [F.ACT_STAT_LOCKED_has, F.ACT_STAT_DONE_has, F.ACT_STAT_STATE_has]; done) | decide | (dsimp only; decide))) | ((with_reducible refine Foot.parts_of_le hF ?_); decide) | lift_lets -underBinder | (with_reducible first | apply State.Only.act | apply State.Only.put | apply State.Only.putFlag | apply State.loopAsk_only) | (intro _))); clear_value x) | (intro x; clear_value x) | (with_reducible first | apply State.Only.act | apply State.Only.put | apply State.Only.putFlag | apply State.loopAsk_only) | (intro _))

theorem State.actCmd_only {g : Foot} {a s : State} (h : a.Only g s) (l : Lane) (a' : Fin 2) (c : Nat)
    (hF : Foot.le ⟨[.hv, .lv, .sns, .aon, .mon, .red, .saf, .cls, .trc, .smp, .dcl, .chg, .act, .loopReq], [0x10, 0x11, 0x22, 0x30, 0x31, 0x32, 0x33, 0x34, 0x50, 0x51, 0x80], false⟩ g = true) :
    OptOnly g a (State.actCmd s l a' c) := by
  unfold State.actCmd
  repeat' (first | with_reducible assumption | ((with_reducible refine Foot.le_trans ?_ hF); decide) | ((with_reducible refine Foot.has_of_le hF ?_); (first | (simp (disch := first | omega | decide) only [F.ACT_STAT_STATE_has, F.ACT_STAT_REF_has, F.ACT_END_TRAVEL_has, F.ACT_STAT_LOCKED_has, F.ACT_STAT_CAUSE_has]; done) | decide | (dsimp only; decide))) | ((with_reducible refine Foot.parts_of_le hF ?_); decide) | lift_lets -underBinder | (intro x; have hx : a.Only g x := (by repeat' (first | with_reducible assumption | ((with_reducible refine Foot.le_trans ?_ hF); decide) | ((with_reducible refine Foot.has_of_le hF ?_); (first | (simp (disch := first | omega | decide) only [F.ACT_STAT_STATE_has, F.ACT_STAT_REF_has, F.ACT_END_TRAVEL_has, F.ACT_STAT_LOCKED_has, F.ACT_STAT_CAUSE_has]; done) | decide | (dsimp only; decide))) | ((with_reducible refine Foot.parts_of_le hF ?_); decide) | lift_lets -underBinder | (with_reducible first | apply State.Only.ite | apply State.Only.put | apply State.Only.putFlag | apply State.actBegin_only | apply State.actBrake_only | apply State.actIdle_only | apply State.Only.optSome | apply State.Only.optNone) | (first | split | (dsimp only [x]; split)) | (intro _))); clear_value x) | (intro x; clear_value x) | (with_reducible first | apply State.Only.ite | apply State.Only.put | apply State.Only.putFlag | apply State.actBegin_only | apply State.actBrake_only | apply State.actIdle_only | apply State.Only.optSome | apply State.Only.optNone) | split | (intro _))

theorem State.actCmd_only_some {g : Foot} {a s t : State} {l : Lane} {a0 : Fin 2} {c : Nat}
    (e : State.actCmd s l a0 c = some t) (h : a.Only g s) (hF : Foot.le ⟨[.hv, .lv, .sns, .aon, .mon, .red, .saf, .cls, .trc, .smp, .dcl, .chg, .act, .loopReq], [0x10, 0x11, 0x22, 0x30, 0x31, 0x32, 0x33, 0x34, 0x50, 0x51, 0x80], false⟩ g = true) : a.Only g t := State.actCmd_only h _ _ _ hF t e

theorem State.clrActCnt_only {g : Foot} {a s : State} (h : a.Only g s) (l : Lane) (a' : Fin 2)
    (hF : Foot.le ⟨[], [0x34], false⟩ g = true) :
    a.Only g (State.clrActCnt s l a') := by
  unfold State.clrActCnt
  repeat' (first | with_reducible assumption | ((with_reducible refine Foot.le_trans ?_ hF); decide) | ((with_reducible refine Foot.has_of_le hF ?_); (first | (simp (disch := first | omega | decide) only [F.ACT_CNT_LOCK_has]; done) | decide | (dsimp only; decide))) | ((with_reducible refine Foot.parts_of_le hF ?_); decide) | (with_reducible first | apply State.Only.putWord) | (intro _))

theorem State.actHallFault_only {g : Foot} {a s : State} (h : a.Only g s) (l : Lane) (a' : Fin 2)
    (hF : Foot.le ⟨[.lv, .free, .act, .loopReq], [0x10, 0x34], false⟩ g = true) :
    a.Only g (State.actHallFault s l a') := by
  unfold State.actHallFault
  repeat' (first | with_reducible assumption | ((with_reducible refine Foot.le_trans ?_ hF); decide) | ((with_reducible refine Foot.has_of_le hF ?_); (first | (simp (disch := first | omega | decide) only [F.ACT_STAT_SECTOR_has, F.ACT_CNT_HALL_has, F.ACT_CFG_HALL_N_has, F.ACT_STAT_STATE_has]; done) | decide | (dsimp only; decide))) | ((with_reducible refine Foot.parts_of_le hF ?_); decide) | (exact ⟨by decide, by decide⟩) | lift_lets -underBinder | (intro x; have hx : a.Only g x := (by repeat' (first | with_reducible assumption | ((with_reducible refine Foot.le_trans ?_ hF); decide) | ((with_reducible refine Foot.has_of_le hF ?_); (first | (simp (disch := first | omega | decide) only [F.ACT_STAT_SECTOR_has, F.ACT_CNT_HALL_has, F.ACT_CFG_HALL_N_has, F.ACT_STAT_STATE_has]; done) | decide | (dsimp only; decide))) | ((with_reducible refine Foot.parts_of_le hF ?_); decide) | (exact ⟨by decide, by decide⟩) | lift_lets -underBinder | (with_reducible first | apply State.Only.ite | apply State.Only.act | apply State.Only.bump | apply State.Only.fresh | apply State.Only.pulseEv | apply State.Only.put | apply State.actFault_only | apply State.bridgeOff_only) | (intro _))); clear_value x) | (intro x; clear_value x) | (with_reducible first | apply State.Only.ite | apply State.Only.act | apply State.Only.bump | apply State.Only.fresh | apply State.Only.pulseEv | apply State.Only.put | apply State.actFault_only | apply State.bridgeOff_only) | (intro _))

theorem execActHallStep_only {g : Foot} {a s : State} (h : a.Only g s) (l : Lane) (a' : Fin 2) (h' : BitVec 3)
    (hF : Foot.le ⟨[.lv, .free, .act, .loopReq], [0x10, 0x34], false⟩ g = true) :
    OutOnly g a (execActHallStep l a' h' s) := by
  unfold execActHallStep
  repeat' (first | with_reducible assumption | ((with_reducible refine Foot.le_trans ?_ hF); decide) | ((with_reducible refine Foot.has_of_le hF ?_); (first | (simp (disch := first | omega | decide) only [F.ACT_CFG_SEQ_has, F.ACT_STAT_SECTOR_has, F.ACT_CFG_SECT_OFS_has]; done) | decide | (dsimp only; decide))) | ((with_reducible refine Foot.parts_of_le hF ?_); decide) | lift_lets -underBinder | (intro x; have hx : a.Only g x := (by repeat' (first | with_reducible assumption | ((with_reducible refine Foot.le_trans ?_ hF); decide) | ((with_reducible refine Foot.has_of_le hF ?_); (first | (simp (disch := first | omega | decide) only [F.ACT_CFG_SEQ_has, F.ACT_STAT_SECTOR_has, F.ACT_CFG_SECT_OFS_has]; done) | decide | (dsimp only; decide))) | ((with_reducible refine Foot.parts_of_le hF ?_); decide) | lift_lets -underBinder | (with_reducible first | apply State.Only.ite | apply State.Only.act | apply State.Only.done | apply State.Only.put | apply State.actHallFault_only | apply State.setActPos_only) | (first | split | (dsimp only [x]; split)) | (intro _))); clear_value x) | (intro x; dsimp -zeta only [x]; clear x) | (intro x; clear_value x) | (with_reducible first | apply State.Only.ite | apply State.Only.act | apply State.Only.done | apply State.Only.put | apply State.actHallFault_only | apply State.setActPos_only) | split | (intro _))

theorem State.actEnd_only {g : Foot} {a s : State} (h : a.Only g s) (l : Lane) (a' : Fin 2) (pos : Nat)
    (hF : Foot.le ⟨[.lv, .loopReq], [0x34], false⟩ g = true) :
    a.Only g (State.actEnd s l a' pos) := by
  unfold State.actEnd
  repeat' (first | with_reducible assumption | ((with_reducible refine Foot.le_trans ?_ hF); decide) | ((with_reducible refine Foot.has_of_le hF ?_); (first | (simp (disch := first | omega | decide) only [F.ACT_STAT_STATE_has, F.ACT_STAT_REF_has, F.ACT_TGT_TARGET_has, F.ACT_STAT_DONE_has]; done) | decide | (dsimp only; decide))) | ((with_reducible refine Foot.parts_of_le hF ?_); decide) | (exact ⟨by decide, by decide⟩) | lift_lets -underBinder | (intro x; have hx : a.Only g x := (by repeat' (first | with_reducible assumption | ((with_reducible refine Foot.le_trans ?_ hF); decide) | ((with_reducible refine Foot.has_of_le hF ?_); (first | (simp (disch := first | omega | decide) only [F.ACT_STAT_STATE_has, F.ACT_STAT_REF_has, F.ACT_TGT_TARGET_has, F.ACT_STAT_DONE_has]; done) | decide | (dsimp only; decide))) | ((with_reducible refine Foot.parts_of_le hF ?_); decide) | (exact ⟨by decide, by decide⟩) | lift_lets -underBinder | (with_reducible first | apply State.Only.ite | apply State.Only.pulseEv | apply State.Only.putFlag | apply State.actBrake_only | apply State.setActPos_only) | (intro _))); clear_value x) | (intro x; clear_value x) | (with_reducible first | apply State.Only.ite | apply State.Only.pulseEv | apply State.Only.putFlag | apply State.actBrake_only | apply State.setActPos_only) | (intro _))

theorem State.actLearned_only {g : Foot} {a s : State} (h : a.Only g s) (l : Lane) (a' : Fin 2)
    (hF : Foot.le ⟨[.lv, .loopReq], [0x10, 0x34], false⟩ g = true) :
    a.Only g (State.actLearned s l a') := by
  unfold State.actLearned
  repeat' (first | with_reducible assumption | ((with_reducible refine Foot.le_trans ?_ hF); decide) | ((with_reducible refine Foot.has_of_le hF ?_); (first | (simp (disch := first | omega | decide) only [F.ACT_TRAVEL_TRAVEL_MIN_has, F.ACT_TRAVEL_TRAVEL_MAX_has, F.ACT_END_TRAVEL_has, F.ACT_STAT_REF_has]; done) | decide | (dsimp only; decide))) | ((with_reducible refine Foot.parts_of_le hF ?_); decide) | (exact ⟨by decide, by decide⟩) | lift_lets -underBinder | (intro x; have hx : a.Only g x := (by repeat' (first | with_reducible assumption | ((with_reducible refine Foot.le_trans ?_ hF); decide) | ((with_reducible refine Foot.has_of_le hF ?_); (first | (simp (disch := first | omega | decide) only [F.ACT_TRAVEL_TRAVEL_MIN_has, F.ACT_TRAVEL_TRAVEL_MAX_has, F.ACT_END_TRAVEL_has, F.ACT_STAT_REF_has]; done) | decide | (dsimp only; decide))) | ((with_reducible refine Foot.parts_of_le hF ?_); decide) | (exact ⟨by decide, by decide⟩) | lift_lets -underBinder | (with_reducible first | apply State.Only.ite | apply State.Only.pulseEv | apply State.Only.put | apply State.Only.putFlag | apply State.actBrake_only | apply State.actFault_only) | (intro _))); clear_value x) | (intro x; clear_value x) | (with_reducible first | apply State.Only.ite | apply State.Only.pulseEv | apply State.Only.put | apply State.Only.putFlag | apply State.actBrake_only | apply State.actFault_only) | (intro _))

theorem execLockedRotor_only {g : Foot} {a s : State} (h : a.Only g s) (l : Lane) (a' : Fin 2)
    (hF : Foot.le ⟨[.lv, .loopReq], [0x10, 0x34], false⟩ g = true) :
    OutOnly g a (execLockedRotor l a' s) := by
  unfold execLockedRotor
  repeat' (first | with_reducible assumption | ((with_reducible refine Foot.le_trans ?_ hF); decide) | ((with_reducible refine Foot.has_of_le hF ?_); (first | (simp (disch := first | omega | decide) only [F.ACT_STAT_STATE_has, F.ACT_MOVE_END_WIN_has, F.ACT_END_TRAVEL_has, F.ACT_STAT_LOCKED_has, F.ACT_CNT_LOCK_has]; done) | decide | (dsimp only; decide))) | ((with_reducible refine Foot.parts_of_le hF ?_); decide) | (exact ⟨by decide, by decide⟩) | lift_lets -underBinder | (intro x; have hx : a.Only g x := (by repeat' (first | with_reducible assumption | ((with_reducible refine Foot.le_trans ?_ hF); decide) | ((with_reducible refine Foot.has_of_le hF ?_); (first | (simp (disch := first | omega | decide) only [F.ACT_STAT_STATE_has, F.ACT_MOVE_END_WIN_has, F.ACT_END_TRAVEL_has, F.ACT_STAT_LOCKED_has, F.ACT_CNT_LOCK_has]; done) | decide | (dsimp only; decide))) | ((with_reducible refine Foot.parts_of_le hF ?_); decide) | (exact ⟨by decide, by decide⟩) | lift_lets -underBinder | (with_reducible first | apply State.Only.ite | apply State.Only.bump | apply State.Only.done | apply State.Only.pulseEv | apply State.Only.put | apply State.Only.putFlag | apply State.actEnd_only | apply State.actFault_only | apply State.actLearned_only | apply State.setActPos_only) | (first | split | (dsimp only [x]; split)) | (intro _))); clear_value x) | (intro x; clear_value x) | (with_reducible first | apply State.Only.ite | apply State.Only.bump | apply State.Only.done | apply State.Only.pulseEv | apply State.Only.put | apply State.Only.putFlag | apply State.actEnd_only | apply State.actFault_only | apply State.actLearned_only | apply State.setActPos_only) | split | (intro _))

theorem execHoldTExpiry_only {g : Foot} {a s : State} (h : a.Only g s) (l : Lane) (a' : Fin 2)
    (hF : Foot.le ⟨[.lv, .loopReq], [0x10, 0x34], false⟩ g = true) :
    OutOnly g a (execHoldTExpiry l a' s) := by
  unfold execHoldTExpiry
  repeat' (first | with_reducible assumption | ((with_reducible refine Foot.le_trans ?_ hF); decide) | ((with_reducible refine Foot.has_of_le hF ?_); (first | (simp (disch := first | omega | decide) only [F.ACT_STAT_STATE_has]; done) | decide | (dsimp only; decide))) | ((with_reducible refine Foot.parts_of_le hF ?_); decide) | (with_reducible first | apply State.Only.ite | apply State.Only.done | apply State.actIdle_only) | split | (intro _))

theorem execMoveDone_only {g : Foot} {a s : State} (h : a.Only g s) (l : Lane) (a' : Fin 2)
    (hF : Foot.le ⟨[.lv, .loopReq], [0x34], false⟩ g = true) :
    OutOnly g a (execMoveDone l a' s) := by
  unfold execMoveDone
  repeat' (first | with_reducible assumption | ((with_reducible refine Foot.le_trans ?_ hF); decide) | ((with_reducible refine Foot.has_of_le hF ?_); (first | (simp (disch := first | omega | decide) only [F.ACT_TGT_TARGET_has, F.ACT_STAT_STATE_has, F.ACT_MOVE_POS_WIN_has, F.ACT_STAT_DONE_has]; done) | decide | (dsimp only; decide))) | ((with_reducible refine Foot.parts_of_le hF ?_); decide) | (exact ⟨by decide, by decide⟩) | lift_lets -underBinder | (intro x; have hx : a.Only g x := (by repeat' (first | with_reducible assumption | ((with_reducible refine Foot.le_trans ?_ hF); decide) | ((with_reducible refine Foot.has_of_le hF ?_); (first | (simp (disch := first | omega | decide) only [F.ACT_TGT_TARGET_has, F.ACT_STAT_STATE_has, F.ACT_MOVE_POS_WIN_has, F.ACT_STAT_DONE_has]; done) | decide | (dsimp only; decide))) | ((with_reducible refine Foot.parts_of_le hF ?_); decide) | (exact ⟨by decide, by decide⟩) | lift_lets -underBinder | (with_reducible first | apply State.Only.ite | apply State.Only.done | apply State.Only.pulseEv | apply State.Only.putFlag | apply State.actBrake_only) | (first | split | (dsimp only [x]; split)) | (intro _))); clear_value x) | (intro x; clear_value x) | (with_reducible first | apply State.Only.ite | apply State.Only.done | apply State.Only.pulseEv | apply State.Only.putFlag | apply State.actBrake_only) | split | (intro _))

theorem execMoveTimeout_only {g : Foot} {a s : State} (h : a.Only g s) (l : Lane) (a' : Fin 2)
    (hF : Foot.le ⟨[.lv, .loopReq], [0x10, 0x34], false⟩ g = true) :
    OutOnly g a (execMoveTimeout l a' s) := by
  unfold execMoveTimeout
  repeat' (first | with_reducible assumption | ((with_reducible refine Foot.le_trans ?_ hF); decide) | ((with_reducible refine Foot.has_of_le hF ?_); (first | (simp (disch := first | omega | decide) only [F.ACT_STAT_STATE_has, F.ACT_CNT_TMO_has]; done) | decide | (dsimp only; decide))) | ((with_reducible refine Foot.parts_of_le hF ?_); decide) | (exact ⟨by decide, by decide⟩) | (with_reducible first | apply State.Only.ite | apply State.Only.bump | apply State.Only.done | apply State.Only.pulseEv | apply State.actFault_only) | split | (intro _))

theorem State.vlvLost_only {g : Foot} {a s : State} (h : a.Only g s) (l : Lane)
    (hF : Foot.le ⟨[.lv, .loopReq], [0x10, 0x34], false⟩ g = true) :
    a.Only g (State.vlvLost s l) := by
  unfold State.vlvLost
  repeat' (first | with_reducible assumption | ((with_reducible refine Foot.le_trans ?_ hF); decide) | ((with_reducible refine Foot.has_of_le hF ?_); (first | decide | (dsimp only; decide))) | ((with_reducible refine Foot.parts_of_le hF ?_); decide) | (with_reducible first | apply State.Only.ite | apply State.Only.fold | apply State.actFault_only | apply State.bridgeOff_only) | (intro _))

theorem execVlvOutOfWindow_only {g : Foot} {a s : State} (h : a.Only g s) (v : BitVec 16)
    (hF : Foot.le ⟨[.lv, .loopReq], [0x10, 0x34], false⟩ g = true) :
    OutOnly g a (execVlvOutOfWindow v s) := by
  unfold execVlvOutOfWindow
  repeat' (first | with_reducible assumption | ((with_reducible refine Foot.le_trans ?_ hF); decide) | ((with_reducible refine Foot.has_of_le hF ?_); (first | (simp (disch := first | omega | decide) only [F.ACT_STAT_VLV_OK_has]; done) | decide | (dsimp only; decide))) | ((with_reducible refine Foot.parts_of_le hF ?_); decide) | (exact ⟨by decide, by decide⟩) | lift_lets -underBinder | (intro x; have hx : a.Only g x := (by repeat' (first | with_reducible assumption | ((with_reducible refine Foot.le_trans ?_ hF); decide) | ((with_reducible refine Foot.has_of_le hF ?_); (first | (simp (disch := first | omega | decide) only [F.ACT_STAT_VLV_OK_has]; done) | decide | (dsimp only; decide))) | ((with_reducible refine Foot.parts_of_le hF ?_); decide) | (exact ⟨by decide, by decide⟩) | lift_lets -underBinder | (with_reducible first | apply State.Only.ite | apply State.Only.both | apply State.Only.done | apply State.Only.levelEv | apply State.Only.put | apply State.Only.putFlag | apply State.vlvLost_only) | (first | split | (dsimp only [x]; split)) | (intro _))); clear_value x) | (intro x; clear_value x) | (with_reducible first | apply State.Only.ite | apply State.Only.both | apply State.Only.done | apply State.Only.levelEv | apply State.Only.put | apply State.Only.putFlag | apply State.vlvLost_only) | split | (intro _))

theorem State.forceLimit_only {g : Foot} {a s : State} (h : a.Only g s) (l : Lane) (a' : Fin 2) (code : BitVec 10)
    (hF : Foot.le ⟨[.hv, .lv, .sns, .aon, .mon, .red, .saf, .cls, .trc, .smp, .dcl, .chg, .act, .loopReq], [0x10, 0x11, 0x22, 0x30, 0x31, 0x32, 0x33, 0x34, 0x50, 0x51, 0x80], false⟩ g = true) :
    a.Only g (State.forceLimit s l a' code) := by
  unfold State.forceLimit
  repeat' (first | with_reducible assumption | ((with_reducible refine Foot.le_trans ?_ hF); decide) | ((with_reducible refine Foot.has_of_le hF ?_); (first | (simp (disch := first | omega | decide) only [F.ACT_SHUNT_GAIN_has, F.ACT_I_I_has, F.ACT_STAT_STATE_has, F.ACT_CFG_ILIM_has, F.ACT_LEARN_LEARN_I_has, F.ACT_STAT_FLIM_has]; done) | decide | (dsimp only; decide))) | ((with_reducible refine Foot.parts_of_le hF ?_); decide) | (exact ⟨by decide, by decide⟩) | lift_lets -underBinder | (intro x; have hx : a.Only g x := (by repeat' (first | with_reducible assumption | ((with_reducible refine Foot.le_trans ?_ hF); decide) | ((with_reducible refine Foot.has_of_le hF ?_); (first | (simp (disch := first | omega | decide) only [F.ACT_SHUNT_GAIN_has, F.ACT_I_I_has, F.ACT_STAT_STATE_has, F.ACT_CFG_ILIM_has, F.ACT_LEARN_LEARN_I_has, F.ACT_STAT_FLIM_has]; done) | decide | (dsimp only; decide))) | ((with_reducible refine Foot.parts_of_le hF ?_); decide) | (exact ⟨by decide, by decide⟩) | lift_lets -underBinder | (with_reducible first | apply State.Only.ite | apply State.Only.act | apply State.Only.pulseEv | apply State.Only.putFlag | apply State.Only.putWord) | (intro _))); clear_value x) | (intro x; clear_value x) | (with_reducible first | apply State.Only.ite | apply State.Only.act | apply State.Only.pulseEv | apply State.Only.putFlag | apply State.Only.putWord) | (intro _))

theorem State.bootPeriod_only {g : Foot} {a s : State} (h : a.Only g s) (n : Fin 12) (m : Word)
    (hF : Foot.le ⟨[.lv], [0x21], false⟩ g = true) :
    a.Only g (State.bootPeriod s n m) := by
  unfold State.bootPeriod
  repeat' (first | with_reducible assumption | ((with_reducible refine Foot.le_trans ?_ hF); decide) | ((with_reducible refine Foot.has_of_le hF ?_); (first | (simp (disch := first | omega | decide) only [F.GDL_CNT_CLIP_has, F.GDL_STAT_REFRESH_has]; done) | decide | (dsimp only; decide))) | ((with_reducible refine Foot.parts_of_le hF ?_); decide) | (exact ⟨by decide, by decide⟩) | (exact E.GDL_DUTY_CLIP_proper _) | lift_lets -underBinder | (intro x; have hx : a.Only g x := (by repeat' (first | with_reducible assumption | ((with_reducible refine Foot.le_trans ?_ hF); decide) | ((with_reducible refine Foot.has_of_le hF ?_); (first | (simp (disch := first | omega | decide) only [F.GDL_CNT_CLIP_has, F.GDL_STAT_REFRESH_has]; done) | decide | (dsimp only; decide))) | ((with_reducible refine Foot.parts_of_le hF ?_); decide) | (exact ⟨by decide, by decide⟩) | (exact E.GDL_DUTY_CLIP_proper _) | lift_lets -underBinder | (with_reducible first | apply State.Only.ite | apply State.Only.lvCh | apply State.Only.mbump | apply State.Only.mputFlag | apply State.Only.pulseEv) | (first | split | (dsimp only [x]; split)) | (intro _))); clear_value x) | (intro x; clear_value x) | (with_reducible first | apply State.Only.ite | apply State.Only.lvCh | apply State.Only.mbump | apply State.Only.mputFlag | apply State.Only.pulseEv) | split | (intro _))

theorem State.lowOn_only {g : Foot} {a s : State} (h : a.Only g s) (a' : Fin 2) (j : Nat)
    (hF : Foot.le ⟨[.lv], [], false⟩ g = true) :
    a.Only g (State.lowOn s a' j) := by
  unfold State.lowOn
  repeat' (first | with_reducible assumption | ((with_reducible refine Foot.le_trans ?_ hF); decide) | ((with_reducible refine Foot.has_of_le hF ?_); (first | decide | (dsimp only; decide))) | ((with_reducible refine Foot.parts_of_le hF ?_); decide) | lift_lets -underBinder | (intro x; have hx : a.Only g x := (by repeat' (first | with_reducible assumption | ((with_reducible refine Foot.le_trans ?_ hF); decide) | ((with_reducible refine Foot.has_of_le hF ?_); (first | decide | (dsimp only; decide))) | ((with_reducible refine Foot.parts_of_le hF ?_); decide) | lift_lets -underBinder | (with_reducible first | apply State.Only.lvCh) | (intro _))); clear_value x) | (intro x; clear_value x) | (with_reducible first | apply State.Only.lvCh) | (intro _))

theorem State.actPeriod_only {g : Foot} {a s : State} (h : a.Only g s) (l : Lane) (a' : Fin 2) (hF : Foot.le ⟨[.hv, .lv, .sns, .aon, .free, .mon, .red, .saf, .cls, .trc, .smp, .dcl, .chg, .act, .loopReq], [0x10, 0x11, 0x21, 0x22, 0x30, 0x31, 0x32, 0x33, 0x34, 0x50, 0x51, 0x80], false⟩ g = true) :
    a.Only g (State.actPeriod s l a') := by
  unfold State.actPeriod
  dsimp only
  refine State.Only.ite (fun _ => h) (fun _ => ?_)
  have k : ∀ hi v, a.Only g ((s.bootPeriod hi v).bridgeOff a') := fun hi v =>
    State.bridgeOff_only (State.bootPeriod_only h hi v (Foot.le_trans (by decide) hF)) a' (Foot.le_trans (by decide) hF)
  have m : Part.act ∈ g.parts := Foot.parts_of_le hF (by decide)
  refine State.Only.ite (fun _ => State.lowOn_only (State.Only.act (k _ _) _ _ _ m) _ _ (Foot.le_trans (by decide) hF))
    (fun _ => State.lowOn_only (State.Only.lvCh (State.Only.act (k _ _) _ _ _ m) _ _ (Foot.parts_of_le hF (by decide))) _ _
      (Foot.le_trans (by decide) hF))

theorem State.loadSink_only {g : Foot} {a s : State} (h : a.Only g s) (l : Lane) (i : Fin 16)
    (hF : Foot.le ⟨[.eng], [], false⟩ g = true) :
    a.Only g (State.loadSink s l i) := by
  unfold State.loadSink
  repeat' (first | with_reducible assumption | ((with_reducible refine Foot.le_trans ?_ hF); decide) | ((with_reducible refine Foot.has_of_le hF ?_); (first | decide | (dsimp only; decide))) | ((with_reducible refine Foot.parts_of_le hF ?_); decide) | (with_reducible first | apply State.Only.eng) | (intro _))

theorem execCarrierPeriodStart_only {g : Foot} {a s : State} (h : a.Only g s) (l : Lane) (c : Carrier)
    (hF : Foot.le ⟨[.hv, .lv, .sns, .aon, .free, .mon, .mem, .red, .saf, .cls, .trc, .eng, .smp, .dcl, .chg, .act, .loopReq], [0x10, 0x11, 0x21, 0x22, 0x30, 0x31, 0x32, 0x33, 0x34, 0x50, 0x51, 0x80], false⟩ g = true) :
    OutOnly g a (execCarrierPeriodStart l c s) := by
  unfold execCarrierPeriodStart
  repeat' (first | with_reducible assumption | ((with_reducible refine Foot.le_trans ?_ hF); decide) | ((with_reducible refine Foot.has_of_le hF ?_); (first | (simp (disch := first | omega | decide) only [F.ACT_I_I_has, F.ACT_SHUNT_GAIN_has]; done) | decide | (dsimp only; decide))) | ((with_reducible refine Foot.parts_of_le hF ?_); decide) | lift_lets -underBinder | (intro x; have hx : a.Only g x := (by repeat' (first | with_reducible assumption | ((with_reducible refine Foot.le_trans ?_ hF); decide) | ((with_reducible refine Foot.has_of_le hF ?_); (first | (simp (disch := first | omega | decide) only [F.ACT_I_I_has, F.ACT_SHUNT_GAIN_has]; done) | decide | (dsimp only; decide))) | ((with_reducible refine Foot.parts_of_le hF ?_); decide) | lift_lets -underBinder | (with_reducible first | apply State.Only.ite | apply State.Only.done | apply State.Only.putWord | apply State.Only.smp | apply State.actPeriod_only | apply State.forceLimit_only | apply State.loadSink_only | apply State.showPhases_only) | (first | split | (dsimp only [x]; split)) | (intro _))); clear_value x) | (intro x; clear_value x) | (with_reducible first | apply State.Only.ite | apply State.Only.done | apply State.Only.putWord | apply State.Only.smp | apply State.actPeriod_only | apply State.forceLimit_only | apply State.loadSink_only | apply State.showPhases_only) | split | (intro _))

theorem State.actWires_only {g : Foot} {a s : State} (h : a.Only g s) (l : Lane)
    (hF : Foot.le ⟨[.mem], [], false⟩ g = true) :
    a.Only g (State.actWires s l) := by
  unfold State.actWires
  repeat' (first | with_reducible assumption | ((with_reducible refine Foot.le_trans ?_ hF); decide) | ((with_reducible refine Foot.has_of_le hF ?_); (first | (simp (disch := first | omega | decide) only [F.ACT_I_I_has, F.ACT_STAT_REF_has]; done) | decide | (dsimp only; decide))) | ((with_reducible refine Foot.parts_of_le hF ?_); decide) | (intro x p hp; cases p <;> first | rfl | trivial | exact absurd (Foot.parts_of_le hF (by decide)) hp) | (exact Or.inr (fun _ => rfl)) | lift_lets -underBinder | (intro x; have hx : a.Only g x := (by repeat' (first | with_reducible assumption | ((with_reducible refine Foot.le_trans ?_ hF); decide) | ((with_reducible refine Foot.has_of_le hF ?_); (first | (simp (disch := first | omega | decide) only [F.ACT_I_I_has, F.ACT_STAT_REF_has]; done) | decide | (dsimp only; decide))) | ((with_reducible refine Foot.parts_of_le hF ?_); decide) | (intro x p hp; cases p <;> first | rfl | trivial | exact absurd (Foot.parts_of_le hF (by decide)) hp) | (exact Or.inr (fun _ => rfl)) | lift_lets -underBinder | (with_reducible first | apply State.Only.fold | apply State.Only.lane | apply State.Only.mput) | (intro _))); clear_value x) | (intro x; dsimp -zeta only [x]; clear x) | (intro x; clear_value x) | (with_reducible first | apply State.Only.fold | apply State.Only.lane | apply State.Only.mput) | (intro _))

end Sys2Proof.Machine
end

