-- ==== Sys2Proof/Laws/Only/Guard.lean ====
section
/-! SUPPORT. What the operations of Guard may change. -/
namespace Sys2Proof.Machine
set_option linter.all false
set_option Elab.async false

theorem State.trigSto_only {g : Foot} {a s : State} (h : a.Only g s) (c : Nat)
    (hF : Foot.le ⟨[.hv, .lv, .aon, .mon, .saf, .trc, .dcl, .chg, .loopReq], [0x10, 0x11, 0x30, 0x31, 0x32, 0x33, 0x34, 0x50], false⟩ g = true) :
    a.Only g (State.trigSto s c) := by
  unfold State.trigSto
  repeat' (first | with_reducible assumption | ((with_reducible refine Foot.le_trans ?_ hF); decide) | ((with_reducible refine Foot.has_of_le hF ?_); (first | decide | (dsimp only; decide))) | ((with_reducible refine Foot.parts_of_le hF ?_); decide) | (with_reducible first | apply State.Only.ite | apply State.applySto_only | apply State.causeEv_only) | (intro _))

theorem State.trigSs1_only {g : Foot} {a s : State} (h : a.Only g s) (c : Nat)
    (hF : Foot.le ⟨[.hv, .mon, .saf, .trc, .loopReq], [0x10, 0x11, 0x50], false⟩ g = true) :
    a.Only g (State.trigSs1 s c) := by
  unfold State.trigSs1
  repeat' (first | with_reducible assumption | ((with_reducible refine Foot.le_trans ?_ hF); decide) | ((with_reducible refine Foot.has_of_le hF ?_); (first | decide | (dsimp only; decide))) | ((with_reducible refine Foot.parts_of_le hF ?_); decide) | (with_reducible first | apply State.Only.ite | apply State.applySs1_only | apply State.causeEv_only) | (intro _))

theorem execStoPin_only {g : Foot} {a s : State} (h : a.Only g s) (two : Bool)
    (hF : Foot.le ⟨[.hv, .lv, .aon, .mon, .saf, .trc, .dcl, .chg, .loopReq], [0x10, 0x11, 0x30, 0x31, 0x32, 0x33, 0x34, 0x50], false⟩ g = true) :
    OutOnly g a (execStoPin two s) := by
  unfold execStoPin
  repeat' (first | with_reducible assumption | ((with_reducible refine Foot.le_trans ?_ hF); decide) | ((with_reducible refine Foot.has_of_le hF ?_); (first | decide | (dsimp only; decide))) | ((with_reducible refine Foot.parts_of_le hF ?_); decide) | (exact Or.inr (fun _ => rfl)) | lift_lets -underBinder | (intro x; have hx : a.Only g x := (by repeat' (first | with_reducible assumption | ((with_reducible refine Foot.le_trans ?_ hF); decide) | ((with_reducible refine Foot.has_of_le hF ?_); (first | decide | (dsimp only; decide))) | ((with_reducible refine Foot.parts_of_le hF ?_); decide) | (exact Or.inr (fun _ => rfl)) | lift_lets -underBinder | (with_reducible first | apply State.Only.ite | apply State.Only.aon | apply State.Only.done | apply State.Only.mon | apply State.publish_only | apply State.trigSto_only) | (first | split | (dsimp only [x]; split)) | (intro _))); clear_value x) | (intro x; clear_value x) | (with_reducible first | apply State.Only.ite | apply State.Only.aon | apply State.Only.done | apply State.Only.mon | apply State.publish_only | apply State.trigSto_only) | split | (intro _))

theorem execStoPinHigh_only {g : Foot} {a s : State} (h : a.Only g s) (two : Bool)
    (hF : Foot.le ⟨[.aon, .mon], [0x50], false⟩ g = true) :
    OutOnly g a (execStoPinHigh two s) := by
  unfold execStoPinHigh
  repeat' (first | with_reducible assumption | ((with_reducible refine Foot.le_trans ?_ hF); decide) | ((with_reducible refine Foot.has_of_le hF ?_); (first | decide | (dsimp only; decide))) | ((with_reducible refine Foot.parts_of_le hF ?_); decide) | (exact Or.inr (fun _ => rfl)) | lift_lets -underBinder | (intro x; have hx : a.Only g x := (by repeat' (first | with_reducible assumption | ((with_reducible refine Foot.le_trans ?_ hF); decide) | ((with_reducible refine Foot.has_of_le hF ?_); (first | decide | (dsimp only; decide))) | ((with_reducible refine Foot.parts_of_le hF ?_); decide) | (exact Or.inr (fun _ => rfl)) | lift_lets -underBinder | (with_reducible first | apply State.Only.ite | apply State.Only.aon | apply State.Only.done | apply State.Only.mon | apply State.publish_only) | (first | split | (dsimp only [x]; split)) | (intro _))); clear_value x) | (intro x; clear_value x) | (with_reducible first | apply State.Only.ite | apply State.Only.aon | apply State.Only.done | apply State.Only.mon | apply State.publish_only) | split | (intro _))

theorem execStoDisc_only {g : Foot} {a s : State} (h : a.Only g s)
    (hF : Foot.le ⟨[.mon], [0x50], false⟩ g = true) :
    OutOnly g a (execStoDisc s) := by
  unfold execStoDisc
  repeat' (first | with_reducible assumption | ((with_reducible refine Foot.le_trans ?_ hF); decide) | ((with_reducible refine Foot.has_of_le hF ?_); (first | decide | (dsimp only; decide))) | ((with_reducible refine Foot.parts_of_le hF ?_); decide) | (exact ⟨by decide, by decide⟩) | (exact Or.inr (fun _ => rfl)) | lift_lets -underBinder | (intro x; have hx : a.Only g x := (by repeat' (first | with_reducible assumption | ((with_reducible refine Foot.le_trans ?_ hF); decide) | ((with_reducible refine Foot.has_of_le hF ?_); (first | decide | (dsimp only; decide))) | ((with_reducible refine Foot.parts_of_le hF ?_); decide) | (exact ⟨by decide, by decide⟩) | (exact Or.inr (fun _ => rfl)) | lift_lets -underBinder | (with_reducible first | apply State.Only.ite | apply State.Only.both | apply State.Only.done | apply State.Only.levelEv | apply State.Only.mon | apply State.Only.monLevel | apply State.publish_only) | (first | split | (dsimp only [x]; split)) | (intro _))); clear_value x) | (intro x; clear_value x) | (with_reducible first | apply State.Only.ite | apply State.Only.both | apply State.Only.done | apply State.Only.levelEv | apply State.Only.mon | apply State.Only.monLevel | apply State.publish_only) | split | (intro _))

theorem State.askSto_only {g : Foot} {a s : State} (h : a.Only g s) (l : Lane) (c : Nat)
    (hF : Foot.le ⟨[.saf], [], false⟩ g = true) :
    a.Only g (State.askSto s l c) := by
  unfold State.askSto
  repeat' (first | with_reducible assumption | ((with_reducible refine Foot.le_trans ?_ hF); decide) | ((with_reducible refine Foot.has_of_le hF ?_); (first | decide | (dsimp only; decide))) | ((with_reducible refine Foot.parts_of_le hF ?_); decide) | (with_reducible first | apply State.Only.ite | apply State.Only.saf) | (intro _))

theorem State.askSs1_only {g : Foot} {a s : State} (h : a.Only g s) (l : Lane) (c : Nat)
    (hF : Foot.le ⟨[.saf], [], false⟩ g = true) :
    a.Only g (State.askSs1 s l c) := by
  unfold State.askSs1
  repeat' (first | with_reducible assumption | ((with_reducible refine Foot.le_trans ?_ hF); decide) | ((with_reducible refine Foot.has_of_le hF ?_); (first | decide | (dsimp only; decide))) | ((with_reducible refine Foot.parts_of_le hF ?_); decide) | (with_reducible first | apply State.Only.ite | apply State.Only.saf) | split | (intro _))

theorem execStoRequest_only {g : Foot} {a s : State} (h : a.Only g s) (l : Lane)
    (hF : Foot.le ⟨[.answer, .saf], [], false⟩ g = true) :
    OutOnly g a (execStoRequest l s) := by
  unfold execStoRequest
  repeat' (first | with_reducible assumption | ((with_reducible refine Foot.le_trans ?_ hF); decide) | ((with_reducible refine Foot.has_of_le hF ?_); (first | decide | (dsimp only; decide))) | ((with_reducible refine Foot.parts_of_le hF ?_); decide) | (with_reducible first | apply State.Only.done | apply State.askSto_only | apply State.reply_only | apply State.writing_only) | (intro _))

theorem execSs1Request_only {g : Foot} {a s : State} (h : a.Only g s) (l : Lane)
    (hF : Foot.le ⟨[.answer, .saf], [], false⟩ g = true) :
    OutOnly g a (execSs1Request l s) := by
  unfold execSs1Request
  repeat' (first | with_reducible assumption | ((with_reducible refine Foot.le_trans ?_ hF); decide) | ((with_reducible refine Foot.has_of_le hF ?_); (first | decide | (dsimp only; decide))) | ((with_reducible refine Foot.parts_of_le hF ?_); decide) | (with_reducible first | apply State.Only.done | apply State.askSs1_only | apply State.reply_only | apply State.writing_only) | (intro _))

theorem State.restart_only {g : Foot} {a s : State} (h : a.Only g s)
    (hF : Foot.le ⟨[.hv, .mon], [0x50], false⟩ g = true) :
    a.Only g (State.restart s) := by
  unfold State.restart
  repeat' (first | with_reducible assumption | ((with_reducible refine Foot.le_trans ?_ hF); decide) | ((with_reducible refine Foot.has_of_le hF ?_); (first | decide | (dsimp only; decide))) | ((with_reducible refine Foot.parts_of_le hF ?_); decide) | (exact ⟨by decide, by decide⟩) | (exact Or.inr (fun _ => rfl)) | lift_lets -underBinder | (intro x; have hx : a.Only g x := (by repeat' (first | with_reducible assumption | ((with_reducible refine Foot.le_trans ?_ hF); decide) | ((with_reducible refine Foot.has_of_le hF ?_); (first | decide | (dsimp only; decide))) | ((with_reducible refine Foot.parts_of_le hF ?_); decide) | (exact ⟨by decide, by decide⟩) | (exact Or.inr (fun _ => rfl)) | lift_lets -underBinder | (with_reducible first | apply State.Only.ite | apply State.Only.both | apply State.Only.levelEv | apply State.Only.mon | apply State.Only.monEv | apply State.Only.monLevel | apply State.Only.pulseEv | apply State.placeSet_only | apply State.publish_only) | (intro _))); clear_value x) | (intro x; clear_value x) | (with_reducible first | apply State.Only.ite | apply State.Only.both | apply State.Only.levelEv | apply State.Only.mon | apply State.Only.monEv | apply State.Only.monLevel | apply State.Only.pulseEv | apply State.placeSet_only | apply State.publish_only) | (intro _))

theorem State.acknowledge_only {g : Foot} {a s : State} (h : a.Only g s)
    (hF : Foot.le ⟨[.hv, .mon], [0x50], false⟩ g = true) :
    a.Only g (State.acknowledge s) := by
  unfold State.acknowledge
  repeat' (first | with_reducible assumption | ((with_reducible refine Foot.le_trans ?_ hF); decide) | ((with_reducible refine Foot.has_of_le hF ?_); (first | decide | (dsimp only; decide))) | ((with_reducible refine Foot.parts_of_le hF ?_); decide) | (with_reducible first | apply State.Only.ite | apply State.restart_only) | (intro _))

theorem State.ownRelease_only {g : Foot} {a s : State} (h : a.Only g s) (l : Lane)
    (hF : Foot.le ⟨[.red], [0x50], false⟩ g = true) :
    a.Only g (State.ownRelease s l) := by
  unfold State.ownRelease
  repeat' (first | with_reducible assumption | ((with_reducible refine Foot.le_trans ?_ hF); decide) | ((with_reducible refine Foot.has_of_le hF ?_); (first | decide | (dsimp only; decide))) | ((with_reducible refine Foot.parts_of_le hF ?_); decide) | (exact ⟨by decide, by decide⟩) | lift_lets -underBinder | (intro x; have hx : a.Only g x := (by repeat' (first | with_reducible assumption | ((with_reducible refine Foot.le_trans ?_ hF); decide) | ((with_reducible refine Foot.has_of_le hF ?_); (first | decide | (dsimp only; decide))) | ((with_reducible refine Foot.parts_of_le hF ?_); decide) | (exact ⟨by decide, by decide⟩) | lift_lets -underBinder | (with_reducible first | apply State.Only.levelEv | apply State.Only.pulseEv | apply State.Only.put | apply State.Only.red) | (intro _))); clear_value x) | (intro x; clear_value x) | (with_reducible first | apply State.Only.levelEv | apply State.Only.pulseEv | apply State.Only.put | apply State.Only.red) | (intro _))

theorem State.clsAck_only {g : Foot} {a s : State} (h : a.Only g s) (l : Lane)
    (hF : Foot.le ⟨[.hv, .mon, .red], [0x50], false⟩ g = true) :
    a.Only g (State.clsAck s l) := by
  unfold State.clsAck
  repeat' (first | with_reducible assumption | ((with_reducible refine Foot.le_trans ?_ hF); decide) | ((with_reducible refine Foot.has_of_le hF ?_); (first | decide | (dsimp only; decide))) | ((with_reducible refine Foot.parts_of_le hF ?_); decide) | (exact Or.inr (fun _ => rfl)) | lift_lets -underBinder | (intro x; have hx : a.Only g x := (by repeat' (first | with_reducible assumption | ((with_reducible refine Foot.le_trans ?_ hF); decide) | ((with_reducible refine Foot.has_of_le hF ?_); (first | decide | (dsimp only; decide))) | ((with_reducible refine Foot.parts_of_le hF ?_); decide) | (exact Or.inr (fun _ => rfl)) | lift_lets -underBinder | (with_reducible first | apply State.Only.ite | apply State.Only.mon | apply State.acknowledge_only | apply State.ownRelease_only) | (first | split | (dsimp only [x]; split)) | (intro _))); clear_value x) | (intro x; dsimp -zeta only [x]; clear x) | (intro x; clear_value x) | (with_reducible first | apply State.Only.ite | apply State.Only.mon | apply State.acknowledge_only | apply State.ownRelease_only) | split | (intro _))

theorem State.zeroPos_only {g : Foot} {a s : State} (h : a.Only g s)
    (hF : Foot.le ⟨[.mon, .saf], [0x50], false⟩ g = true) :
    a.Only g (State.zeroPos s) := by
  unfold State.zeroPos
  repeat' (first | with_reducible assumption | ((with_reducible refine Foot.le_trans ?_ hF); decide) | ((with_reducible refine Foot.has_of_le hF ?_); (first | decide | (dsimp only; decide))) | ((with_reducible refine Foot.parts_of_le hF ?_); decide) | (exact Or.inr (fun _ => rfl)) | lift_lets -underBinder | (intro x; have hx : a.Only g x := (by repeat' (first | with_reducible assumption | ((with_reducible refine Foot.le_trans ?_ hF); decide) | ((with_reducible refine Foot.has_of_le hF ?_); (first | decide | (dsimp only; decide))) | ((with_reducible refine Foot.parts_of_le hF ?_); decide) | (exact Or.inr (fun _ => rfl)) | lift_lets -underBinder | (with_reducible first | apply State.Only.ite | apply State.Only.both | apply State.Only.mon | apply State.Only.putWord | apply State.Only.saf) | (intro _))); clear_value x) | (intro x; clear_value x) | (with_reducible first | apply State.Only.ite | apply State.Only.both | apply State.Only.mon | apply State.Only.putWord | apply State.Only.saf) | (intro _))

theorem State.clsSlpSet_only {g : Foot} {a s : State} (h : a.Only g s) (l : Lane)
    (hF : Foot.le ⟨[.mon, .saf], [0x50], false⟩ g = true) :
    a.Only g (State.clsSlpSet s l) := by
  unfold State.clsSlpSet
  repeat' (first | with_reducible assumption | ((with_reducible refine Foot.le_trans ?_ hF); decide) | ((with_reducible refine Foot.has_of_le hF ?_); (first | decide | (dsimp only; decide))) | ((with_reducible refine Foot.parts_of_le hF ?_); decide) | (exact Or.inr (fun _ => rfl)) | lift_lets -underBinder | (intro x; have hx : a.Only g x := (by repeat' (first | with_reducible assumption | ((with_reducible refine Foot.le_trans ?_ hF); decide) | ((with_reducible refine Foot.has_of_le hF ?_); (first | decide | (dsimp only; decide))) | ((with_reducible refine Foot.parts_of_le hF ?_); decide) | (exact Or.inr (fun _ => rfl)) | lift_lets -underBinder | (with_reducible first | apply State.Only.ite | apply State.Only.mon | apply State.zeroPos_only) | (first | split | (dsimp only [x]; split)) | (intro _))); clear_value x) | (intro x; dsimp -zeta only [x]; clear x) | (intro x; clear_value x) | (with_reducible first | apply State.Only.ite | apply State.Only.mon | apply State.zeroPos_only) | split | (intro _))

theorem State.ss1End_only {g : Foot} {a s : State} (h : a.Only g s)
    (hF : Foot.le ⟨[.hv, .lv, .aon, .mon, .saf, .trc, .dcl, .chg, .loopReq], [0x10, 0x11, 0x30, 0x31, 0x32, 0x33, 0x34, 0x50], false⟩ g = true) :
    a.Only g (State.ss1End s) := by
  unfold State.ss1End
  repeat' (first | with_reducible assumption | ((with_reducible refine Foot.le_trans ?_ hF); decide) | ((with_reducible refine Foot.has_of_le hF ?_); (first | decide | (dsimp only; decide))) | ((with_reducible refine Foot.parts_of_le hF ?_); decide) | (with_reducible first | apply State.Only.ite | apply State.applySto_only) | (intro _))

theorem State.ownSto_only {g : Foot} {a s : State} (h : a.Only g s) (l : Lane) (c : Nat)
    (hF : Foot.le ⟨[.hv, .red, .trc, .loopReq], [0x10, 0x11, 0x50], false⟩ g = true) :
    a.Only g (State.ownSto s l c) := by
  unfold State.ownSto
  repeat' (first | with_reducible assumption | ((with_reducible refine Foot.le_trans ?_ hF); decide) | ((with_reducible refine Foot.has_of_le hF ?_); (first | decide | (dsimp only; decide))) | ((with_reducible refine Foot.parts_of_le hF ?_); decide) | (exact ⟨by decide, by decide⟩) | lift_lets -underBinder | (intro x; have hx : a.Only g x := (by repeat' (first | with_reducible assumption | ((with_reducible refine Foot.le_trans ?_ hF); decide) | ((with_reducible refine Foot.has_of_le hF ?_); (first | decide | (dsimp only; decide))) | ((with_reducible refine Foot.parts_of_le hF ?_); decide) | (exact ⟨by decide, by decide⟩) | lift_lets -underBinder | (with_reducible first | apply State.Only.ite | apply State.Only.levelEv | apply State.Only.put | apply State.Only.red | apply State.setFault_only) | (first | split | (dsimp only [x]; split)) | (intro _))); clear_value x) | (intro x; clear_value x) | (with_reducible first | apply State.Only.ite | apply State.Only.levelEv | apply State.Only.put | apply State.Only.red | apply State.setFault_only) | split | (intro _))

theorem State.ownSs1Start_only {g : Foot} {a s : State} (h : a.Only g s) (l : Lane) (c : Nat)
    (hF : Foot.le ⟨[.hv, .red, .saf, .trc, .loopReq], [0x10, 0x11, 0x50], false⟩ g = true) :
    a.Only g (State.ownSs1Start s l c) := by
  unfold State.ownSs1Start
  repeat' (first | with_reducible assumption | ((with_reducible refine Foot.le_trans ?_ hF); decide) | ((with_reducible refine Foot.has_of_le hF ?_); (first | decide | (dsimp only; decide))) | ((with_reducible refine Foot.parts_of_le hF ?_); decide) | lift_lets -underBinder | (intro x; have hx : a.Only g x := (by repeat' (first | with_reducible assumption | ((with_reducible refine Foot.le_trans ?_ hF); decide) | ((with_reducible refine Foot.has_of_le hF ?_); (first | decide | (dsimp only; decide))) | ((with_reducible refine Foot.parts_of_le hF ?_); decide) | lift_lets -underBinder | (with_reducible first | apply State.Only.ite | apply State.Only.put | apply State.Only.red | apply State.laneSs1_only) | (first | split | (dsimp only [x]; split)) | (intro _))); clear_value x) | (intro x; clear_value x) | (with_reducible first | apply State.Only.ite | apply State.Only.put | apply State.Only.red | apply State.laneSs1_only) | split | (intro _))

theorem State.clsJudge_only {g : Foot} {a s : State} (h : a.Only g s)
    (hF : Foot.le ⟨[.hv, .lv, .aon, .mon, .red, .saf, .trc, .dcl, .chg, .loopReq], [0x10, 0x11, 0x30, 0x31, 0x32, 0x33, 0x34, 0x50], false⟩ g = true) :
    a.Only g (State.clsJudge s) := by
  unfold State.clsJudge
  repeat' (first | with_reducible assumption | ((with_reducible refine Foot.le_trans ?_ hF); decide) | ((with_reducible refine Foot.has_of_le hF ?_); (first | decide | (dsimp only; decide))) | ((with_reducible refine Foot.parts_of_le hF ?_); decide) | lift_lets -underBinder | (intro x; have hx : a.Only g x := (by repeat' (first | with_reducible assumption | ((with_reducible refine Foot.le_trans ?_ hF); decide) | ((with_reducible refine Foot.has_of_le hF ?_); (first | decide | (dsimp only; decide))) | ((with_reducible refine Foot.parts_of_le hF ?_); decide) | lift_lets -underBinder | (with_reducible first | apply State.Only.ite | apply State.Only.both | apply State.ownSs1Start_only | apply State.ownSto_only | apply State.publish_only | apply State.trigSs1_only | apply State.trigSto_only) | (first | split | (dsimp only [x]; split)) | (intro _))); clear_value x) | (intro x; clear_value x) | (with_reducible first | apply State.Only.ite | apply State.Only.both | apply State.ownSs1Start_only | apply State.ownSto_only | apply State.publish_only | apply State.trigSs1_only | apply State.trigSto_only) | split | (intro _))

theorem execSs1Timeout_only {g : Foot} {a s : State} (h : a.Only g s) (w : Seer)
    (hF : Foot.le ⟨[.hv, .lv, .aon, .mon, .red, .saf, .trc, .dcl, .chg, .loopReq], [0x10, 0x11, 0x30, 0x31, 0x32, 0x33, 0x34, 0x50], false⟩ g = true) :
    OutOnly g a (execSs1Timeout w s) := by
  unfold execSs1Timeout
  repeat' (first | with_reducible assumption | ((with_reducible refine Foot.le_trans ?_ hF); decide) | ((with_reducible refine Foot.has_of_le hF ?_); (first | decide | (dsimp only; decide))) | ((with_reducible refine Foot.parts_of_le hF ?_); decide) | (with_reducible first | apply State.Only.ite | apply State.Only.done | apply State.ownSto_only | apply State.ss1End_only) | split | (intro _))

theorem execSs1RampDone_only {g : Foot} {a s : State} (h : a.Only g s) (w : Seer)
    (hF : Foot.le ⟨[.hv, .lv, .aon, .mon, .red, .saf, .trc, .dcl, .chg, .loopReq], [0x10, 0x11, 0x30, 0x31, 0x32, 0x33, 0x34, 0x50], false⟩ g = true) :
    OutOnly g a (execSs1RampDone w s) := by
  unfold execSs1RampDone
  repeat' (first | with_reducible assumption | ((with_reducible refine Foot.le_trans ?_ hF); decide) | ((with_reducible refine Foot.has_of_le hF ?_); (first | decide | (dsimp only; decide))) | ((with_reducible refine Foot.parts_of_le hF ?_); decide) | lift_lets -underBinder | (intro x; have hx : a.Only g x := (by repeat' (first | with_reducible assumption | ((with_reducible refine Foot.le_trans ?_ hF); decide) | ((with_reducible refine Foot.has_of_le hF ?_); (first | decide | (dsimp only; decide))) | ((with_reducible refine Foot.parts_of_le hF ?_); decide) | lift_lets -underBinder | (with_reducible first | apply State.Only.ite | apply State.Only.done | apply State.ownSto_only | apply State.ss1End_only) | (first | split | (dsimp only [x]; split)) | (intro _))); clear_value x) | (intro x; dsimp -zeta only [x]; clear x) | (intro x; clear_value x) | (with_reducible first | apply State.Only.ite | apply State.Only.done | apply State.ownSto_only | apply State.ss1End_only) | split | (intro _))

theorem execCommandLineLost_only {g : Foot} {a s : State} (h : a.Only g s) (l : Lane) (back : Bool)
    (hF : Foot.le ⟨[.hv, .lv, .aon, .mon, .saf, .trc, .dcl, .chg, .loopReq], [0x10, 0x11, 0x30, 0x31, 0x32, 0x33, 0x34, 0x50], false⟩ g = true) :
    OutOnly g a (execCommandLineLost l back s) := by
  unfold execCommandLineLost
  repeat' (first | with_reducible assumption | ((with_reducible refine Foot.le_trans ?_ hF); decide) | ((with_reducible refine Foot.has_of_le hF ?_); (first | decide | (dsimp only; decide))) | ((with_reducible refine Foot.parts_of_le hF ?_); decide) | (exact ⟨by decide, by decide⟩) | lift_lets -underBinder | (intro x; have hx : a.Only g x := (by repeat' (first | with_reducible assumption | ((with_reducible refine Foot.le_trans ?_ hF); decide) | ((with_reducible refine Foot.has_of_le hF ?_); (first | decide | (dsimp only; decide))) | ((with_reducible refine Foot.parts_of_le hF ?_); decide) | (exact ⟨by decide, by decide⟩) | lift_lets -underBinder | (with_reducible first | apply State.Only.ite | apply State.Only.done | apply State.Only.levelEv | apply State.Only.saf | apply State.laneSs1_only | apply State.laneSto_only | apply State.publishTo_only) | (first | split | (dsimp only [x]; split)) | (intro _))); clear_value x) | (intro x; clear_value x) | (with_reducible first | apply State.Only.ite | apply State.Only.done | apply State.Only.levelEv | apply State.Only.saf | apply State.laneSs1_only | apply State.laneSto_only | apply State.publishTo_only) | split | (intro _))

theorem State.limitCheck_only {g : Foot} {a s : State} (h : a.Only g s)
    (hF : Foot.le ⟨[.hv, .mon, .saf, .trc, .loopReq], [0x10, 0x11, 0x50], false⟩ g = true) :
    a.Only g (State.limitCheck s) := by
  unfold State.limitCheck
  repeat' (first | with_reducible assumption | ((with_reducible refine Foot.le_trans ?_ hF); decide) | ((with_reducible refine Foot.has_of_le hF ?_); (first | decide | (dsimp only; decide))) | ((with_reducible refine Foot.parts_of_le hF ?_); decide) | (exact Or.inr (fun _ => rfl)) | lift_lets -underBinder | (intro x; have hx : a.Only g x := (by repeat' (first | with_reducible assumption | ((with_reducible refine Foot.le_trans ?_ hF); decide) | ((with_reducible refine Foot.has_of_le hF ?_); (first | decide | (dsimp only; decide))) | ((with_reducible refine Foot.parts_of_le hF ?_); decide) | (exact Or.inr (fun _ => rfl)) | lift_lets -underBinder | (with_reducible first | apply State.Only.fold | apply State.Only.mon | apply State.trigSs1_only) | (intro _))); clear_value x) | (intro x; clear_value x) | (with_reducible first | apply State.Only.fold | apply State.Only.mon | apply State.trigSs1_only) | (intro _))

theorem execSpeedCompare_only {g : Foot} {a s : State} (h : a.Only g s)
    (hF : Foot.le ⟨[.hv, .mon, .saf, .trc, .loopReq], [0x10, 0x11, 0x50], false⟩ g = true) :
    OutOnly g a (execSpeedCompare s) := by
  unfold execSpeedCompare
  repeat' (first | with_reducible assumption | ((with_reducible refine Foot.le_trans ?_ hF); decide) | ((with_reducible refine Foot.has_of_le hF ?_); (first | decide | (dsimp only; decide))) | ((with_reducible refine Foot.parts_of_le hF ?_); decide) | (exact ⟨by decide, by decide⟩) | (exact Or.inr (fun _ => rfl)) | lift_lets -underBinder | (intro x; have hx : a.Only g x := (by repeat' (first | with_reducible assumption | ((with_reducible refine Foot.le_trans ?_ hF); decide) | ((with_reducible refine Foot.has_of_le hF ?_); (first | decide | (dsimp only; decide))) | ((with_reducible refine Foot.parts_of_le hF ?_); decide) | (exact ⟨by decide, by decide⟩) | (exact Or.inr (fun _ => rfl)) | lift_lets -underBinder | (with_reducible first | apply State.Only.ite | apply State.Only.done | apply State.Only.mon | apply State.publish_only | apply State.safEv_only | apply State.trigSs1_only) | (first | split | (dsimp only [x]; split)) | (intro _))); clear_value x) | (intro x; clear_value x) | (with_reducible first | apply State.Only.ite | apply State.Only.done | apply State.Only.mon | apply State.publish_only | apply State.safEv_only | apply State.trigSs1_only) | split | (intro _))

theorem State.holdOne_only {g : Foot} {a s : State} (h : a.Only g s) (l : Lane)
    (hF : Foot.le ⟨[.hv, .mon, .trc, .loopReq], [0x10, 0x11], false⟩ g = true) :
    a.Only g (State.holdOne s l) := by
  unfold State.holdOne
  repeat' (first | with_reducible assumption | ((with_reducible refine Foot.le_trans ?_ hF); decide) | ((with_reducible refine Foot.has_of_le hF ?_); (first | decide | (dsimp only; decide))) | ((with_reducible refine Foot.parts_of_le hF ?_); decide) | (exact ⟨by decide, by decide⟩) | (exact Or.inr (fun _ => rfl)) | lift_lets -underBinder | (intro x; have hx : a.Only g x := (by repeat' (first | with_reducible assumption | ((with_reducible refine Foot.le_trans ?_ hF); decide) | ((with_reducible refine Foot.has_of_le hF ?_); (first | decide | (dsimp only; decide))) | ((with_reducible refine Foot.parts_of_le hF ?_); decide) | (exact ⟨by decide, by decide⟩) | (exact Or.inr (fun _ => rfl)) | lift_lets -underBinder | (with_reducible first | apply State.Only.ite | apply State.Only.mon | apply State.Only.monLevel | apply State.holdSet_only | apply State.placeSet_only | apply State.safEv_only | apply State.setFault_only) | (first | split | (dsimp only [x]; split)) | (intro _))); clear_value x) | (intro x; clear_value x) | (with_reducible first | apply State.Only.ite | apply State.Only.mon | apply State.Only.monLevel | apply State.holdSet_only | apply State.placeSet_only | apply State.safEv_only | apply State.setFault_only) | split | (intro _))

theorem execTorqueMonitor_only {g : Foot} {a s : State} (h : a.Only g s)
    (hF : Foot.le ⟨[.hv, .lv, .aon, .mon, .saf, .trc, .dcl, .chg, .loopReq], [0x10, 0x11, 0x30, 0x31, 0x32, 0x33, 0x34, 0x50], false⟩ g = true) :
    OutOnly g a (execTorqueMonitor s) := by
  unfold execTorqueMonitor
  repeat' (first | with_reducible assumption | ((with_reducible refine Foot.le_trans ?_ hF); decide) | ((with_reducible refine Foot.has_of_le hF ?_); (first | decide | (dsimp only; decide))) | ((with_reducible refine Foot.parts_of_le hF ?_); decide) | (exact Or.inr (fun _ => rfl)) | lift_lets -underBinder | (intro x; have hx : a.Only g x := (by repeat' (first | with_reducible assumption | ((with_reducible refine Foot.le_trans ?_ hF); decide) | ((with_reducible refine Foot.has_of_le hF ?_); (first | decide | (dsimp only; decide))) | ((with_reducible refine Foot.parts_of_le hF ?_); decide) | (exact Or.inr (fun _ => rfl)) | lift_lets -underBinder | (with_reducible first | apply State.Only.ite | apply State.Only.done | apply State.Only.mon | apply State.holdOne_only | apply State.publish_only | apply State.trigSto_only) | (first | split | (dsimp only [x]; split)) | (intro _))); clear_value x) | (intro x; clear_value x) | (with_reducible first | apply State.Only.ite | apply State.Only.done | apply State.Only.mon | apply State.holdOne_only | apply State.publish_only | apply State.trigSto_only) | split | (intro _))

theorem execSafKFeedback_only {g : Foot} {a s : State} (h : a.Only g s) (n : Fin 6) (closed : Bool)
    (hF : Foot.le ⟨[.aon], [0x33, 0x50], false⟩ g = true) :
    OutOnly g a (execSafKFeedback n closed s) := by
  unfold execSafKFeedback
  repeat' (first | with_reducible assumption | ((with_reducible refine Foot.le_trans ?_ hF); decide) | ((with_reducible refine Foot.has_of_le hF ?_); (first | decide | (dsimp only; decide))) | ((with_reducible refine Foot.parts_of_le hF ?_); decide) | (exact ⟨by decide, by decide⟩) | lift_lets -underBinder | (intro x; have hx : a.Only g x := (by repeat' (first | with_reducible assumption | ((with_reducible refine Foot.le_trans ?_ hF); decide) | ((with_reducible refine Foot.has_of_le hF ?_); (first | decide | (dsimp only; decide))) | ((with_reducible refine Foot.parts_of_le hF ?_); decide) | (exact ⟨by decide, by decide⟩) | lift_lets -underBinder | (with_reducible first | apply State.Only.ite | apply State.Only.done | apply State.Only.monEv | apply State.safEv_only | apply State.setKfb_only) | (first | split | (dsimp only [x]; split)) | (intro _))); clear_value x) | (intro x; clear_value x) | (with_reducible first | apply State.Only.ite | apply State.Only.done | apply State.Only.monEv | apply State.safEv_only | apply State.setKfb_only) | split | (intro _))

theorem execKTest_only {g : Foot} {a s : State} (h : a.Only g s) (n : Fin 6)
    (hF : Foot.le ⟨[.aon, .mon], [0x50], false⟩ g = true) :
    OutOnly g a (execKTest n s) := by
  unfold execKTest
  repeat' (first | with_reducible assumption | ((with_reducible refine Foot.le_trans ?_ hF); decide) | ((with_reducible refine Foot.has_of_le hF ?_); (first | decide | (dsimp only; decide))) | ((with_reducible refine Foot.parts_of_le hF ?_); decide) | (exact Or.inr (fun _ => rfl)) | lift_lets -underBinder | (intro x; have hx : a.Only g x := (by repeat' (first | with_reducible assumption | ((with_reducible refine Foot.le_trans ?_ hF); decide) | ((with_reducible refine Foot.has_of_le hF ?_); (first | decide | (dsimp only; decide))) | ((with_reducible refine Foot.parts_of_le hF ?_); decide) | (exact Or.inr (fun _ => rfl)) | lift_lets -underBinder | (with_reducible first | apply State.Only.ite | apply State.Only.aon | apply State.Only.done | apply State.Only.mon | apply State.showK_only) | (first | split | (dsimp only [x]; split)) | (intro _))); clear_value x) | (intro x; clear_value x) | (with_reducible first | apply State.Only.ite | apply State.Only.aon | apply State.Only.done | apply State.Only.mon | apply State.showK_only) | split | (intro _))

theorem State.kTestEnd_only {g : Foot} {a s : State} (h : a.Only g s) (n : Fin 6) (pass : Bool)
    (hF : Foot.le ⟨[.mon], [0x50], false⟩ g = true) :
    a.Only g (State.kTestEnd s n pass) := by
  unfold State.kTestEnd
  repeat' (first | with_reducible assumption | ((with_reducible refine Foot.le_trans ?_ hF); decide) | ((with_reducible refine Foot.has_of_le hF ?_); (first | decide | (dsimp only; decide))) | ((with_reducible refine Foot.parts_of_le hF ?_); decide) | (exact ⟨by decide, by decide⟩) | (exact Or.inr (fun _ => rfl)) | lift_lets -underBinder | (intro x; have hx : a.Only g x := (by repeat' (first | with_reducible assumption | ((with_reducible refine Foot.le_trans ?_ hF); decide) | ((with_reducible refine Foot.has_of_le hF ?_); (first | decide | (dsimp only; decide))) | ((with_reducible refine Foot.parts_of_le hF ?_); decide) | (exact ⟨by decide, by decide⟩) | (exact Or.inr (fun _ => rfl)) | lift_lets -underBinder | (with_reducible first | apply State.Only.ite | apply State.Only.mon | apply State.Only.monEv | apply State.publish_only | apply State.safEv_only) | (first | split | (dsimp only [x]; split)) | (intro _))); clear_value x) | (intro x; clear_value x) | (with_reducible first | apply State.Only.ite | apply State.Only.mon | apply State.Only.monEv | apply State.publish_only | apply State.safEv_only) | split | (intro _))

theorem execKTestCheck_only {g : Foot} {a s : State} (h : a.Only g s) (n : Fin 6) (closed : Bool)
    (hF : Foot.le ⟨[.aon, .mon], [0x33, 0x50], false⟩ g = true) :
    OutOnly g a (execKTestCheck n closed s) := by
  unfold execKTestCheck
  repeat' (first | with_reducible assumption | ((with_reducible refine Foot.le_trans ?_ hF); decide) | ((with_reducible refine Foot.has_of_le hF ?_); (first | decide | (dsimp only; decide))) | ((with_reducible refine Foot.parts_of_le hF ?_); decide) | (exact Or.inr (fun _ => rfl)) | lift_lets -underBinder | (intro x; have hx : a.Only g x := (by repeat' (first | with_reducible assumption | ((with_reducible refine Foot.le_trans ?_ hF); decide) | ((with_reducible refine Foot.has_of_le hF ?_); (first | decide | (dsimp only; decide))) | ((with_reducible refine Foot.parts_of_le hF ?_); decide) | (exact Or.inr (fun _ => rfl)) | lift_lets -underBinder | (with_reducible first | apply State.Only.ite | apply State.Only.aon | apply State.Only.done | apply State.Only.mon | apply State.kTestEnd_only | apply State.setKfb_only | apply State.showK_only) | (first | split | (dsimp only [x]; split)) | (intro _))); clear_value x) | (intro x; clear_value x) | (with_reducible first | apply State.Only.ite | apply State.Only.aon | apply State.Only.done | apply State.Only.mon | apply State.kTestEnd_only | apply State.setKfb_only | apply State.showK_only) | split | (intro _))

theorem State.crossing_only {g : Foot} {a s : State} (h : a.Only g s) (k : Fin 2) (iu : BitVec 12)
    (hF : Foot.le ⟨[.mon], [], false⟩ g = true) :
    a.Only g (State.crossing s k iu) := by
  unfold State.crossing
  repeat' (first | with_reducible assumption | ((with_reducible refine Foot.le_trans ?_ hF); decide) | ((with_reducible refine Foot.has_of_le hF ?_); (first | decide | (dsimp only; decide))) | ((with_reducible refine Foot.parts_of_le hF ?_); decide) | (exact Or.inr (fun _ => rfl)) | lift_lets -underBinder | (intro x; have hx : a.Only g x := (by repeat' (first | with_reducible assumption | ((with_reducible refine Foot.le_trans ?_ hF); decide) | ((with_reducible refine Foot.has_of_le hF ?_); (first | decide | (dsimp only; decide))) | ((with_reducible refine Foot.parts_of_le hF ?_); decide) | (exact Or.inr (fun _ => rfl)) | lift_lets -underBinder | (with_reducible first | apply State.Only.ite | apply State.Only.mon) | (first | split | (dsimp only [x]; split)) | (intro _))); clear_value x) | (intro x; clear_value x) | (with_reducible first | apply State.Only.ite | apply State.Only.mon) | split | (intro _))

theorem execMonConverterFrame_only {g : Foot} {a s : State} (h : a.Only g s) (f : MonFrame)
    (hF : Foot.le ⟨[.mon], [], false⟩ g = true) :
    OutOnly g a (execMonConverterFrame f s) := by
  unfold execMonConverterFrame
  repeat' (first | with_reducible assumption | ((with_reducible refine Foot.le_trans ?_ hF); decide) | ((with_reducible refine Foot.has_of_le hF ?_); (first | decide | (dsimp only; decide))) | ((with_reducible refine Foot.parts_of_le hF ?_); decide) | (exact ⟨by decide, by decide⟩) | (exact Or.inr (fun _ => rfl)) | lift_lets -underBinder | (intro x; have hx : a.Only g x := (by repeat' (first | with_reducible assumption | ((with_reducible refine Foot.le_trans ?_ hF); decide) | ((with_reducible refine Foot.has_of_le hF ?_); (first | decide | (dsimp only; decide))) | ((with_reducible refine Foot.parts_of_le hF ?_); decide) | (exact ⟨by decide, by decide⟩) | (exact Or.inr (fun _ => rfl)) | lift_lets -underBinder | (with_reducible first | apply State.Only.ite | apply State.Only.done | apply State.Only.fold | apply State.Only.mon | apply State.Only.monLevel | apply State.crossing_only) | (first | split | (dsimp only [x]; split)) | (intro _))); clear_value x) | (intro x; dsimp -zeta only [x]; clear x) | (intro x; clear_value x) | (with_reducible first | apply State.Only.ite | apply State.Only.done | apply State.Only.fold | apply State.Only.mon | apply State.Only.monLevel | apply State.crossing_only) | split | (intro _))

theorem execMonSelfTestFail_only {g : Foot} {a s : State} (h : a.Only g s)
    (hF : Foot.le ⟨[.mon], [], false⟩ g = true) :
    OutOnly g a (execMonSelfTestFail s) := by
  unfold execMonSelfTestFail
  repeat' (first | with_reducible assumption | ((with_reducible refine Foot.le_trans ?_ hF); decide) | ((with_reducible refine Foot.has_of_le hF ?_); (first | decide | (dsimp only; decide))) | ((with_reducible refine Foot.parts_of_le hF ?_); decide) | (exact ⟨by decide, by decide⟩) | (exact Or.inr (fun _ => rfl)) | lift_lets -underBinder | (intro x; have hx : a.Only g x := (by repeat' (first | with_reducible assumption | ((with_reducible refine Foot.le_trans ?_ hF); decide) | ((with_reducible refine Foot.has_of_le hF ?_); (first | decide | (dsimp only; decide))) | ((with_reducible refine Foot.parts_of_le hF ?_); decide) | (exact ⟨by decide, by decide⟩) | (exact Or.inr (fun _ => rfl)) | lift_lets -underBinder | (with_reducible first | apply State.Only.ite | apply State.Only.done | apply State.Only.mon | apply State.Only.monEv) | (first | split | (dsimp only [x]; split)) | (intro _))); clear_value x) | (intro x; clear_value x) | (with_reducible first | apply State.Only.ite | apply State.Only.done | apply State.Only.mon | apply State.Only.monEv) | split | (intro _))

end Sys2Proof.Machine
end

