-- ==== Sys2Proof/Laws/Only/Redundancy.lean ====
section
/-! SUPPORT. What the operations of Redundancy may change. -/
namespace Sys2Proof.Machine
set_option linter.all false
set_option Elab.async false

theorem State.standbyBridge_only {g : Foot} {a s : State} (h : a.Only g s) (l : Lane)
    (hF : Foot.le ⟨[.hv, .trc, .loopReq], [0x10, 0x11], false⟩ g = true) :
    a.Only g (State.standbyBridge s l) := by
  unfold State.standbyBridge
  repeat' (first | (exact State.smCmd_only_some (by assumption) (by with_reducible assumption) (Foot.le_trans (by decide) hF)) | with_reducible assumption | ((with_reducible refine Foot.le_trans ?_ hF); decide) | ((with_reducible refine Foot.has_of_le hF ?_); (first | decide | (dsimp only; decide))) | ((with_reducible refine Foot.parts_of_le hF ?_); decide) | (with_reducible first | apply State.Only.ite | apply State.smCmd_only | apply State.Only.getD) | (intro _))

theorem State.peerFails_only {g : Foot} {a s : State} (h : a.Only g s) (l : Lane)
    (hF : Foot.le ⟨[.hv, .red, .trc, .dcl, .loopReq], [0x10, 0x11, 0x40], false⟩ g = true) :
    a.Only g (State.peerFails s l) := by
  unfold State.peerFails
  repeat' (first | with_reducible assumption | ((with_reducible refine Foot.le_trans ?_ hF); decide) | ((with_reducible refine Foot.has_of_le hF ?_); (first | decide | (dsimp only; decide))) | ((with_reducible refine Foot.parts_of_le hF ?_); decide) | (exact ⟨by decide, by decide⟩) | lift_lets -underBinder | (intro x; have hx : a.Only g x := (by repeat' (first | with_reducible assumption | ((with_reducible refine Foot.le_trans ?_ hF); decide) | ((with_reducible refine Foot.has_of_le hF ?_); (first | decide | (dsimp only; decide))) | ((with_reducible refine Foot.parts_of_le hF ?_); decide) | (exact ⟨by decide, by decide⟩) | lift_lets -underBinder | (with_reducible first | apply State.Only.ite | apply State.Only.bump | apply State.Only.dcl | apply State.Only.levelEv | apply State.Only.put | apply State.Only.putFlag | apply State.Only.putWord | apply State.Only.red | apply State.standbyBridge_only) | (first | split | (dsimp only [x]; split)) | (intro _))); clear_value x) | (intro x; clear_value x) | (with_reducible first | apply State.Only.ite | apply State.Only.bump | apply State.Only.dcl | apply State.Only.levelEv | apply State.Only.put | apply State.Only.putFlag | apply State.Only.putWord | apply State.Only.red | apply State.standbyBridge_only) | split | (intro _))

theorem State.linkDown_only {g : Foot} {a s : State} (h : a.Only g s) (l : Lane)
    (hF : Foot.le ⟨[.hv, .aon, .mon, .sess, .red, .chg, .loopReq], [0x02, 0x10, 0x11, 0x30, 0x31, 0x32, 0x33, 0x40, 0x41, 0x50], false⟩ g = true) :
    a.Only g (State.linkDown s l) := by
  unfold State.linkDown
  repeat' (first | with_reducible assumption | ((with_reducible refine Foot.le_trans ?_ hF); decide) | ((with_reducible refine Foot.has_of_le hF ?_); (first | decide | (dsimp only; decide))) | ((with_reducible refine Foot.parts_of_le hF ?_); decide) | (exact ⟨by decide, by decide⟩) | (intro x p hp; cases p <;> first | rfl | trivial | exact absurd (Foot.parts_of_le hF (by decide)) hp) | (exact Or.inr (fun _ => rfl)) | lift_lets -underBinder | (intro x; have hx : a.Only g x := (by repeat' (first | with_reducible assumption | ((with_reducible refine Foot.le_trans ?_ hF); decide) | ((with_reducible refine Foot.has_of_le hF ?_); (first | decide | (dsimp only; decide))) | ((with_reducible refine Foot.parts_of_le hF ?_); decide) | (exact ⟨by decide, by decide⟩) | (intro x p hp; cases p <;> first | rfl | trivial | exact absurd (Foot.parts_of_le hF (by decide)) hp) | (exact Or.inr (fun _ => rfl)) | lift_lets -underBinder | (with_reducible first | apply State.Only.ite | apply State.Only.lane | apply State.Only.levelEv | apply State.Only.putFlag | apply State.Only.red | apply State.chgFault_only | apply State.lockLost_only) | (first | split | (dsimp only [x]; split)) | (intro _))); clear_value x) | (intro x; clear_value x) | (with_reducible first | apply State.Only.ite | apply State.Only.lane | apply State.Only.levelEv | apply State.Only.putFlag | apply State.Only.red | apply State.chgFault_only | apply State.lockLost_only) | split | (intro _))

theorem State.split_only {g : Foot} {a s : State} (h : a.Only g s) (l : Lane)
    (hF : Foot.le ⟨[.red], [0x40], false⟩ g = true) :
    a.Only g (State.split s l) := by
  unfold State.split
  repeat' (first | with_reducible assumption | ((with_reducible refine Foot.le_trans ?_ hF); decide) | ((with_reducible refine Foot.has_of_le hF ?_); (first | decide | (dsimp only; decide))) | ((with_reducible refine Foot.parts_of_le hF ?_); decide) | (exact ⟨by decide, by decide⟩) | lift_lets -underBinder | (intro x; have hx : a.Only g x := (by repeat' (first | with_reducible assumption | ((with_reducible refine Foot.le_trans ?_ hF); decide) | ((with_reducible refine Foot.has_of_le hF ?_); (first | decide | (dsimp only; decide))) | ((with_reducible refine Foot.parts_of_le hF ?_); decide) | (exact ⟨by decide, by decide⟩) | lift_lets -underBinder | (with_reducible first | apply State.Only.ite | apply State.Only.levelEv | apply State.Only.put | apply State.Only.putFlag | apply State.Only.red) | (intro _))); clear_value x) | (intro x; clear_value x) | (with_reducible first | apply State.Only.ite | apply State.Only.levelEv | apply State.Only.put | apply State.Only.putFlag | apply State.Only.red) | (intro _))

theorem State.splitEnd_only {g : Foot} {a s : State} (h : a.Only g s) (l : Lane)
    (hF : Foot.le ⟨[], [0x40], false⟩ g = true) :
    a.Only g (State.splitEnd s l) := by
  unfold State.splitEnd
  repeat' (first | with_reducible assumption | ((with_reducible refine Foot.le_trans ?_ hF); decide) | ((with_reducible refine Foot.has_of_le hF ?_); (first | decide | (dsimp only; decide))) | ((with_reducible refine Foot.parts_of_le hF ?_); decide) | (exact ⟨by decide, by decide⟩) | lift_lets -underBinder | (intro x; have hx : a.Only g x := (by repeat' (first | with_reducible assumption | ((with_reducible refine Foot.le_trans ?_ hF); decide) | ((with_reducible refine Foot.has_of_le hF ?_); (first | decide | (dsimp only; decide))) | ((with_reducible refine Foot.parts_of_le hF ?_); decide) | (exact ⟨by decide, by decide⟩) | lift_lets -underBinder | (with_reducible first | apply State.Only.levelEv | apply State.Only.pulseEv | apply State.Only.put | apply State.Only.putFlag) | (intro _))); clear_value x) | (intro x; clear_value x) | (with_reducible first | apply State.Only.levelEv | apply State.Only.pulseEv | apply State.Only.put | apply State.Only.putFlag) | (intro _))

theorem execStateCopy_only {g : Foot} {a s : State} (h : a.Only g s) (l : Lane) (c : StateCopy) (crcOk : Bool)
    (hF : Foot.le ⟨[.hv, .aon, .mon, .sess, .red, .chg, .act, .loopReq], [0x02, 0x10, 0x11, 0x30, 0x31, 0x32, 0x33, 0x34, 0x40, 0x41, 0x50], false⟩ g = true) :
    OutOnly g a (execStateCopy l c crcOk s) := by
  unfold execStateCopy
  repeat' (first | with_reducible assumption | ((with_reducible refine Foot.le_trans ?_ hF); decide) | ((with_reducible refine Foot.has_of_le hF ?_); (first | (simp (disch := first | omega | decide) only [F.ACT_POS_POS_has]; done) | decide | (dsimp only; decide))) | ((with_reducible refine Foot.parts_of_le hF ?_); decide) | (exact ⟨by decide, by decide⟩) | lift_lets -underBinder | (intro x; have hx : a.Only g x := (by repeat' (first | with_reducible assumption | ((with_reducible refine Foot.le_trans ?_ hF); decide) | ((with_reducible refine Foot.has_of_le hF ?_); (first | (simp (disch := first | omega | decide) only [F.ACT_POS_POS_has]; done) | decide | (dsimp only; decide))) | ((with_reducible refine Foot.parts_of_le hF ?_); decide) | (exact ⟨by decide, by decide⟩) | lift_lets -underBinder | (with_reducible first | apply State.Only.ite | apply State.Only.act | apply State.Only.bump | apply State.Only.done | apply State.Only.fold | apply State.Only.pulseEv | apply State.Only.put | apply State.Only.putFlag | apply State.Only.putWord | apply State.Only.red | apply State.linkDown_only) | (first | split | (dsimp only [x]; split)) | (intro _))); clear_value x) | (intro x; clear_value x) | (with_reducible first | apply State.Only.ite | apply State.Only.act | apply State.Only.bump | apply State.Only.done | apply State.Only.fold | apply State.Only.pulseEv | apply State.Only.put | apply State.Only.putFlag | apply State.Only.putWord | apply State.Only.red | apply State.linkDown_only) | split | (intro _))

theorem State.hbMon_only {g : Foot} {a s : State} (h : a.Only g s) (x : Lane) (h' : Heartbeat)
    (hF : Foot.le ⟨[.hv, .lv, .aon, .mon, .red, .saf, .trc, .loopReq], [0x10, 0x11, 0x40, 0x50, 0x80], false⟩ g = true) :
    a.Only g (State.hbMon s x h') := by
  unfold State.hbMon
  repeat' (first | with_reducible assumption | ((with_reducible refine Foot.le_trans ?_ hF); decide) | ((with_reducible refine Foot.has_of_le hF ?_); (first | decide | (dsimp only; decide))) | ((with_reducible refine Foot.parts_of_le hF ?_); decide) | (exact ⟨by decide, by decide⟩) | (exact Or.inr (fun _ => rfl)) | lift_lets -underBinder | (intro x; have hx : a.Only g x := (by repeat' (first | with_reducible assumption | ((with_reducible refine Foot.le_trans ?_ hF); decide) | ((with_reducible refine Foot.has_of_le hF ?_); (first | decide | (dsimp only; decide))) | ((with_reducible refine Foot.parts_of_le hF ?_); decide) | (exact ⟨by decide, by decide⟩) | (exact Or.inr (fun _ => rfl)) | lift_lets -underBinder | (with_reducible first | apply State.Only.ite | apply State.Only.mon | apply State.Only.monLevel | apply State.Only.mputFlag | apply State.declare_only | apply State.limitCheck_only | apply State.pgCheck_only) | (first | split | (dsimp only [x]; split)) | (intro _))); clear_value x) | (intro x; clear_value x) | (with_reducible first | apply State.Only.ite | apply State.Only.mon | apply State.Only.monLevel | apply State.Only.mputFlag | apply State.declare_only | apply State.limitCheck_only | apply State.pgCheck_only) | split | (intro _))

theorem State.hbDirectIn_only {g : Foot} {a s : State} (h : a.Only g s) (l : Lane) (h' : Heartbeat) (crcOk : Bool)
    (hF : Foot.le ⟨[.hv, .aon, .mon, .sess, .red, .chg, .loopReq], [0x02, 0x10, 0x11, 0x30, 0x31, 0x32, 0x33, 0x40, 0x41, 0x50], false⟩ g = true) :
    a.Only g (State.hbDirectIn s l h' crcOk) := by
  unfold State.hbDirectIn
  repeat' (first | with_reducible assumption | ((with_reducible refine Foot.le_trans ?_ hF); decide) | ((with_reducible refine Foot.has_of_le hF ?_); (first | decide | (dsimp only; decide))) | ((with_reducible refine Foot.parts_of_le hF ?_); decide) | (exact ⟨by decide, by decide⟩) | lift_lets -underBinder | (intro x; have hx : a.Only g x := (by repeat' (first | with_reducible assumption | ((with_reducible refine Foot.le_trans ?_ hF); decide) | ((with_reducible refine Foot.has_of_le hF ?_); (first | decide | (dsimp only; decide))) | ((with_reducible refine Foot.parts_of_le hF ?_); decide) | (exact ⟨by decide, by decide⟩) | lift_lets -underBinder | (with_reducible first | apply State.Only.ite | apply State.Only.bump | apply State.Only.pulseEv | apply State.Only.put | apply State.Only.red | apply State.linkDown_only) | (intro _))); clear_value x) | (intro x; clear_value x) | (with_reducible first | apply State.Only.ite | apply State.Only.bump | apply State.Only.pulseEv | apply State.Only.put | apply State.Only.red | apply State.linkDown_only) | (intro _))

theorem execHeartbeat_only {g : Foot} {a s : State} (h : a.Only g s) (p : HbPath) (h' : Heartbeat) (crcOk : Bool)
    (hF : Foot.le ⟨[.hv, .lv, .aon, .mon, .sess, .red, .saf, .trc, .chg, .loopReq], [0x02, 0x10, 0x11, 0x30, 0x31, 0x32, 0x33, 0x40, 0x41, 0x50, 0x80], false⟩ g = true) :
    OutOnly g a (execHeartbeat p h' crcOk s) := by
  unfold execHeartbeat
  repeat' (first | with_reducible assumption | ((with_reducible refine Foot.le_trans ?_ hF); decide) | ((with_reducible refine Foot.has_of_le hF ?_); (first | decide | (dsimp only; decide))) | ((with_reducible refine Foot.parts_of_le hF ?_); decide) | (with_reducible first | apply State.Only.ite | apply State.Only.done | apply State.Only.red | apply State.hbDirectIn_only | apply State.hbMon_only) | split | (intro _))

theorem State.relayBack_only {g : Foot} {a s : State} (h : a.Only g s) (l : Lane)
    (hF : Foot.le ⟨[.red, .saf], [0x11, 0x40], false⟩ g = true) :
    a.Only g (State.relayBack s l) := by
  unfold State.relayBack
  repeat' (first | with_reducible assumption | ((with_reducible refine Foot.le_trans ?_ hF); decide) | ((with_reducible refine Foot.has_of_le hF ?_); (first | decide | (dsimp only; decide))) | ((with_reducible refine Foot.parts_of_le hF ?_); decide) | (exact ⟨by decide, by decide⟩) | lift_lets -underBinder | (intro x; have hx : a.Only g x := (by repeat' (first | with_reducible assumption | ((with_reducible refine Foot.le_trans ?_ hF); decide) | ((with_reducible refine Foot.has_of_le hF ?_); (first | decide | (dsimp only; decide))) | ((with_reducible refine Foot.parts_of_le hF ?_); decide) | (exact ⟨by decide, by decide⟩) | lift_lets -underBinder | (with_reducible first | apply State.Only.ite | apply State.Only.levelEv | apply State.Only.putFlag | apply State.Only.red | apply State.askSto_only | apply State.showSel_only) | (first | split | (dsimp only [x]; split)) | (intro _))); clear_value x) | (intro x; clear_value x) | (with_reducible first | apply State.Only.ite | apply State.Only.levelEv | apply State.Only.putFlag | apply State.Only.red | apply State.askSto_only | apply State.showSel_only) | split | (intro _))

theorem execRelayFrame_only {g : Foot} {a s : State} (h : a.Only g s) (l : Lane)
    (hF : Foot.le ⟨[.hv, .red, .saf, .trc, .dcl, .loopReq], [0x10, 0x11, 0x40], false⟩ g = true) :
    OutOnly g a (execRelayFrame l s) := by
  unfold execRelayFrame
  repeat' (first | with_reducible assumption | ((with_reducible refine Foot.le_trans ?_ hF); decide) | ((with_reducible refine Foot.has_of_le hF ?_); (first | decide | (dsimp only; decide))) | ((with_reducible refine Foot.parts_of_le hF ?_); decide) | lift_lets -underBinder | (intro x; have hx : a.Only g x := (by repeat' (first | with_reducible assumption | ((with_reducible refine Foot.le_trans ?_ hF); decide) | ((with_reducible refine Foot.has_of_le hF ?_); (first | decide | (dsimp only; decide))) | ((with_reducible refine Foot.parts_of_le hF ?_); decide) | lift_lets -underBinder | (with_reducible first | apply State.Only.ite | apply State.Only.done | apply State.Only.red | apply State.peerFails_only | apply State.relayBack_only | apply State.selfFail_only) | (first | split | (dsimp only [x]; split)) | (intro _))); clear_value x) | (intro x; clear_value x) | (with_reducible first | apply State.Only.ite | apply State.Only.done | apply State.Only.red | apply State.peerFails_only | apply State.relayBack_only | apply State.selfFail_only) | split | (intro _))

theorem State.laneWindow_only {g : Foot} {a s : State} (h : a.Only g s) (l : Lane)
    (hF : Foot.le ⟨[.hv, .aon, .mon, .sess, .red, .trc, .dcl, .chg, .loopReq], [0x02, 0x10, 0x11, 0x30, 0x31, 0x32, 0x33, 0x40, 0x41, 0x50], false⟩ g = true) :
    a.Only g (State.laneWindow s l) := by
  unfold State.laneWindow
  repeat' (first | with_reducible assumption | ((with_reducible refine Foot.le_trans ?_ hF); decide) | ((with_reducible refine Foot.has_of_le hF ?_); (first | decide | (dsimp only; decide))) | ((with_reducible refine Foot.parts_of_le hF ?_); decide) | (exact ⟨by decide, by decide⟩) | lift_lets -underBinder | (intro x; have hx : a.Only g x := (by repeat' (first | with_reducible assumption | ((with_reducible refine Foot.le_trans ?_ hF); decide) | ((with_reducible refine Foot.has_of_le hF ?_); (first | decide | (dsimp only; decide))) | ((with_reducible refine Foot.parts_of_le hF ?_); decide) | (exact ⟨by decide, by decide⟩) | lift_lets -underBinder | (with_reducible first | apply State.Only.ite | apply State.Only.bump | apply State.Only.levelEv | apply State.Only.pulseEv | apply State.Only.putFlag | apply State.Only.red | apply State.linkDown_only | apply State.peerFails_only | apply State.splitEnd_only | apply State.split_only) | (first | split | (dsimp only [x]; split)) | (intro _))); clear_value x) | (intro x; clear_value x) | (with_reducible first | apply State.Only.ite | apply State.Only.bump | apply State.Only.levelEv | apply State.Only.pulseEv | apply State.Only.putFlag | apply State.Only.red | apply State.linkDown_only | apply State.peerFails_only | apply State.splitEnd_only | apply State.split_only) | split | (intro _))

theorem State.monWindow_only {g : Foot} {a s : State} (h : a.Only g s) (x : Lane)
    (hF : Foot.le ⟨[.hv, .lv, .aon, .mon, .red, .trc, .loopReq], [0x10, 0x11, 0x40, 0x50, 0x80], false⟩ g = true) :
    a.Only g (State.monWindow s x) := by
  unfold State.monWindow
  repeat' (first | with_reducible assumption | ((with_reducible refine Foot.le_trans ?_ hF); decide) | ((with_reducible refine Foot.has_of_le hF ?_); (first | decide | (dsimp only; decide))) | ((with_reducible refine Foot.parts_of_le hF ?_); decide) | (exact ⟨by decide, by decide⟩) | (exact Or.inr (fun _ => rfl)) | lift_lets -underBinder | (intro x; have hx : a.Only g x := (by repeat' (first | with_reducible assumption | ((with_reducible refine Foot.le_trans ?_ hF); decide) | ((with_reducible refine Foot.has_of_le hF ?_); (first | decide | (dsimp only; decide))) | ((with_reducible refine Foot.parts_of_le hF ?_); decide) | (exact ⟨by decide, by decide⟩) | (exact Or.inr (fun _ => rfl)) | lift_lets -underBinder | (with_reducible first | apply State.Only.ite | apply State.Only.mon | apply State.Only.monEv | apply State.Only.monLevel | apply State.Only.mputFlag | apply State.declare_only | apply State.holdSet_only | apply State.pgCheck_only | apply State.placeSet_only | apply State.publish_only) | (first | split | (dsimp only [x]; split)) | (intro _))); clear_value x) | (intro x; clear_value x) | (with_reducible first | apply State.Only.ite | apply State.Only.mon | apply State.Only.monEv | apply State.Only.monLevel | apply State.Only.mputFlag | apply State.declare_only | apply State.holdSet_only | apply State.pgCheck_only | apply State.placeSet_only | apply State.publish_only) | split | (intro _))

theorem execHeartbeatWindow_only {g : Foot} {a s : State} (h : a.Only g s) (w : Seer) (x : Lane)
    (hF : Foot.le ⟨[.hv, .lv, .aon, .mon, .sess, .red, .trc, .dcl, .chg, .loopReq], [0x02, 0x10, 0x11, 0x30, 0x31, 0x32, 0x33, 0x40, 0x41, 0x50, 0x80], false⟩ g = true) :
    OutOnly g a (execHeartbeatWindow w x s) := by
  unfold execHeartbeatWindow
  repeat' (first | with_reducible assumption | ((with_reducible refine Foot.le_trans ?_ hF); decide) | ((with_reducible refine Foot.has_of_le hF ?_); (first | decide | (dsimp only; decide))) | ((with_reducible refine Foot.parts_of_le hF ?_); decide) | (with_reducible first | apply State.Only.done | apply State.laneWindow_only | apply State.monWindow_only) | split | (intro _))

theorem execSplitTimeout_only {g : Foot} {a s : State} (h : a.Only g s) (l : Lane)
    (hF : Foot.le ⟨[.hv, .free, .red, .saf, .trc, .loopReq], [0x10, 0x11, 0x40, 0x50], false⟩ g = true) :
    OutOnly g a (execSplitTimeout l s) := by
  unfold execSplitTimeout
  repeat' (first | with_reducible assumption | ((with_reducible refine Foot.le_trans ?_ hF); decide) | ((with_reducible refine Foot.has_of_le hF ?_); (first | decide | (dsimp only; decide))) | ((with_reducible refine Foot.parts_of_le hF ?_); decide) | (exact ⟨by decide, by decide⟩) | lift_lets -underBinder | (intro x; have hx : a.Only g x := (by repeat' (first | with_reducible assumption | ((with_reducible refine Foot.le_trans ?_ hF); decide) | ((with_reducible refine Foot.has_of_le hF ?_); (first | decide | (dsimp only; decide))) | ((with_reducible refine Foot.parts_of_le hF ?_); decide) | (exact ⟨by decide, by decide⟩) | lift_lets -underBinder | (with_reducible first | apply State.Only.ite | apply State.Only.done | apply State.Only.fresh | apply State.Only.pulseEv | apply State.Only.put | apply State.ownSs1Start_only) | (first | split | (dsimp only [x]; split)) | (intro _))); clear_value x) | (intro x; clear_value x) | (with_reducible first | apply State.Only.ite | apply State.Only.done | apply State.Only.fresh | apply State.Only.pulseEv | apply State.Only.put | apply State.ownSs1Start_only) | split | (intro _))

theorem execAutoReset_only {g : Foot} {a s : State} (h : a.Only g s) (x : Lane)
    (hF : Foot.le ⟨[.hv, .lv, .aon, .ofs, .mon, .hold, .boot, .mem, .flash, .shadows, .waiting, .timedHalves, .sess, .answer, .red, .saf, .cls, .trc, .eng, .fbk, .smp, .dcl, .chg, .act, .can, .ring, .bulkLast, .dup, .loopReq, .scrub, .legEvents], [], true⟩ g = true) :
    OutOnly g a (execAutoReset x s) := by
  unfold execAutoReset
  repeat' (first | with_reducible assumption | ((with_reducible refine Foot.le_trans ?_ hF); decide) | ((with_reducible refine Foot.has_of_le hF ?_); (first | decide | (dsimp only; decide))) | ((with_reducible refine Foot.parts_of_le hF ?_); decide) | (exact ⟨by decide, by decide⟩) | (exact Or.inr (fun _ => rfl)) | (with_reducible exact Foot.has_of_any hF rfl) | (with_reducible exact Or.inl (Foot.any_of_le hF rfl)) | lift_lets -underBinder | (intro x; have hx : a.Only g x := (by repeat' (first | with_reducible assumption | ((with_reducible refine Foot.le_trans ?_ hF); decide) | ((with_reducible refine Foot.has_of_le hF ?_); (first | decide | (dsimp only; decide))) | ((with_reducible refine Foot.parts_of_le hF ?_); decide) | (exact ⟨by decide, by decide⟩) | (exact Or.inr (fun _ => rfl)) | (with_reducible exact Foot.has_of_any hF rfl) | (with_reducible exact Or.inl (Foot.any_of_le hF rfl)) | lift_lets -underBinder | (with_reducible first | apply State.Only.ite | apply State.Only.done | apply State.Only.mon | apply State.Only.monEv | apply State.Only.mputFlag | apply State.enterReset_only) | (first | split | (dsimp only [x]; split)) | (intro _))); clear_value x) | (intro x; clear_value x) | (with_reducible first | apply State.Only.ite | apply State.Only.done | apply State.Only.mon | apply State.Only.monEv | apply State.Only.mputFlag | apply State.enterReset_only) | split | (intro _))

theorem State.unretire_only {g : Foot} {a s : State} (h : a.Only g s) (l : Lane) (x : Lane)
    (hF : Foot.le ⟨[.hold, .boot, .answer], [0x80], false⟩ g = true) :
    a.Only g (State.unretire s l x) := by
  unfold State.unretire
  repeat' (first | with_reducible assumption | ((with_reducible refine Foot.le_trans ?_ hF); decide) | ((with_reducible refine Foot.has_of_le hF ?_); (first | decide | (dsimp only; decide))) | ((with_reducible refine Foot.parts_of_le hF ?_); decide) | lift_lets -underBinder | (intro x; have hx : a.Only g x := (by repeat' (first | with_reducible assumption | ((with_reducible refine Foot.le_trans ?_ hF); decide) | ((with_reducible refine Foot.has_of_le hF ?_); (first | decide | (dsimp only; decide))) | ((with_reducible refine Foot.parts_of_le hF ?_); decide) | lift_lets -underBinder | (with_reducible first | apply State.Only.ite | apply State.Only.hold | apply State.Only.mputFlag | apply State.reject_only | apply State.release_only | apply State.reply_only) | (first | split | (dsimp only [x]; split)) | (intro _))); clear_value x) | (intro x; clear_value x) | (with_reducible first | apply State.Only.ite | apply State.Only.hold | apply State.Only.mputFlag | apply State.reject_only | apply State.release_only | apply State.reply_only) | split | (intro _))

theorem execUnretireA_only {g : Foot} {a s : State} (h : a.Only g s) (l : Lane)
    (hF : Foot.le ⟨[.hold, .boot, .answer], [0x80], false⟩ g = true) :
    OutOnly g a (execUnretireA l s) := by
  unfold execUnretireA
  repeat' (first | with_reducible assumption | ((with_reducible refine Foot.le_trans ?_ hF); decide) | ((with_reducible refine Foot.has_of_le hF ?_); (first | decide | (dsimp only; decide))) | ((with_reducible refine Foot.parts_of_le hF ?_); decide) | (with_reducible first | apply State.Only.done | apply State.unretire_only | apply State.writing_only) | (intro _))

theorem execUnretireB_only {g : Foot} {a s : State} (h : a.Only g s) (l : Lane)
    (hF : Foot.le ⟨[.hold, .boot, .answer], [0x80], false⟩ g = true) :
    OutOnly g a (execUnretireB l s) := by
  unfold execUnretireB
  repeat' (first | with_reducible assumption | ((with_reducible refine Foot.le_trans ?_ hF); decide) | ((with_reducible refine Foot.has_of_le hF ?_); (first | decide | (dsimp only; decide))) | ((with_reducible refine Foot.parts_of_le hF ?_); decide) | (with_reducible first | apply State.Only.done | apply State.unretire_only | apply State.writing_only) | (intro _))

theorem State.showJournal_only {g : Foot} {a s : State} (h : a.Only g s) (l : Lane)
    (hF : Foot.le ⟨[], [0x40], false⟩ g = true) :
    a.Only g (State.showJournal s l) := by
  unfold State.showJournal
  repeat' (first | with_reducible assumption | ((with_reducible refine Foot.le_trans ?_ hF); decide) | ((with_reducible refine Foot.has_of_le hF ?_); (first | decide | (dsimp only; decide))) | ((with_reducible refine Foot.parts_of_le hF ?_); decide) | (with_reducible first | apply State.Only.put) | (intro _))

theorem State.showSeq_only {g : Foot} {a s : State} (h : a.Only g s) (l : Lane)
    (hF : Foot.le ⟨[], [0x40], false⟩ g = true) :
    a.Only g (State.showSeq s l) := by
  unfold State.showSeq
  repeat' (first | with_reducible assumption | ((with_reducible refine Foot.le_trans ?_ hF); decide) | ((with_reducible refine Foot.has_of_le hF ?_); (first | decide | (dsimp only; decide))) | ((with_reducible refine Foot.parts_of_le hF ?_); decide) | lift_lets -underBinder | (intro x; have hx : a.Only g x := (by repeat' (first | with_reducible assumption | ((with_reducible refine Foot.le_trans ?_ hF); decide) | ((with_reducible refine Foot.has_of_le hF ?_); (first | decide | (dsimp only; decide))) | ((with_reducible refine Foot.parts_of_le hF ?_); decide) | lift_lets -underBinder | (with_reducible first | apply State.Only.put) | (intro _))); clear_value x) | (intro x; dsimp -zeta only [x]; clear x) | (intro x; clear_value x) | (with_reducible first | apply State.Only.put) | (intro _))

theorem State.accept_only {g : Foot} {a s : State} (h : a.Only g s) (l : Lane) (k : Fin 4) (n : BitVec 16) (st : Status)
    (hF : Foot.le ⟨[.sess], [0x40], false⟩ g = true) :
    a.Only g (State.accept s l k n st) := by
  unfold State.accept
  repeat' (first | with_reducible assumption | ((with_reducible refine Foot.le_trans ?_ hF); decide) | ((with_reducible refine Foot.has_of_le hF ?_); (first | decide | (dsimp only; decide))) | ((with_reducible refine Foot.parts_of_le hF ?_); decide) | (intro x p hp; cases p <;> first | rfl | trivial | exact absurd (Foot.parts_of_le hF (by decide)) hp) | (exact Or.inr (fun _ => rfl)) | lift_lets -underBinder | (intro x; have hx : a.Only g x := (by repeat' (first | with_reducible assumption | ((with_reducible refine Foot.le_trans ?_ hF); decide) | ((with_reducible refine Foot.has_of_le hF ?_); (first | decide | (dsimp only; decide))) | ((with_reducible refine Foot.parts_of_le hF ?_); decide) | (intro x p hp; cases p <;> first | rfl | trivial | exact absurd (Foot.parts_of_le hF (by decide)) hp) | (exact Or.inr (fun _ => rfl)) | lift_lets -underBinder | (with_reducible first | apply State.Only.ite | apply State.Only.lane | apply State.showSeq_only) | (intro _))); clear_value x) | (intro x; clear_value x) | (with_reducible first | apply State.Only.ite | apply State.Only.lane | apply State.showSeq_only) | (intro _))

theorem State.journalIn_only {g : Foot} {a s : State} (h : a.Only g s) (l : Lane) (e : JEntry)
    (hF : Foot.le ⟨[.hv, .lv, .sns, .aon, .mon, .sess, .red, .saf, .cls, .trc, .smp, .dcl, .chg, .loopReq], [0x10, 0x11, 0x22, 0x30, 0x31, 0x32, 0x33, 0x34, 0x40, 0x50, 0x51, 0x80], false⟩ g = true) :
    a.Only g (State.journalIn s l e) := by
  unfold State.journalIn
  repeat' (first | with_reducible assumption | ((with_reducible refine Foot.le_trans ?_ hF); decide) | ((with_reducible refine Foot.has_of_le hF ?_); (first | decide | (dsimp only; decide))) | ((with_reducible refine Foot.parts_of_le hF ?_); decide) | (with_reducible first | apply State.Only.ite | apply State.Only.red | apply State.accept_only | apply State.showJournal_only) | split | (intro _))

theorem execJournalEntry_only {g : Foot} {a s : State} (h : a.Only g s) (l : Lane) (e : JEntry)
    (hF : Foot.le ⟨[.hv, .lv, .sns, .aon, .mon, .sess, .red, .saf, .cls, .trc, .smp, .dcl, .chg, .loopReq], [0x10, 0x11, 0x22, 0x30, 0x31, 0x32, 0x33, 0x34, 0x40, 0x50, 0x51, 0x80], false⟩ g = true) :
    OutOnly g a (execJournalEntry l e s) := by
  unfold execJournalEntry
  repeat' (first | with_reducible assumption | ((with_reducible refine Foot.le_trans ?_ hF); decide) | ((with_reducible refine Foot.has_of_le hF ?_); (first | decide | (dsimp only; decide))) | ((with_reducible refine Foot.parts_of_le hF ?_); decide) | (with_reducible first | apply State.Only.ite | apply State.Only.done | apply State.journalIn_only) | split | (intro _))

theorem execLinkRetrain_only {g : Foot} {a s : State} (h : a.Only g s) (l : Lane) (ok : Bool)
    (hF : Foot.le ⟨[], [0x41], false⟩ g = true) :
    OutOnly g a (execLinkRetrain l ok s) := by
  unfold execLinkRetrain
  repeat' (first | with_reducible assumption | ((with_reducible refine Foot.le_trans ?_ hF); decide) | ((with_reducible refine Foot.has_of_le hF ?_); (first | decide | (dsimp only; decide))) | ((with_reducible refine Foot.parts_of_le hF ?_); decide) | lift_lets -underBinder | (intro x; have hx : a.Only g x := (by repeat' (first | with_reducible assumption | ((with_reducible refine Foot.le_trans ?_ hF); decide) | ((with_reducible refine Foot.has_of_le hF ?_); (first | decide | (dsimp only; decide))) | ((with_reducible refine Foot.parts_of_le hF ?_); decide) | lift_lets -underBinder | (with_reducible first | apply State.Only.ite | apply State.Only.bump | apply State.Only.done | apply State.Only.putFlag) | (first | split | (dsimp only [x]; split)) | (intro _))); clear_value x) | (intro x; clear_value x) | (with_reducible first | apply State.Only.ite | apply State.Only.bump | apply State.Only.done | apply State.Only.putFlag) | split | (intro _))

theorem State.showImage_only {g : Foot} {a s : State} (h : a.Only g s) (l : Lane)
    (hF : Foot.le ⟨[], [0x40], false⟩ g = true) :
    a.Only g (State.showImage s l) := by
  unfold State.showImage
  repeat' (first | with_reducible assumption | ((with_reducible refine Foot.le_trans ?_ hF); decide) | ((with_reducible refine Foot.has_of_le hF ?_); (first | decide | (dsimp only; decide))) | ((with_reducible refine Foot.parts_of_le hF ?_); decide) | (with_reducible first | apply State.Only.putFlag) | split | (intro _))

theorem State.setMismatch_only {g : Foot} {a s : State} (h : a.Only g s) (l : Lane) (b : Bool)
    (hF : Foot.le ⟨[.boot], [0x40], false⟩ g = true) :
    a.Only g (State.setMismatch s l b) := by
  unfold State.setMismatch
  repeat' (first | with_reducible assumption | ((with_reducible refine Foot.le_trans ?_ hF); decide) | ((with_reducible refine Foot.has_of_le hF ?_); (first | decide | (dsimp only; decide))) | ((with_reducible refine Foot.parts_of_le hF ?_); decide) | (exact ⟨by decide, by decide⟩) | (with_reducible first | apply State.Only.boot | apply State.Only.levelEv | apply State.showImage_only) | (intro _))

theorem State.compareImages_only {g : Foot} {a s : State} (h : a.Only g s)
    (hF : Foot.le ⟨[.boot], [0x07, 0x10, 0x40], false⟩ g = true) :
    a.Only g (State.compareImages s) := by
  unfold State.compareImages
  repeat' (first | with_reducible assumption | ((with_reducible refine Foot.le_trans ?_ hF); decide) | ((with_reducible refine Foot.has_of_le hF ?_); (first | decide | (dsimp only; decide))) | ((with_reducible refine Foot.parts_of_le hF ?_); decide) | lift_lets -underBinder | (intro x; have hx : a.Only g x := (by repeat' (first | with_reducible assumption | ((with_reducible refine Foot.le_trans ?_ hF); decide) | ((with_reducible refine Foot.has_of_le hF ?_); (first | decide | (dsimp only; decide))) | ((with_reducible refine Foot.parts_of_le hF ?_); decide) | lift_lets -underBinder | (with_reducible first | apply State.Only.ite | apply State.Only.both | apply State.Only.putFlag | apply State.pairMatch_only | apply State.setMismatch_only | apply State.showImage_only) | (first | split | (dsimp only [x]; split)) | (intro _))); clear_value x) | (intro x; clear_value x) | (with_reducible first | apply State.Only.ite | apply State.Only.both | apply State.Only.putFlag | apply State.pairMatch_only | apply State.setMismatch_only | apply State.showImage_only) | split | (intro _))

theorem execLinkUp_only {g : Foot} {a s : State} (h : a.Only g s) (l : Lane)
    (hF : Foot.le ⟨[.boot, .red], [0x07, 0x10, 0x40, 0x41], false⟩ g = true) :
    OutOnly g a (execLinkUp l s) := by
  unfold execLinkUp
  repeat' (first | with_reducible assumption | ((with_reducible refine Foot.le_trans ?_ hF); decide) | ((with_reducible refine Foot.has_of_le hF ?_); (first | decide | (dsimp only; decide))) | ((with_reducible refine Foot.parts_of_le hF ?_); decide) | (exact ⟨by decide, by decide⟩) | lift_lets -underBinder | (intro x; have hx : a.Only g x := (by repeat' (first | with_reducible assumption | ((with_reducible refine Foot.le_trans ?_ hF); decide) | ((with_reducible refine Foot.has_of_le hF ?_); (first | decide | (dsimp only; decide))) | ((with_reducible refine Foot.parts_of_le hF ?_); decide) | (exact ⟨by decide, by decide⟩) | lift_lets -underBinder | (with_reducible first | apply State.Only.ite | apply State.Only.done | apply State.Only.levelEv | apply State.Only.pulseEv | apply State.Only.putFlag | apply State.Only.red | apply State.compareImages_only) | (first | split | (dsimp only [x]; split)) | (intro _))); clear_value x) | (intro x; clear_value x) | (with_reducible first | apply State.Only.ite | apply State.Only.done | apply State.Only.levelEv | apply State.Only.pulseEv | apply State.Only.putFlag | apply State.Only.red | apply State.compareImages_only) | split | (intro _))

theorem State.countRunning_only {g : Foot} {a s : State} (h : a.Only g s) (x : Lane) (free : Bool) (hF : Foot.le ⟨[.hv, .mon, .red], [0x40, 0x50, 0x80], false⟩ g = true) :
    a.Only g (State.countRunning s x free) := by
  unfold State.countRunning
  lift_lets -underBinder
  intro s1
  have h1 : a.Only g s1 := by
    refine State.Only.mon h _ (Foot.parts_of_le hF (by decide)) (Or.inr (fun m => ?_))
    split <;> rfl
  clear_value s1
  repeat' (first | with_reducible assumption | ((with_reducible refine Foot.le_trans ?_ hF); decide) | ((with_reducible refine Foot.has_of_le hF ?_); decide) | ((with_reducible refine Foot.parts_of_le hF ?_); decide) | (exact ⟨by decide, by decide⟩) | (intro y; have hy : a.Only g y := (by dsimp only [y]; repeat' (first | with_reducible assumption | ((with_reducible refine Foot.has_of_le hF ?_); decide) | ((with_reducible refine Foot.parts_of_le hF ?_); decide) | (exact ⟨by decide, by decide⟩) | (with_reducible first | apply State.Only.ite | apply State.Only.red | apply State.Only.levelEv | apply State.Only.mputFlag | apply State.Only.put) | split | (intro _))); clear_value y) | (intro y; clear_value y) | (with_reducible first | apply State.Only.ite | apply State.placeSet_only | apply State.publish_only) | (intro _))

theorem State.runAlone_only {g : Foot} {a s : State} (h : a.Only g s) (l : Lane)
    (hF : Foot.le ⟨[.hv, .lv, .aon, .mon, .red], [0x40, 0x50, 0x80], false⟩ g = true) :
    a.Only g (State.runAlone s l) := by
  unfold State.runAlone
  repeat' (first | with_reducible assumption | ((with_reducible refine Foot.le_trans ?_ hF); decide) | ((with_reducible refine Foot.has_of_le hF ?_); (first | decide | (dsimp only; decide))) | ((with_reducible refine Foot.parts_of_le hF ?_); decide) | lift_lets -underBinder | (intro x; have hx : a.Only g x := (by repeat' (first | with_reducible assumption | ((with_reducible refine Foot.le_trans ?_ hF); decide) | ((with_reducible refine Foot.has_of_le hF ?_); (first | decide | (dsimp only; decide))) | ((with_reducible refine Foot.parts_of_le hF ?_); decide) | lift_lets -underBinder | (with_reducible first | apply State.Only.ite | apply State.Only.put | apply State.Only.red | apply State.countRunning_only | apply State.driveToken_only) | (first | split | (dsimp only [x]; split)) | (intro _))); clear_value x) | (intro x; clear_value x) | (with_reducible first | apply State.Only.ite | apply State.Only.put | apply State.Only.red | apply State.countRunning_only | apply State.driveToken_only) | split | (intro _))

theorem State.configure_only {g : Foot} {a s : State} (h : a.Only g s) (l : Lane) (c : List (Nat × Word))
    (hF : Foot.le ⟨[.mon], [], true⟩ g = true) :
    a.Only g (State.configure s l c) := by
  unfold State.configure
  repeat' (first | with_reducible assumption | ((with_reducible refine Foot.le_trans ?_ hF); decide) | ((with_reducible refine Foot.has_of_le hF ?_); (first | decide | (dsimp only; decide))) | ((with_reducible refine Foot.parts_of_le hF ?_); decide) | (exact Or.inr (fun _ => rfl)) | (with_reducible exact Foot.has_of_any hF rfl) | (with_reducible exact Or.inl (Foot.any_of_le hF rfl)) | lift_lets -underBinder | (intro x; have hx : a.Only g x := (by repeat' (first | with_reducible assumption | ((with_reducible refine Foot.le_trans ?_ hF); decide) | ((with_reducible refine Foot.has_of_le hF ?_); (first | decide | (dsimp only; decide))) | ((with_reducible refine Foot.parts_of_le hF ?_); decide) | (exact Or.inr (fun _ => rfl)) | (with_reducible exact Foot.has_of_any hF rfl) | (with_reducible exact Or.inl (Foot.any_of_le hF rfl)) | lift_lets -underBinder | (with_reducible first | apply State.Only.ite | apply State.Only.fold | apply State.Only.mon | apply State.Only.putWord) | (first | split | (dsimp only [x]; split)) | (intro _))); clear_value x) | (intro x; clear_value x) | (with_reducible first | apply State.Only.ite | apply State.Only.fold | apply State.Only.mon | apply State.Only.putWord) | split | (intro _))

theorem State.loadImage_only {g : Foot} {a s : State} (h : a.Only g s) (l : Lane) (bs : List (Nat × Byte))
    (hF : Foot.le ⟨[.mem], [], false⟩ g = true) :
    a.Only g (State.loadImage s l bs) := by
  unfold State.loadImage
  repeat' (first | with_reducible assumption | ((with_reducible refine Foot.le_trans ?_ hF); decide) | ((with_reducible refine Foot.has_of_le hF ?_); (first | decide | (dsimp only; decide))) | ((with_reducible refine Foot.parts_of_le hF ?_); decide) | (intro x p hp; cases p <;> first | rfl | trivial | exact absurd (Foot.parts_of_le hF (by decide)) hp) | (exact Or.inr (fun _ => rfl)) | (with_reducible first | apply State.Only.ite | apply State.Only.fold | apply State.Only.lane) | (intro _))

theorem State.startUp_only {g : Foot} {a s : State} (h : a.Only g s) (l : Lane)
    (hF : Foot.le ⟨[.hv, .lv, .aon, .mon, .boot, .mem, .red, .saf, .trc, .eng, .dcl, .chg, .loopReq], [], true⟩ g = true) :
    a.Only g (State.startUp s l) := by
  unfold State.startUp
  repeat' (first | with_reducible assumption | ((with_reducible refine Foot.le_trans ?_ hF); decide) | ((with_reducible refine Foot.has_of_le hF ?_); (first | decide | (dsimp only; decide))) | ((with_reducible refine Foot.parts_of_le hF ?_); decide) | (with_reducible exact Foot.has_of_any hF rfl) | (with_reducible exact Or.inl (Foot.any_of_le hF rfl)) | lift_lets -underBinder | (intro x; have hx : a.Only g x := (by repeat' (first | with_reducible assumption | ((with_reducible refine Foot.le_trans ?_ hF); decide) | ((with_reducible refine Foot.has_of_le hF ?_); (first | decide | (dsimp only; decide))) | ((with_reducible refine Foot.parts_of_le hF ?_); decide) | (with_reducible exact Foot.has_of_any hF rfl) | (with_reducible exact Or.inl (Foot.any_of_le hF rfl)) | lift_lets -underBinder | (with_reducible first | apply State.Only.ite | apply State.Only.boot | apply State.Only.put | apply State.Only.putFlag | apply State.Only.red | apply State.clsJudge_only | apply State.commitTable_only | apply State.compareImages_only | apply State.configure_only | apply State.loadImage_only | apply State.runAlone_only | apply State.showK_only | apply State.showMmax_only) | (first | split | (dsimp only [x]; split)) | (intro _))); clear_value x) | (intro x; clear_value x) | (with_reducible first | apply State.Only.ite | apply State.Only.boot | apply State.Only.put | apply State.Only.putFlag | apply State.Only.red | apply State.clsJudge_only | apply State.commitTable_only | apply State.compareImages_only | apply State.configure_only | apply State.loadImage_only | apply State.runAlone_only | apply State.showK_only | apply State.showMmax_only) | split | (intro _))

theorem execControlReady_only {g : Foot} {a s : State} (h : a.Only g s) (l : Lane)
    (hF : Foot.le ⟨[.hv, .lv, .aon, .mon, .boot, .mem, .red, .saf, .trc, .eng, .dcl, .chg, .loopReq], [], true⟩ g = true) :
    OutOnly g a (execControlReady l s) := by
  unfold execControlReady
  repeat' (first | with_reducible assumption | ((with_reducible refine Foot.le_trans ?_ hF); decide) | ((with_reducible refine Foot.has_of_le hF ?_); (first | decide | (dsimp only; decide))) | ((with_reducible refine Foot.parts_of_le hF ?_); decide) | (with_reducible exact Foot.has_of_any hF rfl) | (with_reducible exact Or.inl (Foot.any_of_le hF rfl)) | lift_lets -underBinder | (intro x; have hx : a.Only g x := (by repeat' (first | with_reducible assumption | ((with_reducible refine Foot.le_trans ?_ hF); decide) | ((with_reducible refine Foot.has_of_le hF ?_); (first | decide | (dsimp only; decide))) | ((with_reducible refine Foot.parts_of_le hF ?_); decide) | (with_reducible exact Foot.has_of_any hF rfl) | (with_reducible exact Or.inl (Foot.any_of_le hF rfl)) | lift_lets -underBinder | (with_reducible first | apply State.Only.ite | apply State.Only.done | apply State.Only.red | apply State.startUp_only) | (first | split | (dsimp only [x]; split)) | (intro _))); clear_value x) | (intro x; clear_value x) | (with_reducible first | apply State.Only.ite | apply State.Only.done | apply State.Only.red | apply State.startUp_only) | split | (intro _))

theorem State.seedFrom_only {g : Foot} {a s : State} (h : a.Only g s) (l : Lane) (p : Lane)
    (hF : Foot.le ⟨[.sess], [0x40], false⟩ g = true) :
    a.Only g (State.seedFrom s l p) := by
  unfold State.seedFrom
  repeat' (first | with_reducible assumption | ((with_reducible refine Foot.le_trans ?_ hF); decide) | ((with_reducible refine Foot.has_of_le hF ?_); (first | decide | (dsimp only; decide))) | ((with_reducible refine Foot.parts_of_le hF ?_); decide) | (intro x p hp; cases p <;> first | rfl | trivial | exact absurd (Foot.parts_of_le hF (by decide)) hp) | (exact Or.inr (fun _ => rfl)) | lift_lets -underBinder | (intro x; have hx : a.Only g x := (by repeat' (first | with_reducible assumption | ((with_reducible refine Foot.le_trans ?_ hF); decide) | ((with_reducible refine Foot.has_of_le hF ?_); (first | decide | (dsimp only; decide))) | ((with_reducible refine Foot.parts_of_le hF ?_); decide) | (intro x p hp; cases p <;> first | rfl | trivial | exact absurd (Foot.parts_of_le hF (by decide)) hp) | (exact Or.inr (fun _ => rfl)) | lift_lets -underBinder | (with_reducible first | apply State.Only.lane | apply State.showSeq_only) | (intro _))); clear_value x) | (intro x; clear_value x) | (with_reducible first | apply State.Only.lane | apply State.showSeq_only) | (intro _))

theorem execPeerReturn_only {g : Foot} {a s : State} (h : a.Only g s) (l : Lane)
    (hF : Foot.le ⟨[.hv, .mon, .sess, .red], [0x40, 0x50, 0x80], false⟩ g = true) :
    OutOnly g a (execPeerReturn l s) := by
  unfold execPeerReturn
  repeat' (first | with_reducible assumption | ((with_reducible refine Foot.le_trans ?_ hF); decide) | ((with_reducible refine Foot.has_of_le hF ?_); (first | decide | (dsimp only; decide))) | ((with_reducible refine Foot.parts_of_le hF ?_); decide) | (exact ⟨by decide, by decide⟩) | lift_lets -underBinder | (intro x; have hx : a.Only g x := (by repeat' (first | with_reducible assumption | ((with_reducible refine Foot.le_trans ?_ hF); decide) | ((with_reducible refine Foot.has_of_le hF ?_); (first | decide | (dsimp only; decide))) | ((with_reducible refine Foot.parts_of_le hF ?_); decide) | (exact ⟨by decide, by decide⟩) | lift_lets -underBinder | (with_reducible first | apply State.Only.ite | apply State.Only.done | apply State.Only.pulseEv | apply State.Only.put | apply State.Only.putFlag | apply State.Only.red | apply State.countRunning_only | apply State.seedFrom_only) | (first | split | (dsimp only [x]; split)) | (intro _))); clear_value x) | (intro x; clear_value x) | (with_reducible first | apply State.Only.ite | apply State.Only.done | apply State.Only.pulseEv | apply State.Only.put | apply State.Only.putFlag | apply State.Only.red | apply State.countRunning_only | apply State.seedFrom_only) | split | (intro _))

theorem execReturnDone_only {g : Foot} {a s : State} (h : a.Only g s) (l : Lane)
    (hF : Foot.le ⟨[], [0x40], false⟩ g = true) :
    OutOnly g a (execReturnDone l s) := by
  unfold execReturnDone
  repeat' (first | with_reducible assumption | ((with_reducible refine Foot.le_trans ?_ hF); decide) | ((with_reducible refine Foot.has_of_le hF ?_); (first | decide | (dsimp only; decide))) | ((with_reducible refine Foot.parts_of_le hF ?_); decide) | (exact ⟨by decide, by decide⟩) | (with_reducible first | apply State.Only.ite | apply State.Only.done | apply State.Only.pulseEv | apply State.Only.putFlag) | split | (intro _))

theorem State.redCtrl_only {g : Foot} {a s : State} (h : a.Only g s) (l : Lane) (ok : State → Bool) (f : State → State) (hf : ∀ s, a.Only g s → a.Only g (f s))
    (hF : Foot.le ⟨[.answer], [], false⟩ g = true) :
    a.Only g (State.redCtrl s l ok f) := by
  unfold State.redCtrl
  repeat' (first | with_reducible assumption | ((with_reducible refine Foot.le_trans ?_ hF); decide) | ((with_reducible refine Foot.has_of_le hF ?_); (first | decide | (dsimp only; decide))) | ((with_reducible refine Foot.parts_of_le hF ?_); decide) | (with_reducible first | apply State.Only.ite | apply State.reject_only | apply State.reply_only | apply State.writing_only | apply hok | apply hf) | (intro _))

theorem State.splitContinue_only {g : Foot} {a s : State} (h : a.Only g s) (l : Lane)
    (hF : Foot.le ⟨[.red], [0x40], false⟩ g = true) :
    a.Only g (State.splitContinue s l) := by
  unfold State.splitContinue
  repeat' (first | with_reducible assumption | ((with_reducible refine Foot.le_trans ?_ hF); decide) | ((with_reducible refine Foot.has_of_le hF ?_); (first | decide | (dsimp only; decide))) | ((with_reducible refine Foot.parts_of_le hF ?_); decide) | lift_lets -underBinder | (intro x; have hx : a.Only g x := (by repeat' (first | with_reducible assumption | ((with_reducible refine Foot.le_trans ?_ hF); decide) | ((with_reducible refine Foot.has_of_le hF ?_); (first | decide | (dsimp only; decide))) | ((with_reducible refine Foot.parts_of_le hF ?_); decide) | lift_lets -underBinder | (with_reducible first | apply State.Only.ite | apply State.Only.put | apply State.Only.red) | (intro _))); clear_value x) | (intro x; clear_value x) | (with_reducible first | apply State.Only.ite | apply State.Only.put | apply State.Only.red) | (intro _))

theorem execSplitContinue_only {g : Foot} {a s : State} (h : a.Only g s) (l : Lane)
    (hF : Foot.le ⟨[.answer, .red], [0x40], false⟩ g = true) :
    OutOnly g a (execSplitContinue l s) := by
  unfold execSplitContinue
  repeat' (first | with_reducible assumption | ((with_reducible refine Foot.le_trans ?_ hF); decide) | ((with_reducible refine Foot.has_of_le hF ?_); (first | decide | (dsimp only; decide))) | ((with_reducible refine Foot.parts_of_le hF ?_); decide) | (with_reducible first | apply State.Only.done | apply State.redCtrl_only | apply State.splitContinue_only) | (intro _))

theorem execSplitSs1_only {g : Foot} {a s : State} (h : a.Only g s) (l : Lane)
    (hF : Foot.le ⟨[.hv, .answer, .red, .saf, .trc, .loopReq], [0x10, 0x11, 0x50], false⟩ g = true) :
    OutOnly g a (execSplitSs1 l s) := by
  unfold execSplitSs1
  repeat' (first | with_reducible assumption | ((with_reducible refine Foot.le_trans ?_ hF); decide) | ((with_reducible refine Foot.has_of_le hF ?_); (first | decide | (dsimp only; decide))) | ((with_reducible refine Foot.parts_of_le hF ?_); decide) | (with_reducible first | apply State.Only.done | apply State.ownSs1Start_only | apply State.redCtrl_only) | (intro _))

theorem State.rejoinNow_only {g : Foot} {a s : State} (h : a.Only g s) (l : Lane)
    (hF : Foot.le ⟨[.red], [0x40], false⟩ g = true) :
    a.Only g (State.rejoinNow s l) := by
  unfold State.rejoinNow
  repeat' (first | with_reducible assumption | ((with_reducible refine Foot.le_trans ?_ hF); decide) | ((with_reducible refine Foot.has_of_le hF ?_); (first | decide | (dsimp only; decide))) | ((with_reducible refine Foot.parts_of_le hF ?_); decide) | (with_reducible first | apply State.Only.putFlag | apply State.Only.red) | (intro _))

theorem execRejoin_only {g : Foot} {a s : State} (h : a.Only g s) (l : Lane)
    (hF : Foot.le ⟨[.answer, .red], [0x40], false⟩ g = true) :
    OutOnly g a (execRejoin l s) := by
  unfold execRejoin
  repeat' (first | with_reducible assumption | ((with_reducible refine Foot.le_trans ?_ hF); decide) | ((with_reducible refine Foot.has_of_le hF ?_); (first | decide | (dsimp only; decide))) | ((with_reducible refine Foot.parts_of_le hF ?_); decide) | (with_reducible first | apply State.Only.done | apply State.redCtrl_only | apply State.rejoinNow_only) | (intro _))

theorem State.moveAsk_only {g : Foot} {a s : State} (h : a.Only g s)
    (hF : Foot.le ⟨[.mon], [], false⟩ g = true) :
    a.Only g (State.moveAsk s) := by
  unfold State.moveAsk
  repeat' (first | with_reducible assumption | ((with_reducible refine Foot.le_trans ?_ hF); decide) | ((with_reducible refine Foot.has_of_le hF ?_); (first | decide | (dsimp only; decide))) | ((with_reducible refine Foot.parts_of_le hF ?_); decide) | (exact Or.inr (fun _ => rfl)) | (with_reducible first | apply State.Only.mon) | (intro _))

theorem execTokenMove_only {g : Foot} {a s : State} (h : a.Only g s) (l : Lane)
    (hF : Foot.le ⟨[.mon, .answer], [], false⟩ g = true) :
    OutOnly g a (execTokenMove l s) := by
  unfold execTokenMove
  repeat' (first | with_reducible assumption | ((with_reducible refine Foot.le_trans ?_ hF); decide) | ((with_reducible refine Foot.has_of_le hF ?_); (first | decide | (dsimp only; decide))) | ((with_reducible refine Foot.parts_of_le hF ?_); decide) | (with_reducible first | apply State.Only.done | apply State.moveAsk_only | apply State.redCtrl_only) | (intro _))

theorem State.takeStates_only {g : Foot} {a s : State} (h : a.Only g s) (l : Lane) (c : StateCopy)
    (hF : Foot.le ⟨[.chg], [0x31, 0x32, 0x33, 0x34], false⟩ g = true) :
    a.Only g (State.takeStates s l c) := by
  unfold State.takeStates
  repeat' (first | with_reducible assumption | ((with_reducible refine Foot.le_trans ?_ hF); decide) | ((with_reducible refine Foot.has_of_le hF ?_); (first | (simp (disch := first | omega | decide) only [F.ACT_STAT_STATE_has, F.ACT_POS_POS_has, F.ACT_STAT_REF_has, F.ACT_END_TRAVEL_has, F.ACT_TGT_TARGET_has]; done) | decide | (dsimp only; decide))) | ((with_reducible refine Foot.parts_of_le hF ?_); decide) | lift_lets -underBinder | (intro x; have hx : a.Only g x := (by repeat' (first | with_reducible assumption | ((with_reducible refine Foot.le_trans ?_ hF); decide) | ((with_reducible refine Foot.has_of_le hF ?_); (first | (simp (disch := first | omega | decide) only [F.ACT_STAT_STATE_has, F.ACT_POS_POS_has, F.ACT_STAT_REF_has, F.ACT_END_TRAVEL_has, F.ACT_TGT_TARGET_has]; done) | decide | (dsimp only; decide))) | ((with_reducible refine Foot.parts_of_le hF ?_); decide) | lift_lets -underBinder | (with_reducible first | apply State.Only.chg | apply State.Only.fold | apply State.Only.put | apply State.Only.putFlag | apply State.Only.putWord) | (intro _))); clear_value x) | (intro x; clear_value x) | (with_reducible first | apply State.Only.chg | apply State.Only.fold | apply State.Only.put | apply State.Only.putFlag | apply State.Only.putWord) | (intro _))

theorem State.takeLoops_only {g : Foot} {a s : State} (h : a.Only g s) (l : Lane)
    (hF : Foot.le ⟨[.loopReq], [], false⟩ g = true) :
    a.Only g (State.takeLoops s l) := by
  unfold State.takeLoops
  repeat' (first | with_reducible assumption | ((with_reducible refine Foot.le_trans ?_ hF); decide) | ((with_reducible refine Foot.has_of_le hF ?_); (first | (simp (disch := first | omega | decide) only [F.ACT_STAT_STATE_has]; done) | decide | (dsimp only; decide))) | ((with_reducible refine Foot.parts_of_le hF ?_); decide) | lift_lets -underBinder | (intro x; have hx : a.Only g x := (by repeat' (first | with_reducible assumption | ((with_reducible refine Foot.le_trans ?_ hF); decide) | ((with_reducible refine Foot.has_of_le hF ?_); (first | (simp (disch := first | omega | decide) only [F.ACT_STAT_STATE_has]; done) | decide | (dsimp only; decide))) | ((with_reducible refine Foot.parts_of_le hF ?_); decide) | lift_lets -underBinder | (with_reducible first | apply State.Only.ite | apply State.Only.fold | apply State.loopAsk_only) | (first | split | (dsimp only [x]; split)) | (intro _))); clear_value x) | (intro x; clear_value x) | (with_reducible first | apply State.Only.ite | apply State.Only.fold | apply State.loopAsk_only) | split | (intro _))

theorem State.renewS2_only {g : Foot} {a s : State} (h : a.Only g s) (l : Lane)
    (hF : Foot.le ⟨[], [0x33], false⟩ g = true) :
    a.Only g (State.renewS2 s l) := by
  unfold State.renewS2
  repeat' (first | with_reducible assumption | ((with_reducible refine Foot.le_trans ?_ hF); decide) | ((with_reducible refine Foot.has_of_le hF ?_); (first | decide | (dsimp only; decide))) | ((with_reducible refine Foot.parts_of_le hF ?_); decide) | lift_lets -underBinder | (intro x; have hx : a.Only g x := (by repeat' (first | with_reducible assumption | ((with_reducible refine Foot.le_trans ?_ hF); decide) | ((with_reducible refine Foot.has_of_le hF ?_); (first | decide | (dsimp only; decide))) | ((with_reducible refine Foot.parts_of_le hF ?_); decide) | lift_lets -underBinder | (with_reducible first | apply State.Only.ite | apply State.Only.putFlag) | (intro _))); clear_value x) | (intro x; clear_value x) | (with_reducible first | apply State.Only.ite | apply State.Only.putFlag) | (intro _))

theorem State.continueFrom_only {g : Foot} {a s : State} (h : a.Only g s) (l : Lane)
    (hF : Foot.le ⟨[.chg, .loopReq], [0x31, 0x32, 0x33, 0x34], false⟩ g = true) :
    a.Only g (State.continueFrom s l) := by
  unfold State.continueFrom
  repeat' (first | with_reducible assumption | ((with_reducible refine Foot.le_trans ?_ hF); decide) | ((with_reducible refine Foot.has_of_le hF ?_); (first | decide | (dsimp only; decide))) | ((with_reducible refine Foot.parts_of_le hF ?_); decide) | (with_reducible first | apply State.renewS2_only | apply State.takeLoops_only | apply State.takeStates_only) | split | (intro _))

theorem execTokenMoveExecute_only {g : Foot} {a s : State} (h : a.Only g s)
    (hF : Foot.le ⟨[.hv, .lv, .aon, .mon, .chg, .loopReq], [0x31, 0x32, 0x33, 0x34, 0x40, 0x50, 0x80], false⟩ g = true) :
    OutOnly g a (execTokenMoveExecute s) := by
  unfold execTokenMoveExecute
  repeat' (first | with_reducible assumption | ((with_reducible refine Foot.le_trans ?_ hF); decide) | ((with_reducible refine Foot.has_of_le hF ?_); (first | decide | (dsimp only; decide))) | ((with_reducible refine Foot.parts_of_le hF ?_); decide) | (exact Or.inr (fun _ => rfl)) | (with_reducible first | apply State.Only.ite | apply State.Only.done | apply State.Only.mon | apply State.continueFrom_only | apply State.driveToken_only) | split | (intro _))

theorem State.retestNow_only {g : Foot} {a s : State} (h : a.Only g s) (l : Lane)
    (hF : Foot.le ⟨[.answer, .red], [0x40], false⟩ g = true) :
    a.Only g (State.retestNow s l) := by
  unfold State.retestNow
  repeat' (first | with_reducible assumption | ((with_reducible refine Foot.le_trans ?_ hF); decide) | ((with_reducible refine Foot.has_of_le hF ?_); (first | decide | (dsimp only; decide))) | ((with_reducible refine Foot.parts_of_le hF ?_); decide) | lift_lets -underBinder | (intro x; have hx : a.Only g x := (by repeat' (first | with_reducible assumption | ((with_reducible refine Foot.le_trans ?_ hF); decide) | ((with_reducible refine Foot.has_of_le hF ?_); (first | decide | (dsimp only; decide))) | ((with_reducible refine Foot.parts_of_le hF ?_); decide) | lift_lets -underBinder | (with_reducible first | apply State.Only.ite | apply State.Only.put | apply State.Only.red | apply State.reject_only | apply State.reply_only) | (intro _))); clear_value x) | (intro x; clear_value x) | (with_reducible first | apply State.Only.ite | apply State.Only.put | apply State.Only.red | apply State.reject_only | apply State.reply_only) | (intro _))

theorem execRetest_only {g : Foot} {a s : State} (h : a.Only g s) (l : Lane)
    (hF : Foot.le ⟨[.answer, .red], [0x40], false⟩ g = true) :
    OutOnly g a (execRetest l s) := by
  unfold execRetest
  repeat' (first | with_reducible assumption | ((with_reducible refine Foot.le_trans ?_ hF); decide) | ((with_reducible refine Foot.has_of_le hF ?_); (first | decide | (dsimp only; decide))) | ((with_reducible refine Foot.parts_of_le hF ?_); decide) | (with_reducible first | apply State.Only.ite | apply State.Only.done | apply State.reject_only | apply State.retestNow_only) | split | (intro _))

theorem execRetestDone_only {g : Foot} {a s : State} (h : a.Only g s) (l : Lane) (pass : Bool)
    (hF : Foot.le ⟨[.hv, .lv, .aon, .mon, .boot, .mem, .red, .saf, .trc, .eng, .dcl, .chg, .loopReq], [], true⟩ g = true) :
    OutOnly g a (execRetestDone l pass s) := by
  unfold execRetestDone
  repeat' (first | with_reducible assumption | ((with_reducible refine Foot.le_trans ?_ hF); decide) | ((with_reducible refine Foot.has_of_le hF ?_); (first | decide | (dsimp only; decide))) | ((with_reducible refine Foot.parts_of_le hF ?_); decide) | (exact ⟨by decide, by decide⟩) | (with_reducible exact Foot.has_of_any hF rfl) | (with_reducible exact Or.inl (Foot.any_of_le hF rfl)) | lift_lets -underBinder | (intro x; have hx : a.Only g x := (by repeat' (first | with_reducible assumption | ((with_reducible refine Foot.le_trans ?_ hF); decide) | ((with_reducible refine Foot.has_of_le hF ?_); (first | decide | (dsimp only; decide))) | ((with_reducible refine Foot.parts_of_le hF ?_); decide) | (exact ⟨by decide, by decide⟩) | (with_reducible exact Foot.has_of_any hF rfl) | (with_reducible exact Or.inl (Foot.any_of_le hF rfl)) | lift_lets -underBinder | (with_reducible first | apply State.Only.ite | apply State.Only.boot | apply State.Only.done | apply State.Only.levelEv | apply State.Only.put | apply State.Only.red | apply State.startUp_only) | (first | split | (dsimp only [x]; split)) | (intro _))); clear_value x) | (intro x; clear_value x) | (with_reducible first | apply State.Only.ite | apply State.Only.boot | apply State.Only.done | apply State.Only.levelEv | apply State.Only.put | apply State.Only.red | apply State.startUp_only) | split | (intro _))

theorem State.clrJrnl_only {g : Foot} {a s : State} (h : a.Only g s) (l : Lane)
    (hF : Foot.le ⟨[], [0x40], false⟩ g = true) :
    a.Only g (State.clrJrnl s l) := by
  unfold State.clrJrnl
  repeat' (first | with_reducible assumption | ((with_reducible refine Foot.le_trans ?_ hF); decide) | ((with_reducible refine Foot.has_of_le hF ?_); (first | decide | (dsimp only; decide))) | ((with_reducible refine Foot.parts_of_le hF ?_); decide) | (with_reducible first | apply State.Only.put) | (intro _))

theorem State.clrFo_only {g : Foot} {a s : State} (h : a.Only g s) (l : Lane)
    (hF : Foot.le ⟨[], [0x40], false⟩ g = true) :
    a.Only g (State.clrFo s l) := by
  unfold State.clrFo
  repeat' (first | with_reducible assumption | ((with_reducible refine Foot.le_trans ?_ hF); decide) | ((with_reducible refine Foot.has_of_le hF ?_); (first | decide | (dsimp only; decide))) | ((with_reducible refine Foot.parts_of_le hF ?_); decide) | (with_reducible first | apply State.Only.put) | (intro _))

theorem State.clrConj_only {g : Foot} {a s : State} (h : a.Only g s) (l : Lane)
    (hF : Foot.le ⟨[], [0x41], false⟩ g = true) :
    a.Only g (State.clrConj s l) := by
  unfold State.clrConj
  repeat' (first | with_reducible assumption | ((with_reducible refine Foot.le_trans ?_ hF); decide) | ((with_reducible refine Foot.has_of_le hF ?_); (first | decide | (dsimp only; decide))) | ((with_reducible refine Foot.parts_of_le hF ?_); decide) | (with_reducible first | apply State.Only.putWord) | (intro _))

theorem execRedClrJrnl_only {g : Foot} {a s : State} (h : a.Only g s) (l : Lane)
    (hF : Foot.le ⟨[.answer], [0x40], false⟩ g = true) :
    OutOnly g a (execRedClrJrnl l s) := by
  unfold execRedClrJrnl
  repeat' (first | with_reducible assumption | ((with_reducible refine Foot.le_trans ?_ hF); decide) | ((with_reducible refine Foot.has_of_le hF ?_); (first | decide | (dsimp only; decide))) | ((with_reducible refine Foot.parts_of_le hF ?_); decide) | (with_reducible first | apply State.Only.done | apply State.clrJrnl_only | apply State.reply_only | apply State.writing_only) | (intro _))

theorem execRedClrFo_only {g : Foot} {a s : State} (h : a.Only g s) (l : Lane)
    (hF : Foot.le ⟨[.answer], [0x40], false⟩ g = true) :
    OutOnly g a (execRedClrFo l s) := by
  unfold execRedClrFo
  repeat' (first | with_reducible assumption | ((with_reducible refine Foot.le_trans ?_ hF); decide) | ((with_reducible refine Foot.has_of_le hF ?_); (first | decide | (dsimp only; decide))) | ((with_reducible refine Foot.parts_of_le hF ?_); decide) | (with_reducible first | apply State.Only.done | apply State.clrFo_only | apply State.reply_only | apply State.writing_only) | (intro _))

theorem execConjClrCnt_only {g : Foot} {a s : State} (h : a.Only g s) (l : Lane)
    (hF : Foot.le ⟨[.answer], [0x41], false⟩ g = true) :
    OutOnly g a (execConjClrCnt l s) := by
  unfold execConjClrCnt
  repeat' (first | with_reducible assumption | ((with_reducible refine Foot.le_trans ?_ hF); decide) | ((with_reducible refine Foot.has_of_le hF ?_); (first | decide | (dsimp only; decide))) | ((with_reducible refine Foot.parts_of_le hF ?_); decide) | (with_reducible first | apply State.Only.done | apply State.clrConj_only | apply State.reply_only | apply State.writing_only) | (intro _))

end Sys2Proof.Machine
end

