-- ==== Sys2Proof/Laws/Only/Can.lean ====
section
/-! SUPPORT. What the operations of Can may change. -/
namespace Sys2Proof.Machine
set_option linter.all false
set_option Elab.async false

theorem State.modCan_only {g : Foot} {a s : State} (h : a.Only g s) (l : Lane) (c : Fin 2) (f : CanState → CanState)
    (hF : Foot.le ⟨[.can], [], false⟩ g = true) :
    a.Only g (State.modCan s l c f) := by
  unfold State.modCan
  repeat' (first | with_reducible assumption | ((with_reducible refine Foot.le_trans ?_ hF); decide) | ((with_reducible refine Foot.has_of_le hF ?_); (first | decide | (dsimp only; decide))) | ((with_reducible refine Foot.parts_of_le hF ?_); decide) | (intro x p hp; cases p <;> first | rfl | trivial | exact absurd (Foot.parts_of_le hF (by decide)) hp) | (exact Or.inr (fun _ => rfl)) | (with_reducible first | apply State.Only.lane | apply hf) | (intro _))

theorem State.canPhase_only {g : Foot} {a s : State} (h : a.Only g s) (l : Lane) (c : Fin 2) (p : BusPhase)
    (hF : Foot.le ⟨[.can], [], false⟩ g = true) :
    a.Only g (State.canPhase s l c p) := by
  unfold State.canPhase
  repeat' (first | with_reducible assumption | ((with_reducible refine Foot.le_trans ?_ hF); decide) | ((with_reducible refine Foot.has_of_le hF ?_); (first | decide | (dsimp only; decide))) | ((with_reducible refine Foot.parts_of_le hF ?_); decide) | (with_reducible first | apply State.Only.ite | apply State.modCan_only) | (intro _))

theorem State.showCan_only {g : Foot} {a s : State} (h : a.Only g s) (l : Lane) (c : Fin 2)
    (hF : Foot.le ⟨[], [0x70], false⟩ g = true) :
    a.Only g (State.showCan s l c) := by
  unfold State.showCan
  repeat' (first | with_reducible assumption | ((with_reducible refine Foot.le_trans ?_ hF); decide) | ((with_reducible refine Foot.has_of_le hF ?_); (first | (simp (disch := first | omega | decide) only [F.CAN_TXQ_SLOT_PEND_has, F.CAN_TXQ_FILL_has, F.CAN_TXQ_TXC_FILL_has, F.CAN_RXQ_FILL_has]; done) | decide | (dsimp only; decide))) | ((with_reducible refine Foot.parts_of_le hF ?_); decide) | lift_lets -underBinder | (intro x; have hx : a.Only g x := (by repeat' (first | with_reducible assumption | ((with_reducible refine Foot.le_trans ?_ hF); decide) | ((with_reducible refine Foot.has_of_le hF ?_); (first | (simp (disch := first | omega | decide) only [F.CAN_TXQ_SLOT_PEND_has, F.CAN_TXQ_FILL_has, F.CAN_TXQ_TXC_FILL_has, F.CAN_RXQ_FILL_has]; done) | decide | (dsimp only; decide))) | ((with_reducible refine Foot.parts_of_le hF ?_); decide) | lift_lets -underBinder | (with_reducible first | apply State.Only.fold | apply State.Only.put) | (intro _))); clear_value x) | (intro x; clear_value x) | (with_reducible first | apply State.Only.fold | apply State.Only.put) | (intro _))

theorem State.canDone_only {g : Foot} {a s : State} (h : a.Only g s) (l : Lane) (c : Fin 2) (e : TxEntry) (src : Nat) (result : Nat) (ts : BitVec 64)
    (hF : Foot.le ⟨[.can], [0x70], false⟩ g = true) :
    a.Only g (State.canDone s l c e src result ts) := by
  unfold State.canDone
  repeat' (first | with_reducible assumption | ((with_reducible refine Foot.le_trans ?_ hF); decide) | ((with_reducible refine Foot.has_of_le hF ?_); (first | (simp (disch := first | omega | decide) only [F.CAN_CNT_TXOK_has, F.CAN_CNT_TXFAIL_has]; done) | decide | (dsimp only; decide))) | ((with_reducible refine Foot.parts_of_le hF ?_); decide) | (exact ⟨by decide, by decide⟩) | (exact E.CAN_TX_DONE_proper _) | (exact E.CAN_TX_FAIL_proper _) | lift_lets -underBinder | (intro x; have hx : a.Only g x := (by repeat' (first | with_reducible assumption | ((with_reducible refine Foot.le_trans ?_ hF); decide) | ((with_reducible refine Foot.has_of_le hF ?_); (first | (simp (disch := first | omega | decide) only [F.CAN_CNT_TXOK_has, F.CAN_CNT_TXFAIL_has]; done) | decide | (dsimp only; decide))) | ((with_reducible refine Foot.parts_of_le hF ?_); decide) | (exact ⟨by decide, by decide⟩) | (exact E.CAN_TX_DONE_proper _) | (exact E.CAN_TX_FAIL_proper _) | lift_lets -underBinder | (with_reducible first | apply State.Only.ite | apply State.Only.bump | apply State.Only.pulseEv | apply State.modCan_only | apply State.showCan_only) | (first | split | (dsimp only [x]; split)) | (intro _))); clear_value x) | (intro x; clear_value x) | (with_reducible first | apply State.Only.ite | apply State.Only.bump | apply State.Only.pulseEv | apply State.modCan_only | apply State.showCan_only) | split | (intro _))

theorem State.freshTs_only {g : Foot} {a s : State} (h : a.Only g s) (hF : Foot.le ⟨[.free], [], false⟩ g = true) : a.Only g s.freshTs.2 :=
  State.Only.withFree h _ (Foot.parts_of_le hF (by decide))

theorem State.canNoAck_only {g : Foot} {a s : State} (h : a.Only g s) (l : Lane) (c : Fin 2)
    (hF : Foot.le ⟨[], [0x70], false⟩ g = true) :
    a.Only g (State.canNoAck s l c) := by
  unfold State.canNoAck
  repeat' (first | with_reducible assumption | ((with_reducible refine Foot.le_trans ?_ hF); decide) | ((with_reducible refine Foot.has_of_le hF ?_); (first | (simp (disch := first | omega | decide) only [F.CAN_CNT_NOACK_has]; done) | decide | (dsimp only; decide))) | ((with_reducible refine Foot.parts_of_le hF ?_); decide) | (exact ⟨by decide, by decide⟩) | (exact E.CAN_NO_ACK_proper _) | (with_reducible first | apply State.Only.bump | apply State.Only.pulseEv) | (intro _))

theorem State.canErrState_only {g : Foot} {a s : State} (h : a.Only g s) (l : Lane) (c : Fin 2) (tec : Nat) (rec_ : Nat)
    (hF : Foot.le ⟨[.free, .can], [0x70], false⟩ g = true) :
    a.Only g (State.canErrState s l c tec rec_) := by
  unfold State.canErrState
  repeat' (first | with_reducible assumption | ((with_reducible refine Foot.le_trans ?_ hF); decide) | ((with_reducible refine Foot.has_of_le hF ?_); (first | (simp (disch := first | omega | decide) only [F.CAN_STAT_TEC_has, F.CAN_STAT_REC_has, F.CAN_STAT_RP_has, F.CAN_STAT_WARN_has, F.CAN_STAT_STATE_has]; done) | decide | (dsimp only; decide))) | ((with_reducible refine Foot.parts_of_le hF ?_); decide) | (exact ⟨by decide, by decide⟩) | (exact E.CAN_ERR_PASSIVE_proper _) | (exact E.CAN_WARN_proper _) | lift_lets -underBinder | (intro x; have hx : a.Only g x := (by repeat' (first | with_reducible assumption | ((with_reducible refine Foot.le_trans ?_ hF); decide) | ((with_reducible refine Foot.has_of_le hF ?_); (first | (simp (disch := first | omega | decide) only [F.CAN_STAT_TEC_has, F.CAN_STAT_REC_has, F.CAN_STAT_RP_has, F.CAN_STAT_WARN_has, F.CAN_STAT_STATE_has]; done) | decide | (dsimp only; decide))) | ((with_reducible refine Foot.parts_of_le hF ?_); decide) | (exact ⟨by decide, by decide⟩) | (exact E.CAN_ERR_PASSIVE_proper _) | (exact E.CAN_WARN_proper _) | lift_lets -underBinder | (with_reducible first | apply State.Only.ite | apply State.Only.fresh | apply State.Only.levelEv | apply State.Only.put | apply State.Only.putFlag | apply State.modCan_only) | (first | split | (dsimp only [x]; split)) | (intro _))); clear_value x) | (intro x; clear_value x) | (with_reducible first | apply State.Only.ite | apply State.Only.fresh | apply State.Only.levelEv | apply State.Only.put | apply State.Only.putFlag | apply State.modCan_only) | split | (intro _))

theorem State.canBusOff_only {g : Foot} {a s : State} (h : a.Only g s) (l : Lane) (c : Fin 2)
    (hF : Foot.le ⟨[.free, .can], [0x70], false⟩ g = true) :
    a.Only g (State.canBusOff s l c) := by
  unfold State.canBusOff
  repeat' (first | with_reducible assumption | ((with_reducible refine Foot.le_trans ?_ hF); decide) | ((with_reducible refine Foot.has_of_le hF ?_); (first | (simp (disch := first | omega | decide) only [F.CAN_STAT_TEC_has, F.CAN_STAT_STATE_has, F.CAN_CNT_BUSOFF_has, F.CAN_CTRL_AUTO_REC_has]; done) | decide | (dsimp only; decide))) | ((with_reducible refine Foot.parts_of_le hF ?_); decide) | (exact ⟨by decide, by decide⟩) | (exact E.CAN_BUS_OFF_proper _) | (exact E.CAN_ERR_PASSIVE_proper _) | lift_lets -underBinder | (intro x; have hx : a.Only g x := (by repeat' (first | with_reducible assumption | ((with_reducible refine Foot.le_trans ?_ hF); decide) | ((with_reducible refine Foot.has_of_le hF ?_); (first | (simp (disch := first | omega | decide) only [F.CAN_STAT_TEC_has, F.CAN_STAT_STATE_has, F.CAN_CNT_BUSOFF_has, F.CAN_CTRL_AUTO_REC_has]; done) | decide | (dsimp only; decide))) | ((with_reducible refine Foot.parts_of_le hF ?_); decide) | (exact ⟨by decide, by decide⟩) | (exact E.CAN_BUS_OFF_proper _) | (exact E.CAN_ERR_PASSIVE_proper _) | lift_lets -underBinder | (with_reducible first | apply State.Only.bump | apply State.Only.fresh | apply State.Only.levelEv | apply State.Only.put | apply State.modCan_only) | (intro _))); clear_value x) | (intro x; clear_value x) | (with_reducible first | apply State.Only.bump | apply State.Only.fresh | apply State.Only.levelEv | apply State.Only.put | apply State.modCan_only) | (intro _))

theorem State.canEnd_only {g : Foot} {a s : State} (h : a.Only g s) (l : Lane) (c : Fin 2) (src : Nat) (e : TxEntry) (result : Nat) (ts : BitVec 64)
    (hF : Foot.le ⟨[.can], [0x70], false⟩ g = true) :
    a.Only g (State.canEnd s l c src e result ts) := by
  unfold State.canEnd
  repeat' (first | with_reducible assumption | ((with_reducible refine Foot.le_trans ?_ hF); decide) | ((with_reducible refine Foot.has_of_le hF ?_); (first | decide | (dsimp only; decide))) | ((with_reducible refine Foot.parts_of_le hF ?_); decide) | (with_reducible first | apply State.canDone_only | apply State.modCan_only) | (intro _))

theorem State.canDrop_only {g : Foot} {a s : State} (h : a.Only g s) (l : Lane) (c : Fin 2) (e : TxEntry) (src result : Nat)
    (hF : Foot.le ⟨[.free, .can], [0x70], false⟩ g = true) : a.Only g (State.canDrop s l c e src result) :=
  State.canDone_only (State.freshTs_only h (Foot.le_trans (by decide) hF)) _ _ _ _ _ _ (Foot.le_trans (by decide) hF)

theorem State.canDiscard_only {g : Foot} {a s : State} (h : a.Only g s) (l : Lane) (c : Fin 2)
    (hF : Foot.le ⟨[.free, .can], [0x70], false⟩ g = true) :
    a.Only g (State.canDiscard s l c) := by
  unfold State.canDiscard
  repeat' (first | with_reducible assumption | ((with_reducible refine Foot.le_trans ?_ hF); decide) | ((with_reducible refine Foot.has_of_le hF ?_); (first | decide | (dsimp only; decide))) | ((with_reducible refine Foot.parts_of_le hF ?_); decide) | lift_lets -underBinder | (intro x; have hx : a.Only g x := (by repeat' (first | with_reducible assumption | ((with_reducible refine Foot.le_trans ?_ hF); decide) | ((with_reducible refine Foot.has_of_le hF ?_); (first | decide | (dsimp only; decide))) | ((with_reducible refine Foot.parts_of_le hF ?_); decide) | lift_lets -underBinder | (with_reducible first | apply State.Only.fold | apply State.canDrop_only | apply State.modCan_only) | (first | split | (dsimp only [x]; split)) | (intro _))); clear_value x) | (intro x; clear_value x) | (with_reducible first | apply State.Only.fold | apply State.canDrop_only | apply State.modCan_only) | split | (intro _))

theorem State.canInit_only {g : Foot} {a s : State} (h : a.Only g s) (l : Lane) (c : Fin 2) (b : Bool)
    (hF : Foot.le ⟨[.free, .can], [0x70], false⟩ g = true) :
    EffOnly g a (State.canInit s l c b) := by
  unfold State.canInit
  repeat' (first | with_reducible assumption | ((with_reducible refine Foot.le_trans ?_ hF); decide) | ((with_reducible refine Foot.has_of_le hF ?_); (first | (simp (disch := first | omega | decide) only [F.CAN_CTRL_INIT_has, F.CAN_STAT_STATE_has]; done) | decide | (dsimp only; decide))) | ((with_reducible refine Foot.parts_of_le hF ?_); decide) | (exact ⟨by decide, by decide⟩) | (exact E.CAN_BUS_OFF_proper _) | lift_lets -underBinder | (intro x; have hx : a.Only g x := (by repeat' (first | with_reducible assumption | ((with_reducible refine Foot.le_trans ?_ hF); decide) | ((with_reducible refine Foot.has_of_le hF ?_); (first | (simp (disch := first | omega | decide) only [F.CAN_CTRL_INIT_has, F.CAN_STAT_STATE_has]; done) | decide | (dsimp only; decide))) | ((with_reducible refine Foot.parts_of_le hF ?_); decide) | (exact ⟨by decide, by decide⟩) | (exact E.CAN_BUS_OFF_proper _) | lift_lets -underBinder | (with_reducible first | apply State.Only.ite | apply State.Only.levelEv | apply State.Only.put | apply State.Only.putFlag | apply State.canDiscard_only | apply State.canErrState_only | apply State.modCan_only | apply State.Only.effOk | apply State.Only.effError) | (first | split | (dsimp only [x]; split)) | (intro _))); clear_value x) | (intro x; clear_value x) | (with_reducible first | apply State.Only.ite | apply State.Only.levelEv | apply State.Only.put | apply State.Only.putFlag | apply State.canDiscard_only | apply State.canErrState_only | apply State.modCan_only | apply State.Only.effOk | apply State.Only.effError) | split | (intro _))

theorem State.canInit_only_some {g : Foot} {a s t : State} {l : Lane} {c : Fin 2} {b : Bool}
    (e : State.canInit s l c b = .ok t) (h : a.Only g s) (hF : Foot.le ⟨[.free, .can], [0x70], false⟩ g = true) : a.Only g t := State.canInit_only h _ _ _ hF t e

theorem execCanInit_only {g : Foot} {a s : State} (h : a.Only g s) (l : Lane) (c : Fin 2) (b : Bool)
    (hF : Foot.le ⟨[.hv, .free, .answer, .trc, .can, .loopReq], [0x10, 0x11, 0x40, 0x70], false⟩ g = true) :
    OutOnly g a (execCanInit l c b s) := by
  unfold execCanInit
  repeat' (first | (exact State.canInit_only_some (by assumption) (by with_reducible assumption) (Foot.le_trans (by decide) hF)) | with_reducible assumption | ((with_reducible refine Foot.le_trans ?_ hF); decide) | ((with_reducible refine Foot.has_of_le hF ?_); (first | decide | (dsimp only; decide))) | ((with_reducible refine Foot.parts_of_le hF ?_); decide) | (with_reducible first | apply State.Only.done | apply State.canInit_only | apply State.settleWrite_only | apply State.writing_only) | (intro _))

theorem execBusIntegration_only {g : Foot} {a s : State} (h : a.Only g s) (l : Lane) (c : Fin 2)
    (hF : Foot.le ⟨[.free, .can], [0x70], false⟩ g = true) :
    OutOnly g a (execBusIntegration l c s) := by
  unfold execBusIntegration
  repeat' (first | with_reducible assumption | ((with_reducible refine Foot.le_trans ?_ hF); decide) | ((with_reducible refine Foot.has_of_le hF ?_); (first | (simp (disch := first | omega | decide) only [F.CAN_CTRL_INIT_has, F.CAN_STAT_STATE_has, F.CAN_STAT_TEC_has]; done) | decide | (dsimp only; decide))) | ((with_reducible refine Foot.parts_of_le hF ?_); decide) | lift_lets -underBinder | (intro x; have hx : a.Only g x := (by repeat' (first | with_reducible assumption | ((with_reducible refine Foot.le_trans ?_ hF); decide) | ((with_reducible refine Foot.has_of_le hF ?_); (first | (simp (disch := first | omega | decide) only [F.CAN_CTRL_INIT_has, F.CAN_STAT_STATE_has, F.CAN_STAT_TEC_has]; done) | decide | (dsimp only; decide))) | ((with_reducible refine Foot.parts_of_le hF ?_); decide) | lift_lets -underBinder | (with_reducible first | apply State.Only.ite | apply State.Only.done | apply State.Only.put | apply State.canErrState_only | apply State.modCan_only) | (first | split | (dsimp only [x]; split)) | (intro _))); clear_value x) | (intro x; clear_value x) | (with_reducible first | apply State.Only.ite | apply State.Only.done | apply State.Only.put | apply State.canErrState_only | apply State.modCan_only) | split | (intro _))

theorem State.canPush_only {g : Foot} {a s : State} (h : a.Only g s) (l : Lane) (c : Fin 2) (dest : Nat)
    (hF : Foot.le ⟨[.can], [0x70], false⟩ g = true) :
    EffOnly g a (State.canPush s l c dest) := by
  unfold State.canPush
  repeat' (first | with_reducible assumption | ((with_reducible refine Foot.le_trans ?_ hF); decide) | ((with_reducible refine Foot.has_of_le hF ?_); (first | (simp (disch := first | omega | decide) only [F.CAN_CTRL_INIT_has, F.CAN_CTRL_FDE_has, F.CAN_CTRL_BRSE_has, F.CAN_TX_HDR_TAG_has]; done) | decide | (dsimp only; decide))) | ((with_reducible refine Foot.parts_of_le hF ?_); decide) | lift_lets -underBinder | (intro x; have hx : a.Only g x := (by repeat' (first | with_reducible assumption | ((with_reducible refine Foot.le_trans ?_ hF); decide) | ((with_reducible refine Foot.has_of_le hF ?_); (first | (simp (disch := first | omega | decide) only [F.CAN_CTRL_INIT_has, F.CAN_CTRL_FDE_has, F.CAN_CTRL_BRSE_has, F.CAN_TX_HDR_TAG_has]; done) | decide | (dsimp only; decide))) | ((with_reducible refine Foot.parts_of_le hF ?_); decide) | lift_lets -underBinder | (with_reducible first | apply State.Only.ite | apply State.modCan_only | apply State.showCan_only | apply State.Only.effOk | apply State.Only.effError) | (first | split | (dsimp only [x]; split)) | (intro _))); clear_value x) | (intro x; clear_value x) | (with_reducible first | apply State.Only.ite | apply State.modCan_only | apply State.showCan_only | apply State.Only.effOk | apply State.Only.effError) | split | (intro _))

theorem State.canPush_only_some {g : Foot} {a s t : State} {l : Lane} {c : Fin 2} {dest : Nat}
    (e : State.canPush s l c dest = .ok t) (h : a.Only g s) (hF : Foot.le ⟨[.can], [0x70], false⟩ g = true) : a.Only g t := State.canPush_only h _ _ _ hF t e

theorem execTxPush_only {g : Foot} {a s : State} (h : a.Only g s) (l : Lane) (c : Fin 2) (dest : BitVec 3) (p : BusPhase)
    (hF : Foot.le ⟨[.hv, .answer, .trc, .can, .loopReq], [0x10, 0x11, 0x40, 0x70], false⟩ g = true) :
    OutOnly g a (execTxPush l c dest p s) := by
  unfold execTxPush
  repeat' (first | (exact State.canPush_only_some (by assumption) (by with_reducible assumption) (Foot.le_trans (by decide) hF)) | with_reducible assumption | ((with_reducible refine Foot.le_trans ?_ hF); decide) | ((with_reducible refine Foot.has_of_le hF ?_); (first | decide | (dsimp only; decide))) | ((with_reducible refine Foot.parts_of_le hF ?_); decide) | lift_lets -underBinder | (intro x; have hx : a.Only g x := (by repeat' (first | (exact State.canPush_only_some (by assumption) (by with_reducible assumption) (Foot.le_trans (by decide) hF)) | with_reducible assumption | ((with_reducible refine Foot.le_trans ?_ hF); decide) | ((with_reducible refine Foot.has_of_le hF ?_); (first | decide | (dsimp only; decide))) | ((with_reducible refine Foot.parts_of_le hF ?_); decide) | lift_lets -underBinder | (with_reducible first | apply State.Only.done | apply State.canPhase_only | apply State.canPush_only | apply State.settleWrite_only | apply State.writing_only) | (intro _))); clear_value x) | (intro x; clear_value x) | (with_reducible first | apply State.Only.done | apply State.canPhase_only | apply State.canPush_only | apply State.settleWrite_only | apply State.writing_only) | (intro _))

theorem State.cancelSrc_only {g : Foot} {a s : State} (h : a.Only g s) (l : Lane) (c : Fin 2) (src : Nat)
    (hF : Foot.le ⟨[.free, .can], [0x70], false⟩ g = true) :
    a.Only g (State.cancelSrc s l c src) := by
  unfold State.cancelSrc
  repeat' (first | with_reducible assumption | ((with_reducible refine Foot.le_trans ?_ hF); decide) | ((with_reducible refine Foot.has_of_le hF ?_); (first | decide | (dsimp only; decide))) | ((with_reducible refine Foot.parts_of_le hF ?_); decide) | (with_reducible first | apply State.Only.ite | apply State.canDrop_only | apply State.modCan_only) | split | (intro _))

theorem State.canCancel_only {g : Foot} {a s : State} (h : a.Only g s) (l : Lane) (c : Fin 2) (kind : Nat) (sel : Nat)
    (hF : Foot.le ⟨[.free, .can], [0x70], false⟩ g = true) :
    a.Only g (State.canCancel s l c kind sel) := by
  unfold State.canCancel
  repeat' (first | with_reducible assumption | ((with_reducible refine Foot.le_trans ?_ hF); decide) | ((with_reducible refine Foot.has_of_le hF ?_); (first | decide | (dsimp only; decide))) | ((with_reducible refine Foot.parts_of_le hF ?_); decide) | lift_lets -underBinder | (intro x; have hx : a.Only g x := (by repeat' (first | with_reducible assumption | ((with_reducible refine Foot.le_trans ?_ hF); decide) | ((with_reducible refine Foot.has_of_le hF ?_); (first | decide | (dsimp only; decide))) | ((with_reducible refine Foot.parts_of_le hF ?_); decide) | lift_lets -underBinder | (with_reducible first | apply State.Only.ite | apply State.Only.fold | apply State.canDrop_only | apply State.cancelSrc_only | apply State.modCan_only | apply State.showCan_only) | (first | split | (dsimp only [x]; split)) | (intro _))); clear_value x) | (intro x; clear_value x) | (with_reducible first | apply State.Only.ite | apply State.Only.fold | apply State.canDrop_only | apply State.cancelSrc_only | apply State.modCan_only | apply State.showCan_only) | split | (intro _))

theorem State.cancelVia_only {g : Foot} {a s : State} (h : a.Only g s) (l : Lane) (c : Fin 2) (p : BusPhase) (kind : Nat) (sel : Nat)
    (hF : Foot.le ⟨[.free, .answer, .can], [0x70], false⟩ g = true) :
    a.Only g (State.cancelVia s l c p kind sel) := by
  unfold State.cancelVia
  repeat' (first | with_reducible assumption | ((with_reducible refine Foot.le_trans ?_ hF); decide) | ((with_reducible refine Foot.has_of_le hF ?_); (first | decide | (dsimp only; decide))) | ((with_reducible refine Foot.parts_of_le hF ?_); decide) | (with_reducible first | apply State.canCancel_only | apply State.canPhase_only | apply State.reply_only | apply State.writing_only) | (intro _))

theorem execCancelTag_only {g : Foot} {a s : State} (h : a.Only g s) (l : Lane) (c : Fin 2) (tag : Byte) (p : BusPhase)
    (hF : Foot.le ⟨[.free, .answer, .can], [0x70], false⟩ g = true) :
    OutOnly g a (execCancelTag l c tag p s) := by
  unfold execCancelTag
  repeat' (first | with_reducible assumption | ((with_reducible refine Foot.le_trans ?_ hF); decide) | ((with_reducible refine Foot.has_of_le hF ?_); (first | decide | (dsimp only; decide))) | ((with_reducible refine Foot.parts_of_le hF ?_); decide) | (with_reducible first | apply State.Only.done | apply State.cancelVia_only) | (intro _))

theorem execCancelSlot_only {g : Foot} {a s : State} (h : a.Only g s) (l : Lane) (c : Fin 2) (k : Fin 4) (p : BusPhase)
    (hF : Foot.le ⟨[.free, .answer, .can], [0x70], false⟩ g = true) :
    OutOnly g a (execCancelSlot l c k p s) := by
  unfold execCancelSlot
  repeat' (first | with_reducible assumption | ((with_reducible refine Foot.le_trans ?_ hF); decide) | ((with_reducible refine Foot.has_of_le hF ?_); (first | decide | (dsimp only; decide))) | ((with_reducible refine Foot.parts_of_le hF ?_); decide) | (with_reducible first | apply State.Only.done | apply State.cancelVia_only) | (intro _))

theorem execCancelAll_only {g : Foot} {a s : State} (h : a.Only g s) (l : Lane) (c : Fin 2) (p : BusPhase)
    (hF : Foot.le ⟨[.free, .answer, .can], [0x70], false⟩ g = true) :
    OutOnly g a (execCancelAll l c p s) := by
  unfold execCancelAll
  repeat' (first | with_reducible assumption | ((with_reducible refine Foot.le_trans ?_ hF); decide) | ((with_reducible refine Foot.has_of_le hF ?_); (first | decide | (dsimp only; decide))) | ((with_reducible refine Foot.parts_of_le hF ?_); decide) | (with_reducible first | apply State.Only.done | apply State.cancelVia_only) | (intro _))

theorem State.canPopRx_only {g : Foot} {a s : State} (h : a.Only g s) (l : Lane) (c : Fin 2)
    (hF : Foot.le ⟨[.can], [0x70], false⟩ g = true) :
    a.Only g (State.canPopRx s l c) := by
  unfold State.canPopRx
  repeat' (first | with_reducible assumption | ((with_reducible refine Foot.le_trans ?_ hF); decide) | ((with_reducible refine Foot.has_of_le hF ?_); (first | decide | (dsimp only; decide))) | ((with_reducible refine Foot.parts_of_le hF ?_); decide) | (with_reducible first | apply State.modCan_only | apply State.showCan_only) | (intro _))

theorem State.canPopTxc_only {g : Foot} {a s : State} (h : a.Only g s) (l : Lane) (c : Fin 2)
    (hF : Foot.le ⟨[.can], [0x70], false⟩ g = true) :
    a.Only g (State.canPopTxc s l c) := by
  unfold State.canPopTxc
  repeat' (first | with_reducible assumption | ((with_reducible refine Foot.le_trans ?_ hF); decide) | ((with_reducible refine Foot.has_of_le hF ?_); (first | decide | (dsimp only; decide))) | ((with_reducible refine Foot.parts_of_le hF ?_); decide) | (with_reducible first | apply State.modCan_only | apply State.showCan_only) | (intro _))

theorem execPopRx_only {g : Foot} {a s : State} (h : a.Only g s) (l : Lane) (c : Fin 2)
    (hF : Foot.le ⟨[.answer, .can], [0x70], false⟩ g = true) :
    OutOnly g a (execPopRx l c s) := by
  unfold execPopRx
  repeat' (first | with_reducible assumption | ((with_reducible refine Foot.le_trans ?_ hF); decide) | ((with_reducible refine Foot.has_of_le hF ?_); (first | decide | (dsimp only; decide))) | ((with_reducible refine Foot.parts_of_le hF ?_); decide) | (with_reducible first | apply State.Only.done | apply State.canPopRx_only | apply State.reply_only | apply State.writing_only) | (intro _))

theorem execPopTxc_only {g : Foot} {a s : State} (h : a.Only g s) (l : Lane) (c : Fin 2)
    (hF : Foot.le ⟨[.answer, .can], [0x70], false⟩ g = true) :
    OutOnly g a (execPopTxc l c s) := by
  unfold execPopTxc
  repeat' (first | with_reducible assumption | ((with_reducible refine Foot.le_trans ?_ hF); decide) | ((with_reducible refine Foot.has_of_le hF ?_); (first | decide | (dsimp only; decide))) | ((with_reducible refine Foot.parts_of_le hF ?_); decide) | (with_reducible first | apply State.Only.done | apply State.canPopTxc_only | apply State.reply_only | apply State.writing_only) | (intro _))

theorem State.canRecReq_only {g : Foot} {a s : State} (h : a.Only g s) (l : Lane) (c : Fin 2)
    (hF : Foot.le ⟨[.can], [], false⟩ g = true) :
    a.Only g (State.canRecReq s l c) := by
  unfold State.canRecReq
  repeat' (first | with_reducible assumption | ((with_reducible refine Foot.le_trans ?_ hF); decide) | ((with_reducible refine Foot.has_of_le hF ?_); (first | (simp (disch := first | omega | decide) only [F.CAN_STAT_STATE_has]; done) | decide | (dsimp only; decide))) | ((with_reducible refine Foot.parts_of_le hF ?_); decide) | (with_reducible first | apply State.Only.ite | apply State.modCan_only) | (intro _))

theorem execRecReq_only {g : Foot} {a s : State} (h : a.Only g s) (l : Lane) (c : Fin 2)
    (hF : Foot.le ⟨[.answer, .can], [], false⟩ g = true) :
    OutOnly g a (execRecReq l c s) := by
  unfold execRecReq
  repeat' (first | with_reducible assumption | ((with_reducible refine Foot.le_trans ?_ hF); decide) | ((with_reducible refine Foot.has_of_le hF ?_); (first | decide | (dsimp only; decide))) | ((with_reducible refine Foot.parts_of_le hF ?_); decide) | (with_reducible first | apply State.Only.done | apply State.canRecReq_only | apply State.reply_only | apply State.writing_only) | (intro _))

theorem State.canClrOvf_only {g : Foot} {a s : State} (h : a.Only g s) (l : Lane) (c : Fin 2)
    (hF : Foot.le ⟨[], [0x70], false⟩ g = true) :
    a.Only g (State.canClrOvf s l c) := by
  unfold State.canClrOvf
  repeat' (first | with_reducible assumption | ((with_reducible refine Foot.le_trans ?_ hF); decide) | ((with_reducible refine Foot.has_of_le hF ?_); (first | (simp (disch := first | omega | decide) only [F.CAN_RXQ_OVF_CNT_has]; done) | decide | (dsimp only; decide))) | ((with_reducible refine Foot.parts_of_le hF ?_); decide) | (with_reducible first | apply State.Only.put) | (intro _))

theorem State.canClrCnt_only {g : Foot} {a s : State} (h : a.Only g s) (l : Lane) (c : Fin 2)
    (hF : Foot.le ⟨[], [0x70], false⟩ g = true) :
    a.Only g (State.canClrCnt s l c) := by
  unfold State.canClrCnt
  repeat' (first | with_reducible assumption | ((with_reducible refine Foot.le_trans ?_ hF); decide) | ((with_reducible refine Foot.has_of_le hF ?_); (first | (simp (disch := first | omega | decide) only [F.CAN_CNT_TXOK_has]; done) | decide | (dsimp only; decide))) | ((with_reducible refine Foot.parts_of_le hF ?_); decide) | (with_reducible first | apply State.Only.putWord) | (intro _))

theorem execCanClrOvf_only {g : Foot} {a s : State} (h : a.Only g s) (l : Lane) (c : Fin 2)
    (hF : Foot.le ⟨[.answer], [0x70], false⟩ g = true) :
    OutOnly g a (execCanClrOvf l c s) := by
  unfold execCanClrOvf
  repeat' (first | with_reducible assumption | ((with_reducible refine Foot.le_trans ?_ hF); decide) | ((with_reducible refine Foot.has_of_le hF ?_); (first | decide | (dsimp only; decide))) | ((with_reducible refine Foot.parts_of_le hF ?_); decide) | (with_reducible first | apply State.Only.done | apply State.canClrOvf_only | apply State.reply_only | apply State.writing_only) | (intro _))

theorem execCanClrCnt_only {g : Foot} {a s : State} (h : a.Only g s) (l : Lane) (c : Fin 2)
    (hF : Foot.le ⟨[.answer], [0x70], false⟩ g = true) :
    OutOnly g a (execCanClrCnt l c s) := by
  unfold execCanClrCnt
  repeat' (first | with_reducible assumption | ((with_reducible refine Foot.le_trans ?_ hF); decide) | ((with_reducible refine Foot.has_of_le hF ?_); (first | decide | (dsimp only; decide))) | ((with_reducible refine Foot.parts_of_le hF ?_); decide) | (with_reducible first | apply State.Only.done | apply State.canClrCnt_only | apply State.reply_only | apply State.writing_only) | (intro _))

theorem State.canAttempt_only {g : Foot} {a s t : State} {l : Lane} {c : Fin 2} {o : Option (Nat × TxEntry)}
    (e : s.canAttempt l c = (o, t)) (h : a.Only g s) (hF : Foot.le ⟨[.can], [], false⟩ g = true) : a.Only g t := by
  have : t = s.canPhase l c .before := (congrArg Prod.snd e).symm
  rw [this]
  exact State.canPhase_only h _ _ _ hF

theorem execArbitrationLost_only {g : Foot} {a s : State} (h : a.Only g s) (l : Lane) (c : Fin 2) (age : Nat)
    (hF : Foot.le ⟨[.can], [0x70], false⟩ g = true) :
    OutOnly g a (execArbitrationLost l c age s) := by
  unfold execArbitrationLost
  repeat' (first | (exact State.canAttempt_only (by assumption) (by with_reducible assumption) (Foot.le_trans (by decide) hF)) | with_reducible assumption | ((with_reducible refine Foot.le_trans ?_ hF); decide) | ((with_reducible refine Foot.has_of_le hF ?_); (first | (simp (disch := first | omega | decide) only [F.CAN_CTRL_ONESHOT_has]; done) | decide | (dsimp only; decide))) | ((with_reducible refine Foot.parts_of_le hF ?_); decide) | lift_lets -underBinder | (intro x; have hx : a.Only g x := (by repeat' (first | (exact State.canAttempt_only (by assumption) (by with_reducible assumption) (Foot.le_trans (by decide) hF)) | with_reducible assumption | ((with_reducible refine Foot.le_trans ?_ hF); decide) | ((with_reducible refine Foot.has_of_le hF ?_); (first | (simp (disch := first | omega | decide) only [F.CAN_CTRL_ONESHOT_has]; done) | decide | (dsimp only; decide))) | ((with_reducible refine Foot.parts_of_le hF ?_); decide) | lift_lets -underBinder | (with_reducible first | apply State.Only.ite | apply State.Only.done | apply State.canEnd_only | apply State.canNoAck_only) | (first | split | (dsimp only [x]; split)) | (intro _))); clear_value x) | (intro x; clear_value x) | (with_reducible first | apply State.Only.ite | apply State.Only.done | apply State.canEnd_only | apply State.canNoAck_only) | split | (intro _))

theorem State.canToCls_only {g : Foot} {a s : State} (h : a.Only g s) (l : Lane) (c : Fin 2) (f : CanFrame)
    (hF : Foot.le ⟨[.cls], [], false⟩ g = true) :
    a.Only g (State.canToCls s l c f) := by
  unfold State.canToCls
  repeat' (first | with_reducible assumption | ((with_reducible refine Foot.le_trans ?_ hF); decide) | ((with_reducible refine Foot.has_of_le hF ?_); (first | (simp (disch := first | omega | decide) only [F.CLS_CFG_EN_has, F.CLS_CFG_DIR_has, F.CLS_CFG_CAR_has, F.CLS_CFG_CANC_has, F.CLS_LOC_IDE_has, F.CLS_LOC_LOC_has]; done) | decide | (dsimp only; decide))) | ((with_reducible refine Foot.parts_of_le hF ?_); decide) | (intro x p hp; cases p <;> first | rfl | trivial | exact absurd (Foot.parts_of_le hF (by decide)) hp) | (exact Or.inr (fun _ => rfl)) | (with_reducible first | apply State.Only.ite | apply State.Only.fold | apply State.Only.lane) | (intro _))

theorem State.canStore_only {g : Foot} {a s : State} (h : a.Only g s) (l : Lane) (c : Fin 2) (r : RxFrame)
    (hF : Foot.le ⟨[.can], [0x70], false⟩ g = true) :
    a.Only g (State.canStore s l c r) := by
  unfold State.canStore
  repeat' (first | with_reducible assumption | ((with_reducible refine Foot.le_trans ?_ hF); decide) | ((with_reducible refine Foot.has_of_le hF ?_); (first | (simp (disch := first | omega | decide) only [F.CAN_RXQ_OVF_CNT_has, F.CAN_RXQ_WM_has]; done) | decide | (dsimp only; decide))) | ((with_reducible refine Foot.parts_of_le hF ?_); decide) | (exact ⟨by decide, by decide⟩) | (exact E.CAN_RX_proper _) | (exact E.CAN_RX_OVF_proper _) | lift_lets -underBinder | (intro x; have hx : a.Only g x := (by repeat' (first | with_reducible assumption | ((with_reducible refine Foot.le_trans ?_ hF); decide) | ((with_reducible refine Foot.has_of_le hF ?_); (first | (simp (disch := first | omega | decide) only [F.CAN_RXQ_OVF_CNT_has, F.CAN_RXQ_WM_has]; done) | decide | (dsimp only; decide))) | ((with_reducible refine Foot.parts_of_le hF ?_); decide) | (exact ⟨by decide, by decide⟩) | (exact E.CAN_RX_proper _) | (exact E.CAN_RX_OVF_proper _) | lift_lets -underBinder | (with_reducible first | apply State.Only.ite | apply State.Only.bump | apply State.Only.pulseEv | apply State.modCan_only | apply State.showCan_only) | (intro _))); clear_value x) | (intro x; clear_value x) | (with_reducible first | apply State.Only.ite | apply State.Only.bump | apply State.Only.pulseEv | apply State.modCan_only | apply State.showCan_only) | (intro _))

theorem State.canTake_only {g : Foot} {a s : State} (h : a.Only g s) (l : Lane) (c : Fin 2) (f : CanFrame) (age : Nat)
    (hF : Foot.le ⟨[.cls, .can], [0x70], false⟩ g = true) :
    a.Only g (State.canTake s l c f age) := by
  unfold State.canTake
  repeat' (first | with_reducible assumption | ((with_reducible refine Foot.le_trans ?_ hF); decide) | ((with_reducible refine Foot.has_of_le hF ?_); (first | decide | (dsimp only; decide))) | ((with_reducible refine Foot.parts_of_le hF ?_); decide) | lift_lets -underBinder | (intro x; have hx : a.Only g x := (by repeat' (first | with_reducible assumption | ((with_reducible refine Foot.le_trans ?_ hF); decide) | ((with_reducible refine Foot.has_of_le hF ?_); (first | decide | (dsimp only; decide))) | ((with_reducible refine Foot.parts_of_le hF ?_); decide) | lift_lets -underBinder | (with_reducible first | apply State.Only.ite | apply State.canStore_only | apply State.canToCls_only) | (first | split | (dsimp only [x]; split)) | (intro _))); clear_value x) | (intro x; clear_value x) | (with_reducible first | apply State.Only.ite | apply State.canStore_only | apply State.canToCls_only) | split | (intro _))

theorem execCanRxFrame_only {g : Foot} {a s : State} (h : a.Only g s) (l : Lane) (c : Fin 2) (f : CanFrame) (age : Nat)
    (hF : Foot.le ⟨[.free, .cls, .can], [0x70], false⟩ g = true) :
    OutOnly g a (execCanRxFrame l c f age s) := by
  unfold execCanRxFrame
  repeat' (first | with_reducible assumption | ((with_reducible refine Foot.le_trans ?_ hF); decide) | ((with_reducible refine Foot.has_of_le hF ?_); (first | (simp (disch := first | omega | decide) only [F.CAN_STAT_STATE_has, F.CAN_STAT_TEC_has]; done) | decide | (dsimp only; decide))) | ((with_reducible refine Foot.parts_of_le hF ?_); decide) | lift_lets -underBinder | (intro x; have hx : a.Only g x := (by repeat' (first | with_reducible assumption | ((with_reducible refine Foot.le_trans ?_ hF); decide) | ((with_reducible refine Foot.has_of_le hF ?_); (first | (simp (disch := first | omega | decide) only [F.CAN_STAT_STATE_has, F.CAN_STAT_TEC_has]; done) | decide | (dsimp only; decide))) | ((with_reducible refine Foot.parts_of_le hF ?_); decide) | lift_lets -underBinder | (with_reducible first | apply State.Only.ite | apply State.Only.done | apply State.Only.fresh | apply State.canErrState_only | apply State.canTake_only) | (first | split | (dsimp only [x]; split)) | (intro _))); clear_value x) | (intro x; clear_value x) | (with_reducible first | apply State.Only.ite | apply State.Only.done | apply State.Only.fresh | apply State.canErrState_only | apply State.canTake_only) | split | (intro _))

theorem execTxComplete_only {g : Foot} {a s : State} (h : a.Only g s) (l : Lane) (c : Fin 2) (age : Nat)
    (hF : Foot.le ⟨[.free, .cls, .can], [0x70], false⟩ g = true) :
    OutOnly g a (execTxComplete l c age s) := by
  unfold execTxComplete
  repeat' (first | (exact State.canAttempt_only (by assumption) (by with_reducible assumption) (Foot.le_trans (by decide) hF)) | with_reducible assumption | ((with_reducible refine Foot.le_trans ?_ hF); decide) | ((with_reducible refine Foot.has_of_le hF ?_); (first | (simp (disch := first | omega | decide) only [F.CAN_STAT_TEC_has, F.CAN_CTRL_MODE_has]; done) | decide | (dsimp only; decide))) | ((with_reducible refine Foot.parts_of_le hF ?_); decide) | lift_lets -underBinder | (intro x; have hx : a.Only g x := (by repeat' (first | (exact State.canAttempt_only (by assumption) (by with_reducible assumption) (Foot.le_trans (by decide) hF)) | with_reducible assumption | ((with_reducible refine Foot.le_trans ?_ hF); decide) | ((with_reducible refine Foot.has_of_le hF ?_); (first | (simp (disch := first | omega | decide) only [F.CAN_STAT_TEC_has, F.CAN_CTRL_MODE_has]; done) | decide | (dsimp only; decide))) | ((with_reducible refine Foot.parts_of_le hF ?_); decide) | lift_lets -underBinder | (with_reducible first | apply State.Only.ite | apply State.Only.done | apply State.canEnd_only | apply State.canErrState_only | apply State.canTake_only) | (first | split | (dsimp only [x]; split)) | (intro _))); clear_value x) | (intro x; clear_value x) | (with_reducible first | apply State.Only.ite | apply State.Only.done | apply State.canEnd_only | apply State.canErrState_only | apply State.canTake_only) | split | (intro _))

theorem State.canErr_only {g : Foot} {a s : State} (h : a.Only g s) (l : Lane) (c : Fin 2) (err : Nat) (data : Bool)
    (hF : Foot.le ⟨[], [0x70], false⟩ g = true) : a.Only g (State.canErr s l c err data) := by
  refine State.Only.put h _ _ _ (Foot.has_of_le hF ?_)
  have : ∀ (c : Fin 2) (d : Bool), typeAt (if d then F.CAN_STAT_DLEC c.val else F.CAN_STAT_LEC c.val).addr = 0x70 := by decide
  exact Foot.has_type (this c data) (by decide)

theorem execTxError_only {g : Foot} {a s : State} (h : a.Only g s) (l : Lane) (c : Fin 2) (err : BitVec 3) (data : Bool) (dominant : Bool) (spared : Bool) (age : Nat)
    (hF : Foot.le ⟨[.free, .can], [0x70], false⟩ g = true) :
    OutOnly g a (execTxError l c err data dominant spared age s) := by
  unfold execTxError
  repeat' (first | (exact State.canAttempt_only (by assumption) (by with_reducible assumption) (Foot.le_trans (by decide) hF)) | with_reducible assumption | ((with_reducible refine Foot.le_trans ?_ hF); decide) | ((with_reducible refine Foot.has_of_le hF ?_); (first | (simp (disch := first | omega | decide) only [F.CAN_STAT_STATE_has, F.CAN_STAT_TEC_has, F.CAN_CTRL_RETRY_has, F.CAN_CTRL_ONESHOT_has]; done) | decide | (dsimp only; decide))) | ((with_reducible refine Foot.parts_of_le hF ?_); decide) | lift_lets -underBinder | (intro x; have hx : a.Only g x := (by repeat' (first | (exact State.canAttempt_only (by assumption) (by with_reducible assumption) (Foot.le_trans (by decide) hF)) | with_reducible assumption | ((with_reducible refine Foot.le_trans ?_ hF); decide) | ((with_reducible refine Foot.has_of_le hF ?_); (first | (simp (disch := first | omega | decide) only [F.CAN_STAT_STATE_has, F.CAN_STAT_TEC_has, F.CAN_CTRL_RETRY_has, F.CAN_CTRL_ONESHOT_has]; done) | decide | (dsimp only; decide))) | ((with_reducible refine Foot.parts_of_le hF ?_); decide) | lift_lets -underBinder | (with_reducible first | apply State.Only.ite | apply State.Only.done | apply State.canBusOff_only | apply State.canEnd_only | apply State.canErrState_only | apply State.canErr_only | apply State.canNoAck_only | apply State.modCan_only) | (first | split | (dsimp only [x]; split)) | (intro _))); clear_value x) | (intro x; clear_value x) | (with_reducible first | apply State.Only.ite | apply State.Only.done | apply State.canBusOff_only | apply State.canEnd_only | apply State.canErrState_only | apply State.canErr_only | apply State.canNoAck_only | apply State.modCan_only) | split | (intro _))

theorem execBusOffRecovery_only {g : Foot} {a s : State} (h : a.Only g s) (l : Lane) (c : Fin 2)
    (hF : Foot.le ⟨[.free, .can], [0x70], false⟩ g = true) :
    OutOnly g a (execBusOffRecovery l c s) := by
  unfold execBusOffRecovery
  repeat' (first | with_reducible assumption | ((with_reducible refine Foot.le_trans ?_ hF); decide) | ((with_reducible refine Foot.has_of_le hF ?_); (first | (simp (disch := first | omega | decide) only [F.CAN_STAT_STATE_has]; done) | decide | (dsimp only; decide))) | ((with_reducible refine Foot.parts_of_le hF ?_); decide) | (exact ⟨by decide, by decide⟩) | (exact E.CAN_BUS_OFF_proper _) | lift_lets -underBinder | (intro x; have hx : a.Only g x := (by repeat' (first | with_reducible assumption | ((with_reducible refine Foot.le_trans ?_ hF); decide) | ((with_reducible refine Foot.has_of_le hF ?_); (first | (simp (disch := first | omega | decide) only [F.CAN_STAT_STATE_has]; done) | decide | (dsimp only; decide))) | ((with_reducible refine Foot.parts_of_le hF ?_); decide) | (exact ⟨by decide, by decide⟩) | (exact E.CAN_BUS_OFF_proper _) | lift_lets -underBinder | (with_reducible first | apply State.Only.ite | apply State.Only.done | apply State.Only.levelEv | apply State.Only.put | apply State.canErrState_only | apply State.modCan_only) | (first | split | (dsimp only [x]; split)) | (intro _))); clear_value x) | (intro x; clear_value x) | (with_reducible first | apply State.Only.ite | apply State.Only.done | apply State.Only.levelEv | apply State.Only.put | apply State.canErrState_only | apply State.modCan_only) | split | (intro _))

theorem execCanRxError_only {g : Foot} {a s : State} (h : a.Only g s) (l : Lane) (c : Fin 2) (err : BitVec 3) (data : Bool) (eight : Bool)
    (hF : Foot.le ⟨[.free, .can], [0x70], false⟩ g = true) :
    OutOnly g a (execCanRxError l c err data eight s) := by
  unfold execCanRxError
  repeat' (first | with_reducible assumption | ((with_reducible refine Foot.le_trans ?_ hF); decide) | ((with_reducible refine Foot.has_of_le hF ?_); (first | (simp (disch := first | omega | decide) only [F.CAN_STAT_STATE_has, F.CAN_STAT_TEC_has]; done) | decide | (dsimp only; decide))) | ((with_reducible refine Foot.parts_of_le hF ?_); decide) | lift_lets -underBinder | (intro x; have hx : a.Only g x := (by repeat' (first | with_reducible assumption | ((with_reducible refine Foot.le_trans ?_ hF); decide) | ((with_reducible refine Foot.has_of_le hF ?_); (first | (simp (disch := first | omega | decide) only [F.CAN_STAT_STATE_has, F.CAN_STAT_TEC_has]; done) | decide | (dsimp only; decide))) | ((with_reducible refine Foot.parts_of_le hF ?_); decide) | lift_lets -underBinder | (with_reducible first | apply State.Only.ite | apply State.Only.done | apply State.canErrState_only | apply State.canErr_only) | (first | split | (dsimp only [x]; split)) | (intro _))); clear_value x) | (intro x; clear_value x) | (with_reducible first | apply State.Only.ite | apply State.Only.done | apply State.canErrState_only | apply State.canErr_only) | split | (intro _))

theorem execCanProtocolException_only {g : Foot} {a s : State} (h : a.Only g s) (l : Lane) (c : Fin 2)
    (hF : Foot.le ⟨[.can], [0x70], false⟩ g = true) :
    OutOnly g a (execCanProtocolException l c s) := by
  unfold execCanProtocolException
  repeat' (first | with_reducible assumption | ((with_reducible refine Foot.le_trans ?_ hF); decide) | ((with_reducible refine Foot.has_of_le hF ?_); (first | (simp (disch := first | omega | decide) only [F.CAN_STAT_STATE_has, F.CAN_CTRL_PXHD_has]; done) | decide | (dsimp only; decide))) | ((with_reducible refine Foot.parts_of_le hF ?_); decide) | (exact ⟨by decide, by decide⟩) | (exact E.CAN_PROTO_EXC_proper _) | lift_lets -underBinder | (intro x; have hx : a.Only g x := (by repeat' (first | with_reducible assumption | ((with_reducible refine Foot.le_trans ?_ hF); decide) | ((with_reducible refine Foot.has_of_le hF ?_); (first | (simp (disch := first | omega | decide) only [F.CAN_STAT_STATE_has, F.CAN_CTRL_PXHD_has]; done) | decide | (dsimp only; decide))) | ((with_reducible refine Foot.parts_of_le hF ?_); decide) | (exact ⟨by decide, by decide⟩) | (exact E.CAN_PROTO_EXC_proper _) | lift_lets -underBinder | (with_reducible first | apply State.Only.ite | apply State.Only.done | apply State.Only.pulseEv | apply State.Only.put | apply State.modCan_only) | (first | split | (dsimp only [x]; split)) | (intro _))); clear_value x) | (intro x; clear_value x) | (with_reducible first | apply State.Only.ite | apply State.Only.done | apply State.Only.pulseEv | apply State.Only.put | apply State.modCan_only) | split | (intro _))

end Sys2Proof.Machine
end

