-- ==== Sys2Proof/Laws/Only/Mem.lean ====
section
/-! SUPPORT. What the operations of Mem may change. -/
namespace Sys2Proof.Machine
set_option linter.all false
set_option Elab.async false

theorem State.loseBank_only {g : Foot} {a s : State} (h : a.Only g s) (l : Lane) (b : Nat)
    (hF : Foot.le ⟨[.boot, .mem, .red], [0x40], false⟩ g = true) :
    a.Only g (State.loseBank s l b) := by
  unfold State.loseBank
  repeat' (first | with_reducible assumption | ((with_reducible refine Foot.le_trans ?_ hF); decide) | ((with_reducible refine Foot.has_of_le hF ?_); (first | decide | (dsimp only; decide))) | ((with_reducible refine Foot.parts_of_le hF ?_); decide) | (intro x p hp; cases p <;> first | rfl | trivial | exact absurd (Foot.parts_of_le hF (by decide)) hp) | (exact Or.inr (fun _ => rfl)) | lift_lets -underBinder | (intro x; have hx : a.Only g x := (by repeat' (first | with_reducible assumption | ((with_reducible refine Foot.le_trans ?_ hF); decide) | ((with_reducible refine Foot.has_of_le hF ?_); (first | decide | (dsimp only; decide))) | ((with_reducible refine Foot.parts_of_le hF ?_); decide) | (intro x p hp; cases p <;> first | rfl | trivial | exact absurd (Foot.parts_of_le hF (by decide)) hp) | (exact Or.inr (fun _ => rfl)) | lift_lets -underBinder | (with_reducible first | apply State.Only.ite | apply State.Only.boot | apply State.Only.lane | apply State.Only.put | apply State.Only.red) | (first | split | (dsimp only [x]; split)) | (intro _))); clear_value x) | (intro x; clear_value x) | (with_reducible first | apply State.Only.ite | apply State.Only.boot | apply State.Only.lane | apply State.Only.put | apply State.Only.red) | split | (intro _))

theorem State.memPwr_only {g : Foot} {a s : State} (h : a.Only g s) (l : Lane) (w : Word) (hF : Foot.le ⟨[.boot, .mem, .red, .scrub], [0x40], false⟩ g = true) :
    EffOnly g a (State.memPwr s l w) := by
  unfold State.memPwr
  split
  · exact State.Only.effError _
  · dsimp only
    split
    · exact State.Only.effError _
    · refine State.Only.effOk (State.Only.fold _ _ h (fun t b ht => ?_))
      have ev : ∀ f : Foot, f.has (F.MEM_PWR_STATE b.val).addr = true := fun f => by simp [Foot.has, evAddr, F.MEM_PWR_STATE]
      refine State.Only.ite (fun _ => ht) (fun _ => ?_)
      have k := State.Only.putFlag (State.Only.put ht l (F.MEM_PWR_STATE b.val) (bits w (2 * b.val) 2) (ev g)) l
        ⟨F.MEM_PWR_STAT_BUSY.addr, 16 + b.val, 1⟩ true (Foot.has_of_le hF (by dsimp only; decide))
      have k2 := State.Only.part .scrub k l (fun x => { x with scrub := x.scrub.set b (0, ((t.put l (F.MEM_PWR_STATE b.val) (bits w (2 * b.val) 2)).putFlag l
        ⟨F.MEM_PWR_STAT_BUSY.addr, 16 + b.val, 1⟩ true).time) }) (fun x p hp => by
        cases p <;> first | rfl | trivial | exact absurd rfl hp) (fun _ => rfl) (Foot.parts_of_le hF (by decide))
      have k3 := State.Only.ite (p := (bits w (2 * b.val) 2 == 0) = true) (fun _ => k2) (fun _ => k)
      exact State.Only.ite (fun _ => State.loseBank_only k3 l b.val (Foot.le_trans (by decide) hF)) (fun _ => k3)

theorem execMemPwr_only {g : Foot} {a s : State} (h : a.Only g s) (l : Lane) (w : Word)
    (hF : Foot.le ⟨[.hv, .boot, .mem, .answer, .red, .trc, .loopReq, .scrub], [0x10, 0x11, 0x40], false⟩ g = true) :
    OutOnly g a (execMemPwr l w s) := by
  unfold execMemPwr
  repeat' (first | with_reducible assumption | ((with_reducible refine Foot.le_trans ?_ hF); decide) | ((with_reducible refine Foot.has_of_le hF ?_); (first | decide | (dsimp only; decide))) | ((with_reducible refine Foot.parts_of_le hF ?_); decide) | (with_reducible first | apply State.Only.done | apply State.memPwr_only | apply State.settleWrite_only | apply State.writing_only) | (intro _))

theorem execMemPwrDone_only {g : Foot} {a s : State} (h : a.Only g s) (l : Lane) (b : Fin 16)
    (hF : Foot.le ⟨[], [], false⟩ g = true) :
    OutOnly g a (execMemPwrDone l b s) := by
  unfold execMemPwrDone
  repeat' (first | with_reducible assumption | ((with_reducible refine Foot.le_trans ?_ hF); decide) | ((with_reducible refine Foot.has_of_le hF ?_); (first | decide | (dsimp only; decide))) | ((with_reducible refine Foot.parts_of_le hF ?_); decide) | (with_reducible first | apply State.Only.ite | apply State.Only.done | apply State.Only.putFlag) | split | (intro _))

theorem State.eccError_only {g : Foot} {a s : State} (h : a.Only g s) (l : Lane) (b : Nat) (word : Nat) (double : Bool) (scrub : Bool)
    (hF : Foot.le ⟨[.boot, .red], [0x04, 0x40], false⟩ g = true) :
    a.Only g (State.eccError s l b word double scrub) := by
  unfold State.eccError
  repeat' (first | with_reducible assumption | ((with_reducible refine Foot.le_trans ?_ hF); decide) | ((with_reducible refine Foot.has_of_le hF ?_); (first | decide | (dsimp only; decide))) | ((with_reducible refine Foot.parts_of_le hF ?_); decide) | (exact ⟨by decide, by decide⟩) | lift_lets -underBinder | (intro x; have hx : a.Only g x := (by repeat' (first | with_reducible assumption | ((with_reducible refine Foot.le_trans ?_ hF); decide) | ((with_reducible refine Foot.has_of_le hF ?_); (first | decide | (dsimp only; decide))) | ((with_reducible refine Foot.parts_of_le hF ?_); decide) | (exact ⟨by decide, by decide⟩) | lift_lets -underBinder | (with_reducible first | apply State.Only.ite | apply State.Only.bump | apply State.Only.pulseEv | apply State.Only.put | apply State.Only.putFlag | apply State.selfFail_only | apply State.warmRestart_only) | (intro _))); clear_value x) | (intro x; clear_value x) | (with_reducible first | apply State.Only.ite | apply State.Only.bump | apply State.Only.pulseEv | apply State.Only.put | apply State.Only.putFlag | apply State.selfFail_only | apply State.warmRestart_only) | (intro _))

theorem execScrub_only {g : Foot} {a s : State} (h : a.Only g s) (l : Lane) (b : Fin 16) (e : Option Bool)
    (hF : Foot.le ⟨[.boot, .red, .scrub], [0x04, 0x40], false⟩ g = true) :
    OutOnly g a (execScrub l b e s) := by
  unfold execScrub
  repeat' (first | with_reducible assumption | ((with_reducible refine Foot.le_trans ?_ hF); decide) | ((with_reducible refine Foot.has_of_le hF ?_); (first | decide | (dsimp only; decide))) | ((with_reducible refine Foot.parts_of_le hF ?_); decide) | (intro x p hp; cases p <;> first | rfl | trivial | exact absurd (Foot.parts_of_le hF (by decide)) hp) | (exact Or.inr (fun _ => rfl)) | lift_lets -underBinder | (intro x; have hx : a.Only g x := (by repeat' (first | with_reducible assumption | ((with_reducible refine Foot.le_trans ?_ hF); decide) | ((with_reducible refine Foot.has_of_le hF ?_); (first | decide | (dsimp only; decide))) | ((with_reducible refine Foot.parts_of_le hF ?_); decide) | (intro x p hp; cases p <;> first | rfl | trivial | exact absurd (Foot.parts_of_le hF (by decide)) hp) | (exact Or.inr (fun _ => rfl)) | lift_lets -underBinder | (with_reducible first | apply State.Only.ite | apply State.Only.done | apply State.Only.lane | apply State.Only.put | apply State.eccError_only) | (first | split | (dsimp only [x]; split)) | (intro _))); clear_value x) | (intro x; clear_value x) | (with_reducible first | apply State.Only.ite | apply State.Only.done | apply State.Only.lane | apply State.Only.put | apply State.eccError_only) | split | (intro _))

theorem execScrubLate_only {g : Foot} {a s : State} (h : a.Only g s) (l : Lane) (b : Fin 16)
    (hF : Foot.le ⟨[.red], [0x40], false⟩ g = true) :
    OutOnly g a (execScrubLate l b s) := by
  unfold execScrubLate
  repeat' (first | with_reducible assumption | ((with_reducible refine Foot.le_trans ?_ hF); decide) | ((with_reducible refine Foot.has_of_le hF ?_); (first | decide | (dsimp only; decide))) | ((with_reducible refine Foot.parts_of_le hF ?_); decide) | (exact ⟨by decide, by decide⟩) | (with_reducible first | apply State.Only.ite | apply State.Only.done | apply State.Only.pulseEv | apply State.selfFail_only) | split | (intro _))

theorem State.memClrScrub_only {g : Foot} {a s : State} (h : a.Only g s) (l : Lane)
    (hF : Foot.le ⟨[], [], false⟩ g = true) :
    a.Only g (State.memClrScrub s l) := by
  unfold State.memClrScrub
  repeat' (first | with_reducible assumption | ((with_reducible refine Foot.le_trans ?_ hF); decide) | ((with_reducible refine Foot.has_of_le hF ?_); (first | decide | (dsimp only; decide))) | ((with_reducible refine Foot.parts_of_le hF ?_); decide) | (with_reducible first | apply State.Only.put) | (intro _))

theorem State.memClrEcc_only {g : Foot} {a s : State} (h : a.Only g s) (l : Lane)
    (hF : Foot.le ⟨[], [], false⟩ g = true) :
    a.Only g (State.memClrEcc s l) := by
  unfold State.memClrEcc
  repeat' (first | with_reducible assumption | ((with_reducible refine Foot.le_trans ?_ hF); decide) | ((with_reducible refine Foot.has_of_le hF ?_); (first | decide | (dsimp only; decide))) | ((with_reducible refine Foot.parts_of_le hF ?_); decide) | (with_reducible first | apply State.Only.putWord) | (intro _))

theorem execMemClrScrub_only {g : Foot} {a s : State} (h : a.Only g s) (l : Lane)
    (hF : Foot.le ⟨[.answer], [], false⟩ g = true) :
    OutOnly g a (execMemClrScrub l s) := by
  unfold execMemClrScrub
  repeat' (first | with_reducible assumption | ((with_reducible refine Foot.le_trans ?_ hF); decide) | ((with_reducible refine Foot.has_of_le hF ?_); (first | decide | (dsimp only; decide))) | ((with_reducible refine Foot.parts_of_le hF ?_); decide) | (with_reducible first | apply State.Only.done | apply State.memClrScrub_only | apply State.reply_only | apply State.writing_only) | (intro _))

theorem execMemClrEcc_only {g : Foot} {a s : State} (h : a.Only g s) (l : Lane)
    (hF : Foot.le ⟨[.answer], [], false⟩ g = true) :
    OutOnly g a (execMemClrEcc l s) := by
  unfold execMemClrEcc
  repeat' (first | with_reducible assumption | ((with_reducible refine Foot.le_trans ?_ hF); decide) | ((with_reducible refine Foot.has_of_le hF ?_); (first | decide | (dsimp only; decide))) | ((with_reducible refine Foot.parts_of_le hF ?_); decide) | (with_reducible first | apply State.Only.done | apply State.memClrEcc_only | apply State.reply_only | apply State.writing_only) | (intro _))

theorem State.capArm_only {g : Foot} {a s : State} (h : a.Only g s) (l : Lane) (w : Fin 8)
    (hF : Foot.le ⟨[], [], false⟩ g = true) :
    EffOnly g a (State.capArm s l w) := by
  unfold State.capArm
  repeat' (first | with_reducible assumption | ((with_reducible refine Foot.le_trans ?_ hF); decide) | ((with_reducible refine Foot.has_of_le hF ?_); (first | (simp (disch := first | omega | decide) only [F.MEM_CAP_STAT_STATE_has, F.MEM_CAP_STAT_WRAPPED_has, F.MEM_CAP_STAT_COUNT_has]; done) | decide | (dsimp only; decide))) | ((with_reducible refine Foot.parts_of_le hF ?_); decide) | (intro x p hp; cases p <;> first | rfl | trivial | exact absurd (Foot.parts_of_le hF (by decide)) hp) | (exact Or.inr (fun _ => rfl)) | lift_lets -underBinder | (intro x; have hx : a.Only g x := (by repeat' (first | with_reducible assumption | ((with_reducible refine Foot.le_trans ?_ hF); decide) | ((with_reducible refine Foot.has_of_le hF ?_); (first | (simp (disch := first | omega | decide) only [F.MEM_CAP_STAT_STATE_has, F.MEM_CAP_STAT_WRAPPED_has, F.MEM_CAP_STAT_COUNT_has]; done) | decide | (dsimp only; decide))) | ((with_reducible refine Foot.parts_of_le hF ?_); decide) | (intro x p hp; cases p <;> first | rfl | trivial | exact absurd (Foot.parts_of_le hF (by decide)) hp) | (exact Or.inr (fun _ => rfl)) | lift_lets -underBinder | (with_reducible first | apply State.Only.ite | apply State.Only.lane | apply State.Only.put | apply State.Only.putFlag | apply State.Only.effOk | apply State.Only.effError) | (first | split | (dsimp only [x]; split)) | (intro _))); clear_value x) | (intro x; clear_value x) | (with_reducible first | apply State.Only.ite | apply State.Only.lane | apply State.Only.put | apply State.Only.putFlag | apply State.Only.effOk | apply State.Only.effError) | split | (intro _))

theorem State.capArm_only_some {g : Foot} {a s t : State} {l : Lane} {w0 : Fin 8}
    (e : State.capArm s l w0 = .ok t) (h : a.Only g s) (hF : Foot.le ⟨[], [], false⟩ g = true) : a.Only g t := State.capArm_only h _ _ hF t e

theorem execCapArm_only {g : Foot} {a s : State} (h : a.Only g s) (l : Lane) (w : Fin 8)
    (hF : Foot.le ⟨[.hv, .answer, .trc, .loopReq], [0x10, 0x11, 0x40], false⟩ g = true) :
    OutOnly g a (execCapArm l w s) := by
  unfold execCapArm
  repeat' (first | (exact State.capArm_only_some (by assumption) (by with_reducible assumption) (Foot.le_trans (by decide) hF)) | with_reducible assumption | ((with_reducible refine Foot.le_trans ?_ hF); decide) | ((with_reducible refine Foot.has_of_le hF ?_); (first | decide | (dsimp only; decide))) | ((with_reducible refine Foot.parts_of_le hF ?_); decide) | (with_reducible first | apply State.Only.done | apply State.capArm_only | apply State.settleWrite_only | apply State.writing_only) | (intro _))

theorem State.capTrigger_evs (s : State) (l : Lane) (w : Fin 8) : s.EvOnly (s.capTrigger l w) := State.EvOnly.refl.capTrigger l w

theorem State.capTrig_only {g : Foot} {a s : State} (h : a.Only g s) (l : Lane) (w : Fin 8) (_ : Foot.le ⟨[], [], false⟩ g = true) :
    a.Only g (State.capTrig s l w) := by
  unfold State.capTrig
  exact State.Only.ite (fun _ => State.Only.pulseEv (h.events (s.capTrigger_evs l w)) _ _ _ ⟨by decide, by decide⟩) (fun _ => h)

theorem execCapTrig_only {g : Foot} {a s : State} (h : a.Only g s) (l : Lane) (w : Fin 8)
    (hF : Foot.le ⟨[.answer], [], false⟩ g = true) :
    OutOnly g a (execCapTrig l w s) := by
  unfold execCapTrig
  repeat' (first | with_reducible assumption | ((with_reducible refine Foot.le_trans ?_ hF); decide) | ((with_reducible refine Foot.has_of_le hF ?_); (first | decide | (dsimp only; decide))) | ((with_reducible refine Foot.parts_of_le hF ?_); decide) | (with_reducible first | apply State.Only.done | apply State.capTrig_only | apply State.reply_only | apply State.writing_only) | (intro _))

theorem State.capStop_only {g : Foot} {a s : State} (h : a.Only g s) (l : Lane) (w : Fin 8)
    (hF : Foot.le ⟨[], [], false⟩ g = true) :
    a.Only g (State.capStop s l w) := by
  unfold State.capStop
  repeat' (first | with_reducible assumption | ((with_reducible refine Foot.le_trans ?_ hF); decide) | ((with_reducible refine Foot.has_of_le hF ?_); (first | (simp (disch := first | omega | decide) only [F.MEM_CAP_STAT_STATE_has]; done) | decide | (dsimp only; decide))) | ((with_reducible refine Foot.parts_of_le hF ?_); decide) | (with_reducible first | apply State.Only.ite | apply State.Only.put) | (intro _))

theorem execCapStop_only {g : Foot} {a s : State} (h : a.Only g s) (l : Lane) (w : Fin 8)
    (hF : Foot.le ⟨[.answer], [], false⟩ g = true) :
    OutOnly g a (execCapStop l w s) := by
  unfold execCapStop
  repeat' (first | with_reducible assumption | ((with_reducible refine Foot.le_trans ?_ hF); decide) | ((with_reducible refine Foot.has_of_le hF ?_); (first | decide | (dsimp only; decide))) | ((with_reducible refine Foot.parts_of_le hF ?_); decide) | (with_reducible first | apply State.Only.done | apply State.capStop_only | apply State.reply_only | apply State.writing_only) | (intro _))

theorem execCapDone_only {g : Foot} {a s : State} (h : a.Only g s) (l : Lane) (w : Fin 8)
    (hF : Foot.le ⟨[], [], false⟩ g = true) :
    OutOnly g a (execCapDone l w s) := by
  unfold execCapDone
  repeat' (first | with_reducible assumption | ((with_reducible refine Foot.le_trans ?_ hF); decide) | ((with_reducible refine Foot.has_of_le hF ?_); (first | (simp (disch := first | omega | decide) only [F.MEM_CAP_STAT_STATE_has]; done) | decide | (dsimp only; decide))) | ((with_reducible refine Foot.parts_of_le hF ?_); decide) | (exact ⟨by decide, by decide⟩) | (with_reducible first | apply State.Only.ite | apply State.Only.done | apply State.Only.pulseEv | apply State.Only.put) | split | (intro _))

theorem State.capAdd_only {g : Foot} {a s : State} (h : a.Only g s) (l : Lane) (w : Fin 8) (r : List Word)
    (hF : Foot.le ⟨[], [], false⟩ g = true) :
    a.Only g (State.capAdd s l w r) := by
  unfold State.capAdd
  repeat' (first | with_reducible assumption | ((with_reducible refine Foot.le_trans ?_ hF); decide) | ((with_reducible refine Foot.has_of_le hF ?_); (first | (simp (disch := first | omega | decide) only [F.MEM_CAP_STAT_STATE_has, F.MEM_CAP_STAT_COUNT_has, F.MEM_CAP_STAT_WRAPPED_has]; done) | decide | (dsimp only; decide))) | ((with_reducible refine Foot.parts_of_le hF ?_); decide) | (intro x p hp; cases p <;> first | rfl | trivial | exact absurd (Foot.parts_of_le hF (by decide)) hp) | (exact Or.inr (fun _ => rfl)) | lift_lets -underBinder | (intro x; have hx : a.Only g x := (by repeat' (first | with_reducible assumption | ((with_reducible refine Foot.le_trans ?_ hF); decide) | ((with_reducible refine Foot.has_of_le hF ?_); (first | (simp (disch := first | omega | decide) only [F.MEM_CAP_STAT_STATE_has, F.MEM_CAP_STAT_COUNT_has, F.MEM_CAP_STAT_WRAPPED_has]; done) | decide | (dsimp only; decide))) | ((with_reducible refine Foot.parts_of_le hF ?_); decide) | (intro x p hp; cases p <;> first | rfl | trivial | exact absurd (Foot.parts_of_le hF (by decide)) hp) | (exact Or.inr (fun _ => rfl)) | lift_lets -underBinder | (with_reducible first | apply State.Only.ite | apply State.Only.lane | apply State.Only.put | apply State.Only.putFlag) | (intro _))); clear_value x) | (intro x; clear_value x) | (with_reducible first | apply State.Only.ite | apply State.Only.lane | apply State.Only.put | apply State.Only.putFlag) | (intro _))

end Sys2Proof.Machine
end

