-- ==== Sys2Proof/Laws/Only/Events.lean ====
section
/-! SUPPORT. What the operations of Events may change. -/
namespace Sys2Proof.Machine
set_option linter.all false
set_option Elab.async false

theorem State.stopBlock_only {g : Foot} {a s : State} (h : a.Only g s) (l : Lane) (page : Nat)
    (hF : Foot.le ⟨[.hv, .lv, .aon, .mon, .trc, .dcl, .chg, .loopReq], [0x10, 0x11, 0x30, 0x31, 0x32, 0x33, 0x34, 0x50], false⟩ g = true) :
    a.Only g (State.stopBlock s l page) := by
  unfold State.stopBlock
  repeat' (first | with_reducible assumption | ((with_reducible refine Foot.le_trans ?_ hF); decide) | ((with_reducible refine Foot.has_of_le hF ?_); (first | decide | (dsimp only; decide))) | ((with_reducible refine Foot.parts_of_le hF ?_); decide) | lift_lets -underBinder | (intro x; have hx : a.Only g x := (by repeat' (first | with_reducible assumption | ((with_reducible refine Foot.le_trans ?_ hF); decide) | ((with_reducible refine Foot.has_of_le hF ?_); (first | decide | (dsimp only; decide))) | ((with_reducible refine Foot.parts_of_le hF ?_); decide) | lift_lets -underBinder | (with_reducible first | apply State.Only.ite | apply State.actIdle_only | apply State.chgFault_only | apply State.dclStop_only | apply State.setFault_only) | (first | split | (dsimp only [x]; split)) | (intro _))); clear_value x) | (intro x; dsimp -zeta only [x]; clear x) | (intro x; clear_value x) | (with_reducible first | apply State.Only.ite | apply State.actIdle_only | apply State.chgFault_only | apply State.dclStop_only | apply State.setFault_only) | split | (intro _))

theorem execReactionStop_only {g : Foot} {a s : State} (h : a.Only g s) (l : Lane)
    (hF : Foot.le ⟨[.hv, .lv, .aon, .mon, .trc, .dcl, .chg, .loopReq], [0x10, 0x11, 0x30, 0x31, 0x32, 0x33, 0x34, 0x50], false⟩ g = true) :
    OutOnly g a (execReactionStop l s) := by
  unfold execReactionStop
  repeat' (first | with_reducible assumption | ((with_reducible refine Foot.le_trans ?_ hF); decide) | ((with_reducible refine Foot.has_of_le hF ?_); (first | decide | (dsimp only; decide))) | ((with_reducible refine Foot.parts_of_le hF ?_); decide) | (intro x p hp; cases p <;> first | rfl | trivial | exact absurd (Foot.parts_of_le hF (by decide)) hp) | (exact Or.inr (fun _ => rfl)) | lift_lets -underBinder | (intro x; have hx : a.Only g x := (by repeat' (first | with_reducible assumption | ((with_reducible refine Foot.le_trans ?_ hF); decide) | ((with_reducible refine Foot.has_of_le hF ?_); (first | decide | (dsimp only; decide))) | ((with_reducible refine Foot.parts_of_le hF ?_); decide) | (intro x p hp; cases p <;> first | rfl | trivial | exact absurd (Foot.parts_of_le hF (by decide)) hp) | (exact Or.inr (fun _ => rfl)) | lift_lets -underBinder | (with_reducible first | apply State.Only.ite | apply State.Only.done | apply State.Only.fold | apply State.Only.lane | apply State.stopBlock_only) | (first | split | (dsimp only [x]; split)) | (intro _))); clear_value x) | (intro x; clear_value x) | (with_reducible first | apply State.Only.ite | apply State.Only.done | apply State.Only.fold | apply State.Only.lane | apply State.stopBlock_only) | split | (intro _))

theorem allSrcBits_page {src : Nat} {e : Ev} (he : e ∈ allSrcBits src) : e.page % 0x1000 = 0 := by
  unfold allSrcBits at he
  split at he
  · rename_i h
    exact (by decide : ∀ src : Fin 96, ∀ e ∈ srcBits src.val, e.page % 0x1000 = 0) ⟨src, h⟩ e he
  · simp only [List.mem_singleton] at he
    subst he
    show (0xC0000 : Nat) % 0x1000 = 0
    decide

theorem State.evcPend_only {g : Foot} {a s : State} (h : a.Only g s) (l : Lane) (g' : Nat) (w : Word) (_ : Foot.le ⟨[], [], false⟩ g = true) :
    a.Only g (State.evcPend s l g' w) := by
  refine State.Only.fold _ _ h (fun t b ht => State.Only.ite (fun _ => ht) (fun _ => State.Only.foldOf _ _ ht (fun u e he hu => ?_)))
  refine State.Only.putWord hu _ _ _ ?_
  have : (e.page + 0x018) % 0x1000 = 0x018 := by
    have := allSrcBits_page he
    omega
  simp [Foot.has, evAddr, this]

theorem execEvcPendClear_only {g : Foot} {a s : State} (h : a.Only g s) (l : Lane) (g' : Fin 4) (w : Word)
    (hF : Foot.le ⟨[.answer], [], false⟩ g = true) :
    OutOnly g a (execEvcPendClear l g' w s) := by
  unfold execEvcPendClear
  repeat' (first | with_reducible assumption | ((with_reducible refine Foot.le_trans ?_ hF); decide) | ((with_reducible refine Foot.has_of_le hF ?_); (first | decide | (dsimp only; decide))) | ((with_reducible refine Foot.parts_of_le hF ?_); decide) | (with_reducible first | apply State.Only.done | apply State.evcPend_only | apply State.reply_only | apply State.writing_only) | (intro _))

theorem State.evcClr_only {g : Foot} {a s : State} (h : a.Only g s) (l : Lane) (_ : Foot.le ⟨[], [], false⟩ g = true) :
    a.Only g (State.evcClr s l) := by
  refine State.Only.foldOf _ _ (State.Only.put h _ _ _ (by simp [Foot.has, evAddr, F.EVC_STAT_REACT_CNT])) (fun t k hk ht => ?_)
  refine State.Only.putWord ht _ _ _ ?_
  have e : evAddr (F.EVC_CNT_CNT k 0).addr = true :=
    (by decide : ∀ k : Fin 24, evAddr (F.EVC_CNT_CNT k.val 0).addr = true) ⟨k, List.mem_range.mp hk⟩
  simp [Foot.has, e]

theorem execEvcClrCnt_only {g : Foot} {a s : State} (h : a.Only g s) (l : Lane)
    (hF : Foot.le ⟨[.answer], [], false⟩ g = true) :
    OutOnly g a (execEvcClrCnt l s) := by
  unfold execEvcClrCnt
  repeat' (first | with_reducible assumption | ((with_reducible refine Foot.le_trans ?_ hF); decide) | ((with_reducible refine Foot.has_of_le hF ?_); (first | decide | (dsimp only; decide))) | ((with_reducible refine Foot.parts_of_le hF ?_); decide) | (with_reducible first | apply State.Only.done | apply State.evcClr_only | apply State.reply_only | apply State.writing_only) | (intro _))

theorem State.monClrCnt_only {g : Foot} {a s : State} (h : a.Only g s) (_ : Foot.le ⟨[], [], false⟩ g = true) : a.Only g (State.monClrCnt s) := by
  refine State.Only.foldOf _ _ h (fun t k hk ht => State.Only.putWord ht _ _ _ ?_)
  have e : evAddr (F.MON_CNT_CNT k 0).addr = true :=
    (by decide : ∀ k : Fin 8, evAddr (F.MON_CNT_CNT k.val 0).addr = true) ⟨k, List.mem_range.mp hk⟩
  simp [Foot.has, e]

theorem State.monLogClear_only {g : Foot} {a s : State} (h : a.Only g s)
    (hF : Foot.le ⟨[.mon], [], false⟩ g = true) :
    a.Only g (State.monLogClear s) := by
  unfold State.monLogClear
  repeat' (first | with_reducible assumption | ((with_reducible refine Foot.le_trans ?_ hF); decide) | ((with_reducible refine Foot.has_of_le hF ?_); (first | decide | (dsimp only; decide))) | ((with_reducible refine Foot.parts_of_le hF ?_); decide) | (exact Or.inr (fun _ => rfl)) | (with_reducible first | apply State.Only.mon | apply State.Only.mput) | (intro _))

theorem execMpOverload_only {g : Foot} {a s : State} (h : a.Only g s) (l : Lane) (ovr : Bool)
    (hF : Foot.le ⟨[.boot], [], false⟩ g = true) :
    OutOnly g a (execMpOverload l ovr s) := by
  unfold execMpOverload
  repeat' (first | with_reducible assumption | ((with_reducible refine Foot.le_trans ?_ hF); decide) | ((with_reducible refine Foot.has_of_le hF ?_); (first | decide | (dsimp only; decide))) | ((with_reducible refine Foot.parts_of_le hF ?_); decide) | (exact ⟨by decide, by decide⟩) | (with_reducible first | apply State.Only.ite | apply State.Only.boot | apply State.Only.done | apply State.Only.levelEv) | split | (intro _))

end Sys2Proof.Machine
end

