-- ==== Sys2Proof/Laws/Only/Bulk.lean ====
section
/-! SUPPORT. What the operations of Bulk may change. -/
namespace Sys2Proof.Machine
set_option linter.all false
set_option Elab.async false

theorem State.showOwned_only {g : Foot} {a s : State} (h : a.Only g s) (l : Lane)
    (hF : Foot.le ⟨[], [0x61], false⟩ g = true) :
    a.Only g (State.showOwned s l) := by
  unfold State.showOwned
  repeat' (first | with_reducible assumption | ((with_reducible refine Foot.le_trans ?_ hF); decide) | ((with_reducible refine Foot.has_of_le hF ?_); (first | decide | (dsimp only; decide))) | ((with_reducible refine Foot.parts_of_le hF ?_); decide) | (with_reducible first | apply State.Only.put) | (intro _))

theorem State.descBack_only {g : Foot} {a s : State} (h : a.Only g s) (l : Lane) (n : Fin 64) (st : Status)
    (hF : Foot.le ⟨[.bulkLast], [0x61], false⟩ g = true) :
    a.Only g (State.descBack s l n st) := by
  unfold State.descBack
  repeat' (first | with_reducible assumption | ((with_reducible refine Foot.le_trans ?_ hF); decide) | ((with_reducible refine Foot.has_of_le hF ?_); (first | (simp (disch := first | omega | decide) only [F.BULK_DESC1_STATUS_has, F.BULK_DESC0_OWN_has]; done) | decide | (dsimp only; decide))) | ((with_reducible refine Foot.parts_of_le hF ?_); decide) | (intro x p hp; cases p <;> first | rfl | trivial | exact absurd (Foot.parts_of_le hF (by decide)) hp) | (exact Or.inr (fun _ => rfl)) | lift_lets -underBinder | (intro x; have hx : a.Only g x := (by repeat' (first | with_reducible assumption | ((with_reducible refine Foot.le_trans ?_ hF); decide) | ((with_reducible refine Foot.has_of_le hF ?_); (first | (simp (disch := first | omega | decide) only [F.BULK_DESC1_STATUS_has, F.BULK_DESC0_OWN_has]; done) | decide | (dsimp only; decide))) | ((with_reducible refine Foot.parts_of_le hF ?_); decide) | (intro x p hp; cases p <;> first | rfl | trivial | exact absurd (Foot.parts_of_le hF (by decide)) hp) | (exact Or.inr (fun _ => rfl)) | lift_lets -underBinder | (with_reducible first | apply State.Only.lane | apply State.Only.put | apply State.Only.putFlag | apply State.showOwned_only) | (intro _))); clear_value x) | (intro x; clear_value x) | (with_reducible first | apply State.Only.lane | apply State.Only.put | apply State.Only.putFlag | apply State.showOwned_only) | (intro _))

theorem State.descDone_only {g : Foot} {a s : State} (h : a.Only g s) (l : Lane) (n : Fin 64) (st : Status) (len : Nat)
    (hF : Foot.le ⟨[.bulkLast], [0x61], false⟩ g = true) :
    a.Only g (State.descDone s l n st len) := by
  unfold State.descDone
  repeat' (first | with_reducible assumption | ((with_reducible refine Foot.le_trans ?_ hF); decide) | ((with_reducible refine Foot.has_of_le hF ?_); (first | (simp (disch := first | omega | decide) only [F.BULK_DESC0_LEN_has]; done) | decide | (dsimp only; decide))) | ((with_reducible refine Foot.parts_of_le hF ?_); decide) | (exact ⟨by decide, by decide⟩) | (with_reducible first | apply State.Only.bump | apply State.Only.pulseEv | apply State.Only.put | apply State.descBack_only) | (intro _))

theorem State.descReject_only {g : Foot} {a s : State} (h : a.Only g s) (l : Lane) (n : Fin 64) (st : Status)
    (hF : Foot.le ⟨[.bulkLast], [0x61], false⟩ g = true) :
    a.Only g (State.descReject s l n st) := by
  unfold State.descReject
  repeat' (first | with_reducible assumption | ((with_reducible refine Foot.le_trans ?_ hF); decide) | ((with_reducible refine Foot.has_of_le hF ?_); (first | decide | (dsimp only; decide))) | ((with_reducible refine Foot.parts_of_le hF ?_); decide) | (exact ⟨by decide, by decide⟩) | (with_reducible first | apply State.Only.bump | apply State.Only.pulseEv | apply State.descBack_only) | (intro _))

theorem State.descNext_only {g : Foot} {a s : State} (h : a.Only g s) (l : Lane) (cmd : Nat) (f : Fin 64 → State → State) (hf : ∀ n s, a.Only g s → a.Only g (f n s))
    (hF : Foot.le ⟨[.bulkLast], [0x61], false⟩ g = true) :
    a.Only g (State.descNext s l cmd f) := by
  unfold State.descNext
  repeat' (first | with_reducible assumption | ((with_reducible refine Foot.le_trans ?_ hF); decide) | ((with_reducible refine Foot.has_of_le hF ?_); (first | (simp (disch := first | omega | decide) only [F.BULK_DESC0_CMD_has]; done) | decide | (dsimp only; decide))) | ((with_reducible refine Foot.parts_of_le hF ?_); decide) | (with_reducible first | apply State.Only.ite | apply State.descReject_only | apply hf) | split | (intro _))

theorem execBulkNone_only {g : Foot} {a s : State} (h : a.Only g s) (l : Lane)
    (hF : Foot.le ⟨[.bulkLast], [0x61], false⟩ g = true) :
    OutOnly g a (execBulkNone l s) := by
  unfold execBulkNone
  repeat' (first | with_reducible assumption | ((with_reducible refine Foot.le_trans ?_ hF); decide) | ((with_reducible refine Foot.has_of_le hF ?_); (first | (simp (disch := first | omega | decide) only [F.BULK_DESC0_LEN_has]; done) | decide | (dsimp only; decide))) | ((with_reducible refine Foot.parts_of_le hF ?_); decide) | (with_reducible first | apply State.Only.done | apply State.descDone_only | apply State.descNext_only) | (intro _))

theorem State.toSlot_only {g : Foot} {a s : State} (h : a.Only g s) (l : Lane) (n : Fin 64) (bs : List Byte)
    (hF : Foot.le ⟨[.mem, .bulkLast], [0x61], false⟩ g = true) :
    a.Only g (State.toSlot s l n bs) := by
  unfold State.toSlot
  repeat' (first | with_reducible assumption | ((with_reducible refine Foot.le_trans ?_ hF); decide) | ((with_reducible refine Foot.has_of_le hF ?_); (first | (simp (disch := first | omega | decide) only [F.BULK_DESC0_SLOT_has]; done) | decide | (dsimp only; decide))) | ((with_reducible refine Foot.parts_of_le hF ?_); decide) | (intro x p hp; cases p <;> first | rfl | trivial | exact absurd (Foot.parts_of_le hF (by decide)) hp) | (exact Or.inr (fun _ => rfl)) | lift_lets -underBinder | (intro x; have hx : a.Only g x := (by repeat' (first | with_reducible assumption | ((with_reducible refine Foot.le_trans ?_ hF); decide) | ((with_reducible refine Foot.has_of_le hF ?_); (first | (simp (disch := first | omega | decide) only [F.BULK_DESC0_SLOT_has]; done) | decide | (dsimp only; decide))) | ((with_reducible refine Foot.parts_of_le hF ?_); decide) | (intro x p hp; cases p <;> first | rfl | trivial | exact absurd (Foot.parts_of_le hF (by decide)) hp) | (exact Or.inr (fun _ => rfl)) | lift_lets -underBinder | (with_reducible first | apply State.Only.lane | apply State.descDone_only) | (intro _))); clear_value x) | (intro x; clear_value x) | (with_reducible first | apply State.Only.lane | apply State.descDone_only) | (intro _))

theorem execCapture_only {g : Foot} {a s : State} (h : a.Only g s) (l : Lane)
    (hF : Foot.le ⟨[.mem, .bulkLast], [0x61], false⟩ g = true) :
    OutOnly g a (execCapture l s) := by
  unfold execCapture
  repeat' (first | with_reducible assumption | ((with_reducible refine Foot.le_trans ?_ hF); decide) | ((with_reducible refine Foot.has_of_le hF ?_); (first | (simp (disch := first | omega | decide) only [F.BULK_DESC1_ARG_has, F.MEM_CAP_STAT_STATE_has, F.BULK_DESC0_LEN_has]; done) | decide | (dsimp only; decide))) | ((with_reducible refine Foot.parts_of_le hF ?_); decide) | lift_lets -underBinder | (intro x; have hx : a.Only g x := (by repeat' (first | with_reducible assumption | ((with_reducible refine Foot.le_trans ?_ hF); decide) | ((with_reducible refine Foot.has_of_le hF ?_); (first | (simp (disch := first | omega | decide) only [F.BULK_DESC1_ARG_has, F.MEM_CAP_STAT_STATE_has, F.BULK_DESC0_LEN_has]; done) | decide | (dsimp only; decide))) | ((with_reducible refine Foot.parts_of_le hF ?_); decide) | lift_lets -underBinder | (with_reducible first | apply State.Only.ite | apply State.Only.done | apply State.descNext_only | apply State.toSlot_only) | (first | split | (dsimp only [x]; split)) | (intro _))); clear_value x) | (intro x; clear_value x) | (with_reducible first | apply State.Only.ite | apply State.Only.done | apply State.descNext_only | apply State.toSlot_only) | split | (intro _))

theorem execFlog_only {g : Foot} {a s : State} (h : a.Only g s) (l : Lane)
    (hF : Foot.le ⟨[.mem, .bulkLast], [0x61], false⟩ g = true) :
    OutOnly g a (execFlog l s) := by
  unfold execFlog
  repeat' (first | with_reducible assumption | ((with_reducible refine Foot.le_trans ?_ hF); decide) | ((with_reducible refine Foot.has_of_le hF ?_); (first | (simp (disch := first | omega | decide) only [F.BULK_DESC1_ARG_has, F.BULK_DESC0_LEN_has]; done) | decide | (dsimp only; decide))) | ((with_reducible refine Foot.parts_of_le hF ?_); decide) | lift_lets -underBinder | (intro x; have hx : a.Only g x := (by repeat' (first | with_reducible assumption | ((with_reducible refine Foot.le_trans ?_ hF); decide) | ((with_reducible refine Foot.has_of_le hF ?_); (first | (simp (disch := first | omega | decide) only [F.BULK_DESC1_ARG_has, F.BULK_DESC0_LEN_has]; done) | decide | (dsimp only; decide))) | ((with_reducible refine Foot.parts_of_le hF ?_); decide) | lift_lets -underBinder | (with_reducible first | apply State.Only.ite | apply State.Only.done | apply State.descNext_only | apply State.toSlot_only) | (first | split | (dsimp only [x]; split)) | (intro _))); clear_value x) | (intro x; clear_value x) | (with_reducible first | apply State.Only.ite | apply State.Only.done | apply State.descNext_only | apply State.toSlot_only) | split | (intro _))

theorem State.modSlot_only {g : Foot} {a s : State} (h : a.Only g s) (l : Lane) (k : Fin 2) (f : ImgSlot → ImgSlot)
    (hF : Foot.le ⟨[.boot], [], false⟩ g = true) :
    a.Only g (State.modSlot s l k f) := by
  unfold State.modSlot
  repeat' (first | with_reducible assumption | ((with_reducible refine Foot.le_trans ?_ hF); decide) | ((with_reducible refine Foot.has_of_le hF ?_); (first | decide | (dsimp only; decide))) | ((with_reducible refine Foot.parts_of_le hF ?_); decide) | (with_reducible first | apply State.Only.boot) | (intro _))

theorem execImgWrite_only {g : Foot} {a s : State} (h : a.Only g s) (l : Lane)
    (hF : Foot.le ⟨[.boot, .flash, .bulkLast], [0x61], false⟩ g = true) :
    OutOnly g a (execImgWrite l s) := by
  unfold execImgWrite
  repeat' (first | with_reducible assumption | ((with_reducible refine Foot.le_trans ?_ hF); decide) | ((with_reducible refine Foot.has_of_le hF ?_); (first | (simp (disch := first | omega | decide) only [F.BULK_DESC1_ARG_has, F.BULK_DESC0_LEN_has, F.BULK_DESC0_SLOT_has]; done) | decide | (dsimp only; decide))) | ((with_reducible refine Foot.parts_of_le hF ?_); decide) | (intro x p hp; cases p <;> first | rfl | trivial | exact absurd (Foot.parts_of_le hF (by decide)) hp) | (exact Or.inr (fun _ => rfl)) | lift_lets -underBinder | (intro x; have hx : a.Only g x := (by repeat' (first | with_reducible assumption | ((with_reducible refine Foot.le_trans ?_ hF); decide) | ((with_reducible refine Foot.has_of_le hF ?_); (first | (simp (disch := first | omega | decide) only [F.BULK_DESC1_ARG_has, F.BULK_DESC0_LEN_has, F.BULK_DESC0_SLOT_has]; done) | decide | (dsimp only; decide))) | ((with_reducible refine Foot.parts_of_le hF ?_); decide) | (intro x p hp; cases p <;> first | rfl | trivial | exact absurd (Foot.parts_of_le hF (by decide)) hp) | (exact Or.inr (fun _ => rfl)) | lift_lets -underBinder | (with_reducible first | apply State.Only.ite | apply State.Only.done | apply State.Only.lane | apply State.Only.putFlag | apply State.descNext_only | apply State.modSlot_only) | (first | split | (dsimp only [x]; split)) | (intro _))); clear_value x) | (intro x; clear_value x) | (with_reducible first | apply State.Only.ite | apply State.Only.done | apply State.Only.lane | apply State.Only.putFlag | apply State.descNext_only | apply State.modSlot_only) | split | (intro _))

theorem execImgWriteDone_only {g : Foot} {a s : State} (h : a.Only g s) (l : Lane)
    (hF : Foot.le ⟨[.bulkLast], [0x61], false⟩ g = true) :
    OutOnly g a (execImgWriteDone l s) := by
  unfold execImgWriteDone
  repeat' (first | with_reducible assumption | ((with_reducible refine Foot.le_trans ?_ hF); decide) | ((with_reducible refine Foot.has_of_le hF ?_); (first | (simp (disch := first | omega | decide) only [F.BULK_DESC0_LEN_has]; done) | decide | (dsimp only; decide))) | ((with_reducible refine Foot.parts_of_le hF ?_); decide) | lift_lets -underBinder | (intro x; have hx : a.Only g x := (by repeat' (first | with_reducible assumption | ((with_reducible refine Foot.le_trans ?_ hF); decide) | ((with_reducible refine Foot.has_of_le hF ?_); (first | (simp (disch := first | omega | decide) only [F.BULK_DESC0_LEN_has]; done) | decide | (dsimp only; decide))) | ((with_reducible refine Foot.parts_of_le hF ?_); decide) | lift_lets -underBinder | (with_reducible first | apply State.Only.ite | apply State.Only.done | apply State.Only.putFlag | apply State.descDone_only) | (first | split | (dsimp only [x]; split)) | (intro _))); clear_value x) | (intro x; clear_value x) | (with_reducible first | apply State.Only.ite | apply State.Only.done | apply State.Only.putFlag | apply State.descDone_only) | split | (intro _))

theorem execImgCommit_only {g : Foot} {a s : State} (h : a.Only g s) (l : Lane) (r : ImageRead) (sigOk : Bool)
    (hF : Foot.le ⟨[.boot, .bulkLast], [0x61], false⟩ g = true) :
    OutOnly g a (execImgCommit l r sigOk s) := by
  unfold execImgCommit
  repeat' (first | with_reducible assumption | ((with_reducible refine Foot.le_trans ?_ hF); decide) | ((with_reducible refine Foot.has_of_le hF ?_); (first | (simp (disch := first | omega | decide) only [F.BULK_DESC1_ARG_has]; done) | decide | (dsimp only; decide))) | ((with_reducible refine Foot.parts_of_le hF ?_); decide) | (exact ⟨by decide, by decide⟩) | lift_lets -underBinder | (intro x; have hx : a.Only g x := (by repeat' (first | with_reducible assumption | ((with_reducible refine Foot.le_trans ?_ hF); decide) | ((with_reducible refine Foot.has_of_le hF ?_); (first | (simp (disch := first | omega | decide) only [F.BULK_DESC1_ARG_has]; done) | decide | (dsimp only; decide))) | ((with_reducible refine Foot.parts_of_le hF ?_); decide) | (exact ⟨by decide, by decide⟩) | lift_lets -underBinder | (with_reducible first | apply State.Only.ite | apply State.Only.done | apply State.Only.pulseEv | apply State.descDone_only | apply State.descNext_only | apply State.modSlot_only) | (first | split | (dsimp only [x]; split)) | (intro _))); clear_value x) | (intro x; clear_value x) | (with_reducible first | apply State.Only.ite | apply State.Only.done | apply State.Only.pulseEv | apply State.descDone_only | apply State.descNext_only | apply State.modSlot_only) | split | (intro _))

theorem State.bulkClr_only {g : Foot} {a s : State} (h : a.Only g s) (l : Lane)
    (hF : Foot.le ⟨[], [0x61], false⟩ g = true) :
    a.Only g (State.bulkClr s l) := by
  unfold State.bulkClr
  repeat' (first | with_reducible assumption | ((with_reducible refine Foot.le_trans ?_ hF); decide) | ((with_reducible refine Foot.has_of_le hF ?_); (first | decide | (dsimp only; decide))) | ((with_reducible refine Foot.parts_of_le hF ?_); decide) | (with_reducible first | apply State.Only.put) | (intro _))

theorem execBulkClrCnt_only {g : Foot} {a s : State} (h : a.Only g s) (l : Lane)
    (hF : Foot.le ⟨[.answer], [0x61], false⟩ g = true) :
    OutOnly g a (execBulkClrCnt l s) := by
  unfold execBulkClrCnt
  repeat' (first | with_reducible assumption | ((with_reducible refine Foot.le_trans ?_ hF); decide) | ((with_reducible refine Foot.has_of_le hF ?_); (first | decide | (dsimp only; decide))) | ((with_reducible refine Foot.parts_of_le hF ?_); decide) | (with_reducible first | apply State.Only.done | apply State.bulkClr_only | apply State.reply_only | apply State.writing_only) | (intro _))

theorem State.descWrite_only {g : Foot} {a s : State} (h : a.Only g s) (l : Lane) (off : Nat) (w : Word)
    (hF : Foot.le ⟨[.bulkLast], [0x61], false⟩ g = true) :
    EffOnly g a (State.descWrite s l off w) := by
  unfold State.descWrite
  repeat' (first | with_reducible assumption | ((with_reducible refine Foot.le_trans ?_ hF); decide) | ((with_reducible refine Foot.has_of_le hF ?_); (first | (simp (disch := first | omega | decide) only [F.BULK_DESC0_OWN_has, F.BULK_DESC1_ARG_has]; done) | decide | (dsimp only; decide))) | ((with_reducible refine Foot.parts_of_le hF ?_); decide) | lift_lets -underBinder | (intro x; have hx : a.Only g x := (by repeat' (first | with_reducible assumption | ((with_reducible refine Foot.le_trans ?_ hF); decide) | ((with_reducible refine Foot.has_of_le hF ?_); (first | (simp (disch := first | omega | decide) only [F.BULK_DESC0_OWN_has, F.BULK_DESC1_ARG_has]; done) | decide | (dsimp only; decide))) | ((with_reducible refine Foot.parts_of_le hF ?_); decide) | lift_lets -underBinder | (with_reducible first | apply State.Only.ite | apply State.Only.put | apply State.Only.putWord | apply State.descReject_only | apply State.showOwned_only | apply State.Only.effOk | apply State.Only.effError) | (first | split | (dsimp only [x]; split)) | (intro _))); clear_value x) | (intro x; clear_value x) | (with_reducible first | apply State.Only.ite | apply State.Only.put | apply State.Only.putWord | apply State.descReject_only | apply State.showOwned_only | apply State.Only.effOk | apply State.Only.effError) | split | (intro _))

theorem State.descWrite_only_some {g : Foot} {a s t : State} {l : Lane} {off : Nat} {w0 : Word}
    (e : State.descWrite s l off w0 = .ok t) (h : a.Only g s) (hF : Foot.le ⟨[.bulkLast], [0x61], false⟩ g = true) : a.Only g t := State.descWrite_only h _ _ _ hF t e

end Sys2Proof.Machine
end

