-- ==== Sys2Proof/Laws/Only/Clause.lean ====
section
/-! SUPPORT. What the operations of Clause may change. -/
namespace Sys2Proof.Machine
set_option linter.all false
set_option Elab.async false

theorem State.modCls_only {g : Foot} {a s : State} (h : a.Only g s) (l : Lane) (n : Fin 8) (f : ClsConn → ClsConn)
    (hF : Foot.le ⟨[.cls], [], false⟩ g = true) :
    a.Only g (State.modCls s l n f) := by
  unfold State.modCls
  repeat' (first | with_reducible assumption | ((with_reducible refine Foot.le_trans ?_ hF); decide) | ((with_reducible refine Foot.has_of_le hF ?_); (first | decide | (dsimp only; decide))) | ((with_reducible refine Foot.parts_of_le hF ?_); decide) | (intro x p hp; cases p <;> first | rfl | trivial | exact absurd (Foot.parts_of_le hF (by decide)) hp) | (exact Or.inr (fun _ => rfl)) | (with_reducible first | apply State.Only.lane) | (intro _))

theorem State.clsExpire_only {g : Foot} {a s : State} (h : a.Only g s) (l : Lane) (n : Fin 8)
    (hF : Foot.le ⟨[.hv, .lv, .aon, .mon, .red, .saf, .cls, .trc, .dcl, .chg, .loopReq], [0x10, 0x11, 0x30, 0x31, 0x32, 0x33, 0x34, 0x50, 0x51], false⟩ g = true) :
    a.Only g (State.clsExpire s l n) := by
  unfold State.clsExpire
  repeat' (first | with_reducible assumption | ((with_reducible refine Foot.le_trans ?_ hF); decide) | ((with_reducible refine Foot.has_of_le hF ?_); (first | (simp (disch := first | omega | decide) only [F.CLS_STAT_STATE_has, F.CLS_CNT_EXPIRE_has]; done) | decide | (dsimp only; decide))) | ((with_reducible refine Foot.parts_of_le hF ?_); decide) | (exact ⟨by decide, by decide⟩) | lift_lets -underBinder | (intro x; have hx : a.Only g x := (by repeat' (first | with_reducible assumption | ((with_reducible refine Foot.le_trans ?_ hF); decide) | ((with_reducible refine Foot.has_of_le hF ?_); (first | (simp (disch := first | omega | decide) only [F.CLS_STAT_STATE_has, F.CLS_CNT_EXPIRE_has]; done) | decide | (dsimp only; decide))) | ((with_reducible refine Foot.parts_of_le hF ?_); decide) | (exact ⟨by decide, by decide⟩) | lift_lets -underBinder | (with_reducible first | apply State.Only.ite | apply State.Only.bump | apply State.Only.pulseEv | apply State.Only.put | apply State.clsJudge_only | apply State.modCls_only | apply State.ownSs1Start_only | apply State.trigSs1_only) | (intro _))); clear_value x) | (intro x; clear_value x) | (with_reducible first | apply State.Only.ite | apply State.Only.bump | apply State.Only.pulseEv | apply State.Only.put | apply State.clsJudge_only | apply State.modCls_only | apply State.ownSs1Start_only | apply State.trigSs1_only) | (intro _))

theorem State.clsBadCrc_only {g : Foot} {a s : State} (h : a.Only g s) (l : Lane) (n : Fin 8)
    (hF : Foot.le ⟨[.hv, .lv, .aon, .mon, .red, .saf, .cls, .trc, .dcl, .chg, .loopReq], [0x10, 0x11, 0x30, 0x31, 0x32, 0x33, 0x34, 0x50, 0x51], false⟩ g = true) :
    a.Only g (State.clsBadCrc s l n) := by
  unfold State.clsBadCrc
  repeat' (first | with_reducible assumption | ((with_reducible refine Foot.le_trans ?_ hF); decide) | ((with_reducible refine Foot.has_of_le hF ?_); (first | (simp (disch := first | omega | decide) only [F.CLS_STAT_CRC_has, F.CLS_STAT_STATE_has]; done) | decide | (dsimp only; decide))) | ((with_reducible refine Foot.parts_of_le hF ?_); decide) | (exact ⟨by decide, by decide⟩) | lift_lets -underBinder | (intro x; have hx : a.Only g x := (by repeat' (first | with_reducible assumption | ((with_reducible refine Foot.le_trans ?_ hF); decide) | ((with_reducible refine Foot.has_of_le hF ?_); (first | (simp (disch := first | omega | decide) only [F.CLS_STAT_CRC_has, F.CLS_STAT_STATE_has]; done) | decide | (dsimp only; decide))) | ((with_reducible refine Foot.parts_of_le hF ?_); decide) | (exact ⟨by decide, by decide⟩) | lift_lets -underBinder | (with_reducible first | apply State.Only.ite | apply State.Only.bump | apply State.Only.pulseEv | apply State.clsExpire_only | apply State.modCls_only) | (intro _))); clear_value x) | (intro x; clear_value x) | (with_reducible first | apply State.Only.ite | apply State.Only.bump | apply State.Only.pulseEv | apply State.clsExpire_only | apply State.modCls_only) | (intro _))

theorem State.clsAccept_only {g : Foot} {a s : State} (h : a.Only g s) (l : Lane) (n : Fin 8) (t : List Byte)
    (hF : Foot.le ⟨[.hv, .lv, .aon, .mon, .red, .saf, .cls, .trc, .dcl, .chg, .loopReq], [0x10, 0x11, 0x30, 0x31, 0x32, 0x33, 0x34, 0x50, 0x51], false⟩ g = true) :
    a.Only g (State.clsAccept s l n t) := by
  unfold State.clsAccept
  repeat' (first | with_reducible assumption | ((with_reducible refine Foot.le_trans ?_ hF); decide) | ((with_reducible refine Foot.has_of_le hF ?_); (first | (simp (disch := first | omega | decide) only [F.CLS_WD_WD_MAX_has, F.CLS_CFG_GRACE_has, F.CLS_STAT_SEQ_has, F.CLS_STAT_STATE_has]; done) | decide | (dsimp only; decide))) | ((with_reducible refine Foot.parts_of_le hF ?_); decide) | lift_lets -underBinder | (intro x; have hx : a.Only g x := (by repeat' (first | with_reducible assumption | ((with_reducible refine Foot.le_trans ?_ hF); decide) | ((with_reducible refine Foot.has_of_le hF ?_); (first | (simp (disch := first | omega | decide) only [F.CLS_WD_WD_MAX_has, F.CLS_CFG_GRACE_has, F.CLS_STAT_SEQ_has, F.CLS_STAT_STATE_has]; done) | decide | (dsimp only; decide))) | ((with_reducible refine Foot.parts_of_le hF ?_); decide) | lift_lets -underBinder | (with_reducible first | apply State.Only.ite | apply State.Only.put | apply State.clsAck_only | apply State.clsJudge_only | apply State.clsSlpSet_only | apply State.modCls_only) | (intro _))); clear_value x) | (intro x; clear_value x) | (with_reducible first | apply State.Only.ite | apply State.Only.put | apply State.clsAck_only | apply State.clsJudge_only | apply State.clsSlpSet_only | apply State.modCls_only) | (intro _))

theorem execClauseReceive_only {g : Foot} {a s : State} (h : a.Only g s) (l : Lane) (n : Fin 8)
    (hF : Foot.le ⟨[.hv, .lv, .aon, .mon, .red, .saf, .cls, .trc, .dcl, .chg, .loopReq], [0x10, 0x11, 0x30, 0x31, 0x32, 0x33, 0x34, 0x50, 0x51], false⟩ g = true) :
    OutOnly g a (execClauseReceive l n s) := by
  unfold execClauseReceive
  repeat' (first | with_reducible assumption | ((with_reducible refine Foot.le_trans ?_ hF); decide) | ((with_reducible refine Foot.has_of_le hF ?_); (first | (simp (disch := first | omega | decide) only [F.CLS_CFG_EN_has, F.CLS_CFG_DIR_has, F.CLS_STAT_STATE_has, F.CLS_CFG_SID_has, F.CLS_CNT_SIDERR_has, F.CLS_STAT_SEQ_has, F.CLS_CNT_REPEAT_has, F.CLS_CFG_SEQ_WIN_has, F.CLS_CNT_SEQERR_has]; done) | decide | (dsimp only; decide))) | ((with_reducible refine Foot.parts_of_le hF ?_); decide) | (exact ⟨by decide, by decide⟩) | lift_lets -underBinder | (intro x; have hx : a.Only g x := (by repeat' (first | with_reducible assumption | ((with_reducible refine Foot.le_trans ?_ hF); decide) | ((with_reducible refine Foot.has_of_le hF ?_); (first | (simp (disch := first | omega | decide) only [F.CLS_CFG_EN_has, F.CLS_CFG_DIR_has, F.CLS_STAT_STATE_has, F.CLS_CFG_SID_has, F.CLS_CNT_SIDERR_has, F.CLS_STAT_SEQ_has, F.CLS_CNT_REPEAT_has, F.CLS_CFG_SEQ_WIN_has, F.CLS_CNT_SEQERR_has]; done) | decide | (dsimp only; decide))) | ((with_reducible refine Foot.parts_of_le hF ?_); decide) | (exact ⟨by decide, by decide⟩) | lift_lets -underBinder | (with_reducible first | apply State.Only.ite | apply State.Only.bump | apply State.Only.done | apply State.Only.pulseEv | apply State.clsAccept_only | apply State.clsBadCrc_only | apply State.modCls_only) | (first | split | (dsimp only [x]; split)) | (intro _))); clear_value x) | (intro x; clear_value x) | (with_reducible first | apply State.Only.ite | apply State.Only.bump | apply State.Only.done | apply State.Only.pulseEv | apply State.clsAccept_only | apply State.clsBadCrc_only | apply State.modCls_only) | split | (intro _))

theorem execWdog_only {g : Foot} {a s : State} (h : a.Only g s) (l : Lane) (n : Fin 8)
    (hF : Foot.le ⟨[.hv, .lv, .aon, .mon, .red, .saf, .cls, .trc, .dcl, .chg, .loopReq], [0x10, 0x11, 0x30, 0x31, 0x32, 0x33, 0x34, 0x50, 0x51], false⟩ g = true) :
    OutOnly g a (execWdog l n s) := by
  unfold execWdog
  repeat' (first | with_reducible assumption | ((with_reducible refine Foot.le_trans ?_ hF); decide) | ((with_reducible refine Foot.has_of_le hF ?_); (first | (simp (disch := first | omega | decide) only [F.CLS_CFG_EN_has, F.CLS_CFG_DIR_has, F.CLS_STAT_STATE_has]; done) | decide | (dsimp only; decide))) | ((with_reducible refine Foot.parts_of_le hF ?_); decide) | (with_reducible first | apply State.Only.ite | apply State.Only.done | apply State.clsExpire_only) | split | (intro _))

theorem execLaneDiff_only {g : Foot} {a s : State} (h : a.Only g s)
    (hF : Foot.le ⟨[], [], false⟩ g = true) :
    OutOnly g a (execLaneDiff s) := by
  unfold execLaneDiff
  repeat' (first | with_reducible assumption | ((with_reducible refine Foot.le_trans ?_ hF); decide) | ((with_reducible refine Foot.has_of_le hF ?_); (first | decide | (dsimp only; decide))) | ((with_reducible refine Foot.parts_of_le hF ?_); decide) | (exact ⟨by decide, by decide⟩) | (with_reducible first | apply State.Only.ite | apply State.Only.both | apply State.Only.done | apply State.Only.pulseEv) | split | (intro _))

theorem State.freshBytes_only {g : Foot} {a : State} (n : Nat) {s : State} (h : a.Only g s) (hF : Foot.le ⟨[.free], [], false⟩ g = true) :
    a.Only g (s.freshBytes n).2 := by
  induction n generalizing s with
  | zero => exact h
  | succ n ih => exact ih (State.Only.fresh h (Foot.parts_of_le hF (by decide)))

theorem State.clsToCan_only {g : Foot} {a s : State} (h : a.Only g s) (l : Lane) (n : Fin 8) (t : List Byte) (hF : Foot.le ⟨[.free, .can], [0x70], false⟩ g = true) :
    a.Only g (State.clsToCan s l n t) := by
  unfold State.clsToCan
  refine State.Only.ite (fun _ => h) (fun _ => ?_)
  exact State.showCan_only (State.modCan_only (State.Only.fresh (State.freshBytes_only _ h (Foot.le_trans (by decide) hF))
    (Foot.parts_of_le hF (by decide))) _ _ _ (Foot.le_trans (by decide) hF)) _ _ (Foot.le_trans (by decide) hF)

theorem State.clsBase_only {g : Foot} {a s : State} (h : a.Only g s) (l : Lane) (n : Fin 8) (hF : Foot.le ⟨[.free], [], false⟩ g = true) :
    a.Only g (s.clsBase l n).2 := by
  unfold State.clsBase
  split
  · exact h
  · exact State.Only.withFree h _ (Foot.parts_of_le hF (by decide))

theorem execClauseTransmit_only {g : Foot} {a s : State} (h : a.Only g s) (l : Lane) (n : Fin 8) (hF : Foot.le ⟨[.free, .cls, .can], [0x51, 0x70], false⟩ g = true) :
    OutOnly g a (execClauseTransmit l n s) := by
  unfold execClauseTransmit
  dsimp only
  split
  · exact State.Only.done h
  · generalize hb : (if (l == Lane.ofB (s.flag l (F.CLS_CFG_LANE n.val)) || (s.lane l).cls[n].took) = true then ((s.lane l).cls[n].sent, s)
      else s.clsBase l n) = b
    have h1 : a.Only g b.2 := by
      rw [← hb]
      split
      · exact h
      · exact State.clsBase_only h _ _ (Foot.le_trans (by decide) hF)
    have k := State.modCls_only (State.Only.put (State.freshBytes_only (b.2.clsLen l n - 8) h1 (Foot.le_trans (by decide) hF)) l
      (F.CLS_STAT_SEQ n.val) (b.1 + 1).toNat (Foot.has_of_le hF (F.CLS_STAT_SEQ_has _ n.isLt _ (by decide)))) l n
    exact State.Only.done (State.Only.ite (fun _ => State.clsToCan_only (k _ (Foot.le_trans (by decide) hF)) _ _ _ (Foot.le_trans (by decide) hF))
      (fun _ => k _ (Foot.le_trans (by decide) hF)))

end Sys2Proof.Machine
end

