-- ==== Sys2Proof/Laws/Only/Write.lean ====
section
/-! SUPPORT. What the operations of Write may change. -/
namespace Sys2Proof.Machine
set_option linter.all false
set_option Elab.async false

theorem State.modSess_only {g : Foot} {a s : State} (h : a.Only g s) (l : Lane) (q : Option Req) (f : Sess → Sess)
    (hF : Foot.le ⟨[.sess], [], false⟩ g = true) :
    a.Only g (State.modSess s l q f) := by
  unfold State.modSess
  repeat' (first | with_reducible assumption | ((with_reducible refine Foot.le_trans ?_ hF); decide) | ((with_reducible refine Foot.has_of_le hF ?_); (first | decide | (dsimp only; decide))) | ((with_reducible refine Foot.parts_of_le hF ?_); decide) | (intro x p hp; cases p <;> first | rfl | trivial | exact absurd (Foot.parts_of_le hF (by decide)) hp) | (exact Or.inr (fun _ => rfl)) | (with_reducible first | apply State.Only.lane) | split | (intro _))

theorem State.toShadow_only {g : Foot} {a s : State} (h : a.Only g s) (l : Lane) (addr : Nat) (v : Word)
    (hF : Foot.le ⟨[.shadows], [], false⟩ g = true) :
    a.Only g (State.toShadow s l addr v) := by
  unfold State.toShadow
  repeat' (first | with_reducible assumption | ((with_reducible refine Foot.le_trans ?_ hF); decide) | ((with_reducible refine Foot.has_of_le hF ?_); (first | decide | (dsimp only; decide))) | ((with_reducible refine Foot.parts_of_le hF ?_); decide) | (intro x p hp; cases p <;> first | rfl | trivial | exact absurd (Foot.parts_of_le hF (by decide)) hp) | (exact Or.inr (fun _ => rfl)) | (with_reducible first | apply State.Only.lane) | (intro _))

theorem State.winWrite_only {g : Foot} {a s : State} (h : a.Only g s) (l : Lane) (c : WCtx) (addr : Nat) (b : Nat) (data : Word) (be : BitVec 4)
    (hF : Foot.le ⟨[.mem, .eng], [], false⟩ g = true) :
    WriteOnly g a (State.winWrite s l c addr b data be) := by
  unfold State.winWrite
  repeat' (first | with_reducible assumption | ((with_reducible refine Foot.le_trans ?_ hF); decide) | ((with_reducible refine Foot.has_of_le hF ?_); (first | decide | (dsimp only; decide))) | ((with_reducible refine Foot.parts_of_le hF ?_); decide) | (intro x p hp; cases p <;> first | rfl | trivial | exact absurd (Foot.parts_of_le hF (by decide)) hp) | (exact Or.inr (fun _ => rfl)) | lift_lets -underBinder | (intro x; have hx : a.Only g x := (by repeat' (first | with_reducible assumption | ((with_reducible refine Foot.le_trans ?_ hF); decide) | ((with_reducible refine Foot.has_of_le hF ?_); (first | decide | (dsimp only; decide))) | ((with_reducible refine Foot.parts_of_le hF ?_); decide) | (intro x p hp; cases p <;> first | rfl | trivial | exact absurd (Foot.parts_of_le hF (by decide)) hp) | (exact Or.inr (fun _ => rfl)) | lift_lets -underBinder | (with_reducible first | apply State.Only.ite | apply State.Only.eng | apply State.Only.lane | apply State.Only.writeOk | apply State.Only.writeError) | (first | split | (dsimp only [x]; split)) | (intro _))); clear_value x) | (intro x; clear_value x) | (with_reducible first | apply State.Only.ite | apply State.Only.eng | apply State.Only.lane | apply State.Only.writeOk | apply State.Only.writeError) | split | (intro _))

theorem State.winWrite_only_some {g : Foot} {a s t : State} {l : Lane} {c : WCtx} {addr : Nat} {b : Nat} {data : Word} {be : BitVec 4} {w : Status}
    (e : State.winWrite s l c addr b data be = .ok (t, w)) (h : a.Only g s) (hF : Foot.le ⟨[.mem, .eng], [], false⟩ g = true) : a.Only g t := State.winWrite_only h _ _ _ _ _ _ hF t w e

end Sys2Proof.Machine
end

