-- ==== Sys2Proof/Laws/Only/Registers.lean ====
section
/-! SUPPORT. What the operations of Registers may change. -/
namespace Sys2Proof.Machine
set_option linter.all false
set_option Elab.async false

theorem State.answerTo_only {g : Foot} {a s : State} (h : a.Only g s) (l : Lane) (type : Byte) (q : Req) (addr : Nat) (d : List Byte) (e : Bool)
    (hF : Foot.le ⟨[], [], false⟩ g = true) :
    a.Only g (State.answerTo s l type q addr d e) := by
  unfold State.answerTo
  repeat' (first | with_reducible assumption | ((with_reducible refine Foot.le_trans ?_ hF); decide) | ((with_reducible refine Foot.has_of_le hF ?_); (first | decide | (dsimp only; decide))) | ((with_reducible refine Foot.parts_of_le hF ?_); decide) | lift_lets -underBinder | (intro x; have hx : a.Only g x := (by repeat' (first | with_reducible assumption | ((with_reducible refine Foot.le_trans ?_ hF); decide) | ((with_reducible refine Foot.has_of_le hF ?_); (first | decide | (dsimp only; decide))) | ((with_reducible refine Foot.parts_of_le hF ?_); decide) | lift_lets -underBinder | (with_reducible first | apply State.Only.ite | apply State.Only.bump | apply State.Only.send) | (intro _))); clear_value x) | (intro x; clear_value x) | (with_reducible first | apply State.Only.ite | apply State.Only.bump | apply State.Only.send) | (intro _))

theorem State.respond_only {g : Foot} {a s : State} (h : a.Only g s) (l : Lane) (x : Access) (d : List Byte)
    (hF : Foot.le ⟨[], [], false⟩ g = true) :
    a.Only g (State.respond s l x d) := by
  unfold State.respond
  repeat' (first | with_reducible assumption | ((with_reducible refine Foot.le_trans ?_ hF); decide) | ((with_reducible refine Foot.has_of_le hF ?_); (first | decide | (dsimp only; decide))) | ((with_reducible refine Foot.parts_of_le hF ?_); decide) | lift_lets -underBinder | (intro x; have hx : a.Only g x := (by repeat' (first | with_reducible assumption | ((with_reducible refine Foot.le_trans ?_ hF); decide) | ((with_reducible refine Foot.has_of_le hF ?_); (first | decide | (dsimp only; decide))) | ((with_reducible refine Foot.parts_of_le hF ?_); decide) | lift_lets -underBinder | (with_reducible first | apply State.Only.fold | apply State.answerTo_only) | (first | split | (dsimp only [x]; split)) | (intro _))); clear_value x) | (intro x; clear_value x) | (with_reducible first | apply State.Only.fold | apply State.answerTo_only) | split | (intro _))

theorem State.joinWaiting_only {g : Foot} {a s : State} (h : a.Only g s) (l : Lane) (x : Access)
    (hF : Foot.le ⟨[.waiting], [], false⟩ g = true) :
    OptOnly g a (State.joinWaiting s l x) := by
  unfold State.joinWaiting
  repeat' (first | with_reducible assumption | ((with_reducible refine Foot.le_trans ?_ hF); decide) | ((with_reducible refine Foot.has_of_le hF ?_); (first | decide | (dsimp only; decide))) | ((with_reducible refine Foot.parts_of_le hF ?_); decide) | (intro x p hp; cases p <;> first | rfl | trivial | exact absurd (Foot.parts_of_le hF (by decide)) hp) | (exact Or.inr (fun _ => rfl)) | (with_reducible first | apply State.Only.ite | apply State.Only.lane | apply State.Only.optSome | apply State.Only.optNone) | split | (intro _))

theorem State.joinWaiting_only_some {g : Foot} {a s t : State} {l : Lane} {x : Access}
    (e : State.joinWaiting s l x = some t) (h : a.Only g s) (hF : Foot.le ⟨[.waiting], [], false⟩ g = true) : a.Only g t := State.joinWaiting_only h _ _ hF t e

theorem State.refuse_only {g : Foot} {a s : State} (h : a.Only g s) (l : Lane) (x : Access) (st : Status)
    (hF : Foot.le ⟨[.sess, .answer], [0x40], false⟩ g = true) :
    a.Only g (State.refuse s l x st) := by
  unfold State.refuse
  repeat' (first | with_reducible assumption | ((with_reducible refine Foot.le_trans ?_ hF); decide) | ((with_reducible refine Foot.has_of_le hF ?_); (first | decide | (dsimp only; decide))) | ((with_reducible refine Foot.parts_of_le hF ?_); decide) | lift_lets -underBinder | (intro x; have hx : a.Only g x := (by repeat' (first | with_reducible assumption | ((with_reducible refine Foot.le_trans ?_ hF); decide) | ((with_reducible refine Foot.has_of_le hF ?_); (first | decide | (dsimp only; decide))) | ((with_reducible refine Foot.parts_of_le hF ?_); decide) | lift_lets -underBinder | (with_reducible first | apply State.Only.ite | apply State.accept_only | apply State.reject_only | apply State.reply_only | apply State.respond_only) | (first | split | (dsimp only [x]; split)) | (intro _))); clear_value x) | (intro x; clear_value x) | (with_reducible first | apply State.Only.ite | apply State.accept_only | apply State.reject_only | apply State.reply_only | apply State.respond_only) | split | (intro _))

theorem execRegisterWrite_only {g : Foot} {a s : State} (_ : a.Only g s) (l : Lane) (addr : BitVec 24) (data : Word) (be : BitVec 4) (q : Option Req) (ph : BusPhase)
    (hF : Foot.le ⟨[.hv, .lv, .sns, .aon, .free, .ofs, .mon, .hold, .boot, .mem, .flash, .shadows, .waiting, .timedHalves, .sess, .answer, .red, .saf, .cls, .trc, .eng, .fbk, .smp, .dcl, .chg, .act, .can, .ring, .bulkLast, .dup, .loopReq, .scrub, .legEvents], [], true⟩ g = true) : OutOnly g a (execRegisterWrite l addr data be q ph s) := by
  unfold execRegisterWrite
  repeat' (first | exact ⟨_, rfl, State.Only.whole hF⟩ | split)

theorem execBlockSoftReset_only {g : Foot} {a s : State} (_ : a.Only g s) (l : Lane) (pg : BitVec 12) (q : Option Req)
    (hF : Foot.le ⟨[.hv, .lv, .sns, .aon, .free, .ofs, .mon, .hold, .boot, .mem, .flash, .shadows, .waiting, .timedHalves, .sess, .answer, .red, .saf, .cls, .trc, .eng, .fbk, .smp, .dcl, .chg, .act, .can, .ring, .bulkLast, .dup, .loopReq, .scrub, .legEvents], [], true⟩ g = true) : OutOnly g a (execBlockSoftReset l pg q s) := by
  unfold execBlockSoftReset
  repeat' (first | exact ⟨_, rfl, State.Only.whole hF⟩ | split)

theorem execLockSet_only {g : Foot} {a s : State} (_ : a.Only g s) (l : Lane) (pg : BitVec 12) (w : Word) (q : Option Req)
    (hF : Foot.le ⟨[.hv, .lv, .sns, .aon, .free, .ofs, .mon, .hold, .boot, .mem, .flash, .shadows, .waiting, .timedHalves, .sess, .answer, .red, .saf, .cls, .trc, .eng, .fbk, .smp, .dcl, .chg, .act, .can, .ring, .bulkLast, .dup, .loopReq, .scrub, .legEvents], [], true⟩ g = true) : OutOnly g a (execLockSet l pg w q s) := by
  unfold execLockSet
  repeat' (first | exact ⟨_, rfl, State.Only.whole hF⟩ | split)

theorem execEventForce_only {g : Foot} {a s : State} (_ : a.Only g s) (l : Lane) (pg : BitVec 12) (w : Word) (q : Option Req)
    (hF : Foot.le ⟨[.hv, .lv, .sns, .aon, .free, .ofs, .mon, .hold, .boot, .mem, .flash, .shadows, .waiting, .timedHalves, .sess, .answer, .red, .saf, .cls, .trc, .eng, .fbk, .smp, .dcl, .chg, .act, .can, .ring, .bulkLast, .dup, .loopReq, .scrub, .legEvents], [], true⟩ g = true) : OutOnly g a (execEventForce l pg w q s) := by
  unfold execEventForce
  repeat' (first | exact ⟨_, rfl, State.Only.whole hF⟩ | split)

theorem execDualWriteHalf_only {g : Foot} {a s : State} (_ : a.Only g s) (l : Lane) (addr : BitVec 24) (data : Word) (q : Option Req)
    (hF : Foot.le ⟨[.hv, .lv, .sns, .aon, .free, .ofs, .mon, .hold, .boot, .mem, .flash, .shadows, .waiting, .timedHalves, .sess, .answer, .red, .saf, .cls, .trc, .eng, .fbk, .smp, .dcl, .chg, .act, .can, .ring, .bulkLast, .dup, .loopReq, .scrub, .legEvents], [], true⟩ g = true) : OutOnly g a (execDualWriteHalf l addr data q s) := by
  unfold execDualWriteHalf
  repeat' (first | exact ⟨_, rfl, State.Only.whole hF⟩ | split)

theorem execDualTimeout_only {g : Foot} {a s : State} (h : a.Only g s) (l : Lane) (addr : BitVec 24)
    (hF : Foot.le ⟨[.mon, .timedHalves, .sess], [], false⟩ g = true) :
    OutOnly g a (execDualTimeout l addr s) := by
  unfold execDualTimeout
  repeat' (first | with_reducible assumption | ((with_reducible refine Foot.le_trans ?_ hF); decide) | ((with_reducible refine Foot.has_of_le hF ?_); (first | decide | (dsimp only; decide))) | ((with_reducible refine Foot.parts_of_le hF ?_); decide) | (exact ⟨by decide, by decide⟩) | (exact Or.inr (fun _ => rfl)) | lift_lets -underBinder | (intro x; have hx : a.Only g x := (by repeat' (first | with_reducible assumption | ((with_reducible refine Foot.le_trans ?_ hF); decide) | ((with_reducible refine Foot.has_of_le hF ?_); (first | decide | (dsimp only; decide))) | ((with_reducible refine Foot.parts_of_le hF ?_); decide) | (exact ⟨by decide, by decide⟩) | (exact Or.inr (fun _ => rfl)) | lift_lets -underBinder | (with_reducible first | apply State.Only.ite | apply State.Only.done | apply State.Only.mon | apply State.Only.monEv | apply State.halfGone_only) | (first | split | (dsimp only [x]; split)) | (intro _))); clear_value x) | (intro x; dsimp -zeta only [x]; clear x) | (intro x; clear_value x) | (with_reducible first | apply State.Only.ite | apply State.Only.done | apply State.Only.mon | apply State.Only.monEv | apply State.halfGone_only) | split | (intro _))

theorem execDualHalfLaneTimeout_only {g : Foot} {a s : State} (h : a.Only g s) (l : Lane) (addr : BitVec 24)
    (hF : Foot.le ⟨[.timedHalves, .sess], [], false⟩ g = true) :
    OutOnly g a (execDualHalfLaneTimeout l addr s) := by
  unfold execDualHalfLaneTimeout
  repeat' (first | with_reducible assumption | ((with_reducible refine Foot.le_trans ?_ hF); decide) | ((with_reducible refine Foot.has_of_le hF ?_); (first | decide | (dsimp only; decide))) | ((with_reducible refine Foot.parts_of_le hF ?_); decide) | (with_reducible first | apply State.Only.ite | apply State.Only.done | apply State.halfGone_only) | split | (intro _))

theorem execSignalAccess_only {g : Foot} {a s : State} (_ : a.Only g s) (l : Lane) (n : BitVec 14) (w : Option Word) (q : Option Req) (ph : BusPhase)
    (hF : Foot.le ⟨[.hv, .lv, .sns, .aon, .free, .ofs, .mon, .hold, .boot, .mem, .flash, .shadows, .waiting, .timedHalves, .sess, .answer, .red, .saf, .cls, .trc, .eng, .fbk, .smp, .dcl, .chg, .act, .can, .ring, .bulkLast, .dup, .loopReq, .scrub, .legEvents], [], true⟩ g = true) : OutOnly g a (execSignalAccess l n w q ph s) := by
  unfold execSignalAccess
  repeat' (first | exact ⟨_, rfl, State.Only.whole hF⟩ | split)

theorem State.periodIn_only {g : Foot} {a s : State} (h : a.Only g s) (l : Lane) (q : Req) (ends : List Bool)
    (hF : Foot.le ⟨[.shadows, .waiting, .sess], [], false⟩ g = true) :
    a.Only g (State.periodIn s l q ends) := by
  unfold State.periodIn
  repeat' (first | with_reducible assumption | ((with_reducible refine Foot.le_trans ?_ hF); decide) | ((with_reducible refine Foot.has_of_le hF ?_); (first | decide | (dsimp only; decide))) | ((with_reducible refine Foot.parts_of_le hF ?_); decide) | (intro x p hp; cases p <;> first | rfl | trivial | exact absurd (Foot.parts_of_le hF (by decide)) hp) | (exact Or.inr (fun _ => rfl)) | lift_lets -underBinder | (intro x; have hx : a.Only g x := (by repeat' (first | with_reducible assumption | ((with_reducible refine Foot.le_trans ?_ hF); decide) | ((with_reducible refine Foot.has_of_le hF ?_); (first | decide | (dsimp only; decide))) | ((with_reducible refine Foot.parts_of_le hF ?_); decide) | (intro x p hp; cases p <;> first | rfl | trivial | exact absurd (Foot.parts_of_le hF (by decide)) hp) | (exact Or.inr (fun _ => rfl)) | lift_lets -underBinder | (with_reducible first | apply State.Only.ite | apply State.Only.fold | apply State.Only.lane | apply State.modSess_only) | (first | split | (dsimp only [x]; split)) | (intro _))); clear_value x) | (intro x; clear_value x) | (with_reducible first | apply State.Only.ite | apply State.Only.fold | apply State.Only.lane | apply State.modSess_only) | split | (intro _))

theorem State.respondPeriod_only {g : Foot} {a s : State} (h : a.Only g s) (l : Lane) (q : Req) (ends : List Bool)
    (hF : Foot.le ⟨[], [], false⟩ g = true) :
    a.Only g (State.respondPeriod s l q ends) := by
  unfold State.respondPeriod
  repeat' (first | with_reducible assumption | ((with_reducible refine Foot.le_trans ?_ hF); decide) | ((with_reducible refine Foot.has_of_le hF ?_); (first | decide | (dsimp only; decide))) | ((with_reducible refine Foot.parts_of_le hF ?_); decide) | (with_reducible first | apply State.Only.fold | apply State.answerTo_only) | (intro _))

theorem State.period_only {g : Foot} {a s : State} (h : a.Only g s) (l : Lane) (q : Req) (ends : List Bool) (bad : Option Status)
    (hF : Foot.le ⟨[.shadows, .waiting, .sess, .answer], [0x40], false⟩ g = true) :
    a.Only g (State.period s l q ends bad) := by
  unfold State.period
  repeat' (first | with_reducible assumption | ((with_reducible refine Foot.le_trans ?_ hF); decide) | ((with_reducible refine Foot.has_of_le hF ?_); (first | decide | (dsimp only; decide))) | ((with_reducible refine Foot.parts_of_le hF ?_); decide) | lift_lets -underBinder | (intro x; have hx : a.Only g x := (by repeat' (first | with_reducible assumption | ((with_reducible refine Foot.le_trans ?_ hF); decide) | ((with_reducible refine Foot.has_of_le hF ?_); (first | decide | (dsimp only; decide))) | ((with_reducible refine Foot.parts_of_le hF ?_); decide) | lift_lets -underBinder | (with_reducible first | apply State.Only.ite | apply State.accept_only | apply State.modSess_only | apply State.periodIn_only | apply State.reject_only | apply State.reply_only | apply State.respondPeriod_only) | (first | split | (dsimp only [x]; split)) | (intro _))); clear_value x) | (intro x; clear_value x) | (with_reducible first | apply State.Only.ite | apply State.accept_only | apply State.modSess_only | apply State.periodIn_only | apply State.reject_only | apply State.reply_only | apply State.respondPeriod_only) | split | (intro _))

theorem State.arm_only {g : Foot} {a s : State} (h : a.Only g s) (l : Lane) (q : Req)
    (hF : Foot.le ⟨[.shadows], [], false⟩ g = true) :
    a.Only g (State.arm s l q) := by
  unfold State.arm
  repeat' (first | with_reducible assumption | ((with_reducible refine Foot.le_trans ?_ hF); decide) | ((with_reducible refine Foot.has_of_le hF ?_); (first | decide | (dsimp only; decide))) | ((with_reducible refine Foot.parts_of_le hF ?_); decide) | (intro x p hp; cases p <;> first | rfl | trivial | exact absurd (Foot.parts_of_le hF (by decide)) hp) | (exact Or.inr (fun _ => rfl)) | (with_reducible first | apply State.Only.ite | apply State.Only.lane) | (intro _))

theorem execPeriodComplete_only {g : Foot} {a s : State} (h : a.Only g s) (l : Lane) (k : Fin 4)
    (hF : Foot.le ⟨[.shadows, .sess, .answer], [0x40], false⟩ g = true) :
    OutOnly g a (execPeriodComplete l k s) := by
  unfold execPeriodComplete
  repeat' (first | with_reducible assumption | ((with_reducible refine Foot.le_trans ?_ hF); decide) | ((with_reducible refine Foot.has_of_le hF ?_); (first | decide | (dsimp only; decide))) | ((with_reducible refine Foot.parts_of_le hF ?_); decide) | lift_lets -underBinder | (intro x; have hx : a.Only g x := (by repeat' (first | with_reducible assumption | ((with_reducible refine Foot.le_trans ?_ hF); decide) | ((with_reducible refine Foot.has_of_le hF ?_); (first | decide | (dsimp only; decide))) | ((with_reducible refine Foot.parts_of_le hF ?_); decide) | lift_lets -underBinder | (with_reducible first | apply State.Only.ite | apply State.Only.done | apply State.accept_only | apply State.arm_only | apply State.modSess_only | apply State.reply_only | apply State.respondPeriod_only) | (first | split | (dsimp only [x]; split)) | (intro _))); clear_value x) | (intro x; clear_value x) | (with_reducible first | apply State.Only.ite | apply State.Only.done | apply State.accept_only | apply State.arm_only | apply State.modSess_only | apply State.reply_only | apply State.respondPeriod_only) | split | (intro _))

theorem execShadowArmPeer_only {g : Foot} {a s : State} (h : a.Only g s) (l : Lane) (q : Req)
    (hF : Foot.le ⟨[.shadows], [], false⟩ g = true) :
    OutOnly g a (execShadowArmPeer l q s) := by
  unfold execShadowArmPeer
  repeat' (first | with_reducible assumption | ((with_reducible refine Foot.le_trans ?_ hF); decide) | ((with_reducible refine Foot.has_of_le hF ?_); (first | decide | (dsimp only; decide))) | ((with_reducible refine Foot.parts_of_le hF ?_); decide) | lift_lets -underBinder | (intro x; have hx : a.Only g x := (by repeat' (first | with_reducible assumption | ((with_reducible refine Foot.le_trans ?_ hF); decide) | ((with_reducible refine Foot.has_of_le hF ?_); (first | decide | (dsimp only; decide))) | ((with_reducible refine Foot.parts_of_le hF ?_); decide) | lift_lets -underBinder | (with_reducible first | apply State.Only.ite | apply State.Only.done | apply State.arm_only) | (first | split | (dsimp only [x]; split)) | (intro _))); clear_value x) | (intro x; clear_value x) | (with_reducible first | apply State.Only.ite | apply State.Only.done | apply State.arm_only) | split | (intro _))

theorem State.feedDroop_only {g : Foot} {a s : State} (h : a.Only g s) (l : Lane)
    (hF : Foot.le ⟨[.mem], [], false⟩ g = true) :
    a.Only g (State.feedDroop s l) := by
  unfold State.feedDroop
  repeat' (first | with_reducible assumption | ((with_reducible refine Foot.le_trans ?_ hF); decide) | ((with_reducible refine Foot.has_of_le hF ?_); (first | decide | (dsimp only; decide))) | ((with_reducible refine Foot.parts_of_le hF ?_); decide) | (intro x p hp; cases p <;> first | rfl | trivial | exact absurd (Foot.parts_of_le hF (by decide)) hp) | (exact Or.inr (fun _ => rfl)) | lift_lets -underBinder | (intro x; have hx : a.Only g x := (by repeat' (first | with_reducible assumption | ((with_reducible refine Foot.le_trans ?_ hF); decide) | ((with_reducible refine Foot.has_of_le hF ?_); (first | decide | (dsimp only; decide))) | ((with_reducible refine Foot.parts_of_le hF ?_); decide) | (intro x p hp; cases p <;> first | rfl | trivial | exact absurd (Foot.parts_of_le hF (by decide)) hp) | (exact Or.inr (fun _ => rfl)) | lift_lets -underBinder | (with_reducible first | apply State.Only.ite | apply State.Only.fold | apply State.Only.lane | apply State.Only.mput) | (intro _))); clear_value x) | (intro x; clear_value x) | (with_reducible first | apply State.Only.ite | apply State.Only.fold | apply State.Only.lane | apply State.Only.mput) | (intro _))

theorem execShadowTransfer_only {g : Foot} {a s : State} (_ : a.Only g s) (l : Lane)
    (hF : Foot.le ⟨[.hv, .lv, .sns, .aon, .free, .ofs, .mon, .hold, .boot, .mem, .flash, .shadows, .waiting, .timedHalves, .sess, .answer, .red, .saf, .cls, .trc, .eng, .fbk, .smp, .dcl, .chg, .act, .can, .ring, .bulkLast, .dup, .loopReq, .scrub, .legEvents], [], true⟩ g = true) : OutOnly g a (execShadowTransfer l s) := by
  unfold execShadowTransfer
  repeat' (first | exact ⟨_, rfl, State.Only.whole hF⟩ | split)

theorem execDclWrite_only {g : Foot} {a s : State} (_ : a.Only g s) (l : Lane) (off : BitVec 12) (data : Word) (be : BitVec 4) (q : Option Req)
    (hF : Foot.le ⟨[.hv, .lv, .sns, .aon, .free, .ofs, .mon, .hold, .boot, .mem, .flash, .shadows, .waiting, .timedHalves, .sess, .answer, .red, .saf, .cls, .trc, .eng, .fbk, .smp, .dcl, .chg, .act, .can, .ring, .bulkLast, .dup, .loopReq, .scrub, .legEvents], [], true⟩ g = true) : OutOnly g a (execDclWrite l off data be q s) := by
  unfold execDclWrite
  repeat' (first | exact ⟨_, rfl, State.Only.whole hF⟩ | split)

theorem execDclEnable_only {g : Foot} {a s : State} (_ : a.Only g s) (l : Lane) (q : Option Req)
    (hF : Foot.le ⟨[.hv, .lv, .sns, .aon, .free, .ofs, .mon, .hold, .boot, .mem, .flash, .shadows, .waiting, .timedHalves, .sess, .answer, .red, .saf, .cls, .trc, .eng, .fbk, .smp, .dcl, .chg, .act, .can, .ring, .bulkLast, .dup, .loopReq, .scrub, .legEvents], [], true⟩ g = true) : OutOnly g a (execDclEnable l q s) := by
  unfold execDclEnable
  repeat' (first | exact ⟨_, rfl, State.Only.whole hF⟩ | split)

theorem execDclDisable_only {g : Foot} {a s : State} (_ : a.Only g s) (l : Lane) (q : Option Req)
    (hF : Foot.le ⟨[.hv, .lv, .sns, .aon, .free, .ofs, .mon, .hold, .boot, .mem, .flash, .shadows, .waiting, .timedHalves, .sess, .answer, .red, .saf, .cls, .trc, .eng, .fbk, .smp, .dcl, .chg, .act, .can, .ring, .bulkLast, .dup, .loopReq, .scrub, .legEvents], [], true⟩ g = true) : OutOnly g a (execDclDisable l q s) := by
  unfold execDclDisable
  repeat' (first | exact ⟨_, rfl, State.Only.whole hF⟩ | split)

theorem execPhaseClear_only {g : Foot} {a s : State} (_ : a.Only g s) (l : Lane) (m : Fin 4) (q : Option Req)
    (hF : Foot.le ⟨[.hv, .lv, .sns, .aon, .free, .ofs, .mon, .hold, .boot, .mem, .flash, .shadows, .waiting, .timedHalves, .sess, .answer, .red, .saf, .cls, .trc, .eng, .fbk, .smp, .dcl, .chg, .act, .can, .ring, .bulkLast, .dup, .loopReq, .scrub, .legEvents], [], true⟩ g = true) : OutOnly g a (execPhaseClear l m q s) := by
  unfold execPhaseClear
  repeat' (first | exact ⟨_, rfl, State.Only.whole hF⟩ | split)

theorem execDclClrCnt_only {g : Foot} {a s : State} (_ : a.Only g s) (l : Lane) (q : Option Req)
    (hF : Foot.le ⟨[.hv, .lv, .sns, .aon, .free, .ofs, .mon, .hold, .boot, .mem, .flash, .shadows, .waiting, .timedHalves, .sess, .answer, .red, .saf, .cls, .trc, .eng, .fbk, .smp, .dcl, .chg, .act, .can, .ring, .bulkLast, .dup, .loopReq, .scrub, .legEvents], [], true⟩ g = true) : OutOnly g a (execDclClrCnt l q s) := by
  unfold execDclClrCnt
  repeat' (first | exact ⟨_, rfl, State.Only.whole hF⟩ | split)

theorem execChgClrFault_only {g : Foot} {a s : State} (_ : a.Only g s) (l : Lane) (q : Option Req)
    (hF : Foot.le ⟨[.hv, .lv, .sns, .aon, .free, .ofs, .mon, .hold, .boot, .mem, .flash, .shadows, .waiting, .timedHalves, .sess, .answer, .red, .saf, .cls, .trc, .eng, .fbk, .smp, .dcl, .chg, .act, .can, .ring, .bulkLast, .dup, .loopReq, .scrub, .legEvents], [], true⟩ g = true) : OutOnly g a (execChgClrFault l q s) := by
  unfold execChgClrFault
  repeat' (first | exact ⟨_, rfl, State.Only.whole hF⟩ | split)

theorem execChgClrCnt_only {g : Foot} {a s : State} (_ : a.Only g s) (l : Lane) (q : Option Req)
    (hF : Foot.le ⟨[.hv, .lv, .sns, .aon, .free, .ofs, .mon, .hold, .boot, .mem, .flash, .shadows, .waiting, .timedHalves, .sess, .answer, .red, .saf, .cls, .trc, .eng, .fbk, .smp, .dcl, .chg, .act, .can, .ring, .bulkLast, .dup, .loopReq, .scrub, .legEvents], [], true⟩ g = true) : OutOnly g a (execChgClrCnt l q s) := by
  unfold execChgClrCnt
  repeat' (first | exact ⟨_, rfl, State.Only.whole hF⟩ | split)

theorem execAfeClrCnt_only {g : Foot} {a s : State} (_ : a.Only g s) (l : Lane) (q : Option Req)
    (hF : Foot.le ⟨[.hv, .lv, .sns, .aon, .free, .ofs, .mon, .hold, .boot, .mem, .flash, .shadows, .waiting, .timedHalves, .sess, .answer, .red, .saf, .cls, .trc, .eng, .fbk, .smp, .dcl, .chg, .act, .can, .ring, .bulkLast, .dup, .loopReq, .scrub, .legEvents], [], true⟩ g = true) : OutOnly g a (execAfeClrCnt l q s) := by
  unfold execAfeClrCnt
  repeat' (first | exact ⟨_, rfl, State.Only.whole hF⟩ | split)

theorem execDabClrCnt_only {g : Foot} {a s : State} (_ : a.Only g s) (l : Lane) (q : Option Req)
    (hF : Foot.le ⟨[.hv, .lv, .sns, .aon, .free, .ofs, .mon, .hold, .boot, .mem, .flash, .shadows, .waiting, .timedHalves, .sess, .answer, .red, .saf, .cls, .trc, .eng, .fbk, .smp, .dcl, .chg, .act, .can, .ring, .bulkLast, .dup, .loopReq, .scrub, .legEvents], [], true⟩ g = true) : OutOnly g a (execDabClrCnt l q s) := by
  unfold execDabClrCnt
  repeat' (first | exact ⟨_, rfl, State.Only.whole hF⟩ | split)

theorem execRingClrCnt_only {g : Foot} {a s : State} (_ : a.Only g s) (l : Lane) (q : Option Req)
    (hF : Foot.le ⟨[.hv, .lv, .sns, .aon, .free, .ofs, .mon, .hold, .boot, .mem, .flash, .shadows, .waiting, .timedHalves, .sess, .answer, .red, .saf, .cls, .trc, .eng, .fbk, .smp, .dcl, .chg, .act, .can, .ring, .bulkLast, .dup, .loopReq, .scrub, .legEvents], [], true⟩ g = true) : OutOnly g a (execRingClrCnt l q s) := by
  unfold execRingClrCnt
  repeat' (first | exact ⟨_, rfl, State.Only.whole hF⟩ | split)

theorem execActMove_only {g : Foot} {a s : State} (_ : a.Only g s) (l : Lane) (i : Fin 2) (q : Option Req)
    (hF : Foot.le ⟨[.hv, .lv, .sns, .aon, .free, .ofs, .mon, .hold, .boot, .mem, .flash, .shadows, .waiting, .timedHalves, .sess, .answer, .red, .saf, .cls, .trc, .eng, .fbk, .smp, .dcl, .chg, .act, .can, .ring, .bulkLast, .dup, .loopReq, .scrub, .legEvents], [], true⟩ g = true) : OutOnly g a (execActMove l i q s) := by
  unfold execActMove
  repeat' (first | exact ⟨_, rfl, State.Only.whole hF⟩ | split)

theorem execActHome_only {g : Foot} {a s : State} (_ : a.Only g s) (l : Lane) (i : Fin 2) (q : Option Req)
    (hF : Foot.le ⟨[.hv, .lv, .sns, .aon, .free, .ofs, .mon, .hold, .boot, .mem, .flash, .shadows, .waiting, .timedHalves, .sess, .answer, .red, .saf, .cls, .trc, .eng, .fbk, .smp, .dcl, .chg, .act, .can, .ring, .bulkLast, .dup, .loopReq, .scrub, .legEvents], [], true⟩ g = true) : OutOnly g a (execActHome l i q s) := by
  unfold execActHome
  repeat' (first | exact ⟨_, rfl, State.Only.whole hF⟩ | split)

theorem execActLearn_only {g : Foot} {a s : State} (_ : a.Only g s) (l : Lane) (i : Fin 2) (q : Option Req)
    (hF : Foot.le ⟨[.hv, .lv, .sns, .aon, .free, .ofs, .mon, .hold, .boot, .mem, .flash, .shadows, .waiting, .timedHalves, .sess, .answer, .red, .saf, .cls, .trc, .eng, .fbk, .smp, .dcl, .chg, .act, .can, .ring, .bulkLast, .dup, .loopReq, .scrub, .legEvents], [], true⟩ g = true) : OutOnly g a (execActLearn l i q s) := by
  unfold execActLearn
  repeat' (first | exact ⟨_, rfl, State.Only.whole hF⟩ | split)

theorem execActStop_only {g : Foot} {a s : State} (_ : a.Only g s) (l : Lane) (i : Fin 2) (q : Option Req)
    (hF : Foot.le ⟨[.hv, .lv, .sns, .aon, .free, .ofs, .mon, .hold, .boot, .mem, .flash, .shadows, .waiting, .timedHalves, .sess, .answer, .red, .saf, .cls, .trc, .eng, .fbk, .smp, .dcl, .chg, .act, .can, .ring, .bulkLast, .dup, .loopReq, .scrub, .legEvents], [], true⟩ g = true) : OutOnly g a (execActStop l i q s) := by
  unfold execActStop
  repeat' (first | exact ⟨_, rfl, State.Only.whole hF⟩ | split)

theorem execActCoast_only {g : Foot} {a s : State} (_ : a.Only g s) (l : Lane) (i : Fin 2) (q : Option Req)
    (hF : Foot.le ⟨[.hv, .lv, .sns, .aon, .free, .ofs, .mon, .hold, .boot, .mem, .flash, .shadows, .waiting, .timedHalves, .sess, .answer, .red, .saf, .cls, .trc, .eng, .fbk, .smp, .dcl, .chg, .act, .can, .ring, .bulkLast, .dup, .loopReq, .scrub, .legEvents], [], true⟩ g = true) : OutOnly g a (execActCoast l i q s) := by
  unfold execActCoast
  repeat' (first | exact ⟨_, rfl, State.Only.whole hF⟩ | split)

theorem execActClear_only {g : Foot} {a s : State} (_ : a.Only g s) (l : Lane) (i : Fin 2) (q : Option Req)
    (hF : Foot.le ⟨[.hv, .lv, .sns, .aon, .free, .ofs, .mon, .hold, .boot, .mem, .flash, .shadows, .waiting, .timedHalves, .sess, .answer, .red, .saf, .cls, .trc, .eng, .fbk, .smp, .dcl, .chg, .act, .can, .ring, .bulkLast, .dup, .loopReq, .scrub, .legEvents], [], true⟩ g = true) : OutOnly g a (execActClear l i q s) := by
  unfold execActClear
  repeat' (first | exact ⟨_, rfl, State.Only.whole hF⟩ | split)

theorem execActClrCnt_only {g : Foot} {a s : State} (_ : a.Only g s) (l : Lane) (i : Fin 2) (q : Option Req)
    (hF : Foot.le ⟨[.hv, .lv, .sns, .aon, .free, .ofs, .mon, .hold, .boot, .mem, .flash, .shadows, .waiting, .timedHalves, .sess, .answer, .red, .saf, .cls, .trc, .eng, .fbk, .smp, .dcl, .chg, .act, .can, .ring, .bulkLast, .dup, .loopReq, .scrub, .legEvents], [], true⟩ g = true) : OutOnly g a (execActClrCnt l i q s) := by
  unfold execActClrCnt
  repeat' (first | exact ⟨_, rfl, State.Only.whole hF⟩ | split)

theorem execRedWrite_only {g : Foot} {a s : State} (_ : a.Only g s) (l : Lane) (off : BitVec 12) (data : Word) (be : BitVec 4) (q : Option Req)
    (hF : Foot.le ⟨[.hv, .lv, .sns, .aon, .free, .ofs, .mon, .hold, .boot, .mem, .flash, .shadows, .waiting, .timedHalves, .sess, .answer, .red, .saf, .cls, .trc, .eng, .fbk, .smp, .dcl, .chg, .act, .can, .ring, .bulkLast, .dup, .loopReq, .scrub, .legEvents], [], true⟩ g = true) : OutOnly g a (execRedWrite l off data be q s) := by
  unfold execRedWrite
  repeat' (first | exact ⟨_, rfl, State.Only.whole hF⟩ | split)

theorem execSafAck_only {g : Foot} {a s : State} (_ : a.Only g s) (l : Lane) (q : Option Req)
    (hF : Foot.le ⟨[.hv, .lv, .sns, .aon, .free, .ofs, .mon, .hold, .boot, .mem, .flash, .shadows, .waiting, .timedHalves, .sess, .answer, .red, .saf, .cls, .trc, .eng, .fbk, .smp, .dcl, .chg, .act, .can, .ring, .bulkLast, .dup, .loopReq, .scrub, .legEvents], [], true⟩ g = true) : OutOnly g a (execSafAck l q s) := by
  unfold execSafAck
  repeat' (first | exact ⟨_, rfl, State.Only.whole hF⟩ | split)

theorem execMonLogClrCnt_only {g : Foot} {a s : State} (_ : a.Only g s) (l : Lane) (q : Option Req)
    (hF : Foot.le ⟨[.hv, .lv, .sns, .aon, .free, .ofs, .mon, .hold, .boot, .mem, .flash, .shadows, .waiting, .timedHalves, .sess, .answer, .red, .saf, .cls, .trc, .eng, .fbk, .smp, .dcl, .chg, .act, .can, .ring, .bulkLast, .dup, .loopReq, .scrub, .legEvents], [], true⟩ g = true) : OutOnly g a (execMonLogClrCnt l q s) := by
  unfold execMonLogClrCnt
  repeat' (first | exact ⟨_, rfl, State.Only.whole hF⟩ | split)

theorem execMonLogClear_only {g : Foot} {a s : State} (_ : a.Only g s) (l : Lane) (q : Option Req)
    (hF : Foot.le ⟨[.hv, .lv, .sns, .aon, .free, .ofs, .mon, .hold, .boot, .mem, .flash, .shadows, .waiting, .timedHalves, .sess, .answer, .red, .saf, .cls, .trc, .eng, .fbk, .smp, .dcl, .chg, .act, .can, .ring, .bulkLast, .dup, .loopReq, .scrub, .legEvents], [], true⟩ g = true) : OutOnly g a (execMonLogClear l q s) := by
  unfold execMonLogClear
  repeat' (first | exact ⟨_, rfl, State.Only.whole hF⟩ | split)

end Sys2Proof.Machine
end

