-- ==== Sys2Proof/Laws/Only/Ring.lean ====
section
/-! SUPPORT. What the operations of Ring may change. -/
namespace Sys2Proof.Machine
set_option linter.all false
set_option Elab.async false

theorem State.crcSeen_only {g : Foot} {a s : State} (h : a.Only g s) (l : Lane) (crcOk : Bool)
    (hF : Foot.le ⟨[], [], false⟩ g = true) :
    a.Only g (State.crcSeen s l crcOk) := by
  unfold State.crcSeen
  repeat' (first | with_reducible assumption | ((with_reducible refine Foot.le_trans ?_ hF); decide) | ((with_reducible refine Foot.has_of_le hF ?_); (first | decide | (dsimp only; decide))) | ((with_reducible refine Foot.parts_of_le hF ?_); decide) | (exact ⟨by decide, by decide⟩) | (with_reducible first | apply State.Only.ite | apply State.Only.bump | apply State.Only.pulseEv) | (intro _))

theorem State.lenDrop_only {g : Foot} {a s : State} (h : a.Only g s) (l : Lane)
    (hF : Foot.le ⟨[], [], false⟩ g = true) :
    a.Only g (State.lenDrop s l) := by
  unfold State.lenDrop
  repeat' (first | with_reducible assumption | ((with_reducible refine Foot.le_trans ?_ hF); decide) | ((with_reducible refine Foot.has_of_le hF ?_); (first | decide | (dsimp only; decide))) | ((with_reducible refine Foot.parts_of_le hF ?_); decide) | (exact ⟨by decide, by decide⟩) | (with_reducible first | apply State.Only.bump | apply State.Only.pulseEv) | (intro _))

theorem State.tooLong_only {g : Foot} {a s : State} (h : a.Only g s) (l : Lane)
    (hF : Foot.le ⟨[], [], false⟩ g = true) :
    a.Only g (State.tooLong s l) := by
  unfold State.tooLong
  repeat' (first | with_reducible assumption | ((with_reducible refine Foot.le_trans ?_ hF); decide) | ((with_reducible refine Foot.has_of_le hF ?_); (first | decide | (dsimp only; decide))) | ((with_reducible refine Foot.parts_of_le hF ?_); decide) | (with_reducible first | apply State.Only.bump) | (intro _))

theorem State.frame_only {g : Foot} {a s : State} (h : a.Only g s) (l : Lane) (from_ : Bool) (type : Byte) (crcOk : Bool) (len : Nat) (n : Nat) (act : State → State) (hact : ∀ s, a.Only g s → a.Only g (act s))
    (hF : Foot.le ⟨[], [], false⟩ g = true) :
    a.Only g (State.frame s l from_ type crcOk len n act) := by
  unfold State.frame
  repeat' (first | with_reducible assumption | ((with_reducible refine Foot.le_trans ?_ hF); decide) | ((with_reducible refine Foot.has_of_le hF ?_); (first | decide | (dsimp only; decide))) | ((with_reducible refine Foot.parts_of_le hF ?_); decide) | lift_lets -underBinder | (intro x; have hx : a.Only g x := (by repeat' (first | with_reducible assumption | ((with_reducible refine Foot.le_trans ?_ hF); decide) | ((with_reducible refine Foot.has_of_le hF ?_); (first | decide | (dsimp only; decide))) | ((with_reducible refine Foot.parts_of_le hF ?_); decide) | lift_lets -underBinder | (with_reducible first | apply State.Only.ite | apply State.Only.send | apply State.crcSeen_only | apply State.lenDrop_only | apply State.tooLong_only | apply hact) | (intro _))); clear_value x) | (intro x; clear_value x) | (with_reducible first | apply State.Only.ite | apply State.Only.send | apply State.crcSeen_only | apply State.lenDrop_only | apply State.tooLong_only | apply hact) | (intro _))

theorem State.freshWords_only {g : Foot} {a : State} (n : Nat) {s : State} (h : a.Only g s) (hF : Foot.le ⟨[.free], [], false⟩ g = true) :
    a.Only g (s.freshWords n).2 := by
  induction n generalizing s with
  | zero => exact h
  | succ n ih => exact ih (State.Only.fresh h (Foot.parts_of_le hF (by decide)))

theorem State.latchIn_only {g : Foot} {a s : State} (h : a.Only g s) (l : Lane) (outOk : Bool)
    (hF : Foot.le ⟨[.free, .ring], [0x60], false⟩ g = true) :
    a.Only g (State.latchIn s l outOk) := by
  unfold State.latchIn
  repeat' (first | with_reducible assumption | ((with_reducible refine Foot.le_trans ?_ hF); decide) | ((with_reducible refine Foot.has_of_le hF ?_); (first | (simp (disch := first | omega | decide) only [F.CLS_CFG_LANE_has, F.CLS_CFG_EN_has, F.CLS_CFG_DIR_has, F.CLS_CFG_CAR_has, F.CLS_LOC_LOC_has]; done) | decide | (dsimp only; decide))) | ((with_reducible refine Foot.parts_of_le hF ?_); decide) | lift_lets -underBinder | (intro x; have hx : a.Only g x := (by repeat' (first | with_reducible assumption | ((with_reducible refine Foot.le_trans ?_ hF); decide) | ((with_reducible refine Foot.has_of_le hF ?_); (first | (simp (disch := first | omega | decide) only [F.CLS_CFG_LANE_has, F.CLS_CFG_EN_has, F.CLS_CFG_DIR_has, F.CLS_CFG_CAR_has, F.CLS_LOC_LOC_has]; done) | decide | (dsimp only; decide))) | ((with_reducible refine Foot.parts_of_le hF ?_); decide) | lift_lets -underBinder | (with_reducible first | apply State.Only.ite | apply State.Only.fold | apply State.Only.putFlag | apply State.Only.ring | apply State.freshWords_only) | (first | split | (dsimp only [x]; split)) | (intro _))); clear_value x) | (intro x; clear_value x) | (with_reducible first | apply State.Only.ite | apply State.Only.fold | apply State.Only.putFlag | apply State.Only.ring | apply State.freshWords_only) | split | (intro _))

theorem State.sendIn_only {g : Foot} {a s : State} (h : a.Only g s) (l : Lane) (e : Bool)
    (hF : Foot.le ⟨[.ring], [], false⟩ g = true) :
    a.Only g (State.sendIn s l e) := by
  unfold State.sendIn
  repeat' (first | with_reducible assumption | ((with_reducible refine Foot.le_trans ?_ hF); decide) | ((with_reducible refine Foot.has_of_le hF ?_); (first | decide | (dsimp only; decide))) | ((with_reducible refine Foot.parts_of_le hF ?_); decide) | lift_lets -underBinder | (intro x; have hx : a.Only g x := (by repeat' (first | with_reducible assumption | ((with_reducible refine Foot.le_trans ?_ hF); decide) | ((with_reducible refine Foot.has_of_le hF ?_); (first | decide | (dsimp only; decide))) | ((with_reducible refine Foot.parts_of_le hF ?_); decide) | lift_lets -underBinder | (with_reducible first | apply State.Only.ite | apply State.Only.ring | apply State.Only.send) | (first | split | (dsimp only [x]; split)) | (intro _))); clear_value x) | (intro x; clear_value x) | (with_reducible first | apply State.Only.ite | apply State.Only.ring | apply State.Only.send) | split | (intro _))

theorem State.loopDev_only {g : Foot} {a s : State} (h : a.Only g s) (hm : .free ∈ g.parts) : a.Only g s.loopDev.2 := by
  unfold State.loopDev
  split
  · exact h
  · exact State.Only.fresh h hm

theorem State.passCyc_only {g : Foot} {a s : State} (h : a.Only g s) (l : Lane) (from_ : Bool) (loop : Bool) (lpt : BitVec 16) (corr : Word)
    (host : BitVec 64) (period : BitVec 16) (num : Word) (crcOk : Bool) (hF : Foot.le ⟨[.free], [], false⟩ g = true) :
    a.Only g (State.passCyc s l from_ loop lpt corr host period num crcOk) := by
  unfold State.passCyc
  dsimp only
  split
  · exact State.Only.send (State.loopDev_only h (Foot.parts_of_le hF (by decide))) _ _ _
  · exact State.Only.send h _ _ _

theorem State.takeCyc_only {g : Foot} {a s : State} (h : a.Only g s) (l : Lane) (from_ : Bool) (period : BitVec 16) (num : Word)
    (hF : Foot.le ⟨[.free, .shadows, .waiting, .sess, .answer, .ring], [0x40, 0x60], false⟩ g = true) :
    a.Only g (State.takeCyc s l from_ period num) := by
  unfold State.takeCyc
  repeat' (first | with_reducible assumption | ((with_reducible refine Foot.le_trans ?_ hF); decide) | ((with_reducible refine Foot.has_of_le hF ?_); (first | decide | (dsimp only; decide))) | ((with_reducible refine Foot.parts_of_le hF ?_); decide) | (exact ⟨by decide, by decide⟩) | lift_lets -underBinder | (intro x; have hx : a.Only g x := (by repeat' (first | with_reducible assumption | ((with_reducible refine Foot.le_trans ?_ hF); decide) | ((with_reducible refine Foot.has_of_le hF ?_); (first | decide | (dsimp only; decide))) | ((with_reducible refine Foot.parts_of_le hF ?_); decide) | (exact ⟨by decide, by decide⟩) | lift_lets -underBinder | (with_reducible first | apply State.Only.ite | apply State.Only.levelEv | apply State.Only.put | apply State.Only.putFlag | apply State.Only.putWord | apply State.Only.ring | apply State.latchIn_only | apply State.period_only | apply State.sendIn_only) | (first | split | (dsimp only [x]; split)) | (intro _))); clear_value x) | (intro x; clear_value x) | (with_reducible first | apply State.Only.ite | apply State.Only.levelEv | apply State.Only.put | apply State.Only.putFlag | apply State.Only.putWord | apply State.Only.ring | apply State.latchIn_only | apply State.period_only | apply State.sendIn_only) | split | (intro _))

theorem execCyc_only {g : Foot} {a s : State} (h : a.Only g s) (l : Lane) (from_ : Bool) (loop : Bool) (crcOk : Bool) (lenOk : Bool) (host : BitVec 64) (corr : Word) (period : BitVec 16) (lpt : BitVec 16) (num : Word) (residence : Word)
    (hF : Foot.le ⟨[.free, .shadows, .waiting, .sess, .answer, .ring], [0x40, 0x60], false⟩ g = true) :
    OutOnly g a (execCyc l from_ loop crcOk lenOk host corr period lpt num residence s) := by
  unfold execCyc
  repeat' (first | with_reducible assumption | ((with_reducible refine Foot.le_trans ?_ hF); decide) | ((with_reducible refine Foot.has_of_le hF ?_); (first | decide | (dsimp only; decide))) | ((with_reducible refine Foot.parts_of_le hF ?_); decide) | lift_lets -underBinder | (intro x; have hx : a.Only g x := (by repeat' (first | with_reducible assumption | ((with_reducible refine Foot.le_trans ?_ hF); decide) | ((with_reducible refine Foot.has_of_le hF ?_); (first | decide | (dsimp only; decide))) | ((with_reducible refine Foot.parts_of_le hF ?_); decide) | lift_lets -underBinder | (with_reducible first | apply State.Only.ite | apply State.Only.done | apply State.crcSeen_only | apply State.lenDrop_only | apply State.passCyc_only | apply State.period_only | apply State.takeCyc_only) | (first | split | (dsimp only [x]; split)) | (intro _))); clear_value x) | (intro x; clear_value x) | (with_reducible first | apply State.Only.ite | apply State.Only.done | apply State.crcSeen_only | apply State.lenDrop_only | apply State.passCyc_only | apply State.period_only | apply State.takeCyc_only) | split | (intro _))

theorem State.servo_only {g : Foot} {a s : State} (h : a.Only g s) (l : Lane) (err : Int)
    (hF : Foot.le ⟨[.ofs, .ring], [0x60], false⟩ g = true) :
    a.Only g (State.servo s l err) := by
  unfold State.servo
  repeat' (first | with_reducible assumption | ((with_reducible refine Foot.le_trans ?_ hF); decide) | ((with_reducible refine Foot.has_of_le hF ?_); (first | decide | (dsimp only; decide))) | ((with_reducible refine Foot.parts_of_le hF ?_); decide) | (exact ⟨by decide, by decide⟩) | lift_lets -underBinder | (intro x; have hx : a.Only g x := (by repeat' (first | with_reducible assumption | ((with_reducible refine Foot.le_trans ?_ hF); decide) | ((with_reducible refine Foot.has_of_le hF ?_); (first | decide | (dsimp only; decide))) | ((with_reducible refine Foot.parts_of_le hF ?_); decide) | (exact ⟨by decide, by decide⟩) | lift_lets -underBinder | (with_reducible first | apply State.Only.ite | apply State.Only.fold | apply State.Only.ofs | apply State.Only.pulseEv | apply State.Only.putFlag | apply State.Only.ring) | (first | split | (dsimp only [x]; split)) | (intro _))); clear_value x) | (intro x; clear_value x) | (with_reducible first | apply State.Only.ite | apply State.Only.fold | apply State.Only.ofs | apply State.Only.pulseEv | apply State.Only.putFlag | apply State.Only.ring) | split | (intro _))

theorem execCycleStart_only {g : Foot} {a s : State} (h : a.Only g s) (l : Lane) (err : Option Int)
    (hF : Foot.le ⟨[.free, .ofs, .ring], [0x60], false⟩ g = true) :
    OutOnly g a (execCycleStart l err s) := by
  unfold execCycleStart
  repeat' (first | with_reducible assumption | ((with_reducible refine Foot.le_trans ?_ hF); decide) | ((with_reducible refine Foot.has_of_le hF ?_); (first | (simp (disch := first | omega | decide) only [F.RING_OUTMAP_EN0_has, F.RING_INMAP_EN_has]; done) | decide | (dsimp only; decide))) | ((with_reducible refine Foot.parts_of_le hF ?_); decide) | lift_lets -underBinder | (intro x; have hx : a.Only g x := (by repeat' (first | with_reducible assumption | ((with_reducible refine Foot.le_trans ?_ hF); decide) | ((with_reducible refine Foot.has_of_le hF ?_); (first | (simp (disch := first | omega | decide) only [F.RING_OUTMAP_EN0_has, F.RING_INMAP_EN_has]; done) | decide | (dsimp only; decide))) | ((with_reducible refine Foot.parts_of_le hF ?_); decide) | lift_lets -underBinder | (with_reducible first | apply State.Only.ite | apply State.Only.done | apply State.Only.drainEvents | apply State.Only.putFlag | apply State.Only.putWord | apply State.Only.ring | apply State.latchIn_only | apply State.servo_only) | (first | split | (dsimp only [x]; split)) | (intro _))); clear_value x) | (intro x; clear_value x) | (with_reducible first | apply State.Only.ite | apply State.Only.done | apply State.Only.drainEvents | apply State.Only.putFlag | apply State.Only.putWord | apply State.Only.ring | apply State.latchIn_only | apply State.servo_only) | split | (intro _))

theorem State.takeOut_only {g : Foot} {a s : State} (h : a.Only g s) (l : Lane) (data : List Byte)
    (hF : Foot.le ⟨[.cls, .ring], [], false⟩ g = true) :
    a.Only g (State.takeOut s l data) := by
  unfold State.takeOut
  repeat' (first | with_reducible assumption | ((with_reducible refine Foot.le_trans ?_ hF); decide) | ((with_reducible refine Foot.has_of_le hF ?_); (first | (simp (disch := first | omega | decide) only [F.CLS_CFG_EN_has, F.CLS_CFG_DIR_has, F.CLS_CFG_CAR_has, F.CLS_LOC_LOC_has]; done) | decide | (dsimp only; decide))) | ((with_reducible refine Foot.parts_of_le hF ?_); decide) | lift_lets -underBinder | (intro x; have hx : a.Only g x := (by repeat' (first | with_reducible assumption | ((with_reducible refine Foot.le_trans ?_ hF); decide) | ((with_reducible refine Foot.has_of_le hF ?_); (first | (simp (disch := first | omega | decide) only [F.CLS_CFG_EN_has, F.CLS_CFG_DIR_has, F.CLS_CFG_CAR_has, F.CLS_LOC_LOC_has]; done) | decide | (dsimp only; decide))) | ((with_reducible refine Foot.parts_of_le hF ?_); decide) | lift_lets -underBinder | (with_reducible first | apply State.Only.ite | apply State.Only.fold | apply State.Only.ring | apply State.modCls_only) | (intro _))); clear_value x) | (intro x; clear_value x) | (with_reducible first | apply State.Only.ite | apply State.Only.fold | apply State.Only.ring | apply State.modCls_only) | (intro _))

theorem execRingOut_only {g : Foot} {a s : State} (h : a.Only g s) (l : Lane) (from_ : Bool) (crcOk : Bool) (dev : BitVec 6) (seq : BitVec 16) (len : BitVec 16) (data : List Byte)
    (hF : Foot.le ⟨[.cls, .ring], [], false⟩ g = true) :
    OutOnly g a (execRingOut l from_ crcOk dev seq len data s) := by
  unfold execRingOut
  repeat' (first | with_reducible assumption | ((with_reducible refine Foot.le_trans ?_ hF); decide) | ((with_reducible refine Foot.has_of_le hF ?_); (first | decide | (dsimp only; decide))) | ((with_reducible refine Foot.parts_of_le hF ?_); decide) | lift_lets -underBinder | (intro x; have hx : a.Only g x := (by repeat' (first | with_reducible assumption | ((with_reducible refine Foot.le_trans ?_ hF); decide) | ((with_reducible refine Foot.has_of_le hF ?_); (first | decide | (dsimp only; decide))) | ((with_reducible refine Foot.parts_of_le hF ?_); decide) | lift_lets -underBinder | (with_reducible first | apply State.Only.ite | apply State.Only.done | apply State.frame_only | apply State.takeOut_only) | (first | split | (dsimp only [x]; split)) | (intro _))); clear_value x) | (intro x; clear_value x) | (with_reducible first | apply State.Only.ite | apply State.Only.done | apply State.frame_only | apply State.takeOut_only) | split | (intro _))

theorem execRingIn_only {g : Foot} {a s : State} (h : a.Only g s) (l : Lane) (from_ : Bool) (crcOk : Bool) (dev : BitVec 6) (lane : Lane) (len : BitVec 16) (n : BitVec 16)
    (hF : Foot.le ⟨[.dup], [0x60], false⟩ g = true) :
    OutOnly g a (execRingIn l from_ crcOk dev lane len n s) := by
  unfold execRingIn
  repeat' (first | with_reducible assumption | ((with_reducible refine Foot.le_trans ?_ hF); decide) | ((with_reducible refine Foot.has_of_le hF ?_); (first | decide | (dsimp only; decide))) | ((with_reducible refine Foot.parts_of_le hF ?_); decide) | (exact ⟨by decide, by decide⟩) | (intro x p hp; cases p <;> first | rfl | trivial | exact absurd (Foot.parts_of_le hF (by decide)) hp) | (exact Or.inr (fun _ => rfl)) | (with_reducible first | apply State.Only.ite | apply State.Only.done | apply State.Only.lane | apply State.Only.levelEv | apply State.Only.putFlag | apply State.frame_only) | split | (intro _))

theorem execEventFrameReceived_only {g : Foot} {a s : State} (h : a.Only g s) (l : Lane) (from_ : Bool) (crcOk : Bool) (len : BitVec 16) (n : BitVec 16)
    (hF : Foot.le ⟨[], [], false⟩ g = true) :
    OutOnly g a (execEventFrameReceived l from_ crcOk len n s) := by
  unfold execEventFrameReceived
  repeat' (first | (exact fun _ h => h) | (with_reducible assumption) | (show a.Only g _; with_reducible assumption) | (exact (by assumption : a.Only g _)) | with_reducible assumption | ((with_reducible refine Foot.le_trans ?_ hF); decide) | ((with_reducible refine Foot.has_of_le hF ?_); (first | decide | (dsimp only; decide))) | ((with_reducible refine Foot.parts_of_le hF ?_); decide) | (with_reducible first | apply State.Only.done | apply State.frame_only) | (intro _))

theorem execUnknownFrame_only {g : Foot} {a s : State} (h : a.Only g s) (l : Lane) (from_ : Bool) (crcOk : Bool) (type : Byte) (len : BitVec 16) (n : BitVec 16)
    (hF : Foot.le ⟨[], [], false⟩ g = true) :
    OutOnly g a (execUnknownFrame l from_ crcOk type len n s) := by
  unfold execUnknownFrame
  repeat' (first | with_reducible assumption | ((with_reducible refine Foot.le_trans ?_ hF); decide) | ((with_reducible refine Foot.has_of_le hF ?_); (first | decide | (dsimp only; decide))) | ((with_reducible refine Foot.parts_of_le hF ?_); decide) | lift_lets -underBinder | (intro x; have hx : a.Only g x := (by repeat' (first | with_reducible assumption | ((with_reducible refine Foot.le_trans ?_ hF); decide) | ((with_reducible refine Foot.has_of_le hF ?_); (first | decide | (dsimp only; decide))) | ((with_reducible refine Foot.parts_of_le hF ?_); decide) | lift_lets -underBinder | (with_reducible first | apply State.Only.ite | apply State.Only.bump | apply State.Only.done | apply State.frame_only) | (first | split | (dsimp only [x]; split)) | (intro _))); clear_value x) | (intro x; clear_value x) | (with_reducible first | apply State.Only.ite | apply State.Only.bump | apply State.Only.done | apply State.frame_only) | split | (intro _))

theorem execLinkDelayRequest_only {g : Foot} {a s : State} (h : a.Only g s) (l : Lane) (reply : Option (Word × Word))
    (hF : Foot.le ⟨[.answer, .ring], [0x60], false⟩ g = true) :
    OutOnly g a (execLinkDelayRequest l reply s) := by
  unfold execLinkDelayRequest
  repeat' (first | with_reducible assumption | ((with_reducible refine Foot.le_trans ?_ hF); decide) | ((with_reducible refine Foot.has_of_le hF ?_); (first | decide | (dsimp only; decide))) | ((with_reducible refine Foot.parts_of_le hF ?_); decide) | lift_lets -underBinder | (intro x; have hx : a.Only g x := (by repeat' (first | with_reducible assumption | ((with_reducible refine Foot.le_trans ?_ hF); decide) | ((with_reducible refine Foot.has_of_le hF ?_); (first | decide | (dsimp only; decide))) | ((with_reducible refine Foot.parts_of_le hF ?_); decide) | lift_lets -underBinder | (with_reducible first | apply State.Only.ite | apply State.Only.done | apply State.Only.put | apply State.Only.ring | apply State.reply_only) | (first | split | (dsimp only [x]; split)) | (intro _))); clear_value x) | (intro x; clear_value x) | (with_reducible first | apply State.Only.ite | apply State.Only.done | apply State.Only.put | apply State.Only.ring | apply State.reply_only) | split | (intro _))

theorem execLinkDelayReply_only {g : Foot} {a s : State} (h : a.Only g s) (l : Lane) (turnaround : Word)
    (hF : Foot.le ⟨[.ring], [], false⟩ g = true) :
    OutOnly g a (execLinkDelayReply l turnaround s) := by
  unfold execLinkDelayReply
  repeat' (first | with_reducible assumption | ((with_reducible refine Foot.le_trans ?_ hF); decide) | ((with_reducible refine Foot.has_of_le hF ?_); (first | decide | (dsimp only; decide))) | ((with_reducible refine Foot.parts_of_le hF ?_); decide) | (with_reducible first | apply State.Only.ite | apply State.Only.done | apply State.Only.ring) | split | (intro _))

theorem execCut_only {g : Foot} {a s : State} (h : a.Only g s) (l : Lane)
    (hF : Foot.le ⟨[], [0x60], false⟩ g = true) :
    OutOnly g a (execCut l s) := by
  unfold execCut
  repeat' (first | with_reducible assumption | ((with_reducible refine Foot.le_trans ?_ hF); decide) | ((with_reducible refine Foot.has_of_le hF ?_); (first | decide | (dsimp only; decide))) | ((with_reducible refine Foot.parts_of_le hF ?_); decide) | (exact ⟨by decide, by decide⟩) | (with_reducible first | apply State.Only.ite | apply State.Only.bump | apply State.Only.done | apply State.Only.levelEv | apply State.Only.putFlag) | split | (intro _))

theorem execHeal_only {g : Foot} {a s : State} (h : a.Only g s) (l : Lane)
    (hF : Foot.le ⟨[], [0x60], false⟩ g = true) :
    OutOnly g a (execHeal l s) := by
  unfold execHeal
  repeat' (first | with_reducible assumption | ((with_reducible refine Foot.le_trans ?_ hF); decide) | ((with_reducible refine Foot.has_of_le hF ?_); (first | decide | (dsimp only; decide))) | ((with_reducible refine Foot.parts_of_le hF ?_); decide) | (exact ⟨by decide, by decide⟩) | (with_reducible first | apply State.Only.ite | apply State.Only.done | apply State.Only.levelEv | apply State.Only.pulseEv | apply State.Only.putFlag) | split | (intro _))

theorem execOrphan_only {g : Foot} {a s : State} (h : a.Only g s) (l : Lane)
    (hF : Foot.le ⟨[.ring], [0x60], false⟩ g = true) :
    OutOnly g a (execOrphan l s) := by
  unfold execOrphan
  repeat' (first | with_reducible assumption | ((with_reducible refine Foot.le_trans ?_ hF); decide) | ((with_reducible refine Foot.has_of_le hF ?_); (first | decide | (dsimp only; decide))) | ((with_reducible refine Foot.parts_of_le hF ?_); decide) | (exact ⟨by decide, by decide⟩) | lift_lets -underBinder | (intro x; have hx : a.Only g x := (by repeat' (first | with_reducible assumption | ((with_reducible refine Foot.le_trans ?_ hF); decide) | ((with_reducible refine Foot.has_of_le hF ?_); (first | decide | (dsimp only; decide))) | ((with_reducible refine Foot.parts_of_le hF ?_); decide) | (exact ⟨by decide, by decide⟩) | lift_lets -underBinder | (with_reducible first | apply State.Only.ite | apply State.Only.done | apply State.Only.levelEv | apply State.Only.putFlag | apply State.Only.ring) | (first | split | (dsimp only [x]; split)) | (intro _))); clear_value x) | (intro x; clear_value x) | (with_reducible first | apply State.Only.ite | apply State.Only.done | apply State.Only.levelEv | apply State.Only.putFlag | apply State.Only.ring) | split | (intro _))

theorem State.request_only {g : Foot} {a s : State} (h : a.Only g s) (l : Lane) (from_ : Bool) (type : Byte) (crcOk : Bool) (dev : BitVec 6) (lane : Lane) (len : Nat) (n : Nat) (k : State → State) (hk : ∀ s, a.Only g s → a.Only g (k s))
    (hF : Foot.le ⟨[], [], false⟩ g = true) :
    a.Only g (State.request s l from_ type crcOk dev lane len n k) := by
  unfold State.request
  repeat' (first | with_reducible assumption | ((with_reducible refine Foot.le_trans ?_ hF); decide) | ((with_reducible refine Foot.has_of_le hF ?_); (first | decide | (dsimp only; decide))) | ((with_reducible refine Foot.parts_of_le hF ?_); decide) | (with_reducible first | apply State.Only.ite | apply State.frame_only | apply hk) | (intro _))

theorem State.eccRead_only {g : Foot} {a s : State} (h : a.Only g s) (l : Lane) (x : Access) (b : Nat) (word : Nat)
    (hF : Foot.le ⟨[.boot, .answer, .red], [0x04, 0x40], false⟩ g = true) :
    a.Only g (State.eccRead s l x b word) := by
  unfold State.eccRead
  repeat' (first | with_reducible assumption | ((with_reducible refine Foot.le_trans ?_ hF); decide) | ((with_reducible refine Foot.has_of_le hF ?_); (first | decide | (dsimp only; decide))) | ((with_reducible refine Foot.parts_of_le hF ?_); decide) | (with_reducible first | apply State.eccError_only | apply State.reply_only | apply State.respond_only) | (intro _))

theorem execRd_only {g : Foot} {a s : State} (_ : a.Only g s) (l : Lane) (from_ : Bool) (crcOk : Bool) (dev : BitVec 6) (lane : Lane) (q : Req) (addr : BitVec 24) (count : BitVec 16) (ecc : Option (BitVec 6 × Bool))
    (hF : Foot.le ⟨[.hv, .lv, .sns, .aon, .free, .ofs, .mon, .hold, .boot, .mem, .flash, .shadows, .waiting, .timedHalves, .sess, .answer, .red, .saf, .cls, .trc, .eng, .fbk, .smp, .dcl, .chg, .act, .can, .ring, .bulkLast, .dup, .loopReq, .scrub, .legEvents], [], true⟩ g = true) : OutOnly g a (execRd l from_ crcOk dev lane q addr count ecc s) := by
  unfold execRd
  repeat' (first | exact ⟨_, rfl, State.Only.whole hF⟩ | split)

theorem execWr_only {g : Foot} {a s : State} (_ : a.Only g s) (l : Lane) (from_ : Bool) (crcOk : Bool) (dev : BitVec 6) (lane : Lane) (q : Req) (addr : BitVec 24) (be : BitVec 4) (len : BitVec 16) (data : List Byte) (ph : BusPhase)
    (hF : Foot.le ⟨[.hv, .lv, .sns, .aon, .free, .ofs, .mon, .hold, .boot, .mem, .flash, .shadows, .waiting, .timedHalves, .sess, .answer, .red, .saf, .cls, .trc, .eng, .fbk, .smp, .dcl, .chg, .act, .can, .ring, .bulkLast, .dup, .loopReq, .scrub, .legEvents], [], true⟩ g = true) : OutOnly g a (execWr l from_ crcOk dev lane q addr be len data ph s) := by
  unfold execWr
  repeat' (first | exact ⟨_, rfl, State.Only.whole hF⟩ | split)

theorem execRmw_only {g : Foot} {a s : State} (_ : a.Only g s) (l : Lane) (from_ : Bool) (crcOk : Bool) (dev : BitVec 6) (lane : Lane) (q : Req) (addr : BitVec 24) (mask : Word) (value : Word) (ph : BusPhase)
    (hF : Foot.le ⟨[.hv, .lv, .sns, .aon, .free, .ofs, .mon, .hold, .boot, .mem, .flash, .shadows, .waiting, .timedHalves, .sess, .answer, .red, .saf, .cls, .trc, .eng, .fbk, .smp, .dcl, .chg, .act, .can, .ring, .bulkLast, .dup, .loopReq, .scrub, .legEvents], [], true⟩ g = true) : OutOnly g a (execRmw l from_ crcOk dev lane q addr mask value ph s) := by
  unfold execRmw
  repeat' (first | exact ⟨_, rfl, State.Only.whole hF⟩ | split)

theorem execPeriod_only {g : Foot} {a s : State} (h : a.Only g s) (l : Lane) (from_ : Bool) (crcOk : Bool) (dev : BitVec 6) (lane : Lane) (q : Req) (len : BitVec 16) (n : BitVec 16)
    (hF : Foot.le ⟨[.shadows, .waiting, .sess, .answer], [0x40], false⟩ g = true) :
    OutOnly g a (execPeriod l from_ crcOk dev lane q len n s) := by
  unfold execPeriod
  repeat' (first | with_reducible assumption | ((with_reducible refine Foot.le_trans ?_ hF); decide) | ((with_reducible refine Foot.has_of_le hF ?_); (first | decide | (dsimp only; decide))) | ((with_reducible refine Foot.parts_of_le hF ?_); decide) | (with_reducible first | apply State.Only.ite | apply State.Only.done | apply State.period_only | apply State.request_only) | split | (intro _))

end Sys2Proof.Machine
end

