-- ==== Sys2Proof/Laws/Only/Takeover.lean ====
section
/-! SUPPORT. What the operations of Takeover may change. -/
namespace Sys2Proof.Machine
set_option linter.all false
set_option Elab.async false

theorem State.learnAbandon_only {g : Foot} {a s : State} (h : a.Only g s) (l : Lane) (a' : Fin 2)
    (hF : Foot.le ⟨[], [0x34], false⟩ g = true) :
    a.Only g (State.learnAbandon s l a') := by
  unfold State.learnAbandon
  repeat' (first | with_reducible assumption | ((with_reducible refine Foot.le_trans ?_ hF); decide) | ((with_reducible refine Foot.has_of_le hF ?_); (first | (simp (disch := first | omega | decide) only [F.ACT_STAT_STATE_has, F.ACT_STAT_REF_has]; done) | decide | (dsimp only; decide))) | ((with_reducible refine Foot.parts_of_le hF ?_); decide) | (exact ⟨by decide, by decide⟩) | lift_lets -underBinder | (intro x; have hx : a.Only g x := (by repeat' (first | with_reducible assumption | ((with_reducible refine Foot.le_trans ?_ hF); decide) | ((with_reducible refine Foot.has_of_le hF ?_); (first | (simp (disch := first | omega | decide) only [F.ACT_STAT_STATE_has, F.ACT_STAT_REF_has]; done) | decide | (dsimp only; decide))) | ((with_reducible refine Foot.parts_of_le hF ?_); decide) | (exact ⟨by decide, by decide⟩) | lift_lets -underBinder | (with_reducible first | apply State.Only.ite | apply State.Only.pulseEv | apply State.Only.put | apply State.Only.putFlag) | (first | split | (dsimp only [x]; split)) | (intro _))); clear_value x) | (intro x; clear_value x) | (with_reducible first | apply State.Only.ite | apply State.Only.pulseEv | apply State.Only.put | apply State.Only.putFlag) | split | (intro _))

theorem State.enterPeer_only {g : Foot} {a s : State} (h : a.Only g s) (l : Lane)
    (hF : Foot.le ⟨[.hv, .trc, .loopReq], [0x10, 0x11], false⟩ g = true) :
    a.Only g (State.enterPeer s l) := by
  unfold State.enterPeer
  repeat' (first | (exact State.smCmd_only_some (by assumption) (by with_reducible assumption) (Foot.le_trans (by decide) hF)) | with_reducible assumption | ((with_reducible refine Foot.le_trans ?_ hF); decide) | ((with_reducible refine Foot.has_of_le hF ?_); (first | decide | (dsimp only; decide))) | ((with_reducible refine Foot.parts_of_le hF ?_); decide) | lift_lets -underBinder | (intro x; have hx : a.Only g x := (by repeat' (first | (exact State.smCmd_only_some (by assumption) (by with_reducible assumption) (Foot.le_trans (by decide) hF)) | with_reducible assumption | ((with_reducible refine Foot.le_trans ?_ hF); decide) | ((with_reducible refine Foot.has_of_le hF ?_); (first | decide | (dsimp only; decide))) | ((with_reducible refine Foot.parts_of_le hF ?_); decide) | lift_lets -underBinder | (with_reducible first | apply State.Only.ite | apply State.safeEntry_only | apply State.setRamp_only | apply State.smCmd_only | apply State.smEnter_only | apply State.Only.getD) | (first | split | (dsimp only [x]; split)) | (intro _))); clear_value x) | (intro x; dsimp -zeta only [x]; clear x) | (intro x; clear_value x) | (with_reducible first | apply State.Only.ite | apply State.safeEntry_only | apply State.setRamp_only | apply State.smCmd_only | apply State.smEnter_only | apply State.Only.getD) | split | (intro _))

theorem State.rejoinFast_only {g : Foot} {a s : State} (h : a.Only g s) (l : Lane)
    (hF : Foot.le ⟨[.hv, .mon, .red, .trc, .dcl, .loopReq], [0x10, 0x11, 0x30, 0x50], false⟩ g = true) :
    a.Only g (State.rejoinFast s l) := by
  unfold State.rejoinFast
  repeat' (first | with_reducible assumption | ((with_reducible refine Foot.le_trans ?_ hF); decide) | ((with_reducible refine Foot.has_of_le hF ?_); (first | decide | (dsimp only; decide))) | ((with_reducible refine Foot.parts_of_le hF ?_); decide) | (exact Or.inr (fun _ => rfl)) | lift_lets -underBinder | (intro x; have hx : a.Only g x := (by repeat' (first | with_reducible assumption | ((with_reducible refine Foot.le_trans ?_ hF); decide) | ((with_reducible refine Foot.has_of_le hF ?_); (first | decide | (dsimp only; decide))) | ((with_reducible refine Foot.parts_of_le hF ?_); decide) | (exact Or.inr (fun _ => rfl)) | lift_lets -underBinder | (with_reducible first | apply State.Only.ite | apply State.Only.dcl | apply State.Only.mon | apply State.Only.red | apply State.dclStart_only | apply State.enterPeer_only | apply State.placeSet_only | apply State.publish_only) | (first | split | (dsimp only [x]; split)) | (intro _))); clear_value x) | (intro x; clear_value x) | (with_reducible first | apply State.Only.ite | apply State.Only.dcl | apply State.Only.mon | apply State.Only.red | apply State.dclStart_only | apply State.enterPeer_only | apply State.placeSet_only | apply State.publish_only) | split | (intro _))

theorem State.resyncAlone_only {g : Foot} {a s : State} (h : a.Only g s) (l : Lane)
    (hF : Foot.le ⟨[.hv, .lv, .aon, .mon, .red], [0x40, 0x50, 0x80], false⟩ g = true) :
    a.Only g (State.resyncAlone s l) := by
  unfold State.resyncAlone
  repeat' (first | with_reducible assumption | ((with_reducible refine Foot.le_trans ?_ hF); decide) | ((with_reducible refine Foot.has_of_le hF ?_); (first | decide | (dsimp only; decide))) | ((with_reducible refine Foot.parts_of_le hF ?_); decide) | lift_lets -underBinder | (intro x; have hx : a.Only g x := (by repeat' (first | with_reducible assumption | ((with_reducible refine Foot.le_trans ?_ hF); decide) | ((with_reducible refine Foot.has_of_le hF ?_); (first | decide | (dsimp only; decide))) | ((with_reducible refine Foot.parts_of_le hF ?_); decide) | lift_lets -underBinder | (with_reducible first | apply State.Only.ite | apply State.runAlone_only) | (first | split | (dsimp only [x]; split)) | (intro _))); clear_value x) | (intro x; clear_value x) | (with_reducible first | apply State.Only.ite | apply State.runAlone_only) | split | (intro _))

end Sys2Proof.Machine
end

