-- ==== Sys2Proof/Laws/Pends.lean ====
section
/-! SUPPORT. A rise sets its EVT_PEND bit, no event clears one, and a rise leaves every EVT_RAW word as it is (R88). -/
namespace Sys2Proof.Machine
set_option linter.all false
set_option Elab.async false

/-- t holds every EVT_PEND bit that a holds, and the same EVT_RAW words. -/
structure State.Pends (a t : State) : Prop where
  pend : ∀ k n b, n % 0x1000 = 0x018 → bit (a.word k n) b = true → bit (t.word k n) b = true
  raw : ∀ k n, n % 0x1000 = 0x010 → t.word k n = a.word k n

/-- An address that is neither an EVT_PEND nor an EVT_RAW word. -/
abbrev plainAddr (n : Nat) : Prop := n % 0x1000 ≠ 0x018 ∧ n % 0x1000 ≠ 0x010

namespace State.Pends
variable {a s : State}

theorem refl : a.Pends a := ⟨fun _ _ _ _ h => h, fun _ _ _ => rfl⟩

theorem modLane (h : a.Pends s) (l : Lane) (f : LaneState → LaneState) (hr : ∀ x, (f x).regs = x.regs) : a.Pends (s.modLane l f) :=
  ⟨fun k n b hn hb => by rw [State.word_modLane _ _ _ _ _ (hr _)]; exact h.pend k n b hn hb,
   fun k n hn => by rw [State.word_modLane _ _ _ _ _ (hr _)]; exact h.raw k n hn⟩

theorem modMon (h : a.Pends s) (f : MonState → MonState) (hr : ∀ x, (f x).regs = x.regs) : a.Pends (s.modMon f) :=
  ⟨fun k n b hn hb => by rw [State.word_modMon _ _ _ _ (hr _)]; exact h.pend k n b hn hb,
   fun k n hn => by rw [State.word_modMon _ _ _ _ (hr _)]; exact h.raw k n hn⟩

theorem putWord (h : a.Pends s) (l : Lane) (n : Nat) (w : Word) (hn : plainAddr n) : a.Pends (s.putWord l n w) := by
  have ne : ∀ k m, m % 0x1000 = 0x018 ∨ m % 0x1000 = 0x010 → (s.putWord l n w).word k m = s.word k m := fun k m hm => by
    rw [State.word_putWord_ne]
    intro e
    subst e
    rcases hm with e | e
    · exact hn.1 e
    · exact hn.2 e
  exact ⟨fun k m b hm hb => by rw [ne k m (Or.inl hm)]; exact h.pend k m b hm hb,
    fun k m hm => by rw [ne k m (Or.inr hm)]; exact h.raw k m hm⟩

theorem put (h : a.Pends s) (l : Lane) (f : Fld) (v : Nat) (hn : plainAddr f.addr) : a.Pends (s.put l f v) := putWord h l _ _ hn

theorem bump (h : a.Pends s) (l : Lane) (f : Fld) (n : Nat) (hn : plainAddr f.addr) : a.Pends (s.bump l f n) := put h l f _ hn

theorem ite {p : Prop} [Decidable p] {t : State} (h : a.Pends s) (k : a.Pends t) : a.Pends (if p then s else t) := by
  split
  · exact h
  · exact k

theorem fold {α : Type} (xs : List α) (f : State → α → State) (h : a.Pends s) (hf : ∀ s x, a.Pends s → a.Pends (f s x)) :
    a.Pends (xs.foldl f s) := by
  induction xs generalizing s with
  | nil => exact h
  | cons x t ih => exact ih (hf _ _ h)

theorem send (h : a.Pends s) (l : Lane) (e : Bool) (f : Sent) : a.Pends (s.send l e f) := by
  unfold State.send
  refine ite ?_ ?_
  · exact bump h l F.RING_CNT_CUT_DROP 1 (by decide)
  · unfold State.modRing
    exact modLane h l _ (by intro _; rfl)

theorem sendEvent (h : a.Pends s) (l : Lane) (e : Bool) (x : EvItem) : a.Pends (s.sendEvent l e x) := by
  unfold State.sendEvent
  refine send ?_ l e _
  unfold State.modRing
  refine modLane h l _ ?_
  exact fun _ => rfl

theorem evIn (h : a.Pends s) (l : Lane) (x : EvItem) : a.Pends (s.evIn l x) := by
  have wait : ∀ (t : State) (y : EvItem), a.Pends t → a.Pends (if (t.lane l).evq.length ≥ 32 then t
      else (t.modLane l (fun z => { z with evq := z.evq ++ [y] })).bump l F.RING_CNT2_EVT_COAL) := by
    intro t y ht
    refine ite ht (bump (modLane ht l _ ?_) l F.RING_CNT2_EVT_COAL 1 (by decide))
    exact fun _ => rfl
  have h1 : a.Pends (s.modRing l (fun r => { r with evSeq := r.evSeq + 1 })) := by
    unfold State.modRing
    refine modLane h l _ ?_
    exact fun _ => rfl
  unfold State.evIn
  dsimp only
  refine ite h1 ?_
  split
  · exact ite (sendEvent h1 ..) (wait _ _ h1)
  · exact wait _ _ h1

theorem routeRing (h : a.Pends s) (l : Lane) (src : Nat) (b : Bool) : a.Pends (s.routeRing l src b) := by
  unfold State.routeRing
  exact ite (ite h (evIn h ..)) h

theorem routeFall (h : a.Pends s) (l : Lane) (src : Nat) (b : Bool) : a.Pends (s.routeFall l src b) := by
  unfold State.routeFall
  exact ite (evIn h ..) h

theorem addLog (h : a.Pends s) (l : Lane) (o : Nat) (p : Page) (e : Ev) (src : Nat) (m f : Bool) (r : Nat) :
    a.Pends (s.addLog l o p e src m f r) := by
  unfold State.addLog
  dsimp only
  refine ite h ?_
  have k : ∀ (f : MonState → MonState) (w : Word), (∀ x, (f x).regs = x.regs) →
      a.Pends (((s.modMon f).putWord .A F.MON_LOG_NEXT_NEXT.addr w).mput F.MON_LOG_STAT_FILL
        ((s.modMon f).putWord .A F.MON_LOG_NEXT_NEXT.addr w).mon.log.length) :=
    fun f w h2 => put (putWord (modMon h f h2) .A F.MON_LOG_NEXT_NEXT.addr w (by decide)) .A F.MON_LOG_STAT_FILL _ (by decide)
  refine ite (bump (k _ _ ?_) .A F.MON_LOG_STAT_OVR 1 (by decide)) (k _ _ ?_)
  all_goals
    intro _
    rfl

theorem capTrigger (h : a.Pends s) (l : Lane) (w : Fin 8) : a.Pends (s.capTrigger l w) := by
  unfold State.capTrigger
  exact ite (modLane (put h l _ _ ((by decide : ∀ w : Fin 8, (F.MEM_CAP_STAT_STATE w.val).addr % 0x1000 ≠ 0x018 ∧
    (F.MEM_CAP_STAT_STATE w.val).addr % 0x1000 ≠ 0x010) w)) l _ (fun _ => rfl)) h

theorem countRise (h : a.Pends s) (l : Lane) (src : Nat) (hs : src < 128) : a.Pends (s.countRise l src) := by
  refine put (put (bump h l _ 1 ?_) l F.EVC_STAT_LAST_SRC src (by decide)) l F.EVC_STAT_LAST_MON 0 (by decide)
  have e : (F.EVC_CNT_CNT (src / 4) (src % 4)).addr = 0x04100 + src / 4 * 4 := rfl
  constructor
  · rw [e]; omega
  · rw [e]; omega

theorem startReact (h : a.Pends s) (l : Lane) (p r : Nat) : a.Pends (s.startReact l p r) := by
  unfold State.startReact
  have h1 : a.Pends (s.bump l F.EVC_STAT_REACT_CNT) := bump h l _ 1 (by decide)
  refine ite h (ite ?_ (ite ?_ ?_))
  · exact modLane h1 l _ (by intro _; rfl)
  · unfold State.modSaf
    exact modLane h1 l _ (by intro _; rfl)
  · unfold State.modSaf
    exact modLane h1 l _ (by intro _; rfl)

theorem capBySource (h : a.Pends s) (l : Lane) (src : Nat) : a.Pends (s.capBySource l src).1 := by
  unfold State.capBySource
  suffices ∀ (xs : List (Fin 8)) (acc : State × Bool), a.Pends acc.1 → a.Pends (xs.foldl (fun (acc : State × Bool) w =>
    if acc.1.fld l (F.MEM_CAP_STAT_STATE w.val) == 1 && acc.1.fld l (F.MEM_CAP_CFG_TMODE w.val) == 1 &&
       acc.1.fld l (F.MEM_CAP_CFG_TSRC w.val) == src then (acc.1.capTrigger l w, true) else acc) acc).1 from this _ _ h
  intro xs
  induction xs with
  | nil => intro acc hacc; exact hacc
  | cons w t ih =>
    intro acc hacc
    refine ih _ ?_
    dsimp only
    split
    · exact capTrigger hacc l w
    · exact hacc

theorem bit_or {w v : Word} {b : Nat} (h : bit w b = true) : bit (w ||| v) b = true := by
  unfold bit at *
  simp only [BitVec.getLsbD_or, h, Bool.true_or]

/-- EVT_PEND of the source that rises is set, and the rest stays. -/
theorem pendSet (h : a.Pends s) (l : Lane) (e : Ev) (he : EvOnly.Proper e) : a.Pends (s.pend l e) := by
  unfold State.pend
  refine ⟨fun k n b hn hb => ?_, fun k n hn => ?_⟩
  · rw [State.word_putWord]
    split
    · rename_i c
      obtain ⟨rfl, c⟩ := c
      refine bit_or ?_
      have := h.pend k _ b hn hb
      rcases c with rfl | c
      · exact this
      · simpa [State.word, c] using this
    · exact h.pend k n b hn hb
  · rw [State.word_putWord_ne _ _ _ _ _ _ (by have := he.1; omega)]
    exact h.raw k n hn

theorem pend_pended (s : State) (l : Lane) (e : Ev) (he : EvOnly.Proper e) : (s.pend l e).pended l e = true := by
  unfold State.pended State.pend
  rw [State.word_putWord_same]
  have := he.2
  simp [bit, this]

/-- What follows the setting of EVT_PEND in a rise. -/
theorem laneRise' (s : State) (l : Lane) (e : Ev) (f : Bool) : (s.pend l e).Pends (s.laneRise l e f) := by
  unfold State.laneRise
  dsimp only
  split
  · rename_i src p hs hp
    have h2 := countRise (refl (a := s.pend l e)) l src (by have := sourceOf_lt hs; omega)
    exact startReact (ite (addLog h2 ..) h2) ..
  · exact refl

theorem trans {b c : State} (h : a.Pends b) (k : b.Pends c) : a.Pends c :=
  ⟨fun l n x hn hx => k.pend l n x hn (h.pend l n x hn hx), fun l n hn => (k.raw l n hn).trans (h.raw l n hn)⟩

theorem laneRise (h : a.Pends s) (l : Lane) (e : Ev) (f : Bool) (he : EvOnly.Proper e) : a.Pends (s.laneRise l e f) :=
  (pendSet h l e he).trans (laneRise' s l e f)

/-- The EVENT frames of a change come after the change itself. -/
theorem routed (s : State) (l : Lane) (e : Ev) (pulse : Bool) (f : State → State) : (f s).Pends (s.routed l e pulse f) := by
  unfold State.routed
  split
  · exact refl
  · refine fold _ _ refl (fun t k ht => ?_)
    exact ite ht (ite (routeFall (routeRing ht ..) ..) (routeRing ht ..))

theorem capWake (h : a.Pends s) (l : Lane) (src : Nat) : a.Pends (s.capWake l src) := by
  unfold State.capWake
  have h2 := capBySource h l src
  refine ite h2 (capBySource (trans ?_ (routed _ l _ true _)) l 11)
  refine laneRise (modLane h2 l _ ?_) l E.MEM_CAP_TRIG false E.MEM_CAP_TRIG_proper
  exact fun _ => rfl

theorem laneRiseCap' (s : State) (l : Lane) (e : Ev) (f : Bool) : (s.pend l e).Pends (s.laneRiseCap l e f) := by
  unfold State.laneRiseCap
  have h1 := laneRise' s l e f
  dsimp only
  split
  · exact h1
  · exact capWake h1 l _

theorem islRise' (s : State) (e : Ev) (f : Bool) : (s.pend .A e).Pends (s.islRise e f) := by
  unfold State.islRise
  dsimp only
  have h1 : (s.pend .A e).Pends (s.pend .A e) := refl
  split
  · rename_i src p hs hp
    have hs' : src < 128 := by have := sourceOf_lt hs; omega
    have cr : ∀ (t : State) (l : Lane) (p : Prop) [Decidable p], (s.pend .A e).Pends t →
        (s.pend .A e).Pends (if p then t.countRise l src else t) := fun t l p _ ht => ite (countRise ht l src hs') ht
    have cb : ∀ (t : State) (l : Lane) (p : Prop) [Decidable p], (s.pend .A e).Pends t →
        (s.pend .A e).Pends (if p then t.capWake l src else t) := fun t l p _ ht => ite (capWake ht l src) ht
    have lg : ∀ (t : State) (r : Nat) (p' : Prop) [Decidable p'], (s.pend .A e).Pends t →
        (s.pend .A e).Pends (if p' then t.addLog .A 2 p e src false f r else t) := fun t r p' _ ht => ite (addLog ht ..) ht
    exact cb _ .B _ (cb _ .A _ (startReact (startReact (lg _ _ _ (cr _ .B _ (cr _ .A _ h1))) ..) ..))
  · exact h1

theorem monRise' (s : State) (e : Ev) (f : Bool) (he : EvOnly.Proper e) : (s.pend .A e).Pends (s.monRise e f) := by
  unfold State.monRise
  refine addLog ?_ ..
  have h1 : (s.pend .A e).Pends ((s.pend .A e).mbump (F.MON_CNT_CNT (e.bit / 4) (e.bit % 4))) := by
    refine put refl .A _ _ ?_
    have x : (F.MON_CNT_CNT (e.bit / 4) (e.bit % 4)).addr = 0xC0100 + e.bit / 4 * 4 := rfl
    have := he.2
    constructor
    · rw [x]; omega
    · rw [x]; omega
  have step : ∀ (t : State) (l : Lane), (s.pend .A e).Pends t → (s.pend .A e).Pends (if t.inReset l then t
      else (t.put l F.EVC_STAT_LAST_SRC e.bit).putFlag l F.EVC_STAT_LAST_MON true) :=
    fun t l ht => ite ht (put (put ht l _ _ (by decide)) l _ _ (by decide))
  exact step _ .B (step _ .A h1)

/-- A page that the monitor serves reads the same through both lanes. -/
theorem monPage {p : Page} {n k : Nat} (hp : pageAt n = some p) (hm : p.monServed = true) (hn : n % 0x1000 = 0) (hk : k < 0x1000) :
    monAddr (n + k) = true := by
  have q : (n + k) / 0x1000 = n / 0x1000 := by omega
  simp only [monAddr, pageAt, q] at hp ⊢
  rw [hp]
  exact hm

/-- A rise: EVT_PEND of its source is set, whichever die it lies in, and what follows clears no EVT_PEND bit. -/
theorem rise_pend (s : State) (l : Lane) (e : Ev) (f : Bool) (he : EvOnly.Proper e) : (s.pend l e).Pends (s.rise l e f) := by
  have key : ∀ p, pageAt e.page = some p → p.monServed = true → s.pend .A e = s.pend l e := by
    intro p hp hm
    have := monPage hp hm he.1 (k := 0x018) (by decide)
    simp only [State.pend, State.word, State.putWord, this, if_true]
  unfold State.rise
  split
  · rename_i i hp
    rw [← key _ hp rfl]
    exact monRise' s e f he
  · rename_i n hp
    rw [← key _ hp rfl]
    exact islRise' s e f
  · rename_i n hp
    rw [← key _ hp rfl]
    exact islRise' s e f
  · exact laneRiseCap' s l e f

theorem rise (h : a.Pends s) (l : Lane) (e : Ev) (f : Bool) (he : EvOnly.Proper e) : a.Pends (s.rise l e f) :=
  (pendSet h l e he).trans (rise_pend s l e f he)

theorem rise_pended (s : State) (l : Lane) (e : Ev) (f : Bool) (he : EvOnly.Proper e) : (s.rise l e f).pended l e = true :=
  (rise_pend s l e f he).pend l _ _ (by have := he.1; omega) (pend_pended s l e he)

end State.Pends

theorem State.pulseEv_pends (s : State) (l : Lane) (e : Ev) (f : Bool) (he : EvOnly.Proper e) : s.Pends (s.pulseEv l e f) := by
  unfold State.pulseEv
  refine State.Pends.ite State.Pends.refl (State.Pends.trans ?_ (State.Pends.routed s l e true _))
  dsimp only
  refine State.Pends.rise (State.Pends.ite ?_ ?_) l e f he
  · exact State.Pends.modMon State.Pends.refl _ (fun _ => rfl)
  · exact State.Pends.modLane State.Pends.refl l _ (fun _ => rfl)

/-- A pulse of a source that can rise sets its EVT_PEND bit. -/
theorem State.pulseEv_pended (s : State) (l : Lane) (e : Ev) (f : Bool) (he : EvOnly.Proper e) (hd : s.dead l e = false)
    (hp : s.present l e = false) : (s.pulseEv l e f).pended l e = true := by
  unfold State.present at hp
  unfold State.pulseEv
  simp only [hd, hp, Bool.or_self, Bool.false_eq_true, if_false]
  refine (State.Pends.routed s l e true _).pend l _ _ (by have := he.1; omega) ?_
  exact State.Pends.rise_pended _ l e f he

/-- A lasting condition shows in EVT_RAW. -/
theorem State.levelEv_present (s : State) (l : Lane) (e : Ev) (on : Bool) (he : EvOnly.Proper e) (hd : s.dead l e = false) :
    (s.levelEv l e on).present l e = on := by
  unfold State.levelEv State.present
  simp only [hd, Bool.false_or]
  split
  · rename_i h
    exact eq_of_beq h
  · rw [(State.Pends.routed s l e false _).raw l _ (by have := he.1; omega)]
    have b := he.2
    have w : ∀ v : Word, (s.putWord l (e.page + 0x010) v).word l (e.page + 0x010) = v := fun v => State.word_putWord_same ..
    have set : ∀ v : Word, bit (if on then v ||| (1#32 <<< e.bit) else v &&& ~~~(1#32 <<< e.bit)) e.bit = on := by
      intro v
      cases on
      · simp [bit, b]
      · simp [bit, b]
    split
    · rw [(State.Pends.rise State.Pends.refl l e false he).raw l _ (by have := he.1; omega), w, set]
    · rw [w, set]

/-- A lasting condition that comes sets EVT_PEND. -/
theorem State.levelEv_pended (s : State) (l : Lane) (e : Ev) (he : EvOnly.Proper e) (hd : s.dead l e = false)
    (hr : s.raw l e = false) : (s.levelEv l e true).pended l e = true := by
  have hp : bit (s.word l (e.page + 0x010)) e.bit = false := by
    simp only [State.raw, Bool.or_eq_false_iff] at hr
    exact hr.1
  unfold State.levelEv
  rw [if_neg (by rw [hd, hp]; decide)]
  refine (State.Pends.routed s l e false _).pend l _ _ (by have := he.1; omega) ?_
  dsimp only
  rw [if_pos (by rw [hr]; decide)]
  exact State.Pends.rise_pended _ l e false he

/-- No event clears an EVT_PEND bit. -/
theorem State.levelEv_keeps_pend (s : State) (l : Lane) (e : Ev) (on : Bool) (he : EvOnly.Proper e) (k : Lane) (n b : Nat)
    (hn : n % 0x1000 = 0x018) (h : bit (s.word k n) b = true) : bit ((s.levelEv l e on).word k n) b = true := by
  unfold State.levelEv
  split
  · exact h
  · refine (State.Pends.routed s l e false _).pend k n b hn ?_
    dsimp only
    have p : ∀ v, bit ((s.putWord l (e.page + 0x010) v).word k n) b = true := fun v => by
      rw [State.word_putWord_ne _ _ _ _ _ _ (by have := he.1; omega)]
      exact h
    split
    · exact (State.Pends.rise State.Pends.refl l e false he).pend k n b hn (p _)
    · exact p _

/-- Another source's EVT_RAW condition stays. -/
theorem State.levelEv_present_ne (s : State) (l : Lane) (e : Ev) (on : Bool) (he : EvOnly.Proper e) (k : Lane) (e' : Ev)
    (h : e'.page ≠ e.page) (he' : EvOnly.Proper e') : (s.levelEv l e on).present k e' = s.present k e' := by
  unfold State.levelEv State.present
  split
  · rfl
  · rw [(State.Pends.routed s l e false _).raw k _ (by have := he'.1; omega)]
    dsimp only
    have p : ∀ v, (s.putWord l (e.page + 0x010) v).word k (e'.page + 0x010) = s.word k (e'.page + 0x010) := fun v =>
      State.word_putWord_ne _ _ _ _ _ _ (by omega)
    split
    · rw [(State.Pends.rise State.Pends.refl l e false he).raw k _ (by have := he'.1; omega), p]
    · rw [p]

end Sys2Proof.Machine
end

