-- ==== Sys2Proof/WellFormed.lean ====
section
/-! DEFINITION. Which commands the outside world can send: `exec` answers every command, and these checks name the terms that
describe no frame, no reading and no access that the SX-6400 can meet. -/
namespace Sys2Proof
open Machine

/-- A frame of a CAN bus (R423, R428): an identifier of its width, no bit-rate switch and no ESI without FDF, no remote FD frame, and
the bytes that its length code says. -/
def CanFrame.wellFormed (f : CanFrame) : Bool :=
  (f.ide || decide (f.id.toNat < 2 ^ 11)) && (f.fdf || (!f.brs && !f.esi)) && !(f.fdf && f.rtr) &&
  f.data.length == (if f.rtr then 0 else dlcBytes f.fdf f.dlc.toNat)

/-- What a flash read pass can find: bytes for windows of the lane (R83, R175), and configuration words at aligned offsets below the
windows (R61). -/
def ImageRead.wellFormed (r : ImageRead) : Bool :=
  r.load.all (fun p => decide (p.1 < 2 ^ 24)) && r.config.all (fun p => decide (p.1 % 4 = 0) && decide (p.1 < 0x400000))

/-- A control-pilot level (R289): its low plateau does not lie above the high one, and only PWM has a frequency. -/
def CpLevel.wellFormed (c : CpLevel) : Bool := decide (c.low ≤ c.high) && (c.pwm || c.mhz == 0)

/-- A well-formed command. A command of a kind that is not named carries nothing that could be ill-formed. -/
def Instr.wellFormed : Instr → Bool
  | .flashReadPassDone _ r => r.wellFormed
  | .imgCommit _ r _ => r.wellFormed
  | .canRxFrame _ _ f _ => f.wellFormed
  | .cpStateChange _ c => c.wellFormed
  -- the fan-out of a token group is one bridge, but for TG2's two actuators (R21)
  | .tokenLatch g b => g == .tg2 || b == 0
  -- a register is a word of a page, at an aligned 24-bit offset (R83)
  | .registerWrite _ a _ _ _ _ => decide (a.toNat % 4 = 0)
  | .dualWriteHalf _ a _ _ => decide (a.toNat % 4 = 0)
  | .dclWrite _ off _ _ _ => decide (off.toNat % 4 = 0)
  | .redWrite _ off _ _ _ => decide (off.toNat % 4 = 0)
  -- a page is one of the map's 4 KB pages below the windows (R83)
  | .blockSoftReset _ pg _ => decide (pg.toNat < 0x400)
  | .lockSet _ pg _ _ => decide (pg.toNat < 0x400)
  | .eventForce _ pg _ _ => decide (pg.toNat < 0x400)
  -- a retained voltage is a share of the nominal one in 0.1 % below the dip's threshold (R297)
  | .gridDip _ r => decide (r < 1000)
  -- a duty is a share of the period in 0.1 % (R290)
  | .cpPwmPeriod _ d => decide (d ≤ 1000)
  -- a speed is a finite number (R111)
  | .resTrackUpdate _ _ speed _ _ _ _ => fFinite speed
  | .acqDone _ _ speed => fFinite speed
  | _ => true

end Sys2Proof
end

