-- ==== Sys2Proof/Tests/Slice0.lean ====
section
/-! SUPPORT. Small states, tests of single steps on them (expected values from the spec's own examples and tables, or by hand from
them), the checks of WellFormed on ill-formed terms, and for every obligation with hypotheses the states and operands that meet them. -/
set_option maxRecDepth 100000
set_option Elab.async false
namespace Sys2Proof.Tests
open Sys2Proof Sys2Proof.Machine

/-! States. -/

/-- Both lanes control-ready and running, the link up and locked, both relay paths present, every island usable, the STO pins high, a
device number sampled, matching configurations, a valid angle and 12 V at the valves. -/
def up : State :=
  let s := State.reset.both (fun l s => (s.modBoot l (fun b => { b with phase := .ready })).put l F.RED_STAT_SELF 2)
  let s := s.both (fun l s => (s.putFlag l F.CONJ_STAT_LINK_UP true).putFlag l F.RED_STAT_MON_OK true)
  let s := s.both (fun l s => (s.putFlag l F.CE_STAT_PEER_MATCH true).putFlag l F.FBK_ANG_VALID true)
  let s := s.both (fun l s => s.put l F.ACT_VLV_VLV 1200)
  { s with
    mon := { s.mon with counted := ⟨true, true⟩, holdFail := ⟨false, false⟩ }
    aon := { s.aon with sto1 := true, sto2 := true, devnum := some 5 }
    hv := s.hv.map (fun h => { h with usable := true, vpOk := true, vnOk := true })
    lv := { s.lv with usable := true, vglOk := true }
    sns := s.sns.map (fun v => { v with usable := true }) }

/-- The running machine with one field of Lane A, and of Lane B, at a value. -/
def upA (f : Fld) (v : Nat) : State := up.put .A f v

def upB (f : Fld) (v : Nat) : State := up.put .B f v

/-- The running machine with a law table of one deadbeat entry of loop 1 in Lane A. -/
def table : State :=
  let m := mputs [] 0x400000 [1, 8]
  let m := mputs m (b10Entry 0) [0, BitVec.ofNat 32 (0x0D * 2 ^ 26 + 3 * 2 ^ 24 + 1 * 2 ^ 19)]
  let m := mputs m (b10Param 8) [0x3F800000, 0x3F800000, 0x3F800000]
  (upA F.CE_STAT_TABLE_OK 1).modLane .A (fun x => { x with mem := m })

/-- A flash read that finds nothing good, and one that does. -/
def badRead : ImageRead := { crcOk := false, version := 0, flags := 0, digest := 0, pairDigest := 0, load := [], config := [] }

def goodRead : ImageRead := { badRead with crcOk := true, version := 7, flags := 3 }

/-- The running machine with CLAUSE connection 0 of Lane A enabled to receive, having received some bytes. -/
def heardTel (bs : List Byte) (state : Nat) : State :=
  let s := (upA (F.CLS_CFG_EN 0) 1).put .A (F.CLS_STAT_STATE 0) state
  s.modCls .A 0 (fun x => { x with tel := some bs })

/-- The running machine with CAN controller 0 of Lane A on the bus and two frames to send. -/
def canUp : State :=
  let e : TxEntry := { frame := { id := 0x123 }, tag := 7 }
  let s := ((upA (F.CAN_CTRL_INIT 0) 0).put .A (F.CAN_STAT_STATE 0) 0).modCan .A 0 (fun x => { x with joined := true, fifo := [e], slot := x.slot.set 2 (some e) })
  s

/-- The running machine with descriptor 3 of Lane A handed over: a command, a length and an argument. -/
def bulkUp (cmd len arg : Nat) : State :=
  let s := (upA (F.BULK_DESC0_CMD 3) cmd).put .A (F.BULK_DESC0_LEN 3) len
  (s.put .A (F.BULK_DESC1_ARG 3) arg).put .A (F.BULK_DESC0_OWN 3) 1

/-- A half that a lane has passed to the monitor waits there. -/
def halfUp (l : Lane) (addr : Nat) (v : Word) : State :=
  (up.modMon (fun m => { m with halves := [{ lane := l, addr := addr, val := v }] })).modLane l (fun x => { x with timedHalves := [addr] })

/-- The Conjunction link down. -/
def linkDown (s : State) : State := s.both (fun l s => s.put l F.CONJ_STAT_LINK_UP 0)

/-- A shadow of FBK_SEL waits in Lane A. -/
def shd : State := up.modLane .A (fun x => { x with shadows := [{addr := F.FBK_SEL_PRIM.addr, val := 1}] })

/-- An armed shadow of FBK_SEL waits in Lane A. -/
def shdArmed : State := up.modLane .A (fun x => { x with shadows := [{addr := F.FBK_SEL_PRIM.addr, val := 1, armed := true}] })

/-- Sixteen halves of Lane A wait at the monitor. -/
def halves16 : State := up.modMon (fun m => { m with halves := (List.range 16).map (fun k => { lane := .A, addr := 0x91000 + 4 * k, val := 1 }) })

/-- A session record of Lane A, and of Lane B. -/
def sessA (k : Fin 4) (r : Sess) (s : State) : State := s.modLane .A (fun x => { x with sess := x.sess.set k r })

/-- A session of Lane B. -/
def sessB (k : Fin 4) (r : Sess) (s : State) : State := s.modLane .B (fun x => { x with sess := x.sess.set k r })

/-- Session 0 of Lane A has accepted a number, with the status of its first copy where one is given. -/
def sessUp (n : BitVec 16) (st : Option Status) : State :=
  sessA 0 { highest := n, seed := none, seen := match st with | some x => [(n, x)] | none => [] } up

/-- Signal 100 of Lane A is a readable word of the EVC page. -/
def dirUp : State :=
  up.modLane .A (fun x => { x with mem := mputs x.mem 0x800320 [0xE0004060, 0x08000013] })

/-- A PERIOD of session 1 awaits completion in Lane A, and covers a shadow. -/
def periodUp : State :=
  (sessA 1 { periods := [{seq := 3}] } up).modLane .A (fun x => { x with shadows := [{addr := F.FBK_SEL_PRIM.addr, val := 1, due := [⟨1,3⟩]}] })

/-- Lane B has acknowledged a PERIOD that covers a shadow of Lane A. -/
def armPeer : State :=
  (sessB 1 { seen := [(3, .ok)] } up).modLane .A (fun x => { x with shadows := [{addr := F.FBK_SEL_PRIM.addr, val := 1, due := [⟨1,3⟩]}] })

/-- Lane A has heard a CYC frame, expects a record of 5 words, and takes CLAUSE connection 2 from the ring. -/
def ringUp : State :=
  (up.put .A (F.CLS_CFG_EN 2) 1).modRing .A (fun r => { r with cyc := some 9, cfg := 0x50000, seen0 := true })

/-- The same with the record of this cycle taken. -/
def ringUpOk : State := ringUp.modRing .A (fun r => { r with outOk := true })

/-- Lane A alone with everything resynchronised. -/
def resyncUp : State :=
  ((upA F.RED_STAT_SELF 1).putFlag .A F.CLK_STAT_PEER_LOCK true).modRed .A (fun r => { r with copiesOk := 16, cleanHb := 16 })

/-- A token move may run. -/
def moveUp : State := (up.putFlag .B F.RED_STAT_SUBJ_OK true).modMon (fun m => { m with moveReq := some .B })

/-- One frame waits in controller 0 of Lane A, which is on the bus with a transmit error count. -/
def canOne (tec : Nat) : State :=
  let e : TxEntry := { frame := { id := 0x123 }, tag := 7 }
  (((upA (F.CAN_CTRL_INIT 0) 0).put .A (F.CAN_STAT_STATE 0) 0).put .A (F.CAN_STAT_TEC 0) tec).modCan .A 0 (fun x => { x with joined := true, fifo := [e] })

/-- The same without repeats. -/
def canOneShot : State := (canOne 0).put .A (F.CAN_CTRL_ONESHOT 0) 1

/-- Bank 15 of Lane A is one word from the end of its pass. -/
def scrubLast : State := up.modLane .A (fun x => { x with scrub := x.scrub.set 15 (bankWords 15 - 1, 0) })

/-- Window 3 of Lane A has recorded its last post-trigger record. -/
def captured : State :=
  (upA (F.MEM_CAP_STAT_STATE 3) 2).modLane .A (fun x => { x with cap := x.cap.set 3 { x.cap[3] with post := 65536 } })

/-- The state that an outcome answers. -/
def after (o : Host.Outcome State Fault Refusal) : State := match o with | .next t => t | _ => State.reset

/-! What the decoder and the encodings say. -/

/-- R375's check value of the CLAUSE CRC. -/
theorem test_clause_crc : clsCrc [0x31, 0x32, 0x33, 0x34, 0x35, 0x36, 0x37, 0x38, 0x39] = 0x1697D06A := by decide +kernel
/-- R398's check value of the frame CRC. -/
theorem test_frame_crc : crc32 [0x31, 0x32, 0x33, 0x34, 0x35, 0x36, 0x37, 0x38, 0x39] = 0xCBF43926 := by decide +kernel
/-- The example of a directory entry in the register model's chapter: 0x1A06_FC31_F002_9060. -/
theorem test_directory_entry : let e : DirEntry := { hi := 0x1A06FC31, lo := 0xF0029060 }
    dirLane e = 0 ∧ dirRd e = true ∧ dirWr e = false ∧ dirCyc e = true ∧ dirType e = 3 ∧ dirWidth e = 16 ∧ dirPos e = 16 ∧
      dirAddr e = 0x029060 := by decide
/-- The same entry reads a signed 16-bit field at bit 16 (R403). -/
theorem test_sint_extracted : dirExtract { hi := 0x1A06FC31, lo := 0xF0029060 } 0xFFFE1234 = 0xFFFFFFFE := by decide
/-- R290 with the example of the charger's chapter: 53.3 % gives 31.9 A, and the ends of the ranges. -/
theorem test_pilot_current : pilotAmps 533 0 = 319 ∧ pilotAmps 80 0 = 60 ∧ pilotAmps 850 0 = 510 ∧ pilotAmps 860 0 = 550 ∧
    pilotAmps 970 0 = 800 ∧ pilotAmps 971 0 = 0 ∧ pilotAmps 70 16 = 160 ∧ pilotAmps 71 16 = 0 := by decide
/-- No word of the table spells a command. -/
theorem test_no_word_decodes : decodeTableWord 16 0 = none ∧ State.reset.withFetchWord 16 0 = State.reset := by decide +kernel

/-! Floating point (R161): hand calculation. -/

theorem test_fp_sum : fAdd 0x3FC00000 0x40200000 = 0x40800000 := by decide
theorem test_fp_rounds_to_even : fAdd 0x4B800000 0x3F800000 = 0x4B800000 ∧ fAdd 0x4B800001 0x3F800000 = 0x4B800002 := by decide +kernel
theorem test_fp_product_and_quotient : fMul 0x40000000 0xC0400000 = 0xC0C00000 ∧ fDiv 0x3F800000 0x40000000 = 0x3F000000 ∧
    fDiv 0x3F800000 0 = 0x7F800000 := by decide +kernel
theorem test_fp_denormal_is_zero : fMul 0x00400000 0x4B000000 = 0 := by decide +kernel

/-! The state after reset. -/

theorem test_reset_answers_page_ids : State.reset.word .A 0x24044 = 1 ∧ State.reset.word .B 0x90054 = 0x7FFFFFFF := by decide +kernel
/-- The example of the gate-drive chapter: the threshold is 1.900 V at the pin. -/
theorem test_ovs_reset_threshold : State.reset.ovsThr 1 = 1900 ∧ State.reset.ovsHys 1 = 80 := by decide +kernel

/-! Commands. -/

/-- A byte enable of 0b0101 writes bytes 0 and 2 (R91). -/
theorem test_byte_enables : mergeBytes 0xAABBCCDD 0x11223344 0x5 = 0xAA22CC44 := by decide
theorem test_register_write_answers_ok :
    (after (exec (.registerWrite .A 0x04060 0x12345678 0xF none .before) up)).word .A 0x04060 = 0x12345678 := by decide +kernel
/-- The example of the events chapter: SC on H03 sets bit 14 of EVC_PEND1 in both lanes and counts in bits 23:16 of EVC_CNT11. -/
theorem test_short_circuit_of_h03 : let t := after (exec (.sc 3) up)
    t.wordAt .A 0x04054 = 0x4000 ∧ t.wordAt .B 0x04054 = 0x4000 ∧ bits (t.wordAt .A 0x0412C) 16 8 = 1 := by decide +kernel
/-- Latch 3 of the index example in the feedback chapter: the error +3 beyond a tolerance of 2 is the first mismatch. -/
theorem test_index_mismatch : let s := (((upA F.FBK_ENC_CFG_IDX_EN 1).put .A F.FBK_ENC_CFG_LINES 1024).put .A F.FBK_ENC_CHK_TOL 2).put .A F.FBK_ENC_CHK_M 3
    let t := after (exec (.indexLatch .A) ((s.putWord .A F.FBK_ENC_CNT_CNT.addr 18195).modFbk .A (fun f => { f with latch := some 14096 })))
    t.fld .A F.FBK_IDX_ERR_MM_CNT = 1 ∧ t.fld .A F.FBK_IDX_ERR_LAST_ERR = 3 := by decide +kernel
/-- The example of the actuators' chapter: at 357 of 360 with END_WIN 6 the stop is the end, and the position becomes 360. -/
theorem test_locked_rotor_at_the_end :
    let s := (((upA (F.ACT_STAT_STATE 0) 1).put .A (F.ACT_END_TRAVEL 0) 360).put .A (F.ACT_MOVE_END_WIN 0) 6).put .A (F.ACT_POS_POS 0) 357
    let t := after (exec (.lockedRotor .A 0) (s.modLane .A (fun x => { x with mem := mputs [] (b10Wire 0x08E) [0x3F000000] })))
    t.actPos .A 0 = 360 ∧ t.pended .A E.ACT_END_REACHED = true := by decide +kernel
/-- A transmit error adds 8 to TEC (R436). -/
theorem test_can_error_counts : (after (exec (.txError .A 0 2 false false false 0) (canOne 0))).fld .A (F.CAN_STAT_TEC 0) = 8 := by
  decide +kernel
/-- A read of the write-only log is not served in a lane that resets: a command to a lane in reset changes nothing. -/
theorem test_lane_in_reset_ignores : let s := up.modHold .A (fun h => { h with pin := true })
    (after (exec (.registerWrite .A 0x04060 5 0xF none .before) s)).word .A 0x04060 = 0 := by decide +kernel
/-- A read-modify-write writes (old AND mask) OR value (R407). -/
theorem test_read_modify_write :
    (after (exec (.rmw .A false true 5 .A ⟨0, 1⟩ 0x4060 0xFF 0x1200 .before) (up.putWord .A 0x4060 0xABCD))).word .A 0x4060 = 0x12CD := by
  decide +kernel
/-- A full slot entry of TXFIFO: DEST 1 is refused with RANGE_ERR (R428). -/
theorem test_push_to_no_slot : (after (exec (.txPush .A 0 1 .before) canUp)).answered .A = .rangeErr := by decide +kernel
/-- An idle step counts one unit of time. -/
theorem test_idle_step : (after (step State.reset)).time = State.reset.time + 1 := by decide +kernel
/-- A step takes the front command. -/
theorem test_step_takes_the_front : (after (step { up with pending := [.shedAbortNotice .A, .shed] })).pending = [.shed] := by decide +kernel

/-! WellFormed refuses each of these ill-formed terms, and takes a well-formed one beside it. -/

theorem test_wf_can_id : (CanFrame.mk false 0x800 false false false false 0 []).wellFormed = false ∧
    (CanFrame.mk true 0x800 false false false false 0 []).wellFormed = true := by decide
theorem test_wf_can_brs_and_esi : (CanFrame.mk false 1 false true false false 0 []).wellFormed = false ∧
    (CanFrame.mk false 1 false false false true 0 []).wellFormed = false ∧ (CanFrame.mk false 1 true true false true 0 []).wellFormed = true := by
  decide
theorem test_wf_can_remote_fd : (CanFrame.mk false 1 true false true false 0 []).wellFormed = false := by decide
theorem test_wf_can_length : (CanFrame.mk false 1 false false false false 2 [7]).wellFormed = false ∧
    (CanFrame.mk false 1 false false false false 2 [7, 8]).wellFormed = true ∧
    (Instr.canRxFrame .A 0 ⟨false, 1, false, false, false, false, 2, [7]⟩ 0).wellFormed = false := by decide
theorem test_wf_image : (Instr.flashReadPassDone .A { goodRead with load := [(0x1000000, 0)] }).wellFormed = false ∧
    (Instr.imgCommit .A { goodRead with config := [(0x24042, 0)] } true).wellFormed = false ∧
    (Instr.flashReadPassDone .A goodRead).wellFormed = true := by decide
theorem test_wf_pilot : (Instr.cpStateChange .A ⟨0, 1, true, 1000000⟩).wellFormed = false ∧
    (Instr.cpStateChange .A ⟨9000, 9000, false, 5⟩).wellFormed = false ∧ (Instr.cpStateChange .A ⟨9000, -12000, true, 1000000⟩).wellFormed = true := by
  decide
theorem test_wf_token_latch : (Instr.tokenLatch .tg0 1).wellFormed = false ∧ (Instr.tokenLatch .tg2 1).wellFormed = true := by decide
theorem test_wf_offsets : (Instr.registerWrite .A 0x24041 0 0xF none .before).wellFormed = false ∧
    (Instr.dualWriteHalf .A 0x90042 0 none).wellFormed = false ∧ (Instr.dclWrite .A 0x043 0 0xF none).wellFormed = false ∧
    (Instr.redWrite .A 0x043 0 0xF none).wellFormed = false := by decide
theorem test_wf_pages : (Instr.blockSoftReset .A 0x400 none).wellFormed = false ∧ (Instr.lockSet .A 0x400 0 none).wellFormed = false ∧
    (Instr.eventForce .A 0x400 0 none).wellFormed = false := by decide
theorem test_wf_grid : (Instr.gridDip .A 1000).wellFormed = false ∧ (Instr.cpPwmPeriod .A 1001).wellFormed = false := by decide
theorem test_wf_speeds : (Instr.resTrackUpdate .A 0 0x7F800000 0 true 0 0).wellFormed = false ∧
    (Instr.acqDone .A 0 0x7FC00000).wellFormed = false := by decide

/-! Witnesses. -/

/-- The running machine is sound. -/
theorem upSound : up.Sound :=
  have f : ∀ l : Lane, ∀ c : Fin 2, ((up.lane l).can[c]).Fits := by intro l; cases l <;> (unfold CanState.Fits; decide +kernel)
  ⟨⟨by decide +kernel, by decide +kernel, by decide +kernel, by decide +kernel, by decide +kernel, f .A⟩,
    ⟨by decide +kernel, by decide +kernel, by decide +kernel, by decide +kernel, by decide +kernel, f .B⟩, by decide +kernel, by decide +kernel⟩

/-- The monitor may enable the AFE, which the token holder reports RUN, with a sense value of zero. -/
def afeUp : State := ((upA F.MON_PG_CHG_AFE_EN 1).putWord .A F.AFE_VBUS_VBUS.addr 0).modMon (fun m => { m with hb := ⟨some ({ afeState := 2 }, 0), none⟩ })
/-- Zero counts are zero volts, whatever the gain. -/
theorem zero_times_gain (m : Nat) : fMul 0 (Config.senseGain m) = 0 := by
  have h : fExp (Config.senseGain m) ≠ 255 := by
    have := (Config.senseGainBits m).isLt
    simp only [fExp, bits, Config.senseGain, BitVec.toNat_ofNat]; omega
  have g : fSign (Config.senseGain m) = false := by
    have := (Config.senseGainBits m).isLt
    simp only [fSign, bit, Config.senseGain, BitVec.getLsbD_ofNat]
    simp [Nat.testBit, Nat.shiftRight_eq_div_pow]; omega
  have n : fNaN (Config.senseGain m) = false := by simp [fNaN, h]
  have i : fInf (Config.senseGain m) = false := by simp [fInf, h]
  have z : fMag 0 = 0 := by decide
  unfold fMul
  rw [n, i, g, z, Nat.zero_mul, show fNaN 0 = false by decide, show fInf 0 = false by decide]
  simp only [Bool.or_self, Bool.false_eq_true, if_false]
  decide
theorem afeUp_ok : afeUp.pgAfeOk = true := by
  have h : afeUp.sense afeUp.token 3 = 0 := by
    have z : fInt (afeUp.senseVal afeUp.token 3) = 0 := by decide +kernel
    unfold State.sense; rw [z]; exact zero_times_gain 3
  unfold State.pgAfeOk; rw [h]; decide +kernel
/-- Input 0 belongs to loop 1, which is open. -/
theorem cal_loops : ∀ (n : Nat) (ls : List Nat) (cs : List (Fin 34)),
  (1#24).getLsbD n = true →
    inputLoop .A n = some (ls, cs) →
      (∀ (k : Nat), k ∈ ls → up.loopClosed .A k = false) ∧ ∀ (c : Fin 34), c ∈ cs → up.hv[c].outOn = true → up.hvOwner c ≠ .A :=
  fun n ls cs hn hi => by
    have h0 : n = 0 := by simpa using hn
    subst h0; simp [inputLoop] at hi; obtain ⟨rfl, rfl⟩ := hi; decide +kernel

/-- The hypotheses of IdleStepCountsTime, clause by clause, meet in these states and operands. -/
theorem witness_IdleStepCountsTime :
    (∃ (s : State), s.pending = []) :=
  ⟨State.reset, by decide +kernel⟩

/-- The hypotheses of StepKeepsSound, clause by clause, meet in these states and operands. -/
theorem witness_StepKeepsSound :
    (∃ (s : State) (t : State), s.Sound ∧ step s = Host.Outcome.next t) :=
  ⟨up, _, upSound, rfl⟩

/-- The hypotheses of CommandsCompleteWithinTheirFootprints, clause by clause, meet in these states and operands. -/
theorem witness_CommandsCompleteWithinTheirFootprints :
    (∃ (s : State) (c : Instr) (t : State), exec c s = Host.Outcome.next t) :=
  ⟨State.reset, .nrstAssert .A, _, rfl⟩

/-- The hypotheses of ResetValues, clause by clause, meet in these states and operands. -/
theorem witness_ResetValues :
    (∃ (a : Nat × Nat), a ∈ [(147524, 1), (147560, 1679368240), (163912, 2198618626), (458832, 58982800), (458856, 1036831949),
      (471120, 2307850240), (524356, 2154037348), (524360, 1056964608), (589888, 657940), (589908, 2147483647), (655424, 3)]) ∧
    (∃ (p : Page), p ∈ [Page.fbk 0, Page.dcl, Page.red, Page.saf, Page.ring]) :=
  ⟨⟨(0x24044, 0x00000001), by decide +kernel⟩,
  ⟨.ring, by decide +kernel⟩⟩

/-- The hypotheses of ResetCausesHoldAndReleaseALane, clause by clause, meet in these states and operands. -/
theorem witness_ResetCausesHoldAndReleaseALane :
    (∃ (s : State) (l : Lane), s.rail l.other = true) ∧
    (∃ (s : State) (l : Lane), s.rail l.other = false) ∧
    (∃ (s : State) (l : Lane), s.inReset l = false) :=
  ⟨⟨State.reset, .A, by decide +kernel⟩,
  ⟨State.reset.modAon (fun a => { a with vsbOk := false }), .A, by decide +kernel⟩,
  ⟨up, .A, by decide +kernel⟩⟩

/-- The hypotheses of ModuleResetAndStartUp, clause by clause, meet in these states and operands. -/
theorem witness_ModuleResetAndStartUp :
    (∃ (s : State), (∀ k, ({ s with aon := { s.aon with nPor := false } }).inReset k = false)) ∧
    (∃ (s : State), s.aon.nPor = false ∧ s.aon.devnum = none ∧ s.aon.unstable = false ∧ s.aon.tmode = false) ∧
    (∃ (s : State) (l : Lane), s.inReset l = false ∧ (s.lane l).boot.phase = Boot.starting ∧ (s.lane l).boot.readOk = false ∧
      (s.lane l).boot.verified = false) ∧
    (∃ (s : State) (l : Lane), s.inReset l = false ∧ (s.lane l).boot.phase = Boot.starting ∧ (s.lane l).boot.readOk = true ∧
      (s.lane l).boot.verified = false) :=
  ⟨⟨up.modAon (fun a => { a with nPor := true }), fun k => by cases k <;> decide⟩,
  ⟨State.reset, by decide +kernel⟩,
  ⟨State.reset, .A, by decide +kernel⟩,
  ⟨State.reset.modBoot .A (fun b => { b with readOk := true }), .A, by decide +kernel⟩⟩

/-- The hypotheses of DroopRestartAndClockChecks, clause by clause, meet in these states and operands. -/
theorem witness_DroopRestartAndClockChecks :
    (∃ (s : State) (l : Lane), s.inReset l = false ∧ s.flag l F.PWR_STAT_DROOP = false) ∧
    (∃ (s : State) (l : Lane) (w : ClockWindow), s.inReset l = false ∧ w.ppm.natAbs ≤ 500 ∧ w.monFindsA = true ∧ w.monFindsB = true ∧
      w.aFindsMon = true ∧ w.bFindsMon = true) ∧
    (∃ (s : State) (l : Lane) (w : ClockWindow), s.inReset l = false ∧ s.inReset l.other = false ∧ 500 < w.ppm.natAbs ∧
      (match l with | Lane.A => w.monFindsA | Lane.B => w.monFindsB) = false ∧ s.mon.alive = true ∧ s.mon.clkSuspect = false) ∧
    (∃ (s : State) (l : Lane), s.inReset l = false ∧ s.inReset l.other = true) :=
  ⟨⟨up, .A, by decide +kernel⟩,
  ⟨up, .A, ⟨true, true, true, true, 500⟩, by decide +kernel⟩,
  ⟨up, .B, ⟨true, false, true, false, 501⟩, by decide +kernel⟩,
  ⟨up.modHold .B (fun h => { h with retired := true, mon := true }), .A, by decide +kernel⟩⟩

/-- The hypotheses of IslandsComeAndGo, clause by clause, meet in these states and operands. -/
theorem witness_IslandsComeAndGo :
    (∃ (s : State) (n : Fin 34), s.hv[n].usable = false) ∧
    (∃ (s : State), s.lv.usable = false) ∧
    (∃ (s : State) (n : Fin 34), (s.hv[n].vpOk && s.hv[n].vnOk) = false) ∧
    (∃ (s : State) (n : Fin 34), s.hv[n].usable = true ∧ s.hv[n].lost = false) ∧
    (∃ (s : State), s.lv.usable = true ∧ s.lv.lost = false) ∧
    (∃ (s : State) (n : Fin 34), s.hv[n].lost = true) :=
  ⟨⟨State.reset, 12, by decide +kernel⟩,
  ⟨State.reset, by decide +kernel⟩,
  ⟨up.modHv 3 (fun h => { h with vpOk := false }), 3, by decide +kernel⟩,
  ⟨up, 7, by decide +kernel⟩,
  ⟨up, by decide +kernel⟩,
  ⟨up.modHv 3 (fun h => { h with lost := true }), 3, by decide +kernel⟩⟩

/-- The hypotheses of OvervoltageAndSafeStateLine, clause by clause, meet in these states and operands. -/
theorem witness_OvervoltageAndSafeStateLine :
    (∃ (s : State) (k : Fin 6) (mv : BitVec 16), s.hv[lowChan k].usable = true ∧ s.hv[lowChan k].ovsAct = false ∧
      s.ovsThr (lowChan k) < mv.toNat) ∧
    (∃ (s : State) (k : Fin 6) (mv : BitVec 16), mv.toNat + s.ovsHys (lowChan k) < s.ovsThr (lowChan k)) ∧
    (∃ (s : State) (k : Fin 6), s.hv[lowChan k].lost = true) ∧
    (∃ (s : State) (k : Fin 6), s.hv[lowChan k].ascOvs = true ∧ s.hv[lowChan k].ovsAct = false ∧ s.lineOk (lowChan k) = true) ∧
    (∃ (s : State) (n : Fin 12), s.hv[(⟨n.val, by omega⟩ : Fin 34)].usable = true) ∧
    (∃ (s : State) (n : Fin 34), s.hv[n].usable = true) ∧
    (∃ (s : State) (k : Fin 6), s.held (if k.val < 3 then Lane.A else Lane.B) = true ∧ s.asc = true ∧
      ((if k.val < 3 then Lane.A else Lane.B) = Lane.A → s.mon.freeA = false) ∧ s.hv[(⟨2 * k.val,
      by omega⟩ : Fin 34)].gateOff = true) :=
  ⟨⟨up, 0, 0xFFFF, by decide +kernel⟩,
  ⟨up.modHv (lowChan 5) (fun h => { h with ovsAct := true }), 5, 0, by decide +kernel⟩,
  ⟨up.modHv (lowChan 2) (fun h => { h with lost := true, ovsAct := true }), 2, by decide +kernel⟩,
  ⟨up.modHv (lowChan 2) (fun h => { h with ascOvs := true }), 2, by decide +kernel⟩,
  ⟨up, 11, by decide +kernel⟩,
  ⟨up, 11, by decide +kernel⟩,
  ⟨((up.modMon (fun m => { m with sto := true })).putFlag .A F.MON_SST_STAT_SEL true), 4, by decide +kernel⟩⟩

/-- The hypotheses of GateProtection, clause by clause, meet in these states and operands. -/
theorem witness_GateProtection :
    (∃ (s : State) (n : Fin 34), s.mon.alive = true ∧ s.hv[n].usable = true ∧ s.hv[n].scLatch = false ∧
      s.mflag (F.GDH_CFG_SC_EN n.val) = true) ∧
    (∃ (s : State) (n : Fin 12), s.inReset (setOf n.val) = false ∧ s.sm (setOf n.val) ≠ 0 ∧ s.sm (setOf n.val) ≠ 9) ∧
    (∃ (s : State), s.mon.alive = true ∧ s.lv.usable = true) :=
  ⟨⟨up.modHv 0 (fun h => { h with outOn := true }), 0, by decide +kernel⟩,
  ⟨upA F.TRC_SM_STAT_STATE 6, 0, by decide +kernel⟩,
  ⟨up, by decide +kernel⟩⟩

/-- The hypotheses of InterlockAndDeadTime, clause by clause, meet in these states and operands. -/
theorem witness_InterlockAndDeadTime :
    (∃ (s : State) (l : Lane) (n : Fin 34), s.inReset l = false ∧ s.hv[partner n].outOn = false) ∧
    (∃ (s : State) (l : Lane) (n : Fin 12), s.inReset l = false ∧ s.lv.ch[lvPartner n].outOn = false) :=
  ⟨⟨up, .A, 12, by decide +kernel⟩,
  ⟨up, .B, 11, by decide +kernel⟩⟩

/-- The hypotheses of GateClearsAndTests, clause by clause, meet in these states and operands. -/
theorem witness_GateClearsAndTests :
    (∃ (s : State) (l : Lane) (n : Fin 34), s.Takes l (196720 + n.val * 4096) ∧ s.hv[n].usable = true ∧ s.hvOwner n = l ∧
      s.fnDisabled n.val = true ∧ s.mon.alive = true) ∧
    (∃ (s : State) (l : Lane) (n : Fin 34), s.Takes l (196720 + n.val * 4096) ∧ s.hv[n].usable = true ∧
      (s.hvOwner n ≠ l ∨ s.fnDisabled n.val = true)) ∧
    (∃ (s : State) (l : Lane) (n : Fin 12), s.Takes l (393292 + n.val * 4096) ∧ s.lv.usable = true ∧
      (s.lvOwner n ≠ l ∨ s.lvDisabled n = true)) ∧
    (∃ (s : State) (l : Lane) (n : Fin 12), s.Takes l (393292 + n.val * 4096) ∧ s.lv.usable = true ∧ s.lvOwner n = l) :=
  ⟨⟨up.modHv 0 (fun h => { h with scLatch := true }), .A, 0, ⟨by decide +kernel, by decide +kernel⟩, by decide +kernel⟩,
  ⟨up, .A, 0, ⟨by decide +kernel, by decide +kernel⟩, by decide +kernel⟩,
  ⟨up, .A, 11, ⟨by decide +kernel, by decide +kernel⟩, by decide +kernel⟩,
  ⟨up, .A, 11, ⟨by decide +kernel, by decide +kernel⟩, by decide +kernel⟩⟩

/-- The hypotheses of TokenLatchesAndMoves, clause by clause, meet in these states and operands. -/
theorem witness_TokenLatchesAndMoves :
    (∃ (s : State), s.mon.alive = true) ∧
    (∃ (s : State), s.mon.moveFrom.isSome = true ∧ s.tokenDone = true) :=
  ⟨⟨up, by decide +kernel⟩,
  ⟨up.modMon (fun m => { m with moveFrom := some .B }), by decide +kernel⟩⟩

/-- The hypotheses of EngineAndSetPointCommands, clause by clause, meet in these states and operands. -/
theorem witness_EngineAndSetPointCommands :
    (∃ (s : State) (l : Lane), s.Takes l 65600 ∧ s.word l F.CE_LOOP_STAT_CLOSED.addr = 0 ∧ s.allDisabled l = true) ∧
    (∃ (s : State) (l : Lane), s.Takes l 65600 ∧ s.flag l F.CE_CTRL_RUN = false ∧ s.allDisabled l = true) ∧
    (∃ (s : State) (l : Lane), s.Takes l 65616) ∧
    (∃ (s : State) (l : Lane), s.Takes l 65620) ∧
    (∃ (s : State) (l : Lane), s.Takes l 65628) ∧
    (∃ (s : State) (l : Lane), s.inReset l = false ∧ s.fld l F.CE_SP_STAT_SRC_ACT ≠ 0 ∧ s.flag l F.CE_SP_STAT_FAULT = false) ∧
    (∃ (s : State) (l : Lane) (t : Nat), s.inReset l = false ∧ (s.lane l).eng.pinRise = some t ∧
      (s.fld l F.CE_SP_STAT_SRC_ACT = 2 ∨ s.fld l F.CE_SP_STAT_SRC_ACT = 3)) :=
  ⟨⟨up, .A, ⟨by decide +kernel, by decide +kernel⟩, by decide +kernel⟩,
  ⟨upA F.CE_CTRL_RUN 0, .A, ⟨by decide +kernel, by decide +kernel⟩, by decide +kernel⟩,
  ⟨up, .A, ⟨by decide +kernel, by decide +kernel⟩⟩,
  ⟨up.putWord .A F.CE_LOOP_STAT_CLOSED.addr 0x2, .A, ⟨by decide +kernel, by decide +kernel⟩⟩,
  ⟨up, .A, ⟨by decide +kernel, by decide +kernel⟩⟩,
  ⟨upA F.CE_SP_STAT_SRC_ACT 4, .A, by decide +kernel⟩,
  ⟨(upA F.CE_SP_STAT_SRC_ACT 2).modEng .A (fun e => { e with pinRise := some 0 }), .A, 0, by decide +kernel⟩⟩

/-- The hypotheses of ExchangeLockAndRate, clause by clause, meet in these states and operands. -/
theorem witness_ExchangeLockAndRate :
    (∃ (s : State) (l : Lane), s.inReset l = false ∧ s.linkUp l = true) ∧
    (∃ (s : State) (l : Lane), s.inReset l = false ∧ 3 ≤ s.fld l F.TRC_MISS_CONSEC ∧ s.flag l F.TRC_STAT_DEC_MODEL = false ∧
      s.present l E.TRC_DEC_MODEL = false) ∧
    (∃ (s : State) (l : Lane), s.inReset l = false ∧ 6 ≤ (s.lane l).eng.okRun ∧ s.flag l F.TRC_STAT_DEC_MODEL = true ∧
      s.present l E.TRC_DEC_RESTORED = false) ∧
    (∃ (s : State) (l : Lane), s.inReset l = false ∧ s.flag l F.CLK_STAT_PEER_LOCK = true ∧ s.present l E.CONJ_LOCK_LOST = false) ∧
    (∃ (s : State) (l : Lane), s.inReset l = false ∧ s.flag l F.CLK_STAT_PEER_LOCK = false ∧ s.present l E.CONJ_LOCK = false) ∧
    (∃ (s : State) (l : Lane), s.inReset l = false ∧ s.flag Lane.B F.TRC_STAT_ALIGNING = true) ∧
    (∃ (s : State) (l : Lane) (alt : Bool), s.inReset l = false ∧ s.Takes l 131144 ∧ (alt = true → s.fld l F.TRC_PWM_FSW_ALT ≠ 0) ∧
      s.rateOk l (if alt = true then s.fld l F.TRC_PWM_FSW_ALT else s.fld l F.TRC_PWM_FSW) (s.flag l F.TRC_SET_UPD) = true) ∧
    (∃ (s : State) (l : Lane) (alt : Bool), s.inReset l = false ∧ s.flag Lane.B F.TRC_STAT_ALIGNING = false ∧
      (s.lane l).eng.altWait = some alt) ∧
    (∃ (s : State) (l : Lane), s.inReset l = false ∧ s.fld l F.TRC_SET_VLIM_N ≤ (s.lane l).eng.vlimRun ∧ s.present l E.TRC_VLIM = false) ∧
    (∃ (s : State) (l : Lane), s.inReset l = false ∧ s.Takes l 135272) ∧
    (∃ (s : State) (l : Lane), s.inReset l = false ∧ (s.lane l).boot.phase = Boot.ready ∧ s.failed l = false) :=
  ⟨⟨up, .A, by decide +kernel⟩,
  ⟨upA F.TRC_MISS_CONSEC 3, .A, by decide +kernel⟩,
  ⟨(upA F.TRC_STAT_DEC_MODEL 1).modEng .A (fun e => { e with okRun := 6 }), .A, by decide +kernel⟩,
  ⟨upA F.CLK_STAT_PEER_LOCK 1, .A, by decide +kernel⟩,
  ⟨up, .A, by decide +kernel⟩,
  ⟨upB F.TRC_STAT_ALIGNING 1, .A, by decide +kernel⟩,
  ⟨up, .A, false, by decide +kernel, ⟨by decide +kernel, by decide +kernel⟩, by decide +kernel⟩,
  ⟨up.modEng .A (fun e => { e with altWait := some false }), .A, false, by decide +kernel⟩,
  ⟨up.modEng .A (fun e => { e with vlimRun := 4 }), .A, by decide +kernel⟩,
  ⟨up, .A, by decide +kernel, ⟨by decide +kernel, by decide +kernel⟩⟩,
  ⟨up, .A, by decide +kernel⟩⟩

/-- The hypotheses of PositionSensors, clause by clause, meet in these states and operands. -/
theorem witness_PositionSensors :
    (∃ (s : State) (l : Lane) (pa : Bool) (pb : Bool), s.inReset l = false ∧ (pa != (s.lane l).fbk.pa) ≠ (pb != (s.lane l).fbk.pb)) ∧
    (∃ (s : State) (l : Lane), s.inReset l = false ∧ s.flag l F.FBK_ENC_CFG_IDX_EN = true) ∧
    (∃ (s : State) (l : Lane) (h : BitVec 3) (k : Nat), s.inReset l = false ∧ hallSector (s.flag l F.FBK_HALL_CFG_SEQ) h = some k ∧
      (s.lane l).fbk.sector = none) ∧
    (∃ (s : State) (l : Lane) (h : BitVec 3), s.inReset l = false ∧ (h = 0 ∨ h = 7)) ∧
    (∃ (s : State) (l : Lane), s.inReset l = false ∧ (s.lane l).fbk.ssiBusy = false ∧ (s.lane l).fbk.ssiFree ≤ s.time) ∧
    (∃ (s : State) (l : Lane), s.inReset l = false ∧ (s.lane l).fbk.ssiBusy = true ∧ s.flag l F.FBK_SSI_CFG_ERRB = false ∧
      s.flag l F.FBK_SSI_CFG_PAR = false ∧ s.flag l F.FBK_SSI_CFG_GRAY = false) :=
  ⟨⟨up, .A, true, false, by decide +kernel⟩,
  ⟨upA F.FBK_ENC_CFG_IDX_EN 1, .A, by decide +kernel⟩,
  ⟨up, .A, 1, 0, by decide +kernel⟩,
  ⟨up, .A, 7, by decide +kernel⟩,
  ⟨up, .A, by decide +kernel⟩,
  ⟨up.modFbk .A (fun f => { f with ssiBusy := true }), .A, by decide +kernel⟩⟩

/-- The hypotheses of PositionSourcesAndClears, clause by clause, meet in these states and operands. -/
theorem witness_PositionSourcesAndClears :
    (∃ (s : State) (l : Lane) (x : Src), s.inReset l = false ∧ s.stale l x s.time = true) ∧
    (∃ (s : State) (l : Lane) (p : Src) (q : Src), s.inReset l = false ∧ srcOfCode (s.fld l F.FBK_SEL_PRIM) = some p ∧
      srcOfCode (s.fld l F.FBK_SEL_SEC) = some q ∧ s.fld l F.FBK_CHK_CFG_POS_N ≤ (s.lane l).fbk.posBad) ∧
    (∃ (s : State) (l : Lane) (x : Src), s.inReset l = false ∧ (s.lane l).fbk.qual.getLsbD x.idx = true) ∧
    (∃ (s : State) (l : Lane), s.inReset l = false ∧ s.Takes l 147544) ∧
    (∃ (s : State) (l : Lane), s.inReset l = false ∧ s.Takes l 151660) :=
  ⟨⟨{ up with time := 80000000 }.modFbk .A (fun f => { f with ssi := [(5, 0)] }), .A, .ssi, by decide +kernel⟩,
  ⟨((upA F.FBK_SEL_PRIM 1).put .A F.FBK_SEL_SEC 2).modFbk .A (fun f => { f with posBad := 3 }), .A, .res, .enc, by decide +kernel⟩,
  ⟨up.modFbk .A (fun f => { f with qual := 0x1F }), .A, .res, by decide +kernel⟩,
  ⟨up, .A, by decide +kernel, ⟨by decide +kernel, by decide +kernel⟩⟩,
  ⟨up, .A, by decide +kernel, ⟨by decide +kernel, by decide +kernel⟩⟩⟩

/-- The hypotheses of ConversionsAndSenseStreams, clause by clause, meet in these states and operands. -/
theorem witness_ConversionsAndSenseStreams :
    (∃ (s : State) (l : Lane) (n : Fin 24), s.inReset l = false ∧ s.flag l (F.SMP_IN_CFG_USED n.val) = true) ∧
    (∃ (s : State) (l : Lane) (high : Bool) (code : BitVec 16), s.inReset l = false ∧ refOff high code.toNat = true) ∧
    (∃ (s : State) (l : Lane) (high : Bool) (code : BitVec 16), s.inReset l = false ∧ refOff high code.toNat = false) ∧
    (∃ (s : State) (l : Lane) (m : Fin 7), s.inReset l = false ∧ decodes l m.val = true ∧ (s.lane l).smp.skip[m] = 0) ∧
    (∃ (s : State) (l : Lane) (m : Fin 7), s.inReset l = false ∧ decodes l m.val = true ∧ (s.lane l).smp.skip[m] ≠ 0) ∧
    (∃ (s : State) (l : Lane) (k : Lane), s.inReset l = false ∧ s.inReset k = false ∧ s.fld k F.SMP_SNSCHK_DIS_N ≤ (s.lane k).smp.dis) ∧
    (∃ (s : State) (m : Fin 7) (toB : Bool), 3 ≤ m.val ∧ s.mfld (F.SNS_CFG_CLK_SEL m.val) = 0 ∧ s.sns[m].clkB ≠ toB) ∧
    (∃ (s : State), s.mon.alive = true ∧ s.present Lane.A E.MON_DCL_DISAGREE = false) :=
  ⟨⟨up, .A, 0, by decide +kernel⟩,
  ⟨up, .A, true, 0, by decide +kernel⟩,
  ⟨up, .A, false, 5958, by decide +kernel⟩,
  ⟨up, .A, 0, by decide +kernel⟩,
  ⟨up.modSmp .A (fun x => { x with skip := x.skip.set 0 1 }), .A, 0, by decide +kernel⟩,
  ⟨up.modSmp .A (fun x => { x with dis := 16 }), .A, .A, by decide +kernel⟩,
  ⟨up, 3, true, by decide +kernel⟩,
  ⟨up, by decide +kernel⟩⟩

/-- The hypotheses of CalibrationAndSensingClears, clause by clause, meet in these states and operands. -/
theorem witness_CalibrationAndSensingClears :
    (∃ (s : State) (l : Lane) (mask : BitVec 24), s.Takes l 163920 ∧ mask.getLsbD 12 = false ∧
      (∀ (n : Nat) (ls : List Nat) (cs : List (Fin 34)), mask.getLsbD n = true → inputLoop l n = some (ls, cs) → (∀ (k : Nat),
      k ∈ ls → s.loopClosed l k = false) ∧ ∀ (c : Fin 34), c ∈ cs → s.hv[c].outOn = true → s.hvOwner c ≠ l)) ∧
    (∃ (s : State) (l : Lane), s.inReset l = false ∧ s.flag l F.SMP_STAT_CAL_BUSY = true ∧ s.present l E.SMP_CAL_DONE = false) ∧
    (∃ (s : State) (l : Lane), s.Takes l 163924) :=
  ⟨⟨up, .A, 1, ⟨by decide +kernel, by decide +kernel⟩, by decide +kernel, cal_loops⟩,
  ⟨upA F.SMP_STAT_CAL_BUSY 1, .A, by decide +kernel⟩,
  ⟨up, .A, ⟨by decide +kernel, by decide +kernel⟩⟩⟩

/-- The hypotheses of TractionCommands, clause by clause, meet in these states and operands. -/
theorem witness_TractionCommands :
    (∃ (s : State) (l : Lane), s.Takes l 139328 ∧ s.smIgnores l = false ∧ s.canEnable l = true ∧ s.geomOk l = true) ∧
    (∃ (s : State) (l : Lane), s.Takes l 139328 ∧ s.smIgnores l = false ∧ s.sm l = 1) ∧
    (∃ (s : State) (l : Lane), s.Takes l 139328 ∧ s.smIgnores l = false ∧ (s.sm l = 5 ∨ s.sm l = 6)) ∧
    (∃ (s : State) (l : Lane), s.Takes l 139328 ∧ s.smIgnores l = false ∧ s.sm l = 6 ∧
      fLe (s.word l F.TRC_BRAKE_CFG_BRAKE_MIN.addr) (fAbs (s.word l F.FBK_SPEED_SPEED.addr)) = true) ∧
    (∃ (s : State) (l : Lane), s.Takes l 139328 ∧ s.smIgnores l = false ∧ s.sm l = 8) ∧
    (∃ (s : State) (l : Lane), s.Takes l 139328 ∧ s.smIgnores l = false ∧ s.sm l ≠ 0) ∧
    (∃ (s : State) (l : Lane), s.Takes l 139328 ∧ s.smIgnores l = false ∧ s.sm l = 9 ∧
      s.causeStill l (s.fld l F.TRC_SM_STAT_CAUSE) = false) ∧
    (∃ (s : State) (l : Lane), s.Takes l 139328 ∧ s.smIgnores l = false ∧ s.sm l ≠ 1) ∧
    (∃ (s : State) (l : Lane), s.Takes l 139328 ∧ s.smIgnores l = false ∧ s.sm l ≠ 5 ∧ s.sm l ≠ 6) :=
  ⟨⟨table.modEng .A (fun e => { e with peerGeom := some (up.geom .A) }), .A, ⟨by decide +kernel, by decide +kernel⟩,
    by decide +kernel⟩,
  ⟨upA F.TRC_SM_STAT_STATE 1, .A, ⟨by decide +kernel, by decide +kernel⟩, by decide +kernel⟩,
  ⟨upA F.TRC_SM_STAT_STATE 6, .A, ⟨by decide +kernel, by decide +kernel⟩, by decide +kernel⟩,
  ⟨(upA F.TRC_SM_STAT_STATE 6).putWord .A F.FBK_SPEED_SPEED.addr 0x467F8000, .A, ⟨by decide +kernel, by decide +kernel⟩,
    by decide +kernel⟩,
  ⟨upA F.TRC_SM_STAT_STATE 8, .A, ⟨by decide +kernel, by decide +kernel⟩, by decide +kernel⟩,
  ⟨upA F.TRC_SM_STAT_STATE 9, .A, ⟨by decide +kernel, by decide +kernel⟩, by decide +kernel⟩,
  ⟨(upA F.TRC_SM_STAT_STATE 9).put .A F.TRC_SM_STAT_CAUSE 1, .A, ⟨by decide +kernel, by decide +kernel⟩, by decide +kernel⟩,
  ⟨up, .A, ⟨by decide +kernel, by decide +kernel⟩, by decide +kernel⟩,
  ⟨upA F.TRC_SM_STAT_STATE 7, .A, ⟨by decide +kernel, by decide +kernel⟩, by decide +kernel⟩⟩

/-- The hypotheses of TractionTransitions, clause by clause, meet in these states and operands. -/
theorem witness_TractionTransitions :
    (∃ (s : State) (l : Lane), s.inReset l = false ∧ s.sm l = 2) ∧
    (∃ (s : State) (l : Lane), s.inReset l = false ∧ s.sm l = 3 ∧ (s.lane l).trc.polPairs < 3) ∧
    (∃ (s : State) (l : Lane), s.inReset l = false ∧ s.sm l = 3 ∧ 3 ≤ (s.lane l).trc.polPairs) ∧
    (∃ (s : State) (l : Lane), s.inReset l = false ∧ s.sm l = 4) ∧
    (∃ (s : State) (l : Lane), s.inReset l = false ∧ s.sm l = 5 ∧ 16 ≤ (s.lane l).trc.startCnt) ∧
    (∃ (s : State) (l : Lane), s.inReset l = false ∧ s.sm l = 7 ∧ (s.lane l).trc.rampIn = 0) ∧
    (∃ (s : State) (l : Lane), s.inReset l = false ∧ s.fld l F.FBK_STAT_ACT = 5 ∧
      (fLt (fFrac 1 2) (mw (s.lane l).mem (b10Wire 133)) = false ∨ s.fld l F.TRC_OBS_CFG_ORES_N ≤ (s.lane l).trc.oresCnt)) ∧
    (∃ (s : State) (l : Lane), s.inReset l = false ∧ s.sm l = 6 ∧ s.flag l F.TRC_SM_STAT_STALL_DER = false) :=
  ⟨⟨upA F.TRC_SM_STAT_STATE 2, .A, by decide +kernel⟩,
  ⟨(upA F.TRC_SM_STAT_STATE 3).modTrc .A (fun t => { t with polPairs := 2 }), .A, by decide +kernel⟩,
  ⟨(upA F.TRC_SM_STAT_STATE 3).modTrc .A (fun t => { t with polPairs := 3 }), .A, by decide +kernel⟩,
  ⟨upA F.TRC_SM_STAT_STATE 4, .A, by decide +kernel⟩,
  ⟨(upA F.TRC_SM_STAT_STATE 5).modTrc .A (fun t => { t with startCnt := 16 }), .A, by decide +kernel⟩,
  ⟨(upA F.TRC_SM_STAT_STATE 7).modTrc .A (fun t => { t with rampIn := 0 }), .A, by decide +kernel⟩,
  ⟨upA F.FBK_STAT_ACT 5, .A, by decide +kernel⟩,
  ⟨upA F.TRC_SM_STAT_STATE 6, .A, by decide +kernel⟩⟩

/-- The hypotheses of SafeStateSelection, clause by clause, meet in these states and operands. -/
theorem witness_SafeStateSelection :
    (∃ (s : State), s.mon.alive = true ∧ s.mon.sst.lost[0] = false ∧ s.mon.sst.lost[1] = false) ∧
    (∃ (s : State), s.mon.alive = true ∧ s.mon.sst.lost[0] = true ∧ s.mon.sst.lost[1] = true) ∧
    (∃ (s : State), s.mon.alive = true ∧ s.mfld F.MON_SST_CFG2_TACH_PPR ≠ 0) :=
  ⟨⟨up, by decide +kernel⟩,
  ⟨up.modMon (fun m => { m with sst := { m.sst with lost := #v[true, true] } }), by decide +kernel⟩,
  ⟨upA F.MON_SST_CFG2_TACH_PPR 60, by decide +kernel⟩⟩

/-- The hypotheses of ConverterWritesAndCommands, clause by clause, meet in these states and operands. -/
theorem witness_ConverterWritesAndCommands :
    (∃ (s : State) (l : Lane) (q : Option Req) (w : Word), s.Serves l 458820 q ∧ fFinite w = true) ∧
    (∃ (s : State) (l : Lane) (q : Option Req), s.Serves l 458816 q ∧ s.word l 458816 &&& 76 = 0 ∧ s.fld l F.DCL_CTRL_TRACK ≤ 2 ∧
      s.dclCanEnable l = true ∧ s.fld l F.DCL_STAT_STATE = 0) ∧
    (∃ (s : State) (l : Lane) (q : Option Req), s.Serves l 458816 q ∧ s.word l 458816 &&& 76 = 0 ∧ s.fld l F.DCL_CTRL_TRACK ≤ 2 ∧
      s.flag l F.DCL_CTRL_EN = true ∧ (s.fld l F.DCL_STAT_STATE = 1 ∨ s.fld l F.DCL_STAT_STATE = 2)) ∧
    (∃ (s : State) (l : Lane) (q : Option Req) (m : Fin 4), s.Serves l 458876 q ∧ phaseLane (m.val + 1) = l ∧
      s.phaseStopped l (m.val + 1) = true ∧ s.phaseCauseGone l (m.val + 1) = true) :=
  ⟨⟨up, .A, none, 0x44480000, ⟨⟨by decide +kernel, by decide +kernel⟩, fun k => by cases k <;> decide, by decide +kernel, trivial⟩,
    by decide +kernel⟩,
  ⟨(upB F.DCL_STAT_SRC 1).modEng .B (fun e => { e with exch := (List.range 16).map (fun k => if k == 9 then 0x44480000 else if k == 10 then 0x44480000 else 0) }),
    .B, none, ⟨⟨by decide +kernel, by decide +kernel⟩, fun k => by cases k <;> decide, by decide +kernel, trivial⟩,
    by decide +kernel⟩,
  ⟨(upA F.DCL_CTRL_EN 1).put .A F.DCL_STAT_STATE 2, .A, none, ⟨⟨by decide +kernel, by decide +kernel⟩,
    fun k => by cases k <;> decide, by decide +kernel, trivial⟩, by decide +kernel⟩,
  ⟨up.putWord .A F.DCL_STAT_ACT.addr 0x00200000, .A, none, 1, ⟨⟨by decide +kernel, by decide +kernel⟩,
    fun k => by cases k <;> decide, by decide +kernel, trivial⟩, by decide +kernel⟩⟩

/-- The hypotheses of ConverterRunsDown, clause by clause, meet in these states and operands. -/
theorem witness_ConverterRunsDown :
    (∃ (s : State) (l : Lane), s.inReset l = false ∧ s.fld l F.DCL_STAT_STATE = 3) ∧
    (∃ (s : State) (m : Nat), s.shedMay = true ∧ (s.lane Lane.A).dcl.leaving = none ∧ s.fld Lane.A F.DCL_SHED_MIN_M1 + 1 < s.activeAll ∧
      s.nextToShed = some m) ∧
    (∃ (s : State) (m : Nat), (s.lane Lane.A).dcl.leaving = some m) ∧
    (∃ (s : State) (l : Lane), s.inReset l = false ∧ s.linkUp l = true) ∧
    (∃ (s : State) (l : Lane), s.inReset l = false ∧ s.flag l F.DCL_STAT_OV = true ∧ s.fld l F.DCL_STAT_STATE ≠ 0) ∧
    (∃ (s : State), s.pgDclOk = true) :=
  ⟨⟨upA F.DCL_STAT_STATE 3, .A, by decide +kernel⟩,
  ⟨up.both (fun l s => ((s.putWord l F.DCL_STAT_ACT.addr 0x2F000000).putFlag l F.CLK_STAT_PEER_LOCK true).putFlag l F.DCL_CTRL_SHED_EN true),
    4, by decide +kernel⟩,
  ⟨up.modDcl .A (fun d => { d with leaving := some 4 }), 4, by decide +kernel⟩,
  ⟨up, .A, by decide +kernel⟩,
  ⟨(upA F.DCL_STAT_OV 1).put .A F.DCL_STAT_STATE 2, .A, by decide +kernel⟩,
  ⟨((upA F.MON_PG_DCL_PG_EN 1).modMon (fun m => { m with hb := ⟨some ({ dclState := 2 }, 0), some ({ dclState := 2 }, 0)⟩ })),
    by decide +kernel⟩⟩

/-- The hypotheses of ChargerPilots, clause by clause, meet in these states and operands. -/
theorem witness_ChargerPilots :
    (∃ (s : State) (l : Lane), s.inReset l = false ∧ s.flag l F.SAF_CFG_NO_CHG = false) ∧
    (∃ (s : State), s.mon.alive = true ∧ s.mon.holdIl = true ∧ (∀ (l : Lane), (s.lane l).saf.connector = false)) ∧
    (∃ (s : State), (s.lane Lane.A).saf.connector ≠ (s.lane Lane.B).saf.connector) :=
  ⟨⟨up, .A, by decide +kernel⟩,
  ⟨up.modMon (fun m => { m with holdIl := true }), by decide +kernel, by decide +kernel, fun k => by cases k <;> decide⟩,
  ⟨up.modSaf .A (fun x => { x with connector := true }), by decide +kernel⟩⟩

/-- The hypotheses of ChargerSequence, clause by clause, meet in these states and operands. -/
theorem witness_ChargerSequence :
    (∃ (s : State) (l : Lane), s.inReset l = false ∧ s.holdsAny l = true ∧ s.fld l F.CHG_STAT_STATE = 2) ∧
    (∃ (s : State) (l : Lane), s.inReset l = false ∧ s.holdsAny l = true ∧ s.fld l F.CHG_STAT_STATE = 3) ∧
    (∃ (s : State) (l : Lane) (n : Fin 6) (closed : Bool) (k : BitVec 6), s.inReset l = false ∧ s.holdsAny l = true ∧
      k = if closed = true then s.aon.kfb ||| kBit n.val else s.aon.kfb &&& ~~~kBit n.val) ∧
    (∃ (s : State) (l : Lane), s.inReset l = false ∧ s.holdsAny l = true ∧ s.fld l F.CHG_STAT_STATE = 5) ∧
    (∃ (s : State) (l : Lane), s.inReset l = false ∧ s.holdsAny l = true ∧ s.fld l F.CHG_STAT_STATE = 7) ∧
    (∃ (s : State) (l : Lane) (k4 : Bool) (closed : Bool), s.inReset l = false ∧ s.holdsAny l = true ∧
      s.aon.k.getLsbD (if k4 = true then 4 else 3) ≠ closed) ∧
    (∃ (s : State), s.flag s.token F.CHG_STAT_S2 = false) ∧
    (∃ (s : State), s.pgAfeOk = true) ∧
    (∃ (s : State), s.pgDabOk = true) :=
  ⟨⟨upA F.CHG_STAT_STATE 2, .A, by decide +kernel⟩,
  ⟨upA F.CHG_STAT_STATE 3, .A, by decide +kernel⟩,
  ⟨upA F.CHG_STAT_STATE 4, .A, 3, true, 8, by decide +kernel⟩,
  ⟨upA F.CHG_STAT_STATE 5, .A, by decide +kernel⟩,
  ⟨upA F.CHG_STAT_STATE 7, .A, by decide +kernel⟩,
  ⟨upA F.CHG_STAT_STATE 6, .A, false, true, by decide +kernel⟩,
  ⟨up, by decide +kernel⟩,
  ⟨afeUp, afeUp_ok⟩,
  ⟨(upA F.MON_PG_CHG_DAB_EN 1).modMon (fun m => { m with hb := ⟨some ({ dabState := 3 }, 0), none⟩ }), by decide +kernel⟩⟩

/-- The hypotheses of ChargerGrid, clause by clause, meet in these states and operands. -/
theorem witness_ChargerGrid :
    (∃ (s : State) (l : Lane) (r : Nat), s.inReset l = false ∧ s.holdsAny l = true ∧ r < 850 ∧
      (s.fld l F.CHG_STAT_STATE = 5 ∨ s.fld l F.CHG_STAT_STATE = 6)) ∧
    (∃ (s : State) (l : Lane) (t : GridTrip), s.inReset l = false ∧ s.holdsAny l = true ∧ s.v2l l = false ∧
      (s.fld l F.CHG_STAT_STATE = 6 ∨ 3 ≤ s.fld l F.CHG_STAT_STATE ∧ s.fld l F.CHG_STAT_STATE ≤ 6 ∧ t ≠ GridTrip.unlock ∧
      t ≠ GridTrip.busLow)) ∧
    (∃ (s : State) (l : Lane), s.inReset l = false ∧ s.holdsAny l = true ∧ s.fld l F.CHG_STAT_STATE = 8 ∧ s.aon.kfb.getLsbD 3 = false ∧
      s.aon.kfb.getLsbD 4 = false ∧ (s.lane l).chg.tripped = true ∧ s.fld l F.CHG_STAT_CP = 2 ∧ s.flag l F.CHG_CTRL_EN = true ∧
      s.flag l F.CHG_STAT_S2 = true) ∧
    (∃ (s : State) (l : Lane), s.inReset l = false ∧ s.holdsAny l = true ∧ s.fld l F.CHG_STAT_STATE = 6 ∧ s.fld l F.CHG_CTRL_MODE = 2 ∧
      fLt (s.lane l).chg.ibat 0 = true) ∧
    (∃ (s : State) (l : Lane), s.inReset l = false ∧ s.holdsAny l = true ∧ s.fld l F.CHG_STAT_STATE = 10) :=
  ⟨⟨upA F.CHG_STAT_STATE 6, .A, 849, by decide +kernel⟩,
  ⟨upA F.CHG_STAT_STATE 6, .A, .unlock, by decide +kernel⟩,
  ⟨((((upA F.CHG_STAT_STATE 8).put .A F.CHG_STAT_CP 2).put .A F.CHG_CTRL_EN 1).put .A F.CHG_STAT_S2 1).modChg .A (fun x => { x with tripped := true }),
    .A, by decide +kernel⟩,
  ⟨((upA F.CHG_STAT_STATE 6).put .A F.CHG_CTRL_MODE 2).modChg .A (fun x => { x with ibat := 0xC1200000 }), .A, by decide +kernel⟩,
  ⟨upA F.CHG_STAT_STATE 10, .A, by decide +kernel⟩⟩

/-- The hypotheses of ChargerClears, clause by clause, meet in these states and operands. -/
theorem witness_ChargerClears :
    (∃ (s : State) (l : Lane) (q : Option Req), s.Serves l 471156 q ∧ s.hvOwner 20 = l ∧ s.fld l F.CHG_STAT_STATE = 9 ∧
      s.chgCauseGone l = true) ∧
    (∃ (s : State) (l : Lane) (q : Option Req), s.Serves l 462944 q ∧ s.hvOwner 20 = l) ∧
    (∃ (s : State) (l : Lane) (q : Option Req), s.Serves l 467028 q ∧ s.hvOwner 26 = l) :=
  ⟨⟨upA F.CHG_STAT_STATE 9, .A, none, ⟨⟨by decide +kernel, by decide +kernel⟩, fun k => by cases k <;> decide, by decide +kernel,
    trivial⟩, by decide +kernel⟩,
  ⟨up, .A, none, ⟨⟨by decide +kernel, by decide +kernel⟩, fun k => by cases k <;> decide, by decide +kernel, trivial⟩,
    by decide +kernel⟩,
  ⟨up, .A, none, ⟨⟨by decide +kernel, by decide +kernel⟩, fun k => by cases k <;> decide, by decide +kernel, trivial⟩,
    by decide +kernel⟩⟩

/-- The hypotheses of ActuatorCommands, clause by clause, meet in these states and operands. -/
theorem witness_ActuatorCommands :
    (∃ (s : State) (l : Lane) (a : Fin 2) (q : Option Req), s.Serves l (475232 + a.val * 64) q ∧ s.lvOwner 0 = l ∧
      s.fld l (F.ACT_STAT_STATE a.val) = 0 ∧ s.vlvOk l = true ∧ s.enableRefused l = false ∧ s.flag l (F.ACT_STAT_REF a.val) = true) ∧
    (∃ (s : State) (l : Lane) (a : Fin 2) (q : Option Req), s.Serves l (475232 + a.val * 64) q ∧ s.lvOwner 0 = l ∧
      s.fld l (F.ACT_STAT_STATE a.val) = 0 ∧ s.vlvOk l = true ∧ s.enableRefused l = false ∧ s.fld l (F.ACT_END_TRAVEL a.val) ≠ 0) ∧
    (∃ (s : State) (l : Lane) (a : Fin 2) (q : Option Req), s.Serves l (475232 + a.val * 64) q ∧ s.lvOwner 0 = l ∧ s.vlvOk l = true ∧
      s.actDriven l a = true) ∧
    (∃ (s : State) (l : Lane) (a : Fin 2) (q : Option Req), s.Serves l (475232 + a.val * 64) q ∧ s.lvOwner 0 = l ∧
      s.fld l (F.ACT_STAT_STATE a.val) ≠ 6) ∧
    (∃ (s : State) (l : Lane) (a : Fin 2) (q : Option Req), s.Serves l (475232 + a.val * 64) q ∧ s.lvOwner 0 = l ∧
      s.fld l (F.ACT_STAT_STATE a.val) = 6 ∧ s.actCauseGone l a = true) ∧
    (∃ (s : State) (l : Lane) (a : Fin 2) (q : Option Req), s.Serves l (475252 + a.val * 64) q) :=
  ⟨⟨upA (F.ACT_STAT_REF 0) 1, .A, 0, none, ⟨⟨by decide +kernel, by decide +kernel⟩, fun k => by cases k <;> decide,
    by decide +kernel, trivial⟩, by decide +kernel⟩,
  ⟨upA (F.ACT_END_TRAVEL 1) 1, .A, 1, none, ⟨⟨by decide +kernel, by decide +kernel⟩, fun k => by cases k <;> decide,
    by decide +kernel, trivial⟩, by decide +kernel⟩,
  ⟨upA (F.ACT_STAT_STATE 0) 4, .A, 0, none, ⟨⟨by decide +kernel, by decide +kernel⟩, fun k => by cases k <;> decide,
    by decide +kernel, trivial⟩, by decide +kernel⟩,
  ⟨upA (F.ACT_STAT_STATE 0) 1, .A, 0, none, ⟨⟨by decide +kernel, by decide +kernel⟩, fun k => by cases k <;> decide,
    by decide +kernel, trivial⟩, by decide +kernel⟩,
  ⟨upA (F.ACT_STAT_STATE 1) 6, .A, 1, none, ⟨⟨by decide +kernel, by decide +kernel⟩, fun k => by cases k <;> decide,
    by decide +kernel, trivial⟩, by decide +kernel⟩,
  ⟨up, .B, 1, none, ⟨⟨by decide +kernel, by decide +kernel⟩, fun k => by cases k <;> decide, by decide +kernel, trivial⟩⟩⟩

/-- The hypotheses of ActuatorEvents, clause by clause, meet in these states and operands. -/
theorem witness_ActuatorEvents :
    (∃ (s : State) (l : Lane) (a : Fin 2) (h : BitVec 3) (k : Nat), s.inReset l = false ∧
      hallSector (s.flag l (F.ACT_CFG_SEQ a.val)) h = some k ∧ (s.lane l).act[a].sector = none) ∧
    (∃ (s : State) (l : Lane) (a : Fin 2) (h : BitVec 3) (k : Nat) (j : Nat), s.inReset l = false ∧
      hallSector (s.flag l (F.ACT_CFG_SEQ a.val)) h = some k ∧ (s.lane l).act[a].sector = some j ∧ k = (j + 1) % 6 ∧ k ≠ j) ∧
    (∃ (s : State) (l : Lane) (a : Fin 2) (h : BitVec 3) (k : Nat) (j : Nat), s.inReset l = false ∧
      hallSector (s.flag l (F.ACT_CFG_SEQ a.val)) h = some k ∧ (s.lane l).act[a].sector = some j ∧ j = (k + 1) % 6) ∧
    (∃ (s : State) (l : Lane) (a : Fin 2) (h : BitVec 3), s.inReset l = false ∧ hallSector (s.flag l (F.ACT_CFG_SEQ a.val)) h = none) ∧
    (∃ (s : State) (l : Lane) (a : Fin 2), s.inReset l = false ∧ s.actOwner l a = true ∧ s.fld l (F.ACT_STAT_STATE a.val) = 2 ∧
      fLt (s.actDuty l a) 0 = true) ∧
    (∃ (s : State) (l : Lane) (a : Fin 2), s.inReset l = false ∧ s.actOwner l a = true ∧ s.fld l (F.ACT_STAT_STATE a.val) = 1 ∧
      fLt (s.actDuty l a) 0 = false) ∧
    (∃ (s : State) (l : Lane) (a : Fin 2), s.inReset l = false ∧ s.actOwner l a = true ∧ s.fld l (F.ACT_STAT_STATE a.val) = 3) ∧
    (∃ (s : State) (l : Lane) (a : Fin 2), s.inReset l = false ∧ s.actOwner l a = true ∧ s.fld l (F.ACT_STAT_STATE a.val) = 4) ∧
    (∃ (s : State) (l : Lane) (a : Fin 2), s.inReset l = false ∧ s.actOwner l a = true ∧ s.fld l (F.ACT_STAT_STATE a.val) = 5) ∧
    (∃ (s : State) (l : Lane) (a : Fin 2), s.inReset l = false ∧ s.actOwner l a = true ∧ s.fld l (F.ACT_STAT_STATE a.val) = 1 ∧
      (s.actPos l a - ↑(s.fld l (F.ACT_TGT_TARGET a.val))).natAbs ≤ s.fld l (F.ACT_MOVE_POS_WIN a.val)) :=
  ⟨⟨up, .A, 0, 1, 0, by decide +kernel⟩,
  ⟨up.modAct .A 0 (fun x => { x with sector := some 0 }), .A, 0, 3, 1, 0, by decide +kernel⟩,
  ⟨up.modAct .A 0 (fun x => { x with sector := some 1 }), .A, 0, 1, 0, 1, by decide +kernel⟩,
  ⟨up, .A, 0, 7, by decide +kernel⟩,
  ⟨upA (F.ACT_STAT_STATE 0) 2, .A, 0, by decide +kernel⟩,
  ⟨upA (F.ACT_STAT_STATE 0) 1, .A, 0, by decide +kernel⟩,
  ⟨upA (F.ACT_STAT_STATE 0) 3, .A, 0, by decide +kernel⟩,
  ⟨upA (F.ACT_STAT_STATE 1) 4, .A, 1, by decide +kernel⟩,
  ⟨upA (F.ACT_STAT_STATE 1) 5, .A, 1, by decide +kernel⟩,
  ⟨upA (F.ACT_STAT_STATE 1) 1, .A, 1, by decide +kernel⟩⟩

/-- The hypotheses of SafeTorqueOff, clause by clause, meet in these states and operands. -/
theorem witness_SafeTorqueOff :
    (∃ (s : State), s.mon.alive = false) ∧
    (∃ (s : State), s.mon.alive = true ∧ s.aon.sto1 ≠ s.aon.sto2) ∧
    (∃ (s : State) (l : Lane), s.Takes l 589940) :=
  ⟨⟨up.modMon (fun m => { m with alive := false }), by decide +kernel⟩,
  ⟨up.modAon (fun a => { a with sto2 := false }), by decide +kernel⟩,
  ⟨up, .A, ⟨by decide +kernel, by decide +kernel⟩⟩⟩

/-- The hypotheses of SafeStopOneAndAcknowledgement, clause by clause, meet in these states and operands. -/
theorem witness_SafeStopOneAndAcknowledgement :
    (∃ (s : State) (l : Lane), s.Takes l 589940) ∧
    (∃ (s : State) (l : Lane), s.mon.alive = true ∧ s.mon.ss1 = true ∧ s.mon.sto = false ∧ s.counts l = true ∧ (∀ (k : Lane),
      s.counts k = true → (s.lane k).saf.rampDone = true)) ∧
    (∃ (s : State) (l : Lane), s.inReset l = false ∧ (s.lane l).red.ownSs1 = true ∧ (s.lane l).red.ownStop = none ∧
      (s.lane l).saf.rampDone = true) ∧
    (∃ (s : State) (l : Lane), s.inReset l = false ∧ (s.lane l).saf.cmdLost = true ∧ s.mon.alive = true ∧ s.mon.safState < 4) ∧
    (∃ (s : State) (l : Lane) (q : Option Req), s.Serves l 589940 q ∧ s.monOk l = true ∧ s.mon.alive = true ∧ s.counts l = true ∧
      s.counts l.other = false ∧ s.latched = true ∧ s.causePresent = false) ∧
    (∃ (s : State) (l : Lane) (q : Option Req), s.Serves l 589940 q ∧ s.monOk l = true ∧ s.mon.alive = true ∧ s.counts l.other = true ∧
      (List.filter (fun h => h.lane == l) s.mon.halves).length < 16 ∧ (∀ (h : Half),
      h ∈ s.mon.halves → h.lane = l.other → h.addr ≠ 589940)) ∧
    (∃ (s : State) (l : Lane) (q : Option Req), s.Serves l 589940 q ∧ s.monOk l = true ∧ s.mon.alive = true ∧ s.counts l.other = true ∧
      (List.filter (fun h => h.lane == l) s.mon.halves).length < 16 ∧ (∀ (h : Half),
      h ∈ s.mon.halves → h.lane = l.other → h.addr = 589940 → h.val = 1) ∧ (∃ h, h ∈ s.mon.halves ∧ h.lane = l.other ∧
      h.addr = 589940) ∧ s.latched = true ∧ s.causePresent = false) :=
  ⟨⟨up, .A, ⟨by decide +kernel, by decide +kernel⟩⟩,
  ⟨(up.modMon (fun m => { m with ss1 := true, safCause := 10 })).both (fun l s => s.modSaf l (fun x => { x with rampDone := true })),
    .A, by decide +kernel, by decide +kernel, by decide +kernel, by decide +kernel, fun k => by cases k <;> decide⟩,
  ⟨(up.modRed .A (fun r => { r with ownSs1 := true, ownCause := 10 })).modSaf .A (fun x => { x with rampDone := true }), .A,
    by decide +kernel⟩,
  ⟨up.modSaf .A (fun x => { x with cmdLost := true }), .A, by decide +kernel⟩,
  ⟨up.modMon (fun m => { m with sto := true, counted := ⟨true, false⟩ }), .A, none, ⟨⟨by decide +kernel, by decide +kernel⟩,
    fun k => by cases k <;> decide, by decide +kernel, trivial⟩, by decide +kernel⟩,
  ⟨up.modMon (fun m => { m with sto := true }), .A, some ⟨0, 1⟩, ⟨⟨by decide +kernel, by decide +kernel⟩,
    fun k => by cases k <;> decide, by decide +kernel, by decide +kernel, by decide +kernel, by decide +kernel⟩, by decide +kernel⟩,
  ⟨(halfUp .B 589940 1).modMon (fun m => { m with sto := true }), .A, none, ⟨⟨by decide +kernel, by decide +kernel⟩,
    fun k => by cases k <;> decide, by decide +kernel, trivial⟩, by decide +kernel⟩⟩

/-- The hypotheses of MonitorSupervision, clause by clause, meet in these states and operands. -/
theorem witness_MonitorSupervision :
    (∃ (s : State) (a : Word) (b : Word) (total : Word), s.mon.alive = true ∧ s.mon.tqCnt ≠ 0 ∧
      a = fDiv s.mon.tqSum.fst (fInt ↑s.mon.tqCnt) ∧ b = fDiv s.mon.tqSum.snd (fInt ↑s.mon.tqCnt) ∧
      total = fAdd (if s.heldAsc Lane.A = true then 0 else a) (if s.heldAsc Lane.B = true then 0 else b)) :=
  ⟨up.modMon (fun m => { m with tqCnt := 2, tqSum := (0x3F800000, 0x3F800000) }), fDiv 0x3F800000 (fInt 2),
    fDiv 0x3F800000 (fInt 2), fAdd (fDiv 0x3F800000 (fInt 2)) (fDiv 0x3F800000 (fInt 2)), by decide +kernel⟩

/-- The hypotheses of ContactorMonitoring, clause by clause, meet in these states and operands. -/
theorem witness_ContactorMonitoring :
    (∃ (s : State) (n : Fin 6) (closed : Bool), s.mon.alive = true ∧ s.mon.kTest[n].pulse = false ∧ s.mon.kTest[n].check = false ∧
      s.aon.k.getLsbD n.val ≠ closed) ∧
    (∃ (s : State) (n : Fin 6), s.mon.alive = true ∧ s.aon.nPor = false ∧
      bit (BitVec.ofNat 32 (s.safCfg F.SAF_K_CFG_TEST_EN)) n.val = true ∧ s.mon.kTest[n].pulse = false ∧
      s.mon.kTest[n].check = false ∧ (∀ (d : Nat), s.mon.kTest[n].lastDemand = some d → d + ms 10 ≤ s.time)) ∧
    (∃ (s : State) (n : Fin 6), s.mon.alive = true ∧ s.mon.kTest[n].pulse = true) ∧
    (∃ (s : State) (n : Fin 6), s.mon.alive = true ∧ s.mon.kTest[n].pulse = false ∧ s.mon.kTest[n].check = true) :=
  ⟨⟨up, 0, true, by decide +kernel⟩,
  ⟨(up.modMon (fun m => { m with regs := m.regs.write F.SAF_K_CFG_TEST_EN.addr 0xFC000000 })), 5, by decide +kernel⟩,
  ⟨up.modMon (fun m => { m with kTest := m.kTest.set 0 { pulse := true } }), 0, by decide +kernel⟩,
  ⟨up.modMon (fun m => { m with kTest := m.kTest.set 0 { check := true } }), 0, by decide +kernel⟩⟩

/-- The hypotheses of ClauseTelegramsReceived, clause by clause, meet in these states and operands. -/
theorem witness_ClauseTelegramsReceived :
    (∃ (s : State) (l : Lane) (n : Fin 8) (t : List Byte) (len : Nat) (good : Bool) (seq : Nat), s.ready l = true ∧
      s.flag l (F.CLS_CFG_EN n.val) = true ∧ s.flag l (F.CLS_CFG_DIR n.val) = false ∧ (s.lane l).cls[n].tel = some t ∧
      len = s.clsLen l n ∧ seq = bytesNat (List.take 2 (List.drop 1 t)) ∧
      good = decide ((clsCrc (wordBytes (s.clsIdent l n) ++ List.take (5 + len) t)).toNat = bytesNat (List.take 4 (List.drop (5 + len) t))) ∧
      9 + len ≤ t.length ∧ good = false) ∧
    (∃ (s : State) (l : Lane) (n : Fin 8) (t : List Byte) (len : Nat) (good : Bool) (seq : Nat), s.ready l = true ∧
      s.flag l (F.CLS_CFG_EN n.val) = true ∧ s.flag l (F.CLS_CFG_DIR n.val) = false ∧ (s.lane l).cls[n].tel = some t ∧
      len = s.clsLen l n ∧ seq = bytesNat (List.take 2 (List.drop 1 t)) ∧
      good = decide ((clsCrc (wordBytes (s.clsIdent l n) ++ List.take (5 + len) t)).toNat = bytesNat (List.take 4 (List.drop (5 + len) t))) ∧
      9 + len ≤ t.length ∧ good = true ∧ bytesNat (List.take 1 t) ≠ s.fld l (F.CLS_CFG_SID n.val)) ∧
    (∃ (s : State) (l : Lane) (n : Fin 8) (t : List Byte) (len : Nat) (good : Bool) (seq : Nat) (d : Nat), s.ready l = true ∧
      s.flag l (F.CLS_CFG_EN n.val) = true ∧ s.flag l (F.CLS_CFG_DIR n.val) = false ∧ (s.lane l).cls[n].tel = some t ∧
      len = s.clsLen l n ∧ seq = bytesNat (List.take 2 (List.drop 1 t)) ∧
      good = decide ((clsCrc (wordBytes (s.clsIdent l n) ++ List.take (5 + len) t)).toNat = bytesNat (List.take 4 (List.drop (5 + len) t))) ∧
      9 + len ≤ t.length ∧ good = true ∧ bytesNat (List.take 1 t) = s.fld l (F.CLS_CFG_SID n.val) ∧
      d = (seq + 65536 - s.fld l (F.CLS_STAT_SEQ n.val)) % 65536 ∧ (s.fld l (F.CLS_STAT_STATE n.val) ≤ 1 ∨ 1 ≤ d ∧
      d ≤ s.fld l (F.CLS_CFG_SEQ_WIN n.val))) ∧
    (∃ (s : State) (l : Lane) (n : Fin 8) (t : List Byte) (len : Nat) (good : Bool) (seq : Nat) (d : Nat), s.ready l = true ∧
      s.flag l (F.CLS_CFG_EN n.val) = true ∧ s.flag l (F.CLS_CFG_DIR n.val) = false ∧ (s.lane l).cls[n].tel = some t ∧
      len = s.clsLen l n ∧ seq = bytesNat (List.take 2 (List.drop 1 t)) ∧
      good = decide ((clsCrc (wordBytes (s.clsIdent l n) ++ List.take (5 + len) t)).toNat = bytesNat (List.take 4 (List.drop (5 + len) t))) ∧
      9 + len ≤ t.length ∧ good = true ∧ bytesNat (List.take 1 t) = s.fld l (F.CLS_CFG_SID n.val) ∧
      d = (seq + 65536 - s.fld l (F.CLS_STAT_SEQ n.val)) % 65536 ∧ 2 ≤ s.fld l (F.CLS_STAT_STATE n.val) ∧ d = 0) ∧
    (∃ (s : State) (l : Lane) (n : Fin 8) (t : List Byte) (len : Nat) (good : Bool) (seq : Nat) (d : Nat), s.ready l = true ∧
      s.flag l (F.CLS_CFG_EN n.val) = true ∧ s.flag l (F.CLS_CFG_DIR n.val) = false ∧ (s.lane l).cls[n].tel = some t ∧
      len = s.clsLen l n ∧ seq = bytesNat (List.take 2 (List.drop 1 t)) ∧
      good = decide ((clsCrc (wordBytes (s.clsIdent l n) ++ List.take (5 + len) t)).toNat = bytesNat (List.take 4 (List.drop (5 + len) t))) ∧
      9 + len ≤ t.length ∧ good = true ∧ bytesNat (List.take 1 t) = s.fld l (F.CLS_CFG_SID n.val) ∧
      d = (seq + 65536 - s.fld l (F.CLS_STAT_SEQ n.val)) % 65536 ∧ 2 ≤ s.fld l (F.CLS_STAT_STATE n.val) ∧
      s.fld l (F.CLS_CFG_SEQ_WIN n.val) < d ∧ d ≠ 0) ∧
    (∃ (s : State) (l : Lane) (n : Fin 8), s.ready l = true ∧ s.flag l (F.CLS_CFG_EN n.val) = true ∧
      s.flag l (F.CLS_CFG_DIR n.val) = false ∧ s.fld l (F.CLS_STAT_STATE n.val) = 2 ∧ (s.lane l).cls[n].wdog ≤ s.time) ∧
    (∃ (s : State), s.heard Lane.A = true ∧ s.heard Lane.B = true ∧ s.clsLane Lane.A ≠ s.clsLane Lane.B) :=
  ⟨⟨heardTel [0,1,0,1,0,1,2,3,4,9,9,9,9] 1, .A, 0, [0,1,0,1,0,1,2,3,4,9,9,9,9], 4, false, 1, by decide +kernel⟩,
  ⟨heardTel [5,1,0,1,0,1,2,3,4,26,62,249,20] 1, .A, 0, [5,1,0,1,0,1,2,3,4,26,62,249,20], 4, true, 1, by decide +kernel⟩,
  ⟨heardTel [0,1,0,1,0,1,2,3,4,15,230,201,185] 1, .A, 0, [0,1,0,1,0,1,2,3,4,15,230,201,185], 4, true, 1, 1, by decide +kernel⟩,
  ⟨heardTel [0,0,0,1,0,1,2,3,4,122,28,71,73] 2, .A, 0, [0,0,0,1,0,1,2,3,4,122,28,71,73], 4, true, 0, 0, by decide +kernel⟩,
  ⟨heardTel [0,4,0,1,0,1,2,3,4,16,33,0,168] 2, .A, 0, [0,4,0,1,0,1,2,3,4,16,33,0,168], 4, true, 4, 4, by decide +kernel⟩,
  ⟨heardTel [] 2, .A, 0, by decide +kernel⟩,
  ⟨(upA (F.CLS_CFG_EN 0) 1).put .A (F.CLS_STAT_STATE 0) 2 |>.modCls .A 0 (fun x => { x with data := 0, accepted := 2 }),
    by decide +kernel⟩⟩

/-- The hypotheses of ClauseTelegramsSent, clause by clause, meet in these states and operands. -/
theorem witness_ClauseTelegramsSent :
    (∃ (s : State) (l : Lane) (n : Fin 8), s.ready l = true ∧ s.failed l = false ∧ s.flag l (F.CLS_CFG_EN n.val) = true ∧
      s.flag l (F.CLS_CFG_DIR n.val) = true ∧ s.flag l (F.CLS_CFG_LANE n.val) = (l == Lane.B)) :=
  ⟨(upA (F.CLS_CFG_EN 7) 1).put .A (F.CLS_CFG_DIR 7) 1, .A, 7, by decide +kernel⟩

/-- The hypotheses of CopiesAndHeartbeats, clause by clause, meet in these states and operands. -/
theorem witness_CopiesAndHeartbeats :
    (∃ (s : State) (l : Lane) (c : StateCopy) (ok : Bool), s.ready l = true ∧ s.linkUp l = true ∧ ok = true ∧ c.valid = true ∧
      (∀ (n : Word), (s.lane l).red.rxCnt = some n → c.counter = n + 1)) ∧
    (∃ (s : State) (l : Lane) (c : StateCopy) (ok : Bool), s.ready l = true ∧ s.linkUp l = true ∧ (ok = false ∨ c.valid = false)) ∧
    (∃ (s : State) (l : Lane) (h : Heartbeat), s.ready l = true ∧ (∀ (p : Heartbeat),
      (s.lane l).red.hbDirect = some p → p.counter ≠ h.counter)) ∧
    (∃ (s : State) (l : Lane), s.ready l = true ∧ s.mon.alive = true) ∧
    (∃ (s : State) (x : Lane) (h : Heartbeat), s.mon.alive = true ∧ (∀ (p : Heartbeat) (t : Nat),
      s.mon.hb.get x = some (p, t) → p.counter ≠ h.counter)) ∧
    (∃ (s : State) (x : Lane), s.mon.alive = true ∧ s.declared x = false ∧ (s.mon.hb.get x).isSome = true) :=
  ⟨⟨up, .A, {}, true, by decide +kernel, by decide +kernel, by decide +kernel, by decide +kernel, fun _ h => nomatch h⟩,
  ⟨up, .A, {}, false, by decide +kernel⟩,
  ⟨up, .A, { counter := 3 }, by decide +kernel, fun _ h => nomatch h⟩,
  ⟨up, .A, by decide +kernel⟩,
  ⟨up, .A, { counter := 3 }, by decide +kernel, fun _ _ h => nomatch h⟩,
  ⟨up.modMon (fun m => { m with hb := ⟨some ({ counter := 3 }, 0), none⟩ }), .A, by decide +kernel⟩⟩

/-- The hypotheses of LinkSplitAndReturn, clause by clause, meet in these states and operands. -/
theorem witness_LinkSplitAndReturn :
    (∃ (s : State) (l : Lane), s.inReset l = false ∧ (s.lane l).boot.phase = Boot.starting ∧ (s.lane l).boot.verified = true ∧
      (s.lane l).boot.img.isSome = true) ∧
    (∃ (s : State) (l : Lane), s.inReset l = false ∧ s.linkUp l = false ∧ s.flag l F.CONJ_STAT_TRAINED = true) ∧
    (∃ (s : State) (l : Lane) (e : JEntry), s.inReset l = false ∧ s.ready l = true ∧ s.linkUp l = true ∧ e.applied = true ∧
      isNewer e.seq (s.lane l).sess[e.sess].highest = true) ∧
    (∃ (s : State) (l : Lane) (e : JEntry), s.inReset l = false ∧ s.ready l = true ∧ s.linkUp l = true ∧ e.applied = false ∧
      (s.lane l).red.journal.length < 1024 ∧ (∀ (x : JEntry), x ∈ (s.lane l).red.journal → x.sess = e.sess → x.seq ≠ e.seq)) ∧
    (∃ (s : State) (l : Lane), s.inReset l = false ∧ s.flag l F.RED_STAT_SPLIT = true ∧ s.fld l F.RED_CFG_SPLIT_TOL ≠ 0) ∧
    (∃ (s : State) (l : Lane), s.inReset l = false ∧ s.ready l = true ∧ s.resynced l = true) ∧
    (∃ (s : State) (l : Lane), s.inReset l = false ∧ s.flag l F.RED_STAT_RETURNING = true ∧ (s.lane l).red.ramp = none) :=
  ⟨⟨(State.reset.modBoot .A (fun b => { b with verified := true, img := some goodRead })), .A, by decide +kernel⟩,
  ⟨(upA F.CONJ_STAT_LINK_UP 0).put .A F.CONJ_STAT_TRAINED 1, .A, by decide +kernel⟩,
  ⟨up, .A, ⟨1, 0, 0, 0xF, true, 0x70044, 5, 0⟩, by decide +kernel⟩,
  ⟨up, .A, ⟨1, 0, 0, 0xF, false, 0x71044, 5, 0⟩, by decide +kernel⟩,
  ⟨upA F.RED_STAT_SPLIT 1, .A, by decide +kernel⟩,
  ⟨resyncUp, .A, by decide +kernel⟩,
  ⟨upA F.RED_STAT_RETURNING 1, .A, by decide +kernel⟩⟩

/-- The hypotheses of RedundancyCommands, clause by clause, meet in these states and operands. -/
theorem witness_RedundancyCommands :
    (∃ (s : State) (l : Lane) (q : Option Req) (w : Word), s.Serves l 524360 q ∧ fFinite w = true ∧ fLt w 0 = false ∧
      fLt fOne w = false ∧ s.linkUp l = true ∧ s.ready l.other = true) ∧
    (∃ (s : State) (l : Lane) (q : Option Req) (w : Word), s.Serves l 524360 q ∧ fFinite w = true ∧ fLt w 0 = false ∧
      fLt fOne w = false ∧ s.linkUp l = false) ∧
    (∃ (s : State) (l : Lane), s.Takes l 524352 ∧ s.flag l F.RED_STAT_SPLIT = true) ∧
    (∃ (s : State) (l : Lane), s.Takes l 524352 ∧ s.flag l F.RED_STAT_SPLIT = false) ∧
    (∃ (s : State) (l : Lane), s.Takes l 524352 ∧ s.flag l F.RED_STAT_HELD = true) ∧
    (∃ (s : State) (l : Lane), s.Takes l 524352 ∧ s.flag l F.RED_STAT_HELD = false) ∧
    (∃ (s : State) (l : Lane), s.Takes l 524352 ∧ s.moveOk = true) ∧
    (∃ (s : State) (l : Lane), s.Takes l 524352 ∧ s.moveOk = false) ∧
    (∃ (s : State) (y : Lane), s.mon.alive = true ∧ s.mon.moveReq = some y ∧ s.moveOk = true ∧ s.mflag F.MON_RED_STAT_ISOLATED = false ∧
      (∀ (k : Fin 4), (s.lane Lane.A).sess[k].highest = (s.lane Lane.B).sess[k].highest)) ∧
    (∃ (s : State) (y : Lane), s.mon.alive = true ∧ s.mon.moveReq = some y ∧ s.moveOk = false) ∧
    (∃ (s : State) (l : Lane), s.inReset l = false ∧ s.turnAway l 524352 true true = none ∧ s.failed l = true ∧
      s.fld l F.RED_STAT_SELF_CAUSE ∈ [3, 4, 5, 7, 8]) ∧
    (∃ (s : State) (l : Lane), s.ready l = true ∧ s.self l = 4) ∧
    (∃ (s : State) (l : Lane), s.Takes l 524424) ∧
    (∃ (s : State) (l : Lane), s.Takes l 528468) :=
  ⟨⟨up, .A, some ⟨0, 1⟩, 0x3F800000, ⟨⟨by decide +kernel, by decide +kernel⟩, fun k => by cases k <;> decide, by decide +kernel,
    by decide +kernel, by decide +kernel, by decide +kernel⟩, by decide +kernel⟩,
  ⟨upA F.CONJ_STAT_LINK_UP 0, .A, none, 0, ⟨⟨by decide +kernel, by decide +kernel⟩, fun k => by cases k <;> decide,
    by decide +kernel, trivial⟩, by decide +kernel⟩,
  ⟨upA F.RED_STAT_SPLIT 1, .A, ⟨by decide +kernel, by decide +kernel⟩, by decide +kernel⟩,
  ⟨up, .A, ⟨by decide +kernel, by decide +kernel⟩, by decide +kernel⟩,
  ⟨upA F.RED_STAT_HELD 1, .A, ⟨by decide +kernel, by decide +kernel⟩, by decide +kernel⟩,
  ⟨up, .A, ⟨by decide +kernel, by decide +kernel⟩, by decide +kernel⟩,
  ⟨moveUp, .A, ⟨by decide +kernel, by decide +kernel⟩, by decide +kernel⟩,
  ⟨upA F.CHG_STAT_STATE 6, .A, ⟨by decide +kernel, by decide +kernel⟩, by decide +kernel⟩,
  ⟨moveUp, .B, by decide +kernel⟩,
  ⟨(upA F.CHG_STAT_STATE 6).modMon (fun m => { m with moveReq := some .B }), .B, by decide +kernel⟩,
  ⟨(upA F.RED_STAT_SELF 3).put .A F.RED_STAT_SELF_CAUSE 8, .A, by decide +kernel⟩,
  ⟨upA F.RED_STAT_SELF 4, .A, by decide +kernel⟩,
  ⟨up, .A, ⟨by decide +kernel, by decide +kernel⟩⟩,
  ⟨up, .A, ⟨by decide +kernel, by decide +kernel⟩⟩⟩

/-- The hypotheses of MonitorResetsAndRetires, clause by clause, meet in these states and operands. -/
theorem witness_MonitorResetsAndRetires :
    (∃ (s : State) (x : Lane) (n : Nat), s.mon.alive = true ∧ s.mflag F.MON_RED_CFG_AUTO_RST = true ∧ s.declared x = true ∧
      s.inReset x = false ∧ n = (List.filter (fun t => decide (s.time < t + ms 60000)) (s.mon.resets.get x)).length + 1) ∧
    (∃ (s : State) (l : Lane) (x : Lane), s.Takes l 790624 ∧ x = Lane.A ∧ x ≠ l ∧ (s.lane x).hold.retired = true) ∧
    (∃ (s : State) (l : Lane) (x : Lane), s.Takes l 790624 ∧ x = Lane.B ∧ x ≠ l ∧ (s.lane x).hold.retired = true) ∧
    (∃ (s : State) (l : Lane), s.Takes l 790624 ∧ l = Lane.A) ∧
    (∃ (s : State) (l : Lane), s.Takes l 790624 ∧ l = Lane.B) :=
  ⟨⟨upA F.MON_RED_STAT_FAILED_A 1 |>.put .A F.MON_RED_CFG_AUTO_RST 1, .A, 1, by decide +kernel⟩,
  ⟨up.modHold .A (fun h => { h with retired := true, mon := true }), .B, .A, ⟨by decide +kernel, by decide +kernel⟩,
    by decide +kernel⟩,
  ⟨up.modHold .B (fun h => { h with retired := true, mon := true }), .A, .B, ⟨by decide +kernel, by decide +kernel⟩,
    by decide +kernel⟩,
  ⟨up, .A, ⟨by decide +kernel, by decide +kernel⟩, by decide +kernel⟩,
  ⟨up, .B, ⟨by decide +kernel, by decide +kernel⟩, by decide +kernel⟩⟩

/-- The hypotheses of CanQueuesAndControl, clause by clause, meet in these states and operands. -/
theorem witness_CanQueuesAndControl :
    (∃ (s : State) (l : Lane) (c : Fin 2), s.Takes l (720960 + c.val * 4096) ∧
      s.flag l { addr := 720900 + c.val * 4096, lo := 0, w := 1 } = true) ∧
    (∃ (s : State) (l : Lane) (c : Fin 2), s.Takes l (720960 + c.val * 4096) ∧
      s.flag l { addr := 720900 + c.val * 4096, lo := 0, w := 1 } = false) ∧
    (∃ (s : State) (l : Lane) (c : Fin 2), s.Takes l (720960 + c.val * 4096) ∧ s.fld l (F.CAN_STAT_STATE c.val) = 2) ∧
    (∃ (s : State) (l : Lane) (c : Fin 2), s.ready l = true ∧ s.failed l = false ∧
      s.flag l { addr := 720900 + c.val * 4096, lo := 0, w := 1 } = true ∧ s.flag l (F.CAN_CTRL_INIT c.val) = false ∧
      (s.can l c).joined = false) ∧
    (∃ (s : State) (l : Lane) (c : Fin 2) (f : CanFrame), s.Takes l (721000 + c.val * 4096) ∧ f = s.canStaged l c ∧
      (f.ide = true ∨ f.id.toNat ≤ 2047) ∧ (f.brs = true → f.fdf = true ∧ s.flag l (F.CAN_CTRL_BRSE c.val) = true) ∧
      (f.fdf = true → f.rtr = false ∧ s.flag l (F.CAN_CTRL_FDE c.val) = true) ∧ s.flag l (F.CAN_CTRL_INIT c.val) = false ∧
      (s.can l c).fifo.length < 32) ∧
    (∃ (s : State) (l : Lane) (c : Fin 2) (f : CanFrame), s.Takes l (721000 + c.val * 4096) ∧ f = s.canStaged l c ∧
      (f.ide = true ∨ f.id.toNat ≤ 2047) ∧ (f.brs = true → f.fdf = true ∧ s.flag l (F.CAN_CTRL_BRSE c.val) = true) ∧
      (f.fdf = true → f.rtr = false ∧ s.flag l (F.CAN_CTRL_FDE c.val) = true) ∧ s.flag l (F.CAN_CTRL_INIT c.val) = false ∧
      32 ≤ (s.can l c).fifo.length) ∧
    (∃ (s : State) (l : Lane) (c : Fin 2) (f : CanFrame) (k : Fin 4), s.Takes l (721000 + c.val * 4096) ∧ f = s.canStaged l c ∧
      (f.ide = true ∨ f.id.toNat ≤ 2047) ∧ (f.brs = true → f.fdf = true ∧ s.flag l (F.CAN_CTRL_BRSE c.val) = true) ∧
      (f.fdf = true → f.rtr = false ∧ s.flag l (F.CAN_CTRL_FDE c.val) = true) ∧ s.flag l (F.CAN_CTRL_INIT c.val) = false ∧
      (s.can l c).slot[k] = none ∧ (k = 3 → s.canClaused l c = false)) ∧
    (∃ (s : State) (l : Lane) (c : Fin 2) (k : Fin 4) (e : TxEntry), s.Takes l (721004 + c.val * 4096) ∧ (s.can l c).slot[k] = some e ∧
      s.canSends l c = true ∧ (s.can l c).cand = some (4 + k.val)) ∧
    (∃ (s : State) (l : Lane) (c : Fin 2), s.Takes l (721020 + c.val * 4096)) ∧
    (∃ (s : State) (l : Lane) (c : Fin 2), s.Takes l (720988 + c.val * 4096)) :=
  ⟨⟨upA ⟨720900, 0, 1⟩ 1, .A, 0, ⟨by decide +kernel, by decide +kernel⟩, by decide +kernel⟩,
  ⟨upA ⟨720900, 0, 1⟩ 0, .A, 0, ⟨by decide +kernel, by decide +kernel⟩, by decide +kernel⟩,
  ⟨upA (F.CAN_STAT_STATE 1) 2, .A, 1, ⟨by decide +kernel, by decide +kernel⟩, by decide +kernel⟩,
  ⟨(upA ⟨720900, 0, 1⟩ 1).put .A (F.CAN_CTRL_INIT 0) 0, .A, 0, by decide +kernel⟩,
  ⟨canUp, .A, 0, canUp.canStaged .A 0, ⟨by decide +kernel, by decide +kernel⟩, by decide +kernel⟩,
  ⟨canUp.modCan .A 0 (fun x => { x with fifo := List.replicate 32 ⟨{}, 0, 0, 0, 0, false⟩ }), .A, 0, canUp.canStaged .A 0,
    ⟨by decide +kernel, by decide +kernel⟩, by decide +kernel⟩,
  ⟨canUp, .A, 0, canUp.canStaged .A 0, 3, ⟨by decide +kernel, by decide +kernel⟩, by decide +kernel⟩,
  ⟨canUp.modCan .A 0 (fun x => { x with cand := some 6, phase := .started }), .A, 0, 2, ⟨{ id := 0x123 }, 7, 0, 0, 0, false⟩,
    ⟨by decide +kernel, by decide +kernel⟩, by decide +kernel⟩,
  ⟨canUp, .A, 1, ⟨by decide +kernel, by decide +kernel⟩⟩,
  ⟨canUp, .A, 1, ⟨by decide +kernel, by decide +kernel⟩⟩⟩

/-- The hypotheses of CanOnTheBus, clause by clause, meet in these states and operands. -/
theorem witness_CanOnTheBus :
    (∃ (s : State) (l : Lane) (c : Fin 2) (k : Nat) (e : TxEntry) (err : BitVec 3), s.canSends l c = true ∧
      ((s.can l c).atPhase BusPhase.started).cand = some k ∧ (s.can l c).entry k = some e ∧ e.cancel = false ∧ err ≠ 3 ∧
      s.flag l (F.CAN_CTRL_ONESHOT c.val) = false ∧ s.fld l (F.CAN_CTRL_RETRY c.val) = 0 ∧ s.fld l (F.CAN_STAT_TEC c.val) ≤ 247) ∧
    (∃ (s : State) (l : Lane) (c : Fin 2) (k : Nat) (e : TxEntry) (err : BitVec 3), s.canSends l c = true ∧
      ((s.can l c).atPhase BusPhase.started).cand = some k ∧ (s.can l c).entry k = some e ∧ e.cancel = false ∧ err ≠ 3 ∧
      s.flag l (F.CAN_CTRL_ONESHOT c.val) = false ∧ s.fld l (F.CAN_CTRL_RETRY c.val) = 0 ∧ 248 ≤ s.fld l (F.CAN_STAT_TEC c.val)) ∧
    (∃ (s : State) (l : Lane) (c : Fin 2) (k : Nat) (e : TxEntry) (err : BitVec 3), s.canSends l c = true ∧
      ((s.can l c).atPhase BusPhase.started).cand = some k ∧ (s.can l c).entry k = some e ∧ e.cancel = false ∧ err ≠ 3 ∧
      s.flag l (F.CAN_CTRL_ONESHOT c.val) = true) ∧
    (∃ (s : State) (l : Lane) (c : Fin 2), s.canOn l c = true ∧ s.fld l (F.CAN_STAT_STATE c.val) = 2 ∧ (s.can l c).recovering = true) ∧
    (∃ (s : State) (l : Lane) (c : Fin 2) (f : CanFrame) (n : Nat) (act : Nat), s.canOn l c = true ∧
      s.fld l (F.CAN_STAT_STATE c.val) ≠ 2 ∧ s.canFilter l c f = (n, act)) ∧
    (∃ (s : State) (l : Lane) (c : Fin 2), s.canOn l c = true ∧ s.fld l (F.CAN_STAT_STATE c.val) ≠ 2 ∧
      s.flag l (F.CAN_CTRL_PXHD c.val) = false) :=
  ⟨⟨canOne 247, .A, 0, 0, ⟨{ id := 0x123 }, 7, 0, 0, 0, false⟩, 1, by decide +kernel⟩,
  ⟨canOne 248, .A, 0, 0, ⟨{ id := 0x123 }, 7, 0, 0, 0, false⟩, 7, by decide +kernel⟩,
  ⟨canOneShot, .A, 0, 0, ⟨{ id := 0x123 }, 7, 0, 0, 0, false⟩, 4, by decide +kernel⟩,
  ⟨(canUp.put .A (F.CAN_STAT_STATE 0) 2).modCan .A 0 (fun x => { x with recovering := true }), .A, 0, by decide +kernel⟩,
  ⟨canUp, .A, 0, { id := 5 }, (canUp.canFilter .A 0 { id := 5 }).1, (canUp.canFilter .A 0 { id := 5 }).2, by decide +kernel⟩,
  ⟨canUp, .A, 0, by decide +kernel⟩⟩

/-- The hypotheses of MemoryBanks, clause by clause, meet in these states and operands. -/
theorem witness_MemoryBanks :
    (∃ (s : State) (l : Lane) (w : Word), s.Takes l F.MEM_PWR_STAT_BUSY.addr ∧ (∀ (b : Nat), b < 16 → bits w (2 * b) 2 ≠ 3) ∧
      (∀ (b : Nat), b < 16 → s.bankOn l b = true → bits w (2 * b) 2 ≠ 0 → s.keepOn l b = none)) ∧
    (∃ (s : State) (l : Lane) (w : Word) (b : Nat) (c : Nat), s.Takes l F.MEM_PWR_STAT_BUSY.addr ∧ (∀ (b : Nat),
      b < 16 → bits w (2 * b) 2 ≠ 3) ∧ b < 16 ∧ s.bankOn l b = true ∧ bits w (2 * b) 2 ≠ 0 ∧ s.keepOn l b = some c ∧ (∀ (b' : Nat),
      b' < b → s.bankOn l b' = true → bits w (2 * b') 2 ≠ 0 → s.keepOn l b' = none)) ∧
    (∃ (s : State) (l : Lane) (b : Fin 16), s.inReset l = false ∧ s.bankOn l b.val = true ∧
      (s.lane l).scrub[b].fst + 1 < bankWords b.val) ∧
    (∃ (s : State) (l : Lane) (b : Fin 16), s.inReset l = false ∧ s.bankOn l b.val = true ∧
      bankWords b.val ≤ (s.lane l).scrub[b].fst + 1) ∧
    (∃ (s : State) (l : Lane) (b : Fin 16), s.inReset l = false ∧ s.bankOn l b.val = true ∧ 8 ≤ b.val ∧ s.ready l = true ∧
      s.failed l = false) ∧
    (∃ (s : State) (l : Lane), s.Takes l 20564) :=
  ⟨⟨up, .A, 0x00200000, ⟨by decide +kernel, by decide +kernel⟩, by decide +kernel⟩,
  ⟨up, .A, 1, 0, 3, ⟨by decide +kernel, by decide +kernel⟩, by decide +kernel⟩,
  ⟨up, .A, 0, by decide +kernel⟩,
  ⟨scrubLast, .A, 15, by decide +kernel⟩,
  ⟨up, .A, 8, by decide +kernel⟩,
  ⟨up, .A, ⟨by decide +kernel, by decide +kernel⟩⟩⟩

/-- The hypotheses of CaptureWindows, clause by clause, meet in these states and operands. -/
theorem witness_CaptureWindows :
    (∃ (s : State) (l : Lane) (w : Fin 8), s.Takes l 20568 ∧ (∀ (v : Nat),
      v < 8 → s.capActive l v = true → (s.capArea l v).snd ≤ (s.capArea l w.val).fst ∨ (s.capArea l w.val).snd ≤ (s.capArea l v).fst) ∧
      (s.capArea l w.val).snd ≤ 256 ∧ (s.capIn l (w.val) 12 = true → s.bankOn l 12 = true) ∧
      (s.capIn l (w.val) 13 = true → s.bankOn l 13 = true)) ∧
    (∃ (s : State) (l : Lane) (w : Fin 8) (v : Nat), s.Takes l 20568 ∧ v < 8 ∧ s.capActive l v = true ∧
      (s.capArea l w.val).fst < (s.capArea l v).snd ∧ (s.capArea l v).fst < (s.capArea l w.val).snd) ∧
    (∃ (s : State) (l : Lane) (w : Fin 8), s.Takes l 20568 ∧ s.fld l (F.MEM_CAP_STAT_STATE w.val) = 1) ∧
    (∃ (s : State) (l : Lane) (w : Fin 8), s.Takes l 20568 ∧ s.capActive l w.val = true) ∧
    (∃ (s : State) (l : Lane) (w : Fin 8), s.inReset l = false ∧ s.fld l (F.MEM_CAP_STAT_STATE w.val) = 2 ∧
      s.capPost l w.val ≤ (s.lane l).cap[w].post) :=
  ⟨⟨up, .A, 7, ⟨by decide +kernel, by decide +kernel⟩, by decide +kernel⟩,
  ⟨upA (F.MEM_CAP_STAT_STATE 0) 1, .A, 0, 0, ⟨by decide +kernel, by decide +kernel⟩, by decide +kernel⟩,
  ⟨upA (F.MEM_CAP_STAT_STATE 3) 1, .A, 3, ⟨by decide +kernel, by decide +kernel⟩, by decide +kernel⟩,
  ⟨upA (F.MEM_CAP_STAT_STATE 3) 2, .A, 3, ⟨by decide +kernel, by decide +kernel⟩, by decide +kernel⟩,
  ⟨captured, .A, 3, by decide +kernel⟩⟩

/-- The hypotheses of EventPath, clause by clause, meet in these states and operands. -/
theorem witness_EventPath :
    (∃ (s : State) (l : Lane), s.inReset l = false ∧ s.failed l = false) ∧
    (∃ (s : State) (l : Lane) (g : Fin 4), s.Takes l (16464 + g.val * 4)) ∧
    (∃ (s : State) (l : Lane), s.Takes l 16572) ∧
    (∃ (s : State) (l : Lane) (q : Option Req), s.Serves l 786504 q ∧ s.monOk l = true ∧ s.mon.alive = true ∧
      (List.filter (fun h => h.lane == l) s.mon.halves).length < 16 ∧ (∀ (h : Half),
      h ∈ s.mon.halves → h.lane = l.other → h.addr ≠ 786504)) ∧
    (∃ (s : State) (l : Lane) (q : Option Req), s.Serves l 786504 q ∧ s.monOk l = true ∧ s.mon.alive = true ∧
      (List.filter (fun h => h.lane == l) s.mon.halves).length < 16 ∧ (∃ h, h ∈ s.mon.halves ∧ h.lane = l.other ∧ h.addr = 786504) ∧
      (∀ (h : Half), h ∈ s.mon.halves → h.lane = l.other → h.addr = 786504 → h.val = 1)) ∧
    (∃ (s : State) (l : Lane) (q : Option Req), s.Serves l 786504 q ∧ s.monOk l = true ∧ s.mon.alive = true ∧
      (List.filter (fun h => h.lane == l) s.mon.halves).length < 16 ∧ (∃ h, h ∈ s.mon.halves ∧ h.lane = l.other ∧ h.addr = 786504) ∧
      (∀ (h : Half), h ∈ s.mon.halves → h.lane = l.other → h.addr = 786504 → h.val = 2)) :=
  ⟨⟨up, .A, by decide +kernel⟩,
  ⟨upA ⟨0x24018, 0, 14⟩ 0x3FFF, .A, 2, ⟨by decide +kernel, by decide +kernel⟩⟩,
  ⟨up, .A, ⟨by decide +kernel, by decide +kernel⟩⟩,
  ⟨up, .A, none, ⟨⟨by decide +kernel, by decide +kernel⟩, fun k => by cases k <;> decide, by decide +kernel, trivial⟩,
    by decide +kernel⟩,
  ⟨halfUp .B 786504 1, .A, none, ⟨⟨by decide +kernel, by decide +kernel⟩, fun k => by cases k <;> decide, by decide +kernel,
    trivial⟩, by decide +kernel⟩,
  ⟨halfUp .B 786504 2, .A, none, ⟨⟨by decide +kernel, by decide +kernel⟩, fun k => by cases k <;> decide, by decide +kernel,
    trivial⟩, by decide +kernel⟩⟩

/-- The hypotheses of BulkDescriptors, clause by clause, meet in these states and operands. -/
theorem witness_BulkDescriptors :
    (∃ (s : State) (l : Lane) (n : Fin 64) (t : List (Fin 64)) (len : Nat) (arg : Nat), s.inReset l = false ∧
      (s.lane l).boot.phase ≠ Boot.starting ∧ s.flag l F.BULK_STAT_IMG_BUSY = false ∧ s.ownedList l = n :: t ∧
      len = s.fld l (F.BULK_DESC0_LEN n.val) ∧ arg = s.fld l (F.BULK_DESC1_ARG n.val) ∧ s.fld l (F.BULK_DESC0_CMD n.val) = 0) ∧
    (∃ (s : State) (l : Lane) (n : Fin 64) (t : List (Fin 64)) (len : Nat) (arg : Nat) (st : Status), s.inReset l = false ∧
      (s.lane l).boot.phase ≠ Boot.starting ∧ s.flag l F.BULK_STAT_IMG_BUSY = false ∧ s.ownedList l = n :: t ∧
      len = s.fld l (F.BULK_DESC0_LEN n.val) ∧ arg = s.fld l (F.BULK_DESC1_ARG n.val) ∧ s.fld l (F.BULK_DESC0_CMD n.val) = 1 ∧
      s.descCheck l n = some st) ∧
    (∃ (s : State) (l : Lane) (n : Fin 64) (t : List (Fin 64)) (len : Nat) (arg : Nat) (bs : List Byte), s.inReset l = false ∧
      (s.lane l).boot.phase ≠ Boot.starting ∧ s.flag l F.BULK_STAT_IMG_BUSY = false ∧ s.ownedList l = n :: t ∧
      len = s.fld l (F.BULK_DESC0_LEN n.val) ∧ arg = s.fld l (F.BULK_DESC1_ARG n.val) ∧ s.fld l (F.BULK_DESC0_CMD n.val) = 1 ∧
      s.descCheck l n = none ∧ Memory.wf 0 (s.lane l).mem = true ∧
      bs = List.take len (List.drop (arg % 2 ^ 18) (if s.fld l (F.MEM_CAP_STAT_STATE (arg / 2 ^ 21 % 8)) = 3 then s.capBytes l (Fin.ofNat 8 (arg / 2 ^ 21)) else []))) ∧
    (∃ (s : State) (l : Lane) (n : Fin 64) (t : List (Fin 64)) (len : Nat) (arg : Nat), s.inReset l = false ∧
      (s.lane l).boot.phase ≠ Boot.starting ∧ s.flag l F.BULK_STAT_IMG_BUSY = false ∧ s.ownedList l = n :: t ∧
      len = s.fld l (F.BULK_DESC0_LEN n.val) ∧ arg = s.fld l (F.BULK_DESC1_ARG n.val) ∧ s.fld l (F.BULK_DESC0_CMD n.val) = 2 ∧
      s.descCheck l n = none) ∧
    (∃ (s : State) (l : Lane) (n : Fin 64) (t : List (Fin 64)) (len : Nat) (arg : Nat), s.inReset l = false ∧
      (s.lane l).boot.phase ≠ Boot.starting ∧ s.flag l F.BULK_STAT_IMG_BUSY = false ∧ s.ownedList l = n :: t ∧
      len = s.fld l (F.BULK_DESC0_LEN n.val) ∧ arg = s.fld l (F.BULK_DESC1_ARG n.val) ∧ s.fld l (F.BULK_DESC0_CMD n.val) = 3 ∧
      s.descCheck l n = none ∧ len ≠ 0 ∧ Memory.wf 255 (s.lane l).flash = true) ∧
    (∃ (s : State) (l : Lane) (n : Fin 64) (t : List (Fin 64)) (len : Nat) (arg : Nat), s.inReset l = false ∧
      (s.lane l).boot.phase ≠ Boot.starting ∧ s.flag l F.BULK_STAT_IMG_BUSY = false ∧ s.ownedList l = n :: t ∧
      len = s.fld l (F.BULK_DESC0_LEN n.val) ∧ arg = s.fld l (F.BULK_DESC1_ARG n.val) ∧ s.fld l (F.BULK_DESC0_CMD n.val) = 4 ∧
      s.descCheck l n = none) ∧
    (∃ (s : State) (l : Lane) (n : Fin 64) (t : List (Fin 64)), s.inReset l = false ∧ s.flag l F.BULK_STAT_IMG_BUSY = true ∧
      s.ownedList l = n :: t) ∧
    (∃ (s : State) (l : Lane), s.Takes l 659528) :=
  ⟨⟨bulkUp 0 0 0, .A, 3, [], 0, 0, by decide +kernel⟩,
  ⟨bulkUp 1 64 0x1C0000, .A, 3, [], 64, 0x1C0000, ((bulkUp 1 64 0x1C0000).descCheck .A 3).getD .ok, by decide +kernel⟩,
  ⟨bulkUp 1 64 0, .A, 3, [], 64, 0, [], by decide +kernel⟩,
  ⟨bulkUp 2 64 0, .A, 3, [], 64, 0, by decide +kernel⟩,
  ⟨bulkUp 3 256 0, .A, 3, [], 256, 0, by decide +kernel⟩,
  ⟨bulkUp 4 0 0, .A, 3, [], 0, 0, by decide +kernel⟩,
  ⟨(bulkUp 3 256 0x800000).put .A F.BULK_STAT_IMG_BUSY 1, .A, 3, [], by decide +kernel⟩,
  ⟨up, .A, ⟨by decide +kernel, by decide +kernel⟩⟩⟩

/-- The hypotheses of RegisterWrites, clause by clause, meet in these states and operands. -/
theorem witness_RegisterWrites :
    (∃ (s : State) (l : Lane) (g : Fin 4) (k : Nat) (a : BitVec 24) (q : Option Req), (k = 16480 ∨ k = 16496 ∨ k = 16512) ∧
      a.toNat = k + 4 * g.val ∧ s.Serves l a.toNat q) ∧
    (∃ (s : State) (l : Lane) (a : BitVec 24) (w : Word) (be : BitVec 4) (ph : BusPhase) (p : Page) (fs : List FieldDesc) (st : Status),
      s.Serves l a.toNat none ∧ a.toNat % 4 = 0 ∧ bankOf a.toNat = none ∧ pageAt a.toNat = some p ∧ regFields a.toNat = some fs ∧
      s.regCheck l { ph := ph } (s.merge l p (a.toNat % 4096) fs w be) w be = some st) ∧
    (∃ (s : State) (l : Lane) (e : Bool) (q : Req) (d : List Byte) (dev : BitVec 6), s.arrives l e = true ∧ s.aon.devnum = some dev ∧
      (s.lane l).dup = false ∧ s.Serves l 69700 (some q) ∧ s.armedAt l 69704 = false ∧ d.length = 8 ∧
      fFinite (BitVec.ofNat 32 (bytesNat (List.take 4 d))) = true ∧ fFinite (BitVec.ofNat 32 (bytesNat (List.drop 4 d))) = false) :=
  ⟨⟨up, .A, 1, 16480, 16484, some ⟨0,1⟩, by decide +kernel, by decide +kernel, ⟨⟨by decide +kernel, by decide +kernel⟩,
    fun k => by cases k <;> decide, by decide +kernel, by decide +kernel, by decide +kernel, by decide +kernel⟩⟩,
  ⟨up, .A, 0x11044, 0x7F800000, 0xF, .before, (pageAt 0x11044).getD (.fbk 0), (regFields 0x11044).getD [], .rangeErr,
    ⟨⟨by decide +kernel, by decide +kernel⟩, fun k => by cases k <;> decide, by decide +kernel, trivial⟩, by decide +kernel⟩,
  ⟨up, .A, false, ⟨0,1⟩, [0,0,0x80,0x3F,0,0,0x80,0x7F], 5, by decide +kernel, by decide +kernel, by decide +kernel,
    ⟨⟨by decide +kernel, by decide +kernel⟩, fun k => by cases k <;> decide, by decide +kernel, by decide +kernel,
    by decide +kernel, by decide +kernel⟩, by decide +kernel⟩⟩

/-- The hypotheses of UnmappedOffsets, clause by clause, meet in these states and operands. -/
theorem witness_UnmappedOffsets :
    (∃ (a : Nat), 4194304 ≤ a) ∧
    (∃ (s : State) (l : Lane) (a : BitVec 24), a.toNat % 4 = 0 ∧ bankOf a.toNat = none ∧ regFields a.toNat = none ∧
      s.Serves l a.toNat none) ∧
    (∃ (s : State) (l : Lane) (a : BitVec 24) (e : Bool) (q : Req) (dev : BitVec 6), a.toNat % 4 = 0 ∧ bankOf a.toNat = none ∧
      regFields a.toNat = none ∧ s.arrives l e = true ∧ s.aon.devnum = some dev ∧ (s.lane l).dup = false ∧
      s.turnAway l a.toNat false false = none ∧ (∀ (k : Lane), (s.lane k).waiting = []) ∧
      (s.lane l).sess[q.sess].periods.length < 16) :=
  ⟨⟨0x400000, by decide +kernel⟩,
  ⟨up, .A, 0x3FFFFC, by decide +kernel, by decide +kernel, by decide +kernel, ⟨⟨by decide +kernel, by decide +kernel⟩,
    fun k => by cases k <;> decide, by decide +kernel, trivial⟩⟩,
  ⟨up, .A, 0xFFFFFC, false, ⟨0,1⟩, 5, by decide +kernel, by decide +kernel, by decide +kernel, by decide +kernel, by decide +kernel,
    by decide +kernel, by decide +kernel, fun k => by cases k <;> decide, by decide +kernel⟩⟩

/-- The hypotheses of PageHeaders, clause by clause, meet in these states and operands. -/
theorem witness_PageHeaders :
    (∃ (s : State) (l : Lane) (q : Option Req), s.Serves l 147460 q ∧ bit (s.word l 147464) 31 = false ∧ bit (s.word l 147460) 0 = true) ∧
    (∃ (s : State) (l : Lane) (q : Option Req), s.Serves l 147460 q ∧ bit (s.word l 147464) 31 = false ∧
      bit (s.word l 147460) 0 = false) ∧
    (∃ (s : State) (l : Lane) (q : Option Req), s.Serves l 4 q ∧ bit (s.word l 8) 31 = false) ∧
    (∃ (s : State) (l : Lane) (q : Option Req) (w : Word), s.Serves l 147464 q ∧ w &&& ~~~3221225473 = 0 ∧ (∀ (h : Shadow),
      h ∈ (s.lane l).shadows → h.addr / 4096 ≠ 36)) ∧
    (∃ (s : State) (l : Lane) (q : Option Req) (w : Word), s.Serves l 147464 q ∧ w &&& ~~~3221225473 = 0 ∧ bit w 0 = true ∧
      bit (s.word l 147464) 0 = false ∧ (∃ h, h ∈ (s.lane l).shadows ∧ h.addr = F.FBK_SEL_PRIM.addr)) ∧
    (∃ (s : State) (l : Lane) (q : Option Req) (w : Word), s.Serves l 147484 q ∧ bit (s.word l 147464) 30 = false ∧
      w &&& ~~~evMask (Page.fbk 0) = 0) :=
  ⟨⟨up.putWord .A 0x24004 1, .A, none, ⟨⟨by decide +kernel, by decide +kernel⟩, fun k => by cases k <;> decide, by decide +kernel,
    trivial⟩, by decide +kernel⟩,
  ⟨up.putWord .A 0x24004 0, .A, some ⟨1,1⟩, ⟨⟨by decide +kernel, by decide +kernel⟩, fun k => by cases k <;> decide,
    by decide +kernel, by decide +kernel, by decide +kernel, by decide +kernel⟩, by decide +kernel⟩,
  ⟨up, .A, none, ⟨⟨by decide +kernel, by decide +kernel⟩, fun k => by cases k <;> decide, by decide +kernel, trivial⟩,
    by decide +kernel⟩,
  ⟨up, .A, none, 0x40000001, ⟨⟨by decide +kernel, by decide +kernel⟩, fun k => by cases k <;> decide, by decide +kernel, trivial⟩,
    by decide +kernel⟩,
  ⟨shd, .A, none, 0x40000001, ⟨⟨by decide +kernel, by decide +kernel⟩, fun k => by cases k <;> decide, by decide +kernel, trivial⟩,
    by decide +kernel⟩,
  ⟨up, .A, some ⟨2,1⟩, evMask (.fbk 0), ⟨⟨by decide +kernel, by decide +kernel⟩, fun k => by cases k <;> decide, by decide +kernel,
    by decide +kernel, by decide +kernel, by decide +kernel⟩, by decide +kernel⟩⟩

/-- The hypotheses of DualWrites, clause by clause, meet in these states and operands. -/
theorem witness_DualWrites :
    (∃ (s : State) (l : Lane) (q : Option Req) (w : Word), s.Serves l 589924 q ∧ bit (s.word l 589832) 0 = false ∧ w ≠ s.word l 589924 ∧
      s.monOk l = false) ∧
    (∃ (s : State) (l : Lane) (q : Option Req) (w : Word), s.Serves l 589924 q ∧ bit (s.word l 589832) 0 = false ∧ w ≠ s.word l 589924 ∧
      s.monOk l = true ∧ 16 ≤ (List.filter (fun h => h.lane == l) s.mon.halves).length ∧ (∀ (h : Half),
      h ∈ s.mon.halves → h.lane = l → h.addr ≠ 589924)) ∧
    (∃ (s : State) (l : Lane) (q : Option Req) (w : Word), s.Serves l 589924 q ∧ bit (s.word l 589832) 0 = false ∧ w ≠ s.word l 589924 ∧
      s.monOk l = true ∧ s.mon.alive = true ∧ (List.filter (fun h => h.lane == l) s.mon.halves).length < 16 ∧ (∀ (h : Half),
      h ∈ s.mon.halves → h.lane = l.other → h.addr ≠ 589924)) ∧
    (∃ (s : State) (l : Lane) (q : Option Req) (w : Word), s.Serves l 589924 q ∧ bit (s.word l 589832) 0 = false ∧ w ≠ s.word l 589924 ∧
      s.monOk l = true ∧ s.mon.alive = true ∧ (List.filter (fun h => h.lane == l) s.mon.halves).length < 16 ∧
      (∃ h, h ∈ s.mon.halves ∧ h.lane = l.other ∧ h.addr = 589924) ∧ (∀ (h : Half),
      h ∈ s.mon.halves → h.lane = l.other → h.addr = 589924 → h.val = w)) ∧
    (∃ (s : State) (l : Lane) (q : Option Req) (w : Word), s.Serves l 589924 q ∧ bit (s.word l 589832) 0 = false ∧ w ≠ s.word l 589924 ∧
      s.monOk l = true ∧ s.mon.alive = true ∧ (List.filter (fun h => h.lane == l) s.mon.halves).length < 16 ∧
      (∃ h, h ∈ s.mon.halves ∧ h.lane = l.other ∧ h.addr = 589924) ∧ (∀ (h : Half),
      h ∈ s.mon.halves → h.lane = l.other → h.addr = 589924 → h.val ≠ w)) ∧
    (∃ (s : State) (l : Lane) (a : BitVec 24), s.mon.alive = true ∧ (∃ h, h ∈ s.mon.halves ∧ h.lane = l ∧ h.addr = a.toNat)) ∧
    (∃ (s : State) (l : Lane) (a : BitVec 24), a.toNat ∈ (s.lane l).timedHalves) :=
  ⟨⟨up.put .A F.RED_STAT_MON_OK 0, .A, none, 5, ⟨⟨by decide +kernel, by decide +kernel⟩, fun k => by cases k <;> decide,
    by decide +kernel, trivial⟩, by decide +kernel⟩,
  ⟨halves16, .A, none, 5, ⟨⟨by decide +kernel, by decide +kernel⟩, fun k => by cases k <;> decide, by decide +kernel, trivial⟩,
    by decide +kernel⟩,
  ⟨up, .A, some ⟨0,1⟩, 5, ⟨⟨by decide +kernel, by decide +kernel⟩, fun k => by cases k <;> decide, by decide +kernel,
    by decide +kernel, by decide +kernel, by decide +kernel⟩, by decide +kernel⟩,
  ⟨halfUp .B 0x90064 5, .A, some ⟨0,1⟩, 5, ⟨⟨by decide +kernel, by decide +kernel⟩, fun k => by cases k <;> decide,
    by decide +kernel, by decide +kernel, by decide +kernel, by decide +kernel⟩, by decide +kernel⟩,
  ⟨halfUp .B 0x90064 6, .A, some ⟨0,1⟩, 5, ⟨⟨by decide +kernel, by decide +kernel⟩, fun k => by cases k <;> decide,
    by decide +kernel, by decide +kernel, by decide +kernel, by decide +kernel⟩, by decide +kernel⟩,
  ⟨halfUp .B 0x90064 6, .B, 0x90064, by decide +kernel⟩,
  ⟨halfUp .B 0x90064 6, .B, 0x90064, by decide +kernel⟩⟩

/-- The hypotheses of LaneResetDiscardsHalves, clause by clause, meet in these states and operands. -/
theorem witness_LaneResetDiscardsHalves :
    (∃ (s : State) (l : Lane) (c : Instr), s.inReset l = false ∧
      (c = Instr.nrstAssert l ∨ c = Instr.softReset l ∨ c = Instr.xtalFail l ∨ c = Instr.vsFailed l ∧ s.rail l.other = true)) ∧
    (∃ (s : State) (l : Lane) (w : Word), s.linkUp l = false ∧ s.Serves l 589924 none ∧ bit (s.word l 589832) 0 = false ∧
      w ≠ s.word l 589924 ∧ s.monOk l = true ∧ s.mon.alive = true ∧ (List.filter (fun h => h.lane == l) s.mon.halves).length < 16 ∧
      (∀ (h : Half), h ∈ s.mon.halves → h.lane = l.other → h.addr ≠ 589924)) ∧
    (∃ (s : State) (l : Lane) (w : Word), s.linkUp l = false ∧ s.Serves l 589924 none ∧ bit (s.word l 589832) 0 = false ∧
      w ≠ s.word l 589924 ∧ s.monOk l = true ∧ s.mon.alive = true ∧ (List.filter (fun h => h.lane == l) s.mon.halves).length < 16 ∧
      (∃ h, h ∈ s.mon.halves ∧ h.lane = l.other ∧ h.addr = 589924) ∧ (∀ (h : Half),
      h ∈ s.mon.halves → h.lane = l.other → h.addr = 589924 → h.val = w)) :=
  ⟨⟨halfUp .B 0x90064 6, .B, .nrstAssert .B, by decide +kernel⟩,
  ⟨linkDown up, .A, 5, by decide +kernel, ⟨⟨by decide +kernel, by decide +kernel⟩, fun k => by cases k <;> decide,
    by decide +kernel, trivial⟩, by decide +kernel⟩,
  ⟨linkDown (halfUp .B 0x90064 5), .A, 5, by decide +kernel, ⟨⟨by decide +kernel, by decide +kernel⟩,
    fun k => by cases k <;> decide, by decide +kernel, trivial⟩, by decide +kernel⟩⟩

/-- The hypotheses of SignalsPeriodsShadows, clause by clause, meet in these states and operands. -/
theorem witness_SignalsPeriodsShadows :
    (∃ (s : State) (l : Lane) (n : BitVec 14) (e : DirEntry), e = s.dirEntry l n.toNat ∧ s.bankOn l 11 = true ∧ s.inReset l = false ∧
      s.turnAway l (dirAddr e) false false = none ∧ (∀ (k : Lane), (s.lane k).waiting = []) ∧ dirType e = 0) ∧
    (∃ (s : State) (l : Lane) (n : BitVec 14) (e : DirEntry), e = s.dirEntry l n.toNat ∧ s.bankOn l 11 = true ∧ s.inReset l = false ∧
      s.turnAway l (dirAddr e) false false = none ∧ (∀ (k : Lane), (s.lane k).waiting = []) ∧ dirType e ≠ 0 ∧ dirRd e = true ∧
      s.readFail l (dirAddr e) = none) ∧
    (∃ (s : State) (l : Lane) (k : Fin 4) (p : PeriodReq) (t : List PeriodReq), (s.lane l).sess[k].periods = p :: t ∧
      s.inReset l = false ∧ (∀ (x : Lane), (s.lane x).waiting = []) ∧ p.halves = [] ∧ (∀ (y : PeriodReq),
      y ∈ (s.lane l.other).sess[k].periods → isNewer p.seq y.seq = false)) ∧
    (∃ (s : State) (l : Lane) (q : Req), s.ready l = true ∧ s.linkUp l = true ∧ (∃ p, p ∈ (s.lane l.other).sess[q.sess].seen ∧
      p.fst = q.seq) ∧ (∀ (p : PeriodReq), p ∈ (s.lane l.other).sess[q.sess].periods → p.seq ≠ q.seq)) ∧
    (∃ (s : State) (l : Lane) (h : Shadow), s.inReset l = false ∧ (∀ (k : Lane), (s.lane k).waiting = []) ∧ (s.lane l).shadows = [h] ∧
      h.armed = false) ∧
    (∃ (s : State) (l : Lane) (h : Shadow) (fs : List FieldDesc) (m : Word), s.inReset l = false ∧ (∀ (k : Lane),
      (s.lane k).waiting = []) ∧ (s.lane l).shadows = [h] ∧ h.armed = true ∧ regFields h.addr = some fs ∧
      m = maskOf fs fun x => x.shadow) :=
  ⟨⟨up, .A, 100, up.dirEntry .A 100, by decide +kernel, by decide +kernel, by decide +kernel, by decide +kernel,
    fun k => by cases k <;> decide, by decide +kernel⟩,
  ⟨dirUp, .A, 100, dirUp.dirEntry .A 100, by decide +kernel, by decide +kernel, by decide +kernel, by decide +kernel,
    fun k => by cases k <;> decide, by decide +kernel⟩,
  ⟨periodUp, .A, 1, {seq := 3}, [], by decide +kernel, by decide +kernel, fun k => by cases k <;> decide, by decide +kernel⟩,
  ⟨armPeer, .A, ⟨1,3⟩, by decide +kernel⟩,
  ⟨shd, .A, {addr := F.FBK_SEL_PRIM.addr, val := 1}, by decide +kernel, fun k => by cases k <;> decide, by decide +kernel⟩,
  ⟨shdArmed, .A, {addr := F.FBK_SEL_PRIM.addr, val := 1, armed := true}, (regFields F.FBK_SEL_PRIM.addr).getD [], maskOf ((regFields F.FBK_SEL_PRIM.addr).getD []) (·.shadow),
    by decide +kernel, fun k => by cases k <;> decide, by decide +kernel⟩⟩

/-- The hypotheses of RingFrames, clause by clause, meet in these states and operands. -/
theorem witness_RingFrames :
    (∃ (s : State) (l : Lane) (e : Bool) (n : BitVec 16) (t : Byte), s.arrives l e = true ∧ (s.pathCut l !e) = false ∧ n.toNat ≤ 256 ∧
      ¬BitVec.toNat t ∈ [1, 2, 3, 4, 16, 17, 18, 19]) ∧
    (∃ (s : State) (l : Lane) (e : Bool) (n : BitVec 16) (d : BitVec 6) (k : Lane), s.arrives l e = true ∧ (s.pathCut l !e) = false ∧
      n.toNat ≤ 256 ∧ ¬(s.aon.devnum = some d ∧ k = l)) ∧
    (∃ (s : State) (l : Lane) (e : Bool) (n : BitVec 16) (d : BitVec 6), s.arrives l e = true ∧ (s.pathCut l !e) = false ∧
      n.toNat ≤ 256 ∧ s.aon.devnum = some d) ∧
    (∃ (s : State) (l : Lane) (e : Bool) (d : BitVec 6) (c : Word) (n : BitVec 16) (bs : List Byte), s.arrives l e = true ∧
      (s.pathCut l !e) = false ∧ s.aon.devnum = some d ∧ (s.lane l).ring.cyc = some c ∧ n.toNat = bs.length ∧ bs.length ≤ 256 ∧
      bs.length = 4 * bits (s.lane l).ring.cfg 16 7 ∧ (s.lane l).ring.outOk = false) ∧
    (∃ (s : State) (l : Lane) (e : Bool) (d : BitVec 6) (c : Word) (n : BitVec 16) (bs : List Byte), s.arrives l e = true ∧
      (s.pathCut l !e) = false ∧ s.aon.devnum = some d ∧ (s.lane l).ring.cyc = some c ∧ n.toNat = bs.length ∧ bs.length ≤ 256 ∧
      bs.length = 4 * bits (s.lane l).ring.cfg 16 7 ∧ (s.lane l).ring.outOk = true) ∧
    (∃ (s : State) (l : Lane) (e : Bool), s.arrives l e = true ∧ (s.pathCut l !e) = false ∧ (s.lane l).dup = true) :=
  ⟨⟨up, .A, true, 8, 0x55, by decide +kernel⟩,
  ⟨up, .A, true, 8, 6, .A, by decide +kernel⟩,
  ⟨up, .A, true, 8, 5, by decide +kernel⟩,
  ⟨ringUp, .A, false, 5, 9, 20, List.replicate 20 7, by decide +kernel⟩,
  ⟨ringUpOk, .A, false, 5, 9, 20, List.replicate 20 7, by decide +kernel⟩,
  ⟨up.modLane .A (fun x => {x with dup := true}), .A, false, by decide +kernel⟩⟩

/-- The hypotheses of RingFrameLength, clause by clause, meet in these states and operands. -/
theorem witness_RingFrameLength :
    (∃ (s : State) (l : Lane) (e : Bool) (n : BitVec 16) (k : BitVec 16) (bs : List Byte) (crc : Bool) (d : BitVec 6) (x : Lane) (t : Byte) (q : Req) (a : BitVec 24) (be : BitVec 4) (ph : BusPhase) (c : Instr),
      s.arrives l e = true ∧ (n ≠ k ∧ k.toNat ≤ 256 ∧
      (c = Instr.ringIn l e crc d x n k ∨ c = Instr.eventFrameReceived l e crc n k ∨ c = Instr.unknownFrame l e crc t n k ∨ c = Instr.period l e crc d x q n k) ∨ n.toNat ≠ bs.length ∧
      bs.length ≤ 256 ∧
      (c = Instr.ringOut l e crc d k n bs ∨ c = Instr.wr l e crc d x q a be n bs ph) ∨ ∃ loop host corr per lpt num res, c = Instr.cyc l e loop crc false host corr per lpt num res)) ∧
    (∃ (s : State) (l : Lane) (e : Bool) (n : BitVec 16) (bs : List Byte) (q : Req) (a : BitVec 24), s.arrives l e = true ∧
      n.toNat = bs.length ∧ bs.length ≤ 256 ∧ bs.length % 4 ≠ 0 ∧ s.Serves l a.toNat (some q)) :=
  ⟨⟨up, .A, false, 4, 8, [], true, 5, .A, 0, ⟨0,1⟩, 0, 0, .before, .ringIn .A false true 5 .A 4 8, by decide +kernel⟩,
  ⟨up, .A, false, 3, [1,2,3], ⟨0,1⟩, 0x4060, by decide +kernel, by decide +kernel, by decide +kernel, by decide +kernel,
    ⟨⟨by decide +kernel, by decide +kernel⟩, fun k => by cases k <;> decide, by decide +kernel, by decide +kernel,
    by decide +kernel, by decide +kernel⟩⟩⟩

/-- The hypotheses of RingCycleAndLink, clause by clause, meet in these states and operands. -/
theorem witness_RingCycleAndLink :
    (∃ (s : State) (l : Lane) (e : Bool) (corr : Word) (res : Word) (v : Word), s.arrives l e = true ∧
      v = (corr + if e = homeEnd l then BitVec.ofNat 32 (s.fld l F.RING_DLY_LINK_DLY) else 0) + res ∧ (s.pathCut l !e) = false) ∧
    (∃ (s : State) (l : Lane) (e : Bool) (corr : Word) (res : Word) (v : Word) (d : BitVec 6), s.arrives l e = true ∧
      v = (corr + if e = homeEnd l then BitVec.ofNat 32 (s.fld l F.RING_DLY_LINK_DLY) else 0) + res ∧ (s.pathCut l !e) = true ∧
      s.aon.devnum = some d) ∧
    (∃ (s : State) (l : Lane) (x : Int), s.inReset l = false ∧ -250 ≤ x ∧ x ≤ 250) ∧
    (∃ (s : State) (l : Lane) (x : Int), s.inReset l = false ∧ (10000 < x ∨ x < -10000) ∧ (l = Lane.A ∨ s.linkUp l = false)) ∧
    (∃ (s : State) (l : Lane), s.inReset l = false ∧ s.flag l F.RING_STAT_PORT_CUT = false) ∧
    (∃ (s : State) (l : Lane), s.inReset l = false ∧ s.flag l F.RING_STAT_PORT_CUT = true) ∧
    (∃ (s : State) (l : Lane), s.inReset l = false ∧ s.flag l F.RING_STAT_ORPHAN = false) ∧
    (∃ (s : State) (l : Lane) (q : Option Req), s.Serves l 655472 q) :=
  ⟨⟨up, .A, false, 10, 3, 13, by decide +kernel⟩,
  ⟨upA F.RING_STAT_PORT_CUT 1, .A, true, 10, 3, 13, 5, by decide +kernel⟩,
  ⟨ringUp, .A, 100, by decide +kernel⟩,
  ⟨ringUp, .A, 10001, by decide +kernel⟩,
  ⟨up, .A, by decide +kernel⟩,
  ⟨upA F.RING_STAT_PORT_CUT 1, .A, by decide +kernel⟩,
  ⟨up.put .A F.RING_STAT_ORPHAN 0, .A, by decide +kernel⟩,
  ⟨up.put .A F.RING_CNT_CRC 4, .A, none, ⟨⟨by decide +kernel, by decide +kernel⟩, fun k => by cases k <;> decide, by decide +kernel,
    trivial⟩⟩⟩

/-- The hypotheses of HostRequests, clause by clause, meet in these states and operands. -/
theorem witness_HostRequests :
    (∃ (s : State) (l : Lane) (e : Bool) (dev : BitVec 6) (q : Req) (a : BitVec 24), s.arrives l e = true ∧ s.aon.devnum = some dev ∧
      (s.lane l).dup = false ∧ a.toNat % 4 = 0 ∧ s.turnAway l a.toNat false false = none ∧ (∀ (k : Lane),
      (s.lane k).waiting = []) ∧ (s.lane l).sess[q.sess].periods.length < 16 ∧ s.readFail l a.toNat = none ∧
      (s.pathCut l !e) = false) ∧
    (∃ (s : State) (l : Lane) (e : Bool) (dev : BitVec 6) (q : Req) (a : BitVec 24) (k : Nat) (g : Fin 4) (d : List Byte),
      s.arrives l e = true ∧ s.aon.devnum = some dev ∧ (s.lane l).dup = false ∧ (k = 16480 ∨ k = 16496 ∨ k = 16512) ∧
      a.toNat = k + 4 * g.val ∧ s.Serves l a.toNat (some q) ∧ d.length = 4) ∧
    (∃ (s : State) (l : Lane) (e : Bool) (dev : BitVec 6) (q : Req) (a : BitVec 24) (k : Nat) (g : Fin 4) (d : List Byte) (st : Status),
      s.arrives l e = true ∧ s.aon.devnum = some dev ∧ (s.lane l).dup = false ∧ (k = 16480 ∨ k = 16496 ∨ k = 16512) ∧
      a.toNat = k + 4 * g.val ∧ s.turnAway l a.toNat true false = none ∧ (s.lane l).waiting = [] ∧ d.length = 4 ∧ st ≠ Status.busy ∧
      (s.lane l).sess[q.sess].judge q.seq = SeqVerdict.dup st) ∧
    (∃ (s : State) (l : Lane) (e : Bool) (dev : BitVec 6) (q : Req) (a : BitVec 24) (k : Nat) (g : Fin 4) (d : List Byte),
      s.arrives l e = true ∧ s.aon.devnum = some dev ∧ (s.lane l).dup = false ∧ (k = 16480 ∨ k = 16496 ∨ k = 16512) ∧
      a.toNat = k + 4 * g.val ∧ s.turnAway l a.toNat true false = none ∧ (s.lane l).waiting = [] ∧ d.length = 4 ∧
      (s.lane l).sess[q.sess].judge q.seq = SeqVerdict.stale) ∧
    (∃ (s : State) (l : Lane) (e : Bool) (dev : BitVec 6) (q : Req) (n : BitVec 16), s.arrives l e = true ∧ s.aon.devnum = some dev ∧
      (s.lane l).dup = false ∧ s.turnAway l 659456 true false = none ∧ (∀ (p : PeriodReq),
      p ∈ (s.lane l).sess[q.sess].periods → p.seq ≠ q.seq) ∧ (s.lane l).sess[q.sess].judge q.seq = SeqVerdict.new ∧
      (s.lane l).waiting = [] ∧ (s.lane l).sess[q.sess].periods.length < 16 ∧ n ≠ 0 ∧ n.toNat ≤ 256) :=
  ⟨⟨up, .A, false, 5, ⟨0,1⟩, 0x4060, by decide +kernel, by decide +kernel, by decide +kernel, by decide +kernel, by decide +kernel,
    fun k => by cases k <;> decide, by decide +kernel⟩,
  ⟨up, .A, false, 5, ⟨0,1⟩, 0x4064, 0x4060, 1, [1,2,3,4], by decide +kernel, by decide +kernel, by decide +kernel,
    by decide +kernel, by decide +kernel, ⟨⟨by decide +kernel, by decide +kernel⟩, fun k => by cases k <;> decide,
    by decide +kernel, by decide +kernel, by decide +kernel, by decide +kernel⟩, by decide +kernel⟩,
  ⟨sessUp 5 (some .stateErr), .A, false, 5, ⟨0,5⟩, 0x4064, 0x4060, 1, [1,2,3,4], .stateErr, by decide +kernel⟩,
  ⟨sessUp 5 none, .A, false, 5, ⟨0,0xF000⟩, 0x4064, 0x4060, 1, [1,2,3,4], by decide +kernel⟩,
  ⟨up, .A, false, 5, ⟨0,1⟩, 8, by decide +kernel⟩⟩

/-- The hypotheses of FastCycles, clause by clause, meet in these states and operands. -/
theorem witness_FastCycles :
    (∃ (s : State) (l : Lane), s.ready l = false) ∧
    (∃ (s : State) (l : Lane), s.ready l = true ∧ (s.failed l = true ∨ s.self l = 4)) ∧
    (∃ (s : State) (l : Lane), s.ready l = true ∧ s.failed l = false ∧ s.self l ≠ 4 ∧ 1 ≤ (s.lane l).eng.ovrFast) ∧
    (∃ (s : State) (l : Lane) (ovr : Bool), s.ready l = true ∧ s.failed l = false ∧ s.self l ≠ 4 ∧
      (ovr = true → (s.lane l).eng.ovrFast = 0)) :=
  ⟨⟨State.reset, .A, by decide +kernel⟩,
  ⟨up.put .A F.RED_STAT_SELF 4, .A, by decide +kernel⟩,
  ⟨up.modEng .A (fun e => {e with ovrFast := 1}), .A, by decide +kernel⟩,
  ⟨up, .A, false, by decide +kernel⟩⟩

/-- The hypotheses of MediumAndSlowCycles, clause by clause, meet in these states and operands. -/
theorem witness_MediumAndSlowCycles :
    (∃ (s : State) (l : Lane), s.ready l = false) ∧
    (∃ (s : State) (l : Lane), s.ready l = true ∧ s.failed l = false ∧ s.self l ≠ 4) :=
  ⟨⟨State.reset, .A, by decide +kernel⟩,
  ⟨up, .A, by decide +kernel⟩⟩

end Sys2Proof.Tests
end

section
/-! PROOF. What the island operations of chapter 10 leave in an island: the switch rule, the rails, outputs forced off, and an HV island
that stays down whatever function its leg fault stops. -/
namespace Sys2Proof.Machine

/-- A footprint without the islands leaves them as they are. -/
theorem State.Only.hv_eq {g : Foot} {a s : State} (h : a.Only g s) (hg : .hv ∉ g.parts) : s.hv = a.hv := (h.1 .hv hg).symm

/-- A footprint without a lane's holds and the always-on part leaves resets as they are. -/
theorem State.Only.inReset_eq {g : Foot} {a s : State} (h : a.Only g s) (hh : .hold ∉ g.parts) (ha : .aon ∉ g.parts) (k : Lane) :
    s.inReset k = a.inReset k := by
  have hold : (a.lane k).hold = (s.lane k).hold := h.1 .hold hh k
  have aon : a.aon = s.aon := h.1 .aon ha
  simp only [State.inReset, hold, aon]

/-! ### The switch of a traction island -/

/-- The switch rule sets the switch and its report alone, and turns no switch on in an island that is not usable. -/
theorem State.placeTraction_eq (s : State) (n : Fin 34) : ∃ on : Bool, (s.hv[n].usable = false → on = false) ∧
    s.placeTraction n = s.modHv n (fun h => { h with outOn := on, gateOff := h.gateOff && !on }) :=
  ⟨_, fun hu => by simp only [hu, Bool.not_false, Bool.true_or, if_true], rfl⟩

/-- What a command that ends with the switch rule leaves in its island: the switch of a traction island aside, what it put there. -/
theorem State.placeTraction_if_island (s : State) (n : Fin 34) : ∃ on off : Bool,
    (if n.val < 12 then s.placeTraction n else s).hv[n] = { s.hv[n] with outOn := on, gateOff := off } ∧
      (12 ≤ n.val → on = s.hv[n].outOn) := by
  by_cases hn : n.val < 12
  · obtain ⟨on, -, e⟩ := s.placeTraction_eq n
    exact ⟨on, s.hv[n].gateOff && !on, by rw [if_pos hn, e, State.modHv_same], fun h => by omega⟩
  · exact ⟨s.hv[n].outOn, s.hv[n].gateOff, by rw [if_neg hn], fun _ => rfl⟩

theorem State.setRails_island (s : State) (n : Fin 34) (vp vn : Bool) :
    (s.setRails n vp vn).hv[n] = { s.hv[n] with vpOk := vp, vnOk := vn, usable := vp && vn } := by
  simp [State.setRails]

/-! ### The outputs of the LV island -/

theorem State.modLvCh_get (s : State) (n c : Fin 12) (f : LvChan → LvChan) :
    (s.modLvCh n f).lv.ch[c] = if n = c then f s.lv.ch[n] else s.lv.ch[c] := by
  by_cases h : n = c
  · subst h; simp [State.modLvCh]
  · have hv : n.val ≠ c.val := fun e => h (Fin.ext e)
    simp [State.modLvCh, h, hv]

/-- A bridge turned off has its own outputs low, and turns no other on. -/
theorem State.bridgeOff_outOn (s : State) (a : Fin 2) (c : Fin 12) (h : c ∈ bridgeChans a ∨ s.lv.ch[c].outOn = false) :
    (s.bridgeOff a).lv.ch[c].outOn = false := by
  unfold State.bridgeOff
  generalize bridgeChans a = ns at h
  induction ns generalizing s with
  | nil => exact h.resolve_left List.not_mem_nil
  | cons n ns ih =>
    refine ih _ ?_
    rw [State.modLvCh_get]
    by_cases e : n = c
    · exact .inr (by rw [if_pos e])
    · rw [if_neg e]
      exact h.imp_left (fun hc => (List.mem_cons.mp hc).resolve_left (Ne.symm e))

/-- With both bridges off every output of the LV island is low. -/
theorem State.bridgesOff_outOn (s : State) (c : Fin 12) : ((s.bridgeOff 0).bridgeOff 1).lv.ch[c].outOn = false := by
  have both : ∀ c : Fin 12, c ∈ bridgeChans 0 ∨ c ∈ bridgeChans 1 := by decide
  rcases both c with h | h
  · exact State.bridgeOff_outOn _ 1 c (.inr (State.bridgeOff_outOn s 0 c (.inl h)))
  · exact State.bridgeOff_outOn _ 1 c (.inl h)

/-- VGL lost takes the LV island out of use with every output low (R252). -/
theorem State.vglLost_lv (s : State) : s.vglLost.lv.usable = false ∧ s.vglLost.lv.vglOk = false ∧
    ∀ c : Fin 12, s.vglLost.lv.ch[c].outOn = false := by
  have e : s.vglLost.lv = { ((s.bridgeOff 0).bridgeOff 1).lv with vglOk := false, usable := false } := by
    simp [State.vglLost, State.monEv]
  rw [e]
  exact ⟨rfl, rfl, s.bridgesOff_outOn⟩

/-! ### An HV island that is down stays down -/

/-- Island n is out of use with its VP rail bad and its output off. -/
def State.HvDown (s : State) (n : Fin 34) : Prop := s.hv[n].usable = false ∧ s.hv[n].vpOk = false ∧ s.hv[n].outOn = false

namespace State.HvDown
variable {s t : State} {n : Fin 34}

theorem of_hv (h : s.HvDown n) (e : t.hv = s.hv) : t.HvDown n := by
  unfold State.HvDown
  rwa [e]

theorem modHv (h : s.HvDown n) (m : Fin 34) (f : HvIsl → HvIsl) (hu : (f s.hv[m]).usable = s.hv[m].usable)
    (hv : (f s.hv[m]).vpOk = s.hv[m].vpOk) (ho : s.hv[m].usable = false → s.hv[m].outOn = false → (f s.hv[m]).outOn = false) :
    (s.modHv m f).HvDown n := by
  unfold State.HvDown
  rw [State.modHv_get]
  split
  · next e =>
    subst e
    exact ⟨hu.trans h.1, hv.trans h.2.1, ho h.1 h.2.2⟩
  · exact h

theorem fold {α : Type} (xs : List α) (f : State → α → State) (h : s.HvDown n) (hf : ∀ t x, t.HvDown n → (f t x).HvDown n) :
    (xs.foldl f s).HvDown n :=
  List.foldlRecOn (motive := fun t => t.HvDown n) xs f h (fun t ht x _ => hf t x ht)

theorem gatesOff (h : s.HvDown n) (ns : List (Fin 34)) : (s.gatesOff ns).HvDown n :=
  h.fold _ _ (fun _ m ht => ht.modHv m _ rfl rfl (fun _ _ => rfl))

theorem placeTraction (h : s.HvDown n) (m : Fin 34) : (s.placeTraction m).HvDown n := by
  obtain ⟨on, hon, e⟩ := s.placeTraction_eq m
  rw [e]
  exact h.modHv m _ rfl rfl (fun hu _ => hon hu)

theorem placeSet (h : s.HvDown n) (l : Lane) : (s.placeSet l).HvDown n :=
  (h.fold _ _ (fun _ m ht => ht.placeTraction m)).fold _ _ (fun _ m ht => ht.placeTraction m)

end State.HvDown

/-! ### The functions that a leg fault stops -/

@[simp] theorem State.loopOpen_hv (s : State) (l : Lane) (n : Nat) : (s.loopOpen l n).hv = s.hv := by simp [State.loopOpen]
@[simp] theorem State.smGoto_hv (s : State) (l : Lane) (st : Nat) : (s.smGoto l st).hv = s.hv := by simp [State.smGoto]
@[simp] theorem State.setRamp_hv (s : State) (l : Lane) (v : Nat) : (s.setRamp l v).hv = s.hv := by simp [State.setRamp]
@[simp] theorem State.chgEnd_hv (s : State) (l : Lane) (c : Nat) : (s.chgEnd l c).hv = s.hv := by simp [State.chgEnd]
@[simp] theorem State.driveS2_hv (s : State) (l : Lane) (on : Bool) : (s.driveS2 l on).hv = s.hv := by simp [State.driveS2]
@[simp] theorem State.setReg_hv (s : State) (l : Lane) (b : Bool) : (s.setReg l b).hv = s.hv :=
  (State.setReg_only (g := ⟨[], [0x30], false⟩) .refl l b (by decide)).hv_eq (by decide)
@[simp] theorem State.askK_hv (s : State) (l : Lane) (n : Nat) (on : Bool) : (s.askK l n on).hv = s.hv :=
  (State.askK_only (g := ⟨[.aon, .mon], [0x50], false⟩) .refl l n on (by decide)).hv_eq (by decide)

@[simp] theorem State.inReset_driveK (s : State) (k : Lane) : s.driveK.inReset k = s.inReset k := by
  unfold State.driveK
  refine ((State.showK_only (g := ⟨[], [0x50], false⟩) .refl (by decide)).inReset_eq (by decide) (by decide) k).trans ?_
  refine List.foldlRecOn (motive := fun t : State => t.inReset k = s.inReset k) _ _ rfl (fun t ht n _ => ?_)
  dsimp only
  repeat' split
  all_goals exact ht

@[simp] theorem State.inReset_askK (s : State) (l : Lane) (n : Nat) (on : Bool) (k : Lane) : (s.askK l n on).inReset k = s.inReset k :=
  State.inReset_driveK _ k

theorem State.inReset_setFault (s : State) (l : Lane) (c : Nat) (k : Lane) : (s.setFault l c).inReset k = s.inReset k :=
  (State.setFault_only (g := ⟨[.hv, .trc, .loopReq], [0x10, 0x11], false⟩) .refl l c (by decide)).inReset_eq (by decide) (by decide) k

theorem State.inReset_phaseStop (s : State) (l : Lane) (m : Nat) (k : Lane) : (s.phaseStop l m).inReset k = s.inReset k :=
  (State.phaseStop_only (g := ⟨[.hv], [0x30], false⟩) .refl l m (by decide)).inReset_eq (by decide) (by decide) k

@[simp] theorem State.inReset_gatesOff (s : State) (ns : List (Fin 34)) (k : Lane) : (s.gatesOff ns).inReset k = s.inReset k :=
  (State.gatesOff_only (g := ⟨[.hv], [], false⟩) .refl ns (by decide)).inReset_eq (by decide) (by decide) k
@[simp] theorem State.inReset_loopOpen (s : State) (l : Lane) (n : Nat) (k : Lane) : (s.loopOpen l n).inReset k = s.inReset k :=
  (State.loopOpen_only (g := ⟨[.loopReq], [0x10], false⟩) .refl l n (by decide)).inReset_eq (by decide) (by decide) k
@[simp] theorem State.inReset_setReg (s : State) (l : Lane) (b : Bool) (k : Lane) : (s.setReg l b).inReset k = s.inReset k :=
  (State.setReg_only (g := ⟨[], [0x30], false⟩) .refl l b (by decide)).inReset_eq (by decide) (by decide) k
@[simp] theorem State.inReset_chgEnd (s : State) (l : Lane) (c : Nat) (k : Lane) : (s.chgEnd l c).inReset k = s.inReset k :=
  (State.chgEnd_only (g := ⟨[], [0x33], false⟩) .refl l c (by decide)).inReset_eq (by decide) (by decide) k
@[simp] theorem State.inReset_driveS2 (s : State) (l : Lane) (on : Bool) (k : Lane) : (s.driveS2 l on).inReset k = s.inReset k :=
  State.inReset_put s l k _ _

theorem State.inReset_chgFault (s : State) (l : Lane) (c : Nat) (k : Lane) : (s.chgFault l c).inReset k = s.inReset k := by
  unfold State.chgFault
  split
  · rfl
  · simp

namespace State.HvDown
variable {s : State} {n : Fin 34}

theorem setFault (h : s.HvDown n) (l : Lane) (c : Nat) : (s.setFault l c).HvDown n := by
  unfold State.setFault State.safeEntry
  split
  · exact h
  · dsimp only
    refine of_hv (placeSet (gatesOff (h.of_hv ?_) _) l) (State.pulseEv_hv _ _ _ _ (by simp))
    simp

theorem phaseStop (h : s.HvDown n) (l : Lane) (m : Nat) : (s.phaseStop l m).HvDown n := by
  unfold State.phaseStop
  split
  · exact h
  · exact (h.gatesOff (phaseChans m)).of_hv (by simp [State.setPhaseActive])

theorem chgFault (h : s.HvDown n) (l : Lane) (c : Nat) : (s.chgFault l c).HvDown n := by
  unfold State.chgFault
  split
  · exact h
  · exact ((h.of_hv (State.put_hv s l F.CHG_STAT_STATE 9)).gatesOff (afeChans ++ dabChans)).of_hv (by simp)

end State.HvDown

end Sys2Proof.Machine
end

section
/-! PROOF. A leg fault of an HV leg (R245): what it stops, the bit that it latches, and that the other lane's bit, the lanes' resets and
a down island stay as they are. -/
namespace Sys2Proof.Machine

/-- For an HV leg the owner's function stops by one of three reactions. -/
theorem State.legConsequence_cases (s : State) (leg : Nat) (o : Lane) (hleg : leg < 17) : s.legConsequence leg o = s.setFault o 3 ∨
    s.legConsequence leg o = s.phaseStop o (leg - 5) ∨ s.legConsequence leg o = s.chgFault o 9 := by
  simp only [State.legConsequence, hleg, if_true]
  split
  · exact .inl rfl
  · split
    · exact .inr (.inl rfl)
    · exact .inr (.inr rfl)

theorem State.inReset_legConsequence (s : State) (leg : Nat) (o k : Lane) (hleg : leg < 17) :
    (s.legConsequence leg o).inReset k = s.inReset k := by
  rcases s.legConsequence_cases leg o hleg with e | e | e <;> rw [e]
  · exact s.inReset_setFault o 3 k
  · exact s.inReset_phaseStop o _ k
  · exact s.inReset_chgFault o 9 k

theorem State.HvDown.legConsequence {s : State} {n : Fin 34} (h : s.HvDown n) (leg : Nat) (o : Lane) (hleg : leg < 17) :
    (s.legConsequence leg o).HvDown n := by
  rcases s.legConsequence_cases leg o hleg with e | e | e <;> rw [e]
  · exact h.setFault o 3
  · exact h.phaseStop o _
  · exact h.chgFault o 9

/-! ### The latched bits -/

/-- The LEG_FAULT field that is read for a leg: that of its first page. -/
def legReg (leg : Nat) : Fld := legFld ((legPages leg).headD 0)

/-- What stopping a function after a leg fault may change: no page of a gate channel among it. -/
def stopFoot : Foot := ⟨[.hv, .lv, .aon, .mon, .trc, .chg, .loopReq], [0x10, 0x11, 0x30, 0x31, 0x32, 0x33, 0x34, 0x50], false⟩

theorem legReg_plain (leg : Nat) (hleg : leg < 17) : evAddr (legReg leg).addr = false ∧ stopFoot.has (legReg leg).addr = false ∧
    F.RED_STAT_SUBJ_OK.addr ≠ (legReg leg).addr :=
  (by decide : ∀ leg : Fin 17, evAddr (legReg leg.val).addr = false ∧ stopFoot.has (legReg leg.val).addr = false ∧
    F.RED_STAT_SUBJ_OK.addr ≠ (legReg leg.val).addr) ⟨leg, hleg⟩

theorem State.legConsequence_legBits (s : State) (leg : Nat) (o : Lane) (hleg : leg < 17) :
    (s.legConsequence leg o).legBits leg = s.legBits leg :=
  congrArg (fun w => bits w _ _) ((State.legConsequence_only (g := stopFoot) .refl leg o (by decide)).2 .A _ (legReg_plain leg hleg).2.1)

/-- LEG_FAULT is two bits wide. -/
theorem State.setLegBits_legBits (s : State) (leg v : Nat) (hleg : leg < 17) : (s.setLegBits leg v).legBits leg = v % 2 ^ 2 := by
  have pages : legPages leg = [0x30000 + 2 * leg * 0x1000, 0x30000 + (2 * leg + 1) * 0x1000] := if_pos hleg
  have low : ∀ p, p < 0x60000 → legFld p = ⟨p + 0x068, 0, 2⟩ := fun p hp => if_pos hp
  simp only [State.setLegBits, State.legBits, pages, List.foldl_cons, List.foldl_nil, List.headD_cons, State.mput_eq, State.mfld_eq]
  rw [low (0x30000 + 2 * leg * 0x1000) (by omega), low (0x30000 + (2 * leg + 1) * 0x1000) (by omega), State.fld_put_ne,
    State.fld_put_same _ _ _ _ (Nat.le_of_ble_eq_true rfl)]
  · show 0x30000 + (2 * leg + 1) * 0x1000 + 0x068 ≠ 0x30000 + 2 * leg * 0x1000 + 0x068
    omega

/-- The bit of a lane in a mask of lanes. -/
theorem Lane.testBit_shift_idx (l k : Lane) : (1 <<< l.idx).testBit k.idx = (k == l) := by cases k <;> cases l <;> rfl

/-- The lane's bit latched and the leg fault reported, before anything stops. -/
def State.legLatched (s : State) (l : Lane) (leg : Nat) : State :=
  (s.setLegBits leg (s.legBits leg ||| (1 <<< l.idx))).levelEv .A (legEv leg) true

theorem State.legLatched_legBits (s : State) (l : Lane) (leg : Nat) (hleg : leg < 17) :
    (s.legLatched l leg).legBits leg = (s.legBits leg ||| (1 <<< l.idx)) % 2 ^ 2 :=
  (State.levelEv_fld _ _ _ _ (legEv_proper leg (by omega)) .A (legReg leg) (legReg_plain leg hleg).1).trans (s.setLegBits_legBits leg _ hleg)

theorem State.inReset_legLatched (s : State) (l : Lane) (leg : Nat) (k : Lane) (hleg : leg < 17) :
    (s.legLatched l leg).inReset k = s.inReset k :=
  (State.levelEv_inReset _ _ _ _ (legEv_proper leg (by omega)) k).trans
    (List.foldlRecOn (motive := fun t : State => t.inReset k = s.inReset k) _ _ rfl (fun t ht _ _ => (State.inReset_put t _ k _ _).trans ht))

theorem State.legLatched_hv (s : State) (l : Lane) (leg : Nat) (hleg : leg < 17) : (s.legLatched l leg).hv = s.hv :=
  (State.levelEv_hv _ _ _ _ (legEv_proper leg (by omega))).trans
    (List.foldlRecOn (motive := fun t : State => t.hv = s.hv) _ _ rfl (fun t ht _ _ => (State.put_hv t _ _ _).trans ht))

/-- A leg fault changes nothing through a lane in reset; else it latches, and stops the owner's function or marks the standby's
computation invalid, or neither. -/
theorem State.legFault_cases (s : State) (l : Lane) (leg : Nat) : (s.inReset l = true ∧ s.legFault l leg = s) ∨
    (s.inReset l = false ∧ (s.legFault l leg = (s.legLatched l leg).legConsequence leg l ∨
      s.legFault l leg = (s.legLatched l leg).putFlag l F.RED_STAT_SUBJ_OK false ∨ s.legFault l leg = s.legLatched l leg)) := by
  cases h : s.inReset l with
  | true => exact .inl ⟨rfl, if_pos h⟩
  | false =>
    refine .inr ⟨rfl, ?_⟩
    simp only [State.legFault, h, Bool.false_eq_true, if_false]
    split
    · exact .inl rfl
    · split
      · exact .inr (.inl rfl)
      · exact .inr (.inr rfl)

/-- A leg fault latches the bit of its lane, unless that lane is in reset, and keeps the other lane's. -/
theorem State.legFault_testBit (s : State) (l k : Lane) (leg : Nat) (hleg : leg < 17) :
    ((s.legFault l leg).legBits leg).testBit k.idx = ((s.legBits leg).testBit k.idx || (k == l && !s.inReset l)) := by
  rcases s.legFault_cases l leg with ⟨hr, e⟩ | ⟨hr, stopped⟩
  · simp [e, hr]
  · have bits : (s.legFault l leg).legBits leg = (s.legLatched l leg).legBits leg := by
      rcases stopped with e | e | e <;> rw [e]
      · exact State.legConsequence_legBits _ leg l hleg
      · exact State.fld_put_ne _ _ _ _ (legReg leg) _ (legReg_plain leg hleg).2.2
    have hk : k.idx < 2 := by cases k <;> decide
    rw [bits, s.legLatched_legBits l leg hleg, Nat.testBit_mod_two_pow, Nat.testBit_or, Lane.testBit_shift_idx]
    simp [hr, hk]

theorem State.inReset_legFault (s : State) (l : Lane) (leg : Nat) (k : Lane) (hleg : leg < 17) :
    (s.legFault l leg).inReset k = s.inReset k := by
  have latched := s.inReset_legLatched l leg k hleg
  rcases s.legFault_cases l leg with ⟨-, e⟩ | ⟨-, e | e | e⟩ <;> rw [e]
  · exact (State.inReset_legConsequence _ leg l k hleg).trans latched
  · exact (State.inReset_put _ _ k _ _).trans latched
  · exact latched

theorem State.HvDown.legFault {s : State} {n : Fin 34} (h : s.HvDown n) (l : Lane) (leg : Nat) (hleg : leg < 17) :
    (s.legFault l leg).HvDown n := by
  have latched : (s.legLatched l leg).HvDown n := h.of_hv (s.legLatched_hv l leg hleg)
  rcases s.legFault_cases l leg with ⟨-, e⟩ | ⟨-, e | e | e⟩ <;> rw [e]
  · exact h
  · exact latched.legConsequence leg l hleg
  · exact latched.of_hv (State.put_hv ..)
  · exact latched

/-! ### Undervoltage -/

theorem legOf_lt_hv (n : Fin 34) : legOf n < 17 := by
  have := n.isLt
  simp only [legOf]
  omega

/-- An undervoltage of VP puts the island down and latches the leg fault of every lane out of reset (R240, R245). -/
theorem State.undervolt_vp (s : State) (n : Fin 34) (vn : Bool) : (s.undervolt n true vn).HvDown n ∧
    ∀ l, s.inReset l = false → ((s.undervolt n true vn).legBits (legOf n)).testBit l.idx = true := by
  obtain ⟨t, down, reset, e⟩ : ∃ t : State, t.HvDown n ∧ (∀ l, t.inReset l = s.inReset l) ∧
      s.undervolt n true vn = (t.legFault .A (legOf n)).legFault .B (legOf n) := by
    refine ⟨_, ?_, fun l => ?_, rfl⟩
    · refine State.HvDown.of_hv ?_ (State.pulseEv_hv _ .A E.MON_ISLAND_DOWN false E.MON_ISLAND_DOWN_proper)
      unfold State.HvDown
      rw [State.modHv_same, State.setRails_island]
      exact ⟨by simp, by simp, rfl⟩
    · simp [State.monEv, State.setRails]
  have hleg := legOf_lt_hv n
  rw [e]
  refine ⟨(down.legFault .A _ hleg).legFault .B _ hleg, fun l hl => ?_⟩
  rw [State.legFault_testBit _ _ _ _ hleg, State.legFault_testBit _ _ _ _ hleg, State.inReset_legFault _ _ _ _ hleg, reset, reset]
  cases l <;> simp [hl]

end Sys2Proof.Machine
end

section
/-! PROOF. O10: islands become usable, lose their supply, their rails and their streams (R50, R58, R83, R84, R240, R249, R250, R252). -/
namespace Sys2Proof.Machine

/-! ### Usable and recovered -/

theorem completes_done {s : State} {P : State → Prop} (h : P s) : Completes (done s) P := ⟨s, rfl, h⟩

theorem hvIsland_usable (s : State) (n : Fin 34) (hu : s.hv[n].usable = false) : Completes (exec (.islandUsable (.hv n)) s) fun u =>
    u.hv[n].usable = true ∧ u.hv[n].vpOk = true ∧ u.hv[n].vnOk = true ∧ u.hv[n].scLatch = false ∧ u.hv[n].ovsAct = false ∧
    (s.mon.alive = true → s.aon.nPor = false → u.hv[n].ownerB = (s.token == .B) ∧ u.hv[n].tokenOk = true ∧ u.hv[n].mode = some s.asc) := by
  refine completes_done ?_
  obtain ⟨on, off, e, -⟩ := State.placeTraction_if_island _ n
  rw [e, State.levelEv_hv _ _ _ _ (E.GDH_STREAM_proper _), State.setRails_island, if_neg (Bool.eq_false_iff.mp hu), State.modHv_same]
  exact ⟨rfl, rfl, rfl, rfl, rfl, fun ha hp => by simp [ha, hp]⟩

theorem senseIsland_usable (s : State) (n : Fin 7) : Completes (exec (.islandUsable (.sense n)) s) fun u => u.sns[n].usable = true :=
  completes_done (by simp)

theorem lvIsland_usable (s : State) (hu : s.lv.usable = false) : Completes (exec (.islandUsable .lv) s) fun u =>
    u.lv.usable = true ∧ u.lv.vglOk = true ∧ u.lv.ownerB0 = (s.token == .B) ∧ u.lv.ownerB1 = (s.token == .B) :=
  completes_done (by simp [hu])

theorem hvIsland_recovers (s : State) (n : Fin 34) (hb : (s.hv[n].vpOk && s.hv[n].vnOk) = false) :
    Completes (exec (.uvloRecover n) s) fun u => u.hv[n].usable = true ∧ u.hv[n].vpOk = true ∧ u.hv[n].vnOk = true := by
  refine completes_done ?_
  rw [if_neg (Bool.eq_false_iff.mp hb)]
  obtain ⟨on, off, e, -⟩ := (s.setRails n true true).placeTraction_if_island n
  dsimp only
  rw [e, State.setRails_island]
  exact ⟨rfl, rfl, rfl⟩

/-! ### Supplies and rails lost -/

theorem hvIsland_supplyLost (s : State) (n : Fin 34) : Completes (exec (.islandSupplyLost (.hv n)) s) fun u =>
    u.hv[n].usable = false ∧ u.hv[n].outOn = false ∧ u.hv[n].mode = none ∧ u.hv[n].scLatch = false := by
  refine completes_done ?_
  rw [State.modHv_same]
  exact ⟨rfl, rfl, rfl, rfl⟩

theorem senseIsland_supplyLost (s : State) (n : Fin 7) :
    Completes (exec (.islandSupplyLost (.sense n)) s) fun u => u.sns[n].usable = false :=
  completes_done (by simp [State.monEv])

theorem lvIsland_supplyLost (s : State) (hu : s.lv.usable = true) : Completes (exec (.islandSupplyLost .lv) s) fun u =>
    u.lv.usable = false ∧ ∀ c : Fin 12, u.lv.ch[c].outOn = false := by
  refine completes_done ?_
  rw [if_pos hu]
  exact ⟨s.vglLost_lv.1, s.vglLost_lv.2.2⟩

theorem lvIsland_vglLost (s : State) (hu : s.lv.usable = true) : Completes (exec .gdlUvlo s) fun u =>
    u.lv.usable = false ∧ u.lv.vglOk = false ∧ ∀ c : Fin 12, u.lv.ch[c].outOn = false := by
  refine completes_done ?_
  rw [if_pos hu]
  exact s.vglLost_lv

theorem hvIsland_undervoltage (s : State) (n : Fin 34) (hu : s.hv[n].usable = true) : Completes (exec (.uvlo n true false) s) fun u =>
    u.hv[n].usable = false ∧ u.hv[n].vpOk = false ∧ u.hv[n].outOn = false ∧
    ∀ l, s.inReset l = false → (u.legBits (legOf n)).testBit l.idx = true := by
  refine completes_done ?_
  rw [if_pos (by simp only [hu, Bool.true_or, Bool.true_and])]
  obtain ⟨⟨down, vp, out⟩, bits⟩ := s.undervolt_vp n (false && s.mfld (F.GDH_CFG_UVN_SEL n.val) != 0)
  exact ⟨down, vp, out, bits⟩

/-! ### Streams lost and resumed -/

theorem State.mbump_if_hv (s : State) (p : Prop) [Decidable p] (f : Fld) : (if p then s.mbump f else s).hv = s.hv := by
  split
  · exact State.put_hv ..
  · rfl

theorem hvIsland_streamLost (s : State) (n : Fin 34) (hu : s.hv[n].usable = true) (hl : s.hv[n].lost = false) :
    Completes (exec (.streamLost (.hv n)) s) fun u =>
      u.hv[n].lost = true ∧ u.hv[n].ascFree = false ∧ u.hv[n].mode = (if s.lineOk n then some s.asc else s.hv[n].mode) ∧
      (12 ≤ n.val → u.hv[n].outOn = false) := by
  have run : exec (.streamLost (.hv n)) s = _ := if_neg (by simp only [hu, hl]; decide)
  rw [run]
  refine completes_done ?_
  obtain ⟨on, off, e, hon⟩ := State.placeTraction_if_island _ n
  rw [State.levelEv_hv _ _ _ _ (E.GDH_STREAM_proper _), State.mbump_if_hv, State.modHv_same] at e hon
  rw [e]
  exact ⟨rfl, rfl, rfl, hon⟩

theorem lvIsland_streamLost (s : State) (hu : s.lv.usable = true) (hl : s.lv.lost = false) :
    Completes (exec (.streamLost .lv) s) fun u => u.lv.lost = true ∧ ∀ c : Fin 12, u.lv.ch[c].outOn = false := by
  have run : exec (.streamLost .lv) s = _ := if_neg (by simp only [hu, hl]; decide)
  rw [run]
  refine completes_done ?_
  rw [State.levelEv_lv _ _ _ _ (E.GDL_STREAM_proper _)]
  exact ⟨rfl, s.bridgesOff_outOn⟩

theorem hvIsland_streamResumed (s : State) (n : Fin 34) (hl : s.hv[n].lost = true) : Completes (exec (.streamResumed (.hv n)) s) fun u =>
    u.hv[n].lost = false ∧ u.hv[n].ascFree = false ∧ u.hv[n].ascOvs = false := by
  have run : exec (.streamResumed (.hv n)) s = _ := if_neg (by simp only [hl]; decide)
  rw [run]
  refine completes_done ?_
  obtain ⟨on, off, e, -⟩ := State.placeTraction_if_island _ n
  rw [e, State.levelEv_hv _ _ _ _ (E.GDH_STREAM_proper _), State.modHv_same]
  exact ⟨rfl, rfl, rfl⟩

theorem lvIsland_streamResumed (s : State) : Completes (exec (.streamResumed .lv) s) fun u => u.lv.lost = false := by
  refine completes_done ?_
  split
  · simp
  · next h => simpa using h

/-- Settles O10, clause by clause: what each command writes into its island is kept by the events, leg faults and switch rule that
follow it. -/
theorem islandsComeAndGo : Obligations.IslandsComeAndGo :=
  ⟨hvIsland_usable, senseIsland_usable, lvIsland_usable, hvIsland_supplyLost, senseIsland_supplyLost,
    fun s hu => ⟨lvIsland_supplyLost s hu, lvIsland_vglLost s hu⟩, hvIsland_undervoltage, hvIsland_recovers, hvIsland_streamLost,
    lvIsland_streamLost, hvIsland_streamResumed, lvIsland_streamResumed⟩

end Sys2Proof.Machine
end

section
/-! PROOF. Accesses through a lane (chapter 4): what an access that is served at once does, and how a write of one register word ends. -/
namespace Sys2Proof.Machine

/-! ### What events leave of the conditions of an access -/

theorem State.EvOnly.only {a s : State} (h : a.EvOnly s) : a.Only {} s := State.Only.refl.events h

theorem State.EvOnly.trans {a b c : State} (h : a.EvOnly b) (k : b.EvOnly c) : a.EvOnly c where
  hv := k.hv.trans h.hv
  lv := k.lv.trans h.lv
  sns := k.sns.trans h.sns
  aon := k.aon.trans h.aon
  time := k.time.trans h.time
  timeOfs := k.timeOfs.trans h.timeOfs
  free := k.free.trans h.free
  lane := fun l => (k.lane l).trans (h.lane l)
  mon := k.mon.trans h.mon
  word := fun l n hn => (k.word l n hn).trans (h.word l n hn)

theorem State.EvOnly.inReset_eq {a s : State} (h : a.EvOnly s) (k : Lane) : s.inReset k = a.inReset k :=
  h.only.inReset_eq (by decide) (by decide) k

theorem State.EvOnly.waiting_eq {a s : State} (h : a.EvOnly s) (k : Lane) : (s.lane k).waiting = (a.lane k).waiting :=
  (h.only.1 .waiting (by decide) k).symm

theorem State.EvOnly.sess_eq {a s : State} (h : a.EvOnly s) (k : Lane) : (s.lane k).sess = (a.lane k).sess :=
  (h.only.1 .sess (by decide) k).symm

theorem State.EvOnly.answered_eq {a s : State} (h : a.EvOnly s) (k : Lane) : s.answered k = a.answered k :=
  congrArg Answer.status (h.only.1 .answer (by decide) k).symm

theorem State.EvOnly.turnAway_eq {a s : State} (h : a.EvOnly s) (l : Lane) (n : Nat) (w r : Bool) :
    s.turnAway l n w r = a.turnAway l n w r := by
  have boot : (s.lane l).boot = (a.lane l).boot := (h.only.1 .boot (by decide) l).symm
  have failed : s.failed l = a.failed l := by simp only [State.failed, State.self, State.fld, h.word _ F.RED_STAT_SELF.addr rfl]
  unfold State.turnAway
  rw [boot, failed]

theorem State.EvOnly.linkUp_eq {a s : State} (h : a.EvOnly s) (l : Lane) : s.linkUp l = a.linkUp l := by
  simp only [State.linkUp, State.flag, State.fld, h.word _ F.CONJ_STAT_LINK_UP.addr rfl]

theorem State.EvOnly.armedAt_eq {a s : State} (h : a.EvOnly s) (l : Lane) (n : Nat) : s.armedAt l n = a.armedAt l n := by
  have shadows : ∀ k, (s.lane k).shadows = (a.lane k).shadows := fun k => (h.only.1 .shadows (by decide) k).symm
  simp only [State.armedAt, shadows, h.linkUp_eq]

theorem State.EvOnly.takes {a s : State} (h : a.EvOnly s) {l : Lane} {n : Nat} (t : a.Takes l n) : s.Takes l n :=
  ⟨(h.inReset_eq l).trans t.1, (h.turnAway_eq l n true false).trans t.2⟩

theorem State.EvOnly.serves {a s : State} (h : a.EvOnly s) {l : Lane} {n : Nat} {q : Option Req} (v : a.Serves l n q) :
    s.Serves l n q := by
  obtain ⟨takes, waiting, armed, number⟩ := v
  refine ⟨h.takes takes, fun k => (h.waiting_eq k).trans (waiting k), (h.armedAt_eq l n).trans armed, ?_⟩
  cases q with
  | none => trivial
  | some r =>
    have red : (s.lane l.other).red = (a.lane l.other).red := (h.only.1 .red (by decide) l.other).symm
    simpa only [h.sess_eq, red] using number

/-! ### An access that nothing holds up -/

/-- The exception that R408 makes for RETEST only takes more writes. -/
theorem State.turnAway_retest {s : State} {l : Lane} {n : Nat} {w : Bool} (h : s.turnAway l n w false = none) (r : Bool) :
    s.turnAway l n w r = none := by
  cases r
  · exact h
  · unfold State.turnAway at h ⊢
    dsimp only at h ⊢
    split at h
    · exact h
    · exact h
    · split at h
      · cases h
      · rw [if_neg ‹_›, if_neg (by simp)]

/-- Nothing waits, so nothing becomes free. -/
theorem State.drain_idle {s : State} (h : ∀ k, (s.lane k).waiting = []) : s.drain = s := by
  simp only [State.drain, State.both, h, List.length_nil, State.drainN]

/-- An access that is new, is neither turned away nor rejected by the rules of its frame, and waits behind nothing, is performed at
once. -/
theorem State.access_now {s : State} {l : Lane} {x : Access} (reset : s.inReset l = false)
    (away : s.turnAway l x.addr x.isWrite x.retest = none) (waiting : (s.lane l).waiting = []) (new : s.judged l x = .new)
    (few : ∀ k, x.sess = some k → (s.lane l).sess[k].periods.length < 16)
    (free : x.isWrite = true → x.words.any (s.armedAt l) = false) : s.access l x = (s.finish l x).drain := by
  have join : s.joinWaiting l x = none := by simp [State.joinWaiting, waiting]
  have room : x.sess.any (fun k => decide (s.outstanding l k ≥ 16)) = false := by
    cases e : x.sess with
    | none => rfl
    | some k => simpa [State.outstanding, waiting] using few k e
  have wait : s.mustWait l x [] = false := by
    cases e : x.isWrite with
    | false => simp [State.mustWait, e]
    | true => simp [State.mustWait, e, free e]
  unfold State.access
  simp only [reset, away, join, new, room, waiting, wait, Bool.false_eq_true, if_false] <;> rfl

/-- A write enters its number with its status in the record of its session (R105). -/
def State.noted (s : State) (l : Lane) (q : Option Req) (st : Status) : State :=
  match q with
  | some r => s.accept l r.sess r.seq st
  | none => s

theorem State.noted_only (s : State) (l : Lane) (q : Option Req) (st : Status) : s.Only { parts := [.sess], pages := [0x40] } (s.noted l q st) := by
  cases q with
  | none => exact State.Only.refl
  | some r => exact State.accept_only State.Only.refl l r.sess r.seq st (by decide)

theorem State.putWord_mon_of_lane (s : State) (l : Lane) {n : Nat} (w : Word) (h : monAddr n = false) : (s.putWord l n w).mon = s.mon := by
  simp only [State.putWord, h, Bool.false_eq_true, if_false, State.modLane_mon]

theorem State.put_mon_of_lane (s : State) (l : Lane) {f : Fld} (v : Nat) (h : monAddr f.addr = false) : (s.put l f v).mon = s.mon :=
  s.putWord_mon_of_lane l _ h

@[simp] theorem State.accept_mon (s : State) (l : Lane) (k : Fin 4) (n : BitVec 16) (st : Status) : (s.accept l k n st).mon = s.mon := by
  unfold State.accept State.showSeq
  dsimp only
  rw [State.put_mon_of_lane _ _ _ (by decide), State.put_mon_of_lane _ _ _ (by decide), State.put_mon_of_lane _ _ _ (by decide),
    State.put_mon_of_lane _ _ _ (by decide), State.modLane_mon]

@[simp] theorem State.noted_mon (s : State) (l : Lane) (q : Option Req) (st : Status) : (s.noted l q st).mon = s.mon := by
  cases q with
  | none => rfl
  | some r => exact s.accept_mon ..

/-- Words outside the RED page are as they were before a number was entered. -/
theorem State.noted_word (s : State) (l k : Lane) (q : Option Req) (st : Status) {n : Nat} (h : typeAt n ≠ 0x40) :
    (s.noted l q st).word k n = s.word k n := by
  have ne : ∀ m : Nat, typeAt m = 0x40 → m ≠ n := fun m hm hn => h (hn ▸ hm)
  cases q with
  | none => rfl
  | some r =>
    unfold State.noted State.accept State.showSeq
    dsimp only
    rw [State.word_put_ne _ _ _ _ _ _ (ne _ (by decide)), State.word_put_ne _ _ _ _ _ _ (ne _ (by decide)),
      State.word_put_ne _ _ _ _ _ _ (ne _ (by decide)), State.word_put_ne _ _ _ _ _ _ (ne _ (by decide)), State.word_modLane _ _ _ _ _ rfl]

theorem State.noted_answered (s : State) (l k : Lane) (q : Option Req) (st : Status) : (s.noted l q st).answered k = s.answered k :=
  congrArg Answer.status ((s.noted_only l q st).1 .answer (by decide) k).symm

theorem State.noted_inReset (s : State) (l k : Lane) (q : Option Req) (st : Status) : (s.noted l q st).inReset k = s.inReset k :=
  (s.noted_only l q st).inReset_eq (by decide) (by decide) k

theorem State.noted_waiting (s : State) (l k : Lane) (q : Option Req) (st : Status) :
    ((s.noted l q st).lane k).waiting = (s.lane k).waiting := ((s.noted_only l q st).1 .waiting (by decide) k).symm

@[simp] theorem State.reply_answered (s : State) (l : Lane) (st : Status) (d : Word) : (s.reply l st d).answered l = st := by
  simp [State.answered, State.reply]

@[simp] theorem State.reply_mon (s : State) (l : Lane) (st : Status) (d : Word) : (s.reply l st d).mon = s.mon := rfl

@[simp] theorem State.reply_word (s : State) (l k : Lane) (st : Status) (d : Word) (n : Nat) : (s.reply l st d).word k n = s.word k n :=
  State.word_modLane _ _ _ _ _ rfl

theorem State.reply_answer_only (s : State) (l : Lane) (st : Status) (d : Word) : s.Only { parts := [.answer] } (s.reply l st d) :=
  State.reply_only State.Only.refl l st d (by decide)

theorem State.reply_inReset (s : State) (l k : Lane) (st : Status) (d : Word) : (s.reply l st d).inReset k = s.inReset k :=
  (s.reply_answer_only l st d).inReset_eq (by decide) (by decide) k

theorem State.reply_waiting (s : State) (l k : Lane) (st : Status) (d : Word) : ((s.reply l st d).lane k).waiting = (s.lane k).waiting :=
  ((s.reply_answer_only l st d).1 .waiting (by decide) k).symm

/-! ### Responses on the ring -/

theorem State.answerTo_events (s : State) (l : Lane) (type : Byte) (q : Req) (a : Nat) (d : List Byte) (e : Bool) :
    s.EvOnly (s.answerTo l type q a d e) := by
  have busy : s.EvOnly (if (s.lane l).answer.status == Status.busy then s.bump l F.RING_CNT2_BUSY else s) :=
    State.EvOnly.refl.bump l F.RING_CNT2_BUSY 1 rfl |>.ite State.EvOnly.refl
  exact (busy.send l e _).ite busy

theorem State.respond_events (s : State) (l : Lane) (x : Access) (d : List Byte) : s.EvOnly (s.respond l x d) := by
  unfold State.respond
  split
  · exact State.EvOnly.refl
  · exact State.EvOnly.fold _ _ State.EvOnly.refl fun t e h => h.trans (t.answerTo_events ..)

/-- A writing access ends with its status answered, its number entered, and its copies answered. -/
theorem State.finish_writing {s t : State} {l : Lane} {x : Access} {d : List Byte} (write : x.isWrite = true)
    (run : s.perform l x = (t, d)) (reset : t.inReset l = false) (busy : t.answered l ≠ .busy) :
    s.finish l x = (t.noted l x.q (t.answered l)).respond l x d := by
  have mark : (if t.answered l == Status.busy then t else t.noted l x.q (t.answered l)) = t.noted l x.q (t.answered l) :=
    if_neg (by simpa using busy)
  unfold State.finish
  simp only [run, reset, write, Bool.false_eq_true, if_false]
  cases q : x.q with
  | none => rfl
  | some r => rw [q] at mark; exact congrArg (fun u => State.respond u l x d) mark

end Sys2Proof.Machine
end


section
/-! PROOF. The write of one register word (R91 to R97, R489): how the checks find its register, and how its outcome is answered. -/
namespace Sys2Proof.Machine

/-! ### The register at an address -/

theorem Page.base_add {a : Nat} {p : Page} (h : pageAt a = some p) : p.base + a % 0x1000 = a := by
  unfold pageAt at h
  split at h
  all_goals first
    | (cases h; simp only [Page.base]; omega)
    | (split at h
       · cases h; simp only [Page.base]; omega
       · split at h
         · cases h; simp only [Page.base]; omega
         · split at h
           · cases h; simp only [Page.base]; omega
           · cases h)

theorem State.writeWord_reg {s : State} {l : Lane} {c : WCtx} {a : Nat} {w : Word} {be : BitVec 4} {p : Page} {fs : List FieldDesc}
    (align : a % 4 = 0) (bank : bankOf a = none) (page : pageAt a = some p) (fields : regFields a = some fs) :
    s.writeWord l c a w be = match s.regCheck l c (s.merge l p (a % 0x1000) fs w be) w be with
      | some st => .error (.status st)
      | none => s.regApply l c (s.merge l p (a % 0x1000) fs w be) := by
  simp only [State.writeWord, align, bank, page, State.regWrite, Page.base_add page, fields] <;> rfl

/-- An offset without a register is rejected (R86). -/
theorem State.writeWord_unmapped {s : State} {l : Lane} {c : WCtx} {a : Nat} {w : Word} {be : BitVec 4}
    (align : a % 4 = 0) (bank : bankOf a = none) (fields : regFields a = none) :
    s.writeWord l c a w be = .error (.status .addrErr) := by
  cases page : pageAt a with
  | none => simp only [State.writeWord, align, bank, page] <;> rfl
  | some p => simp only [State.writeWord, align, bank, page, State.regWrite, Page.base_add page, fields] <;> rfl

/-! ### A write that shares nothing with the peer -/

theorem State.writeShared_plain {s : State} {l : Lane} {c : WCtx} {a : Nat} {w : Word} {be : BitVec 4} {rmw : Bool}
    (axle : axleWide a = false) (mirror : mirrored a = false) : s.writeShared l c a w be rmw = s.writeWord l c a w be := by
  unfold State.writeShared
  simp only [axle, mirror, Bool.or_self, Bool.false_and, Bool.not_false, Bool.false_eq_true, if_true, if_false]
  cases s.writeWord l c a w be <;> rfl

theorem State.writeShared_error {s : State} {l : Lane} {c : WCtx} {a : Nat} {w : Word} {be : BitVec 4} {rmw : Bool} {r : Rej}
    (number : c.q = none) (h : s.writeWord l c a w be = .error r) : s.writeShared l c a w be rmw = .error r := by
  unfold State.writeShared
  simp only [number, h, Option.isSome_none, Bool.and_false, Bool.false_and, Bool.false_eq_true, if_false] <;> rfl

theorem State.writes_ok {s t : State} {l : Lane} {c : WCtx} {a : Nat} {w : Word} {be : BitVec 4} {rmw : Bool} {st : Status}
    (axle : axleWide a = false) (mirror : mirrored a = false) (h : s.writeWord l c a w be = .ok (t, st)) (reset : t.inReset l = false) :
    s.writes l c a [w] be rmw = t.reply l st := by
  have one : s.writeShared l c a w be rmw = .ok (t, st) := (State.writeShared_plain axle mirror).trans h
  have check : s.checkAll l c be rmw a [w] = none := by simp only [State.checkAll, one]
  have all : s.writeAll l c be rmw a [w] .ok = .ok (t, st) := by simp only [State.writeAll, one] <;> rfl
  unfold State.writes
  simp only [check, all, reset, Bool.false_eq_true, if_false]

theorem State.writes_rejected {s : State} {l : Lane} {c : WCtx} {a : Nat} {w : Word} {ws : List Word} {be : BitVec 4} {rmw : Bool}
    {st : Status} (h : s.checkAll l c be rmw a (w :: ws) = some (.status st)) : s.writes l c a (w :: ws) be rmw = s.reject l st := by
  unfold State.writes
  simp only [h, State.turnDown]

/-- The first word of a request rejected rejects the whole. -/
theorem State.checkAll_first {s : State} {l : Lane} {c : WCtx} {a : Nat} {w : Word} {ws : List Word} {be : BitVec 4} {rmw : Bool} {r : Rej}
    (h : s.writeShared l c a w be rmw = .error r) : s.checkAll l c be rmw a (w :: ws) = some r := by
  simp only [State.checkAll, h]

/-! ### Rejections -/

theorem State.reject_cases (s : State) (l : Lane) {st : Status} (h : st ≠ .busy) :
    (st = .coefClosed ∧ s.reject l st = (s.reply l st).pulseEv l E.CE_COEF_CLOSED) ∨
    (st ≠ .coefClosed ∧ s.reject l st = (s.reply l st).pulseEv l E.SYS_ACCESS_REJECT) := by
  unfold State.reject
  split
  · exact absurd rfl h
  · exact .inl ⟨rfl, rfl⟩
  · rename_i other
    exact .inr ⟨other, rfl⟩

theorem State.reject_events (s : State) (l : Lane) (st : Status) : (s.reply l st).EvOnly (s.reject l st) := by
  unfold State.reject
  split
  · exact State.EvOnly.refl
  · exact State.pulseEv_only _ _ _ _ (by simp)
  · exact State.pulseEv_only _ _ _ _ (by simp)

theorem State.reject_answered (s : State) (l : Lane) (st : Status) : (s.reject l st).answered l = st :=
  ((s.reject_events l st).answered_eq l).trans (s.reply_answered l st 0)

theorem State.reject_inReset (s : State) (l k : Lane) (st : Status) : (s.reject l st).inReset k = s.inReset k :=
  ((s.reject_events l st).inReset_eq k).trans (s.reply_inReset l k st 0)

theorem State.reject_waiting (s : State) (l k : Lane) (st : Status) : ((s.reject l st).lane k).waiting = (s.lane k).waiting :=
  ((s.reject_events l st).waiting_eq k).trans (s.reply_waiting l k st 0)

/-- A rejected write changes the answer alone, but for what its event changes (R93). -/
theorem State.reject_answer_only (s : State) (l : Lane) (st : Status) : s.Only { parts := [.answer] } (s.reject l st) :=
  (s.reply_answer_only l st 0).events (s.reject_events l st)

theorem State.reject_word (s : State) (l k : Lane) (st : Status) {n : Nat} (h : evAddr n = false) : (s.reject l st).word k n = s.word k n :=
  ((s.reject_events l st).word k n h).trans (s.reply_word l k st 0 n)

theorem State.reply_present (s : State) (l k : Lane) (st : Status) (e : Ev) : (s.reply l st).present k e = s.present k e := by
  simp only [State.present, State.reply_word]

theorem State.reject_pended (s : State) (l : Lane) {st : Status} (h : st ≠ .busy) (reset : s.inReset l = false) :
    (st ≠ .coefClosed → s.present l E.SYS_ACCESS_REJECT = false → (s.reject l st).pended l E.SYS_ACCESS_REJECT = true) ∧
    (st = .coefClosed → s.present l E.CE_COEF_CLOSED = false → (s.reject l st).pended l E.CE_COEF_CLOSED = true) := by
  have live : ∀ e : Ev, monAddr e.page = false → (s.reply l st).dead l e = false := fun e he => by
    simp only [State.dead, he, Bool.false_eq_true, if_false, State.reply_inReset, reset]
  rcases s.reject_cases l h with ⟨c, e⟩ | ⟨c, e⟩
  · refine ⟨fun n => absurd c n, fun _ p => ?_⟩
    rw [e]
    exact State.pulseEv_pended _ _ _ _ (by simp) (live _ (by decide)) ((State.reply_present ..).trans p)
  · refine ⟨fun _ p => ?_, fun n => absurd n c⟩
    rw [e]
    exact State.pulseEv_pended _ _ _ _ (by simp) (live _ (by decide)) ((State.reply_present ..).trans p)

/-! ### A write that is performed at once -/

/-- A served access that writes, and leaves the lane running and nothing waiting, ends with its status, its number entered, and its copies
answered. -/
theorem State.Serves.access_writing {s t : State} {l : Lane} {a : Nat} {q : Option Req} {x : Access} {d : List Byte} (serves : s.Serves l a q)
    (addr : x.addr = a) (number : x.q = q) (write : x.isWrite = true) (free : x.words.any (s.armedAt l) = false)
    (run : s.perform l x = (t, d)) (reset : t.inReset l = false) (waiting : ∀ k, (t.lane k).waiting = []) (busy : t.answered l ≠ .busy) :
    s.access l x = (t.noted l q (t.answered l)).respond l x d := by
  obtain ⟨⟨live, away⟩, idle, armed, new⟩ := serves
  have judged : s.judged l x = .new := by
    unfold State.judged
    rw [write, number]
    cases q with
    | none => rfl
    | some r => exact new.1
  have few : ∀ k, x.sess = some k → (s.lane l).sess[k].periods.length < 16 := fun k hk => by
    cases q with
    | none => simp [Access.sess, number] at hk
    | some r =>
      simp only [Access.sess, number, Option.map_some, Option.some.injEq] at hk
      exact hk ▸ new.2.1
  rw [State.access_now live (by rw [addr, write]; exact State.turnAway_retest away _) (idle l) judged few fun _ => free,
    State.finish_writing write run reset busy, State.drain_idle, number]
  intro k
  rw [(State.respond_events _ _ _ _).waiting_eq, State.noted_waiting, waiting]

/-- The same for a request of one word or several. -/
theorem State.Serves.access_eq {s t : State} {l : Lane} {a : Nat} {q : Option Req} {w : Word} {ws : List Word} {be : BitVec 4} {ph : BusPhase}
    {es : List Bool} (serves : s.Serves l a q) (rest : (List.range ws.length).any (fun k => s.armedAt l (a + 4 * (k + 1))) = false)
    (run : s.writes l { q := q, ph := ph } a (w :: ws) be false = t)
    (reset : t.inReset l = false) (waiting : ∀ k, (t.lane k).waiting = []) (busy : t.answered l ≠ .busy) :
    s.access l { q := q, addr := a, op := .write (w :: ws) be, ph := ph, ends := es } =
      (t.noted l q (t.answered l)).respond l { q := q, addr := a, op := .write (w :: ws) be, ph := ph, ends := es } [] := by
  refine serves.access_writing rfl rfl rfl ?_ (by simp [State.perform, State.mirror, run]) reset waiting busy
  simp only [Access.words, List.length_cons, List.range_succ_eq_map, List.map_cons, List.any_cons, Nat.mul_zero, Nat.add_zero, serves.2.2.1,
    Bool.false_or, List.map_map, List.any_map]
  exact rest

/-- A write of one word without a response: what it leaves is what `writes` leaves, with its number entered. -/
theorem State.Serves.write1_eq {s t : State} {l : Lane} {a : Nat} {q : Option Req} {w : Word} {be : BitVec 4} {ph : BusPhase}
    (serves : s.Serves l a q) (run : s.writes l { q := q, ph := ph } a [w] be false = t)
    (reset : t.inReset l = false) (waiting : ∀ k, (t.lane k).waiting = []) (busy : t.answered l ≠ .busy) :
    s.access l { q := q, addr := a, op := .write [w] be, ph := ph } = t.noted l q (t.answered l) := by
  rw [serves.access_eq (by rfl) run reset waiting busy]
  cases q <;> rfl

/-- A served write that takes effect with a status. -/
theorem State.Serves.write1_taken {s t : State} {l : Lane} {a : Nat} {q : Option Req} {w : Word} {be : BitVec 4} {ph : BusPhase} {st : Status}
    (serves : s.Serves l a q) (axle : axleWide a = false) (mirror : mirrored a = false)
    (run : s.writeWord l { q := q, ph := ph } a w be = .ok (t, st))
    (reset : t.inReset l = false) (waiting : ∀ k, (t.lane k).waiting = []) (busy : st ≠ .busy) :
    s.access l { q := q, addr := a, op := .write [w] be, ph := ph } = (t.reply l st).noted l q st := by
  have e := serves.write1_eq (ph := ph) (State.writes_ok axle mirror run reset) ((t.reply_inReset l l st 0).trans reset)
    (fun k => (t.reply_waiting l k st 0).trans (waiting k)) (by rwa [State.reply_answered])
  rwa [State.reply_answered] at e

/-- A served write that is rejected. -/
theorem State.Serves.write1_rejected {s : State} {l : Lane} {a : Nat} {q : Option Req} {w : Word} {be : BitVec 4} {ph : BusPhase} {st : Status}
    (serves : s.Serves l a q) (run : s.writeShared l { q := q, ph := ph } a w be false = .error (.status st)) (busy : st ≠ .busy) :
    s.access l { q := q, addr := a, op := .write [w] be, ph := ph } = (s.reject l st).noted l q st := by
  have e := serves.write1_eq (ph := ph) (State.writes_rejected (State.checkAll_first run)) ((s.reject_inReset l l st).trans serves.1.1)
    (fun k => (s.reject_waiting l k st).trans (serves.2.1 k)) (by rwa [State.reject_answered])
  rwa [State.reject_answered] at e

/-- The state in which a served write is answered: what holds of the state that took effect, before the answer and the record. -/
theorem State.taken_answered (t : State) (l : Lane) (q : Option Req) (st : Status) :
    ((t.reply l st).noted l q st).answered l = st := by rw [State.noted_answered, State.reply_answered]

theorem State.taken_word (t : State) (l k : Lane) (q : Option Req) (st : Status) {n : Nat} (h : typeAt n ≠ 0x40) :
    ((t.reply l st).noted l q st).word k n = t.word k n := by rw [State.noted_word _ _ _ _ _ h, State.reply_word]

theorem State.taken_mon (t : State) (l : Lane) (q : Option Req) (st : Status) : ((t.reply l st).noted l q st).mon = t.mon := by
  rw [State.noted_mon, State.reply_mon]

theorem State.refused_answered (s : State) (l : Lane) (q : Option Req) (st : Status) : ((s.reject l st).noted l q st).answered l = st := by
  rw [State.noted_answered, State.reject_answered]

end Sys2Proof.Machine
end


section
/-! PROOF. O49 and O50: register writes applied or rejected whole, and unmapped offsets (R86, R91, R93, R94, R468, R489). -/
namespace Sys2Proof.Machine

/-! ### A plain register of 32 bits -/

theorem byteOf_getLsbD (w : Word) (k j : Nat) : (byteOf w k).getLsbD j = (decide (j < 8) && w.getLsbD (8 * k + j)) := by
  simp [byteOf]

/-- Each bit of a merged word is that of the new word where its byte is enabled, else that of the old one. -/
theorem mergeBytes_getLsbD (old d : Word) (be : BitVec 4) (i : Nat) (hi : i < 32) :
    (mergeBytes old d be).getLsbD i = if be.getLsbD (i / 8) then d.getLsbD i else old.getLsbD i := by
  have pick : ∀ k, (if be.getLsbD k then byteOf d k else byteOf old k).getLsbD (i - 8 * k) =
      (decide (i - 8 * k < 8) && if be.getLsbD k then d.getLsbD (8 * k + (i - 8 * k)) else old.getLsbD (8 * k + (i - 8 * k))) := fun k => by
    split <;> rw [byteOf_getLsbD]
  have byte : i / 8 = 0 ∨ i / 8 = 1 ∨ i / 8 = 2 ∨ i / 8 = 3 := by omega
  simp only [mergeBytes, BitVec.getLsbD_append]
  rcases byte with b | b | b | b
  · have := pick 0
    grind
  · have := pick 1
    grind
  · have := pick 2
    grind
  · have := pick 3
    grind

theorem hitMask_getLsbD (be : BitVec 4) (i : Nat) (hi : i < 32) : (hitMask be).getLsbD i = be.getLsbD (i / 8) := by
  have ones : (0xFFFFFFFF : Word).getLsbD i = true := (by decide : ∀ i < 32, (0xFFFFFFFF : Word).getLsbD i = true) i hi
  rw [hitMask, mergeBytes_getLsbD _ _ _ _ hi, ones]
  cases be.getLsbD (i / 8) <;> simp

/-- The bytes that a write enables replace those of the old word. -/
theorem merge_hitMask (old d : Word) (be : BitVec 4) : (old &&& ~~~hitMask be) ||| (d &&& hitMask be) = mergeBytes old d be := by
  refine BitVec.eq_of_getLsbD_eq fun i hi => ?_
  simp only [BitVec.getLsbD_or, BitVec.getLsbD_and, BitVec.getLsbD_not, hi, decide_true, Bool.true_and, hitMask_getLsbD be i hi,
    mergeBytes_getLsbD old d be i hi]
  cases be.getLsbD (i / 8) <;> simp

/-- The offsets of the EVC enable registers EVC_IRQg, EVC_MPg and EVC_RINGg (R468). -/
abbrev EvcEnable (a : Nat) : Prop := 0x04060 ≤ a ∧ a < 0x04090 ∧ a % 4 = 0

theorem EvcEnable.fields {a : Nat} (h : EvcEnable a) : pageAt a = some .evc ∧ regFields a = some [fd 0 32 .rw 0] ∧ bankOf a = none := by
  obtain ⟨k, rfl⟩ : ∃ k : Fin 12, a = 0x04060 + 4 * k.val := by
    obtain ⟨lo, hi, align⟩ := h
    exact ⟨⟨(a - 0x04060) / 4, by omega⟩, by dsimp only; omega⟩
  exact (by decide : ∀ k : Fin 12, pageAt (0x04060 + 4 * k.val) = some .evc ∧ regFields (0x04060 + 4 * k.val) = some [fd 0 32 .rw 0] ∧
    bankOf (0x04060 + 4 * k.val) = none) k

theorem Word.and_full (x : Word) : x &&& 4294967295#32 = x := by
  rw [show (4294967295#32 : Word) = BitVec.allOnes 32 by decide, BitVec.and_allOnes]

/-! ### A register without shadowed fields -/

/-- What a write of a register without shadowed fields comes to: it is merged with the word in effect alone. -/
def mergeOver (p : Page) (off : Nat) (fs : List FieldDesc) (old data : Word) (be : BitVec 4) : Merged :=
  let given := data &&& hitMask be
  let stored := maskOf fs (fun f => f.acc.stored)
  let w1c := maskOf fs (fun f => f.acc == .w1c)
  let woM := maskOf fs (fun f => f.acc == .wo)
  let put := (old &&& ~~~hitMask be) ||| given
  let put := if off == 0x008 then put ||| old else put
  let new := (old &&& ~~~(stored ||| w1c)) ||| (put &&& stored) ||| (old &&& w1c &&& ~~~given)
  let wo := given &&& (woM ||| w1c)
  let dual := maskOf fs (fun f => f.acc != .ro && isDual p off f)
  let other := maskOf fs (fun f => f.acc != .ro) &&& ~~~dual
  { p, off, fs, old, new, wo, dual, woMask := woM
    half := (new ^^^ old) &&& dual &&& ~~~woM != 0 || wo &&& dual != 0
    rest := (new ^^^ old) &&& other != 0 || wo &&& other != 0 }

theorem State.merge_unshadowed (s : State) (l : Lane) {p : Page} {off : Nat} {fs : List FieldDesc} (w : Word) (be : BitVec 4)
    (h : maskOf fs (·.shadow) = 0) : s.merge l p off fs w be = mergeOver p off fs (s.word l (p.base + off)) w be := by
  have keep : ∀ v x : Word, (v &&& ~~~(0 : Word)) ||| (x &&& 0) = v := fun v x => by
    simp [Word.and_full]
  unfold State.merge mergeOver
  simp only [h]
  cases (s.lane l).shadows.find? (fun k => k.addr == p.base + off) with
  | none => rfl
  | some k => simp only [keep]

theorem maskOf_one (f : FieldDesc) (p : FieldDesc → Bool) : maskOf [f] p = if p f then fldMask f else 0 := by
  simp [maskOf]

/-- A write of a register that is one writable field replaces the bytes that it enables, and has no part of any other kind. -/
theorem mergeOver_plain (p : Page) (off r : Nat) (g : Rng) (old w : Word) (be : BitVec 4) (h : off ≠ 0x008) :
    mergeOver p off [fd 0 32 .rw r g] old w be =
      { p := p, off := off, fs := [fd 0 32 .rw r g], old := old, new := mergeBytes old w be, wo := 0, dual := 0, woMask := 0, half := false
        rest := (mergeBytes old w be ^^^ old) != 0 } := by
  have full : fldMask (fd 0 32 .rw r g) = 4294967295#32 := (by decide : setBits 0#32 0 32 (2 ^ 32 - 1) = 4294967295#32)
  have stored : maskOf [fd 0 32 .rw r g] (fun f => f.acc.stored) = 4294967295#32 := (maskOf_one _ _).trans full
  have w1c : maskOf [fd 0 32 .rw r g] (fun f => f.acc == .w1c) = 0 := rfl
  have wo : maskOf [fd 0 32 .rw r g] (fun f => f.acc == .wo) = 0 := rfl
  have any : maskOf [fd 0 32 .rw r g] (fun f => f.acc != .ro) = 4294967295#32 := (maskOf_one _ _).trans full
  have dual : maskOf [fd 0 32 .rw r g] (fun f => f.acc != .ro && isDual p off f) = 0 := by simp [maskOf, isDual, fd, h]
  have off8 : (off == 0x008) = false := by simpa using h
  simp only [mergeOver, stored, w1c, wo, any, dual, off8, merge_hitMask]
  simp [Word.and_full]

/-- A write of a register whose fields have no ranges and no owner among the loops passes the checks of R93 where its page, its reserved
bits, the other fields' values and its lock let it pass. -/
theorem State.regCheck_free {s : State} {l : Lane} {c : WCtx} {m : Merged} {w : Word} {be : BitVec 4} (off : 0x040 ≤ m.off)
    (anyRange : ∀ f ∈ m.fs, f.rng = .any) (quiet : maskOf m.fs (fun f => f.acc == .rwq) = 0)
    (writable : m.fs.all (fun f => f.acc == .ro) = false) (reserved : w &&& hitMask be &&& ~~~maskOf m.fs (fun _ => true) = 0)
    (usable : s.notUsable m.p = false) (owner : s.ownerBad l m = false) (cross : s.crossBad l m.p m.off m.new = false)
    (lock : s.lockBad l m = false) : s.regCheck l c m w be = none := by
  have high : (decide (0x010 ≤ m.off) && decide (m.off < 0x020)) = false := by
    rw [Bool.and_eq_false_iff, decide_eq_false_iff_not, decide_eq_false_iff_not]
    omega
  have ranges : m.fs.filterMap (fun f =>
      if (f.acc.stored || f.acc == .wo) && fldMask f &&& hitMask be != 0 then
        rngFail f.rng f.lo (bits (if f.acc == .wo then m.wo else m.new) f.lo f.w) else none) = [] := by
    refine List.filterMap_eq_nil_iff.mpr fun f hf => ?_
    rw [anyRange f hf]
    split <;> rfl
  have rwq : ((m.new ^^^ m.old) &&& maskOf m.fs (fun f => f.acc == .rwq) != 0) = false := by rw [quiet]; simp
  have known : (w &&& hitMask be &&& ~~~maskOf m.fs (fun _ => true) != 0) = false := by rw [reserved]; rfl
  unfold State.regCheck
  simp only [usable, owner, writable, ranges, cross, lock, rwq, high, known, Bool.and_false, Bool.false_and, Bool.false_eq_true, if_false,
    List.contains_nil, List.isEmpty_nil, Bool.not_true, Bool.or_self]

theorem State.writeWord_evc (s : State) (l : Lane) (c : WCtx) {a : Nat} (w : Word) (be : BitVec 4) (h : EvcEnable a) :
    s.writeWord l c a w be = .ok (s.putWord l a (mergeBytes (s.word l a) w be), .ok) := by
  obtain ⟨page, fields, bank⟩ := h.fields
  obtain ⟨lo, hi, align⟩ := h
  have base : 0x04000 + a % 0x1000 = a := by omega
  have passes : s.regCheck l c (mergeOver .evc (a % 0x1000) [fd 0 32 .rw 0] (s.word l a) w be) w be = none := by
    have known : maskOf [fd 0 32 .rw 0] (fun _ => true) = 4294967295#32 := by decide
    have rwl : maskOf [fd 0 32 .rw 0] (fun f => f.acc == .rwl) = 0 := by decide
    rw [mergeOver_plain _ _ _ _ _ _ _ (by omega)]
    refine State.regCheck_free (by dsimp only; omega) (by simp [fd]) (by dsimp only; decide) (by dsimp only; decide) ?_ rfl rfl ?_ ?_
    · simp [known]
    · simp [State.crossBad]; omega
    · simp [State.lockBad, rwl]; omega
  have effect : s.regApply l c (mergeOver .evc (a % 0x1000) [fd 0 32 .rw 0] (s.word l a) w be) =
      .ok (s.putWord l a (mergeBytes (s.word l a) w be), .ok) := by
    have shadow : maskOf [fd 0 32 .rw 0] (·.shadow) = 0 := by decide
    rw [mergeOver_plain _ _ _ _ _ _ _ (by omega)]
    have keep : s.regEffect l .evc (a % 0x1000) (s.word l a) (mergeBytes (s.word l a) w be) 0 c.ph c.axle =
        .ok (s.putWord l a (mergeBytes (s.word l a) w be)) := by
      unfold State.regEffect
      simp only [Page.base, base]
      rw [if_neg (by simp; omega), if_neg (by simp; omega), if_neg (by simp; omega), if_neg (by omega), if_neg (by simp; omega),
        if_neg (by simp; omega)]
    unfold State.regApply
    simp only [shadow, keep]
    rfl
  rw [State.writeWord_reg align bank page fields, State.merge_unshadowed _ _ _ _ (by decide)]
  simp only [Page.base, base, passes]
  exact effect

end Sys2Proof.Machine
end


section
/-! PROOF. O49: register writes applied or rejected whole (R91, R93, R94, R468, R489). -/
namespace Sys2Proof.Machine

theorem EvcEnable.of_group {k : Nat} {g : Fin 4} {a : Nat} (h : k = 0x04060 ∨ k = 0x04070 ∨ k = 0x04080) (e : a = k + 4 * g.val) :
    EvcEnable a := by
  unfold EvcEnable
  omega

theorem EvcEnable.plain {a : Nat} (h : EvcEnable a) : axleWide a = false ∧ mirrored a = false := by
  have page : a / 0x1000 = 4 := by unfold EvcEnable at h; omega
  simp [axleWide, mirrored, page]
  unfold EvcEnable at h
  omega

theorem EvcEnable.type {a : Nat} (h : EvcEnable a) : typeAt a ≠ 0x40 := by
  simp [typeAt, h.fields.1, Page.type]

theorem evcEnable_written (s : State) (l : Lane) (g : Fin 4) (k : Nat) (a : BitVec 24) (w : Word) (be : BitVec 4) (q : Option Req)
    (ph : BusPhase) (hk : k = 0x04060 ∨ k = 0x04070 ∨ k = 0x04080) (ha : a.toNat = k + 4 * g.val) (serves : s.Serves l a.toNat q) :
    Completes (exec (.registerWrite l a w be q ph) s) fun u =>
      u.word l a.toNat = mergeBytes (s.word l a.toNat) w be ∧ u.answered l = .ok := by
  have evc := EvcEnable.of_group hk ha
  have run := serves.write1_taken (ph := ph) evc.plain.1 evc.plain.2 (s.writeWord_evc l _ w be evc) (by simpa using serves.1.1)
    (fun k => by simpa using serves.2.1 k) (by decide)
  refine completes_done ?_
  rw [run, State.taken_word _ _ _ _ _ evc.type, State.taken_answered]
  exact ⟨by simp, rfl⟩

/-! ### Rejected -/

/-- The checks of R93 never answer BUSY: that status turns an access away before them (R489). -/
theorem State.regCheck_ne_busy (s : State) (l : Lane) (c : WCtx) (m : Merged) (w : Word) (be : BitVec 4) : s.regCheck l c m w be ≠ some .busy := by
  unfold State.regCheck
  dsimp only
  repeat' split
  all_goals simp

theorem registerWrite_rejected (s : State) (l : Lane) (a : BitVec 24) (w : Word) (be : BitVec 4) (ph : BusPhase) (st : Status)
    (serves : s.Serves l a.toNat none) (busy : st ≠ .busy)
    (run : s.writeWord l { ph := ph } a.toNat w be = .error (.status st)) :
    Completes (exec (.registerWrite l a w be none ph) s) fun u => u.answered l = st ∧ s.Only { parts := [.answer] } u ∧
      (st ≠ .coefClosed → s.present l E.SYS_ACCESS_REJECT = false → u.pended l E.SYS_ACCESS_REJECT = true) ∧
      (st = .coefClosed → s.present l E.CE_COEF_CLOSED = false → u.pended l E.CE_COEF_CLOSED = true) := by
  refine completes_done ?_
  rw [serves.write1_rejected (State.writeShared_error rfl run) busy]
  exact ⟨s.reject_answered l st, s.reject_answer_only l st, s.reject_pended l busy serves.1.1⟩

theorem regCheck_rejects (s : State) (l : Lane) (a : BitVec 24) (w : Word) (be : BitVec 4) (ph : BusPhase) (p : Page) (fs : List FieldDesc)
    (st : Status) (serves : s.Serves l a.toNat none) (align : a.toNat % 4 = 0) (bank : bankOf a.toNat = none)
    (page : pageAt a.toNat = some p) (fields : regFields a.toNat = some fs)
    (check : s.regCheck l { ph := ph } (s.merge l p (a.toNat % 0x1000) fs w be) w be = some st) :
    Completes (exec (.registerWrite l a w be none ph) s) fun u => u.answered l = st ∧ s.Only { parts := [.answer] } u ∧
      (st ≠ .coefClosed → s.present l E.SYS_ACCESS_REJECT = false → u.pended l E.SYS_ACCESS_REJECT = true) ∧
      (st = .coefClosed → s.present l E.CE_COEF_CLOSED = false → u.pended l E.CE_COEF_CLOSED = true) := by
  refine registerWrite_rejected s l a w be ph st serves (fun e => s.regCheck_ne_busy l _ _ w be (e ▸ check)) ?_
  rw [State.writeWord_reg align bank page fields]
  simp only [check]

end Sys2Proof.Machine
end


section
/-! PROOF. Requests on the ring at the lane they name (R103, R105, R407, R408): the frame is passed on and handed to the access, and the
response leaves towards the end from which the request came. -/
namespace Sys2Proof.Machine

/-! ### A request handed on -/

/-- A request with a good CRC and a fitting length, for a lane that may answer, is passed on and acted on (R389, R399). -/
theorem State.request_run {s : State} {l : Lane} {e : Bool} {type : Byte} {dev : BitVec 6} {n : Nat} {k : State → State}
    (arrives : s.arrives l e = true) (devnum : s.aon.devnum = some dev) (dup : (s.lane l).dup = false) (short : n ≤ 256) :
    s.request l e type true dev l n n k = k (s.send l (!e) (.fwd (!e) type)) := by
  have events := (State.EvOnly.refl (a := s)).send l (!e) (.fwd (!e) type)
  have devnum' : (s.send l (!e) (.fwd (!e) type)).aon.devnum = some dev := (congrArg Aon.devnum events.aon).trans devnum
  have dup' : ((s.send l (!e) (.fwd (!e) type)).lane l).dup = false := (events.only.1 .dup (by decide) l).symm.trans dup
  unfold State.request State.frame
  rw [if_neg (by simp [arrives]), if_neg (by omega), if_neg (by simp)]
  simp only [State.crcSeen, if_true, State.named, State.talks, devnum', dup']
  simp

theorem State.inReset_of_arrives {s : State} {l : Lane} {e : Bool} (h : s.arrives l e = true) : s.inReset l = false := by
  unfold State.arrives at h
  rw [Bool.and_eq_true, Bool.not_eq_true'] at h
  exact h.1

/-- What a lane sends towards an end leaves it: the lane may send, and the path is not cut (R51, R411, R412). -/
def State.Responds (s : State) (l : Lane) (e : Bool) : Prop := s.talks l = true ∧ s.pathCut l e = false

theorem State.Responds.of_arrives {s : State} {l : Lane} {e : Bool} {dev : BitVec 6} (arrives : s.arrives l e = true)
    (devnum : s.aon.devnum = some dev) (dup : (s.lane l).dup = false) : s.Responds l e := by
  unfold State.arrives at arrives
  rw [Bool.and_eq_true, Bool.not_eq_true', Bool.not_eq_true'] at arrives
  exact ⟨by simp [State.talks, devnum, dup], arrives.2⟩

theorem State.Only.responds {g : Foot} {a s : State} {l : Lane} {e : Bool} (h : a.Only g s) (aon : .aon ∉ g.parts) (dup : .dup ∉ g.parts)
    (port : g.has F.RING_STAT_PORT_CUT.addr = false) (link : g.has F.CONJ_STAT_LINK_UP.addr = false) (r : a.Responds l e) :
    s.Responds l e := by
  have haon : a.aon = s.aon := h.1 .aon aon
  have hdup : (a.lane l).dup = (s.lane l).dup := h.1 .dup dup l
  obtain ⟨talks, path⟩ := r
  refine ⟨by rwa [State.talks, ← haon, ← hdup], ?_⟩
  rw [← path]
  simp only [State.pathCut, State.linkUp, State.flag, State.fld, h.2 _ _ port, h.2 _ _ link]

theorem State.EvOnly.responds {a s : State} {l : Lane} {e : Bool} (h : a.EvOnly s) (r : a.Responds l e) : s.Responds l e :=
  h.only.responds (by decide) (by decide) (by decide) (by decide) r

theorem State.Responds.noted {s : State} {l : Lane} {e : Bool} (r : s.Responds l e) (k : Lane) (q : Option Req) (st : Status) :
    (s.noted k q st).Responds l e := (s.noted_only k q st).responds (by decide) (by decide) (by decide) (by decide) r

theorem State.Responds.reply {s : State} {l : Lane} {e : Bool} (r : s.Responds l e) (k : Lane) (st : Status) (d : Word) :
    (s.reply k st d).Responds l e := (s.reply_answer_only k st d).responds (by decide) (by decide) (by decide) (by decide) r

theorem State.Responds.reject {s : State} {l : Lane} {e : Bool} (r : s.Responds l e) (k : Lane) (st : Status) :
    (s.reject k st).Responds l e := (s.reject_answer_only k st).responds (by decide) (by decide) (by decide) (by decide) r

/-- The response with the status answered is among the frames sent. -/
theorem State.answerTo_sent {s : State} {l : Lane} {e : Bool} (r : s.Responds l e) (type : Byte) (q : Req) (a : Nat) (d : List Byte) :
    .rsp e type q.sess q.seq (BitVec.ofNat 24 a) (s.answered l) d ∈ ((s.answerTo l type q a d e).lane l).ring.sent := by
  have busy : s.EvOnly (if (s.lane l).answer.status == Status.busy then s.bump l F.RING_CNT2_BUSY else s) :=
    State.EvOnly.refl.bump l F.RING_CNT2_BUSY 1 rfl |>.ite State.EvOnly.refl
  obtain ⟨talks, path⟩ := busy.responds r
  unfold State.answerTo
  dsimp only
  rw [if_pos talks]
  unfold State.send
  rw [if_neg (by exact Bool.eq_false_iff.mp path)]
  simp [State.answered]

theorem State.respond_one (s : State) (l : Lane) (x : Access) (q : Req) (d : List Byte) (e : Bool) (hq : x.q = some q) (he : x.ends = [e]) :
    s.respond l x d = s.answerTo l (match x.op with
      | .write _ _ => 0x11
      | .rmw _ _ => 0x12
      | .read _ => 0x10) q x.addr d e := by
  unfold State.respond
  simp only [hq, he, List.foldl_cons, List.foldl_nil] <;> rfl

/-! ### The accesses of a request -/

theorem range_four (d : List Byte) (h : d.length = 4) :
    (List.range (d.length / 4)).map (fun k => BitVec.ofNat 32 (bytesNat ((d.drop (4 * k)).take 4))) = [BitVec.ofNat 32 (bytesNat d)] := by
  simp [h, List.range_succ, List.take_of_length_le (Nat.le_of_eq h)]

theorem range_eight (d : List Byte) (h : d.length = 8) :
    (List.range (d.length / 4)).map (fun k => BitVec.ofNat 32 (bytesNat ((d.drop (4 * k)).take 4))) =
      [BitVec.ofNat 32 (bytesNat (d.take 4)), BitVec.ofNat 32 (bytesNat (d.drop 4))] := by
  have rest : (d.drop 4).length = 4 := by simp [h]
  simp [h, List.range_succ, List.take_of_length_le (Nat.le_of_eq rest)]

/-- A request of one word at a word's offset breaks no rule of its frame (R407). -/
theorem wrBad_word {a : Nat} (h : a % 4 = 0) (be : BitVec 4) : wrBad a 4 be = none := by
  have : ¬ 0x1000 < a % 0x1000 + 4 := by omega
  simp [wrBad, crosses, h, this]

theorem rdBad_word {a : Nat} (h : a % 4 = 0) : rdBad a 4 = none := by
  have : ¬ 0x1000 < a % 0x1000 + 4 := by omega
  simp [rdBad, crosses, h, this]

/-- A read that the lane serves is answered at once with what its words give (R104, R408). -/
theorem State.access_read {s : State} {l : Lane} {q : Req} {a n : Nat} {es : List Bool} (reset : s.inReset l = false)
    (away : s.turnAway l a false false = none) (waiting : ∀ k, (s.lane k).waiting = []) (few : (s.lane l).sess[q.sess].periods.length < 16)
    {st : Status} {d : List Byte} (read : s.readAll l ((List.range (n / 4)).map (fun k => a + 4 * k)) = (st, d)) :
    s.access l { q := some q, addr := a, op := .read n, ends := es } =
      (s.reply l st (BitVec.ofNat 32 (bytesNat (d.take 4)))).respond l { q := some q, addr := a, op := .read n, ends := es } d := by
  have finish : s.finish l { q := some q, addr := a, op := .read n, ends := es } =
      (s.reply l st (BitVec.ofNat 32 (bytesNat (d.take 4)))).respond l { q := some q, addr := a, op := .read n, ends := es } d := by
    unfold State.finish State.perform
    simp only [Access.words, read, State.reply_inReset, reset, Bool.false_eq_true, if_false] <;> rfl
  rw [State.access_now reset (State.turnAway_retest away _) (waiting l) rfl (fun k e => by cases e; exact few) (fun h => by cases h), finish,
    State.drain_idle]
  intro k
  rw [(State.respond_events _ _ _ _).waiting_eq, State.reply_waiting, waiting]

end Sys2Proof.Machine
end


section
/-! PROOF. O49: a WR of two words is applied whole or not at all (R93); O50: unmapped offsets (R86). -/
namespace Sys2Proof.Machine

/-! ### The limits of the set-point (R183): finite values -/

theorem mergeBytes_full (old w : Word) : mergeBytes old w 0xF = w := by
  refine BitVec.eq_of_getLsbD_eq fun i hi => ?_
  rw [mergeBytes_getLsbD _ _ _ _ hi, if_pos]
  exact (by decide : ∀ k < 4, (0xF : BitVec 4).getLsbD k = true) _ (by omega)

theorem bits_full (w : Word) : BitVec.ofNat 32 (bits w 0 32) = w := by
  simp only [bits, Nat.shiftRight_zero, Nat.mod_eq_of_lt w.isLt, BitVec.ofNat_toNat, BitVec.setWidth_eq]

theorem filterMap_one {α β : Type} (f : α → Option β) (x : α) : [x].filterMap f = (f x).toList := by
  cases e : f x <;> simp [e]

/-- A write of a set-point limit is rejected exactly where its value is not finite. -/
theorem State.regCheck_float (s : State) (l : Lane) (c : WCtx) {off : Nat} (r : Nat) (old w : Word) (h : off = 0x044 ∨ off = 0x048) :
    s.regCheck l c (mergeOver (.ce 1) off [fd 0 32 .rw r .finite] old w 0xF) w 0xF = if fFinite w then none else some .rangeErr := by
  have mask : fldMask (fd 0 32 .rw r .finite) = 4294967295#32 := (by decide : setBits 0#32 0 32 (2 ^ 32 - 1) = 4294967295#32)
  have known : maskOf [fd 0 32 .rw r .finite] (fun _ => true) = 4294967295#32 := (maskOf_one _ _).trans mask
  have rwq : maskOf [fd 0 32 .rw r .finite] (fun f => f.acc == .rwq) = 0 := rfl
  have rwl : maskOf [fd 0 32 .rw r .finite] (fun f => f.acc == .rwl) = 0 := rfl
  have lock : s.lockBad l { p := .ce 1, off := off, fs := [fd 0 32 .rw r .finite], old := old, new := w, wo := 0, dual := 0, woMask := 0
                            half := false, rest := (w ^^^ old) != 0 } = false := by
    rcases h with rfl | rfl <;> simp [State.lockBad, rwl]
  have ranges : [fd 0 32 .rw r .finite].filterMap (fun f =>
      if (f.acc.stored || f.acc == .wo) && fldMask f &&& hitMask 0xF != 0 then
        rngFail f.rng f.lo (bits (if f.acc == .wo then 0 else w) f.lo f.w) else none) = if fFinite w then [] else [.rangeErr] := by
    have hit : (fldMask (fd 0 32 .rw r .finite) &&& hitMask 0xF != 0) = true := by rw [mask]; decide
    have range : rngFail .finite 0 (bits w 0 32) = if fFinite w then none else some .rangeErr := by
      simp only [rngFail, bits_full]
      cases fFinite w <;> rfl
    rw [filterMap_one, hit]
    exact (congrArg Option.toList range).trans (by cases fFinite w <;> rfl)
  rw [mergeOver_plain _ _ _ _ _ _ _ (by omega), mergeBytes_full]
  unfold State.regCheck
  simp only [ranges, known, rwq, lock]
  cases fFinite w <;> rcases h with rfl | rfl <;>
    simp [State.notUsable, State.ownerBad, State.pageOwner, State.crossBad, fd]

/-- The first word of CE_SP_LO and CE_SP_HI passes where it is finite, and the second is rejected where it is not. -/
theorem State.writeWord_low (s : State) (l : Lane) (c : WCtx) (w : Word) (h : fFinite w = true) :
    ∃ t, s.writeWord l c 0x11044 w 0xF = .ok (t, .ok) := by
  have check := s.regCheck_float l c 0 (s.word l 0x11044) w (.inl rfl)
  rw [if_pos h, mergeOver_plain _ _ _ _ _ _ _ (by decide), mergeBytes_full] at check
  have shadow : maskOf [fd 0 32 .rw 0 .finite] (·.shadow) = 0 := by decide
  rw [State.writeWord_reg (by decide) (by decide) (show pageAt 0x11044 = some (.ce 1) by decide)
    (show regFields 0x11044 = some [fd 0 32 .rw 0 .finite] by decide), State.merge_unshadowed _ _ _ _ shadow,
    mergeOver_plain _ _ _ _ _ _ _ (by decide), mergeBytes_full]
  refine ⟨s.putWord l 0x11044 w, ?_⟩
  simp only [Page.base, Nat.reduceMul, Nat.reduceAdd, Nat.reduceMod, Fin.isValue, Fin.val_one, check]
  unfold State.regApply
  simp only [shadow] <;> rfl

theorem State.writeWord_high (s : State) (l : Lane) (c : WCtx) (w : Word) (h : fFinite w = false) :
    s.writeWord l c 0x11048 w 0xF = .error (.status .rangeErr) := by
  have check := s.regCheck_float l c 1065353216 (s.word l 0x11048) w (.inr rfl)
  rw [if_neg (by simp [h])] at check
  rw [State.writeWord_reg (by decide) (by decide) (show pageAt 0x11048 = some (.ce 1) by decide)
    (show regFields 0x11048 = some [fd 0 32 .rw 1065353216 .finite] by decide), State.merge_unshadowed _ _ _ _ (by decide)]
  simp only [Page.base, Nat.reduceMul, Nat.reduceAdd, Nat.reduceMod, Fin.isValue, Fin.val_one, check]

/-- A request of two words of which the second is not finite is rejected whole. -/
theorem State.writes_limits (s : State) (l : Lane) (c : WCtx) (v w : Word) (hv : fFinite v = true) (hw : fFinite w = false) :
    s.writes l c 0x11044 [v, w] 0xF false = s.reject l .rangeErr := by
  refine State.writes_rejected ?_
  obtain ⟨t, low⟩ := s.writeWord_low l c v hv
  have first : s.writeShared l c 0x11044 v 0xF false = .ok (t, .ok) := (State.writeShared_plain (by decide) (by decide)).trans low
  have second : s.writeShared l c 0x11048 w 0xF false = .error (.status .rangeErr) :=
    (State.writeShared_plain (by decide) (by decide)).trans (s.writeWord_high l c w hw)
  simp only [State.checkAll, first, Nat.reduceAdd, second]

theorem wr_secondOutOfRange (s : State) (l : Lane) (e : Bool) (q : Req) (d : List Byte) (dev : BitVec 6) (ph : BusPhase)
    (arrives : s.arrives l e = true) (devnum : s.aon.devnum = some dev) (dup : (s.lane l).dup = false)
    (serves : s.Serves l 0x11044 (some q)) (armed : s.armedAt l 0x11048 = false) (len : d.length = 8)
    (low : fFinite (BitVec.ofNat 32 (bytesNat (d.take 4))) = true) (high : fFinite (BitVec.ofNat 32 (bytesNat (d.drop 4))) = false) :
    Completes (exec (.wr l e true dev l q 0x11044 0xF 8 d ph) s) fun u =>
      u.word l 0x11044 = s.word l 0x11044 ∧ u.word l 0x11048 = s.word l 0x11048 ∧ u.answered l = .rangeErr ∧
      .rsp e 0x11 q.sess q.seq 0x11044 .rangeErr [] ∈ (u.lane l).ring.sent := by
  have events := (State.EvOnly.refl (a := s)).send l (!e) (.fwd (!e) 0x11)
  have responds := events.responds (State.Responds.of_arrives arrives devnum dup)
  have run : exec (.wr l e true dev l q 0x11044 0xF 8 d ph) s = done (s.request l e 0x11 true dev l 8 d.length _) := rfl
  refine run ▸ completes_done ?_
  rw [len, State.request_run arrives devnum dup (by decide)]
  have words := range_eight d len
  rw [len] at words
  dsimp only
  rw [words]
  generalize s.send l (!e) (.fwd (!e) 0x11) = t at events responds
  have frame : wrBad (0x11044 : BitVec 24).toNat 8 0xF = none := by decide
  have done := (events.serves serves).access_eq (ws := [BitVec.ofNat 32 (bytesNat (d.drop 4))]) (ph := ph) (es := [e])
    (by simpa using (events.armedAt_eq l 0x11048).trans armed)
    (t.writes_limits l { q := some q, ph := ph } _ _ low high) ((t.reject_inReset l l _).trans (events.serves serves).1.1)
    (fun k => (t.reject_waiting l k _).trans ((events.serves serves).2.1 k)) (by rw [State.reject_answered]; decide)
  rw [frame, show (0x11044 : BitVec 24).toNat = 0x11044 from rfl, done, State.reject_answered]
  have response := State.respond_events ((t.reject l .rangeErr).noted l (some q) .rangeErr) l
    { q := some q, addr := 0x11044, op := .write [BitVec.ofNat 32 (bytesNat (d.take 4)), BitVec.ofNat 32 (bytesNat (d.drop 4))] 0xF,
      ph := ph, ends := [e] } []
  have keep : ∀ n, evAddr n = false → typeAt n ≠ 0x40 → _ = s.word l n := fun n hn ht =>
    (response.word l n hn).trans ((State.noted_word _ _ _ _ _ ht).trans ((t.reject_word l l _ hn).trans (events.word l n hn)))
  refine ⟨keep _ (by decide) (by decide), keep _ (by decide) (by decide), ?_, ?_⟩
  · exact (response.answered_eq l).trans (t.refused_answered l _ _)
  · have sent := State.answerTo_sent ((responds.reject l .rangeErr).noted l (some q) .rangeErr) 0x11 q 0x11044 []
    rw [State.refused_answered] at sent
    exact sent

/-- Settles O49: the three clauses, each from what `writeWord` answers. -/
theorem registerWrites : Obligations.RegisterWrites :=
  ⟨evcEnable_written, regCheck_rejects, wr_secondOutOfRange⟩

/-! ### Unmapped offsets -/

theorem pageAt_window {a : Nat} (h : 0x400000 ≤ a) : pageAt a = none := by
  cases e : pageAt a with
  | none => rfl
  | some p =>
    have base := Page.base_add e
    have below : p.base < 0x400000 := by
      cases p <;> simp only [Page.base] <;> omega
    omega

theorem registerWrite_unmapped (s : State) (l : Lane) (a : BitVec 24) (align : a.toNat % 4 = 0) (bank : bankOf a.toNat = none)
    (fields : regFields a.toNat = none) (w : Word) (be : BitVec 4) (ph : BusPhase) (serves : s.Serves l a.toNat none) :
    Completes (exec (.registerWrite l a w be none ph) s) fun u => u.answered l = .addrErr ∧ s.Only { parts := [.answer] } u := by
  obtain ⟨u, hu, answered, only, -⟩ := registerWrite_rejected s l a w be ph .addrErr serves (by decide)
    (State.writeWord_unmapped align bank fields)
  exact ⟨u, hu, answered, only⟩

end Sys2Proof.Machine
end


section
/-! PROOF. O50: reads of unmapped offsets (R86); O58: reads of the host (R105, R407, R408). -/
namespace Sys2Proof.Machine

/-- A read of one word: the lane answers what the word gives, towards the end from which the request came. -/
theorem rd_word {s : State} {l : Lane} {e : Bool} {q : Req} {a : BitVec 24} {dev : BitVec 6} (arrives : s.arrives l e = true)
    (devnum : s.aon.devnum = some dev) (dup : (s.lane l).dup = false) (align : a.toNat % 4 = 0)
    (away : s.turnAway l a.toNat false false = none) (waiting : ∀ k, (s.lane k).waiting = [])
    (few : ((s.lane l).sess[q.sess]).periods.length < 16) {st : Status} {d : List Byte}
    (read : (s.send l (!e) (.fwd (!e) 0x10)).readAll l [a.toNat] = (st, d)) :
    Completes (exec (.rd l e true dev l q a 4 none) s) fun u =>
      u.answered l = st ∧ (u.lane l).answer.data = BitVec.ofNat 32 (bytesNat (d.take 4)) ∧
      .rsp e 0x10 q.sess q.seq a st d ∈ (u.lane l).ring.sent := by
  have events := (State.EvOnly.refl (a := s)).send l (!e) (.fwd (!e) 0x10)
  have responds := events.responds (State.Responds.of_arrives arrives devnum dup)
  have live := State.inReset_of_arrives arrives
  have run : exec (.rd l e true dev l q a 4 none) s = done (s.request l e 0x10 true dev l 4 4 fun t =>
      t.access l { q := some q, addr := a.toNat, op := .read 4, ends := [e] } (rdBad a.toNat 4)) := rfl
  rw [run, State.request_run arrives devnum dup (by decide)]
  refine completes_done ?_
  generalize s.send l (!e) (.fwd (!e) 0x10) = t at events responds read
  have access := State.access_read (es := [e]) ((events.inReset_eq l).trans live) ((events.turnAway_eq l _ _ _).trans away)
    (fun k => (events.waiting_eq k).trans (waiting k)) (by rw [events.sess_eq]; exact few) (n := 4) read
  have frame : rdBad a.toNat 4 = none := rdBad_word align
  rw [frame, access]
  have response := State.respond_events (t.reply l st (BitVec.ofNat 32 (bytesNat (d.take 4)))) l
    { q := some q, addr := a.toNat, op := .read 4, ends := [e] } d
  refine ⟨(response.answered_eq l).trans (State.reply_answered ..), ?_, ?_⟩
  · refine (congrArg Answer.data (response.only.1 .answer (by decide) l).symm).trans ?_
    simp [State.reply]
  · have sent := State.answerTo_sent (responds.reply l st (BitVec.ofNat 32 (bytesNat (d.take 4)))) 0x10 q a.toNat d
    rw [State.reply_answered, BitVec.ofNat_toNat, BitVec.setWidth_eq] at sent
    exact sent

/-- Settles O50: no page lies in the windows, and `writeWord` and `readFail` find no register at an unmapped offset. -/
theorem unmappedOffsets : Obligations.UnmappedOffsets := by
  refine ⟨fun a h => pageAt_window h, fun s l a align bank fields => ⟨registerWrite_unmapped s l a align bank fields, ?_⟩⟩
  intro e q dev arrives devnum dup away waiting few
  refine rd_word arrives devnum dup align away waiting few (d := []) ?_
  have fail : ∀ t : State, t.readFail l a.toNat = some .addrErr := fun t => by simp [State.readFail, align, bank, fields]
  simp only [State.readAll, List.findSome?_cons, fail]

/-! ### A frame passed on leaves what a read finds -/

theorem State.wordAt_modRing (s : State) (l k : Lane) (f : RingState → RingState) (a : Nat) : (s.modRing l f).wordAt k a = s.wordAt k a := by
  cases l <;> cases k <;> rfl

end Sys2Proof.Machine
end


section
/-! PROOF. O58: writes and read-modify-writes of the host, and their numbers (R103, R105, R407, R408). -/
namespace Sys2Proof.Machine

/-! ### What a frame passed on and a response leave -/

theorem State.readFail_modRing (s : State) (l k : Lane) (f : RingState → RingState) (a : Nat) : (s.modRing l f).readFail k a = s.readFail k a := by
  cases l <;> cases k <;> rfl

/-- Only the counter of the frames dropped at a cut changes. -/
theorem State.send_word (s : State) (l k : Lane) (e : Bool) (f : Sent) {n : Nat} (h : F.RING_CNT_CUT_DROP.addr ≠ n) :
    (s.send l e f).word k n = s.word k n := by
  unfold State.send
  split
  · exact State.word_put_ne _ _ _ _ _ _ h
  · exact State.word_modRing ..

/-- Only the counters of the BUSY answers and of the frames dropped at a cut change. -/
theorem State.answerTo_word (s : State) (l k : Lane) (type : Byte) (q : Req) (a : Nat) (d : List Byte) (e : Bool) {n : Nat}
    (drop : F.RING_CNT_CUT_DROP.addr ≠ n) (busy : F.RING_CNT2_BUSY.addr ≠ n) : (s.answerTo l type q a d e).word k n = s.word k n := by
  have counted : (if (s.lane l).answer.status == Status.busy then s.bump l F.RING_CNT2_BUSY else s).word k n = s.word k n := by
    split
    · exact State.word_put_ne _ _ _ _ _ _ busy
    · rfl
  unfold State.answerTo
  dsimp only
  generalize (if (s.lane l).answer.status == Status.busy then s.bump l F.RING_CNT2_BUSY else s) = t at counted
  split
  · exact (State.send_word _ _ _ _ _ drop).trans counted
  · exact counted

theorem EvcEnable.counters {a : Nat} (h : EvcEnable a) : F.RING_CNT_CUT_DROP.addr ≠ a ∧ F.RING_CNT2_BUSY.addr ≠ a := by
  obtain ⟨-, below, -⟩ := h
  exact ⟨fun e => absurd (e ▸ below) (by decide), fun e => absurd (e ▸ below) (by decide)⟩

theorem EvcEnable.events {a : Nat} (h : EvcEnable a) : evAddr a = true := by
  have page : a / 0x1000 = 4 := by unfold EvcEnable at h; omega
  simp [evAddr, page]

/-! ### The record of the numbers -/

theorem isNewer_self (n : BitVec 16) : isNewer n n = false := by simp [isNewer, newerBy]

/-- A number that was new is known with its status once it is entered (R105). -/
theorem State.accept_judge {s : State} {l : Lane} {k : Fin 4} {n : BitVec 16} (new : (s.lane l).sess[k].judge n = .new) (st : Status) :
    ((s.accept l k n st).lane l).sess[k].judge n = .dup st := by
  unfold Sess.judge at new
  unfold State.accept State.showSeq
  simp only [State.put_lane_sess, State.lane_modLane_same, Fin.getElem_fin, Vector.getElem_set_self]
  simp only [Fin.getElem_fin] at new
  cases newer : isNewer n (s.lane l).sess[(k : Nat)].highest with
  | true => simp [Sess.judge, isNewer_self]
  | false =>
    have recent : ¬ ((s.lane l).sess[(k : Nat)].highest - n).toNat ≥ 1024 := fun old => by rw [if_neg (by simp [newer]), if_pos old] at new; cases new
    unfold Sess.judge
    dsimp only
    rw [if_neg (by simp [newer]), if_neg (by simpa using recent)]
    simp

/-! ### A WR of one word -/

/-- A WR of one word at the lane it names is the access of that word. -/
theorem wr_run {s : State} {l : Lane} {e : Bool} {q : Req} {dev : BitVec 6} {a : BitVec 24} {d : List Byte} (arrives : s.arrives l e = true)
    (devnum : s.aon.devnum = some dev) (dup : (s.lane l).dup = false) (align : a.toNat % 4 = 0) (len : d.length = 4) (be : BitVec 4)
    (ph : BusPhase) : exec (.wr l e true dev l q a be 4 d ph) s = done ((s.send l (!e) (.fwd (!e) 0x11)).access l
      { q := some q, addr := a.toNat, op := .write [BitVec.ofNat 32 (bytesNat d)] be, ph := ph, ends := [e] }) := by
  have run : exec (.wr l e true dev l q a be 4 d ph) s = done (s.request l e 0x11 true dev l 4 d.length _) := rfl
  rw [run, len, State.request_run arrives devnum dup (by decide)]
  have words := range_four d len
  rw [len] at words
  dsimp only
  rw [words, wrBad_word align]

/-- A write of an EVC enable register through the ring: the word written, the response, and the number in the record. -/
theorem wr_evcEnable {s : State} {l : Lane} {e : Bool} {q : Req} {dev : BitVec 6} {a : BitVec 24} {d : List Byte}
    (arrives : s.arrives l e = true) (devnum : s.aon.devnum = some dev) (dup : (s.lane l).dup = false) (evc : EvcEnable a.toNat)
    (serves : s.Serves l a.toNat (some q)) (len : d.length = 4) (be : BitVec 4) (ph : BusPhase) :
    Completes (exec (.wr l e true dev l q a be 4 d ph) s) fun u =>
      u.word l a.toNat = mergeBytes (s.word l a.toNat) (BitVec.ofNat 32 (bytesNat d)) be ∧
      .rsp e 0x11 q.sess q.seq a .ok [] ∈ (u.lane l).ring.sent ∧ ((u.lane l).sess[q.sess]).judge q.seq = .dup .ok := by
  have events := (State.EvOnly.refl (a := s)).send l (!e) (.fwd (!e) 0x11)
  have same := s.send_word l l (!e) (.fwd (!e) 0x11) evc.counters.1
  have responds := events.responds (State.Responds.of_arrives arrives devnum dup)
  rw [wr_run arrives devnum dup evc.2.2 len]
  refine completes_done ?_
  generalize s.send l (!e) (.fwd (!e) 0x11) = t at events responds same
  generalize BitVec.ofNat 32 (bytesNat d) = w
  have served := events.serves serves
  let v := (t.putWord l a.toNat (mergeBytes (t.word l a.toNat) w be)).reply l .ok
  have run := served.access_eq (w := w) (be := be) (ph := ph) (es := [e]) (by rfl)
    (State.writes_ok evc.plain.1 evc.plain.2 (t.writeWord_evc l { q := some q, ph := ph } w be evc) (by simpa using served.1.1))
    (by rw [State.reply_inReset]; simpa using served.1.1) (fun k => by rw [State.reply_waiting]; simpa using served.2.1 k)
    (by rw [State.reply_answered]; decide)
  rw [run, State.reply_answered]
  have response := State.respond_events (v.noted l (some q) .ok) l
    { q := some q, addr := a.toNat, op := .write [w] be, ph := ph, ends := [e] } []
  have talks : v.Responds l e :=
    ((State.EvOnly.refl (a := t)).putWord l a.toNat _ evc.events).responds responds |>.reply l .ok 0
  refine ⟨?_, ?_, ?_⟩
  · rw [State.respond_one _ _ _ q [] e rfl rfl, State.answerTo_word _ _ _ _ _ _ _ _ evc.counters.1 evc.counters.2,
      State.noted_word _ _ _ _ _ evc.type, State.reply_word, State.word_putWord_same, same]
  · have sent := State.answerTo_sent (talks.noted l (some q) .ok) 0x11 q a.toNat []
    rw [State.noted_answered, State.reply_answered, BitVec.ofNat_toNat, BitVec.setWidth_eq] at sent
    exact sent
  · rw [response.sess_eq]
    refine State.accept_judge ?_ .ok
    simpa [v, State.reply] using served.2.2.2.1

end Sys2Proof.Machine
end


section
/-! PROOF. O58: read-modify-writes, requests seen before, and PERIODs (R105, R106, R108, R407, R408). -/
namespace Sys2Proof.Machine

/-! ### Read-modify-writes -/

theorem EvcEnable.wordAt {a : Nat} (h : EvcEnable a) (s : State) (l : Lane) : s.wordAt l a = s.word l a := by
  have offset : 0x60 ≤ a % 0x1000 ∧ a % 0x1000 < 0x90 := by unfold EvcEnable at h; omega
  have live : s.liveWord l .evc (a % 0x1000) = none := by
    unfold State.liveWord
    simp only
    rw [if_neg (by simp; omega), if_neg (by simp; omega), if_neg (by simp; omega)]
  unfold State.wordAt State.regRead
  simp only [h.fields.2.2, h.fields.1]
  rw [if_neg (by simp; omega), if_neg (by simp; omega), if_neg (by simp [State.notUsable]), if_neg (by simp; omega), live]
  rfl

theorem rmw_evcEnable {s : State} {l : Lane} {e : Bool} {q : Req} {dev : BitVec 6} {a : BitVec 24} (arrives : s.arrives l e = true)
    (devnum : s.aon.devnum = some dev) (dup : (s.lane l).dup = false) (evc : EvcEnable a.toNat) (serves : s.Serves l a.toNat (some q))
    (m v : Word) (ph : BusPhase) : Completes (exec (.rmw l e true dev l q a m v ph) s) fun u =>
      u.word l a.toNat = (s.word l a.toNat &&& m) ||| v ∧
      .rsp e 0x12 q.sess q.seq a .ok (wordBytes (s.word l a.toNat)) ∈ (u.lane l).ring.sent := by
  have events := (State.EvOnly.refl (a := s)).send l (!e) (.fwd (!e) 0x12)
  have same := s.send_word l l (!e) (.fwd (!e) 0x12) evc.counters.1
  have responds := events.responds (State.Responds.of_arrives arrives devnum dup)
  have run : exec (.rmw l e true dev l q a m v ph) s = done (s.request l e 0x12 true dev l 8 8 fun t =>
      t.access l { q := some q, addr := a.toNat, op := .rmw m v, ph := ph, ends := [e] } (wrBad a.toNat 4 0xF)) := rfl
  rw [run, State.request_run arrives devnum dup (by decide), wrBad_word evc.2.2]
  refine completes_done ?_
  generalize s.send l (!e) (.fwd (!e) 0x12) = t at events responds same
  rw [← same]
  have served := events.serves serves
  have written := t.writeWord_evc l { q := some q, ph := ph } ((t.word l a.toNat &&& m) ||| v) 0xF evc
  rw [mergeBytes_full] at written
  have perform : t.perform l { q := some q, addr := a.toNat, op := .rmw m v, ph := ph, ends := [e] } =
      ((t.putWord l a.toNat ((t.word l a.toNat &&& m) ||| v)).reply l .ok, wordBytes (t.word l a.toNat)) := by
    unfold State.perform
    simp only [evc.wordAt]
    rw [State.writes_ok evc.plain.1 evc.plain.2 written (by simpa using served.1.1)]
    have status := State.reply_answered (t.putWord l a.toNat ((t.word l a.toNat &&& m) ||| v)) l .ok 0
    rw [State.answered] at status
    simp only [status, Status.taken] <;> rfl
  have access := served.access_writing rfl rfl rfl (by simpa [Access.words] using served.2.2.1) perform
    (by rw [State.reply_inReset]; simpa using served.1.1) (fun k => by rw [State.reply_waiting]; simpa using served.2.1 k)
    (by rw [State.reply_answered]; decide)
  rw [access, State.reply_answered]
  have talks := ((State.EvOnly.refl (a := t)).putWord l a.toNat ((t.word l a.toNat &&& m) ||| v) evc.events).responds responds
    |>.reply l .ok 0 |>.noted l (some q) .ok
  refine ⟨?_, ?_⟩
  · rw [State.respond_one _ _ _ q _ e rfl rfl, State.answerTo_word _ _ _ _ _ _ _ _ evc.counters.1 evc.counters.2,
      State.noted_word _ _ _ _ _ evc.type, State.reply_word, State.word_putWord_same]
  · have sent := State.answerTo_sent talks 0x12 q a.toNat (wordBytes (t.word l a.toNat))
    rw [State.noted_answered, State.reply_answered, BitVec.ofNat_toNat, BitVec.setWidth_eq] at sent
    exact sent

/-! ### Numbers that are not new -/

/-- A write whose number is not new is not performed: a duplicate is answered with its first status, a stale one rejected. -/
theorem State.access_known {s : State} {l : Lane} {q : Req} {a : Nat} {ws : List Word} {be : BitVec 4} {ph : BusPhase} {es : List Bool}
    (reset : s.inReset l = false) (away : s.turnAway l a true false = none) (waiting : (s.lane l).waiting = []) :
    (∀ st, (s.lane l).sess[q.sess].judge q.seq = .dup st →
      s.access l { q := some q, addr := a, op := .write ws be, ph := ph, ends := es } =
        (s.reply l st).respond l { q := some q, addr := a, op := .write ws be, ph := ph, ends := es } []) ∧
    ((s.lane l).sess[q.sess].judge q.seq = .stale →
      s.access l { q := some q, addr := a, op := .write ws be, ph := ph, ends := es } =
        (s.reject l .seqStale).respond l { q := some q, addr := a, op := .write ws be, ph := ph, ends := es } []) := by
  have served : ∀ r, s.turnAway l a true r = none := State.turnAway_retest away
  have join : s.joinWaiting l { q := some q, addr := a, op := .write ws be, ph := ph, ends := es } = none := by
    simp [State.joinWaiting, waiting]
  have judged : s.judged l { q := some q, addr := a, op := .write ws be, ph := ph, ends := es } = (s.lane l).sess[q.sess].judge q.seq := rfl
  have write : Access.isWrite { q := some q, addr := a, op := .write ws be, ph := ph, ends := es } = true := rfl
  refine ⟨fun st known => ?_, fun stale => ?_⟩
  · unfold State.access
    simp only [reset, write, served, join, judged, known, Bool.false_eq_true, if_false] <;> rfl
  · unfold State.access
    simp only [reset, write, served, join, judged, stale, Bool.false_eq_true, if_false] <;> rfl

/-- A WR that is only answered: the response carries the status, and nothing but the answer changes. -/
theorem answered_only {s t v : State} {l : Lane} {e : Bool} {q : Req} {a : BitVec 24} {ws : List Word} {be : BitVec 4} {ph : BusPhase}
    {st : Status} (events : s.EvOnly t) (responds : v.Responds l e) (answer : t.Only { parts := [.answer] } v) (answered : v.answered l = st) :
    .rsp e 0x11 q.sess q.seq a st [] ∈
      ((v.respond l { q := some q, addr := a.toNat, op := .write ws be, ph := ph, ends := [e] } []).lane l).ring.sent ∧
    s.Only { parts := [.answer] } (v.respond l { q := some q, addr := a.toNat, op := .write ws be, ph := ph, ends := [e] } []) := by
  refine ⟨?_, ?_⟩
  · have sent := State.answerTo_sent responds 0x11 q a.toNat []
    rw [answered, BitVec.ofNat_toNat, BitVec.setWidth_eq] at sent
    exact sent
  · exact ((State.Only.refl.events events).trans answer).events (v.respond_events l _ [])

theorem wr_known {s : State} {l : Lane} {e : Bool} {q : Req} {dev : BitVec 6} {a : BitVec 24} {d : List Byte} (arrives : s.arrives l e = true)
    (devnum : s.aon.devnum = some dev) (dup : (s.lane l).dup = false) (align : a.toNat % 4 = 0)
    (away : s.turnAway l a.toNat true false = none) (waiting : (s.lane l).waiting = []) (len : d.length = 4) (be : BitVec 4) (ph : BusPhase)
    {st : Status} (known : ((s.lane l).sess[q.sess]).judge q.seq = .dup st ∨
      st = .seqStale ∧ ((s.lane l).sess[q.sess]).judge q.seq = .stale) :
    Completes (exec (.wr l e true dev l q a be 4 d ph) s) fun u =>
      .rsp e 0x11 q.sess q.seq a st [] ∈ (u.lane l).ring.sent ∧ s.Only { parts := [.answer] } u := by
  have live := State.inReset_of_arrives arrives
  have events := (State.EvOnly.refl (a := s)).send l (!e) (.fwd (!e) 0x11)
  have responds := events.responds (State.Responds.of_arrives arrives devnum dup)
  rw [wr_run arrives devnum dup align len]
  refine completes_done ?_
  generalize s.send l (!e) (.fwd (!e) 0x11) = t at events responds
  rw [← events.sess_eq] at known
  obtain ⟨first, old⟩ := State.access_known (q := q) (ws := [BitVec.ofNat 32 (bytesNat d)]) (be := be) (ph := ph) (es := [e])
    ((events.inReset_eq l).trans live) ((events.turnAway_eq l _ _ _).trans away) ((events.waiting_eq l).trans waiting)
  rcases known with h | ⟨rfl, h⟩
  · rw [first st h]
    exact answered_only events (responds.reply l st 0) (t.reply_answer_only l st 0) (t.reply_answered l st 0)
  · rw [old h]
    exact answered_only events (responds.reject l .seqStale) (t.reject_answer_only l .seqStale) (t.reject_answered l .seqStale)

/-! ### PERIODs -/

/-- A PERIOD enters the queue of its session and marks every shadow that is not armed (R106, R108). -/
theorem State.periodIn_queued (s : State) (l : Lane) (q : Req) (es : List Bool) :
    (∃ p, (((s.periodIn l q es).lane l).sess[q.sess]).periods = ((s.lane l).sess[q.sess]).periods ++ [p] ∧ p.seq = q.seq ∧ p.ends = es) ∧
      ∀ h ∈ ((s.periodIn l q es).lane l).shadows, h.armed = true ∨ q ∈ h.due := by
  have marked : ∀ (hs : List Shadow), ∀ h ∈ hs.map (fun h => if h.armed then h else { h with due := h.due ++ [q] }),
      h.armed = true ∨ q ∈ h.due := fun hs h hm => by
    obtain ⟨g, -, rfl⟩ := List.mem_map.mp hm
    split
    · exact .inl ‹_›
    · exact .inr (by simp)
  unfold State.periodIn State.modSess
  dsimp only
  cases s.linkUp l && s.ready l.other with
  | true =>
    simp only [if_true, List.foldl_cons, List.foldl_nil, State.lane_modLane_same, State.lane_modLane_of_other, Fin.getElem_fin, Vector.getElem_set_self]
    exact ⟨⟨_, rfl, rfl, rfl⟩, marked _⟩
  | false =>
    simp only [Bool.false_eq_true, if_false, List.foldl_cons, List.foldl_nil, State.lane_modLane_same, Fin.getElem_fin,
      Vector.getElem_set_self]
    exact ⟨⟨_, rfl, rfl, rfl⟩, marked _⟩

theorem State.period_new {s : State} {l : Lane} {q : Req} {es : List Bool} (reset : s.inReset l = false)
    (away : s.turnAway l 0xA1000 true false = none) (fresh : ∀ p ∈ ((s.lane l).sess[q.sess]).periods, p.seq ≠ q.seq)
    (new : ((s.lane l).sess[q.sess]).judge q.seq = .new) (waiting : (s.lane l).waiting = [])
    (few : ((s.lane l).sess[q.sess]).periods.length < 16) (bad : Option Status) :
    s.period l q es bad = match bad with
      | some st => ((s.reject l st).accept l q.sess q.seq st).respondPeriod l q es
      | none => s.periodIn l q es := by
  have copy : ((s.lane l).sess[q.sess]).periods.any (fun p => p.seq == q.seq) = false := by simpa using fresh
  have room : ¬ s.outstanding l q.sess ≥ 16 := by simpa [State.outstanding, waiting] using few
  unfold State.period
  simp only [reset, away, copy, new, room, Option.isSome_none, Bool.false_eq_true, if_false] <;> rfl

theorem period_queued {s : State} {l : Lane} {e : Bool} {q : Req} {dev : BitVec 6} (arrives : s.arrives l e = true)
    (devnum : s.aon.devnum = some dev) (dup : (s.lane l).dup = false) (away : s.turnAway l 0xA1000 true false = none)
    (fresh : ∀ p ∈ ((s.lane l).sess[q.sess]).periods, p.seq ≠ q.seq) (new : ((s.lane l).sess[q.sess]).judge q.seq = .new)
    (waiting : (s.lane l).waiting = []) (few : ((s.lane l).sess[q.sess]).periods.length < 16) :
    (Completes (exec (.period l e true dev l q 0 0) s) fun u =>
      (∃ p, ((u.lane l).sess[q.sess]).periods = ((s.lane l).sess[q.sess]).periods ++ [p] ∧ p.seq = q.seq ∧ p.ends = [e]) ∧
      ∀ h ∈ (u.lane l).shadows, h.armed = true ∨ q ∈ h.due) ∧
    ∀ n : BitVec 16, n ≠ 0 → n.toNat ≤ 256 → Completes (exec (.period l e true dev l q n n) s) fun u =>
      .rsp e 0x13 q.sess q.seq 0 .rangeErr [] ∈ (u.lane l).ring.sent ∧ u.answered l = .rangeErr := by
  have live := State.inReset_of_arrives arrives
  have events := (State.EvOnly.refl (a := s)).send l (!e) (.fwd (!e) 0x13)
  have responds := events.responds (State.Responds.of_arrives arrives devnum dup)
  have run : ∀ n : BitVec 16, exec (.period l e true dev l q n n) s = done (s.request l e 0x13 true dev l n.toNat n.toNat fun t =>
      t.period l q [e] (if n.toNat == 0 then none else some .rangeErr)) := fun n => rfl
  have period : ∀ bad, (s.send l (!e) (.fwd (!e) 0x13)).period l q [e] bad = _ := fun bad =>
    State.period_new ((events.inReset_eq l).trans live) ((events.turnAway_eq l _ _ _).trans away)
      (by rw [events.sess_eq]; exact fresh) (by rw [events.sess_eq]; exact new) ((events.waiting_eq l).trans waiting)
      (by rw [events.sess_eq]; exact few) bad
  refine ⟨?_, fun n ne short => ?_⟩
  · rw [run, State.request_run arrives devnum dup (by decide), period]
    refine completes_done ?_
    rw [← events.sess_eq]
    exact State.periodIn_queued _ l q [e]
  · have payload : (n.toNat == 0) = false := by
      rw [beq_eq_false_iff_ne]
      exact fun zero => ne (BitVec.eq_of_toNat_eq zero)
    rw [run, State.request_run arrives devnum dup short, payload, period]
    refine completes_done ?_
    generalize s.send l (!e) (.fwd (!e) 0x13) = t at responds
    have answered : (t.reject l .rangeErr |>.noted l (some q) .rangeErr).answered l = .rangeErr := t.refused_answered l _ _
    have sent := State.answerTo_sent ((responds.reject l .rangeErr).noted l (some q) .rangeErr) 0x13 q 0 []
    rw [answered] at sent
    exact ⟨sent, ((State.answerTo_events _ l 0x13 q 0 [] e).answered_eq l).trans answered⟩

/-- Settles O58: each request as the access it makes at the lane it names. -/
theorem hostRequests : Obligations.HostRequests := by
  intro s l e dev q arrives devnum dup
  refine ⟨?_, ?_, ?_⟩
  · intro a align away waiting few found path
    have sent : s.send l (!e) (.fwd (!e) 0x10) = s.modRing l (fun r => { r with sent := r.sent ++ [.fwd (!e) 0x10] }) := by
      unfold State.send
      rw [if_neg (by simp [path])]
    have read : (s.send l (!e) (.fwd (!e) 0x10)).readAll l [a.toNat] = (.ok, wordBytes (s.wordAt l a.toNat)) := by
      rw [sent]
      simp [State.readAll, State.readFail_modRing, State.wordAt_modRing, found]
    obtain ⟨u, hu, -, -, response⟩ := rd_word arrives devnum dup align away waiting few read
    exact ⟨u, hu, response⟩
  · intro a k g hk ha
    have evc := EvcEnable.of_group hk ha
    refine ⟨fun serves => ⟨fun d be ph len => wr_evcEnable arrives devnum dup evc serves len be ph,
      fun m v ph => rmw_evcEnable arrives devnum dup evc serves m v ph⟩, fun away waiting => ⟨?_, ?_⟩⟩
    · intro d be ph st len _ known
      exact wr_known arrives devnum dup evc.2.2 away waiting len be ph (.inl known)
    · intro d be ph len stale
      exact wr_known arrives devnum dup evc.2.2 away waiting len be ph (.inr ⟨rfl, stale⟩)
  · exact period_queued arrives devnum dup

end Sys2Proof.Machine
end


section
/-! PROOF. Dual writes (R97): the half that a lane passes to the monitor, and what becomes of it. -/
namespace Sys2Proof.Machine

/-! ### The half that a write makes -/

/-- The value of the half: the dual-write fields' new codes, and the ones written to those that only take commands. -/
def Merged.value (m : Merged) : Word := (m.new &&& m.dual &&& ~~~m.woMask) ||| (m.wo &&& m.dual &&& m.woMask)

/-- The register that a merged write is of. -/
def Merged.addr (m : Merged) : Nat := m.p.base + m.off

/-- The acknowledgement that needs no partner: one lane alone counts as running (R372). -/
def State.ackAlone (s : State) (l : Lane) (m : Merged) : Bool := m.p == .saf && m.off == 0x074 && s.mon.alive && s.counts l && !s.counts l.other

/-- A write of nothing but dual-write fields, of which one changes, is a half for the monitor, or is rejected without a relay path. -/
theorem State.regApply_half (s : State) (l : Lane) (c : WCtx) {m : Merged} (shadow : maskOf m.fs (·.shadow) = 0) (dual : m.dual ≠ 0)
    (rest : m.rest = false) (half : m.half = true) :
    s.regApply l c m = if s.monOk l then s.passHalf l c.q m else .error (.status .stateErr) := by
  unfold State.regApply
  have hd : (m.dual == 0) = false := by simpa using dual
  simp only [shadow, hd, rest, half]
  cases h : s.monOk l <;> simp [h, pure_bind] <;> rfl

/-! ### A half held -/

/-- What a lane notes of a half that it passes: its session's next PERIOD covers it, and its timer runs (R97, R106). -/
def State.holdHalf (s : State) (l : Lane) (q : Option Req) (addr : Nat) : State :=
  (s.modSess l q (fun e => { e with halves := if e.halves.contains addr then e.halves else e.halves ++ [addr] })).modLane l (fun x => { x with
    timedHalves := if x.timedHalves.contains addr then x.timedHalves else x.timedHalves ++ [addr] })

/-- The monitor holds a half in place of the same lane's earlier one of the register. -/
def State.passed (s : State) (l : Lane) (q : Option Req) (addr : Nat) (v : Word) : State :=
  (s.holdHalf l q addr).modMon (fun k => { k with
    halves := k.halves.filter (fun h => !(h.lane == l && h.addr == addr)) ++ [{ lane := l, addr := addr, val := v }] })

/-- Both halves of a register have ended. -/
def State.met (s : State) (l : Lane) (addr : Nat) (lost : Bool) : State :=
  ((s.modMon (fun k => { k with halves := k.halves.filter (fun h => h.addr != addr) })).halfGone l addr lost).halfGone l.other addr lost

/-- t differs from s in the halves and their records, and in nothing that a register read finds. -/
structure State.HalvesOnly (s t : State) : Prop where
  aon : t.aon = s.aon
  mon : t.mon = { s.mon with halves := t.mon.halves, regs := t.mon.regs }
  lane : ∀ k, t.lane k = { s.lane k with sess := (t.lane k).sess, timedHalves := (t.lane k).timedHalves, regs := (t.lane k).regs }
  monRead : ∀ n, t.mon.regs.read n = s.mon.regs.read n
  laneRead : ∀ k n, (t.lane k).regs.read n = (s.lane k).regs.read n

namespace State.HalvesOnly
variable {s t u : State}

theorem refl : s.HalvesOnly s := ⟨rfl, rfl, fun _ => rfl, fun _ => rfl, fun _ _ => rfl⟩

theorem trans (h : s.HalvesOnly t) (k : t.HalvesOnly u) : s.HalvesOnly u where
  aon := k.aon.trans h.aon
  mon := k.mon.trans (by rw [h.mon])
  lane := fun x => (k.lane x).trans (by rw [h.lane x])
  monRead := fun n => (k.monRead n).trans (h.monRead n)
  laneRead := fun x n => (k.laneRead x n).trans (h.laneRead x n)

theorem word (h : s.HalvesOnly t) (k : Lane) (n : Nat) : t.word k n = s.word k n := by
  unfold State.word
  rw [h.monRead, h.laneRead]

theorem inReset (h : s.HalvesOnly t) (k : Lane) : t.inReset k = s.inReset k := by
  unfold State.inReset
  rw [h.aon, congrArg LaneState.hold (h.lane k)]

theorem waiting (h : s.HalvesOnly t) (k : Lane) : (t.lane k).waiting = (s.lane k).waiting := by
  rw [h.lane k]

theorem alive (h : s.HalvesOnly t) : t.mon.alive = s.mon.alive := by rw [h.mon]

theorem present (h : s.HalvesOnly t) (k : Lane) (e : Ev) : t.present k e = s.present k e := by
  unfold State.present
  rw [h.word]

theorem modLane (h : s.HalvesOnly t) (l : Lane) (f : LaneState → LaneState)
    (hf : ∀ x, f x = { x with sess := (f x).sess, timedHalves := (f x).timedHalves }) : s.HalvesOnly (t.modLane l f) where
  aon := h.aon
  mon := h.mon
  lane := fun k => by
    rw [State.lane_modLane]
    split
    · rw [hf, h.lane k]
    · exact h.lane k
  monRead := h.monRead
  laneRead := fun k n => by
    rw [State.lane_modLane]
    split
    · rw [hf]; exact h.laneRead k n
    · exact h.laneRead k n

theorem modMon (h : s.HalvesOnly t) (f : MonState → MonState) (hf : ∀ x, f x = { x with halves := (f x).halves }) :
    s.HalvesOnly (t.modMon f) where
  aon := h.aon
  mon := by
    have e := hf t.mon
    rw [State.modMon_mon, e, h.mon]
  lane := h.lane
  monRead := fun n => by rw [State.modMon_mon, hf]; exact h.monRead n
  laneRead := h.laneRead

theorem modSess (h : s.HalvesOnly t) (l : Lane) (q : Option Req) (f : Sess → Sess) : s.HalvesOnly (t.modSess l q f) := by
  unfold State.modSess
  cases q with
  | none => exact h
  | some r => exact h.modLane l _ fun _ => rfl

theorem holdHalf (h : s.HalvesOnly t) (l : Lane) (q : Option Req) (a : Nat) : s.HalvesOnly (t.holdHalf l q a) := by
  unfold State.holdHalf
  exact (h.modSess l q _).modLane l _ fun _ => rfl

theorem passed (h : s.HalvesOnly t) (l : Lane) (q : Option Req) (a : Nat) (v : Word) : s.HalvesOnly (t.passed l q a v) :=
  (h.holdHalf l q a).modMon _ fun _ => rfl

theorem halfGone (h : s.HalvesOnly t) (l : Lane) (a : Nat) (lost : Bool) : s.HalvesOnly (t.halfGone l a lost) := by
  unfold State.halfGone State.both
  exact ((h.modLane .A _ fun _ => rfl).modLane .B _ fun _ => rfl).modLane l _ fun _ => rfl

theorem met (h : s.HalvesOnly t) (l : Lane) (a : Nat) (lost : Bool) : s.HalvesOnly (t.met l a lost) :=
  ((h.modMon _ fun _ => rfl).halfGone l a lost).halfGone l.other a lost

end State.HalvesOnly

/-! ### What the monitor holds -/

@[simp] theorem State.halfGone_mon (s : State) (l : Lane) (a : Nat) (lost : Bool) : (s.halfGone l a lost).mon = s.mon := rfl

@[simp] theorem State.modSess_mon (s : State) (l : Lane) (q : Option Req) (f : Sess → Sess) : (s.modSess l q f).mon = s.mon := by
  cases q <;> rfl

theorem State.passed_halves (s : State) (l : Lane) (q : Option Req) (a : Nat) (v : Word) : (s.passed l q a v).mon.halves =
    s.mon.halves.filter (fun h => !(h.lane == l && h.addr == a)) ++ [{ lane := l, addr := a, val := v }] := by
  simp only [State.passed, State.holdHalf, State.modMon_mon, State.modLane_mon, State.modSess_mon]

theorem State.met_halves (s : State) (l : Lane) (a : Nat) (lost : Bool) :
    (s.met l a lost).mon.halves = s.mon.halves.filter (fun h => h.addr != a) := rfl

theorem State.met_ended (s : State) (l : Lane) (a : Nat) (lost : Bool) : ∀ h ∈ (s.met l a lost).mon.halves, h.addr ≠ a := by
  intro h hm
  rw [State.met_halves, List.mem_filter] at hm
  simpa using hm.2

/-- The partner that a half finds is the one that waited. -/
theorem State.passed_partner (s : State) (l : Lane) (q : Option Req) (a : Nat) (v : Word) :
    ((∀ h ∈ s.mon.halves, h.lane = l.other → h.addr ≠ a) →
      (s.passed l q a v).mon.halves.find? (fun h => h.lane == l.other && h.addr == a) = none) ∧
    ((∃ h ∈ s.mon.halves, h.lane = l.other ∧ h.addr = a) →
      ∃ h ∈ s.mon.halves, h.lane = l.other ∧ h.addr = a ∧
        (s.passed l q a v).mon.halves.find? (fun h => h.lane == l.other && h.addr == a) = some h) := by
  have apart : l ≠ l.other := by cases l <;> decide
  rw [State.passed_halves]
  refine ⟨fun no => ?_, fun ⟨g, mem, lane, addr⟩ => ?_⟩
  · refine List.find?_eq_none.mpr fun h hm => ?_
    simp only [List.mem_append, List.mem_filter, List.mem_singleton] at hm
    rcases hm with ⟨mem, -⟩ | rfl
    · simpa using no h mem
    · simp [apart]
  · cases found : (s.mon.halves.filter (fun h => !(h.lane == l && h.addr == a)) ++ [({ lane := l, addr := a, val := v } : Half)]).find?
        (fun h => h.lane == l.other && h.addr == a) with
    | none =>
      have no := List.find?_eq_none.mp found g (by simp [mem, lane, apart.symm])
      simp [lane, addr] at no
    | some h =>
      have is := List.find?_some found
      have hm := List.mem_of_find?_eq_some found
      simp only [Bool.and_eq_true, beq_iff_eq] at is
      simp only [List.mem_append, List.mem_filter, List.mem_singleton] at hm
      rcases hm with ⟨mem, -⟩ | rfl
      · exact ⟨h, mem, is.1, is.2, rfl⟩
      · exact absurd is.1 apart

/-! ### What becomes of a half (R97) -/

section
variable {s : State} {l : Lane} {q : Option Req} {m : Merged}

theorem State.passHalf_alone (h : s.ackAlone l m = true) : s.passHalf l q m = .ok (s.acknowledge, .ok) := by
  unfold State.ackAlone at h
  unfold State.passHalf
  simp only [h, if_true]

/-- A lane has no more than 16 halves at the monitor. -/
theorem State.passHalf_full (alone : s.ackAlone l m = false) (full : 16 ≤ (s.mon.halves.filter (fun h => h.lane == l)).length)
    (other : ∀ h ∈ s.mon.halves, h.lane = l → h.addr ≠ m.addr) : s.passHalf l q m = .error (.status .stateErr) := by
  unfold State.ackAlone at alone
  unfold State.passHalf
  simp only [alone, Bool.false_eq_true, if_false]
  refine if_pos ?_
  have has : (s.mon.halves.filter (fun h => h.lane == l)).any (fun h => h.addr == m.p.base + m.off) = false := by
    simpa [Merged.addr] using other
  simp [has, full]

/-- What a half comes to that is neither alone nor one too many. -/
theorem State.passHalf_held (alive : s.mon.alive = true) (alone : s.ackAlone l m = false)
    (room : (s.mon.halves.filter (fun h => h.lane == l)).length < 16) : s.passHalf l q m =
      match (s.passed l q m.addr m.value).mon.halves.find? (fun h => h.lane == l.other && h.addr == m.addr) with
      | none => .ok (s.passed l q m.addr m.value, .dualPend)
      | some h => .ok (if h.val == m.value
          then ((s.passed l q m.addr m.value).met l m.addr (!(h.val == m.value))).dualApply m.p m.off m.dual (m.dual &&& m.woMask) m.value
          else ((s.passed l q m.addr m.value).met l m.addr (!(h.val == m.value))).monEv E.MON_DUAL_MISMATCH, .dualPend) := by
  unfold State.ackAlone at alone
  have full : ¬ 16 ≤ (s.mon.halves.filter (fun h => h.lane == l)).length := by omega
  have alive' : (s.holdHalf l q m.addr).mon.alive = true := by simpa [State.holdHalf] using alive
  unfold State.passHalf
  simp only [alone, Bool.false_eq_true, if_false, ge_iff_le, full, decide_false, Bool.false_and]
  rw [if_neg (by simpa [State.holdHalf, Merged.addr] using alive')]
  rfl

theorem State.passHalf_waits (alive : s.mon.alive = true) (alone : s.ackAlone l m = false)
    (room : (s.mon.halves.filter (fun h => h.lane == l)).length < 16) (no : ∀ h ∈ s.mon.halves, h.lane = l.other → h.addr ≠ m.addr) :
    s.passHalf l q m = .ok (s.passed l q m.addr m.value, .dualPend) := by
  rw [State.passHalf_held alive alone room, (s.passed_partner l q m.addr m.value).1 no]

theorem State.passHalf_meets (alive : s.mon.alive = true) (alone : s.ackAlone l m = false)
    (room : (s.mon.halves.filter (fun h => h.lane == l)).length < 16) (partner : ∃ h ∈ s.mon.halves, h.lane = l.other ∧ h.addr = m.addr)
    (same : ∀ h ∈ s.mon.halves, h.lane = l.other → h.addr = m.addr → h.val = m.value) : s.passHalf l q m =
      .ok (((s.passed l q m.addr m.value).met l m.addr false).dualApply m.p m.off m.dual (m.dual &&& m.woMask) m.value, .dualPend) := by
  obtain ⟨h, mem, lane, addr, found⟩ := (s.passed_partner l q m.addr m.value).2 partner
  have value : (h.val == m.value) = true := by simpa using same h mem lane addr
  simp only [State.passHalf_held alive alone room, found, value, Bool.not_true, if_true]

theorem State.passHalf_differs (alive : s.mon.alive = true) (alone : s.ackAlone l m = false)
    (room : (s.mon.halves.filter (fun h => h.lane == l)).length < 16) (partner : ∃ h ∈ s.mon.halves, h.lane = l.other ∧ h.addr = m.addr)
    (other : ∀ h ∈ s.mon.halves, h.lane = l.other → h.addr = m.addr → h.val ≠ m.value) : s.passHalf l q m =
      .ok (((s.passed l q m.addr m.value).met l m.addr true).monEv E.MON_DUAL_MISMATCH, .dualPend) := by
  obtain ⟨h, mem, lane, addr, found⟩ := (s.passed_partner l q m.addr m.value).2 partner
  have value : (h.val == m.value) = false := by simpa using other h mem lane addr
  simp only [State.passHalf_held alive alone room, found, value, Bool.not_false, Bool.false_eq_true, if_false]

end

end Sys2Proof.Machine
end


section
/-! PROOF. Dual writes (R97): the registers whose writes are halves. -/
namespace Sys2Proof.Machine

/-- A write of nothing but dual-write fields is a half. -/
theorem State.writeWord_half {s : State} {l : Lane} {c : WCtx} {a : Nat} {w : Word} {be : BitVec 4} {p : Page} {fs : List FieldDesc} {m : Merged}
    (align : a % 4 = 0) (bank : bankOf a = none) (page : pageAt a = some p) (fields : regFields a = some fs)
    (shadow : maskOf fs (·.shadow) = 0) (merged : mergeOver p (a % 0x1000) fs (s.word l a) w be = m) (mfs : m.fs = fs)
    (check : s.regCheck l c m w be = none) (dual : m.dual ≠ 0) (rest : m.rest = false) (half : m.half = true) :
    s.writeWord l c a w be = if s.monOk l then s.passHalf l c.q m else .error (.status .stateErr) := by
  rw [State.writeWord_reg align bank page fields, State.merge_unshadowed _ _ _ _ shadow, Page.base_add page, merged, check]
  exact s.regApply_half l c (mfs ▸ shadow) dual rest half

/-! ### SAF_MACH: a register of dual-write fields -/

def machFields : List FieldDesc := [fd 16 16 .rwl 0 (dual := true), fd 0 16 .rwl 0 (dual := true)]

/-- A write of SAF_MACH that changes it. -/
def machWrite (old w : Word) : Merged :=
  { p := .saf, off := 0x064, fs := machFields, old := old, new := w, wo := 0, dual := 0xFFFFFFFF, woMask := 0, half := true, rest := false }

theorem mergeOver_mach {old w : Word} (h : w ≠ old) : mergeOver .saf 0x064 machFields old w 0xF = machWrite old w := by
  have stored : maskOf machFields (fun f => f.acc.stored) = 4294967295#32 := by decide
  have w1c : maskOf machFields (fun f => f.acc == .w1c) = 0 := by decide
  have wo : maskOf machFields (fun f => f.acc == .wo) = 0 := by decide
  have any : maskOf machFields (fun f => f.acc != .ro) = 4294967295#32 := by decide
  have dual : maskOf machFields (fun f => f.acc != .ro && isDual .saf 0x064 f) = 4294967295#32 := by decide
  have changed : w ^^^ old ≠ 0#32 := fun e => h (BitVec.xor_eq_zero_iff.mp e)
  have hit : hitMask 0xF = 4294967295#32 := by decide
  simp only [mergeOver, machWrite, stored, w1c, wo, any, dual, hit]
  simp [Word.and_full, changed]

theorem machWrite_value (old w : Word) : (machWrite old w).value = w := by simp [machWrite, Merged.value, Word.and_full]

theorem State.writeWord_mach {s : State} {l : Lane} {c : WCtx} {w : Word} (lock : bit (s.word l 0x90008) 0 = false)
    (h : w ≠ s.word l 0x90064) : s.writeWord l c 0x90064 w 0xF =
      if s.monOk l then s.passHalf l c.q (machWrite (s.word l 0x90064) w) else .error (.status .stateErr) := by
  refine State.writeWord_half (by decide) (by decide) (by decide) (fs := machFields) (by decide) (by decide) (mergeOver_mach h) rfl ?_
    (by simp [machWrite]) rfl rfl
  have known : maskOf (machWrite (s.word l 0x90064) w).fs (fun _ => true) = 4294967295#32 := by simp only [machWrite]; decide
  refine State.regCheck_free (by simp [machWrite]) (by simp [machWrite, machFields, fd]) (by simp only [machWrite]; decide)
    (by simp only [machWrite]; decide) (by rw [known]; simp) rfl rfl rfl ?_
  simp only [State.lockBad, machWrite, Page.base, Nat.reduceAdd, lock]
  simp

/-! ### SAF_CTRL.ACK and MON_LOG_CLR: dual-write commands -/

/-- A write of a command of a dual-write register: the ones written to its dual-write fields. -/
def commandWrite (p : Page) (off : Nat) (fs : List FieldDesc) (old w dual woMask : Word) : Merged :=
  { p := p, off := off, fs := fs, old := old, new := old, wo := w, dual := dual, woMask := woMask, half := true, rest := false }

/-- The masks of a register that takes nothing but commands. -/
structure Commands (p : Page) (off : Nat) (fs : List FieldDesc) (dual woMask : Word) : Prop where
  stored : maskOf fs (fun f => f.acc.stored) = 0
  w1c : maskOf fs (fun f => f.acc == .w1c) = 0
  wo : maskOf fs (fun f => f.acc == .wo) = woMask
  any : maskOf fs (fun f => f.acc != .ro) = woMask
  dual : maskOf fs (fun f => f.acc != .ro && isDual p off f) = dual

theorem mergeOver_command {p : Page} {off : Nat} {fs : List FieldDesc} {old w dual woMask : Word} {be : BitVec 4}
    (masks : Commands p off fs dual woMask) (h : off ≠ 0x008) (given : w &&& hitMask be &&& woMask = w)
    (half : w &&& dual ≠ 0) (other : w &&& (woMask &&& ~~~dual) = 0) :
    mergeOver p off fs old w be = commandWrite p off fs old w dual woMask := by
  have off8 : (off == 0x008) = false := by simpa using h
  have half' : (w &&& dual != 0) = true := by simpa using half
  have wo : w &&& hitMask be &&& (woMask ||| 0) = w := by simpa using given
  simp only [mergeOver, commandWrite, masks.stored, masks.w1c, masks.wo, masks.any, masks.dual, off8]
  simp only [Bool.false_eq_true, if_false, wo, half', other]
  simp [Word.and_full]

theorem commandWrite_value {p : Page} {off : Nat} {fs : List FieldDesc} {old w dual woMask : Word} (h : w &&& dual &&& woMask = w)
    (sub : dual &&& ~~~woMask = 0) : (commandWrite p off fs old w dual woMask).value = w := by
  have none : old &&& dual &&& ~~~woMask = 0#32 := by rw [BitVec.and_assoc, sub]; exact BitVec.and_zero
  simp only [Merged.value, commandWrite, h, none, BitVec.zero_or]

def ackFields : List FieldDesc := [fd 2 1 .wo 0, fd 1 1 .wo 0, fd 0 1 .wo 0 (dual := true)]
def logClrFields : List FieldDesc := [fd 1 1 .wo 0 (dual := true), fd 0 1 .wo 0 (dual := true)]

theorem ackFields_commands : Commands .saf 0x074 ackFields 1 7 := ⟨by decide, by decide, by decide, by decide, by decide⟩
theorem logClrFields_commands : Commands (.mon 0) 0x048 logClrFields 3 3 := ⟨by decide, by decide, by decide, by decide, by decide⟩

theorem maskOf_none {fs : List FieldDesc} {P : FieldDesc → Bool} (h : ∀ f ∈ fs, P f = false) : maskOf fs P = 0 := by
  unfold maskOf
  induction fs with
  | nil => rfl
  | cons f t ih =>
    rw [List.foldl_cons, h f (List.mem_cons_self ..)]
    exact ih fun g hg => h g (List.mem_cons_of_mem _ hg)

/-- A command has no range, no lock and no owner among the loops. -/
theorem State.regCheck_command {s : State} {l : Lane} {c : WCtx} {p : Page} {off : Nat} {fs : List FieldDesc} {old w dual woMask : Word}
    {be : BitVec 4} (hoff : 0x040 ≤ off) (hfs : ∀ f ∈ fs, f.acc = .wo ∧ f.rng = .any) (some : fs ≠ [])
    (reserved : w &&& hitMask be &&& ~~~maskOf fs (fun _ => true) = 0) (usable : s.notUsable p = false)
    (owner : ∀ m : Merged, m.p = p → m.off = off → s.ownerBad l m = false) (cross : ∀ x, s.crossBad l p off x = false) :
    s.regCheck l c (commandWrite p off fs old w dual woMask) w be = none := by
  refine State.regCheck_free hoff (fun f hf => (hfs f hf).2) (maskOf_none fun f hf => by simp [(hfs f hf).1]) ?_ reserved usable
    (owner _ rfl rfl) (cross _) ?_
  · obtain ⟨f, hf⟩ := List.exists_mem_of_ne_nil _ some
    exact List.all_eq_false.mpr ⟨f, hf, by simp [(hfs f hf).1]⟩
  · have h4 : (off == 0x004) = false := by rw [beq_eq_false_iff_ne]; omega
    have h1c : (off == 0x01C) = false := by rw [beq_eq_false_iff_ne]; omega
    simp [State.lockBad, commandWrite, h4, h1c]

theorem State.writeWord_ack (s : State) (l : Lane) (c : WCtx) : s.writeWord l c 0x90074 1 0x1 =
    if s.monOk l then s.passHalf l c.q (commandWrite .saf 0x074 ackFields (s.word l 0x90074) 1 1 7) else .error (.status .stateErr) :=
  State.writeWord_half (by decide) (by decide) (by decide) (fs := ackFields) (by decide) (by decide)
    (mergeOver_command ackFields_commands (by decide) (by decide) (by decide) (by decide)) rfl
    (State.regCheck_command (by decide) (by simp [ackFields, fd]) (by simp [ackFields]) (by decide) rfl
      (fun m hp _ => by simp [State.ownerBad, hp, State.pageOwner]) fun _ => rfl)
    (by simp [commandWrite]) rfl rfl

theorem State.writeWord_logClr (s : State) (l : Lane) (c : WCtx) {w : Word} (h : w = 1 ∨ w = 2) : s.writeWord l c 0xC0048 w 0x1 =
    if s.monOk l then s.passHalf l c.q (commandWrite (.mon 0) 0x048 logClrFields (s.word l 0xC0048) w 3 3)
    else .error (.status .stateErr) := by
  have bits : w &&& hitMask 0x1 &&& 3 = w ∧ w &&& 3 ≠ 0 ∧ w &&& (3 &&& ~~~3) = 0 ∧
      w &&& hitMask 0x1 &&& ~~~maskOf logClrFields (fun _ => true) = 0 := by
    rcases h with rfl | rfl <;> decide
  exact State.writeWord_half (by decide) (by decide) (by decide) (fs := logClrFields) (by decide) (by decide)
    (mergeOver_command logClrFields_commands (by decide) bits.1 bits.2.1 bits.2.2.1) rfl
    (State.regCheck_command (by decide) (by simp [logClrFields, fd]) (by simp [logClrFields]) bits.2.2.2 rfl
      (fun m hp _ => by simp [State.ownerBad, hp, State.pageOwner]) fun _ => rfl)
    (by simp [commandWrite]) rfl rfl

end Sys2Proof.Machine
end


section
/-! PROOF. O52: dual writes, their halves, partners and time (R97). -/
namespace Sys2Proof.Machine

/-! ### A value that takes effect -/

/-- A word in effect in the monitor, and in the page of every lane out of reset. -/
def State.inEffect (s : State) (n : Nat) (w : Word) : State :=
  (s.modMon (fun m => { m with regs := m.regs.write n w })).both (fun l t => if t.inReset l then t else t.putWord l n w)

theorem State.dualApply_mach (s : State) (w : Word) : s.dualApply .saf 0x064 0xFFFFFFFF (0xFFFFFFFF &&& 0) w = s.inEffect 0x90064 w := by
  have mix : ∀ x : Word, (x &&& ~~~((0xFFFFFFFF : Word) &&& ~~~(0xFFFFFFFF &&& 0))) ||| (w &&& 0xFFFFFFFF &&& ~~~(0xFFFFFFFF &&& 0)) = w :=
    fun x => by simp [Word.and_full]
  unfold State.dualApply State.inEffect
  simp only [Page.base, Nat.reduceAdd, Nat.reduceBEq, Bool.false_eq_true, if_false, mix, Page.monServed, State.applied]

section
variable (s : State) {n : Nat} (w : Word) (mon : monAddr n = false)
include mon

/-- What the page of one lane takes. -/
theorem State.lane_inEffect (l : Lane) :
    (s.inReset l = false → (if s.inReset l then s else s.putWord l n w).word l n = w) ∧
    (if s.inReset l then s else s.putWord l n w).word l.other n = s.word l.other n ∧
    (∀ k, (if s.inReset l then s else s.putWord l n w).inReset k = s.inReset k) ∧
    (∀ k, ((if s.inReset l then s else s.putWord l n w).lane k).waiting = (s.lane k).waiting) ∧
    (if s.inReset l then s else s.putWord l n w).mon = s.mon := by
  cases reset : s.inReset l with
  | true => simp
  | false =>
    have apart : l.other ≠ l := by cases l <;> decide
    simp [State.word_putWord, mon, apart, State.putWord_mon_of_lane]

theorem State.inEffect_parts : (∀ k, (s.inEffect n w).inReset k = s.inReset k) ∧
    (∀ k, ((s.inEffect n w).lane k).waiting = (s.lane k).waiting) ∧
    (s.inEffect n w).mon = { s.mon with regs := s.mon.regs.write n w } := by
  obtain ⟨-, -, c, d, e⟩ := (s.modMon (fun m => { m with regs := m.regs.write n w })).lane_inEffect w mon .A
  obtain ⟨-, -, c', d', e'⟩ := (if (s.modMon (fun m => { m with regs := m.regs.write n w })).inReset .A
    then s.modMon (fun m => { m with regs := m.regs.write n w })
    else (s.modMon (fun m => { m with regs := m.regs.write n w })).putWord .A n w).lane_inEffect w mon .B
  exact ⟨fun k => (c' k).trans (c k), fun k => (d' k).trans (d k), e'.trans e⟩

theorem State.inEffect_word {k : Lane} (live : s.inReset k = false) : (s.inEffect n w).word k n = w := by
  obtain ⟨a, -, c, -⟩ := (s.modMon (fun m => { m with regs := m.regs.write n w })).lane_inEffect w mon .A
  obtain ⟨a', b', -⟩ := (if (s.modMon (fun m => { m with regs := m.regs.write n w })).inReset .A
    then s.modMon (fun m => { m with regs := m.regs.write n w })
    else (s.modMon (fun m => { m with regs := m.regs.write n w })).putWord .A n w).lane_inEffect w mon .B
  cases k with
  | A => exact b'.trans (a live)
  | B => exact a' ((c .B).trans live)

end

/-! ### What the access leaves of a half -/

theorem State.EvOnly.halves_eq {a s : State} (h : a.EvOnly s) : s.mon.halves = a.mon.halves := by
  have still := congrArg MonState.halves h.mon
  exact still

section
variable {s t : State} {l : Lane} {a : Nat} {q : Option Req} {w : Word} {be : BitVec 4}

/-- A half that is rejected waits nowhere and changes no value. -/
theorem State.Serves.half_rejected (serves : s.Serves l a q) (axle : axleWide a = false) (mirror : mirrored a = false)
    (run : s.writeWord l { q := q } a w be = .error (.status .stateErr)) :
    (s.write1 l q a w be).answered l = .stateErr ∧ (s.write1 l q a w be).mon.halves = s.mon.halves ∧
      ∀ k n, typeAt n ≠ 0x40 → evAddr n = false → (s.write1 l q a w be).word k n = s.word k n := by
  rw [State.write1, serves.write1_rejected ((State.writeShared_plain axle mirror).trans run) (by decide)]
  refine ⟨s.refused_answered l q _, ?_, fun k n type ev => ?_⟩
  · rw [State.noted_mon]
    exact (congrArg MonState.halves ((s.reject_answer_only l .stateErr).1 .mon (by decide))).symm
  · rw [State.noted_word _ _ _ _ _ type, s.reject_word l k _ ev]

/-- A half that is taken: the state that it leaves, but for the answer and the record of its number. -/
theorem State.Serves.half_taken {st : Status} (serves : s.Serves l a q) (axle : axleWide a = false) (mirror : mirrored a = false)
    (run : s.writeWord l { q := q } a w be = .ok (t, st)) (reset : t.inReset l = false) (waiting : ∀ k, (t.lane k).waiting = [])
    (busy : st ≠ .busy) : (s.write1 l q a w be).answered l = st ∧ (s.write1 l q a w be).mon = t.mon ∧
      ∀ k n, typeAt n ≠ 0x40 → (s.write1 l q a w be).word k n = t.word k n := by
  rw [State.write1, serves.write1_taken axle mirror run reset waiting busy]
  exact ⟨t.taken_answered l q st, t.taken_mon l q st, fun k n type => t.taken_word l k q st type⟩

end

/-- What a half does that finds the monitor: it waits, or meets its partner. `m` is the write that makes it. -/
structure State.Pairs (s : State) (l : Lane) (q : Option Req) (a : Nat) (w : Word) (be : BitVec 4) (m : Merged) : Prop where
  serves : s.Serves l a q
  axle : axleWide a = false
  mirror : mirrored a = false
  addr : m.addr = a
  run : s.writeWord l { q := q } a w be = s.passHalf l q m
  alive : s.mon.alive = true
  alone : s.ackAlone l m = false
  room : (s.mon.halves.filter (fun h => h.lane == l)).length < 16

section
variable {s : State} {l : Lane} {q : Option Req} {a : Nat} {w : Word} {be : BitVec 4} {m : Merged}

theorem State.Pairs.waits (h : s.Pairs l q a w be m) (no : ∀ h ∈ s.mon.halves, h.lane = l.other → h.addr ≠ a) :
    (s.write1 l q a w be).answered l = .dualPend ∧
    (s.write1 l q a w be).mon = { s.mon with halves := (s.write1 l q a w be).mon.halves, regs := (s.write1 l q a w be).mon.regs } ∧
    ({ lane := l, addr := a, val := m.value } : Half) ∈ (s.write1 l q a w be).mon.halves ∧
    ∀ k n, typeAt n ≠ 0x40 → (s.write1 l q a w be).word k n = s.word k n := by
  obtain ⟨serves, axle, mirror, addr, run, alive, alone, room⟩ := h
  rw [State.passHalf_waits alive alone room (addr ▸ no), addr] at run
  have held := (State.HalvesOnly.refl (s := s)).passed l q a m.value
  obtain ⟨answered, mon, word⟩ := serves.half_taken axle mirror run ((held.inReset l).trans serves.1.1)
    (fun k => (held.waiting k).trans (serves.2.1 k)) (by decide)
  refine ⟨answered, ?_, ?_, fun k n type => (word k n type).trans (held.word k n)⟩
  · rw [mon]
    exact held.mon
  · rw [mon, State.passed_halves]
    simp

/-- With its partner of equal value a half is applied: the state that the application leaves, but for the answer and the record. -/
theorem State.Pairs.meets (h : s.Pairs l q a w be m) (partner : ∃ h ∈ s.mon.halves, h.lane = l.other ∧ h.addr = a)
    (same : ∀ h ∈ s.mon.halves, h.lane = l.other → h.addr = a → h.val = m.value) {t : State}
    (applied : ((s.passed l q a m.value).met l a false).dualApply m.p m.off m.dual (m.dual &&& m.woMask) m.value = t)
    (reset : t.inReset l = false) (waiting : ∀ k, (t.lane k).waiting = []) :
    (s.write1 l q a w be).answered l = .dualPend ∧ (s.write1 l q a w be).mon = t.mon ∧
      ∀ k n, typeAt n ≠ 0x40 → (s.write1 l q a w be).word k n = t.word k n := by
  obtain ⟨serves, axle, mirror, addr, run, alive, alone, room⟩ := h
  rw [State.passHalf_meets alive alone room (addr ▸ partner) (addr ▸ same), addr, applied] at run
  exact serves.half_taken axle mirror run reset waiting (by decide)

/-- With a partner of another value both are discarded, and the monitor reports it. -/
theorem State.Pairs.differs (h : s.Pairs l q a w be m) (partner : ∃ h ∈ s.mon.halves, h.lane = l.other ∧ h.addr = a)
    (other : ∀ h ∈ s.mon.halves, h.lane = l.other → h.addr = a → h.val ≠ m.value) :
    (s.write1 l q a w be).answered l = .dualPend ∧ (∀ k n, typeAt n ≠ 0x40 → evAddr n = false → (s.write1 l q a w be).word k n = s.word k n) ∧
    (∀ h ∈ (s.write1 l q a w be).mon.halves, h.addr ≠ a) ∧
    (s.present l E.MON_DUAL_MISMATCH = false → (s.write1 l q a w be).pended l E.MON_DUAL_MISMATCH = true) := by
  obtain ⟨serves, axle, mirror, addr, run, alive, alone, room⟩ := h
  rw [State.passHalf_differs alive alone room (addr ▸ partner) (addr ▸ other), addr] at run
  have held := (State.HalvesOnly.refl (s := s)).passed l q a m.value |>.met l a true
  have ended := (s.passed l q a m.value).met_ended l a true
  generalize (s.passed l q a m.value).met l a true = t at run held ended
  have events : t.EvOnly (t.monEv E.MON_DUAL_MISMATCH) := State.pulseEv_only _ _ _ _ (by simp)
  obtain ⟨answered, mon, word⟩ := serves.half_taken axle mirror run
    ((events.inReset_eq l).trans ((held.inReset l).trans serves.1.1))
    (fun k => (events.waiting_eq k).trans ((held.waiting k).trans (serves.2.1 k))) (by decide)
  refine ⟨answered, fun k n type ev => (word k n type).trans ((events.word k n ev).trans (held.word k n)), ?_, fun absent => ?_⟩
  · rw [mon, events.halves_eq]
    exact ended
  · have pended := State.pulseEv_pended t .A E.MON_DUAL_MISMATCH false (by simp)
      (by rw [State.dead, if_pos (by decide), held.alive, alive]; rfl)
      ((held.present .A _).trans (by cases l <;> exact absent))
    unfold State.pended
    rw [word l _ (by decide)]
    cases l <;> exact pended

end

/-! ### Halves of SAF_MACH -/

theorem State.pairs_mach {s : State} {l : Lane} {q : Option Req} {w : Word} (serves : s.Serves l 0x90064 q)
    (lock : bit (s.word l 0x90008) 0 = false) (change : w ≠ s.word l 0x90064) (path : s.monOk l = true) (alive : s.mon.alive = true)
    (room : (s.mon.halves.filter (fun h => h.lane == l)).length < 16) :
    s.Pairs l q 0x90064 w 0xF (machWrite (s.word l 0x90064) w) where
  serves := serves
  axle := by decide
  mirror := by decide
  addr := rfl
  run := by rw [State.writeWord_mach lock change, if_pos path]
  alive := alive
  alone := rfl
  room := room

/-- Its matching partner at the monitor, a half of SAF_MACH is in effect in the monitor and in every lane out of reset. -/
theorem State.mach_meets {s : State} {l : Lane} {q : Option Req} {w : Word} (pairs : s.Pairs l q 0x90064 w 0xF (machWrite (s.word l 0x90064) w))
    (partner : ∃ h ∈ s.mon.halves, h.lane = l.other ∧ h.addr = 0x90064)
    (same : ∀ h ∈ s.mon.halves, h.lane = l.other → h.addr = 0x90064 → h.val = w) :
    (s.write1 l q 0x90064 w 0xF).answered l = .dualPend ∧ (s.write1 l q 0x90064 w 0xF).mon.regs.read 0x90064 = w ∧
    (∀ k, s.inReset k = false → (s.write1 l q 0x90064 w 0xF).word k 0x90064 = w) ∧
    ∀ h ∈ (s.write1 l q 0x90064 w 0xF).mon.halves, h.addr ≠ 0x90064 := by
  have value := machWrite_value (s.word l 0x90064) w
  have held := (State.HalvesOnly.refl (s := s)).passed l q 0x90064 w |>.met l 0x90064 false
  have ended := (s.passed l q 0x90064 w).met_ended l 0x90064 false
  obtain ⟨resets, waits, mon⟩ := ((s.passed l q 0x90064 w).met l 0x90064 false).inEffect_parts (n := 0x90064) w (by decide)
  obtain ⟨answered, mon', word⟩ := pairs.meets partner (by rw [value]; exact same)
    (by rw [value]; exact State.dualApply_mach _ w) ((resets l).trans ((held.inReset l).trans pairs.serves.1.1))
    (fun k => (waits k).trans ((held.waiting k).trans (pairs.serves.2.1 k)))
  refine ⟨answered, ?_, fun k live => ?_, ?_⟩
  · rw [mon', mon]
    exact (RegFile.read_write ..).trans (if_pos rfl)
  · exact (word k _ (by decide)).trans (State.inEffect_word _ w (by decide) ((held.inReset k).trans live))
  · rw [mon', mon]
    exact ended

/-! ### The 10 ms of a half -/

/-- A half that is discarded by time leaves the lane's timer, and the sessions whose next PERIOD covers it report the loss. -/
theorem State.halfGone_lost (s : State) (l : Lane) (a : Nat) : a ∉ ((s.halfGone l a true).lane l).timedHalves ∧
    ∀ k : Fin 4, a ∈ ((s.lane l).sess[k]).halves → (((s.halfGone l a true).lane l).sess[k]).dualLost = true := by
  have covered : ∀ (t : State) (f : Lane → LaneState → LaneState) (x : Lane),
      (t.both fun k u => u.modLane k (f k)).lane x = f x (t.lane x) := fun t f x => by cases x <;> rfl
  unfold State.halfGone
  dsimp only
  refine ⟨by simp, fun k mem => ?_⟩
  rw [State.lane_modLane_same, covered]
  simp only [Fin.getElem_fin] at mem
  simp [mem]

/-- The monitor gives up a lane's half of a register. -/
def State.dropHalf (s : State) (l : Lane) (a : Nat) : State :=
  s.modMon (fun m => { m with halves := m.halves.filter (fun h => !(h.lane == l && h.addr == a)) })

theorem dualTimeout_discards (s : State) (l : Lane) (a : BitVec 24) (alive : s.mon.alive = true)
    (some : ∃ h ∈ s.mon.halves, h.lane = l ∧ h.addr = a.toNat) : Completes (exec (.dualTimeout l a) s) fun u =>
      (∀ h ∈ u.mon.halves, ¬(h.lane = l ∧ h.addr = a.toNat)) ∧ a.toNat ∉ (u.lane l).timedHalves ∧
      (∀ k : Fin 4, a.toNat ∈ ((s.lane l).sess[k]).halves → ((u.lane l).sess[k]).dualLost = true) ∧
      (s.present l E.MON_DUAL_TIMEOUT = false → u.pended l E.MON_DUAL_TIMEOUT = true) := by
  have held : s.mon.halves.any (fun h => h.lane == l && h.addr == a.toNat) = true := by simpa using some
  have run : exec (.dualTimeout l a) s = done (((s.dropHalf l a.toNat).halfGone l a.toNat true).monEv E.MON_DUAL_TIMEOUT) := by
    have unfolded : exec (.dualTimeout l a) s = execDualTimeout l a s := rfl
    rw [unfolded]
    unfold execDualTimeout
    simp only [alive, held, Bool.not_true, Bool.or_self, Bool.false_eq_true, if_false] <;> rfl
  rw [run]
  refine completes_done ?_
  have dropped : s.HalvesOnly (s.dropHalf l a.toNat) := State.HalvesOnly.refl.modMon _ fun _ => rfl
  have gone := dropped.halfGone l a.toNat true
  obtain ⟨timer, lost⟩ := (s.dropHalf l a.toNat).halfGone_lost l a.toNat
  have events : ((s.dropHalf l a.toNat).halfGone l a.toNat true).EvOnly (((s.dropHalf l a.toNat).halfGone l a.toNat true).monEv E.MON_DUAL_TIMEOUT) :=
    State.pulseEv_only _ _ _ _ (by simp)
  refine ⟨?_, ?_, fun k mem => ?_, fun absent => ?_⟩
  · rw [events.halves_eq, State.halfGone_mon]
    intro h hm
    have kept := (List.mem_filter.mp hm).2
    rintro ⟨lane, addr⟩
    simp [lane, addr] at kept
  · rw [(events.only.1 .timedHalves (by decide) l).symm]
    exact timer
  · rw [events.sess_eq]
    exact lost k mem
  · have pended := State.pulseEv_pended ((s.dropHalf l a.toNat).halfGone l a.toNat true) .A E.MON_DUAL_TIMEOUT false (by simp)
      (by rw [State.dead, if_pos (by decide), gone.alive, alive]; rfl) ((gone.present .A _).trans (by cases l <;> exact absent))
    cases l <;> exact pended

theorem dualHalfLaneTimeout_discards (s : State) (l : Lane) (a : BitVec 24) (timed : a.toNat ∈ (s.lane l).timedHalves) :
    Completes (exec (.dualHalfLaneTimeout l a) s) fun u => a.toNat ∉ (u.lane l).timedHalves ∧
      ∀ k : Fin 4, a.toNat ∈ ((s.lane l).sess[k]).halves → ((u.lane l).sess[k]).dualLost = true := by
  have run : exec (.dualHalfLaneTimeout l a) s = done (s.halfGone l a.toNat true) :=
    congrArg done (if_pos (by simpa using timed))
  rw [run]
  exact completes_done (s.halfGone_lost l a.toNat)

/-! ### Assembly -/

/-- Settles O52: a half that the monitor holds or not, and its two timers. -/
theorem dualWrites : Obligations.DualWrites := by
  refine ⟨fun s l q w serves lock change => ⟨fun path => ?_, fun path full other => ?_, fun path alive room => ?_⟩,
    fun s l a => ⟨dualTimeout_discards s l a, dualHalfLaneTimeout_discards s l a⟩⟩
  · obtain ⟨answered, halves, word⟩ := serves.half_rejected (w := w) (be := 0xF) (by decide) (by decide)
      (by rw [State.writeWord_mach lock change, path]; rfl)
    exact completes_done ⟨answered, halves, word l _ (by decide) (by decide)⟩
  · obtain ⟨answered, halves, word⟩ := serves.half_rejected (w := w) (be := 0xF) (by decide) (by decide)
      (by rw [State.writeWord_mach lock change, if_pos path]; exact State.passHalf_full rfl full other)
    exact completes_done ⟨answered, halves, word l _ (by decide) (by decide)⟩
  · have pairs := State.pairs_mach serves lock change path alive room
    have value := machWrite_value (s.word l 0x90064) w
    refine ⟨fun no => ?_, fun partner => ⟨fun same => completes_done (State.mach_meets pairs partner same), fun other => ?_⟩⟩
    · obtain ⟨answered, -, waits, word⟩ := pairs.waits no
      rw [value] at waits
      exact completes_done ⟨answered, word l _ (by decide), waits⟩
    · obtain ⟨answered, word, ended, reported⟩ := pairs.differs partner (by rw [value]; exact other)
      exact completes_done ⟨answered, fun k => word k _ (by decide) (by decide), ended, reported⟩

end Sys2Proof.Machine
end


section
/-! PROOF. What events and the stops of functions leave of the monitor: its halves (R97), its reaction (R372), and the values of lane
pages that it has applied (R98). -/
namespace Sys2Proof.Machine

/-- The halves, the reaction and the applied values that the monitor holds; with `pub` SAF_STAT.STATE, which it publishes, is left out. -/
structure MonView where
  alive : Bool
  halves : List Half
  sto : Bool
  ss1 : Bool
  safCause : Nat
  holdTq : PerLane Bool
  safState : Nat
  read : Nat → Word

def MonState.view (pub : Bool) (m : MonState) : MonView :=
  { alive := m.alive, halves := m.halves, sto := m.sto, ss1 := m.ss1, safCause := m.safCause, holdTq := m.holdTq
    safState := if pub then 0 else m.safState, read := fun n => if monAddr n then 0 else m.regs.read n }

section
variable {b : Bool}

theorem MonState.view_alive {m n : MonState} (h : m.view b = n.view b) : m.alive = n.alive := by
  have e := congrArg MonView.alive h
  exact e

theorem MonState.view_halves {m n : MonState} (h : m.view b = n.view b) : m.halves = n.halves := by
  have e := congrArg MonView.halves h
  exact e

theorem MonState.view_sto {m n : MonState} (h : m.view b = n.view b) : m.sto = n.sto := by
  have e := congrArg MonView.sto h
  exact e

theorem MonState.view_ss1 {m n : MonState} (h : m.view b = n.view b) : m.ss1 = n.ss1 := by
  have e := congrArg MonView.ss1 h
  exact e

theorem MonState.view_safCause {m n : MonState} (h : m.view b = n.view b) : m.safCause = n.safCause := by
  have e := congrArg MonView.safCause h
  exact e

theorem MonState.view_holdTq {m n : MonState} (h : m.view b = n.view b) : m.holdTq = n.holdTq := by
  have e := congrArg MonView.holdTq h
  exact e

theorem MonState.view_safState {m n : MonState} (h : m.view false = n.view false) : m.safState = n.safState := by
  have e := congrArg MonView.safState h
  exact e

theorem MonState.view_read {m n : MonState} (h : m.view b = n.view b) {a : Nat} (ha : monAddr a = false) : m.regs.read a = n.regs.read a := by
  have e := congrFun (congrArg MonView.read h) a
  simpa [MonState.view, ha] using e

/-! ### Writes of registers, and of the parts of a state -/

theorem State.modMon_view (s : State) {f : MonState → MonState} (h : ∀ m, (f m).view b = m.view b) :
    (s.modMon f).mon.view b = s.mon.view b := h _

theorem State.ite_view {p : Prop} [Decidable p] {s t u : State} (h : s.mon.view b = u.mon.view b) (k : t.mon.view b = u.mon.view b) :
    (if p then s else t).mon.view b = u.mon.view b := by
  split
  · exact h
  · exact k

theorem State.foldl_view {α : Type} (xs : List α) {f : State → α → State} (h : ∀ s x, (f s x).mon.view b = s.mon.view b) (s : State) :
    (xs.foldl f s).mon.view b = s.mon.view b := by
  induction xs generalizing s with
  | nil => rfl
  | cons x t ih => exact (ih _).trans (h s x)

theorem State.both_view {f : Lane → State → State} (h : ∀ l s, (f l s).mon.view b = s.mon.view b) (s : State) :
    (s.both f).mon.view b = s.mon.view b := (h _ _).trans (h _ _)

/-- Only the words of the monitor's own pages change in its file by a lane's writes. -/
@[simp] theorem State.putWord_view (s : State) (l : Lane) (n : Nat) (w : Word) : (s.putWord l n w).mon.view b = s.mon.view b := by
  unfold State.putWord
  split
  · refine State.modMon_view s fun m => ?_
    simp only [MonState.view, MonView.mk.injEq, true_and]
    funext a
    split
    · rfl
    · rw [RegFile.read_write, if_neg]
      rintro rfl
      contradiction
  · rfl

@[simp] theorem State.put_view (s : State) (l : Lane) (f : Fld) (v : Nat) : (s.put l f v).mon.view b = s.mon.view b := s.putWord_view ..
@[simp] theorem State.putFlag_view (s : State) (l : Lane) (f : Fld) (v : Bool) : (s.putFlag l f v).mon.view b = s.mon.view b := s.putWord_view ..
@[simp] theorem State.bump_view (s : State) (l : Lane) (f : Fld) (n : Nat) : (s.bump l f n).mon.view b = s.mon.view b := s.putWord_view ..
@[simp] theorem State.mput_view (s : State) (f : Fld) (v : Nat) : (s.mput f v).mon.view b = s.mon.view b := s.putWord_view ..
@[simp] theorem State.mputFlag_view (s : State) (f : Fld) (v : Bool) : (s.mputFlag f v).mon.view b = s.mon.view b := s.putWord_view ..
@[simp] theorem State.mbump_view (s : State) (f : Fld) (n : Nat) : (s.mbump f n).mon.view b = s.mon.view b := s.putWord_view ..

/-! ### Events -/

@[simp] theorem State.send_view (s : State) (l : Lane) (e : Bool) (f : Sent) : (s.send l e f).mon.view b = s.mon.view b :=
  State.ite_view (s.bump_view ..) rfl

@[simp] theorem State.sendEvent_view (s : State) (l : Lane) (e : Bool) (x : EvItem) : (s.sendEvent l e x).mon.view b = s.mon.view b :=
  State.send_view ..

@[simp] theorem State.evIn_view (s : State) (l : Lane) (x : EvItem) : (s.evIn l x).mon.view b = s.mon.view b := by
  have wait : ∀ (t : State) (y : EvItem), (if (t.lane l).evq.length ≥ 32 then t
      else (t.modLane l (fun z => { z with evq := z.evq ++ [y] })).bump l F.RING_CNT2_EVT_COAL).mon.view b = t.mon.view b :=
    fun t y => State.ite_view rfl (State.bump_view ..)
  unfold State.evIn
  dsimp only
  refine State.ite_view rfl ?_
  split
  · exact State.ite_view (State.sendEvent_view ..) (wait _ _)
  · exact wait _ _

@[simp] theorem State.routeRing_view (s : State) (l : Lane) (src : Nat) (x : Bool) : (s.routeRing l src x).mon.view b = s.mon.view b := by
  unfold State.routeRing
  exact State.ite_view (State.ite_view rfl (State.evIn_view ..)) rfl

@[simp] theorem State.routeFall_view (s : State) (l : Lane) (src : Nat) (x : Bool) : (s.routeFall l src x).mon.view b = s.mon.view b := by
  unfold State.routeFall
  exact State.ite_view (State.evIn_view ..) rfl

@[simp] theorem State.addLog_view (s : State) (l : Lane) (o : Nat) (p : Page) (e : Ev) (src : Nat) (m f : Bool) (r : Nat) :
    (s.addLog l o p e src m f r).mon.view b = s.mon.view b := by
  unfold State.addLog
  dsimp only
  refine State.ite_view rfl (State.ite_view ?_ ?_) <;> simp <;> rfl

@[simp] theorem State.pend_view (s : State) (l : Lane) (e : Ev) : (s.pend l e).mon.view b = s.mon.view b := s.putWord_view ..

@[simp] theorem State.capTrigger_view (s : State) (l : Lane) (w : Fin 8) : (s.capTrigger l w).mon.view b = s.mon.view b :=
  State.ite_view (s.put_view ..) rfl

@[simp] theorem State.countRise_view (s : State) (l : Lane) (src : Nat) : (s.countRise l src).mon.view b = s.mon.view b := by
  simp [State.countRise]

@[simp] theorem State.startReact_view (s : State) (l : Lane) (p r : Nat) : (s.startReact l p r).mon.view b = s.mon.view b := by
  unfold State.startReact
  exact State.ite_view rfl (State.ite_view (s.bump_view ..) (State.ite_view (s.bump_view ..) (s.bump_view ..)))

@[simp] theorem State.capBySource_view (s : State) (l : Lane) (src : Nat) : (s.capBySource l src).1.mon.view b = s.mon.view b := by
  unfold State.capBySource
  suffices ∀ (xs : List (Fin 8)) (acc : State × Bool), (xs.foldl (fun (acc : State × Bool) w =>
    if acc.1.fld l (F.MEM_CAP_STAT_STATE w.val) == 1 && acc.1.fld l (F.MEM_CAP_CFG_TMODE w.val) == 1 &&
       acc.1.fld l (F.MEM_CAP_CFG_TSRC w.val) == src then (acc.1.capTrigger l w, true) else acc) acc).1.mon.view b = acc.1.mon.view b
    from this _ _
  intro xs
  induction xs with
  | nil => exact fun _ => rfl
  | cons w t ih =>
    intro acc
    refine (ih _).trans ?_
    dsimp only
    split
    · exact State.capTrigger_view ..
    · rfl

@[simp] theorem State.laneRise_view (s : State) (l : Lane) (e : Ev) (f : Bool) : (s.laneRise l e f).mon.view b = s.mon.view b := by
  unfold State.laneRise
  dsimp only
  split
  · rw [State.startReact_view]
    exact State.ite_view (by simp) (by simp)
  · simp

@[simp] theorem State.routed_view (s : State) (l : Lane) (e : Ev) (pulse : Bool) (f : State → State) :
    (s.routed l e pulse f).mon.view b = (f s).mon.view b := by
  unfold State.routed
  split
  · rfl
  · refine State.foldl_view _ (fun t k => State.ite_view rfl (State.ite_view ?_ ?_)) _ <;> simp

@[simp] theorem State.capWake_view (s : State) (l : Lane) (src : Nat) : (s.capWake l src).mon.view b = s.mon.view b := by
  unfold State.capWake
  exact State.ite_view (by simp) (by simp)

@[simp] theorem State.laneRiseCap_view (s : State) (l : Lane) (e : Ev) (f : Bool) : (s.laneRiseCap l e f).mon.view b = s.mon.view b := by
  unfold State.laneRiseCap
  dsimp only
  split <;> simp

@[simp] theorem State.islRise_view (s : State) (e : Ev) (f : Bool) : (s.islRise e f).mon.view b = s.mon.view b := by
  unfold State.islRise
  dsimp only
  split
  · have step : ∀ (p : Prop) [Decidable p] (t u : State), u.mon.view b = t.mon.view b → (if p then u else t).mon.view b = t.mon.view b :=
      fun p _ t u h => State.ite_view h rfl
    rw [step _ _ _ (State.capWake_view ..), step _ _ _ (State.capWake_view ..), State.startReact_view, State.startReact_view,
      step _ _ _ (State.addLog_view ..), step _ _ _ (State.countRise_view ..), step _ _ _ (State.countRise_view ..), State.pend_view]
  · simp

@[simp] theorem State.monRise_view (s : State) (e : Ev) (f : Bool) : (s.monRise e f).mon.view b = s.mon.view b := by
  unfold State.monRise
  dsimp only
  rw [State.addLog_view, State.both_view fun l t => State.ite_view rfl (by simp)]
  simp

@[simp] theorem State.rise_view (s : State) (l : Lane) (e : Ev) (f : Bool) : (s.rise l e f).mon.view b = s.mon.view b := by
  unfold State.rise
  split <;> simp

@[simp] theorem State.pulseEv_view (s : State) (l : Lane) (e : Ev) (f : Bool) : (s.pulseEv l e f).mon.view b = s.mon.view b := by
  unfold State.pulseEv
  dsimp only
  refine State.ite_view rfl ?_
  rw [State.routed_view, State.rise_view]
  exact State.ite_view rfl rfl

@[simp] theorem State.levelEv_view (s : State) (l : Lane) (e : Ev) (on : Bool) : (s.levelEv l e on).mon.view b = s.mon.view b := by
  unfold State.levelEv
  dsimp only
  refine State.ite_view rfl ?_
  rw [State.routed_view]
  exact State.ite_view (by simp) (by simp)

@[simp] theorem State.monEv_view (s : State) (e : Ev) : (s.monEv e).mon.view b = s.mon.view b := s.pulseEv_view ..
@[simp] theorem State.monLevel_view (s : State) (e : Ev) (on : Bool) : (s.monLevel e on).mon.view b = s.mon.view b := s.levelEv_view ..

end

end Sys2Proof.Machine
end


section
/-! PROOF. What the stops of functions and the monitor's declarations leave of the monitor's halves, reaction and applied values. -/
namespace Sys2Proof.Machine

section
variable {b : Bool}

/-! ### Stops (R176, R211, R270, R294, R316) -/

@[simp] theorem State.loopOpen_view (s : State) (l : Lane) (n : Nat) : (s.loopOpen l n).mon.view b = s.mon.view b := s.putWord_view ..

@[simp] theorem State.smGoto_view (s : State) (l : Lane) (st : Nat) : (s.smGoto l st).mon.view b = s.mon.view b := by simp [State.smGoto]

@[simp] theorem State.setRamp_view (s : State) (l : Lane) (v : Nat) : (s.setRamp l v).mon.view b = s.mon.view b := State.put_view ..

@[simp] theorem State.gatesOff_view (s : State) (ns : List (Fin 34)) : (s.gatesOff ns).mon.view b = s.mon.view b := by
  unfold State.gatesOff
  refine State.foldl_view _ (fun _ _ => ?_) s
  rfl

@[simp] theorem State.placeSet_view (s : State) (l : Lane) : (s.placeSet l).mon.view b = s.mon.view b := by
  have traction : ∀ (xs : List (Fin 34)) (t : State), (xs.foldl (fun s c => s.placeTraction c) t).mon.view b = t.mon.view b :=
    fun xs t => by
      refine State.foldl_view _ (fun _ _ => ?_) t
      rfl
  exact (traction _ _).trans (traction _ _)

@[simp] theorem State.setFault_view (s : State) (l : Lane) (c : Nat) : (s.setFault l c).mon.view b = s.mon.view b := by
  unfold State.setFault State.safeEntry
  exact State.ite_view rfl (by simp)

@[simp] theorem State.setPhaseActive_view (s : State) (l : Lane) (m : Nat) (v : Bool) :
    (s.setPhaseActive l m v).mon.view b = s.mon.view b := s.putFlag_view ..

@[simp] theorem State.dclStop_view (s : State) (l : Lane) : (s.dclStop l).mon.view b = s.mon.view b := by
  unfold State.dclStop
  refine State.ite_view rfl ?_
  extract_lets gates phases stopped left
  have off : phases.mon.view b = s.mon.view b :=
    (State.foldl_view _ (fun _ _ => State.setPhaseActive_view ..) gates).trans (State.gatesOff_view ..)
  rw [State.loopOpen_view, State.levelEv_view]
  exact (State.putFlag_view ..).trans ((State.putFlag_view ..).trans ((State.put_view ..).trans off))

@[simp] theorem State.setReg_view (s : State) (l : Lane) (v : Bool) : (s.setReg l v).mon.view b = s.mon.view b := by
  have one : ∀ (k : Lane) (t : State), ((if t.flag k F.DCL_CTRL_REG && !v
      then t.putWord k F.DCL_VREF_ACT_VREF_ACT.addr (t.word k F.DCL_UDC_UDC.addr) else t).putFlag k F.DCL_CTRL_REG v).mon.view b =
      t.mon.view b := fun k t => (State.putFlag_view ..).trans (State.ite_view (State.putWord_view ..) rfl)
  unfold State.setReg
  exact State.ite_view ((one _ _).trans (one _ _)) (one _ _)

@[simp] theorem State.showK_view (s : State) : s.showK.mon.view b = s.mon.view b :=
  State.both_view (fun _ _ => State.ite_view rfl (by simp)) s

@[simp] theorem State.driveK_view (s : State) : s.driveK.mon.view b = s.mon.view b := by
  unfold State.driveK
  extract_lets demand old driven
  rw [State.showK_view]
  refine (State.foldl_view _ (fun t n => ?_) driven).trans rfl
  refine State.ite_view (State.ite_view ?_ ?_) ?_
  · rfl
  · rfl
  · exact State.modMon_view t fun _ => rfl

@[simp] theorem State.askK_view (s : State) (l : Lane) (n : Nat) (on : Bool) : (s.askK l n on).mon.view b = s.mon.view b :=
  (State.driveK_view _).trans (State.modMon_view s fun _ => rfl)

@[simp] theorem State.driveS2_view (s : State) (l : Lane) (on : Bool) : (s.driveS2 l on).mon.view b = s.mon.view b := s.putFlag_view ..

@[simp] theorem State.chgEnd_view (s : State) (l : Lane) (c : Nat) : (s.chgEnd l c).mon.view b = s.mon.view b := by simp [State.chgEnd]

@[simp] theorem State.chgFault_view (s : State) (l : Lane) (c : Nat) : (s.chgFault l c).mon.view b = s.mon.view b := by
  unfold State.chgFault
  refine State.ite_view rfl ?_
  extract_lets fault gates loops stages contactors s2 session
  have opened : loops.mon.view b = s.mon.view b :=
    (State.loopOpen_view ..).trans ((State.loopOpen_view ..).trans ((State.gatesOff_view ..).trans (State.put_view ..)))
  have asked : contactors.mon.view b = loops.mon.view b :=
    (State.askK_view ..).trans ((State.askK_view ..).trans ((State.askK_view ..).trans ((State.put_view ..).trans (State.put_view ..))))
  rw [State.chgEnd_view]
  exact (State.setReg_view ..).trans ((State.driveS2_view ..).trans (asked.trans opened))

@[simp] theorem State.bridgeOff_view (s : State) (a : Fin 2) : (s.bridgeOff a).mon.view b = s.mon.view b := by
  unfold State.bridgeOff
  refine State.foldl_view _ (fun _ _ => ?_) s
  rfl

@[simp] theorem State.actIdle_view (s : State) (l : Lane) (a : Fin 2) : (s.actIdle l a).mon.view b = s.mon.view b := by
  unfold State.actIdle
  exact State.ite_view rfl (by simp)

/-! ### STO and SS1 in one lane (R356, R361) -/

@[simp] theorem State.laneSto_view (s : State) (l : Lane) : (s.laneSto l).mon.view b = s.mon.view b := by
  unfold State.laneSto
  refine State.ite_view rfl ?_
  extract_lets sto ss1 safe converter charger acts
  have stopped : converter.mon.view b = s.mon.view b :=
    (State.dclStop_view ..).trans ((State.setFault_view ..).trans ((State.levelEv_view ..).trans (State.levelEv_view ..)))
  exact (State.actIdle_view ..).trans ((State.actIdle_view ..).trans
    ((State.ite_view (u := converter) (State.chgFault_view ..) rfl).trans stopped))

@[simp] theorem State.laneSs1_view (s : State) (l : Lane) : (s.laneSs1 l).mon.view b = s.mon.view b := by
  unfold State.laneSs1
  refine State.ite_view rfl ?_
  extract_lets ss1 state
  have raised : ss1.mon.view b = s.mon.view b := State.levelEv_view ..
  have saf : ∀ (t : State) (f : SafLines → SafLines), (t.modSaf l f).mon.view b = t.mon.view b := fun _ _ => rfl
  have trc : ∀ (t : State) (f : TrcState → TrcState), (t.modTrc l f).mon.view b = t.mon.view b := fun _ _ => rfl
  refine State.ite_view ?_ (State.ite_view ?_ ?_)
  · rw [saf, trc, State.smGoto_view, raised]
  · rw [saf, State.setFault_view, raised]
  · rw [saf, raised]

@[simp] theorem State.causeEv_view (s : State) (c : Nat) : (s.causeEv c).mon.view b = s.mon.view b := by
  have both : ∀ (t : State) (e : Ev), (t.safEv e).mon.view b = t.mon.view b := fun t e => State.both_view (fun _ _ => State.pulseEv_view ..) t
  unfold State.causeEv
  split <;> simp [both]

/-! ### What the monitor does with a set, and what it publishes -/

@[simp] theorem State.holdSet_view (s : State) (l : Lane) : (s.holdSet l).mon.view b = s.mon.view b := by
  unfold State.holdSet
  extract_lets masked
  have mask : masked.mon.view b = s.mon.view b := State.modMon_view s fun _ => rfl
  refine (State.foldl_view _ (fun _ _ => ?_) masked).trans mask
  rfl

@[simp] theorem State.publishTo_view (s : State) (l : Lane) : (s.publishTo l).mon.view b = s.mon.view b := by
  unfold State.publishTo
  exact State.ite_view rfl (by simp)

end

/-- Publishing renews SAF_STAT.STATE alone. -/
@[simp] theorem State.publish_view (s : State) : s.publish.mon.view true = s.mon.view true := by
  unfold State.publish
  refine State.ite_view rfl ?_
  rw [State.publishTo_view, State.publishTo_view]
  exact State.modMon_view s fun _ => rfl

@[simp] theorem State.driveToken_view (s : State) (l : Lane) : (s.driveToken l).mon.view true = s.mon.view true := by
  unfold State.driveToken
  refine State.ite_view rfl ?_
  extract_lets old token moving moved marked reported charger bridges
  have lines : moved.mon.view true = s.mon.view true :=
    (State.modMon_view moving fun _ => rfl).trans ((State.mputFlag_view ..).trans (State.mputFlag_view ..))
  have flagged : marked.mon.view true = moved.mon.view true := by
    refine State.both_view (fun k t => State.ite_view ?_ ?_) moved
    · rfl
    · exact State.putFlag_view ..
  have told : reported.mon.view true = s.mon.view true :=
    (State.monEv_view ..).trans (flagged.trans lines)
  have latched : charger.mon.view true = s.mon.view true := by
    refine (State.foldl_view _ (fun t n => State.ite_view ?_ ?_) reported).trans told
    · rfl
    · rfl
  clear_value charger
  have owned : bridges.mon.view true = charger.mon.view true := by
    refine State.ite_view ?_ ?_
    · rfl
    · rfl
  exact (State.driveK_view _).trans (owned.trans latched)

@[simp] theorem State.pgLow_view (s : State) : s.pgLow.mon.view true = s.mon.view true := by
  unfold State.pgLow
  exact State.ite_view (by simp) (by simp)

@[simp] theorem State.declare_view (s : State) (x : Lane) : (s.declare x).mon.view true = s.mon.view true := by
  unfold State.declare
  refine State.ite_view rfl ?_
  extract_lets failed reported out safe other token power
  have flagged : failed.mon.view true = s.mon.view true := by
    cases x <;> exact State.mputFlag_view ..
  have held : safe.mon.view true = s.mon.view true :=
    (State.setFault_view ..).trans ((State.holdSet_view ..).trans
      ((State.modMon_view reported fun _ => rfl).trans ((State.monEv_view ..).trans flagged)))
  have moved : token.mon.view true = safe.mon.view true := State.ite_view (State.driveToken_view ..) rfl
  exact (State.publish_view _).trans ((State.ite_view (u := token) (State.pgLow_view _) rfl).trans (moved.trans held))

end Sys2Proof.Machine
end


section
/-! PROOF. O53: a lane reset discards that lane's halves, and leaves what the monitor has applied (R98). -/
namespace Sys2Proof.Machine

/-- The monitor without a lane's halves, its applied values kept. -/
structure MonState.Dropped (m n : MonState) (l : Lane) : Prop where
  halves : n.halves = m.halves.filter (fun h => h.lane != l)
  read : ∀ a, monAddr a = false → n.regs.read a = m.regs.read a

theorem MonState.Dropped.later {m n k : MonState} {l : Lane} (h : m.Dropped n l) (e : k.view true = n.view true) : m.Dropped k l :=
  ⟨(MonState.view_halves e).trans h.halves, fun a ha => (MonState.view_read e ha).trans (h.read a ha)⟩

/-- A lane's die with its reset values, and what a reset keeps of it. -/
def State.blank (s : State) (l : Lane) (c : Fld) : State :=
  ((((s.setLane l { hold := (s.lane l).hold, flash := (s.lane l).flash, dup := (s.lane l).dup
                    boot := { slot := (s.lane l).boot.slot, cur := bootSlot (s.lane l).boot.slot } }).putWord l F.RST_CAUSE_POR.addr
    (s.word l F.RST_CAUSE_POR.addr &&& 0x3F#32)).putFlag l c true).put l F.PWR_STAT_DROOP_CNT
    (s.fld l F.PWR_STAT_DROOP_CNT)).putFlag l F.RING_STAT_DEV_DUP (s.lane l).dup

/-- What the reset of a lane's die does with its time and at the monitor. -/
def State.forget (s : State) (l : Lane) : State :=
  (if s.inReset l.other then s else s.modOfs l (fun _ => s.timeOfs.get l.other)).modMon (fun m => { m with
    halves := m.halves.filter (fun h => h.lane != l)
    hb := m.hb.set l none
    missHb := m.missHb.set l 0
    peerBlind := m.peerBlind.set l true })

theorem State.resetLane_eq (s : State) (l : Lane) (c : Fld) : s.resetLane l c = (s.blank l c).forget l := rfl

theorem State.forget_hold (s : State) (l : Lane) : ((s.forget l).lane l).hold = (s.lane l).hold := by
  unfold State.forget
  split <;> rfl

theorem State.forget_dropped (s : State) (l : Lane) : s.mon.Dropped (s.forget l).mon l := by
  unfold State.forget
  split <;> exact ⟨rfl, fun _ _ => rfl⟩

theorem State.blank_hold (s : State) (l : Lane) (c : Fld) : ((s.blank l c).lane l).hold = (s.lane l).hold := by
  unfold State.blank State.putFlag
  rw [State.put_lane_hold, State.put_lane_hold, State.put_lane_hold, State.putWord_lane_hold]
  cases l <;> rfl

theorem State.blank_view (s : State) (l : Lane) (c : Fld) : (s.blank l c).mon.view true = s.mon.view true := by
  unfold State.blank
  rw [State.putFlag_view, State.put_view, State.putFlag_view, State.putWord_view]
  rfl

/-- The reset of a lane's die keeps what holds it. -/
theorem State.resetLane_hold (s : State) (l : Lane) (c : Fld) : ((s.resetLane l c).lane l).hold = (s.lane l).hold := by
  rw [State.resetLane_eq, State.forget_hold, State.blank_hold]

/-- The reset of a lane's die discards its halves at the monitor. -/
theorem State.resetLane_dropped (s : State) (l : Lane) (c : Fld) : s.mon.Dropped (s.resetLane l c).mon l := by
  obtain ⟨halves, read⟩ := (s.blank l c).forget_dropped l
  have view := s.blank_view l c
  rw [State.resetLane_eq]
  exact ⟨halves.trans (congrArg (List.filter _) (MonState.view_halves view)), fun a ha => (read a ha).trans (MonState.view_read view ha)⟩

/-- A lane that enters reset: its cause holds it, and the monitor drops its halves. -/
theorem State.enterReset_discards (s : State) (l : Lane) (c : Fld) (cause : Hold → Hold) :
    ((s.enterReset l c cause).lane l).hold = cause (s.lane l).hold ∧ s.mon.Dropped (s.enterReset l c cause).mon l := by
  unfold State.enterReset
  extract_lets was held gone reset declared other
  have holding : (held.lane l).hold = cause (s.lane l).hold := by simp [held, State.modHold]
  have ended : held.HalvesOnly gone ∧ gone.mon = held.mon := by
    have step : ∀ (xs : List Half) (t : State), held.HalvesOnly t ∧ t.mon = held.mon →
        held.HalvesOnly (xs.foldl (fun s h => s.halfGone l h.addr true) t) ∧
        (xs.foldl (fun s h => s.halfGone l h.addr true) t).mon = held.mon := fun xs => by
      induction xs with
      | nil => exact fun t h => h
      | cons x xs ih => exact fun t h => ih _ ⟨h.1.halfGone l x.addr true, h.2⟩
    exact step _ held ⟨.refl, rfl⟩
  have dropped := gone.resetLane_dropped l c
  have hold : (reset.lane l).hold = cause (s.lane l).hold :=
    (gone.resetLane_hold l c).trans ((congrArg LaneState.hold (ended.1.lane l)).trans holding)
  have drop : s.mon.Dropped reset.mon l := by
    refine ⟨dropped.halves.trans ?_, fun n hn => (dropped.read n hn).trans ?_⟩
    · rw [ended.2]; rfl
    · rw [ended.2]; rfl
  have declaring : ((declared.lane l).hold = (reset.lane l).hold) ∧ declared.mon.view true = reset.mon.view true :=
    ⟨((State.declare_only (g := ⟨[.hv, .lv, .aon, .mon, .red, .trc, .loopReq], [0x10, 0x11, 0x40, 0x50, 0x80], false⟩)
      State.Only.refl l (by decide)).1 .hold (by decide) l).symm, reset.declare_view l⟩
  split
  · exact ⟨hold, drop⟩
  · split
    · have events : declared.EvOnly (declared.monEv E.MON_BOTH_LANES_RESET) := State.pulseEv_only _ _ _ _ (by simp)
      exact ⟨(events.only.1 .hold (by decide) l).symm.trans (declaring.1.trans hold),
        (drop.later declaring.2).later (declared.monEv_view _)⟩
    · exact ⟨declaring.1.trans hold, drop.later declaring.2⟩

/-- What a reset of a lane leaves of the dual halves, and of the monitor's SAF and CLS values. -/
def State.DiscardsHalves (s u : State) (l : Lane) : Prop :=
  u.inReset l = true ∧ (∀ h ∈ u.mon.halves, h.lane ≠ l) ∧ (∀ h ∈ s.mon.halves, h.lane = l.other → h ∈ u.mon.halves) ∧
    ∀ n, n / 0x1000 = 0x90 ∨ n / 0x1000 = 0x91 → u.mon.regs.read n = s.mon.regs.read n

theorem State.discards {s u : State} {l : Lane} (h : s.mon.Dropped u.mon l) (reset : u.inReset l = true) :
    s.DiscardsHalves u l := by
  obtain ⟨halves, read⟩ := h
  have apart : l.other ≠ l := by cases l <;> decide
  refine ⟨reset, fun h mem => ?_, fun h mem other => ?_, fun n page => read n ?_⟩
  · rw [halves, List.mem_filter] at mem
    simpa using mem.2
  · rw [halves, List.mem_filter]
    exact ⟨mem, by simp [other, apart]⟩
  · have lanes : pageAt n = some .saf ∨ pageAt n = some .cls := by
      unfold pageAt
      rcases page with page | page <;> simp [page]
    rcases lanes with e | e <;> simp [monAddr, e, Page.monServed]

theorem State.inReset_of_cause {s : State} {l : Lane} {h : Hold} (e : (s.lane l).hold = h)
    (some : h.pin = true ∨ h.vs = true ∨ h.soft = true ∨ h.clk = true) : s.inReset l = true := by
  unfold State.inReset
  rw [e]
  rcases some with c | c | c | c <;> simp [c]

/-- A lane's supply rail is no longer valid. -/
def State.railLost (s : State) (l : Lane) : State :=
  match l with
  | .A => s.modAon (fun a => { a with vsaOk := false })
  | .B => s.modAon (fun a => { a with vsbOk := false })

/-- While the other rail is valid the loss of one resets its own lane alone (R57). -/
theorem vsFailed_run {s : State} {l : Lane} (other : s.rail l.other = true) : exec (.vsFailed l) s =
    done ((s.railLost l).enterReset l F.RST_CAUSE_VS (fun h => { h with vs := true })) := by
  have run : exec (.vsFailed l) s = execVsFailed l s := rfl
  rw [run]
  unfold execVsFailed
  cases l with
  | A =>
    have valid : s.aon.vsbOk = true := other
    simp [State.railLost, State.modAon, valid]
  | B =>
    have valid : s.aon.vsaOk = true := other
    simp [State.railLost, State.modAon, valid]

theorem laneReset_discards (s : State) (l : Lane) (c : Instr) (live : s.inReset l = false)
    (which : c = .nrstAssert l ∨ c = .softReset l ∨ c = .xtalFail l ∨ (c = .vsFailed l ∧ s.rail l.other = true)) :
    Completes (exec c s) fun u => s.DiscardsHalves u l := by
  rcases which with rfl | rfl | rfl | ⟨rfl, other⟩
  · obtain ⟨hold, dropped⟩ := s.enterReset_discards l F.RST_CAUSE_PIN (fun h => { h with pin := true })
    exact completes_done (State.discards dropped (State.inReset_of_cause hold (.inl rfl)))
  · obtain ⟨hold, dropped⟩ := s.enterReset_discards l F.RST_CAUSE_SOFT (fun h => { h with soft := true })
    have run : exec (.softReset l) s = done (s.enterReset l F.RST_CAUSE_SOFT (fun h => { h with soft := true })) :=
      congrArg done (if_neg (by simp [live]))
    rw [run]
    exact completes_done (State.discards dropped (State.inReset_of_cause hold (.inr (.inr (.inl rfl)))))
  · obtain ⟨hold, dropped⟩ := s.enterReset_discards l F.RST_CAUSE_CLK (fun h => { h with clk := true })
    have run : exec (.xtalFail l) s = done (((s.enterReset l F.RST_CAUSE_CLK (fun h => { h with clk := true })).pulseEv l.other
      E.CLK_XTAL_FAIL).monEv E.MON_CLK_LANE) := rfl
    rw [run]
    refine completes_done ?_
    generalize s.enterReset l F.RST_CAUSE_CLK (fun h => { h with clk := true }) = t at hold dropped
    have events : t.EvOnly ((t.pulseEv l.other E.CLK_XTAL_FAIL).monEv E.MON_CLK_LANE) :=
      State.EvOnly.trans (State.pulseEv_only _ _ _ _ (by simp)) (State.pulseEv_only _ _ _ _ (by simp))
    refine State.discards (dropped.later ?_) ((events.inReset_eq l).trans (State.inReset_of_cause hold (.inr (.inr (.inr rfl)))))
    rw [State.monEv_view, State.pulseEv_view]
  · obtain ⟨hold, halves, read⟩ := (s.railLost l).enterReset_discards l F.RST_CAUSE_VS (fun h => { h with vs := true })
    have same : (s.railLost l).mon = s.mon := by cases l <;> rfl
    rw [same] at halves read
    rw [vsFailed_run other]
    exact completes_done (State.discards ⟨halves, read⟩ (State.inReset_of_cause hold (.inr (.inl rfl))))

/-- Settles O53: what a reset leaves at the monitor, and halves that go on each lane's own path whether the link is up or not. -/
theorem laneResetDiscardsHalves : Obligations.LaneResetDiscardsHalves := by
  refine ⟨fun s l c live which => laneReset_discards s l c live which, fun s l w _ serves lock change path alive room => ?_⟩
  have pairs := State.pairs_mach serves lock change path alive room
  have value := machWrite_value (s.word l 0x90064) w
  refine ⟨fun no => ?_, fun partner same => ?_⟩
  · obtain ⟨answered, -, waits, -⟩ := pairs.waits no
    rw [value] at waits
    exact completes_done ⟨answered, waits⟩
  · obtain ⟨answered, -, words, -⟩ := State.mach_meets pairs partner same
    exact completes_done ⟨answered, words⟩

end Sys2Proof.Machine
end


section
/-! PROOF. O34: the monitor's STO and SS1, and the requests that it hears (R356, R357, R361). -/
namespace Sys2Proof.Machine

/-! ### STO and SS1 at the monitor -/

/-- A reaction is in effect at the monitor. -/
def MonState.Reacts (m : MonState) : Prop := m.alive = true ∧ (m.ss1 = true ∨ m.sto = true)

theorem MonState.Reacts.later {b : Bool} {m n : MonState} (h : m.Reacts) (e : n.view b = m.view b) : n.Reacts := by
  unfold MonState.Reacts
  rw [MonState.view_alive e, MonState.view_ss1 e, MonState.view_sto e]
  exact h

/-- An STO that comes is in effect with its cause, and ends an SS1. -/
theorem State.applySto_new {s : State} (alive : s.mon.alive = true) (off : s.mon.sto = false) (c : Nat) :
    (s.applySto c).mon.alive = true ∧ (s.applySto c).mon.sto = true ∧ (s.applySto c).mon.ss1 = false ∧ (s.applySto c).mon.safCause = c := by
  unfold State.applySto
  rw [if_neg (by simp [alive]), if_neg (by simp [off])]
  extract_lets applied sto ss1 held laneA laneB
  have told : ss1.mon.view true = applied.mon.view true := (State.monLevel_view ..).trans (State.monLevel_view ..)
  have hold : held.mon.view true = applied.mon.view true := (State.holdSet_view ..).trans ((State.holdSet_view ..).trans told)
  have a : laneA.mon.view true = held.mon.view true := State.ite_view rfl (State.laneSto_view ..)
  have b : laneB.mon.view true = laneA.mon.view true := State.ite_view rfl (State.laneSto_view ..)
  have view := (State.publish_view laneB).trans (b.trans (a.trans hold))
  exact ⟨(MonState.view_alive view).trans alive, MonState.view_sto view, MonState.view_ss1 view, MonState.view_safCause view⟩

theorem State.applySto_reacts {s : State} (alive : s.mon.alive = true) (c : Nat) : (s.applySto c).mon.Reacts := by
  cases on : s.mon.sto with
  | true =>
    unfold State.applySto
    rw [if_neg (by simp [alive]), if_pos on]
    have reacts : ∀ x, (s.modMon (fun m => { m with safCause := x })).mon.Reacts := fun x => ⟨alive, .inr on⟩
    exact (reacts _).later (State.publish_view _)
  | false =>
    obtain ⟨alive', sto, -⟩ := State.applySto_new alive on c
    exact ⟨alive', .inr sto⟩

theorem State.applySs1_reacts {s : State} (alive : s.mon.alive = true) (c : Nat) : (s.applySs1 c).mon.Reacts := by
  unfold State.applySs1
  by_cases on : s.mon.ss1 = true ∨ s.mon.sto = true
  · rw [if_pos (by simpa [alive] using on)]
    exact ⟨alive, on⟩
  · rw [if_neg (by simpa [alive] using on)]
    extract_lets applied ss1 laneA laneB
    have told : ss1.mon.view true = applied.mon.view true := State.monLevel_view ..
    have a : laneA.mon.view true = ss1.mon.view true := State.ite_view rfl (State.laneSs1_view ..)
    have b : laneB.mon.view true = laneA.mon.view true := State.ite_view rfl (State.laneSs1_view ..)
    exact MonState.Reacts.later (m := applied.mon) ⟨alive, .inl rfl⟩ ((State.publish_view _).trans (b.trans (a.trans told)))

/-! ### Requests heard (R357, R460) -/

/-- A lane that counts asks for SS1. -/
def State.Asks (s : State) : Prop := ∃ l, s.heard l = true ∧ (s.lane l).saf.reqSs1 = true

/-- A request that is heard, or a reaction that is in effect, ends in a reaction. -/
theorem State.hearRequests_reacts {s : State} (alive : s.mon.alive = true) (some : s.Asks ∨ s.mon.Reacts) : s.hearRequests.mon.Reacts := by
  unfold State.hearRequests
  rw [if_neg (by simp [alive])]
  extract_lets x y a b clear cleared
  have same : cleared.mon = s.mon := rfl
  clear_value cleared
  have live : ∀ c, (cleared.causeEv c).mon.alive = true := fun c => by
    rw [MonState.view_alive (State.causeEv_view (b := true) cleared c), same, alive]
  split
  · exact State.applySto_reacts (live _) _
  · split
    · exact State.applySto_reacts (live _) _
    · split
      · exact State.applySs1_reacts (live _) _
      · split
        · exact State.applySs1_reacts (live _) _
        · rename_i noA noB
          rcases some with ⟨l, heard, asks⟩ | on
          · cases l with
            | A => exact absurd (by simp [a, x, heard, asks]) noA
            | B => exact absurd (by simp [b, y, heard, asks]) noB
          · rw [same]; exact on

theorem State.settle_reacts {s : State} (alive : s.mon.alive = true) (asks : s.Asks) : s.settle.mon.Reacts := by
  have quiet : (!(s.lane .A).saf.reqSto && !(s.lane .A).saf.reqSs1 && (!(s.lane .B).saf.reqSto && !(s.lane .B).saf.reqSs1)) = false := by
    obtain ⟨l, -, asks⟩ := asks
    cases l <;> simp [asks]
  have first := State.hearRequests_reacts alive (.inl asks)
  have second := State.hearRequests_reacts first.1 (.inr first)
  unfold State.settle
  dsimp only
  rw [if_neg (by simpa using quiet)]
  exact State.hearRequests_reacts second.1 (.inr second)

theorem ss1Request_starts (s : State) (l : Lane) (takes : s.Takes l 0x90074) : Completes (exec (.ss1Request l) s) fun u =>
    (u.lane l).saf.reqSs1 = true ∧ u.answered l = .ok ∧
    (s.mon.alive = true → s.heard l = true → u.settle.mon.ss1 = true ∨ u.settle.mon.sto = true) := by
  obtain ⟨live, away⟩ := takes
  have run : exec (.ss1Request l) s = done (s.writing l 0x90074 (fun s => (s.askSs1 l 10).reply l .ok)) := rfl
  have asked : s.writing l 0x90074 (fun s => (s.askSs1 l 10).reply l .ok) = (s.askSs1 l 10).reply l .ok := by
    unfold State.writing
    rw [if_neg (by simp [live]), away]
  have request : (((s.askSs1 l 10).reply l .ok).lane l).saf.reqSs1 = true := by simp [State.askSs1, State.reply, State.modSaf]
  rw [run, asked]
  refine completes_done ⟨request, State.reply_answered .., fun alive heard => ?_⟩
  have counts : ((s.askSs1 l 10).reply l .ok).heard l = true := by
    have declared : ((s.askSs1 l 10).reply l .ok).declared l = s.declared l := by cases l <;> rfl
    have reset : ((s.askSs1 l 10).reply l .ok).inReset l = s.inReset l := by rw [State.reply_inReset]; exact State.inReset_modSaf ..
    unfold State.heard at heard ⊢
    rwa [declared, reset]
  exact (State.settle_reacts (s := (s.askSs1 l 10).reply l .ok) alive ⟨l, counts, request⟩).2

/-! ### The end of an SS1 (R361) -/

theorem State.ss1End_sto {s : State} (alive : s.mon.alive = true) (ss1 : s.mon.ss1 = true) (off : s.mon.sto = false) :
    s.ss1End.mon.sto = true ∧ s.ss1End.mon.ss1 = false ∧ s.ss1End.mon.safCause = s.mon.safCause := by
  unfold State.ss1End
  rw [if_pos (by simp [alive, ss1])]
  exact (State.applySto_new alive off s.mon.safCause).2

theorem ss1_ends (s : State) (l : Lane) (alive : s.mon.alive = true) (ss1 : s.mon.ss1 = true) (off : s.mon.sto = false) :
    (Completes (exec (.ss1Timeout .mon) s) fun u => u.mon.sto = true ∧ u.mon.ss1 = false ∧ u.mon.safCause = s.mon.safCause) ∧
    (s.counts l = true → (∀ k, s.counts k = true → (s.lane k).saf.rampDone = true) → Completes (exec (.ss1RampDone .mon) s) fun u =>
      u.mon.sto = true ∧ u.mon.ss1 = false ∧ u.mon.safCause = s.mon.safCause) := by
  have ends := State.ss1End_sto alive ss1 off
  refine ⟨completes_done ends, fun counts ramps => ?_⟩
  have one : (s.counts .A || s.counts .B) = true := by cases l <;> simp [counts]
  have all : ∀ k, (!s.counts k || (s.lane k).saf.rampDone) = true := fun k => by
    cases c : s.counts k with
    | false => rfl
    | true => simp [ramps k c]
  have run : exec (.ss1RampDone .mon) s = done s.ss1End := congrArg done (if_pos (by simp only [one, all, Bool.and_self]))
  rw [run]
  exact completes_done ends

end Sys2Proof.Machine
end


section
/-! PROOF. O34: a lane's own stop, and its command line (R357, R360, R361). -/
namespace Sys2Proof.Machine

/-! ### A set that enters SAFE (R212) -/

theorem State.foldl_word {α : Type} (xs : List α) {f : State → α → State} (h : ∀ s x k n, (f s x).word k n = s.word k n) (s : State)
    (k : Lane) (n : Nat) : (xs.foldl f s).word k n = s.word k n := by
  induction xs generalizing s with
  | nil => rfl
  | cons x t ih => exact (ih _).trans (h ..)

/-- The switches are no registers. -/
theorem State.gatesOff_word (s : State) (ns : List (Fin 34)) (k : Lane) (n : Nat) : (s.gatesOff ns).word k n = s.word k n := by
  unfold State.gatesOff
  refine State.foldl_word _ (fun _ _ _ _ => ?_) s k n
  rfl

theorem State.placeSet_word (s : State) (l k : Lane) (n : Nat) : (s.placeSet l).word k n = s.word k n := by
  have traction : ∀ (xs : List (Fin 34)) (t : State), (xs.foldl (fun s c => s.placeTraction c) t).word k n = t.word k n := fun xs t => by
    refine State.foldl_word _ (fun _ _ _ _ => ?_) t k n
    rfl
  exact (traction _ _).trans (traction _ _)

theorem State.loopOpen_word (s : State) (l k : Lane) (j : Nat) {n : Nat} (h : F.CE_LOOP_STAT_CLOSED.addr ≠ n) :
    (s.loopOpen l j).word k n = s.word k n := by
  unfold State.loopOpen
  rw [State.word_modLane _ _ _ _ _ rfl, State.word_putWord_ne _ _ _ _ _ _ h]

theorem State.setRamp_word (s : State) (l k : Lane) (v : Nat) {n : Nat} (h : F.TRC_SM_STAT_RAMP.addr ≠ n) :
    (s.setRamp l v).word k n = s.word k n := by
  unfold State.setRamp State.modTrc
  rw [State.word_put_ne _ _ _ _ _ _ h, State.word_modLane _ _ _ _ _ rfl]

theorem State.smGoto_sm (s : State) (l : Lane) (st : Nat) (h : st < 16) : (s.smGoto l st).sm l = st := by
  unfold State.smGoto State.sm
  rw [State.putFlag, State.fld_put_apart _ _ _ _ _ _ (by decide) (by decide), State.fld_put_same _ _ _ _ (by decide)]
  exact Nat.mod_eq_of_lt h

/-- A set in any state but OFF is in SAFE. -/
theorem State.setFault_sm {s : State} {l : Lane} (live : s.inReset l = false) (c : Nat) :
    (s.setFault l c).sm l = if s.sm l = 0 then 0 else 9 := by
  unfold State.setFault State.safeEntry
  by_cases out : s.sm l = 0 ∨ s.sm l = 9
  · rw [if_pos (by simpa [live] using out)]
    rcases out with e | e <;> simp [e]
  · rw [if_neg (by simpa [live] using out), if_neg fun e => out (.inl e)]
    extract_lets went caused ramp loops placed
    have went9 : went.sm l = 9 := s.smGoto_sm l 9 (by decide)
    clear_value went
    have ramped : ramp.sm l = 9 := by
      simp only [ramp, caused, State.setRamp, State.modTrc, State.sm]
      rw [State.fld_put_apart _ _ _ _ _ _ (by decide) (by decide), State.fld, State.word_modLane _ _ _ _ _ rfl]
      exact (State.fld_put_apart _ _ _ _ _ _ (by decide) (by decide)).trans went9
    clear_value ramp
    have opened : loops.word l F.TRC_SM_STAT_STATE.addr = ramp.word l F.TRC_SM_STAT_STATE.addr :=
      (State.loopOpen_word _ _ _ _ (by decide)).trans (State.loopOpen_word _ _ _ _ (by decide))
    have still : placed.word l F.TRC_SM_STAT_STATE.addr = ramp.word l F.TRC_SM_STAT_STATE.addr :=
      (State.placeSet_word ..).trans ((State.gatesOff_word ..).trans opened)
    have event := (placed.pulseEv_only l E.TRC_SAFE_ENTRY false (by simp)).word l F.TRC_SM_STAT_STATE.addr (by decide)
    unfold State.sm State.fld at ramped ⊢
    rw [event, still, ramped]

/-- What a page's sources report as present stays. -/
theorem State.setFault_raw (s : State) (l k : Lane) (c : Nat) {n : Nat} (h : n % 0x1000 = 0x010) : (s.setFault l c).word k n = s.word k n := by
  have ne : ∀ f : Fld, f.addr % 0x1000 ≠ 0x010 → f.addr ≠ n := fun f hf e => hf (e ▸ h)
  unfold State.setFault State.safeEntry
  split
  · rfl
  · extract_lets went caused ramp loops placed
    have gone : went.word k n = s.word k n := by
      simp only [went, State.smGoto, State.putFlag]
      rw [State.word_put_ne _ _ _ _ _ _ (ne _ (by decide)), State.word_put_ne _ _ _ _ _ _ (ne _ (by decide)),
        State.word_put_ne _ _ _ _ _ _ (ne _ (by decide))]
    have ramped : ramp.word k n = went.word k n :=
      (State.setRamp_word _ _ _ _ (ne _ (by decide))).trans (State.word_put_ne _ _ _ _ _ _ (ne _ (by decide)))
    have opened : loops.word k n = ramp.word k n :=
      (State.loopOpen_word _ _ _ _ (ne _ (by decide))).trans (State.loopOpen_word _ _ _ _ (ne _ (by decide)))
    have still : placed.word k n = loops.word k n := (State.placeSet_word ..).trans (State.gatesOff_word ..)
    have event := (placed.pulseEv_pends l E.TRC_SAFE_ENTRY false (by simp)).raw k n h
    exact event.trans (still.trans (opened.trans (ramped.trans gone)))

theorem State.setFault_present (s : State) (l k : Lane) (c : Nat) {e : Ev} (he : State.EvOnly.Proper e) :
    (s.setFault l c).present k e = s.present k e := by
  unfold State.present
  rw [s.setFault_raw l k c (by have := he.1; omega)]

/-! ### A lane's own stop (R360, R361) -/

theorem State.ownSto_stops {s : State} {l : Lane} (live : s.inReset l = false) (none : (s.lane l).red.ownStop = none) (c : Nat) :
    ((s.ownSto l c).lane l).red.ownStop = some c ∧ (s.ownSto l c).sm l = (if s.sm l = 0 then 0 else 9) ∧
      (s.ownSto l c).present l E.SAF_STO = true := by
  unfold State.ownSto
  rw [if_neg (by simp [live, none])]
  extract_lets latched ss1
  have reset : ss1.inReset l = false := by
    have events : (latched.put l F.SAF_STAT_CAUSE c).EvOnly ss1 := State.levelEv_only _ _ _ _ (by simp)
    rw [events.inReset_eq, State.inReset_put]
    exact (State.inReset_modRed ..).trans live
  have stop : (ss1.lane l).red.ownStop = some c := by
    have events : (latched.put l F.SAF_STAT_CAUSE c).EvOnly ss1 := State.levelEv_only _ _ _ _ (by simp)
    rw [← events.only.1 .red (by decide) l, State.put_lane_red]
    simp [latched, State.modRed]
  have sm : ss1.sm l = s.sm l := by
    have events : (latched.put l F.SAF_STAT_CAUSE c).EvOnly ss1 := State.levelEv_only _ _ _ _ (by simp)
    unfold State.sm State.fld
    rw [events.word l _ (by decide), State.word_put_ne _ _ _ _ _ _ (by decide)]
    exact congrArg (fun w => bits w _ _) (State.word_modLane _ _ _ _ _ rfl)
  clear_value ss1
  have events : ss1.EvOnly (ss1.levelEv l E.SAF_STO true) := State.levelEv_only _ _ _ _ (by simp)
  have live' := (events.inReset_eq l).trans reset
  have present := State.levelEv_present ss1 l E.SAF_STO true (by simp) (by rw [State.dead, if_neg (by decide), reset])
  refine ⟨?_, ?_, ?_⟩
  · rw [← (State.setFault_only (g := ⟨[.hv, .trc, .loopReq], [0x10, 0x11], false⟩) State.Only.refl l 4 (by decide)).1 .red (by decide) l,
      ← events.only.1 .red (by decide) l, stop]
  · rw [State.setFault_sm live']
    have same : (ss1.levelEv l E.SAF_STO true).sm l = ss1.sm l := by
      unfold State.sm State.fld
      rw [events.word l _ (by decide)]
    rw [same, sm]
  · rw [State.setFault_present _ _ _ _ (by simp), present]

theorem ownSs1_ends (s : State) (l : Lane) (live : s.inReset l = false) (own : (s.lane l).red.ownSs1 = true)
    (none : (s.lane l).red.ownStop = none) :
    (Completes (exec (.ss1Timeout (.lane l)) s) fun u =>
      (u.lane l).red.ownStop = some (s.lane l).red.ownCause ∧ u.sm l = (if s.sm l = 0 then 0 else 9) ∧ u.present l E.SAF_STO = true) ∧
    ((s.lane l).saf.rampDone = true → Completes (exec (.ss1RampDone (.lane l)) s) fun u =>
      (u.lane l).red.ownStop = some (s.lane l).red.ownCause ∧ u.sm l = (if s.sm l = 0 then 0 else 9)) := by
  obtain ⟨stop, sm, present⟩ := State.ownSto_stops live none (s.lane l).red.ownCause
  have timeout : exec (.ss1Timeout (.lane l)) s = done (s.ownSto l (s.lane l).red.ownCause) := congrArg done (if_pos own)
  refine ⟨?_, fun ramp => ?_⟩
  · rw [timeout]
    exact completes_done ⟨stop, sm, present⟩
  · have ended : exec (.ss1RampDone (.lane l)) s = done (s.ownSto l (s.lane l).red.ownCause) :=
      congrArg done (if_pos (by rw [own, ramp]; rfl))
    rw [ended]
    exact completes_done ⟨stop, sm⟩

end Sys2Proof.Machine
end


section
/-! PROOF. O34: the command line of a lane (R357, R385). -/
namespace Sys2Proof.Machine

/-! ### What a stop leaves of a lane's command line -/

theorem State.Only.cmdLost_eq {g : Foot} {a s : State} (h : a.Only g s) (saf : .saf ∉ g.parts) (l : Lane) :
    (s.lane l).saf.cmdLost = (a.lane l).saf.cmdLost := by
  have e : (a.lane l).still.saf = (s.lane l).still.saf := h.1 .saf saf l
  have lost := congrArg SafLines.cmdLost e
  exact lost.symm

theorem State.Only.sm_eq {g : Foot} {a s : State} (h : a.Only g s) (trc : g.has F.TRC_SM_STAT_STATE.addr = false) (l : Lane) :
    s.sm l = a.sm l := by
  unfold State.sm State.fld
  rw [h.2 l _ trc]

/-- The lane is out of reset and receives what the monitor sends. -/
def State.Receives (s : State) (l : Lane) : Prop := s.inReset l = false ∧ (s.lane l).saf.cmdLost = false

theorem State.EvOnly.receives {a s : State} {l : Lane} (h : a.EvOnly s) (r : a.Receives l) : s.Receives l :=
  ⟨(h.inReset_eq l).trans r.1, (h.only.cmdLost_eq (by decide) l).trans r.2⟩

theorem State.EvOnly.sm_eq {a s : State} (h : a.EvOnly s) (l : Lane) : s.sm l = a.sm l := h.only.sm_eq (by decide) l

theorem State.Only.receives {g : Foot} {a s : State} {l : Lane} (h : a.Only g s) (hold : .hold ∉ g.parts) (aon : .aon ∉ g.parts)
    (saf : .saf ∉ g.parts) (r : a.Receives l) : s.Receives l :=
  ⟨(h.inReset_eq hold aon l).trans r.1, (h.cmdLost_eq saf l).trans r.2⟩

theorem State.receives_modSaf {s : State} {l : Lane} (r : s.Receives l) (f : SafLines → SafLines)
    (hf : ∀ x, (f x).cmdLost = x.cmdLost) : (s.modSaf l f).Receives l := by
  refine ⟨(State.inReset_modSaf ..).trans r.1, ?_⟩
  unfold State.modSaf
  rw [State.lane_modLane_same]
  exact (hf _).trans r.2

theorem State.sm_modSaf (s : State) (l : Lane) (f : SafLines → SafLines) : (s.modSaf l f).sm l = s.sm l :=
  congrArg (fun w => bits w F.TRC_SM_STAT_STATE.lo F.TRC_SM_STAT_STATE.w) (State.word_modLane _ _ _ _ _ rfl)

/-- STO in a lane: its set is in SAFE, and its command line is as it was. -/
theorem State.laneSto_receives {s : State} {l : Lane} (r : s.Receives l) :
    (s.laneSto l).Receives l ∧ (s.laneSto l).sm l = if s.sm l = 0 then 0 else 9 := by
  unfold State.laneSto
  rw [if_neg (by simp [r.1])]
  extract_lets sto ss1 safe converter charger acts
  have events : s.EvOnly ss1 := State.EvOnly.trans (State.levelEv_only _ _ _ _ (by simp)) (State.levelEv_only _ _ _ _ (by simp))
  have r1 := events.receives r
  have sm1 := events.sm_eq l
  clear_value ss1
  have r2 : safe.Receives l :=
    ⟨(State.inReset_setFault ..).trans r1.1, (State.Only.cmdLost_eq (State.setFault_only (g := ⟨[.hv, .trc, .loopReq], [0x10, 0x11], false⟩)
      State.Only.refl l 4 (by decide)) (by decide) l).trans r1.2⟩
  have sm2 : safe.sm l = if s.sm l = 0 then 0 else 9 := (State.setFault_sm r1.1 4).trans (by rw [sm1])
  clear_value safe
  have stopped : safe.Only ⟨[.hv, .dcl, .loopReq], [0x10, 0x30], false⟩ converter := State.dclStop_only State.Only.refl l (by decide)
  have r3 := stopped.receives (by decide) (by decide) (by decide) r2
  have sm3 := (stopped.sm_eq (by decide) l).trans sm2
  clear_value converter
  have r4 : charger.Receives l ∧ charger.sm l = converter.sm l := by
    simp only [charger]
    split
    · have only := State.chgFault_only (g := ⟨[.hv, .aon, .mon, .chg, .loopReq], [0x10, 0x30, 0x31, 0x32, 0x33, 0x50], false⟩)
        (State.Only.refl (a := converter)) l 15 (by decide)
      exact ⟨⟨(State.inReset_chgFault ..).trans r3.1, (only.cmdLost_eq (by decide) l).trans r3.2⟩, only.sm_eq (by decide) l⟩
    · exact ⟨r3, rfl⟩
  clear_value charger
  have idle : charger.Only ⟨[.lv, .loopReq], [0x10, 0x34], false⟩ acts :=
    State.actIdle_only (State.actIdle_only State.Only.refl l 0 (by decide)) l 1 (by decide)
  refine ⟨State.receives_modSaf (idle.receives (by decide) (by decide) (by decide) r4.1) _ fun _ => rfl, ?_⟩
  rw [State.sm_modSaf, idle.sm_eq (by decide) l, r4.2, sm3]

/-- SS1 in a lane: its command line is as it was, and a set that is OFF or in SAFE stays so. -/
theorem State.laneSs1_receives {s : State} {l : Lane} (r : s.Receives l) :
    (s.laneSs1 l).Receives l ∧ (s.sm l = 0 ∨ s.sm l = 9 → (s.laneSs1 l).sm l = s.sm l) := by
  unfold State.laneSs1
  rw [if_neg (by simp [r.1])]
  extract_lets ss1 st
  have events : s.EvOnly ss1 := State.levelEv_only _ _ _ _ (by simp)
  have r1 := events.receives r
  have sm1 : st = s.sm l := events.sm_eq l
  clear_value st
  have stays : s.sm l = 0 ∨ s.sm l = 9 → (ss1.modSaf l (fun x => { x with rampDone := st != 7 })).sm l = s.sm l := fun _ =>
    (State.sm_modSaf ..).trans (events.sm_eq l)
  split
  · rename_i runs
    refine ⟨State.receives_modSaf ?_ _ fun _ => rfl, fun off => ?_⟩
    · have ramp : ss1.Only ⟨[.trc], [0x11], false⟩ ((ss1.smGoto l 7).modTrc l (fun t => { t with ss1Ramp := true })) :=
        State.Only.trc (State.smGoto_only State.Only.refl l 7 (by decide)) l _ (by decide)
      exact ramp.receives (by decide) (by decide) (by decide) r1
    · rcases off with e | e <;> simp [sm1, e] at runs
  · split
    · rename_i stops
      refine ⟨State.receives_modSaf ?_ _ fun _ => rfl, fun off => ?_⟩
      · exact ⟨(State.inReset_setFault ..).trans r1.1, (State.Only.cmdLost_eq (State.setFault_only
          (g := ⟨[.hv, .trc, .loopReq], [0x10, 0x11], false⟩) State.Only.refl l 4 (by decide)) (by decide) l).trans r1.2⟩
      · rcases off with e | e <;> simp [sm1, e] at stops
    · exact ⟨State.receives_modSaf r1 _ fun _ => rfl, stays⟩

/-! ### What the monitor sends -/

theorem State.safState_put (s : State) (l : Lane) (f : Fld) (v : Nat) (h : f.lo + f.w ≤ 29) :
    (s.put l f v).fld l F.SAF_STAT_STATE = s.fld l F.SAF_STAT_STATE :=
  State.fld_put_apart _ _ _ _ _ _ (by omega) (.inr h)

/-- A lane that receives shows the monitor's state in SAF_STAT. -/
theorem State.publishTo_state {s : State} {l : Lane} (r : s.Receives l) (alive : s.mon.alive = true) (h : s.mon.safState < 8) :
    (s.publishTo l).fld l F.SAF_STAT_STATE = s.mon.safState := by
  unfold State.publishTo
  rw [if_neg (by simp [r.1, r.2, alive])]
  extract_lets v state cause pins disc fault limits lock slsOn slsSel pos neg slp
  have shown : state.fld l F.SAF_STAT_STATE = s.mon.safState :=
    (State.fld_put_same _ _ _ _ (by decide)).trans (Nat.mod_eq_of_lt h)
  have flags : disc.fld l F.SAF_STAT_STATE = state.fld l F.SAF_STAT_STATE :=
    (State.safState_put _ _ _ _ (by decide)).trans <| (State.safState_put _ _ _ _ (by decide)).trans <|
    (State.safState_put _ _ _ _ (by decide)).trans <| (State.safState_put _ _ _ _ (by decide)).trans <|
    State.safState_put _ _ _ _ (by decide)
  have words : limits.fld l F.SAF_STAT_STATE = fault.fld l F.SAF_STAT_STATE := by
    unfold State.fld
    simp only [limits]
    rw [State.word_putWord_ne _ _ _ _ _ _ (by decide), State.word_putWord_ne _ _ _ _ _ _ (by decide)]
  have faults : fault.fld l F.SAF_STAT_STATE = disc.fld l F.SAF_STAT_STATE := State.safState_put _ _ _ _ (by decide)
  have rest : slp.fld l F.SAF_STAT_STATE = limits.fld l F.SAF_STAT_STATE :=
    (State.safState_put _ _ _ _ (by decide)).trans <| (State.safState_put _ _ _ _ (by decide)).trans <|
    (State.safState_put _ _ _ _ (by decide)).trans <| (State.safState_put _ _ _ _ (by decide)).trans <|
    (State.safState_put _ _ _ _ (by decide)).trans <| State.safState_put _ _ _ _ (by decide)
  exact (State.safState_put _ _ _ _ (by decide)).trans (rest.trans (words.trans (faults.trans (flags.trans shown))))

theorem commandLine (s : State) (l : Lane) (live : s.inReset l = false) :
    (Completes (exec (.commandLineLost l false) s) fun u => (u.lane l).saf.cmdLost = true ∧
      u.fld l F.SAF_STAT_STATE = s.fld l F.SAF_STAT_STATE) ∧
    ((s.lane l).saf.cmdLost = true → s.mon.alive = true → s.mon.safState < 4 → Completes (exec (.commandLineLost l true) s) fun u =>
      (u.lane l).saf.cmdLost = false ∧ u.fld l F.SAF_STAT_STATE = s.mon.safState ∧
      (s.mon.sto = true → u.sm l = (if s.sm l = 0 then 0 else 9))) := by
  refine ⟨?_, fun lost alive small => ?_⟩
  · have run : exec (.commandLineLost l false) s = done (s.modSaf l (fun x => { x with cmdLost := true })) :=
      (if_neg (by simp [live])).trans (if_pos rfl)
    rw [run]
    refine completes_done ⟨by simp [State.modSaf], ?_⟩
    exact congrArg (fun w => bits w F.SAF_STAT_STATE.lo F.SAF_STAT_STATE.w) (State.word_modLane _ _ _ _ _ rfl)
  · have run : exec (.commandLineLost l true) s = execCommandLineLost l true s := rfl
    rw [run]
    unfold execCommandLineLost
    rw [if_neg (by simp [live]), if_neg (by simp), if_neg (by simp [lost, alive])]
    extract_lets back sto ss1
    refine completes_done ?_
    have r : back.Receives l := ⟨(State.inReset_modSaf ..).trans live, by simp [back, State.modSaf]⟩
    have mon : back.mon = s.mon := rfl
    have sm : back.sm l = s.sm l := State.sm_modSaf ..
    clear_value back
    have step1 : sto.Receives l ∧ sto.mon.view false = back.mon.view false ∧ (s.mon.sto = true → sto.sm l = if s.sm l = 0 then 0 else 9) := by
      simp only [sto]
      split
      · exact ⟨(State.laneSto_receives r).1, State.laneSto_view .., fun _ => (State.laneSto_receives r).2.trans (by rw [sm])⟩
      · rename_i off
        rw [mon] at off
        exact ⟨State.EvOnly.receives (State.levelEv_only _ _ _ _ (by simp)) r, State.levelEv_view .., fun on => absurd on off⟩
    obtain ⟨r1, view1, sm1⟩ := step1
    clear_value sto
    have step2 : ss1.Receives l ∧ ss1.mon.view false = sto.mon.view false ∧ (s.mon.sto = true → ss1.sm l = sto.sm l) := by
      simp only [ss1]
      split
      · refine ⟨(State.laneSs1_receives r1).1, State.laneSs1_view .., fun on => (State.laneSs1_receives r1).2 ?_⟩
        rw [sm1 on]
        split
        · exact .inl rfl
        · exact .inr rfl
      · have events : sto.EvOnly (sto.levelEv l E.SAF_SS1 false) := State.levelEv_only _ _ _ _ (by simp)
        exact ⟨events.receives r1, State.levelEv_view .., fun _ => events.sm_eq l⟩
    obtain ⟨r2, view2, sm2⟩ := step2
    clear_value ss1
    have view := view2.trans (view1.trans (congrArg _ mon))
    have only : ss1.Only ⟨[], [0x50], false⟩ (ss1.publishTo l) := State.publishTo_only State.Only.refl l (by decide)
    refine ⟨(only.cmdLost_eq (by decide) l).trans r2.2, ?_, fun on => ?_⟩
    · rw [State.publishTo_state r2 ((MonState.view_alive view).trans alive) (by rw [MonState.view_safState view]; omega),
        MonState.view_safState view]
    · rw [only.sm_eq (by decide) l, sm2 on, sm1 on]

end Sys2Proof.Machine
end


section
/-! PROOF. O34: the acknowledgement of a latched reaction (R97, R372). -/
namespace Sys2Proof.Machine

/-! ### What the halves leave of the causes -/

section
variable {s t : State} (h : s.HalvesOnly t)
include h

theorem State.HalvesOnly.heard (k : Lane) : t.heard k = s.heard k := by
  have declared : t.declared k = s.declared k := by
    cases k <;> simp only [State.declared, State.mflag, State.flag_eq, State.fld, h.word]
  unfold State.heard
  rw [h.inReset, declared]

theorem State.HalvesOnly.safCfg (f : Fld) : t.safCfg f = s.safCfg f := by
  unfold State.safCfg
  rw [h.monRead]

theorem State.HalvesOnly.clsLane (k : Lane) : t.clsLane k = s.clsLane k := by
  have counts : ∀ n, t.clsCounts k n = s.clsCounts k n := fun n => by
    simp only [State.clsCounts, State.flag_eq, State.fld, h.word, h.safCfg] <;> rfl
  have cls : (t.lane k).cls = (s.lane k).cls := by rw [h.lane k]
  have ss1 : t.mon.ss1 = s.mon.ss1 := by rw [h.mon]
  have words : ∀ n, t.clsWord k n = s.clsWord k n := fun n => by
    simp only [State.clsWord, cls, ss1, h.safCfg]
  have limits : t.slsLim = s.slsLim := by
    funext n
    simp only [State.slsLim, h.safCfg]
  unfold State.clsLane
  simp only [counts, words, limits]

theorem State.HalvesOnly.causePresent : t.causePresent = s.causePresent := by
  have all : t.clsAll = s.clsAll := by
    simp only [State.clsAll, h.heard, h.clsLane]
  have causes : t.mon.causes = s.mon.causes := by rw [h.mon]
  have disc : t.mon.disc = s.mon.disc := by rw [h.mon]
  have clear : t.mon.discClear = s.mon.discClear := by rw [h.mon]
  unfold State.causePresent
  rw [all, h.aon, causes, disc, clear]

theorem State.HalvesOnly.latched : t.latched = s.latched := by
  have ss1 : t.mon.ss1 = s.mon.ss1 := by rw [h.mon]
  have sto : t.mon.sto = s.mon.sto := by rw [h.mon]
  have holdTq : t.mon.holdTq = s.mon.holdTq := by rw [h.mon]
  unfold State.latched
  rw [ss1, sto, holdTq]

end

/-! ### The release -/

/-- The reaction is released, and the halves that wait are kept. -/
theorem State.restart_releases (s : State) : s.restart.mon.sto = false ∧ s.restart.mon.holdTq = ⟨false, false⟩ ∧
    s.restart.mon.halves = s.mon.halves := by
  unfold State.restart
  extract_lets released levels lanes
  have told : levels.mon.view true = released.mon.view true :=
    (State.monLevel_view ..).trans ((State.monLevel_view ..).trans (State.monLevel_view ..))
  have shown : lanes.mon.view true = levels.mon.view true := by
    refine State.both_view (fun k t => State.ite_view ?_ ?_) levels
    · rfl
    · exact (State.pulseEv_view ..).trans ((State.levelEv_view ..).trans (State.levelEv_view ..))
  have view : ((((lanes.placeSet .A).placeSet .B).monEv E.MON_RESTART).publish).mon.view true = released.mon.view true :=
    (State.publish_view _).trans ((State.monEv_view ..).trans ((State.placeSet_view ..).trans ((State.placeSet_view ..).trans
      (shown.trans told))))
  exact ⟨MonState.view_sto view, MonState.view_holdTq view, (MonState.view_halves view).trans rfl⟩

theorem State.acknowledge_releases {s : State} (alive : s.mon.alive = true) (latched : s.latched = true) (clear : s.causePresent = false) :
    s.acknowledge.mon.sto = false ∧ s.acknowledge.mon.holdTq = ⟨false, false⟩ ∧ s.acknowledge.mon.halves = s.mon.halves := by
  unfold State.acknowledge
  rw [if_pos (by simp [alive, latched, clear])]
  exact s.restart_releases

/-- An acknowledgement holds up no access. -/
theorem State.acknowledge_idle (s : State) (k : Lane) :
    s.acknowledge.inReset k = s.inReset k ∧ (s.acknowledge.lane k).waiting = (s.lane k).waiting := by
  have only := State.acknowledge_only (g := ⟨[.hv, .mon], [0x50], false⟩) (State.Only.refl (a := s)) (by decide)
  exact ⟨only.inReset_eq (by decide) (by decide) k, (only.1 .waiting (by decide) k).symm⟩

/-! ### The two halves of SAF_CTRL.ACK -/

/-- A word written over itself, in the monitor and in the page of every lane out of reset. -/
def State.rewritten (s : State) (n : Nat) : State :=
  (s.modMon (fun m => { m with regs := m.regs.write n (s.mon.regs.read n) })).both
    (fun l t => if t.inReset l then t else t.putWord l n (t.word l n))

theorem State.HalvesOnly.putWord_self {s t : State} (h : s.HalvesOnly t) (l : Lane) {n : Nat} (mon : monAddr n = false) :
    s.HalvesOnly (t.putWord l n (t.word l n)) where
  aon := by rw [State.putWord, if_neg (by simp [mon])]; exact h.aon
  mon := by rw [State.putWord_mon_of_lane _ _ _ mon]; exact h.mon
  lane := fun k => by
    rw [State.putWord, if_neg (by simp [mon]), State.lane_modLane]
    split
    · rw [h.lane k]
    · exact h.lane k
  monRead := fun a => by rw [State.putWord_mon_of_lane _ _ _ mon]; exact h.monRead a
  laneRead := fun k a => by
    rw [State.putWord, if_neg (by simp [mon]), State.lane_modLane]
    split
    · rename_i e
      subst e
      rw [← h.laneRead k a, RegFile.read_write]
      split
      · rename_i e
        rw [← e, State.word, if_neg (by simp [mon])]
      · rfl
    · exact h.laneRead k a

theorem State.HalvesOnly.rewritten {s t : State} (h : s.HalvesOnly t) {n : Nat} (mon : monAddr n = false) : s.HalvesOnly (t.rewritten n) := by
  have own : s.HalvesOnly (t.modMon (fun m => { m with regs := m.regs.write n (t.mon.regs.read n) })) :=
    { aon := h.aon
      mon := by rw [State.modMon_mon, h.mon]
      lane := h.lane
      monRead := fun a => by
        rw [State.modMon_mon, ← h.monRead a]
        refine (RegFile.read_write ..).trans ?_
        split
        · rename_i e; rw [e]
        · rfl
      laneRead := h.laneRead }
  have lane : ∀ (l : Lane) (u : State), s.HalvesOnly u → s.HalvesOnly (if u.inReset l then u else u.putWord l n (u.word l n)) :=
    fun l u hu => by
      split
      · exact hu
      · exact hu.putWord_self l mon
  exact lane _ _ (lane _ _ own)

theorem State.rewritten_halves (s : State) {n : Nat} (mon : monAddr n = false) : (s.rewritten n).mon.halves = s.mon.halves := by
  have lane : ∀ (l : Lane) (u : State), (if u.inReset l then u else u.putWord l n (u.word l n)).mon = u.mon := fun l u => by
    split
    · rfl
    · exact State.putWord_mon_of_lane _ _ _ mon
  unfold State.rewritten State.both
  rw [lane, lane]
  rfl

theorem State.dualApply_ack (s : State) : s.dualApply .saf 0x074 1 (1 &&& 7) 1 = (s.rewritten 0x90074).acknowledge := by
  have mix : ∀ w : Word, (w &&& ~~~((1 : Word) &&& ~~~(1 &&& 7))) ||| (1 &&& 1 &&& ~~~(1 &&& 7)) = w := fun w => by
    have none : (1 : Word) &&& ~~~(1 &&& 7) = 0#32 := by decide
    have bits : (1 : Word) &&& 1 &&& ~~~(1 &&& 7) = 0#32 := by decide
    rw [none, bits]
    simp [Word.and_full]
  have acts : bit ((1 : Word) &&& (1 &&& 7)) 0 = true := by decide
  unfold State.dualApply State.rewritten
  simp only [Page.base, Nat.reduceAdd, Nat.reduceBEq, Bool.false_eq_true, if_false, mix, Page.monServed, State.applied, if_true, acts, onBit']

section
variable {s : State} {l : Lane} {q : Option Req}

theorem State.ack_value (old : Word) : (commandWrite .saf 0x074 ackFields old 1 1 7).value = 1 := commandWrite_value (by decide) (by decide)

theorem State.pairs_ack (serves : s.Serves l 0x90074 q) (path : s.monOk l = true) (alive : s.mon.alive = true)
    (other : s.counts l.other = true) (room : (s.mon.halves.filter (fun h => h.lane == l)).length < 16) :
    s.Pairs l q 0x90074 1 0x1 (commandWrite .saf 0x074 ackFields (s.word l 0x90074) 1 1 7) where
  serves := serves
  axle := by decide
  mirror := by decide
  addr := rfl
  run := by rw [State.writeWord_ack, if_pos path]
  alive := alive
  alone := by simp [State.ackAlone, other]
  room := room

/-- While one lane alone counts, its half needs no partner. -/
theorem safAck_alone (serves : s.Serves l 0x90074 q) (path : s.monOk l = true) (alive : s.mon.alive = true) (counts : s.counts l = true)
    (other : s.counts l.other = false) (latched : s.latched = true) (clear : s.causePresent = false) :
    Completes (exec (.safAck l q) s) fun u => u.mon.sto = false ∧ u.mon.holdTq = ⟨false, false⟩ ∧ u.answered l = .ok := by
  have run : s.writeWord l { q := q } 0x90074 1 0x1 = .ok (s.acknowledge, .ok) := by
    rw [State.writeWord_ack, if_pos path]
    exact State.passHalf_alone (by simp [State.ackAlone, commandWrite, alive, counts, other])
  obtain ⟨answered, mon, -⟩ := serves.half_taken (by decide) (by decide) run ((s.acknowledge_idle l).1.trans serves.1.1)
    (fun k => (s.acknowledge_idle k).2.trans (serves.2.1 k)) (by decide)
  obtain ⟨sto, holdTq, -⟩ := State.acknowledge_releases alive latched clear
  refine completes_done ⟨?_, ?_, answered⟩
  · rw [mon, sto]
  · rw [mon, holdTq]

/-- Else the first half waits, and the second one completes the acknowledgement. -/
theorem safAck_halves (serves : s.Serves l 0x90074 q) (path : s.monOk l = true) (alive : s.mon.alive = true)
    (other : s.counts l.other = true) (room : (s.mon.halves.filter (fun h => h.lane == l)).length < 16) :
    ((∀ h ∈ s.mon.halves, h.lane = l.other → h.addr ≠ 0x90074) → Completes (exec (.safAck l q) s) fun u =>
      u.mon.sto = s.mon.sto ∧ { lane := l, addr := 0x90074, val := 1 } ∈ u.mon.halves ∧ u.answered l = .dualPend) ∧
    ((∀ h ∈ s.mon.halves, h.lane = l.other → h.addr = 0x90074 → h.val = 1) →
      (∃ h ∈ s.mon.halves, h.lane = l.other ∧ h.addr = 0x90074) → s.latched = true → s.causePresent = false →
      Completes (exec (.safAck l q) s) fun u => u.mon.sto = false ∧ u.mon.holdTq = ⟨false, false⟩ ∧
        ∀ h ∈ u.mon.halves, h.addr ≠ 0x90074) := by
  have pairs := State.pairs_ack serves path alive other room
  have value := State.ack_value (s.word l 0x90074)
  refine ⟨fun no => ?_, fun same partner latched clear => ?_⟩
  · obtain ⟨answered, mon, waits, -⟩ := pairs.waits no
    rw [value] at waits
    exact completes_done ⟨by rw [mon], waits, answered⟩
  · have held := (State.HalvesOnly.refl (s := s)).passed l q 0x90074 1 |>.met l 0x90074 false |>.rewritten (n := 0x90074) (by decide)
    have ended := (s.passed l q 0x90074 1).met_ended l 0x90074 false
    have kept := ((s.passed l q 0x90074 1).met l 0x90074 false).rewritten_halves (n := 0x90074) (by decide)
    have applied := ((s.passed l q 0x90074 1).met l 0x90074 false).dualApply_ack
    rw [← kept] at ended
    generalize ((s.passed l q 0x90074 1).met l 0x90074 false).rewritten 0x90074 = t at held ended applied
    obtain ⟨-, mon, -⟩ := pairs.meets partner (by rw [value]; exact same) (by rw [value]; exact applied)
      ((t.acknowledge_idle l).1.trans ((held.inReset l).trans serves.1.1))
      (fun k => (t.acknowledge_idle k).2.trans ((held.waiting k).trans (serves.2.1 k)))
    obtain ⟨sto, holdTq, halves⟩ := State.acknowledge_releases (held.alive.trans alive) (held.latched.trans latched)
      (held.causePresent.trans clear)
    refine completes_done ⟨?_, ?_, ?_⟩
    · rw [mon, sto]
    · rw [mon, holdTq]
    · rw [mon, halves]
      exact ended

end

/-- Settles O34: the monitor's SS1, a lane's own, the command line and the acknowledgement. -/
theorem safeStopOneAndAcknowledgement : Obligations.SafeStopOneAndAcknowledgement :=
  ⟨fun s l => ⟨ss1Request_starts s l, ss1_ends s l, ownSs1_ends s l, commandLine s l⟩,
    fun _ _ _ serves path alive => ⟨safAck_alone serves path alive, safAck_halves serves path alive⟩⟩

end Sys2Proof.Machine
end


section
/-! PROOF. O47: configured stops (R460, R461). -/
namespace Sys2Proof.Machine

/-- A fold that keeps an invariant ends in P when one of its elements brings P about, and P once there stays. -/
theorem foldl_reaches {α : Type} {f : State → α → State} {xs : List α} (Inv P : State → Prop) (inv : ∀ s x, Inv s → Inv (f s x))
    (keep : ∀ s, ∀ x ∈ xs, Inv s → P s → P (f s x)) {y : α} (reach : ∀ s, Inv s → P (f s y)) (mem : y ∈ xs) (s : State)
    (h : Inv s) : P (xs.foldl f s) := by
  induction xs generalizing s with
  | nil => cases mem
  | cons x t ih =>
    have keeps := fun s x hx => keep s x (List.mem_cons_of_mem _ hx)
    rcases List.mem_cons.mp mem with rfl | later
    · exact (List.foldlRecOn (motive := fun u => Inv u ∧ P u) t f ⟨inv _ _ h, reach _ h⟩
        fun u hu x hx => ⟨inv _ _ hu.1, keeps u x hx hu.1 hu.2⟩).2
    · exact ih keeps later _ (inv _ _ h)

/-! ### The stops of one block -/

/-- The converter is stopped in a lane. -/
def State.converterOff (s : State) (l : Lane) : Prop := s.fld l F.DCL_STAT_STATE = 0

theorem State.Only.converter_eq {g : Foot} {a s : State} (h : a.Only g s) (dcl : g.has F.DCL_STAT_STATE.addr = false) (l : Lane) :
    s.fld l F.DCL_STAT_STATE = a.fld l F.DCL_STAT_STATE := by
  unfold State.fld
  rw [h.2 l _ dcl]

/-- The regulation flag is no part of the converter's state. -/
theorem State.setReg_converter (s : State) (l k : Lane) (b : Bool) :
    (s.setReg l b).fld k F.DCL_STAT_STATE = s.fld k F.DCL_STAT_STATE := by
  have one : ∀ (j : Lane) (t : State), ((if t.flag j F.DCL_CTRL_REG && !b
      then t.putWord j F.DCL_VREF_ACT_VREF_ACT.addr (t.word j F.DCL_UDC_UDC.addr) else t).putFlag j F.DCL_CTRL_REG b).word k
        F.DCL_STAT_STATE.addr = t.word k F.DCL_STAT_STATE.addr := fun j t => by
    rw [State.putFlag, State.word_put_ne _ _ _ _ _ _ (by decide)]
    split
    · exact State.word_putWord_ne _ _ _ _ _ _ (by decide)
    · rfl
  have both : ∀ (p : Bool) (t u : State), (if p then t else u).word k F.DCL_STAT_STATE.addr =
      if p then t.word k F.DCL_STAT_STATE.addr else u.word k F.DCL_STAT_STATE.addr := fun p t u => by cases p <;> rfl
  unfold State.setReg State.fld
  rw [both, one, one, ite_self]

/-- The end of a charging session leaves the converter's state. -/
theorem State.chgFault_converter (s : State) (l : Lane) (c : Nat) : (s.chgFault l c).fld l F.DCL_STAT_STATE = s.fld l F.DCL_STAT_STATE := by
  unfold State.chgFault
  split
  · rfl
  · extract_lets fault gates loops stages contactors s2 session
    have before : s.Only ⟨[.hv, .aon, .mon, .loopReq], [0x10, 0x31, 0x32, 0x33, 0x50], false⟩ s2 := by
      have h1 : s.Only ⟨[.hv, .aon, .mon, .loopReq], [0x10, 0x31, 0x32, 0x33, 0x50], false⟩ loops :=
        State.loopOpen_only (State.loopOpen_only (State.gatesOff_only (State.Only.put State.Only.refl _ _ _ (by decide)) _ (by decide)) _ _
          (by decide)) _ _ (by decide)
      have h2 : s.Only ⟨[.hv, .aon, .mon, .loopReq], [0x10, 0x31, 0x32, 0x33, 0x50], false⟩ contactors :=
        State.askK_only (State.askK_only (State.askK_only (State.Only.put (State.Only.put h1 _ _ _ (by decide)) _ _ _ (by decide)) _ _ _
          (by decide)) _ _ _ (by decide)) _ _ _ (by decide)
      exact State.driveS2_only h2 _ _ (by decide)
    have charger : session.fld l F.DCL_STAT_STATE = s2.fld l F.DCL_STAT_STATE :=
      (congrArg (fun w => bits w F.DCL_STAT_STATE.lo F.DCL_STAT_STATE.w) (State.word_modLane _ _ _ _ _ rfl)).trans (State.setReg_converter ..)
    have ends : session.Only ⟨[], [0x33], false⟩ (session.chgEnd l c) := State.chgEnd_only State.Only.refl _ _ (by decide)
    rw [ends.converter_eq (by decide), charger, before.converter_eq (by decide)]

/-- A converter that is stopped is off. -/
theorem State.dclStop_off {s : State} {l : Lane} (live : s.inReset l = false) : (s.dclStop l).converterOff l := by
  unfold State.dclStop State.converterOff
  split
  · rename_i off
    simpa [live] using off
  · extract_lets gates phases stopped left
    have off : stopped.fld l F.DCL_STAT_STATE = 0 := by
      simp only [stopped, State.putFlag]
      rw [State.fld_put_apart _ _ _ _ _ _ (by decide) (by decide), State.fld_put_same _ _ _ _ (by decide)]
      rfl
    clear_value stopped
    have shed : left.fld l F.DCL_STAT_STATE = 0 := by
      simp only [left, State.putFlag]
      rw [State.fld_put_apart _ _ _ _ _ _ (by decide) (by decide), State.modDcl, State.fld, State.word_modLane _ _ _ _ _ rfl]
      exact off
    have events : left.EvOnly (left.levelEv l E.DCL_OV false) := State.levelEv_only _ _ _ _ (by simp)
    have word := (State.loopOpen_word (left.levelEv l E.DCL_OV false) l l 3 (n := F.DCL_STAT_STATE.addr) (by decide)).trans
      (events.word l _ (by decide))
    unfold State.fld at shed ⊢
    rw [word, shed]

/-! ### What every stop of a block keeps -/

/-- The lane runs, and its set is where it was or where a stop takes it. -/
def State.stopping (x : Nat) (l : Lane) (s : State) : Prop := s.inReset l = false ∧ (s.sm l = x ∨ s.sm l = if x = 0 then 0 else 9)

/-- What a stop of one function keeps: the lane out of reset, its set's state or SAFE, and a stopped converter. -/
structure State.StopKeeps (l : Lane) (s t : State) : Prop where
  reset : t.inReset l = s.inReset l
  sm : t.sm l = s.sm l ∨ t.sm l = if s.sm l = 0 then 0 else 9
  converter : s.converterOff l → t.converterOff l

namespace State.StopKeeps
variable {l : Lane} {s t u : State}

theorem refl : StopKeeps l s s := ⟨rfl, .inl rfl, id⟩

theorem trans (h : StopKeeps l s t) (k : StopKeeps l t u) : StopKeeps l s u where
  reset := k.reset.trans h.reset
  sm := by
    obtain ⟨-, sm, -⟩ := h
    obtain ⟨-, sm', -⟩ := k
    grind
  converter := fun c => k.converter (h.converter c)

theorem of_only {g : Foot} (h : s.Only g t) (hold : .hold ∉ g.parts) (aon : .aon ∉ g.parts) (trc : g.has F.TRC_SM_STAT_STATE.addr = false)
    (dcl : g.has F.DCL_STAT_STATE.addr = false) : StopKeeps l s t :=
  ⟨h.inReset_eq hold aon l, .inl (h.sm_eq trc l), fun c => (h.converter_eq dcl l).trans c⟩

theorem chgFault (s : State) (l : Lane) (c : Nat) : StopKeeps l s (s.chgFault l c) where
  reset := State.inReset_chgFault ..
  sm := .inl ((State.chgFault_only (g := ⟨[.hv, .aon, .mon, .chg, .loopReq], [0x10, 0x30, 0x31, 0x32, 0x33, 0x50], false⟩)
    State.Only.refl l c (by decide)).sm_eq (by decide) l)
  converter := fun h => (s.chgFault_converter l c).trans h

theorem dclStop (s : State) (l : Lane) : StopKeeps l s (s.dclStop l) := by
  have only := State.dclStop_only (g := ⟨[.hv, .dcl, .loopReq], [0x10, 0x30], false⟩) (State.Only.refl (a := s)) l (by decide)
  refine ⟨only.inReset_eq (by decide) (by decide) l, .inl (only.sm_eq (by decide) l), fun h => ?_⟩
  have idle : s.dclStop l = s := by
    unfold State.dclStop
    rw [if_pos (by rw [h]; simp)]
  rwa [idle]

theorem setFault (s : State) (l : Lane) (c : Nat) : StopKeeps l s (s.setFault l c) where
  reset := State.inReset_setFault ..
  sm := by
    cases live : s.inReset l with
    | false => exact .inr (State.setFault_sm live c)
    | true =>
      have idle : s.setFault l c = s := by
        unfold State.setFault State.safeEntry
        rw [if_pos (by simp [live])]
      rw [idle]
      exact .inl rfl
  converter := fun h => ((State.setFault_only (g := ⟨[.hv, .trc, .loopReq], [0x10, 0x11], false⟩) State.Only.refl l c
    (by decide)).converter_eq (by decide) l).trans h

theorem ite {p : Prop} [Decidable p] (h : StopKeeps l s t) (k : StopKeeps l s u) : StopKeeps l s (if p then t else u) := by
  split
  · exact h
  · exact k

/-- The converter's part of a STOP, with the charging of a token holder. -/
theorem converter_stop (s : State) (l : Lane) (c : Nat) :
    StopKeeps l s (if (s.dclStop l).holdsAny l then (s.dclStop l).chgFault l c else s.dclStop l) :=
  (dclStop s l).trans (ite (chgFault ..) refl)

theorem stopBlock (s : State) (l : Lane) (page : Nat) : StopKeeps l s (s.stopBlock l page) := by
  have charger : StopKeeps l s (if s.holdsAny l then s.chgFault l 15 else s) := ite (chgFault ..) refl
  have bridges : StopKeeps l s (if s.holdsAny l then (s.actIdle l 0).actIdle l 1 else s) :=
    ite (of_only (g := ⟨[.lv, .loopReq], [0x10, 0x34], false⟩)
      (State.actIdle_only (State.actIdle_only State.Only.refl l 0 (by decide)) l 1 (by decide)) (by decide) (by decide) (by decide)
      (by decide)) refl
  unfold State.stopBlock
  dsimp only
  split
  · exact setFault s l 4
  · exact setFault s l 4
  · exact setFault s l 4
  · exact ite (setFault s l 4) (ite (converter_stop s l 13) charger)
  · exact converter_stop s l 13
  · exact charger
  · exact charger
  · exact charger
  · exact bridges
  · exact bridges
  · exact refl

end State.StopKeeps

/-! ### REACTION_STOP -/

theorem State.stopBlock_set {p : Nat} (h : p ∈ [0x20000, 0x21000, 0x22000, 0x24000, 0x28000]) (s : State) (l : Lane) :
    s.stopBlock l p = s.setFault l 4 := by
  simp only [List.mem_cons, List.not_mem_nil, or_false] at h
  rcases h with rfl | rfl | rfl | rfl | rfl <;> rfl

theorem State.stopBlock_converter (s : State) (l : Lane) :
    s.stopBlock l 0x70000 = if (s.dclStop l).holdsAny l then (s.dclStop l).chgFault l 13 else s.dclStop l := rfl

theorem State.stopBlock_off {s : State} {l : Lane} (live : s.inReset l = false) : (s.stopBlock l 0x70000).converterOff l := by
  rw [State.stopBlock_converter]
  have ends : State.StopKeeps l (s.dclStop l) (if (s.dclStop l).holdsAny l then (s.dclStop l).chgFault l 13 else s.dclStop l) :=
    State.StopKeeps.ite (State.StopKeeps.chgFault ..) State.StopKeeps.refl
  exact ends.converter (State.dclStop_off live)

theorem State.stopping_stopBlock {x : Nat} {l : Lane} {s : State} (h : s.stopping x l) (p : Nat) : (s.stopBlock l p).stopping x l := by
  obtain ⟨reset, sm, -⟩ := State.StopKeeps.stopBlock s l p
  obtain ⟨live, at_⟩ := h
  refine ⟨reset.trans live, ?_⟩
  grind

theorem reactionStop_stops (s : State) (l : Lane) (live : s.inReset l = false) (works : s.failed l = false) :
    Completes (exec (.reactionStop l) s) fun u =>
      (∀ p ∈ (s.lane l).stopPend, p ∈ [0x20000, 0x21000, 0x22000, 0x24000, 0x28000] → u.sm l = if s.sm l = 0 then 0 else 9) ∧
      (0x70000 ∈ (s.lane l).stopPend → u.fld l F.DCL_STAT_STATE = 0) := by
  have run : exec (.reactionStop l) s = done ((s.lane l).stopPend.foldl (fun s p => s.stopBlock l p)
      (s.modLane l (fun x => { x with stopPend := [] }))) := if_neg (by simp [live, works])
  have begins : (s.modLane l (fun x => { x with stopPend := [] })).stopping (s.sm l) l :=
    ⟨(State.inReset_modLane _ _ _ _ rfl).trans live,
      .inl (congrArg (fun w => bits w F.TRC_SM_STAT_STATE.lo F.TRC_SM_STAT_STATE.w) (State.word_modLane _ _ _ _ _ rfl))⟩
  rw [run]
  refine completes_done ⟨fun p mem page => ?_, fun mem => ?_⟩
  · refine foldl_reaches (State.stopping (s.sm l) l) (fun t => t.sm l = if s.sm l = 0 then 0 else 9)
      (fun t x h => State.stopping_stopBlock h x) (fun t x _ h stopped => ?_) (fun t h => ?_) mem _ begins
    · obtain ⟨-, sm, -⟩ := State.StopKeeps.stopBlock t l x
      grind
    · obtain ⟨live', at_⟩ := h
      have sm := State.setFault_sm live' 4
      rw [State.stopBlock_set page]
      grind
  · exact foldl_reaches (State.stopping (s.sm l) l) (fun t => t.converterOff l) (fun t x h => State.stopping_stopBlock h x)
      (fun t x _ _ off => (State.StopKeeps.stopBlock t l x).converter off) (fun t h => State.stopBlock_off h.1) mem _ begins

end Sys2Proof.Machine
end


section
/-! PROOF. O47: the clears of the event path, the management processor's load, and the monitor's log (R408, R464, R467, R468, R469). -/
namespace Sys2Proof.Machine

/-! ### The management processor's load -/

theorem mpOverload_shows (s : State) (l : Lane) (live : s.inReset l = false) (ovr : Bool) : Completes (exec (.mpOverload l ovr) s) fun u =>
    (u.lane l).boot.mpBusy = ovr ∧ u.present l E.SYS_MP_LOAD = ovr := by
  have run : exec (.mpOverload l ovr) s = done ((s.modBoot l (fun b => { b with mpBusy := ovr })).levelEv l E.SYS_MP_LOAD ovr) :=
    if_neg (by simp [live])
  have reset : (s.modBoot l (fun b => { b with mpBusy := ovr })).inReset l = false := (State.inReset_modLane _ _ _ _ rfl).trans live
  have busy : ((s.modBoot l (fun b => { b with mpBusy := ovr })).lane l).boot.mpBusy = ovr := by simp [State.modBoot]
  generalize s.modBoot l (fun b => { b with mpBusy := ovr }) = t at run reset busy
  have events : t.EvOnly (t.levelEv l E.SYS_MP_LOAD ovr) := State.levelEv_only _ _ _ _ (by simp)
  have boot : (t.lane l).boot = ((t.levelEv l E.SYS_MP_LOAD ovr).lane l).boot := events.only.1 .boot (by decide) l
  rw [run]
  exact completes_done ⟨boot ▸ busy, State.levelEv_present _ _ _ _ (by simp) (by rw [State.dead, if_neg (by decide), reset])⟩

/-! ### EVC_PEND and EVC_CLR -/

/-- A write that a lane takes is performed. -/
theorem State.Takes.writing_eq {s : State} {l : Lane} {a : Nat} (h : s.Takes l a) (k : State → State) : s.writing l a k = k s := by
  obtain ⟨live, away⟩ := h
  unfold State.writing
  rw [if_neg (by simp [live]), away]

/-- A header's pending bit is cleared. -/
def State.unpend (l : Lane) (s : State) (e : Ev) : State :=
  s.putWord l (e.page + 0x018) (s.word l (e.page + 0x018) &&& ~~~(1#32 <<< e.bit))

theorem State.unpend_clears (s : State) (l : Lane) (e : Ev) : (s.unpend l e).pended l e = false := by
  simp only [State.pended, State.unpend, State.word_putWord_same, bit]
  simp

theorem State.unpend_keeps {s : State} {l : Lane} {e : Ev} (f : Ev) (h : s.pended l e = false) : (s.unpend l f).pended l e = false := by
  unfold State.pended bit at h ⊢
  rw [State.unpend, State.word_putWord]
  split
  · rename_i at_
    rw [BitVec.getLsbD_and, at_.1, h, Bool.false_and]
  · exact h

/-- The clears of one source. -/
def State.unpendSource (l : Lane) (g : Nat) (w : Word) (s : State) (b : Nat) : State :=
  if !bit w b then s else (allSrcBits (32 * g + b)).foldl (State.unpend l) s

theorem State.evcPend_eq (s : State) (l : Lane) (g : Nat) (w : Word) : s.evcPend l g w = (List.range 32).foldl (State.unpendSource l g w) s := rfl

theorem State.unpendSource_keeps {s : State} {l : Lane} {g : Nat} {w : Word} {e : Ev} (b : Nat) (h : s.pended l e = false) :
    (s.unpendSource l g w b).pended l e = false := by
  unfold State.unpendSource
  split
  · exact h
  · exact List.foldlRecOn (motive := fun t : State => t.pended l e = false) _ _ h fun t ht f _ => State.unpend_keeps f ht

theorem State.unpendSource_clears (s : State) {l : Lane} {g b : Nat} {w : Word} {e : Ev} (set : bit w b = true)
    (mem : e ∈ allSrcBits (32 * g + b)) : (s.unpendSource l g w b).pended l e = false := by
  unfold State.unpendSource
  rw [if_neg (by simp [set])]
  exact foldl_reaches (fun _ => True) (fun t => t.pended l e = false) (fun _ _ _ => trivial) (fun t f _ _ h => State.unpend_keeps f h)
    (fun t _ => t.unpend_clears l e) mem s trivial

theorem evcPendClear_clears (s : State) (l : Lane) (g : Fin 4) (w : Word) (takes : s.Takes l (0x04050 + g.val * 4)) :
    Completes (exec (.evcPendClear l g w) s) fun u =>
      u.answered l = .ok ∧ ∀ b, b < 32 → bit w b = true → ∀ e ∈ allSrcBits (32 * g.val + b), u.pended l e = false := by
  have run : exec (.evcPendClear l g w) s = done ((s.evcPend l g.val w).reply l .ok) :=
    congrArg done (takes.writing_eq fun s => (s.evcPend l g.val w).reply l .ok)
  rw [run]
  refine completes_done ⟨State.reply_answered .., fun b hb set e mem => ?_⟩
  rw [State.pended, State.reply_word, State.evcPend_eq]
  exact foldl_reaches (fun _ => True) (fun t => t.pended l e = false) (fun _ _ _ => trivial)
    (fun t c _ _ h => State.unpendSource_keeps c h) (fun t _ => t.unpendSource_clears set mem) (List.mem_range.mpr hb) s trivial

/-- A fold that writes 0 to the word of each index leaves 0 in each. -/
theorem State.foldl_zero {l k : Lane} {n m : Nat} {at_ : Nat → Nat} (s : State) (h : m < n) (shared : k = l ∨ monAddr (at_ m) = true) :
    ((List.range n).foldl (fun (t : State) j => t.putWord l (at_ j) 0) s).word k (at_ m) = 0 := by
  refine foldl_reaches (fun _ => True) (fun t => t.word k (at_ m) = 0) (fun _ _ _ => trivial) (fun t j _ _ zero => ?_) (fun t _ => ?_)
    (List.mem_range.mpr h) s trivial
  · rw [State.word_putWord]
    split
    · rfl
    · exact zero
  · rw [State.word_putWord, if_pos ⟨rfl, shared⟩]

theorem evcClrCnt_clears (s : State) (l : Lane) (takes : s.Takes l 0x040BC) : Completes (exec (.evcClrCnt l) s) fun u =>
    u.answered l = .ok ∧ u.fld l F.EVC_STAT_REACT_CNT = 0 ∧ ∀ k, k < 24 → u.word l (F.EVC_CNT_CNT k 0).addr = 0 := by
  have run : exec (.evcClrCnt l) s = done ((s.evcClr l).reply l .ok) := congrArg done (takes.writing_eq fun s => (s.evcClr l).reply l .ok)
  rw [run]
  refine completes_done ⟨State.reply_answered .., ?_, fun k hk => ?_⟩
  · have cleared : (s.evcClr l).fld l F.EVC_STAT_REACT_CNT = 0 := by
      refine List.foldlRecOn (motive := fun t => State.fld t l F.EVC_STAT_REACT_CNT = 0) _ _
        (State.fld_put_same s l F.EVC_STAT_REACT_CNT 0 (by decide)) fun t zero j _ => ?_
      rw [State.fld, State.word_putWord_ne _ _ _ _ _ _ (by simp only [F.EVC_CNT_CNT, F.EVC_STAT_REACT_CNT]; omega)]
      exact zero
    rw [State.fld, State.reply_word]
    exact cleared
  · rw [State.reply_word]
    exact State.foldl_zero _ hk (.inl rfl)

/-! ### MON_LOG_CLR -/

/-- A word of the monitor written over itself. -/
def State.monRewritten (s : State) (n : Nat) : State := s.modMon (fun m => { m with regs := m.regs.write n (s.mon.regs.read n) })

theorem State.dualApply_logClr (s : State) {w : Word} (h : w &&& (3 &&& 3) = w) : s.dualApply (.mon 0) 0x048 3 (3 &&& 3) w =
    onBit' (bit w 0) State.monLogClear (onBit' (bit w 1) State.monClrCnt (s.monRewritten 0xC0048)) := by
  have none : (3 : Word) &&& ~~~(3 &&& 3) = 0#32 := by decide
  have mix : ∀ x : Word, (x &&& ~~~((3 : Word) &&& ~~~(3 &&& 3))) ||| (w &&& 3 &&& ~~~(3 &&& 3)) = x := fun x => by
    rw [none, BitVec.and_assoc, none]
    simp [Word.and_full]
  unfold State.dualApply State.monRewritten
  simp only [Page.base, Nat.reduceBEq, Bool.false_eq_true, if_false, mix, Page.monServed, State.applied, if_true,
    Fin.isValue, h]
  rfl

section
variable {s : State} {l : Lane} {q : Option Req} {w : Word}

theorem State.pairs_logClr (serves : s.Serves l 0xC0048 q) (path : s.monOk l = true) (alive : s.mon.alive = true)
    (room : (s.mon.halves.filter (fun h => h.lane == l)).length < 16) (h : w = 1 ∨ w = 2) :
    s.Pairs l q 0xC0048 w 0x1 (commandWrite (.mon 0) 0x048 logClrFields (s.word l 0xC0048) w 3 3) where
  serves := serves
  axle := by decide
  mirror := by decide
  addr := rfl
  run := by rw [State.writeWord_logClr s l _ h, if_pos path]
  alive := alive
  alone := rfl
  room := room

/-- A clear that the monitor applies holds up no access. -/
theorem State.logCleared_idle (t : State) (k : Lane) :
    ((t.monRewritten 0xC0048).monLogClear.inReset k = t.inReset k ∧ ((t.monRewritten 0xC0048).monLogClear.lane k).waiting = (t.lane k).waiting) ∧
    ((t.monRewritten 0xC0048).monClrCnt.inReset k = t.inReset k ∧ ((t.monRewritten 0xC0048).monClrCnt.lane k).waiting = (t.lane k).waiting) := by
  have log := State.monLogClear_only (g := ⟨[.mon], [], false⟩) (State.Only.refl (a := t.monRewritten 0xC0048)) (by decide)
  have cnt := State.monClrCnt_only (g := ⟨[], [], false⟩) (State.Only.refl (a := t.monRewritten 0xC0048)) (by decide)
  exact ⟨⟨log.inReset_eq (by decide) (by decide) k, (log.1 .waiting (by decide) k).symm⟩,
    cnt.inReset_eq (by decide) (by decide) k, (cnt.1 .waiting (by decide) k).symm⟩

theorem State.monLogClear_empty (t : State) : t.monLogClear.mon.log = [] ∧ t.monLogClear.mfld F.MON_LOG_STAT_FILL = 0 :=
  ⟨rfl, State.fld_put_same _ .A F.MON_LOG_STAT_FILL 0 (by decide)⟩

theorem State.monClrCnt_zero (t : State) (l : Lane) {k : Nat} (h : k < 8) : t.monClrCnt.word l (F.MON_CNT_CNT k 0).addr = 0 :=
  State.foldl_zero t h (.inr ((by decide : ∀ k : Fin 8, monAddr (F.MON_CNT_CNT k.val 0).addr = true) ⟨k, h⟩))

theorem monLogClear_waits (serves : s.Serves l 0xC0048 q) (path : s.monOk l = true) (alive : s.mon.alive = true)
    (room : (s.mon.halves.filter (fun h => h.lane == l)).length < 16) (no : ∀ h ∈ s.mon.halves, h.lane = l.other → h.addr ≠ 0xC0048) :
    Completes (exec (.monLogClear l q) s) fun u => u.mon.log = s.mon.log ∧ u.answered l = .dualPend := by
  have run : exec (.monLogClear l q) s = done (s.write1 l q 0xC0048 1 0x1) := rfl
  obtain ⟨answered, mon, -⟩ := (State.pairs_logClr (w := 1) serves path alive room (.inl rfl)).waits no
  rw [run]
  refine completes_done ⟨?_, answered⟩
  rw [mon]

/-- With its partner a half of MON_LOG_CLR acts: the state that its command leaves, in which nothing is held up. -/
theorem State.logClr_meets (pairs : s.Pairs l q 0xC0048 w 0x1 (commandWrite (.mon 0) 0x048 logClrFields (s.word l 0xC0048) w 3 3))
    (partner : ∃ h ∈ s.mon.halves, h.lane = l.other ∧ h.addr = 0xC0048) (known : w &&& (3 &&& 3) = w)
    (same : ∀ h ∈ s.mon.halves, h.lane = l.other → h.addr = 0xC0048 → h.val = w) {act : State → State}
    (acts : ∀ t : State, onBit' (bit w 0) State.monLogClear (onBit' (bit w 1) State.monClrCnt t) = act t)
    (idle : ∀ (t : State) (k : Lane), (act (t.monRewritten 0xC0048)).inReset k = t.inReset k ∧
      ((act (t.monRewritten 0xC0048)).lane k).waiting = (t.lane k).waiting) :
    ∃ t : State, (s.write1 l q 0xC0048 w 0x1).mon = (act t).mon ∧
      ∀ k n, typeAt n ≠ 0x40 → (s.write1 l q 0xC0048 w 0x1).word k n = (act t).word k n := by
  have value : (commandWrite (.mon 0) 0x048 logClrFields (s.word l 0xC0048) w 3 3).value = w :=
    commandWrite_value (by rw [BitVec.and_assoc]; exact known) (by decide)
  have held := (State.HalvesOnly.refl (s := s)).passed l q 0xC0048 w |>.met l 0xC0048 false
  have free := idle ((s.passed l q 0xC0048 w).met l 0xC0048 false)
  obtain ⟨-, mon, word⟩ := pairs.meets partner (by rw [value]; exact same)
    (by rw [value]; exact (State.dualApply_logClr _ known).trans (acts _)) ((free l).1.trans ((held.inReset l).trans pairs.serves.1.1))
    (fun k => (free k).2.trans ((held.waiting k).trans (pairs.serves.2.1 k)))
  exact ⟨_, mon, word⟩

theorem monLogClear_acts (serves : s.Serves l 0xC0048 q) (path : s.monOk l = true) (alive : s.mon.alive = true)
    (room : (s.mon.halves.filter (fun h => h.lane == l)).length < 16) (partner : ∃ h ∈ s.mon.halves, h.lane = l.other ∧ h.addr = 0xC0048)
    (same : ∀ h ∈ s.mon.halves, h.lane = l.other → h.addr = 0xC0048 → h.val = 1) :
    Completes (exec (.monLogClear l q) s) fun u => u.mon.log = [] ∧ u.mfld F.MON_LOG_STAT_FILL = 0 := by
  have run : exec (.monLogClear l q) s = done (s.write1 l q 0xC0048 1 0x1) := rfl
  obtain ⟨t, mon, word⟩ := State.logClr_meets (State.pairs_logClr (w := 1) serves path alive room (.inl rfl)) partner (by decide) same
    (act := State.monLogClear) (fun _ => rfl) fun t k => (t.logCleared_idle k).1
  obtain ⟨log, fill⟩ := t.monLogClear_empty
  rw [run]
  refine completes_done ⟨mon ▸ log, ?_⟩
  unfold State.mfld State.fld at fill ⊢
  rw [word .A _ (by decide), fill]

theorem monLogClrCnt_acts (serves : s.Serves l 0xC0048 q) (path : s.monOk l = true) (alive : s.mon.alive = true)
    (room : (s.mon.halves.filter (fun h => h.lane == l)).length < 16) (partner : ∃ h ∈ s.mon.halves, h.lane = l.other ∧ h.addr = 0xC0048)
    (same : ∀ h ∈ s.mon.halves, h.lane = l.other → h.addr = 0xC0048 → h.val = 2) :
    Completes (exec (.monLogClrCnt l q) s) fun u => ∀ k, k < 8 → u.word l (F.MON_CNT_CNT k 0).addr = 0 := by
  have run : exec (.monLogClrCnt l q) s = done (s.write1 l q 0xC0048 2 0x1) := rfl
  obtain ⟨t, -, word⟩ := State.logClr_meets (State.pairs_logClr (w := 2) serves path alive room (.inr rfl)) partner (by decide) same
    (act := State.monClrCnt) (fun _ => rfl) fun t k => (t.logCleared_idle k).2
  have pages : ∀ k : Fin 8, typeAt (F.MON_CNT_CNT k.val 0).addr ≠ 0x40 := by decide
  rw [run]
  exact completes_done fun k hk => (word l _ (pages ⟨k, hk⟩)).trans (t.monClrCnt_zero l hk)

end

/-! ### Assembly -/

/-- Settles O47: the configured stops, the clears of the event path, the processor's load and the clearing of the monitor's log. -/
theorem eventPath : Obligations.EventPath :=
  ⟨fun s l live => ⟨reactionStop_stops s l live, mpOverload_shows s l live⟩,
    fun s l => ⟨evcPendClear_clears s l, evcClrCnt_clears s l⟩,
    fun _ _ _ serves path alive room => ⟨monLogClear_waits serves path alive room, fun partner =>
      ⟨monLogClear_acts serves path alive room partner, monLogClrCnt_acts serves path alive room partner⟩⟩⟩

end Sys2Proof.Machine
end

section
/-! PROOF. A self-test failure and an overrun of a rate group (R31, R174, R333): what they show, count and report, and what they leave. -/
namespace Sys2Proof.Machine

/-! ### What a footprint keeps -/

theorem State.Only.fld_eq {g : Foot} {a s : State} (h : a.Only g s) (l : Lane) {f : Fld} (hf : g.has f.addr = false) :
    s.fld l f = a.fld l f := by
  rw [State.fld, h.2 l _ hf, State.fld]

theorem State.Only.ready_eq {g : Foot} {a s : State} (h : a.Only g s) (hold : .hold ∉ g.parts) (aon : .aon ∉ g.parts)
    (boot : .boot ∉ g.parts) (l : Lane) : s.ready l = a.ready l := by
  have same : (a.lane l).boot = (s.lane l).boot := h.1 .boot boot l
  simp only [State.ready, h.inReset_eq hold aon, same]

theorem State.inReset_of_ready {s : State} {l : Lane} (h : s.ready l = true) : s.inReset l = false := by
  simp only [State.ready, Bool.and_eq_true, Bool.not_eq_true'] at h
  exact h.1

/-- A counter that stops at its field's largest value fits the field. -/
theorem satAdd_mod (w a b : Nat) : satAdd w a b % 2 ^ w = satAdd w a b :=
  Nat.mod_eq_of_lt (Nat.lt_of_le_of_lt (Nat.min_le_right ..) (Nat.sub_lt (Nat.two_pow_pos w) Nat.one_pos))

theorem State.fld_bump_same (s : State) (l : Lane) (f : Fld) (n : Nat) (h : f.lo + f.w ≤ 32) :
    (s.bump l f n).fld l f = satAdd f.w (s.fld l f) n := by
  rw [State.bump, State.fld_put_same _ _ _ _ h, satAdd_mod]

/-- EVT_PEND lies in no register but its own. -/
theorem State.pended_put (s : State) (l : Lane) (f : Fld) (v : Nat) {e : Ev} (he : State.EvOnly.Proper e) (hf : f.addr % 0x1000 ≠ 0x018) :
    (s.put l f v).pended l e = s.pended l e := by
  unfold State.pended
  rw [State.word_put_ne _ _ _ _ _ _ (by have := he.1; omega)]

/-! ### A self-test failure -/

/-- The self-test bits that a cause clears. -/
def State.healthDown (s : State) (l : Lane) (cause : Nat) : State :=
  match healthBit cause with
  | some n => (s.putFlag l ⟨F.RED_HEALTH_ALL.addr, n, 1⟩ false).putFlag l F.RED_HEALTH_ALL false
  | none => s

theorem State.selfFail_eq {s : State} {l : Lane} (ready : s.ready l = true) (well : s.failed l = false) (cause : Nat) : s.selfFail l cause =
    ((((s.put l F.RED_STAT_SELF 3).put l F.RED_STAT_SELF_CAUSE cause).healthDown l cause).modRed l
      (fun r => { r with failSend := 2 })).levelEv l E.RED_SELF_FAILED true :=
  if_neg (by simp [ready, well])

theorem State.healthDown_fld (s : State) (l : Lane) (cause : Nat) {f : Fld} (h : F.RED_HEALTH_ALL.addr ≠ f.addr) :
    (s.healthDown l cause).fld l f = s.fld l f := by
  unfold State.healthDown
  split
  · exact (State.fld_put_ne _ l l F.RED_HEALTH_ALL f 0 h).trans (State.fld_put_ne s l l _ f 0 h)
  · rfl

theorem State.healthDown_pended (s : State) (l : Lane) (cause : Nat) {e : Ev} (he : State.EvOnly.Proper e) :
    (s.healthDown l cause).pended l e = s.pended l e := by
  unfold State.healthDown
  split
  · exact (State.pended_put _ l F.RED_HEALTH_ALL 0 he (by decide)).trans
      (State.pended_put s l _ 0 he (by decide : F.RED_HEALTH_ALL.addr % 0x1000 ≠ 0x018))
  · rfl

theorem State.healthDown_red (s : State) (l : Lane) (cause : Nat) : ((s.healthDown l cause).lane l).red = (s.lane l).red := by
  unfold State.healthDown
  split
  · simp
  · rfl

theorem State.selfFail_shows {s : State} {l : Lane} (ready : s.ready l = true) (well : s.failed l = false) (cause : Nat) :
    (s.selfFail l cause).self l = 3 ∧ (s.selfFail l cause).fld l F.RED_STAT_SELF_CAUSE = cause % 2 ^ 4 := by
  have fld : ∀ f : Fld, evAddr f.addr = false → F.RED_HEALTH_ALL.addr ≠ f.addr →
      (s.selfFail l cause).fld l f = ((s.put l F.RED_STAT_SELF 3).put l F.RED_STAT_SELF_CAUSE cause).fld l f := fun f plain apart => by
    rw [State.selfFail_eq ready well, State.levelEv_fld _ _ _ _ (by simp) _ _ plain]
    exact (congrArg (fun w => bits w f.lo f.w) (State.word_modRed ..)).trans (State.healthDown_fld _ _ _ apart)
  refine ⟨(fld F.RED_STAT_SELF rfl (by decide)).trans ?_, (fld F.RED_STAT_SELF_CAUSE rfl (by decide)).trans ?_⟩
  · rw [State.fld_put_apart _ _ _ _ _ _ (by decide) (by decide), State.fld_put_same _ _ _ _ (by decide)]
    rfl
  · exact State.fld_put_same _ _ _ _ (by decide)

theorem State.selfFail_pended {s : State} {l : Lane} {e : Ev} (he : State.EvOnly.Proper e) (h : s.pended l e = true) (cause : Nat) :
    (s.selfFail l cause).pended l e = true := by
  have fails : s.ready l = true → s.failed l = false → (s.selfFail l cause).pended l e = true := fun ready well => by
    rw [State.selfFail_eq ready well]
    refine State.levelEv_keeps_pend _ _ _ _ (by simp) _ _ _ (by have := he.1; omega) ?_
    rw [State.word_modRed]
    change State.pended _ l e = true
    rw [State.healthDown_pended _ _ _ he, State.pended_put _ _ _ _ he (by decide), State.pended_put _ _ _ _ he (by decide), h]
  cases ready : s.ready l with
  | false => rwa [State.selfFail, if_pos (by simp [ready])]
  | true =>
    cases well : s.failed l with
    | true => rwa [State.selfFail, if_pos (by simp [well])]
    | false => exact fails ready well

theorem State.selfFail_crcErrs (s : State) (l : Lane) (cause : Nat) :
    ((s.selfFail l cause).lane l).red.crcErrs = (s.lane l).red.crcErrs := by
  cases fails : !s.ready l || s.failed l with
  | true => rw [State.selfFail, if_pos fails]
  | false =>
    simp only [Bool.or_eq_false_iff, Bool.not_eq_false'] at fails
    rw [State.selfFail_eq fails.1 fails.2, State.levelEv_lane_red _ _ _ _ (by simp)]
    simp [State.healthDown_red]

/-! ### An overrun -/

/-- An overrun counted, named and reported. -/
def State.overrunNoted (s : State) (l : Lane) (group : Nat) : State :=
  ((s.bump l F.CE_STAT_OVR_CNT).put l F.CE_STAT_OVR_GRP group).pulseEv l E.CE_OVERRUN

theorem State.overrun_eq (s : State) (l : Lane) (group n : Nat) :
    s.overrun l group n = if n ≥ 2 then (s.overrunNoted l group).selfFail l 4 else s.overrunNoted l group := rfl

theorem State.overrunNoted_only (s : State) (l : Lane) (group : Nat) : s.Only ⟨[], [0x10], false⟩ (s.overrunNoted l group) :=
  ((State.Only.refl.bump l _ _ (by decide)).put l _ _ (by decide)).pulseEv l _ _ (by simp)

theorem State.overrun_stat (s : State) (l : Lane) (group n : Nat) {f : Fld} (h : f.addr = F.CE_STAT_OVR_GRP.addr) :
    (s.overrun l group n).fld l f = ((s.bump l F.CE_STAT_OVR_CNT).put l F.CE_STAT_OVR_GRP group).fld l f := by
  have noted : (s.overrunNoted l group).fld l f = ((s.bump l F.CE_STAT_OVR_CNT).put l F.CE_STAT_OVR_GRP group).fld l f :=
    State.pulseEv_fld _ _ _ _ (by simp) _ _ (h ▸ rfl)
  have kept := (State.selfFail_only (g := ⟨[.red], [0x40], false⟩) (State.Only.refl (a := s.overrunNoted l group)) l 4 (by decide)).fld_eq l
    (f := f) (h ▸ by decide)
  rw [State.overrun_eq]
  split
  · exact kept.trans noted
  · exact noted

theorem State.overrun_counts (s : State) (l : Lane) (group n : Nat) :
    (s.overrun l group n).fld l F.CE_STAT_OVR_GRP = group % 2 ^ 2 ∧
    (s.overrun l group n).fld l F.CE_STAT_OVR_CNT = satAdd 16 (s.fld l F.CE_STAT_OVR_CNT) 1 := by
  refine ⟨(s.overrun_stat l group n rfl).trans (State.fld_put_same _ _ _ _ (by decide)), ?_⟩
  rw [s.overrun_stat l group n (f := F.CE_STAT_OVR_CNT) rfl, State.fld_put_apart _ _ _ _ _ _ (by decide) (by decide),
    State.fld_bump_same _ _ _ _ (by decide)]
  rfl

/-- The rest of CE_STAT keeps its value. -/
theorem State.overrun_tvOk (s : State) (l : Lane) (group n : Nat) :
    (s.overrun l group n).fld l F.CE_STAT_TV_OK = s.fld l F.CE_STAT_TV_OK := by
  rw [s.overrun_stat l group n (f := F.CE_STAT_TV_OK) rfl, State.fld_put_apart _ _ _ _ _ _ (by decide) (by decide), State.bump,
    State.fld_put_apart _ _ _ _ _ _ (by decide) (by decide)]

theorem State.overrun_pended {s : State} {l : Lane} (live : s.inReset l = false) (absent : s.present l E.CE_OVERRUN = false) (group n : Nat) :
    (s.overrun l group n).pended l E.CE_OVERRUN = true := by
  have same : ((s.bump l F.CE_STAT_OVR_CNT).put l F.CE_STAT_OVR_GRP group).word l (E.CE_OVERRUN.page + 0x010) =
      s.word l (E.CE_OVERRUN.page + 0x010) := by
    rw [State.word_put_ne _ _ _ _ _ _ (by decide), State.bump, State.word_put_ne _ _ _ _ _ _ (by decide)]
  have noted : (s.overrunNoted l group).pended l E.CE_OVERRUN = true :=
    State.pulseEv_pended _ l E.CE_OVERRUN false (by simp) (by rw [State.dead, if_neg (by decide)]; simp [live])
      (by rw [State.present, same]; exact absent)
  rw [State.overrun_eq]
  split
  · exact State.selfFail_pended (by simp) noted 4
  · exact noted

/-- A second overrun in a row is a self-test failure (R31, R333). -/
theorem State.overrun_fails {s : State} {l : Lane} (ready : s.ready l = true) (well : s.failed l = false) (group : Nat) {n : Nat} (again : 2 ≤ n) :
    (s.overrun l group n).self l = 3 ∧ (s.overrun l group n).fld l F.RED_STAT_SELF_CAUSE = 4 := by
  have kept := s.overrunNoted_only l group
  rw [State.overrun_eq, if_pos again]
  refine State.selfFail_shows ?_ ?_ 4
  · rw [kept.ready_eq (by decide) (by decide) (by decide), ready]
  · rw [State.failed, State.self, kept.fld_eq l (by decide)]
    exact well

theorem State.overrun_ceRed_only (s : State) (l : Lane) (group n : Nat) : s.Only ⟨[.red], [0x10, 0x40], false⟩ (s.overrun l group n) := by
  have noted := (s.overrunNoted_only l group).wider (g' := ⟨[.red], [0x10, 0x40], false⟩) (by decide)
  rw [State.overrun_eq]
  exact .ite (fun _ => State.selfFail_only noted l 4 (by decide)) (fun _ => noted)

theorem State.overrun_crcErrs (s : State) (l : Lane) (group n : Nat) :
    ((s.overrun l group n).lane l).red.crcErrs = (s.lane l).red.crcErrs := by
  have noted : (s.lane l).red = ((s.overrunNoted l group).lane l).red := (s.overrunNoted_only l group).1 .red (by decide) l
  rw [State.overrun_eq]
  split
  · rw [State.selfFail_crcErrs, noted]
  · rw [noted]

end Sys2Proof.Machine
end

section
/-! PROOF. O60: the starts of medium and slow cycles (R122, R172, R174, R179, R197, R229, R333). -/
namespace Sys2Proof.Machine

/-! ### Test vectors -/

theorem State.testVectors_fail {s : State} {l : Lane} (ready : s.ready l = true) (well : s.failed l = false) :
    (s.testVectors l false).flag l F.CE_STAT_TV_OK = false ∧ (s.testVectors l false).self l = 3 ∧
    (s.testVectors l false).fld l F.RED_STAT_SELF_CAUSE = 3 ∧
    (s.present l E.CE_TEST_FAIL = false → (s.testVectors l false).pended l E.CE_TEST_FAIL = true) := by
  have run : s.testVectors l false = ((s.put l F.CE_STAT_TV_OK 0).pulseEv l E.CE_TEST_FAIL).selfFail l 3 := rfl
  have shown : s.Only ⟨[], [0x10], false⟩ ((s.put l F.CE_STAT_TV_OK 0).pulseEv l E.CE_TEST_FAIL) :=
    (State.Only.refl.put l _ _ (by decide)).pulseEv l _ _ (by simp)
  have vectors : ((s.put l F.CE_STAT_TV_OK 0).pulseEv l E.CE_TEST_FAIL).fld l F.CE_STAT_TV_OK = 0 := by
    rw [State.pulseEv_fld _ _ _ _ (by simp) _ _ rfl, State.fld_put_same _ _ _ _ (by decide)]
    rfl
  have fails := State.selfFail_only (g := ⟨[.red], [0x40], false⟩)
    (State.Only.refl (a := (s.put l F.CE_STAT_TV_OK 0).pulseEv l E.CE_TEST_FAIL)) l 3 (by decide)
  obtain ⟨self, cause⟩ := State.selfFail_shows ((shown.ready_eq (by decide) (by decide) (by decide) l).trans ready)
    ((congrArg (fun v => v == 3) (shown.fld_eq l (by decide))).trans well) 3
  rw [run]
  refine ⟨?_, self, cause, fun absent => State.selfFail_pended (by simp) ?_ 3⟩
  · rw [State.flag, fails.fld_eq l (by decide), vectors]
    rfl
  · refine State.pulseEv_pended _ _ _ _ (by simp) ?_ ?_
    · rw [State.dead, if_neg (by decide), State.inReset_put, State.inReset_of_ready ready]
    · rw [State.present, State.word_put_ne _ _ _ _ _ _ (by decide)]
      exact absent

/-! ### What a rate group leaves of CE_STAT -/

/-- A group reports in its own registers and in CE_SP_STAT. -/
theorem State.afterGroup_tvOk (s : State) (l : Lane) (rate : Nat) (r : Run) :
    (s.afterGroup l rate r).fld l F.CE_STAT_TV_OK = s.fld l F.CE_STAT_TV_OK := by
  have put : ∀ (t : State) (f : Fld) (v : Nat), f.addr ≠ 0x10044 → (t.put l f v).fld l F.CE_STAT_TV_OK = t.fld l F.CE_STAT_TV_OK :=
    fun t f v h => State.fld_put_ne t l l f _ v h
  have pulse : ∀ (t : State) (e : Ev), State.EvOnly.Proper e → (t.pulseEv l e).fld l F.CE_STAT_TV_OK = t.fld l F.CE_STAT_TV_OK :=
    fun t e he => State.pulseEv_fld t l e false he l _ rfl
  unfold State.afterGroup
  extract_lets done loaded faulted reported clipped
  have faults : faulted.fld l F.CE_STAT_TV_OK = s.fld l F.CE_STAT_TV_OK := by
    refine List.foldrRecOn (motive := fun t => State.fld t l F.CE_STAT_TV_OK = s.fld l F.CE_STAT_TV_OK) _ _
      (congrArg (fun w => bits w _ _) (State.word_modLane _ _ _ _ _ rfl)) fun t kept k _ => ?_
    have entry : (F.CE_NF_NF (k / 32 % 16)).addr ≠ 0x10044 := by
      simp only [F.CE_NF_NF]
      omega
    exact (put _ F.CE_NF_LAST_KIDX k (by decide)).trans
      ((put _ F.CE_NF_LAST_NF_CNT _ (by decide)).trans ((put t ⟨_, k % 32, 1⟩ 1 entry).trans kept))
  have reports : reported.fld l F.CE_STAT_TV_OK = s.fld l F.CE_STAT_TV_OK := by
    dsimp only [reported]
    split
    · exact faults
    · exact (pulse _ _ (by simp)).trans faults
  have clips : clipped.fld l F.CE_STAT_TV_OK = s.fld l F.CE_STAT_TV_OK := by
    dsimp only [clipped]
    split
    · exact reports
    · exact (pulse _ _ (by simp)).trans
        ((put _ F.CE_SP_STAT_CLIP 1 (by decide)).trans ((put _ F.CE_SP_STAT_CLIP_CNT _ (by decide)).trans reports))
  split
  · exact (pulse _ _ (by simp)).trans clips
  · exact clips

theorem State.group_tvOk (s : State) (l : Lane) (rate : Nat) : (s.group l rate).fld l F.CE_STAT_TV_OK = s.fld l F.CE_STAT_TV_OK := by
  unfold State.group
  split
  · exact s.afterGroup_tvOk l rate _
  · rfl

/-! ### What a slow cycle begins with -/

/-- The stall derating a slow cycle later (R229). -/
def State.deratedNext (s : State) (l : Lane) : Nat :=
  if s.flag l F.TRC_SM_STAT_STALL_DER then
    (if s.fld l F.TRC_STALL_CFG_STALL_PCT < (s.lane l).trc.derate then (s.lane l).trc.derate - 1 else (s.lane l).trc.derate)
  else min 100 ((s.lane l).trc.derate + 1)

theorem State.derateStep_eq (s : State) (l : Lane) : s.derateStep l = s.modTrc l (fun t => { t with derate := s.deratedNext l }) := rfl

theorem State.Only.deratedNext_eq {g : Foot} {a s : State} (h : a.Only g s) (trc : .trc ∉ g.parts)
    (stat : g.has F.TRC_SM_STAT_STALL_DER.addr = false) (cfg : g.has F.TRC_STALL_CFG_STALL_PCT.addr = false) (l : Lane) :
    s.deratedNext l = a.deratedNext l := by
  have same : (a.lane l).trc = (s.lane l).trc := h.1 .trc trc l
  simp only [State.deratedNext, State.flag, h.fld_eq l stat, h.fld_eq l cfg, same]

/-- t shows good test vectors, has the counts of one slow cycle at zero, and derates to d. -/
structure State.SlowBegun (l : Lane) (d : Nat) (t : State) : Prop where
  vectors : t.fld l F.CE_STAT_TV_OK = 1
  glitch : (t.lane l).fbk.glitch = 0
  crcErrs : (t.lane l).red.crcErrs = 0
  derate : (t.lane l).trc.derate = d

/-- The test vectors are shown good, and the counts begin anew. -/
def State.slowClear (s : State) (l : Lane) : State :=
  ((s.put l F.CE_STAT_TV_OK 1).modFbk l (fun f => { f with glitch := 0 })).modRed l (fun r => { r with crcErrs := 0 })

theorem State.slowClear_only (s : State) (l : Lane) : s.Only ⟨[.fbk, .red], [0x10], false⟩ (s.slowClear l) :=
  ((State.Only.refl.put l _ _ (by decide)).fbk l _ (by decide)).red l _ (by decide)

theorem State.slowClear_begins (s : State) (l : Lane) : ((s.slowClear l).derateStep l).SlowBegun l (s.deratedNext l) := by
  rw [State.derateStep_eq, (s.slowClear_only l).deratedNext_eq (by decide) (by decide) (by decide)]
  refine ⟨?_, ?_, ?_, ?_⟩
  · simp only [State.slowClear, State.fld, State.word_modTrc, State.word_modRed, State.word_modFbk]
    exact State.fld_put_same s l F.CE_STAT_TV_OK 1 (by decide)
  · simp [State.slowClear]
  · simp [State.slowClear]
  · simp

/-- Parts of a slow cycle that leave CE_STAT, and the parts it began anew, alone. -/
theorem State.SlowBegun.only {l : Lane} {d : Nat} {g : Foot} {t u : State} (h : t.SlowBegun l d) (k : t.Only g u) (fbk : .fbk ∉ g.parts)
    (red : .red ∉ g.parts) (trc : .trc ∉ g.parts) (vectors : u.fld l F.CE_STAT_TV_OK = t.fld l F.CE_STAT_TV_OK) : u.SlowBegun l d := by
  have sameFbk : (t.lane l).fbk = (u.lane l).fbk := k.1 .fbk fbk l
  have sameRed : (t.lane l).red = (u.lane l).red := k.1 .red red l
  have sameTrc : (t.lane l).trc = (u.lane l).trc := k.1 .trc trc l
  exact ⟨vectors.trans h.vectors, sameFbk ▸ h.glitch, sameRed ▸ h.crcErrs, sameTrc ▸ h.derate⟩

theorem State.SlowBegun.overrun {l : Lane} {d : Nat} {t : State} (h : t.SlowBegun l d) (group n : Nat) : (t.overrun l group n).SlowBegun l d := by
  have kept := t.overrun_ceRed_only l group n
  have sameFbk : (t.lane l).fbk = ((t.overrun l group n).lane l).fbk := kept.1 .fbk (by decide) l
  have sameTrc : (t.lane l).trc = ((t.overrun l group n).lane l).trc := kept.1 .trc (by decide) l
  exact ⟨(t.overrun_tvOk l group n).trans h.vectors, sameFbk ▸ h.glitch, (t.overrun_crcErrs l group n).trans h.crcErrs, sameTrc ▸ h.derate⟩

/-- The windows and the slow group run where no overrun skips them. -/
theorem State.SlowBegun.group {l : Lane} {d : Nat} {t : State} (h : t.SlowBegun l d) (rate : Nat) :
    ((t.captures l rate).group l rate).SlowBegun l d := by
  have captured : t.Only {} (t.captures l rate) := State.captures_only .refl l rate (by decide)
  have ran : (t.captures l rate).Only ⟨[.mem, .eng], [0x10], false⟩ ((t.captures l rate).group l rate) :=
    State.group_only .refl l rate (by decide)
  exact (h.only captured (by decide) (by decide) (by decide) (captured.fld_eq l (by decide))).only ran (by decide) (by decide) (by decide)
    (State.group_tvOk _ l rate)

/-- The parts of a slow cycle that an overrun does not skip, after the derating. -/
def State.slowParts (s : State) (l : Lane) : State := (s.splitCount l).dclSlow l

theorem State.slowParts_only (s : State) (l : Lane) : s.Only ⟨[.smp, .dcl], [0x30, 0x40], false⟩ (s.slowParts l) :=
  State.dclSlow_only (State.splitCount_only .refl l (by decide)) l (by decide)

theorem State.splitCount_self (s : State) (l : Lane) : (s.splitCount l).self l = s.self l := by
  unfold State.splitCount
  dsimp only
  split
  · rfl
  · exact State.fld_put_ne _ _ _ _ _ _ (by decide)

theorem State.slowParts_self (s : State) (l : Lane) : (s.slowParts l).self l = s.self l := by
  have kept : (s.splitCount l).Only ⟨[.smp, .dcl], [0x30], false⟩ (s.slowParts l) := State.dclSlow_only .refl l (by decide)
  exact (kept.fld_eq l (by decide)).trans (s.splitCount_self l)

theorem State.SlowBegun.parts {l : Lane} {d : Nat} {t : State} (h : t.SlowBegun l d) : (t.slowParts l).SlowBegun l d :=
  h.only (t.slowParts_only l) (by decide) (by decide) (by decide) ((t.slowParts_only l).fld_eq l (by decide))

section
variable {s : State} {l : Lane}

/-! ### A lane that boots, and one that runs -/

theorem mediumCycleStart_boots (boots : s.ready l = false) (ovr : Bool) (g : GridMeas) :
    Completes (exec (.mediumCycleStart l ovr g) s) fun u => u = s := by
  have run : exec (.mediumCycleStart l ovr g) s = done s := if_pos (by simp [boots])
  rw [run]
  exact completes_done rfl

theorem slowCycleStart_boots (boots : s.ready l = false) (ovr tv : Bool) :
    Completes (exec (.slowCycleStart l ovr tv) s) fun u => u = s := by
  have run : exec (.slowCycleStart l ovr tv) s = done s := if_pos (by simp [boots])
  rw [run]
  exact completes_done rfl

theorem State.runs_guard (ready : s.ready l = true) (well : s.failed l = false) (test : s.self l ≠ 4) :
    ¬(!s.ready l || s.failed l || s.self l == 4) = true := by
  simp [ready, well, test]

/-! ### Medium cycles -/

theorem State.loadTorque_loads (s : State) (l : Lane) :
    ((s.loadTorque l).lane l).eng.tLoad = mw ((s.loadTorque l).lane l).mem (b10Wire (Config.trcWire 0)) ∧
    (((s.loadTorque l).lane l).eng.txExch.length = 16 →
      ((s.loadTorque l).lane l).eng.txExch[11]? = some ((s.loadTorque l).lane l).eng.tLoad) := by
  simp only [State.loadTorque, State.lane_modEng, true_and]
  intro full
  split at full
  · cases full
  · next some =>
    rw [List.length_set] at full
    rw [if_neg some, List.getElem?_set_self (by omega)]

theorem mediumCycleStart_loads (ready : s.ready l = true) (well : s.failed l = false) (test : s.self l ≠ 4) (g : GridMeas) :
    Completes (exec (.mediumCycleStart l false g) s) fun u =>
      (u.lane l).eng.tLoad = mw (u.lane l).mem (b10Wire (Config.trcWire 0)) ∧
      ((u.lane l).eng.txExch.length = 16 → (u.lane l).eng.txExch[11]? = some (u.lane l).eng.tLoad) := by
  have run : exec (.mediumCycleStart l false g) s = _ := if_neg (State.runs_guard ready well test)
  rw [run]
  exact completes_done (State.loadTorque_loads _ l)

theorem mediumCycleStart_overruns (ready : s.ready l = true) (well : s.failed l = false) (test : s.self l ≠ 4) (g : GridMeas) :
    Completes (exec (.mediumCycleStart l true g) s) fun u =>
      (u.lane l).eng.ovrMed = (s.lane l).eng.ovrMed + 1 ∧ (u.lane l).eng.tLoad = (s.lane l).eng.tLoad ∧ u.fld l F.CE_STAT_OVR_GRP = 2 ∧
      u.fld l F.CE_STAT_OVR_CNT = satAdd 16 (s.fld l F.CE_STAT_OVR_CNT) 1 ∧
      (s.present l E.CE_OVERRUN = false → u.pended l E.CE_OVERRUN = true) ∧
      (1 ≤ (s.lane l).eng.ovrMed → u.self l = 3 ∧ u.fld l F.RED_STAT_SELF_CAUSE = 4) := by
  obtain ⟨n, count, run⟩ : ∃ n, n = (s.lane l).eng.ovrMed + 1 ∧
      exec (.mediumCycleStart l true g) s = done ((s.modEng l (fun e => { e with ovrMed := n })).overrun l 2 n) :=
    ⟨_, rfl, if_neg (State.runs_guard ready well test)⟩
  have counted : s.Only ⟨[.eng], [], false⟩ (s.modEng l (fun e => { e with ovrMed := n })) := State.Only.refl.eng l _ (by decide)
  have eng : ((s.modEng l (fun e => { e with ovrMed := n })).lane l).eng = { (s.lane l).eng with ovrMed := n } := by rw [State.lane_modEng]
  have words := State.word_modEng s l l (fun e => { e with ovrMed := n })
  generalize s.modEng l (fun e => { e with ovrMed := n }) = t at run counted eng words
  have same : (t.lane l).eng = ((t.overrun l 2 n).lane l).eng := (t.overrun_ceRed_only l 2 n).1 .eng (by decide) l
  have readyT : t.ready l = true := (counted.ready_eq (by decide) (by decide) (by decide) l).trans ready
  have wellT : t.failed l = false := (congrArg (· == 3) (counted.fld_eq l (by decide))).trans well
  obtain ⟨group, overruns⟩ := t.overrun_counts l 2 n
  rw [run]
  refine completes_done ⟨by rw [← same, eng, count], by rw [← same, eng], group, by rw [overruns, counted.fld_eq l (by decide)],
    fun absent => ?_, fun again => State.overrun_fails readyT wellT 2 (by omega)⟩
  exact State.overrun_pended (State.inReset_of_ready readyT) (by rw [State.present, words]; exact absent) 2 n

/-! ### Slow cycles -/

theorem slowCycleStart_badVectors (ready : s.ready l = true) (well : s.failed l = false) (test : s.self l ≠ 4) (ovr : Bool) :
    Completes (exec (.slowCycleStart l ovr false) s) fun u =>
      u.flag l F.CE_STAT_TV_OK = false ∧ u.self l = 3 ∧ u.fld l F.RED_STAT_SELF_CAUSE = 3 ∧
      (s.present l E.CE_TEST_FAIL = false → u.pended l E.CE_TEST_FAIL = true) := by
  obtain ⟨n, run⟩ : ∃ n, exec (.slowCycleStart l ovr false) s =
      (let t := (s.modEng l (fun e => { e with ovrSlow := n })).testVectors l false
       if t.failed l then done t else _) := ⟨_, if_neg (State.runs_guard ready well test)⟩
  have words : ∀ m, (s.modEng l (fun e => { e with ovrSlow := n })).word l m = s.word l m := fun m => State.word_modEng ..
  have begun : s.Only ⟨[.eng], [], false⟩ (s.modEng l (fun e => { e with ovrSlow := n })) := State.Only.refl.eng l _ (by decide)
  dsimp only at run
  generalize s.modEng l (fun e => { e with ovrSlow := n }) = t at run words begun
  obtain ⟨off, self, cause, pended⟩ := t.testVectors_fail
    ((begun.ready_eq (by decide) (by decide) (by decide) l).trans ready) ((congrArg (fun v => v == 3) (begun.fld_eq l (by decide))).trans well)
  rw [run, if_pos (by simp [State.failed, self])]
  exact completes_done ⟨off, self, cause, fun absent => pended (by rw [State.present, words]; exact absent)⟩

theorem slowCycleStart_begins (ready : s.ready l = true) (well : s.failed l = false) (test : s.self l ≠ 4) (ovr : Bool) :
    Completes (exec (.slowCycleStart l ovr true) s) fun u =>
      u.flag l F.CE_STAT_TV_OK = true ∧ (u.lane l).fbk.glitch = 0 ∧ (u.lane l).red.crcErrs = 0 ∧
      (u.lane l).trc.derate = s.deratedNext l ∧
      (ovr = true → u.fld l F.CE_STAT_OVR_GRP = 1 ∧ (1 ≤ (s.lane l).eng.ovrSlow → u.self l = 3)) := by
  obtain ⟨n, count, run⟩ : ∃ n, (ovr = true → n = (s.lane l).eng.ovrSlow + 1) ∧ exec (.slowCycleStart l ovr true) s =
      let t := s.modEng l (fun e => { e with ovrSlow := n })
      let u := ((t.slowClear l).derateStep l).slowParts l
      if (t.put l F.CE_STAT_TV_OK 1).failed l then done (t.put l F.CE_STAT_TV_OK 1)
      else if ovr then done (u.overrun l 1 n) else done ((u.captures l 1).group l 1) :=
    ⟨if ovr then (s.lane l).eng.ovrSlow + 1 else 0, fun late => if_pos late, if_neg (State.runs_guard ready well test)⟩
  have counted : s.Only ⟨[.eng], [], false⟩ (s.modEng l (fun e => { e with ovrSlow := n })) := State.Only.refl.eng l _ (by decide)
  dsimp only at run
  generalize s.modEng l (fun e => { e with ovrSlow := n }) = t at run counted
  have begun : (((t.slowClear l).derateStep l).slowParts l).SlowBegun l (s.deratedNext l) :=
    counted.deratedNext_eq (by decide) (by decide) (by decide) l ▸ (t.slowClear_begins l).parts
  have start : s.Only ⟨[.eng, .fbk, .red, .trc], [0x10], false⟩ ((t.slowClear l).derateStep l) :=
    State.derateStep_only ((counted.wider (by decide)).trans ((t.slowClear_only l).wider (by decide))) l (by decide)
  generalize (t.slowClear l).derateStep l = b at run begun start
  have wellT : (t.put l F.CE_STAT_TV_OK 1).failed l = false := by
    rw [State.failed, State.self, State.fld_put_ne _ _ _ _ _ _ (by decide), counted.fld_eq l (by decide)]
    exact well
  rw [run, if_neg (by simp [wellT])]
  cases ovr with
  | false =>
    obtain ⟨vectors, glitch, crcErrs, derate⟩ := begun.group 1
    exact completes_done ⟨by rw [State.flag, vectors]; rfl, glitch, crcErrs, derate, fun late => nomatch late⟩
  | true =>
    obtain ⟨vectors, glitch, crcErrs, derate⟩ := begun.overrun 1 n
    have readyU : (b.slowParts l).ready l = true := by
      rw [(b.slowParts_only l).ready_eq (by decide) (by decide) (by decide), start.ready_eq (by decide) (by decide) (by decide), ready]
    have wellU : (b.slowParts l).failed l = false :=
      (congrArg (· == 3) ((b.slowParts_self l).trans (start.fld_eq l (by decide)))).trans well
    exact completes_done ⟨by rw [State.flag, vectors]; rfl, glitch, crcErrs, derate, fun _ => ⟨(State.overrun_counts ..).1,
      fun again => (State.overrun_fails readyU wellU 1 (by have := count rfl; omega)).1⟩⟩

end

/-- Settles O60: a lane that boots has no cycles; in one that runs, a medium start ends with the torque command or is counted as an
overrun, and a slow start fails on bad test vectors or begins its counts anew, which its other parts leave alone. That the counts begin
anew and the derating moves at an overrun, too, is the model's choice (assumption 42). -/
theorem mediumAndSlowCycles : Obligations.MediumAndSlowCycles := fun _ _ =>
  ⟨fun boots => ⟨mediumCycleStart_boots boots, slowCycleStart_boots boots⟩, fun ready well test =>
    ⟨mediumCycleStart_loads ready well test, mediumCycleStart_overruns ready well test, slowCycleStart_badVectors ready well test,
      slowCycleStart_begins ready well test⟩⟩

end Sys2Proof.Machine
end

section
/-! PROOF. What the sensors' checks do to a lane (R120 to R129): a source faulted, an error counted and reported, and what both leave. -/
namespace Sys2Proof.Machine

/-! ### A source faulted -/

theorem bit_eq_bits (w : Word) (n : Nat) : bit w n = (bits w n 1 != 0) := by
  rw [bit, bits, BitVec.getLsbD, Nat.testBit, Nat.and_comm, Nat.and_one_is_mod, Nat.pow_one]

/-- The field of FBK_STAT that holds a source's fault. -/
def faultFld (x : Src) : Fld := ⟨F.FBK_STAT_FAULT.addr, 16 + x.idx, 1⟩

theorem faultFld_fits (x : Src) : (faultFld x).lo + (faultFld x).w ≤ 32 := by cases x <;> decide

theorem faultFld_apart (x : Src) {f : Fld} (h : f.lo + f.w ≤ 16 ∨ 21 ≤ f.lo) :
    f.lo + f.w ≤ (faultFld x).lo ∨ (faultFld x).lo + (faultFld x).w ≤ f.lo := by
  have place : 16 ≤ (faultFld x).lo ∧ (faultFld x).lo + (faultFld x).w ≤ 21 := by cases x <;> decide
  omega

theorem State.srcFaulted_eq (s : State) (l : Lane) (x : Src) : s.srcFaulted l x = s.flag l (faultFld x) := bit_eq_bits ..

theorem State.putFault_srcFaulted (s : State) (l : Lane) (x : Src) (b : Bool) : (s.putFlag l (faultFld x) b).srcFaulted l x = b := by
  rw [State.srcFaulted_eq, State.flag, State.putFlag, State.fld_put_same _ _ _ _ (faultFld_fits x)]
  cases b <;> rfl

theorem State.faultSrc_faults (s : State) (l : Lane) (x : Src) : (s.faultSrc l x).srcFaulted l x = true := by
  rw [State.srcFaulted, State.faultSrc, State.word_modFbk]
  exact s.putFault_srcFaulted l x true

theorem State.faultSrc_word (s : State) (l k : Lane) (x : Src) {n : Nat} (h : F.FBK_STAT_FAULT.addr ≠ n) :
    (s.faultSrc l x).word k n = s.word k n := by
  rw [State.faultSrc, State.word_modFbk]
  exact State.word_put_ne s l k (faultFld x) 1 n h

/-- The rest of FBK_STAT keeps its value. -/
theorem State.faultSrc_fld (s : State) (l : Lane) (x : Src) {f : Fld} (h : f.lo + f.w ≤ 16 ∨ 21 ≤ f.lo) :
    (s.faultSrc l x).fld l f = s.fld l f := by
  have put := State.fld_put_apart s l l (faultFld x) f 1 (faultFld_fits x) (faultFld_apart x h)
  rw [State.faultSrc, State.fld, State.word_modFbk]
  exact put

/-- t comes from a by faults of sources and by events. -/
structure State.Faults (l : Lane) (a t : State) : Prop where
  fbk : ∃ q, (t.lane l).fbk = { (a.lane l).fbk with qual := q }
  word : ∀ n, evAddr n = false → n ≠ 0x25040 → t.word l n = a.word l n

namespace State.Faults
variable {l : Lane} {a b t : State}

theorem refl : a.Faults l a := ⟨⟨_, rfl⟩, fun _ _ _ => rfl⟩

theorem faultSrc (h : a.Faults l t) (x : Src) : a.Faults l (t.faultSrc l x) := by
  obtain ⟨⟨q, fbk⟩, word⟩ := h
  refine ⟨⟨q &&& ~~~(1#5 <<< x.idx), ?_⟩, fun n plain apart => (t.faultSrc_word l l x (Ne.symm apart)).trans (word n plain apart)⟩
  simp [State.faultSrc, fbk]

theorem events (h : a.Faults l b) (k : b.EvOnly t) : a.Faults l t := by
  obtain ⟨⟨q, fbk⟩, word⟩ := h
  have same : (b.lane l).fbk = (t.lane l).fbk := k.only.1 .fbk (by decide) l
  exact ⟨⟨q, same ▸ fbk⟩, fun n plain apart => (k.word l n plain).trans (word n plain apart)⟩

theorem pulse (h : a.Faults l t) (e : Ev) (he : State.EvOnly.Proper e) : a.Faults l (t.pulseEv l e) :=
  h.events (State.pulseEv_only _ _ _ _ he)

/-- A check that faults a source and reports it, or leaves the state. -/
theorem check (h : a.Faults l t) (c : Prop) [Decidable c] (x : Src) {e : Ev} (he : State.EvOnly.Proper e) :
    a.Faults l (if c then (t.faultSrc l x).pulseEv l e else t) := by
  split
  · exact (h.faultSrc x).pulse e he
  · exact h

theorem fld (h : a.Faults l t) {f : Fld} (plain : evAddr f.addr = false) (apart : f.addr ≠ 0x25040) : t.fld l f = a.fld l f :=
  congrArg (fun w => bits w f.lo f.w) (h.word f.addr plain apart)

end State.Faults

/-! ### An error counted -/

/-- t comes from a by counting an error in the field f of FBK_FLT_CNT, by g, and by faults and events. -/
structure State.Counted (l : Lane) (f : Fld) (g : FbkState → FbkState) (a t : State) : Prop where
  fbk : ∃ q, (t.lane l).fbk = { g (a.lane l).fbk with qual := q }
  count : t.fld l f = satAdd f.w (a.fld l f) 1
  word : ∀ n, evAddr n = false → n ≠ 0x25040 → n ≠ 0x25068 → t.word l n = a.word l n

namespace State.Counted
variable {l : Lane} {f : Fld} {g : FbkState → FbkState} {a b t : State}

theorem bump (addr : f.addr = 0x25068) (fits : f.lo + f.w ≤ 32) (h : (a.bump l f).EvOnly b) : a.Counted l f g (b.modFbk l g) := by
  have plain : evAddr f.addr = false := addr ▸ rfl
  have fbk : ((a.bump l f).lane l).fbk = (b.lane l).fbk := h.only.1 .fbk (by decide) l
  refine ⟨⟨(g (a.lane l).fbk).qual, ?_⟩, ?_, fun n hn _ apart => ?_⟩
  · rw [State.lane_modFbk, ← fbk]
    simp
  · rw [State.fld, State.word_modFbk, h.word l _ plain]
    exact State.fld_bump_same a l f 1 fits
  · rw [State.word_modFbk, h.word l n hn, State.bump, State.word_put_ne _ _ _ _ _ _ (addr ▸ Ne.symm apart)]

theorem after (plain : evAddr f.addr = false) (h : a.EvOnly b) (k : b.Counted l f g t) : a.Counted l f g t := by
  have fbk : (a.lane l).fbk = (b.lane l).fbk := h.only.1 .fbk (by decide) l
  exact ⟨fbk ▸ k.fbk, by rw [k.count, State.fld, State.fld, h.word l _ plain], fun n hn one two => (k.word n hn one two).trans (h.word l n hn)⟩

theorem faults (addr : f.addr = 0x25068) (h : a.Counted l f g b) (k : b.Faults l t) : a.Counted l f g t := by
  obtain ⟨q, fbk⟩ := h.fbk
  obtain ⟨r, fbk'⟩ := k.fbk
  refine ⟨⟨r, by rw [fbk', fbk]⟩, ?_, fun n hn one two => (k.word n hn one).trans (h.word n hn one two)⟩
  rw [k.fld (addr ▸ rfl) (addr ▸ by decide), h.count]

end State.Counted

theorem State.encGlitch_counted (s : State) (l : Lane) :
    s.Counted l F.FBK_FLT_CNT_GLITCH (fun f => { f with glitch := f.glitch + 1 }) (s.encGlitch l) := by
  have pulse : s.EvOnly (s.pulseEv l E.FBK_ENC_GLITCH) := State.pulseEv_only _ _ _ _ (by simp)
  exact ((State.Counted.bump rfl (by decide) .refl).after rfl pulse).faults rfl (State.Faults.refl.check _ _ (by simp))

theorem State.hallIllegal_counted (s : State) (l : Lane) :
    s.Counted l F.FBK_FLT_CNT_HALL (fun f => { f with hallBad := f.hallBad + 1 }) (s.hallIllegal l) := by
  have pulse : (s.bump l F.FBK_FLT_CNT_HALL).EvOnly ((s.bump l F.FBK_FLT_CNT_HALL).pulseEv l E.FBK_HALL_ILLEGAL) :=
    State.pulseEv_only _ _ _ _ (by simp)
  exact (State.Counted.bump rfl (by decide) pulse).faults rfl (State.Faults.refl.check _ _ (by simp))

theorem State.ssiError_counted (s : State) (l : Lane) :
    s.Counted l F.FBK_FLT_CNT_SSI (fun f => { f with ssiBad := f.ssiBad + 1 }) (s.ssiError l) := by
  have pulse : (s.bump l F.FBK_FLT_CNT_SSI).EvOnly ((s.bump l F.FBK_FLT_CNT_SSI).pulseEv l E.FBK_SSI_ERR) :=
    State.pulseEv_only _ _ _ _ (by simp)
  have counted : s.Counted l F.FBK_FLT_CNT_SSI (fun f => { f with ssiBad := f.ssiBad + 1 }) _ := .bump rfl (by decide) pulse
  unfold State.ssiError
  dsimp only
  split
  · exact counted.faults rfl (State.Faults.refl.faultSrc .ssi)
  · exact counted

end Sys2Proof.Machine
end

section
/-! PROOF. O18: what each position sensor gives (R118 to R129). -/
namespace Sys2Proof.Machine

section
variable {s : State} {l : Lane}

/-! ### The encoder -/

theorem State.encAdd_count (s : State) (l : Lane) (d : Int) :
    (s.encAdd l d).word l F.FBK_ENC_CNT_CNT.addr = s.word l F.FBK_ENC_CNT_CNT.addr + BitVec.ofInt 32 d :=
  State.word_putWord_same ..

/-- What an edge of one channel leaves before its spacing is judged. -/
structure State.Edged (a t : State) (l : Lane) (pa pb : Bool) : Prop where
  count : t.word l F.FBK_ENC_CNT_CNT.addr = a.word l F.FBK_ENC_CNT_CNT.addr +
    BitVec.ofInt 32 (if Config.encUp (a.lane l).fbk.pa (a.lane l).fbk.pb pa pb then 1 else -1)
  pa : (t.lane l).fbk.pa = pa
  pb : (t.lane l).fbk.pb = pb
  edge : (t.lane l).fbk.lastEdge = some a.time

theorem State.Edged.glitch {a t : State} {pa pb : Bool} (h : a.Edged t l pa pb) : a.Edged (t.encGlitch l) l pa pb := by
  obtain ⟨⟨q, fbk⟩, -, word⟩ := t.encGlitch_counted l
  refine ⟨(word _ rfl (by decide) (by decide)).trans h.count, ?_, ?_, ?_⟩ <;> rw [fbk]
  · exact h.pa
  · exact h.pb
  · exact h.edge

theorem State.Edged.judged {a t : State} {pa pb : Bool} (h : a.Edged t l pa pb) (early : Bool) :
    a.Edged (if early then t.encGlitch l else t) l pa pb := by
  cases early
  · exact h
  · exact h.glitch

theorem State.Edged.shows {a t : State} {pa pb : Bool} (h : a.Edged t l pa pb) :
    t.word l F.FBK_ENC_CNT_CNT.addr = a.word l F.FBK_ENC_CNT_CNT.addr +
      BitVec.ofInt 32 (if Config.encUp (a.lane l).fbk.pa (a.lane l).fbk.pb pa pb then 1 else -1) ∧
    (t.lane l).fbk.pa = pa ∧ (t.lane l).fbk.pb = pb ∧ (t.lane l).fbk.lastEdge = some a.time := ⟨h.count, h.pa, h.pb, h.edge⟩

/-- An edge of one channel is a change, and no illegal one. -/
theorem one_of_two_moved : ∀ {a b x y : Bool}, (a != x) ≠ (b != y) → (a == x && b == y) = false ∧ (a != x && b != y) = false := by decide

theorem encEdge_counts (live : s.inReset l = false) {pa pb : Bool} (one : (pa != (s.lane l).fbk.pa) ≠ (pb != (s.lane l).fbk.pb)) :
    Completes (exec (.encEdge l pa pb) s) fun u =>
      u.word l F.FBK_ENC_CNT_CNT.addr = s.word l F.FBK_ENC_CNT_CNT.addr +
        BitVec.ofInt 32 (if Config.encUp (s.lane l).fbk.pa (s.lane l).fbk.pb pa pb then 1 else -1) ∧
      (u.lane l).fbk.pa = pa ∧ (u.lane l).fbk.pb = pb ∧ (u.lane l).fbk.lastEdge = some s.time := by
  obtain ⟨moved, legal⟩ := one_of_two_moved one
  change Completes (execEncEdge l pa pb s) _
  unfold execEncEdge
  simp only [live, moved, legal, Bool.false_eq_true, if_false]
  refine completes_done (State.Edged.shows (State.Edged.judged ?_ _))
  constructor
  · simp [State.encAdd_count]
  · simp [State.encAdd]
  · simp [State.encAdd]
  · simp [State.encAdd]

theorem encEdge_glitches (live : s.inReset l = false) :
    Completes (exec (.encEdge l (!(s.lane l).fbk.pa) (!(s.lane l).fbk.pb)) s) fun u =>
      u.word l F.FBK_ENC_CNT_CNT.addr = s.word l F.FBK_ENC_CNT_CNT.addr ∧ (u.lane l).fbk.pa = !(s.lane l).fbk.pa ∧
      (u.lane l).fbk.glitch = (s.lane l).fbk.glitch + 1 ∧ u.fld l F.FBK_FLT_CNT_GLITCH = satAdd 8 (s.fld l F.FBK_FLT_CNT_GLITCH) 1 := by
  have run : exec (.encEdge l (!(s.lane l).fbk.pa) (!(s.lane l).fbk.pb)) s =
      done ((s.modFbk l (fun f => { f with pa := !(s.lane l).fbk.pa, pb := !(s.lane l).fbk.pb })).encGlitch l) := by
    change execEncEdge l _ _ s = _
    unfold execEncEdge
    simp [live]
  obtain ⟨⟨q, fbk⟩, count, word⟩ :=
    (s.modFbk l (fun f => { f with pa := !(s.lane l).fbk.pa, pb := !(s.lane l).fbk.pb })).encGlitch_counted l
  rw [run]
  refine completes_done ⟨?_, ?_, ?_, ?_⟩
  · rw [word _ rfl (by decide) (by decide), State.word_modFbk]
  · rw [fbk]; simp
  · rw [fbk]; simp
  · rw [count, State.fld, State.word_modFbk]; rfl

/-! ### The index -/

/-- The comparison with the previous index pulse changes FBK_IDX_ERR, its count and the encoder's fault alone. -/
theorem State.indexCheck_word (s : State) (l : Lane) (prev cnt : Word) {n : Nat} (plain : evAddr n = false) (stat : n ≠ 0x25040)
    (count : n ≠ 0x25068) (err : n ≠ 0x25060) : (s.indexCheck l prev cnt).word l n = s.word l n := by
  have putErr : ∀ (t : State) (f : Fld) (v : Nat), f.addr = 0x25060 → (t.put l f v).word l n = t.word l n := fun t f v h =>
    State.word_put_ne _ _ _ _ _ _ (h ▸ Ne.symm err)
  have putCount : ∀ (t : State) (v : Nat), (t.put l F.FBK_FLT_CNT_IDX v).word l n = t.word l n := fun t v =>
    State.word_put_ne _ _ _ _ _ _ (Ne.symm count)
  have pulse : ∀ t : State, (t.pulseEv l E.FBK_INDEX_MISMATCH).word l n = t.word l n := fun t =>
    State.pulseEv_word _ _ _ _ (by simp) _ _ plain
  unfold State.indexCheck
  extract_lets d n4 e clamp shown drifted counted reported
  have drift : drifted.word l n = s.word l n := (putErr _ _ _ rfl).trans (putErr _ _ _ rfl)
  split
  · exact (putErr _ _ _ rfl).trans drift
  · have report : reported.word l n = s.word l n := (pulse _).trans ((putErr _ _ _ rfl).trans ((putCount _ _).trans drift))
    exact ((State.Faults.refl.check _ .enc (by simp)).word n plain stat).trans report

theorem indexLatch_keeps (live : s.inReset l = false) (enabled : s.flag l F.FBK_ENC_CFG_IDX_EN = true) :
    Completes (exec (.indexLatch l) s) fun u =>
      u.word l F.FBK_IDX_CNT_CNT.addr = s.word l F.FBK_ENC_CNT_CNT.addr ∧
      u.word l F.FBK_IDX_TS_LO_TS.addr = (s.stamp l).setWidth 32 ∧
      u.word l F.FBK_IDX_TS_HI_TS.addr = (s.stamp l >>> 32).setWidth 32 ∧
      (u.lane l).fbk.latch = some (s.word l F.FBK_ENC_CNT_CNT.addr) ∧
      ((s.lane l).fbk.latch = none → s.flag l F.FBK_STAT_ENC_REF = false →
        u.word l F.FBK_IDX_REF_REF.addr = s.word l F.FBK_ENC_CNT_CNT.addr ∧ u.flag l F.FBK_STAT_ENC_REF = true) := by
  change Completes (execIndexLatch l s) _
  unfold execIndexLatch
  rw [if_neg (by rw [live, enabled]; decide)]
  extract_lets cnt f numbered ts stored referenced judged
  have time : ts = s.stamp l := by simp [ts, numbered, State.stamp]
  have reference : ∀ n, n ≠ 0x25040 → n ≠ 0x25050 → referenced.word l n = stored.word l n := fun n stat ref => by
    dsimp only [referenced]
    split
    · exact (State.word_put_ne _ _ _ F.FBK_STAT_ENC_REF 1 _ (Ne.symm stat)).trans (State.word_putWord_ne _ _ _ _ _ _ (Ne.symm ref))
    · rfl
  have kept : ∀ n, evAddr n = false → n ≠ 0x25040 → n ≠ 0x25050 → n ≠ 0x25060 → n ≠ 0x25068 → judged.word l n = stored.word l n :=
    fun n plain stat ref err count => by
      dsimp only [judged]
      split
      · split
        · exact reference n stat ref
        · exact (State.indexCheck_word _ l _ _ plain stat count err).trans (reference n stat ref)
      · exact reference n stat ref
  refine completes_done ⟨?_, ?_, ?_, ?_, fun first unknown => ?_⟩
  · rw [State.word_modFbk, kept _ rfl (by decide) (by decide) (by decide) (by decide), State.word_putWord_ne _ _ _ _ _ _ (by decide),
      State.word_putWord_ne _ _ _ _ _ _ (by decide), State.word_putWord_same]
  · rw [State.word_modFbk, kept _ rfl (by decide) (by decide) (by decide) (by decide), State.word_putWord_ne _ _ _ _ _ _ (by decide),
      State.word_putWord_same, time]
  · rw [State.word_modFbk, kept _ rfl (by decide) (by decide) (by decide) (by decide), State.word_putWord_same, time]
  · rw [State.lane_modFbk]
  · have stat : stored.word l F.FBK_STAT_ENC_REF.addr = s.word l F.FBK_STAT_ENC_REF.addr := by
      rw [State.word_putWord_ne _ _ _ _ _ _ (by decide), State.word_putWord_ne _ _ _ _ _ _ (by decide),
        State.word_putWord_ne _ _ _ _ _ _ (by decide)]
    have flag : stored.flag l F.FBK_STAT_ENC_REF = false := (congrArg (fun w => bits w _ _ != 0) stat).trans unknown
    have refs : judged = (stored.putWord l F.FBK_IDX_REF_REF.addr cnt).putFlag l F.FBK_STAT_ENC_REF true := by
      simp only [judged, f, first, referenced]
      rw [if_pos (by rw [flag]; rfl)]
    rw [State.flag, State.fld, State.word_modFbk, State.word_modFbk, refs]
    exact ⟨(State.word_put_ne _ _ _ F.FBK_STAT_ENC_REF 1 _ (by decide)).trans (State.word_putWord_same ..),
      congrArg (· != 0) (State.fld_put_same _ _ F.FBK_STAT_ENC_REF 1 (by decide))⟩

/-! ### The Hall sensors -/

/-- What a command ends with that checks a source last, as far as the sensors' own state shows it. -/
theorem completes_checked {t : State} {c : Prop} [Decidable c] {x : Src} {e : Ev} (he : State.EvOnly.Proper e) {P : FbkState → Prop}
    (h : ∀ q, P { (t.lane l).fbk with qual := q }) :
    Completes (done (if c then (t.faultSrc l x).pulseEv l e else t)) fun u => P (u.lane l).fbk := by
  obtain ⟨⟨q, fbk⟩, -⟩ := (State.Faults.refl (l := l) (a := t)).check c x he
  exact completes_done (fbk ▸ h q)

theorem hallEdge_takes (live : s.inReset l = false) {h : BitVec 3} {k : Nat}
    (legal : hallSector (s.flag l F.FBK_HALL_CFG_SEQ) h = some k) (first : (s.lane l).fbk.sector = none) :
    Completes (exec (.hallEdge l h) s) fun u => (u.lane l).fbk.sector = some k ∧ (u.lane l).fbk.hallAt = some s.time ∧
      (u.lane l).fbk.hallBad = 0 := by
  change Completes (execHallEdge l h s) _
  unfold execHallEdge
  simp only [live, legal, first, Bool.false_eq_true, if_false]
  refine completes_checked (P := fun f => f.sector = some k ∧ f.hallAt = some s.time ∧ f.hallBad = 0) (by simp) fun q => ?_
  simp

theorem hallSector_undefined (seq : Bool) {h : BitVec 3} (undefined : h = 0 ∨ h = 7) : hallSector seq h = none := by
  rcases undefined with rfl | rfl <;> rfl

theorem hallEdge_undefined (live : s.inReset l = false) {h : BitVec 3} (undefined : h = 0 ∨ h = 7) :
    Completes (exec (.hallEdge l h) s) fun u =>
      (u.lane l).fbk.sector = (s.lane l).fbk.sector ∧ (u.lane l).fbk.hallBad = (s.lane l).fbk.hallBad + 1 ∧
      u.fld l F.FBK_FLT_CNT_HALL = satAdd 8 (s.fld l F.FBK_FLT_CNT_HALL) 1 := by
  have run : exec (.hallEdge l h) s = done (s.hallIllegal l) := by
    change execHallEdge l h s = _
    unfold execHallEdge
    simp only [live, hallSector_undefined _ undefined, Bool.false_eq_true, if_false]
  obtain ⟨⟨q, fbk⟩, count, -⟩ := s.hallIllegal_counted l
  rw [run]
  exact completes_done ⟨by rw [fbk], by rw [fbk], count⟩

/-! ### The resolver -/

theorem State.Faults.resCheck {a t : State} (h : a.Faults l t) (n : Nat) {e : Ev} (he : State.EvOnly.Proper e) :
    a.Faults l (t.resCheck l n e) := by
  unfold State.resCheck
  exact h.check _ .res he

/-- A word put together from three fields. -/
theorem toNat_append_fields (a : BitVec 16) (b c : BitVec 8) :
    (a ++ b ++ c : BitVec 32).toNat = a.toNat * 65536 + b.toNat * 256 + c.toNat := by
  rw [BitVec.toNat_append, BitVec.toNat_append, ← Nat.shiftLeft_add_eq_or_of_lt b.isLt, ← Nat.shiftLeft_add_eq_or_of_lt c.isLt,
    Nat.shiftLeft_eq, Nat.shiftLeft_eq]
  omega

theorem bits_append_fields (a : BitVec 16) (b c : BitVec 8) :
    bits (a ++ b ++ c : BitVec 32) 16 16 = a.toNat ∧ bits (a ++ b ++ c : BitVec 32) 8 8 = b.toNat := by
  have ha := a.isLt
  have hb := b.isLt
  have hc := c.isLt
  simp only [bits, toNat_append_fields, Nat.shiftRight_eq_div_pow]
  omega

theorem resTrackUpdate_keeps (live : s.inReset l = false) (angle : BitVec 24) (speed : Word) (amp : BitVec 16) (full : Bool)
    (err : BitVec 16) (phase : BitVec 8) : Completes (exec (.resTrackUpdate l angle speed amp full err phase) s) fun u =>
      (u.lane l).fbk.res = some (angle, speed, s.time) ∧
      bits (u.word l F.FBK_RES_STAT_AMP.addr) 16 16 = amp.toNat ∧ bits (u.word l F.FBK_RES_STAT_AMP.addr) 8 8 = phase.toNat := by
  change Completes (execResTrackUpdate l angle speed amp full err phase s) _
  unfold execResTrackUpdate
  rw [if_neg (by simp [live])]
  extract_lets low high track tracked shown f los dos
  obtain ⟨⟨q, fbk⟩, word⟩ := ((State.Faults.refl.resCheck (l := l) (t := shown) f.los (e := E.FBK_RES_LOS) (by simp)).resCheck
    f.dos (e := E.FBK_RES_DOS) (by simp)).resCheck f.lot (e := E.FBK_RES_LOT) (by simp)
  refine completes_done ⟨by rw [fbk]; simp [shown, tracked], ?_⟩
  rw [word _ rfl (by decide), State.word_putWord_same]
  exact bits_append_fields ..

/-! ### SSI -/

theorem ssiRequest_starts (live : s.inReset l = false) (idle : (s.lane l).fbk.ssiBusy = false) (free : (s.lane l).fbk.ssiFree ≤ s.time) :
    Completes (exec (.ssiRequest l false) s) fun u =>
      (u.lane l).fbk.ssiBusy = true ∧ (u.lane l).fbk.ssiBad = (s.lane l).fbk.ssiBad := by
  change Completes (execSsiRequest l false s) _
  unfold execSsiRequest
  rw [if_neg (by simp [live])]
  dsimp only
  rw [if_neg (by simp [idle, free])]
  exact completes_done (by simp)

theorem ssiRequest_errs (live : s.inReset l = false) : Completes (exec (.ssiRequest l true) s) fun u =>
    (u.lane l).fbk.ssiBusy = (s.lane l).fbk.ssiBusy ∧ u.fld l F.FBK_FLT_CNT_SSI = satAdd 8 (s.fld l F.FBK_FLT_CNT_SSI) 1 := by
  have run : exec (.ssiRequest l true) s = done (s.ssiError l) := by
    change execSsiRequest l true s = _
    unfold execSsiRequest
    simp [live]
  obtain ⟨⟨q, fbk⟩, count, -⟩ := s.ssiError_counted l
  rw [run]
  exact completes_done ⟨by rw [fbk], count⟩

/-- A frame that ends, before it is judged. -/
def State.ssiEnded (s : State) (l : Lane) : State :=
  s.modFbk l (fun f => { f with ssiBusy := false, ssiFree := s.time + us (s.fld l F.FBK_SSI_TIM_TM) })

theorem ssiFrame_good (live : s.inReset l = false) (busy : (s.lane l).fbk.ssiBusy = true) (data : Word) (err par : Bool)
    (noErr : s.flag l F.FBK_SSI_CFG_ERRB = false) (noPar : s.flag l F.FBK_SSI_CFG_PAR = false)
    (binary : s.flag l F.FBK_SSI_CFG_GRAY = false) : Completes (exec (.ssiFrame l data err par true) s) fun u =>
      (u.lane l).fbk.ssiBusy = false ∧ (u.lane l).fbk.ssiBad = 0 ∧
      (u.lane l).fbk.ssi.head? = some (data.toNat % 2 ^ (s.fld l F.FBK_SSI_CFG_PW_M1 + 1), (s.lane l).fbk.ssiStamp) := by
  change Completes (execSsiFrame l data err par true s) _
  unfold execSsiFrame
  rw [if_neg (by simp [live, busy])]
  extract_lets pw v ended bad p
  have flags : ∀ f : Fld, ended.flag l f = s.flag l f := fun f => by simp only [State.flag, State.fld, ended, State.word_modFbk]
  have good : bad = false := by simp only [bad, flags, noErr, noPar, Bool.not_true, Bool.false_and, Bool.or_self]
  have plain : p = v := by simp only [p, flags, binary, Bool.false_eq_true, if_false]
  rw [if_neg (by simp [good]), plain]
  exact completes_done (by simp [ended, v, pw])

theorem ssiFrame_bad (live : s.inReset l = false) (busy : (s.lane l).fbk.ssiBusy = true) (data : Word) (err par : Bool) :
    Completes (exec (.ssiFrame l data err par false) s) fun u => (u.lane l).fbk.ssiBusy = false ∧
      (u.lane l).fbk.ssi = (s.lane l).fbk.ssi ∧ u.fld l F.FBK_FLT_CNT_SSI = satAdd 8 (s.fld l F.FBK_FLT_CNT_SSI) 1 := by
  have run : exec (.ssiFrame l data err par false) s = done ((s.ssiEnded l).ssiError l) := by
    change execSsiFrame l data err par false s = _
    unfold execSsiFrame
    rw [if_neg (by simp [live, busy])]
    exact if_pos (by simp)
  obtain ⟨⟨q, fbk⟩, count, -⟩ := (s.ssiEnded l).ssiError_counted l
  have ended : ((s.ssiEnded l).lane l).fbk = { (s.lane l).fbk with ssiBusy := false, ssiFree := s.time + us (s.fld l F.FBK_SSI_TIM_TM) } := by
    rw [State.ssiEnded, State.lane_modFbk]
  rw [run]
  refine completes_done ⟨by rw [fbk, ended], by rw [fbk, ended], count.trans ?_⟩
  rw [State.ssiEnded, State.fld, State.word_modFbk]
  rfl

end

/-- Settles O18, sensor by sensor: what each reading leaves, and that the faults and events which follow it leave that alone. That a
stamp is the time of its row is the model's choice (assumption 37). -/
theorem positionSensors : Obligations.PositionSensors := fun _ _ live =>
  ⟨fun _ _ => encEdge_counts live, encEdge_glitches live, indexLatch_keeps live, fun _ _ => hallEdge_takes live,
    fun _ => hallEdge_undefined live, resTrackUpdate_keeps live, ssiRequest_starts live, ssiRequest_errs live,
    fun busy data err par => ⟨ssiFrame_good live busy data err par, ssiFrame_bad live busy data err par⟩⟩

end Sys2Proof.Machine
end

section
/-! PROOF. O19: faults of position sources, their return, and the clears of the position feedback (R116, R123, R126, R131 to R138). -/
namespace Sys2Proof.Machine

/-! ### What keeps a source's fault -/

theorem State.srcFaulted_of_word {a t : State} {l : Lane} (h : t.word l F.FBK_STAT_FAULT.addr = a.word l F.FBK_STAT_FAULT.addr) (x : Src) :
    t.srcFaulted l x = a.srcFaulted l x := congrArg (fun w => bit w _) h

theorem State.EvOnly.srcFaulted_eq {a t : State} (h : a.EvOnly t) (l : Lane) (x : Src) : t.srcFaulted l x = a.srcFaulted l x :=
  State.srcFaulted_of_word (h.word l _ rfl) x

/-! ### The source's bit in the masks of sources -/

theorem getLsbD_clear_idx (v : BitVec 5) (x : Src) : (v &&& ~~~(1#5 <<< x.idx)).getLsbD x.idx = false := by
  cases x <;> simp [Src.idx]

theorem getLsbD_set_idx (v : BitVec 5) (x : Src) : (v ||| 1#5 <<< x.idx).getLsbD x.idx = true := by
  cases x <;> simp [Src.idx]

/-! ### What an answered command shows -/

theorem State.reply_fbk (s : State) (l : Lane) (st : Status) (d : Word) : ((s.reply l st d).lane l).fbk = (s.lane l).fbk := by
  simp [State.reply]

theorem State.reply_fld (s : State) (l : Lane) (st : Status) (d : Word) (f : Fld) : (s.reply l st d).fld l f = s.fld l f :=
  congrArg (fun w => bits w f.lo f.w) (s.reply_word l l st d f.addr)

theorem State.reply_srcFaulted (s : State) (l : Lane) (st : Status) (d : Word) (x : Src) :
    (s.reply l st d).srcFaulted l x = s.srcFaulted l x := State.srcFaulted_of_word (s.reply_word ..) x

section
variable {s : State} {l : Lane}

/-! ### Stale sources and missing edges -/

theorem posStale_faults (live : s.inReset l = false) {x : Src} (stale : s.stale l x s.time = true) :
    Completes (exec (.posStale l x) s) fun u => u.srcFaulted l x = true ∧
      (s.fld l F.FBK_STAT_ACT = x.code → u.flag l F.FBK_ANG_VALID = false) := by
  change Completes (execPosStale l x s) _
  unfold execPosStale
  rw [if_neg (by simp [live, stale])]
  extract_lets reported
  have events : (s.faultSrc l x).EvOnly reported := State.pulseEv_only _ _ _ _ (by simp)
  have fault : reported.srcFaulted l x = true := (events.srcFaulted_eq l x).trans (s.faultSrc_faults l x)
  have active : reported.fld l F.FBK_STAT_ACT = s.fld l F.FBK_STAT_ACT :=
    (congrArg (fun w => bits w _ _) (events.word l _ rfl)).trans (s.faultSrc_fld l x (.inr (by decide)))
  refine completes_done ?_
  split
  · refine ⟨(State.srcFaulted_of_word (State.word_put_ne _ _ _ F.FBK_ANG_VALID 0 _ (by decide)) x).trans fault, fun _ => ?_⟩
    exact congrArg (· != 0) (State.fld_put_same reported l F.FBK_ANG_VALID 0 (by decide))
  · next other => exact ⟨fault, fun act => absurd (by rw [active, act, beq_self_eq_true]) other⟩

theorem speedZeroTimeout_enc (live : s.inReset l = false) :
    Completes (exec (.speedZeroTimeout l .enc) s) fun u => (u.lane l).fbk.encZero = true := by
  have run : exec (.speedZeroTimeout l .enc) s = done (s.modFbk l (fun f => { f with encZero := true })) := if_neg (by simp [live])
  rw [run]
  exact completes_done (by simp)

theorem speedZeroTimeout_hall (live : s.inReset l = false) :
    Completes (exec (.speedZeroTimeout l .hall) s) fun u => (u.lane l).fbk.hallZero = true := by
  have run : exec (.speedZeroTimeout l .hall) s = done (s.modFbk l (fun f => { f with hallZero := true })) := if_neg (by simp [live])
  rw [run]
  exact completes_done (by simp)

/-! ### Disagreement and return -/

theorem State.posDisagree_faults (s : State) (l : Lane) {p q : Src} (prim : srcOfCode (s.fld l F.FBK_SEL_PRIM) = some p)
    (sec : srcOfCode (s.fld l F.FBK_SEL_SEC) = some q) : ((s.posDisagree l).lane l).fbk.posBad = 0 ∧
      ((s.posDisagree l).srcFaulted l p = true ∨ (s.posDisagree l).srcFaulted l q = true) := by
  have posBad : ∀ {t u : State}, t.Faults l u → (t.lane l).fbk.posBad = 0 → (u.lane l).fbk.posBad = 0 := fun h zero => by
    obtain ⟨⟨_, fbk⟩, -⟩ := h
    rw [fbk, zero]
  unfold State.posDisagree
  simp only [prim, sec]
  split
  · split
    · exact ⟨posBad (.faultSrc .refl p) (by simp), .inl (State.faultSrc_faults ..)⟩
    · exact ⟨posBad (.faultSrc .refl q) (by simp), .inr (State.faultSrc_faults ..)⟩
  · exact ⟨posBad (.faultSrc (.faultSrc .refl p) q) (by simp), .inr (State.faultSrc_faults ..)⟩

theorem posDisagree_faults (live : s.inReset l = false) {p q : Src} (prim : srcOfCode (s.fld l F.FBK_SEL_PRIM) = some p)
    (sec : srcOfCode (s.fld l F.FBK_SEL_SEC) = some q) (lasting : s.fld l F.FBK_CHK_CFG_POS_N ≤ (s.lane l).fbk.posBad) :
    Completes (exec (.posDisagree l) s) fun u =>
      (u.lane l).fbk.posBad = 0 ∧ (u.srcFaulted l p = true ∨ u.srcFaulted l q = true) := by
  have run : exec (.posDisagree l) s = done (s.posDisagree l) := if_neg (by simp [live, lasting])
  rw [run]
  exact completes_done (s.posDisagree_faults l prim sec)

theorem sourceReturn_ends (live : s.inReset l = false) {x : Src} (ok : Bool) (qualifying : (s.lane l).fbk.qual.getLsbD x.idx = true) :
    Completes (exec (.sourceReturn l x ok) s) fun u =>
      (u.lane l).fbk.qual.getLsbD x.idx = false ∧ (u.lane l).fbk.below.getLsbD x.idx = !(s.flag l F.FBK_SEL_RETURN_EN && ok) := by
  change Completes (execSourceReturn l x ok s) _
  unfold execSourceReturn
  rw [if_neg (by rw [live, qualifying]; decide)]
  refine completes_done ?_
  rw [State.lane_modFbk]
  refine ⟨getLsbD_clear_idx _ x, ?_⟩
  cases full : s.flag l F.FBK_SEL_RETURN_EN && ok with
  | true => exact getLsbD_clear_idx _ x
  | false => exact getLsbD_set_idx _ x

/-! ### FBK_ENC_OFS and FBK_CLR -/

theorem encOffsetWrite_adds (takes : s.Takes l 0x24058) (w : Word) : Completes (exec (.encOffsetWrite l w) s) fun u =>
    (u.lane l).fbk.ofs = (s.lane l).fbk.ofs + signed 32 w.toNat ∧ (u.lane l).fbk.ofsSeen = true ∧ u.answered l = .ok := by
  have run : exec (.encOffsetWrite l w) s = done ((s.encOffset l w).reply l .ok) :=
    congrArg done (takes.writing_eq fun s => (s.encOffset l w).reply l .ok)
  rw [run]
  refine completes_done ⟨?_, ?_, State.reply_answered ..⟩ <;> rw [State.reply_fbk, State.encOffset, State.lane_modFbk]

theorem fbkClrCnt_clears (takes : s.Takes l 0x2506C) : Completes (exec (.fbkClrCnt l) s) fun u =>
    u.word l F.FBK_FLT_CNT_GLITCH.addr = 0 ∧ u.answered l = .ok := by
  have run : exec (.fbkClrCnt l) s = done ((s.clrFbkCnt l).reply l .ok) :=
    congrArg done (takes.writing_eq fun s => (s.clrFbkCnt l).reply l .ok)
  rw [run]
  exact completes_done ⟨by rw [State.reply_word, State.clrFbkCnt, State.word_putWord_same], State.reply_answered ..⟩

theorem fbkClrDrift_clears (takes : s.Takes l 0x2506C) : Completes (exec (.fbkClrDrift l) s) fun u =>
    u.fld l F.FBK_IDX_ERR_DRIFT = 0 ∧ u.fld l F.FBK_IDX_ERR_LAST_ERR = 0 ∧ u.answered l = .ok := by
  have run : exec (.fbkClrDrift l) s = done ((s.clrDrift l).reply l .ok) :=
    congrArg done (takes.writing_eq fun s => (s.clrDrift l).reply l .ok)
  rw [run]
  refine completes_done ⟨?_, ?_, State.reply_answered ..⟩ <;> rw [State.reply_fld, State.clrDrift]
  · rw [State.fld_put_apart _ _ _ _ _ _ (by decide) (by decide), State.fld_put_same _ _ _ _ (by decide), Nat.zero_mod]
  · rw [State.fld_put_same _ _ _ _ (by decide), Nat.zero_mod]

theorem fbkClrEncRef_references (takes : s.Takes l 0x2506C) : Completes (exec (.fbkClrEncRef l) s) fun u =>
    u.word l F.FBK_IDX_REF_REF.addr = s.word l F.FBK_ENC_CNT_CNT.addr ∧ u.flag l F.FBK_STAT_ENC_REF = true ∧ u.answered l = .ok := by
  have run : exec (.fbkClrEncRef l) s = done ((s.encRef l).reply l .ok) :=
    congrArg done (takes.writing_eq fun s => (s.encRef l).reply l .ok)
  rw [run]
  refine completes_done ⟨?_, ?_, State.reply_answered ..⟩
  · rw [State.reply_word]
    exact (State.word_put_ne _ _ _ F.FBK_STAT_ENC_REF 1 _ (by decide)).trans (State.word_putWord_same ..)
  · rw [State.flag, State.reply_fld]
    exact congrArg (· != 0) (State.fld_put_same _ _ F.FBK_STAT_ENC_REF 1 (by decide))

/-- FBK_CLR.FAULT clears a source's fault, and a source that had one begins its qualification (R135). -/
theorem State.clrSrc_clears (s : State) (l : Lane) (x : Src) : (s.clrSrc l x.idx).srcFaulted l x = false ∧
    (s.srcFaulted l x = true → ((s.clrSrc l x.idx).lane l).fbk.qual.getLsbD x.idx = true) := by
  cases faulted : s.srcFaulted l x with
  | false =>
    have unchanged : s.clrSrc l x.idx = s := if_pos (congrArg (!·) faulted)
    rw [unchanged]
    exact ⟨faulted, fun h => nomatch h⟩
  | true =>
    have cleared : s.clrSrc l x.idx = (s.putFlag l (faultFld x) false).modFbk l (fun f => { f with
        qual := f.qual ||| (1#5 <<< x.idx), los := 0, dos := 0, lot := 0, ssiBad := 0, hallBad := 0, hallRun := 0 }) :=
      if_neg (by rw [Bool.not_eq_true]; exact congrArg (!·) faulted)
    rw [cleared]
    refine ⟨(State.srcFaulted_of_word (State.word_modFbk ..) x).trans (s.putFault_srcFaulted l x false), fun _ => ?_⟩
    rw [State.lane_modFbk]
    exact getLsbD_set_idx _ x

theorem fbkClrFault_clears (takes : s.Takes l 0x2506C) (x : Src) : Completes (exec (.fbkClrFault l x) s) fun u =>
    u.srcFaulted l x = false ∧ u.answered l = .ok ∧ (s.srcFaulted l x = true → (u.lane l).fbk.qual.getLsbD x.idx = true) := by
  have run : exec (.fbkClrFault l x) s = done ((s.clrSrc l x.idx).reply l .ok) :=
    congrArg done (takes.writing_eq fun s => (s.clrSrc l x.idx).reply l .ok)
  obtain ⟨clear, begins⟩ := s.clrSrc_clears l x
  rw [run]
  refine completes_done ⟨(State.reply_srcFaulted ..).trans clear, State.reply_answered .., fun faulted => ?_⟩
  rw [State.reply_fbk]
  exact begins faulted

end

/-- Settles O19: the faults that staleness and disagreement bring, the return of a source, and the two registers that a lane takes. -/
theorem positionSourcesAndClears : Obligations.PositionSourcesAndClears := fun _ _ live =>
  ⟨fun _ => posStale_faults live, speedZeroTimeout_enc live, speedZeroTimeout_hall live, fun _ _ => posDisagree_faults live,
    fun _ => sourceReturn_ends live, encOffsetWrite_adds,
    fun takes => ⟨fbkClrCnt_clears takes, fbkClrDrift_clears takes, fbkClrEncRef_references takes, fbkClrFault_clears takes⟩⟩

end Sys2Proof.Machine
end

section
/-! PROOF. O16: the law table, the loops and the set-point source (R175 to R178, R182). -/
namespace Sys2Proof.Machine

/-! ### What an answered command shows -/

theorem State.reply_eng (s : State) (l : Lane) (st : Status) (d : Word) : ((s.reply l st d).lane l).eng = (s.lane l).eng := by
  simp [State.reply]

theorem State.reply_loopReq (s : State) (l : Lane) (st : Status) (d : Word) : ((s.reply l st d).lane l).loopReq = (s.lane l).loopReq := by
  simp [State.reply]

theorem State.Only.eng_eq {g : Foot} {a s : State} (h : a.Only g s) (eng : .eng ∉ g.parts) (l : Lane) : (s.lane l).eng = (a.lane l).eng :=
  (h.1 .eng eng l).symm

theorem State.fld_modEng (s : State) (l k : Lane) (f : EngState → EngState) (g : Fld) : (s.modEng l f).fld k g = s.fld k g := by
  rw [State.fld, State.word_modEng, State.fld]

/-- A one-bit field reads back the truth value put in it. -/
theorem State.flag_putFlag_same (s : State) (l : Lane) (f : Fld) (b : Bool) (fits : f.lo + f.w ≤ 32) (one : f.w = 1) :
    (s.putFlag l f b).flag l f = b := by
  rw [State.flag, State.putFlag, State.fld_put_same _ _ _ _ fits, one]
  cases b <;> rfl

/-! ### The law table (R175) -/

/-- The comparison of the pair shows in PEER_MATCH alone. -/
theorem State.pairMatch_fld (s : State) (l : Lane) {f : Fld} (apart : f.lo + f.w ≤ 9 ∨ 10 ≤ f.lo) : s.pairMatch.fld l f = s.fld l f := by
  unfold State.pairMatch
  split
  · rfl
  · exact (State.fld_put_apart _ _ _ F.CE_STAT_PEER_MATCH _ _ (by decide) apart).trans
      (State.fld_put_apart _ _ _ F.CE_STAT_PEER_MATCH _ _ (by decide) apart)

/-- FAIL has room for the number of every commit check. -/
theorem State.commitFail_lt (s : State) (l : Lane) : s.commitFail l < 8 := by
  unfold State.commitFail
  dsimp only
  repeat' split
  all_goals decide

/-- How a commit check shows: the number of the check that failed, TABLE_OK and RUN where none did, and the engine's start then. -/
structure State.TableJudged (t : State) (l : Lane) (check : Nat) : Prop where
  fail : t.fld l F.CE_STAT_FAIL = check
  tableOk : t.flag l F.CE_STAT_TABLE_OK = (check == 0)
  run : t.flag l F.CE_CTRL_RUN = (check == 0)
  start : check = 0 → (t.lane l).eng.start = true

/-- What changes the answer alone leaves a table judged. -/
theorem State.TableJudged.answer {t u : State} {l : Lane} {check : Nat} (h : t.TableJudged l check) (k : t.Only { parts := [.answer] } u) :
    u.TableJudged l check where
  fail := (k.fld_eq l (by decide)).trans h.fail
  tableOk := (congrArg (· != 0) (k.fld_eq l (by decide))).trans h.tableOk
  run := (congrArg (· != 0) (k.fld_eq l (by decide))).trans h.run
  start := fun pass => (congrArg EngState.start (k.eng_eq (by decide) l)).trans (h.start pass)

/-- TABLE_OK and RUN set to one value after FAIL. -/
def State.tableShown (s : State) (l : Lane) (fail : Nat) (ok : Bool) : State :=
  ((s.put l F.CE_STAT_FAIL fail).putFlag l F.CE_STAT_TABLE_OK ok).putFlag l F.CE_CTRL_RUN ok

theorem State.tableShown_fail (s : State) (l : Lane) {fail : Nat} (ok : Bool) (small : fail < 8) :
    (s.tableShown l fail ok).fld l F.CE_STAT_FAIL = fail := by
  rw [State.tableShown, State.putFlag, State.fld_put_ne _ _ _ _ _ _ (by decide), State.putFlag,
    State.fld_put_apart _ _ _ _ _ _ (by decide) (by decide), State.fld_put_same _ _ _ _ (by decide)]
  exact Nat.mod_eq_of_lt small

theorem State.tableShown_tableOk (s : State) (l : Lane) (fail : Nat) (ok : Bool) :
    (s.tableShown l fail ok).flag l F.CE_STAT_TABLE_OK = ok :=
  (congrArg (· != 0) (State.fld_put_ne _ _ _ F.CE_CTRL_RUN F.CE_STAT_TABLE_OK _ (by decide))).trans
    (State.flag_putFlag_same _ _ F.CE_STAT_TABLE_OK _ (by decide) rfl)

theorem State.tableShown_run (s : State) (l : Lane) (fail : Nat) (ok : Bool) : (s.tableShown l fail ok).flag l F.CE_CTRL_RUN = ok :=
  State.flag_putFlag_same _ _ F.CE_CTRL_RUN _ (by decide) rfl

/-- A table that fails a check is named invalid by an event, which leaves what is shown. -/
theorem State.commitTable_fails {s : State} {l : Lane} (fails : s.commitFail l ≠ 0) :
    (s.commitTable l).TableJudged l (s.commitFail l) := by
  have run : s.commitTable l = (s.tableShown l (s.commitFail l) false).pulseEv l E.CE_TABLE_INVALID :=
    if_pos (by simpa using fails)
  have kept : ∀ f : Fld, evAddr f.addr = false → (s.commitTable l).fld l f = (s.tableShown l (s.commitFail l) false).fld l f :=
    fun f plain => by rw [run, State.pulseEv_fld _ _ _ _ (by simp) _ _ plain]
  have no : (s.commitFail l == 0) = false := beq_false_of_ne fails
  constructor
  · rw [kept _ rfl, State.tableShown_fail _ _ _ (s.commitFail_lt l)]
  · rw [State.flag, kept _ rfl, no]
    exact State.tableShown_tableOk ..
  · rw [State.flag, kept _ rfl, no]
    exact State.tableShown_run ..
  · exact fun pass => absurd pass fails

/-- A table that passes every check is shown so, and the engine is told to start. -/
theorem State.commitTable_passes {s : State} {l : Lane} (passes : s.commitFail l = 0) :
    (s.commitTable l).TableJudged l (s.commitFail l) := by
  obtain ⟨slow, run⟩ : ∃ slow : Bool, s.commitTable l = (State.modEng
      (((s.tableShown l (s.commitFail l) true).putFlag l F.CE_STAT_CE_SLOW_OK slow).putFlag l F.PWR_STAT_CE_SLOW_OK slow) l
      (fun e => { e with start := true })).pairMatch := ⟨_, if_neg (by simp [passes])⟩
  have kept : ∀ f : Fld, f.lo + f.w ≤ 7 ∨ f.lo = 8 ∧ f.w = 1 ∨ 10 ≤ f.lo → F.PWR_STAT_CE_SLOW_OK.addr ≠ f.addr →
      (s.commitTable l).fld l f = (s.tableShown l (s.commitFail l) true).fld l f := fun f place other => by
    rw [run, State.pairMatch_fld _ _ (by omega), State.fld_modEng, State.putFlag, State.fld_put_ne _ _ _ _ _ _ other, State.putFlag,
      State.fld_put_apart _ _ _ _ _ _ (by decide) (by simp only [F.CE_STAT_CE_SLOW_OK]; omega)]
  have yes : (s.commitFail l == 0) = true := beq_iff_eq.mpr passes
  constructor
  · rw [kept _ (by decide) (by decide), State.tableShown_fail _ _ _ (s.commitFail_lt l)]
  · rw [State.flag, kept _ (by decide) (by decide), yes]
    exact State.tableShown_tableOk ..
  · rw [State.flag, kept _ (by decide) (by decide), yes]
    exact State.tableShown_run ..
  · intro _
    rw [run, (State.pairMatch_only (g := ⟨[], [0x10], false⟩) .refl (by decide)).eng_eq (by decide), State.lane_modEng]

theorem State.commitTable_judged (s : State) (l : Lane) : (s.commitTable l).TableJudged l (s.commitFail l) :=
  (Decidable.em (s.commitFail l = 0)).elim State.commitTable_passes State.commitTable_fails

section
variable {s : State} {l : Lane}

theorem ceStop_stops (takes : s.Takes l 0x10040) (loops : s.word l F.CE_LOOP_STAT_CLOSED.addr = 0) (off : s.allDisabled l = true) :
    Completes (exec (.ceStop l) s) fun u =>
      u.flag l F.CE_CTRL_RUN = false ∧ (u.lane l).eng.stop = true ∧ (u.lane l).eng.start = false ∧ u.answered l = .ok := by
  have accepted : s.ceStop l =
      ((s.putFlag l F.CE_CTRL_RUN false).modEng l (fun e => { e with stop := true, start := false })).reply l .ok :=
    if_neg (by simp only [loops, off]; decide)
  have run : exec (.ceStop l) s = done (s.ceStop l) := congrArg done (takes.writing_eq fun s => s.ceStop l)
  rw [run, accepted]
  refine completes_done ⟨?_, ?_, ?_, State.reply_answered ..⟩
  · rw [State.flag, State.reply_fld, State.fld_modEng]
    exact State.flag_putFlag_same _ _ F.CE_CTRL_RUN _ (by decide) rfl
  · rw [State.reply_eng, State.lane_modEng]
  · rw [State.reply_eng, State.lane_modEng]

theorem commit_judges (takes : s.Takes l 0x10040) (stopped : s.flag l F.CE_CTRL_RUN = false) (off : s.allDisabled l = true) :
    Completes (exec (.commit l) s) fun u =>
      u.fld l F.CE_STAT_FAIL = s.commitFail l ∧ u.flag l F.CE_STAT_TABLE_OK = (s.commitFail l == 0) ∧
      u.flag l F.CE_CTRL_RUN = (s.commitFail l == 0) ∧ (s.commitFail l = 0 → (u.lane l).eng.start = true) ∧
      u.answered l = (if s.commitFail l = 2 then .countErr else .ok) := by
  have judged := s.commitTable_judged l
  have accepted : s.ceCommit l = if s.commitFail l = 2 then (s.commitTable l).reject l .countErr else (s.commitTable l).reply l .ok := by
    unfold State.ceCommit
    rw [if_neg (by simp only [stopped, off]; decide)]
    simp only [judged.fail, beq_iff_eq]
  have answers : (s.commitTable l).Only { parts := [.answer] } (s.ceCommit l) ∧
      (s.ceCommit l).answered l = if s.commitFail l = 2 then .countErr else .ok := by
    rw [accepted]
    split
    · exact ⟨State.reject_answer_only .., State.reject_answered ..⟩
    · exact ⟨State.reply_answer_only .., State.reply_answered ..⟩
  have run : exec (.commit l) s = done (s.ceCommit l) := congrArg done (takes.writing_eq fun s => s.ceCommit l)
  obtain ⟨only, answered⟩ := answers
  obtain ⟨fail, tableOk, running, start⟩ := judged.answer only
  rw [run]
  exact completes_done ⟨fail, tableOk, running, start, answered⟩

/-! ### Loops (R176) -/

theorem mem_loopsOf {mask : BitVec 24} {n : Nat} : n ∈ loopsOf mask ↔ 8 ≤ n ∧ mask.getLsbD (n - 8) = true := by
  simp only [loopsOf, List.mem_filterMap, List.mem_range, Option.ite_none_right_eq_some, Option.some.injEq]
  constructor
  · rintro ⟨i, -, named, rfl⟩
    exact ⟨by omega, by rwa [Nat.add_sub_cancel]⟩
  · rintro ⟨high, named⟩
    exact ⟨n - 8, BitVec.lt_of_getLsbD named, named, by omega⟩

/-- The loops that a mask names, as the bit of each. -/
theorem decide_mem_loopsOf (mask : BitVec 24) (n : Nat) : decide (n ∈ loopsOf mask) = (decide (8 ≤ n) && mask.getLsbD (n - 8)) := by
  rw [Bool.eq_iff_iff, decide_eq_true_iff, mem_loopsOf, Bool.and_eq_true, decide_eq_true_iff]

theorem bit_one_shiftLeft (k n : Nat) (h : n < 32) : bit (1#32 <<< k) n = decide (n = k) := by
  rw [Bool.eq_iff_iff, bit, BitVec.getLsbD_shiftLeft, BitVec.getLsbD_one]
  simp only [Bool.and_eq_true, Bool.not_eq_true', decide_eq_true_eq, decide_eq_false_iff_not]
  omega

theorem bit_set (w : Word) (k n : Nat) (h : n < 32) : bit (w ||| 1#32 <<< k) n = (bit w n || decide (n = k)) := by
  rw [← bit_one_shiftLeft k n h]
  exact BitVec.getLsbD_or

theorem bit_clear (w : Word) (k n : Nat) (h : n < 32) : bit (w &&& ~~~(1#32 <<< k)) n = (bit w n && !decide (n = k)) := by
  rw [← bit_one_shiftLeft k n h, bit, BitVec.getLsbD_and, BitVec.getLsbD_not, decide_eq_true h, Bool.true_and, bit, bit]

/-- Each loop asked for is added to those that wait to close. -/
theorem State.foldl_loopAsk (xs : List Nat) (s : State) (l : Lane) {n : Nat} (h : n < 32) :
    bit ((xs.foldl (fun s n => s.loopAsk l n) s).lane l).loopReq n = (bit (s.lane l).loopReq n || decide (n ∈ xs)) := by
  induction xs generalizing s with
  | nil => simp
  | cons k t ih =>
    rw [List.foldl_cons, ih, State.loopAsk, State.lane_modLane_same, bit_set _ _ _ h]
    simp [Bool.or_assoc]

theorem State.loopOpen_loopClosed (s : State) (l : Lane) (k : Nat) {n : Nat} (h : n < 32) :
    (s.loopOpen l k).loopClosed l n = (s.loopClosed l n && !decide (n = k)) := by
  unfold State.loopClosed State.loopOpen
  rw [State.word_modLane _ _ _ _ _ rfl, State.word_putWord_same, bit_clear _ _ _ h]

/-- Each loop named opens, and the others stay as they are. -/
theorem State.foldl_loopOpen (xs : List Nat) (s : State) (l : Lane) {n : Nat} (h : n < 32) :
    (xs.foldl (fun s n => s.loopOpen l n) s).loopClosed l n = (s.loopClosed l n && !decide (n ∈ xs)) := by
  induction xs generalizing s with
  | nil => simp
  | cons k t ih =>
    rw [List.foldl_cons, ih, State.loopOpen_loopClosed _ _ _ h]
    simp [Bool.and_assoc]

theorem loopClose_asks (takes : s.Takes l 0x10050) (mask : BitVec 24) : Completes (exec (.loopClose l mask) s) fun u => u.answered l = .ok ∧
    ∀ n : Nat, n < 32 → bit (u.lane l).loopReq n = (bit (s.lane l).loopReq n || (decide (8 ≤ n) && mask.getLsbD (n - 8))) := by
  have run : exec (.loopClose l mask) s = done ((s.loopsClose l mask).reply l .ok) :=
    congrArg done (takes.writing_eq fun s => (s.loopsClose l mask).reply l .ok)
  rw [run]
  refine completes_done ⟨State.reply_answered .., fun n h => ?_⟩
  rw [← decide_mem_loopsOf, State.reply_loopReq]
  exact (State.foldl_loopAsk _ s l h)

theorem loopOpen_opens (takes : s.Takes l 0x10054) (mask : BitVec 24) : Completes (exec (.loopOpen l mask) s) fun u => u.answered l = .ok ∧
    ∀ n : Nat, n < 32 → u.loopClosed l n = (s.loopClosed l n && !(decide (8 ≤ n) && mask.getLsbD (n - 8))) := by
  have run : exec (.loopOpen l mask) s = done ((s.loopsOpen l mask).reply l .ok) :=
    congrArg done (takes.writing_eq fun s => (s.loopsOpen l mask).reply l .ok)
  rw [run]
  refine completes_done ⟨State.reply_answered .., fun n h => ?_⟩
  rw [← decide_mem_loopsOf, State.loopClosed, State.reply_word]
  exact State.foldl_loopOpen _ s l h

/-! ### CE_CLR (R182) -/

theorem ceClrNf_clears (takes : s.Takes l 0x1005C) : Completes (exec (.ceClrNf l) s) fun u =>
    u.fld l F.CE_NF_LAST_NF_CNT = 0 ∧ u.answered l = .ok ∧ ∀ n : Fin 16, u.word l (0x12040 + n.val * 4) = 0 := by
  have run : exec (.ceClrNf l) s = done ((s.clrNf l).reply l .ok) := congrArg done (takes.writing_eq fun s => (s.clrNf l).reply l .ok)
  rw [run]
  refine completes_done ⟨?_, State.reply_answered .., fun n => ?_⟩
  · rw [State.reply_fld, State.clrNf, State.fld_put_same _ _ _ _ (by decide), Nat.zero_mod]
  · rw [State.reply_word, State.clrNf, State.word_put_ne _ _ _ _ _ _ (by simp only [F.CE_NF_LAST_NF_CNT]; omega)]
    exact State.foldl_zero (at_ := fun j => 0x12040 + j * 4) s n.isLt (.inl rfl)

theorem ceClrOvr_clears (takes : s.Takes l 0x1005C) : Completes (exec (.ceClrOvr l) s) fun u =>
    u.fld l F.CE_STAT_OVR_CNT = 0 ∧ u.fld l F.CE_STAT_OVR_GRP = 0 ∧ u.answered l = .ok := by
  have run : exec (.ceClrOvr l) s = done ((s.clrOvr l).reply l .ok) := congrArg done (takes.writing_eq fun s => (s.clrOvr l).reply l .ok)
  rw [run]
  refine completes_done ⟨?_, ?_, State.reply_answered ..⟩ <;> rw [State.reply_fld, State.clrOvr]
  · rw [State.fld_put_apart _ _ _ _ _ _ (by decide) (by decide), State.fld_put_same _ _ _ _ (by decide), Nat.zero_mod]
  · rw [State.fld_put_same _ _ _ _ (by decide), Nat.zero_mod]

theorem ceClrMax_clears (takes : s.Takes l 0x1005C) : Completes (exec (.ceClrMax l) s) fun u =>
    u.fld l F.CE_CYC_FAST_MAX = 0 ∧ u.answered l = .ok := by
  have run : exec (.ceClrMax l) s = done ((s.clrMax l).reply l .ok) := congrArg done (takes.writing_eq fun s => (s.clrMax l).reply l .ok)
  rw [run]
  exact completes_done ⟨by rw [State.reply_fld, State.clrMax, State.fld_put_same _ _ _ _ (by decide), Nat.zero_mod],
    State.reply_answered ..⟩

/-! ### The set-point source (R177, R178) -/

/-- The fault flag and its lasting event, set or cleared together. -/
theorem State.putSpFault_shows (live : s.inReset l = false) (b : Bool) :
    ((s.putFlag l F.CE_SP_STAT_FAULT b).levelEv l E.CE_SP_FAULT b).flag l F.CE_SP_STAT_FAULT = b ∧
    ((s.putFlag l F.CE_SP_STAT_FAULT b).levelEv l E.CE_SP_FAULT b).present l E.CE_SP_FAULT = b := by
  have awake : (s.putFlag l F.CE_SP_STAT_FAULT b).dead l E.CE_SP_FAULT = false := by
    rw [State.dead, if_neg (by decide), State.putFlag, State.inReset_put, live]
  refine ⟨?_, State.levelEv_present _ _ _ _ (by simp) awake⟩
  rw [State.flag, State.levelEv_fld _ _ _ _ (by simp) _ _ rfl]
  exact State.flag_putFlag_same _ _ F.CE_SP_STAT_FAULT _ (by decide) rfl

theorem spFault_shows (live : s.inReset l = false) (source : s.fld l F.CE_SP_STAT_SRC_ACT ≠ 0)
    (good : s.flag l F.CE_SP_STAT_FAULT = false) : Completes (exec (.spFault l) s) fun u =>
      u.flag l F.CE_SP_STAT_FAULT = true ∧ u.present l E.CE_SP_FAULT = true := by
  have run : exec (.spFault l) s = done ((s.putFlag l F.CE_SP_STAT_FAULT true).levelEv l E.CE_SP_FAULT true) :=
    congrArg done (if_neg (by rw [live, good, beq_false_of_ne source]; decide))
  rw [run]
  exact completes_done (State.putSpFault_shows live true)

theorem spFaultClear_ends (live : s.inReset l = false) : Completes (exec (.spFaultClear l) s) fun u =>
    u.flag l F.CE_SP_STAT_FAULT = false ∧ u.present l E.CE_SP_FAULT = false := by
  have run : exec (.spFaultClear l) s = done ((s.putFlag l F.CE_SP_STAT_FAULT false).levelEv l E.CE_SP_FAULT false) :=
    congrArg done (if_neg (by simp [live]))
  rw [run]
  exact completes_done (State.putSpFault_shows live false)

/-- RAW has room for the high time in 0.1 % and for the frequency (R177). -/
theorem pinValue_lt (src high period : Nat) : pinValue src high period < 2 ^ 16 := by
  have sat_lt : ∀ a, sat 16 a < 2 ^ 16 := fun a => by unfold sat; omega
  unfold pinValue
  split
  · decide
  · split
    · exact sat_lt _
    · exact Nat.max_lt.mpr ⟨by decide, sat_lt _⟩

/-- A fault of the source leaves the value measured. -/
theorem State.spFault_raw (s : State) (l : Lane) : (s.spFault l).fld l F.CE_SP_STAT_RAW = s.fld l F.CE_SP_STAT_RAW := by
  unfold State.spFault
  split
  · rfl
  · rw [State.levelEv_fld _ _ _ _ (by simp) _ _ rfl, State.putFlag, State.fld_put_apart _ _ _ _ _ _ (by decide) (by decide)]

/-- The end of a period as far as it is measured: a value beyond the range is a fault of the source. -/
def State.spMeasured (s : State) (l : Lane) (v : Nat) : State :=
  if (s.put l F.CE_SP_STAT_RAW v).spOutside l v then (s.put l F.CE_SP_STAT_RAW v).spFault l else s.put l F.CE_SP_STAT_RAW v

theorem State.spMeasured_raw (s : State) (l : Lane) {v : Nat} (h : v < 2 ^ 16) : (s.spMeasured l v).fld l F.CE_SP_STAT_RAW = v := by
  have put : (s.put l F.CE_SP_STAT_RAW v).fld l F.CE_SP_STAT_RAW = v :=
    (State.fld_put_same _ _ _ _ (by decide)).trans (Nat.mod_eq_of_lt h)
  unfold State.spMeasured
  split
  · rw [State.spFault_raw, put]
  · exact put

theorem State.spMeasured_eng (s : State) (l : Lane) (v : Nat) : ((s.spMeasured l v).lane l).eng = (s.lane l).eng := by
  unfold State.spMeasured
  split
  · rw [(State.spFault_only (g := ⟨[], [0x10], false⟩) .refl l (by decide)).eng_eq (by decide), State.put_lane_eng]
  · exact State.put_lane_eng ..

/-- The state at a rising edge, before a period is measured. -/
def State.pinRisen (s : State) (l : Lane) : State := s.modEng l (fun e => { e with pinRise := some s.time })

theorem State.pinRisen_rise (s : State) (l : Lane) : ((s.pinRisen l).lane l).eng.pinRise = some s.time := by
  rw [State.pinRisen, State.lane_modEng]

/-- A rising edge that ends a period: the period is measured where PIN_SP is the source (R177). -/
theorem pinSpEdge_period (live : s.inReset l = false) {t : Nat} (risen : (s.lane l).eng.pinRise = some t) :
    exec (.pinSpEdge l true) s = done (if s.fld l F.CE_SP_STAT_SRC_ACT = 2 ∨ s.fld l F.CE_SP_STAT_SRC_ACT = 3 then
      (s.pinRisen l).spMeasured l (pinValue (s.fld l F.CE_SP_STAT_SRC_ACT) (s.lane l).eng.pinHigh (s.time - t)) else s.pinRisen l) := by
  change execPinSpEdge l true s = _
  unfold execPinSpEdge
  simp only [live, risen, Bool.false_eq_true, if_false, Bool.not_true, State.fld_modEng, Bool.or_eq_true, beq_iff_eq]
  split
  · rfl
  · rfl

theorem pinSpEdge_rises (live : s.inReset l = false) :
    Completes (exec (.pinSpEdge l true) s) fun u => (u.lane l).eng.pinRise = some s.time := by
  cases risen : (s.lane l).eng.pinRise with
  | none =>
    have run : exec (.pinSpEdge l true) s = done (s.pinRisen l) := by
      change execPinSpEdge l true s = _
      unfold execPinSpEdge
      simp only [live, risen, Bool.false_eq_true, if_false]
      rfl
    rw [run]
    exact completes_done (s.pinRisen_rise l)
  | some t =>
    rw [pinSpEdge_period live risen]
    refine completes_done ?_
    split
    · rw [State.spMeasured_eng, State.pinRisen_rise]
    · exact s.pinRisen_rise l

theorem pinSpEdge_falls (live : s.inReset l = false) {t : Nat} (risen : (s.lane l).eng.pinRise = some t) :
    Completes (exec (.pinSpEdge l false) s) fun u => (u.lane l).eng.pinHigh = s.time - t := by
  have run : exec (.pinSpEdge l false) s = done (s.modEng l (fun e => { e with pinHigh := s.time - t })) := by
    change execPinSpEdge l false s = _
    unfold execPinSpEdge
    simp only [live, risen, Bool.false_eq_true, if_false]
    rfl
  rw [run]
  exact completes_done (by rw [State.lane_modEng])

theorem pinSpEdge_measures (live : s.inReset l = false) {t : Nat} (risen : (s.lane l).eng.pinRise = some t)
    (source : s.fld l F.CE_SP_STAT_SRC_ACT = 2 ∨ s.fld l F.CE_SP_STAT_SRC_ACT = 3) : Completes (exec (.pinSpEdge l true) s) fun u =>
      u.fld l F.CE_SP_STAT_RAW = pinValue (s.fld l F.CE_SP_STAT_SRC_ACT) (s.lane l).eng.pinHigh (s.time - t) := by
  rw [pinSpEdge_period live risen, if_pos source]
  exact completes_done (State.spMeasured_raw _ _ (pinValue_lt ..))

end

/-- Settles O16: a table is judged and shown before the answer, loops follow the bits of the mask, and a fault of the set-point source
leaves what its edges have measured. -/
theorem engineAndSetPointCommands : Obligations.EngineAndSetPointCommands := fun _ _ =>
  ⟨ceStop_stops, commit_judges, loopClose_asks, loopOpen_opens,
    fun takes => ⟨ceClrNf_clears takes, ceClrOvr_clears takes, ceClrMax_clears takes⟩,
    spFault_shows, spFaultClear_ends,
    fun live => ⟨pinSpEdge_rises live, fun _ risen => ⟨pinSpEdge_falls live risen, pinSpEdge_measures live risen⟩⟩⟩

end Sys2Proof.Machine
end

section
/-! PROOF. The pages of the gate islands (R255 to R257): their registers, and what a condition of one source leaves of the others of its
page (R88). -/
namespace Sys2Proof.Machine

/-- A register of a gate page, outside the words of its header that events write. -/
structure GateWord (n : Nat) : Prop where
  plain : evAddr n = false
  type : typeAt n = 0x20 ∨ typeAt n = 0x21

theorem pageAt_congr {m n : Nat} (h : m / 0x1000 = n / 0x1000) : pageAt m = pageAt n := by simp only [pageAt, h]

theorem pageAt_hv (n : Fin 34) {k : Nat} (hk : k < 0x1000) : pageAt (0x30000 + n.val * 0x1000 + k) = some (.gdh n) :=
  (pageAt_congr (by omega)).trans ((by decide : ∀ n : Fin 34, pageAt (0x30000 + n.val * 0x1000) = some (.gdh n)) n)

theorem pageAt_lv (n : Fin 12) {k : Nat} (hk : k < 0x1000) : pageAt (0x60000 + n.val * 0x1000 + k) = some (.gdl n) :=
  (pageAt_congr (by omega)).trans ((by decide : ∀ n : Fin 12, pageAt (0x60000 + n.val * 0x1000) = some (.gdl n)) n)

theorem GateWord.hv (n : Fin 34) {k : Nat} (lo : 0x040 ≤ k) (hi : k < 0x1000) : GateWord (0x30000 + n.val * 0x1000 + k) where
  plain := by
    have := n.isLt
    simp only [evAddr, Bool.or_eq_false_iff, Bool.and_eq_false_iff, beq_eq_false_iff_ne, decide_eq_false_iff_not]
    omega
  type := by simp [typeAt, pageAt_hv n hi, Page.type]

theorem GateWord.lv (n : Fin 12) {k : Nat} (lo : 0x040 ≤ k) (hi : k < 0x1000) : GateWord (0x60000 + n.val * 0x1000 + k) where
  plain := by
    have := n.isLt
    simp only [evAddr, Bool.or_eq_false_iff, Bool.and_eq_false_iff, beq_eq_false_iff_ne, decide_eq_false_iff_not]
    omega
  type := by simp [typeAt, pageAt_lv n hi, Page.type]

/-- The sources of a gate page can rise while the monitor runs. -/
theorem State.dead_hv (s : State) (l : Lane) (n : Fin 34) (b : Nat) (alive : s.mon.alive = true) :
    s.dead l ⟨0x30000 + n.val * 0x1000, b⟩ = false := by
  have mon : monAddr (0x30000 + n.val * 0x1000) = true := by
    have page : pageAt (0x30000 + n.val * 0x1000) = some (.gdh n) := pageAt_hv n (k := 0) (by decide)
    simp only [monAddr, page, Page.monServed]
  simp [State.dead, mon, alive]

theorem State.dead_lv (s : State) (l : Lane) (n : Fin 12) (b : Nat) (alive : s.mon.alive = true) :
    s.dead l ⟨0x60000 + n.val * 0x1000, b⟩ = false := by
  have mon : monAddr (0x60000 + n.val * 0x1000) = true := by
    have page : pageAt (0x60000 + n.val * 0x1000) = some (.gdl n) := pageAt_lv n (k := 0) (by decide)
    simp only [monAddr, page, Page.monServed]
  simp [State.dead, mon, alive]

/-- Setting or clearing one bit leaves another. -/
theorem bit_set_ne (w : Word) (on : Bool) {i j : Nat} (h : j ≠ i) :
    bit (if on then w ||| (1#32 <<< i) else w &&& ~~~(1#32 <<< i)) j = bit w j := by
  have other : (1#32 <<< i).getLsbD j = false := by
    simp only [BitVec.getLsbD_shiftLeft, BitVec.getLsbD_one, Bool.and_eq_false_iff, Bool.not_eq_false', decide_eq_true_eq,
      decide_eq_false_iff_not]
    omega
  unfold bit
  split
  · rw [BitVec.getLsbD_or, other, Bool.or_false]
  · rw [BitVec.getLsbD_and, BitVec.getLsbD_not, other]
    by_cases width : j < 32
    · simp [width]
    · simp [BitVec.getLsbD_of_ge w j (by omega)]

/-- A condition of one source leaves the conditions of the other sources, of its page too. -/
theorem State.levelEv_present_bit_ne (s : State) (l : Lane) (e : Ev) (on : Bool) (he : EvOnly.Proper e) (k : Lane) {e' : Ev}
    (he' : EvOnly.Proper e') (h : e'.bit ≠ e.bit) : (s.levelEv l e on).present k e' = s.present k e' := by
  unfold State.levelEv State.present
  split
  · rfl
  · rw [(State.Pends.routed s l e false _).raw k _ (by have := he'.1; omega)]
    have put : bit ((s.putWord l (e.page + 0x010) (if on then s.word l (e.page + 0x010) ||| (1#32 <<< e.bit)
        else s.word l (e.page + 0x010) &&& ~~~(1#32 <<< e.bit))).word k (e'.page + 0x010)) e'.bit =
        bit (s.word k (e'.page + 0x010)) e'.bit := by
      rw [State.word_putWord]
      split
      · rename_i same
        obtain ⟨page, lane⟩ := same
        rw [bit_set_ne _ _ h, page]
        rcases lane with rfl | mon
        · rfl
        · rw [page] at mon
          simp only [State.word, mon, if_true]
      · rfl
    dsimp only
    split
    · rw [(State.Pends.rise State.Pends.refl l e false he).raw k _ (by have := he'.1; omega), put]
    · exact put

end Sys2Proof.Machine
end

section
/-! PROOF. The stop of a traction set, a converter phase or the charger (R212, R274, R293): what it leaves of the gate pages, of the
conditions that they show, and of the islands that are held off. -/
namespace Sys2Proof.Machine

/-- t is s after the function of an HV channel has stopped. -/
inductive State.Stopped (s : State) : State → Prop
  | set (l : Lane) (c : Nat) : Stopped s (s.setFault l c)
  | phase (l : Lane) (m : Nat) : Stopped s (s.phaseStop l m)
  | charger (l : Lane) (c : Nat) : Stopped s (s.chgFault l c)

theorem State.Stopped.only {s t : State} (h : s.Stopped t) : s.Only stopFoot t := by
  cases h with
  | set l c => exact State.setFault_only .refl l c (by decide)
  | phase l m => exact State.phaseStop_only .refl l m (by decide)
  | charger l c => exact State.chgFault_only .refl l c (by decide)

theorem GateWord.not_stopFoot {n : Nat} (h : GateWord n) : stopFoot.has n = false := by
  obtain ⟨plain, type⟩ := h
  rcases type with e | e <;> simp [Foot.has, stopFoot, plain, e]

theorem State.Stopped.fld {s t : State} (h : s.Stopped t) (k : Lane) {f : Fld} (gate : GateWord f.addr) : t.fld k f = s.fld k f := by
  unfold State.fld
  rw [h.only.2 k _ gate.not_stopFoot]

/-! ### Conditions that pages show -/

theorem State.Pends.of_word {a t : State} (h : ∀ k n, t.word k n = a.word k n) : a.Pends t :=
  ⟨fun k n _ _ hb => by rwa [h], fun k n _ => h k n⟩

theorem State.gatesOff_pends (s : State) (ns : List (Fin 34)) : s.Pends (s.gatesOff ns) := .of_word (s.gatesOff_word ns)

theorem State.loopOpen_pends (s : State) (l : Lane) (n : Nat) : s.Pends (s.loopOpen l n) :=
  State.Pends.modLane (s := s.putWord l F.CE_LOOP_STAT_CLOSED.addr _) (.putWord .refl l _ _ (by decide)) l
    (fun x => { x with loopReq := x.loopReq &&& ~~~(1#32 <<< n) }) (fun _ => rfl)

theorem State.setReg_pends (s : State) (l : Lane) (b : Bool) : s.Pends (s.setReg l b) := by
  have one : ∀ (k : Lane) (t : State), s.Pends t → s.Pends ((if t.flag k F.DCL_CTRL_REG && !b then
      t.putWord k F.DCL_VREF_ACT_VREF_ACT.addr (t.word k F.DCL_UDC_UDC.addr) else t).putFlag k F.DCL_CTRL_REG b) := fun k t h =>
    ((h.putWord k _ _ (by decide)).ite h).put k _ _ (by decide)
  exact (one l.other _ (one l s .refl)).ite (one l s .refl)

theorem State.driveK_pends (s : State) : s.Pends s.driveK := by
  have shown : ∀ t : State, t.Pends t.showK := fun t => by
    have one : ∀ (l : Lane) (u : State), t.Pends u → t.Pends (if u.inReset l then u else
        ((u.put l F.SAF_K_DEM_FB u.aon.kfb.toNat).put l F.SAF_K_DEM_OUT u.aon.k.toNat).put l F.SAF_K_DEM_EFF u.kDemand.toNat) :=
      fun l u h => h.ite (((h.put l _ _ (by decide)).put l _ _ (by decide)).put l _ _ (by decide))
    exact one .B _ (one .A t .refl)
  refine State.Pends.trans ?_ (shown _)
  refine State.Pends.fold _ _ (.of_word fun _ _ => rfl) fun t n h => ?_
  have aon : ∀ f, s.Pends (t.modAon f) := fun f => h.trans (.of_word fun _ _ => rfl)
  have mon : ∀ f : MonState → MonState, (∀ x, (f x).regs = x.regs) → s.Pends (t.modMon f) := fun f hf => h.modMon f hf
  exact ((aon _).ite h).ite (mon _ fun _ => rfl)

theorem State.askK_pends (s : State) (l : Lane) (n : Nat) (on : Bool) : s.Pends (s.askK l n on) := by
  unfold State.askK
  refine State.Pends.trans ?_ (State.driveK_pends _)
  exact State.Pends.modMon .refl _ (fun _ => rfl)

theorem State.driveS2_pends (s : State) (l : Lane) (on : Bool) : s.Pends (s.driveS2 l on) :=
  (State.Pends.refl.put l _ _ (by decide)).trans (.of_word fun _ _ => rfl)

theorem State.chgEnd_pends (s : State) (l : Lane) (c : Nat) : s.Pends (s.chgEnd l c) :=
  ((State.Pends.refl.put l _ _ (by decide)).bump l _ _ (by decide)).trans (State.pulseEv_pends _ _ _ _ (by simp))

/-- The end of a session reports an instant and changes no condition. -/
theorem State.chgFault_pends (s : State) (l : Lane) (c : Nat) : s.Pends (s.chgFault l c) := by
  unfold State.chgFault
  split
  · exact .refl
  · extract_lets fault gates loops stages contactors s2 session
    have off : s.Pends gates := (State.Pends.refl.put l _ _ (by decide)).trans (State.gatesOff_pends ..)
    have opened : s.Pends loops := (off.trans (State.loopOpen_pends ..)).trans (State.loopOpen_pends ..)
    have staged : s.Pends stages := (opened.put l _ _ (by decide)).put l _ _ (by decide)
    have asked : s.Pends contactors :=
      ((staged.trans (State.askK_pends ..)).trans (State.askK_pends ..)).trans (State.askK_pends ..)
    have ended : s.Pends session := ((asked.trans (State.driveS2_pends ..)).trans (State.setReg_pends ..)).modLane l _ (fun _ => rfl)
    exact ended.trans (State.chgEnd_pends ..)

theorem State.present_of_raw {s t : State} {k : Lane} {e : Ev} (he : State.EvOnly.Proper e)
    (raw : ∀ n, n % 0x1000 = 0x010 → t.word k n = s.word k n) : t.present k e = s.present k e := by
  unfold State.present
  rw [raw _ (by have := he.1; omega)]

/-- A phase's stop is a condition of the converter's page alone. -/
theorem State.phaseStop_present (s : State) (l : Lane) (m : Nat) (k : Lane) {e : Ev} (he : State.EvOnly.Proper e)
    (page : e.page ≠ E.DCL_PHASE_STOP.page) : (s.phaseStop l m).present k e = s.present k e := by
  unfold State.phaseStop
  split
  · rfl
  · extract_lets gates idle marked counted
    have before : s.Pends counted := (((State.gatesOff_pends ..).put l _ _ (by simp [plainAddr, F.DCL_STAT_ACT])).put l _ _
      (by simp [plainAddr, F.DCL_STAT_ACT])).bump l _ _ (by decide)
    rw [State.levelEv_present_ne _ _ _ _ (by simp) _ _ page he]
    exact State.present_of_raw he (before.raw k)

theorem State.Stopped.present {s t : State} (h : s.Stopped t) (k : Lane) {e : Ev} (he : State.EvOnly.Proper e)
    (page : e.page ≠ E.DCL_PHASE_STOP.page) : t.present k e = s.present k e := by
  cases h with
  | set l c => exact s.setFault_present l k c he
  | phase l m => exact s.phaseStop_present l m k he page
  | charger l c => exact State.present_of_raw he ((s.chgFault_pends l c).raw k)

/-! ### Islands -/

/-- An island whose switch the rules have placed: nothing else changes in it, and no switch that is barred turns on. -/
def HvIsl.Placed (h k : HvIsl) : Prop := ∃ on off : Bool, k = { h with outOn := on, gateOff := off } ∧
  (h.usable = false ∨ h.scLatch = true ∨ h.softOff = true → h.outOn = false → on = false)

theorem HvIsl.Placed.refl (h : HvIsl) : h.Placed h := ⟨h.outOn, h.gateOff, rfl, fun _ off => off⟩

theorem HvIsl.Placed.trans {h i k : HvIsl} (a : h.Placed i) (b : i.Placed k) : h.Placed k := by
  obtain ⟨on, off, rfl, stays⟩ := a
  obtain ⟨on', off', rfl, stays'⟩ := b
  exact ⟨on', off', rfl, fun barred low => stays' barred (stays barred low)⟩

/-- A latched short circuit in its soft-off, with the output off, stays so. -/
theorem HvIsl.Placed.latched {h k : HvIsl} (p : h.Placed k) (latch : h.scLatch = true) (soft : h.softOff = true) (low : h.outOn = false) :
    k.scLatch = true ∧ k.softOff = true ∧ k.outOn = false := by
  obtain ⟨on, off, rfl, stays⟩ := p
  exact ⟨latch, soft, stays (.inr (.inl latch)) low⟩

/-- Every island of t is one of s whose switch has been placed. -/
def State.Placed (s t : State) : Prop := ∀ n : Fin 34, s.hv[n].Placed t.hv[n]

namespace State.Placed
variable {s t u : State}

theorem of_hv (e : t.hv = s.hv) : s.Placed t := fun n => by
  rw [e]
  exact .refl _

theorem trans (h : s.Placed t) (k : t.Placed u) : s.Placed u := fun n => (h n).trans (k n)

theorem modHv (s : State) (m : Fin 34) {f : HvIsl → HvIsl} (hf : s.hv[m].Placed (f s.hv[m])) : s.Placed (s.modHv m f) := fun n => by
  rw [State.modHv_get]
  split
  · next e =>
    subst e
    exact hf
  · exact .refl _

theorem fold {α : Type} (xs : List α) (f : State → α → State) (hf : ∀ (t : State) x, t.Placed (f t x)) (s : State) :
    s.Placed (xs.foldl f s) :=
  List.foldlRecOn (motive := fun t => s.Placed t) xs f (of_hv rfl) (fun _ ht _ _ => ht.trans (hf _ _))

theorem gatesOff (s : State) (ns : List (Fin 34)) : s.Placed (s.gatesOff ns) :=
  fold ns _ (fun t n => modHv t n ⟨false, t.hv[n].gateOff, rfl, fun _ _ => rfl⟩) s

theorem placeTraction (s : State) (n : Fin 34) : s.Placed (s.placeTraction n) := by
  refine modHv s n ⟨_, _, rfl, fun barred _ => if_pos ?_⟩
  rcases barred with e | e | e <;> simp only [e, Bool.not_false, Bool.true_or, Bool.or_true]

theorem placeSet (s : State) (l : Lane) : s.Placed (s.placeSet l) :=
  (fold _ _ (fun t n => placeTraction t n) s).trans (fold _ _ (fun t n => placeTraction t n) _)

theorem setFault (s : State) (l : Lane) (c : Nat) : s.Placed (s.setFault l c) := by
  unfold State.setFault State.safeEntry
  split
  · exact of_hv rfl
  · extract_lets went caused ramp loops placed
    have before : loops.hv = s.hv := by simp [loops, ramp, caused, went]
    have event : (placed.pulseEv l E.TRC_SAFE_ENTRY).hv = placed.hv := State.pulseEv_hv _ _ _ _ (by simp)
    exact (((of_hv before).trans (State.Placed.gatesOff _ _)).trans (State.Placed.placeSet _ _)).trans (of_hv event)

theorem phaseStop (s : State) (l : Lane) (m : Nat) : s.Placed (s.phaseStop l m) := by
  unfold State.phaseStop
  split
  · exact of_hv rfl
  · exact (gatesOff s (phaseChans m)).trans (of_hv (by simp [State.setPhaseActive]))

theorem chgFault (s : State) (l : Lane) (c : Nat) : s.Placed (s.chgFault l c) := by
  unfold State.chgFault
  split
  · exact of_hv rfl
  · exact ((of_hv (State.put_hv s l F.CHG_STAT_STATE 9)).trans (gatesOff _ (afeChans ++ dabChans))).trans (of_hv (by simp))

end State.Placed

theorem State.Stopped.placed {s t : State} (h : s.Stopped t) : s.Placed t := by
  cases h with
  | set l c => exact State.Placed.setFault s l c
  | phase l m => exact State.Placed.phaseStop s l m
  | charger l c => exact State.Placed.chgFault s l c

end Sys2Proof.Machine
end

section
/-! PROOF. Interlock events and leg faults of any leg (R243 to R245): the counts in both pages, the fabric's record, and what a leg fault
leaves of the pages and of the LV island. -/
namespace Sys2Proof.Machine

/-! ### Counts that both pages of a leg show -/

theorem legPages_eq (leg : Nat) : ∃ b, legPages leg = [b, b + 0x1000] := by
  unfold legPages
  split
  · exact ⟨_, by rw [Nat.add_mul, Nat.one_mul, ← Nat.add_assoc]⟩
  · exact ⟨_, by rw [Nat.add_mul, Nat.one_mul, ← Nat.add_assoc]⟩

/-- An event of a leg is counted in the field of eight bits at `off` and `lo` of both its pages. -/
def State.countLeg (s : State) (leg off lo : Nat) : State := (legPages leg).foldl (fun s p => s.mbump ⟨p + off, lo, 8⟩) s

theorem State.countLeg_fld (s : State) (leg : Nat) {off lo p : Nat} (fits : lo + 8 ≤ 32) (hp : p ∈ legPages leg) :
    (s.countLeg leg off lo).mfld ⟨p + off, lo, 8⟩ = satAdd 8 (s.mfld ⟨p + off, lo, 8⟩) 1 := by
  obtain ⟨b, pages⟩ := legPages_eq leg
  have run : s.countLeg leg off lo = (s.bump .A ⟨b + off, lo, 8⟩).bump .A ⟨b + 0x1000 + off, lo, 8⟩ := by
    unfold State.countLeg
    rw [pages]
    rfl
  rw [pages] at hp
  simp only [List.mem_cons, List.not_mem_nil, or_false] at hp
  rw [run, State.mfld_eq, State.mfld_eq]
  rcases hp with rfl | rfl
  · rw [State.bump, State.fld_put_ne _ _ _ _ _ _ (by dsimp only; omega), State.fld_bump_same _ _ _ _ fits]
  · rw [State.fld_bump_same _ _ _ _ fits, State.bump, State.fld_put_ne _ _ _ _ _ _ (by dsimp only; omega)]

theorem State.countLeg_of_put (s : State) (leg off lo : Nat) {α : Type} (g : State → α) (h : ∀ t f v, g (State.put t .A f v) = g t) :
    g (s.countLeg leg off lo) = g s :=
  List.foldlRecOn (motive := fun t => g t = g s) _ _ rfl (fun _ ht _ _ => (h ..).trans ht)

/-! ### What an interlock event sees of the state -/

/-- The fabric of lane l sees in t what it sees in s: the time, its own record of events, and its reset. -/
structure State.SameFabric (l : Lane) (s t : State) : Prop where
  time : t.time = s.time
  events : (t.lane l).legEvents = (s.lane l).legEvents
  reset : t.inReset l = s.inReset l

namespace State.SameFabric
variable {l : Lane} {s t u : State}

theorem trans (h : SameFabric l s t) (k : SameFabric l t u) : SameFabric l s u :=
  ⟨k.time.trans h.time, k.events.trans h.events, k.reset.trans h.reset⟩

theorem pulseEv (s : State) (k : Lane) {e : Ev} (he : State.EvOnly.Proper e) : SameFabric l s (s.pulseEv k e) :=
  ⟨State.pulseEv_time _ _ _ _ he, State.pulseEv_lane_legEvents _ _ _ _ he l, State.pulseEv_inReset _ _ _ _ he l⟩

theorem countLeg (s : State) (leg off lo : Nat) : SameFabric l s (s.countLeg leg off lo) :=
  ⟨s.countLeg_of_put leg off lo State.time (by simp), s.countLeg_of_put leg off lo (fun t => (t.lane l).legEvents) (by simp),
    s.countLeg_of_put leg off lo (fun t => t.inReset l) (by simp)⟩

theorem gatesOff (s : State) (ns : List (Fin 34)) : SameFabric l s (s.gatesOff ns) :=
  ⟨(State.gatesOff_keeps .refl ns).1.2,
    ((State.gatesOff_only (g := ⟨[.hv], [], false⟩) .refl ns (by decide)).1 .legEvents (by decide) l).symm, State.inReset_gatesOff ..⟩

end State.SameFabric

/-! ### A leg fault -/

theorem State.setLegBits_fld (s : State) (leg v : Nat) {f : Fld} (high : 4 ≤ f.lo) : (s.setLegBits leg v).fld .A f = s.fld .A f := by
  have low : ∀ p, (legFld p).lo + (legFld p).w ≤ 4 := fun p => by
    unfold legFld
    split <;> simp
  refine List.foldlRecOn (motive := fun t : State => t.fld .A f = s.fld .A f) _ _ rfl (fun t ht p _ => Eq.trans ?_ ht)
  have := low p
  exact State.fld_put_apart _ _ _ _ _ _ (by omega) (by omega)

theorem State.setLegBits_lv (s : State) (leg v : Nat) : (s.setLegBits leg v).lv = s.lv :=
  List.foldlRecOn (motive := fun t : State => t.lv = s.lv) _ _ rfl (fun t ht _ _ => (State.put_lv t _ _ _).trans ht)

/-- A leg fault writes LEG_FAULT, the lowest bits of one register, in the pages of its leg; their other fields stay. -/
theorem State.legFault_fld (s : State) (l : Lane) (leg : Nat) (hleg : leg < 23) {f : Fld} (gate : GateWord f.addr) (high : 4 ≤ f.lo) :
    (s.legFault l leg).mfld f = s.mfld f := by
  have latched : (s.legLatched l leg).fld .A f = s.fld .A f :=
    (State.levelEv_fld _ _ _ _ (legEv_proper leg hleg) .A f gate.plain).trans (s.setLegBits_fld leg _ high)
  rcases s.legFault_cases l leg with ⟨-, e⟩ | ⟨-, e | e | e⟩ <;> rw [e]
  · have stops : (s.legLatched l leg).Only stopFoot ((s.legLatched l leg).legConsequence leg l) :=
      State.legConsequence_only .refl leg l (by decide)
    rw [State.mfld_eq, State.fld, stops.2 .A _ gate.not_stopFoot]
    exact latched
  · refine (State.fld_put_ne _ _ _ _ f _ fun e => ?_).trans latched
    have red : typeAt F.RED_STAT_SUBJ_OK.addr = 0x40 := by decide
    rcases gate.type with t | t <;> rw [← e, red] at t <;> cases t
  · exact latched

theorem State.legFault_legEvents (s : State) (l k : Lane) (leg : Nat) (hleg : leg < 23) :
    ((s.legFault l leg).lane k).legEvents = (s.lane k).legEvents :=
  ((State.legFault_only (g := ⟨[.hv, .lv, .aon, .mon, .trc, .chg, .loopReq], [0x10, 0x11, 0x20, 0x21, 0x30, 0x31, 0x32, 0x33, 0x34, 0x40,
    0x50], false⟩) .refl l leg hleg (by decide)).1 .legEvents (by decide) k).symm

/-! ### An interlock event -/

/-- The events of a leg within the last millisecond. -/
def State.legNear (s : State) (l : Lane) (leg : Nat) : Nat :=
  ((s.lane l).legEvents.filter (fun e => e.1 == leg && s.time < e.2 + ms 1)).length

/-- An event of a leg noted in a lane's fabric, with the events of the last millisecond. -/
def State.legNoted (s : State) (l : Lane) (leg : Nat) : State :=
  s.modLane l (fun x => { x with legEvents := (leg, s.time) :: x.legEvents.filter (fun e => s.time < e.2 + ms 1) })

theorem State.legEvent_eq (s : State) (l : Lane) (leg : Nat) :
    s.legEvent l leg = if 2 ≤ s.legNear l leg then (s.legNoted l leg).legFault l leg else s.legNoted l leg := by
  unfold State.legEvent
  simp only [ge_iff_le, Nat.reduceLeDiff]
  rfl

theorem State.SameFabric.legNear {l : Lane} {s t : State} (h : SameFabric l s t) (leg : Nat) : t.legNear l leg = s.legNear l leg := by
  unfold State.legNear
  rw [h.time, h.events]

theorem State.legEvent_fld (s : State) (l : Lane) (leg : Nat) (hleg : leg < 23) {f : Fld} (gate : GateWord f.addr) (high : 4 ≤ f.lo) :
    (s.legEvent l leg).mfld f = s.mfld f := by
  have noted : (s.legNoted l leg).mfld f = s.mfld f := congrArg (fun w => bits w f.lo f.w) (State.word_modLane _ _ _ _ _ rfl)
  rw [State.legEvent_eq]
  split
  · exact (State.legFault_fld _ l leg hleg gate high).trans noted
  · exact noted

/-- The event stands in the fabric's record. -/
theorem State.SameFabric.noted {l : Lane} {s t : State} (h : SameFabric l s t) (leg : Nat) (hleg : leg < 23) :
    (leg, s.time) ∈ ((t.legEvent l leg).lane l).legEvents := by
  have noted : (leg, s.time) ∈ ((t.legNoted l leg).lane l).legEvents := by
    rw [State.legNoted, State.lane_modLane_same, ← h.time]
    exact List.mem_cons_self
  rw [State.legEvent_eq]
  split
  · rwa [State.legFault_legEvents _ _ _ _ hleg]
  · exact noted

/-- The third event of an HV leg within 1 ms latches the lane's leg fault. -/
theorem State.SameFabric.latches {l : Lane} {s t : State} (h : SameFabric l s t) (live : s.inReset l = false) (leg : Nat) (hleg : leg < 17)
    (near : 2 ≤ s.legNear l leg) : ((t.legEvent l leg).legBits leg).testBit l.idx = true := by
  have reset : (t.legNoted l leg).inReset l = false := (State.inReset_modLane _ _ _ _ rfl).trans (h.reset.trans live)
  rw [State.legEvent_eq, if_pos (by rwa [h.legNear]), State.legFault_testBit _ _ _ _ hleg, reset]
  simp

/-- Fewer events stop no function. -/
theorem State.SameFabric.few {l : Lane} {s t : State} (h : SameFabric l s t) (leg : Nat) (few : s.legNear l leg < 2) :
    (t.legEvent l leg).hv = t.hv := by
  rw [State.legEvent_eq, if_neg (by rw [h.legNear]; omega)]
  rfl

/-! ### The LV island -/

theorem State.loopOpen_lv (s : State) (l : Lane) (n : Nat) : (s.loopOpen l n).lv = s.lv := State.putWord_lv ..

/-- The LV island of t is that of s with outputs turned off. -/
structure State.LvLower (s t : State) : Prop where
  rest : t.lv = { s.lv with ch := t.lv.ch }
  chan : ∀ c : Fin 12, ∃ on : Bool, t.lv.ch[c] = { s.lv.ch[c] with outOn := s.lv.ch[c].outOn && on }

namespace State.LvLower
variable {s t u : State}

theorem of_lv (e : t.lv = s.lv) : s.LvLower t where
  rest := by rw [e]
  chan := fun c => ⟨true, by rw [e, Bool.and_true]⟩

theorem trans (h : s.LvLower t) (k : t.LvLower u) : s.LvLower u where
  rest := by rw [k.rest, h.rest]
  chan := fun c => by
    obtain ⟨on, e⟩ := h.chan c
    obtain ⟨on', e'⟩ := k.chan c
    exact ⟨on && on', by rw [e', e, Bool.and_assoc]⟩

theorem bridgeOff (s : State) (a : Fin 2) : s.LvLower (s.bridgeOff a) :=
  List.foldlRecOn (motive := fun t : State => s.LvLower t) _ _ (of_lv rfl) fun t ht n _ => ht.trans
    { rest := rfl
      chan := fun c => by
        rw [State.modLvCh_get]
        split
        · next e => exact ⟨false, by rw [e, Bool.and_false]⟩
        · exact ⟨true, by rw [Bool.and_true]⟩ }

theorem actFault (s : State) (l : Lane) (a : Fin 2) (c : Nat) : s.LvLower (s.actFault l a c) := by
  unfold State.actFault
  split
  · exact of_lv rfl
  · extract_lets faulted counted
    have before : counted.lv = s.lv := by simp [counted, faulted]
    exact (of_lv ((counted.loopOpen_lv l (a.val + 6)).trans before)).trans (bridgeOff _ _)

theorem legFault (s : State) (l : Lane) (leg : Nat) (lo : 17 ≤ leg) (hi : leg < 23) : s.LvLower (s.legFault l leg) := by
  have latched : (s.legLatched l leg).lv = s.lv := (State.levelEv_lv _ _ _ _ (legEv_proper leg hi)).trans (s.setLegBits_lv leg _)
  rcases s.legFault_cases l leg with ⟨-, e⟩ | ⟨-, e | e | e⟩ <;> rw [e]
  · exact of_lv rfl
  · refine (of_lv latched).trans ?_
    unfold State.legConsequence
    rw [if_neg (by omega), if_neg (by omega), if_neg (by omega)]
    dsimp only
    split
    · split
      · exact actFault ..
      · exact of_lv rfl
    · split
      · exact actFault ..
      · exact of_lv rfl
  · exact of_lv ((State.put_lv ..).trans latched)
  · exact of_lv latched

theorem legEvent (s : State) (l : Lane) (leg : Nat) (lo : 17 ≤ leg) (hi : leg < 23) : s.LvLower (s.legEvent l leg) := by
  have noted : s.LvLower (s.legNoted l leg) := of_lv rfl
  rw [State.legEvent_eq]
  split
  · exact noted.trans (legFault _ l leg lo hi)
  · exact noted

theorem off (h : s.LvLower t) {c : Fin 12} (low : s.lv.ch[c].outOn = false) : t.lv.ch[c].outOn = false := by
  obtain ⟨on, e⟩ := h.chan c
  rw [e, low]
  rfl

end State.LvLower

theorem lvLegOf_ge (n : Fin 12) : 17 ≤ lvLegOf n := Nat.le_add_right ..

end Sys2Proof.Machine
end

section
/-! PROOF. O12: short circuit, temperature, back-channel and actuator gate protection (R238 to R241, R251, R253, R254). -/
namespace Sys2Proof.Machine

/-! ### Short circuit (R238, R239) -/

/-- A short circuit latched in its island and counted. -/
def State.scLatched (s : State) (n : Fin 34) : State :=
  (s.modHv n (fun h => { h with softOff := true, scLatch := true, outOn := false })).mbump (F.GDH_CNT_SC n.val)

/-- A short circuit latched, stamped and shown, before its function stops. -/
def State.scShown (s : State) (n : Fin 34) : State :=
  ((s.scLatched n).mput (F.GDH_TS_TS n.val) ((s.scLatched n).stamp ((s.scLatched n).hvOwner n)).toNat).levelEv .A (E.GDH_SC n.val) true

theorem sc_run {s : State} {n : Fin 34} (usable : s.hv[n].usable = true) (clear : s.hv[n].scLatch = false)
    (enabled : s.mflag (F.GDH_CFG_SC_EN n.val) = true) : ∃ t, (s.scShown n).Stopped t ∧ exec (.sc n) s = done t := by
  refine ⟨_, ?_, if_neg (by simp only [usable, clear, enabled]; decide)⟩
  split
  · exact .set ..
  · split
    · exact .phase ..
    · exact .charger ..

theorem State.scLatched_stamp (s : State) (n : Fin 34) : (s.scLatched n).stamp ((s.scLatched n).hvOwner n) = s.stamp (s.hvOwner n) := by
  have owner : (s.scLatched n).hvOwner n = s.hvOwner n := by
    unfold State.hvOwner State.scLatched
    rw [State.mbump_eq, State.put_hv, State.modHv_same]
  rw [owner]
  simp [State.stamp, State.scLatched]

theorem sc_latches (s : State) (n : Fin 34) (alive : s.mon.alive = true) (usable : s.hv[n].usable = true)
    (clear : s.hv[n].scLatch = false) (enabled : s.mflag (F.GDH_CFG_SC_EN n.val) = true) : Completes (exec (.sc n) s) fun u =>
      u.hv[n].scLatch = true ∧ u.hv[n].softOff = true ∧ u.hv[n].outOn = false ∧
      u.mfld (F.GDH_TS_TS n.val) = (s.stamp (s.hvOwner n)).toNat % 2 ^ 32 ∧
      u.mfld (F.GDH_CNT_SC n.val) = satAdd 8 (s.mfld (F.GDH_CNT_SC n.val)) 1 ∧ u.present .A (E.GDH_SC n.val) = true := by
  obtain ⟨t, stopped, run⟩ := sc_run usable clear enabled
  rw [run]
  have ts : GateWord (F.GDH_TS_TS n.val).addr := GateWord.hv n (k := 0x078) (by decide) (by decide)
  have cnt : GateWord (F.GDH_CNT_SC n.val).addr := GateWord.hv n (k := 0x06C) (by decide) (by decide)
  have island : (s.scShown n).hv[n] = { s.hv[n] with softOff := true, scLatch := true, outOn := false } := by
    rw [State.scShown, State.levelEv_hv _ _ _ _ (by simp), State.mput_eq, State.put_hv, State.scLatched, State.mbump_eq, State.put_hv,
      State.modHv_same]
  obtain ⟨latch, soft, low⟩ := (stopped.placed n).latched (by rw [island]) (by rw [island]) (by rw [island])
  refine completes_done ⟨latch, soft, low, ?_, ?_, ?_⟩
  · rw [State.mfld_eq, stopped.fld .A ts, State.scShown, State.levelEv_fld _ _ _ _ (by simp) _ _ ts.plain, State.mput_eq,
      State.fld_put_same _ _ _ _ (by simp [F.GDH_TS_TS]), State.scLatched_stamp]
    rfl
  · rw [State.mfld_eq, stopped.fld .A cnt, State.scShown, State.levelEv_fld _ _ _ _ (by simp) _ _ cnt.plain, State.mput_eq,
      State.fld_put_ne _ _ _ _ _ _ (by simp only [F.GDH_TS_TS, F.GDH_CNT_SC]; omega), State.scLatched, State.mbump,
      State.fld_bump_same _ _ _ _ (by simp [F.GDH_CNT_SC])]
    rfl
  · rw [stopped.present .A (by simp) (by simp only [E.GDH_SC, E.DCL_PHASE_STOP]; omega)]
    exact State.levelEv_present _ _ _ _ (by simp) (State.dead_hv _ _ n _ (by simp [State.scLatched, alive]))

theorem softOffEnd_ends (s : State) (n : Fin 34) :
    Completes (exec (.softOffEnd n) s) fun u => u = s.modHv n (fun h => { h with softOff := false }) := completes_done rfl

/-! ### Temperature (R240, R241) -/

/-- The codes of a conversion stored. -/
def State.tmpStored (s : State) (n : Fin 34) (code : BitVec 12) (vp vn : BitVec 16) : State :=
  ((s.mput (F.GDH_TMP_CODE n.val) code.toNat).mput (F.GDH_VSUP_VP n.val) vp.toNat).mput (F.GDH_VSUP_VN n.val) vn.toNat

theorem State.tmpStored_shows (s : State) (n : Fin 34) (code : BitVec 12) (vp vn : BitVec 16) :
    (s.tmpStored n code vp vn).fld .A (F.GDH_TMP_CODE n.val) = code.toNat ∧
    (s.tmpStored n code vp vn).fld .A (F.GDH_VSUP_VP n.val) = vp.toNat ∧
    (s.tmpStored n code vp vn).fld .A (F.GDH_VSUP_VN n.val) = vn.toNat ∧
    (s.tmpStored n code vp vn).fld .A (F.GDH_OT_OT_TH n.val) = s.fld .A (F.GDH_OT_OT_TH n.val) := by
  simp only [State.tmpStored, State.mput_eq]
  have supplies : ∀ {k : Nat} (t : State) (lo w : Nat), k ≠ 0x060 →
      ((t.put .A (F.GDH_VSUP_VP n.val) vp.toNat).put .A (F.GDH_VSUP_VN n.val) vn.toNat).fld .A ⟨0x30000 + n.val * 0x1000 + k, lo, w⟩ =
        t.fld .A ⟨0x30000 + n.val * 0x1000 + k, lo, w⟩ := fun t lo w hk => by
    rw [State.fld_put_ne _ _ _ _ _ _ (by simp only [F.GDH_VSUP_VN]; omega),
      State.fld_put_ne _ _ _ _ _ _ (by simp only [F.GDH_VSUP_VP]; omega)]
  refine ⟨?_, ?_, ?_, ?_⟩
  · exact (supplies (k := 0x05C) _ 0 12 (by decide)).trans
      ((State.fld_put_same _ _ _ _ (by simp [F.GDH_TMP_CODE])).trans (Nat.mod_eq_of_lt code.isLt))
  · rw [State.fld_put_apart _ _ _ _ _ _ (by simp [F.GDH_VSUP_VN]) (by simp [F.GDH_VSUP_VP, F.GDH_VSUP_VN]),
      State.fld_put_same _ _ _ _ (by simp [F.GDH_VSUP_VP])]
    exact Nat.mod_eq_of_lt vp.isLt
  · exact (State.fld_put_same _ _ _ _ (by simp [F.GDH_VSUP_VN])).trans (Nat.mod_eq_of_lt vn.isLt)
  · exact (supplies (k := 0x054) _ 0 12 (by decide)).trans
      (State.fld_put_ne _ _ _ _ _ _ (by simp only [F.GDH_TMP_CODE]; omega))

/-- The conditions of a conversion shown: overtemperature against OT_TH, and an open sensor. -/
def State.tmpShown (s : State) (n : Fin 34) (code : BitVec 12) : State :=
  (s.levelEv .A (E.GDH_OT n.val) (code.toNat ≥ s.mfld (F.GDH_OT_OT_TH n.val))).levelEv .A (E.GDH_TMP_OPEN n.val) (code.toNat > 4000)

theorem State.tmpShown_events (s : State) (n : Fin 34) (code : BitVec 12) : s.EvOnly (s.tmpShown n code) :=
  (State.levelEv_only _ _ _ _ (by simp)).trans (State.levelEv_only _ _ _ _ (by simp))

/-- Each condition shows beside the other, which is one of the same page. -/
theorem State.tmpShown_present (s : State) (n : Fin 34) (code : BitVec 12) (alive : s.mon.alive = true) :
    (s.tmpShown n code).present .A (E.GDH_OT n.val) = decide (s.mfld (F.GDH_OT_OT_TH n.val) ≤ code.toNat) ∧
    (s.tmpShown n code).present .A (E.GDH_TMP_OPEN n.val) = decide (4000 < code.toNat) := by
  refine ⟨?_, State.levelEv_present _ _ _ _ (by simp) (State.dead_hv _ _ n _ (by simpa using alive))⟩
  rw [State.tmpShown, State.levelEv_present_bit_ne _ _ _ _ (by simp) _ (by simp) (by simp [E.GDH_OT, E.GDH_TMP_OPEN])]
  exact State.levelEv_present _ _ _ _ (by simp) (State.dead_hv s .A n _ alive)

theorem tmpConversion_stores (s : State) (n : Fin 34) (code : BitVec 12) (vp vn : BitVec 16) (alive : s.mon.alive = true)
    (usable : s.hv[n].usable = true) : Completes (exec (.tmpConversion n code vp vn) s) fun u =>
      u.mfld (F.GDH_TMP_CODE n.val) = code.toNat ∧ u.mfld (F.GDH_VSUP_VP n.val) = vp.toNat ∧ u.mfld (F.GDH_VSUP_VN n.val) = vn.toNat ∧
      u.present .A (E.GDH_OT n.val) = decide (s.mfld (F.GDH_OT_OT_TH n.val) ≤ code.toNat) ∧
      u.present .A (E.GDH_TMP_OPEN n.val) = decide (4000 < code.toNat) ∧ u.hv = s.hv := by
  have run : exec (.tmpConversion n code vp vn) s = done ((s.tmpStored n code vp vn).tmpShown n code) :=
    if_neg (by simp only [usable]; decide)
  rw [run]
  obtain ⟨tmp, pos, neg, limit⟩ := s.tmpStored_shows n code vp vn
  have running : (s.tmpStored n code vp vn).mon.alive = true := by simpa [State.tmpStored] using alive
  have hv : (s.tmpStored n code vp vn).hv = s.hv := by simp [State.tmpStored]
  generalize s.tmpStored n code vp vn = t at *
  have events := t.tmpShown_events n code
  have kept : ∀ f : Fld, GateWord f.addr → (t.tmpShown n code).mfld f = t.fld .A f := fun f gate => by
    rw [State.mfld_eq, State.fld, events.word .A _ gate.plain, State.fld]
  obtain ⟨hot, open_⟩ := t.tmpShown_present n code running
  refine completes_done ⟨?_, ?_, ?_, ?_, open_, events.hv.trans hv⟩
  · exact (kept _ (GateWord.hv n (k := 0x05C) (by decide) (by decide))).trans tmp
  · exact (kept _ (GateWord.hv n (k := 0x060) (by decide) (by decide))).trans pos
  · exact (kept _ (GateWord.hv n (k := 0x060) (by decide) (by decide))).trans neg
  · rw [hot, State.mfld_eq, limit, State.mfld_eq]

/-! ### A silent back-channel (R251) -/

/-- What a set that enters SAFE keeps of TRC_SM_STAT beyond the ramp: the transition and its cause. -/
theorem State.setFault_record {s : State} {l : Lane} (live : s.inReset l = false) (on : s.sm l ≠ 0) (run : s.sm l ≠ 9) (c : Nat)
    {f : Fld} (addr : f.addr = F.TRC_SM_STAT_STATE.addr) (apart : 16 ≤ f.lo) :
    (s.setFault l c).fld l f = ((s.smGoto l 9).put l F.TRC_SM_STAT_CAUSE c).fld l f := by
  unfold State.setFault State.safeEntry
  rw [if_neg (by simp [live, on, run])]
  extract_lets went caused ramp loops placed
  have ramped : ramp.fld l f = caused.fld l f := by
    simp only [ramp, State.setRamp, State.modTrc]
    rw [State.fld_put_apart _ _ _ F.TRC_SM_STAT_RAMP _ _ (by decide) (.inr apart), State.fld, State.word_modLane _ _ _ _ _ rfl, State.fld]
  have opened : loops.word l f.addr = ramp.word l f.addr := by
    rw [addr]
    exact (State.loopOpen_word _ _ _ _ (by decide)).trans (State.loopOpen_word _ _ _ _ (by decide))
  have still : placed.word l f.addr = loops.word l f.addr := (State.placeSet_word ..).trans (State.gatesOff_word ..)
  rw [State.pulseEv_fld _ _ _ _ (by simp) _ _ (by rw [addr]; decide), State.fld, still, opened]
  exact ramped

theorem islandSilent_safe (s : State) (n : Fin 12) (live : s.inReset (setOf n.val) = false) (on : s.sm (setOf n.val) ≠ 0)
    (run : s.sm (setOf n.val) ≠ 9) : Completes (exec (.islandSilent n) s) fun u =>
      u.sm (setOf n.val) = 9 ∧ u.fld (setOf n.val) F.TRC_SM_STAT_CAUSE = 3 ∧
      u.fld (setOf n.val) F.TRC_SM_STAT_PREV = s.sm (setOf n.val) := by
  have gates : exec (.islandSilent n) s =
    done ((s.gatesOff ((setChans (setOf n.val)).filter (fun c => c.val % 2 == 0))).setFault (setOf n.val) 3) := rfl
  rw [gates]
  generalize setOf n.val = l at *
  generalize (setChans l).filter (fun c => c.val % 2 == 0) = highs
  have sm : (s.gatesOff highs).sm l = s.sm l := by simp only [State.sm, State.fld, State.gatesOff_word]
  have live' : (s.gatesOff highs).inReset l = false := (State.inReset_gatesOff ..).trans live
  rw [← sm] at on run ⊢
  generalize s.gatesOff highs = t at *
  refine completes_done ⟨?_, ?_, ?_⟩
  · rw [State.setFault_sm live', if_neg on]
  · rw [State.setFault_record (f := F.TRC_SM_STAT_CAUSE) live' on run 3 rfl (by decide), State.fld_put_same _ _ _ _ (by decide)]
    rfl
  · rw [State.setFault_record (f := F.TRC_SM_STAT_PREV) live' on run 3 rfl (by decide),
      State.fld_put_apart _ _ _ _ _ _ (by decide) (by decide), State.smGoto, State.putFlag,
      State.fld_put_apart _ _ _ _ _ _ (by decide) (by decide), State.fld_put_apart _ _ _ _ _ _ (by decide) (by decide),
      State.fld_put_same _ _ _ _ (by decide)]
    exact Nat.mod_eq_of_lt (bits_lt ..)

/-! ### Bootstrap undervoltage (R253) -/

/-- A bootstrap undervoltage of high side n stored, its switch off and a refresh asked for, counted and reported. -/
def State.bootShown (s : State) (n : Fin 12) (mv : BitVec 16) : State :=
  ((((s.mput (F.GDL_STAT_VBOOT n.val) mv.toNat).modLvCh n
    (fun c => { c with outOn := false, refresh := true, uvNow := true, bootRun := c.bootRun + 1 })).mbump
      (F.GDL_CNT_BOOT_UV n.val)).pulseEv .A (E.GDL_BOOT_UV n.val))

/-- High side n is off, its refresh asked for, and its voltage stored. -/
def State.BootOff (s : State) (n : Fin 12) (mv : BitVec 16) : Prop :=
  s.mfld (F.GDL_STAT_VBOOT n.val) = mv.toNat ∧ s.lv.ch[n].outOn = false ∧ s.lv.ch[n].refresh = true

theorem State.bootShown_off (s : State) (n : Fin 12) (mv : BitVec 16) : (s.bootShown n mv).BootOff n mv := by
  have stored : GateWord (F.GDL_STAT_VBOOT n.val).addr := GateWord.lv n (k := 0x048) (by decide) (by decide)
  have voltage : (s.bootShown n mv).mfld (F.GDL_STAT_VBOOT n.val) = mv.toNat := by
    rw [State.mfld_eq, State.bootShown, State.pulseEv_fld _ _ _ _ (by simp) _ _ stored.plain, State.mbump_eq,
      State.fld_put_ne _ _ _ _ _ _ (by simp only [F.GDL_CNT_BOOT_UV, F.GDL_STAT_VBOOT]; omega)]
    exact (State.fld_put_same _ _ _ _ (by simp [F.GDL_STAT_VBOOT])).trans (Nat.mod_eq_of_lt mv.isLt)
  have channel : (s.bootShown n mv).lv.ch[n] =
      { s.lv.ch[n] with outOn := false, refresh := true, uvNow := true, bootRun := s.lv.ch[n].bootRun + 1 } := by
    rw [State.bootShown, State.pulseEv_lv _ _ _ _ (by simp), State.mbump_eq, State.put_lv, State.modLvCh_get, if_pos rfl, State.mput_eq,
      State.put_lv]
  exact ⟨voltage, by rw [channel], by rw [channel]⟩

/-- Holding the channel off with a leg fault changes none of it. -/
theorem State.BootOff.held {s : State} {n : Fin 12} {mv : BitVec 16} (h : s.BootOff n mv) (l : Lane) :
    ((s.modLvCh n (fun c => { c with heldOff := true })).legFault l (lvLegOf n)).BootOff n mv := by
  obtain ⟨voltage, low, refresh⟩ := h
  have lower := State.LvLower.legFault (s.modLvCh n (fun c => { c with heldOff := true })) l (lvLegOf n) (lvLegOf_ge n) (lvLegOf_lt n)
  have channel : (s.modLvCh n (fun c => { c with heldOff := true })).lv.ch[n] = { s.lv.ch[n] with heldOff := true } := by
    rw [State.modLvCh_get, if_pos rfl]
  refine ⟨?_, lower.off (by rw [channel]; exact low), ?_⟩
  · rw [State.legFault_fld _ _ _ (lvLegOf_lt n) (GateWord.lv n (k := 0x048) (by decide) (by decide)) (by simp [F.GDL_STAT_VBOOT])]
    exact voltage
  · obtain ⟨on, e⟩ := lower.chan n
    rw [e, channel]
    exact refresh

theorem bootUv_refreshes (s : State) (leg : Fin 6) (mv : BitVec 16) (usable : s.lv.usable = true) :
    Completes (exec (.bootUv leg mv) s) fun u => u.mfld (F.GDL_STAT_VBOOT (2 * leg.val)) = mv.toNat ∧
      (u.lv.ch[(⟨2 * leg.val, by omega⟩ : Fin 12)]).outOn = false ∧
      (u.lv.ch[(⟨2 * leg.val, by omega⟩ : Fin 12)]).refresh = true := by
  let n : Fin 12 := ⟨2 * leg.val, by omega⟩
  have run : exec (.bootUv leg mv) s = done (
      if (s.bootShown n mv).lv.ch[n].bootRun ≥ (s.bootShown n mv).mfld (F.GDL_BOOT_BOOT_N n.val) then
        ((s.bootShown n mv).modLvCh n (fun c => { c with heldOff := true })).legFault (s.lvOwner n) (lvLegOf n)
      else s.bootShown n mv) :=
    if_neg (by simp [usable])
  have off := s.bootShown_off n mv
  rw [run]
  refine completes_done (P := fun u => u.BootOff n mv) ?_
  split
  · exact off.held _
  · exact off

/-! ### Shunt overcurrent (R254) -/

/-- An overcurrent latched on bridge a, its outputs off, and shown. -/
def State.ocShown (s : State) (a : Fin 2) : State :=
  ((s.bridgeOff a).modLv (fun v => if a.val == 0 then { v with oc0 := true } else { v with oc1 := true })).levelEv .A
    (E.GDL_OC (if a.val == 0 then 0 else 6)) true

theorem State.ocShown_shows (s : State) (a : Fin 2) (alive : s.mon.alive = true) :
    (if a.val = 0 then (s.ocShown a).lv.oc0 else (s.ocShown a).lv.oc1) = true ∧
    (∀ c ∈ bridgeChans a, (s.ocShown a).lv.ch[c].outOn = false) ∧
    (s.ocShown a).present .A (E.GDL_OC (6 * a.val)) = true := by
  have lv : (s.ocShown a).lv = if a.val == 0 then { (s.bridgeOff a).lv with oc0 := true } else { (s.bridgeOff a).lv with oc1 := true } := by
    rw [State.ocShown, State.levelEv_lv _ _ _ _ (by simp), State.modLv_lv]
  have page : (if a.val == 0 then 0 else 6) = 6 * a.val := (by decide : ∀ a : Fin 2, (if a.val == 0 then 0 else 6) = 6 * a.val) a
  have low : ∀ c ∈ bridgeChans a, (s.bridgeOff a).lv.ch[c].outOn = false := fun c hc => s.bridgeOff_outOn a c (.inl hc)
  have alive' : (s.bridgeOff a).mon.alive = true :=
    List.foldlRecOn (motive := fun t : State => t.mon.alive = true) _ _ alive (fun _ ht _ _ => ht)
  refine ⟨?_, ?_, ?_⟩
  · rw [lv]
    by_cases h : a.val = 0 <;> simp [h]
  · rw [lv]
    by_cases h : a.val = 0 <;> simpa [h] using low
  · rw [State.ocShown, page]
    exact State.levelEv_present _ _ _ _ (by simp) (State.dead_lv _ _ ⟨6 * a.val, by omega⟩ _ alive')

theorem State.actFault_pends (s : State) (l : Lane) (a : Fin 2) (c : Nat) : s.Pends (s.actFault l a c) := by
  have plain : plainAddr (F.ACT_STAT_STATE a.val).addr ∧ plainAddr (F.ACT_STAT_CAUSE a.val).addr ∧
      plainAddr (F.ACT_CNT_FLT a.val).addr :=
    (by decide : ∀ a : Fin 2, plainAddr (F.ACT_STAT_STATE a.val).addr ∧ plainAddr (F.ACT_STAT_CAUSE a.val).addr ∧
      plainAddr (F.ACT_CNT_FLT a.val).addr) a
  obtain ⟨state, cause, count⟩ := plain
  unfold State.actFault
  split
  · exact .refl
  · extract_lets faulted counted
    have before : s.Pends counted := ((State.Pends.refl.put l _ _ state).put l _ _ cause).bump l _ _ count
    exact (before.trans (State.loopOpen_pends ..)).fold _ _ (fun _ _ h => h.trans (.of_word fun _ _ => rfl))

theorem shuntOc_latches (s : State) (a : Fin 2) (alive : s.mon.alive = true) (usable : s.lv.usable = true) :
    Completes (exec (.shuntOc a) s) fun u => (if a.val = 0 then u.lv.oc0 else u.lv.oc1) = true ∧
      (∀ c ∈ bridgeChans a, u.lv.ch[c].outOn = false) ∧ u.present .A (E.GDL_OC (6 * a.val)) = true := by
  have stop : exec (.shuntOc a) s = done (if (s.ocShown a).actDriven (s.lvOwner (if a.val == 0 then 0 else 6)) a
      then (s.ocShown a).actFault (s.lvOwner (if a.val == 0 then 0 else 6)) a 4 else s.ocShown a) := if_neg (by simp [usable])
  obtain ⟨t, lower, pends, run⟩ : ∃ t, (s.ocShown a).LvLower t ∧ (s.ocShown a).Pends t ∧ exec (.shuntOc a) s = done t := by
    rw [stop]
    generalize s.lvOwner (if a.val == 0 then 0 else 6) = o
    split
    · exact ⟨_, .actFault .., State.actFault_pends .., rfl⟩
    · exact ⟨_, .of_lv rfl, .refl, rfl⟩
  obtain ⟨latch, low, shown⟩ := s.ocShown_shows a alive
  rw [run]
  refine completes_done ⟨?_, fun c hc => lower.off (low c hc), ?_⟩
  · rw [lower.rest]
    exact latch
  · rw [State.present_of_raw (by simp) (pends.raw .A)]
    exact shown

/-- Settles O12: what each protection latches, stores and shows stays through the stop of the function that follows it, which turns no
barred switch on. That GDH_TS takes the low word of the owning lane's stamp is the model's choice (assumption 51). -/
theorem gateProtection : Obligations.GateProtection :=
  ⟨sc_latches, softOffEnd_ends, tmpConversion_stores, islandSilent_safe, bootUv_refreshes, shuntOc_latches⟩

end Sys2Proof.Machine
end

section
/-! PROOF. O13: interlock, dead time and leg faults (R243 to R245). -/
namespace Sys2Proof.Machine

/-! ### An event of a leg, counted and noted -/

/-- t comes from s by a count of an event of the leg in both its pages, and by switches turned off and the report of an instant. -/
structure State.LegCounted (l : Lane) (leg off lo : Nat) (s t : State) : Prop where
  fabric : SameFabric l s t
  count : ∀ p ∈ legPages leg, GateWord (p + off) → t.mfld ⟨p + off, lo, 8⟩ = satAdd 8 (s.mfld ⟨p + off, lo, 8⟩) 1

namespace State.LegCounted
variable {l : Lane} {leg off lo : Nat} {s t : State}

theorem counted (l : Lane) (leg off : Nat) {lo : Nat} (fits : lo + 8 ≤ 32) (s : State) :
    LegCounted l leg off lo s (s.countLeg leg off lo) :=
  ⟨SameFabric.countLeg .., fun _ hp _ => s.countLeg_fld leg fits hp⟩

/-- What changes neither the fabric nor a register keeps the count. -/
theorem of_word {u : State} (h : LegCounted l leg off lo s t) (fabric : SameFabric l t u) (word : ∀ n, u.word .A n = t.word .A n) :
    LegCounted l leg off lo s u :=
  ⟨h.fabric.trans fabric, fun p hp gate => (congrArg (fun w => bits w lo 8) (word (p + off))).trans (h.count p hp gate)⟩

theorem gatesOff (h : LegCounted l leg off lo s t) (ns : List (Fin 34)) : LegCounted l leg off lo s (t.gatesOff ns) :=
  h.of_word (SameFabric.gatesOff ..) (State.gatesOff_word t ns .A)

theorem modLvCh (h : LegCounted l leg off lo s t) (n : Fin 12) (f : LvChan → LvChan) : LegCounted l leg off lo s (t.modLvCh n f) :=
  h.of_word ⟨rfl, rfl, rfl⟩ (fun _ => rfl)

theorem ite {p : Prop} [Decidable p] {u : State} (h : LegCounted l leg off lo s t) (k : LegCounted l leg off lo s u) :
    LegCounted l leg off lo s (if p then t else u) := by
  split
  · exact h
  · exact k

theorem pulseEv (h : LegCounted l leg off lo s t) (k : Lane) {e : Ev} (he : State.EvOnly.Proper e) :
    LegCounted l leg off lo s (t.pulseEv k e) :=
  ⟨h.fabric.trans (SameFabric.pulseEv t k he), fun p hp gate =>
    (State.pulseEv_fld t k e false he .A ⟨p + off, lo, 8⟩ gate.plain).trans (h.count p hp gate)⟩

end State.LegCounted

/-- The count and the record of the event stand after a leg fault, too. -/
theorem State.LegCounted.legEvent {l : Lane} {leg off lo : Nat} {s t : State} (h : LegCounted l leg off lo s t) (hleg : leg < 23)
    (high : 4 ≤ lo) (gate : ∀ p ∈ legPages leg, GateWord (p + off)) :
    (∀ p ∈ legPages leg, (t.legEvent l leg).mfld ⟨p + off, lo, 8⟩ = satAdd 8 (s.mfld ⟨p + off, lo, 8⟩) 1) ∧
    (leg, s.time) ∈ ((t.legEvent l leg).lane l).legEvents :=
  ⟨fun p hp => (t.legEvent_fld l leg hleg (gate p hp) high).trans (h.count p hp (gate p hp)), h.fabric.noted leg hleg⟩

theorem legCnt_gate (n : Fin 34) {p : Nat} (hp : p ∈ legPages (legOf n)) : GateWord (p + 0x068) :=
  ⟨(by decide : ∀ n : Fin 34, ∀ p ∈ legPages (legOf n), evAddr (p + 0x068) = false) n p hp, .inl (legCnt_type n p hp)⟩

theorem lvLegCnt_gate (n : Fin 12) {p : Nat} (hp : p ∈ legPages (lvLegOf n)) : GateWord (p + 0x04C) :=
  ⟨(by decide : ∀ n : Fin 12, ∀ p ∈ legPages (lvLegOf n), evAddr (p + 0x04C) = false) n p hp, .inr (lvLegCnt_type n p hp)⟩

/-! ### Shoot-through requests (R243) -/

theorem shootReq_hv (s : State) (l : Lane) (n : Fin 34) (live : s.inReset l = false) : Completes (exec (.shootReq l (.h n)) s) fun u =>
    (∀ p ∈ legPages (legOf n), u.mfld ⟨p + 0x068, 24, 8⟩ = satAdd 8 (s.mfld ⟨p + 0x068, 24, 8⟩) 1) ∧
    (legOf n, s.time) ∈ (u.lane l).legEvents ∧
    (2 ≤ ((s.lane l).legEvents.filter (fun e => e.1 == legOf n && s.time < e.2 + ms 1)).length →
      (u.legBits (legOf n)).testBit l.idx = true) := by
  obtain ⟨t, counted, run⟩ : ∃ t, State.LegCounted l (legOf n) 0x068 24 s t ∧
      exec (.shootReq l (.h n)) s = done (t.legEvent l (legOf n)) := by
    refine ⟨_, ?_, if_neg (by simp [live])⟩
    have proper : State.EvOnly.Proper ⟨0x30000 + 2 * legOf n * 0x1000, 3⟩ := ⟨by dsimp only; omega, by dsimp only; decide⟩
    have counted := State.LegCounted.counted l (legOf n) 0x068 (lo := 24) (by decide) s
    exact ((counted.gatesOff _).ite counted).pulseEv .A proper
  obtain ⟨count, noted⟩ := counted.legEvent (legOf_lt n) (by decide) (fun p hp => legCnt_gate n hp)
  rw [run]
  exact completes_done ⟨count, noted, fun near => counted.fabric.latches live _ (legOf_lt_hv n) near⟩

theorem shootReq_lv (s : State) (l : Lane) (n : Fin 12) (live : s.inReset l = false) : Completes (exec (.shootReq l (.l n)) s) fun u =>
    (∀ p ∈ legPages (lvLegOf n), u.mfld ⟨p + 0x04C, 8, 8⟩ = satAdd 8 (s.mfld ⟨p + 0x04C, 8, 8⟩) 1) ∧
    (lvLegOf n, s.time) ∈ (u.lane l).legEvents := by
  obtain ⟨t, counted, run⟩ : ∃ t, State.LegCounted l (lvLegOf n) 0x04C 8 s t ∧
      exec (.shootReq l (.l n)) s = done (t.legEvent l (lvLegOf n)) := by
    refine ⟨_, ?_, if_neg (by simp [live])⟩
    have proper : State.EvOnly.Proper ⟨0x60000 + n.val / 2 * 2 * 0x1000, 3⟩ := ⟨by dsimp only; omega, by dsimp only; decide⟩
    have counted := State.LegCounted.counted l (lvLegOf n) 0x04C (lo := 8) (by decide) s
    exact (((counted.modLvCh _ _).modLvCh _ _).ite counted).pulseEv .A proper
  rw [run]
  exact completes_done (counted.legEvent (lvLegOf_lt n) (by decide) (fun p hp => lvLegCnt_gate n hp))

/-! ### Dead-time timeouts (R244) -/

theorem dtTimeout_hv (s : State) (l : Lane) (n : Fin 34) (live : s.inReset l = false) :
    Completes (exec (.dtTimeout (some l) (.h n)) s) fun u =>
      (∀ p ∈ legPages (legOf n), u.mfld ⟨p + 0x068, 16, 8⟩ = satAdd 8 (s.mfld ⟨p + 0x068, 16, 8⟩) 1) ∧
      (legOf n, s.time) ∈ (u.lane l).legEvents ∧
      (((s.lane l).legEvents.filter (fun e => e.1 == legOf n && s.time < e.2 + ms 1)).length < 2 → u.hv[n].outOn = false) := by
  obtain ⟨t, counted, low, run⟩ : ∃ t, State.LegCounted l (legOf n) 0x068 16 s t ∧ t.hv[n].outOn = false ∧
      exec (.dtTimeout (some l) (.h n)) s = done (t.legEvent l (legOf n)) := by
    refine ⟨_, ?_, ?_, if_neg (by simp [live])⟩
    · have before : State.SameFabric l s ((s.pulseEv .A (E.GDH_DT_TIMEOUT n.val)).modHv n (fun h => { h with outOn := false })) :=
        (State.SameFabric.pulseEv s .A (by simp)).trans ⟨rfl, rfl, rfl⟩
      refine ⟨before.trans (State.SameFabric.countLeg ..), fun p hp gate => ?_⟩
      refine (State.countLeg_fld _ (legOf n) (by decide) hp).trans ?_
      rw [State.mfld_eq, State.mfld_eq, State.fld, State.word_modHv, State.pulseEv_word _ _ _ _ (by simp) _ _ gate.plain, State.fld]
    · refine (congrArg (fun v : Vector HvIsl 34 => v[n].outOn) (State.countLeg_of_put _ (legOf n) 0x068 16 State.hv (by simp))).trans ?_
      rw [State.modHv_same]
  obtain ⟨count, noted⟩ := counted.legEvent (legOf_lt n) (by decide) (fun p hp => legCnt_gate n hp)
  rw [run]
  refine completes_done ⟨count, noted, fun few => ?_⟩
  rw [counted.fabric.few _ few]
  exact low

theorem dtTimeout_lv (s : State) (l : Lane) (n : Fin 12) (live : s.inReset l = false) :
    Completes (exec (.dtTimeout (some l) (.l n)) s) fun u => u.lv.ch[n].outOn = false ∧ (lvLegOf n, s.time) ∈ (u.lane l).legEvents := by
  obtain ⟨t, fabric, low, run⟩ : ∃ t, State.SameFabric l s t ∧ t.lv.ch[n].outOn = false ∧
      exec (.dtTimeout (some l) (.l n)) s = done (t.legEvent l (lvLegOf n)) := by
    refine ⟨_, ?_, ?_, if_neg (by simp [live])⟩
    · exact (State.SameFabric.pulseEv s .A (e := E.GDL_DT_TIMEOUT n.val) (by simp)).trans ⟨rfl, rfl, rfl⟩
    · rw [State.modLvCh_get, if_pos rfl]
  rw [run]
  exact completes_done ⟨(State.LvLower.legEvent t l _ (lvLegOf_ge n) (lvLegOf_lt n)).off low, fabric.noted _ (lvLegOf_lt n)⟩

/-! ### Release of a waiting on-edge (R244) -/

/-- A register beside RED_STAT is no part of whether a lane sends its streams. -/
theorem State.put_streams (s : State) (k : Lane) (f : Fld) (v : Nat) (l : Lane) (h : f.addr ≠ F.RED_STAT_SELF.addr) :
    (s.put k f v).streams l = s.streams l := by
  simp [State.streams, State.ready, State.failed, State.self, State.fld_put_ne _ _ _ _ _ _ h]

/-- The wait of an on-edge reported, as the last one and as the longest. -/
def State.waitShown (s : State) (n : Fin 34) (ext : Nat) : State :=
  (s.mput (F.GDH_DT_STAT_EXT_LAST n.val) (sat 16 ext)).mput (F.GDH_DT_STAT_EXT_MAX n.val)
    (max ((s.mput (F.GDH_DT_STAT_EXT_LAST n.val) (sat 16 ext)).mfld (F.GDH_DT_STAT_EXT_MAX n.val)) (sat 16 ext))

theorem State.waitShown_shows (s : State) (n : Fin 34) (ext : Nat) :
    (s.waitShown n ext).mfld (F.GDH_DT_STAT_EXT_LAST n.val) = sat 16 ext ∧
    (s.waitShown n ext).mfld (F.GDH_DT_STAT_EXT_MAX n.val) = max (s.mfld (F.GDH_DT_STAT_EXT_MAX n.val)) (sat 16 ext) := by
  have fits : sat 16 ext < 2 ^ 16 := by
    unfold sat
    omega
  have before : (s.put .A (F.GDH_DT_STAT_EXT_LAST n.val) (sat 16 ext)).fld .A (F.GDH_DT_STAT_EXT_MAX n.val) =
      s.fld .A (F.GDH_DT_STAT_EXT_MAX n.val) :=
    State.fld_put_apart _ _ _ _ _ _ (by simp [F.GDH_DT_STAT_EXT_LAST]) (by simp [F.GDH_DT_STAT_EXT_LAST, F.GDH_DT_STAT_EXT_MAX])
  simp only [State.waitShown, State.mput_eq, State.mfld_eq, before]
  refine ⟨?_, ?_⟩
  · rw [State.fld_put_apart _ _ _ _ _ _ (by simp [F.GDH_DT_STAT_EXT_MAX]) (by simp [F.GDH_DT_STAT_EXT_LAST, F.GDH_DT_STAT_EXT_MAX]),
      State.fld_put_same _ _ _ _ (by simp [F.GDH_DT_STAT_EXT_LAST])]
    exact Nat.mod_eq_of_lt fits
  · exact (State.fld_put_same _ _ _ _ (by simp [F.GDH_DT_STAT_EXT_MAX])).trans (Nat.mod_eq_of_lt (Nat.max_lt.mpr ⟨bits_lt .., fits⟩))

/-- An island acts on the on-edge that lane l releases. -/
def State.obeys (s : State) (l : Lane) (n : Fin 34) : Bool :=
  s.hvOwner n == l && s.streams l && s.hv[n].usable && !s.hv[n].scLatch && !s.hv[n].softOff && !s.hv[n].lost &&
    !(n.val < 12 && s.held (setOf n.val) && !s.hv[n].lineLost)

theorem State.waitShown_obeys (s : State) (l : Lane) (n : Fin 34) (ext : Nat) : (s.waitShown n ext).obeys l n = s.obeys l n := by
  have red : 0x30000 + n.val * 0x1000 + 0x064 ≠ F.RED_STAT_SELF.addr := by
    simp only [F.RED_STAT_SELF]
    omega
  have streams : (s.waitShown n ext).streams l = s.streams l := (State.put_streams _ _ _ _ _ red).trans (State.put_streams _ _ _ _ _ red)
  unfold State.obeys
  rw [streams]
  simp [State.waitShown, State.hvOwner, State.held]

theorem State.obeys_iff (s : State) (l : Lane) (n : Fin 34) : s.obeys l n = true ↔ s.hvOwner n = l ∧ s.streams l = true ∧
    s.hv[n].usable = true ∧ s.hv[n].scLatch = false ∧ s.hv[n].softOff = false ∧ s.hv[n].lost = false ∧
    (n.val < 12 → s.held (setOf n.val) = true → s.hv[n].lineLost = true) := by
  have barred : (decide (n.val < 12) && s.held (setOf n.val) && !s.hv[n].lineLost) = false ↔
      (n.val < 12 → s.held (setOf n.val) = true → s.hv[n].lineLost = true) := by
    cases s.held (setOf n.val) <;> cases s.hv[n].lineLost <;> simp
  simp only [State.obeys, Bool.and_eq_true, Bool.not_eq_true', beq_iff_eq, barred, and_assoc]

theorem deadTimeRelease_hv (s : State) (l : Lane) (n : Fin 34) (ext : Nat) (live : s.inReset l = false)
    (low : s.hv[partner n].outOn = false) : Completes (exec (.deadTimeRelease l (.h n) ext) s) fun u =>
      u.mfld (F.GDH_DT_STAT_EXT_LAST n.val) = sat 16 ext ∧
      u.mfld (F.GDH_DT_STAT_EXT_MAX n.val) = max (s.mfld (F.GDH_DT_STAT_EXT_MAX n.val)) (sat 16 ext) ∧
      (u.hv[n].outOn = true ↔ s.hvOwner n = l ∧ s.streams l = true ∧ s.hv[n].usable = true ∧ s.hv[n].scLatch = false ∧
        s.hv[n].softOff = false ∧ s.hv[n].lost = false ∧
        (n.val < 12 → s.held (setOf n.val) = true → s.hv[n].lineLost = true)) := by
  have run : exec (.deadTimeRelease l (.h n) ext) s = done ((s.waitShown n ext).modHv n (fun h =>
      { h with outOn := s.obeys l n, gateOff := h.gateOff && !s.obeys l n })) := by
    rw [← s.waitShown_obeys l n ext]
    have hv : (s.waitShown n ext).hv = s.hv := by simp [State.waitShown]
    unfold State.obeys
    rw [hv]
    exact (if_neg (by simp [live])).trans (if_neg (by simp only [low]; decide))
  obtain ⟨last, longest⟩ := s.waitShown_shows n ext
  rw [run]
  refine completes_done ⟨last, longest, ?_⟩
  rw [State.modHv_same]
  exact s.obeys_iff l n

theorem deadTimeRelease_lv (s : State) (l : Lane) (n : Fin 12) (ext : Nat) (live : s.inReset l = false)
    (low : s.lv.ch[lvPartner n].outOn = false) : Completes (exec (.deadTimeRelease l (.l n) ext) s) fun u =>
      (u.lv.ch[n].outOn = true ↔ s.lvOwner n = l ∧ s.streams l = true ∧ s.lv.usable = true ∧ s.lv.lost = false ∧
        s.lv.ch[n].heldOff = false ∧ (if n.val < 6 then s.lv.oc0 else s.lv.oc1) = false) := by
  have run : exec (.deadTimeRelease l (.l n) ext) s = _ := (if_neg (by simp [live])).trans (if_neg (by simp only [low]; decide))
  rw [run]
  refine completes_done ?_
  rw [State.modLvCh_get, if_pos rfl]
  simp [and_assoc]

/-- Settles O13: an event is counted and noted before the leg fault that it may make, which writes neither; a release turns an island's
output on under the conditions of the switch alone. -/
theorem interlockAndDeadTime : Obligations.InterlockAndDeadTime :=
  ⟨shootReq_hv, shootReq_lv, deadTimeRelease_hv, deadTimeRelease_lv, dtTimeout_hv, dtTimeout_lv⟩

end Sys2Proof.Machine
end
